-- ==== Sys2Proof/Word.lean ====
section
/-! DEFINITION. The words of the PK9: bytes, 32-bit register words and 64-bit words (R11, R14). -/
namespace Sys2Proof

/-- One byte of memory. -/
abbrev Byte := BitVec 8
/-- One register word (R14). -/
abbrev Word := BitVec 32
/-- One 64-bit word: a PEC instruction, a page-table entry. -/
abbrev Dword := BitVec 64

end Sys2Proof
end

