-- ==== Sys2Proof/Machine/Bits.lean ====
section
/-! DEFINITION. Bit fields, saturating counts, byte order (R11, R15). -/
namespace Sys2Proof.Machine

/-- Bits hi:lo of a word as a number. -/
def bits {n : Nat} (w : BitVec n) (hi lo : Nat) : Nat := (w.toNat / 2 ^ lo) % 2 ^ (hi + 1 - lo)

/-- Bit i of a word. -/
def bit {n : Nat} (w : BitVec n) (i : Nat) : Bool := (w.toNat / 2 ^ i) % 2 = 1

/-- The word with bits hi:lo replaced by the low bits of v. -/
def setBits {n : Nat} (w : BitVec n) (hi lo v : Nat) : BitVec n :=
  let old := bits w hi lo
  BitVec.ofNat n (w.toNat - old * 2 ^ lo + (v % 2 ^ (hi + 1 - lo)) * 2 ^ lo)

/-- The word with bit i set to b. -/
def setBit {n : Nat} (w : BitVec n) (i : Nat) (b : Bool) : BitVec n := setBits w i i (if b then 1 else 0)

/-- A flag as a number. -/
def b2n (b : Bool) : Nat := if b then 1 else 0

/-- A number as a register word. -/
def w32 (k : Nat) : Word := BitVec.ofNat 32 k

/-- The signed number that the low n bits of k stand for. -/
def sext (n k : Nat) : Int :=
  let m := k % 2 ^ n
  if m < 2 ^ (n - 1) then m else (m : Int) - (2 ^ n : Nat)

/-- The low n bits of a signed number. -/
def unsext (n : Nat) (z : Int) : Nat := (z % ((2 ^ n : Nat) : Int)).toNat

/-- The k bytes of a number, little-endian (R11). -/
def natBytes : Nat → Nat → List Byte
  | 0, _ => []
  | k + 1, v => BitVec.ofNat 8 v :: natBytes k (v / 256)

/-- The number that little-endian bytes spell (R11). -/
def bytesNat : List Byte → Nat
  | [] => 0
  | b :: t => b.toNat + 256 * bytesNat t

/-- Quotient rounded up; a divisor of 0 gives 0. -/
def ceilDiv (a b : Nat) : Nat := (a + b - 1) / b

/-- The i-th element, or d beyond the end. -/
def nth {α : Type} (l : List α) (i : Nat) (d : α) : α := l.getD i d

/-- The list with element i replaced; unchanged beyond the end. -/
def setNth {α : Type} : List α → Nat → α → List α
  | [], _, _ => []
  | _ :: t, 0, v => v :: t
  | h :: t, i + 1, v => h :: setNth t i v

/-- The numbers lo, lo+1, … (n of them). -/
def span (lo n : Nat) : List Nat := (List.range n).map (lo + ·)

/-- The number of set bits among the low n of k. -/
def popcount : Nat → Nat → Nat
  | 0, _ => 0
  | n + 1, k => k % 2 + popcount n (k / 2)

/-- The indices of the set bits among the low n of k, ascending. -/
def setIndices (n k : Nat) : List Nat := (List.range n).filter fun i => (k / 2 ^ i) % 2 = 1

/-- The lowest index below n at which p holds. -/
def lowest (n : Nat) (p : Nat → Bool) : Option Nat := (List.range n).find? p

end Sys2Proof.Machine
end

