-- ==== Sys2Proof/Machine/Names.lean ====
section
/-! DEFINITION. Unit numbers, unit classes, contexts and initiator IDs (R19, R28, R30, R43, R213, R594). -/
namespace Sys2Proof.Machine

/-- The classes of units of R594. -/
inductive UClass where
  | devctl | pwr | gauge | warden | sched | marks | xlate | trust | fault
  | tc | tile | spareTile | ve | te | vat | pp | cl | dc | mill | ax | ep | cn | pcie | sdio | bg | mch
  | gang | ring | mp | sp | cs | mc | wp | px
  deriving DecidableEq, Repr

/-- A context that runs commands (R173, R178, R213): clusters carry a general and a real-time one. -/
inductive Ctx where
  | general (c : Nat) | realTime (c : Nat) | gang (g : Nat) | toe (e : Nat) | mill (lc : Nat)
  deriving DecidableEq, Repr

/-- The Mill: a queue's law load runs as mill 0; a segment of logical core lc as mill lc (R383, R386). -/
def Ctx.isMill : Ctx → Bool
  | .mill _ => true
  | _ => false

/-- The part: its grade and temperature suffix (R1, R2, R4), its stepping B1 and its installed memory. -/
structure Part where
  /-- true: PK9-1640; false: PK9-2480. -/
  grade1640 : Bool
  /-- true: suffix -X; false: suffix -A. -/
  suffixX : Bool
  /-- Installed LPDDR4X capacity of the devices, in GiB (R2, R42, R567). -/
  lpddrGiB : Nat
  deriving DecidableEq, Repr

/-- The class of a unit number, over every number R43 assigns (gangs and ring whether formed or not). -/
def unitClass (u : Nat) : Option UClass :=
  if u = 0 then some .devctl else if u = 1 then some .pwr else if u = 2 then some .gauge
  else if u = 3 then some .warden else if u = 4 then some .sched else if u = 5 then some .marks
  else if u = 6 then some .xlate else if u = 7 then some .trust else if u = 8 then some .fault
  else if 0x10 ≤ u && u ≤ 0x15 then some .tc
  else if 0x20 ≤ u && u ≤ 0x7F then
    if u % 16 < 8 then some .tile else if u % 16 = 8 then some .spareTile else none
  else if 0x80 ≤ u && u ≤ 0x85 then some .ve
  else if 0x88 ≤ u && u ≤ 0x89 then some .te
  else if 0x90 ≤ u && u ≤ 0x91 then some .vat
  else if 0xA0 ≤ u && u ≤ 0xAF then some .pp
  else if 0xB0 ≤ u && u ≤ 0xB7 then some .cl
  else if 0xC0 ≤ u && u ≤ 0xCF then some .dc
  else if u = 0xD0 then some .mill
  else if 0xE0 ≤ u && u ≤ 0xE3 then some .ax
  else if 0xE8 ≤ u && u ≤ 0xEB then some .ep
  else if 0xF0 ≤ u && u ≤ 0xF3 then some .cn
  else if u = 0x100 then some .pcie else if u = 0x101 then some .sdio
  else if 0x110 ≤ u && u ≤ 0x11B then some .bg
  else if 0x120 ≤ u && u ≤ 0x137 then some .mch
  else if 0x140 ≤ u && u ≤ 0x142 then some .gang
  else if u = 0x148 then some .ring
  else if 0x180 ≤ u && u ≤ 0x181 then some .mp
  else if 0x182 ≤ u && u ≤ 0x183 then some .sp
  else if 0x184 ≤ u && u ≤ 0x189 then some .cs
  else if 0x18A ≤ u && u ≤ 0x18D then some .mc
  else if 0x18E ≤ u && u ≤ 0x18F then some .wp
  else if 0x190 ≤ u && u ≤ 0x193 then some .px
  else none

def uDevctl : Nat := 0
def uPwr : Nat := 1
def uGauge : Nat := 2
def uWarden : Nat := 3
def uSched : Nat := 4
def uMarks : Nat := 5
def uXlate : Nat := 6
def uTrust : Nat := 7
def uFault : Nat := 8
def uTC (c : Nat) : Nat := 0x10 + c
def uTile (c t : Nat) : Nat := 0x20 + 16 * c + t
def uVE (c : Nat) : Nat := 0x80 + c
def uTE (e : Nat) : Nat := 0x88 + e
def uVat (v : Nat) : Nat := 0x90 + v
def uPP (p : Nat) : Nat := 0xA0 + p
def uCL (l : Nat) : Nat := 0xB0 + l
def uDC (i : Nat) : Nat := 0xC0 + i
def uMill : Nat := 0xD0
def uAX (i : Nat) : Nat := 0xE0 + i
def uEP (i : Nat) : Nat := 0xE8 + i
def uCN (i : Nat) : Nat := 0xF0 + i
def uPcie : Nat := 0x100
def uSdio : Nat := 0x101
def uBG (g : Nat) : Nat := 0x110 + g
def uMCH (m : Nat) : Nat := 0x120 + m
def uGang (g : Nat) : Nat := 0x140 + g
def uRing : Nat := 0x148
def uMP (i : Nat) : Nat := 0x180 + i
def uSP (i : Nat) : Nat := 0x182 + i
def uCS (c : Nat) : Nat := 0x184 + c
def uMC (i : Nat) : Nat := 0x18A + i
def uWP (i : Nat) : Nat := 0x18E + i
def uPX (g : Nat) : Nat := 0x190 + g

/-- Windows that hold registers outside the unit blocks, each as a block of its own in the register
store (the model's numbering, above every unit number of R41): VF pages (R488), the SDIO functions (R499,
R500), mailbox channels (R501), a client's translation context (R506), an initiator's MARK_ADD_SEL (R269),
a client's record (R252), a Mill loop's record (R412). -/
def wVf (n : Nat) : Nat := 0x2000 + n
def wSdioF1 : Nat := 0x2100
def wSdioF2 : Nat := 0x2101
def wChan (ch : Nat) : Nat := 0x2200 + ch
def wXl (client : Nat) : Nat := 0x3000 + client
def wSel (ini : Nat) : Nat := 0x4000 + ini
def wClient (client : Nat) : Nat := 0x5000 + client
def wLoop (l : Nat) : Nat := 0x6000 + l

/-- UCB_ID.CLASS (R594). -/
def classCode : UClass → Nat
  | .devctl => 0x01 | .pwr => 0x02 | .gauge => 0x03 | .warden => 0x04 | .sched => 0x05 | .marks => 0x06
  | .xlate => 0x07 | .trust => 0x08 | .fault => 0x09 | .tc => 0x10 | .tile => 0x11 | .spareTile => 0x12
  | .ve => 0x13 | .te => 0x14 | .vat => 0x15 | .pp => 0x16 | .cl => 0x17 | .dc => 0x18 | .mill => 0x19
  | .ax => 0x1A | .ep => 0x1B | .cn => 0x1C | .pcie => 0x1D | .sdio => 0x1E | .bg => 0x1F | .mch => 0x20
  | .gang => 0x28 | .ring => 0x29 | .mp => 0x30 | .sp => 0x31 | .cs => 0x32 | .mc => 0x33 | .wp => 0x34
  | .px => 0x35

/-- UCB_ID.LEVEL of a unit (R594); PP0, PP4, PP8 and PP12 host a processor. -/
def unitLevel (u : Nat) : UClass → Nat
  | .devctl => 1 | .warden => 1 | .sched => 1 | .tc => 1 | .mill => 1
  | .pp => if u % 4 = 0 then 1 else 0
  | .gang => 2 | .ring => 3 | _ => 0

/-- UCB_CAPS bits 4:0 of a class: SAME_BITS, SELF_TEST, HAS_SPARE, CAN_STAND_IN, LIVE_UPDATE (R594). -/
def classCaps : UClass → Nat
  | .gauge => 0b01100 | .tc => 0b11000 | .tile => 0b01100 | .spareTile => 0b01010 | .te => 0b11000
  | .vat => 0b11000 | .pp => 0b01110 | .ax => 0b01100 | .bg => 0b01100 | .gang => 0b10000 | .ring => 0
  | .mp => 0b01111 | .sp => 0b01111 | .cs => 0b01001 | .mc => 0b01111 | .wp => 0b01111 | .px => 0b01001
  | _ => 0b01000

/-- A processor of R28. -/
def isProcessor : UClass → Bool
  | .mp => true | .sp => true | .cs => true | .mc => true | .wp => true | .px => true | _ => false

/-- The unit a processor's control block lies in, and its index k there (R28, R30). -/
def procHost (u : Nat) : Nat × Nat :=
  match unitClass u with
  | some .mp => (uDevctl, u - 0x180)
  | some .sp => (uSched, u - 0x182)
  | some .cs => (uTC (u - 0x184), 0)
  | some .mc => (uMill, u - 0x18A)
  | some .wp => (uWarden, u - 0x18E)
  | some .px => (uPP (4 * (u - 0x190)), 0)
  | _ => (u, 0)

/-- The unit that a unit is nested in, gangs apart (R28, R38). -/
def parentOf (u : Nat) : Option Nat :=
  match unitClass u with
  | some .tile => some (uTC ((u - 0x20) / 16))
  | some .spareTile => some (uTC ((u - 0x20) / 16))
  | some .ve => some (uTC (u - 0x80))
  | some c => if isProcessor c then some (procHost u).1 else none
  | none => none

/-- A unit and every unit it is nested in. -/
def ancestors (u : Nat) : List Nat :=
  match parentOf u with
  | none => [u]
  | some p => match parentOf p with
    | none => [u, p]
    | some q => [u, p, q]

/-- The units a grade leaves out (R2, R3, R29). -/
def fusedOff (p : Part) (u : Nat) : Bool :=
  p.grade1640 &&
    match unitClass u with
    | some .tc => 4 ≤ u - 0x10
    | some .tile => 4 ≤ (u - 0x20) / 16
    | some .spareTile => 4 ≤ (u - 0x20) / 16
    | some .ve => 4 ≤ u - 0x80
    | some .pp => 12 ≤ u - 0xA0
    | some .ax => 2 ≤ u - 0xE0
    | some .mch => 16 ≤ u - 0x120
    | some .vat => u = 0x91
    | some .cs => 4 ≤ u - 0x184
    | some .px => u = 0x193
    | _ => false

/-- The switched power domain of a unit (R509); none for units of no switched domain (R510). -/
def unitDomain (u : Nat) : Option Nat :=
  match unitClass u with
  | some .tile => some (9 * ((u - 0x20) / 16) + u % 16)
  | some .spareTile => some (9 * ((u - 0x20) / 16) + 8)
  | some .ve => some (54 + (u - 0x80))
  | some .cs => some (54 + (u - 0x184))
  | some .te => some (60 + (u - 0x88))
  | some .vat => some (62 + (u - 0x90))
  | some .pp => some (64 + (u - 0xA0) / 4)
  | some .px => some (64 + (u - 0x190))
  | some .bg => some (68 + (u - 0x110))
  | _ => none

/-- The initiator ID of a context (R213). -/
def ctxIni : Ctx → Nat
  | .general c => c
  | .realTime c => 8 + c
  | .toe e => 0x10 + e
  | .gang g => 0x18 + g
  | .mill _ => 0x48

/-- The context that carries an initiator ID (R213). -/
def iniCtx (ini : Nat) : Option Ctx :=
  if ini < 6 then some (.general ini)
  else if 8 ≤ ini && ini < 14 then some (.realTime (ini - 8))
  else if 0x10 ≤ ini && ini < 0x12 then some (.toe (ini - 0x10))
  else if 0x18 ≤ ini && ini < 0x1B then some (.gang (ini - 0x18))
  else none

/-- The unit that a context's commands run on. -/
def ctxUnit : Ctx → Nat
  | .general c => uTC c
  | .realTime c => uTC c
  | .gang g => uGang g
  | .toe e => uTE e
  | .mill _ => uMill

/-- The numbers of clusters, pipelines, ports, Vats and memory channels of a grade (R2). -/
def numTC (p : Part) : Nat := if p.grade1640 then 4 else 6
def numPP (p : Part) : Nat := if p.grade1640 then 12 else 16
def numAX (p : Part) : Nat := if p.grade1640 then 2 else 4
def numVat (p : Part) : Nat := if p.grade1640 then 1 else 2
def numMCH (p : Part) : Nat := if p.grade1640 then 16 else 24

/-- Every unit number of R43 in ascending order, gangs and ring included. -/
def allUnits : List Nat := (List.range 0x194).filter fun u => (unitClass u).isSome

end Sys2Proof.Machine
end

