-- ==== Sys2Proof/Syntax.lean ====
section
/-! DEFINITION. The commands the block takes: one constructor per row of spec/opcode_table.json. A service
call carries the caller's initiator ID and its argument words as R501 packs them; an event carries what the
environment brings with it (counts, times, results). -/
namespace Sys2Proof
open Sys2Proof.Machine (Ctx)

/-- What arrives with every slot of the ring: the port, and CLASS, SEQ and ACK of its flit's link word (R295); the flits that came
on the port before it and since its last event, as pairs of a SEQ and 4 for a flit of a write (a write arrives with its last DATA
flit), or the CLASS of a CMD flit whose slots are empty (R296); DST, SRC, STREAM and TAG (R297); the tags of the stream's earlier
writes that it has passed on the ring (R299, R309). -/
structure AxHead where
  port : Nat
  cls : Nat
  seq : Nat
  ack : Nat
  came : List (Nat × Nat)
  dst : Nat
  src : Nat
  stream : Nat
  tag : Nat
  passed : List Nat
  deriving DecidableEq, Repr

/-- A command or event of the block. -/
inductive Instr where
  /-- REGISTER_WRITE (R8). A write to a register that has no row of its own is checked for claim, open-register check, width, alignment, reserved bits and field range, then acts or is rejected and recorded. -/
  | registerWrite (ini addr width value : Nat)
  /-- DEVICE_INFORMATION (R4). Service call 0x0000 returns the grade, suffix and stepping. -/
  | deviceInformation (ini : Nat) (args : List Word)
  /-- CLAIM_UNIT (R6). Service call 0x0001 takes an expert claim on a unit and its nested units, or returns CLAIMED. -/
  | claimUnit (ini : Nat) (args : List Word)
  /-- RELEASE_UNIT (R6). Service call 0x0002 releases the caller's claim on a unit, with every claim taken into it. -/
  | releaseUnit (ini : Nat) (args : List Word)
  /-- RATE_WINDOW_END (R24). A 1 µs rate-monitor window ends and its handshake count updates RATE_NOW, RATE_MIN and RATE_MAX. -/
  | rateWindowEnd (mon count : Nat) (off : Bool)
  /-- UCB_REQUEST_DRAIN (R35). A Drain request written to UCB_STATE.REQUEST moves a unit from In service to Draining, or is refused with a REASON. -/
  | ucbRequestDrain (ini u : Nat)
  /-- UCB_REQUEST_TEST (R35). A Test request moves an Out unit to Test and starts its self-test, or is refused. -/
  | ucbRequestTest (ini u : Nat)
  /-- UCB_REQUEST_READMIT (R35). A Readmit request returns a unit in Test to service, is held while its self-test runs, or is refused. -/
  | ucbRequestReadmit (ini u : Nat)
  /-- UNIT_DRAINED (R35). The last command on a Draining unit ends and the unit goes Out. -/
  | unitDrained (u : Nat)
  /-- SELF_TEST_DONE (R35). A unit's self-test ends; on a pass the unit stays in Test or completes a held Readmit, and on a failure it returns to Out with FAULT set. -/
  | selfTestDone (u : Nat) (pass : Bool)
  /-- READ_UNIT_CONTROL_BLOCK (R40). Service call 0x0003 returns the eleven control-block words of a unit. -/
  | readUnitControlBlock (ini : Nat) (args : List Word)
  /-- REQUEST_UNIT_STATE (R35). Service call 0x0004 makes a state request to a unit or group under the transition and group rules. -/
  | requestUnitState (ini : Nat) (args : List Word)
  /-- LIST_UNITS (R40). Service call 0x0005 lists existing units with their class and STATE. -/
  | listUnits (ini : Nat) (args : List Word)
  /-- READ_RATE_MONITORS (R40). Service call 0x0006 returns RATE_NOW and RATE_MIN of every monitor. -/
  | readRateMonitors (ini : Nat) (args : List Word)
  /-- READ_NUMERIC_IDENTITY (R76). Service call 0x0E00 returns NUM_ID of a cluster or toe engine. -/
  | readNumericIdentity (ini : Nat) (args : List Word)
  /-- WINDOW_BOUNDS (R67). Service call 0x0E01 computes the exact and spill-free window-base bounds for an operand pair. -/
  | windowBounds (ini : Nat) (args : List Word)
  /-- WRITE_RESCALE_TABLE (R76). Service call 0x0E02 checks rescale entries and writes them into a parcel, or returns RANGE. -/
  | writeRescaleTable (ini : Nat) (args : List Word)
  /-- READ_STATISTICS (R76). Service call 0x0E03 returns statistics records. -/
  | readStatistics (ini : Nat) (args : List Word)
  /-- SET_SCALE_GUARD (R76). Service call 0x0E04 sets the spill and underflow guard thresholds of a unit. -/
  | setScaleGuard (ini : Nat) (args : List Word)
  /-- READ_NUMERIC_TOTALS (R76). Service call 0x0E05 reads and clears the numerics counters of a unit. -/
  | readNumericTotals (ini : Nat) (args : List Word)
  /-- CL_CFG_SPARE_WRITE (R100). A write to CL_CFG.SPARE_EN binds or unbinds T8, and is rejected while T8 stands in. -/
  | clCfgSpareWrite (ini c value : Nat)
  /-- READ_CLUSTER_STATUS (R102). Service call 0x0010 returns the status and reservation registers of a cluster. -/
  | readClusterStatus (ini : Nat) (args : List Word)
  /-- FORM_GANG (R95). Service call 0x0011 forms a gang from a cluster mask, or returns PENDING, GANG_BUSY or GANG_BARRED. -/
  | formGang (ini : Nat) (args : List Word)
  /-- GANG_FORMED (R95). A pending gang formation completes at the first instant at which no member runs a command. -/
  | gangFormed (g : Nat)
  /-- DISSOLVE_GANG (R98). Service call 0x0012 dissolves a gang, or returns PENDING while it runs a command. -/
  | dissolveGang (ini : Nat) (args : List Word)
  /-- GANG_DISSOLVED (R98). A pending dissolution completes when the gang runs no command, and its unit number becomes free. -/
  | gangDissolved (g : Nat)
  /-- SET_SPARE_ENABLE (R102). Service call 0x0013 sets SPARE_EN of a cluster. -/
  | setSpareEnable (ini : Nat) (args : List Word)
  /-- READ_TILE_COUNTERS (R102). Service call 0x0014 reads a tile's counters, clearing the RC ones. -/
  | readTileCounters (ini : Nat) (args : List Word)
  /-- READ_STEP_TABLE (R102). Service call 0x0015 returns the step counts of R88. -/
  | readStepTable (ini : Nat) (args : List Word)
  /-- TE_FEED_WRITE (R132). A write to TE_FEED binds or unbinds a Press pipeline to a toe engine, or is rejected. -/
  | teFeedWrite (ini e value : Nat)
  /-- READ_TOE_ENGINE_STATUS (R134). Service call 0x0016 returns the status registers of a toe engine. -/
  | readToeEngineStatus (ini : Nat) (args : List Word)
  /-- BIND_TOE_FEED (R134). Service call 0x0017 binds or unbinds a pipeline to a toe engine. -/
  | bindToeFeed (ini : Nat) (args : List Word)
  /-- READ_TOE_COUNTERS (R134). Service call 0x0018 reads and clears a toe engine's counters. -/
  | readToeCounters (ini : Nat) (args : List Word)
  /-- BUILD_PADDING_TAP_TABLE (R118). Service call 0x0E06 builds a padding-tap table from the weights, pad code and window base. -/
  | buildPaddingTapTable (ini : Nat) (args : List Word)
  /-- WINOGRAD_WINDOW_BOUNDS (R116). Service call 0x0E07 computes the window bounds of a Winograd operation. -/
  | winogradWindowBounds (ini : Nat) (args : List Word)
  /-- VE_CFG_WRITE (R145). A write to VE_CFG sets ARRIVAL_EN, and a write of 1 is rejected while same-bits mode is on. -/
  | veCfgWrite (ini v value : Nat)
  /-- READ_TABLE_SET (R140). Service call 0x0E08 returns values of the special-function table set. -/
  | readTableSet (ini : Nat) (args : List Word)
  /-- EVALUATE_SPECIAL_FUNCTION (R142). Service call 0x0E09 evaluates a special function bit for bit. -/
  | evaluateSpecialFunction (ini : Nat) (args : List Word)
  /-- READ_VECTOR_ENGINE_COUNTERS (R162). Service call 0x0E0A reads a vector engine's counters. -/
  | readVectorEngineCounters (ini : Nat) (args : List Word)
  /-- SET_ARRIVAL_ORDER (R162). Service call 0x0E0B sets ARRIVAL_EN, or returns SAME_BITS_ON. -/
  | setArrivalOrder (ini : Nat) (args : List Word)
  /-- DOORBELL (R249). A queue ID written to SCHED.DOORBELL makes the scheduler read the entry at HEAD, loading the descriptor into the queue cache. -/
  | doorbell (ini q : Nat)
  /-- ENTRY_READ (R164). The scheduler reads and checks the entry at HEAD, refusing an invalid one or taking a visible one toward readiness. -/
  | entryRead (q : Nat)
  /-- START_CONDITION_MET (R166). A mark update satisfies a waiting entry's start condition, which then holds until dispatch. -/
  | startConditionMet (q : Nat)
  /-- COMMAND_DISPATCH (R258). A unit becomes free, the scheduler chooses a ready entry by virtual time, and the prologue runs its header, budget and checks. -/
  | commandDispatch (x : Ctx)
  /-- INSTRUCTION_COMPLETE (R175). A unit finishes an instruction and its writes are acknowledged, releasing the FENCE or mark ordering that waits on it. -/
  | instructionComplete (x : Ctx) (unit : Nat) (hs blocks bytes stalls : List Nat)
  /-- COMMAND_EPILOGUE (R177). Every unit of a command has completed; the epilogue applies DONE_OP, returns unused credits and writes the completion record. -/
  | commandEpilogue (x : Ctx) (steps : Nat)
  /-- EVENT_ROUTE_SIGNAL (R253). The 1 µs hold-off ends and the client's route is signalled for the events written. -/
  | eventRouteSignal (c : Nat)
  /-- BUDGET_EXPIRY (R260). The elapsed time passes BUDGET; the command is stopped and ends with BUDGET_OVERRUN. -/
  | budgetExpiry (x : Ctx)
  /-- NOP (R179). No operation. -/
  | nop (x : Ctx)
  /-- TDADDR (R179). Sets the base address of a tensor descriptor. -/
  | tdaddr (x : Ctx)
  /-- TDFMT (R179). Sets the format, zero point, scale flags and start tag of a descriptor. -/
  | tdfmt (x : Ctx)
  /-- TDSTRIDE (R179). Sets the pixel and row strides of a descriptor. -/
  | tdstride (x : Ctx)
  /-- TDSCALE (R179). Sets the scale-stream address of a descriptor. -/
  | tdscale (x : Ctx)
  /-- TDDIM (R179). Sets the rows and columns of a descriptor. -/
  | tddim (x : Ctx)
  /-- TDMEMB (R181). Sets the per-member byte offset of a descriptor. -/
  | tdmemb (x : Ctx)
  /-- WINSET (R66). Replaces the window base for later matrix operations of the command. -/
  | winset (x : Ctx)
  /-- CPSET (R185). Loads one convolution word. -/
  | cpset (x : Ctx)
  /-- SSET (R179). Loads a scalar register. -/
  | sset (x : Ctx)
  /-- FENCE (R175). Stalls issue until earlier instructions on the named units have completed. -/
  | fence (x : Ctx)
  /-- ONLY (R181). Restricts the next instruction to the named gang members. -/
  | only (x : Ctx)
  /-- RMSET (R187). Sets row-mark ring writing for the next convolution instruction. -/
  | rmset (x : Ctx)
  /-- MOVE (R191). A culvert copies LENGTH bytes, taking credits and optionally folding a digest. -/
  | move (x : Ctx)
  /-- MOVE2D (R191). A culvert copies rows at each descriptor's stride. -/
  | move2d (x : Ctx)
  /-- FILL (R191). A culvert writes a pattern byte over LENGTH bytes. -/
  | fill (x : Ctx)
  /-- SCALETAG (R56). A culvert converts packed MX scales to the tagged 2-byte layout. -/
  | scaletag (x : Ctx)
  /-- PAGES (R191). A culvert gathers key/value pages named by a page table. -/
  | pages (x : Ctx)
  /-- MATMUL (R183). The tile set runs a matrix multiply with exact accumulation, rescale and statistics. -/
  | matmul (x : Ctx)
  /-- CONV (R183). The tile set runs a direct or Winograd convolution. -/
  | conv (x : Ctx)
  /-- PSADD (R184). The reducer adds members' partial-sum records and converts once. -/
  | psadd (x : Ctx)
  /-- ELEM (R189). The lane array runs an element-wise operation. -/
  | elem (x : Ctx)
  /-- SPECIAL (R141). The lane array evaluates a special function. -/
  | special (x : Ctx)
  /-- REDUCE (R144). The lane array reduces each row in fixed order or as an exact sum. -/
  | reduce (x : Ctx)
  /-- LNORM (R147). Layer normalisation of each row. -/
  | lnorm (x : Ctx)
  /-- RMSNORM (R147). RMS normalisation of each row. -/
  | rmsnorm (x : Ctx)
  /-- SOFTMAX (R148). Softmax of each row, with an optional mask. -/
  | softmax (x : Ctx)
  /-- MXQUANT (R149). MX quantisation with one E8M0 scale per 32 elements. -/
  | mxquant (x : Ctx)
  /-- SGD (R150). SGD-with-momentum step per parameter. -/
  | sgd (x : Ctx)
  /-- ADAM (R150). Adam step per parameter. -/
  | adam (x : Ctx)
  /-- BLKSOFTMAX (R151). Block softmax of attention scores with block maximum and exact sum. -/
  | blksoftmax (x : Ctx)
  /-- XREDUCE (R145). Cross-source reduction of partials in fixed or arrival order as their marks arrive. -/
  | xreduce (x : Ctx)
  /-- DWCONV (R126). Depth-wise convolution on the depth-wise unit or on the fallback tile. -/
  | dwconv (x : Ctx)
  /-- POOL (R120). Pooling on the depth-wise unit. -/
  | pool (x : Ctx)
  /-- BLKMERGE (R152). The merge unit merges a block partial into the row state. -/
  | blkmerge (x : Ctx)
  /-- MERGE (R158). The merge unit merges NPOS ring partial records as their marks arrive. -/
  | merge (x : Ctx)
  /-- FINAL (R152). Writes o × rcp(l) of each row state to the output. -/
  | final (x : Ctx)
  /-- TCONV (R128). A toe engine runs a convolution from a parcel or from its feed. -/
  | tconv (x : Ctx)
  /-- MWAITGE (R194). Stalls issue until a mark is at least a value. -/
  | mwaitge (x : Ctx)
  /-- MWAITEQ (R194). Stalls issue until a mark passes through a value. -/
  | mwaiteq (x : Ctx)
  /-- MARK_WAIT_SATISFIED (R194). A mark update satisfies a pending wait, and the waiter resumes. -/
  | markWaitSatisfied (x : Ctx) (unit : Nat)
  /-- MSIGNAL (R193). After earlier instructions complete, sets a mark to a value. -/
  | msignal (x : Ctx)
  /-- MADD (R193). After earlier instructions complete, adds to a mark, returning credits for a credit mark. -/
  | madd (x : Ctx)
  /-- MSIGNALR (R193). Sends a mark signal to a remote ring position. -/
  | msignalr (x : Ctx)
  /-- MADDR (R193). Sends a mark add to a remote ring position. -/
  | maddr (x : Ctx)
  /-- BRKSET (R195). Sets the burst lengths between declared break points. -/
  | brkset (x : Ctx)
  /-- LOPEN (R196). Requests a lock passage over up to four banks. -/
  | lopen (x : Ctx)
  /-- LOCK_PASSAGE_OPEN (R226). The last bank of the range is reserved, and the lock passage opens with all banks granted together. -/
  | lockPassageOpen (x : Ctx)
  /-- LCLOSE (R197). Closes the open lock passage, and its banks return to normal arbitration. -/
  | lclose (x : Ctx)
  /-- REMIT (R199). After earlier instructions complete, writes a 64-byte rind and may reset the input digest. -/
  | remit (x : Ctx)
  /-- VALIDATE_COMMAND_BLOCK (R209). Service call 0x0019 decodes a block and reports its first fault without running it. -/
  | validateCommandBlock (ini : Nat) (args : List Word)
  /-- READ_PEC_CAPABILITIES (R209). Service call 0x001A returns the PEC versions and limits accepted. -/
  | readPecCapabilities (ini : Nat) (args : List Word)
  /-- MIN (R397). A Mill law reads an input from the sample snapshot into a register. -/
  | min (lc : Nat)
  /-- MOUT (R201). A Mill law sends a register to a PWM compare shadow or a transmit word at once. -/
  | mout (lc : Nat)
  /-- FMAK (R201). Fused multiply-add with a coefficient. -/
  | fmak (lc : Nat)
  /-- FMA (R201). Fused multiply-add of registers. -/
  | fma (lc : Nat)
  /-- ADD (R201). Register add. -/
  | add (lc : Nat)
  /-- SUB (R201). Register subtract. -/
  | sub (lc : Nat)
  /-- MUL (R201). Register multiply. -/
  | mul (lc : Nat)
  /-- CLAMP (R201). Clamps a register between two coefficients. -/
  | clamp (lc : Nat)
  /-- BIQ (R201). One biquad filter step. -/
  | biq (lc : Nat)
  /-- SSTEP (R203). One state-space step in full or companion form. -/
  | sstep (lc : Nat)
  /-- PID (R201). One PID step with integral limits. -/
  | pid (lc : Nat)
  /-- OBS (R201). Compares two registers and updates the loop's residual count. -/
  | obs (lc : Nat)
  /-- STREC (R201). Writes registers to the loop's state record. -/
  | strec (lc : Nat)
  /-- POLDER_ACCESS (R217). An access reaches the Polder and is allowed by parcel rights and owner, or refused with PARCEL_DENIED. -/
  | polderAccess (ini port addr len : Nat) (write : Bool) (data : List Byte) (hs : Nat)
  /-- BREAK_POINT (R225). At a bank's break point, the sluice chooses the next port by forced wait, lock reservation and rank. -/
  | breakPoint (b : Nat) (reqs : List (Nat × Nat))
  /-- GATHER_IDLE_FLUSH (R220). A gather-buffer entry unused for 64 bank handshakes is written to its row. -/
  | gatherIdleFlush (b row : Nat)
  /-- SLUICE_WATCHDOG_BITE (R229). A pass or lock holds a bank past the limit; the pass ends, the port is severed and the command ends with PORT_SEVERED. -/
  | sluiceWatchdogBite (b : Nat)
  /-- CREDIT_WAIT_END (R222). Credits return to a parcel, and a waiting writer takes them and proceeds. -/
  | creditWaitEnd (x : Ctx) (unit hs : Nat)
  /-- SCRUB_ROW (R235). The maintenance port scrubs a row, correcting, retiring or poisoning it. -/
  | scrubRow (b row outcome : Nat)
  /-- BANK_COPY_DONE (R236). A spare-bank copy ends, the logical bank is remapped and the old bank goes Out. -/
  | bankCopyDone (b : Nat)
  /-- MAINT_WAIT_LIMIT (R237). The maintenance port has waited 10 ms at a group and sends a burst regardless. -/
  | maintWaitLimit (g : Nat)
  /-- BG_IDLE_RETENTION (R238). A bank group idle for 50 µs in TRIM enters retention sleep after draining. -/
  | bgIdleRetention (g : Nat)
  /-- BG_LATE_WAKE (R238). A bank group woken by a late access completes its wake, and the held access completes. -/
  | bgLateWake (g : Nat)
  /-- PCL_LOC_WRITE (R216). A write to PCL_LOC validates or invalidates a parcel under the overlap and kind checks. -/
  | pclLocWrite (ini p value : Nat)
  /-- PCL_OWNER_WRITE (R216). A write to PCL_OWNER is accepted only while the parcel is not valid. -/
  | pclOwnerWrite (ini p value : Nat)
  /-- PCL_CREDIT_WRITE (R216). A write to PCL_CREDIT is accepted only while the parcel is not valid. -/
  | pclCreditWrite (ini p value : Nat)
  /-- PCL_RIGHT_WRITE (R450). A write to a parcel's rights entry is rejected while the parcel is pinned by the Warden. -/
  | pclRightWrite (ini p idx value : Nat)
  /-- CREATE_PARCEL (R243). Service call 0x0200 creates a parcel, optionally zeroing it. -/
  | createParcel (ini : Nat) (args : List Word)
  /-- PARCEL_ZEROED (R243). A firmware culvert finishes zeroing a new parcel, and the pending call completes. -/
  | parcelZeroed (p : Nat)
  /-- DELETE_PARCEL (R243). Service call 0x0201 deletes a parcel, or makes the deletion pending. -/
  | deleteParcel (ini : Nat) (args : List Word)
  /-- PARCEL_DELETION_MADE (R243). A pending deletion is made when no command of the queue runs and no credit is outstanding. -/
  | parcelDeletionMade (p : Nat)
  /-- READ_PARCEL (R243). Service call 0x0202 returns a parcel table entry. -/
  | readParcel (ini : Nat) (args : List Word)
  /-- SET_PARCEL_RIGHTS (R243). Service call 0x0203 sets a parcel's four rights entries. -/
  | setParcelRights (ini : Nat) (args : List Word)
  /-- READ_CREDITS (R243). Service call 0x0204 returns a parcel's credits and clears its credit-over count. -/
  | readCredits (ini : Nat) (args : List Word)
  /-- SET_WAIT_LIMITS (R243). Service call 0x0205 sets a port's wait limit in bank groups. -/
  | setWaitLimits (ini : Nat) (args : List Word)
  /-- SET_SLUICE_WATCHDOG (R243). Service call 0x0206 sets the sluice watchdog limit. -/
  | setSluiceWatchdog (ini : Nat) (args : List Word)
  /-- READ_BANK_GROUP (R243). Service call 0x0207 reads a bank group's registers. -/
  | readBankGroup (ini : Nat) (args : List Word)
  /-- SPARE_A_BANK (R236). Service call 0x0208 starts sparing a logical bank. -/
  | spareABank (ini : Nat) (args : List Word)
  /-- SET_HAZARD_DETECTOR (R243). Service call 0x0209 configures the hazard detectors. -/
  | setHazardDetector (ini : Nat) (args : List Word)
  /-- LOCATE_ADDRESS (R243). Service call 0x020A decomposes a Polder address. -/
  | locateAddress (ini : Nat) (args : List Word)
  /-- QINVAL (R246). A queue ID written to QINVAL reloads its cached descriptor, deferred while a command runs. -/
  | qinval (ini q : Nat)
  /-- QINVAL_ALL (R246). QINVAL with ALL set reloads every cached descriptor. -/
  | qinvalAll (ini : Nat)
  /-- CLIENT_WORD_WRITE (R252). A write through CLIENT_WORD changes the selected client record, resetting its ring and counters when it makes the record valid. -/
  | clientWordWrite (ini k value : Nat)
  /-- MARK_WINDOW_WRITE (R255). A 32-bit write in the mark window signals a mark within the caller's range. -/
  | markWindowWrite (ini m value : Nat)
  /-- MARK_ADD_WRITE (R255). A write to MARK_ADD adds the value to the writer's selected mark. -/
  | markAddWrite (ini value : Nat)
  /-- RESERVATION_EFFECTIVE (R261). A pending real-time reservation takes effect once VDD_CORE reaches the declared corner. -/
  | reservationEffective (q : Nat)
  /-- XLATE_TIMEOUT_EXPIRY (R266). A stall runs to XLATE_TIMEOUT; the command ends and the queue halts. -/
  | xlateTimeoutExpiry (x : Ctx)
  /-- CREATE_CLIENT (R270). Service call 0x0100 creates a client. -/
  | createClient (ini : Nat) (args : List Word)
  /-- SET_SHARE (R270). Service call 0x0101 sets a client's share. -/
  | setShare (ini : Nat) (args : List Word)
  /-- READ_CLIENT_ACCOUNTING (R270). Service call 0x0102 reads a client's accounting and clears EVENTS_LOST. -/
  | readClientAccounting (ini : Nat) (args : List Word)
  /-- CREATE_OR_CHANGE_QUEUE (R246). Service call 0x0103 writes a descriptor and invalidates its cache copy. -/
  | createOrChangeQueue (ini : Nat) (args : List Word)
  /-- DELETE_QUEUE (R270). Service call 0x0104 deletes a queue and its parcels. -/
  | deleteQueue (ini : Nat) (args : List Word)
  /-- ENABLE_HALT_OR_RESUME_QUEUE (R250). Service call 0x0105 enables, halts or resumes a queue. -/
  | enableHaltOrResumeQueue (ini : Nat) (args : List Word)
  /-- RESERVE (R261). Service call 0x0106 gives a queue a real-time reservation. -/
  | reserve (ini : Nat) (args : List Word)
  /-- RELEASE_RESERVATION (R270). Service call 0x0107 releases a reservation. -/
  | releaseReservation (ini : Nat) (args : List Word)
  /-- RESOLVE_TRANSLATION_STALL (R266). Service call 0x0108 resumes or restarts a stalled command. -/
  | resolveTranslationStall (ini : Nat) (args : List Word)
  /-- WATCH_MARK (R256). Service call 0x0109 sets a one-shot mark watch. -/
  | watchMark (ini : Nat) (args : List Word)
  /-- SIGNAL_OR_ADD_MARK (R270). Service call 0x010A signals or adds to a mark. -/
  | signalOrAddMark (ini : Nat) (args : List Word)
  /-- READ_QUEUE (R270). Service call 0x010B returns a queue descriptor. -/
  | readQueue (ini : Nat) (args : List Word)
  /-- SAME_BITS_WRITE (R291). A write to DEVCTL.SAME_BITS requests a mode change or sets GANG_STEAL. -/
  | sameBitsWrite (ini value : Nat)
  /-- SET_SAME_BITS_MODE (R292). Service call 0x0300 requests same-bits mode on or off. -/
  | setSameBitsMode (ini : Nat) (args : List Word)
  /-- READ_FINGERPRINT (R292). Service call 0x0301 returns the fingerprint and mode. -/
  | readFingerprint (ini : Nat) (args : List Word)
  /-- VERIFY_RIND (R288). Service call 0x0302 recomputes a rind digest and compares it. -/
  | verifyRind (ini : Nat) (args : List Word)
  /-- LOAD_WEIGHTS (R283). Service call 0x0303 loads weights into a landing parcel with a digest fold. -/
  | loadWeights (ini : Nat) (args : List Word)
  /-- WEIGHTS_FOLD_DONE (R283). The firmware culvert completes a weights load and its fold, and the pending call completes. -/
  | weightsFoldDone (p : Nat)
  /-- READ_WEIGHTS_DIGEST (R292). Service call 0x0304 returns a parcel's weights digest and status. -/
  | readWeightsDigest (ini : Nat) (args : List Word)
  /-- CLEAR_WEIGHTS_DIGEST (R283). Service call 0x0305 clears a parcel's weights digest. -/
  | clearWeightsDigest (ini : Nat) (args : List Word)
  /-- READ_SAME_BITS_COUNTERS (R292). Service call 0x0306 reads the same-bits counters. -/
  | readSameBitsCounters (ini : Nat) (args : List Word)
  /-- READ_QUEUE_WEIGHTS_DIGEST (R285). Service call 0x0307 forms the queue's weights digest as a REMIT would. -/
  | readQueueWeightsDigest (ini : Nat) (args : List Word)
  /-- AX_WRITE (R307). A WRITE slot with its DATA flits arrives; the destination checks parcel, rights and credits and writes the rows. -/
  | axWrite (h : AxHead) (addr len : Nat) (data : List Byte) (late : Bool)
  /-- AX_MSIGNAL (R309). A remote MSIGNAL is applied after the stream's earlier writes, or refused. -/
  | axMsignal (h : AxHead) (mark value : Nat) (late : Bool)
  /-- AX_MADD (R309). A remote MADD is applied after the stream's earlier writes, or refused. -/
  | axMadd (h : AxHead) (mark value : Nat) (late : Bool)
  /-- AX_CREDIT_REQ (R308). A credit request is granted from PCL_AVAIL or waits in arrival order. -/
  | axCreditReq (h : AxHead) (addr kib : Nat) (late : Bool)
  /-- AX_CREDIT_GRANT (R308). A grant reaches the sending culvert, which may then write. -/
  | axCreditGrant (h : AxHead) (addr kib : Nat)
  /-- AX_CREDIT_RETURN (R308). Unused credits return to PCL_AVAIL. -/
  | axCreditReturn (h : AxHead) (addr kib : Nat) (late : Bool)
  /-- AX_ACK (R309). An ACK completes the stream's transactions up to TAG_DONE for the sender. -/
  | axAck (h : AxHead) (tagDone : Nat)
  /-- AX_NACK (R310). A NACK ends the sending command with REMOTE_DENIED. -/
  | axNack (h : AxHead) (tagBad cause : Nat)
  /-- AX_CTL_FLIT (R301). A CTL flit returns buffer counters, requests replay and relays ring announcements. -/
  | axCtlFlit (port ack : Nat) (bufs : List Nat) (nak : Option Nat) (lanes width ringId npos pos : Nat) (formed twice : Bool) (fp : Nat)
    (seen : List Nat)
  /-- AX_FLIT_CRC_ERROR (R300). A flit fails its CRC; it and later flits are dropped and a replay is requested. -/
  | axFlitCrcError (port lanes : Nat) (again : Bool) (came : List (Nat × Nat))
  /-- RETRAIN_DONE (R302). A port retraining completes at the widest width its good lanes allow, or the port goes DOWN. -/
  | retrainDone (port good rtt : Nat)
  /-- HOP_DOWN (R312). A port goes DOWN; held flits are discarded and affected commands end with LINK_LOST. -/
  | hopDown (port hop cause : Nat)
  /-- REROUTE_DONE (R312). After every part reports, all routes use the remaining direction. -/
  | rerouteDone
  /-- AX_IDLE_ENTRY (R313). A port idle for IDLE_US enters electrical idle. -/
  | axIdleEntry (port : Nat)
  /-- WAKE_PATTERN_DETECT (R313). The wake pattern from the peer is detected, and the port retrains. -/
  | wakePatternDetect (port : Nat)
  /-- LINK_ACK_TIMEOUT (R311). A transaction has no ACK or NACK within RING_ACK_TIMEOUT; the command ends with LINK_TIMEOUT. -/
  | linkAckTimeout (pos stream tag : Nat)
  /-- RING_FORMED (R304). Every position has been seen; FORMED is set, unit 0x148 is assigned and the windows open. -/
  | ringFormed (bonds : Nat)
  /-- FORM_RING (R304). Service call 0x0400 starts ring formation. -/
  | formRing (ini : Nat) (args : List Word)
  /-- DISSOLVE_RING (R317). Service call 0x0401 dissolves the ring once no transaction or credit is outstanding. -/
  | dissolveRing (ini : Nat) (args : List Word)
  /-- RING_DISSOLVED (R317). The pending dissolution completes and the windows close. -/
  | ringDissolved
  /-- READ_RING (R317). Service call 0x0402 reads the ring registers. -/
  | readRing (ini : Nat) (args : List Word)
  /-- READ_PORT (R317). Service call 0x0403 reads a port's registers. -/
  | readPort (ini : Nat) (args : List Word)
  /-- CONFIGURE_PORT (R317). Service call 0x0404 configures a port. -/
  | configurePort (ini : Nat) (args : List Word)
  /-- SEND_WAKE (R313). Service call 0x0405 sends the wake pattern on ports. -/
  | sendWake (ini : Nat) (args : List Word)
  /-- SET_RING_LIMITS (R317). Service call 0x0406 sets the remote mark range and ACK timeout. -/
  | setRingLimits (ini : Nat) (args : List Word)
  /-- REMOTE_MARK_OPERATION (R317). Service call 0x040A signals or adds to a mark at a ring position. -/
  | remoteMarkOperation (ini : Nat) (args : List Word)
  /-- LIVE_ENABLE_WRITE (R320). Writing LIVE_EN checks the live descriptor and starts or stops the live stream. -/
  | liveEnableWrite (ini v value : Nat)
  /-- LIVE_FRAME_TAKE (R321). A free Vat takes the newest complete frame, skipping older ones and returning their credits. -/
  | liveFrameTake (v : Nat)
  /-- LIVE_FRAME_DONE (R324). Every write of a live frame is acknowledged, and the Vat adds 1 to OUT_MARK. -/
  | liveFrameDone (v hs : Nat)
  /-- JOB_CTL_START (R334). JOB_CTL start checks the job descriptor and starts the batch job. -/
  | jobCtlStart (ini v : Nat)
  /-- JOB_CTL_STOP (R349). JOB_CTL stop ends the job at the next batch boundary. -/
  | jobCtlStop (ini v : Nat)
  /-- JOB_CTL_RESUME (R337). JOB_CTL resume continues a job after a translation stall. -/
  | jobCtlResume (ini v : Nat)
  /-- JOB_CTL_ABORT (R349). JOB_CTL abort ends the job at once. -/
  | jobCtlAbort (ini v : Nat)
  /-- SAMPLE_DECODE_DONE (R339). A decoder finishes a sample; it fills its slot or is found corrupt, and the median updates. -/
  | sampleDecodeDone (v dec ns : Nat)
  /-- DECODE_DEFER_TIMEOUT (R340). Outside same-bits mode, a decode passes T and the sample is deferred. -/
  | decodeDeferTimeout (v : Nat)
  /-- DECODE_HARD_LIMIT (R341). A decode reaches H and the sample is corrupt with TIMEOUT. -/
  | decodeHardLimit (v pos : Nat)
  /-- BATCH_DONE (R336). Every write of a batch and its manifest is acknowledged; BATCH_MARK advances. -/
  | batchDone (v : Nat)
  /-- HOST_DECODE_DONE (R346). Host software writes the DONE word of a shared-decode request. -/
  | hostDecodeDone (v pos done ns : Nat) (raw : List Byte)
  /-- VAT_FETCH_TIMEOUT_EXPIRY (R337). A read has no response within FETCH_TIMEOUT; the job ends with VAT_FETCH_TIMEOUT. -/
  | vatFetchTimeoutExpiry (v : Nat)
  /-- READ_VAT_STATUS (R350). Service call 0x0500 returns the Vat status. -/
  | readVatStatus (ini : Nat) (args : List Word)
  /-- SET_LIVE_STREAM (R350). Service call 0x0501 sets and enables a live stream. -/
  | setLiveStream (ini : Nat) (args : List Word)
  /-- START_BATCH_JOB (R350). Service call 0x0502 starts a batch job. -/
  | startBatchJob (ini : Nat) (args : List Word)
  /-- STOP_OR_ABORT_JOB (R350). Service call 0x0503 stops or aborts a job. -/
  | stopOrAbortJob (ini : Nat) (args : List Word)
  /-- RESOLVE_JOB_STALL (R350). Service call 0x0504 resumes or aborts a stalled job. -/
  | resolveJobStall (ini : Nat) (args : List Word)
  /-- CONFIGURE_CELLAR (R343). Service call 0x0505 sets up the Cellar and invalidates every slot. -/
  | configureCellar (ini : Nat) (args : List Word)
  /-- INVALIDATE_CELLAR (R345). Service call 0x0506 invalidates Cellar entries. -/
  | invalidateCellar (ini : Nat) (args : List Word)
  /-- SET_SLOW_DECODE_LIMITS (R350). Service call 0x0507 sets the slow-decode limits. -/
  | setSlowDecodeLimits (ini : Nat) (args : List Word)
  /-- SET_SHARED_DECODE (R346). Service call 0x0508 enables shared decode. -/
  | setSharedDecode (ini : Nat) (args : List Word)
  /-- REFERENCE_DECODE (R350). Service call 0x0509 decodes a sample bit for bit. -/
  | referenceDecode (ini : Nat) (args : List Word)
  /-- READ_VAT_COUNTERS (R350). Service call 0x050A reads and clears the Vat counters. -/
  | readVatCounters (ini : Nat) (args : List Word)
  /-- CSI2_FRAME_START (R365). A frame-start short packet is time-stamped, pending sets and loads apply, and ring slots are checked. -/
  | csi2FrameStart (link vc hdr : Nat)
  /-- CSI2_LINE (R354). A long packet is checked, replaced if damaged and processed through the pipeline to its outputs with credits. -/
  | csi2Line (link vc dt hdr crc : Nat) (overflow : Bool) (payload : List Byte) (freed : Nat)
  /-- CSI2_EMBEDDED_LINE (R371). An embedded-data line is read for the frame counter and timestamp checks. -/
  | csi2EmbeddedLine (link vc hdr crc : Nat) (payload : List Byte)
  /-- CSI2_FRAME_END (R363). At frame end, the frame record and statistics are written and FRAME_MARK advances for complete outputs. -/
  | csi2FrameEnd (link vc hdr linePs rate : Nat)
  /-- FRAME_LATE_EXPIRY (R371). No frame start arrives within LATE_MS, and LATE is reported. -/
  | frameLateExpiry (p : Nat)
  /-- CAMERA_MOVE (R373). A stream moves to a candidate pipeline when its pipeline goes out or its controller fails. -/
  | cameraMove (p : Nat)
  /-- CL_STREAM_WRITE (R353). A write to CL_STREAMi binds or unbinds a virtual channel to a pipeline, or is rejected. -/
  | clStreamWrite (ini l idx value : Nat)
  /-- PP_CTL_LOAD (R360). PP_CTL load checks the descriptor and loads it, taking effect at the next frame start. -/
  | ppCtlLoad (ini p : Nat)
  /-- PP_CTL_START (R377). PP_CTL start begins the pipeline at the next frame start. -/
  | ppCtlStart (ini p : Nat)
  /-- PP_CTL_STOP (R377). PP_CTL stop halts the pipeline at the next frame end. -/
  | ppCtlStop (ini p : Nat)
  /-- PP_CTL_STOP_NOW (R377). PP_CTL stop-now halts the pipeline at once. -/
  | ppCtlStopNow (ini p : Nat)
  /-- PP_PSET_GO (R369). Writing GO to PP_PSET_HI submits a parameter set, which is accepted into the store or refused. -/
  | ppPsetGo (ini p value : Nat)
  /-- READ_LINK (R378). Service call 0x0600 reads a link's registers. -/
  | readLink (ini : Nat) (args : List Word)
  /-- CONFIGURE_LINK (R378). Service call 0x0601 configures a link and its streams. -/
  | configureLink (ini : Nat) (args : List Word)
  /-- LOAD_DESCRIPTOR (R360). Service call 0x0602 loads a pipeline descriptor. -/
  | loadDescriptor (ini : Nat) (args : List Word)
  /-- START_OR_STOP_PIPELINE (R378). Service call 0x0603 starts or stops a pipeline. -/
  | startOrStopPipeline (ini : Nat) (args : List Word)
  /-- PUSH_PARAMETER_SET (R369). Service call 0x0604 submits a parameter set. -/
  | pushParameterSet (ini : Nat) (args : List Word)
  /-- SET_FLICKER_THRESHOLD (R367). Service call 0x0605 sets FLK_THRESH. -/
  | setFlickerThreshold (ini : Nat) (args : List Word)
  /-- SET_SPARE (R378). Service call 0x0606 sets a pipeline's SPARE_EN. -/
  | setSpare (ini : Nat) (args : List Word)
  /-- MOVE_CAMERA (R373). Service call 0x0607 moves a camera to another pipeline. -/
  | moveCamera (ini : Nat) (args : List Word)
  /-- READ_PIPELINE (R378). Service call 0x0608 reads a pipeline's registers. -/
  | readPipeline (ini : Nat) (args : List Word)
  /-- MILL_SEGMENT (R386). A logical core runs the next ready output part or tail, applying any pending law and coefficient write at sample start. -/
  | millSegment (lc : Nat)
  /-- MILL_SEGMENT_OVERRUN (R409). A segment runs past four times its step count, and the core is forced Out. -/
  | millSegmentOverrun (lc : Nat)
  /-- MILL_CORE_FAULT (R409). A physical core is forced Out; the standby takes over and reruns the segment, or the logical core is lost. -/
  | millCoreFault (core late : Nat)
  /-- LAW_CTL_GO (R383). LAW_CTL GO loads the block at LAW_ADDR into a loop's law slot. -/
  | lawCtlGo (ini l : Nat) (fb : Bool)
  /-- LOOP_CTL_ENABLE (R382). LOOP_CTL enable starts a loop, or is refused. -/
  | loopCtlEnable (ini l : Nat)
  /-- LOOP_CTL_DISABLE (R411). LOOP_CTL disable stops a loop at the next sample end. -/
  | loopCtlDisable (ini l : Nat)
  /-- LOOP_CTL_FALLBACK (R407). LOOP_CTL fallback switches a loop to its FB law from the next sample. -/
  | loopCtlFallback (ini l : Nat)
  /-- LOOP_CTL_RETURN (R444). LOOP_CTL return asks the Warden to return a loop to MAIN. -/
  | loopCtlReturn (ini l : Nat)
  /-- COEF_WR (R390). A write to COEF_WR queues a coefficient write for the selected loop. -/
  | coefWr (ini value : Nat)
  /-- ENCODER_EDGE (R399). A valid or illegal quadrature edge updates an encoder's count. -/
  | encoderEdge (idx : Nat) (illegal up : Bool)
  /-- ENCODER_INDEX (R399). An index pulse copies the count into ENC_INDEX_CNT when armed. -/
  | encoderIndex (idx : Nat)
  /-- SERIAL_READ_DONE (R401). A serial encoder read ends with position and CRC check, releasing the waiting MIN. -/
  | serialReadDone (idx raw crc : Nat) (start : Bool)
  /-- PWM_PERIOD_START (R403). At a timebase period start or valley, compare shadows load. -/
  | pwmPeriodStart (tb : Nat)
  /-- AXIS_FRAME_RECEIVE (R405). An axis frame is matched and its words replace the receive buffer. -/
  | axisFrameReceive (p src group kind : Nat) (words : List Word)
  /-- AXIS_FRAME_STALE (R405). No accepted copy for MAX_AGE_US makes a receive frame's words stale. -/
  | axisFrameStale (f : Nat)
  /-- AXIS_FRAME_PARTIAL_SEND (R404). An incomplete transmit frame is sent with PARTIAL at its last fitting instant or at the next sample start. -/
  | axisFramePartialSend (f : Nat)
  /-- QBV_GATE_ENTRY_END (R405). A gate-control entry's interval ends and the next gate states apply. -/
  | qbvGateEntryEnd (p : Nat)
  /-- QBV_SWAP (R416). Writing SWAP schedules the admin gate list to replace the operating list at QBV_BASE. -/
  | qbvSwap (ini p value : Nat)
  /-- READ_MILL_STATUS (R417). Service call 0x0700 returns the Mill status. -/
  | readMillStatus (ini : Nat) (args : List Word)
  /-- CONFIGURE_LOOP (R417). Service call 0x0701 configures a loop record. -/
  | configureLoop (ini : Nat) (args : List Word)
  /-- LOAD_LAW (R383). Service call 0x0702 loads a law into a slot. -/
  | loadLaw (ini : Nat) (args : List Word)
  /-- ENABLE_OR_DISABLE_LOOP (R382). Service call 0x0703 enables or disables a loop. -/
  | enableOrDisableLoop (ini : Nat) (args : List Word)
  /-- WRITE_COEFFICIENTS (R390). Service call 0x0704 feeds coefficient writes into a loop's queue. -/
  | writeCoefficients (ini : Nat) (args : List Word)
  /-- READ_COEFFICIENTS (R417). Service call 0x0705 returns applied coefficients. -/
  | readCoefficients (ini : Nat) (args : List Word)
  /-- READ_LOOP (R417). Service call 0x0706 returns a loop record. -/
  | readLoop (ini : Nat) (args : List Word)
  /-- CONFIGURE_ENCODER (R417). Service call 0x0707 configures an encoder input. -/
  | configureEncoder (ini : Nat) (args : List Word)
  /-- CONFIGURE_PWM (R417). Service call 0x0708 configures a timebase or channel. -/
  | configurePwm (ini : Nat) (args : List Word)
  /-- CLEAR_LOOP_FLAGS (R417). Service call 0x0709 clears a loop's flags. -/
  | clearLoopFlags (ini : Nat) (args : List Word)
  /-- FALLBACK_OR_RETURN (R407). Service call 0x070A switches a loop or group to fallback or requests a return. -/
  | fallbackOrReturn (ini : Nat) (args : List Word)
  /-- CONFIGURE_AXIS_FRAME (R415). Service call 0x070B configures an axis frame descriptor. -/
  | configureAxisFrame (ini : Nat) (args : List Word)
  /-- BIND_TRIGGER (R381). Service call 0x070C binds a Mill trigger line to a comparator. -/
  | bindTrigger (ini : Nat) (args : List Word)
  /-- DECISION_PASS (R442). The active Warden pair handles FIFO reports, applies reactions and changes state, and kicks its watchdog. -/
  | decisionPass
  /-- GATE_SET_CHECK (R429). After an IN_MARK update, the Warden reads the set, acknowledges it and checks it against the envelopes. -/
  | gateSetCheck
  /-- SET_DEADLINE_EXPIRY (R430). A SET_TRIG interval ends; a missing set fails SET_MISSING and a hold pulse is sent. -/
  | setDeadlineExpiry
  /-- DIGEST_COMPARE (R432). At a compare mark update, the Warden reads and compares the members' rinds. -/
  | digestCompare (e : Nat)
  /-- DIGEST_PERIOD_EXPIRY (R432). PERIOD_NS passes without a compare, and DIGEST_MISSING fails. -/
  | digestPeriodExpiry (e : Nat)
  /-- STARTER_CHECK (R436). After a starter's completion record, the Warden checks its rind against EXPECT. -/
  | starterCheck (idx : Nat)
  /-- HB_WORD_WRITE (R438). A heartbeat written to HB_WORD is judged and answered. -/
  | hbWordWrite (value : Nat)
  /-- HB_TIMEOUT_EXPIRY (R438). HB_TIMEOUT passes without a good heartbeat, and HEARTBEAT fails. -/
  | hbTimeoutExpiry
  /-- PAIR_FAILURE (R421). The active Warden pair mismatches or errs; the synced standby takes over or the hardware safe state is asserted. -/
  | pairFailure (pair : Nat)
  /-- WARDEN_WATCHDOG_BITE (R422). No kick for 50 µs; the watchdog asserts the safe state in hardware. -/
  | wardenWatchdogBite
  /-- PIN_FEEDBACK_TIMEOUT (R446). A SAFE_STOP ball differs from its command for over 1 µs, and PIN_FEEDBACK fails. -/
  | pinFeedbackTimeout (pin : Nat)
  /-- TASK_DEADLINE_EXPIRY (R451). A supervised task is still open at its deadline, and TASK_OVERRUN fails. -/
  | taskDeadlineExpiry (t : Nat)
  /-- SLICE_START (R453). A self-test slice starts on an idle unit in a reservation gap. -/
  | sliceStart (u : Nat)
  /-- SLICE_DONE (R454). A slice ends; its signature is checked, and a second failure forces the unit Out. -/
  | sliceDone (u : Nat) (pass : Bool)
  /-- DEBT_WINDOW_END (R455). A 100 ms coverage window ends and test debt is judged. -/
  | debtWindowEnd
  /-- WD_CMD_ARM (R441). WD_CMD ARM moves START to SERVICE when every arm condition holds. -/
  | wdCmdArm (ini : Nat)
  /-- WD_CMD_FORCE_SAFE (R440). WD_CMD FORCE_SAFE takes the Warden to SAFE. -/
  | wdCmdForceSafe (ini : Nat)
  /-- WD_CMD_RELEASE (R445). WD_CMD RELEASE moves SAFE to RECOVERY under its conditions. -/
  | wdCmdRelease (ini : Nat)
  /-- WD_CMD_ENTER_TEST (R440). WD_CMD ENTER_TEST moves START or SAFE to TEST. -/
  | wdCmdEnterTest (ini : Nat)
  /-- WD_CMD_LEAVE_TEST (R440). WD_CMD LEAVE_TEST moves TEST to START. -/
  | wdCmdLeaveTest (ini : Nat)
  /-- SUP_CMD_WRITE (R499). A complemented command written to SUP_CMD acts as a WD_CMD write from 0x180. -/
  | supCmdWrite (value : Nat)
  /-- FW_LOCK_WRITE (R450). Setting FW_LOCK locks the firewall entries and pins the Warden's parcels. -/
  | fwLockWrite (ini value : Nat)
  /-- READ_WARDEN_STATUS (R459). Service call 0x0800 returns the Warden status. -/
  | readWardenStatus (ini : Nat) (args : List Word)
  /-- ARM (R441). Service call 0x0801 arms the Warden. -/
  | arm (ini : Nat) (args : List Word)
  /-- FORCE_SAFE (R459). Service call 0x0802 forces the safe state. -/
  | forceSafe (ini : Nat) (args : List Word)
  /-- RELEASE_SAFE_STATE (R445). Service call 0x0803 releases the safe state. -/
  | releaseSafeState (ini : Nat) (args : List Word)
  /-- ENTER_OR_LEAVE_TEST (R459). Service call 0x0804 enters or leaves TEST. -/
  | enterOrLeaveTest (ini : Nat) (args : List Word)
  /-- SET_CHECK (R425). Service call 0x0805 sets a check's reaction, enable and groups. -/
  | setCheck (ini : Nat) (args : List Word)
  /-- CONFIGURE_GATE (R427). Service call 0x0806 configures the setpoint gate. -/
  | configureGate (ini : Nat) (args : List Word)
  /-- WRITE_ENVELOPES (R428). Service call 0x0807 writes envelope entries. -/
  | writeEnvelopes (ini : Nat) (args : List Word)
  /-- CONFIGURE_COMPARE_ENTRY (R431). Service call 0x0808 configures a compare entry. -/
  | configureCompareEntry (ini : Nat) (args : List Word)
  /-- CONFIGURE_STARTER (R434). Service call 0x0809 configures a starter record. -/
  | configureStarter (ini : Nat) (args : List Word)
  /-- CONFIGURE_SELF_TEST (R453). Service call 0x080A sets ST_CFG and the windows. -/
  | configureSelfTest (ini : Nat) (args : List Word)
  /-- OPEN_SUPERVISED_TASK (R451). Service call 0x080B opens a supervised task. -/
  | openSupervisedTask (ini : Nat) (args : List Word)
  /-- CLOSE_SUPERVISED_TASK (R451). Service call 0x080C closes a supervised task. -/
  | closeSupervisedTask (ini : Nat) (args : List Word)
  /-- WRITE_FIREWALL (R449). Service call 0x080D writes a firewall entry or sets the lock. -/
  | writeFirewall (ini : Nat) (args : List Word)
  /-- READ_WARDEN_COUNTERS (R459). Service call 0x080E reads and clears the Warden counters. -/
  | readWardenCounters (ini : Nat) (args : List Word)
  /-- PIN_TEST (R446). Service call 0x080F drives one safe-stop pin to run briefly in TEST and returns the read-back. -/
  | pinTest (ini : Nat) (args : List Word)
  /-- COMPARATOR_FIRE (R471). Gauge time reaches a comparator target; it fires to its owner and advances if periodic. -/
  | comparatorFire (n : Nat)
  /-- SLEW_STEP (R464). Every 512 ticks of a slew, ADJ_LEFT moves 1 ns toward 0. -/
  | slewStep
  /-- INCR_WRITE (R462). A write to INCR sets the per-tick increment from the next tick, or is rejected. -/
  | incrWrite (ini value : Nat)
  /-- ADJ_CTL_SLEW (R464). ADJ_CTL slew starts slewing by ADJ_NS. -/
  | adjCtlSlew (ini : Nat) (force : Bool)
  /-- ADJ_CTL_STEP (R465). ADJ_CTL step adds ADJ_NS at the next tick, or is refused with STEP_BLOCKED. -/
  | adjCtlStep (ini : Nat) (force : Bool)
  /-- ADJ_CTL_CANCEL_SLEW (R464). ADJ_CTL cancel ends a slew in progress. -/
  | adjCtlCancelSlew (ini : Nat)
  /-- SET_CTL_GO (R465). SET_CTL GO loads SET_S and SET_NS at the next tick, or is refused. -/
  | setCtlGo (ini : Nat) (force : Bool)
  /-- CMP_TARGET_COMMIT (R471). A write to CMP_TGT_S_HI commits a comparator's target. -/
  | cmpTargetCommit (ini n value : Nat)
  /-- GAUGE_CLAIM_CLAIM (R470). GAUGE_CLAIM claims a comparator for an owner, or is refused with COMP_TAKEN. -/
  | gaugeClaimClaim (ini kind idx n : Nat)
  /-- GAUGE_CLAIM_RELEASE (R470). GAUGE_CLAIM with RELEASE frees a comparator, or is refused with COMP_IN_USE. -/
  | gaugeClaimRelease (ini kind idx n : Nat)
  /-- REFCLK_LOSS (R463). REFCLK_GAUGE is missing or off; the tick switches to the internal oscillator. -/
  | refclkLoss
  /-- REFCLK_RESTORE (R463). The reference has been good for 100 µs; the tick returns to it. -/
  | refclkRestore
  /-- ETH_FRAME_RECEIVE (R469). A received frame is time-stamped and sorted to the Mill, the time stack, wake handling or the general ring. -/
  | ethFrameReceive (p : Nat) (data : List Byte) (good : Bool) (stack master offset delay : Nat)
  /-- ANNOUNCE_TIMEOUT (R468). The master's announce receipt times out and SYNC goes to HOLDOVER. -/
  | announceTimeout
  /-- PULSE_END (R473). PULSE_WIDTH after a firing, the pulse output returns to idle. -/
  | pulseEnd (n : Nat)
  /-- CAPTURE_EDGE (R474). A capture source event is stamped into its FIFO, or dropped when full. -/
  | captureEdge (ball : Nat) (rising : Bool)
  /-- CAP_NS_READ (R474). A read of CAP_NS removes the oldest capture entry and latches its seconds. -/
  | capNsRead (ini n : Nat)
  /-- CAN_FRAME_RECEIVE (R476). A received CAN frame replaces its matching object's data, or is dropped. -/
  | canFrameReceive (c : Nat) (ide rtr fdf brs esi : Bool) (id dlc sof : Nat) (data : List Word)
  /-- CAN_OBJ_REQ (R477). Writing REQ sets an object pending for transmission, timed or not. -/
  | canObjReq (ini c o value : Nat)
  /-- CAN_TX_DONE (R477). A frame is sent successfully; PENDING clears and its start time is stored. -/
  | canTxDone (c sof : Nat)
  /-- CAN_BUS_ERROR (R479). A bus error updates error counts and may lead to retransmission. -/
  | canBusError (c err tec rec : Nat) (tx : Bool)
  /-- CAN_TX_LATE_EXPIRY (R478). A timed frame is not sent within CN_TX_LATE_US of its target and is aborted. -/
  | canTxLateExpiry (c o : Nat)
  /-- CN_CMD_RECOVER (R479). CN_CMD recover starts the bus-off recovery sequence. -/
  | cnCmdRecover (ini c : Nat)
  /-- CAN_RECOVERY_DONE (R479). The recovery sequence ends and the controller returns to error-active. -/
  | canRecoveryDone (c : Nat)
  /-- CN_CMD_ABORT (R477). CN_CMD abort ends a pending object unless its frame is on the bus. -/
  | cnCmdAbort (ini c o : Nat)
  /-- READ_TIME (R484). Service call 0x0900 returns Gauge time and status. -/
  | readTime (ini : Nat) (args : List Word)
  /-- ADJUST_TIME (R464). Service call 0x0901 slews, steps or sets Gauge time. -/
  | adjustTime (ini : Nat) (args : List Word)
  /-- SET_INCREMENT (R462). Service call 0x0902 sets INCR. -/
  | setIncrement (ini : Nat) (args : List Word)
  /-- CLAIM_OR_RELEASE_COMPARATOR (R470). Service call 0x0903 claims or releases a comparator. -/
  | claimOrReleaseComparator (ini : Nat) (args : List Word)
  /-- CONFIGURE_COMPARATOR (R471). Service call 0x0904 sets a comparator's target, period, wake and enable. -/
  | configureComparator (ini : Nat) (args : List Word)
  /-- CONFIGURE_PULSE_OR_CAPTURE (R473). Service call 0x0905 configures a pulse output or capture unit. -/
  | configurePulseOrCapture (ini : Nat) (args : List Word)
  /-- CONFIGURE_TIME_PROTOCOL (R467). Service call 0x0906 configures the time protocol stack. -/
  | configureTimeProtocol (ini : Nat) (args : List Word)
  /-- READ_TIME_PROTOCOL (R484). Service call 0x0907 returns time protocol state. -/
  | readTimeProtocol (ini : Nat) (args : List Word)
  /-- READ_CAN_OBJECT (R476). Service call 0x0908 reads one CAN object's frame without mixing. -/
  | readCanObject (ini : Nat) (args : List Word)
  /-- CONFIGURE_GENERAL_RINGS (R469). Service call 0x0909 sets up a port's general receive rings. -/
  | configureGeneralRings (ini : Nat) (args : List Word)
  /-- CONFIGURE_CAN_CONTROLLER (R475). Service call 0x090A configures a CAN controller. -/
  | configureCanController (ini : Nat) (args : List Word)
  /-- WRITE_CAN_OBJECT (R476). Service call 0x090B writes a CAN object and may request transmission. -/
  | writeCanObject (ini : Nat) (args : List Word)
  /-- RECOVER_CAN_CONTROLLER (R479). Service call 0x090C recovers a bus-off controller. -/
  | recoverCanController (ini : Nat) (args : List Word)
  /-- PCIE_REQUEST (R486). A request from a PCIe function is checked by rights, firewalls and claims and completes or is refused. -/
  | pcieRequest (kind fn bar off n : Nat) (data : List Byte)
  /-- FUNCTION_LEVEL_RESET (R491). An FLR of a function runs its reset sequence: requests dropped, claims released, commands ended, queues halted, vectors masked. -/
  | functionLevelReset (n : Nat)
  /-- PCIE_LINK_DOWN (R492). Hot reset, PERST_N or link loss resets every function and fails host-window accesses. -/
  | pcieLinkDown
  /-- PCIE_LINK_UP (R491). The link comes up and HOST_LINK is posted. -/
  | pcieLinkUp (speed width : Nat)
  /-- MSIX_ENTRY_WRITE (R490). A write to an MSI-X table entry may unmask it and send its pending message. -/
  | msixEntryWrite (ini n idx k value : Nat)
  /-- VF_DOORBELL (R488). A doorbell written to a VF page acts as SCHED.DOORBELL for a covered queue, or is rejected. -/
  | vfDoorbell (n value : Nat)
  /-- TRANSLATION_WALK_DONE (R494). A page walk finishes and the waiting access proceeds or faults. -/
  | translationWalkDone (client : Nat) (mem : Bool) (input : Nat) (write : Bool)
  /-- XL_INVAL_GO (R496). Writing GO to XL_INVAL starts a TLB invalidation. -/
  | xlInvalGo (ini value : Nat)
  /-- XL_INVALIDATION_DONE (R496). Every access using invalidated entries has completed; BUSY clears. -/
  | xlInvalidationDone
  /-- SDIO_COMMAND (R498). An SDIO CMD52 or CMD53 transfer reaches a function's address space. -/
  | sdioCommand (write : Bool) (fn off n : Nat) (fixed : Bool) (data : List Byte)
  /-- SDIO_FUNCTION_RESET (R498). A CIA function reset or CMD0 releases that function's claims. -/
  | sdioFunctionReset (fn : Nat)
  /-- MB_CALL_GO (R501). A write of MB_CALL with GO posts a service call on a mailbox channel. -/
  | mbCallGo (ini ch value : Nat)
  /-- MB_CALL_SERVE (R502). The active management processor takes the next GO in round robin and runs the call. -/
  | mbCallServe
  /-- CALL_DONE (R502). A PENDING call completes; its status enters the done FIFO and CALL_DONE is posted. -/
  | callDone
  /-- MB_DONE_READ (R501). A read of MB_DONE removes the oldest done entry. -/
  | mbDoneRead (ini ch : Nat)
  /-- MB_STATUS_READ (R501). A read of MB_STATUS clears EVENT. -/
  | mbStatusRead (ini ch : Nat)
  /-- READ_PCIE_STATUS (R507). Service call 0x0A00 returns PCIe status. -/
  | readPcieStatus (ini : Nat) (args : List Word)
  /-- SET_VF_VECTORS (R489). Service call 0x0A01 sets a VF's vector range. -/
  | setVfVectors (ini : Nat) (args : List Word)
  /-- SET_TRANSLATION_CONTEXT (R493). Service call 0x0A02 sets a client's roots and function. -/
  | setTranslationContext (ini : Nat) (args : List Word)
  /-- INVALIDATE_TRANSLATIONS (R496). Service call 0x0A03 invalidates translations. -/
  | invalidateTranslations (ini : Nat) (args : List Word)
  /-- READ_TRANSLATION_FAULT (R507). Service call 0x0A04 reads the last translation fault. -/
  | readTranslationFault (ini : Nat) (args : List Word)
  /-- TRANSLATE (R494). Service call 0x0A05 translates an address for a client. -/
  | translate (ini : Nat) (args : List Word)
  /-- READ_SDIO_STATUS (R507). Service call 0x0A06 returns SDIO status. -/
  | readSdioStatus (ini : Nat) (args : List Word)
  /-- SET_LPDDR4X_WINDOW (R507). Service call 0x0A07 sets LW_BASE. -/
  | setLpddr4xWindow (ini : Nat) (args : List Word)
  /-- GPIO_SET_WRITE (R584). A write to GPIO_SET sets owned bits of GPIO_OUT. -/
  | gpioSetWrite (ini value : Nat)
  /-- GPIO_CLR_WRITE (R584). A write to GPIO_CLR clears owned bits of GPIO_OUT. -/
  | gpioClrWrite (ini value : Nat)
  /-- SET_GPIO (R584). Service call 0x001B sets, clears and directs owned GPIOs. -/
  | setGpio (ini : Nat) (args : List Word)
  /-- READ_GPIO (R584). Service call 0x001C returns GPIO levels. -/
  | readGpio (ini : Nat) (args : List Word)
  /-- SET_GPIO_OWNER (R584). Service call 0x001D writes a GPIO owner. -/
  | setGpioOwner (ini : Nat) (args : List Word)
  /-- PWR_CMD_RUN (R512). PWR_CMD RUN moves to RUN, waking from DOZE or SLEEP. -/
  | pwrCmdRun (ini : Nat)
  /-- PWR_CMD_TRIM (R515). PWR_CMD TRIM moves to TRIM. -/
  | pwrCmdTrim (ini : Nat)
  /-- PWR_CMD_DOZE (R520). PWR_CMD DOZE stops dispatch and starts the DOZE entry handshake. -/
  | pwrCmdDoze (ini : Nat)
  /-- PWR_CMD_SLEEP (R521). PWR_CMD SLEEP stops dispatch and starts the SLEEP entry handshake. -/
  | pwrCmdSleep (ini : Nat)
  /-- POWER_ANSWER (R514). A unit acknowledges or refuses a power-state entry; a refusal abandons the entry. -/
  | powerAnswer (u : Nat) (timeUp : Bool)
  /-- POWER_ANSWER_TIMEOUT (R514). A unit gives no answer within its declared delay and is taken to refuse with NO_ANSWER. -/
  | powerAnswerTimeout (u : Nat)
  /-- POWER_ENTRY_DONE (R520). Every unit has acknowledged; domains switch off and the new state is recorded. -/
  | powerEntryDone
  /-- WAKE (R518). An enabled wake source starts the exit from DOZE or SLEEP, and LAST_WAKE records it. -/
  | wake (src u : Nat)
  /-- POWER_EXIT_DONE (R520). The exit sequence ends and dispatch resumes in RUN or TRIM. -/
  | powerExitDone
  /-- TRIM_IDLE_EXPIRY (R515). A unit idle for TRIM_IDLE is gated off in TRIM. -/
  | trimIdleExpiry (u : Nat)
  /-- DOMAIN_POWER_UP_DONE (R515). A gated domain powered for a dispatch or test is on, and the waiting work starts. -/
  | domainPowerUpDone
  /-- VCORE_SET_WRITE (R522). A write to VCORE_SET changes the requested set point, or is rejected below FLOOR. -/
  | vcoreSetWrite (ini value : Nat)
  /-- CAP_W_WRITE (R523). A write to CAP_W sets the power cap, or is rejected. -/
  | capWWrite (ini value : Nat)
  /-- SETPOINT_STEP_DONE (R522). A one-step VDD_CORE change completes, and the next step may start. -/
  | setpointStepDone (ok : Bool)
  /-- POWER_WINDOW_END (R523). A 1 ms power window ends; the cap controller lowers or raises its set point. -/
  | powerWindowEnd (est : Nat)
  /-- READ_POWER_STATUS (R526). Service call 0x0B00 returns power status. -/
  | readPowerStatus (ini : Nat) (args : List Word)
  /-- REQUEST_STATE (R514). Service call 0x0B01 requests a power state. -/
  | requestState (ini : Nat) (args : List Word)
  /-- SET_VDD_CORE_SET_POINT (R522). Service call 0x0B02 sets VCORE_SET. -/
  | setVddCoreSetPoint (ini : Nat) (args : List Word)
  /-- SET_POWER_CAP (R523). Service call 0x0B03 sets CAP_W. -/
  | setPowerCap (ini : Nat) (args : List Word)
  /-- SET_WAKE_SOURCES (R526). Service call 0x0B04 sets WAKE_EN. -/
  | setWakeSources (ini : Nat) (args : List Word)
  /-- SET_TRIM_IDLE (R526). Service call 0x0B05 sets TRIM_IDLE. -/
  | setTrimIdle (ini : Nat) (args : List Word)
  /-- READ_POWER_COUNTERS (R526). Service call 0x0B06 reads and clears the power counters. -/
  | readPowerCounters (ini : Nat) (args : List Word)
  /-- POWER_ON_RESET (R537). VDD_AON comes into range and the boot sequence runs from the boot ROM. -/
  | powerOnReset (m1 m2 : Nat) (otpOk ddrOk : Bool) (fails : List Nat) (us : Nat)
  /-- RESET_N_ASSERT (R588). RESET_N low for 10 µs drops the core enables and starts a boot. -/
  | resetNAssert (otpOk ddrOk : Bool) (fails : List Nat) (us : Nat)
  /-- CONSENT_EXPIRY (R546). A Warden update consent lapses after 10 s. -/
  | consentExpiry
  /-- READ_BOOT_STATUS (R553). Service call 0x0C00 returns boot status. -/
  | readBootStatus (ini : Nat) (args : List Word)
  /-- READ_CATALOGUE (R553). Service call 0x0C01 returns catalogue entries. -/
  | readCatalogue (ini : Nat) (args : List Word)
  /-- VERIFY_IMAGE (R528). Service call 0x0C02 verifies an image without loading it. -/
  | verifyImage (ini : Nat) (args : List Word)
  /-- UPDATE_PROCESSOR (R541). Service call 0x0C03 runs a live update of one processor. -/
  | updateProcessor (ini : Nat) (args : List Word)
  /-- READ_UPDATE_STATUS (R553). Service call 0x0C04 returns the update status. -/
  | readUpdateStatus (ini : Nat) (args : List Word)
  /-- CONSENT_TO_WARDEN_UPDATE (R546). Service call 0x0C05 gives consent for one Warden update. -/
  | consentToWardenUpdate (ini : Nat) (args : List Word)
  /-- RAISE_SECURITY_VERSION (R531). Service call 0x0C06 raises an OTP security counter. -/
  | raiseSecurityVersion (ini : Nat) (args : List Word)
  /-- REVOKE_ROOT_SLOT (R532). Service call 0x0C07 revokes a root slot. -/
  | revokeRootSlot (ini : Nat) (args : List Word)
  /-- READ_IDENTITY (R547). Service call 0x0C08 returns DEVICE_ID and certificates. -/
  | readIdentity (ini : Nat) (args : List Word)
  /-- ATTESTATION_QUOTE (R548). Service call 0x0C09 writes a signed quote over a nonce. -/
  | attestationQuote (ini : Nat) (args : List Word)
  /-- READ_FACTORY_CALIBRATION (R549). Service call 0x0C0A returns factory calibration values. -/
  | readFactoryCalibration (ini : Nat) (args : List Word)
  /-- SET_CALIBRATION_KEYS (R550). Service call 0x0C0B programs UCAL_KEY_HASH once. -/
  | setCalibrationKeys (ini : Nat) (args : List Word)
  /-- APPLY_CALIBRATION_SET (R551). Service call 0x0C0C verifies and applies a user calibration set. -/
  | applyCalibrationSet (ini : Nat) (args : List Word)
  /-- READ_CALIBRATION_IN_FORCE (R553). Service call 0x0C0D returns calibration in force. -/
  | readCalibrationInForce (ini : Nat) (args : List Word)
  /-- BOOT_IMAGE (R539). Service call 0x0C0E loads a staged image during an SDIO boot. -/
  | bootImage (ini : Nat) (args : List Word)
  /-- COMMIT_RUNNING_SET (R535). Service call 0x0C0F commits the running images to the flash catalogue. -/
  | commitRunningSet (ini : Nat) (args : List Word)
  /-- FAULT_DETECTED (R555). A unit reports a fault; the fault manager records and classifies it and applies the lasting-fault action. -/
  | faultDetected (unit code addr d0 d1 : Nat) (x : Option Ctx)
  /-- PROC_WATCHDOG_BITE (R572). A processor misses its watchdog kick; PROC_WATCHDOG is recorded and the processor is forced Out. -/
  | procWatchdogBite (u : Nat)
  /-- MP_TAKEOVER (R569). The standby management processor takes the active role after the active one is forced Out. -/
  | mpTakeover
  /-- SP_TAKEOVER (R569). The other scheduler processor serves every queue after one is forced Out. -/
  | spTakeover
  /-- TEMP_SAMPLE (R571). A 1 ms temperature average is compared with the warning and trip limits. -/
  | tempSample (temps : List Int)
  /-- RAIL_OUT_OF_RANGE (R571). A rail stays out of range for 2 µs; RAIL is recorded and may force the safe state. -/
  | railOutOfRange (rail : Nat) (back : Bool)
  /-- PMBUS_ALERT (R589). PMBUS_ALERT_N is held low for over 2 µs, and RAIL is recorded for VDD_CORE. -/
  | pmbusAlert
  /-- TRANSIENT_WINDOW_END (R561). An hour window ends and each unit's transient count starts again. -/
  | transientWindowEnd
  /-- LPDDR_SCRUB (R567). The LPDDR4X controllers scrub memory in the background every 24 hours. -/
  | lpddrScrub (m ce : Nat) (ues : List Nat)
  /-- READ_FAULT_STATUS (R576). Service call 0x0D00 returns fault status. -/
  | readFaultStatus (ini : Nat) (args : List Word)
  /-- READ_FAULT_RECORDS (R564). Service call 0x0D01 returns fault records. -/
  | readFaultRecords (ini : Nat) (args : List Word)
  /-- ACKNOWLEDGE_RECORDS (R565). Service call 0x0D02 sets FLT_ACK. -/
  | acknowledgeRecords (ini : Nat) (args : List Word)
  /-- SET_FAULT_OPTIONS (R576). Service call 0x0D03 sets retry, limit and client options. -/
  | setFaultOptions (ini : Nat) (args : List Word)
  /-- READ_UNIT_HEALTH (R573). Service call 0x0D04 returns a unit's health. -/
  | readUnitHealth (ini : Nat) (args : List Word)
  /-- READ_SPARES (R568). Service call 0x0D05 returns spare usage. -/
  | readSpares (ini : Nat) (args : List Word)
  /-- INJECT_FAULT (R574). Service call 0x0D06 injects one fault for validation. -/
  | injectFault (ini : Nat) (args : List Word)
  /-- READ_FAULT_COUNTERS (R576). Service call 0x0D07 reads and clears the fault counters. -/
  | readFaultCounters (ini : Nat) (args : List Word)
  /-- SENSOR_WRITE_DONE (R370). A sensor register write of a parameter set ends on the I3C/I2C bus with an ACK or a NACK. -/
  | sensorWriteDone (master : Nat) (ack : Bool)
  /-- CLOCK_STRETCH_TIMEOUT (R570). An I3C/I2C target stretches the clock for 25 ms and the transfer is ended as failed. -/
  | clockStretchTimeout (master : Nat)
  /-- ETH_FRAME_SENT (R466). A frame finishes on an EP port's wire; it is time-stamped, and the port becomes free for the next queued frame. -/
  | ethFrameSent (p : Nat)
  /-- ETH_LINK_CHANGE (R481). An EP port's link comes up or goes down, changing EP_STATUS.LINK and applying PHY_EP calibration at link-up. -/
  | ethLinkChange (p : Nat) (up : Bool)
  /-- SUPPLY_LOSS (R588). Supply is lost without a plan, or VDD_AON falls below its reset threshold; all state apart from OTP and flash is lost and the device is in OFF. -/
  | supplyLoss
  /-- SELF_TEST_POWER_UP (R515). In TRIM, the power controller powers up a gated tile or toe engine for its self-test slices once 80 ms have passed since its last passing full test. -/
  | selfTestPowerUp (u : Nat)
  deriving DecidableEq, Repr

end Sys2Proof
end

