-- ==== Sys2Proof/Machine/Hash.lean ====
section
/-! DEFINITION. Checks and digests that several chapters use: CRC-32 of IEEE 802.3 (R163, R295), CRC-6 (R567),
CRC-16 (R354), SHA3-256 (R168, R282–R288). -/
namespace Sys2Proof.Machine

/-- One bit step of a reflected CRC with polynomial poly. -/
def crcBit (poly c : Nat) : Nat := if c % 2 = 1 then (c / 2) ^^^ poly else c / 2

/-- One byte into a reflected CRC. -/
def crcByte (poly c : Nat) (b : Byte) : Nat :=
  (List.range 8).foldl (fun c _ => crcBit poly c) (c ^^^ b.toNat)

/-- CRC-32 of IEEE 802.3: reflected, initial value and final inversion all ones. -/
def crc32 (l : List Byte) : Nat :=
  (l.foldl (crcByte 0xEDB88320) 0xFFFFFFFF) ^^^ 0xFFFFFFFF

/-- CRC-16 of CSI-2 payloads: x^16 + x^12 + x^5 + 1, reflected, initial value all ones. -/
def crc16 (l : List Byte) : Nat := l.foldl (crcByte 0x8408) 0xFFFF

/-- One bit into a CRC-6 with polynomial x^6 + x + 1, most significant bit first. -/
def crc6Bit (c : Nat) (b : Bool) : Nat :=
  let top := (c / 32) % 2
  let c' := (c * 2) % 64
  if (top = 1) != b then c' ^^^ 3 else c'

/-- CRC-6 over bytes, each from its bit 7 down. -/
def crc6 (l : List Byte) : Nat :=
  l.foldl (fun c b => (List.range 8).foldl (fun c i => crc6Bit c (b.getLsbD (7 - i))) c) 0

/-! ### SHA3-256 (FIPS 202) on 25 lanes of 64 bits. The constants are computed as FIPS 202 defines them. -/

/-- A lane of the sponge's state. -/
abbrev Lane := BitVec 64

/-- One step of the shift register of FIPS 202 §3.2.5 (x⁸ + x⁶ + x⁵ + x⁴ + 1). -/
def lfsrNext (r : BitVec 8) : BitVec 8 := if r.msb then (r <<< 1) ^^^ 0x71 else r <<< 1

/-- n round constants, the shift register standing at r: bit 2^j − 1 of a constant is the register's jth output. -/
def roundConstants : Nat → BitVec 8 → List Lane
  | 0, _ => []
  | n + 1, r =>
    let out := (List.range 7).foldl (init := ((0 : Lane), r)) fun p j =>
      (if p.2.getLsbD 0 then p.1 ||| (1#64 <<< (2 ^ j - 1)) else p.1, lfsrNext p.2)
    out.1 :: roundConstants n out.2

/-- The walk of ρ: from (1, 0) on, step t turns its lane by (t + 1)(t + 2)/2 and goes to (y, 2x + 3y). Entries are lane
and offset. -/
def rhoWalk : Nat → Nat → Nat → Nat → List (Nat × Nat)
  | 0, _, _, _ => []
  | n + 1, t, x, y => (x + 5 * y, (t + 1) * (t + 2) / 2 % 64) :: rhoWalk n (t + 1) y ((2 * x + 3 * y) % 5)

/-- How far ρ turns lane i; the lane (0, 0) is not on the walk. -/
def rhoOffset (walk : List (Nat × Nat)) (i : Nat) : Nat := ((walk.find? fun e => e.1 == i).map Prod.snd).getD 0

/-- The lane at column x and row y, both modulo 5. -/
def laneAt (a : List Lane) (x y : Nat) : Lane := nth a (x % 5 + 5 * (y % 5)) 0

/-- A sheet function over all 25 lanes. -/
def eachLane (f : Nat → Nat → Lane) : List Lane := (List.range 25).map fun i => f (i % 5) (i / 5)

/-- θ: each lane takes the parities of two columns. -/
def theta (a : List Lane) : List Lane :=
  let parity := fun x => (List.range 5).foldl (fun p y => p ^^^ laneAt a x y) 0
  let cols := (List.range 5).map fun x => parity (x + 4) ^^^ (parity (x + 1)).rotateLeft 1
  eachLane fun x y => laneAt a x y ^^^ nth cols x 0

/-- ρ and π: lane (x, y) of the result is lane (x + 3y, x), turned. -/
def rhoPi (walk : List (Nat × Nat)) (a : List Lane) : List Lane :=
  eachLane fun x y =>
    let src := (x + 3 * y) % 5 + 5 * x
    (nth a src 0).rotateLeft (rhoOffset walk src)

/-- χ. -/
def chi (a : List Lane) : List Lane :=
  eachLane fun x y => laneAt a x y ^^^ (~~~ laneAt a (x + 1) y &&& laneAt a (x + 2) y)

/-- ι. -/
def iota : Lane → List Lane → List Lane
  | rc, h :: t => (h ^^^ rc) :: t
  | _, [] => []

/-- The permutation Keccak-f[1600]: 24 rounds. -/
def permute (a : List Lane) : List Lane :=
  let walk := rhoWalk 24 0 1 0
  (roundConstants 24 1).foldl (fun a rc => iota rc (chi (rhoPi walk (theta a)))) a

/-- Split a list into blocks of n (fuel bounds the number of blocks). -/
def blocksOf {α : Type} (n : Nat) : Nat → List α → List (List α)
  | 0, _ => []
  | f + 1, l => if l.isEmpty then [] else l.take n :: blocksOf n f (l.drop n)

/-- Absorb one block of r lanes. -/
def absorb (r : Nat) (a : List Lane) (blk : List Byte) : List Lane :=
  permute (eachLane fun x y =>
    let i := x + 5 * y
    nth a i 0 ^^^ (if i < r then BitVec.ofNat 64 (bytesNat ((blk.drop (8 * i)).take 8)) else 0))

/-- Pad a message to whole blocks of n bytes: 0x06 … 0x80. -/
def sha3Pad (n : Nat) (l : List Byte) : List Byte :=
  let k := n - l.length % n
  if k = 1 then l ++ [0x86] else l ++ [0x06] ++ List.replicate (k - 2) 0 ++ [0x80]

/-- The sponge of FIPS 202 with r lanes of rate, giving k lanes. -/
def sponge (r k : Nat) (l : List Byte) : List Byte :=
  let p := sha3Pad (8 * r) l
  let a := (blocksOf (8 * r) (p.length / (8 * r)) p).foldl (absorb r) (List.replicate 25 (0 : Lane))
  ((List.range k).map fun i => natBytes 8 (nth a i 0).toNat).flatten

/-- SHA3-256: 32 bytes. -/
def sha3 (l : List Byte) : List Byte := sponge 17 4 l
/-- SHA3-512: 64 bytes. -/
def sha512 (l : List Byte) : List Byte := sponge 9 8 l

end Sys2Proof.Machine
end

