-- ==== Sys2Proof/Config.lean ====
section
/-! DEFINITION. What the spec leaves open: constants with no body. No proof can see a value of one,
so whatever is proved holds for every value (notes/assumptions/1.md). -/
namespace Sys2Proof.Config

/-- The byte at an address of memory whose contents the k-th event left unspecified (R219, R238, R595). -/
opaque voidByte : Nat → Nat → Byte
/-- Word i of call 0x0000 for a grade and a suffix: the spec gives no encodings (R4). -/
opaque partWord : Bool → Bool → Nat → Word
/-- The k-th 32-bit word that the spec leaves unspecified. -/
opaque freeWord : Nat → Word
/-- The k-th free choice among n possibilities is freeNat k n; its users reduce it mod n. -/
opaque freeNat : Nat → Nat

/-- The 16 bits that culvert, channel and write flag make in DETAIL1 of XLATE_STALL (R254). -/
opaque stallWhere : Nat → Nat → Bool → BitVec 16

/-- An R, G or B value of a YUV422 source: draw number, component, row, column (R356). -/
opaque pressPixel : Nat → Nat → Nat → Nat → Nat
/-- Whether an inexact result of a Press stage is rounded up: stage, numerator, denominator (R356, R357, R367). -/
opaque pressUp : Nat → Nat → Nat → Bool
/-- A pixel lies too far from its same-colour neighbours: its value, theirs (R356, stage 3). -/
opaque pressOutlier : Nat → List Nat → Bool
/-- The median of same-colour neighbours (R356, stage 3). -/
opaque pressMedian : List Nat → Nat
/-- The bilinear gain of the corners of a cell of the lens-shading grid at a place of it: row, column, height, width (R356, stage 4). -/
opaque pressLsc : List Nat → Nat → Nat → Nat → Nat → Nat
/-- A colour that demosaicing interpolates: the colour, the CFA, the parities of row and column, the 5 × 5 window (none: outside the
image) (R356, stage 6). -/
opaque pressDemosaic : Nat → Nat → Nat → Nat → List (Option Nat) → Nat
/-- The chroma code of the pixels that share it (R357). -/
opaque pressChroma : List Nat → Nat

/-! The part's fuses and keys, and the algorithms of RFC 8032 and FIPS 204 (R527–R530, R547–R550). -/

/-- Byte i of ROOT_HASH of a slot. -/
opaque rootHash : Nat → Nat → Byte
/-- Byte i of DEVICE_SECRET. -/
opaque deviceSecret : Nat → Byte
/-- Byte i of FACTORY_CAL. -/
opaque factoryBytes : Nat → Byte
/-- A factory value, and the least and the greatest user delta, of a unit's parameter. -/
opaque factoryCal : Nat → Nat → Word
opaque calLeast : Nat → Nat → Int
opaque calMost : Nat → Nat → Int
/-- The two certificates of the identity area, one after the other. -/
opaque certs : List Byte
/-- An Ed25519 signature verifies: public key, message, signature. -/
opaque edVerify : List Byte → List Byte → List Byte → Bool
/-- An ML-DSA-65 signature verifies: context, public key, message, signature. -/
opaque mldsaVerify : List Byte → List Byte → List Byte → List Byte → Bool
/-- Byte i of a public key made from a seed. -/
opaque edPublic : List Byte → Nat → Byte
opaque mldsaPublic : List Byte → Nat → Byte
/-- Byte i of a signature with the key of a seed: (context,) message. -/
opaque edSign : List Byte → List Byte → Nat → Byte
opaque mldsaSign : List Byte → List Byte → List Byte → Nat → Byte

end Sys2Proof.Config
end

