-- ==== Sys2Proof/Machine/Flags.lean ====
section
/-! DEFINITION. The computations behind status bits and counters: saturating counts, mark conditions, masked
comparisons of initiator IDs (R15, R217, R252, R256). The block has no flags of a processor's kind. -/
namespace Sys2Proof.Machine

/-! ### Counters -/

/-- Saturating sum of a counter that holds at most top. -/
def satAdd (top a b : Nat) : Nat := if a + b ≤ top then a + b else top

/-- The field hi:lo of w counted up by k, saturating at the field's largest value. -/
def countBits (w : Word) (hi lo k : Nat) : Word :=
  setBits w hi lo (satAdd (2 ^ (hi + 1 - lo) - 1) (bits w hi lo) k)

/-! ### Mark conditions (R256) -/

/-- m satisfies "≥ v": (m − v) mod 2^32 < 2^31 (R256). -/
def markGe (m v : Nat) : Bool := (m + 2 ^ 32 - v % 2 ^ 32) % 2 ^ 32 < 2 ^ 31
/-- The condition of a start condition, a wait or a watch. -/
def markOk (m v : Nat) (eq : Bool) : Bool := if eq then m = v else markGe m v

/-! ### Initiator IDs -/

/-- (a XOR b) AND NOT mask = 0 on 10-bit initiator IDs (R252, R444, R584). -/
def idCovers (id mask ini : Nat) : Bool := (ini ^^^ id) &&& (0x3FF - mask % 0x400) = 0
/-- (a XOR b) AND mask = 0 on 10-bit initiator IDs (R217, R449). -/
def idMatch (id mask ini : Nat) : Bool := (ini ^^^ id) &&& (mask % 0x400) = 0

end Sys2Proof.Machine
end

