-- ==== Sys2Proof/Machine/RegTable.lean ====
section
/-! DEFINITION. The register tables of the spec as data: for each kind of block its rows (first offset,
stride, count, access, reset value, bits that are not reserved, fields marked RO, fields marked W1C, ranges
(high bit, low bit, least, greatest) of fields that R15 bounds). One comment a row names register and rule.
The bits of a row that its Meaning column does not list are taken as reserved (notes/assumptions/5.md). -/
namespace Sys2Proof.Machine

/-- The access types of R13. -/
inductive Acc where
  | ro | rw | wo | w1c | rc
  deriving DecidableEq, Repr

/-- One row of a register table. -/
structure RegRow where
  lo : Nat
  stride : Nat
  count : Nat
  acc : Acc
  reset : Nat
  valid : Nat
  ro : Nat
  w1c : Nat
  ranges : List (Nat × Nat × Nat × Nat)
  deriving DecidableEq, Repr

/-- Registers of a TC block. -/
def regsTC : List RegRow := [
  ⟨0x40, 4, 1, .ro, 0, 0xFFFF, 0, 0, []⟩, -- RATE_NOW R25
  ⟨0x44, 4, 1, .rc, 0xFFFF, 0xFFFF, 0, 0, []⟩, -- RATE_MIN R25
  ⟨0x48, 4, 1, .rc, 0, 0xFFFF, 0, 0, []⟩, -- RATE_MAX R25
  ⟨0x4C, 4, 1, .rw, 0x10000, 0x1FFFF, 0, 0, []⟩, -- RATE_ALARM R25
  ⟨0x300, 4, 1, .ro, 0x3FF0001, 0xFFFF00FF, 0, 0, []⟩, -- NUM_ID R75
  ⟨0x304, 4, 1, .rw, 0x40, 0xFFFF, 0, 0, []⟩, -- GUARD_SPILL R75
  ⟨0x308, 4, 1, .rw, 0, 0xFFFF, 0, 0, []⟩, -- GUARD_UNDER R75
  ⟨0x30C, 4, 1, .rc, 0, 0xFFFFFFFF, 0, 0, []⟩, -- GUARD_EVENTS R75
  ⟨0x310, 4, 1, .rc, 0, 0xFFFFFFFF, 0, 0, []⟩, -- SPILL_TOTAL R75
  ⟨0x314, 4, 1, .rc, 0, 0xFFFFFFFF, 0, 0, []⟩, -- UNDER_TOTAL R75
  ⟨0x318, 4, 1, .rc, 0, 0xFFFFFFFF, 0, 0, []⟩, -- CLIP_TOTAL R75
  ⟨0x31C, 4, 1, .rc, 0, 0xFFFFFFFF, 0, 0, []⟩, -- RANGE_TOTAL R75
  ⟨0x320, 4, 1, .rc, 0, 0xFFFFFFFF, 0, 0, []⟩, -- NONFIN_TOTAL R75
  ⟨0x324, 4, 1, .ro, 0, 0x80FF3F3F, 0, 0, []⟩, -- SKEW_LAST R75
  ⟨0x328, 4, 1, .rc, 0, 0xFFFFFFFF, 0, 0, []⟩, -- SKEW_COUNT R75
  ⟨0x200, 4, 1, .rw, 1, 1, 0, 0, []⟩, -- CL_CFG R100
  ⟨0x204, 4, 1, .ro, 0xF0001FF, 0x8FFF01FF, 0, 0, []⟩, -- CL_STATUS R100
  ⟨0x208, 4, 1, .ro, 0, 0x800FFFFF, 0, 0, []⟩, -- CL_RESERVE R100
  ⟨0x20C, 4, 1, .ro, 0, 0, 0, 0, []⟩, -- CL_RESERVE_TILES R100
  ⟨0x210, 4, 1, .ro, 0, 0xFFFFFFFF, 0, 0, []⟩, -- CL_PORT_LO R100
  ⟨0x214, 4, 1, .ro, 0, 0xFFFFFFFF, 0, 0, []⟩, -- CL_PORT_HI R100
  ⟨0x218, 4, 1, .rc, 0, 0xFFFFFFFF, 0, 0, []⟩, -- CL_PORT_STALL R100
  ⟨0x21C, 4, 1, .rc, 0, 0xFFFFFFFF, 0, 0, []⟩, -- CL_CMDS R100
  ⟨0x220, 4, 1, .ro, 0, 0xFFFFFFFF, 0, 0, []⟩, -- CL_STEP_LAST R100
  ⟨0x224, 4, 1, .rc, 0, 0xFFFFFFFF, 0, 0, []⟩] -- CL_STEP_MAX R100

/-- Registers of a TE block. -/
def regsTE : List RegRow := [
  ⟨0x300, 4, 1, .ro, 0x3FF0001, 0xFFFF00FF, 0, 0, []⟩, -- NUM_ID R75
  ⟨0x304, 4, 1, .rw, 0x40, 0xFFFF, 0, 0, []⟩, -- GUARD_SPILL R75
  ⟨0x308, 4, 1, .rw, 0, 0xFFFF, 0, 0, []⟩, -- GUARD_UNDER R75
  ⟨0x30C, 4, 1, .rc, 0, 0xFFFFFFFF, 0, 0, []⟩, -- GUARD_EVENTS R75
  ⟨0x310, 4, 1, .rc, 0, 0xFFFFFFFF, 0, 0, []⟩, -- SPILL_TOTAL R75
  ⟨0x314, 4, 1, .rc, 0, 0xFFFFFFFF, 0, 0, []⟩, -- UNDER_TOTAL R75
  ⟨0x318, 4, 1, .rc, 0, 0xFFFFFFFF, 0, 0, []⟩, -- CLIP_TOTAL R75
  ⟨0x31C, 4, 1, .rc, 0, 0xFFFFFFFF, 0, 0, []⟩, -- RANGE_TOTAL R75
  ⟨0x320, 4, 1, .rc, 0, 0xFFFFFFFF, 0, 0, []⟩, -- NONFIN_TOTAL R75
  ⟨0x324, 4, 1, .ro, 0, 0x80FF3F3F, 0, 0, []⟩, -- SKEW_LAST R75
  ⟨0x328, 4, 1, .rc, 0, 0xFFFFFFFF, 0, 0, []⟩, -- SKEW_COUNT R75
  ⟨0x100, 4, 1, .ro, 0, 0xC000FFFF, 0, 0, []⟩, -- TE_STATUS R132
  ⟨0x104, 4, 1, .rw, 0xFF, 0xFF, 0, 0, []⟩, -- TE_FEED R132
  ⟨0x108, 4, 1, .ro, 0, 0x7FFFF, 0, 0, []⟩, -- TE_LINESTORE R132
  ⟨0x10C, 4, 1, .rc, 0, 0xFFFFFFFF, 0, 0, []⟩, -- TE_LINES R132
  ⟨0x110, 4, 1, .rc, 0, 0xFFFFFFFF, 0, 0, []⟩, -- TE_OVERRUN R132
  ⟨0x114, 4, 1, .ro, 0, 0xFFFFFFFF, 0, 0, []⟩, -- TE_ACTIVE_LO R132
  ⟨0x118, 4, 1, .ro, 0, 0xFFFFFFFF, 0, 0, []⟩, -- TE_ACTIVE_HI R132
  ⟨0x11C, 4, 1, .rc, 0, 0xFFFFFFFF, 0, 0, []⟩, -- TE_PASSES R132
  ⟨0x120, 4, 1, .ro, 0, 0xFFFFFFFF, 0, 0, []⟩, -- TE_STEP_LAST R132
  ⟨0x124, 4, 1, .rc, 0, 0xFFFFFFFF, 0, 0, []⟩] -- TE_STEP_MAX R132

/-- Registers of a Tile block. -/
def regsTile : List RegRow := [
  ⟨0x100, 4, 1, .ro, 0, 0xFC00FFFF, 0, 0, []⟩, -- TILE_STATUS R99
  ⟨0x104, 4, 1, .ro, 0, 0xF, 0, 0, []⟩, -- TILE_SLOT R99
  ⟨0x108, 4, 1, .ro, 0, 0xFFFFFFFF, 0, 0, []⟩, -- TILE_ACTIVE_LO R99
  ⟨0x10C, 4, 1, .ro, 0, 0xFFFFFFFF, 0, 0, []⟩, -- TILE_ACTIVE_HI R99
  ⟨0x110, 4, 1, .rc, 0, 0xFFFFFFFF, 0, 0, []⟩, -- TILE_BLOCKS R99
  ⟨0x114, 4, 1, .rc, 0, 0xFFFF, 0, 0, []⟩, -- STAGE_CE R99
  ⟨0x118, 4, 1, .rc, 0, 0xFFFF, 0, 0, []⟩, -- STAGE_UE R99
  ⟨0x11C, 4, 1, .ro, 0, 0xC0FFFFFF, 0, 0, []⟩] -- TILE_TEST R99

/-- Registers of a Gang block. -/
def regsGang : List RegRow := [
  ⟨0x200, 4, 1, .ro, 0, 0x3F, 0, 0, []⟩, -- GANG_MEMBERS R101
  ⟨0x204, 4, 1, .ro, 0, 7, 0, 0, []⟩, -- GANG_REDUCER R101
  ⟨0x208, 4, 1, .ro, 0, 0xFFFFFFFF, 0, 0, []⟩, -- GANG_STEP_LAST R101
  ⟨0x20C, 4, 1, .rc, 0, 0xFFFFFFFF, 0, 0, []⟩] -- GANG_RECORDS R101

/-- Registers of a VE block. -/
def regsVE : List RegRow := [
  ⟨0x100, 4, 1, .ro, 0, 0xF000FFFF, 0, 0, []⟩, -- VE_STATUS R161
  ⟨0x104, 4, 1, .rw, 0, 1, 0, 0, []⟩, -- VE_CFG R161
  ⟨0x108, 4, 1, .ro, 1, 0xFFFF, 0, 0, []⟩, -- VE_TABLESET R161
  ⟨0x10C, 4, 1, .ro, 0, 0xFFFFFFFF, 0, 0, []⟩, -- VE_ACTIVE_LO R161
  ⟨0x110, 4, 1, .ro, 0, 0xFFFFFFFF, 0, 0, []⟩, -- VE_ACTIVE_HI R161
  ⟨0x114, 4, 1, .rc, 0, 0xFFFFFFFF, 0, 0, []⟩, -- VE_OPS R161
  ⟨0x118, 4, 1, .rc, 0, 0xFFFFFFFF, 0, 0, []⟩, -- VE_MERGES R161
  ⟨0x11C, 4, 1, .rc, 0, 0xFFFFFFFF, 0, 0, []⟩, -- VE_REORDER R161
  ⟨0x120, 4, 1, .rc, 0, 0xFFFF, 0, 0, []⟩, -- VE_RF_CE R161
  ⟨0x124, 4, 1, .rc, 0, 0xFFFF, 0, 0, []⟩, -- VE_RF_UE R161
  ⟨0x128, 4, 1, .rc, 0, 0xFFFFFFFF, 0, 0, []⟩, -- VE_NONFIN R161
  ⟨0x12C, 4, 1, .ro, 0, 0xFFFFFFFF, 0, 0, []⟩, -- VE_STEP_LAST R161
  ⟨0x130, 4, 1, .rc, 0, 0xFFFFFFFF, 0, 0, []⟩, -- VE_STEP_MAX R161
  ⟨0x134, 4, 1, .rc, 0, 0xFFFFFFFF, 0, 0, []⟩] -- VE_DW_FALLBACK R161

/-- Registers of a BG block. -/
def regsBG : List RegRow := [
  ⟨0x100, 4, 1, .ro, 0, 0xC000FFFF, 0, 0, []⟩, -- BG_STATUS R240
  ⟨0x104, 4, 1, .rw, 8, 0xFF, 0, 0, [(7, 0, 2, 64)]⟩, -- BG_WD_CFG R240
  ⟨0x108, 4, 1, .rc, 0, 0xFFFFFFFF, 0, 0, []⟩, -- BG_WD_BITES R240
  ⟨0x10C, 4, 1, .ro, 0, 0xBFFFFE00, 0, 0, []⟩, -- BG_SEVER_LAST R240
  ⟨0x110, 4, 8, .rw, 0x8080808, 0xFFFFFFFF, 0, 0, [(31, 24, 1, 255), (23, 16, 1, 255), (15, 8, 1, 255), (7, 0, 1, 255)]⟩, -- BG_WAIT_LIMIT0–7 R240
  ⟨0x130, 4, 1, .rc, 0, 0xFFFFFFFF, 0, 0, []⟩, -- BG_FORCED R240
  ⟨0x134, 4, 1, .rc, 0, 0xFFFF, 0, 0, []⟩, -- BG_ECC_CE R240
  ⟨0x138, 4, 1, .rc, 0, 0xFFFF, 0, 0, []⟩, -- BG_ECC_UE R240
  ⟨0x13C, 4, 1, .ro, 0x20, 0xFFFFFFFF, 0, 0, []⟩, -- BG_ROWS R240
  ⟨0x140, 4, 1, .ro, 0, 0x81FF81FF, 0, 0, []⟩, -- BG_SPARE R240
  ⟨0x144, 4, 1, .rc, 0, 0xFFFFFFFF, 0, 0, []⟩, -- BG_GATHER R240
  ⟨0x148, 4, 1, .rc, 0, 0xFFFFFFFF, 0, 0, []⟩, -- BG_SLEEPS R240
  ⟨0x14C, 4, 1, .rc, 0, 0xFFFFFFFF, 0, 0, []⟩, -- BG_LATE R240
  ⟨0x150, 4, 1, .rw, 0x10, 0x800000FF, 0, 0, [(7, 0, 1, 16)]⟩, -- HAZ_CFG R240
  ⟨0x154, 4, 1, .rc, 0, 0xFFFFFFFF, 0, 0, []⟩, -- HAZ_COUNT R240
  ⟨0x158, 4, 1, .ro, 0, 0x8FFFFFFF, 0, 0, []⟩, -- HAZ_LAST_ADDR R240
  ⟨0x15C, 4, 1, .ro, 0, 0xFFFFF003, 0, 0, []⟩, -- HAZ_LAST_IDS R240
  ⟨0x160, 4, 1, .rc, 0, 0xFFFFFFFF, 0, 0, []⟩] -- BG_MAINT R240

/-- Registers of a BG0 block. -/
def regsBG0 : List RegRow := [
  ⟨0x200, 4, 1, .ro, 0, 0x7FF, 0, 0, []⟩, -- POLDER_PARCELS R241
  ⟨0x204, 4, 1, .ro, 0, 0xC00003FF, 0, 0, []⟩, -- POLDER_LOCK R241
  ⟨0x208, 4, 1, .ro, 0, 0xFFF00FFF, 0, 0, []⟩, -- POLDER_DENIED_LAST R241
  ⟨0x20C, 4, 1, .rc, 0, 0xFFFFFFFF, 0, 0, []⟩, -- POLDER_DENIED R241
  ⟨0x1000, 32, 1024, .rw, 0, 0xF0FFFFFF, 0x10000000, 0, []⟩, -- PCL_LOC R215
  ⟨0x1004, 32, 1024, .rw, 0, 0xC00FFFFF, 0, 0, [(31, 30, 0, 2)]⟩, -- PCL_OWNER R215
  ⟨0x1008, 32, 1024, .rw, 0, 0xFFFF, 0, 0, []⟩, -- PCL_CREDIT R215
  ⟨0x100C, 32, 1024, .ro, 0, 0x7FFFF, 0, 0, []⟩, -- PCL_AVAIL R215
  ⟨0x1010, 32, 1024, .rw, 0, 0xFFF003FF, 0, 0, []⟩, -- PCL_RIGHT0 R215
  ⟨0x1014, 32, 1024, .rw, 0, 0xFFF003FF, 0, 0, []⟩, -- PCL_RIGHT1 R215
  ⟨0x1018, 32, 1024, .rw, 0, 0xFFF003FF, 0, 0, []⟩, -- PCL_RIGHT2 R215
  ⟨0x101C, 32, 1024, .rw, 0, 0xFFF003FF, 0, 0, []⟩] -- PCL_RIGHT3 R215

/-- Registers of a DC block. -/
def regsDC : List RegRow := [
  ⟨0x100, 4, 1, .ro, 0, 0xF000000F, 0, 0, []⟩, -- DC_STATUS R242
  ⟨0x104, 4, 1, .ro, 0, 0xFFFF, 0, 0, []⟩, -- DC_ROLE R242
  ⟨0x108, 4, 1, .ro, 0, 0xFFFFFFFF, 0, 0, []⟩, -- DC_BYTES_LO R242
  ⟨0x10C, 4, 1, .ro, 0, 0xFFFFFFFF, 0, 0, []⟩, -- DC_BYTES_HI R242
  ⟨0x110, 4, 1, .rc, 0, 0xFFFFFFFF, 0, 0, []⟩, -- DC_CREDIT_WAIT R242
  ⟨0x114, 4, 1, .rc, 0, 0xFFFFFFFF, 0, 0, []⟩, -- DC_MOVES R242
  ⟨0x118, 4, 1, .rc, 0, 0xFFFF, 0, 0, []⟩] -- DC_SEVERED R242

/-- Registers of a Sched block. -/
def regsSched : List RegRow := [
  ⟨0x200, 4, 1, .ro, 0xC0000000, 0xC0003FFF, 0, 0, []⟩, -- SCHED_STATUS R268
  ⟨0x204, 4, 1, .rw, 0, 0xFC000000, 0, 0, []⟩, -- QTABLE_LO R268
  ⟨0x208, 4, 1, .rw, 0, 0xFFFF, 0, 0, []⟩, -- QTABLE_HI R268
  ⟨0x20C, 4, 1, .wo, 0, 0xFFFFF, 0, 0, []⟩, -- DOORBELL R268
  ⟨0x210, 4, 1, .wo, 0, 0x800FFFFF, 0, 0, []⟩, -- QINVAL R268
  ⟨0x214, 4, 1, .ro, 0, 0x7FF, 0, 0, []⟩, -- PINNED R268
  ⟨0x218, 4, 1, .rc, 0, 0xFFFFFFFF, 0, 0, []⟩, -- CACHE_MISS R268
  ⟨0x21C, 4, 1, .rc, 0, 0xFFFFFFFF, 0, 0, []⟩, -- DISPATCHES R268
  ⟨0x220, 4, 1, .rc, 0, 0xFFFFFFFF, 0, 0, []⟩, -- PREEMPTS_ALL R268
  ⟨0x224, 4, 1, .rc, 0, 0xFFFFFFFF, 0, 0, []⟩, -- OVERRUNS_ALL R268
  ⟨0x228, 4, 1, .rw, 0xA, 0xFFFF, 0, 0, [(15, 0, 1, 60000)]⟩, -- XLATE_TIMEOUT R268
  ⟨0x22C, 4, 1, .rc, 0, 0xFFFFFFFF, 0, 0, []⟩, -- LATE_ENTRY R268
  ⟨0x230, 4, 1, .rw, 0, 0xFFF, 0, 0, []⟩, -- CLIENT_SEL R268
  ⟨0x234, 4, 1, .rc, 0, 0xFFFFFFFF, 0, 0, []⟩, -- COMP_FULL R268
  ⟨0x240, 4, 16, .rw, 0, 0xFFFFFFFF, 0, 0, []⟩] -- CLIENT_WORD0–15 R268

/-- Registers of a Marks block. -/
def regsMarks : List RegRow := [
  ⟨0x100, 4, 1, .rw, 0, 0xFFFF, 0, 0, []⟩, -- MARK_ADD_SEL R269
  ⟨0x104, 4, 1, .wo, 0, 0xFFFFFFFF, 0, 0, []⟩, -- MARK_ADD R269
  ⟨0x108, 4, 1, .ro, 0, 0xC3FFFFFF, 0, 0, []⟩, -- MARK_DENIED_LAST R269
  ⟨0x10C, 4, 1, .rc, 0, 0xFFFFFFFF, 0, 0, []⟩, -- MARK_DENIED R269
  ⟨0x110, 4, 1, .ro, 0, 0x1FF, 0, 0, []⟩] -- MARK_WATCHES R269

/-- Registers of a Devctl block. -/
def regsDevctl : List RegRow := [
  ⟨0x400, 4, 1, .rw, 2, 0xC0000003, 0xC0000000, 0, []⟩, -- SAME_BITS R291
  ⟨0x404, 4, 1, .ro, 0x1000100, 0xFFFFFFFF, 0, 0, []⟩, -- FINGERPRINT_LO R291
  ⟨0x408, 4, 1, .ro, 0xB1FFFFFF, 0xFFFFFFFF, 0, 0, []⟩, -- FINGERPRINT_HI R291
  ⟨0x40C, 4, 1, .ro, 0, 0xFFFF, 0, 0, []⟩, -- SB_UNITS R291
  ⟨0x410, 4, 1, .rc, 0, 0xFFFFFFFF, 0, 0, []⟩, -- SB_SWITCHES R291
  ⟨0x414, 4, 1, .ro, 0, 0xFFFFFFFF, 0, 0, []⟩, -- RINDS_LO R291
  ⟨0x418, 4, 1, .ro, 0, 0xFFFFFFFF, 0, 0, []⟩, -- RINDS_HI R291
  ⟨0x41C, 4, 1, .rc, 0, 0xFFFFFFFF, 0, 0, []⟩, -- SB_REFUSED R291
  ⟨0x420, 4, 1, .rc, 0, 0xFFFFFFFF, 0, 0, []⟩, -- WD_STALES R291
  ⟨0x4000, 4, 1024, .ro, 0, 0xC0FFFFFF, 0, 0, []⟩, -- WD_STATUS0–1023 R291
  ⟨0x8000, 4, 8192, .ro, 0, 0xFFFFFFFF, 0, 0, []⟩, -- WD_DIGEST0–1023 R291
  ⟨0x200, 4, 1, .rw, 0, 0xFFFFFFFF, 0, 0, []⟩, -- GPIO_DIR R584
  ⟨0x204, 4, 1, .rw, 0, 0xFFFFFFFF, 0, 0, []⟩, -- GPIO_OUT R584
  ⟨0x208, 4, 1, .ro, 0, 0xFFFFFFFF, 0, 0, []⟩, -- GPIO_IN R584
  ⟨0x20C, 4, 1, .wo, 0, 0xFFFFFFFF, 0, 0, []⟩, -- GPIO_SET R584
  ⟨0x210, 4, 1, .wo, 0, 0xFFFFFFFF, 0, 0, []⟩, -- GPIO_CLR R584
  ⟨0x214, 4, 32, .rw, 0, 0x83FF03FF, 0, 0, []⟩, -- GPIO_OWNER0–31 R584
  ⟨0x294, 4, 1, .ro, 0, 0xF, 0, 0, []⟩, -- PIN_STRAPS R584
  ⟨0x298, 4, 1, .ro, 0, 0x83FF001F, 0, 0, []⟩, -- PIN_REFUSED R584
  ⟨0x80, 4, 1, .ro, 0, 0xFFFF, 0, 0, []⟩, -- RATE_NOW R26
  ⟨0x84, 4, 1, .rc, 0xFFFF, 0xFFFF, 0, 0, []⟩, -- RATE_MIN R26
  ⟨0x88, 4, 1, .rc, 0, 0xFFFF, 0, 0, []⟩, -- RATE_MAX R26
  ⟨0x8C, 4, 1, .rw, 0x10000, 0x1FFFF, 0, 0, []⟩, -- RATE_ALARM R26
  ⟨0x90, 4, 1, .ro, 0, 0xFFFF, 0, 0, []⟩, -- RATE_NOW R26
  ⟨0x94, 4, 1, .rc, 0xFFFF, 0xFFFF, 0, 0, []⟩, -- RATE_MIN R26
  ⟨0x98, 4, 1, .rc, 0, 0xFFFF, 0, 0, []⟩, -- RATE_MAX R26
  ⟨0x9C, 4, 1, .rw, 0x10000, 0x1FFFF, 0, 0, []⟩] -- RATE_ALARM R26

/-- Registers of a AX block. -/
def regsAX : List RegRow := [
  ⟨0x100, 4, 1, .ro, 0, 0xFFFFF000, 0, 0, []⟩, -- AX_STATUS R315
  ⟨0x104, 4, 1, .rw, 8, 0xFFFF0D, 0, 0, []⟩, -- AX_CFG R315
  ⟨0x108, 4, 1, .ro, 0, 0xFFFF, 0, 0, []⟩, -- AX_RTT R315
  ⟨0x10C, 4, 1, .rc, 0, 0xFFFFFFFF, 0, 0, []⟩, -- AX_CRC_ERR R315
  ⟨0x110, 4, 1, .rc, 0, 0xFFFFFFFF, 0, 0, []⟩, -- AX_REPLAYS R315
  ⟨0x114, 4, 1, .rc, 0, 0xFFFF, 0, 0, []⟩, -- AX_RETRAINS R315
  ⟨0x118, 4, 1, .ro, 0, 0xFFFFFFFF, 0, 0, []⟩, -- AX_LANE_ERR R315
  ⟨0x11C, 4, 1, .ro, 0, 0xFFFFFFFF, 0, 0, []⟩, -- AX_TX_LO R315
  ⟨0x120, 4, 1, .ro, 0, 0xFFFFFFFF, 0, 0, []⟩, -- AX_TX_HI R315
  ⟨0x124, 4, 1, .ro, 0, 0xFFFFFFFF, 0, 0, []⟩, -- AX_RX_LO R315
  ⟨0x128, 4, 1, .ro, 0, 0xFFFFFFFF, 0, 0, []⟩, -- AX_RX_HI R315
  ⟨0x12C, 4, 1, .rc, 0, 0xFFFFFFFF, 0, 0, []⟩, -- AX_NACKS R315
  ⟨0x130, 4, 1, .ro, 0, 0xF0000000, 0, 0, []⟩] -- AX_DOWN_LAST R315

/-- Registers of a Ring block. -/
def regsRing : List RegRow := [
  ⟨0x200, 4, 1, .ro, 0, 0xFFFF0F07, 0, 0, []⟩, -- RING_CFG R316
  ⟨0x204, 4, 1, .ro, 0, 0xFFFF, 0, 0, []⟩, -- RING_ROUTE R316
  ⟨0x208, 4, 1, .rw, 0, 0xFFFFFFFF, 0, 0, []⟩, -- RING_MARKS R316
  ⟨0x20C, 4, 1, .rw, 0x3E8, 0xFFFF, 0, 0, [(15, 0, 10, 60000)]⟩, -- RING_ACK_TIMEOUT R316
  ⟨0x210, 4, 16, .ro, 0, 0xFFFFFFFF, 0, 0, []⟩, -- RING_FP0–7 R316
  ⟨0x250, 4, 1, .ro, 0, 0x7FFFF, 0, 0, []⟩, -- RING_GRANTED_OUT R316
  ⟨0x254, 4, 1, .ro, 0, 0x7FFFF, 0, 0, []⟩, -- RING_GRANTED_IN R316
  ⟨0x258, 4, 1, .ro, 0, 0xFF00FFFF, 0, 0, []⟩, -- RING_DENIED_LAST R316
  ⟨0x25C, 4, 1, .rc, 0, 0xFFFFFFFF, 0, 0, []⟩, -- RING_DENIED R316
  ⟨0x260, 4, 1, .rc, 0, 0xFFFFFFFF, 0, 0, []⟩, -- RING_TIMEOUTS R316
  ⟨0x264, 4, 1, .rc, 0, 0xFFFFFFFF, 0, 0, []⟩] -- RING_REROUTES R316

/-- Registers of a Vat block. -/
def regsVat : List RegRow := [
  ⟨0x100, 4, 1, .ro, 0, 0xFFC0FFFF, 0, 0, []⟩, -- VAT_STATUS R349
  ⟨0x104, 4, 1, .rw, 0, 3, 0, 0, []⟩, -- VAT_CFG R349
  ⟨0x108, 4, 1, .rw, 0, 0xFFFFFFC1, 0, 0, []⟩, -- LIVE_DESC_LO R349
  ⟨0x10C, 4, 1, .rw, 0, 0xFFFF, 0, 0, []⟩, -- LIVE_DESC_HI R349
  ⟨0x110, 4, 1, .rw, 0, 0xFFFFFFC0, 0, 0, []⟩, -- JOB_DESC_LO R349
  ⟨0x114, 4, 1, .rw, 0, 0xFFFF, 0, 0, []⟩, -- JOB_DESC_HI R349
  ⟨0x118, 4, 1, .wo, 0, 7, 0, 0, []⟩, -- JOB_CTL R349
  ⟨0x11C, 4, 1, .rw, 0, 0xFFFF0000, 0, 0, []⟩, -- CELLAR_BASE_LO R349
  ⟨0x120, 4, 1, .rw, 0, 0xFFFF, 0, 0, []⟩, -- CELLAR_BASE_HI R349
  ⟨0x124, 4, 1, .rw, 0, 0xFFFFFFFF, 0, 0, []⟩, -- CELLAR_SLOTS R349
  ⟨0x128, 4, 1, .rc, 0, 0xFFFFFFFF, 0, 0, []⟩, -- CELLAR_HITS R349
  ⟨0x12C, 4, 1, .rc, 0, 0xFFFFFFFF, 0, 0, []⟩, -- CELLAR_MISSES R349
  ⟨0x130, 4, 1, .rc, 0, 0xFFFF, 0, 0, []⟩, -- CELLAR_BAD R349
  ⟨0x134, 4, 1, .rc, 0, 0xFFFFFFFF, 0, 0, []⟩, -- VAT_FRAMES R349
  ⟨0x138, 4, 1, .rc, 0, 0xFFFFFFFF, 0, 0, []⟩, -- VAT_SKIPS R349
  ⟨0x13C, 4, 1, .rc, 0, 0xFFFFFFFF, 0, 0, []⟩, -- ROI_STATS R349
  ⟨0x140, 4, 1, .rc, 0, 0xFFFFFFFF, 0, 0, []⟩, -- VAT_CORRUPT R349
  ⟨0x144, 4, 1, .rc, 0, 0xFFFFFFFF, 0, 0, []⟩, -- VAT_DEFERRED R349
  ⟨0x148, 4, 1, .rc, 0, 0xFFFFFFFF, 0, 0, []⟩, -- VAT_SHARED R349
  ⟨0x14C, 4, 1, .rc, 0, 0xFFFFFFFF, 0, 0, []⟩, -- VAT_CLIPS R349
  ⟨0x150, 4, 1, .ro, 0, 0xFFFFFFFF, 0, 0, []⟩, -- MEDIAN_NOW R349
  ⟨0x154, 4, 1, .rw, 0x640014, 0xFFFFFFFF, 0, 0, [(31, 16, 2, 1000), (15, 0, 2, 1000)]⟩, -- SLOW_CFG R349
  ⟨0x158, 4, 1, .rw, 0x30D40, 0xFFFFFFFF, 0, 0, [(31, 0, 1, 1000000000)]⟩, -- MEDIAN_DEFAULT_NS R349
  ⟨0x15C, 4, 1, .rw, 0x10000, 0xFFFFFFFF, 0, 0, [(31, 0, 1, 4294967295)]⟩, -- MEDIAN_DEFAULT_DU R349
  ⟨0x160, 4, 1, .rw, 0xA, 0xFFFF, 0, 0, [(15, 0, 1, 60000)]⟩, -- FETCH_TIMEOUT R349
  ⟨0x164, 4, 1, .ro, 0, 0xFFFFFFFF, 0, 0, []⟩, -- VAT_STEP_LAST R349
  ⟨0x168, 4, 1, .rc, 0, 0xFFFFFFFF, 0, 0, []⟩] -- VAT_STEP_MAX R349

/-- Registers of a CL block. -/
def regsCL : List RegRow := [
  ⟨0x100, 4, 1, .rw, 0, 0xEF00FFFF, 0, 0, []⟩, -- CL_CFG R376
  ⟨0x104, 4, 1, .ro, 0, 0xC00FFFFF, 0, 0, []⟩, -- CL_STATUS R376
  ⟨0x108, 4, 4, .rw, 0, 0x8F3F0F00, 0, 0, []⟩, -- CL_STREAM0–3 R376
  ⟨0x118, 4, 1, .rc, 0, 0xFFFFFFFF, 0, 0, []⟩, -- CL_ECC R376
  ⟨0x11C, 4, 1, .rc, 0, 0xFFFFFFFF, 0, 0, []⟩, -- CL_CRC R376
  ⟨0x120, 4, 1, .rc, 0, 0xFFFFFFFF, 0, 0, []⟩, -- CL_SYNC R376
  ⟨0x124, 4, 1, .rc, 0, 0xFFFFFFFF, 0, 0, []⟩, -- CL_OVERFLOW R376
  ⟨0x128, 4, 1, .rc, 0, 0xFFFFFFFF, 0, 0, []⟩] -- CL_UNBOUND R376

/-- Registers of a PP block. -/
def regsPP : List RegRow := [
  ⟨0x200, 4, 1, .rw, 0, 0xFFFFFFC0, 0, 0, []⟩, -- PP_DESC_LO R377
  ⟨0x204, 4, 1, .rw, 0, 0xFFFF, 0, 0, []⟩, -- PP_DESC_HI R377
  ⟨0x208, 4, 1, .wo, 0, 7, 0, 0, []⟩, -- PP_CTL R377
  ⟨0x20C, 4, 1, .ro, 0xFF, 0xF87FFFFF, 0, 0, []⟩, -- PP_STATUS R377
  ⟨0x210, 4, 1, .ro, 0, 0xFFFFFFFF, 0, 0, []⟩, -- PP_FRAME R377
  ⟨0x214, 4, 1, .ro, 0, 0xFFFF, 0, 0, []⟩, -- PP_SET R377
  ⟨0x218, 4, 1, .rw, 0, 1, 0, 0, []⟩, -- PP_SPARE R377
  ⟨0x21C, 4, 1, .rw, 0, 0xFFFFFFC0, 0, 0, []⟩, -- PP_PSET_LO R377
  ⟨0x220, 4, 1, .wo, 0, 0x8000FFFF, 0, 0, []⟩, -- PP_PSET_HI R377
  ⟨0x224, 4, 1, .ro, 0, 0x8000FFFF, 0, 0, []⟩, -- PP_PSET_RESULT R377
  ⟨0x228, 4, 1, .ro, 0, 0x9FFFFFFF, 0, 0, []⟩, -- PP_FRZ_LAST R377
  ⟨0x22C, 4, 1, .rc, 0, 0xFFFFFFFF, 0, 0, []⟩, -- PP_FRZ_COUNT R377
  ⟨0x230, 4, 1, .rc, 0, 0xFFFFFFFF, 0, 0, []⟩, -- PP_LOST R377
  ⟨0x234, 4, 1, .rc, 0, 0xFFFFFFFF, 0, 0, []⟩, -- PP_LINE_ERR R377
  ⟨0x238, 4, 1, .rc, 0, 0xFFFFFFFF, 0, 0, []⟩, -- PP_DROP R377
  ⟨0x23C, 4, 1, .rc, 0, 0xFFFFFFFF, 0, 0, []⟩, -- PP_SKIP R377
  ⟨0x240, 4, 1, .rc, 0, 0xFFFFFFFF, 0, 0, []⟩, -- PP_SET_ERR R377
  ⟨0x244, 4, 1, .ro, 0, 0xFFFF, 0, 0, []⟩, -- PP_RATE R377
  ⟨0x248, 4, 1, .ro, 0, 0xFFFFFFFF, 0, 0, []⟩] -- PP_LINE_PS R377

/-- Registers of a Mill block. -/
def regsMill : List RegRow := [
  ⟨0x200, 4, 1, .ro, 0, 0xC00000FF, 0, 0, []⟩, -- MILL_STATUS R411
  ⟨0x204, 4, 1, .ro, 0xE4, 0x1FF, 0, 0, []⟩, -- MILL_CORE_MAP R411
  ⟨0x208, 4, 3, .ro, 0, 0xFFFF, 0, 0, []⟩, -- MILL_LOAD0–2 R411
  ⟨0x214, 4, 1, .rc, 0, 0xFFFFFFFF, 0, 0, []⟩, -- MILL_MISSED R411
  ⟨0x218, 4, 1, .rc, 0, 0xFFFFFFFF, 0, 0, []⟩, -- MILL_PLAUS R411
  ⟨0x21C, 4, 1, .rc, 0, 0xFFFF, 0, 0, []⟩, -- MILL_TAKEOVERS R411
  ⟨0x220, 4, 1, .ro, 0, 0xFFFFFFFF, 0, 0, []⟩, -- GATE_SEQ R411
  ⟨0x224, 4, 1, .ro, 0, 0xFF, 0, 0, []⟩, -- FB_STATE R411
  ⟨0x228, 4, 1, .rw, 0, 0x7F, 0, 0, [(6, 0, 0, 95)]⟩, -- LOOP_SEL R411
  ⟨0x22C, 4, 1, .wo, 0, 0xE000007F, 0, 0, []⟩, -- LOOP_CTL R411
  ⟨0x230, 4, 1, .rw, 0, 0xFFFFFFC0, 0, 0, []⟩, -- LAW_ADDR_LO R411
  ⟨0x234, 4, 1, .rw, 0, 0xFFFF, 0, 0, []⟩, -- LAW_ADDR_HI R411
  ⟨0x238, 4, 1, .wo, 0, 0xC000007F, 0, 0, []⟩, -- LAW_CTL R411
  ⟨0x23C, 4, 1, .ro, 0, 0xCFFFFFFF, 0, 0, []⟩, -- LAW_RESULT R411
  ⟨0x240, 4, 1, .rw, 0, 0x7F00FF, 0, 0, []⟩, -- COEF_SEL R411
  ⟨0x244, 4, 1, .wo, 0, 0xFFFFFFFF, 0, 0, []⟩, -- COEF_WR R411
  ⟨0x248, 4, 1, .ro, 0, 0xFFFFFFFF, 0, 0, []⟩, -- COEF_RD R411
  ⟨0x24C, 4, 1, .ro, 0, 0x8000FFFF, 0, 0, []⟩, -- COEF_RESULT R411
  ⟨0x300, 4, 8, .rw, 0, 0x8000000F, 0, 0, []⟩, -- TRIG0–7 R411
  ⟨0x400, 4, 16, .rw, 0, 0xFFFFFFFF, 0, 0, []⟩, -- LOOP_WORD0–15 R411
  ⟨0x1200, 4, 32, .ro, 0, 0xFFFFFFFF, 0, 0, []⟩, -- ENC_COUNT0–31 R411
  ⟨0x1280, 4, 32, .ro, 0, 0xFFFFFFFF, 0, 0, []⟩, -- ENC_INDEX_CNT0–31 R411
  ⟨0x1000, 16, 32, .rw, 0, 0xFFFFFFF0, 0, 0, []⟩, -- ENC_CFG R413
  ⟨0x1004, 16, 32, .rw, 0x3F800000, 0xFFFFFFFF, 0, 0, []⟩, -- ENC_SCALE R413
  ⟨0x1008, 16, 32, .rw, 0, 0xFFFFFFFF, 0, 0, []⟩, -- ENC_ORIGIN R413
  ⟨0x100C, 16, 32, .rw, 0, 0xF0FFFFFF, 0xFFFF, 0xF0000000, []⟩, -- ENC_STATUS R413
  ⟨0x1400, 8, 8, .rw, 0, 0xFC00FFFF, 0, 0, [(15, 0, 2, 65535)]⟩, -- TB_CFG R414
  ⟨0x1404, 8, 8, .ro, 0, 0xFFFF, 0, 0, []⟩, -- TB_COUNT R414
  ⟨0x1440, 8, 48, .rw, 0, 0xFEFF0000, 0, 0, []⟩, -- PWM_CFG R414
  ⟨0x1444, 8, 48, .ro, 0, 0xFFFF, 0, 0, []⟩, -- PWM_CMP R414
  ⟨0x2000, 32, 16, .rw, 0, 0xF830FFFF, 0, 0, []⟩, -- TXF+0x00 R415
  ⟨0x2004, 32, 16, .rw, 0, 0xFFFFFFFF, 0, 0, []⟩, -- TXF+0x04 R415
  ⟨0x2008, 32, 16, .rw, 0, 0xFFFF, 0, 0, []⟩, -- TXF+0x08 R415
  ⟨0x200C, 32, 16, .rw, 0, 0xFFFF0FFF, 0, 0, []⟩, -- TXF+0x0C R415
  ⟨0x2010, 32, 16, .rw, 0, 0xFFFFFFFF, 0, 0, []⟩, -- TXF+0x10 R415
  ⟨0x2014, 32, 16, .rw, 0, 0xFFFFFFFF, 0, 0, []⟩, -- TXF+0x14 R415
  ⟨0x2018, 32, 16, .rw, 0, 0xFFFFFFFF, 0, 0, []⟩, -- TXF+0x18 R415
  ⟨0x201C, 32, 16, .ro, 0, 0xFFFFFFFF, 0, 0, []⟩, -- TXF+0x1C R415
  ⟨0x2200, 32, 16, .rw, 0, 0x8030FFFF, 0, 0, []⟩, -- RXF+0x00 R415
  ⟨0x2204, 32, 16, .rw, 0, 0xFFFFFFFF, 0, 0, []⟩, -- RXF+0x04 R415
  ⟨0x2208, 32, 16, .rw, 0, 0xFFFF, 0, 0, []⟩, -- RXF+0x08 R415
  ⟨0x220C, 32, 16, .rw, 0, 0xFFFFFFFF, 0, 0, []⟩, -- RXF+0x0C R415
  ⟨0x2210, 32, 16, .rw, 0, 0xFFFFFFFF, 0, 0, []⟩, -- RXF+0x10 R415
  ⟨0x2214, 32, 16, .rw, 0, 0xFFFFFFFF, 0, 0, []⟩, -- RXF+0x14 R415
  ⟨0x2218, 32, 16, .rw, 0, 0xFFFFFFFF, 0, 0, []⟩, -- RXF+0x18 R415
  ⟨0x221C, 32, 16, .ro, 0, 0xFFFFFFFF, 0, 0, []⟩] -- RXF+0x1C R415

/-- Registers of a EP block. -/
def regsEP : List RegRow := [
  ⟨0x200, 4, 1, .rw, 0, 0xC000007F, 0, 0, [(6, 0, 1, 64)]⟩, -- QBV_CTL R416
  ⟨0x204, 4, 1, .rw, 0, 0x3FFFFFFF, 0, 0, [(29, 0, 1000, 1000000000)]⟩, -- QBV_CYCLE R416
  ⟨0x208, 4, 1, .rw, 0, 0xFFFFFFFF, 0, 0, []⟩, -- QBV_BASE_NS R416
  ⟨0x20C, 4, 1, .rw, 0, 0xFFFFFFFF, 0, 0, []⟩, -- QBV_BASE_S R416
  ⟨0x210, 4, 1, .ro, 0, 0x8000007F, 0, 0, []⟩, -- QBV_STATUS R416
  ⟨0x214, 4, 1, .rc, 0, 0xFFFFFFFF, 0, 0, []⟩, -- QBV_OVERRUN R416
  ⟨0x300, 4, 64, .rw, 0, 0xFFFFFFFF, 0, 0, []⟩, -- QBV_ENTRY0–63 R416
  ⟨0x100, 4, 1, .rw, 0, 0xFF000000, 0, 0, []⟩, -- EP_CFG R481
  ⟨0x104, 4, 1, .ro, 0, 0xF0000000, 0, 0, []⟩, -- EP_STATUS R481
  ⟨0x108, 4, 1, .rw, 0, 0xFFFFFFFF, 0, 0, []⟩, -- EP_MAC_LO R481
  ⟨0x10C, 4, 1, .rw, 0, 0xFFFF, 0, 0, []⟩, -- EP_MAC_HI R481
  ⟨0x110, 4, 1, .rw, 0, 0xFFFF, 0, 0, []⟩, -- TX_LAT R481
  ⟨0x114, 4, 1, .rw, 0, 0xFFFF, 0, 0, []⟩, -- RX_LAT R481
  ⟨0x118, 4, 1, .ro, 0, 0x80000FFF, 0, 0, []⟩, -- GEN_CLIENT R481
  ⟨0x11C, 4, 1, .rc, 0, 0xFFFFFFFF, 0, 0, []⟩, -- EP_RX_FRAMES R481
  ⟨0x120, 4, 1, .rc, 0, 0xFFFFFFFF, 0, 0, []⟩, -- EP_TX_FRAMES R481
  ⟨0x124, 4, 1, .rc, 0, 0xFFFFFFFF, 0, 0, []⟩] -- EP_RX_ERR R481

/-- Registers of a Warden block. -/
def regsWarden : List RegRow := [
  ⟨0x200, 4, 1, .ro, 0x10000000, 0xFFFFFFFF, 0, 0, []⟩, -- WD_STATUS R458
  ⟨0x204, 4, 1, .wo, 0, 7, 0, 0, []⟩, -- WD_CMD R458
  ⟨0x208, 4, 1, .ro, 0, 0xFFFC1FFF, 0, 0, []⟩, -- WD_CAUSE R458
  ⟨0x20C, 4, 1, .rw, 0x20403E8, 0xFFFFFFFF, 0, 0, [(31, 24, 1, 255), (23, 16, 1, 255), (15, 0, 1, 60000)]⟩, -- WD_CFG R458
  ⟨0x210, 4, 1, .rw, 0, 0xFF8003FF, 0, 0, []⟩, -- GATE_CFG R458
  ⟨0x214, 4, 1, .rw, 0, 0xFFFFFFC0, 0, 0, []⟩, -- GATE_ADDR_LO R458
  ⟨0x218, 4, 1, .rw, 0, 0xFFFF, 0, 0, []⟩, -- GATE_ADDR_HI R458
  ⟨0x21C, 4, 1, .rw, 0, 0xFFFFFFFF, 0, 0, []⟩, -- GATE_MARKS R458
  ⟨0x220, 4, 1, .rw, 0x6D60, 0xFFFFFFFF, 0, 0, [(31, 0, 1000, 1000000)]⟩, -- GATE_DEADLINE R458
  ⟨0x224, 4, 1, .rw, 0x4B0, 0xFFFF, 0, 0, [(15, 0, 1000, 4000)]⟩, -- HB_CFG R458
  ⟨0x228, 4, 1, .ro, 0, 0xFFFFFFFF, 0, 0, []⟩, -- HB_LAST R458
  ⟨0x22C, 4, 1, .rw, 0, 0x1FFFFF, 0, 0, []⟩, -- PRESS_WATCH R458
  ⟨0x230, 4, 1, .rw, 0x80000003, 0x800000FF, 0, 0, [(7, 0, 1, 255)]⟩, -- ST_CFG R458
  ⟨0x234, 4, 1, .ro, 0, 0xFFFF00FF, 0, 0, []⟩, -- ST_DEBT R458
  ⟨0x238, 4, 1, .rc, 0, 0xFFFFFFFF, 0, 0, []⟩, -- WD_FAILS R458
  ⟨0x23C, 4, 1, .rc, 0, 0xFFFFFFFF, 0, 0, []⟩, -- WD_TAKEOVERS R458
  ⟨0x240, 4, 1, .rw, 0, 0x80000000, 0, 0, []⟩, -- FW_CTL R458
  ⟨0x244, 4, 1, .ro, 0, 0xFFF0001F, 0, 0, []⟩, -- FW_VIOL_LAST R458
  ⟨0x248, 4, 1, .rc, 0, 0xFFFFFFFF, 0, 0, []⟩, -- FW_VIOL R458
  ⟨0x24C, 4, 1, .rw, 0, 0xFFF, 0, 0, []⟩, -- WD_CLIENT R458
  ⟨0x250, 4, 1, .rw, 0x180, 0x3FF003FF, 0, 0, []⟩, -- RETURN_IDS R458
  ⟨0x254, 4, 1, .ro, 5, 0xF, 0, 0, []⟩, -- PIN_STATE R458
  ⟨0x304, 4, 24, .rw, 0, 0xE0FFFFFF, 0xFFFF, 0, []⟩, -- WD_CHECK1–24 R458
  ⟨0x400, 32, 16, .rw, 0, 0xFFFFFFC0, 0, 0, []⟩, -- CMP+0x00 R431
  ⟨0x404, 32, 16, .rw, 0, 0x8007FFFF, 0, 0, []⟩, -- CMP+0x04 R431
  ⟨0x408, 32, 16, .rw, 0, 0xFFFFFFFF, 0, 0, []⟩, -- CMP+0x08 R431
  ⟨0x40C, 32, 16, .rw, 0, 0xFFFF, 0, 0, []⟩, -- CMP+0x0C R431
  ⟨0x410, 32, 16, .rw, 0, 0xFFFFFFFF, 0, 0, [(31, 0, 0, 1000000000)]⟩, -- CMP+0x10 R431
  ⟨0x414, 32, 16, .ro, 0, 0xFFFFFFFF, 0, 0, []⟩, -- CMP+0x14 R431
  ⟨0x418, 32, 16, .ro, 0, 0xFFFFFFFF, 0, 0, []⟩, -- CMP+0x18 R431
  ⟨0x600, 64, 8, .rw, 0, 0x800FFFFF, 0, 0, []⟩, -- STARTER+0x00 R434
  ⟨0x604, 64, 8, .rw, 0, 0xFFFFFFFF, 0, 0, []⟩, -- STARTER+0x04 R434
  ⟨0x608, 64, 8, .rw, 0, 0xFFFF, 0, 0, []⟩, -- STARTER+0x08 R434
  ⟨0x60C, 64, 8, .rw, 0, 0xFFFFFFFF, 0, 0, []⟩, -- STARTER+0x0C R434
  ⟨0x610, 64, 8, .rw, 0x400000, 0xFFFFFFFF, 0, 0, [(31, 16, 1, 65535)]⟩, -- STARTER+0x10 R434
  ⟨0x614, 64, 8, .rw, 0, 0xFFFFFFFF, 0, 0, []⟩, -- STARTER+0x14 R434
  ⟨0x618, 64, 8, .rw, 0, 0xFFFF, 0, 0, []⟩, -- STARTER+0x18 R434
  ⟨0x61C, 64, 8, .ro, 0, 0xFFFFFFFF, 0, 0, []⟩, -- STARTER+0x1C R434
  ⟨0x620, 64, 8, .rw, 0, 0xFFFFFFFF, 0, 0, []⟩, -- STARTER+0x20 R434
  ⟨0x624, 64, 8, .rw, 0, 0xFFFFFFFF, 0, 0, []⟩, -- STARTER+0x24 R434
  ⟨0x628, 64, 8, .rw, 0, 0xFFFFFFFF, 0, 0, []⟩, -- STARTER+0x28 R434
  ⟨0x62C, 64, 8, .rw, 0, 0xFFFFFFFF, 0, 0, []⟩, -- STARTER+0x2C R434
  ⟨0x630, 64, 8, .rw, 0, 0xFFFFFFFF, 0, 0, []⟩, -- STARTER+0x30 R434
  ⟨0x634, 64, 8, .rw, 0, 0xFFFFFFFF, 0, 0, []⟩, -- STARTER+0x34 R434
  ⟨0x638, 64, 8, .rw, 0, 0xFFFFFFFF, 0, 0, []⟩, -- STARTER+0x38 R434
  ⟨0x63C, 64, 8, .rw, 0, 0xFFFFFFFF, 0, 0, []⟩, -- STARTER+0x3C R434
  ⟨0x800, 16, 16, .ro, 0, 0xF000FFFF, 0, 0, []⟩, -- TASK+0x0 R451
  ⟨0x804, 16, 16, .ro, 0, 0xFFFFFFFF, 0, 0, []⟩, -- TASK+0x4 R451
  ⟨0x808, 16, 16, .ro, 0, 0xFFFFFFFF, 0, 0, []⟩, -- TASK+0x8 R451
  ⟨0x900, 16, 16, .rw, 0, 0x800FFFFF, 0, 0, []⟩, -- WINDOW+0x0 R453
  ⟨0x904, 16, 16, .rw, 0, 0xFFFFFFFF, 0, 0, [(31, 0, 0, 1000000000)]⟩, -- WINDOW+0x4 R453
  ⟨0x908, 16, 16, .rw, 0, 0xFFFFFFFF, 0, 0, []⟩, -- WINDOW+0x8 R453
  ⟨0x90C, 16, 16, .rw, 0, 0xFFFFFFFF, 0, 0, []⟩, -- WINDOW+0xC R453
  ⟨0xA00, 16, 32, .rw, 0, 0xFFFFF001, 0, 0, []⟩, -- FW+0x0 R449
  ⟨0xA04, 16, 32, .rw, 0, 0xFFFF, 0, 0, []⟩, -- FW+0x4 R449
  ⟨0xA08, 16, 32, .rw, 0, 0xFFFFF, 0, 0, []⟩, -- FW+0x8 R449
  ⟨0xA0C, 16, 32, .rw, 0, 0xFFF003FF, 0, 0, []⟩, -- FW+0xC R449
  ⟨0x4000, 16, 1024, .rw, 0, 0xFFFFFFFF, 0, 0, []⟩, -- ENV+0x0 R428
  ⟨0x4004, 16, 1024, .rw, 0, 0xFFFFFFFF, 0, 0, []⟩, -- ENV+0x4 R428
  ⟨0x4008, 16, 1024, .rw, 0, 0xFFFFFFFF, 0, 0, []⟩, -- ENV+0x8 R428
  ⟨0x400C, 16, 1024, .rw, 0, 0xE7000000, 0, 0, []⟩] -- ENV+0xC R428

/-- Registers of a Gauge block. -/
def regsGauge : List RegRow := [
  ⟨0x100, 4, 1, .ro, 0, 0xF000FFFF, 0, 0, []⟩, -- GAUGE_STATUS R480
  ⟨0x104, 4, 1, .ro, 0, 0x3FFFFFFF, 0, 0, []⟩, -- TIME_NS R480
  ⟨0x108, 4, 1, .ro, 0, 0xFFFFFFFF, 0, 0, []⟩, -- TIME_S_LO R480
  ⟨0x10C, 4, 1, .ro, 0, 0xFFFFFFFF, 0, 0, []⟩, -- TIME_S_HI R480
  ⟨0x110, 4, 1, .rw, 0x20000000, 0xFFFFFFFF, 0, 0, [(31, 0, 535822336, 537919488)]⟩, -- INCR R480
  ⟨0x114, 4, 1, .rw, 0, 0xFFFFFFFF, 0, 0, []⟩, -- ADJ_NS R480
  ⟨0x118, 4, 1, .wo, 0, 0xE0000000, 0, 0, []⟩, -- ADJ_CTL R480
  ⟨0x11C, 4, 1, .ro, 0, 0xFFFFFFFF, 0, 0, []⟩, -- ADJ_LEFT R480
  ⟨0x120, 4, 1, .rw, 0, 0x3FFFFFFF, 0, 0, [(29, 0, 0, 999999999)]⟩, -- SET_NS R480
  ⟨0x124, 4, 1, .rw, 0, 0xFFFFFFFF, 0, 0, []⟩, -- SET_S_LO R480
  ⟨0x128, 4, 1, .rw, 0, 0xFFFF, 0, 0, []⟩, -- SET_S_HI R480
  ⟨0x12C, 4, 1, .wo, 0, 0xC0000000, 0, 0, []⟩, -- SET_CTL R480
  ⟨0x130, 4, 1, .rc, 0, 0xFFFFFFFF, 0, 0, []⟩, -- GAUGE_STEPS R480
  ⟨0x134, 4, 1, .rw, 0, 0xFFF, 0, 0, []⟩, -- GAUGE_CLIENT R480
  ⟨0x138, 4, 1, .wo, 0, 0xFC00000F, 0, 0, []⟩, -- GAUGE_CLAIM R480
  ⟨0x300, 8, 8, .rw, 0, 0xC000000F, 0xF, 0, []⟩, -- PULSE_CFGn R480
  ⟨0x304, 8, 8, .rw, 8, 0x3FFFFFFF, 0, 0, [(29, 0, 8, 1000000000)]⟩, -- PULSE_WIDTHn R480
  ⟨0x400, 32, 16, .rw, 0, 0xFE000000, 0x7C000000, 0, []⟩, -- CMP_CFGn R480
  ⟨0x404, 32, 16, .rw, 0, 0x3FFFFFFF, 0, 0, [(29, 0, 0, 999999999)]⟩, -- CMP_TGT_NSn R480
  ⟨0x408, 32, 16, .rw, 0, 0xFFFFFFFF, 0, 0, []⟩, -- CMP_TGT_S_LOn R480
  ⟨0x40C, 32, 16, .rw, 0, 0xFFFF, 0, 0, []⟩, -- CMP_TGT_S_HIn R480
  ⟨0x410, 32, 16, .rw, 0, 0xFFFFFFFF, 0, 0, []⟩, -- CMP_PERIODn R480
  ⟨0x414, 32, 16, .rc, 0, 0xFFFFFFFF, 0, 0, []⟩, -- CMP_FIRESn R480
  ⟨0x418, 32, 16, .rc, 0, 0xFFFFFFFF, 0, 0, []⟩, -- CMP_LATEn R480
  ⟨0x600, 32, 8, .rw, 0, 0xFC001F0F, 0, 0, []⟩, -- CAP_CFGn R480
  ⟨0x604, 32, 8, .rc, 0, 0xBFFFFFFF, 0, 0, []⟩, -- CAP_NSn R480
  ⟨0x608, 32, 8, .ro, 0, 0xFFFFFFFF, 0, 0, []⟩, -- CAP_S_LOn R480
  ⟨0x60C, 32, 8, .ro, 0, 0xFFFFFFFF, 0, 0, []⟩, -- CAP_S_HIn R480
  ⟨0x610, 32, 8, .ro, 0, 0x1F, 0, 0, []⟩, -- CAP_LEVELn R480
  ⟨0x614, 32, 8, .rc, 0, 0xFFFFFFFF, 0, 0, []⟩] -- CAP_OVERFLOWn R480

/-- Registers of a CN block. -/
def regsCN : List RegRow := [
  ⟨0x100, 4, 1, .rw, 0, 0xF0000000, 0, 0, []⟩, -- CN_CTL R482
  ⟨0x104, 4, 1, .rw, 0, 0xFFFFFC1F, 0, 0, []⟩, -- CN_NBT R482
  ⟨0x108, 4, 1, .rw, 0, 0xFFFFF01F, 0, 0, []⟩, -- CN_DBT R482
  ⟨0x10C, 4, 1, .ro, 0, 0xFFFFFF00, 0, 0, []⟩, -- CN_STATUS R482
  ⟨0x110, 4, 1, .wo, 0, 0xE00001FF, 0, 0, []⟩, -- CN_CMD R482
  ⟨0x114, 4, 1, .rc, 0, 0xFFFFFFFF, 0, 0, []⟩, -- CN_RX_COUNT R482
  ⟨0x118, 4, 1, .rc, 0, 0xFFFFFFFF, 0, 0, []⟩, -- CN_TX_COUNT R482
  ⟨0x11C, 4, 1, .rc, 0, 0xFFFFFFFF, 0, 0, []⟩, -- CN_NOMATCH R482
  ⟨0x120, 4, 1, .rc, 0, 0xFFFFFFFF, 0, 0, []⟩, -- CN_LOST R482
  ⟨0x124, 4, 1, .rc, 0, 0xFFFFFFFF, 0, 0, []⟩, -- CN_ERR R482
  ⟨0x128, 4, 1, .rc, 0, 0xFFFFFFFF, 0, 0, []⟩, -- CN_TX_LATE R482
  ⟨0x12C, 4, 1, .rw, 0x64, 0xFFFF, 0, 0, [(15, 0, 1, 65535)]⟩, -- CN_TX_LATE_US R482
  ⟨0x130, 4, 1, .ro, 0, 0x8000000F, 0, 0, []⟩, -- CN_COMP R482
  ⟨0x134, 4, 1, .rc, 0, 0xFFFFFFFF, 0, 0, []⟩, -- CN_RTR R482
  ⟨0x138, 4, 1, .rw, 0, 0xFFF, 0, 0, []⟩, -- CN_CLIENT R482
  ⟨0x1000, 16, 512, .rw, 0, 0xFFFFFFFF, 0, 0, []⟩, -- OBJ_ID R482
  ⟨0x1004, 16, 512, .rw, 0, 0xFFCFFFFF, 0x21800000, 0xC0000000, []⟩, -- OBJ_CTL R482
  ⟨0x1008, 16, 512, .rw, 0, 0x3FFFFFFF, 0, 0, []⟩, -- OBJ_TIME_NS R482
  ⟨0x100C, 16, 512, .ro, 0, 0xFFFF, 0, 0, []⟩, -- OBJ_FRAMES R482
  ⟨0x4000, 4, 8192, .rw, 0, 0xFFFFFFFF, 0, 0, []⟩] -- OBJ_DATA R482

/-- Registers of a VfPage block. -/
def regsVfPage : List RegRow := [
  ⟨0x400, 4, 1, .wo, 0, 0xFFFFF, 0, 0, []⟩, -- VF_DOORBELL R488
  ⟨0x404, 4, 1, .ro, 0, 0xC00000FF, 0, 0, []⟩, -- VF_STATUS R488
  ⟨0x408, 4, 1, .rc, 0, 0xFFFFFFFF, 0, 0, []⟩, -- VF_DENIED R488
  ⟨0x1000, 16, 128, .rw, 0, 0xFFFFFFFC, 0, 0, []⟩, -- VF_MSIX+0 R488
  ⟨0x1004, 16, 128, .rw, 0, 0xFFFFFFFF, 0, 0, []⟩, -- VF_MSIX+4 R488
  ⟨0x1008, 16, 128, .rw, 0, 0xFFFFFFFF, 0, 0, []⟩, -- VF_MSIX+8 R488
  ⟨0x100C, 16, 128, .rw, 1, 1, 0, 0, []⟩, -- VF_MSIX+12 R488
  ⟨0x1800, 4, 4, .ro, 0, 0xFFFFFFFF, 0, 0, []⟩] -- VF_PBA R488

/-- Registers of a SdioF1 block. -/
def regsSdioF1 : List RegRow := [
  ⟨0, 4, 1, .wo, 0, 0xFFFFFFFF, 0, 0, []⟩, -- HB_WORD R499
  ⟨4, 4, 1, .ro, 0, 0xFFFFFFFF, 0, 0, []⟩, -- HB_REPLY R499
  ⟨8, 4, 1, .wo, 0, 0xFFFFFFFF, 0, 0, []⟩, -- SUP_CMD R499
  ⟨0xC, 4, 1, .ro, 0x10000000, 0xFFFFFFFF, 0, 0, []⟩, -- WD_MIRROR R499
  ⟨0x10, 4, 1, .ro, 5, 0xFFFFFFFF, 0, 0, []⟩, -- PIN_MIRROR R499
  ⟨0x14, 4, 1, .ro, 0, 0xFFFFFFFF, 0, 0, []⟩, -- HB_MIRROR R499
  ⟨0x18, 4, 1, .rw, 0, 0xFFFF000F, 0, 0xF, []⟩, -- SUP_INT R499
  ⟨0x1C, 4, 1, .rw, 0, 0x3F, 0, 0, []⟩, -- MIR_HEAD R499
  ⟨0x20, 4, 1, .ro, 0, 0x3F, 0, 0, []⟩, -- MIR_TAIL R499
  ⟨0x24, 4, 1, .rc, 0, 0xFFFFFFFF, 0, 0, []⟩, -- SUP_BAD R499
  ⟨0x28, 4, 1, .rc, 0, 0xFFFFFFFF, 0, 0, []⟩, -- MIR_LOST R499
  ⟨0x1000, 4, 512, .ro, 0, 0xFFFFFFFF, 0, 0, []⟩] -- MIRROR R499

/-- Registers of a Chan block. -/
def regsChan : List RegRow := [
  ⟨0, 4, 1, .wo, 0, 0x80FFFFFF, 0, 0, []⟩, -- MB_CALL R501
  ⟨4, 4, 1, .ro, 0, 0xE0FFFFFF, 0, 0, []⟩, -- MB_STATUS R501
  ⟨8, 4, 1, .rw, 0, 0xFFFFFFC0, 0, 0, []⟩, -- MB_BUF_LO R501
  ⟨0xC, 4, 1, .rw, 0, 0xFFFF, 0, 0, []⟩, -- MB_BUF_HI R501
  ⟨0x10, 4, 1, .rw, 0, 0x1FFFFF, 0, 0, [(20, 0, 0, 1048576)]⟩, -- MB_BUF_LEN R501
  ⟨0x14, 4, 1, .rc, 0, 0x80FFFFFF, 0, 0, []⟩, -- MB_DONE R501
  ⟨0x18, 4, 1, .ro, 0, 0xFFFF, 0, 0, []⟩, -- MB_DONE_CALL R501
  ⟨0x1C, 4, 1, .rw, 0, 0x87FF0007, 0, 0, []⟩, -- MB_INT R501
  ⟨0x40, 4, 16, .rw, 0, 0xFFFFFFFF, 0, 0, []⟩, -- MB_ARG0–15 R501
  ⟨0x80, 4, 16, .ro, 0, 0xFFFFFFFF, 0, 0, []⟩] -- MB_RES0–15 R501

/-- Registers of a Pcie block. -/
def regsPcie : List RegRow := [
  ⟨0x100, 4, 1, .ro, 0, 0xFFFF003F, 0, 0, []⟩, -- PCIE_STATUS R504
  ⟨0x104, 4, 1, .rw, 0xD8000000, 0xFF000000, 0, 0, [(30, 28, 1, 5)]⟩, -- PCIE_CFG R504
  ⟨0x108, 4, 1, .rw, 0, 0x7F, 0, 0, []⟩, -- LW_BASE R504
  ⟨0x10C, 4, 1, .rc, 0, 0xFFFFFFFF, 0, 0, []⟩, -- PCIE_CE R504
  ⟨0x110, 4, 1, .rc, 0, 0xFFFFFFFF, 0, 0, []⟩, -- PCIE_UE R504
  ⟨0x114, 4, 1, .rc, 0, 0xFFFF, 0, 0, []⟩, -- PCIE_DOWN R504
  ⟨0x118, 4, 1, .rc, 0, 0xFFFFFFFF, 0, 0, []⟩, -- PCIE_UR R504
  ⟨0x200, 8, 32, .rw, 0, 0x7FF00FF, 0, 0, [(7, 0, 0, 128)]⟩, -- VF_VECn R504
  ⟨0x204, 8, 32, .ro, 0, 0xE0000000, 0, 0, []⟩, -- VF_STATEn R504
  ⟨0x400, 4, 64, .ro, 0, 0xFFFFFFFF, 0, 0, []⟩, -- PF_PBA R504
  ⟨0x8000, 16, 2048, .rw, 0, 0xFFFFFFFC, 0, 0, []⟩, -- PF_MSIX+0 R489
  ⟨0x8004, 16, 2048, .rw, 0, 0xFFFFFFFF, 0, 0, []⟩, -- PF_MSIX+4 R489
  ⟨0x8008, 16, 2048, .rw, 0, 0xFFFFFFFF, 0, 0, []⟩, -- PF_MSIX+8 R489
  ⟨0x800C, 16, 2048, .rw, 1, 1, 0, 0, []⟩] -- PF_MSIX+12 R489

/-- Registers of a Sdio block. -/
def regsSdio : List RegRow := [
  ⟨0x100, 4, 1, .ro, 0, 0xFE000000, 0, 0, []⟩, -- SDIO_STATUS R505
  ⟨0x104, 4, 1, .rc, 0, 0xFFFFFFFF, 0, 0, []⟩, -- SDIO_CRC R505
  ⟨0x108, 4, 1, .rc, 0, 0xFFFF, 0, 0, []⟩] -- SDIO_RESETS R505

/-- Registers of a Xlate block. -/
def regsXlate : List RegRow := [
  ⟨0x100, 4, 1, .rw, 0, 0xFFF, 0, 0, []⟩, -- XL_CTX_SEL R506
  ⟨0x104, 4, 1, .rw, 0, 0xFFFFE001, 0, 0, []⟩, -- XL_ROOT_HOST_LO R506
  ⟨0x108, 4, 1, .rw, 0, 0xFFFF, 0, 0, []⟩, -- XL_ROOT_HOST_HI R506
  ⟨0x10C, 4, 1, .rw, 0, 0xFFFFE001, 0, 0, []⟩, -- XL_ROOT_MEM_LO R506
  ⟨0x110, 4, 1, .rw, 0, 0xFFFF, 0, 0, []⟩, -- XL_ROOT_MEM_HI R506
  ⟨0x114, 4, 1, .rw, 0, 0x3F, 0, 0, [(5, 0, 0, 32)]⟩, -- XL_FUNC R506
  ⟨0x118, 4, 1, .wo, 0, 0xE0000FFF, 0, 0, []⟩, -- XL_INVAL R506
  ⟨0x11C, 4, 1, .rw, 0, 0xFFFFFFF, 0, 0, []⟩, -- XL_INVAL_BASE R506
  ⟨0x120, 4, 1, .rw, 0, 0xFFFFFFFF, 0, 0, []⟩, -- XL_INVAL_PAGES R506
  ⟨0x124, 4, 1, .ro, 0, 0x80000000, 0, 0, []⟩, -- XL_INVAL_STATUS R506
  ⟨0x128, 4, 1, .ro, 0, 0xFCFFF000, 0, 0, []⟩, -- XL_FAULT_LAST R506
  ⟨0x12C, 4, 1, .ro, 0, 0xFFFFFFFF, 0, 0, []⟩, -- XL_FAULT_ADDR_LO R506
  ⟨0x130, 4, 1, .ro, 0, 0xFF, 0, 0, []⟩, -- XL_FAULT_ADDR_HI R506
  ⟨0x134, 4, 1, .rc, 0, 0xFFFFFFFF, 0, 0, []⟩, -- XL_FAULTS R506
  ⟨0x138, 4, 1, .rc, 0, 0xFFFFFFFF, 0, 0, []⟩] -- XL_TLB_MISS R506

/-- Registers of a Pwr block. -/
def regsPwr : List RegRow := [
  ⟨0x100, 4, 1, .ro, 0x400000, 0xFFFF0000, 0, 0, []⟩, -- PWR_STATUS R525
  ⟨0x104, 4, 1, .wo, 0, 7, 0, 0, []⟩, -- PWR_CMD R525
  ⟨0x108, 4, 1, .ro, 0, 0xFF001FFF, 0, 0, []⟩, -- PWR_REFUSE R525
  ⟨0x10C, 4, 1, .rw, 4, 7, 0, 0, [(2, 0, 0, 5)]⟩, -- VCORE_SET R525
  ⟨0x110, 4, 1, .rw, 0, 0x3FF, 0, 0, []⟩, -- CAP_W R525
  ⟨0x114, 4, 1, .ro, 0, 0xFFFF, 0, 0, []⟩, -- POWER_EST R525
  ⟨0x118, 4, 1, .rc, 0, 0xFFFFFFFF, 0, 0, []⟩, -- CAP_STEPS R525
  ⟨0x11C, 4, 1, .rw, 0xFF, 0x1FF, 0, 0, []⟩, -- WAKE_EN R525
  ⟨0x120, 4, 1, .ro, 0, 0xFF001FFF, 0, 0, []⟩, -- LAST_WAKE R525
  ⟨0x124, 4, 1, .ro, 0, 0xFFFFFFFF, 0, 0, []⟩, -- LAST_WAKE_NS R525
  ⟨0x128, 4, 1, .ro, 0, 0xFFFFFFFF, 0, 0, []⟩, -- LAST_WAKE_S R525
  ⟨0x12C, 4, 1, .rw, 0x64, 0xFFFF, 0, 0, [(15, 0, 1, 65535)]⟩, -- TRIM_IDLE R525
  ⟨0x130, 4, 3, .ro, 0, 0xFFFFFFFF, 0, 0, []⟩, -- DOM_ON0–2 R525
  ⟨0x13C, 4, 1, .rc, 0, 0xFFFFFFFF, 0, 0, []⟩, -- DOM_UPS R525
  ⟨0x140, 4, 1, .ro, 0, 0xFFFFFFFF, 0, 0, []⟩, -- ENTRY_NS R525
  ⟨0x144, 4, 1, .ro, 0, 0xFFFFFFFF, 0, 0, []⟩, -- EXIT_NS R525
  ⟨0x148, 4, 1, .rc, 0, 0xFFFFFFFF, 0, 0, []⟩, -- RATE_ALARMS R525
  ⟨0x14C, 4, 1, .rc, 0, 0xFFFFFFFF, 0, 0, []⟩] -- WAKE_IN_ENTRY R525

/-- Registers of a Trust block. -/
def regsTrust : List RegRow := [
  ⟨0x100, 4, 1, .ro, 0, 0xFCFC0000, 0, 0, []⟩, -- TRUST_STATUS R552
  ⟨0x104, 4, 1, .ro, 0, 0xFFFFFFFF, 0, 0, []⟩, -- BOOT_STATUS R552
  ⟨0x108, 4, 1, .ro, 0, 0xFFFFFFFF, 0, 0, []⟩, -- BOOT_TIME_US R552
  ⟨0x10C, 4, 1, .ro, 0, 0xFFFFFFFF, 0, 0, []⟩, -- SVN_LO R552
  ⟨0x110, 4, 1, .ro, 0, 0xFFFFFF, 0, 0, []⟩, -- SVN_HI R552
  ⟨0x114, 4, 1, .ro, 0, 0xFFFFFFFF, 0, 0, []⟩, -- UPD_STATUS R552
  ⟨0x118, 4, 1, .rc, 0, 0xFFFFFFFF, 0, 0, []⟩, -- UPD_COUNT R552
  ⟨0x11C, 4, 1, .rc, 0, 0xFFFFFFFF, 0, 0, []⟩, -- VERIFY_FAILS R552
  ⟨0x120, 4, 1, .ro, 0, 0xC000FFFF, 0, 0, []⟩, -- CAL_STATUS R552
  ⟨0x124, 4, 1, .ro, 0, 0xF000FFFF, 0, 0, []⟩, -- FLASH_STATUS R552
  ⟨0x128, 4, 1, .ro, 0, 0xFFFFFFFF, 0, 0, []⟩, -- FLASH_GEN R552
  ⟨0x12C, 4, 1, .rc, 0, 0xFFFFFFFF, 0, 0, []⟩, -- FLASH_ERRORS R552
  ⟨0x130, 4, 1, .rc, 0, 0xFFFF, 0, 0, []⟩] -- OTP_CE R552

/-- Registers of a Fault block. -/
def regsFault : List RegRow := [
  ⟨0x100, 4, 1, .ro, 0, 0xC00001FF, 0, 0, []⟩, -- FLT_STATUS R575
  ⟨0x104, 4, 1, .rw, 0x80000400, 0x8000FF00, 0, 0, [(15, 8, 1, 255)]⟩, -- FLT_CFG R575
  ⟨0x108, 4, 1, .rw, 0, 0xFFF, 0, 0, []⟩, -- FLT_CLIENT R575
  ⟨0x10C, 4, 1, .ro, 0, 0xFFFFFFFF, 0, 0, []⟩, -- FLT_NEXT R575
  ⟨0x110, 4, 1, .rw, 0, 0xFFFFFFFF, 0, 0, []⟩, -- FLT_ACK R575
  ⟨0x114, 4, 1, .rw, 0, 0xFFFFFFFF, 0, 0, []⟩, -- FLT_SEL R575
  ⟨0x118, 4, 1, .rc, 0, 0xFFFFFFFF, 0, 0, []⟩, -- FLT_LOST R575
  ⟨0x11C, 4, 1, .rc, 0, 0xFFFFFFFF, 0, 0, []⟩, -- FLT_TRANSIENT R575
  ⟨0x120, 4, 1, .rc, 0, 0xFFFFFFFF, 0, 0, []⟩, -- FLT_LASTING R575
  ⟨0x124, 4, 1, .rc, 0, 0xFFFFFFFF, 0, 0, []⟩, -- FLT_RETRIES R575
  ⟨0x128, 4, 1, .rw, 0, 0x1FFF, 0, 0, []⟩, -- HEALTH_SEL R575
  ⟨0x12C, 4, 1, .ro, 0, 0xC0FFFFFF, 0, 0, []⟩, -- HEALTH R575
  ⟨0x130, 4, 1, .ro, 0, 0x7F0FFFF, 0, 0, []⟩, -- TEMP_MAX R575
  ⟨0x134, 4, 1, .ro, 0, 0x7F, 0, 0, []⟩, -- RAIL_STATUS R575
  ⟨0x138, 4, 1, .rc, 0, 0xFFFFFFFF, 0, 0, []⟩, -- LP_CE R575
  ⟨0x13C, 4, 1, .rc, 0, 0xFFFFFFFF, 0, 0, []⟩, -- LP_UE R575
  ⟨0x140, 4, 16, .ro, 0, 0xFFFFFFFF, 0, 0, []⟩] -- FLT_WORD0–15 R575

/-- Registers of a Loop block. -/
def regsLoop : List RegRow := [
  ⟨0, 4, 1, .rw, 0, 0xFFFFFFFF, 0xC0000000, 0, [(15, 8, 0, 79)]⟩, -- LOOP_WORD0 R412
  ⟨4, 4, 1, .rw, 0, 0x800FFFFF, 0, 0, []⟩, -- LOOP_WORD1 R412
  ⟨8, 4, 1, .rw, 0, 0xFFFFFFFF, 0, 0, []⟩, -- LOOP_WORD2 R412
  ⟨0xC, 4, 1, .rw, 0, 0xFF00FFFF, 0, 0, []⟩, -- LOOP_WORD3 R412
  ⟨0x10, 4, 1, .rw, 0, 0xE0FFFFFF, 0xFFFFFF, 0xE0000000, []⟩, -- LOOP_WORD4 R412
  ⟨0x14, 4, 1, .ro, 0, 0xFFFFFFFF, 0, 0, []⟩, -- LOOP_WORD5 R412
  ⟨0x18, 4, 1, .ro, 0, 0xFFFFFFFF, 0, 0, []⟩, -- LOOP_WORD6 R412
  ⟨0x1C, 4, 1, .ro, 0, 0xFFFFFFFF, 0, 0, []⟩, -- LOOP_WORD7 R412
  ⟨0x20, 4, 1, .ro, 0, 0xFFFFFFFF, 0, 0, []⟩, -- LOOP_WORD8 R412
  ⟨0x28, 4, 1, .ro, 0, 0xFFFFFFFF, 0, 0, []⟩, -- LOOP_WORD10 R412
  ⟨0x2C, 4, 1, .ro, 0, 0xFFFFFFFF, 0, 0, []⟩, -- LOOP_WORD11 R412
  ⟨0x24, 4, 1, .rc, 0, 0xFFFFFFFF, 0, 0, []⟩] -- LOOP_WORD9 R412

/-- Registers of a Client block. -/
def regsClient : List RegRow := [
  ⟨0, 4, 1, .rw, 0, 0xFFFF, 0, 0, []⟩, -- CLIENT_WORD0 R252
  ⟨4, 4, 1, .rw, 0, 0x83FF03FF, 0, 0, []⟩, -- CLIENT_WORD1 R252
  ⟨8, 4, 1, .rw, 0, 0xFFFFFFFF, 0, 0, []⟩, -- CLIENT_WORD2 R252
  ⟨0xC, 4, 1, .rw, 0, 0x1FFFFF, 0, 0, []⟩, -- CLIENT_WORD3 R252
  ⟨0x10, 4, 1, .rw, 0, 0xC00007FF, 0, 0, []⟩, -- CLIENT_WORD4 R252
  ⟨0x14, 4, 1, .rw, 0, 0xFFFFFFFF, 0, 0, []⟩, -- CLIENT_WORD5 R252
  ⟨0x18, 4, 1, .rw, 0, 0xFFFFFFFF, 0xFFFF0000, 0, []⟩, -- CLIENT_WORD6 R252
  ⟨0x1C, 4, 1, .rw, 0, 0xFFFF, 0xFFFF, 0, []⟩, -- CLIENT_WORD7 R252
  ⟨0x20, 4, 1, .ro, 0, 0xFFFFFFFF, 0, 0, []⟩, -- CLIENT_WORD8 R252
  ⟨0x24, 4, 1, .ro, 0, 0xFFFFFFFF, 0, 0, []⟩, -- CLIENT_WORD9 R252
  ⟨0x28, 4, 1, .ro, 0, 0xFFFFFFFF, 0, 0, []⟩, -- CLIENT_WORD10 R252
  ⟨0x2C, 4, 1, .ro, 0, 0xFFFFFFFF, 0, 0, []⟩, -- CLIENT_WORD11 R252
  ⟨0x30, 4, 1, .ro, 0, 0xFFFFFFFF, 0, 0, []⟩, -- CLIENT_WORD12 R252
  ⟨0x34, 4, 1, .ro, 0, 0xFFFFFFFF, 0, 0, []⟩, -- CLIENT_WORD13 R252
  ⟨0x38, 4, 1, .ro, 0, 0xFFFFFFFF, 0, 0, []⟩, -- CLIENT_WORD14 R252
  ⟨0x3C, 4, 1, .ro, 0, 0xFFFFFFFF, 0, 0, []⟩] -- CLIENT_WORD15 R252

/-- Registers of a SdioF2 block. -/
def regsSdioF2 : List RegRow := [
  ⟨0x800, 4, 1, .rw, 0, 0xFFFFF000, 0, 0, []⟩, -- WIN_ADDR_LO R500
  ⟨0x804, 4, 1, .rw, 0, 0xFFFF, 0, 0, []⟩] -- WIN_ADDR_HI R500

end Sys2Proof.Machine
end

