-- ==== Sys2Proof/Machine/SMap.lean ====
section
/-! DEFINITION. A sparse map from numbers to values in ONE canonical form: keys strictly rising, and no
entry equal to what an unlisted key reads as. Registers, marks and memory are held this way. -/
namespace Sys2Proof.Machine

/-- What key k reads as: its entry, or the default. -/
def SMap.get {α : Type} (d : Nat → α) (k : Nat) : List (Nat × α) → α
  | [] => d k
  | (k', v) :: t => if k' = k then v else SMap.get d k t

/-- Insert an entry before the first larger key. -/
def SMap.insert {α : Type} (k : Nat) (v : α) : List (Nat × α) → List (Nat × α)
  | [] => [(k, v)]
  | (k', v') :: t => if k < k' then (k, v) :: (k', v') :: t else (k', v') :: SMap.insert k v t

/-- Drop the entry of a key. -/
def SMap.erase {α : Type} (k : Nat) (l : List (Nat × α)) : List (Nat × α) :=
  l.filter fun e => e.1 != k

/-- Write a key; writing what an unlisted key reads as removes the entry. -/
def SMap.set {α : Type} [DecidableEq α] (d : Nat → α) (k : Nat) (v : α) (l : List (Nat × α)) :
    List (Nat × α) :=
  if v = d k then SMap.erase k l else SMap.insert k v (SMap.erase k l)

/-- Keys strictly rise. -/
def SMap.rising {α : Type} : List (Nat × α) → Bool
  | [] => true
  | [_] => true
  | (a, _) :: (b, v) :: t => decide (a < b) && SMap.rising ((b, v) :: t)

/-- The canonical form. -/
def SMap.wf {α : Type} [DecidableEq α] (d : Nat → α) (l : List (Nat × α)) : Bool :=
  SMap.rising l && l.all fun e => decide (e.2 ≠ d e.1)

end Sys2Proof.Machine
end

