-- ==== Sys2Proof/Machine/Regs.lean ====
section
/-! DEFINITION. Where a register lies and what it reads at reset (R12, R30, R33, R39, R594 and the tables). -/
namespace Sys2Proof.Machine

/-- The key of offset off of block u in the register store. -/
def rk (u off : Nat) : Nat := u * 0x10000 + off

/-- The rows of the block (or window) u, unit control block apart. -/
def blockRows (u : Nat) : List RegRow :=
  if u < 0x2000 then
    match unitClass u with
    | some .devctl => regsDevctl | some .pwr => regsPwr | some .gauge => regsGauge
    | some .warden => regsWarden | some .sched => regsSched | some .marks => regsMarks
    | some .xlate => regsXlate | some .trust => regsTrust | some .fault => regsFault
    | some .tc => regsTC | some .tile => regsTile | some .spareTile => regsTile
    | some .ve => regsVE | some .te => regsTE | some .vat => regsVat | some .pp => regsPP
    | some .cl => regsCL | some .dc => regsDC | some .mill => regsMill | some .ax => regsAX
    | some .ep => regsEP | some .cn => regsCN | some .pcie => regsPcie | some .sdio => regsSdio
    | some .bg => if u = 0x110 then regsBG ++ regsBG0 else regsBG
    | some .gang => regsGang | some .ring => regsRing
    | _ => []
  else if u < 0x2100 then regsVfPage
  else if u = wSdioF1 then regsSdioF1
  else if u = wSdioF2 then regsSdioF2
  else if 0x2200 ≤ u && u < 0x2300 then regsChan
  else if 0x3000 ≤ u && u < 0x4000 then regsXlate
  else if 0x4000 ≤ u && u < 0x5000 then regsMarks
  else if 0x5000 ≤ u && u < 0x6000 then regsClient
  else if 0x6000 ≤ u && u < 0x6060 then regsLoop
  else []

/-- The row that offset off falls in. -/
def RegRow.covers (r : RegRow) (off : Nat) : Bool :=
  r.lo ≤ off && (off - r.lo) % r.stride = 0 && (off - r.lo) / r.stride < r.count

/-- The register row at offset off of block u. -/
def findRow (u off : Nat) : Option RegRow := (blockRows u).find? (·.covers off)

/-- The processor whose control block lies at offset off of block u, with the offset in it (R30). -/
def procAt (u off : Nat) : Option (Nat × Nat) :=
  match (List.range 20).find? fun i =>
      let (h, k) := procHost (0x180 + i)
      h = u && 0x100 + 0x40 * k ≤ off && off < 0x140 + 0x40 * k with
  | some i => some (0x180 + i, (off - 0x100) % 0x40)
  | none => none

/-- The key of word k of a unit's control block (R30, R33). -/
def ucbKey (u k : Nat) : Nat :=
  match unitClass u with
  | some c => if isProcessor c then rk (procHost u).1 (0x100 + 0x40 * (procHost u).2 + 4 * k) else rk u (4 * k)
  | none => rk u (4 * k)

/-- UCB_CHILDREN at reset: count, stride, first (R33, R38). -/
def childrenReset (u : Nat) : Nat :=
  match unitClass u with
  | some .tc => 0x09010020 + 16 * (u - 0x10)
  | some .devctl => 0x02010180
  | some .sched => 0x02010182
  | some .mill => 0x0401018A
  | some .warden => 0x0201018E
  | some .pp => if u % 4 = 0 then 0x01010190 + (u - 0xA0) / 4 else 0
  | _ => 0

/-- UCB_MEMBERS at reset: one bit for each member of UCB_CHILDREN. -/
def membersReset (u : Nat) : Nat := 2 ^ (childrenReset u / 0x1000000) - 1

/-- Word k of a unit's control block at reset (R33, R39, R91, R594). -/
def ucbReset (u k : Nat) : Nat :=
  match unitClass u with
  | none => 0
  | some c =>
    if k = 0 then classCode c * 0x1000000 + unitLevel u c * 0x100000 + u
    else if k = 1 then match parentOf u with | some p => 0x80000000 + p | none => 0
    else if k = 2 then if isProcessor c then 2 else 0
    else if k = 4 then classCaps c
    else if k = 5 then match unitDomain u with | some d => 0x80000000 + d | none => 0
    else if k = 6 then match c with | .tile => 0x80000000 + (u - u % 16 + 8) | _ => 0
    else if k = 7 then childrenReset u
    else if k = 8 then membersReset u
    else 0

/-- DC_ROLE at reset (R233, R242): role in 15:13, unit served in 12:0. -/
def dcRoleReset (p : Part) (i : Nat) : Nat :=
  if i < 12 then
    if p.grade1640 && 8 ≤ i then 0b011 * 0x2000 else (i % 2) * 0x2000 + uTC (i / 2)
  else if i < 14 then 0b010 * 0x2000 + uTE (i - 12)
  else 0b011 * 0x2000

/-- The default reactions of checks 1–24: 0 REPORT, 1 HOLD, 2 FALLBACK, 3 SAFE (R424, R426). -/
def checkDefault : List Nat := [1, 1, 1, 0, 2, 1, 2, 0, 2, 2, 0, 0, 3, 1, 2, 1, 3, 3, 3, 0, 0, 0, 3, 3]

/-- The lowest reactions of checks 1–24 (R424). -/
def checkLowest : List Nat := [1, 1, 1, 0, 2, 1, 2, 0, 2, 0, 0, 0, 2, 0, 0, 0, 3, 2, 3, 0, 0, 0, 3, 3]

/-- The domains that are on at reset: those of enabled units (R509, R525). -/
def domOnReset (p : Part) (d : Nat) : Bool :=
  if p.grade1640 then
    !(36 ≤ d && d < 54) && !(d = 58 || d = 59) && d != 63 && d != 67 && d < 80
  else d < 80

/-- Registers whose reset value depends on the unit, the grade or the part (the tables' "Per …" cells). -/
def specialReset (p : Part) (u off : Nat) : Option Nat :=
  match unitClass u with
  | some .tile => if off = 0x104 then some (u % 16) else none
  | some .spareTile => if off = 0x104 then some 0xF else none
  | some .bg =>
    if off = 0x100 then some (if u - 0x110 < 4 then 2 * 0x100 + 42 else 0x100 + 43) else none
  | some .dc => if off = 0x104 then some (dcRoleReset p (u - 0xC0)) else none
  | some .pwr =>
    if off = 0x110 then some (if p.grade1640 then 0x88 else 0xBE)
    else if 0x130 ≤ off && off ≤ 0x138 then
      let w := (off - 0x130) / 4
      some ((List.range 32).foldl (fun a i => a + if domOnReset p (32 * w + i) then 2 ^ i else 0) 0)
    else none
  | some .trust => if off = 0x100 then some 0x80000000 else none
  | some .warden =>
    if 0x304 ≤ off && off ≤ 0x360 then
      some (nth checkDefault ((off - 0x304) / 4) 0 * 0x40000000 + 0x20000000) else none
  | _ => none

/-- What the register at a key reads at reset: the table's value. -/
def regReset (p : Part) (key : Nat) : Word :=
  let u := key / 0x10000
  let off := key % 0x10000
  if off < 0x2C && u < 0x2000 then w32 (ucbReset u (off / 4))
  else match specialReset p u off with
    | some v => w32 v
    | none =>
      match (if u < 0x2000 then procAt u off else none) with
      | some (pu, o) => w32 (ucbReset pu (o / 4))
      | none => match findRow u off with
        | some r => w32 r.reset
        | none => 0

end Sys2Proof.Machine
end

