-- ==== Sys2Proof/Machine/State.lean ====
section
/-! DEFINITION. The state of the block: plain data. Registers of the tables lie in one sparse store; what the
spec gives the device beside them has a field here (INVENTORY.md, '## State'). -/
namespace Sys2Proof.Machine

/-! ### Control, claims and calls (R6–R10, R42, R501, R502) -/

/-- An expert claim: its unit, its holder, the claims taken into it (R6). -/
structure Claim where
  unit : Nat
  ini : Nat
  taken : List Nat
  deriving DecidableEq, Repr

/-- Why a register access was rejected (R8, R13–R15; the spec names no encodings). -/
inductive AccCause where
  | notHolder | readOnly | access | reserved | range | check | notEnabled
  deriving DecidableEq, Repr

/-- A register-access error of R8. -/
structure AccErr where
  ini : Nat
  addr : Nat
  cause : AccCause
  deriving DecidableEq, Repr

/-- What the last service call returned: its status and its result words from the second on (R10, R501). -/
structure CallResult where
  status : Nat
  words : List Word
  deriving DecidableEq, Repr

/-- The channel call being served: its channel, TAG, call number (R501). -/
structure CallCtx where
  chan : Nat
  tag : Nat
  num : Nat
  deriving DecidableEq, Repr

/-- A call that returned PENDING: where it came from, the unit or object it waits for, and, once what it waits
for has happened, its final status and result words (R502). -/
structure PendCall where
  src : Option CallCtx
  num : Nat
  key : Nat
  fin : Option Nat
  res : List Word
  deriving DecidableEq, Repr

/-- The kinds of things the device sends out of itself. -/
inductive OutKind where
  | msix | sdioIrq | axSlot | axCtl | axWake | canFrame | ethFrame | sensor | pulse | pwm | rails | sup
  | flash | hostRead | pin
  deriving DecidableEq, Repr

/-- One thing sent out: its kind, the port or vector, its content. -/
structure OutMsg where
  kind : OutKind
  port : Nat
  data : List Nat
  deriving DecidableEq, Repr

/-! ### Rate monitors and unit control blocks (R24–R27, R33–R39) -/

/-- A rate monitor's memory: consecutive compared windows below threshold, whether an alarm may be raised,
whether the next window is the first after the domain came on (R27). -/
structure RateMon where
  below : Nat
  armed : Bool
  first : Bool
  deriving DecidableEq, Repr

/-- What a unit control block remembers beside its words: a self-test runs, the last test passed with the
present image, a Readmit is held, the rank of the requester of the transition in progress (R35, R37), the task slot of
the test (R451). -/
structure UcbRun where
  testing : Bool
  passed : Bool
  held : Bool
  rank : Nat
  task : Option Nat
  deriving DecidableEq, Repr

/-! ### Clients, queues, marks (R244–R270) -/

/-- What a client has beside its record: lost-event count, ring phase, virtual time, signal hold-off
running, signal wanted, had a ready entry, last queue dispatched (R248, R253, R257, R258). -/
structure ClientX where
  lost : Nat
  phase : Bool
  vt : Nat
  hold : Bool
  want : Bool
  hadReady : Bool
  lastQueue : Option Nat
  deriving DecidableEq, Repr

/-- A cached queue descriptor (R245) and what the scheduler knows of the queue: the entry seen at HEAD, its
start condition held, whether it was prefetched, when it became ready, a deferred reload, the context its
command runs on, restarts of that command, a halt or a deletion waiting. -/
structure QSlot where
  id : Nat
  words : List Word
  entry : Option (List Word)
  held : Bool
  prefetched : Bool
  readyAt : Option Nat
  reload : Bool
  running : Option Ctx
  restarts : Nat
  halting : Bool
  deleting : Bool
  compWait : Bool
  /-- The attempt that a retry repeats: its record, code and unit (R557, R558). -/
  retried : Option (Nat × Nat × Nat)
  /-- The prefetch store of a real-time queue: visible entries from HEAD on, at most four (R262). -/
  store : List (List Word)
  /-- A place among the 1,024 pinned descriptors has been given to PIN (R245). -/
  pin : Bool
  deriving DecidableEq, Repr

/-- A one-shot mark watch of call 0x0109 (R256). -/
structure Watch where
  idx : Nat
  client : Nat
  mark : Nat
  eq : Bool
  value : Nat
  deriving DecidableEq, Repr

/-- A real-time reservation (R261): its queue, its context, its tile mask, its corner; active or waiting. -/
structure Reserv where
  queue : Nat
  ctx : Ctx
  tiles : Nat
  cornerV : Nat
  cornerHot : Bool
  active : Bool
  releasing : Bool
  deriving DecidableEq, Repr

/-! ### Gangs (R95–R98) -/

/-- The stage of a gang. -/
inductive GangStage where
  | forming | formed | dissolving
  deriving DecidableEq, Repr

/-- A gang: index of its unit number, its members, its stage. -/
structure Gang where
  g : Nat
  members : Nat
  stage : GangStage
  deriving DecidableEq, Repr

/-! ### Commands running in contexts (R163–R199) -/

/-- A tensor descriptor (R178). -/
structure TD where
  addr : Nat
  fmt : Nat
  zp : Nat
  scaled : Bool
  scaleT : Bool
  tag0 : Nat
  rowStride : Nat
  pixStride : Nat
  scaleAddr : Nat
  rows : Nat
  cols : Nat
  memberStride : Nat
  deriving DecidableEq, Repr

/-- The descriptor that every command starts with (R178). -/
def TD.zero : TD := ⟨0, 0, 0, false, false, 0, 0, 0, 0, 0, 0, 0⟩

/-- Why a context does not issue (R173–R176, R194, R196). -/
inductive Stall where
  /-- FENCE waits for the units of its mask. -/
  | fence (mask : Nat)
  /-- A mark wait: mark, value, = rather than ≥; the mark has satisfied it (R194). -/
  | mark (m v : Nat) (eq sat : Bool)
  /-- The word waits for every earlier instruction to complete (marks, REMIT). -/
  | order (w : Dword)
  /-- The word's unit queue is full. -/
  | full (w : Dword)
  /-- LOPEN waits for its banks. -/
  | lock
  deriving DecidableEq, Repr

/-- What a unit's instruction still has to do after it issued: wait for marks in its own unit (XREDUCE,
MERGE, row-mark rings), for credits or for a translation. -/
inductive Waiting where
  | none
  /-- XREDUCE or MERGE: the mark and value each source waits for, the sources still to take in index order,
  those whose mark has satisfied the wait in the order in which it did (R158, R189). -/
  | sources (marks : List (Nat × Nat)) (left arrived : List Nat)
  /-- A ring-writing convolution: the next cumulative row, what is left to write of each output row from there on, and
  the mark and value that it waits for, satisfied or not (R187). -/
  | rows (next : Nat) (left : List (List (Nat × List Byte))) (m v : Nat) (sat : Bool)
  /-- A culvert move waits for credits of a parcel (R222). -/
  | credits (pcl : Nat)
  /-- A culvert move is stalled on translation (R266). -/
  | xlate
  /-- A culvert move to another part waits for credits there (R308). -/
  | remote
  /-- TCONV with FEED: waits for the frame (R130). -/
  | feed
  /-- A culvert move waits at a sluice that another requester holds (R227, R231). -/
  | sluice
  deriving DecidableEq, Repr

/-- What a tile instruction with ACC_OUT leaves to pair with (R184): tiles, SPLIT, output positions and the width of a
row of them (1 for a matrix), channels, window base. -/
structure TilePair where
  tiles : Nat
  split : Nat
  m : Nat
  width : Nat
  n : Nat
  win : Int
  deriving DecidableEq, Repr

/-- Sums that ACC_OUT left in the accumulator banks of one member: sum and whether it is non-finite, row by row. -/
structure AccBank where
  member : Nat
  sums : List (Int × Bool)
  deriving DecidableEq, Repr

/-- A piece of a culvert instruction: member, source (none: a pattern), destination, bytes read, and what becomes of
them: 0 copied, 1 the pattern byte, 2 scale codes tagged from a start tag (R191). -/
structure Piece where
  mem : Nat
  src : Option Nat
  dst : Nat
  n : Nat
  mode : Nat
  val : Nat
  /-- The source's bytes in the port buffer, with the credits of the burst taken, while it waits for its pass (R222, R224). -/
  ready : Option (List Byte)
  deriving DecidableEq, Repr

/-- The range of a lock passage by member index: member, first address, length; its requester (R196). -/
structure LockRange where
  ranges : List (Nat × Nat × Nat)
  req : Nat
  deriving DecidableEq, Repr

/-- An issued instruction on an execution queue: its unit (FENCE bit number), its word and index, what it captured
(R174); whether its unit has begun it, what it waits for, the rows it has written with their old contents (R595), and
what its operation has counted. -/
structure Issued where
  unit : Nat
  word : Dword
  idx : Nat
  tds : List TD
  win : Int
  cps : List Nat
  sregs : List Word
  only : Option Nat
  rm : List Nat
  lock : Option LockRange
  burst : List Nat
  begun : Bool
  wait : Waiting
  /-- What is left of a culvert move. What has been taken so far: the bytes moved by member, for the digests; for an
XREDUCE or MERGE the sources in the order taken (keys 0–7), and by 8 + member what they have come to (R145, R158). -/
  left : List Piece
  got : List (Nat × List Byte)
  /-- The ranges that a move with HASH = 10 has written, by address and length. -/
  wrote : List (Nat × Nat)
  undo : List (Nat × List Byte)
  deriving DecidableEq, Repr

/-- A culvert instruction folded into a digest: member, instruction index, byte count, the digest of the bytes (R282);
for a weights digest the parcel and offset stand in for the member (R283). -/
structure Fold where
  member : Nat
  parcel : Nat
  offset : Nat
  idx : Nat
  n : Nat
  /-- Bytes from the first one written to the last. -/
  span : Nat
  digest : List Byte
  deriving DecidableEq, Repr

/-- A command running in a context. -/
structure CtxRun where
  ctx : Ctx
  queue : Nat
  /-- The entry's sixteen words (R163). -/
  entry : List Word
  /-- The block header's sixteen words (R168). -/
  hdr : List Word
  /-- The instructions after the header. -/
  code : List Dword
  /-- Index of the next instruction. -/
  pos : Nat
  tds : List TD
  sregs : List Word
  cps : List Nat
  /-- RMSET: EN, BERM, RELEASE, RING. -/
  rm : List Nat
  win : Int
  /-- Burst lengths in rows: culverts, tiles, vector units, toe engine (R195). -/
  bursts : List (List Nat)
  only : Option Nat
  /-- The lock passage from LOPEN to LCLOSE (R196). -/
  lock : Option LockRange
  issued : List Issued
  stall : Option Stall
  /-- What has been folded into the input digest since its last reset, and weights folds that wait for an earlier
  instruction (R282, R283). -/
  input : List Fold
  wfolds : List Fold
  /-- Ranges that a move with HASH = 10 wrote and never folded, by address and length (R283). -/
  spoilt : List (Nat × Nat)
  /-- Rinds written on each member; an earlier one reset the input digest; a partial was taken out of order; a record
  came from a position of another fingerprint; a spare tile was used (R289). -/
  remits : List (Nat × Nat)
  partialIn : Bool
  reordered : Bool
  fpMismatch : Bool
  spareUsed : Bool
  /-- By member index, what the last tile instruction left to pair with (R184). -/
  pairs : List (Nat × TilePair)
  acc : List AccBank
  /-- A mark operation of the command has taken effect, a REMIT was issued (R557). -/
  markDone : Bool
  remitted : Bool
  /-- Credits taken and not yet used: parcel, count (R222). -/
  credits : List (Nat × Nat)
  /-- The fault the command ends with, and the instruction index it was met at. -/
  fault : Nat
  faultAt : Nat
  /-- Gauge nanoseconds since 0, and ticks of the 500 MHz clock, at the start of the prologue; restarts until then
  (R251, R257, R266). -/
  startNs : Nat
  startTick : Nat
  restarts : Nat
  ended : Bool
  /-- Same-bits mode was on for the unit when the prologue began (R271). -/
  sb : Bool
  /-- The starter record whose entry this is (R435). -/
  starter : Option Nat
  /-- The unit that met the fault, when it is not the context's, and the record that was made at its detection (R555). -/
  faultUnit : Option Nat
  faultRec : Option Nat
  /-- Clusters where T8 stood in when the command started, with the slot it serves for it (R91). -/
  spares : List (Nat × Nat)
  deriving DecidableEq, Repr

/-! ### Reports to the Warden (R423, R424) -/

/-- A report in the Warden's FIFO: a check ID of R424 that failed, or 0 for an update of a tapped mark; the
unit, word, loop or mark concerned; the mark's value. -/
structure WdReport where
  check : Nat
  item : Nat
  value : Nat
  deriving DecidableEq, Repr

/-! ### Translation (R493–R497) -/

/-- A held translation: client, MEM rather than HOST root, first input address, first output address, page
size, R, W. -/
structure TlbEntry where
  client : Nat
  memRoot : Bool
  input : Nat
  output : Nat
  size : Nat
  r : Bool
  w : Bool
  deriving DecidableEq, Repr

/-! ### The Polder (R210–R243) -/

/-- The states of a sluice (R230). -/
inductive Sluice where
  | idle | pass | reserved | locked | asleep
  deriving DecidableEq, Repr

/-- A recent access to a bank, for the hazard detector: row, port, initiator, write, the bank's handshake. -/
structure BankAcc where
  row : Nat
  port : Nat
  ini : Nat
  write : Bool
  at_ : Nat
  deriving DecidableEq, Repr

/-- What a logical bank's sluice holds: wait counts of its waiting ports, the ports in the order in which they
became forced, the last winner, the sluice state, the port and initiator it serves, its gather entries (row,
byte mask), most recently used first, and recent accesses (R220, R225, R230, R232). -/
structure BankX where
  waits : List (Nat × Nat)
  forced : List Nat
  last : Nat
  st : Sluice
  holder : Option (Nat × Nat)
  gather : List (Nat × Nat)
  recent : List BankAcc
  deriving DecidableEq, Repr

/-- A row of a physical bank: retired, poisoned, dead (R235). -/
structure RowX where
  retired : Bool
  poisoned : Bool
  dead : Bool
  deriving DecidableEq, Repr

/-- A lock opening or an open passage (R226): requester, range, its banks in ascending physical order, how many
are reserved, open; the context whose command made it; the port it asks through. -/
structure LockX where
  ctx : Ctx
  ini : Nat
  first : Nat
  len : Nat
  req : Nat
  banks : List Nat
  reserved : Nat
  isOpen : Bool
  port : Nat
  /-- What the range held when the passage opened (R231). -/
  old : List Byte
  deriving DecidableEq, Repr

/-- An access held at a sleeping bank group, or at a sluice that another requester holds (R231, R238): its bank handshake,
none for a write that its sender has left at the sluice; whether it is a fold of R283; the SRC, stream and tag to acknowledge;
the credits taken for it, by parcel; a mark operation of the same sender that follows its writes in the range: mark, whether it is
an add, value (R222, R363, R388). A transaction of the ring that is no write has no range, and waits for what its stream has sent
before: for the writes with the tags that are still to come, and those left at sluices; with neither write nor mark it is a return of
the credits (R309). -/
structure HeldAcc where
  ini : Nat
  port : Nat
  addr : Nat
  len : Nat
  write : Option (List Byte)
  at_ : Option Nat
  fold : Bool
  ack : Option (Nat × Nat × Nat)
  credits : List (Nat × Nat)
  mark : Option (Nat × Bool × Nat)
  after : List Nat
  deriving DecidableEq, Repr

/-- What a parcel has beside its table entry: credits taken whose write is not yet acknowledged, the
credit-over count, a pending deletion, the firmware culvert that zeroes it, as 4 × (culvert − 14) + channel (R222,
R233, R243). -/
structure PclX where
  taken : Nat
  excess : Nat
  deleting : Bool
  zeroing : Option Nat
  deriving DecidableEq, Repr

/-- What an access from outside the commands returned: an error response, the bytes read. -/
structure Reply where
  err : Bool
  data : List Byte
  deriving DecidableEq, Repr

/-! ### Power (R509–R526) -/

/-- What the power controller keeps beside its registers: its own set point, consecutive windows below the cap,
when POWER_CAP was last posted, the step that runs, units still to answer, when the entry or exit began, a wake
taken during the entry, the state that the entry or exit left, domains that are powering up, bank groups that the entry
put into retention. -/
structure PwrX where
  own : Nat
  below : Nat
  lastCap : Option Nat
  step : Option Nat
  waiting : List Nat
  began : Nat
  wake : Option (Nat × Nat)
  left : Nat
  powering : List Nat
  slept : List Nat
  deriving DecidableEq, Repr

/-- A transaction sent to another part and not yet acknowledged (R297, R309): its TYPE, ring position, stream, tag,
the context, queue bit and instruction index that sent it (none: a service call), the instant it was sent. -/
structure RemTx where
  kind : Nat
  pos : Nat
  stream : Nat
  tag : Nat
  ctx : Option Ctx
  unit : Nat
  idx : Nat
  sent : Nat
  deriving DecidableEq, Repr

/-- Credits that a remote move needs (R308): whose, where, an address in the parcel, KiB; stage 0 not requested, 1
requested, 2 granted; granted and unused KiB; its command has ended; the tag of its request. -/
structure RemChunk where
  ctx : Ctx
  unit : Nat
  idx : Nat
  mem : Nat
  pos : Nat
  addr : Nat
  kib : Nat
  stage : Nat
  left : Nat
  dead : Bool
  tag : Nat
  deriving DecidableEq, Repr

/-- Credits that this part granted to a stream of another, or a request that waits (R308): SRC, stream, parcel, KiB; the
request's address and tag. -/
structure RemGrant where
  src : Nat
  stream : Nat
  pcl : Nat
  kib : Nat
  addr : Nat
  tag : Nat
  deriving DecidableEq, Repr

/-! ### The Gauge, Ethernet and CAN (R461–R484) -/

/-- A comparator (R471): its committed target and its next firing in Gauge ns since 0; it has one to make; that one
counts as late. -/
structure CmpX where
  base : Nat
  next : Nat
  armed : Bool
  late : Bool
  deriving DecidableEq, Repr

/-- The time protocol stack (R467, R468): enabled; what call 0x0906 set; the identity of the selected master (0 none);
consecutive Syncs within LOCK_NS; Syncs taken from a new master; last offset and path delay, 32-bit signed. -/
structure PtpX where
  on : Bool
  cfg : List Word
  master : Nat
  good : Nat
  fresh : Nat
  offset : Word
  delay : Word
  deriving DecidableEq, Repr

/-- A frame queued at an EP port: port, class, axis frame that it is (16: none), its bytes without FCS; it has been held
because it would not end in its window (QBV_OVERRUN counts it once). -/
structure EthTx where
  port : Nat
  cls : Nat
  axis : Nat
  data : List Byte
  held : Bool
  deriving DecidableEq, Repr

/-- A port's gate schedule (R405, R416, R465): the operating list with its cycle time and base time in ns; Gauge ns of the
first cycle boundary that it runs from, and the entry in force until then; a swap is scheduled. -/
structure QbvX where
  oper : List Word
  cycle : Nat
  base : Nat
  since : Nat
  hold : Nat
  swap : Bool
  deriving DecidableEq, Repr

/-- A port's general receive ring (R469): client, address, order, next slot, its phase. -/
structure GenRing where
  client : Nat
  addr : Nat
  order : Nat
  tail : Nat
  phase : Bool
  deriving DecidableEq, Repr

/-- A CAN controller (R477–R479): pending objects that the bus may take, the object in arbitration or on the bus with
its snapshot (header word 1, data words), whether it is on the bus, targets of timed objects in Gauge ns. -/
structure CanX where
  eligible : List Nat
  offer : Option (Nat × Word × List Word)
  onBus : Bool
  targets : List (Nat × Nat)
  deriving DecidableEq, Repr

/-! ### The Mill (R380–R417) -/

/-- What an encoder input's hardware keeps (R398–R402): 400 MHz times of the last edge and the one before; at the last
latch the count and both times; the count and the time of the last edge at the latch before it; the last velocity; the
trigger pulses whose serial reads run, oldest first; position and 400 MHz time of the last two good serial reads; the last
read failed. -/
structure EncX where
  edge : Nat
  edge0 : Nat
  latCount : Word
  latEdge : Nat
  latEdge0 : Nat
  preCount : Word
  preEdge : Nat
  vel : Word
  reads : List Nat
  pos : Word
  posAt : Nat
  pos0 : Word
  pos0At : Nat
  bad : Bool
  /-- Count and velocity of the last good latch of a quadrature input (R395). -/
  goodCount : Word
  goodVel : Word
  /-- Edges in the deglitch filter, oldest first: 400 MHz time, illegal, up (R398). -/
  wait : List (Nat × Bool × Bool)
  deriving DecidableEq, Repr

/-- What one sample of a loop reads: its trigger's Gauge ns and pulse, the interval in s, latched encoders (input, position,
velocity, faulted), receive words with whether each is stale, gated words (R387, R400). -/
structure MillSnap where
  trig : Nat
  pulse : Nat
  interval : Word
  enc : List (Nat × Word × Word × Bool)
  rx : List (Nat × Word × Bool)
  gate : List (Nat × Word)
  deriving DecidableEq, Repr

/-- A loop (R381–R396). stage: 0 no sample, 1 its output part is ready, 2 its tail is ready, 3 its output part runs, 4
its tail runs. -/
structure MillLoop where
  main : List Dword
  fb : List Dword
  pendMain : Option (List Dword)
  pendFb : Option (List Dword)
  /-- L0–L63, and as the running segment has left them so far (R387). -/
  lregs : List Word
  work : List Word
  /-- Coefficients that are not 0; pending writes; writes of call 0x0704 that wait for room. -/
  coef : List (Nat × Word)
  pend : List (Nat × Word)
  feed : List (Nat × Word)
  /-- Writes that are applied before those of the pending call 0x0704 have all been (R417). -/
  callN : Nat
  stage : Nat
  pos : Nat
  snap : MillSnap
  /-- The trigger is pending: its pulse and the encoders it latched. -/
  prevTrig : Option Nat
  /-- Gauge ns of the last pulse that made a sample due, taken or missed (R381). -/
  prevPulse : Option Nat
  stopping : Bool
  /-- A switch that waits for the next sample: to FB, or back to MAIN (R407). -/
  want : Option Bool
  /-- GATE_SEQ and the gated set at the switch to fallback (R407). -/
  frozen : Option (Nat × List (Nat × Word))
  /-- GATE_SEQ of the last sample, and samples that read that set (R406). -/
  seq : Nat
  held : Nat
  /-- Occurrences since the last posting and the Gauge ns of that posting: inputs, missed (R396). -/
  inN : Nat
  inAt : Option Nat
  misN : Nat
  misAt : Option Nat
  /-- Results of the running segment: an input faulted, the last MOUT's time. -/
  faulted : Bool
  mout : Nat
  deriving DecidableEq, Repr

/-- A transmit word's state (R404): its value; written since the frame's last send; the loop that wrote it last, none when
none has. -/
structure TxWord where
  val : Word
  fresh : Bool
  loop : Option Nat
  deriving DecidableEq, Repr

/-! ### The Warden (R418–R460) -/

/-- A supervised task's start in ticks of the 500 MHz clock (R451), by slot. -/
abbrev TaskAt := Nat × Nat

/-- A starter record: due and not yet dispatched; the fault code of its last run, until the Warden has checked it
(R434–R436). -/
structure StarterX where
  due : Bool
  done : Option Nat
  /-- Restarts of the command in progress (R266). -/
  restarts : Nat
  deriving DecidableEq, Repr

/-- The self-test of a tile or toe engine (R452–R455): slices passed of the full test in progress, a slice runs, the last
one failed; ticks at the last passing full test; consecutive window ends in debt. -/
structure TestX where
  slice : Nat
  running : Bool
  failed : Bool
  passAt : Option Nat
  debt : Nat
  deriving DecidableEq, Repr

/-- What the Warden keeps beside its registers. -/
structure WdX where
  armed : Bool
  /-- IN_MARK at the last read; no set has been checked since arming (R429). -/
  lastIn : Nat
  first : Bool
  /-- SET_TRIG intervals that run, oldest first: IN_MARK advanced, a set was released (R430). -/
  intervals : List (Bool × Bool)
  /-- Work items: 16 for a set, else the compare entry; failures that the Warden found (value: target groups). -/
  work : List Nat
  found : List WdReport
  /-- Consecutive sets released since the last fault; passed since each group's (R443, R444). -/
  clean : Nat
  cleanG : List Nat
  /-- A HOLD: its groups, intervals without a release since, its check; it withholds what the interval in progress brings. -/
  holdG : Nat
  holdN : Nat
  holdCheck : Nat
  withheld : Bool
  /-- Lasting checks that fail, with the pin, pipeline or unit (R424). -/
  failing : List (Nat × Nat)
  hbRun : Nat
  /-- SAFE is entered as soon as a pair runs (R421, R422). -/
  toSafe : Bool
  recTask : Option Nat
  tasks : List TaskAt
  starters : List (Nat × StarterX)
  tests : List (Nat × TestX)
  /-- Phase of the mirror ring. -/
  mirPhase : Bool
  /-- Intervals that ended since the last release without one (R429); WD_STATUS shows them saturated. -/
  gone : Nat
  /-- The active pair has not caught up since it failed without a synced standby (R421). -/
  behind : Bool
  deriving DecidableEq, Repr

/-- A weights load of call 0x0303 that a firmware culvert makes: parcel, source, offset, length, caller; the culvert and its
channel as in PclX; it waits for credits (R233, R242, R283, R292). -/
structure WLoad where
  parcel : Nat
  src : Nat
  offset : Nat
  len : Nat
  ini : Nat
  chan : Nat
  wait : Bool
  deriving DecidableEq, Repr

/-- A CMD slot (R297): TYPE, DST, SRC, STREAM, TAG, the fields of its TYPE. -/
structure AxSlot where
  kind : Nat
  dst : Nat
  src : Nat
  stream : Nat
  tag : Nat
  fields : List Nat
  deriving DecidableEq, Repr

/-- A flit of a port (R296): DATA, or CMD; the slots of a CMD flit, or the WRITE that a DATA flit belongs to; its data. -/
structure AxFlit where
  data : Bool
  slots : List AxSlot
  bytes : List Byte
  deriving DecidableEq, Repr

/-- What waits of a transaction at a port (R298, R314): it goes ahead of others; its CMD slot has been sent; its set; its
flits; the port and set of arrival whose buffers they hold, and whether the CMD flit's is among them. -/
structure AxWait where
  rt : Bool
  opened : Bool
  set : Nat
  flits : List AxFlit
  hold : Option (Nat × Nat × Bool)
  deriving DecidableEq, Repr

/-- The link of an Axfer port (R295–R303): next SEQ; flits sent and not yet acknowledged (SEQ, set, flit); flits sent per
set and the counters the peer last returned; what waits, in the order of service; SEQ expected; the SEQ of the CMD flit whose
slots arrive; the slots taken of the last 256 SEQs (SEQ, SRC, stream, tag); buffers returned per set; flits are dropped until the
replay; replays of one SEQ, and when those of the last millisecond were asked for; flits since the last CTL; the training in progress is a retraining; lanes marked bad; the port's streams move to its
bonded mate once its flits are acknowledged. -/
structure AxLink where
  txSeq : Nat
  replay : List (Nat × Nat × AxFlit)
  sent : List Nat
  freed : List Nat
  wait : List AxWait
  rxSeq : Nat
  cmdSeq : Option Nat
  took : List (Nat × Nat × Nat × Nat)
  got : List Nat
  drop : Bool
  nakSeq : Nat
  nakN : Nat
  asks : List Nat
  since : Nat
  re : Bool
  bad : Nat
  moving : Bool
  deriving DecidableEq, Repr

/-- Ring formation and repair (R304, R312): the call's RING_ID, NPOS, POS, BOND, first mark and count; fingerprints seen
by position; the neighbours on AX0 and AX1 agree; hops lost, hop h lying between h and h + 1; a dissolution is pending; the
states of the positions, the ring's members (R34, R38). -/
structure RingX where
  form : Option (List Nat)
  seen : List (Nat × Nat)
  upOk : Bool
  downOk : Bool
  lost : List Nat
  dissolving : Bool
  pos : List Nat
  deriving DecidableEq, Repr

/-! ### The Vat (R318–R350) -/

/-- A decoded image: size, planes, format, whether planes are interleaved pixel by pixel, and its rows without padding
(R331). -/
structure Img where
  w : Nat
  h : Nat
  planes : Nat
  fmt : Nat
  inter : Bool
  data : List Byte
  deriving DecidableEq, Repr

/-- What decoding came to: the cause of R333, or 0, the image, the decode units. -/
structure Decoded where
  cause : Nat
  img : Img
  du : Nat
  deriving DecidableEq, Repr

/-- A live stream (R320–R325): the descriptor accepted when it was enabled (none: no frame is to be made), the number
after that of the last frame taken, ROI_MARK at the previous frame, the snapshot, the frame being made, its bursts not
yet written, a write of it failed. -/
structure VatLive where
  desc : List Byte
  next : Nat
  roiV : Option Nat
  snap : Option (List Byte)
  frame : Option Nat
  wq : List (Nat × List (Option Byte))
  bad : Bool
  deriving DecidableEq, Repr

/-- A sample drawn and not yet placed (R338–R346): its order position, index, augmentation record, where it is decoded (0
to 3 a decoder, 4 host software, 5 a Cellar hit), what decoding it comes to, decoded by host software, the decode has
ended, deferred. -/
structure VDec where
  pos : Nat
  sample : Nat
  aug : List Byte
  src : Nat
  res : Decoded
  host : Bool
  done : Bool
  deferred : Bool
  deriving DecidableEq, Repr

/-- A filled slot of a batch (R342): order position, sample, deferred in, host-decoded, decode units. -/
structure VSlot where
  pos : Nat
  sample : Nat
  defIn : Bool
  host : Bool
  du : Nat
  deriving DecidableEq, Repr

/-- A batch job (R334–R346): its descriptor, next position to draw, next position due, batch number, batches made, first
position of the batch, the position after the one that filled it, slots filled, skips, skips after it was full, bursts
not yet written, the manifest is made, no batch follows, stalled on translation, to stop at the batch boundary, entries
written to the host ring. -/
structure VJob where
  desc : List Byte
  next : Nat
  due : Nat
  k : Nat
  made : Nat
  first : Nat
  full : Nat
  slots : List VSlot
  skips : List (Nat × Nat)
  later : List (Nat × Nat)
  wq : List (Nat × List (Option Byte))
  closed : Bool
  last : Bool
  stall : Bool
  stopping : Bool
  hostN : Nat
  deriving DecidableEq, Repr

/-- A Vat: its live stream, its job, samples drawn, decode measures counted for the median, newest first (R339). -/
structure VatX where
  live : VatLive
  job : Option VJob
  decs : List VDec
  meds : List Nat
  deriving DecidableEq, Repr

/-! ### The Press (R351–R379) -/

/-- A parameter set in a pipeline's store or in effect (R368–R370): SET_ID, TARGET, its 192 bytes; its writes have begun;
they have ended; SET_SPLIT, SET_PARTIAL. -/
structure PSet where
  id : Nat
  target : Nat
  data : List Byte
  begun : Bool
  ended : Bool
  split : Bool
  part : Bool
  deriving DecidableEq, Repr

/-- An output of a pipeline in the frame in progress (R361–R363): credits held of the slot, credits owed from earlier
slots, lines dropped, the frame is skipped. -/
structure PpOut where
  held : Nat
  owed : Nat
  drops : Nat
  skip : Bool
  deriving DecidableEq, Repr

/-- A pipeline (R356–R373). run: 0 stopped, 1 starts at the next frame start, 2 runs, 3 goes on there after a move. -/
structure PpX where
  desc : List Byte
  /-- A load that takes effect at the next frame start (R360); the loading client. -/
  pend : Option (List Byte)
  client : Option Nat
  run : Nat
  stopAt : Bool
  /-- Number of the last frame start; a frame is in progress; nothing to compare with yet; frames seen, at most 4. -/
  n : Nat
  inFrame : Bool
  first : Bool
  seen : Nat
  /-- The model's own: number of the frame's free values of a YUV source. -/
  draw : Nat
  /-- Gauge ns and s at the frame start; Gauge time at the last frame end; the blanking last measured, in ns. -/
  ns : Nat
  sec : Nat
  endNs : Option Nat
  blank : Option Nat
  /-- Lines received, damaged lines; the frame's lines so far: Gauge time of arrival in ns, stage-1 values; green sum, green count and
  arrival of the rows of the last four frames, newest first (R367). -/
  got : Nat
  errs : Nat
  img : List (Nat × List Nat)
  flick : List (List (Nat × Nat × Nat))
  /-- Signatures of the sampled rows (none: flat) of this frame and of the last eight, newest first. -/
  rows : List (Option Nat)
  hist : List (List (Option Nat))
  outs : List PpOut
  /-- Sensor counter and timestamp of the previous frame and of this one; the embedded line has been read. -/
  cnt0 : Option Nat
  ts0 : Option Nat
  cnt : Nat
  ts : Nat
  emb : Bool
  /-- Causes of R371 found in this frame (bit 0 REPEAT to bit 4 FLAT); LATE waits for the next record. -/
  frz : Nat
  late : Bool
  lost : Nat
  sets : List PSet
  cur : PSet
  /-- FLK_THRESH; a move asked for by call 0x0607: its target. -/
  thresh : Nat
  move : Option (Option Nat)
  /-- The last frame end came while the pipeline or its controller drained (R373). -/
  drained : Bool
  deriving DecidableEq, Repr

/-- Sensor writes of a set on an I3C/I2C master (R370): pipeline, set, next write, retried. -/
structure SenJob where
  pp : Nat
  set : PSet
  idx : Nat
  retried : Bool
  deriving DecidableEq, Repr

/-- A toe engine's line store on a feed (R130, R131): a frame is being taken; its format; lines by plane, oldest first. -/
structure FeedX where
  on : Bool
  fmt : Nat
  lines : List (List (List Nat))
  deriving DecidableEq, Repr

/-! ### Trust (R527–R553) -/

/-- The update of a processor in progress (R541–R544): the unit, its image, NO_COMMIT, the step (3 drain, 5 test, 8 the
catalogued image is tested after a failure), the caller's client, the open task, the final status so far. -/
structure UpdX where
  unit : Nat
  image : List Byte
  noCommit : Bool
  step : Nat
  client : Option Nat
  task : Option Nat
  status : Nat
  deriving DecidableEq, Repr

/-- What the boot keeps (R536–R539, R588): BOOT_MODE as sampled, an SDIO boot goes on, the processors that it has neither
loaded nor declared absent, the device is off. -/
structure BootX where
  mode : Nat
  sdio : Bool
  left : List Nat
  off : Bool
  deriving DecidableEq, Repr

--TYPES
/-! ### The state -/

/-- Gauge time (R461): seconds, and nanoseconds with 28 fraction bits; a step by signed ns and a set to seconds and ns
that wait for the next tick, each with FORCE (R464, R465); ticks of the slew since ADJ_LEFT last moved; ticks of the
500 MHz clock since reset. -/
structure GaugeX where
  sec : Nat
  sub : Nat
  step : Option (Int × Bool)
  set : Option (Nat × Nat × Bool)
  slewTicks : Nat
  ticks : Nat
  deriving DecidableEq, Repr

/-- A fault record's words, newest first in the ring of R565. -/
abbrev FaultRec := List Word

/-- What the fault manager keeps of a unit in the hour window (R561, R573): Transient records, corrected
errors, out after a Lasting record and not readmitted, the next Transient is taken as Lasting. -/
structure HealthX where
  trans : Nat
  ce : Nat
  failed : Bool
  atLimit : Bool
  deriving DecidableEq, Repr

/-- Everything the spec gives the device. -/
structure State where
  /-- Commands that wait, first in, first out. -/
  pending : List Instr
  /-- The model's own: number of the next unspecified value (Config.freeWord, Config.freeByte). -/
  free : Nat
  part : Part
  /-- Registers that do not read as at reset. -/
  regs : List (Nat × Word)
  /-- Polder and LPDDR4X bytes that differ from what an unlisted address reads as, by device address. -/
  mem : List Host.Cell
  /-- Ranges whose contents became unspecified or zero, newest first: first address, length, 0 for zero, else a number
  of what is there (R219, R238, R243, R595). -/
  voids : List (Nat × Nat × Nat)
  /-- Host memory bytes that are not 0, by PCIe address. -/
  hostMem : List Host.Cell
  /-- Marks that are not 0 (R255). -/
  marks : List (Nat × Word)
  /-- 64-bit counters that are not 0, by the key of their low register (R99, R100, R242, R252). -/
  wide : List (Nat × Nat)
  /-- Sent out, newest first. -/
  out : List OutMsg
  call : CallResult
  callCtx : Option CallCtx
  pendCalls : List PendCall
  claims : List Claim
  accErr : Option AccErr
  addrErr : Option (Nat × Nat)
  rates : List (Nat × RateMon)
  ucbs : List (Nat × UcbRun)
  clients : List (Nat × ClientX)
  qcache : List QSlot
  watches : List Watch
  reservs : List Reserv
  gangs : List Gang
  ctxs : List CtxRun
  gauge : GaugeX
  /-- Translations held, newest first (R496). -/
  tlb : List TlbEntry
  /-- The latest 256 fault records, newest first (R565). -/
  faults : List FaultRec
  health : List (Nat × HealthX)
  /-- The health last reported of a unit; one that is not listed is GOOD (R573, R576). -/
  healthSeen : List (Nat × Nat)
  /-- Bus Master Enable of the physical function (R490). -/
  pfBusMaster : Bool
  /-- Reports waiting for the Warden, oldest first (R423). -/
  wdFifo : List WdReport
  /-- The Warden's hardware safe state is asserted (R422, R423, R440). -/
  wdHard : Bool
  /-- Sluices by logical bank; rows by physical bank × 8192 + row; physical banks of remapped logical banks;
  spare rows used by physical bank; bank copies running (logical, spare). -/
  banks : List (Nat × BankX)
  rows : List (Nat × RowX)
  bankMap : List (Nat × Nat)
  spareRows : List (Nat × Nat)
  copies : List (Nat × Nat)
  /-- Physical banks that a spare has taken the place of: Out (R236). -/
  banksOut : List Nat
  /-- Bank groups at which the maintenance port has waited 10 ms and sends its next burst regardless (R237). -/
  maintDue : List Nat
  /-- Lock openings in the order they were asked for; the first is at the lock arbiter or open (R226). -/
  locks : List LockX
  /-- Ports severed for an initiator (R229). -/
  severed : List (Nat × Nat)
  held : List HeldAcc
  parcels : List (Nat × PclX)
  reply : Reply
  /-- Done FIFOs: channel, TAG, call number, final status, oldest first (R501, R502). -/
  doneFifo : List (Nat × Nat × Nat × Nat)
  /-- Clusters whose T8 is released at the next command boundary (R35, R91). -/
  spareRelease : List Nat
  pwr : PwrX
  /-- Contexts, gangs, toe engines and Vats that have adopted same-bits mode, by initiator ID (R213, R271). -/
  sbOn : List Nat
  /-- Axfer: transactions in flight, next tag by stream, credits of this part's streams; credits granted to others and
  requests that wait, oldest first; streams refused, with the cause (R308–R310). -/
  rtx : List RemTx
  rtags : List (Nat × Nat)
  rchunks : List RemChunk
  rgrants : List RemGrant
  rwaits : List RemGrant
  rbad : List (Nat × Nat × Nat)
  /-- Streams of other parts with a write that no bank acknowledged: SRC, stream (R309). -/
  rstuck : List (Nat × Nat)
  /-- Comparators; pulse outputs at their active level; capture FIFOs, oldest first (ns, seconds, fraction). -/
  cmps : List (Nat × CmpX)
  pulses : List Nat
  caps : List (Nat × List (Nat × Nat × Nat))
  ptp : PtpX
  /-- Ethernet: frames that wait, oldest first; ports with a frame on the wire; gate schedules; general rings. -/
  ethQ : List EthTx
  ethBusy : List EthTx
  qbv : List (Nat × QbvX)
  genRings : List (Nat × GenRing)
  cans : List (Nat × CanX)
  /-- The Mill: encoders, loops, the loop whose segment runs on each logical core, pulses counted by trigger line. -/
  encs : List (Nat × EncX)
  loops : List (Nat × MillLoop)
  lcores : List (Nat × Nat)
  trigN : List (Nat × Nat)
  /-- PWM shadows that wait for a period start. -/
  pwmShadow : List (Nat × Nat)
  /-- 400 MHz time at which a timebase's period began (R403). -/
  tbAt : List (Nat × Nat)
  /-- Logical cores taken over that have not begun on their new core (R409). -/
  takingOver : List Nat
  /-- Transmit words; the first loop that wrote into a transmit frame since its last send; receive words; the set in
  force at the gate. -/
  txWords : List (Nat × TxWord)
  txFirst : List (Nat × Nat)
  rxWords : List (Nat × Word)
  gateSet : List (Nat × Word)
  wd : WdX
  /-- Domains that have been off throughout the coverage window in progress (R455). -/
  domOff : List Nat
  /-- The loop of the last load by LAW_CTL. -/
  lawLast : Nat
  /-- Calibration deltas by unit × 65536 + PARAM: the accepted user set, what is in force (R549–R551). -/
  calSet : List (Nat × Nat)
  calOn : List (Nat × Nat)
  /-- By initiator ID of a context: the queue and client of its last command; that queue had a ready entry at its end (R258). -/
  lastRun : List (Nat × Nat × Nat × Bool)
  /-- Gauge ns since when the maintenance port is held; ns held that make no whole millisecond yet (R237). -/
  maintHold : Option Nat
  maintNs : Nat
  /-- Weights loads in progress, oldest first. -/
  loads : List WLoad
  /-- Axfer links by port; ring formation. -/
  links : List (Nat × AxLink)
  ring : RingX
  /-- Vats that do not stand as at reset. -/
  vats : List (Nat × VatX)
  /-- The Press: pipelines, sensor writes by master, oldest first; toe engines' line stores. -/
  pps : List (Nat × PpX)
  sensors : List (Nat × List SenJob)
  feeds : List (Nat × FeedX)
  /-- The management processor in the active role (R28, R569); dispatch waits for the other scheduler processor to take
  the queues over. -/
  mpActive : Nat
  spPause : Bool
  /-- The latest averages of the temperature sensors, in 1/16 °C (R571). -/
  temps : List Int
  /-- Injected faults not yet met: unit, kind, domain (R574). -/
  inject : List (Nat × Nat × Nat)
  /-- By tile, vector engine or toe engine: the number of what its stages, accumulator banks and PE registers, its register
  file, its weight store hold, which no rule states; a unit left out holds what reset leaves (R81, R135). -/
  stores : List (Nat × Nat)
  /-- The model's own: addresses of partial-sum records whose element has a product with a non-finite operand (R65, R97). -/
  psumBad : List Nat
  /-- The invalidation in progress: all clients, MEM root, client, first 4 KiB page, pages (R496). -/
  xlInval : Option (Bool × Bool × Nat × Nat × Nat)
  /-- The channel served last; channels whose posted call's results are to be discarded (R491, R502). -/
  mbLast : Nat
  mbDiscard : List Nat
  /-- Code stores: a processor's image (R527, R540). -/
  images : List (Nat × List Byte)
  /-- The programmable fuses: revoked root slots, SVN1–SVN7, UCAL_KEY_HASH when set, DEV_LOCK (R530). -/
  otpRevoke : Nat
  otpSvn : List Nat
  otpUcal : Option (List Byte)
  devLock : Bool
  /-- Bytes of the boot flash that are not 0xFF (R533). -/
  flash : List Host.Cell
  /-- The user calibration set accepted last (R550, R551). -/
  calBytes : List Byte
  boot : BootX
  upd : Option UpdX
  /-- The digest of the supervisor's consent (R546). -/
  consent : Option (List Byte)
  deriving DecidableEq, Repr

/-- The device right after reset (R594, the register tables): registers, memories and marks list nothing, so
that each reads its reset value. -/
def State.reset : State where
  pending := []
  free := 0
  part := ⟨false, false, 96⟩
  regs := []
  mem := []
  voids := []
  hostMem := []
  marks := []
  wide := []
  out := []
  call := ⟨0, []⟩
  callCtx := none
  pendCalls := []
  claims := []
  accErr := none
  addrErr := none
  rates := []
  ucbs := []
  clients := []
  qcache := []
  watches := []
  reservs := []
  gangs := []
  ctxs := []
  gauge := ⟨0, 0, none, none, 0, 0⟩
  tlb := []
  faults := []
  health := []
  healthSeen := []
  pfBusMaster := false
  wdFifo := []
  wdHard := false
  banks := []
  rows := []
  bankMap := []
  spareRows := []
  copies := []
  banksOut := []
  maintDue := []
  locks := []
  severed := []
  held := []
  parcels := []
  reply := ⟨false, []⟩
  doneFifo := []
  spareRelease := []
  pwr := ⟨5, 0, none, none, [], 0, none, 0, [], []⟩
  sbOn := []
  rtx := []
  rtags := []
  rchunks := []
  rgrants := []
  rwaits := []
  rbad := []
  rstuck := []
  cmps := []
  pulses := []
  caps := []
  ptp := ⟨false, [], 0, 0, 0, 0, 0⟩
  ethQ := []
  ethBusy := []
  qbv := []
  genRings := []
  cans := []
  encs := []
  loops := []
  lcores := []
  trigN := []
  pwmShadow := []
  tbAt := []
  takingOver := []
  txWords := []
  txFirst := []
  rxWords := []
  gateSet := []
  wd := ⟨false, 0, true, [], [], [], 0, List.replicate 8 0, 0, 0, 0, false, [], 0, false, none, [], [], [], true, 0, false⟩
  domOff := []
  lawLast := 0
  calSet := []
  calOn := []
  lastRun := []
  maintHold := none
  maintNs := 0
  loads := []
  links := []
  ring := ⟨none, [], false, false, [], false, []⟩
  vats := []
  pps := []
  sensors := []
  feeds := []
  mpActive := 0
  spPause := false
  temps := []
  inject := []
  stores := []
  psumBad := []
  xlInval := none
  mbLast := 35
  mbDiscard := []
  images := []
  otpRevoke := 0
  otpSvn := [0, 0, 0, 0, 0, 0, 0]
  otpUcal := none
  devLock := true
  flash := []
  calBytes := []
  boot := ⟨0, false, [], false⟩
  upd := none
  consent := none

/-- Why the machine stops (notes/assumptions/2.md). No command of the block ends a run, so nothing raises it. -/
inductive Fault where
  /-- Raised by nothing: kept so that a stop could be named. Safe. -/
  | stopped
  deriving DecidableEq, Repr

/-- Why a command has no meaning. -/
inductive Refusal where
  /-- Raised by an arm of exec whose command has not been modelled. Safe. -/
  | notModelled (mnemonic : String)
  deriving DecidableEq, Repr

/-- What a command answers. -/
abbrev Out := Host.Outcome State Fault Refusal

end Sys2Proof.Machine
end

