-- ==== Sys2Proof/Machine/Ops.lean ====
section
/-! DEFINITION. The named operations over registers, memory, marks, claims and call results. -/
namespace Sys2Proof.Machine

/-! ### Registers -/

/-- The register at offset off of block u (R12). -/
def State.rd (s : State) (u off : Nat) : Word := SMap.get (regReset s.part) (rk u off) s.regs

/-- Store a register. -/
def State.wr (s : State) (u off : Nat) (v : Word) : State :=
  { s with regs := SMap.set (regReset s.part) (rk u off) v s.regs }

/-- Store a register by its key. -/
def State.wrK (s : State) (key : Nat) (v : Word) : State :=
  { s with regs := SMap.set (regReset s.part) key v s.regs }

/-- A register by its key. -/
def State.rdK (s : State) (key : Nat) : Word := SMap.get (regReset s.part) key s.regs

/-- Bits hi:lo of a register. -/
def State.fld (s : State) (u off hi lo : Nat) : Nat := bits (s.rd u off) hi lo

/-- Bit i of a register. -/
def State.flag (s : State) (u off i : Nat) : Bool := bit (s.rd u off) i

/-- Set bits hi:lo of a register. -/
def State.setFld (s : State) (u off hi lo v : Nat) : State := s.wr u off (setBits (s.rd u off) hi lo v)

/-- Set bit i of a register. -/
def State.setFlag (s : State) (u off i : Nat) (b : Bool) : State := s.setFld u off i i (b2n b)

/-- Count up the field hi:lo of a register, saturating. -/
def State.countF (s : State) (u off hi lo k : Nat) : State := s.wr u off (countBits (s.rd u off) hi lo k)

/-- Count up a whole register, saturating. -/
def State.count (s : State) (u off k : Nat) : State := s.countF u off 31 0 k

/-- Raise a register to at least v (the …_MAX registers). -/
def State.maxTo (s : State) (u off v : Nat) : State :=
  if (s.rd u off).toNat < v then s.wr u off (w32 v) else s

/-- Read an RC register: its value, then its reset value (R13). -/
def State.readRC (s : State) (u off : Nat) : Word × State :=
  (s.rd u off, s.wr u off (regReset s.part (rk u off)))

/-- Read and clear several RC registers. -/
def State.readRCs (s : State) (u : Nat) : List Nat → List Word × State
  | [] => ([], s)
  | off :: t =>
    let r := s.readRC u off
    let r' := r.2.readRCs u t
    (r.1 :: r'.1, r'.2)

/-- Read several registers. -/
def State.rds (s : State) (u : Nat) (offs : List Nat) : List Word := offs.map (s.rd u)

/-- A free-running 64-bit counter whose low register lies at offset off of u. -/
def State.wide64 (s : State) (u off : Nat) : Nat := SMap.get (fun _ => 0) (rk u off) s.wide

/-- Count up a 64-bit counter, mod 2^64; its low register shows the low word. -/
def State.countWide (s : State) (u off k : Nat) : State :=
  let v := (s.wide64 u off + k) % 2 ^ 64
  { s with wide := SMap.set (fun _ => 0) (rk u off) v s.wide }.wr u off (w32 v)

/-- Set a 64-bit counter. -/
def State.setWide (s : State) (u off v : Nat) : State :=
  { s with wide := SMap.set (fun _ => 0) (rk u off) v s.wide }.wr u off (w32 v)

/-! ### Unit control blocks -/

/-- Word k of a unit's control block (R30, R33). -/
def State.ucb (s : State) (u k : Nat) : Word := s.rdK (ucbKey u k)
/-- Store word k of a unit's control block. -/
def State.setUcb (s : State) (u k : Nat) (v : Word) : State := s.wrK (ucbKey u k) v
/-- UCB_STATE.STATE: 0 In service, 1 Draining, 2 Out, 3 Test (R34). -/
def State.ustate (s : State) (u : Nat) : Nat := bits (s.ucb u 2) 1 0
/-- Set bits of UCB_EVENT. -/
def State.ucbEvent (s : State) (u mask : Nat) : State :=
  s.setUcb u 9 (BitVec.ofNat 32 ((s.ucb u 9).toNat ||| mask))
/-- What the control block remembers beside its words. -/
def State.urun (s : State) (u : Nat) : UcbRun := SMap.get (fun _ => ⟨false, false, false, 0, none⟩) u s.ucbs
/-- Store what the control block remembers. -/
def State.setUrun (s : State) (u : Nat) (r : UcbRun) : State :=
  { s with ucbs := SMap.set (fun _ => ⟨false, false, false, 0, none⟩) u r s.ucbs }

/-! ### Units, nesting, claims -/

/-- A unit exists and is enabled: in the grade, and formed when it is a gang or the ring (R3, R32, R42). -/
def State.exists? (s : State) (u : Nat) : Bool :=
  match unitClass u with
  | none => false
  | some .gang => s.gangs.any fun g => uGang g.g = u && g.stage != .forming
  | some .ring => s.fld uRing 0x200 11 8 != 0
  | some _ => !fusedOff s.part u

/-- The unit that a unit is nested in now, by its UCB_PARENT (R33, R38). -/
def State.parent (s : State) (u : Nat) : Option Nat :=
  if bit (s.ucb u 1) 31 then some (bits (s.ucb u 1) 12 0) else none

/-- A unit and every unit it is nested in, at most n levels up. -/
def State.up (s : State) (u : Nat) : Nat → List Nat
  | 0 => [u]
  | n + 1 => match s.parent u with
    | none => [u]
    | some p => u :: s.up p n

/-- The claim that covers a unit: on it or on a unit it is nested in (R6). -/
def State.claimOn (s : State) (u : Nat) : Option Claim :=
  s.claims.find? fun c => (s.up u 3).contains c.unit

/-- Another initiator's claim covers the unit (R7). -/
def State.foreignClaim (s : State) (ini u : Nat) : Bool :=
  match s.claimOn u with
  | none => false
  | some c => c.ini != ini

/-- The unit is under an expert claim: service calls that would change it return CLAIMED, whoever calls (R7). -/
def State.claimed (s : State) (u : Nat) : Bool := (s.claimOn u).isSome

/-! ### Memory -/

/-- What an unlisted address reads as: unspecified inside a range that lost its contents, 0 in one that was zeroed, else
0 (DESIGN CHOICE, notes/assumptions/3.md). -/
def memDef (voids : List (Nat × Nat × Nat)) (a : Nat) : Byte :=
  match voids.find? fun v => v.1 ≤ a && a < v.1 + v.2.1 with
  | some v => if v.2.2 = 0 then 0 else Config.voidByte v.2.2 a
  | none => 0
/-- A byte of Polder or LPDDR4X. -/
def State.byte (s : State) (a : Nat) : Byte := SMap.get (memDef s.voids) a s.mem
/-- Store a byte. -/
def State.setByte (s : State) (a : Nat) (b : Byte) : State :=
  { s with mem := SMap.set (memDef s.voids) a b s.mem }
/-- The contents of n bytes from a become unspecified. -/
def State.voidMem (s : State) (a n : Nat) : State :=
  if n = 0 then s
  else { s with
    mem := s.mem.filter fun e => e.1 < a || a + n ≤ e.1
    voids := (a, n, s.free + 1) :: s.voids.filter fun v => !(a ≤ v.1 && v.1 + v.2.1 ≤ a + n)
    free := s.free + 1 }
/-- n bytes from a become 0. -/
def State.zeroMem (s : State) (a n : Nat) : State :=
  if n = 0 then s
  else
    let keep := s.voids.filter fun v => !(a ≤ v.1 && v.1 + v.2.1 ≤ a + n)
    let meets := keep.any fun v => v.1 < a + n && a < v.1 + v.2.1
    { s with
      mem := s.mem.filter fun e => e.1 < a || a + n ≤ e.1
      voids := if meets then (a, n, 0) :: keep else keep }
/-- n bytes from a. -/
def State.bytes (s : State) (a n : Nat) : List Byte := (List.range n).map fun i => s.byte (a + i)
/-- Store bytes from a on. -/
def State.setBytes (s : State) (a : Nat) : List Byte → State
  | [] => s
  | b :: t => (s.setByte a b).setBytes (a + 1) t
/-- The little-endian number of n bytes at a (R11). -/
def State.rdN (s : State) (a n : Nat) : Nat := bytesNat (s.bytes a n)
/-- The 32-bit word at a. -/
def State.rdW (s : State) (a : Nat) : Word := BitVec.ofNat 32 (s.rdN a 4)
/-- Store the low n bytes of v at a. -/
def State.wrN (s : State) (a n v : Nat) : State := s.setBytes a (natBytes n v)
/-- n words at a. -/
def State.rdWs (s : State) (a n : Nat) : List Word := (List.range n).map fun i => s.rdW (a + 4 * i)
/-- Store words at a. -/
def State.wrWs (s : State) (a : Nat) (l : List Word) : State :=
  s.setBytes a (l.flatMap fun w => natBytes 4 w.toNat)

/-- A byte of host memory, by PCIe address. -/
def State.hostByte (s : State) (a : Nat) : Byte := SMap.get (fun _ => 0) a s.hostMem
def State.setHostByte (s : State) (a : Nat) (b : Byte) : State :=
  { s with hostMem := SMap.set (fun _ => 0) a b s.hostMem }
def State.setHostBytes (s : State) (a : Nat) : List Byte → State
  | [] => s
  | b :: t => (s.setHostByte a b).setHostBytes (a + 1) t

/-- The ranges of R41. -/
inductive Region where
  | polder | marks | qcache | regs | lpddr | host | remote (pos off : Nat) | none
  deriving DecidableEq, Repr

/-- Reachable LPDDR4X bytes: 15/16 of the installed devices (R42, R567). -/
def reachable (p : Part) : Nat := p.lpddrGiB * 2 ^ 30 / 16 * 15

/-- The range of R41 that an address lies in; LPDDR4X only up to the reachable capacity (R42). -/
def regionOf (p : Part) (a : Nat) : Region :=
  if a < 0x10000000 then .polder
  else if a < 0x10040000 then .marks
  else if 0x18000000 ≤ a && a < 0x18080000 then .qcache
  else if 0x20000000 ≤ a && a < 0x40000000 then .regs
  else if 0x100000000 ≤ a && a < 0x100000000 + reachable p then .lpddr
  else if 0x10000000000 ≤ a && a < 0x20000000000 then .host
  else if 0x20000000000 ≤ a && a < 0xA0000000000 then
    .remote ((a - 0x20000000000) / 0x10000000000) ((a - 0x20000000000) % 0x10000000000)
  else .none

/-- Every byte of a range lies in one region that p accepts. -/
def inRegion (p : Part) (a n : Nat) (ok : Region → Bool) : Bool :=
  ok (regionOf p a) && (n = 0 || regionOf p (a + n - 1) = regionOf p a)

/-- An address error of R42: recorded with the initiator. -/
def State.addrError (s : State) (ini a : Nat) : State := { s with addrErr := some (ini, a) }

/-- A register-access error of R8: recorded with initiator, address and cause. -/
def State.accError (s : State) (ini a : Nat) (c : AccCause) : State := { s with accErr := some ⟨ini, a, c⟩ }

/-! ### Marks (R255, R256) -/

def State.mark (s : State) (m : Nat) : Nat := (SMap.get (fun _ => (0 : Word)) m s.marks).toNat
def State.putMark (s : State) (m v : Nat) : State :=
  { s with marks := SMap.set (fun _ => 0) m (w32 v) s.marks }

/-! ### Service calls (R10, R501) -/

def OK : Nat := 0
def RANGE : Nat := 1
def REFUSED : Nat := 2
def CLAIMED : Nat := 3
def NO_UNIT : Nat := 4
def PENDING : Nat := 5
def DENIED : Nat := 6
def UNIT_BUSY : Nat := 0x01B0
def MB_FULL : Nat := 0x01B2
def RETRY : Nat := 0x01B3

/-- Argument word i of a call, 0 beyond the last. -/
def arg (args : List Word) (i : Nat) : Nat := (nth args i 0).toNat
/-- A 48-bit address in argument words i and i + 1, low word first. -/
def argAddr (args : List Word) (i : Nat) : Nat := arg args i + 2 ^ 32 * (arg args (i + 1) % 2 ^ 16)

/-- The call returns a status and result words. -/
def State.ret (s : State) (status : Nat) (words : List Word := []) : State :=
  { s with call := ⟨status, words⟩ }

/-- A call returns PENDING: remembered with what it waits for (R502). -/
def State.retPending (s : State) (num key : Nat) (words : List Word := []) : State :=
  { s.ret PENDING words with pendCalls := s.pendCalls ++ [⟨s.callCtx, num, key, none, []⟩] }

/-- A call of the same number that waits for the same object is still in progress. -/
def State.callWaits (s : State) (num key : Nat) : Bool :=
  s.pendCalls.any fun c => c.num = num && c.key = key && c.fin.isNone

/-- What a PENDING call waits for has happened: its final status is known (R502). -/
def State.finish (s : State) (num key status : Nat) (words : List Word := []) : State :=
  { s with pendCalls := s.pendCalls.map fun c =>
      if c.num = num && c.key = key && c.fin.isNone then { c with fin := some status, res := words } else c }

/-- Whether a command may change a unit by a service call: 0, or the status that stops it (R3, R7, R10). -/
def State.mayChange (s : State) (u : Nat) : Nat :=
  if !s.exists? u then NO_UNIT else if s.claimed u then CLAIMED else OK

/-- An address as two result words, low word first. -/
def addrWords (a : Nat) : List Word := [w32 a, w32 (a / 2 ^ 32 % 2 ^ 16)]

/-- Send something out. -/
def State.emit (s : State) (k : OutKind) (port : Nat) (data : List Nat) : State :=
  { s with out := ⟨k, port, data⟩ :: s.out }

/-! ### Free values -/

/-- A 32-bit value that the spec leaves open, and the state after drawing it. -/
def State.fresh (s : State) : Word × State := (Config.freeWord s.free, { s with free := s.free + 1 })

/-- A choice among n possibilities that the spec leaves open. -/
def State.freshNat (s : State) (n : Nat) : Nat × State :=
  (Config.freeNat s.free % n, { s with free := s.free + 1 })

/-! ### Stores inside the units (R81, R135, R131) -/

/-- Bytes of a unit's store: a tile's A, B and scale stages, both halves, then its accumulator banks and its PE registers;
a vector engine's register file; both halves of a toe engine's weight store. -/
def storeSize (u : Nat) : Nat :=
  match unitClass u with
  | some .tile => 188416
  | some .spareTile => 188416
  | some .ve => 65536
  | some .te => 262144
  | _ => 0

/-- A byte of a unit's store: what no rule states is free, and zero is what reset leaves (DESIGN CHOICE,
notes/assumptions/153.md). -/
def State.storeByte (s : State) (u k : Nat) : Byte :=
  let n := SMap.get (fun _ => 0) u s.stores
  if n = 0 || storeSize u ≤ k then 0 else Config.voidByte n k

/-- The stores of units take contents that no rule states. -/
def State.disturb (s : State) (us : List Nat) : State :=
  us.foldl (fun s u => { s with stores := SMap.set (fun _ => 0) u (s.free + 1) s.stores, free := s.free + 1 }) s

/-! ### Small list operations over structured state -/

/-- Replace the first element that p accepts by f of it. -/
def updFirst {α : Type} (p : α → Bool) (f : α → α) : List α → List α
  | [] => []
  | a :: t => if p a then f a :: t else a :: updFirst p f t

/-- The cached descriptor of a queue. -/
def State.slot (s : State) (q : Nat) : Option QSlot := s.qcache.find? (·.id = q)
def State.updSlot (s : State) (q : Nat) (f : QSlot → QSlot) : State :=
  { s with qcache := updFirst (·.id = q) f s.qcache }
/-- The command running in a context. -/
def State.run (s : State) (x : Ctx) : Option CtxRun := s.ctxs.find? (·.ctx = x)
def State.updRun (s : State) (x : Ctx) (f : CtxRun → CtxRun) : State :=
  { s with ctxs := updFirst (·.ctx = x) f s.ctxs }
def ClientX.init : ClientX := ⟨0, true, 0, false, false, false, none⟩
def State.clientX (s : State) (c : Nat) : ClientX := SMap.get (fun _ => ClientX.init) c s.clients
def State.setClientX (s : State) (c : Nat) (x : ClientX) : State :=
  { s with clients := SMap.set (fun _ => ClientX.init) c x s.clients }

/-- Gauge nanoseconds and seconds now (R461). -/
def State.gaugeNs (s : State) : Nat := s.gauge.sub / 2 ^ 28
def State.gaugeS (s : State) : Nat := s.gauge.sec
/-- Gauge time as nanoseconds since 0. -/
def State.nowNs (s : State) : Nat := s.gauge.sec * 10 ^ 9 + s.gaugeNs

/-! ### Reports to the Warden and the safe state in hardware (R403, R422, R423, R446) -/

def pwmOff (c : Nat) : Nat := 0x1440 + 8 * c

/-- The enabled channels among some, each with the channel it drives as its complement
(DESIGN CHOICE, notes/assumptions/218.md). -/
def State.pwmDrives (s : State) (cs : List Nat) : List Nat :=
  ((cs.filter fun c => s.flag uMill (pwmOff c) 31).flatMap fun c =>
    if s.flag uMill (pwmOff c) 25 then [c, c + 1] else [c]).eraseDups

/-- Enabled PWM channels go to SAFE_LEVEL, and so do the channels they are paired with (R403). -/
def State.pwmSafe (s : State) (cs : List Nat) : State :=
  (s.pwmDrives cs).foldl (fun s c => s.emit .pwm c [2, b2n (s.flag uMill (pwmOff c) 29)]) s

def State.setWdX (s : State) (f : WdX → WdX) : State := { s with wd := f s.wd }

/-- Drive both SAFE_STOP pins to run or to stop; the balls follow (R446, R458). -/
def State.pins (s : State) (run : Bool) : State :=
  let s := (s.wr uWarden 0x254 (if run then 0xA else 0x5)).setFlag uWarden 0x200 28 (!run)
  let s : State := { s with wd := { s.wd with failing := s.wd.failing.filter (·.1 != 0x17) } }
  s.emit .pin 0 [b2n run]

/-- The safe state, asserted in hardware. -/
def State.hardSafe (s : State) : State := (s.pins false).pwmSafe (List.range 48)

/-- A report enters the Warden's FIFO of 256; an overflow asserts the safe state in hardware (R423). -/
def State.wdReport (s : State) (check item value : Nat) : State :=
  if s.wdFifo.length < 256 then { s with wdFifo := s.wdFifo ++ [⟨check, item, value⟩] }
  else if s.wdHard then s else { s.hardSafe with wdHard := true }

/-! ### Firewalls (R449) -/

/-- The enabled firewall entries that cover an address. -/
def State.fwCovering (s : State) (a : Nat) : List Nat :=
  (List.range 32).filter fun f =>
    let b := 0xA00 + 16 * f
    let base := s.fld uWarden b 31 12 * 2 ^ 12 + 2 ^ 32 * s.fld uWarden (b + 4) 15 0
    s.flag uWarden b 0 && base ≤ a && a < base + s.fld uWarden (b + 8) 19 0 * 4096

/-- A covering entry allows the access. -/
def State.fwEntryAllows (s : State) (ini : Nat) (write : Bool) (f : Nat) : Bool :=
  let w := 0xA0C + 16 * f
  s.flag uWarden w (if write then 30 else 31) && idMatch (s.fld uWarden w 9 0) (s.fld uWarden w 29 20) ini

/-- The firewalls allow an access; the Warden is exempt. -/
def State.fwAllows (s : State) (ini a : Nat) (write : Bool) : Bool :=
  ini = 0x49 || (let l := s.fwCovering a; l.isEmpty || l.any (s.fwEntryAllows ini write))

/-- Record a firewall refusal; the check FIREWALL fails. -/
def State.fwRefuse (s : State) (ini a : Nat) (write : Bool) : State :=
  let f := (s.fwCovering a).headD 0
  let v := 2 ^ 31 + b2n write * 2 ^ 30 + ini % 2 ^ 10 * 2 ^ 20 + f % 32
  ((s.wr uWarden 0x244 (w32 v)).count uWarden 0x248 1).wdReport 0x12 f 0

/-! ### Calibration boundaries (R549, R551) -/

/-- Calibration parameters that a boundary reaches take their accepted deltas. -/
def State.calApply (s : State) (hit : Nat → Bool) : State :=
  let on := (s.calSet.filter fun e => hit e.1).foldl (fun l e => SMap.set (fun _ => 0) e.1 e.2 l) (s.calOn.filter fun e => !hit e.1)
  ({ s with calOn := on }).setFlag uTrust 0x120 30 (on != s.calSet)

/-- Parameters of a class (PARAM 15:12) of a unit. -/
def calKeyOf (u cls : Nat) (k : Nat) : Bool := k / 65536 = u && k % 65536 / 4096 = cls

end Sys2Proof.Machine
end

