-- ==== Sys2Proof/Machine/Xlate.lean ====
section
/-! DEFINITION. The translation unit: contexts, walks, the TLB, faults (R493–R497). -/
namespace Sys2Proof.Machine

/-- The causes of R495. -/
def xlNotValid : Nat := 1
def xlNoRead : Nat := 2
def xlNoWrite : Nat := 3
def xlMalformed : Nat := 4
def xlNoRoot : Nat := 5
def xlTableError : Nat := 6

/-- The L1 address of a client's root, when enabled (R493, R506). -/
def State.xlRoot (s : State) (client : Nat) (mem : Bool) : Option Nat :=
  let off := if mem then 0x10C else 0x104
  if s.flag (wXl client) off 0 then
    some (s.fld (wXl client) off 31 13 * 2 ^ 13 + 2 ^ 32 * s.fld (wXl client) (off + 4) 15 0)
  else none

/-- A 64-bit table entry, read from LPDDR4X; none when the table read fails. -/
def State.xlEntry (s : State) (a : Nat) : Option Nat :=
  if regionOf s.part a = .lpddr then some (s.rdN a 8) else none

/-- ADDR of a table entry. -/
def xlAddr (e : Nat) : Nat := e / 2 ^ 12 % 2 ^ 40 * 2 ^ 12
def xlV (e : Nat) : Bool := e % 2 = 1
def xlR (e : Nat) : Bool := e / 2 % 2 = 1
def xlW (e : Nat) : Bool := e / 4 % 2 = 1
def xlLeaf (e : Nat) : Bool := e / 8 % 2 = 1
def xlCont (e : Nat) : Bool := e / 16 % 2 = 1
/-- A reserved bit of a table entry is set: 63:52 or 11:5. -/
def xlReserved (e : Nat) : Bool := e / 2 ^ 52 != 0 || e / 2 ^ 5 % 2 ^ 7 != 0

/-- The right that an access needs of a leaf. -/
def xlRights (e : Nat) (write : Bool) : Nat :=
  if write then (if xlW e then 0 else xlNoWrite) else if xlR e then 0 else xlNoRead

/-- A walk's outcome: the cause of R495 (0 for none), and the translation. -/
structure Walk where
  cause : Nat
  input : Nat
  output : Nat
  size : Nat
  r : Bool
  w : Bool

def Walk.fail (c : Nat) : Walk := ⟨c, 0, 0, 0, false, false⟩

/-- The last level: a 4 KiB page, or one of sixteen entries of a 64 KiB page (R494). -/
def State.walkL3 (s : State) (l3 input : Nat) (write : Bool) : Walk :=
  let idx := input / 2 ^ 12 % 2 ^ 9
  match s.xlEntry (l3 + 8 * idx) with
  | none => .fail xlTableError
  | some e =>
    if !xlV e then .fail xlNotValid
    else if xlReserved e || !xlLeaf e then .fail xlMalformed
    else if xlCont e then
      let base := idx / 16 * 16
      let es := (List.range 16).map fun i => s.xlEntry (l3 + 8 * (base + i))
      let start := xlAddr ((nth es 0 none).getD 0)
      if es.any (·.isNone) then .fail xlTableError
      else if es.any fun x => !xlV (x.getD 0) then .fail xlNotValid
      else if start % 2 ^ 16 != 0 || (List.range 16).any fun i =>
          let x := (nth es i none).getD 0
          xlReserved x || !xlCont x || !xlLeaf x || xlR x != xlR e || xlW x != xlW e || xlAddr x != start + 0x1000 * i
        then .fail xlMalformed
      else if xlRights e write != 0 then .fail (xlRights e write)
      else ⟨0, input / 2 ^ 16 * 2 ^ 16, start, 2 ^ 16, xlR e, xlW e⟩
    else if xlRights e write != 0 then .fail (xlRights e write)
    else ⟨0, input / 2 ^ 12 * 2 ^ 12, xlAddr e, 2 ^ 12, xlR e, xlW e⟩

/-- The middle level: a 2 MiB page or an L3 table (R494). -/
def State.walkL2 (s : State) (l2 input : Nat) (write : Bool) : Walk :=
  match s.xlEntry (l2 + 8 * (input / 2 ^ 21 % 2 ^ 9)) with
  | none => .fail xlTableError
  | some e =>
    if !xlV e then .fail xlNotValid
    else if xlReserved e || xlCont e then .fail xlMalformed
    else if xlLeaf e then
      if xlAddr e % 2 ^ 21 != 0 then .fail xlMalformed
      else if xlRights e write != 0 then .fail (xlRights e write)
      else ⟨0, input / 2 ^ 21 * 2 ^ 21, xlAddr e, 2 ^ 21, xlR e, xlW e⟩
    else s.walkL3 (xlAddr e) input write

/-- A walk of three levels from a client's root (R494). -/
def State.walk (s : State) (client : Nat) (mem : Bool) (input : Nat) (write : Bool) : Walk :=
  match s.xlRoot client mem with
  | none => .fail xlNoRoot
  | some l1 =>
    match s.xlEntry (l1 + 8 * (input / 2 ^ 30 % 2 ^ 10)) with
    | none => .fail xlTableError
    | some e =>
      if !xlV e then .fail xlNotValid
      else if xlReserved e || xlCont e || xlLeaf e then .fail xlMalformed
      else s.walkL2 (xlAddr e) input write

/-- Record a translation fault (R497, R506). -/
def State.xlFault (s : State) (client : Nat) (mem : Bool) (input : Nat) (write : Bool) (cause : Nat) : State :=
  let v := 2 ^ 31 + b2n write * 2 ^ 30 + b2n mem * 2 ^ 29 + cause * 2 ^ 26 + client % 2 ^ 12 * 2 ^ 12
  (((s.wr uXlate 0x128 (w32 v)).wr uXlate 0x12C (w32 input)).wr uXlate 0x130 (w32 (input / 2 ^ 32 % 256))).count
    uXlate 0x134 1

/-- Translate an input address of a client (R493, R494, R496): the cause of R495 or 0, and the output. A held
translation is used as it is; a walk counts in XL_TLB_MISS and is held, in at most 4,096 entries. -/
def State.translate (s : State) (client : Nat) (mem : Bool) (input : Nat) (write : Bool) : State × Nat × Nat :=
  match s.tlb.find? fun t => t.client = client && t.memRoot = mem && t.input ≤ input && input < t.input + t.size with
  | some t =>
    let c := if write then (if t.w then 0 else xlNoWrite) else if t.r then 0 else xlNoRead
    if c = 0 then (s, 0, t.output + (input - t.input))
    else (s.xlFault client mem input write c, c, 0)
  | none =>
    let w := s.walk client mem input write
    let s := s.count uXlate 0x138 1
    if w.cause = 0 then
      ({ s with tlb := (⟨client, mem, w.input, w.output, w.size, w.r, w.w⟩ :: s.tlb).take 4096 }, 0,
        w.output + (input - w.input))
    else (s.xlFault client mem input write w.cause, w.cause, 0)

/-- The PCIe link is up (R504). -/
def State.linkUp (s : State) : Bool := s.flag uPcie 0x100 31

/-- How an access outside the Polder ended: done; a translation fault with its cause; an address error or a
refusal; a host window with the link down (R492); a firewall's refusal (R449). -/
inductive AccRes where
  | ok | xlate (cause : Nat) | addr | linkDown | firewall
  deriving DecidableEq, Repr

/-- The firmware region: the top 16 MiB of the reachable LPDDR4X (R42, R540). -/
def fwRegion (p : Part) (a : Nat) : Bool :=
  0x100000000 + reachable p - 2 ^ 24 ≤ a && a < 0x100000000 + reachable p

/-- An LPDDR4X access at its device address, under the firmware region's rule (R540) and the firewalls (R449). -/
def State.lpddrAt (s : State) (ini a : Nat) (write : Bool) : State × AccRes × Bool × Nat :=
  if fwRegion s.part a && ini != 0x40 && ini != 0x41 then (s.addrError ini a, .addr, false, 0)
  else if s.fwAllows ini a write then (s, .ok, false, a) else (s.fwRefuse ini a write, .firewall, false, 0)

/-- Where an access of a client to LPDDR4X or a host window lands: true for host memory, with the address
there (R493). -/
def State.resolve (s : State) (ini client : Nat) (xlate : Bool) (a : Nat) (write : Bool) :
    State × AccRes × Bool × Nat :=
  match regionOf s.part a with
  | .lpddr =>
    if xlate then
      let (s, c, o) := s.translate client true (a - 0x100000000) write
      if c != 0 then (s, .xlate c, false, 0)
      else if regionOf s.part (0x100000000 + o) = .lpddr then s.lpddrAt ini (0x100000000 + o) write
      else (s.addrError ini (0x100000000 + o), .addr, false, 0)
    else s.lpddrAt ini a write
  | .host =>
    if !s.linkUp then (s, .linkDown, true, 0)
    else
      let (s, c, o) := s.translate client false (a - 0x10000000000) write
      if c != 0 then (s, .xlate c, true, 0) else (s, .ok, true, o)
  | _ => (s.addrError ini a, .addr, false, 0)

/-- Read n bytes, at most up to a page boundary, for a client. -/
def State.extRead (s : State) (ini client : Nat) (xlate : Bool) (a n : Nat) : State × AccRes × List Byte :=
  let (s, r, h, o) := s.resolve ini client xlate a false
  if r = .ok then
    (s, .ok, if h then (List.range n).map fun i => s.hostByte (o + i) else s.bytes o n)
  else (s, r, [])

/-- Write bytes, at most up to a page boundary, for a client. -/
def State.extWrite (s : State) (ini client : Nat) (xlate : Bool) (a : Nat) (l : List Byte) : State × AccRes :=
  let (s, r, h, o) := s.resolve ini client xlate a true
  if r = .ok then ((if h then s.setHostBytes o l else s.setBytes o l), .ok) else (s, r)

end Sys2Proof.Machine
end

