-- ==== Sys2Proof/Machine/Events.lean ====
section
/-! DEFINITION. Clients, events and their routes, reports to the Warden, firewalls (R252–R254, R423, R449, R489, R490). -/
namespace Sys2Proof.Machine

/-! ### Clients (R252) -/

def State.cw (s : State) (c k : Nat) : Word := s.rd (wClient c) (4 * k)
def State.clientValid (s : State) (c : Nat) : Bool := bit (s.cw c 1) 31

/-- The client's ID and ID_MASK cover an initiator. -/
def State.covers (s : State) (c ini : Nat) : Bool :=
  idCovers (bits (s.cw c 1) 9 0) (bits (s.cw c 1) 25 16) ini

/-- The valid clients, ascending. -/
def State.validClients (s : State) : List Nat :=
  s.regs.filterMap fun e =>
    let u := e.1 / 0x10000
    if 0x5000 ≤ u && u < 0x6000 && e.1 % 0x10000 = 4 && bit e.2 31 then some (u - 0x5000) else none

/-- An initiator's client: the lowest-numbered valid one that covers it (R252). -/
def State.clientOf (s : State) (ini : Nat) : Option Nat := s.validClients.find? fun c => s.covers c ini

def State.cRoute (s : State) (c : Nat) : Nat := bits (s.cw c 4) 31 30
def State.cEventAddr (s : State) (c : Nat) : Nat := (s.cw c 2).toNat + 2 ^ 32 * bits (s.cw c 3) 15 0
def State.cEventOrder (s : State) (c : Nat) : Nat := bits (s.cw c 3) 20 16

/-! ### MSI-X (R489, R490) -/

/-- The function that owns a pool vector: 0 the PF, n a VF (R489). -/
def State.vecOwner (s : State) (v : Nat) : Nat :=
  match (span 1 32).find? fun n =>
      let f := s.fld uPcie (0x200 + 8 * (n - 1)) 26 16
      let k := s.fld uPcie (0x200 + 8 * (n - 1)) 7 0
      f ≤ v && v < f + k with
  | some n => n
  | none => 0

/-- Where a vector's table entry lies: its block and offset. -/
def State.vecEntry (s : State) (v : Nat) : Nat × Nat :=
  let n := s.vecOwner v
  if n = 0 then (uPcie, 0x8000 + 16 * v) else (wVf n, 0x1000 + 16 * (v - s.fld uPcie (0x200 + 8 * (n - 1)) 26 16))

/-- Bus Master Enable of a function. -/
def State.busMaster (s : State) (n : Nat) : Bool :=
  if n = 0 then s.pfBusMaster else s.flag uPcie (0x204 + 8 * (n - 1)) 29

/-- Where a vector's pending bit lies: block, offset, bit. -/
def State.vecPba (s : State) (v : Nat) : Nat × Nat × Nat :=
  let n := s.vecOwner v
  if n = 0 then (uPcie, 0x400 + 4 * (v / 32), v % 32)
  else
    let i := v - s.fld uPcie (0x200 + 8 * (n - 1)) 26 16
    (wVf n, 0x1800 + 4 * (i / 32), i % 32)

/-- Send a vector's message, or set its pending bit while it is masked or its function may not master (R490). -/
def State.sendMsix (s : State) (v : Nat) : State :=
  let (u, off) := s.vecEntry v
  if s.flag u (off + 12) 0 || !s.busMaster (s.vecOwner v) then
    let (pu, po, pb) := s.vecPba v
    s.setFlag pu po pb true
  else s.emit .msix v [s.vecOwner v, (s.rd u off).toNat, (s.rd u (off + 4)).toNat, (s.rd u (off + 8)).toNat]

/-! ### Mailbox interrupts (R499, R501, R502) -/

/-- The initiator ID of a mailbox channel (R501). -/
def chanIni (ch : Nat) : Nat :=
  if ch ≤ 32 then 0x100 + ch else if ch = 33 then 0x180 else if ch = 34 then 0x181 else 0x1C0

/-- Set a status bit of SUP_INT; the SDIO interrupt follows its enable (R499). -/
def State.supInt (s : State) (b : Nat) : State :=
  let s := s.setFlag wSdioF1 0x18 b true
  if s.flag wSdioF1 0x18 (16 + b) then s.emit .sdioIrq 1 [b] else s

/-- The interrupt of a channel for a cause: 0 return, 1 DONE, 2 EVENT (R501). -/
def State.chanInt (s : State) (ch cause : Nat) : State :=
  if ch = 33 then s.supInt 3
  else if s.flag (wChan ch) 0x1C 31 && s.flag (wChan ch) 0x1C cause then
    if ch ≤ 32 then s.sendMsix (s.fld (wChan ch) 0x1C 26 16)
    else if ch = 34 then s.emit .sdioIrq 2 [cause] else s
  else s

/-- Signal a client's route (R252, R502): 01 MSI-X, 10 SDIO function 1, 11 the lowest channel it covers. -/
def State.signalRoute (s : State) (c : Nat) : State :=
  match s.cRoute c with
  | 1 => s.sendMsix (bits (s.cw c 4) 10 0)
  | 2 => s.supInt 1
  | 3 => match (List.range 36).find? fun ch => s.covers c (chanIni ch) with
    | some ch => (s.setFlag (wChan ch) 4 29 true).chanInt ch 2
    | none => s
  | _ => s

/-! ### Event rings (R253) -/

/-- The eight words of an event record. -/
def State.eventWords (s : State) (code unit queue seq d0 d1 : Nat) (phase : Bool) : List Word :=
  [w32 (code % 2 ^ 16 + unit % 2 ^ 13 * 2 ^ 16), w32 (b2n phase * 2 ^ 31 + queue % 2 ^ 20), w32 seq, w32 d0, w32 d1,
    w32 s.gaugeNs, w32 s.gaugeS, w32 (s.gaugeS / 2 ^ 32 % 2 ^ 16)]

/-- Records that the ring has room for: one slot always stays empty. -/
def State.eventRoom (s : State) (c : Nat) : Nat :=
  let n := 2 ^ s.cEventOrder c
  (bits (s.cw c 6) 15 0 + n - bits (s.cw c 6) 31 16 % n - 1) % n

/-- Drop an event: EVENTS_LOST and the lost-event count rise (R253). -/
def State.eventDrop (s : State) (c : Nat) : State :=
  let x := s.clientX c
  (s.countF (wClient c) 28 15 0 1).setClientX c { x with lost := x.lost + 1 }

/-- Write one record at EVENT_TAIL and advance it, or drop the event when the write fails (R253, R492, R497). -/
def State.eventWrite (s : State) (c : Nat) (code unit queue seq d0 d1 : Nat) : State × Bool :=
  let n := 2 ^ s.cEventOrder c
  let tail := bits (s.cw c 6) 31 16
  let x := s.clientX c
  let ws := s.eventWords code unit queue seq d0 d1 x.phase
  let (s, r) := s.extWrite 0x50 c false (s.cEventAddr c + 32 * tail) (ws.flatMap fun w => natBytes 4 w.toNat)
  if r = .ok then
    let t' := if tail + 1 < n then tail + 1 else 0
    let s := s.setFld (wClient c) 24 31 16 t'
    (if t' = 0 then s.setClientX c { s.clientX c with phase := !x.phase } else s, true)
  else (s.eventDrop c, false)

/-- The route signals written events at once, and at most once per 1 µs (R253). -/
def State.eventSignal (s : State) (c : Nat) : State :=
  let x := s.clientX c
  if x.hold then s.setClientX c { x with want := true }
  else (s.setClientX c { x with hold := true }).signalRoute c

/-- Post an event to a client (R253), signalled whenever a record, that of the dropped ones included, has been written; an event for a client that is not valid is not written (R596). -/
def State.post (s : State) (c code unit queue seq d0 d1 : Nat) : State :=
  if !s.clientValid c then s
  else if (s.clientX c).lost = 0 then
    if 1 ≤ s.eventRoom c then
      let (s, ok) := s.eventWrite c code unit queue seq d0 d1
      if ok then s.eventSignal c else s
    else s.eventDrop c
  else if 2 ≤ s.eventRoom c then
    let lost := (s.clientX c).lost
    let (s, ok) := s.eventWrite c 0x000C 0x1FFF 0xFFFFF 0 (if lost < 2 ^ 32 then lost else 2 ^ 32 - 1) 0
    if ok then
      let s := s.setClientX c { s.clientX c with lost := 0 }
      (s.eventWrite c code unit queue seq d0 d1).1.eventSignal c
    else s
  else s.eventDrop c

/-- The queue field of an event that names no queue. -/
def noQueue : Nat := 0xFFFFF

/-- Post an event to several clients. -/
def State.postAll (s : State) (code unit d0 d1 : Nat) : List Nat → State
  | [] => s
  | c :: t => (s.post c code unit noQueue 0 d0 d1).postAll code unit d0 d1 t

/-- The clients with route 0b10 or 0b11. -/
def State.routedClients (s : State) : List Nat := s.validClients.filter fun c => 2 ≤ s.cRoute c

/-- Post to the client of an initiator, when it has one. -/
def State.postIni (s : State) (ini code unit d0 d1 : Nat) : State :=
  match s.clientOf ini with
  | some c => s.post c code unit noQueue 0 d0 d1
  | none => s

end Sys2Proof.Machine
end

