-- ==== Sys2Proof/Machine/Faults.lean ====
section
/-! DEFINITION. Fault codes, records, outcomes, unit health (R555, R556, R561, R564, R565, R573). -/
namespace Sys2Proof.Machine

/-! ### Fault codes (R556) -/
def fENTRY_INVALID : Nat := 0x0101
def fBLOCK_INVALID : Nat := 0x0102
def fGEN_MISMATCH : Nat := 0x0103
def fSAME_BITS_BUILD : Nat := 0x0104
def fSAME_BITS_OFF : Nat := 0x0105
def fBUDGET_SHORT : Nat := 0x0106
def fBUDGET_CAP : Nat := 0x0107
def fPROG_DIGEST : Nat := 0x0108
def fOPCODE_INVALID : Nat := 0x0109
def fSHAPE_INVALID : Nat := 0x010A
def fFORMAT_INVALID : Nat := 0x010B
def fRESCALE_INVALID : Nat := 0x010C
def fSCALE_SKEW : Nat := 0x010D
def fWINDOW_MISMATCH : Nat := 0x010E
def fLOCK_INVALID : Nat := 0x010F
def fLOCK_LEFT_OPEN : Nat := 0x0110
def fRIND_OFF : Nat := 0x0111
def fMERGE_MISMATCH : Nat := 0x0112
def fWD_TARGET : Nat := 0x0113
def fWEIGHTS_LIMIT : Nat := 0x0114
def fREMOTE_READ : Nat := 0x0115
def fVAT_JOB_INVALID : Nat := 0x0116
def fAUG_INVALID : Nat := 0x0117
def fPARCEL_DENIED : Nat := 0x0201
def fMARK_DENIED : Nat := 0x0202
def fFIREWALL_DENIED : Nat := 0x0203
def fREMOTE_DENIED : Nat := 0x0204
def fSTAGE_UE : Nat := 0x0301
def fVE_RF_UE : Nat := 0x0302
def fPOLDER_UE : Nat := 0x0303
def fLPDDR_UE : Nat := 0x0304
def fPORT_SEVERED : Nat := 0x0305
def fUNIT_OUT : Nat := 0x0306
def fSEQ_UE : Nat := 0x0307
def fBUDGET_OVERRUN : Nat := 0x0401
def fXLATE_TIMEOUT : Nat := 0x0402
def fHOST_ABORT : Nat := 0x0403
def fLINK_TIMEOUT : Nat := 0x0404
def fLINK_LOST : Nat := 0x0405
def fFEED_OVERRUN : Nat := 0x0406
def fFEED_LOST : Nat := 0x0407
def fVAT_FETCH_TIMEOUT : Nat := 0x0408
def fPROC_FAULT : Nat := 0x0501
def fPROC_WATCHDOG : Nat := 0x0502
def fNO_ANSWER : Nat := 0x0503
def fRATE_ALARM : Nat := 0x0504
def fTEMP_WARN : Nat := 0x0505
def fTEMP_TRIP : Nat := 0x0506
def fRAIL : Nat := 0x0507
def fREFCLK : Nat := 0x0508
def fROW_RETIRED : Nat := 0x0509
def fBANK_SPARED : Nat := 0x050A
def fLINK_DOWN : Nat := 0x050B
def fTEST_FAIL : Nat := 0x050C
def fCE_LIMIT : Nat := 0x050D

/-- Every code of R556. -/
def faultCodes : List Nat :=
  span 0x0101 0x17 ++ span 0x0201 4 ++ span 0x0301 7 ++ span 0x0401 8 ++ span 0x0501 13

/-- The class of a code: 0 P, 1 R, 2 H, 3 E, 4 U (R556, R564). -/
def faultClass (code : Nat) : Nat := code / 0x100 - 1

/-- A command that ends with the code is retried once (R556). -/
def retriedOnce (code : Nat) : Bool := faultClass code = 2 || code = fLINK_TIMEOUT || code = fLINK_LOST

/-! ### Records (R564, R565) -/

/-- OUTCOME encodings. -/
def oNone : Nat := 0
def oPending : Nat := 1
def oTransient : Nat := 2
def oLasting : Nat := 3

def recNum (r : FaultRec) : Nat := (nth r 0 0).toNat
def recCode (r : FaultRec) : Nat := bits (nth r 1 0) 15 0
def recOutcome (r : FaultRec) : Nat := bits (nth r 1 0) 22 20
def recUnit (r : FaultRec) : Nat := bits (nth r 2 0) 12 0
def recAddr (r : FaultRec) : Nat := (nth r 6 0).toNat + 2 ^ 32 * (nth r 7 0).toNat
/-- Gauge time of a record as nanoseconds since 0. -/
def recTime (r : FaultRec) : Nat :=
  ((nth r 12 0).toNat + 2 ^ 32 * (nth r 13 0).toNat) * 10 ^ 9 + (nth r 11 0).toNat

/-- The client that receives fault events (R575). -/
def State.fltClient (s : State) : Nat := s.fld uFault 0x108 11 0

/-- SAME_BITS.ACTIVE (R271). -/
def State.sbActive (s : State) : Bool := s.flag uDevctl 0x400 30

/-- Post FAULT_RECORD (event 0x0070) for a record. -/
def State.postRecord (s : State) (r : FaultRec) : State :=
  s.post s.fltClient 0x0070 (recUnit r) noQueue 0 (recNum r) (recCode r + 2 ^ 16 * recOutcome r)

def HealthX.init : HealthX := ⟨0, 0, false, false⟩
def State.healthX (s : State) (u : Nat) : HealthX := SMap.get (fun _ => HealthX.init) u s.health
def State.setHealthX (s : State) (u : Nat) (h : HealthX) : State :=
  { s with health := SMap.set (fun _ => HealthX.init) u h s.health }

/-- The members that a group's health and state are taken from (R38): tiles, sequencer and vector engine of
a cluster, the clusters of a gang. -/
def State.members (s : State) (u : Nat) : List Nat :=
  match unitClass u with
  | some .tc => (span (uTile (u - 0x10) 0) 9) ++ [uVE (u - 0x10), uCS (u - 0x10)]
  | some .gang => (setIndices 6 (s.fld u 0x200 5 0)).map uTC
  | _ => []

/-- A spare stands in for the unit. -/
def State.stoodFor (s : State) (u : Nat) : Bool :=
  match unitClass u with
  | some .tile =>
    let sp := u - u % 16 + 8
    bit (s.ucb sp 6) 30 && bits (s.ucb sp 6) 12 0 = u
  | _ => false

/-- Health of a unit from its own records: 0 GOOD, 1 SUSPECT, 2 DEGRADED, 3 FAILED (R573). -/
def State.ownHealth (s : State) (u : Nat) : Nat :=
  let h := s.healthX u
  if h.failed && s.ustate u != 0 then 3
  else if h.trans > 0 then 2
  else if s.faults.any fun r => recUnit r = u && recOutcome r = oPending then 1
  else 0

/-- Health of a unit; a group takes the worst of its members, a member with a spare standing in counting as
DEGRADED (R573). -/
def State.healthOf (s : State) (u : Nat) : Nat → Nat
  | 0 => s.ownHealth u
  | n + 1 => (s.members u).foldl
      (fun a m => max a (if s.stoodFor m then 2 else s.healthOf m n)) (s.ownHealth u)

/-- The units whose health may have changed: those with records or a history, the clusters and the gangs. -/
def State.healthUnits (s : State) : List Nat :=
  s.health.map (·.1) ++ (s.faults.filter fun r => recOutcome r = oPending).map recUnit ++ s.healthSeen.map (·.1) ++
    span (uTC 0) 6 ++ span (uGang 0) 3

/-- HEALTH_CHANGE (event 0x0071) for every unit whose health is not the one last reported (R573, R576). -/
def State.healthSync (s : State) : State :=
  s.healthUnits.foldl (fun s u =>
    let old := SMap.get (fun _ => 0) u s.healthSeen
    let new := s.healthOf u 2
    if new = old then s
    else ({ s with healthSeen := SMap.set (fun _ => 0) u new s.healthSeen } : State).post s.fltClient 0x0071 u noQueue 0 u
      (old * 256 + new)) s

/-- FLT_STATUS follows the records and the units' states, and changes of health are reported (R575, R576). -/
def State.fltSync (s : State) : State :=
  let anyF := s.health.any fun e => e.2.failed && s.ustate e.1 != 0
  let anyS := s.faults.any fun r => recOutcome r = oPending
  (s.wr uFault 0x100 (w32 (b2n anyF * 2 ^ 31 + b2n anyS * 2 ^ 30 + s.faults.length))).healthSync

/-- Record a fault (R555, R563–R565): a second one of the same code, unit and address within 1 ms raises
REPEATS; otherwise a new record enters the ring of 256. -/
def State.recordFault (s : State) (code unit ini queue seq addr d0 d1 outcome : Nat) : State :=
  let s := s.setUcb unit 10 (countBits (s.ucb unit 10) 15 0 1)
  match s.faults.find? fun r => recCode r = code && recUnit r = unit && recAddr r = addr &&
      s.nowNs ≤ recTime r + 10 ^ 6 with
  | some r =>
    { s with faults := s.faults.map fun x => if recNum x = recNum r then setNth x 10 (countBits (nth x 10 0) 31 0 1) else x }
  | none =>
    let n := (s.rd uFault 0x10C).toNat
    let r : FaultRec := [w32 n, w32 (code + faultClass code * 2 ^ 16 + outcome * 2 ^ 20), w32 (unit + ini % 2 ^ 10 * 2 ^ 16),
      w32 queue, w32 seq, 0, w32 addr, w32 (addr / 2 ^ 32 % 2 ^ 16), w32 d0, w32 d1, 0, w32 s.gaugeNs, w32 s.gaugeS,
      w32 (s.gaugeS / 2 ^ 32 % 2 ^ 16), 0, 0]
    let s := match s.faults.drop 255 with
      | old :: _ => if (s.rd uFault 0x110).toNat ≤ recNum old then s.count uFault 0x118 1 else s
      | [] => s
    let s := { s with faults := (r :: s.faults).take 256 }
    let s := s.wr uFault 0x10C (w32 (n + 1))
    let s := if outcome = oLasting then s.count uFault 0x120 1 else s
    (s.postRecord r).fltSync

/-- The number of the record that a fault just recorded went into. -/
def State.recordOf (s : State) (code unit addr : Nat) : Nat :=
  match s.faults.find? fun r => recCode r = code && recUnit r = unit && recAddr r = addr with
  | some r => recNum r
  | none => 0

/-- Meet an injected fault of a kind in a unit: bit 31 of DETAIL1 when there was one (R574). -/
def State.injected (s : State) (u kind : Nat) : State × Nat :=
  match s.inject.find? fun i => i.1 = u && i.2.1 = kind with
  | some i => ({ s with inject := s.inject.erase i }, 2 ^ 31)
  | none => (s, 0)

/-- The newest record of a code at a unit. -/
def State.findRec (s : State) (code unit : Nat) : Option FaultRec :=
  s.faults.find? fun r => recCode r = code && recUnit r = unit

/-- Change a record's OUTCOME and RETRIED; each change posts FAULT_RECORD (R565). -/
def State.setOutcome (s : State) (n o : Nat) (retried : Bool) : State :=
  match s.faults.find? (recNum · = n) with
  | none => s
  | some r =>
    let w := setBit (setBits (nth r 1 0) 22 20 o) 23 (retried || bit (nth r 1 0) 23)
    let r' := setNth r 1 w
    let s := { s with faults := s.faults.map fun x => if recNum x = n then r' else x }
    (if recOutcome r = o then s else s.postRecord r').fltSync

/-- The Transient limit of R561. -/
def State.transLimit (s : State) : Nat := s.fld uFault 0x104 15 8

/-- What counts towards the Transient limit: records, and every 64 corrected errors as one (R561). -/
def HealthX.gathered (h : HealthX) : Nat := h.trans + h.ce / 64

/-- Store a unit's hour window. Reaching the limit makes its next Transient fault Lasting and records CE_LIMIT (R561). -/
def State.windowNote (s : State) (u : Nat) (h : HealthX) : State :=
  let was := (s.healthX u).gathered
  let s := s.setHealthX u { h with atLimit := h.atLimit || s.transLimit ≤ h.gathered }
  if was < s.transLimit && s.transLimit ≤ h.gathered then s.recordFault fCE_LIMIT u 0x4A noQueue 0 0 0 0 oNone else s

/-- Count a Transient record of a unit in its hour window (R561, R575). -/
def State.countTransient (s : State) (u : Nat) : State :=
  let h := s.healthX u
  ((s.count uFault 0x11C 1).windowNote u { h with trans := h.trans + 1 }).fltSync

/-- Count corrected errors of a unit (R561). -/
def State.countCE (s : State) (u k : Nat) : State :=
  let h := s.healthX u
  s.windowNote u { h with ce := h.ce + k }

/-- A corrected error: its unit's register and hour window count it (R561, R566). -/
def State.corrected (s : State) (u k : Nat) : State :=
  let s := match unitClass u with
    | some .tile => s.countF u 0x114 15 0 k
    | some .spareTile => s.countF u 0x114 15 0 k
    | some .ve => s.countF u 0x120 15 0 k
    | some .bg => s.countF u 0x134 15 0 k
    | some .mch => s.count uFault 0x138 k
    | some .trust => s.countF u 0x130 15 0 k
    | _ => s
  s.countCE u k

/-- An injected single-bit error that a unit's next read meets is corrected (R566, R574). -/
def State.injectedBit (s : State) (u : Nat) : State :=
  match s.injected u 0 with
  | (_, 0) => s
  | (t, _) => t.corrected u 1

end Sys2Proof.Machine
end

