-- ==== Sys2Proof/Machine/Parcels.lean ====
section
/-! DEFINITION. Parcels: the table, rights, refusals, credits, accesses row by row (R211, R215–R223, R235, R238). -/
namespace Sys2Proof.Machine

/-! ### The table (R215) -/

/-- The offset of parcel p's entry in BG0's block. -/
def pclOff (p : Nat) : Nat := 0x1000 + 32 * p
def State.pclLoc (s : State) (p : Nat) : Word := s.rd (uBG 0) (pclOff p)
def State.pclValid (s : State) (p : Nat) : Bool := bit (s.pclLoc p) 31
def State.pclLanding (s : State) (p : Nat) : Bool := bit (s.pclLoc p) 30
def State.pclCreditEn (s : State) (p : Nat) : Bool := bit (s.pclLoc p) 29
/-- First and one-past-last 64 KiB unit. -/
def State.pclBase (s : State) (p : Nat) : Nat := bits (s.pclLoc p) 11 0
def State.pclSize (s : State) (p : Nat) : Nat := bits (s.pclLoc p) 23 12 + 1
def State.pclKind (s : State) (p : Nat) : Nat := s.fld (uBG 0) (pclOff p + 4) 31 30
def State.pclQueue (s : State) (p : Nat) : Nat := s.fld (uBG 0) (pclOff p + 4) 19 0
def State.pclMark (s : State) (p : Nat) : Nat := s.fld (uBG 0) (pclOff p + 8) 15 0
def State.pclAvail (s : State) (p : Nat) : Nat := s.fld (uBG 0) (pclOff p + 12) 18 0
def PclX.init : PclX := ⟨0, 0, false, none⟩
def State.pclX (s : State) (p : Nat) : PclX := SMap.get (fun _ => PclX.init) p s.parcels
def State.setPclX (s : State) (p : Nat) (x : PclX) : State :=
  { s with parcels := SMap.set (fun _ => PclX.init) p x s.parcels }

/-- The valid parcels, ascending. -/
def State.validParcels (s : State) : List Nat :=
  s.regs.filterMap fun e =>
    let off := e.1 % 0x10000
    if e.1 / 0x10000 = uBG 0 && 0x1000 ≤ off && off < 0x9000 && off % 32 = 0 && bit e.2 31 then
      some ((off - 0x1000) / 32) else none

/-- The parcel that holds a Polder address. -/
def State.parcelAt (s : State) (a : Nat) : Option Nat :=
  s.validParcels.find? fun p => s.pclBase p ≤ a / 0x10000 && a / 0x10000 < s.pclBase p + s.pclSize p

/-- A valid parcel's credit mark is m (R222). -/
def State.isCreditMark (s : State) (m : Nat) : Bool :=
  s.validParcels.any fun p => s.pclCreditEn p && s.pclMark p = m

/-! ### Rights (R217) -/

/-- Some rights entry of the parcel has the needed bit and matches the initiator. -/
def State.pclRights (s : State) (p ini : Nat) (write : Bool) : Bool :=
  (List.range 4).any fun i =>
    let o := pclOff p + 0x10 + 4 * i
    s.flag (uBG 0) o (if write then 30 else 31) && idMatch (s.fld (uBG 0) o 9 0) (s.fld (uBG 0) o 29 20) ini

/-- The queue whose command an initiator's context runs. -/
def State.runsQueue (s : State) (ini : Nat) : Option Nat :=
  match s.ctxs.find? fun r => ctxIni r.ctx = ini && !r.ctx.isMill with
  | some r => some r.queue
  | none => none

/-- The client of a queue whose descriptor is held. -/
def State.queueClient (s : State) (q : Nat) : Option Nat :=
  match s.slot q with
  | some x => some (bits (nth x.words 2 0) 27 16)
  | none =>
    let a := s.fld uSched 0x204 31 26 * 2 ^ 26 + 2 ^ 32 * s.fld uSched 0x208 15 0 + 64 * q
    some (bits (s.rdW (a + 8)) 27 16)

/-- The owner condition of R217. -/
def State.pclOwnerOk (s : State) (p ini : Nat) : Bool :=
  if (iniCtx ini).isNone then true
  else match s.pclKind p with
    | 2 => s.runsQueue ini = some (s.pclQueue p)
    | 1 => match s.runsQueue ini with
      | none => false
      | some q => q = s.pclQueue p || s.queueClient q = s.queueClient (s.pclQueue p)
    | _ => true

/-- Press writers, Vats and Axfer remote writers (R213). -/
def creditIni (ini : Nat) : Bool := (0x20 ≤ ini && ini < 0x32) || (0x38 ≤ ini && ini < 0x40)

/-- A call of the Polder's chapter is being served: MP0 and MP1 reach every address (R217, R243). -/
def State.servesPolder (s : State) : Bool := s.pendCalls.any fun c => c.num / 256 = 2 && c.fin.isNone

/-- An initiator's access to one row is allowed (R217, R219, R222). -/
def State.rowAllowed (s : State) (ini a : Nat) (write : Bool) : Bool :=
  if ini = 0x4A || ini = 0x4B || ((ini = 0x40 || ini = 0x41) && s.servesPolder) then true
  else match s.parcelAt a with
    | none => false
    | some p =>
      s.pclRights p ini write && s.pclOwnerOk p ini &&
        (!(write && creditIni ini) || (s.pclKind p = 1 && s.pclCreditEn p))

/-- The rows that n bytes at a touch. -/
def rowsOf (a n : Nat) : List Nat :=
  if n = 0 then [] else (List.range ((a + n - 1) / 64 - a / 64 + 1)).map fun i => (a / 64 + i) * 64

/-- An access is allowed only when every row is (R217). -/
def State.polderAllowed (s : State) (ini a n : Nat) (write : Bool) : Bool :=
  a + n ≤ 0x10000000 && (rowsOf a n).all fun r => s.rowAllowed ini r write

/-- Record a refusal (R218). -/
def State.polderDeny (s : State) (ini a : Nat) (write : Bool) : State :=
  (s.wr (uBG 0) 0x208 (w32 (2 ^ 31 + b2n write * 2 ^ 30 + ini % 2 ^ 10 * 2 ^ 20 + a / 0x10000 % 2 ^ 12))).count (uBG 0) 0x20C 1

/-! ### Requesters (R213, R214)

A requester is named by a number: its initiator ID in bits 9:0 and, above them, the port it uses + 1; with 0 there it uses the
port of its ID, which is the sequencer's vector path for a context of a cluster or a gang, and port 30 for the I/O die. -/

def viaPort (port ini : Nat) : Nat := 1024 * (port + 1) + ini % 1024
/-- The initiator ID of a requester. -/
def reqIni (q : Nat) : Nat := q % 1024
/-- The port of a requester. -/
def State.reqPort (s : State) (q : Nat) : Nat :=
  if 1024 ≤ q then q / 1024 - 1
  else match iniCtx q with
    | some (.general c) => 6 + c
    | some (.realTime c) => 6 + c
    | some (.toe e) => 12 + e
    | some (.gang g) => 6 + (((s.gangs.find? (·.g = g)).bind fun x => lowest 6 fun c => x.members / 2 ^ c % 2 = 1).getD 0)
    | _ => 30

/-! ### Banks and rows (R210, R211, R235) -/

def bankOf (a : Nat) : Nat := a / 2 ^ 10 % 2 ^ 9
/-- The row within its bank. -/
def rowOf (a : Nat) : Nat := a / 2 ^ 19 % 2 ^ 9 * 16 + a / 64 % 16
/-- The physical bank of a logical bank at reset (R210). -/
def physReset (b : Nat) : Nat :=
  if b < 168 then 44 * (b / 42) + b % 42 else 44 * (4 + (b - 168) / 43) + (b - 168) % 43
def State.phys (s : State) (b : Nat) : Nat := SMap.get physReset b s.bankMap
/-- The group whose banks serve a logical bank. -/
def State.groupOf (s : State) (b : Nat) : Nat := s.phys b / 44
def RowX.init : RowX := ⟨false, false, false⟩
/-- The key of the row that an address lies in. -/
def State.rowKey (s : State) (a : Nat) : Nat := s.phys (bankOf a) * 8192 + rowOf a
def State.rowX (s : State) (k : Nat) : RowX := SMap.get (fun _ => RowX.init) k s.rows
def State.setRowX (s : State) (k : Nat) (x : RowX) : State := { s with rows := SMap.set (fun _ => RowX.init) k x s.rows }
def BankX.init : BankX := ⟨[], [], 0, .idle, none, [], []⟩
def State.bank (s : State) (b : Nat) : BankX := SMap.get (fun _ => BankX.init) b s.banks
def State.setBank (s : State) (b : Nat) (x : BankX) : State :=
  { s with banks := SMap.set (fun _ => BankX.init) b x s.banks }

/-- The sluices of banks that a passage or an opening leaves are free again. -/
def State.freeBanks (s : State) (bs : List Nat) : State :=
  bs.foldl (fun s b => s.setBank b { s.bank b with st := .idle, holder := none }) s

/-- POLDER_LOCK follows the openings: the first that is not open, an open passage (R241). -/
def State.lockSync (s : State) : State :=
  let opening := s.locks.find? fun l => !l.isOpen
  s.wr (uBG 0) 0x204 (w32 (b2n opening.isSome * 2 ^ 31 + b2n (s.locks.any (·.isOpen)) * 2 ^ 30 +
    (match opening with | some l => l.ini % 2 ^ 10 | none => 0)))

/-- A poisoned or dead row among those of a range (R235). -/
def State.poisonedIn (s : State) (a n : Nat) : Bool :=
  (rowsOf a n).any fun r => (s.rowX (s.rowKey r)).poisoned

/-- A write that covers a row whole clears its poison, but for a dead row (R235). -/
def State.clearPoison (s : State) (a n : Nat) : State :=
  (rowsOf a n).foldl (fun s r =>
    let x := s.rowX (s.rowKey r)
    if a ≤ r && r + 64 ≤ a + n && !x.dead && x.poisoned then s.setRowX (s.rowKey r) { x with poisoned := false } else s) s

/-- The sluices of a group's banks that are in one state pass to another (R230). -/
def State.sluices (s : State) (g : Nat) (a b : Sluice) : State :=
  (span 0 512).foldl (fun s k =>
    if s.groupOf k = g && (s.bank k).st = a then s.setBank k { s.bank k with st := b } else s) s

/-- A group leaves retention sleep (R230, R238). -/
def State.wakeGroup (s : State) (g : Nat) : State := (s.setFld (uBG g) 0x100 31 30 0).sluices g .asleep .idle

/-- The groups that serve a range. -/
def State.groupsIn (s : State) (a n : Nat) : List Nat := ((rowsOf a n).map fun r => s.groupOf (bankOf r)).eraseDups

/-- An access of an instruction that reaches a sleeping group, one that already wakes included, is counted there once and
completes at the end of its wake; what else the group held completes at its own command or break point (R238;
notes/assumptions/208.md). -/
def State.wakeGroups (s : State) (a n : Nat) (write : Bool) : State :=
  ((s.groupsIn a n).filter fun g => s.flag (uBG g) 0x100 31).foldl (fun s g =>
    (s.countF (uBG g) 0x14C (if write then 31 else 15) (if write then 16 else 0) 1).wakeGroup g) s

/-- A port is severed for the initiator (R229). -/
def State.isSevered (s : State) (port ini : Nat) : Bool := s.severed.contains (port, ini)

/-! ### Gather buffers (R220) -/

/-- The byte mask of n bytes at a in their row. -/
def rowMask (a n : Nat) : Nat := (2 ^ n - 1) * 2 ^ (a % 64)

/-- A narrow access through port 30 reaches the gather buffer: a write merges into the row's entry, or takes a free or
the least recently used one; a full entry is written, and covers all 64 bytes of its row (R220, R235). -/
def State.gatherNarrow (s : State) (a n : Nat) (write : Bool) : State :=
  let b := bankOf a
  let x := s.bank b
  let r := rowOf a
  let s := s.count (uBG (s.groupOf b)) 0x144 1
  let old := match x.gather.find? (·.1 = r) with | some e => e.2 | none => 0
  if write then
    let m := old ||| rowMask a n
    let rest := x.gather.filter (·.1 != r)
    if m = 2 ^ 64 - 1 then (s.setBank b { x with gather := rest }).clearPoison (a / 64 * 64) 64
    else s.setBank b { x with gather := ((r, m) :: rest).take 4 }
  else if old = 0 then s
  else s.setBank b { x with gather := (r, old) :: x.gather.filter (·.1 != r) }

/-- An entry is written to its row (R220). -/
def State.gatherFlush (s : State) (b r : Nat) : State :=
  let x := s.bank b
  s.setBank b { x with gather := x.gather.filter (·.1 != r) }

/-- The Polder address of a row of a logical bank (R211). -/
def rowAddr (b row : Nat) : Nat := row / 16 * 2 ^ 19 + b * 2 ^ 10 + row % 16 * 64

/-- Whole-row writes of a range leave no entry for its rows (R220). -/
def State.gatherGone (s : State) (a n : Nat) : State :=
  s.banks.foldl (fun s e => s.setBank e.1 { e.2 with
    gather := e.2.gather.filter fun g => !(a ≤ rowAddr e.1 g.1 && rowAddr e.1 g.1 < a + n) }) s

/-- What one access does to the gather buffers; io: it comes through port 30. -/
def State.gather (s : State) (io : Bool) (a n : Nat) (write : Bool) : State :=
  if n < 64 then (if io then s.gatherNarrow a n write else s.gatherFlush (bankOf a) (rowOf a))
  else (rowsOf a n).foldl (fun s r => s.gatherFlush (bankOf r) (rowOf r)) s

/-- Cut a transfer into rows and naturally aligned pieces of 4 to 32 bytes. -/
def pieces : Nat → Nat → Nat → List (Nat × Nat)
  | 0, _, _ => []
  | f + 1, a, n =>
    if n = 0 then []
    else
      let k := if a % 64 = 0 && 64 ≤ n then 64 else ([32, 16, 8, 4].find? fun k => a % k = 0 && k ≤ n).getD n
      (a, k) :: pieces f (a + k) (n - k)

/-- The pieces that make a transfer through port 30. -/
def piecesFor (a n : Nat) : List (Nat × Nat) := pieces (n / 4 + 20) a n

/-- What a transfer of a requester does to the gather buffers: port 30 carries pieces, every other port whole rows (R214, R220). -/
def State.gatherRun (s : State) (q a n : Nat) (write : Bool) : State :=
  if s.reqPort q = 30 then (piecesFor a n).foldl (fun s p => s.gather true p.1 p.2 write) s
  else (rowsOf a n).foldl (fun s r => s.gatherFlush (bankOf r) (rowOf r)) s

/-! ### The hazard detector (R232, R240) -/

/-- The detector of a group runs. -/
def State.hazOn (s : State) (g : Nat) : Bool := s.flag (uBG g) 0x150 31 || s.sbActive

/-- The clients that own the commands of initiators, and the fault manager. -/
def State.hazClients (s : State) (inis : List Nat) : List Nat :=
  ((inis.filterMap fun i => (s.runsQueue i).bind s.queueClient) ++ [s.fltClient]).eraseDups

/-- A hazard between an earlier access and one to the same row. -/
def State.hazReport (s : State) (row : Nat) (old : BankAcc) (ini : Nat) (write : Bool) : State :=
  let u := uBG (s.groupOf (bankOf row))
  let ids := old.ini % 2 ^ 10 * 2 ^ 22 + ini % 2 ^ 10 * 2 ^ 12
  let s := (s.count u 0x154 1).wr u 0x158 (w32 (2 ^ 31 + row))
  let s := s.wr u 0x15C (w32 (ids + b2n write * 2 + b2n old.write))
  s.postAll 0x0004 u row ids (s.hazClients [old.ini, ini])

/-- One row of an access at a bank's handshake hs: accesses at least WINDOW apart are no pair (R232). -/
def State.hazRow (s : State) (ini port row : Nat) (write : Bool) (hs : Nat) : State :=
  let b := bankOf row
  let g := s.groupOf b
  let x := s.bank b
  let near := x.recent.filter fun o => hs ≤ o.at_ + 16
  let win := s.fld (uBG g) 0x150 7 0
  let hit := near.filter fun o =>
    o.row = rowOf row && (o.write || write) && (o.port != port || o.ini != ini) && hs < o.at_ + win
  let s := if s.hazOn g then hit.foldl (fun s o => s.hazReport row o ini write) s else s
  s.setBank b { s.bank b with recent := ⟨rowOf row, port, ini, write, hs⟩ :: near }

/-- The accesses of a requester that are no POLDER_ACCESS: at each bank of a group whose detector runs, each row passes a free
number of handshakes after the last one there (R232; DESIGN CHOICE, notes/assumptions/209.md). -/
def State.hazRun (s : State) (q a n : Nat) (write : Bool) : State :=
  (rowsOf a n).foldl (fun s r =>
    if s.hazOn (s.groupOf (bankOf r)) then
      let (gap, s) := s.fresh
      let last := ((s.bank (bankOf r)).recent.map (·.at_)).foldl max 0
      s.hazRow (reqIni q) (s.reqPort q) r write (last + 1 + gap.toNat)
    else s) s

/-! ### Accesses (R217, R218, R226, R227, R231, R235) -/

/-- Not a fault: an access of a command waits at a sluice whose bank another requester holds (R226, R227, R231). -/
def fSLUICE_WAIT : Nat := 0x10000

/-- A lock opening or an open passage of another requester, which is another port or another initiator, holds the bank (R226,
R227). -/
def State.barredBank (s : State) (q b : Nat) : Bool :=
  let x := s.bank b
  (x.st = .reserved || x.st = .locked) && match x.holder with | some (p, i) => p != s.reqPort q || i != reqIni q | none => false

/-- An access waits at some bank of its range. -/
def State.barred (s : State) (q a n : Nat) : Bool := (rowsOf a n).any fun r => s.barredBank q (bankOf r)

/-- The bytes of a range as they were before the passages that are open over it opened (R231). -/
def State.lockView (s : State) (a n : Nat) : List Byte :=
  (List.range n).map fun k =>
    match s.locks.find? fun l => l.isOpen && l.first ≤ a + k && a + k < l.first + l.len with
    | some l => nth l.old (a + k - l.first) 0
    | none => s.byte (a + k)

/-- The banks serve a read: a poisoned row ends it. What a read without its wait gives: the bytes of now (R110; DESIGN CHOICE,
notes/assumptions/200.md). -/
def State.polGet (s : State) (a n : Nat) : State × Nat × List Byte :=
  let s := s.wakeGroups a n false
  if s.poisonedIn a n then (s, fPOLDER_UE, []) else (s, 0, s.bytes a n)

/-- Read the Polder for a requester: the fault code of a refused access, or 0; the bytes. At a sluice that another holds a
command's access waits; another agent's takes place before the opening (R231; DESIGN CHOICE, notes/assumptions/173.md). -/
def State.polRead (s : State) (q a n : Nat) : State × Nat × List Byte :=
  if !s.polderAllowed (reqIni q) a n false then (s.polderDeny (reqIni q) a false, fPARCEL_DENIED, [])
  else if s.barred q a n then
    if (iniCtx (reqIni q)).isSome then (s, fSLUICE_WAIT, [])
    else if s.poisonedIn a n then (s, fPOLDER_UE, []) else (s, 0, s.lockView a n)
  else ((s.hazRun q a n false).gatherRun q a n false).polGet a n

/-! ### Weights digests (R283, R291) -/

/-- A parcel's WD_STATUS and the first offset of its WD_DIGEST in DEVCTL. -/
def wdStatOff (p : Nat) : Nat := 0x4000 + 4 * p
def wdDigOff (p : Nat) : Nat := 0x8000 + 32 * p
def State.wdValid (s : State) (p : Nat) : Bool := s.flag uDevctl (wdStatOff p) 31
def State.wdStale (s : State) (p : Nat) : Bool := s.flag uDevctl (wdStatOff p) 30

/-- A write of n bytes at a into a digest's extent makes it STALE (R283). -/
def State.markStale (s : State) (a n : Nat) : State :=
  (s.validParcels.filter fun p =>
    s.wdValid p && !s.wdStale p && s.fld uDevctl (wdStatOff p) 11 0 ≤ (a + n - 1) / 0x10000 &&
      a / 0x10000 ≤ s.fld uDevctl (wdStatOff p) 23 12).foldl
    (fun s p => (s.setFlag uDevctl (wdStatOff p) 30 true).count uDevctl 0x420 1) s

/-- What a write replaces is no partial-sum record any more (R97). -/
def State.psumGone (s : State) (a n : Nat) : State :=
  { s with psumBad := s.psumBad.filter fun p => !(p < a + n && a < p + 16) }

/-- The banks serve a write; fold: it is a fold of R283, which makes no digest STALE. A dead row ends it (R235). -/
def State.polPut (s : State) (a : Nat) (l : List Byte) (fold : Bool) : State × Nat :=
  let n := l.length
  let s := s.wakeGroups a n true
  if (rowsOf a n).any fun r => (s.rowX (s.rowKey r)).dead then (s, fPOLDER_UE)
  else
    let s := ((s.setBytes a l).clearPoison a n).psumGone a n
    (if fold || n = 0 then s else s.markStale a n, 0)

/-- Write the Polder for a requester. At a sluice that another holds a command's access waits; another agent leaves its
write there and goes on (DESIGN CHOICE, notes/assumptions/173.md). -/
def State.polWrite (s : State) (q a : Nat) (l : List Byte) (fold : Bool := false) : State × Nat :=
  let n := l.length
  if !s.polderAllowed (reqIni q) a n true then (s.polderDeny (reqIni q) a true, fPARCEL_DENIED)
  else if s.barred q a n then
    if (iniCtx (reqIni q)).isSome then (s, fSLUICE_WAIT)
    else ({ s with held := s.held ++ [⟨reqIni q, s.reqPort q, a, n, some l, none, fold, none, [], none, []⟩] }, 0)
  else ((s.hazRun q a n true).gatherRun q a n true).polPut a l fold

/-- A write that an agent has left at a sluice. -/
def HeldAcc.posted (h : HeldAcc) : Bool := h.at_.isNone && h.mark.isNone

/-- An earlier write of an agent into a range still waits at a sluice. -/
def State.postedIn (s : State) (ini a n : Nat) : Bool :=
  s.held.any fun h => h.posted && h.ini = ini && h.addr < a + n && a < h.addr + h.len

/-- An opening or a passage of the lock arbiter has a bank of the group. -/
def State.lockIn (s : State) (g : Nat) : Bool := s.locks.any fun l => l.banks.any fun b => s.groupOf b = g

/-! ### Rows of instructions that have not completed (R595) -/

/-- The rows that writes touch, with what they hold. -/
def State.keepRows (s : State) (ws : List (Nat × List Byte)) : List (Nat × List Byte) :=
  (ws.flatMap fun w => rowsOf w.1 w.2.length).eraseDups.map fun r => (r, s.bytes r 64)

/-- Which rows of an instruction that has not completed hold new contents is unspecified: one free choice a row. -/
def State.rowIsNew (s : State) (row : Nat) : Bool := Config.freeNat (s.free + row / 64) % 2 = 1
/-- The free values used by one choice of rows: one for each row of the Polder. -/
def State.rowsChosen (s : State) : State := { s with free := s.free + 0x400000 }

/-- Put back the old contents of the rows that the free choice leaves old. -/
def State.undoRows (s : State) (old : List (Nat × List Byte)) : State :=
  (old.foldl (fun t (r, bs) => if s.rowIsNew r then t else t.setBytes r bs) s).rowsChosen

/-! ### Credits (R222) -/

/-- Take the credits of a burst of n bytes at a parcel: false when there are too few. -/
def State.takeCredits (s : State) (p n : Nat) : State × Bool :=
  let k := ceilDiv n 1024
  if k ≤ s.pclAvail p then
    let x := s.pclX p
    ((s.setFld (uBG 0) (pclOff p + 12) 18 0 (s.pclAvail p - k)).setPclX p { x with taken := x.taken + k }, true)
  else (s, false)

/-- The credits that a burst takes: by parcel with CREDIT_EN, for the bytes that lie in it (R222). -/
def State.creditsOf (s : State) (a n : Nat) : List (Nat × Nat) :=
  ((rowsOf a n).filterMap s.parcelAt).eraseDups.filterMap fun p =>
    let lo := max a (s.pclBase p * 0x10000)
    let hi := min (a + n) ((s.pclBase p + s.pclSize p) * 0x10000)
    if s.pclCreditEn p then some (p, ceilDiv (hi - lo) 1024) else none

/-- The first parcel that has too few credits for a burst. -/
def State.shortOf (s : State) (cs : List (Nat × Nat)) : Option Nat := (cs.find? fun c => s.pclAvail c.1 < c.2).map (·.1)

/-- Take the credits of a burst, all of them. -/
def State.takeAll (s : State) (cs : List (Nat × Nat)) : State := cs.foldl (fun s c => (s.takeCredits c.1 (c.2 * 1024)).1) s

/-- The write that k credits were taken for is acknowledged. -/
def State.useCredits (s : State) (p k : Nat) : State :=
  let x := s.pclX p
  s.setPclX p { x with taken := x.taken - k }

/-- The credits of an agent's writes into a range are used when the writes are acknowledged: now, or with the last one that
waits at a sluice (R216, R222). -/
def State.creditsDone (s : State) (ini a n : Nat) (cs : List (Nat × Nat)) : State :=
  if s.postedIn ini a n then
    let mine := fun (h : HeldAcc) => h.posted && h.ini = ini && h.addr < a + n && a < h.addr + h.len
    { s with held := (updFirst mine (fun h => { h with credits := h.credits ++ cs }) s.held.reverse).reverse }
  else cs.foldl (fun s k => s.useCredits k.1 k.2) s

/-- DC_STATUS of the firmware culverts DC14 and DC15 follows the parcels that are being zeroed and the weights loads (R233,
R242). -/
def State.firmSync (s : State) : State :=
  let zero := s.parcels.filterMap (·.2.zeroing)
  [0, 1].foldl (fun s k =>
    let chans := (zero ++ s.loads.map (·.chan)).filter (· / 4 = k)
    let mask := (List.range 4).foldl (fun a c => a + if chans.contains (4 * k + c) then 2 ^ c else 0) 0
    let wait := s.loads.any fun l => l.wait && l.chan / 4 = k
    s.wr (uDC (14 + k)) 0x100 (w32 (b2n (!chans.isEmpty) * 2 ^ 31 + b2n wait * 2 ^ 29 + mask))) s

/-- The firmware culvert and channel that take a task: free (R233). -/
def State.firmChan (s : State) : Nat × State := s.freshNat 8

end Sys2Proof.Machine
end

