-- ==== Sys2Proof/Machine/AxLink.lean ====
section
/-! DEFINITION. Axfer's links and the credits that it grants: routes, ports, flits, buffers, replay; returns of credits
(R222, R295–R303, R305, R308, R309, R313, R314). -/
namespace Sys2Proof.Machine

/-! ### Routes and ports (R303, R305, R315, R316) -/

def State.ringPos (s : State) : Nat := s.fld uRing 0x200 2 0
def State.ringNpos (s : State) : Nat := s.fld uRing 0x200 11 8
/-- RING_ROUTE of a position: 0 own or absent, 1 up, 2 down, 3 unreachable. -/
def State.route (s : State) (pos : Nat) : Nat := s.fld uRing 0x204 (2 * pos + 1) (2 * pos)
/-- The state of a position as a member of the ring: one that no route reaches is Out (R38, R312). -/
def State.posState (s : State) (pos : Nat) : Nat := if s.route pos = 3 then 2 else nth s.ring.pos pos 0
/-- A remote window is open: the position can be reached, and is in service or draining (R35, R42, R304, R312). -/
def State.windowOpen (s : State) (pos : Nat) : Bool :=
  s.exists? uRing && (s.route pos = 1 || s.route pos = 2) && s.posState pos ≤ 1

/-- AX_STATUS.STATE: 0 off, 1 training, 2 active, 3 electrical idle, 4 down, 5 waking. -/
def State.axState (s : State) (i : Nat) : Nat := s.fld (uAX i) 0x100 31 29
def State.setAxState (s : State) (i v : Nat) : State := s.setFld (uAX i) 0x100 31 29 v

def AxLink.init : AxLink :=
  ⟨0, [], [0, 0, 0, 0], [0, 0, 0, 0], [], 0, none, [], [0, 0, 0, 0], false, 0, 0, [], 0, false, 0, false⟩
def State.link (s : State) (i : Nat) : AxLink := SMap.get (fun _ => AxLink.init) i s.links
def State.setLink (s : State) (i : Nat) (l : AxLink) : State :=
  { s with links := SMap.set (fun _ => AxLink.init) i l s.links }

/-- The hops that the way to a position passes. -/
def State.hops (s : State) (pos : Nat) (up : Bool) : List Nat :=
  let n := s.ringNpos
  let p := s.ringPos
  if up then (List.range ((pos + n - p) % n)).map fun k => (p + k) % n
  else (List.range ((p + n - pos) % n)).map fun k => (p + n - 1 - k) % n

/-- A position can be reached. -/
def State.reaches (s : State) (pos : Nat) : Bool := s.route pos = 1 || s.route pos = 2

/-- The route to a position passes a hop that is lost: until rerouting, what is for it waits (R312; DEDUCED,
notes/assumptions/211.md). -/
def State.cutOff (s : State) (pos : Nat) : Bool :=
  s.reaches pos && (s.hops pos (s.route pos = 1)).any fun h => s.ring.lost.contains h

/-- The other port of a bonded pair. -/
def bondMate (i : Nat) : Nat := if i < 2 then i + 2 else i - 2

/-- The port that a stream's transactions to a position leave on; a bonded hop splits streams by parity while both ports are
up. Those of a lost port queue behind its streams until these have moved (R303, R305). -/
def State.sendPort (s : State) (pos stream : Nat) : Nat :=
  let base := if s.route pos = 2 then 1 else 0
  if s.flag (uAX base) 0x100 16 then
    let want := if stream % 2 = 1 then base + 2 else base
    if s.axState want != 4 || (s.link want).moving then want
    else bondMate want
  else base

/-- Give a port traffic: it wakes from electrical idle (R313). -/
def State.portWake (s : State) (i : Nat) : State :=
  if s.axState i = 3 then (s.setAxState i 5).emit .axWake i [] else s

/-- SAME_BITS.EN (R271). -/
def State.sbEn (s : State) : Bool := s.flag uDevctl 0x400 0
/-- This part's fingerprint, its MODE as the command's (R274). -/
def State.fingerprint (s : State) (sb : Bool) : Nat :=
  (s.rd uDevctl 0x404).toNat / 2 * 2 + b2n sb + 2 ^ 32 * (s.rd uDevctl 0x408).toNat

/-! ### Flits (R295–R301) -/

/-- The highest SEQ received in order: the link word's ACK (R295). -/
def AxLink.ack (l : AxLink) : Nat := (l.rxSeq + 4095) % 4096

/-- The 256 bytes of a flit: link word, body, CRC-32 over both (R295). -/
def flitBytes (kind set seq ack : Nat) (body : List Byte) : List Byte :=
  let head := natBytes 4 (kind * 2 ^ 29 + set * 2 ^ 27 + seq * 2 ^ 15 + ack * 2 ^ 3)
  let l := head ++ (body ++ List.replicate 248 0).take 248
  l ++ natBytes 4 (crc32 l)

/-- The 16-bit units of a flit. -/
def units16 : List Byte → List Nat
  | a :: b :: t => (a.toNat + b.toNat * 256) :: units16 t
  | [a] => [a.toNat]
  | [] => []

/-- A flit on the lanes in use, its 16-bit units dealt out to them in turn, lane 0 first: bits 18:16 of each word name the lane,
bits 15:0 are the unit (R295). -/
def stripe (lanes : Nat) (l : List Byte) : List Nat :=
  let on := setIndices 8 lanes
  (units16 l).zipIdx.map fun (x, k) => nth on (k % on.length) 0 * 2 ^ 16 + x

/-- The lanes of a port in use (R302, R315). -/
def State.lanes (s : State) (i : Nat) : Nat := s.fld (uAX i) 0x100 24 17

/-- Bits 95:0 of a slot, by TYPE (R297). -/
def AxSlot.low (x : AxSlot) : Nat :=
  let f := fun i => nth x.fields i 0
  match x.kind with
  | 1 => f 0 % 2 ^ 28 * 2 ^ 64 + f 1 % 2 ^ 13 * 2 ^ 32
  | 2 => f 0 % 2 ^ 16 * 2 ^ 64 + f 1 % 2 ^ 32
  | 3 => f 0 % 2 ^ 16 * 2 ^ 64 + f 1 % 2 ^ 32
  | 7 => f 0 % 2 ^ 12
  | 8 => f 0 % 2 ^ 12 + f 1 % 2 ^ 4 * 2 ^ 16
  | _ => f 0 % 2 ^ 28 * 2 ^ 64 + f 1 % 2 ^ 7

/-- The sixteen bytes of a slot (R297). -/
def AxSlot.bytes (x : AxSlot) : List Byte :=
  natBytes 16 (x.kind % 16 * 2 ^ 124 + x.dst % 8 * 2 ^ 121 + x.src % 8 * 2 ^ 118 + x.stream % 2 ^ 10 * 2 ^ 108 +
    x.tag % 2 ^ 12 * 2 ^ 96 + x.low)

/-- The body of a flit (R296). -/
def AxFlit.body (f : AxFlit) : List Byte := if f.data then f.bytes else f.slots.flatMap AxSlot.bytes

/-- The buffer set of a TYPE: class bits 28 and 27. -/
def classSet (kind : Nat) (dateline : Bool) : Nat := (if kind = 1 then 0 else 2) + b2n dateline

/-- The ring identity of a CTL body: RING_ID, NPOS, POS, FORMED (R301). -/
def State.identity (s : State) : Nat :=
  match s.ring.form with
  | some (id :: n :: p :: _) => id % 2 ^ 16 + n % 16 * 2 ^ 16 + p % 8 * 2 ^ 20
  | _ => s.fld uRing 0x200 31 16 + s.ringNpos * 2 ^ 16 + s.ringPos * 2 ^ 20 + b2n (s.exists? uRing) * 2 ^ 23

/-- Send a CTL flit: counters, NAK, lanes and width, ring identity, fingerprint, the fingerprints seen (R301). -/
def State.ctlSend (s : State) (i : Nat) (nak : Option Nat) : State :=
  let l := s.link i
  let body := l.got.flatMap (natBytes 2) ++ natBytes 2 (match nak with | some n => 0x8000 + n % 4096 | none => 0) ++
    natBytes 2 (s.lanes i * 2 ^ 8 + s.fld (uAX i) 0x100 28 25) ++ natBytes 8 s.identity ++
    natBytes 8 (s.fingerprint s.sbActive) ++ (List.range 8).flatMap fun n => natBytes 8 (SMap.get (fun _ => 0) n s.ring.seen)
  (s.setLink i { l with since := 0 }).emit .axCtl i (stripe (s.lanes i) (flitBytes 3 0 0 l.ack body))

/-- A flit has passed; at least one CTL flit goes in every 32 (R296). -/
def State.ctlDue (s : State) (i n : Nat) : State :=
  let l := s.link i
  if 31 ≤ l.since + n then s.ctlSend i none else s.setLink i { l with since := l.since + n }

/-- A set of the receiver has a free buffer, and the replay buffer room (R298, R300). -/
def AxLink.room (l : AxLink) (set : Nat) : Bool :=
  (nth l.sent set 0 + 65536 - nth l.freed set 0) % 65536 < 32 && l.replay.length < 256

/-- Put a flit on the lanes. -/
def State.flitOut (s : State) (i seq set : Nat) (f : AxFlit) : State :=
  s.emit .axSlot i (stripe (s.lanes i) (flitBytes (if f.data then 1 else 2) set seq (s.link i).ack f.body))

/-- Send one flit: it takes the next SEQ and stays in the replay buffer; its payload counts (R300, R315). -/
def State.sendFlit (s : State) (i set : Nat) (f : AxFlit) : State :=
  let l := s.link i
  let s := s.setLink i { l with
    txSeq := (l.txSeq + 1) % 4096
    sent := setNth l.sent set ((nth l.sent set 0 + 1) % 65536)
    replay := l.replay ++ [(l.txSeq, set, f)] }
  let s := if f.data then s.countWide (uAX i) 0x11C f.bytes.length else s
  (s.flitOut i l.txSeq set f).ctlDue i 1

/-- n buffers of a set are free again; the next CTL flit says so (R298). -/
def State.freeBuf (s : State) (i set n : Nat) : State :=
  let l := s.link i
  s.setLink i { l with got := setNth l.got set ((nth l.got set 0 + n) % 65536) }

/-! ### The order of service at a port (R296, R298, R299, R303, R314) -/

def AxWait.stream (w : AxWait) : Nat := ((w.flits.head?.bind fun f => f.slots.head?).map (·.stream)).getD 0
def AxWait.fresh (w : AxWait) : Bool := match w.flits with | f :: _ => !f.data && !w.opened | [] => false

/-- How many others of its stream wait before entry j. -/
def turnOf (q : List AxWait) (j stream : Nat) : Nat := ((q.take j).filter fun e => !e.rt && e.stream = stream).length

/-- Where a transaction takes its place: a real-time context's after its like and what has been opened; another's one write
each in round robin (R314). -/
def placeFor (q : List AxWait) (w : AxWait) : Nat :=
  let k := turnOf q q.length w.stream
  let before := fun (j : Nat) => match q.drop j with
    | e :: _ => e.rt || (e.opened && (e.set = w.set || !w.rt)) || (!w.rt && turnOf q j e.stream ≤ k)
    | [] => false
  (List.range q.length).foldl (fun a j => if before j then j + 1 else a) 0

/-- A write of a stream that is served one write each. -/
def AxWait.plain (w : AxWait) : Bool := !w.rt && 1 < w.flits.length

/-- The waiting CMD slots of a set that go into one flit, in order, at most k; what is left. A stream that is no real-time
context's has one write opened at a time (R314). -/
def takeCmds (set : Nat) : Nat → Bool → List AxWait → List AxWait × List AxWait
  | _, _, [] => ([], [])
  | 0, _, l => ([], l)
  | k + 1, one, w :: t =>
    if w.set = set && w.fresh && (!w.plain || one) then
      let (a, b) := takeCmds set k (one && !w.plain) t
      (w :: a, (if w.flits.length ≤ 1 then [] else [{ w with flits := w.flits.drop 1, opened := true }]) ++ b)
    else
      let (a, b) := takeCmds set (k + 1) one t
      (a, w :: b)

/-- The buffer that a sent flit of an entry held at its arrival is free. -/
def State.released (s : State) (w : AxWait) : State :=
  match w.hold with
  | some (p, set, cmd) => if w.opened || cmd then s.freeBuf p set 1 else s
  | none => s

/-- Send what comes next of an entry: a DATA flit, or a CMD flit of up to fifteen slots (R296; DESIGN CHOICE,
notes/assumptions/50.md). -/
def State.sendNext (s : State) (i : Nat) (w : AxWait) : State :=
  let l := s.link i
  if w.fresh then
    let (now, left) := takeCmds w.set 15 (!(l.wait.any fun e => e.opened && !e.rt && e.set = w.set)) l.wait
    let s := (s.setLink i { l with wait := left }).sendFlit i w.set ⟨false, now.flatMap fun e => (e.flits.take 1).flatMap (·.slots), []⟩
    now.foldl (fun s e => s.released e) s
  else match w.flits with
    | [] => s.setLink i { l with wait := l.wait.erase w }
    | f :: t =>
      let wait := if t.isEmpty then l.wait.erase w else updFirst (· = w) (fun e => { e with flits := t }) l.wait
      ((s.setLink i { l with wait := wait }).sendFlit i w.set f).released w

/-- The position that an entry is for. -/
def AxWait.dst (w : AxWait) : Nat := ((w.flits.head?.bind fun f => f.slots.head?).map (·.dst)).getD 0

/-- What a port sends next: of the entries whose set has room, a real-time context's and the write opened in its set before it,
then the first (R298, R299, R314). -/
def State.nextSend (s : State) (i : Nat) : Option AxWait :=
  let l := s.link i
  let ok := fun (w : AxWait) => l.room w.set && !s.cutOff w.dst
  let soon := fun (w : AxWait) => w.rt || (w.opened && l.wait.any fun e => e.rt && e.set = w.set)
  match l.wait.find? fun w => ok w && soon w with
  | some w => some w
  | none => l.wait.find? ok

/-- Send what waits at an active port, as long as something has room: control flits pass a blocked write (R299). -/
def State.pump (s : State) (i : Nat) : Nat → State
  | 0 => s
  | n + 1 =>
    if s.axState i != 2 then s
    else match s.nextSend i with
      | none => s
      | some w => (s.sendNext i w).pump i n

/-- Flits that wait at a port, and one more. -/
def AxLink.fuel (l : AxLink) : Nat := l.wait.foldl (fun a w => a + w.flits.length + 1) 1

/-- Hand a transaction's flits to a port. -/
def State.linkSend (s : State) (i : Nat) (w : AxWait) : State :=
  let l := s.link i
  let k := placeFor l.wait w
  let s := (s.setLink i { l with wait := l.wait.take k ++ [w] ++ l.wait.drop k }).portWake i
  s.pump i (s.link i).fuel

/-- The set that a slot leaves in: bit 27 stays as it arrived, and is set by a hop between NPOS − 1 and 0 (R299). -/
def State.leaveSet (s : State) (kind : Nat) (up : Bool) (hold : Option (Nat × Nat × Bool)) : Nat :=
  let came := match hold with | some (_, set, _) => set % 2 = 1 | none => false
  classSet kind (came || if up then s.ringPos + 1 = s.ringNpos else s.ringPos = 0)

/-- The flits of a transaction: its CMD slot, and DATA flits of 248 bytes. -/
def flitsOf (x : AxSlot) (data : List Byte) : List AxFlit :=
  ⟨false, [x], []⟩ :: (List.range (ceilDiv data.length 248)).map fun k => ⟨true, [x], (data.drop (248 * k)).take 248⟩

/-- Put a slot on the ring; a WRITE with its bytes (R296, R297); hold: the buffers of its arrival (R298, R305). -/
def State.ringSend (s : State) (x : AxSlot) (data : List Byte) (hold : Option (Nat × Nat × Bool)) : State :=
  let p := s.sendPort x.dst x.stream
  s.linkSend p ⟨8 ≤ x.stream && x.stream < 14, false, s.leaveSet x.kind (p % 2 = 0) hold, flitsOf x data, hold⟩

/-- Send a slot of this part. -/
def State.sendSlot (s : State) (kind pos stream tag : Nat) (fields : List Nat) (data : List Byte) : State :=
  s.ringSend ⟨kind, pos, s.ringPos, stream, tag, fields⟩ data none

/-- A transaction is complete (R309). -/
def State.ackSend (s : State) (src stream tag : Nat) : State := s.sendSlot 7 src stream tag [tag] []

/-- Nothing of this part keeps the ring (R317). -/
def State.ringQuiet (s : State) : Bool :=
  !(s.rtx.any (·.ctx.isSome)) && s.rgrants.isEmpty && !(s.rchunks.any (·.stage = 2))

/-! ### Credits granted to other parts (R308) -/

/-- RING_GRANTED_IN and RING_GRANTED_OUT follow the credits held, and those granted whose write has not been made (R316). -/
def State.grantSync (s : State) : State :=
  let s := s.setFld uRing 0x254 18 0 ((s.rchunks.filter (·.stage = 2)).foldl (fun a c => a + c.left) 0)
  let waits := s.held.foldl (fun a h => if h.ack.isSome then a + ceilDiv h.len 1024 else a) 0
  s.setFld uRing 0x250 18 0 (s.rgrants.foldl (fun a g => a + g.kib) 0 + waits)

/-- Grant a request whole; the grant carries its address and tag (DEDUCED, notes/assumptions/52.md). -/
def State.grantOne (s : State) (g : RemGrant) : State × Bool :=
  let (s, ok) := s.takeCredits g.pcl (g.kib * 1024)
  if ok then
    let s : State := { s with rgrants := s.rgrants ++ [g] }
    ((s.grantSync).sendSlot 5 g.src g.stream g.tag [g.addr, g.kib] [], true)
  else (s, false)

/-- Grant the requests that wait for a parcel, in order of arrival, until one finds too few credits. -/
def State.grantWaits (s : State) (p : Nat) : Nat → State
  | 0 => s
  | n + 1 => match s.rwaits.find? (·.pcl = p) with
    | none => s
    | some g =>
      let (s, ok) := s.grantOne g
      if ok then State.grantWaits { s with rwaits := s.rwaits.erase g } p n else s

/-- Credits taken for writes that are never made return (R222). -/
def State.untakeCredits (s : State) (p k : Nat) : State :=
  let s := (s.useCredits p k).setFld (uBG 0) (pclOff p + 12) 18 0 (min (s.pclAvail p + k) (s.pclSize p * 64))
  s.grantWaits p s.rwaits.length

/-- A mark add of v to a parcel's credit mark returns v credits; the excess is dropped and counted (R222). -/
def State.returnCredits (s : State) (p v : Nat) : State :=
  let top := s.pclSize p * 64
  let sum := s.pclAvail p + v
  let x := s.pclX p
  let s := if sum ≤ top then s.setFld (uBG 0) (pclOff p + 12) 18 0 sum
    else (s.setFld (uBG 0) (pclOff p + 12) 18 0 top).setPclX p { x with excess := x.excess + (sum - top) }
  s.grantWaits p s.rwaits.length

/-- A mark add to m returns credits to every valid parcel of which it is the credit mark. -/
def State.creditAdd (s : State) (m v : Nat) : State :=
  (s.validParcels.filter fun p => s.pclCreditEn p && s.pclMark p = m).foldl (fun s p => s.returnCredits p v) s

end Sys2Proof.Machine
end

