-- ==== Sys2Proof/Machine/Sched.lean ====
section
/-! DEFINITION. The scheduler's shared operations: descriptors and the queue cache, halts, entries and their
checks, completion records (R163, R164, R244–R251, R257, R596). -/
namespace Sys2Proof.Machine

/-! ### Descriptor fields (R244) -/

def qw (d : List Word) (k : Nat) : Word := nth d k 0
def qRing (d : List Word) : Nat := (qw d 0).toNat + 2 ^ 32 * bits (qw d 1) 15 0
def qOrder (d : List Word) : Nat := bits (qw d 2) 4 0
def qEnabled (d : List Word) : Bool := bit (qw d 2) 8
def qXlate (d : List Word) : Bool := bit (qw d 2) 9
def qHaltOnFault (d : List Word) : Bool := bit (qw d 2) 10
def qPin (d : List Word) : Bool := bit (qw d 2) 11
def qRT (d : List Word) : Bool := bit (qw d 2) 12
def qPhase (d : List Word) : Bool := bit (qw d 2) 13
def qHalted (d : List Word) : Bool := bit (qw d 2) 14
def qClient (d : List Word) : Nat := bits (qw d 2) 27 16
def qHead (d : List Word) : Nat := bits (qw d 3) 19 0
def qComp (d : List Word) : Nat := (qw d 4).toNat + 2 ^ 32 * bits (qw d 5) 15 0
def qCompOrder (d : List Word) : Nat := bits (qw d 5) 20 16
def qCompHead (d : List Word) : Nat := bits (qw d 6) 19 0
def qCompTail (d : List Word) : Nat := bits (qw d 7) 19 0
def qCompPhase (d : List Word) : Bool := bit (qw d 7) 20
def qMarkFirst (d : List Word) (i : Nat) : Nat := bits (qw d (8 + i)) 15 0
def qMarkCount (d : List Word) (i : Nat) : Nat := bits (qw d (8 + i)) 31 16
def qWatchMark (d : List Word) : Nat := bits (qw d 11) 15 0
def qWatchEn (d : List Word) : Bool := bit (qw d 11) 16
def qCap (d : List Word) : Nat := (qw d 12).toNat

/-- A mark lies in one of the queue's ranges (R193, R244). -/
def qMayMark (d : List Word) (m : Nat) : Bool :=
  (qMarkFirst d 0 ≤ m && m < qMarkFirst d 0 + qMarkCount d 0) ||
  (qMarkFirst d 1 ≤ m && m < qMarkFirst d 1 + qMarkCount d 1)

/-- A context's unit is among the queue's units (R244). -/
def qMayUse (d : List Word) : Ctx → Bool
  | .general c => bit (qw d 10) c
  | .realTime c => bit (qw d 10) c
  | .gang g => bit (qw d 10) (6 + g)
  | .toe e => bit (qw d 10) (9 + e)
  | .mill _ => bit (qw d 10) 11

/-- A reserved bit of the descriptor is set (R244). -/
def qReservedSet (d : List Word) : Bool :=
  bits (qw d 1) 31 16 != 0 || bits (qw d 2) 7 5 != 0 || bit (qw d 2) 15 || bits (qw d 2) 31 28 != 0 ||
  bits (qw d 3) 31 20 != 0 || bits (qw d 5) 31 21 != 0 || bits (qw d 6) 31 20 != 0 || bits (qw d 7) 31 21 != 0 ||
  bits (qw d 10) 31 12 != 0 || bits (qw d 11) 31 17 != 0 || qw d 14 != 0 || qw d 15 != 0

/-- A ring of n bytes at a, aligned to 4 KiB, lies in LPDDR4X or a host window (R244). -/
def ringOk (p : Part) (a n : Nat) : Bool :=
  a % 4096 = 0 && inRegion p a n fun r => r = .lpddr || r = .host

/-- The table address of descriptor q (R244). -/
def State.qAddr (s : State) (q : Nat) : Nat :=
  s.fld uSched 0x204 31 26 * 2 ^ 26 + 2 ^ 32 * s.fld uSched 0x208 15 0 + 64 * q

/-- The real-time reservation that a queue holds, waiting ones included. -/
def State.reservOf (s : State) (q : Nat) : Option Reserv := s.reservs.find? (·.queue = q)

/-- The cluster whose CL_RESERVE shows the queue's reservation is claimed: no call may release it (R7). -/
def State.reservClaimed (s : State) (q : Nat) : Bool :=
  (s.reservOf q).any fun r => r.active && match r.ctx with
    | .realTime c => s.claimed (uTC c)
    | _ => false

/-- The lowest cause of R246 that applies to a descriptor, or 0. -/
def State.qInvalid (s : State) (q : Nat) (d : List Word) : Nat :=
  if qReservedSet d then 1
  else if !(4 ≤ qOrder d && qOrder d ≤ 20 && 4 ≤ qCompOrder d && qCompOrder d ≤ 20) then 2
  else if !ringOk s.part (qRing d) (64 * 2 ^ qOrder d) || !ringOk s.part (qComp d) (32 * 2 ^ qCompOrder d) ||
      qMarkFirst d 0 + qMarkCount d 0 > 65536 || qMarkFirst d 1 + qMarkCount d 1 > 65536 then 3
  else if (s.reservOf q).isSome && (qXlate d || regionOf s.part (qRing d) = .host || regionOf s.part (qComp d) = .host) then 4
  else if !s.clientValid (qClient d) then 5
  else 0

/-! ### The queue cache (R245, R246) -/

/-- A queue that the cache keeps: pinned or reserved (R245). -/
def State.qKept (s : State) (x : QSlot) : Bool := (x.pin && qPin x.words) || (s.reservOf x.id).isSome

/-- Descriptors that the cache keeps. -/
def State.pinnedNow (s : State) : Nat := (s.qcache.filter s.qKept).length

/-- PIN of a cached queue takes one of the 1,024 places, while one is free (R245; DESIGN CHOICE, notes/assumptions/160.md). -/
def State.pinSync (s : State) (q : Nat) : State :=
  match s.slot q with
  | none => s
  | some x =>
    let others := (s.qcache.filter fun y => y.id != q && s.qKept y).length
    s.updSlot q fun y => { y with pin := qPin x.words && ((s.qKept x && x.pin) || decide (others < 1024)) }

/-- SCHED_STATUS and PINNED follow the cache (R268). -/
def State.cacheSync (s : State) : State :=
  let s := s.setFld uSched 0x200 13 0 s.qcache.length
  s.setFld uSched 0x214 10 0 (s.qcache.filter s.qKept).length

/-- An eviction writes HEAD, PHASE, HALTED, COMP_TAIL, COMP_PHASE and COMPLETED back to the table (R245). -/
def State.writeBack (s : State) (x : QSlot) : State :=
  let a := s.qAddr x.id
  let t := s.rdWs a 16
  let w2 := setBit (setBit (qw t 2) 13 (qPhase x.words)) 14 (qHalted x.words)
  (((s.wrN (a + 8) 4 w2.toNat).wrN (a + 12) 4 (setBits (qw t 3) 19 0 (qHead x.words)).toNat).wrN (a + 28) 4
    (setBits (qw t 7) 20 0 (bits (qw x.words 7) 20 0)).toNat).wrN (a + 52) 4 (qw x.words 13).toNat

/-- Evict the least recently used descriptor that may leave, while the cache is full (R245). -/
def State.evict (s : State) : State :=
  if s.qcache.length < 8192 then s
  else match s.qcache.reverse.find? fun x => !s.qKept x && x.running.isNone && !x.deleting with
    | none => s
    | some x => { s.writeBack x with qcache := s.qcache.filter (·.id != x.id) }

/-- Halt a queue and say why (R596). -/
def State.haltQueue (s : State) (q cause : Nat) : State :=
  match s.slot q with
  | none => s
  | some x =>
    let s := s.updSlot q fun y => { y with words := setNth y.words 2 (setBit (qw y.words 2) 14 true) }
    s.post (qClient x.words) 0x0007 uSched q 0 cause 0

/-- Queue IDs whose descriptors the table in LPDDR4X holds something of. -/
def State.tableQueues (s : State) : List Nat :=
  let a := s.qAddr 0
  if regionOf s.part a != .lpddr then []
  else ((s.mem.filter fun e => a ≤ e.1 && e.1 < a + 2 ^ 26).map fun e => (e.1 - a) / 64).eraseDups

/-- The queues with an ORDER in the table that are not cached and whose words p accepts. -/
def State.looseQueues (s : State) (p : List Word → Bool) : List Nat :=
  s.tableQueues.filter fun q => (s.slot q).isNone && (let d := s.rdWs (s.qAddr q) 16; qOrder d != 0 && p d)

/-- Halt a queue that is not cached: HALTED is set in its table entry (R596). -/
def State.haltStored (s : State) (q cause : Nat) : State :=
  let d := s.rdWs (s.qAddr q) 16
  (s.wrN (s.qAddr q + 8) 4 (setBit (qw d 2) 14 true).toNat).post (qClient d) 0x0007 uSched q 0 cause 0

/-- Halt a queue for an invalid descriptor (R246). -/
def State.haltInvalid (s : State) (q cause : Nat) : State :=
  match s.slot q with
  | none => s
  | some x =>
    let s := s.updSlot q fun y => { y with words := setNth y.words 2 (setBit (qw y.words 2) 14 true) }
    s.post (qClient x.words) 0x000B uSched q 0 cause 0

/-- The table's words of a descriptor with the RO fields of another (R246). -/
def keepRO (t old : List Word) : List Word :=
  let w2 := setBits (qw t 2) 14 12 (bits (qw old 2) 14 12)
  let t := setNth (setNth t 2 w2) 3 (qw old 3)
  setNth (setNth t 7 (qw old 7)) 13 (qw old 13)

/-- Reload a cached descriptor from the table; RO fields keep their cached values (R246). -/
def State.reloadNow (s : State) (q : Nat) : State :=
  let t := s.rdWs (s.qAddr q) 16
  let s := (s.updSlot q fun y => { y with words := keepRO t y.words, reload := false }).pinSync q
  match s.slot q with
  | none => s
  | some x =>
    let c := s.qInvalid q x.words
    (if c = 0 then s else s.haltInvalid q c).cacheSync

/-- QINVAL of one queue: a reload waits while a command of the queue runs (R246). -/
def State.qinval (s : State) (q : Nat) : State :=
  match s.slot q with
  | none => s
  | some x => if x.running.isSome then s.updSlot q fun y => { y with reload := true } else s.reloadNow q

/-- Bring a queue's descriptor into the cache as the most recently used (R245). -/
def State.loadQueue (s : State) (q : Nat) : State :=
  match s.slot q with
  | some x => { s with qcache := x :: s.qcache.filter (·.id != q) }
  | none =>
    let s := s.evict
    let t := s.rdWs (s.qAddr q) 16
    let x : QSlot := ⟨q, t, none, false, false, none, false, none, 0, false, false, false, none, [], false⟩
    let s := { s with qcache := x :: s.qcache }.pinSync q
    let c := s.qInvalid q t
    (if c = 0 then s else s.haltInvalid q c).cacheSync

/-- A doorbell brings a descriptor in; a miss counts (R268). -/
def State.cacheQueue (s : State) (q : Nat) : State :=
  (if (s.slot q).isSome then s else s.count uSched 0x218 1).loadQueue q

/-! ### Entries (R163, R164) -/

def ew (e : List Word) (k : Nat) : Word := nth e k 0
def eSeq (e : List Word) : Nat := (ew e 0).toNat
def ePhase (e : List Word) : Bool := bit (ew e 1) 8
def eRind (e : List Word) : Bool := bit (ew e 1) 9
def eSbReq (e : List Word) : Bool := bit (ew e 1) 10
def eNotify (e : List Word) : Bool := bit (ew e 1) 11
def eStartEn (e : List Word) : Bool := bit (ew e 1) 12
def eStartEq (e : List Word) : Bool := bit (ew e 1) 13
def eDoneOp (e : List Word) : Nat := bits (ew e 1) 15 14
def eCornerV (e : List Word) : Nat := bits (ew e 1) 18 16
def eCornerHot (e : List Word) : Bool := bit (ew e 1) 19
def eBlock (e : List Word) : Nat := (ew e 2).toNat + 2 ^ 32 * bits (ew e 3) 15 0
def eBudget (e : List Word) : Nat := (ew e 4).toNat
def eBias (e : List Word) : Nat := (ew e 5).toNat
def eStartMark (e : List Word) : Nat := bits (ew e 6) 15 0
def eDoneMark (e : List Word) : Nat := bits (ew e 6) 31 16
def eStartValue (e : List Word) : Nat := (ew e 7).toNat
def eDoneValue (e : List Word) : Nat := (ew e 8).toNat
def eTarget (e : List Word) : Nat := bits (ew e 9) 12 0

/-- The bytes of words, little-endian. -/
def wordBytes (l : List Word) : List Byte := l.flatMap fun w => natBytes 4 w.toNat
/-- The words of bytes. -/
def bytesWords (l : List Byte) : List Word := (blocksOf 4 ((l.length + 3) / 4) l).map fun b => BitVec.ofNat 32 (bytesNat b)

/-- The first check of R164 that an entry fails, as its fault code, or 0. -/
def State.entryFault (s : State) (d e : List Word) : Nat :=
  let ver := bits (ew e 1) 7 0 != 1
  let rsv := bits (ew e 1) 31 21 != 0 || bits (ew e 3) 31 16 != 0 || bits (ew e 9) 31 13 != 0 ||
    ew e 12 != 0 || ew e 13 != 0 || ew e 14 != 0 || 6 ≤ eCornerV e || eDoneOp e = 3
  let blk := eBlock e % 64 != 0 ||
    (regionOf s.part (eBlock e) = .none && !(0x100000000 ≤ eBlock e && eBlock e ≤ 0x18FFFFFFFF))
  let chk := bit (ew e 1) 20 && crc32 (wordBytes (e.take 15)) != (ew e 15).toNat
  if ver || rsv || blk || chk then fENTRY_INVALID
  else if eStartEn e && !qMayMark d (eStartMark e) then fMARK_DENIED
  else if eDoneOp e != 0 && !qMayMark d (eDoneMark e) then fMARK_DENIED
  else if eDoneOp e = 2 && s.isCreditMark (eDoneMark e) then fMARK_DENIED
  else if qCap d != 0 && qCap d < eBudget e then fBUDGET_CAP
  else 0

/-! ### Completion records (R250, R251) -/

/-- The completion ring has a free slot (R250). -/
def compRoom (d : List Word) : Bool :=
  (qCompTail d + 1) % 2 ^ qCompOrder d != qCompHead d % 2 ^ qCompOrder d

/-- The scheduler processor's initiator ID for a queue (R213). -/
def spIni (q : Nat) : Nat := 0x50 + q % 2

/-- Halt cause of a failed scheduler access (R492, R497, R596). -/
def haltCause : AccRes → Nat
  | .xlate _ => 4
  | .linkDown => 2
  | _ => 3

/-- What a completion record says beside the entry's fields. -/
structure Done where
  fault : Nat
  applied : Bool
  restarts : Nat
  steps : Nat
  elapsed : Nat
  deriving DecidableEq, Repr

def cap32 (k : Nat) : Nat := if k < 2 ^ 32 then k else 2 ^ 32 - 1

/-- Advance HEAD, inverting PHASE at the wrap (R247). -/
def advHead (d : List Word) : List Word :=
  let h := qHead d + 1
  if h < 2 ^ qOrder d then setNth d 3 (setBits (qw d 3) 19 0 h)
  else setNth (setNth d 3 (setBits (qw d 3) 19 0 0)) 2 (setBit (qw d 2) 13 (!qPhase d))

/-- Advance COMP_TAIL, inverting COMP_PHASE at the wrap (R251). -/
def advTail (d : List Word) : List Word :=
  let t := qCompTail d + 1
  if t < 2 ^ qCompOrder d then setNth d 7 (setBits (qw d 7) 19 0 t)
  else setNth d 7 (setBit (setBits (qw d 7) 19 0 0) 20 (!qCompPhase d))

/-- A consumed entry leaves HEAD (R247). -/
def QSlot.consume (y : QSlot) : QSlot :=
  { y with
    words := advHead y.words, entry := none, held := false, prefetched := false, readyAt := none, restarts := 0
    retried := none, compWait := false, store := y.store.drop 1 }

/-- A command's shares of its client's counters: STEPS, tiles, nanoseconds waited; COMPLETED of its queue (R244, R252,
R257). -/
def State.account (s : State) (q c : Nat) : Option (Nat × Nat × Nat) → State
  | none => s
  | some (steps, tiles, waited) =>
    let e := ceilDiv (steps * tiles) 14
    let share := bits (s.cw c 0) 15 0
    let s := (s.countWide (wClient c) 0x20 e).countWide (wClient c) 0x28 waited
    let s := (s.count (wClient c) 0x3C 1).updSlot q fun z => { z with words := setNth z.words 13 (countBits (qw z.words 13) 31 0 1) }
    s.setClientX c { s.clientX c with vt := ((s.clientX c).vt + ceilDiv (e * 65536) share) % 2 ^ 64 }

/-- Write a completion record at COMP_TAIL (R251). -/
def State.writeDone (s : State) (q : Nat) (d e : List Word) (r : Done) : State × AccRes :=
  let ws : List Word := [w32 (eSeq e),
    w32 (r.fault % 2 ^ 16 + b2n (qCompPhase d) * 2 ^ 16 + b2n r.applied * 2 ^ 17 + min r.restarts 15 * 2 ^ 18),
    ew e 10, ew e 11, w32 (cap32 r.steps), w32 (cap32 r.elapsed), w32 s.gaugeNs, w32 s.gaugeS]
  s.extWrite (spIni q) (qClient d) (qXlate d) (qComp d + 32 * qCompTail d) (wordBytes ws)

/-- Write a completion record and consume the entry, when it is one of the ring (R247, R251, R435); what the client's
counters take is counted with the record (R257). A write that fails halts the queue and consumes nothing (R497, R596). -/
def State.complete (s : State) (q : Nat) (e : List Word) (r : Done) (ring : Bool := true) (bill : Option (Nat × Nat × Nat) := none) : State :=
  match s.slot q with
  | none => s
  | some x =>
    let d := x.words
    let (s, a) := s.writeDone q d e r
    if a = .ok then
      let s := s.account q (qClient d) bill
      let s := s.updSlot q fun y =>
        let y := if ring then y.consume else y
        { y with words := advTail y.words, running := none }
      let s := if eNotify e then s.post (qClient d) 0x0001 uSched q (eSeq e) r.fault (cap32 r.elapsed) else s
      let s := if r.fault != 0 && qHaltOnFault d then s.haltQueue q 1 else s
      if x.reload then s.reloadNow q else s
    else (s.updSlot q fun y => { y with running := none }).haltQueue q (haltCause a)

/-- The start condition of the entry at HEAD holds now; once it holds it stays held (R250). -/
def State.latchStart (s : State) (q : Nat) : State :=
  s.updSlot q fun y =>
    match y.entry with
    | none => y
    | some e =>
      if y.held then y
      else if !eStartEn e || markOk (s.mark (eStartMark e)) (eStartValue e) (eStartEq e) then
        { y with held := true, readyAt := some s.nowNs }
      else y

/-- Account a refused or faulted command to its client: the FAULT event and the record (R254, R555, R565). -/
def State.noteFault (s : State) (q : Nat) (e : List Word) (code unit ini idx d1 outcome : Nat) : State :=
  let s := s.recordFault code unit ini q (eSeq e) 0 idx d1 outcome
  match s.slot q with
  | none => s
  | some x => s.post (qClient x.words) 0x0002 unit q (eSeq e) code idx

/-- Prefetch visible entries of a real-time queue, at most four from HEAD (R262). -/
def State.prefetch (s : State) (q : Nat) : Nat → State
  | 0 => s
  | n + 1 =>
    match s.slot q with
    | none => s
    | some x =>
      let d := x.words
      let i := qHead d + x.store.length
      let size := 2 ^ qOrder d
      if 4 ≤ x.store.length || !qEnabled d || qHalted d then s
      else
        let (s, a, bs) := s.extRead (spIni q) (qClient d) false (qRing d + 64 * (i % size)) 64
        let e := bytesWords bs
        if a = .ok && ePhase e = (qPhase d != decide (size ≤ i)) then
          (s.updSlot q fun y => { y with store := y.store ++ [e] }).prefetch q n
        else s

/-- Take a valid entry at HEAD; a real-time entry that is ready at once without having been prefetched counts
in LATE_ENTRY; one that waits for its start condition or a completion slot has been prefetched when it becomes ready (R250,
R262). -/
def State.takeEntry (s : State) (q : Nat) (e : List Word) (pre : Bool) : State :=
  let s := (s.updSlot q fun y => { y with entry := some e, held := false, prefetched := pre }).latchStart q
  match s.slot q with
  | none => s
  | some x =>
    let ready := x.held && compRoom x.words
    if ready && !pre && (s.reservOf q).isSome then s.count uSched 0x22C 1
    else if !ready then s.updSlot q fun y => { y with prefetched := true } else s

/-- The bytes of the entry at HEAD: from the prefetch store, else from the ring. -/
def State.headEntry (s : State) (x : QSlot) : State × AccRes × List Word × Bool :=
  let d := x.words
  match x.store with
  | e :: _ => (s, .ok, e, true)
  | [] =>
    let (s, a, bs) := s.extRead (spIni x.id) (qClient d) (qXlate d) (qRing d + 64 * qHead d) 64
    (s, a, bytesWords bs, false)

/-- Read and check the entry at HEAD (R164, R247, R249): an entry that is not visible is left, a valid one is
taken, one that fails a check is refused with a completion record and the next one is read. -/
def State.entryRead (s : State) (q : Nat) : Nat → State
  | 0 => s
  | n + 1 =>
    match s.slot q with
    | none => s
    | some x =>
      let d := x.words
      if !qEnabled d || qHalted d || x.running.isSome || x.entry.isSome || x.deleting then s
      else
        let (s, a, e, pre) := s.headEntry x
        if a != .ok then s.haltQueue q (haltCause a)
        else
          if ePhase e != qPhase d then s
          else
            let f := s.entryFault d e
            if f = 0 then
              s.takeEntry q e pre
            else if !compRoom d then (s.count uSched 0x234 1).updSlot q fun y => { y with compWait := true }
            else
              let s := s.noteFault q e f uSched (spIni q) 0 0 oNone
              (s.complete q e ⟨f, false, 0, 0, 0⟩).entryRead q n

/-- The doorbell of a queue: its descriptor enters the cache and the entry at HEAD is read (R245, R249). -/
def State.doorbell (s : State) (q : Nat) : State :=
  let s := (s.cacheQueue q).entryRead q 1048576
  if (s.reservOf q).isSome then s.prefetch q 4 else s

end Sys2Proof.Machine
end

