-- ==== Sys2Proof/Machine/Marks.lean ====
section
/-! DEFINITION. Updates of a mark and everyone an update reaches (R166, R194, R222, R249, R250, R255, R256, R423). -/
namespace Sys2Proof.Machine

/-- The marks that the Warden taps (R423, R427, R431, R434). -/
def State.wdTaps (s : State) : List Nat :=
  (if s.flag uWarden 0x210 31 && !s.flag uWarden 0x210 30 then [s.fld uWarden 0x21C 15 0] else []) ++
  ((List.range 16).filter fun e => s.flag uWarden (0x404 + 32 * e) 31).map (fun e => s.fld uWarden (0x40C + 32 * e) 15 0) ++
  ((List.range 8).filter fun t => s.flag uWarden (0x600 + 64 * t) 31).map (fun t => s.fld uWarden (0x610 + 64 * t) 15 0)

def State.gateOn (s : State) : Bool := s.flag uWarden 0x210 31
def State.gateLink (s : State) : Option Nat := if s.flag uWarden 0x210 30 then some (s.fld uWarden 0x210 29 26) else none
/-- The mark that announces a set: IN_MARK, or the linked compare entry's (R433). -/
def State.gateMark (s : State) : Nat :=
  match s.gateLink with
  | some e => s.fld uWarden (0x40C + 32 * e) 15 0
  | none => s.fld uWarden 0x21C 15 0

/-- An update of a tapped mark is posted to the Warden; an advance of the mark that announces sets falls into the SET_TRIG
intervals that run (R423, R430). -/
def State.tapMark (s : State) (m v : Nat) : State :=
  if s.wdTaps.contains m then
    let s := if s.gateOn && s.gateMark = m && v != s.wd.lastIn then
        s.setWdX fun x => { x with intervals := x.intervals.map fun (_, r) => (true, r) }
      else s
    s.wdReport 0 m v
  else s

/-- MARK_WATCHES follows the watches (R269). -/
def State.watchSync (s : State) : State := s.wr uMarks 0x110 (w32 s.watches.length)

/-- Post the watches of a mark whose condition its new value satisfies, once each (R256). -/
def State.fireWatches (s : State) (m v : Nat) : State :=
  let hit := fun (w : Watch) => w.mark = m && markOk v w.value w.eq
  let fired := s.watches.filter hit
  let s := { s with watches := s.watches.filter fun w => !hit w }
  (fired.foldl (fun s w => s.post w.client 0x0008 uMarks noQueue 0 m v) s).watchSync

/-- A mark wait in issue that the new value satisfies is satisfied for good (R194). -/
def Stall.seen (m v : Nat) : Stall → Stall
  | .mark m' v' eq sat => .mark m' v' eq (sat || (m' = m && markOk v v' eq))
  | x => x

/-- The sources of an XREDUCE or MERGE whose wait the new value satisfies have arrived (R158). -/
def Waiting.seen (m v : Nat) : Waiting → Waiting
  | .sources marks left arrived =>
    .sources marks left (arrived ++ (left.filter fun i =>
      !arrived.contains i && (let (m', v') := nth marks i (0x10000, 0); m' = m && markGe v v')))
  | .rows n l m' v' sat => .rows n l m' v' (sat || (m' = m && markGe v v'))
  | x => x

/-- Every wait of the contexts sees the new value (R194). -/
def State.wakeWaits (s : State) (m v : Nat) : State :=
  { s with ctxs := s.ctxs.map fun r =>
      { r with
        stall := r.stall.map (Stall.seen m v)
        issued := r.issued.map fun i => { i with wait := i.wait.seen m v } } }

/-- Start conditions that name the mark see the new value (R250). -/
def State.latchMark (s : State) (m : Nat) : State :=
  let qs := (s.qcache.filter fun x => match x.entry with
    | some e => eStartEn e && eStartMark e = m
    | none => false).map (·.id)
  qs.foldl (fun s q => s.latchStart q) s

/-- Queues that watch the mark, cached or not, read their entry at HEAD (R249). -/
def State.watchDoorbells (s : State) (m : Nat) : State :=
  let hit := fun (d : List Word) => qWatchEn d && qWatchMark d = m
  let qs := (s.qcache.filter fun x => hit x.words).map (·.id) ++ s.looseQueues fun d => qEnabled d && hit d
  qs.foldl (fun s q => s.doorbell q) s

/-- A mark takes a value, and the update reaches every waiter, watch, queue and tap. -/
def State.updMark (s : State) (m v : Nat) : State :=
  let v := v % 2 ^ 32
  let s := (((s.putMark m v).wakeWaits m v).fireWatches m v).latchMark m
  let s := s.watchDoorbells m
  s.tapMark m v

/-- Set a mark. -/
def State.signalMark (s : State) (m v : Nat) : State := s.updMark m v

/-- Add to a mark, mod 2^32; an add to a credit mark returns credits (R222). -/
def State.addMark (s : State) (m v : Nat) : State := (s.creditAdd m v).updMark m (s.mark m + v)

/-- Record a refused mark access (R255, R269). -/
def State.markDenied (s : State) (ini m : Nat) (write : Bool) : State :=
  (s.wr uMarks 0x108 (w32 (2 ^ 31 + b2n write * 2 ^ 30 + ini % 2 ^ 10 * 2 ^ 16 + m % 2 ^ 16))).count uMarks 0x10C 1

/-- The mark lies in the range of the initiator's client (R255). -/
def State.iniMayMark (s : State) (ini m : Nat) : Bool :=
  match s.clientOf ini with
  | none => false
  | some c =>
    let f := bits (s.cw c 5) 15 0
    f ≤ m && m < f + bits (s.cw c 5) 31 16

/-! ### Writes left at sluices (R227, R231, R309) -/

/-- Take k KiB from a stream's grants in a parcel, oldest first. -/
def takeGrants (src stream p : Nat) : Nat → List RemGrant → List RemGrant
  | _, [] => []
  | k, g :: t =>
    if k = 0 then g :: t
    else if g.src = src && g.stream = stream && g.pcl = p then
      if g.kib ≤ k then takeGrants src stream p (k - g.kib) t else { g with kib := g.kib - k } :: t
    else g :: takeGrants src stream p k t

/-- KiB granted to a stream in a parcel. -/
def State.grantedTo (s : State) (src stream p : Nat) : Nat :=
  (s.rgrants.filter fun g => g.src = src && g.stream = stream && g.pcl = p).foldl (fun a g => a + g.kib) 0

/-- A transaction of the ring has been done. -/
def State.ackOf (s : State) : Option (Nat × Nat × Nat) → State
  | some (src, stream, tag) => s.ackSend src stream tag
  | none => s

/-- Unused credits come back to their parcel (R308, R222). -/
def State.giveBack (s : State) (src stream p kib : Nat) : State :=
  let k := min kib (s.grantedTo src stream p)
  (({ s with rgrants := takeGrants src stream p k s.rgrants } : State).untakeCredits p k).grantSync

/-- A transaction follows one of its stream that failed and is not acknowledged. -/
def State.stuckFor (s : State) : Option (Nat × Nat × Nat) → Bool
  | some (src, stream, _) => s.rstuck.contains (src, stream)
  | none => false

/-- What was left at a sluice is made. A write: its credits are used, a remote one is acknowledged, or its stream is stuck; a mark
operation or a credit return behind one is made, and acknowledged; what follows a write that failed is not made (R222, R309, R363,
R388). -/
def State.postOne (s : State) (h : HeldAcc) : State :=
  if s.stuckFor h.ack then (h.credits.foldl (fun s k => s.untakeCredits k.1 k.2) s).grantSync
  else match h.mark with
  | some (m, add, v) => (if add then s.addMark m v else if s.isCreditMark m then s else s.signalMark m v).ackOf h.ack
  | none => match h.ack, h.write, h.credits with
   | some (src, stream, tag), none, [(p, kib)] => (s.giveBack src stream p kib).ackSend src stream tag
   | _, _, _ =>
    let q := viaPort h.port h.ini
    let (s, c) := ((s.hazRun q h.addr h.len true).gatherRun q h.addr h.len true).polPut h.addr (h.write.getD []) h.fold
    let s := (h.credits.foldl (fun s k => s.useCredits k.1 k.2) s).grantSync
    match h.ack with
    | some (src, stream, tag) => if c = 0 then s.ackSend src stream tag else { s with rstuck := (src, stream) :: s.rstuck }
    | none => s

/-- The writes of one stream stay in order. -/
def sameStream (h k : HeldAcc) : Bool :=
  match h.ack, k.ack with
  | some (a, b, _), some (c, d, _) => a = c && b = d
  | _, _ => false

/-- A transaction comes before one with a given tag in its stream (R309). -/
def HeldAcc.before (h : HeldAcc) (src stream tag : Nat) : Bool :=
  match h.ack with
  | some (a, b, t) => a = src && b = stream && t != tag && (tag + 4096 - t) % 4096 < 2048
  | none => false

/-- Put a transaction of a stream in its place by tag. -/
def holdInto (h : HeldAcc) : List HeldAcc → List HeldAcc
  | [] => [h]
  | k :: t => match k.ack with
    | some (src, stream, tag) => if h.before src stream tag then h :: k :: t else k :: holdInto h t
    | none => k :: holdInto h t

/-- A mark operation follows a write of its sender into its range. -/
def HeldAcc.follows (h k : HeldAcc) : Bool :=
  h.mark.isSome && k.posted && k.ini = h.ini && k.addr < h.addr + h.len && h.addr < k.addr + k.len

/-- The writes left at sluices that nothing holds any more are made, in order, and what follows them (R231). -/
def State.postedNow (s : State) : State :=
  let (t, keep) := s.held.foldl (fun (a : State × List HeldAcc) h =>
    if h.at_.isSome || !h.after.isEmpty || (h.write.isSome && a.1.barred (viaPort h.port h.ini) h.addr h.len) || a.2.any (sameStream h) ||
      a.2.any h.follows then (a.1, a.2 ++ [h])
    else (a.1.postOne h, a.2)) ({ s with held := [] }, [])
  { t with held := keep }

/-- A context's passage or opening ends: its banks are free at once (R227). -/
def State.dropLocks (s : State) (x : Ctx) : State :=
  let mine := s.locks.filter (·.ctx = x)
  if mine.isEmpty then s
  else
    ({ s.freeBanks (mine.flatMap fun (l : LockX) => l.banks.take l.reserved) with
      locks := s.locks.filter (·.ctx != x) }.lockSync).postedNow

/-- A mark operation of an agent, after the writes that it left in a range at a sluice (R363, R388). -/
def State.markAfter (s : State) (ini a n m : Nat) (add : Bool) (v : Nat) : State :=
  if s.postedIn ini a n then { s with held := s.held ++ [⟨ini, 30, a, n, none, none, false, none, [], some (m, add, v), []⟩] }
  else if add then s.addMark m v else s.signalMark m v

end Sys2Proof.Machine
end

