-- ==== Sys2Proof/Machine/Units.lean ====
section
/-! DEFINITION. Unit states: requests, drains, tests, readmits, forced-out units, groups, the spare tile
(R33–R38, R91, R92). -/
namespace Sys2Proof.Machine

/-! ### Claims and events (R6, R9) -/

/-- Tell the holder of a claim on a unit about an event of the unit (R9, R254). -/
def State.unitEvent (s : State) (u : Nat) : State :=
  match s.claimOn u with
  | some c => s.postIni c.ini 0x0009 u (s.ucb u 9).toNat (s.ucb u 2).toNat
  | none => s

/-- Release every claim of an initiator (R9). -/
def State.dropClaims (s : State) (ini : Nat) : State := { s with claims := s.claims.filter (·.ini != ini) }

/-! ### Running commands on a unit -/

/-- The clusters of a gang. -/
def State.gangClusters (s : State) (g : Nat) : List Nat :=
  match s.gangs.find? (·.g = g) with
  | some x => setIndices 6 x.members
  | none => []

/-- The gang that a cluster belongs to, formed or not. -/
def State.gangOf (s : State) (c : Nat) : Option Nat :=
  (s.gangs.find? fun x => x.members / 2 ^ c % 2 = 1).map (·.g)

/-- The clusters that a context's commands use. -/
def State.ctxClusters (s : State) : Ctx → List Nat
  | .general c => [c]
  | .realTime c => [c]
  | .gang g => s.gangClusters g
  | _ => []

/-- The reserved tile group of a cluster, as a mask (R93, R100). -/
def State.reservedTiles (s : State) (c : Nat) : Nat := s.fld (uTC c) 0x20C 7 0

/-- The tile set of a cluster in a context: slots T0–T7 as a mask (R93). -/
def State.ctxTiles (s : State) (x : Ctx) (c : Nat) : Nat :=
  match x with
  | .realTime _ => s.reservedTiles c
  | .general _ => 255 - s.reservedTiles c
  | _ => 255

/-- The tile that serves slot t of a cluster: T8 while it stands in (R91). -/
def State.slotTile (s : State) (c t : Nat) : Nat :=
  if bit (s.ucb (uTile c 8) 6) 30 && bits (s.ucb (uTile c 8) 6) 12 0 = uTile c t then 8 else t

/-- Where T8 stands in, among the clusters of a context: cluster and slot. -/
def State.standInsOf (s : State) (x : Ctx) : List (Nat × Nat) :=
  (s.ctxClusters x).filterMap fun c =>
    let sp := s.ucb (uTile c 8) 6
    if bit sp 30 then some (c, bits sp 12 0 % 16) else none

/-- The spares that serve a context: those of the start of its command, or those of now while none runs (R91). -/
def State.spares (s : State) (x : Ctx) : List (Nat × Nat) :=
  match s.run x with
  | some r => r.spares
  | none => s.standInsOf x

/-- The tile that serves slot t of a cluster for a context: a command finishes on the tiles it started with (R91). -/
def State.tileOf (s : State) (x : Ctx) (c t : Nat) : Nat := if (s.spares x).contains (c, t) then 8 else t

/-- A running command's context uses the unit. -/
def State.ctxUses (s : State) (x : Ctx) (u : Nat) : Bool :=
  match unitClass u with
  | some .tile =>
    let c := (u - 0x20) / 16
    (s.ctxClusters x).contains c && s.ctxTiles x c / 2 ^ (u % 16) % 2 = 1 && s.tileOf x c (u % 16) != 8
  | some .spareTile => (s.spares x).any fun p => p.1 = (u - 0x20) / 16 && s.ctxTiles x p.1 / 2 ^ p.2 % 2 = 1
  | some .ve => (s.ctxClusters x).contains (u - 0x80)
  | some .cs => (s.ctxClusters x).contains (u - 0x184)
  | some .tc => (s.ctxClusters x).contains (u - 0x10)
  | some .te => x = .toe (u - 0x88)
  | some .gang => x = .gang (u - 0x140)
  | some .mill => x.isMill
  | some .dc =>
    let i := u - 0xC0
    if i < 12 then (s.ctxClusters x).contains (i / 2) && (match x with | .realTime _ => i % 2 = 1 | _ => i % 2 = 0)
    else if i < 14 then x = .toe (i - 12) else false
  | _ => false

/-- A Mill core runs a logical core (R380). -/
def State.coreMapped (s : State) (i : Nat) : Bool := (List.range 3).any fun c => s.fld uMill 0x204 (2 * c + 1) (2 * c) = i

/-- A command that uses the unit runs; a Mill core that runs a logical core hands it over first (R408). -/
def State.unitBusy (s : State) (u : Nat) : Bool :=
  (s.ctxs.any fun r => s.ctxUses r.ctx u) || (unitClass u = some .mc && s.coreMapped (u - 0x18A)) ||
    (unitClass u = some .vat && (s.flag u 0x100 30 || s.flag u 0x100 28)) || (unitClass u = some .pp && s.flag u 0x20C 29) ||
    (unitClass u = some .px && (span (uPP (4 * (u - 0x190))) 4).any fun p => s.flag p 0x20C 29)

/-- MILL_CORE_MAP names the standby core: one in service that runs no logical core (R380, R408, R411). -/
def State.coreSync (s : State) : State :=
  match (List.range 4).find? fun i => !s.coreMapped i && s.ustate (uMC i) = 0 with
  | some i => (s.setFld uMill 0x204 7 6 i).setFlag uMill 0x204 8 false
  | none => (s.setFld uMill 0x204 7 6 3).setFlag uMill 0x204 8 true

def FeedX.init : FeedX := ⟨false, 1, []⟩
def State.feedX (s : State) (e : Nat) : FeedX := SMap.get (fun _ => FeedX.init) e s.feeds
def State.setFeedX (s : State) (e : Nat) (f : FeedX) : State := { s with feeds := SMap.set (fun _ => FeedX.init) e f s.feeds }

/-- A toe engine's line store holds nothing: the next operation on its feed starts at a frame start (R130, R132). -/
def State.feedClear (s : State) (x : Ctx) : State :=
  match x with
  | .toe e => (s.setFeedX e .init).wr (uTE e) 0x108 0
  | _ => s

/-- What a begun move with HASH = 10 has written and will not fold (R283). -/
def Issued.spoilt (i : Issued) : List (Nat × Nat) := if i.left.isEmpty then [] else i.wrote

/-- End a context's command with a fault: issue stops, its waits are cancelled, its units stop, and the rows of what
had not completed are old or new; the first fault stands (R260 steps 1–3, R595). -/
def State.failRun (s : State) (x : Ctx) (code idx : Nat) : State :=
  let undo := match s.run x with | some r => r.issued.flatMap (·.undo) | none => []
  let s := if undo.isEmpty then s else s.undoRows undo
  ((s.dropLocks x).feedClear x).updRun x fun r =>
    { r with
      fault := if r.ended then r.fault else code
      faultAt := if r.ended then r.faultAt else idx
      ended := true
      stall := none
      lock := none
      spoilt := r.spoilt ++ r.issued.flatMap (·.spoilt)
      issued := [] }

/-- End every running command that uses a unit. -/
def State.failUnit (s : State) (u code : Nat) : State :=
  (s.ctxs.filter fun r => s.ctxUses r.ctx u).foldl (fun s r => s.failRun r.ctx code r.pos) s

/-! ### Groups (R38) -/

/-- The members of a group. -/
def State.groupMembers (s : State) (u : Nat) : List Nat :=
  match unitClass u with
  | some .tc => (span (uTile (u - 0x10) 0) 9) ++ [uVE (u - 0x10), uCS (u - 0x10)]
  | some .gang => (s.gangClusters (u - 0x140)).map uTC
  | _ => []

/-- The units that a request to a unit reaches: itself, or the members of a group. -/
def State.leaves (s : State) (u : Nat) : List Nat :=
  match unitClass u with
  | some .tc => s.groupMembers u
  | some .gang => (s.groupMembers u).flatMap s.groupMembers
  | _ => [u]

/-- The state that a group takes from states of its members: 2 Out, 3 Test, 1 Draining, 0 In service. -/
def worstState (l : List Nat) : Nat :=
  if l.contains 2 then 2 else if l.contains 3 then 3 else if l.contains 1 then 1 else 0

/-- A member is in service, or is out with a spare standing in (R38, R91). -/
def State.memberIn (s : State) (u : Nat) : Bool := s.ustate u = 0 || (s.ustate u = 2 && s.stoodFor u)

/-- The state of a cluster from those of its members that keep holds: in service while every one counts as in service, else
the first of Out, Test, Draining that any of them holds, a spared one included (R38). -/
def State.clusterState (s : State) (u : Nat) (keep : Nat → Bool) : Nat :=
  let ms := (s.groupMembers u).filter keep
  if ms.all s.memberIn then 0 else worstState (ms.map s.ustate)

/-- The state of a group but for the members that keep drops; that of a gang derives from its clusters (R38). -/
def State.groupState (s : State) (u : Nat) (keep : Nat → Bool) : Nat :=
  match unitClass u with
  | some .tc => s.clusterState u keep
  | some .gang => worstState ((s.groupMembers u).map fun c => s.clusterState c keep)
  | _ => s.ustate u

/-- The groups that a unit is a member of, inner first. -/
def State.groupsOf (s : State) (u : Nat) : List Nat :=
  let tc := fun c => uTC c :: (match s.gangOf c with
    | some g => if s.exists? (uGang g) then [uGang g] else []
    | none => [])
  match unitClass u with
  | some .tile => tc ((u - 0x20) / 16)
  | some .spareTile => tc ((u - 0x20) / 16)
  | some .ve => tc (u - 0x80)
  | some .cs => tc (u - 0x184)
  | some .tc => (tc (u - 0x10)).drop 1
  | _ => []

/-- A little-endian field of an image (R527). -/
def imgN (d : List Byte) (off k : Nat) : Nat := bytesNat ((d.drop off).take k)

/-- FW_SET in FINGERPRINT_HI: the set that every running image belongs to, none of them a debug image; else 0xFFFFFF (R274,
R275, R545). -/
def State.fwSync (s : State) : State :=
  let run := (s.images.filter fun e => s.ustate e.1 ≤ 1).map (·.2)
  let set := match run with
    | [] => 0xFFFFFF
    | d :: t =>
      let v := imgN d 0x10 3
      if (d :: t).all fun x => imgN x 0x10 3 = v && imgN x 6 1 % 2 = 0 then v else 0xFFFFFF
  s.wr uDevctl 0x408 (w32 (0xB1000000 + set))

/-- Store a unit's STATE; a change sets STATE_CHANGED and reaches the claim holder. -/
def State.putState (s : State) (u st : Nat) : State :=
  if s.ustate u = st then s
  else
    let s := s.setUcb u 2 (setBits (s.ucb u 2) 1 0 st)
    let s := if unitClass u = some .mc then s.coreSync else s
    let s := if unitClass u = some .sp then s.setFlag uSched 0x200 (0x1A1 - u) (st = 0) else s
    let s := if 0x180 ≤ u && u < 0x194 then s.fwSync else s
    (s.ucbEvent u 1).unitEvent u

/-- CL_STATUS follows the tiles of a cluster (R100). -/
def State.clSync (s : State) (c : Nat) : State :=
  let sp := s.ucb (uTile c 8) 6
  let sf := if bit sp 30 then bits sp 12 0 % 16 else 0xF
  let inS := (List.range 9).foldl (fun a t => a + if s.ustate (uTile c t) = 0 then 2 ^ t else 0) 0
  let s := s.setFld (uTC c) 0x204 27 24 sf
  s.setFld (uTC c) 0x204 8 0 inS

/-- A cluster that goes Out, which a tile with a spare standing in does not make it, ends its gang's running command (R98). -/
def State.gangBroken (s : State) (u st : Nat) : State :=
  if unitClass u = some .tc && st = 2 && s.ustate u != 2 then
    match s.gangOf (u - 0x10) with
    | some g => s.failUnit (uGang g) fUNIT_OUT
    | none => s
  else s

/-- The groups of a unit take their states from their members; a request to a group ends when no member is in
transition. -/
def State.groupSync (s : State) (u : Nat) : State :=
  let s := match unitClass u with
    | some .tile => s.clSync ((u - 0x20) / 16)
    | some .spareTile => s.clSync ((u - 0x20) / 16)
    | _ => s
  (s.groupsOf u).foldl (fun s g =>
    let st := s.groupState g fun _ => true
    let s := (s.gangBroken g st).putState g st
    if bits (s.ucb g 2) 5 4 != 0 && (s.leaves g).all (fun m => s.ustate m != 1 && !(s.urun m).testing && !(s.urun m).held)
    then s.setUcb g 2 (setBits (s.ucb g 2) 5 4 0) else s) s

/-- The ring's STATE follows its positions (R38). -/
def State.ringSync (s : State) : State :=
  if s.exists? uRing then s.putState uRing (worstState ((List.range s.ringNpos).map s.posState)) else s

/-- The positions of the ring take a state. -/
def State.setPositions (s : State) (st : Nat) : State :=
  ({ s with ring := { s.ring with pos := List.replicate s.ringNpos st } } : State).ringSync

/-- The standby pair runs and has processed what the active pair has (R420). -/
def State.standbySynced (s : State) : Bool :=
  s.flag uWarden 0x200 26 && s.ustate (uWP (1 - s.fld uWarden 0x200 27 27)) ≤ 1

/-- A Warden pair that is Out or in Test is not synced (R420, R458). -/
def State.pairLeft (s : State) (u st : Nat) : State :=
  if unitClass u = some .wp && 1 < st then s.setFlag uWarden 0x200 26 false else s

/-- Store a unit's STATE, with REQUEST done and REASON 0 (R36); readmission ends FAILED (R573). -/
def State.setState (s : State) (u st : Nat) : State :=
  let s := s.putState u st
  let s := s.setUcb u 2 (setBits (setBits (s.ucb u 2) 11 8 0) 5 4 0)
  let s := if st = 0 && (s.healthX u).failed then s.setHealthX u { s.healthX u with failed := false } else s
  ((s.groupSync u).fltSync).pairLeft u st

/-- Refuse a request: REASON and REQUEST_REFUSED (R35). -/
def State.refuseReq (s : State) (u reason : Nat) : State :=
  let s := s.setUcb u 2 (setBits (setBits (s.ucb u 2) 11 8 reason) 5 4 0)
  (s.ucbEvent u 2).unitEvent u

/-! ### The spare tile (R91, R92) -/

/-- T8 of a cluster can take a tile's place: enabled, in service, free. -/
def State.spareFree (s : State) (c : Nat) : Bool :=
  s.flag (uTC c) 0x200 0 && s.ustate (uTile c 8) = 0 && !bit (s.ucb (uTile c 8) 6) 30

/-- The tile has a bound spare. -/
def State.hasSpare (s : State) (u : Nat) : Bool :=
  bit (s.ucb u 6) 31 && s.spareFree ((u - 0x20) / 16)

/-- T8 stands in for a tile; it is no longer bound to the other seven, which post SPARE_CHANGED. -/
def State.standIn (s : State) (u : Nat) : State :=
  let c := (u - 0x20) / 16
  if !s.hasSpare u then s
  else
    let s := s.setUcb (uTile c 8) 6 (w32 (2 ^ 30 + u))
    let s := s.wr (uTile c 8) 0x104 (w32 (u % 16))
    let s := ((List.range 8).filter fun t => uTile c t != u).foldl (fun s t =>
      ((s.setUcb (uTile c t) 6 0).ucbEvent (uTile c t) 4).unitEvent (uTile c t)) s
    (s.groupSync u).fltSync

/-- Bind T8 of a cluster to all eight tiles, or to none. -/
def State.bindSpare (s : State) (c : Nat) (on : Bool) : State :=
  (List.range 8).foldl (fun s t =>
    let v := if on then 0x80000000 + uTile c 8 else 0
    if (s.ucb (uTile c t) 6).toNat = v then s
    else ((s.setUcb (uTile c t) 6 (w32 v)).ucbEvent (uTile c t) 4).unitEvent (uTile c t)) s

/-- T8 stops standing in and is bound to all eight tiles again while CL_CFG.SPARE_EN is 1. -/
def State.releaseSpare (s : State) (c : Nat) : State :=
  let s := s.setUcb (uTile c 8) 6 0
  let s := s.wr (uTile c 8) 0x104 (w32 0xF)
  let s := s.bindSpare c (s.flag (uTC c) 0x200 0)
  { (s.groupSync (uTile c 8)).fltSync with spareRelease := s.spareRelease.filter (· != c) }

/-- Release a spare at the next command boundary of its cluster (R35). -/
def State.wantRelease (s : State) (c : Nat) : State :=
  if s.ctxs.any fun r => (s.ctxClusters r.ctx).contains c then
    { s with spareRelease := c :: s.spareRelease.filter (· != c) }
  else s.releaseSpare c

/-! ### The maintenance port's holds (R237, R240) -/

/-- A command runs in a real-time context, on a reserved toe engine or on a reserved gang (R237). -/
def State.rtBusy (s : State) : Bool :=
  s.ctxs.any fun r => (match r.ctx with | .realTime _ => true | _ => false) || s.reservs.any fun y => y.active && y.ctx = r.ctx

/-- Nanoseconds of a hold go to BG_MAINT of every group as whole milliseconds; what is left counts on (R240). -/
def State.maintCount (s : State) (ns : Nat) : State :=
  (List.range 12).foldl (fun t g => t.countF (uBG g) 0x160 15 0 ((s.maintNs + ns) / 10 ^ 6))
    { s with maintNs := (s.maintNs + ns) % 10 ^ 6 }

/-- BG_MAINT follows a hold that goes on: a read shows what has passed of it (R240). -/
def State.maintNow (s : State) : State :=
  match s.maintHold with
  | some t => { s.maintCount (s.nowNs - t) with maintHold := some s.nowNs }
  | none => s

/-- The maintenance port is held while such a command runs; BG_MAINT counts whole milliseconds of it (R237, R240). -/
def State.maintSync (s : State) : State :=
  match s.rtBusy, s.maintHold with
  | true, none => { s with maintHold := some s.nowNs }
  | false, some _ => { s.maintNow with maintHold := none, maintDue := [] }
  | _, _ => s

/-! ### Supervised tasks (R451) -/

def taskOff (t : Nat) : Nat := 0x800 + 16 * t
def State.taskOpen (s : State) (t : Nat) : Bool := s.flag uWarden (taskOff t) 31

/-- Open a task in the lowest free slot; none when all sixteen are open. -/
def State.openTask (s : State) (opener code us : Nat) : State × Option Nat :=
  match (List.range 16).find? fun t => !s.taskOpen t with
  | none => (s, none)
  | some t =>
    let s := s.wr uWarden (taskOff t) (w32 (2 ^ 31 + opener * 2 ^ 28 + code % 2 ^ 16))
    let s := (s.wr uWarden (taskOff t + 4) (w32 us)).wr uWarden (taskOff t + 8) 0
    (s.setWdX fun x => { x with tasks := SMap.insert t s.gauge.ticks (SMap.erase t x.tasks) }, some t)

/-- ELAPSED_US of an open task, by the 500 MHz clock. -/
def State.elapsedUs (s : State) (t : Nat) : Nat :=
  match s.wd.tasks.find? (·.1 = t) with
  | some (_, at_) => (s.gauge.ticks - at_) / 500
  | none => (s.rd uWarden (taskOff t + 8)).toNat

/-- Close a task: it keeps the time it took. -/
def State.closeTask (s : State) (t : Nat) : State :=
  let e := s.elapsedUs t
  let s := (s.setFlag uWarden (taskOff t) 31 false).wr uWarden (taskOff t + 8) (w32 (min e (2 ^ 32 - 1)))
  s.setWdX fun x => { x with tasks := SMap.erase t x.tasks }

/-- Firmware opens a task with a deadline that the spec does not give. -/
def State.fwTask (s : State) (code : Nat) : State × Option Nat :=
  let (w, s) := s.fresh
  s.openTask 0 code (w.toNat % 60000000 + 1)

/-- Open task 0x0003 for a unit Test that has none: the self-test does not begin before. -/
def State.testTask (s : State) (u : Nat) : State :=
  let r := s.urun u
  if r.testing && r.task.isNone then
    let (s, t) := s.fwTask 3
    s.setUrun u { r with task := t }
  else s

/-- The task of a unit's Test closes; a Test that waits for a slot takes it. -/
def State.endTestTask (s : State) (u : Nat) : State :=
  match (s.urun u).task with
  | none => s
  | some t =>
    let s := (s.closeTask t).setUrun u { s.urun u with task := none }
    match s.ucbs.find? fun e => e.2.testing && e.2.task.isNone with
    | some e => s.testTask e.1
    | none => s

/-! ### Requests (R35–R38) -/

/-- The rank of a requester: 1 the Warden to 5 a service call or a register write (R37). -/
def iniRank (ini : Nat) : Nat :=
  if ini = 0x49 then 1 else if ini = 0x4A then 2 else if ini = 0x50 || ini = 0x51 then 4 else 5

/-- A transition of the unit is in progress. -/
def State.inTransition (s : State) (u : Nat) : Bool :=
  s.ustate u = 1 || (s.ustate u = 3 && ((s.urun u).testing || (s.urun u).held))

/-- The power domain of the unit is off. -/
def State.domainOff (s : State) (u : Nat) : Bool :=
  bit (s.ucb u 5) 31 && (let d := bits (s.ucb u 5) 6 0; !s.flag uPwr (0x130 + 4 * (d / 32)) (d % 32))

/-- A context is that of a gang which the cluster is a member of. -/
def State.gangHolds (s : State) (x : Ctx) (c : Nat) : Bool :=
  match x with
  | .gang g => (s.gangClusters g).contains c
  | _ => false

/-- A unit of a real-time reservation; one of a whole gang holds every unit of its members (R261, R262, R542). -/
def State.isReserved (s : State) (u : Nat) : Bool :=
  s.reservs.any fun r => r.active && match unitClass u with
    | some .tile =>
      (r.ctx = .realTime ((u - 0x20) / 16) && r.tiles / 2 ^ (u % 16) % 2 = 1) || s.gangHolds r.ctx ((u - 0x20) / 16)
    | some .ve => r.ctx = .realTime (u - 0x80) || s.gangHolds r.ctx (u - 0x80)
    | some .cs => r.ctx = .realTime (u - 0x184) || s.gangHolds r.ctx (u - 0x184)
    | some .te => r.ctx = .toe (u - 0x88)
    | some .gang => r.ctx = .gang (u - 0x140)
    | _ => false

/-- Members of a redundant set and how many the set runs active (R28, R36). -/
def redundantSet (u : Nat) : Option (List Nat × Nat) :=
  match unitClass u with
  | some .mc => some (span 0x18A 4, 3)
  | some .mp => some (span 0x180 2, 1)
  | some .sp => some (span 0x182 2, 1)
  | some .wp => some (span 0x18E 2, 1)
  | _ => none

/-- A drain would leave the unit's redundant set short (R36 code 0x2). -/
def State.setShort (s : State) (u : Nat) : Bool :=
  match redundantSet u with
  | none => false
  | some (l, need) =>
    let left := l.filter fun m => m != u && s.ustate m = 0
    left.length < need ||
      (unitClass u = some .wp && uWP (s.fld uWarden 0x200 27 27) = u && !s.standbySynced)

/-- Requests: 1 Drain, 2 Test, 3 Readmit (R34). A request of a higher rank takes over a transition in progress: a Drain takes
over a Drain or a Test, a Test a Test, a Readmit a held Readmit (R35, R37; notes/assumptions/17.md). -/
def State.stateAllows (s : State) (u req rank : Nat) : Bool :=
  let r := s.urun u
  let higher := s.inTransition u && rank < r.rank
  match req with
  | 1 => s.ustate u = 0 || higher
  | 2 => s.ustate u = 2 || (s.ustate u = 3 && higher)
  | 3 => s.ustate u = 3 && (r.passed || r.testing) && (!r.held || higher)
  | _ => false

/-- The reason to refuse a request to one unit, or 0 (R36). via: the group the request was made to. -/
def State.reqReason (s : State) (u req rank : Nat) (via : Option Nat) : Nat :=
  if s.domainOff u then 5
  else if via.isNone && (s.groupsOf u).any (fun g => s.groupState g (· != u) != 0 || bits (s.ucb g 2) 5 4 != 0) then 6
  else if s.inTransition u && (s.urun u).rank < rank then 3
  else if !s.stateAllows u req rank then 4
  else if req = 1 && (unitClass u = some .bg) && !s.validParcels.isEmpty then 4
  else if req = 1 && s.isReserved u && !(unitClass u = some .tile && (s.hasSpare u || s.stoodFor u)) then 1
  else if req = 1 && s.setShort u then 2
  else 0

/-- The transition of a unit in progress is taken over: its requester is refused (R37). A call 0x0004 on a group of the unit
stays PENDING, and a taker's later end may complete it (DESIGN CHOICE, notes/assumptions/196.md). -/
def State.takenOver (s : State) (u : Nat) : State :=
  if s.inTransition u then ((s.ucbEvent u 2).finish 0x0004 (u * 4 + 1) REFUSED).finish 0x0004 (u * 4 + 3) REFUSED else s

/-- A tile that leaves service again before the boundary at which T8 was to be released keeps it (R91). -/
def State.keepSpare (s : State) (u : Nat) : State :=
  if s.stoodFor u then { s with spareRelease := s.spareRelease.filter (· != (u - 0x20) / 16) } else s

/-- Take a request to one unit: true when the new state is not reached at once. -/
def State.takeReq (s : State) (u req rank : Nat) : State :=
  let r := s.urun u
  match req with
  | 1 =>
    let s := s.takenOver u
    let s := ((s.setState u 1).setUrun u { r with testing := false, held := false, rank := rank }).endTestTask u
    let s := s.setUcb u 2 (setBits (s.ucb u 2) 5 4 1)
    if unitClass u = some .tile then (s.keepSpare u).standIn u else s
  | 2 =>
    let s := s.takenOver u
    let s := (s.setState u 3).setUrun u { r with testing := true, passed := false, held := false, rank := rank }
    (s.setUcb u 2 (setBits (s.ucb u 2) 5 4 2)).testTask u
  | _ =>
    if r.testing then
      let s := if r.held then s.takenOver u else s
      (s.setUrun u { r with held := true, rank := rank }).setUcb u 2 (setBits (s.ucb u 2) 5 4 3)
    else
      let s := (s.setState u 0).setUrun u { r with passed := false, held := false }
      if s.stoodFor u then s.wantRelease ((u - 0x20) / 16) else s

/-- A request to the ring, for each of its positions (R35, R38): a Drain ends when nothing of this part keeps the ring; the ring
has no test of its own, so a Test has run when the positions are in Test (R594; DESIGN CHOICE, notes/assumptions/177.md). -/
def State.ringRequest (s : State) (req rank : Nat) : State × Nat × Nat :=
  let ok := fun (p : Nat) => s.posState p = (match req with | 1 => 0 | 2 => 2 | _ => 3)
  if bits (s.ucb uRing 2) 5 4 != 0 && (s.urun uRing).rank < rank then (s.refuseReq uRing 3, 3, uRing)
  else match (List.range s.ringNpos).find? fun p => !ok p with
    | some p => (s.refuseReq uRing 4, 4, p)
    | none =>
      let s := (s.setPositions (match req with | 1 => 1 | 2 => 3 | _ => 0)).setUrun uRing { s.urun uRing with rank := rank }
      let s := s.setUcb uRing 2 (setBits (setBits (s.ucb uRing 2) 11 8 0) 5 4 (if req = 1 then 1 else 0))
      (s, 0, uRing)

/-- Nothing keeps a draining ring any more: its positions are Out. -/
def State.ringDrained (s : State) : State :=
  if s.ustate uRing = 1 && s.ringQuiet then (s.setPositions 2).setUcb uRing 2 (setBits ((s.setPositions 2).ucb uRing 2) 5 4 0) else s

/-- The lowest-numbered unit of a list that refuses a request made to a group, with its reason; 0 where none does (R38). -/
def State.refuser (s : State) (ms : List Nat) (req rank u : Nat) : Nat × Nat :=
  ms.foldl (fun a m =>
    let r := s.reqReason m req rank (some u)
    if r != 0 && (a.1 = 0 || m < a.2) then (r, m) else a) (0, u)

/-- The member of a group that refuses, with its reason: of a gang its lowest-numbered cluster with a refusing member (R38). -/
def State.groupRefuser (s : State) (u req rank : Nat) : Nat × Nat :=
  if unitClass u = some .gang then
    (s.groupMembers u).foldl (fun a c =>
      let r := s.refuser (s.groupMembers c) req rank u
      if r.1 != 0 && (a.1 = 0 || c < a.2) then (r.1, c) else a) (0, u)
  else s.refuser (s.leaves u) req rank u

/-- A request to a unit or a group: its REASON and the member that refuses, or 0 (R35, R38). -/
def State.request (s : State) (u req rank : Nat) : State × Nat × Nat :=
  let ls := s.leaves u
  if u = uRing then s.ringRequest req rank
  else if ls = [u] then
    let r := s.reqReason u req rank none
    if r = 0 then (s.takeReq u req rank, 0, u) else (s.refuseReq u r, r, u)
  else
    let outer := if (s.groupsOf u).any (fun g =>
        s.groupState g (fun m => !(s.groupMembers u).contains m) != 0 || bits (s.ucb g 2) 5 4 != 0) then 6 else 0
    let group := if outer != 0 then outer else if req = 1 && s.isReserved u then 1 else 0
    if group != 0 then (s.refuseReq u group, group, u)
    else
      let sorted := s.groupRefuser u req rank
      if sorted.1 != 0 then (s.refuseReq u sorted.1, sorted.1, sorted.2)
      else
        let s := s.setUcb u 2 (setBits (setBits (s.ucb u 2) 11 8 0) 5 4 req)
        let s := ls.foldl (fun s m => s.takeReq m req rank) s
        (s.groupSync (ls.headD u), 0, u)

/-- The unit, or every member of the group, is in the state that a request aims at. -/
def State.reached (s : State) (u req : Nat) : Bool :=
  let want := match req with | 1 => 2 | 2 => 3 | _ => 0
  (s.leaves u).all fun m => s.ustate m = want

/-- Pending requests of call 0x0004 that have reached their state complete with OK (R40, R502). -/
def State.finishRequests (s : State) : State :=
  (s.pendCalls.filter fun c => c.num = 0x0004 && c.fin.isNone).foldl (fun s c =>
    if s.reached (c.key / 4) (c.key % 4) then s.finish 0x0004 c.key OK else s) s

/-- Force a unit out: its commands end as for an uncorrectable error, a bound spare stands in (R35, R91). -/
def State.forceOut (s : State) (u : Nat) : State :=
  let s := s.failUnit u fUNIT_OUT
  let r := s.urun u
  let s := s.takenOver u
  let pause := s.spPause || (unitClass u = some .sp && s.ustate u != 2)
  let s := ((s.setState u 2).setUrun u { r with testing := false, passed := false, held := false }).endTestTask u
  let s : State := { s with spPause := pause }
  match unitClass u with
  | some .tile => (s.keepSpare u).standIn u
  | some .spareTile =>
    if bit (s.ucb u 6) 30 then s.releaseSpare ((u - 0x20) / 16) else s
  | some .ring => s.setPositions 2
  | _ => s

/-! ### Outcomes of faults (R558–R561, R573) -/

/-- Lasting faults for which no unit is forced Out (R558, R560). -/
def keepsUnit (code : Nat) : Bool := code = fPOLDER_UE || code = fLPDDR_UE || code = fLINK_TIMEOUT || code = fLINK_LOST

/-- A record becomes Lasting: the unit concerned is forced Out. -/
def State.makeLasting (s : State) (n : Nat) : State :=
  match s.faults.find? (recNum · = n) with
  | none => s
  | some r =>
    let u := recUnit r
    if recOutcome r = oLasting then s
    else
      let s := (s.setOutcome n oLasting false).count uFault 0x120 1
      let s := if keepsUnit (recCode r) || !s.exists? u then s
        else
          let s := (s.leaves u).foldl (fun s m => s.forceOut m) s
          s.setHealthX u { s.healthX u with failed := true }
      s.fltSync

/-- A Pending record becomes Transient, or Lasting when its unit has reached the limit of its hour window. -/
def State.makeTransient (s : State) (n : Nat) : State :=
  match s.faults.find? (recNum · = n) with
  | none => s
  | some r =>
    if recOutcome r != oPending then s
    else if (s.healthX (recUnit r)).atLimit then s.makeLasting n
    else (s.setOutcome n oTransient false).countTransient (recUnit r)

end Sys2Proof.Machine
end

