-- ==== Sys2Proof/Machine/PowerCore.lean ====
section
/-! DEFINITION. The power controller's shared operations: set points, wakes, domains (R509–R524). -/
namespace Sys2Proof.Machine

/-- Rated power in W by set point (R522). -/
def ratedPower (p : Part) (i : Nat) : Nat :=
  nth (if p.grade1640 then [57, 74, 95, 111, 129, 136] else [82, 106, 135, 158, 184, 190]) i 0
/-- Minimum rate in M/s by set point (R22). -/
def minRate (i : Nat) : Nat := nth [800, 1000, 1200, 1350, 1480, 1620] i 0

/-- PWR_STATUS.STATE: 0 RUN, 1 TRIM, 2 DOZE, 3 SLEEP, 4 entering, 5 leaving (R525). -/
def State.pwrState (s : State) : Nat := s.fld uPwr 0x100 31 29
def State.setPwrState (s : State) (v : Nat) : State := s.setFld uPwr 0x100 31 29 v
/-- The set point in force. -/
def State.setpoint (s : State) : Nat := s.fld uPwr 0x100 22 20
/-- The highest CORNER_V of the active reservations (R262, R522). -/
def State.floorOf (s : State) : Nat :=
  (s.reservs.filter (·.active)).foldl (fun a r => max a r.cornerV) 0
def State.floorSync (s : State) : State := s.setFld uPwr 0x100 19 17 s.floorOf
def State.capW (s : State) : Nat := s.fld uPwr 0x110 9 0

/-- The highest set point whose rated power does not exceed w. -/
def capPoint (p : Part) (w : Nat) : Nat := ((List.range 6).filter fun i => ratedPower p i ≤ w).foldl max 0

/-- The set point that R522 asks for; a reservation that waits for its corner raises it (R261). -/
def State.wantPoint (s : State) : Nat :=
  let wait := (s.reservs.filter fun r => !r.active && !r.releasing).foldl (fun a r => max a r.cornerV) 0
  let base := min (min (s.fld uPwr 0x10C 2 0) (capPoint s.part s.capW)) s.pwr.own
  max (max base s.floorOf) (min wait (capPoint s.part s.capW))

/-- Start the next step of a set point change, one at a time (R522). -/
def State.startStep (s : State) : State :=
  if s.pwr.step.isSome then s
  else if s.wantPoint = s.setpoint then s
  else { s with pwr := { s.pwr with step := some (if s.setpoint < s.wantPoint then s.setpoint + 1 else s.setpoint - 1) } }

/-- The set point whose minimum rate applies: the lower one while a change runs (R22, R27, R522). -/
def State.ratePoint (s : State) : Nat :=
  match s.pwr.step with
  | some t => min t s.setpoint
  | none => s.setpoint

/-- A rate alarm raises the controller's own set point by one (R524). -/
def State.pwrAlarm (s : State) : State :=
  let s := s.count uPwr 0x148 1
  { s with pwr := { s.pwr with own := min 5 (s.pwr.own + 1) } }.startStep

/-- A domain is on. -/
def State.domOn (s : State) (d : Nat) : Bool := s.flag uPwr (0x130 + 4 * (d / 32)) (d % 32)
/-- Switch a domain; RATE_NOW of a cluster reads 0 while its domain, that of its sequencer and vector engine, is off (R25). -/
def State.setDom (s : State) (d : Nat) (on : Bool) : State :=
  let s := if !on && 54 ≤ d && d < 60 then s.wr (uTC (d - 54)) 0x40 0 else s
  { s.setFlag uPwr (0x130 + 4 * (d / 32)) (d % 32) on with domOff := if on then s.domOff.filter (· != d) else s.domOff }

/-- The domains of units that the grade enables (R3, R509). -/
def State.gradeDoms (s : State) : List Nat := (List.range 80).filter (domOnReset s.part)

/-- Post POWER_STATE to every client with route 0b10 or 0b11 (R526). -/
def State.postPower (s : State) (old new : Nat) : State := s.postAll 0x0050 uPwr old new s.routedClients

/-- Record the wake that starts an exit (R519). -/
def State.recordWake (s : State) (src u : Nat) : State :=
  ((s.wr uPwr 0x120 (w32 (2 ^ 31 + s.pwrState % 8 * 2 ^ 28 + src % 16 * 2 ^ 24 + u % 2 ^ 13))).wr uPwr 0x124
    (w32 s.gaugeNs)).wr uPwr 0x128 (w32 s.gaugeS)

/-- Start the exit from DOZE or SLEEP (R519, R520, R521). -/
def State.startExit (s : State) (src u : Nat) : State :=
  let left := s.pwrState
  let s := s.recordWake src u
  let s := if 2 ≤ s.fld uPwr 0x100 28 26 then s.setFld uPwr 0x100 28 26 (s.fld uPwr 0x100 25 23) else s
  let s := if left = 3 then s.emit .rails 0 [1] else s
  { s.setPwrState 5 with pwr := { s.pwr with left := left, began := s.gauge.ticks, wake := none } }

/-- A wake source fires (R517, R518, R519): code 0x9 is a request under R512. -/
def State.wake (s : State) (src u : Nat) : State :=
  if src != 9 && !s.flag uPwr 0x11C (src - 1) then s
  else if s.pwrState = 2 || s.pwrState = 3 then s.startExit src u
  else if s.pwrState = 4 && s.pwr.wake.isNone then { s with pwr := { s.pwr with wake := some (src, u) } }
  else s

/-- Record a refusal: the state asked for, the reason of R516, the unit (R514, R525). -/
def State.pwrRefuse (s : State) (st reason u : Nat) : State :=
  s.wr uPwr 0x108 (w32 (2 ^ 31 + st % 8 * 2 ^ 28 + reason % 16 * 2 ^ 24 + u % 2 ^ 13))

/-- The scheduler dispatches in RUN and TRIM only (R513, R514). -/
def State.mayDispatch (s : State) : Bool := s.pwrState ≤ 1

end Sys2Proof.Machine
end

