-- ==== Sys2Proof/Machine/Device.lean ====
section
/-! DEFINITION. Device information, claims, unit control blocks, rate monitors (R4, R6, R24–R27, R33–R40). -/
namespace Sys2Proof.Machine

/-! ### Device information and claims -/

/-- 0x0000: grade, suffix, stepping (R4); their encodings are free (notes/assumptions/6.md). -/
def callDeviceInfo (s : State) : State :=
  s.ret OK ((List.range 3).map fun i => Config.partWord s.part.grade1640 s.part.suffixX i)

def execDeviceInformation (_ : Nat) (_ : List Word) (s : State) : Out := .next (callDeviceInfo s)

/-- Unit a is nested in unit b, or is b. -/
def State.inside (s : State) (a b : Nat) : Bool := (s.up a 3).contains b

/-- 0x0001: take an expert claim (R6); the WARDEN claim goes to 0x180 alone (R450). -/
def callClaim (ini : Nat) (args : List Word) (s : State) : State :=
  let u := arg args 0
  if !s.exists? u then s.ret NO_UNIT
  else if s.claims.any fun c => c.unit = u && c.ini = ini then s.ret OK
  else if s.claims.any fun c => c.ini != ini && (s.inside c.unit u || s.inside u c.unit) then s.ret CLAIMED
  else if s.inside u uWarden && ini != 0x180 then s.ret DENIED
  else
    let mine := s.claims.filter fun c => c.ini = ini && s.inside c.unit u
    let rest := s.claims.filter fun c => !(c.ini = ini && s.inside c.unit u)
    { s.ret OK with claims := ⟨u, ini, mine.flatMap fun c => c.unit :: c.taken⟩ :: rest }

def execClaimUnit (ini : Nat) (args : List Word) (s : State) : Out := .next (callClaim ini args s)

/-- 0x0002: release a claim with every claim taken into it (R6). -/
def callRelease (ini : Nat) (args : List Word) (s : State) : State :=
  let u := arg args 0
  if !s.exists? u then s.ret NO_UNIT
  else match s.claims.find? (·.unit = u) with
    | none => s.ret OK
    | some c =>
      if c.ini != ini then s.ret DENIED
      else { s.ret OK with claims := s.claims.filter (·.unit != u) }

def execReleaseUnit (ini : Nat) (args : List Word) (s : State) : Out := .next (callRelease ini args s)

/-! ### Rate monitors (R24–R27) -/

/-- Where monitor m's registers lie: clusters 0–5, 6 the memory side, 7 the always-on ring (R25, R26). -/
def rateBlock (m : Nat) : Nat × Nat :=
  if m < 6 then (uTC m, 0x40) else if m = 6 then (uDevctl, 0x80) else (uDevctl, 0x90)

def RateMon.init : RateMon := ⟨0, true, true⟩
def State.rateMon (s : State) (m : Nat) : RateMon := SMap.get (fun _ => RateMon.init) m s.rates
def State.setRateMon (s : State) (m : Nat) (r : RateMon) : State :=
  { s with rates := SMap.set (fun _ => RateMon.init) m r s.rates }

/-- The threshold of a monitor, in sevenths-exact eighths of an M/s (R27). -/
def State.rateThreshold8 (s : State) (m : Nat) : Nat :=
  let (u, o) := rateBlock m
  if s.flag u (o + 12) 16 then
    let r := if m < 7 then minRate s.ratePoint else 960
    if s.part.suffixX then 7 * r else 8 * r
  else 8 * s.fld u (o + 12) 15 0

/-- A rate alarm: to the fault manager, the power controller and the claim holder (R27, R524). -/
def State.rateAlarm (s : State) (m : Nat) : State :=
  let u := (rateBlock m).1
  let s := s.recordFault fRATE_ALARM u 0x4A noQueue 0 0 (s.fld u (rateBlock m).2 15 0) 0 oNone
  s.pwrAlarm.unitEvent u

/-- A window ends with a count of handshakes; off: the unit's domain was off during part of it (R24, R25, R27). A window
that ends while the cluster's domain is off is such a window whatever the operand. -/
def State.rateWindow (s : State) (m count : Nat) (off : Bool) : State :=
  let (u, o) := rateBlock m
  let s := s.calApply fun k => calKeyOf u 2 k && k % 4096 = (if m = 7 then 1 else 0)
  let r := s.rateMon m
  let n := count % 2 ^ 16
  if off || (m < 6 && s.domainOff (uVE m)) then
    let s := if m < 6 && s.domainOff (uVE m) then s.wr u o 0 else s.setFld u o 15 0 n
    s.setRateMon m { r with below := 0, first := true }
  else
    let s := s.setFld u o 15 0 n
    let s := if n < s.fld u (o + 4) 15 0 then s.setFld u (o + 4) 15 0 n else s
    let s := if s.fld u (o + 8) 15 0 < n then s.setFld u (o + 8) 15 0 n else s
    if r.first then s.setRateMon m { r with below := 0, first := false }
    else if 8 * n < s.rateThreshold8 m then
      if r.below + 1 < 2 || !r.armed then s.setRateMon m { r with below := r.below + 1 }
      else (s.setRateMon m { r with below := r.below + 1, armed := false }).rateAlarm m
    else s.setRateMon m { r with below := 0, armed := true }

def execRateWindowEnd (m count : Nat) (off : Bool) (s : State) : Out := .next (s.rateWindow m count off)

/-- 0x0006: RATE_NOW and RATE_MIN of each cluster, the memory side and the always-on ring (R40). -/
def callRates (s : State) : State :=
  let (s, ws) := (List.range numTC0 ++ [6, 7]).foldl (fun (a : State × List Word) m =>
    let (u, o) := rateBlock m
    if fusedOff a.1.part u then (a.1, a.2 ++ [0, 0])
    else
      let now := a.1.rd u o
      let (mn, s) := a.1.readRC u (o + 4)
      (s, a.2 ++ [now, mn])) (s, [])
  s.ret OK ws
where numTC0 : Nat := 6

def execReadRateMonitors (_ : Nat) (_ : List Word) (s : State) : Out := .next (callRates s)

/-! ### Unit control blocks (R33–R40) -/

/-- A write of UCB_STATE.REQUEST by an initiator: the claim rule of R8, which never binds the Warden, the fault
manager or the power controller (R9), then the request (R35). -/
def State.ucbRequest (s : State) (ini u req : Nat) : State :=
  if !s.exists? u then s.addrError ini (0x20000000 + rk u 8)
  else if 3 ≤ iniRank ini && (match s.claimOn u with | some c => c.ini != ini | none => true) then
    s.accError ini (0x20000000 + ucbKey u 2) .notHolder
  else
    let (s, _, _) := s.request u req (iniRank ini)
    (if iniRank ini ≤ 2 then s.unitEvent u else s).finishRequests

def execUcbRequestDrain (ini u : Nat) (s : State) : Out := .next (s.ucbRequest ini u 1)
def execUcbRequestTest (ini u : Nat) (s : State) : Out := .next (s.ucbRequest ini u 2)
def execUcbRequestReadmit (ini u : Nat) (s : State) : Out := .next (s.ucbRequest ini u 3)

/-- The last command on a draining unit has ended: it is Out (R35). -/
def State.unitDrained (s : State) (u : Nat) : State :=
  if u = uRing then s.ringDrained.finishRequests
  else if s.ustate u = 1 && (s.leaves u = [u]) && !s.unitBusy u then (s.setState u 2).finishRequests else s

def TestX.init : TestX := ⟨0, false, false, none, 0⟩
def State.testX (s : State) (u : Nat) : TestX := SMap.get (fun _ => TestX.init) u s.wd.tests
def State.setTestX (s : State) (u : Nat) (x : TestX) : State :=
  { s with wd := { s.wd with tests := SMap.set (fun _ => TestX.init) u x s.wd.tests } }

/-- A tile or a toe engine. -/
def isTested (u : Nat) : Bool := match unitClass u with
  | some .tile => true | some .spareTile => true | some .te => true | _ => false

/-- A full test of a tile or a toe engine has passed: TILE_TEST says so (R99, R452). -/
def State.fullTestPass (s : State) (u : Nat) : State :=
  if !isTested u then s
  else
    let s := s.setTestX u { s.testX u with slice := 0, failed := false, passAt := some s.gauge.ticks, debt := 0 }
    if unitClass u = some .te then s else s.wr u 0x11C 0xC0000000

/-- A full test of a tile has failed. -/
def State.fullTestFail (s : State) (u : Nat) : State :=
  let s := if isTested u then s.setTestX u { s.testX u with slice := 0, failed := false } else s
  if isTested u && unitClass u != some .te then s.setFld u 0x11C 31 30 0b10 else s

/-- A self-test ends: a pass leaves the unit in Test, or in service when a Readmit was held; a failure returns it to
Out with FAULT set and refuses a held Readmit (R35). A call on the unit’s group stays PENDING (DESIGN CHOICE,
notes/assumptions/196.md). -/
def State.testDone (s : State) (u : Nat) (pass : Bool) : State :=
  let r := s.urun u
  let s := if s.ustate u = 3 && r.testing then s.injectedBit u else s
  let (t, inj) := s.injected u 1
  if s.ustate u != 3 || !r.testing || r.task.isNone then s
  else if pass && inj = 0 then
    let s := (s.setUrun u { r with testing := false, passed := true, held := false }).endTestTask u
    let s := s.fullTestPass u
    let s := s.setUcb u 2 (setBits (s.ucb u 2) 5 4 0)
    if r.held then (s.takeReq u 3 r.rank).finishRequests else s
  else
    let s := (t.setUrun u { r with testing := false, passed := false, held := false }).endTestTask u
    let s := s.fullTestFail u
    let s := s.ucbEvent u 16
    let s := s.recordFault fTEST_FAIL u 0x4A noQueue 0 0 0 inj oNone
    let s := s.setState u 2
    if r.held then (s.refuseReq u 4).finish 0x0004 (u * 4 + 3) REFUSED else s

/-- 0x0003: the eleven words of a control block; UCB_FAULTS is read and cleared (R13, R40). -/
def callReadUcb (args : List Word) (s : State) : State :=
  let u := arg args 0
  if !s.exists? u then s.ret NO_UNIT
  else (s.setUcb u 10 0).ret OK ((List.range 11).map fun k => s.ucb u k)

def execReadUnitControlBlock (_ : Nat) (args : List Word) (s : State) : Out := .next (callReadUcb args s)

/-- 0x0004: request a unit state (R35–R38, R40). -/
def callRequestState (ini : Nat) (args : List Word) (s : State) : State :=
  let u := arg args 0
  let req := arg args 1
  if !s.exists? u then s.ret NO_UNIT
  else if req = 0 || 3 < req then s.ret RANGE
  else if s.claimed u || (s.leaves u).any s.claimed then s.ret CLAIMED
  else
    let (s, reason, m) := s.request u req 5
    if reason != 0 then s.ret REFUSED [w32 reason, w32 m]
    else if s.reached u req then s.finishRequests.ret OK
    else s.retPending 0x0004 (u * 4 + req)

def execRequestUnitState (ini : Nat) (args : List Word) (s : State) : Out := .next (callRequestState ini args s)

/-- 0x0005: unit number, class and STATE of the existing units from a number on, at most 64 (R40). -/
def callListUnits (args : List Word) (s : State) : State :=
  let n := arg args 1
  if 64 < n then s.ret RANGE
  else
    let us := ((allUnits.filter fun u => arg args 0 ≤ u && s.exists? u).take n)
    s.ret OK (us.flatMap fun u => [w32 u, w32 (bits (s.ucb u 0) 31 24), w32 (s.ustate u)])

def execListUnits (_ : Nat) (args : List Word) (s : State) : Out := .next (callListUnits args s)

end Sys2Proof.Machine
end

