-- ==== Sys2Proof/Machine/Access.lean ====
section
/-! DEFINITION. The rules every register access meets: claims, firewalls, access types, reserved bits, ranges,
latched high words (R7, R8, R13–R15, R99, R449), and the memory that a service call reads or writes (R497, R501). -/
namespace Sys2Proof.Machine

/-! ### Writes -/

/-- The bits of a word under a mask. -/
def andN (w : Word) (mask : Nat) : Nat := w.toNat &&& mask

/-- Why a value may not be written to a register of this row, reserved bits and ranges (R13, R15). -/
def RegRow.bad (r : RegRow) (v : Word) : Option AccCause :=
  if r.acc = .ro || r.acc = .rc then some .readOnly
  else if v.toNat &&& r.valid != v.toNat then some .reserved
  else if r.ranges.any fun (hi, lo, least, most) => bits v hi lo < least || most < bits v hi lo then some .range
  else none

/-- What a row stores of a value: RO fields keep theirs, W1C fields lose the ones written (R13). -/
def RegRow.merge (r : RegRow) (old v : Word) : Word :=
  match r.acc with
  | .wo => old
  | .w1c => w32 (old.toNat - (old.toNat &&& v.toNat))
  | _ =>
    let c := r.w1c
    let k := r.ro
    let keep := old.toNat &&& k
    let clr := (old.toNat &&& c) - (old.toNat &&& c &&& v.toNat)
    w32 (keep ||| clr ||| (v.toNat - (v.toNat &&& (c ||| k))))

/-- The device address of a register (R12, R41). -/
def regAddr (u off : Nat) : Nat := 0x20000000 + rk u off

/-- The initiator holds the claim that covers the unit (R6, R7); the Warden, the fault manager and the power
controller need none (R9). -/
def State.mayWrite (s : State) (ini u : Nat) : Bool :=
  ini = 0x49 || ini = 0x4A || match s.claimOn u with
    | some c => c.ini = ini
    | none => false

/-- A write to a register with effects of its own: the block is enabled (R3), the firewalls allow it (R449), the
writer holds the claim or the register is open (R8), the value is in bounds (R13, R15); then it acts. The firewalls are the
check of the open register DOORBELL, whose refusal is a register-access error too (R8). A write of 0 to a reserved offset is
accepted and does nothing (R15). -/
def State.guarded (s : State) (ini u off : Nat) (v : Word) (isOpen : Bool) (act : State → State) : State :=
  let a := regAddr u off
  if !s.exists? u then s.accError ini a .notEnabled
  else if !s.fwAllows ini a true then
    let s := s.fwRefuse ini a true
    if isOpen && u = uSched then s.accError ini a .check else s
  else if !isOpen && !s.mayWrite ini u then s.accError ini a .notHolder
  else match findRow u off with
    | none => if v = 0 then s else s.accError ini a .reserved
    | some r => match r.bad v with
      | some c => s.accError ini a c
      | none => act s

/-- Store a value under the row's access type. -/
def State.store (s : State) (u off : Nat) (v : Word) : State :=
  match findRow u off with
  | some r => s.wr u off (r.merge (s.rd u off) v)
  | none => s

/-- A write that only stores, unless a check of its own gives a cause. -/
def State.guardedStore (s : State) (ini u off : Nat) (v : Word) (check : State → Option AccCause) : State :=
  s.guarded ini u off v false fun s =>
    match check s with
    | some c => s.accError ini (regAddr u off) c
    | none => s.store u off v

/-! ### Reads -/

/-- Low registers whose read latches the next one (R99, R100, R132, R161, R242, R291, R315). -/
def latches (u off : Nat) : Bool :=
  match unitClass u with
  | some .tile => off = 0x108
  | some .spareTile => off = 0x108
  | some .tc => off = 0x210
  | some .te => off = 0x114
  | some .ve => off = 0x10C
  | some .dc => off = 0x108
  | some .devctl => off = 0x414
  | some .ax => off = 0x11C || off = 0x124
  | _ => false

/-- Read a register of the tables: RO and RW return the value, WO 0, RC the value before its reset value is set;
a latching low register sets the high one. -/
def State.readReg (s : State) (u off : Nat) : Word × State :=
  let v := s.rd u off
  let s := if latches u off && (SMap.get (fun _ => 0) (rk u off) s.wide != 0 || s.rd u (off + 4) != 0) then
      s.wr u (off + 4) (w32 (s.wide64 u off / 2 ^ 32))
    else s
  match findRow u off with
  | some r => match r.acc with
    | .wo => (0, s)
    | .rc => (v, s.wr u off (regReset s.part (rk u off)))
    | _ => (v, s)
  | none => (v, s)

/-- Read registers one after the other. -/
def State.readRegs (s : State) (u : Nat) : List Nat → List Word × State
  | [] => ([], s)
  | o :: t =>
    let (w, s) := s.readReg u o
    let (ws, s) := s.readRegs u t
    (w :: ws, s)

/-- A call returns OK with registers read as a read of each does. -/
def State.retRegs (s : State) (u : Nat) (offs : List Nat) : State :=
  let (ws, s) := s.readRegs u offs
  s.ret OK ws

/-! ### Memory of service calls -/

/-- The active management processor's initiator ID (R213, R569). -/
def State.mpIni (s : State) : Nat := 0x40 + s.mpActive

/-- The client that translates for an initiator, or one that has no root (R497). -/
def State.xlClient (s : State) (ini : Nat) : Nat := (s.clientOf ini).getD 0xFFFF

def XLATE_FAULT : Nat := 0x01B1

/-- The status, and the second result word, that an access of a call ends with. -/
def callFault : AccRes → Nat × List Word
  | .ok => (OK, [])
  | .xlate c => (XLATE_FAULT, [w32 c])
  | .firewall => (DENIED, [])
  | _ => (RANGE, [])

/-- Read n bytes for a call from LPDDR4X or a host window, page by page. -/
def State.callRead (s : State) (ini a : Nat) : Nat → Nat → State × AccRes × List Byte
  | 0, _ => (s, .ok, [])
  | _ + 1, 0 => (s, .ok, [])
  | f + 1, n =>
    let k := min n (4096 - a % 4096)
    let (s, r, bs) := s.extRead s.mpIni (s.xlClient ini) false a k
    if r = .ok then
      let (s, r, t) := s.callRead ini (a + k) f (n - k)
      (s, r, bs ++ t)
    else (s, r, [])

/-- Write bytes for a call to LPDDR4X or a host window, page by page. -/
def State.callWrite (s : State) (ini a : Nat) : Nat → List Byte → State × AccRes
  | 0, _ => (s, .ok)
  | f + 1, l =>
    if l.isEmpty then (s, .ok)
    else
      let k := min l.length (4096 - a % 4096)
      let (s, r) := s.extWrite s.mpIni (s.xlClient ini) false a (l.take k)
      if r = .ok then s.callWrite ini (a + k) f (l.drop k) else (s, r)

/-- Pages that n bytes from a touch, at most. -/
def pagesFor (n : Nat) : Nat := n / 4096 + 2

end Sys2Proof.Machine
end

