-- ==== Sys2Proof/Machine/Float.lean ====
section
/-! DEFINITION. IEEE 754 binary32 with round-to-nearest-even, and the formats of R49 (R49, R50, R63, R70, R71,
R138, R139). -/
namespace Sys2Proof.Machine

/-- A number: a finite dyadic (−1)^neg × m × 2^e, an infinity, a NaN. -/
inductive Flt where
  | fin (neg : Bool) (m : Nat) (e : Int)
  | inf (neg : Bool)
  | nan
  deriving DecidableEq, Repr

/-! ### Rounding -/

/-- m × 2^sh rounded to nearest even; sticky: something nonzero lies below m's last bit. -/
def rne (m : Nat) (sh : Int) (sticky : Bool := false) : Nat :=
  if 0 ≤ sh then m * 2 ^ sh.toNat
  else
    let d := (-sh).toNat
    let n := m / 2 ^ d
    let r := m % 2 ^ d
    let h := 2 ^ (d - 1)
    if h < r || (r = h && (sticky || n % 2 = 1)) then n + 1 else n

/-- Round m × 2^e to mb fraction bits with least normal exponent emin: significand and exponent. -/
def roundTo (mb : Nat) (emin : Int) (m : Nat) (e : Int) (sticky : Bool := false) : Nat × Int :=
  if m = 0 then (0, emin - mb)
  else
    let q := max (e + Nat.log2 m - mb) (emin - mb)
    let n := rne m (e - q) sticky
    if n = 2 ^ (mb + 1) then (2 ^ mb, q + 1) else (n, q)

/-- Fields of a rounded number: exponent field and fraction. -/
def packFields (mb : Nat) (bias : Int) (n : Nat) (q : Int) : Nat × Nat :=
  if n < 2 ^ mb then (0, n) else ((q + mb + bias).toNat, n - 2 ^ mb)

/-! ### Binary32 -/

def f32NaN : Word := 0x7FC00000
def f32Inf (neg : Bool) : Word := if neg then 0xFF800000 else 0x7F800000
def f32Zero (neg : Bool) : Word := if neg then 0x80000000 else 0

/-- The number that a float code stands for; ieee: the top exponent holds infinity and NaN. -/
def decodeFlt (eb mb : Nat) (bias : Int) (ieee : Bool) (code : Nat) : Flt :=
  let neg := code / 2 ^ (eb + mb) % 2 = 1
  let e := code / 2 ^ mb % 2 ^ eb
  let m := code % 2 ^ mb
  if ieee && e = 2 ^ eb - 1 then (if m = 0 then .inf neg else .nan)
  else if e = 0 then .fin neg m (1 - bias - mb)
  else .fin neg (2 ^ mb + m) (e - bias - mb)

/-- The number of a binary32 word. -/
def f32 (w : Word) : Flt := decodeFlt 8 23 127 true w.toNat

/-- The binary32 word nearest to m × 2^e, ties to even; beyond the range an infinity (R63). -/
def f32Round (neg : Bool) (m : Nat) (e : Int) (sticky : Bool := false) : Word :=
  let (n, q) := roundTo 23 (-126) m e sticky
  let (x, f) := packFields 23 127 n q
  if 255 ≤ x then f32Inf neg else BitVec.ofNat 32 (b2n neg * 2 ^ 31 + x * 2 ^ 23 + f)

/-- The word of a number. -/
def f32Enc : Flt → Word
  | .nan => f32NaN
  | .inf neg => f32Inf neg
  | .fin neg m e => f32Round neg m e

def f32IsNaN (w : Word) : Bool := f32 w = .nan
/-- An infinity or a NaN. -/
def f32NonFin (w : Word) : Bool := match f32 w with | .fin .. => false | _ => true

/-- The exact sum of two finite numbers as a signed integer at the lower exponent. -/
def alignSum (n1 : Bool) (m1 : Nat) (e1 : Int) (n2 : Bool) (m2 : Nat) (e2 : Int) : Int × Int :=
  let e := min e1 e2
  let a : Int := m1 * 2 ^ (e1 - e).toNat
  let b : Int := m2 * 2 ^ (e2 - e).toNat
  ((if n1 then -a else a) + (if n2 then -b else b), e)

/-- Sum of two numbers, rounded once. -/
def fltAdd : Flt → Flt → Word
  | .nan, _ => f32NaN
  | _, .nan => f32NaN
  | .inf a, .inf b => if a = b then f32Inf a else f32NaN
  | .inf a, _ => f32Inf a
  | _, .inf b => f32Inf b
  | .fin n1 m1 e1, .fin n2 m2 e2 =>
    let (z, e) := alignSum n1 m1 e1 n2 m2 e2
    if z = 0 then f32Zero (n1 && n2 && m1 = 0 && m2 = 0) else f32Round (z < 0) z.natAbs e

/-- Product of two numbers, exact. -/
def fltMul : Flt → Flt → Flt
  | .nan, _ => .nan
  | _, .nan => .nan
  | .inf a, .inf b => .inf (a != b)
  | .inf a, .fin b m _ => if m = 0 then .nan else .inf (a != b)
  | .fin a m _, .inf b => if m = 0 then .nan else .inf (a != b)
  | .fin a m e, .fin b n f => .fin (a != b) (m * n) (e + f)

def fadd (a b : Word) : Word := fltAdd (f32 a) (f32 b)
def fneg (a : Word) : Word := if f32IsNaN a then f32NaN else a ^^^ 0x80000000
def fabs (a : Word) : Word := if f32IsNaN a then f32NaN else a &&& 0x7FFFFFFF
def fsub (a b : Word) : Word := if f32IsNaN b then f32NaN else fadd a (fneg b)
def fmul (a b : Word) : Word := f32Enc (fltMul (f32 a) (f32 b))
/-- a × b + c, rounded once. -/
def ffma (a b c : Word) : Word := fltAdd (fltMul (f32 a) (f32 b)) (f32 c)

/-- a < b on numbers; false with a NaN. -/
def fltLt : Flt → Flt → Bool
  | .nan, _ => false
  | _, .nan => false
  | .inf a, .inf b => a && !b
  | .inf a, .fin .. => a
  | .fin .., .inf b => !b
  | .fin n1 m1 e1, .fin n2 m2 e2 => (alignSum n1 m1 e1 (!n2) m2 e2).1 < 0

def flt (a b : Word) : Bool := fltLt (f32 a) (f32 b)
/-- a = b on numbers: +0 equals −0; false with a NaN. -/
def feq (a b : Word) : Bool := !f32IsNaN a && !f32IsNaN b && !flt a b && !flt b a
def fle (a b : Word) : Bool := flt a b || feq a b
def isNeg (a : Word) : Bool := bit a 31

/-- Maximum and minimum under R121: +0 above −0, a NaN makes a NaN. -/
def fmax (a b : Word) : Word :=
  if f32IsNaN a || f32IsNaN b then f32NaN
  else if flt a b then b else if flt b a then a else if isNeg a then b else a
def fmin (a b : Word) : Word :=
  if f32IsNaN a || f32IsNaN b then f32NaN
  else if flt a b then a else if flt b a then b else if isNeg a then a else b

/-- a ÷ b, correctly rounded. -/
def fdiv (a b : Word) : Word :=
  match f32 a, f32 b with
  | .nan, _ => f32NaN
  | _, .nan => f32NaN
  | .inf _, .inf _ => f32NaN
  | .inf x, .fin y _ _ => f32Inf (x != y)
  | .fin x _ _, .inf y => f32Zero (x != y)
  | .fin x m e, .fin y n f =>
    if n = 0 then (if m = 0 then f32NaN else f32Inf (x != y))
    else if m = 0 then f32Zero (x != y)
    else f32Round (x != y) (m * 2 ^ 50 / n) (e - 50 - f) (m * 2 ^ 50 % n != 0)

/-- One digit of the integer square root, from bit k down. -/
def isqrtGo (m : Nat) : Nat → Nat → Nat
  | 0, r => r
  | k + 1, r => let c := r + 2 ^ k; isqrtGo m k (if c * c ≤ m then c else r)
/-- The integer square root. -/
def isqrt (m : Nat) : Nat := isqrtGo m (Nat.log2 m / 2 + 1) 0

/-- √x, correctly rounded. -/
def fsqrt (a : Word) : Word :=
  match f32 a with
  | .nan => f32NaN
  | .inf neg => if neg then f32NaN else f32Inf false
  | .fin neg m e =>
    if m = 0 then f32Zero neg
    else if neg then f32NaN
    else
      let k : Nat := if e % 2 = 0 then 60 else 61
      let r := isqrt (m * 2 ^ k)
      f32Round false r ((e - k) / 2) (r * r != m * 2 ^ k)

/-- 1/√x, correctly rounded (R142). -/
def frsqrt (a : Word) : Word :=
  match f32 a with
  | .nan => f32NaN
  | .inf neg => if neg then f32NaN else f32Zero false
  | .fin neg m e =>
    if m = 0 then f32Inf neg
    else if neg then f32NaN
    else
      let (m, e) := if e % 2 = 0 then (m, e) else (2 * m, e - 1)
      let r := isqrt (2 ^ 100 / m)
      f32Round false r (-50 - e / 2) (r * r * m != 2 ^ 100)

def f32One : Word := 0x3F800000
/-- 1/x, correctly rounded (R142). -/
def frcp (a : Word) : Word := fdiv f32One a
/-- The word of an integer, rounded. -/
def f32OfInt (z : Int) : Word := f32Round (z < 0) z.natAbs 0

/-- The greatest integer at most a finite number. -/
def floorFlt (neg : Bool) (m : Nat) (e : Int) : Int :=
  let v : Int := if neg then -(m : Int) else m
  if 0 ≤ e then v * 2 ^ e.toNat else v / 2 ^ (-e).toNat

/-! ### Formats (R49, R50) -/

/-- A format code that matrix and vector operands may carry. -/
def fmtInput (f : Nat) : Bool := f ≤ 9
def fmtOutput (f : Nat) : Bool := f ≤ 10
/-- Bits of one element. -/
def fmtBits (f : Nat) : Nat := nth [4, 8, 8, 8, 8, 6, 6, 4, 16, 16, 32] f 8
def fmtIsInt (f : Nat) : Bool := f ≤ 2
def fmt4bit (f : Nat) : Bool := f = 0 || f = 7

/-- Exponent bits, fraction bits and bias of a float format. -/
def fmtShape (f : Nat) : Nat × Nat × Int :=
  nth [(4, 3, 7), (5, 2, 15), (3, 2, 3), (2, 3, 1), (2, 1, 1), (5, 10, 15), (8, 7, 127), (8, 23, 127)] (f - 3) (8, 23, 127)

/-- The largest finite magnitude of a float format as significand and exponent (R49). -/
def fmtMax (f : Nat) : Nat × Int :=
  nth [(7, 6), (7, 13), (7, 2), (15, -1), (3, 1), (2047, 5), (255, 120), (16777215, 104)] (f - 3) (16777215, 104)

/-- Range of an integer format. -/
def fmtRange (f : Nat) : Int × Int := if f = 0 then (-8, 7) else if f = 1 then (-128, 127) else (0, 255)

/-- The zero point of an operand lies in its range (R52); a float operand takes 0. -/
def zpOk (f : Nat) (z : Int) : Bool :=
  if fmtIsInt f then (fmtRange f).1 ≤ z && z ≤ (fmtRange f).2 else true

/-- The integer value of an integer code. -/
def intCode (f code : Nat) : Int := if f = 0 then sext 4 code else if f = 1 then sext 8 code else (code % 256 : Nat)

/-- The number that an input code stands for, less its zero point (R49, R52). -/
def codeFlt (f : Nat) (zp : Int) (code : Nat) : Flt :=
  if fmtIsInt f then let v := intCode f code - zp; .fin (v < 0) v.natAbs 0
  else
    let (eb, mb, bias) := fmtShape f
    if f = 3 && code % 128 = 127 then .nan
    else decodeFlt eb mb bias (f = 4 || 8 ≤ f) code

/-- Element i of packed bytes (R50). -/
def unpack (f : Nat) (bytes : List Byte) (i : Nat) : Nat :=
  let b := fmtBits f
  let p := b * i
  let lo := (nth bytes (p / 8) 0).toNat + 256 * (nth bytes (p / 8 + 1) 0).toNat +
    65536 * (nth bytes (p / 8 + 2) 0).toNat + 16777216 * (nth bytes (p / 8 + 3) 0).toNat
  lo / 2 ^ (p % 8) % 2 ^ b

/-- Bytes of a row of n elements, padded with zero codes to a whole group (R50). -/
def rowBytes (f n : Nat) : Nat :=
  if f = 0 || f = 7 then (n + 1) / 2
  else if f = 5 || f = 6 then (n + 3) / 4 * 3
  else n * fmtBits f / 8

/-- Codes packed into bytes as one little-endian number (R50). -/
def packNat (b : Nat) : List Nat → Nat
  | [] => 0
  | c :: t => c % 2 ^ b + 2 ^ b * packNat b t
/-- A row of codes as bytes. -/
def packRow (f : Nat) (codes : List Nat) : List Byte := natBytes (rowBytes f codes.length) (packNat (fmtBits f) codes)

/-! ### Requantisation (R71) -/

/-- What requantisation made: the code, a clip, a non-finite value. -/
structure Requant where
  code : Nat
  clip : Bool
  nonfin : Bool
  deriving DecidableEq, Repr

/-- The NaN code of a format (R71). -/
def fmtNaN (f : Nat) : Nat := nth [0, 0, 0, 0x7F, 0x7E, 0, 0, 0, 0x7E00, 0x7FC0, 0x7FC00000] f 0

/-- The code of a rounded finite float. -/
def fmtCode (f : Nat) (neg : Bool) (n : Nat) (q : Int) : Nat :=
  let (eb, mb, bias) := fmtShape f
  let (x, fr) := packFields mb bias n q
  b2n neg * 2 ^ (eb + mb) + x * 2 ^ mb + fr

/-- Requantise a binary32 word to an output format (R71). -/
def requant (f : Nat) (w : Word) : Requant :=
  if f = 10 then ⟨w.toNat, false, false⟩
  else if fmtIsInt f then
    let (lo, hi) := fmtRange f
    let b := fmtBits f
    match f32 w with
    | .nan => ⟨0, false, true⟩
    | .inf neg => ⟨unsext b (if neg then lo else hi), false, true⟩
    | .fin neg m e =>
      let n : Int := rne m e
      let v := if neg then -n else n
      if v < lo then ⟨unsext b lo, true, false⟩
      else if hi < v then ⟨unsext b hi, true, false⟩
      else ⟨unsext b v, false, false⟩
  else
    let (mm, me) := fmtMax f
    let (_, mb, bias) := fmtShape f
    let top := fun neg => fmtCode f neg (roundTo mb (1 - bias) mm me).1 (roundTo mb (1 - bias) mm me).2
    match f32 w with
    | .nan => ⟨fmtNaN f, false, true⟩
    | .inf neg =>
      if f = 4 then ⟨b2n neg * 128 + 0x7C, false, true⟩
      else if f = 8 then ⟨b2n neg * 32768 + 0x7C00, false, true⟩
      else if f = 9 then ⟨b2n neg * 32768 + 0x7F80, false, true⟩
      else ⟨top neg, false, true⟩
    | .fin neg m e =>
      let (n, q) := roundTo mb (1 - bias) m e
      if fltLt (.fin false mm me) (.fin false n q) then ⟨top neg, true, false⟩
      else ⟨fmtCode f neg n q, false, false⟩

end Sys2Proof.Machine
end

