-- ==== Sys2Proof/Machine/Tables.lean ====
section
/-! DEFINITION. Table set 0x0001 and the special functions (R140–R142). The constants are the correctly rounded
values of the definitions of R140. -/
namespace Sys2Proof.Machine

/-- T[i] = rn(2^(i/64)). -/
def tabT : List Word := [
  0x3F800000, 0x3F8164D2, 0x3F82CD87, 0x3F843A29, 0x3F85AAC3, 0x3F871F62, 0x3F88980F, 0x3F8A14D5,
  0x3F8B95C2, 0x3F8D1ADF, 0x3F8EA43A, 0x3F9031DC, 0x3F91C3D3, 0x3F935A2B, 0x3F94F4F0, 0x3F96942D,
  0x3F9837F0, 0x3F99E046, 0x3F9B8D3A, 0x3F9D3EDA, 0x3F9EF532, 0x3FA0B051, 0x3FA27043, 0x3FA43516,
  0x3FA5FED7, 0x3FA7CD94, 0x3FA9A15B, 0x3FAB7A3A, 0x3FAD583F, 0x3FAF3B79, 0x3FB123F6, 0x3FB311C4,
  0x3FB504F3, 0x3FB6FD92, 0x3FB8FBAF, 0x3FBAFF5B, 0x3FBD08A4, 0x3FBF179A, 0x3FC12C4D, 0x3FC346CD,
  0x3FC5672A, 0x3FC78D75, 0x3FC9B9BE, 0x3FCBEC15, 0x3FCE248C, 0x3FD06334, 0x3FD2A81E, 0x3FD4F35B,
  0x3FD744FD, 0x3FD99D16, 0x3FDBFBB8, 0x3FDE60F5, 0x3FE0CCDF, 0x3FE33F89, 0x3FE5B907, 0x3FE8396A,
  0x3FEAC0C7, 0x3FED4F30, 0x3FEFE4BA, 0x3FF28177, 0x3FF5257D, 0x3FF7D0DF, 0x3FFA83B3, 0x3FFD3E0C]

/-- R[i] = rn(1 ÷ (1 + i/64)). -/
def tabR : List Word := [
  0x3F800000, 0x3F7C0FC1, 0x3F783E10, 0x3F74898D, 0x3F70F0F1, 0x3F6D7304, 0x3F6A0EA1, 0x3F66C2B4,
  0x3F638E39, 0x3F607038, 0x3F5D67C9, 0x3F5A740E, 0x3F579436, 0x3F54C77B, 0x3F520D21, 0x3F4F6475,
  0x3F4CCCCD, 0x3F4A4588, 0x3F47CE0C, 0x3F4565C8, 0x3F430C31, 0x3F40C0C1, 0x3F3E82FA, 0x3F3C5264,
  0x3F3A2E8C, 0x3F381703, 0x3F360B61, 0x3F340B41, 0x3F321643, 0x3F302C0B, 0x3F2E4C41, 0x3F2C7692,
  0x3F2AAAAB, 0x3F28E83F, 0x3F272F05, 0x3F257EB5, 0x3F23D70A, 0x3F2237C3, 0x3F20A0A1, 0x3F1F1166,
  0x3F1D89D9, 0x3F1C09C1, 0x3F1A90E8, 0x3F191F1A, 0x3F17B426, 0x3F164FDA, 0x3F14F209, 0x3F139A86,
  0x3F124925, 0x3F10FDBC, 0x3F0FB824, 0x3F0E7835, 0x3F0D3DCB, 0x3F0C08C1, 0x3F0AD8F3, 0x3F09AE41,
  0x3F088889, 0x3F0767AB, 0x3F064B8A, 0x3F053408, 0x3F042108, 0x3F03126F, 0x3F020821, 0x3F010204]

/-- L[i] = rn(−log2(R[i])). -/
def tabL : List Word := [
  0x00000000, 0x3CB73CB3, 0x3D35D690, 0x3D8759C9, 0x3DB31FB7, 0x3DDE420E, 0x3E0462C4, 0x3E195751,
  0x3E2E00D1, 0x3E42615F, 0x3E567AEF, 0x3E6A4F70, 0x3E7DE0B5, 0x3E88983F, 0x3E92203D, 0x3E9B8925,
  0x3EA4D3C2, 0x3EAE00D1, 0x3EB71110, 0x3EC0052D, 0x3EC8DDD3, 0x3ED19BAF, 0x3EDA3F60, 0x3EE2C97E,
  0x3EEB3A9E, 0x3EF39355, 0x3EFBD42A, 0x3F01FED4, 0x3F060828, 0x3F0A0650, 0x3F0DF98A, 0x3F11E20E,
  0x3F15C01A, 0x3F1993E4, 0x3F1D5DA0, 0x3F211D84, 0x3F24D3C3, 0x3F28808D, 0x3F2C2410, 0x3F2FBE7F,
  0x3F335004, 0x3F36D8CA, 0x3F3A58FE, 0x3F3DD0C9, 0x3F41404E, 0x3F44A7BB, 0x3F480731, 0x3F4B5ED6,
  0x3F4EAECF, 0x3F51F740, 0x3F553847, 0x3F58720A, 0x3F5BA4A5, 0x3F5ED038, 0x3F61F4E5, 0x3F6512C6,
  0x3F6829FA, 0x3F6B3AA0, 0x3F6E44CF, 0x3F7148A2, 0x3F744636, 0x3F773DA2, 0x3F7A2F03, 0x3F7D1A71]

/-- The constants in the order C1–C3, D1–D4, K, Q. -/
def tabC : List Word := [
  0x3F317218, 0x3E75FDF0, 0x3D635847, 0x3FB8AA3B, 0xBF38AA3B, 0x3EF6384F, 0xBEB8AA3B, 0x3F4C422A,
  0x3D372713]

def cC (i : Nat) : Word := nth tabC (i - 1) 0
def cD (i : Nat) : Word := nth tabC (i + 2) 0
def cK : Word := nth tabC 7 0
def cQ : Word := nth tabC 8 0
/-- L2E = rn(log2 e). -/
def cL2E : Word := 0x3FB8AA3B

/-- A word scaled by 2^n, rounded once (R141). -/
def fscale (w : Word) (n : Int) : Word :=
  match f32 w with
  | .fin neg m e => f32Round neg m (e + n)
  | _ => w

/-- exp2(x) (R141). -/
def fexp2 (x : Word) : Word :=
  match f32 x with
  | .nan => f32NaN
  | .inf neg => if neg then 0 else f32Inf false
  | .fin neg m e =>
    if fle 0x43000000 x then f32Inf false
    else if flt x 0xC3160000 then 0
    else
      let n := floorFlt neg m e
      let r := alignSum neg m e (0 < n) n.natAbs 0
      let i := if 0 ≤ r.2 then (r.1 * 2 ^ r.2.toNat * 64).toNat else (r.1 * 64).toNat / 2 ^ (-r.2).toNat
      let d := alignSum false r.1.natAbs r.2 true i (-6)
      let t := f32Round false d.1.natAbs d.2
      let p := ffma (cC 3) t (cC 2)
      let p := ffma p t (cC 1)
      let p := ffma p t f32One
      fscale (fmul (nth tabT i 0) p) n

/-- log2(x) (R141). -/
def flog2 (x : Word) : Word :=
  match f32 x with
  | .nan => f32NaN
  | .inf neg => if neg then f32NaN else f32Inf false
  | .fin neg m e =>
    if m = 0 then f32Inf true
    else if neg then f32NaN
    else
      let k := Nat.log2 m
      let mant := f32Round false m (-(k : Int))
      let i := (m - 2 ^ k) * 64 / 2 ^ k
      let u := ffma mant (nth tabR i 0) (fneg f32One)
      let p := ffma (cD 4) u (cD 3)
      let p := ffma p u (cD 2)
      let p := ffma p u (cD 1)
      let p := fmul p u
      fadd (f32OfInt (e + k)) (fadd (nth tabL i 0) p)

def fexp (x : Word) : Word := fexp2 (fmul x cL2E)
def fln (x : Word) : Word := fmul (flog2 x) (cC 1)
def fsigmoid (x : Word) : Word := frcp (fadd f32One (fexp2 (fmul (fneg x) cL2E)))
def ftanh (x : Word) : Word :=
  if f32IsNaN x then f32NaN
  else if flt (fabs x) 0x39800000 then x
  else ffma 0x40000000 (fsigmoid (fmul 0x40000000 x)) (fneg f32One)
def fsilu (x : Word) : Word := fmul x (fsigmoid x)
def fgelu (x : Word) : Word :=
  let b := fmul (fmul x x) x
  let v := fmul cK (ffma cQ b x)
  let w := fadd f32One (ftanh v)
  fmul (fmul 0x3F000000 x) w

end Sys2Proof.Machine
end

