-- ==== Sys2Proof/Machine/Numeric.lean ====
section
/-! DEFINITION. Expanded arithmetic: E19, block scales, the accumulation window, rescale, statistics (R46–R74,
R113–R118). -/
namespace Sys2Proof.Machine

/-! ### E19 (R47, R48, R51–R54) -/

/-- An E19 value: sign, 8-bit exponent, 10-bit fraction. -/
structure E19 where
  s : Bool
  e : Nat
  f : Nat
  deriving DecidableEq, Repr

/-- The one NaN and the infinities that expansion makes (R48). -/
def E19.nan : E19 := ⟨false, 255, 512⟩
def E19.inf (s : Bool) : E19 := ⟨s, 255, 0⟩
def E19.nonFin (x : E19) : Bool := x.e = 255
/-- The 19-bit encoding. -/
def E19.enc (x : E19) : Nat := b2n x.s * 2 ^ 18 + x.e * 2 ^ 10 + x.f
/-- M and q of a finite value M × 2^q (R58). -/
def E19.sig (x : E19) : Nat × Int := if x.e = 0 then (x.f, -136) else (1024 + x.f, (x.e : Int) - 137)

/-- to_e19 of an exactly representable number (R51); NaN as 0x3_FE00. -/
def toE19 : Flt → E19
  | .nan => ⟨false, 255, 512⟩
  | .inf s => ⟨s, 255, 0⟩
  | .fin s m e =>
    if m = 0 then ⟨s, 0, 0⟩
    else
      let k := e + Nat.log2 m
      if -126 ≤ k then ⟨s, (k + 127).toNat, rne m (e - k + 10) - 1024⟩
      else ⟨s, 0, rne m (e + 136)⟩

/-- A block scale applied to an E19 value: the value and whether it saturated or lost low bits (R53, R54). -/
def E19.scale (x : E19) (code : Nat) : E19 × Bool :=
  if code = 255 then (⟨false, 255, 512⟩, false)
  else if x.nonFin || (x.e = 0 && x.f = 0) then (x, false)
  else
    let (m, q) := x.sig
    let q := q + code - 127
    let k := q + Nat.log2 m
    if 127 < k then (⟨x.s, 254, 1023⟩, true)
    else if -126 ≤ k then (⟨x.s, (k + 127).toNat, rne m (q - k + 10) - 1024⟩, false)
    else
      let n := rne m (q + 136)
      let lost := q + 136 < 0 && m % 2 ^ (-(q + 136)).toNat != 0
      (if n = 1024 then ⟨x.s, 1, 0⟩ else ⟨x.s, 0, n⟩, lost)

/-! ### Products and the window (R58–R63, R65) -/

/-- A placed product, or that a non-finite operand took part: signed LSBs, underflow, spill (R59, R65). -/
inductive Placed where
  | nonFin
  | num (n : Int) (under spill : Bool)
  deriving DecidableEq, Repr

/-- Place the product (−1)^s × m × 2^e at base W (R59). -/
def place (w : Int) (s : Bool) (m : Nat) (e : Int) : Placed :=
  let n := rne m (e - w)
  let spill := 2 ^ 51 ≤ n
  let n := if spill then 2 ^ 51 - 1 else n
  .num (if s then -(n : Int) else n) (m != 0 && n = 0) spill

/-- The placed product of two E19 values. -/
def placeProd (w : Int) (a b : E19) : Placed :=
  if a.nonFin || b.nonFin then .nonFin
  else
    let (ma, qa) := a.sig
    let (mb, qb) := b.sig
    place w (a.s != b.s) (ma * mb) (qa + qb)

/-- What the products of one output element come to: the reduction sum, counts, PEAK, a non-finite operand. -/
structure Sum where
  s : Int
  products : Nat
  spills : Nat
  unders : Nat
  peak : Nat
  nonFin : Bool
  deriving DecidableEq, Repr

def Sum.zero : Sum := ⟨0, 0, 0, 0, 0, false⟩

/-- 1 + the leading-one position of a placed magnitude, 52 for a spill (R72). -/
def peakOf (n : Int) (spill : Bool) : Nat :=
  if spill then 52 else if n = 0 then 0 else Nat.log2 n.natAbs + 1

/-- Add one placed product. -/
def Sum.add (a : Sum) : Placed → Sum
  | .nonFin => { a with products := a.products + 1, nonFin := true }
  | .num n u sp => ⟨a.s + n, a.products + 1, a.spills + b2n sp, a.unders + b2n u, max a.peak (peakOf n sp), a.nonFin⟩

/-- Join two partial sums at one base. -/
def Sum.join (a b : Sum) : Sum :=
  ⟨a.s + b.s, a.products + b.products, a.spills + b.spills, a.unders + b.unders, max a.peak b.peak, a.nonFin || b.nonFin⟩

/-- The sum of placed products of operand pairs. -/
def dot (w : Int) (l : List (E19 × E19)) : Sum := l.foldl (fun a x => a.add (placeProd w x.1 x.2)) .zero

/-- The FP32 value of an output element (R63, R65). -/
def Sum.value (a : Sum) (w : Int) : Word :=
  if a.nonFin then f32NaN else if a.s = 0 then 0 else f32Round (a.s < 0) a.s.natAbs w

/-! ### Window bounds (R67) -/

/-- Lowest bit weight and largest magnitude of an input format, the magnitude as significand and exponent; an
integer operand with the largest |v − z|. -/
def fmtLow (f : Nat) : Int := nth [0, 0, 0, -9, -16, -4, -3, -1, -24, -133] f 0
def fmtBig (f : Nat) (z : Int) : Nat × Int :=
  if fmtIsInt f then (max ((fmtRange f).1 - z).natAbs ((fmtRange f).2 - z).natAbs, 0) else fmtMax f

/-- floor(log2) of m × 2^e, m not 0. -/
def flog2Exact (m : Nat) (e : Int) : Int := e + Nat.log2 m

/-- W_EXACT and W_NOSPILL of a pair with scale exponent sums from lo to hi. -/
def windowBounds (fa : Nat) (za : Int) (fb : Nat) (zb lo hi : Int) : Int × Int :=
  let (ma, ea) := fmtBig fa za
  let (mb, eb) := fmtBig fb zb
  (fmtLow fa + fmtLow fb + lo, flog2Exact (ma * mb) (ea + eb) + hi - 50)

/-! ### Rescale (R68–R71) -/

/-- A rescale entry. -/
structure Rescale where
  scale : Word
  bias : Word
  param : Word
  sel : Nat
  zp : Int
  rsv : Bool
  deriving DecidableEq, Repr

/-- The entry that sixteen bytes spell; the FP16 parameter expanded exactly. -/
def rescaleOf (b : List Byte) : Rescale :=
  let w := bytesNat b
  ⟨BitVec.ofNat 32 w, BitVec.ofNat 32 (w / 2 ^ 32), f32Enc (decodeFlt 5 10 15 true (w / 2 ^ 80 % 2 ^ 16)), w / 2 ^ 64 % 16,
    sext 16 (w / 2 ^ 96), w / 2 ^ 68 % 2 ^ 12 != 0 || w / 2 ^ 112 != 0⟩

/-- The entry is valid for an output format (R68, R69). -/
def Rescale.ok (r : Rescale) (f : Nat) : Bool :=
  !r.rsv && r.sel ≤ 5 &&
    (if fmtIsInt f then (fmtRange f).1 ≤ r.zp && r.zp ≤ (fmtRange f).2 else r.zp = 0)

/-- The activation a(x) (R69). -/
def activate (sel : Nat) (p x : Word) : Word :=
  if f32IsNaN x then f32NaN
  else match sel with
    | 0 => x
    | 1 => if flt 0 x then x else 0
    | 2 => fmin (fmax x 0) p
    | 3 => if fle 0 x then x else fmul x p
    | 4 => fmin (fmax x (fneg p)) p
    | _ => fmul (fmul (fmin (fmax (fadd x 0x40400000) 0) 0x40C00000) x) 0x3E2AAAAB

/-- y3 and the requantised output of an FP32 sum (R70). -/
def Rescale.run (r : Rescale) (f : Nat) (x : Word) : Word × Requant :=
  let y3 := activate r.sel r.param (fadd (fmul x r.scale) r.bias)
  (y3, requant f (fadd y3 (f32OfInt r.zp)))

/-! ### Statistics (R72, R73) -/

/-- What one operation adds to a channel's record. -/
structure Stat where
  products : Nat
  spills : Nat
  unders : Nat
  maxabs : Word
  clips : Nat
  nonFin : Nat
  range : Nat
  peak : Nat
  deriving DecidableEq, Repr

def Stat.zero : Stat := ⟨0, 0, 0, 0, 0, 0, 0, 0⟩

/-- How many ways there are to take a part of each count; the n-th of them; what it leaves. -/
def Stat.parts (t : Stat) : Nat := (t.spills + 1) * (t.unders + 1) * (t.clips + 1) * (t.range + 1) * (t.nonFin + 1)
def Stat.part (t : Stat) (n : Nat) : Stat :=
  let a := n / (t.spills + 1)
  let b := a / (t.unders + 1)
  let c := b / (t.clips + 1)
  { Stat.zero with
    spills := n % (t.spills + 1), unders := a % (t.unders + 1), clips := b % (t.clips + 1)
    range := c % (t.range + 1), nonFin := c / (t.range + 1) % (t.nonFin + 1) }
def Stat.less (t k : Stat) : Stat :=
  { t with
    spills := t.spills - k.spills, unders := t.unders - k.unders, clips := t.clips - k.clips
    range := t.range - k.range, nonFin := t.nonFin - k.nonFin }

/-- The products of one element enter a channel's counts. -/
def Stat.sum (t : Stat) (a : Sum) : Stat :=
  { t with
    products := t.products + a.products
    spills := t.spills + a.spills
    unders := t.unders + a.unders
    peak := max t.peak a.peak }

/-- The output of one element enters a channel's counts: an element adds at most 1 to NONFINITE (R71). -/
def Stat.out (t : Stat) (nonFinSum : Bool) (y3 : Word) (r : Requant) : Stat :=
  { t with
    maxabs := if f32IsNaN y3 then t.maxabs else fmax t.maxabs (fabs y3)
    clips := t.clips + b2n r.clip
    nonFin := t.nonFin + b2n (nonFinSum || r.nonfin) }

/-- A share field: floor(k × 65,536 ÷ products), at most 0xFFFF. -/
def share (k products : Nat) : Nat := if products = 0 then 0 else min (k * 65536 / products) 0xFFFF

/-- The record after an operation's counts entered it, as its 32 bytes (R73). -/
def Stat.update (t : Stat) (old : List Byte) : List Byte :=
  let w := fun i => bytesNat ((old.drop (4 * i)).take 4)
  let top := 2 ^ 32 - 1
  let p := satAdd top (w 0) t.products
  let sp := satAdd top (w 1) t.spills
  let un := satAdd top (w 2) t.unders
  let mx := fmax (BitVec.ofNat 32 (w 4)) t.maxabs
  let cl := satAdd top (w 5) t.clips
  let nf := satAdd 0xFFFF (w 6 / 65536) t.nonFin
  let sr := satAdd 0xFFFF (w 6 % 65536) t.range
  let pk := max (w 7 % 256) t.peak
  natBytes 4 p ++ natBytes 4 sp ++ natBytes 4 un ++ natBytes 4 (share un p * 65536 + share sp p) ++
    natBytes 4 mx.toNat ++ natBytes 4 cl ++ natBytes 4 (nf * 65536 + sr) ++ natBytes 4 pk

/-- The shares of the record, spill then underflow. -/
def statShares (rec : List Byte) : Nat × Nat :=
  let w := bytesNat ((rec.drop 12).take 4)
  (w % 65536, w / 65536)

/-! ### Winograd F(4 × 4, 3 × 3) (R113, R114) -/

/-- Bᵀ and Aᵀ. -/
def winB : List (List Int) :=
  [[4, 0, -5, 0, 1, 0], [0, -4, -4, 1, 1, 0], [0, 4, -4, -1, 1, 0], [0, -2, -1, 2, 1, 0], [0, 2, -1, -2, 1, 0],
   [0, 4, 0, -5, 0, 1]]
def winA : List (List Int) := [[1, 1, 1, 1, 1, 0], [0, 1, -1, 2, -2, 0], [0, 1, 1, 4, 4, 0], [0, 1, -1, 8, -8, 1]]

/-- M × N, N given by its rows. -/
def matMul (m n : List (List Int)) (cols : Nat) : List (List Int) :=
  m.map fun r => (List.range cols).map fun j => ((r.zip n).map fun (a, row) => a * nth row j 0).foldl (· + ·) 0
/-- The transpose of a matrix with so many columns. -/
def transp (m : List (List Int)) (cols : Nat) : List (List Int) :=
  (List.range cols).map fun j => m.map fun r => nth r j 0

/-- V = Bᵀ d B of a 6 × 6 patch. -/
def winIn (d : List (List Int)) : List (List Int) := matMul (matMul winB d 6) (transp winB 6) 6
/-- Y = Aᵀ M A of 6 × 6 sums. -/
def winOut (m : List (List Int)) : List (List Int) := matMul (matMul winA m 6) (transp winA 6) 4

/-- The placed product of an integer V and an E19 weight (R114). -/
def placeInt (w : Int) (v : Int) (u : E19) : Placed :=
  if u.nonFin then .nonFin
  else let (m, q) := u.sig; place w ((v < 0) != u.s) (v.natAbs * m) q

/-! ### Order of sums (R144, R146) -/

/-- Lane j's sum of elements j, j + 512, … from −0.0. -/
def laneSum (f : Word → Word → Word) (x : List Word) (j : Nat) : Word :=
  (List.range ((x.length + 511 - j) / 512)).foldl (fun a k => f (nth x (j + 512 * k) 0) a) 0x80000000

/-- Combine 512 lanes in the tree of R144. -/
def laneTree (f : Word → Word → Word) (l : List Word) : Nat → List Word
  | 0 => l
  | k + 1 =>
    let h := 2 ^ k
    laneTree f ((List.range h).map fun j => f (nth l j 0) (nth l (j + h) 0)) k

/-- The fixed-order sum formed with a lane step (element, sum) ↦ sum. -/
def fixedSumBy (step : Word → Word → Word) (x : List Word) : Word :=
  nth (laneTree fadd ((List.range 512).map (laneSum step x)) 9) 0 0

/-- The fixed-order sum (R144). -/
def fixedSum (x : List Word) : Word := fixedSumBy (fun e s => fadd s e) x

/-- The exact sum of binary32 elements at base W: each element as a product with 1.0 (R146). -/
def exactSum (w : Int) (x : List Word) : Sum :=
  x.foldl (fun a e => match f32 e with
    | .fin neg m k => a.add (place w neg m k)
    | _ => a.add .nonFin) .zero

end Sys2Proof.Machine
end

