-- ==== Sys2Proof/Machine/Operands.lean ====
section
/-! DEFINITION. The operand forms of Phoek Engine Code: instruction fields, tensor descriptors, convolution words,
feature maps, scale streams (R49–R57, R103–R108, R171, R178–R191). -/
namespace Sys2Proof.Machine

/-! ### Instruction words (R171, R172) -/

/-- The opcode and the unit class of an instruction word. -/
def wOp (w : Dword) : Nat := bits w 63 56
def wClass (w : Dword) : Nat := bits w 55 52
/-- A four-bit field whose low bit is lo. -/
def w4 (w : Dword) (lo : Nat) : Nat := bits w (lo + 3) lo

/-- Every opcode of R172. -/
def opcodes : List Nat :=
  [0x00] ++ span 0x02 12 ++ span 0x10 5 ++ span 0x20 3 ++ span 0x30 11 ++ [0x40, 0x41] ++ span 0x50 3 ++ [0x60] ++
    span 0x70 6 ++ [0x80, 0x90, 0x91, 0xA0] ++ span 0xB0 13

/-- An opcode is allowed for a target class: 1 cluster, 2 gang, 3 toe engine, 4 Mill law (R172). -/
def opAllowed (target op : Nat) : Bool :=
  let c := op / 16
  match target with
  | 1 => op != 0x0C && c ≤ 0xA && c != 6
  | 2 => c ≤ 0xA && c != 6
  | 3 => op != 0x0C && op != 0x0A && (c = 0 || c = 1 || (6 ≤ c && c ≤ 0xA))
  | 4 => op = 0x00 || op = 0x72 || op = 0x73 || c = 0xB
  | _ => false

/-- The bits of 51:0 that an opcode does not reserve (R179–R201). -/
def opMask (w : Dword) : Nat :=
  let f := fun (hi lo : Nat) => 2 ^ (hi + 1) - 2 ^ lo
  match wOp w with
  | 0x00 => 0
  | 0x02 => f 51 0
  | 0x03 => f 51 48 + f 23 8 + f 3 0
  | 0x04 => f 51 0
  | 0x05 => f 51 0
  | 0x06 => f 51 0
  | 0x07 => f 51 48 + f 31 0
  | 0x08 => f 9 0
  | 0x09 => f 51 48 + (match w4 w 48 with | 0 => f 45 0 | 3 => f 35 0 | _ => f 47 0)
  | 0x0A => f 51 48 + f 31 0
  | 0x0B => f 8 0
  | 0x0C => f 5 0
  | 0x0D => f 51 51 + f 47 0
  | 0x10 => f 51 40 + f 31 0
  | 0x11 => f 51 0
  | 0x12 => f 51 0
  | 0x13 => f 51 40 + f 37 0
  | 0x14 => f 51 24 + f 15 0
  | 0x20 => f 51 14
  | 0x21 => f 51 14
  | 0x22 => f 51 29 + f 23 16
  | 0x3A => f 51 48 + f 43 36 + f 30 0
  | 0x40 => f 51 31
  | 0x41 => f 51 48 + f 43 28
  | 0x50 => f 51 44 + f 39 36
  | 0x51 => f 51 0
  | 0x52 => f 51 48 + f 43 40 + f 35 31
  | 0x60 => f 51 30
  | 0x70 => f 51 51 + f 47 0
  | 0x71 => f 51 51 + f 47 0
  | 0x72 => f 51 51 + f 47 0
  | 0x73 => f 51 51 + f 47 0
  | 0x74 => f 51 0
  | 0x75 => f 51 0
  | 0x80 => f 15 0
  | 0x90 => f 51 44 + f 12 0
  | 0x91 => 0
  | 0xA0 => f 51 48 + f 16 0
  | op => if op / 16 = 3 then f 51 7 else f 51 0

/-- A reserved bit of 51:0 is set. -/
def wReserved (w : Dword) : Bool := w.toNat % 2 ^ 52 &&& opMask w != w.toNat % 2 ^ 52

/-! ### Tensor descriptors (R178–R181) -/

def tdOf (l : List TD) (i : Nat) : TD := nth l i TD.zero
/-- The zero point as the format reads it: two's complement for INT4 and INT8 (R179). -/
def TD.z (d : TD) : Int := if d.fmt ≤ 1 then sext 8 d.zp else (d.zp : Int)
/-- The format and zero point may be an operand's (R49, R52, R180). -/
def TD.inOk (d : TD) : Bool := fmtInput d.fmt && (if fmtIsInt d.fmt then zpOk d.fmt d.z else d.zp = 0)
/-- The format and zero point may be an output's. -/
def TD.outOk (d : TD) : Bool := fmtOutput d.fmt && d.zp = 0
/-- The packed row size of COLS elements. -/
def TD.rowSize (d : TD) : Nat := rowBytes d.fmt d.cols
/-- The row stride in force. -/
def TD.stride (d : TD) : Nat := if d.rowStride = 0 then d.rowSize else d.rowStride
/-- A matrix operand or output: dimensions given, a nonzero stride at least the packed row. -/
def TD.matOk (d : TD) : Bool := 1 ≤ d.rows && 1 ≤ d.cols && d.rowSize ≤ d.stride
/-- A descriptor as gang member i uses it (R181). -/
def TD.member (d : TD) (i : Nat) : TD :=
  { d with
    addr := (d.addr + i * d.memberStride) % 2 ^ 48
    scaleAddr := (d.scaleAddr + i * d.memberStride) % 2 ^ 48 }

/-! ### Convolution words (R185) -/

/-- The parameters of a window operation. -/
structure Conv where
  kh : Nat
  kw : Nat
  sy : Nat
  sx : Nat
  dy : Nat
  dx : Nat
  pt : Nat
  pb : Nat
  pl : Nat
  pr : Nat
  pad : Nat
  span : Nat
  skip : Bool
  wino : Bool
  fbEn : Bool
  fbTile : Nat
  h : Nat
  w : Nat
  cin : Nat
  cout : Nat
  g : Nat
  tdp : Nat

/-- The parameters that CP0–CP3 hold. -/
def convOf (cps : List Nat) : Conv :=
  let f := fun (i hi lo : Nat) => nth cps i 0 / 2 ^ lo % 2 ^ (hi + 1 - lo)
  { kh := f 0 3 0 + 1
    kw := f 0 7 4 + 1
    sy := f 0 10 8 + 1
    sx := f 0 13 11 + 1
    dy := f 0 19 14 + 1
    dx := f 0 25 20 + 1
    pt := f 0 35 26
    pb := f 0 45 36
    pl := f 1 9 0
    pr := f 1 19 10
    pad := f 1 35 20
    span := f 1 41 36 + 1
    skip := f 1 42 42 = 1
    wino := f 1 43 43 = 1
    fbEn := f 1 44 44 = 1
    fbTile := f 1 47 45
    h := f 2 13 0 + 1
    w := f 2 27 14 + 1
    cin := f 2 47 28 + 1
    cout := f 3 15 0 + 1
    g := f 3 31 16 + 1
    tdp := f 3 35 32 }

/-- Extent of a dilated kernel less 1. -/
def Conv.reachY (c : Conv) : Nat := (c.kh - 1) * c.dy
def Conv.reachX (c : Conv) : Nat := (c.kw - 1) * c.dx
/-- Output size (R105); 0 when it would be below 1. -/
def Conv.outH (c : Conv) : Nat := if c.h + c.pt + c.pb < c.reachY + 1 then 0 else (c.h + c.pt + c.pb - c.reachY - 1) / c.sy + 1
def Conv.outW (c : Conv) : Nat := if c.w + c.pl + c.pr < c.reachX + 1 then 0 else (c.w + c.pl + c.pr - c.reachX - 1) / c.sx + 1
/-- Groups, with g input channels each. -/
def Conv.groups (c : Conv) : Nat := c.cin / c.g
/-- The input position of output position o at tap k along an axis: none in padding. -/
def tapPos (o k stride dil pad size : Nat) : Option Nat :=
  let p := o * stride + k * dil
  if p < pad || size ≤ p - pad then none else some (p - pad)

/-- Pads lie within their range: at most (k − 1) × d each, or 2 on the Winograd path (R104). -/
def Conv.padsOk (c : Conv) : Bool := c.pt ≤ c.reachY && c.pb ≤ c.reachY && c.pl ≤ c.reachX && c.pr ≤ c.reachX
/-- Map and output sizes, groups (R104, R105). -/
def Conv.sizesOk (c : Conv) : Bool :=
  1 ≤ c.outH && 1 ≤ c.outW && c.cin % c.g = 0 && c.cout % c.groups = 0 && c.h ≤ 16384 && c.w ≤ 16384

/-- Ranges of the paths of R104. -/
def Conv.directOk (c : Conv) : Bool := c.sizesOk && c.padsOk && c.cin ≤ 65536
/-- The Winograd path has one group: G spells it where its 16 bits can, and is not looked at above (DEDUCED,
notes/assumptions/154.md). -/
def Conv.winoOk (c : Conv) : Bool :=
  1 ≤ c.outH && 1 ≤ c.outW && c.h ≤ 16384 && c.w ≤ 16384 && c.kh = 3 && c.kw = 3 && c.sy = 1 && c.sx = 1 && c.dy = 1 &&
    c.dx = 1 && c.padsOk && (65536 < c.cin || c.g = c.cin) && !c.skip && c.cin ≤ 524288
/-- The depth-wise unit's own range; otherwise the diagonal mapping (R126). -/
def Conv.unitOk (c : Conv) : Bool :=
  c.kh = c.kw && (c.kh = 3 || c.kh = 5 || c.kh = 7) && c.sy ≤ 2 && c.sx ≤ 2 && c.dy ≤ 4 && c.dx ≤ 4 && c.g = 1 && !c.skip
def Conv.diagOk (c : Conv) : Bool := c.sizesOk && c.padsOk && c.g ≤ 64 && c.cin ≤ 65536
def Conv.toeOk (c : Conv) : Bool :=
  1 ≤ c.outH && 1 ≤ c.outW && c.padsOk && c.kh ≤ 7 && c.kw ≤ 7 && c.sy ≤ 4 && c.sx ≤ 4 && c.dy ≤ 2 && c.dx ≤ 2 && c.g = c.cin &&
    !c.skip && !c.wino && c.w ≤ 16384 && (c.cin ≤ 8 || c.cout ≤ 16) && c.cin * c.kh * c.kw ≤ 4096
/-- Pooling: the window's parameters and the map; a global form has its one output whatever they give (R104). -/
def Conv.poolOk (c : Conv) (glob : Bool) : Bool :=
  (glob || (1 ≤ c.outH && 1 ≤ c.outW)) && c.padsOk && c.kh ≤ 7 && c.kw ≤ 7 && c.sy ≤ 7 && c.sx ≤ 7 && c.dy ≤ 4 && c.dx ≤ 4 &&
    c.g = 1 && !c.skip && !c.wino && c.h ≤ 16384 && c.w ≤ 16384 && c.cin ≤ 65536

/-! ### Feature maps (R103) -/

/-- The pixel stride in force for maps of n channels. -/
def TD.pix (d : TD) (n : Nat) : Nat := if d.pixStride = 0 then rowBytes d.fmt n else d.pixStride
/-- The strides of a feature map of a width and a number of channels. -/
def TD.mapOk (d : TD) (width n : Nat) : Bool :=
  1 ≤ d.rows && 1 ≤ d.cols && d.pix n % 8 = 0 && rowBytes d.fmt n ≤ d.pix n && d.stride % 64 = 0 && width * d.pix n ≤ d.stride
/-- Where a pixel lies. -/
def TD.pixel (d : TD) (n y x : Nat) : Nat := d.addr + y * d.stride + x * d.pix n

/-! ### Loading operands through a unit's port (R50–R57) -/

/-- One line of codes that an operand needs, or none when it could not be read. -/
abbrev Line := Option (List Nat)

/-- What loading came to: the first fault, or 0, with the lines. -/
structure Load (α : Type) where
  s : State
  fault : Nat
  v : α

/-- Read n bytes at each address of a list; the first fault stays. -/
def State.loadAll (s : State) (ini n : Nat) : List Nat → Load (List (Option (List Byte)))
  | [] => ⟨s, 0, []⟩
  | a :: t =>
    let (s, c, bs) := s.polRead ini a n
    let r := s.loadAll ini n t
    ⟨r.s, if c != 0 then c else r.fault, (if c = 0 then some bs else none) :: r.v⟩

/-- The codes of n elements packed in bytes. -/
def codesOf (f n : Nat) (bs : List Byte) : List Nat :=
  if fmtBits f = 8 then bs.map (·.toNat) else (List.range n).map (unpack f bs)

/-- The stored rows of a matrix operand. -/
def State.loadRows (s : State) (ini : Nat) (d : TD) : Load (List Line) :=
  let r := s.loadAll ini d.rowSize ((List.range d.rows).map fun i => d.addr + i * d.stride)
  ⟨r.s, r.fault, r.v.map fun b => b.map (codesOf d.fmt d.cols)⟩

/-- All rows, or none when one of them could not be read. -/
def allLines (l : List Line) : Option (List (List Nat)) := if l.any (·.isNone) then none else some (l.map fun x => x.getD [])

/-- Columns of rows of n codes. -/
def colsOf (n : Nat) (l : List (List Nat)) : List (List Nat) := (List.range n).map fun j => l.map fun r => nth r j 0

/-- Transposed lines: none at all when one could not be read. -/
def transLines (n : Nat) (l : List Line) : List Line :=
  match allLines l with
  | none => List.replicate n none
  | some m => (colsOf n m).map some

/-- A scale stream: entry n has TAG and scale (R56). -/
structure Scales where
  fault : Nat
  entries : Option (List Nat)

/-- Read n entries of a scale stream. -/
def State.loadScales (s : State) (ini : Nat) (d : TD) (n : Nat) : Load (Option (List Nat)) :=
  if !d.scaled then ⟨s, 0, some []⟩
  else
    let (s, c, bs) := s.polRead ini d.scaleAddr (2 * n)
    ⟨s, c, if c = 0 then some ((blocksOf 2 n bs).map bytesNat) else none⟩

/-- The first entry whose TAG is not (TAG0 + n) mod 64 (R57): its index. -/
def skewAt (tag0 : Nat) (l : List Nat) : Option Nat :=
  (List.range l.length).find? fun n => nth l n 0 / 256 % 64 != (tag0 + n) % 64

/-- Expand a code, without a scale (R51, R52). -/
def expand (f : Nat) (z : Int) (code : Nat) : E19 := toE19 (codeFlt f z code)

/-- Expand a line of codes along the reduction with the entries of its scale blocks (R53, R54). -/
def expandLine (f : Nat) (z : Int) (scaled : Bool) (codes entries : List Nat) : List (E19 × Bool) :=
  if scaled then
    codes.zipIdx.map fun (c, k) => (expand f z c).scale (nth entries (k / 32) 0 % 256)
  else codes.map fun c => (expand f z c, false)

/-- Entries of line i, with nb entries a line. -/
def lineEntries (l : List Nat) (nb i : Nat) : List Nat := (l.drop (nb * i)).take nb

/-- The FP32 value of a code, and whether scaling saturated or rounded it (R139). -/
def vecExpand (f : Nat) (z : Int) (scale : Option Nat) (code : Nat) : Word × Bool :=
  let x := codeFlt f z code
  match scale with
  | none => (f32Enc x, false)
  | some e =>
    if e = 255 then (f32NaN, false)
    else match x with
      | .fin n m k =>
        if m = 0 then (f32Enc x, false)
        else
          let q := k + e - 127
          let top := Nat.log2 m + q
          let w := f32Round n m q
          if 127 < top || f32NonFin w then (if n then 0xFF7FFFFF else 0x7F7FFFFF, true)
          else (w, q + 149 < 0 && m % 2 ^ (-(q + 149)).toNat != 0)
      | _ => (f32Enc x, false)

end Sys2Proof.Machine
end

