-- ==== Sys2Proof/Machine/PressDesc.lean ====
section
/-! DEFINITION. The fields of a pipeline's descriptor and its dynamic part (R358, R359). -/
namespace Sys2Proof.Machine

/-- A little-endian field of a descriptor. -/
def dn (d : List Byte) (off k : Nat) : Nat := bytesNat ((d.drop off).take k)

/-- The set in effect before the first one applies: SET_ID 0, unity gains, an identity matrix (R368, R370). -/
def unitSet : List Byte :=
  natBytes 16 0 ++ (List.replicate 4 (natBytes 2 0x1000)).flatten ++
    ((List.range 9).flatMap fun k => natBytes 2 (if k % 4 = 0 then 0x1000 else 0)) ++ natBytes 150 0
def PSet.zero : PSet := ⟨0, 0, unitSet, false, true, false, false⟩
def PpOut.zero : PpOut := ⟨0, 0, 0, false⟩
def PpX.init : PpX :=
  { desc := [], pend := none, client := none, run := 0, stopAt := false, n := 0, inFrame := false, first := true, seen := 0
    draw := 0, ns := 0, sec := 0, endNs := none, blank := none, got := 0, errs := 0, img := [], flick := [], rows := [], hist := []
    outs := List.replicate 5 .zero, cnt0 := none, ts0 := none, cnt := 0, ts := 0, emb := false, frz := 0, late := false
    lost := 0, sets := [], cur := .zero, thresh := 0, move := none, drained := false }
def State.pp (s : State) (p : Nat) : PpX := SMap.get (fun _ => PpX.init) p s.pps
def State.setPp (s : State) (p : Nat) (x : PpX) : State := { s with pps := SMap.set (fun _ => PpX.init) p x s.pps }
def ppIni (p : Nat) : Nat := 0x20 + p

/-! ### Descriptors (R358–R361) -/

def ppW (d : List Byte) : Nat := dn d 0 2
def ppH (d : List Byte) : Nat := dn d 2 2
def ppKind (d : List Byte) : Nat := dn d 4 1 % 4
def ppCfa (d : List Byte) : Nat := dn d 4 1 / 4 % 4
def ppBits (d : List Byte) : Nat := dn d 4 1 / 16 + 8
def ppDelay (d : List Byte) : Nat := dn d 5 1 % 4 + 1
def ppTol (d : List Byte) : Nat := dn d 5 1 / 16
def ppMaster (d : List Byte) : Nat := dn d 8 1 % 8
def ppSpeed (d : List Byte) : Nat := dn d 8 1 / 16 % 4
def ppAddr16 (d : List Byte) : Bool := dn d 8 1 / 64 % 2 = 1
def ppSensor (d : List Byte) : Nat := dn d 9 1 % 128
def ppEmb (d : List Byte) : Bool := dn d 0xC 1 % 2 = 1
def ppCntBytes (d : List Byte) : Nat := dn d 0xC 1 / 4 % 4 + 1
def ppCntOff (d : List Byte) : Nat := dn d 0xC 2 / 16
def ppTsBytes (d : List Byte) : Nat := nth [0, 4, 8] (dn d 0xE 1 % 4) 0
def ppTsOff (d : List Byte) : Nat := dn d 0xE 2 / 16
def ppFrz (d : List Byte) : Bool := dn d 0x10 1 % 2 = 1
def ppFlat (d : List Byte) : Bool := dn d 0x10 1 / 2 % 2 = 1
def ppHold (d : List Byte) : Bool := dn d 0x10 1 / 4 % 2 = 1
def ppLateMs (d : List Byte) : Nat := dn d 0x11 1

/-- Output blocks: 0 display, 1 coding, 2 machine vision, 3 statistics, 4 frame records (R359). -/
def ob (o : Nat) : Nat := 0x40 + 0x20 * o
def oAddr (d : List Byte) (o : Nat) : Nat := dn d (ob o) 6
def oStride (d : List Byte) (o : Nat) : Nat := dn d (ob o + 8) 4
def oFmt (d : List Byte) (o : Nat) : Nat := dn d (ob o + 12) 1 % 16
def oPlanes (d : List Byte) : Nat := dn d (ob 2 + 12) 1 / 16
def oNf (d : List Byte) (o : Nat) : Nat := dn d (ob o + 13) 1 % 16 + 1
def oEn (d : List Byte) (o : Nat) : Bool := dn d (ob o + 13) 1 / 16 % 2 = 1
def oRing (d : List Byte) (o : Nat) : Bool := oEn d o && dn d (ob o + 13) 1 / 32 % 2 = 1
def oFeed (d : List Byte) : Bool := oEn d 2 && dn d (ob 2 + 13) 1 / 64 % 2 = 1
def oMark (d : List Byte) (o : Nat) : Bool := dn d (ob o + 13) 1 / 128 % 2 = 1
def oRow (d : List Byte) (o : Nat) : Nat := dn d (ob o + 14) 2
def oFrameMark (d : List Byte) (o : Nat) : Nat := dn d (ob o + 16) 2
def oRelease (d : List Byte) (o : Nat) : Nat := dn d (ob o + 18) 2
def oW (d : List Byte) (o : Nat) : Nat := dn d (ob o + 20) 2
def oH (d : List Byte) (o : Nat) : Nat := dn d (ob o + 22) 2
def oCx (d : List Byte) (o : Nat) : Nat := dn d (ob o + 24) 2
def oCy (d : List Byte) (o : Nat) : Nat := dn d (ob o + 26) 2
def oCw (d : List Byte) (o : Nat) : Nat := dn d (ob o + 28) 2
def oCh (d : List Byte) (o : Nat) : Nat := dn d (ob o + 30) 2

/-- The machine-vision planes: 3 is Y, 0 to 2 are R, G, B (R359). -/
def mvPlanes (d : List Byte) : List Nat := match oPlanes d with | 1 => [3] | 7 => [0, 1, 2] | _ => [0, 1, 2, 3]

/-- Bytes of an output's row. -/
def oRowBytes (d : List Byte) (o : Nat) : Nat :=
  match o with
  | 0 => oW d o * (if oFmt d o = 0 then 3 else 4)
  | 1 => ceilDiv (oW d o) 2 * 2 * (if oFmt d o = 0 then 1 else 2)
  | 2 => oW d o * (if oFmt d o = 8 then 2 else 1)
  | _ => 0
/-- Where the chroma plane begins (R357). -/
def chromaBase (d : List Byte) : Nat := ceilDiv (oH d 1) 16 * 16 * oRow d 1
/-- Bytes that an image or a record takes of its slot. -/
def oBytes (d : List Byte) (o : Nat) : Nat :=
  match o with
  | 0 => oH d o * oRow d o
  | 1 => chromaBase d + ceilDiv (ceilDiv (oH d o) 2) 16 * 16 * oRow d o
  | 2 => (mvPlanes d).length * oH d o * oRow d o
  | 3 => 5184
  | _ => 64

/-- An output's ring lies in the Polder. -/
def oPolder (d : List Byte) (o : Nat) : Bool := oAddr d o < 0x10000000

end Sys2Proof.Machine
end

