-- ==== Sys2Proof/Machine/NumCalls.lean ====
section
/-! DEFINITION. Service calls of expanded arithmetic (R67, R69, R72, R76). -/
namespace Sys2Proof.Machine

/-- A unit that carries the numerics registers of R75. -/
def numUnit (u : Nat) : Bool := unitClass u = some .tc || unitClass u = some .te

/-- 0x0E00: NUM_ID of a cluster or toe engine. -/
def callNumId (args : List Word) (s : State) : State :=
  let u := arg args 0
  if !s.exists? u then s.ret NO_UNIT
  else if !numUnit u then s.ret RANGE
  else s.ret OK [s.rd u 0x300]

def execReadNumericIdentity (_ : Nat) (args : List Word) (s : State) : Out := .next (callNumId args s)

/-- A signed 32-bit argument. -/
def argInt (args : List Word) (i : Nat) : Int := sext 32 (arg args i)

/-- A signed number as a result word. -/
def intWord (z : Int) : Word := w32 (unsext 32 z)

/-- 0x0E01: W_EXACT, W_NOSPILL and whether a window base lies in both bounds (R67). -/
def callWindowBounds (args : List Word) (s : State) : State :=
  let fa := arg args 0
  let fb := arg args 1
  let za := argInt args 2
  let zb := argInt args 3
  let lo := argInt args 4
  let hi := argInt args 5
  if !fmtInput fa || !fmtInput fb || !zpOk fa za || !zpOk fb zb || hi < lo then s.ret RANGE
  else
    let (we, wn) := windowBounds fa za fb zb lo hi
    s.ret OK [intWord we, intWord wn, w32 (b2n (wn ≤ we))]

def execWindowBounds (_ : Nat) (args : List Word) (s : State) : Out := .next (callWindowBounds args s)

/-- 0x0E02: check rescale entries and write them into a parcel, or RANGE with the first invalid one (R68, R69); corners of
these calls: notes/assumptions/199.md. -/
def callWriteRescale (ini : Nat) (args : List Word) (s : State) : State :=
  let dst := argAddr args 0 + 16 * arg args 2
  let n := arg args 3
  let f := arg args 6
  if 65536 < n || !fmtOutput f then s.ret RANGE
  else if !s.polderAllowed ini dst (16 * n) true then s.ret DENIED
  else
    let (s, r, bs) := s.callRead ini (argAddr args 4) (pagesFor (16 * n)) (16 * n)
    if r != .ok then s.ret (callFault r).1 (callFault r).2
    else
      match lowest n fun i => !(rescaleOf ((bs.drop (16 * i)).take 16)).ok f with
      | some i => s.ret RANGE [w32 i]
      | none =>
        let (s, c) := s.polWrite ini dst bs
        if c = 0 then s.ret OK else s.ret REFUSED [w32 c]

def execWriteRescaleTable (ini : Nat) (args : List Word) (s : State) : Out := .next (callWriteRescale ini args s)

/-- 0x0E03: statistics records (R72). -/
def callReadStats (ini : Nat) (args : List Word) (s : State) : State :=
  let a := argAddr args 0 + 32 * arg args 2
  let n := arg args 3
  if 64 < n then s.ret RANGE
  else if !s.polderAllowed ini a (32 * n) false then s.ret DENIED
  else
    let (s, c, bs) := s.polRead ini a (32 * n)
    if c = 0 then s.ret OK (bytesWords bs) else s.ret REFUSED [w32 c]

def execReadStatistics (ini : Nat) (args : List Word) (s : State) : Out := .next (callReadStats ini args s)

/-- 0x0E04: the guard thresholds of a unit (R74, R75); the order of its statuses: notes/assumptions/199.md. -/
def callScaleGuard (ini : Nat) (args : List Word) (s : State) : State :=
  let u := arg args 0
  let m := s.mayChange u
  if m != OK then s.ret m
  else if !numUnit u || 0xFFFF < arg args 1 || 0xFFFF < arg args 2 then s.ret RANGE
  else ((s.wr u 0x304 (w32 (arg args 1))).wr u 0x308 (w32 (arg args 2))).ret OK

def execSetScaleGuard (ini : Nat) (args : List Word) (s : State) : Out := .next (callScaleGuard ini args s)

/-- 0x0E05: the counters at 0x030C–0x0328, read and cleared. -/
def callNumTotals (args : List Word) (s : State) : State :=
  let u := arg args 0
  if !s.exists? u then s.ret NO_UNIT
  else if !numUnit u then s.ret RANGE
  else s.retRegs u ((List.range 8).map fun i => 0x30C + 4 * i)

def execReadNumericTotals (_ : Nat) (args : List Word) (s : State) : Out := .next (callNumTotals args s)

end Sys2Proof.Machine
end

