-- ==== Sys2Proof/Machine/VatStat.lean ====
section
/-! DEFINITION. What a Vat shows of itself: VAT_STATUS and the median decode measure (R318, R339, R349). -/
namespace Sys2Proof.Machine

def VatX.init : VatX := ⟨⟨[], 0, none, none, none, [], false⟩, none, [], []⟩
def State.vat (s : State) (v : Nat) : VatX := SMap.get (fun _ => VatX.init) v s.vats
def State.setVat (s : State) (v : Nat) (x : VatX) : State := { s with vats := SMap.set (fun _ => VatX.init) v x s.vats }
def vatIni (v : Nat) : Nat := 0x30 + v

/-- The unit has adopted same-bits mode on. -/
def State.sbOnFor (s : State) (ini : Nat) : Bool := s.sbOn.contains ini

/-! ### Median and limits (R339) -/

/-- Insert into an ascending list. -/
def insertUp (x : Nat) : List Nat → List Nat
  | [] => [x]
  | y :: t => if x ≤ y then x :: y :: t else y :: insertUp x t
/-- The median: of an even count the mean of the two middle values, rounded down (notes/assumptions/71.md). -/
def median (l : List Nat) : Nat :=
  let up := l.foldr insertUp []
  (nth up ((l.length - 1) / 2) 0 + nth up (l.length / 2) 0) / 2

/-- The Vat has adopted same-bits mode. -/
def State.vatSb (s : State) (v : Nat) : Bool := s.sbOnFor (vatIni v)
/-- M (R339). -/
def State.vatM (s : State) (v : Nat) : Nat :=
  let l := (s.vat v).meds
  if l.length < 15 then (s.rd (uVat v) (if s.vatSb v then 0x15C else 0x158)).toNat else median l
/-- The hard limit H. -/
def State.vatHard (s : State) (v : Nat) : Nat := s.fld (uVat v) 0x154 31 16 * s.vatM v
/-- Count a decode measure. -/
def State.vatCount (s : State) (v m : Nat) : State :=
  let x := s.vat v
  s.setVat v { x with meds := (m :: x.meds).take 63 }

/-- VAT_STATUS and MEDIAN_NOW follow the Vat. -/
def State.vatSync (s : State) (v : Nat) : State :=
  let x := s.vat v
  let j := x.job
  let st := b2n (s.flag (uVat v) 0x108 0) * 2 ^ 31 + b2n j.isSome * 2 ^ 30 +
    b2n (match j with | some j => j.stall | none => false) * 2 ^ 29 + b2n x.live.frame.isSome * 2 ^ 28 + b2n (s.vatSb v) * 2 ^ 27 +
    min 3 (x.decs.filter (·.deferred)).length * 2 ^ 25 + (x.decs.filter fun d => d.src < 4 && !d.done).length * 2 ^ 22 +
    (match j with | some j => j.k % 65536 | none => s.fld (uVat v) 0x100 15 0)
  (s.wr (uVat v) 0x100 (w32 st)).wr (uVat v) 0x150 (w32 (s.vatM v))

end Sys2Proof.Machine
end

