-- ==== Sys2Proof/Machine/Tiles.lean ====
section
/-! DEFINITION. Clusters, tiles, gangs and toe engines: registers and service calls (R88, R91, R95–R102, R116,
R130, R132, R134). -/
namespace Sys2Proof.Machine

/-! ### The spare enable (R91, R100, R102) -/

/-- T8 of a cluster stands in for a tile. -/
def State.spareStands (s : State) (c : Nat) : Bool := bit (s.ucb (uTile c 8) 6) 30

/-- Set CL_CFG.SPARE_EN: T8 is bound to all eight tiles, or to none. -/
def State.setSpareEn (s : State) (c : Nat) (on : Bool) : State :=
  (s.setFld (uTC c) 0x200 0 0 (b2n on)).bindSpare c (on && !s.spareStands c)

/-- A write to CL_CFG: 0 while T8 stands in is rejected. -/
def State.clCfgWrite (s : State) (ini c value : Nat) : State :=
  s.guarded ini (uTC c) 0x200 (w32 value) false fun s =>
    if s.spareStands c && value % 2 = 0 then s.accError ini (regAddr (uTC c) 0x200) .check
    else if s.spareStands c then s
    else s.setSpareEn c (value % 2 = 1)

def execClCfgSpareWrite (ini c value : Nat) (s : State) : Out := .next (s.clCfgWrite ini c value)

/-- 0x0013: set SPARE_EN. -/
def callSpareEnable (ini : Nat) (args : List Word) (s : State) : State :=
  let u := arg args 0
  let m := s.mayChange u
  if m != OK then s.ret m
  else if unitClass u != some .tc || 1 < arg args 1 then s.ret RANGE
  else if s.spareStands (u - 0x10) then s.ret REFUSED [w32 4]
  else (s.setSpareEn (u - 0x10) (arg args 1 = 1)).ret OK

def execSetSpareEnable (ini : Nat) (args : List Word) (s : State) : Out := .next (callSpareEnable ini args s)

/-- 0x0010: the status registers of a cluster. -/
def callClusterStatus (args : List Word) (s : State) : State :=
  let u := arg args 0
  if !s.exists? u then s.ret NO_UNIT
  else if unitClass u != some .tc then s.ret RANGE
  else s.retRegs u [0x204, 0x208, 0x20C, 0x220]

def execReadClusterStatus (_ : Nat) (args : List Word) (s : State) : Out := .next (callClusterStatus args s)

/-- TILE_TEST with the age of the last passing full test in ms. -/
def State.tileTest (s : State) (u : Nat) : Word :=
  match (s.testX u).passAt with
  | some t => setBits (s.rd u 0x11C) 23 0 (min 0xFFFFFF ((s.gauge.ticks - t) / 500000))
  | none => s.rd u 0x11C

/-- 0x0014: the counters of a tile, the RC ones cleared. -/
def callTileCounters (args : List Word) (s : State) : State :=
  let u := arg args 0
  if !s.exists? u then s.ret NO_UNIT
  else if unitClass u != some .tile && unitClass u != some .spareTile then s.ret RANGE
  else
    let s := s.retRegs u [0x100, 0x108, 0x10C, 0x110, 0x114, 0x118]
    { s with call := { s.call with words := s.call.words ++ [s.tileTest u] } }

def execReadTileCounters (_ : Nat) (args : List Word) (s : State) : Out := .next (callTileCounters args s)

/-- The words of 0x0015: one for each row of R88's table, 2^31 for a formula. -/
def stepTable : List Nat :=
  let f := 2 ^ 31
  [48, 24, 6, 1, 2, 1, 1, f, f, 126, f, 128, 32, 64, f, 4, 6, 32]

/-- 0x0015: the step counts. -/
def callStepTable (s : State) : State := s.ret OK (stepTable.map w32)

def execReadStepTable (_ : Nat) (_ : List Word) (s : State) : Out := .next (callStepTable s)

/-! ### Same-bits mode (R145, R271, R272) -/

/-- SAME_BITS.PENDING. -/
def State.sbPending (s : State) : Bool := s.flag uDevctl 0x400 31

/-- The units that adopt the mode, by initiator ID: contexts of enabled clusters, formed gangs, toe engines, enabled
Vats (R271). -/
def State.sbUnits (s : State) : List Nat :=
  let cs := (List.range 6).filter fun c => s.exists? (uTC c)
  cs ++ cs.map (8 + ·) ++ [0x10, 0x11] ++
    ((List.range 3).filter fun g => s.exists? (uGang g)).map (0x18 + ·) ++
    ((List.range 2).filter fun v => s.exists? (uVat v)).map (0x30 + ·)

/-- Both contexts of a cluster have adopted. -/
def State.sbCluster (s : State) (c : Nat) : Bool := s.sbOnFor c && s.sbOnFor (8 + c)

/-- SB_UNITS follows; when every unit has adopted the requested mode, ACTIVE takes EN, and MODE of the
fingerprint follows (R271, R274). -/
def State.sbSync (s : State) : State :=
  let left := (s.sbUnits.filter fun i => s.sbOnFor i != s.sbEn).length
  let s := s.wr uDevctl 0x40C (w32 left)
  if s.sbPending && left = 0 then
    let s := ((s.setFlag uDevctl 0x400 31 false).setFlag uDevctl 0x400 30 s.sbEn).setFlag uDevctl 0x404 0 s.sbEn
    (s.count uDevctl 0x410 1).finish 0x0300 (b2n s.sbEn) OK
  else s

/-- A unit adopts the requested mode; ARRIVAL_EN is cleared once both contexts of a cluster are on;
a Vat shows the mode and its measure (R145, R272, R349). -/
def State.sbAdopt (s : State) (ini : Nat) : State :=
  let rest := s.sbOn.filter (· != ini)
  let s : State := { s with sbOn := if s.sbEn then ini :: rest else rest }
  let c := ini % 8
  let s := if ini < 16 && s.sbCluster c then s.setFlag (uVE c) 0x104 0 false else s
  let s := if ini = 0x30 || ini = 0x31 then s.vatSync (ini - 0x30) else s
  s.sbSync

/-! ### Gangs (R95, R98, R101) -/

def GANG_BUSY : Nat := 0x0110
def GANG_BARRED : Nat := 0x0111

/-- Some member of a mask runs a command. -/
def State.membersBusy (s : State) (mask : Nat) : Bool := (setIndices 6 mask).any fun c => s.unitBusy (uTC c)

/-- A gang is formed: its unit exists, its registers show the members, and, idle, it adopts the same-bits mode that is asked
for (R101, R271). -/
def State.gangForm (s : State) (g : Nat) : State :=
  match s.gangs.find? (·.g = g) with
  | none => s
  | some x =>
    let u := uGang g
    let cs := setIndices 6 x.members
    let s : State := { s with gangs := s.gangs.map fun y => if y.g = g then { y with stage := .formed } else y }
    let s := s.wr u 0x200 (w32 x.members)
    let s := s.wr u 0x204 (w32 (cs.headD 0))
    let s := s.setUcb u 7 (w32 (cs.length * 0x1000000 + 0x10010))
    let s := s.setUcb u 8 (w32 x.members)
    let s := s.setUcb u 2 (w32 (s.groupState u fun _ => true))
    (cs.foldl (fun s c => (s.setUcb (uTC c) 1 (w32 (0x80000000 + u))).setFld (uTC c) 0x204 23 16 (u % 256)) s).sbAdopt (0x18 + g)

/-- A gang is gone: its unit number is free and its block is as at reset. -/
def State.gangGone (s : State) (g : Nat) : State :=
  match s.gangs.find? (·.g = g) with
  | none => s
  | some x =>
    let u := uGang g
    let s : State := { s with
      gangs := s.gangs.filter (·.g != g)
      claims := s.claims.filter (·.unit != u)
      sbOn := s.sbOn.filter (· != 0x18 + g)
      regs := s.regs.filter fun e => e.1 / 0x10000 != u }
    ((setIndices 6 x.members).foldl (fun s c => (s.setUcb (uTC c) 1 0).setFld (uTC c) 0x204 23 16 0) s).sbSync

/-- 0x0011: form a gang. -/
def callFormGang (ini : Nat) (args : List Word) (s : State) : State :=
  let m := arg args 0
  let cs := setIndices 6 m
  if 64 ≤ m || cs.length < 2 || numTC s.part < cs.length then s.ret RANGE
  else if cs.any fun c => !s.exists? (uTC c) then s.ret NO_UNIT
  else if cs.any fun c => (s.gangOf c).isSome then s.ret GANG_BUSY
  else if cs.any fun c => s.foreignClaim ini (uTC c) || s.reservs.any (fun r => r.ctx = .realTime c) then s.ret GANG_BARRED
  else if cs.any fun c => s.ustate (uTC c) != 0 then s.ret REFUSED [w32 4]
  else match lowest (if s.part.grade1640 then 2 else 3) fun g => !s.gangs.any (·.g = g) with
    | none => s.ret GANG_BUSY
    | some g =>
      let s : State := { s with gangs := s.gangs ++ [⟨g, m, .forming⟩] }
      if s.membersBusy m then s.retPending 0x0011 g [w32 (uGang g)]
      else (s.gangForm g).ret OK [w32 (uGang g)]

def execFormGang (ini : Nat) (args : List Word) (s : State) : Out := .next (callFormGang ini args s)

/-- The first instant at which no member runs a command: a pending formation completes. -/
def State.gangFormed (s : State) (g : Nat) : State :=
  match s.gangs.find? fun x => x.g = g && x.stage = .forming with
  | none => s
  | some x => if s.membersBusy x.members then s else (s.gangForm g).finish 0x0011 g OK

def execGangFormed (g : Nat) (s : State) : Out := .next (s.gangFormed g)

/-- 0x0012: dissolve a gang. -/
def callDissolveGang (ini : Nat) (args : List Word) (s : State) : State :=
  let u := arg args 0
  let m := s.mayChange u
  if m != OK then s.ret m
  else if unitClass u != some .gang then s.ret RANGE
  else if s.callWaits 0x0012 (u - 0x140) then s.ret UNIT_BUSY
  else if s.unitBusy u then
    let s : State := { s with gangs := s.gangs.map fun y => if uGang y.g = u then { y with stage := .dissolving } else y }
    s.retPending 0x0012 (u - 0x140)
  else (s.gangGone (u - 0x140)).ret OK

def execDissolveGang (ini : Nat) (args : List Word) (s : State) : Out := .next (callDissolveGang ini args s)

/-- The first instant at which a dissolving gang runs no command. -/
def State.gangDissolved (s : State) (g : Nat) : State :=
  match s.gangs.find? fun x => x.g = g && x.stage = .dissolving with
  | none => s
  | some _ => if s.unitBusy (uGang g) then s else (s.gangGone g).finish 0x0012 g OK

def execGangDissolved (g : Nat) (s : State) : Out := .next (s.gangDissolved g)

/-! ### Toe engines (R130, R132, R134) -/

def FEED_BUSY : Nat := 0x0112

/-- A toe engine runs a command. -/
def State.teBusy (s : State) (e : Nat) : Bool := (s.run (.toe e)).isSome

/-- The pipeline is bound to the other toe engine. -/
def State.feedTaken (s : State) (e p : Nat) : Bool := p != 0xFF && s.fld (uTE (1 - e)) 0x104 7 0 = p

/-- A write to TE_FEED. -/
def State.teFeedWrite (s : State) (ini e value : Nat) : State :=
  s.guarded ini (uTE e) 0x104 (w32 value) false fun s =>
    let p := value % 256
    let a := regAddr (uTE e) 0x104
    if s.teBusy e || s.feedTaken e p then s.accError ini a .check
    else if p != 0xFF && 16 ≤ p then s.accError ini a .range
    else if p != 0xFF && !s.exists? (uPP p) then s.accError ini a .notEnabled
    else s.wr (uTE e) 0x104 (w32 value)

def execTeFeedWrite (ini e value : Nat) (s : State) : Out := .next (s.teFeedWrite ini e value)

/-- 0x0016: status of a toe engine. -/
def callToeStatus (args : List Word) (s : State) : State :=
  let u := arg args 0
  if !s.exists? u then s.ret NO_UNIT
  else if unitClass u != some .te then s.ret RANGE
  else s.retRegs u [0x100, 0x104, 0x108, 0x120]

def execReadToeEngineStatus (_ : Nat) (args : List Word) (s : State) : Out := .next (callToeStatus args s)

/-- 0x0017: bind or unbind a pipeline. -/
def callBindFeed (ini : Nat) (args : List Word) (s : State) : State :=
  let u := arg args 0
  let p := arg args 1
  let m := s.mayChange u
  if m != OK then s.ret m
  else if unitClass u != some .te || (p != 0xFF && 16 ≤ p) then s.ret RANGE
  else if p != 0xFF && !s.exists? (uPP p) then s.ret NO_UNIT
  else if s.teBusy (u - 0x88) || s.feedTaken (u - 0x88) p then s.ret FEED_BUSY
  else (s.wr u 0x104 (w32 p)).ret OK

def execBindToeFeed (ini : Nat) (args : List Word) (s : State) : Out := .next (callBindFeed ini args s)

/-- 0x0018: the counters of a toe engine. -/
def callToeCounters (args : List Word) (s : State) : State :=
  let u := arg args 0
  if !s.exists? u then s.ret NO_UNIT
  else if unitClass u != some .te then s.ret RANGE
  else s.retRegs u [0x114, 0x118, 0x10C, 0x110, 0x11C, 0x124]

def execReadToeCounters (_ : Nat) (args : List Word) (s : State) : Out := .next (callToeCounters args s)

/-! ### Winograd bounds (R116) -/

/-- 0x0E07: the bounds of R67 with lowA = 0 and maxA = 100 × the largest |v − z| of R67's table, 15 for INT4 and 255
for 8-bit operands whatever the zero point (DEDUCED, notes/assumptions/21.md); an integer U has zero point 0 (DESIGN CHOICE, notes/assumptions/202.md). -/
def callWinogradBounds (args : List Word) (s : State) : State :=
  let fa := arg args 0
  let za := argInt args 1
  let fb := arg args 2
  let lo := argInt args 3
  let hi := argInt args 4
  if !fmtIsInt fa || !zpOk fa za || !fmtInput fb || hi < lo then s.ret RANGE
  else
    let (mb, eb) := fmtBig fb 0
    let we := fmtLow fb + lo
    let wn := flog2Exact (100 * (if fa = 0 then 15 else 255) * mb) eb + hi - 50
    s.ret OK [intWord we, intWord wn, w32 (b2n (wn ≤ we))]

def execWinogradWindowBounds (_ : Nat) (args : List Word) (s : State) : Out := .next (callWinogradBounds args s)

end Sys2Proof.Machine
end

