-- ==== Sys2Proof/Machine/SbMode.lean ====
section
/-! DEFINITION. Same-bits mode: requests, adoption unit by unit (R145, R271, R272, R291, R292). -/
namespace Sys2Proof.Machine

/-- The unit is between commands or batches. -/
def State.sbIdle (s : State) (ini : Nat) : Bool :=
  if ini = 0x30 || ini = 0x31 then !s.flag (uVat (ini - 0x30)) 0x100 30
  else match iniCtx ini with
    | some x => (s.run x).isNone
    | none => true

/-- Every idle unit adopts the requested mode at once. -/
def State.sbRequest (s : State) (en : Bool) : State :=
  let s := (s.setFlag uDevctl 0x400 0 en).setFlag uDevctl 0x400 31 true
  let s := if en then s.setFlag uDevctl 0x400 1 false else s
  let s := (s.sbUnits.filter s.sbIdle).foldl (fun s i => if s.sbOnFor i = en then s else s.sbAdopt i) s
  s.sbSync

/-- A unit reaches its command or batch boundary (R271). -/
def State.sbBoundary (s : State) (ini : Nat) : State :=
  if s.sbOnFor ini = s.sbEn then s else s.sbAdopt ini

/-- A write to SAME_BITS (R291). -/
def State.sameBitsWrite (s : State) (ini value : Nat) : State :=
  s.guarded ini uDevctl 0x400 (w32 value) false fun s =>
    let a := regAddr uDevctl 0x400
    let en := value % 2 = 1
    let steal := value / 2 % 2 = 1
    if s.sbPending && decide en != s.sbEn then s.accError ini a .check
    else if steal && (s.sbEn || s.sbActive) then s.accError ini a .check
    else
      let s := s.setFlag uDevctl 0x400 1 (steal && !en)
      if decide en = s.sbEn then s else s.sbRequest en

def execSameBitsWrite (ini value : Nat) (s : State) : Out := .next (s.sameBitsWrite ini value)

def SB_PENDING : Nat := 0x0140
def QUEUE_RUNNING : Nat := 0x0141

/-- 0x0300: set same-bits mode. -/
def callSameBits (ini : Nat) (args : List Word) (s : State) : State :=
  if 1 < arg args 0 then s.ret RANGE
  else if !s.fwAllows ini (regAddr uDevctl 0) true then s.ret DENIED
  else if s.claimed uDevctl then s.ret CLAIMED
  else if s.sbPending then s.ret SB_PENDING
  else
    let en := arg args 0 = 1
    let s := if decide en = s.sbEn then s else s.sbRequest en
    if s.sbPending then s.retPending 0x0300 (b2n en) else s.ret OK

def execSetSameBitsMode (ini : Nat) (args : List Word) (s : State) : Out := .next (callSameBits ini args s)

/-- 0x0306: the registers at 0x040C–0x0420. -/
def callSbCounters (s : State) : State := s.retRegs uDevctl [0x40C, 0x410, 0x414, 0x418, 0x41C, 0x420]

def execReadSameBitsCounters (_ : Nat) (_ : List Word) (s : State) : Out := .next (callSbCounters s)

/-- 0x0301: the fingerprint (R274, R291). -/
def callFingerprint (s : State) : State := s.retRegs uDevctl [0x408, 0x404, 0x400, 0x40C]

def execReadFingerprint (_ : Nat) (_ : List Word) (s : State) : Out := .next (callFingerprint s)

end Sys2Proof.Machine
end

