-- ==== Sys2Proof/Machine/PecDecode.lean ====
section
/-! DEFINITION. What the sequencer rejects at decode (R80, R85–R87, R103–R107, R112, R115, R129, R171–R199). -/
namespace Sys2Proof.Machine

/-- The first fault of a list of checks (fault, holds), or 0. -/
def firstFault : List (Nat × Bool) → Nat
  | [] => 0
  | (f, bad) :: t => if bad then f else firstFault t

/-! ### The header's fields and the target (R168) -/

def CtxRun.hw (r : CtxRun) (k : Nat) : Word := nth r.hdr k 0
def CtxRun.count (r : CtxRun) : Nat := bits (r.hw 1) 12 0
def CtxRun.usesTiles (r : CtxRun) : Nat := bits (r.hw 4) 7 0
/-- The target class of a context. -/
def ctxTarget : Ctx → Nat
  | .general _ => 1
  | .realTime _ => 1
  | .gang _ => 2
  | .toe _ => 3
  | .mill _ => 4

/-- Member indices of a context, each with its cluster; a context that is no gang has one member, 0. -/
def State.ctxMembers (s : State) (x : Ctx) : List (Nat × Nat) :=
  match x with
  | .gang g => (s.gangClusters g).zipIdx.map fun (c, i) => (i, c)
  | .general c => [(0, c)]
  | .realTime c => [(0, c)]
  | _ => [(0, 0)]

/-- The members that run an instruction under ONLY (R181). -/
def State.runMembers (s : State) (x : Ctx) (only : Option Nat) : List (Nat × Nat) :=
  match only with
  | none => s.ctxMembers x
  | some m => (s.ctxMembers x).filter fun (i, _) => m / 2 ^ i % 2 = 1

/-! ### Culvert ranges (R191, R192) -/

/-- Source and destination ranges of a culvert instruction: first address and length. -/
def culvSrc (w : Dword) (d : TD) : List (Nat × Nat) :=
  match wOp w with
  | 0x10 => [(d.addr, bits w 31 0)]
  | 0x11 => (List.range (bits w 39 24 + 1)).map fun i => (d.addr + i * d.stride, bits w 23 0)
  | 0x13 => [(d.addr, bits w 31 0)]
  | 0x14 => [(d.addr + 16 * bits w 39 24, 16 * bits w 15 0)]
  | _ => []
def culvDst (w : Dword) (d : TD) : List (Nat × Nat) :=
  match wOp w with
  | 0x10 => [(d.addr, bits w 31 0)]
  | 0x11 => (List.range (bits w 39 24 + 1)).map fun i => (d.addr + i * d.stride, bits w 23 0)
  | 0x12 => [(d.addr, bits w 31 0)]
  | 0x13 => [(d.addr, 2 * bits w 31 0)]
  | _ => (List.range (bits w 15 0)).map fun i => (d.addr + i * d.stride, d.cols)

/-- Two ranges share a byte. -/
def meet (a b : Nat × Nat) : Bool := a.1 < b.1 + b.2 && b.1 < a.1 + a.2
def anyMeet (l m : List (Nat × Nat)) : Bool := l.any fun a => m.any (meet a)

def isRemote (a : Nat) : Bool := 0x20000000000 ≤ a && a < 0xA0000000000
def isHost (a : Nat) : Bool := 0x10000000000 ≤ a && a < 0x20000000000

/-- Checks of a culvert instruction. -/
def culvFault (tds : List TD) (members : List (Nat × Nat)) (w : Dword) : Nat :=
  let op := wOp w
  let src := tdOf tds (w4 w 48)
  let dst := tdOf tds (w4 w 44)
  let n := match op with | 0x10 => bits w 31 0 | 0x11 => bits w 23 0 | 0x12 => bits w 31 0 | _ => 1
  let per := members.map fun (i, _) => (culvSrc w (src.member i), culvDst w (dst.member i))
  firstFault [
    (fSHAPE_INVALID, bits w 41 40 = 3 || n = 0),
    (fSHAPE_INVALID, (op != 0x12 && src.rowStride != 0 && src.rowStride < src.rowSize) ||
      (dst.rowStride != 0 && dst.rowStride < dst.rowSize)),
    (fSHAPE_INVALID, (op = 0x11 && ((src.rowStride = 0 && src.cols = 0) || (dst.rowStride = 0 && dst.cols = 0))) ||
      (op = 0x14 && dst.cols = 0)),
    (fREMOTE_READ, op != 0x12 && per.any fun p => p.1.any fun a => isRemote a.1),
    (fSHAPE_INVALID, per.any fun p => p.2.any fun a => isRemote a.1 && (a.1 % 4 != 0 || a.2 % 4 != 0)),
    (fSHAPE_INVALID, per.any fun p => anyMeet p.1 p.2)]

/-! ### Tile operations (R180, R182–R187) -/

/-- What a tile, depth-wise or toe operation reads and writes: rows, reduction length and columns. -/
def matDims (w : Dword) (a b : TD) : Nat × Nat × Nat × Nat :=
  let (m, k) := if bit w 28 then (a.cols, a.rows) else (a.rows, a.cols)
  let (k', n) := if bit w 27 then (b.cols, b.rows) else (b.rows, b.cols)
  (m, k, k', n)

/-- The tiles of a mask, ascending. -/
def tilesOf (w : Dword) : List Nat := setIndices 8 (bits w 23 16)

/-- Each tile's share of a dimension: first and one past last (R183). -/
def share64 (d t : Nat) : List (Nat × Nat) :=
  let k := ceilDiv d (64 * t) * 64
  (List.range t).map fun i => (min (i * k) d, min ((i + 1) * k) d)

/-- The largest number of outputs that one tile accumulates (R85). -/
def tileOutputs (m n split t : Nat) : Nat :=
  let k := fun d => (share64 d t).foldl (fun a p => max a (p.2 - p.1)) 0
  match split with
  | 0 => m * k n
  | 1 => k m * n
  | _ => m * n

/-- A scaled operand and its SCALE_T agree with the direction of the read (R87). -/
def scaleDirBad (d : TD) (trans : Bool) : Bool := if trans then d.scaled && !d.scaleT else d.scaleT

/-- A descriptor's address on some member is no multiple of k. -/
def tdAlignBad (tds : List TD) (members : List (Nat × Nat)) (k i : Nat) : Bool :=
  members.any fun m => ((tdOf tds i).member m.1).addr % k != 0

/-- Statistics area and rescale table of every member are aligned (R68, R72, R180, R181). -/
def tablesBad (tds : List TD) (members : List (Nat × Nat)) (rescale stats : Option Nat) : Bool :=
  (match rescale with | some i => tdAlignBad tds members 64 i | none => false) ||
  (match stats with | some i => tdAlignBad tds members 64 i | none => false)

/-- ZP is one that R180 allows: 0 for an output and for a float format, else in the range of R52. -/
def TD.zpLegal (d : TD) (out : Bool) : Bool := if !out && fmtIsInt d.fmt then zpOk d.fmt d.z else d.zp = 0

/-- A nonzero ROW_STRIDE is at least k bytes (R180). -/
def TD.strideLegal (d : TD) (k : Nat) : Bool := d.rowStride = 0 || k ≤ d.rowStride

/-- The pairing rule of ACC_IN: the last tile instruction of each member left sums of the same shape (R184). -/
def pairFault (pairs : List (Nat × TilePair)) (members : List (Nat × Nat)) (p : TilePair) (window : Bool) : Nat :=
  let bad := members.any fun (i, _) => match pairs.find? (·.1 = i) with
    | none => true
    | some (_, q) => q.tiles != p.tiles || q.split != p.split || q.m != p.m || q.width != p.width || q.n != p.n
  let win := members.any fun (i, _) => match pairs.find? (·.1 = i) with
    | none => false
    | some (_, q) => q.win != p.win
  if bad then fSHAPE_INVALID else if window && win then fWINDOW_MISMATCH else 0

/-- Ring writing (R112, R187): the ring lies in a landing parcel and its marks in the queue's ranges. -/
def State.ringFault (s : State) (rm : List Nat) (dst : TD) (members : List (Nat × Nat)) (rows : Nat)
    (q : Option (List Word)) : Nat :=
  if nth rm 0 0 = 0 then 0
  else
    let ring := nth rm 3 0
    firstFault [
      (fSHAPE_INVALID, ring = 0 || rows = 0),
      (fSHAPE_INVALID, members.any fun (i, _) =>
        let a := (dst.member i).addr
        match s.parcelAt a with
        | none => true
        | some p => s.pclKind p != 1 || s.parcelAt (a + ring * dst.stride - 1) != some p),
      (fMARK_DENIED, match q with
        | none => false
        | some d => !qMayMark d (nth rm 1 0) || !qMayMark d (nth rm 2 0))]

/-- The tile pair that a MATMUL or CONV works on. -/
def tilePair (w : Dword) (m width n : Nat) (win : Int) : TilePair := ⟨bits w 23 16, bits w 15 14, m, width, n, win⟩

/-- Fields that MATMUL and CONV share: masks, codes. -/
def tileFieldFault (uses : Nat) (w : Dword) : Nat :=
  let mask := bits w 23 16
  firstFault [
    (fSHAPE_INVALID, mask = 0 || bits w 15 14 = 3 || bits w 30 29 = 0 || bits w 30 29 = 3),
    (fBLOCK_INVALID, (setIndices 8 mask).any fun t => uses / 2 ^ t % 2 = 0)]

/-- MATMUL. -/
def matmulFault (r : CtxRun) (members : List (Nat × Nat)) (w : Dword) : Nat :=
  let a := tdOf r.tds (w4 w 48)
  let b := tdOf r.tds (w4 w 44)
  let o := tdOf r.tds (w4 w 40)
  let (m, k, k', n) := matDims w a b
  let out := !bit w 25 && !bit w 24
  let f := tileFieldFault r.usesTiles w
  if f != 0 then f
  else
    let g := firstFault [
      (fFORMAT_INVALID, !a.inOk || !b.inOk || (out && !o.outOk) || (bit w 24 && !bit w 25 && !o.zpLegal true)),
      (fSHAPE_INVALID, !a.matOk || !b.matOk || k != k' || (out && (!o.matOk || o.rows != m || o.cols != n))),
      (fFORMAT_INVALID, 2 ^ 28 < k || scaleDirBad a (bit w 28) || scaleDirBad b (bit w 27)),
      (fSHAPE_INVALID, tablesBad r.tds members (if out then some (w4 w 36) else none) (if bit w 31 then some (w4 w 32) else none)),
      (fSHAPE_INVALID, (bit w 24 && !bit w 25 && tdAlignBad r.tds members 16 (w4 w 40)) ||
        4096 < tileOutputs m n (bits w 15 14) (tilesOf w).length)]
    if g != 0 then g else if bit w 26 then pairFault r.pairs members (tilePair w m 1 n r.win) true else 0

/-- What CONV, DWCONV and TCONV check of their map, weights and output alike. -/
def convCommon (tds : List TD) (members : List (Nat × Nat)) (c : Conv) (w : Dword) (out : Bool) (feed : Bool) : List (Nat × Bool) :=
  let a := tdOf tds (w4 w 48)
  let b := tdOf tds (w4 w 44)
  let o := tdOf tds (w4 w 40)
  [ (fFORMAT_INVALID, (!feed && !a.inOk) || !b.inOk || (out && !o.outOk)),
    (fSHAPE_INVALID, (!feed && !a.mapOk c.w c.cin) || !b.matOk || (out && !o.mapOk c.outW c.cout)),
    (fSHAPE_INVALID, !feed && 2 ^ fmtBits a.fmt ≤ c.pad),
    (fFORMAT_INVALID, !feed && (a.scaleT || (a.scaled && c.g % 32 != 0))),
    (fSHAPE_INVALID, tablesBad tds members (if out then some (w4 w 36) else none) (if bit w 31 then some (w4 w 32) else none)) ]

/-- Output channels of one matrix instruction of a CONV: those of one group when g is above 64 (R127). -/
def Conv.perInstr (c : Conv) : Nat := if c.wino || c.g ≤ 64 then c.cout else c.cout / c.groups

/-- CONV. -/
def State.convFault (s : State) (r : CtxRun) (members : List (Nat × Nat)) (w : Dword) (q : Option (List Word)) : Nat :=
  let c := convOf r.cps
  let a := tdOf r.tds (w4 w 48)
  let b := tdOf r.tds (w4 w 44)
  let o := tdOf r.tds (w4 w 40)
  let out := !bit w 25 && !bit w 24
  let k := if c.wino then c.cin else c.kh * c.kw * c.g
  let (br, bc) := if bit w 27 then (b.cols, b.rows) else (b.rows, b.cols)
  let m := c.outH * c.outW
  let f := tileFieldFault r.usesTiles w
  if f != 0 then f
  else
    let g := firstFault ([
      (fFORMAT_INVALID, (c.wino && (!fmtIsInt a.fmt || a.scaled)) || (bit w 24 && !bit w 25 && !o.zpLegal true)),
      (fSHAPE_INVALID, if c.wino then !c.winoOk else !c.directOk),
      (fSHAPE_INVALID, if c.wino then br != 36 || bc != c.cin * c.cout else br != k || bc != c.cout)] ++
      convCommon r.tds members c w out false ++ [
      (fFORMAT_INVALID, 2 ^ 28 < k || scaleDirBad b (bit w 27)),
      (fSHAPE_INVALID, (bit w 24 && !bit w 25 && tdAlignBad r.tds members 16 (w4 w 40)) ||
        4096 < tileOutputs m c.perInstr (bits w 15 14) (tilesOf w).length)])
    if g != 0 then g
    else
      let h := if bit w 26 then pairFault r.pairs members (tilePair w m c.outW c.cout r.win) true else 0
      if h != 0 then h else if out then s.ringFault r.rm o members c.outH q else 0

/-- PSADD: on the reducer, after a MATMUL or CONV with ACC_OUT of the same tiles and shape (R184). -/
def psaddFault (r : CtxRun) (members : List (Nat × Nat)) (w : Dword) : Nat :=
  let p := tdOf r.tds (w4 w 48)
  let o := tdOf r.tds (w4 w 44)
  let mask := bits w 23 16
  firstFault [
    (fSHAPE_INVALID, mask = 0),
    (fBLOCK_INVALID, (setIndices 8 mask).any fun t => r.usesTiles / 2 ^ t % 2 = 0),
    (fFORMAT_INVALID, !o.outOk || !p.zpLegal false),
    (fSHAPE_INVALID, tablesBad r.tds members (some (w4 w 40)) (if bit w 35 then some (w4 w 36) else none)),
    (fSHAPE_INVALID, members.map (·.1) != [0] || p.addr % 16 != 0),
    (fSHAPE_INVALID, match r.pairs.find? (·.1 = 0) with
      | none => true
      | some (_, t) => t.tiles != mask || o.rows != t.m || o.cols != t.n || !o.matOk),
    (fWINDOW_MISMATCH, match r.pairs.find? (·.1 = 0) with | none => false | some (_, t) => t.win != r.win)]

/-- DWCONV: on the unit, or in the diagonal mapping on the fallback tile (R126, R186). -/
def State.dwconvFault (s : State) (r : CtxRun) (members : List (Nat × Nat)) (w : Dword) (q : Option (List Word)) : Nat :=
  let c := convOf r.cps
  let b := tdOf r.tds (w4 w 44)
  let g := firstFault ([
    (fBLOCK_INVALID, c.fbEn && r.usesTiles / 2 ^ c.fbTile % 2 = 0),
    (fSHAPE_INVALID, c.wino || !c.diagOk || (!c.fbEn && !c.unitOk)),
    (fSHAPE_INVALID, b.rows != c.kh * c.kw * c.g || b.cols != c.cout)] ++
    convCommon r.tds members c w true false ++ [
    (fFORMAT_INVALID, scaleDirBad b false)])
  if g != 0 then g else s.ringFault r.rm (tdOf r.tds (w4 w 40)) members c.outH q

/-- POOL operations: 0 MAX, 1 MIN, 2 SUM, 3 AVG_INCL, 4 AVG_EXCL, 5 GLOBAL_SUM, 6 GLOBAL_AVG. -/
def poolOp (w : Dword) : Nat := bits w 30 28
/-- A global form. -/
def poolGlobal (w : Dword) : Bool := 5 ≤ poolOp w

def poolFault (r : CtxRun) (members : List (Nat × Nat)) (w : Dword) : Nat :=
  let c := convOf r.cps
  let a := tdOf r.tds (w4 w 48)
  let o := tdOf r.tds (w4 w 40)
  let op := poolOp w
  let outW := if poolGlobal w then 1 else c.outW
  firstFault [
    (fSHAPE_INVALID, op = 7 || (op ≤ 1 && w4 w 36 != 0)),
    (fSHAPE_INVALID, !c.poolOk (poolGlobal w) || (poolGlobal w && 2 ^ 24 < c.h * c.w)),
    (fFORMAT_INVALID, !a.inOk || !o.outOk),
    (fSHAPE_INVALID, !a.mapOk c.w c.cin || !o.mapOk outW c.cin || 2 ^ fmtBits a.fmt ≤ c.pad),
    (fFORMAT_INVALID, a.scaleT || a.scaled),
    (fSHAPE_INVALID, tablesBad r.tds members (if op ≤ 1 then none else some (w4 w 36)) (if bit w 31 then some (w4 w 32) else none))]

/-- The format of a toe engine's feed, while a pipeline is bound whose machine-vision output feeds (R130). -/
def State.feedFmt (s : State) (x : Ctx) : Option Nat :=
  match x with
  | .toe e =>
    let p := s.fld (uTE e) 0x104 7 0
    if p < 16 && oFeed (s.pp p).desc then some (oFmt (s.pp p).desc 2) else none
  | _ => none

/-- The pad code of an operation on the feed is no code of the feed's format (R104). -/
def State.feedPadBad (s : State) (x : Ctx) (c : Conv) : Bool := (s.feedFmt x).any fun f => 2 ^ fmtBits f ≤ c.pad

/-- TCONV (R104, R129, R130). -/
def State.tconvFault (s : State) (r : CtxRun) (members : List (Nat × Nat)) (w : Dword) (q : Option (List Word)) : Nat :=
  let c := convOf r.cps
  let b := tdOf r.tds (w4 w 44)
  let feed := bit w 30
  let g := firstFault ([
    (fSHAPE_INVALID, !c.toeOk || (!feed && 16384 < c.h)),
    (fSHAPE_INVALID, b.rows != c.kh * c.kw * c.cin || b.cols != c.cout || 131072 < b.rows * b.rowSize)] ++
    convCommon r.tds members c w true feed ++ [
    (fSHAPE_INVALID, feed && s.feedPadBad r.ctx c),
    (fFORMAT_INVALID, scaleDirBad b false)])
  if g != 0 then g else s.ringFault r.rm (tdOf r.tds (w4 w 40)) members c.outH q

/-! ### Vector and merge instructions (R188–R190) -/

def vX (w : Dword) : Nat := w4 w 48
def vY (w : Dword) : Nat := w4 w 44
def vZ (w : Dword) : Nat := w4 w 40
def vP (w : Dword) : Nat := w4 w 36
def vS (w : Dword) : Nat := w4 w 32
def vSub (w : Dword) : Nat := bits w 18 15
def vSA (w : Dword) : Nat := bits w 14 11
def vSB (w : Dword) : Nat := bits w 10 7
def vWV (w : Dword) : Int := sext 10 (bits w 28 19)

/-- The highest SUB code of a lane-array opcode (R189). -/
def subMax (op : Nat) : Nat := nth [14, 10, 4, 0, 0, 1, 1, 0, 0, 0] (op - 0x30) 0

/-- A vector operand: any format of R49, FP32 as well, its zero point in range (R139). -/
def TD.vecOk (d : TD) : Bool := d.inOk || (d.fmt = 10 && d.zp = 0)

/-- Operands that a lane-array opcode reads beside X (Y, P as elements), and whether Z is written. -/
def vecUses (w : Dword) : Bool × Bool :=
  match wOp w with
  | 0x30 => (let s := vSub w; (s ≤ 5 || (8 ≤ s && s ≤ 11)), (let s := vSub w; s = 3 || s = 11))
  | 0x37 => (true, false)
  | 0x38 => (true, true)
  | _ => (false, false)

def vecFault (r : CtxRun) (members : List (Nat × Nat)) (w : Dword) : Nat :=
  let op := wOp w
  let x := tdOf r.tds (vX w)
  let y := tdOf r.tds (vY w)
  let z := tdOf r.tds (vZ w)
  let p := tdOf r.tds (vP w)
  let (uy, up) := vecUses w
  let masked := op = 0x35 && bit w 15
  firstFault [
    (fSHAPE_INVALID, subMax op < vSub w || (op = 0x39 && !bit w 29) || (op = 0x38 && 10 < vSA w)),
    (fFORMAT_INVALID, !x.vecOk || (uy && !y.vecOk) || (up && !p.vecOk) || !z.outOk),
    (fFORMAT_INVALID, ((op = 0x37 || op = 0x38) && (y.fmt != 10 || y.scaled)) || (op = 0x38 && (p.fmt != 10 || p.scaled))),
    (fFORMAT_INVALID, (op = 0x39 && z.fmt != 9 && z.fmt != 3) || (op = 0x36 && !(3 ≤ z.fmt && z.fmt ≤ 7))),
    (fSHAPE_INVALID, !x.matOk || z.rows = 0 || z.cols = 0 || z.stride < z.rowSize ||
      (uy && (y.cols = 0 || y.stride < y.rowSize)) || (up && (p.cols = 0 || p.stride < p.rowSize))),
    (fFORMAT_INVALID, x.scaleT || (uy && y.scaleT) || (up && p.scaleT) || (masked && !y.zpLegal false) ||
      ((op = 0x33 || op = 0x34) && !p.zpLegal false) || (op = 0x39 && (!y.zpLegal false || !p.zpLegal true))),
    (fSHAPE_INVALID, masked && !y.strideLegal y.rowSize),
    (fSHAPE_INVALID, tablesBad r.tds members none (if bit w 31 then some (vS w) else none))]

/-- Marks base … base + n − 1 lie in the queue's ranges. -/
def marksDenied (q : Option (List Word)) (base n : Nat) : Bool :=
  match q with
  | none => false
  | some d => (List.range n).any fun i => !qMayMark d ((base + i) % 65536)

def xreduceFault (r : CtxRun) (w : Dword) (q : Option (List Word)) : Nat :=
  let x := tdOf r.tds (vX w)
  let z := tdOf r.tds (vZ w)
  firstFault [
    (fSHAPE_INVALID, 2 < w4 w 36),
    (fFORMAT_INVALID, !x.vecOk || !z.outOk),
    (fSHAPE_INVALID, x.cols = 0 || x.stride < x.rowSize),
    (fFORMAT_INVALID, x.scaleT),
    (fMARK_DENIED, marksDenied q (bits w 15 0) (bits w 18 16 + 1))]

/-- Bytes of a row block of R157. -/
def rowBlock (dh : Nat) : Nat := (8 + 4 * dh + 63) / 64 * 64

def mergeFault (r : CtxRun) (members : List (Nat × Nat)) (w : Dword) (q : Option (List Word)) : Nat :=
  let x := tdOf r.tds (vX w)
  match wOp w with
  | 0x50 => firstFault [
      (fFORMAT_INVALID, !x.zpLegal false || !(tdOf r.tds (w4 w 44)).zpLegal true || !(tdOf r.tds (vP w)).zpLegal false),
      (fSHAPE_INVALID, x.rows = 0 || x.cols = 0 || !x.strideLegal (4 * x.cols))]
  | 0x51 => firstFault [
      (fFORMAT_INVALID, !x.zpLegal false || !(tdOf r.tds (w4 w 44)).zpLegal true),
      (fSHAPE_INVALID, (tdOf r.tds (w4 w 48)).rowStride = 0 && (tdOf r.tds (w4 w 48)).cols = 0),
      (fMARK_DENIED, marksDenied q (bits w 25 10) (bits w 38 36 + 1))]
  | _ => firstFault [
      (fFORMAT_INVALID, !(tdOf r.tds (vZ w)).outOk || !x.zpLegal false),
      (fSHAPE_INVALID, x.rows = 0 || x.cols = 0 || (tdOf r.tds (vZ w)).stride < (tdOf r.tds (vZ w)).rowSize),
      (fSHAPE_INVALID, tablesBad r.tds members none (if bit w 31 then some (vS w) else none))]

/-! ### Lock passages (R196, R197, R226) -/

/-- Parameter instructions under a lock. -/
def isParam (op : Nat) : Bool := op ≤ 0x0D && op != 0x0B && op != 0x0C

/-- The Polder ranges that a lane-array instruction may reach on member i. -/
def vecRanges (tds : List TD) (i : Nat) (w : Dword) : List (Nat × Nat) :=
  let x := (tdOf tds (vX w)).member i
  let rows := if wOp w = 0x3A then bits w 18 16 + 1 else x.rows
  let area := fun (d : TD) => [(d.addr, (rows - 1) * d.stride + rowBytes d.fmt x.cols)] ++
    (if d.scaled then [(d.scaleAddr, 2 * rows * ceilDiv x.cols 32)] else [])
  let y := (tdOf tds (vY w)).member i
  let z := (tdOf tds (vZ w)).member i
  let p := (tdOf tds (vP w)).member i
  let st := (tdOf tds (vS w)).member i
  let pair := fun (d : TD) (k : Nat) => [(d.addr, rows * (if d.rowStride = 0 then k else d.rowStride))]
  let (uy, up) := vecUses w
  (match wOp w with
    | 0x3A => area x ++ [(z.addr, rowBytes z.fmt x.cols)]
    | 0x32 => area x ++ [(z.addr, (rows - 1) * z.stride + rowBytes z.fmt 1)]
    | 0x33 => area x ++ area z ++ [(p.addr, 8 * x.cols)]
    | 0x34 => area x ++ area z ++ [(p.addr, 4 * x.cols)]
    | 0x35 => area x ++ area z ++ (if bit w 15 then [(y.addr, (rows - 1) * y.stride + x.cols)] else [])
    | 0x36 => area x ++ [(z.addr, (rows - 1) * z.stride + rowBytes z.fmt x.cols),
        (z.scaleAddr, rows * ceilDiv x.cols 32 * (if bit w 15 then 2 else 1))]
    | 0x39 => area x ++ area z ++ pair p 8 ++ pair y 4
    | _ => area x ++ area z ++ (if uy then area y else []) ++ (if up then area p else [])) ++
  (if wOp w != 0x3A && bit w 31 then [(st.addr, 32)] else [])

/-- A range lies inside a member's locked range. -/
def LockRange.holds (l : LockRange) (i : Nat) (a : Nat × Nat) : Bool :=
  l.ranges.any fun (j, b, n) => j = i && b ≤ a.1 && a.1 + a.2 ≤ b + n

/-- The passage was opened on a member: one that ONLY kept out of the LOPEN has no range to be held to (R181, R197). -/
def LockRange.onMember (l : LockRange) (i : Nat) : Bool := l.ranges.any fun r => r.1 = i

/-- The far end of a move lies where no passage lets it: in a host window, a remote window, or in the Polder outside the locked
range (R197). -/
def LockRange.bars (l : LockRange) (i : Nat) (a : Nat × Nat) : Bool :=
  if a.1 < 0x10000000 then !l.holds i a else isHost a.1 || isRemote a.1

/-- What an open passage forbids (R197). -/
def lockFault (r : CtxRun) (members : List (Nat × Nat)) (w : Dword) : Nat :=
  match r.lock with
  | none => if wOp w = 0x91 then fLOCK_INVALID else 0
  | some l =>
    let op := wOp w
    if op = 0x91 || isParam op then 0
    else if l.req ≤ 3 && op / 16 = 1 && bits w 43 42 = l.req then
      let bad := members.any fun (i, _) => l.onMember i &&
        (culvSrc w ((tdOf r.tds (w4 w 48)).member i) ++ culvDst w ((tdOf r.tds (w4 w 44)).member i)).any (l.bars i)
      if bad then fLOCK_INVALID else 0
    else if l.req = 4 && op / 16 = 3 then
      if members.any fun (i, _) => l.onMember i && (vecRanges r.tds i w).any fun a => !l.holds i a then fLOCK_INVALID else 0
    else fLOCK_INVALID

/-- The logical banks that a range touches. -/
def banksOf (a n : Nat) : List Nat := (List.range ((a + n - 1) / 1024 - a / 1024 + 1)).map fun i => bankOf ((a / 1024 + i) * 1024)

/-- LOPEN: requester, length, one valid parcel, at most four banks; then the right to write (R197, R226). -/
def State.lopenFault (s : State) (r : CtxRun) (members : List (Nat × Nat)) (w : Dword) (rights : Bool) : Nat :=
  let n := bits w 12 0
  let req := w4 w 44
  let per := members.map fun (i, _) => ((tdOf r.tds (w4 w 48)).member i).addr
  firstFault [
    (fLOCK_INVALID, 4 < req || n < 64 || 4096 < n || n % 64 != 0 || (req = 4 && ctxTarget r.ctx = 3)),
    (fLOCK_INVALID, per.any fun a =>
      (s.parcelAt a).isNone || s.parcelAt a != s.parcelAt (a + n - 1) || 4 < (banksOf a n).eraseDups.length),
    (fPARCEL_DENIED, rights && per.any fun a => !s.polderAllowed (ctxIni r.ctx) a n true)]

/-! ### Decode (R171, R193, R199) -/

/-- MARK-class instructions; the mark of another part's table is held to the queue's ranges too (R193). -/
def State.markFault (s : State) (w : Dword) (q : Option (List Word)) : Nat :=
  let op := wOp w
  let m := bits w 47 32
  let own := s.fld uRing 0x200 2 0
  firstFault [
    (fSHAPE_INVALID, bit w 51 && (op = 0x73 || op = 0x75)),
    (fSHAPE_INVALID, 0x74 ≤ op && bits w 50 48 = own),
    (fMARK_DENIED, match q with | none => false | some d => !qMayMark d m),
    (fMARK_DENIED, op = 0x72 && s.isCreditMark m)]

/-- The fault that decode finds in an instruction, or 0. q is the queue's descriptor; none when a block is only
validated, with no marks or rights to check. rind: the entry's RIND. -/
def State.decodeFault (s : State) (r : CtxRun) (q : Option (List Word)) (rind : Bool) (w : Dword) : Nat :=
  let op := wOp w
  let members := s.runMembers r.ctx r.only
  if !opcodes.contains op || op / 16 != wClass w || !opAllowed (ctxTarget r.ctx) op then fOPCODE_INVALID
  else if wReserved w then fSHAPE_INVALID
  else if lockFault r members w != 0 then lockFault r members w
  else if r.only.isSome && (op / 16 = 0 || op = 0x70 || op = 0x71) then fSHAPE_INVALID
  else match op with
    | 0x03 => if 11 ≤ bits w 3 0 then fFORMAT_INVALID else 0
    | 0x09 => if 3 < w4 w 48 then fSHAPE_INVALID else 0
    | 0x20 => matmulFault r members w
    | 0x21 => s.convFault r members w q
    | 0x22 => psaddFault r members w
    | 0x3A => xreduceFault r w q
    | 0x40 => s.dwconvFault r members w q
    | 0x41 => poolFault r members w
    | 0x50 => mergeFault r members w q
    | 0x51 => mergeFault r members w q
    | 0x52 => mergeFault r members w q
    | 0x60 => s.tconvFault r members w q
    | 0x90 => s.lopenFault r members w q.isSome
    | 0xA0 => firstFault [(fRIND_OFF, !rind), (fSHAPE_INVALID, tdAlignBad r.tds members 64 (w4 w 48))]
    | _ =>
      if op / 16 = 1 then culvFault r.tds members w
      else if op / 16 = 3 then vecFault r members w
      else if op / 16 = 7 then s.markFault w q
      else 0

end Sys2Proof.Machine
end

