-- ==== Sys2Proof/Machine/TileOps.lean ====
section
/-! DEFINITION. What tile, depth-wise and toe operations compute and write (R58–R74, R96, R97, R103–R130, R183–R187,
R595). -/
namespace Sys2Proof.Machine

/-! ### Writes of an instruction (R595) -/

/-- What an instruction came to: the state after its reads, its fault or 0, what it writes in order. -/
structure Work where
  s : State
  fault : Nat
  writes : List (Nat × List Byte)

/-- Make writes in order; a refused one ends them. -/
def State.doWrites (s : State) (ini : Nat) : List (Nat × List Byte) → State × Nat
  | [] => (s, 0)
  | (a, l) :: t =>
    let (s, c) := s.polWrite ini a l
    if c = 0 then s.doWrites ini t else (s, c)

/-- Make the writes of an instruction: its fault or 0, and the old contents of its rows. An instruction that faults
leaves each row old or new (R595). -/
def State.commit (ini : Nat) (k : Work) : State × Nat × List (Nat × List Byte) :=
  let old := k.s.keepRows k.writes
  let (s, c) := k.s.doWrites ini k.writes
  let f := if k.fault != 0 then k.fault else c
  if f = 0 then (s, 0, old) else (s.undoRows old, f, [])

/-! ### Grids of sums -/

/-- The sums of an operation by output row and channel (none: an operand of the row could not be read), the
SCALE_RANGE counts by channel, a scale skew (which stream's split, expected, received), the first fault. -/
structure Grid where
  s : State
  fault : Nat
  rows : List (Option (List Sum))
  range : List Nat
  skew : Option (Nat × Nat × Nat)

/-- The E19 lines of an operand along the reduction, k long, with their scale entries; and a skew. -/
def scaledLines (d : TD) (k : Nat) (lines : List Line) (entries : Option (List Nat)) : List (Option (List (E19 × Bool))) :=
  let nb := ceilDiv k 32
  lines.zipIdx.map fun (l, i) =>
    match l, entries with
    | some c, some e => some (expandLine d.fmt d.z d.scaled c (lineEntries e nb i))
    | _, _ => none

/-- Tile that owns index i of dimension d under a mask (R183): its slot. -/
def ownerOf (d i : Nat) (tiles : List Nat) : Nat :=
  nth tiles (i / (max 1 (ceilDiv d (64 * tiles.length) * 64))) (tiles.headD 0)

/-- The tile that works on an output position and channel and an index of the reduction, of an m × n operation over k
elements (R183). -/
def workTile (w : Dword) (m n k pos chan red : Nat) : Nat :=
  match bits w 15 14 with
  | 0 => ownerOf n chan (tilesOf w)
  | 1 => ownerOf m pos (tilesOf w)
  | _ => ownerOf k red (tilesOf w)

/-- The lowest skewed entry of a scale stream of lines of nb entries: its line, the first reduction index of its block,
expected and received tags. -/
def streamSkew (d : TD) (nb : Nat) (entries : Option (List Nat)) : Option (Nat × Nat × Nat × Nat) :=
  match entries with
  | none => none
  | some e =>
    if d.scaled then (skewAt d.tag0 e).map fun n => (n / nb, 32 * (n % nb), (d.tag0 + n) % 64, nth e n 0 / 256 % 64) else none

/-- How many elements of a line a block scale saturated or rounded. -/
def events (l : List (E19 × Bool)) : Nat := (l.filter (·.2)).length

/-- First nonzero code. -/
def orFault (a b : Nat) : Nat := if a != 0 then a else b

/-- MATMUL's sums (R183). Of several mismatches the record names the lowest entry, the streaming operand's before the
stationary one's (DESIGN CHOICE, notes/assumptions/155.md); its tile is the lowest that works on the block. -/
def State.matmulGrid (s : State) (ini : Nat) (a b : TD) (w : Dword) (win : Int) : Grid :=
  let (m, k, _, n) := matDims w a b
  let nb := ceilDiv k 32
  let la := s.loadRows ini a
  let lb := la.s.loadRows ini b
  let sa := lb.s.loadScales ini a (m * nb)
  let sb := sa.s.loadScales ini b (n * nb)
  let rowsA := if bit w 28 then transLines m la.v else la.v
  let colsB := if bit w 27 then lb.v else transLines n lb.v
  let ea := scaledLines a k rowsA sa.v
  let eb := scaledLines b k colsB sb.v
  let acc := orFault (orFault la.fault lb.fault) (orFault sa.fault sb.fault)
  let skew := match streamSkew a nb sa.v with
    | some (i, p, e, r) => some (workTile w m n k i 0 p, e, r)
    | none => (streamSkew b nb sb.v).map fun (j, p, e, r) => (workTile w m n k 0 j p, e, r)
  let evA := (ea.map fun l => events (l.getD [])).foldl (· + ·) 0
  let rows := ea.map fun l => match l with
    | none => none
    | some x => if eb.any (·.isNone) then none else some (eb.map fun y => dot win (x.zip (y.getD []) |>.map fun (p, q) => (p.1, q.1)))
  ⟨sb.s, orFault acc (if skew.isSome then fSCALE_SKEW else 0), rows, eb.map fun l => evA + events (l.getD []),
    if acc = 0 then skew else none⟩

/-! ### Window operations (R103–R118) -/

/-- One pixel of a map, expanded, with its scale blocks; the first skew of its entries: block, tags; the fault of its reads. -/
structure Pixel where
  v : Option (List (E19 × Bool))
  codes : Option (List Nat)
  fault : Nat
  skew : Option (Nat × Nat × Nat)

/-- Read a pixel of a map. -/
def State.loadPixel (s : State) (ini : Nat) (d : TD) (c : Conv) (y x : Nat) : State × Pixel :=
  let nb := ceilDiv c.cin 32
  let (s, f1, bs) := s.polRead ini (d.pixel c.cin y x) (rowBytes d.fmt c.cin)
  let n0 := (y * c.w + x) * nb
  let r := s.loadScales ini { d with scaleAddr := d.scaleAddr + 2 * n0 } nb
  let codes := if f1 = 0 then some (codesOf d.fmt c.cin bs) else none
  let v := match codes, r.v with
    | some k, some e => some (expandLine d.fmt d.z d.scaled k e)
    | _, _ => none
  let skew := match r.v with
    | some e => if d.scaled then (skewAt (d.tag0 + n0) e).map fun n => (n, (d.tag0 + n0 + n) % 64, nth e n 0 / 256 % 64) else none
    | none => none
  (r.s, ⟨v, codes, orFault f1 r.fault, skew⟩)

/-- Positions of an axis that some output reads. -/
def usedPos (out k stride dil pad size : Nat) : List Nat :=
  (List.range size).filter fun p => (List.range out).any fun o => (List.range k).any fun t => tapPos o t stride dil pad size = some p

/-- The pixels of a map that an operation uses, by y then x (none where it uses none). -/
structure Map where
  s : State
  px : List (List (Option Pixel))

def State.loadMap (s : State) (ini : Nat) (d : TD) (c : Conv) (ys xs : List Nat) : Map :=
  let r := (List.range c.h).foldl (fun (acc : State × List (List (Option Pixel))) y =>
    if ys.contains y then
      let (s, row) := (List.range c.w).foldl (fun (a : State × List (Option Pixel)) x =>
        if xs.contains x then
          let (s, p) := a.1.loadPixel ini d c y x
          (s, a.2 ++ [some p])
        else (a.1, a.2 ++ [none])) (acc.1, [])
      (s, acc.2 ++ [row])
    else (acc.1, acc.2 ++ [List.replicate c.w none])) (s, [])
  ⟨r.1, r.2⟩

def Map.at (m : Map) (y x : Nat) : Option Pixel := nth (nth m.px y []) x none
def Map.all (m : Map) : List Pixel := m.px.flatMap fun r => r.filterMap id
def Map.fault (m : Map) : Nat := m.all.foldl (fun a p => orFault a p.fault) 0
/-- The lowest skewed entry of a map: its pixel, the first channel of its block, the tags. -/
def Map.skew (m : Map) : Option (Nat × Nat × Nat × Nat × Nat) :=
  m.px.zipIdx.findSome? fun (row, y) => row.zipIdx.findSome? fun (p, x) =>
    (p.bind (·.skew)).map fun (b, e, r) => (y, x, 32 * b, e, r)

/-- A padding-tap record (R118): its sum, counts and whether its base differs from W. -/
def tapRecord (win : Int) (b : List Byte) : Sum × Bool :=
  let v := bytesNat b
  let f := fun (lo n : Nat) => v / 2 ^ lo % 2 ^ n
  (⟨sext 80 v, f 96 32, f 128 32, f 160 32, f 192 8, f 95 1 = 1⟩, sext 10 (f 80 10) != win)

/-- The tap is skipped for the span that holds output position x of row y (R117). -/
def Conv.skipped (c : Conv) (y x ky kx : Nat) : Bool :=
  c.skip && (
    (tapPos y ky c.sy c.dy c.pt c.h).isNone ||
    (let x0 := x / c.span * c.span
     (List.range (min c.span (c.outW - x0))).all fun i => (tapPos (x0 + i) kx c.sx c.dx c.pl c.w).isNone))

/-- Every output position, row by row. -/
def Conv.positions (c : Conv) : List (Nat × Nat) := (List.range c.outH).flatMap fun y => (List.range c.outW).map fun x => (y, x)
/-- Every tap. -/
def Conv.taps (c : Conv) : List (Nat × Nat) := (List.range c.kh).flatMap fun y => (List.range c.kw).map fun x => (y, x)

/-- The elements of an input group at a tap of an output position: padding, or a pixel's. -/
def Map.tapElems (m : Map) (d : TD) (c : Conv) (gi y x ky kx : Nat) : Option (List E19) :=
  match tapPos y ky c.sy c.dy c.pt c.h, tapPos x kx c.sx c.dx c.pl c.w with
  | some py, some px => match m.at py px with
    | some p => p.v.map fun l => ((l.drop (gi * c.g)).take c.g).map (·.1)
    | none => none
  | _, _ => some (List.replicate c.g (expand d.fmt d.z c.pad))

/-- The tile that a skew of a window operation is met on, from output position, channel and reduction index. -/
abbrev SkewTile := Nat → Nat → Nat → Nat

/-- The first use of a pixel's channel: the lowest output position that reads it, the first output channel of its group, its
lowest reduction index (R106). -/
def Conv.firstUse (c : Conv) (y x ch : Nat) : Nat × Nat × Nat :=
  let hits := fun (p k : Nat × Nat) => tapPos p.1 k.1 c.sy c.dy c.pt c.h = some y && tapPos p.2 k.2 c.sx c.dx c.pl c.w = some x
  let pos := (c.positions.findIdx? fun p => c.taps.any fun k => hits p k).getD 0
  let tap := (c.taps.findIdx? fun k => c.positions.any fun p => hits p k).getD 0
  (pos, ch / c.g * (c.cout / c.groups), tap * c.g + ch % c.g)

/-- The tile of a CONV: its shares are those of the instruction that runs a group when g is above 64 (R127, R183). -/
def Conv.skewTile (c : Conv) (w : Dword) : SkewTile := fun pos chan red =>
  workTile w (c.outH * c.outW) c.perInstr (if c.wino then c.cin else c.kh * c.kw * c.g) pos (chan % max 1 c.perInstr) red

/-- The direct, diagonal and toe paths over a map that has been read: sums by output position of a list and by channel
(R106, R117, R124, R128). A table at an address that is no multiple of 64 is read where it lies (R118; DESIGN CHOICE,
notes/assumptions/203.md). -/
def Map.convOn (m : Map) (ini : Nat) (d b p : TD) (c : Conv) (trans : Bool) (win : Int) (tile : SkewTile)
    (pos : List (Nat × Nat)) : Grid :=
  let k := c.kh * c.kw * c.g
  let lb := m.s.loadRows ini b
  let sb := lb.s.loadScales ini b (c.cout * ceilDiv k 32)
  let eb := scaledLines b k (if trans then lb.v else transLines c.cout lb.v) sb.v
  let need := c.taps.filter fun (ky, kx) => pos.any fun (y, x) => c.skipped y x ky kx
  let tl := sb.s.loadAll ini (32 * c.cout) (need.map fun (ky, kx) => p.addr + 32 * ((ky * c.kw + kx) * c.cout))
  let recs := need.zip (tl.v.map fun o => o.map fun bs => (blocksOf 32 c.cout bs).map (tapRecord win))
  let misW := recs.any fun (_, o) => (o.getD []).any (·.2)
  let acc := orFault (orFault m.fault lb.fault) (orFault sb.fault tl.fault)
  let skew := match m.skew with
    | some (y, x, ch, e, r) => let (p, j, i) := c.firstUse y x ch; some (tile p j i, e, r)
    | none => (streamSkew b (ceilDiv k 32) sb.v).map fun (j, i, e, r) => (tile 0 j i, e, r)
  let per := c.cout / c.groups
  let weights := eb.map fun l => l.map fun x => x.map (·.1)
  let rows := pos.map fun (y, x) =>
    let parts := (List.range c.groups).map fun gi => c.taps.map fun (ky, kx) =>
      if c.skipped y x ky kx then (true, some []) else (false, m.tapElems d c gi y x ky kx)
    if parts.any (fun l => l.any fun t => t.2.isNone) || weights.any (·.isNone) || recs.any (fun r => r.2.isNone) then none
    else some (weights.zipIdx.map fun (wl, j) =>
      let ws := wl.getD []
      ((nth parts (j / per) []).zipIdx).foldl (fun (a : Sum) (t, ti) =>
        if t.1 then
          match recs.find? fun r => r.1.1 * c.kw + r.1.2 = ti with
          | some r => a.join (nth (r.2.getD []) j (Sum.zero, false)).1
          | none => a
        else a.join (dot win ((t.2.getD []).zip ((ws.drop (ti * c.g)).take c.g)))) Sum.zero)
  let evA := fun gi => (m.all.map fun q => events ((((q.v.getD []).drop (gi * c.g)).take c.g))).foldl (· + ·) 0
  ⟨tl.s, orFault acc (if skew.isSome then fSCALE_SKEW else if misW then fWINDOW_MISMATCH else 0), rows,
    eb.zipIdx.map fun (l, j) => evA (j / per) + events (l.getD []), if acc = 0 then skew else none⟩

/-- The same over a map in the Polder, for every output position. -/
def State.convGrid (s : State) (ini : Nat) (d b p : TD) (c : Conv) (trans : Bool) (win : Int) (tile : SkewTile) : Grid :=
  let ys := usedPos c.outH c.kh c.sy c.dy c.pt c.h
  let xs := usedPos c.outW c.kw c.sx c.dx c.pl c.w
  (s.loadMap ini d c ys xs).convOn ini d b p c trans win tile c.positions

/-- The Winograd path (R113–R116). A tile's counts go with its first output; a non-finite U reaches the outputs whose
coefficients are nonzero (DESIGN CHOICE, notes/assumptions/201.md). -/
def State.winoGrid (s : State) (ini : Nat) (d b : TD) (c : Conv) (trans : Bool) (win : Int) (tile : SkewTile) : Grid :=
  let ys := (List.range c.h).filter fun y => y < c.outH + 5
  let xs := (List.range c.w).filter fun x => x < c.outW + 5
  let m := s.loadMap ini d c ys xs
  let lb := m.s.loadRows ini b
  let nb := ceilDiv c.cin 32
  let sb := lb.s.loadScales ini b (36 * c.cout * nb)
  let urows := if trans then transLines 36 lb.v else lb.v
  let us := (List.range 36).map fun p => (List.range c.cout).map fun k =>
    match nth urows p none, sb.v with
    | some r, some e =>
      some (expandLine b.fmt b.z b.scaled ((List.range c.cin).map fun i => nth r (i * c.cout + k) 0) (lineEntries e nb (p * c.cout + k)))
    | _, _ => none
  let acc := orFault m.fault (orFault lb.fault sb.fault)
  let skew := (streamSkew b nb sb.v).map fun (l, i, e, r) => (tile 0 (l % c.cout) i, e, r)
  let bad := us.any fun l => l.any (·.isNone)
  let val := fun (code : Nat) => intCode d.fmt code - d.z
  let patch := fun (ti tj ch : Nat) => (List.range 6).map fun i => (List.range 6).map fun j =>
    let y := 4 * ti + i
    let x := 4 * tj + j
    if y < c.pt || x < c.pl || c.h ≤ y - c.pt || c.w ≤ x - c.pl then some (val c.pad)
    else match m.at (y - c.pt) (x - c.pl) with
      | some p => p.codes.map fun l => val (nth l ch 0)
      | none => none
  let tileSums := fun (ti tj : Nat) =>
    let ds := (List.range c.cin).map fun ch => patch ti tj ch
    if bad || ds.any fun q => q.any fun r => r.any (·.isNone) then none
    else
      let vs := ds.map fun q => winIn (q.map fun r => r.map fun v => v.getD 0)
      some ((List.range c.cout).map fun k =>
        (List.range 36).map fun p =>
          let u := (nth (nth us p []) k none).getD []
          (vs.zip u).foldl (fun (a : Sum) (v, e) => a.add (placeInt win (nth (nth v (p / 6) []) (p % 6) 0) e.1)) Sum.zero)
  let grid := (List.range (ceilDiv c.outH 4)).map fun ti => (List.range (ceilDiv c.outW 4)).map fun tj => tileSums ti tj
  let rows := c.positions.map fun (y, x) =>
    (nth (nth grid (y / 4) []) (x / 4) none).map fun ks => ks.map fun (ms : List Sum) =>
      let y4 := winOut ((List.range 6).map fun i => (List.range 6).map fun j => (nth ms (6 * i + j) Sum.zero).s)
      let a := y % 4
      let bb := x % 4
      let nf := (List.range 36).any fun p =>
        (nth ms p Sum.zero).nonFin && nth (nth winA a []) (p / 6) 0 != 0 && nth (nth winA bb []) (p % 6) 0 != 0
      let v := nth (nth y4 a []) bb 0
      if a = 0 && bb = 0 then { ms.foldl Sum.join Sum.zero with s := v, nonFin := nf } else { Sum.zero with s := v, nonFin := nf }
  ⟨sb.s, orFault acc (if skew.isSome then fSCALE_SKEW else 0), rows,
    (List.range c.cout).map fun k => (us.map fun l => events ((nth l k none).getD [])).foldl (· + ·) 0,
    if acc = 0 then skew else none⟩

/-! ### Conversion, statistics, the scale guard (R63, R70–R75) -/

/-- What the conversion of a grid came to: rows of codes (none: not written), counts by channel, a fault. -/
structure Conv1 where
  rows : List (Option (List Nat))
  stats : List Stat
  fault : Nat

/-- Convert and rescale a grid with a table of entries to a format; avg: the divisor of an average (R122). -/
def convertGrid (g : Grid) (entries : List (Option Rescale)) (f : Nat) (win : Int) (avg : Nat → Option Nat) : Conv1 :=
  let bad := entries.any fun e => match e with | some r => !r.ok f | none => false
  let step := fun (pos j : Nat) (a : Sum) =>
    match nth entries j none with
    | some r =>
      let v := a.value win
      let v := match avg pos with | some n => fdiv v (f32OfInt n) | none => v
      if r.ok f then some (r.run f v) else none
    | none => none
  let cells := g.rows.zipIdx.map fun (o, pos) => o.map fun l => l.zipIdx.map fun (a, j) => (a, step pos j a)
  let rows := cells.map fun o => match o with
    | none => none
    | some l => if l.any fun c => c.2.isNone then none else some (l.map fun c => match c.2 with | some (_, q) => q.code | none => 0)
  let n := g.range.length
  let stats := (List.range n).map fun j => cells.foldl (fun (t : Stat) o => match o with
    | none => t
    | some l => match nth l j (Sum.zero, none) with
      | (a, some (y3, q)) => (t.sum a).out a.nonFin y3 q
      | (a, none) => t.sum a) { Stat.zero with range := nth g.range j 0 }
  ⟨rows, stats, if bad then fRESCALE_INVALID else 0⟩

/-- Counts of a grid that is not converted: the sums' own counts. -/
def sumStats (g : Grid) : List Stat :=
  (List.range g.range.length).map fun j => g.rows.foldl (fun (t : Stat) o => match o with
    | none => t
    | some l => t.sum (nth l j Sum.zero)) { Stat.zero with range := nth g.range j 0 }

/-- The rescale entries of n channels. -/
def State.loadRescale (s : State) (ini : Nat) (d : TD) (n : Nat) : Load (List (Option Rescale)) :=
  let r := s.loadAll ini 16 ((List.range n).map fun j => d.addr + 16 * j)
  ⟨r.s, r.fault, r.v.map fun b => b.map rescaleOf⟩

/-- The statistics records of n channels, updated: the write, and the shares of each (R73). -/
def State.statWrite (s : State) (ini : Nat) (area : Option TD) (stats : List Stat) : Load (List (Nat × List Byte) × List (Nat × Nat)) :=
  match area with
  | none => ⟨s, 0, ([], [])⟩
  | some d =>
    let (s, c, bs) := s.polRead ini d.addr (32 * stats.length)
    if c != 0 then ⟨s, c, ([], [])⟩
    else
      let recs := (blocksOf 32 stats.length bs).zip stats |>.map fun (old, t) => t.update old
      ⟨s, 0, ([(d.addr, recs.flatten)], recs.map statShares)⟩

/-- The unit's own counters take an operation's counts (R75). -/
def State.numTotals (s : State) (u : Nat) (stats : List Stat) : State :=
  let sum := fun (f : Stat → Nat) => (stats.map f).foldl (· + ·) 0
  ((((s.count u 0x310 (sum (·.spills))).count u 0x314 (sum (·.unders))).count u 0x318 (sum (·.clips))).count u 0x31C
    (sum (·.range))).count u 0x320 (sum (·.nonFin))

/-- One scale-guard event for an operation whose records reach a threshold; it carries the cluster (R74, R254). -/
def State.scaleGuard (s : State) (u cl q seq : Nat) (shares : List (Nat × Nat)) : State :=
  let gs := s.fld u 0x304 15 0
  let gu := s.fld u 0x308 15 0
  let above := fun (p : Nat × Nat) => gs != 0 && gs ≤ p.1
  let under := fun (p : Nat × Nat) => gu != 0 && gu ≤ p.2
  let k := (shares.filter fun p => above p || under p).length
  if k = 0 then s
  else
    let d1 := min (shares.filter above).length 0xFFFF + min (shares.filter under).length 0xFFFF * 2 ^ 16
    let s := s.count u 0x30C k
    let own := s.queueClient q
    let s := match own with | some c => s.post c 0x0003 u q seq cl d1 | none => s
    match s.claimOn u with
    | some c => match s.clientOf c.ini with
      | some cl => if own = some cl then s else s.post cl 0x0003 u q seq cl d1
      | none => s
    | none => s

/-- Record a scale skew (R57, R75). -/
def State.skewRecord (s : State) (u : Nat) (skew : Option (Nat × Nat × Nat)) : State :=
  match skew with
  | none => s
  | some (t, e, r) =>
    (s.wr u 0x324 (w32 (2 ^ 31 + t % 256 * 2 ^ 16 + e * 2 ^ 8 + r))).count u 0x328 1

/-- A partial-sum record (R97). -/
def psumRecord (a : Sum) (win : Int) (src : Nat) : List Byte :=
  natBytes 10 (unsext 80 a.s) ++ natBytes 2 (unsext 10 win) ++ natBytes 4 src

/-- The sum and base that a record spells. -/
def psumOf (b : List Byte) : Int × Int := (sext 80 (bytesNat b), sext 10 (bytesNat b / 2 ^ 80))

/-! ### Pooling (R120–R122) -/

/-- Compare two codes of a format by expanded value; +0 above −0 (R121). -/
def codeLess (f : Nat) (z : Int) (a b : Nat) : Bool :=
  let x := codeFlt f z a
  let y := codeFlt f z b
  fltLt x y || (!fltLt y x && (match x, y with | .fin true _ _, .fin false _ _ => true | _, _ => false))

/-- The window positions inside the map, and how many positions the window has. -/
def Conv.window (c : Conv) (glob : Bool) (y x : Nat) : List (Option (Nat × Nat)) :=
  if glob then (List.range c.h).flatMap fun i => (List.range c.w).map fun j => some (i, j)
  else c.taps.map fun (ky, kx) =>
    match tapPos y ky c.sy c.dy c.pt c.h, tapPos x kx c.sx c.dx c.pl c.w with
    | some py, some px => some (py, px)
    | _, _ => none

/-- MAX or MIN of a window of one channel, as the code (R121). -/
def poolPick (f : Nat) (z : Int) (isMax : Bool) (pad : Nat) (l : List Nat) : Nat :=
  if l.any fun k => codeFlt f z k = .nan then fmtNaN f
  else match l with
    | [] => pad
    | h :: t => t.foldl (fun a k => if (if isMax then codeLess f z a k else codeLess f z k a) then k else a) h

end Sys2Proof.Machine
end

