-- ==== Sys2Proof/Machine/TileRun.lean ====
section
/-! DEFINITION. Tile, depth-wise and toe instructions, run whole on one member (R73–R75, R96, R106–R130, R182–R187). -/
namespace Sys2Proof.Machine

/-- Who runs an operation: its requester (R214), the unit with the numerics registers of R75, queue, sequence number, member
index, cluster index, window base; the other members that may take unstarted blocks of it (R272). -/
structure OpCtx where
  ini : Nat
  u : Nat
  q : Nat
  seq : Nat
  idx : Nat
  mem : Nat
  cl : Nat
  win : Int
  thieves : List Nat

/-- What an instruction came to on one member: its fault or 0, the old contents of the rows it wrote, the writes that a
ring holds back by output row, the sums it left in the accumulators. -/
structure Ran where
  s : State
  fault : Nat
  undo : List (Nat × List Byte)
  held : List (List (Nat × List Byte))
  acc : Option AccBank

/-- The tile that works in a slot: T8 where it stands in (R91, R75). -/
def OpCtx.tile (x : OpCtx) (s : State) (t : Nat) : Nat :=
  match iniCtx (reqIni x.ini) with
  | some k => if t < 8 then s.tileOf k x.cl t else t
  | none => t

/-- The scale guard of an operation; a toe engine has no cluster to carry, so what it carries there is free. -/
def OpCtx.guard (x : OpCtx) (s : State) (shares : List (Nat × Nat)) : State :=
  if unitClass x.u = some .te then
    let (w, s) := s.fresh
    s.scaleGuard x.u w.toNat x.q x.seq shares
  else s.scaleGuard x.u x.cl x.q x.seq shares

/-- The cluster that a 64-wide block of an operation runs on: with gang work stealing which one is open (R272). -/
def OpCtx.worker (x : OpCtx) (s : State) (block : Nat) : Nat :=
  nth x.thieves (Config.freeNat (s.free + block) % (x.thieves.length + 1)) x.cl

/-- The totals of an operation go to the units whose members worked on it: with gang work stealing how much of each goes to
which is open (R75, R272). -/
def OpCtx.totals (x : OpCtx) (s : State) (stats : List Stat) : State :=
  let (s, rest) := x.thieves.foldl (fun (a : State × List Stat) c =>
    let (took, s) := a.2.foldl (fun (b : List Stat × State) t =>
      let (n, s) := b.2.freshNat t.parts
      (b.1 ++ [t.part n], s)) ([], a.1)
    (s.numTotals (uTC c) took, (a.2.zip took).map fun (t, k) => t.less k)) (s, stats)
  s.numTotals x.u rest

/-- The end of an operation: outputs and records written, totals counted, the scale guard (R72–R75). The totals of an
operation that ends with a fault count all of it (DESIGN CHOICE, notes/assumptions/156.md). -/
def OpCtx.finish (x : OpCtx) (g : Grid) (fault : Nat) (stats : List Stat) (area : Option TD)
    (writes : List (Nat × List Byte)) : Ran :=
  let a := g.s.statWrite x.ini area stats
  let (s, f, undo) := State.commit x.ini ⟨a.s, orFault fault a.fault, writes ++ a.v.1⟩
  let s := (x.totals s stats).skewRecord x.u
    (if f = fSCALE_SKEW then g.skew.map fun (t, e, r) => (x.tile s t, e, r) else none)
  let s := if f = 0 then x.guard s a.v.2 else s
  ⟨s, f, undo, [], none⟩

/-- Convert a grid, and write it where place says; width: the outputs of one output row, when a ring holds rows back. -/
def OpCtx.convert (x : OpCtx) (g : Grid) (tdr : TD) (fmt : Nat) (area : Option TD) (avg : Nat → Option Nat)
    (place : Nat → List Nat → Nat × List Byte) (ring : Option Nat) : Ran :=
  let r := g.s.loadRescale x.ini tdr g.range.length
  let c := convertGrid g r.v fmt x.win avg
  let ws := c.rows.zipIdx.filterMap fun (o, i) => o.map (place i)
  let fault := orFault g.fault (orFault r.fault c.fault)
  match ring with
  | none => x.finish { g with s := r.s } fault c.stats area ws
  | some width =>
    let ran := x.finish { g with s := r.s } fault c.stats area []
    { ran with held := if fault = 0 then blocksOf width ws.length ws else [] }

/-- The sums of a grid, row by row. -/
def Grid.sums (g : Grid) : List Sum := g.rows.flatMap fun o => o.getD []

/-- Start a grid from sums left in the accumulators (R184). -/
def Grid.plus (g : Grid) (l : List (Int × Bool)) : Grid :=
  let n := g.range.length
  { g with rows := g.rows.zipIdx.map fun (o, i) => o.map fun r => r.zipIdx.map fun (a, j) =>
      let (z, nf) := nth l (i * n + j) (0, false)
      { a with s := a.s + z, nonFin := a.nonFin || nf } }

/-- Leave the sums in the accumulators: no output, and of the statistics only the products' counts and PEAK (R184). -/
def OpCtx.leave (x : OpCtx) (g : Grid) (area : Option TD) : Ran :=
  let ran := x.finish g g.fault ((sumStats g).map fun t => { t with range := 0 }) area []
  { ran with acc := some ⟨x.mem, g.sums.map fun a => (a.s, a.nonFin)⟩ }

/-- Write the sums as partial-sum records (R97). The record has no place for a non-finite element, which R65 makes of the
whole element: which records are of such elements is kept beside them (DESIGN CHOICE, notes/assumptions/157.md), and the
reducer counts it. -/
def OpCtx.psum (x : OpCtx) (g : Grid) (area : Option TD) (o : TD) (byRows : Bool) : Ran :=
  let n := g.range.length
  let ws := g.rows.zipIdx.filterMap fun (r, i) => r.map fun l =>
    (o.addr + 16 * n * i, l.zipIdx.flatMap fun (a, j) => psumRecord a x.win (x.worker g.s ((if byRows then i else j) / 64)))
  let g := { g with s := { g.s with free := g.s.free + (max n g.rows.length) / 64 + 1 } }
  let bad := g.rows.zipIdx.flatMap fun (r, i) => ((r.getD []).zipIdx.filter fun p => p.1.nonFin).map fun p => o.addr + 16 * (n * i + p.2)
  let ran := x.finish g g.fault (sumStats g) area ws
  if ran.fault = 0 then { ran with s := { ran.s with psumBad := bad ++ ran.s.psumBad } } else ran

/-- A descriptor that an instruction names, as the member uses it. -/
def OpCtx.td (x : OpCtx) (tds : List TD) (w : Dword) (lo : Nat) : TD := (tdOf tds (w4 w lo)).member x.mem
/-- The statistics area, when the instruction names one. -/
def OpCtx.area (x : OpCtx) (tds : List TD) (w : Dword) : Option TD := if bit w 31 then some (x.td tds w 32) else none

/-- Where the outputs of a matrix row go. -/
def rowPlace (o : TD) (i : Nat) (codes : List Nat) : Nat × List Byte := (o.addr + i * o.stride, packRow o.fmt codes)

/-- Where the outputs of a map's position go; ring: the slot of the first row and the ring's size (R187). -/
def mapPlace (o : TD) (c : Conv) (width chans : Nat) (ring : Option (Nat × Nat)) (i : Nat) (codes : List Nat) : Nat × List Byte :=
  let y := i / width
  let row := match ring with | some (bias, size) => (bias + y) % size | none => y
  (o.pixel chans row (i % width), packRow o.fmt codes)

/-- The outputs of a MATMUL or CONV (R182, R184). -/
def OpCtx.deliver (x : OpCtx) (tds : List TD) (w : Dword) (acc : List AccBank) (g : Grid)
    (place : Nat → List Nat → Nat × List Byte) (ring : Option Nat) : Ran :=
  let area := x.area tds w
  let g := if bit w 26 then g.plus ((acc.find? (·.member = x.mem)).map (·.sums) |>.getD []) else g
  if bit w 25 then x.leave g area
  else if bit w 24 then x.psum g area (x.td tds w 40) (bits w 15 14 = 1)
  else x.convert g (x.td tds w 36) (x.td tds w 40).fmt area (fun _ => none) place ring

/-- MATMUL (R183). -/
def OpCtx.matmul (x : OpCtx) (s : State) (tds : List TD) (w : Dword) (acc : List AccBank) : Ran :=
  x.deliver tds w acc (s.matmulGrid x.ini (x.td tds w 48) (x.td tds w 44) w x.win) (rowPlace (x.td tds w 40)) none

/-- The ring that RMSET asked for: the slot of row 0 modulo the ring, and its size. -/
def ringSlot (rm : List Nat) (bias : Nat) : Option (Nat × Nat) := if nth rm 0 0 = 1 then some (bias, nth rm 3 0) else none

/-- CONV (R106, R113–R118, R183). -/
def OpCtx.conv (x : OpCtx) (s : State) (tds : List TD) (cps rm : List Nat) (bias : Nat) (w : Dword) (acc : List AccBank) : Ran :=
  let c := convOf cps
  let a := x.td tds w 48
  let b := x.td tds w 44
  let tile := c.skewTile w
  let g := if c.wino then s.winoGrid x.ini a b c (bit w 27) x.win tile
    else s.convGrid x.ini a b ((tdOf tds c.tdp).member x.mem) c (bit w 27) x.win tile
  x.deliver tds w acc g (mapPlace (x.td tds w 40) c c.outW c.cout (ringSlot rm bias))
    ((ringSlot rm bias).map fun _ => c.outW)

/-- PSADD: the records of members added to the reducer's own sums, converted once (R96, R97, R184). A sum past 80
bits goes on without bound (DESIGN CHOICE, notes/assumptions/198.md). -/
def OpCtx.psadd (x : OpCtx) (s : State) (tds : List TD) (w : Dword) (acc : List AccBank) : Ran :=
  let p := tdOf tds (w4 w 48)
  let o := x.td tds w 44
  let own := ((acc.find? (·.member = x.mem)).map (·.sums)).getD []
  let n := o.cols
  let bytes := 16 * o.rows * n
  let r := s.loadAll x.ini bytes ((setIndices 6 (bits w 34 29)).map fun m => p.addr + m * p.stride)
  let recs := r.v.map fun b => b.map fun bs => (blocksOf 16 (o.rows * n) bs).map psumOf
  let mis := recs.any fun l => (l.getD []).any fun (_, wb) => wb != x.win
  let sums := (List.range (o.rows * n)).map fun k =>
    let (z, nf) := nth own k (0, false)
    let nf := nf || (setIndices 6 (bits w 34 29)).any fun m => s.psumBad.contains (p.addr + m * p.stride + 16 * k)
    { Sum.zero with s := recs.foldl (fun a l => a + (nth (l.getD []) k (0, 0)).1) z, nonFin := nf }
  let ok := recs.all (·.isSome)
  let rows := (List.range o.rows).map fun i => if ok then some ((sums.drop (i * n)).take n) else none
  let g : Grid := ⟨r.s, orFault r.fault (if mis then fWINDOW_MISMATCH else 0), rows, List.replicate n 0, none⟩
  x.convert g (x.td tds w 40) o.fmt (if bit w 35 then some (x.td tds w 36) else none) (fun _ => none) (rowPlace o) none

/-- The tile index that a skew met outside the tiles and the toe engine records: the spec names none, so it is free. -/
def State.noTile (s : State) : Nat := (Config.freeWord s.free).toNat % 256

/-- DWCONV, on either path (R123–R126). -/
def OpCtx.dwconv (x : OpCtx) (s : State) (tds : List TD) (cps rm : List Nat) (bias : Nat) (w : Dword) (tile : Nat) : Ran :=
  let c := convOf cps
  let g := s.convGrid x.ini (x.td tds w 48) (x.td tds w 44) ((tdOf tds c.tdp).member x.mem) c false x.win fun _ _ _ => tile
  x.convert g (x.td tds w 36) (x.td tds w 40).fmt (x.area tds w) (fun _ => none)
    (mapPlace (x.td tds w 40) c c.outW c.cout (ringSlot rm bias)) ((ringSlot rm bias).map fun _ => c.outW)

/-- The map that a feed has brought: each line's planes are the channels (R130). -/
def State.feedMap (s : State) (e : Nat) (c : Conv) : Map :=
  let f := s.feedX e
  ⟨s, (List.range c.h).map fun y => (List.range c.w).map fun x =>
    let codes := (nth f.lines y []).map fun p => nth p x 0
    some ⟨some (codes.map fun k => (expand f.fmt 0 k, false)), some codes, 0, none⟩⟩

/-- TCONV with a map from a parcel or from the feed (R128–R130). -/
def OpCtx.tconv (x : OpCtx) (s : State) (tds : List TD) (cps rm : List Nat) (bias : Nat) (w : Dword) : Ran :=
  let c := convOf cps
  let e := x.u - 0x88
  let g := if bit w 30 then
      (s.feedMap e c).convOn x.ini { TD.zero with fmt := (s.feedX e).fmt } (x.td tds w 44) TD.zero c false x.win (fun _ _ _ => 0xFF) c.positions
    else s.convGrid x.ini (x.td tds w 48) (x.td tds w 44) TD.zero c false x.win fun _ _ _ => 0xFF
  x.convert g (x.td tds w 36) (x.td tds w 40).fmt (x.area tds w) (fun _ => none)
    (mapPlace (x.td tds w 40) c c.outW c.cout (ringSlot rm bias)) ((ringSlot rm bias).map fun _ => c.outW)

/-! ### Pooling (R120–R122) -/

/-- The product of an element with 1.0. -/
def unitProd (win : Int) (x : E19) : Placed := placeProd win x ⟨false, 127, 0⟩

/-- The sums of SUM and the averages: a padding position reads the pad code (R104), in AVG_EXCL too, whose n alone leaves
padding out (DEDUCED, notes/assumptions/22.md). -/
def Map.poolGrid (m : Map) (d : TD) (c : Conv) (glob : Bool) (win : Int) (pos : List (Nat × Nat)) : Grid :=
  let pad := expand d.fmt d.z c.pad
  let rows := pos.map fun (y, x) =>
    let ps := (c.window glob y x).map fun o => match o with
      | some (py, px) => (m.at py px).bind (·.v)
      | none => some (List.replicate c.cin (pad, false))
    if ps.any (·.isNone) then none
    else some ((List.range c.cin).map fun ch =>
      ps.foldl (fun (a : Sum) p => a.add (unitProd win (nth (p.getD []) ch (pad, false)).1)) Sum.zero)
  let ev := (List.range c.cin).map fun ch =>
    (m.all.filter fun q => (nth (q.v.getD []) ch (pad, false)).2).length
  ⟨m.s, orFault m.fault (if m.skew.isSome then fSCALE_SKEW else 0), rows, ev,
    if m.fault = 0 then m.skew.map fun (_, _, _, e, r) => (m.s.noTile, e, r) else none⟩

/-- POOL. MAX and MIN write the map’s codes whatever the format of TDO (R121; DESIGN CHOICE, notes/assumptions/204.md). -/
def OpCtx.pool (x : OpCtx) (s : State) (tds : List TD) (cps : List Nat) (w : Dword) : Ran :=
  let c := convOf cps
  let d := x.td tds w 48
  let o := x.td tds w 40
  let op := poolOp w
  let glob := poolGlobal w
  let pos := if glob then [(0, 0)] else c.positions
  let width := if glob then 1 else c.outW
  let ys := if glob then List.range c.h else usedPos c.outH c.kh c.sy c.dy c.pt c.h
  let xs := if glob then List.range c.w else usedPos c.outW c.kw c.sx c.dx c.pl c.w
  let m := s.loadMap x.ini d c ys xs
  if op ≤ 1 then
    let rows := pos.map fun (py, px) =>
      let ps := (c.window glob py px).filterMap fun (o : Option (Nat × Nat)) => o.map fun (a, b) => (m.at a b).bind (·.codes)
      if ps.any (·.isNone) then none
      else some ((List.range c.cin).map fun ch => poolPick d.fmt d.z (op = 0) c.pad (ps.map fun (p : Option (List Nat)) => nth (p.getD []) ch 0))
    let ws := rows.zipIdx.filterMap fun (r, i) => r.map (mapPlace { o with fmt := d.fmt } c width c.cin none i)
    let skew := if m.fault = 0 then m.skew.map fun (_, _, _, e, r) => (m.s.noTile, e, r) else none
    let g : Grid := ⟨m.s, orFault m.fault (if m.skew.isSome then fSCALE_SKEW else 0), [], List.replicate c.cin 0, skew⟩
    x.finish g g.fault (List.replicate c.cin Stat.zero) (x.area tds w) ws
  else
    let g := m.poolGrid d c glob x.win pos
    let avg := fun (i : Nat) =>
      let (py, px) := nth pos i (0, 0)
      match op with
      | 3 => some (c.kh * c.kw)
      | 4 => some ((c.window glob py px).filter (·.isSome)).length
      | 6 => some (c.h * c.w)
      | _ => none
    x.convert g (x.td tds w 36) o.fmt (x.area tds w) avg (mapPlace o c width c.cin none) none

end Sys2Proof.Machine
end

