-- ==== Sys2Proof/Machine/VecCalls.lean ====
section
/-! DEFINITION. Vector engine registers and service calls (R140–R142, R145, R161, R162). -/
namespace Sys2Proof.Machine

/-- A write to VE_CFG: ARRIVAL_EN = 1 is rejected while same-bits mode is on (R145). -/
def State.veCfgWrite (s : State) (ini v value : Nat) : State :=
  s.guarded ini (uVE v) 0x104 (w32 value) false fun s =>
    if value % 2 = 1 && s.sbCluster v then s.accError ini (regAddr (uVE v) 0x104) .check
    else s.wr (uVE v) 0x104 (w32 value)

def execVeCfgWrite (ini v value : Nat) (s : State) : Out := .next (s.veCfgWrite ini v value)

/-- The tables of a table set: T, R, L, the constants in R140's order. -/
def tableOf : Nat → List Word
  | 0 => tabT
  | 1 => tabR
  | 2 => tabL
  | 3 => tabC
  | _ => []

/-- 0x0E08: values of the table set. -/
def callTableSet (args : List Word) (s : State) : State :=
  let t := tableOf (arg args 1)
  let i := arg args 2
  let n := arg args 3
  if arg args 0 != 1 || 3 < arg args 1 || 64 < n || t.length < i + n then s.ret RANGE
  else s.ret OK ((t.drop i).take n)

def execReadTableSet (_ : Nat) (args : List Word) (s : State) : Out := .next (callTableSet args s)

/-- The special functions by code (R141, R142, R189). -/
def specialFn (code : Nat) (x : Word) : Option Word :=
  match code with
  | 0 => some (fexp2 x)
  | 1 => some (fexp x)
  | 2 => some (flog2 x)
  | 3 => some (fln x)
  | 4 => some (frcp x)
  | 5 => some (fsqrt x)
  | 6 => some (frsqrt x)
  | 7 => some (fsigmoid x)
  | 8 => some (ftanh x)
  | 9 => some (fsilu x)
  | 10 => some (fgelu x)
  | _ => none

/-- 0x0E09: evaluate a special function on up to 64 inputs. -/
def callSpecial (args : List Word) (s : State) : State :=
  let xs := args.drop 1
  if 64 < xs.length then s.ret RANGE
  else match specialFn (arg args 0) 0 with
    | none => s.ret RANGE
    | some _ => s.ret OK (xs.map fun x => (specialFn (arg args 0) x).getD 0)

def execEvaluateSpecialFunction (_ : Nat) (args : List Word) (s : State) : Out := .next (callSpecial args s)

/-- 0x0E0A: the counters of a vector engine. -/
def callVeCounters (args : List Word) (s : State) : State :=
  let u := arg args 0
  if !s.exists? u then s.ret NO_UNIT
  else if unitClass u != some .ve then s.ret RANGE
  else s.retRegs u ([0x100, 0x10C, 0x110] ++ (List.range 9).map fun i => 0x114 + 4 * i)

def execReadVectorEngineCounters (_ : Nat) (args : List Word) (s : State) : Out := .next (callVeCounters args s)

def SAME_BITS_ON : Nat := 0x0113

/-- 0x0E0B: set ARRIVAL_EN. -/
def callArrival (ini : Nat) (args : List Word) (s : State) : State :=
  let u := arg args 0
  let m := s.mayChange u
  if m != OK then s.ret m
  else if unitClass u != some .ve || 1 < arg args 1 then s.ret RANGE
  else if arg args 1 = 1 && s.sbCluster (u - 0x80) then s.ret SAME_BITS_ON
  else (s.wr u 0x104 (w32 (arg args 1))).ret OK

def execSetArrivalOrder (ini : Nat) (args : List Word) (s : State) : Out := .next (callArrival ini args s)

end Sys2Proof.Machine
end

