-- ==== Sys2Proof/Machine/VecOps.lean ====
section
/-! DEFINITION. Lane-array and merge-unit instructions, run whole on one member (R138–R158, R188–R190). -/
namespace Sys2Proof.Machine

/-! ### Operands and results -/

/-- The elements of one row: value, and whether its block scale saturated or rounded it; none when unreadable. -/
abbrev VLine := Option (List (Word × Bool))

/-- Read rows of a vector operand (R139). -/
def State.loadVec (s : State) (ini : Nat) (d : TD) (rows cols : Nat) : Load (List VLine) :=
  let nb := ceilDiv cols 32
  let r := s.loadAll ini (rowBytes d.fmt cols) ((List.range rows).map fun i => d.addr + i * d.stride)
  let e := r.s.loadScales ini d (rows * nb)
  let lines := r.v.zipIdx.map fun (b, i) =>
    match b, e.v with
    | some bs, some es =>
      let le := lineEntries es nb i
      some ((codesOf d.fmt cols bs).zipIdx.map fun (c, k) =>
        vecExpand d.fmt d.z (if d.scaled then some (nth le (k / 32) 0 % 256) else none) c)
    | _, _ => none
  ⟨e.s, orFault r.fault e.fault, lines⟩

/-- Read n FP32 words. -/
def State.loadWords (s : State) (ini a n : Nat) : Load (Option (List Word)) :=
  let (s, c, bs) := s.polRead ini a (4 * n)
  ⟨s, c, if c = 0 then some (bytesWords bs) else none⟩

/-- What an instruction gathers: writes, its statistics, its non-finite results under R138. -/
structure VAcc where
  writes : List (Nat × List Byte)
  stat : Stat
  nan : Nat

def VAcc.none : VAcc := ⟨[], Stat.zero, 0⟩

/-- Scale events of a row enter SCALE_RANGE. -/
def VAcc.ranged (a : VAcc) (l : List (Word × Bool)) : VAcc := { a with stat := { a.stat with range := a.stat.range + events2 l } }
where events2 (l : List (Word × Bool)) : Nat := (l.filter (·.2)).length

/-- The products of an exact sum enter the statistics (R146). -/
def VAcc.summed (a : VAcc) (x : Sum) : VAcc := { a with stat := a.stat.sum x }

/-- Write a row of results; bad: an element met a NaN operand or an invalid operation (R138). -/
def VAcc.row (a : VAcc) (f addr : Nat) (ws : List Word) (bad : List Bool) : VAcc :=
  let qs := ws.map (requant f)
  let nf := (qs.zip bad).foldl (fun n (q, b) => n + b2n (q.nonfin || b)) 0
  { writes := a.writes ++ [(addr, packRow f (qs.map (·.code)))]
    stat := { a.stat with clips := a.stat.clips + (qs.filter (·.clip)).length, nonFin := a.stat.nonFin + nf }
    nan := a.nan + (bad.filter id).length }

/-- Write one result of a row; bad: how many of its operands or operations count under R138. -/
def VAcc.one (a : VAcc) (f addr : Nat) (w : Word) (bad : Nat) : VAcc :=
  let q := requant f w
  { writes := a.writes ++ [(addr, packRow f [q.code])]
    stat := { a.stat with
      clips := a.stat.clips + b2n q.clip
      nonFin := a.stat.nonFin + (if bad = 0 then b2n q.nonfin else bad) }
    nan := a.nan + bad }

/-- Results of a row, with what R138 counts: a NaN among the operands, or a NaN result. -/
def flagged (ops : List (List Word)) (ws : List Word) : List Bool :=
  ws.zipIdx.map fun (w, j) => f32IsNaN w || ops.any fun l => f32IsNaN (nth l j 0)

/-! ### Element-wise operations (R143, R189) -/

def f32Bool (b : Bool) : Word := if b then f32One else 0

/-- ELEM by SUB, with the scalar. -/
def elemOp (sub : Nat) (sc x y p : Word) : Word :=
  match sub with
  | 0 => fadd x y
  | 1 => fsub x y
  | 2 => fmul x y
  | 3 => ffma x y p
  | 4 => fmin x y
  | 5 => fmax x y
  | 6 => fabs x
  | 7 => fneg x
  | 8 => f32Bool (flt x y)
  | 9 => f32Bool (fle x y)
  | 10 => f32Bool (feq x y)
  | 11 => if feq p 0 then x else y
  | 13 => fmul x sc
  | 14 => fadd x sc
  | _ => x

/-- Index of the first largest or smallest element; none when an element is NaN or there is none. -/
def argBest (isMax : Bool) (l : List Word) : Option Nat :=
  if l.any f32IsNaN then none
  else
    let r := l.zipIdx.foldl (fun (a : Option (Word × Nat)) (w, i) => match a with
      | none => some (w, i)
      | some (b, k) => if (if isMax then flt b w else flt w b) then some (w, i) else some (b, k)) none
    r.map (·.2)

/-- Fold max or min over elements. -/
def bestOf (isMax : Bool) : List Word → Word
  | [] => f32NaN
  | h :: t => t.foldl (if isMax then fmax else fmin) h

/-! ### Rows (R147, R148, R151) -/

/-- Layer normalisation. -/
def layerNorm (x γ β : List Word) (ε : Word) : List Word :=
  let n := f32OfInt x.length
  let μ := fdiv (fixedSum x) n
  let d := x.map fun v => fsub v μ
  let σ := fdiv (fixedSumBy (fun e s => ffma e e s) d) n
  let r := frsqrt (fadd σ ε)
  d.zipIdx.map fun (v, i) => ffma (fmul v r) (nth γ i 0) (nth β i 0)

/-- RMS normalisation. -/
def rmsNorm (x γ : List Word) (ε : Word) : List Word :=
  let v := fixedSumBy (fun e s => ffma e e s) x
  let r := frsqrt (fadd (fdiv v (f32OfInt x.length)) ε)
  x.zipIdx.map fun (a, i) => fmul (fmul a r) (nth γ i 0)

/-- Softmax with a mask (true: masked); the exact sum when win is given. -/
def softmaxRow (x : List Word) (mask : List Bool) (τ : Word) (win : Option Int) : List Word × Option Sum :=
  let live := (x.zip mask).filter fun p => !p.2
  if live.isEmpty then (x.map fun _ => 0, none)
  else
    let m := bestOf true (live.map (·.1))
    if f32IsNaN m then (x.map fun _ => f32NaN, none)
    else
      let e := (x.zip mask).map fun (v, k) => if k then 0 else fexp2 (fmul (fsub v m) τ)
      match win with
      | some w => let t := exactSum w e; (e.map fun v => fmul v (frcp (t.value w)), some t)
      | none => let r := frcp (fixedSum e); (e.map fun v => fmul v r, none)

/-! ### MX quantisation (R149) -/

/-- emax of an output format. -/
def mxEmax (f : Nat) : Int := nth [0, 0, 0, 8, 15, 4, 2, 2] f 0

/-- floor(log2) of a finite nonzero magnitude. -/
def magLog (w : Word) : Int := match f32 w with | .fin _ m e => e + Nat.log2 m | _ => 0

/-- One block: its scale code, its elements' results. -/
def mxBlock (f : Nat) (l : List Word) : Nat × List Requant × Bool :=
  if l.any f32NonFin then (255, l.map fun _ => requant f 0, true)
  else
    let a := l.foldl (fun a w => fmax a (fabs w)) 0
    let x : Nat := if feq a 0 then 127 else (max 0 (min 254 (magLog a - mxEmax f + 127))).toNat
    (x, l.map fun w => match f32 w with
      | .fin n m e => requant f (f32Round n m (e + 127 - x))
      | _ => requant f w, false)

/-! ### The instructions -/

/-- Who runs a vector instruction, what it captured. -/
structure VecCtx extends OpCtx where
  tds : List TD
  sregs : List Word
  w : Dword

def VecCtx.x (c : VecCtx) : TD := c.td c.tds c.w 48
def VecCtx.y (c : VecCtx) : TD := c.td c.tds c.w 44
def VecCtx.z (c : VecCtx) : TD := c.td c.tds c.w 40
def VecCtx.p (c : VecCtx) : TD := c.td c.tds c.w 36
def VecCtx.sa (c : VecCtx) (k : Nat) : Word := nth c.sregs ((vSA c.w + k) % 16) 0
def VecCtx.sb (c : VecCtx) : Word := nth c.sregs (vSB c.w) 0
/-- WV when EXACT asks for an exact sum. -/
def VecCtx.exact (c : VecCtx) : Option Int := if bit c.w 29 then some (vWV c.w) else none

/-- The vector unit's end of an instruction: outputs and the record written, VE_NONFIN counted (R138, R161). -/
def VecCtx.finish (c : VecCtx) (s : State) (fault : Nat) (a : VAcc) (area : Option TD) : Ran :=
  let t := s.statWrite c.ini area [a.stat]
  let (s, f, undo) := State.commit c.ini ⟨t.s, orFault fault t.fault, a.writes ++ t.v.1⟩
  ⟨s.count (uVE c.cl) 0x128 a.nan, f, undo, [], none⟩

/-- Values of a line. -/
def vals (l : List (Word × Bool)) : List Word := l.map (·.1)

/-- Where row i of a result goes. -/
def zAddr (d : TD) (i : Nat) : Nat := d.addr + i * d.stride

/-- Per row, with up to four operand lines. -/
def rowsFold (a : VAcc) (x y p z : List VLine) (f : VAcc → Nat → List Word → List Word → List Word → List Word → VAcc) : VAcc :=
  (List.range x.length).foldl (fun a i =>
    match nth x i none, nth y i (some []), nth p i (some []), nth z i (some []) with
    | some lx, some ly, some lp, some lz =>
      f ((((a.ranged lx).ranged ly).ranged lp).ranged lz) i (vals lx) (vals ly) (vals lp) (vals lz)
    | _, _, _, _ => a) a

/-- ELEM and SPECIAL. -/
def VecCtx.elem (c : VecCtx) (s : State) : Ran :=
  let n := c.x.cols
  let rows := c.x.rows
  let (uy, up) := vecUses c.w
  let lx := s.loadVec c.ini c.x rows n
  let ly := if uy then lx.s.loadVec c.ini c.y rows n else ⟨lx.s, 0, []⟩
  let lp := if up then ly.s.loadVec c.ini c.p rows n else ⟨ly.s, 0, []⟩
  let f := fun (x y p : Word) =>
    if wOp c.w = 0x31 then (specialFn (vSub c.w) x).getD 0 else elemOp (vSub c.w) (c.sa 0) x y p
  let scalar := if wOp c.w = 0x30 && 13 ≤ vSub c.w then [List.replicate n (c.sa 0)] else []
  let a := rowsFold .none lx.v ly.v lp.v [] fun a i x y p _ =>
    let out := x.zipIdx.map fun (v, j) => f v (nth y j 0) (nth p j 0)
    a.row c.z.fmt (zAddr c.z i) out (flagged ([x, y, p] ++ scalar) out)
  c.finish lp.s (orFault lx.fault (orFault ly.fault lp.fault)) a (c.area c.tds c.w)

/-- How many elements of a row R138 counts, with a result: an invalid operation counts once. -/
def reduceBad (x : List Word) (r : Word) : Nat :=
  let k := (x.filter f32IsNaN).length
  if k = 0 then b2n (f32IsNaN r) else k

/-- REDUCE. The index of a row with a NaN is free (notes/assumptions/23.md). -/
def VecCtx.reduce (c : VecCtx) (s : State) : Ran :=
  let lx := s.loadVec c.ini c.x c.x.rows c.x.cols
  let a := rowsFold .none lx.v [] [] [] fun a i x _ _ _ =>
    let put := fun (a : VAcc) (w : Word) => a.one c.z.fmt (zAddr c.z i) w (reduceBad x w)
    match vSub c.w with
    | 0 => match c.exact with
      | some w => let t := exactSum w x; put (a.summed t) (t.value w)
      | none => put a (fixedSum x)
    | 1 => put a (bestOf true x)
    | 2 => put a (bestOf false x)
    | k => match argBest (k = 3) x with
      | some j => a.one c.z.fmt (zAddr c.z i) (f32OfInt j) 0
      | none => a.one c.z.fmt (zAddr c.z i) (Config.freeWord (lx.s.free + i)) (x.filter f32IsNaN).length
  c.finish { lx.s with free := lx.s.free + c.x.rows } lx.fault a (c.area c.tds c.w)

/-- LNORM and RMSNORM. -/
def VecCtx.norm (c : VecCtx) (s : State) : Ran :=
  let n := c.x.cols
  let layer := wOp c.w = 0x33
  let lx := s.loadVec c.ini c.x c.x.rows n
  let g := lx.s.loadWords c.ini c.p.addr (if layer then 2 * n else n)
  let a := match g.v with
    | none => VAcc.none
    | some ps => rowsFold .none lx.v [] [] [] fun a i x _ _ _ =>
      let out := if layer then layerNorm x (ps.take n) (ps.drop n) (c.sa 0) else rmsNorm x ps (c.sa 0)
      a.row c.z.fmt (zAddr c.z i) out (flagged [x, ps.take n] out)
  c.finish g.s (orFault lx.fault g.fault) a (c.area c.tds c.w)

/-- SOFTMAX. -/
def VecCtx.softmax (c : VecCtx) (s : State) : Ran :=
  let n := c.x.cols
  let lx := s.loadVec c.ini c.x c.x.rows n
  let masked := bit c.w 15
  let lm : Load (List (Option (List Byte))) := if masked then
      lx.s.loadAll c.ini n ((List.range c.x.rows).map fun i => c.y.addr + i * c.y.stride)
    else ⟨lx.s, 0, List.replicate c.x.rows (some (List.replicate n 0))⟩
  let a := (List.range c.x.rows).foldl (fun (a : VAcc) i =>
    match nth lx.v i none, nth lm.v i none with
    | some x, some bs =>
      let mask := bs.map fun b => b != 0
      let (out, t) := softmaxRow (vals x) mask (c.sa 0) c.exact
      let a := match t with | some t => a.summed t | none => a
      (a.ranged x).row c.z.fmt (zAddr c.z i) out
        ((out.zip ((vals x).zip mask)).map fun (o, v, k) => f32IsNaN o || (!k && f32IsNaN v))
    | _, _ => a) .none
  c.finish lm.s (orFault lx.fault lm.fault) a (c.area c.tds c.w)

/-- MXQUANT. -/
def VecCtx.mxquant (c : VecCtx) (s : State) : Ran :=
  let n := c.x.cols
  let nb := ceilDiv n 32
  let tagged := bit c.w 15
  let f := c.z.fmt
  let lx := s.loadVec c.ini c.x c.x.rows n
  let a := rowsFold .none lx.v [] [] [] fun a i x _ _ _ =>
    let bs := (blocksOf 32 nb x).map (mxBlock f)
    let qs := bs.flatMap (·.2.1)
    let codes := bs.zipIdx.flatMap fun (b, k) =>
      if tagged then natBytes 2 (b.1 + (c.z.tag0 + i * nb + k) % 64 * 256) else natBytes 1 b.1
    let bad := (bs.filter (·.2.2)).length
    { writes := a.writes ++ [(zAddr c.z i, packRow f (qs.map (·.code))),
        (c.z.scaleAddr + i * nb * (if tagged then 2 else 1), codes)]
      stat := { a.stat with
        clips := a.stat.clips + (qs.filter (·.clip)).length
        nonFin := a.stat.nonFin + 32 * bad }
      nan := a.nan + (x.filter f32IsNaN).length }
  c.finish lx.s lx.fault a (c.area c.tds c.w)

/-- SGD with momentum (R150). -/
def VecCtx.sgd (c : VecCtx) (s : State) : Ran :=
  let n := c.x.cols
  let rows := c.x.rows
  let lg := s.loadVec c.ini c.x rows n
  let lv := lg.s.loadVec c.ini c.y rows n
  let lw := lv.s.loadVec c.ini c.z rows n
  let a := rowsFold .none lg.v lv.v [] lw.v fun a i g v _ w =>
    let v' := g.zipIdx.map fun (x, j) => ffma (c.sa 0) (nth v j 0) x
    let w' := v'.zipIdx.map fun (x, j) => ffma (fneg c.sb) x (nth w j 0)
    (a.row c.y.fmt (zAddr c.y i) v' (v'.map fun _ => false)).row c.z.fmt (zAddr c.z i) w' (flagged [g, v, w, v'] w')
  c.finish lw.s (orFault lg.fault (orFault lv.fault lw.fault)) a (c.area c.tds c.w)

/-- ADAM (R150). -/
def VecCtx.adam (c : VecCtx) (s : State) : Ran :=
  let n := c.x.cols
  let rows := c.x.rows
  let lg := s.loadVec c.ini c.x rows n
  let lm := lg.s.loadVec c.ini c.y rows n
  let lv := lm.s.loadVec c.ini c.p rows n
  let lw := lv.s.loadVec c.ini c.z rows n
  let a := rowsFold .none lg.v lm.v lv.v lw.v fun a i g m v w =>
    let m' := g.zipIdx.map fun (x, j) => ffma (c.sa 0) (nth m j 0) (fmul (c.sa 2) x)
    let v' := g.zipIdx.map fun (x, j) => ffma (c.sa 1) (nth v j 0) (fmul (c.sa 3) (fmul x x))
    let w' := g.zipIdx.map fun (_, j) =>
      ffma (fneg (c.sa 5)) (fmul (nth m' j 0) (frcp (fadd (fsqrt (nth v' j 0)) (c.sa 4)))) (nth w j 0)
    let no := m'.map fun _ => false
    ((a.row c.y.fmt (zAddr c.y i) m' no).row c.p.fmt (zAddr c.p i) v' no).row c.z.fmt (zAddr c.z i) w'
      (flagged [g, m, v, w, m', v'] w')
  c.finish lw.s (orFault (orFault lg.fault lm.fault) (orFault lv.fault lw.fault)) a (c.area c.tds c.w)

/-- m of a row with every key masked: any value but a NaN, which a merge would not leave out (R151, R152). -/
def maskedMax (w : Word) : Word := if f32IsNaN w then 0xFF800000 else w

/-- BLKSOFTMAX (R151 steps 2–4). m of a row with every key masked is free (notes/assumptions/23.md). -/
def VecCtx.blksoftmax (c : VecCtx) (s : State) : Ran :=
  let n := c.x.cols
  let rows := c.x.rows
  let step := fun (d : TD) (k : Nat) => if d.rowStride = 0 then k else d.rowStride
  let lx := s.loadVec c.ini c.x rows n
  let ll := lx.s.loadAll c.ini 4 ((List.range rows).map fun i => c.y.addr + i * step c.y 4)
  let first := (c.sa 0).toNat
  let win := vWV c.w
  let a := (List.range rows).foldl (fun (a : VAcc) i =>
    match nth lx.v i none, nth ll.v i none with
    | some x, some lb =>
      let lim := bytesNat lb
      let mask := (List.range n).map fun j => decide (lim < (first + j) % 2 ^ 32)
      let live := ((vals x).zip mask).filter fun p => !p.2
      let m := if live.isEmpty then maskedMax (Config.freeWord (ll.s.free + i)) else bestOf true (live.map (·.1))
      let p := ((vals x).zip mask).map fun (v, k) => if k then 0 else fexp2 (fsub v m)
      let q := p.map fun v => (requant c.z.fmt v).code
      let t := exactSum win (q.map fun k => f32Enc (codeFlt c.z.fmt 0 k))
      let a := ((a.ranged x).summed t).row c.z.fmt (zAddr c.z i) p
        ((p.zip ((vals x).zip mask)).map fun (o, v, k) => f32IsNaN o || (!k && f32IsNaN v))
      { a with writes := a.writes ++ [(c.p.addr + i * step c.p 8, natBytes 4 m.toNat ++ natBytes 4 (t.value win).toNat)] }
    | _, _ => a) .none
  c.finish { ll.s with free := ll.s.free + rows } (orFault lx.fault ll.fault) a (c.area c.tds c.w)

/-- How many of an order are not the lowest still to come. -/
def outOfOrder : List Nat → Nat
  | [] => 0
  | i :: t => b2n (t.any (· < i)) + outOfOrder t

/-- A line of elements as bytes, four for the value and one for its scale event, and back. -/
def lineBytes (l : List (Word × Bool)) : List Byte := l.flatMap fun (w, b) => natBytes 4 w.toNat ++ natBytes 1 (b2n b)
def bytesLine (n : Nat) (bs : List Byte) : List (Word × Bool) :=
  (blocksOf 5 n bs).map fun b => (w32 (bytesNat (b.take 4)), bytesNat (b.drop 4) = 1)

/-- XREDUCE takes a partial: its line joins what has been taken (R145, R189). -/
def VecCtx.reduceTake (c : VecCtx) (s : State) (k : Nat) (got : List Byte) : Load (List Byte) :=
  let n := c.x.cols
  let d := { c.x with addr := c.x.addr + k * c.x.stride, scaleAddr := c.x.scaleAddr + 2 * k * ceilDiv n 32 }
  let l := s.loadVec c.ini d 1 n
  ⟨l.s, l.fault, got ++ lineBytes ((nth l.v 0 none).getD [])⟩

/-- XREDUCE over its partials in the order in which they were taken (R145, R189). -/
def VecCtx.xreduce (c : VecCtx) (s : State) (taken : Nat) (got : List Byte) : Ran :=
  let n := c.x.cols
  let ls := (blocksOf (5 * n) taken got).map (bytesLine n)
  let col := fun (j : Nat) => ls.map fun l => (nth l j (0, false)).1
  let out := (List.range n).map fun j =>
    match w4 c.w 36 with
    | 0 => if bit c.w 29 then (exactSum (vWV c.w) (col j)).value (vWV c.w)
      else match col j with | [] => 0 | h :: t => t.foldl fadd h
    | 1 => bestOf true (col j)
    | _ => bestOf false (col j)
  c.finish s 0 (VAcc.none.row c.z.fmt c.z.addr out (flagged (ls.map vals) out)) none

/-! ### The merge unit (R152, R157, R158) -/

/-- A row state or a partial: m, l, o. -/
structure RowState where
  m : Word
  l : Word
  o : List Word

/-- Not finite (DEDUCED, notes/assumptions/24.md): l is an infinity or NaN, or, where l is not 0, m is NaN or an o is an
infinity or NaN. A partial with l = 0 is that of a row with every key masked and leaves the state unchanged (R151). -/
def RowState.nonFin (r : RowState) : Bool :=
  f32NonFin r.l || (!feq r.l 0 && (f32IsNaN r.m || r.o.any f32NonFin))

/-- The initial state. -/
def RowState.init (dh : Nat) : RowState := ⟨0xFF800000, 0, List.replicate dh 0⟩

/-- Merge a partial into a state (R152). A non-finite result has l = 0x7FC0_0000 (R157); its m and o are free. -/
def RowState.merge (fr : Nat → Word) (a b : RowState) : RowState :=
  if a.nonFin || b.nonFin then ⟨fr 0, f32NaN, a.o.zipIdx.map fun (_, j) => fr (j + 1)⟩
  else if feq b.l 0 then a
  else if feq a.l 0 then b
  else
    let mn := fmax a.m b.m
    let x := fexp2 (fsub a.m mn)
    let y := fexp2 (fsub b.m mn)
    ⟨mn, ffma a.l x (fmul b.l y), a.o.zipIdx.map fun (v, j) => ffma v x (fmul (nth b.o j 0) y)⟩

/-- The row state that a row block spells. -/
def rowStateOf (dh : Nat) (b : List Byte) : RowState :=
  let ws := bytesWords (b.take (8 + 4 * dh))
  ⟨nth ws 0 0, nth ws 1 0, (List.range dh).map fun j => nth ws (j + 2) 0⟩

/-- A row state as its bytes, padding left out. -/
def RowState.bytes (r : RowState) : List Byte := (r.m :: r.l :: r.o).flatMap fun w => natBytes 4 w.toNat

/-- Free words for the rows of an operation: each has dh + 1. -/
def State.freeRow (s : State) (dh row : Nat) (i : Nat) : Word := Config.freeWord (s.free + row * (dh + 1) + i)

/-- BLKMERGE (R152, R190): Z holds row blocks one after another. A row whose state is non-finite afterwards counts once in
VE_NONFIN (DEDUCED, notes/assumptions/158.md); a partial is no record, so VE_MERGES does not count it (R161). -/
def VecCtx.blkmerge (c : VecCtx) (s : State) : Ran :=
  let dh := c.x.cols
  let rows := c.x.rows
  let z := c.td c.tds c.w 44
  let lo := s.loadAll c.ini (4 * dh) ((List.range rows).map fun i => c.x.addr + i * (if c.x.rowStride = 0 then 4 * dh else c.x.rowStride))
  let lz := lo.s.loadAll c.ini (8 + 4 * dh) ((List.range rows).map fun i => z.addr + i * rowBlock dh)
  let lp := lz.s.loadAll c.ini 8 ((List.range rows).map fun i => c.p.addr + i * (if c.p.rowStride = 0 then 8 else c.p.rowStride))
  let ws := (List.range rows).filterMap fun i =>
    match nth lo.v i none, nth lz.v i none, nth lp.v i none with
    | some o, some st, some ml =>
      let ps := bytesWords ml
      let part : RowState := ⟨nth ps 0 0, nth ps 1 0, bytesWords o⟩
      some (z.addr + i * rowBlock dh, (rowStateOf dh st).merge (lp.s.freeRow dh i) part)
    | _, _, _ => none
  let s := { lp.s with free := lp.s.free + rows * (dh + 1) }
  let (s, f, undo) := State.commit c.ini ⟨s, orFault lo.fault (orFault lz.fault lp.fault), ws.map fun (a, r) => (a, r.bytes)⟩
  ⟨s.count (uVE c.cl) 0x128 (ws.filter (·.2.nonFin)).length, f, undo, [], none⟩

/-- The fields of MERGE. -/
def mgNpos (w : Dword) : Nat := bits w 38 36 + 1
def mgRows (w : Dword) : Nat := bits w 35 30 + 1
def mgDh (w : Dword) : Nat := 16 * (bits w 29 26 + 1)

/-- A record's header agrees with the instruction (R157, R158). -/
def headerOk (w : Dword) (qid : Word) (p : Nat) (h : List Word) : Bool :=
  nth h 0 0 = qid && bits (nth h 1 0) 15 0 = bits w 9 0 && bits (nth h 1 0) 31 16 = mgRows w &&
    bits (nth h 2 0) 2 0 = p && bits (nth h 2 0) 11 8 = mgNpos w && bits (nth h 2 0) 31 16 = mgDh w

/-- The row states of a MERGE as bytes, one after the other; before the first record the initial state (R152). -/
def mergeStates (w : Dword) (got : List Byte) : List RowState :=
  let dh := mgDh w
  if got.isEmpty then List.replicate (mgRows w) (RowState.init dh)
  else (blocksOf (8 + 4 * dh) (mgRows w) got).map (rowStateOf dh)

/-- MERGE takes the record of a position: its header agrees with the instruction, an EMPTY one changes nothing, else each row
merges (R158). -/
def VecCtx.mergeTake (c : VecCtx) (s : State) (p : Nat) (got : List Byte) : Load (List Byte) :=
  let w := c.w
  let dh := mgDh w
  let rows := mgRows w
  let slot := c.x.addr + p * c.x.stride
  let was := mergeStates w got
  let keep := was.flatMap RowState.bytes
  let (s, f, hb) := s.polRead c.ini slot 32
  let h := bytesWords hb
  if f != 0 then ⟨s, f, keep⟩
  else if !headerOk w (nth c.sregs (w4 w 40) 0) p h then ⟨s, fMERGE_MISMATCH, keep⟩
  else if bit (nth h 3 0) 0 then ⟨s.count (uVE c.cl) 0x118 1, 0, keep⟩
  else
    let l := s.loadAll c.ini (8 + 4 * dh) ((List.range rows).map fun i => slot + 32 + i * rowBlock dh)
    if l.fault != 0 then ⟨l.s, l.fault, keep⟩
    else
      let now := was.zipIdx.map fun (a, i) => a.merge (l.s.freeRow dh i) (rowStateOf dh ((nth l.v i none).getD []))
      let s : State := { l.s with free := l.s.free + rows * (dh + 1) }
      ⟨(s.count (uVE c.cl) 0x118 1).count (uVE c.cl) 0x128 (now.filter (·.nonFin)).length, 0, now.flatMap RowState.bytes⟩

/-- MERGE writes its row states once every record has been merged. -/
def VecCtx.mergeWrite (c : VecCtx) (s : State) (got : List Byte) : Ran :=
  let dh := mgDh c.w
  let z := c.td c.tds c.w 44
  let (s, f, undo) := State.commit c.ini ⟨s, 0, (mergeStates c.w got).zipIdx.map fun (r, i) => (z.addr + i * rowBlock dh, r.bytes)⟩
  ⟨s, f, undo, [], none⟩

/-- A source of an XREDUCE or MERGE is taken: what has been taken so far on the member, and a fault or 0. -/
def VecCtx.takeSource (c : VecCtx) (s : State) (k : Nat) (got : List Byte) : Load (List Byte) :=
  if wOp c.w = 0x3A then c.reduceTake s k got else c.mergeTake s k got

/-- FINAL (R152). -/
def VecCtx.final (c : VecCtx) (s : State) : Ran :=
  let dh := c.x.cols
  let lx := s.loadAll c.ini (8 + 4 * dh) ((List.range c.x.rows).map fun i => c.x.addr + i * rowBlock dh)
  let a := lx.v.zipIdx.foldl (fun (a : VAcc) (b, i) =>
    match b with
    | none => a
    | some bs =>
      let r := rowStateOf dh bs
      let put := fun (out : List Word) (nf : Nat) =>
        let qs := out.map (requant c.z.fmt)
        { writes := a.writes ++ [(zAddr c.z i, packRow c.z.fmt (qs.map (·.code)))]
          stat := { a.stat with
            clips := a.stat.clips + (qs.filter (·.clip)).length
            nonFin := a.stat.nonFin + (if nf = 0 then (qs.filter (·.nonfin)).length else nf) }
          nan := a.nan + nf : VAcc }
      let out := r.o.map fun v => fmul v (frcp r.l)
      if r.nonFin then put (List.replicate dh f32NaN) 1
      else if feq r.l 0 then put (List.replicate dh 0) 0
      else a.row c.z.fmt (zAddr c.z i) out (flagged [r.o] out)) .none
  c.finish lx.s lx.fault a (c.area c.tds c.w)

end Sys2Proof.Machine
end

