-- ==== Sys2Proof/Machine/AxSend.lean ====
section
/-! DEFINITION. The sending side of Axfer: tags, transactions, credits of remote moves (R297, R306–R309). -/
namespace Sys2Proof.Machine

/-- The next tag of a stream. -/
def State.takeTag (s : State) (stream : Nat) : Nat × State :=
  let t := SMap.get (fun _ => 0) stream s.rtags
  (t, { s with rtags := SMap.set (fun _ => 0) stream ((t + 1) % 4096) s.rtags })

/-- Send a transaction that is acknowledged end to end (R309). -/
def State.transact (s : State) (kind pos stream : Nat) (ctx : Option Ctx) (unit idx : Nat) (fields : List Nat)
    (data : List Byte) : State :=
  let (t, s) := s.takeTag stream
  let s := s.sendSlot kind pos stream t fields data
  { s with rtx := s.rtx ++ [⟨kind, pos, stream, t, ctx, unit, idx, s.gauge.ticks⟩] }

/-- Request credits: each channel has at most two pieces requested, or granted and unused, at once (R308). -/
def State.requestCredits (s : State) (x : Ctx) (unit : Nat) : Nat → State
  | 0 => s
  | n + 1 =>
    let mine := s.rchunks.filter fun c => c.ctx = x && c.unit = unit && !c.dead
    let ok := fun (c : RemChunk) => c.stage = 0 && (mine.filter fun d => d.mem = c.mem && d.stage != 0).length < 2
    match mine.find? ok with
    | none => s
    | some c =>
      let (t, s) := s.takeTag (ctxIni x)
      let s : State := { s with rchunks := updFirst (· = c) (fun d => { d with stage := 1, tag := t }) s.rchunks }
      (s.sendSlot 4 c.pos (ctxIni x) t [c.addr, c.kib] []).requestCredits x unit n

/-- The request that a grant answers: of those of the stream to that position and of that size the one with its tag, else with its
address, else the oldest (DEDUCED, notes/assumptions/52.md). -/
def State.requestOf (s : State) (pos stream tag addr kib : Nat) : Option RemChunk :=
  let l := s.rchunks.filter fun c => c.stage = 1 && c.pos = pos && ctxIni c.ctx = stream && c.kib = kib
  (l.find? fun c => c.tag = tag && c.addr = addr).or ((l.find? (·.addr = addr)).or l.head?)

/-- A grant reaches the sender; one for a command that has ended returns at once (R308). -/
def State.granted (s : State) (pos stream tag addr kib : Nat) : State :=
  match s.requestOf pos stream tag addr kib with
  | none => s
  | some c =>
    if c.dead then
      ({ s with rchunks := s.rchunks.erase c }).transact 6 pos stream none c.unit c.idx [c.addr, kib] []
    else { s with rchunks := updFirst (· = c) (fun d => { d with stage := 2, left := kib }) s.rchunks }.grantSync

/-- Spend k granted credits of a member's instruction; none when they are not there yet. -/
def State.spend (s : State) (x : Ctx) (unit idx mem k : Nat) : Option State :=
  match s.rchunks.find? fun c => c.ctx = x && c.unit = unit && c.idx = idx && c.mem = mem && !c.dead with
  | some c =>
    if c.stage = 2 && k ≤ c.left then
      let l := if c.left = k then s.rchunks.erase c else updFirst (· = c) (fun d => { d with left := c.left - k }) s.rchunks
      some (({ s with rchunks := l }).grantSync.requestCredits x unit 2)
    else none
  | none => none

/-- Return every unused credit of a context's command; what is only requested returns when it is granted (R308). -/
def State.returnUnused (s : State) (x : Ctx) : State :=
  let held := s.rchunks.filter fun c => c.ctx = x && c.stage = 2 && !c.dead
  let s := held.foldl (fun s c => s.transact 6 c.pos (ctxIni x) none c.unit c.idx [c.addr, c.left] []) s
  let rest := s.rchunks.filter fun (c : RemChunk) => !(c.ctx = x && c.stage != 1 && !c.dead)
  let s : State := { s with rchunks := rest.map fun (c : RemChunk) => if c.ctx = x then { c with dead := true } else c }
  s.grantSync

/-- Group remote writes of one member (address, length) into requests of at most 64 credits to one position. -/
def chunkWrites (x : Ctx) (unit idx mem : Nat) : List (Nat × Nat) → List RemChunk
  | [] => []
  | (a, n) :: t =>
    let pos := (a - 0x20000000000) / 0x10000000000
    let k := ceilDiv n 1024
    match chunkWrites x unit idx mem t with
    | [] => [⟨x, unit, idx, mem, pos, a % 2 ^ 28, k, 0, 0, false, 0⟩]
    | c :: r =>
      if c.pos = pos && c.kib + k ≤ 64 then { c with addr := a % 2 ^ 28, kib := c.kib + k } :: r
      else ⟨x, unit, idx, mem, pos, a % 2 ^ 28, k, 0, 0, false, 0⟩ :: c :: r

/-- A transaction of the context is in flight: of one instruction, or of any. -/
def State.inFlight (s : State) (x : Ctx) (idx : Option Nat) : Bool :=
  s.rtx.any fun t => t.ctx = some x && (match idx with | some i => t.idx = i | none => true)

end Sys2Proof.Machine
end

