-- ==== Sys2Proof/Machine/Culvert.lean ====
section
/-! DEFINITION. Culvert instructions (R154, R155, R191, R192, R222, R233, R266, R282–R284, R306–R308). -/
namespace Sys2Proof.Machine

/-! ### Culverts and their registers (R233, R242) -/

/-- The culvert that serves a member of a context. -/
def State.culvertOf (s : State) (x : Ctx) (cl : Nat) : Nat :=
  match x with
  | .general _ => uDC (2 * cl)
  | .realTime _ => uDC (2 * cl + 1)
  | .gang _ => uDC (2 * cl + b2n (s.reservs.any fun r => r.active && r.ctx = x))
  | .toe e => uDC (12 + e)
  | .mill _ => uDC 14

/-- The port of a context's unit on a cluster: a culvert, a tile path or a vector path, a toe engine (R214). -/
def State.unitPort (s : State) (x : Ctx) (cl unit : Nat) : Nat :=
  if unit < 4 then 14 + (s.culvertOf x cl - uDC 0)
  else match x with
    | .toe e => 12 + e
    | _ => if unit = 4 then cl else 6 + cl

/-- A member runs the next instruction under ONLY (R181). -/
def runsOn (only : Option Nat) (m : Nat) : Bool := match only with | none => true | some k => k / 2 ^ m % 2 = 1

/-- A culvert instruction has work on member m: it has not begun there, has pieces left, or is to complete. -/
def Issued.worksOn (i : Issued) (m : Nat) : Bool :=
  runsOn i.only m && (!i.begun || i.left.isEmpty || i.left.any (·.mem = m))

/-- The piece that a culvert instruction waits with is member m's. -/
def Issued.waitsOn (i : Issued) (m : Nat) : Bool := i.left.head?.any (·.mem = m)

/-- DC_STATUS of every culvert of a context follows its instructions on that member and its open lock passage (R242). -/
def State.dcSync (s : State) (x : Ctx) : State :=
  let iss : List Issued := match s.run x with
    | some r => r.issued.filter (·.unit < 4)
    | none => []
  (s.ctxMembers x).foldl (fun s (m, cl) =>
    let u := s.culvertOf x cl
    let mine := iss.filter (·.worksOn m)
    let chans := (List.range 4).foldl (fun a c => a + if mine.any (·.unit = c) then 2 ^ c else 0) 0
    let xl := mine.any fun i => i.wait = .xlate && i.waitsOn m
    let cr := mine.any fun i => i.waitsOn m && match i.wait with | .credits _ => true | .remote => true | _ => false
    let lock := s.locks.any fun l => l.isOpen && l.ctx = x && l.port = 14 + (u - uDC 0)
    s.wr u 0x100 (w32 (b2n (!mine.isEmpty) * 2 ^ 31 + b2n xl * 2 ^ 30 + b2n cr * 2 ^ 29 + b2n lock * 2 ^ 28 + chans))) s

/-! ### Pieces -/

/-- Cut a run of n bytes at steps of k. -/
def cutRun (k : Nat) (mk : Nat → Nat → Piece) (n : Nat) : List Piece :=
  (List.range (ceilDiv n k)).map fun j => mk (j * k) (min k (n - j * k))

/-- Bytes that a piece writes. -/
def Piece.out (p : Piece) : Nat := if p.mode = 2 then 2 * p.n else p.n

/-- A page table's entries (R155): page address, first token, count. -/
def pageOf (b : List Byte) : Nat × Nat × Nat :=
  let v := bytesNat b
  (v % 2 ^ 48, v / 2 ^ 64 % 2 ^ 32, v / 2 ^ 96 % 2 ^ 9)

/-- An entry with a reserved bit set, a COUNT outside 1–256 or an ADDR off its 4 KiB (R155; DEDUCED,
notes/assumptions/161.md). -/
def pageBad (b : List Byte) : Bool :=
  let v := bytesNat b
  let (a, _, n) := pageOf b
  a % 4096 != 0 || v / 2 ^ 48 % 2 ^ 16 != 0 || v / 2 ^ 105 != 0 || n = 0 || 256 < n

/-- Token ranges of consecutive entries neither overlap nor descend. -/
def pagesRise : List (Nat × Nat × Nat) → Bool
  | a :: b :: t => decide (a.2.1 + a.2.2 ≤ b.2.1) && pagesRise (b :: t)
  | _ => true

/-- Read the Polder in passes of k bytes, cut at the burst length (R192, R195). -/
def State.readPasses (s : State) (ini k a : Nat) : Nat → Nat → State × Nat × List Byte
  | 0, _ => (s, 0, [])
  | f + 1, n =>
    if n = 0 then (s, 0, [])
    else
      let m := min (max k 1) n
      let (s, c, bs) := s.polRead ini a m
      if c != 0 then (s, c, [])
      else
        let (s, c, t) := s.readPasses ini k (a + m) f (n - m)
        (s, c, bs ++ t)

/-- What is wrong with the pages that a table names, besides the entries: one in a remote window (R306), one that an open
passage bars (R197), one that meets the destination (R192). They are judged when the table is read (DEDUCED,
notes/assumptions/206.md). -/
def pagesFault (lock : Option LockRange) (mem : Nat) (pages dst : List (Nat × Nat)) : Nat :=
  if pages.any fun a => isRemote a.1 then fREMOTE_READ
  else if lock.any fun l => l.onMember mem && pages.any (l.bars mem) then fLOCK_INVALID
  else if anyMeet pages dst then fSHAPE_INVALID
  else 0

/-- The pieces of an instruction on one member, with the state after a page table has been read, and a fault. -/
def State.piecesOf (s : State) (ini : Nat) (w : Dword) (src dst : TD) (lock : Option LockRange) (mem burst : Nat) :
    State × Nat × List Piece :=
  let k := fun (a : Nat) => if isRemote a then 4096 else 64 * burst
  match wOp w with
  | 0x10 => (s, 0, cutRun (k dst.addr) (fun o n => ⟨mem, some (src.addr + o), dst.addr + o, n, 0, 0, none⟩) (bits w 31 0))
  | 0x11 =>
    (s, 0, (List.range (bits w 39 24 + 1)).flatMap fun i =>
      cutRun (k dst.addr) (fun o n => ⟨mem, some (src.addr + i * src.stride + o), dst.addr + i * dst.stride + o, n, 0, 0, none⟩)
        (bits w 23 0))
  | 0x12 => (s, 0, cutRun (k dst.addr) (fun o n => ⟨mem, none, dst.addr + o, n, 1, bits w 39 32, none⟩) (bits w 31 0))
  | 0x13 =>
    (s, 0, cutRun (k dst.addr / 2) (fun o n => ⟨mem, some (src.addr + o), dst.addr + 2 * o, n, 2, (bits w 37 32 + o) % 64, none⟩)
      (bits w 31 0))
  | _ =>
    let n := bits w 15 0
    let (s, f, bs) := s.readPasses ini (64 * burst) (src.addr + 16 * bits w 39 24) (16 * n) (16 * n)
    let es := (blocksOf 16 n bs).map pageOf
    let g := pagesFault lock mem (es.map fun e => (e.1, dst.cols)) (culvDst w dst)
    if f != 0 then (s, f, [])
    else if (blocksOf 16 n bs).any pageBad || !pagesRise es then (s, fSHAPE_INVALID, [])
    else if g != 0 then (s, g, [])
    else (s, 0, es.zipIdx.flatMap fun (e, j) =>
      cutRun (k dst.addr) (fun o m => ⟨mem, some (e.1 + o), dst.addr + j * dst.stride + o, m, 0, 0, none⟩) dst.cols)

/-! ### One piece -/

/-- How a piece ended: moved, its source bytes and the bytes it wrote; it waits; it ends the command. -/
inductive Moved where
  | done (read wrote : List Byte)
  | wait (w : Waiting) (ready : Option (List Byte) := none)
  | stall (addr : Nat) (write : Bool)
  | fault (code : Nat)

/-- The fault of an access outside the Polder, or none for a stall. -/
def extFault : AccRes → Option Nat
  | .xlate _ => none
  | .linkDown => some fHOST_ABORT
  | .firewall => some fFIREWALL_DENIED
  | _ => some fPARCEL_DENIED

/-- Read bytes of a source: the Polder in passes of k bytes, the rest page by page. -/
def State.fetchPiece (s : State) (q client : Nat) (xl : Bool) (k a : Nat) : Nat → Nat → State × Moved
  | 0, _ => (s, .done [] [])
  | f + 1, n =>
    if n = 0 then (s, .done [] [])
    else if a < 0x10000000 then
      let (s, c, bs) := s.readPasses q k a n n
      (s, if c = 0 then .done bs [] else .fault c)
    else
      let m := min n (4096 - a % 4096)
      let (s, r, bs) := s.extRead (reqIni q) client xl a m
      if r = .ok then
        match s.fetchPiece q client xl k (a + m) f (n - m) with
        | (s, .done t _) => (s, .done (bs ++ t) [])
        | x => x
      else (s, match extFault r with | some c => .fault c | none => .stall a false)

/-- What a piece writes of the bytes it read. -/
def Piece.convert (p : Piece) (bs : List Byte) : List Byte :=
  match p.mode with
  | 1 => List.replicate p.n (BitVec.ofNat 8 p.val)
  | 2 => bs.zipIdx.flatMap fun (b, i) => [b, BitVec.ofNat 8 ((p.val + i) % 64)]
  | _ => bs

/-- Write bytes outside the Polder, page by page. -/
def State.storeExt (s : State) (ini client : Nat) (xl : Bool) (a : Nat) : Nat → List Byte → State × Moved
  | 0, _ => (s, .done [] [])
  | f + 1, l =>
    if l.isEmpty then (s, .done [] [])
    else
      let k := min l.length (4096 - a % 4096)
      let (s, r) := s.extWrite ini client xl a (l.take k)
      if r = .ok then s.storeExt ini client xl (a + k) f (l.drop k)
      else (s, match extFault r with | some c => .fault c | none => .stall a true)

/-- The address of SCHED.DOORBELL, which a culvert move may write (R249). -/
def doorbellAddr : Nat := regAddr uSched 0x20C

/-- A Polder read of a piece faulted, or waits at a sluice with nothing done. -/
def State.pieceFault (old s : State) (c : Nat) : State × Moved :=
  if c = fSLUICE_WAIT then (old, .wait .sluice) else (s, .fault c)

/-- Write what a piece has read into the Polder: the credits of every parcel of the burst that asks for them are taken, all
of them, before it asks for a pass, and held while it waits for one; paid: they have been (R222). -/
def State.pieceStore (s : State) (x : Ctx) (q a : Nat) (rd out : List Byte) (fold paid : Bool) : State × Moved :=
  let n := out.length
  let cs := s.creditsOf a n
  if !s.polderAllowed (ctxIni x) a n true then (s.polderDeny (ctxIni x) a true, .fault fPARCEL_DENIED)
  else match (if paid then none else s.shortOf cs) with
    | some p => (s, .wait (.credits p))
    | none =>
      let s := if paid then s else (s.takeAll cs).updRun x fun r => { r with credits := r.credits ++ cs }
      let (t, c) := s.polWrite q a out fold
      if c = 0 then
        let t := t.updRun x fun r => { r with credits := cs.foldl (fun l k => l.erase k) r.credits }
        (cs.foldl (fun t k => t.useCredits k.1 k.2) t, .done rd out)
      else if c = fSLUICE_WAIT then (s, .wait .sluice (some rd))
      else (t, .fault c)

/-- Move one piece of a command (R192, R222, R307): the source is read, credits are taken, the destination written. -/
def State.movePiece (s : State) (x : Ctx) (i : Issued) (client : Nat) (xl : Bool) (p : Piece) : State × Moved :=
  let ini := ctxIni x
  let cl := (((s.ctxMembers x).find? (·.1 = p.mem)).map (·.2)).getD 0
  let q := viaPort (s.unitPort x cl i.unit) ini
  let old := s
  let (s, rd) := match p.ready, p.src with
    | some bs, _ => (s, Moved.done bs [])
    | none, some a => s.fetchPiece q client xl (64 * nth i.burst p.mem 16) a 3 p.n
    | none, none => (s, .done [] [])
  match rd with
  | .fault c => State.pieceFault old s c
  | .done bs _ =>
    let out := p.convert bs
    if p.dst < 0x10000000 then
      s.pieceStore x q p.dst bs out (bits i.word 41 40 = 2) p.ready.isSome
    else if isRemote p.dst then
      let pos := (p.dst - 0x20000000000) / 0x10000000000
      if !s.windowOpen pos then (s.addrError ini p.dst, .fault fREMOTE_DENIED)
      else match s.spend x i.unit i.idx p.mem (ceilDiv out.length 1024) with
        | none => (s, .wait .remote)
        | some s => (s.transact 1 pos ini (some x) i.unit i.idx [p.dst % 2 ^ 28, out.length - 1] out, .done bs out)
    else if p.dst = doorbellAddr && out.length = 4 then
      if s.fwAllows ini doorbellAddr true then (s.doorbell (bytesNat out % 2 ^ 20), .done bs out)
      else ((s.fwRefuse ini doorbellAddr true).accError ini doorbellAddr .check, .fault fFIREWALL_DENIED)
    else
      match s.storeExt ini client xl p.dst 3 out with
      | (s, .done _ _) => (s, .done bs out)
      | y => y
  | y => (s, y)

/-! ### Weights digests (R283, R284) -/

/-- The landing parcels of a queue that hold a weights digest, or will by a fold or a load under way (R283, R284). -/
def State.wdHeld (s : State) (r : CtxRun) : List Nat :=
  let moving := (r.issued.filter fun j => j.unit < 4 && j.begun && bits j.word 41 40 = 2).flatMap fun j =>
    (s.runMembers r.ctx j.only).filterMap fun (m, _) => s.parcelAt ((tdOf j.tds (w4 j.word 44)).member m).addr
  ((s.validParcels.filter s.wdValid ++ moving ++ r.wfolds.map (·.parcel) ++ s.loads.map (·.parcel)).filter fun p =>
    s.pclKind p = 1 && s.pclQueue p = r.queue).eraseDups

/-- Where a move's destination starts on each member. -/
def Issued.targets (i : Issued) (mem : List (Nat × Nat)) : List (Nat × Nat) :=
  mem.map fun m => (m.1, ((tdOf i.tds (w4 i.word 44)).member m.1).addr)

/-- Each member folds into one landing parcel of the command's queue, and the queue's parcels with a digest stay at most
sixteen (R284): WD_TARGET, WEIGHTS_LIMIT or 0. -/
def State.wdFault (s : State) (r : CtxRun) (targets : List (Nat × Nat)) (ps : List Piece) : Nat :=
  let bad := targets.any fun (m, a) => match s.parcelAt a with
    | none => true
    | some p => s.pclKind p != 1 || s.pclQueue p != r.queue || ps.any fun b => b.mem = m &&
        (s.parcelAt b.dst != some p || s.parcelAt (b.dst + b.out - 1) != some p)
  let held := s.wdHeld r
  let new := ((targets.filterMap fun t => s.parcelAt t.2).filter fun p => !held.contains p).eraseDups
  if bad then fWD_TARGET
  else if !new.isEmpty && 16 < held.length + new.length then fWEIGHTS_LIMIT
  else 0

/-- WD of a parcel. -/
def State.wdDigest (s : State) (p : Nat) : List Byte :=
  (List.range 8).flatMap fun i => natBytes 4 (s.rd uDevctl (wdDigOff p + 4 * i)).toNat
def State.setWd (s : State) (p : Nat) (d : List Byte) : State :=
  (bytesWords d).zipIdx.foldl (fun s (w, i) => s.wr uDevctl (wdDigOff p + 4 * i) w) s

/-- Fold a write of n bytes at an offset of a parcel into its weights digest; span: bytes from the first to the last (R283). -/
def State.wdFold (s : State) (p offset n span : Nat) (digest : List Byte) : State :=
  let s := s.setWd p (sha3 (s.wdDigest p ++ natBytes 4 offset ++ natBytes 4 n ++ digest))
  let lo := s.pclBase p + offset / 0x10000
  let hi := s.pclBase p + (offset + max 1 span - 1) / 0x10000
  let was := s.wdValid p
  let o := wdStatOff p
  let l := if was then min lo (s.fld uDevctl o 11 0) else lo
  let h := if was then max hi (s.fld uDevctl o 23 12) else hi
  ((s.setFlag uDevctl o 31 true).setFld uDevctl o 11 0 l).setFld uDevctl o 23 12 h

/-- Apply the weights folds of a context that no earlier unfinished instruction precedes, in ascending index. -/
def State.flushFolds (s : State) (x : Ctx) (all : Bool) : State :=
  match s.run x with
  | none => s
  | some r =>
    let open_ := (r.issued.filter fun i => bits i.word 41 40 = 2 && i.unit < 4 && (!i.begun || !i.left.isEmpty)).map (·.idx)
    let ready := fun (f : Fold) => all || open_.all (f.idx < ·)
    let now := (r.wfolds.filter ready).mergeSort fun a b => a.idx ≤ b.idx
    let s := now.foldl (fun s f => s.wdFold f.parcel f.offset f.n f.span f.digest) s
    s.updRun x fun r => { r with wfolds := r.wfolds.filter fun f => !ready f }

/-! ### The instruction -/

/-- The client and XLATE of a context's queue. -/
def State.runQ (s : State) (r : CtxRun) : Nat × Bool :=
  match s.slot r.queue with
  | some x => (qClient x.words, qXlate x.words)
  | none => (0xFFFF, false)

/-- Replace an issued instruction of a context. -/
def State.setIssued (s : State) (x : Ctx) (i : Issued) : State :=
  s.updRun x fun r => { r with issued := updFirst (fun j => j.unit = i.unit && j.idx = i.idx) (fun _ => i) r.issued }

/-- Bytes kept for a digest: the source's under HASH 01, the written ones otherwise; a FILL's are the bytes written. -/
def hashBytes (w : Dword) (rd wr : List Byte) : List Byte :=
  match bits w 41 40 with
  | 1 => if wOp w = 0x12 then wr else rd
  | 2 => wr
  | _ => []

/-- XLATE_STALL to the client (R254, R266); how culvert, channel and write flag lie in DETAIL1 is open
(notes/assumptions/39.md). -/
def State.xlateEvent (s : State) (x : Ctx) (r : CtxRun) (cl chan a : Nat) (write : Bool) : State :=
  let where_ := (Config.stallWhere (s.culvertOf x cl - uDC 0) chan write).toNat
  s.post (s.runQ r).1 0x0005 (ctxUnit x) r.queue (eSeq r.entry) a (a / 2 ^ 32 % 2 ^ 16 + where_ * 2 ^ 16)

/-- Move pieces until one waits, stalls or faults: the fault, or 0. A piece that is done has been acknowledged: it stands
whatever ends the command (R260, R267, R595). -/
def State.moveOn (s : State) (x : Ctx) (r : CtxRun) (i : Issued) : List Piece → State × Issued × Nat
  | [] => (s, { i with left := [], wait := .none }, 0)
  | p :: t =>
    let (c, xl) := s.runQ r
    let (s, m) := s.movePiece x i c xl p
    let cl := (((s.ctxMembers x).find? (·.1 = p.mem)).map (·.2)).getD 0
    match m with
    | .done rd wr =>
      let s := s.countWide (s.culvertOf x cl) 0x108 wr.length
      let h := hashBytes i.word rd wr
      let got := if (i.got.any (·.1 = p.mem)) then i.got.map fun g => if g.1 = p.mem then (g.1, g.2 ++ h) else g
        else i.got ++ [(p.mem, h)]
      let wrote := if bits i.word 41 40 = 2 then i.wrote ++ [(p.dst, wr.length)] else i.wrote
      s.moveOn x r { i with got := got, wrote := wrote } t
    | .wait w ready => (s, { i with left := { p with ready := ready } :: t, wait := w }, 0)
    | .stall a wr => (s.xlateEvent x r cl i.unit a wr, { i with left := p :: t, wait := .xlate }, 0)
    | .fault c => (s, { i with left := p :: t, wait := .none }, c)

/-- Fold a finished move into the digests (R282, R283). -/
def State.moveFold (s : State) (x : Ctx) (i : Issued) : State :=
  match bits i.word 41 40 with
  | 1 => s.updRun x fun r => { r with input := r.input ++ i.got.map fun (m, b) => ⟨m, 0, 0, i.idx, b.length, b.length, sha3 b⟩ }
  | 2 =>
    let fs := i.got.filterMap fun (m, b) =>
      let d := (tdOf i.tds (w4 i.word 44)).member m
      let last := (culvDst i.word d).foldl (fun e (a, n) => max e (a + n)) d.addr
      (s.parcelAt d.addr).map fun p => (⟨m, p, d.addr - s.pclBase p * 0x10000, i.idx, b.length, last - d.addr, sha3 b⟩ : Fold)
    (s.updRun x fun r => { r with wfolds := r.wfolds ++ fs }).flushFolds x false
  | _ => s

/-- Go on with a begun move: the fault, or 0. -/
def State.moveStep (s : State) (x : Ctx) (r : CtxRun) (i : Issued) : State × Nat :=
  let (s, j, f) := s.moveOn x r i i.left
  let s := s.setIssued x j
  let s := if f = 0 && j.left.isEmpty then s.moveFold x j else s
  (s.dcSync x, f)

/-- The pieces of an instruction on every member that runs it. -/
def State.allPieces (s : State) (x : Ctx) (i : Issued) : List (Nat × Nat) → State × Nat × List Piece
  | [] => (s, 0, [])
  | (m, cl) :: t =>
    let (s, f, ps) := s.piecesOf (viaPort (s.unitPort x cl i.unit) (ctxIni x)) i.word ((tdOf i.tds (w4 i.word 48)).member m) ((tdOf i.tds (w4 i.word 44)).member m)
      i.lock m (nth i.burst m 16)
    if f != 0 then (s, f, [])
    else
      let (s, f, qs) := s.allPieces x i t
      (s, f, ps ++ qs)

/-- A culvert begins an instruction: the fault, or 0. It does not while a page table waits at a sluice. -/
def State.moveBegin (s : State) (x : Ctx) (r : CtxRun) (i : Issued) : State × Nat :=
  let old := s
  let (s, f, ps) := s.allPieces x i (s.runMembers x i.only)
  let mem := s.runMembers x i.only
  let f := if f != 0 then f else if bits i.word 41 40 = 2 then s.wdFault r (i.targets mem) ps else 0
  let got := if bits i.word 41 40 = 0 then [] else mem.map fun m => (m.1, [])
  if f = fSLUICE_WAIT then (old, 0)
  else if f != 0 then (s.setIssued x { i with begun := true }, f)
  else s.moveStep x r { i with begun := true, left := ps, got := got }

/-- Ask for the credits of a remote move at its issue (R308): its writes of at most 4,096 bytes, member by member. -/
def State.moveIssue (s : State) (x : Ctx) (i : Issued) : State :=
  let chunks := (s.runMembers x i.only).flatMap fun (m, _) =>
    let d := (tdOf i.tds (w4 i.word 44)).member m
    if isRemote d.addr then
      let ws := (culvDst i.word d).flatMap fun (a, n) =>
        let k := if wOp i.word = 0x13 then 4096 / 2 * 2 else 4096
        (List.range (ceilDiv n k)).map fun j => (a + j * k, min k (n - j * k))
      chunkWrites x i.unit i.idx m ws
    else []
  if chunks.isEmpty then s else ({ s with rchunks := s.rchunks ++ chunks }).requestCredits x i.unit 16

end Sys2Proof.Machine
end

