-- ==== Sys2Proof/Machine/Qbv.lean ====
section
/-! DEFINITION. The gate schedule of an Ethernet port, placed by Gauge time (R405, R416, R465). -/
namespace Sys2Proof.Machine

def QbvX.init : QbvX := ⟨[], 0, 0, 0, 0, false⟩

/-- The gate of a class is open in an entry. -/
def gateOpen (w : Word) (cls : Nat) : Bool := bit w (24 + cls)
/-- The length of an entry in ns. -/
def entryNs (w : Word) : Nat := 8 * bits w 23 0

/-- The entries that fit a cycle of n ns, each with its length: the last one lasts to the cycle's end
(DESIGN CHOICE, notes/assumptions/219.md). -/
def cutEntries : Nat → List Word → List (Word × Nat)
  | _, [] => []
  | n, [w] => [(w, n)]
  | n, w :: t => if n ≤ entryNs w then [(w, n)] else (w, entryNs w) :: cutEntries (n - entryNs w) t

/-- The entry that is in force r ns after a cycle's start, by its index from i, and the ns it has left. -/
def entryAt : List (Word × Nat) → Nat → Nat → Nat × Nat
  | [], i, _ => (i, 0)
  | (_, n) :: t, i, r => if r < n then (i, n - r) else entryAt t (i + 1) (r - n)

def QbvX.cut (x : QbvX) : List (Word × Nat) := cutEntries x.cycle x.oper

/-- The entry in force at a Gauge time, and the ns it has left: cycles are counted from the base time; until the boundary
that the list runs from, the entry that is held. -/
def QbvX.place (x : QbvX) (now : Nat) : Nat × Nat :=
  if now < x.since then (x.hold, x.since - now) else entryAt x.cut 0 ((now - x.base) % x.cycle)

/-- The gate of a class is open at a Gauge time. -/
def QbvX.isOpen (x : QbvX) (cls now : Nat) : Bool := gateOpen (nth x.oper (x.place now).1 0) cls

/-- How many ns the gate of a class stays open from the start of entry i, over at most n entries. -/
def openRun (l : List (Word × Nat)) (cls i : Nat) : Nat → Nat
  | 0 => 0
  | n + 1 =>
    let e := nth l (i % l.length) (0, 0)
    if gateOpen e.1 cls then e.2 + openRun l cls (i + 1) n else 0

/-- How many ns from a Gauge time the gate of a class stays open. -/
def QbvX.openNs (x : QbvX) (cls now : Nat) : Nat :=
  if x.isOpen cls now then
    let e := x.place now
    e.2 + openRun x.cut cls (if now < x.since then 0 else e.1 + 1) x.cut.length
  else 0

/-- The first cycle boundary after a Gauge time. -/
def QbvX.boundary (x : QbvX) (t : Nat) : Nat :=
  if t < x.base then x.base else x.base + ((t - x.base) / x.cycle + 1) * x.cycle

/-- A step moved time from old to new: the entry in force is held to the first boundary after the new time (R465) (DESIGN CHOICE, notes/assumptions/219.md). -/
def QbvX.stepped (x : QbvX) (old new : Nat) : QbvX := { x with hold := (x.place old).1, since := x.boundary new }

end Sys2Proof.Machine
end

