-- ==== Sys2Proof/Machine/Gauge.lean ====
section
/-! DEFINITION. The Gauge: time, slews, steps, sets, comparators and their claims, pulses, captures, the time protocol
(R461–R474, R480, R483, R484). -/
namespace Sys2Proof.Machine

def STEP_BLOCKED : Nat := 0x01A3
def COMP_TAKEN : Nat := 0x01A0
def PIN_TAKEN : Nat := 0x01A1
def COMP_IN_USE : Nat := 0x01A4

/-! ### Status and events -/

/-- Nanoseconds of a second. -/
def nsPerS : Nat := 1000000000
def State.gaugeClient (s : State) : Nat := s.fld uGauge 0x134 11 0
def State.gSync (s : State) : Nat := s.fld uGauge 0x100 31 30
def State.refLost (s : State) : Bool := s.flag uGauge 0x100 29

/-- GAUGE_SYNC: old and new SYNC, with REF_LOST (R483). -/
def State.postSync (s : State) (old : Nat) : State :=
  s.post s.gaugeClient 0x0030 uGauge noQueue 0 old (s.gSync + 256 * b2n s.refLost)

/-- SYNC takes a value; a change posts GAUGE_SYNC (R468). -/
def State.setSync (s : State) (v : Nat) : State :=
  let old := s.gSync
  if old = v then s else (s.setFld uGauge 0x100 31 30 v).postSync old

/-! ### Comparators (R470, R471) -/

def CmpX.init : CmpX := ⟨0, 0, false, false⟩
def State.cmpX (s : State) (n : Nat) : CmpX := SMap.get (fun _ => CmpX.init) n s.cmps
def State.setCmpX (s : State) (n : Nat) (c : CmpX) : State := { s with cmps := SMap.set (fun _ => CmpX.init) n c s.cmps }
def cmpOff (n : Nat) : Nat := 0x400 + 32 * n
def State.cmpEn (s : State) (n : Nat) : Bool := s.flag uGauge (cmpOff n) 31
/-- 0 free, 1 a pulse output, 2 a CAN controller, 3 a Mill line. -/
def State.cmpOwner (s : State) (n : Nat) : Nat := s.fld uGauge (cmpOff n) 30 29
def State.cmpIndex (s : State) (n : Nat) : Nat := s.fld uGauge (cmpOff n) 28 26
def State.cmpPeriod (s : State) (n : Nat) : Nat := (s.rd uGauge (cmpOff n + 16)).toNat

/-- The comparator that an owner holds. -/
def State.cmpOf (s : State) (kind idx : Nat) : Option Nat :=
  (List.range 16).find? fun n => s.cmpOwner n = kind && s.cmpIndex n = idx

/-- Pending timed objects of a CAN controller. -/
def State.canTimed (s : State) (c : Nat) : List Nat :=
  s.regs.filterMap fun e =>
    let off := e.1 % 0x10000
    if e.1 / 0x10000 = uCN c && 0x1000 ≤ off && off < 0x3000 && off % 16 = 4 && bit e.2 29 && bit e.2 27 then
      some ((off - 0x1000) / 16) else none

/-- The owner kinds and indices of R470. -/
def ownerOk (kind idx n : Nat) : Bool := n < 16 && ((kind = 1 && idx < 8) || (kind = 2 && idx < 4) || (kind = 3 && idx < 8))

/-- Claim a comparator for an owner: COMP_TAKEN or OK. -/
def State.cmpClaim (s : State) (kind idx n : Nat) : State × Nat :=
  if s.cmpOwner n != 0 || (s.cmpOf kind idx).isSome then (s, COMP_TAKEN)
  else
    let s := (s.setFld uGauge (cmpOff n) 30 29 kind).setFld uGauge (cmpOff n) 28 26 idx
    let s := s.setFlag uGauge 0x100 n true
    let s := if kind = 1 then s.setFld uGauge (0x300 + 8 * idx) 3 0 n
      else if kind = 2 then s.wr (uCN idx) 0x130 (w32 (2 ^ 31 + n)) else s
    (s, OK)

/-- The comparator's owner uses it (R470). -/
def State.cmpInUse (s : State) (n : Nat) : Bool :=
  let i := s.cmpIndex n
  match s.cmpOwner n with
  | 1 => s.flag uGauge (0x300 + 8 * i) 31
  | 2 => !(s.canTimed i).isEmpty
  | 3 => s.flag uMill (0x300 + 4 * i) 31
  | _ => false

/-- Release a comparator: COMP_IN_USE or OK. -/
def State.cmpRelease (s : State) (n : Nat) : State × Nat :=
  if s.cmpInUse n then (s, COMP_IN_USE)
  else
    let i := s.cmpIndex n
    let s := match s.cmpOwner n with
      | 1 => s.setFld uGauge (0x300 + 8 * i) 3 0 0
      | 2 => s.wr (uCN i) 0x130 0
      | _ => s
    let s := (s.setFld uGauge (cmpOff n) 30 29 0).setFld uGauge (cmpOff n) 28 26 0
    (s.setFlag uGauge 0x100 n false, OK)

def State.gaugeClaim (s : State) (ini kind idx n : Nat) (release : Bool) : State :=
  let v := kind % 4 * 2 ^ 30 + b2n release * 2 ^ 29 + idx % 8 * 2 ^ 26 + n % 16
  s.guarded ini uGauge 0x138 (w32 v) false fun s =>
    let a := regAddr uGauge 0x138
    if !ownerOk (kind % 4) (idx % 8) (n % 16) then s.accError ini a .range
    else
      let (s, r) := if release then s.cmpRelease (n % 16) else s.cmpClaim (kind % 4) (idx % 8) (n % 16)
      if r = OK then s else s.accError ini a .check

def execGaugeClaimClaim (ini kind idx n : Nat) (s : State) : Out := .next (s.gaugeClaim ini kind idx n false)
def execGaugeClaimRelease (ini kind idx n : Nat) (s : State) : Out := .next (s.gaugeClaim ini kind idx n true)

/-- Commit the three target words: one already past fires at the next tick, late (R471). -/
def State.cmpCommit (s : State) (n : Nat) : State :=
  let o := cmpOff n
  let t := ((s.rd uGauge (o + 8)).toNat + 2 ^ 32 * s.fld uGauge (o + 12) 15 0) * nsPerS + s.fld uGauge (o + 4) 29 0
  s.setCmpX n ⟨t, t, true, decide (t ≤ s.nowNs)⟩

def State.cmpTargetCommit (s : State) (ini n value : Nat) : State :=
  let o := cmpOff (n % 16) + 12
  s.guarded ini uGauge o (w32 value) false fun s =>
    if s.cmpOwner (n % 16) = 2 then s.accError ini (regAddr uGauge o) .readOnly
    else (s.wr uGauge o (w32 value)).cmpCommit (n % 16)

def execCmpTargetCommit (ini n value : Nat) (s : State) : Out := .next (s.cmpTargetCommit ini n value)

/-- A comparator whose target is in the past when it is enabled fires late. -/
def State.cmpEnable (s : State) (n : Nat) (en : Bool) : State :=
  let c := s.cmpX n
  let s := if en && !s.cmpEn n && c.armed && c.next < s.nowNs then s.setCmpX n { c with late := true } else s
  s.setFlag uGauge (cmpOff n) 31 en

/-- PERIOD is 0 or 100–4,000,000,000 ns. -/
def cmpPeriodOk (p : Nat) : Bool := p = 0 || (100 ≤ p && p ≤ 4000000000)

/-- A comparator's next firing is due. -/
def State.cmpDue (s : State) (n : Nat) : Bool := n < 16 && s.cmpEn n && (s.cmpX n).armed && (s.cmpX n).next ≤ s.nowNs

/-- The part of a firing that the Gauge makes: counts, the next target, the wake (R465, R471, R518). -/
def State.cmpFired (s : State) (n : Nat) : State :=
  let c := s.cmpX n
  let p := s.cmpPeriod n
  let s := s.count uGauge (cmpOff n + 20) 1
  let s := if c.late then s.count uGauge (cmpOff n + 24) 1 else s
  let next := if p = 0 then c.next
    else if c.late then c.base + ((s.nowNs + p - c.base) / p) * p else c.next + p
  let s := s.setCmpX n { c with next := next, armed := p != 0, late := false }
  if s.flag uGauge (cmpOff n) 25 then s.wake 8 uGauge else s

/-! ### Time (R461–R465) -/

def State.adjLeft (s : State) : Int := sext 32 (s.rd uGauge 0x11C).toNat

/-- A second number of 48 bits and nanoseconds with 28 fraction bits, from a total of 2^−28 ns. -/
def State.setTime (s : State) (total : Int) : State :=
  let second : Int := nsPerS * 2 ^ 28
  { s with gauge := { s.gauge with sec := ((total / second) % (2 ^ 48 : Int)).toNat, sub := (total % second).toNat } }

/-- Gauge time in units of 2^−28 ns. -/
def State.fine (s : State) : Int := s.gauge.sec * (nsPerS * 2 ^ 28) + s.gauge.sub

/-- A step or a set has moved time: comparators whose targets it passes fire late, Qbv lists run on from the next cycle
boundary, GAUGE_STEP is posted (R464, R465). -/
def State.afterStep (s : State) (old : Nat) (ns : Int) (force : Bool) : State :=
  let s := (List.range 16).foldl (fun s n =>
    let c := s.cmpX n
    if s.cmpEn n && c.armed && old < c.next && c.next ≤ s.nowNs then s.setCmpX n { c with late := true } else s) s
  let s : State := { s with qbv := s.qbv.map fun (p, q) => (p, q.stepped old s.nowNs) }
  (s.count uGauge 0x130 1).post s.gaugeClient 0x0031 uGauge noQueue 0 (unsext 32 ns) (b2n force)

/-- One tick of the 500 MHz clock: INCR, the slew, then a step or a set that waits (R461, R462, R464). -/
def State.gaugeTick (s : State) : State :=
  let left := s.adjLeft
  let old := s.nowNs
  let slew : Int := if left = 0 then 0 else if 0 < left then 0x80000 else -0x80000
  let s := s.setTime (s.fine + (s.rd uGauge 0x110).toNat + slew)
  let g := s.gauge
  let s : State := { s with gauge := { g with
    ticks := g.ticks + 1, slewTicks := if left = 0 then 0 else g.slewTicks + 1, step := none, set := none } }
  match g.set with
  | some (sec, ns, f) =>
    let new : Int := sec * nsPerS + ns
    (s.setTime (new * 2 ^ 28)).afterStep old (new - old) f
  | none => match g.step with
    | some (d, f) => (s.setTime (s.fine + d * 2 ^ 28)).afterStep old d f
    | none => s

/-- The slew has ended, or is replaced: calls that wait for it complete. -/
def State.slewDone (s : State) : State := (s.setFlag uGauge 0x100 28 false).finish 0x0901 0 OK

/-- Start a slew by signed ns; a new one replaces one in progress (R464). -/
def State.slewBy (s : State) (v : Word) : State :=
  let s := s.finish 0x0901 0 OK
  let s := (s.wr uGauge 0x11C v).setFlag uGauge 0x100 28 (v != 0)
  { s with gauge := { s.gauge with slewTicks := 0 } }

/-- Every 512 ticks of a slew ADJ_LEFT moves 1 ns toward 0. -/
def State.slewStep (s : State) : State :=
  let left := s.adjLeft
  if left = 0 || s.gauge.slewTicks < 512 then s
  else
    let l : Int := if 0 < left then left - 1 else left + 1
    let s := s.wr uGauge 0x11C (w32 (unsext 32 l))
    let s : State := { s with gauge := { s.gauge with slewTicks := s.gauge.slewTicks - 512 } }
    if l = 0 then s.slewDone else s

def execSlewStep (s : State) : Out := .next s.slewStep

def execIncrWrite (ini value : Nat) (s : State) : Out :=
  .next (s.guarded ini uGauge 0x110 (w32 value) false fun s => s.wr uGauge 0x110 (w32 value))

def State.adjCtl (s : State) (ini action : Nat) (force : Bool) (act : State → State) : State :=
  s.guarded ini uGauge 0x118 (w32 (action * 2 ^ 30 + b2n force * 2 ^ 29)) false act

def execAdjCtlSlew (ini : Nat) (force : Bool) (s : State) : Out :=
  .next (s.adjCtl ini 1 force fun s => s.slewBy (s.rd uGauge 0x114))
def execAdjCtlCancelSlew (ini : Nat) (s : State) : Out :=
  .next (s.adjCtl ini 3 false fun s => (s.wr uGauge 0x11C 0).slewDone)

/-- The Warden is in SERVICE or RECOVERY. -/
def State.wdActive (s : State) : Bool := s.fld uWarden 0x200 31 29 = 1 || s.fld uWarden 0x200 31 29 = 2

/-- A step or a set is refused (R465). -/
def State.stepBlocked (s : State) (force : Bool) : Bool :=
  let busy := (List.range 16).any s.cmpEn || (List.range 4).any (fun p => s.flag (uEP p) 0x200 31) ||
    (List.range 16).any (fun n => s.flag uWarden (0x900 + 16 * n) 31)
  busy && (!force || s.wdActive)

/-- Ask for a step of signed ns at the next tick: false when it is refused. -/
def State.stepBy (s : State) (d : Int) (force : Bool) : State × Bool :=
  if s.stepBlocked force then (s, false)
  else ({ s with gauge := { s.gauge with step := some (d, force) } }, true)
/-- Ask for a set at the next tick. -/
def State.setTo (s : State) (sec ns : Nat) (force : Bool) : State × Bool :=
  if s.stepBlocked force then (s, false)
  else ({ s with gauge := { s.gauge with set := some (sec % 2 ^ 48, ns, force) } }, true)

/-- A refused register write is recorded (R8). -/
def State.orRefuse (r : State × Bool) (ini a : Nat) : State := if r.2 then r.1 else r.1.accError ini a .check

def execAdjCtlStep (ini : Nat) (force : Bool) (s : State) : Out :=
  .next (s.adjCtl ini 2 force fun s =>
    State.orRefuse (s.stepBy (sext 32 (s.rd uGauge 0x114).toNat) force) ini (regAddr uGauge 0x118))

def execSetCtlGo (ini : Nat) (force : Bool) (s : State) : Out :=
  .next (s.guarded ini uGauge 0x12C (w32 (2 ^ 31 + b2n force * 2 ^ 30)) false fun s =>
    State.orRefuse (s.setTo ((s.rd uGauge 0x124).toNat + 2 ^ 32 * s.fld uGauge 0x128 15 0) (s.fld uGauge 0x120 29 0) force)
      ini (regAddr uGauge 0x12C))

/-- The reference is lost (R463). -/
def State.refLoss (s : State) : State :=
  if s.refLost then s
  else
    let s := s.setFlag uGauge 0x100 29 true
    (s.postSync s.gSync).recordFault fREFCLK uGauge 0x4A noQueue 0 0 0 0 oNone

def execRefclkLoss (s : State) : Out := .next s.refLoss
def execRefclkRestore (s : State) : Out := .next (s.setFlag uGauge 0x100 29 false)

/-! ### Pulses and captures (R473, R474) -/

/-- Drive a pulse output to its active or its idle level. -/
def State.pulseTo (s : State) (n : Nat) (active : Bool) : State :=
  let level := active == s.flag uGauge (0x300 + 8 * n) 30
  { s.emit .pulse n [b2n level] with
    pulses := if active then n :: s.pulses.filter (· != n) else s.pulses.filter (· != n) }

/-- A firing of a pulse output's comparator. -/
def State.pulseFire (s : State) (n : Nat) : State := if s.flag uGauge (0x300 + 8 * n) 31 then s.pulseTo n true else s

def execPulseEnd (n : Nat) (s : State) : Out := .next (if s.pulses.contains n then s.pulseTo n false else s)

def capOff (n : Nat) : Nat := 0x600 + 32 * n
def State.capFifo (s : State) (n : Nat) : List (Nat × Nat × Nat) := SMap.get (fun _ => []) n s.caps

/-- CAP_LEVEL and the oldest entry's nanoseconds follow the FIFO. -/
def State.setCap (s : State) (n : Nat) (l : List (Nat × Nat × Nat)) : State :=
  let s : State := { s with caps := SMap.set (fun _ => []) n l s.caps }
  let s := s.wr uGauge (capOff n + 16) (w32 l.length)
  s.wr uGauge (capOff n + 4) (match l with | (ns, _) :: _ => w32 (2 ^ 31 + ns) | [] => 0)

/-- Stamp an event of a source into the units that capture it: 0 a ball, 1 a frame start, 2 a period start, 3 an index. -/
def State.capture (s : State) (src item vc edge : Nat) : State :=
  (List.range 8).foldl (fun s n =>
    let o := capOff n
    let hit := s.flag uGauge o 31 && s.fld uGauge o 30 28 = src && s.fld uGauge o 12 8 = item &&
      (src != 1 || s.fld uGauge o 3 0 = vc) && (src != 0 || s.fld uGauge o 27 26 &&& edge != 0)
    if !hit then s
    else if 16 ≤ (s.capFifo n).length then s.count uGauge (o + 20) 1
    else s.setCap n (s.capFifo n ++ [(s.gaugeNs, s.gauge.sec, s.gauge.sub / 2 ^ 12 % 2 ^ 16)])) s

def execCaptureEdge (ball : Nat) (rising : Bool) (s : State) : Out := .next (s.capture 0 ball 0 (if rising then 1 else 2))

/-- Read CAP_NS: the oldest entry leaves, its seconds and fraction are latched. -/
def State.capRead (s : State) (n : Nat) : State × Word :=
  match s.capFifo n with
  | [] => (s, 0)
  | (ns, sec, fr) :: t =>
    let s := (s.wr uGauge (capOff n + 8) (w32 sec)).wr uGauge (capOff n + 12) (w32 (fr * 2 ^ 16 + sec / 2 ^ 32))
    (s.setCap n t, w32 (2 ^ 31 + ns))

def execCapNsRead (ini n : Nat) (s : State) : Out :=
  .next (if s.fwAllows ini (regAddr uGauge (capOff (n % 8) + 4)) false then
    let (s, w) := s.capRead (n % 8)
    { s with reply := ⟨false, natBytes 4 w.toNat⟩ }
  else { s.fwRefuse ini (regAddr uGauge (capOff (n % 8) + 4)) false with reply := ⟨true, []⟩ })

/-- An enabled capture unit other than n names a ball. -/
def State.ballCaptured (s : State) (ball n : Nat) : Bool :=
  (List.range 8).any fun k => k != n && s.flag uGauge (capOff k) 31 && s.fld uGauge (capOff k) 30 28 = 0 && s.fld uGauge (capOff k) 12 8 = ball

/-- Set a pulse output: PIN_TAKEN, RANGE or OK. -/
def State.pulseSet (s : State) (n : Nat) (en pol : Bool) : State × Nat :=
  let o := 0x300 + 8 * n
  let bad := match s.cmpOf 1 n with
    | some c => s.cmpPeriod c != 0 && s.cmpPeriod c ≤ s.fld uGauge (o + 4) 29 0
    | none => false
  if en && s.ballCaptured n 8 then (s, PIN_TAKEN)
  else if en && bad then (s, RANGE)
  else
    let s := (s.setFlag uGauge o 31 en).setFlag uGauge o 30 pol
    (if en && s.pulses.contains n then s else s.pulseTo n false, OK)

/-- Set a capture unit: PIN_TAKEN, RANGE or OK. -/
def State.captureSet (s : State) (n : Nat) (v : Word) : State × Nat :=
  let src := bits v 30 28
  let item := bits v 12 8
  let most := nth [7, 7, 7, 31] src 0
  if 3 < src || most < item then (s, RANGE)
  else if bit v 31 && src = 0 && (s.flag uGauge (0x300 + 8 * item) 31 || s.ballCaptured item n) then (s, PIN_TAKEN)
  else (s.wr uGauge (capOff n) v, OK)

/-! ### Register writes with checks of their own (R480) -/

/-- A write to a Gauge register that has no row of its own and more than the plain checks; none: it only stores. -/
def State.gaugeWrite (s : State) (ini off : Nat) (v : Word) : Option State :=
  let a := regAddr uGauge off
  let orBad := fun (r : State × Nat) => if r.2 = OK then r.1 else if r.2 = RANGE then r.1.accError ini a .range else r.1.accError ini a .check
  if 0x300 ≤ off && off < 0x340 && off % 8 = 0 then some (orBad (s.pulseSet ((off - 0x300) / 8) (bit v 31) (bit v 30)))
  else if 0x400 ≤ off && off < 0x600 then
    let n := (off - 0x400) / 32
    let can := s.cmpOwner n = 2
    match off % 32 with
    | 0 => some (if can && bit v 31 != s.cmpEn n then s.accError ini a .readOnly
        else (s.cmpEnable n (bit v 31)).setFlag uGauge off 25 (bit v 25))
    | 4 => if can then some (s.accError ini a .readOnly) else none
    | 8 => if can then some (s.accError ini a .readOnly) else none
    | 16 =>
      if can then some (s.accError ini a .readOnly)
      else if !cmpPeriodOk v.toNat then some (s.accError ini a .range) else none
    | _ => none
  else if 0x600 ≤ off && off < 0x700 && off % 32 = 0 then some (orBad (s.captureSet ((off - 0x600) / 32) v))
  else none

/-! ### Service calls (R484) -/

/-- 0x0900. -/
def callReadTime (s : State) : State :=
  s.ret OK [w32 s.gauge.sec, w32 (s.gauge.sec / 2 ^ 32), w32 s.gaugeNs, w32 (s.gauge.sub / 2 ^ 12 % 2 ^ 16), s.rd uGauge 0x100]
def execReadTime (_ : Nat) (_ : List Word) (s : State) : Out := .next (callReadTime s)

/-- 0x0901: 1 slew, 2 step, 3 set. -/
def callAdjustTime (ini : Nat) (args : List Word) (s : State) : State :=
  let fin := fun (r : State × Bool) => r.1.ret (if r.2 then OK else STEP_BLOCKED)
  if s.claimed uGauge then s.ret CLAIMED
  else match arg args 0 with
    | 1 =>
      let s := s.slewBy (nth args 1 0)
      if arg args 1 = 0 then s.slewDone.ret OK else s.retPending 0x0901 0
    | 2 => fin (s.stepBy (sext 32 (arg args 1)) (arg args 2 = 1))
    | 3 =>
      if nsPerS ≤ arg args 1 || 2 ^ 16 ≤ arg args 3 then s.ret RANGE
      else fin (s.setTo (arg args 2 + 2 ^ 32 * arg args 3) (arg args 1) (arg args 4 = 1))
    | _ => s.ret RANGE
def execAdjustTime (ini : Nat) (args : List Word) (s : State) : Out := .next (callAdjustTime ini args s)

/-- 0x0902. -/
def callSetIncrement (ini : Nat) (args : List Word) (s : State) : State :=
  if s.claimed uGauge then s.ret CLAIMED
  else if arg args 0 < 0x1FF00000 || 0x20100000 < arg args 0 then s.ret RANGE
  else (s.wr uGauge 0x110 (nth args 0 0)).ret OK
def execSetIncrement (ini : Nat) (args : List Word) (s : State) : Out := .next (callSetIncrement ini args s)

/-- 0x0903. -/
def callClaimComparator (ini : Nat) (args : List Word) (s : State) : State :=
  if s.claimed uGauge then s.ret CLAIMED
  else if !ownerOk (arg args 1) (arg args 2) (arg args 0) || 1 < arg args 3 then s.ret RANGE
  else
    let (s, r) := if arg args 3 = 1 then s.cmpRelease (arg args 0) else s.cmpClaim (arg args 1) (arg args 2) (arg args 0)
    s.ret r
def execClaimOrReleaseComparator (ini : Nat) (args : List Word) (s : State) : Out := .next (callClaimComparator ini args s)

/-- 0x0904. -/
def callConfigureComparator (ini : Nat) (args : List Word) (s : State) : State :=
  let n := arg args 0
  let o := cmpOff n
  if s.claimed uGauge then s.ret CLAIMED
  else if 16 ≤ n || nsPerS ≤ arg args 1 || 2 ^ 16 ≤ arg args 3 || !cmpPeriodOk (arg args 4) || 1 < arg args 5 || 1 < arg args 6 then
    s.ret RANGE
  else if s.cmpOwner n = 2 then s.ret DENIED
  else
    let s := ((s.wr uGauge (o + 4) (nth args 1 0)).wr uGauge (o + 8) (nth args 2 0)).wr uGauge (o + 12) (nth args 3 0)
    let s := (s.wr uGauge (o + 16) (nth args 4 0)).setFlag uGauge o 25 (arg args 5 = 1)
    ((s.cmpCommit n).cmpEnable n (arg args 6 = 1)).ret OK
def execConfigureComparator (ini : Nat) (args : List Word) (s : State) : Out := .next (callConfigureComparator ini args s)

/-- 0x0905: units 0–7 are the pulse outputs (EN, POLARITY, width), 8–15 the capture units (EN, SRC, EDGE, item, virtual
channel). -/
def callConfigurePulse (ini : Nat) (args : List Word) (s : State) : State :=
  let n := arg args 0
  if s.claimed uGauge then s.ret CLAIMED
  else if n < 8 then
    let w := arg args 3
    if 1 < arg args 1 || 1 < arg args 2 || w < 8 || nsPerS < w then s.ret RANGE
    else
      let (t, r) := (s.wr uGauge (0x304 + 8 * n) (w32 w)).pulseSet n (arg args 1 = 1) (arg args 2 = 1)
      if r = OK then t.ret OK else s.ret r
  else if n < 16 then
    if 1 < arg args 1 || 7 < arg args 2 || 3 < arg args 3 || 31 < arg args 4 || 15 < arg args 5 then s.ret RANGE
    else
      let v := arg args 1 * 2 ^ 31 + arg args 2 * 2 ^ 28 + arg args 3 * 2 ^ 26 + arg args 4 * 2 ^ 8 + arg args 5
      let (t, r) := s.captureSet (n - 8) (w32 v)
      t.ret r
  else s.ret RANGE
def execConfigurePulseOrCapture (ini : Nat) (args : List Word) (s : State) : Out := .next (callConfigurePulse ini args s)

/-! ### The time protocol (R467, R468) -/

/-- 0x0906: profile 0–2, transport 0–1, ports, roles, domain, log Sync interval, LOCK_NS, SLEW_LIMIT; no port disables
the stack. -/
def callConfigurePtp (ini : Nat) (args : List Word) (s : State) : State :=
  let log := sext 32 (arg args 5)
  if s.claimed uGauge then s.ret CLAIMED
  else if 2 < arg args 0 || 1 < arg args 1 || 15 < arg args 2 || 127 < arg args 4 || log < -7 || 4 < log then s.ret RANGE
  else
    let on := arg args 2 != 0
    let s : State := { s with ptp := ⟨on, args.take 8, 0, 0, 0, 0, 0⟩ }
    (s.setSync 0).ret OK
def execConfigureTimeProtocol (ini : Nat) (args : List Word) (s : State) : Out := .next (callConfigurePtp ini args s)

/-- The master is lost: HOLDOVER, which eight Syncs end (R468). -/
def State.ptpLost (s : State) : State :=
  if s.ptp.on && s.gSync != 0 then { s.setSync 2 with ptp := { s.ptp with good := 0, fresh := 0 } } else s

def execAnnounceTimeout (s : State) : Out := .next s.ptpLost

/-- The stack's best master is the one of this identity: from FREE it is acquired at once; a change of the best master
leads to HOLDOVER, and to ACQUIRING once 8 Syncs of the new one have been taken. -/
def State.ptpMaster (s : State) (id : Nat) : State :=
  let p := s.ptp
  if !p.on || p.master = id then s
  else if s.gSync = 0 then { s.setSync 3 with ptp := { p with master := id, good := 0, fresh := 8 } }
  else { s.setSync 2 with ptp := { p with master := id, good := 0, fresh := 0 } }

/-- The servo writes INCR within its bounds and starts a slew; its values are its own: free (R467). -/
def State.servo (s : State) : State :=
  let (a, s) := s.fresh
  let (b, s) := s.fresh
  (s.wr uGauge 0x110 (w32 (0x1FF00000 + a.toNat % 0x200001))).slewBy b

/-- The stack takes a Sync of its master with an offset and a path delay, 32-bit signed ns. -/
def State.ptpSync (s : State) (offset delay : Nat) : State :=
  let p := s.ptp
  if !p.on || p.master = 0 then s
  else
    let off := (sext 32 offset).natAbs
    let good := if off ≤ arg p.cfg 6 then p.good + 1 else 0
    let p := { p with offset := w32 offset, delay := w32 delay, good := good, fresh := min 8 (p.fresh + 1) }
    let was := s.ptp.fresh
    let s : State := { s with ptp := p }
    let s := if s.gSync = 2 && p.fresh = 8 then
        let s := if arg p.cfg 7 < off then s.post s.gaugeClient 0x0032 uGauge noQueue 0 offset (p.master % 2 ^ 32) else s
        { s.setSync 3 with ptp := { p with good := if was < 8 then 0 else good } }
      else if s.gSync = 3 && 16 ≤ good then s.setSync 1 else s
    if s.gSync = 2 then s else s.servo

/-- 0x0907: SYNC, master identity, offset, path delay; port states are the stack's: free. -/
def callReadPtp (s : State) : State :=
  let (w, s) := s.fresh
  s.ret OK [w32 s.gSync, w32 s.ptp.master, w32 (s.ptp.master / 2 ^ 32), s.ptp.offset, s.ptp.delay, w]
def execReadTimeProtocol (_ : Nat) (_ : List Word) (s : State) : Out := .next (callReadPtp s)

end Sys2Proof.Machine
end

