-- ==== Sys2Proof/Machine/Can.lean ====
section
/-! DEFINITION. The CAN FD controllers (R475–R479, R482–R484). -/
namespace Sys2Proof.Machine

def ID_TAKEN : Nat := 0x01A2
def NOT_BUS_OFF : Nat := 0x01A5

/-! ### Objects -/

def objOff (o : Nat) : Nat := 0x1000 + 16 * o
def dataOff (o : Nat) : Nat := 0x4000 + 64 * o
def State.objCtl (s : State) (c o : Nat) : Word := s.rd (uCN c) (objOff o + 4)
def State.objPending (s : State) (c o : Nat) : Bool := bit (s.objCtl c o) 29
def State.objData (s : State) (c o : Nat) : List Word := (List.range 16).map fun i => s.rd (uCN c) (dataOff o + 4 * i)

def CanX.init : CanX := ⟨[], none, false, []⟩
def State.canX (s : State) (c : Nat) : CanX := SMap.get (fun _ => CanX.init) c s.cans
def State.setCanX (s : State) (c : Nat) (x : CanX) : State := { s with cans := SMap.set (fun _ => CanX.init) c x s.cans }

/-- The enabled objects of a controller. -/
def State.objsOn (s : State) (c : Nat) : List Nat :=
  s.regs.filterMap fun e =>
    let off := e.1 % 0x10000
    if e.1 / 0x10000 = uCN c && 0x1000 ≤ off && off < 0x3000 && off % 16 = 0 && bit e.2 31 then
      some ((off - 0x1000) / 16) else none

/-- IDE and identifier of a header word: a base identifier has eleven bits. -/
def objKey (id : Word) : Nat := if bit id 29 then bits id 29 0 else bits id 10 0

/-- An enabled object other than o holds the IDE and identifier of a header word (R476). -/
def State.idTaken (s : State) (c o : Nat) (id : Word) : Bool :=
  bit id 31 && (s.objsOn c).any fun p => p != o && objKey (s.rd (uCN c) (objOff p)) = objKey id

/-- Rank in arbitration: the lower wins; a base identifier wins over an extended one that begins alike. -/
def arbRank (id : Word) : Nat :=
  if bit id 29 then bits id 28 18 * 2 ^ 19 + 2 ^ 18 + bits id 17 0 else bits id 10 0 * 2 ^ 19

/-! ### Status (R479, R482) -/

/-- 0 error-active, 1 error-passive, 2 bus-off, 3 recovering. -/
def State.canState (s : State) (c : Nat) : Nat := s.fld (uCN c) 0x10C 31 30
def State.canEn (s : State) (c : Nat) : Bool := s.flag (uCN c) 0x100 31
def State.canClient (s : State) (c : Nat) : Nat := s.fld (uCN c) 0x138 11 0

/-! ### Offering frames (R477) -/

/-- Offer the eligible pending object of the highest priority to the bus, with a snapshot of its data and DLC. -/
def State.canOffer (s : State) (c : Nat) : State :=
  let x := s.canX c
  if !s.canEn c || s.flag (uCN c) 0x100 29 || 2 ≤ s.canState c || x.offer.isSome || x.onBus then s
  else
    let ready := fun o => s.objPending c o && bit (s.rd (uCN c) (objOff o)) 31
    let best := (x.eligible.filter ready).foldl (fun (b : Option Nat) o => match b with
      | none => some o
      | some p => if arbRank (s.rd (uCN c) (objOff o)) < arbRank (s.rd (uCN c) (objOff p)) then some o else some p) none
    match best with
    | none => s
    | some o =>
      let s := s.setCanX c { x with offer := some (o, s.objCtl c o, s.objData c o), onBus := true }
      let s := s.setFlag (uCN c) 0x10C 29 false
      s.emit .canFrame c ([(s.rd (uCN c) (objOff o)).toNat, (s.objCtl c o).toNat] ++ (s.objData c o).map (·.toNat))

/-- The bus is free again. -/
def State.canIdle (s : State) (c : Nat) : State :=
  (((s.setCanX c { s.canX c with offer := none, onBus := false }).setFlag (uCN c) 0x10C 29 true)).canOffer c

/-- The controller keeps its comparator on its earliest target (R471, R478). -/
def State.canTimer (s : State) (c : Nat) : State :=
  match s.cmpOf 2 c with
  | none => s
  | some n =>
    let x := s.canX c
    let ts := (x.targets.filter fun t => !x.eligible.contains t.1).map (·.2)
    match ts.head? with
    | none => (s.setCmpX n { s.cmpX n with armed := false }).setFlag uGauge (cmpOff n) 31 false
    | some h =>
      let t := ts.foldl min h
      let sec := t / nsPerS
      let s := ((s.wr uGauge (cmpOff n + 4) (w32 (t % nsPerS))).wr uGauge (cmpOff n + 8) (w32 sec)).wr uGauge (cmpOff n + 12)
        (w32 (sec / 2 ^ 32))
      ((s.wr uGauge (cmpOff n + 16) 0).cmpCommit n).setFlag uGauge (cmpOff n) 31 true

/-- An object is pending no more. -/
def State.canDrop (s : State) (c o : Nat) : State :=
  let x := s.canX c
  let s := s.setFlag (uCN c) (objOff o + 4) 29 false
  let s := s.setCanX c { x with
    eligible := x.eligible.filter (· != o), targets := x.targets.filter (·.1 != o)
    offer := match x.offer with | some (p, _) => if p = o then none else x.offer | none => none }
  (s.canTimer c).canOffer c

/-- A timed frame is aborted for lateness (R478). -/
def State.canLate (s : State) (c o : Nat) : State :=
  let s := (s.setFlag (uCN c) (objOff o + 4) 23 true).count (uCN c) 0x128 1
  (s.canDrop c o).post (s.canClient c) 0x0034 (uCN c) noQueue 0 c o

/-- The target that the TIME fields of an object name: the instance within 32,768 s of now. -/
def State.canTarget (s : State) (c o : Nat) : Nat :=
  let now : Int := s.gauge.sec
  let d : Int := sext 16 (unsext 16 ((s.fld (uCN c) (objOff o + 4) 15 0 : Int) - now))
  ((now + d) * nsPerS + s.fld (uCN c) (objOff o + 8) 29 0).toNat

/-- Ask for an object's transmission (R477, R478): false when it is rejected. A receive object sends nothing. -/
def State.canReq (s : State) (c o : Nat) : State × Bool :=
  if s.objPending c o then (s, false)
  else if !bit (s.rd (uCN c) (objOff o)) 30 then (s, true)
  else if !bit (s.objCtl c o) 27 then
    let s := s.setFlag (uCN c) (objOff o + 4) 29 true
    let x := s.canX c
    ((s.setCanX c { x with eligible := x.eligible ++ [o] }).canOffer c, true)
  else if (s.cmpOf 2 c).isNone then (s, false)
  else
    let t := s.canTarget c o
    let s := (s.setFlag (uCN c) (objOff o + 4) 29 true).setFlag (uCN c) (objOff o + 4) 23 false
    let x := s.canX c
    let s := s.setCanX c { x with targets := x.targets ++ [(o, t)] }
    if t + 1000 * s.fld (uCN c) 0x12C 15 0 < s.nowNs then (s.canLate c o, true) else (s.canTimer c, true)

/-- The comparator of a controller fires: its due timed objects become eligible (R472, R478). -/
def State.canFire (s : State) (c : Nat) : State :=
  let x := s.canX c
  let due := (x.targets.filter fun t => t.2 ≤ s.nowNs && !x.eligible.contains t.1).map (·.1)
  ((s.setCanX c { x with eligible := x.eligible ++ due }).canTimer c).canOffer c

/-! ### Writes (R475–R477, R482) -/

/-- Store the fields that software writes of an object's control word: NEW and LOST clear, PENDING, ESI, LATE stay. -/
def State.objCtlStore (s : State) (c o : Nat) (v : Word) : State :=
  let old := s.objCtl c o
  let keep := setBits (setBits v 24 23 (bits old 24 23)) 29 28 (2 * b2n (bit old 29))
  s.wr (uCN c) (objOff o + 4) (setBits keep 31 30 (bits old 31 30 - (bits old 31 30 &&& bits v 31 30)))

/-- A write to an object's control word: the DLC of a pending object is rejected (R477). -/
def State.objCtlWrite (s : State) (ini c o : Nat) (v : Word) : State :=
  let a := regAddr (uCN c) (objOff o + 4)
  if s.objPending c o && (bits v 19 16 != bits (s.objCtl c o) 19 16 || bit v 28) then s.accError ini a .check
  else if bit v 28 then
    let (t, ok) := (s.objCtlStore c o v).canReq c o
    if ok then t else s.accError ini a .check
  else s.objCtlStore c o v

def execCanObjReq (ini c o value : Nat) (s : State) : Out :=
  let off := objOff (o % 512) + 4
  let v := setBit (w32 value) 28 true
  .next (s.guarded ini (uCN (c % 4)) off (setBits v 24 23 0 &&& 0xDE7FFFFF ||| 0x10000000) false fun s =>
    s.objCtlWrite ini (c % 4) (o % 512) v)

/-- EN of a controller takes a value; enabled, the bus counts as idle. -/
def State.canEnable (s : State) (c : Nat) (v : Word) : State :=
  let was := s.canEn c
  let s := s.wr (uCN c) 0x100 v
  if bit v 31 && !was then s.canIdle c
  else if !bit v 31 && was then
    (s.setCanX c { s.canX c with offer := none, onBus := false }).setFlag (uCN c) 0x10C 29 false
  else s

/-- Writes to a CAN register with checks of their own; none: it only stores. -/
def State.canWrite (s : State) (ini c off : Nat) (v : Word) : Option State :=
  let a := regAddr (uCN c) off
  if off = 0x100 then
    some (if s.canEn c && bits v 30 24 != s.fld (uCN c) 0x100 30 24 then s.accError ini a .check else s.canEnable c v)
  else if off = 0x104 || off = 0x108 then
    if s.canEn c && v != s.rd (uCN c) off then some (s.accError ini a .check) else none
  else if 0x1000 ≤ off && off < 0x3000 then
    let o := (off - 0x1000) / 16
    match off % 16 with
    | 0 => if s.idTaken c o v then some (s.accError ini a .check) else none
    | 4 => some (s.objCtlWrite ini c o v)
    | _ => none
  else if 0x4000 ≤ off && off < 0xC000 then
    if s.objPending c ((off - 0x4000) / 64) then some (s.accError ini a .check) else none
  else none

/-! ### Bus events -/

/-- Data words that a DLC stands for. -/
def dlcBytes (fdf : Bool) (dlc : Nat) : Nat :=
  if dlc ≤ 8 then dlc else if fdf then nth [12, 16, 20, 24, 32, 48, 64] (dlc - 9) 64 else 8

/-- Error-active or error-passive by the error counts (R479). -/
def State.canLevel (s : State) (c : Nat) : State :=
  if 2 ≤ s.canState c then s
  else s.setFld (uCN c) 0x10C 31 30 (b2n (127 < s.fld (uCN c) 0x10C 24 16 || 127 < s.fld (uCN c) 0x10C 15 8))

/-- The frame on the bus was lost in arbitration or in error: it is sent again, once the bus is idle, unless ONE_SHOT
(R477). -/
def State.canLost (s : State) (c : Nat) : State :=
  match (s.canX c).offer with
  | none => s
  | some (o, h, _) =>
    let s := s.setCanX c { s.canX c with offer := none }
    if bit h 22 then s.canDrop c o else s

/-- A frame arrives: a remote frame only counts; another replaces its object's header fields and data, or is dropped
(R475, R476). A frame of this controller that was on offer has lost arbitration to it. -/
def State.canReceive (s : State) (c : Nat) (ide rtr fdf brs esi : Bool) (id dlc sof : Nat) (data : List Word) : State :=
  if !s.canEn c || 2 ≤ s.canState c then s
  else
    let u := uCN c
    let s := s.canLost c
    let r := s.fld u 0x10C 15 8
    let s := (s.setFld u 0x10C 15 8 (r - 1)).canLevel c
    let key := b2n ide * 2 ^ 29 + id % (if ide then 2 ^ 29 else 2 ^ 11)
    let s :=
      if rtr then s.count u 0x134 1
      else match (s.objsOn c).find? fun o => !bit (s.rd u (objOff o)) 30 && objKey (s.rd u (objOff o)) = key with
        | none => s.count u 0x11C 1
        | some o =>
          let old := s.objCtl c o
          let v := setBits (setBits (setBits (setBits (setBits (setBit old 31 true) 26 26 (b2n fdf)) 25 25 (b2n brs)) 24 24 (b2n esi))
            19 16 dlc) 15 0 (sof / nsPerS)
          let s := if bit old 31 then (s.wr u (objOff o + 4) (setBit v 30 true)).count u 0x120 1 else s.wr u (objOff o + 4) v
          let s := s.wr u (objOff o + 8) (w32 (sof % nsPerS))
          let s := (List.range 16).foldl (fun s i =>
            if 4 * i < dlcBytes fdf dlc then s.wr u (dataOff o + 4 * i) (nth data i 0) else s) s
          (s.countF u (objOff o + 12) 15 0 1).count u 0x114 1
    s.canIdle c

def execCanFrameReceive (c : Nat) (ide rtr fdf brs esi : Bool) (id dlc sof : Nat) (data : List Word) (s : State) : Out :=
  .next (s.canReceive (c % 4) ide rtr fdf brs esi id (dlc % 16) sof data)

/-- The frame on the bus was sent: PENDING clears, the TIME fields take its start of frame (R477). One whose object was
aborted for lateness only leaves the bus (R478). -/
def State.canSent (s : State) (c sof : Nat) : State :=
  match (s.canX c).offer with
  | none => if (s.canX c).onBus then s.canIdle c else s
  | some (o, _, _) =>
    let u := uCN c
    let s := (s.setFld u (objOff o + 4) 15 0 (sof / nsPerS)).wr u (objOff o + 8) (w32 (sof % nsPerS))
    let s := (s.countF u (objOff o + 12) 15 0 1).count u 0x118 1
    let s := (s.setFld u 0x10C 24 16 (s.fld u 0x10C 24 16 - 1)).canLevel c
    (s.canDrop c o).canIdle c

def execCanTxDone (c sof : Nat) (s : State) : Out := .next (s.canSent (c % 4) sof)

/-- A bus error with the error counts it leaves; more than 255 transmit errors lead to bus-off (R479). -/
def State.canError (s : State) (c err tec rec : Nat) (tx : Bool) : State :=
  if !s.canEn c || 2 ≤ s.canState c then s
  else
    let u := uCN c
    let s := (s.setFld u 0x10C 28 25 err).countF u 0x124 15 0 1
    let s := (s.setFld u 0x10C 24 16 (min tec 511)).setFld u 0x10C 15 8 (min rec 255)
    let s := if tx then s.canLost c else s
    if 255 < tec then
      let s := (s.setFld u 0x10C 31 30 2).countF u 0x124 31 16 1
      let s := s.setCanX c { s.canX c with offer := none, onBus := false }
      s.post (s.canClient c) 0x0033 u noQueue 0 c (s.fld u 0x10C 24 8 * 256)
    else
      let s := s.canLevel c
      if tx then s.canIdle c else s

def execCanBusError (c err tec rec : Nat) (tx : Bool) (s : State) : Out := .next (s.canError (c % 4) (err % 7) tec rec tx)

def execCanTxLateExpiry (c o : Nat) (s : State) : Out :=
  let c := c % 4
  let o := o % 512
  .next (if s.objPending c o && bit (s.objCtl c o) 27 then s.canLate c o else s)

/-- The recover action (R479): false when the controller is not bus-off. -/
def State.canRecover (s : State) (c : Nat) : State × Bool :=
  if s.canState c = 2 then (s.setFld (uCN c) 0x10C 31 30 3, true) else (s, false)

def execCnCmdRecover (ini c : Nat) (s : State) : Out :=
  .next (s.guarded ini (uCN (c % 4)) 0x110 0x20000000 false fun s =>
    State.orRefuse (s.canRecover (c % 4)) ini (regAddr (uCN (c % 4)) 0x110))

/-- Recovery ends: error-active, and pending objects are offered again. -/
def State.canRecovered (s : State) (c : Nat) : State :=
  if s.canState c != 3 then s
  else
    let s := ((s.setFld (uCN c) 0x10C 31 30 0).setFld (uCN c) 0x10C 24 8 0).finish 0x090C c OK
    s.canIdle c

def execCanRecoveryDone (c : Nat) (s : State) : Out := .next (s.canRecovered (c % 4))

/-- Abort a pending object unless its frame is on the bus. -/
def State.canAbort (s : State) (c o : Nat) : State :=
  let x := s.canX c
  let there := match x.offer with | some (p, _) => p = o && x.onBus | none => false
  if there || !s.objPending c o then s else s.canDrop c o

def execCnCmdAbort (ini c o : Nat) (s : State) : Out :=
  .next (s.guarded ini (uCN (c % 4)) 0x110 (w32 (0x40000000 + o % 512)) false fun s => s.canAbort (c % 4) (o % 512))

/-! ### Service calls (R484) -/

/-- 0x0908: header and data of one frame; NEW is cleared. -/
def callReadCanObject (args : List Word) (s : State) : State :=
  let c := arg args 0
  let o := arg args 1
  if 4 ≤ c || 512 ≤ o then s.ret RANGE
  else
    let ws := (List.range 4).map (fun i => s.rd (uCN c) (objOff o + 4 * i)) ++ s.objData c o
    (s.setFlag (uCN c) (objOff o + 4) 31 false).ret OK ws
def execReadCanObject (_ : Nat) (args : List Word) (s : State) : Out := .next (callReadCanObject args s)

/-- 0x090A. -/
def callConfigureCan (ini : Nat) (args : List Word) (s : State) : State :=
  let c := arg args 0
  let u := uCN c
  let ctl := nth args 1 0
  if 4 ≤ c then s.ret RANGE
  else if s.claimed u then s.ret CLAIMED
  else if andN ctl 0x0FFFFFFF != 0 || andN (nth args 2 0) 0x3E0 != 0 || andN (nth args 3 0) 0xFE0 != 0 || arg args 4 = 0 || 65535 < arg args 4 then
    s.ret RANGE
  else if s.canEn c && (bits ctl 30 24 != s.fld u 0x100 30 24 || nth args 2 0 != s.rd u 0x104 || nth args 3 0 != s.rd u 0x108) then
    s.ret RANGE
  else
    let s := ((s.wr u 0x104 (nth args 2 0)).wr u 0x108 (nth args 3 0)).wr u 0x12C (w32 (arg args 4))
    (s.canEnable c ctl).ret OK
def execConfigureCanController (ini : Nat) (args : List Word) (s : State) : Out := .next (callConfigureCan ini args s)

/-- 0x090B: header of four words, sixteen data words, REQ. -/
def callWriteCanObject (ini : Nat) (args : List Word) (s : State) : State :=
  let c := arg args 0
  let o := arg args 1
  let u := uCN c
  let id := nth args 2 0
  if 4 ≤ c || 512 ≤ o then s.ret RANGE
  else if s.claimed u then s.ret CLAIMED
  else if 1 < arg args 22 || s.objPending c o || bits (nth args 4 0) 31 30 != 0 || bits (nth args 3 0) 21 20 != 0 then s.ret RANGE
  else if s.idTaken c o id then s.ret ID_TAKEN
  else
    let t := (s.wr u (objOff o) id).objCtlStore c o (setBit (nth args 3 0) 28 false)
    let t := t.wr u (objOff o + 8) (nth args 4 0)
    let t := (List.range 16).foldl (fun t i => t.wr u (dataOff o + 4 * i) (nth args (6 + i) 0)) t
    if arg args 22 = 1 then
      let (t, ok) := t.canReq c o
      if ok then t.ret OK else s.ret RANGE
    else t.ret OK
def execWriteCanObject (ini : Nat) (args : List Word) (s : State) : Out := .next (callWriteCanObject ini args s)

/-- 0x090C. -/
def callRecoverCan (ini : Nat) (args : List Word) (s : State) : State :=
  let c := arg args 0
  if 4 ≤ c then s.ret RANGE
  else if s.claimed (uCN c) then s.ret CLAIMED
  else if s.callWaits 0x090C c then s.ret UNIT_BUSY
  else
    let (s, ok) := s.canRecover c
    if ok then s.retPending 0x090C c else s.ret NOT_BUS_OFF
def execRecoverCanController (ini : Nat) (args : List Word) (s : State) : Out := .next (callRecoverCan ini args s)

end Sys2Proof.Machine
end

