-- ==== Sys2Proof/Machine/Eth.lean ====
section
/-! DEFINITION. The transmit side of the Ethernet ports: queues, gate schedules, transmit frames of the Mill
(R404, R405, R415, R416, R466, R481). -/
namespace Sys2Proof.Machine

/-! ### Gate schedules (R405, R416) -/

def State.qbvX (s : State) (p : Nat) : QbvX := SMap.get (fun _ => QbvX.init) p s.qbv
def State.setQbvX (s : State) (p : Nat) (x : QbvX) : State := { s with qbv := SMap.set (fun _ => QbvX.init) p x s.qbv }

/-- The schedule is enabled. -/
def State.qbvOn (s : State) (p : Nat) : Bool := s.flag (uEP p) 0x200 31

/-- QBV_BASE in ns. -/
def State.qbvBase (s : State) (p : Nat) : Nat := s.fld (uEP p) 0x20C 31 0 * nsPerS + (s.rd (uEP p) 0x208).toNat

/-- The admin list takes over: its entries, QBV_CYCLE (the sum of the intervals where it was never written), QBV_BASE. -/
def State.qbvTake (s : State) (p : Nat) : State :=
  let u := uEP p
  let oper := (List.range (s.fld u 0x200 6 0)).map fun i => s.rd u (0x300 + 4 * i)
  let c := s.fld u 0x204 29 0
  let cycle := if c = 0 then max 1 (oper.foldl (fun a w => a + entryNs w) 0) else c
  (s.setQbvX p ⟨oper, cycle, s.qbvBase p, s.qbvBase p, 0, false⟩).wr u 0x210 (w32 oper.length)

/-- A scheduled swap is made once Gauge time is at QBV_BASE. -/
def State.qbvSync (s : State) (p : Nat) : State :=
  if (s.qbvX p).swap && s.qbvBase p ≤ s.nowNs then s.qbvTake p else s

/-- Line rate in Mb/s by EP_CFG.MODE (R466). -/
def lineRate (mode : Nat) : Nat := nth [10, 100, 1000, 1000, 2500] mode 10

/-- Ns that a frame takes on the wire with FCS, preamble and gap. -/
def State.wireNs (s : State) (p bytes : Nat) : Nat := ceilDiv ((bytes + 24) * 8000) (lineRate (s.fld (uEP p) 0x100 30 28))

/-- A frame of a class may start now: its gate is open and it ends within its window. -/
def State.mayStart (s : State) (p cls bytes : Nat) : Bool :=
  !s.qbvOn p || decide (s.wireNs p bytes ≤ (s.qbvX p).openNs cls s.nowNs)

/-- The gate of a class is open now. -/
def State.classOpen (s : State) (p cls : Nat) : Bool := !s.qbvOn p || (s.qbvX p).isOpen cls s.nowNs

/-! ### The transmit queues -/

/-- The port is enabled with its link up and no frame on the wire. -/
def State.portFree (s : State) (p : Nat) : Bool :=
  s.flag (uEP p) 0x100 31 && s.flag (uEP p) 0x104 31 && s.ethBusy.all (·.port != p)

/-- Start the next frame of a port: the highest class whose gate is open and whose first frame fits. A frame held for its
window counts in QBV_OVERRUN. -/
def State.ethKick (s : State) (p : Nat) : State :=
  let s := s.qbvSync p
  if !s.portFree p then s
  else
    let heads := ((List.range 8).reverse.filterMap fun c => s.ethQ.find? fun f => f.port = p && f.cls = c).filter fun f => s.classOpen p f.cls
    let held := heads.filter fun f => !s.mayStart p f.cls f.data.length
    let s : State := { s.count (uEP p) 0x214 (held.filter (!·.held)).length with
      ethQ := s.ethQ.map fun f => if held.contains f then { f with held := true } else f }
    match heads.find? fun f => s.mayStart p f.cls f.data.length with
    | none => s
    | some f =>
      ({ s with ethQ := s.ethQ.erase f, ethBusy := f :: s.ethBusy }).emit .ethFrame p (f.cls :: f.data.map fun (b : Byte) => b.toNat)

/-- Queue a frame. -/
def State.ethSend (s : State) (f : EthTx) : State := ({ s with ethQ := s.ethQ ++ [f] }).ethKick f.port

/-- A frame ends on the wire; the port is free for the next one (R466). -/
def State.ethSent (s : State) (p : Nat) : State :=
  if s.ethBusy.any (·.port = p) then
    (({ s with ethBusy := s.ethBusy.filter (·.port != p) }).count (uEP p) 0x120 1).ethKick p
  else s

def execEthFrameSent (p : Nat) (s : State) : Out := .next (s.ethSent (p % 4))

/-- The interval of the entry in force ends: the gates are those of the entry that Gauge time gives, and a scheduled swap
whose time has come is made (R405, R416). -/
def execQbvGateEntryEnd (p : Nat) (s : State) : Out := .next (s.ethKick (p % 4))

/-- SWAP schedules the admin list for QBV_BASE; with that time past it takes over at once. -/
def State.qbvSwap (s : State) (p : Nat) : State :=
  ((s.setQbvX p { s.qbvX p with swap := true }).setFlag (uEP p) 0x210 31 true).qbvSync p

/-- A write to QBV_CTL. -/
def State.qbvCtl (s : State) (p : Nat) (v : Word) : State :=
  let s := (s.qbvSync p).wr (uEP p) 0x200 (setBit v 30 false)
  (if bit v 30 then s.qbvSwap p else s).ethKick p

def execQbvSwap (ini p value : Nat) (s : State) : Out :=
  let v := setBit (w32 value) 30 true
  .next (s.guarded ini (uEP (p % 4)) 0x200 v false fun s => s.qbvCtl (p % 4) v)

/-- A write to an EP register with checks of its own (R481). -/
def State.epWrite (s : State) (ini p off : Nat) (v : Word) : Option State :=
  let u := uEP p
  if off = 0x200 then some (s.qbvCtl p v)
  else if off = 0x100 then
    let old := s.rd u 0x100
    some (if bit old 31 && bits v 30 24 != bits old 30 24 then s.accError ini (regAddr u off) .check
      else if 4 < bits v 30 28 then s.accError ini (regAddr u off) .range
      else
        let v := if bit v 31 && bits v 27 24 = 0 && bits old 27 24 = 0 then setBits v 27 24 6 else v
        ((s.wr u 0x100 v).setFld u 0x104 30 28 (bits v 30 28)).ethKick p)
  else if 0x200 ≤ off then some ((s.qbvSync p).store u off v)
  else none

/-! ### Transmit frames of the Mill (R404, R415) -/

def txOff (f : Nat) : Nat := 0x2000 + 32 * f
def TxWord.init : TxWord := ⟨0, false, none⟩
def State.txWord (s : State) (w : Nat) : TxWord := SMap.get (fun _ => TxWord.init) w s.txWords
def State.setTxWord (s : State) (w : Nat) (x : TxWord) : State := { s with txWords := SMap.set (fun _ => TxWord.init) w x s.txWords }
def State.txEn (s : State) (f : Nat) : Bool := s.flag uMill (txOff f) 31
def State.txFirstW (s : State) (f : Nat) : Nat := s.fld uMill (txOff f) 7 0
def State.txCount (s : State) (f : Nat) : Nat := s.fld uMill (txOff f) 15 8
def State.txSpan (s : State) (f : Nat) : List Nat := span (s.txFirstW f) (s.txCount f)

/-- The enabled transmit frame that a word lies in. -/
def State.txFrameOf (s : State) (w : Nat) : Option Nat :=
  (List.range 16).find? fun f => s.txEn f && s.txFirstW f ≤ w && w < s.txFirstW f + s.txCount f

/-- Word w of a frame is INT32. -/
def State.txInt (s : State) (f w : Nat) : Bool :=
  let i := w - s.txFirstW f
  s.flag uMill (txOff f + 0x10 + 4 * (i / 32)) (i % 32)

/-- Bytes of a big-endian 16-bit number. -/
def be16 (v : Nat) : List Byte := [BitVec.ofNat 8 (v / 256), BitVec.ofNat 8 v]

/-- A transmit frame's bytes without FCS (R404). hold: a writing loop is in fallback. -/
def State.txBytes (s : State) (f : Nat) (part hold : Bool) : List Byte :=
  let o := txOff f
  let port := s.fld uMill o 21 20
  let dst := natBytes 4 (s.rd uMill (o + 4)).toNat ++ natBytes 2 (s.rd uMill (o + 8)).toNat
  let src := natBytes 4 (s.rd (uEP port) 0x108).toNat ++ natBytes 2 (s.rd (uEP port) 0x10C).toNat
  let tag := if s.flag uMill o 30 then be16 0x8100 ++ be16 (s.fld uMill o 29 27 * 2 ^ 13 + s.fld uMill (o + 12) 11 0) else []
  let safe := s.flag uWarden 0x200 28
  let words := (s.txSpan f).flatMap fun w => natBytes 4 (s.txWord w).val.toNat
  let body := [0x01, 0x01] ++ natBytes 2 (s.fld uMill (o + 12) 31 16) ++ natBytes 4 (s.rd uMill (o + 0x1C)).toNat ++
    natBytes 2 (b2n part + 2 * b2n hold + 4 * b2n safe) ++ natBytes 2 (s.txCount f) ++ natBytes 4 0 ++ words
  let all := dst ++ src ++ tag ++ be16 0x88B5 ++ body
  all ++ List.replicate (60 - all.length) 0

/-- A loop is in fallback. -/
def State.loopFb (s : State) (l : Nat) : Bool := s.flag (wLoop l) 0 30

/-- A loop's logical core is lost (R409). -/
def State.loopLost (s : State) (l : Nat) : Bool :=
  let c := s.fld (wLoop l) 0 24 23
  s.flag uMill 0x200 30 && s.ustate (uMC (s.fld uMill 0x204 (2 * c + 1) (2 * c))) = 2

/-- Send a transmit frame: its words are no longer fresh, its send count rises; HOLD: a loop that wrote one of its words is
in fallback or lost (R404, R409). -/
def State.txSend (s : State) (f : Nat) (part : Bool) : State :=
  let hold := ((s.txSpan f).filterMap fun w => (s.txWord w).loop).any fun l => s.loopFb l || s.loopLost l
  let b := s.txBytes f part hold
  let s := (s.txSpan f).foldl (fun s w => s.setTxWord w { s.txWord w with fresh := false }) s
  let s : State := { s.count uMill (txOff f + 0x1C) 1 with txFirst := SMap.erase f s.txFirst }
  s.ethSend ⟨s.fld uMill (txOff f) 21 20, s.fld uMill (txOff f) 29 27, f, b, false⟩

/-- An enabled frame that holds a written word and is not complete is sent with PARTIAL (R404). -/
def State.txPartial (s : State) (f : Nat) : State :=
  if f < 16 && s.txEn f && (s.txSpan f).any (fun w => (s.txWord w).fresh) then s.txSend f true else s

def execAxisFramePartialSend (f : Nat) (s : State) : Out := .next (s.txPartial f)

/-- Write a transmit word for a loop; a complete frame is sent (R404). -/
def State.txWrite (s : State) (l w : Nat) (v : Word) : State :=
  let s := s.setTxWord w ⟨v, true, some l⟩
  match s.txFrameOf w with
  | none => s
  | some f =>
    let s : State := if s.txFirst.any (·.1 = f) then s else { s with txFirst := SMap.insert f l s.txFirst }
    if (s.txSpan f).all fun w => (s.txWord w).fresh then s.txSend f false else s

/-- At a sample's start, before its outputs: incomplete frames that the loop wrote into first are sent with PARTIAL while
their port's schedule is off (R404). -/
def State.txSampleStart (s : State) (l : Nat) : State :=
  ((s.txFirst.filter (·.2 = l)).map (·.1)).foldl (fun s f =>
    if s.qbvOn (s.fld uMill (txOff f) 21 20) then s else s.txPartial f) s

end Sys2Proof.Machine
end

