-- ==== Sys2Proof/Machine/MillLaw.lean ====
section
/-! DEFINITION. Mill loops and their laws: records, checks at load, handshake counts, loads (R168, R169, R200–R204,
R381–R385, R388–R393, R412). -/
namespace Sys2Proof.Machine

def OUTPUT_CLAIMED : Nat := 0x0180
def COEF_QUEUE_FULL : Nat := 0x0181
def LOAD_TOO_HIGH : Nat := 0x0182
def NO_FALLBACK : Nat := 0x0183
def ENC_BOUND : Nat := 0x0184
def LOOP_RUNNING : Nat := 0x0185

/-! ### Loop records (R412) -/

def MillSnap.init : MillSnap := ⟨0, 0, 0, [], [], []⟩
def MillLoop.init : MillLoop where
  main := []
  fb := []
  pendMain := none
  pendFb := none
  lregs := List.replicate 64 0
  work := []
  coef := []
  pend := []
  feed := []
  callN := 0
  stage := 0
  pos := 0
  snap := MillSnap.init
  prevTrig := none
  prevPulse := none
  stopping := false
  want := none
  frozen := none
  seq := 0
  held := 0
  inN := 0
  inAt := none
  misN := 0
  misAt := none
  faulted := false
  mout := 0

def State.loop (s : State) (l : Nat) : MillLoop := SMap.get (fun _ => MillLoop.init) l s.loops
def State.setLoop (s : State) (l : Nat) (x : MillLoop) : State := { s with loops := SMap.set (fun _ => MillLoop.init) l x s.loops }

def State.loopEn (s : State) (l : Nat) : Bool := s.flag (wLoop l) 0 31
def State.loopPrio (s : State) (l : Nat) : Nat := s.fld (wLoop l) 0 27 25
def State.loopCore (s : State) (l : Nat) : Nat := s.fld (wLoop l) 0 24 23
def State.loopGroup (s : State) (l : Nat) : Nat := s.fld (wLoop l) 0 22 20
def State.loopTrig (s : State) (l : Nat) : Nat := s.fld (wLoop l) 0 19 16
def State.loopDiv (s : State) (l : Nat) : Nat := s.fld (wLoop l) 0 15 8 + 1
def State.loopPhase (s : State) (l : Nat) : Nat := s.fld (wLoop l) 0 7 0
/-- The loop's LAW_QUEUE, when it has one. -/
def State.loopQueue (s : State) (l : Nat) : Option Nat := if s.flag (wLoop l) 4 31 then some (s.fld (wLoop l) 4 19 0) else none
def State.loopStateAddr (s : State) (l : Nat) : Nat := (s.rd (wLoop l) 8).toNat + 2 ^ 32 * s.fld (wLoop l) 12 15 0
def State.loopOwner (s : State) (l : Nat) : Nat := s.fld (wLoop l) 0x2C 11 0
def State.loopP (s : State) (l : Nat) : Nat := s.fld (wLoop l) 0x10 15 0

/-- The loops that have a record or a law. -/
def allLoops : List Nat := List.range 96

/-- An event of the Mill to the owning client of a loop (R396). -/
def State.millEvent (s : State) (l code d0 d1 : Nat) : State := s.post (s.loopOwner l) code uMill ((s.loopQueue l).getD noQueue) 0 d0 d1

/-- The same event to the owning clients of several loops, once each. -/
def State.millEvents (s : State) (ls : List Nat) (code d0 d1 : Nat) : State :=
  ((ls.map s.loopOwner).eraseDups).foldl (fun s c => s.post c code uMill noQueue 0 d0 d1) s

/-! ### Instruction fields (R201, R202) -/

def mD (w : Dword) : Nat := bits w 51 46
def mA (w : Dword) : Nat := bits w 45 40
def mB (w : Dword) : Nat := bits w 39 34
def mK (w : Dword) : Nat := bits w 33 26
def mE (w : Dword) : Nat := bits w 25 20
def mSel (w : Dword) : Nat := bits w 19 0
def mKind (w : Dword) : Nat := bits w 19 16
def mIdx (w : Dword) : Nat := bits w 15 0
/-- The order and the form of an SSTEP. -/
def mOrder (w : Dword) : Nat := bits w 4 0
def mComp (w : Dword) : Bool := bit w 5

/-- Handshakes of a law instruction (R201, R388). -/
def millHs (w : Dword) : Nat :=
  let n := mOrder w
  match wOp w with
  | 0xB0 => 8
  | 0xB1 => 12
  | 0xB2 => 4
  | 0xB3 => 4
  | 0xB4 => 3
  | 0xB5 => 3
  | 0xB6 => 3
  | 0xB7 => 4
  | 0xB8 => 14
  | 0xB9 => if mComp w then 8 * n + 12 else 4 * n * n + 8 * n + 12
  | 0xBA => 24
  | 0xBB => 10
  | 0xBC => 4 + 2 * (bits w 5 0 + 1)
  | 0x72 => 112
  | 0x73 => 112
  | _ => 1

/-- Instructions of the output part: up to the last MOUT (R386). -/
def outLen (law : List Dword) : Nat :=
  match (law.zipIdx.filter fun (w, _) => wOp w = 0xB1).getLast? with
  | some (_, i) => i + 1
  | none => 0
def hsSum (l : List Dword) : Nat := l.foldl (fun a w => a + millHs w) 0
/-- P: handshakes of the output part. -/
def lawP (law : List Dword) : Nat := hsSum (law.take (outLen law))
/-- F: handshakes of the segments, with a switch each (R388). -/
def lawF (law : List Dword) : Nat :=
  let t := law.drop (outLen law)
  (if outLen law = 0 then 0 else 24 + lawP law) + (if t.isEmpty then 0 else 24 + hsSum t)

/-- Encoder inputs that a law reads; PWM channels and transmit words that it writes. -/
def lawEncs (law : List Dword) : List Nat := (law.filter fun w => wOp w = 0xB0 && mKind w ≤ 1).map mIdx
def lawPwm (law : List Dword) : List Nat := (law.filter fun w => wOp w = 0xB1 && mKind w = 0).map mIdx
def lawTx (law : List Dword) : List Nat := (law.filter fun w => wOp w = 0xB1 && mKind w = 1).map mIdx

/-- Both laws of a loop, pending ones included. -/
def MillLoop.laws (x : MillLoop) : List Dword := x.main ++ x.fb ++ x.pendMain.getD [] ++ x.pendFb.getD []

/-- The loop that owns a PWM channel. -/
def State.pwmOwner (s : State) (c : Nat) : Option Nat := (s.loops.find? fun (_, x) => (lawPwm x.laws).contains c).map (·.1)
/-- The loops that read an encoder input. -/
def State.encReaders (s : State) (i : Nat) : List Nat := (s.loops.filter fun (_, x) => (lawEncs x.laws).contains i).map (·.1)

/-- A loop other than l that samples on another trigger than t reads an encoder input that l's laws read (R385, R400). -/
def State.encClash (s : State) (l t : Nat) : Bool :=
  s.loops.any fun (k, x) => k != l && s.loopTrig k != t && (lawEncs x.laws).any fun i => (lawEncs (s.loop l).laws).contains i

def encOff (i : Nat) : Nat := 0x1000 + 16 * i
/-- 0 off, 1 quadrature, 2 serial binary, 3 serial Gray. -/
def State.encMode (s : State) (i : Nat) : Nat := s.fld uMill (encOff i) 31 30
/-- Position bits of a serial input: BITS + 2 (R401, R413). -/
def State.encBits (s : State) (i : Nat) : Nat := s.fld uMill (encOff i) 27 22 + 3
/-- Ns that a read of a serial input takes; 0 for another input (R401). -/
def State.encReadNs (s : State) (i : Nat) : Nat :=
  if s.encMode i < 2 then 0
  else (s.encBits i + 1 + 6 * s.fld uMill (encOff i) 28 28) * (s.fld uMill (encOff i) 7 4 + 1) * 100 + s.fld uMill (encOff i) 21 16 * 25

/-! ### Checks at load (R171, R200, R203, R385) -/

/-- Register and coefficient ranges and codes of a MILL-class word (R200–R203). -/
def millFieldBad (w : Dword) : Bool :=
  let n := mOrder w
  match wOp w with
  | 0xB0 => 4 < mKind w
  | 0xB1 => 1 < mKind w
  | 0xB7 => 255 < mK w + 1
  | 0xB8 => 255 < mK w + 4 || 63 < mE w + 1
  | 0xB9 =>
    if mComp w then n = 0 || 16 < n || 255 < mK w + 2 * n || 63 < mE w + n - 1
    else n = 0 || 15 < n || 255 < mK w + n * n + 2 * n || 63 < mE w + n - 1
  | 0xBA => 255 < mK w + 4 || 63 < mE w + 1
  | 0xBB => bits w 7 0 = 0
  | 0xBC => 63 < mA w + bits w 5 0
  | _ => false

/-- An index that no input or output has (R385). -/
def millIndexBad (w : Dword) : Bool :=
  match wOp w with
  | 0xB0 => nth [32, 32, 256, 1024, 1] (mKind w) 0 ≤ mIdx w
  | 0xB1 => nth [48, 256] (mKind w) 0 ≤ mIdx w
  | _ => false

/-- A law may not hold the word, whatever its loop: R172 allows it not, or a field is out of range (R200, R204). -/
def lawWordBad (w : Dword) : Bool :=
  let op := wOp w
  !opcodes.contains op || op / 16 != wClass w || !opAllowed 4 op || wReserved w || millFieldBad w || (op = 0x73 && bit w 51) ||
    millIndexBad w || (op = 0xBC && decide (255 < bits w 19 12 + bits w 5 0))

/-- The first such word of a law, by its index. -/
def lawFirstBad : List Dword → Nat → Option Nat
  | [], _ => none
  | w :: t, i => if lawWordBad w then some i else lawFirstBad t (i + 1)

/-- The fault or status that a law's instruction is refused with in a loop, or 0. -/
def State.millWordFault (s : State) (l : Nat) (w : Dword) : Nat :=
  let op := wOp w
  let others := s.loops.filter fun (k, _) => k != l
  let c := s.loopOwner l
  let first := bits (s.cw c 5) 15 0
  if lawWordBad w then fOPCODE_INVALID
  else if op = 0xBC && s.loopStateAddr l = 0 then fOPCODE_INVALID
  else if op = 0xB1 && others.any (fun (_, x) => (if mKind w = 0 then lawPwm x.laws else lawTx x.laws).contains (mIdx w)) then OUTPUT_CLAIMED
  else if op = 0xB0 && mKind w ≤ 1 && others.any (fun (k, x) => s.loopTrig k != s.loopTrig l && (lawEncs x.laws).contains (mIdx w)) then ENC_BOUND
  else if op / 16 = 7 && !(first ≤ bits w 47 32 && bits w 47 32 < first + bits (s.cw c 5) 31 16) then fMARK_DENIED
  else 0

/-- The first refused instruction of a law: fault or status, and index. -/
def State.lawFault (s : State) (l : Nat) : List Dword → Nat → Nat × Nat
  | [], _ => (0, 0)
  | w :: t, i => let f := s.millWordFault l w; if f = 0 then s.lawFault l t (i + 1) else (f, i)

/-! ### Reading a block (R168, R169) -/

/-- Read n bytes of a block in LPDDR4X or a host window, page by page; the fault of a refused access. -/
def State.blockExt (s : State) (ini client : Nat) (xl : Bool) (a : Nat) : Nat → Nat → State × Nat × List Byte
  | 0, _ => (s, 0, [])
  | f + 1, n =>
    if n = 0 then (s, 0, [])
    else
      let k := min n (4096 - a % 4096)
      let (s, r, bs) := s.extRead ini client xl a k
      if r = .ok then
        let (s, c, t) := s.blockExt ini client xl (a + k) f (n - k)
        (s, c, bs ++ t)
      else (s, (extFault r).getD fXLATE_TIMEOUT, [])

/-- Read n bytes of a block: from the Polder under parcel rights, else as above. -/
def State.blockRead (s : State) (ini client : Nat) (xl : Bool) (a n : Nat) : State × Nat × List Byte :=
  if a < 0x10000000 then s.polRead ini a n else s.blockExt ini client xl a 10 n

/-- The 64-bit words of bytes. -/
def bytesDwords (l : List Byte) : List Dword := (blocksOf 8 (l.length / 8) l).map fun b => BitVec.ofNat 64 (bytesNat b)

/-- The checks of a header that depend on the block alone (R168): MAGIC, versions, COUNT, class, reserved fields. -/
def headerBad (h : List Word) (target most : Nat) : Bool :=
  let w := fun k => nth h k 0
  let n := bits (w 1) 12 0
  w 0 != 0x31434550 || bits (w 1) 23 16 != 1 || n = 0 || most < n || bits (w 1) 15 13 != 0 || bits (w 1) 31 24 != target ||
    bits (w 2) 15 10 != 0 || bits (w 2) 31 18 != 0 || bits (w 4) 31 15 != 0 || bits (w 5) 31 24 != 0 || w 6 != 0 || w 7 != 0

/-- ARITH_GEN and TABLE_SET of a header agree with the part (R169). -/
def State.genBad (s : State) (h : List Word) : Bool :=
  let w := nth h 5 0
  bits w 7 0 != s.fld uDevctl 0x300 7 0 || (bits w 23 8 != 0 && bits w 23 8 != s.fld (uVE 0) 0x108 15 0)

/-! ### Loads (R383, R384) -/

/-- LOOP_WORD10 follows a loop's slots and its pending writes; P and MAIN's bound follow its law in force. -/
def State.loopSync (s : State) (l : Nat) : State :=
  let x := s.loop l
  s.wr (wLoop l) 0x28 (w32 (x.pend.length * 2 ^ 24 + b2n x.pendMain.isSome * 4 + b2n (!x.fb.isEmpty) * 2 + b2n (!x.main.isEmpty)))

/-- The law that a loop runs. -/
def State.lawOf (s : State) (l : Nat) : List Dword := if s.flag (wLoop l) 0 30 then (s.loop l).fb else (s.loop l).main

/-! ### Rates, loads and bounds (R381, R382, R389) -/

/-- The period in ns of a trigger line; 0 when it has none. -/
def State.linePeriod (s : State) (n : Nat) : Nat := if s.flag uMill (0x300 + 4 * n) 31 then s.cmpPeriod (s.fld uMill (0x300 + 4 * n) 3 0) else 0
/-- The ns between the pulses of a loop's trigger; the gate's are those of SET_TRIG, or 1 ms without one. -/
def State.pulseNs (s : State) (l : Nat) : Nat :=
  if s.loopTrig l = 8 then
    let p := s.linePeriod (s.fld uWarden 0x210 25 23)
    if p = 0 then 1000000 else p
  else s.linePeriod (s.loopTrig l)
/-- The ns between the samples of a loop. -/
def State.loopNs (s : State) (l : Nat) : Nat := if s.loopTrig l = 8 then s.pulseNs l else s.pulseNs l * s.loopDiv l

/-- Two loops sample at the same pulses: of the gate, or of one line with one DIV and one PHASE. -/
def State.samePulses (s : State) (k l : Nat) : Bool :=
  s.loopTrig k = s.loopTrig l && (s.loopTrig l = 8 || (s.loopDiv k = s.loopDiv l && s.loopPhase k = s.loopPhase l))

/-- F and P of a loop: the larger of its two laws, since either may run. -/
def State.loopF (s : State) (l : Nat) : Nat := max (lawF (s.loop l).main) (lawF (s.loop l).fb)
def State.loopOut (s : State) (l : Nat) : Nat := max (lawP (s.loop l).main) (lawP (s.loop l).fb)

/-- Enabled loops of a logical core. -/
def State.coreEn (s : State) (c : Nat) : List Nat := (s.loops.map (·.1)).filter fun l => s.loopEn l && s.loopCore l = c

/-- The load of some loops of one core in handshakes per second, as a fraction (R382)
(DEDUCED, notes/assumptions/217.md). -/
def State.loadOf (s : State) (ls : List Nat) : Nat × Nat :=
  ls.foldl (fun (a : Nat × Nat) l =>
    let n := (ls.filter fun k => s.samePulses k l).length
    let num := 10 ^ 9 * (48 + (s.loopF l + 48) * n)
    let den := n * s.loopNs l
    if den = 0 then a else (a.1 * den + num * a.2, a.2 * den)) (0, 1)

/-- A loop is ranked ahead of another (R386). -/
def State.rankedBefore (s : State) (a b : Nat) : Bool := s.loopPrio b < s.loopPrio a || (s.loopPrio a = s.loopPrio b && a < b)

/-- S_j in always-on handshakes at 0.96 G/s: the longest serial read of an input that the loop reads. -/
def State.serialHs (s : State) (j : Nat) : Nat :=
  ceilDiv ((lawEncs (s.loop j).laws).foldl (fun a i => max a (s.encReadNs i)) 0 * 24) 25

/-- T_j in always-on handshakes at 0.96 G/s: 0.05 µs are 48 of them (R389, R412) (DEDUCED, notes/assumptions/217.md). -/
def State.loopBound (s : State) (j : Nat) : Nat :=
  let ls := j :: (s.coreEn (s.loopCore j)).filter (· != j)
  let ahead := (ls.filter fun k => k != j && s.loopOut k != 0 && s.rankedBefore k j).foldl (fun a k => a + 24 + s.loopOut k) 0
  let work := ls.foldl (fun a k => a + s.loopF k) 48
  let fits := ls.all (fun k => s.loopTrig k = s.loopTrig j) && decide (work * 1000 ≤ s.pulseNs j * 960)
  let longest := (ls.filter (· != j)).foldl (fun a k =>
    max a (max (s.loopOut k) (max (hsSum ((s.loop k).main.drop (outLen (s.loop k).main))) (hsSum ((s.loop k).fb.drop (outLen (s.loop k).fb)))))) 0
  let k := if fits || longest = 0 then 0 else longest + 24
  48 + s.serialHs j + (48 + k + ahead + 24 + s.loopOut j)

/-- MILL_LOAD follows a core's enabled loops, and LOOP_WORD7 the laws of every loop of the core that has one. -/
def State.loadSync (s : State) (c : Nat) : State :=
  let (num, den) := s.loadOf (s.coreEn c)
  let s := s.wr uMill (0x208 + 4 * (c % 3)) (w32 (min 65535 (ceilDiv num (den * 10 ^ 6))))
  ((s.loops.map (·.1)).filter fun l => s.loopCore l = c).foldl (fun s l => s.wr (wLoop l) 0x1C (w32 (s.loopBound l))) s

/-- The loads and bounds of every core, after a change of a trigger line. -/
def State.loadsSync (s : State) : State := (List.range 3).foldl State.loadSync s

/-- P of the law in force, and what follows from the laws. -/
def State.lawSync (s : State) (l : Nat) : State :=
  ((s.setFld (wLoop l) 0x10 15 0 (lawP (s.lawOf l))).loopSync l).loadSync (s.loopCore l)

/-- What a pending call 0x0702 waits for: a loop's slot. -/
def slotKey (l : Nat) (fb : Bool) : Nat := l + 128 * b2n fb

/-- Put a law into a slot: at once in a disabled loop, else at its next sample; a call whose law it replaces before that
law took effect ends REFUSED (R384). -/
def State.lawPut (s : State) (l : Nat) (fb : Bool) (law : List Dword) : State :=
  let s := s.finish 0x0702 (slotKey l fb) REFUSED
  let x := s.loop l
  if s.loopEn l then (s.setLoop l (if fb then { x with pendFb := some law } else { x with pendMain := some law })).loopSync l
  else (s.setLoop l (if fb then { x with fb := law, pendFb := none } else { x with main := law, pendMain := none })).lawSync l

/-- Load the block at an address into a slot: the fault or status of a refusal, and the instruction index. -/
def State.lawLoad (s : State) (ini client : Nat) (xl : Bool) (l : Nat) (fb : Bool) (a : Nat) : State × Nat × Nat :=
  let (s, f, hb) := s.blockRead ini client xl a 64
  let h := bytesWords hb
  if f != 0 then (s, f, 0)
  else if headerBad h 4 512 then (s, fBLOCK_INVALID, 0)
  else if s.genBad h then (s, fGEN_MISMATCH, 0)
  else
    let (s, f, b) := s.blockRead ini client xl (a + 64) (8 * bits (nth h 1 0) 12 0)
    if f != 0 then (s, f, 0)
    else
      let law := bytesDwords b
      let (f, i) := s.lawFault l law 0
      if f != 0 then (s, f, i) else (s.lawPut l fb law, 0, 0)

end Sys2Proof.Machine
end

