-- ==== Sys2Proof/Machine/Mill.lean ====
section
/-! DEFINITION. The Mill at work: encoders, trigger pulses, samples and their segments, the instructions of a law,
outputs, fallback, core faults (R380–R409). -/
namespace Sys2Proof.Machine

/-! ### Numbers -/

/-- (−1)^neg × num × 2^e ÷ den, rounded once to FP32. -/
def ratF32 (neg : Bool) (num : Nat) (e : Int) (den : Nat) : Word :=
  if num = 0 then f32Zero neg else f32Round neg (num * 2 ^ 64 / den) (e - 64) (num * 2 ^ 64 % den != 0)

/-- An integer times an FP32 scale, rounded once (R397). -/
def scaleInt (z : Int) (scale : Word) : Word := f32Enc (fltMul (.fin (z < 0) z.natAbs 0) (f32 scale))

/-- Round a number half to even to an integer: its sign and magnitude; none for a NaN or an infinity. -/
def roundInt : Flt → Option (Bool × Nat)
  | .fin neg m e => some (neg, rne m e)
  | _ => none

/-! ### Encoders (R398–R402) -/

def EncX.init : EncX := ⟨0, 0, 0, 0, 0, 0, 0, 0, [], 0, 0, 0, 0, false, 0, 0, []⟩
def State.encX (s : State) (i : Nat) : EncX := SMap.get (fun _ => EncX.init) i s.encs
def State.setEncX (s : State) (i : Nat) (x : EncX) : State := { s with encs := SMap.set (fun _ => EncX.init) i x s.encs }
def State.encCount (s : State) (i : Nat) : Word := s.rd uMill (0x1200 + 4 * i)
def State.encScale (s : State) (i : Nat) : Word := s.rd uMill (encOff i + 4)

/-- The clock of the encoder block, 400 MHz (R398). -/
def State.encClock (s : State) : Nat := s.gauge.ticks * 4 / 5

/-- An encoder error: its status bit, the count of errors (R399, R401). -/
def State.encError (s : State) (i b : Nat) : State :=
  let s := (s.setFlag uMill (encOff i + 12) b true).countF uMill (encOff i + 12) 15 0 1
  s.setEncX i { s.encX i with bad := true }

/-- An edge that has passed the filter at a 400 MHz time: it counts, or is illegal (R399). -/
def State.encTake (s : State) (i : Nat) (illegal up : Bool) (t : Nat) : State :=
  if illegal then s.encError i 31
  else
    let c := s.encCount i
    let x := s.encX i
    (s.wr uMill (0x1200 + 4 * i) (if up then c + 1 else c - 1)).setEncX i { x with edge0 := x.edge, edge := t }

/-- FILTER, in steps of 2.5 ns. -/
def State.encFilter (s : State) (i : Nat) : Nat := s.fld uMill (encOff i) 15 8

/-- Edges whose level has persisted for FILTER × 2.5 ns are taken (R398). -/
def State.encSync (s : State) (i : Nat) : State :=
  let x := s.encX i
  let f := s.encFilter i
  let ripe := fun (e : Nat × Bool × Bool) => decide (e.1 + f ≤ s.encClock)
  let s' := s.setEncX i { x with wait := x.wait.filter fun e => !ripe e }
  if x.wait.isEmpty then s else (x.wait.filter ripe).foldl (fun s e => s.encTake i e.2.1 e.2.2 (e.1 + f)) s'

/-- An edge at a quadrature input's pins. One that takes the level back before the filter took it leaves nothing (R398,
R399) (DEDUCED, notes/assumptions/216.md). -/
def State.encEdge (s : State) (i : Nat) (illegal up : Bool) : State :=
  if s.encMode i != 1 then s
  else
    let s := s.encSync i
    let x := s.encX i
    let back := match x.wait.getLast? with
      | some (_, il, u) => il = illegal && (illegal || u != up)
      | none => false
    (s.setEncX i { x with wait := if back then x.wait.dropLast else x.wait ++ [(s.encClock, illegal, up)] }).encSync i

/-- A new ENC_CFG: nothing of the old one is in the filter or being read. -/
def State.encCfg (s : State) (i : Nat) (v : Word) : State :=
  let s := s.encSync i
  (s.setEncX i { s.encX i with wait := [], reads := [] }).wr uMill (encOff i) v

def execEncoderEdge (i : Nat) (illegal up : Bool) (s : State) : Out := .next (s.encEdge (i % 32) illegal up)

/-- An index pulse: the first one after INDEXED was cleared copies the count (R399, R474). -/
def State.encIndex (s : State) (i : Nat) : State :=
  let s := (s.encSync i).capture 3 i 0 0
  if s.encMode i = 1 && s.flag uMill (encOff i) 29 && !s.flag uMill (encOff i + 12) 28 then
    (s.wr uMill (0x1280 + 4 * i) (s.encCount i)).setFlag uMill (encOff i + 12) 28 true
  else s

def execEncoderIndex (i : Nat) (s : State) : Out := .next (s.encIndex (i % 32))

/-- The position of R397. -/
def State.encPos (s : State) (i : Nat) (count : Word) : Word :=
  scaleInt (sext 32 (count - s.rd uMill (encOff i + 8)).toNat) (s.encScale i)

/-- The difference of two counts times SCALE over a time in 2.5 ns. -/
def rate400 (dn : Int) (scale : Word) (ticks : Nat) : Word :=
  match fltMul (.fin (dn < 0) dn.natAbs 0) (f32 scale) with
  | .fin n m e => ratF32 n (m * 400000000) e ticks
  | x => f32Enc x

/-- The velocity of a quadrature input at a latch: +0 with no edge for VEL_TIMEOUT (R402). -/
def State.quadVel (s : State) (i : Nat) (x : EncX) : Word :=
  let now := s.encClock
  let since := now - x.latEdge
  if s.fld uMill (encOff i + 12) 23 16 * 16 * 400 ≤ since then 0
  else if x.latEdge != x.preEdge then rate400 (sext 32 (x.latCount - x.preCount).toNat) (s.encScale i) (x.latEdge - x.preEdge)
  else if since = 0 then x.vel
  else
    let cap := fabs (rate400 1 (s.encScale i) since)
    let mag := fmin (fabs x.vel) cap
    if isNeg x.vel then fneg mag else mag

/-- Latch an input at a trigger pulse: a quadrature input gives position, velocity and whether it is faulted, and then the
values of its last good latch; a serial one starts to read (R395, R400–R402) (DESIGN CHOICE, notes/assumptions/220.md). -/
def State.encLatch (s : State) (i pulse : Nat) : State × Option (Nat × Word × Word × Bool) :=
  match s.encMode i with
  | 0 => (s, none)
  | 1 =>
    let s := s.encSync i
    let x := s.encX i
    let x := { x with
      preCount := x.latCount, preEdge := x.latEdge, latCount := s.encCount i, latEdge := x.edge, latEdge0 := x.edge0 }
    let v := s.quadVel i x
    let x := { x with goodCount := if x.bad then x.goodCount else x.latCount, goodVel := if x.bad then x.goodVel else v }
    (s.setEncX i { x with vel := v, bad := false }, some (i, s.encPos i x.goodCount, x.goodVel, x.bad))
  | _ => (s.setEncX i { s.encX i with reads := (s.encX i).reads ++ [pulse], bad := false }, none)

/-- CRC of six bits over position bits, most significant first: x⁶ + x + 1, initial value 0 (R401). -/
def encCrc6 : Nat → Nat → Nat → Nat
  | 0, _, c => c
  | n + 1, raw, c =>
    let b := (raw / 2 ^ n + c / 32) % 2
    encCrc6 n raw ((c * 2 % 64) ^^^ (3 * b))

/-- A number from Gray code of at most n bits. -/
def grayDecode : Nat → Nat → Nat
  | 0, _ => 0
  | n + 1, g => g ^^^ grayDecode n (g / 2)

/-- The encoder values that a sample holds get the one of a serial read. -/
def MillSnap.put (m : MillSnap) (e : Nat × Word × Word × Bool) : MillSnap := { m with enc := e :: m.enc.filter (·.1 != e.1) }

/-- The oldest serial read of an input ends: position, CRC, velocity between good reads; the samples of its trigger pulse take
it, faulted ones the last good values (R387, R395, R401, R402). -/
def State.serialDone (s : State) (i raw crc : Nat) (start : Bool) : State :=
  let x := s.encX i
  match x.reads with
  | [] => s
  | pulse :: reads =>
    let x := { x with reads := reads }
    let n := s.encBits i
    let raw := raw % 2 ^ n
    let bad := !start || (s.flag uMill (encOff i) 28 && encCrc6 n raw 0 != crc % 64)
    let s := s.setEncX i x
    let (s, e) : State × (Nat × Word × Word × Bool) :=
      if bad then (s.encError i (if start then 30 else 29), (i, s.encPos i x.pos, x.vel, true))
      else
        let p := w32 (if s.encMode i = 3 then grayDecode n raw else raw)
        let now := s.encClock
        let (s, v) := if now = x.posAt then (let (w, s) := s.fresh; (s, w))
          else (s, rate400 (sext 32 (p - x.pos).toNat) (s.encScale i) (now - x.posAt))
        let s := (s.wr uMill (0x1200 + 4 * i) p).setEncX i
          { x with bad := false, pos0 := x.pos, pos0At := x.posAt, pos := p, posAt := now, vel := v }
        (s, (i, s.encPos i p, v, false))
    (s.encReaders i).foldl (fun s l =>
      let k := s.loop l
      if k.stage = 0 || k.snap.pulse != pulse then s else s.setLoop l { k with snap := k.snap.put e }) s

def execSerialReadDone (i raw crc : Nat) (start : Bool) (s : State) : Out := .next (s.serialDone (i % 32) raw crc start)

/-! ### PWM outputs (R403) -/

def State.pwmTb (s : State) (c : Nat) : Nat := s.fld uMill (pwmOff c) 28 26
def State.pwmPeriod (s : State) (c : Nat) : Nat := s.fld uMill (0x1400 + 8 * s.pwmTb c) 15 0

/-- The channels of a loop. -/
def State.loopPwm (s : State) (l : Nat) : List Nat := (lawPwm (s.loop l).laws).eraseDups

/-- An odd channel that its even neighbour drives as its complement. -/
def State.pwmPaired (s : State) (c : Nat) : Bool :=
  c % 2 = 1 && s.flag uMill (pwmOff (c - 1)) 31 && s.flag uMill (pwmOff (c - 1)) 25

/-- A channel drives its compare: its loop is enabled, its logical core is not lost, the safe state is not asserted. -/
def State.pwmDriven (s : State) (c : Nat) : Bool :=
  !s.flag uWarden 0x200 28 && (match s.pwmOwner c with
    | some l => s.loopEn l && s.ustate (uMC (s.fld uMill 0x204 (2 * s.loopCore l + 1) (2 * s.loopCore l))) != 2
    | none => true)

/-- The counter of a timebase: while it is enabled it counts at 400 MHz from its period's start, up to PERIOD, and centre-aligned
down again (R403, R414) (DESIGN CHOICE, notes/assumptions/218.md). -/
def State.tbCount (s : State) (tb : Nat) : Nat :=
  let o := 0x1400 + 8 * tb
  let p := s.fld uMill o 15 0
  let t := s.encClock - SMap.get (fun _ => 0) tb s.tbAt
  if !s.flag uMill o 31 then s.fld uMill (o + 4) 15 0
  else if s.flag uMill o 30 then (let k := t % (2 * p); if k ≤ p then k else 2 * p - k)
  else t % p

def State.tbStart (s : State) (tb : Nat) : State := { s with tbAt := SMap.set (fun _ => 0) tb s.encClock s.tbAt }

/-- A new TB_CFG: a timebase that is enabled starts its first period; a disabled one keeps its count. -/
def State.tbCfg (s : State) (tb : Nat) (v : Word) : State :=
  let o := 0x1400 + 8 * tb
  let on := s.flag uMill o 31
  let s := (s.wr uMill (o + 4) (w32 (s.tbCount tb))).wr uMill o v
  if bit v 31 && !on then s.tbStart tb else s

/-- What a channel's output is made from: its compare, the period and CENTRE of its timebase, INVERT (R403, R414). -/
def State.pwmWave (s : State) (c v : Nat) : List Nat :=
  [v, s.pwmPeriod c, s.fld uMill (0x1400 + 8 * s.pwmTb c) 30 30, s.fld uMill (pwmOff c) 30 30]

/-- A period start, or a valley: shadows load; a paired channel's partner is driven as its complement, with the dead time
(R403, R474). -/
def State.pwmStart (s : State) (tb : Nat) : State :=
  let s := (s.tbStart tb).capture 2 tb 0 0
  ((List.range 48).filter fun c => s.pwmTb c = tb && s.flag uMill (pwmOff c) 31).foldl (fun s c =>
    match s.pwmShadow.find? (·.1 = c) with
    | none => s
    | some (_, v) =>
      let s : State := { s.wr uMill (pwmOff c + 4) (w32 v) with pwmShadow := SMap.erase c s.pwmShadow }
      if !s.pwmDriven c || s.pwmPaired c then s
      else
        let s := s.emit .pwm c (1 :: s.pwmWave c v)
        if s.flag uMill (pwmOff c) 25 then s.emit .pwm (c + 1) (3 :: s.fld uMill (pwmOff c) 23 16 :: s.pwmWave c v) else s) s

def execPwmPeriodStart (tb : Nat) (s : State) : Out :=
  .next (if s.flag uMill (0x1400 + 8 * (tb % 8)) 31 then s.pwmStart (tb % 8) else s)

/-! ### Input faults, missed samples, plausibility (R386, R394–R396) -/

/-- An input of a running sample is faulted: the sample says so, the Warden and, at most once a millisecond, the owner
are told. -/
def State.inputFault (s : State) (l sel : Nat) : State :=
  let x := s.loop l
  let n := x.inN + 1
  let post := match x.inAt with | none => true | some t => decide (t + 1000000 ≤ s.nowNs)
  let s := s.setLoop l { x with faulted := true, inN := if post then 0 else n, inAt := if post then some s.nowNs else x.inAt }
  let s := (s.setFlag (wLoop l) 0x10 31 true).wdReport 0x0A l sel
  let s := if sel / 2 ^ 16 % 16 = 2 then s.setFlag (wLoop l) 0x10 29 true else s
  if post then s.millEvent l 0x0019 l (min n 4095 * 2 ^ 20 + sel % 2 ^ 20) else s

/-- A trigger finds the previous sample running: it is missed. -/
def State.missed (s : State) (l : Nat) : State :=
  let x := s.loop l
  let n := x.misN + 1
  let post := match x.misAt with | none => true | some t => decide (t + 1000000 ≤ s.nowNs)
  let s := s.setLoop l { x with misN := if post then 0 else n, misAt := if post then some s.nowNs else x.misAt }
  let s := ((s.count (wLoop l) 0x18 1).count uMill 0x214 1).wdReport 0x0B l 0
  if post then s.millEvent l 0x001A l n else s

/-! ### Trigger pulses (R381, R386, R400, R408) -/

/-- A trigger pulse restarts the timebases that are in step with its line, so that a period starts with it (R403, R414). -/
def State.tbPulse (s : State) (n : Nat) : State :=
  ((List.range 8).filter fun tb =>
    s.fld uMill (0x1400 + 8 * tb) 31 31 = 1 && s.fld uMill (0x1400 + 8 * tb) 29 29 = 1 && s.fld uMill (0x1400 + 8 * tb) 28 26 = n).foldl
      State.pwmStart s

/-- The interval from the previous trigger in s, rounded once; open at the first (R387, R397). -/
def State.interval (s : State) (prev : Option Nat) : State × Word :=
  match prev with
  | some t => (s, ratF32 false (s.nowNs - t) 0 nsPerS)
  | none => let (w, s) := s.fresh; (s, w)

/-- A due sample of a loop becomes ready, or is missed; a release of the gate more than 1 ms after the one before counts as a
missed sample. -/
def State.sampleDue (s : State) (pulse : Nat) (lat : List (Nat × Word × Word × Bool)) (l : Nat) : State :=
  let x := s.loop l
  let late := s.loopTrig l = 8 && (match x.prevPulse with | some t => decide (t + 1000000 < s.nowNs) | none => false)
  let s := s.setLoop l { x with prevPulse := some s.nowNs }
  let s := if late then s.missed l else s
  let x := s.loop l
  if x.stage != 0 then s.missed l
  else
    let (s, w) := s.interval x.prevTrig
    let mine := lat.filter fun e => (lawEncs x.laws).contains e.1
    s.setLoop l { x with stage := 1, prevTrig := some s.nowNs, snap := { x.snap with trig := s.nowNs, pulse := pulse, interval := w, enc := mine } }

/-- The loops of a logical core, by their records. -/
def State.coreLoops (s : State) (lc : Nat) : List Nat := allLoops.filter fun l => s.loopCore l = lc

/-- A planned handover: at a pulse after a draining core has finished its segments the standby takes its logical core
(R408); the owners of its loops are told. -/
def State.handOver (s : State) : State :=
  (List.range 3).foldl (fun s c =>
    let old := s.fld uMill 0x204 (2 * c + 1) (2 * c)
    if s.ustate (uMC old) = 1 && !s.flag uMill 0x204 8 && s.loops.all (fun (l, x) => s.loopCore l != c || x.stage = 0) then
      let n := s.fld uMill 0x204 7 6
      ((s.setFld uMill 0x204 (2 * c + 1) (2 * c) n).coreSync).millEvents (s.coreLoops c) 0x001B c (old + n * 2 ^ 8)
    else s) s

/-- A pulse of trigger line n, or of the gate (8): encoders are latched, due samples become ready. -/
def State.millPulse (s : State) (n : Nat) : State :=
  let s := s.handOver.tbPulse n
  let count := SMap.get (fun _ => 0) n s.trigN
  let pulse := 16 * count + n
  let s : State := { s with trigN := SMap.set (fun _ => 0) n (count + 1) s.trigN }
  let mine := (s.loops.map (·.1)).filter fun l => s.loopTrig l = n
  let ins := (mine.flatMap fun l => lawEncs (s.loop l).laws).eraseDups
  let (s, lat) := ins.foldl (fun (a : State × List (Nat × Word × Word × Bool)) i =>
    let (s, e) := a.1.encLatch i pulse
    (s, a.2 ++ e.toList)) (s, [])
  (mine.filter fun l => s.loopEn l && (n = 8 || count % s.loopDiv l = s.loopPhase l)).foldl (fun s l => s.sampleDue pulse lat l) s

/-- A pulse on a Mill line from its comparator: the line counts while it is enabled and bound to it (R381, R411). -/
def State.trigBound (s : State) (n : Nat) : Bool := s.flag uMill (0x300 + 4 * n) 31

/-! ### Fallback (R407) -/

/-- Calls 0x070A that wait for a loop, or for a group (96 + g), complete. -/
def State.fbFinish (s : State) (l : Nat) : State :=
  let s := s.finish 0x070A l OK
  let g := s.loopGroup l
  if s.loops.any fun (k, x) => s.loopGroup k = g && x.want.isSome && s.loopEn k then s else s.finish 0x070A (96 + g) OK

/-- GATE_SEQ and the set in force at the gate. -/
def State.gateNow (s : State) : Nat × List (Nat × Word) := ((s.rd uMill 0x220).toNat, s.gateSet)

/-- A loop is to switch at its next sample, a disabled one at once; fb: to FALLBACK. -/
def State.loopWant (s : State) (l : Nat) (fb : Bool) : State :=
  let x := s.loop l
  let frozen := if fb && x.frozen.isNone then some s.gateNow else x.frozen
  if s.loopEn l then s.setLoop l { x with want := some fb, frozen := frozen }
  else
    let s := (s.setLoop l { x with want := none, frozen := if fb then frozen else none }).setFlag (wLoop l) 0 30 fb
    if x.laws.isEmpty then s else s.lawSync l

/-- Switch groups to fallback, or back (R407): each of their loops at its next sample; owners are told. -/
def State.groupsTo (s : State) (mask : Nat) (fb : Bool) : State :=
  if mask = 0 then s
  else
    let ls := allLoops.filter fun l => mask / 2 ^ s.loopGroup l % 2 = 1
    let s := ls.foldl (fun s l => s.loopWant l fb) s
    let old := s.fld uMill 0x224 7 0
    let s := s.wr uMill 0x224 (w32 (if fb then old ||| mask else old - (old &&& mask)))
    s.millEvents ls 0x001D mask (b2n !fb)

/-! ### Segments (R386, R387, R391) -/

/-- Apply the oldest pending coefficient write (R391); a call's writes follow into the room it
leaves, and the call ends with its last one (R390, R417). -/
def State.coefStep (s : State) (l : Nat) : State :=
  let x := s.loop l
  match x.pend with
  | [] => s
  | (i, v) :: t =>
    let pend := t ++ x.feed.take 1
    let s := s.setLoop l { x with
      coef := SMap.set (fun _ => 0) i v x.coef, pend := pend, feed := x.feed.drop 1, callN := x.callN - 1 }
    let s := if x.callN = 1 then s.finish 0x0704 l OK else s
    s.loopSync l

/-- Pending laws of a loop have taken effect (R384): calls complete, LAW_RESULT is no longer pending. -/
def State.lawTaken (s : State) (l : Nat) : State :=
  let s := (s.finish 0x0702 (slotKey l false) OK).finish 0x0702 (slotKey l true) OK
  if s.lawLast = l then s.setFlag uMill 0x23C 30 false else s

/-- What happens at the start of a loop's sample (R384, R387, R391, R404, R406, R407). -/
def State.sampleStart (s : State) (l : Nat) : State :=
  let x := s.loop l
  let done := x.pendMain.isSome || x.pendFb.isSome
  let x := { x with main := x.pendMain.getD x.main, fb := x.pendFb.getD x.fb, pendMain := none, pendFb := none }
  let s := s.setLoop l x
  let s := if done then s.lawTaken l else s
  let s := match x.want with
    | none => s
    | some fb =>
      let s := (s.setLoop l { s.loop l with want := none, frozen := if fb then (s.loop l).frozen else none }).setFlag (wLoop l) 0 30 fb
      s.fbFinish l
  let s := (s.lawSync l).coefStep l
  let s := s.count (wLoop l) 0x14 1
  let s := s.txSampleStart l
  let x := s.loop l
  let (seq, gate) := x.frozen.getD s.gateNow
  let held := if x.seq = seq then x.held + 1 else 1
  let rx := s.rxWords.map fun (w, v) => (w, v, (List.range 16).any fun f =>
    let o := 0x2200 + 32 * f
    s.flag uMill o 31 && s.fld uMill o 7 0 ≤ w && w < s.fld uMill o 7 0 + s.fld uMill o 15 8 && s.flag uMill (o + 0x1C) 31)
  let s := s.setLoop l { x with seq := seq, held := held, faulted := false, mout := 0, snap := { x.snap with rx := rx, gate := gate } }
  let s := s.setFlag (wLoop l) 0x10 31 false
  let limit := s.fld (wLoop l) 12 31 24
  if limit != 0 && limit < held then s.inputFault l 0x30000 else s

/-- A logical core that was taken over has begun on its new core (R409, R411) (DEDUCED, notes/assumptions/221.md). -/
def State.tookOver (s : State) (lc : Nat) : State :=
  if s.takingOver.contains lc then
    let rest := s.takingOver.filter (· != lc)
    { s.setFlag uMill 0x200 31 (!rest.isEmpty) with takingOver := rest }
  else s

/-- Begin a segment of a loop on its logical core. -/
def State.segBegin (s : State) (lc l : Nat) : State :=
  let s := s.tookOver lc
  let s := if (s.loop l).stage = 1 then s.sampleStart l else s
  let x := s.loop l
  let n := outLen (s.lawOf l)
  let out := x.stage = 1 && n != 0
  let s := s.setLoop l { x with stage := if out then 3 else 4, pos := if out then 0 else n, work := x.lregs }
  { s with lcores := SMap.insert lc l (SMap.erase lc s.lcores) }

/-- A loop's ready segment is an output part. -/
def State.readyOut (s : State) (l : Nat) : Bool :=
  let x := s.loop l
  let law := if x.want.getD (s.flag (wLoop l) 0 30) then x.pendFb.getD x.fb else x.pendMain.getD x.main
  x.stage = 1 && outLen law != 0

/-- Which of two ready loops a core takes first: an output part before a tail, higher PRIO, lower number (R386). -/
def State.before (s : State) (a b : Nat) : Bool :=
  if s.readyOut a != s.readyOut b then s.readyOut a
  else if s.loopPrio a != s.loopPrio b then s.loopPrio b < s.loopPrio a else a < b

/-- The physical core that runs a logical core. -/
def State.coreOf (s : State) (lc : Nat) : Nat := s.fld uMill 0x204 (2 * lc + 1) (2 * lc)
/-- A logical core runs: its physical core is in service or still draining. -/
def State.coreRuns (s : State) (lc : Nat) : Bool := s.ustate (uMC (s.coreOf lc)) ≤ 1

/-- A free logical core takes its next ready segment. -/
def State.segment (s : State) (lc : Nat) : State :=
  if s.lcores.any (·.1 = lc) || !s.coreRuns lc then s
  else
    let ready := (s.loops.map (·.1)).filter fun l =>
      s.loopCore l = lc && s.loopEn l && ((s.loop l).stage = 1 || (s.loop l).stage = 2)
    match ready with
    | [] => s
    | h :: t => s.segBegin lc (t.foldl (fun a b => if s.before b a then b else a) h)

def execMillSegment (lc : Nat) (s : State) : Out := .next (s.segment (lc % 3))

/-- Disable a loop: its channels go to SAFE_LEVEL (R403); writes that wait are applied in order (R391). -/
def State.loopOff (s : State) (l : Nat) : State :=
  let s := s.setFlag (wLoop l) 0 31 false
  let x := s.loop l
  let coef := (x.pend ++ x.feed).foldl (fun c (i, v) => SMap.set (fun _ => 0) i v c) x.coef
  let s := s.setLoop l { x with
    stage := 0, stopping := false, prevTrig := none, prevPulse := none, coef := coef, pend := [], feed := [], callN := 0
    main := x.pendMain.getD x.main, fb := x.pendFb.getD x.fb, pendMain := none, pendFb := none }
  let s := ((s.finish 0x0704 l OK).lawTaken l).lawSync l
  let s := s.setFld uMill 0x200 7 0 (allLoops.filter s.loopEn).length
  s.pwmSafe (s.loopPwm l)

/-- A sample ends (R386, R395, R412). -/
def State.sampleEnd (s : State) (l : Nat) : State :=
  let x := s.loop l
  let s := s.setLoop l { x with stage := 0 }
  if x.stopping then s.loopOff l else s

/-- A segment ends: its registers are committed; the tail is ready, or the sample ends. -/
def State.segEnd (s : State) (lc l : Nat) : State :=
  let x := s.loop l
  let s : State := { s with lcores := SMap.erase lc s.lcores }
  let law := s.lawOf l
  let s := s.setLoop l { x with lregs := x.work, stage := 2 }
  if x.stage = 3 && outLen law < law.length then s else s.sampleEnd l

/-- End the segment when its last instruction has run. -/
def State.segNext (s : State) (lc l : Nat) : State :=
  let x := s.loop l
  let law := s.lawOf l
  let last := if x.stage = 3 then outLen law else law.length
  if last ≤ x.pos then s.segEnd lc l else s

/-! ### Instructions (R200–R203, R397, R403, R404) -/

/-- A register and a coefficient of a running sample. -/
def MillLoop.r (x : MillLoop) (i : Nat) : Word := nth x.work i 0
def MillLoop.c (x : MillLoop) (i : Nat) : Word := SMap.get (fun _ => 0) i x.coef
def MillLoop.put (x : MillLoop) (i : Nat) (v : Word) : MillLoop := { x with work := setNth x.work i v }
/-- Write consecutive registers. -/
def MillLoop.puts (x : MillLoop) (i : Nat) : List Word → MillLoop
  | [] => x
  | v :: t => (x.put i v).puts (i + 1) t

/-- The next instruction of the segment that runs on a logical core, when it is op: what act does with it, then the
segment goes on; none: it waits. -/
def State.millStep (s : State) (lc op : Nat) (act : State → Nat → MillLoop → Dword → Option State) : State :=
  match s.lcores.find? (·.1 = lc) with
  | none => s
  | some (_, l) =>
    let x := s.loop l
    let w := nth (s.lawOf l) x.pos 0
    let t := s.tookOver lc
    if wOp w != op || !s.coreRuns lc then s
    else match act (t.setLoop l { x with pos := x.pos + 1 }) l { x with pos := x.pos + 1 } w with
      | some s => s.segNext lc l
      | none => s

/-- An instruction that only changes the loop's registers. -/
def State.millCalc (s : State) (lc op : Nat) (f : MillLoop → Dword → MillLoop) : State :=
  s.millStep lc op fun s l x w => some (s.setLoop l (f x w))

/-- The value of an input in a sample's snapshot, the last good one when it is faulted, and whether it is; none: the serial read
of its trigger runs (R387, R395, R401). -/
def State.inputOf (s : State) (x : MillLoop) (w : Dword) : Option (Word × Bool) :=
  let i := mIdx w
  match mKind w with
  | 2 =>
    let (v, stale) := match x.snap.rx.find? (·.1 = i) with | some (_, v, st) => (v, st) | none => (0, false)
    let fr := (List.range 16).find? fun f =>
      let o := 0x2200 + 32 * f
      s.flag uMill o 31 && s.fld uMill o 7 0 ≤ i && i < s.fld uMill o 7 0 + s.fld uMill o 15 8
    match fr with
    | none => some (v, false)
    | some f =>
      let o := 0x2200 + 32 * f
      let k := i - s.fld uMill o 7 0
      let v := if s.flag uMill (o + 0x10 + 4 * (k / 32)) (k % 32) then scaleInt (sext 32 v.toNat) (s.rd uMill (o + 0x18)) else v
      some (v, stale || s.flag uMill (o + 0x1C) 31 && x.snap.rx.all (·.1 != i))
  | 3 => some (SMap.get (fun _ => 0) i x.snap.gate, false)
  | 4 => some (x.snap.interval, false)
  | k =>
    match x.snap.enc.find? (·.1 = i) with
    | some (_, p, v, bad) => some (if k = 0 then p else v, bad)
    | none =>
      if (s.encX i).reads.contains x.snap.pulse then none
      else some (if k = 0 then s.encPos i (s.encX i).latCount else (s.encX i).vel, false)

/-- MIN: a faulted input gives its last good value, and the fault (R395) (DESIGN CHOICE, notes/assumptions/215.md). -/
def State.millMin (s : State) (lc : Nat) : State :=
  s.millStep lc 0xB0 fun s l x w =>
    match s.inputOf x w with
    | none => none
    | some (v, bad) =>
      let s := s.setLoop l (x.put (mD w) v)
      some (if bad then s.inputFault l (mSel w) else s)

def execMin (lc : Nat) (s : State) : Out := .next (s.millMin (lc % 3))

/-- The compare that a duty gives: NaN gives 0 (R403). -/
def pwmCompare (d : Word) (period : Nat) : Nat :=
  match f32 (fmin (fmax d 0) f32One) with
  | .fin _ m e => rne (m * period) e
  | _ => 0

/-- The INT32 word of x × SCALE, half to even, saturating; a NaN leaves it open (R404). -/
def State.txConvert (s : State) (x scale : Word) : State × Word :=
  match fltMul (f32 x) (f32 scale) with
  | .nan => let (w, s) := s.fresh; (s, w)
  | .inf n => (s, if n then 0x80000000 else 0x7FFFFFFF)
  | .fin n m e =>
    let k := rne m e
    (s, if n then (if 2 ^ 31 ≤ k then 0x80000000 else w32 (2 ^ 32 - k)) else if 2 ^ 31 ≤ k then 0x7FFFFFFF else w32 k)

/-- MOUT: a PWM shadow or a transmit word takes L[A] at once; the time since the trigger is kept (R201, R389, R403). -/
def State.millMout (s : State) (lc : Nat) : State :=
  s.millStep lc 0xB1 fun s l x w =>
    let v := x.r (mA w)
    let i := mIdx w
    let s :=
      if mKind w = 0 then
        let s : State := { s with pwmShadow := SMap.insert i (pwmCompare v (s.pwmPeriod i)) (SMap.erase i s.pwmShadow) }
        if f32IsNaN v then s.inputFault l (mSel w) else s
      else
        let (s, v) := match s.txFrameOf i with
          | some f => if s.txInt f i then s.txConvert v (s.rd uMill (txOff f + 0x18)) else (s, v)
          | none => (s, v)
        s.txWrite l i v
    let t := s.nowNs - x.snap.trig
    some (((s.wr (wLoop l) 0x20 (w32 t)).maxTo (wLoop l) 0x24 t))

def execMout (lc : Nat) (s : State) : Out := .next (s.millMout (lc % 3))

def execFmak (lc : Nat) (s : State) : Out :=
  .next (s.millCalc (lc % 3) 0xB2 fun x w => x.put (mD w) (ffma (x.r (mA w)) (x.c (mK w)) (x.r (mB w))))
def execFma (lc : Nat) (s : State) : Out :=
  .next (s.millCalc (lc % 3) 0xB3 fun x w => x.put (mD w) (ffma (x.r (mA w)) (x.r (mB w)) (x.r (mE w))))
def execAdd (lc : Nat) (s : State) : Out :=
  .next (s.millCalc (lc % 3) 0xB4 fun x w => x.put (mD w) (fadd (x.r (mA w)) (x.r (mB w))))
def execSub (lc : Nat) (s : State) : Out :=
  .next (s.millCalc (lc % 3) 0xB5 fun x w => x.put (mD w) (fsub (x.r (mA w)) (x.r (mB w))))
def execMul (lc : Nat) (s : State) : Out :=
  .next (s.millCalc (lc % 3) 0xB6 fun x w => x.put (mD w) (fmul (x.r (mA w)) (x.r (mB w))))
def execClamp (lc : Nat) (s : State) : Out :=
  .next (s.millCalc (lc % 3) 0xB7 fun x w => x.put (mD w) (fmin (fmax (x.r (mA w)) (x.c (mK w))) (x.c (mK w + 1))))

/-- BIQ (R201). -/
def MillLoop.biq (x : MillLoop) (w : Dword) : MillLoop :=
  let k := mK w
  let e := mE w
  let u := x.r (mA w)
  let y := ffma (x.c k) u (x.r e)
  let e0 := ffma (x.c (k + 1)) u (ffma (fneg (x.c (k + 3))) y (x.r (e + 1)))
  let e1 := ffma (x.c (k + 2)) u (fmul (fneg (x.c (k + 4))) y)
  ((x.put e e0).put (e + 1) e1).put (mD w) y

def execBiq (lc : Nat) (s : State) : Out := .next (s.millCalc (lc % 3) 0xB8 MillLoop.biq)

/-- A chain of fma over pairs, starting from the first product (R203). -/
def fmaChain : List (Word × Word) → Word
  | [] => 0
  | (a, b) :: t => t.foldl (fun acc (c, d) => ffma c d acc) (fmul a b)

/-- SSTEP: the full form with A, B, C, D, or the companion form (R203). -/
def MillLoop.sstep (x : MillLoop) (w : Dword) : MillLoop :=
  let n := mOrder w
  let k := mK w
  let e := mE w
  let u := x.r (mA w)
  let st := (List.range n).map fun j => x.r (e + j)
  if mComp w then
    let b := fun j => x.c (k + j)
    let a := fun j => x.c (k + n + j)
    let y := ffma (b 0) u (nth st 0 0)
    let new := (List.range n).map fun j =>
      if j + 1 < n then ffma (b (j + 1)) u (ffma (fneg (a (j + 1))) y (nth st (j + 1) 0)) else ffma (b n) u (fmul (fneg (a n)) y)
    (x.puts e new).put (mD w) y
  else
    let y := fmaChain ((x.c (k + n * n + 2 * n), u) :: (List.range n).map fun j => (x.c (k + n * n + n + j), nth st j 0))
    let new := (List.range n).map fun i =>
      fmaChain (((List.range n).map fun j => (x.c (k + i * n + j), nth st j 0)) ++ [(x.c (k + n * n + i), u)])
    (x.puts e new).put (mD w) y

def execSstep (lc : Nat) (s : State) : Out := .next (s.millCalc (lc % 3) 0xB9 MillLoop.sstep)

/-- PID (R201). -/
def MillLoop.pid (x : MillLoop) (w : Dword) : MillLoop :=
  let k := mK w
  let st := mE w
  let e := x.r (mA w)
  let i := fmin (fmax (ffma (x.c (k + 1)) e (x.r st)) (x.c (k + 3))) (x.c (k + 4))
  let y := ffma (x.c (k + 2)) (fsub e (x.r (st + 1))) (ffma (x.c k) e i)
  ((x.put (mD w) y).put st i).put (st + 1) e

def execPid (lc : Nat) (s : State) : Out := .next (s.millCalc (lc % 3) 0xBA MillLoop.pid)

/-- OBS: the residual count; at its limit a plausibility fault (R201, R394). -/
def State.millObs (s : State) (lc : Nat) : State :=
  s.millStep lc 0xBB fun s l x w =>
    let big := flt (x.c (mK w)) (fabs (fsub (x.r (mA w)) (x.r (mB w))))
    let n := if big then min 255 (s.fld (wLoop l) 0x10 23 16 + 1) else 0
    let s := s.setFld (wLoop l) 0x10 23 16 n
    some (if big && n = bits w 7 0 then
      (((s.setFlag (wLoop l) 0x10 30 true).count uMill 0x218 1).wdReport 0x09 l 0).millEvent l 0x0018 l (n + (x.pos - 1) * 2 ^ 16)
    else s)

def execObs (lc : Nat) (s : State) : Out := .next (s.millObs (lc % 3))

/-- STREC: registers to the loop's state record, as initiator 0x048 (R201, R388). -/
def State.millStrec (s : State) (lc : Nat) : State :=
  s.millStep lc 0xBC fun s l x w =>
    let ws := (List.range (bits w 5 0 + 1)).map fun j => x.r (mA w + j)
    some (s.polWrite 0x48 (s.loopStateAddr l + 4 * bits w 19 12) (wordBytes ws)).1

def execStrec (lc : Nat) (s : State) : Out := .next (s.millStrec (lc % 3))

/-- NOP, MSIGNAL and MADD of a law, after every earlier STREC write is acknowledged; REL adds the sample number (R385, R388). A signal to a mark that has become a credit
mark is not made (R222). -/
def State.millMark (s : State) (lc op : Nat) : State :=
  s.millStep lc op fun s l _ w =>
    let m := bits w 47 32
    let v := if bit w 51 then (bits w 31 0 + (s.rd (wLoop l) 0x14).toNat) % 2 ^ 32 else bits w 31 0
    some (if op = 0x72 then (if s.isCreditMark m then s else s.markAfter 0x48 0 0x10000000 m false v)
      else if op = 0x73 then s.markAfter 0x48 0 0x10000000 m true v else s)

/-! ### Core faults (R409) -/

/-- Samples of a logical core that a takeover makes late: those begun or ready. -/
def State.lateOn (s : State) (lc : Nat) : Nat := ((s.coreLoops lc).filter fun l => (s.loop l).stage != 0).length

/-- The abandoned segment runs again from its snapshot: its registers are as they were before it. -/
def State.segRerun (s : State) (lc : Nat) : State :=
  match s.lcores.find? (·.1 = lc) with
  | none => s
  | some (_, l) =>
    let x := s.loop l
    s.setLoop l { x with work := x.lregs, pos := if x.stage = 3 then 0 else outLen (s.lawOf l) }

/-- A physical core is forced Out: the standby takes its logical core and reruns the segment, or it is lost; late: the late or
missed samples, where they are counted elsewhere than in the samples begun or ready. -/
def State.coreFault (s : State) (p : Nat) (late : Option Nat) : State :=
  let lcs := (List.range 3).filter fun c => s.coreOf c = p
  let spare := if s.flag uMill 0x204 8 then none else some (s.fld uMill 0x204 7 6)
  let s := (s.recordFault fPROC_FAULT (uMC p) 0x4A noQueue 0 0 0 0 oNone).forceOut (uMC p)
  lcs.foldl (fun s lc =>
    match spare with
    | some n =>
      if n = p then s
      else
        let late := late.getD (s.lateOn lc)
        let s := ((s.setFld uMill 0x204 (2 * lc + 1) (2 * lc) n).coreSync).segRerun lc
        let s : State := { s.setFlag uMill 0x200 31 true with takingOver := lc :: s.takingOver.filter (· != lc) }
        let s := (s.countF uMill 0x21C 15 0 1).wdReport 0x0C lc late
        s.millEvents (s.coreLoops lc) 0x001B lc (p + n * 2 ^ 8 + min late 65535 * 2 ^ 16)
    | none =>
      let s := (s.setFlag uMill 0x200 30 true).wdReport 0x0D lc 1
      let s := s.pwmSafe ((s.coreLoops lc).flatMap s.loopPwm)
      s.millEvents (s.coreLoops lc) 0x001C lc p) s

def execMillCoreFault (core late : Nat) (s : State) : Out := .next (s.coreFault (core % 4) (some late))

/-- A segment that runs past four times its step count forces its core Out. -/
def execMillSegmentOverrun (lc : Nat) (s : State) : Out :=
  .next (if s.lcores.any (·.1 = lc % 3) then s.coreFault (s.coreOf (lc % 3)) none else s)

end Sys2Proof.Machine
end

