-- ==== Sys2Proof/Machine/Pec.lean ====
section
/-! DEFINITION. The sequencer: decode, issue, units, order, completion (R171–R181, R187, R193–R199, R205, R282–R289). -/
namespace Sys2Proof.Machine

/-! ### Status registers (R99, R100, R132, R161) -/

/-- The begun instruction at the head of a unit's queue. -/
def CtxRun.current (r : CtxRun) (unit : Nat) : Option Issued :=
  match r.issued.find? (·.unit = unit) with
  | some i => if i.begun then some i else none
  | none => none

/-- TILE_STATUS of a tile that runs an instruction (R99). A Winograd product takes V in place of an E19 operand, one product per
handshake: not dual-lane (R114). PSADD has no dataflow code in R99 and shows 0b00 with BUSY set (DESIGN CHOICE,
notes/assumptions/197.md). -/
def tileStatus (i : Issued) (seq : Nat) : Nat :=
  let w := i.word
  let op := wOp w
  let flow := if op = 0x40 then 3 else if op = 0x22 then 0 else bits w 30 29
  let four := fun (lo : Nat) => fmt4bit (tdOf i.tds (w4 w lo)).fmt
  2 ^ 31 + flow * 2 ^ 29 + b2n (op = 0x20 && bit w 28) * 2 ^ 28 + b2n ((op = 0x20 || op = 0x21) && bit w 27) * 2 ^ 27 +
    b2n (op != 0x22 && !(op = 0x21 && (convOf i.cps).wino) && four 48 && four 44) * 2 ^ 26 + seq % 2 ^ 16

/-- The tiles that an instruction of the tile queue works on. -/
def Issued.tiles (i : Issued) : List Nat :=
  if wOp i.word = 0x40 then [(convOf i.cps).fbTile] else setIndices 8 (bits i.word 23 16)

/-- The status registers of a context's units follow its instructions. -/
def State.unitSync (s : State) (x : Ctx) : State :=
  let cls := s.ctxClusters x
  let s := cls.foldl (fun s c =>
    let runs := s.ctxs.filter fun r => (s.ctxClusters r.ctx).contains c
    let s := (List.range 9).foldl (fun s t =>
      let hit := runs.findSome? fun r => match r.current 4 with
        | some i => if i.tiles.any (fun k => s.tileOf r.ctx c k = t) then some (tileStatus i (eSeq r.entry)) else none
        | none => none
      s.wr (uTile c t) 0x100 (w32 (hit.getD 0))) s
    let busy := fun (u : Nat) => runs.any fun r => (r.current u).isSome
    let wait := runs.any fun r => match r.current 7 with
      | some i => (match i.wait with | .sources .. => true | _ => false)
      | none => false
    let seq := match runs.find? fun r => [5, 6, 7].any fun u => (r.current u).isSome with
      | some r => eSeq r.entry % 2 ^ 16
      | none => 0
    let s := s.wr (uVE c) 0x100
      (w32 (b2n (busy 5) * 2 ^ 31 + b2n (busy 6) * 2 ^ 30 + b2n (busy 7) * 2 ^ 29 + b2n wait * 2 ^ 28 + seq))
    s.setFlag (uTC c) 0x204 31 (!runs.isEmpty)) s
  match x with
  | .toe e => match s.run x with
    | some r =>
      let feed := match r.current 8 with | some i => i.wait = .feed && !(s.feedX e).on | none => false
      s.wr (uTE e) 0x100 (w32 (2 ^ 31 + b2n feed * 2 ^ 30 + eSeq r.entry % 2 ^ 16))
    | none => s.wr (uTE e) 0x100 0
  | _ => s

/-! ### Ending a command -/

/-- A fault found at decode: nothing further issues, an open lock passage is closed, what has been issued runs on
(R205). -/
def State.endRun (s : State) (x : Ctx) (code idx : Nat) : State :=
  ((s.dropLocks x).updRun x fun r =>
    if r.ended then r
    else { r with fault := code, faultAt := idx, ended := true, stall := none, lock := none }).dcSync x

/-- A unit's fault (R205, R562, R563): a class H fault stops every unit; another stops its own. A fault of a command
that has one already is recorded, no more. -/
def State.unitFault (s : State) (x : Ctx) (i : Issued) (code : Nat) : State :=
  let s := match s.run x with
    | some r => if r.ended then s.recordFault code (ctxUnit x) (ctxIni x) r.queue (eSeq r.entry) 0 i.idx 0 oNone else s
    | none => s
  if faultClass code = 2 then ((s.failRun x code i.idx).dcSync x).unitSync x
  else
    let s := s.endRun x code i.idx
    let s := if i.unit = 8 then s.feedClear x else s
    ((s.updRun x fun r => { r with
      spoilt := r.spoilt ++ (r.issued.filter (·.unit = i.unit)).flatMap (·.spoilt)
      issued := r.issued.filter (·.unit != i.unit) }).dcSync x).unitSync x

/-! ### Units (R173–R175) -/

/-- Members of a gang may take unstarted blocks of another's share of the instruction (R272). -/
def State.maySteal (s : State) (r : CtxRun) (i : Issued) : Bool :=
  ctxTarget r.ctx = 2 && s.flag uDevctl 0x400 1 && !r.sb && (wOp i.word = 0x20 || wOp i.word = 0x21) && bits i.word 15 14 ≤ 1

/-- The operation context of a member. -/
def CtxRun.op (s : State) (r : CtxRun) (i : Issued) (m : Nat × Nat) : OpCtx :=
  { ini := viaPort (s.unitPort r.ctx m.2 i.unit) (ctxIni r.ctx)
    u := match r.ctx with | .toe e => uTE e | _ => uTC m.2
    q := r.queue
    seq := eSeq r.entry
    idx := i.idx
    mem := m.1
    cl := m.2
    win := i.win
    thieves := if s.maySteal r i then ((s.runMembers r.ctx i.only).map (·.2)).filter (· != m.2) else [] }

/-- The context of a member's vector instruction. -/
def CtxRun.vec (s : State) (r : CtxRun) (i : Issued) (m : Nat × Nat) : VecCtx :=
  { CtxRun.op s r i m with tds := i.tds, sregs := i.sregs, w := i.word }

/-- The sources that an XREDUCE or MERGE has taken, in that order; what they have come to on a member. -/
def Issued.taken (i : Issued) : List Nat := (i.got.filter (·.1 < 8)).map (·.1)
def Issued.merged (i : Issued) (m : Nat) : List Byte := SMap.get (fun _ => []) (8 + m) i.got

/-- Run an instruction on one member. -/
def State.runOne (s : State) (r : CtxRun) (i : Issued) (m : Nat × Nat) : Ran :=
  let x := CtxRun.op s r i m
  let v := CtxRun.vec s r i m
  let bias := eBias r.entry
  match wOp i.word with
  | 0x20 => x.matmul s i.tds i.word r.acc
  | 0x21 => x.conv s i.tds i.cps i.rm bias i.word r.acc
  | 0x22 => x.psadd s i.tds i.word r.acc
  | 0x30 => v.elem s
  | 0x31 => v.elem s
  | 0x32 => v.reduce s
  | 0x33 => v.norm s
  | 0x34 => v.norm s
  | 0x35 => v.softmax s
  | 0x36 => v.mxquant s
  | 0x37 => v.sgd s
  | 0x38 => v.adam s
  | 0x39 => v.blksoftmax s
  | 0x3A => v.xreduce s i.taken.length (i.merged m.1)
  | 0x40 => x.dwconv s i.tds i.cps i.rm bias i.word (if i.unit = 4 then (convOf i.cps).fbTile else s.noTile)
  | 0x41 => x.pool s i.tds i.cps i.word
  | 0x50 => v.blkmerge s
  | 0x51 => v.mergeWrite s (i.merged m.1)
  | 0x52 => v.final s
  | _ => x.tconv s i.tds i.cps i.rm bias i.word

/-- Join the rows that members hold back, row by row. -/
def joinRows : List (List (Nat × List Byte)) → List (List (Nat × List Byte)) → List (List (Nat × List Byte))
  | [], b => b
  | a, [] => a
  | a :: s, b :: t => (a ++ b) :: joinRows s t

/-- Run an instruction on every member that runs it. -/
def State.runAll (s : State) (r : CtxRun) (i : Issued) : List (Nat × Nat) → Ran
  | [] => ⟨s, 0, [], [], none⟩
  | m :: t =>
    let a := s.runOne r i m
    let s := a.s.updRun r.ctx fun q => { q with
      acc := q.acc.filter (fun k => k.member != m.1 || i.unit != 4) ++ (match a.acc with | some k => [k] | none => []) }
    let b := s.runAll r i t
    ⟨b.s, orFault a.fault b.fault, a.undo ++ b.undo, joinRows a.held b.held, none⟩

/-- How many members run an instruction. -/
def State.memberCount (s : State) (x : Ctx) (only : Option Nat) : Nat := (s.runMembers x only).length

/-- The mark and value that a ring's row n waits for; always satisfied below the ring's size (R187). -/
def ringWait (rm : List Nat) (n : Nat) : Nat × Nat := (nth rm 2 0, (n + 1 + 2 ^ 32 - nth rm 3 0 % 2 ^ 32) % 2 ^ 32)

/-- The requester of an instruction's held-back rows: its unit on the first member that runs it. -/
def State.rowPort (s : State) (x : Ctx) (i : Issued) : Nat :=
  viaPort (s.unitPort x (((s.runMembers x i.only).head?.map (·.2)).getD 0) i.unit) (ctxIni x)

/-- Write rows of a ring until one has to wait, for its mark or at a sluice (R187, R231): the wait left, and a fault. -/
def State.ringStep (s : State) (x : Ctx) (i : Issued) (n : Nat) : List (List (Nat × List Byte)) → Bool → State × Waiting × Nat
  | [], _ => (s, .none, 0)
  | row :: t', sat =>
    let (m, v) := ringWait i.rm n
    if sat || n < nth i.rm 3 0 || markGe (s.mark m) v then
      let (t, c) := s.doWrites (s.rowPort x i) row
      if c = fSLUICE_WAIT then (s, .rows n (row :: t') m v true, 0)
      else if c != 0 then (t, .none, c)
      else
        let k := s.memberCount x i.only
        let s := (List.range k).foldl (fun s _ => s.addMark (nth i.rm 1 0) 1) t
        (s.updRun x fun r => { r with markDone := true }).ringStep x i (n + 1) t' false
    else (s, .rows n (row :: t') m v false, 0)

/-- A tile of the instruction runs on the spare. -/
def State.onSpare (s : State) (x : Ctx) (i : Issued) : Bool :=
  i.unit = 4 && (s.runMembers x i.only).any fun (_, c) => i.tiles.any fun t => s.tileOf x c t = 8

/-- A source is a ring position whose fingerprint, learnt at ring formation, differs from this part's (R289). -/
def State.otherFp (s : State) (p : Nat) : Bool :=
  s.exists? uRing && p != s.ringPos && p < s.ringNpos &&
    (s.rd uRing (0x210 + 8 * p)).toNat + 2 ^ 32 * (s.rd uRing (0x214 + 8 * p)).toNat != s.fingerprint s.sbActive

/-- The units whose stores an instruction works in, on every member (R81, R135, R128). -/
def State.workUnits (s : State) (x : Ctx) (i : Issued) : List Nat :=
  if i.unit = 8 then [ctxUnit x]
  else (s.runMembers x i.only).flatMap fun (_, c) =>
    if i.unit = 4 then i.tiles.map fun t => uTile c (s.tileOf x c t) else [uVE c]

/-- What a tile, vector, merge or toe instruction does when it begins, or when its last source has been taken: none while an
access of it waits at a sluice, with nothing done (R231). -/
def State.opTry (s : State) (x : Ctx) (r : CtxRun) (i : Issued) : Option State :=
  let s := (s.updRun x fun q => { q with spareUsed := q.spareUsed || s.onSpare x i }).disturb (s.workUnits x i)
  let a := s.runAll r i (s.runMembers x i.only)
  if a.fault = fSLUICE_WAIT then none
  else if a.fault != 0 then some (a.s.unitFault x i a.fault)
  else
    let (s, w, f) := a.s.ringStep x i (eBias r.entry) a.held false
    let s := s.setIssued x { i with begun := true, wait := w, undo := a.undo }
    some (if f != 0 then s.unitFault x i f else s.unitSync x)

/-- The same; the instruction stays as it is while it waits. -/
def State.opRun (s : State) (x : Ctx) (r : CtxRun) (i : Issued) : State := (s.opTry x r i).getD s

/-- A TCONV whose frame has come whole (R130). -/
def State.feedRun (s : State) (x : Ctx) (r : CtxRun) (i : Issued) : State :=
  match s.opTry x r i with
  | some t => (t.feedClear x).unitSync x
  | none => s

/-- The marks of an XREDUCE or MERGE: base and number (R189, R190). -/
def sourceMarks (w : Dword) (bias : Nat) : List (Nat × Nat) :=
  let (base, n) := if wOp w = 0x3A then (bits w 15 0, bits w 18 16 + 1) else (bits w 25 10, bits w 38 36 + 1)
  (List.range n).map fun i => ((base + i) % 65536, (bias + 1) % 2 ^ 32)

/-- The instruction takes its sources as they arrive: it asks for it, ARRIVAL_EN is 1, and the command does not run in
same-bits mode (R145, R272). -/
def State.arrivalOrder (s : State) (r : CtxRun) (w : Dword) : Bool :=
  (if wOp w = 0x3A then bit w 30 else bit w 39) && !r.sb && (s.ctxMembers r.ctx).all fun (_, c) => s.flag (uVE c) 0x104 0

/-- The source to take next: the lowest not taken, once its mark has come, or the first that arrived (R145, R158). -/
def nextSource (arrival : Bool) (n : Nat) (taken arrived : List Nat) : Option Nat :=
  if arrival then arrived.find? fun k => !taken.contains k
  else ((List.range n).find? fun k => !taken.contains k).bind fun k => if arrived.contains k then some k else none

/-- Take a source on each member: what each has come to by then, and the first fault. -/
def State.takeOn (s : State) (r : CtxRun) (i : Issued) (k : Nat) : List (Nat × Nat) → State × Issued × Nat
  | [] => (s, i, 0)
  | m :: t =>
    let l := (CtxRun.vec s r i m).takeSource s k (i.merged m.1)
    let late := (List.range k).any fun j => !i.taken.contains j
    let s := l.s.count (uVE m.2) 0x11C (b2n late)
    let (s, j, f) := s.takeOn r { i with got := SMap.set (fun _ => []) (8 + m.1) l.v i.got } k t
    (s, j, orFault l.fault f)

/-- Take the sources of an XREDUCE or MERGE that may be taken now; once the last has been, the instruction runs. A source at a
sluice that another holds is taken when it may be read. n: how many steps at most (R145, R158, R189, R231). -/
def State.takeSources (s : State) (x : Ctx) (unit : Nat) : Nat → State
  | 0 => s
  | n + 1 =>
    match s.run x with
    | none => s
    | some r => match r.current unit with
      | none => s
      | some i => match i.wait with
        | .sources ms left arrived =>
          if i.taken.length = ms.length then s.opRun x r { i with wait := .none }
          else match nextSource (s.arrivalOrder r i.word) ms.length i.taken arrived with
          | none => s.unitSync x
          | some k =>
            let out := (List.range k).any fun j => !i.taken.contains j
            let other := (wOp i.word = 0x51 || ctxTarget x != 2) && s.otherFp k
            let t := s.updRun x fun q => { q with reordered := q.reordered || out, fpMismatch := q.fpMismatch || other }
            let (t, j, f) := t.takeOn r i k (s.runMembers x i.only)
            let j := { j with got := j.got ++ [(k, [])] }
            if f = fSLUICE_WAIT then s.unitSync x
            else if f != 0 then t.unitFault x j f
            else (t.setIssued x { j with wait := .sources ms left arrived }).takeSources x unit n
        | _ => s

/-- Begin an instruction on its unit. -/
def State.beginOne (s : State) (x : Ctx) (r : CtxRun) (i : Issued) : State :=
  let op := wOp i.word
  if i.unit < 4 then
    let (s, f) := s.moveBegin x r i
    if f != 0 then s.unitFault x i f else s
  else if op = 0x3A || op = 0x51 then
    let ms := sourceMarks i.word (eBias r.entry)
    let now := (List.range ms.length).filter fun k => let (m, v) := nth ms k (0, 0); markGe (s.mark m) v
    let left := (List.range ms.length).filter fun k => !now.contains k
    (s.setIssued x { i with begun := true, wait := .sources ms left now }).takeSources x i.unit (ms.length + 2)
  else if op = 0x60 && bit i.word 30 then (s.setIssued x { i with begun := true, wait := .feed }).unitSync x
  else s.opRun x r i

/-- Begin what the units of a list can begin: the head of each queue, when it has not begun (R173). -/
def State.beginUnits (s : State) (x : Ctx) : List Nat → State
  | [] => s
  | u :: t =>
    match s.run x with
    | none => s
    | some r =>
      match r.issued.find? (·.unit = u) with
      | some i => if i.begun then s.beginUnits x t else (s.beginOne x r i).beginUnits x t
      | none => s.beginUnits x t

/-! ### Issue (R126, R173, R174, R187) -/

/-- The unit of an instruction: its FENCE bit. -/
def unitOf (w : Dword) : Nat :=
  match wOp w / 16 with
  | 1 => bits w 43 42
  | 2 => 4
  | 3 => 5
  | 4 => 6
  | 5 => 7
  | _ => 8

/-- The depth-wise unit of every member is free: one path for all of a gang (R126; DESIGN CHOICE, notes/assumptions/205.md). -/
def State.dwFree (s : State) (x : Ctx) (only : Option Nat) : Bool :=
  (s.runMembers x only).all fun (_, c) =>
    s.ctxs.all fun r => !(s.ctxClusters r.ctx).contains c || r.issued.all (·.unit != 6)

/-- The unit that takes the instruction now: a DWCONV may go to its fallback tile (R126). -/
def State.chooseUnit (s : State) (r : CtxRun) (w : Dword) : Nat :=
  let c := convOf r.cps
  if wOp w = 0x40 && c.fbEn && (!c.unitOk || !s.dwFree r.ctx r.only) then 4 else unitOf w

/-- The burst length that an instruction takes (R195). -/
def burstOf (bursts : List (List Nat)) (unit : Nat) : List Nat :=
  let k := if unit < 4 then 0 else if unit = 4 then 1 else if unit = 8 then 3 else 2
  bursts.map fun b => nth b k 16

/-- What a tile instruction leaves to pair with, by member (R184). -/
def State.newPairs (s : State) (r : CtxRun) (w : Dword) : List (Nat × TilePair) :=
  let mem := s.runMembers r.ctx r.only
  let rest := r.pairs.filter fun p => !mem.any (·.1 = p.1)
  let keep := (wOp w = 0x20 || wOp w = 0x21) && bit w 25
  if !keep then rest
  else
    let (m, width, n) := if wOp w = 0x20 then
        let (m, _, _, n) := matDims w (tdOf r.tds (w4 w 48)) (tdOf r.tds (w4 w 44)); (m, 1, n)
      else let c := convOf r.cps; (c.outH * c.outW, c.outW, c.cout)
    rest ++ mem.map fun (i, _) => (i, tilePair w m width n r.win)

/-- Issue a word to its unit's queue, or stall while that is full. idx: its index. -/
def State.issueWord (s : State) (r : CtxRun) (w : Dword) (idx : Nat) : State :=
  let x := r.ctx
  let u := s.chooseUnit r w
  if 4 ≤ (r.issued.filter (·.unit = u)).length then s.updRun x fun q => { q with stall := some (.full w) }
  else
    let ring := wOp w = 0x21 || wOp w = 0x40 || wOp w = 0x60
    let i : Issued :=
      { unit := u, word := w, idx := idx, tds := r.tds, win := r.win, cps := r.cps, sregs := r.sregs, only := r.only
        rm := if ring then r.rm else [0, 0, 0, 0]
        lock := r.lock, burst := burstOf r.bursts u, begun := false, wait := .none, left := [], got := [], wrote := [], undo := [] }
    let s := if wOp w = 0x40 && u = 4 then
        (s.runMembers x r.only).foldl (fun s (_, c) => s.count (uVE c) 0x134 1) s else s
    let pairs := if u = 4 then s.newPairs r w else r.pairs
    let s := s.updRun x fun q => { q with
      issued := q.issued ++ [i], stall := none, only := none, pairs := pairs
      rm := if ring then setNth q.rm 0 0 else q.rm }
    let s := if u < 4 then (s.moveIssue x i).dcSync x else s
    s.beginUnits x [u]

/-! ### Instructions that order the context (R176, R193, R199) -/

/-- Every earlier instruction of the context has completed. -/
def State.quiet (s : State) (r : CtxRun) : Bool := r.issued.isEmpty && !s.inFlight r.ctx none

/-- The queue's weights digest, whether a folded parcel is STALE, whether none was folded (R285). -/
def State.queueWd (s : State) (q : Nat) : List Byte × Bool × Bool :=
  let ps := s.validParcels.filter fun p => s.pclKind p = 1 && s.pclQueue p = q && s.wdValid p
  (ps.foldl (fun w p => sha3 (w ++ s.wdDigest p)) (List.replicate 32 0), ps.any s.wdStale, ps.isEmpty)

/-- The input digest of a member (R282). -/
def CtxRun.inputDigest (r : CtxRun) (m : Nat) : List Byte :=
  ((r.input.filter (·.member = m)).mergeSort fun a b => a.idx ≤ b.idx).foldl
    (fun d f => sha3 (d ++ natBytes 4 f.idx ++ natBytes 4 f.n ++ f.digest)) (List.replicate 32 0)

/-- The 64 bytes of a rind (R287–R289). -/
def State.rind (s : State) (r : CtxRun) (w : Dword) (m : Nat) : List Byte :=
  let (wd, stale, none_) := s.queueWd r.queue
  let fp := natBytes 8 (s.fingerprint r.sb)
  let prog := wordBytes (r.hdr.drop 8)
  let flags := b2n r.sb + b2n r.spareUsed * 2 + b2n stale * 4 + b2n none_ * 8 + b2n r.fpMismatch * 16 + b2n r.reordered * 32 +
    b2n r.partialIn * 64 + b2n (r.restarts != 0) * 128 + m % 8 * 2 ^ 16 + min (SMap.get (fun _ => 0) m r.remits) 255 * 2 ^ 24
  sha3 (prog ++ wd ++ r.inputDigest m ++ fp) ++ fp ++ natBytes 4 (eSeq r.entry) ++ natBytes 4 r.queue ++ natBytes 4 s.gaugeNs ++
    natBytes 6 s.gaugeS ++ natBytes 2 (bits w 15 0) ++ natBytes 4 flags

/-- REMIT on each member (R199, R280): the rind, then the input digest as it asks. -/
def State.remitAll (s : State) (r : CtxRun) (w : Dword) : List (Nat × Nat) → State × Nat
  | [] => (s, 0)
  | (m, cl) :: t =>
    let (s, c) := s.polWrite (viaPort (s.unitPort r.ctx cl 9) (ctxIni r.ctx)) ((tdOf r.tds (w4 w 48)).member m).addr (s.rind r w m)
    if c != 0 then (s, c)
    else
      let s := (s.countWide uDevctl 0x414 1).updRun r.ctx fun q => { q with
        remits := SMap.set (fun _ => 0) m (SMap.get (fun _ => 0) m q.remits + 1) q.remits
        remitted := true
        input := if bit w 16 then q.input.filter (·.member != m) else q.input }
      s.remitAll r w t

/-- VALUE, or VALUE + BIAS (R167, R193). -/
def relValue (r : CtxRun) (w : Dword) : Nat := if bit w 51 then (bits w 31 0 + eBias r.entry) % 2 ^ 32 else bits w 31 0

/-- Do an instruction that orders the context: its effect on every member that runs it. -/
def State.orderDo (s : State) (r : CtxRun) (w : Dword) (idx : Nat) : State :=
  let x := r.ctx
  let m := bits w 47 32
  let mem := s.runMembers x r.only
  let done := fun (s : State) => s.updRun x fun q => { q with stall := none, only := none }
  let marked := fun (s : State) => done (s.updRun x fun q => { q with markDone := true })
  match wOp w with
  | 0x72 =>
    if s.isCreditMark m then s.endRun x fMARK_DENIED idx
    else marked (mem.foldl (fun s _ => s.signalMark m (relValue r w)) s)
  | 0x73 => marked (mem.foldl (fun s _ => s.addMark m (bits w 31 0)) s)
  | 0xA0 =>
    let s := s.flushFolds x true
    let (t, c) := s.remitAll r w mem
    if c = fSLUICE_WAIT then s.updRun x fun q => { q with stall := some (.order w) }
    else if c != 0 then t.endRun x c idx
    else (fun s => done (s.updRun x fun q => { q with partialIn := q.partialIn || bit w 16 })) t
  | op =>
    let pos := bits w 50 48
    if !s.windowOpen pos then (s.addrError (ctxIni x) (0x20000000000 + pos * 0x10000000000)).endRun x fREMOTE_DENIED idx
    else done (mem.foldl (fun s _ => s.transact (if op = 0x74 then 2 else 3) pos (ctxIni x) (some x) 9 idx [m, relValue r w] []) s)

/-! ### Resuming (R173–R176) -/

/-- The reason for which issue stalls is gone: issue goes on. -/
def State.resume (s : State) (x : Ctx) : State :=
  match s.run x with
  | none => s
  | some r =>
    match r.stall with
    | some (.full w) =>
      if (r.issued.filter (·.unit = s.chooseUnit r w)).length < 4 then s.issueWord r w (r.pos - 1) else s
    | some (.order w) => if s.quiet r then s.orderDo r w (r.pos - 1) else s
    | some (.fence mask) =>
      if r.issued.any fun i => mask / 2 ^ i.unit % 2 = 1 then s
      else s.updRun x fun q => { q with stall := none }
    | _ => s

/-- Go on with rows of a ring whose wait is satisfied (R187). -/
def State.rowsOn (s : State) (x : Ctx) (i : Issued) (n : Nat) (left : List (List (Nat × List Byte))) : State :=
  let (s, w, f) := s.ringStep x i n left true
  if f != 0 then s.unitFault x i f else (s.setIssued x { i with wait := w }).unitSync x

/-- The instruction at the head of a unit's queue tries again what waits at a sluice (R226, R227, R231). -/
def State.retryUnit (s : State) (x : Ctx) (unit : Nat) : State :=
  match s.run x with
  | none => s
  | some r => match r.issued.find? (·.unit = unit) with
    | none => s
    | some i =>
      if !i.begun then s.beginOne x r i
      else match i.wait with
        | .sluice =>
          let (s, f) := s.moveStep x r { i with wait := .none }
          if f != 0 then s.unitFault x i f else s
        | .sources ms _ _ => s.takeSources x unit (ms.length + 2)
        | .rows n left _ _ true => s.rowsOn x i n left
        | .feed => match x with
          | .toe e => if (s.feedX e).on && (convOf i.cps).h ≤ (s.feedX e).lines.length then s.feedRun x r i else s
          | _ => s
        | _ => s

/-- Every command tries again what waits at a sluice. -/
def State.retryAll (s : State) : State :=
  (s.ctxs.map (·.ctx)).foldl (fun s x =>
    (((span 0 9).foldl (fun s u => s.retryUnit x u) s).resume x).dcSync x) s

/-! ### Decode and issue of the next word -/

/-- The burst lengths that a BRKSET sets: culvert channels, tiles, vector and merge units, toe engine (R195). -/
def brkLengths (w : Dword) : List Nat := [bits w 3 0 + 1, bits w 7 4 + 1, bits w 11 8 + 1, bits w 15 12 + 1]

/-- What a parameter instruction does to a context (R179, R185, R195): a word of another class changes nothing. -/
def paramApply (w : Dword) (r : CtxRun) : CtxRun :=
  let i := w4 w 48
  let td := fun (f : TD → TD) => { r with tds := setNth r.tds i (f (tdOf r.tds i)) }
  match wOp w with
  | 0x02 => td fun d => { d with addr := bits w 47 0 }
  | 0x03 => td fun d => { d with
      fmt := bits w 3 0, zp := bits w 15 8, scaled := bit w 16, scaleT := bit w 17, tag0 := bits w 23 18 }
  | 0x04 => td fun d => { d with rowStride := bits w 31 0, pixStride := bits w 47 32 }
  | 0x05 => td fun d => { d with scaleAddr := bits w 47 0 }
  | 0x06 => td fun d => { d with rows := bits w 23 0, cols := bits w 47 24 }
  | 0x07 => td fun d => { d with memberStride := bits w 31 0 }
  | 0x08 => { r with win := sext 10 (bits w 9 0) }
  | 0x09 => { r with cps := setNth r.cps i (bits w 47 0) }
  | 0x0A => { r with sregs := setNth r.sregs i (w32 (bits w 31 0)) }
  | 0x0C => { r with only := some (bits w 5 0) }
  | 0x0D => { r with rm := [b2n (bit w 51), bits w 47 32, bits w 31 16, bits w 15 0] }
  | 0x80 => { r with
      bursts := r.bursts.zipIdx.map fun (b, m) => if runsOn r.only m then brkLengths w else b
      only := none }
  | _ => r

/-- The next word of a context goes past the sequencer with one check of decode; act: what it does. A word whose opcode
is another row's is left for that row; a word of no row, or of a row of the Mill, which no other target may hold, ends the
command at any (R171, R172). -/
def State.decodeStep (s : State) (x : Ctx) (op : Nat) (act : State → CtxRun → Dword → Nat → State) : State :=
  match s.run x with
  | none => s
  | some r =>
    if x.isMill || r.ended || r.stall.isSome || r.code.length ≤ r.pos then s
    else
      let w := nth r.code r.pos 0
      if wOp w != op && opcodes.contains (wOp w) && wOp w / 16 != 0xB then s
      else
        let q := (s.slot r.queue).map (·.words)
        let f := s.decodeFault r (some (q.getD [])) (eRind r.entry) w
        if f != 0 then
          let s := if f = fPARCEL_DENIED then s.polderDeny (ctxIni x) (tdOf r.tds (w4 w 48)).addr true else s
          s.endRun x f r.pos
        else act (s.updRun x fun q => { q with pos := q.pos + 1 }) r w r.pos

/-- A unit instruction. -/
def State.unitStep (s : State) (x : Ctx) (op : Nat) : State :=
  s.decodeStep x op fun s r w idx => s.issueWord r w idx

/-- A parameter instruction. -/
def State.paramStep (s : State) (x : Ctx) (op : Nat) : State :=
  s.decodeStep x op fun s _ w _ => s.updRun x (paramApply w)

/-- An instruction that waits for the context to be quiet. -/
def State.orderStep (s : State) (x : Ctx) (op : Nat) : State :=
  s.decodeStep x op fun s r w idx =>
    if s.quiet r then s.orderDo r w idx else s.updRun x fun q => { q with stall := some (.order w) }

/-- A mark wait in issue (R194). -/
def State.waitStep (s : State) (x : Ctx) (op : Nat) (eq : Bool) : State :=
  s.decodeStep x op fun s r w _ =>
    let m := bits w 47 32
    let v := relValue r w
    if markOk (s.mark m) v eq then s else s.updRun x fun q => { q with stall := some (.mark m v eq false) }

end Sys2Proof.Machine
end

