-- ==== Sys2Proof/Machine/PecRows.lean ====
section
/-! DEFINITION. The instructions of Phoek Engine Code for a cluster, gang or toe engine: each row takes the next word
of a context when it is that instruction (R171–R199). -/
namespace Sys2Proof.Machine

/-! ### Parameters and order (R179, R185, R195) -/

/-- An instruction that a law may hold too: on a logical core of the Mill, act; elsewhere, the sequencer (R172, R385). -/
def State.lawOr (s : State) (x : Ctx) (op : Nat) (other : State) : State :=
  match x with
  | .mill lc => s.millMark lc op
  | _ => other

def execNop (x : Ctx) (s : State) : Out := .next (s.lawOr x 0x00 (s.decodeStep x 0x00 fun s _ _ _ => s))
def execTdaddr (x : Ctx) (s : State) : Out := .next (s.paramStep x 0x02)
def execTdfmt (x : Ctx) (s : State) : Out := .next (s.paramStep x 0x03)
def execTdstride (x : Ctx) (s : State) : Out := .next (s.paramStep x 0x04)
def execTdscale (x : Ctx) (s : State) : Out := .next (s.paramStep x 0x05)
def execTddim (x : Ctx) (s : State) : Out := .next (s.paramStep x 0x06)
def execTdmemb (x : Ctx) (s : State) : Out := .next (s.paramStep x 0x07)
def execWinset (x : Ctx) (s : State) : Out := .next (s.paramStep x 0x08)
def execCpset (x : Ctx) (s : State) : Out := .next (s.paramStep x 0x09)
def execSset (x : Ctx) (s : State) : Out := .next (s.paramStep x 0x0A)
def execOnly (x : Ctx) (s : State) : Out := .next (s.paramStep x 0x0C)
def execRmset (x : Ctx) (s : State) : Out := .next (s.paramStep x 0x0D)
def execBrkset (x : Ctx) (s : State) : Out := .next (s.paramStep x 0x80)

/-- FENCE: issue stalls until every earlier instruction on the units of the mask has completed (R175). -/
def State.fenceStep (s : State) (x : Ctx) : State :=
  s.decodeStep x 0x0B fun s _ w _ =>
    (s.updRun x fun q => { q with stall := some (.fence (bits w 8 0)) }).resume x

def execFence (x : Ctx) (s : State) : Out := .next (s.fenceStep x)

/-! ### Units -/

def execMove (x : Ctx) (s : State) : Out := .next (s.unitStep x 0x10)
def execMove2d (x : Ctx) (s : State) : Out := .next (s.unitStep x 0x11)
def execFill (x : Ctx) (s : State) : Out := .next (s.unitStep x 0x12)
def execScaletag (x : Ctx) (s : State) : Out := .next (s.unitStep x 0x13)
def execPages (x : Ctx) (s : State) : Out := .next (s.unitStep x 0x14)
def execMatmul (x : Ctx) (s : State) : Out := .next (s.unitStep x 0x20)
def execConv (x : Ctx) (s : State) : Out := .next (s.unitStep x 0x21)
def execPsadd (x : Ctx) (s : State) : Out := .next (s.unitStep x 0x22)
def execElem (x : Ctx) (s : State) : Out := .next (s.unitStep x 0x30)
def execSpecial (x : Ctx) (s : State) : Out := .next (s.unitStep x 0x31)
def execReduce (x : Ctx) (s : State) : Out := .next (s.unitStep x 0x32)
def execLnorm (x : Ctx) (s : State) : Out := .next (s.unitStep x 0x33)
def execRmsnorm (x : Ctx) (s : State) : Out := .next (s.unitStep x 0x34)
def execSoftmax (x : Ctx) (s : State) : Out := .next (s.unitStep x 0x35)
def execMxquant (x : Ctx) (s : State) : Out := .next (s.unitStep x 0x36)
def execSgd (x : Ctx) (s : State) : Out := .next (s.unitStep x 0x37)
def execAdam (x : Ctx) (s : State) : Out := .next (s.unitStep x 0x38)
def execBlksoftmax (x : Ctx) (s : State) : Out := .next (s.unitStep x 0x39)
def execXreduce (x : Ctx) (s : State) : Out := .next (s.unitStep x 0x3A)
def execDwconv (x : Ctx) (s : State) : Out := .next (s.unitStep x 0x40)
def execPool (x : Ctx) (s : State) : Out := .next (s.unitStep x 0x41)
def execBlkmerge (x : Ctx) (s : State) : Out := .next (s.unitStep x 0x50)
def execMerge (x : Ctx) (s : State) : Out := .next (s.unitStep x 0x51)
def execFinal (x : Ctx) (s : State) : Out := .next (s.unitStep x 0x52)
def execTconv (x : Ctx) (s : State) : Out := .next (s.unitStep x 0x60)

/-! ### Marks and rinds (R176, R193, R194, R199) -/

def execMwaitge (x : Ctx) (s : State) : Out := .next (s.waitStep x 0x70 false)
def execMwaiteq (x : Ctx) (s : State) : Out := .next (s.waitStep x 0x71 true)
def execMsignal (x : Ctx) (s : State) : Out := .next (s.lawOr x 0x72 (s.orderStep x 0x72))
def execMadd (x : Ctx) (s : State) : Out := .next (s.lawOr x 0x73 (s.orderStep x 0x73))
def execMsignalr (x : Ctx) (s : State) : Out := .next (s.orderStep x 0x74)
def execMaddr (x : Ctx) (s : State) : Out := .next (s.orderStep x 0x75)
def execRemit (x : Ctx) (s : State) : Out := .next (s.orderStep x 0xA0)

/-! ### Lock passages (R196–R198, R226, R227) -/

/-- LOPEN asks for the banks of each member's range and waits; its request wakes a sleeping group (R198, R238). -/
def State.lopen (s : State) (x : Ctx) : State :=
  s.decodeStep x 0x90 fun s r w _ =>
    let n := bits w 12 0
    let req := w4 w 44
    let mem := (s.runMembers x r.only).map fun (i, c) => (i, c, ((tdOf r.tds (w4 w 48)).member i).addr)
    let locks := mem.map fun (_, c, a) =>
      let bs := ((banksOf a n).eraseDups).mergeSort fun p q => s.phys p ≤ s.phys q
      (⟨x, ctxIni x, a, n, req, bs, 0, false, s.unitPort x c (if req < 4 then req else 5), []⟩ : LockX)
    let s : State := { s with locks := s.locks ++ locks }
    let s := s.updRun x fun q => { q with
      lock := some ⟨mem.map fun (i, _, a) => (i, a, n), req⟩, stall := some .lock, only := none }
    let asleep := (locks.flatMap fun (l : LockX) => l.banks.map s.groupOf).eraseDups.filter fun g => s.flag (uBG g) 0x100 31
    (asleep.foldl (fun s g => s.setFlag (uBG g) 0x100 30 true) s.lockSync).dcSync x

def execLopen (x : Ctx) (s : State) : Out := .next (s.lopen x)

/-- Every bank of the opening at the lock arbiter is reserved: the passage opens; the command goes on when every member's has
(R226). -/
def State.lockOpen (s : State) (x : Ctx) : State :=
  match s.locks.find? fun l => !l.isOpen with
  | none => s
  | some l =>
    if l.ctx != x || l.reserved < l.banks.length then s
    else
      let s : State := { s with locks := updFirst (fun k => !k.isOpen) (fun k => { k with isOpen := true, old := s.bytes k.first k.len }) s.locks }
      let s := l.banks.foldl (fun s b => s.setBank b { s.bank b with st := .locked, holder := some (l.port, l.ini) }) s
      let s := if s.locks.any fun k => k.ctx = x && !k.isOpen then s else s.updRun x fun q => { q with stall := none }
      s.lockSync.dcSync x

def execLockPassageOpen (x : Ctx) (s : State) : Out := .next (s.lockOpen x)

/-- LCLOSE: every bank returns at once (R227). -/
def State.lclose (s : State) (x : Ctx) : State :=
  s.decodeStep x 0x91 fun s _ _ _ =>
    ((s.dropLocks x).updRun x fun q => { q with lock := none, only := none }).dcSync x

def execLclose (x : Ctx) (s : State) : Out := .next (s.lclose x)

/-! ### Completion (R173, R175, R176) -/

/-- What an instruction's completion counts, with what the environment measured, for each member k of those that ran it:
handshakes and blocks of its tile t at 9k + t, port bytes and stalled handshakes at k; handshakes of a vector engine at k, of
a toe engine at 0 (R99–R101, R132, R161, R242). -/
def State.countDone (s : State) (x : Ctx) (i : Issued) (hs blocks bytes stalls : List Nat) : State :=
  let mem := s.runMembers x i.only
  let seats := (List.range mem.length).zip (mem.map (·.2))
  if i.unit < 4 then mem.foldl (fun s (_, c) => s.count (s.culvertOf x c) 0x114 1) s
  else if i.unit = 4 then
    let s := seats.foldl (fun s (k, c) =>
      let s := i.tiles.foldl (fun s t =>
        let u := uTile c (s.tileOf x c t)
        (s.countWide u 0x108 (nth hs (9 * k + t) 0)).count u 0x110 (nth blocks (9 * k + t) 0)) s
      (s.countWide (uTC c) 0x210 (nth bytes k 0)).count (uTC c) 0x218 (nth stalls k 0)) s
    if ctxTarget x = 2 && wOp i.word != 0x22 && wOp i.word != 0x40 && bit i.word 24 && !bit i.word 25 then
      let c := convOf i.cps
      let (m, _, _, n) := matDims i.word (tdOf i.tds (w4 i.word 48)) (tdOf i.tds (w4 i.word 44))
      s.count (ctxUnit x) 0x20C (mem.length * (if wOp i.word = 0x20 then m * n else c.outH * c.outW * c.cout))
    else s
  else if i.unit < 8 then
    seats.foldl (fun s (k, c) =>
      let u := uVE c
      let n := nth hs k 0
      let s := if i.unit = 5 then s.countWide u 0x10C n else s
      ((s.count u 0x114 1).wr u 0x12C (w32 (cap32 n))).maxTo u 0x130 (cap32 n)) s
  else if i.unit = 8 then
    let c := convOf i.cps
    (s.countWide (ctxUnit x) 0x114 (nth hs 0 0)).count (ctxUnit x) 0x11C (c.outH * ceilDiv c.outW 256 * ceilDiv c.cout 16)
  else s

/-- A unit finishes the instruction at the head of its queue, with every write acknowledged: the next one begins, and
issue goes on where it waited (R175). -/
def State.instrDone (s : State) (x : Ctx) (unit : Nat) (hs blocks bytes stalls : List Nat) : State :=
  match s.run x with
  | none => s
  | some r =>
    match r.current unit with
    | none => s
    | some i =>
      if i.wait != .none || !i.left.isEmpty || s.inFlight x (some i.idx) then s
      else
        let s := s.updRun x fun q => { q with issued := q.issued.filter fun j => !(j.unit = unit && j.idx = i.idx) }
        let s := (s.countDone x i hs blocks bytes stalls).flushFolds x false
        (((s.beginUnits x [unit]).resume x).dcSync x).unitSync x

def execInstructionComplete (x : Ctx) (unit : Nat) (hs blocks bytes stalls : List Nat) (s : State) : Out :=
  .next (s.instrDone x unit hs blocks bytes stalls)

/-- A satisfied wait resumes its waiter: issue (unit 9), or the unit whose instruction waits (R158, R187, R194). -/
def State.waitDone (s : State) (x : Ctx) (unit : Nat) : State :=
  match s.run x with
  | none => s
  | some r =>
    if unit = 9 then
      match r.stall with
      | some (.mark _ _ _ true) => s.updRun x fun q => { q with stall := none }
      | _ => s
    else match r.current unit with
      | none => s
      | some i => match i.wait with
        | .sources ms _ _ => s.takeSources x unit (ms.length + 2)
        | .rows n left _ _ true => s.rowsOn x i n left
        | _ => s

def execMarkWaitSatisfied (x : Ctx) (unit : Nat) (s : State) : Out := .next (s.waitDone x unit)

end Sys2Proof.Machine
end

