-- ==== Sys2Proof/Machine/WardenCore.lean ====
section
/-! DEFINITION. The Warden's states, reactions and decision passes, supervised tasks (R418–R426, R439–R446, R451, R460). -/
namespace Sys2Proof.Machine

def WD_LOCKED : Nat := 0x0190
def ARM_REFUSED : Nat := 0x0191
def TAPS_FULL : Nat := 0x0192
def WRONG_STATE : Nat := 0x0010
def NOT_CLEAN : Nat := 0x0011
def REQUESTER : Nat := 0x0012
def CHECK_FAILING : Nat := 0x0013

/-! ### State and events -/

/-- 0 START, 1 SERVICE, 2 RECOVERY, 3 SAFE, 4 TEST. -/
def State.wdState (s : State) : Nat := s.fld uWarden 0x200 31 29
def State.cleanN (s : State) : Nat := s.fld uWarden 0x20C 23 16

/-- Mirror an event of the Warden to the supervisory mailbox (R499). -/
def State.mirror (s : State) (code d0 d1 : Nat) : State :=
  let t := s.fld wSdioF1 0x20 5 0
  if (t + 1) % 64 = s.fld wSdioF1 0x1C 5 0 then s.count wSdioF1 0x28 1
  else
    let ws := s.eventWords code uWarden noQueue 0 d0 d1 s.wd.mirPhase
    let s := (ws.zipIdx).foldl (fun (s : State) (w, k) => s.wr wSdioF1 (0x1000 + 32 * t + 4 * k) w) s
    let s := s.wr wSdioF1 0x20 (w32 ((t + 1) % 64))
    (if t = 63 then s.setWdX fun x => { x with mirPhase := !x.mirPhase } else s).supInt 0

/-- An event of the Warden: to WD_CLIENT, and mirrored. -/
def State.wdEvent (s : State) (code d0 d1 : Nat) : State :=
  (s.post (s.fld uWarden 0x24C 11 0) code uWarden noQueue 0 d0 d1).mirror code d0 d1

/-! ### The recovery task (R443) -/

/-- The recovery task closes. -/
def State.closeRecovery (s : State) : State :=
  match s.wd.recTask with
  | some t => (s.closeTask t).setWdX fun x => { x with recTask := none }
  | none => s

/-- Entry to RECOVERY opens the recovery task (R443). -/
def State.openRecovery (s : State) : State :=
  let (s, t) := s.openTask 2 5 (1000 * s.fld uWarden 0x20C 15 0)
  s.setWdX fun x => { x with recTask := t }

/-- The state changes: WD_CAUSE and WARDEN_STATE (R440, R458, R460). -/
def State.wdGo (s : State) (new check unit : Nat) : State :=
  let old := s.wdState
  if old = new then s
  else
    let s := s.setFld uWarden 0x200 31 29 new
    let s := s.wr uWarden 0x208 (w32 (check % 256 * 2 ^ 24 + old * 2 ^ 21 + new * 2 ^ 18 + unit % 2 ^ 13))
    let s := if old = 2 then s.closeRecovery else s
    s.wdEvent 0x0021 old new

/-! ### Checks (R424, R425) -/

def checkOff (n : Nat) : Nat := 0x300 + 4 * n
def State.checkReact (s : State) (n : Nat) : Nat := s.fld uWarden (checkOff n) 31 30
def State.checkEn (s : State) (n : Nat) : Bool := s.flag uWarden (checkOff n) 29

/-- Enabled checks that fail for as long as their condition lasts, now: a disabled one changes nothing (R425). -/
def State.failingNow (s : State) : List (Nat × Nat) :=
  (s.wd.failing ++ (if s.flag uMill 0x200 30 then ((List.range 3).filter fun c => !s.coreRuns c).map (0x0D, ·) else [])).filter
    fun c => s.checkEn c.1

/-- A lasting check starts to fail for an item, or stops. -/
def State.startFailing (s : State) (check item : Nat) : State :=
  s.setWdX fun x => { x with failing := (check, item) :: x.failing.filter (· != (check, item)) }
def State.stopFailing (s : State) (check item : Nat) : State :=
  s.setWdX fun x => { x with failing := x.failing.filter (· != (check, item)) }

/-- A failure that the Warden found itself; groups: those of the words concerned. -/
def State.wdFind (s : State) (check item groups : Nat) : State := s.setWdX fun x => { x with found := x.found ++ [⟨check, item, groups⟩] }

/-- A mask of groups from loops. -/
def State.groupsOfLoops (s : State) (ls : List Nat) : Nat := ls.foldl (fun m l => m ||| 2 ^ s.loopGroup l) 0

/-- The groups that a failure acts on. -/
def State.checkGroups (s : State) (f : WdReport) : Nat :=
  let g := s.fld uWarden (checkOff f.check) 23 16
  let own := match f.check with
    | 0x01 => f.value | 0x02 => f.value
    | 0x09 => s.groupsOfLoops [f.item] | 0x0A => s.groupsOfLoops [f.item] | 0x0B => s.groupsOfLoops [f.item]
    | 0x0C => s.groupsOfLoops (s.coreLoops f.item) | 0x0D => s.groupsOfLoops (s.coreLoops f.item)
    | _ => 0
  if g != 0 then g else if own != 0 then own else 0xFF

/-- The unit that a failure concerns. -/
def checkUnit (f : WdReport) : Nat :=
  match f.check with
  | 0x09 => uMill | 0x0A => uMill | 0x0B => uMill | 0x0C => uMill | 0x0D => uMill
  | 0x0E => uPP (f.item % 16) | 0x0F => uPP (f.item % 16)
  | 0x10 => f.item | 0x14 => f.item | 0x15 => f.item | 0x16 => f.item
  | 0x11 => uSdio
  | _ => uWarden

def envOff (w : Nat) : Nat := 0x4000 + 16 * w
/-- What a report of a gate word names: its index, and its KIND where its entry has it (R428, R460) (DESIGN CHOICE, notes/assumptions/222.md). -/
def State.wordDetail (s : State) (w : Nat) : Nat := w + s.fld uWarden (envOff w + 12) 30 29 * 2 ^ 29

/-- Count and report a failure (R425, R426, R458). -/
def State.noteFailure (s : State) (f : WdReport) : State :=
  let s := s.countF uWarden (checkOff f.check) 15 0 1
  let s := (s.count uWarden 0x238 1).setFld uWarden 0x200 15 8 f.check
  s.wdEvent 0x0020 (f.check + s.checkReact f.check * 256) (if f.check ≤ 2 then s.wordDetail f.item else checkUnit f)

/-! ### Reactions (R426, R440–R443) -/

/-- The Warden commands groups into fallback; the holder of a claim on the Mill is told (R9). -/
def State.wdFallback (s : State) (groups : Nat) : State :=
  ((s.groupsTo groups true).setFld uWarden 0x200 23 16 (s.fld uWarden 0x200 23 16 ||| groups)).unitEvent uMill

/-- The safe state: pins, PWM channels, every group (R426). -/
def State.assertSafe (s : State) : State := s.hardSafe.wdFallback 0xFF

/-- Restart the counts of sets passed since a fault of groups (R443, R444). -/
def State.faultSeen (s : State) (groups : Nat) : State :=
  s.setWdX fun x => { x with clean := 0, cleanG := (x.cleanG.zipIdx).map fun (n, g) => if groups / 2 ^ g % 2 = 1 then 0 else n }

/-- Enter SAFE. -/
def State.enterSafe (s : State) (check unit : Nat) : State :=
  (((s.wdGo 3 check unit).assertSafe).faultSeen 0xFF).setWdX fun x => { x with holdG := 0, holdN := 0, withheld := false, toSafe := false }

/-- A HOLD turns into a FALLBACK of its groups once HOLD_N intervals have ended without a release (R443). -/
def State.escalate (s : State) : State :=
  let x := s.wd
  if x.holdG != 0 && s.wdState = 2 && s.fld uWarden 0x20C 31 24 ≤ x.holdN then
    let s := (s.setWdX fun x => { x with holdG := 0, holdN := 0 }).wdFallback x.holdG
    s.wdEvent 0x0020 (x.holdCheck + 2 * 256) uWarden
  else s

/-- A HOLD, or a reaction that includes it: what the interval in progress brings is not released (R426). -/
def State.withhold (s : State) : State := s.setWdX fun x => { x with withheld := !x.intervals.isEmpty }

/-- React to the failures of one decision pass, which form one fault (R440, R442). -/
def State.react (s : State) (fs : List WdReport) : State :=
  match fs with
  | [] => s
  | h :: t =>
    let top := t.foldl (fun a f => if s.checkReact a.check < s.checkReact f.check then f else a) h
    let r := s.checkReact top.check
    let groups := fs.foldl (fun m f => m ||| s.checkGroups f) 0
    if s.wdState = 2 || r = 3 then s.enterSafe top.check (checkUnit top)
    else
      let s := ((s.wdGo 2 top.check (checkUnit top)).openRecovery).faultSeen groups
      if r = 2 then s.withhold.wdFallback groups
      else s.withhold.setWdX fun x => { x with holdG := x.holdG ||| groups, holdN := 0, holdCheck := top.check }

/-- RECOVERY ends in SERVICE when no group is in fallback, enough sets were released and no check fails; what WD_CAUSE
names then is open (R443). -/
def State.tryEnd (s : State) : State :=
  if s.wdState = 2 && s.fld uMill 0x224 7 0 = 0 && (!s.gateOn || s.cleanN ≤ s.wd.clean) && s.failingNow.isEmpty then
    let (w, s) := s.fresh
    s.wdGo 1 w.toNat uWarden
  else s

/-! ### Starters that fall due (R435) -/

def StarterX.init : StarterX := ⟨false, none, 0⟩
def State.starterX (s : State) (i : Nat) : StarterX := SMap.get (fun _ => StarterX.init) i s.wd.starters
def State.setStarterX (s : State) (i : Nat) (x : StarterX) : State :=
  s.setWdX fun w => { w with starters := SMap.set (fun _ => StarterX.init) i x w.starters }

/-- An update of a COUNT_MARK: the starters that count it fall due at a multiple of INTERVAL. -/
def State.starterTap (s : State) (m v : Nat) : State :=
  (List.range 8).foldl (fun s i =>
    let o := 0x600 + 64 * i
    if s.flag uWarden o 31 && s.fld uWarden (o + 0x10) 15 0 = m && v != 0 && v % s.fld uWarden (o + 0x10) 31 16 = 0 then
      if (s.starterX i).due then s.wdFind 0x08 i 0 else s.setStarterX i { s.starterX i with due := true }
    else s) s

/-! ### Decision passes (R420–R423, R442) -/

/-- A pair runs: 0 WP0, 1 WP1. -/
def State.wpRuns (s : State) (p : Nat) : Bool := s.ustate (uWP p) ≤ 1
def State.activePair (s : State) : Nat := s.fld uWarden 0x200 27 27
def State.pairRuns (s : State) : Bool := s.wpRuns s.activePair

/-- Updates of tapped marks leave the FIFO for the work they ask for: a set to read, a compare, a starter due. -/
def State.takeTaps (s : State) : State :=
  let taps := s.wdFifo.filter (·.check = 0)
  let s : State := { s with wdFifo := s.wdFifo.filter (·.check != 0) }
  taps.foldl (fun s f =>
    let set := s.gateOn && !s.flag uWarden 0x210 30 && s.fld uWarden 0x21C 15 0 = f.item
    let cmps := (List.range 16).filter fun e => s.flag uWarden (0x404 + 32 * e) 31 && s.fld uWarden (0x40C + 32 * e) 15 0 = f.item
    let s := s.setWdX fun x => { x with work := x.work ++ (if set then [16] else []) ++ cmps }
    s.starterTap f.item f.value) s

/-- SAFE after the hardware asserted the safe state, from SERVICE or RECOVERY (R421, R422, R440); what WD_CAUSE names then is
open (DEDUCED, notes/assumptions/224.md). -/
def State.hardToSafe (s : State) : State :=
  if s.wdState = 1 || s.wdState = 2 then
    let (w, s) := s.fresh
    s.enterSafe w.toNat uWarden
  else s.setWdX fun x => { x with toSafe := false }

/-- A pair that runs becomes the active one where the active one does not run; after a watchdog bite it enters SAFE (R422). -/
def State.pairBack (s : State) : State :=
  let s := if !s.pairRuns && s.wpRuns (1 - s.activePair) then s.setFld uWarden 0x200 27 27 (1 - s.activePair) else s
  if s.pairRuns && s.wd.toSafe then s.hardToSafe else s

/-- A ball that differed from its command (0 SAFE_STOP_A_N, 1 SAFE_STOP_B) agrees again (R424, R446). -/
def State.pinAgrees (s : State) (p : Nat) : State :=
  (s.setFlag uWarden 0x254 (3 - p) (s.flag uWarden 0x254 (1 - p))).stopFailing 0x17 p

/-- The balls that fail are read back: whether one agrees again is open (DESIGN CHOICE, notes/assumptions/223.md). -/
def State.readBack (s : State) : State :=
  (s.wd.failing.filter (·.1 = 0x17)).foldl (fun s e =>
    let (w, s) := s.fresh
    if bit w 0 then s.pinAgrees e.2 else s) s

/-- A failure that is a fault: enabled, with a reaction above REPORT (R425, R442). -/
def State.isFault (s : State) (f : WdReport) : Bool := s.checkEn f.check && s.checkReact f.check != 0

/-- A decision pass: every failure reported or found is counted and posted; in SERVICE and RECOVERY the faults are
reacted to; the pairs that run are then synced. CAMERA_MOVED (0x1F) is an event only (R437). -/
def State.decidePass (s : State) : State :=
  let s := s.pairBack
  if !s.pairRuns then s
  else
    let s := s.takeTaps.readBack
    let lost := if s.wdHard then [⟨0x18, 0, 0⟩] else []
    let fs := s.wdFifo ++ s.wd.found ++ lost
    let s : State := { s with wdFifo := [], wdHard := false, wd := { s.wd with found := [] } }
    let moved := fs.filter (·.check = 0x1F)
    let fs := fs.filter (·.check != 0x1F)
    let s := moved.foldl (fun s f => s.wdEvent 0x0020 0 (uPP (f.item % 16))) s
    let s := fs.foldl (fun s f => s.noteFailure f) s
    let s := if s.wdState = 1 || s.wdState = 2 then s.react (fs.filter s.isFault) else s
    ((s.setFlag uWarden 0x200 26 (s.wpRuns (1 - s.activePair))).setWdX fun x => { x with behind := false }).tryEnd

def execDecisionPass (s : State) : Out := .next s.decidePass

/-- A pair leaves service (R421): the synced standby takes over, or the safe state is asserted in hardware, and the Warden is in
SAFE until a pair has been readmitted and synced. -/
def State.pairFail (s : State) (p : Nat) : State :=
  let synced := s.standbySynced
  let s := (s.forceOut (uWP p)).setFlag uWarden 0x200 26 false
  if p != s.activePair then s
  else if synced then
    ((s.setFld uWarden 0x200 27 27 (1 - p)).countF uWarden 0x23C 15 0 1).wdFind 0x16 (uWP p) 0
  else
    let s := (s.hardSafe.unitEvent uMill).wdFind 0x16 (uWP p) 0
    ((s.setWdX fun x => { x with behind := true }).hardToSafe).pairBack

/-- A pair's failure is recorded as PROC_FAULT (R421, R555). -/
def execPairFailure (pair : Nat) (s : State) : Out :=
  .next (if s.wpRuns (pair % 2) then (s.recordFault fPROC_FAULT (uWP (pair % 2)) 0x4A noQueue 0 0 0 0 oNone).pairFail (pair % 2) else s)

/-- The Warden watchdog bites (R422): the safe state in hardware; SAFE as soon as a pair runs. -/
def State.wdBite (s : State) : State :=
  let s := (s.countF uWarden 0x23C 31 16 1).hardSafe.unitEvent uMill
  (s.setWdX fun x => { x with toSafe := true }).pairBack

def execWardenWatchdogBite (s : State) : Out := .next s.wdBite

/-! ### Returning from fallback (R444) -/

/-- The reason for which the return of groups is refused, or 0. -/
def State.returnReason (s : State) (ini groups : Nat) : Nat :=
  if !(s.wdState = 1 || s.wdState = 2) then WRONG_STATE
  else if !idCovers (s.fld uWarden 0x250 9 0) (s.fld uWarden 0x250 29 20) ini then REQUESTER
  else if (s.wd.cleanG.zipIdx).any (fun (n, g) => groups / 2 ^ g % 2 = 1 && n < s.cleanN) then NOT_CLEAN
  else if s.failingNow.any fun (c, i) => s.checkGroups ⟨c, i, 0⟩ &&& groups != 0 then CHECK_FAILING
  else 0

/-- Groups return to MAIN. -/
def State.groupsBack (s : State) (groups : Nat) : State :=
  let s := s.groupsTo groups false
  let old := s.fld uWarden 0x200 23 16
  s.setFld uWarden 0x200 23 16 (old - (old &&& groups))

end Sys2Proof.Machine
end

