-- ==== Sys2Proof/Machine/Warden.lean ====
section
/-! DEFINITION. The Warden's work: the setpoint gate, compares, starters, the heartbeat, commands, firewalls, self-test,
its calls (R427–R455, R458–R460, R499). -/
namespace Sys2Proof.Machine

/-! ### The setpoint gate (R427–R430, R433) -/

def State.gateAddr (s : State) : Nat := s.fld uWarden 0x214 31 6 * 64 + 2 ^ 32 * s.fld uWarden 0x218 15 0
def State.gateWords (s : State) : Nat := s.fld uWarden 0x210 9 0 + 1

/-- A finite FP32 value in units of 2^−149. -/
def f32Int (w : Word) : Option Int :=
  match f32 w with
  | .fin n m e => some (if n then -(m * 2 ^ (e + 149).toNat : Nat) else (m * 2 ^ (e + 149).toNat : Nat))
  | _ => none

/-- An enabled word is finite and within its range. -/
def State.envRangeOk (s : State) (w : Nat) (v : Word) : Bool :=
  !f32NonFin v && fle (s.rd uWarden (envOff w)) v && fle v (s.rd uWarden (envOff w + 4))

/-- |v − p| ≤ DMAX × (1 + h); an infinite DMAX disables the check. -/
def State.envRateOk (s : State) (w : Nat) (v p : Word) (h : Nat) : Bool :=
  let d := s.rd uWarden (envOff w + 8)
  d = 0x7F800000 || (match f32Int v, f32Int p, f32Int d with
    | some a, some b, some c => decide (((a - b).natAbs : Int) ≤ c * (1 + h))
    | _, _, _ => false)

/-- The words of a set, in order. -/
def gateVal (set : List (Nat × Word)) (w : Nat) : Word := SMap.get (fun _ => 0) w set

/-- Groups, and the first of some words. -/
def State.wordGroups (s : State) (ws : List Nat) : Nat := ws.foldl (fun m w => m ||| 2 ^ s.fld uWarden (envOff w + 12) 26 24) 0

/-- Release a set: it is in force from now on, GATE_SEQ rises, GATE loops sample (R406, R429). -/
def State.gateRelease (s : State) (set : List Word) : State :=
  let new := (set.zipIdx).foldl (fun g (v, w) => SMap.set (fun _ => 0) w v g) s.gateSet
  let s : State := { (s.wr uMill 0x220 (s.rd uMill 0x220 + 1)).setFld uWarden 0x200 7 0 0 with gateSet := new }
  let s := s.setWdX fun x => { x with
    gone := 0, clean := x.clean + 1, holdG := 0, holdN := 0, intervals := x.intervals.map fun (g, _) => (g, true) }
  (s.millPulse 8).tryEnd

/-- Check a set that was read, and release it when it passes (R425, R429, R439). A word that is not finite fails
ENV_RANGE alone; the first set after arming has no rate check; a disabled check changes nothing but its count. -/
def State.gateJudge (s : State) (set : List Word) : State :=
  let h := s.wd.gone
  let en := (set.zipIdx).filter fun (_, w) => s.flag uWarden (envOff w + 12) 31
  let range := (en.filter fun (v, w) => !s.envRangeOk w v).map (·.2)
  let rate := (en.filter fun (v, w) => !s.wd.first && !f32NonFin v && !s.envRateOk w v (gateVal s.gateSet w) h).map (·.2)
  let bad := (!range.isEmpty && s.checkEn 1) || (!rate.isEmpty && s.checkEn 2)
  let s := if range.isEmpty then s else s.wdFind 1 (range.headD 0) (s.wordGroups range)
  let s := if rate.isEmpty then s else s.wdFind 2 (rate.headD 0) (s.wordGroups rate)
  let s := s.setWdX fun x => { x with
    first := false, clean := if bad then 0 else x.clean, cleanG := x.cleanG.map fun n => if bad then 0 else n + 1 }
  if bad || s.wd.withheld || !(s.wdState = 1 || s.wdState = 2) then s else s.gateRelease set

/-- An announced set is read, acknowledged and checked (R427). A set area that cannot be read is no set. -/
def State.gateSetCheck (s : State) : State :=
  let m := s.gateMark
  let now := s.mark m
  let d := (now + 2 ^ 32 - s.wd.lastIn) % 2 ^ 32
  if d = 0 then s
  else
    let s := s.setWdX fun x => { x with lastIn := now }
    let s := if d = 1 then s else s.wdFind 4 0 0
    let (s, f, bs) := s.polRead 0x49 s.gateAddr (4 * s.gateWords)
    if f != 0 then s
    else
      let s := s.addMark (s.fld uWarden 0x21C 31 16) 1
      s.gateJudge (bytesWords bs)

/-- Take one work item of a kind. -/
def State.takeWork (s : State) (k : Nat) : State × Bool :=
  let s := s.takeTaps
  (s.setWdX fun x => { x with work := x.work.erase k }, s.wd.work.contains k)

def execGateSetCheck (s : State) : Out :=
  .next (if !s.pairRuns then s else
    let (s, go) := s.takeWork 16
    if go then s.gateSetCheck else s)

/-- A pulse of SET_TRIG starts an interval (R430). -/
def State.gateTrig (s : State) (line : Nat) : State :=
  if s.gateOn && s.fld uWarden 0x210 25 23 = line then s.setWdX fun x => { x with intervals := x.intervals ++ [(false, false)] } else s

/-- The oldest interval ends at GATE_DEADLINE: SET_MISSING, the escalation of a HOLD, the hold pulse (R430, R443). -/
def State.setDeadline (s : State) : State :=
  match s.wd.intervals with
  | [] => s
  | (got, rel) :: t =>
    let s := s.setWdX fun x => { x with intervals := t, withheld := false }
    let s := if got then s else s.wdFind 3 0 0
    if rel then s
    else
      let s := s.countF uWarden 0x200 7 0 1
      let s := (s.setWdX fun x => { x with holdN := x.holdN + 1, gone := x.gone + 1 }).escalate
      s.millPulse 8

def execSetDeadlineExpiry (s : State) : Out := .next (if s.pairRuns then s.setDeadline else s)

/-! ### Compares (R431–R433) -/

def cmpEOff (e : Nat) : Nat := 0x400 + 32 * e
/-- Where rind i of an entry lies. -/
def State.cmpRind (s : State) (e i : Nat) : Nat :=
  (s.rd uWarden (cmpEOff e)).toNat + 2 ^ 32 * s.fld uWarden (cmpEOff e + 4) 15 0 + i * (s.rd uWarden (cmpEOff e + 8)).toNat
def State.cmpMembers (s : State) (e : Nat) : Nat := s.fld uWarden (cmpEOff e + 4) 18 16 + 1

/-- Fields of a rind's bytes. -/
def rindFp (b : List Byte) : Nat := bytesNat ((b.drop 32).take 8)
def rindSeq (b : List Byte) : Nat := bytesNat ((b.drop 40).take 4)
def rindQueue (b : List Byte) : Nat := bytesNat ((b.drop 44).take 4) % 2 ^ 20
def rindFlags (b : List Byte) : Nat := bytesNat ((b.drop 60).take 4)

/-- The rinds of a compare entry, none when one cannot be read. -/
def State.readRinds (s : State) (e : Nat) : Nat → State × Option (List (List Byte))
  | 0 => (s, some [])
  | n + 1 =>
    let (s, l) := s.readRinds e n
    let (s, f, b) := s.polRead 0x49 (s.cmpRind e n) 64
    (s, if f = 0 then l.map (· ++ [b]) else none)

/-- The conditions of R432 over the rinds of an entry. -/
def State.rindsAgree (s : State) (e : Nat) (l : List (List Byte)) : Bool :=
  let h := l.headD []
  let bad := 4 + 8 + 16 + 32 + 128
  rindSeq h != (s.rd uWarden (cmpEOff e + 0x14)).toNat && rindFp h = s.fingerprint true &&
    (l.zipIdx).all fun (b, i) =>
      b.take 32 = h.take 32 && rindFp b = rindFp h && rindSeq b = rindSeq h && rindQueue b = rindQueue h &&
        rindFlags b % 2 = 1 && rindFlags b / 2 ^ 16 % 8 = i && rindFlags b &&& bad = 0

/-- A compare (R432); the linked entry's passing compare announces the set (R433). -/
def State.digestCompare (s : State) (e : Nat) : State :=
  let (s, l) := s.readRinds e (s.cmpMembers e)
  let ok := match l with | some r => s.rindsAgree e r | none => false
  let s := s.count uWarden (cmpEOff e + 0x18) 1
  let s := match l with | some r => s.wr uWarden (cmpEOff e + 0x14) (w32 (rindSeq (r.headD []))) | none => s
  let s := if ok then s else s.wdFind 5 e 0
  if s.gateOn && s.gateLink = some e then
    if ok then s.setWdX fun x => { x with work := x.work ++ [16] }
    else s.setWdX fun x => { x with lastIn := s.mark s.gateMark }
  else s

def execDigestCompare (e : Nat) (s : State) : Out :=
  .next (if !s.pairRuns then s else
    let (s, go) := s.takeWork (e % 16)
    if go then s.digestCompare (e % 16) else s)

/-- PERIOD_NS of an enabled entry passes without an update, once the Warden has been armed (R432). -/
def execDigestPeriodExpiry (e : Nat) (s : State) : Out :=
  .next (if s.wd.armed && s.flag uWarden (cmpEOff (e % 16) + 4) 31 then s.wdFind 6 (e % 16) 0 else s)

/-! ### Starters (R434–R436) -/

def starterOff (i : Nat) : Nat := 0x600 + 64 * i
def State.starterRind (s : State) (i : Nat) : Nat := (s.rd uWarden (starterOff i + 0x14)).toNat + 2 ^ 32 * s.fld uWarden (starterOff i + 0x18) 15 0

/-- The starter entry of a record (R435). -/
def State.starterEntry (s : State) (i : Nat) : List Word :=
  let o := starterOff i
  let (v, hot) := match s.reservOf (s.fld uWarden o 19 0) with | some r => (r.cornerV, r.cornerHot) | none => (2, false)
  let w1 := 1 + 2 ^ 9 + 2 ^ 10 + v * 2 ^ 16 + b2n hot * 2 ^ 19
  [0xFFFFFFFF, w32 w1, s.rd uWarden (o + 4), w32 (s.fld uWarden (o + 8) 15 0), s.rd uWarden (o + 12), 0, 0, 0, 0, 0x1FFF, w32 i, 0, 0, 0, 0, 0]

/-- The rind of a starter whose completion record has been written is checked (R436). -/
def State.starterCheck (s : State) (i : Nat) : State :=
  match (s.starterX i).done with
  | none => s
  | some fault =>
    let s := (s.setStarterX i { s.starterX i with done := none }).count uWarden (starterOff i + 0x1C) 1
    let (s, f, b) := s.polRead 0x49 (s.starterRind i) 64
    let expect := (List.range 8).flatMap fun k => natBytes 4 (s.rd uWarden (starterOff i + 0x20 + 4 * k)).toNat
    let ok := fault = 0 && f = 0 && b.take 32 = expect && rindFlags b % 2 = 1 && rindFlags b &&& (4 + 8 + 16 + 32) = 0
    if ok then s else s.wdFind 7 i 0

def execStarterCheck (i : Nat) (s : State) : Out := .next (if s.pairRuns then s.starterCheck (i % 8) else s)

/-! ### Heartbeat (R438) -/

/-- A heartbeat is missing or not good. -/
def State.hbBad (s : State) : State :=
  let s := (s.setFlag uWarden 0x200 24 false).startFailing 0x11 0
  (s.setWdX fun x => { x with hbRun := 0 }).wdFind 0x11 0 0

/-- A heartbeat is judged, and answered when it is good. -/
def State.heartbeat (s : State) (v : Nat) : State :=
  let n := v / 2 ^ 16 % 2 ^ 16
  let last := s.fld uWarden 0x228 31 16
  if v % 2 ^ 16 + n != 0xFFFF || n != (last + 1) % 2 ^ 16 then s.hbBad
  else
    let s := s.setFld uWarden 0x228 31 16 n
    let s := if s.wd.armed then s.countF uWarden 0x228 15 0 1 else s
    let s := s.setWdX fun x => { x with hbRun := x.hbRun + 1 }
    let s := if 2 ≤ s.wd.hbRun then (s.setFlag uWarden 0x200 24 true).stopFailing 0x11 0 else s
    (s.wr wSdioF1 4 (w32 (n * 2 ^ 16 + s.fld uWarden 0x200 31 16))).supInt 2

def execHbWordWrite (value : Nat) (s : State) : Out := .next (if s.pairRuns then s.heartbeat value else s)
def execHbTimeoutExpiry (s : State) : Out := .next (if s.pairRuns then s.hbBad else s)

/-! ### Pins and tasks (R446, R451) -/

/-- A ball (0 SAFE_STOP_A_N, 1 SAFE_STOP_B) differs from its command. -/
def State.pinDiffers (s : State) (p : Nat) : State :=
  let cmd := s.flag uWarden 0x254 (1 - p)
  ((s.setFlag uWarden 0x254 (3 - p) (!cmd)).startFailing 0x17 p).wdFind 0x17 p 0

def execPinFeedbackTimeout (pin : Nat) (s : State) : Out := .next (s.pinDiffers (pin % 2))

/-- An open task is still open at its deadline. -/
def execTaskDeadlineExpiry (t : Nat) (s : State) : Out := .next (if s.taskOpen (t % 16) then s.wdFind 0x13 (t % 16) 0 else s)

/-! ### Commands (R440, R441, R445, R450) -/

/-- Every tile and toe engine in service has passed a full test. -/
def State.allTested (s : State) : Bool :=
  (allUnits.filter fun u => isTested u && s.exists? u && s.ustate u = 0).all fun u => (s.testX u).passAt.isSome

/-- The conditions of R441 that fail, as a mask. -/
def State.armMask (s : State) : Nat :=
  let sbNeeded := (List.range 16).any (fun e => s.flag uWarden (cmpEOff e + 4) 31) ||
    (List.range 8).any (fun i => s.flag uWarden (starterOff i) 31)
  b2n (!s.flag uWarden 0x240 31) + 2 * b2n (!s.flag uWarden 0x200 24) + 4 * b2n (!s.allTested) +
    8 * b2n ((List.range 16).any s.taskOpen) + 16 * b2n (!s.failingNow.isEmpty) + 32 * b2n (sbNeeded && !s.sbActive) +
    64 * b2n (s.fld uWarden 0x254 3 2 != s.fld uWarden 0x254 1 0) +
    128 * b2n (s.gateOn && !s.trigBound (s.fld uWarden 0x210 25 23))

/-- ARM: pins to run, every group stays in fallback, the counts since arming start. -/
def State.arm (s : State) : State :=
  let s := (s.setWdX fun x => { x with
    armed := true, first := true, clean := 0, cleanG := List.replicate 8 0, withheld := false })
  let s := (s.setFld uWarden 0x228 15 0 0).setWdX fun x => { x with holdG := 0, holdN := 0 }
  ((s.wdFallback 0xFF).wdGo 1 0xFF uWarden).pins true

/-- A Warden command of an initiator: the status of R459, and a second result word. 1 ARM, 2 FORCE_SAFE, 3 RELEASE, 4
ENTER_TEST, 5 LEAVE_TEST. -/
def State.wdCommand (s : State) (ini action : Nat) : State × Nat × Nat :=
  let st := s.wdState
  if action != 2 && ini != 0x180 then (s, DENIED, 0)
  else match action with
    | 1 =>
      if st != 0 then (s, WD_LOCKED, 0)
      else if s.armMask != 0 then (s, ARM_REFUSED, s.armMask) else (s.arm, OK, 0)
    | 2 => (if st = 1 || st = 2 then s.enterSafe 0xFF uWarden else s, OK, 0)
    | 3 =>
      if st != 3 || !s.flag uWarden 0x240 31 || !s.pairRuns || s.wd.toSafe || s.wd.behind then (s, REFUSED, WRONG_STATE)
      else if !s.failingNow.isEmpty then (s, REFUSED, CHECK_FAILING)
      else (((s.wdGo 2 0xFF uWarden).openRecovery).pins true, OK, 0)
    | 4 => if st = 0 || st = 3 then (s.wdGo 4 0xFF uWarden, OK, 0) else (s, WD_LOCKED, 0)
    | 5 => if st = 4 then (s.wdGo 0 0xFF uWarden, OK, 0) else (s, WD_LOCKED, 0)
    | _ => (s, RANGE, 0)

/-- A write to WD_CMD: outside claims; one that is refused is recorded (R8, R450). -/
def State.wdCmdWrite (s : State) (ini action : Nat) : State :=
  s.guarded ini uWarden 0x204 (w32 action) true fun s =>
    let (s, r, _) := s.wdCommand ini action
    if r = OK then s else s.accError ini (regAddr uWarden 0x204) (if r = DENIED then .notHolder else if r = RANGE then .range else .check)

def execWdCmdArm (ini : Nat) (s : State) : Out := .next (s.wdCmdWrite ini 1)
def execWdCmdForceSafe (ini : Nat) (s : State) : Out := .next (s.wdCmdWrite ini 2)
def execWdCmdRelease (ini : Nat) (s : State) : Out := .next (s.wdCmdWrite ini 3)
def execWdCmdEnterTest (ini : Nat) (s : State) : Out := .next (s.wdCmdWrite ini 4)
def execWdCmdLeaveTest (ini : Nat) (s : State) : Out := .next (s.wdCmdWrite ini 5)

/-- A complemented command of the supervisor (R499). -/
def State.supCmd (s : State) (value : Nat) : State :=
  let a := value % 2 ^ 16
  if value / 2 ^ 16 % 2 ^ 16 + a != 0xFFFF || a = 0 || 5 < a then s.count wSdioF1 0x24 1 else s.wdCmdWrite 0x180 a

def execSupCmdWrite (value : Nat) (s : State) : Out := .next (s.supCmd value)

/-! ### Configuration (R425, R427, R431, R434, R449, R450, R453, R458) -/

/-- The configuration is writable: START, SAFE, TEST. -/
def State.wdOpen (s : State) : Bool := s.wdState = 0 || s.wdState = 3 || s.wdState = 4

/-- FW_LOCK: a write sets it, and nothing but a device reset clears it. -/
def State.lockFw (s : State) : State := (s.setFlag uWarden 0x240 31 true).setFlag uWarden 0x200 25 true

/-- TEST_DEBT fails for the units whose count of window ends in debt is at DEBT_LIMIT (R455). -/
def State.debtSync (s : State) : State :=
  let lim := s.fld uWarden 0x230 7 0
  (s.wd.tests.map (·.1) ++ (s.wd.failing.filter (·.1 = 0x15)).map (·.2)).eraseDups.foldl (fun s u =>
    if lim ≤ (s.testX u).debt then (if s.wd.failing.contains (0x15, u) then s else (s.startFailing 0x15 u).wdFind 0x15 u 0)
    else s.stopFailing 0x15 u) s

/-- A write to a WARDEN register with checks of its own. -/
def State.wardenWrite (s : State) (ini off : Nat) (v : Word) : Option State :=
  let bad := fun c => some (s.accError ini (regAddr uWarden off) c)
  if off = 0x24C then none
  else if !s.wdOpen then bad .check
  else if 32 < (s.store uWarden off v).wdTaps.eraseDups.length then bad .check
  else if off = 0x230 then some (s.store uWarden off v).debtSync
  else if off = 0x240 then some (if bit v 31 then s.lockFw else s)
  else if off = 0x21C then
    let s := s.wr uWarden off v
    some (s.setWdX fun x => { x with lastIn := s.mark s.gateMark })
  else if off = 0x210 then
    let s := s.wr uWarden off v
    some (s.setWdX fun x => { x with lastIn := s.mark s.gateMark, intervals := [] })
  else if 0x304 ≤ off && off ≤ 0x360 then
    let least := nth checkLowest ((off - 0x304) / 4) 0
    if bits v 31 30 < least || (least = 3 && !bit v 29) then bad .range else none
  else if 0x400 ≤ off && off < 0x600 && off % 32 = 4 then
    if !(1 ≤ bits v 18 16 && bits v 18 16 ≤ 5) then bad .range else none
  else if 0x400 ≤ off && off < 0x600 && off % 32 = 0x10 then if v.toNat < 1000 then bad .range else none
  else if 0x900 ≤ off && off < 0xA00 then
    let p := (s.rd uWarden (off / 16 * 16 + 4)).toNat
    match off % 16 with
    | 4 =>
      let o := off / 16 * 16
      if v.toNat < 1000 || 10 ^ 9 % v.toNat != 0 || v.toNat ≤ (s.rd uWarden (o + 8)).toNat || v.toNat ≤ (s.rd uWarden (o + 12)).toNat then
        bad .range
      else none
    | 0 => none
    | _ => if p ≤ v.toNat then bad .range else none
  else if 0xA00 ≤ off && off < 0xC00 then
    if s.flag uWarden 0x240 31 then bad .check
    else if off % 16 = 8 && v = 0 then bad .range
    else if off % 16 = 0 && bit v 0 && s.fld uWarden (off + 8) 19 0 = 0 then bad .range
    else none
  else if 0x4000 ≤ off && off % 16 = 8 then if isNeg v || f32IsNaN v then bad .range else none
  else none

def execFwLockWrite (ini value : Nat) (s : State) : Out :=
  .next (s.guarded ini uWarden 0x240 (w32 value) false fun s => (s.wardenWrite ini 0x240 (w32 value)).getD s)

/-! ### Pinned parcels (R450) -/

/-- The areas that pin parcels while FW_LOCK is 1: first address, length. -/
def State.pinnedAreas (s : State) : List (Nat × Nat) :=
  let n := 4 * s.gateWords
  let sets := match s.gateLink with
    | some e => (List.range (s.cmpMembers e)).map fun i => (s.gateAddr + i * (s.rd uWarden (cmpEOff e + 8)).toNat, n)
    | none => []
  (s.gateAddr, n) :: sets ++
    ((List.range 16).flatMap fun e => (List.range (s.cmpMembers e)).map fun i => (s.cmpRind e i, 64)) ++
    ((List.range 8).map fun i => (s.starterRind i, 64))

/-- The parcel holds a byte of a pinned area. -/
def State.pclPinned (s : State) (p : Nat) : Bool :=
  let lo := s.pclBase p * 0x10000
  let hi := lo + s.pclSize p * 0x10000
  s.flag uWarden 0x240 31 && s.pclValid p && s.pinnedAreas.any fun (a, n) => a < hi && lo < a + n

/-! ### Self-test slices (R452–R455, R559) -/

/-- Handshakes apart, how a full test is cut. -/
def fullSlices (u : Nat) : Nat := if unitClass u = some .te then 32 else 24

/-- The queue whose reservation holds a unit. -/
def State.reservingQueue (s : State) (u : Nat) : Option Nat :=
  match s.reservs.find? fun r => r.active && match unitClass u with
    | some .tile => (match r.ctx with
      | .gang g => (s.gangClusters g).contains ((u - 0x20) / 16)
      | x => x = .realTime ((u - 0x20) / 16) && r.tiles / 2 ^ (u % 16) % 2 = 1)
    | some .spareTile =>
      let c := (u - 0x20) / 16
      bit (s.ucb u 6) 30 && (match r.ctx with
        | .gang g => (s.gangClusters g).contains c
        | x => x = .realTime c && r.tiles / 2 ^ (bits (s.ucb u 6) 12 0 % 16) % 2 = 1)
    | some .te => r.ctx = .toe (u - 0x88)
    | _ => false with
  | some r => some r.queue
  | none => none

/-- Now lies in a gap of a queue's windows of at least 20.0 µs; no window, no gap. -/
def State.inGap (s : State) (q : Nat) : Bool :=
  let ws := (List.range 16).filter fun n => s.flag uWarden (0x900 + 16 * n) 31 && s.fld uWarden (0x900 + 16 * n) 19 0 = q
  !ws.isEmpty && ws.all fun n =>
    let o := 0x900 + 16 * n
    let p := (s.rd uWarden (o + 4)).toNat
    let pos := (s.gaugeNs + p - (s.rd uWarden (o + 8)).toNat % p) % p
    (s.rd uWarden (o + 12)).toNat ≤ pos && 20000 ≤ p - pos

/-- A slice may start on a unit now. -/
def State.sliceMay (s : State) (u : Nat) : Bool :=
  isTested u && s.exists? u && s.flag uWarden 0x230 31 && !s.domainOff u && !s.unitBusy u && s.ustate u = 0 && !s.claimed u &&
    !(s.testX u).running && (match s.reservingQueue u with | some q => s.inGap q | none => true)

def execSliceStart (u : Nat) (s : State) : Out :=
  .next (if s.sliceMay u then s.setTestX u { s.testX u with running := true } else s)

/-- Pending faults of a unit are classified by its test (R559). -/
def State.classifyByTest (s : State) (u : Nat) (pass : Bool) : State :=
  (s.faults.filter fun r => recUnit r = u && recOutcome r = oPending).foldl (fun s r =>
    if pass then s.makeTransient (recNum r) else s.makeLasting (recNum r)) s

/-- A slice ends (R454). -/
def State.sliceDone (s : State) (u : Nat) (pass : Bool) : State :=
  let x := s.testX u
  if !x.running then s
  else
    let (s, inj) := s.injectedBit u |>.injected u 1
    let s := s.setTestX u { x with running := false }
    if pass && inj = 0 then
      let s := if x.failed then (s.recordFault fTEST_FAIL u 0x49 noQueue 0 0 x.slice 0 oTransient).countTransient u else s
      let s := s.setTestX u { x with running := false, failed := false, slice := x.slice + 1 }
      if x.slice + 1 = fullSlices u then (s.fullTestPass u).classifyByTest u true else s
    else if !x.failed then s.setTestX u { x with running := false, failed := true }
    else
      let s := (s.fullTestFail u).classifyByTest u false
      let s := (s.recordFault fTEST_FAIL u 0x49 noQueue 0 0 x.slice inj oLasting).forceOut u
      ((s.setHealthX u { s.healthX u with failed := true }).fltSync).wdFind 0x14 u 0

def execSliceDone (u : Nat) (pass : Bool) (s : State) : Out := .next (s.sliceDone u pass)

/-- A T8 is bound to a tile of its cluster, or stands in for one; every other unit counts as it stands. -/
def State.boundSpare (s : State) (u : Nat) : Bool :=
  unitClass u != some .spareTile || bit (s.ucb u 6) 30 || (List.range 8).any fun t => s.hasSpare (uTile ((u - 0x20) / 16) t)

/-- A unit is in test debt at a window end. -/
def State.inDebt (s : State) (u : Nat) : Bool :=
  s.ustate u = 0 && s.boundSpare u && (match unitDomain u with | some d => !s.domOff.contains d | none => true) &&
    (match (s.testX u).passAt with | some t => decide (t + 50000000 ≤ s.gauge.ticks) | none => true)

/-- A coverage window ends (R455). -/
def State.debtWindow (s : State) : State :=
  let us := allUnits.filter fun u => isTested u && s.exists? u
  let debt := us.filter s.inDebt
  let s := s.setFld uWarden 0x234 7 0 debt.length
  let s := us.foldl (fun (s : State) u =>
    let x := s.testX u
    s.setTestX u { x with debt := if debt.contains u then x.debt + 1 else 0 }) s
  let s := s.debtSync
  let s : State := { s with domOff := s.gradeDoms.filter fun d => !s.domOn d }
  if debt.isEmpty then s
  else (s.countF uWarden 0x234 31 16 1).wdEvent 0x0022 debt.length (s.nowNs / 1000000)

def execDebtWindowEnd (s : State) : Out := .next s.debtWindow

/-! ### Service calls (R459) -/

/-- 0x0800. -/
def callWardenStatus (s : State) : State := s.retRegs uWarden [0x200, 0x208, 0x254, 0x228, 0x234]
def execReadWardenStatus (_ : Nat) (_ : List Word) (s : State) : Out := .next (callWardenStatus s)

/-- A command made by a call. -/
def wdCallCmd (ini action : Nat) (s : State) : State :=
  let (s, r, w) := s.wdCommand ini action
  s.ret r (if r = ARM_REFUSED || r = REFUSED then [w32 w] else [])

/-- 0x0801–0x0804. -/
def callArm (ini : Nat) (s : State) : State := wdCallCmd ini 1 s
def callForceSafe (ini : Nat) (s : State) : State := wdCallCmd ini 2 s
def callReleaseSafe (ini : Nat) (s : State) : State := wdCallCmd ini 3 s
def callEnterTest (ini : Nat) (args : List Word) (s : State) : State :=
  if 1 < arg args 0 then s.ret RANGE else wdCallCmd ini (4 + arg args 0) s
def execArm (ini : Nat) (_ : List Word) (s : State) : Out := .next (callArm ini s)
def execForceSafe (ini : Nat) (_ : List Word) (s : State) : Out := .next (callForceSafe ini s)
def execReleaseSafeState (ini : Nat) (_ : List Word) (s : State) : Out := .next (callReleaseSafe ini s)
def execEnterOrLeaveTest (ini : Nat) (args : List Word) (s : State) : Out := .next (callEnterTest ini args s)

/-- The two limits of R450 on calls that change the Warden: the holder of its expert claim, which is 0x180; a state of some. -/
def State.wdLimit (s : State) (ini : Nat) (ok : State → Bool) (act : State → State) : State :=
  if ini != 0x180 || !s.mayWrite ini uWarden then s.ret DENIED
  else if !ok s then s.ret WD_LOCKED
  else act s

/-- A call that changes the configuration: the limits, the range, then the change. -/
def State.wdConfig (s : State) (ini : Nat) (bad : Bool) (act : State → State) : State :=
  s.wdLimit ini State.wdOpen fun s =>
    if bad then s.ret RANGE
    else
      let t := act s
      if 32 < t.wdTaps.eraseDups.length then s.ret TAPS_FULL else t.ret OK

/-- Store words at offsets of WARDEN. -/
def State.wdStore (s : State) : List (Nat × Nat) → State
  | [] => s
  | (o, v) :: t => (s.wr uWarden o (w32 v)).wdStore t

/-- 0x0805. -/
def callSetCheck (ini : Nat) (args : List Word) (s : State) : State :=
  let n := arg args 0
  let least := nth checkLowest (n - 1) 0
  s.wdConfig ini (n = 0 || 24 < n || arg args 1 < least || 3 < arg args 1 || 1 < arg args 2 || (least = 3 && arg args 2 = 0) || 255 < arg args 3)
    fun s =>
      let s := (s.setFld uWarden (checkOff n) 31 30 (arg args 1)).setFld uWarden (checkOff n) 29 29 (arg args 2)
      s.setFld uWarden (checkOff n) 23 16 (arg args 3)
def execSetCheck (ini : Nat) (args : List Word) (s : State) : Out := .next (callSetCheck ini args s)

/-- 0x0806: GATE_CFG, SET_ADDR, GATE_MARKS, GATE_DEADLINE, HOLD_N, CLEAN_N. -/
def callConfigureGate (ini : Nat) (args : List Word) (s : State) : State :=
  let n := fun i => arg args i
  s.wdConfig ini (n 0 &&& 0x7FFC00 != 0 || n 1 % 64 != 0 || 65535 < n 2 || n 4 < 1000 || 1000000 < n 4 || n 5 = 0 || 255 < n 5 ||
      n 6 = 0 || 255 < n 6) fun s =>
    let s := s.wdStore [(0x210, n 0), (0x214, n 1), (0x218, n 2), (0x21C, n 3), (0x220, n 4)]
    let s := (s.setFld uWarden 0x20C 31 24 (n 5)).setFld uWarden 0x20C 23 16 (n 6)
    s.setWdX fun x => { x with lastIn := s.mark s.gateMark, intervals := [] }
def execConfigureGate (ini : Nat) (args : List Word) (s : State) : Out := .next (callConfigureGate ini args s)

/-- 0x0807: first word, count, four words an entry. -/
def callWriteEnvelopes (ini : Nat) (args : List Word) (s : State) : State :=
  let f := arg args 0
  let k := arg args 1
  let bad := (List.range (min k 64)).any fun i =>
    let d := nth args (4 + 4 * i) 0
    isNeg d || f32IsNaN d || arg args (5 + 4 * i) &&& 0x18FFFFFF != 0
  s.wdConfig ini (64 < k || 1024 < f + k || bad) fun s =>
    (List.range k).foldl (fun s i => s.wdStore ((List.range 4).map fun j => (envOff (f + i) + 4 * j, arg args (2 + 4 * i + j)))) s
def execWriteEnvelopes (ini : Nat) (args : List Word) (s : State) : Out := .next (callWriteEnvelopes ini args s)

/-- 0x0808: entry, RIND_ADDR_LO, EN, MEMBERS − 1, RIND_ADDR_HI, MEMBER_STRIDE, MARK, PERIOD_NS. -/
def callConfigureCompare (ini : Nat) (args : List Word) (s : State) : State :=
  let n := fun i => arg args i
  let o := cmpEOff (n 0)
  s.wdConfig ini (15 < n 0 || n 1 % 64 != 0 || 1 < n 2 || n 3 = 0 || 5 < n 3 || 65535 < n 4 || 65535 < n 6 || n 7 < 1000 || 10 ^ 9 < n 7)
    fun s => s.wdStore [(o, n 1), (o + 4, n 2 * 2 ^ 31 + n 3 * 2 ^ 16 + n 4), (o + 8, n 5), (o + 12, n 6), (o + 16, n 7)]
def execConfigureCompareEntry (ini : Nat) (args : List Word) (s : State) : Out := .next (callConfigureCompare ini args s)

/-- 0x0809: record, EN, QUEUE, BLOCK_LO, BLOCK_HI, BUDGET, COUNT_MARK, INTERVAL, RIND_LO, RIND_HI, EXPECT. -/
def callConfigureStarter (ini : Nat) (args : List Word) (s : State) : State :=
  let n := fun i => arg args i
  let o := starterOff (n 0)
  s.wdConfig ini (7 < n 0 || 1 < n 1 || 2 ^ 20 ≤ n 2 || 65535 < n 4 || 65535 < n 6 || n 7 = 0 || 65535 < n 7 || 65535 < n 9) fun s =>
    let s := s.wdStore [(o, n 1 * 2 ^ 31 + n 2), (o + 4, n 3), (o + 8, n 4), (o + 12, n 5), (o + 16, n 7 * 2 ^ 16 + n 6),
      (o + 0x14, n 8), (o + 0x18, n 9)]
    s.wdStore ((List.range 8).map fun k => (o + 0x20 + 4 * k, n (10 + k)))
def execConfigureStarter (ini : Nat) (args : List Word) (s : State) : Out := .next (callConfigureStarter ini args s)

/-- 0x080A: ST_CFG, then EN, QUEUE, PERIOD_NS, OFFSET_NS, LENGTH_NS of WINDOW0–15; a window left out is disabled. -/
def callConfigureSelfTest (ini : Nat) (args : List Word) (s : State) : State :=
  let w := fun n k => arg args (1 + 5 * n + k)
  let bad := (List.range 16).any fun n => w n 0 != 0 &&
    (1 < w n 0 || 2 ^ 20 ≤ w n 1 || w n 2 < 1000 || 10 ^ 9 < w n 2 || 10 ^ 9 % w n 2 != 0 || w n 2 ≤ w n 3 || w n 2 ≤ w n 4)
  let c := nth args 0 0
  s.wdConfig ini (bad || bits c 30 8 != 0 || bits c 7 0 = 0) fun s =>
    (List.range 16).foldl (fun s n => s.wdStore (if w n 0 = 0 then [(0x900 + 16 * n, 0)] else
      [(0x900 + 16 * n, 2 ^ 31 + w n 1), (0x904 + 16 * n, w n 2), (0x908 + 16 * n, w n 3), (0x90C + 16 * n, w n 4)]))
        (s.wr uWarden 0x230 c).debtSync
def execConfigureSelfTest (ini : Nat) (args : List Word) (s : State) : Out := .next (callConfigureSelfTest ini args s)

/-- 0x080B: the supervisor opens a task. -/
def callOpenTask (ini : Nat) (args : List Word) (s : State) : State :=
  s.wdLimit ini State.wdOpen fun s =>
    if arg args 0 < 0x8000 || 0xFFFF < arg args 0 || arg args 1 = 0 || 60000000 < arg args 1 then s.ret RANGE
    else match s.openTask 1 (arg args 0) (arg args 1) with
      | (s, some t) => s.ret OK [w32 t]
      | (s, none) => s.ret RANGE
def execOpenSupervisedTask (ini : Nat) (args : List Word) (s : State) : Out := .next (callOpenTask ini args s)

/-- 0x080C: the supervisor closes a task of its own. -/
def callCloseTask (ini : Nat) (args : List Word) (s : State) : State :=
  let t := arg args 0
  s.wdLimit ini State.wdOpen fun s =>
    if 15 < t || !s.taskOpen t then s.ret RANGE
    else if s.fld uWarden (taskOff t) 30 28 != 1 then s.ret DENIED
    else
      let s := s.closeTask t
      s.ret OK [s.rd uWarden (taskOff t + 8)]
def execCloseSupervisedTask (ini : Nat) (args : List Word) (s : State) : Out := .next (callCloseTask ini args s)

/-- 0x080D: entry, BASE 31:0, EN, BASE 47:32, SIZE, R, W, MASK, ID; or 0xFF to lock (DEDUCED, notes/assumptions/225.md). -/
def callWriteFirewall (ini : Nat) (args : List Word) (s : State) : State :=
  let n := fun i => arg args i
  let o := 0xA00 + 16 * n 0
  s.wdLimit ini (fun s => s.wdOpen && (n 0 = 0xFF || !s.flag uWarden 0x240 31)) fun s =>
    if n 0 = 0xFF then s.lockFw.ret OK
    else if 31 < n 0 || n 1 % 4096 != 0 || 1 < n 2 || 65535 < n 3 || n 4 = 0 || 2 ^ 20 ≤ n 4 || 1 < n 5 || 1 < n 6 || 1023 < n 7 || 1023 < n 8 then
      s.ret RANGE
    else (s.wdStore [(o, n 1 + n 2), (o + 4, n 3), (o + 8, n 4),
      (o + 12, n 5 * 2 ^ 31 + n 6 * 2 ^ 30 + n 7 * 2 ^ 20 + n 8)]).ret OK
def execWriteFirewall (ini : Nat) (args : List Word) (s : State) : Out := .next (callWriteFirewall ini args s)

/-- 0x080E: the age of a toe engine that has passed no full test is open. -/
def callWardenCounters (s : State) : State :=
  let (a, s) := s.readRCs uWarden [0x238, 0x23C]
  let c := (List.range 24).map fun i => w32 (s.fld uWarden (checkOff (i + 1)) 15 0)
  let (f, s) := s.readRC uWarden 0x248
  let (w, s) := s.fresh
  let age := (List.range 2).map fun e => match (s.testX (uTE e)).passAt with
    | some t => w32 (min 0xFFFFFF ((s.gauge.ticks - t) / 500000))
    | none => w
  s.ret OK (a ++ c ++ [f] ++ age)
def execReadWardenCounters (_ : Nat) (_ : List Word) (s : State) : Out := .next (callWardenCounters s)

/-- 0x080F: pin 0 SAFE_STOP_A_N, 1 SAFE_STOP_B; duration in ns. The read-back is PIN_STATE while the pin is driven to run: what
its ball shows is open, the other ball is as it was (DESIGN CHOICE, notes/assumptions/223.md). -/
def callPinTest (ini : Nat) (args : List Word) (s : State) : State :=
  let p := arg args 0
  s.wdLimit ini (fun s => s.wdState = 4) fun s =>
    if 1 < p || arg args 1 < 200 || 2000 < arg args 1 then s.ret RANGE
    else
      let (w, s) := s.fresh
      let driven := setBit (setBit (s.rd uWarden 0x254) (1 - p) (p = 0)) (3 - p) (bit w 0)
      (s.emit .pin 1 [p, arg args 1]).ret OK [driven]
def execPinTest (ini : Nat) (args : List Word) (s : State) : Out := .next (callPinTest ini args s)

end Sys2Proof.Machine
end

