-- ==== Sys2Proof/Machine/MillCalls.lean ====
section
/-! DEFINITION. Control of the Mill: loads, enabling, fallback, coefficients, encoders, PWM, axis descriptors, triggers
(R381–R384, R390, R403, R411–R415, R417, R444). -/
namespace Sys2Proof.Machine

/-! ### Enabling and disabling (R382, R411) -/

/-- Loops of which one may be enabled, with all its core's: a status of R417 or OK. -/
def State.enableFault (s : State) (l : Nat) : Nat :=
  let x := s.loop l
  let c := s.loopCore l
  let t := s.loopTrig l
  let ns := s.loopNs l
  let ls := l :: (s.coreEn c).filter (· != l)
  let (num, den) := s.loadOf ls
  if x.fb.isEmpty then NO_FALLBACK
  else if x.main.isEmpty || 8 < t || (t < 8 && s.linePeriod t = 0) || ns < 12500 || 1000000 < ns || 32 < ls.length then RANGE
  else if 720000000 * den < num then LOAD_TOO_HIGH
  else OK

/-- A loop starts: its samples count from 1; it runs FB while its group is in fallback, with the set frozen at the switch
(R385, R407, R439). -/
def State.loopOn (s : State) (l : Nat) : State :=
  let fb := s.loopFb l || s.fld uMill 0x224 7 0 / 2 ^ s.loopGroup l % 2 = 1 || s.wdOpen
  let x := s.loop l
  let s := s.setLoop l { x with
    stage := 0, prevTrig := none, prevPulse := none, stopping := false, want := none
    frozen := if fb then some (x.frozen.getD s.gateNow) else none }
  let s := ((s.setFlag (wLoop l) 0 31 true).setFlag (wLoop l) 0 30 fb).wr (wLoop l) 0x14 0
  let s := s.setFld uMill 0x200 7 0 (allLoops.filter s.loopEn).length
  s.lawSync l

/-- Enable a loop: OK or why not. -/
def State.loopEnable (s : State) (l : Nat) : State × Nat :=
  if s.loopEn l then (s.setLoop l { s.loop l with stopping := false }, OK)
  else
    let r := s.enableFault l
    if r = OK then (s.loopOn l, OK) else (s, r)

/-- Disable a loop at its next sample end. -/
def State.loopDisable (s : State) (l : Nat) : State := if s.loopEn l then s.setLoop l { s.loop l with stopping := true } else s

/-- Switch one loop to fallback: its group is named in the event (R396, R407). -/
def State.loopFallback (s : State) (l : Nat) : State :=
  let g := s.loopGroup l
  (s.loopWant l true).millEvents (allLoops.filter fun k => s.loopGroup k = g) 0x001D (2 ^ g) 0

def State.loopReturn (s : State) (l : Nat) : State :=
  let g := s.loopGroup l
  (s.loopWant l false).millEvents (allLoops.filter fun k => s.loopGroup k = g) 0x001D (2 ^ g) 1

/-- A write to LOOP_CTL with an action: 1 enable, 2 disable, 3 fallback, 4 return; the return is open to those that
RETURN_IDS matches (R8, R444). -/
def State.loopCtl (s : State) (ini action l : Nat) : State :=
  let a := regAddr uMill 0x22C
  s.guarded ini uMill 0x22C (w32 (action * 2 ^ 29 + l % 128)) (action = 4) fun s =>
    if 95 < l % 128 then s.accError ini a .range
    else
      let l := l % 128
      match action with
      | 1 => let (s, r) := s.loopEnable l; if r = OK then s else s.accError ini a .check
      | 2 => s.loopDisable l
      | 3 => s.loopFallback l
      | 4 => if s.returnReason ini (2 ^ s.loopGroup l) = 0 then s.loopReturn l else s.accError ini a .check
      | _ => s.accError ini a .range

def execLoopCtlEnable (ini l : Nat) (s : State) : Out := .next (s.loopCtl ini 1 l)
def execLoopCtlDisable (ini l : Nat) (s : State) : Out := .next (s.loopCtl ini 2 l)
def execLoopCtlFallback (ini l : Nat) (s : State) : Out := .next (s.loopCtl ini 3 l)
def execLoopCtlReturn (ini l : Nat) (s : State) : Out := .next (s.loopCtl ini 4 l)

/-! ### Loads (R383, R384) -/

/-- A write to LAW_CTL with GO. -/
def State.lawCtl (s : State) (ini l : Nat) (fb : Bool) : State :=
  s.guarded ini uMill 0x238 (w32 (2 ^ 31 + b2n fb * 2 ^ 30 + l % 128)) false fun s =>
    let l := l % 128
    if 95 < l then s.accError ini (regAddr uMill 0x238) .range
    else
      let a := s.fld uMill 0x230 31 6 * 64 + 2 ^ 32 * s.fld uMill 0x234 15 0
      let (s, f, i) := s.lawLoad 0x48 (s.xlClient ini) false l fb a
      let s : State := { s with lawLast := l }
      s.wr uMill 0x23C (w32 (2 ^ 31 + b2n (f = 0 && s.loopEn l) * 2 ^ 30 + i % 4096 * 2 ^ 16 + f))

def execLawCtlGo (ini l : Nat) (fb : Bool) (s : State) : Out := .next (s.lawCtl ini l fb)

/-! ### Coefficients (R390, R391) -/

/-- Queue a write: false when sixteen are pending. A disabled loop's is applied at once. -/
def State.coefWrite (s : State) (l i : Nat) (v : Word) : State × Bool :=
  let x := s.loop l
  if !s.loopEn l then (s.setLoop l { x with coef := SMap.set (fun _ => 0) i v x.coef }, true)
  else if 16 ≤ x.pend.length then (s, false)
  else ((s.setLoop l { x with pend := x.pend ++ [(i, v)] }).loopSync l, true)

/-- A write to COEF_WR, open to the claim holder and to the loop's owning client. -/
def State.coefWr (s : State) (ini value : Nat) : State :=
  s.guarded ini uMill 0x244 (w32 value) true fun s =>
    let l := s.fld uMill 0x240 22 16
    let mine := s.mayWrite ini uMill || s.clientOf ini = some (s.loopOwner l)
    if !mine then s.accError ini (regAddr uMill 0x244) .notHolder
    else if 95 < l then s.accError ini (regAddr uMill 0x244) .range
    else
      let (s, ok) := s.coefWrite l (s.fld uMill 0x240 7 0) (w32 value)
      s.wr uMill 0x24C (w32 (2 ^ 31 + if ok then OK else COEF_QUEUE_FULL))

def execCoefWr (ini value : Nat) (s : State) : Out := .next (s.coefWr ini value)

/-! ### Configuration (R411–R415) -/

/-- Words 0–3 of a loop record are in bounds. -/
def State.loopWordsOk (s : State) (l : Nat) (w : Nat → Word) : Bool :=
  let w0 := w 0
  bits w0 29 28 = 0 && bits w0 24 23 ≤ 2 && bits w0 19 16 ≤ 8 && bits w0 15 8 ≤ 79 && bits w0 7 0 ≤ bits w0 15 8 &&
    bits (w 1) 30 20 = 0 && bits (w 3) 23 16 = 0 && bits (w 2) 1 0 = 0 &&
    !(bit (w 1) 31 && allLoops.any fun k => k != l && s.loopQueue k = some (bits (w 1) 19 0))

/-- ENC_CFG is in bounds: BITS of a serial input is 10–40. -/
def encCfgOk (v : Word) : Bool := bits v 3 0 = 0 && (bits v 31 30 < 2 || (9 ≤ bits v 27 22 && bits v 27 22 ≤ 39))

/-- PWM_CFG of a channel is in bounds. -/
def pwmCfgOk (c : Nat) (v : Word) : Bool := bit v 24 = false && bits v 15 0 = 0 && !(bit v 25 && c % 2 = 1)
/-- TB_CFG is in bounds. -/
def tbCfgOk (v : Word) : Bool := 2 ≤ bits v 15 0 && bits v 25 16 = 0

/-- An enabled PWM channel that no loop drives shows its safe level. -/
def State.pwmCfg (s : State) (c : Nat) (v : Word) : State := (s.wr uMill (pwmOff c) v).pwmSafe [c]

/-- An axis descriptor: COUNT 1–64, words within the space; an enabled one: no overlap with another enabled one of its direction. -/
def State.axisOk (s : State) (base f : Nat) (w : Word) : Bool :=
  let n := bits w 15 8
  let first := bits w 7 0
  1 ≤ n && n ≤ 64 && first + n ≤ 256 && (!bit w 31 || (List.range 16).all fun k =>
    let o := base + 32 * k
    k = f || !s.flag uMill o 31 || first + n ≤ s.fld uMill o 7 0 || s.fld uMill o 7 0 + s.fld uMill o 15 8 ≤ first)

/-- TRIG n accepts EN = 1 only when its comparator is claimed for line n. -/
def State.trigOk (s : State) (n : Nat) (v : Word) : Bool :=
  !bit v 31 || (s.cmpOwner (bits v 3 0) = 3 && s.cmpIndex (bits v 3 0) = n)

/-- A write to a MILL register with checks of its own; none: it only stores. -/
def State.millWrite (s : State) (ini off : Nat) (v : Word) : Option State :=
  let bad := fun c => some (s.accError ini (regAddr uMill off) c)
  if off = 0x228 then if 95 < bits v 6 0 then bad .range else none
  else if off = 0x22C then some (s.loopCtl ini (bits v 31 29) (bits v 6 0))
  else if off = 0x238 then if bit v 31 then some (s.lawCtl ini (bits v 6 0) (bit v 30)) else some s
  else if off = 0x244 then some (s.coefWr ini v.toNat)
  else if 0x300 ≤ off && off < 0x320 then if s.trigOk ((off - 0x300) / 4) v then some (s.store uMill off v).loadsSync else bad .check
  else if 0x400 ≤ off && off < 0x440 then
    let l := s.fld uMill 0x228 6 0
    let k := (off - 0x400) / 4
    let r := (findRow (wLoop l) (4 * k)).getD ⟨0, 4, 1, .ro, 0, 0, 0, 0, []⟩
    if 95 < l then bad .range
    else match r.bad v with
      | some c => bad c
      | none =>
        let w := fun i => if i = k then v else s.rd (wLoop l) (4 * i)
        if k < 4 && s.loopEn l then bad .readOnly
        else if k < 4 && !s.loopWordsOk l (fun i => if i = 0 then setBits (w 0) 31 30 0 else w i) then bad .range
        else if k = 0 && s.encClash l (bits v 19 16) then bad .check
        else some (if k < 4 then (s.store (wLoop l) (4 * k) v).lawSync l else s.store (wLoop l) (4 * k) v)
  else if 0x1000 ≤ off && off < 0x1200 then
    let i := (off - 0x1000) / 16
    match off % 16 with
    | 0 => if !encCfgOk v then bad .range else if !(s.encReaders i).isEmpty then bad .check else some (s.encCfg i v)
    | 12 =>
      let t := (s.encSync i).store uMill off v
      some (if bits v 31 29 != 0 then t.setFld uMill off 15 0 0 else t)
    | _ => none
  else if 0x1400 ≤ off && off < 0x1440 && off % 8 = 0 then some (s.tbCfg ((off - 0x1400) / 8) v)
  else if 0x1440 ≤ off && off < 0x15C0 && off % 8 = 0 then
    let c := (off - 0x1440) / 8
    if !pwmCfgOk c v then bad .range else if (s.pwmOwner c).isSome then bad .check else some (s.pwmCfg c v)
  else if 0x2000 ≤ off && off < 0x2400 && off % 32 = 0 then
    let base := off / 0x200 * 0x200
    if s.axisOk base ((off - base) / 32) v then none else bad .range
  else if 0x2200 ≤ off && off < 0x2400 && off % 32 = 12 && bits v 15 0 = 0 then bad .range
  else none

/-! ### Service calls (R417) -/

/-- The caller owns the loop, or the firewalls leave it the Mill. -/
def State.millMay (s : State) (ini : Nat) (write : Bool) (l : Option Nat) : Bool :=
  s.fwAllows ini (regAddr uMill 0) write || (match l with | some l => s.clientOf ini = some (s.loopOwner l) | none => false)

/-- A call that changes a loop or, without one, the Mill. -/
def State.millCall (s : State) (ini : Nat) (l : Option Nat) (bad : Bool) (act : State → State) : State :=
  if bad || (match l with | some l => decide (95 < l) | none => false) then s.ret RANGE
  else if !s.millMay ini true l then s.ret DENIED
  else if s.claimed uMill then s.ret CLAIMED
  else act s

/-- 0x0700. -/
def callMillStatus (ini : Nat) (s : State) : State :=
  if !s.millMay ini false none then s.ret DENIED else s.retRegs uMill [0x200, 0x204, 0x208, 0x20C, 0x210, 0x220, 0x224]
def execReadMillStatus (ini : Nat) (_ : List Word) (s : State) : Out := .next (callMillStatus ini s)

/-- 0x0701: the caller's client becomes the owner. -/
def callConfigureLoop (ini : Nat) (args : List Word) (s : State) : State :=
  let l := arg args 0
  let w := fun i => nth args (1 + i) 0
  s.millCall ini (some l) false fun s =>
    if bits (w 0) 31 30 != 0 || !s.loopWordsOk l w then s.ret RANGE
    else if s.loopEn l then s.ret LOOP_RUNNING
    else if s.encClash l (bits (w 0) 19 16) then s.ret ENC_BOUND
    else
      let s := (List.range 4).foldl (fun s i => s.store (wLoop l) (4 * i) (w i)) s
      let s := match s.clientOf ini with | some c => s.wr (wLoop l) 0x2C (w32 c) | none => s
      (s.lawSync l).ret OK
def execConfigureLoop (ini : Nat) (args : List Word) (s : State) : Out := .next (callConfigureLoop ini args s)

/-- 0x0702: slot 0 MAIN, 1 FB. A law that a later one replaces before it took effect is refused. -/
def callLoadLaw (ini : Nat) (args : List Word) (s : State) : State :=
  let l := arg args 0
  let a := argAddr args 2
  s.millCall ini (some l) (1 < arg args 1 || a % 64 != 0) fun s =>
    let (s, f, i) := s.lawLoad 0x48 (s.xlClient ini) false l (arg args 1 = 1) a
    if f != 0 then s.ret f [w32 i]
    else if s.loopEn l then s.retPending 0x0702 (slotKey l (arg args 1 = 1)) else s.ret OK
def execLoadLaw (ini : Nat) (args : List Word) (s : State) : Out := .next (callLoadLaw ini args s)

/-- 0x0703: 1 enable, 0 disable. -/
def callEnableLoop (ini : Nat) (args : List Word) (s : State) : State :=
  let l := arg args 0
  s.millCall ini (some l) (1 < arg args 1) fun s =>
    if arg args 1 = 0 then (s.loopDisable l).ret OK
    else
      let (s, r) := s.loopEnable l
      s.ret r
def execEnableOrDisableLoop (ini : Nat) (args : List Word) (s : State) : Out := .next (callEnableLoop ini args s)

/-- 0x0704: loop, count, index and value pairs. -/
def callWriteCoefficients (ini : Nat) (args : List Word) (s : State) : State :=
  let l := arg args 0
  let n := arg args 1
  let ps := (List.range (min n 64)).map fun i => (arg args (2 + 2 * i), nth args (3 + 2 * i) 0)
  s.millCall ini (some l) (64 < n || ps.any fun (i, _) => decide (255 < i)) fun s =>
    if s.callWaits 0x0704 l then s.ret UNIT_BUSY
    else if !s.loopEn l then (ps.foldl (fun s (i, v) => (s.coefWrite l i v).1) s).ret OK
    else
      let x := s.loop l
      let all := x.feed ++ ps
      let room := 16 - x.pend.length
      let s := (s.setLoop l { x with pend := x.pend ++ all.take room, feed := all.drop room, callN := x.pend.length + all.length }).loopSync l
      if n = 0 then s.ret OK else s.retPending 0x0704 l
def execWriteCoefficients (ini : Nat) (args : List Word) (s : State) : Out := .next (callWriteCoefficients ini args s)

/-- 0x0705: the values applied, then the pending count. -/
def callReadCoefficients (ini : Nat) (args : List Word) (s : State) : State :=
  let l := arg args 0
  let f := arg args 1
  let n := arg args 2
  if 95 < l || 64 < n || 256 < f + n then s.ret RANGE
  else if !s.millMay ini false (some l) then s.ret DENIED
  else
    let x := s.loop l
    s.ret OK ((List.range n).map (fun i => x.c (f + i)) ++ [w32 (x.pend.length + x.feed.length)])
def execReadCoefficients (ini : Nat) (args : List Word) (s : State) : Out := .next (callReadCoefficients ini args s)

/-- 0x0706. -/
def callReadLoop (ini : Nat) (args : List Word) (s : State) : State :=
  let l := arg args 0
  if 95 < l then s.ret RANGE
  else if !s.millMay ini false (some l) then s.ret DENIED
  else s.retRegs (wLoop l) ((List.range 16).map (4 * ·))
def execReadLoop (ini : Nat) (args : List Word) (s : State) : Out := .next (callReadLoop ini args s)

/-- 0x0707. -/
def callConfigureEncoder (ini : Nat) (args : List Word) (s : State) : State :=
  let i := arg args 0
  s.millCall ini none (31 < i || !encCfgOk (nth args 1 0)) fun s =>
    if !(s.encReaders i).isEmpty then s.ret ENC_BOUND
    else (((s.encCfg i (nth args 1 0)).wr uMill (encOff i + 4) (nth args 2 0)).wr uMill (encOff i + 8) (nth args 3 0)).ret OK
def execConfigureEncoder (ini : Nat) (args : List Word) (s : State) : Out := .next (callConfigureEncoder ini args s)

/-- 0x0708: 0–7 a timebase, 0x100 + c a channel. -/
def callConfigurePwm (ini : Nat) (args : List Word) (s : State) : State :=
  let k := arg args 0
  let v := nth args 1 0
  let tb := k < 8
  let c := k - 0x100
  s.millCall ini none (if tb then !tbCfgOk v else k < 0x100 || 47 < c || !pwmCfgOk c v) fun s =>
    if tb then (s.tbCfg k v).ret OK
    else if (s.pwmOwner c).isSome then s.ret OUTPUT_CLAIMED
    else (s.pwmCfg c v).ret OK
def execConfigurePwm (ini : Nat) (args : List Word) (s : State) : Out := .next (callConfigurePwm ini args s)

/-- 0x0709: flags by their bits in LOOP_WORD4. -/
def callClearLoopFlags (ini : Nat) (args : List Word) (s : State) : State :=
  let l := arg args 0
  s.millCall ini (some l) (arg args 1 % 2 ^ 29 != 0) fun s => (s.store (wLoop l) 0x10 (nth args 1 0)).ret OK
def execClearLoopFlags (ini : Nat) (args : List Word) (s : State) : Out := .next (callClearLoopFlags ini args s)

/-- 0x070A: 0 a loop to fallback, 1 a loop's return, 2 a group to fallback, 3 a group's return. -/
def callFallback (ini : Nat) (args : List Word) (s : State) : State :=
  let k := arg args 0
  let a := arg args 1
  let group := 2 ≤ a
  let l := if group then none else some k
  s.millCall ini l (3 < a || (group && 7 < k)) fun s =>
    let mask := if group then 2 ^ k else 2 ^ s.loopGroup k
    let reason := if a % 2 = 1 then s.returnReason ini mask else 0
    if s.callWaits 0x070A (if group then 96 + k else k) then s.ret UNIT_BUSY
    else if reason != 0 then s.ret REFUSED [w32 reason]
    else
      let s := match a with
        | 0 => s.loopFallback k
        | 1 => s.loopReturn k
        | 2 => s.groupsTo mask true
        | _ => s.groupsBack mask
      let waits := if group then s.loops.any fun (j, x) => s.loopGroup j = k && x.want.isSome && s.loopEn j else (s.loop k).want.isSome
      if waits then s.retPending 0x070A (if group then 96 + k else k) else s.ret OK
def execFallbackOrReturn (ini : Nat) (args : List Word) (s : State) : Out := .next (callFallback ini args s)

/-- 0x070B: direction 0 transmit, 1 receive; frame; the seven RW words of R415. -/
def callConfigureAxis (ini : Nat) (args : List Word) (s : State) : State :=
  let base := if arg args 0 = 0 then 0x2000 else 0x2200
  let f := arg args 1
  let w := fun i => nth args (2 + i) 0
  s.millCall ini none (1 < arg args 0 || 15 < f) fun s =>
    let rows := (List.range 7).all fun i => match findRow uMill (base + 4 * i) with
      | some r => decide ((w i).toNat &&& r.valid = (w i).toNat)
      | none => false
    if !rows || !s.axisOk base f (w 0) || (arg args 0 = 1 && bits (w 3) 15 0 = 0) then s.ret RANGE
    else ((List.range 7).foldl (fun s i => s.wr uMill (base + 32 * f + 4 * i) (w i)) s).ret OK
def execConfigureAxisFrame (ini : Nat) (args : List Word) (s : State) : Out := .next (callConfigureAxis ini args s)

/-- 0x070C: the comparator is claimed for the line, unless it already is, and the line enabled. -/
def callBindTrigger (ini : Nat) (args : List Word) (s : State) : State :=
  let n := arg args 0
  let c := arg args 1
  s.millCall ini none (7 < n || 15 < c) fun s =>
    let (s, r) := if s.cmpOwner c = 3 && s.cmpIndex c = n then (s, OK) else s.cmpClaim 3 n c
    if r = OK then (s.wr uMill (0x300 + 4 * n) (w32 (2 ^ 31 + c))).loadsSync.ret OK else s.ret r
def execBindTrigger (ini : Nat) (args : List Word) (s : State) : Out := .next (callBindTrigger ini args s)

/-! ### Comparators that fire (R471, R472) -/

/-- A due comparator fires to its owner: a pulse output, a CAN controller, a Mill line and with it the gate's interval. -/
def State.comparatorFire (s : State) (n : Nat) : State :=
  if !s.cmpDue n then s
  else
    let i := s.cmpIndex n
    let s := s.cmpFired n
    match s.cmpOwner n with
    | 1 => s.pulseFire i
    | 2 => s.canFire i
    | 3 => if s.trigBound i && s.fld uMill (0x300 + 4 * i) 3 0 = n then (s.gateTrig i).millPulse i else s
    | _ => s

def execComparatorFire (n : Nat) (s : State) : Out := .next (s.comparatorFire n)

end Sys2Proof.Machine
end

