-- ==== Sys2Proof/Machine/SchedRun.lean ====
section
/-! DEFINITION. Commands from dispatch to completion: the choice of a command, the prologue, the epilogue, retries,
budgets (R93, R164–R170, R177, R198, R205, R219, R222, R229, R249–R262, R435, R515, R557–R559, R572). -/
namespace Sys2Proof.Machine

/-! ### Ready commands (R250, R258, R435) -/

/-- The starter that is due for a queue. -/
def State.dueStarter (s : State) (q : Nat) : Option Nat :=
  lowest 8 fun i => (s.starterX i).due && s.flag uWarden (starterOff i) 31 && s.fld uWarden (starterOff i) 19 0 = q

/-- The entry that a queue would run next: a starter that is due goes ahead of the ring. -/
def State.nextEntry (s : State) (x : QSlot) : Option (List Word × Option Nat) :=
  match s.dueStarter x.id with
  | some i => some (s.starterEntry i, some i)
  | none => if x.held then x.entry.map fun e => (e, none) else none

/-- A deletion of one of the queue's parcels is pending: no command of it is dispatched (R243). -/
def State.queueBarred (s : State) (q : Nat) : Bool :=
  s.parcels.any fun e => e.2.deleting && s.pclKind e.1 != 0 && s.pclQueue e.1 = q

/-- The queue has a ready entry. -/
def State.isReady (s : State) (x : QSlot) : Bool :=
  qEnabled x.words && !qHalted x.words && x.running.isNone && !x.deleting && !s.queueBarred x.id && compRoom x.words &&
    s.clientValid (qClient x.words) && (s.nextEntry x).isSome

def State.readySlots (s : State) : List QSlot := s.qcache.filter s.isReady

/-- Waits for a completion slot: each is counted once, and its end makes the entry ready. -/
def State.roomSync (s : State) : State :=
  s.qcache.foldl (fun s x =>
    if x.held && x.running.isNone && !compRoom x.words && !x.compWait then
      (s.count uSched 0x234 1).updSlot x.id fun y => { y with compWait := true }
    else if x.compWait && compRoom x.words then
      let now := s.nowNs
      s.updSlot x.id fun y => { y with compWait := false, readyAt := if y.held then some now else y.readyAt }
    else s) s

/-- A client that has come to have a ready entry has its VT raised to the lowest VT of the clients that had one. -/
def State.vtSync (s : State) : State :=
  let s := s.roomSync
  let ready := (s.readySlots.map fun x => qClient x.words).eraseDups.mergeSort (· ≤ ·)
  let had := ready.filter fun c => (s.clientX c).hadReady
  let low := (had.map fun c => (s.clientX c).vt).min?
  let s := (s.clients.filter fun e => e.2.hadReady && !ready.contains e.1).foldl
    (fun s e => s.setClientX e.1 { e.2 with hadReady := false }) s
  (ready.filter fun c => !(s.clientX c).hadReady).foldl (fun s c =>
    s.setClientX c { s.clientX c with vt := max (s.clientX c).vt (low.getD 0), hadReady := true }) s

/-- The scheduler reads the entry at HEAD on one of the occasions of R249. -/
def State.readNow (s : State) (q : Nat) : State :=
  let s := s.entryRead q 1048576
  (if (s.reservOf q).isSome then s.prefetch q 4 else s).vtSync

def execEntryRead (q : Nat) (s : State) : Out := .next (s.readNow (q % 2 ^ 20))

/-- A start condition holds from now on (R166, R250). -/
def execStartConditionMet (q : Nat) (s : State) : Out := .next (s.latchStart q).vtSync

/-! ### The choice (R93, R169, R258, R262, R453, R514, R515, R557) -/

/-- The domains that a context's commands need. -/
def State.ctxDoms (s : State) (x : Ctx) : List Nat :=
  match x with
  | .toe e => [60 + e]
  | .mill _ => []
  | _ => (s.ctxClusters x).flatMap fun c => (54 + c) :: (setIndices 8 (s.ctxTiles x c)).map fun t => 9 * c + s.slotTile c t

/-- A self-test slice runs on a unit of the context. -/
def State.ctxSliced (s : State) (x : Ctx) : Bool := s.wd.tests.any fun e => e.2.running && s.ctxUses x e.1

/-- The context can take a command now, its power apart. -/
def State.ctxFree (s : State) (x : Ctx) : Bool :=
  (s.run x).isNone && s.exists? (ctxUnit x) && s.ustate (ctxUnit x) = 0 && !s.ctxSliced x && s.mayDispatch &&
    (s.flag uSched 0x200 31 || s.flag uSched 0x200 30) && !s.spPause &&
    (match x with
    | .general c => (s.gangOf c).isNone && s.ctxTiles x c != 0
    | .realTime c => (s.gangOf c).isNone && s.reservs.any fun r => r.active && r.ctx = x
    | .gang g => s.gangs.any fun y => y.g = g && y.stage = .formed
    | .toe _ => true
    | .mill lc => lc = 0)

/-- USES_TILES of a block, read ahead; nothing where it cannot be read. -/
def State.usesTiles (s : State) (x : Ctx) (d e : List Word) : Nat :=
  let (_, f, b) := s.blockRead (ctxIni x) (qClient d) (qXlate d) (eBlock e + 16) 4
  if f = 0 then bytesNat b % 256 else 0

/-- Tiles that every member of the context has: a toe engine and the Mill have none (R93). -/
def State.tileSet (s : State) (x : Ctx) : Nat :=
  match x with
  | .general c => s.ctxTiles x c
  | .realTime c => s.ctxTiles x c
  | .gang _ => 255
  | .toe _ => 0
  | .mill _ => 0

/-- An entry may go to a context. -/
def State.fits (s : State) (y : QSlot) (e : List Word) (x : Ctx) : Bool :=
  let d := y.words
  let named := eTarget e = ctxUnit x
  (named || (eTarget e = 0x1FFF && !x.isMill)) && qMayUse d x &&
    (match s.reservs.find? fun r => r.queue = y.id && r.active with
    | some r => r.ctx = x
    | none => (match x with | .realTime _ => false | _ => true) && !(s.reservs.any fun r => r.active && r.ctx = x)) &&
    (match y.retried with
    | some (_, _, u) => u = ctxUnit x || s.ustate u != 0
    | none => true) &&
    (named || s.usesTiles x d e &&& s.tileSet x = s.usesTiles x d e)

/-- The first ready queue of a client after the last one dispatched, in ascending order, wrapping. -/
def afterLast (last : Option Nat) (qs : List QSlot) : Option QSlot :=
  let sorted := qs.mergeSort fun a b => a.id ≤ b.id
  match last with
  | some q => (sorted.find? (q < ·.id)).orElse fun _ => sorted.head?
  | none => sorted.head?

/-- The queue to dispatch to a context: the client with the lowest VT, ties to the lower client. -/
def State.choose (s : State) (x : Ctx) : Option QSlot :=
  let cand := s.readySlots.filter fun y => match s.nextEntry y with | some (e, _) => s.fits y e x | none => false
  let cs := (cand.map fun y => qClient y.words).eraseDups
  match cs.mergeSort fun a b => (s.clientX a).vt < (s.clientX b).vt || ((s.clientX a).vt = (s.clientX b).vt && a ≤ b) with
  | [] => none
  | c :: _ => afterLast (s.clientX c).lastQueue (cand.filter fun y => qClient y.words = c)

/-! ### The prologue (R164–R170, R177, R178, R219, R383) -/

/-- A header's MAGIC, class, COUNT and reserved fields are wrong for a context. -/
def blockBad (x : Ctx) (h : List Word) : Bool := headerBad h (ctxTarget x) (if x.isMill then 512 else 4096)

/-- BUDGET is below WCET_HS at the entry's corner (R165). -/
def budgetShort (e h : List Word) : Bool :=
  let r := minRate (eCornerV e)
  let wcet := (nth h 3 0).toNat
  if eCornerHot e then eBudget e * r * 7 < 256 * 8 * wcet else eBudget e * r < 256 * wcet

/-- PROG_DIGEST is the digest of the block (R168, R170). -/
def digestOk (h : List Word) (code : List Byte) : Bool := sha3 (wordBytes (h.take 8) ++ code) = wordBytes (h.drop 8)

/-- The first check of the header that fails, as its fault, or 0: the rows of R169 in order, then BUDGET_SHORT. The digest
pre-pass of R170, which reads the instructions, follows. -/
def State.prologueFault (s : State) (x : Ctx) (q : Nat) (e h : List Word) : Nat :=
  let w2 := nth h 2 0
  let uses := bits (nth h 4 0) 7 0
  let on := s.sbOnFor (ctxIni x) && !x.isMill
  if blockBad x h then fBLOCK_INVALID
  else if bit w2 17 != s.reservs.any (fun r => r.queue = q && r.active) then fBLOCK_INVALID
  else if uses &&& s.tileSet x != uses then fBLOCK_INVALID
  else if s.genBad h then fGEN_MISMATCH
  else if on && !bit w2 16 then fSAME_BITS_BUILD
  else if eSbReq e && !on then fSAME_BITS_OFF
  else if budgetShort e h then fBUDGET_SHORT
  else 0

/-- A context as a command finds it (R178, R195). -/
def freshRun (x : Ctx) (q : Nat) (e h : List Word) (code : List Dword) (now tick restarts : Nat) (sb : Bool) (st : Option Nat) : CtxRun :=
  { ctx := x, queue := q, entry := e, hdr := h, code := code, pos := 0, tds := List.replicate 16 TD.zero
    sregs := List.replicate 16 0, cps := List.replicate 4 0, rm := [0, 0, 0, 0], win := sext 10 (bits (nth h 2 0) 9 0)
    bursts := List.replicate 6 [16, 16, 16, 16], only := none, lock := none, issued := [], stall := none, input := [], wfolds := [], spoilt := []
    remits := [], partialIn := false, reordered := false, fpMismatch := false, spareUsed := false, pairs := [], acc := []
    markDone := false, remitted := false, credits := [], fault := 0, faultAt := 0, startNs := now, startTick := tick, restarts := restarts, ended := false, sb := sb
    starter := st, faultUnit := none, faultRec := none, spares := [] }

/-- Command parcels of a queue lose their contents at the start of each of its commands (R219). -/
def State.voidParcels (s : State) (q : Nat) : State :=
  (s.validParcels.filter fun p => s.pclKind p = 2 && s.pclQueue p = q).foldl
    (fun s p => s.voidMem (s.pclBase p * 0x10000) (s.pclSize p * 0x10000)) s

/-- The loop whose LAW_QUEUE is a queue. -/
def State.loopOfQueue (s : State) (q : Nat) : Option Nat := allLoops.find? fun l => s.loopQueue l = some q

/-- A Mill command loads the law of its queue's loop (R383). -/
def State.millLoad (s : State) (q client : Nat) (xl : Bool) (a : Nat) : State × Nat × Nat :=
  match s.loopOfQueue q with
  | none => (s, fBLOCK_INVALID, 0)
  | some l => s.lawLoad 0x48 client xl l false a

/-- Start an entry in a context: its prologue. -/
def State.prologue (s : State) (x : Ctx) (y : QSlot) (e : List Word) (st : Option Nat) : State :=
  let d := y.words
  let q := y.id
  let s := s.voidParcels q
  let rd := fun (s : State) (a n : Nat) => s.blockRead (ctxIni x) (qClient d) (qXlate d) a n
  let sb := s.sbOnFor (ctxIni x)
  let (s, f, hb) := rd s (eBlock e) 64
  let h := bytesWords hb
  let hf := if f != 0 then f else s.prologueFault x q e h
  let (s, f2, cb) := if hf != 0 then (s, 0, []) else rd s (eBlock e + 64) (8 * bits (nth h 1 0) 12 0)
  let fault := orFault hf (orFault f2 (if eRind e && !digestOk h cb then fPROG_DIGEST else 0))
  let (s, fault, at_) := if fault = 0 && x.isMill then s.millLoad q (qClient d) (qXlate d) (eBlock e) else (s, fault, 0)
  let restarts := match st with | some i => (s.starterX i).restarts | none => y.restarts
  let r := freshRun x q e h (if x.isMill then [] else bytesDwords cb) s.nowNs s.gauge.ticks restarts sb st
  let s : State := { s with
    ctxs := s.ctxs ++ [{ r with fault := fault, faultAt := at_, ended := fault != 0, spares := s.standInsOf x }] }
  (s.maintSync.dcSync x).unitSync x

/-- PREEMPTS: the unit goes to another client while its last queue had a ready entry (R258). -/
def State.countPreempt (s : State) (x : Ctx) (client : Nat) : State :=
  match SMap.get (fun _ => none) (ctxIni x) (s.lastRun.map fun e => (e.1, some e.2)) with
  | some (_, c, true) => if c = client then s else (s.countWide (wClient c) 0x30 1).count uSched 0x220 1
  | _ => s

/-- Dispatch: the chosen entry starts its prologue; a gated domain is powered up first. A block that cannot be read yet, at a
sluice that another holds, is dispatched later (R231, R258, R515). -/
def State.dispatch (s : State) (x : Ctx) : State :=
  let s := s.vtSync
  let old := s
  if !s.ctxFree x then s
  else match s.choose x with
    | none => s
    | some y => match s.nextEntry y with
      | none => s
      | some (e, st) =>
        let off := (s.ctxDoms x).filter fun d => !s.domOn d
        if !off.isEmpty then
          { s with pwr := { s.pwr with powering := s.pwr.powering ++ off.filter fun d => !s.pwr.powering.contains d } }
        else
          let c := qClient y.words
          let s := (s.countPreempt x c).count uSched 0x21C 1
          let s := s.setClientX c { s.clientX c with lastQueue := some y.id }
          let s := s.updSlot y.id fun z => { z with running := some x }
          let s := match st with
            | some i => s.setStarterX i { s.starterX i with due := false }
            | none => s
          let t := s.prologue x y e st
          if (t.run x).any fun r => r.fault = fSLUICE_WAIT then old else t.vtSync

def execCommandDispatch (x : Ctx) (s : State) : Out := .next (s.dispatch x)

/-! ### The epilogue (R166, R177, R198, R205, R222, R229, R257, R260) -/

/-- Everything that a command holds is given back: lock passages, credits, severed ports (R222, R227, R229, R308). -/
def State.tearDown (s : State) (x : Ctx) : State :=
  let s := s.flushFolds x true
  let spoilt := match s.run x with | some r => r.spoilt | none => []
  let s := spoilt.foldl (fun s k => s.markStale k.1 k.2) s
  let s := s.dropLocks x
  let s : State := { s with
    severed := s.severed.filter (·.2 != ctxIni x)
    rtx := s.rtx.map fun t => if t.ctx = some x then { t with ctx := none } else t }
  let s := (s.returnUnused x).feedClear x
  let taken := match s.run x with | some r => r.credits | none => []
  let s := taken.foldl (fun s c => s.untakeCredits c.1 c.2) s
  let s : State := { s with ctxs := s.ctxs.filter (·.ctx != x) }
  (s.maintSync.dcSync x).unitSync x

/-- Tiles of a context's tile set, over its members. -/
def State.tileCount (s : State) (x : Ctx) : Nat :=
  match x with
  | .toe _ => 1
  | .mill _ => 0
  | _ => (s.ctxClusters x).foldl (fun a c => a + popcount 8 (s.ctxTiles x c)) 0

/-- The STEP_LAST and STEP_MAX registers of a command's unit; every member of a gang shows the command's STEPS, which are
the reducer's (R100, R101, R132, R251). -/
def State.stepRegs (s : State) (x : Ctx) (steps : Nat) : State :=
  let v := cap32 steps
  let s := match x with
    | .gang g => s.wr (uGang g) 0x208 (w32 v)
    | .toe e => (s.wr (uTE e) 0x120 (w32 v)).maxTo (uTE e) 0x124 v
    | _ => s
  (s.ctxClusters x).foldl (fun s c => ((s.count (uTC c) 0x21C 1).wr (uTC c) 0x220 (w32 v)).maxTo (uTC c) 0x224 v) s

/-- BUDGET_OVERRUN: the client's event and counts; the Warden hears of a real-time queue (R260, R437). -/
def State.overrun (s : State) (r : CtxRun) (c elapsed : Nat) : State :=
  let s := (s.count uSched 0x224 1).count (wClient c) 0x38 1
  let s := s.post c 0x0006 (ctxUnit r.ctx) r.queue (eSeq r.entry) (eBudget r.entry) elapsed
  if (s.reservOf r.queue).isSome then s.wdReport 0x10 (ctxUnit r.ctx) 0 else s

/-- The pending records that the next command on a unit decides: not those that wait for a self-test or a retry (R559). -/
def State.openRecords (s : State) (x : Ctx) (but : Option Nat) : List FaultRec :=
  s.faults.filter fun f =>
    recOutcome f = oPending && (recUnit f = ctxUnit x || s.ctxUses x (recUnit f)) && some (recNum f) != but &&
      (faultClass (recCode f) = 3 || !(isTested (recUnit f) || unitClass (recUnit f) = some .ve)) &&
      s.qcache.all fun y => match y.retried with | some (n, _, _) => n != recNum f | none => true

/-- Classify what an attempt decides: its retry's record, the unit's open records (R558, R559, R563). -/
def State.classify (s : State) (r : CtxRun) (was : Option (Nat × Nat × Nat)) (code unit : Nat) : State :=
  let s := match was with
    | some (n, c, u) => if c = code && u = unit then s.makeLasting n else s.makeTransient n
    | none => s
  (s.openRecords r.ctx r.faultRec).foldl (fun s f =>
    if code = 0 then s.makeTransient (recNum f) else if recCode f = code then s.makeLasting (recNum f) else s) s

/-- The entry runs again after a fault (R557); a retry that meets another fault is a new first attempt (R563). -/
def State.mayRetry (s : State) (r : CtxRun) (code unit : Nat) : Bool :=
  retriedOnce code && s.flag uFault 0x104 31 && !r.markDone && !r.remitted && r.starter.isNone &&
    (s.reservOf r.queue).isNone &&
    (match s.slot r.queue with
    | some y => (match y.retried with | some (_, c, u) => !(c = code && u = unit) | none => true)
    | none => false)

/-- Codes whose record never waits for a retry or a test: programs, rights, and the watchdogs of R572. -/
def finalCode (code : Nat) : Bool :=
  faultClass code = 0 || faultClass code = 1 || faultClass code = 4 || code = fBUDGET_OVERRUN || code = fXLATE_TIMEOUT ||
    code = fVAT_FETCH_TIMEOUT

/-- A faulted attempt: the FAULT event, its record, and the record's number. The second meeting of a retried fault has no
record of its own (R254, R555, R558, R565). -/
def State.attemptFault (s : State) (r : CtxRun) (c code unit : Nat) (same : Option Nat) : State × Nat :=
  let s := s.post c 0x0002 unit r.queue (eSeq r.entry) code r.faultAt
  match r.faultRec, same with
  | some n, _ => (s, n)
  | none, some n => (s, n)
  | none, none =>
    let s := s.recordFault code unit (ctxIni r.ctx) r.queue (eSeq r.entry) 0 r.faultAt 0 (if finalCode code then oNone else oPending)
    (s, s.recordOf code unit 0)

/-- A pending deletion of a queue is made: no command of it runs and no parcel names it (R270). -/
def State.queueGone (s : State) (q : Nat) : State :=
  match s.slot q with
  | none => s
  | some y =>
    if y.deleting && y.running.isNone && !(s.validParcels.any fun p => s.pclKind p != 0 && s.pclQueue p = q) then
      let s := s.wrN (s.qAddr q + 8) 4 0
      (({ s with qcache := s.qcache.filter (·.id != q) }).cacheSync).finish 0x0104 q OK
    else s

/-- A reservation ends (R262). -/
def State.dropReserv (s : State) (q : Nat) : State :=
  match s.reservOf q with
  | none => s
  | some r =>
    let s : State := { s with reservs := s.reservs.filter (·.queue != q) }
    let s := s.updSlot q fun y => { y with words := setNth y.words 2 (setBit (qw y.words 2) 12 false), store := [] }
    let s := s.pinSync q
    let s := match r.ctx with
      | .realTime c => if r.active then ((s.wr (uTC c) 0x208 0).wr (uTC c) 0x20C 0) else s
      | _ => s
    ((s.cacheSync.floorSync.startStep).finish 0x0107 q OK).finish 0x0106 q REFUSED

/-- What waited for a queue's command to end (R246, R270, R278). -/
def State.queueIdle (s : State) (q : Nat) : State :=
  let s := (s.finish 0x0105 q OK).updSlot q fun y => { y with halting := false }
  let s := match s.slot q with | some y => if y.reload then s.reloadNow q else s | none => s
  let s := s.finish 0x0103 q OK
  let s := match s.reservOf q with | some r => if r.releasing then s.dropReserv q else s | none => s
  s.queueGone q

/-- What waited for a unit's command boundary: same-bits mode, spares (R35, R91, R271). -/
def State.unitIdle (s : State) (x : Ctx) : State :=
  let s := if x.isMill then s else s.sbBoundary (ctxIni x)
  let s := (s.ctxClusters x).foldl (fun s c =>
    if s.spareRelease.contains c then s.releaseSpare c else s) s
  s

/-- A unit's last command: its queue, its client, whether the queue had a ready entry at its end (R258). -/
def State.noteLast (s : State) (x : Ctx) (q c : Nat) : State :=
  let ready := match s.slot q with | some z => s.isReady z | none => false
  { s with lastRun := SMap.insert (ctxIni x) (q, c, ready) (SMap.erase (ctxIni x) s.lastRun) }

/-- The command runs again from its entry; what waited for the queue's command to end does not wait for that (R270). -/
def State.runAgain (s : State) (r : CtxRun) (mark : Option (Nat × Nat × Nat)) : State :=
  let now := s.nowNs
  let s := (s.updSlot r.queue fun y => { y with
    running := none, restarts := if r.starter.isSome then y.restarts else y.restarts + 1
    retried := mark.orElse fun _ => y.retried, readyAt := some now }).queueIdle r.queue
  let s := s.vtSync
  match s.slot r.queue with
  | some y => s.noteLast r.ctx r.queue (qClient y.words)
  | none => s

/-- A Mill command waits until its law has taken effect (R383, R384). -/
def State.lawWaits (s : State) (r : CtxRun) : Bool :=
  r.ctx.isMill && !r.ended && match s.loopOfQueue r.queue with
    | some l => (s.loop l).pendMain.isSome
    | none => false

/-- Every unit of the command has completed. -/
def State.allDone (s : State) (r : CtxRun) : Bool :=
  r.issued.isEmpty && (r.ended || (r.code.length ≤ r.pos && r.stall.isNone && !s.inFlight r.ctx none)) && !s.lawWaits r

/-- DONE_OP (R164, R166, R222): whether it was applied, and the fault of a signal to a credit mark. -/
def State.doneOp (s : State) (e : List Word) : State × Bool × Nat :=
  match eDoneOp e with
  | 1 => (s.addMark (eDoneMark e) (eDoneValue e), true, 0)
  | 2 => if s.isCreditMark (eDoneMark e) then (s, false, fMARK_DENIED) else (s.signalMark (eDoneMark e) (eDoneValue e), true, 0)
  | _ => (s, false, 0)

/-- The record, the counters and the next entry of a command that ends for good. -/
def State.finalEnd (s : State) (r : CtxRun) (fault steps : Nat) (applied : Bool) : State :=
  let x := r.ctx
  let q := r.queue
  let ring := r.starter.isNone
  match s.slot q with
  | none => s
  | some y =>
    let c := qClient y.words
    let elapsed := 2 * (s.gauge.ticks - r.startTick)
    let s := if fault = fBUDGET_OVERRUN then s.overrun r c elapsed else s
    let waited := if ring then (match y.readyAt with | some t => r.startNs - t | none => 0) else 0
    let s := if fault = fSAME_BITS_BUILD || fault = fSAME_BITS_OFF then s.count uDevctl 0x41C 1 else s
    let s := s.vtSync.stepRegs x steps
    let s := s.complete q r.entry ⟨fault, applied, r.restarts, steps, elapsed⟩ ring (some (steps, s.tileCount x, waited))
    let s := if fault = fXLATE_TIMEOUT then s.haltQueue q 6 else s
    let s := match r.starter with
      | some i => s.setStarterX i { s.starterX i with done := some fault, restarts := 0 }
      | none => s
    (((s.unitIdle x).queueIdle q).readNow q).noteLast x q c

/-- The epilogue of a context's command; steps: what its unit's step counter counted (R177, R251). -/
def State.epilogue (s : State) (x : Ctx) (steps : Nat) : State :=
  match s.run x with
  | none => s
  | some r =>
    if !s.allDone r then s
    else
      let steps := if x.isMill then 0 else steps
      let open_ := !r.ended && r.lock.isSome
      let s := s.tearDown x
      let f0 := if open_ then fLOCK_LEFT_OPEN else r.fault
      let (s, applied, f1) := if f0 = 0 then s.doneOp r.entry else (s, false, 0)
      let fault := if f0 != 0 then f0 else f1
      let unit := r.faultUnit.getD (ctxUnit x)
      match s.slot r.queue with
      | none => s
      | some y =>
        let same := match y.retried with | some (n, c, u) => if c = fault && u = unit then some n else none | none => none
        if fault = 0 then ((s.classify r y.retried 0 unit).finalEnd r 0 steps applied)
        else
          let retry := s.mayRetry r fault unit
          let (s, n) := s.attemptFault r (qClient y.words) fault unit same
          let s := s.classify { r with faultRec := some n } y.retried fault unit
          if retry then
            let s := (s.setOutcome n oPending true).count uFault 0x124 1
            (s.unitIdle x).runAgain r (some (n, fault, unit))
          else s.finalEnd r fault steps false

def execCommandEpilogue (x : Ctx) (steps : Nat) (s : State) : Out := .next (s.epilogue x steps)

/-! ### Limits (R253, R260, R266) -/

/-- A channel of the command is stalled on translation. -/
def CtxRun.xlStalled (r : CtxRun) : Bool := r.issued.any fun i => i.wait = .xlate

/-- A limit ends what still runs of a command. One that a fault has ended already keeps that fault; the limit's is recorded
with OUTCOME None (R260, R563). -/
def State.limitEnd (s : State) (x : Ctx) (r : CtxRun) (code : Nat) : State :=
  if r.ended && r.issued.isEmpty then s
  else
    let s := if r.ended then s.recordFault code (ctxUnit x) (ctxIni x) r.queue (eSeq r.entry) 0 r.pos 0 oNone else s
    ((s.failRun x code r.pos).dcSync x).unitSync x

/-- The elapsed time passes BUDGET; not while the timer stands still. -/
def State.budgetExpiry (s : State) (x : Ctx) : State :=
  match s.run x with
  | none => s
  | some r => if r.xlStalled then s else s.limitEnd x r fBUDGET_OVERRUN

def execBudgetExpiry (x : Ctx) (s : State) : Out := .next (s.budgetExpiry x)

/-- A stall reaches XLATE_TIMEOUT; the queue of a command that another fault has ended halts at once. -/
def State.xlateTimeout (s : State) (x : Ctx) : State :=
  match s.run x with
  | none => s
  | some r =>
    if !r.xlStalled then s
    else
      let s := s.limitEnd x r fXLATE_TIMEOUT
      if r.ended then s.haltQueue r.queue 6 else s

def execXlateTimeoutExpiry (x : Ctx) (s : State) : Out := .next (s.xlateTimeout x)

/-- The 1 µs after a signal has passed: events written meanwhile are signalled. -/
def State.routeSignal (s : State) (c : Nat) : State :=
  let x := s.clientX c
  if !x.hold then s
  else if x.want then (s.setClientX c { x with want := false }).signalRoute c
  else s.setClientX c { x with hold := false }

def execEventRouteSignal (c : Nat) (s : State) : Out := .next (s.routeSignal (c % 4096))

/-- Credits have come to a culvert move that waited: it goes on; hs: handshakes it waited (R222, R242, R308). -/
def State.creditWaitEnd (s : State) (x : Ctx) (unit hs : Nat) : State :=
  match s.run x with
  | none => s
  | some r => match r.current unit with
    | none => s
    | some i => match i.wait with
      | .credits _ | .remote =>
        let (s, f) := s.moveStep x r { i with wait := .none }
        let s := (s.runMembers x i.only).foldl (fun s (_, cl) => s.count (s.culvertOf x cl) 0x110 hs) s
        if f != 0 then s.unitFault x i f else s
      | _ => s

def execCreditWaitEnd (x : Ctx) (unit hs : Nat) (s : State) : Out := .next (s.creditWaitEnd x unit hs)

end Sys2Proof.Machine
end

