-- ==== Sys2Proof/Machine/PecCalls.lean ====
section
/-! DEFINITION. Service calls of Phoek Engine Code: validation, capabilities, padding-tap tables (R118, R209). -/
namespace Sys2Proof.Machine

def BLOCK_FAULT : Nat := 0x0114

/-! ### Validation (R168–R171, R209) -/

/-- The machine as a block is validated on: with no gang formed, one of TC0 and TC1 stands for the gang of a gang block (DESIGN
CHOICE, notes/assumptions/207.md). -/
def State.forCheck (s : State) (cls : Nat) : State :=
  if cls = 2 && s.gangs.isEmpty then { s with gangs := [⟨0, 3, .formed⟩] } else s

/-- The context that a TARGET_CLASS is validated as: a cluster, the first gang, a toe engine. -/
def State.checkCtx (s : State) (cls : Nat) : Ctx :=
  match cls with
  | 1 => .general 0
  | 2 => .gang ((s.gangs.head?.map (·.g)).getD 0)
  | 3 => .toe 0
  | _ => .mill 0

/-- What decode of later words depends on after a word has issued. -/
def State.afterWord (s : State) (r : CtxRun) (w : Dword) : CtxRun :=
  let u := s.chooseUnit r w
  let ring := wOp w = 0x21 || wOp w = 0x40 || wOp w = 0x60
  let mem := (s.runMembers r.ctx r.only).map fun (i, _) => (i, ((tdOf r.tds (w4 w 48)).member i).addr)
  if wOp w / 16 = 0 || wOp w = 0x80 then paramApply w r
  else if wOp w = 0x90 then { r with lock := some ⟨mem.map fun (i, a) => (i, a, bits w 12 0), w4 w 44⟩, only := none }
  else if wOp w = 0x91 then { r with lock := none, only := none }
  else if wOp w / 16 < 7 then
    { r with only := none, pairs := if u = 4 then s.newPairs r w else r.pairs, rm := if ring then setNth r.rm 0 0 else r.rm }
  else { r with only := none }

/-- The first word of a block that faults at decode: its fault and index. -/
def State.firstBad (s : State) (rind : Bool) (r : CtxRun) : List Dword → Nat → Nat × Nat
  | [], _ => (0, 0)
  | w :: t, i =>
    let f := s.decodeFault r none rind w
    if f != 0 then (f, i) else s.firstBad rind (s.afterWord r w) t (i + 1)

/-- The first fault of a block (R168–R171): header, digest, decode; what depends on the entry or on a loop is not checked. -/
def State.blockFault (s : State) (cls tiles : Nat) (rind : Bool) (h : List Word) (code : List Byte) : Nat × Nat :=
  let x := s.checkCtx cls
  let uses := bits (nth h 4 0) 7 0
  let ws := bytesDwords code
  if blockBad x h then (fBLOCK_INVALID, 0)
  else if uses &&& tiles != uses then (fBLOCK_INVALID, 0)
  else if s.genBad h then (fGEN_MISMATCH, 0)
  else if s.sbActive && !x.isMill && !bit (nth h 2 0) 16 then (fSAME_BITS_BUILD, 0)
  else if rind && !digestOk h code then (fPROG_DIGEST, 0)
  else if x.isMill then (match lawFirstBad ws 0 with | some i => (fOPCODE_INVALID, i) | none => (0, 0))
  else s.firstBad rind (freshRun x 0 [] h ws 0 0 0 false none) ws 0

/-- The caller may read n bytes. -/
def State.mayRead (s : State) (ini a n : Nat) : Bool :=
  if a < 0x10000000 then s.polderAllowed ini a n false
  else if fwRegion s.part a || fwRegion s.part (a + n - 1) then ini = 0x40 || ini = 0x41
  else regionOf s.part a = .host || (regionOf s.part a = .lpddr && s.fwAllows ini a false && s.fwAllows ini (a + n - 1) false)

/-- Read a block for a call: under its caller's rights in the Polder, else as calls read. -/
def State.callBlock (s : State) (ini a n : Nat) : State × Nat × List Word × List Byte :=
  if a < 0x10000000 then
    let (s, c, b) := s.polRead ini a n
    (s, if c = 0 then OK else REFUSED, if c = 0 then [] else [w32 c], b)
  else
    let (s, r, b) := s.callRead ini a (pagesFor n) n
    (s, (callFault r).1, (callFault r).2, b)

/-- 0x0019. -/
def callValidate (ini : Nat) (args : List Word) (s : State) : State :=
  let a := argAddr args 0
  let cls := arg args 2
  if a % 64 != 0 || cls = 0 || 4 < cls || 255 < arg args 3 || 1 < arg args 4 then s.ret RANGE
  else if !s.mayRead ini a 64 then s.ret DENIED
  else
    let (s, st, ws, hb) := s.callBlock ini a 64
    if st != OK then s.ret st ws
    else
      let h := bytesWords hb
      let n := 8 * bits (nth h 1 0) 12 0
      if blockBad (s.checkCtx cls) h then s.ret BLOCK_FAULT [w32 fBLOCK_INVALID, 0]
      else if !s.mayRead ini (a + 64) n then s.ret DENIED
      else
        let (s, st, ws, cb) := s.callBlock ini (a + 64) n
        if st != OK then s.ret st ws
        else
          let (f, i) := (s.forCheck cls).blockFault cls (arg args 3) (arg args 4 = 1) h cb
          if f = 0 then s.ret OK else s.ret BLOCK_FAULT [w32 f, w32 i]

def execValidateCommandBlock (ini : Nat) (args : List Word) (s : State) : Out := .next (callValidate ini args s)

/-- 0x001A. -/
def callPecCaps (s : State) : State :=
  s.ret OK [1, w32 (s.fld uDevctl 0x300 7 0), w32 (s.fld (uVE 0) 0x108 15 0), 4096, 4096, 4096, 512]

def execReadPecCapabilities (_ : Nat) (_ : List Word) (s : State) : Out := .next (callPecCaps s)

/-! ### Padding-tap tables (R118) -/

/-- A record of a tap and channel. -/
def tapBytes (win : Int) (a : Sum) : List Byte :=
  natBytes 10 (unsext 80 a.s) ++ natBytes 2 (unsext 10 win + b2n a.nonFin * 2 ^ 15) ++ natBytes 4 a.products ++
    natBytes 4 a.spills ++ natBytes 4 a.unders ++ natBytes 4 a.peak ++ natBytes 4 0

/-- The weights that 0x0E06 names: address, format, zero point, scale address (0: unscaled), k rows of output channels. -/
def tapWeights (args : List Word) : TD :=
  { TD.zero with
    addr := argAddr args 0, fmt := arg args 2, zp := arg args 5 % 256, scaled := argAddr args 3 != 0
    scaleAddr := argAddr args 3, rows := arg args 9 * arg args 10 * arg args 11, cols := arg args 12 }

/-- The activations' format and zero point. -/
def tapAct (args : List Word) : TD := { TD.zero with fmt := arg args 6, zp := arg args 7 % 256 }

/-- The arguments of 0x0E06 are in range: formats, zero points, kh, kw, channels of a group, output channels, the pad code, W,
the table address. -/
def tapArgsOk (args : List Word) : Bool :=
  let n := arg args
  fmtInput (n 2) && fmtInput (n 6) && zpOk (n 2) (argInt args 5) && zpOk (n 6) (argInt args 7) &&
    1 ≤ n 9 && n 9 ≤ 16 && 1 ≤ n 10 && n 10 ≤ 16 && 1 ≤ n 11 && n 11 ≤ 65536 && 1 ≤ n 12 && n 12 ≤ 65536 &&
    n 8 < 2 ^ fmtBits (n 6) && -512 ≤ argInt args 13 && argInt args 13 ≤ 511 && argAddr args 14 % 64 = 0

/-- The caller may read the weights and their scales, and write the table. -/
def State.tapRights (s : State) (ini : Nat) (args : List Word) : Bool :=
  let w := tapWeights args
  s.polderAllowed ini w.addr ((w.rows - 1) * w.stride + w.rowSize) false &&
    s.polderAllowed ini (argAddr args 14) (32 * arg args 9 * arg args 10 * arg args 12) true &&
    (!w.scaled || s.polderAllowed ini w.scaleAddr (2 * w.cols * ceilDiv w.rows 32) false)

/-- The table that the weights give: one record for each tap and output channel (R118). -/
def State.tapTable (s : State) (ini : Nat) (args : List Word) : Load (List Byte) :=
  let w := tapWeights args
  let act := tapAct args
  let win := argInt args 13
  let nb := ceilDiv w.rows 32
  let lb := s.loadRows ini w
  let sb := lb.s.loadScales ini w (w.cols * nb)
  let lines := scaledLines w w.rows (transLines w.cols lb.v) sb.v
  let fault := orFault lb.fault sb.fault
  let pad := expand act.fmt act.z (arg args 8)
  ⟨sb.s, fault, (List.range (arg args 9 * arg args 10)).flatMap fun t => lines.flatMap fun l =>
    let ws := (((l.getD []).drop (t * arg args 11)).take (arg args 11)).map (·.1)
    tapBytes win (dot win (ws.map fun e => (pad, e)))⟩

/-- 0x0E06: build a padding-tap table and write it. -/
def callTapTable (ini : Nat) (args : List Word) (s : State) : State :=
  if !tapArgsOk args then s.ret RANGE
  else if !s.tapRights ini args then s.ret DENIED
  else
    let r := s.tapTable ini args
    if r.fault != 0 then r.s.ret REFUSED [w32 r.fault]
    else
      let (s, c) := r.s.polWrite ini (argAddr args 14) r.v
      if c = 0 then s.ret OK else s.ret REFUSED [w32 c]

def execBuildPaddingTapTable (ini : Nat) (args : List Word) (s : State) : Out := .next (callTapTable ini args s)

end Sys2Proof.Machine
end

