-- ==== Sys2Proof/Machine/Polder.lean ====
section
/-! DEFINITION. The Polder's rows: accesses, gather buffers, hazards, break points, the sluice watchdog, scrub, spare rows
and banks, retention sleep (R210–R214, R217–R221, R224–R232, R235–R238). -/
namespace Sys2Proof.Machine

/-! ### Accesses (R217–R221, R229, R231, R235, R238) -/

/-- The widths and alignments that R221 lists; a burst is one to sixteen rows. -/
def widthOk (a n : Nat) : Bool :=
  ((n = 4 || n = 8 || n = 16 || n = 32) && a % n = 0) || (n % 64 = 0 && 0 < n && n ≤ 1024)

/-- An access is refused or fails: a command ends with the code, another initiator gets an error response (R218). -/
def State.accessFails (s : State) (ini code : Nat) : State :=
  match iniCtx ini with
  | some x => match s.run x with
    | some r => ((s.failRun x code r.pos).dcSync x).unitSync x
    | none => { s with reply := ⟨true, []⟩ }
  | none => { s with reply := ⟨true, []⟩ }

def execGatherIdleFlush (b r : Nat) (s : State) : Out := .next (s.gatherFlush (b % 512) (r % 8192))

/-! ### An access -/

/-- An access that the sluice lets through: data, poison, gather buffers, hazards. -/
def State.accessDo (s : State) (ini port a n : Nat) (write : Option (List Byte)) (hs : Nat) : State :=
  let s := (rowsOf a n).foldl (fun s r => s.hazRow ini port r write.isSome hs) s
  let s := s.gather (port = 30) a n write.isSome
  match write with
  | some l =>
    let (s, c) := s.polPut a (l.take n) false
    if c = 0 then { s with reply := ⟨false, []⟩ } else s.accessFails ini c
  | none =>
    let (s, c, l) := s.polGet a n
    if c = 0 then { s with reply := ⟨false, l⟩ } else s.accessFails ini c

/-- The groups of a range that are asleep. -/
def State.asleepIn (s : State) (a n : Nat) : List Nat :=
  (((rowsOf a n).map fun r => s.groupOf (bankOf r)).eraseDups).filter fun g => s.flag (uBG g) 0x100 31

/-- An access reaches the Polder through a port at a handshake count. One that reaches a sleeping group is held there and
wakes it (R238); one that meets a bank which another requester holds waits for its end (R226, R227, R231). -/
def State.polAccess (s : State) (ini port a n : Nat) (write : Option (List Byte)) (hs : Nat) : State :=
  let w := write.isSome
  if s.isSevered port ini then s.accessFails ini fPORT_SEVERED
  else if !widthOk a n || !s.polderAllowed ini a n w then (s.polderDeny ini a w).accessFails ini fPARCEL_DENIED
  else
    let gs := s.asleepIn a n
    if gs.isEmpty && !s.barred (viaPort port ini) a n then s.accessDo ini port a n write hs
    else
      let s := gs.foldl (fun s g =>
        (s.setFlag (uBG g) 0x100 30 true).countF (uBG g) 0x14C (if w then 31 else 15) (if w then 16 else 0) 1) s
      { s with held := s.held ++ [⟨ini, port, a, n, write, some hs, false, none, [], none, []⟩] }

def execPolderAccess (ini port a n : Nat) (write : Bool) (data : List Byte) (hs : Nat) (s : State) : Out :=
  .next (s.polAccess ini (port % 32) a n (if write then some ((data ++ List.replicate n 0).take n) else none) hs)

/-- Nothing holds an access any more. -/
def State.mayGo (s : State) (h : HeldAcc) : Bool := (s.asleepIn h.addr h.len).isEmpty && !s.barred (viaPort h.port h.ini) h.addr h.len

/-- The held accesses of some kind that nothing holds any more complete in order (R231, R238). -/
def State.heldGo (s : State) (kind : HeldAcc → Bool) : State :=
  let go := fun (h : HeldAcc) => h.at_.isSome && kind h && s.mayGo h
  (s.held.filter go).foldl (fun s h => s.accessDo h.ini h.port h.addr h.len h.write (h.at_.getD 0))
    { s with held := s.held.filter fun h => !go h }

/-- A group's wake ends: the accesses that it held complete in order; those of a group that an instruction's access has woken
complete too (R238). -/
def State.lateWake (s : State) (g : Nat) : State :=
  if s.domainOff (uBG g) then s
  else (if s.flag (uBG g) 0x100 30 then (s.wakeGroup g).unitEvent (uBG g) else s).heldGo fun _ => true

def execBgLateWake (g : Nat) (s : State) : Out := .next (s.lateWake (g % 12))

/-- A bank group enters retention sleep: its gather buffers have drained, its sluices are asleep (R230, R238). -/
def State.retain (s : State) (g : Nat) : State :=
  let s := (span 0 512).foldl (fun s b =>
    if s.groupOf b = g then s.setBank b { s.bank b with gather := [], st := .asleep, holder := none } else s) s
  ((s.setFlag (uBG g) 0x100 31 true).count (uBG g) 0x148 1).unitEvent (uBG g)

/-- Retention sleep in TRIM; refused while a reservation is active; a group with a bank of an opening or a passage delays
(R238, R516). -/
def State.idleRetention (s : State) (g : Nat) : State :=
  if s.pwrState != 1 || s.flag (uBG g) 0x100 31 || s.lockIn g then s
  else if s.reservs.any (·.active) then s.pwrRefuse 1 1 (uBG g)
  else s.retain g

def execBgIdleRetention (g : Nat) (s : State) : Out := .next (s.idleRetention (g % 12))

/-! ### Break points (R224–R227, R230) -/

/-- The wait limit of a port at a bank. -/
def State.waitLimit (s : State) (b port : Nat) : Nat :=
  s.fld (uBG (s.groupOf b)) (0x110 + 4 * (port / 4)) (8 * (port % 4) + 7) (8 * (port % 4))

def BankX.wait (x : BankX) (port : Nat) : Nat := SMap.get (fun _ => 0) port x.waits

/-- The waiting ports that have reached their limit, in the order in which they did, then ascending. -/
def State.forcedNow (s : State) (b : Nat) (x : BankX) (ports : List Nat) : List Nat :=
  let past := ports.filter fun p => s.waitLimit b p ≤ x.wait p
  let kept := x.forced.filter past.contains
  kept ++ (past.filter fun p => !kept.contains p).mergeSort (· ≤ ·)

/-- The waiting port of highest rank, ties to the first after the last winner, ascending, wrapping. -/
def byRank (last : Nat) (reqs : List (Nat × Nat × Nat)) : Option (Nat × Nat × Nat) :=
  let top := (reqs.map fun r => r.2.1).foldl max 0
  let best := (reqs.filter fun r => r.2.1 = top).mergeSort fun p q => p.1 ≤ q.1
  (best.find? (last < ·.1)).orElse fun _ => best.head?

/-- The opening at the lock arbiter asks for this bank next. -/
def State.lockHere (s : State) (b : Nat) : Option LockX :=
  match s.locks.find? fun l => !l.isOpen with
  | some l => if nth l.banks l.reserved 512 = b then some l else none
  | none => none

/-- A bank's next holder; every other waiting port has waited once more. -/
def State.grant (s : State) (b : Nat) (x : BankX) (ports : List Nat) (port ini : Nat) (st : Sluice) : State :=
  let waits := ports.foldl (fun w p => SMap.set (fun _ => 0) p (if p = port then 0 else x.wait p + 1) w) []
  let y := { x with waits := waits, last := port, st := st, holder := some (port, ini) }
  s.setBank b { y with forced := s.forcedNow b y (ports.filter (· != port)) }

/-- The toe engine's command works on a feed (R130). -/
def State.onFeed (s : State) (x : Ctx) : Bool :=
  match s.run x with
  | none => false
  | some r => match r.current 8 with
    | some i => wOp i.word = 0x60 && bit i.word 30
    | none => false

/-- The rank of a request (R214): an initiator that its table does not name has rank 1 (DESIGN CHOICE,
notes/assumptions/174.md). -/
def State.rankOf (s : State) (port ini : Nat) : Nat :=
  if port = 31 then 0
  else match iniCtx ini with
    | some x =>
      if (match x with | .realTime _ => true | _ => false) || s.reservs.any (fun r => r.active && r.ctx = x) then 3
      else if s.onFeed x then 2 else 1
    | none => if ini = 0x48 || ini = 0x49 then 3 else if creditIni ini then 2 else 1

/-- The maintenance port may send a burst to a group: no command of R237 runs, or its wait there has reached 10 ms. -/
def State.maintMay (s : State) (g : Nat) : Bool := !s.rtBusy || s.maintDue.contains g

/-- A burst of the maintenance port at a group: one sent at the limit, on any pass granted to port 31, is counted and ends the wait
(R237, R240). -/
def State.maintSent (s : State) (g : Nat) : State :=
  if s.rtBusy then { s.countF (uBG g) 0x160 31 16 1 with maintDue := s.maintDue.filter (· != g) } else s

/-- The requests that wait at a bank: accesses held at its sluice, then those of the operand; not of a severed port, not the
maintenance port's while it holds (R229, R231, R237). -/
def State.waiting (s : State) (b : Nat) (reqs : List (Nat × Nat)) : List (Nat × Nat) :=
  let held := (s.held.filter fun h => h.at_.isSome && (rowsOf h.addr h.len).any fun r => bankOf r = b).map fun h => (h.port, h.ini)
  (held ++ reqs).filter fun q => !s.isSevered q.1 q.2 && (q.1 != 31 || s.maintMay (s.groupOf b))

/-- The head of each port, as port, rank, initiator: by rank, then in the order of arrival (R214). -/
def State.heads (s : State) (reqs : List (Nat × Nat)) : List (Nat × Nat × Nat) :=
  (reqs.map (·.1)).eraseDups.filterMap fun p =>
    let mine := (reqs.filter (·.1 = p)).map fun q => (p, s.rankOf p q.2, q.2)
    mine.find? fun q => mine.all fun k => k.2.1 ≤ q.2.1

/-- The sluice's choice among the head requests at a break point (R225). -/
def State.sluiceChoice (s : State) (b : Nat) (reqs : List (Nat × Nat × Nat)) : State :=
  let x := s.bank b
  let ports := reqs.map (·.1)
  match (s.forcedNow b x ports).head?.bind fun p => reqs.find? (·.1 = p) with
  | some (p, _, i) => (s.count (uBG (s.groupOf b)) 0x130 1).grant b x ports p i .pass
  | none => match s.lockHere b with
    | some l =>
      let s := s.grant b x ports l.port l.ini .reserved
      { s with locks := updFirst (fun k => !k.isOpen) (fun k => { k with reserved := k.reserved + 1 }) s.locks }
    | none => match byRank x.last reqs with
      | some (p, _, i) => s.grant b x ports p i .pass
      | none => s.setBank b { x with waits := [], forced := [], st := .idle, holder := none }

/-- A break point of a bank with the requests that wait there in the order of arrival: port, initiator (R225). A reserved, a
locked or a sleeping bank has none. What the chosen port had waiting in the model completes; commands that wait at a sluice
try again. -/
def State.breakPoint (s : State) (b : Nat) (reqs : List (Nat × Nat)) : State :=
  match (s.bank b).st with
  | .reserved => s
  | .locked => s
  | .asleep => s
  | _ =>
    let s := s.sluiceChoice b (s.heads (s.waiting b reqs))
    let s := match (s.bank b).st, (s.bank b).holder with
      | .pass, some (p, i) => (if p = 31 then s.maintSent (s.groupOf b) else s).heldGo fun h => h.port = p && h.ini = i && (rowsOf h.addr h.len).any fun r => bankOf r = b
      | _, _ => s
    s.retryAll

def execBreakPoint (b : Nat) (reqs : List (Nat × Nat)) (s : State) : Out :=
  .next (s.breakPoint (b % 512) (reqs.map fun r => (r.1 % 32, r.2)))

/-- The sluice watchdog of a bank's group bites (R229). -/
def State.sluiceBite (s : State) (b : Nat) : State :=
  match (s.bank b).holder with
  | none => s
  | some (port, ini) =>
    let u := uBG (s.groupOf b)
    let s := (s.count u 0x108 1).wr u 0x10C
      (w32 (2 ^ 31 + port % 32 * 2 ^ 25 + ini % 2 ^ 10 * 2 ^ 15 + s.phys b % 44 * 2 ^ 9))
    let s := if 14 ≤ port && port < 30 then s.countF (uDC (port - 14)) 0x118 15 0 1 else s
    let s := (s.freeBanks [b]).postedNow
    match iniCtx ini with
    | some x => match s.run x with
      | some _ => { (s.dropLocks x).accessFails ini fPORT_SEVERED with severed := (port, ini) :: s.severed }
      | none => s.accessFails ini fPORT_SEVERED
    | none => s.accessFails ini fPORT_SEVERED

def execSluiceWatchdogBite (b : Nat) (s : State) : Out := .next (s.sluiceBite (b % 512))

/-! ### Rows, spare rows, spare banks (R210, R235–R237) -/

/-- The logical bank on a physical bank. -/
def State.logical (s : State) (p : Nat) : Option Nat := lowest 512 fun b => s.phys b = p

/-- Spare rows used of a physical bank. -/
def State.usedSpares (s : State) (p : Nat) : Nat := SMap.get (fun _ => 0) p s.spareRows

/-- BG_ROWS follows the rows and spares of a group (R240). -/
def State.rowsSync (s : State) (g : Nat) : State :=
  let mine := s.rows.filter fun e => e.1 / 8192 / 44 = g
  let used := (s.spareRows.filter fun e => e.1 / 44 = g && (s.logical e.1).isSome).foldl (fun a e => max a e.2) 0
  s.wr (uBG g) 0x13C (w32 ((mine.filter fun e => e.2.retired).length * 2 ^ 16 +
    min 255 (mine.filter fun e => e.2.dead).length * 2 ^ 8 + (32 - used)))

/-- Spare physical banks of a group, lowest first. -/
def spareBanks (g : Nat) : List Nat := if g < 4 then [44 * g + 42, 44 * g + 43] else [44 * g + 43]

/-- A spare bank is free: not bound, not being copied to, not Out (R236). -/
def State.bankFree (s : State) (p : Nat) : Bool :=
  (s.logical p).isNone && !(s.copies.any (·.2 = p)) && !s.banksOut.contains p

/-- The spare that would stand in for a logical bank: of its group first, else any (R236). -/
def State.spareFor (s : State) (b : Nat) : Option Nat :=
  let g := s.groupOf b
  ((spareBanks g).find? s.bankFree).orElse fun _ => ((List.range 12).flatMap spareBanks).find? s.bankFree

/-- BG_STATUS and BG_SPARE follow the mapping (R240). -/
def State.bankSync (s : State) (g : Nat) : State :=
  let sp := spareBanks g
  let free := (sp.filter s.bankFree).length
  let mapped := ((List.range 512).filter fun b => s.groupOf b = g).length
  let s := s.setFld (uBG g) 0x100 15 0 (free * 256 + mapped)
  let a := match s.logical (44 * g + 43) with | some b => 2 ^ 31 + b * 2 ^ 16 | none => 0
  let c := match (if g < 4 then s.logical (44 * g + 42) else none) with | some b => 2 ^ 15 + b | none => 0
  s.wr (uBG g) 0x140 (w32 (a + c))

/-- A copy to a spare bank starts, when one is free (R236). -/
def State.startCopy (s : State) (b : Nat) : State × Bool :=
  if s.copies.any (·.1 = b) then (s, true)
  else match s.spareFor b with
    | none => (s, false)
    | some p => ((({ s with copies := s.copies ++ [(b, p)] }).bankSync (p / 44)).unitEvent (uBG (s.groupOf b)), true)

/-- The owners of the parcels that hold a dead row receive an event; the spec gives it no code (R235). -/
def State.deadEvent (s : State) (b row : Nat) : State :=
  match s.parcelAt (rowAddr b row) with
  | none => s
  | some p =>
    if s.pclKind p = 0 then s
    else match s.queueClient (s.pclQueue p) with
      | none => s
      | some c =>
        let (code, s) := s.fresh
        let (d0, s) := s.fresh
        let (d1, s) := s.fresh
        s.post c (bits code 15 0) (uBG (s.groupOf b)) noQueue 0 d0.toNat d1.toNat

/-- A row is lasting bad: a spare row takes its place with its poison; the last one spares the bank; with neither spare
the row is dead (R235). -/
def State.retireRow (s : State) (b row : Nat) : State :=
  let p := s.phys b
  let g := p / 44
  let k := p * 8192 + row
  let x := s.rowX k
  let used := s.usedSpares p
  if used < 32 then
    let s := s.setRowX k { x with retired := true }
    let s : State := { s with spareRows := SMap.set (fun _ => 0) p (used + 1) s.spareRows }
    let s := (s.recordFault fROW_RETIRED (uBG g) 0x4B noQueue 0 (rowAddr b row) 0 0 oNone).unitEvent (uBG g)
    let s := if used + 1 = 32 then (s.startCopy b).1 else s
    s.rowsSync g
  else
    let (s, ok) := s.startCopy b
    if ok then s
    else (((s.setRowX k { x with poisoned := true, dead := true }).rowsSync g).deadEvent b row).unitEvent (uBG g)

/-- The maintenance port scrubs a row: 0 no error; 1 corrected, the second read clean; 2 the second read fails; 3 an
uncorrectable error; 4 the pattern test after a poison was cleared fails: the spare row inherits the poison (R235). It holds
under R237. -/
def State.scrubRow (s : State) (b row outcome : Nat) : State :=
  let g := s.groupOf b
  if !s.maintMay g then s
  else
    let s := s.maintSent g
    match outcome with
    | 1 => (s.countF (uBG g) 0x134 15 0 1).countCE (uBG g) 1
    | 2 => ((s.countF (uBG g) 0x134 15 0 1).countCE (uBG g) 1).retireRow b row
    | 3 =>
      let k := s.phys b * 8192 + row
      let s := (s.setRowX k { s.rowX k with poisoned := true }).countF (uBG g) 0x138 15 0 1
      s.recordFault fPOLDER_UE (uBG g) 0x4B noQueue 0 (rowAddr b row) 0 0 oNone
    | 4 =>
      let k := s.phys b * 8192 + row
      (s.setRowX k { s.rowX k with poisoned := true }).retireRow b row
    | _ => s

def execScrubRow (b row outcome : Nat) (s : State) : Out := .next (s.scrubRow (b % 512) (row % 8192) outcome)

/-- The last burst of a copy, which holds under R237: the logical bank is remapped, the old bank goes Out; poison goes along
(R235, R236). -/
def State.copyDone (s : State) (b : Nat) : State :=
  match s.copies.find? (·.1 = b) with
  | none => s
  | some (_, p) =>
    if !s.maintMay (s.groupOf b) then s else
    let s := s.maintSent (s.groupOf b)
    let old := s.phys b
    let bad := s.rows.filter fun e => e.1 / 8192 = old && e.2.poisoned
    let s := bad.foldl (fun s e => s.setRowX (p * 8192 + e.1 % 8192) ⟨false, true, false⟩) s
    let s : State := { s with
      rows := s.rows.filter fun e => e.1 / 8192 != old
      bankMap := SMap.set physReset b p s.bankMap
      copies := s.copies.filter (·.1 != b)
      banksOut := s.banksOut ++ [old] }
    let s := (((s.bankSync (old / 44)).bankSync (p / 44)).rowsSync (old / 44)).rowsSync (p / 44)
    let s := s.recordFault fBANK_SPARED (uBG (old / 44)) 0x4B noQueue 0 (b * 2 ^ 10) 0 0 oNone
    let s := s.unitEvent (uBG (old / 44))
    (if p / 44 = old / 44 then s else s.unitEvent (uBG (p / 44))).finish 0x0208 b OK

def execBankCopyDone (b : Nat) (s : State) : Out := .next (s.copyDone (b % 512))

/-- The port has waited 10 ms at a group since its last burst there: its next burst goes regardless (R237). -/
def State.maintLimit (s : State) (g : Nat) : State :=
  if s.rtBusy && !s.maintDue.contains g then { s with maintDue := s.maintDue ++ [g] } else s

def execMaintWaitLimit (g : Nat) (s : State) : Out := .next (s.maintLimit (g % 12))

end Sys2Proof.Machine
end

