-- ==== Sys2Proof/Machine/ParcelCalls.lean ====
section
/-! DEFINITION. The parcel table: register writes, service calls of the Polder (R215, R216, R235, R236, R240–R243, R450). -/
namespace Sys2Proof.Machine

/-! ### Validating and invalidating (R216, R283) -/

/-- Every row of a range has been written whole: none but a dead one is poisoned (R235). -/
def State.cleanRows (s : State) (a n : Nat) : State :=
  let inside := fun (k : Nat) => match s.logical (k / 8192) with
    | some b => decide (a ≤ rowAddr b (k % 8192)) && decide (rowAddr b (k % 8192) < a + n)
    | none => false
  (s.rows.filter fun e => e.2.poisoned && !e.2.dead && inside e.1).foldl
    (fun s e => s.setRowX e.1 { e.2 with poisoned := false }) s

/-- The 64 KiB range of an entry. -/
def pclBytes (base size : Nat) : Nat × Nat := (base * 0x10000, size * 0x10000)

/-- A range overlaps a valid parcel. -/
def State.overlaps (s : State) (base size : Nat) : Bool :=
  s.validParcels.any fun p => s.pclBase p < base + size && base < s.pclBase p + s.pclSize p

/-- A range holds a dead row. -/
def State.deadIn (s : State) (base size : Nat) : Bool :=
  s.rows.any fun e => e.2.dead && match s.logical (e.1 / 8192) with
    | some b => let a := rowAddr b (e.1 % 8192); base * 0x10000 ≤ a && a < (base + size) * 0x10000
    | none => false

/-- POLDER_PARCELS follows the table. -/
def State.pclSync (s : State) : State := s.wr (uBG 0) 0x200 (w32 s.validParcels.length)

/-- A parcel becomes valid: its credits are full, LOST is clear, its weights digest is empty. -/
def State.validate (s : State) (p loc : Nat) : State :=
  let s := s.wr (uBG 0) (pclOff p) (setBit (setBit (w32 loc) 28 false) 31 true)
  let s := s.setFld (uBG 0) (pclOff p + 12) 18 0 (s.pclSize p * 64)
  let s := (s.setWd p (List.replicate 32 0)).wr uDevctl (wdStatOff p) 0
  (s.setPclX p PclX.init).pclSync

/-- VALID = 0 may be written: no command of QUEUE runs, no credit is taken. -/
def State.mayInvalidate (s : State) (p : Nat) : Bool :=
  (s.pclKind p = 0 || match s.slot (s.pclQueue p) with | some y => y.running.isNone | none => true) && (s.pclX p).taken = 0

/-- A parcel stops being valid; calls that wait for it end. -/
def State.invalidate (s : State) (p : Nat) (loc : Word) : State :=
  let q := s.pclQueue p
  let s := ((s.wr (uBG 0) (pclOff p) (setBit loc 31 false)).setPclX p PclX.init).firmSync
  ((s.pclSync.finish 0x0201 p OK).finish 0x0200 p REFUSED).queueGone q

/-! ### Register writes (R8, R216, R450) -/

/-- Why PCL_LOC may not take a value. -/
def State.locCheck (s : State) (p : Nat) (v : Word) : Option AccCause :=
  let base := bits v 11 0
  let size := bits v 23 12 + 1
  let k := s.pclKind p
  if s.pclPinned p then some .check
  else if bit v 31 then
    if s.pclValid p || 4096 < base + size || s.overlaps base size || (k = 1 && !(bit v 30 && bit v 29)) ||
        (k = 2 && bit v 30) || s.deadIn base size then some .check
    else none
  else if s.pclValid p && !s.mayInvalidate p then some .check
  else none

/-- A write to PCL_LOC. -/
def State.pclLocWrite (s : State) (ini p : Nat) (v : Word) : State :=
  s.guarded ini (uBG 0) (pclOff p) v false fun s =>
    match s.locCheck p v with
    | some c => s.accError ini (regAddr (uBG 0) (pclOff p)) c
    | none =>
      if bit v 31 then s.validate p v.toNat
      else if s.pclValid p then s.invalidate p (setBit v 28 (s.flag (uBG 0) (pclOff p) 28))
      else s.store (uBG 0) (pclOff p) v

def execPclLocWrite (ini p value : Nat) (s : State) : Out := .next (s.pclLocWrite ini (p % 1024) (w32 value))

/-- A write to PCL_OWNER or PCL_CREDIT: only while the entry is not valid. -/
def State.pclIdleWrite (s : State) (ini p off : Nat) (v : Word) : State :=
  s.guardedStore ini (uBG 0) (pclOff p + off) v fun s => if s.pclValid p then some .check else none

def execPclOwnerWrite (ini p value : Nat) (s : State) : Out := .next (s.pclIdleWrite ini (p % 1024) 4 (w32 value))
def execPclCreditWrite (ini p value : Nat) (s : State) : Out := .next (s.pclIdleWrite ini (p % 1024) 8 (w32 value))

/-- A write to a rights entry: not of a pinned parcel. -/
def State.pclRightWrite (s : State) (ini p i : Nat) (v : Word) : State :=
  s.guardedStore ini (uBG 0) (pclOff p + 16 + 4 * i) v fun s => if s.pclPinned p then some .check else none

def execPclRightWrite (ini p i value : Nat) (s : State) : Out := .next (s.pclRightWrite ini (p % 1024) (i % 4) (w32 value))

/-! ### Calls on parcels (R243) -/

def OVERLAP : Nat := 0x0120
def TABLE_FULL : Nat := 0x0121
def NO_SPARE : Nat := 0x0122
def DEAD_ROW : Nat := 0x0123
def PINNED : Nat := 0x0124

/-- The caller is the client of a queue. -/
def State.ownsQueue (s : State) (ini q : Nat) : Bool := (s.clientOf ini).isSome && s.clientOf ini = s.queueClient q

/-- The caller may act on a parcel: rights on it, or the client of its queue. -/
def State.onParcel (s : State) (ini p : Nat) : Bool :=
  s.pclRights p ini false || s.pclRights p ini true || (s.pclKind p != 0 && s.ownsQueue ini (s.pclQueue p))

/-- A rights word admits an initiator. -/
def rightAdmits (w : Word) (ini : Nat) : Bool := (bit w 31 || bit w 30) && idMatch (bits w 9 0) (bits w 29 20) ini

/-- A rights word has a reserved bit set. -/
def rightBad (w : Word) : Bool := bits w 19 10 != 0

/-- 0x0200: BASE, SIZE, KIND, QUEUE, LANDING, CREDIT_EN, CREDIT_MARK, four rights entries, ZERO. -/
def callCreateParcel (ini : Nat) (args : List Word) (s : State) : State :=
  let n := arg args
  let base := n 0
  let size := n 1
  let rights := (List.range 4).map fun i => nth args (7 + i) 0
  let bad := size = 0 || 4096 < base + size || 2 < n 2 || 0xFFFFF < n 3 || 1 < n 4 || 1 < n 5 || 0xFFFF < n 6 ||
    rights.any rightBad || 1 < n 11 || (n 2 = 1 && !(n 4 = 1 && n 5 = 1)) || (n 2 = 2 && n 4 = 1)
  if bad then s.ret RANGE
  else if !(rights.any (rightAdmits · ini) || (n 2 != 0 && s.ownsQueue ini (n 3))) then s.ret DENIED
  else if s.foreignClaim ini (uBG 0) then s.ret CLAIMED
  else if s.overlaps base size then s.ret OVERLAP
  else match lowest 1024 fun p => !s.pclValid p with
    | none => s.ret TABLE_FULL
    | some p =>
      if s.deadIn base size then s.ret DEAD_ROW
      else
        let s := (s.wr (uBG 0) (pclOff p + 4) (w32 (n 2 * 2 ^ 30 + n 3))).wr (uBG 0) (pclOff p + 8) (w32 (n 6))
        let s := rights.zipIdx.foldl (fun s (w, i) => s.wr (uBG 0) (pclOff p + 16 + 4 * i) w) s
        let s := s.validate p (n 4 * 2 ^ 30 + n 5 * 2 ^ 29 + (size - 1) * 2 ^ 12 + base)
        if n 11 = 0 then s.ret OK [w32 p]
        else
          let (k, s) := s.firmChan
          (s.setPclX p { s.pclX p with zeroing := some k }).firmSync.retPending 0x0200 p [w32 p]

def execCreateParcel (ini : Nat) (args : List Word) (s : State) : Out := .next (callCreateParcel ini args s)

/-- A firmware culvert has zeroed a new parcel: every row is written whole, which clears its poison (R235, R243). -/
def State.parcelZeroed (s : State) (p : Nat) : State :=
  let x := s.pclX p
  match x.zeroing with
  | none => s
  | some k =>
    let a := s.pclBase p * 0x10000
    let n := s.pclSize p * 0x10000
    let s := ((((s.setPclX p { x with zeroing := none }).zeroMem a n).cleanRows a n).psumGone a n).gatherGone a n
    let u := uDC (14 + k / 4)
    (((s.markStale a n).countWide u 0x108 n).count u 0x114 1).firmSync.finish 0x0200 p OK

def execParcelZeroed (p : Nat) (s : State) : Out := .next (s.parcelZeroed (p % 1024))

/-- A deletion is made when nothing stands in its way. -/
def State.deleteParcel (s : State) (p : Nat) : State :=
  if (s.pclX p).deleting && s.mayInvalidate p then s.invalidate p (s.pclLoc p) else s

def execParcelDeletionMade (p : Nat) (s : State) : Out := .next (s.deleteParcel (p % 1024))

/-- 0x0201. -/
def callDeleteParcel (ini : Nat) (args : List Word) (s : State) : State :=
  let p := arg args 0
  if 1023 < p || !s.pclValid p then s.ret RANGE
  else if !s.onParcel ini p then s.ret DENIED
  else if s.foreignClaim ini (uBG 0) then s.ret CLAIMED
  else if s.pclPinned p then s.ret PINNED
  else if s.callWaits 0x0201 p then s.ret UNIT_BUSY
  else if s.mayInvalidate p then (s.invalidate p (s.pclLoc p)).ret OK
  else (s.setPclX p { s.pclX p with deleting := true }).retPending 0x0201 p

def execDeleteParcel (ini : Nat) (args : List Word) (s : State) : Out := .next (callDeleteParcel ini args s)

/-- 0x0202: the eight words of an entry. -/
def callReadParcel (ini : Nat) (args : List Word) (s : State) : State :=
  let p := arg args 0
  if 1023 < p then s.ret RANGE
  else if !s.onParcel ini p then s.ret DENIED
  else s.ret OK (s.rds (uBG 0) ((List.range 8).map fun i => pclOff p + 4 * i))

def execReadParcel (ini : Nat) (args : List Word) (s : State) : Out := .next (callReadParcel ini args s)

/-- 0x0203: index, four rights entries. -/
def callParcelRights (ini : Nat) (args : List Word) (s : State) : State :=
  let p := arg args 0
  let rights := (List.range 4).map fun i => nth args (1 + i) 0
  if 1023 < p || rights.any rightBad then s.ret RANGE
  else if !s.onParcel ini p then s.ret DENIED
  else if s.foreignClaim ini (uBG 0) then s.ret CLAIMED
  else if s.pclPinned p then s.ret PINNED
  else (rights.zipIdx.foldl (fun s (w, i) => s.wr (uBG 0) (pclOff p + 16 + 4 * i) w) s).ret OK

def execSetParcelRights (ini : Nat) (args : List Word) (s : State) : Out := .next (callParcelRights ini args s)

/-- 0x0204: credits available, taken and not written, the credit-over count, which is then cleared. -/
def callReadCredits (ini : Nat) (args : List Word) (s : State) : State :=
  let p := arg args 0
  if 1023 < p then s.ret RANGE
  else if !s.onParcel ini p then s.ret DENIED
  else
    let x := s.pclX p
    (s.setPclX p { x with excess := 0 }).ret OK [w32 (s.pclAvail p), w32 x.taken, w32 x.excess]

def execReadCredits (ini : Nat) (args : List Word) (s : State) : Out := .next (callReadCredits ini args s)

/-! ### Calls on bank groups (R236, R243) -/

/-- The groups of a mask, or the status that stops a change of one of them. -/
def State.groupsFor (s : State) (mask : Nat) (bad : Bool) : Nat × List Nat :=
  let gs := setIndices 12 mask
  if bad || mask = 0 || 0xFFF < mask then (RANGE, [])
  else match gs.find? fun g => s.mayChange (uBG g) != OK with
    | some g => (s.mayChange (uBG g), [])
    | none => (OK, gs)

/-- Set registers of the groups of a mask. -/
def State.setGroups (s : State) (mask : Nat) (bad : Bool) (f : State → Nat → State) : State :=
  let (st, gs) := s.groupsFor mask bad
  (gs.foldl f s).ret st

/-- 0x0205: group mask, port, limit. -/
def callWaitLimits (args : List Word) (s : State) : State :=
  let p := arg args 1
  let l := arg args 2
  s.setGroups (arg args 0) (31 < p || l = 0 || 255 < l) fun s g =>
    s.setFld (uBG g) (0x110 + 4 * (p / 4)) (8 * (p % 4) + 7) (8 * (p % 4)) l

def execSetWaitLimits (_ : Nat) (args : List Word) (s : State) : Out := .next (callWaitLimits args s)

/-- 0x0206: group mask, limit in µs. -/
def callSluiceWatchdog (args : List Word) (s : State) : State :=
  let l := arg args 1
  s.setGroups (arg args 0) (l < 2 || 64 < l) fun s g => s.wr (uBG g) 0x104 (w32 l)

def execSetSluiceWatchdog (_ : Nat) (args : List Word) (s : State) : Out := .next (callSluiceWatchdog args s)

/-- 0x0207: the registers at 0x0100–0x0160 of a bank group. -/
def callReadBankGroup (args : List Word) (s : State) : State :=
  let u := arg args 0
  if !s.exists? u then s.ret NO_UNIT
  else if unitClass u != some .bg then s.ret RANGE
  else s.maintNow.retRegs u ((List.range 25).map fun i => 0x100 + 4 * i)

def execReadBankGroup (_ : Nat) (args : List Word) (s : State) : Out := .next (callReadBankGroup args s)

/-- 0x0208: spare a logical bank. -/
def callSpareBank (args : List Word) (s : State) : State :=
  let b := arg args 0
  if 511 < b then s.ret RANGE
  else if s.claimed (uBG (s.groupOf b)) then s.ret CLAIMED
  else if s.callWaits 0x0208 b then s.ret UNIT_BUSY
  else
    let (s, ok) := s.startCopy b
    if ok then s.retPending 0x0208 b else s.ret NO_SPARE

def execSpareABank (_ : Nat) (args : List Word) (s : State) : Out := .next (callSpareBank args s)

/-- 0x0209: group mask, EN, WINDOW. -/
def callHazardDetector (args : List Word) (s : State) : State :=
  let en := arg args 1
  let w := arg args 2
  s.setGroups (arg args 0) (1 < en || w = 0 || 16 < w) fun s g => s.wr (uBG g) 0x150 (w32 (en * 2 ^ 31 + w))

def execSetHazardDetector (_ : Nat) (args : List Word) (s : State) : Out := .next (callHazardDetector args s)

/-- 0x020A: logical and physical bank, group, row, retired, poisoned, dead. -/
def callLocate (args : List Word) (s : State) : State :=
  let a := argAddr args 0
  if 0x10000000 ≤ a then s.ret RANGE
  else
    let b := bankOf a
    let x := s.rowX (s.rowKey a)
    s.ret OK [w32 b, w32 (s.phys b), w32 (s.groupOf b), w32 (rowOf a), w32 (b2n x.retired), w32 (b2n x.poisoned), w32 (b2n x.dead)]

def execLocateAddress (_ : Nat) (args : List Word) (s : State) : Out := .next (callLocate args s)

end Sys2Proof.Machine
end

