-- ==== Sys2Proof/Machine/QueueCalls.lean ====
section
/-! DEFINITION. Clients, queues and marks from outside: register writes, the mark window, service calls, reservations
(R244–R249, R252, R255, R256, R261, R262, R266, R268–R270, R278, R490, R596). -/
namespace Sys2Proof.Machine

def RESERVED_ALREADY : Nat := 0x0130
def QUEUE_BUSY : Nat := 0x0131
def NO_STALL : Nat := 0x0132
def CLIENTS_FULL : Nat := 0x0133

/-! ### Client records (R248, R252, R490, R596) -/

/-- An event ring of 2^order records at a lies in a host window or in reachable LPDDR4X below the firmware region. -/
def eventRingOk (p : Part) (a order : Nat) : Bool :=
  let n := 32 * 2 ^ order
  a % 4096 = 0 && 4 ≤ order && order ≤ 16 && inRegion p a n (fun r => r = .lpddr || r = .host) &&
    (regionOf p a = .host || a + n ≤ 0x100000000 + reachable p - 2 ^ 24)

/-- The owner of a pool vector is among the initiators of an ID and mask. -/
def State.vectorOk (s : State) (id mask route v : Nat) : Bool := route != 1 || idCovers id mask (0x100 + s.vecOwner v)

/-- A record becomes valid: its ring and its counters start afresh. -/
def State.clientStart (s : State) (c : Nat) : State :=
  let w := wClient c
  let s := (s.setFld w 24 31 16 0).wr w 28 0
  let s := [0x20, 0x28, 0x30].foldl (fun s o => (s.setWide w o 0).wr w (o + 4) 0) s
  let s := (s.wr w 0x38 0).wr w 0x3C 0
  s.setClientX c { s.clientX c with lost := 0, phase := true }

/-- A record stops being valid: enabled queues of the client halt; no event reaches it. -/
def State.clientGone (s : State) (c : Nat) : State :=
  let hit := fun (d : List Word) => qClient d = c && qEnabled d && !qHalted d
  let loose := s.looseQueues hit
  let s := ((s.qcache.filter fun x => hit x.words).map (·.id)).foldl (fun s q => s.haltQueue q 7) s
  loose.foldl (fun (s : State) q => s.haltStored q 7) s

/-- Why word k of a client record may not take a value. -/
def State.clientCheck (s : State) (c k : Nat) (v : Word) : Option AccCause :=
  let ring := fun (a o : Nat) => if eventRingOk s.part a o then none else some AccCause.check
  if 7 ≤ k then some .readOnly
  else match (findRow (wClient c) (4 * k)).bind (·.bad v) with
    | some x => some x
    | none =>
      if k = 0 then (if v = 0 then some .range else none)
      else if k = 1 then
        if bit v 31 then (if s.cw c 0 = 0 then some .check else ring (s.cEventAddr c) (s.cEventOrder c)) else none
      else if k = 2 then
        if v.toNat % 4096 != 0 then some .range
        else if s.cEventOrder c = 0 then none
        else ring (v.toNat + 2 ^ 32 * bits (s.cw c 3) 15 0) (s.cEventOrder c)
      else if k = 3 then ring ((s.cw c 2).toNat + 2 ^ 32 * bits v 15 0) (bits v 20 16)
      else if k = 4 then
        if s.vectorOk (bits (s.cw c 1) 9 0) (bits (s.cw c 1) 25 16) (bits v 31 30) (bits v 10 0) then none else some .check
      else if k = 5 then (if 65536 < bits v 15 0 + bits v 31 16 then some .check else none)
      else if bits v 31 16 = bits (s.cw c 6) 31 16 then none
      else some .readOnly

/-- A write to CLIENT_WORDk: word k of the record that CLIENT_SEL selects (R268). -/
def State.clientWrite (s : State) (ini k : Nat) (v : Word) : State :=
  let off := 0x240 + 4 * k
  s.guarded ini uSched off v false fun s =>
    let c := s.fld uSched 0x230 11 0
    match s.clientCheck c k v with
    | some x => s.accError ini (regAddr uSched off) x
    | none =>
      let was := s.clientValid c
      let s := s.wr (wClient c) (4 * k) v
      if k = 1 && bit v 31 && !was then s.clientStart c
      else if k = 1 && was && !bit v 31 then s.clientGone c
      else s

def execClientWordWrite (ini k value : Nat) (s : State) : Out := .next (s.clientWrite ini (k % 16) (w32 value))

/-- A two-word address argument lies within 48 bits. -/
def addrArg (args : List Word) (i : Nat) : Bool := arg args (i + 1) < 2 ^ 16

/-- 0x0100: SHARE, ID, ID_MASK, event ring (2 words) and order, ROUTE, VECTOR, first mark, count. -/
def callCreateClient (args : List Word) (s : State) : State :=
  let n := arg args
  let bad := n 0 = 0 || 0xFFFF < n 0 || 0x3FF < n 1 || 0x3FF < n 2 || !addrArg args 3 || 3 < n 6 || 2047 < n 7 ||
    0xFFFF < n 8 || 0xFFFF < n 9 || 65536 < n 8 + n 9
  if bad || !eventRingOk s.part (argAddr args 3) (n 5) || !s.vectorOk (n 1) (n 2) (n 6) (n 7) then s.ret RANGE
  else if s.claimed uSched then s.ret CLAIMED
  else match lowest 4096 fun c => !s.clientValid c with
    | none => s.ret CLIENTS_FULL
    | some c =>
      let w := wClient c
      let s := ((s.wr w 0 (w32 (n 0))).wr w 8 (w32 (n 3))).wr w 12 (w32 (n 4 + n 5 * 2 ^ 16))
      let s := ((s.wr w 16 (w32 (n 6 * 2 ^ 30 + n 7))).wr w 20 (w32 (n 9 * 2 ^ 16 + n 8))).wr w 24 0
      ((s.wr w 4 (w32 (2 ^ 31 + n 2 * 2 ^ 16 + n 1))).clientStart c).ret OK [w32 c]

def execCreateClient (_ : Nat) (args : List Word) (s : State) : Out := .next (callCreateClient args s)

/-- 0x0101: client, SHARE. -/
def callSetShare (ini : Nat) (args : List Word) (s : State) : State :=
  let c := arg args 0
  let v := arg args 1
  if 4095 < c || v = 0 || 0xFFFF < v then s.ret RANGE
  else if s.clientOf ini != some c then s.ret DENIED
  else if s.claimed uSched then s.ret CLAIMED
  else (s.wr (wClient c) 0 (w32 v)).ret OK

def execSetShare (ini : Nat) (args : List Word) (s : State) : Out := .next (callSetShare ini args s)

/-- 0x0102: the counters, low word first; EVENTS_LOST is then cleared. -/
def callAccounting (ini : Nat) (args : List Word) (s : State) : State :=
  let c := arg args 0
  let w := wClient c
  if 4095 < c then s.ret RANGE
  else if s.clientOf ini != some c then s.ret DENIED
  else
    let ws := [0x20, 0x28, 0x30].flatMap fun o => [w32 (s.wide64 w o), w32 (s.wide64 w o / 2 ^ 32)]
    (s.wr w 28 0).ret OK (ws ++ [s.rd w 0x38, s.rd w 0x3C, s.rd w 28])

def execReadClientAccounting (ini : Nat) (args : List Word) (s : State) : Out := .next (callAccounting ini args s)

/-! ### Doorbells and reloads (R246, R249, R268) -/

def execDoorbell (ini q : Nat) (s : State) : Out :=
  .next (s.guarded ini uSched 0x20C (w32 q) true fun s => (s.doorbell (q % 2 ^ 20)).vtSync)

def execQinval (ini q : Nat) (s : State) : Out :=
  .next (s.guarded ini uSched 0x210 (w32 q) false fun s => (s.qinval (q % 2 ^ 20)).vtSync)

/-- QINVAL with ALL: every cached descriptor. -/
def State.qinvalAll (s : State) : State := ((s.qcache.map (·.id)).foldl (fun s q => s.qinval q) s).vtSync

def execQinvalAll (ini : Nat) (s : State) : Out := .next (s.guarded ini uSched 0x210 (w32 (2 ^ 31)) false fun s => s.qinvalAll)

/-! ### Marks (R255, R269) -/

/-- An initiator reads or writes mark m through the window: the firewalls and its client's range (R449). -/
def State.markAccess (s : State) (ini m : Nat) (write : Bool) : State × Bool :=
  let a := 0x10000000 + 4 * m
  let err : State := { s with reply := ⟨true, []⟩ }
  if !s.fwAllows ini a write then (err.fwRefuse ini a write, false)
  else if !s.iniMayMark ini m then (err.markDenied ini m write, false)
  else (s, true)

/-- A 32-bit write in the window signals the mark. -/
def State.markWrite (s : State) (ini m v : Nat) : State :=
  let (s, ok) := s.markAccess ini m true
  if ok then { s.signalMark m v with reply := ⟨false, []⟩ } else s

def execMarkWindowWrite (ini m value : Nat) (s : State) : Out := .next (s.markWrite ini (m % 65536) value)

/-- A write to MARK_ADD adds to the mark that the writer has selected. -/
def State.markAdd (s : State) (ini v : Nat) : State :=
  s.guarded ini uMarks 0x104 (w32 v) true fun s =>
    let m := s.fld (wSel ini) 0x100 15 0
    if s.iniMayMark ini m then s.addMark m (v % 2 ^ 32)
    else (s.markDenied ini m true).accError ini (regAddr uMarks 0x104) .check

def execMarkAddWrite (ini value : Nat) (s : State) : Out := .next (s.markAdd ini value)

/-- 0x0109: mark, 0 for ≥ or 1 for =, value. -/
def callWatch (ini : Nat) (args : List Word) (s : State) : State :=
  let m := arg args 0
  let v := arg args 2
  let eq := arg args 1 = 1
  if 0xFFFF < m || 1 < arg args 1 then s.ret RANGE
  else match s.clientOf ini with
    | none => s.ret DENIED
    | some c =>
      if !s.iniMayMark ini m then s.ret DENIED
      else if s.claimed uMarks then s.ret CLAIMED
      else match lowest 256 fun i => !s.watches.any (·.idx = i) with
        | none => s.ret RANGE
        | some i =>
          let s : State := { s with watches := s.watches ++ [⟨i, c, m, eq, v⟩] }
          let now := s.mark m
          (if markOk now v eq then s.fireWatches m now else s.watchSync).ret OK [w32 i]

def execWatchMark (ini : Nat) (args : List Word) (s : State) : Out := .next (callWatch ini args s)

/-- The key of a pending mark operation on another part, by position, stream and tag. -/
def remoteKey (pos stream tag : Nat) : Nat := (pos * 1024 + stream) * 4096 + tag

/-- A mark operation on another part by a service call, 0x010A or 0x040A (R306, R309, R310, R317). -/
def State.remoteMark (s : State) (num pos m op v : Nat) : State :=
  if !s.exists? uRing then s.ret NO_UNIT
  else if s.ringNpos ≤ pos || pos = s.ringPos || 0xFFFF < m || 1 < op then s.ret RANGE
  else if !s.windowOpen pos then
    let (w, s) := s.fresh
    s.ret REFUSED [w]
  else
    let ini := s.mpIni
    let t := SMap.get (fun _ => 0) ini s.rtags
    (s.transact (2 + op) pos ini none 9 0 [m, v] []).retPending num (remoteKey pos ini t)

/-- 0x010A: mark, 0 signal or 1 add, value; a fourth word directs it at a ring position (R270, R306; DESIGN CHOICE,
notes/assumptions/176.md). -/
def callMark (ini : Nat) (args : List Word) (s : State) : State :=
  let m := arg args 0
  if 0xFFFF < m || 1 < arg args 1 then s.ret RANGE
  else match args.drop 3 with
    | p :: _ => s.remoteMark 0x010A p.toNat m (arg args 1) (arg args 2)
    | [] =>
      if !s.iniMayMark ini m then s.ret DENIED
      else if s.claimed uMarks then s.ret CLAIMED
      else (if arg args 1 = 0 then s.signalMark m (arg args 2) else s.addMark m (arg args 2)).ret OK

def execSignalOrAddMark (ini : Nat) (args : List Word) (s : State) : Out := .next (callMark ini args s)

/-! ### Queues (R244–R246, R248, R250, R270, R278) -/

/-- A queue has been made: its descriptor is cached, or the table holds an ORDER for it. -/
def State.queueMade (s : State) (q : Nat) : Bool := (s.slot q).isSome || s.rdN (s.qAddr q + 8) 1 % 32 != 0

/-- The lowest queue ID from q on that has not been made. -/
def State.freeQueue (s : State) : Nat → Nat → Option Nat
  | 0, _ => none
  | n + 1, q => if s.queueMade q then s.freeQueue n (q + 1) else some q

/-- A queue's sixteen words: the cached ones, else the table's. -/
def State.qWords (s : State) (q : Nat) : List Word :=
  match s.slot q with
  | some x => x.words
  | none => s.rdWs (s.qAddr q) 16

/-- The descriptor that the arguments of 0x0103 from index 1 on spell; start: HEAD 0, both phases 1 (R248). -/
def descOf (args : List Word) (start : Bool) : List Word :=
  let n := arg args
  [w32 (n 1), w32 (n 2),
    w32 (n 3 + n 4 * 2 ^ 8 + n 5 * 2 ^ 9 + n 6 * 2 ^ 10 + n 7 * 2 ^ 11 + b2n start * 2 ^ 13 + n 8 * 2 ^ 16), 0,
    w32 (n 9), w32 (n 10 + n 11 * 2 ^ 16), w32 (n 12), w32 (b2n start * 2 ^ 20),
    w32 (n 13 + n 14 * 2 ^ 16), w32 (n 15 + n 16 * 2 ^ 16), w32 (n 17 + n 18 * 2 ^ 6 + n 19 * 2 ^ 9 + n 20 * 2 ^ 11),
    w32 (n 21 + n 22 * 2 ^ 16), w32 (n 23), 0, 0, 0]

/-- An argument of 0x0103 does not fit its field. -/
def descBad (args : List Word) : Bool :=
  let n := arg args
  !addrArg args 1 || !addrArg args 9 || 31 < n 3 || [4, 5, 6, 7, 20, 22].any (fun i => 1 < n i) || 0xFFF < n 8 || 31 < n 11 ||
    0xFFFFF < n 12 || [13, 14, 15, 16, 21].any (fun i => 0xFFFF < n i) || 63 < n 17 || 7 < n 18 || 3 < n 19

/-- 0x0103: queue or 0xFFFFF, ring, ORDER, ENABLED, XLATE, HALT_ON_FAULT, PIN, CLIENT, completion ring, COMP_ORDER,
COMP_HEAD, MARKA, MARKB (first, count), UNITS (TC, gang, TE, Mill), WATCH_MARK, WATCH_EN, BUDGET_CAP. -/
def callQueue (ini : Nat) (args : List Word) (s : State) : State :=
  let q0 := arg args 0
  let d := descOf args true
  let cause := s.qInvalid 0x100000 d
  if 0xFFFFF < q0 || descBad args || (1 ≤ cause && cause ≤ 3) then s.ret RANGE
  else if s.clientOf ini != some (qClient d) then s.ret DENIED
  else if s.claimed uSched then s.ret CLAIMED
  else match (if q0 = 0xFFFFF then s.freeQueue 1048576 0 else some q0) with
    | none => s.ret RANGE
    | some q =>
      let made := s.queueMade q
      let kept := match s.slot q with | some x => s.qKept x | none => false
      if made && !s.ownsQueue ini q then s.ret DENIED
      else if s.callWaits 0x0103 q then s.ret UNIT_BUSY
      else if qPin d && !kept && 1024 ≤ s.pinnedNow then s.ret RANGE
      else if regionOf s.part (s.qAddr q) != .lpddr then
        let (w, s) := s.fresh
        s.ret REFUSED [w]
      else
        let t := if made then keepRO (descOf args false) (s.rdWs (s.qAddr q) 16) else d
        let s := (s.wrWs (s.qAddr q) t).qinval q
        match s.slot q with
        | some x => if x.reload then s.retPending 0x0103 q [w32 q] else s.vtSync.ret OK [w32 q]
        | none => s.ret OK [w32 q]

def execCreateOrChangeQueue (ini : Nat) (args : List Word) (s : State) : Out := .next (callQueue ini args s)

/-- The parcels of a queue. -/
def State.queueParcels (s : State) (q : Nat) : List Nat := s.validParcels.filter fun p => s.pclKind p != 0 && s.pclQueue p = q

/-- 0x0104: its parcels go with it, each when it may; its reservation is released. -/
def callDeleteQueue (ini : Nat) (args : List Word) (s : State) : State :=
  let q := arg args 0
  let ps := s.queueParcels q
  if 0xFFFFF < q || !s.queueMade q then s.ret RANGE
  else if !s.ownsQueue ini q then s.ret DENIED
  else if s.claimed uSched || s.reservClaimed q then s.ret CLAIMED
  else if !ps.isEmpty && s.foreignClaim ini (uBG 0) then s.ret CLAIMED
  else if ps.any s.pclPinned then s.ret PINNED
  else if s.callWaits 0x0104 q then s.ret UNIT_BUSY
  else
    let s := (s.loadQueue q).updSlot q fun y => { y with deleting := true }
    let s := ps.foldl (fun s p => (s.setPclX p { s.pclX p with deleting := true }).deleteParcel p) s
    let s : State := { s with reservs := s.reservs.map fun r => if r.queue = q then { r with releasing := true } else r }
    let idle := match s.slot q with | some y => y.running.isNone | none => true
    let s := if idle then (s.dropReserv q).queueGone q else s
    if (s.slot q).isSome then s.retPending 0x0104 q else s.ret OK

def execDeleteQueue (ini : Nat) (args : List Word) (s : State) : Out := .next (callDeleteQueue ini args s)

/-- A bit of word 2 of a cached descriptor. -/
def State.setQBit (s : State) (q i : Nat) (b : Bool) : State :=
  s.updSlot q fun y => { y with words := setNth y.words 2 (setBit (qw y.words 2) i b) }

/-- 0x0105: queue, action: 0 enable, 1 halt, 2 resume. -/
def callQueueAction (ini : Nat) (args : List Word) (s : State) : State :=
  let q := arg args 0
  let act := arg args 1
  if 0xFFFFF < q || 2 < act then s.ret RANGE
  else if !s.ownsQueue ini q then s.ret DENIED
  else if s.claimed uSched then s.ret CLAIMED
  else
    let s := s.loadQueue q
    match s.slot q with
    | none => s.ret RANGE
    | some y =>
      if y.halting then s.ret QUEUE_BUSY
      else if act = 0 then
        let a := s.qAddr q + 8
        ((s.setQBit q 8 true).wrN a 4 (setBit (s.rdW a) 8 true).toNat).vtSync.ret OK
      else if act = 1 then
        let s := s.haltQueue q 5
        if y.running.isSome then (s.updSlot q fun z => { z with halting := true }).retPending 0x0105 q else s.ret OK
      else (s.setQBit q 14 false).vtSync.ret OK

def execEnableHaltOrResumeQueue (ini : Nat) (args : List Word) (s : State) : Out := .next (callQueueAction ini args s)

/-- 0x010B: the sixteen words of R244. -/
def callReadQueue (ini : Nat) (args : List Word) (s : State) : State :=
  let q := arg args 0
  if 0xFFFFF < q then s.ret RANGE
  else if !s.ownsQueue ini q then s.ret DENIED
  else s.ret OK (s.qWords q)

def execReadQueue (ini : Nat) (args : List Word) (s : State) : Out := .next (callReadQueue ini args s)

/-! ### Reservations (R261, R262, R516) -/

/-- The context that a reservation of a unit gives. -/
def reservCtx (u : Nat) : Option Ctx :=
  match unitClass u with
  | some .tc => some (.realTime (u - 0x10))
  | some .gang => some (.gang (u - 0x140))
  | some .te => some (.toe (u - 0x88))
  | _ => none

/-- A waiting reservation can take effect: its corner is reached and no command runs on what it takes. -/
def State.reservReady (s : State) (r : Reserv) : Bool :=
  r.cornerV ≤ s.ratePoint && (s.run r.ctx).isNone &&
    match r.ctx with
    | .realTime c => (s.run (.general c)).isNone
    | _ => true

/-- A reservation takes effect. -/
def State.reservOn (s : State) (r : Reserv) : State :=
  let q := r.queue
  let s : State := { s with reservs := s.reservs.map fun y => if y.queue = q then { y with active := true } else y }
  let s := (s.loadQueue q).setQBit q 12 true
  let s := match r.ctx with
    | .realTime c => (s.wr (uTC c) 0x208 (w32 (2 ^ 31 + q))).wr (uTC c) 0x20C (w32 r.tiles)
    | _ => s
  ((s.cacheSync.floorSync.startStep).prefetch q 4).vtSync

/-- 0x0106: queue, unit, tile mask, CORNER_V, CORNER_HOT. -/
def callReserve (ini : Nat) (args : List Word) (s : State) : State :=
  let q := arg args 0
  let u := arg args 1
  let tiles := arg args 2
  let m := s.mayChange u
  match reservCtx u with
  | none => if s.exists? u then s.ret RANGE else s.ret NO_UNIT
  | some x =>
    let tc := unitClass u = some .tc
    if 0xFFFFF < q || (tc && (tiles = 0 || 255 < tiles)) || 5 < arg args 3 || 1 < arg args 4 then s.ret RANGE
    else if !s.ownsQueue ini q then s.ret DENIED
    else if m != OK then s.ret m
    else if s.claimed uSched then s.ret CLAIMED
    else if (s.reservOf q).isSome || s.reservs.any (·.ctx = x) then s.ret RESERVED_ALREADY
    else if arg args 3 > capPoint s.part s.capW then s.ret REFUSED [2]
    else
      let s := s.loadQueue q
      let d := s.qWords q
      let kept := match s.slot q with | some y => s.qKept y | none => false
      let host := regionOf s.part (qRing d) = .host || regionOf s.part (qComp d) = .host
      if (tc && (s.gangOf (u - 0x10)).isSome) || qXlate d || host || (!kept && 1024 ≤ s.pinnedNow) then
        let (w, s) := s.fresh
        s.ret REFUSED [w]
      else
        let r : Reserv := ⟨q, x, if tc then tiles else 0, arg args 3, arg args 4 = 1, false, false⟩
        let s : State := { s with reservs := s.reservs ++ [r] }
        if s.reservReady r then (s.reservOn r).ret OK
        else (s.cacheSync.startStep).retPending 0x0106 q

def execReserve (ini : Nat) (args : List Word) (s : State) : Out := .next (callReserve ini args s)

/-- VDD_CORE has reached the declared corner: a pending reservation takes effect. -/
def State.reservEffective (s : State) (q : Nat) : State :=
  match s.reservs.find? fun r => r.queue = q && !r.active && !r.releasing with
  | none => s
  | some r => if s.reservReady r then (s.reservOn r).finish 0x0106 q OK else s

def execReservationEffective (q : Nat) (s : State) : Out := .next (s.reservEffective (q % 2 ^ 20))

/-- 0x0107. -/
def callReleaseReservation (ini : Nat) (args : List Word) (s : State) : State :=
  let q := arg args 0
  if 0xFFFFF < q then s.ret RANGE
  else if !s.ownsQueue ini q then s.ret DENIED
  else if s.claimed uSched || s.reservClaimed q then s.ret CLAIMED
  else if s.callWaits 0x0107 q then s.ret UNIT_BUSY
  else match s.slot q with
    | none => s.ret OK
    | some y =>
      if (s.reservOf q).isSome && y.running.isSome then
        let s : State := { s with reservs := s.reservs.map fun r => if r.queue = q then { r with releasing := true } else r }
        s.retPending 0x0107 q
      else (s.dropReserv q).ret OK

def execReleaseReservation (ini : Nat) (args : List Word) (s : State) : Out := .next (callReleaseReservation ini args s)

/-! ### Translation stalls (R266) -/

/-- A stalled channel retries its access. -/
def State.retryMove (s : State) (x : Ctx) (unit : Nat) : State :=
  match s.run x with
  | none => s
  | some r => match r.current unit with
    | none => s
    | some i =>
      if i.wait = .xlate then
        let (s, f) := s.moveStep x r { i with wait := .none }
        if f != 0 then s.unitFault x i f else s
      else s

/-- The command is stopped and its entry runs again from its prologue; a fault met at decode before goes with it. -/
def State.restart (s : State) (r : CtxRun) : State :=
  let s := (s.failRun r.ctx 0 0).tearDown r.ctx
  let s := match r.starter with
    | some i => s.setStarterX i { s.starterX i with due := true, restarts := r.restarts + 1 }
    | none => s
  (s.unitIdle r.ctx).runAgain r none

/-- 0x0108: queue, 0 RESUME or 1 RESTART. -/
def callResolveStall (ini : Nat) (args : List Word) (s : State) : State :=
  let q := arg args 0
  if 0xFFFFF < q || 1 < arg args 1 then s.ret RANGE
  else if !s.ownsQueue ini q then s.ret DENIED
  else if s.claimed uSched then s.ret CLAIMED
  else match s.ctxs.find? fun r => r.queue = q && !r.ctx.isMill && r.xlStalled with
    | none => s.ret NO_STALL
    | some r =>
      if arg args 1 = 1 then (s.restart r).ret OK
      else
        let us := ((r.issued.filter fun i => i.wait = .xlate).map (·.unit)).eraseDups
        (us.foldl (fun s u => s.retryMove r.ctx u) s).ret OK

def execResolveTranslationStall (ini : Nat) (args : List Word) (s : State) : Out := .next (callResolveStall ini args s)

/-! ### Weights and rinds (R283–R285, R288, R292) -/

/-- 0x0302: rind address, PROG, W, D (eight words each): MATCH, flags, the digest recomputed. What a flag of a term that
differs is formed from is not stated: without a match the flags are free. -/
def callVerifyRind (ini : Nat) (args : List Word) (s : State) : State :=
  let a := argAddr args 0
  if !s.mayRead ini a 64 then s.ret DENIED
  else
    let (s, st, ws, b) := s.callBlock ini a 64
    if st != OK then s.ret st ws
    else
      let t := fun i => wordBytes ((List.range 8).map fun k => nth args (2 + 8 * i + k) 0)
      let d := sha3 (t 0 ++ t 1 ++ t 2 ++ (b.drop 32).take 8)
      if d = b.take 32 then s.ret OK (1 :: 0 :: bytesWords d)
      else
        let (f, s) := s.fresh
        s.ret OK (0 :: f :: bytesWords d)

def execVerifyRind (ini : Nat) (args : List Word) (s : State) : Out := .next (callVerifyRind ini args s)

/-- The queue of a parcel runs a command. -/
def State.pclRunning (s : State) (p : Nat) : Bool :=
  s.pclKind p != 0 && match s.slot (s.pclQueue p) with | some y => y.running.isSome | none => false

/-- The caller owns the parcel's queue or may write the parcel. -/
def State.ownsWeights (s : State) (ini p : Nat) : Bool := s.pclRights p ini true || (s.pclKind p != 0 && s.ownsQueue ini (s.pclQueue p))

/-- Sixteen other parcels of the queue hold a weights digest or will by a load under way (R284). -/
def State.weightsFull (s : State) (p : Nat) : Bool :=
  !s.wdValid p && 16 ≤ (s.validParcels.filter fun x => x != p && s.pclKind x = 1 && s.pclQueue x = s.pclQueue p &&
    (s.wdValid x || s.loads.any (·.parcel = x))).length

/-- 0x0303: source (2 words), parcel, offset, length. -/
def callLoadWeights (ini : Nat) (args : List Word) (s : State) : State :=
  let src := argAddr args 0
  let p := arg args 2
  let off := arg args 3
  let n := arg args 4
  let from_ := inRegion s.part src n fun r => r = .lpddr || r = .host
  if 1023 < p || !addrArg args 0 || n = 0 || !from_ || !s.pclValid p || s.pclKind p != 1 ||
      s.pclSize p * 0x10000 < off + n || s.weightsFull p then s.ret RANGE
  else if !s.ownsWeights ini p then s.ret DENIED
  else if s.claimed uDevctl then s.ret CLAIMED
  else if s.pclRunning p then s.ret QUEUE_RUNNING
  else if s.callWaits 0x0303 p then s.ret UNIT_BUSY
  else
    let (k, s) := s.firmChan
    ({ s with loads := s.loads ++ [⟨p, src, off, n, ini, k, false⟩] } : State).firmSync.retPending 0x0303 p

def execLoadWeights (ini : Nat) (args : List Word) (s : State) : Out := .next (callLoadWeights ini args s)

/-- The oldest load into a parcel completes: bytes written under credits, then folded. It waits while credits are short. -/
def State.loadDone (s : State) (p : Nat) : State :=
  match s.loads.find? (·.parcel = p) with
  | none => s
  | some l =>
    let t := ({ s with loads := s.loads.eraseP (·.parcel = p) } : State).firmSync
    if !s.pclValid p then t.finish 0x0303 p REFUSED
    else if s.weightsFull p then t.finish 0x0303 p RANGE
    else
      let (t, ok) := if s.pclCreditEn p then t.takeCredits p l.len else (t, true)
      if !ok then ({ s with loads := updFirst (·.parcel = p) (fun l => { l with wait := true }) s.loads } : State).firmSync
      else
        let k := if s.pclCreditEn p then ceilDiv l.len 1024 else 0
        let (t, r, b) := t.callRead l.ini l.src (pagesFor l.len) l.len
        if r != .ok then (t.untakeCredits p k).finish 0x0303 p (callFault r).1
        else
          let (t, c) := t.polWrite (viaPort (28 + l.chan / 4) t.mpIni) (t.pclBase p * 0x10000 + l.offset) b true
          if c != 0 then (t.untakeCredits p k).finish 0x0303 p (if c = fPARCEL_DENIED then DENIED else REFUSED)
          else
            let t := (t.useCredits p k).wdFold p l.offset l.len l.len (sha3 b)
            let u := uDC (14 + l.chan / 4)
            ((t.countWide u 0x108 l.len).count u 0x114 1).finish 0x0303 p OK

def execWeightsFoldDone (p : Nat) (s : State) : Out := .next (s.loadDone (p % 1024))

/-- The words of a digest. -/
def digestWords (d : List Byte) : List Word := bytesWords d

/-- 0x0304: WD_STATUS and WD_DIGEST. -/
def callReadWd (ini : Nat) (args : List Word) (s : State) : State :=
  let p := arg args 0
  if 1023 < p then s.ret RANGE
  else if !s.ownsWeights ini p then s.ret DENIED
  else s.ret OK (s.rd uDevctl (wdStatOff p) :: digestWords (s.wdDigest p))

def execReadWeightsDigest (ini : Nat) (args : List Word) (s : State) : Out := .next (callReadWd ini args s)

/-- 0x0305. -/
def callClearWd (ini : Nat) (args : List Word) (s : State) : State :=
  let p := arg args 0
  if 1023 < p then s.ret RANGE
  else if !s.ownsWeights ini p then s.ret DENIED
  else if s.claimed uDevctl then s.ret CLAIMED
  else if s.pclRunning p then s.ret QUEUE_RUNNING
  else ((s.setWd p (List.replicate 32 0)).wr uDevctl (wdStatOff p) 0).ret OK

def execClearWeightsDigest (ini : Nat) (args : List Word) (s : State) : Out := .next (callClearWd ini args s)

/-- 0x0307: W, the parcels folded, STALE. -/
def callQueueWd (ini : Nat) (args : List Word) (s : State) : State :=
  let q := arg args 0
  if 0xFFFFF < q then s.ret RANGE
  else if !s.ownsQueue ini q then s.ret DENIED
  else
    let (w, stale, _) := s.queueWd q
    let n := (s.validParcels.filter fun p => s.pclKind p = 1 && s.pclQueue p = q && s.wdValid p).length
    s.ret OK (digestWords w ++ [w32 n, w32 (b2n stale)])

def execReadQueueWeightsDigest (ini : Nat) (args : List Word) (s : State) : Out := .next (callQueueWd ini args s)

end Sys2Proof.Machine
end

