-- ==== Sys2Proof/Machine/Axfer.lean ====
section
/-! DEFINITION. Axfer: what arrives from the ring, links, training, formation, lost hops, service calls (R295–R313,
R315–R317). -/
namespace Sys2Proof.Machine

def RING_MISMATCH : Nat := 0x0150
def RING_BUSY : Nat := 0x0151

/-! ### Arrivals (R295–R301, R303, R305, R518) -/

/-- A port's flits have all been acknowledged: the streams of a lost one move to its bonded mate, in order (R303). -/
def State.moveStreams (s : State) (i : Nat) : State :=
  let l := s.link i
  if l.moving && l.replay.isEmpty then
    l.wait.foldl (fun s w => s.linkSend (bondMate i) w) (s.setLink i { l with wait := [], moving := false })
  else s

/-- The link word's ACK: flits up to it leave the replay buffer (R300). -/
def State.ackIn (s : State) (i ack : Nat) : State :=
  let l := s.link i
  if l.replay.any (·.1 = ack) then
    let s := s.setLink i { l with replay := (l.replay.dropWhile (·.1 != ack)).drop 1 }
    (s.moveStreams i).pump i (s.link i).fuel
  else s

/-- Flits come that bring no slot yet: each is taken when its SEQ is the expected one, and dropped otherwise; a CMD flit whose slots
are empty frees its buffer (R296, R300). -/
def State.flitsCame (s : State) (i : Nat) (came : List (Nat × Nat)) : State :=
  came.foldl (fun (s : State) (e : Nat × Nat) =>
    let l := s.link i
    if e.1 != l.rxSeq then s
    else
      let s := (s.setLink i { l with rxSeq := (l.rxSeq + 1) % 4096, cmdSeq := none, drop := false }).ctlDue i 1
      if e.2 < 4 then s.freeBuf i e.2 1 else s) s

/-- SEQ seq lies among the last 256 that were received in order. -/
def AxLink.recent (l : AxLink) (seq : Nat) : Bool := (l.rxSeq + 4095 - seq) % 4096 < 256

/-- A slot is new to the port: that of a write when its flits have all come in order, another when its CMD flit is the expected one or
the one whose slots arrive; one that a replay brings again is not (R300, R302). -/
def AxLink.takes (l : AxLink) (write : Bool) (h : AxHead) : Bool :=
  if write then !l.drop && l.recent h.seq && !l.took.contains (h.seq, h.src, h.stream, h.tag)
  else h.seq = l.rxSeq || (l.cmdSeq = some h.seq && !l.drop)

/-- A slot passes the port, and whether it is the first of its CMD flit; none when it is dropped (R296, R300). -/
def State.accept (s : State) (i : Nat) (h : AxHead) (write : Bool) (bytes : Nat) : State × Option Bool :=
  let s := s.flitsCame i h.came
  let l := s.link i
  if !l.takes write h then (s, none)
  else
    let new := !write && h.seq = l.rxSeq
    let old := l.took.filter fun e => l.recent e.1
    let first := new || !old.any (·.1 = h.seq)
    let l := { l with took := (h.seq, h.src, h.stream, h.tag) :: old }
    let s := if new then (s.setLink i { l with rxSeq := (l.rxSeq + 1) % 4096, cmdSeq := some h.seq, drop := false }).ctlDue i 1
      else s.setLink i l
    let s := s.wake 6 (uAX i)
    (if bytes = 0 then s else s.countWide (uAX i) 0x124 bytes, some first)

/-- A slot arrives with its DATA flits: one for another position is forwarded and holds its buffers until then, one for this
acts (R298, R299, R305). -/
def State.slotIn (s : State) (h : AxHead) (kind : Nat) (fields : List Nat) (data : List Byte) (act : State → State) : State :=
  let i := h.port % 4
  let n := ceilDiv data.length 248
  let s := s.ackIn i h.ack
  match s.accept i h (kind = 1) data.length with
  | (s, none) => s
  | (s, some first) =>
    let set := h.cls % 4
    let gone := fun (s : State) => s.freeBuf i set (n + b2n first)
    if !s.exists? uRing then gone s
    else if h.dst = s.ringPos then act (gone s)
    else if s.reaches h.dst then s.ringSend ⟨kind, h.dst, h.src, h.stream, h.tag, fields⟩ data (some (i, set, first))
    else gone s

/-! ### The destination (R307–R310) -/

/-- Refuse a transaction: NACK, records; later ones of the stream in flight meet the same cause (R310). -/
def State.nack (s : State) (src stream tag cause item : Nat) : State :=
  let p := s.sendPort src stream
  let s := s.countF (uAX p) 0x12C 31 16 1
  let s := s.wr uRing 0x258 (w32 (2 ^ 31 + src % 8 * 2 ^ 28 + cause * 2 ^ 24 + item % 2 ^ 16))
  let s : State := { s.count uRing 0x25C 1 with rbad := (src, stream, cause) :: s.rbad.filter fun b => !(b.1 = src && b.2.1 = stream) }
  s.sendSlot 8 src stream tag [tag, cause] []

/-- A position that this part may hear: a member of the ring, not itself. -/
def State.ringMember (s : State) (src : Nat) : Bool := src < s.ringNpos && src != s.ringPos

/-- The cause for a transaction that follows a refused one and was in flight then; else the stream is clean again. -/
def State.badStream (s : State) (src stream : Nat) (late : Bool) : Nat :=
  if late then match s.rbad.find? fun b => b.1 = src && b.2.1 = stream with | some b => b.2.2 | none => 0 else 0
def State.cleanStream (s : State) (src stream : Nat) (late : Bool) : State :=
  if late then s
  else { s with
    rbad := s.rbad.filter fun b => !(b.1 = src && b.2.1 = stream)
    rstuck := s.rstuck.filter (· != (src, stream)) }

/-- An earlier transaction of the stream has not been done: what follows it in the stream waits (R309). -/
def State.behind (s : State) (src stream tag : Nat) : Bool := s.held.any fun h => h.before src stream tag

/-- A write of a stream has come, and has been made, refused or left at a sluice: what waits for it does so no more (R309). -/
def State.cameIn (s : State) (src stream tag : Nat) : State :=
  ({ s with held := s.held.map fun h => match h.ack with
      | some (a, b, _) => if a = src && b = stream then { h with after := h.after.erase tag } else h
      | none => h } : State).postedNow

/-- A mark operation or a credit return that follows transactions of its stream which have not been done waits for them (R309). -/
def State.inOrder (s : State) (h : AxHead) (w : HeldAcc) (act : State → State) : State :=
  if s.rstuck.contains (h.src, h.stream) then s
  else if s.behind h.src h.stream h.tag || !h.passed.isEmpty then
    { s with held := holdInto { w with ack := some (h.src, h.stream, h.tag), after := h.passed } s.held }
  else act s

/-- Do a transaction unless a cause refuses it. -/
def State.judged (s : State) (src stream tag item cause : Nat) (late : Bool) (act : State → State) : State :=
  let s := s.cleanStream src stream late
  let b := s.badStream src stream late
  if b != 0 then s.nack src stream tag b item
  else if !s.ringMember src then s.nack src stream tag 6 item
  else if cause != 0 then s.nack src stream tag cause item
  else act s

/-- A valid landing parcel with CREDIT_EN that holds an address. -/
def State.landingAt (s : State) (a : Nat) : Option Nat :=
  match s.parcelAt a with
  | some p => if s.pclKind p = 1 && s.pclCreditEn p then some p else none
  | none => none

/-- Why a WRITE is refused (R307, R310), or 0. -/
def State.writeCause (s : State) (src stream a n : Nat) : Nat :=
  if a % 4 != 0 || 0x10000000 ≤ a || n < 4 || 4096 < n || n % 4 != 0 then 5
  else match s.landingAt a with
    | none => 1
    | some p =>
      if s.parcelAt (a + n - 1) != some p then 1
      else if !s.pclRights p (0x38 + src) true then 2
      else if s.grantedTo src stream p < ceilDiv n 1024 then 3
      else 0

/-- A WRITE: its rows are written through port 30 and acknowledged. One that meets a sluice which another holds, or follows
such a one, is made in its turn; one that follows a write that failed is not made (R307, R309, R231). -/
def State.axWriteIn (s : State) (src stream tag a : Nat) (data : List Byte) (late : Bool) : State :=
  let n := data.length
  s.judged src stream tag (a / 0x10000) (s.writeCause src stream a n) late fun s =>
    match s.landingAt a with
    | none => s
    | some p =>
      let k := ceilDiv n 1024
      let ini := 0x38 + src
      let spent := fun (s : State) => ({ s with rgrants := takeGrants src stream p k s.rgrants } : State)
      if s.rstuck.contains (src, stream) then s
      else if s.barred ini a n || s.behind src stream tag then
        (spent { s with held := holdInto ⟨ini, 30, a, n, some data, none, false, some (src, stream, tag), [(p, k)], none, []⟩ s.held }).grantSync
      else
        let (s, c) := s.polWrite ini a data
        let s := ((spent s).useCredits p k).grantSync
        if c = 0 then s.ackSend src stream tag else { s with rstuck := (src, stream) :: s.rstuck }

def execAxWrite (h : AxHead) (addr len : Nat) (data : List Byte) (late : Bool) (s : State) : Out :=
  let d := (data ++ List.replicate len 0).take len
  .next (s.slotIn h 1 [addr, len - 1] d fun s => (s.axWriteIn h.src h.stream h.tag addr d late).cameIn h.src h.stream h.tag)

/-- Why a mark operation is refused, or 0. -/
def State.markCause (s : State) (m : Nat) (add : Bool) : Nat :=
  let f := s.fld uRing 0x208 15 0
  if !(f ≤ m && m < f + s.fld uRing 0x208 31 16) || (!add && s.isCreditMark m) then 4 else 0

/-- A remote mark operation: only after every earlier write of the stream is acknowledged (R309). -/
def State.axMarkIn (s : State) (h : AxHead) (m v : Nat) (add late : Bool) : State :=
  s.judged h.src h.stream h.tag m (s.markCause m add) late fun s =>
    s.inOrder h ⟨0x38 + h.src, 30, 0, 0, none, none, false, none, [], some (m, add, v % 2 ^ 32), []⟩ fun s =>
      (if add then s.addMark m (v % 2 ^ 32) else s.signalMark m v).ackSend h.src h.stream h.tag

def execAxMsignal (h : AxHead) (mark value : Nat) (late : Bool) (s : State) : Out :=
  .next (s.slotIn h 2 [mark, value] [] fun s => s.axMarkIn h (mark % 65536) value false late)
def execAxMadd (h : AxHead) (mark value : Nat) (late : Bool) (s : State) : Out :=
  .next (s.slotIn h 3 [mark, value] [] fun s => s.axMarkIn h (mark % 65536) value true late)

/-- A credit request: granted whole, or it waits behind earlier ones of the parcel (R308). -/
def State.creditReq (s : State) (src stream tag a kib : Nat) (late : Bool) : State :=
  let cause := if kib = 0 || 64 < kib then 5 else match s.landingAt a with
    | none => 1
    | some p => if s.pclRights p (0x38 + src) true then 0 else 2
  s.judged src stream tag (a / 0x10000) cause late fun s =>
    match s.landingAt a with
    | none => s
    | some p => ({ s with rwaits := s.rwaits ++ [⟨src, stream, p, kib, a, tag⟩] } : State).grantWaits p (s.rwaits.length + 1)

def execAxCreditReq (h : AxHead) (addr kib : Nat) (late : Bool) (s : State) : Out :=
  .next (s.slotIn h 4 [addr, kib] [] fun s => s.creditReq h.src h.stream h.tag addr kib late)

/-- Unused credits come back to the parcel that holds the address (R308, R310). -/
def State.creditBack (s : State) (h : AxHead) (a kib : Nat) (late : Bool) : State :=
  let cause := if kib = 0 || 64 < kib then 5 else match s.landingAt a with | none => 1 | some _ => 0
  s.judged h.src h.stream h.tag (a / 0x10000) cause late fun s =>
    match s.landingAt a with
    | none => s
    | some p =>
      s.inOrder h ⟨0x38 + h.src, 30, 0, 0, none, none, false, none, [(p, kib)], none, []⟩ fun s =>
        (s.giveBack h.src h.stream p kib).ackSend h.src h.stream h.tag

def execAxCreditReturn (h : AxHead) (addr kib : Nat) (late : Bool) (s : State) : Out :=
  .next (s.slotIn h 6 [addr, kib] [] fun s => s.creditBack h addr kib late)

/-! ### The sender (R308–R311) -/

def execAxCreditGrant (h : AxHead) (addr kib : Nat) (s : State) : Out :=
  .next (s.slotIn h 5 [addr, kib] [] fun s => s.granted h.src h.stream h.tag addr kib)

/-- A transaction of a mark operation of a service call ends (R317). -/
def State.remoteCall (s : State) (t : RemTx) (status : Nat) (words : List Word := []) : State :=
  let k := remoteKey t.pos t.stream t.tag
  if t.ctx.isNone && t.kind != 6 then (s.finish 0x040A k status words).finish 0x010A k status words else s

/-- End a context's command for what a transaction of it met. -/
def State.remoteFail (s : State) (x : Ctx) (code idx : Nat) : State :=
  match s.run x with
  | some r => if r.ended then s else ((s.failRun x code idx).dcSync x).unitSync x
  | none => s

/-- The transactions of a stream to a position up to a tag, and the others. -/
def splitAck (pos stream tag : Nat) : List RemTx → List RemTx × List RemTx
  | [] => ([], [])
  | t :: l =>
    if t.pos = pos && t.stream = stream then
      if t.tag = tag then ([t], l)
      else
        let (d, k) := splitAck pos stream tag l
        (t :: d, k)
    else
      let (d, k) := splitAck pos stream tag l
      (d, t :: k)

/-- An ACK completes a stream's transactions up to TAG_DONE (R309). -/
def State.acked (s : State) (pos stream tag : Nat) : State :=
  if !(s.rtx.any fun t => t.pos = pos && t.stream = stream && t.tag = tag) then s
  else
    let (done, keep) := splitAck pos stream tag s.rtx
    let s := done.foldl (fun (s : State) (t : RemTx) =>
      let s := s.remoteCall t OK
      match t.ctx with
      | some x => if t.kind = 2 || t.kind = 3 then s.updRun x fun r => { r with markDone := true } else s
      | none => s) ({ s with rtx := keep } : State)
    ((done.filterMap (·.ctx)).eraseDups).foldl (fun s x => (s.resume x).dcSync x) s

def execAxAck (h : AxHead) (tagDone : Nat) (s : State) : Out :=
  .next (s.slotIn h 7 [tagDone] [] fun s => s.acked h.src h.stream tagDone)

/-- A NACK ends the sending command (R310). -/
def State.nacked (s : State) (port pos stream tag cause : Nat) : State :=
  let s := s.countF (uAX port) 0x12C 15 0 1
  match s.rtx.find? fun t => t.pos = pos && t.stream = stream && t.tag = tag with
  | some t =>
    let s := ({ s with rtx := s.rtx.erase t } : State).remoteCall t REFUSED [w32 cause]
    match t.ctx with
    | some x => s.remoteFail x fREMOTE_DENIED t.idx
    | none => s
  | none => match s.rchunks.find? fun c => c.stage = 1 && c.pos = pos && ctxIni c.ctx = stream && c.tag = tag with
    | some c =>
      let s : State := { s with rchunks := s.rchunks.erase c }
      if c.dead then s else s.remoteFail c.ctx fREMOTE_DENIED c.idx
    | none => s

def execAxNack (h : AxHead) (tagBad cause : Nat) (s : State) : Out :=
  .next (s.slotIn h 8 [tagBad, cause] [] fun s => s.nacked (h.port % 4) h.src h.stream tagBad cause)

/-- The hop that a stream's transactions to a position leave on is ACTIVE or retraining (R311). -/
def State.hopAlive (s : State) (pos stream : Nat) : Bool :=
  let p := s.sendPort pos stream
  s.axState p = 2 || (s.axState p = 1 && (s.link p).re)

/-- No ACK or NACK came within RING_ACK_TIMEOUT, by the 500 MHz clock (R311). -/
def State.ackTimeout (s : State) (pos stream tag : Nat) : State :=
  match s.rtx.find? fun t => t.pos = pos && t.stream = stream && t.tag = tag with
  | none => s
  | some t =>
    if !s.hopAlive pos stream || s.gauge.ticks - t.sent < 500 * s.fld uRing 0x20C 15 0 then s
    else
      let s := (({ s with rtx := s.rtx.erase t } : State).remoteCall t REFUSED)
      match t.ctx with
      | some x => (if (s.run x).any fun r => !r.ended then s.count uRing 0x260 1 else s).remoteFail x fLINK_TIMEOUT t.idx
      | none => s

def execLinkAckTimeout (pos stream tag : Nat) (s : State) : Out := .next (s.ackTimeout pos stream tag)

/-! ### Errors, replay, training (R300, R302, R303, R313) -/

/-- The port retrains: what is unacknowledged is held. -/
def State.retrain (s : State) (i : Nat) : State :=
  (s.setAxState i 1).setLink i { s.link i with re := true, nakN := 0, asks := [] }

/-- Resend the replay buffer from a SEQ on, in order. -/
def State.resend (s : State) (i seq : Nat) : State :=
  ((s.link i).replay.dropWhile (·.1 != seq)).foldl (fun s f => (s.flitOut i f.1 f.2.1 f.2.2).ctlDue i 1) s

/-- A peer asks for a replay: it is made; after 8 of one SEQ, or 64 in the last 1 ms, the port retrains (R300). -/
def State.replayAsk (s : State) (i seq : Nat) : State :=
  let l := s.link i
  let now := s.nowNs
  let n := if seq = l.nakSeq then l.nakN + 1 else 1
  let asks := now :: l.asks.filter fun t => now ≤ t + 10 ^ 6
  let s := (s.setLink i { l with nakSeq := seq, nakN := n, asks := asks }).resend i seq
  if 8 ≤ n || 64 ≤ asks.length then s.retrain i else s

/-- A flit fails its CRC; lanes: those found in error; again: it is the resent one that is expected. A replay is asked for at
once, of what is dropped afterwards only when the resent flit fails again (R300). -/
def State.crcError (s : State) (i lanes : Nat) (again : Bool) (came : List (Nat × Nat)) : State :=
  let s := s.flitsCame i came
  let s := (s.injected (uAX i) 2).1.count (uAX i) 0x10C 1
  let s := (setIndices 8 lanes).foldl (fun s k => s.countF (uAX i) 0x118 (4 * k + 3) (4 * k) 1) s
  let l := s.link i
  if l.drop && !again then s
  else ((s.setLink i { l with drop := true, cmdSeq := none }).count (uAX i) 0x110 1).ctlSend i (some l.rxSeq)

def execAxFlitCrcError (port lanes : Nat) (again : Bool) (came : List (Nat × Nat)) (s : State) : Out :=
  .next (s.crcError (port % 4) lanes again came)

/-- A port goes DOWN (R302, R315). -/
def State.portDown (s : State) (i cause : Nat) : State :=
  let s := (s.wr (uAX i) 0x100 (w32 (4 * 2 ^ 29 + b2n (s.flag (uAX i) 0x100 16) * 2 ^ 16))).wr (uAX i) 0x130
    (w32 (2 ^ 31 + cause % 8 * 2 ^ 28))
  s.recordFault fLINK_DOWN (uAX i) 0x4A noQueue 0 0 cause 0 oNone

/-- The route to a position over the hops that are left: fewer hops first, a tie up (R305, R312). -/
def State.newRoute (s : State) (pos : Nat) : Nat :=
  if !s.ringMember pos then 0
  else
    let ok := fun up => (s.hops pos up).all fun h => !s.ring.lost.contains h
    let u := (s.hops pos true).length
    let d := (s.hops pos false).length
    if ok true && (u ≤ d || !ok false) then 1 else if ok false then 2 else 3

def State.setRoutes (s : State) : State :=
  s.wr uRing 0x204 (w32 ((List.range 8).foldl (fun a n => a + s.newRoute n * 4 ^ n) 0))

/-- A flit without its slots for some positions: an empty flit keeps the SEQ of one with no other (R296, R300, R312). -/
def AxFlit.without (f : AxFlit) (gone : Nat → Bool) : AxFlit :=
  if f.slots.any fun x => gone x.dst then ⟨false, if f.data then [] else f.slots.filter fun x => !gone x.dst, []⟩ else f

/-- The flits that a port holds for some positions are discarded. -/
def AxLink.without (l : AxLink) (gone : Nat → Bool) : AxLink :=
  { l with
    wait := l.wait.filter fun w => !(w.flits.any fun f => f.slots.any fun x => gone x.dst)
    replay := l.replay.map fun f => (f.1, f.2.1, f.2.2.without gone) }

/-- The buffers that discarded flits of other parts held are free. -/
def State.freeGone (s : State) (gone : Nat → Bool) (ws : List AxWait) : State :=
  (ws.filter fun w => w.flits.any fun f => f.slots.any fun x => gone x.dst).foldl (fun s w => match w.hold with
    | some (p, set, cmd) => s.freeBuf p set ((w.flits.filter fun f => f.data || cmd).length)
    | none => s) s

/-- A hop is lost: flits for what lay across it are discarded, commands with a transaction across it end, and a CTL flit on
every active port reports it (R312). -/
def State.hopLost (s : State) (h : Nat) : State :=
  if !s.exists? uRing || s.ring.lost.contains h then s
  else
    let uses := fun (p : Nat) => (s.route p = 1 || s.route p = 2) && (s.hops p (s.route p = 1)).contains h
    let waits := s.links.flatMap (·.2.wait)
    let s : State := { s with
      ring := { s.ring with lost := h :: s.ring.lost }
      links := s.links.map fun e => (e.1, e.2.without uses) }
    let s := s.freeGone uses waits
    let gone := s.rtx.filter fun t => uses t.pos
    let asked := s.rchunks.filter fun c => c.stage = 1 && uses c.pos
    let s : State := { s with
      rtx := s.rtx.filter fun t => !uses t.pos
      rchunks := s.rchunks.filter fun c => !(c.stage = 1 && uses c.pos) }
    let s := gone.foldl (fun (s : State) (t : RemTx) => s.remoteCall t REFUSED) s
    let s := gone.foldl (fun (s : State) (t : RemTx) => match t.ctx with | some x => s.remoteFail x fLINK_LOST t.idx | none => s) s
    let s := (asked.filter fun c => !c.dead).foldl (fun (s : State) (c : RemChunk) => s.remoteFail c.ctx fLINK_LOST c.idx) s
    (List.range 4).foldl (fun s i => if s.axState i = 2 then s.ctlSend i none else s) s

/-- A port is lost: the streams of a bonded one move to its mate once its flits are acknowledged, else the hop is lost
(R303, R312). -/
def State.portLost (s : State) (i cause : Nat) : State :=
  let mate := bondMate i
  let bonded := s.flag (uAX i) 0x100 16 && s.axState mate != 4 && s.axState mate != 0
  let s := s.portDown i cause
  if bonded then (s.setLink i { s.link i with moving := true }).moveStreams i
  else
    let s := s.setLink i { s.link i with replay := [] }
    s.hopLost (if i % 2 = 0 then s.ringPos else (s.ringPos + s.ringNpos - 1) % s.ringNpos)

/-- A port of this part, or (port 4 and up) a hop elsewhere in the ring, goes DOWN. -/
def execHopDown (port hop cause : Nat) (s : State) : Out :=
  .next (if port < 4 then s.portLost port cause else s.hopLost hop)

/-- Lanes marked bad: a lane whose errors since the last training came to 15 is one from this training on (R302). -/
def State.badLanes (s : State) (i : Nat) : Nat :=
  (List.range 8).foldl (fun a k => if s.fld (uAX i) 0x118 (4 * k + 3) (4 * k) = 15 then a ||| 2 ^ k else a) (s.link i).bad

/-- Good lanes after a training: not disabled, not marked bad. -/
def State.goodLanes (s : State) (i good : Nat) : List Nat :=
  (setIndices 8 good).filter fun k => !s.flag (uAX i) 0x104 (8 + k) && s.badLanes i / 2 ^ k % 2 = 0

/-- Calls that wait for ports to be ACTIVE (R317). -/
def State.wakeCalls (s : State) : State :=
  s.pendCalls.foldl (fun s c =>
    if c.num = 0x0405 && c.fin.isNone && (setIndices 4 c.key).all fun i => s.axState i = 2 then s.finish 0x0405 c.key OK else s) s

/-- A training ends: widest width of 8, 6 or 4 that the good lanes allow, or DOWN; then what is held resumes (R302). -/
def State.trained (s : State) (i good rtt : Nat) : State :=
  if !s.flag (uAX i) 0x104 0 || (s.axState i != 1 && s.axState i != 5) then s
  else
    let g := s.goodLanes i good
    let s := s.setLink i { s.link i with bad := s.badLanes i }
    let l := s.link i
    let s := if l.re || s.axState i = 5 then s.countF (uAX i) 0x114 15 0 1 else s
    if g.length < 4 then s.portLost i 1
    else
      let w := if 8 ≤ g.length then 8 else if 6 ≤ g.length then 6 else 4
      let mask := (g.take w).foldl (fun a k => a + 2 ^ k) 0
      let s := ((s.setAxState i 2).setFld (uAX i) 0x100 28 25 w).setFld (uAX i) 0x100 24 17 mask
      let s := ((s.wr (uAX i) 0x108 (w32 (rtt % 65536))).wr (uAX i) 0x118 0).calApply (calKeyOf (uAX i) 5)
      let s := s.setLink i { s.link i with re := false, drop := false, cmdSeq := none, nakN := 0 }
      let s := match (s.link i).replay with | f :: _ => s.resend i f.1 | [] => s
      ((s.pump i (s.link i).fuel).ctlSend i none).wakeCalls

def execRetrainDone (port good rtt : Nat) (s : State) : Out := .next (s.trained (port % 4) good rtt)

/-- A port idle for IDLE_US enters electrical idle (R313). -/
def State.axIdle (s : State) (i : Nat) : State :=
  if s.axState i = 2 && s.fld (uAX i) 0x104 23 16 != 0 then s.setAxState i 3 else s

def execAxIdleEntry (port : Nat) (s : State) : Out := .next (s.axIdle (port % 4))

/-- The wake pattern of the peer: an Axfer wake source; a port in electrical idle answers it and retrains (R313, R518). -/
def State.wakePattern (s : State) (i : Nat) : State :=
  if !s.flag (uAX i) 0x104 3 then s else (s.portWake i).wake 6 (uAX i)

def execWakePatternDetect (port : Nat) (s : State) : Out := .next (s.wakePattern (port % 4))

/-! ### Rerouting (R312) -/

/-- Credits of a position that is unreachable, or has left, return at once (R308). -/
def State.dropPosition (s : State) (p : Nat) : State :=
  let mine := s.rgrants.filter (·.src = p)
  let s : State := { s with
    rgrants := s.rgrants.filter (·.src != p)
    rwaits := s.rwaits.filter (·.src != p)
    rchunks := s.rchunks.filter fun c => !(c.pos = p && c.stage = 2) }
  (mine.foldl (fun s g => s.untakeCredits g.pcl g.kib) s).grantSync

/-- What waits at a port for one of its streams now leaves on another: it moves there, in the set of its new way; what is for a position
that cannot be reached is discarded, and its buffers are free (R298, R299, R312). -/
def State.moveWaits (s : State) (i : Nat) : State :=
  let stays := fun (w : AxWait) => match w.flits.head?.bind fun f => f.slots.head? with
    | some x => s.reaches x.dst && (w.opened || s.sendPort x.dst x.stream = i)
    | none => false
  let l := s.link i
  let s := s.setLink i { l with wait := l.wait.filter stays }
  (l.wait.filter fun w => !stays w).foldl (fun s w => match w.flits.head?.bind fun f => f.slots.head? with
    | some x =>
      if s.reaches x.dst then
        let p := s.sendPort x.dst x.stream
        s.linkSend p { w with set := s.leaveSet x.kind (p % 2 = 0) w.hold }
      else s.freeGone (fun d => d = x.dst) [w]
    | none => s) s

/-- Every part has reported: routes use what is left, and what waits moves (R312). -/
def State.rerouted (s : State) : State :=
  if !s.exists? uRing || s.ring.lost.isEmpty then s
  else
    let s := s.setRoutes.count uRing 0x264 1
    let gone := (List.range 8).filter fun p => s.route p = 3
    let s := gone.foldl (fun s p => s.dropPosition p) s
    let s := s.ringSync
    let s := (List.range 4).foldl (fun s i => s.moveWaits i) s
    (List.range 4).foldl (fun s i => s.pump i (s.link i).fuel) s

def execRerouteDone (s : State) : Out := .next s.rerouted

/-! ### Formation and dissolution (R301, R304, R317) -/

/-- Formation fails; AX_CFG is as it was (R317). -/
def State.formFail (s : State) : State :=
  ({ s with ring := ⟨none, [], false, false, [], false, []⟩ } : State).finish 0x0400 0 RING_MISMATCH

/-- Fingerprints by position that a CTL flit announces; a position seen with another one is announced twice. -/
def seenBy (old new : List (Nat × Nat)) : Option (List (Nat × Nat)) :=
  if new.any fun e => old.any fun o => o.1 = e.1 && o.2 != e.2 then none
  else some (new.foldl (fun l e => SMap.insert e.1 e.2 (SMap.erase e.1 l)) old)

/-- The ring part of a CTL flit while a ring forms: the neighbour's identity (one that has not been called yet has no NPOS),
the announcements it relays; twice: it brings a position that another part announces too (R304). -/
def State.announce (s : State) (i id npos pos : Nat) (twice : Bool) (fp : Nat) (seen : List Nat) : State :=
  match s.ring.form with
  | some (rid :: n :: p :: _) =>
    let want := if i % 2 = 0 then (p + 1) % n else (p + n - 1) % n
    if npos = 0 then s
    else if id != rid || npos != n || pos != want then (s.portDown i 4).formFail
    else
      let new := (pos, fp) :: (seen.zipIdx.filter (·.1 != 0)).map fun e => (e.2, e.1)
      match seenBy s.ring.seen new with
      | none => s.formFail
      | some l =>
        let more := l.length != s.ring.seen.length
        let r := { s.ring with seen := l, upOk := s.ring.upOk || i % 2 = 0, downOk := s.ring.downOk || i % 2 = 1 }
        if twice then s.formFail
        else
          let s : State := { s with ring := r }
          if more then (List.range 4).foldl (fun s k => if s.axState k = 2 then s.ctlSend k none else s) s else s
  | _ => s

/-- A CTL flit: ACK, buffer counters, a NAK, the ring identity and what it relays. The peer's lanes, width and FORMED are shown
nowhere. -/
def State.ctlIn (s : State) (i ack : Nat) (bufs : List Nat) (nak : Option Nat) (id npos pos : Nat) (twice : Bool) (fp : Nat) (seen : List Nat) : State :=
  let l := s.link i
  let s := s.setLink i { l with freed := (List.range 4).map fun k => nth bufs k (nth l.freed k 0) }
  let s := s.ackIn i ack
  let s := ((s.setFlag (uAX i) 0x100 15 (npos != 0)).setFld (uAX i) 0x100 14 12 pos).announce i id npos pos twice fp seen
  match nak with
  | some seq => s.replayAsk i seq
  | none => s.pump i (s.link i).fuel

def execAxCtlFlit (port ack : Nat) (bufs : List Nat) (nak : Option Nat) (_lanes _width ringId npos pos : Nat) (_formed twice : Bool)
    (fp : Nat) (seen : List Nat) (s : State) : Out :=
  .next (s.ctlIn (port % 4) ack bufs nak ringId npos pos twice fp seen)

/-- BONDED follows AX_CFG.BOND of both ends; bit k of bonds: the far end of AX(2 + k) has it set (R303). -/
def State.bondSync (s : State) (bonds : Nat) : State :=
  [0, 1].foldl (fun s k =>
    let on := s.flag (uAX (2 + k)) 0x104 2 && bonds / 2 ^ k % 2 = 1
    (s.setFlag (uAX k) 0x100 16 on).setFlag (uAX (2 + k)) 0x100 16 on) s

/-- Every position has been seen and both neighbours agree: the ring is formed, with its positions as members (R33, R38, R304). -/
def State.ringFormed (s : State) (bonds : Nat) : State :=
  match s.ring.form with
  | some [id, n, p, bond, first, count] =>
    if !(s.ring.upOk && s.ring.downOk && (List.range n).all fun k => s.ring.seen.any (·.1 = k)) then s
    else
      let seen := s.ring.seen
      let s : State := { s with
        regs := s.regs.filter fun e => e.1 / 0x10000 != uRing
        ring := ⟨none, seen, false, false, [], false, List.replicate n 0⟩
        rbad := []
        rstuck := [] }
      let s := (s.wr uRing 0x200 (w32 (id * 2 ^ 16 + n * 2 ^ 8 + p))).wr uRing 0x208 (w32 (count * 2 ^ 16 + first))
      let s := seen.foldl (fun s e => (s.wr uRing (0x210 + 8 * e.1) (w32 e.2)).wr uRing (0x214 + 8 * e.1) (w32 (e.2 / 2 ^ 32))) s
      let s := (s.setUcb uRing 7 (w32 (n * 2 ^ 24))).setUcb uRing 8 (w32 (2 ^ n - 1))
      let s := if s.part.grade1640 then s else ((s.setFlag (uAX 2) 0x104 2 (bond = 1)).setFlag (uAX 3) 0x104 2 (bond = 1)).bondSync bonds
      s.setRoutes.finish 0x0400 0 OK
  | _ => s

def execRingFormed (bonds : Nat) (s : State) : Out := .next (s.ringFormed bonds)

/-- 0x0400: RING_ID, NPOS, POS, BOND, first remote mark, count. -/
def callFormRing (args : List Word) (s : State) : State :=
  let n := arg args
  if 0xFFFF < n 0 || n 1 < 2 || 8 < n 1 || n 1 ≤ n 2 || 1 < n 3 || (n 3 = 1 && s.part.grade1640) || 0xFFFF < n 4 || 0xFFFF < n 5 ||
      65536 < n 4 + n 5 then s.ret RANGE
  else if (span (uAX 0) 2).any s.claimed || ((span (uAX 2) 2).any fun u =>
      s.exists? u && s.claimed u && (n 3 = 1 || s.flag u 0x104 2)) then s.ret CLAIMED
  else if s.exists? uRing || s.ring.form.isSome then s.ret RING_BUSY
  else
    let ports := (List.range (if n 3 = 1 then 4 else 2)).filter fun i => s.flag (uAX i) 0x104 0
    let s := ports.foldl (fun s i => if s.axState i = 0 || s.axState i = 4 then s.setAxState i 1 else s) s
    let s : State := { s with
      ring := ⟨some [n 0, n 1, n 2, n 3, n 4, n 5], [(n 2, s.fingerprint s.sbActive)], false, false, [], false, []⟩ }
    let s := ports.foldl (fun s i => if s.axState i = 2 then s.ctlSend i none else s) s
    s.retPending 0x0400 0

def execFormRing (_ : Nat) (args : List Word) (s : State) : Out := .next (callFormRing args s)

/-- The windows close; the unit number is free. A mark operation of a call that is still in flight is refused as to no member (DESIGN
CHOICE, notes/assumptions/210.md). -/
def State.ringGone (s : State) : State :=
  let s := s.rtx.foldl (fun s t => s.remoteCall t REFUSED [w32 6]) s
  let s := (List.range 4).foldl (fun s i => s.setFlag (uAX i) 0x100 16 false) s
  { s with
    regs := s.regs.filter fun e => e.1 / 0x10000 != uRing
    claims := s.claims.filter (·.unit != uRing)
    ring := ⟨none, [], false, false, [], false, []⟩
    rtx := []
    rwaits := []
    rchunks := s.rchunks.filter (!·.dead)
    rbad := []
    rstuck := [] }

/-- A pending dissolution completes. -/
def State.ringDissolved (s : State) : State :=
  if s.ring.dissolving && s.ringQuiet then s.ringGone.finish 0x0401 0 OK else s

def execRingDissolved (s : State) : Out := .next s.ringDissolved

/-- 0x0401. -/
def callDissolveRing (s : State) : State :=
  let m := s.mayChange uRing
  if m != OK then s.ret m
  else if s.callWaits 0x0401 0 then s.ret UNIT_BUSY
  else if s.ringQuiet then s.ringGone.ret OK
  else ({ s with ring := { s.ring with dissolving := true } } : State).retPending 0x0401 0

def execDissolveRing (_ : Nat) (_ : List Word) (s : State) : Out := .next (callDissolveRing s)

/-! ### Registers and the other calls (R315–R317) -/

/-- AX_CFG may take a value. -/
def State.axCfgOk (s : State) (i en idle lanes wake bond : Nat) : Bool :=
  en ≤ 1 && idle ≤ 255 && lanes ≤ 255 && wake ≤ 1 && bond ≤ 1 && popcount 8 lanes ≤ 4 &&
    (bond = 0 || (2 ≤ i && !s.part.grade1640)) && (b2n (s.flag (uAX i) 0x104 2) = bond || !s.exists? uRing)

/-- AX_CFG takes a value: an enabled port trains, a disabled one is off. -/
def State.axCfg (s : State) (i en idle lanes wake bond : Nat) : State :=
  let was := s.flag (uAX i) 0x104 0
  let s := s.wr (uAX i) 0x104 (w32 (idle * 2 ^ 16 + lanes * 2 ^ 8 + wake * 8 + bond * 4 + en))
  if en = 1 && !was then s.setAxState i 1 else if en = 0 && was then s.wr (uAX i) 0x100 0 else s

/-- Writes to registers of Axfer that do more than store. -/
def State.axRegWrite (s : State) (ini u off : Nat) (v : Word) : Option State :=
  match unitClass u with
  | some .ax =>
    let i := u - 0xE0
    if off = 0x104 then
      some (if s.axCfgOk i (bits v 0 0) (bits v 23 16) (bits v 15 8) (bits v 3 3) (bits v 2 2) then
        s.axCfg i (bits v 0 0) (bits v 23 16) (bits v 15 8) (bits v 3 3) (bits v 2 2)
      else s.accError ini (regAddr u off) .check)
    else none
  | some .ring =>
    if off = 0x208 && 65536 < bits v 15 0 + bits v 31 16 then some (s.accError ini (regAddr u off) .check) else none
  | _ => none

/-- 0x0402: the registers of the ring. -/
def callReadRing (s : State) : State :=
  if !s.exists? uRing then s.ret NO_UNIT
  else s.retRegs uRing ((List.range 26).map fun i => 0x200 + 4 * i)

def execReadRing (_ : Nat) (_ : List Word) (s : State) : Out := .next (callReadRing s)

/-- 0x0403: the registers of a port. -/
def callReadPort (args : List Word) (s : State) : State :=
  let u := arg args 0
  if !s.exists? u then s.ret NO_UNIT
  else if unitClass u != some .ax then s.ret RANGE
  else s.retRegs u ((List.range 13).map fun i => 0x100 + 4 * i)

def execReadPort (_ : Nat) (args : List Word) (s : State) : Out := .next (callReadPort args s)

/-- 0x0404: port, EN, IDLE_US, LANE_DISABLE, WAKE_EN, BOND. -/
def callConfigurePort (args : List Word) (s : State) : State :=
  let n := arg args
  let m := s.mayChange (n 0)
  if m != OK then s.ret m
  else if unitClass (n 0) != some .ax || !s.axCfgOk (n 0 - 0xE0) (n 1) (n 2) (n 3) (n 4) (n 5) then s.ret RANGE
  else (s.axCfg (n 0 - 0xE0) (n 1) (n 2) (n 3) (n 4) (n 5)).ret OK

def execConfigurePort (_ : Nat) (args : List Word) (s : State) : Out := .next (callConfigurePort args s)

/-- 0x0405: port mask. -/
def callSendWake (args : List Word) (s : State) : State :=
  let m := arg args 0
  if m = 0 || 15 < m then s.ret RANGE
  else if (setIndices 4 m).any fun i => !s.exists? (uAX i) then s.ret NO_UNIT
  else if (setIndices 4 m).any fun i => s.claimed (uAX i) then s.ret CLAIMED
  else if s.pendCalls.any fun c => c.num = 0x0405 && c.fin.isNone && c.key &&& m != 0 then s.ret UNIT_BUSY
  else
    let s := (setIndices 4 m).foldl (fun s i => s.portWake i) s
    if (setIndices 4 m).all fun i => s.axState i = 2 then s.ret OK else s.retPending 0x0405 m

def execSendWake (_ : Nat) (args : List Word) (s : State) : Out := .next (callSendWake args s)

/-- 0x0406: first remote mark, count, RING_ACK_TIMEOUT. -/
def callRingLimits (args : List Word) (s : State) : State :=
  let n := arg args
  let m := s.mayChange uRing
  if m != OK then s.ret m
  else if 0xFFFF < n 0 || 0xFFFF < n 1 || 65536 < n 0 + n 1 || n 2 < 10 || 60000 < n 2 then s.ret RANGE
  else if s.ring.dissolving then s.ret RING_BUSY
  else ((s.wr uRing 0x208 (w32 (n 1 * 2 ^ 16 + n 0))).wr uRing 0x20C (w32 (n 2))).ret OK

def execSetRingLimits (_ : Nat) (args : List Word) (s : State) : Out := .next (callRingLimits args s)

/-- 0x040A: position, mark, 0 MSIGNAL or 1 MADD, value. -/
def callRemoteMark (args : List Word) (s : State) : State :=
  s.remoteMark 0x040A (arg args 0) (arg args 1) (arg args 2) (arg args 3)

def execRemoteMarkOperation (_ : Nat) (args : List Word) (s : State) : Out := .next (callRemoteMark args s)

end Sys2Proof.Machine
end

