-- ==== Sys2Proof/Machine/EthRx.lean ====
section
/-! DEFINITION. The receive side of the Ethernet ports: sorting, receive frames of the Mill, general rings, wake frames,
the link (R404, R405, R466–R469, R481, R484, R518, R549). -/
namespace Sys2Proof.Machine

/-! ### Receive frames of the Mill (R405, R415) -/

def rxOff (f : Nat) : Nat := 0x2200 + 32 * f

/-- A MAC address from its first four and last two bytes. -/
def State.macAt (s : State) (u lo : Nat) : Nat := (s.rd u lo).toNat + 2 ^ 32 * s.fld u (lo + 4) 15 0

/-- The enabled receive descriptor that an axis frame matches: port, source MAC, KIND, AXIS_GROUP, COUNT. -/
def State.rxMatch (s : State) (p src group kind count : Nat) : Option Nat :=
  (List.range 16).find? fun f =>
    let o := rxOff f
    kind = 2 && s.flag uMill o 31 && s.fld uMill o 21 20 = p && s.macAt uMill (o + 4) = src &&
      s.fld uMill (o + 12) 31 16 = group && s.fld uMill o 15 8 = count

/-- An accepted frame: its words replace the buffer, it is counted, it is not stale. -/
def State.rxAccept (s : State) (f : Nat) (words : List Word) : State :=
  let o := rxOff f
  let first := s.fld uMill o 7 0
  let put := fun (l : List (Nat × Word)) (e : Word × Nat) => SMap.set (fun _ => 0) (first + e.2) e.1 l
  let s : State := { s with rxWords := words.zipIdx.foldl put s.rxWords }
  (s.countF uMill (o + 0x1C) 30 0 1).setFlag uMill (o + 0x1C) 31 false

/-- The Mill takes an axis frame with a good FCS when it matches. -/
def State.axisReceive (s : State) (p src group kind : Nat) (words : List Word) : State :=
  match s.rxMatch p src group kind words.length with
  | some f => s.rxAccept f words
  | none => s

def execAxisFrameReceive (p src group kind : Nat) (words : List Word) (s : State) : Out :=
  .next (s.axisReceive p src group kind words)

/-- No accepted copy for MAX_AGE_US: the frame's words are stale. -/
def execAxisFrameStale (f : Nat) (s : State) : Out :=
  .next (if f < 16 && s.flag uMill (rxOff f) 31 then s.setFlag uMill (rxOff f + 0x1C) 31 true else s)

/-! ### Parsing -/

/-- The number that n bytes at offset o of a frame spell, low byte first or high byte first. -/
def leAt (d : List Byte) (o n : Nat) : Nat := bytesNat ((d.drop o).take n)
def beAt (d : List Byte) (o n : Nat) : Nat := bytesNat ((d.drop o).take n).reverse

/-- Where the payload starts, after an optional 802.1Q tag; the EtherType is the two bytes before it. -/
def payAt (d : List Byte) : Nat := if beAt d 12 2 = 0x8100 then 18 else 14
def etherType (d : List Byte) : Nat := beAt d (payAt d - 2) 2

/-- An axis frame's AXIS_GROUP, KIND and words (R404). -/
def axisOf (d : List Byte) : Option (Nat × Nat × List Word) :=
  let o := payAt d
  let n := leAt d (o + 10) 2
  if etherType d = 0x88B5 && leAt d o 1 = 1 && 1 ≤ n && n ≤ 64 && o + 16 + 4 * n ≤ d.length then
    some (leAt d (o + 2) 2, leAt d (o + 1) 1, (List.range n).map fun i => w32 (leAt d (o + 16 + 4 * i) 4))
  else none

/-- A time-protocol frame: EtherType 0x88F7, or UDP over IPv4 to port 319 or 320 (R467). -/
def isPtp (d : List Byte) : Bool :=
  let o := payAt d
  let t := o + leAt d o 1 % 16 * 4
  etherType d = 0x88F7 || (etherType d = 0x0800 && leAt d (o + 9) 1 = 17 && (beAt d (t + 2) 2 = 319 || beAt d (t + 2) 2 = 320))

/-- A wake frame: six bytes of 0xFF, then sixteen copies of the station address, anywhere in the payload (R518). -/
def isWake (mac : List Byte) (d : List Byte) : Bool :=
  let pat := List.replicate 6 (0xFF : Byte) ++ (List.replicate 16 mac).flatten
  (List.range d.length).any fun i => (d.drop (14 + i)).take 102 == pat

/-- The station address's bytes. -/
def State.station (s : State) (p : Nat) : List Byte := natBytes 6 (s.macAt (uEP p) 0x108)

/-! ### The general ring (R247, R469) -/

def GenRing.init : GenRing := ⟨0, 0, 0, 0, true⟩
def State.genRing (s : State) (p : Nat) : GenRing := SMap.get (fun _ => GenRing.init) p s.genRings
def State.setGenRing (s : State) (p : Nat) (r : GenRing) : State :=
  { s with genRings := SMap.set (fun _ => GenRing.init) p r s.genRings }

/-- The corrected receive time in Gauge ns: RX_LAT sixteenths of a ns earlier (R466). -/
def State.rxStamp (s : State) (p : Nat) : Nat := (16 * s.nowNs - s.fld (uEP p) 0x114 15 0) / 16

/-- A frame goes into the next 2 KiB slot; one that is too long for it, or meets no enabled ring, is dropped. -/
def State.genStore (s : State) (p : Nat) (d : List Byte) : State :=
  if !s.flag (uEP p) 0x118 31 || 2032 < d.length then s.countF (uEP p) 0x124 15 0 1
  else
    let r := s.genRing p
    let t := s.rxStamp p
    let head := [w32 (d.length + b2n r.phase * 2 ^ 31), w32 (t % nsPerS), w32 (t / nsPerS), 0]
    let s := s.setBytes (r.addr + 2048 * r.tail) (head.flatMap (fun w => natBytes 4 w.toNat) ++ d)
    let next := if r.tail + 1 < 2 ^ r.order then r.tail + 1 else 0
    s.setGenRing p { r with tail := next, phase := if next = 0 then !r.phase else r.phase }

/-! ### A frame arrives (R469, R518) -/

/-- What the stack concludes of a time-protocol frame: 1 its best master has this identity, 2 a Sync of its master with
offset and path delay, anything else nothing (R467, R468). -/
def State.ptpFrame (s : State) (stack master offset delay : Nat) : State :=
  match stack with
  | 1 => s.ptpMaster master
  | 2 => s.ptpSync offset delay
  | _ => s

/-- A frame with a good FCS: the wake first, then the first sort of R469 that takes it. -/
def State.ethSort (s : State) (p : Nat) (d : List Byte) (stack master offset delay : Nat) : State :=
  let s := if s.flag uPwr 0x11C 8 || isWake (s.station p) d then s.wake 2 (uEP p) else s
  let axis := match axisOf d with
    | some (g, k, ws) => s.rxMatch p (leAt d 6 6) g k ws.length |>.map fun f => (f, ws)
    | none => none
  match axis with
  | some (f, ws) => s.rxAccept f ws
  | none =>
    if isPtp d then s.ptpFrame stack master offset delay
    else if isWake (s.station p) d then s
    else s.genStore p d

def State.ethReceive (s : State) (p : Nat) (d : List Byte) (good : Bool) (stack master offset delay : Nat) : State :=
  if !s.flag (uEP p) 0x100 31 then s
  else
    let s := s.count (uEP p) 0x11C 1
    if good then s.ethSort p d stack master offset delay else s.countF (uEP p) 0x124 31 16 1

def execEthFrameReceive (p : Nat) (data : List Byte) (good : Bool) (stack master offset delay : Nat) (s : State) : Out :=
  .next (s.ethReceive (p % 4) data good stack master offset delay)

/-- The link comes up or goes down; at link-up the port's PHY_EP calibration applies (R481, R549). -/
def State.ethLink (s : State) (p : Nat) (up : Bool) : State :=
  let was := s.flag (uEP p) 0x104 31
  let s := s.setFlag (uEP p) 0x104 31 up
  if up then (if was then s else s.calApply (calKeyOf (uEP p) 7)).ethKick p
  else { s with ethBusy := s.ethBusy.filter (·.port != p) }

def execEthLinkChange (p : Nat) (up : Bool) (s : State) : Out := .next (s.ethLink (p % 4) up)

/-- 0x0909: port, client, ring address, order 0–16, EN. -/
def callConfigureRings (args : List Word) (s : State) : State :=
  let p := arg args 0
  let a := argAddr args 2
  let n := 2048 * 2 ^ arg args 4
  if 4 ≤ p then s.ret RANGE
  else if s.claimed (uEP p) then s.ret CLAIMED
  else if 1 < arg args 5 || 4095 < arg args 1 then s.ret RANGE
  else if arg args 5 = 0 then ((s.setFlag (uEP p) 0x118 31 false).setGenRing p GenRing.init).ret OK
  else if !s.clientValid (arg args 1) || 16 < arg args 4 || a % 2048 != 0 ||
      !inRegion s.part a n (· = .lpddr) || fwRegion s.part (a + n - 1) then s.ret RANGE
  else ((s.wr (uEP p) 0x118 (w32 (2 ^ 31 + arg args 1))).setGenRing p ⟨arg args 1, a, arg args 4, 0, true⟩).ret OK

def execConfigureGeneralRings (_ : Nat) (args : List Word) (s : State) : Out := .next (callConfigureRings args s)

end Sys2Proof.Machine
end

