-- ==== Sys2Proof/Machine/Jpeg.lean ====
section
/-! DEFINITION. Decoding stored samples: baseline JPEG, raw and GFP, with the causes of R333 and the decode units of
R347 (R329–R333). What R330 leaves to ISO/IEC 10918-1 is taken from it (notes/assumptions/70.md). -/
namespace Sys2Proof.Machine

def Img.none : Img := ⟨0, 0, 0, 0, false, []⟩
def cMALFORMED : Nat := 1
def cUNSUPPORTED : Nat := 2
def cSIZE : Nat := 3
def cCRC : Nat := 4
def cFETCH : Nat := 5
def cTIMEOUT : Nat := 6
def cHOST : Nat := 7
def cDEFERRED : Nat := 0x10
def Decoded.bad (cause du : Nat) : Decoded := ⟨cause, .none, du⟩

/-- The 16-byte header of the raw layout (R331). -/
def Img.header (i : Img) : List Byte :=
  natBytes 4 (i.w + 2 ^ 16 * i.h) ++ natBytes 4 (i.planes + 2 ^ 4 * i.fmt + 2 ^ 8 * b2n i.inter) ++ natBytes 8 0
/-- The sample in the raw layout. -/
def Img.raw (i : Img) : List Byte := i.header ++ i.data
/-- The code of plane p at row y, column x. -/
def Img.code (i : Img) (p y x : Nat) : Nat :=
  let k := if i.inter then (y * i.w + x) * i.planes + p else (p * i.h + y) * i.w + x
  if i.fmt = 8 then bytesNat ((i.data.drop (2 * k)).take 2) else (nth i.data k 0).toNat

/-! ### Raw (R331) -/

/-- A raw sample: the rows are copied unchanged. -/
def decodeRaw (l : List Byte) : Decoded :=
  let du := ceilDiv l.length 512
  let w := bytesNat (l.take 2)
  let h := bytesNat ((l.drop 2).take 2)
  let c := bytesNat ((l.drop 4).take 4)
  let planes := c % 16
  let fmt := c / 16 % 16
  let n := w * h * planes * (if fmt = 8 then 2 else 1)
  if l.length < 16 || w = 0 || 8192 < w || h = 0 || 8192 < h || planes = 0 || 4 < planes ||
      !(fmt = 1 || fmt = 2 || fmt = 8) || 2 ≤ c / 2 ^ 8 || bytesNat ((l.drop 8).take 8) != 0 || l.length < 16 + n then
    .bad cMALFORMED du
  else ⟨0, ⟨w, h, planes, fmt, c / 2 ^ 8 = 1, (l.drop 16).take n⟩, du⟩

/-! ### GFP (R332) -/

/-- The bits of a byte from bit 7 down. -/
def byteBits (b : Byte) : List Bool := (List.range 8).map fun i => bit b (7 - i)

/-- Count one-bits up to a zero-bit. -/
def unary : List Bool → Option (Nat × List Bool)
  | [] => .none
  | false :: t => some (0, t)
  | true :: t => (unary t).map fun r => (r.1 + 1, r.2)

/-- The next k bits, most significant first. -/
def takeBits : Nat → Nat → List Bool → Option (Nat × List Bool)
  | 0, a, l => some (a, l)
  | _ + 1, _, [] => .none
  | k + 1, a, b :: t => takeBits k (2 * a + b2n b) t

/-- The predicted value of an element. -/
def gfpPred (pred left up : Nat) : Nat := match pred with | 0 => 0 | 1 => left | 2 => up | _ => (left + up) / 2

/-- The elements of one row: those still to come are predicted from the row above, `up`. -/
def gfpElems (depth pred k : Nat) : Nat → List Nat → List Bool → Option (List Nat × List Bool)
  | _, [], bs => some ([], bs)
  | left, u :: us, bs => do
    let (q, bs) ← unary bs
    let (low, bs) ← takeBits k 0 bs
    let z := q * 2 ^ k + low
    let r : Int := if z % 2 = 0 then z / 2 else -((z + 1) / 2 : Nat)
    if r < -(2 ^ (depth - 1) : Nat) || ((2 ^ (depth - 1) : Nat) : Int) ≤ r then .none
    else
      let x := ((gfpPred pred left u : Int) + r).emod (2 ^ depth : Nat) |>.toNat
      let (t, bs) ← gfpElems depth pred k x us bs
      pure (x :: t, bs)

/-- One row: a byte of predictor and Rice parameter, then the elements to a byte boundary. -/
def gfpRow (depth : Nat) (up : List Nat) : List Byte → Option (List Nat × List Byte)
  | [] => .none
  | b :: t => do
    if 16 < bits b 4 0 then .none
    else
      let (xs, left) ← gfpElems depth (bits b 7 6) (bits b 4 0) 0 up (t.flatMap byteBits)
      pure (xs, t.drop (t.length - left.length / 8))

/-- The rows of one y, plane by plane, given the rows above. -/
def gfpPlanes (depth : Nat) : List (List Nat) → List Byte → Option (List (List Nat) × List Byte)
  | [], bs => some ([], bs)
  | u :: us, bs => do
    let (r, bs) ← gfpRow depth u bs
    let (t, bs) ← gfpPlanes depth us bs
    pure (r :: t, bs)

/-- h rows of every plane. -/
def gfpRows (depth : Nat) : Nat → List (List Nat) → List Byte → Option (List (List (List Nat)))
  | 0, _, _ => some []
  | h + 1, ups, bs => do
    let (r, bs) ← gfpPlanes depth ups bs
    let t ← gfpRows depth h r bs
    pure (r :: t)

/-- A GFP sample. -/
def decodeGfp (l : List Byte) : Decoded :=
  let w := bytesNat ((l.drop 4).take 2)
  let h := bytesNat ((l.drop 6).take 2)
  let planes := (nth l 8 0).toNat
  let depth := (nth l 9 0).toNat
  let du := 32 + ceilDiv (w * h * planes) 32
  if l.length < 32 || bytesNat (l.take 4) != 0x31504647 || w = 0 || 8192 < w || h = 0 || 8192 < h || planes = 0 ||
      4 < planes || !(depth = 8 || depth = 16) || bytesNat ((l.drop 10).take 22) != 0 then .bad cMALFORMED du
  else match gfpRows depth h (List.replicate planes (List.replicate w 0)) (l.drop 32) with
    | .none => .bad cMALFORMED du
    | some rows =>
      let data := (List.range planes).flatMap fun p => rows.flatMap fun r => (nth r p []).flatMap (natBytes (depth / 8))
      ⟨0, ⟨w, h, planes, if depth = 8 then 2 else 8, false, data⟩, du⟩

/-! ### JPEG (R330) -/

/-- A Huffman table: codes of each length, symbols in code order. -/
structure Huff where
  counts : List Nat
  syms : List Nat

/-- A component of the frame: identifier, sampling factors, quantisation table; of the scan: DC and AC tables. -/
structure JComp where
  id : Nat
  hs : Nat
  vs : Nat
  tq : Nat

/-- What the segments read so far set: quantisation tables, Huffman tables (16 × class + number), frame size and
components, restart interval, blocks decoded (component, block row, block column, 64 pixels), symbols, scans by
component. -/
structure JState where
  quant : List (Nat × List Nat)
  huff : List (Nat × Huff)
  w : Nat
  h : Nat
  comps : List JComp
  dri : Nat
  blocks : List (Nat × Nat × Nat × List Nat)
  syms : Nat
  seen : List Nat

def JState.init : JState := ⟨[], [], 0, 0, [], 0, [], 0, []⟩

/-- Zigzag order: the place v × 8 + u of each coefficient. -/
def zigzag : List Nat := [
  0, 1, 8, 16, 9, 2, 3, 10, 17, 24, 32, 25, 18, 11, 4, 5, 12, 19, 26, 33, 40, 48, 41, 34, 27, 20, 13, 6, 7, 14, 21, 28,
  35, 42, 49, 56, 57, 50, 43, 36, 29, 22, 15, 23, 30, 37, 44, 51, 58, 59, 52, 45, 38, 31, 39, 46, 53, 60, 61, 54, 47, 55,
  62, 63]

/-- K[x][u] (R330). -/
def jpegK : List (List Int) := [
  [2896, 4017, 3784, 3406, 2896, 2276, 1567, 799],
  [2896, 3406, 1567, -799, -2896, -4017, -3784, -2276],
  [2896, 2276, -1567, -4017, -2896, 799, 3784, 3406],
  [2896, 799, -3784, -2276, 2896, 3406, -1567, -4017],
  [2896, -799, -3784, 2276, 2896, -3406, -1567, 4017],
  [2896, -2276, -1567, 4017, -2896, -799, 3784, -3406],
  [2896, -3406, 1567, 799, -2896, 4017, -3784, 2276],
  [2896, -4017, 3784, -3406, 2896, -2276, 1567, -799]]

/-- An arithmetic shift right. -/
def sar (z : Int) (k : Nat) : Int := z / (2 ^ k : Nat)
def clamp8 (z : Int) : Nat := if z < 0 then 0 else if 255 < z then 255 else z.toNat
def idot (a b : List Int) : Int := (a.zip b).foldl (fun s p => s + p.1 * p.2) 0

/-- The pixels of a block, row by row, of dequantised coefficients at places v × 8 + u (R330). -/
def idct (f : List Int) : List Nat :=
  let t := (blocksOf 8 8 f).map fun row => jpegK.map fun k => sar (idot k row + 2 ^ 10) 11
  (List.range 8).flatMap fun y => (List.range 8).map fun x =>
    clamp8 (sar (idot (nth jpegK y []) (t.map fun r => nth r x 0) + 2 ^ 14) 15 + 128)

/-- Decode one Huffman symbol: code, first code and index of the length. -/
def huffGo : List Nat → List Nat → Nat → Nat → Nat → List Bool → Option (Nat × List Bool)
  | [], _, _, _, _, _ => .none
  | _, _, _, _, _, [] => .none
  | c :: cs, syms, code, first, idx, b :: t =>
    let code := code + b2n b
    if code < first + c then (syms[idx + (code - first)]?).map fun s => (s, t)
    else huffGo cs syms (2 * code) (2 * (first + c)) (idx + c) t
def Huff.next (h : Huff) (bs : List Bool) : Option (Nat × List Bool) := huffGo h.counts h.syms 0 0 0 bs

/-- The signed value of s received bits. -/
def jExtend (s v : Nat) : Int := if s = 0 then 0 else if v < 2 ^ (s - 1) then (v : Int) - (2 ^ s - 1 : Nat) else v

/-- The AC coefficients of a block from zigzag place k on (fuel bounds the symbols): the block, symbols, bits left. -/
def acGo (h : Huff) (q : List Nat) : Nat → Nat → List Int → Nat → List Bool → Option (List Int × Nat × List Bool)
  | 0, _, _, _, _ => .none
  | f + 1, k, blk, n, bs =>
    if 64 ≤ k then some (blk, n, bs)
    else do
      let (rs, bs) ← h.next bs
      let r := rs / 16
      let s := rs % 16
      if s = 0 then
        if r = 15 then (if 64 < k + 16 then .none else acGo h q f (k + 16) blk (n + 1) bs)
        else if r = 0 then some (blk, n + 1, bs)
        else .none
      else if 10 < s || 64 ≤ k + r then .none
      else
        let (v, bs) ← takeBits s 0 bs
        acGo h q f (k + r + 1) (setNth blk (nth zigzag (k + r) 0) (jExtend s v * (nth q (k + r) 0 : Nat))) (n + 1) bs

/-- One block: the DC prediction in and out, its pixels, symbols read. -/
def jBlock (dc ac : Huff) (q : List Nat) (pred : Int) (bs : List Bool) : Option (Int × List Nat × Nat × List Bool) := do
  let (s, bs) ← dc.next bs
  if 11 < s then .none
  else
    let (v, bs) ← takeBits s 0 bs
    let d := pred + jExtend s v
    let (blk, n, bs) ← acGo ac q 65 1 (d * (nth q 0 0 : Nat) :: List.replicate 63 0) 1 bs
    pure (d, idct blk, n, bs)

/-- A block that a scan reads: component index, block row and column, its tables. -/
structure JPlan where
  ci : Nat
  by_ : Nat
  bx : Nat
  dc : Huff
  ac : Huff
  q : List Nat

/-- Read the blocks of one restart interval, with the DC predictions by component. -/
def jBlocks : List JPlan → List (Nat × Int) → List Bool → Option (List (Nat × Nat × Nat × List Nat) × Nat)
  | [], _, _ => some ([], 0)
  | p :: ps, preds, bs => do
    let (d, px, n, bs) ← jBlock p.dc p.ac p.q (SMap.get (fun _ => 0) p.ci preds) bs
    let (t, m) ← jBlocks ps ((p.ci, d) :: preds.filter (·.1 != p.ci)) bs
    pure ((p.ci, p.by_, p.bx, px) :: t, n + m)

/-- Entropy-coded bytes up to a marker: whether it is reached in order, restart intervals, newest last, and what follows; restart markers
count up mod 8. -/
def jScanBytes : List Byte → List Byte → Nat → List (List Byte) → Bool × List (List Byte) × List Byte
  | [], cur, _, done => (false, (cur.reverse :: done).reverse, [])
  | [a], cur, _, done => (false, ((a :: cur).reverse :: done).reverse, [])
  | a :: b :: t, cur, rst, done =>
    if a != 0xFF then jScanBytes (b :: t) (a :: cur) rst done
    else if b = 0 then jScanBytes t (a :: cur) rst done
    else if b.toNat / 8 = 0x1A then
      if b.toNat % 8 = rst % 8 then jScanBytes t [] (rst + 1) (cur.reverse :: done) else (false, (cur.reverse :: done).reverse, t)
    else if b = 0xFF then jScanBytes (b :: t) cur rst done
    else (true, (cur.reverse :: done).reverse, a :: b :: t)

/-- Largest sampling factors of the frame. -/
def JState.hmax (s : JState) : Nat := s.comps.foldl (fun a c => max a c.hs) 1
def JState.vmax (s : JState) : Nat := s.comps.foldl (fun a c => max a c.vs) 1

/-- The MCUs of a scan as lists of blocks: (component index, table selectors) of the scan. -/
def JState.mcus (s : JState) (scan : List (Nat × Nat × Nat)) : Option (List (List JPlan)) := do
  let plan (e : Nat × Nat × Nat) (y x : Nat) : Option JPlan := do
    let c ← s.comps[e.1]?
    let dc ← (s.huff.find? (·.1 = e.2.1)).map (·.2)
    let ac ← (s.huff.find? (·.1 = 16 + e.2.2)).map (·.2)
    let q ← (s.quant.find? (·.1 = c.tq)).map (·.2)
    pure ⟨e.1, y, x, dc, ac, q⟩
  match scan with
  | [e] =>
    let c ← s.comps[e.1]?
    let bw := ceilDiv (ceilDiv (s.w * c.hs) s.hmax) 8
    let bh := ceilDiv (ceilDiv (s.h * c.vs) s.vmax) 8
    ((List.range bh).flatMap fun y => (List.range bw).map fun x => (plan e y x).map fun p => [p]).mapM id
  | _ =>
    let mw := ceilDiv s.w (8 * s.hmax)
    let mh := ceilDiv s.h (8 * s.vmax)
    ((List.range mh).flatMap fun my => (List.range mw).map fun mx =>
      (scan.flatMap fun e =>
        match s.comps[e.1]? with
        | .none => [.none]
        | some c => (List.range c.vs).flatMap fun y => (List.range c.hs).map fun x => plan e (my * c.vs + y) (mx * c.hs + x)).mapM id).mapM id

/-- Read a scan's intervals of r MCUs each (all of them when r is 0). -/
def jIntervals (r : Nat) : List (List Byte) → List (List JPlan) → Option (List (Nat × Nat × Nat × List Nat) × Nat)
  | [], m => if m.isEmpty then some ([], 0) else .none
  | i :: is, m => do
    if m.isEmpty then .none
    else
      let now := if r = 0 then m else m.take r
      let (b, n) ← jBlocks now.flatten [] (i.flatMap byteBits)
      let (t, k) ← jIntervals r is (if r = 0 then [] else m.drop r)
      pure (b ++ t, n + k)

/-- The symbols that a block's AC coefficients read before they fail (fuel bounds them). -/
def acWork (h : Huff) : Nat → Nat → List Bool → Nat
  | 0, _, _ => 0
  | f + 1, k, bs =>
    match h.next bs with
    | .none => 0
    | some (rs, bs) =>
      let r := rs / 16
      let n := rs % 16
      if n = 0 then (if r = 15 && k + 16 ≤ 64 then 1 + acWork h f (k + 16) bs else 1)
      else if 10 < n || 64 ≤ k + r then 1
      else match takeBits n 0 bs with
        | some (_, bs) => 1 + acWork h f (k + r + 1) bs
        | .none => 1

/-- The symbols that a block reads before it fails. -/
def blockWork (p : JPlan) (bs : List Bool) : Nat :=
  match p.dc.next bs with
  | .none => 0
  | some (n, bs) => if 11 < n then 1 else match takeBits n 0 bs with
    | some (_, bs) => 1 + acWork p.ac 65 1 bs
    | .none => 1

/-- The symbols and blocks of an interval up to where it fails. -/
def blocksWork : List JPlan → List Bool → Nat × Nat
  | [], _ => (0, 0)
  | p :: ps, bs => match jBlock p.dc p.ac p.q 0 bs with
    | some (_, _, n, bs) => let (a, b) := blocksWork ps bs; (n + a, b + 1)
    | .none => (blockWork p bs, 0)

/-- The symbols and blocks of a scan up to where it fails. -/
def scanWork (r : Nat) : List (List Byte) → List (List JPlan) → Nat × Nat
  | [], _ => (0, 0)
  | i :: is, m =>
    if m.isEmpty then (0, 0)
    else
      let now := (if r = 0 then m else m.take r).flatten
      let bs := i.flatMap byteBits
      let (a, b) := blocksWork now bs
      if b < now.length then (a, b)
      else let (c, d) := scanWork r is (if r = 0 then [] else m.drop r); (a + c, b + d)

/-- A result of reading a segment: the state, or a cause and the decode units up to there. -/
abbrev JRes := Except (Nat × Nat) JState

/-- Decode units of what has been read, and of symbols and blocks of the scan under way (R347). -/
def JState.du (s : JState) (syms blocks : Nat) : Nat := 400 + (s.syms + syms) / 2 + 4 * (s.blocks.length + blocks)

/-- The stream fails for a cause. -/
def JState.fail {α : Type} (s : JState) (c : Nat) : Except (Nat × Nat) α := .error (c, s.du 0 0)

/-- DQT: 8-bit tables (fuel bounds the tables). -/
def jDqt (s : JState) : Nat → List Byte → JRes
  | _, [] => .ok s
  | 0, _ => s.fail cMALFORMED
  | f + 1, b :: t =>
    if 16 ≤ b.toNat then (if b.toNat < 32 then s.fail cUNSUPPORTED else s.fail cMALFORMED)
    else if 4 ≤ b.toNat || t.length < 64 then s.fail cMALFORMED
    else jDqt { s with quant := (b.toNat, (t.take 64).map (·.toNat)) :: s.quant.filter (·.1 != b.toNat) } f (t.drop 64)

/-- DHT: tables of class 0 (DC) or 1 (AC), numbers 0 and 1 for baseline. -/
def jDht (s : JState) : Nat → List Byte → JRes
  | _, [] => .ok s
  | 0, _ => s.fail cMALFORMED
  | f + 1, b :: t =>
    let counts := (t.take 16).map (·.toNat)
    let n := counts.foldl (· + ·) 0
    if 2 ≤ b.toNat / 16 || 2 ≤ b.toNat % 16 || t.length < 16 + n || 256 < n then s.fail cMALFORMED
    else jDht { s with huff := (b.toNat, ⟨counts, ((t.drop 16).take n).map (·.toNat)⟩) :: s.huff.filter (·.1 != b.toNat) } f
      (t.drop (16 + n))

/-- SOF0: size and components; only the samplings of R330. -/
def jSof (s : JState) (b : List Byte) : JRes :=
  let n := (nth b 5 0).toNat
  let h := (nth b 1 0).toNat * 256 + (nth b 2 0).toNat
  let w := (nth b 3 0).toNat * 256 + (nth b 4 0).toNat
  let comps := (List.range n).map fun i =>
    let v := (nth b (7 + 3 * i) 0).toNat
    (⟨(nth b (6 + 3 * i) 0).toNat, v / 16, v % 16, (nth b (8 + 3 * i) 0).toNat⟩ : JComp)
  let f := comps.map fun c => (c.hs, c.vs)
  if b.length < 6 || b.length != 6 + 3 * n || !s.comps.isEmpty then s.fail cMALFORMED
  else if (nth b 0 0).toNat != 8 || !(n = 1 || n = 3) then s.fail cUNSUPPORTED
  else if w = 0 || 8192 < w || h = 0 || 8192 < h then s.fail cUNSUPPORTED
  else if n = 1 then .ok { s with w := w, h := h, comps := comps.map fun c => { c with hs := 1, vs := 1 } }
  else if f = [(1, 1), (1, 1), (1, 1)] || f = [(2, 1), (1, 1), (1, 1)] || f = [(2, 2), (1, 1), (1, 1)] then
    .ok { s with w := w, h := h, comps := comps }
  else s.fail cUNSUPPORTED

/-- SOS: read the scan that follows the header; the state and what is left. -/
def jSos (s : JState) (hd rest : List Byte) : Except (Nat × Nat) (JState × List Byte) :=
  let n := (nth hd 0 0).toNat
  let sel := (List.range n).map fun i =>
    let t := (nth hd (2 + 2 * i) 0).toNat
    (s.comps.findIdx? (·.id = (nth hd (1 + 2 * i) 0).toNat), t / 16, t % 16)
  if s.comps.isEmpty || n = 0 || 3 < n || hd.length != 4 + 2 * n || sel.any (fun e => e.1.isNone) then s.fail cMALFORMED
  else
    let scan := sel.map fun e => (e.1.getD 0, e.2.1, e.2.2)
    if (hd.drop (1 + 2 * n)).map (·.toNat) != [0, 63, 0] || (scan.any fun e => s.seen.contains e.1) then s.fail cMALFORMED
    else match s.mcus scan with
      | .none => s.fail cMALFORMED
      | some m =>
       let (ok, ivs, rest) := jScanBytes rest [] 0 []
       match (if ok then jIntervals s.dri ivs m else .none) with
       | .none => let (a, b) := scanWork s.dri ivs m; .error (cMALFORMED, s.du a b)
       | some (b, k) =>
        .ok ({ s with blocks := s.blocks ++ b, syms := s.syms + k, seen := s.seen ++ scan.map (·.1) }, rest)

/-- Segments up to EOI (fuel bounds them). -/
def jSegments : Nat → JState → List Byte → JRes
  | 0, s, _ => s.fail cMALFORMED
  | f + 1, s, l =>
    match l with
    | a :: m :: t =>
      let k := m.toNat
      let len := (nth t 0 0).toNat * 256 + (nth t 1 0).toNat
      let body := (t.drop 2).take (len - 2)
      let rest := t.drop len
      if a != 0xFF then s.fail cMALFORMED
      else if k = 0xFF then jSegments f s (m :: t)
      else if k = 0xD9 then .ok s
      else if t.length < 2 || len < 2 || t.length < len then s.fail cMALFORMED
      else if 0xE0 ≤ k && k < 0xF0 || k = 0xFE then jSegments f s rest
      else if k = 0xDB then (jDqt s 5 body).bind fun s => jSegments f s rest
      else if k = 0xC4 then (jDht s 5 body).bind fun s => jSegments f s rest
      else if k = 0xC0 then (jSof s body).bind fun s => jSegments f s rest
      else if k = 0xDD then
        if len = 4 then jSegments f { s with dri := (nth body 0 0).toNat * 256 + (nth body 1 0).toNat } rest else s.fail cMALFORMED
      else if k = 0xDA then (jSos s body rest).bind fun r => jSegments f r.1 r.2
      else if 0xC1 ≤ k && k < 0xD0 || k = 0xDC || k = 0xDE || k = 0xDF then s.fail cUNSUPPORTED
      else s.fail cMALFORMED
    | _ => s.fail cMALFORMED

/-- The sample of a component that serves pixel (x, y) (R330, Chroma). -/
def JState.sample (s : JState) (ci y x : Nat) : Int :=
  match s.comps[ci]? with
  | .none => 0
  | some c =>
    let cx := x * c.hs / s.hmax
    let cy := y * c.vs / s.vmax
    match s.blocks.find? fun b => b.1 = ci && b.2.1 = cy / 8 && b.2.2.1 = cx / 8 with
    | some b => (nth b.2.2.2 (cy % 8 * 8 + cx % 8) 0 : Nat)
    | .none => 0

/-- A term of the colour conversion. -/
def jTerm (t : Int) : Int := sar (t + 2 ^ 15) 16

/-- R, G and B of a pixel (R330, Colour). -/
def JState.rgb (s : JState) (y x : Nat) : List Nat :=
  let l := s.sample 0 y x
  let cb := s.sample 1 y x - 128
  let cr := s.sample 2 y x - 128
  [clamp8 (l + jTerm (91881 * cr)), clamp8 (l + jTerm (-22554 * cb) + jTerm (-46802 * cr)), clamp8 (l + jTerm (116130 * cb))]

/-- A JPEG sample. -/
def decodeJpeg (l : List Byte) : Decoded :=
  match l with
  | a :: b :: t =>
    if a != 0xFF || b != 0xD8 then .bad cMALFORMED 400
    else match jSegments (t.length + 1) .init t with
      | .error (c, du) => .bad c du
      | .ok s =>
        let du := s.du 0 0 + s.w * s.h / 64
        if s.comps.isEmpty || s.seen.length != s.comps.length then .bad cMALFORMED du
        else
          let px := fun c => (List.range s.h).flatMap fun y => (List.range s.w).map fun x =>
            BitVec.ofNat 8 (if s.comps.length = 1 then (s.sample 0 y x).toNat else nth (s.rgb y x) c 0)
          let planes := s.comps.length
          ⟨0, ⟨s.w, s.h, planes, 2, false, (List.range planes).flatMap px⟩, du⟩
  | _ => .bad cMALFORMED 400

/-- A sample of a FORMAT (R329). -/
def decodeSample (format : Nat) (l : List Byte) : Decoded :=
  match format with
  | 0 => decodeJpeg l
  | 1 => decodeRaw l
  | 2 => decodeGfp l
  | _ => .bad cUNSUPPORTED 0

end Sys2Proof.Machine
end

