-- ==== Sys2Proof/Machine/Resample.lean ====
section
/-! DEFINITION. Resampling, normalisation and the tensors that a Vat writes (R103, R320, R324, R326–R328, R335). -/
namespace Sys2Proof.Machine

/-- Source index, next index and weight of output o along an axis (R326). -/
def axisPos (sin sout o : Nat) : Nat × Nat × Word :=
  let p : Int := (((2 * o + 1) * sin : Nat) - (sout : Int)) * 2 ^ 15 / (sout : Int)
  let (i0, f) := if p < 0 then (0, 0) else (p.toNat / 2 ^ 16, p.toNat % 2 ^ 16)
  let (i0, f) := if sin - 1 ≤ i0 then (sin - 1, 0) else (i0, f)
  (i0, min (i0 + 1) (sin - 1), f32Round false f (-16))

/-- Bilinear resampling of a w × h source to output (y, x) of an ow × oh output (R326). -/
def bilinear (src : Nat → Nat → Word) (w h ow oh y x : Nat) : Word :=
  let (x0, x1, wx) := axisPos w ow x
  let (y0, y1, wy) := axisPos h oh y
  let row := fun yy => let a0 := src yy x0; ffma wx (fsub (src yy x1) a0) a0
  let t0 := row y0
  ffma wy (fsub (row y1) t0) t0

/-- Area resampling by integer factors kx and ky (R327): the sum in row-major order from the first input. -/
def areaAt (src : Nat → Nat → Word) (kx ky y x : Nat) : Word :=
  let l := (List.range ky).flatMap fun i => (List.range kx).map fun j => src (y * ky + i) (x * kx + j)
  fmul ((l.drop 1).foldl fadd (l.headD 0)) (frcp (f32OfInt (kx * ky)))

/-- Integer factors of 1–8 that reduce a w × h source to ow × oh. -/
def areaFactors (w h ow oh : Nat) : Option (Nat × Nat) :=
  if ow = 0 || oh = 0 || w % ow != 0 || h % oh != 0 then .none
  else
    let kx := w / ow
    let ky := h / oh
    if 1 ≤ kx && kx ≤ 8 && 1 ≤ ky && ky ≤ 8 then some (kx, ky) else .none

/-- Resample to output (y, x): by area with factors, else bilinear. -/
def resampleAt (src : Nat → Nat → Word) (area : Option (Nat × Nat)) (w h ow oh y x : Nat) : Word :=
  match area with
  | some (kx, ky) => areaAt src kx ky y x
  | .none => bilinear src w h ow oh y x

/-- Strides of a tensor of a width, planes and format (R320); a whole tensor's bytes. -/
def vatPix (fmt planes : Nat) : Nat := ceilDiv (rowBytes fmt planes) 8 * 8
def vatStride (fmt planes w : Nat) : Nat := ceilDiv (w * vatPix fmt planes) 64 * 64
def vatSize (fmt planes w h : Nat) : Nat := h * vatStride fmt planes w

/-- One row of a tensor of normalised values: bytes to write (none: padding, left as it is) and clipped or non-finite
outputs (R328). -/
def tensorRow (fmt planes w : Nat) (val : Nat → Nat → Word) : List (Option Byte) × Nat :=
  let px := (List.range w).map fun x => (List.range planes).map fun c => requant fmt (val c x)
  let bytes := px.flatMap fun cs =>
    let b := (packRow fmt (cs.map (·.code))).map some
    b ++ List.replicate (vatPix fmt planes - b.length) .none
  (bytes ++ List.replicate (vatStride fmt planes w - bytes.length) .none,
    (px.flatten.filter fun r => r.clip || r.nonfin).length)

/-- A tensor: its bytes and its count of clips. -/
def tensorOf (fmt planes w h : Nat) (val : Nat → Nat → Nat → Word) : List (Option Byte) × Nat :=
  let rows := (List.range h).map fun y => tensorRow fmt planes w fun c x => val c y x
  (rows.flatMap (·.1), rows.foldl (fun a r => a + r.2) 0)

/-- y = rn(rn(x − MEAN) × SCALE) (R328). -/
def normalise (mean scale x : Word) : Word := fmul (fsub x mean) scale

/-- Bursts of at most 1,024 bytes (R222). -/
def cutBursts (a : Nat) (l : List (Option Byte)) : List (Nat × List (Option Byte)) :=
  let bs := blocksOf 1024 (ceilDiv l.length 1024) l
  (List.range bs.length).map fun i => (a + 1024 * i, nth bs i [])

/-! ### Augmentation (R335) -/

/-- An augmentation record. -/
structure Aug where
  x : Nat
  y : Nat
  w : Nat
  h : Nat
  flip : Bool
  rot : Nat
  area : Bool
  contrast : Word
  bright : Word

def augOf (b : List Byte) : Aug :=
  let n := fun o k => bytesNat ((b.drop o).take k)
  ⟨n 0 2, n 2 2, n 4 2, n 6 2, n 8 1 % 2 = 1, n 8 1 / 2 % 4, n 8 1 / 8 % 2 = 1, w32 (n 12 4), w32 (n 16 4)⟩

/-- Reserved bits of a record are 0. -/
def augClean (b : List Byte) : Bool := bytesNat ((b.drop 8).take 4) < 16 && bytesNat (b.drop 20) = 0

/-- Size after crop and rotation. -/
def Aug.size (a : Aug) : Nat × Nat := if a.rot % 2 = 1 then (a.h, a.w) else (a.w, a.h)

/-- The decoded pixel (x, y) that cropped, flipped and rotated position (y, x) takes. -/
def Aug.from (a : Aug) (y x : Nat) : Nat × Nat :=
  let (u, v) := match a.rot with
    | 0 => (x, y)
    | 1 => (y, a.h - 1 - x)
    | 2 => (a.w - 1 - x, a.h - 1 - y)
    | _ => (a.w - 1 - y, x)
  (a.x + (if a.flip then a.w - 1 - u else u), a.y + v)

/-- A record that ends the job for an image (R335). -/
def Aug.bad (a : Aug) (i : Img) (planes ow oh : Nat) : Bool :=
  a.w = 0 || a.h = 0 || 8192 < a.w || 8192 < a.h || i.w < a.x + a.w || i.h < a.y + a.h || i.planes != planes ||
    (a.area && (areaFactors a.size.1 a.size.2 ow oh).isNone)

/-- The tensor of a sample (R335): crop, flip, rotate, resize, contrast and brightness, normalise. -/
def augTensor (i : Img) (a : Aug) (fmt ow oh : Nat) (mean scale : List Word) : List (Option Byte) × Nat :=
  let (w, h) := a.size
  let area := if a.area then areaFactors w h ow oh else .none
  tensorOf fmt i.planes ow oh fun c y x =>
    let src := fun yy xx => let p := a.from yy xx; f32Enc (codeFlt i.fmt 0 (i.code c p.2 p.1))
    normalise (nth mean c 0) (nth scale c 0) (ffma (resampleAt src area w h ow oh y x) a.contrast a.bright)

end Sys2Proof.Machine
end

