-- ==== Sys2Proof/Machine/PressImage.lean ====
section
/-! DEFINITION. The image of a Press pipeline, stage by stage, and its flicker estimates (R356, R357, R366–R368). What a stage leaves to
the bit is a free value within the limits that the rule sets (notes/assumptions/80.md, 213.md). -/
namespace Sys2Proof.Machine

/-! ### Stage 1 (R356): packing of R352's data types under MIPI CSI-2 (notes/assumptions/81.md) -/

/-- Split a number into fields of k bits, low first. -/
def fieldsOf (k : Nat) : Nat → Nat → List Nat
  | 0, _ => []
  | n + 1, v => v % 2 ^ k :: fieldsOf k n (v / 2 ^ k)

/-- Codes of groups whose high bytes come first and whose low bits follow packed. -/
def rawGroups (n low : Nat) (l : List Byte) : List Nat :=
  let size := n + n * low / 8
  (blocksOf size (l.length / size) l).flatMap fun b =>
    ((b.take n).zip (fieldsOf low n (bytesNat (b.drop n)))).map fun (e : Byte × Nat) => e.1.toNat * 2 ^ low + e.2

/-- The stage-1 values of a line's payload. -/
def unpackLine (dt nbits : Nat) (l : List Byte) : List Nat :=
  let raw : List Nat := match dt with
    | 0x2A => l.map fun b => b.toNat
    | 0x2B => rawGroups 4 2 l
    | 0x2C => rawGroups 2 4 l
    | 0x2D => rawGroups 4 6 l
    | 0x2E => (blocksOf 2 (l.length / 2) l).map fun b => (nth b 0 (0 : Byte)).toNat * 256 + (nth b 1 (0 : Byte)).toNat
    | _ => []
  match dt with
  | 0x1E => l.map fun b => b.toNat * 256
  | 0x24 => l.map fun b => b.toNat * 256
  | _ => raw.map fun v => v * 2 ^ (16 - nbits) % 65536

/-- Values in a line of the image. -/
def lineVals (d : List Byte) : Nat := ppW d * (match ppKind d with | 2 => 2 | 3 => 3 | _ => 1)

/-! ### Limits and rounding -/

/-- num ÷ den; an inexact result is rounded down or up, which no rule says. -/
def divOpen (stage num den : Nat) : Nat :=
  num / den + (if num % den = 0 then 0 else b2n (Config.pressUp stage num den))
/-- The same of a signed numerator. -/
def divOpenInt (stage : Nat) (num : Int) (den : Nat) : Int :=
  num / (den : Int) + (if num % (den : Int) = 0 then 0 else (b2n (Config.pressUp stage num.natAbs den) : Nat))
/-- The nearest value between the least and the greatest of a list. -/
def clampTo (l : List Nat) (v : Nat) : Nat := max (l.foldl min (l.headD 0)) (min (l.foldl max 0) v)
def sat16 (v : Int) : Nat := if v < 0 then 0 else min v.toNat 65535
/-- A signed 16-bit field. -/
def dnInt (d : List Byte) (off : Nat) : Int := if dn d off 2 < 2 ^ 15 then (dn d off 2 : Int) else (dn d off 2 : Int) - 2 ^ 16

/-! ### Stages 2 to 5 (R356) -/

/-- A stage-1 value: component c of an RGB source, whose bytes come B, G, R; of a YUV source a free value of its own. -/
def PpX.raw (x : PpX) (c y xx : Nat) : Nat :=
  match ppKind x.desc with
  | 2 => Config.pressPixel x.draw c y xx % 65536
  | 3 => nth (nth x.img y (0, [])).2 (3 * xx + (2 - c)) 0
  | _ => nth (nth x.img y (0, [])).2 xx 0

/-- The CFA channel of a pixel: its place in the quad, in the order of the CFA's letters; of other sources the component (DESIGN
CHOICE, notes/assumptions/213.md). -/
def cfaChan (d : List Byte) (c y xx : Nat) : Nat := if ppKind d = 0 then y % 2 * 2 + xx % 2 else c
/-- The colour of a channel of a Bayer source: 0 R, 1 G, 2 B (R358). -/
def cfaColour (d : List Byte) (ch : Nat) : Nat :=
  nth (match ppCfa d with | 0 => [0, 1, 1, 2] | 1 => [1, 0, 2, 1] | 2 => [1, 2, 0, 1] | _ => [2, 1, 1, 0]) ch 0

/-- Stage 2: less the black level, and scaled so that what remains is full scale. -/
def PpX.stage2 (x : PpX) (c y xx : Nat) : Nat :=
  let b := dn x.desc (0x14 + 2 * cfaChan x.desc c y xx) 2
  let v := x.raw c y xx
  if v ≤ b then 0 else divOpen 2 ((v - b) * 65535) (65535 - b)

/-- The places of the 5 × 5 window of a pixel; none: outside the image. -/
def window5 (d : List Byte) (y xx : Nat) : List (Option (Nat × Nat)) :=
  (List.range 5).flatMap fun i => (List.range 5).map fun j =>
    if 2 ≤ y + i && y + i < ppH d + 2 && 2 ≤ xx + j && xx + j < ppW d + 2 then some (y + i - 2, xx + j - 2) else none

/-- A pixel is listed in the defect table, which is read where DEFECT_ADDR points when it is used (R358). -/
def State.defect (s : State) (d : List Byte) (y xx : Nat) : Bool :=
  (List.range (dn d 0x1C 2 % 4096)).any fun k => s.rdN (dn d 0x20 6 + 4 * k) 2 = xx && s.rdN (dn d 0x20 6 + 4 * k + 2) 2 = y

/-- Stage 3: a listed pixel, and one too far from its same-colour neighbours, takes their median. -/
def State.stage3 (s : State) (x : PpX) (c y xx : Nat) : Nat :=
  let d := x.desc
  let same := fun (p : Nat × Nat) => p != (y, xx) &&
    (ppKind d != 0 || cfaColour d (cfaChan d 0 p.1 p.2) = cfaColour d (cfaChan d 0 y xx))
  let near := (((window5 d y xx).filterMap id).filter same).map fun p => x.stage2 c p.1 p.2
  let v := x.stage2 c y xx
  if !near.isEmpty && (s.defect d y xx || Config.pressOutlier v near) then clampTo near (Config.pressMedian near) else v

/-- Stage 4: times the gain of the channel's 33 × 33 grid, whose 32 × 32 cells cover the image; a grid address of 0 disables it. -/
def State.stage4 (s : State) (x : PpX) (c y xx : Nat) : Nat :=
  let d := x.desc
  let a := dn d 0x28 6
  let v := s.stage3 x c y xx
  if a = 0 then v
  else
    let gain := fun i j => s.rdN (a + 2 * (((y * 32 / ppH d + i) * 33 + (xx * 32 / ppW d + j)) * 4 + cfaChan d c y xx)) 2
    let at_ := [gain 0 0, gain 0 1, gain 1 0, gain 1 1]
    min 65535 (divOpen 4 (v * clampTo at_ (Config.pressLsc at_ y xx (ppH d) (ppW d))) 4096)

/-- Stage 5: times the channel's gain of the parameter set in effect, with saturation (R368). -/
def State.stage5 (s : State) (x : PpX) (c y xx : Nat) : Nat :=
  min 65535 (divOpen 5 (s.stage4 x c y xx * dn x.cur.data (0x10 + 2 * cfaChan x.desc c y xx) 2) 4096)

/-! ### Stages 6 and 7 (R356) -/

/-- Stage 6: a Bayer pixel keeps its own colour, the others are interpolated from its 5 × 5 window; a mono source gives all three. -/
def State.stage6 (s : State) (x : PpX) (c y xx : Nat) : Nat :=
  let d := x.desc
  match ppKind d with
  | 0 =>
    if cfaColour d (cfaChan d 0 y xx) = c then s.stage5 x 0 y xx
    else Config.pressDemosaic c (ppCfa d) (y % 2) (xx % 2) ((window5 d y xx).map fun p => p.map fun p => s.stage5 x 0 p.1 p.2) % 65536
  | 1 => s.stage5 x 0 y xx
  | _ => s.stage5 x c y xx

/-- Stage 7: M × RGB + offset of the set in effect, with saturation (R368). -/
def State.stage7 (s : State) (x : PpX) (c y xx : Nat) : Nat :=
  let m := fun j => dnInt x.cur.data (0x18 + 2 * (3 * c + j)) * (s.stage6 x j y xx : Nat)
  sat16 (divOpenInt 7 (m 0 + m 1 + m 2) 4096 + dnInt x.cur.data (0x2A + 2 * c))

/-! ### Stage 8 (R356, R357) -/

/-- The crop is taken at its size: no resize. -/
def oSame (d : List Byte) (o : Nat) : Bool := oCw d o = oW d o && oCh d o = oH d o

/-- The 16-bit value of a resampled one (R326, R327). -/
def natOfF32 (w : Word) : Nat :=
  match f32 w with
  | .fin neg m e => if neg then 0 else min 65535 (if 0 ≤ e then m * 2 ^ e.toNat else divOpen 8 m (2 ^ (-e).toNat))
  | _ => 0

/-- R, G or B of output pixel (y, x): the crop of stage 7, resized by area where integer factors allow, else bilinearly (R326, R327). -/
def State.rgb (s : State) (x : PpX) (o c y xx : Nat) : Nat :=
  let d := x.desc
  let src := fun yy k => s.stage7 x c (oCy d o + yy) (oCx d o + k)
  if oSame d o then src y xx
  else natOfF32 (resampleAt (fun yy k => f32OfInt (src yy k)) (areaFactors (oCw d o) (oCh d o) (oW d o) (oH d o)) (oCw d o) (oCh d o)
    (oW d o) (oH d o) y xx)

/-- A channel, or luma Y (3). -/
def State.chan (s : State) (x : PpX) (o c y xx : Nat) : Nat :=
  if c = 3 then (s.rgb x o 0 y xx + 2 * s.rgb x o 1 y xx + s.rgb x o 2 y xx) / 4 else s.rgb x o c y xx

/-- V ÷ 65,535 in FP16, rounded to nearest even (R357). -/
def fp16Of (v : Nat) : Nat :=
  if v = 0 then 0
  else
    let m := v * 2 ^ 40
    let (n, q) := roundTo 10 (-14) (m / 65535) (-40) (m % 65535 != 0)
    fmtCode 8 false n q
/-- The machine-vision code of a value. -/
def mvCode (fmt v : Nat) : Nat := if fmt = 8 then fp16Of v else min ((v + 256) / 512) 127

/-- The sRGB curve at i ÷ 1,023 is at least (2k − 1) ÷ 510: its linear part, or its power 12 ÷ 5 cleared of fractions. -/
def srgbReaches (i k : Nat) : Bool :=
  if i * 10000000 ≤ 31308 * 1023 then (2 * k - 1) * 1023 * 100 ≤ 1292 * i * 510
  else 1023 ^ 5 * ((2 * k - 1) * 1000 + 55 * 510) ^ 12 ≤ i ^ 5 * (510 * 1055) ^ 12
/-- An entry of the default transfer table: the sRGB curve at i ÷ 1,023, to the nearest of 255 steps (R357). -/
def srgb8 (i : Nat) : Nat := ((List.range 255).filter fun k => srgbReaches i (k + 1)).length

/-- The display's byte of a value: its entry of the transfer table (R357). -/
def State.tone (s : State) (d : List Byte) (v : Nat) : Byte :=
  let a := dn d 0x30 6
  if a = 0 then BitVec.ofNat 8 (srgb8 (v / 64)) else s.byte (a + v / 64)

/-- A BT.709 limited-range code of linear R, G, B: luma (comp 0), Cb or Cr; of 8 bits, or of 10 (R356). -/
def ycc709 (wide : Bool) (comp r g b : Nat) : Nat :=
  let k := if wide then 4 else 1
  let y : Nat := 2126 * r + 7152 * g + 722 * b
  match comp with
  | 0 => 16 * k + divOpen 9 (219 * k * y) (10000 * 65535)
  | 1 => (128 * k + divOpenInt 10 (224 * k * (10000 * b - (y : Int))) (18556 * 65535) : Int).toNat
  | _ => (128 * k + divOpenInt 11 (224 * k * (10000 * r - (y : Int))) (15748 * 65535) : Int).toNat

/-- A code of the coding output: luma of a pixel, or chroma of the pixels of a 2 × 2 block. -/
def State.ycc (s : State) (x : PpX) (comp y xx : Nat) : List Byte :=
  let wide := oFmt x.desc 1 = 1
  let at_ := fun yy k => ycc709 wide comp (s.rgb x 1 0 yy k) (s.rgb x 1 1 yy k) (s.rgb x 1 2 yy k)
  let code := if comp = 0 then at_ y xx
    else
      let l := (List.range 2).flatMap fun i => (List.range 2).filterMap fun j =>
        if 2 * y + i < oH x.desc 1 && 2 * xx + j < oW x.desc 1 then some (at_ (2 * y + i) (2 * xx + j)) else none
      clampTo l (Config.pressChroma l)
  if wide then natBytes 2 (code * 64) else natBytes 1 code

/-! ### Statistics and flicker (R366, R367) -/

/-- R, G, B of a quad of the stage-5 image: taken from the colours of a Bayer quad, or the means of the four pixels (R366). -/
def State.quad (s : State) (x : PpX) (qy qx : Nat) : Nat × Nat × Nat :=
  let d := x.desc
  let v := fun c i j => s.stage5 x c (2 * qy + i) (2 * qx + j)
  if ppKind d = 0 then
    let of := fun col => ((List.range 4).filter fun ch => cfaColour d ch = col).map fun ch => v 0 (ch / 2) (ch % 2)
    (nth (of 0) 0 0, (nth (of 1) 0 0 + nth (of 1) 1 0) / 2, nth (of 2) 0 0)
  else
    let mean := fun c => (v c 0 0 + v c 0 1 + v c 1 0 + v c 1 1) / 4
    if ppKind d = 1 then (mean 0, mean 0, mean 0) else (mean 0, mean 1, mean 2)

/-- The green values of row y after stage 2: their sum and how many there are (R367). -/
def PpX.greenRow (x : PpX) (y : Nat) : Nat × Nat :=
  let d := x.desc
  let xs := (List.range (ppW d)).filter fun k => ppKind d != 0 || cfaColour d (cfaChan d 0 y k) = 1
  (xs.foldl (fun a k => a + x.stage2 (if ppKind d = 0 || ppKind d = 1 then 0 else 1) y k) 0, xs.length)

/-- The rows of a frame for the flicker estimates: sum, count, arrival (R367). -/
def PpX.flickRows (x : PpX) : List (Nat × Nat × Nat) :=
  (List.range x.img.length).map fun y => let g := x.greenRow y; (g.1, g.2, (nth x.img y (0, [])).1)

/-- Steps of the fixed-point numbers in which the estimates are formed. -/
def fxOne : Nat := 2 ^ 64
/-- 2π. -/
def fxTau : Nat := 115904311329233965478
def fxMul (a b : Int) : Int := a * b / (fxOne : Int)
/-- The sum of a Taylor series in z²: term, next index, terms left. -/
def fxSeries (z2 : Int) : Int → Nat → Nat → Int
  | _, _, 0 => 0
  | t, k, n + 1 => t + fxSeries z2 (-(fxMul t z2 / ((k + 1) * (k + 2) : Nat))) (k + 2) n
/-- cos and sin of 2π times f × t ÷ 10⁹, for f in Hz and t in ns. -/
def fxCis (f t : Nat) : Int × Int :=
  let z : Int := (fxTau * (f * t % 10 ^ 9) / 10 ^ 9 : Nat)
  let z2 := fxMul z z
  (fxSeries z2 fxOne 0 40, fxSeries z2 z 1 40)

/-- A_f of rows: 2 × |Σ (S_y − m) × e^(−i2πf t_y)| ÷ (n × m) in units of 1 ÷ 65,536, saturating (R367); the last unit is rounded as no rule
says. -/
def flicker (rows : List (Nat × Nat × Nat)) (f : Nat) : Nat :=
  let s := rows.map fun r => (r.1 * fxOne / max r.2.1 1 : Nat)
  let n := rows.length
  let sum := s.foldl (· + ·) 0
  if n = 0 || sum = 0 then 0
  else
    let m := sum / n
    let z := (s.zip rows).foldl (fun (a : Int × Int) e =>
      let c := fxCis f e.2.2.2
      (a.1 + fxMul ((e.1 : Int) - m) c.1, a.2 - fxMul ((e.1 : Int) - m) c.2)) (0, 0)
    min 65535 (divOpen 12 (2 * Nat.sqrt (z.1.natAbs ^ 2 + z.2.natAbs ^ 2) * 65536) sum)

/-- The frequencies of the LED grid: 130 Hz to 20,000 Hz or 1 ÷ (2 × line time), without the multiples of 100 Hz and 120 Hz (R367). -/
def ledGrid (linePs : Nat) : List Nat :=
  let top := if linePs = 0 then 20000 else min 20000 (10 ^ 12 / (2 * linePs))
  (List.range (top + 1)).filter fun f => 130 ≤ f && f % 100 != 0 && f % 120 != 0

/-- The strongest A_f of the grid: frequency and value, the lowest of equals; 0 and 0 with no frequency. -/
def ledBest (rows : List (Nat × Nat × Nat)) (linePs : Nat) : Nat × Nat :=
  (ledGrid linePs).foldl (fun (b : Nat × Nat) f => let a := flicker rows f; if b.1 = 0 || b.2 < a then (f, a) else b) (0, 0)

end Sys2Proof.Machine
end

