-- ==== Sys2Proof/Machine/Vat.lean ====
section
/-! DEFINITION. The Vat's live frames and batch jobs, and the Cellar (R318–R349). -/
namespace Sys2Proof.Machine

/-- FP32 words at an offset. -/
def dws (d : List Byte) (off n : Nat) : List Word := (List.range n).map fun i => w32 (dn d (off + 4 * i) 4)

/-- Every 64 KiB unit of n bytes at a lies in a parcel that accepts the Vat's writes and that p accepts (R222, R320). -/
def State.ringLands (s : State) (v a n : Nat) (p : Nat → Bool) : Bool :=
  n = 0 || (a + n ≤ 0x10000000 && (List.range ((a + n - 1) / 0x10000 - a / 0x10000 + 1)).all fun i =>
    let u := (a / 0x10000 + i) * 0x10000
    match s.parcelAt u with
    | some x => p x && s.pclLanding x && s.pclCreditEn x && s.rowAllowed (vatIni v) u true
    | none => false)

/-! ### Writes with credits (R222, R223) -/

/-- Every parcel of a burst is a landing parcel with CREDIT_EN, which alone a Vat may write (R318, R222). -/
def State.burstLands (s : State) (a n : Nat) : Bool := (rowsOf a n).all fun r => match s.parcelAt r with
  | some p => s.pclLanding p && s.pclCreditEn p
  | none => false

/-- Write bursts while their parcels have credits; a refused write answers its fault code and drops the rest. -/
def State.vatDrain (s : State) (v : Nat) :
    List (Nat × List (Option Byte)) → State × List (Nat × List (Option Byte)) × Nat
  | [] => (s, [], 0)
  | (a, l) :: t =>
    let cs := s.creditsOf a l.length
    if !s.burstLands a l.length then (s.polderDeny (vatIni v) a true, [], fPARCEL_DENIED)
    else if (s.shortOf cs).isSome then (s, (a, l) :: t, 0)
    else
      let bytes := (List.range l.length).map fun i => (nth l i none).getD (s.byte (a + i))
      let (s, c) := (s.takeAll cs).polWrite (vatIni v) a bytes
      let s := s.creditsDone (vatIni v) a l.length cs
      if c = 0 then s.vatDrain v t else (s, [], c)

/-- A fault of a Vat is recorded; an uncorrectable one is suspected (R555, R560). -/
def State.vatFault (s : State) (v q code addr : Nat) : State :=
  s.recordFault code (uVat v) (vatIni v) q 0 addr 0 0 (if faultClass code = 2 then oPending else oNone)

/-! ### Live frames (R320–R325) -/

/-- The first field of a live descriptor that breaks R320, by its offset. -/
def State.liveBad (s : State) (v : Nat) (d : List Byte) : Option Nat :=
  let g := dn d
  let planes := g 0x10 1 % 16
  let sfmt := g 0x10 1 / 16
  let w := g 0x0C 2
  let h := g 0x0E 2
  let kx := g 0x24 1 % 16
  let ky := g 0x24 1 / 16
  let fmt := g 0x25 1
  let no := g 0x3C 1 % 16 + 1
  let rm := g 0x3C 2 / 16
  let all := fun _ : Nat => true
  ([ (0x00, dn d 6 2 != 0),
    (0x08, g 8 4 % 1024 != 0),
    (0x0C, w = 0 || 16384 < w || h = 0 || 16384 < h),
    (0x10, planes = 0 || 4 < planes || !(sfmt = 1 || sfmt = 8) || 16 ≤ g 0x11 1),
    (0x18, g 0x18 2 % 1024 != 0 || g 0x1E 2 != 0),
    (0x24, kx = 0 || 8 < kx || ky = 0 || 8 < ky || w % kx != 0 || h % ky != 0 || 9 < fmt || g 0x26 2 != 0),
    (0x28, g 0x2E 2 != 0 || !s.ringLands v (g 0x28 6) (no * vatSize fmt planes (w / kx) (h / ky)) all),
    (0x30, g 0x36 2 != 0 || !s.ringLands v (g 0x30 6) (no * rm * vatSize fmt planes (g 0x38 2) (g 0x3A 2)) all),
    (0x38, g 0x38 2 = 0 || 1024 < g 0x38 2 || g 0x3A 2 = 0 || 1024 < g 0x3A 2),
    (0x3C, 1024 ≤ g 0x3C 4 || 32 < rm),
    (0x40, g 0x46 2 != 0 || !s.ringLands v (g 0x40 6) (no * 64) all),
    (0x68, dn d 0x68 24 != 0) ].find? (·.2)).map (·.1)

/-- Read a descriptor of 128 bytes from LPDDR4X. -/
def State.vatDesc (s : State) (v a : Nat) : State × Option (List Byte) :=
  if regionOf s.part a = .lpddr && regionOf s.part (a + 127) = .lpddr then
    let (s, r, l) := s.extRead (vatIni v) 0xFFFF false a 128
    (s, if r = .ok then some l else none)
  else (s, none)

/-- Turn the live stream on with the descriptor at the address, or refuse it: the offset of the first bad field. -/
def State.liveOn (s : State) (v a : Nat) : State × Option Nat :=
  let (s, d) := s.vatDesc v a
  match d with
  | none => (s, some 0)
  | some d => match s.liveBad v d with
    | some o => (s, some o)
    | none =>
      let x := s.vat v
      let s := s.setVat v { x with live := { x.live with desc := d, next := 0, roiV := none, snap := none } }
      let s := (s.wr (uVat v) 0x108 (w32 (a % 2 ^ 32 + 1))).wr (uVat v) 0x10C (w32 (a / 2 ^ 32 % 2 ^ 16))
      (s.vatSync v, none)

/-- Turn it off: a frame being made runs to its end. -/
def State.liveOff (s : State) (v : Nat) : State := (s.setFlag (uVat v) 0x108 0 false).vatSync v

/-- A write to LIVE_DESC_LO (R320, R349). -/
def State.liveWrite (s : State) (ini v : Nat) (w : Word) : State :=
  s.guarded ini (uVat v) 0x108 w false fun s =>
    let a := regAddr (uVat v) 0x108
    let on := s.flag (uVat v) 0x108 0
    if !bit w 0 then (s.wr (uVat v) 0x108 w).liveOff v
    else if on then s.accError ini a .check
    else
      let (t, bad) := s.liveOn v (w.toNat / 64 * 64 + 2 ^ 32 * s.fld (uVat v) 0x10C 15 0)
      if bad.isNone then t else t.accError ini a .check

def execLiveEnableWrite (ini v value : Nat) (s : State) : Out := .next (s.liveWrite ini (v % 2) (w32 value))

/-- Read rows of one size; the first fault code stops. -/
def State.vatRows (s : State) (v n : Nat) : List Nat → State × Nat × List (List Byte)
  | [] => (s, 0, [])
  | a :: t =>
    let (s, c, l) := s.polRead (vatIni v) a n
    if c != 0 then (s, c, [])
    else
      let (s, c, r) := s.vatRows v n t
      (s, c, l :: r)

/-- The ROI snapshot of a frame (R322): the state, a fault, the table (none: no ROIs), flags DEFAULT, STALE, TORN. -/
def State.roiSnap (s : State) (v : Nat) : State × Nat × Option (List Byte) × Nat :=
  let x := s.vat v
  let d := x.live.desc
  let m := s.mark (dn d 0x20 2)
  let keep := fun (s : State) (snap : Option (List Byte)) =>
    s.setVat v { s.vat v with live := { (s.vat v).live with roiV := some m, snap := snap } }
  if m = 0 then (keep s x.live.snap, 0, none, 1)
  else if x.live.roiV = some m then
    ((keep s x.live.snap).countF (uVat v) 0x13C 15 0 1, 0, x.live.snap, if x.live.snap.isNone then 3 else 2)
  else
    let (s, c, t) := s.polRead (vatIni v) (dn d 0x18 6 + (m - 1) % 2 * 1024) 1024
    if c != 0 then (s, c, none, 0)
    else if dn t 0 4 = (m - 1) % 2 ^ 32 && dn t 0x3FC 4 = dn t 0 4 then (keep s (some t), 0, some t, 0)
    else ((keep s x.live.snap).countF (uVat v) 0x13C 31 16 1, 0, x.live.snap, if x.live.snap.isNone then 5 else 4)

/-- The tensor of ROI i of a table, when it is written: its bytes and clips (R324, R326–R328). -/
def roiTensor (d t : List Byte) (i : Nat) (src : Nat → Nat → Nat → Word) : Option (List (Option Byte) × Nat) :=
  let g := dn d
  let o := 0x10 + 16 * i
  let w := dn t (o + 4) 2
  let h := dn t (o + 6) 2
  let area := if dn t (o + 8) 1 % 2 = 1 then areaFactors w h (g 0x38 2) (g 0x3A 2) else none
  if w = 0 || h = 0 || (dn t (o + 8) 1 % 2 = 1 && area.isNone) then none
  else some (tensorOf (g 0x25 1) (g 0x10 1 % 16) (g 0x38 2) (g 0x3A 2) fun c y x =>
    let px := fun yy xx => src c (min (dn t (o + 2) 2 + yy) (g 0x0E 2 - 1)) (min (dn t o 2 + xx) (g 0x0C 2 - 1))
    normalise (nth (dws d 0x48 4) c 0) (nth (dws d 0x58 4) c 0) (resampleAt px area w h (g 0x38 2) (g 0x3A 2) y x))

/-- What a frame writes (R324, R325): its bursts, and its clips. -/
def State.liveBursts (s : State) (d : List Byte) (n skipped : Nat) (roi : Option (List Byte)) (flags : Nat)
    (src : Nat → Nat → Nat → Word) : List (Nat × List (Option Byte)) × Nat :=
  let g := dn d
  let fmt := g 0x25 1
  let planes := g 0x10 1 % 16
  let kx := g 0x24 1 % 16
  let ky := g 0x24 1 / 16
  let o := n % (g 0x3C 1 % 16 + 1)
  let rm := g 0x3C 2 / 16
  let bw := g 0x0C 2 / kx
  let bh := g 0x0E 2 / ky
  let base := tensorOf fmt planes bw bh fun c y x =>
    normalise (nth (dws d 0x48 4) c 0) (nth (dws d 0x58 4) c 0) (areaAt (src c) kx ky y x)
  let rois := match roi with
    | none => []
    | some t => (List.range (min (dn t 4 1 % 64) rm)).filterMap fun i => (roiTensor d t i src).map fun r => (i, r)
  let done := rois.foldl (fun a r => a + 2 ^ r.1) 0
  let seq := match roi with | some t => dn t 0 4 | none => 0xFFFFFFFF
  let rec_ := natBytes 4 n ++ natBytes 4 seq ++ natBytes 4 done ++ natBytes 4 (flags + 2 ^ 8 * min skipped 255) ++
    natBytes 4 s.gaugeNs ++ natBytes 4 (s.gaugeS % 2 ^ 32) ++ natBytes 40 0
  (cutBursts (g 0x28 6 + o * vatSize fmt planes bw bh) base.1 ++
    (rois.flatMap fun r => cutBursts (g 0x30 6 + (o * rm + r.1) * vatSize fmt planes (g 0x38 2) (g 0x3A 2)) r.2.1) ++
    cutBursts (g 0x40 6 + o * 64) (rec_.map some), base.2 + rois.foldl (fun a r => a + r.2.2) 0)

/-- Write what credits allow of the frame being made; a fault drops the rest of it. -/
def State.liveDrain (s : State) (v : Nat) : State :=
  let x := s.vat v
  let (s, wq, c) := s.vatDrain v x.live.wq
  let s := s.setVat v { s.vat v with live := { (s.vat v).live with wq := wq, bad := x.live.bad || c != 0 } }
  if c = 0 then s else s.vatFault v noQueue c 0

/-- Take the newest complete frame (R321): skip older ones, return their credits, read it, take the snapshot, make what
it writes. -/
def State.liveTake (s : State) (v : Nat) : State :=
  let x := s.vat v
  let d := x.live.desc
  let g := dn d
  let m := s.mark (g 0x14 2)
  let dist := (m + 2 ^ 32 - x.live.next % 2 ^ 32) % 2 ^ 32
  if !s.flag (uVat v) 0x108 0 || x.live.frame.isSome || s.ustate (uVat v) != 0 || m = 0 || dist = 0 || 2 ^ 31 ≤ dist then s
  else
    let n := x.live.next + dist - 1
    let skipped := dist - 1
    let s := s.count (uVat v) 0x138 skipped
    let planes := g 0x10 1 % 16
    let sfmt := g 0x10 1 / 16
    let esz := if sfmt = 8 then 2 else 1
    let base := g 0 6 + n % (g 0x11 1 % 16 + 1) * g 8 4
    let s := s.setVat v { x with live := { x.live with next := n + 1, frame := some n, wq := [], bad := false } }
    let (s, c, roi, flags) := s.roiSnap v
    let (s, c, rows) := if c != 0 then (s, c, []) else
      s.vatRows v (g 0x0C 2 * esz) ((List.range (planes * g 0x0E 2)).map fun k => base + k * g 0x12 2)
    let back := g 8 4 / 1024 * (skipped + 1)
    let s := if g 0x16 2 = 0xFFFF then s else s.addMark (g 0x16 2) back
    if c != 0 then
      ((s.setVat v { s.vat v with live := { (s.vat v).live with bad := true } }).vatFault v noQueue c 0).vatSync v
    else
      let px := rows.map fun r => (codesOf sfmt (g 0x0C 2) r).map fun k => f32Enc (codeFlt sfmt 0 k)
      let (wq, clips) := s.liveBursts d n skipped roi flags fun p y xx => nth (nth px (p * g 0x0E 2 + y) []) xx 0
      let s := s.count (uVat v) 0x14C clips
      ((s.setVat v { s.vat v with live := { (s.vat v).live with wq := wq } }).liveDrain v).vatSync v

def execLiveFrameTake (v : Nat) (s : State) : Out := .next (s.liveTake (v % 2))

/-- Every write of the frame is acknowledged (R324): OUT_MARK counts it; hs handshakes, waits excluded. -/
def State.liveDone (s : State) (v hs : Nat) : State :=
  if (s.vat v).live.frame.isNone then s
  else
    let s := s.liveDrain v
    let x := s.vat v
    if !x.live.wq.isEmpty then s.vatSync v
    else
      let s := s.setVat v { x with live := { x.live with frame := none, bad := false } }
      let s := if x.live.bad then s
        else
          let s := ((s.markAfter (vatIni v) 0 0x10000000 (dn x.live.desc 0x22 2) true 1).count (uVat v) 0x134 1).wr (uVat v) 0x164 (w32 (cap32 hs))
          s.maxTo (uVat v) 0x168 (cap32 hs)
      s.vatSync v

def execLiveFrameDone (v hs : Nat) (s : State) : Out := .next (s.liveDone (v % 2) hs)

/-! ### The Cellar (R343, R344) -/

def State.cellarBase (s : State) (v : Nat) : Nat :=
  s.fld (uVat v) 0x11C 31 16 * 2 ^ 16 + 2 ^ 32 * s.fld (uVat v) 0x120 15 0
def State.cellarSize (s : State) (v : Nat) : Nat := (s.fld (uVat v) 0x124 31 24 + 1) * 0x10000
def State.cellarSlots (s : State) (v : Nat) : Nat := s.fld (uVat v) 0x124 23 0
/-- Samples are cached. -/
def State.cellarOn (s : State) (v : Nat) : Bool := s.flag (uVat v) 0x104 0 && 5 ≤ s.cellarSlots v
/-- Where slot i begins. -/
def State.cellarAt (s : State) (v i : Nat) : Nat := s.cellarBase v + i * s.cellarSize v
/-- The cache slot of a sample. -/
def State.cellarSlot (s : State) (v sample : Nat) : Nat := s.cellarAt v (4 + sample % (s.cellarSlots v - 4))

/-- The region lies in the reachable LPDDR4X. -/
def cellarFits (p : Part) (base size slots : Nat) : Bool :=
  slots = 0 || (0x100000000 ≤ base && base + size * slots ≤ 0x100000000 + reachable p)

/-- Write bytes to LPDDR4X for a Vat, page by page; a refused page is not written. -/
def State.cellarWrite (s : State) (v a : Nat) : Nat → List Byte → State
  | 0, _ => s
  | f + 1, l =>
    if l.isEmpty then s
    else
      let k := min l.length (4096 - a % 4096)
      ((s.extWrite (vatIni v) 0xFFFF false a (l.take k)).1).cellarWrite v (a + k) f (l.drop k)

/-- Read bytes of LPDDR4X for a Vat. -/
def State.cellarRead (s : State) (v a : Nat) : Nat → Nat → State × Option (List Byte)
  | 0, _ => (s, some [])
  | _ + 1, 0 => (s, some [])
  | f + 1, n =>
    let k := min n (4096 - a % 4096)
    let (s, r, l) := s.extRead (vatIni v) 0xFFFF false a k
    if r = .ok then
      let (s, t) := s.cellarRead v (a + k) f (n - k)
      (s, t.map (l ++ ·))
    else (s, none)

/-- Cache a decoded sample; the header is written last (R343). -/
def State.cellarStore (s : State) (v dataset sample : Nat) (d : Decoded) (host : Bool) : State :=
  if !s.cellarOn v then s
  else
    let a := s.cellarSlot v sample
    let raw := d.img.raw
    let s := s.cellarWrite v (a + 32) (pagesFor raw.length) raw
    s.cellarWrite v a 2 (natBytes 4 dataset ++ natBytes 4 sample ++ natBytes 4 raw.length ++ natBytes 4 d.du ++
      natBytes 4 (1 + 2 * b2n host) ++ natBytes 4 (crc32 raw) ++ natBytes 8 0)

/-- What a draw finds in the Cellar (R344): nothing, for it is off; no entry; one whose CRC differs; a sample, and whether host
software decoded it. -/
inductive Draw where
  | off
  | miss
  | bad
  | hit (d : Decoded) (host : Bool)

/-- A draw that is made counts as a hit or a miss, and a CRC mismatch (R344, R349). -/
def State.drawCount (s : State) (v : Nat) : Draw → State
  | .off => s
  | .miss => s.count (uVat v) 0x12C 1
  | .bad => (s.countF (uVat v) 0x130 15 0 1).count (uVat v) 0x12C 1
  | .hit _ _ => s.count (uVat v) 0x128 1

/-- Look a draw up (R344). -/
def State.cellarLookup (s : State) (v dataset sample : Nat) : State × Draw :=
  if !s.cellarOn v then (s, .off)
  else
    let a := s.cellarSlot v sample
    let (s, h) := s.cellarRead v a 2 32
    let miss := fun (s : State) => (s, Draw.miss)
    match h with
    | none => miss s
    | some h =>
      let host := dn h 0x10 1 / 2 % 2 = 1
      let len := dn h 8 4
      if dn h 0x10 1 % 2 = 0 || dn h 0 4 != dataset || dn h 4 4 != sample || (host && s.vatSb v) || s.cellarSize v < 32 + len then miss s
      else
        let (s, l) := s.cellarRead v (a + 32) (pagesFor len) len
        match l with
        | none => miss s
        | some l =>
          if crc32 l != dn h 0x14 4 then (s, .bad)
          else
            let d := decodeRaw l
            if d.cause = 0 then (s, .hit ⟨0, d.img, dn h 0xC 4⟩ host) else miss s

/-- Clear VALID of the entries that a dataset names; none: all (R345). -/
def State.cellarDrop (s : State) (v : Nat) (dataset : Option Nat) : State :=
  (List.range (s.cellarSlots v)).foldl (fun s i =>
    let a := s.cellarAt v i
    if s.rdN (a + 0x10) 4 % 2 = 1 && (match dataset with | some x => s.rdN a 4 = x | none => true) then
      s.wrN (a + 0x10) 4 (s.rdN (a + 0x10) 4 - 1) else s) s

/-! ### Reads of a job (R337) -/

/-- How a read of a job ended. -/
inductive VatRd where
  | data (l : List Byte)
  | stall (a : Nat)
  | refused

/-- Read n bytes from LPDDR4X or a host window for the job's client, page by page. -/
def State.jobRead (s : State) (v client a : Nat) : Nat → Nat → State × VatRd
  | 0, _ => (s, .data [])
  | _ + 1, 0 => (s, .data [])
  | f + 1, n =>
    let k := min n (4096 - a % 4096)
    let (s, r, l) := s.extRead (vatIni v) client false a k
    match r with
    | .ok =>
      match s.jobRead v client (a + k) f (n - k) with
      | (s, .data t) => (s, .data (l ++ t))
      | x => x
    | .xlate _ => (s, .stall a)
    | _ => (s, .refused)

def VJob.n (j : VJob) (off k : Nat) : Nat := dn j.desc off k
def VJob.client (j : VJob) : Nat := j.n 0x4A 2 % 4096
def VJob.queue (j : VJob) : Nat := j.n 0x4C 4 % 2 ^ 20
def VJob.length (j : VJob) : Nat := j.n 8 4
def VJob.batch (j : VJob) : Nat := j.n 0x28 2
def VJob.planes (j : VJob) : Nat := j.n 0x2A 1 % 16
def VJob.fmt (j : VJob) : Nat := j.n 0x2A 1 / 16
def VJob.ow (j : VJob) : Nat := j.n 0x2C 2
def VJob.oh (j : VJob) : Nat := j.n 0x2E 2
def VJob.ring (j : VJob) : Nat := j.n 0x3C 1 + 1
def VJob.manifest (j : VJob) : Nat := 64 * ceilDiv (576 + 16 * j.batch) 64

def State.setJob (s : State) (v : Nat) (f : VJob → VJob) : State :=
  let x := s.vat v
  s.setVat v { x with job := x.job.map f }

/-- The job ends: COMPLETION with the number of batches, or FAULT (R336). -/
def State.jobEnd (s : State) (v code addr : Nat) : State :=
  match (s.vat v).job with
  | none => s
  | some j =>
    let x := s.vat v
    let s := s.setVat v { x with job := none, decs := [] }
    let s := if code = 0 then s.post j.client 0x0001 (uVat v) j.queue 0 j.made 0
      else (s.vatFault v j.queue code addr).post j.client 0x0002 (uVat v) j.queue 0 code 0
    let s := (s.finish 0x0502 v (if code = 0 then OK else REFUSED)).finish 0x0503 v OK
    (s.sbBoundary (vatIni v)).vatSync v

/-- A missing translation stalls the job before the access (R337); culvert, channel and write flag are free (R254). -/
def State.jobStall (s : State) (v a : Nat) : State :=
  match (s.vat v).job with
  | none => s
  | some j =>
    let (w, s) := s.fresh
    let s := s.post j.client 0x0005 (uVat v) j.queue 0 a (a / 2 ^ 32 % 2 ^ 16 + w.toNat / 2 ^ 16 * 2 ^ 16)
    s.setJob v fun j => { j with stall := true }

/-! ### Drawing samples (R329, R333, R338, R344, R346) -/

/-- What decoding a sample's bytes comes to: CRC, format, size of a Cellar slot. -/
def State.sampleResult (s : State) (v : Nat) (entry l : List Byte) : Decoded :=
  if bit (nth entry 6 (0 : Byte)) 4 && crc32 l != dn entry 12 4 then .bad cCRC 0
  else
    let d := decodeSample (dn entry 6 1 % 16) l
    if d.cause = 0 && s.cellarSize v < 32 + d.img.raw.length then .bad cSIZE d.du else d

def State.addDec (s : State) (v : Nat) (d : VDec) : State :=
  let s := s.setJob v fun j => { j with next := j.next + 1 }
  s.setVat v { s.vat v with decs := (s.vat v).decs ++ [d] }

/-- The lowest decoder that holds no sample. -/
def State.freeDecoder (s : State) (v : Nat) : Option Nat := lowest 4 fun i => !(s.vat v).decs.any (·.src = i)

/-- A sample may be given to host software: the four decoders are busy, enough samples wait, and the host has room (R346). -/
def State.mayShare (s : State) (v : Nat) (j : VJob) : Bool :=
  s.flag (uVat v) 0x104 1 && !s.vatSb v && ((s.vat v).decs.filter fun d => d.src < 4 && !d.done).length = 4 && j.n 0x3E 1 % 64 + 1 ≤ j.length - j.next &&
    ((s.vat v).decs.filter fun d => d.src = 4 && !d.done).length < j.n 0x3F 1 % 64 + 1

/-- Give a sample to host software: an entry in the host ring, then the client's route (R346). The places of the fields in
the entry and the destination are free but for the phase (notes/assumptions/72.md). -/
def State.shareOut (s : State) (v : Nat) (j : VJob) (c : Draw) (pos sample : Nat) (entry aug : List Byte) : State :=
  let order := j.n 0x3D 1 % 16
  let i := j.hostN % 2 ^ order
  let phase := j.hostN / 2 ^ order % 2 = 0
  let (w0, s) := s.fresh
  let (w1, s) := s.fresh
  let e := natBytes 4 pos ++ natBytes 4 sample ++ entry ++ natBytes 4 w0.toNat ++ natBytes 4 (w1.toNat % 2 ^ 31 + 2 ^ 31 * b2n phase)
  let a := j.n 0x70 6 + 32 * i
  let (s, r) := s.extWrite (vatIni v) j.client false a e
  match r with
  | .ok =>
    let s := (s.drawCount v c).setJob v fun j => { j with hostN := j.hostN + 1 }
    (s.addDec v ⟨pos, sample, aug, 4, ⟨0, .none, 0⟩, true, false, false⟩).signalRoute j.client
  | .xlate _ => s.jobStall v a
  | _ => s.jobEnd v fVAT_JOB_INVALID a

/-- Draw the next order position: its index, table entry and record, then a hit, a decoder or host software. -/
def State.drawNext (s : State) (v : Nat) (j : VJob) : State :=
  let pos := j.next
  let oa := j.n 0 6 + 4 * pos
  match s.jobRead v j.client oa 2 4 with
  | (s, .stall a) => s.jobStall v a
  | (s, .refused) => s.jobEnd v fVAT_JOB_INVALID oa
  | (s, .data o) =>
    let sample := bytesNat o
    let ea := j.n 0x10 6 + 16 * sample
    let aa := j.n 0x20 6 + 32 * pos
    if j.n 0x18 4 ≤ sample then s.jobEnd v fVAT_JOB_INVALID oa
    else match s.jobRead v j.client ea 2 16 with
      | (s, .stall a) => s.jobStall v a
      | (s, .refused) => s.jobEnd v fVAT_JOB_INVALID ea
      | (s, .data entry) => match s.jobRead v j.client aa 2 32 with
        | (s, .stall a) => s.jobStall v a
        | (s, .refused) => s.jobEnd v fVAT_JOB_INVALID aa
        | (s, .data aug) =>
          match s.cellarLookup v (j.n 0x1C 4) sample with
          | (s, .hit d host) => (s.drawCount v (.hit d host)).addDec v ⟨pos, sample, aug, 5, d, host, true, false⟩
          | (s, c) => match s.freeDecoder v with
            | none => s.shareOut v j c pos sample entry aug
            | some i =>
              let n := dn entry 8 4
              match s.jobRead v j.client (dn entry 0 6) (pagesFor n) n with
              | (s, .stall a) => s.jobStall v a
              | (s, .refused) => (s.drawCount v c).addDec v ⟨pos, sample, aug, i, .bad cFETCH 0, false, false, false⟩
              | (s, .data l) => (s.drawCount v c).addDec v ⟨pos, sample, aug, i, s.sampleResult v entry l, false, false, false⟩

/-- The next order position may be drawn. -/
def State.mayDraw (s : State) (v : Nat) (j : VJob) : Bool :=
  !j.stall && j.next < j.length && ((s.vat v).decs.filter (·.src = 5)).length < 4 &&
    ((s.freeDecoder v).isSome || s.mayShare v j)

/-! ### Filling slots (R335, R338–R342) -/

/-- A sample takes no slot: a skip record, after the slots of a full batch that of the next one. -/
def State.skip (s : State) (v pos cause : Nat) : State :=
  let s := if cause = cDEFERRED then s.count (uVat v) 0x144 1
    else if cause = cTIMEOUT then s.countF (uVat v) 0x140 31 16 1 else s.countF (uVat v) 0x140 15 0 1
  s.setJob v fun j =>
    if j.slots.length < j.batch then { j with skips := j.skips ++ [(pos, cause)] } else { j with later := j.later ++ [(pos, cause)] }

def State.dropDec (s : State) (v pos : Nat) : State :=
  s.setVat v { s.vat v with decs := (s.vat v).decs.filter (·.pos != pos) }

/-- A decoded sample fills the next slot: its tensor, the Cellar, the median in same-bits mode. -/
def State.fillSlot (s : State) (v : Nat) (j : VJob) (d : VDec) : State :=
  let a := augOf d.aug
  if !augClean d.aug || a.bad d.res.img j.planes j.ow j.oh then s.jobEnd v fAUG_INVALID 0
  else
    let (l, clips) := augTensor d.res.img a j.fmt j.ow j.oh (dws j.desc 0x50 4) (dws j.desc 0x60 4)
    let s := s.count (uVat v) 0x14C clips
    let s := if d.src = 5 then s else s.cellarStore v (j.n 0x1C 4) d.sample d.res d.host
    let s := if s.vatSb v then s.vatCount v d.res.du else s
    let at_ := j.n 0x30 6 + j.k % j.ring * j.n 0x38 4 + j.slots.length * vatSize j.fmt j.planes j.ow j.oh
    let s := s.setJob v fun j => { j with
      slots := j.slots ++ [⟨d.pos, d.sample, d.deferred, d.host, if d.host then 0 else d.res.du⟩]
      wq := j.wq ++ cutBursts at_ l
      due := if d.deferred then j.due else j.due + 1
      full := if d.deferred then j.due else j.due + 1 }
    s.dropDec v d.pos

/-- The manifest of a batch (R342). -/
def manifestBytes (j : VJob) (sb : Bool) (nextPos : Nat) (skips : List (Nat × Nat)) (last : Bool) : List Byte :=
  let short := j.slots.length < j.batch
  let flags := b2n sb + 2 * b2n last + 4 * b2n (last && short) + 8 * b2n (skips.any (·.2 != cDEFERRED)) +
    16 * b2n ((skips.any (·.2 = cDEFERRED)) || j.slots.any (·.defIn)) + 32 * b2n (j.slots.any (·.host)) +
    64 * b2n (64 < skips.length) + 2 ^ 8 * min skips.length 255
  let head := natBytes 4 0x31464D56 ++ natBytes 4 (j.n 0x1C 4) ++ natBytes 4 (j.n 0xC 4) ++ natBytes 4 j.k ++
    natBytes 4 (j.slots.length + 2 ^ 16 * j.batch) ++ natBytes 4 j.first ++ natBytes 4 nextPos ++ natBytes 4 flags ++ natBytes 32 0
  let recs := j.slots.flatMap fun x => natBytes 4 x.pos ++ natBytes 4 x.sample ++ natBytes 4 (b2n x.defIn + 2 * b2n x.host) ++ natBytes 4 x.du
  let sk := (skips.take 64).flatMap fun x => natBytes 4 x.1 ++ natBytes 4 x.2
  let body := head ++ recs ++ natBytes (16 * (j.batch - j.slots.length)) 0 ++ sk
  body ++ natBytes (j.manifest - body.length) 0

/-- A batch has its samples: its manifest is written after them. -/
def State.closeBatch (s : State) (v : Nat) (j : VJob) (last : Bool) : State :=
  let skips := if last then j.skips ++ j.later else j.skips
  let next := if last then j.due else j.full
  let m := manifestBytes j (s.vatSb v) next skips last
  s.setJob v fun x => { x with
    closed := true
    last := last
    full := next
    wq := x.wq ++ cutBursts (j.n 0x40 6 + j.k % j.ring * j.manifest) (m.map some) }

/-- The cause of R333 with which a sample that has ended is judged in its turn: in same-bits mode its decode units reach H, which
stops the decoder before what it would meet later (R341; for a sample that is malformed they are those up to there, notes/assumptions/212.md).
A Cellar hit is judged by the decode units stored with its entry, so that it changes timing only (R344). -/
def State.judgeDec (s : State) (v : Nat) (d : VDec) : Nat :=
  if s.vatSb v && d.src != 4 && d.res.du != 0 && s.vatHard v ≤ d.res.du then cTIMEOUT else d.res.cause

/-- One step of the job that needs nothing from outside, when there is one. -/
def State.jobStep (s : State) (v : Nat) : Option State :=
  match (s.vat v).job with
  | none => none
  | some j =>
    let decs := (s.vat v).decs
    if s.mayDraw v j then some (s.drawNext v j)
    else if j.closed then none
    else match decs.find? fun d => d.done && (d.deferred || d.pos = j.due) with
      | some d =>
        let c := s.judgeDec v d
        if c != 0 then
          let s := (s.skip v d.pos c).dropDec v d.pos
          some (if d.deferred then s else s.setJob v fun j => { j with due := j.due + 1 })
        else if j.slots.length = j.batch then some (s.closeBatch v j false)
        else some (s.fillSlot v j d)
      | none =>
        if j.due = j.length && decs.isEmpty then
          some (if j.slots.isEmpty then s.jobEnd v 0 0 else s.closeBatch v j true)
        else none

/-- Go on as far as possible (fuel bounds the steps). -/
def State.jobRun (s : State) (v : Nat) : Nat → State
  | 0 => s
  | f + 1 => match s.jobStep v with
    | none => s
    | some t => t.jobRun v f

/-- Write what credits allow of the batch; a refused write ends the job. -/
def State.jobDrain (s : State) (v : Nat) : State :=
  match (s.vat v).job with
  | none => s
  | some j =>
    let (s, wq, c) := s.vatDrain v j.wq
    let s := s.setJob v fun j => { j with wq := wq }
    if c = 0 then s else s.jobEnd v c 0

/-- The job goes on. -/
def State.jobGo (s : State) (v : Nat) : State :=
  match (s.vat v).job with
  | none => s.vatSync v
  | some j => ((s.jobRun v (4 * (j.length + 2))).jobDrain v).vatSync v

/-! ### Starting and controlling a job (R334, R337, R349) -/

/-- The first field of a job descriptor that is refused, by its offset (R334, R343). -/
def State.jobBad (s : State) (v : Nat) (d : List Byte) : Option Nat :=
  let g := dn d
  let j : VJob := ⟨d, 0, 0, 0, 0, 0, 0, [], [], [], [], false, false, false, false, 0⟩
  let mine := fun p : Nat => s.pclQueue p = j.queue
  ([ (0x00, g 6 2 != 0),
    (0x08, g 8 4 = 0),
    (0x10, g 0x16 2 != 0),
    (0x20, g 0x26 2 != 0),
    (0x28, j.batch = 0 || 1024 < j.batch || j.planes = 0 || 4 < j.planes || 9 < j.fmt || g 0x2B 1 != 0),
    (0x2C, j.ow = 0 || 4096 < j.ow || j.oh = 0 || 4096 < j.oh),
    (0x30, g 0x36 2 != 0 || !s.ringLands v (g 0x30 6) (j.ring * g 0x38 4) mine),
    (0x38, g 0x38 4 % 1024 != 0 || g 0x38 4 < j.batch * vatSize j.fmt j.planes j.ow j.oh),
    (0x3C, 64 ≤ g 0x3C 1 || 16 ≤ g 0x3D 1 || g 0x3D 1 < 4 || 12 < g 0x3D 1 || 64 ≤ g 0x3E 1 || 64 ≤ g 0x3F 1),
    (0x40, g 0x46 2 != 0 || !s.ringLands v (g 0x40 6) (j.ring * j.manifest) mine),
    (0x48, 4096 ≤ g 0x4A 2),
    (0x4C, 2 ^ 20 ≤ g 0x4C 4),
    (0x70, g 0x76 2 != 0),
    (0x7C, j.length < g 0x7C 4) ].find? (·.2)).map (·.1)

/-- Start a batch job: the offset of the first bad field, or none. -/
def State.jobStart (s : State) (v a : Nat) : State × Option Nat :=
  let (s, d) := s.vatDesc v a
  let bad := match d with
    | none => some 0
    | some d => if s.cellarSlots v < 4 then some 0x1C else s.jobBad v d
  match bad, d with
  | none, some d =>
    let p := dn d 0x7C 4
    let j : VJob := ⟨d, p, p, dn d 0x78 4, 0, p, p, [], [], [], [], false, false, false, false, 0⟩
    let s := s.setVat v { s.vat v with job := some j, decs := [], meds := [] }
    ((s.wr (uVat v) 0x110 (w32 (a % 2 ^ 32))).wr (uVat v) 0x114 (w32 (a / 2 ^ 32 % 2 ^ 16)), none)
  | some o, some d =>
    let c := dn d 0x4A 2 % 4096
    let q := dn d 0x4C 4 % 2 ^ 20
    ((s.vatFault v q fVAT_JOB_INVALID a).post c 0x0002 (uVat v) q 0 fVAT_JOB_INVALID 0, some o)
  | _, _ => (s.vatFault v noQueue fVAT_JOB_INVALID a, some 0)

/-- Stop at the next batch boundary: true when the job stops at once. -/
def State.jobStop (s : State) (v : Nat) : State := (s.setJob v fun j => { j with stopping := true }).vatSync v
/-- End the job at once; batches already made stand. -/
def State.jobAbort (s : State) (v : Nat) : State := s.jobEnd v 0 0
/-- Go on after a stall: the access is tried again. -/
def State.jobResume (s : State) (v : Nat) : State := (s.setJob v fun j => { j with stall := false }).jobGo v
def State.jobOn (s : State) (v : Nat) : Bool := (s.vat v).job.isSome
def State.jobStalled (s : State) (v : Nat) : Bool := match (s.vat v).job with | some j => j.stall | none => false

/-- A write to JOB_CTL (R349). -/
def State.jobCtl (s : State) (ini v action : Nat) : State :=
  s.guarded ini (uVat v) 0x118 (w32 action) false fun s =>
    let a := regAddr (uVat v) 0x118
    match action with
    | 1 =>
      if s.jobOn v || s.ustate (uVat v) != 0 then s.accError ini a .check
      else
        let (s, bad) := s.jobStart v (s.fld (uVat v) 0x110 31 6 * 64 + 2 ^ 32 * s.fld (uVat v) 0x114 15 0)
        if bad.isNone then s.jobGo v else s
    | 2 => if s.jobOn v then s.jobStop v else s.accError ini a .check
    | 3 => if s.jobStalled v then s.jobResume v else s.accError ini a .check
    | 4 => if s.jobOn v then s.jobAbort v else s.accError ini a .check
    | _ => s.accError ini a .range

def execJobCtlStart (ini v : Nat) (s : State) : Out := .next (s.jobCtl ini (v % 2) 1)
def execJobCtlStop (ini v : Nat) (s : State) : Out := .next (s.jobCtl ini (v % 2) 2)
def execJobCtlResume (ini v : Nat) (s : State) : Out := .next (s.jobCtl ini (v % 2) 3)
def execJobCtlAbort (ini v : Nat) (s : State) : Out := .next (s.jobCtl ini (v % 2) 4)

/-! ### Decodes end (R339–R341, R346) -/

def State.updDec (s : State) (v : Nat) (p : VDec → Bool) (f : VDec → VDec) : State :=
  s.setVat v { s.vat v with decs := updFirst p f (s.vat v).decs }

/-- A decode that took ns nanoseconds ends; past H outside same-bits mode it is corrupt (R340). -/
def State.decodeEnd (s : State) (v : Nat) (d : VDec) (ns : Nat) (res : Decoded) : State :=
  let sb := s.vatSb v
  let res := if !sb && s.vatHard v ≤ ns then Decoded.bad cTIMEOUT res.du else res
  let s := s.updDec v (·.pos = d.pos) fun d => { d with done := true, res := res }
  let s := if res.cause = 0 && d.src < 4 then s.cellarWrite v (s.cellarAt v d.src + 32) (pagesFor res.img.raw.length) res.img.raw else s
  (if res.cause = 0 && !sb then s.vatCount v ns else s).jobGo v

/-- Decoder i finishes its sample. -/
def State.decodeDone (s : State) (v i ns : Nat) : State :=
  match (s.vat v).decs.find? fun d => d.src = i && !d.done with
  | none => s
  | some d => s.decodeEnd v d ns d.res

def execSampleDecodeDone (v dec ns : Nat) (s : State) : Out := .next (s.decodeDone (v % 2) (dec % 4) ns)

/-- A decode passes T: the due sample is deferred, at most three at once (R340). -/
def State.decodeDefer (s : State) (v : Nat) : State :=
  match (s.vat v).job with
  | none => s
  | some j =>
    let decs := (s.vat v).decs
    if s.vatSb v || j.closed || 3 ≤ (decs.filter (·.deferred)).length ||
        !(decs.any fun d => d.pos = j.due && !d.done && !d.deferred) then s
    else
      let s := s.updDec v (·.pos = j.due) fun d => { d with deferred := true }
      ((s.skip v j.due cDEFERRED).setJob v fun j => { j with due := j.due + 1 }).jobGo v

def execDecodeDeferTimeout (v : Nat) (s : State) : Out := .next (s.decodeDefer (v % 2))

/-- A decode of an order position reaches H: the sample is corrupt. In same-bits mode H is that of its turn: only the decode of the
position that is due can have reached it (R340, R341). -/
def State.decodeHard (s : State) (v pos : Nat) : State :=
  match (s.vat v).decs.find? fun d => d.pos = pos && !d.done with
  | none => s
  | some d =>
    let due := match (s.vat v).job with | some j => j.due | none => 0
    if s.vatSb v && (pos != due || d.res.du < s.vatHard v) then s
    else (s.updDec v (·.pos = pos) fun d => { d with done := true, res := .bad cTIMEOUT d.res.du }).jobGo v

def execDecodeHardLimit (v pos : Nat) (s : State) : Out := .next (s.decodeHard (v % 2) pos)

/-- Host software writes DONE of a request after ns nanoseconds: 1 with the sample it decoded, 2 corrupt (R346). -/
def State.hostDone (s : State) (v pos done ns : Nat) (raw : List Byte) : State :=
  match (s.vat v).decs.find? fun d => d.src = 4 && d.pos = pos && !d.done with
  | none => s
  | some d =>
    if done = 1 then
      let r := decodeRaw raw
      let res := if r.cause != 0 then Decoded.bad cHOST 0
        else if s.cellarSize v < 32 + r.img.raw.length then Decoded.bad cSIZE 0 else ⟨0, r.img, 0⟩
      (s.count (uVat v) 0x148 1).decodeEnd v d ns res
    else if done = 2 then s.decodeEnd v d ns (.bad cHOST 0)
    else s

def execHostDecodeDone (v pos done ns : Nat) (raw : List Byte) (s : State) : Out :=
  .next (s.hostDone (v % 2) pos done ns raw)

/-- Every write of a batch and its manifest is acknowledged (R336): the mark, then the next batch, or the end. -/
def State.batchDone (s : State) (v : Nat) : State :=
  let s := s.jobDrain v
  match (s.vat v).job with
  | none => s.vatSync v
  | some j =>
    if !j.closed || !j.wq.isEmpty then s.vatSync v
    else
      let s := (s.markAfter (vatIni v) 0 0x10000000 (j.n 0x48 2) true 1).setJob v fun j => { j with made := j.made + 1 }
      if j.last || j.stopping then s.jobEnd v 0 0
      else
        let old := s.vatSb v
        let s := s.sbBoundary (vatIni v)
        let s := if s.vatSb v = old then s else s.setVat v { s.vat v with meds := [] }
        let s := s.setJob v fun j => { j with k := (j.k + 1) % 2 ^ 32, first := j.full, slots := [], skips := j.later, later := [], closed := false }
        s.jobGo v

def execBatchDone (v : Nat) (s : State) : Out := .next (s.batchDone (v % 2))

/-- A read has no response in FETCH_TIMEOUT (R337). -/
def execVatFetchTimeoutExpiry (v : Nat) (s : State) : Out :=
  .next (if s.jobStalled (v % 2) then s else s.jobEnd (v % 2) fVAT_FETCH_TIMEOUT 0)

/-! ### Registers (R346, R349) -/

/-- A write to a register of a Vat with checks or effects of its own; none: an ordinary register. -/
def State.vatWrite (s : State) (ini v off : Nat) (w : Word) : Option State :=
  let u := uVat v
  if off = 0x108 then some (s.liveWrite ini v w)
  else if off = 0x118 then some (if w.toNat < 8 then s.jobCtl ini v w.toNat else s.guarded ini u off w false id)
  else if off = 0x104 then some (s.guardedStore ini u off w fun s =>
    if bit w 1 && (s.part.grade1640 || s.sbEn || s.sbActive) then some .check else none)
  else if off = 0x10C then some (s.guardedStore ini u off w fun s => if s.flag u 0x108 0 then some .check else none)
  else if off = 0x114 then some (s.guardedStore ini u off w fun s => if s.jobOn v then some .check else none)
  else if off = 0x124 then some (s.guardedStore ini u off w fun s =>
    if s.jobOn v || !cellarFits s.part (s.cellarBase v) ((bits w 31 24 + 1) * 0x10000) (bits w 23 0) then some .check else none)
  else if off = 0x154 then some (s.guardedStore ini u off w fun _ => if bits w 31 16 ≤ bits w 15 0 then some .check else none)
  else if off = 0x158 || off = 0x15C then some ((s.guardedStore ini u off w fun _ => none).vatSync v)
  else none

/-! ### Service calls (R350) -/

def VAT_BUSY : Nat := 0x0160
def NO_SHARED : Nat := 0x0161

/-- The caller holds rights on the Vat, or is the client of its job (of the job that it starts): R350. -/
def State.vatMay (s : State) (ini v : Nat) (write : Bool) (client : Option Nat) : Bool :=
  s.fwAllows ini (regAddr (uVat v) 0) write || (client.isSome && s.clientOf ini = client)

/-- The client of a Vat's job. -/
def State.jobClient (s : State) (v : Nat) : Option Nat := (s.vat v).job.map VJob.client

/-- A call that changes a Vat given by its unit number, when the caller may. -/
def State.vatCallFor (s : State) (ini u : Nat) (client : Option Nat) (act : Nat → State → State) : State :=
  let v := u - 0x90
  if unitClass u != some .vat then s.ret RANGE
  else if !s.exists? u then s.ret NO_UNIT
  else if !s.vatMay ini v true client then s.ret DENIED
  else if s.claimed u then s.ret CLAIMED
  else act v s

/-- A call that changes a Vat, for the client of the job that runs. -/
def State.vatCall (s : State) (ini u : Nat) (act : Nat → State → State) : State :=
  s.vatCallFor ini u (s.jobClient (u - 0x90)) act

/-- A call that reads a Vat. -/
def State.vatRead (s : State) (ini u : Nat) (act : State → State) : State :=
  if unitClass u != some .vat then s.ret RANGE
  else if !s.exists? u then s.ret NO_UNIT
  else if !s.vatMay ini (u - 0x90) false (s.jobClient (u - 0x90)) then s.ret DENIED
  else act s

/-- 0x0500. -/
def callVatStatus (ini : Nat) (args : List Word) (s : State) : State :=
  s.vatRead ini (arg args 0) fun s => s.retRegs (arg args 0) [0x100, 0x150, 0x164]
def execReadVatStatus (ini : Nat) (args : List Word) (s : State) : Out := .next (callVatStatus ini args s)

/-- 0x0501: Vat, descriptor address, enable. -/
def callLive (ini : Nat) (args : List Word) (s : State) : State :=
  s.vatCall ini (arg args 0) fun v s =>
    if 1 < arg args 3 then s.ret RANGE [3]
    else if arg args 3 = 0 then (s.liveOff v).ret OK
    else if s.flag (uVat v) 0x108 0 then s.ret VAT_BUSY
    else if argAddr args 1 % 64 != 0 then s.ret RANGE [1]
    else match s.liveOn v (argAddr args 1) with
      | (s, none) => s.ret OK
      | (s, some o) => s.ret RANGE [w32 o]
def execSetLiveStream (ini : Nat) (args : List Word) (s : State) : Out := .next (callLive ini args s)

/-- 0x0502: Vat, descriptor address. The job's client is the one that its descriptor names. -/
def callJobStart (ini : Nat) (args : List Word) (s : State) : State :=
  let d := (s.vatDesc (arg args 0 - 0x90) (argAddr args 1)).2
  s.vatCallFor ini (arg args 0) (if s.jobOn (arg args 0 - 0x90) then s.jobClient (arg args 0 - 0x90) else d.map fun d => dn d 0x4A 2 % 4096)
    fun v s =>
    if s.jobOn v then s.ret VAT_BUSY
    else if argAddr args 1 % 64 != 0 then s.ret RANGE
    else if s.ustate (uVat v) != 0 then
      let (w, s) := s.fresh
      s.ret REFUSED [w]
    else match s.jobStart v (argAddr args 1) with
      | (s, none) => (s.retPending 0x0502 v).jobGo v
      | (s, some _) => s.ret RANGE
def execStartBatchJob (ini : Nat) (args : List Word) (s : State) : Out := .next (callJobStart ini args s)

/-- 0x0503: Vat, 0 STOP or 1 ABORT. -/
def callJobStop (ini : Nat) (args : List Word) (s : State) : State :=
  s.vatCall ini (arg args 0) fun v s =>
    if 1 < arg args 1 then s.ret RANGE
    else if !s.jobOn v then s.ret OK
    else if arg args 1 = 1 then (s.jobAbort v).ret OK
    else if s.callWaits 0x0503 v then s.ret UNIT_BUSY
    else (s.jobStop v).retPending 0x0503 v
def execStopOrAbortJob (ini : Nat) (args : List Word) (s : State) : Out := .next (callJobStop ini args s)

/-- 0x0504: Vat, 0 RESUME or 1 ABORT. -/
def callJobStall (ini : Nat) (args : List Word) (s : State) : State :=
  s.vatCall ini (arg args 0) fun v s =>
    if 1 < arg args 1 then s.ret RANGE
    else if !s.jobStalled v then s.ret NO_STALL
    else if arg args 1 = 1 then (s.jobAbort v).ret OK
    else (s.jobResume v).ret OK
def execResolveJobStall (ini : Nat) (args : List Word) (s : State) : Out := .next (callJobStall ini args s)

/-- 0x0505: Vat, base, SLOT_SIZE in bytes / 64 KiB, SLOTS, CELLAR_EN. -/
def callCellar (ini : Nat) (args : List Word) (s : State) : State :=
  s.vatCall ini (arg args 0) fun v s =>
    let base := argAddr args 1
    let size := arg args 3
    let slots := arg args 4
    if base % 0x10000 != 0 || size = 0 || 256 < size || 2 ^ 24 ≤ slots || 1 < arg args 5 || !cellarFits s.part base (size * 0x10000) slots then
      s.ret RANGE
    else if s.jobOn v then s.ret VAT_BUSY
    else
      let s := (s.wr (uVat v) 0x11C (w32 (base % 2 ^ 32))).wr (uVat v) 0x120 (w32 (base / 2 ^ 32 % 2 ^ 16))
      let s := (s.wr (uVat v) 0x124 (w32 ((size - 1) * 2 ^ 24 + slots))).setFlag (uVat v) 0x104 0 (arg args 5 = 1)
      ((s.retPending 0x0505 v).cellarDrop v none).finish 0x0505 v OK
def execConfigureCellar (ini : Nat) (args : List Word) (s : State) : Out := .next (callCellar ini args s)

/-- 0x0506: Vat, DATASET or 0xFFFFFFFF. -/
def callCellarDrop (ini : Nat) (args : List Word) (s : State) : State :=
  s.vatCall ini (arg args 0) fun v s =>
    ((s.retPending 0x0506 v).cellarDrop v (if arg args 1 = 0xFFFFFFFF then none else some (arg args 1))).finish 0x0506 v OK
def execInvalidateCellar (ini : Nat) (args : List Word) (s : State) : Out := .next (callCellarDrop ini args s)

/-- 0x0507: Vat, TIMEOUT_MULT, HARD_MULT, defaults in ns and decode units, FETCH_TIMEOUT. -/
def callSlowLimits (ini : Nat) (args : List Word) (s : State) : State :=
  s.vatCall ini (arg args 0) fun v s =>
    let n := arg args
    if n 1 < 2 || 1000 < n 2 || n 2 ≤ n 1 || n 3 = 0 || 10 ^ 9 < n 3 || n 4 = 0 || n 5 = 0 || 60000 < n 5 then s.ret RANGE
    else
      let s := ((s.wr (uVat v) 0x154 (w32 (n 2 * 2 ^ 16 + n 1))).wr (uVat v) 0x158 (w32 (n 3))).wr (uVat v) 0x15C (w32 (n 4))
      ((s.wr (uVat v) 0x160 (w32 (n 5))).vatSync v).ret OK
def execSetSlowDecodeLimits (ini : Nat) (args : List Word) (s : State) : Out := .next (callSlowLimits ini args s)

/-- 0x0508: Vat, SHARED_DEC. -/
def callShared (ini : Nat) (args : List Word) (s : State) : State :=
  s.vatCall ini (arg args 0) fun v s =>
    if 1 < arg args 1 then s.ret RANGE
    else if arg args 1 = 1 && (s.part.grade1640 || s.sbEn || s.sbActive) then s.ret NO_SHARED
    else (s.setFlag (uVat v) 0x104 1 (arg args 1 = 1)).ret OK
def execSetSharedDecode (ini : Nat) (args : List Word) (s : State) : Out := .next (callShared ini args s)

/-- 0x0509: a sample table entry in four words, destination: the decode units, or REFUSED with the cause. -/
def callRefDecode (ini : Nat) (args : List Word) (s : State) : State :=
  let entry := (args.take 4).flatMap fun w => natBytes 4 w.toNat
  let n := dn entry 8 4
  if args.length < 4 then s.ret RANGE
  else match s.callRead ini (dn entry 0 6) (pagesFor n) n with
    | (s, .xlate c, _) => s.ret XLATE_FAULT [w32 c]
    | (s, .ok, l) =>
      let d := if bit (nth entry 6 (0 : Byte)) 4 && crc32 l != dn entry 12 4 then Decoded.bad cCRC 0 else decodeSample (dn entry 6 1 % 16) l
      if d.cause != 0 then s.ret REFUSED [w32 d.cause]
      else
        let (s, r) := s.callWrite ini (argAddr args 4) (pagesFor d.img.raw.length) d.img.raw
        if r = .ok then s.ret OK [w32 d.du]
        else
          let (c, ws) := callFault r
          s.ret c ws
    | (s, _, _) => s.ret REFUSED [w32 cFETCH]
def execReferenceDecode (ini : Nat) (args : List Word) (s : State) : Out := .next (callRefDecode ini args s)

/-- 0x050A. -/
def callVatCounters (ini : Nat) (args : List Word) (s : State) : State :=
  s.vatRead ini (arg args 0) fun s => s.retRegs (arg args 0) [0x128, 0x12C, 0x130, 0x134, 0x138, 0x13C, 0x140, 0x144, 0x148, 0x14C, 0x168]
def execReadVatCounters (ini : Nat) (args : List Word) (s : State) : Out := .next (callVatCounters ini args s)

end Sys2Proof.Machine
end

