-- ==== Sys2Proof/Machine/PressCore.lean ====
section
/-! DEFINITION. The Press: links, loads, rings, lines and what they write (R351–R368). -/
namespace Sys2Proof.Machine

/-! ### Links and streams (R353) -/

def State.stream (s : State) (l i : Nat) : Word := s.rd (uCL l) (0x108 + 4 * i)
def streamPipe (w : Word) : Nat := bits w 27 24
def streamDt (w : Word) : Nat := bits w 21 16
def streamVc (w : Word) : Nat := bits w 11 8
/-- The enabled stream of a link on a virtual channel. -/
def State.streamOf (s : State) (l vc : Nat) : Option Nat :=
  (List.range 4).find? fun i => bit (s.stream l i) 31 && streamVc (s.stream l i) = vc
/-- The link and stream that a pipeline is bound to. -/
def State.boundTo (s : State) (p : Nat) : Option (Nat × Nat) :=
  ((List.range 8).flatMap fun l => (List.range 4).map fun i => (l, i)).find? fun (l, i) =>
    bit (s.stream l i) 31 && streamPipe (s.stream l i) = p
/-- Data types of R352. -/
def dataTypes : List Nat := [0x2A, 0x2B, 0x2C, 0x2D, 0x2E, 0x1E, 0x24]

/-- PP_STATUS, PP_FRAME and PP_SET follow the pipeline (R377). -/
def State.ppSync (s : State) (p : Nat) : State :=
  let x := s.pp p
  let b := s.boundTo p
  let keep := (s.rd (uPP p) 0x20C).toNat % 2 ^ 28 / 2 ^ 27 * 2 ^ 27 + s.fld (uPP p) 0x20C 7 0
  let st := keep + b2n (!x.desc.isEmpty) * 2 ^ 31 + b2n (2 ≤ x.run) * 2 ^ 30 + b2n b.isSome * 2 ^ 29 +
    b2n (dn x.desc 0x8D 1 / 64 % 2 = 1) * 2 ^ 28 + (match b with
      | some (l, i) => l * 2 ^ 20 + streamVc (s.stream l i) * 2 ^ 16
      | none => 0) + x.sets.length * 2 ^ 8
  ((s.wr (uPP p) 0x20C (w32 st)).wr (uPP p) 0x210 (w32 x.n)).wr (uPP p) 0x214 (w32 x.cur.id)

/-- CL_STATUS.STREAMS follows the stream registers. -/
def State.linkSync (s : State) (l : Nat) : State :=
  s.setFld (uCL l) 0x104 19 16 ((List.range 4).foldl (fun a i => a + b2n (bit (s.stream l i) 31) * 2 ^ i) 0)

/-! ### Rings and blocks (R359–R361) -/

/-- The ring fills a landing parcel exactly that admits the writer, or lies in LPDDR4X (R360, R361). -/
def State.ringOkFor (s : State) (p : Nat) (d : List Byte) (o : Nat) : Bool :=
  let a := oAddr d o
  let n := oNf d o * oStride d o
  if a < 0x10000000 then
    match s.parcelAt a with
    | some k => s.pclBase k * 0x10000 = a && s.pclSize k * 0x10000 = n && s.pclLanding k && s.pclCreditEn k && s.rowAllowed (ppIni p) a true
    | none => false
  else regionOf s.part a = .lpddr && regionOf s.part (a + n - 1) = .lpddr

/-- A mark lies in a client's range (R252). -/
def State.clientMark (s : State) (c : Option Nat) (m : Nat) : Bool :=
  match c with
  | none => false
  | some c => bits (s.cw c 5) 15 0 ≤ m && m < bits (s.cw c 5) 15 0 + bits (s.cw c 5) 31 16

/-- What is wrong with an output block, by word of the descriptor (R359, R360). A field's range and its mark hold whether or not the block is
enabled (DEDUCED, notes/assumptions/214.md). -/
def State.blockFaults (s : State) (p : Nat) (client : Option Nat) (d : List Byte) (o : Nat) : List (Nat × Bool) :=
  let w := ob o / 4
  let on := oEn d o
  let ring := oRing d o
  let img := o ≤ 2
  [ (w, ring && !s.ringOkFor p d o),
    (w + 1, dn d (ob o + 6) 2 != 0),
    (w + 2, oStride d o % 1024 != 0 || (ring && (oStride d o = 0 || oStride d o < oBytes d o))),
    (w + 3, (o ≤ 1 && 1 < oFmt d o) || (o = 2 && !(oFmt d o = 1 || oFmt d o = 8)) ||
      (o = 2 && !(oPlanes d = 1 || oPlanes d = 7 || oPlanes d = 15)) || (img && (oRow d o % 64 != 0 || (ring && oRow d o < oRowBytes d o)))),
    (w + 3, (o != 2 && (dn d (ob o + 12) 1 / 16 != 0 || dn d (ob o + 13) 1 / 64 % 2 = 1))),
    (w + 4, !s.clientMark client (oFrameMark d o) || !s.clientMark client (oRelease d o)),
    (w + 5, on && img && (oW d o = 0 || oH d o = 0)),
    (w + 6, img && (ppW d < oCx d o + oCw d o || ppH d < oCy d o + oCh d o)),
    (w + 7, on && img && (oCw d o = 0 || oCh d o = 0)) ]

/-- The first bad word of a descriptor, by its offset ÷ 4 (R358, R360). -/
def State.descBad (s : State) (p : Nat) (client : Option Nat) (d : List Byte) : Option Nat :=
  let g := dn d
  let all : List (Nat × Bool) := [ (0, ppW d < 2 || 8192 < ppW d || ppH d < 2 || 8192 < ppH d || ((ppKind d = 0 || ppKind d = 2) && ppW d % 2 = 1)),
    (1, 16 < ppBits d || g 5 1 / 4 % 4 != 0 || g 6 2 != 0),
    (2, g 8 1 / 128 != 0 || g 9 2 / 128 != 0 || g 11 1 != 0),
    (3, g 0xC 1 / 2 % 2 = 1 || g 0xE 1 % 4 = 3 || g 0xE 1 / 4 % 4 != 0),
    (4, 8 ≤ g 0x10 1 || g 0x12 2 != 0),
    (7, 4095 < g 0x1C 4),
    (9, g 0x26 2 != 0), (11, g 0x2E 2 != 0), (13, g 0x36 2 != 0), (14, 256 ≤ g 0x38 4), (15, g 0x3C 4 != 0) ] ++
    (List.range 5).flatMap (s.blockFaults p client d) ++
    (List.range 8).map fun k => (0x38 + k, g (0xE0 + 4 * k) 4 != 0)
  (all.find? (·.2)).map (·.1)

/-- Another pipeline on the master has the same sensor address, or another speed (R360). -/
def State.busConflict (s : State) (p : Nat) (d : List Byte) : Bool :=
  (List.range 16).any fun q => q != p && ((s.pp q).desc :: (s.pp q).pend.toList).any fun e => !e.isEmpty &&
    ppMaster e = ppMaster d && (ppSensor e = ppSensor d || ppSpeed e != ppSpeed d)

/-- Load the descriptor at an address for a client: none when it is taken, else its first bad word and whether only the
master conflicts. -/
def State.ppLoad (s : State) (p : Nat) (client : Option Nat) (a : Nat) : State × Option (Nat × Bool) :=
  let (s, d) := if regionOf s.part a = .lpddr && regionOf s.part (a + 255) = .lpddr then
      let (s, r, l) := s.extRead (ppIni p) 0xFFFF false a 256
      (s, if r = .ok then some l else none)
    else (s, none)
  match d with
  | none => (s.setFld (uPP p) 0x20C 7 0 0, some (0, false))
  | some d =>
    let bad := s.descBad p client d
    if s.busConflict p d && bad.all (2 < ·) then (s.setFld (uPP p) 0x20C 7 0 2, some (2, true))
    else match bad with
    | some w => (s.setFld (uPP p) 0x20C 7 0 w, some (w, false))
    | none =>
      let x := s.pp p
      let x := { x with client := client }
      let s := (s.setFld (uPP p) 0x20C 7 0 0xFF).setPp p (if 2 ≤ x.run then { x with pend := some d } else { x with desc := d, pend := none })
      (s.ppSync p, none)

/-! ### Reports (R371, R372, R375) -/

/-- Post an event of the Press to the loading client. -/
def State.ppEvent (s : State) (p code d0 d1 : Nat) : State :=
  match (s.pp p).client with
  | some c => s.post c code (uPP p) noQueue 0 d0 d1
  | none => s

/-- Causes found at a decision point go to the client and, when watched, to the Warden: its report carries the frame in bits 31:0 and
the mask above (R372, R437). -/
def State.frameFlag (s : State) (p frame mask : Nat) : State :=
  if mask = 0 then s
  else
    let s := s.ppEvent p 0x0010 frame mask
    let watch := s.rd uWarden 0x22C
    if bit watch p && bits watch 20 16 &&& mask != 0 then s.wdReport 0x0E p (mask * 2 ^ 32 + frame) else s

/-! ### Output lines (R357) -/

/-- Pieces of a row of a tiled plane (R357): 64 bytes each. -/
def tilePieces (base stride r : Nat) (l : List Byte) : List (Nat × List Byte) :=
  let bs := blocksOf 64 (ceilDiv l.length 64) l
  (List.range bs.length).map fun t => (base + r / 16 * 16 * stride + t * 1024 + r % 16 * 64, nth bs t [])

/-- What output line y writes, relative to its slot (R357, R359). -/
def State.lineWrites (s : State) (x : PpX) (o y : Nat) : List (Nat × List Byte) :=
  let d := x.desc
  let xs := List.range (oW d o)
  match o with
  | 0 =>
    let px := fun xx => (List.range 3).map fun c => s.tone d (s.rgb x 0 c y xx)
    [(y * oRow d 0, xs.flatMap fun xx =>
      if oFmt d 0 = 0 then px xx else natBytes 4 (dn d 0x38 1 * 2 ^ 24 + (nth (px xx) 0 0).toNat * 2 ^ 16 + (nth (px xx) 1 0).toNat * 2 ^ 8 + (nth (px xx) 2 0).toNat))]
  | 1 =>
    let luma := tilePieces 0 (oRow d 1) y (xs.flatMap fun xx => s.ycc x 0 y xx)
    if y % 2 = 1 || y + 1 = oH d 1 then
      luma ++ tilePieces (chromaBase d) (oRow d 1) (y / 2)
        ((List.range (ceilDiv (oW d 1) 2)).flatMap fun xx => s.ycc x 1 (y / 2) xx ++ s.ycc x 2 (y / 2) xx)
    else luma
  | _ =>
    (mvPlanes d).zipIdx.map fun (c, i) =>
      ((i * oH d 2 + y) * oRow d 2, xs.flatMap fun xx => natBytes (if oFmt d 2 = 8 then 2 else 1) (mvCode (oFmt d 2) (s.chan x 2 c y xx)))

/-- Codes of a machine-vision line by plane, for the feed (R364). -/
def State.feedCodes (s : State) (x : PpX) (y : Nat) : List (List Nat) :=
  (mvPlanes x.desc).map fun c => (List.range (oW x.desc 2)).map fun xx => mvCode (oFmt x.desc 2) (s.chan x 2 c y xx)

/-- The last sensor row that output line y depends on: of its crop and resize, with the windows of stages 3 and 6 (R326, R327, R356). -/
def lastRow (d : List Byte) (o y : Nat) : Nat :=
  min (ppH d - 1) <| (if ppKind d = 0 then 4 else 2) + oCy d o + (if oSame d o then y else match areaFactors (oCw d o) (oCh d o) (oW d o) (oH d o) with
    | some (_, ky) => (y + 1) * ky - 1
    | none => (axisPos (oCh d o) (oH d o) y).2.1)

/-! ### Writing with credits (R361, R362) -/

/-- Where frame n's slot of an output begins. -/
def slotBase (d : List Byte) (o n : Nat) : Nat := oAddr d o + n % oNf d o * oStride d o

/-- Write pieces; false when one was refused. -/
def State.ppPut (s : State) (p base : Nat) : List (Nat × List Byte) → State × Bool
  | [] => (s, true)
  | (a, l) :: t =>
    let (s, c) := if base + a < 0x10000000 then s.polWrite (ppIni p) (base + a) l
      else
        let (s, r) := s.extWrite (ppIni p) 0xFFFF false (base + a) l
        (s, if r = .ok then 0 else fFIREWALL_DENIED)
    if c = 0 then s.ppPut p base t
    else (s.recordFault c (uPP p) (ppIni p) noQueue 0 (base + a) 0 0 (if faultClass c = 2 then oPending else oNone), false)

/-- Take what the slot's charge asks before line y of lines: false when credits are short; the credits taken, by parcel (R361). -/
def State.ppCharge (s : State) (x : PpX) (o y lines : Nat) : State × Bool × PpOut × List (Nat × Nat) :=
  let q := nth x.outs o .zero
  let d := x.desc
  if !oPolder d o then (s, true, q, [])
  else
    let c := oStride d o / 1024
    let need := ceilDiv (c * (y + 1)) lines + q.owed - q.held
    match s.parcelAt (oAddr d o) with
    | none => (s, false, q, [])
    | some k =>
      let (s, ok) := s.takeCredits k (need * 1024)
      if ok then (s, true, { q with held := q.held + need }, [(k, need)]) else (s, false, q, [])

/-- Write line y of an output's lines, or drop it; PP_DROP counts those dropped for lack of credits (R377). -/
def State.ppWrite (s : State) (p : Nat) (o y lines : Nat) (ws : List (Nat × List Byte)) : State :=
  let x := s.pp p
  if (nth x.outs o .zero).skip then s
  else
    let (s, paid, q, cs) := s.ppCharge x o y lines
    let base := slotBase x.desc o x.n
    let (s, ok) := if paid then s.ppPut p base ws else (s, false)
    let s := s.creditsDone (ppIni p) base (oStride x.desc o) cs
    let q := if ok then q else { q with drops := q.drops + 1 }
    let s := s.setPp p { x with outs := setNth x.outs o q }
    if paid then s else s.count (uPP p) 0x238 1

/-- The slot ends: what was not charged passes on (R361). -/
def PpX.closeOut (x : PpX) (o : Nat) : PpOut :=
  let q := nth x.outs o .zero
  if oRing x.desc o && oPolder x.desc o then ⟨0, oStride x.desc o / 1024 + q.owed - q.held, 0, false⟩ else .zero

/-! ### Signatures (R371) -/

/-- One byte into CRC-64 with polynomial 0x42F0E1EBA9EA3693, most significant bit first. -/
def crc64Byte (c : Nat) (b : Byte) : Nat :=
  (List.range 8).foldl (fun c _ => if 2 ^ 63 ≤ c then (2 * c % 2 ^ 64) ^^^ 0x42F0E1EBA9EA3693 else 2 * c) (c ^^^ (b.toNat * 2 ^ 56))
def crc64 (l : List Byte) : Nat := l.foldl crc64Byte 0

/-- The signature of a row; none for a flat one. -/
def rowSig (vals : List Nat) : Option Nat :=
  if vals.all (· = vals.headD 0) then none else some (crc64 (vals.flatMap (natBytes 2)))

/-- The sampled rows. -/
def sampled (h y : Nat) : Bool := (List.range 16).any fun k => (2 * k + 1) * h / 32 = y
/-- How many of the sixteen samples fall on a row. -/
def sampleCount (h y : Nat) : Nat := ((List.range 16).filter fun k => (2 * k + 1) * h / 32 = y).length

end Sys2Proof.Machine
end

