-- ==== Sys2Proof/Machine/Press.lean ====
section
/-! DEFINITION. The Press's frames, lines, parameter sets and moves (R353–R377). -/
namespace Sys2Proof.Machine

/-! ### The feed to a toe engine (R130, R131, R364) -/

/-- The toe engine that a pipeline feeds. -/
def State.feedOf (s : State) (p : Nat) : Option Nat := (List.range 2).find? fun e => s.fld (uTE e) 0x104 7 0 = p

/-- The feed operation that waits on a toe engine. -/
def State.feedOp (s : State) (e : Nat) : Option (CtxRun × Issued) :=
  match s.run (.toe e) with
  | none => none
  | some r => match r.current 8 with
    | some i => if i.wait = .feed then some (r, i) else none
    | none => none

/-- Bytes of a feed line in the line store. -/
def feedRow (d : List Byte) : Nat := (mvPlanes d).length * oW d 2 * (if oFmt d 2 = 8 then 2 else 1)

/-- A frame starts: the operation that waits on the feed takes it, when its map is the pipeline's (R130). -/
def State.feedStart (s : State) (p : Nat) : State :=
  let d := (s.pp p).desc
  match s.feedOf p with
  | none => s
  | some e => match s.feedOp e with
    | none => s.feedClear (.toe e)
    | some (_, i) =>
      let s := s.feedClear (.toe e)
      let c := convOf i.cps
      if !oFeed d then s.unitSync (.toe e)
      else if 2 ^ fmtBits (oFmt d 2) ≤ c.pad || c.cin != (mvPlanes d).length || c.w != oW d 2 || c.h != oH d 2 || 384 * 1024 < ((c.kh - 1) * c.dy + 1 + c.sy) * feedRow d then
        s.unitFault (.toe e) i fSHAPE_INVALID
      else (s.setFeedX e ⟨true, oFmt d 2, []⟩).unitSync (.toe e)

/-- Rows that the engine no longer needs once n rows have arrived: those before the first input of the first output row
that is not complete. -/
def feedFreeable (c : Conv) (n : Nat) : Nat :=
  let done := ((List.range c.outH).takeWhile fun o => (o * c.sy + c.reachY) - c.pt < n).length
  min n (done * c.sy - c.pt)

/-- A machine-vision line reaches the toe engine; it has released at most `freed` rows of its line store. -/
def State.feedLine (s : State) (p y freed : Nat) : State :=
  let x := s.pp p
  match s.feedOf p with
  | none => s
  | some e => match s.feedOp e with
    | none => s
    | some (r, i) =>
      let f := s.feedX e
      if !f.on || !oFeed x.desc then s
      else
        let c := convOf i.cps
        let n := f.lines.length
        let held := (n - min freed (feedFreeable c n)) * feedRow x.desc
        if 384 * 1024 < held + feedRow x.desc then
          ((s.feedClear (.toe e)).count (uTE e) 0x110 1).unitFault (.toe e) i fFEED_OVERRUN
        else
          let s := (s.setFeedX e { f with lines := f.lines ++ [s.feedCodes x y] }).count (uTE e) 0x10C 1
          let s := s.wr (uTE e) 0x108 (w32 (held + feedRow x.desc))
          if n + 1 < c.h then s
          else
            s.feedRun (.toe e) r i

/-! ### Sensor writes (R370, R570) -/

def State.jobsOf (s : State) (m : Nat) : List SenJob := SMap.get (fun _ => []) m s.sensors
def State.setJobs (s : State) (m : Nat) (l : List SenJob) : State := { s with sensors := SMap.set (fun _ => []) m l s.sensors }
def setWrites (d : List Byte) : Nat := dn d 8 1 % 64
def setReg (d : List Byte) (k : Nat) : Nat := dn d (0x40 + 4 * k) 2
def setVal (d : List Byte) (k : Nat) : Nat := dn d (0x42 + 4 * k) 1

/-- Send the write at the head of a master. -/
def State.sendWrite (s : State) (m : Nat) : State :=
  match s.jobsOf m with
  | [] => s
  | j :: _ =>
    let d := (s.pp j.pp).desc
    s.emit .sensor m [ppSensor d, b2n (ppAddr16 d), setReg j.set.data j.idx, setVal j.set.data j.idx]

/-- Change a set wherever it is: in the store or in effect. -/
def State.updSet (s : State) (p target : Nat) (f : PSet → PSet) : State :=
  let x := s.pp p
  s.setPp p { x with
    sets := updFirst (·.target = target) f x.sets
    cur := if x.cur.target = target then f x.cur else x.cur }

/-- The head of a master has no more writes: the next one begins. -/
def State.nextJob (s : State) (m : Nat) : State :=
  let s := match s.jobsOf m with
    | [] => s
    | j :: t => (s.setJobs m t).updSet j.pp j.set.target fun q => { q with ended := true }
  s.sendWrite m

/-- The sets of a pipeline whose blanking has come begin their writes (R370). -/
def State.sendSets (s : State) (p : Nat) : State :=
  let x := s.pp p
  let due := x.sets.filter fun q => !q.begun && q.target ≤ x.n + ppDelay x.desc
  due.foldl (fun s q =>
    let d := (s.pp p).desc
    let s := s.updSet p q.target fun q => { q with
      begun := true
      split := q.split || q.target < x.n + ppDelay d
      ended := setWrites q.data = 0 }
    if setWrites q.data = 0 then s
    else
      let m := ppMaster d
      let idle := (s.jobsOf m).isEmpty
      let s := s.setJobs m (s.jobsOf m ++ [⟨p, q, 0, false⟩])
      if idle then s.sendWrite m else s) s

/-- A sensor write ends: an ACK goes on, a NACK is retried once; then the rest is abandoned (R370). -/
def State.writeEnds (s : State) (m : Nat) (ack : Bool) : State :=
  match s.jobsOf m with
  | [] => s
  | j :: t =>
    if ack then
      if j.idx + 1 < setWrites j.set.data then (s.setJobs m ({ j with idx := j.idx + 1, retried := false } :: t)).sendWrite m
      else s.nextJob m
    else if !j.retried then (s.setJobs m ({ j with retried := true } :: t)).sendWrite m
    else
      let s := s.updSet j.pp j.set.target fun q => { q with part := true }
      let s := (s.ppEvent j.pp 0x0011 j.set.id (setReg j.set.data j.idx)).countF (uPP j.pp) 0x240 15 0 1
      s.nextJob m

def execSensorWriteDone (master : Nat) (ack : Bool) (s : State) : Out := .next (s.writeEnds (master % 8) ack)
/-- 25 ms of clock stretching end the transfer as failed (R570). -/
def execClockStretchTimeout (master : Nat) (s : State) : Out := .next (s.writeEnds (master % 8) false)

/-! ### Parameter sets (R368, R369, R379) -/

def SET_LATE : Nat := 0x0172
def SET_FULL : Nat := 0x0173
def SET_TOO_LONG : Nat := 0x0174

/-- Reserved bits of a set are 0 and NWRITES is in range. -/
def setOk (d : List Byte) : Bool :=
  dn d 2 2 = 0 && dn d 8 4 ≤ 32 && dn d 12 4 = 0 && bytesNat ((d.drop 0x30).take 16) = 0 &&
    (List.range 32).all fun k => dn d (0x43 + 4 * k) 1 = 0
/-- Nanoseconds of one bit at SPEED. -/
def bitNs (speed : Nat) : Nat := nth [10000, 2500, 1000, 80] speed 0
/-- The bus time of a set in ns (R369). -/
def busNs (d set : List Byte) : Nat := setWrites set * (if ppAddr16 d then 40 else 31) * bitNs (ppSpeed d)

/-- Number of frame ends received. -/
def PpX.ends (x : PpX) : Nat := if x.run < 2 then 0 else if x.inFrame then x.n else x.n + 1
/-- The current frame number. -/
def PpX.now (x : PpX) : Nat := if x.run < 2 then 0 else x.n

/-- Submit a set: its status (R369, R379). -/
def State.pushSet (s : State) (p a : Nat) : State × Nat :=
  let x := s.pp p
  let (s, r, d) := if regionOf s.part a = .lpddr && regionOf s.part (a + 191) = .lpddr then s.extRead (ppIni p) 0xFFFF false a 192 else (s, .addr, [])
  if r != .ok || !setOk d then (s, RANGE)
  else
    let t := dn d 4 4
    let delay := ppDelay x.desc
    let old := x.sets.find? (·.target = t)
    let begun := match old with | some q => q.begun | none => false
    if t < x.ends + delay || x.now + 64 < t || begun then (s, SET_LATE)
    else if old.isNone && 8 ≤ x.sets.length then (s, SET_FULL)
    else if x.blank.getD 0 < busNs x.desc d then (s, SET_TOO_LONG)
    else
      let q : PSet := ⟨dn d 0 2, t, d, false, false, false, false⟩
      let sets := if old.isSome then x.sets.map fun o => if o.target = t then q else o else x.sets ++ [q]
      ((s.setPp p { x with sets := sets }).ppSync p, OK)

/-- The status of a submission is shown, and a refused set counted (R377). -/
def State.setResult (s : State) (p st : Nat) : State :=
  (if st = OK then s else s.countF (uPP p) 0x240 31 16 1).wr (uPP p) 0x224 (w32 (2 ^ 31 + st))

/-- A write to PP_PSET_HI: GO submits the set (R369, R377). -/
def State.psetWrite (s : State) (ini p : Nat) (w : Word) : State :=
  s.guarded ini (uPP p) 0x220 w false fun s =>
    if !bit w 31 then s
    else
      let (s, st) := s.pushSet p (s.fld (uPP p) 0x21C 31 6 * 64 + 2 ^ 32 * bits w 15 0)
      s.setResult p st

def execPpPsetGo (ini p value : Nat) (s : State) : Out := .next (s.psetWrite ini (p % 16) (setBit (w32 value) 31 true))

/-! ### Frame start (R353, R354, R360, R362, R365, R370) -/

/-- A packet on a virtual channel of an enabled link; whether the link still is in high-speed mode after it is open. -/
def State.linkSees (s : State) (l vc : Nat) : State :=
  let (hs, s) := s.freshNat 2
  ((s.setFlag (uCL l) 0x104 30 true).setFlag (uCL l) 0x104 31 (hs = 1)).setFlag (uCL l) 0x104 (vc % 16) true

/-- What the check of a packet's header finds: 0 good, 1 corrected, 2 uncorrectable (R354, R376). -/
def State.header (s : State) (l hdr : Nat) : State :=
  if hdr = 1 then s.countF (uCL l) 0x118 15 0 1 else if hdr = 2 then s.countF (uCL l) 0x118 31 16 1 else s

/-- The pipeline of a short packet, or the packet is discarded and counted (R353, R354). -/
def State.withStream (s : State) (l vc hdr : Nat) (act : Nat → Nat → State → State) : State :=
  if !s.flag (uCL l) 0x100 31 then s
  else if hdr = 2 then s.header l hdr
  else
    let s := (s.header l hdr).linkSees l vc
    match s.streamOf l vc with
    | none => s.count (uCL l) 0x128 1
    | some i => act i (streamPipe (s.stream l i)) s

/-- A frame that the start of another interrupts is truncated and leaves no record (R354, R365). -/
def State.cutFrame (s : State) (l p : Nat) : State :=
  let x := s.pp p
  if !x.inFrame then s
  else
    let s := (s.countF (uCL l) 0x120 15 0 1).countF (uCL l) 0x120 31 16 1
    if x.run < 2 then s
    else
      let s := (s.countF (uPP p) 0x230 15 0 1).countF (uPP p) 0x230 31 16 1
      s.setPp p { x with lost := min (x.lost + 1) 255, outs := (List.range 5).map x.closeOut }

/-- Outputs in LPDDR4X whose slot has not been released are skipped (R362). -/
def State.skips (s : State) (p : Nat) : State :=
  let x := s.pp p
  let d := x.desc
  (List.range 5).foldl (fun s o =>
    let skip := oRing d o && !oPolder d o && oNf d o ≤ x.n && !markGe (s.mark (oRelease d o)) (x.n + 1 - oNf d o)
    if !skip then s
    else
      let y := s.pp p
      let s := s.setPp p { y with outs := setNth y.outs o { nth y.outs o .zero with skip := true } }
      match o with
      | 0 => s.countF (uPP p) 0x23C 31 24 1
      | 1 => s.countF (uPP p) 0x23C 23 16 1
      | 2 => s.countF (uPP p) 0x23C 15 8 1
      | 3 => s.countF (uPP p) 0x23C 7 0 1
      | _ => s) s

/-- The latest of the sets whose TARGET has come and that come after the one in effect. -/
def PpX.dueSet (x : PpX) (sets : List PSet) : Option PSet :=
  (sets.filter fun q => q.target ≤ x.n && x.cur.target < q.target).foldl (fun a q =>
    match a with
    | some b => if b.target < q.target then some q else a
    | none => some q) none

/-- Sets apply at the frame start of their TARGET, or at the first one after it when that frame was lost; writes that have
not ended, or whose blanking passed during a move, make the frames SET_SPLIT (R370, R373). A set stays pending until its
writes have begun. -/
def State.applySets (s : State) (p : Nat) : State :=
  let x := s.pp p
  let sets := x.sets.map fun q => if !q.ended && (q.begun || q.target ≤ x.n) then { q with split := true } else q
  s.setPp p { x with sets := sets.filter fun q => x.n < q.target || !q.begun, cur := (x.dueSet sets).getD x.cur }

/-- A pipeline or its controller is out of service or in test: it takes no lines. -/
def State.ppDown (s : State) (p : Nat) : Bool := 2 ≤ s.ustate (uPP p) || 2 ≤ s.ustate (uPX (p / 4))
/-- The pipeline or its controller drains. -/
def State.ppDrains (s : State) (p : Nat) : Bool := s.ustate (uPP p) = 1 || s.ustate (uPX (p / 4)) = 1
/-- A pipeline takes no new frame: it is down, or it drains and a frame end has come since (R373). -/
def State.ppClosed (s : State) (p : Nat) : Bool := s.ppDown p || (s.ppDrains p && (s.pp p).drained)

/-- A frame start that meets a closed pipeline: the frame is lost and counted; its number is the stream's (R373). -/
def State.lostStart (s : State) (p : Nat) : State :=
  let x := s.pp p
  if x.run < 2 then s
  else ((s.setPp p { x with n := (x.n + 1) % 2 ^ 32, lost := min (x.lost + 1) 255, inFrame := false }).countF (uPP p) 0x230 31 16 1).ppSync p

/-- A frame-start short packet. -/
def State.frameStart (s : State) (l vc hdr : Nat) : State :=
  s.withStream l vc hdr fun _ p s =>
    let s := s.cutFrame l p
    let x := s.pp p
    if s.ppClosed p then s.lostStart p else
    let blank := match x.endNs with | some e => some (s.nowNs - e) | none => x.blank
    let x := { x with inFrame := true, blank := blank, drained := false }
    if x.run = 0 then s.setPp p x
    else
      let desc := x.pend.getD x.desc
      let fresh := x.run = 1
      let x := if fresh then { x with first := true, seen := 0, hist := [], flick := [], cnt0 := none, ts0 := none, n := 0, cur := .zero, lost := 0, late := false }
        else { x with n := (x.n + 1) % 2 ^ 32 }
      let outs := if x.pend.isSome then List.replicate 5 .zero else x.outs
      let x := { x with
        desc := desc, pend := none, run := 2, draw := s.free, ns := s.gaugeNs, sec := s.gaugeS, got := 0, errs := 0
        img := [], rows := [], outs := outs, cnt := 0, ts := 0, emb := false
        frz := if x.late then 8 else 0, late := false, seen := min 4 (x.seen + 1) }
      let s := ({ s with free := s.free + 1 } : State).setPp p x
      let s := ((s.applySets p).skips p).feedStart p
      let s := (s.finish 0x0602 p OK).finish 0x0603 p OK
      s.ppSync p

def execCsi2FrameStart (link vc hdr : Nat) (s : State) : Out := .next (s.frameStart (link % 8) (vc % 16) hdr)

/-! ### Lines (R354–R357, R361, R364) -/

/-- A sensor line enters the pipeline: its signature, the output lines that it completes, the feed. -/
def State.ppLine (s : State) (p : Nat) (vals : List Nat) (freed : Nat) : State :=
  let x := s.pp p
  let d := x.desc
  let y := x.got
  if ppH d ≤ y then s
  else
    let rows := if sampled (ppH d) y then x.rows ++ List.replicate (sampleCount (ppH d) y) (rowSig vals) else x.rows
    let s := s.setPp p { x with got := y + 1, img := x.img ++ [(s.nowNs, vals)], rows := rows }
    (List.range 3).foldl (fun s o =>
      if !oEn d o then s
      else
        ((List.range (oH d o)).filter fun k => lastRow d o k = y).foldl (fun s k =>
          let s := if oRing d o then s.ppWrite p o k (oH d o) (s.lineWrites (s.pp p) o k) else s
          if o = 2 then s.feedLine p k freed else s) s) s

/-- A long packet of image data: header 0 good, 1 corrected, 2 uncorrectable; its payload and CRC; the stream buffer
overflowed; rows that the fed toe engine has released. -/
def State.line (s : State) (l vc dt hdr crc : Nat) (overflow : Bool) (payload : List Byte) (freed : Nat) : State :=
  if !s.flag (uCL l) 0x100 31 then s
  else
    let s := s.header l hdr
    let s := if hdr = 2 then s else s.linkSees l vc
    match s.streamOf l vc with
    | none => if hdr = 2 then s else s.count (uCL l) 0x128 1
    | some i =>
      let p := streamPipe (s.stream l i)
      if hdr != 2 && streamDt (s.stream l i) != dt then s.count (uCL l) 0x128 1
      else
        let (s, inj) := s.injected (uCL l) 2
        let crcBad := hdr != 2 && (crc16 payload != crc || inj != 0)
        let s := if crcBad then s.count (uCL l) 0x11C 1 else s
        let s := if overflow then s.countF (uCL l) 0x124 (8 * i + 7) (8 * i) 1 else s
        let x := s.pp p
        if x.run != 2 || !x.inFrame || s.ppDown p || ppH x.desc ≤ x.got then s
        else
          let vals := unpackLine (streamDt (s.stream l i)) (ppBits x.desc) payload
          let bad := hdr = 2 || crcBad || overflow || vals.length != lineVals x.desc
          if !bad then s.ppLine p vals freed
          else
            let s := s.setPp p { x with errs := x.errs + 1 }
            let s := s.count (uPP p) 0x234 1
            s.ppLine p (if x.got = 0 then List.replicate (lineVals x.desc) 0 else (nth x.img (x.img.length - 1) (0, [])).2) freed

def execCsi2Line (link vc dt hdr crc : Nat) (overflow : Bool) (payload : List Byte) (freed : Nat) (s : State) : Out :=
  .next (s.line (link % 8) (vc % 16) (dt % 64) hdr crc overflow payload freed)

/-! ### Embedded data (R371) -/

/-- The causes that an embedded line's counter and time stamp give (R366): the counter did not rise by one, the stamp stood
still or fell. -/
def PpX.lineCauses (x : PpX) (cnt ts : Nat) : Nat :=
  let cmod := 2 ^ (8 * ppCntBytes x.desc)
  let tmod := 2 ^ (8 * ppTsBytes x.desc)
  let cBad := match x.cnt0 with | some c => cnt != (c + 1) % cmod | none => false
  let tBad := match x.ts0 with
    | some t => ppTsBytes x.desc != 0 && (let e := (ts + tmod - t) % tmod; e = 0 || tmod ≤ 2 * e)
    | none => false
  2 * b2n cBad + 4 * b2n tBad

/-- The first embedded line of a frame: COUNTER and TIMESTAMP are decided. -/
def State.embedded (s : State) (l vc hdr crc : Nat) (payload : List Byte) : State :=
  if !s.flag (uCL l) 0x100 31 then s
  else
    let s := s.header l hdr
    if hdr = 2 then s
    else
      let s := s.linkSees l vc
      match s.streamOf l vc with
      | none => s.count (uCL l) 0x128 1
      | some i =>
        let p := streamPipe (s.stream l i)
        let x := s.pp p
        let d := x.desc
        if crc16 payload != crc then s.count (uCL l) 0x11C 1
        else if x.run != 2 || !x.inFrame || s.ppDown p || x.emb || !ppEmb d then s
        else
          let cnt := dn payload (ppCntOff d) (ppCntBytes d)
          let ts := dn payload (ppTsOff d) (ppTsBytes d)
          let mask := if ppFrz d then x.lineCauses cnt ts else 0
          let s := s.setPp p { x with emb := true, cnt := cnt, ts := ts, cnt0 := some cnt, ts0 := some ts, frz := x.frz ||| mask }
          s.frameFlag p x.n mask

def execCsi2EmbeddedLine (link vc hdr crc : Nat) (payload : List Byte) (s : State) : Out :=
  .next (s.embedded (link % 8) (vc % 16) hdr crc payload)

/-- No frame start within LATE_MS (R371). -/
def State.frameLate (s : State) (p : Nat) : State :=
  let x := s.pp p
  if x.run != 2 || !ppFrz x.desc || ppLateMs x.desc = 0 then s
  else (s.setPp p { x with late := true }).frameFlag p (x.n + 1) 8

def execFrameLateExpiry (p : Nat) (s : State) : Out := .next (s.frameLate (p % 16))

/-! ### Frame end (R354, R363, R365–R367, R370–R372) -/

/-- The statistics record (R366, R367). -/
def State.statRecord (s : State) (x : PpX) (linePs : Nat) : List Byte :=
  let d := x.desc
  let qw := ppW d / 2
  let qh := ppH d / 2
  let quads := (List.range qh).flatMap fun qy => (List.range qw).map fun qx => (qy, qx, s.quad x qy qx)
  let luma := fun (q : Nat × Nat × Nat × Nat × Nat) => (q.2.2.1 + 2 * q.2.2.2.1 + q.2.2.2.2) / 4
  let hist := (List.range 256).flatMap fun b => natBytes 4 ((quads.filter fun q => luma q / 256 = b).length)
  let zones := (List.range 16).flatMap fun j => (List.range 16).flatMap fun i =>
    let z := quads.filter fun q => q.2.1 * 16 / qw = i && q.1 * 16 / qh = j &&
      q.2.2.1 < 65535 && q.2.2.2.1 < 65535 && q.2.2.2.2 < 65535
    let sum := fun (f : Nat × Nat × Nat × Nat × Nat → Nat) => natBytes 4 (z.foldl (fun a q => a + f q) 0)
    sum (·.2.2.1) ++ sum (·.2.2.2.1) ++ sum (·.2.2.2.2) ++ natBytes 4 z.length
  let rows := x.flickRows ++ (x.flick.take 3).flatten
  let a := flicker rows
  let led := ledBest rows linePs
  let flags := b2n (x.thresh ≤ a 100) + 2 * b2n (x.thresh ≤ a 120) + 4 * b2n (x.thresh ≤ led.2) + 8 * b2n (4 ≤ x.seen)
  natBytes 4 x.n ++ natBytes 4 x.cur.id ++ natBytes 4 quads.length ++ natBytes 4 0 ++
    natBytes 2 (a 50) ++ natBytes 2 (a 60) ++ natBytes 2 (a 100) ++ natBytes 2 (a 120) ++ natBytes 4 led.1 ++
    natBytes 2 led.2 ++ natBytes 2 flags ++ natBytes 32 0 ++ hist ++ zones

/-- REPEAT and FLAT of a frame's signatures (R371). -/
def PpX.frameCauses (x : PpX) : Nat :=
  let live := x.rows.filter (·.isSome)
  let same := fun (h : List (Option Nat)) => (x.rows.zip h).all fun (a, b) => a.isNone || a = b
  let rep := 4 ≤ live.length && x.hist.any fun h => h.length = x.rows.length && same h
  b2n rep + 16 * b2n (ppFlat x.desc && live.length < 4)

/-- An output's frame is complete (R354, R372). -/
def PpX.complete (x : PpX) (o : Nat) (hold : Bool) : Bool :=
  let q := nth x.outs o .zero
  oRing x.desc o && ppH x.desc ≤ x.got && x.errs ≤ ppTol x.desc && q.drops = 0 && !q.skip && !hold

/-- The frame record (R365). -/
def State.frameRecord (s : State) (x : PpX) (hold : Bool) (linePs : Nat) : List Byte :=
  let done := (List.range 4).foldl (fun a o => a + b2n (x.complete o hold) * 2 ^ o) 0
  let skip := (List.range 4).foldl (fun a o => a + b2n ((nth x.outs o .zero).skip) * 2 ^ o) 0
  let drops := x.outs.foldl (fun a q => a + q.drops) 0
  natBytes 4 x.n ++
    natBytes 4 (x.cur.id + 2 ^ 16 * b2n x.cur.part + 2 ^ 17 * b2n x.cur.split + 2 ^ 18 * b2n (x.got < ppH x.desc) + 2 ^ 19 * (x.frz % 32) + 2 ^ 24 * min x.lost 255) ++
    natBytes 4 x.cnt ++ natBytes 2 (min x.errs 65535) ++ natBytes 2 (min x.got 65535) ++ natBytes 8 x.ts ++
    natBytes 4 x.ns ++ natBytes 4 (x.sec % 2 ^ 32) ++ natBytes 4 (x.sec / 2 ^ 32 % 2 ^ 16) ++
    natBytes 4 (done + 16 * skip + 2 ^ 16 * min drops 65535) ++ natBytes 4 s.gaugeNs ++ natBytes 4 linePs ++ natBytes 16 0

/-- Marks of complete outputs of pipeline p take n + 1, after the output's last write has been acknowledged (R363). -/
def State.frameMarks (s : State) (p : Nat) (x : PpX) (hold : Bool) : State :=
  (List.range 5).foldl (fun s o =>
    if oMark x.desc o && x.complete o hold then
      s.markAfter (ppIni p) (slotBase x.desc o x.n) (oStride x.desc o) (oFrameMark x.desc o) false (x.n + 1)
    else s) s

/-- What the end of a frame writes in memory: the statistics record, the frame record (R362, R364). -/
def State.frameRecords (s : State) (p : Nat) (hold : Bool) (linePs : Nat) : State :=
  let d := (s.pp p).desc
  let s := if oRing d 3 then s.ppWrite p 3 0 1 [(0, s.statRecord (s.pp p) linePs)] else s
  if oRing d 4 then s.ppWrite p 4 0 1 [(0, s.frameRecord (s.pp p) hold linePs)] else s

/-- What the end of a frame leaves in the registers (R376). -/
def State.frameRegs (s : State) (l p linePs rate : Nat) : State :=
  let x := s.pp p
  let s := if x.got < ppH x.desc then (s.countF (uPP p) 0x230 15 0 1).countF (uCL l) 0x120 31 16 1 else s
  let s := (s.wr (uPP p) 0x244 (w32 (min rate 65535))).wr (uPP p) 0x248 (w32 (cap32 linePs))
  let s := s.setFlag (uPP p) 0x20C 27 (x.frz != 0)
  if x.frz = 0 then s
  else (s.wr (uPP p) 0x228 (w32 (2 ^ 31 + x.frz % 32 * 2 ^ 24 + x.n % 2 ^ 24))).count (uPP p) 0x22C 1

/-- A frame end stops a pipeline that was told to stop at one (R377). -/
def State.stopEnd (s : State) (p : Nat) : State :=
  let x := s.pp p
  if x.stopAt && 2 ≤ x.run then (s.setPp p { x with run := 0, stopAt := false }).finish 0x0603 (p + 16) OK else s

/-- Close the frame of pipeline p: records, marks, registers, the frozen-frame report, the pipeline's own state. -/
def State.frameClose (s : State) (l p mask linePs rate : Nat) : State :=
  let x := { s.pp p with frz := (s.pp p).frz ||| mask }
  let hold := ppHold x.desc && x.frz % 32 &&& 0x17 != 0
  let s := (s.setPp p x).frameRecords p hold linePs
  let written := oRing x.desc 4 && (let q := nth (s.pp p).outs 4 .zero; q.drops = 0 && !q.skip)
  let s := ((s.frameMarks p (s.pp p) hold).frameRegs l p linePs rate).frameFlag p x.n mask
  let y := s.pp p
  let s := s.setPp p { y with
    inFrame := false, endNs := some s.nowNs, first := false
    hist := (y.rows :: y.hist).take 8
    flick := (y.flickRows :: y.flick).take 4
    img := []
    outs := (List.range 5).map y.closeOut
    lost := if written then 0 else min (y.lost + 1) 255 }
  s.stopEnd p

/-- A frame-end short packet: mean line time and input rate as measured. -/
def State.frameEnd (s : State) (l vc hdr linePs rate : Nat) : State :=
  s.withStream l vc hdr fun _ p s =>
    let s := s.setPp p { s.pp p with drained := s.ppDrains p }
    let x := s.pp p
    if !x.inFrame then (s.stopEnd p).ppSync p
    else if x.run != 2 then ((s.setPp p { x with inFrame := false, endNs := some s.nowNs }).stopEnd p).ppSync p
    else if s.ppDown p then
      (((s.setPp p { x with inFrame := false, endNs := some s.nowNs, lost := min (x.lost + 1) 255, outs := (List.range 5).map x.closeOut }).countF
        (uPP p) 0x230 31 16 1).stopEnd p).ppSync p
    else
      (s.frameClose l p (if ppFrz x.desc then x.frameCauses else 0) linePs rate).sendSets p |>.ppSync p

def execCsi2FrameEnd (link vc hdr linePs rate : Nat) (s : State) : Out := .next (s.frameEnd (link % 8) (vc % 16) hdr linePs rate)

/-! ### Binding streams (R353, R376) -/

def VC_TAKEN : Nat := 0x0170
def PIPE_TAKEN : Nat := 0x0171
def NO_FREE_PIPE : Nat := 0x0175
def BUS_CONFLICT : Nat := 0x0176

/-- Why a value may not be written to a stream register: a status of R379, RANGE, NO_UNIT, or OK. -/
def State.streamBad (s : State) (l i : Nat) (w : Word) : Nat :=
  if !bit w 31 then OK
  else if !s.exists? (uPP (streamPipe w)) then NO_UNIT
  else if !dataTypes.contains (streamDt w) then RANGE
  else if (List.range 4).any fun k => k != i && bit (s.stream l k) 31 && streamVc (s.stream l k) = streamVc w then VC_TAKEN
  else match s.boundTo (streamPipe w) with
    | some (l', i') => if l' = l && i' = i then OK else PIPE_TAKEN
    | none => OK

/-- Store a stream register: the pipeline it named is unbound, the one it names bound. -/
def State.setStream (s : State) (l i : Nat) (w : Word) : State :=
  let old := s.stream l i
  let s := s.wr (uCL l) (0x108 + 4 * i) w
  let s := if bit old 31 && (!bit w 31 || streamPipe old != streamPipe w) then
      let p := streamPipe old
      (s.setPp p { s.pp p with inFrame := false, run := 0, stopAt := false, endNs := none, blank := none }).ppSync p
    else s
  let s := if bit w 31 then (s.ppSync (streamPipe w)).stopFailing 0x0F (streamPipe w) else s
  s.linkSync l

/-- A write to CL_STREAMi. -/
def State.streamWrite (s : State) (ini l i : Nat) (w : Word) : State :=
  s.guarded ini (uCL l) (0x108 + 4 * i) w false fun s =>
    let c := s.streamBad l i w
    if c != OK then s.accError ini (regAddr (uCL l) (0x108 + 4 * i)) (if c = RANGE then .range else if c = NO_UNIT then .notEnabled else .check)
    else s.setStream l i w

def execClStreamWrite (ini l i value : Nat) (s : State) : Out := .next (s.streamWrite ini (l % 8) (i % 4) (w32 value))

/-- A value of CL_CFG is in range: lanes of the PHY and its rate (R352, R376). -/
def clCfgOk (w : Word) : Bool :=
  let n := bits w 27 24
  let r := bits w 15 0
  !bit w 31 || (if bit w 30 then 1 ≤ n && n ≤ 3 && 160 ≤ r && r ≤ 5700 else (n = 1 || n = 2 || n = 4) && 160 ≤ r && r ≤ 4500)

/-- Store CL_CFG: setting EN starts the link afresh and is a calibration boundary (R376, R549). -/
def State.setClCfg (s : State) (l : Nat) (w : Word) : State :=
  let was := s.flag (uCL l) 0x100 31
  let s := s.wr (uCL l) 0x100 w
  if bit w 31 && !was then ((s.wr (uCL l) 0x104 0).linkSync l).calApply (calKeyOf (uCL l) 6)
  else if was && !bit w 31 then (s.setFlag (uCL l) 0x104 30 false).setFlag (uCL l) 0x104 31 false
  else s

/-- A write to CL_CFG that the link may not take. -/
def State.clCfgBad (s : State) (l : Nat) (w : Word) : Bool :=
  let old := s.rd (uCL l) 0x100
  bit old 31 && old.toNat % 2 ^ 31 != w.toNat % 2 ^ 31

/-! ### PP_CTL (R360, R377) -/

/-- The frame in progress is given up; a start that a call waits for is not made. -/
def State.stopNow (s : State) (p : Nat) : State :=
  let x := s.pp p
  let s := if x.inFrame && x.run = 2 then s.countF (uPP p) 0x230 15 0 1 else s
  let s := (s.setPp p { x with run := 0, stopAt := false, inFrame := false, outs := (List.range 5).map x.closeOut }).ppSync p
  (s.finish 0x0603 p REFUSED).finish 0x0603 (p + 16) OK

/-- An action of PP_CTL but load: whether it may be taken, and what it does. -/
def State.ppAction (s : State) (p action : Nat) : Option State :=
  let x := s.pp p
  match action with
  | 2 => if x.desc.isEmpty then none else some (((s.setPp p { x with run := if x.run = 0 then 1 else x.run, stopAt := false }).ppSync p).finish
    0x0603 (p + 16) REFUSED)
  | 3 => some ((s.setPp p { x with stopAt := x.run != 0 }).ppSync p)
  | 4 => some (s.stopNow p)
  | _ => none

/-- A write to PP_CTL. -/
def State.ppCtl (s : State) (ini p : Nat) (w : Word) : State :=
  s.guarded ini (uPP p) 0x208 w false fun s =>
    if w.toNat = 1 then (s.ppLoad p (s.clientOf ini) (s.fld (uPP p) 0x200 31 6 * 64 + 2 ^ 32 * s.fld (uPP p) 0x204 15 0)).1
    else match s.ppAction p w.toNat with
      | some t => t
      | none => s.accError ini (regAddr (uPP p) 0x208) (if w.toNat = 2 then .check else .range)

def execPpCtlLoad (ini p : Nat) (s : State) : Out := .next (s.ppCtl ini (p % 16) 1)
def execPpCtlStart (ini p : Nat) (s : State) : Out := .next (s.ppCtl ini (p % 16) 2)
def execPpCtlStop (ini p : Nat) (s : State) : Out := .next (s.ppCtl ini (p % 16) 3)
def execPpCtlStopNow (ini p : Nat) (s : State) : Out := .next (s.ppCtl ini (p % 16) 4)

/-! ### Moving a camera (R373) -/

/-- A pipeline's controller. -/
def ppPx (p : Nat) : Nat := uPX (p / 4)

/-- A pipeline may take a stream: its controller has not failed (R373). -/
def State.mayTake (s : State) (old q : Nat) : Bool :=
  let d := (s.pp old).desc
  q != old && s.exists? (uPP q) && s.ustate (uPP q) = 0 && (s.boundTo q).isNone && s.flag (uPP q) 0x218 0 &&
    s.ustate (ppPx q) != 2 &&
    (List.range 5).all fun o => !oRing d o || !oPolder d o || (match s.parcelAt (oAddr d o) with
      | some k => s.pclRights k (ppIni q) true
      | none => false)

/-- The lowest-numbered candidate in the old pipeline's group, else in the others. -/
def State.candidate (s : State) (old : Nat) : Option Nat :=
  match (List.range 16).find? fun q => q / 4 = old / 4 && s.mayTake old q with
  | some q => some q
  | none => (List.range 16).find? fun q => q / 4 != old / 4 && s.mayTake old q

/-- Stream i of link l, bound to pipeline p, has no pipeline any more (R353). -/
def State.streamLost (s : State) (p l i : Nat) (x : PpX) : State :=
  let w := s.stream l i
  let s := (s.setPp p x).wr (uCL l) (0x108 + 4 * i) (setBit w 31 false)
  let s := ((s.linkSync l).ppSync p).ppEvent p 0x0013 (l * 256 + streamVc w) p
  (if bit (s.rd uWarden 0x22C) p then (s.startFailing 0x0F p).wdReport 0x0F p 0 else s).finish 0x0607 (l * 16 + streamVc w) REFUSED

/-- The feed of pipeline p is lost, and follows to pipeline q (R122, R353). -/
def State.feedMoved (s : State) (p q : Nat) : State :=
  match s.feedOf p with
  | some e =>
    let s := match s.feedOp e with
      | some (_, i) => s.unitFault (.toe e) i fFEED_LOST
      | none => s
    (s.feedClear (.toe e)).wr (uTE e) 0x104 (w32 q)
  | none => s

/-- The sensor writes of a moved stream go on for its new pipeline. -/
def State.jobsMoved (s : State) (p q : Nat) : State :=
  (List.range 8).foldl (fun s m => if (s.jobsOf m).isEmpty then s
    else s.setJobs m ((s.jobsOf m).map fun j => if j.pp = p then { j with pp := q } else j)) s

/-- Calls that wait for pipeline p wait for q. -/
def State.callsMoved (s : State) (p q : Nat) : State :=
  { s with pendCalls := s.pendCalls.map fun c =>
      if c.num = 0x0602 && c.key = p || c.num = 0x0603 && c.key = p then { c with key := q }
      else if c.num = 0x0603 && c.key = p + 16 then { c with key := q + 16 } else c }

/-- Stream i of link l moves from pipeline p to q, which takes state y (R353). -/
def State.streamMoved (s : State) (p q l i : Nat) (y : PpX) : State :=
  let w := s.stream l i
  let s := if s.domainOff (uPP q) then s.setDom ((s.ucb (uPP q) 5).toNat % 128) true else s
  let s := ((s.setPp p .init).setPp q y).wr (uCL l) (0x108 + 4 * i) (setBits w 27 24 q)
  let s := (((((s.feedMoved p q).jobsMoved p q).callsMoved p q).linkSync l).ppSync p).ppSync q
  let s := s.ppEvent q 0x0012 (l * 256 + streamVc w) (p * 256 + q)
  (s.wdReport 0x1F q 0).finish 0x0607 (l * 16 + streamVc w) OK

/-- The stream of a pipeline moves to another, or stays unbound; the descriptor, the sets and the stream's numbers go
with it. -/
def State.moveStream (s : State) (p : Nat) (target : Option Nat) : State :=
  match s.boundTo p with
  | none => s
  | some (l, i) =>
    let x := s.pp p
    let pick := match target with
      | some q => if s.mayTake p q then some q else none
      | none => s.candidate p
    let cut := if x.inFrame && x.run = 2 then min (x.lost + 1) 255 else x.lost
    let s := if x.inFrame && x.run = 2 then s.countF (uPP p) 0x230 31 16 1 else s
    match pick with
    | none => s.streamLost p l i { x with run := 0, inFrame := false, move := none }
    | some q =>
      s.streamMoved p q l i { x with
        run := if 2 ≤ x.run then 3 else x.run
        inFrame := false, first := true, seen := 0, hist := [], flick := [], img := [], cnt0 := none, ts0 := none, lost := cut, move := none
        outs := (List.range 5).map x.closeOut }

/-- A stream moves when its pipeline goes Out, at the frame end that follows a drain, when its controller fails, or as call 0x0607 asked. -/
def State.cameraMove (s : State) (p : Nat) : State :=
  match (s.pp p).move with
  | some t => s.moveStream p t
  | none =>
    let down := s.ustate (uPP p) = 2 || s.ustate (ppPx p) = 2
    if down || (s.ppDrains p && ((s.pp p).drained || (s.pp p).run < 2)) then s.moveStream p none else s

def execCameraMove (p : Nat) (s : State) : Out := .next (s.cameraMove (p % 16))

/-! ### Registers (R376, R377) -/

/-- A write to a register of a link or pipeline with checks or effects of its own; none: an ordinary register. -/
def State.pressWrite (s : State) (ini u off : Nat) (w : Word) : Option State :=
  match unitClass u with
  | some .cl =>
    let l := u - 0xB0
    if off = 0x100 then some (s.guarded ini u off w false fun s =>
      if s.clCfgBad l w then s.accError ini (regAddr u off) .check
      else if !clCfgOk w then s.accError ini (regAddr u off) .range
      else s.setClCfg l w)
    else if 0x108 ≤ off && off < 0x118 then some (s.streamWrite ini l ((off - 0x108) / 4) w)
    else none
  | some .pp =>
    let p := u - 0xA0
    if off = 0x208 then some (s.ppCtl ini p w)
    else if off = 0x218 then some (s.guardedStore ini u off w fun s => if bit w 0 && (s.boundTo p).isSome then some .check else none)
    else if off = 0x220 then some (s.psetWrite ini p w)
    else none
  | _ => none

/-! ### Service calls (R378, R379) -/

/-- The caller is the loading client or holds rights on the unit. -/
def State.ppMay (s : State) (ini p : Nat) (write : Bool) : Bool :=
  s.fwAllows ini (regAddr (uPP p) 0) write || ((s.pp p).client.isSome && s.clientOf ini = (s.pp p).client)

/-- A call that changes a pipeline given by its unit number. -/
def State.ppCall (s : State) (ini u : Nat) (act : Nat → State → State) : State :=
  let p := u - 0xA0
  if unitClass u != some .pp then s.ret RANGE
  else if !s.exists? u then s.ret NO_UNIT
  else if !s.ppMay ini p true then s.ret DENIED
  else if s.claimed u then s.ret CLAIMED
  else act p s

/-- 0x0600. -/
def callReadLink (ini : Nat) (args : List Word) (s : State) : State :=
  let u := arg args 0
  if unitClass u != some .cl then s.ret RANGE else if !s.exists? u then s.ret NO_UNIT
  else if !s.fwAllows ini (regAddr u 0) false then s.ret DENIED
  else s.retRegs u ((List.range 11).map fun i => 0x100 + 4 * i)
def execReadLink (ini : Nat) (args : List Word) (s : State) : Out := .next (callReadLink ini args s)

/-- Check and store streams one after the other: the first status that is not OK. -/
def State.setStreams (s : State) (l : Nat) : Nat → List Word → State × Nat
  | _, [] => (s, OK)
  | i, w :: t =>
    let c := if w.toNat &&& 0x8F3F0F00 != w.toNat then RANGE else s.streamBad l i w
    if c != OK then (s, c) else (s.setStream l i w).setStreams l (i + 1) t

/-- The pipelines that a value of a stream register binds or unbinds. -/
def State.streamTouches (s : State) (l i : Nat) (w : Word) : List Nat :=
  let old := s.stream l i
  if bit old 31 = bit w 31 && streamPipe old = streamPipe w then []
  else (if bit old 31 then [streamPipe old] else []) ++ (if bit w 31 then [streamPipe w] else [])

/-- A pipeline that a list of stream values binds or unbinds is claimed (R7). -/
def State.streamsClaimed (s : State) (l : Nat) (ws : List Word) : Bool :=
  ws.zipIdx.any fun e => (s.streamTouches l e.2 e.1).any fun p => s.claimed (uPP p)

/-- 0x0601: link, CL_CFG, up to four streams. -/
def callConfigureLink (ini : Nat) (args : List Word) (s : State) : State :=
  let u := arg args 0
  let l := u - 0xB0
  let w := w32 (arg args 1)
  if unitClass u != some .cl then s.ret RANGE
  else if !s.exists? u then s.ret NO_UNIT
  else if !s.fwAllows ini (regAddr u 0) true then s.ret DENIED
  else if s.claimed u || s.streamsClaimed l ((args.drop 2).take 4) then s.ret CLAIMED
  else if w.toNat &&& 0xEF00FFFF != w.toNat || s.clCfgBad l w || !clCfgOk w then s.ret RANGE
  else match s.setStreams l 0 ((args.drop 2).take 4) with
    | (t, 0) => (t.setClCfg l w).ret OK
    | (_, c) => s.ret c
def execConfigureLink (ini : Nat) (args : List Word) (s : State) : Out := .next (callConfigureLink ini args s)

/-- 0x0602: pipeline, address. -/
def callLoadDesc (ini : Nat) (args : List Word) (s : State) : State :=
  s.ppCall ini (arg args 0) fun p s =>
    if argAddr args 1 % 64 != 0 then s.ret RANGE
    else if s.callWaits 0x0602 p then s.ret UNIT_BUSY
    else match s.ppLoad p (s.clientOf ini) (argAddr args 1) with
      | (s, none) => if (s.pp p).pend.isSome then s.retPending 0x0602 p else s.ret OK
      | (s, some (_, true)) => s.ret BUS_CONFLICT
      | (s, some (w, false)) => s.ret RANGE [w32 w]
def execLoadDescriptor (ini : Nat) (args : List Word) (s : State) : Out := .next (callLoadDesc ini args s)

/-- 0x0603: pipeline, action of PP_CTL. -/
def callStartStop (ini : Nat) (args : List Word) (s : State) : State :=
  s.ppCall ini (arg args 0) fun p s =>
    match s.ppAction p (arg args 1) with
    | none => s.ret RANGE
    | some t =>
      if s.callWaits 0x0603 (if arg args 1 = 2 then p else p + 16) then s.ret UNIT_BUSY
      else if arg args 1 = 2 && (t.pp p).run != 2 then t.retPending 0x0603 p
      else if (t.pp p).stopAt then t.retPending 0x0603 (p + 16)
      else t.ret OK
def execStartOrStopPipeline (ini : Nat) (args : List Word) (s : State) : Out := .next (callStartStop ini args s)

/-- 0x0604: pipeline, address. -/
def callPushSet (ini : Nat) (args : List Word) (s : State) : State :=
  s.ppCall ini (arg args 0) fun p s =>
    if argAddr args 1 % 64 != 0 then s.ret RANGE
    else
      let (s, st) := s.pushSet p (argAddr args 1)
      (s.setResult p st).ret st
def execPushParameterSet (ini : Nat) (args : List Word) (s : State) : Out := .next (callPushSet ini args s)

/-- 0x0605: pipeline, FLK_THRESH. -/
def callFlicker (ini : Nat) (args : List Word) (s : State) : State :=
  s.ppCall ini (arg args 0) fun p s =>
    if 0xFFFF < arg args 1 then s.ret RANGE else (s.setPp p { s.pp p with thresh := arg args 1 }).ret OK
def execSetFlickerThreshold (ini : Nat) (args : List Word) (s : State) : Out := .next (callFlicker ini args s)

/-- 0x0606: pipeline, SPARE_EN. -/
def callSetSpare (ini : Nat) (args : List Word) (s : State) : State :=
  s.ppCall ini (arg args 0) fun p s =>
    if 1 < arg args 1 then s.ret RANGE
    else if arg args 1 = 1 && (s.boundTo p).isSome then s.ret PIPE_TAKEN
    else (s.wr (uPP p) 0x218 (w32 (arg args 1))).ret OK
def execSetSpare (ini : Nat) (args : List Word) (s : State) : Out := .next (callSetSpare ini args s)

/-- 0x0607: link, virtual channel, target pipeline or 0xFF. -/
def callMoveCamera (ini : Nat) (args : List Word) (s : State) : State :=
  let u := arg args 0
  let l := u - 0xB0
  let q := arg args 2
  if unitClass u != some .cl || 15 < arg args 1 then s.ret RANGE
  else match s.streamOf l (arg args 1) with
    | none => s.ret RANGE
    | some i =>
      let p := streamPipe (s.stream l i)
      if !s.ppMay ini p true then s.ret DENIED
      else if s.claimed u || s.claimed (uPP p) then s.ret CLAIMED
      else if s.callWaits 0x0607 (l * 16 + arg args 1) then s.ret UNIT_BUSY
      else if q != 0xFF && unitClass q != some .pp then s.ret RANGE
      else if q != 0xFF && !s.exists? q then s.ret NO_UNIT
      else
        let t := if q = 0xFF then none else some (q - 0xA0)
        if ((t.or (s.candidate p)).any fun k => s.claimed (uPP k)) then s.ret CLAIMED
        else if (match t with | some k => !s.mayTake p k | none => (s.candidate p).isNone) then s.ret NO_FREE_PIPE
        else (s.setPp p { s.pp p with move := some t }).retPending 0x0607 (l * 16 + arg args 1)
def execMoveCamera (ini : Nat) (args : List Word) (s : State) : Out := .next (callMoveCamera ini args s)

/-- 0x0608. -/
def callReadPipeline (ini : Nat) (args : List Word) (s : State) : State :=
  let u := arg args 0
  if unitClass u != some .pp then s.ret RANGE else if !s.exists? u then s.ret NO_UNIT
  else if !s.ppMay ini (u - 0xA0) false then s.ret DENIED
  else s.retRegs u ((List.range 16).map fun i => 0x20C + 4 * i)
def execReadPipeline (ini : Nat) (args : List Word) (s : State) : Out := .next (callReadPipeline ini args s)

end Sys2Proof.Machine
end

