-- ==== Sys2Proof/Machine/Power.lean ====
section
/-! DEFINITION. Power states, domains, set points and the power cap (R509–R526). -/
namespace Sys2Proof.Machine

/-! ### Domains (R509, R515) -/

/-- Switch a domain on; the holder of a claim on one of its units is told (R9). -/
def State.domUp (s : State) (d : Nat) : State :=
  if s.domOn d || !s.gradeDoms.contains d then s
  else
    let s := (s.setDom d true).count uPwr 0x13C 1
    (allUnits.filter fun u => unitDomain u = some d).foldl (fun s u => s.unitEvent u) s

/-- Switch a domain off. -/
def State.domDown (s : State) (d : Nat) : State :=
  if s.domOn d then
    (allUnits.filter fun u => unitDomain u = some d).foldl (fun s u => s.unitEvent u) (s.setDom d false)
  else s

def State.domsUp (s : State) (l : List Nat) : State := l.foldl (fun s d => s.domUp d) s
def State.domsDown (s : State) (l : List Nat) : State := l.foldl (fun s d => s.domDown d) s

/-- Every bank group leaves retention, which the holder of its claim is told, and what was held completes (R9, R238). -/
def State.wakeAll (s : State) : State :=
  ((List.range 12).foldl (fun s g => if s.flag (uBG g) 0x100 31 then (s.wakeGroup g).unitEvent (uBG g) else s) s).heldGo fun _ => true

/-- Real-time work is reserved on the unit. -/
def State.carriesRt (s : State) (u : Nat) : Bool := s.isReserved u || s.reservs.any fun r => r.active && s.ctxUses r.ctx u

/-- A unit whose domain TRIM may gate is idle; a Vat whose live stream is on is not (R348, R515). -/
def State.idleUnit (s : State) (u : Nat) : Bool :=
  !s.unitBusy u && !(unitClass u = some .vat && s.flag u 0x100 31) && !s.carriesRt u && !(s.testX u).running && s.ustate u != 3

/-- The units of a Press group (R374). -/
def pressGroup (g : Nat) : List Nat := span (uPP (4 * g)) 4

/-- Gate a unit's domain that has been idle for TRIM_IDLE; a vector engine's only with every tile of its cluster. In
DOZE the Vats and the Press follow the same rule (R511, R515). -/
def State.trimIdle (s : State) (u : Nat) : State :=
  let st := s.pwrState
  let gate := fun (s : State) (us : List Nat) => match unitDomain u with
    | some d => if us.all s.idleUnit then s.domDown d else s
    | none => s
  match unitClass u with
  | some .tile => if st = 1 then gate s [u] else s
  | some .spareTile => if st = 1 then gate s [u] else s
  | some .te => if st = 1 then gate s [u] else s
  | some .ve => if st = 1 && (List.range 9).all (fun t => !s.domOn (9 * (u - 0x80) + t)) then gate s [u, uCS (u - 0x80)] else s
  | some .vat => if st = 1 || st = 2 then gate s [u] else s
  | some .pp => if st = 1 || st = 2 then gate s (uPX ((u - 0xA0) / 4) :: pressGroup ((u - 0xA0) / 4)) else s
  | _ => s

def execTrimIdleExpiry (u : Nat) (s : State) : Out := .next (s.trimIdle u)

/-- The domains that were powering up for a dispatch or a test are on; the contexts that waited for them dispatch. -/
def State.powerUpDone (s : State) : State :=
  let ds := s.pwr.powering
  let s := { s with pwr := { s.pwr with powering := [] } }.domsUp ds
  let xs := (List.range 6).flatMap (fun c => [Ctx.general c, Ctx.realTime c]) ++ (List.range 3).map Ctx.gang ++ (List.range 2).map Ctx.toe
  (xs.filter fun x => (s.ctxDoms x).any ds.contains).foldl (fun s x => s.dispatch x) s

def execDomainPowerUpDone (s : State) : Out := .next s.powerUpDone

/-- 80 ms after its last passing full test a gated tile or toe engine is powered up for its slices (R455, R515). -/
def State.testPowerUp (s : State) (u : Nat) : State :=
  let due := match (s.testX u).passAt with | some t => t + 40000000 ≤ s.gauge.ticks | none => true
  match unitDomain u with
  | some d =>
    if isTested u && s.exists? u && s.pwrState = 1 && !s.domOn d && due && !s.pwr.powering.contains d then
      { s with pwr := { s.pwr with powering := s.pwr.powering ++ [d] } }
    else s
  | none => s

def execSelfTestPowerUp (u : Nat) (s : State) : Out := .next (s.testPowerUp u)

/-! ### Entries (R512–R514, R520, R521) -/

/-- Finish the calls that wait for a power state: 1 RUN, 2 TRIM, 3 DOZE, 4 SLEEP. -/
def State.statesReached (s : State) : State := s.finish 0x0B01 (s.pwrState + 1) OK

/-- The units asked for an entry: 2 DOZE, 3 SLEEP. A Press group is asked as its first pipeline. -/
def State.askedUnits (s : State) (tgt : Nat) : List Nat :=
  allUnits.filter fun u => s.exists? u && match unitClass u with
    | some .tc => true | some .tile => true | some .spareTile => true | some .te => true | some .dc => true
    | some .bg => true | some .sched => true | some .ax => true | some .mill => true | some .warden => true
    | some .trust => true
    | some .vat => tgt = 3
    | some .pp => tgt = 3 && u % 4 = 0
    | some .mch => tgt = 3
    | _ => false

/-- A port holds traffic that its peer has not acknowledged. -/
def State.axBusy (s : State) (i : Nat) : Bool :=
  s.axState i != 0 && s.axState i != 4 && !((s.link i).replay.isEmpty && (s.link i).wait.isEmpty)

/-- A unit's answer: a reason of R516, 0 to acknowledge, none while it delays (R514). -/
def State.powerAnswer (s : State) (u tgt : Nat) (timeUp : Bool) : Option Nat :=
  let wait := fun (busy : Bool) => if busy then (if timeUp then some 6 else none) else some 0
  let work := if s.carriesRt u then some 1 else wait (s.unitBusy u)
  match unitClass u with
  | some .tc => work | some .tile => work | some .spareTile => work | some .te => work
  | some .dc => wait (s.unitBusy u || (0xCE ≤ u && !s.loads.isEmpty))
  | some .bg => wait (tgt = 2 && s.lockIn (u - 0x110))
  | some .ax => wait (tgt = 3 && s.axBusy (u - 0xE0))
  | some .mill => some (if tgt = 3 && allLoops.any s.loopEn then 3 else 0)
  | some .warden => some (if s.wdState = 1 || s.wdState = 2 then 4 else 0)
  | some .trust => some (if s.upd.isSome then 6 else 0)
  | some .vat => some (if s.unitBusy u || s.flag u 0x100 31 then 5 else 0)
  | some .pp => some (if (pressGroup ((u - 0xA0) / 4)).any s.unitBusy then 5 else 0)
  | _ => some 0

/-- The state an entry aims at. -/
def State.pwrTarget (s : State) : Nat := s.fld uPwr 0x100 28 26
def State.setPwrTarget (s : State) (t : Nat) : State := s.setFld uPwr 0x100 28 26 t

/-- Start an entry into DOZE or SLEEP: dispatch stops and every unit concerned is asked. -/
def State.startEntry (s : State) (tgt : Nat) : State :=
  let old := s.pwrState
  let s := (s.setPwrState 4).setPwrTarget tgt
  let s := if old ≤ 1 then s.setFld uPwr 0x100 25 23 old else s
  { s with pwr := { s.pwr with waiting := s.askedUnits tgt, began := s.gauge.ticks, wake := none, left := old, slept := [] } }

/-- Abandon an entry: units return to their former condition, dispatch resumes, the refusal is recorded. -/
def State.abandon (s : State) (reason u : Nat) : State :=
  let tgt := s.pwrTarget
  let s := (s.pwrRefuse tgt reason u).setPwrState s.pwr.left
  let s := s.setPwrTarget s.pwr.left
  let slept := s.pwr.slept
  let woken := s.pwr.wake
  let s : State := { s with pwr := { s.pwr with waiting := [], slept := [], wake := none } }
  let s := slept.foldl (fun s g => (s.setFlag (uBG g) 0x100 30 true).lateWake g) s
  let s := s.finish 0x0B01 (tgt + 1) REFUSED
  match woken with
  | some (src, w) => if 2 ≤ s.pwrState then s.startExit src w else s
  | none => s

/-- A unit answers, or goes on delaying. -/
def State.unitAnswers (s : State) (u : Nat) (timeUp : Bool) : State :=
  if s.pwrState != 4 || !s.pwr.waiting.contains u then s
  else
    let tgt := s.pwrTarget
    match s.powerAnswer u tgt timeUp with
    | none => s
    | some 0 =>
      let s : State := { s with pwr := { s.pwr with waiting := s.pwr.waiting.filter (· != u) } }
      match unitClass u with
      | some .bg =>
        let g := u - 0x110
        if tgt = 2 && !s.flag u 0x100 31 then
          let s := s.retain g
          { s with pwr := { s.pwr with slept := s.pwr.slept ++ [g] } }
        else s
      | some .sched => if tgt = 3 then s.qcache.foldl (fun s x => s.writeBack x) s else s
      | _ => s
    | some r => s.abandon r u

def execPowerAnswer (u : Nat) (timeUp : Bool) (s : State) : Out := .next (s.unitAnswers u timeUp)

/-- A unit gives no answer within its declared delay (R514, R572). -/
def State.noAnswer (s : State) (u : Nat) : State :=
  if s.pwrState != 4 || !s.pwr.waiting.contains u then s
  else (s.recordFault fNO_ANSWER u 0x4A noQueue 0 0 0 0 oNone).abandon 7 u

def execPowerAnswerTimeout (u : Nat) (s : State) : Out := .next (s.noAnswer u)

/-- What SLEEP switches off: rows' contents, the ports, every domain (R238, R313, R521). -/
def State.sleepOff (s : State) : State :=
  let s := (List.range 4).foldl (fun s i => if s.exists? (uAX i) && s.axState i != 4 then (s.setAxState i 0).unitEvent (uAX i) else s) s
  let s := (List.range 12).foldl (fun s g =>
    if s.exists? (uBG g) then (s.setFlag (uBG g) 0x100 31 true).unitEvent (uBG g) else s) s
  let s := (s.domsDown (List.range 80)).emit .rails 0 [0]
  let s := s.voidMem 0 0x10000000
  { s with rows := s.rows.map fun e => (e.1, if e.2.dead then e.2 else { e.2 with poisoned := false }) }

/-- Every unit has acknowledged: domains go off, the state is recorded; a wake that came meanwhile is taken at once. -/
def State.entryDone (s : State) : State :=
  if s.pwrState != 4 || !s.pwr.waiting.isEmpty then s
  else
    let tgt := s.pwrTarget
    let old := s.pwr.left
    let s := if tgt = 3 then s.sleepOff else s.domsDown (List.range 62)
    let s := (s.setPwrState tgt).wr uPwr 0x140 (w32 (2 * (s.gauge.ticks - s.pwr.began)))
    let s := (s.postPower old tgt).statesReached
    match s.pwr.wake with
    | none => s
    | some (src, u) => (s.count uPwr 0x14C 1).startExit src u

def execPowerEntryDone (s : State) : Out := .next s.entryDone

/-! ### Wakes and exits (R513, R517–R521) -/

/-- A wake source of R518 fires; a CAN controller's and a CSI-2 link's only while it is enabled. -/
def State.wakeSource (s : State) (src u : Nat) : State :=
  let there := match src with
    | 3 => unitClass u = some .cn && s.flag u 0x100 31
    | 5 => unitClass u = some .cl && s.flag u 0x100 31
    | _ => true
  if src = 0 || 8 < src || !there then s else s.wake src u

def execWake (src u : Nat) (s : State) : Out := .next (s.wakeSource src u)

/-- Tell every valid client (R255). -/
def State.marksLost (s : State) : State := s.postAll 0x000A uMarks 0 0 s.validClients

/-- What firmware and the scheduler restore at the exit from SLEEP or OFF: marks read 0, credits are full, landing parcels
LOST, queues go on from their saved descriptors (R238, R255, R513). -/
def State.restore (s : State) : State :=
  let s : State := ({ s with marks := [] } : State).marksLost
  let s := s.validParcels.foldl (fun (s : State) p =>
    let s := (s.setFld (uBG 0) (pclOff p + 12) 18 0 (s.pclSize p * 64)).setPclX p { s.pclX p with taken := 0, zeroing := none }
    if s.pclKind p = 1 then s.setFlag (uBG 0) (pclOff p) 28 true else s) s
  let s := (s.calApply fun k => k % 65536 / 4096 = 3).unitEvent (uBG 0)
  let s := (List.range 4).foldl (fun (s : State) i =>
    if s.exists? (uAX i) && s.flag (uAX i) 0x104 0 && s.axState i = 0 then ((s.setAxState i 5).emit .axWake i []).unitEvent (uAX i) else s) s
  let s : State := { s with qcache := s.qcache.map fun y =>
    { y with entry := none, held := false, prefetched := false, readyAt := none, store := [] } }
  let s := (s.qcache.map (·.id)).foldl (fun (s : State) q =>
    let ws := s.rdWs (s.qAddr q) 16
    let s := s.updSlot q fun y => { y with words := ws }
    s.readNow q) s
  s.cacheSync.vtSync

/-- Move between RUN and TRIM: RUN has every enabled domain and every group on (R511). -/
def State.moveTo (s : State) (t : Nat) : State :=
  let old := s.pwrState
  if old = t then s.statesReached
  else
    let s := if t = 0 then (s.domsUp s.gradeDoms).wakeAll else s
    (((s.setPwrState t).setPwrTarget t).postPower old t).statesReached

/-- The exit sequence has ended: the device is in the state that the entry left, then in the one a request named. -/
def State.exitDone (s : State) : State :=
  if s.pwrState != 5 then s
  else
    let left := s.pwr.left
    let back := s.fld uPwr 0x100 25 23
    let want := s.pwrTarget
    let s := s.domsUp (s.gradeDoms.filter fun d => left = 3 || d < 62)
    let s := (if left = 3 then s.restore else s).wakeAll
    let s := ((s.setPwrState back).setPwrTarget back).wr uPwr 0x144 (w32 (2 * (s.gauge.ticks - s.pwr.began)))
    let s := (s.postPower left back).statesReached
    if want ≤ 1 then s.moveTo want else s

def execPowerExitDone (s : State) : Out := .next s.exitDone

/-! ### Requests for a state (R512, R525, R526) -/

/-- A request for RUN (0), TRIM (1), DOZE (2) or SLEEP (3) can be taken now; none, when it is rejected. -/
def State.goState (s : State) (t : Nat) : Option State :=
  let st := s.pwrState
  if st = 4 || st = 5 then none
  else if st = t then some s.statesReached
  else if t ≤ 1 then
    if st ≤ 1 then some (s.moveTo t) else some ((s.setPwrTarget t).wake 9 uPwr)
  else if st = 3 then none
  else some (s.startEntry t)

/-- A write to PWR_CMD. -/
def State.pwrCmd (s : State) (ini t : Nat) : State :=
  s.guarded ini uPwr 0x104 (w32 (t + 1)) false fun s =>
    match s.goState t with
    | some s => s
    | none => s.accError ini (regAddr uPwr 0x104) .check

def execPwrCmdRun (ini : Nat) (s : State) : Out := .next (s.pwrCmd ini 0)
def execPwrCmdTrim (ini : Nat) (s : State) : Out := .next (s.pwrCmd ini 1)
def execPwrCmdDoze (ini : Nat) (s : State) : Out := .next (s.pwrCmd ini 2)
def execPwrCmdSleep (ini : Nat) (s : State) : Out := .next (s.pwrCmd ini 3)

/-! ### Set points and the cap (R522–R524, R589) -/

/-- Calls that wait for VCORE_SET to be in force. -/
def State.pointReached (s : State) : State := if s.setpoint = s.wantPoint then s.finish 0x0B02 uPwr OK else s

/-- A write to VCORE_SET. -/
def State.vcoreWrite (s : State) (ini : Nat) (v : Word) : State :=
  s.guarded ini uPwr 0x10C v false fun s =>
    if v.toNat < s.floorOf then s.accError ini (regAddr uPwr 0x10C) .check
    else (s.wr uPwr 0x10C v).startStep.pointReached

def execVcoreSetWrite (ini value : Nat) (s : State) : Out := .next (s.vcoreWrite ini (w32 value))

/-- 0, or why a cap is not taken: out of range, below the rated power at FLOOR. -/
def State.capBad (s : State) (w : Nat) : Nat :=
  if w < ratedPower s.part 0 || ratedPower s.part 5 < w then RANGE
  else if w < ratedPower s.part s.floorOf then REFUSED else OK

/-- A write to CAP_W. -/
def State.capWrite (s : State) (ini : Nat) (v : Word) : State :=
  s.guarded ini uPwr 0x110 v false fun s =>
    match s.capBad v.toNat with
    | 0 => (s.wr uPwr 0x110 v).startStep.pointReached
    | 1 => s.accError ini (regAddr uPwr 0x110) .range
    | _ => s.accError ini (regAddr uPwr 0x110) .check

def execCapWWrite (ini value : Nat) (s : State) : Out := .next (s.capWrite ini (w32 value))

/-- A step of VDD_CORE ends. A NACK or an alert during it leaves the lower of the two set points, is recorded as RAIL, and
no further step starts until the next request (R522, R589). -/
def State.stepDone (s : State) (ok : Bool) : State :=
  match s.pwr.step with
  | none => s
  | some t =>
    let s : State := { s with pwr := { s.pwr with step := none } }
    if ok then ((s.setFld uPwr 0x100 22 20 t).startStep).pointReached
    else (s.setFld uPwr 0x100 22 20 (min t s.setpoint)).recordFault fRAIL uPwr 0x4A noQueue 0 0 0 0 oNone

def execSetpointStepDone (ok : Bool) (s : State) : Out := .next (s.stepDone ok)

/-- Move the cap controller's set point. -/
def State.capStep (s : State) (v : Nat) : State :=
  if s.pwr.own = v then s else { s with pwr := { s.pwr with own := v } }.count uPwr 0x118 1

/-- A 1 ms window ends with an estimate in units of 0.1 W. -/
def State.windowEnd (s : State) (est : Nat) : State :=
  let est := est % 65536
  let s := s.wr uPwr 0x114 (w32 est)
  if 10 * s.capW < est then
    let s : State := { s with pwr := { s.pwr with below := 0 } }
    if s.setpoint ≤ s.floorOf then
      let s := s.setFlag uPwr 0x100 16 true
      let post := match s.pwr.lastCap with | none => true | some t => t + 50000000 ≤ s.gauge.ticks
      if post then { s with pwr := { s.pwr with lastCap := some s.gauge.ticks } }.postAll 0x0051 uPwr est s.setpoint s.routedClients else s
    else ((s.setFlag uPwr 0x100 16 false).capStep (s.pwr.own - 1)).startStep
  else
    let s := s.setFlag uPwr 0x100 16 false
    if est < 10 * (s.capW - 5) then
      if 10 ≤ s.pwr.below + 1 then ({ s with pwr := { s.pwr with below := 0 } }.capStep (min 5 (s.pwr.own + 1))).startStep
      else { s with pwr := { s.pwr with below := s.pwr.below + 1 } }
    else { s with pwr := { s.pwr with below := 0 } }

def execPowerWindowEnd (est : Nat) (s : State) : Out := .next (s.windowEnd est)

/-! ### Service calls (R526) -/

/-- An earlier call's PENDING change of PWR is in progress (R502). -/
def State.pwrBusy (s : State) : Bool := s.pendCalls.any fun c => (c.num = 0x0B01 || c.num = 0x0B02) && c.fin.isNone

def callPowerStatus (s : State) : State :=
  s.ret OK (s.rds uPwr [0x100, 0x114, 0x130, 0x134, 0x138, 0x120, 0x124, 0x128])
def execReadPowerStatus (_ : Nat) (_ : List Word) (s : State) : Out := .next (callPowerStatus s)

/-- 0x0B01: 1 RUN, 2 TRIM, 3 DOZE, 4 SLEEP. -/
def callRequestPower (args : List Word) (s : State) : State :=
  let a := arg args 0
  if a = 0 || 4 < a then s.ret RANGE
  else if s.claimed uPwr then s.ret CLAIMED
  else if s.pwrBusy then s.ret UNIT_BUSY
  else
    let p := s.retPending 0x0B01 a
    match p.goState (a - 1) with
    | none => s.ret UNIT_BUSY
    | some t => if t.pwrState = a - 1 && s.pwrState ≤ 1 then { t with pendCalls := s.pendCalls }.ret OK else t
def execRequestState (_ : Nat) (args : List Word) (s : State) : Out := .next (callRequestPower args s)

/-- 0x0B02: OK when the set point needs no change, else PENDING until it is in force. -/
def callSetPoint (args : List Word) (s : State) : State :=
  let v := arg args 0
  if 5 < v then s.ret RANGE
  else if s.claimed uPwr then s.ret CLAIMED
  else if s.pwrBusy then s.ret UNIT_BUSY
  else if v < s.floorOf then s.ret REFUSED [8]
  else
    let s := (s.wr uPwr 0x10C (w32 v)).startStep
    if s.setpoint = s.wantPoint then s.ret OK else s.retPending 0x0B02 uPwr
def execSetVddCoreSetPoint (_ : Nat) (args : List Word) (s : State) : Out := .next (callSetPoint args s)

/-- 0x0B03. -/
def callSetCap (args : List Word) (s : State) : State :=
  let w := arg args 0
  match s.capBad w with
  | 1 => s.ret RANGE
  | r =>
    if s.claimed uPwr then s.ret CLAIMED
    else if s.pwrBusy then s.ret UNIT_BUSY
    else if r != OK then s.ret REFUSED [1]
    else ((s.wr uPwr 0x110 (w32 w)).startStep.pointReached).ret OK
def execSetPowerCap (_ : Nat) (args : List Word) (s : State) : Out := .next (callSetCap args s)

/-- Store an option of PWR. -/
def callPwrStore (off most least : Nat) (args : List Word) (s : State) : State :=
  let v := arg args 0
  if v < least || most < v then s.ret RANGE
  else if s.claimed uPwr then s.ret CLAIMED
  else (s.wr uPwr off (w32 v)).ret OK

/-- 0x0B04. -/
def callSetWake (args : List Word) (s : State) : State := callPwrStore 0x11C 0x1FF 0 args s
def execSetWakeSources (_ : Nat) (args : List Word) (s : State) : Out := .next (callSetWake args s)
/-- 0x0B05. -/
def callTrimIdle (args : List Word) (s : State) : State := callPwrStore 0x12C 65535 1 args s
def execSetTrimIdle (_ : Nat) (args : List Word) (s : State) : Out := .next (callTrimIdle args s)
/-- 0x0B06. -/
def callPowerCounters (s : State) : State := s.retRegs uPwr [0x118, 0x13C, 0x148, 0x14C, 0x140, 0x144]
def execReadPowerCounters (_ : Nat) (_ : List Word) (s : State) : Out := .next (callPowerCounters s)

end Sys2Proof.Machine
end

