-- ==== Sys2Proof/Machine/Ports.lean ====
section
/-! DEFINITION. The PCIe endpoint, MSI-X, function resets, translation control, SDIO resets, GPIOs (R485–R500, R504–R507,
R584). -/
namespace Sys2Proof.Machine

/-! ### MSI-X and functions (R488–R490) -/

/-- The function exists: the PF, or a VF that is enabled. -/
def State.vfOn (s : State) (n : Nat) : Bool := n = 0 || s.flag uPcie (0x204 + 8 * (n - 1)) 31

/-- Send the pending messages of a function that are unmasked while it may master. -/
def State.sendPending (s : State) (n : Nat) : State :=
  if !s.busMaster n then s
  else (List.range 2048).foldl (fun (s : State) v =>
    if s.vecOwner v = n then
      let (u, off) := s.vecEntry v
      let (pu, po, pb) := s.vecPba v
      if s.flag pu po pb && !s.flag u (off + 12) 0 then (s.setFlag pu po pb false).sendMsix v else s
    else s) s

/-- The pool vector of entry i of a function's table, when it owns one. -/
def State.entryVec (s : State) (n i : Nat) : Option Nat :=
  if n = 0 then (if i < 2048 && s.vecOwner i = 0 then some i else none)
  else if i < s.fld uPcie (0x200 + 8 * (n - 1)) 7 0 then some (s.fld uPcie (0x200 + 8 * (n - 1)) 26 16 + i) else none

/-- Store dword k of entry i of a function's table, and send what became sendable. -/
def State.msixStore (s : State) (n i k : Nat) (v : Word) : State :=
  match s.entryVec n i with
  | none => s
  | some vec =>
    let (u, off) := s.vecEntry vec
    let s := s.store u (off + 4 * k) v
    let (pu, po, pb) := s.vecPba vec
    if s.flag pu po pb && !s.flag u (off + 12) 0 && s.busMaster n then (s.setFlag pu po pb false).sendMsix vec else s

/-- A write to a table: the PF's lies in the PCIE block, a VF's in its page. -/
def State.msixWrite (s : State) (ini n i k : Nat) (v : Word) : State :=
  if n = 0 then s.guarded ini uPcie (0x8000 + 16 * i + 4 * k) v false fun s => s.msixStore 0 i k v
  else match findRow (wVf n) (0x1000 + 16 * i + 4 * k) with
    | none => s
    | some r => if (r.bad v).isSome || ini != 0x100 + n then s.count uPcie 0x118 1 else s.msixStore n i k v

def execMsixEntryWrite (ini n i k value : Nat) (s : State) : Out := .next (s.msixWrite ini (n % 33) (i % 2048) (k % 4) (w32 value))

/-- A doorbell on a VF page. -/
def State.vfDoorbell (s : State) (n : Nat) (v : Word) : State :=
  let q := bits v 19 0
  if bits v 31 20 != 0 then s.accError (0x100 + n) (0x400) .reserved
  else match s.queueClient q with
    | some c =>
      if s.clientValid c && s.covers c (0x100 + n) then s.guarded (0x100 + n) uSched 0x20C v true fun s => s.doorbell q
      else s.count (wVf n) 0x408 1
    | none => s.count (wVf n) 0x408 1

def execVfDoorbell (n value : Nat) (s : State) : Out := .next (if n % 33 = 0 then s else s.vfDoorbell (n % 33) (w32 value))

/-- Bus Master Enable of a function, set by the host (R490, R504). -/
def State.setBusMaster (s : State) (n : Nat) (on : Bool) : State :=
  let s := if n = 0 then { s with pfBusMaster := on } else s.setFlag uPcie (0x204 + 8 * (n - 1)) 29 on
  if on then s.sendPending n else s

/-- VF Enable with a number of VFs, set by the host (R485, R488, R504). -/
def State.setVfs (s : State) (k : Nat) : State :=
  let k := min k 32
  let s := (s.setFlag uPcie 0x100 16 (k != 0)).setFld uPcie 0x100 5 0 k
  (span 1 32).foldl (fun (s : State) n =>
    let s := s.setFlag uPcie (0x204 + 8 * (n - 1)) 31 (n ≤ k)
    let s := if n ≤ k then s else s.setFlag uPcie (0x204 + 8 * (n - 1)) 29 false
    (s.setFlag (wVf n) 0x404 31 (n ≤ k)).setFld (wVf n) 0x404 7 0 (s.fld uPcie (0x200 + 8 * (n - 1)) 7 0)) s

/-! ### Function resets and the link (R9, R490–R492) -/

/-- Halt every queue, real-time ones apart, whose client covers an initiator (R261, R491). -/
def State.haltCovered (s : State) (ini : Nat) : State :=
  let cov := fun (d : List Word) => !qRT d && s.clientValid (qClient d) && s.covers (qClient d) ini
  let cached := (s.qcache.filter fun y => cov y.words && !qHalted y.words).map (·.id)
  let loose := s.looseQueues fun d => cov d && !qHalted d
  loose.foldl (fun (s : State) q => s.haltStored q 2) (cached.foldl (fun (s : State) q => s.haltQueue q 2) s)

/-- End every command stalled on translation in a context that uses a function (R491). -/
def State.abortFn (s : State) (n : Nat) : State :=
  (s.ctxs.filter fun r => r.xlStalled && s.fld (wXl (s.runQ r).1) 0x114 5 0 = n).foldl
    (fun (s : State) r => s.failRun r.ctx fHOST_ABORT r.pos) s

/-- Clear a function's table entries to masked and its pending bits. -/
def State.maskAll (s : State) (n : Nat) : State :=
  let clr := fun (s : State) (v : Nat) =>
    let (u, off) := s.vecEntry v
    let (pu, po, pb) := s.vecPba v
    ((((s.wr u off 0).wr u (off + 4) 0).wr u (off + 8) 0).wr u (off + 12) 1).setFlag pu po pb false
  if n = 0 then (List.range 2048).foldl (fun (s : State) v => if s.vecOwner v = 0 then clr s v else s) s
  else (span (s.fld uPcie (0x200 + 8 * (n - 1)) 26 16) (s.fld uPcie (0x200 + 8 * (n - 1)) 7 0)).foldl clr s

/-- The steps of R491 for one function; its Bus Master Enable is cleared. -/
def State.fnReset (s : State) (n : Nat) : State :=
  let s : State := if s.flag (wChan n) 4 31 then { s with mbDiscard := n :: s.mbDiscard.filter (· != n) } else s
  let s := s.dropClaims (0x100 + n)
  let s := (s.abortFn n).haltCovered (0x100 + n)
  (s.maskAll n).setBusMaster n false

/-- The functions that a reset of the PF, or the link's loss, reaches: every one. -/
def State.allFnReset (s : State) : State := ((List.range 33).foldl (fun (s : State) n => s.fnReset n) s).setVfs 0

def execFunctionLevelReset (n : Nat) (s : State) : Out := .next (if n % 33 = 0 then s.allFnReset else s.fnReset (n % 33))

/-- HOST_LINK (event 0x0041). -/
def State.hostLink (s : State) (up : Bool) : State := s.postAll 0x0041 uPcie (b2n up) (s.rd uPcie 0x100).toNat s.routedClients

/-- Hot reset, PERST_N or the link's loss; the LTSSM's state code is free. -/
def State.linkLost (s : State) : State :=
  let was := s.linkUp
  let s := if was then s.countF uPcie 0x114 15 0 1 else s
  let (w, s) := s.fresh
  let s := s.wr uPcie 0x100 (w32 (w.toNat / 2 ^ 18 % 64 * 2 ^ 18))
  let s := s.allFnReset
  if was then s.hostLink false else s

def execPcieLinkDown (s : State) : Out := .next s.linkLost

/-- The link trains, within PCIE_CFG's limits. -/
def State.linkTrained (s : State) (speed width : Nat) : State :=
  if !s.flag uPcie 0x104 31 || s.linkUp then s
  else
    let sp := max 1 (min speed (s.fld uPcie 0x104 30 28))
    let wd := ([8, 4, 2].find? fun w => w ≤ width && w ≤ s.fld uPcie 0x104 27 24).getD 1
    let (w, s) := s.fresh
    let keep := (s.rd uPcie 0x100).toNat % 2 ^ 17
    let s := s.wr uPcie 0x100 (w32 (2 ^ 31 + sp * 2 ^ 28 + wd * 2 ^ 24 + w.toNat / 2 ^ 18 % 64 * 2 ^ 18 + 2 ^ 17 + keep))
    (s.calApply (calKeyOf uPcie 4)).hostLink true

def execPcieLinkUp (speed width : Nat) (s : State) : Out := .next (s.linkTrained speed width)

/-! ### VF vectors and the window (R489, R504, R507) -/

def VECTORS_FULL : Nat := 0x01B4

/-- A VF's range overlaps another's or passes the pool. -/
def State.vecClash (s : State) (n first count : Nat) : Bool :=
  2048 < first + count || (span 1 32).any fun m =>
    m != n && (let f := s.fld uPcie (0x200 + 8 * (m - 1)) 26 16; let c := s.fld uPcie (0x200 + 8 * (m - 1)) 7 0
      first < f + c && f < first + count)

/-- Give a VF its range. -/
def State.setVec (s : State) (n first count : Nat) : State :=
  (s.wr uPcie (0x200 + 8 * (n - 1)) (w32 (first * 2 ^ 16 + count))).setFld (wVf n) 0x404 7 0 count

/-- LW_BASE's largest value: the reachable capacity in GiB minus 4. -/
def lwMost (p : Part) : Nat := reachable p / 2 ^ 30 - 4

/-- Writes of the PCIE block with checks of their own. -/
def State.pcieWrite (s : State) (ini off : Nat) (v : Word) : Option State :=
  if off = 0x108 then
    some (s.guardedStore ini uPcie off v fun s => if lwMost s.part < v.toNat then some .range else none)
  else if off = 0x104 then
    some (s.guardedStore ini uPcie off v fun _ => if [1, 2, 4, 8].contains (bits v 27 24) then none else some .range)
  else if 0x200 ≤ off && off < 0x300 && off % 8 = 0 then
    let n := (off - 0x200) / 8 + 1
    some (s.guarded ini uPcie off v false fun s =>
      if s.flag uPcie 0x100 16 || s.vecClash n (bits v 26 16) (bits v 7 0) then s.accError ini (regAddr uPcie off) .check
      else s.setVec n (bits v 26 16) (bits v 7 0))
  else if 0x8000 ≤ off then some (s.msixWrite ini 0 ((off - 0x8000) / 16) (off % 16 / 4) v)
  else none

/-- 0x0A00. -/
def callPcieStatus (s : State) : State := s.retRegs uPcie [0x100, 0x104, 0x108, 0x10C, 0x110, 0x114, 0x118]
def execReadPcieStatus (_ : Nat) (_ : List Word) (s : State) : Out := .next (callPcieStatus s)

/-- 0x0A01: VF, VF_FIRST, VF_COUNT. -/
def callSetVectors (args : List Word) (s : State) : State :=
  let n := arg args 0
  if n = 0 || 32 < n || 2047 < arg args 1 || 128 < arg args 2 then s.ret RANGE
  else if s.claimed uPcie then s.ret CLAIMED
  else if s.flag uPcie 0x100 16 then s.ret REFUSED [4]
  else if s.vecClash n (arg args 1) (arg args 2) then s.ret VECTORS_FULL
  else (s.setVec n (arg args 1) (arg args 2)).ret OK
def execSetVfVectors (_ : Nat) (args : List Word) (s : State) : Out := .next (callSetVectors args s)

/-- 0x0A06. -/
def callSdioStatus (s : State) : State := s.retRegs uSdio [0x100, 0x104, 0x108]
def execReadSdioStatus (_ : Nat) (_ : List Word) (s : State) : Out := .next (callSdioStatus s)

/-- 0x0A07. -/
def callSetWindow (args : List Word) (s : State) : State :=
  if lwMost s.part < arg args 0 then s.ret RANGE
  else if s.claimed uPcie then s.ret CLAIMED
  else (s.wr uPcie 0x108 (w32 (arg args 0))).ret OK
def execSetLpddr4xWindow (_ : Nat) (args : List Word) (s : State) : Out := .next (callSetWindow args s)

/-! ### Translation control (R493–R497, R506, R507) -/

/-- A command of the client's queues, or a Vat job of the client, runs (R493). -/
def State.clientRuns (s : State) (c : Nat) : Bool :=
  s.ctxs.any (fun r => (s.runQ r).1 = c) || (List.range 2).any fun v =>
    match (s.vat v).job with | some j => j.client = c | none => false

/-- A page walk finishes: the translation is held, or the fault is recorded. -/
def execTranslationWalkDone (client : Nat) (mem : Bool) (input : Nat) (write : Bool) (s : State) : Out :=
  .next (s.translate (client % 4096) mem (input % 2 ^ 40) write).1

/-- A held translation that an invalidation covers. -/
def covered (r : Bool × Bool × Nat × Nat × Nat) (t : TlbEntry) : Bool :=
  let (all, mem, c, base, pages) := r
  t.memRoot = mem && (all || t.client = c) &&
    (pages = 0 || (t.input < (base + pages) * 4096 && base * 4096 < t.input + t.size))

/-- Start an invalidation. -/
def State.invalStart (s : State) (r : Bool × Bool × Nat × Nat × Nat) : State :=
  { s with xlInval := some r }.setFlag uXlate 0x124 31 true

/-- A write to XL_INVAL with GO; one while BUSY is rejected. -/
def State.invalGo (s : State) (ini : Nat) (v : Word) : State :=
  s.guarded ini uXlate 0x118 v false fun s =>
    if !bit v 31 then s
    else if s.xlInval.isSome then s.accError ini (regAddr uXlate 0x118) .check
    else s.invalStart (bit v 30, bit v 29, bits v 11 0, s.fld uXlate 0x11C 27 0, (s.rd uXlate 0x120).toNat)

def execXlInvalGo (ini value : Nat) (s : State) : Out := .next (s.invalGo ini (setBit (w32 value) 31 true))

/-- Every access that used a covered translation has completed: the covered translations go, BUSY clears. -/
def State.invalDone (s : State) : State :=
  match s.xlInval with
  | none => s
  | some r =>
    let s : State := { s with tlb := s.tlb.filter fun t => !covered r t, xlInval := none }
    (s.setFlag uXlate 0x124 31 false).finish 0x0A03 uXlate OK

def execXlInvalidationDone (s : State) : Out := .next s.invalDone

/-- The block that a register of XLATE lies in: the context registers belong to the client that XL_CTX_SEL shows. -/
def State.xlBlock (s : State) (off : Nat) : Nat := if 0x104 ≤ off && off ≤ 0x114 then wXl (s.fld uXlate 0x100 11 0) else uXlate

/-- Writes of the XLATE block with effects of their own. -/
def State.xlateWrite (s : State) (ini off : Nat) (v : Word) : Option State :=
  if off = 0x118 then some (s.invalGo ini v)
  else if 0x104 ≤ off && off ≤ 0x114 then
    some (s.guarded ini uXlate off v false fun s =>
      if s.clientRuns (s.fld uXlate 0x100 11 0) then s.accError ini (regAddr uXlate off) .check
      else s.wr (s.xlBlock off) off v)
  else none

/-- The caller is the client named (R507). -/
def State.isClient (s : State) (ini c : Nat) : Bool := s.clientOf ini = some c

/-- A root as two words in the layout of XL_ROOT_HOST_LO and _HI. -/
def rootBad (args : List Word) (i : Nat) : Bool := bits (nth args i 0) 12 1 != 0 || 2 ^ 16 ≤ arg args (i + 1)

/-- 0x0A02: client, HOST root, MEM root (two words each, EN in bit 0), FUNC. -/
def callSetContext (ini : Nat) (args : List Word) (s : State) : State :=
  let c := arg args 0
  if 4095 < c || rootBad args 1 || rootBad args 3 || 32 < arg args 5 then s.ret RANGE
  else if !s.isClient ini c then s.ret DENIED
  else if s.claimed uXlate then s.ret CLAIMED
  else if s.clientRuns c then s.ret QUEUE_RUNNING
  else
    let s := (List.range 5).foldl (fun (s : State) i => s.wr (wXl c) (0x104 + 4 * i) (nth args (1 + i) 0)) s
    s.ret OK
def execSetTranslationContext (ini : Nat) (args : List Word) (s : State) : Out := .next (callSetContext ini args s)

/-- 0x0A03: client (0xFFFFFFFF: all), root (0 HOST, 1 MEM), base page, pages. -/
def callInvalidate (ini : Nat) (args : List Word) (s : State) : State :=
  let all := arg args 0 = 2 ^ 32 - 1
  if (!all && 4095 < arg args 0) || 1 < arg args 1 || 2 ^ 28 ≤ arg args 2 then s.ret RANGE
  else if !all && !s.isClient ini (arg args 0) then s.ret DENIED
  else if s.claimed uXlate then s.ret CLAIMED
  else if s.xlInval.isSome then s.ret UNIT_BUSY
  else (s.invalStart (all, arg args 1 = 1, arg args 0, arg args 2, arg args 3)).retPending 0x0A03 uXlate
def execInvalidateTranslations (ini : Nat) (args : List Word) (s : State) : Out := .next (callInvalidate ini args s)

/-- 0x0A04. -/
def callXlFault (s : State) : State := s.retRegs uXlate [0x128, 0x12C, 0x130, 0x134]
def execReadTranslationFault (_ : Nat) (_ : List Word) (s : State) : Out := .next (callXlFault s)

/-- Where an access would land, with nothing recorded: the cause, the output, the page size. -/
def State.peek (s : State) (c : Nat) (mem : Bool) (input : Nat) (write : Bool) : Nat × Nat × Nat :=
  match s.tlb.find? fun t => t.client = c && t.memRoot = mem && t.input ≤ input && input < t.input + t.size with
  | some t => (if write then (if t.w then 0 else xlNoWrite) else if t.r then 0 else xlNoRead, t.output + (input - t.input), t.size)
  | none =>
    let w := s.walk c mem input write
    (w.cause, w.output + (input - w.input), w.size)

/-- 0x0A05: client, device address, 0 read or 1 write. -/
def callTranslate (ini : Nat) (args : List Word) (s : State) : State :=
  let c := arg args 0
  let a := argAddr args 1
  if 4095 < c || 2 ^ 16 ≤ arg args 2 || 1 < arg args 3 then s.ret RANGE
  else if !s.isClient ini c then s.ret DENIED
  else
    let go := fun (mem : Bool) (input base : Nat) =>
      let (f, o, n) := s.peek c mem input (arg args 3 = 1)
      if f = 0 then s.ret OK (addrWords (base + o) ++ [w32 n]) else s.ret XLATE_FAULT [w32 f]
    match regionOf s.part a with
    | .host => go false (a - 0x10000000000) 0
    | .lpddr => go true (a - 0x100000000) 0
    | _ => s.ret RANGE
def execTranslate (ini : Nat) (args : List Word) (s : State) : Out := .next (callTranslate ini args s)

/-! ### SDIO resets (R9, R498, R505) -/

/-- A reset of function 1 or 2 through the CIA, or (0) CMD0, which resets both. -/
def State.sdioReset (s : State) (fn : Nat) : State :=
  let s := s.countF uSdio 0x108 15 0 1
  match fn with
  | 1 => (s.dropClaims 0x180).setFlag uSdio 0x100 26 false
  | 2 => (s.dropClaims 0x181).setFlag uSdio 0x100 25 false
  | _ => ((s.dropClaims 0x180).dropClaims 0x181).setFld uSdio 0x100 30 25 0

def execSdioFunctionReset (fn : Nat) (s : State) : Out := .next (s.sdioReset (fn % 3))

/-! ### GPIOs (R584) -/

/-- The GPIOs that an initiator owns, as a mask. -/
def State.gpioMine (s : State) (ini : Nat) : Nat :=
  (List.range 32).foldl (fun a g =>
    let w := s.rd uDevctl (0x214 + 4 * g)
    a + if bit w 31 && idCovers (bits w 9 0) (bits w 25 16) ini then 2 ^ g else 0) 0

/-- A write that would change the bits of m of a GPIO register: every one is the writer's, or the writer holds the claim
on DEVCTL; else it is rejected whole. -/
def State.gpioWrite (s : State) (ini off : Nat) (v : Word) (m : State → Nat) (act : State → State) : State :=
  s.guarded ini uDevctl off v true fun s =>
    let bad := m s - (m s &&& s.gpioMine ini)
    if bad = 0 || (match s.claimOn uDevctl with | some c => c.ini = ini | none => false) then act s
    else
      let g := (lowest 32 fun g => bad / 2 ^ g % 2 = 1).getD 0
      (s.wr uDevctl 0x298 (w32 (2 ^ 31 + ini % 2 ^ 10 * 2 ^ 16 + g))).accError ini (regAddr uDevctl off) .check

def State.gpioOut (s : State) : Nat := (s.rd uDevctl 0x204).toNat

def State.gpioSet (s : State) (ini : Nat) (v : Word) : State :=
  s.gpioWrite ini 0x20C v (fun s => v.toNat - (v.toNat &&& s.gpioOut)) fun s => s.wr uDevctl 0x204 (w32 (s.gpioOut ||| v.toNat))
def State.gpioClr (s : State) (ini : Nat) (v : Word) : State :=
  s.gpioWrite ini 0x210 v (fun s => v.toNat &&& s.gpioOut) fun s => s.wr uDevctl 0x204 (w32 (s.gpioOut - (v.toNat &&& s.gpioOut)))

def execGpioSetWrite (ini value : Nat) (s : State) : Out := .next (s.gpioSet ini (w32 value))
def execGpioClrWrite (ini value : Nat) (s : State) : Out := .next (s.gpioClr ini (w32 value))

/-- Writes of DEVCTL's pin registers. -/
def State.gpioHook (s : State) (ini off : Nat) (v : Word) : Option State :=
  if off = 0x200 || off = 0x204 then
    some (s.gpioWrite ini off v (fun s => (s.rd uDevctl off).toNat ^^^ v.toNat) fun s => s.wr uDevctl off v)
  else if off = 0x20C then some (s.gpioSet ini v)
  else if off = 0x210 then some (s.gpioClr ini v)
  else none

/-- GPIO_IN: an output reads what it drives, the level at an input ball is free. -/
def State.gpioIn (s : State) : Word × State :=
  let d := (s.rd uDevctl 0x200).toNat
  let (w, s) := s.fresh
  (w32 ((s.gpioOut &&& d) + (w.toNat - (w.toNat &&& d))), s)

/-- 0x001B: masks SET, CLR, DIR, for the caller's own GPIOs; a bit both set and cleared is free. -/
def callSetGpio (ini : Nat) (args : List Word) (s : State) : State :=
  let m := s.gpioMine ini
  let set := arg args 0 &&& m
  let clr := arg args 1 &&& m
  let (w, s) := s.fresh
  let both := set &&& clr
  let out := s.gpioOut ||| set
  let out := out - (out &&& clr) + (w.toNat &&& both)
  let dir := (s.rd uDevctl 0x200).toNat
  if s.claimed uDevctl then s.ret CLAIMED
  else ((s.wr uDevctl 0x204 (w32 out)).wr uDevctl 0x200 (w32 (dir - (dir &&& m) + (arg args 2 &&& m)))).ret OK
def execSetGpio (ini : Nat) (args : List Word) (s : State) : Out := .next (callSetGpio ini args s)

/-- 0x001C: GPIO_IN and GPIO_OUT of the caller's own GPIOs. -/
def callReadGpio (ini : Nat) (s : State) : State :=
  let m := s.gpioMine ini
  let (w, s) := s.gpioIn
  s.ret OK [w32 (w.toNat &&& m), w32 (s.gpioOut &&& m)]
def execReadGpio (ini : Nat) (_ : List Word) (s : State) : Out := .next (callReadGpio ini s)

/-- 0x001D: GPIO, GPIO_OWNER word. -/
def callGpioOwner (args : List Word) (s : State) : State :=
  if 31 < arg args 0 || arg args 1 &&& 0x83FF03FF != arg args 1 then s.ret RANGE
  else if s.claimed uDevctl then s.ret CLAIMED
  else (s.wr uDevctl (0x214 + 4 * arg args 0) (nth args 1 0)).ret OK
def execSetGpioOwner (_ : Nat) (args : List Word) (s : State) : Out := .next (callGpioOwner args s)

end Sys2Proof.Machine
end

