-- ==== Sys2Proof/Machine/FaultRows.lean ====
section
/-! DEFINITION. Faults that units report, watchdogs, takeovers, the environment, the fault manager's calls (R555–R576, R589). -/
namespace Sys2Proof.Machine

/-! ### Detection (R555, R558, R560, R562, R563, R566) -/

/-- A Polder row that an uncorrectable error reaches is poisoned (R235, R562). -/
def State.poisonRow (s : State) (a : Nat) : State :=
  if a < 0x10000000 then
    let k := s.rowKey (a / 64 * 64)
    s.setRowX k { s.rowX k with poisoned := true }
  else s

/-- A processor is forced Out, as its kind requires (R409, R421, R566, R569). -/
def State.procOut (s : State) (u : Nat) : State :=
  match unitClass u with
  | some .wp => if s.wpRuns (u - 0x18E) then s.pairFail (u - 0x18E) else s
  | _ => s.forceOut u

/-- A fault that a running command met: its record, unless it is the second meeting of a retried fault; the command's end. A
fault met after the first is recorded only. -/
def State.commandFault (s : State) (r : CtxRun) (u code addr d0 d1 : Nat) : State :=
  let put := fun (s : State) (o : Nat) => s.recordFault code u (ctxIni r.ctx) r.queue (eSeq r.entry) addr d0 d1 o
  if r.ended then put s oNone
  else
    let same := match s.slot r.queue with
      | some y => (match y.retried with | some (_, c, v) => c = code && v = u | none => false)
      | none => false
    let (s, n) := if same then (s.setUcb u 10 (countBits (s.ucb u 10) 15 0 1), none)
      else
        let s := put s (if finalCode code then oNone else oPending)
        (s, some (s.recordOf code u addr))
    (s.updRun r.ctx fun y => { y with faultUnit := some u, faultRec := n }).failRun r.ctx code r.pos

/-- A fault that ended no command: its record and what its code asks for. -/
def State.unitFaultSeen (s : State) (u code addr d0 d1 : Nat) : State :=
  if code = fPROC_FAULT && unitClass u = some .mc then s.coreFault (u - 0x18A) none
  else
    let s := s.recordFault code u 0x4A noQueue 0 addr d0 d1 (if finalCode code then oNone else oPending)
    if code = fPROC_FAULT then s.procOut u
    else if code = fSEQ_UE && u = uSched then s.qinvalAll
    else if code = fREFCLK && u = uPcie then s.linkLost
    else if code = fREFCLK && unitClass u = some .ax then
      let (w, s) := s.fresh
      (List.range 4).foldl (fun (s : State) i =>
        if s.exists? (uAX i) && s.axState i != 0 then s.portLost i (w.toNat % 8) else s) s
    else s

/-- A tile, the spare among them. -/
def isTile (u : Nat) : Bool := unitClass u = some .tile || unitClass u = some .spareTile

/-- A unit reports a fault of a code of R556 (0: a corrected error), with the address concerned or 0, and the context whose
command met it. -/
def State.detect (s : State) (u code addr d0 d1 : Nat) (x : Option Ctx) : State :=
  if !s.exists? u then s
  else if code = 0 then
    (match s.injected u 0 with
    | (_, 0) => (s.injected u 2).1
    | (t, _) => t).corrected u 1
  else if !faultCodes.contains code then s
  else
    let (s, inj) := if faultClass code = 2 || code = fPROC_FAULT then s.injected u 1 else (s, 0)
    let d1 := d1 % 2 ^ 31 + inj
    let s := if faultClass code = 2 && (addr != 0 || code = fPOLDER_UE) then s.poisonRow addr else s
    let s := if code = fSTAGE_UE && isTile u then s.countF u 0x118 15 0 1
      else if code = fVE_RF_UE && unitClass u = some .ve then s.countF u 0x124 15 0 1
      else if code = fLPDDR_UE then s.count uFault 0x13C 1
      else if code = fPOLDER_UE then s.countF (uBG (s.groupOf (bankOf addr))) 0x138 15 0 1 else s
    match x.bind s.run with
    | some r => if faultClass code = 2 || faultClass code = 3 then s.commandFault r u code addr d0 d1 else s.unitFaultSeen u code addr d0 d1
    | none => s.unitFaultSeen u code addr d0 d1

def execFaultDetected (unit code addr d0 d1 : Nat) (x : Option Ctx) (s : State) : Out := .next (s.detect unit code addr d0 d1 x)

/-! ### Watchdogs and takeovers (R28, R569, R572) -/

/-- A processor misses its kick: MP, SP, CS, PX. -/
def State.procBite (s : State) (u : Nat) : State :=
  if s.ustate u = 2 then s
  else match unitClass u with
    | some .mp | some .sp | some .cs | some .px =>
      let (s, inj) := s.injected u 3
      (s.recordFault fPROC_WATCHDOG u 0x4A noQueue 0 0 0 inj oNone).forceOut u
    | _ => s

def execProcWatchdogBite (u : Nat) (s : State) : Out := .next (s.procBite u)

/-- The standby management processor takes the active role. -/
def State.mpTakeover (s : State) : State :=
  if s.ustate (uMP s.mpActive) != 0 && s.ustate (uMP (1 - s.mpActive)) = 0 then { s with mpActive := 1 - s.mpActive } else s

def execMpTakeover (s : State) : Out := .next s.mpTakeover

/-- The other scheduler processor serves every queue: dispatch goes on. -/
def execSpTakeover (s : State) : Out := .next { s with spPause := false }

/-! ### The environment (R570, R571, R589) -/

/-- The fault manager writes FORCE_SAFE. -/
def State.forceSafe (s : State) : State := s.wdCmdWrite 0x4A 2

/-- The junction limit of the suffix, in 1/16 °C (R4). -/
def junction (p : Part) : Int := if p.suffixX then 125 * 16 else 110 * 16

/-- A sensor is at a limit now and was not at the sample before. -/
def newlyAt (lim : Int) (old new : List Int) : Bool :=
  (List.range 24).any fun i => lim ≤ nth new i (-1000) && !(lim ≤ nth old i (-1000))

/-- The hottest sensor, the lowest of several, and its temperature. -/
def hottest (l : List Int) : Nat × Int :=
  ((l.take 24).zipIdx).foldl (fun (a : Nat × Int) (t, i) => if a.2 < t then (i, t) else a) (0, l.headD 0)

/-- 1 ms averages of the 24 sensors. -/
def State.tempSample (s : State) (l : List Int) : State :=
  if l.isEmpty then s
  else
    let old := s.temps
    let (i, t) := hottest l
    let s : State := { s with temps := l.take 24 }
    let s := s.calApply fun k => k / 65536 = 0 && k % 65536 / 4096 = 1
    let s := s.wr uFault 0x130 (w32 (i * 2 ^ 20 + (t % 65536).toNat))
    let s := if newlyAt (junction s.part) old l then (s.recordFault fTEMP_WARN uFault 0x4A noQueue 0 0 0 0 oNone).pwrAlarm else s
    if newlyAt (junction s.part + 160) old l then (s.recordFault fTEMP_TRIP uFault 0x4A noQueue 0 0 0 0 oNone).forceSafe else s

def execTempSample (temps : List Int) (s : State) : Out := .next (s.tempSample temps)

/-- RAIL on VDD_CORE or VDD_MEM leads to FORCE_SAFE but during a set-point or a state change. -/
def State.railFault (s : State) (rail : Nat) : State :=
  let s := s.recordFault fRAIL uPwr 0x4A noQueue 0 0 0 0 oNone
  if rail ≤ 1 && s.pwr.step.isNone && s.pwrState ≤ 3 then s.forceSafe else s

/-- A rail (0 VDD_CORE to 6 VDD_IO) has been out of range for 2 µs, or is back in it. -/
def State.railOut (s : State) (rail : Nat) (back : Bool) : State :=
  if 6 < rail then s
  else
    let s := s.setFlag uFault 0x134 rail (!back)
    if back then s else s.railFault rail

def execRailOutOfRange (rail : Nat) (back : Bool) (s : State) : Out := .next (s.railOut rail back)

/-- PMBUS_ALERT_N held low records RAIL for VDD_CORE; during a change it leaves the lower set point. -/
def execPmbusAlert (s : State) : Out :=
  .next (if s.pwr.step.isSome then s.stepDone false else s.railFault 0)

/-- The hour window ends (R561, R573). -/
def State.hourEnd (s : State) : State :=
  let us := s.health.map (·.1)
  (us.foldl (fun (s : State) u => s.setHealthX u { s.healthX u with trans := 0, ce := 0, atLimit := false }) s).fltSync

def execTransientWindowEnd (s : State) : Out := .next s.hourEnd

/-- A scrub of a memory channel: errors corrected, addresses of bursts that could not be (R567). -/
def State.lpScrub (s : State) (m ce : Nat) (ues : List Nat) : State :=
  let u := uMCH (m % 24)
  if !s.exists? u then s
  else
    let s := if ce = 0 then s else s.corrected u ce
    ues.foldl (fun (s : State) a => (s.count uFault 0x13C 1).recordFault fLPDDR_UE u 0x4B noQueue 0 a 0 0 oNone) s

def execLpddrScrub (m ce : Nat) (ues : List Nat) (s : State) : Out := .next (s.lpScrub m ce ues)

/-! ### Registers and calls (R573–R576) -/

/-- HEALTH of a unit; with no record the record's number is free. -/
def State.healthWord (s : State) (u : Nat) : Word × State :=
  let (w, s) := s.fresh
  let n := match s.faults.find? fun r => recUnit r = u with | some r => recNum r | none => w.toNat
  (w32 (s.healthOf u 2 * 2 ^ 30 + min 255 (s.healthX u).trans * 2 ^ 16 + n % 2 ^ 16), s)

/-- A record's words; 0 when it is no longer held. -/
def State.recordWords (s : State) (n : Nat) : List Word :=
  match s.faults.find? (recNum · = n) with
  | some r => (List.range 16).map fun k => nth r k 0
  | none => List.replicate 16 0

/-- 0x0D00. -/
def callFaultStatus (s : State) : State := s.ret OK (s.rds uFault [0x100, 0x10C, 0x110, 0x130, 0x134])
def execReadFaultStatus (_ : Nat) (_ : List Word) (s : State) : Out := .next (callFaultStatus s)

/-- 0x0D01: first record number, count of at most 8. -/
def callFaultRecords (args : List Word) (s : State) : State :=
  if 8 < arg args 1 then s.ret RANGE
  else s.ret OK ((span (arg args 0) (arg args 1)).flatMap fun n => s.recordWords (n % 2 ^ 32))
def execReadFaultRecords (_ : Nat) (args : List Word) (s : State) : Out := .next (callFaultRecords args s)

/-- 0x0D02. -/
def callAckRecords (args : List Word) (s : State) : State :=
  if s.claimed uFault then s.ret CLAIMED else (s.wr uFault 0x110 (nth args 0 0)).ret OK
def execAcknowledgeRecords (_ : Nat) (args : List Word) (s : State) : Out := .next (callAckRecords args s)

/-- 0x0D03: CMD_RETRY, TRANSIENT_LIMIT, FLT_CLIENT. -/
def callFaultOptions (args : List Word) (s : State) : State :=
  if 1 < arg args 0 || arg args 1 = 0 || 255 < arg args 1 || 4095 < arg args 2 then s.ret RANGE
  else if s.claimed uFault then s.ret CLAIMED
  else ((s.wr uFault 0x104 (w32 (arg args 0 * 2 ^ 31 + arg args 1 * 2 ^ 8))).wr uFault 0x108 (nth args 2 0)).ret OK
def execSetFaultOptions (_ : Nat) (args : List Word) (s : State) : Out := .next (callFaultOptions args s)

/-- 0x0D04: HEALTH and the unit's latest three record numbers; where it has fewer, the words are free. -/
def callUnitHealth (args : List Word) (s : State) : State :=
  let u := arg args 0
  if !s.exists? u then s.ret NO_UNIT
  else
    let (h, s) := s.healthWord u
    let (a, s) := s.fresh
    let (b, s) := s.fresh
    let (c, s) := s.fresh
    s.ret OK (h :: (((s.faults.filter fun r => recUnit r = u).map fun r => w32 (recNum r)) ++ [a, b, c]).take 3)
def execReadUnitHealth (_ : Nat) (args : List Word) (s : State) : Out := .next (callUnitHealth args s)

/-- Free, bound and standing-in spares of T8, the rows, the banks (R91, R235, R236, R568). -/
def State.sparesOf (s : State) : List (Nat × Nat × Nat) :=
  let cs := (List.range 6).filter fun c => s.exists? (uTile c 8)
  let stand := cs.filter fun c => bit (s.ucb (uTile c 8) 6) 30
  let bound := cs.filter fun c => !bit (s.ucb (uTile c 8) 6) 30 && s.spareFree c
  let used := s.spareRows.foldl (fun a e => a + e.2) 0
  [(cs.length - stand.length - bound.length, bound.length, stand.length), (528 * 32 - used, 0, used),
    (16 - s.copies.length - s.bankMap.length, s.copies.length, s.bankMap.length)]

/-- Free spares of the other kinds of R568, in its order: Mill core, Warden pair, MP, SP, lanes and ports, pipelines,
oscillator. -/
def State.freeOthers (s : State) : List Nat :=
  [b2n !(s.flag uMill 0x204 8), b2n s.standbySynced, b2n (s.ustate (uMP (1 - s.mpActive)) = 0),
    b2n (s.flag uSched 0x200 31 && s.flag uSched 0x200 30),
    ((List.range 4).map fun i => (s.goodLanes i 255).length - s.fld (uAX i) 0x100 28 25).foldl (· + ·) 0,
    ((List.range 16).filter fun p => s.flag (uPP p) 0x20C 27 && !s.flag (uPP p) 0x20C 29).length, b2n !(s.flag uGauge 0x100 29)]

/-- 0x0D05: free, bound, standing in for each kind of R568; the last two of the later kinds are free values. -/
def callSpares (s : State) : State :=
  let first := s.sparesOf.flatMap fun t => [w32 t.1, w32 t.2.1, w32 t.2.2]
  let (rest, s) := s.freeOthers.foldl (fun (a : List Word × State) n =>
    let (x, t) := a.2.fresh
    let (y, t) := t.fresh
    (a.1 ++ [w32 n, x, y], t)) ([], s)
  s.ret OK (first ++ rest)
def execReadSpares (_ : Nat) (_ : List Word) (s : State) : Out := .next (callSpares s)

def INJECT_REFUSED : Nat := 0x01D0

/-- 0x0D06: unit; kind (0 single-bit, 1 double-bit, 2 CRC, 3 missed kick); domain of R566 or link. -/
def callInject (ini : Nat) (args : List Word) (s : State) : State :=
  let u := arg args 0
  if !s.exists? u then s.ret NO_UNIT
  else if 3 < arg args 1 || 7 < arg args 2 then s.ret RANGE
  else if (s.wdState != 0 && s.wdState != 4) || (ini != 0x100 && ini != 0x180) then s.ret INJECT_REFUSED
  else { s.ret OK with inject := s.inject ++ [(u, arg args 1, arg args 2)] }
def execInjectFault (ini : Nat) (args : List Word) (s : State) : Out := .next (callInject ini args s)

/-- 0x0D07. -/
def callFaultCounters (s : State) : State := s.retRegs uFault [0x118, 0x11C, 0x120, 0x124, 0x138, 0x13C]
def execReadFaultCounters (_ : Nat) (_ : List Word) (s : State) : Out := .next (callFaultCounters s)

end Sys2Proof.Machine
end

