-- ==== Sys2Proof/Machine/TrustCore.lean ====
section
/-! DEFINITION. Images and their verification, the fuses, the boot flash, calibration sets (R527–R535, R542, R547–R551). -/
namespace Sys2Proof.Machine

def SIG_FAIL : Nat := 0x01C0
def KEY_REVOKED : Nat := 0x01C1
def ROLLBACK : Nat := 0x01C2
def WRONG_IMAGE : Nat := 0x01C3
def UPDATE_BUSY : Nat := 0x01C4
def NO_CONSENT : Nat := 0x01C5
def OTP_SET : Nat := 0x01C6
def FLASH_ERROR : Nat := 0x01C7
def IN_GANG : Nat := 0x01C8
def UCAL_NO_KEY : Nat := 0x01C9

/-! ### Images (R527–R529, R542) -/

/-- A kind's first processor, their number, its body limit. -/
def kindRow : Nat → Option (Nat × Nat × Nat)
  | 1 => some (0x180, 2, 0x200000) | 2 => some (0x182, 2, 0x80000) | 3 => some (0x184, 6, 0x40000)
  | 4 => some (0x18A, 4, 0x80000) | 5 => some (0x18E, 2, 0x100000) | 6 => some (0x190, 4, 0x40000)
  | _ => none

/-- The processor of a kind and index. -/
def kindUnit (k i : Nat) : Option Nat :=
  match kindRow k with | some (u, n, _) => if i < n then some (u + i) else none | none => none
/-- A processor's kind and index. -/
def unitKind (u : Nat) : Nat × Nat :=
  match (span 1 6).find? fun k => (match kindRow k with | some (v, n, _) => v ≤ u && u < v + n | none => false) with
  | some k => (k, u - (match kindRow k with | some (v, _, _) => v | none => 0))
  | none => (0, 0)

def imgKind (d : List Byte) : Nat := imgN d 5 1
def imgDebug (d : List Byte) : Bool := imgN d 6 1 % 2 = 1
def imgSlot (d : List Byte) : Nat := imgN d 9 1 % 4
def imgVer (d : List Byte) : Nat := imgN d 0xC 4
def imgSet (d : List Byte) : Nat := imgN d 0x10 3
def imgSvn (d : List Byte) : Nat := imgN d 0x14 2
def imgBody (d : List Byte) : Nat := imgN d 0x18 4
def part? (d : List Byte) (off n : Nat) : List Byte := (d.drop off).take n
def allZero (d : List Byte) (lo hi : Nat) : Bool := (part? d lo (hi - lo)).all (· = 0)

/-- MAGIC, version, kind, stepping, reserved fields and size are as R527 and R542 require. -/
def headerFits (d : List Byte) : Bool :=
  imgN d 0 4 = 0x4D495747 && imgN d 4 1 = 1 && imgN d 6 2 / 2 = 0 && imgN d 8 1 = 0xB1 && imgN d 9 3 / 4 = 0 &&
    imgN d 0x13 1 = 0 && allZero d 0x1C 0x40 && allZero d 0x156D 0x2000 &&
    (match kindRow (imgKind d) with
    | some (_, _, most) => 1 ≤ imgBody d && imgBody d ≤ most && d.length = 0x2000 + imgBody d
    | none => false)

/-- The OTP counter of a kind 1–7. -/
def State.svn (s : State) (k : Nat) : Nat := nth s.otpSvn (k - 1) 0
def State.revoked (s : State) (slot : Nat) : Bool := s.otpRevoke / 2 ^ slot % 2 = 1

def ascii (l : List Nat) : List Byte := l.map fun n => BitVec.ofNat 8 n

/-- The verify routine: OK, or the first failing check's status and cause. -/
def State.verify (s : State) (d : List Byte) : Nat × Nat :=
  if !headerFits d then (WRONG_IMAGE, 0)
  else if imgDebug d && !s.devLock then (OK, 0)
  else
    let ed := part? d 0x80 32
    let ml := part? d 0xA0 1952
    let msg := part? d 0 0x840
    if sha3 (ed ++ ml) != (List.range 32).map (Config.rootHash (imgSlot d)) then (SIG_FAIL, 1)
    else if s.revoked (imgSlot d) then (KEY_REVOKED, 0)
    else if sha512 (part? d 0x2000 (imgBody d)) != part? d 0x40 64 then (SIG_FAIL, 2)
    else if !Config.edVerify ed msg (part? d 0x840 64) then (SIG_FAIL, 3)
    else if !Config.mldsaVerify (ascii [0x47, 0x57, 0x49, 0x4D]) ml msg (part? d 0x880 3309) then (SIG_FAIL, 4)
    else if imgSvn d < s.svn (imgKind d) then (ROLLBACK, 0)
    else (OK, 0)

/-- Verify an image and count a refusal. -/
def State.check (s : State) (d : List Byte) : State × Nat × Nat :=
  let (st, c) := s.verify d
  (if st = OK then s else s.count uTrust 0x11C 1, st, c)

/-- A status with the cause that SIG_FAIL carries (R554). -/
def State.retVerify (s : State) (st cause : Nat) : State := s.ret st (if st = SIG_FAIL then [w32 cause] else [])

/-- Put an image into a processor's code store. -/
def State.setImage (s : State) (u : Nat) (d : List Byte) : State :=
  { s with images := SMap.set (fun _ => []) u d s.images }.setUcb u 3 (w32 (imgVer d))

/-! ### The boot flash (R533–R535) -/

/-- The 64 KiB units of the flash: the 32 MiB that R533 asks for. -/
def flashUnits : Nat := 512

def State.flashByte (s : State) (a : Nat) : Byte := SMap.get (fun _ => 0xFF) a s.flash
def State.flashBytes (s : State) (a n : Nat) : List Byte := (List.range n).map fun i => s.flashByte (a + i)
def State.flashWrite (s : State) (a : Nat) : List Byte → State
  | [] => s
  | b :: t => ({ s with flash := SMap.set (fun _ => 0xFF) a b s.flash } : State).flashWrite (a + 1) t

/-- The extent of an entry, in units. -/
def extent (e : List Byte) : Nat × Nat := (imgN e 4 4, ceilDiv (imgN e 8 4) 65536)

/-- The valid entries of a copy, with their index. -/
def entriesOf (c : List Byte) : List (Nat × List Byte) :=
  ((List.range (min 64 (imgN c 8 4))).map fun i => (i, part? c (0x40 + 64 * i) 64)).filter fun e => imgN e.2 2 1 % 2 = 1

/-- MAGIC and CRC are right, and each entry names an extent of its own inside the image area. -/
def copyValid (c : List Byte) : Bool :=
  let es := entriesOf c
  imgN c 0 4 = 0x54435747 && imgN c 8 4 ≤ 64 && imgN c 0x3C 4 = crc32 (part? c 0 0x3C ++ c.drop 0x40) &&
    es.all fun e =>
      let (a, n) := extent e.2
      1 ≤ n && 8 ≤ a && a + n ≤ flashUnits && es.all fun f =>
        f.1 = e.1 || (let (b, m) := extent f.2; a + n ≤ b || b + m ≤ a)

def State.copy (s : State) (c : Nat) : List Byte := s.flashBytes (c * 0x10000) 0x10000

/-- The copy in force, of the valid ones that with the greater GEN. -/
def State.copyInForce (s : State) : Option (Nat × List Byte) :=
  let a := s.copy 0
  let b := s.copy 1
  match copyValid a, copyValid b with
  | true, true => if markGe (imgN b 4 4) (imgN a 4 4) then some (1, b) else some (0, a)
  | true, false => some (0, a)
  | false, true => some (1, b)
  | false, false => none

/-- The entries of the catalogue in force. -/
def State.catalogue (s : State) : List (Nat × List Byte) := match s.copyInForce with | some (_, c) => entriesOf c | none => []
/-- The catalogue's entry for a processor. -/
def State.catEntry (s : State) (k i : Nat) : Option (Nat × List Byte) :=
  s.catalogue.find? fun e => imgN e.2 0 1 = k && imgN e.2 1 1 = i
/-- The image of an entry. -/
def State.catImage (s : State) (e : List Byte) : List Byte := s.flashBytes (imgN e 4 4 * 65536) (imgN e 8 4)

/-- FLASH_STATUS and FLASH_GEN. -/
def State.flashSync (s : State) : State :=
  let a := copyValid (s.copy 0)
  let b := copyValid (s.copy 1)
  let used := (s.catalogue.map fun e => (extent e.2).2).foldl (· + ·) 0
  let (f, g) := match s.copyInForce with | some (c, d) => (c, imgN d 4 4) | none => (0, 0)
  (s.wr uTrust 0x124 (w32 (b2n a * 2 ^ 31 + b2n b * 2 ^ 30 + f * 2 ^ 29 + (flashUnits - 8 - used)))).wr uTrust 0x128 (w32 g)

/-- A catalogue copy of a generation and entries. -/
def makeCopy (gen : Nat) (es : List (List Byte)) : List Byte :=
  let head := natBytes 4 0x54435747 ++ natBytes 4 gen ++ natBytes 4 es.length ++ List.replicate 48 0
  let body := es.flatten ++ List.replicate (0x10000 - 0x40 - 64 * es.length) 0xFF
  head ++ natBytes 4 (crc32 (head ++ body)) ++ body

/-- The first free units that hold n in a row. -/
def State.freeUnits (s : State) (n : Nat) : Option Nat :=
  let ex := s.catalogue.map fun e => extent e.2
  (span 8 (flashUnits - 8)).find? fun a => a + n ≤ flashUnits && ex.all fun (b, m) => a + n ≤ b || b + m ≤ a

/-- Whether a flash write fails is the flash's matter: free. -/
def State.flashFails (s : State) : State × Bool :=
  let (k, s) := s.freshNat 2
  if k = 1 then (s.count uTrust 0x12C 1, true) else (s, false)

/-- Commit an image for a processor: the new image, then the other copy, then the old units are free. -/
def State.flashCommit (s : State) (u : Nat) (d : List Byte) : State × Bool :=
  let (k, i) := unitKind u
  let (s, bad) := s.flashFails
  match bad, s.freeUnits (ceilDiv d.length 65536) with
  | false, some a =>
    let e := natBytes 4 (k + i * 256 + 65536) ++ natBytes 4 a ++ natBytes 4 d.length ++ natBytes 4 (imgVer d) ++
      natBytes 4 (imgSet d) ++ natBytes 4 (imgSvn d) ++ List.replicate 8 0 ++ sha3 d
    let keep := (s.catalogue.filter fun f => !(imgN f.2 0 1 = k && imgN f.2 1 1 = i)).map (·.2)
    let (c, gen) := match s.copyInForce with | some (c, x) => (1 - c, (imgN x 4 4 + 1) % 2 ^ 32) | none => (0, 1)
    let s := s.flashWrite (a * 65536) d
    ((s.flashWrite (c * 0x10000) (makeCopy gen (keep ++ [e]))).flashSync, true)
  | false, none => (s.count uTrust 0x12C 1, false)
  | true, _ => (s, false)

/-! ### Identity (R547) -/

def secretBytes : List Byte := (List.range 32).map Config.deviceSecret
def edSeed : List Byte := sha3 (ascii [0x47, 0x57, 0x49, 0x44, 0x2D, 0x45, 0x44] ++ secretBytes)
def mldsaSeed : List Byte := sha3 (ascii [0x47, 0x57, 0x49, 0x44, 0x2D, 0x4D, 0x4C, 0x44, 0x53, 0x41] ++ secretBytes)
/-- DEVICE_ID. -/
def deviceId : List Byte :=
  sha3 ((List.range 32).map (Config.edPublic edSeed) ++ (List.range 1952).map (Config.mldsaPublic mldsaSeed))

/-! ### Calibration sets (R549–R551) -/

def calCount (d : List Byte) : Nat := imgN d 6 2
def calSeq (d : List Byte) : Nat := imgN d 8 4
def calLen (d : List Byte) : Nat := 0x40 + 8 * calCount d + 32 + 1952 + 64 + 3309
/-- Entry i: unit, PARAM, DELTA. -/
def calEntry (d : List Byte) (i : Nat) : Nat × Nat × Nat :=
  (imgN d (0x40 + 8 * i) 2 % 8192, imgN d (0x42 + 8 * i) 2, imgN d (0x44 + 8 * i) 2)

/-- The first entry with a reserved bit set or a delta out of its range. -/
def calBad (d : List Byte) : Option Nat :=
  (List.range (calCount d)).find? fun i =>
    let (u, p, v) := calEntry d i
    let x := sext 16 v
    imgN d (0x40 + 8 * i) 2 / 8192 != 0 || imgN d (0x46 + 8 * i) 2 != 0 || x < Config.calLeast u p || Config.calMost u p < x

/-- Whether a set is accepted: OK, or a status and the cause of SIG_FAIL or the index of the first bad entry. -/
def State.calVerify (s : State) (d : List Byte) : Nat × Nat :=
  match s.otpUcal with
  | none => (UCAL_NO_KEY, 0)
  | some h =>
    let n := 0x40 + 8 * calCount d
    let ed := part? d n 32
    let ml := part? d (n + 32) 1952
    let msg := part? d 0 (n + 32 + 1952)
    if imgN d 0 4 != 0x43555747 || imgN d 4 2 != 1 || 1024 < calCount d || d.length != calLen d || !allZero d 0x30 0x40 then
      (WRONG_IMAGE, 0)
    else if sha3 (ed ++ ml) != h then (SIG_FAIL, 1)
    else if !Config.edVerify ed msg (part? d (n + 1984) 64) then (SIG_FAIL, 3)
    else if !Config.mldsaVerify (ascii [0x47, 0x57, 0x55, 0x43]) ml msg (part? d (n + 2048) 3309) then (SIG_FAIL, 4)
    else if part? d 0x10 32 != deviceId then (WRONG_IMAGE, 0)
    else if imgN d 0xC 4 < s.svn 7 || (!s.calBytes.isEmpty && calSeq d ≤ calSeq s.calBytes) then (ROLLBACK, 0)
    else match calBad d with
      | some i => (RANGE, i)
      | none => (OK, 0)

/-- The deltas of a set by unit × 65536 + PARAM. -/
def calDeltas (d : List Byte) : List (Nat × Nat) :=
  (List.range (calCount d)).foldl (fun l i =>
    let (u, p, v) := calEntry d i
    SMap.set (fun _ => 0) (u * 65536 + p) v l) []

/-- A set is accepted: it replaces the one before; the sensors' offsets take effect at once. -/
def State.calAccept (s : State) (d : List Byte) : State :=
  let s : State := { s with calBytes := d, calSet := calDeltas d }
  let s := (s.setFlag uTrust 0x120 31 true).setFld uTrust 0x120 15 0 (calSeq d % 65536)
  s.calApply fun k => k % 65536 / 4096 = 1

/-- The user calibration copies of the flash: the older of them. -/
def State.calCopy (s : State) (c : Nat) : List Byte :=
  let a := 0x20000 + c * 0x10000
  s.flashBytes a (calLen (s.flashBytes a 0x40))
def State.olderCal (s : State) : Nat :=
  let ok := fun c => imgN (s.flashBytes (0x20000 + c * 0x10000) 4) 0 4 = 0x43555747
  if !ok 0 then 0 else if !ok 1 then 1 else if calSeq (s.calCopy 0) ≤ calSeq (s.calCopy 1) then 0 else 1

/-! ### TRUST's registers (R552) -/

def State.trustSync (s : State) : State :=
  let keep := s.fld uTrust 0x100 29 27
  let v := b2n s.devLock * 2 ^ 31 + b2n s.otpUcal.isSome * 2 ^ 30 + keep * 2 ^ 27 + b2n s.upd.isSome * 2 ^ 26 + s.otpRevoke * 2 ^ 20 +
    s.boot.mode * 2 ^ 18
  let byte := fun i => min 255 (s.svn i) * 2 ^ (8 * ((i - 1) % 4))
  ((s.wr uTrust 0x100 (w32 v)).wr uTrust 0x10C (w32 (byte 1 + byte 2 + byte 3 + byte 4))).wr uTrust 0x110 (w32 (byte 5 + byte 6 + byte 7))

end Sys2Proof.Machine
end

