-- ==== Sys2Proof/Machine/Trust.lean ====
section
/-! DEFINITION. Reset and boot, live update, the trust block's service calls (R39, R527–R554, R570, R587, R588). -/
namespace Sys2Proof.Machine

/-! ### Reset (R219, R446, R588) -/

/-- What is left after a reset or a loss of supply: the OTP, the flash and what lies outside the device. The contents of
the memories are unspecified; the safe-stop pins indicate stop. -/
def State.afterReset (s : State) (mode : Nat) (off : Bool) : State :=
  let t : State := { State.reset with
    pending := s.pending, free := s.free, part := s.part, hostMem := s.hostMem, out := s.out, otpRevoke := s.otpRevoke,
    otpSvn := s.otpSvn, otpUcal := s.otpUcal, devLock := s.devLock, flash := s.flash,
    boot := ⟨mode, false, [], off⟩ }
  let t := (t.voidMem 0 0x10000000).voidMem 0x100000000 (reachable s.part)
  ((t.emit .pin 0 [0]).emit .rails 0 [0]).trustSync

/-! ### Boot (R536–R539) -/

/-- BOOT_STATUS: DONE, the step reached, the first failing entry, the stop code. -/
def State.bootStatus (s : State) (done : Bool) (step entry code : Nat) : State :=
  s.wr uTrust 0x104 (w32 (b2n done * 2 ^ 31 + step * 2 ^ 24 + entry % 256 * 2 ^ 16 + code % 2 ^ 16))

/-- The boot stops with a code that the spec does not give. -/
def State.bootStop (s : State) (step : Nat) : State :=
  let (w, s) := s.fresh
  s.bootStatus false step 0xFF w.toNat

/-- The user calibration copy with the greater SEQ of those that verify, applied over the factory trims. -/
def State.bootCal (s : State) : State :=
  let ok := [0, 1].filter fun c => imgN (s.flashBytes (0x20000 + c * 0x10000) 4) 0 4 = 0x43555747 && (s.calVerify (s.calCopy c)).1 = OK
  match ok with
  | [] => s
  | h :: t => s.calAccept (s.calCopy (t.foldl (fun a c => if calSeq (s.calCopy a) < calSeq (s.calCopy c) then c else a) h))

/-- The processors that the part enables, in the order in which they are loaded: WP, MP1, SP, CS, MC, PX. -/
def State.loadOrder (s : State) : List Nat :=
  (span (uWP 0) 2 ++ [uMP 1] ++ span (uSP 0) 2 ++ span (uCS 0) 6 ++ span (uMC 0) 4 ++ span (uPX 0) 4).filter s.exists?

/-- A boot stage of the firmware, as a supervised task of its own. -/
def State.bootTask (s : State) (code : Nat) : State :=
  match s.fwTask code with
  | (s, some t) => s.closeTask t
  | (s, none) => s

/-- Start-up self-test of a unit (R39, R452, R454): firmware drains a vector engine, tests it, and readmits it on a pass. -/
def State.startTest (s : State) (fails : List Nat) (u : Nat) : State :=
  let s := if unitClass u = some .ve then ((s.setState u 1).setState u 2).setState u 3 else s
  if !fails.contains u then (if unitClass u = some .ve then s.setState u 0 else s).fullTestPass u
  else if isTested u then
    let s := s.recordFault fTEST_FAIL u 0x49 noQueue 0 0 0 0 oPending
    ((s.fullTestFail u).makeLasting (s.recordOf fTEST_FAIL u 0)).wdFind 0x14 u 0
  else
    let s := s.recordFault fTEST_FAIL u 0x4A noQueue 0 0 0 0 oNone
    (s.setState u 2).ucbEvent u 16

/-- The units of the start-up self-test. -/
def State.startUnits (s : State) : List Nat :=
  ((List.range 6).flatMap (fun c => span (uTile c 0) 9) ++ span (uTE 0) 2 ++ span (uVE 0) 6).filter s.exists?

/-- Steps 7–10: readmission of the loaded processors, the self-test, the endpoint, BOOT_DONE. -/
def State.bootTail (s : State) (entry : Nat) (fails : List Nat) (us : Nat) : State :=
  let s := s.bootTask 1
  let s := s.loadOrder.foldl (fun s u => if (s.images.any fun e => e.1 = u) then s.setState u 0 else s) s
  let s := s.bootTask 2
  let s := s.startUnits.foldl (fun s u => s.startTest fails u) s
  let s := (s.bootStatus true 10 entry 0).wr uTrust 0x108 (w32 us)
  let s := s.setFlag uSdio 0x100 31 true
  s.postAll 0x0061 uTrust (s.rd uTrust 0x104).toNat us s.routedClients

/-- Load a processor from its catalogue entry; the failing entry when it is the first. -/
def State.bootLoad (a : State × Nat) (u : Nat) : State × Nat :=
  let (s, bad) := a
  let (k, i) := unitKind u
  match s.catEntry k i with
  | none =>
    let (w, s) := s.fresh
    (s, if bad = 0xFF then w.toNat % 256 else bad)
  | some (n, e) =>
    let d := s.catImage e
    let (s, st, _) := s.check d
    if st = OK && imgKind d = k then (s.setImage u d, bad) else (s, if bad = 0xFF then n else bad)

/-- Step 6: the first MP entry that verifies goes into MP0; the first entry that failed. -/
def State.bootMp (s : State) : State × Bool × Nat :=
  (s.catalogue.filter fun e => imgN e.2 0 1 = 1).foldl (fun (a : State × Bool × Nat) e =>
    let (s, done, bad) := a
    if done then a
    else
      let d := s.catImage e.2
      let (s, st, _) := s.check d
      if st = OK && imgKind d = 1 then (s.setImage (uMP 0) d, true, bad) else (s, false, if bad = 0xFF then e.1 else bad))
    (s, false, 0xFF)

/-- The ROM waits for images on SDIO function 2. -/
def State.bootSdio (s : State) (recovery : Bool) : State :=
  let s := (s.bootStatus false 6 0xFF 0).setFld uTrust 0x100 29 27 (2 + b2n recovery)
  { s with boot := { s.boot with sdio := true, left := uMP 0 :: s.loadOrder } }

/-- The boot sequence from the boot ROM's start: the OTP is good, LPDDR4X trains, units that fail the start-up self-test,
the time it takes. -/
def State.runBoot (s : State) (otpOk ddrOk : Bool) (fails : List Nat) (us : Nat) : State :=
  let mode := s.boot.mode
  if mode = 3 then s.bootStatus false 1 0xFF 0x0F
  else if !otpOk then s.bootStop 2
  else
    let s := if mode = 1 then s else s.flashSync.bootCal
    let s := s.emit .rails 0 [1]
    if !ddrOk then s.bootStop 5
    else
      let s := s.calApply fun k => k % 65536 / 4096 = 3
      if mode = 1 then s.bootSdio false
      else
        let (s, ok, bad) := s.bootMp
        if ok then
          let s := s.setState (uMP 0) 0
          let (s, bad) := s.loadOrder.foldl State.bootLoad (s, bad)
          s.bootTail bad fails us
        else if mode = 0 then s.bootSdio true
        else
          let (w, s) := s.fresh
          s.bootStatus false 6 bad w.toNat

/-- VDD_AON comes into range (R536, R537, R570): BOOT_MODE is sampled twice; two samples that differ stop the boot. -/
def execPowerOnReset (m1 m2 : Nat) (otpOk ddrOk : Bool) (fails : List Nat) (us : Nat) (s : State) : Out :=
  let t := (s.afterReset (m2 % 4) false).wr uDevctl 0x294 (w32 (m1 % 4 * 4 + m2 % 4))
  .next (if m1 % 4 = m2 % 4 then t.runBoot otpOk ddrOk fails us else t.bootStatus false 1 0xFF 0x0E)

/-- RESET_N low for 10 µs (R588): the enables drop and a boot starts with the straps as they were sampled. -/
def execResetNAssert (otpOk ddrOk : Bool) (fails : List Nat) (us : Nat) (s : State) : Out :=
  let straps := s.rd uDevctl 0x294
  let t := (s.afterReset s.boot.mode false).wr uDevctl 0x294 straps
  .next (if bits straps 3 2 = bits straps 1 0 then t.runBoot otpOk ddrOk fails us else t.bootStatus false 1 0xFF 0x0E)

/-- Supply is lost (R588): the device is off. -/
def execSupplyLoss (s : State) : Out := .next (s.afterReset 0 true)

/-! ### Images of calls (R528, R529, R553) -/

/-- Callers of the calls that change trust state. -/
def trustCaller (ini : Nat) : Bool := ini = 0x100 || ini = 0x180 || ini = 0x181

/-- Copy an image for a call: a status that is not OK, or its bytes. -/
def State.fetchImage (s : State) (ini a n : Nat) : State × Nat × List Word × List Byte :=
  if 0x202000 < n then (s.count uTrust 0x11C 1, WRONG_IMAGE, [], [])
  else
    let (s, r, d) := s.callRead ini a (pagesFor n) n
    let (st, ws) := callFault r
    (s, st, ws, d)

/-- 0x0C00. -/
def callBootStatus (s : State) : State := s.ret OK (s.rds uTrust [0x100, 0x104, 0x108])
def execReadBootStatus (_ : Nat) (_ : List Word) (s : State) : Out := .next (callBootStatus s)

/-- The little-endian words of bytes. -/
def wordsOf (d : List Byte) : List Word := (List.range (d.length / 4)).map fun i => w32 (imgN d (4 * i) 4)

/-- 0x0C01: entries of the copy in force; without one they read 0 (notes/assumptions/93.md). -/
def callCatalogue (args : List Word) (s : State) : State :=
  let i := arg args 0
  let n := arg args 1
  if 16 < n || 64 < i + n then s.ret RANGE
  else
    let d := match s.copyInForce with
      | some (_, c) => part? c (0x40 + 64 * i) (64 * n)
      | none => List.replicate (64 * n) 0
    s.ret OK (wordsOf d ++ s.rds uTrust [0x124, 0x128])

def execReadCatalogue (_ : Nat) (args : List Word) (s : State) : Out := .next (callCatalogue args s)

/-- 0x0C02. -/
def callVerifyImage (ini : Nat) (args : List Word) (s : State) : State :=
  let (s, st, ws, d) := s.fetchImage ini (argAddr args 0) (arg args 2)
  if st != OK then s.ret st ws
  else
    let (s, st, c) := s.check d
    s.retVerify st c

def execVerifyImage (ini : Nat) (args : List Word) (s : State) : Out := .next (callVerifyImage ini args s)

/-! ### Live update (R541–R546) -/

/-- The status and the REASON for which R542 and R546 refuse the update of a processor, or OK. -/
def State.updRefuse (s : State) (u : Nat) (d : List Byte) : Nat × Nat :=
  match unitClass u with
  | some .mp => if s.ustate (uMP (1 - (u - 0x180))) != 0 then (REFUSED, 2) else (OK, 0)
  | some .sp => if s.ustate (uSP (1 - (u - 0x182))) != 0 then (REFUSED, 2) else (OK, 0)
  | some .cs =>
    if s.reservs.any fun r => r.active && (s.ctxClusters r.ctx).contains (u - 0x184) then (REFUSED, 1)
    else if (s.gangOf (u - 0x184)).isSome then (IN_GANG, 0) else (OK, 0)
  | some .mc => if s.setShort u then (REFUSED, 2) else (OK, 0)
  | some .wp =>
    if !s.standbySynced then (REFUSED, 2)
    else if (s.wdState = 1 || s.wdState = 2) && s.consent != some (sha3 d) then (NO_CONSENT, 0) else (OK, 0)
  | some .px =>
    let g := u - 0x190
    let has := fun p => (List.range 16).any fun q => q / 4 != g && s.mayTake p q
    if (span (4 * g) 4).any fun p => (s.boundTo p).isSome && !has p then (NO_FREE_PIPE, 0) else (OK, 0)
  | _ => (OK, 0)

/-- UPD_STATUS: BUSY and the step; the status of the last update stays. -/
def State.updStatus (s : State) (busy : Bool) (step u : Nat) : State :=
  let (k, i) := unitKind u
  s.setFld uTrust 0x114 31 16 (b2n busy * 2 ^ 15 + step * 2 ^ 12 + k * 2 ^ 4 + i)

/-- Go to a step of the update; steps 3 to 6 run under a task each. -/
def State.updGo (s : State) (x : UpdX) (step : Nat) : State :=
  let s := match x.task with | some t => s.closeTask t | none => s
  let (s, t) := if step ≤ 6 then s.fwTask 4 else (s, none)
  ({ s with upd := some { x with step := step, task := t } } : State).updStatus true (min step 7) x.unit

/-- The update ends with a status (R541, R544, R554). -/
def State.updEnd (s : State) (x : UpdX) (st : Nat) : State :=
  let s := match s.upd with | some y => (match y.task with | some t => s.closeTask t | none => s) | none => s
  let s := ({ s with upd := none } : State).updStatus false 0 x.unit
  let s := if st = OK || st = FLASH_ERROR then s.count uTrust 0x118 1 else s
  let s := (s.setFld uTrust 0x114 15 0 st).trustSync
  let (k, i) := unitKind x.unit
  let cs := s.routedClients
  let cs := match x.client with | some c => if cs.contains c then cs else cs ++ [c] | none => cs
  (s.postAll 0x0060 x.unit (k + 256 * i) st cs).finish 0x0C03 x.unit st

/-- Step 5 begins: a request for Test. -/
def State.updTest (s : State) (x : UpdX) (step : Nat) : State :=
  let s := s.updGo x step
  let (s, reason, _) := s.request x.unit 2 5
  if reason = 0 then s else s.updEnd x REFUSED

/-- A step failed: the catalogued image is loaded and tested, without a Readmit (R543). -/
def State.updFail (s : State) (x : UpdX) (st : Nat) : State :=
  let (k, i) := unitKind x.unit
  match s.catEntry k i with
  | none => s.updEnd x st
  | some (_, e) =>
    let d := s.catImage e
    let (s, v, _) := s.check d
    if v = OK && imgKind d = k then (s.setImage x.unit d).updTest { x with status := st } 8 else s.updEnd x st

/-- Steps 6 to 8: Readmit, commit, report. -/
def State.updReadmit (s : State) (x : UpdX) : State :=
  let s := s.updGo x 6
  let (s, reason, _) := s.request x.unit 3 5
  if reason != 0 then s.updEnd x REFUSED
  else
    let s := (s.setUcb x.unit 3 (w32 (imgVer x.image))).fwSync
    let s := (s.ucbEvent x.unit 8).unitEvent x.unit
    let s := s.updGo { x with task := (s.upd.bind (·.task)) } 7
    let (s, ok) := if x.noCommit then (s, true) else s.flashCommit x.unit x.image
    s.updEnd x (if ok then OK else FLASH_ERROR)

/-- The update goes on once its processor is Out or its test has ended. -/
def State.updStep (s : State) : State :=
  match s.upd with
  | none => s
  | some x =>
    let st := s.ustate x.unit
    if x.step = 3 && st = 2 then
      let s := s.updGo x 4
      let s : State := { s with images := SMap.set (fun _ => []) x.unit x.image s.images }
      s.updTest { x with task := (s.upd.bind (·.task)) } 5
    else if x.step = 5 && st = 3 && (s.urun x.unit).passed then s.updReadmit x
    else if x.step = 5 && st = 2 then
      let (w, s) := s.fresh
      s.updFail x (w.toNat % 2 ^ 16)
    else if x.step = 8 && !(s.urun x.unit).testing then s.updEnd x x.status
    else s

def execUnitDrained (u : Nat) (s : State) : Out := .next (s.unitDrained u).updStep
def execSelfTestDone (u : Nat) (pass : Bool) (s : State) : Out := .next (s.testDone u pass).updStep

/-- The active role or the active pair goes to the other of the two before its present holder drains (R421, R542). -/
def State.updHandOver (s : State) (u : Nat) : State :=
  match unitClass u with
  | some .mp => if u - 0x180 = s.mpActive then { s with mpActive := 1 - s.mpActive } else s
  | some .wp =>
    let s : State := { s with consent := none }
    if u - 0x18E = s.activePair then s.setFld uWarden 0x200 27 27 (1 - s.activePair) else s
  | _ => s

/-- 0x0C03: replace the image of a processor. -/
def callUpdate (ini : Nat) (args : List Word) (s : State) : State :=
  if !trustCaller ini then s.ret DENIED
  else if s.upd.isSome then s.ret UPDATE_BUSY
  else match kindUnit (arg args 0) (arg args 1) with
    | none => s.ret RANGE
    | some u =>
      if !s.exists? u then s.ret NO_UNIT
      else if s.claimed u || s.claimed uTrust then s.ret CLAIMED
      else
        let (s, st, ws, d) := s.fetchImage ini (argAddr args 2) (arg args 4)
        if st != OK then s.ret st ws
        else
          let (s, st, c) := s.check d
          if st != OK then s.retVerify st c
          else if imgKind d != arg args 0 then s.ret WRONG_IMAGE
          else
            let (st, reason) := s.updRefuse u d
            if st != OK then s.ret st (if st = REFUSED then [w32 reason, w32 u] else [])
            else if (List.range 16).all s.taskOpen then s.ret UPDATE_BUSY
            else
              let x : UpdX := ⟨u, d, arg args 5 % 2 = 1, 3, s.clientOf ini, none, 0⟩
              let out := s.ustate u = 2
              let (t, reason, m) := if out then (s, 0, u) else (s.updHandOver u).request u 1 5
              if reason != 0 then (s.refuseReq u reason).ret REFUSED [w32 reason, w32 m]
              else
                let t := if unitClass u = some .wp then t.setFlag uWarden 0x200 26 false else t
                let t := if out then t.updHandOver u else t
                (((t.updGo x 3).trustSync).retPending 0x0C03 u).updStep

def execUpdateProcessor (ini : Nat) (args : List Word) (s : State) : Out := .next (callUpdate ini args s)

/-- 0x0C04: UPD_STATUS and the slot of the task that is open; with none the second word is open. -/
def callUpdStatus (s : State) : State :=
  match s.upd.bind (·.task) with
  | some t => s.ret OK [s.rd uTrust 0x114, w32 t]
  | none =>
    let (w, s) := s.fresh
    s.ret OK [s.rd uTrust 0x114, w]

def execReadUpdateStatus (_ : Nat) (_ : List Word) (s : State) : Out := .next (callUpdStatus s)

/-- The bytes of argument words. -/
def argBytes (args : List Word) (i n : Nat) : List Byte := (span i n).flatMap fun k => natBytes 4 (arg args k)

/-- 0x0C05: consent to the update of a Warden pair to an image, for 10 s. -/
def callConsent (ini : Nat) (args : List Word) (s : State) : State :=
  if ini != 0x180 then s.ret DENIED
  else if s.claimed uTrust then s.ret CLAIMED
  else { s.ret OK with consent := some (argBytes args 0 8) }
def execConsentToWardenUpdate (ini : Nat) (args : List Word) (s : State) : Out := .next (callConsent ini args s)
def execConsentExpiry (s : State) : Out := .next { s with consent := none }

/-! ### Fuses (R530–R532, R550) -/

/-- Images that are catalogued or run. -/
def State.liveImages (s : State) : List (List Byte) :=
  (s.catalogue.map fun e => s.catImage e.2) ++ (s.images.filter fun e => s.ustate e.1 ≤ 1).map (·.2)

/-- 0x0C06: raise a security version counter. -/
def callRaiseSvn (ini : Nat) (args : List Word) (s : State) : State :=
  let k := arg args 0
  let v := arg args 1
  if !trustCaller ini then s.ret DENIED
  else if s.claimed uTrust then s.ret CLAIMED
  else if k = 0 || 7 < k then s.ret RANGE
  else if 64 < v then s.ret OTP_SET
  else if v ≤ s.svn k || (s.liveImages.any fun d => imgKind d = k && imgSvn d < v) ||
      (k = 7 && !s.calBytes.isEmpty && imgN s.calBytes 0xC 4 < v) then s.ret ROLLBACK
  else ({ s.ret OK with otpSvn := setNth s.otpSvn (k - 1) v } : State).trustSync

def execRaiseSecurityVersion (ini : Nat) (args : List Word) (s : State) : Out := .next (callRaiseSvn ini args s)

/-- 0x0C07: revoke a root slot. -/
def callRevoke (ini : Nat) (args : List Word) (s : State) : State :=
  let k := arg args 0
  if !trustCaller ini then s.ret DENIED
  else if s.claimed uTrust then s.ret CLAIMED
  else if 3 < k then s.ret RANGE
  else if s.liveImages.any fun d => !imgDebug d && imgSlot d = k then s.ret KEY_REVOKED
  else if s.revoked k then s.ret OK
  else if popcount 4 s.otpRevoke = 3 then s.ret KEY_REVOKED
  else ({ s.ret OK with otpRevoke := s.otpRevoke + 2 ^ k } : State).trustSync

def execRevokeRootSlot (ini : Nat) (args : List Word) (s : State) : Out := .next (callRevoke ini args s)

/-- 0x0C0B: the hash of the integrator's calibration keys. -/
def callSetKeys (ini : Nat) (args : List Word) (s : State) : State :=
  if !trustCaller ini then s.ret DENIED
  else if s.claimed uTrust then s.ret CLAIMED
  else if s.otpUcal.isSome then s.ret OTP_SET
  else ({ s.ret OK with otpUcal := some (sha3 (argBytes args 0 496)) } : State).trustSync

def execSetCalibrationKeys (ini : Nat) (args : List Word) (s : State) : Out := .next (callSetKeys ini args s)

/-! ### Identity and attestation (R547, R548) -/

/-- Write bytes into the buffer of the channel whose call is served (R501): RANGE when it is absent or too short. A call
that comes through no channel gets them as result words. -/
def State.toBuffer (s : State) (ini : Nat) (d : List Byte) : State :=
  match s.callCtx with
  | none => s.ret OK (wordsOf (d ++ List.replicate 3 0))
  | some c =>
    let w := wChan c.chan
    if s.fld w 0x10 20 0 < d.length then s.ret RANGE
    else
      let (s, r) := s.callWrite ini (s.fld w 8 31 6 * 64 + 2 ^ 32 * s.fld w 0xC 15 0) (pagesFor d.length) d
      let (st, ws) := callFault r
      s.ret st ws

/-- 0x0C08: DEVICE_ID and both certificates. -/
def callIdentity (ini : Nat) (s : State) : State := s.toBuffer ini (deviceId ++ Config.certs)
def execReadIdentity (ini : Nat) (_ : List Word) (s : State) : Out := .next (callIdentity ini s)

/-- A quote's entry for a processor; without an image the digest is open. -/
def State.quoteEntry (s : State) (u : Nat) : State × List Byte :=
  let (k, i) := unitKind u
  let d := SMap.get (fun _ => []) u s.images
  let (s, h) := if d.isEmpty then
      (List.range 8).foldl (fun (a : State × List Byte) _ =>
        let (w, s) := a.1.fresh
        (s, a.2 ++ natBytes 4 w.toNat)) (s, [])
    else (s, sha3 d)
  (s, natBytes 4 (k + 256 * i + 65536 * s.ustate u) ++ natBytes 4 (s.ucb u 3).toNat ++ natBytes 4 (imgSvn d) ++
    natBytes 4 (imgSet d) ++ h)

/-- FACTORY_CAL. -/
def factoryCalBytes : List Byte := (List.range 8192).map Config.factoryBytes

/-- The body of a quote over a nonce. -/
def State.quoteBody (s : State) (nonce : List Byte) : State × List Byte :=
  let us := (uMP 0 :: s.loadOrder).mergeSort (· ≤ ·)
  let hi := (s.rd uDevctl 0x408).toNat
  let (s, es) := us.foldl (fun (a : State × List Byte) u =>
    let (s, e) := a.1.quoteEntry u
    (s, a.2 ++ e)) (s, [])
  let f := 1 + 256 * b2n s.devLock + 512 * b2n (hi % 2 ^ 24 != 0xFFFFFF) + 1024 * b2n (!s.calBytes.isEmpty)
  (s, natBytes 4 0x51415747 ++ natBytes 4 f ++ natBytes 4 (s.rd uDevctl 0x404).toNat ++ natBytes 4 hi ++ nonce ++ deviceId ++
    natBytes 4 s.gaugeNs ++ natBytes 4 s.gaugeS ++ natBytes 4 (s.gaugeS / 2 ^ 32 % 2 ^ 16) ++
    natBytes 4 (s.rd uWarden 0x200).toNat ++ (span 1 7).flatMap (fun k => natBytes 1 (s.svn k)) ++ [0] ++
    natBytes 4 s.otpRevoke ++ natBytes 4 us.length ++ sha3 (factoryCalBytes ++ s.calBytes) ++ es)

/-- A quote: its body and two signatures over it. -/
def State.quote (s : State) (nonce : List Byte) : State × List Byte :=
  let (s, b) := s.quoteBody nonce
  (s, b ++ (List.range 64).map (Config.edSign edSeed b) ++
    (List.range 3309).map (Config.mldsaSign (ascii [0x47, 0x57, 0x41, 0x51]) mldsaSeed b))

/-- 0x0C09: a quote into the caller's buffer; PENDING until it is there. -/
def callQuote (ini : Nat) (args : List Word) (s : State) : State :=
  let (s, q) := s.quote (argBytes args 0 8)
  let t := s.toBuffer ini q
  if t.call.status = RANGE then t
  else
    let st := t.call.status
    (t.retPending 0x0C09 0 (if s.callCtx.isNone then t.call.words else [])).finish 0x0C09 0 st

def execAttestationQuote (ini : Nat) (args : List Word) (s : State) : Out := .next (callQuote ini args s)

/-! ### Calibration (R549–R551) -/

/-- The parameters that 0x0C0A and 0x0C0D read, or a status. -/
def State.calParams (s : State) (args : List Word) : Nat × List Nat :=
  if !s.exists? (arg args 0) then (NO_UNIT, [])
  else if 64 < arg args 2 || 65536 < arg args 1 + arg args 2 then (RANGE, [])
  else (OK, span (arg args 1) (arg args 2))

/-- 0x0C0A: factory values and permitted ranges. -/
def callFactoryCal (args : List Word) (s : State) : State :=
  let (st, l) := s.calParams args
  let u := arg args 0
  s.ret st (l.flatMap fun p => [Config.factoryCal u p, w32 (unsext 32 (Config.calLeast u p)), w32 (unsext 32 (Config.calMost u p))])

def execReadFactoryCalibration (_ : Nat) (args : List Word) (s : State) : Out := .next (callFactoryCal args s)

/-- 0x0C0D: values in force, deltas, pending values. -/
def callCalInForce (args : List Word) (s : State) : State :=
  let (st, l) := s.calParams args
  let u := arg args 0
  s.ret st (l.flatMap fun p =>
    let v := fun (m : List (Nat × Nat)) => sext 16 (SMap.get (fun _ => 0) (u * 65536 + p) m)
    let at_ := fun m => w32 (unsext 32 ((Config.factoryCal u p).toInt + v m))
    [at_ s.calOn, w32 (unsext 32 (v s.calOn)), at_ s.calSet])

def execReadCalibrationInForce (_ : Nat) (args : List Word) (s : State) : Out := .next (callCalInForce args s)

/-- 0x0C0C: verify and apply a user set; with PERSIST it also goes into the older copy of the flash. -/
def callApplyCal (ini : Nat) (args : List Word) (s : State) : State :=
  if !trustCaller ini then s.ret DENIED
  else if s.claimed uTrust then s.ret CLAIMED
  else if s.otpUcal.isNone then s.ret UCAL_NO_KEY
  else if 0x10000 < arg args 2 then s.ret WRONG_IMAGE
  else
    let (s, r, d) := s.callRead ini (argAddr args 0) (pagesFor (arg args 2)) (arg args 2)
    let (f, ws) := callFault r
    if f != OK then s.ret f ws
    else
      let (st, c) := s.calVerify d
      if st != OK then s.ret st (if st = SIG_FAIL || st = RANGE then [w32 c] else [])
      else
        let s := s.calAccept d
        if arg args 3 % 2 = 0 then s.ret OK
        else
          let (s, bad) := s.flashFails
          let s := if bad then s else s.flashWrite (0x20000 + s.olderCal * 0x10000) d
          (s.retPending 0x0C0C 0).finish 0x0C0C 0 (if bad then FLASH_ERROR else OK)

def execApplyCalibrationSet (ini : Nat) (args : List Word) (s : State) : Out := .next (callApplyCal ini args s)

/-! ### Booting and committing sets (R535, R539) -/

/-- The processor that an image of a kind goes to in an SDIO boot. -/
def State.bootTarget (s : State) (k : Nat) : Option Nat := s.boot.left.find? fun u => (unitKind u).1 = k

/-- Steps 7–10 once every processor is loaded or absent: what fails the self-test and the time it takes are open here. -/
def State.bootMaybeDone (s : State) : State :=
  if !s.boot.left.isEmpty then s
  else
    let s : State := { s with boot := { s.boot with sdio := false } }
    let (s, fails) := s.startUnits.foldl (fun (a : State × List Nat) u =>
      let (k, s) := a.1.freshNat 2
      (s, if k = 1 then u :: a.2 else a.2)) (s, [])
    let (w, s) := s.fresh
    s.bootTail 0xFF fails w.toNat

/-- 0x0C0E: load a staged image, or declare a processor absent with LENGTH 0. The first image must be an MP image. -/
def callBootImage (ini : Nat) (args : List Word) (s : State) : State :=
  let a := argAddr args 0
  let n := arg args 2
  let first := s.boot.left.contains (uMP 0)
  if !s.boot.sdio then
    let (w, s) := s.fresh
    s.ret REFUSED [w]
  else if s.claimed uTrust then s.ret CLAIMED
  else if n = 0 then
    if first then s.ret WRONG_IMAGE
    else (({ s with boot := { s.boot with left := s.boot.left.drop 1 } } : State).ret OK).bootMaybeDone
  else if a < 0x100000000 || 0x102000000 < a + n then s.ret RANGE
  else
    let (s, st, ws, d) := s.fetchImage ini a n
    if st != OK then s.ret st ws
    else
      let (s, st, c) := s.check d
      if st != OK then s.retVerify st c
      else match (if first && imgKind d != 1 then none else s.bootTarget (imgKind d)) with
        | none => s.ret WRONG_IMAGE
        | some u =>
          let s := s.setImage u d
          let s : State := { s with boot := { s.boot with left := s.boot.left.filter (· != u) } }
          ((if u = uMP 0 then s.setState u 0 else s).ret OK).bootMaybeDone

def execBootImage (ini : Nat) (args : List Word) (s : State) : Out := .next (callBootImage ini args s)

/-- 0x0C0F: every running image that is not catalogued is committed. -/
def callCommitSet (ini : Nat) (s : State) : State :=
  if !trustCaller ini then s.ret DENIED
  else if s.claimed uTrust then s.ret CLAIMED
  else
    let run := s.images.filter fun e => s.ustate e.1 ≤ 1
    let (s, bad) := run.foldl (fun (a : State × Bool) e =>
      let (k, i) := unitKind e.1
      let held := match a.1.catEntry k i with | some (_, x) => a.1.catImage x == e.2 | none => false
      if held then a
      else
        let (s, ok) := a.1.flashCommit e.1 e.2
        (s, a.2 || !ok)) (s, false)
    (s.retPending 0x0C0F 0).finish 0x0C0F 0 (if bad then FLASH_ERROR else OK)

def execCommitRunningSet (ini : Nat) (_ : List Word) (s : State) : Out := .next (callCommitSet ini s)

end Sys2Proof.Machine
end

