-- ==== Sys2Proof/Machine/Mailbox.lean ====
section
/-! DEFINITION. The management mailbox: posting, serving and completing service calls (R10, R491, R501, R502, R539). -/
namespace Sys2Proof.Machine

/-! ### The calls by number -/

/-- Calls 0x00xx. -/
def call00 (ini : Nat) (args : List Word) (s : State) : Nat → Option State
  | 0x00 => some (callDeviceInfo s)
  | 0x01 => some (callClaim ini args s)
  | 0x02 => some (callRelease ini args s)
  | 0x03 => some (callReadUcb args s)
  | 0x04 => some (callRequestState ini args s)
  | 0x05 => some (callListUnits args s)
  | 0x06 => some (callRates s)
  | 0x10 => some (callClusterStatus args s)
  | 0x11 => some (callFormGang ini args s)
  | 0x12 => some (callDissolveGang ini args s)
  | 0x13 => some (callSpareEnable ini args s)
  | 0x14 => some (callTileCounters args s)
  | 0x15 => some (callStepTable s)
  | 0x16 => some (callToeStatus args s)
  | 0x17 => some (callBindFeed ini args s)
  | 0x18 => some (callToeCounters args s)
  | 0x19 => some (callValidate ini args s)
  | 0x1A => some (callPecCaps s)
  | 0x1B => some (callSetGpio ini args s)
  | 0x1C => some (callReadGpio ini s)
  | 0x1D => some (callGpioOwner args s)
  | _ => none

/-- Calls 0x01xx. -/
def call01 (ini : Nat) (args : List Word) (s : State) : Nat → Option State
  | 0x00 => some (callCreateClient args s)
  | 0x01 => some (callSetShare ini args s)
  | 0x02 => some (callAccounting ini args s)
  | 0x03 => some (callQueue ini args s)
  | 0x04 => some (callDeleteQueue ini args s)
  | 0x05 => some (callQueueAction ini args s)
  | 0x06 => some (callReserve ini args s)
  | 0x07 => some (callReleaseReservation ini args s)
  | 0x08 => some (callResolveStall ini args s)
  | 0x09 => some (callWatch ini args s)
  | 0x0A => some (callMark ini args s)
  | 0x0B => some (callReadQueue ini args s)
  | _ => none

/-- Calls 0x02xx. -/
def call02 (ini : Nat) (args : List Word) (s : State) : Nat → Option State
  | 0x00 => some (callCreateParcel ini args s)
  | 0x01 => some (callDeleteParcel ini args s)
  | 0x02 => some (callReadParcel ini args s)
  | 0x03 => some (callParcelRights ini args s)
  | 0x04 => some (callReadCredits ini args s)
  | 0x05 => some (callWaitLimits args s)
  | 0x06 => some (callSluiceWatchdog args s)
  | 0x07 => some (callReadBankGroup args s)
  | 0x08 => some (callSpareBank args s)
  | 0x09 => some (callHazardDetector args s)
  | 0x0A => some (callLocate args s)
  | _ => none

/-- Calls 0x03xx. -/
def call03 (ini : Nat) (args : List Word) (s : State) : Nat → Option State
  | 0x00 => some (callSameBits ini args s)
  | 0x01 => some (callFingerprint s)
  | 0x02 => some (callVerifyRind ini args s)
  | 0x03 => some (callLoadWeights ini args s)
  | 0x04 => some (callReadWd ini args s)
  | 0x05 => some (callClearWd ini args s)
  | 0x06 => some (callSbCounters s)
  | 0x07 => some (callQueueWd ini args s)
  | _ => none

/-- Calls 0x04xx. -/
def call04 (ini : Nat) (args : List Word) (s : State) : Nat → Option State
  | 0x00 => some (callFormRing args s)
  | 0x01 => some (callDissolveRing s)
  | 0x02 => some (callReadRing s)
  | 0x03 => some (callReadPort args s)
  | 0x04 => some (callConfigurePort args s)
  | 0x05 => some (callSendWake args s)
  | 0x06 => some (callRingLimits args s)
  | 0x0A => some (callRemoteMark args s)
  | _ => none

/-- Calls 0x05xx. -/
def call05 (ini : Nat) (args : List Word) (s : State) : Nat → Option State
  | 0x00 => some (callVatStatus ini args s)
  | 0x01 => some (callLive ini args s)
  | 0x02 => some (callJobStart ini args s)
  | 0x03 => some (callJobStop ini args s)
  | 0x04 => some (callJobStall ini args s)
  | 0x05 => some (callCellar ini args s)
  | 0x06 => some (callCellarDrop ini args s)
  | 0x07 => some (callSlowLimits ini args s)
  | 0x08 => some (callShared ini args s)
  | 0x09 => some (callRefDecode ini args s)
  | 0x0A => some (callVatCounters ini args s)
  | _ => none

/-- Calls 0x06xx. -/
def call06 (ini : Nat) (args : List Word) (s : State) : Nat → Option State
  | 0x00 => some (callReadLink ini args s)
  | 0x01 => some (callConfigureLink ini args s)
  | 0x02 => some (callLoadDesc ini args s)
  | 0x03 => some (callStartStop ini args s)
  | 0x04 => some (callPushSet ini args s)
  | 0x05 => some (callFlicker ini args s)
  | 0x06 => some (callSetSpare ini args s)
  | 0x07 => some (callMoveCamera ini args s)
  | 0x08 => some (callReadPipeline ini args s)
  | _ => none

/-- Calls 0x07xx. -/
def call07 (ini : Nat) (args : List Word) (s : State) : Nat → Option State
  | 0x00 => some (callMillStatus ini s)
  | 0x01 => some (callConfigureLoop ini args s)
  | 0x02 => some (callLoadLaw ini args s)
  | 0x03 => some (callEnableLoop ini args s)
  | 0x04 => some (callWriteCoefficients ini args s)
  | 0x05 => some (callReadCoefficients ini args s)
  | 0x06 => some (callReadLoop ini args s)
  | 0x07 => some (callConfigureEncoder ini args s)
  | 0x08 => some (callConfigurePwm ini args s)
  | 0x09 => some (callClearLoopFlags ini args s)
  | 0x0A => some (callFallback ini args s)
  | 0x0B => some (callConfigureAxis ini args s)
  | 0x0C => some (callBindTrigger ini args s)
  | _ => none

/-- Calls 0x08xx. -/
def call08 (ini : Nat) (args : List Word) (s : State) : Nat → Option State
  | 0x00 => some (callWardenStatus s)
  | 0x01 => some (callArm ini s)
  | 0x02 => some (callForceSafe ini s)
  | 0x03 => some (callReleaseSafe ini s)
  | 0x04 => some (callEnterTest ini args s)
  | 0x05 => some (callSetCheck ini args s)
  | 0x06 => some (callConfigureGate ini args s)
  | 0x07 => some (callWriteEnvelopes ini args s)
  | 0x08 => some (callConfigureCompare ini args s)
  | 0x09 => some (callConfigureStarter ini args s)
  | 0x0A => some (callConfigureSelfTest ini args s)
  | 0x0B => some (callOpenTask ini args s)
  | 0x0C => some (callCloseTask ini args s)
  | 0x0D => some (callWriteFirewall ini args s)
  | 0x0E => some (callWardenCounters s)
  | 0x0F => some (callPinTest ini args s)
  | _ => none

/-- Calls 0x09xx. -/
def call09 (ini : Nat) (args : List Word) (s : State) : Nat → Option State
  | 0x00 => some (callReadTime s)
  | 0x01 => some (callAdjustTime ini args s)
  | 0x02 => some (callSetIncrement ini args s)
  | 0x03 => some (callClaimComparator ini args s)
  | 0x04 => some (callConfigureComparator ini args s)
  | 0x05 => some (callConfigurePulse ini args s)
  | 0x06 => some (callConfigurePtp ini args s)
  | 0x07 => some (callReadPtp s)
  | 0x08 => some (callReadCanObject args s)
  | 0x09 => some (callConfigureRings args s)
  | 0x0A => some (callConfigureCan ini args s)
  | 0x0B => some (callWriteCanObject ini args s)
  | 0x0C => some (callRecoverCan ini args s)
  | _ => none

/-- Calls 0x0Axx. -/
def call0A (ini : Nat) (args : List Word) (s : State) : Nat → Option State
  | 0x00 => some (callPcieStatus s)
  | 0x01 => some (callSetVectors args s)
  | 0x02 => some (callSetContext ini args s)
  | 0x03 => some (callInvalidate ini args s)
  | 0x04 => some (callXlFault s)
  | 0x05 => some (callTranslate ini args s)
  | 0x06 => some (callSdioStatus s)
  | 0x07 => some (callSetWindow args s)
  | _ => none

/-- Calls 0x0Bxx. -/
def call0B (ini : Nat) (args : List Word) (s : State) : Nat → Option State
  | 0x00 => some (callPowerStatus s)
  | 0x01 => some (callRequestPower args s)
  | 0x02 => some (callSetPoint args s)
  | 0x03 => some (callSetCap args s)
  | 0x04 => some (callSetWake args s)
  | 0x05 => some (callTrimIdle args s)
  | 0x06 => some (callPowerCounters s)
  | _ => none

/-- Calls 0x0Cxx. -/
def call0C (ini : Nat) (args : List Word) (s : State) : Nat → Option State
  | 0x00 => some (callBootStatus s)
  | 0x01 => some (callCatalogue args s)
  | 0x02 => some (callVerifyImage ini args s)
  | 0x03 => some (callUpdate ini args s)
  | 0x04 => some (callUpdStatus s)
  | 0x05 => some (callConsent ini args s)
  | 0x06 => some (callRaiseSvn ini args s)
  | 0x07 => some (callRevoke ini args s)
  | 0x08 => some (callIdentity ini s)
  | 0x09 => some (callQuote ini args s)
  | 0x0A => some (callFactoryCal args s)
  | 0x0B => some (callSetKeys ini args s)
  | 0x0C => some (callApplyCal ini args s)
  | 0x0D => some (callCalInForce args s)
  | 0x0E => some (callBootImage ini args s)
  | 0x0F => some (callCommitSet ini s)
  | _ => none

/-- Calls 0x0Dxx. -/
def call0D (ini : Nat) (args : List Word) (s : State) : Nat → Option State
  | 0x00 => some (callFaultStatus s)
  | 0x01 => some (callFaultRecords args s)
  | 0x02 => some (callAckRecords args s)
  | 0x03 => some (callFaultOptions args s)
  | 0x04 => some (callUnitHealth args s)
  | 0x05 => some (callSpares s)
  | 0x06 => some (callInject ini args s)
  | 0x07 => some (callFaultCounters s)
  | _ => none

/-- Calls 0x0Exx. -/
def call0E (ini : Nat) (args : List Word) (s : State) : Nat → Option State
  | 0x00 => some (callNumId args s)
  | 0x01 => some (callWindowBounds args s)
  | 0x02 => some (callWriteRescale ini args s)
  | 0x03 => some (callReadStats ini args s)
  | 0x04 => some (callScaleGuard ini args s)
  | 0x05 => some (callNumTotals args s)
  | 0x06 => some (callTapTable ini args s)
  | 0x07 => some (callWinogradBounds args s)
  | 0x08 => some (callTableSet args s)
  | 0x09 => some (callSpecial args s)
  | 0x0A => some (callVeCounters args s)
  | 0x0B => some (callArrival ini args s)
  | _ => none

/-- The meaning of a call number, for the numbers that the spec gives a call. -/
def runCall (num ini : Nat) (args : List Word) (s : State) : Option State :=
  match num / 256 with
  | 0x00 => call00 ini args s (num % 256)
  | 0x01 => call01 ini args s (num % 256)
  | 0x02 => call02 ini args s (num % 256)
  | 0x03 => call03 ini args s (num % 256)
  | 0x04 => call04 ini args s (num % 256)
  | 0x05 => call05 ini args s (num % 256)
  | 0x06 => call06 ini args s (num % 256)
  | 0x07 => call07 ini args s (num % 256)
  | 0x08 => call08 ini args s (num % 256)
  | 0x09 => call09 ini args s (num % 256)
  | 0x0A => call0A ini args s (num % 256)
  | 0x0B => call0B ini args s (num % 256)
  | 0x0C => call0C ini args s (num % 256)
  | 0x0D => call0D ini args s (num % 256)
  | 0x0E => call0E ini args s (num % 256)
  | _ => none
/-! ### Arguments and results (R501) -/

/-- Argument words of a call, where it may have more than the sixteen registers hold: how many it has, and whether fewer
may be given (its last ones are then left out). -/
def argWords (num : Nat) (regs : List Word) : Nat × Bool :=
  if num = 0x0302 then (26, false)
  else if num = 0x0704 then (2 + 2 * min 64 (arg regs 1), false)
  else if num = 0x0807 then (2 + 4 * min 64 (arg regs 1), false)
  else if num = 0x0809 then (18, false)
  else if num = 0x080A then (81, true)
  else if num = 0x090B then (23, false)
  else if num = 0x0C0B then (496, false)
  else if num = 0x0E09 then (65, true)
  else (16, false)

/-- MB_BUF_LEN and the buffer's address. -/
def State.mbLen (s : State) (ch : Nat) : Nat := s.fld (wChan ch) 0x10 20 0
def State.mbAddr (s : State) (ch : Nat) : Nat := s.fld (wChan ch) 8 31 6 * 64 + 2 ^ 32 * s.fld (wChan ch) 0xC 15 0

/-- The arguments of the call posted on a channel; a status that is not OK when they cannot be had. -/
def State.mbArgs (s : State) (ch num : Nat) : State × Nat × List Word × List Word :=
  let regs := (List.range 16).map fun i => s.rd (wChan ch) (0x40 + 4 * i)
  let (n, some_) := argWords num regs
  let more := if some_ then min (n - 16) (s.mbLen ch / 4) else n - 16
  if more = 0 then (s, OK, [], regs)
  else if s.mbLen ch < 4 * more then (s, RANGE, [], [])
  else
    let (s, r, d) := s.callRead (chanIni ch) (s.mbAddr ch) (pagesFor (4 * more)) (4 * more)
    let (st, ws) := callFault r
    (s, st, ws, regs ++ wordsOf d)

/-- Write the result words that MB_RES1–15 do not hold into the buffer. -/
def State.mbSpill (s : State) (ch : Nat) (ws : List Word) : State × Nat × List Word :=
  if ws.isEmpty then (s, OK, [])
  else if s.mbLen ch < 4 * ws.length then (s, RANGE, [])
  else
    let d := ws.flatMap fun w => natBytes 4 w.toNat
    let (s, r) := s.callWrite (chanIni ch) (s.mbAddr ch) (pagesFor d.length) d
    let (st, e) := callFault r
    (s, st, e)

/-! ### Serving (R502) -/

/-- A call was posted on the channel and has not returned. -/
def State.mbBusy (s : State) (ch : Nat) : Bool := s.flag (wChan ch) 4 31

/-- The address that a rejected access to a channel's register is recorded with: that of channel 0 in the PCIE block, else
the offset in the channel's window. -/
def chanAddr (ch off : Nat) : Nat := if ch = 0 then regAddr uPcie (0x1000 + off) else off

/-- The firewalls allow an access to a channel's register: channel 0 lies in a unit's block (R449, R501). -/
def State.chanAllows (s : State) (ini ch off : Nat) (write : Bool) : Bool := ch != 0 || s.fwAllows ini (chanAddr ch off) write

/-- A write of MB_CALL by the channel's initiator: with GO it posts a call, unless one is posted already. -/
def State.callGo (s : State) (ini ch : Nat) (v : Word) : State :=
  if !s.chanAllows ini ch 0 true then s.fwRefuse ini (chanAddr ch 0) true
  else if ini != chanIni ch then s.accError ini (chanAddr ch 0) .access
  else if bits v 30 24 != 0 then s.accError ini (chanAddr ch 0) .reserved
  else if !bit v 31 then s
  else if s.mbBusy ch then s.accError ini (chanAddr ch 0) .check
  else
    let s := (s.wr (wChan ch) 0 v).setFlag (wChan ch) 4 31 true
    if ch = 33 || ch = 34 then s.wake 4 uSdio else s

def execMbCallGo (ini ch value : Nat) (s : State) : Out := .next (s.callGo ini (ch % 36) (w32 value))

/-- Entries that a channel's done FIFO holds or will hold. -/
def State.doneUse (s : State) (ch : Nat) : Nat :=
  (s.doneFifo.filter (·.1 = ch)).length +
    (s.pendCalls.filter fun c => match c.src with | some x => x.chan = ch | none => false).length

/-- Run the call posted on a channel: its effect, its status, its result words. A call that would need an entry of a full
done FIFO, or a buffer that is not there, changes nothing. -/
def State.runPosted (s : State) (ch : Nat) : State × Nat × List Word :=
  let w := s.rd (wChan ch) 0
  let num := bits w 15 0
  let (s, st, ws, args) := s.mbArgs ch num
  if st != OK then (s, st, ws)
  else
    let ctx : State := { s with callCtx := some ⟨ch, bits w 23 16, num⟩ }
    match runCall num (chanIni ch) args ctx with
    | none =>
      let (f, s) := s.fresh
      (s, f.toNat % 2 ^ 16, [])
    | some t =>
      let t : State := { t with callCtx := none }
      if t.call.status = PENDING && 16 < t.doneUse ch then (s, MB_FULL, [])
      else
        let (u, st, e) := t.mbSpill ch (t.call.words.drop 15)
        if st = OK then (u, t.call.status, t.call.words.take 15) else (s, st, e)

/-- The call returns: MB_RES0–15, MB_STATUS, the interrupt; nothing of it reaches a function that was reset (R491). -/
def State.mbReturn (s : State) (ch st : Nat) (ws : List Word) : State :=
  let w := wChan ch
  let tag := s.fld w 0 23 16
  if s.mbDiscard.contains ch then { s.setFlag w 4 31 false with mbDiscard := s.mbDiscard.filter (· != ch) }
  else
    let s := s.wr w 0x80 (w32 (tag * 2 ^ 16 + st % 2 ^ 16))
    let s := (ws.zipIdx).foldl (fun (s : State) (v, i) => s.wr w (0x84 + 4 * i) v) s
    let s := s.wr w 4 (w32 ((s.rd w 4).toNat / 2 ^ 29 % 4 * 2 ^ 29 + tag * 2 ^ 16 + st % 2 ^ 16))
    s.chanInt ch 0

/-- Who serves a channel: the active management processor in service, or the boot ROM, which serves two calls on
channel 34 in an SDIO boot (R501, R539). -/
def State.mbServes (s : State) (ch : Nat) : Bool :=
  if s.boot.sdio && s.ustate (uMP 0) != 0 then
    ch = 34 && (let n := s.fld (wChan ch) 0 15 0; n = 0x0C00 || n = 0x0C0E)
  else s.ustate (uMP s.mpActive) ≤ 1

/-- The next channel with a call, from the one after the last served, ascending and wrapping. -/
def State.mbNext (s : State) : Option Nat :=
  ((span 1 36).map fun k => (s.mbLast + k) % 36).find? fun ch => s.mbBusy ch && s.mbServes ch

/-- Take the next GO and run the call. -/
def State.serve (s : State) : State :=
  match s.mbNext with
  | none => s
  | some ch =>
    let (s, st, ws) := ({ s with mbLast := ch } : State).runPosted ch
    s.mbReturn ch st ws

def execMbCallServe (s : State) : Out := .next s.serve

/-! ### Completions (R502) -/

/-- The oldest PENDING call whose outcome is known completes: the done FIFO, result words (notes/assumptions/210.md), the
interrupt, CALL_DONE. -/
def State.callDone (s : State) : State :=
  match s.pendCalls.find? (·.fin.isSome) with
  | none => s
  | some c =>
    let s : State := { s with pendCalls := s.pendCalls.erase c }
    match c.src with
    | none => s
    | some x =>
      let st := c.fin.getD 0
      let s : State := { s with doneFifo := s.doneFifo ++ [(x.chan, x.tag, c.num, st)] }
      let s := (c.res.zipIdx).foldl (fun (s : State) (v, i) => s.wr (wChan x.chan) (0x84 + 4 * i) v) s
      let s := (s.setFlag (wChan x.chan) 4 30 true).chanInt x.chan 1
      s.postIni (chanIni x.chan) 0x0040 uDevctl (c.num + x.tag * 2 ^ 16) st

def execCallDone (s : State) : Out := .next s.callDone

/-- What the last access returned. -/
def State.answer (s : State) (w : Word) : State := { s with reply := ⟨false, natBytes 4 w.toNat⟩ }

/-- A read of MB_DONE: the oldest completed call leaves the FIFO. -/
def State.doneRead (s : State) (ch : Nat) : Word × State :=
  match s.doneFifo.find? (·.1 = ch) with
  | none => (0, s)
  | some e =>
    let (_, tag, num, st) := e
    let s : State := { s with doneFifo := s.doneFifo.erase e }
    let s := s.wr (wChan ch) 0x18 (w32 num)
    let s := s.setFlag (wChan ch) 4 30 (s.doneFifo.any (·.1 = ch))
    (w32 (2 ^ 31 + tag * 2 ^ 16 + st), s)

/-- A read of MB_STATUS clears EVENT. -/
def State.statusRead (s : State) (ch : Nat) : Word × State := (s.rd (wChan ch) 4, s.setFlag (wChan ch) 4 29 false)

/-- A read of a channel's register by its own initiator; another's is refused. -/
def State.chanRead (s : State) (ini ch off : Nat) (f : State → Nat → Word × State) : State :=
  if !s.chanAllows ini ch off false then { s.fwRefuse ini (chanAddr ch off) false with reply := ⟨true, []⟩ }
  else if ini = chanIni ch then
    let (w, s) := f s ch
    s.answer w
  else { s.accError ini (chanAddr ch off) .access with reply := ⟨true, []⟩ }

def execMbDoneRead (ini ch : Nat) (s : State) : Out := .next (s.chanRead ini (ch % 36) 0x14 State.doneRead)
def execMbStatusRead (ini ch : Nat) (s : State) : Out := .next (s.chanRead ini (ch % 36) 4 State.statusRead)

end Sys2Proof.Machine
end

