-- ==== Sys2Proof/Machine/Bus.lean ====
section
/-! DEFINITION. Accesses from outside the commands: register writes and reads, PCIe requests, SDIO commands (R7, R8, R12–R15, R41,
R42, R245, R485–R488, R498–R501, R503). -/
namespace Sys2Proof.Machine

/-! ### Register writes -/

/-- A write to word k of a unit's control block at a block and offset (R33, R35). -/
def State.ucbWrite (s : State) (ini p u off k : Nat) (v : Word) : State :=
  let a := regAddr u off
  if !s.exists? p then s.accError ini a .notEnabled
  else if !s.fwAllows ini a true then s.fwRefuse ini a true
  else if k = 2 then
    if andN v 0xFFFFF0CC != 0 then s.accError ini a .reserved
    else if bits v 5 4 = 0 then (if s.mayWrite ini p then s else s.accError ini a .notHolder)
    else s.ucbRequest ini p (bits v 5 4)
  else if !s.mayWrite ini p then s.accError ini a .notHolder
  else if k = 9 then
    if 32 ≤ v.toNat then s.accError ini a .reserved
    else s.setUcb p 9 (w32 ((s.ucb p 9).toNat - ((s.ucb p 9).toNat &&& v.toNat)))
  else if k ≤ 10 then s.accError ini a .readOnly
  else if v = 0 then s else s.accError ini a .reserved

/-- A write of MARK_ADD_SEL: open, the mark must lie in the writer's range; each initiator has its own. -/
def State.markSel (s : State) (ini : Nat) (v : Word) : State :=
  s.guarded ini uMarks 0x100 v true fun s =>
    if s.iniMayMark ini v.toNat then s.wr (wSel ini) 0x100 v
    else (s.markDenied ini v.toNat true).accError ini (regAddr uMarks 0x100) .check

/-- A write of COEF_SEL: open to the claim holder and to the owning client of the loop named. -/
def State.coefSel (s : State) (ini : Nat) (v : Word) : State :=
  s.guarded ini uMill 0x240 v true fun s =>
    if s.mayWrite ini uMill || s.clientOf ini = some (s.loopOwner (bits v 22 16)) then s.store uMill 0x240 v
    else s.accError ini (regAddr uMill 0x240) .notHolder

/-- A write to a channel's register: the channel's initiator only (R8, R501). -/
def State.chanWrite (s : State) (ini ch off : Nat) (v : Word) : State :=
  let a := chanAddr ch off
  if !s.chanAllows ini ch off true then s.fwRefuse ini a true
  else if ini != chanIni ch then s.accError ini a .access
  else if off = 0 then s.callGo ini ch v
  else match findRow (wChan ch) off with
    | none => if v = 0 then s else s.accError ini a .reserved
    | some r => match r.bad v with
      | some c => s.accError ini a c
      | none => s.store (wChan ch) off v

/-- A write to one of the four writable words of a parcel entry. -/
def State.pclWrite (s : State) (ini off : Nat) (v : Word) : State :=
  let p := (off - 0x1000) / 32
  match off % 32 with
  | 0 => s.pclLocWrite ini p v
  | 4 => s.pclIdleWrite ini p 4 v
  | 8 => s.pclIdleWrite ini p 8 v
  | 16 => s.pclRightWrite ini p 0 v
  | 20 => s.pclRightWrite ini p 1 v
  | 24 => s.pclRightWrite ini p 2 v
  | 28 => s.pclRightWrite ini p 3 v
  | _ => s.guardedStore ini (uBG 0) off v fun _ => none

/-- A write to ADJ_CTL. -/
def State.adjWrite (s : State) (ini : Nat) (v : Word) : State :=
  s.guarded ini uGauge 0x118 v false fun s =>
    match bits v 31 30 with
    | 1 => s.slewBy (s.rd uGauge 0x114)
    | 2 => State.orRefuse (s.stepBy (sext 32 (s.rd uGauge 0x114).toNat) (bit v 29)) ini (regAddr uGauge 0x118)
    | 3 => (s.wr uGauge 0x11C 0).slewDone
    | _ => s.accError ini (regAddr uGauge 0x118) .range

/-- A write to SET_CTL. -/
def State.setWrite (s : State) (ini : Nat) (v : Word) : State :=
  s.guarded ini uGauge 0x12C v false fun s =>
    if bit v 31 then
      State.orRefuse (s.setTo ((s.rd uGauge 0x124).toNat + 2 ^ 32 * s.fld uGauge 0x128 15 0) (s.fld uGauge 0x120 29 0) (bit v 30))
        ini (regAddr uGauge 0x12C)
    else s

/-- A write to GAUGE_CLAIM. -/
def State.claimWrite (s : State) (ini : Nat) (v : Word) : State :=
  if andN v 0x03FFFFF0 != 0 then s.guarded ini uGauge 0x138 v false id
  else s.gaugeClaim ini (bits v 31 30) (bits v 28 26) (bits v 3 0) (bit v 29)

/-- A write to CN_CMD: 1 recover, 2 abort. -/
def State.cnCmd (s : State) (ini c : Nat) (v : Word) : State :=
  s.guarded ini (uCN c) 0x110 v false fun s =>
    match bits v 31 29 with
    | 1 => State.orRefuse (s.canRecover c) ini (regAddr (uCN c) 0x110)
    | 2 => s.canAbort c (bits v 8 0)
    | _ => s.accError ini (regAddr (uCN c) 0x110) .range

/-- A write whose unit has a hook that runs under the common checks, or only stores. -/
def State.hooked (s : State) (ini u off : Nat) (v : Word) (hook : State → Option State) : State :=
  s.guarded ini u off v false fun s =>
    match hook s with
    | some t => t
    | none => s.store u off v

/-- A write that only stores. -/
def State.plain (s : State) (ini u off : Nat) (v : Word) : State := s.guardedStore ini u off v fun _ => none

def State.devctlWrite (s : State) (ini off : Nat) (v : Word) : State :=
  if off = 0x400 then s.sameBitsWrite ini v.toNat
  else match s.gpioHook ini off v with
    | some t => t
    | none => s.plain ini uDevctl off v

def State.schedWrite (s : State) (ini off : Nat) (v : Word) : State :=
  if off = 0x20C then s.guarded ini uSched off v true fun s => (s.doorbell (bits v 19 0)).vtSync
  else if off = 0x210 then
    s.guarded ini uSched off v false fun s => if bit v 31 then s.qinvalAll else (s.qinval (bits v 19 0)).vtSync
  else if 0x240 ≤ off && off < 0x280 then s.clientWrite ini ((off - 0x240) / 4) v
  else s.plain ini uSched off v

def State.gaugeRegWrite (s : State) (ini off : Nat) (v : Word) : State :=
  if off = 0x118 then s.adjWrite ini v
  else if off = 0x12C then s.setWrite ini v
  else if off = 0x138 then s.claimWrite ini v
  else if 0x400 ≤ off && off < 0x600 && off % 32 = 12 then s.cmpTargetCommit ini ((off - 0x400) / 32) v.toNat
  else s.hooked ini uGauge off v fun s => s.gaugeWrite ini off v

def State.millRegWrite (s : State) (ini off : Nat) (v : Word) : State :=
  if off = 0x240 then s.coefSel ini v
  else if off = 0x244 then s.coefWr ini v.toNat
  else if off = 0x22C && andN v 0x1FFFFF80 = 0 then s.loopCtl ini (bits v 31 29) (bits v 6 0)
  else if off = 0x238 && andN v 0x3FFFFF80 = 0 && bit v 31 then s.lawCtl ini (bits v 6 0) (bit v 30)
  else s.hooked ini uMill off v fun s => s.millWrite ini off v

def State.pwrWrite (s : State) (ini off : Nat) (v : Word) : State :=
  if off = 0x104 then
    if 1 ≤ v.toNat && v.toNat ≤ 4 then s.pwrCmd ini (v.toNat - 1)
    else s.guarded ini uPwr off v false fun s => s.accError ini (regAddr uPwr off) .range
  else if off = 0x10C then s.vcoreWrite ini v
  else if off = 0x110 then s.capWrite ini v
  else s.plain ini uPwr off v

def State.orPlain (s : State) (ini u off : Nat) (v : Word) (t : Option State) : State :=
  match t with
  | some t => t
  | none => s.plain ini u off v

/-- A register write, by the class of its unit. -/
def State.classWrite (s : State) (ini u off : Nat) (v : Word) (c : UClass) : State :=
  match c with
  | .devctl => s.devctlWrite ini off v
  | .sched => s.schedWrite ini off v
  | .marks =>
    if off = 0x100 then s.markSel ini v else if off = 0x104 then s.markAdd ini v.toNat else s.plain ini u off v
  | .xlate => s.orPlain ini u off v (s.xlateWrite ini off v)
  | .pwr => s.pwrWrite ini off v
  | .gauge => s.gaugeRegWrite ini off v
  | .warden =>
    if off = 0x204 then s.wdCmdWrite ini v.toNat else s.hooked ini u off v fun s => s.wardenWrite ini off v
  | .tc => if off = 0x200 then s.clCfgWrite ini (u - 0x10) v.toNat else s.plain ini u off v
  | .te => if off = 0x104 then s.teFeedWrite ini (u - 0x88) v.toNat else s.plain ini u off v
  | .ve => if off = 0x104 then s.veCfgWrite ini (u - 0x80) v.toNat else s.plain ini u off v
  | .vat => s.orPlain ini u off v (s.vatWrite ini (u - 0x90) off v)
  | .cl => s.orPlain ini u off v (s.pressWrite ini u off v)
  | .pp => s.orPlain ini u off v (s.pressWrite ini u off v)
  | .mill => s.millRegWrite ini off v
  | .ax => s.hooked ini u off v fun s => s.axRegWrite ini u off v
  | .ring => s.hooked ini u off v fun s => s.axRegWrite ini u off v
  | .ep => s.hooked ini u off v fun s => s.epWrite ini (u - 0xE8) off v
  | .cn => if off = 0x110 then s.cnCmd ini (u - 0xF0) v else s.hooked ini u off v fun s => s.canWrite ini (u - 0xF0) off v
  | .bg => if u = uBG 0 && 0x1000 ≤ off then s.pclWrite ini off v else s.plain ini u off v
  | .pcie =>
    if 0x1000 ≤ off && off < 0x1400 then s.chanWrite ini 0 (off - 0x1000) v
    else s.orPlain ini u off v (s.pcieWrite ini off v)
  | _ => s.plain ini u off v

/-- A unit number has a register block: an assigned one that is not a processor's; a gang's or the ring's only while it is
formed (R32, R42, R43). -/
def State.hasBlock (s : State) (u : Nat) : Option UClass :=
  match unitClass u with
  | some .gang => if s.exists? u then some .gang else none
  | some .ring => if s.exists? u then some .ring else none
  | some c => if isProcessor c then none else some c
  | none => none

/-- A 32-bit write to offset off of the block of unit u. -/
def State.regWrite (s : State) (ini u off : Nat) (v : Word) : State :=
  match s.hasBlock u with
  | none => s.addrError ini (regAddr u off)
  | some c =>
    if off < 0x40 then s.ucbWrite ini u u off (off / 4) v
    else match procAt u off with
      | some (p, o) => s.ucbWrite ini p u off (o / 4) v
      | none => s.classWrite ini u off v c

/-! ### Register reads -/

/-- Word k of a control block, as a read takes it: UCB_FAULTS is cleared. -/
def State.ucbRead (s : State) (p k : Nat) : Word × State :=
  if 10 < k then (0, s) else (s.ucb p k, if k = 10 then s.setUcb p 10 0 else s)

/-- A word of the record of a client: a low word of a 64-bit counter latches the high one (R252). -/
def State.clientRead (s : State) (k : Nat) : Word × State :=
  let w := wClient (s.fld uSched 0x230 11 0)
  let v := s.rd w (4 * k)
  (v, if k = 8 || k = 10 || k = 12 then s.wr w (4 * k + 4) (w32 (s.wide64 w (4 * k) / 2 ^ 32)) else s)

/-- A GAUGE register: TIME_NS latches the seconds and the fraction, CAP_NS removes an entry. -/
def State.gaugeRead (s : State) (off : Nat) : Word × State :=
  if off = 0x104 then
    (w32 s.gaugeNs, (s.wr uGauge 0x108 (w32 s.gauge.sec)).wr uGauge 0x10C
      (w32 (s.gauge.sub / 2 ^ 12 % 2 ^ 16 * 2 ^ 16 + s.gauge.sec / 2 ^ 32 % 2 ^ 16)))
  else if 0x600 ≤ off && off < 0x700 && off % 32 = 4 then
    let (s, w) := s.capRead ((off - 0x600) / 32)
    (w, s)
  else s.readReg uGauge off

/-- A MILL register: the selected loop's record and coefficient, a timebase's counter, an encoder input as its filter has
let it count. -/
def State.millRead (s : State) (off : Nat) : Word × State :=
  if 0x400 ≤ off && off < 0x440 then
    let l := s.fld uMill 0x228 6 0
    if 95 < l then (0, s) else s.readReg (wLoop l) (off - 0x400)
  else if off = 0x248 then
    let l := s.fld uMill 0x240 22 16
    (if 95 < l then 0 else SMap.get (fun _ => 0) (s.fld uMill 0x240 7 0) (s.loop l).coef, s)
  else if 0x1400 ≤ off && off < 0x1440 && off % 8 = 4 then
    (w32 (s.tbCount ((off - 0x1400) / 8)), s)
  else if 0x1000 ≤ off && off < 0x1200 then (s.encSync ((off - 0x1000) / 16)).readReg uMill off
  else if 0x1200 ≤ off && off < 0x1280 then (s.encSync ((off - 0x1200) / 4)).readReg uMill off
  else s.readReg uMill off

/-- A FAULT register: the selected unit's health, the selected record. -/
def State.faultRead (s : State) (off : Nat) : Word × State :=
  if off = 0x12C then s.healthWord (s.fld uFault 0x128 12 0)
  else if 0x140 ≤ off && off < 0x180 then (nth (s.recordWords (s.rd uFault 0x114).toNat) ((off - 0x140) / 4) 0, s)
  else s.readReg uFault off

/-- A register of channel ch, read by any initiator that may read the unit. -/
def State.chanGet (s : State) (ch off : Nat) : Word × State :=
  if off = 4 then s.statusRead ch else if off = 0x14 then s.doneRead ch else s.readReg (wChan ch) off

/-- A PCIE register: channel 0, table entries that VFs own. -/
def State.pcieRead (s : State) (off : Nat) : Word × State :=
  if 0x1000 ≤ off && off < 0x1400 then s.chanGet 0 (off - 0x1000)
  else if 0x8000 ≤ off && s.vecOwner ((off - 0x8000) / 16) != 0 then (if off % 16 = 12 then 1 else 0, s)
  else s.readReg uPcie off

/-- A register read, by the class of its unit. -/
def State.classRead (s : State) (ini u off : Nat) (c : UClass) : Word × State :=
  match c with
  | .devctl => if off = 0x208 then s.gpioIn else s.readReg u off
  | .sched => if 0x240 ≤ off && off < 0x280 then s.clientRead ((off - 0x240) / 4) else s.readReg u off
  | .marks => if off = 0x100 then (s.rd (wSel ini) 0x100, s) else s.readReg u off
  | .xlate => s.readReg (s.xlBlock off) off
  | .gauge => s.gaugeRead off
  | .warden =>
    if 0x800 ≤ off && off < 0x900 && off % 16 = 8 then (w32 (min (s.elapsedUs ((off - 0x800) / 16)) (2 ^ 32 - 1)), s)
    else s.readReg u off
  | .tile => if off = 0x11C then (s.tileTest u, s) else s.readReg u off
  | .spareTile => if off = 0x11C then (s.tileTest u, s) else s.readReg u off
  | .bg => if off = 0x160 then s.maintNow.readReg u off else s.readReg u off
  | .mill => s.millRead off
  | .fault => s.faultRead off
  | .ep => if off = 0x210 then (s.qbvSync (u - uEP 0)).readReg u off else s.readReg u off
  | .pcie => s.pcieRead off
  | _ => s.readReg u off

/-- A read returned a word, or was refused. -/
def State.replyWord (r : Word × State) : State := { r.2 with reply := ⟨false, natBytes 4 r.1.toNat⟩ }
def State.replyErr (s : State) : State := { s with reply := ⟨true, []⟩ }

/-- A 32-bit read of offset off of the block of unit u; a block that is not enabled reads as 0 (R3). -/
def State.regRead (s : State) (ini u off : Nat) : State :=
  let a := regAddr u off
  match s.hasBlock u with
  | none => (s.addrError ini a).replyErr
  | some c =>
    if !s.exists? u then State.replyWord (0, s)
    else if !s.fwAllows ini a false then (s.fwRefuse ini a false).replyErr
    else if off < 0x40 then State.replyWord (s.ucbRead u (off / 4))
    else match procAt u off with
      | some (p, o) => State.replyWord (s.ucbRead p (o / 4))
      | none => State.replyWord (s.classRead ini u off c)

/-! ### Accesses by device address (R41, R42) -/

/-- Pieces of at most a page. -/
def pages : Nat → Nat → Nat → List (Nat × Nat)
  | 0, _, _ => []
  | f + 1, a, n => if n = 0 then [] else (let k := min n (4096 - a % 4096); (a, k) :: pages f (a + k) (n - k))

/-- An access of one piece to the Polder through port 30; a sleeping group is woken first (R214, R238). Its bank handshake is
the Polder's own. At a sluice that another holds its sender goes on as polRead and polWrite say. -/
def State.busPolder (s : State) (ini a n : Nat) (w : Option (List Byte)) : State :=
  let s := { s with reply := ⟨false, []⟩ }
  if widthOk a n && s.barred ini a n then
    match w with
    | some l => let (s, c) := s.polWrite ini a (l.take n); { s with reply := ⟨c != 0, []⟩ }
    | none => let (s, c, l) := s.polRead ini a n; { s with reply := ⟨c != 0, l⟩ }
  else
    let (hs, s) := s.fresh
    let t := s.polAccess ini 30 a n w hs.toNat
    if t.held.length = s.held.length then t else (s.asleepIn a n).foldl (fun (t : State) g => t.lateWake g) t

/-- A 32-bit access to a mark. -/
def State.busMark (s : State) (ini a : Nat) (w : Option (List Byte)) : State :=
  let m := (a - 0x10000000) / 4
  match w with
  | some l => s.markWrite ini m (bytesNat l)
  | none =>
    let (s, ok) := s.markAccess ini m false
    if ok then { s with reply := ⟨false, natBytes 4 (s.mark m)⟩ } else s

/-- Slot i of the queue cache: the descriptor, and at 0x38 VALID and the queue ID (R245). -/
def State.cacheWord (s : State) (i k : Nat) : Word :=
  match s.qcache.drop i with
  | x :: _ => if k = 14 then w32 (2 ^ 31 + x.id % 2 ^ 20) else qw x.words k
  | [] => 0

def State.busCache (s : State) (ini a : Nat) (w : Option (List Byte)) : State :=
  let o := a - 0x18000000
  if w.isSome then (s.accError ini a .readOnly).replyErr
  else State.replyWord (s.cacheWord (o / 64) (o % 64 / 4), s)

/-- A register write as a bus sees it: an error response where R42, a firewall or a claim refuses it. -/
def State.busReg (s : State) (ini a : Nat) (w : Option (List Byte)) : State :=
  let u := (a - 0x20000000) / 0x10000
  let off := a % 0x10000
  match w with
  | none => s.regRead ini u off
  | some l =>
    let t := ({ s with accErr := none, addrErr := none, reply := ⟨false, []⟩ } : State).regWrite ini u off (w32 (bytesNat l))
    let bad := t.addrErr.isSome || !s.fwAllows ini a true || (match t.accErr with
      | some e => e.cause = .notHolder || e.cause = .notEnabled
      | none => false)
    { t with
      accErr := if t.accErr.isSome then t.accErr else s.accErr
      addrErr := if t.addrErr.isSome then t.addrErr else s.addrErr
      reply := ⟨bad, []⟩ }

/-- LPDDR4X and host windows. -/
def State.busExt (s : State) (ini a n : Nat) (w : Option (List Byte)) : State :=
  match w with
  | some l =>
    let (s, r) := s.extWrite ini (s.xlClient ini) false a l
    { s with reply := ⟨r != .ok, []⟩ }
  | none =>
    let (s, r, d) := s.extRead ini (s.xlClient ini) false a n
    { s with reply := ⟨r != .ok, d⟩ }

/-- One piece of an access. -/
def State.busPiece (s : State) (ini a n : Nat) (w : Option (List Byte)) : State :=
  match regionOf s.part a with
  | .polder => s.busPolder ini a n w
  | .marks => s.busMark ini a w
  | .qcache => s.busCache ini a w
  | .regs => s.busReg ini a w
  | .lpddr => s.busExt ini a n w
  | .host => s.busExt ini a n w
  | _ => (s.addrError ini a).replyErr

/-- The bytes of a write that fall into a piece. -/
def cutData (w : Option (List Byte)) (first a n : Nat) : Option (List Byte) := w.map fun l => (l.drop (a - first)).take n

/-- Run the pieces one after the other; the reply holds what they read. -/
def State.busRun (s : State) (ini first : Nat) (w : Option (List Byte)) (ps : List (Nat × Nat)) : State :=
  let (s, d) := ps.foldl (fun (x : State × List Byte) p =>
    let t := x.1.busPiece ini p.1 p.2 (cutData w first p.1 p.2)
    (t, x.2 ++ t.reply.data)) (s, [])
  { s with reply := ⟨false, d⟩ }

/-- An access of n bytes at a device address. A register, a mark or a slot of the queue cache takes single aligned 32-bit
accesses only; a read of another kind returns 0 (R14). An access with a refused piece is refused whole. -/
def State.bus (s : State) (ini a n : Nat) (w : Option (List Byte)) : State :=
  let r := regionOf s.part a
  if n = 0 then { s with reply := ⟨false, []⟩ }
  else if r = .regs && (n != 4 || a % 4 != 0) || (r = .marks || r = .qcache) && (n % 4 != 0 || a % 4 != 0) then
    { s.accError ini a .access with reply := ⟨false, if w.isSome then [] else List.replicate n 0⟩ }
  else if regionOf s.part (a + n - 1) != r then (s.addrError ini (a + n - 1)).replyErr
  else
    let ps := match r with
      | .polder => pieces n a n
      | .marks => (List.range (n / 4)).map fun i => (a + 4 * i, 4)
      | .qcache => (List.range (n / 4)).map fun i => (a + 4 * i, 4)
      | .regs => [(a, n)]
      | _ => pages (pagesFor n) a n
    match ps.find? fun p => (s.busPiece ini p.1 p.2 (cutData w a p.1 p.2)).reply.err with
    | some p => s.busPiece ini p.1 p.2 (cutData w a p.1 p.2)
    | none => s.busRun ini a w ps

/-- JTAG's channel has no device address: the model gives it one above them all (notes/assumptions/96.md). -/
def jtagBase : Nat := 2 ^ 48

/-- A write of a width in bytes by an initiator at a device address. -/
def execRegisterWrite (ini addr width value : Nat) (s : State) : Out :=
  .next (if jtagBase ≤ addr && addr < jtagBase + 0x400 then
      if width = 4 && addr % 4 = 0 then s.chanWrite ini 35 (addr - jtagBase) (w32 value) else s.accError ini addr .access
    else if width = 4 && addr % 4 = 0 then s.bus ini addr 4 (some (natBytes 4 value))
    else s.accError ini addr .access)

/-! ### PCIe (R485–R488, R503) -/

/-- A refused request: Completer Abort for a read, a write is discarded; PCIE_UR counts it. -/
def State.urCount (s : State) : State := if s.reply.err then s.count uPcie 0x118 1 else s

/-- A 32-bit access to a VF page. -/
def State.vfPage (s : State) (n off : Nat) (w : Option (List Byte)) : State :=
  let ini := 0x100 + n
  match w with
  | some l =>
    let v := w32 (bytesNat l)
    let s : State := { s with reply := ⟨false, []⟩ }
    if off < 0x400 then s.chanWrite ini n off v
    else if off = 0x400 then s.vfDoorbell n v
    else if 0x1000 ≤ off && off < 0x1800 then s.msixWrite ini n ((off - 0x1000) / 16) (off % 16 / 4) v
    else if (findRow (wVf n) off).isSome then s.accError ini off .readOnly
    else if v = 0 then s else s.accError ini off .reserved
  | none =>
    if off < 0x400 then State.replyWord (s.chanGet n off)
    else if 0x1000 ≤ off && off < 0x1800 && s.fld uPcie (0x200 + 8 * (n - 1)) 7 0 ≤ (off - 0x1000) / 16 then State.replyWord (0, s)
    else State.replyWord (s.readReg (wVf n) off)

/-- Where a PF's BAR offset reaches. -/
def State.barAddr (s : State) (bar off : Nat) : Option Nat :=
  match bar with
  | 0 => if off < 2 ^ 29 then some (0x20000000 + off) else none
  | 2 => if off < 2 ^ 29 then some off else none
  | 4 => if off < 2 ^ 32 then some (0x100000000 + s.fld uPcie 0x108 6 0 * 2 ^ 30 + off) else none
  | _ => none

/-- A memory request of a function. -/
def State.pcieMem (s : State) (fn bar off n : Nat) (w : Option (List Byte)) : State :=
  if fn = 0 then
    match s.barAddr bar off, s.barAddr bar (off + n - 1) with
    | some a, some _ => (s.bus 0x100 a n w).urCount
    | _, _ => s.replyErr.urCount
  else if !s.vfOn fn || bar != 0 || 0x10000 < off + n then s.replyErr.urCount
  else if n != 4 || off % 4 != 0 then
    { s.accError (0x100 + fn) off .access with reply := ⟨false, if w.isSome then [] else List.replicate n 0⟩ }
  else s.vfPage fn off w

/-- A request of a function: kind 0 a memory read, 1 a memory write, 2 Bus Master Enable and 3 VF Enable with n VFs in
configuration space, where the PF asks for a retry until the endpoint is set up. -/
def State.pcieRequest (s : State) (kind fn bar off n : Nat) (data : List Byte) : State :=
  if !s.linkUp then s.replyErr
  else match kind with
    | 0 => s.pcieMem fn bar off (min n 4096) none
    | 1 => s.pcieMem fn bar off (min data.length 512) (some (data.take 512))
    | _ =>
      if !s.flag uTrust 0x104 31 then s.replyErr
      else if kind = 2 then { s.setBusMaster fn (n != 0) with reply := ⟨false, []⟩ }
      else { s.setVfs (min n 32) with reply := ⟨false, []⟩ }

def execPcieRequest (kind fn bar off n : Nat) (data : List Byte) (s : State) : Out :=
  .next (s.pcieRequest (kind % 4) (fn % 33) bar off n data)

/-! ### SDIO (R498–R500) -/

/-- The CIA's registers that act on the port (notes/assumptions/97.md): I/O enable, I/O abort, bus width, bus speed. -/
def State.ciaWrite (s : State) (off : Nat) (b : Nat) : State :=
  match off with
  | 2 => (s.setFlag uSdio 0x100 26 (b / 2 % 2 = 1)).setFlag uSdio 0x100 25 (b / 4 % 2 = 1)
  | 6 => if b / 8 % 2 = 1 then s.sdioReset 0 else s
  | 7 => s.setFlag uSdio 0x100 27 (b % 4 = 2)
  | 0x13 => s.setFld uSdio 0x100 30 28 (b / 2 % 8 + 2)
  | _ => s

/-- A CIA byte as read. -/
def State.ciaRead (s : State) (off : Nat) : Byte × State :=
  let en := b2n (s.flag uSdio 0x100 26) * 2 + b2n (s.flag uSdio 0x100 25) * 4
  if off = 2 || off = 3 then (BitVec.ofNat 8 en, s)
  else
    let (w, s) := s.fresh
    (BitVec.ofNat 8 w.toNat, s)

/-- A 32-bit write to function 1. -/
def State.fn1Write (s : State) (off : Nat) (v : Word) : State :=
  if off = 0 then (if s.pairRuns then s.heartbeat v.toNat else s)
  else if off = 8 then s.supCmd v.toNat
  else if 0x400 ≤ off && off < 0x800 then s.chanWrite 0x180 33 (off - 0x400) v
  else match findRow wSdioF1 off with
    | none => if v = 0 then s else s.accError 0x180 off .reserved
    | some r => match r.bad v with
      | some c => s.accError 0x180 off c
      | none => s.store wSdioF1 off v

def State.fn1Read (s : State) (off : Nat) : Word × State :=
  if off = 0xC then (s.rd uWarden 0x200, s)
  else if off = 0x10 then (s.rd uWarden 0x254, s)
  else if off = 0x14 then (s.rd uWarden 0x228, s)
  else if 0x400 ≤ off && off < 0x800 then s.chanGet 33 (off - 0x400)
  else s.readReg wSdioF1 off

/-- The address that a window offset of function 2 reaches. -/
def State.winAddr (s : State) (off : Nat) : Nat :=
  s.fld wSdioF2 0x800 31 12 * 4096 + 2 ^ 32 * s.fld wSdioF2 0x804 15 0 + off % 4096

def State.fn2Access (s : State) (off : Nat) (w : Option (List Byte)) : State :=
  if 0x1000 ≤ off && off < 0x2000 then s.bus 0x181 (s.winAddr off) 4 w
  else match w with
    | some l =>
      let v := w32 (bytesNat l)
      let s : State := { s with reply := ⟨false, []⟩ }
      if 0x400 ≤ off && off < 0x800 then s.chanWrite 0x181 34 (off - 0x400) v
      else match findRow wSdioF2 off with
        | none => if v = 0 then s else s.accError 0x181 off .reserved
        | some r => match r.bad v with
          | some c => s.accError 0x181 off c
          | none => s.store wSdioF2 off v
    | none => State.replyWord (if 0x400 ≤ off && off < 0x800 then s.chanGet 34 (off - 0x400) else s.readReg wSdioF2 off)

/-- One 32-bit word of a transfer of function 1 or 2. -/
def State.fnAccess (s : State) (fn off : Nat) (w : Option (List Byte)) : State :=
  if fn = 1 then
    match w with
    | some l => { s.fn1Write off (w32 (bytesNat l)) with reply := ⟨false, []⟩ }
    | none => State.replyWord (s.fn1Read off)
  else s.fn2Access off w

/-- The CIA, byte by byte. -/
def State.ciaRun (s : State) (off n : Nat) (w : Option (List Byte)) : State :=
  match w with
  | some l => { (l.zipIdx).foldl (fun (s : State) (b, i) => s.ciaWrite (off + i) b.toNat) s with reply := ⟨false, []⟩ }
  | none =>
    let (s, d) := (List.range n).foldl (fun (x : State × List Byte) i =>
      let (b, s) := x.1.ciaRead (off + i)
      (s, x.2 ++ [b])) (s, [])
    { s with reply := ⟨false, d⟩ }

/-- CMD52 (one byte) or CMD53 on a function: a write keeps every whole word received; a byte or an unaligned transfer of
function 1 or 2 meets R14. fixed: every word goes to the same address. -/
def State.sdioCommand (s : State) (write : Bool) (fn off n : Nat) (fixed : Bool) (data : List Byte) : State :=
  let w := if write then some data else none
  if fn = 0 then s.ciaRun off n w
  else
    let k := (if write then data.length else n) / 4
    if off % 4 != 0 || (!write && n % 4 != 0) || (write && k = 0 && !data.isEmpty) then
      { s.accError (0x17F + fn) off .access with reply := ⟨false, if write then [] else List.replicate n 0⟩ }
    else
      let (s, d, e) := (List.range k).foldl (fun (x : State × List Byte × Bool) i =>
        let t := x.1.fnAccess fn (if fixed then off else off + 4 * i) (cutData w off (off + 4 * i) 4)
        (t, x.2.1 ++ t.reply.data, x.2.2 || t.reply.err)) (s, [], false)
      { s with reply := ⟨e, d⟩ }

def execSdioCommand (write : Bool) (fn off n : Nat) (fixed : Bool) (data : List Byte) (s : State) : Out :=
  .next (s.sdioCommand write (fn % 3) (off % 2 ^ 17) (min n 65536) fixed data)

end Sys2Proof.Machine
end

