-- ==== Sys2Proof/Machine/Dispatch.lean ====
section
/-! DEFINITION. The meaning of each command: one arm per constructor of Instr. -/
namespace Sys2Proof.Machine

/-- What a command does to everything but the queue. -/
def exec (i : Instr) (s : State) : Host.Outcome State Fault Refusal :=
  match i with
  | .registerWrite ini addr width value => Sys2Proof.Machine.execRegisterWrite ini addr width value s
  | .deviceInformation ini args => Sys2Proof.Machine.execDeviceInformation ini args s
  | .claimUnit ini args => Sys2Proof.Machine.execClaimUnit ini args s
  | .releaseUnit ini args => Sys2Proof.Machine.execReleaseUnit ini args s
  | .rateWindowEnd mon count off => Sys2Proof.Machine.execRateWindowEnd mon count off s
  | .ucbRequestDrain ini u => Sys2Proof.Machine.execUcbRequestDrain ini u s
  | .ucbRequestTest ini u => Sys2Proof.Machine.execUcbRequestTest ini u s
  | .ucbRequestReadmit ini u => Sys2Proof.Machine.execUcbRequestReadmit ini u s
  | .unitDrained u => Sys2Proof.Machine.execUnitDrained u s
  | .selfTestDone u pass => Sys2Proof.Machine.execSelfTestDone u pass s
  | .readUnitControlBlock ini args => Sys2Proof.Machine.execReadUnitControlBlock ini args s
  | .requestUnitState ini args => Sys2Proof.Machine.execRequestUnitState ini args s
  | .listUnits ini args => Sys2Proof.Machine.execListUnits ini args s
  | .readRateMonitors ini args => Sys2Proof.Machine.execReadRateMonitors ini args s
  | .readNumericIdentity ini args => Sys2Proof.Machine.execReadNumericIdentity ini args s
  | .windowBounds ini args => Sys2Proof.Machine.execWindowBounds ini args s
  | .writeRescaleTable ini args => Sys2Proof.Machine.execWriteRescaleTable ini args s
  | .readStatistics ini args => Sys2Proof.Machine.execReadStatistics ini args s
  | .setScaleGuard ini args => Sys2Proof.Machine.execSetScaleGuard ini args s
  | .readNumericTotals ini args => Sys2Proof.Machine.execReadNumericTotals ini args s
  | .clCfgSpareWrite ini c value => Sys2Proof.Machine.execClCfgSpareWrite ini c value s
  | .readClusterStatus ini args => Sys2Proof.Machine.execReadClusterStatus ini args s
  | .formGang ini args => Sys2Proof.Machine.execFormGang ini args s
  | .gangFormed g => Sys2Proof.Machine.execGangFormed g s
  | .dissolveGang ini args => Sys2Proof.Machine.execDissolveGang ini args s
  | .gangDissolved g => Sys2Proof.Machine.execGangDissolved g s
  | .setSpareEnable ini args => Sys2Proof.Machine.execSetSpareEnable ini args s
  | .readTileCounters ini args => Sys2Proof.Machine.execReadTileCounters ini args s
  | .readStepTable ini args => Sys2Proof.Machine.execReadStepTable ini args s
  | .teFeedWrite ini e value => Sys2Proof.Machine.execTeFeedWrite ini e value s
  | .readToeEngineStatus ini args => Sys2Proof.Machine.execReadToeEngineStatus ini args s
  | .bindToeFeed ini args => Sys2Proof.Machine.execBindToeFeed ini args s
  | .readToeCounters ini args => Sys2Proof.Machine.execReadToeCounters ini args s
  | .buildPaddingTapTable ini args => Sys2Proof.Machine.execBuildPaddingTapTable ini args s
  | .winogradWindowBounds ini args => Sys2Proof.Machine.execWinogradWindowBounds ini args s
  | .veCfgWrite ini v value => Sys2Proof.Machine.execVeCfgWrite ini v value s
  | .readTableSet ini args => Sys2Proof.Machine.execReadTableSet ini args s
  | .evaluateSpecialFunction ini args => Sys2Proof.Machine.execEvaluateSpecialFunction ini args s
  | .readVectorEngineCounters ini args => Sys2Proof.Machine.execReadVectorEngineCounters ini args s
  | .setArrivalOrder ini args => Sys2Proof.Machine.execSetArrivalOrder ini args s
  | .doorbell ini q => Sys2Proof.Machine.execDoorbell ini q s
  | .entryRead q => Sys2Proof.Machine.execEntryRead q s
  | .startConditionMet q => Sys2Proof.Machine.execStartConditionMet q s
  | .commandDispatch x => Sys2Proof.Machine.execCommandDispatch x s
  | .instructionComplete x unit hs blocks bytes stalls => Sys2Proof.Machine.execInstructionComplete x unit hs blocks bytes stalls s
  | .commandEpilogue x steps => Sys2Proof.Machine.execCommandEpilogue x steps s
  | .eventRouteSignal c => Sys2Proof.Machine.execEventRouteSignal c s
  | .budgetExpiry x => Sys2Proof.Machine.execBudgetExpiry x s
  | .nop x => Sys2Proof.Machine.execNop x s
  | .tdaddr x => Sys2Proof.Machine.execTdaddr x s
  | .tdfmt x => Sys2Proof.Machine.execTdfmt x s
  | .tdstride x => Sys2Proof.Machine.execTdstride x s
  | .tdscale x => Sys2Proof.Machine.execTdscale x s
  | .tddim x => Sys2Proof.Machine.execTddim x s
  | .tdmemb x => Sys2Proof.Machine.execTdmemb x s
  | .winset x => Sys2Proof.Machine.execWinset x s
  | .cpset x => Sys2Proof.Machine.execCpset x s
  | .sset x => Sys2Proof.Machine.execSset x s
  | .fence x => Sys2Proof.Machine.execFence x s
  | .only x => Sys2Proof.Machine.execOnly x s
  | .rmset x => Sys2Proof.Machine.execRmset x s
  | .move x => Sys2Proof.Machine.execMove x s
  | .move2d x => Sys2Proof.Machine.execMove2d x s
  | .fill x => Sys2Proof.Machine.execFill x s
  | .scaletag x => Sys2Proof.Machine.execScaletag x s
  | .pages x => Sys2Proof.Machine.execPages x s
  | .matmul x => Sys2Proof.Machine.execMatmul x s
  | .conv x => Sys2Proof.Machine.execConv x s
  | .psadd x => Sys2Proof.Machine.execPsadd x s
  | .elem x => Sys2Proof.Machine.execElem x s
  | .special x => Sys2Proof.Machine.execSpecial x s
  | .reduce x => Sys2Proof.Machine.execReduce x s
  | .lnorm x => Sys2Proof.Machine.execLnorm x s
  | .rmsnorm x => Sys2Proof.Machine.execRmsnorm x s
  | .softmax x => Sys2Proof.Machine.execSoftmax x s
  | .mxquant x => Sys2Proof.Machine.execMxquant x s
  | .sgd x => Sys2Proof.Machine.execSgd x s
  | .adam x => Sys2Proof.Machine.execAdam x s
  | .blksoftmax x => Sys2Proof.Machine.execBlksoftmax x s
  | .xreduce x => Sys2Proof.Machine.execXreduce x s
  | .dwconv x => Sys2Proof.Machine.execDwconv x s
  | .pool x => Sys2Proof.Machine.execPool x s
  | .blkmerge x => Sys2Proof.Machine.execBlkmerge x s
  | .merge x => Sys2Proof.Machine.execMerge x s
  | .final x => Sys2Proof.Machine.execFinal x s
  | .tconv x => Sys2Proof.Machine.execTconv x s
  | .mwaitge x => Sys2Proof.Machine.execMwaitge x s
  | .mwaiteq x => Sys2Proof.Machine.execMwaiteq x s
  | .markWaitSatisfied x unit => Sys2Proof.Machine.execMarkWaitSatisfied x unit s
  | .msignal x => Sys2Proof.Machine.execMsignal x s
  | .madd x => Sys2Proof.Machine.execMadd x s
  | .msignalr x => Sys2Proof.Machine.execMsignalr x s
  | .maddr x => Sys2Proof.Machine.execMaddr x s
  | .brkset x => Sys2Proof.Machine.execBrkset x s
  | .lopen x => Sys2Proof.Machine.execLopen x s
  | .lockPassageOpen x => Sys2Proof.Machine.execLockPassageOpen x s
  | .lclose x => Sys2Proof.Machine.execLclose x s
  | .remit x => Sys2Proof.Machine.execRemit x s
  | .validateCommandBlock ini args => Sys2Proof.Machine.execValidateCommandBlock ini args s
  | .readPecCapabilities ini args => Sys2Proof.Machine.execReadPecCapabilities ini args s
  | .min lc => Sys2Proof.Machine.execMin lc s
  | .mout lc => Sys2Proof.Machine.execMout lc s
  | .fmak lc => Sys2Proof.Machine.execFmak lc s
  | .fma lc => Sys2Proof.Machine.execFma lc s
  | .add lc => Sys2Proof.Machine.execAdd lc s
  | .sub lc => Sys2Proof.Machine.execSub lc s
  | .mul lc => Sys2Proof.Machine.execMul lc s
  | .clamp lc => Sys2Proof.Machine.execClamp lc s
  | .biq lc => Sys2Proof.Machine.execBiq lc s
  | .sstep lc => Sys2Proof.Machine.execSstep lc s
  | .pid lc => Sys2Proof.Machine.execPid lc s
  | .obs lc => Sys2Proof.Machine.execObs lc s
  | .strec lc => Sys2Proof.Machine.execStrec lc s
  | .polderAccess ini port addr len write data hs => Sys2Proof.Machine.execPolderAccess ini port addr len write data hs s
  | .breakPoint b reqs => Sys2Proof.Machine.execBreakPoint b reqs s
  | .gatherIdleFlush b row => Sys2Proof.Machine.execGatherIdleFlush b row s
  | .sluiceWatchdogBite b => Sys2Proof.Machine.execSluiceWatchdogBite b s
  | .creditWaitEnd x unit hs => Sys2Proof.Machine.execCreditWaitEnd x unit hs s
  | .scrubRow b row outcome => Sys2Proof.Machine.execScrubRow b row outcome s
  | .bankCopyDone b => Sys2Proof.Machine.execBankCopyDone b s
  | .maintWaitLimit g => Sys2Proof.Machine.execMaintWaitLimit g s
  | .bgIdleRetention g => Sys2Proof.Machine.execBgIdleRetention g s
  | .bgLateWake g => Sys2Proof.Machine.execBgLateWake g s
  | .pclLocWrite ini p value => Sys2Proof.Machine.execPclLocWrite ini p value s
  | .pclOwnerWrite ini p value => Sys2Proof.Machine.execPclOwnerWrite ini p value s
  | .pclCreditWrite ini p value => Sys2Proof.Machine.execPclCreditWrite ini p value s
  | .pclRightWrite ini p idx value => Sys2Proof.Machine.execPclRightWrite ini p idx value s
  | .createParcel ini args => Sys2Proof.Machine.execCreateParcel ini args s
  | .parcelZeroed p => Sys2Proof.Machine.execParcelZeroed p s
  | .deleteParcel ini args => Sys2Proof.Machine.execDeleteParcel ini args s
  | .parcelDeletionMade p => Sys2Proof.Machine.execParcelDeletionMade p s
  | .readParcel ini args => Sys2Proof.Machine.execReadParcel ini args s
  | .setParcelRights ini args => Sys2Proof.Machine.execSetParcelRights ini args s
  | .readCredits ini args => Sys2Proof.Machine.execReadCredits ini args s
  | .setWaitLimits ini args => Sys2Proof.Machine.execSetWaitLimits ini args s
  | .setSluiceWatchdog ini args => Sys2Proof.Machine.execSetSluiceWatchdog ini args s
  | .readBankGroup ini args => Sys2Proof.Machine.execReadBankGroup ini args s
  | .spareABank ini args => Sys2Proof.Machine.execSpareABank ini args s
  | .setHazardDetector ini args => Sys2Proof.Machine.execSetHazardDetector ini args s
  | .locateAddress ini args => Sys2Proof.Machine.execLocateAddress ini args s
  | .qinval ini q => Sys2Proof.Machine.execQinval ini q s
  | .qinvalAll ini => Sys2Proof.Machine.execQinvalAll ini s
  | .clientWordWrite ini k value => Sys2Proof.Machine.execClientWordWrite ini k value s
  | .markWindowWrite ini m value => Sys2Proof.Machine.execMarkWindowWrite ini m value s
  | .markAddWrite ini value => Sys2Proof.Machine.execMarkAddWrite ini value s
  | .reservationEffective q => Sys2Proof.Machine.execReservationEffective q s
  | .xlateTimeoutExpiry x => Sys2Proof.Machine.execXlateTimeoutExpiry x s
  | .createClient ini args => Sys2Proof.Machine.execCreateClient ini args s
  | .setShare ini args => Sys2Proof.Machine.execSetShare ini args s
  | .readClientAccounting ini args => Sys2Proof.Machine.execReadClientAccounting ini args s
  | .createOrChangeQueue ini args => Sys2Proof.Machine.execCreateOrChangeQueue ini args s
  | .deleteQueue ini args => Sys2Proof.Machine.execDeleteQueue ini args s
  | .enableHaltOrResumeQueue ini args => Sys2Proof.Machine.execEnableHaltOrResumeQueue ini args s
  | .reserve ini args => Sys2Proof.Machine.execReserve ini args s
  | .releaseReservation ini args => Sys2Proof.Machine.execReleaseReservation ini args s
  | .resolveTranslationStall ini args => Sys2Proof.Machine.execResolveTranslationStall ini args s
  | .watchMark ini args => Sys2Proof.Machine.execWatchMark ini args s
  | .signalOrAddMark ini args => Sys2Proof.Machine.execSignalOrAddMark ini args s
  | .readQueue ini args => Sys2Proof.Machine.execReadQueue ini args s
  | .sameBitsWrite ini value => Sys2Proof.Machine.execSameBitsWrite ini value s
  | .setSameBitsMode ini args => Sys2Proof.Machine.execSetSameBitsMode ini args s
  | .readFingerprint ini args => Sys2Proof.Machine.execReadFingerprint ini args s
  | .verifyRind ini args => Sys2Proof.Machine.execVerifyRind ini args s
  | .loadWeights ini args => Sys2Proof.Machine.execLoadWeights ini args s
  | .weightsFoldDone p => Sys2Proof.Machine.execWeightsFoldDone p s
  | .readWeightsDigest ini args => Sys2Proof.Machine.execReadWeightsDigest ini args s
  | .clearWeightsDigest ini args => Sys2Proof.Machine.execClearWeightsDigest ini args s
  | .readSameBitsCounters ini args => Sys2Proof.Machine.execReadSameBitsCounters ini args s
  | .readQueueWeightsDigest ini args => Sys2Proof.Machine.execReadQueueWeightsDigest ini args s
  | .axWrite h addr len data late => Sys2Proof.Machine.execAxWrite h addr len data late s
  | .axMsignal h mark value late => Sys2Proof.Machine.execAxMsignal h mark value late s
  | .axMadd h mark value late => Sys2Proof.Machine.execAxMadd h mark value late s
  | .axCreditReq h addr kib late => Sys2Proof.Machine.execAxCreditReq h addr kib late s
  | .axCreditGrant h addr kib => Sys2Proof.Machine.execAxCreditGrant h addr kib s
  | .axCreditReturn h addr kib late => Sys2Proof.Machine.execAxCreditReturn h addr kib late s
  | .axAck h tagDone => Sys2Proof.Machine.execAxAck h tagDone s
  | .axNack h tagBad cause => Sys2Proof.Machine.execAxNack h tagBad cause s
  | .axCtlFlit port ack bufs nak lanes width ringId npos pos formed twice fp seen => Sys2Proof.Machine.execAxCtlFlit port ack bufs nak lanes width ringId npos pos formed twice fp seen s
  | .axFlitCrcError port lanes again came => Sys2Proof.Machine.execAxFlitCrcError port lanes again came s
  | .retrainDone port good rtt => Sys2Proof.Machine.execRetrainDone port good rtt s
  | .hopDown port hop cause => Sys2Proof.Machine.execHopDown port hop cause s
  | .rerouteDone => Sys2Proof.Machine.execRerouteDone s
  | .axIdleEntry port => Sys2Proof.Machine.execAxIdleEntry port s
  | .wakePatternDetect port => Sys2Proof.Machine.execWakePatternDetect port s
  | .linkAckTimeout pos stream tag => Sys2Proof.Machine.execLinkAckTimeout pos stream tag s
  | .ringFormed bonds => Sys2Proof.Machine.execRingFormed bonds s
  | .formRing ini args => Sys2Proof.Machine.execFormRing ini args s
  | .dissolveRing ini args => Sys2Proof.Machine.execDissolveRing ini args s
  | .ringDissolved => Sys2Proof.Machine.execRingDissolved s
  | .readRing ini args => Sys2Proof.Machine.execReadRing ini args s
  | .readPort ini args => Sys2Proof.Machine.execReadPort ini args s
  | .configurePort ini args => Sys2Proof.Machine.execConfigurePort ini args s
  | .sendWake ini args => Sys2Proof.Machine.execSendWake ini args s
  | .setRingLimits ini args => Sys2Proof.Machine.execSetRingLimits ini args s
  | .remoteMarkOperation ini args => Sys2Proof.Machine.execRemoteMarkOperation ini args s
  | .liveEnableWrite ini v value => Sys2Proof.Machine.execLiveEnableWrite ini v value s
  | .liveFrameTake v => Sys2Proof.Machine.execLiveFrameTake v s
  | .liveFrameDone v hs => Sys2Proof.Machine.execLiveFrameDone v hs s
  | .jobCtlStart ini v => Sys2Proof.Machine.execJobCtlStart ini v s
  | .jobCtlStop ini v => Sys2Proof.Machine.execJobCtlStop ini v s
  | .jobCtlResume ini v => Sys2Proof.Machine.execJobCtlResume ini v s
  | .jobCtlAbort ini v => Sys2Proof.Machine.execJobCtlAbort ini v s
  | .sampleDecodeDone v dec ns => Sys2Proof.Machine.execSampleDecodeDone v dec ns s
  | .decodeDeferTimeout v => Sys2Proof.Machine.execDecodeDeferTimeout v s
  | .decodeHardLimit v pos => Sys2Proof.Machine.execDecodeHardLimit v pos s
  | .batchDone v => Sys2Proof.Machine.execBatchDone v s
  | .hostDecodeDone v pos done ns raw => Sys2Proof.Machine.execHostDecodeDone v pos done ns raw s
  | .vatFetchTimeoutExpiry v => Sys2Proof.Machine.execVatFetchTimeoutExpiry v s
  | .readVatStatus ini args => Sys2Proof.Machine.execReadVatStatus ini args s
  | .setLiveStream ini args => Sys2Proof.Machine.execSetLiveStream ini args s
  | .startBatchJob ini args => Sys2Proof.Machine.execStartBatchJob ini args s
  | .stopOrAbortJob ini args => Sys2Proof.Machine.execStopOrAbortJob ini args s
  | .resolveJobStall ini args => Sys2Proof.Machine.execResolveJobStall ini args s
  | .configureCellar ini args => Sys2Proof.Machine.execConfigureCellar ini args s
  | .invalidateCellar ini args => Sys2Proof.Machine.execInvalidateCellar ini args s
  | .setSlowDecodeLimits ini args => Sys2Proof.Machine.execSetSlowDecodeLimits ini args s
  | .setSharedDecode ini args => Sys2Proof.Machine.execSetSharedDecode ini args s
  | .referenceDecode ini args => Sys2Proof.Machine.execReferenceDecode ini args s
  | .readVatCounters ini args => Sys2Proof.Machine.execReadVatCounters ini args s
  | .csi2FrameStart link vc hdr => Sys2Proof.Machine.execCsi2FrameStart link vc hdr s
  | .csi2Line link vc dt hdr crc overflow payload freed => Sys2Proof.Machine.execCsi2Line link vc dt hdr crc overflow payload freed s
  | .csi2EmbeddedLine link vc hdr crc payload => Sys2Proof.Machine.execCsi2EmbeddedLine link vc hdr crc payload s
  | .csi2FrameEnd link vc hdr linePs rate => Sys2Proof.Machine.execCsi2FrameEnd link vc hdr linePs rate s
  | .frameLateExpiry p => Sys2Proof.Machine.execFrameLateExpiry p s
  | .cameraMove p => Sys2Proof.Machine.execCameraMove p s
  | .clStreamWrite ini l idx value => Sys2Proof.Machine.execClStreamWrite ini l idx value s
  | .ppCtlLoad ini p => Sys2Proof.Machine.execPpCtlLoad ini p s
  | .ppCtlStart ini p => Sys2Proof.Machine.execPpCtlStart ini p s
  | .ppCtlStop ini p => Sys2Proof.Machine.execPpCtlStop ini p s
  | .ppCtlStopNow ini p => Sys2Proof.Machine.execPpCtlStopNow ini p s
  | .ppPsetGo ini p value => Sys2Proof.Machine.execPpPsetGo ini p value s
  | .readLink ini args => Sys2Proof.Machine.execReadLink ini args s
  | .configureLink ini args => Sys2Proof.Machine.execConfigureLink ini args s
  | .loadDescriptor ini args => Sys2Proof.Machine.execLoadDescriptor ini args s
  | .startOrStopPipeline ini args => Sys2Proof.Machine.execStartOrStopPipeline ini args s
  | .pushParameterSet ini args => Sys2Proof.Machine.execPushParameterSet ini args s
  | .setFlickerThreshold ini args => Sys2Proof.Machine.execSetFlickerThreshold ini args s
  | .setSpare ini args => Sys2Proof.Machine.execSetSpare ini args s
  | .moveCamera ini args => Sys2Proof.Machine.execMoveCamera ini args s
  | .readPipeline ini args => Sys2Proof.Machine.execReadPipeline ini args s
  | .millSegment lc => Sys2Proof.Machine.execMillSegment lc s
  | .millSegmentOverrun lc => Sys2Proof.Machine.execMillSegmentOverrun lc s
  | .millCoreFault core late => Sys2Proof.Machine.execMillCoreFault core late s
  | .lawCtlGo ini l fb => Sys2Proof.Machine.execLawCtlGo ini l fb s
  | .loopCtlEnable ini l => Sys2Proof.Machine.execLoopCtlEnable ini l s
  | .loopCtlDisable ini l => Sys2Proof.Machine.execLoopCtlDisable ini l s
  | .loopCtlFallback ini l => Sys2Proof.Machine.execLoopCtlFallback ini l s
  | .loopCtlReturn ini l => Sys2Proof.Machine.execLoopCtlReturn ini l s
  | .coefWr ini value => Sys2Proof.Machine.execCoefWr ini value s
  | .encoderEdge idx illegal up => Sys2Proof.Machine.execEncoderEdge idx illegal up s
  | .encoderIndex idx => Sys2Proof.Machine.execEncoderIndex idx s
  | .serialReadDone idx raw crc start => Sys2Proof.Machine.execSerialReadDone idx raw crc start s
  | .pwmPeriodStart tb => Sys2Proof.Machine.execPwmPeriodStart tb s
  | .axisFrameReceive p src group kind words => Sys2Proof.Machine.execAxisFrameReceive p src group kind words s
  | .axisFrameStale f => Sys2Proof.Machine.execAxisFrameStale f s
  | .axisFramePartialSend f => Sys2Proof.Machine.execAxisFramePartialSend f s
  | .qbvGateEntryEnd p => Sys2Proof.Machine.execQbvGateEntryEnd p s
  | .qbvSwap ini p value => Sys2Proof.Machine.execQbvSwap ini p value s
  | .readMillStatus ini args => Sys2Proof.Machine.execReadMillStatus ini args s
  | .configureLoop ini args => Sys2Proof.Machine.execConfigureLoop ini args s
  | .loadLaw ini args => Sys2Proof.Machine.execLoadLaw ini args s
  | .enableOrDisableLoop ini args => Sys2Proof.Machine.execEnableOrDisableLoop ini args s
  | .writeCoefficients ini args => Sys2Proof.Machine.execWriteCoefficients ini args s
  | .readCoefficients ini args => Sys2Proof.Machine.execReadCoefficients ini args s
  | .readLoop ini args => Sys2Proof.Machine.execReadLoop ini args s
  | .configureEncoder ini args => Sys2Proof.Machine.execConfigureEncoder ini args s
  | .configurePwm ini args => Sys2Proof.Machine.execConfigurePwm ini args s
  | .clearLoopFlags ini args => Sys2Proof.Machine.execClearLoopFlags ini args s
  | .fallbackOrReturn ini args => Sys2Proof.Machine.execFallbackOrReturn ini args s
  | .configureAxisFrame ini args => Sys2Proof.Machine.execConfigureAxisFrame ini args s
  | .bindTrigger ini args => Sys2Proof.Machine.execBindTrigger ini args s
  | .decisionPass => Sys2Proof.Machine.execDecisionPass s
  | .gateSetCheck => Sys2Proof.Machine.execGateSetCheck s
  | .setDeadlineExpiry => Sys2Proof.Machine.execSetDeadlineExpiry s
  | .digestCompare e => Sys2Proof.Machine.execDigestCompare e s
  | .digestPeriodExpiry e => Sys2Proof.Machine.execDigestPeriodExpiry e s
  | .starterCheck idx => Sys2Proof.Machine.execStarterCheck idx s
  | .hbWordWrite value => Sys2Proof.Machine.execHbWordWrite value s
  | .hbTimeoutExpiry => Sys2Proof.Machine.execHbTimeoutExpiry s
  | .pairFailure pair => Sys2Proof.Machine.execPairFailure pair s
  | .wardenWatchdogBite => Sys2Proof.Machine.execWardenWatchdogBite s
  | .pinFeedbackTimeout pin => Sys2Proof.Machine.execPinFeedbackTimeout pin s
  | .taskDeadlineExpiry t => Sys2Proof.Machine.execTaskDeadlineExpiry t s
  | .sliceStart u => Sys2Proof.Machine.execSliceStart u s
  | .sliceDone u pass => Sys2Proof.Machine.execSliceDone u pass s
  | .debtWindowEnd => Sys2Proof.Machine.execDebtWindowEnd s
  | .wdCmdArm ini => Sys2Proof.Machine.execWdCmdArm ini s
  | .wdCmdForceSafe ini => Sys2Proof.Machine.execWdCmdForceSafe ini s
  | .wdCmdRelease ini => Sys2Proof.Machine.execWdCmdRelease ini s
  | .wdCmdEnterTest ini => Sys2Proof.Machine.execWdCmdEnterTest ini s
  | .wdCmdLeaveTest ini => Sys2Proof.Machine.execWdCmdLeaveTest ini s
  | .supCmdWrite value => Sys2Proof.Machine.execSupCmdWrite value s
  | .fwLockWrite ini value => Sys2Proof.Machine.execFwLockWrite ini value s
  | .readWardenStatus ini args => Sys2Proof.Machine.execReadWardenStatus ini args s
  | .arm ini args => Sys2Proof.Machine.execArm ini args s
  | .forceSafe ini args => Sys2Proof.Machine.execForceSafe ini args s
  | .releaseSafeState ini args => Sys2Proof.Machine.execReleaseSafeState ini args s
  | .enterOrLeaveTest ini args => Sys2Proof.Machine.execEnterOrLeaveTest ini args s
  | .setCheck ini args => Sys2Proof.Machine.execSetCheck ini args s
  | .configureGate ini args => Sys2Proof.Machine.execConfigureGate ini args s
  | .writeEnvelopes ini args => Sys2Proof.Machine.execWriteEnvelopes ini args s
  | .configureCompareEntry ini args => Sys2Proof.Machine.execConfigureCompareEntry ini args s
  | .configureStarter ini args => Sys2Proof.Machine.execConfigureStarter ini args s
  | .configureSelfTest ini args => Sys2Proof.Machine.execConfigureSelfTest ini args s
  | .openSupervisedTask ini args => Sys2Proof.Machine.execOpenSupervisedTask ini args s
  | .closeSupervisedTask ini args => Sys2Proof.Machine.execCloseSupervisedTask ini args s
  | .writeFirewall ini args => Sys2Proof.Machine.execWriteFirewall ini args s
  | .readWardenCounters ini args => Sys2Proof.Machine.execReadWardenCounters ini args s
  | .pinTest ini args => Sys2Proof.Machine.execPinTest ini args s
  | .comparatorFire n => Sys2Proof.Machine.execComparatorFire n s
  | .slewStep => Sys2Proof.Machine.execSlewStep s
  | .incrWrite ini value => Sys2Proof.Machine.execIncrWrite ini value s
  | .adjCtlSlew ini force => Sys2Proof.Machine.execAdjCtlSlew ini force s
  | .adjCtlStep ini force => Sys2Proof.Machine.execAdjCtlStep ini force s
  | .adjCtlCancelSlew ini => Sys2Proof.Machine.execAdjCtlCancelSlew ini s
  | .setCtlGo ini force => Sys2Proof.Machine.execSetCtlGo ini force s
  | .cmpTargetCommit ini n value => Sys2Proof.Machine.execCmpTargetCommit ini n value s
  | .gaugeClaimClaim ini kind idx n => Sys2Proof.Machine.execGaugeClaimClaim ini kind idx n s
  | .gaugeClaimRelease ini kind idx n => Sys2Proof.Machine.execGaugeClaimRelease ini kind idx n s
  | .refclkLoss => Sys2Proof.Machine.execRefclkLoss s
  | .refclkRestore => Sys2Proof.Machine.execRefclkRestore s
  | .ethFrameReceive p data good stack master offset delay => Sys2Proof.Machine.execEthFrameReceive p data good stack master offset delay s
  | .announceTimeout => Sys2Proof.Machine.execAnnounceTimeout s
  | .pulseEnd n => Sys2Proof.Machine.execPulseEnd n s
  | .captureEdge ball rising => Sys2Proof.Machine.execCaptureEdge ball rising s
  | .capNsRead ini n => Sys2Proof.Machine.execCapNsRead ini n s
  | .canFrameReceive c ide rtr fdf brs esi id dlc sof data => Sys2Proof.Machine.execCanFrameReceive c ide rtr fdf brs esi id dlc sof data s
  | .canObjReq ini c o value => Sys2Proof.Machine.execCanObjReq ini c o value s
  | .canTxDone c sof => Sys2Proof.Machine.execCanTxDone c sof s
  | .canBusError c err tec rec tx => Sys2Proof.Machine.execCanBusError c err tec rec tx s
  | .canTxLateExpiry c o => Sys2Proof.Machine.execCanTxLateExpiry c o s
  | .cnCmdRecover ini c => Sys2Proof.Machine.execCnCmdRecover ini c s
  | .canRecoveryDone c => Sys2Proof.Machine.execCanRecoveryDone c s
  | .cnCmdAbort ini c o => Sys2Proof.Machine.execCnCmdAbort ini c o s
  | .readTime ini args => Sys2Proof.Machine.execReadTime ini args s
  | .adjustTime ini args => Sys2Proof.Machine.execAdjustTime ini args s
  | .setIncrement ini args => Sys2Proof.Machine.execSetIncrement ini args s
  | .claimOrReleaseComparator ini args => Sys2Proof.Machine.execClaimOrReleaseComparator ini args s
  | .configureComparator ini args => Sys2Proof.Machine.execConfigureComparator ini args s
  | .configurePulseOrCapture ini args => Sys2Proof.Machine.execConfigurePulseOrCapture ini args s
  | .configureTimeProtocol ini args => Sys2Proof.Machine.execConfigureTimeProtocol ini args s
  | .readTimeProtocol ini args => Sys2Proof.Machine.execReadTimeProtocol ini args s
  | .readCanObject ini args => Sys2Proof.Machine.execReadCanObject ini args s
  | .configureGeneralRings ini args => Sys2Proof.Machine.execConfigureGeneralRings ini args s
  | .configureCanController ini args => Sys2Proof.Machine.execConfigureCanController ini args s
  | .writeCanObject ini args => Sys2Proof.Machine.execWriteCanObject ini args s
  | .recoverCanController ini args => Sys2Proof.Machine.execRecoverCanController ini args s
  | .pcieRequest kind fn bar off n data => Sys2Proof.Machine.execPcieRequest kind fn bar off n data s
  | .functionLevelReset n => Sys2Proof.Machine.execFunctionLevelReset n s
  | .pcieLinkDown => Sys2Proof.Machine.execPcieLinkDown s
  | .pcieLinkUp speed width => Sys2Proof.Machine.execPcieLinkUp speed width s
  | .msixEntryWrite ini n idx k value => Sys2Proof.Machine.execMsixEntryWrite ini n idx k value s
  | .vfDoorbell n value => Sys2Proof.Machine.execVfDoorbell n value s
  | .translationWalkDone client mem input write => Sys2Proof.Machine.execTranslationWalkDone client mem input write s
  | .xlInvalGo ini value => Sys2Proof.Machine.execXlInvalGo ini value s
  | .xlInvalidationDone => Sys2Proof.Machine.execXlInvalidationDone s
  | .sdioCommand write fn off n fixed data => Sys2Proof.Machine.execSdioCommand write fn off n fixed data s
  | .sdioFunctionReset fn => Sys2Proof.Machine.execSdioFunctionReset fn s
  | .mbCallGo ini ch value => Sys2Proof.Machine.execMbCallGo ini ch value s
  | .mbCallServe => Sys2Proof.Machine.execMbCallServe s
  | .callDone => Sys2Proof.Machine.execCallDone s
  | .mbDoneRead ini ch => Sys2Proof.Machine.execMbDoneRead ini ch s
  | .mbStatusRead ini ch => Sys2Proof.Machine.execMbStatusRead ini ch s
  | .readPcieStatus ini args => Sys2Proof.Machine.execReadPcieStatus ini args s
  | .setVfVectors ini args => Sys2Proof.Machine.execSetVfVectors ini args s
  | .setTranslationContext ini args => Sys2Proof.Machine.execSetTranslationContext ini args s
  | .invalidateTranslations ini args => Sys2Proof.Machine.execInvalidateTranslations ini args s
  | .readTranslationFault ini args => Sys2Proof.Machine.execReadTranslationFault ini args s
  | .translate ini args => Sys2Proof.Machine.execTranslate ini args s
  | .readSdioStatus ini args => Sys2Proof.Machine.execReadSdioStatus ini args s
  | .setLpddr4xWindow ini args => Sys2Proof.Machine.execSetLpddr4xWindow ini args s
  | .gpioSetWrite ini value => Sys2Proof.Machine.execGpioSetWrite ini value s
  | .gpioClrWrite ini value => Sys2Proof.Machine.execGpioClrWrite ini value s
  | .setGpio ini args => Sys2Proof.Machine.execSetGpio ini args s
  | .readGpio ini args => Sys2Proof.Machine.execReadGpio ini args s
  | .setGpioOwner ini args => Sys2Proof.Machine.execSetGpioOwner ini args s
  | .pwrCmdRun ini => Sys2Proof.Machine.execPwrCmdRun ini s
  | .pwrCmdTrim ini => Sys2Proof.Machine.execPwrCmdTrim ini s
  | .pwrCmdDoze ini => Sys2Proof.Machine.execPwrCmdDoze ini s
  | .pwrCmdSleep ini => Sys2Proof.Machine.execPwrCmdSleep ini s
  | .powerAnswer u timeUp => Sys2Proof.Machine.execPowerAnswer u timeUp s
  | .powerAnswerTimeout u => Sys2Proof.Machine.execPowerAnswerTimeout u s
  | .powerEntryDone => Sys2Proof.Machine.execPowerEntryDone s
  | .wake src u => Sys2Proof.Machine.execWake src u s
  | .powerExitDone => Sys2Proof.Machine.execPowerExitDone s
  | .trimIdleExpiry u => Sys2Proof.Machine.execTrimIdleExpiry u s
  | .domainPowerUpDone => Sys2Proof.Machine.execDomainPowerUpDone s
  | .vcoreSetWrite ini value => Sys2Proof.Machine.execVcoreSetWrite ini value s
  | .capWWrite ini value => Sys2Proof.Machine.execCapWWrite ini value s
  | .setpointStepDone ok => Sys2Proof.Machine.execSetpointStepDone ok s
  | .powerWindowEnd est => Sys2Proof.Machine.execPowerWindowEnd est s
  | .readPowerStatus ini args => Sys2Proof.Machine.execReadPowerStatus ini args s
  | .requestState ini args => Sys2Proof.Machine.execRequestState ini args s
  | .setVddCoreSetPoint ini args => Sys2Proof.Machine.execSetVddCoreSetPoint ini args s
  | .setPowerCap ini args => Sys2Proof.Machine.execSetPowerCap ini args s
  | .setWakeSources ini args => Sys2Proof.Machine.execSetWakeSources ini args s
  | .setTrimIdle ini args => Sys2Proof.Machine.execSetTrimIdle ini args s
  | .readPowerCounters ini args => Sys2Proof.Machine.execReadPowerCounters ini args s
  | .powerOnReset m1 m2 otpOk ddrOk fails us => Sys2Proof.Machine.execPowerOnReset m1 m2 otpOk ddrOk fails us s
  | .resetNAssert otpOk ddrOk fails us => Sys2Proof.Machine.execResetNAssert otpOk ddrOk fails us s
  | .consentExpiry => Sys2Proof.Machine.execConsentExpiry s
  | .readBootStatus ini args => Sys2Proof.Machine.execReadBootStatus ini args s
  | .readCatalogue ini args => Sys2Proof.Machine.execReadCatalogue ini args s
  | .verifyImage ini args => Sys2Proof.Machine.execVerifyImage ini args s
  | .updateProcessor ini args => Sys2Proof.Machine.execUpdateProcessor ini args s
  | .readUpdateStatus ini args => Sys2Proof.Machine.execReadUpdateStatus ini args s
  | .consentToWardenUpdate ini args => Sys2Proof.Machine.execConsentToWardenUpdate ini args s
  | .raiseSecurityVersion ini args => Sys2Proof.Machine.execRaiseSecurityVersion ini args s
  | .revokeRootSlot ini args => Sys2Proof.Machine.execRevokeRootSlot ini args s
  | .readIdentity ini args => Sys2Proof.Machine.execReadIdentity ini args s
  | .attestationQuote ini args => Sys2Proof.Machine.execAttestationQuote ini args s
  | .readFactoryCalibration ini args => Sys2Proof.Machine.execReadFactoryCalibration ini args s
  | .setCalibrationKeys ini args => Sys2Proof.Machine.execSetCalibrationKeys ini args s
  | .applyCalibrationSet ini args => Sys2Proof.Machine.execApplyCalibrationSet ini args s
  | .readCalibrationInForce ini args => Sys2Proof.Machine.execReadCalibrationInForce ini args s
  | .bootImage ini args => Sys2Proof.Machine.execBootImage ini args s
  | .commitRunningSet ini args => Sys2Proof.Machine.execCommitRunningSet ini args s
  | .faultDetected unit code addr d0 d1 x => Sys2Proof.Machine.execFaultDetected unit code addr d0 d1 x s
  | .procWatchdogBite u => Sys2Proof.Machine.execProcWatchdogBite u s
  | .mpTakeover => Sys2Proof.Machine.execMpTakeover s
  | .spTakeover => Sys2Proof.Machine.execSpTakeover s
  | .tempSample temps => Sys2Proof.Machine.execTempSample temps s
  | .railOutOfRange rail back => Sys2Proof.Machine.execRailOutOfRange rail back s
  | .pmbusAlert => Sys2Proof.Machine.execPmbusAlert s
  | .transientWindowEnd => Sys2Proof.Machine.execTransientWindowEnd s
  | .lpddrScrub m ce ues => Sys2Proof.Machine.execLpddrScrub m ce ues s
  | .readFaultStatus ini args => Sys2Proof.Machine.execReadFaultStatus ini args s
  | .readFaultRecords ini args => Sys2Proof.Machine.execReadFaultRecords ini args s
  | .acknowledgeRecords ini args => Sys2Proof.Machine.execAcknowledgeRecords ini args s
  | .setFaultOptions ini args => Sys2Proof.Machine.execSetFaultOptions ini args s
  | .readUnitHealth ini args => Sys2Proof.Machine.execReadUnitHealth ini args s
  | .readSpares ini args => Sys2Proof.Machine.execReadSpares ini args s
  | .injectFault ini args => Sys2Proof.Machine.execInjectFault ini args s
  | .readFaultCounters ini args => Sys2Proof.Machine.execReadFaultCounters ini args s
  | .sensorWriteDone master ack => Sys2Proof.Machine.execSensorWriteDone master ack s
  | .clockStretchTimeout master => Sys2Proof.Machine.execClockStretchTimeout master s
  | .ethFrameSent p => Sys2Proof.Machine.execEthFrameSent p s
  | .ethLinkChange p up => Sys2Proof.Machine.execEthLinkChange p up s
  | .supplyLoss => Sys2Proof.Machine.execSupplyLoss s
  | .selfTestPowerUp u => Sys2Proof.Machine.execSelfTestPowerUp u s

end Sys2Proof.Machine
end

