-- ==== Sys2Proof/Machine/Step.lean ====
section
/-! DEFINITION. The step: the command at the front of the queue, or one tick of the Gauge on an empty queue. -/
namespace Sys2Proof.Machine

/-- Put the command that a word spells at the front of the queue; nothing where the word spells none. -/
def State.withFetchWord (s : State) (nbits w : Nat) : State :=
  match decodeTableWord nbits w with
  | some i => { s with pending := i :: s.pending }
  | none => s

/-- Run the command at the front of the queue on the state with the queue's rest; on an empty queue the 500 MHz clock
ticks once (R461; notes/assumptions/7.md). -/
def step (s : State) : Host.Outcome State Fault Refusal :=
  match s.pending with
  | [] => .next s.gaugeTick
  | c :: rest => exec c { s with pending := rest }

end Sys2Proof.Machine
end

