-- ==== Sys2Proof/Safety.lean ====
section
/-! DEFINITION. The terms of the claims: what running a command gives, the canonical form of the stored maps, what a step may
never change, what two states agree on. -/
namespace Sys2Proof.Machine

/-- Command c runs at s, and P holds of the state it leaves. -/
def Gives (c : Instr) (s : State) (P : State → Prop) : Prop := ∃ t, exec c s = .next t ∧ P t

/-! ### The canonical form -/

/-- Polder, LPDDR4X, host memory and the boot flash are held in canonical form: addresses strictly rising, no entry equal to
what an unlisted address reads as. -/
def Memory.wf (s : State) : Bool :=
  SMap.wf (memDef s.voids) s.mem && SMap.wf (fun _ => (0 : Byte)) s.hostMem && SMap.wf (fun _ => (0xFF : Byte)) s.flash

/-- Registers, marks and 64-bit counters are held in canonical form. -/
def State.storesWf (s : State) : Bool :=
  SMap.wf (regReset s.part) s.regs && SMap.wf (fun _ => (0 : Word)) s.marks && SMap.wf (fun _ => (0 : Nat)) s.wide

/-- The invariant of the machine's stores. -/
def State.Canonical (s : State) : Prop := Memory.wf s = true ∧ s.storesWf = true

/-! ### What no command undoes (R530) -/

/-- Every fuse blown in s is blown in t: revocations, security version numbers, the user calibration key; the factory's
DEV_LOCK and the part stay as they are. -/
def FusesKept (s t : State) : Prop :=
  s.otpRevoke &&& t.otpRevoke = s.otpRevoke ∧ s.otpSvn.length = t.otpSvn.length ∧
    (∀ i, nth s.otpSvn i 0 ≤ nth t.otpSvn i 0) ∧ (∀ h, s.otpUcal = some h → t.otpUcal = some h) ∧
    t.devLock = s.devLock ∧ t.part = s.part

/-! ### Frames -/

/-- Every byte of Polder, LPDDR4X and host memory reads in t as in s. -/
def SameMemory (s t : State) : Prop := (∀ a, t.byte a = s.byte a) ∧ ∀ a, t.hostByte a = s.hostByte a

/-- Every register reads in t as in s, but for the listed offsets of blocks. -/
def SameRegsBut (l : List (Nat × Nat)) (s t : State) : Prop :=
  ∀ u off, off < 0x10000 → (u, off) ∉ l → t.rd u off = s.rd u off

/-- Every mark in t has its value in s. -/
def SameMarks (s t : State) : Prop := ∀ m, t.mark m = s.mark m

/-! ### Conditions on a state -/

/-- Block u exists and no claim holds it. -/
def State.Changeable (s : State) (u : Nat) : Prop := s.exists? u = true ∧ s.claimed u = false

/-- The next word of context x is w: a command runs there, issue does not stall, decode finds no fault (R171). -/
def State.Ready (s : State) (x : Ctx) (r : CtxRun) (w : Dword) : Prop :=
  s.run x = some r ∧ x.isMill = false ∧ r.ended = false ∧ r.stall = none ∧ r.pos < r.code.length ∧ nth r.code r.pos 0 = w ∧
    opcodes.contains (wOp w) = true ∧ s.decodeFault r (some (((s.slot r.queue).map (·.words)).getD [])) (eRind r.entry) w = 0

/-- Initiator ini holds the claim whose own unit is u. -/
def State.Holds (s : State) (ini u : Nat) : Prop := ∃ c ∈ s.claims, c.unit = u ∧ c.ini = ini

/-- Another initiator's claim is on u, on a unit nested inside u, or on a unit that u is nested in. -/
def State.Overlap (s : State) (ini u : Nat) : Prop :=
  ∃ c ∈ s.claims, c.ini ≠ ini ∧ (u ∈ s.up c.unit 3 ∨ c.unit ∈ s.up u 3)

/-- A register write passes the checks every register write meets: the block is enabled (R3), the firewalls allow it (R449), the
writer holds the claim or the register is open (R8), the value is in bounds (R13, R15). -/
def State.Admits (s : State) (ini u off : Nat) (v : Word) (isOpen : Bool) : Prop :=
  s.exists? u = true ∧ s.fwAllows ini (regAddr u off) true = true ∧ (isOpen = true ∨ s.mayWrite ini u = true) ∧
    ∃ r, findRow u off = some r ∧ r.bad v = none

/-- The entry at HEAD of a cached queue, as the scheduler gets it: from the prefetch store, or from a ring in LPDDR4X that its
processor may read (R247, R262). -/
def State.EntryAt (s : State) (x : QSlot) (e : List Word) (pre : Bool) : Prop :=
  (∃ l, x.store = e :: l ∧ pre = true) ∨
  (x.store = [] ∧ pre = false ∧ qXlate x.words = false ∧ regionOf s.part (qRing x.words + 64 * qHead x.words) = .lpddr ∧
    fwRegion s.part (qRing x.words + 64 * qHead x.words) = false ∧
    s.fwAllows (spIni x.id) (qRing x.words + 64 * qHead x.words) false = true ∧
    e = bytesWords (s.bytes (qRing x.words + 64 * qHead x.words) 64))

/-- A cached queue whose entry the scheduler may read now: enabled, not halted, no command running, no entry taken. -/
def State.MayFetch (s : State) (q : Nat) (x : QSlot) : Prop :=
  s.slot q = some x ∧ qEnabled x.words = true ∧ qHalted x.words = false ∧ x.running = none ∧ x.entry = none ∧ x.deleting = false

/-- An untranslated access to LPDDR4X at a that neither the firmware region's rule (R540) nor a firewall (R449) stops. -/
def State.Reaches (s : State) (ini a : Nat) (write : Bool) : Prop :=
  regionOf s.part a = .lpddr ∧ fwRegion s.part a = false ∧ s.fwAllows ini a write = true

/-- The blocks whose registers, control blocks apart, a write only stores to: tiles, spares, division columns, TRUST, FAULT, SDIO,
memory channels, gangs. -/
def storesOnly (u : Nat) : Bool :=
  match unitClass u with
  | some .tile => true | some .spareTile => true | some .dc => true | some .trust => true | some .fault => true
  | some .sdio => true | some .mch => true | some .gang => true
  | _ => false

/-- The access type of a register of block u (R13). -/
def accOf (u off : Nat) : Option Acc := (findRow u off).map (·.acc)

/-- The high word that reading its low register, one of offs, latches. -/
def latched (u : Nat) (offs : List Nat) (o : Nat) : Bool := 4 ≤ o && latches u (o - 4) && offs.contains (o - 4)

/-- What reading registers offs of block u in order gives, and what it leaves: each word is the register's value, 0 of a WO register,
the high word a low one latched; an RC register is then at its reset value; nothing else changes. -/
def State.ReadsOut (s : State) (u : Nat) (offs : List Nat) (t : State) : Prop :=
  { t with regs := s.regs } = s.ret OK (offs.map fun o => if accOf u o = some .wo then 0
    else if latched u offs o then w32 (s.wide64 u (o - 4) / 2 ^ 32) else s.rd u o) ∧
  ∀ v o, o < 0x10000 → t.rd v o = if v = u ∧ latched u offs o then w32 (s.wide64 u (o - 4) / 2 ^ 32)
    else if v = u ∧ o ∈ offs ∧ accOf u o = some .rc then regReset s.part (rk u o) else s.rd v o

/-- The next instruction of the segment that logical core lc runs for loop l is w, and the core runs (R386). -/
def State.MillAt (s : State) (lc l : Nat) (w : Dword) : Prop :=
  lc < 3 ∧ s.lcores.find? (·.1 = lc) = some (lc, l) ∧ nth (s.lawOf l) (s.loop l).pos 0 = w ∧ s.coreRuns lc = true
/-- Loop l stands at its next instruction. -/
def State.moved (s : State) (l : Nat) : State := s.setLoop l { s.loop l with pos := (s.loop l).pos + 1 }

/-- Client of ini may change loop l of the Mill, or without a loop the Mill, and no claim holds it (R417). -/
def State.MillOpen (s : State) (ini : Nat) (l : Option Nat) : Prop :=
  (∀ k, l = some k → k ≤ 95) ∧ s.millMay ini true l = true ∧ s.claimed uMill = false

/-- s once a slot of kind with bytes d has passed its port in order, and whether it is the first of its CMD flit; no answer when it comes
out of order: what its ACK field says is taken first (R296, R298, R300). -/
def State.taken (s : State) (h : AxHead) (kind : Nat) (d : List Byte) : State × Option Bool :=
  (s.ackIn (h.port % 4) h.ack).accept (h.port % 4) h (kind = 1) d.length
/-- The slot passes its port in order, it is for this part, of a member of its ring; t is s with its buffers free again. -/
def State.Hears (s : State) (h : AxHead) (kind : Nat) (d : List Byte) (t : State) : Prop :=
  h.port < 4 ∧ ∃ u first, s.taken h kind d = (u, some first) ∧ u.exists? uRing = true ∧ h.dst = u.ringPos ∧ u.ringMember h.src = true ∧
    t = u.freeBuf (h.port % 4) (h.cls % 4) (ceilDiv d.length 248 + b2n first)
/-- A stream that is held neither to an earlier refusal nor to a write that failed. -/
def State.fresher (s : State) (src stream : Nat) : State := { s with
  rbad := s.rbad.filter fun b => !(b.1 = src && b.2.1 = stream)
  rstuck := s.rstuck.filter (· != (src, stream)) }

/-- Caller ini may change Vat v by a call: its unit exists, the firewalls or the job's client allow it, no claim holds it (R350). -/
def State.VatOpen (s : State) (ini v : Nat) : Prop :=
  unitClass (0x90 + v) = some .vat ∧ s.exists? (0x90 + v) = true ∧ s.vatMay ini v true (s.jobClient v) = true ∧ s.claimed (0x90 + v) = false

/-- Caller ini may change pipeline p by a call: the pipeline's unit exists, the firewalls or the loading client allow it, no claim
holds it (R378). -/
def State.PipeOpen (s : State) (ini p : Nat) : Prop :=
  unitClass (0xA0 + p) = some .pp ∧ s.exists? (0xA0 + p) = true ∧ s.ppMay ini p true = true ∧ s.claimed (0xA0 + p) = false

/-- The failures that the next decision pass handles, the moves of cameras apart, once the taps' updates have left the FIFO and the balls
that fail have been read back (R420, R437, R446). -/
def State.passFailures (s : State) : List WdReport :=
  let t := s.takeTaps.readBack
  (t.wdFifo ++ t.wd.found ++ (if t.wdHard then [(⟨0x18, 0, 0⟩ : WdReport)] else [])).filter (·.check != 0x1F)
/-- The Warden's failures are all taken, every camera move is posted. -/
def State.passTaken (s : State) : State :=
  let t := s.takeTaps.readBack
  (((t.wdFifo ++ t.wd.found ++ (if t.wdHard then [(⟨0x18, 0, 0⟩ : WdReport)] else [])).filter (·.check = 0x1F))).foldl
    (fun s f => s.wdEvent 0x0020 0 (uPP (f.item % 16))) ({ t with wdFifo := [], wdHard := false, wd := { t.wd with found := [] } } : State)

/-- The two limits of R450 on calls that change the Warden: the supervisor calls and holds the Warden's expert claim, the state is START,
SAFE or TEST. -/
def State.WdMay (s : State) (ini : Nat) : Prop := ini = 0x180 ∧ s.mayWrite 0x180 uWarden = true ∧ s.wdOpen = true
/-- What a call that changes the Warden answers when the change leaves t: OK, unless it asks for more than 32 taps. -/
def State.wdChanged (s t : State) : State := if 32 < t.wdTaps.eraseDups.length then s.ret TAPS_FULL else t.ret OK

/-- Function n may write entry i of its MSI-X table, which is pool vector vec (R488, R489): the PF its block's table under the register
rules, a VF its page's. -/
def State.MayVec (s : State) (ini n i k : Nat) (v : Word) (vec : Nat) : Prop :=
  n < 33 ∧ i < 2048 ∧ k < 4 ∧ s.entryVec n i = some vec ∧
    (if n = 0 then s.Admits ini uPcie (0x8000 + 16 * i + 4 * k) v false
     else ini = 0x100 + n ∧ ∃ r, findRow (wVf n) (0x1000 + 16 * i + 4 * k) = some r ∧ r.bad v = none)
/-- The GPIOs of mask m are all the initiator's own, or it holds the claim on DEVCTL (R584). -/
def State.OwnsGpio (s : State) (ini m : Nat) : Prop :=
  m - (m &&& s.gpioMine ini) = 0 ∨ ∃ c, s.claimOn uDevctl = some c ∧ c.ini = ini

/-- An image that is catalogued, or runs, is signed by root slot k (R532). -/
def State.signsLive (s : State) (k : Nat) : Bool := s.liveImages.any fun d => !imgDebug d && imgSlot d = k

end Sys2Proof.Machine
end

