-- ==== Sys2Proof/Certificates/Slice0/Obligations.lean ====
section
/-! DEFINITION. The statements about the block: the queue and the step first, then family by family. -/
open Sys2Proof Sys2Proof.Machine

/-- Calls 0x0001 and 0x0002 (R6): a claim already held changes nothing; an overlap with another initiator's claim is CLAIMED and
changes nothing; else the claim is taken with the caller's claims on units nested inside; a release undoes the caller's own
claim and no other. (The WARDEN block's claim is R450's: 0x180 alone.) -/
def Obligations.ClaimAndRelease : Prop :=
  ∀ (ini : Nat) (args : List Word) (s : State) (u : Nat), u = arg args 0 → s.exists? u = true →
    (s.Holds ini u → exec (.claimUnit ini args) s = .next (s.ret OK)) ∧
    (¬s.Holds ini u → s.Overlap ini u → exec (.claimUnit ini args) s = .next (s.ret CLAIMED)) ∧
    (¬s.Holds ini u → ¬s.Overlap ini u → (uWarden ∈ s.up u 3 → ini = 0x180) →
      Gives (.claimUnit ini args) s fun t => { t with claims := s.claims } = s.ret OK ∧ t.Holds ini u ∧
        ∀ c, c.unit ≠ u → (c ∈ t.claims ↔ c ∈ s.claims ∧ ¬(c.ini = ini ∧ u ∈ s.up c.unit 3))) ∧
    ((∀ i, ¬s.Holds i u) → exec (.releaseUnit ini args) s = .next (s.ret OK)) ∧
    ((∃ i, s.Holds i u) → ¬s.Holds ini u → exec (.releaseUnit ini args) s = .next (s.ret DENIED)) ∧
    (s.Holds ini u → (∀ i, s.Holds i u → i = ini) →
      Gives (.releaseUnit ini args) s fun t => { t with claims := s.claims } = s.ret OK ∧
        ∀ c, c ∈ t.claims ↔ c ∈ s.claims ∧ c.unit ≠ u)

/-- Unit requests (R35, R40) of a unit that is no group: a write of REQUEST by the claim holder, or call 0x0004 on an unclaimed
unit, takes the request where R36 gives no reason against it; the last command's end makes a draining unit Out; a passed
self-test leaves the unit in Test with its test passed. A request to the ring (R38, R594) is one to its positions: it is taken where every
position is in the state that the request starts from, a Drain ends when nothing of this part keeps the ring (log entry 177, the model's choice). -/
def Obligations.UnitRequestsTaken : Prop :=
  (∀ s : State, s.exists? uRing = true →
    (∀ req, 1 ≤ req → req ≤ 3 → s.claimOn uRing = none → bits (s.ucb uRing 2) 5 4 = 0 →
      let from_ := if req = 1 then 0 else if req = 2 then 2 else 3
      let t := (s.setPositions (if req = 1 then 1 else if req = 2 then 3 else 0)).setUrun uRing { s.urun uRing with rank := 5 }
      let t := t.setUcb uRing 2 (setBits (setBits (t.ucb uRing 2) 11 8 0) 5 4 (if req = 1 then 1 else 0))
      (∀ ini, (∀ p, p < s.ringNpos → s.posState p = from_) → exec (.requestUnitState ini [w32 uRing, w32 req]) s =
        .next (if t.reached uRing req then t.finishRequests.ret OK else t.retPending 0x0004 (uRing * 4 + req))) ∧
      (∀ ini p, p < s.ringNpos → (∀ k, k < p → s.posState k = from_) → s.posState p ≠ from_ →
        exec (.requestUnitState ini [w32 uRing, w32 req]) s = .next ((s.refuseReq uRing 4).ret REFUSED [4, w32 p]))) ∧
    (s.ustate uRing = 1 → s.ringQuiet = true → let t := s.setPositions 2
      exec (.unitDrained uRing) s = .next (t.setUcb uRing 2 (setBits (t.ucb uRing 2) 5 4 0)).finishRequests.updStep)) ∧
  ∀ (ini u : Nat) (s : State), s.exists? u = true → s.leaves u = [u] → u ≠ uRing →
    (iniRank ini = 5 → (∃ c, s.claimOn u = some c ∧ c.ini = ini) →
      (s.reqReason u 1 5 none = 0 → exec (.ucbRequestDrain ini u) s = .next (s.takeReq u 1 5).finishRequests) ∧
      (s.reqReason u 2 5 none = 0 → exec (.ucbRequestTest ini u) s = .next (s.takeReq u 2 5).finishRequests) ∧
      (s.reqReason u 3 5 none = 0 → exec (.ucbRequestReadmit ini u) s = .next (s.takeReq u 3 5).finishRequests)) ∧
    (∀ req, 1 ≤ req → req ≤ 3 → s.claimOn u = none → s.reqReason u req 5 none = 0 →
      Gives (.requestUnitState ini [w32 u, w32 req]) s fun t =>
        (t = (s.takeReq u req 5).finishRequests.ret OK ∧ (s.takeReq u req 5).reached u req = true) ∨
        (t = (s.takeReq u req 5).retPending 0x0004 (u * 4 + req) ∧ (s.takeReq u req 5).reached u req = false)) ∧
    (s.ustate u = 1 → s.unitBusy u = false → exec (.unitDrained u) s = .next (s.setState u 2).finishRequests.updStep) ∧
    (s.ustate u = 3 → (s.urun u).testing = true → (s.urun u).held = false → (∃ k, (s.urun u).task = some k) → (s.injected u 0).2 = 0 →
      (s.injected u 1).2 = 0 →
      exec (.selfTestDone u true) s =
        .next (let t := ((s.setUrun u { s.urun u with testing := false, passed := true, held := false }).endTestTask u).fullTestPass u
          (t.setUcb u 2 (setBits (t.ucb u 2) 5 4 0)).updStep))

/-- Device reads: calls 0x0000, 0x0003, 0x0005, 0x0006 (R4, R13, R25, R40) return their words and change nothing but what reading clears:
UCB_FAULTS of the unit, RATE_MIN of every monitor that is not fused off. A list of units has those that exist, from a number on, in order,
with class and state, as many as are asked for. The words of 0x0000 are the model's free part words (log entry 6). -/
def Obligations.DeviceReadsComplete : Prop :=
  ∀ (ini : Nat) (args : List Word) (s : State),
    exec (.deviceInformation ini args) s =
      .next (s.ret OK ((List.range 3).map (Config.partWord s.part.grade1640 s.part.suffixX))) ∧
    (s.exists? (arg args 0) = true → exec (.readUnitControlBlock ini args) s =
      .next ((s.setUcb (arg args 0) 10 0).ret OK ((List.range 11).map (s.ucb (arg args 0))))) ∧
    (s.exists? (arg args 0) = false → exec (.readUnitControlBlock ini args) s = .next (s.ret NO_UNIT)) ∧
    (arg args 1 ≤ 64 → Gives (.listUnits ini args) s fun t => t = s.ret OK t.call.words ∧ t.call.words.length ≤ 192 ∧
      (∀ k, k < 64 → 3 * k < t.call.words.length →
        s.exists? (arg t.call.words (3 * k)) = true ∧ arg args 0 ≤ arg t.call.words (3 * k) ∧
        nth t.call.words (3 * k + 1) 0 = w32 (bits (s.ucb (arg t.call.words (3 * k)) 0) 31 24) ∧
        nth t.call.words (3 * k + 2) 0 = w32 (s.ustate (arg t.call.words (3 * k)))) ∧
      ∀ u, s.exists? u = true → arg args 0 ≤ u → (allUnits.filter fun v => arg args 0 ≤ v && v < u && s.exists? v).length < arg args 1 →
        ∃ k, 3 * k < t.call.words.length ∧ nth t.call.words (3 * k) 0 = w32 u) ∧
    (64 < arg args 1 → exec (.listUnits ini args) s = .next (s.ret RANGE)) ∧
    let mons : List (Nat × Nat) := (List.range 6).map (fun c => (uTC c, 0x40)) ++ [(uDevctl, 0x80), (uDevctl, 0x90)]
    Gives (.readRateMonitors ini args) s fun t =>
      { t with regs := s.regs } = s.ret OK (mons.flatMap fun m => if fusedOff s.part m.1 then [0, 0] else [s.rd m.1 m.2, s.rd m.1 (m.2 + 4)]) ∧
      ∀ v o, o < 0x10000 → t.rd v o =
        if mons.any fun m => !fusedOff s.part m.1 && v = m.1 && o = m.2 + 4 then regReset s.part (rk v o) else s.rd v o

/-- The numerics calls (R67, R69, R72, R74–R76): the identity, the window bounds, a rescale table checked and written under the
caller's rights, statistics records, the guard thresholds, the counters read and cleared. -/
def Obligations.NumericsCallsComplete : Prop :=
  ∀ (ini : Nat) (args : List Word) (s : State) (u : Nat), u = arg args 0 →
    (s.exists? u = true → numUnit u = true → exec (.readNumericIdentity ini args) s = .next (s.ret OK [s.rd u 0x300])) ∧
    (fmtInput u = true → fmtInput (arg args 1) = true → zpOk u (argInt args 2) = true → zpOk (arg args 1) (argInt args 3) = true →
      argInt args 4 ≤ argInt args 5 →
      ∀ we wn, windowBounds u (argInt args 2) (arg args 1) (argInt args 3) (argInt args 4) (argInt args 5) = (we, wn) →
        exec (.windowBounds ini args) s = .next (s.ret OK [intWord we, intWord wn, if wn ≤ we then 1 else 0])) ∧
    (arg args 3 ≤ 65536 → fmtOutput (arg args 6) = true → s.polderAllowed ini (argAddr args 0 + 16 * arg args 2) (16 * arg args 3) true = true →
      ∀ t bs, s.callRead ini (argAddr args 4) (pagesFor (16 * arg args 3)) (16 * arg args 3) = (t, .ok, bs) →
        (∀ i, i < arg args 3 → (rescaleOf ((bs.drop (16 * i)).take 16)).ok (arg args 6) = true) →
        ∀ t', t.polWrite ini (argAddr args 0 + 16 * arg args 2) bs = (t', 0) →
          exec (.writeRescaleTable ini args) s = .next (t'.ret OK)) ∧
    (arg args 3 ≤ 64 → s.polderAllowed ini (argAddr args 0 + 32 * arg args 2) (32 * arg args 3) false = true →
      ∀ t bs, s.polRead ini (argAddr args 0 + 32 * arg args 2) (32 * arg args 3) = (t, 0, bs) →
        exec (.readStatistics ini args) s = .next (t.ret OK (bytesWords bs))) ∧
    (s.exists? u = true → s.claimed u = false → numUnit u = true → arg args 1 ≤ 0xFFFF → arg args 2 ≤ 0xFFFF →
      exec (.setScaleGuard ini args) s = .next (((s.wr u 0x304 (w32 (arg args 1))).wr u 0x308 (w32 (arg args 2))).ret OK)) ∧
    (s.exists? u = true → numUnit u = true →
      exec (.readNumericTotals ini args) s = .next (s.retRegs u [0x30C, 0x310, 0x314, 0x318, 0x31C, 0x320, 0x324, 0x328]))

/-- Clusters and gangs (R91, R95, R98, R100–R102): SPARE_EN by register and by call, the status and counter reads, a gang formed
where its members allow it and made at the first instant none runs a command, a gang dissolved likewise. -/
def Obligations.ClusterCommandsComplete : Prop :=
  ∀ (ini c : Nat) (args : List Word) (s : State) (u : Nat), u = arg args 0 →
    (∀ v, s.Admits ini (uTC c) 0x200 (w32 v) false → s.spareStands c = false →
      exec (.clCfgSpareWrite ini c v) s = .next (s.setSpareEn c (v % 2 = 1))) ∧
    (s.Changeable u → unitClass u = some .tc → arg args 1 ≤ 1 → s.spareStands (u - 0x10) = false →
      exec (.setSpareEnable ini args) s = .next ((s.setSpareEn (u - 0x10) (arg args 1 = 1)).ret OK)) ∧
    (s.exists? u = true → unitClass u = some .tc →
      exec (.readClusterStatus ini args) s = .next (s.retRegs u [0x204, 0x208, 0x20C, 0x220])) ∧
    (s.exists? u = true → unitClass u = some .tile ∨ unitClass u = some .spareTile →
      let t := s.retRegs u [0x100, 0x108, 0x10C, 0x110, 0x114, 0x118]
      exec (.readTileCounters ini args) s = .next { t with call := ⟨OK, t.call.words ++ [t.tileTest u]⟩ }) ∧
    exec (.readStepTable ini args) s = .next (s.ret OK (stepTable.map w32)) ∧
    (u < 64 → 2 ≤ (setIndices 6 u).length →
      (∀ k ∈ setIndices 6 u, s.exists? (uTC k) = true ∧ s.gangOf k = none ∧ s.foreignClaim ini (uTC k) = false ∧
        (∀ r ∈ s.reservs, r.ctx ≠ .realTime k) ∧ s.ustate (uTC k) = 0) →
      ∀ g, (lowest (if s.part.grade1640 then 2 else 3) fun g => !s.gangs.any (·.g = g)) = some g →
      ∀ t : State, t = { s with gangs := s.gangs ++ [⟨g, u, .forming⟩] } →
        exec (.formGang ini args) s =
          .next (if t.membersBusy u then t.retPending 0x0011 g [w32 (uGang g)] else (t.gangForm g).ret OK [w32 (uGang g)])) ∧
    (∀ x, s.gangs.find? (fun x => x.g = c && x.stage = .forming) = some x → s.membersBusy x.members = false →
      exec (.gangFormed c) s = .next ((s.gangForm c).finish 0x0011 c OK)) ∧
    (s.Changeable u → unitClass u = some .gang → s.callWaits 0x0012 (u - 0x140) = false → s.unitBusy u = false →
      exec (.dissolveGang ini args) s = .next ((s.gangGone (u - 0x140)).ret OK)) ∧
    (∀ x, s.gangs.find? (fun x => x.g = c && x.stage = .dissolving) = some x → s.unitBusy (uGang c) = false →
      exec (.gangDissolved c) s = .next ((s.gangGone c).finish 0x0012 c OK))

/-- Toe engines, vector engines and PEC services (R116, R118, R130, R134, R140–R145, R161, R162, R209): feeds bound where R130
allows, counters read, a padding-tap table built and written, the Winograd bounds, VE_CFG and ARRIVAL_EN, the table set and the
special functions, a block validated, the capabilities. -/
def Obligations.ToeVectorAndPecCallsComplete : Prop :=
  ∀ (ini e : Nat) (args : List Word) (s : State) (u : Nat), u = arg args 0 →
    (∀ v, s.Admits ini (uTE e) 0x104 (w32 v) false → s.teBusy e = false → s.feedTaken e (v % 256) = false →
      v % 256 = 0xFF ∨ (v % 256 < 16 ∧ s.exists? (uPP (v % 256)) = true) →
      exec (.teFeedWrite ini e v) s = .next (s.wr (uTE e) 0x104 (w32 v))) ∧
    (s.exists? u = true → unitClass u = some .te →
      exec (.readToeEngineStatus ini args) s = .next (s.retRegs u [0x100, 0x104, 0x108, 0x120]) ∧
      exec (.readToeCounters ini args) s = .next (s.retRegs u [0x114, 0x118, 0x10C, 0x110, 0x11C, 0x124])) ∧
    (s.Changeable u → unitClass u = some .te → s.teBusy (u - 0x88) = false → s.feedTaken (u - 0x88) (arg args 1) = false →
      arg args 1 = 0xFF ∨ (arg args 1 < 16 ∧ s.exists? (uPP (arg args 1)) = true) →
      exec (.bindToeFeed ini args) s = .next ((s.wr u 0x104 (w32 (arg args 1))).ret OK)) ∧
    (tapArgsOk args = true → s.tapRights ini args = true → (s.tapTable ini args).fault = 0 →
      ∀ t, (s.tapTable ini args).s.polWrite ini (argAddr args 14) (s.tapTable ini args).v = (t, 0) →
        exec (.buildPaddingTapTable ini args) s = .next (t.ret OK)) ∧
    (fmtIsInt u = true → zpOk u (argInt args 1) = true → fmtInput (arg args 2) = true → argInt args 3 ≤ argInt args 4 →
      ∀ we wn, we = fmtLow (arg args 2) + argInt args 3 →
        wn = flog2Exact (100 * (if u = 0 then 15 else 255) * (fmtBig (arg args 2) 0).1) (fmtBig (arg args 2) 0).2 + argInt args 4 - 50 →
        exec (.winogradWindowBounds ini args) s = .next (s.ret OK [intWord we, intWord wn, if wn ≤ we then 1 else 0])) ∧
    (∀ v, s.Admits ini (uVE e) 0x104 (w32 v) false → v % 2 = 0 ∨ s.sbCluster e = false →
      exec (.veCfgWrite ini e v) s = .next (s.wr (uVE e) 0x104 (w32 v))) ∧
    (u = 1 → arg args 1 ≤ 3 → arg args 3 ≤ 64 → arg args 2 + arg args 3 ≤ (tableOf (arg args 1)).length →
      exec (.readTableSet ini args) s = .next (s.ret OK (((tableOf (arg args 1)).drop (arg args 2)).take (arg args 3)))) ∧
    (args.length ≤ 65 → u ≤ 10 → Gives (.evaluateSpecialFunction ini args) s fun t => t = s.ret OK t.call.words ∧
      t.call.words.map some = (args.drop 1).map (specialFn u)) ∧
    (s.exists? u = true → unitClass u = some .ve → exec (.readVectorEngineCounters ini args) s =
      .next (s.retRegs u [0x100, 0x10C, 0x110, 0x114, 0x118, 0x11C, 0x120, 0x124, 0x128, 0x12C, 0x130, 0x134])) ∧
    (s.Changeable u → unitClass u = some .ve → arg args 1 ≤ 1 → arg args 1 = 0 ∨ s.sbCluster (u - 0x80) = false →
      exec (.setArrivalOrder ini args) s = .next ((s.wr u 0x104 (w32 (arg args 1))).ret OK)) ∧
    exec (.readPecCapabilities ini args) s =
      .next (s.ret OK [1, w32 (s.fld uDevctl 0x300 7 0), w32 (s.fld (uVE 0) 0x108 15 0), 4096, 4096, 4096, 512]) ∧
    (argAddr args 0 % 64 = 0 → 1 ≤ arg args 2 → arg args 2 ≤ 4 → arg args 3 ≤ 255 → arg args 4 ≤ 1 →
      s.mayRead ini (argAddr args 0) 64 = true →
      ∀ t hb, s.callBlock ini (argAddr args 0) 64 = (t, OK, [], hb) → blockBad (t.checkCtx (arg args 2)) (bytesWords hb) = false →
        t.mayRead ini (argAddr args 0 + 64) (8 * bits (nth (bytesWords hb) 1 0) 12 0) = true →
        ∀ t' cb, t.callBlock ini (argAddr args 0 + 64) (8 * bits (nth (bytesWords hb) 1 0) 12 0) = (t', OK, [], cb) →
          (t'.forCheck (arg args 2)).blockFault (arg args 2) (arg args 3) (arg args 4 = 1) (bytesWords hb) cb = (0, 0) →
          exec (.validateCommandBlock ini args) s = .next (t'.ret OK))

/-- What a parameter instruction of Phoek Engine Code leaves: the command goes to the next word with the parameter changed
(R179, R185, R195), every other context and everything else stands. -/
def Obligations.ParameterInstructions : Prop :=
  ∀ (x : Ctx) (s : State) (r : CtxRun) (w : Dword), s.Ready x r w →
    let becomes := fun (c : Instr) (op : Nat) (r' : CtxRun) => wOp w = op → Gives c s fun t =>
      t.run x = some { r' with pos := r.pos + 1 } ∧ (∀ y, y ≠ x → t.run y = s.run y) ∧ t = { s with ctxs := t.ctxs }
    let d := tdOf r.tds (bits w 51 48)
    let td := fun (e : TD) => { r with tds := setNth r.tds (bits w 51 48) e }
    becomes (.nop x) 0x00 r ∧
    becomes (.tdaddr x) 0x02 (td { d with addr := bits w 47 0 }) ∧
    becomes (.tdfmt x) 0x03 (td { d with
      fmt := bits w 3 0, zp := bits w 15 8, scaled := bit w 16, scaleT := bit w 17, tag0 := bits w 23 18 }) ∧
    becomes (.tdstride x) 0x04 (td { d with rowStride := bits w 31 0, pixStride := bits w 47 32 }) ∧
    becomes (.tdscale x) 0x05 (td { d with scaleAddr := bits w 47 0 }) ∧
    becomes (.tddim x) 0x06 (td { d with rows := bits w 23 0, cols := bits w 47 24 }) ∧
    becomes (.tdmemb x) 0x07 (td { d with memberStride := bits w 31 0 }) ∧
    becomes (.winset x) 0x08 { r with win := sext 10 (bits w 9 0) } ∧
    becomes (.cpset x) 0x09 { r with cps := setNth r.cps (bits w 51 48) (bits w 47 0) } ∧
    becomes (.sset x) 0x0A { r with sregs := setNth r.sregs (bits w 51 48) (w32 (bits w 31 0)) } ∧
    becomes (.only x) 0x0C { r with only := some (bits w 5 0) } ∧
    becomes (.rmset x) 0x0D { r with rm := [if bit w 51 then 1 else 0, bits w 47 32, bits w 31 16, bits w 15 0] } ∧
    becomes (.brkset x) 0x80
      { r with
        bursts := r.bursts.zipIdx.map fun (b, m) => if r.only.all fun k => k.testBit m then
          [bits w 3 0 + 1, bits w 7 4 + 1, bits w 11 8 + 1, bits w 15 12 + 1] else b
        only := none }

/-- Unit instructions of Phoek Engine Code (R171–R175): the word that passes decode goes to its unit's queue when fewer than four
wait there. Issued to a unit of the tiles, the lane array, the merge unit or the toe engine that runs an earlier one, it waits there
with the descriptors, window base, convolution words, scalar registers, burst length and row marks of the issue (R174). -/
def Obligations.UnitInstructionsIssue : Prop :=
  (∀ (x : Ctx) (s : State) (r : CtxRun) (w : Dword), s.Ready x r w →
     (r.issued.filter (·.unit = s.chooseUnit r w)).length < 4 →
     let issues := fun (c : Instr) (op : Nat) => wOp w = op →
       exec c s = .next ((s.updRun x fun q => { q with pos := q.pos + 1 }).issueWord r w r.pos)
     issues (.move x) 0x10 ∧ issues (.move2d x) 0x11 ∧ issues (.fill x) 0x12 ∧ issues (.scaletag x) 0x13 ∧ issues (.pages x) 0x14 ∧
     issues (.matmul x) 0x20 ∧ issues (.conv x) 0x21 ∧ issues (.psadd x) 0x22 ∧
     issues (.elem x) 0x30 ∧ issues (.special x) 0x31 ∧ issues (.reduce x) 0x32 ∧ issues (.lnorm x) 0x33 ∧
     issues (.rmsnorm x) 0x34 ∧ issues (.softmax x) 0x35 ∧ issues (.mxquant x) 0x36 ∧ issues (.sgd x) 0x37 ∧
     issues (.adam x) 0x38 ∧ issues (.blksoftmax x) 0x39 ∧ issues (.xreduce x) 0x3A ∧
     issues (.dwconv x) 0x40 ∧ issues (.pool x) 0x41 ∧
     issues (.blkmerge x) 0x50 ∧ issues (.merge x) 0x51 ∧ issues (.final x) 0x52 ∧ issues (.tconv x) 0x60) ∧
  (∀ (x : Ctx) (s : State) (r : CtxRun) (w : Dword) (i : Issued), s.Ready x r w →
      wOp w = 0x20 ∨ wOp w = 0x21 ∨ wOp w = 0x22 ∨ (0x30 ≤ wOp w ∧ wOp w ≤ 0x39) ∨ wOp w = 0x50 ∨ wOp w = 0x52 ∨ wOp w = 0x60 →
      r.current (unitOf w) = some i → (r.issued.filter (·.unit = unitOf w)).length < 4 →
      ∃ j, ((s.updRun x fun q => { q with pos := q.pos + 1 }).issueWord r w r.pos).run x =
          some { r with
            pos := r.pos + 1, issued := r.issued ++ [j], only := none, stall := none
            pairs := if unitOf w = 4 then s.newPairs r w else r.pairs
            rm := if wOp w = 0x21 ∨ wOp w = 0x60 then setNth r.rm 0 0 else r.rm } ∧
        j.unit = unitOf w ∧ j.word = w ∧ j.idx = r.pos ∧ j.begun = false ∧ j.only = r.only ∧
        j.tds = r.tds ∧ j.win = r.win ∧ j.cps = r.cps ∧ j.sregs = r.sregs ∧ j.burst = burstOf r.bursts (unitOf w) ∧
        j.rm = if wOp w = 0x21 ∨ wOp w = 0x60 then r.rm else [0, 0, 0, 0])

/-- Waits of the sequencer (R175, R176, R194): a mark wait that holds at issue, and a FENCE with nothing outstanding on its
units, go on to the next word; else issue stalls, and every other context and everything else stands. A signal, an add, a remote
signal or add, and REMIT stall issue until the context is quiet (R176). -/
def Obligations.OrderStalls : Prop :=
  ∀ (x : Ctx) (s : State) (r : CtxRun) (w : Dword), s.Ready x r w →
    let next := fun (c : Instr) => exec c s = .next (s.updRun x fun q => { q with pos := q.pos + 1 })
    let stalls := fun (c : Instr) (y : Stall) => Gives c s fun t =>
      t.run x = some { r with pos := r.pos + 1, stall := some y } ∧ (∀ z, z ≠ x → t.run z = s.run z) ∧ t = { s with ctxs := t.ctxs }
    let m := bits w 47 32
    let v := if bit w 51 then (bits w 31 0 + eBias r.entry) % 2 ^ 32 else bits w 31 0
    let idle := r.issued = [] ∧ s.inFlight x none = false
    (wOp w = 0x70 → (s.mark m + 2 ^ 32 - v) % 2 ^ 32 < 2 ^ 31 → next (.mwaitge x)) ∧
    (wOp w = 0x70 → ¬(s.mark m + 2 ^ 32 - v) % 2 ^ 32 < 2 ^ 31 → stalls (.mwaitge x) (.mark m v false false)) ∧
    (wOp w = 0x71 → s.mark m = v → next (.mwaiteq x)) ∧
    (wOp w = 0x71 → s.mark m ≠ v → stalls (.mwaiteq x) (.mark m v true false)) ∧
    (wOp w = 0x0B → (∀ i ∈ r.issued, (bits w 8 0).testBit i.unit = false) → Gives (.fence x) s fun t =>
      t.run x = some { r with pos := r.pos + 1 } ∧ (∀ z, z ≠ x → t.run z = s.run z) ∧ t = { s with ctxs := t.ctxs }) ∧
    (wOp w = 0x0B → (∃ i ∈ r.issued, (bits w 8 0).testBit i.unit = true) → stalls (.fence x) (.fence (bits w 8 0))) ∧
    (wOp w = 0x72 → ¬idle → stalls (.msignal x) (.order w)) ∧ (wOp w = 0x73 → ¬idle → stalls (.madd x) (.order w)) ∧
    (wOp w = 0x74 → ¬idle → stalls (.msignalr x) (.order w)) ∧ (wOp w = 0x75 → ¬idle → stalls (.maddr x) (.order w)) ∧
    (wOp w = 0xA0 → ¬idle → stalls (.remit x) (.order w))

/-- Signals, adds and rinds of a quiet context (R176, R181, R193, R199, R222): each member that runs the instruction signals or
adds once, hands its remote operation to the link, or writes its rind, and issue goes on; a signal to a credit mark ends the
command with MARK_DENIED, a closed window with REMOTE_DENIED. -/
def Obligations.OrderActs : Prop :=
  ∀ (x : Ctx) (s : State) (r : CtxRun) (w : Dword), s.Ready x r w → r.issued = [] → s.inFlight x none = false →
    let p := s.updRun x fun q => { q with pos := q.pos + 1 }
    let mem := s.runMembers x r.only
    let m := bits w 47 32
    let v := if bit w 51 then (bits w 31 0 + eBias r.entry) % 2 ^ 32 else bits w 31 0
    let done := fun (t : State) => t.updRun x fun q => { q with stall := none, only := none }
    let marked := fun (t : State) => done (t.updRun x fun q => { q with markDone := true })
    let sent := fun (kind : Nat) =>
      done (mem.foldl (fun t _ => t.transact kind (bits w 50 48) (ctxIni x) (some x) 9 r.pos [m, v] []) p)
    (wOp w = 0x72 → s.isCreditMark m = false → exec (.msignal x) s = .next (marked (mem.foldl (fun t _ => t.signalMark m v) p))) ∧
    (wOp w = 0x72 → s.isCreditMark m = true → exec (.msignal x) s = .next (p.endRun x fMARK_DENIED r.pos)) ∧
    (wOp w = 0x73 → exec (.madd x) s = .next (marked (mem.foldl (fun t _ => t.addMark m (bits w 31 0)) p))) ∧
    (wOp w = 0x74 → s.windowOpen (bits w 50 48) = true → exec (.msignalr x) s = .next (sent 2)) ∧
    (wOp w = 0x75 → s.windowOpen (bits w 50 48) = true → exec (.maddr x) s = .next (sent 3)) ∧
    (wOp w = 0x74 ∨ wOp w = 0x75 → s.windowOpen (bits w 50 48) = false →
      let a := 0x20000000000 + bits w 50 48 * 0x10000000000
      exec (if wOp w = 0x74 then .msignalr x else .maddr x) s = .next ((p.addrError (ctxIni x) a).endRun x fREMOTE_DENIED r.pos)) ∧
    (wOp w = 0xA0 → ((p.flushFolds x true).remitAll r w mem).2 = 0 →
      exec (.remit x) s = .next (done (((p.flushFolds x true).remitAll r w mem).1.updRun x
        fun q => { q with partialIn := q.partialIn || bit w 16 })))

/-- A mark that nothing watches takes the value signalled, or the sum mod 2^32, and nothing else moves (R255, R256): no other
mark, no register but MARK_WATCHES, no byte of memory. -/
def Obligations.MarkValues : Prop :=
  ∀ (s : State) (m v : Nat), m < 65536 → m ∉ s.wdTaps →
    (∀ x ∈ s.qcache, (qWatchEn x.words = true → qWatchMark x.words ≠ m) ∧
      ∀ e, x.entry = some e → eStartEn e = true → eStartMark e ≠ m) →
    let leaves := fun (t : State) (k : Nat) => t.mark m = k ∧ (∀ n, n ≠ m → t.mark n = s.mark n) ∧ SameMemory s t ∧
      SameRegsBut [(uMarks, 0x110)] s t
    ((∀ k ∈ s.watches, k.mark ≠ m) → leaves (s.signalMark m v) (v % 2 ^ 32)) ∧
    ((∀ k ∈ s.watches, k.mark ≠ m) → s.isCreditMark m = false → leaves (s.addMark m v) ((s.mark m + v) % 2 ^ 32))

/-- Lock passages (R196–R198, R226, R227). LOPEN queues one opening per member with its banks in ascending physical order and
stalls the context; when the opening at the arbiter has all its banks reserved, it opens: every bank is
locked for the requester's port, and issue goes on once no other opening of the context waits; LCLOSE frees every reserved bank,
and no passage of the context is left. Where no write waits for the banks, nothing else but DC_STATUS and POLDER_LOCK changes. -/
def Obligations.LockPassages : Prop :=
  (∀ (x : Ctx) (s : State) (r : CtxRun) (w : Dword), s.Ready x r w → wOp w = 0x90 →
    Gives (.lopen x) s fun t =>
      (∃ new, t.locks = s.locks ++ new ∧ new.map (·.first) = (s.runMembers x r.only).map (fun m => ((tdOf r.tds (bits w 51 48)).member m.1).addr) ∧
        ∀ l ∈ new, l.ctx = x ∧ l.ini = ctxIni x ∧ l.len = bits w 12 0 ∧ l.req = bits w 47 44 ∧ l.isOpen = false ∧ l.reserved = 0 ∧
          (∀ b, b ∈ l.banks ↔ b ∈ banksOf l.first l.len) ∧ l.banks.Pairwise fun a b => s.phys a ≤ s.phys b) ∧
      (∃ k, t.run x = some { r with pos := r.pos + 1, lock := some k, stall := some .lock, only := none }) ∧
      (∀ y, y ≠ x → t.run y = s.run y) ∧ t = { s with ctxs := t.ctxs, locks := t.locks, regs := t.regs }) ∧
  (∀ (x : Ctx) (s : State) (r : CtxRun) (l : LockX), s.run x = some r → s.locks.find? (fun k => !k.isOpen) = some l →
    l.ctx = x → l.banks.length ≤ l.reserved →
    Gives (.lockPassageOpen x) s fun t =>
      (∀ b, t.bank b = if b ∈ l.banks then { s.bank b with st := .locked, holder := some (l.port, l.ini) } else s.bank b) ∧
      t.locks = updFirst (fun k => !k.isOpen) (fun k => { k with isOpen := true, old := s.bytes k.first k.len }) s.locks ∧
      ((∀ k ∈ t.locks, k.ctx = x → k.isOpen = true) → t.run x = some { r with stall := none }) ∧
      ((∃ k ∈ t.locks, k.ctx = x ∧ k.isOpen = false) → t.run x = some r) ∧
      t = { s with ctxs := t.ctxs, locks := t.locks, banks := t.banks, regs := t.regs }) ∧
  (∀ (x : Ctx) (s : State) (r : CtxRun) (l : LockX), s.run x = some r → s.locks.find? (fun k => !k.isOpen) = some l →
    l.ctx ≠ x ∨ l.reserved < l.banks.length → exec (.lockPassageOpen x) s = .next s) ∧
  (∀ (x : Ctx) (s : State) (r : CtxRun) (w : Dword), s.Ready x r w → wOp w = 0x91 →
    exec (.lclose x) s = .next (((((s.updRun x fun q => { q with pos := q.pos + 1 }).dropLocks x).updRun x fun q =>
      { q with lock := none, only := none }).dcSync x)) ∧
    (s.held = [] → Gives (.lclose x) s fun t =>
      t.locks = s.locks.filter (·.ctx ≠ x) ∧ t.run x = some { r with pos := r.pos + 1, lock := none, only := none } ∧
      (∀ b, t.bank b = if ∃ l ∈ s.locks, l.ctx = x ∧ b ∈ l.banks.take l.reserved then { s.bank b with st := .idle, holder := none }
        else s.bank b) ∧
      t = { s with ctxs := t.ctxs, locks := t.locks, banks := t.banks, regs := t.regs }))

/-- Entries (R164, R247, R249, R250): the scheduler takes a visible entry that passes the checks, leaves one whose PHASE is not the
queue's, refuses one that fails a check with a fault and a completion record and reads on, and keeps a refusal back while the
completion ring is full, counting it. A queue that is disabled, halted, running or has its entry is not read. -/
def Obligations.EntryIsRead : Prop :=
  ∀ (s : State) (q : Nat) (x : QSlot), q < 2 ^ 20 → s.slot q = some x → s.reservOf q = none →
    (∀ e pre, s.MayFetch q x → s.EntryAt x e pre →
      (ePhase e ≠ qPhase x.words → exec (.entryRead q) s = .next s.vtSync) ∧
      (ePhase e = qPhase x.words → s.entryFault x.words e = 0 →
        exec (.entryRead q) s = .next (s.takeEntry q e pre).vtSync ∧
        ∃ y, ((s.takeEntry q e pre).slot q) = some y ∧ y.entry = some e ∧ y.words = x.words ∧
          (y.held = true ↔ eStartEn e = false ∨ markOk (s.mark (eStartMark e)) (eStartValue e) (eStartEq e) = true)) ∧
      (ePhase e = qPhase x.words → s.entryFault x.words e ≠ 0 → compRoom x.words = false →
        exec (.entryRead q) s = .next (((s.count uSched 0x234 1).updSlot q fun y => { y with compWait := true }).vtSync)) ∧
      (ePhase e = qPhase x.words → s.entryFault x.words e ≠ 0 → compRoom x.words = true → ∀ n,
        s.entryRead q (n + 1) = ((s.noteFault q e (s.entryFault x.words e) uSched (spIni q) 0 0 oNone).complete q e
          ⟨s.entryFault x.words e, false, 0, 0, 0⟩).entryRead q n)) ∧
    (qEnabled x.words = false ∨ qHalted x.words = true ∨ x.running.isSome ∨ x.entry.isSome ∨ x.deleting = true →
      exec (.entryRead q) s = .next s.vtSync)

/-- R258: of the ready entries that may go to a free unit, the one dispatched belongs to the client with the lowest virtual time,
ties to the lower client; and within that client no ready queue lies between its last one dispatched and the one chosen. -/
def Obligations.LowestVirtualTimeWins : Prop :=
  ∀ (s : State) (x : Ctx) (y : QSlot), s.choose x = some y →
    let may := fun (z : QSlot) => z ∈ s.qcache ∧ s.isReady z = true ∧ ∃ e i, s.nextEntry z = some (e, i) ∧ s.fits z e x = true
    let vt := fun (z : QSlot) => (s.clientX (qClient z.words)).vt
    may y ∧
    (∀ z, may z → vt y < vt z ∨ (vt y = vt z ∧ qClient y.words ≤ qClient z.words)) ∧
    (∀ z last, may z → qClient z.words = qClient y.words → (s.clientX (qClient y.words)).lastQueue = some last →
      (last < z.id → last < y.id ∧ y.id ≤ z.id) ∧ (¬last < y.id → y.id ≤ z.id)) ∧
    (∀ z, may z → qClient z.words = qClient y.words → (s.clientX (qClient y.words)).lastQueue = none → y.id ≤ z.id)

/-- Dispatch, completion of instructions, waits and budgets (R158, R166, R175, R177, R194, R250, R253, R258, R260, R266): what each
event does when it applies. -/
def Obligations.CommandsProgress : Prop :=
  (∀ (q : Nat) (s : State), exec (.startConditionMet q) s = .next (s.updSlot q fun y =>
      match y.entry with
      | none => y
      | some e => if y.held = false ∧ (eStartEn e = true → markOk (s.mark (eStartMark e)) (eStartValue e) (eStartEq e) = true) then
          { y with held := true, readyAt := some s.nowNs } else y).vtSync) ∧
  (∀ (x : Ctx) (s : State) (y : QSlot) (e : List Word), s.vtSync.ctxFree x = true → s.vtSync.choose x = some y →
    s.vtSync.nextEntry y = some (e, none) →
    let s1 := s.vtSync
    let c := qClient y.words
    let t := (((((s1.countPreempt x c).count uSched 0x21C 1).setClientX c
        { ((s1.countPreempt x c).count uSched 0x21C 1).clientX c with lastQueue := some y.id }).updSlot y.id
        fun z => { z with running := some x }).prologue x y e none)
    ((∀ d ∈ s1.ctxDoms x, s1.domOn d = true) → (∀ r, t.run x = some r → r.fault ≠ fSLUICE_WAIT) →
      exec (.commandDispatch x) s = .next t.vtSync) ∧
    ((∀ d ∈ s1.ctxDoms x, s1.domOn d = true) → (∃ r, t.run x = some r ∧ r.fault = fSLUICE_WAIT) →
      exec (.commandDispatch x) s = .next s1) ∧
    ((∃ d ∈ s1.ctxDoms x, s1.domOn d = false) → ∃ l, exec (.commandDispatch x) s = .next { s1 with pwr := { s1.pwr with powering := l } } ∧
      ∀ d ∈ s1.ctxDoms x, s1.domOn d = false → d ∈ l)) ∧
  (∀ (x : Ctx) (unit : Nat) (hs blocks bytes stalls : List Nat) (s : State) (r : CtxRun) (i : Issued), s.run x = some r →
    r.current unit = some i → i.wait = .none → i.left = [] → s.inFlight x (some i.idx) = false →
    exec (.instructionComplete x unit hs blocks bytes stalls) s = .next (((((((s.updRun x fun q =>
      { q with issued := q.issued.filter fun j => !(j.unit = unit && j.idx = i.idx) }).countDone x i hs blocks bytes stalls).flushFolds
      x false).beginUnits x [unit]).resume x).dcSync x).unitSync x)) ∧
  (∀ (x : Ctx) (s : State) (r : CtxRun) (m v : Nat) (eq : Bool), s.run x = some r → r.stall = some (.mark m v eq true) →
    exec (.markWaitSatisfied x 9) s = .next (s.updRun x fun q => { q with stall := none })) ∧
  (∀ (x : Ctx) (unit : Nat) (s : State) (r : CtxRun) (i : Issued) (ms : List (Nat × Nat)) (l got : List Nat), s.run x = some r →
    unit ≠ 9 → r.current unit = some i → i.wait = .sources ms l got →
    let next := nextSource (s.arrivalOrder r i.word) ms.length i.taken got
    (i.taken.length = ms.length → exec (.markWaitSatisfied x unit) s = .next (s.opRun x r { i with wait := .none })) ∧
    (i.taken.length ≠ ms.length → next = none → exec (.markWaitSatisfied x unit) s = .next (s.unitSync x)) ∧
    (∀ k t j, i.taken.length ≠ ms.length → next = some k →
      (s.updRun x fun q => { q with
        reordered := q.reordered || (List.range k).any fun j => !i.taken.contains j
        fpMismatch := q.fpMismatch || (wOp i.word = 0x51 || ctxTarget x != 2) && s.otherFp k }).takeOn r i k (s.runMembers x i.only) =
        (t, j, 0) →
      exec (.markWaitSatisfied x unit) s = .next
        ((t.setIssued x { j with got := j.got ++ [(k, [])], wait := .sources ms l got }).takeSources x unit (ms.length + 1)))) ∧
  (∀ (x : Ctx) (s : State) (r : CtxRun), s.run x = some r → r.ended = true → r.issued ≠ [] → r.xlStalled = false →
    exec (.budgetExpiry x) s = .next
      ((((s.recordFault fBUDGET_OVERRUN (ctxUnit x) (ctxIni x) r.queue (eSeq r.entry) 0 r.pos 0 oNone).failRun x fBUDGET_OVERRUN
        r.pos).dcSync x).unitSync x)) ∧
  (∀ (x : Ctx) (s : State) (r : CtxRun), s.run x = some r → r.ended = false →
    (r.xlStalled = false → exec (.budgetExpiry x) s = .next (((s.failRun x fBUDGET_OVERRUN r.pos).dcSync x).unitSync x)) ∧
    (r.xlStalled = true → exec (.budgetExpiry x) s = .next s ∧
      exec (.xlateTimeoutExpiry x) s = .next (((s.failRun x fXLATE_TIMEOUT r.pos).dcSync x).unitSync x))) ∧
  (∀ (c : Nat) (s : State), c < 4096 →
    ((s.clientX c).hold = true → (s.clientX c).want = true →
      exec (.eventRouteSignal c) s = .next ((s.setClientX c { s.clientX c with want := false }).signalRoute c)) ∧
    ((s.clientX c).hold = true → (s.clientX c).want = false →
      exec (.eventRouteSignal c) s = .next (s.setClientX c { s.clientX c with hold := false })))

/-- The epilogue (R166, R177, R198, R251, R557): with every unit done and nothing left to run, the command gives back what it holds;
a command without a fault applies its done operation and ends with its record, a signal to a credit mark ends it with MARK_DENIED
instead, a passage left open with LOCK_LEFT_OPEN; a fault that is not retried is recorded and ends it. -/
def Obligations.EpilogueEnds : Prop :=
  ∀ (x : Ctx) (steps : Nat) (s : State) (r : CtxRun) (y : QSlot), s.run x = some r → s.allDone r = true →
    let t := s.tearDown x
    let n := if x.isMill then 0 else steps
    let c := r.entry
    let slotOf := fun (u : State) => u.slot r.queue = some y
    (r.fault = 0 → (r.ended = true ∨ r.lock = none) → eDoneOp c = 0 → slotOf t → exec (.commandEpilogue x steps) s =
      .next ((t.classify r y.retried 0 (r.faultUnit.getD (ctxUnit x))).finalEnd r 0 n false)) ∧
    (r.fault = 0 → (r.ended = true ∨ r.lock = none) → eDoneOp c = 1 → slotOf (t.addMark (eDoneMark c) (eDoneValue c)) →
      exec (.commandEpilogue x steps) s = .next (((t.addMark (eDoneMark c) (eDoneValue c)).classify r y.retried 0
        (r.faultUnit.getD (ctxUnit x))).finalEnd r 0 n true)) ∧
    (r.fault = 0 → (r.ended = true ∨ r.lock = none) → eDoneOp c = 2 → t.isCreditMark (eDoneMark c) = false →
      slotOf (t.signalMark (eDoneMark c) (eDoneValue c)) → exec (.commandEpilogue x steps) s =
      .next (((t.signalMark (eDoneMark c) (eDoneValue c)).classify r y.retried 0 (r.faultUnit.getD (ctxUnit x))).finalEnd r 0 n true)) ∧
    (∀ f, f ≠ 0 → (r.ended = false → r.lock = none → r.fault = f) → (r.ended = false → r.lock ≠ none → f = fLOCK_LEFT_OPEN) →
      (r.ended = true → r.fault = f) → slotOf t → y.retried = none → t.mayRetry r f (r.faultUnit.getD (ctxUnit x)) = false →
      let a := t.attemptFault r (qClient y.words) f (r.faultUnit.getD (ctxUnit x)) none
      exec (.commandEpilogue x steps) s = .next ((a.1.classify { r with faultRec := some a.2 } none f
        (r.faultUnit.getD (ctxUnit x))).finalEnd r f n false))

/-- R251, R247: the completion record at COMP_TAIL holds SEQ, fault, phase, DONE_APPLIED, restarts, USER, STEPS, ELAPSED and the
Gauge time; no other byte of memory changes; the entry leaves the queue, and HEAD and COMP_TAIL go on, each inverting its phase
at the wrap. -/
def Obligations.CompletionRecord : Prop :=
  (∀ (s : State) (q : Nat) (x : QSlot) (e : List Word) (r : Done), s.slot q = some x → qXlate x.words = false → eNotify e = false →
    (r.fault = 0 ∨ qHaltOnFault x.words = false) → x.reload = false →
    let a := qComp x.words + 32 * qCompTail x.words
    s.Reaches (spIni q) a true →
    let t := s.complete q e r
    t.rdW a = w32 (eSeq e) ∧
    t.rdW (a + 4) = w32 (r.fault % 2 ^ 16 + (if qCompPhase x.words then 2 ^ 16 else 0) + (if r.applied then 2 ^ 17 else 0) +
      min r.restarts 15 * 2 ^ 18) ∧
    t.rdW (a + 8) = nth e 10 0 ∧ t.rdW (a + 12) = nth e 11 0 ∧
    t.rdW (a + 16) = w32 (min r.steps (2 ^ 32 - 1)) ∧ t.rdW (a + 20) = w32 (min r.elapsed (2 ^ 32 - 1)) ∧
    t.rdW (a + 24) = w32 s.gaugeNs ∧ t.rdW (a + 28) = w32 s.gaugeS ∧
    (∀ b, b < a ∨ a + 32 ≤ b → t.byte b = s.byte b) ∧
    ∃ y, t.slot q = some y ∧ y.running = none ∧ y.entry = none ∧ y.words = advTail (advHead x.words)) ∧
  (∀ d : List Word, d.length = 16 → qOrder d ≤ 20 → qCompOrder d ≤ 20 →
    (qHead d + 1 < 2 ^ qOrder d → qHead (advHead d) = qHead d + 1 ∧ qPhase (advHead d) = qPhase d) ∧
    (2 ^ qOrder d ≤ qHead d + 1 → qHead (advHead d) = 0 ∧ qPhase (advHead d) = !qPhase d) ∧
    (qCompTail d + 1 < 2 ^ qCompOrder d → qCompTail (advTail d) = qCompTail d + 1 ∧ qCompPhase (advTail d) = qCompPhase d) ∧
    (2 ^ qCompOrder d ≤ qCompTail d + 1 → qCompTail (advTail d) = 0 ∧ qCompPhase (advTail d) = !qCompPhase d))

/-- Events (R253, R596): nothing is written for a client that is not valid; an event that finds room is written at EVENT_TAIL with
its code, unit, phase, queue, SEQ, details and the Gauge time, EVENT_TAIL goes on and no other byte of memory changes; one that
finds none is dropped and counted; while events are lost, one is written only when the ring has room for two. -/
def Obligations.EventRecords : Prop :=
  ∀ (s : State) (c code unit queue seq d0 d1 : Nat),
    (s.clientValid c = false → s.post c code unit queue seq d0 d1 = s) ∧
    (s.clientValid c = true → (s.eventRoom c = 0 ∨ ((s.clientX c).lost ≠ 0 ∧ s.eventRoom c < 2)) →
      s.post c code unit queue seq d0 d1 = s.eventDrop c ∧ ((s.eventDrop c).clientX c).lost = (s.clientX c).lost + 1 ∧
      (s.eventDrop c).rd (wClient c) 28 = setBits (s.rd (wClient c) 28) 15 0 (min (bits (s.rd (wClient c) 28) 15 0 + 1) 65535)) ∧
    (s.clientValid c = true → (s.clientX c).lost = 0 → 1 ≤ s.eventRoom c →
      let a := s.cEventAddr c + 32 * bits (s.cw c 6) 31 16
      s.Reaches 0x50 a true →
      let t := (s.eventWrite c code unit queue seq d0 d1).1
      s.post c code unit queue seq d0 d1 = t.eventSignal c ∧
      t.rdW a = w32 (code % 2 ^ 16 + unit % 2 ^ 13 * 2 ^ 16) ∧
      t.rdW (a + 4) = w32 ((if (s.clientX c).phase then 2 ^ 31 else 0) + queue % 2 ^ 20) ∧
      t.rdW (a + 8) = w32 seq ∧ t.rdW (a + 12) = w32 d0 ∧ t.rdW (a + 16) = w32 d1 ∧ t.rdW (a + 20) = w32 s.gaugeNs ∧
      t.rdW (a + 24) = w32 s.gaugeS ∧ t.rdW (a + 28) = w32 (s.gaugeS / 2 ^ 32 % 2 ^ 16) ∧
      (∀ b, b < a ∨ a + 32 ≤ b → t.byte b = s.byte b) ∧
      (let n := bits (s.cw c 6) 31 16 + 1
       if n < 2 ^ s.cEventOrder c then bits (t.cw c 6) 31 16 = n % 2 ^ 16 ∧ (t.clientX c).phase = (s.clientX c).phase
       else bits (t.cw c 6) 31 16 = 0 ∧ (t.clientX c).phase = !(s.clientX c).phase))

/-- Clients (R248, R252, R257, R268, R270): creating one takes the lowest free number, stores its words and starts its ring and its
counters afresh; a client sets its own SHARE and reads its own counters, which clears EVENTS_LOST; words of a record are stored, one
that makes the record valid or invalid starts or ends the client. Nothing changes where a call is refused. -/
def Obligations.ClientCalls : Prop :=
  (∀ (ini : Nat) (args : List Word) (s : State),
    let n := arg args
    let fits := (1 ≤ n 0 ∧ n 0 ≤ 0xFFFF) ∧ n 1 ≤ 0x3FF ∧ n 2 ≤ 0x3FF ∧ n 4 < 2 ^ 16 ∧ n 6 ≤ 3 ∧ n 7 ≤ 2047 ∧ n 8 ≤ 0xFFFF ∧ n 9 ≤ 0xFFFF ∧
      n 8 + n 9 ≤ 65536 ∧ eventRingOk s.part (argAddr args 3) (n 5) = true ∧ s.vectorOk (n 1) (n 2) (n 6) (n 7) = true
    (¬fits → exec (.createClient ini args) s = .next (s.ret RANGE)) ∧
    (fits → s.claimed uSched = true → exec (.createClient ini args) s = .next (s.ret CLAIMED)) ∧
    (fits → s.claimed uSched = false → (∀ c, c < 4096 → s.clientValid c = true) →
      exec (.createClient ini args) s = .next (s.ret CLIENTS_FULL)) ∧
    (∀ c, fits → s.claimed uSched = false → c < 4096 → s.clientValid c = false → (∀ d, d < c → s.clientValid d = true) → Gives (.createClient ini args) s fun t =>
      t.call = ⟨OK, [w32 c]⟩ ∧ t.cw c 0 = w32 (n 0) ∧ t.cw c 1 = w32 (2 ^ 31 + n 2 * 2 ^ 16 + n 1) ∧ t.cw c 2 = w32 (n 3) ∧
      t.cw c 3 = w32 (n 4 + n 5 * 2 ^ 16) ∧ t.cw c 4 = w32 (n 6 * 2 ^ 30 + n 7) ∧ t.cw c 5 = w32 (n 9 * 2 ^ 16 + n 8) ∧
      t.cw c 6 = 0 ∧ t.cw c 7 = 0 ∧ t.wide64 (wClient c) 0x20 = 0 ∧ t.wide64 (wClient c) 0x28 = 0 ∧ t.wide64 (wClient c) 0x30 = 0 ∧
      (t.clientX c).lost = 0 ∧ (t.clientX c).phase = true ∧
      (∀ u off, off < 0x10000 → u ≠ wClient c → t.rd u off = s.rd u off) ∧ SameMemory s t ∧ SameMarks s t)) ∧
  (∀ (ini : Nat) (args : List Word) (s : State) (c : Nat), arg args 0 = c → c ≤ 4095 →
    (s.clientOf ini = some c →
      (1 ≤ arg args 1 → arg args 1 ≤ 0xFFFF →
        exec (.setShare ini args) s = .next (if s.claimed uSched then s.ret CLAIMED
          else (s.wr (wClient c) 0 (w32 (arg args 1))).ret OK)) ∧
      exec (.readClientAccounting ini args) s = .next ((s.wr (wClient c) 28 0).ret OK
        [w32 (s.wide64 (wClient c) 0x20), w32 (s.wide64 (wClient c) 0x20 / 2 ^ 32), w32 (s.wide64 (wClient c) 0x28),
          w32 (s.wide64 (wClient c) 0x28 / 2 ^ 32), w32 (s.wide64 (wClient c) 0x30), w32 (s.wide64 (wClient c) 0x30 / 2 ^ 32),
          s.rd (wClient c) 0x38, s.rd (wClient c) 0x3C, s.rd (wClient c) 28])) ∧
    (s.clientOf ini ≠ some c → (1 ≤ arg args 1 → arg args 1 ≤ 0xFFFF → exec (.setShare ini args) s = .next (s.ret DENIED)) ∧
      exec (.readClientAccounting ini args) s = .next (s.ret DENIED))) ∧
  (∀ (ini k : Nat) (v : Nat) (s : State), k < 16 → s.Admits ini uSched (0x240 + 4 * k) (w32 v) false →
    let c := s.fld uSched 0x230 11 0
    (∀ x, s.clientCheck c k (w32 v) = some x →
      exec (.clientWordWrite ini k v) s = .next (s.accError ini (regAddr uSched (0x240 + 4 * k)) x)) ∧
    (s.clientCheck c k (w32 v) = none → (k ≠ 1 ∨ bit (w32 v) 31 = s.clientValid c) →
      exec (.clientWordWrite ini k v) s = .next (s.wr (wClient c) (4 * k) (w32 v))) ∧
    (s.clientCheck c k (w32 v) = none → k = 1 → bit (w32 v) 31 = true → s.clientValid c = false →
      exec (.clientWordWrite ini k v) s = .next ((s.wr (wClient c) 4 (w32 v)).clientStart c)) ∧
    (s.clientCheck c k (w32 v) = none → k = 1 → bit (w32 v) 31 = false → s.clientValid c = true →
      exec (.clientWordWrite ini k v) s = .next ((s.wr (wClient c) 4 (w32 v)).clientGone c)))

/-- Marks from outside (R255, R256, R269, R449): an initiator signals a mark of its client's range through the window and by call,
adds through MARK_ADD and by call, and sets watches; outside the range the access is refused, recorded and counted, a call DENIED. -/
def Obligations.MarksFromOutside : Prop :=
  ∀ (ini m v : Nat) (s : State), m < 65536 →
    (s.fwAllows ini (0x10000000 + 4 * m) true = true → s.iniMayMark ini m = true →
      exec (.markWindowWrite ini m v) s = .next { s.signalMark m v with reply := ⟨false, []⟩ }) ∧
    (s.fwAllows ini (0x10000000 + 4 * m) true = true → s.iniMayMark ini m = false →
      Gives (.markWindowWrite ini m v) s fun t => t.reply.err = true ∧ SameMarks s t ∧ SameMemory s t ∧
        t.rd uMarks 0x108 = w32 (2 ^ 31 + 2 ^ 30 + ini % 2 ^ 10 * 2 ^ 16 + m) ∧ SameRegsBut [(uMarks, 0x108), (uMarks, 0x10C)] s t) ∧
    (s.Admits ini uMarks 0x104 (w32 v) true → s.fld (wSel ini) 0x100 15 0 = m → s.iniMayMark ini m = true →
      exec (.markAddWrite ini v) s = .next (s.addMark m (v % 2 ^ 32))) ∧
    (s.Admits ini uMarks 0x104 (w32 v) true → s.fld (wSel ini) 0x100 15 0 = m → s.iniMayMark ini m = false →
      exec (.markAddWrite ini v) s = .next ((s.markDenied ini m true).accError ini (regAddr uMarks 0x104) .check)) ∧
    (∀ args : List Word, arg args 0 = m → arg args 1 = 0 ∨ arg args 1 = 1 → args.drop 3 = [] →
      (s.iniMayMark ini m = true → exec (.signalOrAddMark ini args) s = .next
        (if s.claimed uMarks then s.ret CLAIMED
          else (if arg args 1 = 0 then s.signalMark m (arg args 2) else s.addMark m (arg args 2)).ret OK)) ∧
      (s.iniMayMark ini m = false → exec (.signalOrAddMark ini args) s = .next (s.ret DENIED) ∧
        exec (.watchMark ini args) s = .next (s.ret DENIED)) ∧
      (∀ c i, s.iniMayMark ini m = true → s.claimed uMarks = false → s.clientOf ini = some c → i < 256 → (∀ w ∈ s.watches, w.idx ≠ i) →
        (∀ j, j < i → ∃ w ∈ s.watches, w.idx = j) →
        let t : State := { s with watches := s.watches ++ [⟨i, c, m, arg args 1 = 1, arg args 2⟩] }
        exec (.watchMark ini args) s = .next
          ((if markOk (s.mark m) (arg args 2) (arg args 1 = 1) then t.fireWatches m (s.mark m) else t.watchSync).ret OK [w32 i])))

/-- Queue calls (R245, R246, R249, R250, R262, R266, R268, R270): doorbells and reloads act on the queue named; the owner of a queue
enables, halts, resumes, reads and deletes it, releases its reservation and resolves its translation stall; another caller is
DENIED and nothing changes; a halt or a release waits for the running command to end. -/
def Obligations.QueueCalls : Prop :=
  (∀ (ini q : Nat) (s : State), q < 2 ^ 20 →
    (s.Admits ini uSched 0x20C (w32 q) true → exec (.doorbell ini q) s = .next (s.doorbell q).vtSync) ∧
    (s.Admits ini uSched 0x210 (w32 q) false → s.slot q = none → exec (.qinval ini q) s = .next s.vtSync) ∧
    (∀ x, s.Admits ini uSched 0x210 (w32 q) false → s.slot q = some x → x.running.isSome = true →
      exec (.qinval ini q) s = .next (s.updSlot q fun y => { y with reload := true }).vtSync) ∧
    (∀ x, s.Admits ini uSched 0x210 (w32 q) false → s.slot q = some x → x.running = none →
      exec (.qinval ini q) s = .next (s.reloadNow q).vtSync) ∧
    (s.Admits ini uSched 0x210 (w32 (2 ^ 31)) false →
      exec (.qinvalAll ini) s = .next ((s.qcache.map (·.id)).foldl (fun t q => t.qinval q) s).vtSync)) ∧
  (∀ (ini q : Nat) (args : List Word) (s : State), arg args 0 = q → q ≤ 0xFFFFF →
    (s.ownsQueue ini q = false →
      exec (.readQueue ini args) s = .next (s.ret DENIED) ∧ exec (.releaseReservation ini args) s = .next (s.ret DENIED) ∧
      (arg args 1 ≤ 2 → exec (.enableHaltOrResumeQueue ini args) s = .next (s.ret DENIED)) ∧
      (arg args 1 ≤ 1 → exec (.resolveTranslationStall ini args) s = .next (s.ret DENIED)) ∧
      (s.queueMade q = true → exec (.deleteQueue ini args) s = .next (s.ret DENIED))) ∧
    (s.ownsQueue ini q = true → s.claimed uSched = true →
      exec (.releaseReservation ini args) s = .next (s.ret CLAIMED) ∧
      (arg args 1 ≤ 2 → exec (.enableHaltOrResumeQueue ini args) s = .next (s.ret CLAIMED)) ∧
      (arg args 1 ≤ 1 → exec (.resolveTranslationStall ini args) s = .next (s.ret CLAIMED)) ∧
      (s.queueMade q = true → exec (.deleteQueue ini args) s = .next (s.ret CLAIMED))) ∧
    (s.ownsQueue ini q = true → s.reservClaimed q = true →
      exec (.releaseReservation ini args) s = .next (s.ret CLAIMED) ∧
      (s.queueMade q = true → exec (.deleteQueue ini args) s = .next (s.ret CLAIMED))) ∧
    (s.ownsQueue ini q = true →
      exec (.readQueue ini args) s = .next (s.ret OK (match s.slot q with | some x => x.words | none => s.rdWs (s.qAddr q) 16))) ∧
    (s.ownsQueue ini q = true → s.claimed uSched = false →
      (s.reservClaimed q = false → s.callWaits 0x0107 q = true → exec (.releaseReservation ini args) s = .next (s.ret UNIT_BUSY)) ∧
      (s.reservClaimed q = false → s.callWaits 0x0107 q = false → s.slot q = none → exec (.releaseReservation ini args) s = .next (s.ret OK)) ∧
      (∀ x, s.reservClaimed q = false → s.callWaits 0x0107 q = false → s.slot q = some x → (s.reservOf q = none ∨ x.running = none) →
        exec (.releaseReservation ini args) s = .next ((s.dropReserv q).ret OK)) ∧
      (∀ x, s.reservClaimed q = false → s.callWaits 0x0107 q = false → s.slot q = some x → (s.reservOf q).isSome = true → x.running.isSome = true → Gives (.releaseReservation ini args) s fun t =>
        t.call.status = PENDING ∧ t.pendCalls = s.pendCalls ++ [⟨s.callCtx, 0x0107, q, none, []⟩] ∧
        ∀ r ∈ t.reservs, r.queue = q → r.releasing = true) ∧
      (∀ x, (s.loadQueue q).slot q = some x → x.halting = true → arg args 1 ≤ 2 →
        exec (.enableHaltOrResumeQueue ini args) s = .next ((s.loadQueue q).ret QUEUE_BUSY)) ∧
      (∀ x, (s.loadQueue q).slot q = some x → x.halting = false → arg args 1 = 0 →
        let t := s.loadQueue q
        exec (.enableHaltOrResumeQueue ini args) s = .next (((t.setQBit q 8 true).wrN (t.qAddr q + 8) 4
          (setBit (t.rdW (t.qAddr q + 8)) 8 true).toNat).vtSync.ret OK)) ∧
      (∀ x, (s.loadQueue q).slot q = some x → x.halting = false → arg args 1 = 1 → x.running = none →
        exec (.enableHaltOrResumeQueue ini args) s = .next (((s.loadQueue q).haltQueue q 5).ret OK)) ∧
      (∀ x, (s.loadQueue q).slot q = some x → x.halting = false → arg args 1 = 1 → x.running.isSome = true →
        exec (.enableHaltOrResumeQueue ini args) s = .next ((((s.loadQueue q).haltQueue q 5).updSlot q fun z =>
          { z with halting := true }).retPending 0x0105 q)) ∧
      (∀ x, (s.loadQueue q).slot q = some x → x.halting = false → arg args 1 = 2 →
        exec (.enableHaltOrResumeQueue ini args) s = .next (((s.loadQueue q).setQBit q 14 false).vtSync.ret OK)) ∧
      (arg args 1 ≤ 1 → (∀ r ∈ s.ctxs, r.queue = q → r.ctx.isMill = true ∨ r.xlStalled = false) →
        exec (.resolveTranslationStall ini args) s = .next (s.ret NO_STALL)) ∧
      (∀ r, s.ctxs.find? (fun r => r.queue = q && !r.ctx.isMill && r.xlStalled) = some r →
        (arg args 1 = 1 → exec (.resolveTranslationStall ini args) s = .next ((s.restart r).ret OK)) ∧
        (arg args 1 = 0 → exec (.resolveTranslationStall ini args) s = .next
          ((((r.issued.filter fun i => i.wait = .xlate).map (·.unit)).eraseDups.foldl (fun t u => t.retryMove r.ctx u) s).ret OK))) ∧
      (∀ x, s.queueMade q = true → s.callWaits 0x0104 q = false → s.slot q = some x → s.queueParcels q = [] → s.reservOf q = none →
        let t := (s.loadQueue q).updSlot q fun y => { y with deleting := true }
        (x.running.isSome = true → exec (.deleteQueue ini args) s = .next (t.retPending 0x0104 q)) ∧
        (x.running = none → exec (.deleteQueue ini args) s = .next
          ((({ t.wrN (t.qAddr q + 8) 4 0 with qcache := t.qcache.filter (·.id != q) }).cacheSync.finish 0x0104 q OK).ret OK))) ∧
      (s.queueMade q = true → s.reservClaimed q = false → s.queueParcels q = [] → s.callWaits 0x0104 q = true →
        exec (.deleteQueue ini args) s = .next (s.ret UNIT_BUSY))))

/-- Same-bits mode (R271, R272, R291, R292): a request that agrees with EN changes only STEAL; one that differs is refused while
another is pending, STEAL while the mode is on; else each idle unit adopts it at once and the rest at their boundaries; when no unit
is left, ACTIVE takes EN, PENDING ends and the switch is counted. -/
def Obligations.SameBitsMode : Prop :=
  (∀ (ini value : Nat) (s : State), s.Admits ini uDevctl 0x400 (w32 value) false →
    let en := value % 2 = 1
    let steal := value / 2 % 2 = 1
    let refuse := exec (.sameBitsWrite ini value) s = .next (s.accError ini (regAddr uDevctl 0x400) .check)
    (s.sbPending = true → ¬(en ↔ s.sbEn = true) → refuse) ∧
    ((s.sbPending = true → (en ↔ s.sbEn = true)) → steal → (s.sbEn = true ∨ s.sbActive = true) → refuse) ∧
    (¬(steal ∧ (s.sbEn = true ∨ s.sbActive = true)) → (en ↔ s.sbEn = true) →
      exec (.sameBitsWrite ini value) s = .next (s.setFlag uDevctl 0x400 1 (decide (steal ∧ ¬en)))) ∧
    (¬(steal ∧ (s.sbEn = true ∨ s.sbActive = true)) → s.sbPending = false → ¬(en ↔ s.sbEn = true) →
      exec (.sameBitsWrite ini value) s = .next ((s.setFlag uDevctl 0x400 1 (decide (steal ∧ ¬en))).sbRequest en))) ∧
  (∀ (ini : Nat) (args : List Word) (s : State),
    (2 ≤ arg args 0 → exec (.setSameBitsMode ini args) s = .next (s.ret RANGE)) ∧
    (let may := s.fwAllows ini (regAddr uDevctl 0) true = true
    (arg args 0 ≤ 1 → ¬may → exec (.setSameBitsMode ini args) s = .next (s.ret DENIED)) ∧
    (arg args 0 ≤ 1 → may → s.claimed uDevctl = true → exec (.setSameBitsMode ini args) s = .next (s.ret CLAIMED)) ∧
    (arg args 0 ≤ 1 → may → s.claimed uDevctl = false → s.sbPending = true → exec (.setSameBitsMode ini args) s = .next (s.ret SB_PENDING)) ∧
    (arg args 0 ≤ 1 → may → s.claimed uDevctl = false → s.sbPending = false → (arg args 0 = 1 ↔ s.sbEn = true) →
      exec (.setSameBitsMode ini args) s = .next (s.ret OK)) ∧
    (arg args 0 ≤ 1 → may → s.claimed uDevctl = false → s.sbPending = false → ¬(arg args 0 = 1 ↔ s.sbEn = true) →
      let t := s.sbRequest (arg args 0 = 1)
      exec (.setSameBitsMode ini args) s = .next (if t.sbPending then t.retPending 0x0300 (arg args 0) else t.ret OK))) ∧
    exec (.readFingerprint ini args) s =
      .next (s.ret OK [s.rd uDevctl 0x408, s.rd uDevctl 0x404, s.rd uDevctl 0x400, s.rd uDevctl 0x40C])) ∧
  (∀ (s : State) (i : Nat), s.sbOnFor i ≠ s.sbEn →
    ∃ t : State, s.sbAdopt i = t.sbSync ∧ (t.sbOnFor i = s.sbEn) ∧ ∀ j, j ≠ i → t.sbOnFor j = s.sbOnFor j) ∧
  (∀ s : State, s.sbPending = true → (∀ i ∈ s.sbUnits, s.sbOnFor i = s.sbEn) →
    s.sbSync.sbActive = s.sbEn ∧ s.sbSync.sbPending = false ∧ s.sbSync.rd uDevctl 0x40C = 0 ∧
    bit (s.sbSync.rd uDevctl 0x404) 0 = s.sbEn) ∧
  (∀ s : State, (∃ i ∈ s.sbUnits, s.sbOnFor i ≠ s.sbEn) → s.sbSync.sbActive = s.sbActive ∧ s.sbSync.sbPending = s.sbPending ∧
    s.sbSync.rd uDevctl 0x40C ≠ 0)

/-- Register writes (R3, R8, R13–R15, R449) from a bus to a block that only stores: any width but 4 and any address off a word is
refused; a block fused off, a firewall that refuses, a writer without the claim, an offset no register has, a value out of bounds are
refused in this order, with the error recorded, and nothing is written; else the register takes the value, an RO field keeping its
bits and a W1C field losing the bits written as 1. -/
def Obligations.RegisterWrites : Prop :=
  (∀ (ini addr width v : Nat) (s : State), (width ≠ 4 ∨ addr % 4 ≠ 0) →
    exec (.registerWrite ini addr width v) s = .next (s.accError ini addr .access)) ∧
  (∀ (ini u off v : Nat) (s : State), storesOnly u = true → 0x40 ≤ off → off < 0x10000 → off % 4 = 0 → procAt u off = none →
    let a := regAddr u off
    let on := s.exists? u = true
    let fw := s.fwAllows ini a true = true
    let may := s.mayWrite ini u = true
    let go := fun (t : State) (err : Bool) => exec (.registerWrite ini a 4 v) s = .next { t with reply := ⟨err, []⟩ }
    (¬on → go (if unitClass u = some .gang then s.addrError ini a else s.accError ini a .notEnabled) true) ∧
    (on → ¬fw → s.wdFifo.length < 256 → ∀ f l, s.fwCovering a = f :: l →
      go { (s.wr uWarden 0x244 (w32 (2 ^ 31 + 2 ^ 30 + ini % 2 ^ 10 * 2 ^ 20 + f % 32))).count uWarden 0x248 1 with
        wdFifo := s.wdFifo ++ [⟨0x12, f, 0⟩] } true) ∧
    (on → fw → ¬may → go (s.accError ini a .notHolder) true) ∧
    (on → fw → may → findRow u off = none → go (if w32 v = 0 then s else s.accError ini a .reserved) false) ∧
    (∀ r, on → fw → may → findRow u off = some r →
      (∀ c, r.bad (w32 v) = some c → go (s.accError ini a c) false) ∧
      (r.bad (w32 v) = none → go (s.wr u off (r.merge (s.rd u off) (w32 v))) false))) ∧
  (∀ (r : RegRow) (old v : Word) (i : Nat), i < 32 →
    (r.acc = .rw → (r.merge old v).getLsbD i =
      if r.ro.testBit i then old.getLsbD i else if r.w1c.testBit i then old.getLsbD i && !v.getLsbD i else v.getLsbD i) ∧
    (r.acc = .w1c → (r.merge old v).getLsbD i = (old.getLsbD i && !v.getLsbD i)) ∧
    (r.acc = .wo → r.merge old v = old) ∧
    (r.acc = .ro ∨ r.acc = .rc → r.bad v = some .readOnly))

/-- Status calls that read registers as an access reads them (R13, R25, R99, R242, R291, R315): RC registers come back to their reset value, a
low word latches the high one, nothing else changes. A unit of another class or one that is fused off has no such registers. -/
def Obligations.StatusReads : Prop :=
  ∀ (ini : Nat) (args : List Word) (s : State), let u := arg args 0
    Gives (.readSameBitsCounters ini args) s (s.ReadsOut uDevctl [0x40C, 0x410, 0x414, 0x418, 0x41C, 0x420]) ∧
    Gives (.readFaultCounters ini args) s (s.ReadsOut uFault [0x118, 0x11C, 0x120, 0x124, 0x138, 0x13C]) ∧
    (s.millMay ini false none = true →
      Gives (.readMillStatus ini args) s (s.ReadsOut uMill [0x200, 0x204, 0x208, 0x20C, 0x210, 0x220, 0x224])) ∧
    (s.millMay ini false none = false → exec (.readMillStatus ini args) s = .next (s.ret DENIED)) ∧
    Gives (.readPcieStatus ini args) s (s.ReadsOut uPcie [0x100, 0x104, 0x108, 0x10C, 0x110, 0x114, 0x118]) ∧
    Gives (.readSdioStatus ini args) s (s.ReadsOut uSdio [0x100, 0x104, 0x108]) ∧
    Gives (.readTranslationFault ini args) s (s.ReadsOut uXlate [0x128, 0x12C, 0x130, 0x134]) ∧
    Gives (.readPowerCounters ini args) s (s.ReadsOut uPwr [0x118, 0x13C, 0x148, 0x14C, 0x140, 0x144]) ∧
    Gives (.readWardenStatus ini args) s (s.ReadsOut uWarden [0x200, 0x208, 0x254, 0x228, 0x234]) ∧
    (s.exists? uRing = true → Gives (.readRing ini args) s (s.ReadsOut uRing ((List.range 26).map fun i => 0x200 + 4 * i))) ∧
    (s.exists? uRing = false → exec (.readRing ini args) s = .next (s.ret NO_UNIT)) ∧
    (u ≤ 95 → s.millMay ini false (some u) = true →
      Gives (.readLoop ini args) s (s.ReadsOut (wLoop u) ((List.range 16).map (4 * ·)))) ∧
    (u ≤ 95 → s.millMay ini false (some u) = false → exec (.readLoop ini args) s = .next (s.ret DENIED)) ∧
    (s.exists? u = false → exec (.readPort ini args) s = .next (s.ret NO_UNIT) ∧ exec (.readBankGroup ini args) s = .next (s.ret NO_UNIT)) ∧
    (s.exists? u = true →
      (unitClass u = some .ax → Gives (.readPort ini args) s (s.ReadsOut u ((List.range 13).map fun i => 0x100 + 4 * i))) ∧
      (unitClass u = some .bg → Gives (.readBankGroup ini args) s (s.maintNow.ReadsOut u ((List.range 25).map fun i => 0x100 + 4 * i))) ∧
      (unitClass u = some .pp → s.ppMay ini (u - 0xA0) false = true →
        Gives (.readPipeline ini args) s (s.ReadsOut u ((List.range 16).map fun i => 0x20C + 4 * i))) ∧
      (unitClass u = some .pp → s.ppMay ini (u - 0xA0) false = false → exec (.readPipeline ini args) s = .next (s.ret DENIED)) ∧
      (unitClass u = some .cl → s.fwAllows ini (regAddr u 0) false = true →
        Gives (.readLink ini args) s (s.ReadsOut u ((List.range 11).map fun i => 0x100 + 4 * i))) ∧
      (unitClass u = some .cl → s.fwAllows ini (regAddr u 0) false = false → exec (.readLink ini args) s = .next (s.ret DENIED)) ∧
      (unitClass u = some .vat → s.vatMay ini (u - 0x90) false (s.jobClient (u - 0x90)) = false →
        exec (.readVatStatus ini args) s = .next (s.ret DENIED) ∧ exec (.readVatCounters ini args) s = .next (s.ret DENIED)) ∧
      (unitClass u = some .vat → s.vatMay ini (u - 0x90) false (s.jobClient (u - 0x90)) = true → Gives (.readVatStatus ini args) s (s.ReadsOut u [0x100, 0x150, 0x164]) ∧
        Gives (.readVatCounters ini args) s
          (s.ReadsOut u [0x128, 0x12C, 0x130, 0x134, 0x138, 0x13C, 0x140, 0x144, 0x148, 0x14C, 0x168])))

/-- Calls that report state (R40, R217, R242, R389, R470, R477, R482, R523, R534, R541, R549, R565, R568, R584): each returns the words the
spec lists from the state as it is and changes nothing but what the spec says a read clears: NEW of a CAN object, the over
count of a parcel. Words the spec leaves open are free (log entries 6, 93). -/
def Obligations.StateReads : Prop :=
  ∀ (ini : Nat) (args : List Word) (s : State), let n := arg args
    exec (.readPowerStatus ini args) s = .next (s.ret OK (s.rds uPwr [0x100, 0x114, 0x130, 0x134, 0x138, 0x120, 0x124, 0x128])) ∧
    exec (.readFaultStatus ini args) s = .next (s.ret OK (s.rds uFault [0x100, 0x10C, 0x110, 0x130, 0x134])) ∧
    exec (.readBootStatus ini args) s = .next (s.ret OK (s.rds uTrust [0x100, 0x104, 0x108])) ∧
    exec (.readTime ini args) s = .next (s.ret OK [w32 s.gauge.sec, w32 (s.gauge.sec / 2 ^ 32), w32 s.gaugeNs,
      w32 (s.gauge.sub / 2 ^ 12 % 2 ^ 16), s.rd uGauge 0x100]) ∧
    (8 < n 1 → exec (.readFaultRecords ini args) s = .next (s.ret RANGE)) ∧
    (n 1 ≤ 8 → Gives (.readFaultRecords ini args) s fun t => t = s.ret OK t.call.words ∧ t.call.words.length = 16 * n 1 ∧
      ∀ i k, i < n 1 → k < 16 → nth t.call.words (16 * i + k) 0 =
        match s.faults.find? (recNum · = (n 0 + i) % 2 ^ 32) with | some r => nth r k 0 | none => 0) ∧
    (16 < n 1 ∨ 64 < n 0 + n 1 → exec (.readCatalogue ini args) s = .next (s.ret RANGE)) ∧
    (∀ g c, n 1 ≤ 16 → n 0 + n 1 ≤ 64 → s.copyInForce = some (g, c) → exec (.readCatalogue ini args) s =
      .next (s.ret OK (wordsOf (part? c (0x40 + 64 * n 0) (64 * n 1)) ++ s.rds uTrust [0x124, 0x128]))) ∧
    (∀ u k, s.upd = some u → u.task = some k → exec (.readUpdateStatus ini args) s = .next (s.ret OK [s.rd uTrust 0x114, w32 k])) ∧
    (s.exists? (n 0) = true → n 2 ≤ 64 → n 1 + n 2 ≤ 65536 →
      (Gives (.readFactoryCalibration ini args) s fun t => t = s.ret OK t.call.words ∧ t.call.words.length = 3 * n 2 ∧
        ∀ i, i < n 2 → nth t.call.words (3 * i) 0 = Config.factoryCal (n 0) (n 1 + i)) ∧
      (Gives (.readCalibrationInForce ini args) s fun t => t = s.ret OK t.call.words ∧ t.call.words.length = 3 * n 2 ∧
        ∀ i, i < n 2 → nth t.call.words (3 * i) 0 = w32 (unsext 32 ((Config.factoryCal (n 0) (n 1 + i)).toInt +
          sext 16 (SMap.get (fun _ => 0) (n 0 * 65536 + (n 1 + i)) s.calOn))))) ∧
    (n 0 ≤ 95 → n 2 ≤ 64 → n 1 + n 2 ≤ 256 → exec (.readCoefficients ini args) s = .next (s.ret OK
      ((List.range (n 2)).map (fun i => SMap.get (fun _ => 0) (n 1 + i) (s.loop (n 0)).coef) ++
        [w32 ((s.loop (n 0)).pend.length + (s.loop (n 0)).feed.length)]))) ∧
    (n 0 < 4 → n 1 < 512 → exec (.readCanObject ini args) s = .next ((s.setFlag (uCN (n 0)) (objOff (n 1) + 4) 31 false).ret OK
      ((List.range 4).map (fun i => s.rd (uCN (n 0)) (objOff (n 1) + 4 * i)) ++ (List.range 16).map fun i => s.rd (uCN (n 0)) (dataOff (n 1) + 4 * i)))) ∧
    (Gives (.readGpio ini args) s fun t => t = { s.ret OK t.call.words with free := t.free } ∧ ∃ w,
      t.call.words = [w32 (((s.gpioOut &&& (s.rd uDevctl 0x200).toNat) + (w - (w &&& (s.rd uDevctl 0x200).toNat))) % 2 ^ 32 &&& s.gpioMine ini),
        w32 (s.gpioOut &&& s.gpioMine ini)]) ∧
    (s.exists? (n 0) = true → Gives (.readUnitHealth ini args) s fun t => t = { s.ret OK t.call.words with free := t.free } ∧
      t.call.words.length = 4 ∧ bits (nth t.call.words 0 0) 31 30 = s.healthOf (n 0) 2 % 4 ∧
      ∀ i, i < 3 → i < (s.faults.filter fun r => recUnit r = n 0).length →
        nth t.call.words (1 + i) 0 = w32 (recNum (nth (s.faults.filter fun r => recUnit r = n 0) i []))) ∧
    (s.exists? (n 0) = false → exec (.readUnitHealth ini args) s = .next (s.ret NO_UNIT)) ∧
    (Gives (.readSpares ini args) s fun t => t = { s.ret OK t.call.words with free := t.free } ∧ t.call.words.length = 30 ∧
      (∀ i, i < 3 → nth t.call.words (3 * i) 0 = w32 (nth s.sparesOf i (0, 0, 0)).1 ∧
        nth t.call.words (3 * i + 1) 0 = w32 (nth s.sparesOf i (0, 0, 0)).2.1 ∧ nth t.call.words (3 * i + 2) 0 = w32 (nth s.sparesOf i (0, 0, 0)).2.2) ∧
      ∀ i, i < 7 → nth t.call.words (9 + 3 * i) 0 = w32 (nth s.freeOthers i 0)) ∧
    (Gives (.readWardenCounters ini args) s fun t => t.call.status = OK ∧ t.call.words.length = 29 ∧
      (∀ i, i < 24 → nth t.call.words (2 + i) 0 = w32 (s.fld uWarden (checkOff (i + 1)) 15 0)) ∧
      nth t.call.words 0 0 = s.rd uWarden 0x238 ∧ nth t.call.words 1 0 = s.rd uWarden 0x23C ∧ nth t.call.words 26 0 = s.rd uWarden 0x248 ∧
      t.rd uWarden 0x238 = 0 ∧ t.rd uWarden 0x23C = 0 ∧ t.rd uWarden 0x248 = 0 ∧ SameRegsBut [(uWarden, 0x238), (uWarden, 0x23C), (uWarden, 0x248)] s t) ∧
    (Gives (.readTimeProtocol ini args) s fun t => t = { s.ret OK t.call.words with free := t.free } ∧ ∃ w,
      t.call.words = [w32 s.gSync, w32 s.ptp.master, w32 (s.ptp.master / 2 ^ 32), s.ptp.offset, s.ptp.delay, w]) ∧
    (n 0 ≤ 1023 → s.onParcel ini (n 0) = true →
      exec (.readParcel ini args) s = .next (s.ret OK (s.rds (uBG 0) ((List.range 8).map fun i => pclOff (n 0) + 4 * i))) ∧
      exec (.readCredits ini args) s = .next ((s.setPclX (n 0) { s.pclX (n 0) with excess := 0 }).ret OK
        [w32 (s.pclAvail (n 0)), w32 (s.pclX (n 0)).taken, w32 (s.pclX (n 0)).excess])) ∧
    (n 0 ≤ 1023 → s.onParcel ini (n 0) = false → exec (.readParcel ini args) s = .next (s.ret DENIED) ∧
      exec (.readCredits ini args) s = .next (s.ret DENIED)) ∧
    (exec (.readIdentity ini args) s = .next (s.toBuffer ini (deviceId ++ Config.certs)))

/-- The parcel table by register (R8, R13, R215, R216, R450). A write of VALID = 1 that no check of R216 or a pinned area stops makes the
parcel valid; a write of VALID = 0 takes a valid parcel out where no command of its queue runs and no credit is taken; a write that a
check stops is recorded and changes nothing. Owner and credit words change only while the entry is not valid, rights only while
the parcel is not pinned. A parcel that becomes valid has full credits, LOST clear and an empty weights digest. -/
def Obligations.ParcelWrites : Prop :=
  (∀ (ini p v : Nat) (s : State), p < 1024 →
    let k := s.pclKind p
    let base := bits (w32 v) 11 0
    let size := bits (w32 v) 23 12 + 1
    (s.Admits ini (uBG 0) (pclOff p) (w32 v) false →
      (bit (w32 v) 31 = true → s.pclPinned p = false → s.pclValid p = false → base + size ≤ 4096 → s.overlaps base size = false →
        s.deadIn base size = false → (k = 1 → bit (w32 v) 30 = true ∧ bit (w32 v) 29 = true) → (k = 2 → bit (w32 v) 30 = false) →
        exec (.pclLocWrite ini p v) s = .next (s.validate p (w32 v).toNat)) ∧
      (bit (w32 v) 31 = true → (s.pclValid p = true ∨ 4096 < base + size ∨ s.overlaps base size = true ∨ s.deadIn base size = true ∨
        (k = 1 ∧ (bit (w32 v) 30 = false ∨ bit (w32 v) 29 = false)) ∨ (k = 2 ∧ bit (w32 v) 30 = true)) →
        exec (.pclLocWrite ini p v) s = .next (s.accError ini (regAddr (uBG 0) (pclOff p)) .check)) ∧
      (bit (w32 v) 31 = false → s.pclPinned p = false → s.pclValid p = true → s.mayInvalidate p = true →
        exec (.pclLocWrite ini p v) s = .next (s.invalidate p (setBit (w32 v) 28 (s.flag (uBG 0) (pclOff p) 28)))) ∧
      (bit (w32 v) 31 = false → s.pclValid p = true → s.mayInvalidate p = false →
        exec (.pclLocWrite ini p v) s = .next (s.accError ini (regAddr (uBG 0) (pclOff p)) .check)) ∧
      (bit (w32 v) 31 = false → s.pclPinned p = false → s.pclValid p = false →
        exec (.pclLocWrite ini p v) s = .next (s.store (uBG 0) (pclOff p) (w32 v)))) ∧
    (s.Admits ini (uBG 0) (pclOff p + 4) (w32 v) false →
      (s.pclValid p = false → exec (.pclOwnerWrite ini p v) s = .next (s.store (uBG 0) (pclOff p + 4) (w32 v))) ∧
      (s.pclValid p = true → exec (.pclOwnerWrite ini p v) s = .next (s.accError ini (regAddr (uBG 0) (pclOff p + 4)) .check))) ∧
    (s.Admits ini (uBG 0) (pclOff p + 8) (w32 v) false →
      (s.pclValid p = false → exec (.pclCreditWrite ini p v) s = .next (s.store (uBG 0) (pclOff p + 8) (w32 v))) ∧
      (s.pclValid p = true → exec (.pclCreditWrite ini p v) s = .next (s.accError ini (regAddr (uBG 0) (pclOff p + 8)) .check))) ∧
    (∀ i, i < 4 → s.Admits ini (uBG 0) (pclOff p + 16 + 4 * i) (w32 v) false →
      (s.pclPinned p = false → exec (.pclRightWrite ini p i v) s = .next (s.store (uBG 0) (pclOff p + 16 + 4 * i) (w32 v))) ∧
      (s.pclPinned p = true →
        exec (.pclRightWrite ini p i v) s = .next (s.accError ini (regAddr (uBG 0) (pclOff p + 16 + 4 * i)) .check)))) ∧
  (∀ (p loc : Nat) (s : State), p < 1024 → loc < 2 ^ 32 → let t := s.validate p loc
    t.pclLoc p = setBit (setBit (w32 loc) 28 false) 31 true ∧ t.pclAvail p = t.pclSize p * 64 ∧ t.pclX p = PclX.init ∧
    t.rd (uBG 0) 0x200 = w32 t.validParcels.length ∧ t.rd uDevctl (wdStatOff p) = 0 ∧ t.wdDigest p = List.replicate 32 0 ∧
    SameMemory s t ∧ SameMarks s t)

/-- Calls on parcels and bank groups (R217, R235, R236, R240, R243): who may call, what each call changes, and when a call answers
PENDING and is finished later. -/
def Obligations.ParcelCalls : Prop :=
  ∀ (ini : Nat) (args : List Word) (s : State), let n := arg args
    (∀ p, p < 1024 → s.pclValid p = false → (∀ q, q < p → s.pclValid q = true) →
      let rights := (List.range 4).map fun i => nth args (7 + i) 0
      (1 ≤ n 1 ∧ n 0 + n 1 ≤ 4096 ∧ n 2 ≤ 2 ∧ n 3 ≤ 0xFFFFF ∧ n 4 ≤ 1 ∧ n 5 ≤ 1 ∧ n 6 ≤ 0xFFFF ∧ n 11 ≤ 1 ∧ (n 2 = 1 → n 4 = 1 ∧ n 5 = 1) ∧ (n 2 = 2 → n 4 = 0)) → rights.any rightBad = false →
      (rights.any (rightAdmits · ini) = true ∨ (n 2 ≠ 0 ∧ s.ownsQueue ini (n 3) = true)) → s.foreignClaim ini (uBG 0) = false → s.overlaps (n 0) (n 1) = false → s.deadIn (n 0) (n 1) = false →
      let a := (s.wr (uBG 0) (pclOff p + 4) (w32 (n 2 * 2 ^ 30 + n 3))).wr (uBG 0) (pclOff p + 8) (w32 (n 6))
      let b := ((((a.wr (uBG 0) (pclOff p + 16) (nth args 7 0)).wr (uBG 0) (pclOff p + 20) (nth args 8 0)).wr (uBG 0) (pclOff p + 24)
        (nth args 9 0)).wr (uBG 0) (pclOff p + 28) (nth args 10 0)).validate p (n 4 * 2 ^ 30 + n 5 * 2 ^ 29 + (n 1 - 1) * 2 ^ 12 + n 0)
      (n 11 = 0 → exec (.createParcel ini args) s = .next (b.ret OK [w32 p])) ∧
      (n 11 = 1 → ∀ k u, b.firmChan = (k, u) → k < 8 ∧ exec (.createParcel ini args) s =
        .next ((u.setPclX p { u.pclX p with zeroing := some k }).firmSync.retPending 0x0200 p [w32 p]))) ∧
    (∀ p k, p < 1024 → (s.pclX p).zeroing = some k → let a := s.pclBase p * 0x10000
      let len := s.pclSize p * 0x10000
      let v := (((((s.setPclX p { s.pclX p with zeroing := none }).zeroMem a len).cleanRows a len).psumGone a len).gatherGone a len).markStale a len
      exec (.parcelZeroed p) s =
        .next (((v.countWide (uDC (14 + k / 4)) 0x108 len).count (uDC (14 + k / 4)) 0x114 1).firmSync.finish 0x0200 p OK) ∧
      (∀ x, v.byte x = if a ≤ x ∧ x < a + len then 0 else s.byte x) ∧
      (∀ b row, b < 512 → row < 8192 → s.logical (s.phys b) = some b → a ≤ rowAddr b row → rowAddr b row < a + len →
        (s.rowX (s.phys b * 8192 + row)).dead = false → (v.rowX (s.phys b * 8192 + row)).poisoned = false)) ∧
    (∀ p, p < 1024 → (s.pclX p).zeroing = none → exec (.parcelZeroed p) s = .next s) ∧
    (∀ p, p < 1024 → (s.pclX p).deleting = true → s.mayInvalidate p = true →
      exec (.parcelDeletionMade p) s = .next (s.invalidate p (s.pclLoc p))) ∧
    (∀ p, n 0 = p → p < 1024 →
      (s.onParcel ini p = false → (s.pclValid p = true → exec (.deleteParcel ini args) s = .next (s.ret DENIED)) ∧
        (((List.range 4).map fun i => nth args (1 + i) 0).any rightBad = false → exec (.setParcelRights ini args) s = .next (s.ret DENIED))) ∧
      (s.onParcel ini p = true → s.foreignClaim ini (uBG 0) = true →
        (s.pclValid p = true → exec (.deleteParcel ini args) s = .next (s.ret CLAIMED))) ∧
      (s.onParcel ini p = true → s.foreignClaim ini (uBG 0) = false →
        (s.pclValid p = true →
          (s.pclPinned p = true → exec (.deleteParcel ini args) s = .next (s.ret PINNED)) ∧
          (s.pclPinned p = false → s.callWaits 0x0201 p = true → exec (.deleteParcel ini args) s = .next (s.ret UNIT_BUSY)) ∧
          (s.pclPinned p = false → s.callWaits 0x0201 p = false → s.mayInvalidate p = true →
            exec (.deleteParcel ini args) s = .next ((s.invalidate p (s.pclLoc p)).ret OK)) ∧
          (s.pclPinned p = false → s.callWaits 0x0201 p = false → s.mayInvalidate p = false → exec (.deleteParcel ini args) s =
            .next ((s.setPclX p { s.pclX p with deleting := true }).retPending 0x0201 p))) ∧
        (((List.range 4).map fun i => nth args (1 + i) 0).any rightBad = false →
          (s.pclPinned p = true → exec (.setParcelRights ini args) s = .next (s.ret PINNED)) ∧
          (s.pclPinned p = false → exec (.setParcelRights ini args) s = .next (((((s.wr (uBG 0) (pclOff p + 16) (nth args 1 0)).wr (uBG 0) (pclOff p + 20)
            (nth args 2 0)).wr (uBG 0) (pclOff p + 24) (nth args 3 0)).wr (uBG 0) (pclOff p + 28) (nth args 4 0)).ret OK))))) ∧
    (n 0 ≠ 0 → n 0 ≤ 0xFFF → (∀ g ∈ setIndices 12 (n 0), s.Changeable (uBG g)) →
      (n 1 ≤ 31 → 1 ≤ n 2 → n 2 ≤ 255 → exec (.setWaitLimits ini args) s = .next (((setIndices 12 (n 0)).foldl (fun t g =>
        t.setFld (uBG g) (0x110 + 4 * (n 1 / 4)) (8 * (n 1 % 4) + 7) (8 * (n 1 % 4)) (n 2)) s).ret OK)) ∧
      (2 ≤ n 1 → n 1 ≤ 64 → exec (.setSluiceWatchdog ini args) s =
        .next (((setIndices 12 (n 0)).foldl (fun t g => t.wr (uBG g) 0x104 (w32 (n 1))) s).ret OK)) ∧
      (n 1 ≤ 1 → 1 ≤ n 2 → n 2 ≤ 16 → exec (.setHazardDetector ini args) s =
        .next (((setIndices 12 (n 0)).foldl (fun t g => t.wr (uBG g) 0x150 (w32 (n 1 * 2 ^ 31 + n 2))) s).ret OK))) ∧
    (n 0 ≤ 511 → s.claimed (uBG (s.groupOf (n 0))) = false → s.callWaits 0x0208 (n 0) = true →
      exec (.spareABank ini args) s = .next (s.ret UNIT_BUSY)) ∧
    (n 0 ≤ 511 → s.claimed (uBG (s.groupOf (n 0))) = false → s.callWaits 0x0208 (n 0) = false →
      (s.copies.any (·.1 = n 0) = true → exec (.spareABank ini args) s = .next (s.retPending 0x0208 (n 0))) ∧
      (s.copies.any (·.1 = n 0) = false →
        (s.spareFor (n 0) = none → exec (.spareABank ini args) s = .next (s.ret NO_SPARE)) ∧
        (∀ b, s.spareFor (n 0) = some b → exec (.spareABank ini args) s =
          .next (((({ s with copies := s.copies ++ [(n 0, b)] }).bankSync (b / 44)).unitEvent (uBG (s.groupOf (n 0)))).retPending
            0x0208 (n 0))))) ∧
    (argAddr args 0 < 0x10000000 → let a := argAddr args 0
      exec (.locateAddress ini args) s = .next (s.ret OK [w32 (bankOf a), w32 (s.phys (bankOf a)), w32 (s.groupOf (bankOf a)), w32 (rowOf a),
        w32 (b2n (s.rowX (s.rowKey a)).retired), w32 (b2n (s.rowX (s.rowKey a)).poisoned), w32 (b2n (s.rowX (s.rowKey a)).dead)])) ∧
    (0x10000000 ≤ argAddr args 0 → exec (.locateAddress ini args) s = .next (s.ret RANGE))

/-- Making queues and reservations (R244, R248, R250, R261, R262, R516): a queue is made or changed for its own client, in the table,
and a cached copy reloads; a reservation takes effect at once where its unit is free and the corner is reached, else it waits for
VDD_CORE; one that takes effect binds the unit and its tiles. -/
def Obligations.QueuesAndReservations : Prop :=
  (∀ (ini : Nat) (args : List Word) (s : State), let n := arg args
    let d := descOf args true
    n 0 ≤ 0xFFFFF → descBad args = false → ¬(1 ≤ s.qInvalid 0x100000 d ∧ s.qInvalid 0x100000 d ≤ 3) →
    (s.clientOf ini ≠ some (qClient d) → exec (.createOrChangeQueue ini args) s = .next (s.ret DENIED)) ∧
    (s.clientOf ini = some (qClient d) → s.claimed uSched = true → exec (.createOrChangeQueue ini args) s = .next (s.ret CLAIMED)) ∧
    (∀ q, s.clientOf ini = some (qClient d) → s.claimed uSched = false → s.callWaits 0x0103 q = false → (n 0 = 0xFFFFF → s.freeQueue 1048576 0 = some q) → (n 0 ≠ 0xFFFFF → q = n 0) →
      (qPin d = true → s.pinnedNow < 1024) → regionOf s.part (s.qAddr q) = .lpddr →
      (s.queueMade q = false →
        exec (.createOrChangeQueue ini args) s = .next ((s.wrWs (s.qAddr q) d).ret OK [w32 q])) ∧
      (s.queueMade q = true → s.ownsQueue ini q = false → exec (.createOrChangeQueue ini args) s = .next (s.ret DENIED)) ∧
      (s.queueMade q = true → s.ownsQueue ini q = true →
        let t := (s.wrWs (s.qAddr q) (keepRO (descOf args false) (s.rdWs (s.qAddr q) 16))).qinval q
        (t.slot q = none → exec (.createOrChangeQueue ini args) s = .next (t.ret OK [w32 q])) ∧
        (∀ x, t.slot q = some x → x.reload = true → exec (.createOrChangeQueue ini args) s = .next (t.retPending 0x0103 q [w32 q])) ∧
        (∀ x, t.slot q = some x → x.reload = false → exec (.createOrChangeQueue ini args) s = .next (t.vtSync.ret OK [w32 q]))))) ∧
  (∀ (ini : Nat) (args : List Word) (s : State) (x : Ctx), let n := arg args
    let q := n 0
    let tc := unitClass (n 1) = some .tc
    reservCtx (n 1) = some x → q ≤ 0xFFFFF → (tc → 1 ≤ n 2 ∧ n 2 ≤ 255) → n 3 ≤ 5 → n 4 ≤ 1 →
    (s.ownsQueue ini q = false → exec (.reserve ini args) s = .next (s.ret DENIED)) ∧
    (s.ownsQueue ini q = true → s.Changeable (n 1) → s.claimed uSched = true → exec (.reserve ini args) s = .next (s.ret CLAIMED)) ∧
    (s.ownsQueue ini q = true → s.Changeable (n 1) → s.claimed uSched = false →
      ((s.reservOf q).isSome = true ∨ s.reservs.any (·.ctx = x) = true → exec (.reserve ini args) s = .next (s.ret RESERVED_ALREADY)) ∧
      (s.reservOf q = none → s.reservs.any (·.ctx = x) = false →
        (capPoint s.part s.capW < n 3 → exec (.reserve ini args) s = .next (s.ret REFUSED [2])) ∧
        (n 3 ≤ capPoint s.part s.capW → ∀ t y, s.loadQueue q = t → t.slot q = some y → (t.qKept y = true ∨ t.pinnedNow < 1024) → (tc → t.gangOf (n 1 - 0x10) = none) →
          qXlate (t.qWords q) = false → regionOf t.part (qRing (t.qWords q)) ≠ .host → regionOf t.part (qComp (t.qWords q)) ≠ .host →
          let r : Reserv := ⟨q, x, if tc then n 2 else 0, n 3, n 4 = 1, false, false⟩
          let u : State := { t with reservs := t.reservs ++ [r] }
          (u.reservReady r = true → exec (.reserve ini args) s = .next ((u.reservOn r).ret OK)) ∧
          (u.reservReady r = false → exec (.reserve ini args) s = .next (u.cacheSync.startStep.retPending 0x0106 q)))))) ∧
  (∀ (q : Nat) (r : Reserv) (s : State), q < 2 ^ 20 → s.reservs.find? (fun r => r.queue = q && !r.active && !r.releasing) = some r →
    (s.reservReady r = true → exec (.reservationEffective q) s = .next ((s.reservOn r).finish 0x0106 q OK)) ∧
    (s.reservReady r = false → exec (.reservationEffective q) s = .next s))

/-- Weights, digests and rinds (R283–R285, R288, R292): a load waits in order for its credits, is written to its parcel and folded; the digest
of a parcel and of a queue is read by who owns it and cleared while its queue runs nothing; a rind matches when the digest of its
four terms is the digest it holds. -/
def Obligations.WeightsAndRinds : Prop :=
  (∀ (ini : Nat) (args : List Word) (s : State), let p := arg args 0
    (p ≤ 1023 →
      (s.ownsWeights ini p = false → exec (.readWeightsDigest ini args) s = .next (s.ret DENIED) ∧
        exec (.clearWeightsDigest ini args) s = .next (s.ret DENIED)) ∧
      (s.ownsWeights ini p = true →
        exec (.readWeightsDigest ini args) s = .next (s.ret OK (s.rd uDevctl (wdStatOff p) :: bytesWords (s.wdDigest p))) ∧
        (s.claimed uDevctl = true → exec (.clearWeightsDigest ini args) s = .next (s.ret CLAIMED)) ∧
        (s.claimed uDevctl = false → s.pclRunning p = true → exec (.clearWeightsDigest ini args) s = .next (s.ret QUEUE_RUNNING)) ∧
        (s.claimed uDevctl = false → s.pclRunning p = false → Gives (.clearWeightsDigest ini args) s fun t => t.call = ⟨OK, []⟩ ∧ t.wdDigest p = List.replicate 32 0 ∧
          t.rd uDevctl (wdStatOff p) = 0 ∧ { t with regs := s.regs, call := s.call } = s ∧
          ∀ u o, o < 0x10000 → u ≠ uDevctl → t.rd u o = s.rd u o))) ∧
    (p ≤ 0xFFFFF → s.ownsQueue ini p = false → exec (.readQueueWeightsDigest ini args) s = .next (s.ret DENIED)) ∧
    (p ≤ 0xFFFFF → s.ownsQueue ini p = true → exec (.readQueueWeightsDigest ini args) s = .next (s.ret OK (bytesWords (s.queueWd p).1 ++
      [w32 (s.validParcels.filter fun x => s.pclKind x = 1 && s.pclQueue x = p && s.wdValid x).length, w32 (b2n (s.queueWd p).2.1)])))) ∧
  (∀ (ini : Nat) (args : List Word) (s : State), let src := argAddr args 0
    let p := arg args 2
    let off := arg args 3
    let n := arg args 4
    p ≤ 1023 → addrArg args 0 = true → 1 ≤ n → inRegion s.part src n (fun r => r = .lpddr || r = .host) = true → s.pclValid p = true →
    s.pclKind p = 1 → off + n ≤ s.pclSize p * 0x10000 →
    (s.weightsFull p = true → exec (.loadWeights ini args) s = .next (s.ret RANGE)) ∧
    (s.weightsFull p = false → (s.ownsWeights ini p = false → exec (.loadWeights ini args) s = .next (s.ret DENIED))) ∧
    (s.weightsFull p = false → s.ownsWeights ini p = true → s.claimed uDevctl = true → exec (.loadWeights ini args) s = .next (s.ret CLAIMED)) ∧
    (s.weightsFull p = false → s.ownsWeights ini p = true → s.claimed uDevctl = false → s.pclRunning p = true →
      exec (.loadWeights ini args) s = .next (s.ret QUEUE_RUNNING)) ∧
    (s.weightsFull p = false → s.ownsWeights ini p = true → s.claimed uDevctl = false → s.pclRunning p = false → s.callWaits 0x0303 p = true →
      exec (.loadWeights ini args) s = .next (s.ret UNIT_BUSY)) ∧
    (s.weightsFull p = false → s.ownsWeights ini p = true → s.claimed uDevctl = false → s.pclRunning p = false → s.callWaits 0x0303 p = false →
      ∀ k t, s.firmChan = (k, t) → k < 8 ∧ exec (.loadWeights ini args) s =
        .next (({ t with loads := t.loads ++ [(⟨p, src, off, n, ini, k, false⟩ : WLoad)] } : State).firmSync.retPending 0x0303 p))) ∧
  (∀ (p : Nat) (l : WLoad) (s : State), p < 1024 → s.loads.find? (·.parcel = p) = some l → s.pclValid p = true →
    (s.weightsFull p = true → exec (.weightsFoldDone p) s =
      .next (({ s with loads := s.loads.eraseP (·.parcel = p) } : State).firmSync.finish 0x0303 p RANGE)) ∧
    (s.weightsFull p = false → s.pclCreditEn p = true →
    let k := ceilDiv l.len 1024
    let t := ({ s with loads := s.loads.eraseP (·.parcel = p) } : State).firmSync
    (t.pclAvail p < k → exec (.weightsFoldDone p) s =
      .next ({ s with loads := updFirst (·.parcel = p) (fun l => { l with wait := true }) s.loads } : State).firmSync) ∧
    (k ≤ t.pclAvail p → ∀ u b, (t.takeCredits p l.len).1.callRead l.ini l.src (pagesFor l.len) l.len = (u, .ok, b) →
      ∀ v, u.polWrite (viaPort (28 + l.chan / 4) u.mpIni) (u.pclBase p * 0x10000 + l.offset) b true = (v, 0) →
      exec (.weightsFoldDone p) s = .next (((((v.useCredits p k).wdFold p l.offset l.len l.len (sha3 b)).countWide (uDC (14 + l.chan / 4))
        0x108 l.len).count (uDC (14 + l.chan / 4)) 0x114 1).finish 0x0303 p OK)))) ∧
  (∀ (ini : Nat) (args : List Word) (s : State), s.mayRead ini (argAddr args 0) 64 = true → ∀ t ws b,
    s.callBlock ini (argAddr args 0) 64 = (t, OK, ws, b) →
    let term := fun i => wordBytes ((List.range 8).map fun k => nth args (2 + 8 * i + k) 0)
    let d := sha3 (term 0 ++ term 1 ++ term 2 ++ (b.drop 32).take 8)
    (d = b.take 32 → exec (.verifyRind ini args) s = .next (t.ret OK (1 :: 0 :: bytesWords d))) ∧
    (d ≠ b.take 32 → Gives (.verifyRind ini args) s fun u => ∃ f, u = { t with free := u.free }.ret OK (0 :: f :: bytesWords d))) ∧
  (∀ (x : Ctx) (unit hs : Nat) (r : CtxRun) (i : Issued) (s : State), s.run x = some r → r.current unit = some i →
    (i.wait = .remote ∨ ∃ k, i.wait = .credits k) → ∀ t, s.moveStep x r { i with wait := .none } = (t, 0) →
    exec (.creditWaitEnd x unit hs) s = .next ((t.runMembers x i.only).foldl (fun u (m : Nat × Nat) => u.count (u.culvertOf x m.2) 0x110 hs) t))

/-- Reading and writing the Polder (R217, R218, R226, R227, R231, R235): an access that no lock holds back and that succeeds reads the
bytes as they are, or leaves exactly the bytes it writes; every row it touches was allowed to its initiator; an access not
allowed touches nothing, is recorded and counted; a command's access to a bank that another requester has locked, or has reserved
for an opening, waits with nothing done. -/
def Obligations.PolderMemory : Prop :=
  ∀ (s t : State) (q a : Nat), let ini := reqIni q
    let quiet := fun n => ∀ r ∈ rowsOf a n, s.hazOn (s.groupOf (bankOf r)) = false
    (∀ n l, quiet n → s.barred q a n = false → s.polRead q a n = (t, 0, l) → l = s.bytes a n ∧ s.polderAllowed ini a n false = true ∧ SameMemory s t ∧ SameMarks s t) ∧
    (∀ l f, quiet l.length → s.barred q a l.length = false → s.polWrite q a l f = (t, 0) → s.polderAllowed ini a l.length true = true ∧ t.bytes a l.length = l ∧
      (∀ x, x < a ∨ a + l.length ≤ x → t.byte x = s.byte x) ∧ (∀ x, t.hostByte x = s.hostByte x) ∧ SameMarks s t) ∧
    (∀ n, s.polderAllowed ini a n false = true → s.barred q a n = true → (iniCtx ini).isSome = true →
      s.polRead q a n = (s, fSLUICE_WAIT, [])) ∧
    (∀ l f, s.polderAllowed ini a l.length true = true → s.barred q a l.length = true → (iniCtx ini).isSome = true →
      s.polWrite q a l f = (s, fSLUICE_WAIT)) ∧
    (∀ n, s.polderAllowed ini a n false = false → s.polRead q a n = (s.polderDeny ini a false, fPARCEL_DENIED, [])) ∧
    (∀ l f, s.polderAllowed ini a l.length true = false →
      s.polWrite q a l f = (s.polderDeny ini a true, fPARCEL_DENIED)) ∧
    (∀ w, SameMemory s (s.polderDeny ini a w) ∧ SameRegsBut [(uBG 0, 0x208), (uBG 0, 0x20C)] s (s.polderDeny ini a w) ∧
      (s.polderDeny ini a w).rd (uBG 0) 0x208 = w32 (2 ^ 31 + b2n w * 2 ^ 30 + ini % 2 ^ 10 * 2 ^ 20 + a / 0x10000 % 2 ^ 12))

/-- Accesses and events of the Polder (R217–R220, R224–R227, R229–R232, R235–R238): an access that is refused, held by a sleeping
group or by a bank that another requester has, or let through; a wake lets what it held through in order; a gather buffer written
out; a break point's choice, whose holder's held accesses complete; a bite of the sluice watchdog; scrubbing, sparing and the
maintenance port's limit. -/
def Obligations.PolderEvents : Prop :=
  (∀ (ini port a n : Nat) (write : Bool) (data : List Byte) (hs : Nat) (s : State), port < 32 →
    let l := (data ++ List.replicate n 0).take n
    let w := if write then some l else none
    let does := fun (t : State) => exec (.polderAccess ini port a n write data hs) s = .next t
    (s.isSevered port ini = true → iniCtx ini = none → does { s with reply := ⟨true, []⟩ }) ∧
    (∀ x r, iniCtx ini = some x → s.run x = some r → s.isSevered port ini = true →
      does (((s.failRun x fPORT_SEVERED r.pos).dcSync x).unitSync x)) ∧
    (s.isSevered port ini = false → widthOk a n = false ∨ s.polderAllowed ini a n write = false → iniCtx ini = none →
      does { s.polderDeny ini a write with reply := ⟨true, []⟩ }) ∧
    (s.isSevered port ini = false → widthOk a n = true → s.polderAllowed ini a n write = true →
      (s.asleepIn a n ≠ [] ∨ s.barred (viaPort port ini) a n = true → does
        { (s.asleepIn a n).foldl (fun (t : State) g => (t.setFlag (uBG g) 0x100 30 true).countF (uBG g) 0x14C
            (if write then 31 else 15) (if write then 16 else 0) 1) s with held := s.held ++ [⟨ini, port, a, n, w, some hs, false, none, [], none, []⟩] }) ∧
      (s.asleepIn a n = [] → s.barred (viaPort port ini) a n = false →
        let u := ((rowsOf a n).foldl (fun (t : State) r => t.hazRow ini port r write hs) s).gather (port = 30) a n write
        (∀ t b, write = false → u.polGet a n = (t, 0, b) → does { t with reply := ⟨false, b⟩ }) ∧
        (∀ t, write = true → u.polPut a l false = (t, 0) → does { t with reply := ⟨false, []⟩ })))) ∧
  (∀ (g : Nat) (s : State), g < 12 →
    ((s.wakeGroup g).flag (uBG g) 0x100 31 = false ∧ ∀ b, b < 512 → s.groupOf b = g → ((s.wakeGroup g).bank b).st ≠ .asleep) ∧
    (s.domainOff (uBG g) = true → exec (.bgLateWake g) s = .next s) ∧
    (s.domainOff (uBG g) = false →
      let t := if s.flag (uBG g) 0x100 30 then (s.wakeGroup g).unitEvent (uBG g) else s
      let go := fun (h : HeldAcc) => h.at_.isSome && (t.asleepIn h.addr h.len).isEmpty && !t.barred (viaPort h.port h.ini) h.addr h.len
      exec (.bgLateWake g) s = .next ((t.held.filter go).foldl
        (fun (u : State) h => u.accessDo h.ini h.port h.addr h.len h.write (h.at_.getD 0))
        { t with held := t.held.filter fun h => !go h })) ∧
    (s.pwrState = 1 → s.flag (uBG g) 0x100 31 = false → s.lockIn g = false →
      (s.reservs.any (·.active) = true → exec (.bgIdleRetention g) s = .next (s.pwrRefuse 1 1 (uBG g))) ∧
      (s.reservs.any (·.active) = false → exec (.bgIdleRetention g) s = .next (s.retain g))) ∧
    (s.pwrState ≠ 1 ∨ s.flag (uBG g) 0x100 31 = true ∨ s.lockIn g = true → exec (.bgIdleRetention g) s = .next s) ∧
    (s.rtBusy = true → g ∉ s.maintDue → exec (.maintWaitLimit g) s = .next { s with maintDue := s.maintDue ++ [g] }) ∧
    (s.rtBusy = false ∨ g ∈ s.maintDue → exec (.maintWaitLimit g) s = .next s)) ∧
  (∀ (b : Nat) (s : State), b < 512 → let x := s.bank b
    (∀ r, r < 8192 → exec (.gatherIdleFlush b r) s = .next (s.setBank b { x with gather := x.gather.filter (·.1 ≠ r) })) ∧
    (∀ reqs, x.st = .reserved ∨ x.st = .locked ∨ x.st = .asleep → exec (.breakPoint b reqs) s = .next s) ∧
    (∀ reqs, x.st ≠ .reserved → x.st ≠ .locked → x.st ≠ .asleep →
      let hd := s.heads (s.waiting b (reqs.map fun r => (r.1 % 32, r.2)))
      let ports := hd.map (·.1)
      let served := fun (t : State) (p i : Nat) =>
        ((if p = 31 then t.maintSent (s.groupOf b) else t).heldGo fun h => h.port = p && h.ini = i && (rowsOf h.addr h.len).any fun r => bankOf r = b).retryAll
      let does := fun (t : State) => exec (.breakPoint b reqs) s = .next t
      (∀ p k i, (s.forcedNow b x ports).head? = some p → hd.find? (·.1 = p) = some (p, k, i) →
        does (served ((s.count (uBG (s.groupOf b)) 0x130 1).grant b x ports p i .pass) p i)) ∧
      (s.forcedNow b x ports = [] →
        (∀ l, s.lockHere b = some l → does { s.grant b x ports l.port l.ini .reserved with
          locks := updFirst (fun k => !k.isOpen) (fun k => { k with reserved := k.reserved + 1 }) s.locks }.retryAll) ∧
        (∀ p k i, s.lockHere b = none → byRank x.last hd = some (p, k, i) → does (served (s.grant b x ports p i .pass) p i)) ∧
        (s.lockHere b = none → hd = [] →
          does (s.setBank b { x with waits := [], forced := [], st := .idle, holder := none }).retryAll))) ∧
    (x.holder = none → exec (.sluiceWatchdogBite b) s = .next s) ∧
    (∀ port ini, x.holder = some (port, ini) → let u := uBG (s.groupOf b)
      let t := (s.count u 0x108 1).wr u 0x10C
        (w32 (2 ^ 31 + port % 32 * 2 ^ 25 + ini % 2 ^ 10 * 2 ^ 15 + s.phys b % 44 * 2 ^ 9))
      let v := ((if 14 ≤ port ∧ port < 30 then t.countF (uDC (port - 14)) 0x118 15 0 1 else t).freeBanks [b]).postedNow
      (iniCtx ini = none → exec (.sluiceWatchdogBite b) s = .next { v with reply := ⟨true, []⟩ }) ∧
      (∀ y r, iniCtx ini = some y → v.run y = some r → (v.dropLocks y).run y = some r → exec (.sluiceWatchdogBite b) s =
        .next { ((((v.dropLocks y).failRun y fPORT_SEVERED r.pos).dcSync y).unitSync y) with severed := (port, ini) :: v.severed }))) ∧
  (∀ (b row : Nat) (s : State), b < 512 → row < 8192 → let u := uBG (s.groupOf b)
    (s.maintMay (s.groupOf b) = false → ∀ o, exec (.scrubRow b row o) s = .next s) ∧
    (s.maintMay (s.groupOf b) = true → let t := s.maintSent (s.groupOf b)
      let bad := t.setRowX (t.phys b * 8192 + row) { t.rowX (t.phys b * 8192 + row) with poisoned := true }
      exec (.scrubRow b row 0) s = .next t ∧
      exec (.scrubRow b row 1) s = .next ((t.countF u 0x134 15 0 1).countCE u 1) ∧
      exec (.scrubRow b row 2) s = .next (((t.countF u 0x134 15 0 1).countCE u 1).retireRow b row) ∧
      exec (.scrubRow b row 3) s = .next ((bad.countF u 0x138 15 0 1).recordFault fPOLDER_UE u 0x4B noQueue 0 (rowAddr b row) 0 0 oNone) ∧
      exec (.scrubRow b row 4) s = .next (bad.retireRow b row))) ∧
  (∀ (b p : Nat) (s : State), b < 512 → s.copies.find? (·.1 = b) = some (b, p) → s.maintMay (s.groupOf b) = true → ∃ r : State,
    (let old := uBG (s.phys b / 44)
     let t := (r.recordFault fBANK_SPARED old 0x4B noQueue 0 (b * 2 ^ 10) 0 0 oNone).unitEvent old
     exec (.bankCopyDone b) s = .next ((if p / 44 = s.phys b / 44 then t else t.unitEvent (uBG (p / 44))).finish 0x0208 b OK)) ∧
    r.phys b = p ∧ (∀ c, c ≠ b → r.phys c = s.phys c) ∧ r.copies = s.copies.filter (·.1 != b) ∧ SameMemory s r ∧
    r.bankMap = SMap.set physReset b p s.bankMap ∧ r.banksOut = s.banksOut ++ [s.phys b])

/-- The instructions of a law (R200–R203, R388, R394, R395, R397, R403, R404): each computes from the registers and coefficients of its
loop, its results go to the loop's registers, an output or the state record, and the segment goes on behind it. An input that a
serial read still holds makes MIN wait; a faulted one gives its last good value and tells so. -/
def Obligations.MillInstructions : Prop :=
  ∀ (lc l : Nat) (w : Dword) (s : State), s.MillAt lc l w →
    let x : MillLoop := { s.loop l with pos := (s.loop l).pos + 1 }
    let m := (s.tookOver lc).moved l
    let ran := fun z : MillLoop => (m.setLoop l z).segNext lc l
    let A := x.r (mA w)
    let B := x.r (mB w)
    let k := mK w
    (wOp w = 0xB0 → ∀ v, m.inputOf x w = some (v, false) → exec (.min lc) s = .next
      (ran (x.put (mD w) v))) ∧
    (wOp w = 0xB0 → ∀ v, m.inputOf x w = some (v, true) → exec (.min lc) s = .next
      (((m.setLoop l (x.put (mD w) v)).inputFault l (mSel w)).segNext lc l)) ∧
    (wOp w = 0xB0 → m.inputOf x w = none → exec (.min lc) s = .next s) ∧
    (wOp w = 0xB1 → ∀ t : State, (mKind w = 0 → f32IsNaN A = false →
        t = { m with pwmShadow := SMap.insert (mIdx w) (pwmCompare A (m.pwmPeriod (mIdx w))) (SMap.erase (mIdx w) s.pwmShadow) }) →
      (mKind w = 0 → f32IsNaN A = true → t = ({ m with
        pwmShadow := SMap.insert (mIdx w) (pwmCompare A (m.pwmPeriod (mIdx w))) (SMap.erase (mIdx w) s.pwmShadow) } : State).inputFault
          l (mSel w)) →
      (mKind w ≠ 0 → (m.txFrameOf (mIdx w) = none ∨ ∃ f, m.txFrameOf (mIdx w) = some f ∧ m.txInt f (mIdx w) = false) →
        t = m.txWrite l (mIdx w) A) →
      (mKind w ≠ 0 → ∀ f, m.txFrameOf (mIdx w) = some f → m.txInt f (mIdx w) = true → ∀ u v,
        m.txConvert A (m.rd uMill (txOff f + 0x18)) = (u, v) → t = u.txWrite l (mIdx w) v) →
      let d := t.nowNs - x.snap.trig
      exec (.mout lc) s = .next ((((t.wr (wLoop l) 0x20 (w32 d)).maxTo (wLoop l) 0x24 d)).segNext lc l)) ∧
    (wOp w = 0xB2 → exec (.fmak lc) s = .next (ran (x.put (mD w) (ffma A (x.c k) B)))) ∧
    (wOp w = 0xB3 → exec (.fma lc) s = .next (ran (x.put (mD w) (ffma A B (x.r (mE w)))))) ∧
    (wOp w = 0xB4 → exec (.add lc) s = .next (ran (x.put (mD w) (fadd A B)))) ∧
    (wOp w = 0xB5 → exec (.sub lc) s = .next (ran (x.put (mD w) (fsub A B)))) ∧
    (wOp w = 0xB6 → exec (.mul lc) s = .next (ran (x.put (mD w) (fmul A B)))) ∧
    (wOp w = 0xB7 → exec (.clamp lc) s = .next (ran (x.put (mD w) (fmin (fmax A (x.c k)) (x.c (k + 1)))))) ∧
    (wOp w = 0xB8 → exec (.biq lc) s = .next (ran
      (let e := mE w
       let y := ffma (x.c k) A (x.r e)
       ((x.put e (ffma (x.c (k + 1)) A (ffma (fneg (x.c (k + 3))) y (x.r (e + 1))))).put (e + 1) (ffma (x.c (k + 2)) A (fmul (fneg (x.c (k + 4))) y))).put
         (mD w) y))) ∧
    (wOp w = 0xB9 → exec (.sstep lc) s = .next (ran (x.sstep w))) ∧
    (wOp w = 0xBA → exec (.pid lc) s = .next (ran
      (let e := mE w
       let i := fmin (fmax (ffma (x.c (k + 1)) A (x.r e)) (x.c (k + 3))) (x.c (k + 4))
       ((x.put (mD w) (ffma (x.c (k + 2)) (fsub A (x.r (e + 1))) (ffma (x.c k) A i))).put e i).put (e + 1) A))) ∧
    (wOp w = 0xBB → let big := flt (x.c k) (fabs (fsub A B))
      let n := min 255 (m.fld (wLoop l) 0x10 23 16 + 1)
      (big = false → exec (.obs lc) s = .next ((m.setFld (wLoop l) 0x10 23 16 0).segNext lc l)) ∧
      (big = true → n ≠ bits w 7 0 → exec (.obs lc) s = .next ((m.setFld (wLoop l) 0x10 23 16 n).segNext lc l)) ∧
      (big = true → n = bits w 7 0 → exec (.obs lc) s = .next (((((((m.setFld (wLoop l) 0x10 23 16 n).setFlag (wLoop l) 0x10 30 true).count
        uMill 0x218 1).wdReport 0x09 l 0).millEvent l 0x0018 l (n + (s.loop l).pos * 2 ^ 16))).segNext lc l))) ∧
    (wOp w = 0xBC → exec (.strec lc) s = .next ((m.polWrite 0x48 (m.loopStateAddr l + 4 * bits w 19 12)
      (wordBytes ((List.range (bits w 5 0 + 1)).map fun j => x.r (mA w + j)))).1.segNext lc l))

/-- What the Mill does by itself and what comes to it from outside (R386, R395, R399, R401, R403–R405, R409): a free core takes the next
ready segment in R386's order; edges, index pulses and serial reads move the encoders; a period start loads the PWM shadows;
axis frames replace their words, go stale and are sent; a core that fails hands its logical core to the standby, or loses it. -/
def Obligations.MillEvents : Prop :=
  (∀ (lc l : Nat) (s : State), lc < 3 → s.lcores.any (·.1 = lc) = false → s.coreRuns lc = true →
    let ready := (s.loops.map (·.1)).filter fun l => s.loopCore l = lc && s.loopEn l && ((s.loop l).stage = 1 || (s.loop l).stage = 2)
    (l ∈ ready → (∀ k ∈ ready, k ≠ l → s.before l k = true) → exec (.millSegment lc) s = .next (s.segBegin lc l)) ∧
    (ready = [] → exec (.millSegment lc) s = .next s)) ∧
  (∀ (core late lc : Nat) (c : Instr) (s : State), core < 4 → (List.range 3).filter (fun k => s.coreOf k = core) = [lc] →
    let f := (s.recordFault fPROC_FAULT (uMC core) 0x4A noQueue 0 0 0 0 oNone).forceOut (uMC core)
    (c = .millCoreFault core late ∨ (c = .millSegmentOverrun lc ∧ late = f.lateOn lc ∧ s.lcores.any (·.1 = lc) = true)) →
    let n := s.fld uMill 0x204 7 6
    (s.flag uMill 0x204 8 = false → n ≠ core →
      let g := ((f.setFld uMill 0x204 (2 * lc + 1) (2 * lc) n).coreSync).segRerun lc
      let h : State := { g.setFlag uMill 0x200 31 true with takingOver := lc :: g.takingOver.filter (· != lc) }
      let t := (h.countF uMill 0x21C 15 0 1).wdReport 0x0C lc late
      exec c s = .next (t.millEvents (t.coreLoops lc) 0x001B lc (core + n * 2 ^ 8 + min late 65535 * 2 ^ 16))) ∧
    (s.flag uMill 0x204 8 = true →
      let t := (f.setFlag uMill 0x200 30 true).wdReport 0x0D lc 1
      let u := t.pwmSafe ((t.coreLoops lc).flatMap t.loopPwm)
      exec c s = .next (u.millEvents (u.coreLoops lc) 0x001C lc core))) ∧
  (∀ (i : Nat) (illegal up : Bool) (s : State), i < 32 → s.encMode i = 1 → let x := s.encX i
    (s.encFilter i = 0 → x.wait = [] → illegal = true →
      exec (.encoderEdge i illegal up) s = .next (((s.setFlag uMill (encOff i + 12) 31 true).countF uMill (encOff i + 12) 15 0 1).setEncX i
      { (((s.setFlag uMill (encOff i + 12) 31 true).countF uMill (encOff i + 12) 15 0 1).encX i) with bad := true })) ∧
    (s.encFilter i = 0 → x.wait = [] → illegal = false →
      Gives (.encoderEdge i illegal up) s fun t => t.encCount i = (if up then s.encCount i + 1 else s.encCount i - 1) ∧
        (∀ u o, o < 0x10000 → (u, o) ≠ (uMill, 0x1200 + 4 * i) → t.rd u o = s.rd u o) ∧
        { t with regs := s.regs, encs := s.encs } = s ∧ t.encX i = { x with edge0 := x.edge, edge := s.encClock }) ∧
    (0 < s.encFilter i → (∀ e ∈ x.wait, s.encClock < e.1 + s.encFilter i) → Gives (.encoderEdge i illegal up) s fun t =>
      { t with encs := s.encs } = s ∧
      (∀ e, x.wait.getLast? = some e → e.2.1 = illegal → (illegal = true ∨ e.2.2 ≠ up) → t.encX i = { x with wait := x.wait.dropLast }) ∧
      ((∀ e, x.wait.getLast? = some e → e.2.1 ≠ illegal ∨ (illegal = false ∧ e.2.2 = up)) →
        t.encX i = { x with wait := x.wait ++ [(s.encClock, illegal, up)] }))) ∧
  (∀ (i : Nat) (s : State), i < 32 → let t := (s.encSync i).capture 3 i 0 0
    (t.encMode i = 1 → t.flag uMill (encOff i) 29 = true → t.flag uMill (encOff i + 12) 28 = false →
      exec (.encoderIndex i) s = .next ((t.wr uMill (0x1280 + 4 * i) (t.encCount i)).setFlag uMill (encOff i + 12) 28 true)) ∧
    (t.encMode i ≠ 1 ∨ t.flag uMill (encOff i) 29 = false ∨ t.flag uMill (encOff i + 12) 28 = true → exec (.encoderIndex i) s = .next t)) ∧
  (∀ (i raw crc pulse : Nat) (reads : List Nat) (start : Bool) (s : State), i < 32 → 2 ≤ s.encMode i → (s.encX i).reads = pulse :: reads →
    let x := s.encX i
    let n := s.fld uMill (encOff i) 27 22 + 3
    let r := raw % 2 ^ n
    let t := s.setEncX i { x with reads := reads }
    let take := fun (e : Nat × Word × Word × Bool) (u : State) => (u.encReaders i).foldl (fun q l =>
      if (q.loop l).stage = 0 ∨ (q.loop l).snap.pulse ≠ pulse then q
      else q.setLoop l { q.loop l with snap := (q.loop l).snap.put e }) u
    let crcBad := s.flag uMill (encOff i) 28 = true ∧ encCrc6 n r 0 ≠ crc % 64
    (start = false ∨ crcBad → let u := t.encError i (if start then 30 else 29)
      exec (.serialReadDone i raw crc start) s = .next (take (i, t.encPos i x.pos, x.vel, true) u)) ∧
    (start = true → ¬crcBad → t.encClock ≠ x.posAt →
      let p := w32 (if t.encMode i = 3 then grayDecode n r else r)
      let v := rate400 (sext 32 (p - x.pos).toNat) (t.encScale i) (t.encClock - x.posAt)
      let u := (t.wr uMill (0x1200 + 4 * i) p).setEncX i
        { x with reads := reads, bad := false, pos0 := x.pos, pos0At := x.posAt, pos := p, posAt := t.encClock, vel := v }
      exec (.serialReadDone i raw crc start) s = .next (take (i, u.encPos i p, v, false) u))) ∧
  (∀ (tb : Nat) (s : State), tb < 8 → s.flag uMill (0x1400 + 8 * tb) 31 = true →
    let t := ({ s with tbAt := SMap.set (fun _ => 0) tb s.encClock s.tbAt } : State).capture 2 tb 0 0
    exec (.pwmPeriodStart tb) s = .next (((List.range 48).filter fun c => t.pwmTb c = tb && t.flag uMill (pwmOff c) 31).foldl (fun q c =>
      match q.pwmShadow.find? (·.1 = c) with
      | none => q
      | some (_, v) =>
        let r : State := { q.wr uMill (pwmOff c + 4) (w32 v) with pwmShadow := SMap.erase c q.pwmShadow }
        let wave := [v, r.pwmPeriod c, r.fld uMill (0x1400 + 8 * r.pwmTb c) 30 30, r.fld uMill (pwmOff c) 30 30]
        let d := r.emit .pwm c (1 :: wave)
        let pairOf := c % 2 = 1 ∧ r.flag uMill (pwmOff (c - 1)) 31 = true ∧ r.flag uMill (pwmOff (c - 1)) 25 = true
        if r.pwmDriven c = false ∨ pairOf then r
        else if r.flag uMill (pwmOff c) 25 then d.emit .pwm (c + 1) (3 :: r.fld uMill (pwmOff c) 23 16 :: wave) else d) t)) ∧
  (∀ (p src group kind f : Nat) (ws : List Word) (s : State), f < 16 →
    (List.range 16).find? (fun f => kind = 2 && s.flag uMill (0x2200 + 32 * f) 31 && s.fld uMill (0x2200 + 32 * f) 21 20 = p &&
      s.macAt uMill (0x2204 + 32 * f) = src && s.fld uMill (0x220C + 32 * f) 31 16 = group && s.fld uMill (0x2200 + 32 * f) 15 8 = ws.length) = some f →
    let first := s.fld uMill (0x2200 + 32 * f) 7 0
    let t : State := { s with rxWords := ws.zipIdx.foldl (fun l e => SMap.set (fun _ => 0) (first + e.2) e.1 l) s.rxWords }
    exec (.axisFrameReceive p src group kind ws) s = .next ((t.countF uMill (0x221C + 32 * f) 30 0 1).setFlag uMill (0x221C + 32 * f) 31 false)) ∧
  (∀ (f : Nat) (s : State), f < 16 →
    (s.flag uMill (0x2200 + 32 * f) 31 = true → exec (.axisFrameStale f) s = .next (s.setFlag uMill (0x221C + 32 * f) 31 true)) ∧
    (s.txEn f = true → (s.txSpan f).any (fun w => (s.txWord w).fresh) = true → exec (.axisFramePartialSend f) s = .next (s.txSend f true)))

/-- Control of the Mill by registers and by calls (R382–R384, R390, R391, R407, R411–R415, R417): a loop is enabled when its checks hold,
disabled at its next sample end, switched to fallback and back; a law is loaded into a slot and its result told; coefficient writes
queue up to sixteen; encoders, PWM channels, axis descriptors and triggers are configured while nothing uses them. -/
def Obligations.MillCommands : Prop :=
  (∀ (ini l : Nat) (s : State), l ≤ 95 →
    (s.Admits ini uMill 0x22C (w32 (1 * 2 ^ 29 + l)) false →
      (s.loopEn l = true → exec (.loopCtlEnable ini l) s = .next (s.setLoop l { s.loop l with stopping := false })) ∧
      (s.loopEn l = false → s.enableFault l = OK → exec (.loopCtlEnable ini l) s = .next (s.loopOn l)) ∧
      (s.loopEn l = false → s.enableFault l ≠ OK → exec (.loopCtlEnable ini l) s = .next (s.accError ini (regAddr uMill 0x22C) .check))) ∧
    (s.Admits ini uMill 0x22C (w32 (2 * 2 ^ 29 + l)) false → s.loopEn l = true →
      exec (.loopCtlDisable ini l) s = .next (s.setLoop l { s.loop l with stopping := true })) ∧
    (s.Admits ini uMill 0x22C (w32 (3 * 2 ^ 29 + l)) false → let grp := allLoops.filter fun k => s.loopGroup k = s.loopGroup l
      exec (.loopCtlFallback ini l) s = .next ((s.loopWant l true).millEvents grp
        0x001D (2 ^ s.loopGroup l) 0)) ∧
    (s.Admits ini uMill 0x22C (w32 (4 * 2 ^ 29 + l)) true → let grp := allLoops.filter fun k => s.loopGroup k = s.loopGroup l
      (s.returnReason ini (2 ^ s.loopGroup l) = 0 → exec (.loopCtlReturn ini l) s = .next ((s.loopWant l false).millEvents grp 0x001D (2 ^ s.loopGroup l) 1)) ∧
      (s.returnReason ini (2 ^ s.loopGroup l) ≠ 0 → exec (.loopCtlReturn ini l) s = .next (s.accError ini (regAddr uMill 0x22C) .check)))) ∧
  (∀ (ini l : Nat) (fb : Bool) (s t : State) (f i : Nat), l ≤ 95 → s.Admits ini uMill 0x238 (w32 (2 ^ 31 + b2n fb * 2 ^ 30 + l)) false →
    s.lawLoad 0x48 (s.xlClient ini) false l fb (s.fld uMill 0x230 31 6 * 64 + 2 ^ 32 * s.fld uMill 0x234 15 0) = (t, f, i) →
    exec (.lawCtlGo ini l fb) s = .next (({ t with lawLast := l } : State).wr uMill 0x23C
      (w32 (2 ^ 31 + b2n (f = 0 && t.loopEn l) * 2 ^ 30 + i % 4096 * 2 ^ 16 + f)))) ∧
  (∀ (ini value : Nat) (s : State), let l := s.fld uMill 0x240 22 16
    let i := s.fld uMill 0x240 7 0
    let x := s.loop l
    l ≤ 95 → s.Admits ini uMill 0x244 (w32 value) true → (s.mayWrite ini uMill = true ∨ s.clientOf ini = some (s.loopOwner l)) →
    (s.loopEn l = false → exec (.coefWr ini value) s = .next ((s.setLoop l { x with coef := SMap.set (fun _ => 0) i (w32 value) x.coef }).wr
      uMill 0x24C (w32 (2 ^ 31 + OK)))) ∧
    (s.loopEn l = true → x.pend.length < 16 → exec (.coefWr ini value) s = .next (((s.setLoop l { x with pend := x.pend ++ [(i, w32 value)] }).loopSync
      l).wr uMill 0x24C (w32 (2 ^ 31 + OK)))) ∧
    (s.loopEn l = true → 16 ≤ x.pend.length → exec (.coefWr ini value) s = .next (s.wr uMill 0x24C (w32 (2 ^ 31 + COEF_QUEUE_FULL))))) ∧
  (∀ (ini : Nat) (args : List Word) (s : State), let l := arg args 0
    let w := fun i => nth args (1 + i) 0
    let a := argAddr args 2
    let x := s.loop l
    s.MillOpen ini (some l) →
    (bits (w 0) 31 30 = 0 → s.loopWordsOk l w = true →
      (s.loopEn l = true → exec (.configureLoop ini args) s = .next (s.ret LOOP_RUNNING)) ∧
      (s.loopEn l = false → s.encClash l (bits (w 0) 19 16) = true → exec (.configureLoop ini args) s = .next (s.ret ENC_BOUND)) ∧
      (s.loopEn l = false → s.encClash l (bits (w 0) 19 16) = false → let u := (((s.store (wLoop l) 0 (w 0)).store (wLoop l) 4 (w 1)).store (wLoop l) 8 (w 2)).store (wLoop l) 12 (w 3)
        (∀ c, u.clientOf ini = some c → exec (.configureLoop ini args) s = .next (((u.wr (wLoop l) 0x2C (w32 c)).lawSync l).ret OK)) ∧
        (u.clientOf ini = none → exec (.configureLoop ini args) s = .next ((u.lawSync l).ret OK)))) ∧
    (arg args 1 ≤ 1 → a % 64 = 0 → ∀ t f i, s.lawLoad 0x48 (s.xlClient ini) false l (arg args 1 = 1) a = (t, f, i) →
      (f ≠ 0 → exec (.loadLaw ini args) s = .next (t.ret f [w32 i])) ∧
      (f = 0 → t.loopEn l = false → exec (.loadLaw ini args) s = .next (t.ret OK)) ∧
      (f = 0 → t.loopEn l = true → exec (.loadLaw ini args) s = .next (t.retPending 0x0702 (l + 128 * arg args 1)))) ∧
    (arg args 1 = 0 → s.loopEn l = true → exec (.enableOrDisableLoop ini args) s = .next ((s.setLoop l { x with stopping := true }).ret OK)) ∧
    (arg args 1 = 1 → s.loopEn l = false →
      (s.enableFault l = OK → exec (.enableOrDisableLoop ini args) s = .next ((s.loopOn l).ret OK)) ∧
      (s.enableFault l ≠ OK → exec (.enableOrDisableLoop ini args) s = .next (s.ret (s.enableFault l)))) ∧
    (arg args 1 ≤ 64 → let ps := (List.range (arg args 1)).map fun i => (arg args (2 + 2 * i), nth args (3 + 2 * i) 0)
      (∀ p ∈ ps, p.1 ≤ 255) →
      (s.callWaits 0x0704 l = true → exec (.writeCoefficients ini args) s = .next (s.ret UNIT_BUSY)) ∧
      (s.callWaits 0x0704 l = false → s.loopEn l = false → exec (.writeCoefficients ini args) s = .next ((ps.foldl (fun q p => (q.coefWrite l p.1 p.2).1) s).ret OK)) ∧
      (s.callWaits 0x0704 l = false → s.loopEn l = true → 1 ≤ arg args 1 → exec (.writeCoefficients ini args) s = .next (((s.setLoop l
        { x with pend := x.pend ++ (x.feed ++ ps).take (16 - x.pend.length), feed := (x.feed ++ ps).drop (16 - x.pend.length), callN := x.pend.length + (x.feed ++ ps).length }).loopSync l).retPending
          0x0704 l))) ∧
    (arg args 1 % 2 ^ 29 = 0 → exec (.clearLoopFlags ini args) s = .next ((s.store (wLoop l) 0x10 (nth args 1 0)).ret OK)) ∧
    (s.callWaits 0x070A l = true → arg args 1 ≤ 1 → exec (.fallbackOrReturn ini args) s = .next (s.ret UNIT_BUSY)) ∧
    (s.callWaits 0x070A l = false → arg args 1 = 0 → let t := s.loopFallback l
      ((t.loop l).want.isSome = true → exec (.fallbackOrReturn ini args) s = .next (t.retPending 0x070A l)) ∧
      ((t.loop l).want.isSome = false → exec (.fallbackOrReturn ini args) s = .next (t.ret OK))) ∧
    (s.callWaits 0x070A l = false → arg args 1 = 1 → let r := s.returnReason ini (2 ^ s.loopGroup l)
      let t := s.loopReturn l
      (r ≠ 0 → exec (.fallbackOrReturn ini args) s = .next (s.ret REFUSED [w32 r])) ∧
      (r = 0 → (t.loop l).want.isSome = true → exec (.fallbackOrReturn ini args) s = .next (t.retPending 0x070A l)) ∧
      (r = 0 → (t.loop l).want.isSome = false → exec (.fallbackOrReturn ini args) s = .next (t.ret OK)))) ∧
  (∀ (ini : Nat) (args : List Word) (s : State), let k := arg args 0
    let c := arg args 1
    s.MillOpen ini none →
    (k ≤ 31 → encCfgOk (nth args 1 0) = true →
      (s.encReaders k ≠ [] → exec (.configureEncoder ini args) s = .next (s.ret ENC_BOUND)) ∧
      (s.encReaders k = [] → exec (.configureEncoder ini args) s = .next ((((s.encCfg k (nth args 1 0)).wr uMill (encOff k + 4)
        (nth args 2 0)).wr uMill (encOff k + 8) (nth args 3 0)).ret OK))) ∧
    (k < 8 → tbCfgOk (nth args 1 0) = true → let t := (s.wr uMill (0x1404 + 8 * k) (w32 (s.tbCount k))).wr uMill (0x1400 + 8 * k) (nth args 1 0)
      exec (.configurePwm ini args) s = .next ((if bit (nth args 1 0) 31 && !s.flag uMill (0x1400 + 8 * k) 31 then
        { t with tbAt := SMap.set (fun _ => 0) k s.encClock s.tbAt } else t).ret OK)) ∧
    (0x100 ≤ k → k - 0x100 ≤ 47 → pwmCfgOk (k - 0x100) (nth args 1 0) = true →
      (s.pwmOwner (k - 0x100) ≠ none → exec (.configurePwm ini args) s = .next (s.ret OUTPUT_CLAIMED)) ∧
      (s.pwmOwner (k - 0x100) = none → exec (.configurePwm ini args) s = .next
        (((s.wr uMill (pwmOff (k - 0x100)) (nth args 1 0)).pwmSafe [k - 0x100]).ret OK))) ∧
    (k ≤ 1 → c ≤ 15 → let base := if k = 0 then 0x2000 else 0x2200
      let w := fun i => nth args (2 + i) 0
      (∀ i < 7, ∃ r, findRow uMill (base + 4 * i) = some r ∧ (w i).toNat &&& r.valid = (w i).toNat) → s.axisOk base c (w 0) = true →
      (k = 1 → bits (w 3) 15 0 ≠ 0) →
      exec (.configureAxisFrame ini args) s = .next ((((((((s.wr uMill (base + 32 * c + 0) (w 0)).wr uMill (base + 32 * c + 4) (w 1)).wr uMill
        (base + 32 * c + 8) (w 2)).wr uMill (base + 32 * c + 12) (w 3)).wr uMill (base + 32 * c + 16) (w 4)).wr uMill (base + 32 * c + 20) (w 5)).wr
        uMill (base + 32 * c + 24) (w 6)).ret OK)) ∧
    (k ≤ 7 → c ≤ 15 →
      (s.cmpOwner c = 3 → s.cmpIndex c = k → exec (.bindTrigger ini args) s = .next ((s.wr uMill (0x300 + 4 * k) (w32 (2 ^ 31 + c))).loadsSync.ret OK)) ∧
      (s.cmpOwner c = 0 → s.cmpOf 3 k = none → exec (.bindTrigger ini args) s = .next ((((((s.setFld uGauge (cmpOff c) 30 29 3).setFld uGauge (cmpOff c)
        28 26 k).setFlag uGauge 0x100 c true).wr uMill (0x300 + 4 * k) (w32 (2 ^ 31 + c))).loadsSync.ret OK))) ∧
      (s.cmpOwner c ≠ 0 → ¬(s.cmpOwner c = 3 ∧ s.cmpIndex c = k) → exec (.bindTrigger ini args) s = .next (s.ret COMP_TAKEN)))) ∧
  (∀ (ini : Nat) (args : List Word) (s : State), let k := arg args 0
    k ≤ 7 → arg args 1 = 2 → s.MillOpen ini none → s.callWaits 0x070A (96 + k) = false → let t := s.groupsTo (2 ^ k) true
    (t.loops.any (fun p => t.loopGroup p.1 = k && p.2.want.isSome && t.loopEn p.1) = true →
      exec (.fallbackOrReturn ini args) s = .next (t.retPending 0x070A (96 + k))) ∧
    (t.loops.any (fun p => t.loopGroup p.1 = k && p.2.want.isSome && t.loopEn p.1) = false → exec (.fallbackOrReturn ini args) s = .next (t.ret OK)))

/-- R462 whole: INCR resets to 0x2000_0000, a write outside its bounds is rejected and recorded, a write within them is stored, and the
next tick adds it. -/
def Obligations.IncrementRule : Prop :=
  State.reset.rd uGauge 0x110 = 0x20000000 ∧
  (∀ (ini v : Nat) (s : State), v < 2 ^ 32 → s.exists? uGauge = true → s.fwAllows ini (regAddr uGauge 0x110) true = true → s.mayWrite ini uGauge = true →
    (v < 0x1FF00000 ∨ 0x20100000 < v → exec (.incrWrite ini v) s = .next (s.accError ini (regAddr uGauge 0x110) .range)) ∧
    (0x1FF00000 ≤ v → v ≤ 0x20100000 → exec (.incrWrite ini v) s = .next (s.wr uGauge 0x110 (w32 v)))) ∧
  (∀ s : State, s.pending = [] → s.gauge.step = none → s.gauge.set = none → s.adjLeft = 0 →
    s.fine + (s.rd uGauge 0x110).toNat < 2 ^ 48 * (nsPerS * 2 ^ 28) → ∃ t, step s = .next t ∧ t.fine = s.fine + (s.rd uGauge 0x110).toNat)

/-- Setting Gauge time (R463–R465, R468, R484): a slew starts with ADJ_NS, moves 1 ns each 512 ticks and ends at 0; a step or a set waits for the next
tick unless something timed is enabled and it is not forced; the reference is lost and comes back; the time protocol starts anew
and falls to HOLDOVER. -/
def Obligations.GaugeTime : Prop :=
  (∀ (s : State), s.adjLeft ≠ 0 → 512 ≤ s.gauge.slewTicks →
    let l := if 0 < s.adjLeft then s.adjLeft - 1 else s.adjLeft + 1
    let t : State := { s.wr uGauge 0x11C (w32 (unsext 32 l)) with gauge := { s.gauge with slewTicks := s.gauge.slewTicks - 512 } }
    (l ≠ 0 → exec .slewStep s = .next t) ∧ (l = 0 → exec .slewStep s = .next ((t.setFlag uGauge 0x100 28 false).finish 0x0901 0 OK))) ∧
  (∀ (ini : Nat) (force : Bool) (s : State), let act := fun a => w32 (a * 2 ^ 30 + b2n force * 2 ^ 29)
    let v := s.rd uGauge 0x114
    (s.Admits ini uGauge 0x118 (act 1) false → let u := s.finish 0x0901 0 OK
      let t := (u.wr uGauge 0x11C v).setFlag uGauge 0x100 28 (v != 0)
      exec (.adjCtlSlew ini force) s = .next ({ t with gauge := { t.gauge with slewTicks := 0 } } : State)) ∧
    (force = false → s.Admits ini uGauge 0x118 (act 3) false →
      exec (.adjCtlCancelSlew ini) s = .next (((s.wr uGauge 0x11C 0).setFlag uGauge 0x100 28 false).finish 0x0901 0 OK)) ∧
    (s.Admits ini uGauge 0x118 (act 2) false →
      (s.stepBlocked force = false → exec (.adjCtlStep ini force) s = .next
        ({ s with gauge := { s.gauge with step := some (sext 32 v.toNat, force) } } : State)) ∧
      (s.stepBlocked force = true → exec (.adjCtlStep ini force) s = .next (s.accError ini (regAddr uGauge 0x118) .check))) ∧
    (s.Admits ini uGauge 0x12C (w32 (2 ^ 31 + b2n force * 2 ^ 30)) false →
      (s.stepBlocked force = false → exec (.setCtlGo ini force) s = .next ({ s with gauge := { s.gauge with
        set := some (((s.rd uGauge 0x124).toNat + 2 ^ 32 * s.fld uGauge 0x128 15 0) % 2 ^ 48, s.fld uGauge 0x120 29 0, force) } } : State)) ∧
      (s.stepBlocked force = true → exec (.setCtlGo ini force) s = .next (s.accError ini (regAddr uGauge 0x12C) .check)))) ∧
  (∀ s : State, (s.refLost = false → let t := s.setFlag uGauge 0x100 29 true
      exec .refclkLoss s = .next ((t.post t.gaugeClient 0x0030 uGauge noQueue 0 t.gSync (t.gSync + 256 * b2n t.refLost)).recordFault fREFCLK uGauge 0x4A
        noQueue 0 0 0 0 oNone)) ∧
    exec .refclkRestore s = .next (s.setFlag uGauge 0x100 29 false) ∧
    (s.ptp.on = true → s.gSync ≠ 0 → s.gSync ≠ 2 → exec .announceTimeout s = .next
      { (s.setFld uGauge 0x100 31 30 2).postSync s.gSync with ptp := { s.ptp with good := 0, fresh := 0 } })) ∧
  (∀ (ini : Nat) (args : List Word) (s : State), s.claimed uGauge = false → let n := arg args
    (n 0 = 1 → n 1 = 0 → exec (.adjustTime ini args) s = .next ((s.slewBy (nth args 1 0)).slewDone.ret OK)) ∧
    (n 0 = 1 → n 1 ≠ 0 → exec (.adjustTime ini args) s = .next ((s.slewBy (nth args 1 0)).retPending 0x0901 0)) ∧
    (n 0 = 2 → s.stepBlocked (n 2 = 1) = true → exec (.adjustTime ini args) s = .next (s.ret STEP_BLOCKED)) ∧
    (n 0 = 2 → s.stepBlocked (n 2 = 1) = false → exec (.adjustTime ini args) s = .next
      (({ s with gauge := { s.gauge with step := some (sext 32 (n 1), decide (n 2 = 1)) } } : State).ret OK)) ∧
    (n 0 = 3 → n 1 < nsPerS → n 3 < 2 ^ 16 → s.stepBlocked (n 4 = 1) = false → exec (.adjustTime ini args) s = .next
      (({ s with gauge := { s.gauge with set := some ((n 2 + 2 ^ 32 * n 3) % 2 ^ 48, n 1, decide (n 4 = 1)) } } : State).ret OK)) ∧
    (0x1FF00000 ≤ n 0 → n 0 ≤ 0x20100000 → exec (.setIncrement ini args) s = .next ((s.wr uGauge 0x110 (nth args 0 0)).ret OK)) ∧
    (n 0 < 0x1FF00000 ∨ 0x20100000 < n 0 → exec (.setIncrement ini args) s = .next (s.ret RANGE)) ∧
    (n 0 ≤ 2 → n 1 ≤ 1 → n 2 ≤ 15 → n 4 ≤ 127 → -7 ≤ sext 32 (n 5) → sext 32 (n 5) ≤ 4 → let t : State := { s with ptp := ⟨n 2 != 0, args.take 8, 0, 0, 0, 0, 0⟩ }
      exec (.configureTimeProtocol ini args) s = .next ((if t.gSync = 0 then t else (t.setFld uGauge 0x100 31 30 0).postSync t.gSync).ret OK)))

/-- Comparators, pulses and captures (R470–R474, R484): a due comparator fires to its owner and takes its next target; a target is committed by its
third word; one owner holds a comparator until it no longer uses it; captures stamp, and are read oldest first. -/
def Obligations.GaugeUnits : Prop :=
  (∀ (n : Nat) (s : State), n < 16 → s.cmpEn n = true → (s.cmpX n).armed = true → (s.cmpX n).next ≤ s.nowNs →
    let c := s.cmpX n
    let p := s.cmpPeriod n
    let u := s.count uGauge (cmpOff n + 20) 1
    let u := if c.late then u.count uGauge (cmpOff n + 24) 1 else u
    let next := if p = 0 then c.next else if c.late then c.base + ((u.nowNs + p - c.base) / p) * p else c.next + p
    let u := u.setCmpX n { c with next := next, armed := p != 0, late := false }
    let t := if u.flag uGauge (cmpOff n) 25 then u.wake 8 uGauge else u
    let i := s.cmpIndex n
    (t.cmpOwner n = 0 → exec (.comparatorFire n) s = .next t) ∧
    (t.cmpOwner n = 1 → exec (.comparatorFire n) s = .next (t.pulseFire i)) ∧
    (t.cmpOwner n = 2 → exec (.comparatorFire n) s = .next (t.canFire i)) ∧
    (t.cmpOwner n = 3 → t.flag uMill (0x300 + 4 * i) 31 = true → t.fld uMill (0x300 + 4 * i) 3 0 = n →
      exec (.comparatorFire n) s = .next ((t.gateTrig i).millPulse i))) ∧
  (∀ (ini n value : Nat) (s : State), n < 16 → let o := cmpOff n
    s.Admits ini uGauge (o + 12) (w32 value) false →
    (s.cmpOwner n = 2 → exec (.cmpTargetCommit ini n value) s = .next (s.accError ini (regAddr uGauge (o + 12)) .readOnly)) ∧
    (s.cmpOwner n ≠ 2 → let u := s.wr uGauge (o + 12) (w32 value)
      let at_ := ((u.rd uGauge (o + 8)).toNat + 2 ^ 32 * u.fld uGauge (o + 12) 15 0) * nsPerS + u.fld uGauge (o + 4) 29 0
      exec (.cmpTargetCommit ini n value) s = .next (u.setCmpX n ⟨at_, at_, true, decide (at_ ≤ u.nowNs)⟩))) ∧
  (∀ (ini kind idx n : Nat) (s : State), kind < 4 → idx < 8 → ownerOk kind idx n = true →
    let v := fun r => w32 (kind * 2 ^ 30 + r * 2 ^ 29 + idx * 2 ^ 26 + n)
    (s.Admits ini uGauge 0x138 (v 0) false →
      (∀ t, s.cmpClaim kind idx n = (t, OK) → exec (.gaugeClaimClaim ini kind idx n) s = .next t) ∧
      (s.cmpOwner n ≠ 0 ∨ s.cmpOf kind idx ≠ none → exec (.gaugeClaimClaim ini kind idx n) s = .next (s.accError ini (regAddr uGauge 0x138) .check))) ∧
    (s.Admits ini uGauge 0x138 (v 1) false →
      (s.cmpInUse n = true → exec (.gaugeClaimRelease ini kind idx n) s = .next (s.accError ini (regAddr uGauge 0x138) .check)) ∧
      (s.cmpInUse n = false → s.cmpOwner n ≠ 1 → s.cmpOwner n ≠ 2 → exec (.gaugeClaimRelease ini kind idx n) s = .next
        (((s.setFld uGauge (cmpOff n) 30 29 0).setFld uGauge (cmpOff n) 28 26 0).setFlag uGauge 0x100 n false)))) ∧
  (∀ (n : Nat) (s : State), s.pulses.contains n = true → let level := (false == s.flag uGauge (0x300 + 8 * n) 30)
    exec (.pulseEnd n) s = .next ({ s.emit .pulse n [b2n level] with pulses := s.pulses.filter (· != n) } : State)) ∧
  (∀ (ball n : Nat) (rising : Bool) (s : State), n < 8 → 
    let hit := fun k => (s.flag uGauge (capOff k) 31 = true ∧ s.fld uGauge (capOff k) 30 28 = 0 ∧
      s.fld uGauge (capOff k) 12 8 = ball ∧ (s.fld uGauge (capOff k) 27 26 &&& (if rising then 1 else 2)) ≠ 0)
    hit n → (∀ k, k < 8 → k ≠ n → ¬hit k) →
    ((s.capFifo n).length < 16 → exec (.captureEdge ball rising) s = .next
      (s.setCap n (s.capFifo n ++ [(s.gaugeNs, s.gauge.sec, s.gauge.sub / 2 ^ 12 % 2 ^ 16)]))) ∧
    (16 ≤ (s.capFifo n).length → exec (.captureEdge ball rising) s = .next (s.count uGauge (capOff n + 20) 1))) ∧
  (∀ (ini n : Nat) (s : State), n < 8 → s.fwAllows ini (regAddr uGauge (capOff n + 4)) false = true →
    (s.capFifo n = [] → exec (.capNsRead ini n) s = .next ({ s with reply := ⟨false, [0, 0, 0, 0]⟩ } : State)) ∧
    (∀ ns sec fr rest, s.capFifo n = (ns, sec, fr) :: rest → exec (.capNsRead ini n) s = .next
      ({ ((s.wr uGauge (capOff n + 8) (w32 sec)).wr uGauge (capOff n + 12) (w32 (fr * 2 ^ 16 + sec / 2 ^ 32))).setCap n rest with
        reply := ⟨false, natBytes 4 (w32 (2 ^ 31 + ns)).toNat⟩ } : State))) ∧
  (∀ (ini : Nat) (args : List Word) (s : State), s.claimed uGauge = false → let n := arg args
    (ownerOk (n 1) (n 2) (n 0) = true → n 3 = 0 → ∀ t r, s.cmpClaim (n 1) (n 2) (n 0) = (t, r) → exec (.claimOrReleaseComparator ini args) s = .next (t.ret r)) ∧
    (ownerOk (n 1) (n 2) (n 0) = true → n 3 = 1 → ∀ t r, s.cmpRelease (n 0) = (t, r) → exec (.claimOrReleaseComparator ini args) s = .next (t.ret r)) ∧
    (n 0 < 16 → n 1 < nsPerS → n 3 < 2 ^ 16 → cmpPeriodOk (n 4) = true → n 5 ≤ 1 → n 6 ≤ 1 → let o := cmpOff (n 0)
      (s.cmpOwner (n 0) = 2 → exec (.configureComparator ini args) s = .next (s.ret DENIED)) ∧
      (s.cmpOwner (n 0) ≠ 2 → exec (.configureComparator ini args) s = .next ((((((((s.wr uGauge (o + 4) (nth args 1 0)).wr uGauge (o + 8) (nth args 2 0)).wr
        uGauge (o + 12) (nth args 3 0)).wr uGauge (o + 16) (nth args 4 0)).setFlag uGauge o 25 (n 5 = 1)).cmpCommit (n 0)).cmpEnable (n 0) (n 6 = 1)).ret OK))) ∧
    (n 0 < 8 → n 1 ≤ 1 → n 2 ≤ 1 → 8 ≤ n 3 → n 3 ≤ nsPerS → ∀ t r, (s.wr uGauge (0x304 + 8 * n 0) (w32 (n 3))).pulseSet (n 0) (n 1 = 1) (n 2 = 1) = (t, r) →
      exec (.configurePulseOrCapture ini args) s = .next (if r = OK then t.ret OK else s.ret r)) ∧
    (8 ≤ n 0 → n 0 < 16 → n 1 ≤ 1 → n 2 ≤ 7 → n 3 ≤ 3 → n 4 ≤ 31 → n 5 ≤ 15 → ∀ t r, s.captureSet (n 0 - 8)
      (w32 (n 1 * 2 ^ 31 + n 2 * 2 ^ 28 + n 3 * 2 ^ 26 + n 4 * 2 ^ 8 + n 5)) = (t, r) → exec (.configurePulseOrCapture ini args) s = .next (t.ret r)))

/-- The Ethernet ports and the CAN controllers (R404, R405, R416, R466–R469, R475–R479, R481, R482, R484, R518): frames that come go to the Mill,
the time protocol or the general ring; one that ends frees the port for the next; gate lists go on and are swapped; CAN objects
are asked for, offered, sent, aborted and refilled, and a controller counts its errors, goes bus-off and recovers. -/
def Obligations.PortsAndCan : Prop :=
  (∀ (p : Nat) (d : List Byte) (k m o y : Nat) (s : State), p < 4 → s.flag (uEP p) 0x100 31 = true → let t := s.count (uEP p) 0x11C 1
    exec (.ethFrameReceive p d false k m o y) s = .next (t.countF (uEP p) 0x124 31 16 1) ∧
    (∀ w : State, w = (if t.flag uPwr 0x11C 8 || isWake (t.station p) d then t.wake 2 (uEP p) else t) →
      (∀ g kd ws f, axisOf d = some (g, kd, ws) → w.rxMatch p (leAt d 6 6) g kd ws.length = some f →
        exec (.ethFrameReceive p d true k m o y) s = .next (w.rxAccept f ws)) ∧
      (axisOf d = none →
        (isPtp d = true → k = 1 → exec (.ethFrameReceive p d true k m o y) s = .next (w.ptpMaster m)) ∧
        (isPtp d = true → k = 2 → exec (.ethFrameReceive p d true k m o y) s = .next (w.ptpSync o y)) ∧
        (isPtp d = false → isWake (w.station p) d = false →
          (w.flag (uEP p) 0x118 31 = false ∨ 2032 < d.length → exec (.ethFrameReceive p d true k m o y) s = .next (w.countF (uEP p) 0x124 15 0 1)) ∧
          (w.flag (uEP p) 0x118 31 = true → d.length ≤ 2032 → let r := w.genRing p
            let at_ := w.rxStamp p
            let head := [w32 (d.length + b2n r.phase * 2 ^ 31), w32 (at_ % nsPerS), w32 (at_ / nsPerS), 0]
            let next := if r.tail + 1 < 2 ^ r.order then r.tail + 1 else 0
            exec (.ethFrameReceive p d true k m o y) s = .next ((w.setBytes (r.addr + 2048 * r.tail) (head.flatMap (fun w => natBytes 4 w.toNat) ++ d)).setGenRing
              p { r with tail := next, phase := if next = 0 then !r.phase else r.phase }))))) ∧
    (s.ethBusy.any (·.port = p) = true → exec (.ethFrameSent p) s = .next ((({ s with ethBusy := s.ethBusy.filter (·.port != p) } : State).count
      (uEP p) 0x120 1).ethKick p)) ∧
    exec (.ethLinkChange p false) s = .next ({ s.setFlag (uEP p) 0x104 31 false with ethBusy := s.ethBusy.filter (·.port != p) } : State) ∧
    (s.flag (uEP p) 0x104 31 = true → exec (.ethLinkChange p true) s = .next ((s.setFlag (uEP p) 0x104 31 true).ethKick p)) ∧
    (s.flag (uEP p) 0x104 31 = false → exec (.ethLinkChange p true) s = .next (((s.setFlag (uEP p) 0x104 31 true).calApply (calKeyOf (uEP p) 7)).ethKick
      p))) ∧
  (∀ (ini p v : Nat) (s : State), p < 4 → let x := s.qbvX p
    let base := s.fld (uEP p) 0x20C 31 0 * nsPerS + (s.rd (uEP p) 0x208).toNat
    let admin := (List.range (s.fld (uEP p) 0x200 6 0)).map fun i => s.rd (uEP p) (0x300 + 4 * i)
    (x.swap = false ∨ s.nowNs < base → exec (.qbvGateEntryEnd p) s = .next (s.ethKick p) ∧
      Gives (.qbvGateEntryEnd p) s fun t => t.qbvX p = x) ∧
    (x.swap = true → base ≤ s.nowNs → Gives (.qbvGateEntryEnd p) s fun t => (t.qbvX p).oper = admin ∧ (t.qbvX p).base = base ∧
      (t.qbvX p).swap = false ∧ t.rd (uEP p) 0x210 = w32 admin.length ∧
      (s.fld (uEP p) 0x204 29 0 ≠ 0 → (t.qbvX p).cycle = s.fld (uEP p) 0x204 29 0)) ∧
    (∀ (now k : Nat), x.since ≤ now → x.cycle ≠ 0 → k < x.cut.length →
      ((x.cut.take k).foldl (fun a e => a + e.2) 0 ≤ (now - x.base) % x.cycle) →
      ((now - x.base) % x.cycle < (x.cut.take (k + 1)).foldl (fun a e => a + e.2) 0) →
      (x.place now).1 = k ∧ ∀ cls, x.isOpen cls now = gateOpen (nth x.oper k 0) cls) ∧
    (s.Admits ini (uEP p) 0x200 (setBit (w32 v) 30 true) false → let u := (s.qbvSync p).wr (uEP p) 0x200 (setBit (setBit (w32 v) 30 true) 30 false)
      bit (setBit (w32 v) 30 true) 30 = true → exec (.qbvSwap ini p v) s = .next ((u.qbvSwap p).ethKick p))) ∧
  (∀ (ini : Nat) (args : List Word) (s : State), let n := arg args
    let a := argAddr args 2
    n 0 < 4 → s.claimed (uEP (n 0)) = false → n 1 ≤ 4095 →
    (n 5 = 0 → exec (.configureGeneralRings ini args) s = .next (((s.setFlag (uEP (n 0)) 0x118 31 false).setGenRing (n 0) GenRing.init).ret OK)) ∧
    (n 5 = 1 → s.clientValid (n 1) = true → n 4 ≤ 16 → a % 2048 = 0 → inRegion s.part a (2048 * 2 ^ n 4) (· = .lpddr) = true →
      fwRegion s.part (a + 2048 * 2 ^ n 4 - 1) = false → exec (.configureGeneralRings ini args) s = .next (((s.wr (uEP (n 0)) 0x118
        (w32 (2 ^ 31 + n 1))).setGenRing (n 0) ⟨n 1, a, n 4, 0, true⟩).ret OK))) ∧
  (∀ (ini c o v : Nat) (s : State), c < 4 → o < 512 → let u := uCN c
    let w := setBit (w32 v) 28 true
    (s.Admits ini u (objOff o + 4) (setBits w 24 23 0 &&& 0xDE7FFFFF ||| 0x10000000) false → bit w 28 = true →
      (s.objPending c o = true → exec (.canObjReq ini c o v) s = .next (s.accError ini (regAddr u (objOff o + 4)) .check)) ∧
      (s.objPending c o = false → ∀ t, (s.objCtlStore c o w).canReq c o = (t, true) → exec (.canObjReq ini c o v) s = .next t)) ∧
    (s.objPending c o = true → bit (s.objCtl c o) 27 = true → let t := (s.setFlag u (objOff o + 4) 23 true).count u 0x128 1
      exec (.canTxLateExpiry c o) s = .next ((t.canDrop c o).post (t.canClient c) 0x0034 u noQueue 0 c o)) ∧
    (s.Admits ini u 0x110 0x20000000 false →
      (s.canState c = 2 → exec (.cnCmdRecover ini c) s = .next (s.setFld u 0x10C 31 30 3)) ∧
      (s.canState c ≠ 2 → exec (.cnCmdRecover ini c) s = .next (s.accError ini (regAddr u 0x110) .check))) ∧
    (s.canState c = 3 → exec (.canRecoveryDone c) s = .next ((((s.setFld u 0x10C 31 30 0).setFld u 0x10C 24 8 0).finish 0x090C c OK).canIdle c)) ∧
    (s.Admits ini u 0x110 (w32 (0x40000000 + o)) false → s.objPending c o = true →
      ((s.canX c).offer = none → exec (.cnCmdAbort ini c o) s = .next (s.canDrop c o)) ∧
      (∀ h d, (s.canX c).offer = some (o, h, d) → (s.canX c).onBus = true → exec (.cnCmdAbort ini c o) s = .next s))) ∧
  (∀ (c : Nat) (ide rtr fdf brs esi : Bool) (id dlc sof : Nat) (data : List Word) (s : State), c < 4 → dlc < 16 → s.canEn c = true → s.canState c < 2 →
    let u := uCN c
    let l := s.canLost c
    let t := (l.setFld u 0x10C 15 8 (l.fld u 0x10C 15 8 - 1)).canLevel c
    let key := b2n ide * 2 ^ 29 + id % (if ide then 2 ^ 29 else 2 ^ 11)
    let at_ := (t.objsOn c).find? fun o => !bit (t.rd u (objOff o)) 30 && objKey (t.rd u (objOff o)) = key
    (rtr = true → exec (.canFrameReceive c ide rtr fdf brs esi id dlc sof data) s = .next ((t.count u 0x134 1).canIdle c)) ∧
    (rtr = false → at_ = none → exec (.canFrameReceive c ide rtr fdf brs esi id dlc sof data) s = .next ((t.count u 0x11C 1).canIdle c)) ∧
    (rtr = false → ∀ o, at_ = some o → let old := t.objCtl c o
      let v := setBits (setBits (setBits (setBits (setBits (setBit old 31 true) 26 26 (b2n fdf)) 25 25 (b2n brs)) 24 24 (b2n esi)) 19 16 dlc) 15 0
        (sof / nsPerS)
      let w := if bit old 31 then (t.wr u (objOff o + 4) (setBit v 30 true)).count u 0x120 1 else t.wr u (objOff o + 4) v
      let put := (List.range 16).foldl (fun q i => if 4 * i < dlcBytes fdf dlc then q.wr u (dataOff o + 4 * i) (nth data i 0) else q)
        (w.wr u (objOff o + 8) (w32 (sof % nsPerS)))
      exec (.canFrameReceive c ide rtr fdf brs esi id dlc sof data) s = .next (((put.countF u (objOff o + 12) 15 0 1).count u 0x114 1).canIdle c))) ∧
  (∀ (c sof err tec rec o : Nat) (tx : Bool) (h : Word) (d : List Word) (s : State), c < 4 → let u := uCN c
    ((s.canX c).offer = some (o, h, d) →
      let t := (((s.setFld u (objOff o + 4) 15 0 (sof / nsPerS)).wr u (objOff o + 8) (w32 (sof % nsPerS))).countF u
        (objOff o + 12) 15 0 1).count u 0x118 1
      exec (.canTxDone c sof) s = .next ((((t.setFld u 0x10C 24 16 (t.fld u 0x10C 24 16 - 1)).canLevel c).canDrop c o).canIdle c)) ∧
    ((s.canX c).offer = none → exec (.canTxDone c sof) s = .next (if (s.canX c).onBus then s.canIdle c else s)) ∧
    (s.canEn c = true → s.canState c < 2 → err < 7 →
      let t := (((s.setFld u 0x10C 28 25 err).countF u 0x124 15 0 1).setFld u 0x10C 24 16 (min tec 511)).setFld
        u 0x10C 15 8 (min rec 255)
      (255 < tec → tx = false → let w := (t.setFld u 0x10C 31 30 2).countF u 0x124 31 16 1
        let w := w.setCanX c { w.canX c with offer := none, onBus := false }
        exec (.canBusError c err tec rec tx) s = .next (w.post (w.canClient c) 0x0033 u noQueue 0 c (w.fld u 0x10C 24 8 * 256))) ∧
      (tec ≤ 255 → tx = false → exec (.canBusError c err tec rec tx) s = .next (t.setFld u 0x10C 31 30 (b2n (127 < tec || 127 < rec)))) ∧
      (tec ≤ 255 → tx = true → exec (.canBusError c err tec rec tx) s = .next (((t.canLost c).canLevel c).canIdle c)))) ∧
  (∀ (ini : Nat) (args : List Word) (s : State), let c := arg args 0
    let o := arg args 1
    let u := uCN c
    c < 4 → s.claimed u = false →
    (andN (nth args 1 0) 0x0FFFFFFF = 0 → andN (nth args 2 0) 0x3E0 = 0 → andN (nth args 3 0) 0xFE0 = 0 → 1 ≤ arg args 4 → arg args 4 ≤ 65535 → s.canEn c = false →
      exec (.configureCanController ini args) s = .next (((((s.wr u 0x104 (nth args 2 0)).wr u 0x108 (nth args 3 0)).wr u 0x12C (w32 (arg args 4))).canEnable
        c (nth args 1 0)).ret OK)) ∧
    (o < 512 → arg args 22 = 0 → s.objPending c o = false → bits (nth args 4 0) 31 30 = 0 → bits (nth args 3 0) 21 20 = 0 →
      (s.idTaken c o (nth args 2 0) = true → exec (.writeCanObject ini args) s = .next (s.ret ID_TAKEN)) ∧
      (s.idTaken c o (nth args 2 0) = false →
        let t := ((s.wr u (objOff o) (nth args 2 0)).objCtlStore c o (setBit (nth args 3 0) 28 false)).wr u (objOff o + 8)
          (nth args 4 0)
        exec (.writeCanObject ini args) s = .next (((List.range 16).foldl (fun t i => t.wr u (dataOff o + 4 * i) (nth args (6 + i) 0)) t).ret OK))) ∧
    (s.callWaits 0x090C c = false →
      (s.canState c = 2 → exec (.recoverCanController ini args) s = .next ((s.setFld u 0x10C 31 30 3).retPending 0x090C c)) ∧
      (s.canState c ≠ 2 → exec (.recoverCanController ini args) s = .next (s.ret NOT_BUS_OFF))))

/-- Transactions of Axfer at both ends (R305, R307–R311): a WRITE stores its bytes into a landing parcel against granted credits and is acknowledged, mark
operations act on marks of the remote range, credits are granted whole in order and come back; what a rule refuses gets a NACK that names
the cause; an ACK completes a stream's transactions up to its tag, a NACK or a timeout ends the sending command; a slot for another
position goes on over the ring, one out of order only frees what its link word acknowledges. -/
def Obligations.RingTransactions : Prop :=
  (∀ (h : AxHead) (addr len : Nat) (data : List Byte) (s t : State), let d := (data ++ List.replicate len 0).take len
    s.Hears h 1 d t →
    let u := t.fresher h.src h.stream
    let k := ceilDiv d.length 1024
    (u.writeCause h.src h.stream addr d.length = 0 → u.behind h.src h.stream h.tag = false → u.barred (0x38 + h.src) addr d.length = false →
      ∀ p v, u.landingAt addr = some p → u.polWrite (0x38 + h.src) addr d = (v, 0) → exec (.axWrite h addr len data false) s = .next
        ((((({ v with rgrants := takeGrants h.src h.stream p k v.rgrants } : State).useCredits p k).grantSync).ackSend h.src h.stream h.tag).cameIn
          h.src h.stream h.tag)) ∧
    (u.writeCause h.src h.stream addr d.length = 0 → u.barred (0x38 + h.src) addr d.length = true ∨ u.behind h.src h.stream h.tag = true →
      ∀ p, u.landingAt addr = some p → exec (.axWrite h addr len data false) s = .next
        ((({ u with
            held := holdInto ⟨0x38 + h.src, 30, addr, d.length, some d, none, false, some (h.src, h.stream, h.tag), [(p, k)], none, []⟩ u.held
            rgrants := takeGrants h.src h.stream p k u.rgrants } : State).grantSync).cameIn h.src h.stream h.tag)) ∧
    (u.writeCause h.src h.stream addr d.length ≠ 0 → exec (.axWrite h addr len data false) s = .next
      ((u.nack h.src h.stream h.tag (u.writeCause h.src h.stream addr d.length) (addr / 0x10000)).cameIn h.src h.stream h.tag))) ∧
  (∀ (h : AxHead) (m v : Nat) (s t : State), m < 65536 → let u := t.fresher h.src h.stream
    let waits := fun (add : Bool) => ({ u with
      held := holdInto ⟨0x38 + h.src, 30, 0, 0, none, none, false, some (h.src, h.stream, h.tag), [], some (m, add, v % 2 ^ 32), h.passed⟩ u.held } : State)
    (s.Hears h 2 [] t →
      (u.markCause m false = 0 → u.behind h.src h.stream h.tag = false → h.passed = [] → exec (.axMsignal h m v false) s = .next
        ((u.signalMark m v).ackSend h.src h.stream h.tag)) ∧
      (u.markCause m false = 0 → u.behind h.src h.stream h.tag = true ∨ h.passed ≠ [] → exec (.axMsignal h m v false) s = .next (waits false)) ∧
      (u.markCause m false ≠ 0 → exec (.axMsignal h m v false) s = .next (u.nack h.src h.stream h.tag (u.markCause m false) m))) ∧
    (s.Hears h 3 [] t →
      (u.markCause m true = 0 → u.behind h.src h.stream h.tag = false → h.passed = [] → exec (.axMadd h m v false) s = .next
        ((u.addMark m (v % 2 ^ 32)).ackSend h.src h.stream h.tag)) ∧
      (u.markCause m true = 0 → u.behind h.src h.stream h.tag = true ∨ h.passed ≠ [] → exec (.axMadd h m v false) s = .next (waits true)) ∧
      (u.markCause m true ≠ 0 → exec (.axMadd h m v false) s = .next (u.nack h.src h.stream h.tag (u.markCause m true) m)))) ∧
  (∀ (h : AxHead) (addr kib : Nat) (s t : State), let u := t.fresher h.src h.stream
    (s.Hears h 4 [] t →
      (kib = 0 ∨ 64 < kib → exec (.axCreditReq h addr kib false) s = .next (u.nack h.src h.stream h.tag 5 (addr / 0x10000))) ∧
      (1 ≤ kib → kib ≤ 64 → u.landingAt addr = none → exec (.axCreditReq h addr kib false) s = .next
        (u.nack h.src h.stream h.tag 1 (addr / 0x10000))) ∧
      (1 ≤ kib → kib ≤ 64 → ∀ p, u.landingAt addr = some p →
        (u.pclRights p (0x38 + h.src) true = false → exec (.axCreditReq h addr kib false) s = .next
          (u.nack h.src h.stream h.tag 2 (addr / 0x10000))) ∧
        (u.pclRights p (0x38 + h.src) true = true → exec (.axCreditReq h addr kib false) s = .next
          (({ u with rwaits := u.rwaits ++ [⟨h.src, h.stream, p, kib, addr, h.tag⟩] } : State).grantWaits p (u.rwaits.length + 1))))) ∧
    (s.Hears h 6 [] t →
      (kib = 0 ∨ 64 < kib → exec (.axCreditReturn h addr kib false) s = .next (u.nack h.src h.stream h.tag 5 (addr / 0x10000))) ∧
      (1 ≤ kib → kib ≤ 64 → u.landingAt addr = none → exec (.axCreditReturn h addr kib false) s = .next
        (u.nack h.src h.stream h.tag 1 (addr / 0x10000))) ∧
      (1 ≤ kib → kib ≤ 64 → ∀ p, u.landingAt addr = some p → let k := min kib (u.grantedTo h.src h.stream p)
        let v := (({ u with rgrants := takeGrants h.src h.stream p k u.rgrants } : State).untakeCredits p k).grantSync
        (u.behind h.src h.stream h.tag = false → h.passed = [] → exec (.axCreditReturn h addr kib false) s = .next (v.ackSend h.src h.stream h.tag)) ∧
        (u.behind h.src h.stream h.tag = true ∨ h.passed ≠ [] → exec (.axCreditReturn h addr kib false) s = .next ({ u with
          held := holdInto ⟨0x38 + h.src, 30, 0, 0, none, none, false, some (h.src, h.stream, h.tag), [(p, kib)], none, h.passed⟩ u.held } : State)))) ∧
    (s.Hears h 5 [] t → ∀ c, t.requestOf h.src h.stream h.tag addr kib = some c →
      (c.dead = false → exec (.axCreditGrant h addr kib) s = .next
        (({ t with rchunks := updFirst (· = c) (fun d => { d with stage := 2, left := kib }) t.rchunks } : State).grantSync)) ∧
      (c.dead = true → exec (.axCreditGrant h addr kib) s = .next
        (({ t with rchunks := t.rchunks.erase c } : State).transact 6 h.src h.stream none c.unit c.idx [c.addr, kib] [])))) ∧
  (∀ (h : AxHead) (tag cause : Nat) (s t : State),
    (s.Hears h 7 [] t →
      (t.rtx.any (fun x => x.pos = h.src && x.stream = h.stream && x.tag = tag) = false → exec (.axAck h tag) s = .next t) ∧
      (t.rtx.any (fun x => x.pos = h.src && x.stream = h.stream && x.tag = tag) = true → ∀ done keep, splitAck h.src h.stream tag t.rtx = (done, keep) →
        exec (.axAck h tag) s = .next (((done.filterMap (·.ctx)).eraseDups).foldl (fun q x => (q.resume x).dcSync x)
          (done.foldl (fun (q : State) (t : RemTx) => let q := q.remoteCall t OK
            match t.ctx with
            | some x => if t.kind = 2 || t.kind = 3 then q.updRun x fun r => { r with markDone := true } else q
            | none => q) ({ t with rtx := keep } : State))))) ∧
    (s.Hears h 8 [] t → let u := t.countF (uAX h.port) 0x12C 15 0 1
      ∀ e x, u.rtx.find? (fun t => t.pos = h.src && t.stream = h.stream && t.tag = tag) = some e → e.ctx = some x →
      exec (.axNack h tag cause) s = .next (({ u with rtx := u.rtx.erase e } : State).remoteFail x fREMOTE_DENIED e.idx)) ∧
    (s.Hears h 8 [] t → let u := t.countF (uAX h.port) 0x12C 15 0 1
      ∀ e, u.rtx.find? (fun t => t.pos = h.src && t.stream = h.stream && t.tag = tag) = some e → e.ctx = none →
      exec (.axNack h tag cause) s = .next (({ u with rtx := u.rtx.erase e } : State).remoteCall e REFUSED [w32 cause]))) ∧
  (∀ (pos stream tag : Nat) (t : RemTx) (s : State),
    s.rtx.find? (fun t => t.pos = pos && t.stream = stream && t.tag = tag) = some t →
    (s.gauge.ticks - t.sent < 500 * s.fld uRing 0x20C 15 0 ∨ s.hopAlive pos stream = false → exec (.linkAckTimeout pos stream tag) s = .next s) ∧
    (500 * s.fld uRing 0x20C 15 0 ≤ s.gauge.ticks - t.sent → s.hopAlive pos stream = true →
      let u := ({ s with rtx := s.rtx.erase t } : State).remoteCall t REFUSED
      (t.ctx = none → exec (.linkAckTimeout pos stream tag) s = .next u) ∧
      (∀ x, t.ctx = some x → exec (.linkAckTimeout pos stream tag) s = .next
        (if ∃ r, u.run x = some r ∧ r.ended = false then (u.count uRing 0x260 1).remoteFail x fLINK_TIMEOUT t.idx else u)))) ∧
  (∀ (h : AxHead) (m v : Nat) (late : Bool) (s : State), h.port < 4 →
    let i := h.port
    let set := h.cls % 4
    ∀ u, (s.taken h 2 [] = (u, none) → exec (.axMsignal h m v late) s = .next u) ∧
    (∀ first, s.taken h 2 [] = (u, some first) →
      (u.exists? uRing = false → exec (.axMsignal h m v late) s = .next (u.freeBuf i set (b2n first))) ∧
      (u.exists? uRing = true → h.dst ≠ u.ringPos →
        (u.reaches h.dst = true → exec (.axMsignal h m v late) s = .next
          (u.ringSend ⟨2, h.dst, h.src, h.stream, h.tag, [m, v]⟩ [] (some (i, set, first)))) ∧
        (u.reaches h.dst = false → exec (.axMsignal h m v late) s = .next (u.freeBuf i set (b2n first))))))

/-- Links and rings of Axfer (R300–R305, R308, R312, R313, R315–R317, R518): a bad flit asks once for a replay, a CTL flit frees what it acknowledges, training ends
at the widest width its lanes allow, a port idles, wakes and goes down, a ring forms when every position has been seen, routes
avoid a lost hop, and the ring is dissolved when nothing keeps it. -/
def Obligations.RingLinks : Prop :=
  (∀ (i lanes : Nat) (again : Bool) (came : List (Nat × Nat)) (s : State), i < 4 → let s0 := s.flitsCame i came
    let t := (setIndices 8 lanes).foldl (fun s k => s.countF (uAX i) 0x118 (4 * k + 3) (4 * k) 1) ((s0.injected (uAX i) 2).1.count (uAX i) 0x10C 1)
    let l := t.link i
    (l.drop = true → again = false → exec (.axFlitCrcError i lanes again came) s = .next t) ∧
    (l.drop = false ∨ again = true → exec (.axFlitCrcError i lanes again came) s = .next
      (((t.setLink i { l with drop := true, cmdSeq := none }).count (uAX i) 0x110 1).ctlSend i (some l.rxSeq)))) ∧
  (∀ (i ack lanes width id npos pos fp : Nat) (bufs : List Nat) (nak : Option Nat) (formed twice : Bool) (seen : List Nat) (s : State), i < 4 →
    s.ring.form = none → let l := s.link i
    let u := (s.setLink i { l with freed := (List.range 4).map fun k => nth bufs k (nth l.freed k 0) }).ackIn i ack
    let t := (u.setFlag (uAX i) 0x100 15 (npos != 0)).setFld (uAX i) 0x100 14 12 pos
    u.ring.form = none →
    (nak = none → exec (.axCtlFlit i ack bufs nak lanes width id npos pos formed twice fp seen) s = .next (t.pump i (t.link i).fuel)) ∧
    (∀ q, nak = some q → exec (.axCtlFlit i ack bufs nak lanes width id npos pos formed twice fp seen) s = .next (t.replayAsk i q))) ∧
  (∀ (i good rtt : Nat) (s : State), i < 4 → s.flag (uAX i) 0x104 0 = true → s.axState i = 1 ∨ s.axState i = 5 →
    let g := s.goodLanes i good
    let s := s.setLink i { s.link i with bad := s.badLanes i }
    let s := if (s.link i).re || s.axState i = 5 then s.countF (uAX i) 0x114 15 0 1 else s
    (g.length < 4 → exec (.retrainDone i good rtt) s = .next (s.portLost i 1)) ∧
    (4 ≤ g.length → let w := if 8 ≤ g.length then 8 else if 6 ≤ g.length then 6 else 4
      let mask := (g.take w).foldl (fun a k => a + 2 ^ k) 0
      let t := ((s.setAxState i 2).setFld (uAX i) 0x100 28 25 w).setFld (uAX i) 0x100 24 17 mask
      let t := ((t.wr (uAX i) 0x108 (w32 (rtt % 65536))).wr (uAX i) 0x118 0).calApply (calKeyOf (uAX i) 5)
      let t := t.setLink i { t.link i with re := false, drop := false, cmdSeq := none, nakN := 0 }
      (t.link i).replay = [] → exec (.retrainDone i good rtt) s = .next (((t.pump i (t.link i).fuel).ctlSend i none).wakeCalls))) ∧
  (∀ (port hop cause : Nat) (s : State),
    (port < 4 → exec (.hopDown port hop cause) s = .next (s.portLost port cause)) ∧
    (4 ≤ port → s.exists? uRing = true → s.ring.lost.contains hop = true → exec (.hopDown port hop cause) s = .next s) ∧
    (4 ≤ port → exec (.hopDown port hop cause) s = .next (s.hopLost hop)) ∧
    (port < 4 → s.axState port = 2 → s.fld (uAX port) 0x104 23 16 ≠ 0 → exec (.axIdleEntry port) s = .next (s.setFld (uAX port) 0x100 31 29 3)) ∧
    (port < 4 → s.flag (uAX port) 0x104 3 = true → s.axState port = 3 →
      exec (.wakePatternDetect port) s = .next (((s.setFld (uAX port) 0x100 31 29 5).emit .axWake port []).wake 6 (uAX port)))) ∧
  (∀ s : State, s.exists? uRing = true → s.ring.lost ≠ [] → let t := s.setRoutes.count uRing 0x264 1
    (∀ p, p < 8 → t.route p ≠ 3) → (∀ i, i < 4 → (t.ringSync.link i).wait = []) → Gives .rerouteDone s fun v =>
      { v with links := t.ringSync.links } = t.ringSync ∧ ∀ i, v.link i = t.ringSync.link i) ∧
  (∀ (bonds id n p bond first count : Nat) (s : State), s.ring.form = some [id, n, p, bond, first, count] →
    ((s.ring.upOk && s.ring.downOk && (List.range n).all fun k => s.ring.seen.any (·.1 = k)) = false → exec (.ringFormed bonds) s = .next s) ∧
    ((s.ring.upOk && s.ring.downOk && (List.range n).all fun k => s.ring.seen.any (·.1 = k)) = true →
      let t : State := { s with
        regs := s.regs.filter fun e => e.1 / 0x10000 != uRing
        ring := ⟨none, s.ring.seen, false, false, [], false, List.replicate n 0⟩
        rbad := []
        rstuck := [] }
      let t := (t.wr uRing 0x200 (w32 (id * 2 ^ 16 + n * 2 ^ 8 + p))).wr uRing 0x208 (w32 (count * 2 ^ 16 + first))
      let t := s.ring.seen.foldl (fun s e => (s.wr uRing (0x210 + 8 * e.1) (w32 e.2)).wr uRing (0x214 + 8 * e.1) (w32 (e.2 / 2 ^ 32))) t
      let t := (t.setUcb uRing 7 (w32 (n * 2 ^ 24))).setUcb uRing 8 (w32 (2 ^ n - 1))
      (t.part.grade1640 = true → exec (.ringFormed bonds) s = .next (t.setRoutes.finish 0x0400 0 OK)) ∧
      (t.part.grade1640 = false →
        let on := fun (k : Nat) (s : State) => s.flag (uAX (2 + k)) 0x104 2 && bonds / 2 ^ k % 2 = 1
        let t := (t.setFlag (uAX 2) 0x104 2 (bond = 1)).setFlag (uAX 3) 0x104 2 (bond = 1)
        let v := (t.setFlag (uAX 0) 0x100 16 (on 0 t)).setFlag (uAX 2) 0x100 16 (on 0 t)
        exec (.ringFormed bonds) s = .next ((((v.setFlag (uAX 1) 0x100 16 (on 1 v)).setFlag (uAX 3) 0x100 16 (on 1 v)).setRoutes).finish
          0x0400 0 OK)))) ∧
  (∀ (ini : Nat) (args : List Word) (s : State), let n := arg args
    (n 0 ≤ 0xFFFF → 2 ≤ n 1 → n 1 ≤ 8 → n 2 < n 1 → n 3 = 0 → n 4 ≤ 0xFFFF → n 5 ≤ 0xFFFF → n 4 + n 5 ≤ 65536 →
      s.claimed (uAX 0) = false → s.claimed (uAX 1) = false →
      (∀ k, k < 2 → s.exists? (uAX (2 + k)) = true → s.claimed (uAX (2 + k)) = true → s.flag (uAX (2 + k)) 0x104 2 = false) →
      (s.exists? uRing = true ∨ s.ring.form.isSome = true → exec (.formRing ini args) s = .next (s.ret RING_BUSY)) ∧
      (s.exists? uRing = false → s.ring.form = none → let ports := (List.range 2).filter fun i => s.flag (uAX i) 0x104 0
        let t := ports.foldl (fun s i => if s.axState i = 0 || s.axState i = 4 then s.setAxState i 1 else s) s
        let t : State := { t with ring := ⟨some [n 0, n 1, n 2, n 3, n 4, n 5], [(n 2, t.fingerprint t.sbActive)], false, false, [], false, []⟩ }
        exec (.formRing ini args) s = .next ((ports.foldl (fun s i => if s.axState i = 2 then s.ctlSend i none else s) t).retPending 0x0400 0))) ∧
    (s.Changeable uRing →
      (s.callWaits 0x0401 0 = true → exec (.dissolveRing ini args) s = .next (s.ret UNIT_BUSY)) ∧
      (s.callWaits 0x0401 0 = false → s.ringQuiet = true → exec (.dissolveRing ini args) s = .next (s.ringGone.ret OK)) ∧
      (s.callWaits 0x0401 0 = false → s.ringQuiet = false → exec (.dissolveRing ini args) s = .next
        (({ s with ring := { s.ring with dissolving := true } } : State).retPending 0x0401 0)) ∧
      (n 0 ≤ 0xFFFF → n 1 ≤ 0xFFFF → n 0 + n 1 ≤ 65536 → 10 ≤ n 2 → n 2 ≤ 60000 → s.ring.dissolving = false →
        exec (.setRingLimits ini args) s = .next (((s.wr uRing 0x208 (w32 (n 1 * 2 ^ 16 + n 0))).wr uRing 0x20C (w32 (n 2))).ret OK))) ∧
    (s.ring.dissolving = true → s.ringQuiet = true → exec .ringDissolved s = .next (s.ringGone.finish 0x0401 0 OK)) ∧
    (s.Changeable (n 0) → unitClass (n 0) = some .ax → s.axCfgOk (n 0 - 0xE0) (n 1) (n 2) (n 3) (n 4) (n 5) = true →
      exec (.configurePort ini args) s = .next ((s.axCfg (n 0 - 0xE0) (n 1) (n 2) (n 3) (n 4) (n 5)).ret OK)) ∧
    (1 ≤ n 0 → n 0 ≤ 15 →
      ((∃ i ∈ setIndices 4 (n 0), s.exists? (uAX i) = false) → exec (.sendWake ini args) s = .next (s.ret NO_UNIT)) ∧
      ((∀ i ∈ setIndices 4 (n 0), s.exists? (uAX i) = true ∧ s.claimed (uAX i) = false) →
        (s.pendCalls.any fun c => c.num = 0x0405 && c.fin.isNone && c.key &&& n 0 != 0) = false →
        let t := (setIndices 4 (n 0)).foldl (fun s i => s.portWake i) s
        ((setIndices 4 (n 0)).all (fun i => t.axState i = 2) = true → exec (.sendWake ini args) s = .next (t.ret OK)) ∧
        ((setIndices 4 (n 0)).all (fun i => t.axState i = 2) = false → exec (.sendWake ini args) s = .next (t.retPending 0x0405 (n 0))))) ∧
    (s.exists? uRing = true → n 0 < s.ringNpos → n 0 ≠ s.ringPos → n 1 ≤ 0xFFFF → n 2 ≤ 1 → s.windowOpen (n 0) = true →
      let tag := SMap.get (fun _ => 0) s.mpIni s.rtags
      exec (.remoteMarkOperation ini args) s = .next ((s.transact (2 + n 2) (n 0) s.mpIni none 9 0 [n 1, n 3] []).retPending 0x040A
        (remoteKey (n 0) s.mpIni tag))))

/-- The Vats (R320–R325, R335–R350): a live stream is enabled by a descriptor that passes R320 and takes the newest complete frame; a batch job is
started, stopped, resumed and aborted; its decodes end, are deferred, time out or come back from host software; a batch whose writes
are made bumps its mark; the Cellar is laid out and emptied. -/
def Obligations.VatCommands : Prop :=
  (∀ (ini v w : Nat) (s : State), v < 2 → s.Admits ini (uVat v) 0x108 (w32 w) false →
    (bit (w32 w) 0 = false → exec (.liveEnableWrite ini v w) s = .next ((((s.wr (uVat v) 0x108 (w32 w)).setFlag (uVat v) 0x108 0 false)).vatSync v)) ∧
    (bit (w32 w) 0 = true → s.flag (uVat v) 0x108 0 = true → exec (.liveEnableWrite ini v w) s = .next (s.accError ini (regAddr (uVat v) 0x108) .check)) ∧
    (bit (w32 w) 0 = true → s.flag (uVat v) 0x108 0 = false → let a := (w32 w).toNat / 64 * 64 + 2 ^ 32 * s.fld (uVat v) 0x10C 15 0
      ∀ t d, s.vatDesc v a = (t, some d) →
      (∀ o, t.liveBad v d = some o → exec (.liveEnableWrite ini v w) s = .next (t.accError ini (regAddr (uVat v) 0x108) .check)) ∧
      (t.liveBad v d = none → let x := t.vat v
        let u := t.setVat v { x with live := { x.live with desc := d, next := 0, roiV := none, snap := none } }
        exec (.liveEnableWrite ini v w) s = .next ((((u.wr (uVat v) 0x108 (w32 (a % 2 ^ 32 + 1))).wr (uVat v) 0x10C (w32 (a / 2 ^ 32 % 2 ^ 16)))).vatSync
          v)))) ∧
  (∀ (v : Nat) (s : State), v < 2 → let x := s.vat v
    let g := dn x.live.desc
    let m := s.mark (g 0x14 2)
    let dist := (m + 2 ^ 32 - x.live.next % 2 ^ 32) % 2 ^ 32
    let n := x.live.next + dist - 1
    let u := (s.count (uVat v) 0x138 (dist - 1)).setVat v { x with live := { x.live with next := n + 1, frame := some n, wq := [], bad := false } }
    s.flag (uVat v) 0x108 0 = true → x.live.frame = none → s.ustate (uVat v) = 0 → m ≠ 0 → dist ≠ 0 → dist < 2 ^ 31 →
    ∀ t roi flags, u.roiSnap v = (t, 0, roi, flags) → ∀ w rows, t.vatRows v (g 0x0C 2 * (if g 0x10 1 / 16 = 8 then 2 else 1))
      ((List.range (g 0x10 1 % 16 * g 0x0E 2)).map fun k => (g 0 6 + n % (g 0x11 1 % 16 + 1) * g 8 4) + k * g 0x12 2) = (w, 0, rows) →
    let y := if g 0x16 2 = 0xFFFF then w else w.addMark (g 0x16 2) (g 8 4 / 1024 * (dist - 1 + 1))
    let px := rows.map fun r => (codesOf (g 0x10 1 / 16) (g 0x0C 2) r).map fun k => f32Enc (codeFlt (g 0x10 1 / 16) 0 k)
    ∀ wq clips, y.liveBursts x.live.desc n (dist - 1) roi flags (fun p y xx => nth (nth px (p * g 0x0E 2 + y) []) xx 0) = (wq, clips) →
    let z := y.count (uVat v) 0x14C clips
    exec (.liveFrameTake v) s = .next (((z.setVat v { z.vat v with live := { (z.vat v).live with wq := wq } }).liveDrain v).vatSync v)) ∧
  (∀ (v hs : Nat) (s : State), v < 2 → ((s.vat v).live.frame).isSome = true → let t := s.liveDrain v
    let x := t.vat v
    (x.live.wq ≠ [] → exec (.liveFrameDone v hs) s = .next (t.vatSync v)) ∧
    (x.live.wq = [] → x.live.bad = false → let u := t.setVat v { x with live := { x.live with frame := none, bad := false } }
      exec (.liveFrameDone v hs) s = .next ((((((u.markAfter (vatIni v) 0 0x10000000 (dn x.live.desc 0x22 2) true 1).count (uVat v) 0x134 1).wr (uVat v) 0x164 (w32 (cap32 hs)))).maxTo (uVat v)
        0x168 (cap32 hs)).vatSync v))) ∧
  (∀ (ini v : Nat) (s : State), v < 2 → let a := regAddr (uVat v) 0x118
    (s.Admits ini (uVat v) 0x118 (w32 1) false →
      (s.jobOn v = true ∨ s.ustate (uVat v) ≠ 0 → exec (.jobCtlStart ini v) s = .next (s.accError ini a .check)) ∧
      (s.jobOn v = false → s.ustate (uVat v) = 0 → ∀ t bad, s.jobStart v (s.fld (uVat v) 0x110 31 6 * 64 + 2 ^ 32 * s.fld (uVat v) 0x114 15 0) = (t, bad) →
        exec (.jobCtlStart ini v) s = .next (if bad.isNone then t.jobGo v else t))) ∧
    (s.Admits ini (uVat v) 0x118 (w32 2) false → s.jobOn v = true →
      exec (.jobCtlStop ini v) s = .next ((s.setJob v fun j => { j with stopping := true }).vatSync v)) ∧
    (s.Admits ini (uVat v) 0x118 (w32 3) false → s.jobStalled v = true →
      exec (.jobCtlResume ini v) s = .next ((s.setJob v fun j => { j with stall := false }).jobGo v)) ∧
    (s.Admits ini (uVat v) 0x118 (w32 4) false → s.jobOn v = true → exec (.jobCtlAbort ini v) s = .next (s.jobEnd v 0 0))) ∧
  (∀ (v i pos ns done : Nat) (raw : List Byte) (s : State), v < 2 →
    (i < 4 → ∀ d, (s.vat v).decs.find? (fun d => d.src = i && !d.done) = some d → exec (.sampleDecodeDone v i ns) s = .next (s.decodeEnd v d ns d.res)) ∧
    (∀ j, (s.vat v).job = some j → s.vatSb v = false → j.closed = false → ((s.vat v).decs.filter (·.deferred)).length < 3 →
      (s.vat v).decs.any (fun d => d.pos = j.due && !d.done && !d.deferred) = true →
      exec (.decodeDeferTimeout v) s = .next (((((s.updDec v (·.pos = j.due) fun d => { d with deferred := true }).skip v j.due cDEFERRED).setJob v
        fun j => { j with due := j.due + 1 }).jobGo v))) ∧
    (∀ d, (s.vat v).decs.find? (fun d => d.pos = pos && !d.done) = some d → s.vatSb v = true → d.res.du < s.vatHard v →
      exec (.decodeHardLimit v pos) s = .next s) ∧
    (∀ d, (s.vat v).decs.find? (fun d => d.pos = pos && !d.done) = some d →
      (s.vatSb v = false ∨ ((∃ j, (s.vat v).job = some j ∧ j.due = pos) ∧ s.vatHard v ≤ d.res.du)) →
      exec (.decodeHardLimit v pos) s = .next ((s.updDec v (·.pos = pos) fun d => { d with done := true, res := .bad cTIMEOUT d.res.du }).jobGo v)) ∧
    (∀ d, (s.vat v).decs.find? (fun d => d.src = 4 && d.pos = pos && !d.done) = some d →
      (done = 1 → (decodeRaw raw).cause = 0 → 32 + (decodeRaw raw).img.raw.length ≤ s.cellarSize v →
        exec (.hostDecodeDone v pos done ns raw) s = .next ((s.count (uVat v) 0x148 1).decodeEnd v d ns ⟨0, (decodeRaw raw).img, 0⟩)) ∧
      (done = 1 → (decodeRaw raw).cause ≠ 0 → exec (.hostDecodeDone v pos done ns raw) s = .next
        ((s.count (uVat v) 0x148 1).decodeEnd v d ns (.bad cHOST 0))) ∧
      (done = 2 → exec (.hostDecodeDone v pos done ns raw) s = .next (s.decodeEnd v d ns (.bad cHOST 0)))) ∧
    (s.jobStalled v = false → exec (.vatFetchTimeoutExpiry v) s = .next (s.jobEnd v fVAT_FETCH_TIMEOUT 0)) ∧
    (let t := s.jobDrain v
    ∀ j, (t.vat v).job = some j →
      (j.closed = false ∨ j.wq ≠ [] → exec (.batchDone v) s = .next (t.vatSync v)) ∧
      (j.closed = true → j.wq = [] → j.last = true ∨ j.stopping = true →
        exec (.batchDone v) s = .next (((t.markAfter (vatIni v) 0 0x10000000 (j.n 0x48 2) true 1).setJob v fun j => { j with made := j.made + 1 }).jobEnd v 0 0)))) ∧
  (∀ (ini v : Nat) (args : List Word) (s : State), arg args 0 = 0x90 + v → s.VatOpen ini v → let n := arg args
    let a := argAddr args 1
    (n 3 = 0 → exec (.setLiveStream ini args) s = .next (((s.setFlag (uVat v) 0x108 0 false).vatSync v).ret OK)) ∧
    (n 3 = 1 → s.flag (uVat v) 0x108 0 = true → exec (.setLiveStream ini args) s = .next (s.ret VAT_BUSY)) ∧
    (n 3 = 1 → s.flag (uVat v) 0x108 0 = false → a % 64 = 0 → ∀ t o, s.liveOn v a = (t, o) →
      exec (.setLiveStream ini args) s = .next (match o with | none => t.ret OK | some o => t.ret RANGE [w32 o])) ∧
    (s.jobOn v = true → exec (.startBatchJob ini args) s = .next (s.ret VAT_BUSY)) ∧
    (n 1 ≤ 1 → s.jobOn v = false → exec (.stopOrAbortJob ini args) s = .next (s.ret OK)) ∧
    (n 1 = 0 → s.jobOn v = true → s.callWaits 0x0503 v = true → exec (.stopOrAbortJob ini args) s = .next (s.ret UNIT_BUSY)) ∧
    (n 1 = 0 → s.jobOn v = true → s.callWaits 0x0503 v = false → exec (.stopOrAbortJob ini args) s = .next (((s.setJob v fun j => { j with stopping := true }).vatSync v).retPending 0x0503
      v)) ∧
    (n 1 = 1 → s.jobOn v = true → exec (.stopOrAbortJob ini args) s = .next ((s.jobEnd v 0 0).ret OK)) ∧
    (n 1 ≤ 1 → s.jobStalled v = false → exec (.resolveJobStall ini args) s = .next (s.ret NO_STALL)) ∧
    (n 1 = 0 → s.jobStalled v = true → exec (.resolveJobStall ini args) s = .next (((s.setJob v fun j => { j with stall := false }).jobGo v).ret OK)) ∧
    (n 1 = 1 → s.jobStalled v = true → exec (.resolveJobStall ini args) s = .next ((s.jobEnd v 0 0).ret OK)) ∧
    (a % 0x10000 = 0 → 1 ≤ n 3 → n 3 ≤ 256 → n 4 < 2 ^ 24 → n 5 ≤ 1 → cellarFits s.part a (n 3 * 0x10000) (n 4) = true → s.jobOn v = false →
      exec (.configureCellar ini args) s = .next (((((((s.wr (uVat v) 0x11C (w32 (a % 2 ^ 32))).wr (uVat v) 0x120 (w32 (a / 2 ^ 32 % 2 ^ 16))).wr (uVat v) 0x124
        (w32 ((n 3 - 1) * 2 ^ 24 + n 4))).setFlag (uVat v) 0x104 0 (n 5 = 1)).retPending 0x0505 v).cellarDrop v none).finish 0x0505 v OK)) ∧
    exec (.invalidateCellar ini args) s = .next (((s.retPending 0x0506 v).cellarDrop v (if n 1 = 0xFFFFFFFF then none else some (n 1))).finish 0x0506 v OK) ∧
    (2 ≤ n 1 → n 1 < n 2 → n 2 ≤ 1000 → 1 ≤ n 3 → n 3 ≤ 10 ^ 9 → 1 ≤ n 4 → 1 ≤ n 5 → n 5 ≤ 60000 →
      exec (.setSlowDecodeLimits ini args) s = .next ((((((s.wr (uVat v) 0x154 (w32 (n 2 * 2 ^ 16 + n 1))).wr (uVat v) 0x158 (w32 (n 3))).wr (uVat v) 0x15C
        (w32 (n 4))).wr (uVat v) 0x160 (w32 (n 5))).vatSync v).ret OK)) ∧
    (n 1 = 0 → exec (.setSharedDecode ini args) s = .next ((s.setFlag (uVat v) 0x104 1 false).ret OK)) ∧
    (n 1 = 1 → s.part.grade1640 = true ∨ s.sbEn = true ∨ s.sbActive = true → exec (.setSharedDecode ini args) s = .next (s.ret NO_SHARED)) ∧
    (n 1 = 1 → s.part.grade1640 = false → s.sbEn = false → s.sbActive = false →
      exec (.setSharedDecode ini args) s = .next ((s.setFlag (uVat v) 0x104 1 true).ret OK))) ∧
  (∀ (ini v : Nat) (args : List Word) (s : State), arg args 0 = 0x90 + v → unitClass (0x90 + v) = some .vat →
    s.exists? (0x90 + v) = true → s.jobOn v = false → let a := argAddr args 1
    let own := s.fwAllows ini (regAddr (uVat v) 0) true = true ∨
      ∃ d, (s.vatDesc v a).2 = some d ∧ s.clientOf ini = some (dn d 0x4A 2 % 4096)
    (¬own → exec (.startBatchJob ini args) s = .next (s.ret DENIED)) ∧
    (own → s.claimed (0x90 + v) = true → exec (.startBatchJob ini args) s = .next (s.ret CLAIMED)) ∧
    (own → s.claimed (0x90 + v) = false → a % 64 = 0 → s.ustate (uVat v) = 0 → ∀ t, s.jobStart v a = (t, none) →
      exec (.startBatchJob ini args) s = .next ((t.retPending 0x0502 v).jobGo v)) ∧
    (own → s.claimed (0x90 + v) = false → a % 64 = 0 → s.ustate (uVat v) ≠ 0 → Gives (.startBatchJob ini args) s fun t =>
      ∃ w, t = { s with free := t.free }.ret REFUSED [w])) ∧
  (∀ (ini : Nat) (args : List Word) (s : State), 4 ≤ args.length → let entry := (args.take 4).flatMap fun w => natBytes 4 w.toNat
    let n := dn entry 8 4
    ∀ t l, s.callRead ini (dn entry 0 6) (pagesFor n) n = (t, .ok, l) →
    let d := if bit (nth entry 6 (0 : Byte)) 4 && crc32 l != dn entry 12 4 then Decoded.bad cCRC 0 else decodeSample (dn entry 6 1 % 16) l
    (d.cause ≠ 0 → exec (.referenceDecode ini args) s = .next (t.ret REFUSED [w32 d.cause])) ∧
    (d.cause = 0 → ∀ u, t.callWrite ini (argAddr args 4) (pagesFor d.img.raw.length) d.img.raw = (u, .ok) →
      exec (.referenceDecode ini args) s = .next (u.ret OK [w32 d.du])))

/-- The Press (R353–R379): a frame's start, lines, embedded line and end act on the pipeline that its stream names, packets no stream
binds are counted; streams are bound or refused; descriptors, starts, stops and parameter sets; sensor writes are retried once;
late frames; a stream moves, or is left unbound; the calls of the Press. -/
def Obligations.PressCommands : Prop :=
  (∀ (l vc : Nat) (s : State), l < 8 → vc < 16 → s.flag (uCL l) 0x100 31 = true →
    (∀ ps rate, exec (.csi2FrameStart l vc 2) s = .next (s.countF (uCL l) 0x118 31 16 1) ∧
      exec (.csi2FrameEnd l vc 2 ps rate) s = .next (s.countF (uCL l) 0x118 31 16 1)) ∧
    (∀ hdr, hdr ≠ 2 → let t := (if hdr = 1 then s.countF (uCL l) 0x118 15 0 1 else s).linkSees l vc
      t.streamOf l vc = none → exec (.csi2FrameStart l vc hdr) s = .next (t.count (uCL l) 0x128 1) ∧
        ∀ ps rate, exec (.csi2FrameEnd l vc hdr ps rate) s = .next (t.count (uCL l) 0x128 1)) ∧
    (∀ hdr i, hdr ≠ 2 → let t := (if hdr = 1 then s.countF (uCL l) 0x118 15 0 1 else s).linkSees l vc
      t.streamOf l vc = some i → let p := streamPipe (t.stream l i)
      let x := t.pp p
      (x.inFrame = false → t.ppClosed p = true → exec (.csi2FrameStart l vc hdr) s = .next (if x.run < 2 then t
        else ((t.setPp p { x with n := (x.n + 1) % 2 ^ 32, lost := min (x.lost + 1) 255, inFrame := false }).countF (uPP p) 0x230 31 16
          1).ppSync p)) ∧
      (x.inFrame = false → t.ppClosed p = false → x.run = 0 → exec (.csi2FrameStart l vc hdr) s =
        .next (t.setPp p { x with
          inFrame := true, drained := false, blank := match x.endNs with | some e => some (t.nowNs - e) | none => x.blank })) ∧
      (x.inFrame = false → t.ppClosed p = false → x.run = 2 → x.pend = none → let y : PpX := { x with
            inFrame := true, blank := (match x.endNs with | some e => some (t.nowNs - e) | none => x.blank), drained := false
            n := (x.n + 1) % 2 ^ 32, draw := t.free, ns := t.gaugeNs, sec := t.gaugeS, got := 0, errs := 0, img := [], rows := []
            cnt := 0, ts := 0, emb := false, frz := if x.late then 8 else 0, late := false, seen := min 4 (x.seen + 1) }
        let u := ({ t with free := t.free + 1 } : State).setPp p y
        exec (.csi2FrameStart l vc hdr) s = .next ((((((u.applySets p).skips p).feedStart p).finish 0x0602 p OK).finish 0x0603 p
          OK).ppSync p)) ∧
      ∀ ps rate, let d := t.setPp p { x with drained := t.ppDrains p }
      let z := d.pp p
      (z.inFrame = false → exec (.csi2FrameEnd l vc hdr ps rate) s = .next ((d.stopEnd p).ppSync p)) ∧
      (z.inFrame = true → z.run ≠ 2 → exec (.csi2FrameEnd l vc hdr ps rate) s =
        .next (((d.setPp p { z with inFrame := false, endNs := some d.nowNs }).stopEnd p).ppSync p)) ∧
      (z.inFrame = true → z.run = 2 → d.ppDown p = true → exec (.csi2FrameEnd l vc hdr ps rate) s = .next ((((d.setPp p { z with
        inFrame := false, endNs := some d.nowNs, lost := min (z.lost + 1) 255, outs := (List.range 5).map z.closeOut }).countF (uPP p) 0x230 31 16
          1).stopEnd p).ppSync p)) ∧
      (z.inFrame = true → z.run = 2 → d.ppDown p = false → exec (.csi2FrameEnd l vc hdr ps rate) s =
        .next (((d.frameClose l p (if ppFrz z.desc then z.frameCauses else 0) ps rate).sendSets p).ppSync p))) ∧
    (∀ i, (s.linkSees l vc).streamOf l vc = some i → let t := s.linkSees l vc
      let p := streamPipe (t.stream l i)
      let x := t.pp p
      (∀ dt crc freed payload v, dt < 64 → streamDt (t.stream l i) = dt → crc16 payload = crc → t.injected (uCL l) 2 = (v, 0) →
        x.run = 2 → x.inFrame = true → t.ppDown p = false → x.got < ppH x.desc →
        (unpackLine dt (ppBits x.desc) payload).length = lineVals x.desc →
        exec (.csi2Line l vc dt 0 crc false payload freed) s = .next (v.ppLine p (unpackLine dt (ppBits x.desc) payload) freed)) ∧
      (∀ dt crc freed payload v k, dt < 64 → streamDt (t.stream l i) = dt → t.injected (uCL l) 2 = (v, k) → (crc16 payload ≠ crc ∨ k ≠ 0) →
        let u := v.count (uCL l) 0x11C 1
        let y := u.pp p
        y.run = 2 → y.inFrame = true → u.ppDown p = false → y.got < ppH y.desc →
        exec (.csi2Line l vc dt 0 crc false payload freed) s = .next (((u.setPp p { y with errs := y.errs + 1 }).count (uPP p) 0x234 1).ppLine p
          (if y.got = 0 then List.replicate (lineVals y.desc) 0 else (nth y.img (y.img.length - 1) (0, [])).2) freed)) ∧
      (∀ dt crc freed payload, dt < 64 → streamDt (t.stream l i) ≠ dt →
        exec (.csi2Line l vc dt 0 crc false payload freed) s = .next (t.count (uCL l) 0x128 1)) ∧
      (∀ crc payload, crc16 payload = crc → x.run = 2 → x.inFrame = true → t.ppDown p = false → x.emb = false → ppEmb x.desc = true →
        let c := dn payload (ppCntOff x.desc) (ppCntBytes x.desc)
        let m := dn payload (ppTsOff x.desc) (ppTsBytes x.desc)
        let k := if ppFrz x.desc then x.lineCauses c m else 0
        exec (.csi2EmbeddedLine l vc 0 crc payload) s = .next ((t.setPp p { x with
          emb := true, cnt := c, ts := m, cnt0 := some c, ts0 := some m, frz := x.frz ||| k }).frameFlag p x.n k)))) ∧
  (∀ (p : Nat) (s : State), p < 16 → let x := s.pp p
    (x.run = 2 → ppFrz x.desc = true → ppLateMs x.desc ≠ 0 →
      exec (.frameLateExpiry p) s = .next ((s.setPp p { x with late := true }).frameFlag p (x.n + 1) 8)) ∧
    (x.move = none → s.ustate (uPP p) ≠ 2 → s.ustate (ppPx p) ≠ 2 → (s.ppDrains p = false ∨ x.drained = false ∧ 2 ≤ x.run) →
      exec (.cameraMove p) s = .next s) ∧
    (x.move = none → s.ustate (uPP p) = 2 ∨ s.ustate (ppPx p) = 2 ∨ s.ppDrains p = true ∧ (x.drained = true ∨ x.run < 2) →
      ∀ l i, s.boundTo p = some (l, i) → x.inFrame = false →
        (s.candidate p = none → exec (.cameraMove p) s = .next (s.streamLost p l i { x with run := 0, inFrame := false, move := none })) ∧
        (∀ q, s.candidate p = some q → exec (.cameraMove p) s = .next (s.streamMoved p q l i { x with
          run := if 2 ≤ x.run then 3 else x.run
          inFrame := false, first := true, seen := 0, hist := [], flick := [], img := [], cnt0 := none, ts0 := none, lost := x.lost, move := none
          outs := (List.range 5).map x.closeOut })))) ∧
  (∀ (ini l i w : Nat) (s : State), l < 8 → i < 4 → s.Admits ini (uCL l) (0x108 + 4 * i) (w32 w) false → let c := s.streamBad l i (w32 w)
    (c = OK → exec (.clStreamWrite ini l i w) s = .next (s.setStream l i (w32 w))) ∧
    (c ≠ OK → exec (.clStreamWrite ini l i w) s = .next (s.accError ini (regAddr (uCL l) (0x108 + 4 * i))
      (if c = RANGE then .range else if c = NO_UNIT then .notEnabled else .check)))) ∧
  (∀ (ini p w : Nat) (s : State), p < 16 → let x := s.pp p
    (s.Admits ini (uPP p) 0x208 1 false → exec (.ppCtlLoad ini p) s =
      .next (s.ppLoad p (s.clientOf ini) (s.fld (uPP p) 0x200 31 6 * 64 + 2 ^ 32 * s.fld (uPP p) 0x204 15 0)).1) ∧
    (s.Admits ini (uPP p) 0x208 2 false → x.desc ≠ [] →
      exec (.ppCtlStart ini p) s = .next (((s.setPp p { x with run := if x.run = 0 then 1 else x.run, stopAt := false }).ppSync p).finish
        0x0603 (p + 16) REFUSED)) ∧
    (s.Admits ini (uPP p) 0x208 2 false → x.desc = [] → exec (.ppCtlStart ini p) s = .next (s.accError ini (regAddr (uPP p) 0x208) .check)) ∧
    (s.Admits ini (uPP p) 0x208 3 false → exec (.ppCtlStop ini p) s =
      .next ((s.setPp p { x with stopAt := x.run != 0 }).ppSync p)) ∧
    (s.Admits ini (uPP p) 0x208 4 false → exec (.ppCtlStopNow ini p) s = .next (s.stopNow p)) ∧
    (let v := setBit (w32 w) 31 true
     s.Admits ini (uPP p) 0x220 v false → ∀ t st, s.pushSet p (s.fld (uPP p) 0x21C 31 6 * 64 + 2 ^ 32 * bits v 15 0) = (t, st) →
       exec (.ppPsetGo ini p w) s = .next ((t.setResult p st).wr (uPP p) 0x224 (w32 (2 ^ 31 + st))))) ∧
  (∀ (m : Nat) (s : State) (j : SenJob) (r : List SenJob), m < 8 → s.jobsOf m = j :: r →
    (j.idx + 1 < setWrites j.set.data → exec (.sensorWriteDone m true) s =
      .next ((s.setJobs m ({ j with idx := j.idx + 1, retried := false } :: r)).sendWrite m)) ∧
    (¬j.idx + 1 < setWrites j.set.data → exec (.sensorWriteDone m true) s = .next (s.nextJob m)) ∧
    (j.retried = false → exec (.sensorWriteDone m false) s = .next ((s.setJobs m ({ j with retried := true } :: r)).sendWrite m) ∧
      exec (.clockStretchTimeout m) s = .next ((s.setJobs m ({ j with retried := true } :: r)).sendWrite m)) ∧
    (j.retried = true → exec (.sensorWriteDone m false) s = .next (((((s.updSet j.pp j.set.target fun q => { q with part := true }).ppEvent j.pp
      0x0011 j.set.id (setReg j.set.data j.idx)).countF (uPP j.pp) 0x240 15 0 1)).nextJob m))) ∧
  (∀ (ini p : Nat) (args : List Word) (s : State), arg args 0 = 0xA0 + p → s.PipeOpen ini p → let n := arg args
    let x := s.pp p
    (argAddr args 1 % 64 = 0 → s.callWaits 0x0602 p = true → exec (.loadDescriptor ini args) s = .next (s.ret UNIT_BUSY)) ∧
    (argAddr args 1 % 64 = 0 → s.callWaits 0x0602 p = false → ∀ t, s.ppLoad p (s.clientOf ini) (argAddr args 1) = (t, none) → (t.pp p).pend = none →
      exec (.loadDescriptor ini args) s = .next (t.ret OK)) ∧
    (argAddr args 1 % 64 = 0 → s.callWaits 0x0602 p = false → ∀ t o, s.ppLoad p (s.clientOf ini) (argAddr args 1) = (t, some (o, false)) →
      exec (.loadDescriptor ini args) s = .next (t.ret RANGE [w32 o])) ∧
    (n 1 = 4 → s.callWaits 0x0603 (p + 16) = true → exec (.startOrStopPipeline ini args) s = .next (s.ret UNIT_BUSY)) ∧
    (n 1 = 4 → s.callWaits 0x0603 (p + 16) = false → ((s.stopNow p).pp p).stopAt = false →
      exec (.startOrStopPipeline ini args) s = .next ((s.stopNow p).ret OK)) ∧
    (argAddr args 1 % 64 = 0 → ∀ t st, s.pushSet p (argAddr args 1) = (t, st) →
      exec (.pushParameterSet ini args) s = .next ((t.setResult p st).ret st)) ∧
    (n 1 ≤ 0xFFFF → exec (.setFlickerThreshold ini args) s = .next ((s.setPp p { x with thresh := n 1 }).ret OK)) ∧
    (n 1 = 0 ∨ n 1 = 1 ∧ s.boundTo p = none → exec (.setSpare ini args) s = .next ((s.wr (uPP p) 0x218 (w32 (n 1))).ret OK)) ∧
    (n 1 = 1 → (s.boundTo p).isSome = true → exec (.setSpare ini args) s = .next (s.ret PIPE_TAKEN))) ∧
  (∀ (ini l : Nat) (args : List Word) (s : State), arg args 0 = 0xB0 + l → unitClass (0xB0 + l) = some .cl → let n := arg args
    (let w := w32 (n 1)
     s.Changeable (0xB0 + l) → s.fwAllows ini (regAddr (0xB0 + l) 0) true = true → s.streamsClaimed l ((args.drop 2).take 4) = false →
      w.toNat &&& 0xEF00FFFF = w.toNat → s.clCfgBad l w = false →
      clCfgOk w = true → ∀ t c, s.setStreams l 0 ((args.drop 2).take 4) = (t, c) →
      exec (.configureLink ini args) s = .next (if c = OK then (t.setClCfg l w).ret OK else s.ret c)) ∧
    (∀ i, n 1 ≤ 15 → s.streamOf l (n 1) = some i → let p := streamPipe (s.stream l i)
      s.ppMay ini p true = true → s.claimed (0xB0 + l) = false → s.claimed (uPP p) = false →
      s.callWaits 0x0607 (l * 16 + n 1) = false → n 2 = 0xFF →
      (∀ k, s.candidate p = some k → s.claimed (uPP k) = false) →
      (s.candidate p = none → exec (.moveCamera ini args) s = .next (s.ret NO_FREE_PIPE)) ∧
      (s.candidate p ≠ none → exec (.moveCamera ini args) s =
        .next ((s.setPp p { s.pp p with move := some none }).retPending 0x0607 (l * 16 + n 1)))))

/-- The Warden's decisions (R421, R422, R425, R440, R442, R446, R451): a pass reads failing balls back, counts and posts every failure it handles and reacts to those of
enabled checks above REPORT, in SERVICE and RECOVERY alone; in RECOVERY, or at a reaction of SAFE, a fault leads to SAFE, a HOLD or FALLBACK in SERVICE to
RECOVERY; the active pair's failure without a synced standby leads from SERVICE and RECOVERY to SAFE at once; failing pairs, the watchdog, a ball that differs and an overrun task are found as failures. -/
def Obligations.WardenDecisions : Prop :=
  (∀ s : State, s.pairRuns = true → s.wd.toSafe = false → let fs := s.passFailures
    let t := fs.foldl (fun s f => s.noteFailure f) s.passTaken
    (t.wdState = 0 ∨ t.wdState = 3 ∨ t.wdState = 4 →
      exec .decisionPass s = .next (((t.setFlag uWarden 0x200 26 (t.wpRuns (1 - t.activePair))).setWdX fun x => { x with
        behind := false }).tryEnd)) ∧
    (t.wdState = 1 ∨ t.wdState = 2 → let u := t.react (fs.filter t.isFault)
      exec .decisionPass s = .next (((u.setFlag uWarden 0x200 26 (u.wpRuns (1 - u.activePair))).setWdX fun x => { x with
        behind := false }).tryEnd))) ∧
  (∀ s : State, (∀ e ∈ s.wd.failing, e.1 ≠ 0x17) → s.readBack = s) ∧
  (∀ (s : State) (f : WdReport) (r : List WdReport), let fs := f :: r
    ∃ top ∈ fs, (∀ g ∈ fs, s.checkReact g.check ≤ s.checkReact top.check) ∧
      let groups := fs.foldl (fun m f => m ||| s.checkGroups f) 0
      (s.wdState = 2 ∨ s.checkReact top.check = 3 → s.react fs = s.enterSafe top.check (checkUnit top)) ∧
      let t := (((s.wdGo 2 top.check (checkUnit top)).openRecovery).faultSeen groups).withhold
      (s.wdState ≠ 2 → s.checkReact top.check = 2 → s.react fs = t.wdFallback groups) ∧
      (s.wdState ≠ 2 → s.checkReact top.check = 1 →
        s.react fs = t.setWdX fun x => { x with holdG := x.holdG ||| groups, holdN := 0, holdCheck := top.check })) ∧
  (∀ s : State, s.react [] = s) ∧
  (∀ (p : Nat) (s : State), p < 2 → s.wpRuns p = true →
    let t := (s.recordFault fPROC_FAULT (uWP p) 0x4A noQueue 0 0 0 0 oNone)
    let u := (t.forceOut (uWP p)).setFlag uWarden 0x200 26 false
    (p ≠ u.activePair → exec (.pairFailure p) s = .next u) ∧
    (p = u.activePair → t.standbySynced = true →
      exec (.pairFailure p) s = .next (((u.setFld uWarden 0x200 27 27 (1 - p)).countF uWarden 0x23C 15 0 1).wdFind 0x16 (uWP p) 0)) ∧
    (p = u.activePair → t.standbySynced = false →
      exec (.pairFailure p) s = .next (((((u.hardSafe.unitEvent uMill).wdFind 0x16 (uWP p) 0).setWdX fun x => { x with
        behind := true }).hardToSafe).pairBack))) ∧
  (∀ s : State, exec .wardenWatchdogBite s =
    .next ((((s.countF uWarden 0x23C 31 16 1).hardSafe.unitEvent uMill).setWdX fun x => { x with toSafe := true }).pairBack)) ∧
  (∀ s : State, (s.pairRuns = true → s.wd.toSafe = true → s.pairBack = s.hardToSafe) ∧
    (s.pairRuns = false → s.wpRuns (1 - s.activePair) = false → s.pairBack = s) ∧
    (s.wdState = 1 ∨ s.wdState = 2 → ∃ c, s.hardToSafe = (s.fresh.2).enterSafe c uWarden) ∧
    (s.wdState ≠ 1 → s.wdState ≠ 2 → s.hardToSafe = s.setWdX fun x => { x with toSafe := false })) ∧
  (∀ (p : Nat) (s : State), p < 2 → exec (.pinFeedbackTimeout p) s =
    .next (((s.setFlag uWarden 0x254 (3 - p) (!s.flag uWarden 0x254 (1 - p))).startFailing 0x17 p).wdFind 0x17 p 0)) ∧
  (∀ (k : Nat) (s : State), k < 16 → (s.taskOpen k = true → exec (.taskDeadlineExpiry k) s = .next (s.wdFind 0x13 k 0)) ∧
    (s.taskOpen k = false → exec (.taskDeadlineExpiry k) s = .next s))

/-- The Warden's work (R427–R433, R436, R438, R452–R455): an announced set is read, acknowledged and judged; intervals that end without a
set, or without a release; rinds are compared; starters are checked; heartbeats are judged and answered; slices of self-test
start, pass, are repeated and fail; coverage windows end. -/
def Obligations.WardenWork : Prop :=
  (∀ s t : State, s.pairRuns = true → (s.takeWork 16) = (t, true) → let m := t.mark t.gateMark
    let d := (m + 2 ^ 32 - t.wd.lastIn) % 2 ^ 32
    d ≠ 0 → let u := t.setWdX fun x => { x with lastIn := m }
      ∀ v f bs, (if d = 1 then u else u.wdFind 4 0 0).polRead 0x49 t.gateAddr (4 * t.gateWords) = (v, f, bs) →
        (f ≠ 0 → exec .gateSetCheck s = .next v) ∧
        (f = 0 → exec .gateSetCheck s = .next ((v.addMark (v.fld uWarden 0x21C 31 16) 1).gateJudge (bytesWords bs)))) ∧
  (∀ (m v : Nat) (s : State), s.gateOn = true → s.gateMark = m → m ∈ s.wdTaps → v ≠ s.wd.lastIn →
    s.tapMark m v = (s.setWdX fun x => { x with intervals := x.intervals.map fun (_, r) => (true, r) }).wdReport 0 m v) ∧
  (∀ (s : State) (set : List Word), s.wdState = 1 ∨ s.wdState = 2 → s.wd.withheld = false →
    (∀ v w, (v, w) ∈ set.zipIdx → s.flag uWarden (envOff w + 12) 31 = true → s.envRangeOk w v = true ∧
      (s.wd.first = true ∨ f32NonFin v = true ∨ s.envRateOk w v (gateVal s.gateSet w) s.wd.gone = true)) →
    let t := s.setWdX fun x => { x with first := false, cleanG := x.cleanG.map fun n => n + 1 }
    s.gateJudge set = t.gateRelease set) ∧
  (∀ s : State, s.pairRuns = true → (s.wd.intervals = [] → exec .setDeadlineExpiry s = .next s) ∧
    ∀ got rel l, s.wd.intervals = (got, rel) :: l → let t := s.setWdX fun x => { x with intervals := l, withheld := false }
      let u := if got then t else t.wdFind 3 0 0
      (rel = true → exec .setDeadlineExpiry s = .next u) ∧
      (rel = false → exec .setDeadlineExpiry s = .next ((((u.countF uWarden 0x200 7 0 1).setWdX fun x => { x with holdN := x.holdN + 1, gone := x.gone + 1 }).escalate).millPulse 8))) ∧
  (∀ (e : Nat) (s t : State), e < 16 → s.pairRuns = true → s.takeWork e = (t, true) → ∀ u l, t.readRinds e (t.cmpMembers e) = (u, some l) →
    let v := ((u.count uWarden (cmpEOff e + 0x18) 1).wr uWarden (cmpEOff e + 0x14) (w32 (rindSeq (l.headD []))))
    v.gateOn = false → (u.rindsAgree e l = true → exec (.digestCompare e) s = .next v) ∧
      (u.rindsAgree e l = false → exec (.digestCompare e) s = .next (v.wdFind 5 e 0))) ∧
  (∀ (e : Nat) (s : State), e < 16 → s.wd.armed = true → s.flag uWarden (cmpEOff e + 4) 31 = true →
    exec (.digestPeriodExpiry e) s = .next (s.wdFind 6 e 0)) ∧
  (∀ (i : Nat) (s : State), i < 8 → s.pairRuns = true → ∀ f, (s.starterX i).done = some f →
    let t := (s.setStarterX i { s.starterX i with done := none }).count uWarden (starterOff i + 0x1C) 1
    ∀ u g b, t.polRead 0x49 (t.starterRind i) 64 = (u, g, b) →
      let expect := (List.range 8).flatMap fun k => natBytes 4 (u.rd uWarden (starterOff i + 0x20 + 4 * k)).toNat
      let good := f = 0 ∧ g = 0 ∧ b.take 32 = expect ∧ rindFlags b % 2 = 1 ∧ rindFlags b &&& (4 + 8 + 16 + 32) = 0
      (good → exec (.starterCheck i) s = .next u) ∧ (¬good → exec (.starterCheck i) s = .next (u.wdFind 7 i 0))) ∧
  (∀ (v : Nat) (s : State), s.pairRuns = true → let n := v / 2 ^ 16 % 2 ^ 16
    let bad := ((s.setFlag uWarden 0x200 24 false).startFailing 0x11 0 |>.setWdX fun x => { x with hbRun := 0 }).wdFind 0x11 0 0
    exec .hbTimeoutExpiry s = .next bad ∧
    (v % 2 ^ 16 + n ≠ 0xFFFF ∨ n ≠ (s.fld uWarden 0x228 31 16 + 1) % 2 ^ 16 → exec (.hbWordWrite v) s = .next bad) ∧
    (v % 2 ^ 16 + n = 0xFFFF → n = (s.fld uWarden 0x228 31 16 + 1) % 2 ^ 16 →
      let k := s.setFld uWarden 0x228 31 16 n
      let t := (if s.wd.armed then k.countF uWarden 0x228 15 0 1 else k).setWdX fun x => { x with hbRun := x.hbRun + 1 }
      let u := if 2 ≤ t.wd.hbRun then (t.setFlag uWarden 0x200 24 true).stopFailing 0x11 0 else t
      exec (.hbWordWrite v) s = .next ((u.wr wSdioF1 4 (w32 (n * 2 ^ 16 + u.fld uWarden 0x200 31 16))).supInt 2))) ∧
  (∀ (u : Nat) (s : State), (s.sliceMay u = true → exec (.sliceStart u) s = .next (s.setTestX u { s.testX u with running := true })) ∧
    (s.sliceMay u = false → exec (.sliceStart u) s = .next s) ∧
    ((s.testX u).running = true → let x := s.testX u
      ∀ t, (s.injectedBit u).injected u 1 = (t, 0) → let v := t.setTestX u { x with running := false }
      (x.failed = false → exec (.sliceDone u false) s = .next (v.setTestX u { x with running := false, failed := true })) ∧
      (x.failed = false → x.slice + 1 ≠ fullSlices u →
        exec (.sliceDone u true) s = .next (v.setTestX u { x with running := false, failed := false, slice := x.slice + 1 })) ∧
      (x.failed = true →
        let w := ((v.fullTestFail u).classifyByTest u false).recordFault fTEST_FAIL u 0x49 noQueue 0 0 x.slice 0 oLasting
        let y := w.forceOut u
        exec (.sliceDone u false) s = .next (((y.setHealthX u { y.healthX u with failed := true }).fltSync).wdFind 0x14 u 0)))) ∧
  (∀ s : State, (∀ u ∈ allUnits, isTested u = true → s.exists? u = true → s.inDebt u = false) →
    let us := allUnits.filter fun u => isTested u && s.exists? u
    let t := (us.foldl (fun (s : State) u => s.setTestX u { s.testX u with debt := 0 }) (s.setFld uWarden 0x234 7 0 0)).debtSync
    exec .debtWindowEnd s = .next { t with domOff := t.gradeDoms.filter fun d => !t.domOn d }) ∧
  (∀ s : State, 0 < s.fld uWarden 0x230 7 0 → ∀ u, (0x15, u) ∈ s.debtSync.wd.failing ↔ s.fld uWarden 0x230 7 0 ≤ (s.testX u).debt)

/-- The Warden's commands (R440, R441, R445, R450, R499): every initiator may force SAFE, the supervisor alone arms, releases, enters and leaves
TEST; each command moves the states as R440 says or is turned away; by WD_CMD, by SUP_CMD with its complement, by calls; FW_LOCK is set; the
supervisor's tasks; the pin test. -/
def Obligations.WardenCommands : Prop :=
  (∀ (ini a : Nat) (s : State),
    (a ≠ 2 → ini ≠ 0x180 → s.wdCommand ini a = (s, DENIED, 0)) ∧
    (s.wdState = 1 ∨ s.wdState = 2 → s.wdCommand ini 2 = (s.enterSafe 0xFF uWarden, OK, 0)) ∧
    (s.wdState ≠ 1 → s.wdState ≠ 2 → s.wdCommand ini 2 = (s, OK, 0)) ∧
    (s.wdState ≠ 0 → s.wdCommand 0x180 1 = (s, WD_LOCKED, 0)) ∧
    (s.wdState = 0 → s.armMask ≠ 0 → s.wdCommand 0x180 1 = (s, ARM_REFUSED, s.armMask)) ∧
    (s.wdState = 0 → s.armMask = 0 → s.wdCommand 0x180 1 = (s.arm, OK, 0)) ∧
    (s.wdState = 3 → s.flag uWarden 0x240 31 = true → s.pairRuns = true → s.wd.toSafe = false → s.wd.behind = false → s.failingNow = [] →
      s.wdCommand 0x180 3 = (((s.wdGo 2 0xFF uWarden).openRecovery).pins true, OK, 0)) ∧
    (s.wdState = 3 → s.flag uWarden 0x240 31 = true → s.pairRuns = true → s.wd.toSafe = false → s.wd.behind = false → s.failingNow ≠ [] →
      s.wdCommand 0x180 3 = (s, REFUSED, CHECK_FAILING)) ∧
    (s.wdState ≠ 3 ∨ s.flag uWarden 0x240 31 = false ∨ s.pairRuns = false ∨ s.wd.toSafe = true ∨ s.wd.behind = true →
      s.wdCommand 0x180 3 = (s, REFUSED, WRONG_STATE)) ∧
    (s.wdState = 0 ∨ s.wdState = 3 → s.wdCommand 0x180 4 = (s.wdGo 4 0xFF uWarden, OK, 0)) ∧
    (s.wdState ≠ 0 → s.wdState ≠ 3 → s.wdCommand 0x180 4 = (s, WD_LOCKED, 0)) ∧
    (s.wdState = 4 → s.wdCommand 0x180 5 = (s.wdGo 0 0xFF uWarden, OK, 0)) ∧ (s.wdState ≠ 4 → s.wdCommand 0x180 5 = (s, WD_LOCKED, 0))) ∧
  (∀ (ini a : Nat) (s : State), 1 ≤ a → a ≤ 5 → s.Admits ini uWarden 0x204 (w32 a) true →
    let c : Instr := if a = 1 then .wdCmdArm ini else if a = 2 then .wdCmdForceSafe ini else if a = 3 then .wdCmdRelease ini
      else if a = 4 then .wdCmdEnterTest ini else .wdCmdLeaveTest ini
    ∀ t r w, s.wdCommand ini a = (t, r, w) → (r = OK → exec c s = .next t) ∧
      (r ≠ OK → exec c s = .next (t.accError ini (regAddr uWarden 0x204) (if r = DENIED then .notHolder else if r = RANGE then .range else .check)))) ∧
  (∀ (v : Nat) (s : State), let a := v % 2 ^ 16
    (v / 2 ^ 16 % 2 ^ 16 + a ≠ 0xFFFF ∨ a = 0 ∨ 5 < a → exec (.supCmdWrite v) s = .next (s.count wSdioF1 0x24 1)) ∧
    (v / 2 ^ 16 % 2 ^ 16 + a = 0xFFFF → 1 ≤ a → a ≤ 5 → s.Admits 0x180 uWarden 0x204 (w32 a) true → ∀ t w, s.wdCommand 0x180 a = (t, OK, w) →
      exec (.supCmdWrite v) s = .next t)) ∧
  (∀ (ini : Nat) (args : List Word) (s : State), ∀ t r w, let out := t.ret r (if r = ARM_REFUSED ∨ r = REFUSED then [w32 w] else [])
    (s.wdCommand ini 1 = (t, r, w) → exec (.arm ini args) s = .next out) ∧
    (s.wdCommand ini 2 = (t, r, w) → exec (.forceSafe ini args) s = .next out) ∧
    (s.wdCommand ini 3 = (t, r, w) → exec (.releaseSafeState ini args) s = .next out) ∧
    (arg args 0 ≤ 1 → s.wdCommand ini (4 + arg args 0) = (t, r, w) → exec (.enterOrLeaveTest ini args) s = .next out)) ∧
  (∀ (ini w : Nat) (s : State), s.Admits ini uWarden 0x240 (w32 w) false →
    (s.wdOpen = true → bit (w32 w) 31 = true →
      exec (.fwLockWrite ini w) s = .next ((s.setFlag uWarden 0x240 31 true).setFlag uWarden 0x200 25 true)) ∧
    (s.wdOpen = true → bit (w32 w) 31 = false → exec (.fwLockWrite ini w) s = .next s) ∧
    (s.wdOpen = false → exec (.fwLockWrite ini w) s = .next (s.accError ini (regAddr uWarden 0x240) .check))) ∧
  (∀ (ini : Nat) (args : List Word) (s : State), let n := arg args
    (ini ≠ 0x180 ∨ s.mayWrite 0x180 uWarden = false → exec (.openSupervisedTask ini args) s = .next (s.ret DENIED) ∧
      exec (.closeSupervisedTask ini args) s = .next (s.ret DENIED) ∧ exec (.pinTest ini args) s = .next (s.ret DENIED)) ∧
    (ini = 0x180 → s.mayWrite 0x180 uWarden = true → s.wdOpen = false → exec (.openSupervisedTask ini args) s = .next (s.ret WD_LOCKED) ∧
      exec (.closeSupervisedTask ini args) s = .next (s.ret WD_LOCKED)) ∧
    (s.WdMay ini → 0x8000 ≤ n 0 → n 0 ≤ 0xFFFF → 1 ≤ n 1 → n 1 ≤ 60000000 → ∀ t k, s.openTask 1 (n 0) (n 1) = (t, k) →
      exec (.openSupervisedTask ini args) s = .next (match k with | some k => t.ret OK [w32 k] | none => t.ret RANGE)) ∧
    (s.WdMay ini → n 0 ≤ 15 → s.taskOpen (n 0) = true → s.fld uWarden (taskOff (n 0)) 30 28 = 1 → let t := s.closeTask (n 0)
      exec (.closeSupervisedTask ini args) s = .next (t.ret OK [t.rd uWarden (taskOff (n 0) + 8)])) ∧
    (ini = 0x180 → s.mayWrite 0x180 uWarden = true → s.wdState ≠ 4 → exec (.pinTest ini args) s = .next (s.ret WD_LOCKED)) ∧
    (ini = 0x180 → s.mayWrite 0x180 uWarden = true → s.wdState = 4 → n 0 ≤ 1 → 200 ≤ n 1 → n 1 ≤ 2000 →
      ∃ shown, exec (.pinTest ini args) s = .next (((s.fresh.2).emit .pin 1 [n 0, n 1]).ret OK
        [setBit (setBit (s.rd uWarden 0x254) (1 - n 0) (n 0 = 0)) (3 - n 0) shown])))

/-- Calls that change the Warden's configuration (R425, R427, R428, R431, R434, R449, R450, R453, R459): of another caller than the
supervisor, or in SERVICE and RECOVERY, they are refused; else each writes the fields that it names, unless the taps would be too many. -/
def Obligations.WardenConfiguration : Prop :=
  (∀ (ini : Nat) (args : List Word) (s : State) (c : Instr), c ∈ [Instr.setCheck ini args, .configureGate ini args, .writeEnvelopes ini args,
      .configureCompareEntry ini args, .configureStarter ini args, .configureSelfTest ini args, .writeFirewall ini args] →
    (ini ≠ 0x180 ∨ s.mayWrite 0x180 uWarden = false → exec c s = .next (s.ret DENIED)) ∧
    (ini = 0x180 → s.mayWrite 0x180 uWarden = true → s.wdOpen = false → exec c s = .next (s.ret WD_LOCKED))) ∧
  (∀ (ini : Nat) (args : List Word) (s : State), s.WdMay ini → let n := arg args
    (1 ≤ n 0 → n 0 ≤ 24 → nth checkLowest (n 0 - 1) 0 ≤ n 1 → n 1 ≤ 3 → n 2 ≤ 1 → ¬(nth checkLowest (n 0 - 1) 0 = 3 ∧ n 2 = 0) → n 3 ≤ 255 →
      exec (.setCheck ini args) s = .next (s.wdChanged (((s.setFld uWarden (checkOff (n 0)) 31 30 (n 1)).setFld uWarden (checkOff (n 0)) 29 29 (n 2)).setFld
        uWarden (checkOff (n 0)) 23 16 (n 3)))) ∧
    (n 0 &&& 0x7FFC00 = 0 → n 1 % 64 = 0 → n 2 ≤ 65535 → 1000 ≤ n 4 → n 4 ≤ 1000000 → 1 ≤ n 5 → n 5 ≤ 255 → 1 ≤ n 6 → n 6 ≤ 255 →
      let t := s.wdStore [(0x210, n 0), (0x214, n 1), (0x218, n 2), (0x21C, n 3), (0x220, n 4)]
      let u := (t.setFld uWarden 0x20C 31 24 (n 5)).setFld uWarden 0x20C 23 16 (n 6)
      exec (.configureGate ini args) s = .next (s.wdChanged (u.setWdX fun x => { x with lastIn := u.mark u.gateMark, intervals := [] }))) ∧
    (n 1 ≤ 64 → n 0 + n 1 ≤ 1024 → (∀ i, i < n 1 → isNeg (nth args (4 + 4 * i) 0) = false ∧ f32IsNaN (nth args (4 + 4 * i) 0) = false ∧
        arg args (5 + 4 * i) &&& 0x18FFFFFF = 0) →
      exec (.writeEnvelopes ini args) s = .next (s.wdChanged ((List.range (n 1)).foldl (fun s i =>
        s.wdStore ((List.range 4).map fun j => (envOff (n 0 + i) + 4 * j, arg args (2 + 4 * i + j)))) s))) ∧
    (n 0 ≤ 15 → n 1 % 64 = 0 → n 2 ≤ 1 → 1 ≤ n 3 → n 3 ≤ 5 → n 4 ≤ 65535 → n 6 ≤ 65535 → 1000 ≤ n 7 → n 7 ≤ 10 ^ 9 → let o := cmpEOff (n 0)
      exec (.configureCompareEntry ini args) s = .next (s.wdChanged (s.wdStore
        [(o, n 1), (o + 4, n 2 * 2 ^ 31 + n 3 * 2 ^ 16 + n 4), (o + 8, n 5), (o + 12, n 6), (o + 16, n 7)]))) ∧
    (n 0 ≤ 7 → n 1 ≤ 1 → n 2 < 2 ^ 20 → n 4 ≤ 65535 → n 6 ≤ 65535 → 1 ≤ n 7 → n 7 ≤ 65535 → n 9 ≤ 65535 → let o := starterOff (n 0)
      exec (.configureStarter ini args) s = .next (s.wdChanged ((s.wdStore [(o, n 1 * 2 ^ 31 + n 2), (o + 4, n 3), (o + 8, n 4), (o + 12, n 5),
        (o + 16, n 7 * 2 ^ 16 + n 6), (o + 0x14, n 8), (o + 0x18, n 9)]).wdStore ((List.range 8).map fun k => (o + 0x20 + 4 * k, n (10 + k)))))) ∧
    (let w := fun m k => arg args (1 + 5 * m + k)
     let c := nth args 0 0
     (∀ m, m < 16 → w m 0 = 0 ∨ (w m 0 = 1 ∧ w m 1 < 2 ^ 20 ∧ 1000 ≤ w m 2 ∧ w m 2 ≤ 10 ^ 9 ∧ 10 ^ 9 % w m 2 = 0 ∧ w m 3 < w m 2 ∧ w m 4 < w m 2)) →
     bits c 30 8 = 0 → bits c 7 0 ≠ 0 →
     exec (.configureSelfTest ini args) s = .next (s.wdChanged ((List.range 16).foldl (fun s m => s.wdStore (if w m 0 = 0 then [(0x900 + 16 * m, 0)] else
       [(0x900 + 16 * m, 2 ^ 31 + w m 1), (0x904 + 16 * m, w m 2), (0x908 + 16 * m, w m 3), (0x90C + 16 * m, w m 4)])) (s.wr uWarden 0x230 c).debtSync))) ∧
    (n 0 = 0xFF → exec (.writeFirewall ini args) s = .next (s.lockFw.ret OK)) ∧
    (n 0 ≠ 0xFF → s.flag uWarden 0x240 31 = true → exec (.writeFirewall ini args) s = .next (s.ret WD_LOCKED)) ∧
    (n 0 ≤ 31 → s.flag uWarden 0x240 31 = false → n 1 % 4096 = 0 → n 2 ≤ 1 → n 3 ≤ 65535 → 1 ≤ n 4 → n 4 < 2 ^ 20 → n 5 ≤ 1 → n 6 ≤ 1 →
      n 7 ≤ 1023 → n 8 ≤ 1023 → let o := 0xA00 + 16 * n 0
      exec (.writeFirewall ini args) s = .next ((s.wdStore [(o, n 1 + n 2), (o + 4, n 3), (o + 8, n 4),
        (o + 12, n 5 * 2 ^ 31 + n 6 * 2 ^ 30 + n 7 * 2 ^ 20 + n 8)]).ret OK))) ∧
  (∀ (s : State) (o v : Nat) (l : List (Nat × Nat)), s.wdStore [] = s ∧ s.wdStore ((o, v) :: l) = (s.wr uWarden o (w32 v)).wdStore l)

/-- The host and supervisor ports (R9, R486–R491, R498–R500, R504, R584): a request of the PF lands at the device address its BAR names and
is counted when refused; a VF reaches its own page only; vectors, doorbells, function resets, link loss and training;
SDIO transfers word by word; GPIOs change only where the writer owns them. -/
def Obligations.HostPorts : Prop :=
  (∀ (kind fn bar off n : Nat) (data : List Byte) (s : State), fn < 33 →
    (s.linkUp = false → exec (.pcieRequest kind fn bar off n data) s = .next s.replyErr) ∧
    (s.linkUp = true →
      (∀ a b, s.barAddr bar off = some a → s.barAddr bar (off + min n 4096 - 1) = some b →
        exec (.pcieRequest 0 0 bar off n data) s = .next (s.bus 0x100 a (min n 4096) none).urCount) ∧
      (∀ a b, s.barAddr bar off = some a → s.barAddr bar (off + min data.length 512 - 1) = some b →
        exec (.pcieRequest 1 0 bar off n data) s = .next (s.bus 0x100 a (min data.length 512) (some (data.take 512))).urCount) ∧
      (s.barAddr bar off = none → exec (.pcieRequest 0 0 bar off n data) s = .next s.replyErr.urCount) ∧
      (fn ≠ 0 → s.vfOn fn = false → exec (.pcieRequest 0 fn bar off n data) s = .next s.replyErr.urCount ∧
        exec (.pcieRequest 1 fn bar off n data) s = .next s.replyErr.urCount) ∧
      (fn ≠ 0 → s.vfOn fn = true → off + 4 ≤ 0x10000 → off % 4 = 0 → exec (.pcieRequest 0 fn 0 off 4 data) s = .next (s.vfPage fn off none) ∧
        (data.length = 4 → exec (.pcieRequest 1 fn 0 off n data) s = .next (s.vfPage fn off (some (data.take 512))))) ∧
      (s.flag uTrust 0x104 31 = false → exec (.pcieRequest 2 fn bar off n data) s = .next s.replyErr ∧ exec (.pcieRequest 3 fn bar off n data) s = .next s.replyErr) ∧
      (s.flag uTrust 0x104 31 = true →
        exec (.pcieRequest 2 fn bar off n data) s = .next { s.setBusMaster fn (n != 0) with reply := ⟨false, []⟩ } ∧
        exec (.pcieRequest 3 fn bar off n data) s = .next { s.setVfs (min n 32) with reply := ⟨false, []⟩ }))) ∧
  (∀ (n : Nat) (s : State), n < 33 → let t : State := if s.flag (wChan n) 4 31 then { s with mbDiscard := n :: s.mbDiscard.filter (· != n) } else s
    (n ≠ 0 → exec (.functionLevelReset n) s =
      .next (((((t.dropClaims (0x100 + n)).abortFn n).haltCovered (0x100 + n)).maskAll n).setBusMaster n false)) ∧
    (n = 0 → exec (.functionLevelReset n) s = .next (((List.range 33).foldl (fun (s : State) n => s.fnReset n) s).setVfs 0))) ∧
  (∀ (speed width : Nat) (s : State),
    (s.linkUp = true → ∃ c, c < 64 ∧ exec .pcieLinkDown s =
      .next ((((s.countF uPcie 0x114 15 0 1).fresh.2.wr uPcie 0x100 (w32 (c * 2 ^ 18))).allFnReset).hostLink false)) ∧
    (s.linkUp = false → ∃ c, c < 64 ∧ exec .pcieLinkDown s = .next ((s.fresh.2.wr uPcie 0x100 (w32 (c * 2 ^ 18))).allFnReset)) ∧
    (s.flag uPcie 0x104 31 = false ∨ s.linkUp = true → exec (.pcieLinkUp speed width) s = .next s) ∧
    (s.flag uPcie 0x104 31 = true → s.linkUp = false → ∃ c, c < 64 ∧ exec (.pcieLinkUp speed width) s = .next (((s.fresh.2.wr uPcie 0x100
      (w32 (2 ^ 31 + max 1 (min speed (s.fld uPcie 0x104 30 28)) * 2 ^ 28 + (([8, 4, 2].find? fun w => w ≤ width && w ≤ s.fld uPcie 0x104 27 24).getD 1) * 2 ^ 24 +
        c * 2 ^ 18 + 2 ^ 17 + (s.fresh.2.rd uPcie 0x100).toNat % 2 ^ 17))).calApply (calKeyOf uPcie 4)).hostLink true))) ∧
  (∀ (ini n i k w vec : Nat) (s : State), s.MayVec ini n i k (w32 w) vec → let e := s.vecEntry vec
    let t := s.store e.1 (e.2 + 4 * k) (w32 w)
    let p := t.vecPba vec
    (t.flag p.1 p.2.1 p.2.2 = false ∨ t.flag e.1 (e.2 + 12) 0 = true ∨ t.busMaster n = false → exec (.msixEntryWrite ini n i k w) s = .next t) ∧
    (t.flag p.1 p.2.1 p.2.2 = true → t.flag e.1 (e.2 + 12) 0 = false → t.busMaster n = true →
      exec (.msixEntryWrite ini n i k w) s = .next ((t.setFlag p.1 p.2.1 p.2.2 false).sendMsix vec))) ∧
  (∀ (n w : Nat) (s : State), 1 ≤ n → n < 33 → bits (w32 w) 31 20 = 0 → let q := bits (w32 w) 19 0
    (∀ c, s.queueClient q = some c → s.clientValid c = true → s.covers c (0x100 + n) = true → s.Admits (0x100 + n) uSched 0x20C (w32 w) true →
      exec (.vfDoorbell n w) s = .next (s.doorbell q)) ∧
    ((∀ c, s.queueClient q = some c → s.clientValid c = false ∨ s.covers c (0x100 + n) = false) →
      exec (.vfDoorbell n w) s = .next (s.count (wVf n) 0x408 1))) ∧
  (∀ (off n : Nat) (fixed : Bool) (data : List Byte) (s : State), off < 2 ^ 17 → n ≤ 65536 →
    exec (.sdioCommand true 0 off n fixed data) s = .next (s.ciaRun off n (some data)) ∧
    exec (.sdioCommand false 0 off n fixed data) s = .next (s.ciaRun off n none) ∧
    (off % 4 = 0 → ∀ b0 b1 b2 b3 : Byte, exec (.sdioCommand true 1 off n fixed [b0, b1, b2, b3]) s =
      .next { s.fn1Write off (w32 (bytesNat [b0, b1, b2, b3])) with reply := ⟨false, []⟩ }) ∧
    (off % 4 = 0 → exec (.sdioCommand false 1 off 4 fixed data) s = .next (State.replyWord (s.fn1Read off))) ∧
    (off % 4 = 0 → let t := s.fn2Access off none
      exec (.sdioCommand false 2 off 4 fixed data) s = .next { t with reply := ⟨t.reply.err, t.reply.data⟩ }) ∧
    (off % 4 ≠ 0 → exec (.sdioCommand false 1 off n fixed data) s = .next { s.accError 0x180 off .access with reply := ⟨false, List.replicate n 0⟩ }) ∧
    exec (.sdioFunctionReset 1) s = .next (((s.countF uSdio 0x108 15 0 1).dropClaims 0x180).setFlag uSdio 0x100 26 false) ∧
    exec (.sdioFunctionReset 2) s = .next (((s.countF uSdio 0x108 15 0 1).dropClaims 0x181).setFlag uSdio 0x100 25 false) ∧
    exec (.sdioFunctionReset 0) s = .next ((((s.countF uSdio 0x108 15 0 1).dropClaims 0x180).dropClaims 0x181).setFld uSdio 0x100 30 25 0)) ∧
  (∀ (ini w : Nat) (s : State), let v := w32 w
    let out := (s.rd uDevctl 0x204).toNat
    (s.Admits ini uDevctl 0x20C v true → s.OwnsGpio ini (v.toNat - (v.toNat &&& out)) →
      exec (.gpioSetWrite ini w) s = .next (s.wr uDevctl 0x204 (w32 (out ||| v.toNat)))) ∧
    (s.Admits ini uDevctl 0x20C v true → ¬s.OwnsGpio ini (v.toNat - (v.toNat &&& out)) → ∃ g, g < 32 ∧ exec (.gpioSetWrite ini w) s =
      .next ((s.wr uDevctl 0x298 (w32 (2 ^ 31 + ini % 2 ^ 10 * 2 ^ 16 + g))).accError ini (regAddr uDevctl 0x20C) .check)) ∧
    (s.Admits ini uDevctl 0x210 v true → s.OwnsGpio ini (v.toNat &&& out) →
      exec (.gpioClrWrite ini w) s = .next (s.wr uDevctl 0x204 (w32 (out - (v.toNat &&& out))))) ∧
    (s.Admits ini uDevctl 0x210 v true → ¬s.OwnsGpio ini (v.toNat &&& out) → ∃ g, g < 32 ∧ exec (.gpioClrWrite ini w) s =
      .next ((s.wr uDevctl 0x298 (w32 (2 ^ 31 + ini % 2 ^ 10 * 2 ^ 16 + g))).accError ini (regAddr uDevctl 0x210) .check))) ∧
  (∀ (ini : Nat) (args : List Word) (s : State), let n := arg args
    (let m := s.gpioMine ini
     n 0 &&& m &&& (n 1 &&& m) = 0 → let t := s.fresh.2
     let out := t.gpioOut ||| (n 0 &&& m)
     let dir := (t.rd uDevctl 0x200).toNat
     exec (.setGpio ini args) s = .next (if t.claimed uDevctl then t.ret CLAIMED else ((t.wr uDevctl 0x204 (w32 (out - (out &&& (n 1 &&& m))))).wr uDevctl 0x200
       (w32 (dir - (dir &&& m) + (n 2 &&& m)))).ret OK)) ∧
    (n 0 ≤ 31 → n 1 &&& 0x83FF03FF = n 1 → s.claimed uDevctl = false →
      exec (.setGpioOwner ini args) s = .next ((s.wr uDevctl (0x214 + 4 * n 0) (nth args 1 0)).ret OK)) ∧
    (n 0 ≤ 31 → n 1 &&& 0x83FF03FF = n 1 → s.claimed uDevctl = true → exec (.setGpioOwner ini args) s = .next (s.ret CLAIMED)))

/-- The management mailbox (R501, R502): what the firewalls bar is refused; a write of MB_CALL by the channel's initiator posts one call, one that finds a call posted is rejected;
firmware takes the channels in turn; a served call returns its status and its first words; completions leave in order. -/
def Obligations.Mailbox : Prop :=
  (∀ (ini ch w : Nat) (s : State), ch < 36 → let v := w32 w
    (s.chanAllows ini ch 0 true = false → exec (.mbCallGo ini ch w) s = .next (s.fwRefuse ini (chanAddr ch 0) true)) ∧
    (s.chanAllows ini ch 0 true = true → ini ≠ chanIni ch → exec (.mbCallGo ini ch w) s = .next (s.accError ini (chanAddr ch 0) .access)) ∧
    (s.chanAllows ini ch 0 true = true → ini = chanIni ch → bits v 30 24 = 0 →
      (bit v 31 = false → exec (.mbCallGo ini ch w) s = .next s) ∧
      (bit v 31 = true → s.mbBusy ch = true → exec (.mbCallGo ini ch w) s = .next (s.accError ini (chanAddr ch 0) .check)) ∧
      (bit v 31 = true → s.mbBusy ch = false → let t := (s.wr (wChan ch) 0 v).setFlag (wChan ch) 4 31 true
        exec (.mbCallGo ini ch w) s = .next (if ch = 33 ∨ ch = 34 then t.wake 4 uSdio else t)))) ∧
  (∀ s : State, (s.mbNext = none → exec .mbCallServe s = .next s) ∧
    (∀ ch, s.mbNext = some ch → s.mbBusy ch = true ∧ s.mbServes ch = true ∧ ∃ k, 1 ≤ k ∧ k ≤ 36 ∧ ch = (s.mbLast + k) % 36 ∧
      (∀ j, 1 ≤ j → j < k → s.mbBusy ((s.mbLast + j) % 36) = false ∨ s.mbServes ((s.mbLast + j) % 36) = false) ∧
      ∀ t st ws, ({ s with mbLast := ch } : State).runPosted ch = (t, st, ws) → exec .mbCallServe s = .next (t.mbReturn ch st ws))) ∧
  (∀ (ch st : Nat) (ws : List Word) (s : State), let w := wChan ch
    let tag := s.fld w 0 23 16
    let t := (ws.zipIdx).foldl (fun (s : State) x => s.wr w (0x84 + 4 * x.2) x.1) (s.wr w 0x80 (w32 (tag * 2 ^ 16 + st % 2 ^ 16)))
    s.mbDiscard.contains ch = false →
      s.mbReturn ch st ws = (t.wr w 4 (w32 ((t.rd w 4).toNat / 2 ^ 29 % 4 * 2 ^ 29 + tag * 2 ^ 16 + st % 2 ^ 16))).chanInt ch 0) ∧
  (∀ (ch : Nat) (s t u : State) (args : List Word), let v := s.rd (wChan ch) 0
    s.mbArgs ch (bits v 15 0) = (t, OK, [], args) →
    runCall (bits v 15 0) (chanIni ch) args { t with callCtx := some ⟨ch, bits v 23 16, bits v 15 0⟩ } = some u →
    u.call.words.length ≤ 15 → (u.call.status = PENDING → ({ u with callCtx := none } : State).doneUse ch ≤ 16) →
    s.runPosted ch = ({ u with callCtx := none }, u.call.status, u.call.words)) ∧
  (∀ s : State, (∀ c ∈ s.pendCalls, c.fin = none) → exec .callDone s = .next s) ∧
  (∀ (s : State) (c : PendCall) (x : CallCtx) (st : Nat), s.pendCalls.find? (·.fin.isSome) = some c → c.src = some x → c.fin = some st →
    let r : State := { s with pendCalls := s.pendCalls.erase c, doneFifo := s.doneFifo ++ [(x.chan, x.tag, c.num, st)] }
    let t := (c.res.zipIdx).foldl (fun (s : State) e => s.wr (wChan x.chan) (0x84 + 4 * e.2) e.1) r
    exec .callDone s = .next (((t.setFlag (wChan x.chan) 4 30 true).chanInt x.chan 1).postIni (chanIni x.chan) 0x0040 uDevctl (c.num + x.tag * 2 ^ 16) st)) ∧
  (∀ (ini ch : Nat) (s : State), ch < 36 → (s.chanAllows ini ch 4 false = false → exec (.mbStatusRead ini ch) s =
      .next { s.fwRefuse ini (chanAddr ch 4) false with reply := ⟨true, []⟩ }) ∧
    (s.chanAllows ini ch 0x14 false = false → exec (.mbDoneRead ini ch) s =
      .next { s.fwRefuse ini (chanAddr ch 0x14) false with reply := ⟨true, []⟩ })) ∧
  (∀ (ini ch : Nat) (s : State), ch < 36 → ini = chanIni ch → s.chanAllows ini ch 4 false = true → s.chanAllows ini ch 0x14 false = true →
    exec (.mbStatusRead ini ch) s = .next ((s.setFlag (wChan ch) 4 29 false).answer (s.rd (wChan ch) 4)) ∧
    (s.doneFifo.find? (·.1 = ch) = none → exec (.mbDoneRead ini ch) s = .next (s.answer 0)) ∧
    (∀ c tag num st, s.doneFifo.find? (·.1 = ch) = some (c, tag, num, st) →
      let t := ({ s with doneFifo := s.doneFifo.erase (c, tag, num, st) } : State).wr (wChan ch) 0x18 (w32 num)
      exec (.mbDoneRead ini ch) s = .next ((t.setFlag (wChan ch) 4 30 (t.doneFifo.any (·.1 = ch))).answer (w32 (2 ^ 31 + tag * 2 ^ 16 + st)))))

/-- Translation and the ports' calls (R489, R493–R497, R504, R506, R507): an invalidation drops what it covers when it completes; a call
answers where an access would land, or the cause; contexts, vectors and the window are set, or refused. -/
def Obligations.Translations : Prop :=
  (∀ (c input : Nat) (mem write : Bool) (s : State), c < 4096 → input < 2 ^ 40 →
    exec (.translationWalkDone c mem input write) s = .next (s.translate c mem input write).1) ∧
  (∀ (ini w : Nat) (s : State), let v := setBit (w32 w) 31 true
    s.Admits ini uXlate 0x118 v false →
    (s.xlInval = none → exec (.xlInvalGo ini w) s = .next (({ s with
      xlInval := some (bit v 30, bit v 29, bits v 11 0, s.fld uXlate 0x11C 27 0, (s.rd uXlate 0x120).toNat) } : State).setFlag uXlate 0x124 31 true)) ∧
    (s.xlInval ≠ none → exec (.xlInvalGo ini w) s = .next (s.accError ini (regAddr uXlate 0x118) .check))) ∧
  (∀ s : State, (s.xlInval = none → exec .xlInvalidationDone s = .next s) ∧
    ∀ all mem c base n, s.xlInval = some (all, mem, c, base, n) →
      Gives .xlInvalidationDone s fun t => t.xlInval = none ∧ ∀ e, e ∈ t.tlb ↔ e ∈ s.tlb ∧ ¬(e.memRoot = mem ∧ (all = true ∨ e.client = c) ∧
        (n = 0 ∨ e.input < (base + n) * 4096 ∧ base * 4096 < e.input + e.size))) ∧
  (∀ (ini : Nat) (args : List Word) (s : State), let n := arg args
    (1 ≤ n 0 → n 0 ≤ 32 → n 1 ≤ 2047 → n 2 ≤ 128 → s.claimed uPcie = false →
      (s.flag uPcie 0x100 16 = true → exec (.setVfVectors ini args) s = .next (s.ret REFUSED [4])) ∧
      (s.flag uPcie 0x100 16 = false → s.vecClash (n 0) (n 1) (n 2) = true → exec (.setVfVectors ini args) s = .next (s.ret VECTORS_FULL)) ∧
      (s.flag uPcie 0x100 16 = false → s.vecClash (n 0) (n 1) (n 2) = false → exec (.setVfVectors ini args) s =
        .next (((s.wr uPcie (0x200 + 8 * (n 0 - 1)) (w32 (n 1 * 2 ^ 16 + n 2))).setFld (wVf (n 0)) 0x404 7 0 (n 2)).ret OK))) ∧
    (lwMost s.part < n 0 → exec (.setLpddr4xWindow ini args) s = .next (s.ret RANGE)) ∧
    (n 0 ≤ lwMost s.part → s.claimed uPcie = false → exec (.setLpddr4xWindow ini args) s = .next ((s.wr uPcie 0x108 (w32 (n 0))).ret OK)) ∧
    (n 0 ≤ 4095 → rootBad args 1 = false → rootBad args 3 = false → n 5 ≤ 32 →
      (s.clientOf ini ≠ some (n 0) → exec (.setTranslationContext ini args) s = .next (s.ret DENIED)) ∧
      (s.clientOf ini = some (n 0) → s.claimed uXlate = false → s.clientRuns (n 0) = true →
        exec (.setTranslationContext ini args) s = .next (s.ret QUEUE_RUNNING)) ∧
      (s.clientOf ini = some (n 0) → s.claimed uXlate = false → s.clientRuns (n 0) = false → exec (.setTranslationContext ini args) s =
        .next (((List.range 5).foldl (fun (s : State) i => s.wr (wXl (n 0)) (0x104 + 4 * i) (nth args (1 + i) 0)) s).ret OK))) ∧
    (n 0 ≤ 4095 → n 1 ≤ 1 → n 2 < 2 ^ 28 → s.clientOf ini = some (n 0) → s.claimed uXlate = false → s.xlInval = none →
      exec (.invalidateTranslations ini args) s = .next ((({ s with xlInval := some (false, decide (n 1 = 1), n 0, n 2, n 3) } : State).setFlag uXlate 0x124 31
        true).retPending 0x0A03 uXlate)) ∧
    (let a := argAddr args 1
     n 0 ≤ 4095 → n 2 < 2 ^ 16 → n 3 ≤ 1 →
     (s.clientOf ini ≠ some (n 0) → exec (.translate ini args) s = .next (s.ret DENIED)) ∧
     (s.clientOf ini = some (n 0) → regionOf s.part a = .host → ∀ f o k, s.peek (n 0) false (a - 0x10000000000) (n 3 = 1) = (f, o, k) →
       exec (.translate ini args) s = .next (if f = 0 then s.ret OK (addrWords (0 + o) ++ [w32 k]) else s.ret XLATE_FAULT [w32 f]))))

/-- Power states (R511–R521, R525, R526): a request moves the states, starts an entry, wakes the device or is turned away; units answer an
entry, the first refusal or missing answer abandons it, the last acknowledgement lets it complete; wakes and exits; idle domains
are gated in TRIM and powered up again; the calls. -/
def Obligations.PowerStates : Prop :=
  (∀ (a : Nat) (s : State), a < 4 →
    (s.pwrState = 4 ∨ s.pwrState = 5 → s.goState a = none) ∧
    (s.pwrState < 4 → s.pwrState = a → s.goState a = some s.statesReached) ∧
    (s.pwrState ≤ 1 → a ≤ 1 → s.pwrState ≠ a → s.goState a = some (s.moveTo a)) ∧
    (s.pwrState = 2 ∨ s.pwrState = 3 → a ≤ 1 → s.goState a = some ((s.setPwrTarget a).wake 9 uPwr)) ∧
    (s.pwrState ≤ 1 → 2 ≤ a → s.goState a = some (s.startEntry a)) ∧ (s.pwrState = 2 → a = 3 → s.goState a = some (s.startEntry a))) ∧
  (∀ (ini a : Nat) (s : State), a < 4 → s.Admits ini uPwr 0x104 (w32 (a + 1)) false →
    let c : Instr := if a = 0 then .pwrCmdRun ini else if a = 1 then .pwrCmdTrim ini else if a = 2 then .pwrCmdDoze ini else .pwrCmdSleep ini
    (∀ t, s.goState a = some t → exec c s = .next t) ∧
    (s.goState a = none → exec c s = .next (s.accError ini (regAddr uPwr 0x104) .check))) ∧
  (∀ (u : Nat) (timeUp : Bool) (s : State), s.pwrState = 4 → s.pwr.waiting.contains u = true → let tgt := s.pwrTarget
    let t : State := { s with pwr := { s.pwr with waiting := s.pwr.waiting.filter (· != u) } }
    (s.powerAnswer u tgt timeUp = none → exec (.powerAnswer u timeUp) s = .next s) ∧
    (∀ r, r ≠ 0 → s.powerAnswer u tgt timeUp = some r → exec (.powerAnswer u timeUp) s = .next (s.abandon r u)) ∧
    (s.powerAnswer u tgt timeUp = some 0 → unitClass u ≠ some .bg → unitClass u ≠ some .sched → exec (.powerAnswer u timeUp) s = .next t) ∧
    (s.powerAnswer u tgt timeUp = some 0 → unitClass u = some .sched → tgt = 3 →
      exec (.powerAnswer u timeUp) s = .next (t.qcache.foldl (fun s x => s.writeBack x) t)) ∧
    (s.powerAnswer u tgt timeUp = some 0 → unitClass u = some .bg → tgt = 2 → t.flag u 0x100 31 = false → let v := t.retain (u - 0x110)
      exec (.powerAnswer u timeUp) s = .next { v with pwr := { v.pwr with slept := v.pwr.slept ++ [u - 0x110] } }) ∧
    exec (.powerAnswerTimeout u) s = .next ((s.recordFault fNO_ANSWER u 0x4A noQueue 0 0 0 0 oNone).abandon 7 u)) ∧
  (∀ s : State, s.pwrState = 4 → s.pwr.waiting = [] → let tgt := s.pwrTarget
    let t := if tgt = 3 then s.sleepOff else s.domsDown (List.range 62)
    let u := (((t.setPwrState tgt).wr uPwr 0x140 (w32 (2 * (t.gauge.ticks - t.pwr.began)))).postPower s.pwr.left tgt).statesReached
    (u.pwr.wake = none → exec .powerEntryDone s = .next u) ∧
    (∀ src v, u.pwr.wake = some (src, v) → exec .powerEntryDone s = .next ((u.count uPwr 0x14C 1).startExit src v))) ∧
  (∀ s : State, s.pwrState = 4 → s.pwr.waiting ≠ [] → exec .powerEntryDone s = .next s) ∧
  (∀ (src u : Nat) (s : State), (src = 3 ∧ ¬(unitClass u = some .cn ∧ s.flag u 0x100 31 = true)) ∨
      (src = 5 ∧ ¬(unitClass u = some .cl ∧ s.flag u 0x100 31 = true)) → exec (.wake src u) s = .next s) ∧
  (∀ (src u : Nat) (s : State), 1 ≤ src → src ≤ 8 → (src = 3 → unitClass u = some .cn ∧ s.flag u 0x100 31 = true) →
    (src = 5 → unitClass u = some .cl ∧ s.flag u 0x100 31 = true) →
    (s.flag uPwr 0x11C (src - 1) = false → exec (.wake src u) s = .next s) ∧
    (s.flag uPwr 0x11C (src - 1) = true → s.pwrState = 2 ∨ s.pwrState = 3 → exec (.wake src u) s = .next (s.startExit src u)) ∧
    (s.flag uPwr 0x11C (src - 1) = true → s.pwrState = 4 → s.pwr.wake = none →
      exec (.wake src u) s = .next { s with pwr := { s.pwr with wake := some (src, u) } }) ∧
    (s.pwrState = 0 ∨ s.pwrState = 1 ∨ s.pwrState = 5 → exec (.wake src u) s = .next s)) ∧
  (∀ s : State, s.pwrState = 5 → let left := s.pwr.left
    let back := s.fld uPwr 0x100 25 23
    let t := s.domsUp (s.gradeDoms.filter fun d => left = 3 || d < 62)
    let u := (if left = 3 then t.restore else t).wakeAll
    let v := ((((u.setPwrState back).setPwrTarget back).wr uPwr 0x144 (w32 (2 * (u.gauge.ticks - u.pwr.began)))).postPower left back).statesReached
    (1 < s.pwrTarget → exec .powerExitDone s = .next v) ∧ (s.pwrTarget ≤ 1 → exec .powerExitDone s = .next (v.moveTo s.pwrTarget))) ∧
  (∀ (u d : Nat) (s : State), unitDomain u = some d → s.pwrState = 1 →
    (unitClass u = some .tile ∨ unitClass u = some .te ∨ unitClass u = some .vat → s.idleUnit u = true → exec (.trimIdleExpiry u) s = .next (s.domDown d)) ∧
    (unitClass u = some .tile ∨ unitClass u = some .te ∨ unitClass u = some .vat → s.idleUnit u = false → exec (.trimIdleExpiry u) s = .next s) ∧
    (isTested u = true → s.exists? u = true → s.domOn d = false → (s.testX u).passAt = none → s.pwr.powering.contains d = false →
      exec (.selfTestPowerUp u) s = .next { s with pwr := { s.pwr with powering := s.pwr.powering ++ [d] } })) ∧
  (∀ s : State, let ds := s.pwr.powering
    let t := ({ s with pwr := { s.pwr with powering := [] } } : State).domsUp ds
    let xs := (List.range 6).flatMap (fun c => [Ctx.general c, Ctx.realTime c]) ++ (List.range 3).map Ctx.gang ++ (List.range 2).map Ctx.toe
    exec .domainPowerUpDone s = .next ((xs.filter fun x => (t.ctxDoms x).any ds.contains).foldl (fun s x => s.dispatch x) t)) ∧
  (∀ (ini : Nat) (args : List Word) (s : State), s.claimed uPwr = false → let a := arg args 0
    (1 ≤ a → a ≤ 4 → s.pwrBusy = false → let p := s.retPending 0x0B01 a
      (∀ t, p.goState (a - 1) = some t → (t.pwrState = a - 1 ∧ s.pwrState ≤ 1 → exec (.requestState ini args) s = .next (({ t with
          pendCalls := s.pendCalls } : State).ret OK)) ∧
        (t.pwrState ≠ a - 1 ∨ 1 < s.pwrState → exec (.requestState ini args) s = .next t)) ∧
      (p.goState (a - 1) = none → exec (.requestState ini args) s = .next (s.ret UNIT_BUSY))) ∧
    (a ≤ 0x1FF → exec (.setWakeSources ini args) s = .next ((s.wr uPwr 0x11C (w32 a)).ret OK)) ∧
    (1 ≤ a → a ≤ 65535 → exec (.setTrimIdle ini args) s = .next ((s.wr uPwr 0x12C (w32 a)).ret OK)))

/-- Set points, the power cap and rate alarms (R24, R25, R27, R522–R526): a request below FLOOR or outside its range is turned away, else it is kept and the set
point starts towards the one in force; steps end or fail; windows of power and of rates. -/
def Obligations.SetPointsAndRates : Prop :=
  (∀ (ini w : Nat) (s : State), let v := w32 w
    (s.Admits ini uPwr 0x10C v false → (v.toNat < s.floorOf → exec (.vcoreSetWrite ini w) s = .next (s.accError ini (regAddr uPwr 0x10C) .check)) ∧
      (s.floorOf ≤ v.toNat → exec (.vcoreSetWrite ini w) s = .next (s.wr uPwr 0x10C v).startStep.pointReached)) ∧
    (s.Admits ini uPwr 0x110 v false → let low := ratedPower s.part 0
      let high := ratedPower s.part 5
      (v.toNat < low ∨ high < v.toNat → exec (.capWWrite ini w) s = .next (s.accError ini (regAddr uPwr 0x110) .range)) ∧
      (low ≤ v.toNat → v.toNat ≤ high → v.toNat < ratedPower s.part s.floorOf → exec (.capWWrite ini w) s = .next (s.accError ini (regAddr uPwr 0x110) .check)) ∧
      (low ≤ v.toNat → v.toNat ≤ high → ratedPower s.part s.floorOf ≤ v.toNat →
        exec (.capWWrite ini w) s = .next (s.wr uPwr 0x110 v).startStep.pointReached))) ∧
  (∀ s : State, (s.pwr.step ≠ none → s.startStep = s) ∧ (s.wantPoint = s.setpoint → s.startStep = s) ∧
    (s.pwr.step = none → s.wantPoint ≠ s.setpoint → s.startStep = { s with pwr := { s.pwr with
      step := some (if s.setpoint < s.wantPoint then s.setpoint + 1 else s.setpoint - 1) } })) ∧
  (∀ (k : Nat) (s : State), s.pwr.step = some k → let t : State := { s with pwr := { s.pwr with step := none } }
    exec (.setpointStepDone true) s = .next ((t.setFld uPwr 0x100 22 20 k).startStep).pointReached ∧
    exec (.setpointStepDone false) s = .next ((t.setFld uPwr 0x100 22 20 (min k t.setpoint)).recordFault fRAIL uPwr 0x4A noQueue 0 0 0 0 oNone)) ∧
  (∀ (e : Nat) (s : State), e < 65536 → let t := s.wr uPwr 0x114 (w32 e)
    let down : State := { t with pwr := { t.pwr with below := 0 } }
    (10 * t.capW < e → down.floorOf < down.setpoint → exec (.powerWindowEnd e) s =
      .next (((down.setFlag uPwr 0x100 16 false).capStep ((down.setFlag uPwr 0x100 16 false).pwr.own - 1)).startStep)) ∧
    (10 * t.capW < e → down.setpoint ≤ down.floorOf → down.pwr.lastCap = none → let u := down.setFlag uPwr 0x100 16 true
      exec (.powerWindowEnd e) s = .next (({ u with pwr := { u.pwr with lastCap := some u.gauge.ticks } } : State).postAll 0x0051 uPwr e u.setpoint u.routedClients)) ∧
    (let u := t.setFlag uPwr 0x100 16 false
     e ≤ 10 * t.capW → ¬e < 10 * (u.capW - 5) → exec (.powerWindowEnd e) s = .next { u with pwr := { u.pwr with below := 0 } }) ∧
    (let u := t.setFlag uPwr 0x100 16 false
     e ≤ 10 * t.capW → e < 10 * (u.capW - 5) → u.pwr.below + 1 < 10 →
       exec (.powerWindowEnd e) s = .next { u with pwr := { u.pwr with below := u.pwr.below + 1 } }) ∧
    (let u := t.setFlag uPwr 0x100 16 false
     e ≤ 10 * t.capW → e < 10 * (u.capW - 5) → 10 ≤ u.pwr.below + 1 → exec (.powerWindowEnd e) s =
       .next ((({ u with pwr := { u.pwr with below := 0 } } : State).capStep (min 5 (u.pwr.own + 1))).startStep))) ∧
  (∀ (ini : Nat) (args : List Word) (s : State), s.claimed uPwr = false → s.pwrBusy = false → let a := arg args 0
    (a ≤ 5 → a < s.floorOf → exec (.setVddCoreSetPoint ini args) s = .next (s.ret REFUSED [8])) ∧
    (a ≤ 5 → s.floorOf ≤ a → let t := (s.wr uPwr 0x10C (w32 a)).startStep
      (t.setpoint = t.wantPoint → exec (.setVddCoreSetPoint ini args) s = .next (t.ret OK)) ∧
      (t.setpoint ≠ t.wantPoint → exec (.setVddCoreSetPoint ini args) s = .next (t.retPending 0x0B02 uPwr))) ∧
    (a < ratedPower s.part 0 ∨ ratedPower s.part 5 < a → exec (.setPowerCap ini args) s = .next (s.ret RANGE)) ∧
    (ratedPower s.part 0 ≤ a → a ≤ ratedPower s.part 5 → a < ratedPower s.part s.floorOf → exec (.setPowerCap ini args) s = .next (s.ret REFUSED [1])) ∧
    (ratedPower s.part 0 ≤ a → a ≤ ratedPower s.part 5 → ratedPower s.part s.floorOf ≤ a →
      exec (.setPowerCap ini args) s = .next ((s.wr uPwr 0x110 (w32 a)).startStep.pointReached.ret OK))) ∧
  (∀ (m n : Nat) (s : State), m < 8 → n < 2 ^ 16 → let b := rateBlock m
    let c := s.calApply fun k => calKeyOf b.1 2 k && k % 4096 = (if m = 7 then 1 else 0)
    let t := c.setFld b.1 b.2 15 0 n
    let u := if n < t.fld b.1 (b.2 + 4) 15 0 then t.setFld b.1 (b.2 + 4) 15 0 n else t
    let v := if u.fld b.1 (b.2 + 8) 15 0 < n then u.setFld b.1 (b.2 + 8) 15 0 n else u
    let r := c.rateMon m
    let down := m < 6 ∧ c.domainOff (uVE m) = true
    (down → ∀ off, exec (.rateWindowEnd m n off) s = .next ((c.wr b.1 b.2 0).setRateMon m { r with below := 0, first := true })) ∧
    (¬down → exec (.rateWindowEnd m n true) s = .next (t.setRateMon m { r with below := 0, first := true })) ∧
    (¬down → r.first = true → exec (.rateWindowEnd m n false) s = .next (v.setRateMon m { r with below := 0, first := false })) ∧
    (¬down → r.first = false → ¬8 * n < v.rateThreshold8 m → exec (.rateWindowEnd m n false) s = .next (v.setRateMon m { r with below := 0, armed := true })) ∧
    (¬down → r.first = false → 8 * n < v.rateThreshold8 m → r.below + 1 < 2 ∨ r.armed = false →
      exec (.rateWindowEnd m n false) s = .next (v.setRateMon m { r with below := r.below + 1 })) ∧
    (¬down → r.first = false → 8 * n < v.rateThreshold8 m → 2 ≤ r.below + 1 → r.armed = true →
      exec (.rateWindowEnd m n false) s = .next ((v.setRateMon m { r with below := r.below + 1, armed := false }).rateAlarm m)))

/-- Revocation of a root slot (R532): refused with KEY_REVOKED when the slot signs an image that is catalogued or running, or when it is
the last slot not revoked; else that slot is revoked and no other. (Who may call is R554's, a unit that another
initiator claims R7's, a slot revoked already the model's choice, log entry 94.) -/
def Obligations.RootSlotRevocation : Prop :=
  ∀ (ini : Nat) (args : List Word) (s : State) (k : Nat), trustCaller ini = true → s.claimed uTrust = false → arg args 0 = k → k < 4 →
    s.otpRevoke < 16 →
    (s.signsLive k = true → exec (.revokeRootSlot ini args) s = .next (s.ret KEY_REVOKED)) ∧
    (s.revoked k = false → (∀ j, j < 4 → j ≠ k → s.revoked j = true) → exec (.revokeRootSlot ini args) s = .next (s.ret KEY_REVOKED)) ∧
    (s.signsLive k = false → s.revoked k = false → (∃ j, j < 4 ∧ j ≠ k ∧ s.revoked j = false) →
      Gives (.revokeRootSlot ini args) s fun t => t.call = (s.ret OK).call ∧ ∀ j, j < 4 → t.revoked j = (s.revoked j || decide (j = k)))

/-- Trust, update and calibration (R528–R551, R588): the four ways in, by power-on, reset, supply and SDIO; what the verify routine's status does; who may change
trust state and what each such call keeps; an update's refusals and its start; quotes; calibration sets; the commit of the running set. -/
def Obligations.TrustCommands : Prop :=
  (∀ (m1 m2 us : Nat) (otp ddr : Bool) (fails : List Nat) (s : State), m1 < 4 → m2 < 4 →
    let t := (s.afterReset m2 false).wr uDevctl 0x294 (w32 (m1 * 4 + m2))
    (m1 = m2 → exec (.powerOnReset m1 m2 otp ddr fails us) s = .next (t.runBoot otp ddr fails us)) ∧
    (m1 ≠ m2 → exec (.powerOnReset m1 m2 otp ddr fails us) s = .next (t.bootStatus false 1 0xFF 0x0E)) ∧
    (let r := s.rd uDevctl 0x294
     let u := (s.afterReset s.boot.mode false).wr uDevctl 0x294 r
     bits r 3 2 = bits r 1 0 → exec (.resetNAssert otp ddr fails us) s = .next (u.runBoot otp ddr fails us)) ∧
    exec .supplyLoss s = .next (s.afterReset 0 true)) ∧
  (∀ (s : State) (mode : Nat) (off : Bool), let t := s.afterReset mode off
    t.flash = s.flash ∧ t.otpRevoke = s.otpRevoke ∧ t.otpSvn = s.otpSvn ∧ t.otpUcal = s.otpUcal ∧ t.devLock = s.devLock ∧ t.images = [] ∧ t.claims = []) ∧
  (∀ (s : State) (fails : List Nat) (us : Nat) (otp ddr : Bool),
    (s.boot.mode = 3 → s.runBoot otp ddr fails us = s.bootStatus false 1 0xFF 0x0F) ∧
    (s.boot.mode ≠ 3 → ∃ c, s.runBoot false ddr fails us = s.fresh.2.bootStatus false 2 0xFF c)) ∧
  (∀ s : State, exec .consentExpiry s = .next { s with consent := none }) ∧
  (∀ (ini : Nat) (args : List Word) (s : State), let n := arg args
    (ini ≠ 0x180 → exec (.consentToWardenUpdate ini args) s = .next (s.ret DENIED)) ∧
    (ini = 0x180 → exec (.consentToWardenUpdate ini args) s = .next (if s.claimed uTrust then s.ret CLAIMED
      else { s.ret OK with consent := some (argBytes args 0 8) })) ∧
    (trustCaller ini = false → exec (.updateProcessor ini args) s = .next (s.ret DENIED) ∧ exec (.raiseSecurityVersion ini args) s = .next (s.ret DENIED) ∧
      exec (.revokeRootSlot ini args) s = .next (s.ret DENIED) ∧ exec (.setCalibrationKeys ini args) s = .next (s.ret DENIED) ∧
      exec (.applyCalibrationSet ini args) s = .next (s.ret DENIED) ∧ exec (.commitRunningSet ini args) s = .next (s.ret DENIED)) ∧
    (trustCaller ini = true → s.claimed uTrust = true → exec (.raiseSecurityVersion ini args) s = .next (s.ret CLAIMED) ∧
      exec (.revokeRootSlot ini args) s = .next (s.ret CLAIMED) ∧ exec (.setCalibrationKeys ini args) s = .next (s.ret CLAIMED) ∧
      exec (.applyCalibrationSet ini args) s = .next (s.ret CLAIMED) ∧ exec (.commitRunningSet ini args) s = .next (s.ret CLAIMED)) ∧
    (trustCaller ini = true → s.claimed uTrust = false →
      (1 ≤ n 0 → n 0 ≤ 7 → n 1 ≤ 64 → s.svn (n 0) < n 1 → (∀ d ∈ s.liveImages, imgKind d = n 0 → n 1 ≤ imgSvn d) → n 0 ≠ 7 ∨ s.calBytes = [] →
        exec (.raiseSecurityVersion ini args) s = .next ({ s.ret OK with otpSvn := setNth s.otpSvn (n 0 - 1) (n 1) } : State).trustSync) ∧
      (1 ≤ n 0 → n 0 ≤ 7 → 64 < n 1 → exec (.raiseSecurityVersion ini args) s = .next (s.ret OTP_SET)) ∧
      (1 ≤ n 0 → n 0 ≤ 7 → n 1 ≤ 64 → n 1 ≤ s.svn (n 0) ∨ (∃ d ∈ s.liveImages, imgKind d = n 0 ∧ imgSvn d < n 1) →
        exec (.raiseSecurityVersion ini args) s = .next (s.ret ROLLBACK)) ∧
      (s.otpUcal = none → exec (.setCalibrationKeys ini args) s =
        .next ({ s.ret OK with otpUcal := some (sha3 (argBytes args 0 496)) } : State).trustSync) ∧
      (s.otpUcal ≠ none → exec (.setCalibrationKeys ini args) s = .next (s.ret OTP_SET)) ∧
      (s.otpUcal = none → exec (.applyCalibrationSet ini args) s = .next (s.ret UCAL_NO_KEY)) ∧
      (s.otpUcal ≠ none → n 2 ≤ 0x10000 → ∀ t d, s.callRead ini (argAddr args 0) (pagesFor (n 2)) (n 2) = (t, .ok, d) →
        (∀ st c, st ≠ OK → t.calVerify d = (st, c) → exec (.applyCalibrationSet ini args) s =
          .next (t.ret st (if st = SIG_FAIL ∨ st = RANGE then [w32 c] else []))) ∧
        (∀ c, t.calVerify d = (OK, c) → n 3 % 2 = 0 → exec (.applyCalibrationSet ini args) s = .next ((t.calAccept d).ret OK))) ∧
      (s.upd ≠ none → exec (.updateProcessor ini args) s = .next (s.ret UPDATE_BUSY)) ∧
      (s.upd = none → ∀ u, kindUnit (n 0) (n 1) = some u → s.Changeable u → ∀ t v d, s.fetchImage ini (argAddr args 2) (n 4) = (t, OK, [], d) →
        (∀ st c, st ≠ OK → t.check d = (v, st, c) → exec (.updateProcessor ini args) s = .next (v.retVerify st c)) ∧
        (∀ c, t.check d = (v, OK, c) → imgKind d = n 0 → v.updRefuse u d = (OK, 0) → (List.range 16).all v.taskOpen = false → v.ustate u = 2 →
          let x : UpdX := ⟨u, d, n 5 % 2 = 1, 3, v.clientOf ini, none, 0⟩
          let w := (if unitClass u = some .wp then v.setFlag uWarden 0x200 26 false else v).updHandOver u
          exec (.updateProcessor ini args) s = .next (((w.updGo x 3).trustSync).retPending 0x0C03 u).updStep)) ∧
      (let r := (s.images.filter fun e => s.ustate e.1 ≤ 1).foldl (fun (a : State × Bool) e =>
          if (match a.1.catEntry (unitKind e.1).1 (unitKind e.1).2 with | some (_, x) => a.1.catImage x == e.2 | none => false) then a
          else ((a.1.flashCommit e.1 e.2).1, a.2 || !(a.1.flashCommit e.1 e.2).2)) (s, false)
       exec (.commitRunningSet ini args) s = .next ((r.1.retPending 0x0C0F 0).finish 0x0C0F 0 (if r.2 then FLASH_ERROR else OK)))) ∧
    (∀ t st ws d, s.fetchImage ini (argAddr args 0) (n 2) = (t, st, ws, d) → (st ≠ OK → exec (.verifyImage ini args) s = .next (t.ret st ws)) ∧
      (st = OK → ∀ v r c, t.check d = (v, r, c) → exec (.verifyImage ini args) s = .next (v.retVerify r c))) ∧
    (∀ t q, s.quote (argBytes args 0 8) = (t, q) → let u := t.toBuffer ini q
      (u.call.status = RANGE → exec (.attestationQuote ini args) s = .next u) ∧
      (u.call.status ≠ RANGE → exec (.attestationQuote ini args) s =
        .next ((u.retPending 0x0C09 0 (if t.callCtx.isNone then u.call.words else [])).finish 0x0C09 0 u.call.status))) ∧
    (s.boot.sdio = false → Gives (.bootImage ini args) s fun t => ∃ w, t = { s with free := t.free }.ret REFUSED [w]) ∧
    (s.boot.sdio = true → s.claimed uTrust = true → exec (.bootImage ini args) s = .next (s.ret CLAIMED)) ∧
    (s.boot.sdio = true → s.claimed uTrust = false → n 2 = 0 → s.boot.left.contains (uMP 0) = false → exec (.bootImage ini args) s =
      .next (({ s with boot := { s.boot with left := s.boot.left.drop 1 } } : State).ret OK).bootMaybeDone) ∧
    (s.boot.sdio = true → s.claimed uTrust = false → 1 ≤ n 2 → 0x100000000 ≤ argAddr args 0 → argAddr args 0 + n 2 ≤ 0x102000000 → s.boot.left.contains (uMP 0) = true →
      ∀ t v d c, s.fetchImage ini (argAddr args 0) (n 2) = (t, OK, [], d) → t.check d = (v, OK, c) →
      (imgKind d ≠ 1 → exec (.bootImage ini args) s = .next (v.ret WRONG_IMAGE)) ∧
      (imgKind d = 1 → v.bootTarget 1 = some (uMP 0) → let w := v.setImage (uMP 0) d
        let x : State := { w with boot := { w.boot with left := w.boot.left.filter (· != uMP 0) } }
        exec (.bootImage ini args) s = .next ((x.setState (uMP 0) 0).ret OK).bootMaybeDone)))

/-- Faults, watchdogs and the environment (R555, R556, R560–R563, R566, R567, R569, R571–R576, R589): a corrected error is counted; a fault that ends no
command is recorded and acts as its code asks; a command's fault opens a record and ends the command; a missed kick forces its processor out;
standby processors take over; temperatures and rails at their limits; the hour window; scrubs; the calls of the fault manager. -/
def Obligations.FaultCommands : Prop :=
  (∀ (u code a d0 d1 : Nat) (x : Option Ctx) (s : State), s.exists? u = true →
    (code = 0 → (∀ t, s.injected u 0 = (t, 2 ^ 31) → exec (.faultDetected u code a d0 d1 x) s = .next (t.corrected u 1)) ∧
      (∀ t, s.injected u 0 = (t, 0) → exec (.faultDetected u code a d0 d1 x) s = .next ((s.injected u 2).1.corrected u 1))) ∧
    (code ≠ 0 → faultCodes.contains code = false → exec (.faultDetected u code a d0 d1 x) s = .next s) ∧
    (faultCodes.contains code = true → faultClass code = 2 → d1 < 2 ^ 31 → s.injected u 1 = (s, 0) →
      let t := if a ≠ 0 ∨ code = fPOLDER_UE then s.poisonRow a else s
      let v := if code = fSTAGE_UE ∧ isTile u = true then t.countF u 0x118 15 0 1
        else if code = fVE_RF_UE ∧ unitClass u = some .ve then t.countF u 0x124 15 0 1
        else if code = fLPDDR_UE then t.count uFault 0x13C 1
        else if code = fPOLDER_UE then t.countF (uBG (t.groupOf (bankOf a))) 0x138 15 0 1 else t
      (x.bind v.run = none → exec (.faultDetected u code a d0 d1 x) s = .next (v.unitFaultSeen u code a d0 d1)) ∧
      (∀ r, x.bind v.run = some r → exec (.faultDetected u code a d0 d1 x) s = .next (v.commandFault r u code a d0 d1))) ∧
    (faultCodes.contains code = true → faultClass code ≠ 2 → code ≠ fPROC_FAULT → d1 < 2 ^ 31 →
      (x.bind s.run = none → exec (.faultDetected u code a d0 d1 x) s = .next (s.unitFaultSeen u code a d0 d1)) ∧
      (∀ r, x.bind s.run = some r → exec (.faultDetected u code a d0 d1 x) s =
        .next (if faultClass code = 3 then s.commandFault r u code a d0 d1 else s.unitFaultSeen u code a d0 d1)))) ∧
  (∀ (u code a d0 d1 : Nat) (s : State), code ≠ fPROC_FAULT → code ≠ fSEQ_UE → code ≠ fREFCLK →
    s.unitFaultSeen u code a d0 d1 = s.recordFault code u 0x4A noQueue 0 a d0 d1 (if finalCode code then oNone else oPending)) ∧
  (∀ (r : CtxRun) (u code a d0 d1 : Nat) (s : State), r.ended = false →
    (∀ y, s.slot r.queue = some y → ∀ n c v, y.retried = some (n, c, v) → c ≠ code ∨ v ≠ u) →
    let t := s.recordFault code u (ctxIni r.ctx) r.queue (eSeq r.entry) a d0 d1 (if finalCode code then oNone else oPending)
    s.commandFault r u code a d0 d1 =
      (t.updRun r.ctx fun y => { y with faultUnit := some u, faultRec := some (t.recordOf code u a) }).failRun r.ctx code r.pos) ∧
  (∀ (u : Nat) (s : State), (unitClass u = some .mp ∨ unitClass u = some .sp ∨ unitClass u = some .cs ∨ unitClass u = some .px) →
    (s.ustate u = 2 → exec (.procWatchdogBite u) s = .next s) ∧
    (s.ustate u ≠ 2 → ∀ t inj, s.injected u 3 = (t, inj) →
      exec (.procWatchdogBite u) s = .next ((t.recordFault fPROC_WATCHDOG u 0x4A noQueue 0 0 0 inj oNone).forceOut u))) ∧
  (∀ s : State, exec .spTakeover s = .next { s with spPause := false } ∧
    (s.ustate (uMP s.mpActive) ≠ 0 → s.ustate (uMP (1 - s.mpActive)) = 0 → exec .mpTakeover s = .next { s with mpActive := 1 - s.mpActive }) ∧
    (s.ustate (uMP s.mpActive) = 0 ∨ s.ustate (uMP (1 - s.mpActive)) ≠ 0 → exec .mpTakeover s = .next s)) ∧
  (∀ (l : List Int) (s : State), l ≠ [] →
    let b : State := ({ s with temps := l.take 24 } : State).calApply fun k => k / 65536 = 0 && k % 65536 / 4096 = 1
    let t := b.wr uFault 0x130 (w32 ((hottest l).1 * 2 ^ 20 + ((hottest l).2 % 65536).toNat))
    let u := if newlyAt (junction t.part) s.temps l then (t.recordFault fTEMP_WARN uFault 0x4A noQueue 0 0 0 0 oNone).pwrAlarm else t
    exec (.tempSample l) s = .next (if newlyAt (junction u.part + 160) s.temps l then
      (u.recordFault fTEMP_TRIP uFault 0x4A noQueue 0 0 0 0 oNone).wdCmdWrite 0x4A 2 else u)) ∧
  (∀ (rail : Nat) (s : State), rail ≤ 6 → let t := (s.setFlag uFault 0x134 rail true).recordFault fRAIL uPwr 0x4A noQueue 0 0 0 0 oNone
    exec (.railOutOfRange rail true) s = .next (s.setFlag uFault 0x134 rail false) ∧
    (rail ≤ 1 → t.pwr.step = none → t.pwrState ≤ 3 → exec (.railOutOfRange rail false) s = .next (t.wdCmdWrite 0x4A 2)) ∧
    (2 ≤ rail ∨ t.pwr.step ≠ none ∨ 4 ≤ t.pwrState → exec (.railOutOfRange rail false) s = .next t)) ∧
  (∀ s : State, (s.pwr.step ≠ none → exec .pmbusAlert s = exec (.setpointStepDone false) s) ∧
    (s.pwr.step = none → exec .pmbusAlert s = .next (s.railFault 0))) ∧
  (∀ s : State, exec .transientWindowEnd s = .next ((s.health.map (·.1)).foldl (fun (s : State) u =>
    s.setHealthX u { s.healthX u with trans := 0, ce := 0, atLimit := false }) s).fltSync) ∧
  (∀ (m ce : Nat) (ues : List Nat) (s : State), m < 24 → s.exists? (uMCH m) = true →
    exec (.lpddrScrub m ce ues) s = .next (ues.foldl (fun (s : State) a => (s.count uFault 0x13C 1).recordFault fLPDDR_UE (uMCH m) 0x4B noQueue 0 a 0 0 oNone)
      (if ce = 0 then s else s.corrected (uMCH m) ce))) ∧
  (∀ (ini : Nat) (args : List Word) (s : State), let n := arg args
    (s.claimed uFault = true → exec (.acknowledgeRecords ini args) s = .next (s.ret CLAIMED)) ∧
    (s.claimed uFault = false → exec (.acknowledgeRecords ini args) s = .next ((s.wr uFault 0x110 (nth args 0 0)).ret OK)) ∧
    (n 0 ≤ 1 → 1 ≤ n 1 → n 1 ≤ 255 → n 2 ≤ 4095 → s.claimed uFault = false → exec (.setFaultOptions ini args) s =
      .next (((s.wr uFault 0x104 (w32 (n 0 * 2 ^ 31 + n 1 * 2 ^ 8))).wr uFault 0x108 (nth args 2 0)).ret OK)) ∧
    (s.exists? (n 0) = true → n 1 ≤ 3 → n 2 ≤ 7 →
      (s.wdState = 0 ∨ s.wdState = 4 → ini = 0x100 ∨ ini = 0x180 →
        exec (.injectFault ini args) s = .next { s.ret OK with inject := s.inject ++ [(n 0, n 1, n 2)] }) ∧
      ((s.wdState ≠ 0 ∧ s.wdState ≠ 4) ∨ (ini ≠ 0x100 ∧ ini ≠ 0x180) → exec (.injectFault ini args) s = .next (s.ret INJECT_REFUSED))))

/-- The command queue: a step takes the command at the front and runs it on the state with the queue's rest, and answers what it
answers. -/
def Obligations.StepRunsFrontCommand : Prop :=
  ∀ (c : Instr) (rest : List Instr) (s : State), step { s with pending := c :: rest } = exec c { s with pending := rest }

/-- Every command completes and leaves the queue alone: in any state and with any operands exec answers a next state, none stops the
block, and the commands that wait behind it are there afterwards in their order; so a step takes the front one and no other. -/
def Obligations.EveryCommandCompletes : Prop :=
  (∀ (c : Instr) (s : State), ∃ t, exec c s = .next t ∧ t.pending = s.pending) ∧
  ∀ (c : Instr) (rest : List Instr) (s : State), ∃ t, step { s with pending := c :: rest } = .next t ∧ t.pending = rest

/-- The clock (R461, R464; log entry 7, the model's choice: a step on an empty queue is one tick of the 500 MHz clock). While no
step and no set waits and no slew runs, a tick adds INCR in units of 2^−28 ns to Gauge time, seconds wrap at 2^48, and nothing
else changes. -/
def Obligations.IdleTicksGauge : Prop :=
  ∀ s : State, s.pending = [] → s.gauge.step = none → s.gauge.set = none → s.adjLeft = 0 → s.gauge.sec < 2 ^ 48 →
    s.gauge.sub < nsPerS * 2 ^ 28 → ∃ t, step s = .next t ∧ { t with gauge := s.gauge } = s ∧ t.gauge.ticks = s.gauge.ticks + 1 ∧
      t.gauge.sec < 2 ^ 48 ∧ t.gauge.sub < nsPerS * 2 ^ 28 ∧
      (t.gauge.sec * (nsPerS * 2 ^ 28) + t.gauge.sub) % (2 ^ 48 * (nsPerS * 2 ^ 28)) =
        (s.gauge.sec * (nsPerS * 2 ^ 28) + s.gauge.sub + (s.rd uGauge 0x110).toNat) % (2 ^ 48 * (nsPerS * 2 ^ 28))

/-- The block right after reset: no command waits, no claim is held, Gauge time is 0 (R461), nothing has happened to registers, marks
and memory, and the stores stand in canonical form. -/
def Obligations.ResetState : Prop :=
  State.reset.pending = [] ∧ State.reset.claims = [] ∧ State.reset.nowNs = 0 ∧ (∀ m, State.reset.mark m = 0) ∧ State.reset.Canonical ∧
    State.reset.rd uGauge 0x110 = 0x20000000 ∧ State.reset.adjLeft = 0

/-- The stores of the machine are kept in canonical form by every step from every state (registers, marks, counters, Polder, LPDDR4X,
host memory, boot flash): equal contents are equal data. -/
def Obligations.StepKeepsCanonicalForm : Prop := ∀ s t : State, s.Canonical → step s = .next t → t.Canonical

/-- R530, R531: one-time programmable fuses are never cleared. Whatever command runs, in whatever state, a revoked root slot stays
revoked, a security version number never falls, the user calibration key once set stays, DEV_LOCK and the part stay. -/
def Obligations.FusesNeverCleared : Prop := ∀ s t : State, step s = .next t → FusesKept s t
end

