-- ==== Sys2Proof/Laws/Bits.lean ====
section
/-! SUPPORT. Laws of bit fields, byte order and saturating counts. -/
namespace Sys2Proof.Machine

/-- A field never exceeds its width. -/
theorem bits_lt {n : Nat} (w : BitVec n) (hi lo : Nat) : bits w hi lo < 2 ^ (hi + 1 - lo) :=
  Nat.mod_lt _ (by positivity)

/-- A number cut at lo and at hi + 1. -/
theorem field_split (x hi lo : Nat) (h : lo ≤ hi) :
    x = x / 2 ^ (hi + 1) * 2 ^ (hi + 1) + (x / 2 ^ lo % 2 ^ (hi + 1 - lo)) * 2 ^ lo + x % 2 ^ lo := by
  have e : 2 ^ (hi + 1) = 2 ^ lo * 2 ^ (hi + 1 - lo) := by rw [← pow_add]; congr 1; omega
  have d : x / 2 ^ (hi + 1) = x / 2 ^ lo / 2 ^ (hi + 1 - lo) := by rw [e, Nat.div_div_eq_div_mul]
  have a := Nat.div_add_mod x (2 ^ lo)
  have b := Nat.div_add_mod (x / 2 ^ lo) (2 ^ (hi + 1 - lo))
  rw [d, e]
  calc x = 2 ^ lo * (x / 2 ^ lo) + x % 2 ^ lo := a.symm
    _ = 2 ^ lo * (2 ^ (hi + 1 - lo) * (x / 2 ^ lo / 2 ^ (hi + 1 - lo)) + x / 2 ^ lo % 2 ^ (hi + 1 - lo)) + x % 2 ^ lo := by rw [b]
    _ = _ := by ring

/-- What setBits stores, as a number. -/
theorem setBits_toNat {n : Nat} (w : BitVec n) (hi lo v : Nat) (h : lo ≤ hi) (hn : hi < n) :
    (setBits w hi lo v).toNat =
      w.toNat / 2 ^ (hi + 1) * 2 ^ (hi + 1) + (v % 2 ^ (hi + 1 - lo)) * 2 ^ lo + w.toNat % 2 ^ lo := by
  have s := field_split w.toNat hi lo h
  have e : 2 ^ (hi + 1) = 2 ^ lo * 2 ^ (hi + 1 - lo) := by rw [← pow_add]; congr 1; omega
  have lt : w.toNat / 2 ^ (hi + 1) * 2 ^ (hi + 1) + (v % 2 ^ (hi + 1 - lo)) * 2 ^ lo + w.toNat % 2 ^ lo < 2 ^ n := by
    have q : w.toNat / 2 ^ (hi + 1) < 2 ^ (n - (hi + 1)) := by
      rw [Nat.div_lt_iff_lt_mul (by positivity), ← pow_add]
      have : n - (hi + 1) + (hi + 1) = n := by omega
      rw [this]; exact w.isLt
    have en : 2 ^ n = 2 ^ (n - (hi + 1)) * 2 ^ (hi + 1) := by rw [← pow_add]; congr 1; omega
    have f : v % 2 ^ (hi + 1 - lo) < 2 ^ (hi + 1 - lo) := Nat.mod_lt _ (by positivity)
    have m : w.toNat % 2 ^ lo < 2 ^ lo := Nat.mod_lt _ (by positivity)
    have p : 0 < 2 ^ lo := by positivity
    have : (v % 2 ^ (hi + 1 - lo)) * 2 ^ lo + w.toNat % 2 ^ lo < 2 ^ (hi + 1) := by
      rw [e]
      calc (v % 2 ^ (hi + 1 - lo)) * 2 ^ lo + w.toNat % 2 ^ lo
          < (v % 2 ^ (hi + 1 - lo)) * 2 ^ lo + 2 ^ lo := by omega
        _ = (v % 2 ^ (hi + 1 - lo) + 1) * 2 ^ lo := by ring
        _ ≤ 2 ^ (hi + 1 - lo) * 2 ^ lo := Nat.mul_le_mul_right _ f
        _ = 2 ^ lo * 2 ^ (hi + 1 - lo) := Nat.mul_comm _ _
    calc _ < w.toNat / 2 ^ (hi + 1) * 2 ^ (hi + 1) + 2 ^ (hi + 1) := by omega
      _ = (w.toNat / 2 ^ (hi + 1) + 1) * 2 ^ (hi + 1) := by ring
      _ ≤ 2 ^ (n - (hi + 1)) * 2 ^ (hi + 1) := Nat.mul_le_mul_right _ q
      _ = 2 ^ n := en.symm
  have r : w.toNat - bits w hi lo * 2 ^ lo + (v % 2 ^ (hi + 1 - lo)) * 2 ^ lo =
      w.toNat / 2 ^ (hi + 1) * 2 ^ (hi + 1) + (v % 2 ^ (hi + 1 - lo)) * 2 ^ lo + w.toNat % 2 ^ lo := by
    unfold bits; omega
  unfold setBits
  simp only [BitVec.toNat_ofNat]
  rw [r, Nat.mod_eq_of_lt lt]

/-- A field reads as it was set. -/
theorem bits_setBits_same {n : Nat} (w : BitVec n) (hi lo v : Nat) (h : lo ≤ hi) (hn : hi < n) :
    bits (setBits w hi lo v) hi lo = v % 2 ^ (hi + 1 - lo) := by
  have e : 2 ^ (hi + 1) = 2 ^ lo * 2 ^ (hi + 1 - lo) := by rw [← pow_add]; congr 1; omega
  have m : w.toNat % 2 ^ lo < 2 ^ lo := Nat.mod_lt _ (by positivity)
  have p : 0 < 2 ^ lo := by positivity
  unfold bits
  rw [setBits_toNat w hi lo v h hn, e]
  have : w.toNat / (2 ^ lo * 2 ^ (hi + 1 - lo)) * (2 ^ lo * 2 ^ (hi + 1 - lo)) + v % 2 ^ (hi + 1 - lo) * 2 ^ lo +
      w.toNat % 2 ^ lo = w.toNat % 2 ^ lo + 2 ^ lo * (w.toNat / (2 ^ lo * 2 ^ (hi + 1 - lo)) * 2 ^ (hi + 1 - lo) +
        v % 2 ^ (hi + 1 - lo)) := by ring
  rw [this, Nat.add_mul_div_left _ _ p, Nat.div_eq_of_lt m, Nat.zero_add]
  rw [Nat.add_comm, Nat.add_mul_mod_self_right, Nat.mod_mod]

/-- A higher field keeps its value. -/
theorem bits_setBits_above {n : Nat} (w : BitVec n) (hi lo v hi' lo' : Nat) (h : lo ≤ hi) (hn : hi < n)
    (ab : hi < lo') : bits (setBits w hi lo v) hi' lo' = bits w hi' lo' := by
  have e : 2 ^ lo' = 2 ^ (hi + 1) * 2 ^ (lo' - (hi + 1)) := by rw [← pow_add]; congr 1; omega
  unfold bits
  congr 1
  have s := setBits_toNat w hi lo v h hn
  have lt : v % 2 ^ (hi + 1 - lo) * 2 ^ lo + w.toNat % 2 ^ lo < 2 ^ (hi + 1) := by
    have f : v % 2 ^ (hi + 1 - lo) < 2 ^ (hi + 1 - lo) := Nat.mod_lt _ (by positivity)
    have m : w.toNat % 2 ^ lo < 2 ^ lo := Nat.mod_lt _ (by positivity)
    have e2 : 2 ^ (hi + 1) = 2 ^ (hi + 1 - lo) * 2 ^ lo := by rw [← pow_add]; congr 1; omega
    rw [e2]
    calc _ < v % 2 ^ (hi + 1 - lo) * 2 ^ lo + 2 ^ lo := by omega
      _ = (v % 2 ^ (hi + 1 - lo) + 1) * 2 ^ lo := by ring
      _ ≤ 2 ^ (hi + 1 - lo) * 2 ^ lo := Nat.mul_le_mul_right _ f
  rw [e, ← Nat.div_div_eq_div_mul, ← Nat.div_div_eq_div_mul, s, Nat.add_assoc, Nat.add_comm,
    Nat.add_mul_div_right _ _ (by positivity), Nat.div_eq_of_lt lt, Nat.zero_add]

/-- A lower field keeps its value. -/
theorem bits_setBits_below {n : Nat} (w : BitVec n) (hi lo v hi' lo' : Nat) (h : lo ≤ hi) (hn : hi < n)
    (ord : lo' ≤ hi') (be : hi' < lo) : bits (setBits w hi lo v) hi' lo' = bits w hi' lo' := by
  have s := setBits_toNat w hi lo v h hn
  have key : ∀ x : Nat, x / 2 ^ lo' % 2 ^ (hi' + 1 - lo') = x % 2 ^ lo / 2 ^ lo' % 2 ^ (hi' + 1 - lo') := by
    intro x
    have e1 : 2 ^ lo' * 2 ^ (hi' + 1 - lo') = 2 ^ (hi' + 1) := by rw [← pow_add]; congr 1; omega
    have e2 : 2 ^ (hi' + 1) ∣ 2 ^ lo := Nat.pow_dvd_pow 2 (by omega)
    rw [← Nat.mod_mul_right_div_self, ← Nat.mod_mul_right_div_self, e1, Nat.mod_mod_of_dvd _ e2]
  have dv : 2 ^ lo ∣ w.toNat / 2 ^ (hi + 1) * 2 ^ (hi + 1) + v % 2 ^ (hi + 1 - lo) * 2 ^ lo :=
    Dvd.dvd.add (Dvd.dvd.mul_left (Nat.pow_dvd_pow 2 (by omega)) _) (Dvd.intro_left _ rfl)
  unfold bits
  rw [key (setBits w hi lo v).toNat, key w.toNat, s, Nat.add_mod, Nat.mod_eq_zero_of_dvd dv]
  simp

/-- The bit set last. -/
theorem bit_eq_bits {n : Nat} (w : BitVec n) (i : Nat) : bit w i = decide (bits w i i = 1) := by
  simp [bit, bits]

/-- A bit reads as it was set. -/
theorem bit_setBit_same {n : Nat} (w : BitVec n) (i : Nat) (b : Bool) (hn : i < n) : bit (setBit w i b) i = b := by
  rw [bit_eq_bits, setBit, bits_setBits_same w i i _ (Nat.le_refl i) hn]
  cases b <;> simp

/-- The number of a word made of a number. -/
theorem w32_toNat (k : Nat) : (w32 k).toNat = k % 2 ^ 32 := BitVec.toNat_ofNat k 32

/-- natBytes gives as many bytes as asked. -/
@[simp] theorem natBytes_length (k v : Nat) : (natBytes k v).length = k := by
  induction k generalizing v with
  | zero => rfl
  | succ k ih => simp [natBytes, ih]

/-- Little-endian bytes spell the number again, cut to their width (R11). -/
theorem bytesNat_natBytes (k v : Nat) : bytesNat (natBytes k v) = v % 256 ^ k := by
  induction k generalizing v with
  | zero => simp [natBytes, bytesNat, Nat.mod_one]
  | succ k ih =>
    simp only [natBytes, bytesNat, ih, BitVec.toNat_ofNat]
    rw [show (2 : Nat) ^ 8 = 256 from rfl, pow_succ, Nat.mul_comm (256 ^ k) 256, Nat.mod_mul]

/-- A saturating sum stays within its top. -/
theorem satAdd_le (top a b : Nat) : satAdd top a b ≤ top := by
  unfold satAdd; split <;> omega

end Sys2Proof.Machine
end

