-- ==== Sys2Proof/Laws/SMap.lean ====
section
/-! SUPPORT. Laws of the sparse maps: what was written is read back, other keys keep their value, every write keeps the
canonical form. -/
namespace Sys2Proof.Machine

variable {α : Type}

theorem SMap.get_erase_same (d : Nat → α) (k : Nat) (l : List (Nat × α)) : SMap.get d k (SMap.erase k l) = d k := by
  induction l with
  | nil => rfl
  | cons e t ih =>
    obtain ⟨a, v⟩ := e
    by_cases h : a = k
    · subst h; simpa [SMap.erase] using ih
    · have hb : (a != k) = true := by simpa using h
      simp only [SMap.erase, List.filter, hb, SMap.get, h, if_false] at ih ⊢
      exact ih

theorem SMap.get_erase_ne (d : Nat → α) (k k' : Nat) (l : List (Nat × α)) (n : k' ≠ k) :
    SMap.get d k' (SMap.erase k l) = SMap.get d k' l := by
  induction l with
  | nil => rfl
  | cons e t ih =>
    obtain ⟨a, v⟩ := e
    by_cases h : a = k
    · subst h
      have : a ≠ k' := fun x => n x.symm
      simp only [SMap.erase, List.filter, bne_self_eq_false, SMap.get, this, if_false] at ih ⊢
      exact ih
    · have hb : (a != k) = true := by simpa using h
      simp only [SMap.erase, List.filter, hb, SMap.get] at ih ⊢
      split
      · rfl
      · exact ih

theorem SMap.get_insert_same (d : Nat → α) (k : Nat) (v : α) (l : List (Nat × α)) (n : ∀ e ∈ l, e.1 ≠ k) :
    SMap.get d k (SMap.insert k v l) = v := by
  induction l with
  | nil => simp [SMap.insert, SMap.get]
  | cons e t ih =>
    obtain ⟨a, w⟩ := e
    have h : a ≠ k := n (a, w) (by simp)
    simp only [SMap.insert]
    split
    · simp [SMap.get]
    · simpa [SMap.get, h] using ih (fun e m => n e (by simp [m]))

theorem SMap.get_insert_ne (d : Nat → α) (k k' : Nat) (v : α) (l : List (Nat × α)) (n : k' ≠ k) :
    SMap.get d k' (SMap.insert k v l) = SMap.get d k' l := by
  induction l with
  | nil => simp [SMap.insert, SMap.get, Ne.symm n]
  | cons e t ih =>
    obtain ⟨a, w⟩ := e
    simp only [SMap.insert]
    split
    · simp [SMap.get, Ne.symm n]
    · simp only [SMap.get, ih]

theorem SMap.mem_erase {k : Nat} {l : List (Nat × α)} {e : Nat × α} (h : e ∈ SMap.erase k l) : e ∈ l ∧ e.1 ≠ k := by
  simpa [SMap.erase] using h

variable [DecidableEq α]

/-- What was written is read back. -/
@[simp] theorem SMap.get_set_same (d : Nat → α) (k : Nat) (v : α) (l : List (Nat × α)) :
    SMap.get d k (SMap.set d k v l) = v := by
  unfold SMap.set
  split
  · next h => rw [SMap.get_erase_same, h]
  · exact SMap.get_insert_same d k v _ fun e m => (SMap.mem_erase m).2

/-- Another key keeps its value. -/
theorem SMap.get_set_ne (d : Nat → α) (k k' : Nat) (v : α) (l : List (Nat × α)) (n : k' ≠ k) :
    SMap.get d k' (SMap.set d k v l) = SMap.get d k' l := by
  unfold SMap.set
  split
  · exact SMap.get_erase_ne d k k' l n
  · rw [SMap.get_insert_ne d k k' v _ n, SMap.get_erase_ne d k k' l n]

/-- A read after a write, in one equation. -/
theorem SMap.get_set (d : Nat → α) (k k' : Nat) (v : α) (l : List (Nat × α)) :
    SMap.get d k' (SMap.set d k v l) = if k' = k then v else SMap.get d k' l := by
  split
  · next h => subst h; exact SMap.get_set_same d k' v l
  · next h => exact SMap.get_set_ne d k k' v l h

omit [DecidableEq α] in
theorem SMap.rising_iff (l : List (Nat × α)) : SMap.rising l = true ↔ l.Pairwise (fun a b => a.1 < b.1) := by
  induction l with
  | nil => simp [SMap.rising]
  | cons e t ih =>
    cases t with
    | nil => simp [SMap.rising]
    | cons e' t' =>
      obtain ⟨a, v⟩ := e
      obtain ⟨b, w⟩ := e'
      simp only [SMap.rising, Bool.and_eq_true, decide_eq_true_eq, ih, List.pairwise_cons]
      constructor
      · rintro ⟨h, h1, h2⟩
        refine ⟨?_, h1, h2⟩
        intro x m
        rcases List.mem_cons.1 m with rfl | m
        · exact h
        · exact lt_trans h (h1 x m)
      · rintro ⟨h, h1, h2⟩
        exact ⟨h (b, w) (by simp), h1, h2⟩

omit [DecidableEq α] in
theorem SMap.mem_insert {k : Nat} {v : α} {l : List (Nat × α)} {e : Nat × α} (h : e ∈ SMap.insert k v l) :
    e = (k, v) ∨ e ∈ l := by
  induction l with
  | nil => simpa [SMap.insert] using h
  | cons x t ih =>
    simp only [SMap.insert] at h
    split at h
    · rcases List.mem_cons.1 h with r | r
      · exact Or.inl r
      · exact Or.inr r
    · rcases List.mem_cons.1 h with r | r
      · exact Or.inr (by simp [r])
      · rcases ih r with r | r
        · exact Or.inl r
        · exact Or.inr (by simp [r])

omit [DecidableEq α] in
theorem SMap.rising_insert (k : Nat) (v : α) (l : List (Nat × α)) (h : SMap.rising l = true) (n : ∀ e ∈ l, e.1 ≠ k) :
    SMap.rising (SMap.insert k v l) = true := by
  rw [SMap.rising_iff] at h ⊢
  induction l with
  | nil => simp [SMap.insert]
  | cons x t ih =>
    obtain ⟨a, w⟩ := x
    have na : a ≠ k := n (a, w) (by simp)
    rw [List.pairwise_cons] at h
    simp only [SMap.insert]
    split
    · next lt =>
      rw [List.pairwise_cons]
      refine ⟨?_, List.pairwise_cons.2 h⟩
      intro y m
      rcases List.mem_cons.1 m with rfl | m
      · exact lt
      · exact lt_trans lt (h.1 y m)
    · next ge =>
      rw [List.pairwise_cons]
      refine ⟨?_, ih h.2 fun e m => n e (by simp [m])⟩
      intro y m
      rcases SMap.mem_insert m with rfl | m
      · show a < k
        omega
      · exact h.1 y m

omit [DecidableEq α] in
theorem SMap.rising_erase (k : Nat) (l : List (Nat × α)) (h : SMap.rising l = true) :
    SMap.rising (SMap.erase k l) = true := by
  rw [SMap.rising_iff] at h ⊢
  exact h.filter _

/-- The canonical form, as a proposition. -/
theorem SMap.wf_iff (d : Nat → α) (l : List (Nat × α)) :
    SMap.wf d l = true ↔ SMap.rising l = true ∧ ∀ e ∈ l, e.2 ≠ d e.1 := by
  simp [SMap.wf]

@[simp] theorem SMap.wf_nil (d : Nat → α) : SMap.wf d ([] : List (Nat × α)) = true := rfl

/-- Every write keeps the canonical form. -/
theorem SMap.wf_set (d : Nat → α) (k : Nat) (v : α) (l : List (Nat × α)) (h : SMap.wf d l = true) :
    SMap.wf d (SMap.set d k v l) = true := by
  rw [SMap.wf_iff] at h ⊢
  have he := SMap.rising_erase k l h.1
  unfold SMap.set
  split
  · exact ⟨he, fun e m => h.2 e (SMap.mem_erase m).1⟩
  · next nv =>
    refine ⟨SMap.rising_insert k v _ he fun e m => (SMap.mem_erase m).2, ?_⟩
    intro e m
    rcases SMap.mem_insert m with rfl | m
    · exact nv
    · exact h.2 e (SMap.mem_erase m).1

/-- A map cut to keys that p keeps is canonical for every default that agrees with the old one on them. -/
theorem SMap.wf_filter (d d' : Nat → α) (p : Nat × α → Bool) (l : List (Nat × α)) (h : SMap.wf d l = true)
    (a : ∀ e ∈ l, p e = true → d' e.1 = d e.1) : SMap.wf d' (l.filter p) = true := by
  rw [SMap.wf_iff] at h ⊢
  refine ⟨?_, ?_⟩
  · rw [SMap.rising_iff] at h ⊢
    exact h.1.filter _
  · intro e m
    rw [List.mem_filter] at m
    rw [a e m.1 m.2]
    exact h.2 e m.1

end Sys2Proof.Machine
end

