-- ==== Sys2Proof/Laws/Keeps.lean ====
section
/-! SUPPORT. What every operation of the machine keeps: the queue, the fuses, the part, the canonical form of the stores. -/
namespace Sys2Proof.Machine

/-- From s to t the queue, the fuses and the part are kept, and so is the canonical form. -/
structure Keeps (s t : State) : Prop where
  pending : t.pending = s.pending
  fuses : FusesKept s t
  canonical : s.Canonical → t.Canonical

theorem FusesKept.refl (s : State) : FusesKept s s :=
  ⟨Nat.and_self _, rfl, fun _ => Nat.le_refl _, fun _ h => h, rfl, rfl⟩

theorem FusesKept.trans {a b c : State} (h : FusesKept a b) (g : FusesKept b c) : FusesKept a c := by
  obtain ⟨h1, h2, h3, h4, h5, h6⟩ := h
  obtain ⟨g1, g2, g3, g4, g5, g6⟩ := g
  refine ⟨?_, h2.trans g2, fun i => (h3 i).trans (g3 i), fun x e => g4 x (h4 x e), g5.trans h5, g6.trans h6⟩
  rw [← h1, Nat.and_assoc, g1]

theorem Keeps.refl (s : State) : Keeps s s := ⟨rfl, FusesKept.refl s, id⟩

theorem Keeps.trans {a b c : State} (h : Keeps a b) (g : Keeps b c) : Keeps a c :=
  ⟨g.pending.trans h.pending, h.fuses.trans g.fuses, g.canonical ∘ h.canonical⟩

theorem Keeps.after {a b c : State} (g : Keeps b c) (h : Keeps a b) : Keeps a c := h.trans g

theorem Keeps.optAfter {a b c : State} {f : Option State} (g : ∀ t, f = some t → Keeps b t) (e : f = some c)
    (h : Keeps a b) : Keeps a c := h.trans (g c e)

theorem Keeps.ofId (s : State) : Keeps s (id s) := Keeps.refl s

theorem Keeps.ofNone {s t : State} : none = some t → Keeps s t := fun e => nomatch e

theorem Keeps.ofSome {s t u : State} (h : Keeps s u) : some u = some t → Keeps s t := fun e => by cases e; exact h

theorem Keeps.ofIte {s t : State} {c : Prop} [Decidable c] {a b : Option State} (h : a = some t → Keeps s t)
    (g : b = some t → Keeps s t) : (if c then a else b) = some t → Keeps s t := by
  split
  · exact h
  · exact g

theorem Keeps.getD {a s u : State} {o : Option State} (h : ∀ t, o = some t → Keeps s t) (k : Keeps a u) (g : Keeps a s) :
    Keeps a (o.getD u) := by
  cases o with
  | none => exact k
  | some t => exact g.trans (h t rfl)

/-- A state that agrees with s on the queue, the fuses, the part and the stores. -/
theorem Keeps.of_eq {s t : State} (p : t.pending = s.pending) (part : t.part = s.part) (regs : t.regs = s.regs)
    (mem : t.mem = s.mem) (voids : t.voids = s.voids) (hostMem : t.hostMem = s.hostMem) (marks : t.marks = s.marks)
    (wide : t.wide = s.wide) (revoke : t.otpRevoke = s.otpRevoke) (svn : t.otpSvn = s.otpSvn) (ucal : t.otpUcal = s.otpUcal)
    (lock : t.devLock = s.devLock) (flash : t.flash = s.flash) : Keeps s t := by
  refine ⟨p, ?_, ?_⟩
  · unfold FusesKept
    rw [revoke, svn, ucal, lock, part]
    exact FusesKept.refl s
  · unfold State.Canonical Memory.wf State.storesWf
    rw [part, regs, mem, voids, hostMem, marks, wide, flash]
    exact id

/-- An update of fields that Keeps does not speak of. -/
theorem Keeps.upd_iff (s u : State)
    (free : Nat) (out : List OutMsg) (call : CallResult) (callCtx : Option CallCtx) (pendCalls : List PendCall) (claims :
    List Claim) (accErr : Option AccErr) (addrErr : Option (Nat × Nat)) (rates : List (Nat × RateMon)) (ucbs : List (Nat ×
    UcbRun)) (clients : List (Nat × ClientX)) (qcache : List QSlot) (watches : List Watch) (reservs : List Reserv) (gangs
    : List Gang) (ctxs : List CtxRun) (gauge : GaugeX) (tlb : List TlbEntry) (faults : List FaultRec) (health : List (Nat
    × HealthX)) (healthSeen : List (Nat × Nat)) (pfBusMaster : Bool) (wdFifo : List WdReport) (wdHard : Bool) (banks : List (Nat × BankX)) (rows : List
    (Nat × RowX)) (bankMap : List (Nat × Nat)) (spareRows : List (Nat × Nat)) (copies : List (Nat × Nat)) (banksOut : List Nat) (maintDue : List Nat) (locks : List
    LockX) (severed : List (Nat × Nat)) (held : List HeldAcc) (parcels : List (Nat × PclX)) (reply : Reply) (doneFifo :
    List (Nat × Nat × Nat × Nat)) (spareRelease : List Nat) (pwr : PwrX) (sbOn : List Nat) (rtx : List RemTx) (rtags :
    List (Nat × Nat)) (rchunks : List RemChunk) (rgrants : List RemGrant) (rwaits : List RemGrant) (rbad : List (Nat × Nat
    × Nat)) (rstuck : List (Nat × Nat)) (cmps : List (Nat × CmpX)) (pulses : List Nat) (caps : List (Nat × List (Nat × Nat × Nat))) (ptp : PtpX) (ethQ
    : List EthTx) (ethBusy : List EthTx) (qbv : List (Nat × QbvX)) (genRings : List (Nat × GenRing)) (cans : List (Nat ×
    CanX)) (encs : List (Nat × EncX)) (loops : List (Nat × MillLoop)) (lcores : List (Nat × Nat)) (trigN : List (Nat ×
    Nat)) (pwmShadow : List (Nat × Nat)) (tbAt : List (Nat × Nat)) (takingOver : List Nat) (txWords : List (Nat × TxWord)) (txFirst : List (Nat × Nat)) (rxWords : List (Nat
    × Word)) (gateSet : List (Nat × Word)) (wd : WdX) (domOff : List Nat) (lawLast : Nat) (calSet : List (Nat × Nat))
    (calOn : List (Nat × Nat)) (lastRun : List (Nat × Nat × Nat × Bool)) (maintHold : Option Nat) (maintNs : Nat) (loads :
    List WLoad) (links : List (Nat × AxLink)) (ring : RingX) (vats : List (Nat × VatX)) (pps : List (Nat × PpX)) (sensors
    : List (Nat × List SenJob)) (feeds : List (Nat × FeedX)) (mpActive : Nat) (spPause : Bool) (temps : List Int) (inject
    : List (Nat × Nat × Nat)) (stores : List (Nat × Nat)) (psumBad : List Nat) (xlInval : Option (Bool × Bool × Nat × Nat × Nat)) (mbLast : Nat) (mbDiscard : List Nat)
    (images : List (Nat × List Byte)) (calBytes : List Byte) (boot : BootX) (upd : Option UpdX) (consent : Option (List
    Byte)) :
    Keeps s ⟨u.pending, free, u.part, u.regs, u.mem, u.voids, u.hostMem, u.marks, u.wide, out, call, callCtx, pendCalls,
      claims, accErr, addrErr, rates, ucbs, clients, qcache, watches, reservs, gangs, ctxs, gauge, tlb, faults,
      health, healthSeen, pfBusMaster, wdFifo, wdHard, banks, rows, bankMap, spareRows, copies, banksOut, maintDue, locks, severed, held, parcels,
      reply, doneFifo, spareRelease, pwr, sbOn, rtx, rtags, rchunks, rgrants, rwaits, rbad, rstuck, cmps, pulses, caps, ptp,
      ethQ, ethBusy, qbv, genRings, cans, encs, loops, lcores, trigN, pwmShadow, tbAt, takingOver, txWords, txFirst, rxWords, gateSet,
      wd, domOff, lawLast, calSet, calOn, lastRun, maintHold, maintNs, loads, links, ring, vats, pps, sensors, feeds,
      mpActive, spPause, temps, inject, stores, psumBad, xlInval, mbLast, mbDiscard, images, u.otpRevoke, u.otpSvn, u.otpUcal,
      u.devLock, u.flash, calBytes, boot, upd, consent⟩ ↔ Keeps s u := by
  constructor
  · exact fun k => k.trans (Keeps.of_eq rfl rfl rfl rfl rfl rfl rfl rfl rfl rfl rfl rfl rfl)
  · exact fun k => k.trans (Keeps.of_eq rfl rfl rfl rfl rfl rfl rfl rfl rfl rfl rfl rfl rfl)

/-- An update that also returns some registers to their reset values. -/
theorem Keeps.cutRegs (s u : State) (p : Nat × Word → Bool)
    (free : Nat) (out : List OutMsg) (call : CallResult) (callCtx : Option CallCtx) (pendCalls : List PendCall) (claims :
    List Claim) (accErr : Option AccErr) (addrErr : Option (Nat × Nat)) (rates : List (Nat × RateMon)) (ucbs : List (Nat ×
    UcbRun)) (clients : List (Nat × ClientX)) (qcache : List QSlot) (watches : List Watch) (reservs : List Reserv) (gangs
    : List Gang) (ctxs : List CtxRun) (gauge : GaugeX) (tlb : List TlbEntry) (faults : List FaultRec) (health : List (Nat
    × HealthX)) (healthSeen : List (Nat × Nat)) (pfBusMaster : Bool) (wdFifo : List WdReport) (wdHard : Bool) (banks : List (Nat × BankX)) (rows : List
    (Nat × RowX)) (bankMap : List (Nat × Nat)) (spareRows : List (Nat × Nat)) (copies : List (Nat × Nat)) (banksOut : List Nat) (maintDue : List Nat) (locks : List
    LockX) (severed : List (Nat × Nat)) (held : List HeldAcc) (parcels : List (Nat × PclX)) (reply : Reply) (doneFifo :
    List (Nat × Nat × Nat × Nat)) (spareRelease : List Nat) (pwr : PwrX) (sbOn : List Nat) (rtx : List RemTx) (rtags :
    List (Nat × Nat)) (rchunks : List RemChunk) (rgrants : List RemGrant) (rwaits : List RemGrant) (rbad : List (Nat × Nat
    × Nat)) (rstuck : List (Nat × Nat)) (cmps : List (Nat × CmpX)) (pulses : List Nat) (caps : List (Nat × List (Nat × Nat × Nat))) (ptp : PtpX) (ethQ
    : List EthTx) (ethBusy : List EthTx) (qbv : List (Nat × QbvX)) (genRings : List (Nat × GenRing)) (cans : List (Nat ×
    CanX)) (encs : List (Nat × EncX)) (loops : List (Nat × MillLoop)) (lcores : List (Nat × Nat)) (trigN : List (Nat ×
    Nat)) (pwmShadow : List (Nat × Nat)) (tbAt : List (Nat × Nat)) (takingOver : List Nat) (txWords : List (Nat × TxWord)) (txFirst : List (Nat × Nat)) (rxWords : List (Nat
    × Word)) (gateSet : List (Nat × Word)) (wd : WdX) (domOff : List Nat) (lawLast : Nat) (calSet : List (Nat × Nat))
    (calOn : List (Nat × Nat)) (lastRun : List (Nat × Nat × Nat × Bool)) (maintHold : Option Nat) (maintNs : Nat) (loads :
    List WLoad) (links : List (Nat × AxLink)) (ring : RingX) (vats : List (Nat × VatX)) (pps : List (Nat × PpX)) (sensors
    : List (Nat × List SenJob)) (feeds : List (Nat × FeedX)) (mpActive : Nat) (spPause : Bool) (temps : List Int) (inject
    : List (Nat × Nat × Nat)) (stores : List (Nat × Nat)) (psumBad : List Nat) (xlInval : Option (Bool × Bool × Nat × Nat × Nat)) (mbLast : Nat) (mbDiscard : List Nat)
    (images : List (Nat × List Byte)) (calBytes : List Byte) (boot : BootX) (upd : Option UpdX) (consent : Option (List
    Byte)) (k : Keeps s u) :
    Keeps s ⟨u.pending, free, u.part, u.regs.filter p, u.mem, u.voids, u.hostMem, u.marks, u.wide, out, call, callCtx, pendCalls,
      claims, accErr, addrErr, rates, ucbs, clients, qcache, watches, reservs, gangs, ctxs, gauge, tlb, faults,
      health, healthSeen, pfBusMaster, wdFifo, wdHard, banks, rows, bankMap, spareRows, copies, banksOut, maintDue, locks, severed, held, parcels,
      reply, doneFifo, spareRelease, pwr, sbOn, rtx, rtags, rchunks, rgrants, rwaits, rbad, rstuck, cmps, pulses, caps, ptp,
      ethQ, ethBusy, qbv, genRings, cans, encs, loops, lcores, trigN, pwmShadow, tbAt, takingOver, txWords, txFirst, rxWords, gateSet,
      wd, domOff, lawLast, calSet, calOn, lastRun, maintHold, maintNs, loads, links, ring, vats, pps, sensors, feeds,
      mpActive, spPause, temps, inject, stores, psumBad, xlInval, mbLast, mbDiscard, images, u.otpRevoke, u.otpSvn, u.otpUcal,
      u.devLock, u.flash, calBytes, boot, upd, consent⟩ := by
  refine k.trans ⟨rfl, FusesKept.refl u, ?_⟩
  intro h
  simp only [State.Canonical, Memory.wf, State.storesWf, Bool.and_eq_true] at h ⊢
  exact ⟨h.1, ⟨SMap.wf_filter _ _ _ _ h.2.1.1 fun _ _ _ => rfl, h.2.1.2⟩, h.2.2⟩

/-- An update that also clears the marks. -/
theorem Keeps.noMarks (s u : State) 
    (free : Nat) (out : List OutMsg) (call : CallResult) (callCtx : Option CallCtx) (pendCalls : List PendCall) (claims :
    List Claim) (accErr : Option AccErr) (addrErr : Option (Nat × Nat)) (rates : List (Nat × RateMon)) (ucbs : List (Nat ×
    UcbRun)) (clients : List (Nat × ClientX)) (qcache : List QSlot) (watches : List Watch) (reservs : List Reserv) (gangs
    : List Gang) (ctxs : List CtxRun) (gauge : GaugeX) (tlb : List TlbEntry) (faults : List FaultRec) (health : List (Nat
    × HealthX)) (healthSeen : List (Nat × Nat)) (pfBusMaster : Bool) (wdFifo : List WdReport) (wdHard : Bool) (banks : List (Nat × BankX)) (rows : List
    (Nat × RowX)) (bankMap : List (Nat × Nat)) (spareRows : List (Nat × Nat)) (copies : List (Nat × Nat)) (banksOut : List Nat) (maintDue : List Nat) (locks : List
    LockX) (severed : List (Nat × Nat)) (held : List HeldAcc) (parcels : List (Nat × PclX)) (reply : Reply) (doneFifo :
    List (Nat × Nat × Nat × Nat)) (spareRelease : List Nat) (pwr : PwrX) (sbOn : List Nat) (rtx : List RemTx) (rtags :
    List (Nat × Nat)) (rchunks : List RemChunk) (rgrants : List RemGrant) (rwaits : List RemGrant) (rbad : List (Nat × Nat
    × Nat)) (rstuck : List (Nat × Nat)) (cmps : List (Nat × CmpX)) (pulses : List Nat) (caps : List (Nat × List (Nat × Nat × Nat))) (ptp : PtpX) (ethQ
    : List EthTx) (ethBusy : List EthTx) (qbv : List (Nat × QbvX)) (genRings : List (Nat × GenRing)) (cans : List (Nat ×
    CanX)) (encs : List (Nat × EncX)) (loops : List (Nat × MillLoop)) (lcores : List (Nat × Nat)) (trigN : List (Nat ×
    Nat)) (pwmShadow : List (Nat × Nat)) (tbAt : List (Nat × Nat)) (takingOver : List Nat) (txWords : List (Nat × TxWord)) (txFirst : List (Nat × Nat)) (rxWords : List (Nat
    × Word)) (gateSet : List (Nat × Word)) (wd : WdX) (domOff : List Nat) (lawLast : Nat) (calSet : List (Nat × Nat))
    (calOn : List (Nat × Nat)) (lastRun : List (Nat × Nat × Nat × Bool)) (maintHold : Option Nat) (maintNs : Nat) (loads :
    List WLoad) (links : List (Nat × AxLink)) (ring : RingX) (vats : List (Nat × VatX)) (pps : List (Nat × PpX)) (sensors
    : List (Nat × List SenJob)) (feeds : List (Nat × FeedX)) (mpActive : Nat) (spPause : Bool) (temps : List Int) (inject
    : List (Nat × Nat × Nat)) (stores : List (Nat × Nat)) (psumBad : List Nat) (xlInval : Option (Bool × Bool × Nat × Nat × Nat)) (mbLast : Nat) (mbDiscard : List Nat)
    (images : List (Nat × List Byte)) (calBytes : List Byte) (boot : BootX) (upd : Option UpdX) (consent : Option (List
    Byte)) (k : Keeps s u) :
    Keeps s ⟨u.pending, free, u.part, u.regs, u.mem, u.voids, u.hostMem, [], u.wide, out, call, callCtx, pendCalls,
      claims, accErr, addrErr, rates, ucbs, clients, qcache, watches, reservs, gangs, ctxs, gauge, tlb, faults,
      health, healthSeen, pfBusMaster, wdFifo, wdHard, banks, rows, bankMap, spareRows, copies, banksOut, maintDue, locks, severed, held, parcels,
      reply, doneFifo, spareRelease, pwr, sbOn, rtx, rtags, rchunks, rgrants, rwaits, rbad, rstuck, cmps, pulses, caps, ptp,
      ethQ, ethBusy, qbv, genRings, cans, encs, loops, lcores, trigN, pwmShadow, tbAt, takingOver, txWords, txFirst, rxWords, gateSet,
      wd, domOff, lawLast, calSet, calOn, lastRun, maintHold, maintNs, loads, links, ring, vats, pps, sensors, feeds,
      mpActive, spPause, temps, inject, stores, psumBad, xlInval, mbLast, mbDiscard, images, u.otpRevoke, u.otpSvn, u.otpUcal,
      u.devLock, u.flash, calBytes, boot, upd, consent⟩ := by
  refine k.trans ⟨rfl, FusesKept.refl u, ?_⟩
  intro h
  simp only [State.Canonical, Memory.wf, State.storesWf, Bool.and_eq_true] at h ⊢
  exact ⟨h.1, ⟨h.2.1.1, SMap.wf_nil _⟩, h.2.2⟩

theorem Keeps.fst {α : Type} {s t : State} {p : State × α} {a : α} (e : p = (t, a)) (k : Keeps s p.1) : Keeps s t := by
  subst e; exact k

theorem Keeps.snd {α : Type} {s t : State} {p : α × State} {a : α} (e : p = (a, t)) (k : Keeps s p.2) : Keeps s t := by
  subst e; exact k

theorem Keeps.foldl {α : Type} {g : State → α → State} {l : List α} {a s : State} (h : ∀ s x, Keeps s (g s x))
    (k : Keeps a s) : Keeps a (l.foldl g s) := by
  induction l generalizing s with
  | nil => exact k
  | cons x t ih => exact ih (k.trans (h s x))

theorem Keeps.foldl_fst {α β : Type} {g : State × β → α → State × β} {l : List α} {a : State} {p : State × β}
    (h : ∀ p x, Keeps p.1 (g p x).1) (k : Keeps a p.1) : Keeps a (l.foldl g p).1 := by
  induction l generalizing p with
  | nil => exact k
  | cons x t ih => exact ih (k.trans (h p x))

theorem Keeps.foldl_snd {α β : Type} {g : β × State → α → β × State} {l : List α} {a : State} {p : β × State}
    (h : ∀ p x, Keeps p.2 (g p x).2) (k : Keeps a p.2) : Keeps a (l.foldl g p).2 := by
  induction l generalizing p with
  | nil => exact k
  | cons x t ih => exact ih (k.trans (h p x))

theorem Keeps.ite_iff {s a b : State} {c : Prop} [Decidable c] :
    Keeps s (if c then a else b) ↔ (c → Keeps s a) ∧ (¬c → Keeps s b) := by
  split <;> simp_all

theorem Keeps.ite_fst_iff {α : Type} {s : State} {a b : State × α} {c : Prop} [Decidable c] :
    Keeps s (if c then a else b).1 ↔ (c → Keeps s a.1) ∧ (¬c → Keeps s b.1) := by
  split <;> simp_all

theorem Keeps.ite_snd_iff {α : Type} {s : State} {a b : α × State} {c : Prop} [Decidable c] :
    Keeps s (if c then a else b).2 ↔ (c → Keeps s a.2) ∧ (¬c → Keeps s b.2) := by
  split <;> simp_all

end Sys2Proof.Machine
end

