-- ==== Sys2Proof/Laws/KeepsOps.lean ====
section
/-! SUPPORT. What the operations of Machine/Ops.lean keep. -/
namespace Sys2Proof.Machine

theorem State.wr_keeps (s : State) (u off : Nat) (v : Word) : Keeps s (s.wr u off v) := by
  refine ⟨rfl, FusesKept.refl s, ?_⟩
  intro h
  simp only [State.Canonical, Memory.wf, State.storesWf, Bool.and_eq_true, State.wr] at h ⊢
  exact ⟨h.1, ⟨SMap.wf_set _ _ _ _ h.2.1.1, h.2.1.2⟩, h.2.2⟩

theorem State.wrK_keeps (s : State) (key : Nat) (v : Word) : Keeps s (s.wrK key v) := by
  refine ⟨rfl, FusesKept.refl s, ?_⟩
  intro h
  simp only [State.Canonical, Memory.wf, State.storesWf, Bool.and_eq_true, State.wrK] at h ⊢
  exact ⟨h.1, ⟨SMap.wf_set _ _ _ _ h.2.1.1, h.2.1.2⟩, h.2.2⟩

theorem State.setFld_keeps (s : State) (u : Nat) (off : Nat) (hi : Nat) (lo : Nat) (v : Nat) : Keeps s (s.setFld u off hi lo v) := by
  unfold State.setFld
  try dsimp only
  repeat' first
    | with_reducible exact Keeps.refl _
    | with_reducible assumption
    | with_reducible exact Keeps.ofId _
    | with_reducible exact Keeps.ofNone
    | with_reducible refine Keeps.ofSome ?_
    | with_reducible refine Keeps.ofIte ?_ ?_
    | simp only [Keeps.upd_iff, Keeps.ite_iff, Keeps.ite_fst_iff, Keeps.ite_snd_iff]
    | with_reducible apply And.intro
    | intro _
    | with_reducible apply Keeps.after (State.wr_keeps ..)
    | (with_reducible apply Keeps.fst; on_goal 1 => with_reducible assumption)
    | (with_reducible apply Keeps.snd; on_goal 1 => with_reducible assumption)
    | split
    | dsimp only
    | simp only []

theorem State.setFlag_keeps (s : State) (u : Nat) (off : Nat) (i : Nat) (b : Bool) : Keeps s (s.setFlag u off i b) := by
  unfold State.setFlag
  try dsimp only
  repeat' first
    | with_reducible exact Keeps.refl _
    | with_reducible assumption
    | with_reducible exact Keeps.ofId _
    | with_reducible exact Keeps.ofNone
    | with_reducible refine Keeps.ofSome ?_
    | with_reducible refine Keeps.ofIte ?_ ?_
    | simp only [Keeps.upd_iff, Keeps.ite_iff, Keeps.ite_fst_iff, Keeps.ite_snd_iff]
    | with_reducible apply And.intro
    | intro _
    | with_reducible apply Keeps.after (State.setFld_keeps ..)
    | (with_reducible apply Keeps.fst; on_goal 1 => with_reducible assumption)
    | (with_reducible apply Keeps.snd; on_goal 1 => with_reducible assumption)
    | split
    | dsimp only
    | simp only []

theorem State.countF_keeps (s : State) (u : Nat) (off : Nat) (hi : Nat) (lo : Nat) (k : Nat) : Keeps s (s.countF u off hi lo k) := by
  unfold State.countF
  try dsimp only
  repeat' first
    | with_reducible exact Keeps.refl _
    | with_reducible assumption
    | with_reducible exact Keeps.ofId _
    | with_reducible exact Keeps.ofNone
    | with_reducible refine Keeps.ofSome ?_
    | with_reducible refine Keeps.ofIte ?_ ?_
    | simp only [Keeps.upd_iff, Keeps.ite_iff, Keeps.ite_fst_iff, Keeps.ite_snd_iff]
    | with_reducible apply And.intro
    | intro _
    | with_reducible apply Keeps.after (State.wr_keeps ..)
    | (with_reducible apply Keeps.fst; on_goal 1 => with_reducible assumption)
    | (with_reducible apply Keeps.snd; on_goal 1 => with_reducible assumption)
    | split
    | dsimp only
    | simp only []

theorem State.count_keeps (s : State) (u : Nat) (off : Nat) (k : Nat) : Keeps s (s.count u off k) := by
  unfold State.count
  try dsimp only
  repeat' first
    | with_reducible exact Keeps.refl _
    | with_reducible assumption
    | with_reducible exact Keeps.ofId _
    | with_reducible exact Keeps.ofNone
    | with_reducible refine Keeps.ofSome ?_
    | with_reducible refine Keeps.ofIte ?_ ?_
    | simp only [Keeps.upd_iff, Keeps.ite_iff, Keeps.ite_fst_iff, Keeps.ite_snd_iff]
    | with_reducible apply And.intro
    | intro _
    | with_reducible apply Keeps.after (State.countF_keeps ..)
    | (with_reducible apply Keeps.fst; on_goal 1 => with_reducible assumption)
    | (with_reducible apply Keeps.snd; on_goal 1 => with_reducible assumption)
    | split
    | dsimp only
    | simp only []

theorem State.maxTo_keeps (s : State) (u : Nat) (off : Nat) (v : Nat) : Keeps s (s.maxTo u off v) := by
  unfold State.maxTo
  try dsimp only
  repeat' first
    | with_reducible exact Keeps.refl _
    | with_reducible assumption
    | with_reducible exact Keeps.ofId _
    | with_reducible exact Keeps.ofNone
    | with_reducible refine Keeps.ofSome ?_
    | with_reducible refine Keeps.ofIte ?_ ?_
    | simp only [Keeps.upd_iff, Keeps.ite_iff, Keeps.ite_fst_iff, Keeps.ite_snd_iff]
    | with_reducible apply And.intro
    | intro _
    | with_reducible apply Keeps.after (State.wr_keeps ..)
    | (with_reducible apply Keeps.fst; on_goal 1 => with_reducible assumption)
    | (with_reducible apply Keeps.snd; on_goal 1 => with_reducible assumption)
    | split
    | dsimp only
    | simp only []

theorem State.readRC_keeps (s : State) (u : Nat) (off : Nat) : Keeps s (s.readRC u off).2 := by
  unfold State.readRC
  try dsimp only
  repeat' first
    | with_reducible exact Keeps.refl _
    | with_reducible assumption
    | with_reducible exact Keeps.ofId _
    | with_reducible exact Keeps.ofNone
    | with_reducible refine Keeps.ofSome ?_
    | with_reducible refine Keeps.ofIte ?_ ?_
    | simp only [Keeps.upd_iff, Keeps.ite_iff, Keeps.ite_fst_iff, Keeps.ite_snd_iff]
    | with_reducible apply And.intro
    | intro _
    | with_reducible apply Keeps.after (State.wr_keeps ..)
    | (with_reducible apply Keeps.fst; on_goal 1 => with_reducible assumption)
    | (with_reducible apply Keeps.snd; on_goal 1 => with_reducible assumption)
    | split
    | dsimp only
    | simp only []

theorem State.readRCs_keeps (s : State) (u : Nat) (x2 : List Nat) : Keeps s (s.readRCs u x2).2 := by
  unhygienic fun_induction State.readRCs s u x2
  all_goals try dsimp only
  repeat' first
    | with_reducible exact Keeps.refl _
    | with_reducible assumption
    | with_reducible exact Keeps.ofId _
    | with_reducible exact Keeps.ofNone
    | with_reducible refine Keeps.ofSome ?_
    | with_reducible refine Keeps.ofIte ?_ ?_
    | simp only [Keeps.upd_iff, Keeps.ite_iff, Keeps.ite_fst_iff, Keeps.ite_snd_iff]
    | with_reducible apply And.intro
    | intro _
    | with_reducible apply Keeps.after (State.readRC_keeps ..)
    | (with_reducible apply Keeps.fst; on_goal 1 => with_reducible assumption)
    | (with_reducible apply Keeps.snd; on_goal 1 => with_reducible assumption)
    | with_reducible apply Keeps.after ih1
    | with_reducible apply Keeps.after ih2
    | with_reducible apply Keeps.after ih3
    | with_reducible apply Keeps.after ih4
    | split
    | dsimp only
    | simp only []

theorem State.setWideMap_keeps (s : State) (k v : Nat) :
    Keeps s { s with wide := SMap.set (fun _ => 0) k v s.wide } := by
  refine ⟨rfl, FusesKept.refl s, ?_⟩
  intro h
  simp only [State.Canonical, Memory.wf, State.storesWf, Bool.and_eq_true] at h ⊢
  exact ⟨h.1, h.2.1, SMap.wf_set _ _ _ _ h.2.2⟩

theorem State.countWide_keeps (s : State) (u off k : Nat) : Keeps s (s.countWide u off k) :=
  (State.setWideMap_keeps s _ _).trans (State.wr_keeps ..)

theorem State.setWide_keeps (s : State) (u off v : Nat) : Keeps s (s.setWide u off v) :=
  (State.setWideMap_keeps s _ _).trans (State.wr_keeps ..)

theorem State.setUcb_keeps (s : State) (u : Nat) (k : Nat) (v : Word) : Keeps s (s.setUcb u k v) := by
  unfold State.setUcb
  try dsimp only
  repeat' first
    | with_reducible exact Keeps.refl _
    | with_reducible assumption
    | with_reducible exact Keeps.ofId _
    | with_reducible exact Keeps.ofNone
    | with_reducible refine Keeps.ofSome ?_
    | with_reducible refine Keeps.ofIte ?_ ?_
    | simp only [Keeps.upd_iff, Keeps.ite_iff, Keeps.ite_fst_iff, Keeps.ite_snd_iff]
    | with_reducible apply And.intro
    | intro _
    | with_reducible apply Keeps.after (State.wrK_keeps ..)
    | (with_reducible apply Keeps.fst; on_goal 1 => with_reducible assumption)
    | (with_reducible apply Keeps.snd; on_goal 1 => with_reducible assumption)
    | split
    | dsimp only
    | simp only []

theorem State.ucbEvent_keeps (s : State) (u : Nat) (mask : Nat) : Keeps s (s.ucbEvent u mask) := by
  unfold State.ucbEvent
  try dsimp only
  repeat' first
    | with_reducible exact Keeps.refl _
    | with_reducible assumption
    | with_reducible exact Keeps.ofId _
    | with_reducible exact Keeps.ofNone
    | with_reducible refine Keeps.ofSome ?_
    | with_reducible refine Keeps.ofIte ?_ ?_
    | simp only [Keeps.upd_iff, Keeps.ite_iff, Keeps.ite_fst_iff, Keeps.ite_snd_iff]
    | with_reducible apply And.intro
    | intro _
    | with_reducible apply Keeps.after (State.setUcb_keeps ..)
    | (with_reducible apply Keeps.fst; on_goal 1 => with_reducible assumption)
    | (with_reducible apply Keeps.snd; on_goal 1 => with_reducible assumption)
    | split
    | dsimp only
    | simp only []

theorem State.setUrun_keeps (s : State) (u : Nat) (r : UcbRun) : Keeps s (s.setUrun u r) := by
  unfold State.setUrun
  try dsimp only
  repeat' first
    | with_reducible exact Keeps.refl _
    | with_reducible assumption
    | with_reducible exact Keeps.ofId _
    | with_reducible exact Keeps.ofNone
    | with_reducible refine Keeps.ofSome ?_
    | with_reducible refine Keeps.ofIte ?_ ?_
    | simp only [Keeps.upd_iff, Keeps.ite_iff, Keeps.ite_fst_iff, Keeps.ite_snd_iff]
    | with_reducible apply And.intro
    | intro _
    | (with_reducible apply Keeps.fst; on_goal 1 => with_reducible assumption)
    | (with_reducible apply Keeps.snd; on_goal 1 => with_reducible assumption)
    | split
    | dsimp only
    | simp only []

theorem State.setByte_keeps (s : State) (a : Nat) (b : Byte) : Keeps s (s.setByte a b) := by
  refine ⟨rfl, FusesKept.refl s, ?_⟩
  intro h
  simp only [State.Canonical, Memory.wf, State.storesWf, Bool.and_eq_true, State.setByte] at h ⊢
  exact ⟨⟨⟨SMap.wf_set _ _ _ _ h.1.1.1, h.1.1.2⟩, h.1.2⟩, h.2⟩

theorem memDef_cons (a n x : Nat) (l : List (Nat × Nat × Nat)) (b : Nat) (h : b < a ∨ a + n ≤ b) :
    memDef ((a, n, x) :: l) b = memDef l b := by
  have f : (decide (a ≤ b) && decide (b < a + n)) = false := by
    rcases h with h | h
    · simp [Nat.not_le.2 h]
    · simp [Nat.not_lt.2 h]
  unfold memDef
  simp only [List.find?, f]

theorem find_filter {α : Type} (p q : α → Bool) (l : List α) (h : ∀ v, q v = true → p v = true) :
    (l.filter p).find? q = l.find? q := by
  induction l with
  | nil => rfl
  | cons v t ih =>
    by_cases c : q v = true
    · rw [List.filter_cons_of_pos (h v c), List.find?_cons_of_pos c, List.find?_cons_of_pos c]
    · rw [List.find?_cons_of_neg c]
      by_cases k : p v = true
      · rw [List.filter_cons_of_pos k, List.find?_cons_of_neg c, ih]
      · rw [List.filter_cons_of_neg k, ih]

theorem memDef_filter (a n : Nat) (l : List (Nat × Nat × Nat)) (b : Nat) (h : b < a ∨ a + n ≤ b) :
    memDef (l.filter fun v => !(a ≤ v.1 && v.1 + v.2.1 ≤ a + n)) b = memDef l b := by
  unfold memDef
  rw [find_filter]
  intro v c
  simp only [Bool.and_eq_true, decide_eq_true_eq] at c
  simp only [Bool.not_eq_true', Bool.and_eq_false_iff, decide_eq_false_iff_not]
  omega

theorem State.voidMem_keeps (s : State) (a n : Nat) : Keeps s (s.voidMem a n) := by
  unfold State.voidMem
  split
  · exact Keeps.refl _
  · refine ⟨rfl, FusesKept.refl s, ?_⟩
    intro h
    simp only [State.Canonical, Memory.wf, State.storesWf, Bool.and_eq_true] at h ⊢
    refine ⟨⟨⟨SMap.wf_filter _ _ _ _ h.1.1.1 ?_, h.1.1.2⟩, h.1.2⟩, h.2⟩
    intro e _ p
    simp only [Bool.or_eq_true, decide_eq_true_eq] at p
    rw [memDef_cons _ _ _ _ _ p, memDef_filter _ _ _ _ p]

theorem State.zeroMem_keeps (s : State) (a n : Nat) : Keeps s (s.zeroMem a n) := by
  unfold State.zeroMem
  split
  · exact Keeps.refl _
  · refine ⟨rfl, FusesKept.refl s, ?_⟩
    intro h
    simp only [State.Canonical, Memory.wf, State.storesWf, Bool.and_eq_true] at h ⊢
    refine ⟨⟨⟨SMap.wf_filter _ _ _ _ h.1.1.1 ?_, h.1.1.2⟩, h.1.2⟩, h.2⟩
    intro e _ p
    simp only [Bool.or_eq_true, decide_eq_true_eq] at p
    split
    · rw [memDef_cons _ _ _ _ _ p, memDef_filter _ _ _ _ p]
    · rw [memDef_filter _ _ _ _ p]

theorem State.setBytes_keeps (s : State) (a : Nat) (x2 : List Byte) : Keeps s (s.setBytes a x2) := by
  unhygienic fun_induction State.setBytes s a x2
  all_goals try dsimp only
  repeat' first
    | with_reducible exact Keeps.refl _
    | with_reducible assumption
    | with_reducible exact Keeps.ofId _
    | with_reducible exact Keeps.ofNone
    | with_reducible refine Keeps.ofSome ?_
    | with_reducible refine Keeps.ofIte ?_ ?_
    | simp only [Keeps.upd_iff, Keeps.ite_iff, Keeps.ite_fst_iff, Keeps.ite_snd_iff]
    | with_reducible apply And.intro
    | intro _
    | with_reducible apply Keeps.after (State.setByte_keeps ..)
    | (with_reducible apply Keeps.fst; on_goal 1 => with_reducible assumption)
    | (with_reducible apply Keeps.snd; on_goal 1 => with_reducible assumption)
    | with_reducible apply Keeps.after ih1
    | with_reducible apply Keeps.after ih2
    | with_reducible apply Keeps.after ih3
    | with_reducible apply Keeps.after ih4
    | split
    | dsimp only
    | simp only []

theorem State.wrN_keeps (s : State) (a : Nat) (n : Nat) (v : Nat) : Keeps s (s.wrN a n v) := by
  unfold State.wrN
  try dsimp only
  repeat' first
    | with_reducible exact Keeps.refl _
    | with_reducible assumption
    | with_reducible exact Keeps.ofId _
    | with_reducible exact Keeps.ofNone
    | with_reducible refine Keeps.ofSome ?_
    | with_reducible refine Keeps.ofIte ?_ ?_
    | simp only [Keeps.upd_iff, Keeps.ite_iff, Keeps.ite_fst_iff, Keeps.ite_snd_iff]
    | with_reducible apply And.intro
    | intro _
    | with_reducible apply Keeps.after (State.setBytes_keeps ..)
    | (with_reducible apply Keeps.fst; on_goal 1 => with_reducible assumption)
    | (with_reducible apply Keeps.snd; on_goal 1 => with_reducible assumption)
    | split
    | dsimp only
    | simp only []

theorem State.wrWs_keeps (s : State) (a : Nat) (l : List Word) : Keeps s (s.wrWs a l) := by
  unfold State.wrWs
  try dsimp only
  repeat' first
    | with_reducible exact Keeps.refl _
    | with_reducible assumption
    | with_reducible exact Keeps.ofId _
    | with_reducible exact Keeps.ofNone
    | with_reducible refine Keeps.ofSome ?_
    | with_reducible refine Keeps.ofIte ?_ ?_
    | simp only [Keeps.upd_iff, Keeps.ite_iff, Keeps.ite_fst_iff, Keeps.ite_snd_iff]
    | with_reducible apply And.intro
    | intro _
    | with_reducible apply Keeps.after (State.setBytes_keeps ..)
    | (with_reducible apply Keeps.fst; on_goal 1 => with_reducible assumption)
    | (with_reducible apply Keeps.snd; on_goal 1 => with_reducible assumption)
    | split
    | dsimp only
    | simp only []

theorem State.setHostByte_keeps (s : State) (a : Nat) (b : Byte) : Keeps s (s.setHostByte a b) := by
  refine ⟨rfl, FusesKept.refl s, ?_⟩
  intro h
  simp only [State.Canonical, Memory.wf, State.storesWf, Bool.and_eq_true, State.setHostByte] at h ⊢
  exact ⟨⟨⟨h.1.1.1, SMap.wf_set _ _ _ _ h.1.1.2⟩, h.1.2⟩, h.2⟩

theorem State.setHostBytes_keeps (s : State) (a : Nat) (x2 : List Byte) : Keeps s (s.setHostBytes a x2) := by
  unhygienic fun_induction State.setHostBytes s a x2
  all_goals try dsimp only
  repeat' first
    | with_reducible exact Keeps.refl _
    | with_reducible assumption
    | with_reducible exact Keeps.ofId _
    | with_reducible exact Keeps.ofNone
    | with_reducible refine Keeps.ofSome ?_
    | with_reducible refine Keeps.ofIte ?_ ?_
    | simp only [Keeps.upd_iff, Keeps.ite_iff, Keeps.ite_fst_iff, Keeps.ite_snd_iff]
    | with_reducible apply And.intro
    | intro _
    | with_reducible apply Keeps.after (State.setHostByte_keeps ..)
    | (with_reducible apply Keeps.fst; on_goal 1 => with_reducible assumption)
    | (with_reducible apply Keeps.snd; on_goal 1 => with_reducible assumption)
    | with_reducible apply Keeps.after ih1
    | with_reducible apply Keeps.after ih2
    | with_reducible apply Keeps.after ih3
    | with_reducible apply Keeps.after ih4
    | split
    | dsimp only
    | simp only []

theorem State.addrError_keeps (s : State) (ini : Nat) (a : Nat) : Keeps s (s.addrError ini a) := by
  unfold State.addrError
  try dsimp only
  repeat' first
    | with_reducible exact Keeps.refl _
    | with_reducible assumption
    | with_reducible exact Keeps.ofId _
    | with_reducible exact Keeps.ofNone
    | with_reducible refine Keeps.ofSome ?_
    | with_reducible refine Keeps.ofIte ?_ ?_
    | simp only [Keeps.upd_iff, Keeps.ite_iff, Keeps.ite_fst_iff, Keeps.ite_snd_iff]
    | with_reducible apply And.intro
    | intro _
    | (with_reducible apply Keeps.fst; on_goal 1 => with_reducible assumption)
    | (with_reducible apply Keeps.snd; on_goal 1 => with_reducible assumption)
    | split
    | dsimp only
    | simp only []

theorem State.accError_keeps (s : State) (ini : Nat) (a : Nat) (c : AccCause) : Keeps s (s.accError ini a c) := by
  unfold State.accError
  try dsimp only
  repeat' first
    | with_reducible exact Keeps.refl _
    | with_reducible assumption
    | with_reducible exact Keeps.ofId _
    | with_reducible exact Keeps.ofNone
    | with_reducible refine Keeps.ofSome ?_
    | with_reducible refine Keeps.ofIte ?_ ?_
    | simp only [Keeps.upd_iff, Keeps.ite_iff, Keeps.ite_fst_iff, Keeps.ite_snd_iff]
    | with_reducible apply And.intro
    | intro _
    | (with_reducible apply Keeps.fst; on_goal 1 => with_reducible assumption)
    | (with_reducible apply Keeps.snd; on_goal 1 => with_reducible assumption)
    | split
    | dsimp only
    | simp only []

theorem State.putMark_keeps (s : State) (m v : Nat) : Keeps s (s.putMark m v) := by
  refine ⟨rfl, FusesKept.refl s, ?_⟩
  intro h
  simp only [State.Canonical, Memory.wf, State.storesWf, Bool.and_eq_true, State.putMark] at h ⊢
  exact ⟨h.1, ⟨h.2.1.1, SMap.wf_set _ _ _ _ h.2.1.2⟩, h.2.2⟩

theorem State.ret_keeps (s : State) (status : Nat) (words : List Word) : Keeps s (s.ret status words) := by
  unfold State.ret
  try dsimp only
  repeat' first
    | with_reducible exact Keeps.refl _
    | with_reducible assumption
    | with_reducible exact Keeps.ofId _
    | with_reducible exact Keeps.ofNone
    | with_reducible refine Keeps.ofSome ?_
    | with_reducible refine Keeps.ofIte ?_ ?_
    | simp only [Keeps.upd_iff, Keeps.ite_iff, Keeps.ite_fst_iff, Keeps.ite_snd_iff]
    | with_reducible apply And.intro
    | intro _
    | (with_reducible apply Keeps.fst; on_goal 1 => with_reducible assumption)
    | (with_reducible apply Keeps.snd; on_goal 1 => with_reducible assumption)
    | split
    | dsimp only
    | simp only []

theorem State.retPending_keeps (s : State) (num : Nat) (key : Nat) (words : List Word) : Keeps s (s.retPending num key words) := by
  unfold State.retPending
  try dsimp only
  repeat' first
    | with_reducible exact Keeps.refl _
    | with_reducible assumption
    | with_reducible exact Keeps.ofId _
    | with_reducible exact Keeps.ofNone
    | with_reducible refine Keeps.ofSome ?_
    | with_reducible refine Keeps.ofIte ?_ ?_
    | simp only [Keeps.upd_iff, Keeps.ite_iff, Keeps.ite_fst_iff, Keeps.ite_snd_iff]
    | with_reducible apply And.intro
    | intro _
    | with_reducible apply Keeps.after (State.ret_keeps ..)
    | (with_reducible apply Keeps.fst; on_goal 1 => with_reducible assumption)
    | (with_reducible apply Keeps.snd; on_goal 1 => with_reducible assumption)
    | split
    | dsimp only
    | simp only []

theorem State.finish_keeps (s : State) (num : Nat) (key : Nat) (status : Nat) (words : List Word) : Keeps s (s.finish num key status words) := by
  unfold State.finish
  try dsimp only
  repeat' first
    | with_reducible exact Keeps.refl _
    | with_reducible assumption
    | with_reducible exact Keeps.ofId _
    | with_reducible exact Keeps.ofNone
    | with_reducible refine Keeps.ofSome ?_
    | with_reducible refine Keeps.ofIte ?_ ?_
    | simp only [Keeps.upd_iff, Keeps.ite_iff, Keeps.ite_fst_iff, Keeps.ite_snd_iff]
    | with_reducible apply And.intro
    | intro _
    | (with_reducible apply Keeps.fst; on_goal 1 => with_reducible assumption)
    | (with_reducible apply Keeps.snd; on_goal 1 => with_reducible assumption)
    | split
    | dsimp only
    | simp only []

theorem State.emit_keeps (s : State) (k : OutKind) (port : Nat) (data : List Nat) : Keeps s (s.emit k port data) := by
  unfold State.emit
  try dsimp only
  repeat' first
    | with_reducible exact Keeps.refl _
    | with_reducible assumption
    | with_reducible exact Keeps.ofId _
    | with_reducible exact Keeps.ofNone
    | with_reducible refine Keeps.ofSome ?_
    | with_reducible refine Keeps.ofIte ?_ ?_
    | simp only [Keeps.upd_iff, Keeps.ite_iff, Keeps.ite_fst_iff, Keeps.ite_snd_iff]
    | with_reducible apply And.intro
    | intro _
    | (with_reducible apply Keeps.fst; on_goal 1 => with_reducible assumption)
    | (with_reducible apply Keeps.snd; on_goal 1 => with_reducible assumption)
    | split
    | dsimp only
    | simp only []

theorem State.fresh_keeps (s : State) : Keeps s (s.fresh).2 := by
  unfold State.fresh
  try dsimp only
  repeat' first
    | with_reducible exact Keeps.refl _
    | with_reducible assumption
    | with_reducible exact Keeps.ofId _
    | with_reducible exact Keeps.ofNone
    | with_reducible refine Keeps.ofSome ?_
    | with_reducible refine Keeps.ofIte ?_ ?_
    | simp only [Keeps.upd_iff, Keeps.ite_iff, Keeps.ite_fst_iff, Keeps.ite_snd_iff]
    | with_reducible apply And.intro
    | intro _
    | (with_reducible apply Keeps.fst; on_goal 1 => with_reducible assumption)
    | (with_reducible apply Keeps.snd; on_goal 1 => with_reducible assumption)
    | split
    | dsimp only
    | simp only []

theorem State.freshNat_keeps (s : State) (n : Nat) : Keeps s (s.freshNat n).2 := by
  unfold State.freshNat
  try dsimp only
  repeat' first
    | with_reducible exact Keeps.refl _
    | with_reducible assumption
    | with_reducible exact Keeps.ofId _
    | with_reducible exact Keeps.ofNone
    | with_reducible refine Keeps.ofSome ?_
    | with_reducible refine Keeps.ofIte ?_ ?_
    | simp only [Keeps.upd_iff, Keeps.ite_iff, Keeps.ite_fst_iff, Keeps.ite_snd_iff]
    | with_reducible apply And.intro
    | intro _
    | (with_reducible apply Keeps.fst; on_goal 1 => with_reducible assumption)
    | (with_reducible apply Keeps.snd; on_goal 1 => with_reducible assumption)
    | split
    | dsimp only
    | simp only []

theorem State.disturb_keeps (s : State) (us : List Nat) : Keeps s (s.disturb us) := by
  unfold State.disturb
  try dsimp only
  repeat' first
    | with_reducible exact Keeps.refl _
    | with_reducible assumption
    | with_reducible exact Keeps.ofId _
    | with_reducible exact Keeps.ofNone
    | with_reducible refine Keeps.ofSome ?_
    | with_reducible refine Keeps.ofIte ?_ ?_
    | simp only [Keeps.upd_iff, Keeps.ite_iff, Keeps.ite_fst_iff, Keeps.ite_snd_iff]
    | with_reducible apply And.intro
    | intro _
    | (with_reducible apply Keeps.fst; on_goal 1 => with_reducible assumption)
    | (with_reducible apply Keeps.snd; on_goal 1 => with_reducible assumption)
    | with_reducible apply Keeps.foldl
    | with_reducible apply Keeps.foldl_fst
    | with_reducible apply Keeps.foldl_snd
    | split
    | dsimp only
    | simp only []

theorem State.updSlot_keeps (s : State) (q : Nat) (f : QSlot → QSlot) : Keeps s (s.updSlot q f) := by
  unfold State.updSlot
  try dsimp only
  repeat' first
    | with_reducible exact Keeps.refl _
    | with_reducible assumption
    | with_reducible exact Keeps.ofId _
    | with_reducible exact Keeps.ofNone
    | with_reducible refine Keeps.ofSome ?_
    | with_reducible refine Keeps.ofIte ?_ ?_
    | simp only [Keeps.upd_iff, Keeps.ite_iff, Keeps.ite_fst_iff, Keeps.ite_snd_iff]
    | with_reducible apply And.intro
    | intro _
    | (with_reducible apply Keeps.fst; on_goal 1 => with_reducible assumption)
    | (with_reducible apply Keeps.snd; on_goal 1 => with_reducible assumption)
    | split
    | dsimp only
    | simp only []

theorem State.updRun_keeps (s : State) (x : Ctx) (f : CtxRun → CtxRun) : Keeps s (s.updRun x f) := by
  unfold State.updRun
  try dsimp only
  repeat' first
    | with_reducible exact Keeps.refl _
    | with_reducible assumption
    | with_reducible exact Keeps.ofId _
    | with_reducible exact Keeps.ofNone
    | with_reducible refine Keeps.ofSome ?_
    | with_reducible refine Keeps.ofIte ?_ ?_
    | simp only [Keeps.upd_iff, Keeps.ite_iff, Keeps.ite_fst_iff, Keeps.ite_snd_iff]
    | with_reducible apply And.intro
    | intro _
    | (with_reducible apply Keeps.fst; on_goal 1 => with_reducible assumption)
    | (with_reducible apply Keeps.snd; on_goal 1 => with_reducible assumption)
    | split
    | dsimp only
    | simp only []

theorem State.setClientX_keeps (s : State) (c : Nat) (x : ClientX) : Keeps s (s.setClientX c x) := by
  unfold State.setClientX
  try dsimp only
  repeat' first
    | with_reducible exact Keeps.refl _
    | with_reducible assumption
    | with_reducible exact Keeps.ofId _
    | with_reducible exact Keeps.ofNone
    | with_reducible refine Keeps.ofSome ?_
    | with_reducible refine Keeps.ofIte ?_ ?_
    | simp only [Keeps.upd_iff, Keeps.ite_iff, Keeps.ite_fst_iff, Keeps.ite_snd_iff]
    | with_reducible apply And.intro
    | intro _
    | (with_reducible apply Keeps.fst; on_goal 1 => with_reducible assumption)
    | (with_reducible apply Keeps.snd; on_goal 1 => with_reducible assumption)
    | split
    | dsimp only
    | simp only []

theorem State.pwmSafe_keeps (s : State) (cs : List Nat) : Keeps s (s.pwmSafe cs) := by
  unfold State.pwmSafe
  try dsimp only
  repeat' first
    | with_reducible exact Keeps.refl _
    | with_reducible assumption
    | with_reducible exact Keeps.ofId _
    | with_reducible exact Keeps.ofNone
    | with_reducible refine Keeps.ofSome ?_
    | with_reducible refine Keeps.ofIte ?_ ?_
    | simp only [Keeps.upd_iff, Keeps.ite_iff, Keeps.ite_fst_iff, Keeps.ite_snd_iff]
    | with_reducible apply And.intro
    | intro _
    | with_reducible apply Keeps.after (State.emit_keeps ..)
    | (with_reducible apply Keeps.fst; on_goal 1 => with_reducible assumption)
    | (with_reducible apply Keeps.snd; on_goal 1 => with_reducible assumption)
    | with_reducible apply Keeps.foldl
    | with_reducible apply Keeps.foldl_fst
    | with_reducible apply Keeps.foldl_snd
    | split
    | dsimp only
    | simp only []

theorem State.setWdX_keeps (s : State) (f : WdX → WdX) : Keeps s (s.setWdX f) := by
  unfold State.setWdX
  try dsimp only
  repeat' first
    | with_reducible exact Keeps.refl _
    | with_reducible assumption
    | with_reducible exact Keeps.ofId _
    | with_reducible exact Keeps.ofNone
    | with_reducible refine Keeps.ofSome ?_
    | with_reducible refine Keeps.ofIte ?_ ?_
    | simp only [Keeps.upd_iff, Keeps.ite_iff, Keeps.ite_fst_iff, Keeps.ite_snd_iff]
    | with_reducible apply And.intro
    | intro _
    | (with_reducible apply Keeps.fst; on_goal 1 => with_reducible assumption)
    | (with_reducible apply Keeps.snd; on_goal 1 => with_reducible assumption)
    | split
    | dsimp only
    | simp only []

theorem State.pins_keeps (s : State) (run : Bool) : Keeps s (s.pins run) := by
  unfold State.pins
  try dsimp only
  repeat' first
    | with_reducible exact Keeps.refl _
    | with_reducible assumption
    | with_reducible exact Keeps.ofId _
    | with_reducible exact Keeps.ofNone
    | with_reducible refine Keeps.ofSome ?_
    | with_reducible refine Keeps.ofIte ?_ ?_
    | simp only [Keeps.upd_iff, Keeps.ite_iff, Keeps.ite_fst_iff, Keeps.ite_snd_iff]
    | with_reducible apply And.intro
    | intro _
    | with_reducible apply Keeps.after (State.emit_keeps ..)
    | with_reducible apply Keeps.after (State.setFlag_keeps ..)
    | with_reducible apply Keeps.after (State.wr_keeps ..)
    | (with_reducible apply Keeps.fst; on_goal 1 => with_reducible assumption)
    | (with_reducible apply Keeps.snd; on_goal 1 => with_reducible assumption)
    | split
    | dsimp only
    | simp only []

theorem State.hardSafe_keeps (s : State) : Keeps s s.hardSafe := by
  unfold State.hardSafe
  try dsimp only
  repeat' first
    | with_reducible exact Keeps.refl _
    | with_reducible assumption
    | with_reducible exact Keeps.ofId _
    | with_reducible exact Keeps.ofNone
    | with_reducible refine Keeps.ofSome ?_
    | with_reducible refine Keeps.ofIte ?_ ?_
    | simp only [Keeps.upd_iff, Keeps.ite_iff, Keeps.ite_fst_iff, Keeps.ite_snd_iff]
    | with_reducible apply And.intro
    | intro _
    | with_reducible apply Keeps.after (State.pins_keeps ..)
    | with_reducible apply Keeps.after (State.pwmSafe_keeps ..)
    | (with_reducible apply Keeps.fst; on_goal 1 => with_reducible assumption)
    | (with_reducible apply Keeps.snd; on_goal 1 => with_reducible assumption)
    | split
    | dsimp only
    | simp only []

theorem State.wdReport_keeps (s : State) (check : Nat) (item : Nat) (value : Nat) : Keeps s (s.wdReport check item value) := by
  unfold State.wdReport
  try dsimp only
  repeat' first
    | with_reducible exact Keeps.refl _
    | with_reducible assumption
    | with_reducible exact Keeps.ofId _
    | with_reducible exact Keeps.ofNone
    | with_reducible refine Keeps.ofSome ?_
    | with_reducible refine Keeps.ofIte ?_ ?_
    | simp only [Keeps.upd_iff, Keeps.ite_iff, Keeps.ite_fst_iff, Keeps.ite_snd_iff]
    | with_reducible apply And.intro
    | intro _
    | with_reducible apply Keeps.after (State.hardSafe_keeps ..)
    | (with_reducible apply Keeps.fst; on_goal 1 => with_reducible assumption)
    | (with_reducible apply Keeps.snd; on_goal 1 => with_reducible assumption)
    | split
    | dsimp only
    | simp only []

theorem State.fwRefuse_keeps (s : State) (ini : Nat) (a : Nat) (write : Bool) : Keeps s (s.fwRefuse ini a write) := by
  unfold State.fwRefuse
  try dsimp only
  repeat' first
    | with_reducible exact Keeps.refl _
    | with_reducible assumption
    | with_reducible exact Keeps.ofId _
    | with_reducible exact Keeps.ofNone
    | with_reducible refine Keeps.ofSome ?_
    | with_reducible refine Keeps.ofIte ?_ ?_
    | simp only [Keeps.upd_iff, Keeps.ite_iff, Keeps.ite_fst_iff, Keeps.ite_snd_iff]
    | with_reducible apply And.intro
    | intro _
    | with_reducible apply Keeps.after (State.wdReport_keeps ..)
    | with_reducible apply Keeps.after (State.count_keeps ..)
    | with_reducible apply Keeps.after (State.wr_keeps ..)
    | (with_reducible apply Keeps.fst; on_goal 1 => with_reducible assumption)
    | (with_reducible apply Keeps.snd; on_goal 1 => with_reducible assumption)
    | split
    | dsimp only
    | simp only []

theorem State.calApply_keeps (s : State) (hit : Nat → Bool) : Keeps s (s.calApply hit) := by
  unfold State.calApply
  try dsimp only
  repeat' first
    | with_reducible exact Keeps.refl _
    | with_reducible assumption
    | with_reducible exact Keeps.ofId _
    | with_reducible exact Keeps.ofNone
    | with_reducible refine Keeps.ofSome ?_
    | with_reducible refine Keeps.ofIte ?_ ?_
    | simp only [Keeps.upd_iff, Keeps.ite_iff, Keeps.ite_fst_iff, Keeps.ite_snd_iff]
    | with_reducible apply And.intro
    | intro _
    | with_reducible apply Keeps.after (State.setFlag_keeps ..)
    | (with_reducible apply Keeps.fst; on_goal 1 => with_reducible assumption)
    | (with_reducible apply Keeps.snd; on_goal 1 => with_reducible assumption)
    | with_reducible apply Keeps.foldl
    | with_reducible apply Keeps.foldl_fst
    | with_reducible apply Keeps.foldl_snd
    | split
    | dsimp only
    | simp only []

end Sys2Proof.Machine
end

