-- ==== Sys2Proof/Laws/KeepsPressDesc.lean ====
section
/-! SUPPORT. What the update of a pipeline keeps. -/
namespace Sys2Proof.Machine

theorem State.setPp_keeps (s : State) (p : Nat) (x : PpX) : Keeps s (s.setPp p x) := by
  unfold State.setPp
  try dsimp only
  repeat' first
    | with_reducible exact Keeps.refl _
    | with_reducible assumption
    | with_reducible exact Keeps.ofId _
    | with_reducible exact Keeps.ofNone
    | with_reducible refine Keeps.ofSome ?_
    | with_reducible refine Keeps.ofIte ?_ ?_
    | simp only [Keeps.upd_iff, Keeps.ite_iff, Keeps.ite_fst_iff, Keeps.ite_snd_iff]
    | with_reducible apply And.intro
    | intro _
    | (with_reducible apply Keeps.fst; on_goal 1 => with_reducible assumption)
    | (with_reducible apply Keeps.snd; on_goal 1 => with_reducible assumption)
    | split
    | dsimp only
    | simp only []

end Sys2Proof.Machine
end

