-- ==== Sys2Proof/Laws/KeepsXlate.lean ====
section
/-! SUPPORT. What the operations of Machine/Xlate.lean keep. -/
namespace Sys2Proof.Machine

theorem State.xlFault_keeps (s : State) (client : Nat) (mem : Bool) (input : Nat) (write : Bool) (cause : Nat) : Keeps s (s.xlFault client mem input write cause) := by
  unfold State.xlFault
  try dsimp only
  repeat' first
    | with_reducible exact Keeps.refl _
    | with_reducible assumption
    | with_reducible exact Keeps.ofId _
    | with_reducible exact Keeps.ofNone
    | with_reducible refine Keeps.ofSome ?_
    | with_reducible refine Keeps.ofIte ?_ ?_
    | simp only [Keeps.upd_iff, Keeps.ite_iff, Keeps.ite_fst_iff, Keeps.ite_snd_iff]
    | with_reducible apply And.intro
    | intro _
    | with_reducible apply Keeps.after (State.count_keeps ..)
    | with_reducible apply Keeps.after (State.wr_keeps ..)
    | (with_reducible apply Keeps.fst; on_goal 1 => with_reducible assumption)
    | (with_reducible apply Keeps.snd; on_goal 1 => with_reducible assumption)
    | split
    | dsimp only
    | simp only []

theorem State.translate_keeps (s : State) (client : Nat) (mem : Bool) (input : Nat) (write : Bool) : Keeps s (s.translate client mem input write).1 := by
  unfold State.translate
  try dsimp only
  repeat' first
    | with_reducible exact Keeps.refl _
    | with_reducible assumption
    | with_reducible exact Keeps.ofId _
    | with_reducible exact Keeps.ofNone
    | with_reducible refine Keeps.ofSome ?_
    | with_reducible refine Keeps.ofIte ?_ ?_
    | simp only [Keeps.upd_iff, Keeps.ite_iff, Keeps.ite_fst_iff, Keeps.ite_snd_iff]
    | with_reducible apply And.intro
    | intro _
    | with_reducible apply Keeps.after (State.xlFault_keeps ..)
    | with_reducible apply Keeps.after (State.count_keeps ..)
    | (with_reducible apply Keeps.fst; on_goal 1 => with_reducible assumption)
    | (with_reducible apply Keeps.snd; on_goal 1 => with_reducible assumption)
    | split
    | dsimp only
    | simp only []

theorem State.lpddrAt_keeps (s : State) (ini : Nat) (a : Nat) (write : Bool) : Keeps s (s.lpddrAt ini a write).1 := by
  unfold State.lpddrAt
  try dsimp only
  repeat' first
    | with_reducible exact Keeps.refl _
    | with_reducible assumption
    | with_reducible exact Keeps.ofId _
    | with_reducible exact Keeps.ofNone
    | with_reducible refine Keeps.ofSome ?_
    | with_reducible refine Keeps.ofIte ?_ ?_
    | simp only [Keeps.upd_iff, Keeps.ite_iff, Keeps.ite_fst_iff, Keeps.ite_snd_iff]
    | with_reducible apply And.intro
    | intro _
    | with_reducible apply Keeps.after (State.fwRefuse_keeps ..)
    | with_reducible apply Keeps.after (State.addrError_keeps ..)
    | (with_reducible apply Keeps.fst; on_goal 1 => with_reducible assumption)
    | (with_reducible apply Keeps.snd; on_goal 1 => with_reducible assumption)
    | split
    | dsimp only
    | simp only []

theorem State.resolve_keeps (s : State) (ini : Nat) (client : Nat) (xlate : Bool) (a : Nat) (write : Bool) : Keeps s (s.resolve ini client xlate a write).1 := by
  unfold State.resolve
  try dsimp only
  repeat' first
    | with_reducible exact Keeps.refl _
    | with_reducible assumption
    | with_reducible exact Keeps.ofId _
    | with_reducible exact Keeps.ofNone
    | with_reducible refine Keeps.ofSome ?_
    | with_reducible refine Keeps.ofIte ?_ ?_
    | simp only [Keeps.upd_iff, Keeps.ite_iff, Keeps.ite_fst_iff, Keeps.ite_snd_iff]
    | with_reducible apply And.intro
    | intro _
    | with_reducible apply Keeps.after (State.lpddrAt_keeps ..)
    | with_reducible apply Keeps.after (State.translate_keeps ..)
    | with_reducible apply Keeps.after (State.addrError_keeps ..)
    | (with_reducible apply Keeps.fst; on_goal 1 => with_reducible assumption)
    | (with_reducible apply Keeps.snd; on_goal 1 => with_reducible assumption)
    | split
    | dsimp only
    | simp only []

theorem State.extRead_keeps (s : State) (ini : Nat) (client : Nat) (xlate : Bool) (a : Nat) (n : Nat) : Keeps s (s.extRead ini client xlate a n).1 := by
  unfold State.extRead
  try dsimp only
  repeat' first
    | with_reducible exact Keeps.refl _
    | with_reducible assumption
    | with_reducible exact Keeps.ofId _
    | with_reducible exact Keeps.ofNone
    | with_reducible refine Keeps.ofSome ?_
    | with_reducible refine Keeps.ofIte ?_ ?_
    | simp only [Keeps.upd_iff, Keeps.ite_iff, Keeps.ite_fst_iff, Keeps.ite_snd_iff]
    | with_reducible apply And.intro
    | intro _
    | with_reducible apply Keeps.after (State.resolve_keeps ..)
    | (with_reducible apply Keeps.fst; on_goal 1 => with_reducible assumption)
    | (with_reducible apply Keeps.snd; on_goal 1 => with_reducible assumption)
    | split
    | dsimp only
    | simp only []

theorem State.extWrite_keeps (s : State) (ini : Nat) (client : Nat) (xlate : Bool) (a : Nat) (l : List Byte) : Keeps s (s.extWrite ini client xlate a l).1 := by
  unfold State.extWrite
  try dsimp only
  repeat' first
    | with_reducible exact Keeps.refl _
    | with_reducible assumption
    | with_reducible exact Keeps.ofId _
    | with_reducible exact Keeps.ofNone
    | with_reducible refine Keeps.ofSome ?_
    | with_reducible refine Keeps.ofIte ?_ ?_
    | simp only [Keeps.upd_iff, Keeps.ite_iff, Keeps.ite_fst_iff, Keeps.ite_snd_iff]
    | with_reducible apply And.intro
    | intro _
    | with_reducible apply Keeps.after (State.resolve_keeps ..)
    | with_reducible apply Keeps.after (State.setHostBytes_keeps ..)
    | with_reducible apply Keeps.after (State.setBytes_keeps ..)
    | (with_reducible apply Keeps.fst; on_goal 1 => with_reducible assumption)
    | (with_reducible apply Keeps.snd; on_goal 1 => with_reducible assumption)
    | split
    | dsimp only
    | simp only []

end Sys2Proof.Machine
end

