-- ==== Sys2Proof/Laws/KeepsEvents.lean ====
section
/-! SUPPORT. What the operations of Machine/Events.lean keep. -/
namespace Sys2Proof.Machine

theorem State.sendMsix_keeps (s : State) (v : Nat) : Keeps s (s.sendMsix v) := by
  unfold State.sendMsix
  try dsimp only
  repeat' first
    | with_reducible exact Keeps.refl _
    | with_reducible assumption
    | with_reducible exact Keeps.ofId _
    | with_reducible exact Keeps.ofNone
    | with_reducible refine Keeps.ofSome ?_
    | with_reducible refine Keeps.ofIte ?_ ?_
    | simp only [Keeps.upd_iff, Keeps.ite_iff, Keeps.ite_fst_iff, Keeps.ite_snd_iff]
    | with_reducible apply And.intro
    | intro _
    | with_reducible apply Keeps.after (State.emit_keeps ..)
    | with_reducible apply Keeps.after (State.setFlag_keeps ..)
    | (with_reducible apply Keeps.fst; on_goal 1 => with_reducible assumption)
    | (with_reducible apply Keeps.snd; on_goal 1 => with_reducible assumption)
    | split
    | dsimp only
    | simp only []

theorem State.supInt_keeps (s : State) (b : Nat) : Keeps s (s.supInt b) := by
  unfold State.supInt
  try dsimp only
  repeat' first
    | with_reducible exact Keeps.refl _
    | with_reducible assumption
    | with_reducible exact Keeps.ofId _
    | with_reducible exact Keeps.ofNone
    | with_reducible refine Keeps.ofSome ?_
    | with_reducible refine Keeps.ofIte ?_ ?_
    | simp only [Keeps.upd_iff, Keeps.ite_iff, Keeps.ite_fst_iff, Keeps.ite_snd_iff]
    | with_reducible apply And.intro
    | intro _
    | with_reducible apply Keeps.after (State.emit_keeps ..)
    | with_reducible apply Keeps.after (State.setFlag_keeps ..)
    | (with_reducible apply Keeps.fst; on_goal 1 => with_reducible assumption)
    | (with_reducible apply Keeps.snd; on_goal 1 => with_reducible assumption)
    | split
    | dsimp only
    | simp only []

theorem State.chanInt_keeps (s : State) (ch : Nat) (cause : Nat) : Keeps s (s.chanInt ch cause) := by
  unfold State.chanInt
  try dsimp only
  repeat' first
    | with_reducible exact Keeps.refl _
    | with_reducible assumption
    | with_reducible exact Keeps.ofId _
    | with_reducible exact Keeps.ofNone
    | with_reducible refine Keeps.ofSome ?_
    | with_reducible refine Keeps.ofIte ?_ ?_
    | simp only [Keeps.upd_iff, Keeps.ite_iff, Keeps.ite_fst_iff, Keeps.ite_snd_iff]
    | with_reducible apply And.intro
    | intro _
    | with_reducible apply Keeps.after (State.supInt_keeps ..)
    | with_reducible apply Keeps.after (State.sendMsix_keeps ..)
    | with_reducible apply Keeps.after (State.emit_keeps ..)
    | (with_reducible apply Keeps.fst; on_goal 1 => with_reducible assumption)
    | (with_reducible apply Keeps.snd; on_goal 1 => with_reducible assumption)
    | split
    | dsimp only
    | simp only []

theorem State.signalRoute_keeps (s : State) (c : Nat) : Keeps s (s.signalRoute c) := by
  unfold State.signalRoute
  try dsimp only
  repeat' first
    | with_reducible exact Keeps.refl _
    | with_reducible assumption
    | with_reducible exact Keeps.ofId _
    | with_reducible exact Keeps.ofNone
    | with_reducible refine Keeps.ofSome ?_
    | with_reducible refine Keeps.ofIte ?_ ?_
    | simp only [Keeps.upd_iff, Keeps.ite_iff, Keeps.ite_fst_iff, Keeps.ite_snd_iff]
    | with_reducible apply And.intro
    | intro _
    | with_reducible apply Keeps.after (State.chanInt_keeps ..)
    | with_reducible apply Keeps.after (State.supInt_keeps ..)
    | with_reducible apply Keeps.after (State.sendMsix_keeps ..)
    | with_reducible apply Keeps.after (State.setFlag_keeps ..)
    | (with_reducible apply Keeps.fst; on_goal 1 => with_reducible assumption)
    | (with_reducible apply Keeps.snd; on_goal 1 => with_reducible assumption)
    | split
    | dsimp only
    | simp only []

theorem State.eventDrop_keeps (s : State) (c : Nat) : Keeps s (s.eventDrop c) := by
  unfold State.eventDrop
  try dsimp only
  repeat' first
    | with_reducible exact Keeps.refl _
    | with_reducible assumption
    | with_reducible exact Keeps.ofId _
    | with_reducible exact Keeps.ofNone
    | with_reducible refine Keeps.ofSome ?_
    | with_reducible refine Keeps.ofIte ?_ ?_
    | simp only [Keeps.upd_iff, Keeps.ite_iff, Keeps.ite_fst_iff, Keeps.ite_snd_iff]
    | with_reducible apply And.intro
    | intro _
    | with_reducible apply Keeps.after (State.setClientX_keeps ..)
    | with_reducible apply Keeps.after (State.countF_keeps ..)
    | (with_reducible apply Keeps.fst; on_goal 1 => with_reducible assumption)
    | (with_reducible apply Keeps.snd; on_goal 1 => with_reducible assumption)
    | split
    | dsimp only
    | simp only []

theorem State.eventWrite_keeps (s : State) (c : Nat) (code : Nat) (unit : Nat) (queue : Nat) (seq : Nat) (d0 : Nat) (d1 : Nat) : Keeps s (s.eventWrite c code unit queue seq d0 d1).1 := by
  unfold State.eventWrite
  try dsimp only
  repeat' first
    | with_reducible exact Keeps.refl _
    | with_reducible assumption
    | with_reducible exact Keeps.ofId _
    | with_reducible exact Keeps.ofNone
    | with_reducible refine Keeps.ofSome ?_
    | with_reducible refine Keeps.ofIte ?_ ?_
    | simp only [Keeps.upd_iff, Keeps.ite_iff, Keeps.ite_fst_iff, Keeps.ite_snd_iff]
    | with_reducible apply And.intro
    | intro _
    | with_reducible apply Keeps.after (State.extWrite_keeps ..)
    | with_reducible apply Keeps.after (State.setFld_keeps ..)
    | with_reducible apply Keeps.after (State.setClientX_keeps ..)
    | with_reducible apply Keeps.after (State.eventDrop_keeps ..)
    | (with_reducible apply Keeps.fst; on_goal 1 => with_reducible assumption)
    | (with_reducible apply Keeps.snd; on_goal 1 => with_reducible assumption)
    | split
    | dsimp only
    | simp only []

theorem State.eventSignal_keeps (s : State) (c : Nat) : Keeps s (s.eventSignal c) := by
  unfold State.eventSignal
  try dsimp only
  repeat' first
    | with_reducible exact Keeps.refl _
    | with_reducible assumption
    | with_reducible exact Keeps.ofId _
    | with_reducible exact Keeps.ofNone
    | with_reducible refine Keeps.ofSome ?_
    | with_reducible refine Keeps.ofIte ?_ ?_
    | simp only [Keeps.upd_iff, Keeps.ite_iff, Keeps.ite_fst_iff, Keeps.ite_snd_iff]
    | with_reducible apply And.intro
    | intro _
    | with_reducible apply Keeps.after (State.signalRoute_keeps ..)
    | with_reducible apply Keeps.after (State.setClientX_keeps ..)
    | (with_reducible apply Keeps.fst; on_goal 1 => with_reducible assumption)
    | (with_reducible apply Keeps.snd; on_goal 1 => with_reducible assumption)
    | split
    | dsimp only
    | simp only []

theorem State.post_keeps (s : State) (c : Nat) (code : Nat) (unit : Nat) (queue : Nat) (seq : Nat) (d0 : Nat) (d1 : Nat) : Keeps s (s.post c code unit queue seq d0 d1) := by
  unfold State.post
  try dsimp only
  repeat' first
    | with_reducible exact Keeps.refl _
    | with_reducible assumption
    | with_reducible exact Keeps.ofId _
    | with_reducible exact Keeps.ofNone
    | with_reducible refine Keeps.ofSome ?_
    | with_reducible refine Keeps.ofIte ?_ ?_
    | simp only [Keeps.upd_iff, Keeps.ite_iff, Keeps.ite_fst_iff, Keeps.ite_snd_iff]
    | with_reducible apply And.intro
    | intro _
    | with_reducible apply Keeps.after (State.eventWrite_keeps ..)
    | with_reducible apply Keeps.after (State.eventSignal_keeps ..)
    | with_reducible apply Keeps.after (State.eventDrop_keeps ..)
    | with_reducible apply Keeps.after (State.setClientX_keeps ..)
    | (with_reducible apply Keeps.fst; on_goal 1 => with_reducible assumption)
    | (with_reducible apply Keeps.snd; on_goal 1 => with_reducible assumption)
    | split
    | dsimp only
    | simp only []

theorem State.postAll_keeps (s : State) (code : Nat) (unit : Nat) (d0 : Nat) (d1 : Nat) (x5 : List Nat) : Keeps s (s.postAll code unit d0 d1 x5) := by
  unhygienic fun_induction State.postAll s code unit d0 d1 x5
  all_goals try dsimp only
  repeat' first
    | with_reducible exact Keeps.refl _
    | with_reducible assumption
    | with_reducible exact Keeps.ofId _
    | with_reducible exact Keeps.ofNone
    | with_reducible refine Keeps.ofSome ?_
    | with_reducible refine Keeps.ofIte ?_ ?_
    | simp only [Keeps.upd_iff, Keeps.ite_iff, Keeps.ite_fst_iff, Keeps.ite_snd_iff]
    | with_reducible apply And.intro
    | intro _
    | with_reducible apply Keeps.after (State.post_keeps ..)
    | (with_reducible apply Keeps.fst; on_goal 1 => with_reducible assumption)
    | (with_reducible apply Keeps.snd; on_goal 1 => with_reducible assumption)
    | with_reducible apply Keeps.after ih1
    | with_reducible apply Keeps.after ih2
    | with_reducible apply Keeps.after ih3
    | with_reducible apply Keeps.after ih4
    | split
    | dsimp only
    | simp only []

theorem State.postIni_keeps (s : State) (ini : Nat) (code : Nat) (unit : Nat) (d0 : Nat) (d1 : Nat) : Keeps s (s.postIni ini code unit d0 d1) := by
  unfold State.postIni
  try dsimp only
  repeat' first
    | with_reducible exact Keeps.refl _
    | with_reducible assumption
    | with_reducible exact Keeps.ofId _
    | with_reducible exact Keeps.ofNone
    | with_reducible refine Keeps.ofSome ?_
    | with_reducible refine Keeps.ofIte ?_ ?_
    | simp only [Keeps.upd_iff, Keeps.ite_iff, Keeps.ite_fst_iff, Keeps.ite_snd_iff]
    | with_reducible apply And.intro
    | intro _
    | with_reducible apply Keeps.after (State.post_keeps ..)
    | (with_reducible apply Keeps.fst; on_goal 1 => with_reducible assumption)
    | (with_reducible apply Keeps.snd; on_goal 1 => with_reducible assumption)
    | split
    | dsimp only
    | simp only []

end Sys2Proof.Machine
end

