-- ==== Sys2Proof/Laws/KeepsFaults.lean ====
section
/-! SUPPORT. What the operations of Machine/Faults.lean keep. -/
namespace Sys2Proof.Machine

theorem State.postRecord_keeps (s : State) (r : FaultRec) : Keeps s (s.postRecord r) := by
  unfold State.postRecord
  try dsimp only
  repeat' first
    | with_reducible exact Keeps.refl _
    | with_reducible assumption
    | with_reducible exact Keeps.ofId _
    | with_reducible exact Keeps.ofNone
    | with_reducible refine Keeps.ofSome ?_
    | with_reducible refine Keeps.ofIte ?_ ?_
    | simp only [Keeps.upd_iff, Keeps.ite_iff, Keeps.ite_fst_iff, Keeps.ite_snd_iff]
    | with_reducible apply And.intro
    | intro _
    | with_reducible apply Keeps.after (State.post_keeps ..)
    | (with_reducible apply Keeps.fst; on_goal 1 => with_reducible assumption)
    | (with_reducible apply Keeps.snd; on_goal 1 => with_reducible assumption)
    | split
    | dsimp only
    | simp only []

theorem State.setHealthX_keeps (s : State) (u : Nat) (h : HealthX) : Keeps s (s.setHealthX u h) := by
  unfold State.setHealthX
  try dsimp only
  repeat' first
    | with_reducible exact Keeps.refl _
    | with_reducible assumption
    | with_reducible exact Keeps.ofId _
    | with_reducible exact Keeps.ofNone
    | with_reducible refine Keeps.ofSome ?_
    | with_reducible refine Keeps.ofIte ?_ ?_
    | simp only [Keeps.upd_iff, Keeps.ite_iff, Keeps.ite_fst_iff, Keeps.ite_snd_iff]
    | with_reducible apply And.intro
    | intro _
    | (with_reducible apply Keeps.fst; on_goal 1 => with_reducible assumption)
    | (with_reducible apply Keeps.snd; on_goal 1 => with_reducible assumption)
    | split
    | dsimp only
    | simp only []

theorem State.healthSync_keeps (s : State) : Keeps s s.healthSync := by
  unfold State.healthSync
  try dsimp only
  repeat' first
    | with_reducible exact Keeps.refl _
    | with_reducible assumption
    | with_reducible exact Keeps.ofId _
    | with_reducible exact Keeps.ofNone
    | with_reducible refine Keeps.ofSome ?_
    | with_reducible refine Keeps.ofIte ?_ ?_
    | simp only [Keeps.upd_iff, Keeps.ite_iff, Keeps.ite_fst_iff, Keeps.ite_snd_iff]
    | with_reducible apply And.intro
    | intro _
    | with_reducible apply Keeps.after (State.post_keeps ..)
    | (with_reducible apply Keeps.fst; on_goal 1 => with_reducible assumption)
    | (with_reducible apply Keeps.snd; on_goal 1 => with_reducible assumption)
    | with_reducible apply Keeps.foldl
    | with_reducible apply Keeps.foldl_fst
    | with_reducible apply Keeps.foldl_snd
    | split
    | dsimp only
    | simp only []

theorem State.fltSync_keeps (s : State) : Keeps s s.fltSync := by
  unfold State.fltSync
  try dsimp only
  repeat' first
    | with_reducible exact Keeps.refl _
    | with_reducible assumption
    | with_reducible exact Keeps.ofId _
    | with_reducible exact Keeps.ofNone
    | with_reducible refine Keeps.ofSome ?_
    | with_reducible refine Keeps.ofIte ?_ ?_
    | simp only [Keeps.upd_iff, Keeps.ite_iff, Keeps.ite_fst_iff, Keeps.ite_snd_iff]
    | with_reducible apply And.intro
    | intro _
    | with_reducible apply Keeps.after (State.wr_keeps ..)
    | with_reducible apply Keeps.after (State.healthSync_keeps ..)
    | (with_reducible apply Keeps.fst; on_goal 1 => with_reducible assumption)
    | (with_reducible apply Keeps.snd; on_goal 1 => with_reducible assumption)
    | split
    | dsimp only
    | simp only []

theorem State.recordFault_keeps (s : State) (code : Nat) (unit : Nat) (ini : Nat) (queue : Nat) (seq : Nat) (addr : Nat) (d0 : Nat) (d1 : Nat) (outcome : Nat) : Keeps s (s.recordFault code unit ini queue seq addr d0 d1 outcome) := by
  unfold State.recordFault
  try dsimp only
  repeat' first
    | with_reducible exact Keeps.refl _
    | with_reducible assumption
    | with_reducible exact Keeps.ofId _
    | with_reducible exact Keeps.ofNone
    | with_reducible refine Keeps.ofSome ?_
    | with_reducible refine Keeps.ofIte ?_ ?_
    | simp only [Keeps.upd_iff, Keeps.ite_iff, Keeps.ite_fst_iff, Keeps.ite_snd_iff]
    | with_reducible apply And.intro
    | intro _
    | with_reducible apply Keeps.after (State.setUcb_keeps ..)
    | with_reducible apply Keeps.after (State.count_keeps ..)
    | with_reducible apply Keeps.after (State.wr_keeps ..)
    | with_reducible apply Keeps.after (State.postRecord_keeps ..)
    | with_reducible apply Keeps.after (State.fltSync_keeps ..)
    | (with_reducible apply Keeps.fst; on_goal 1 => with_reducible assumption)
    | (with_reducible apply Keeps.snd; on_goal 1 => with_reducible assumption)
    | split
    | dsimp only
    | simp only []

theorem State.injected_keeps (s : State) (u : Nat) (kind : Nat) : Keeps s (s.injected u kind).1 := by
  unfold State.injected
  try dsimp only
  repeat' first
    | with_reducible exact Keeps.refl _
    | with_reducible assumption
    | with_reducible exact Keeps.ofId _
    | with_reducible exact Keeps.ofNone
    | with_reducible refine Keeps.ofSome ?_
    | with_reducible refine Keeps.ofIte ?_ ?_
    | simp only [Keeps.upd_iff, Keeps.ite_iff, Keeps.ite_fst_iff, Keeps.ite_snd_iff]
    | with_reducible apply And.intro
    | intro _
    | (with_reducible apply Keeps.fst; on_goal 1 => with_reducible assumption)
    | (with_reducible apply Keeps.snd; on_goal 1 => with_reducible assumption)
    | split
    | dsimp only
    | simp only []

theorem State.setOutcome_keeps (s : State) (n : Nat) (o : Nat) (retried : Bool) : Keeps s (s.setOutcome n o retried) := by
  unfold State.setOutcome
  try dsimp only
  repeat' first
    | with_reducible exact Keeps.refl _
    | with_reducible assumption
    | with_reducible exact Keeps.ofId _
    | with_reducible exact Keeps.ofNone
    | with_reducible refine Keeps.ofSome ?_
    | with_reducible refine Keeps.ofIte ?_ ?_
    | simp only [Keeps.upd_iff, Keeps.ite_iff, Keeps.ite_fst_iff, Keeps.ite_snd_iff]
    | with_reducible apply And.intro
    | intro _
    | with_reducible apply Keeps.after (State.postRecord_keeps ..)
    | with_reducible apply Keeps.after (State.fltSync_keeps ..)
    | (with_reducible apply Keeps.fst; on_goal 1 => with_reducible assumption)
    | (with_reducible apply Keeps.snd; on_goal 1 => with_reducible assumption)
    | split
    | dsimp only
    | simp only []

theorem State.windowNote_keeps (s : State) (u : Nat) (h : HealthX) : Keeps s (s.windowNote u h) := by
  unfold State.windowNote
  try dsimp only
  repeat' first
    | with_reducible exact Keeps.refl _
    | with_reducible assumption
    | with_reducible exact Keeps.ofId _
    | with_reducible exact Keeps.ofNone
    | with_reducible refine Keeps.ofSome ?_
    | with_reducible refine Keeps.ofIte ?_ ?_
    | simp only [Keeps.upd_iff, Keeps.ite_iff, Keeps.ite_fst_iff, Keeps.ite_snd_iff]
    | with_reducible apply And.intro
    | intro _
    | with_reducible apply Keeps.after (State.setHealthX_keeps ..)
    | with_reducible apply Keeps.after (State.recordFault_keeps ..)
    | (with_reducible apply Keeps.fst; on_goal 1 => with_reducible assumption)
    | (with_reducible apply Keeps.snd; on_goal 1 => with_reducible assumption)
    | split
    | dsimp only
    | simp only []

theorem State.countTransient_keeps (s : State) (u : Nat) : Keeps s (s.countTransient u) := by
  unfold State.countTransient
  try dsimp only
  repeat' first
    | with_reducible exact Keeps.refl _
    | with_reducible assumption
    | with_reducible exact Keeps.ofId _
    | with_reducible exact Keeps.ofNone
    | with_reducible refine Keeps.ofSome ?_
    | with_reducible refine Keeps.ofIte ?_ ?_
    | simp only [Keeps.upd_iff, Keeps.ite_iff, Keeps.ite_fst_iff, Keeps.ite_snd_iff]
    | with_reducible apply And.intro
    | intro _
    | with_reducible apply Keeps.after (State.count_keeps ..)
    | with_reducible apply Keeps.after (State.windowNote_keeps ..)
    | with_reducible apply Keeps.after (State.fltSync_keeps ..)
    | (with_reducible apply Keeps.fst; on_goal 1 => with_reducible assumption)
    | (with_reducible apply Keeps.snd; on_goal 1 => with_reducible assumption)
    | split
    | dsimp only
    | simp only []

theorem State.countCE_keeps (s : State) (u : Nat) (k : Nat) : Keeps s (s.countCE u k) := by
  unfold State.countCE
  try dsimp only
  repeat' first
    | with_reducible exact Keeps.refl _
    | with_reducible assumption
    | with_reducible apply Keeps.foldl
    | with_reducible apply Keeps.foldl_fst
    | with_reducible apply Keeps.foldl_snd
    | with_reducible exact Keeps.ofId _
    | with_reducible exact Keeps.ofNone
    | with_reducible refine Keeps.ofSome ?_
    | with_reducible refine Keeps.ofIte ?_ ?_
    | simp only [Keeps.upd_iff, Keeps.ite_iff, Keeps.ite_fst_iff, Keeps.ite_snd_iff]
    | with_reducible apply And.intro
    | intro _
    | with_reducible apply Keeps.after (State.windowNote_keeps ..)
    | (with_reducible apply Keeps.fst; on_goal 1 => with_reducible assumption)
    | (with_reducible apply Keeps.snd; on_goal 1 => with_reducible assumption)
    | split
    | dsimp only
    | simp only []

theorem State.corrected_keeps (s : State) (u : Nat) (k : Nat) : Keeps s (s.corrected u k) := by
  unfold State.corrected
  try dsimp only
  repeat' first
    | with_reducible exact Keeps.refl _
    | with_reducible assumption
    | with_reducible exact Keeps.ofId _
    | with_reducible exact Keeps.ofNone
    | with_reducible refine Keeps.ofSome ?_
    | with_reducible refine Keeps.ofIte ?_ ?_
    | simp only [Keeps.upd_iff, Keeps.ite_iff, Keeps.ite_fst_iff, Keeps.ite_snd_iff]
    | with_reducible apply And.intro
    | intro _
    | with_reducible apply Keeps.after (State.countCE_keeps ..)
    | with_reducible apply Keeps.after (State.count_keeps ..)
    | with_reducible apply Keeps.after (State.countF_keeps ..)
    | (with_reducible apply Keeps.fst; on_goal 1 => with_reducible assumption)
    | (with_reducible apply Keeps.snd; on_goal 1 => with_reducible assumption)
    | split
    | dsimp only
    | simp only []

theorem State.injectedBit_keeps (s : State) (u : Nat) : Keeps s (s.injectedBit u) := by
  unfold State.injectedBit
  try dsimp only
  repeat' first
    | with_reducible exact Keeps.refl _
    | with_reducible assumption
    | with_reducible exact Keeps.ofId _
    | with_reducible exact Keeps.ofNone
    | with_reducible refine Keeps.ofSome ?_
    | with_reducible refine Keeps.ofIte ?_ ?_
    | simp only [Keeps.upd_iff, Keeps.ite_iff, Keeps.ite_fst_iff, Keeps.ite_snd_iff]
    | with_reducible apply And.intro
    | intro _
    | with_reducible apply Keeps.after (State.injected_keeps ..)
    | with_reducible apply Keeps.after (State.corrected_keeps ..)
    | (with_reducible apply Keeps.fst; on_goal 1 => with_reducible assumption)
    | (with_reducible apply Keeps.snd; on_goal 1 => with_reducible assumption)
    | split
    | dsimp only
    | simp only []

end Sys2Proof.Machine
end

