-- ==== Sys2Proof/Laws/KeepsAccess.lean ====
section
/-! SUPPORT. What the operations of Machine/Access.lean keep. -/
namespace Sys2Proof.Machine

theorem State.guarded_keeps (s : State) (ini : Nat) (u : Nat) (off : Nat) (v : Word) (isOpen : Bool) (act : State → State) (hact : ∀ s, Keeps s (act s)) : Keeps s (s.guarded ini u off v isOpen act) := by
  unfold State.guarded
  try dsimp only
  repeat' first
    | with_reducible exact Keeps.refl _
    | with_reducible assumption
    | with_reducible exact Keeps.ofId _
    | with_reducible exact Keeps.ofNone
    | with_reducible refine Keeps.ofSome ?_
    | with_reducible refine Keeps.ofIte ?_ ?_
    | simp only [Keeps.upd_iff, Keeps.ite_iff, Keeps.ite_fst_iff, Keeps.ite_snd_iff]
    | with_reducible apply And.intro
    | intro _
    | with_reducible apply Keeps.after (State.accError_keeps ..)
    | with_reducible apply Keeps.after (State.fwRefuse_keeps ..)
    | with_reducible apply Keeps.after (State.check_keeps ..)
    | with_reducible apply Keeps.after (hact _)
    | (with_reducible apply Keeps.fst; on_goal 1 => with_reducible assumption)
    | (with_reducible apply Keeps.snd; on_goal 1 => with_reducible assumption)
    | split
    | dsimp only
    | simp only []

theorem State.store_keeps (s : State) (u : Nat) (off : Nat) (v : Word) : Keeps s (s.store u off v) := by
  unfold State.store
  try dsimp only
  repeat' first
    | with_reducible exact Keeps.refl _
    | with_reducible assumption
    | with_reducible exact Keeps.ofId _
    | with_reducible exact Keeps.ofNone
    | with_reducible refine Keeps.ofSome ?_
    | with_reducible refine Keeps.ofIte ?_ ?_
    | simp only [Keeps.upd_iff, Keeps.ite_iff, Keeps.ite_fst_iff, Keeps.ite_snd_iff]
    | with_reducible apply And.intro
    | intro _
    | with_reducible apply Keeps.after (State.wr_keeps ..)
    | (with_reducible apply Keeps.fst; on_goal 1 => with_reducible assumption)
    | (with_reducible apply Keeps.snd; on_goal 1 => with_reducible assumption)
    | split
    | dsimp only
    | simp only []

theorem State.guardedStore_keeps (s : State) (ini : Nat) (u : Nat) (off : Nat) (v : Word) (check : State → Option AccCause) : Keeps s (s.guardedStore ini u off v check) := by
  unfold State.guardedStore
  try dsimp only
  repeat' first
    | with_reducible exact Keeps.refl _
    | with_reducible assumption
    | with_reducible exact Keeps.ofId _
    | with_reducible exact Keeps.ofNone
    | with_reducible refine Keeps.ofSome ?_
    | with_reducible refine Keeps.ofIte ?_ ?_
    | simp only [Keeps.upd_iff, Keeps.ite_iff, Keeps.ite_fst_iff, Keeps.ite_snd_iff]
    | with_reducible apply And.intro
    | intro _
    | with_reducible apply Keeps.after (State.store_keeps ..)
    | with_reducible refine Keeps.trans ?_ (State.guarded_keeps _ _ _ _ _ _ _ (fun _ => ?_))
    | with_reducible apply Keeps.after (State.accError_keeps ..)
    | (with_reducible apply Keeps.fst; on_goal 1 => with_reducible assumption)
    | (with_reducible apply Keeps.snd; on_goal 1 => with_reducible assumption)
    | split
    | dsimp only
    | simp only []

theorem State.readReg_keeps (s : State) (u : Nat) (off : Nat) : Keeps s (s.readReg u off).2 := by
  unfold State.readReg
  try dsimp only
  repeat' first
    | with_reducible exact Keeps.refl _
    | with_reducible assumption
    | with_reducible exact Keeps.ofId _
    | with_reducible exact Keeps.ofNone
    | with_reducible refine Keeps.ofSome ?_
    | with_reducible refine Keeps.ofIte ?_ ?_
    | simp only [Keeps.upd_iff, Keeps.ite_iff, Keeps.ite_fst_iff, Keeps.ite_snd_iff]
    | with_reducible apply And.intro
    | intro _
    | with_reducible apply Keeps.after (State.wr_keeps ..)
    | (with_reducible apply Keeps.fst; on_goal 1 => with_reducible assumption)
    | (with_reducible apply Keeps.snd; on_goal 1 => with_reducible assumption)
    | split
    | dsimp only
    | simp only []

theorem State.readRegs_keeps (s : State) (u : Nat) (x2 : List Nat) : Keeps s (s.readRegs u x2).2 := by
  unhygienic fun_induction State.readRegs s u x2
  all_goals try dsimp only
  repeat' first
    | with_reducible exact Keeps.refl _
    | with_reducible assumption
    | with_reducible exact Keeps.ofId _
    | with_reducible exact Keeps.ofNone
    | with_reducible refine Keeps.ofSome ?_
    | with_reducible refine Keeps.ofIte ?_ ?_
    | simp only [Keeps.upd_iff, Keeps.ite_iff, Keeps.ite_fst_iff, Keeps.ite_snd_iff]
    | with_reducible apply And.intro
    | intro _
    | with_reducible apply Keeps.after (State.readReg_keeps ..)
    | (with_reducible apply Keeps.fst; on_goal 1 => with_reducible assumption)
    | (with_reducible apply Keeps.snd; on_goal 1 => with_reducible assumption)
    | with_reducible apply Keeps.after ih1
    | with_reducible apply Keeps.after ih2
    | with_reducible apply Keeps.after ih3
    | with_reducible apply Keeps.after ih4
    | split
    | dsimp only
    | simp only []

theorem State.retRegs_keeps (s : State) (u : Nat) (offs : List Nat) : Keeps s (s.retRegs u offs) := by
  unfold State.retRegs
  try dsimp only
  repeat' first
    | with_reducible exact Keeps.refl _
    | with_reducible assumption
    | with_reducible exact Keeps.ofId _
    | with_reducible exact Keeps.ofNone
    | with_reducible refine Keeps.ofSome ?_
    | with_reducible refine Keeps.ofIte ?_ ?_
    | simp only [Keeps.upd_iff, Keeps.ite_iff, Keeps.ite_fst_iff, Keeps.ite_snd_iff]
    | with_reducible apply And.intro
    | intro _
    | with_reducible apply Keeps.after (State.readRegs_keeps ..)
    | with_reducible apply Keeps.after (State.ret_keeps ..)
    | (with_reducible apply Keeps.fst; on_goal 1 => with_reducible assumption)
    | (with_reducible apply Keeps.snd; on_goal 1 => with_reducible assumption)
    | split
    | dsimp only
    | simp only []

theorem State.callRead_keeps (s : State) (ini : Nat) (a : Nat) (x3 : Nat) (x4 : Nat) : Keeps s (s.callRead ini a x3 x4).1 := by
  unhygienic fun_induction State.callRead s ini a x3 x4
  all_goals try dsimp only
  repeat' first
    | with_reducible exact Keeps.refl _
    | with_reducible assumption
    | with_reducible exact Keeps.ofId _
    | with_reducible exact Keeps.ofNone
    | with_reducible refine Keeps.ofSome ?_
    | with_reducible refine Keeps.ofIte ?_ ?_
    | simp only [Keeps.upd_iff, Keeps.ite_iff, Keeps.ite_fst_iff, Keeps.ite_snd_iff]
    | with_reducible apply And.intro
    | intro _
    | with_reducible apply Keeps.after (State.extRead_keeps ..)
    | (with_reducible apply Keeps.fst; on_goal 1 => with_reducible assumption)
    | (with_reducible apply Keeps.snd; on_goal 1 => with_reducible assumption)
    | with_reducible apply Keeps.after ih1
    | with_reducible apply Keeps.after ih2
    | with_reducible apply Keeps.after ih3
    | with_reducible apply Keeps.after ih4
    | split
    | dsimp only
    | simp only []

theorem State.callWrite_keeps (s : State) (ini : Nat) (a : Nat) (x3 : Nat) (x4 : List Byte) : Keeps s (s.callWrite ini a x3 x4).1 := by
  unhygienic fun_induction State.callWrite s ini a x3 x4
  all_goals try dsimp only
  repeat' first
    | with_reducible exact Keeps.refl _
    | with_reducible assumption
    | with_reducible exact Keeps.ofId _
    | with_reducible exact Keeps.ofNone
    | with_reducible refine Keeps.ofSome ?_
    | with_reducible refine Keeps.ofIte ?_ ?_
    | simp only [Keeps.upd_iff, Keeps.ite_iff, Keeps.ite_fst_iff, Keeps.ite_snd_iff]
    | with_reducible apply And.intro
    | intro _
    | with_reducible apply Keeps.after (State.extWrite_keeps ..)
    | (with_reducible apply Keeps.fst; on_goal 1 => with_reducible assumption)
    | (with_reducible apply Keeps.snd; on_goal 1 => with_reducible assumption)
    | with_reducible apply Keeps.after ih1
    | with_reducible apply Keeps.after ih2
    | with_reducible apply Keeps.after ih3
    | with_reducible apply Keeps.after ih4
    | split
    | dsimp only
    | simp only []

end Sys2Proof.Machine
end

