-- ==== Sys2Proof/Laws/KeepsTileRun.lean ====
section
/-! SUPPORT. What the operations of Machine/TileRun.lean keep. -/
namespace Sys2Proof.Machine

theorem OpCtx.guard_keeps (x : OpCtx) (s : State) (shares : List (Nat × Nat)) : Keeps s (OpCtx.guard x s shares) := by
  unfold OpCtx.guard
  try dsimp only
  repeat' first
    | with_reducible exact Keeps.refl _
    | with_reducible assumption
    | with_reducible exact Keeps.ofId _
    | with_reducible exact Keeps.ofNone
    | with_reducible refine Keeps.ofSome ?_
    | with_reducible refine Keeps.ofIte ?_ ?_
    | simp only [Keeps.upd_iff, Keeps.ite_iff, Keeps.ite_fst_iff, Keeps.ite_snd_iff]
    | with_reducible apply And.intro
    | intro _
    | with_reducible apply Keeps.after (State.fresh_keeps ..)
    | with_reducible apply Keeps.after (State.scaleGuard_keeps ..)
    | (with_reducible apply Keeps.fst; on_goal 1 => with_reducible assumption)
    | (with_reducible apply Keeps.snd; on_goal 1 => with_reducible assumption)
    | split
    | dsimp only
    | simp only []

theorem OpCtx.totals_keeps (x : OpCtx) (s : State) (stats : List Stat) : Keeps s (OpCtx.totals x s stats) := by
  unfold OpCtx.totals
  try dsimp only
  repeat' first
    | with_reducible exact Keeps.refl _
    | with_reducible assumption
    | with_reducible exact Keeps.ofId _
    | with_reducible exact Keeps.ofNone
    | with_reducible refine Keeps.ofSome ?_
    | with_reducible refine Keeps.ofIte ?_ ?_
    | simp only [Keeps.upd_iff, Keeps.ite_iff, Keeps.ite_fst_iff, Keeps.ite_snd_iff]
    | with_reducible apply And.intro
    | intro _
    | with_reducible apply Keeps.after (State.freshNat_keeps ..)
    | with_reducible apply Keeps.after (State.numTotals_keeps ..)
    | (with_reducible apply Keeps.fst; on_goal 1 => with_reducible assumption)
    | (with_reducible apply Keeps.snd; on_goal 1 => with_reducible assumption)
    | with_reducible apply Keeps.foldl
    | with_reducible apply Keeps.foldl_fst
    | with_reducible apply Keeps.foldl_snd
    | split
    | dsimp only
    | simp only []

theorem OpCtx.finish_keeps (x : OpCtx) (g : Grid) (fault : Nat) (stats : List Stat) (area : Option TD) (writes : List (Nat × List Byte)) : Keeps g.s (OpCtx.finish x g fault stats area writes).s := by
  unfold OpCtx.finish
  try dsimp only
  repeat' first
    | with_reducible exact Keeps.refl _
    | with_reducible assumption
    | with_reducible exact Keeps.ofId _
    | with_reducible exact Keeps.ofNone
    | with_reducible refine Keeps.ofSome ?_
    | with_reducible refine Keeps.ofIte ?_ ?_
    | simp only [Keeps.upd_iff, Keeps.ite_iff, Keeps.ite_fst_iff, Keeps.ite_snd_iff]
    | with_reducible apply And.intro
    | intro _
    | with_reducible apply Keeps.after (OpCtx.totals_keeps ..)
    | with_reducible apply Keeps.after (OpCtx.guard_keeps ..)
    | with_reducible apply Keeps.after (State.skewRecord_keeps ..)
    | with_reducible apply Keeps.after (State.scaleGuard_keeps ..)
    | with_reducible apply Keeps.after (State.numTotals_keeps ..)
    | with_reducible apply Keeps.after (State.statWrite_keeps ..)
    | with_reducible apply Keeps.after (State.commit_keeps ..)
    | (with_reducible apply Keeps.fst; on_goal 1 => with_reducible assumption)
    | (with_reducible apply Keeps.snd; on_goal 1 => with_reducible assumption)
    | split
    | dsimp only
    | simp only []

theorem OpCtx.convert_keeps (x : OpCtx) (g : Grid) (tdr : TD) (fmt : Nat) (area : Option TD) (avg : Nat → Option Nat) (place : Nat → List Nat → Nat × List Byte) (ring : Option Nat) : Keeps g.s (OpCtx.convert x g tdr fmt area avg place ring).s := by
  unfold OpCtx.convert
  try dsimp only
  repeat' first
    | with_reducible exact Keeps.refl _
    | with_reducible assumption
    | with_reducible exact Keeps.ofId _
    | with_reducible exact Keeps.ofNone
    | with_reducible refine Keeps.ofSome ?_
    | with_reducible refine Keeps.ofIte ?_ ?_
    | simp only [Keeps.upd_iff, Keeps.ite_iff, Keeps.ite_fst_iff, Keeps.ite_snd_iff]
    | with_reducible apply And.intro
    | intro _
    | with_reducible apply Keeps.after (OpCtx.finish_keeps ..)
    | with_reducible apply Keeps.after (State.loadRescale_keeps ..)
    | (with_reducible apply Keeps.fst; on_goal 1 => with_reducible assumption)
    | (with_reducible apply Keeps.snd; on_goal 1 => with_reducible assumption)
    | split
    | dsimp only
    | simp only []

theorem Grid.plus_keeps (g : Grid) (l : List (Int × Bool)) : Keeps g.s (Grid.plus g l).s := by
  unfold Grid.plus
  try dsimp only
  repeat' first
    | with_reducible exact Keeps.refl _
    | with_reducible assumption
    | with_reducible exact Keeps.ofId _
    | with_reducible exact Keeps.ofNone
    | with_reducible refine Keeps.ofSome ?_
    | with_reducible refine Keeps.ofIte ?_ ?_
    | simp only [Keeps.upd_iff, Keeps.ite_iff, Keeps.ite_fst_iff, Keeps.ite_snd_iff]
    | with_reducible apply And.intro
    | intro _
    | (with_reducible apply Keeps.fst; on_goal 1 => with_reducible assumption)
    | (with_reducible apply Keeps.snd; on_goal 1 => with_reducible assumption)
    | split
    | dsimp only
    | simp only []

theorem OpCtx.leave_keeps (x : OpCtx) (g : Grid) (area : Option TD) : Keeps g.s (OpCtx.leave x g area).s := by
  unfold OpCtx.leave
  try dsimp only
  repeat' first
    | with_reducible exact Keeps.refl _
    | with_reducible assumption
    | with_reducible exact Keeps.ofId _
    | with_reducible exact Keeps.ofNone
    | with_reducible refine Keeps.ofSome ?_
    | with_reducible refine Keeps.ofIte ?_ ?_
    | simp only [Keeps.upd_iff, Keeps.ite_iff, Keeps.ite_fst_iff, Keeps.ite_snd_iff]
    | with_reducible apply And.intro
    | intro _
    | with_reducible apply Keeps.after (State.finish_keeps ..)
    | with_reducible apply Keeps.after (VecCtx.finish_keeps ..)
    | with_reducible apply Keeps.after (OpCtx.finish_keeps ..)
    | (with_reducible apply Keeps.fst; on_goal 1 => with_reducible assumption)
    | (with_reducible apply Keeps.snd; on_goal 1 => with_reducible assumption)
    | split
    | dsimp only
    | simp only []

theorem OpCtx.psum_keeps (x : OpCtx) (g : Grid) (area : Option TD) (o : TD) (byRows : Bool) : Keeps g.s (OpCtx.psum x g area o byRows).s := by
  unfold OpCtx.psum
  try dsimp only
  repeat' first
    | with_reducible exact Keeps.refl _
    | with_reducible assumption
    | with_reducible exact Keeps.ofId _
    | with_reducible exact Keeps.ofNone
    | with_reducible refine Keeps.ofSome ?_
    | with_reducible refine Keeps.ofIte ?_ ?_
    | simp only [Keeps.upd_iff, Keeps.ite_iff, Keeps.ite_fst_iff, Keeps.ite_snd_iff]
    | with_reducible apply And.intro
    | intro _
    | with_reducible apply Keeps.after (State.finish_keeps ..)
    | with_reducible apply Keeps.after (VecCtx.finish_keeps ..)
    | with_reducible apply Keeps.after (OpCtx.finish_keeps ..)
    | (with_reducible apply Keeps.fst; on_goal 1 => with_reducible assumption)
    | (with_reducible apply Keeps.snd; on_goal 1 => with_reducible assumption)
    | split
    | dsimp only
    | simp only []

theorem OpCtx.deliver_keeps (x : OpCtx) (tds : List TD) (w : Dword) (acc : List AccBank) (g : Grid) (place : Nat → List Nat → Nat × List Byte) (ring : Option Nat) : Keeps g.s (OpCtx.deliver x tds w acc g place ring).s := by
  unfold OpCtx.deliver
  try dsimp only
  repeat' first
    | with_reducible exact Keeps.refl _
    | with_reducible assumption
    | with_reducible exact Keeps.ofId _
    | with_reducible exact Keeps.ofNone
    | with_reducible refine Keeps.ofSome ?_
    | with_reducible refine Keeps.ofIte ?_ ?_
    | simp only [Keeps.upd_iff, Keeps.ite_iff, Keeps.ite_fst_iff, Keeps.ite_snd_iff]
    | with_reducible apply And.intro
    | intro _
    | with_reducible apply Keeps.after (OpCtx.psum_keeps ..)
    | with_reducible apply Keeps.after (OpCtx.leave_keeps ..)
    | with_reducible apply Keeps.after (Grid.plus_keeps ..)
    | with_reducible apply Keeps.after (OpCtx.convert_keeps ..)
    | (with_reducible apply Keeps.fst; on_goal 1 => with_reducible assumption)
    | (with_reducible apply Keeps.snd; on_goal 1 => with_reducible assumption)
    | split
    | dsimp only
    | simp only []

theorem OpCtx.matmul_keeps (x : OpCtx) (s : State) (tds : List TD) (w : Dword) (acc : List AccBank) : Keeps s (OpCtx.matmul x s tds w acc).s := by
  unfold OpCtx.matmul
  try dsimp only
  repeat' first
    | with_reducible exact Keeps.refl _
    | with_reducible assumption
    | with_reducible exact Keeps.ofId _
    | with_reducible exact Keeps.ofNone
    | with_reducible refine Keeps.ofSome ?_
    | with_reducible refine Keeps.ofIte ?_ ?_
    | simp only [Keeps.upd_iff, Keeps.ite_iff, Keeps.ite_fst_iff, Keeps.ite_snd_iff]
    | with_reducible apply And.intro
    | intro _
    | with_reducible apply Keeps.after (OpCtx.deliver_keeps ..)
    | with_reducible apply Keeps.after (State.matmulGrid_keeps ..)
    | (with_reducible apply Keeps.fst; on_goal 1 => with_reducible assumption)
    | (with_reducible apply Keeps.snd; on_goal 1 => with_reducible assumption)
    | split
    | dsimp only
    | simp only []

theorem OpCtx.conv_keeps (x : OpCtx) (s : State) (tds : List TD) (cps : List Nat) (rm : List Nat) (bias : Nat) (w : Dword) (acc : List AccBank) : Keeps s (OpCtx.conv x s tds cps rm bias w acc).s := by
  unfold OpCtx.conv
  try dsimp only
  repeat' first
    | with_reducible exact Keeps.refl _
    | with_reducible assumption
    | with_reducible exact Keeps.ofId _
    | with_reducible exact Keeps.ofNone
    | with_reducible refine Keeps.ofSome ?_
    | with_reducible refine Keeps.ofIte ?_ ?_
    | simp only [Keeps.upd_iff, Keeps.ite_iff, Keeps.ite_fst_iff, Keeps.ite_snd_iff]
    | with_reducible apply And.intro
    | intro _
    | with_reducible apply Keeps.after (OpCtx.deliver_keeps ..)
    | with_reducible apply Keeps.after (State.winoGrid_keeps ..)
    | with_reducible apply Keeps.after (State.convGrid_keeps ..)
    | (with_reducible apply Keeps.fst; on_goal 1 => with_reducible assumption)
    | (with_reducible apply Keeps.snd; on_goal 1 => with_reducible assumption)
    | split
    | dsimp only
    | simp only []

theorem OpCtx.psadd_keeps (x : OpCtx) (s : State) (tds : List TD) (w : Dword) (acc : List AccBank) : Keeps s (OpCtx.psadd x s tds w acc).s := by
  unfold OpCtx.psadd
  try dsimp only
  repeat' first
    | with_reducible exact Keeps.refl _
    | with_reducible assumption
    | with_reducible exact Keeps.ofId _
    | with_reducible exact Keeps.ofNone
    | with_reducible refine Keeps.ofSome ?_
    | with_reducible refine Keeps.ofIte ?_ ?_
    | simp only [Keeps.upd_iff, Keeps.ite_iff, Keeps.ite_fst_iff, Keeps.ite_snd_iff]
    | with_reducible apply And.intro
    | intro _
    | with_reducible apply Keeps.after (OpCtx.convert_keeps ..)
    | with_reducible apply Keeps.after (State.loadAll_keeps ..)
    | (with_reducible apply Keeps.fst; on_goal 1 => with_reducible assumption)
    | (with_reducible apply Keeps.snd; on_goal 1 => with_reducible assumption)
    | with_reducible apply Keeps.foldl
    | with_reducible apply Keeps.foldl_fst
    | with_reducible apply Keeps.foldl_snd
    | split
    | dsimp only
    | simp only []

theorem OpCtx.dwconv_keeps (x : OpCtx) (s : State) (tds : List TD) (cps : List Nat) (rm : List Nat) (bias : Nat) (w : Dword) (tile : Nat) : Keeps s (OpCtx.dwconv x s tds cps rm bias w tile).s := by
  unfold OpCtx.dwconv
  try dsimp only
  repeat' first
    | with_reducible exact Keeps.refl _
    | with_reducible assumption
    | with_reducible exact Keeps.ofId _
    | with_reducible exact Keeps.ofNone
    | with_reducible refine Keeps.ofSome ?_
    | with_reducible refine Keeps.ofIte ?_ ?_
    | simp only [Keeps.upd_iff, Keeps.ite_iff, Keeps.ite_fst_iff, Keeps.ite_snd_iff]
    | with_reducible apply And.intro
    | intro _
    | with_reducible apply Keeps.after (OpCtx.convert_keeps ..)
    | with_reducible apply Keeps.after (State.convGrid_keeps ..)
    | (with_reducible apply Keeps.fst; on_goal 1 => with_reducible assumption)
    | (with_reducible apply Keeps.snd; on_goal 1 => with_reducible assumption)
    | split
    | dsimp only
    | simp only []

theorem State.feedMap_keeps (s : State) (e : Nat) (c : Conv) : Keeps s (s.feedMap e c).s := by
  unfold State.feedMap
  try dsimp only
  repeat' first
    | with_reducible exact Keeps.refl _
    | with_reducible assumption
    | with_reducible exact Keeps.ofId _
    | with_reducible exact Keeps.ofNone
    | with_reducible refine Keeps.ofSome ?_
    | with_reducible refine Keeps.ofIte ?_ ?_
    | simp only [Keeps.upd_iff, Keeps.ite_iff, Keeps.ite_fst_iff, Keeps.ite_snd_iff]
    | with_reducible apply And.intro
    | intro _
    | (with_reducible apply Keeps.fst; on_goal 1 => with_reducible assumption)
    | (with_reducible apply Keeps.snd; on_goal 1 => with_reducible assumption)
    | split
    | dsimp only
    | simp only []

theorem OpCtx.tconv_keeps (x : OpCtx) (s : State) (tds : List TD) (cps : List Nat) (rm : List Nat) (bias : Nat) (w : Dword) : Keeps s (OpCtx.tconv x s tds cps rm bias w).s := by
  unfold OpCtx.tconv
  try dsimp only
  repeat' first
    | with_reducible exact Keeps.refl _
    | with_reducible assumption
    | with_reducible exact Keeps.ofId _
    | with_reducible exact Keeps.ofNone
    | with_reducible refine Keeps.ofSome ?_
    | with_reducible refine Keeps.ofIte ?_ ?_
    | simp only [Keeps.upd_iff, Keeps.ite_iff, Keeps.ite_fst_iff, Keeps.ite_snd_iff]
    | with_reducible apply And.intro
    | intro _
    | with_reducible apply Keeps.after (State.feedMap_keeps ..)
    | with_reducible apply Keeps.after (OpCtx.convert_keeps ..)
    | with_reducible apply Keeps.after (State.convGrid_keeps ..)
    | with_reducible apply Keeps.after (Map.convOn_keeps ..)
    | (with_reducible apply Keeps.fst; on_goal 1 => with_reducible assumption)
    | (with_reducible apply Keeps.snd; on_goal 1 => with_reducible assumption)
    | split
    | dsimp only
    | simp only []

theorem Map.poolGrid_keeps (m : Map) (d : TD) (c : Conv) (glob : Bool) (win : Int) (pos : List (Nat × Nat)) : Keeps m.s (Map.poolGrid m d c glob win pos).s := by
  unfold Map.poolGrid
  try dsimp only
  repeat' first
    | with_reducible exact Keeps.refl _
    | with_reducible assumption
    | with_reducible exact Keeps.ofId _
    | with_reducible exact Keeps.ofNone
    | with_reducible refine Keeps.ofSome ?_
    | with_reducible refine Keeps.ofIte ?_ ?_
    | simp only [Keeps.upd_iff, Keeps.ite_iff, Keeps.ite_fst_iff, Keeps.ite_snd_iff]
    | with_reducible apply And.intro
    | intro _
    | (with_reducible apply Keeps.fst; on_goal 1 => with_reducible assumption)
    | (with_reducible apply Keeps.snd; on_goal 1 => with_reducible assumption)
    | with_reducible apply Keeps.foldl
    | with_reducible apply Keeps.foldl_fst
    | with_reducible apply Keeps.foldl_snd
    | split
    | dsimp only
    | simp only []

theorem OpCtx.pool_keeps (x : OpCtx) (s : State) (tds : List TD) (cps : List Nat) (w : Dword) : Keeps s (OpCtx.pool x s tds cps w).s := by
  unfold OpCtx.pool
  try dsimp only
  repeat' first
    | with_reducible exact Keeps.refl _
    | with_reducible assumption
    | with_reducible exact Keeps.ofId _
    | with_reducible exact Keeps.ofNone
    | with_reducible refine Keeps.ofSome ?_
    | with_reducible refine Keeps.ofIte ?_ ?_
    | simp only [Keeps.upd_iff, Keeps.ite_iff, Keeps.ite_fst_iff, Keeps.ite_snd_iff]
    | with_reducible apply And.intro
    | intro _
    | with_reducible apply Keeps.after (State.finish_keeps ..)
    | with_reducible apply Keeps.after (VecCtx.finish_keeps ..)
    | with_reducible apply Keeps.after (Map.poolGrid_keeps ..)
    | with_reducible apply Keeps.after (OpCtx.convert_keeps ..)
    | with_reducible apply Keeps.after (OpCtx.finish_keeps ..)
    | with_reducible apply Keeps.after (State.loadMap_keeps ..)
    | (with_reducible apply Keeps.fst; on_goal 1 => with_reducible assumption)
    | (with_reducible apply Keeps.snd; on_goal 1 => with_reducible assumption)
    | split
    | dsimp only
    | simp only []

end Sys2Proof.Machine
end

