-- ==== Sys2Proof/Laws/KeepsAxSend.lean ====
section
/-! SUPPORT. What the operations of Machine/AxSend.lean keep. -/
namespace Sys2Proof.Machine

theorem State.takeTag_keeps (s : State) (stream : Nat) : Keeps s (s.takeTag stream).2 := by
  unfold State.takeTag
  try dsimp only
  repeat' first
    | with_reducible exact Keeps.refl _
    | with_reducible assumption
    | with_reducible exact Keeps.ofId _
    | with_reducible exact Keeps.ofNone
    | with_reducible refine Keeps.ofSome ?_
    | with_reducible refine Keeps.ofIte ?_ ?_
    | simp only [Keeps.upd_iff, Keeps.ite_iff, Keeps.ite_fst_iff, Keeps.ite_snd_iff]
    | with_reducible apply And.intro
    | intro _
    | (with_reducible apply Keeps.fst; on_goal 1 => with_reducible assumption)
    | (with_reducible apply Keeps.snd; on_goal 1 => with_reducible assumption)
    | split
    | dsimp only
    | simp only []

theorem State.transact_keeps (s : State) (kind : Nat) (pos : Nat) (stream : Nat) (ctx : Option Ctx) (unit : Nat) (idx : Nat) (fields : List Nat) (data : List Byte) : Keeps s (s.transact kind pos stream ctx unit idx fields data) := by
  unfold State.transact
  try dsimp only
  repeat' first
    | with_reducible exact Keeps.refl _
    | with_reducible assumption
    | with_reducible exact Keeps.ofId _
    | with_reducible exact Keeps.ofNone
    | with_reducible refine Keeps.ofSome ?_
    | with_reducible refine Keeps.ofIte ?_ ?_
    | simp only [Keeps.upd_iff, Keeps.ite_iff, Keeps.ite_fst_iff, Keeps.ite_snd_iff]
    | with_reducible apply And.intro
    | intro _
    | with_reducible apply Keeps.after (State.takeTag_keeps ..)
    | with_reducible apply Keeps.after (State.sendSlot_keeps ..)
    | (with_reducible apply Keeps.fst; on_goal 1 => with_reducible assumption)
    | (with_reducible apply Keeps.snd; on_goal 1 => with_reducible assumption)
    | split
    | dsimp only
    | simp only []

theorem State.requestCredits_keeps (s : State) (x : Ctx) (unit : Nat) (x3 : Nat) : Keeps s (s.requestCredits x unit x3) := by
  induction x3 generalizing s with
  | zero => exact Keeps.refl _
  | succ n ih =>
    unfold State.requestCredits
    dsimp only
    split
    · exact Keeps.refl _
    · rename_i c _
      refine Keeps.trans ?_ (ih _)
      refine Keeps.trans ?_ (State.sendSlot_keeps ..)
      exact (State.takeTag_keeps s (ctxIni x)).trans (Keeps.of_eq rfl rfl rfl rfl rfl rfl rfl rfl rfl rfl rfl rfl rfl)

theorem State.granted_keeps (s : State) (pos : Nat) (stream : Nat) (tag : Nat) (addr : Nat) (kib : Nat) : Keeps s (s.granted pos stream tag addr kib) := by
  unfold State.granted
  try dsimp only
  repeat' first
    | with_reducible exact Keeps.refl _
    | with_reducible assumption
    | with_reducible exact Keeps.ofId _
    | with_reducible exact Keeps.ofNone
    | with_reducible refine Keeps.ofSome ?_
    | with_reducible refine Keeps.ofIte ?_ ?_
    | simp only [Keeps.upd_iff, Keeps.ite_iff, Keeps.ite_fst_iff, Keeps.ite_snd_iff]
    | with_reducible apply And.intro
    | intro _
    | with_reducible apply Keeps.after (State.transact_keeps ..)
    | with_reducible apply Keeps.after (State.grantSync_keeps ..)
    | (with_reducible apply Keeps.fst; on_goal 1 => with_reducible assumption)
    | (with_reducible apply Keeps.snd; on_goal 1 => with_reducible assumption)
    | split
    | dsimp only
    | simp only []

theorem State.spend_keeps (s : State) (x : Ctx) (unit : Nat) (idx : Nat) (mem : Nat) (k : Nat) (res : State) : s.spend x unit idx mem k = some res → Keeps s res := by
  unfold State.spend
  try dsimp only
  repeat' first
    | with_reducible exact Keeps.refl _
    | with_reducible assumption
    | with_reducible exact Keeps.ofId _
    | with_reducible exact Keeps.ofNone
    | with_reducible refine Keeps.ofSome ?_
    | with_reducible refine Keeps.ofIte ?_ ?_
    | simp only [Keeps.upd_iff, Keeps.ite_iff, Keeps.ite_fst_iff, Keeps.ite_snd_iff]
    | with_reducible apply And.intro
    | split
    | intro _
    | with_reducible apply Keeps.after (State.requestCredits_keeps ..)
    | with_reducible apply Keeps.after (State.grantSync_keeps ..)
    | (with_reducible apply Keeps.fst; on_goal 1 => with_reducible assumption)
    | (with_reducible apply Keeps.snd; on_goal 1 => with_reducible assumption)
    | dsimp only
    | simp only []

theorem State.returnUnused_keeps (s : State) (x : Ctx) : Keeps s (s.returnUnused x) := by
  unfold State.returnUnused
  try dsimp only
  repeat' first
    | with_reducible exact Keeps.refl _
    | with_reducible assumption
    | with_reducible exact Keeps.ofId _
    | with_reducible exact Keeps.ofNone
    | with_reducible refine Keeps.ofSome ?_
    | with_reducible refine Keeps.ofIte ?_ ?_
    | simp only [Keeps.upd_iff, Keeps.ite_iff, Keeps.ite_fst_iff, Keeps.ite_snd_iff]
    | with_reducible apply And.intro
    | intro _
    | with_reducible apply Keeps.after (State.transact_keeps ..)
    | with_reducible apply Keeps.after (State.grantSync_keeps ..)
    | (with_reducible apply Keeps.fst; on_goal 1 => with_reducible assumption)
    | (with_reducible apply Keeps.snd; on_goal 1 => with_reducible assumption)
    | with_reducible apply Keeps.foldl
    | with_reducible apply Keeps.foldl_fst
    | with_reducible apply Keeps.foldl_snd
    | split
    | dsimp only
    | simp only []

end Sys2Proof.Machine
end

