-- ==== Sys2Proof/Laws/KeepsPec.lean ====
section
/-! SUPPORT. What the operations of Machine/Pec.lean keep. -/
namespace Sys2Proof.Machine

theorem State.unitSync_keeps (s : State) (x : Ctx) : Keeps s (s.unitSync x) := by
  unfold State.unitSync
  try dsimp only
  repeat' first
    | with_reducible exact Keeps.refl _
    | with_reducible assumption
    | with_reducible exact Keeps.ofId _
    | with_reducible exact Keeps.ofNone
    | with_reducible refine Keeps.ofSome ?_
    | with_reducible refine Keeps.ofIte ?_ ?_
    | simp only [Keeps.upd_iff, Keeps.ite_iff, Keeps.ite_fst_iff, Keeps.ite_snd_iff]
    | with_reducible apply And.intro
    | intro _
    | with_reducible apply Keeps.after (State.wr_keeps ..)
    | with_reducible apply Keeps.after (State.setFlag_keeps ..)
    | (with_reducible apply Keeps.fst; on_goal 1 => with_reducible assumption)
    | (with_reducible apply Keeps.snd; on_goal 1 => with_reducible assumption)
    | with_reducible apply Keeps.foldl
    | with_reducible apply Keeps.foldl_fst
    | with_reducible apply Keeps.foldl_snd
    | split
    | dsimp only
    | simp only []

theorem State.endRun_keeps (s : State) (x : Ctx) (code : Nat) (idx : Nat) : Keeps s (s.endRun x code idx) := by
  unfold State.endRun
  try dsimp only
  repeat' first
    | with_reducible exact Keeps.refl _
    | with_reducible assumption
    | with_reducible exact Keeps.ofId _
    | with_reducible exact Keeps.ofNone
    | with_reducible refine Keeps.ofSome ?_
    | with_reducible refine Keeps.ofIte ?_ ?_
    | simp only [Keeps.upd_iff, Keeps.ite_iff, Keeps.ite_fst_iff, Keeps.ite_snd_iff]
    | with_reducible apply And.intro
    | intro _
    | with_reducible apply Keeps.after (State.dcSync_keeps ..)
    | with_reducible apply Keeps.after (State.dropLocks_keeps ..)
    | with_reducible apply Keeps.after (State.updRun_keeps ..)
    | (with_reducible apply Keeps.fst; on_goal 1 => with_reducible assumption)
    | (with_reducible apply Keeps.snd; on_goal 1 => with_reducible assumption)
    | split
    | dsimp only
    | simp only []

theorem State.unitFault_keeps (s : State) (x : Ctx) (i : Issued) (code : Nat) : Keeps s (s.unitFault x i code) := by
  unfold State.unitFault
  try dsimp only
  repeat' first
    | with_reducible exact Keeps.refl _
    | with_reducible assumption
    | with_reducible exact Keeps.ofId _
    | with_reducible exact Keeps.ofNone
    | with_reducible refine Keeps.ofSome ?_
    | with_reducible refine Keeps.ofIte ?_ ?_
    | simp only [Keeps.upd_iff, Keeps.ite_iff, Keeps.ite_fst_iff, Keeps.ite_snd_iff]
    | with_reducible apply And.intro
    | intro _
    | with_reducible apply Keeps.after (State.recordFault_keeps ..)
    | with_reducible apply Keeps.after (State.failRun_keeps ..)
    | with_reducible apply Keeps.after (State.dcSync_keeps ..)
    | with_reducible apply Keeps.after (State.unitSync_keeps ..)
    | with_reducible apply Keeps.after (State.endRun_keeps ..)
    | with_reducible apply Keeps.after (State.feedClear_keeps ..)
    | with_reducible apply Keeps.after (State.updRun_keeps ..)
    | (with_reducible apply Keeps.fst; on_goal 1 => with_reducible assumption)
    | (with_reducible apply Keeps.snd; on_goal 1 => with_reducible assumption)
    | split
    | dsimp only
    | simp only []

theorem State.runOne_keeps (s : State) (r : CtxRun) (i : Issued) (m : Nat × Nat) : Keeps s (State.runOne s r i m).s := by
  unfold State.runOne
  try dsimp only
  repeat' first
    | with_reducible exact Keeps.refl _
    | with_reducible assumption
    | with_reducible apply Keeps.cutRegs
    | with_reducible exact Keeps.ofId _
    | with_reducible exact Keeps.ofNone
    | with_reducible refine Keeps.ofSome ?_
    | with_reducible refine Keeps.ofIte ?_ ?_
    | simp only [Keeps.upd_iff, Keeps.ite_iff, Keeps.ite_fst_iff, Keeps.ite_snd_iff]
    | with_reducible apply And.intro
    | intro _
    | with_reducible apply Keeps.after (VecCtx.mergeWrite_keeps ..)
    | with_reducible apply Keeps.after (VecCtx.final_keeps ..)
    | with_reducible apply Keeps.after (VecCtx.blkmerge_keeps ..)
    | with_reducible apply Keeps.after (VecCtx.xreduce_keeps ..)
    | with_reducible apply Keeps.after (VecCtx.blksoftmax_keeps ..)
    | with_reducible apply Keeps.after (VecCtx.adam_keeps ..)
    | with_reducible apply Keeps.after (VecCtx.sgd_keeps ..)
    | with_reducible apply Keeps.after (VecCtx.mxquant_keeps ..)
    | with_reducible apply Keeps.after (VecCtx.softmax_keeps ..)
    | with_reducible apply Keeps.after (VecCtx.norm_keeps ..)
    | with_reducible apply Keeps.after (VecCtx.reduce_keeps ..)
    | with_reducible apply Keeps.after (VecCtx.elem_keeps ..)
    | with_reducible apply Keeps.after (OpCtx.pool_keeps ..)
    | with_reducible apply Keeps.after (OpCtx.tconv_keeps ..)
    | with_reducible apply Keeps.after (OpCtx.dwconv_keeps ..)
    | with_reducible apply Keeps.after (OpCtx.psadd_keeps ..)
    | with_reducible apply Keeps.after (OpCtx.conv_keeps ..)
    | with_reducible apply Keeps.after (OpCtx.matmul_keeps ..)
    | (with_reducible apply Keeps.fst; on_goal 1 => with_reducible assumption)
    | (with_reducible apply Keeps.snd; on_goal 1 => with_reducible assumption)
    | split
    | dsimp only
    | simp only []

theorem State.runAll_keeps (s : State) (r : CtxRun) (i : Issued) (x4 : List (Nat × Nat)) : Keeps s (s.runAll r i x4).s := by
  unhygienic fun_induction State.runAll s r i x4
  all_goals try dsimp only
  repeat' first
    | with_reducible exact Keeps.refl _
    | with_reducible assumption
    | with_reducible exact Keeps.ofId _
    | with_reducible exact Keeps.ofNone
    | with_reducible refine Keeps.ofSome ?_
    | with_reducible refine Keeps.ofIte ?_ ?_
    | simp only [Keeps.upd_iff, Keeps.ite_iff, Keeps.ite_fst_iff, Keeps.ite_snd_iff]
    | with_reducible apply And.intro
    | intro _
    | with_reducible apply Keeps.after (State.runOne_keeps ..)
    | with_reducible apply Keeps.after (State.updRun_keeps ..)
    | (with_reducible apply Keeps.fst; on_goal 1 => with_reducible assumption)
    | (with_reducible apply Keeps.snd; on_goal 1 => with_reducible assumption)
    | with_reducible apply Keeps.after ih1
    | with_reducible apply Keeps.after ih2
    | with_reducible apply Keeps.after ih3
    | with_reducible apply Keeps.after ih4
    | split
    | dsimp only
    | simp only []

theorem State.ringStep_keeps (s : State) (x : Ctx) (i : Issued) (n : Nat) (x4 : List (List (Nat × List Byte))) (x5 : Bool) : Keeps s (s.ringStep x i n x4 x5).1 := by
  unhygienic fun_induction State.ringStep s x i n x4 x5
  all_goals try dsimp only
  repeat' first
    | with_reducible exact Keeps.refl _
    | with_reducible assumption
    | with_reducible exact Keeps.ofId _
    | with_reducible exact Keeps.ofNone
    | with_reducible refine Keeps.ofSome ?_
    | with_reducible refine Keeps.ofIte ?_ ?_
    | simp only [Keeps.upd_iff, Keeps.ite_iff, Keeps.ite_fst_iff, Keeps.ite_snd_iff]
    | with_reducible apply And.intro
    | intro _
    | with_reducible apply Keeps.after (State.doWrites_keeps ..)
    | with_reducible apply Keeps.after (State.addMark_keeps ..)
    | with_reducible apply Keeps.after (State.updRun_keeps ..)
    | (with_reducible apply Keeps.fst; on_goal 1 => with_reducible assumption)
    | (with_reducible apply Keeps.snd; on_goal 1 => with_reducible assumption)
    | with_reducible apply Keeps.after ih1
    | with_reducible apply Keeps.after ih2
    | with_reducible apply Keeps.after ih3
    | with_reducible apply Keeps.after ih4
    | with_reducible apply Keeps.foldl
    | with_reducible apply Keeps.foldl_fst
    | with_reducible apply Keeps.foldl_snd
    | split
    | dsimp only
    | simp only []

theorem State.opTry_keeps (s : State) (x : Ctx) (r : CtxRun) (i : Issued) (t : State) (h : (s.opTry x r i) = some t) : Keeps s t := by
  revert h
  unfold State.opTry
  try dsimp only
  repeat' first
    | with_reducible exact Keeps.refl _
    | with_reducible assumption
    | with_reducible exact Keeps.ofId _
    | with_reducible exact Keeps.ofNone
    | with_reducible refine Keeps.ofSome ?_
    | with_reducible refine Keeps.ofIte ?_ ?_
    | simp only [Keeps.upd_iff, Keeps.ite_iff, Keeps.ite_fst_iff, Keeps.ite_snd_iff]
    | with_reducible apply And.intro
    | intro _
    | with_reducible apply Keeps.after (State.updRun_keeps ..)
    | with_reducible apply Keeps.after (State.disturb_keeps ..)
    | with_reducible apply Keeps.after (State.runAll_keeps ..)
    | with_reducible apply Keeps.after (State.unitFault_keeps ..)
    | with_reducible apply Keeps.after (State.ringStep_keeps ..)
    | with_reducible apply Keeps.after (State.setIssued_keeps ..)
    | with_reducible apply Keeps.after (State.unitSync_keeps ..)
    | (with_reducible apply Keeps.fst; on_goal 1 => with_reducible assumption)
    | (with_reducible apply Keeps.snd; on_goal 1 => with_reducible assumption)
    | split
    | dsimp only
    | simp only []

theorem State.opRun_keeps (s : State) (x : Ctx) (r : CtxRun) (i : Issued) : Keeps s (s.opRun x r i) := by
  unfold State.opRun
  try dsimp only
  repeat' first
    | with_reducible exact Keeps.refl _
    | with_reducible assumption
    | with_reducible exact Keeps.ofId _
    | with_reducible exact Keeps.ofNone
    | with_reducible refine Keeps.ofSome ?_
    | with_reducible refine Keeps.ofIte ?_ ?_
    | simp only [Keeps.upd_iff, Keeps.ite_iff, Keeps.ite_fst_iff, Keeps.ite_snd_iff]
    | with_reducible apply And.intro
    | intro _
    | with_reducible refine Keeps.optAfter (State.opTry_keeps _ _ _ _) (by assumption) ?_
    | with_reducible refine Keeps.getD (State.opTry_keeps _ _ _ _) ?_ ?_
    | (with_reducible apply Keeps.fst; on_goal 1 => with_reducible assumption)
    | (with_reducible apply Keeps.snd; on_goal 1 => with_reducible assumption)
    | split
    | dsimp only
    | simp only []

theorem State.feedRun_keeps (s : State) (x : Ctx) (r : CtxRun) (i : Issued) : Keeps s (s.feedRun x r i) := by
  unfold State.feedRun
  try dsimp only
  repeat' first
    | with_reducible exact Keeps.refl _
    | with_reducible assumption
    | with_reducible exact Keeps.ofId _
    | with_reducible exact Keeps.ofNone
    | with_reducible refine Keeps.ofSome ?_
    | with_reducible refine Keeps.ofIte ?_ ?_
    | simp only [Keeps.upd_iff, Keeps.ite_iff, Keeps.ite_fst_iff, Keeps.ite_snd_iff]
    | with_reducible apply And.intro
    | intro _
    | with_reducible refine Keeps.optAfter (State.opTry_keeps _ _ _ _) (by assumption) ?_
    | with_reducible refine Keeps.getD (State.opTry_keeps _ _ _ _) ?_ ?_
    | with_reducible apply Keeps.after (State.feedClear_keeps ..)
    | with_reducible apply Keeps.after (State.unitSync_keeps ..)
    | (with_reducible apply Keeps.fst; on_goal 1 => with_reducible assumption)
    | (with_reducible apply Keeps.snd; on_goal 1 => with_reducible assumption)
    | split
    | dsimp only
    | simp only []

theorem State.takeOn_keeps (s : State) (r : CtxRun) (i : Issued) (k : Nat) (x4 : List (Nat × Nat)) : Keeps s (s.takeOn r i k x4).1 := by
  unhygienic fun_induction State.takeOn s r i k x4
  all_goals try dsimp only
  repeat' first
    | with_reducible exact Keeps.refl _
    | with_reducible assumption
    | with_reducible exact Keeps.ofId _
    | with_reducible exact Keeps.ofNone
    | with_reducible refine Keeps.ofSome ?_
    | with_reducible refine Keeps.ofIte ?_ ?_
    | simp only [Keeps.upd_iff, Keeps.ite_iff, Keeps.ite_fst_iff, Keeps.ite_snd_iff]
    | with_reducible apply And.intro
    | intro _
    | with_reducible apply Keeps.after (VecCtx.takeSource_keeps ..)
    | with_reducible apply Keeps.after (State.count_keeps ..)
    | (with_reducible apply Keeps.fst; on_goal 1 => with_reducible assumption)
    | (with_reducible apply Keeps.snd; on_goal 1 => with_reducible assumption)
    | with_reducible apply Keeps.after ih1
    | with_reducible apply Keeps.after ih2
    | with_reducible apply Keeps.after ih3
    | with_reducible apply Keeps.after ih4
    | split
    | dsimp only
    | simp only []

theorem State.takeSources_keeps (s : State) (x : Ctx) (unit : Nat) (x3 : Nat) : Keeps s (s.takeSources x unit x3) := by
  unhygienic fun_induction State.takeSources s x unit x3
  all_goals try dsimp only
  repeat' first
    | with_reducible exact Keeps.refl _
    | with_reducible assumption
    | with_reducible exact Keeps.ofId _
    | with_reducible exact Keeps.ofNone
    | with_reducible refine Keeps.ofSome ?_
    | with_reducible refine Keeps.ofIte ?_ ?_
    | simp only [Keeps.upd_iff, Keeps.ite_iff, Keeps.ite_fst_iff, Keeps.ite_snd_iff]
    | with_reducible apply And.intro
    | intro _
    | with_reducible apply Keeps.after (State.takeOn_keeps ..)
    | with_reducible apply Keeps.after (State.opRun_keeps ..)
    | with_reducible apply Keeps.after (State.unitSync_keeps ..)
    | with_reducible apply Keeps.after (State.updRun_keeps ..)
    | with_reducible apply Keeps.after (State.unitFault_keeps ..)
    | with_reducible apply Keeps.after (State.setIssued_keeps ..)
    | (with_reducible apply Keeps.fst; on_goal 1 => with_reducible assumption)
    | (with_reducible apply Keeps.snd; on_goal 1 => with_reducible assumption)
    | with_reducible apply Keeps.after ih1
    | with_reducible apply Keeps.after ih2
    | with_reducible apply Keeps.after ih3
    | with_reducible apply Keeps.after ih4
    | split
    | dsimp only
    | simp only []

theorem State.beginOne_keeps (s : State) (x : Ctx) (r : CtxRun) (i : Issued) : Keeps s (s.beginOne x r i) := by
  unfold State.beginOne
  try dsimp only
  repeat' first
    | with_reducible exact Keeps.refl _
    | with_reducible assumption
    | with_reducible exact Keeps.ofId _
    | with_reducible exact Keeps.ofNone
    | with_reducible refine Keeps.ofSome ?_
    | with_reducible refine Keeps.ofIte ?_ ?_
    | simp only [Keeps.upd_iff, Keeps.ite_iff, Keeps.ite_fst_iff, Keeps.ite_snd_iff]
    | with_reducible apply And.intro
    | intro _
    | with_reducible apply Keeps.after (State.moveBegin_keeps ..)
    | with_reducible apply Keeps.after (State.unitFault_keeps ..)
    | with_reducible apply Keeps.after (State.setIssued_keeps ..)
    | with_reducible apply Keeps.after (State.takeSources_keeps ..)
    | with_reducible apply Keeps.after (State.unitSync_keeps ..)
    | with_reducible apply Keeps.after (State.opRun_keeps ..)
    | (with_reducible apply Keeps.fst; on_goal 1 => with_reducible assumption)
    | (with_reducible apply Keeps.snd; on_goal 1 => with_reducible assumption)
    | split
    | dsimp only
    | simp only []

theorem State.beginUnits_keeps (s : State) (x : Ctx) (x2 : List Nat) : Keeps s (s.beginUnits x x2) := by
  unhygienic fun_induction State.beginUnits s x x2
  all_goals try dsimp only
  repeat' first
    | with_reducible exact Keeps.refl _
    | with_reducible assumption
    | with_reducible exact Keeps.ofId _
    | with_reducible exact Keeps.ofNone
    | with_reducible refine Keeps.ofSome ?_
    | with_reducible refine Keeps.ofIte ?_ ?_
    | simp only [Keeps.upd_iff, Keeps.ite_iff, Keeps.ite_fst_iff, Keeps.ite_snd_iff]
    | with_reducible apply And.intro
    | intro _
    | with_reducible apply Keeps.after (State.beginOne_keeps ..)
    | (with_reducible apply Keeps.fst; on_goal 1 => with_reducible assumption)
    | (with_reducible apply Keeps.snd; on_goal 1 => with_reducible assumption)
    | with_reducible apply Keeps.after ih1
    | with_reducible apply Keeps.after ih2
    | with_reducible apply Keeps.after ih3
    | with_reducible apply Keeps.after ih4
    | split
    | dsimp only
    | simp only []

theorem State.issueWord_keeps (s : State) (r : CtxRun) (w : Dword) (idx : Nat) : Keeps s (s.issueWord r w idx) := by
  unfold State.issueWord
  try dsimp only
  repeat' first
    | with_reducible exact Keeps.refl _
    | with_reducible assumption
    | with_reducible exact Keeps.ofId _
    | with_reducible exact Keeps.ofNone
    | with_reducible refine Keeps.ofSome ?_
    | with_reducible refine Keeps.ofIte ?_ ?_
    | simp only [Keeps.upd_iff, Keeps.ite_iff, Keeps.ite_fst_iff, Keeps.ite_snd_iff]
    | with_reducible apply And.intro
    | intro _
    | with_reducible apply Keeps.after (State.updRun_keeps ..)
    | with_reducible apply Keeps.after (State.count_keeps ..)
    | with_reducible apply Keeps.after (State.moveIssue_keeps ..)
    | with_reducible apply Keeps.after (State.dcSync_keeps ..)
    | with_reducible apply Keeps.after (State.beginUnits_keeps ..)
    | (with_reducible apply Keeps.fst; on_goal 1 => with_reducible assumption)
    | (with_reducible apply Keeps.snd; on_goal 1 => with_reducible assumption)
    | with_reducible apply Keeps.foldl
    | with_reducible apply Keeps.foldl_fst
    | with_reducible apply Keeps.foldl_snd
    | split
    | dsimp only
    | simp only []

theorem State.remitAll_keeps (s : State) (r : CtxRun) (w : Dword) (x3 : List (Nat × Nat)) : Keeps s (s.remitAll r w x3).1 := by
  unhygienic fun_induction State.remitAll s r w x3
  all_goals try dsimp only
  repeat' first
    | with_reducible exact Keeps.refl _
    | with_reducible assumption
    | with_reducible exact Keeps.ofId _
    | with_reducible exact Keeps.ofNone
    | with_reducible refine Keeps.ofSome ?_
    | with_reducible refine Keeps.ofIte ?_ ?_
    | simp only [Keeps.upd_iff, Keeps.ite_iff, Keeps.ite_fst_iff, Keeps.ite_snd_iff]
    | with_reducible apply And.intro
    | intro _
    | with_reducible apply Keeps.after (State.countWide_keeps ..)
    | with_reducible apply Keeps.after (State.polWrite_keeps ..)
    | with_reducible apply Keeps.after (State.updRun_keeps ..)
    | (with_reducible apply Keeps.fst; on_goal 1 => with_reducible assumption)
    | (with_reducible apply Keeps.snd; on_goal 1 => with_reducible assumption)
    | with_reducible apply Keeps.after ih1
    | with_reducible apply Keeps.after ih2
    | with_reducible apply Keeps.after ih3
    | with_reducible apply Keeps.after ih4
    | split
    | dsimp only
    | simp only []

theorem State.orderDo_keeps (s : State) (r : CtxRun) (w : Dword) (idx : Nat) : Keeps s (s.orderDo r w idx) := by
  unfold State.orderDo
  try dsimp only
  repeat' first
    | with_reducible exact Keeps.refl _
    | with_reducible assumption
    | with_reducible exact Keeps.ofId _
    | with_reducible exact Keeps.ofNone
    | with_reducible refine Keeps.ofSome ?_
    | with_reducible refine Keeps.ofIte ?_ ?_
    | simp only [Keeps.upd_iff, Keeps.ite_iff, Keeps.ite_fst_iff, Keeps.ite_snd_iff]
    | with_reducible apply And.intro
    | intro _
    | with_reducible apply Keeps.after (State.updRun_keeps ..)
    | with_reducible apply Keeps.after (State.endRun_keeps ..)
    | with_reducible apply Keeps.after (State.signalMark_keeps ..)
    | with_reducible apply Keeps.after (State.addMark_keeps ..)
    | with_reducible apply Keeps.after (State.flushFolds_keeps ..)
    | with_reducible apply Keeps.after (State.remitAll_keeps ..)
    | with_reducible apply Keeps.after (State.addrError_keeps ..)
    | with_reducible apply Keeps.after (State.transact_keeps ..)
    | (with_reducible apply Keeps.fst; on_goal 1 => with_reducible assumption)
    | (with_reducible apply Keeps.snd; on_goal 1 => with_reducible assumption)
    | with_reducible apply Keeps.foldl
    | with_reducible apply Keeps.foldl_fst
    | with_reducible apply Keeps.foldl_snd
    | split
    | dsimp only
    | simp only []

theorem State.resume_keeps (s : State) (x : Ctx) : Keeps s (s.resume x) := by
  unfold State.resume
  try dsimp only
  repeat' first
    | with_reducible exact Keeps.refl _
    | with_reducible assumption
    | with_reducible exact Keeps.ofId _
    | with_reducible exact Keeps.ofNone
    | with_reducible refine Keeps.ofSome ?_
    | with_reducible refine Keeps.ofIte ?_ ?_
    | simp only [Keeps.upd_iff, Keeps.ite_iff, Keeps.ite_fst_iff, Keeps.ite_snd_iff]
    | with_reducible apply And.intro
    | intro _
    | with_reducible apply Keeps.after (State.orderDo_keeps ..)
    | with_reducible apply Keeps.after (State.issueWord_keeps ..)
    | with_reducible apply Keeps.after (State.updRun_keeps ..)
    | (with_reducible apply Keeps.fst; on_goal 1 => with_reducible assumption)
    | (with_reducible apply Keeps.snd; on_goal 1 => with_reducible assumption)
    | split
    | dsimp only
    | simp only []

theorem State.rowsOn_keeps (s : State) (x : Ctx) (i : Issued) (n : Nat) (left : List (List (Nat × List Byte))) : Keeps s (s.rowsOn x i n left) := by
  unfold State.rowsOn
  try dsimp only
  repeat' first
    | with_reducible exact Keeps.refl _
    | with_reducible assumption
    | with_reducible exact Keeps.ofId _
    | with_reducible exact Keeps.ofNone
    | with_reducible refine Keeps.ofSome ?_
    | with_reducible refine Keeps.ofIte ?_ ?_
    | simp only [Keeps.upd_iff, Keeps.ite_iff, Keeps.ite_fst_iff, Keeps.ite_snd_iff]
    | with_reducible apply And.intro
    | intro _
    | with_reducible apply Keeps.after (State.ringStep_keeps ..)
    | with_reducible apply Keeps.after (State.unitFault_keeps ..)
    | with_reducible apply Keeps.after (State.setIssued_keeps ..)
    | with_reducible apply Keeps.after (State.unitSync_keeps ..)
    | (with_reducible apply Keeps.fst; on_goal 1 => with_reducible assumption)
    | (with_reducible apply Keeps.snd; on_goal 1 => with_reducible assumption)
    | split
    | dsimp only
    | simp only []

theorem State.retryUnit_keeps (s : State) (x : Ctx) (unit : Nat) : Keeps s (s.retryUnit x unit) := by
  unfold State.retryUnit
  try dsimp only
  repeat' first
    | with_reducible exact Keeps.refl _
    | with_reducible assumption
    | with_reducible exact Keeps.ofId _
    | with_reducible exact Keeps.ofNone
    | with_reducible refine Keeps.ofSome ?_
    | with_reducible refine Keeps.ofIte ?_ ?_
    | simp only [Keeps.upd_iff, Keeps.ite_iff, Keeps.ite_fst_iff, Keeps.ite_snd_iff]
    | with_reducible apply And.intro
    | intro _
    | with_reducible apply Keeps.after (State.beginOne_keeps ..)
    | with_reducible apply Keeps.after (State.moveStep_keeps ..)
    | with_reducible apply Keeps.after (State.unitFault_keeps ..)
    | with_reducible apply Keeps.after (State.takeSources_keeps ..)
    | with_reducible apply Keeps.after (State.rowsOn_keeps ..)
    | with_reducible apply Keeps.after (State.feedRun_keeps ..)
    | (with_reducible apply Keeps.fst; on_goal 1 => with_reducible assumption)
    | (with_reducible apply Keeps.snd; on_goal 1 => with_reducible assumption)
    | split
    | dsimp only
    | simp only []

theorem State.retryAll_keeps (s : State) : Keeps s s.retryAll := by
  unfold State.retryAll
  try dsimp only
  repeat' first
    | with_reducible exact Keeps.refl _
    | with_reducible assumption
    | with_reducible exact Keeps.ofId _
    | with_reducible exact Keeps.ofNone
    | with_reducible refine Keeps.ofSome ?_
    | with_reducible refine Keeps.ofIte ?_ ?_
    | simp only [Keeps.upd_iff, Keeps.ite_iff, Keeps.ite_fst_iff, Keeps.ite_snd_iff]
    | with_reducible apply And.intro
    | intro _
    | with_reducible apply Keeps.after (State.retryUnit_keeps ..)
    | with_reducible apply Keeps.after (State.resume_keeps ..)
    | with_reducible apply Keeps.after (State.dcSync_keeps ..)
    | (with_reducible apply Keeps.fst; on_goal 1 => with_reducible assumption)
    | (with_reducible apply Keeps.snd; on_goal 1 => with_reducible assumption)
    | with_reducible apply Keeps.foldl
    | with_reducible apply Keeps.foldl_fst
    | with_reducible apply Keeps.foldl_snd
    | split
    | dsimp only
    | simp only []

theorem State.decodeStep_keeps (s : State) (x : Ctx) (op : Nat) (act : State → CtxRun → Dword → Nat → State) (hact : ∀ s x1 x2 x3, Keeps s (act s x1 x2 x3)) : Keeps s (s.decodeStep x op act) := by
  unfold State.decodeStep
  try dsimp only
  repeat' first
    | with_reducible exact Keeps.refl _
    | with_reducible assumption
    | with_reducible exact Keeps.ofId _
    | with_reducible exact Keeps.ofNone
    | with_reducible refine Keeps.ofSome ?_
    | with_reducible refine Keeps.ofIte ?_ ?_
    | simp only [Keeps.upd_iff, Keeps.ite_iff, Keeps.ite_fst_iff, Keeps.ite_snd_iff]
    | with_reducible apply And.intro
    | intro _
    | with_reducible apply Keeps.after (State.polderDeny_keeps ..)
    | with_reducible apply Keeps.after (State.endRun_keeps ..)
    | with_reducible apply Keeps.after (State.updRun_keeps ..)
    | with_reducible apply Keeps.after (hact _ _ _ _)
    | (with_reducible apply Keeps.fst; on_goal 1 => with_reducible assumption)
    | (with_reducible apply Keeps.snd; on_goal 1 => with_reducible assumption)
    | split
    | dsimp only
    | simp only []

theorem State.unitStep_keeps (s : State) (x : Ctx) (op : Nat) : Keeps s (s.unitStep x op) := by
  unfold State.unitStep
  try dsimp only
  repeat' first
    | with_reducible exact Keeps.refl _
    | with_reducible assumption
    | with_reducible exact Keeps.ofId _
    | with_reducible exact Keeps.ofNone
    | with_reducible refine Keeps.ofSome ?_
    | with_reducible refine Keeps.ofIte ?_ ?_
    | simp only [Keeps.upd_iff, Keeps.ite_iff, Keeps.ite_fst_iff, Keeps.ite_snd_iff]
    | with_reducible apply And.intro
    | intro _
    | with_reducible refine Keeps.trans ?_ (State.decodeStep_keeps _ _ _ _ (fun _ _ _ _ => ?_))
    | with_reducible apply Keeps.after (State.issueWord_keeps ..)
    | (with_reducible apply Keeps.fst; on_goal 1 => with_reducible assumption)
    | (with_reducible apply Keeps.snd; on_goal 1 => with_reducible assumption)
    | split
    | dsimp only
    | simp only []

theorem State.paramStep_keeps (s : State) (x : Ctx) (op : Nat) : Keeps s (s.paramStep x op) := by
  unfold State.paramStep
  try dsimp only
  repeat' first
    | with_reducible exact Keeps.refl _
    | with_reducible assumption
    | with_reducible exact Keeps.ofId _
    | with_reducible exact Keeps.ofNone
    | with_reducible refine Keeps.ofSome ?_
    | with_reducible refine Keeps.ofIte ?_ ?_
    | simp only [Keeps.upd_iff, Keeps.ite_iff, Keeps.ite_fst_iff, Keeps.ite_snd_iff]
    | with_reducible apply And.intro
    | intro _
    | with_reducible refine Keeps.trans ?_ (State.decodeStep_keeps _ _ _ _ (fun _ _ _ _ => ?_))
    | with_reducible apply Keeps.after (State.updRun_keeps ..)
    | (with_reducible apply Keeps.fst; on_goal 1 => with_reducible assumption)
    | (with_reducible apply Keeps.snd; on_goal 1 => with_reducible assumption)
    | split
    | dsimp only
    | simp only []

theorem State.orderStep_keeps (s : State) (x : Ctx) (op : Nat) : Keeps s (s.orderStep x op) := by
  unfold State.orderStep
  try dsimp only
  repeat' first
    | with_reducible exact Keeps.refl _
    | with_reducible assumption
    | with_reducible exact Keeps.ofId _
    | with_reducible exact Keeps.ofNone
    | with_reducible refine Keeps.ofSome ?_
    | with_reducible refine Keeps.ofIte ?_ ?_
    | simp only [Keeps.upd_iff, Keeps.ite_iff, Keeps.ite_fst_iff, Keeps.ite_snd_iff]
    | with_reducible apply And.intro
    | intro _
    | with_reducible refine Keeps.trans ?_ (State.decodeStep_keeps _ _ _ _ (fun _ _ _ _ => ?_))
    | with_reducible apply Keeps.after (State.orderDo_keeps ..)
    | with_reducible apply Keeps.after (State.updRun_keeps ..)
    | (with_reducible apply Keeps.fst; on_goal 1 => with_reducible assumption)
    | (with_reducible apply Keeps.snd; on_goal 1 => with_reducible assumption)
    | split
    | dsimp only
    | simp only []

theorem State.waitStep_keeps (s : State) (x : Ctx) (op : Nat) (eq : Bool) : Keeps s (s.waitStep x op eq) := by
  unfold State.waitStep
  try dsimp only
  repeat' first
    | with_reducible exact Keeps.refl _
    | with_reducible assumption
    | with_reducible exact Keeps.ofId _
    | with_reducible exact Keeps.ofNone
    | with_reducible refine Keeps.ofSome ?_
    | with_reducible refine Keeps.ofIte ?_ ?_
    | simp only [Keeps.upd_iff, Keeps.ite_iff, Keeps.ite_fst_iff, Keeps.ite_snd_iff]
    | with_reducible apply And.intro
    | intro _
    | with_reducible refine Keeps.trans ?_ (State.decodeStep_keeps _ _ _ _ (fun _ _ _ _ => ?_))
    | with_reducible apply Keeps.after (State.updRun_keeps ..)
    | (with_reducible apply Keeps.fst; on_goal 1 => with_reducible assumption)
    | (with_reducible apply Keeps.snd; on_goal 1 => with_reducible assumption)
    | split
    | dsimp only
    | simp only []

end Sys2Proof.Machine
end

