-- ==== Sys2Proof/Laws/KeepsPecRows.lean ====
section
/-! SUPPORT. What the operations of Machine/PecRows.lean keep. -/
namespace Sys2Proof.Machine

theorem State.lawOr_keeps (s : State) (x : Ctx) (op : Nat) (other : State) (h : Keeps s other) :
    Keeps s (s.lawOr x op other) := by
  unfold State.lawOr
  split
  · exact State.millMark_keeps _ _ _
  · exact h

theorem State.fenceStep_keeps (s : State) (x : Ctx) : Keeps s (s.fenceStep x) := by
  unfold State.fenceStep
  try dsimp only
  repeat' first
    | with_reducible exact Keeps.refl _
    | with_reducible assumption
    | with_reducible exact Keeps.ofId _
    | with_reducible exact Keeps.ofNone
    | with_reducible refine Keeps.ofSome ?_
    | with_reducible refine Keeps.ofIte ?_ ?_
    | simp only [Keeps.upd_iff, Keeps.ite_iff, Keeps.ite_fst_iff, Keeps.ite_snd_iff]
    | with_reducible apply And.intro
    | intro _
    | with_reducible refine Keeps.trans ?_ (State.decodeStep_keeps _ _ _ _ (fun _ _ _ _ => ?_))
    | with_reducible apply Keeps.after (State.resume_keeps ..)
    | with_reducible apply Keeps.after (State.updRun_keeps ..)
    | (with_reducible apply Keeps.fst; on_goal 1 => with_reducible assumption)
    | (with_reducible apply Keeps.snd; on_goal 1 => with_reducible assumption)
    | split
    | dsimp only
    | simp only []

theorem State.lopen_keeps (s : State) (x : Ctx) : Keeps s (s.lopen x) := by
  unfold State.lopen
  try dsimp only
  repeat' first
    | with_reducible exact Keeps.refl _
    | with_reducible assumption
    | with_reducible exact Keeps.ofId _
    | with_reducible exact Keeps.ofNone
    | with_reducible refine Keeps.ofSome ?_
    | with_reducible refine Keeps.ofIte ?_ ?_
    | simp only [Keeps.upd_iff, Keeps.ite_iff, Keeps.ite_fst_iff, Keeps.ite_snd_iff]
    | with_reducible apply And.intro
    | intro _
    | with_reducible apply Keeps.after (State.updRun_keeps ..)
    | with_reducible apply Keeps.after (State.setFlag_keeps ..)
    | with_reducible apply Keeps.after (State.lockSync_keeps ..)
    | with_reducible apply Keeps.after (State.dcSync_keeps ..)
    | with_reducible refine Keeps.trans ?_ (State.decodeStep_keeps _ _ _ _ (fun _ _ _ _ => ?_))
    | (with_reducible apply Keeps.fst; on_goal 1 => with_reducible assumption)
    | (with_reducible apply Keeps.snd; on_goal 1 => with_reducible assumption)
    | with_reducible apply Keeps.foldl
    | with_reducible apply Keeps.foldl_fst
    | with_reducible apply Keeps.foldl_snd
    | split
    | dsimp only
    | simp only []

theorem State.lockOpen_keeps (s : State) (x : Ctx) : Keeps s (s.lockOpen x) := by
  unfold State.lockOpen
  try dsimp only
  repeat' first
    | with_reducible exact Keeps.refl _
    | with_reducible assumption
    | with_reducible exact Keeps.ofId _
    | with_reducible exact Keeps.ofNone
    | with_reducible refine Keeps.ofSome ?_
    | with_reducible refine Keeps.ofIte ?_ ?_
    | simp only [Keeps.upd_iff, Keeps.ite_iff, Keeps.ite_fst_iff, Keeps.ite_snd_iff]
    | with_reducible apply And.intro
    | intro _
    | with_reducible apply Keeps.after (State.setBank_keeps ..)
    | with_reducible apply Keeps.after (State.updRun_keeps ..)
    | with_reducible apply Keeps.after (State.lockSync_keeps ..)
    | with_reducible apply Keeps.after (State.dcSync_keeps ..)
    | (with_reducible apply Keeps.fst; on_goal 1 => with_reducible assumption)
    | (with_reducible apply Keeps.snd; on_goal 1 => with_reducible assumption)
    | with_reducible apply Keeps.foldl
    | with_reducible apply Keeps.foldl_fst
    | with_reducible apply Keeps.foldl_snd
    | split
    | dsimp only
    | simp only []

theorem State.lclose_keeps (s : State) (x : Ctx) : Keeps s (s.lclose x) := by
  unfold State.lclose
  try dsimp only
  repeat' first
    | with_reducible exact Keeps.refl _
    | with_reducible assumption
    | with_reducible exact Keeps.ofId _
    | with_reducible exact Keeps.ofNone
    | with_reducible refine Keeps.ofSome ?_
    | with_reducible refine Keeps.ofIte ?_ ?_
    | simp only [Keeps.upd_iff, Keeps.ite_iff, Keeps.ite_fst_iff, Keeps.ite_snd_iff]
    | with_reducible apply And.intro
    | intro _
    | with_reducible refine Keeps.trans ?_ (State.decodeStep_keeps _ _ _ _ (fun _ _ _ _ => ?_))
    | with_reducible apply Keeps.after (State.dcSync_keeps ..)
    | with_reducible apply Keeps.after (State.dropLocks_keeps ..)
    | with_reducible apply Keeps.after (State.updRun_keeps ..)
    | (with_reducible apply Keeps.fst; on_goal 1 => with_reducible assumption)
    | (with_reducible apply Keeps.snd; on_goal 1 => with_reducible assumption)
    | split
    | dsimp only
    | simp only []

theorem State.countDone_keeps (s : State) (x : Ctx) (i : Issued) (hs : List Nat) (blocks : List Nat) (bytes : List Nat) (stalls : List Nat) : Keeps s (s.countDone x i hs blocks bytes stalls) := by
  unfold State.countDone
  try dsimp only
  repeat' first
    | with_reducible exact Keeps.refl _
    | with_reducible assumption
    | with_reducible exact Keeps.ofId _
    | with_reducible exact Keeps.ofNone
    | with_reducible refine Keeps.ofSome ?_
    | with_reducible refine Keeps.ofIte ?_ ?_
    | simp only [Keeps.upd_iff, Keeps.ite_iff, Keeps.ite_fst_iff, Keeps.ite_snd_iff]
    | with_reducible apply And.intro
    | intro _
    | with_reducible apply Keeps.after (State.count_keeps ..)
    | with_reducible apply Keeps.after (State.countWide_keeps ..)
    | with_reducible apply Keeps.after (State.wr_keeps ..)
    | with_reducible apply Keeps.after (State.maxTo_keeps ..)
    | (with_reducible apply Keeps.fst; on_goal 1 => with_reducible assumption)
    | (with_reducible apply Keeps.snd; on_goal 1 => with_reducible assumption)
    | with_reducible apply Keeps.foldl
    | with_reducible apply Keeps.foldl_fst
    | with_reducible apply Keeps.foldl_snd
    | split
    | dsimp only
    | simp only []

theorem State.instrDone_keeps (s : State) (x : Ctx) (unit : Nat) (hs : List Nat) (blocks : List Nat) (bytes : List Nat) (stalls : List Nat) : Keeps s (s.instrDone x unit hs blocks bytes stalls) := by
  unfold State.instrDone
  try dsimp only
  repeat' first
    | with_reducible exact Keeps.refl _
    | with_reducible assumption
    | with_reducible exact Keeps.ofId _
    | with_reducible exact Keeps.ofNone
    | with_reducible refine Keeps.ofSome ?_
    | with_reducible refine Keeps.ofIte ?_ ?_
    | simp only [Keeps.upd_iff, Keeps.ite_iff, Keeps.ite_fst_iff, Keeps.ite_snd_iff]
    | with_reducible apply And.intro
    | intro _
    | with_reducible apply Keeps.after (State.updRun_keeps ..)
    | with_reducible apply Keeps.after (State.countDone_keeps ..)
    | with_reducible apply Keeps.after (State.flushFolds_keeps ..)
    | with_reducible apply Keeps.after (State.beginUnits_keeps ..)
    | with_reducible apply Keeps.after (State.resume_keeps ..)
    | with_reducible apply Keeps.after (State.dcSync_keeps ..)
    | with_reducible apply Keeps.after (State.unitSync_keeps ..)
    | (with_reducible apply Keeps.fst; on_goal 1 => with_reducible assumption)
    | (with_reducible apply Keeps.snd; on_goal 1 => with_reducible assumption)
    | split
    | dsimp only
    | simp only []

theorem State.waitDone_keeps (s : State) (x : Ctx) (unit : Nat) : Keeps s (s.waitDone x unit) := by
  unfold State.waitDone
  try dsimp only
  repeat' first
    | with_reducible exact Keeps.refl _
    | with_reducible assumption
    | with_reducible exact Keeps.ofId _
    | with_reducible exact Keeps.ofNone
    | with_reducible refine Keeps.ofSome ?_
    | with_reducible refine Keeps.ofIte ?_ ?_
    | simp only [Keeps.upd_iff, Keeps.ite_iff, Keeps.ite_fst_iff, Keeps.ite_snd_iff]
    | with_reducible apply And.intro
    | intro _
    | with_reducible apply Keeps.after (State.updRun_keeps ..)
    | with_reducible apply Keeps.after (State.takeSources_keeps ..)
    | with_reducible apply Keeps.after (State.rowsOn_keeps ..)
    | (with_reducible apply Keeps.fst; on_goal 1 => with_reducible assumption)
    | (with_reducible apply Keeps.snd; on_goal 1 => with_reducible assumption)
    | split
    | dsimp only
    | simp only []

end Sys2Proof.Machine
end

