-- ==== Sys2Proof/Laws/KeepsMailbox.lean ====
section
/-! SUPPORT. What the operations of Machine/Mailbox.lean keep. -/
namespace Sys2Proof.Machine

theorem call00_keeps (ini : Nat) (args : List Word) (s : State) (x3 : Nat) (res : State) : call00 ini args s x3 = some res → Keeps s res := by
  unfold call00
  try dsimp only
  repeat' first
    | with_reducible exact Keeps.refl _
    | with_reducible assumption
    | with_reducible exact Keeps.ofId _
    | with_reducible exact Keeps.ofNone
    | with_reducible refine Keeps.ofSome ?_
    | with_reducible refine Keeps.ofIte ?_ ?_
    | simp only [Keeps.upd_iff, Keeps.ite_iff, Keeps.ite_fst_iff, Keeps.ite_snd_iff]
    | with_reducible apply And.intro
    | split
    | intro _
    | with_reducible apply Keeps.after (callGpioOwner_keeps ..)
    | with_reducible apply Keeps.after (callReadGpio_keeps ..)
    | with_reducible apply Keeps.after (callSetGpio_keeps ..)
    | with_reducible apply Keeps.after (callPecCaps_keeps ..)
    | with_reducible apply Keeps.after (callValidate_keeps ..)
    | with_reducible apply Keeps.after (callListUnits_keeps ..)
    | with_reducible apply Keeps.after (callRequestState_keeps ..)
    | with_reducible apply Keeps.after (callReadUcb_keeps ..)
    | with_reducible apply Keeps.after (callRates_keeps ..)
    | with_reducible apply Keeps.after (callRelease_keeps ..)
    | with_reducible apply Keeps.after (callClaim_keeps ..)
    | with_reducible apply Keeps.after (callDeviceInfo_keeps ..)
    | with_reducible apply Keeps.after (callToeCounters_keeps ..)
    | with_reducible apply Keeps.after (callBindFeed_keeps ..)
    | with_reducible apply Keeps.after (callToeStatus_keeps ..)
    | with_reducible apply Keeps.after (callDissolveGang_keeps ..)
    | with_reducible apply Keeps.after (callFormGang_keeps ..)
    | with_reducible apply Keeps.after (callStepTable_keeps ..)
    | with_reducible apply Keeps.after (callTileCounters_keeps ..)
    | with_reducible apply Keeps.after (callClusterStatus_keeps ..)
    | with_reducible apply Keeps.after (callSpareEnable_keeps ..)
    | (with_reducible apply Keeps.fst; on_goal 1 => with_reducible assumption)
    | (with_reducible apply Keeps.snd; on_goal 1 => with_reducible assumption)
    | dsimp only
    | simp only []

theorem call01_keeps (ini : Nat) (args : List Word) (s : State) (x3 : Nat) (res : State) : call01 ini args s x3 = some res → Keeps s res := by
  unfold call01
  try dsimp only
  repeat' first
    | with_reducible exact Keeps.refl _
    | with_reducible assumption
    | with_reducible exact Keeps.ofId _
    | with_reducible exact Keeps.ofNone
    | with_reducible refine Keeps.ofSome ?_
    | with_reducible refine Keeps.ofIte ?_ ?_
    | simp only [Keeps.upd_iff, Keeps.ite_iff, Keeps.ite_fst_iff, Keeps.ite_snd_iff]
    | with_reducible apply And.intro
    | split
    | intro _
    | with_reducible apply Keeps.after (callResolveStall_keeps ..)
    | with_reducible apply Keeps.after (callReleaseReservation_keeps ..)
    | with_reducible apply Keeps.after (callReserve_keeps ..)
    | with_reducible apply Keeps.after (callReadQueue_keeps ..)
    | with_reducible apply Keeps.after (callQueueAction_keeps ..)
    | with_reducible apply Keeps.after (callDeleteQueue_keeps ..)
    | with_reducible apply Keeps.after (callQueue_keeps ..)
    | with_reducible apply Keeps.after (callMark_keeps ..)
    | with_reducible apply Keeps.after (callWatch_keeps ..)
    | with_reducible apply Keeps.after (callAccounting_keeps ..)
    | with_reducible apply Keeps.after (callSetShare_keeps ..)
    | with_reducible apply Keeps.after (callCreateClient_keeps ..)
    | (with_reducible apply Keeps.fst; on_goal 1 => with_reducible assumption)
    | (with_reducible apply Keeps.snd; on_goal 1 => with_reducible assumption)
    | dsimp only
    | simp only []

theorem call02_keeps (ini : Nat) (args : List Word) (s : State) (x3 : Nat) (res : State) : call02 ini args s x3 = some res → Keeps s res := by
  unfold call02
  try dsimp only
  repeat' first
    | with_reducible exact Keeps.refl _
    | with_reducible assumption
    | with_reducible exact Keeps.ofId _
    | with_reducible exact Keeps.ofNone
    | with_reducible refine Keeps.ofSome ?_
    | with_reducible refine Keeps.ofIte ?_ ?_
    | simp only [Keeps.upd_iff, Keeps.ite_iff, Keeps.ite_fst_iff, Keeps.ite_snd_iff]
    | with_reducible apply And.intro
    | split
    | intro _
    | with_reducible apply Keeps.after (callLocate_keeps ..)
    | with_reducible apply Keeps.after (callHazardDetector_keeps ..)
    | with_reducible apply Keeps.after (callSpareBank_keeps ..)
    | with_reducible apply Keeps.after (callReadBankGroup_keeps ..)
    | with_reducible apply Keeps.after (callSluiceWatchdog_keeps ..)
    | with_reducible apply Keeps.after (callWaitLimits_keeps ..)
    | with_reducible apply Keeps.after (callReadCredits_keeps ..)
    | with_reducible apply Keeps.after (callParcelRights_keeps ..)
    | with_reducible apply Keeps.after (callReadParcel_keeps ..)
    | with_reducible apply Keeps.after (callDeleteParcel_keeps ..)
    | with_reducible apply Keeps.after (callCreateParcel_keeps ..)
    | (with_reducible apply Keeps.fst; on_goal 1 => with_reducible assumption)
    | (with_reducible apply Keeps.snd; on_goal 1 => with_reducible assumption)
    | dsimp only
    | simp only []

theorem call03_keeps (ini : Nat) (args : List Word) (s : State) (x3 : Nat) (res : State) : call03 ini args s x3 = some res → Keeps s res := by
  unfold call03
  try dsimp only
  repeat' first
    | with_reducible exact Keeps.refl _
    | with_reducible assumption
    | with_reducible exact Keeps.ofId _
    | with_reducible exact Keeps.ofNone
    | with_reducible refine Keeps.ofSome ?_
    | with_reducible refine Keeps.ofIte ?_ ?_
    | simp only [Keeps.upd_iff, Keeps.ite_iff, Keeps.ite_fst_iff, Keeps.ite_snd_iff]
    | with_reducible apply And.intro
    | split
    | intro _
    | with_reducible apply Keeps.after (callQueueWd_keeps ..)
    | with_reducible apply Keeps.after (callClearWd_keeps ..)
    | with_reducible apply Keeps.after (callReadWd_keeps ..)
    | with_reducible apply Keeps.after (callLoadWeights_keeps ..)
    | with_reducible apply Keeps.after (callVerifyRind_keeps ..)
    | with_reducible apply Keeps.after (callFingerprint_keeps ..)
    | with_reducible apply Keeps.after (callSbCounters_keeps ..)
    | with_reducible apply Keeps.after (callSameBits_keeps ..)
    | (with_reducible apply Keeps.fst; on_goal 1 => with_reducible assumption)
    | (with_reducible apply Keeps.snd; on_goal 1 => with_reducible assumption)
    | dsimp only
    | simp only []

theorem call04_keeps (ini : Nat) (args : List Word) (s : State) (x3 : Nat) (res : State) : call04 ini args s x3 = some res → Keeps s res := by
  unfold call04
  try dsimp only
  repeat' first
    | with_reducible exact Keeps.refl _
    | with_reducible assumption
    | with_reducible exact Keeps.ofId _
    | with_reducible exact Keeps.ofNone
    | with_reducible refine Keeps.ofSome ?_
    | with_reducible refine Keeps.ofIte ?_ ?_
    | simp only [Keeps.upd_iff, Keeps.ite_iff, Keeps.ite_fst_iff, Keeps.ite_snd_iff]
    | with_reducible apply And.intro
    | split
    | intro _
    | with_reducible apply Keeps.after (callRemoteMark_keeps ..)
    | with_reducible apply Keeps.after (callRingLimits_keeps ..)
    | with_reducible apply Keeps.after (callSendWake_keeps ..)
    | with_reducible apply Keeps.after (callConfigurePort_keeps ..)
    | with_reducible apply Keeps.after (callReadPort_keeps ..)
    | with_reducible apply Keeps.after (callReadRing_keeps ..)
    | with_reducible apply Keeps.after (callDissolveRing_keeps ..)
    | with_reducible apply Keeps.after (callFormRing_keeps ..)
    | (with_reducible apply Keeps.fst; on_goal 1 => with_reducible assumption)
    | (with_reducible apply Keeps.snd; on_goal 1 => with_reducible assumption)
    | dsimp only
    | simp only []

theorem call05_keeps (ini : Nat) (args : List Word) (s : State) (x3 : Nat) (res : State) : call05 ini args s x3 = some res → Keeps s res := by
  unfold call05
  try dsimp only
  repeat' first
    | with_reducible exact Keeps.refl _
    | with_reducible assumption
    | with_reducible exact Keeps.ofId _
    | with_reducible exact Keeps.ofNone
    | with_reducible refine Keeps.ofSome ?_
    | with_reducible refine Keeps.ofIte ?_ ?_
    | simp only [Keeps.upd_iff, Keeps.ite_iff, Keeps.ite_fst_iff, Keeps.ite_snd_iff]
    | with_reducible apply And.intro
    | split
    | intro _
    | with_reducible apply Keeps.after (callVatCounters_keeps ..)
    | with_reducible apply Keeps.after (callRefDecode_keeps ..)
    | with_reducible apply Keeps.after (callShared_keeps ..)
    | with_reducible apply Keeps.after (callSlowLimits_keeps ..)
    | with_reducible apply Keeps.after (callCellarDrop_keeps ..)
    | with_reducible apply Keeps.after (callCellar_keeps ..)
    | with_reducible apply Keeps.after (callJobStall_keeps ..)
    | with_reducible apply Keeps.after (callJobStop_keeps ..)
    | with_reducible apply Keeps.after (callJobStart_keeps ..)
    | with_reducible apply Keeps.after (callLive_keeps ..)
    | with_reducible apply Keeps.after (callVatStatus_keeps ..)
    | (with_reducible apply Keeps.fst; on_goal 1 => with_reducible assumption)
    | (with_reducible apply Keeps.snd; on_goal 1 => with_reducible assumption)
    | dsimp only
    | simp only []

theorem call06_keeps (ini : Nat) (args : List Word) (s : State) (x3 : Nat) (res : State) : call06 ini args s x3 = some res → Keeps s res := by
  unfold call06
  try dsimp only
  repeat' first
    | with_reducible exact Keeps.refl _
    | with_reducible assumption
    | with_reducible exact Keeps.ofId _
    | with_reducible exact Keeps.ofNone
    | with_reducible refine Keeps.ofSome ?_
    | with_reducible refine Keeps.ofIte ?_ ?_
    | simp only [Keeps.upd_iff, Keeps.ite_iff, Keeps.ite_fst_iff, Keeps.ite_snd_iff]
    | with_reducible apply And.intro
    | split
    | intro _
    | with_reducible apply Keeps.after (callReadPipeline_keeps ..)
    | with_reducible apply Keeps.after (callMoveCamera_keeps ..)
    | with_reducible apply Keeps.after (callSetSpare_keeps ..)
    | with_reducible apply Keeps.after (callFlicker_keeps ..)
    | with_reducible apply Keeps.after (callPushSet_keeps ..)
    | with_reducible apply Keeps.after (callStartStop_keeps ..)
    | with_reducible apply Keeps.after (callLoadDesc_keeps ..)
    | with_reducible apply Keeps.after (callConfigureLink_keeps ..)
    | with_reducible apply Keeps.after (callReadLink_keeps ..)
    | (with_reducible apply Keeps.fst; on_goal 1 => with_reducible assumption)
    | (with_reducible apply Keeps.snd; on_goal 1 => with_reducible assumption)
    | dsimp only
    | simp only []

theorem call07_keeps (ini : Nat) (args : List Word) (s : State) (x3 : Nat) (res : State) : call07 ini args s x3 = some res → Keeps s res := by
  unfold call07
  try dsimp only
  repeat' first
    | with_reducible exact Keeps.refl _
    | with_reducible assumption
    | with_reducible exact Keeps.ofId _
    | with_reducible exact Keeps.ofNone
    | with_reducible refine Keeps.ofSome ?_
    | with_reducible refine Keeps.ofIte ?_ ?_
    | simp only [Keeps.upd_iff, Keeps.ite_iff, Keeps.ite_fst_iff, Keeps.ite_snd_iff]
    | with_reducible apply And.intro
    | split
    | intro _
    | with_reducible apply Keeps.after (callBindTrigger_keeps ..)
    | with_reducible apply Keeps.after (callConfigureAxis_keeps ..)
    | with_reducible apply Keeps.after (callFallback_keeps ..)
    | with_reducible apply Keeps.after (callClearLoopFlags_keeps ..)
    | with_reducible apply Keeps.after (callConfigurePwm_keeps ..)
    | with_reducible apply Keeps.after (callConfigureEncoder_keeps ..)
    | with_reducible apply Keeps.after (callReadLoop_keeps ..)
    | with_reducible apply Keeps.after (callReadCoefficients_keeps ..)
    | with_reducible apply Keeps.after (callWriteCoefficients_keeps ..)
    | with_reducible apply Keeps.after (callEnableLoop_keeps ..)
    | with_reducible apply Keeps.after (callLoadLaw_keeps ..)
    | with_reducible apply Keeps.after (callConfigureLoop_keeps ..)
    | with_reducible apply Keeps.after (callMillStatus_keeps ..)
    | (with_reducible apply Keeps.fst; on_goal 1 => with_reducible assumption)
    | (with_reducible apply Keeps.snd; on_goal 1 => with_reducible assumption)
    | dsimp only
    | simp only []

theorem call08_keeps (ini : Nat) (args : List Word) (s : State) (x3 : Nat) (res : State) : call08 ini args s x3 = some res → Keeps s res := by
  unfold call08
  try dsimp only
  repeat' first
    | with_reducible exact Keeps.refl _
    | with_reducible assumption
    | with_reducible exact Keeps.ofId _
    | with_reducible exact Keeps.ofNone
    | with_reducible refine Keeps.ofSome ?_
    | with_reducible refine Keeps.ofIte ?_ ?_
    | simp only [Keeps.upd_iff, Keeps.ite_iff, Keeps.ite_fst_iff, Keeps.ite_snd_iff]
    | with_reducible apply And.intro
    | split
    | intro _
    | with_reducible apply Keeps.after (callPinTest_keeps ..)
    | with_reducible apply Keeps.after (callWardenCounters_keeps ..)
    | with_reducible apply Keeps.after (callWriteFirewall_keeps ..)
    | with_reducible apply Keeps.after (callCloseTask_keeps ..)
    | with_reducible apply Keeps.after (callOpenTask_keeps ..)
    | with_reducible apply Keeps.after (callConfigureSelfTest_keeps ..)
    | with_reducible apply Keeps.after (callConfigureStarter_keeps ..)
    | with_reducible apply Keeps.after (callConfigureCompare_keeps ..)
    | with_reducible apply Keeps.after (callWriteEnvelopes_keeps ..)
    | with_reducible apply Keeps.after (callConfigureGate_keeps ..)
    | with_reducible apply Keeps.after (callSetCheck_keeps ..)
    | with_reducible apply Keeps.after (callEnterTest_keeps ..)
    | with_reducible apply Keeps.after (callReleaseSafe_keeps ..)
    | with_reducible apply Keeps.after (callForceSafe_keeps ..)
    | with_reducible apply Keeps.after (callArm_keeps ..)
    | with_reducible apply Keeps.after (callWardenStatus_keeps ..)
    | (with_reducible apply Keeps.fst; on_goal 1 => with_reducible assumption)
    | (with_reducible apply Keeps.snd; on_goal 1 => with_reducible assumption)
    | dsimp only
    | simp only []

theorem call09_keeps (ini : Nat) (args : List Word) (s : State) (x3 : Nat) (res : State) : call09 ini args s x3 = some res → Keeps s res := by
  unfold call09
  try dsimp only
  repeat' first
    | with_reducible exact Keeps.refl _
    | with_reducible assumption
    | with_reducible exact Keeps.ofId _
    | with_reducible exact Keeps.ofNone
    | with_reducible refine Keeps.ofSome ?_
    | with_reducible refine Keeps.ofIte ?_ ?_
    | simp only [Keeps.upd_iff, Keeps.ite_iff, Keeps.ite_fst_iff, Keeps.ite_snd_iff]
    | with_reducible apply And.intro
    | split
    | intro _
    | with_reducible apply Keeps.after (callConfigureRings_keeps ..)
    | with_reducible apply Keeps.after (callRecoverCan_keeps ..)
    | with_reducible apply Keeps.after (callWriteCanObject_keeps ..)
    | with_reducible apply Keeps.after (callConfigureCan_keeps ..)
    | with_reducible apply Keeps.after (callReadCanObject_keeps ..)
    | with_reducible apply Keeps.after (callReadPtp_keeps ..)
    | with_reducible apply Keeps.after (callConfigurePtp_keeps ..)
    | with_reducible apply Keeps.after (callConfigurePulse_keeps ..)
    | with_reducible apply Keeps.after (callConfigureComparator_keeps ..)
    | with_reducible apply Keeps.after (callClaimComparator_keeps ..)
    | with_reducible apply Keeps.after (callSetIncrement_keeps ..)
    | with_reducible apply Keeps.after (callAdjustTime_keeps ..)
    | with_reducible apply Keeps.after (callReadTime_keeps ..)
    | (with_reducible apply Keeps.fst; on_goal 1 => with_reducible assumption)
    | (with_reducible apply Keeps.snd; on_goal 1 => with_reducible assumption)
    | dsimp only
    | simp only []

theorem call0A_keeps (ini : Nat) (args : List Word) (s : State) (x3 : Nat) (res : State) : call0A ini args s x3 = some res → Keeps s res := by
  unfold call0A
  try dsimp only
  repeat' first
    | with_reducible exact Keeps.refl _
    | with_reducible assumption
    | with_reducible exact Keeps.ofId _
    | with_reducible exact Keeps.ofNone
    | with_reducible refine Keeps.ofSome ?_
    | with_reducible refine Keeps.ofIte ?_ ?_
    | simp only [Keeps.upd_iff, Keeps.ite_iff, Keeps.ite_fst_iff, Keeps.ite_snd_iff]
    | with_reducible apply And.intro
    | split
    | intro _
    | with_reducible apply Keeps.after (callTranslate_keeps ..)
    | with_reducible apply Keeps.after (callXlFault_keeps ..)
    | with_reducible apply Keeps.after (callInvalidate_keeps ..)
    | with_reducible apply Keeps.after (callSetContext_keeps ..)
    | with_reducible apply Keeps.after (callSetWindow_keeps ..)
    | with_reducible apply Keeps.after (callSdioStatus_keeps ..)
    | with_reducible apply Keeps.after (callSetVectors_keeps ..)
    | with_reducible apply Keeps.after (callPcieStatus_keeps ..)
    | (with_reducible apply Keeps.fst; on_goal 1 => with_reducible assumption)
    | (with_reducible apply Keeps.snd; on_goal 1 => with_reducible assumption)
    | dsimp only
    | simp only []

theorem call0B_keeps (ini : Nat) (args : List Word) (s : State) (x3 : Nat) (res : State) : call0B ini args s x3 = some res → Keeps s res := by
  unfold call0B
  try dsimp only
  repeat' first
    | with_reducible exact Keeps.refl _
    | with_reducible assumption
    | with_reducible exact Keeps.ofId _
    | with_reducible exact Keeps.ofNone
    | with_reducible refine Keeps.ofSome ?_
    | with_reducible refine Keeps.ofIte ?_ ?_
    | simp only [Keeps.upd_iff, Keeps.ite_iff, Keeps.ite_fst_iff, Keeps.ite_snd_iff]
    | with_reducible apply And.intro
    | split
    | intro _
    | with_reducible apply Keeps.after (callPowerCounters_keeps ..)
    | with_reducible apply Keeps.after (callTrimIdle_keeps ..)
    | with_reducible apply Keeps.after (callSetWake_keeps ..)
    | with_reducible apply Keeps.after (callSetCap_keeps ..)
    | with_reducible apply Keeps.after (callSetPoint_keeps ..)
    | with_reducible apply Keeps.after (callRequestPower_keeps ..)
    | with_reducible apply Keeps.after (callPowerStatus_keeps ..)
    | (with_reducible apply Keeps.fst; on_goal 1 => with_reducible assumption)
    | (with_reducible apply Keeps.snd; on_goal 1 => with_reducible assumption)
    | dsimp only
    | simp only []

theorem call0C_keeps (ini : Nat) (args : List Word) (s : State) (x3 : Nat) (res : State) : call0C ini args s x3 = some res → Keeps s res := by
  unfold call0C
  try dsimp only
  repeat' first
    | with_reducible exact Keeps.refl _
    | with_reducible assumption
    | with_reducible exact Keeps.ofId _
    | with_reducible exact Keeps.ofNone
    | with_reducible refine Keeps.ofSome ?_
    | with_reducible refine Keeps.ofIte ?_ ?_
    | simp only [Keeps.upd_iff, Keeps.ite_iff, Keeps.ite_fst_iff, Keeps.ite_snd_iff]
    | with_reducible apply And.intro
    | split
    | intro _
    | with_reducible apply Keeps.after (callCommitSet_keeps ..)
    | with_reducible apply Keeps.after (callBootImage_keeps ..)
    | with_reducible apply Keeps.after (callApplyCal_keeps ..)
    | with_reducible apply Keeps.after (callCalInForce_keeps ..)
    | with_reducible apply Keeps.after (callFactoryCal_keeps ..)
    | with_reducible apply Keeps.after (callQuote_keeps ..)
    | with_reducible apply Keeps.after (callIdentity_keeps ..)
    | with_reducible apply Keeps.after (callSetKeys_keeps ..)
    | with_reducible apply Keeps.after (callRevoke_keeps ..)
    | with_reducible apply Keeps.after (callRaiseSvn_keeps ..)
    | with_reducible apply Keeps.after (callConsent_keeps ..)
    | with_reducible apply Keeps.after (callUpdStatus_keeps ..)
    | with_reducible apply Keeps.after (callUpdate_keeps ..)
    | with_reducible apply Keeps.after (callVerifyImage_keeps ..)
    | with_reducible apply Keeps.after (callCatalogue_keeps ..)
    | with_reducible apply Keeps.after (callBootStatus_keeps ..)
    | (with_reducible apply Keeps.fst; on_goal 1 => with_reducible assumption)
    | (with_reducible apply Keeps.snd; on_goal 1 => with_reducible assumption)
    | dsimp only
    | simp only []

theorem call0D_keeps (ini : Nat) (args : List Word) (s : State) (x3 : Nat) (res : State) : call0D ini args s x3 = some res → Keeps s res := by
  unfold call0D
  try dsimp only
  repeat' first
    | with_reducible exact Keeps.refl _
    | with_reducible assumption
    | with_reducible exact Keeps.ofId _
    | with_reducible exact Keeps.ofNone
    | with_reducible refine Keeps.ofSome ?_
    | with_reducible refine Keeps.ofIte ?_ ?_
    | simp only [Keeps.upd_iff, Keeps.ite_iff, Keeps.ite_fst_iff, Keeps.ite_snd_iff]
    | with_reducible apply And.intro
    | split
    | intro _
    | with_reducible apply Keeps.after (callFaultCounters_keeps ..)
    | with_reducible apply Keeps.after (callInject_keeps ..)
    | with_reducible apply Keeps.after (callSpares_keeps ..)
    | with_reducible apply Keeps.after (callUnitHealth_keeps ..)
    | with_reducible apply Keeps.after (callFaultOptions_keeps ..)
    | with_reducible apply Keeps.after (callAckRecords_keeps ..)
    | with_reducible apply Keeps.after (callFaultRecords_keeps ..)
    | with_reducible apply Keeps.after (callFaultStatus_keeps ..)
    | (with_reducible apply Keeps.fst; on_goal 1 => with_reducible assumption)
    | (with_reducible apply Keeps.snd; on_goal 1 => with_reducible assumption)
    | dsimp only
    | simp only []

theorem call0E_keeps (ini : Nat) (args : List Word) (s : State) (x3 : Nat) (res : State) : call0E ini args s x3 = some res → Keeps s res := by
  unfold call0E
  try dsimp only
  repeat' first
    | with_reducible exact Keeps.refl _
    | with_reducible assumption
    | with_reducible exact Keeps.ofId _
    | with_reducible exact Keeps.ofNone
    | with_reducible refine Keeps.ofSome ?_
    | with_reducible refine Keeps.ofIte ?_ ?_
    | simp only [Keeps.upd_iff, Keeps.ite_iff, Keeps.ite_fst_iff, Keeps.ite_snd_iff]
    | with_reducible apply And.intro
    | split
    | intro _
    | with_reducible apply Keeps.after (callTapTable_keeps ..)
    | with_reducible apply Keeps.after (callArrival_keeps ..)
    | with_reducible apply Keeps.after (callVeCounters_keeps ..)
    | with_reducible apply Keeps.after (callSpecial_keeps ..)
    | with_reducible apply Keeps.after (callTableSet_keeps ..)
    | with_reducible apply Keeps.after (callWinogradBounds_keeps ..)
    | with_reducible apply Keeps.after (callNumTotals_keeps ..)
    | with_reducible apply Keeps.after (callScaleGuard_keeps ..)
    | with_reducible apply Keeps.after (callReadStats_keeps ..)
    | with_reducible apply Keeps.after (callWriteRescale_keeps ..)
    | with_reducible apply Keeps.after (callWindowBounds_keeps ..)
    | with_reducible apply Keeps.after (callNumId_keeps ..)
    | (with_reducible apply Keeps.fst; on_goal 1 => with_reducible assumption)
    | (with_reducible apply Keeps.snd; on_goal 1 => with_reducible assumption)
    | dsimp only
    | simp only []

theorem runCall_keeps (num : Nat) (ini : Nat) (args : List Word) (s : State) (res : State) : runCall num ini args s = some res → Keeps s res := by
  unfold runCall
  try dsimp only
  repeat' first
    | with_reducible exact Keeps.refl _
    | with_reducible assumption
    | (with_reducible apply Keeps.optAfter (call0E_keeps _ _ _ _); on_goal 1 => with_reducible assumption)
    | (with_reducible apply Keeps.optAfter (call0D_keeps _ _ _ _); on_goal 1 => with_reducible assumption)
    | (with_reducible apply Keeps.optAfter (call0C_keeps _ _ _ _); on_goal 1 => with_reducible assumption)
    | (with_reducible apply Keeps.optAfter (call0B_keeps _ _ _ _); on_goal 1 => with_reducible assumption)
    | (with_reducible apply Keeps.optAfter (call0A_keeps _ _ _ _); on_goal 1 => with_reducible assumption)
    | (with_reducible apply Keeps.optAfter (call09_keeps _ _ _ _); on_goal 1 => with_reducible assumption)
    | (with_reducible apply Keeps.optAfter (call08_keeps _ _ _ _); on_goal 1 => with_reducible assumption)
    | (with_reducible apply Keeps.optAfter (call07_keeps _ _ _ _); on_goal 1 => with_reducible assumption)
    | (with_reducible apply Keeps.optAfter (call06_keeps _ _ _ _); on_goal 1 => with_reducible assumption)
    | (with_reducible apply Keeps.optAfter (call05_keeps _ _ _ _); on_goal 1 => with_reducible assumption)
    | (with_reducible apply Keeps.optAfter (call04_keeps _ _ _ _); on_goal 1 => with_reducible assumption)
    | (with_reducible apply Keeps.optAfter (call03_keeps _ _ _ _); on_goal 1 => with_reducible assumption)
    | (with_reducible apply Keeps.optAfter (call02_keeps _ _ _ _); on_goal 1 => with_reducible assumption)
    | (with_reducible apply Keeps.optAfter (call01_keeps _ _ _ _); on_goal 1 => with_reducible assumption)
    | (with_reducible apply Keeps.optAfter (call00_keeps _ _ _ _); on_goal 1 => with_reducible assumption)
    | with_reducible exact Keeps.ofId _
    | with_reducible exact Keeps.ofNone
    | with_reducible refine Keeps.ofSome ?_
    | with_reducible refine Keeps.ofIte ?_ ?_
    | simp only [Keeps.upd_iff, Keeps.ite_iff, Keeps.ite_fst_iff, Keeps.ite_snd_iff]
    | with_reducible apply And.intro
    | split
    | intro _
    | (with_reducible apply Keeps.optAfter (call0E_keeps ..); on_goal 1 => with_reducible assumption)
    | (with_reducible apply Keeps.optAfter (call0D_keeps ..); on_goal 1 => with_reducible assumption)
    | (with_reducible apply Keeps.optAfter (call0C_keeps ..); on_goal 1 => with_reducible assumption)
    | (with_reducible apply Keeps.optAfter (call0B_keeps ..); on_goal 1 => with_reducible assumption)
    | (with_reducible apply Keeps.optAfter (call0A_keeps ..); on_goal 1 => with_reducible assumption)
    | (with_reducible apply Keeps.optAfter (call09_keeps ..); on_goal 1 => with_reducible assumption)
    | (with_reducible apply Keeps.optAfter (call08_keeps ..); on_goal 1 => with_reducible assumption)
    | (with_reducible apply Keeps.optAfter (call07_keeps ..); on_goal 1 => with_reducible assumption)
    | (with_reducible apply Keeps.optAfter (call06_keeps ..); on_goal 1 => with_reducible assumption)
    | (with_reducible apply Keeps.optAfter (call05_keeps ..); on_goal 1 => with_reducible assumption)
    | (with_reducible apply Keeps.optAfter (call04_keeps ..); on_goal 1 => with_reducible assumption)
    | (with_reducible apply Keeps.optAfter (call03_keeps ..); on_goal 1 => with_reducible assumption)
    | (with_reducible apply Keeps.optAfter (call02_keeps ..); on_goal 1 => with_reducible assumption)
    | (with_reducible apply Keeps.optAfter (call01_keeps ..); on_goal 1 => with_reducible assumption)
    | (with_reducible apply Keeps.optAfter (call00_keeps ..); on_goal 1 => with_reducible assumption)
    | (with_reducible apply Keeps.fst; on_goal 1 => with_reducible assumption)
    | (with_reducible apply Keeps.snd; on_goal 1 => with_reducible assumption)
    | dsimp only
    | simp only []

theorem State.mbArgs_keeps (s : State) (ch : Nat) (num : Nat) : Keeps s (s.mbArgs ch num).1 := by
  unfold State.mbArgs
  try dsimp only
  repeat' first
    | with_reducible exact Keeps.refl _
    | with_reducible assumption
    | with_reducible apply Keeps.cutRegs
    | with_reducible exact Keeps.ofId _
    | with_reducible exact Keeps.ofNone
    | with_reducible refine Keeps.ofSome ?_
    | with_reducible refine Keeps.ofIte ?_ ?_
    | simp only [Keeps.upd_iff, Keeps.ite_iff, Keeps.ite_fst_iff, Keeps.ite_snd_iff]
    | with_reducible apply And.intro
    | intro _
    | with_reducible apply Keeps.after (State.callRead_keeps ..)
    | (with_reducible apply Keeps.fst; on_goal 1 => with_reducible assumption)
    | (with_reducible apply Keeps.snd; on_goal 1 => with_reducible assumption)
    | split
    | dsimp only
    | simp only []

theorem State.mbSpill_keeps (s : State) (ch : Nat) (ws : List Word) : Keeps s (s.mbSpill ch ws).1 := by
  unfold State.mbSpill
  try dsimp only
  repeat' first
    | with_reducible exact Keeps.refl _
    | with_reducible assumption
    | with_reducible exact Keeps.ofId _
    | with_reducible exact Keeps.ofNone
    | with_reducible refine Keeps.ofSome ?_
    | with_reducible refine Keeps.ofIte ?_ ?_
    | simp only [Keeps.upd_iff, Keeps.ite_iff, Keeps.ite_fst_iff, Keeps.ite_snd_iff]
    | with_reducible apply And.intro
    | intro _
    | with_reducible apply Keeps.after (State.callWrite_keeps ..)
    | (with_reducible apply Keeps.fst; on_goal 1 => with_reducible assumption)
    | (with_reducible apply Keeps.snd; on_goal 1 => with_reducible assumption)
    | split
    | dsimp only
    | simp only []

theorem State.callGo_keeps (s : State) (ini : Nat) (ch : Nat) (v : Word) : Keeps s (s.callGo ini ch v) := by
  unfold State.callGo
  try dsimp only
  repeat' first
    | with_reducible exact Keeps.refl _
    | with_reducible assumption
    | with_reducible exact Keeps.ofId _
    | with_reducible exact Keeps.ofNone
    | with_reducible refine Keeps.ofSome ?_
    | with_reducible refine Keeps.ofIte ?_ ?_
    | simp only [Keeps.upd_iff, Keeps.ite_iff, Keeps.ite_fst_iff, Keeps.ite_snd_iff]
    | with_reducible apply And.intro
    | intro _
    | with_reducible apply Keeps.after (State.fwRefuse_keeps ..)
    | with_reducible apply Keeps.after (State.accError_keeps ..)
    | with_reducible apply Keeps.after (State.check_keeps ..)
    | with_reducible apply Keeps.after (State.wr_keeps ..)
    | with_reducible apply Keeps.after (State.setFlag_keeps ..)
    | with_reducible apply Keeps.after (State.wake_keeps ..)
    | (with_reducible apply Keeps.fst; on_goal 1 => with_reducible assumption)
    | (with_reducible apply Keeps.snd; on_goal 1 => with_reducible assumption)
    | split
    | dsimp only
    | simp only []

theorem State.runPosted_keeps (s : State) (ch : Nat) : Keeps s (s.runPosted ch).1 := by
  unfold State.runPosted
  try dsimp only
  repeat' first
    | with_reducible exact Keeps.refl _
    | with_reducible assumption
    | (with_reducible apply Keeps.optAfter (runCall_keeps _ _ _ _); on_goal 1 => with_reducible assumption)
    | with_reducible exact Keeps.ofId _
    | with_reducible exact Keeps.ofNone
    | with_reducible refine Keeps.ofSome ?_
    | with_reducible refine Keeps.ofIte ?_ ?_
    | simp only [Keeps.upd_iff, Keeps.ite_iff, Keeps.ite_fst_iff, Keeps.ite_snd_iff]
    | with_reducible apply And.intro
    | intro _
    | with_reducible apply Keeps.after (State.mbSpill_keeps ..)
    | with_reducible apply Keeps.after (State.mbArgs_keeps ..)
    | (with_reducible apply Keeps.optAfter (runCall_keeps ..); on_goal 1 => with_reducible assumption)
    | with_reducible apply Keeps.after (State.fresh_keeps ..)
    | (with_reducible apply Keeps.fst; on_goal 1 => with_reducible assumption)
    | (with_reducible apply Keeps.snd; on_goal 1 => with_reducible assumption)
    | split
    | dsimp only
    | simp only []

theorem State.mbReturn_keeps (s : State) (ch : Nat) (st : Nat) (ws : List Word) : Keeps s (s.mbReturn ch st ws) := by
  unfold State.mbReturn
  try dsimp only
  repeat' first
    | with_reducible exact Keeps.refl _
    | with_reducible assumption
    | with_reducible exact Keeps.ofId _
    | with_reducible exact Keeps.ofNone
    | with_reducible refine Keeps.ofSome ?_
    | with_reducible refine Keeps.ofIte ?_ ?_
    | simp only [Keeps.upd_iff, Keeps.ite_iff, Keeps.ite_fst_iff, Keeps.ite_snd_iff]
    | with_reducible apply And.intro
    | intro _
    | with_reducible apply Keeps.after (State.chanInt_keeps ..)
    | with_reducible apply Keeps.after (State.setFlag_keeps ..)
    | with_reducible apply Keeps.after (State.wr_keeps ..)
    | (with_reducible apply Keeps.fst; on_goal 1 => with_reducible assumption)
    | (with_reducible apply Keeps.snd; on_goal 1 => with_reducible assumption)
    | with_reducible apply Keeps.foldl
    | with_reducible apply Keeps.foldl_fst
    | with_reducible apply Keeps.foldl_snd
    | split
    | dsimp only
    | simp only []

theorem State.serve_keeps (s : State) : Keeps s s.serve := by
  unfold State.serve
  try dsimp only
  repeat' first
    | with_reducible exact Keeps.refl _
    | with_reducible assumption
    | with_reducible exact Keeps.ofId _
    | with_reducible exact Keeps.ofNone
    | with_reducible refine Keeps.ofSome ?_
    | with_reducible refine Keeps.ofIte ?_ ?_
    | simp only [Keeps.upd_iff, Keeps.ite_iff, Keeps.ite_fst_iff, Keeps.ite_snd_iff]
    | with_reducible apply And.intro
    | intro _
    | with_reducible apply Keeps.after (State.mbReturn_keeps ..)
    | with_reducible apply Keeps.after (State.runPosted_keeps ..)
    | (with_reducible apply Keeps.fst; on_goal 1 => with_reducible assumption)
    | (with_reducible apply Keeps.snd; on_goal 1 => with_reducible assumption)
    | split
    | dsimp only
    | simp only []

theorem State.callDone_keeps (s : State) : Keeps s s.callDone := by
  unfold State.callDone
  try dsimp only
  repeat' first
    | with_reducible exact Keeps.refl _
    | with_reducible assumption
    | with_reducible exact Keeps.ofId _
    | with_reducible exact Keeps.ofNone
    | with_reducible refine Keeps.ofSome ?_
    | with_reducible refine Keeps.ofIte ?_ ?_
    | simp only [Keeps.upd_iff, Keeps.ite_iff, Keeps.ite_fst_iff, Keeps.ite_snd_iff]
    | with_reducible apply And.intro
    | intro _
    | with_reducible apply Keeps.after (State.wr_keeps ..)
    | with_reducible apply Keeps.after (State.setFlag_keeps ..)
    | with_reducible apply Keeps.after (State.chanInt_keeps ..)
    | with_reducible apply Keeps.after (State.postIni_keeps ..)
    | (with_reducible apply Keeps.fst; on_goal 1 => with_reducible assumption)
    | (with_reducible apply Keeps.snd; on_goal 1 => with_reducible assumption)
    | with_reducible apply Keeps.foldl
    | with_reducible apply Keeps.foldl_fst
    | with_reducible apply Keeps.foldl_snd
    | split
    | dsimp only
    | simp only []

theorem State.answer_keeps (s : State) (w : Word) : Keeps s (s.answer w) := by
  unfold State.answer
  try dsimp only
  repeat' first
    | with_reducible exact Keeps.refl _
    | with_reducible assumption
    | with_reducible exact Keeps.ofId _
    | with_reducible exact Keeps.ofNone
    | with_reducible refine Keeps.ofSome ?_
    | with_reducible refine Keeps.ofIte ?_ ?_
    | simp only [Keeps.upd_iff, Keeps.ite_iff, Keeps.ite_fst_iff, Keeps.ite_snd_iff]
    | with_reducible apply And.intro
    | intro _
    | (with_reducible apply Keeps.fst; on_goal 1 => with_reducible assumption)
    | (with_reducible apply Keeps.snd; on_goal 1 => with_reducible assumption)
    | split
    | dsimp only
    | simp only []

theorem State.doneRead_keeps (s : State) (ch : Nat) : Keeps s (s.doneRead ch).2 := by
  unfold State.doneRead
  try dsimp only
  repeat' first
    | with_reducible exact Keeps.refl _
    | with_reducible assumption
    | with_reducible exact Keeps.ofId _
    | with_reducible exact Keeps.ofNone
    | with_reducible refine Keeps.ofSome ?_
    | with_reducible refine Keeps.ofIte ?_ ?_
    | simp only [Keeps.upd_iff, Keeps.ite_iff, Keeps.ite_fst_iff, Keeps.ite_snd_iff]
    | with_reducible apply And.intro
    | intro _
    | with_reducible apply Keeps.after (State.setFlag_keeps ..)
    | with_reducible apply Keeps.after (State.wr_keeps ..)
    | (with_reducible apply Keeps.fst; on_goal 1 => with_reducible assumption)
    | (with_reducible apply Keeps.snd; on_goal 1 => with_reducible assumption)
    | split
    | dsimp only
    | simp only []

theorem State.statusRead_keeps (s : State) (ch : Nat) : Keeps s (s.statusRead ch).2 := by
  unfold State.statusRead
  try dsimp only
  repeat' first
    | with_reducible exact Keeps.refl _
    | with_reducible assumption
    | with_reducible exact Keeps.ofId _
    | with_reducible exact Keeps.ofNone
    | with_reducible refine Keeps.ofSome ?_
    | with_reducible refine Keeps.ofIte ?_ ?_
    | simp only [Keeps.upd_iff, Keeps.ite_iff, Keeps.ite_fst_iff, Keeps.ite_snd_iff]
    | with_reducible apply And.intro
    | intro _
    | with_reducible apply Keeps.after (State.setFlag_keeps ..)
    | (with_reducible apply Keeps.fst; on_goal 1 => with_reducible assumption)
    | (with_reducible apply Keeps.snd; on_goal 1 => with_reducible assumption)
    | split
    | dsimp only
    | simp only []

theorem State.chanRead_keeps (s : State) (ini : Nat) (ch : Nat) (off : Nat) (f : State → Nat → Word × State) (hf : ∀ s x1, Keeps s (f s x1).2) : Keeps s (s.chanRead ini ch off f) := by
  unfold State.chanRead
  try dsimp only
  repeat' first
    | with_reducible exact Keeps.refl _
    | with_reducible assumption
    | with_reducible exact Keeps.ofId _
    | with_reducible exact Keeps.ofNone
    | with_reducible refine Keeps.ofSome ?_
    | with_reducible refine Keeps.ofIte ?_ ?_
    | simp only [Keeps.upd_iff, Keeps.ite_iff, Keeps.ite_fst_iff, Keeps.ite_snd_iff]
    | with_reducible apply And.intro
    | intro _
    | with_reducible apply Keeps.after (State.fwRefuse_keeps ..)
    | with_reducible apply Keeps.after (hf _ _)
    | with_reducible apply Keeps.after (State.answer_keeps ..)
    | with_reducible apply Keeps.after (State.accError_keeps ..)
    | (with_reducible apply Keeps.fst; on_goal 1 => with_reducible assumption)
    | (with_reducible apply Keeps.snd; on_goal 1 => with_reducible assumption)
    | split
    | dsimp only
    | simp only []

end Sys2Proof.Machine
end

