-- ==== Sys2Proof/Laws/KeepsExec.lean ====
section
/-! SUPPORT. What every command keeps: the queue, the fuses, the part, the canonical form of the stores. -/
namespace Sys2Proof.Machine
theorem execAxWrite_keeps (h : AxHead) (addr : Nat) (len : Nat) (data : List Byte) (late : Bool) (s : State) (t : State) (h : execAxWrite h addr len data late s = .next t) : Keeps s t := by
  cases h
  try dsimp only
  repeat' first
    | with_reducible exact Keeps.refl _
    | with_reducible apply Keeps.after (State.slotIn_keeps ..)
    | with_reducible apply Keeps.after (State.axWriteIn_keeps ..)
    | with_reducible apply Keeps.foldl
    | intro _
    | with_reducible apply Keeps.after (State.cameIn_keeps ..)
    | split
    | simp only [Keeps.upd_iff, Keeps.ite_iff]
theorem execAxMsignal_keeps (h : AxHead) (mark : Nat) (value : Nat) (late : Bool) (s : State) (t : State) (h : execAxMsignal h mark value late s = .next t) : Keeps s t := by
  cases h
  try dsimp only
  repeat' first
    | with_reducible exact Keeps.refl _
    | with_reducible apply Keeps.after (State.slotIn_keeps ..)
    | with_reducible apply Keeps.after (State.axMarkIn_keeps ..)
    | with_reducible apply Keeps.foldl
    | intro _
    | split
    | simp only [Keeps.upd_iff, Keeps.ite_iff]
theorem execAxMadd_keeps (h : AxHead) (mark : Nat) (value : Nat) (late : Bool) (s : State) (t : State) (h : execAxMadd h mark value late s = .next t) : Keeps s t := by
  cases h
  try dsimp only
  repeat' first
    | with_reducible exact Keeps.refl _
    | with_reducible apply Keeps.after (State.slotIn_keeps ..)
    | with_reducible apply Keeps.after (State.axMarkIn_keeps ..)
    | with_reducible apply Keeps.foldl
    | intro _
    | split
    | simp only [Keeps.upd_iff, Keeps.ite_iff]
theorem execAxCreditReq_keeps (h : AxHead) (addr : Nat) (kib : Nat) (late : Bool) (s : State) (t : State) (h : execAxCreditReq h addr kib late s = .next t) : Keeps s t := by
  cases h
  try dsimp only
  repeat' first
    | with_reducible exact Keeps.refl _
    | with_reducible apply Keeps.after (State.slotIn_keeps ..)
    | with_reducible apply Keeps.after (State.creditReq_keeps ..)
    | with_reducible apply Keeps.foldl
    | intro _
    | split
    | simp only [Keeps.upd_iff, Keeps.ite_iff]
theorem execAxCreditReturn_keeps (h : AxHead) (addr : Nat) (kib : Nat) (late : Bool) (s : State) (t : State) (h : execAxCreditReturn h addr kib late s = .next t) : Keeps s t := by
  cases h
  try dsimp only
  repeat' first
    | with_reducible exact Keeps.refl _
    | with_reducible apply Keeps.after (State.slotIn_keeps ..)
    | with_reducible apply Keeps.after (State.creditBack_keeps ..)
    | with_reducible apply Keeps.after (State.nack_keeps ..)
    | with_reducible apply Keeps.foldl
    | intro _
    | split
    | simp only [Keeps.upd_iff, Keeps.ite_iff]
theorem execAxCreditGrant_keeps (h : AxHead) (addr : Nat) (kib : Nat) (s : State) (t : State) (h : execAxCreditGrant h addr kib s = .next t) : Keeps s t := by
  cases h
  try dsimp only
  repeat' first
    | with_reducible exact Keeps.refl _
    | with_reducible apply Keeps.after (State.slotIn_keeps ..)
    | with_reducible apply Keeps.after (State.granted_keeps ..)
    | with_reducible apply Keeps.foldl
    | intro _
    | split
    | simp only [Keeps.upd_iff, Keeps.ite_iff]
theorem execAxAck_keeps (h : AxHead) (tagDone : Nat) (s : State) (t : State) (h : execAxAck h tagDone s = .next t) : Keeps s t := by
  cases h
  try dsimp only
  repeat' first
    | with_reducible exact Keeps.refl _
    | with_reducible apply Keeps.after (State.slotIn_keeps ..)
    | with_reducible apply Keeps.after (State.acked_keeps ..)
    | with_reducible apply Keeps.foldl
    | intro _
    | split
    | simp only [Keeps.upd_iff, Keeps.ite_iff]
theorem execAxNack_keeps (h : AxHead) (tagBad : Nat) (cause : Nat) (s : State) (t : State) (h : execAxNack h tagBad cause s = .next t) : Keeps s t := by
  cases h
  try dsimp only
  repeat' first
    | with_reducible exact Keeps.refl _
    | with_reducible apply Keeps.after (State.slotIn_keeps ..)
    | with_reducible apply Keeps.after (State.nacked_keeps ..)
    | with_reducible apply Keeps.foldl
    | intro _
    | split
    | simp only [Keeps.upd_iff, Keeps.ite_iff]
theorem execLinkAckTimeout_keeps (pos : Nat) (stream : Nat) (tag : Nat) (s : State) (t : State) (h : execLinkAckTimeout pos stream tag s = .next t) : Keeps s t := by cases h; exact State.ackTimeout_keeps ..
theorem execAxFlitCrcError_keeps (port : Nat) (lanes : Nat) (again : Bool) (came : List (Nat × Nat)) (s : State) (t : State) (h : execAxFlitCrcError port lanes again came s = .next t) : Keeps s t := by cases h; exact State.crcError_keeps ..
theorem execHopDown_keeps (port : Nat) (hop : Nat) (cause : Nat) (s : State) (t : State) (h : execHopDown port hop cause s = .next t) : Keeps s t := by
  cases h
  try dsimp only
  repeat' first
    | with_reducible exact Keeps.refl _
    | with_reducible apply Keeps.after (State.portLost_keeps ..)
    | with_reducible apply Keeps.after (State.hopLost_keeps ..)
    | with_reducible apply Keeps.foldl
    | intro _
    | split
    | simp only [Keeps.upd_iff, Keeps.ite_iff]
theorem execRetrainDone_keeps (port : Nat) (good : Nat) (rtt : Nat) (s : State) (t : State) (h : execRetrainDone port good rtt s = .next t) : Keeps s t := by cases h; exact State.trained_keeps ..
theorem execAxIdleEntry_keeps (port : Nat) (s : State) (t : State) (h : execAxIdleEntry port s = .next t) : Keeps s t := by cases h; exact State.axIdle_keeps ..
theorem execWakePatternDetect_keeps (port : Nat) (s : State) (t : State) (h : execWakePatternDetect port s = .next t) : Keeps s t := by cases h; exact State.wakePattern_keeps ..
theorem execRerouteDone_keeps (s : State) (t : State) (h : execRerouteDone s = .next t) : Keeps s t := by cases h; exact State.rerouted_keeps ..
theorem execAxCtlFlit_keeps (port : Nat) (ack : Nat) (bufs : List Nat) (nak : Option Nat) (lanes : Nat) (width : Nat) (ringId : Nat) (npos : Nat) (pos : Nat) (formed : Bool) (twice : Bool) (fp : Nat) (seen : List Nat) (s : State) (t : State) (h : execAxCtlFlit port ack bufs nak lanes width ringId npos pos formed twice fp seen s = .next t) : Keeps s t := by cases h; exact State.ctlIn_keeps ..
theorem execRingFormed_keeps (bonds : Nat) (s : State) (t : State) (h : execRingFormed bonds s = .next t) : Keeps s t := by cases h; exact State.ringFormed_keeps ..
theorem execFormRing_keeps (a0 : Nat) (args : List Word) (s : State) (t : State) (h : execFormRing a0 args s = .next t) : Keeps s t := by cases h; exact callFormRing_keeps ..
theorem execRingDissolved_keeps (s : State) (t : State) (h : execRingDissolved s = .next t) : Keeps s t := by cases h; exact State.ringDissolved_keeps ..
theorem execDissolveRing_keeps (a0 : Nat) (a1 : List Word) (s : State) (t : State) (h : execDissolveRing a0 a1 s = .next t) : Keeps s t := by cases h; exact callDissolveRing_keeps ..
theorem execReadRing_keeps (a0 : Nat) (a1 : List Word) (s : State) (t : State) (h : execReadRing a0 a1 s = .next t) : Keeps s t := by cases h; exact callReadRing_keeps ..
theorem execReadPort_keeps (a0 : Nat) (args : List Word) (s : State) (t : State) (h : execReadPort a0 args s = .next t) : Keeps s t := by cases h; exact callReadPort_keeps ..
theorem execConfigurePort_keeps (a0 : Nat) (args : List Word) (s : State) (t : State) (h : execConfigurePort a0 args s = .next t) : Keeps s t := by cases h; exact callConfigurePort_keeps ..
theorem execSendWake_keeps (a0 : Nat) (args : List Word) (s : State) (t : State) (h : execSendWake a0 args s = .next t) : Keeps s t := by cases h; exact callSendWake_keeps ..
theorem execSetRingLimits_keeps (a0 : Nat) (args : List Word) (s : State) (t : State) (h : execSetRingLimits a0 args s = .next t) : Keeps s t := by cases h; exact callRingLimits_keeps ..
theorem execRemoteMarkOperation_keeps (a0 : Nat) (args : List Word) (s : State) (t : State) (h : execRemoteMarkOperation a0 args s = .next t) : Keeps s t := by cases h; exact callRemoteMark_keeps ..
theorem execRegisterWrite_keeps (ini : Nat) (addr : Nat) (width : Nat) (value : Nat) (s : State) (t : State) (h : execRegisterWrite ini addr width value s = .next t) : Keeps s t := by
  cases h
  try dsimp only
  repeat' first
    | with_reducible exact Keeps.refl _
    | with_reducible apply Keeps.after (State.chanWrite_keeps ..)
    | with_reducible apply Keeps.after (State.accError_keeps ..)
    | with_reducible apply Keeps.after (State.bus_keeps ..)
    | with_reducible apply Keeps.foldl
    | intro _
    | split
    | simp only [Keeps.upd_iff, Keeps.ite_iff]
theorem execPcieRequest_keeps (kind : Nat) (fn : Nat) (bar : Nat) (off : Nat) (n : Nat) (data : List Byte) (s : State) (t : State) (h : execPcieRequest kind fn bar off n data s = .next t) : Keeps s t := by cases h; exact State.pcieRequest_keeps ..
theorem execSdioCommand_keeps (write : Bool) (fn : Nat) (off : Nat) (n : Nat) (fixed : Bool) (data : List Byte) (s : State) (t : State) (h : execSdioCommand write fn off n fixed data s = .next t) : Keeps s t := by cases h; exact State.sdioCommand_keeps ..
theorem execCanObjReq_keeps (ini : Nat) (c : Nat) (o : Nat) (value : Nat) (s : State) (t : State) (h : execCanObjReq ini c o value s = .next t) : Keeps s t := by
  cases h
  try dsimp only
  repeat' first
    | with_reducible exact Keeps.refl _
    | with_reducible apply Keeps.after (State.guarded_keeps ..)
    | with_reducible apply Keeps.after (State.objCtlWrite_keeps ..)
    | with_reducible apply Keeps.foldl
    | intro _
    | split
    | simp only [Keeps.upd_iff, Keeps.ite_iff]
theorem execCanFrameReceive_keeps (c : Nat) (ide : Bool) (rtr : Bool) (fdf : Bool) (brs : Bool) (esi : Bool) (id : Nat) (dlc : Nat) (sof : Nat) (data : List Word) (s : State) (t : State) (h : execCanFrameReceive c ide rtr fdf brs esi id dlc sof data s = .next t) : Keeps s t := by cases h; exact State.canReceive_keeps ..
theorem execCanTxDone_keeps (c : Nat) (sof : Nat) (s : State) (t : State) (h : execCanTxDone c sof s = .next t) : Keeps s t := by cases h; exact State.canSent_keeps ..
theorem execCanBusError_keeps (c : Nat) (err : Nat) (tec : Nat) (rec : Nat) (tx : Bool) (s : State) (t : State) (h : execCanBusError c err tec rec tx s = .next t) : Keeps s t := by cases h; exact State.canError_keeps ..
theorem execCanTxLateExpiry_keeps (c : Nat) (o : Nat) (s : State) (t : State) (h : execCanTxLateExpiry c o s = .next t) : Keeps s t := by
  cases h
  try dsimp only
  repeat' first
    | with_reducible exact Keeps.refl _
    | with_reducible apply Keeps.after (State.canLate_keeps ..)
    | with_reducible apply Keeps.foldl
    | intro _
    | split
    | simp only [Keeps.upd_iff, Keeps.ite_iff]
theorem execCnCmdRecover_keeps (ini : Nat) (c : Nat) (s : State) (t : State) (h : execCnCmdRecover ini c s = .next t) : Keeps s t := by
  cases h
  try dsimp only
  repeat' first
    | with_reducible exact Keeps.refl _
    | with_reducible apply Keeps.after (State.guarded_keeps ..)
    | with_reducible apply Keeps.after (State.orRefuse_keeps ..)
    | with_reducible apply Keeps.after (State.canRecover_keeps ..)
    | with_reducible apply Keeps.foldl
    | intro _
    | split
    | simp only [Keeps.upd_iff, Keeps.ite_iff]
theorem execCanRecoveryDone_keeps (c : Nat) (s : State) (t : State) (h : execCanRecoveryDone c s = .next t) : Keeps s t := by cases h; exact State.canRecovered_keeps ..
theorem execCnCmdAbort_keeps (ini : Nat) (c : Nat) (o : Nat) (s : State) (t : State) (h : execCnCmdAbort ini c o s = .next t) : Keeps s t := by
  cases h
  try dsimp only
  repeat' first
    | with_reducible exact Keeps.refl _
    | with_reducible apply Keeps.after (State.guarded_keeps ..)
    | with_reducible apply Keeps.after (State.canAbort_keeps ..)
    | with_reducible apply Keeps.foldl
    | intro _
    | split
    | simp only [Keeps.upd_iff, Keeps.ite_iff]
theorem execReadCanObject_keeps (a0 : Nat) (args : List Word) (s : State) (t : State) (h : execReadCanObject a0 args s = .next t) : Keeps s t := by cases h; exact callReadCanObject_keeps ..
theorem execConfigureCanController_keeps (ini : Nat) (args : List Word) (s : State) (t : State) (h : execConfigureCanController ini args s = .next t) : Keeps s t := by cases h; exact callConfigureCan_keeps ..
theorem execWriteCanObject_keeps (ini : Nat) (args : List Word) (s : State) (t : State) (h : execWriteCanObject ini args s = .next t) : Keeps s t := by cases h; exact callWriteCanObject_keeps ..
theorem execRecoverCanController_keeps (ini : Nat) (args : List Word) (s : State) (t : State) (h : execRecoverCanController ini args s = .next t) : Keeps s t := by cases h; exact callRecoverCan_keeps ..
theorem execDeviceInformation_keeps (a0 : Nat) (a1 : List Word) (s : State) (t : State) (h : execDeviceInformation a0 a1 s = .next t) : Keeps s t := by cases h; exact callDeviceInfo_keeps ..
theorem execClaimUnit_keeps (ini : Nat) (args : List Word) (s : State) (t : State) (h : execClaimUnit ini args s = .next t) : Keeps s t := by cases h; exact callClaim_keeps ..
theorem execReleaseUnit_keeps (ini : Nat) (args : List Word) (s : State) (t : State) (h : execReleaseUnit ini args s = .next t) : Keeps s t := by cases h; exact callRelease_keeps ..
theorem execRateWindowEnd_keeps (m : Nat) (count : Nat) (off : Bool) (s : State) (t : State) (h : execRateWindowEnd m count off s = .next t) : Keeps s t := by
  cases h
  try dsimp only
  repeat' first
    | with_reducible exact Keeps.refl _
    | with_reducible apply Keeps.after (State.rateWindow_keeps ..)
    | with_reducible apply Keeps.after (State.count_keeps ..)
    | with_reducible apply Keeps.foldl
    | intro _
    | split
    | simp only [Keeps.upd_iff, Keeps.ite_iff]
theorem execReadRateMonitors_keeps (a0 : Nat) (a1 : List Word) (s : State) (t : State) (h : execReadRateMonitors a0 a1 s = .next t) : Keeps s t := by cases h; exact callRates_keeps ..
theorem execUcbRequestDrain_keeps (ini : Nat) (u : Nat) (s : State) (t : State) (h : execUcbRequestDrain ini u s = .next t) : Keeps s t := by cases h; exact State.ucbRequest_keeps ..
theorem execUcbRequestTest_keeps (ini : Nat) (u : Nat) (s : State) (t : State) (h : execUcbRequestTest ini u s = .next t) : Keeps s t := by cases h; exact State.ucbRequest_keeps ..
theorem execUcbRequestReadmit_keeps (ini : Nat) (u : Nat) (s : State) (t : State) (h : execUcbRequestReadmit ini u s = .next t) : Keeps s t := by cases h; exact State.ucbRequest_keeps ..
theorem execReadUnitControlBlock_keeps (a0 : Nat) (args : List Word) (s : State) (t : State) (h : execReadUnitControlBlock a0 args s = .next t) : Keeps s t := by cases h; exact callReadUcb_keeps ..
theorem execRequestUnitState_keeps (ini : Nat) (args : List Word) (s : State) (t : State) (h : execRequestUnitState ini args s = .next t) : Keeps s t := by cases h; exact callRequestState_keeps ..
theorem execListUnits_keeps (a0 : Nat) (args : List Word) (s : State) (t : State) (h : execListUnits a0 args s = .next t) : Keeps s t := by cases h; exact callListUnits_keeps ..
theorem execEthFrameSent_keeps (p : Nat) (s : State) (t : State) (h : execEthFrameSent p s = .next t) : Keeps s t := by cases h; exact State.ethSent_keeps ..
theorem execQbvGateEntryEnd_keeps (p : Nat) (s : State) (t : State) (h : execQbvGateEntryEnd p s = .next t) : Keeps s t := by cases h; exact State.ethKick_keeps ..
theorem execQbvSwap_keeps (ini : Nat) (p : Nat) (value : Nat) (s : State) (t : State) (h : execQbvSwap ini p value s = .next t) : Keeps s t := by
  cases h
  try dsimp only
  repeat' first
    | with_reducible exact Keeps.refl _
    | with_reducible apply Keeps.after (State.guarded_keeps ..)
    | with_reducible apply Keeps.after (State.qbvCtl_keeps ..)
    | with_reducible apply Keeps.foldl
    | intro _
    | split
    | simp only [Keeps.upd_iff, Keeps.ite_iff]
theorem execAxisFramePartialSend_keeps (f : Nat) (s : State) (t : State) (h : execAxisFramePartialSend f s = .next t) : Keeps s t := by cases h; exact State.txPartial_keeps ..
theorem execAxisFrameReceive_keeps (p : Nat) (src : Nat) (group : Nat) (kind : Nat) (words : List Word) (s : State) (t : State) (h : execAxisFrameReceive p src group kind words s = .next t) : Keeps s t := by cases h; exact State.axisReceive_keeps ..
theorem execAxisFrameStale_keeps (f : Nat) (s : State) (t : State) (h : execAxisFrameStale f s = .next t) : Keeps s t := by
  cases h
  try dsimp only
  repeat' first
    | with_reducible exact Keeps.refl _
    | with_reducible apply Keeps.after (State.setFlag_keeps ..)
    | with_reducible apply Keeps.foldl
    | intro _
    | split
    | simp only [Keeps.upd_iff, Keeps.ite_iff]
theorem execEthFrameReceive_keeps (p : Nat) (data : List Byte) (good : Bool) (stack : Nat) (master : Nat) (offset : Nat) (delay : Nat) (s : State) (t : State) (h : execEthFrameReceive p data good stack master offset delay s = .next t) : Keeps s t := by cases h; exact State.ethReceive_keeps ..
theorem execEthLinkChange_keeps (p : Nat) (up : Bool) (s : State) (t : State) (h : execEthLinkChange p up s = .next t) : Keeps s t := by cases h; exact State.ethLink_keeps ..
theorem execConfigureGeneralRings_keeps (a0 : Nat) (args : List Word) (s : State) (t : State) (h : execConfigureGeneralRings a0 args s = .next t) : Keeps s t := by cases h; exact callConfigureRings_keeps ..
theorem execFaultDetected_keeps (unit : Nat) (code : Nat) (addr : Nat) (d0 : Nat) (d1 : Nat) (x : Option Ctx) (s : State) (t : State) (h : execFaultDetected unit code addr d0 d1 x s = .next t) : Keeps s t := by cases h; exact State.detect_keeps ..
theorem execProcWatchdogBite_keeps (u : Nat) (s : State) (t : State) (h : execProcWatchdogBite u s = .next t) : Keeps s t := by cases h; exact State.procBite_keeps ..
theorem execMpTakeover_keeps (s : State) (t : State) (h : execMpTakeover s = .next t) : Keeps s t := by cases h; exact State.mpTakeover_keeps ..
theorem execSpTakeover_keeps (s : State) (t : State) (h : execSpTakeover s = .next t) : Keeps s t := by
  cases h
  try dsimp only
  repeat' first
    | with_reducible exact Keeps.refl _
    | with_reducible apply Keeps.foldl
    | intro _
    | split
    | simp only [Keeps.upd_iff, Keeps.ite_iff]
theorem execTempSample_keeps (temps : List Int) (s : State) (t : State) (h : execTempSample temps s = .next t) : Keeps s t := by cases h; exact State.tempSample_keeps ..
theorem execRailOutOfRange_keeps (rail : Nat) (back : Bool) (s : State) (t : State) (h : execRailOutOfRange rail back s = .next t) : Keeps s t := by cases h; exact State.railOut_keeps ..
theorem execPmbusAlert_keeps (s : State) (t : State) (h : execPmbusAlert s = .next t) : Keeps s t := by
  cases h
  try dsimp only
  repeat' first
    | with_reducible exact Keeps.refl _
    | with_reducible apply Keeps.after (State.stepDone_keeps ..)
    | with_reducible apply Keeps.after (State.railFault_keeps ..)
    | with_reducible apply Keeps.foldl
    | intro _
    | split
    | simp only [Keeps.upd_iff, Keeps.ite_iff]
theorem execTransientWindowEnd_keeps (s : State) (t : State) (h : execTransientWindowEnd s = .next t) : Keeps s t := by cases h; exact State.hourEnd_keeps ..
theorem execLpddrScrub_keeps (m : Nat) (ce : Nat) (ues : List Nat) (s : State) (t : State) (h : execLpddrScrub m ce ues s = .next t) : Keeps s t := by cases h; exact State.lpScrub_keeps ..
theorem execReadFaultStatus_keeps (a0 : Nat) (a1 : List Word) (s : State) (t : State) (h : execReadFaultStatus a0 a1 s = .next t) : Keeps s t := by cases h; exact callFaultStatus_keeps ..
theorem execReadFaultRecords_keeps (a0 : Nat) (args : List Word) (s : State) (t : State) (h : execReadFaultRecords a0 args s = .next t) : Keeps s t := by cases h; exact callFaultRecords_keeps ..
theorem execAcknowledgeRecords_keeps (a0 : Nat) (args : List Word) (s : State) (t : State) (h : execAcknowledgeRecords a0 args s = .next t) : Keeps s t := by cases h; exact callAckRecords_keeps ..
theorem execSetFaultOptions_keeps (a0 : Nat) (args : List Word) (s : State) (t : State) (h : execSetFaultOptions a0 args s = .next t) : Keeps s t := by cases h; exact callFaultOptions_keeps ..
theorem execReadUnitHealth_keeps (a0 : Nat) (args : List Word) (s : State) (t : State) (h : execReadUnitHealth a0 args s = .next t) : Keeps s t := by cases h; exact callUnitHealth_keeps ..
theorem execReadSpares_keeps (a0 : Nat) (a1 : List Word) (s : State) (t : State) (h : execReadSpares a0 a1 s = .next t) : Keeps s t := by cases h; exact callSpares_keeps ..
theorem execInjectFault_keeps (ini : Nat) (args : List Word) (s : State) (t : State) (h : execInjectFault ini args s = .next t) : Keeps s t := by cases h; exact callInject_keeps ..
theorem execReadFaultCounters_keeps (a0 : Nat) (a1 : List Word) (s : State) (t : State) (h : execReadFaultCounters a0 a1 s = .next t) : Keeps s t := by cases h; exact callFaultCounters_keeps ..
theorem execGaugeClaimClaim_keeps (ini : Nat) (kind : Nat) (idx : Nat) (n : Nat) (s : State) (t : State) (h : execGaugeClaimClaim ini kind idx n s = .next t) : Keeps s t := by cases h; exact State.gaugeClaim_keeps ..
theorem execGaugeClaimRelease_keeps (ini : Nat) (kind : Nat) (idx : Nat) (n : Nat) (s : State) (t : State) (h : execGaugeClaimRelease ini kind idx n s = .next t) : Keeps s t := by cases h; exact State.gaugeClaim_keeps ..
theorem execCmpTargetCommit_keeps (ini : Nat) (n : Nat) (value : Nat) (s : State) (t : State) (h : execCmpTargetCommit ini n value s = .next t) : Keeps s t := by cases h; exact State.cmpTargetCommit_keeps ..
theorem execSlewStep_keeps (s : State) (t : State) (h : execSlewStep s = .next t) : Keeps s t := by cases h; exact State.slewStep_keeps ..
theorem execIncrWrite_keeps (ini : Nat) (value : Nat) (s : State) (t : State) (h : execIncrWrite ini value s = .next t) : Keeps s t := by
  cases h
  try dsimp only
  repeat' first
    | with_reducible exact Keeps.refl _
    | with_reducible apply Keeps.after (State.guarded_keeps ..)
    | with_reducible apply Keeps.after (State.wr_keeps ..)
    | with_reducible apply Keeps.foldl
    | intro _
    | split
    | simp only [Keeps.upd_iff, Keeps.ite_iff]
theorem execAdjCtlSlew_keeps (ini : Nat) (force : Bool) (s : State) (t : State) (h : execAdjCtlSlew ini force s = .next t) : Keeps s t := by
  cases h
  try dsimp only
  repeat' first
    | with_reducible exact Keeps.refl _
    | with_reducible apply Keeps.after (State.adjCtl_keeps ..)
    | with_reducible apply Keeps.after (State.slewBy_keeps ..)
    | with_reducible apply Keeps.foldl
    | intro _
    | split
    | simp only [Keeps.upd_iff, Keeps.ite_iff]
theorem execAdjCtlCancelSlew_keeps (ini : Nat) (s : State) (t : State) (h : execAdjCtlCancelSlew ini s = .next t) : Keeps s t := by
  cases h
  try dsimp only
  repeat' first
    | with_reducible exact Keeps.refl _
    | with_reducible apply Keeps.after (State.adjCtl_keeps ..)
    | with_reducible apply Keeps.after (State.wr_keeps ..)
    | with_reducible apply Keeps.after (State.slewDone_keeps ..)
    | with_reducible apply Keeps.foldl
    | intro _
    | split
    | simp only [Keeps.upd_iff, Keeps.ite_iff]
theorem execAdjCtlStep_keeps (ini : Nat) (force : Bool) (s : State) (t : State) (h : execAdjCtlStep ini force s = .next t) : Keeps s t := by
  cases h
  try dsimp only
  repeat' first
    | with_reducible exact Keeps.refl _
    | with_reducible apply Keeps.after (State.adjCtl_keeps ..)
    | with_reducible apply Keeps.after (State.orRefuse_keeps ..)
    | with_reducible apply Keeps.after (State.stepBy_keeps ..)
    | with_reducible apply Keeps.foldl
    | intro _
    | split
    | simp only [Keeps.upd_iff, Keeps.ite_iff]
theorem execSetCtlGo_keeps (ini : Nat) (force : Bool) (s : State) (t : State) (h : execSetCtlGo ini force s = .next t) : Keeps s t := by
  cases h
  try dsimp only
  repeat' first
    | with_reducible exact Keeps.refl _
    | with_reducible apply Keeps.after (State.guarded_keeps ..)
    | with_reducible apply Keeps.after (State.orRefuse_keeps ..)
    | with_reducible apply Keeps.after (State.setTo_keeps ..)
    | with_reducible apply Keeps.foldl
    | intro _
    | split
    | simp only [Keeps.upd_iff, Keeps.ite_iff]
theorem execRefclkLoss_keeps (s : State) (t : State) (h : execRefclkLoss s = .next t) : Keeps s t := by cases h; exact State.refLoss_keeps ..
theorem execRefclkRestore_keeps (s : State) (t : State) (h : execRefclkRestore s = .next t) : Keeps s t := by cases h; exact State.setFlag_keeps ..
theorem execPulseEnd_keeps (n : Nat) (s : State) (t : State) (h : execPulseEnd n s = .next t) : Keeps s t := by
  cases h
  try dsimp only
  repeat' first
    | with_reducible exact Keeps.refl _
    | with_reducible apply Keeps.after (State.pulseTo_keeps ..)
    | with_reducible apply Keeps.foldl
    | intro _
    | split
    | simp only [Keeps.upd_iff, Keeps.ite_iff]
theorem execCaptureEdge_keeps (ball : Nat) (rising : Bool) (s : State) (t : State) (h : execCaptureEdge ball rising s = .next t) : Keeps s t := by
  cases h
  try dsimp only
  repeat' first
    | with_reducible exact Keeps.refl _
    | with_reducible apply Keeps.after (State.capture_keeps ..)
    | with_reducible apply Keeps.foldl
    | intro _
    | split
    | simp only [Keeps.upd_iff, Keeps.ite_iff]
theorem execCapNsRead_keeps (ini : Nat) (n : Nat) (s : State) (t : State) (h : execCapNsRead ini n s = .next t) : Keeps s t := by
  cases h
  try dsimp only
  repeat' first
    | with_reducible exact Keeps.refl _
    | with_reducible apply Keeps.after (State.capRead_keeps ..)
    | with_reducible apply Keeps.after (State.fwRefuse_keeps ..)
    | with_reducible apply Keeps.foldl
    | intro _
    | split
    | simp only [Keeps.upd_iff, Keeps.ite_iff]
theorem execReadTime_keeps (a0 : Nat) (a1 : List Word) (s : State) (t : State) (h : execReadTime a0 a1 s = .next t) : Keeps s t := by cases h; exact callReadTime_keeps ..
theorem execAdjustTime_keeps (ini : Nat) (args : List Word) (s : State) (t : State) (h : execAdjustTime ini args s = .next t) : Keeps s t := by cases h; exact callAdjustTime_keeps ..
theorem execSetIncrement_keeps (ini : Nat) (args : List Word) (s : State) (t : State) (h : execSetIncrement ini args s = .next t) : Keeps s t := by cases h; exact callSetIncrement_keeps ..
theorem execClaimOrReleaseComparator_keeps (ini : Nat) (args : List Word) (s : State) (t : State) (h : execClaimOrReleaseComparator ini args s = .next t) : Keeps s t := by cases h; exact callClaimComparator_keeps ..
theorem execConfigureComparator_keeps (ini : Nat) (args : List Word) (s : State) (t : State) (h : execConfigureComparator ini args s = .next t) : Keeps s t := by cases h; exact callConfigureComparator_keeps ..
theorem execConfigurePulseOrCapture_keeps (ini : Nat) (args : List Word) (s : State) (t : State) (h : execConfigurePulseOrCapture ini args s = .next t) : Keeps s t := by cases h; exact callConfigurePulse_keeps ..
theorem execConfigureTimeProtocol_keeps (ini : Nat) (args : List Word) (s : State) (t : State) (h : execConfigureTimeProtocol ini args s = .next t) : Keeps s t := by cases h; exact callConfigurePtp_keeps ..
theorem execAnnounceTimeout_keeps (s : State) (t : State) (h : execAnnounceTimeout s = .next t) : Keeps s t := by cases h; exact State.ptpLost_keeps ..
theorem execReadTimeProtocol_keeps (a0 : Nat) (a1 : List Word) (s : State) (t : State) (h : execReadTimeProtocol a0 a1 s = .next t) : Keeps s t := by cases h; exact callReadPtp_keeps ..
theorem execMbCallGo_keeps (ini : Nat) (ch : Nat) (value : Nat) (s : State) (t : State) (h : execMbCallGo ini ch value s = .next t) : Keeps s t := by cases h; exact State.callGo_keeps ..
theorem execMbCallServe_keeps (s : State) (t : State) (h : execMbCallServe s = .next t) : Keeps s t := by cases h; exact State.serve_keeps ..
theorem execCallDone_keeps (s : State) (t : State) (h : execCallDone s = .next t) : Keeps s t := by cases h; exact State.callDone_keeps ..
theorem execMbDoneRead_keeps (ini : Nat) (ch : Nat) (s : State) (t : State) (h : execMbDoneRead ini ch s = .next t) : Keeps s t := by
  cases h
  try dsimp only
  repeat' first
    | with_reducible exact Keeps.refl _
    | with_reducible apply Keeps.after (State.chanRead_keeps ..)
    | with_reducible apply Keeps.after (State.doneRead_keeps ..)
    | with_reducible apply Keeps.foldl
    | intro _
    | split
    | simp only [Keeps.upd_iff, Keeps.ite_iff]
theorem execMbStatusRead_keeps (ini : Nat) (ch : Nat) (s : State) (t : State) (h : execMbStatusRead ini ch s = .next t) : Keeps s t := by
  cases h
  try dsimp only
  repeat' first
    | with_reducible exact Keeps.refl _
    | with_reducible apply Keeps.after (State.chanRead_keeps ..)
    | with_reducible apply Keeps.after (State.statusRead_keeps ..)
    | with_reducible apply Keeps.foldl
    | intro _
    | split
    | simp only [Keeps.upd_iff, Keeps.ite_iff]
theorem execEncoderEdge_keeps (i : Nat) (illegal : Bool) (up : Bool) (s : State) (t : State) (h : execEncoderEdge i illegal up s = .next t) : Keeps s t := by cases h; exact State.encEdge_keeps ..
theorem execEncoderIndex_keeps (i : Nat) (s : State) (t : State) (h : execEncoderIndex i s = .next t) : Keeps s t := by cases h; exact State.encIndex_keeps ..
theorem execSerialReadDone_keeps (i : Nat) (raw : Nat) (crc : Nat) (start : Bool) (s : State) (t : State) (h : execSerialReadDone i raw crc start s = .next t) : Keeps s t := by cases h; exact State.serialDone_keeps ..
theorem execPwmPeriodStart_keeps (tb : Nat) (s : State) (t : State) (h : execPwmPeriodStart tb s = .next t) : Keeps s t := by
  cases h
  try dsimp only
  repeat' first
    | with_reducible exact Keeps.refl _
    | with_reducible apply Keeps.after (State.pwmStart_keeps ..)
    | with_reducible apply Keeps.foldl
    | intro _
    | split
    | simp only [Keeps.upd_iff, Keeps.ite_iff]
theorem execMillSegment_keeps (lc : Nat) (s : State) (t : State) (h : execMillSegment lc s = .next t) : Keeps s t := by cases h; exact State.segment_keeps ..
theorem execMin_keeps (lc : Nat) (s : State) (t : State) (h : execMin lc s = .next t) : Keeps s t := by cases h; exact State.millMin_keeps ..
theorem execMout_keeps (lc : Nat) (s : State) (t : State) (h : execMout lc s = .next t) : Keeps s t := by cases h; exact State.millMout_keeps ..
theorem execFmak_keeps (lc : Nat) (s : State) (t : State) (h : execFmak lc s = .next t) : Keeps s t := by cases h; exact State.millCalc_keeps ..
theorem execFma_keeps (lc : Nat) (s : State) (t : State) (h : execFma lc s = .next t) : Keeps s t := by cases h; exact State.millCalc_keeps ..
theorem execAdd_keeps (lc : Nat) (s : State) (t : State) (h : execAdd lc s = .next t) : Keeps s t := by cases h; exact State.millCalc_keeps ..
theorem execSub_keeps (lc : Nat) (s : State) (t : State) (h : execSub lc s = .next t) : Keeps s t := by cases h; exact State.millCalc_keeps ..
theorem execMul_keeps (lc : Nat) (s : State) (t : State) (h : execMul lc s = .next t) : Keeps s t := by cases h; exact State.millCalc_keeps ..
theorem execClamp_keeps (lc : Nat) (s : State) (t : State) (h : execClamp lc s = .next t) : Keeps s t := by cases h; exact State.millCalc_keeps ..
theorem execBiq_keeps (lc : Nat) (s : State) (t : State) (h : execBiq lc s = .next t) : Keeps s t := by cases h; exact State.millCalc_keeps ..
theorem execSstep_keeps (lc : Nat) (s : State) (t : State) (h : execSstep lc s = .next t) : Keeps s t := by cases h; exact State.millCalc_keeps ..
theorem execPid_keeps (lc : Nat) (s : State) (t : State) (h : execPid lc s = .next t) : Keeps s t := by cases h; exact State.millCalc_keeps ..
theorem execObs_keeps (lc : Nat) (s : State) (t : State) (h : execObs lc s = .next t) : Keeps s t := by cases h; exact State.millObs_keeps ..
theorem execStrec_keeps (lc : Nat) (s : State) (t : State) (h : execStrec lc s = .next t) : Keeps s t := by cases h; exact State.millStrec_keeps ..
theorem execMillCoreFault_keeps (core : Nat) (late : Nat) (s : State) (t : State) (h : execMillCoreFault core late s = .next t) : Keeps s t := by cases h; exact State.coreFault_keeps ..
theorem execMillSegmentOverrun_keeps (lc : Nat) (s : State) (t : State) (h : execMillSegmentOverrun lc s = .next t) : Keeps s t := by
  cases h
  try dsimp only
  repeat' first
    | with_reducible exact Keeps.refl _
    | with_reducible apply Keeps.after (State.coreFault_keeps ..)
    | with_reducible apply Keeps.foldl
    | intro _
    | split
    | simp only [Keeps.upd_iff, Keeps.ite_iff]
theorem execLoopCtlEnable_keeps (ini : Nat) (l : Nat) (s : State) (t : State) (h : execLoopCtlEnable ini l s = .next t) : Keeps s t := by cases h; exact State.loopCtl_keeps ..
theorem execLoopCtlDisable_keeps (ini : Nat) (l : Nat) (s : State) (t : State) (h : execLoopCtlDisable ini l s = .next t) : Keeps s t := by cases h; exact State.loopCtl_keeps ..
theorem execLoopCtlFallback_keeps (ini : Nat) (l : Nat) (s : State) (t : State) (h : execLoopCtlFallback ini l s = .next t) : Keeps s t := by cases h; exact State.loopCtl_keeps ..
theorem execLoopCtlReturn_keeps (ini : Nat) (l : Nat) (s : State) (t : State) (h : execLoopCtlReturn ini l s = .next t) : Keeps s t := by cases h; exact State.loopCtl_keeps ..
theorem execLawCtlGo_keeps (ini : Nat) (l : Nat) (fb : Bool) (s : State) (t : State) (h : execLawCtlGo ini l fb s = .next t) : Keeps s t := by cases h; exact State.lawCtl_keeps ..
theorem execCoefWr_keeps (ini : Nat) (value : Nat) (s : State) (t : State) (h : execCoefWr ini value s = .next t) : Keeps s t := by cases h; exact State.coefWr_keeps ..
theorem execReadMillStatus_keeps (a0 : Nat) (a1 : List Word) (s : State) (t : State) (h : execReadMillStatus a0 a1 s = .next t) : Keeps s t := by cases h; exact callMillStatus_keeps ..
theorem execConfigureLoop_keeps (ini : Nat) (args : List Word) (s : State) (t : State) (h : execConfigureLoop ini args s = .next t) : Keeps s t := by cases h; exact callConfigureLoop_keeps ..
theorem execLoadLaw_keeps (ini : Nat) (args : List Word) (s : State) (t : State) (h : execLoadLaw ini args s = .next t) : Keeps s t := by cases h; exact callLoadLaw_keeps ..
theorem execEnableOrDisableLoop_keeps (ini : Nat) (args : List Word) (s : State) (t : State) (h : execEnableOrDisableLoop ini args s = .next t) : Keeps s t := by cases h; exact callEnableLoop_keeps ..
theorem execWriteCoefficients_keeps (ini : Nat) (args : List Word) (s : State) (t : State) (h : execWriteCoefficients ini args s = .next t) : Keeps s t := by cases h; exact callWriteCoefficients_keeps ..
theorem execReadCoefficients_keeps (a0 : Nat) (args : List Word) (s : State) (t : State) (h : execReadCoefficients a0 args s = .next t) : Keeps s t := by cases h; exact callReadCoefficients_keeps ..
theorem execReadLoop_keeps (a0 : Nat) (args : List Word) (s : State) (t : State) (h : execReadLoop a0 args s = .next t) : Keeps s t := by cases h; exact callReadLoop_keeps ..
theorem execConfigureEncoder_keeps (ini : Nat) (args : List Word) (s : State) (t : State) (h : execConfigureEncoder ini args s = .next t) : Keeps s t := by cases h; exact callConfigureEncoder_keeps ..
theorem execConfigurePwm_keeps (ini : Nat) (args : List Word) (s : State) (t : State) (h : execConfigurePwm ini args s = .next t) : Keeps s t := by cases h; exact callConfigurePwm_keeps ..
theorem execClearLoopFlags_keeps (ini : Nat) (args : List Word) (s : State) (t : State) (h : execClearLoopFlags ini args s = .next t) : Keeps s t := by cases h; exact callClearLoopFlags_keeps ..
theorem execFallbackOrReturn_keeps (ini : Nat) (args : List Word) (s : State) (t : State) (h : execFallbackOrReturn ini args s = .next t) : Keeps s t := by cases h; exact callFallback_keeps ..
theorem execConfigureAxisFrame_keeps (ini : Nat) (args : List Word) (s : State) (t : State) (h : execConfigureAxisFrame ini args s = .next t) : Keeps s t := by cases h; exact callConfigureAxis_keeps ..
theorem execBindTrigger_keeps (ini : Nat) (args : List Word) (s : State) (t : State) (h : execBindTrigger ini args s = .next t) : Keeps s t := by cases h; exact callBindTrigger_keeps ..
theorem execComparatorFire_keeps (n : Nat) (s : State) (t : State) (h : execComparatorFire n s = .next t) : Keeps s t := by cases h; exact State.comparatorFire_keeps ..
theorem execReadNumericIdentity_keeps (a0 : Nat) (args : List Word) (s : State) (t : State) (h : execReadNumericIdentity a0 args s = .next t) : Keeps s t := by cases h; exact callNumId_keeps ..
theorem execWindowBounds_keeps (a0 : Nat) (args : List Word) (s : State) (t : State) (h : execWindowBounds a0 args s = .next t) : Keeps s t := by cases h; exact callWindowBounds_keeps ..
theorem execWriteRescaleTable_keeps (ini : Nat) (args : List Word) (s : State) (t : State) (h : execWriteRescaleTable ini args s = .next t) : Keeps s t := by cases h; exact callWriteRescale_keeps ..
theorem execReadStatistics_keeps (ini : Nat) (args : List Word) (s : State) (t : State) (h : execReadStatistics ini args s = .next t) : Keeps s t := by cases h; exact callReadStats_keeps ..
theorem execSetScaleGuard_keeps (ini : Nat) (args : List Word) (s : State) (t : State) (h : execSetScaleGuard ini args s = .next t) : Keeps s t := by cases h; exact callScaleGuard_keeps ..
theorem execReadNumericTotals_keeps (a0 : Nat) (args : List Word) (s : State) (t : State) (h : execReadNumericTotals a0 args s = .next t) : Keeps s t := by cases h; exact callNumTotals_keeps ..
theorem execPclLocWrite_keeps (ini : Nat) (p : Nat) (value : Nat) (s : State) (t : State) (h : execPclLocWrite ini p value s = .next t) : Keeps s t := by cases h; exact State.pclLocWrite_keeps ..
theorem execPclOwnerWrite_keeps (ini : Nat) (p : Nat) (value : Nat) (s : State) (t : State) (h : execPclOwnerWrite ini p value s = .next t) : Keeps s t := by cases h; exact State.pclIdleWrite_keeps ..
theorem execPclCreditWrite_keeps (ini : Nat) (p : Nat) (value : Nat) (s : State) (t : State) (h : execPclCreditWrite ini p value s = .next t) : Keeps s t := by cases h; exact State.pclIdleWrite_keeps ..
theorem execPclRightWrite_keeps (ini : Nat) (p : Nat) (i : Nat) (value : Nat) (s : State) (t : State) (h : execPclRightWrite ini p i value s = .next t) : Keeps s t := by cases h; exact State.pclRightWrite_keeps ..
theorem execCreateParcel_keeps (ini : Nat) (args : List Word) (s : State) (t : State) (h : execCreateParcel ini args s = .next t) : Keeps s t := by cases h; exact callCreateParcel_keeps ..
theorem execParcelZeroed_keeps (p : Nat) (s : State) (t : State) (h : execParcelZeroed p s = .next t) : Keeps s t := by cases h; exact State.parcelZeroed_keeps ..
theorem execParcelDeletionMade_keeps (p : Nat) (s : State) (t : State) (h : execParcelDeletionMade p s = .next t) : Keeps s t := by cases h; exact State.deleteParcel_keeps ..
theorem execDeleteParcel_keeps (ini : Nat) (args : List Word) (s : State) (t : State) (h : execDeleteParcel ini args s = .next t) : Keeps s t := by cases h; exact callDeleteParcel_keeps ..
theorem execReadParcel_keeps (ini : Nat) (args : List Word) (s : State) (t : State) (h : execReadParcel ini args s = .next t) : Keeps s t := by cases h; exact callReadParcel_keeps ..
theorem execSetParcelRights_keeps (ini : Nat) (args : List Word) (s : State) (t : State) (h : execSetParcelRights ini args s = .next t) : Keeps s t := by cases h; exact callParcelRights_keeps ..
theorem execReadCredits_keeps (ini : Nat) (args : List Word) (s : State) (t : State) (h : execReadCredits ini args s = .next t) : Keeps s t := by cases h; exact callReadCredits_keeps ..
theorem execSetWaitLimits_keeps (a0 : Nat) (args : List Word) (s : State) (t : State) (h : execSetWaitLimits a0 args s = .next t) : Keeps s t := by cases h; exact callWaitLimits_keeps ..
theorem execSetSluiceWatchdog_keeps (a0 : Nat) (args : List Word) (s : State) (t : State) (h : execSetSluiceWatchdog a0 args s = .next t) : Keeps s t := by cases h; exact callSluiceWatchdog_keeps ..
theorem execReadBankGroup_keeps (a0 : Nat) (args : List Word) (s : State) (t : State) (h : execReadBankGroup a0 args s = .next t) : Keeps s t := by cases h; exact callReadBankGroup_keeps ..
theorem execSpareABank_keeps (a0 : Nat) (args : List Word) (s : State) (t : State) (h : execSpareABank a0 args s = .next t) : Keeps s t := by cases h; exact callSpareBank_keeps ..
theorem execSetHazardDetector_keeps (a0 : Nat) (args : List Word) (s : State) (t : State) (h : execSetHazardDetector a0 args s = .next t) : Keeps s t := by cases h; exact callHazardDetector_keeps ..
theorem execLocateAddress_keeps (a0 : Nat) (args : List Word) (s : State) (t : State) (h : execLocateAddress a0 args s = .next t) : Keeps s t := by cases h; exact callLocate_keeps ..
theorem execValidateCommandBlock_keeps (ini : Nat) (args : List Word) (s : State) (t : State) (h : execValidateCommandBlock ini args s = .next t) : Keeps s t := by cases h; exact callValidate_keeps ..
theorem execReadPecCapabilities_keeps (a0 : Nat) (a1 : List Word) (s : State) (t : State) (h : execReadPecCapabilities a0 a1 s = .next t) : Keeps s t := by cases h; exact callPecCaps_keeps ..
theorem execBuildPaddingTapTable_keeps (ini : Nat) (args : List Word) (s : State) (t : State) (h : execBuildPaddingTapTable ini args s = .next t) : Keeps s t := by cases h; exact callTapTable_keeps ..
theorem execNop_keeps (x : Ctx) (s : State) (t : State) (h : execNop x s = .next t) : Keeps s t := by
  cases h
  try dsimp only
  repeat' first
    | with_reducible exact Keeps.refl _
    | with_reducible apply Keeps.after (State.lawOr_keeps ..)
    | with_reducible apply Keeps.after (State.decodeStep_keeps ..)
    | with_reducible apply Keeps.foldl
    | intro _
    | split
    | simp only [Keeps.upd_iff, Keeps.ite_iff]
theorem execTdaddr_keeps (x : Ctx) (s : State) (t : State) (h : execTdaddr x s = .next t) : Keeps s t := by cases h; exact State.paramStep_keeps ..
theorem execTdfmt_keeps (x : Ctx) (s : State) (t : State) (h : execTdfmt x s = .next t) : Keeps s t := by cases h; exact State.paramStep_keeps ..
theorem execTdstride_keeps (x : Ctx) (s : State) (t : State) (h : execTdstride x s = .next t) : Keeps s t := by cases h; exact State.paramStep_keeps ..
theorem execTdscale_keeps (x : Ctx) (s : State) (t : State) (h : execTdscale x s = .next t) : Keeps s t := by cases h; exact State.paramStep_keeps ..
theorem execTddim_keeps (x : Ctx) (s : State) (t : State) (h : execTddim x s = .next t) : Keeps s t := by cases h; exact State.paramStep_keeps ..
theorem execTdmemb_keeps (x : Ctx) (s : State) (t : State) (h : execTdmemb x s = .next t) : Keeps s t := by cases h; exact State.paramStep_keeps ..
theorem execWinset_keeps (x : Ctx) (s : State) (t : State) (h : execWinset x s = .next t) : Keeps s t := by cases h; exact State.paramStep_keeps ..
theorem execCpset_keeps (x : Ctx) (s : State) (t : State) (h : execCpset x s = .next t) : Keeps s t := by cases h; exact State.paramStep_keeps ..
theorem execSset_keeps (x : Ctx) (s : State) (t : State) (h : execSset x s = .next t) : Keeps s t := by cases h; exact State.paramStep_keeps ..
theorem execOnly_keeps (x : Ctx) (s : State) (t : State) (h : execOnly x s = .next t) : Keeps s t := by cases h; exact State.paramStep_keeps ..
theorem execRmset_keeps (x : Ctx) (s : State) (t : State) (h : execRmset x s = .next t) : Keeps s t := by cases h; exact State.paramStep_keeps ..
theorem execBrkset_keeps (x : Ctx) (s : State) (t : State) (h : execBrkset x s = .next t) : Keeps s t := by cases h; exact State.paramStep_keeps ..
theorem execFence_keeps (x : Ctx) (s : State) (t : State) (h : execFence x s = .next t) : Keeps s t := by cases h; exact State.fenceStep_keeps ..
theorem execMove_keeps (x : Ctx) (s : State) (t : State) (h : execMove x s = .next t) : Keeps s t := by cases h; exact State.unitStep_keeps ..
theorem execMove2d_keeps (x : Ctx) (s : State) (t : State) (h : execMove2d x s = .next t) : Keeps s t := by cases h; exact State.unitStep_keeps ..
theorem execFill_keeps (x : Ctx) (s : State) (t : State) (h : execFill x s = .next t) : Keeps s t := by cases h; exact State.unitStep_keeps ..
theorem execScaletag_keeps (x : Ctx) (s : State) (t : State) (h : execScaletag x s = .next t) : Keeps s t := by cases h; exact State.unitStep_keeps ..
theorem execPages_keeps (x : Ctx) (s : State) (t : State) (h : execPages x s = .next t) : Keeps s t := by cases h; exact State.unitStep_keeps ..
theorem execMatmul_keeps (x : Ctx) (s : State) (t : State) (h : execMatmul x s = .next t) : Keeps s t := by cases h; exact State.unitStep_keeps ..
theorem execConv_keeps (x : Ctx) (s : State) (t : State) (h : execConv x s = .next t) : Keeps s t := by cases h; exact State.unitStep_keeps ..
theorem execPsadd_keeps (x : Ctx) (s : State) (t : State) (h : execPsadd x s = .next t) : Keeps s t := by cases h; exact State.unitStep_keeps ..
theorem execElem_keeps (x : Ctx) (s : State) (t : State) (h : execElem x s = .next t) : Keeps s t := by cases h; exact State.unitStep_keeps ..
theorem execSpecial_keeps (x : Ctx) (s : State) (t : State) (h : execSpecial x s = .next t) : Keeps s t := by cases h; exact State.unitStep_keeps ..
theorem execReduce_keeps (x : Ctx) (s : State) (t : State) (h : execReduce x s = .next t) : Keeps s t := by cases h; exact State.unitStep_keeps ..
theorem execLnorm_keeps (x : Ctx) (s : State) (t : State) (h : execLnorm x s = .next t) : Keeps s t := by cases h; exact State.unitStep_keeps ..
theorem execRmsnorm_keeps (x : Ctx) (s : State) (t : State) (h : execRmsnorm x s = .next t) : Keeps s t := by cases h; exact State.unitStep_keeps ..
theorem execSoftmax_keeps (x : Ctx) (s : State) (t : State) (h : execSoftmax x s = .next t) : Keeps s t := by cases h; exact State.unitStep_keeps ..
theorem execMxquant_keeps (x : Ctx) (s : State) (t : State) (h : execMxquant x s = .next t) : Keeps s t := by cases h; exact State.unitStep_keeps ..
theorem execSgd_keeps (x : Ctx) (s : State) (t : State) (h : execSgd x s = .next t) : Keeps s t := by cases h; exact State.unitStep_keeps ..
theorem execAdam_keeps (x : Ctx) (s : State) (t : State) (h : execAdam x s = .next t) : Keeps s t := by cases h; exact State.unitStep_keeps ..
theorem execBlksoftmax_keeps (x : Ctx) (s : State) (t : State) (h : execBlksoftmax x s = .next t) : Keeps s t := by cases h; exact State.unitStep_keeps ..
theorem execXreduce_keeps (x : Ctx) (s : State) (t : State) (h : execXreduce x s = .next t) : Keeps s t := by cases h; exact State.unitStep_keeps ..
theorem execDwconv_keeps (x : Ctx) (s : State) (t : State) (h : execDwconv x s = .next t) : Keeps s t := by cases h; exact State.unitStep_keeps ..
theorem execPool_keeps (x : Ctx) (s : State) (t : State) (h : execPool x s = .next t) : Keeps s t := by cases h; exact State.unitStep_keeps ..
theorem execBlkmerge_keeps (x : Ctx) (s : State) (t : State) (h : execBlkmerge x s = .next t) : Keeps s t := by cases h; exact State.unitStep_keeps ..
theorem execMerge_keeps (x : Ctx) (s : State) (t : State) (h : execMerge x s = .next t) : Keeps s t := by cases h; exact State.unitStep_keeps ..
theorem execFinal_keeps (x : Ctx) (s : State) (t : State) (h : execFinal x s = .next t) : Keeps s t := by cases h; exact State.unitStep_keeps ..
theorem execTconv_keeps (x : Ctx) (s : State) (t : State) (h : execTconv x s = .next t) : Keeps s t := by cases h; exact State.unitStep_keeps ..
theorem execMwaitge_keeps (x : Ctx) (s : State) (t : State) (h : execMwaitge x s = .next t) : Keeps s t := by cases h; exact State.waitStep_keeps ..
theorem execMwaiteq_keeps (x : Ctx) (s : State) (t : State) (h : execMwaiteq x s = .next t) : Keeps s t := by cases h; exact State.waitStep_keeps ..
theorem execMsignal_keeps (x : Ctx) (s : State) (t : State) (h : execMsignal x s = .next t) : Keeps s t := by
  cases h
  try dsimp only
  repeat' first
    | with_reducible exact Keeps.refl _
    | with_reducible apply Keeps.after (State.lawOr_keeps ..)
    | with_reducible apply Keeps.after (State.orderStep_keeps ..)
    | with_reducible apply Keeps.foldl
    | intro _
    | split
    | simp only [Keeps.upd_iff, Keeps.ite_iff]
theorem execMadd_keeps (x : Ctx) (s : State) (t : State) (h : execMadd x s = .next t) : Keeps s t := by
  cases h
  try dsimp only
  repeat' first
    | with_reducible exact Keeps.refl _
    | with_reducible apply Keeps.after (State.lawOr_keeps ..)
    | with_reducible apply Keeps.after (State.orderStep_keeps ..)
    | with_reducible apply Keeps.foldl
    | intro _
    | split
    | simp only [Keeps.upd_iff, Keeps.ite_iff]
theorem execMsignalr_keeps (x : Ctx) (s : State) (t : State) (h : execMsignalr x s = .next t) : Keeps s t := by cases h; exact State.orderStep_keeps ..
theorem execMaddr_keeps (x : Ctx) (s : State) (t : State) (h : execMaddr x s = .next t) : Keeps s t := by cases h; exact State.orderStep_keeps ..
theorem execRemit_keeps (x : Ctx) (s : State) (t : State) (h : execRemit x s = .next t) : Keeps s t := by cases h; exact State.orderStep_keeps ..
theorem execLopen_keeps (x : Ctx) (s : State) (t : State) (h : execLopen x s = .next t) : Keeps s t := by cases h; exact State.lopen_keeps ..
theorem execLockPassageOpen_keeps (x : Ctx) (s : State) (t : State) (h : execLockPassageOpen x s = .next t) : Keeps s t := by cases h; exact State.lockOpen_keeps ..
theorem execLclose_keeps (x : Ctx) (s : State) (t : State) (h : execLclose x s = .next t) : Keeps s t := by cases h; exact State.lclose_keeps ..
theorem execInstructionComplete_keeps (x : Ctx) (unit : Nat) (hs : List Nat) (blocks : List Nat) (bytes : List Nat) (stalls : List Nat) (s : State) (t : State) (h : execInstructionComplete x unit hs blocks bytes stalls s = .next t) : Keeps s t := by cases h; exact State.instrDone_keeps ..
theorem execMarkWaitSatisfied_keeps (x : Ctx) (unit : Nat) (s : State) (t : State) (h : execMarkWaitSatisfied x unit s = .next t) : Keeps s t := by cases h; exact State.waitDone_keeps ..
theorem execGatherIdleFlush_keeps (b : Nat) (r : Nat) (s : State) (t : State) (h : execGatherIdleFlush b r s = .next t) : Keeps s t := by cases h; exact State.gatherFlush_keeps ..
theorem execPolderAccess_keeps (ini : Nat) (port : Nat) (a : Nat) (n : Nat) (write : Bool) (data : List Byte) (hs : Nat) (s : State) (t : State) (h : execPolderAccess ini port a n write data hs s = .next t) : Keeps s t := by
  cases h
  try dsimp only
  repeat' first
    | with_reducible exact Keeps.refl _
    | with_reducible apply Keeps.after (State.polAccess_keeps ..)
    | with_reducible apply Keeps.foldl
    | intro _
    | split
    | simp only [Keeps.upd_iff, Keeps.ite_iff]
theorem execBgLateWake_keeps (g : Nat) (s : State) (t : State) (h : execBgLateWake g s = .next t) : Keeps s t := by cases h; exact State.lateWake_keeps ..
theorem execBgIdleRetention_keeps (g : Nat) (s : State) (t : State) (h : execBgIdleRetention g s = .next t) : Keeps s t := by cases h; exact State.idleRetention_keeps ..
theorem execBreakPoint_keeps (b : Nat) (reqs : List (Nat × Nat)) (s : State) (t : State) (h : execBreakPoint b reqs s = .next t) : Keeps s t := by cases h; exact State.breakPoint_keeps ..
theorem execSluiceWatchdogBite_keeps (b : Nat) (s : State) (t : State) (h : execSluiceWatchdogBite b s = .next t) : Keeps s t := by cases h; exact State.sluiceBite_keeps ..
theorem execScrubRow_keeps (b : Nat) (row : Nat) (outcome : Nat) (s : State) (t : State) (h : execScrubRow b row outcome s = .next t) : Keeps s t := by cases h; exact State.scrubRow_keeps ..
theorem execBankCopyDone_keeps (b : Nat) (s : State) (t : State) (h : execBankCopyDone b s = .next t) : Keeps s t := by cases h; exact State.copyDone_keeps ..
theorem execMaintWaitLimit_keeps (g : Nat) (s : State) (t : State) (h : execMaintWaitLimit g s = .next t) : Keeps s t := by cases h; exact State.maintLimit_keeps ..
theorem execMsixEntryWrite_keeps (ini : Nat) (n : Nat) (i : Nat) (k : Nat) (value : Nat) (s : State) (t : State) (h : execMsixEntryWrite ini n i k value s = .next t) : Keeps s t := by cases h; exact State.msixWrite_keeps ..
theorem execVfDoorbell_keeps (n : Nat) (value : Nat) (s : State) (t : State) (h : execVfDoorbell n value s = .next t) : Keeps s t := by
  cases h
  try dsimp only
  repeat' first
    | with_reducible exact Keeps.refl _
    | with_reducible apply Keeps.after (State.vfDoorbell_keeps ..)
    | with_reducible apply Keeps.foldl
    | intro _
    | split
    | simp only [Keeps.upd_iff, Keeps.ite_iff]
theorem execFunctionLevelReset_keeps (n : Nat) (s : State) (t : State) (h : execFunctionLevelReset n s = .next t) : Keeps s t := by
  cases h
  try dsimp only
  repeat' first
    | with_reducible exact Keeps.refl _
    | with_reducible apply Keeps.after (State.allFnReset_keeps ..)
    | with_reducible apply Keeps.after (State.fnReset_keeps ..)
    | with_reducible apply Keeps.foldl
    | intro _
    | split
    | simp only [Keeps.upd_iff, Keeps.ite_iff]
theorem execPcieLinkDown_keeps (s : State) (t : State) (h : execPcieLinkDown s = .next t) : Keeps s t := by cases h; exact State.linkLost_keeps ..
theorem execPcieLinkUp_keeps (speed : Nat) (width : Nat) (s : State) (t : State) (h : execPcieLinkUp speed width s = .next t) : Keeps s t := by cases h; exact State.linkTrained_keeps ..
theorem execReadPcieStatus_keeps (a0 : Nat) (a1 : List Word) (s : State) (t : State) (h : execReadPcieStatus a0 a1 s = .next t) : Keeps s t := by cases h; exact callPcieStatus_keeps ..
theorem execSetVfVectors_keeps (a0 : Nat) (args : List Word) (s : State) (t : State) (h : execSetVfVectors a0 args s = .next t) : Keeps s t := by cases h; exact callSetVectors_keeps ..
theorem execReadSdioStatus_keeps (a0 : Nat) (a1 : List Word) (s : State) (t : State) (h : execReadSdioStatus a0 a1 s = .next t) : Keeps s t := by cases h; exact callSdioStatus_keeps ..
theorem execSetLpddr4xWindow_keeps (a0 : Nat) (args : List Word) (s : State) (t : State) (h : execSetLpddr4xWindow a0 args s = .next t) : Keeps s t := by cases h; exact callSetWindow_keeps ..
theorem execTranslationWalkDone_keeps (client : Nat) (mem : Bool) (input : Nat) (write : Bool) (s : State) (t : State) (h : execTranslationWalkDone client mem input write s = .next t) : Keeps s t := by cases h; exact State.translate_keeps ..
theorem execXlInvalGo_keeps (ini : Nat) (value : Nat) (s : State) (t : State) (h : execXlInvalGo ini value s = .next t) : Keeps s t := by cases h; exact State.invalGo_keeps ..
theorem execXlInvalidationDone_keeps (s : State) (t : State) (h : execXlInvalidationDone s = .next t) : Keeps s t := by cases h; exact State.invalDone_keeps ..
theorem execSetTranslationContext_keeps (ini : Nat) (args : List Word) (s : State) (t : State) (h : execSetTranslationContext ini args s = .next t) : Keeps s t := by cases h; exact callSetContext_keeps ..
theorem execInvalidateTranslations_keeps (ini : Nat) (args : List Word) (s : State) (t : State) (h : execInvalidateTranslations ini args s = .next t) : Keeps s t := by cases h; exact callInvalidate_keeps ..
theorem execReadTranslationFault_keeps (a0 : Nat) (a1 : List Word) (s : State) (t : State) (h : execReadTranslationFault a0 a1 s = .next t) : Keeps s t := by cases h; exact callXlFault_keeps ..
theorem execTranslate_keeps (ini : Nat) (args : List Word) (s : State) (t : State) (h : execTranslate ini args s = .next t) : Keeps s t := by cases h; exact callTranslate_keeps ..
theorem execSdioFunctionReset_keeps (fn : Nat) (s : State) (t : State) (h : execSdioFunctionReset fn s = .next t) : Keeps s t := by cases h; exact State.sdioReset_keeps ..
theorem execGpioSetWrite_keeps (ini : Nat) (value : Nat) (s : State) (t : State) (h : execGpioSetWrite ini value s = .next t) : Keeps s t := by cases h; exact State.gpioSet_keeps ..
theorem execGpioClrWrite_keeps (ini : Nat) (value : Nat) (s : State) (t : State) (h : execGpioClrWrite ini value s = .next t) : Keeps s t := by cases h; exact State.gpioClr_keeps ..
theorem execSetGpio_keeps (ini : Nat) (args : List Word) (s : State) (t : State) (h : execSetGpio ini args s = .next t) : Keeps s t := by cases h; exact callSetGpio_keeps ..
theorem execReadGpio_keeps (ini : Nat) (a1 : List Word) (s : State) (t : State) (h : execReadGpio ini a1 s = .next t) : Keeps s t := by cases h; exact callReadGpio_keeps ..
theorem execSetGpioOwner_keeps (a0 : Nat) (args : List Word) (s : State) (t : State) (h : execSetGpioOwner a0 args s = .next t) : Keeps s t := by cases h; exact callGpioOwner_keeps ..
theorem execTrimIdleExpiry_keeps (u : Nat) (s : State) (t : State) (h : execTrimIdleExpiry u s = .next t) : Keeps s t := by cases h; exact State.trimIdle_keeps ..
theorem execDomainPowerUpDone_keeps (s : State) (t : State) (h : execDomainPowerUpDone s = .next t) : Keeps s t := by cases h; exact State.powerUpDone_keeps ..
theorem execSelfTestPowerUp_keeps (u : Nat) (s : State) (t : State) (h : execSelfTestPowerUp u s = .next t) : Keeps s t := by cases h; exact State.testPowerUp_keeps ..
theorem execPowerAnswer_keeps (u : Nat) (timeUp : Bool) (s : State) (t : State) (h : execPowerAnswer u timeUp s = .next t) : Keeps s t := by cases h; exact State.unitAnswers_keeps ..
theorem execPowerAnswerTimeout_keeps (u : Nat) (s : State) (t : State) (h : execPowerAnswerTimeout u s = .next t) : Keeps s t := by cases h; exact State.noAnswer_keeps ..
theorem execPowerEntryDone_keeps (s : State) (t : State) (h : execPowerEntryDone s = .next t) : Keeps s t := by cases h; exact State.entryDone_keeps ..
theorem execWake_keeps (src : Nat) (u : Nat) (s : State) (t : State) (h : execWake src u s = .next t) : Keeps s t := by cases h; exact State.wakeSource_keeps ..
theorem execPowerExitDone_keeps (s : State) (t : State) (h : execPowerExitDone s = .next t) : Keeps s t := by cases h; exact State.exitDone_keeps ..
theorem execPwrCmdRun_keeps (ini : Nat) (s : State) (t : State) (h : execPwrCmdRun ini s = .next t) : Keeps s t := by cases h; exact State.pwrCmd_keeps ..
theorem execPwrCmdTrim_keeps (ini : Nat) (s : State) (t : State) (h : execPwrCmdTrim ini s = .next t) : Keeps s t := by cases h; exact State.pwrCmd_keeps ..
theorem execPwrCmdDoze_keeps (ini : Nat) (s : State) (t : State) (h : execPwrCmdDoze ini s = .next t) : Keeps s t := by cases h; exact State.pwrCmd_keeps ..
theorem execPwrCmdSleep_keeps (ini : Nat) (s : State) (t : State) (h : execPwrCmdSleep ini s = .next t) : Keeps s t := by cases h; exact State.pwrCmd_keeps ..
theorem execVcoreSetWrite_keeps (ini : Nat) (value : Nat) (s : State) (t : State) (h : execVcoreSetWrite ini value s = .next t) : Keeps s t := by cases h; exact State.vcoreWrite_keeps ..
theorem execCapWWrite_keeps (ini : Nat) (value : Nat) (s : State) (t : State) (h : execCapWWrite ini value s = .next t) : Keeps s t := by cases h; exact State.capWrite_keeps ..
theorem execSetpointStepDone_keeps (ok : Bool) (s : State) (t : State) (h : execSetpointStepDone ok s = .next t) : Keeps s t := by cases h; exact State.stepDone_keeps ..
theorem execPowerWindowEnd_keeps (est : Nat) (s : State) (t : State) (h : execPowerWindowEnd est s = .next t) : Keeps s t := by cases h; exact State.windowEnd_keeps ..
theorem execReadPowerStatus_keeps (a0 : Nat) (a1 : List Word) (s : State) (t : State) (h : execReadPowerStatus a0 a1 s = .next t) : Keeps s t := by cases h; exact callPowerStatus_keeps ..
theorem execRequestState_keeps (a0 : Nat) (args : List Word) (s : State) (t : State) (h : execRequestState a0 args s = .next t) : Keeps s t := by cases h; exact callRequestPower_keeps ..
theorem execSetVddCoreSetPoint_keeps (a0 : Nat) (args : List Word) (s : State) (t : State) (h : execSetVddCoreSetPoint a0 args s = .next t) : Keeps s t := by cases h; exact callSetPoint_keeps ..
theorem execSetPowerCap_keeps (a0 : Nat) (args : List Word) (s : State) (t : State) (h : execSetPowerCap a0 args s = .next t) : Keeps s t := by cases h; exact callSetCap_keeps ..
theorem execSetWakeSources_keeps (a0 : Nat) (args : List Word) (s : State) (t : State) (h : execSetWakeSources a0 args s = .next t) : Keeps s t := by cases h; exact callSetWake_keeps ..
theorem execSetTrimIdle_keeps (a0 : Nat) (args : List Word) (s : State) (t : State) (h : execSetTrimIdle a0 args s = .next t) : Keeps s t := by cases h; exact callTrimIdle_keeps ..
theorem execReadPowerCounters_keeps (a0 : Nat) (a1 : List Word) (s : State) (t : State) (h : execReadPowerCounters a0 a1 s = .next t) : Keeps s t := by cases h; exact callPowerCounters_keeps ..
theorem execSensorWriteDone_keeps (master : Nat) (ack : Bool) (s : State) (t : State) (h : execSensorWriteDone master ack s = .next t) : Keeps s t := by cases h; exact State.writeEnds_keeps ..
theorem execClockStretchTimeout_keeps (master : Nat) (s : State) (t : State) (h : execClockStretchTimeout master s = .next t) : Keeps s t := by cases h; exact State.writeEnds_keeps ..
theorem execPpPsetGo_keeps (ini : Nat) (p : Nat) (value : Nat) (s : State) (t : State) (h : execPpPsetGo ini p value s = .next t) : Keeps s t := by cases h; exact State.psetWrite_keeps ..
theorem execCsi2FrameStart_keeps (link : Nat) (vc : Nat) (hdr : Nat) (s : State) (t : State) (h : execCsi2FrameStart link vc hdr s = .next t) : Keeps s t := by cases h; exact State.frameStart_keeps ..
theorem execCsi2Line_keeps (link : Nat) (vc : Nat) (dt : Nat) (hdr : Nat) (crc : Nat) (overflow : Bool) (payload : List Byte) (freed : Nat) (s : State) (t : State) (h : execCsi2Line link vc dt hdr crc overflow payload freed s = .next t) : Keeps s t := by cases h; exact State.line_keeps ..
theorem execCsi2EmbeddedLine_keeps (link : Nat) (vc : Nat) (hdr : Nat) (crc : Nat) (payload : List Byte) (s : State) (t : State) (h : execCsi2EmbeddedLine link vc hdr crc payload s = .next t) : Keeps s t := by cases h; exact State.embedded_keeps ..
theorem execFrameLateExpiry_keeps (p : Nat) (s : State) (t : State) (h : execFrameLateExpiry p s = .next t) : Keeps s t := by cases h; exact State.frameLate_keeps ..
theorem execCsi2FrameEnd_keeps (link : Nat) (vc : Nat) (hdr : Nat) (linePs : Nat) (rate : Nat) (s : State) (t : State) (h : execCsi2FrameEnd link vc hdr linePs rate s = .next t) : Keeps s t := by cases h; exact State.frameEnd_keeps ..
theorem execClStreamWrite_keeps (ini : Nat) (l : Nat) (i : Nat) (value : Nat) (s : State) (t : State) (h : execClStreamWrite ini l i value s = .next t) : Keeps s t := by cases h; exact State.streamWrite_keeps ..
theorem execPpCtlLoad_keeps (ini : Nat) (p : Nat) (s : State) (t : State) (h : execPpCtlLoad ini p s = .next t) : Keeps s t := by cases h; exact State.ppCtl_keeps ..
theorem execPpCtlStart_keeps (ini : Nat) (p : Nat) (s : State) (t : State) (h : execPpCtlStart ini p s = .next t) : Keeps s t := by cases h; exact State.ppCtl_keeps ..
theorem execPpCtlStop_keeps (ini : Nat) (p : Nat) (s : State) (t : State) (h : execPpCtlStop ini p s = .next t) : Keeps s t := by cases h; exact State.ppCtl_keeps ..
theorem execPpCtlStopNow_keeps (ini : Nat) (p : Nat) (s : State) (t : State) (h : execPpCtlStopNow ini p s = .next t) : Keeps s t := by cases h; exact State.ppCtl_keeps ..
theorem execCameraMove_keeps (p : Nat) (s : State) (t : State) (h : execCameraMove p s = .next t) : Keeps s t := by cases h; exact State.cameraMove_keeps ..
theorem execReadLink_keeps (a0 : Nat) (args : List Word) (s : State) (t : State) (h : execReadLink a0 args s = .next t) : Keeps s t := by cases h; exact callReadLink_keeps ..
theorem execConfigureLink_keeps (ini : Nat) (args : List Word) (s : State) (t : State) (h : execConfigureLink ini args s = .next t) : Keeps s t := by cases h; exact callConfigureLink_keeps ..
theorem execLoadDescriptor_keeps (ini : Nat) (args : List Word) (s : State) (t : State) (h : execLoadDescriptor ini args s = .next t) : Keeps s t := by cases h; exact callLoadDesc_keeps ..
theorem execStartOrStopPipeline_keeps (ini : Nat) (args : List Word) (s : State) (t : State) (h : execStartOrStopPipeline ini args s = .next t) : Keeps s t := by cases h; exact callStartStop_keeps ..
theorem execPushParameterSet_keeps (ini : Nat) (args : List Word) (s : State) (t : State) (h : execPushParameterSet ini args s = .next t) : Keeps s t := by cases h; exact callPushSet_keeps ..
theorem execSetFlickerThreshold_keeps (ini : Nat) (args : List Word) (s : State) (t : State) (h : execSetFlickerThreshold ini args s = .next t) : Keeps s t := by cases h; exact callFlicker_keeps ..
theorem execSetSpare_keeps (ini : Nat) (args : List Word) (s : State) (t : State) (h : execSetSpare ini args s = .next t) : Keeps s t := by cases h; exact callSetSpare_keeps ..
theorem execMoveCamera_keeps (ini : Nat) (args : List Word) (s : State) (t : State) (h : execMoveCamera ini args s = .next t) : Keeps s t := by cases h; exact callMoveCamera_keeps ..
theorem execReadPipeline_keeps (a0 : Nat) (args : List Word) (s : State) (t : State) (h : execReadPipeline a0 args s = .next t) : Keeps s t := by cases h; exact callReadPipeline_keeps ..
theorem execClientWordWrite_keeps (ini : Nat) (k : Nat) (value : Nat) (s : State) (t : State) (h : execClientWordWrite ini k value s = .next t) : Keeps s t := by cases h; exact State.clientWrite_keeps ..
theorem execCreateClient_keeps (a0 : Nat) (args : List Word) (s : State) (t : State) (h : execCreateClient a0 args s = .next t) : Keeps s t := by cases h; exact callCreateClient_keeps ..
theorem execSetShare_keeps (ini : Nat) (args : List Word) (s : State) (t : State) (h : execSetShare ini args s = .next t) : Keeps s t := by cases h; exact callSetShare_keeps ..
theorem execReadClientAccounting_keeps (ini : Nat) (args : List Word) (s : State) (t : State) (h : execReadClientAccounting ini args s = .next t) : Keeps s t := by cases h; exact callAccounting_keeps ..
theorem execDoorbell_keeps (ini : Nat) (q : Nat) (s : State) (t : State) (h : execDoorbell ini q s = .next t) : Keeps s t := by
  cases h
  try dsimp only
  repeat' first
    | with_reducible exact Keeps.refl _
    | with_reducible apply Keeps.after (State.guarded_keeps ..)
    | with_reducible apply Keeps.after (State.doorbell_keeps ..)
    | with_reducible apply Keeps.after (State.vtSync_keeps ..)
    | with_reducible apply Keeps.foldl
    | intro _
    | split
    | simp only [Keeps.upd_iff, Keeps.ite_iff]
theorem execQinval_keeps (ini : Nat) (q : Nat) (s : State) (t : State) (h : execQinval ini q s = .next t) : Keeps s t := by
  cases h
  try dsimp only
  repeat' first
    | with_reducible exact Keeps.refl _
    | with_reducible apply Keeps.after (State.guarded_keeps ..)
    | with_reducible apply Keeps.after (State.qinval_keeps ..)
    | with_reducible apply Keeps.after (State.vtSync_keeps ..)
    | with_reducible apply Keeps.foldl
    | intro _
    | split
    | simp only [Keeps.upd_iff, Keeps.ite_iff]
theorem execQinvalAll_keeps (ini : Nat) (s : State) (t : State) (h : execQinvalAll ini s = .next t) : Keeps s t := by
  cases h
  try dsimp only
  repeat' first
    | with_reducible exact Keeps.refl _
    | with_reducible apply Keeps.after (State.guarded_keeps ..)
    | with_reducible apply Keeps.after (State.qinvalAll_keeps ..)
    | with_reducible apply Keeps.foldl
    | intro _
    | split
    | simp only [Keeps.upd_iff, Keeps.ite_iff]
theorem execMarkWindowWrite_keeps (ini : Nat) (m : Nat) (value : Nat) (s : State) (t : State) (h : execMarkWindowWrite ini m value s = .next t) : Keeps s t := by cases h; exact State.markWrite_keeps ..
theorem execMarkAddWrite_keeps (ini : Nat) (value : Nat) (s : State) (t : State) (h : execMarkAddWrite ini value s = .next t) : Keeps s t := by cases h; exact State.markAdd_keeps ..
theorem execWatchMark_keeps (ini : Nat) (args : List Word) (s : State) (t : State) (h : execWatchMark ini args s = .next t) : Keeps s t := by cases h; exact callWatch_keeps ..
theorem execSignalOrAddMark_keeps (ini : Nat) (args : List Word) (s : State) (t : State) (h : execSignalOrAddMark ini args s = .next t) : Keeps s t := by cases h; exact callMark_keeps ..
theorem execCreateOrChangeQueue_keeps (ini : Nat) (args : List Word) (s : State) (t : State) (h : execCreateOrChangeQueue ini args s = .next t) : Keeps s t := by cases h; exact callQueue_keeps ..
theorem execDeleteQueue_keeps (ini : Nat) (args : List Word) (s : State) (t : State) (h : execDeleteQueue ini args s = .next t) : Keeps s t := by cases h; exact callDeleteQueue_keeps ..
theorem execEnableHaltOrResumeQueue_keeps (ini : Nat) (args : List Word) (s : State) (t : State) (h : execEnableHaltOrResumeQueue ini args s = .next t) : Keeps s t := by cases h; exact callQueueAction_keeps ..
theorem execReadQueue_keeps (ini : Nat) (args : List Word) (s : State) (t : State) (h : execReadQueue ini args s = .next t) : Keeps s t := by cases h; exact callReadQueue_keeps ..
theorem execReserve_keeps (ini : Nat) (args : List Word) (s : State) (t : State) (h : execReserve ini args s = .next t) : Keeps s t := by cases h; exact callReserve_keeps ..
theorem execReservationEffective_keeps (q : Nat) (s : State) (t : State) (h : execReservationEffective q s = .next t) : Keeps s t := by cases h; exact State.reservEffective_keeps ..
theorem execReleaseReservation_keeps (ini : Nat) (args : List Word) (s : State) (t : State) (h : execReleaseReservation ini args s = .next t) : Keeps s t := by cases h; exact callReleaseReservation_keeps ..
theorem execResolveTranslationStall_keeps (ini : Nat) (args : List Word) (s : State) (t : State) (h : execResolveTranslationStall ini args s = .next t) : Keeps s t := by cases h; exact callResolveStall_keeps ..
theorem execVerifyRind_keeps (ini : Nat) (args : List Word) (s : State) (t : State) (h : execVerifyRind ini args s = .next t) : Keeps s t := by cases h; exact callVerifyRind_keeps ..
theorem execLoadWeights_keeps (ini : Nat) (args : List Word) (s : State) (t : State) (h : execLoadWeights ini args s = .next t) : Keeps s t := by cases h; exact callLoadWeights_keeps ..
theorem execWeightsFoldDone_keeps (p : Nat) (s : State) (t : State) (h : execWeightsFoldDone p s = .next t) : Keeps s t := by cases h; exact State.loadDone_keeps ..
theorem execReadWeightsDigest_keeps (ini : Nat) (args : List Word) (s : State) (t : State) (h : execReadWeightsDigest ini args s = .next t) : Keeps s t := by cases h; exact callReadWd_keeps ..
theorem execClearWeightsDigest_keeps (ini : Nat) (args : List Word) (s : State) (t : State) (h : execClearWeightsDigest ini args s = .next t) : Keeps s t := by cases h; exact callClearWd_keeps ..
theorem execReadQueueWeightsDigest_keeps (ini : Nat) (args : List Word) (s : State) (t : State) (h : execReadQueueWeightsDigest ini args s = .next t) : Keeps s t := by cases h; exact callQueueWd_keeps ..
theorem execSameBitsWrite_keeps (ini : Nat) (value : Nat) (s : State) (t : State) (h : execSameBitsWrite ini value s = .next t) : Keeps s t := by cases h; exact State.sameBitsWrite_keeps ..
theorem execSetSameBitsMode_keeps (ini : Nat) (args : List Word) (s : State) (t : State) (h : execSetSameBitsMode ini args s = .next t) : Keeps s t := by cases h; exact callSameBits_keeps ..
theorem execReadSameBitsCounters_keeps (a0 : Nat) (a1 : List Word) (s : State) (t : State) (h : execReadSameBitsCounters a0 a1 s = .next t) : Keeps s t := by cases h; exact callSbCounters_keeps ..
theorem execReadFingerprint_keeps (a0 : Nat) (a1 : List Word) (s : State) (t : State) (h : execReadFingerprint a0 a1 s = .next t) : Keeps s t := by cases h; exact callFingerprint_keeps ..
theorem execEntryRead_keeps (q : Nat) (s : State) (t : State) (h : execEntryRead q s = .next t) : Keeps s t := by cases h; exact State.readNow_keeps ..
theorem execStartConditionMet_keeps (q : Nat) (s : State) (t : State) (h : execStartConditionMet q s = .next t) : Keeps s t := by
  cases h
  try dsimp only
  repeat' first
    | with_reducible exact Keeps.refl _
    | with_reducible apply Keeps.after (State.latchStart_keeps ..)
    | with_reducible apply Keeps.after (State.vtSync_keeps ..)
    | with_reducible apply Keeps.foldl
    | intro _
    | split
    | simp only [Keeps.upd_iff, Keeps.ite_iff]
theorem execCommandDispatch_keeps (x : Ctx) (s : State) (t : State) (h : execCommandDispatch x s = .next t) : Keeps s t := by cases h; exact State.dispatch_keeps ..
theorem execCommandEpilogue_keeps (x : Ctx) (steps : Nat) (s : State) (t : State) (h : execCommandEpilogue x steps s = .next t) : Keeps s t := by cases h; exact State.epilogue_keeps ..
theorem execBudgetExpiry_keeps (x : Ctx) (s : State) (t : State) (h : execBudgetExpiry x s = .next t) : Keeps s t := by cases h; exact State.budgetExpiry_keeps ..
theorem execXlateTimeoutExpiry_keeps (x : Ctx) (s : State) (t : State) (h : execXlateTimeoutExpiry x s = .next t) : Keeps s t := by cases h; exact State.xlateTimeout_keeps ..
theorem execEventRouteSignal_keeps (c : Nat) (s : State) (t : State) (h : execEventRouteSignal c s = .next t) : Keeps s t := by cases h; exact State.routeSignal_keeps ..
theorem execCreditWaitEnd_keeps (x : Ctx) (unit : Nat) (hs : Nat) (s : State) (t : State) (h : execCreditWaitEnd x unit hs s = .next t) : Keeps s t := by cases h; exact State.creditWaitEnd_keeps ..
theorem execClCfgSpareWrite_keeps (ini : Nat) (c : Nat) (value : Nat) (s : State) (t : State) (h : execClCfgSpareWrite ini c value s = .next t) : Keeps s t := by cases h; exact State.clCfgWrite_keeps ..
theorem execSetSpareEnable_keeps (ini : Nat) (args : List Word) (s : State) (t : State) (h : execSetSpareEnable ini args s = .next t) : Keeps s t := by cases h; exact callSpareEnable_keeps ..
theorem execReadClusterStatus_keeps (a0 : Nat) (args : List Word) (s : State) (t : State) (h : execReadClusterStatus a0 args s = .next t) : Keeps s t := by cases h; exact callClusterStatus_keeps ..
theorem execReadTileCounters_keeps (a0 : Nat) (args : List Word) (s : State) (t : State) (h : execReadTileCounters a0 args s = .next t) : Keeps s t := by cases h; exact callTileCounters_keeps ..
theorem execReadStepTable_keeps (a0 : Nat) (a1 : List Word) (s : State) (t : State) (h : execReadStepTable a0 a1 s = .next t) : Keeps s t := by cases h; exact callStepTable_keeps ..
theorem execFormGang_keeps (ini : Nat) (args : List Word) (s : State) (t : State) (h : execFormGang ini args s = .next t) : Keeps s t := by cases h; exact callFormGang_keeps ..
theorem execGangFormed_keeps (g : Nat) (s : State) (t : State) (h : execGangFormed g s = .next t) : Keeps s t := by cases h; exact State.gangFormed_keeps ..
theorem execDissolveGang_keeps (ini : Nat) (args : List Word) (s : State) (t : State) (h : execDissolveGang ini args s = .next t) : Keeps s t := by cases h; exact callDissolveGang_keeps ..
theorem execGangDissolved_keeps (g : Nat) (s : State) (t : State) (h : execGangDissolved g s = .next t) : Keeps s t := by cases h; exact State.gangDissolved_keeps ..
theorem execTeFeedWrite_keeps (ini : Nat) (e : Nat) (value : Nat) (s : State) (t : State) (h : execTeFeedWrite ini e value s = .next t) : Keeps s t := by cases h; exact State.teFeedWrite_keeps ..
theorem execReadToeEngineStatus_keeps (a0 : Nat) (args : List Word) (s : State) (t : State) (h : execReadToeEngineStatus a0 args s = .next t) : Keeps s t := by cases h; exact callToeStatus_keeps ..
theorem execBindToeFeed_keeps (ini : Nat) (args : List Word) (s : State) (t : State) (h : execBindToeFeed ini args s = .next t) : Keeps s t := by cases h; exact callBindFeed_keeps ..
theorem execReadToeCounters_keeps (a0 : Nat) (args : List Word) (s : State) (t : State) (h : execReadToeCounters a0 args s = .next t) : Keeps s t := by cases h; exact callToeCounters_keeps ..
theorem execWinogradWindowBounds_keeps (a0 : Nat) (args : List Word) (s : State) (t : State) (h : execWinogradWindowBounds a0 args s = .next t) : Keeps s t := by cases h; exact callWinogradBounds_keeps ..
theorem execPowerOnReset_keeps (m1 : Nat) (m2 : Nat) (otpOk : Bool) (ddrOk : Bool) (fails : List Nat) (us : Nat) (s : State) (t : State) (h : execPowerOnReset m1 m2 otpOk ddrOk fails us s = .next t) : Keeps s t := by
  cases h
  try dsimp only
  repeat' first
    | with_reducible exact Keeps.refl _
    | with_reducible apply Keeps.after (State.afterReset_keeps ..)
    | with_reducible apply Keeps.after (State.wr_keeps ..)
    | with_reducible apply Keeps.after (State.runBoot_keeps ..)
    | with_reducible apply Keeps.after (State.bootStatus_keeps ..)
    | with_reducible apply Keeps.foldl
    | intro _
    | split
    | simp only [Keeps.upd_iff, Keeps.ite_iff]
theorem execResetNAssert_keeps (otpOk : Bool) (ddrOk : Bool) (fails : List Nat) (us : Nat) (s : State) (t : State) (h : execResetNAssert otpOk ddrOk fails us s = .next t) : Keeps s t := by
  cases h
  try dsimp only
  repeat' first
    | with_reducible exact Keeps.refl _
    | with_reducible apply Keeps.after (State.afterReset_keeps ..)
    | with_reducible apply Keeps.after (State.wr_keeps ..)
    | with_reducible apply Keeps.after (State.runBoot_keeps ..)
    | with_reducible apply Keeps.after (State.bootStatus_keeps ..)
    | with_reducible apply Keeps.foldl
    | intro _
    | split
    | simp only [Keeps.upd_iff, Keeps.ite_iff]
theorem execSupplyLoss_keeps (s : State) (t : State) (h : execSupplyLoss s = .next t) : Keeps s t := by cases h; exact State.afterReset_keeps ..
theorem execReadBootStatus_keeps (a0 : Nat) (a1 : List Word) (s : State) (t : State) (h : execReadBootStatus a0 a1 s = .next t) : Keeps s t := by cases h; exact callBootStatus_keeps ..
theorem execReadCatalogue_keeps (a0 : Nat) (args : List Word) (s : State) (t : State) (h : execReadCatalogue a0 args s = .next t) : Keeps s t := by cases h; exact callCatalogue_keeps ..
theorem execVerifyImage_keeps (ini : Nat) (args : List Word) (s : State) (t : State) (h : execVerifyImage ini args s = .next t) : Keeps s t := by cases h; exact callVerifyImage_keeps ..
theorem execUnitDrained_keeps (u : Nat) (s : State) (t : State) (h : execUnitDrained u s = .next t) : Keeps s t := by
  cases h
  try dsimp only
  repeat' first
    | with_reducible exact Keeps.refl _
    | with_reducible apply Keeps.after (State.unitDrained_keeps ..)
    | with_reducible apply Keeps.after (State.updStep_keeps ..)
    | with_reducible apply Keeps.foldl
    | intro _
    | split
    | simp only [Keeps.upd_iff, Keeps.ite_iff]
theorem execSelfTestDone_keeps (u : Nat) (pass : Bool) (s : State) (t : State) (h : execSelfTestDone u pass s = .next t) : Keeps s t := by
  cases h
  try dsimp only
  repeat' first
    | with_reducible exact Keeps.refl _
    | with_reducible apply Keeps.after (State.testDone_keeps ..)
    | with_reducible apply Keeps.after (State.updStep_keeps ..)
    | with_reducible apply Keeps.foldl
    | intro _
    | split
    | simp only [Keeps.upd_iff, Keeps.ite_iff]
theorem execUpdateProcessor_keeps (ini : Nat) (args : List Word) (s : State) (t : State) (h : execUpdateProcessor ini args s = .next t) : Keeps s t := by cases h; exact callUpdate_keeps ..
theorem execReadUpdateStatus_keeps (a0 : Nat) (a1 : List Word) (s : State) (t : State) (h : execReadUpdateStatus a0 a1 s = .next t) : Keeps s t := by cases h; exact callUpdStatus_keeps ..
theorem execConsentToWardenUpdate_keeps (ini : Nat) (args : List Word) (s : State) (t : State) (h : execConsentToWardenUpdate ini args s = .next t) : Keeps s t := by cases h; exact callConsent_keeps ..
theorem execConsentExpiry_keeps (s : State) (t : State) (h : execConsentExpiry s = .next t) : Keeps s t := by
  cases h
  try dsimp only
  repeat' first
    | with_reducible exact Keeps.refl _
    | with_reducible apply Keeps.foldl
    | intro _
    | split
    | simp only [Keeps.upd_iff, Keeps.ite_iff]
theorem execRaiseSecurityVersion_keeps (ini : Nat) (args : List Word) (s : State) (t : State) (h : execRaiseSecurityVersion ini args s = .next t) : Keeps s t := by cases h; exact callRaiseSvn_keeps ..
theorem execRevokeRootSlot_keeps (ini : Nat) (args : List Word) (s : State) (t : State) (h : execRevokeRootSlot ini args s = .next t) : Keeps s t := by cases h; exact callRevoke_keeps ..
theorem execSetCalibrationKeys_keeps (ini : Nat) (args : List Word) (s : State) (t : State) (h : execSetCalibrationKeys ini args s = .next t) : Keeps s t := by cases h; exact callSetKeys_keeps ..
theorem execReadIdentity_keeps (ini : Nat) (a1 : List Word) (s : State) (t : State) (h : execReadIdentity ini a1 s = .next t) : Keeps s t := by cases h; exact callIdentity_keeps ..
theorem execAttestationQuote_keeps (ini : Nat) (args : List Word) (s : State) (t : State) (h : execAttestationQuote ini args s = .next t) : Keeps s t := by cases h; exact callQuote_keeps ..
theorem execReadFactoryCalibration_keeps (a0 : Nat) (args : List Word) (s : State) (t : State) (h : execReadFactoryCalibration a0 args s = .next t) : Keeps s t := by cases h; exact callFactoryCal_keeps ..
theorem execReadCalibrationInForce_keeps (a0 : Nat) (args : List Word) (s : State) (t : State) (h : execReadCalibrationInForce a0 args s = .next t) : Keeps s t := by cases h; exact callCalInForce_keeps ..
theorem execApplyCalibrationSet_keeps (ini : Nat) (args : List Word) (s : State) (t : State) (h : execApplyCalibrationSet ini args s = .next t) : Keeps s t := by cases h; exact callApplyCal_keeps ..
theorem execBootImage_keeps (ini : Nat) (args : List Word) (s : State) (t : State) (h : execBootImage ini args s = .next t) : Keeps s t := by cases h; exact callBootImage_keeps ..
theorem execCommitRunningSet_keeps (ini : Nat) (a1 : List Word) (s : State) (t : State) (h : execCommitRunningSet ini a1 s = .next t) : Keeps s t := by cases h; exact callCommitSet_keeps ..
theorem execLiveEnableWrite_keeps (ini : Nat) (v : Nat) (value : Nat) (s : State) (t : State) (h : execLiveEnableWrite ini v value s = .next t) : Keeps s t := by cases h; exact State.liveWrite_keeps ..
theorem execLiveFrameTake_keeps (v : Nat) (s : State) (t : State) (h : execLiveFrameTake v s = .next t) : Keeps s t := by cases h; exact State.liveTake_keeps ..
theorem execLiveFrameDone_keeps (v : Nat) (hs : Nat) (s : State) (t : State) (h : execLiveFrameDone v hs s = .next t) : Keeps s t := by cases h; exact State.liveDone_keeps ..
theorem execJobCtlStart_keeps (ini : Nat) (v : Nat) (s : State) (t : State) (h : execJobCtlStart ini v s = .next t) : Keeps s t := by cases h; exact State.jobCtl_keeps ..
theorem execJobCtlStop_keeps (ini : Nat) (v : Nat) (s : State) (t : State) (h : execJobCtlStop ini v s = .next t) : Keeps s t := by cases h; exact State.jobCtl_keeps ..
theorem execJobCtlResume_keeps (ini : Nat) (v : Nat) (s : State) (t : State) (h : execJobCtlResume ini v s = .next t) : Keeps s t := by cases h; exact State.jobCtl_keeps ..
theorem execJobCtlAbort_keeps (ini : Nat) (v : Nat) (s : State) (t : State) (h : execJobCtlAbort ini v s = .next t) : Keeps s t := by cases h; exact State.jobCtl_keeps ..
theorem execSampleDecodeDone_keeps (v : Nat) (dec : Nat) (ns : Nat) (s : State) (t : State) (h : execSampleDecodeDone v dec ns s = .next t) : Keeps s t := by cases h; exact State.decodeDone_keeps ..
theorem execDecodeDeferTimeout_keeps (v : Nat) (s : State) (t : State) (h : execDecodeDeferTimeout v s = .next t) : Keeps s t := by cases h; exact State.decodeDefer_keeps ..
theorem execDecodeHardLimit_keeps (v : Nat) (pos : Nat) (s : State) (t : State) (h : execDecodeHardLimit v pos s = .next t) : Keeps s t := by cases h; exact State.decodeHard_keeps ..
theorem execHostDecodeDone_keeps (v : Nat) (pos : Nat) (done : Nat) (ns : Nat) (raw : List Byte) (s : State) (t : State) (h : execHostDecodeDone v pos done ns raw s = .next t) : Keeps s t := by cases h; exact State.hostDone_keeps ..
theorem execBatchDone_keeps (v : Nat) (s : State) (t : State) (h : execBatchDone v s = .next t) : Keeps s t := by cases h; exact State.batchDone_keeps ..
theorem execVatFetchTimeoutExpiry_keeps (v : Nat) (s : State) (t : State) (h : execVatFetchTimeoutExpiry v s = .next t) : Keeps s t := by
  cases h
  try dsimp only
  repeat' first
    | with_reducible exact Keeps.refl _
    | with_reducible apply Keeps.after (State.jobEnd_keeps ..)
    | with_reducible apply Keeps.foldl
    | intro _
    | split
    | simp only [Keeps.upd_iff, Keeps.ite_iff]
theorem execReadVatStatus_keeps (a0 : Nat) (args : List Word) (s : State) (t : State) (h : execReadVatStatus a0 args s = .next t) : Keeps s t := by cases h; exact callVatStatus_keeps ..
theorem execSetLiveStream_keeps (ini : Nat) (args : List Word) (s : State) (t : State) (h : execSetLiveStream ini args s = .next t) : Keeps s t := by cases h; exact callLive_keeps ..
theorem execStartBatchJob_keeps (ini : Nat) (args : List Word) (s : State) (t : State) (h : execStartBatchJob ini args s = .next t) : Keeps s t := by cases h; exact callJobStart_keeps ..
theorem execStopOrAbortJob_keeps (ini : Nat) (args : List Word) (s : State) (t : State) (h : execStopOrAbortJob ini args s = .next t) : Keeps s t := by cases h; exact callJobStop_keeps ..
theorem execResolveJobStall_keeps (ini : Nat) (args : List Word) (s : State) (t : State) (h : execResolveJobStall ini args s = .next t) : Keeps s t := by cases h; exact callJobStall_keeps ..
theorem execConfigureCellar_keeps (ini : Nat) (args : List Word) (s : State) (t : State) (h : execConfigureCellar ini args s = .next t) : Keeps s t := by cases h; exact callCellar_keeps ..
theorem execInvalidateCellar_keeps (ini : Nat) (args : List Word) (s : State) (t : State) (h : execInvalidateCellar ini args s = .next t) : Keeps s t := by cases h; exact callCellarDrop_keeps ..
theorem execSetSlowDecodeLimits_keeps (ini : Nat) (args : List Word) (s : State) (t : State) (h : execSetSlowDecodeLimits ini args s = .next t) : Keeps s t := by cases h; exact callSlowLimits_keeps ..
theorem execSetSharedDecode_keeps (ini : Nat) (args : List Word) (s : State) (t : State) (h : execSetSharedDecode ini args s = .next t) : Keeps s t := by cases h; exact callShared_keeps ..
theorem execReferenceDecode_keeps (ini : Nat) (args : List Word) (s : State) (t : State) (h : execReferenceDecode ini args s = .next t) : Keeps s t := by cases h; exact callRefDecode_keeps ..
theorem execReadVatCounters_keeps (a0 : Nat) (args : List Word) (s : State) (t : State) (h : execReadVatCounters a0 args s = .next t) : Keeps s t := by cases h; exact callVatCounters_keeps ..
theorem execVeCfgWrite_keeps (ini : Nat) (v : Nat) (value : Nat) (s : State) (t : State) (h : execVeCfgWrite ini v value s = .next t) : Keeps s t := by cases h; exact State.veCfgWrite_keeps ..
theorem execReadTableSet_keeps (a0 : Nat) (args : List Word) (s : State) (t : State) (h : execReadTableSet a0 args s = .next t) : Keeps s t := by cases h; exact callTableSet_keeps ..
theorem execEvaluateSpecialFunction_keeps (a0 : Nat) (args : List Word) (s : State) (t : State) (h : execEvaluateSpecialFunction a0 args s = .next t) : Keeps s t := by cases h; exact callSpecial_keeps ..
theorem execReadVectorEngineCounters_keeps (a0 : Nat) (args : List Word) (s : State) (t : State) (h : execReadVectorEngineCounters a0 args s = .next t) : Keeps s t := by cases h; exact callVeCounters_keeps ..
theorem execSetArrivalOrder_keeps (ini : Nat) (args : List Word) (s : State) (t : State) (h : execSetArrivalOrder ini args s = .next t) : Keeps s t := by cases h; exact callArrival_keeps ..
theorem execGateSetCheck_keeps (s : State) (t : State) (h : execGateSetCheck s = .next t) : Keeps s t := by
  cases h
  try dsimp only
  repeat' first
    | with_reducible exact Keeps.refl _
    | with_reducible apply Keeps.after (State.takeWork_keeps ..)
    | with_reducible apply Keeps.after (State.gateSetCheck_keeps ..)
    | with_reducible apply Keeps.foldl
    | intro _
    | split
    | simp only [Keeps.upd_iff, Keeps.ite_iff]
theorem execSetDeadlineExpiry_keeps (s : State) (t : State) (h : execSetDeadlineExpiry s = .next t) : Keeps s t := by
  cases h
  try dsimp only
  repeat' first
    | with_reducible exact Keeps.refl _
    | with_reducible apply Keeps.after (State.setDeadline_keeps ..)
    | with_reducible apply Keeps.foldl
    | intro _
    | split
    | simp only [Keeps.upd_iff, Keeps.ite_iff]
theorem execDigestCompare_keeps (e : Nat) (s : State) (t : State) (h : execDigestCompare e s = .next t) : Keeps s t := by
  cases h
  try dsimp only
  repeat' first
    | with_reducible exact Keeps.refl _
    | with_reducible apply Keeps.after (State.takeWork_keeps ..)
    | with_reducible apply Keeps.after (State.digestCompare_keeps ..)
    | with_reducible apply Keeps.foldl
    | intro _
    | split
    | simp only [Keeps.upd_iff, Keeps.ite_iff]
theorem execDigestPeriodExpiry_keeps (e : Nat) (s : State) (t : State) (h : execDigestPeriodExpiry e s = .next t) : Keeps s t := by
  cases h
  try dsimp only
  repeat' first
    | with_reducible exact Keeps.refl _
    | with_reducible apply Keeps.after (State.wdFind_keeps ..)
    | with_reducible apply Keeps.foldl
    | intro _
    | split
    | simp only [Keeps.upd_iff, Keeps.ite_iff]
theorem execStarterCheck_keeps (i : Nat) (s : State) (t : State) (h : execStarterCheck i s = .next t) : Keeps s t := by
  cases h
  try dsimp only
  repeat' first
    | with_reducible exact Keeps.refl _
    | with_reducible apply Keeps.after (State.starterCheck_keeps ..)
    | with_reducible apply Keeps.foldl
    | intro _
    | split
    | simp only [Keeps.upd_iff, Keeps.ite_iff]
theorem execHbWordWrite_keeps (value : Nat) (s : State) (t : State) (h : execHbWordWrite value s = .next t) : Keeps s t := by
  cases h
  try dsimp only
  repeat' first
    | with_reducible exact Keeps.refl _
    | with_reducible apply Keeps.after (State.heartbeat_keeps ..)
    | with_reducible apply Keeps.foldl
    | intro _
    | split
    | simp only [Keeps.upd_iff, Keeps.ite_iff]
theorem execHbTimeoutExpiry_keeps (s : State) (t : State) (h : execHbTimeoutExpiry s = .next t) : Keeps s t := by
  cases h
  try dsimp only
  repeat' first
    | with_reducible exact Keeps.refl _
    | with_reducible apply Keeps.after (State.hbBad_keeps ..)
    | with_reducible apply Keeps.foldl
    | intro _
    | split
    | simp only [Keeps.upd_iff, Keeps.ite_iff]
theorem execPinFeedbackTimeout_keeps (pin : Nat) (s : State) (t : State) (h : execPinFeedbackTimeout pin s = .next t) : Keeps s t := by cases h; exact State.pinDiffers_keeps ..
theorem execTaskDeadlineExpiry_keeps (u : Nat) (s : State) (t : State) (h : execTaskDeadlineExpiry u s = .next t) : Keeps s t := by
  cases h
  try dsimp only
  repeat' first
    | with_reducible exact Keeps.refl _
    | with_reducible apply Keeps.after (State.wdFind_keeps ..)
    | with_reducible apply Keeps.foldl
    | intro _
    | split
    | simp only [Keeps.upd_iff, Keeps.ite_iff]
theorem execWdCmdArm_keeps (ini : Nat) (s : State) (t : State) (h : execWdCmdArm ini s = .next t) : Keeps s t := by cases h; exact State.wdCmdWrite_keeps ..
theorem execWdCmdForceSafe_keeps (ini : Nat) (s : State) (t : State) (h : execWdCmdForceSafe ini s = .next t) : Keeps s t := by cases h; exact State.wdCmdWrite_keeps ..
theorem execWdCmdRelease_keeps (ini : Nat) (s : State) (t : State) (h : execWdCmdRelease ini s = .next t) : Keeps s t := by cases h; exact State.wdCmdWrite_keeps ..
theorem execWdCmdEnterTest_keeps (ini : Nat) (s : State) (t : State) (h : execWdCmdEnterTest ini s = .next t) : Keeps s t := by cases h; exact State.wdCmdWrite_keeps ..
theorem execWdCmdLeaveTest_keeps (ini : Nat) (s : State) (t : State) (h : execWdCmdLeaveTest ini s = .next t) : Keeps s t := by cases h; exact State.wdCmdWrite_keeps ..
theorem execSupCmdWrite_keeps (value : Nat) (s : State) (t : State) (h : execSupCmdWrite value s = .next t) : Keeps s t := by cases h; exact State.supCmd_keeps ..
theorem execFwLockWrite_keeps (ini : Nat) (value : Nat) (s : State) (t : State) (h : execFwLockWrite ini value s = .next t) : Keeps s t := by
  cases h
  refine State.guarded_keeps _ _ _ _ _ _ _ fun u => ?_
  cases e : u.wardenWrite ini 0x240 (w32 value) with
  | none => exact Keeps.refl u
  | some r => exact State.wardenWrite_keeps _ _ _ _ _ e

theorem execSliceStart_keeps (u : Nat) (s : State) (t : State) (h : execSliceStart u s = .next t) : Keeps s t := by
  cases h
  try dsimp only
  repeat' first
    | with_reducible exact Keeps.refl _
    | with_reducible apply Keeps.after (State.setTestX_keeps ..)
    | with_reducible apply Keeps.foldl
    | intro _
    | split
    | simp only [Keeps.upd_iff, Keeps.ite_iff]
theorem execSliceDone_keeps (u : Nat) (pass : Bool) (s : State) (t : State) (h : execSliceDone u pass s = .next t) : Keeps s t := by cases h; exact State.sliceDone_keeps ..
theorem execDebtWindowEnd_keeps (s : State) (t : State) (h : execDebtWindowEnd s = .next t) : Keeps s t := by cases h; exact State.debtWindow_keeps ..
theorem execReadWardenStatus_keeps (a0 : Nat) (a1 : List Word) (s : State) (t : State) (h : execReadWardenStatus a0 a1 s = .next t) : Keeps s t := by cases h; exact callWardenStatus_keeps ..
theorem execArm_keeps (ini : Nat) (a1 : List Word) (s : State) (t : State) (h : execArm ini a1 s = .next t) : Keeps s t := by cases h; exact callArm_keeps ..
theorem execForceSafe_keeps (ini : Nat) (a1 : List Word) (s : State) (t : State) (h : execForceSafe ini a1 s = .next t) : Keeps s t := by cases h; exact callForceSafe_keeps ..
theorem execReleaseSafeState_keeps (ini : Nat) (a1 : List Word) (s : State) (t : State) (h : execReleaseSafeState ini a1 s = .next t) : Keeps s t := by cases h; exact callReleaseSafe_keeps ..
theorem execEnterOrLeaveTest_keeps (ini : Nat) (args : List Word) (s : State) (t : State) (h : execEnterOrLeaveTest ini args s = .next t) : Keeps s t := by cases h; exact callEnterTest_keeps ..
theorem execSetCheck_keeps (ini : Nat) (args : List Word) (s : State) (t : State) (h : execSetCheck ini args s = .next t) : Keeps s t := by cases h; exact callSetCheck_keeps ..
theorem execConfigureGate_keeps (ini : Nat) (args : List Word) (s : State) (t : State) (h : execConfigureGate ini args s = .next t) : Keeps s t := by cases h; exact callConfigureGate_keeps ..
theorem execWriteEnvelopes_keeps (ini : Nat) (args : List Word) (s : State) (t : State) (h : execWriteEnvelopes ini args s = .next t) : Keeps s t := by cases h; exact callWriteEnvelopes_keeps ..
theorem execConfigureCompareEntry_keeps (ini : Nat) (args : List Word) (s : State) (t : State) (h : execConfigureCompareEntry ini args s = .next t) : Keeps s t := by cases h; exact callConfigureCompare_keeps ..
theorem execConfigureStarter_keeps (ini : Nat) (args : List Word) (s : State) (t : State) (h : execConfigureStarter ini args s = .next t) : Keeps s t := by cases h; exact callConfigureStarter_keeps ..
theorem execConfigureSelfTest_keeps (ini : Nat) (args : List Word) (s : State) (t : State) (h : execConfigureSelfTest ini args s = .next t) : Keeps s t := by cases h; exact callConfigureSelfTest_keeps ..
theorem execOpenSupervisedTask_keeps (ini : Nat) (args : List Word) (s : State) (t : State) (h : execOpenSupervisedTask ini args s = .next t) : Keeps s t := by cases h; exact callOpenTask_keeps ..
theorem execCloseSupervisedTask_keeps (ini : Nat) (args : List Word) (s : State) (t : State) (h : execCloseSupervisedTask ini args s = .next t) : Keeps s t := by cases h; exact callCloseTask_keeps ..
theorem execWriteFirewall_keeps (ini : Nat) (args : List Word) (s : State) (t : State) (h : execWriteFirewall ini args s = .next t) : Keeps s t := by cases h; exact callWriteFirewall_keeps ..
theorem execReadWardenCounters_keeps (a0 : Nat) (a1 : List Word) (s : State) (t : State) (h : execReadWardenCounters a0 a1 s = .next t) : Keeps s t := by cases h; exact callWardenCounters_keeps ..
theorem execPinTest_keeps (ini : Nat) (args : List Word) (s : State) (t : State) (h : execPinTest ini args s = .next t) : Keeps s t := by cases h; exact callPinTest_keeps ..
theorem execDecisionPass_keeps (s : State) (t : State) (h : execDecisionPass s = .next t) : Keeps s t := by cases h; exact State.decidePass_keeps ..
theorem execPairFailure_keeps (pair : Nat) (s : State) (t : State) (h : execPairFailure pair s = .next t) : Keeps s t := by
  cases h
  try dsimp only
  repeat' first
    | with_reducible exact Keeps.refl _
    | with_reducible apply Keeps.after (State.recordFault_keeps ..)
    | with_reducible apply Keeps.after (State.pairFail_keeps ..)
    | with_reducible apply Keeps.foldl
    | intro _
    | split
    | simp only [Keeps.upd_iff, Keeps.ite_iff]
theorem execWardenWatchdogBite_keeps (s : State) (t : State) (h : execWardenWatchdogBite s = .next t) : Keeps s t := by cases h; exact State.wdBite_keeps ..
/-- Every command keeps the queue, the fuses, the part and the canonical form. -/
theorem exec_keeps (c : Instr) (s t : State) (h : exec c s = .next t) : Keeps s t := by
  cases c with
  | registerWrite ini addr width value => exact execRegisterWrite_keeps ini addr width value s t h
  | deviceInformation ini args => exact execDeviceInformation_keeps ini args s t h
  | claimUnit ini args => exact execClaimUnit_keeps ini args s t h
  | releaseUnit ini args => exact execReleaseUnit_keeps ini args s t h
  | rateWindowEnd mon count off => exact execRateWindowEnd_keeps mon count off s t h
  | ucbRequestDrain ini u => exact execUcbRequestDrain_keeps ini u s t h
  | ucbRequestTest ini u => exact execUcbRequestTest_keeps ini u s t h
  | ucbRequestReadmit ini u => exact execUcbRequestReadmit_keeps ini u s t h
  | unitDrained u => exact execUnitDrained_keeps u s t h
  | selfTestDone u pass => exact execSelfTestDone_keeps u pass s t h
  | readUnitControlBlock ini args => exact execReadUnitControlBlock_keeps ini args s t h
  | requestUnitState ini args => exact execRequestUnitState_keeps ini args s t h
  | listUnits ini args => exact execListUnits_keeps ini args s t h
  | readRateMonitors ini args => exact execReadRateMonitors_keeps ini args s t h
  | readNumericIdentity ini args => exact execReadNumericIdentity_keeps ini args s t h
  | windowBounds ini args => exact execWindowBounds_keeps ini args s t h
  | writeRescaleTable ini args => exact execWriteRescaleTable_keeps ini args s t h
  | readStatistics ini args => exact execReadStatistics_keeps ini args s t h
  | setScaleGuard ini args => exact execSetScaleGuard_keeps ini args s t h
  | readNumericTotals ini args => exact execReadNumericTotals_keeps ini args s t h
  | clCfgSpareWrite ini c value => exact execClCfgSpareWrite_keeps ini c value s t h
  | readClusterStatus ini args => exact execReadClusterStatus_keeps ini args s t h
  | formGang ini args => exact execFormGang_keeps ini args s t h
  | gangFormed g => exact execGangFormed_keeps g s t h
  | dissolveGang ini args => exact execDissolveGang_keeps ini args s t h
  | gangDissolved g => exact execGangDissolved_keeps g s t h
  | setSpareEnable ini args => exact execSetSpareEnable_keeps ini args s t h
  | readTileCounters ini args => exact execReadTileCounters_keeps ini args s t h
  | readStepTable ini args => exact execReadStepTable_keeps ini args s t h
  | teFeedWrite ini e value => exact execTeFeedWrite_keeps ini e value s t h
  | readToeEngineStatus ini args => exact execReadToeEngineStatus_keeps ini args s t h
  | bindToeFeed ini args => exact execBindToeFeed_keeps ini args s t h
  | readToeCounters ini args => exact execReadToeCounters_keeps ini args s t h
  | buildPaddingTapTable ini args => exact execBuildPaddingTapTable_keeps ini args s t h
  | winogradWindowBounds ini args => exact execWinogradWindowBounds_keeps ini args s t h
  | veCfgWrite ini v value => exact execVeCfgWrite_keeps ini v value s t h
  | readTableSet ini args => exact execReadTableSet_keeps ini args s t h
  | evaluateSpecialFunction ini args => exact execEvaluateSpecialFunction_keeps ini args s t h
  | readVectorEngineCounters ini args => exact execReadVectorEngineCounters_keeps ini args s t h
  | setArrivalOrder ini args => exact execSetArrivalOrder_keeps ini args s t h
  | doorbell ini q => exact execDoorbell_keeps ini q s t h
  | entryRead q => exact execEntryRead_keeps q s t h
  | startConditionMet q => exact execStartConditionMet_keeps q s t h
  | commandDispatch x => exact execCommandDispatch_keeps x s t h
  | instructionComplete x unit hs blocks bytes stalls => exact execInstructionComplete_keeps x unit hs blocks bytes stalls s t h
  | commandEpilogue x steps => exact execCommandEpilogue_keeps x steps s t h
  | eventRouteSignal c => exact execEventRouteSignal_keeps c s t h
  | budgetExpiry x => exact execBudgetExpiry_keeps x s t h
  | nop x => exact execNop_keeps x s t h
  | tdaddr x => exact execTdaddr_keeps x s t h
  | tdfmt x => exact execTdfmt_keeps x s t h
  | tdstride x => exact execTdstride_keeps x s t h
  | tdscale x => exact execTdscale_keeps x s t h
  | tddim x => exact execTddim_keeps x s t h
  | tdmemb x => exact execTdmemb_keeps x s t h
  | winset x => exact execWinset_keeps x s t h
  | cpset x => exact execCpset_keeps x s t h
  | sset x => exact execSset_keeps x s t h
  | fence x => exact execFence_keeps x s t h
  | only x => exact execOnly_keeps x s t h
  | rmset x => exact execRmset_keeps x s t h
  | move x => exact execMove_keeps x s t h
  | move2d x => exact execMove2d_keeps x s t h
  | fill x => exact execFill_keeps x s t h
  | scaletag x => exact execScaletag_keeps x s t h
  | pages x => exact execPages_keeps x s t h
  | matmul x => exact execMatmul_keeps x s t h
  | conv x => exact execConv_keeps x s t h
  | psadd x => exact execPsadd_keeps x s t h
  | elem x => exact execElem_keeps x s t h
  | special x => exact execSpecial_keeps x s t h
  | reduce x => exact execReduce_keeps x s t h
  | lnorm x => exact execLnorm_keeps x s t h
  | rmsnorm x => exact execRmsnorm_keeps x s t h
  | softmax x => exact execSoftmax_keeps x s t h
  | mxquant x => exact execMxquant_keeps x s t h
  | sgd x => exact execSgd_keeps x s t h
  | adam x => exact execAdam_keeps x s t h
  | blksoftmax x => exact execBlksoftmax_keeps x s t h
  | xreduce x => exact execXreduce_keeps x s t h
  | dwconv x => exact execDwconv_keeps x s t h
  | pool x => exact execPool_keeps x s t h
  | blkmerge x => exact execBlkmerge_keeps x s t h
  | merge x => exact execMerge_keeps x s t h
  | final x => exact execFinal_keeps x s t h
  | tconv x => exact execTconv_keeps x s t h
  | mwaitge x => exact execMwaitge_keeps x s t h
  | mwaiteq x => exact execMwaiteq_keeps x s t h
  | markWaitSatisfied x unit => exact execMarkWaitSatisfied_keeps x unit s t h
  | msignal x => exact execMsignal_keeps x s t h
  | madd x => exact execMadd_keeps x s t h
  | msignalr x => exact execMsignalr_keeps x s t h
  | maddr x => exact execMaddr_keeps x s t h
  | brkset x => exact execBrkset_keeps x s t h
  | lopen x => exact execLopen_keeps x s t h
  | lockPassageOpen x => exact execLockPassageOpen_keeps x s t h
  | lclose x => exact execLclose_keeps x s t h
  | remit x => exact execRemit_keeps x s t h
  | validateCommandBlock ini args => exact execValidateCommandBlock_keeps ini args s t h
  | readPecCapabilities ini args => exact execReadPecCapabilities_keeps ini args s t h
  | min lc => exact execMin_keeps lc s t h
  | mout lc => exact execMout_keeps lc s t h
  | fmak lc => exact execFmak_keeps lc s t h
  | fma lc => exact execFma_keeps lc s t h
  | add lc => exact execAdd_keeps lc s t h
  | sub lc => exact execSub_keeps lc s t h
  | mul lc => exact execMul_keeps lc s t h
  | clamp lc => exact execClamp_keeps lc s t h
  | biq lc => exact execBiq_keeps lc s t h
  | sstep lc => exact execSstep_keeps lc s t h
  | pid lc => exact execPid_keeps lc s t h
  | obs lc => exact execObs_keeps lc s t h
  | strec lc => exact execStrec_keeps lc s t h
  | polderAccess ini port addr len write data hs => exact execPolderAccess_keeps ini port addr len write data hs s t h
  | breakPoint b reqs => exact execBreakPoint_keeps b reqs s t h
  | gatherIdleFlush b row => exact execGatherIdleFlush_keeps b row s t h
  | sluiceWatchdogBite b => exact execSluiceWatchdogBite_keeps b s t h
  | creditWaitEnd x unit hs => exact execCreditWaitEnd_keeps x unit hs s t h
  | scrubRow b row outcome => exact execScrubRow_keeps b row outcome s t h
  | bankCopyDone b => exact execBankCopyDone_keeps b s t h
  | maintWaitLimit g => exact execMaintWaitLimit_keeps g s t h
  | bgIdleRetention g => exact execBgIdleRetention_keeps g s t h
  | bgLateWake g => exact execBgLateWake_keeps g s t h
  | pclLocWrite ini p value => exact execPclLocWrite_keeps ini p value s t h
  | pclOwnerWrite ini p value => exact execPclOwnerWrite_keeps ini p value s t h
  | pclCreditWrite ini p value => exact execPclCreditWrite_keeps ini p value s t h
  | pclRightWrite ini p idx value => exact execPclRightWrite_keeps ini p idx value s t h
  | createParcel ini args => exact execCreateParcel_keeps ini args s t h
  | parcelZeroed p => exact execParcelZeroed_keeps p s t h
  | deleteParcel ini args => exact execDeleteParcel_keeps ini args s t h
  | parcelDeletionMade p => exact execParcelDeletionMade_keeps p s t h
  | readParcel ini args => exact execReadParcel_keeps ini args s t h
  | setParcelRights ini args => exact execSetParcelRights_keeps ini args s t h
  | readCredits ini args => exact execReadCredits_keeps ini args s t h
  | setWaitLimits ini args => exact execSetWaitLimits_keeps ini args s t h
  | setSluiceWatchdog ini args => exact execSetSluiceWatchdog_keeps ini args s t h
  | readBankGroup ini args => exact execReadBankGroup_keeps ini args s t h
  | spareABank ini args => exact execSpareABank_keeps ini args s t h
  | setHazardDetector ini args => exact execSetHazardDetector_keeps ini args s t h
  | locateAddress ini args => exact execLocateAddress_keeps ini args s t h
  | qinval ini q => exact execQinval_keeps ini q s t h
  | qinvalAll ini => exact execQinvalAll_keeps ini s t h
  | clientWordWrite ini k value => exact execClientWordWrite_keeps ini k value s t h
  | markWindowWrite ini m value => exact execMarkWindowWrite_keeps ini m value s t h
  | markAddWrite ini value => exact execMarkAddWrite_keeps ini value s t h
  | reservationEffective q => exact execReservationEffective_keeps q s t h
  | xlateTimeoutExpiry x => exact execXlateTimeoutExpiry_keeps x s t h
  | createClient ini args => exact execCreateClient_keeps ini args s t h
  | setShare ini args => exact execSetShare_keeps ini args s t h
  | readClientAccounting ini args => exact execReadClientAccounting_keeps ini args s t h
  | createOrChangeQueue ini args => exact execCreateOrChangeQueue_keeps ini args s t h
  | deleteQueue ini args => exact execDeleteQueue_keeps ini args s t h
  | enableHaltOrResumeQueue ini args => exact execEnableHaltOrResumeQueue_keeps ini args s t h
  | reserve ini args => exact execReserve_keeps ini args s t h
  | releaseReservation ini args => exact execReleaseReservation_keeps ini args s t h
  | resolveTranslationStall ini args => exact execResolveTranslationStall_keeps ini args s t h
  | watchMark ini args => exact execWatchMark_keeps ini args s t h
  | signalOrAddMark ini args => exact execSignalOrAddMark_keeps ini args s t h
  | readQueue ini args => exact execReadQueue_keeps ini args s t h
  | sameBitsWrite ini value => exact execSameBitsWrite_keeps ini value s t h
  | setSameBitsMode ini args => exact execSetSameBitsMode_keeps ini args s t h
  | readFingerprint ini args => exact execReadFingerprint_keeps ini args s t h
  | verifyRind ini args => exact execVerifyRind_keeps ini args s t h
  | loadWeights ini args => exact execLoadWeights_keeps ini args s t h
  | weightsFoldDone p => exact execWeightsFoldDone_keeps p s t h
  | readWeightsDigest ini args => exact execReadWeightsDigest_keeps ini args s t h
  | clearWeightsDigest ini args => exact execClearWeightsDigest_keeps ini args s t h
  | readSameBitsCounters ini args => exact execReadSameBitsCounters_keeps ini args s t h
  | readQueueWeightsDigest ini args => exact execReadQueueWeightsDigest_keeps ini args s t h
  | axWrite hd addr len data late => exact execAxWrite_keeps hd addr len data late s t h
  | axMsignal hd mark value late => exact execAxMsignal_keeps hd mark value late s t h
  | axMadd hd mark value late => exact execAxMadd_keeps hd mark value late s t h
  | axCreditReq hd addr kib late => exact execAxCreditReq_keeps hd addr kib late s t h
  | axCreditGrant hd addr kib => exact execAxCreditGrant_keeps hd addr kib s t h
  | axCreditReturn hd addr kib late => exact execAxCreditReturn_keeps hd addr kib late s t h
  | axAck hd tagDone => exact execAxAck_keeps hd tagDone s t h
  | axNack hd tagBad cause => exact execAxNack_keeps hd tagBad cause s t h
  | axCtlFlit port ack bufs nak lanes width ringId npos pos formed twice fp seen => exact execAxCtlFlit_keeps port ack bufs nak lanes width ringId npos pos formed twice fp seen s t h
  | axFlitCrcError port lanes again came => exact execAxFlitCrcError_keeps port lanes again came s t h
  | retrainDone port good rtt => exact execRetrainDone_keeps port good rtt s t h
  | hopDown port hop cause => exact execHopDown_keeps port hop cause s t h
  | rerouteDone => exact execRerouteDone_keeps s t h
  | axIdleEntry port => exact execAxIdleEntry_keeps port s t h
  | wakePatternDetect port => exact execWakePatternDetect_keeps port s t h
  | linkAckTimeout pos stream tag => exact execLinkAckTimeout_keeps pos stream tag s t h
  | ringFormed bonds => exact execRingFormed_keeps bonds s t h
  | formRing ini args => exact execFormRing_keeps ini args s t h
  | dissolveRing ini args => exact execDissolveRing_keeps ini args s t h
  | ringDissolved => exact execRingDissolved_keeps s t h
  | readRing ini args => exact execReadRing_keeps ini args s t h
  | readPort ini args => exact execReadPort_keeps ini args s t h
  | configurePort ini args => exact execConfigurePort_keeps ini args s t h
  | sendWake ini args => exact execSendWake_keeps ini args s t h
  | setRingLimits ini args => exact execSetRingLimits_keeps ini args s t h
  | remoteMarkOperation ini args => exact execRemoteMarkOperation_keeps ini args s t h
  | liveEnableWrite ini v value => exact execLiveEnableWrite_keeps ini v value s t h
  | liveFrameTake v => exact execLiveFrameTake_keeps v s t h
  | liveFrameDone v hs => exact execLiveFrameDone_keeps v hs s t h
  | jobCtlStart ini v => exact execJobCtlStart_keeps ini v s t h
  | jobCtlStop ini v => exact execJobCtlStop_keeps ini v s t h
  | jobCtlResume ini v => exact execJobCtlResume_keeps ini v s t h
  | jobCtlAbort ini v => exact execJobCtlAbort_keeps ini v s t h
  | sampleDecodeDone v dec ns => exact execSampleDecodeDone_keeps v dec ns s t h
  | decodeDeferTimeout v => exact execDecodeDeferTimeout_keeps v s t h
  | decodeHardLimit v pos => exact execDecodeHardLimit_keeps v pos s t h
  | batchDone v => exact execBatchDone_keeps v s t h
  | hostDecodeDone v pos done ns raw => exact execHostDecodeDone_keeps v pos done ns raw s t h
  | vatFetchTimeoutExpiry v => exact execVatFetchTimeoutExpiry_keeps v s t h
  | readVatStatus ini args => exact execReadVatStatus_keeps ini args s t h
  | setLiveStream ini args => exact execSetLiveStream_keeps ini args s t h
  | startBatchJob ini args => exact execStartBatchJob_keeps ini args s t h
  | stopOrAbortJob ini args => exact execStopOrAbortJob_keeps ini args s t h
  | resolveJobStall ini args => exact execResolveJobStall_keeps ini args s t h
  | configureCellar ini args => exact execConfigureCellar_keeps ini args s t h
  | invalidateCellar ini args => exact execInvalidateCellar_keeps ini args s t h
  | setSlowDecodeLimits ini args => exact execSetSlowDecodeLimits_keeps ini args s t h
  | setSharedDecode ini args => exact execSetSharedDecode_keeps ini args s t h
  | referenceDecode ini args => exact execReferenceDecode_keeps ini args s t h
  | readVatCounters ini args => exact execReadVatCounters_keeps ini args s t h
  | csi2FrameStart link vc hdr => exact execCsi2FrameStart_keeps link vc hdr s t h
  | csi2Line link vc dt hdr crc overflow payload freed => exact execCsi2Line_keeps link vc dt hdr crc overflow payload freed s t h
  | csi2EmbeddedLine link vc hdr crc payload => exact execCsi2EmbeddedLine_keeps link vc hdr crc payload s t h
  | csi2FrameEnd link vc hdr linePs rate => exact execCsi2FrameEnd_keeps link vc hdr linePs rate s t h
  | frameLateExpiry p => exact execFrameLateExpiry_keeps p s t h
  | cameraMove p => exact execCameraMove_keeps p s t h
  | clStreamWrite ini l idx value => exact execClStreamWrite_keeps ini l idx value s t h
  | ppCtlLoad ini p => exact execPpCtlLoad_keeps ini p s t h
  | ppCtlStart ini p => exact execPpCtlStart_keeps ini p s t h
  | ppCtlStop ini p => exact execPpCtlStop_keeps ini p s t h
  | ppCtlStopNow ini p => exact execPpCtlStopNow_keeps ini p s t h
  | ppPsetGo ini p value => exact execPpPsetGo_keeps ini p value s t h
  | readLink ini args => exact execReadLink_keeps ini args s t h
  | configureLink ini args => exact execConfigureLink_keeps ini args s t h
  | loadDescriptor ini args => exact execLoadDescriptor_keeps ini args s t h
  | startOrStopPipeline ini args => exact execStartOrStopPipeline_keeps ini args s t h
  | pushParameterSet ini args => exact execPushParameterSet_keeps ini args s t h
  | setFlickerThreshold ini args => exact execSetFlickerThreshold_keeps ini args s t h
  | setSpare ini args => exact execSetSpare_keeps ini args s t h
  | moveCamera ini args => exact execMoveCamera_keeps ini args s t h
  | readPipeline ini args => exact execReadPipeline_keeps ini args s t h
  | millSegment lc => exact execMillSegment_keeps lc s t h
  | millSegmentOverrun lc => exact execMillSegmentOverrun_keeps lc s t h
  | millCoreFault core late => exact execMillCoreFault_keeps core late s t h
  | lawCtlGo ini l fb => exact execLawCtlGo_keeps ini l fb s t h
  | loopCtlEnable ini l => exact execLoopCtlEnable_keeps ini l s t h
  | loopCtlDisable ini l => exact execLoopCtlDisable_keeps ini l s t h
  | loopCtlFallback ini l => exact execLoopCtlFallback_keeps ini l s t h
  | loopCtlReturn ini l => exact execLoopCtlReturn_keeps ini l s t h
  | coefWr ini value => exact execCoefWr_keeps ini value s t h
  | encoderEdge idx illegal up => exact execEncoderEdge_keeps idx illegal up s t h
  | encoderIndex idx => exact execEncoderIndex_keeps idx s t h
  | serialReadDone idx raw crc start => exact execSerialReadDone_keeps idx raw crc start s t h
  | pwmPeriodStart tb => exact execPwmPeriodStart_keeps tb s t h
  | axisFrameReceive p src group kind words => exact execAxisFrameReceive_keeps p src group kind words s t h
  | axisFrameStale f => exact execAxisFrameStale_keeps f s t h
  | axisFramePartialSend f => exact execAxisFramePartialSend_keeps f s t h
  | qbvGateEntryEnd p => exact execQbvGateEntryEnd_keeps p s t h
  | qbvSwap ini p value => exact execQbvSwap_keeps ini p value s t h
  | readMillStatus ini args => exact execReadMillStatus_keeps ini args s t h
  | configureLoop ini args => exact execConfigureLoop_keeps ini args s t h
  | loadLaw ini args => exact execLoadLaw_keeps ini args s t h
  | enableOrDisableLoop ini args => exact execEnableOrDisableLoop_keeps ini args s t h
  | writeCoefficients ini args => exact execWriteCoefficients_keeps ini args s t h
  | readCoefficients ini args => exact execReadCoefficients_keeps ini args s t h
  | readLoop ini args => exact execReadLoop_keeps ini args s t h
  | configureEncoder ini args => exact execConfigureEncoder_keeps ini args s t h
  | configurePwm ini args => exact execConfigurePwm_keeps ini args s t h
  | clearLoopFlags ini args => exact execClearLoopFlags_keeps ini args s t h
  | fallbackOrReturn ini args => exact execFallbackOrReturn_keeps ini args s t h
  | configureAxisFrame ini args => exact execConfigureAxisFrame_keeps ini args s t h
  | bindTrigger ini args => exact execBindTrigger_keeps ini args s t h
  | decisionPass => exact execDecisionPass_keeps s t h
  | gateSetCheck => exact execGateSetCheck_keeps s t h
  | setDeadlineExpiry => exact execSetDeadlineExpiry_keeps s t h
  | digestCompare e => exact execDigestCompare_keeps e s t h
  | digestPeriodExpiry e => exact execDigestPeriodExpiry_keeps e s t h
  | starterCheck idx => exact execStarterCheck_keeps idx s t h
  | hbWordWrite value => exact execHbWordWrite_keeps value s t h
  | hbTimeoutExpiry => exact execHbTimeoutExpiry_keeps s t h
  | pairFailure pair => exact execPairFailure_keeps pair s t h
  | wardenWatchdogBite => exact execWardenWatchdogBite_keeps s t h
  | pinFeedbackTimeout pin => exact execPinFeedbackTimeout_keeps pin s t h
  | taskDeadlineExpiry v => exact execTaskDeadlineExpiry_keeps v s t h
  | sliceStart u => exact execSliceStart_keeps u s t h
  | sliceDone u pass => exact execSliceDone_keeps u pass s t h
  | debtWindowEnd => exact execDebtWindowEnd_keeps s t h
  | wdCmdArm ini => exact execWdCmdArm_keeps ini s t h
  | wdCmdForceSafe ini => exact execWdCmdForceSafe_keeps ini s t h
  | wdCmdRelease ini => exact execWdCmdRelease_keeps ini s t h
  | wdCmdEnterTest ini => exact execWdCmdEnterTest_keeps ini s t h
  | wdCmdLeaveTest ini => exact execWdCmdLeaveTest_keeps ini s t h
  | supCmdWrite value => exact execSupCmdWrite_keeps value s t h
  | fwLockWrite ini value => exact execFwLockWrite_keeps ini value s t h
  | readWardenStatus ini args => exact execReadWardenStatus_keeps ini args s t h
  | arm ini args => exact execArm_keeps ini args s t h
  | forceSafe ini args => exact execForceSafe_keeps ini args s t h
  | releaseSafeState ini args => exact execReleaseSafeState_keeps ini args s t h
  | enterOrLeaveTest ini args => exact execEnterOrLeaveTest_keeps ini args s t h
  | setCheck ini args => exact execSetCheck_keeps ini args s t h
  | configureGate ini args => exact execConfigureGate_keeps ini args s t h
  | writeEnvelopes ini args => exact execWriteEnvelopes_keeps ini args s t h
  | configureCompareEntry ini args => exact execConfigureCompareEntry_keeps ini args s t h
  | configureStarter ini args => exact execConfigureStarter_keeps ini args s t h
  | configureSelfTest ini args => exact execConfigureSelfTest_keeps ini args s t h
  | openSupervisedTask ini args => exact execOpenSupervisedTask_keeps ini args s t h
  | closeSupervisedTask ini args => exact execCloseSupervisedTask_keeps ini args s t h
  | writeFirewall ini args => exact execWriteFirewall_keeps ini args s t h
  | readWardenCounters ini args => exact execReadWardenCounters_keeps ini args s t h
  | pinTest ini args => exact execPinTest_keeps ini args s t h
  | comparatorFire n => exact execComparatorFire_keeps n s t h
  | slewStep => exact execSlewStep_keeps s t h
  | incrWrite ini value => exact execIncrWrite_keeps ini value s t h
  | adjCtlSlew ini force => exact execAdjCtlSlew_keeps ini force s t h
  | adjCtlStep ini force => exact execAdjCtlStep_keeps ini force s t h
  | adjCtlCancelSlew ini => exact execAdjCtlCancelSlew_keeps ini s t h
  | setCtlGo ini force => exact execSetCtlGo_keeps ini force s t h
  | cmpTargetCommit ini n value => exact execCmpTargetCommit_keeps ini n value s t h
  | gaugeClaimClaim ini kind idx n => exact execGaugeClaimClaim_keeps ini kind idx n s t h
  | gaugeClaimRelease ini kind idx n => exact execGaugeClaimRelease_keeps ini kind idx n s t h
  | refclkLoss => exact execRefclkLoss_keeps s t h
  | refclkRestore => exact execRefclkRestore_keeps s t h
  | ethFrameReceive p data good stack master offset delay => exact execEthFrameReceive_keeps p data good stack master offset delay s t h
  | announceTimeout => exact execAnnounceTimeout_keeps s t h
  | pulseEnd n => exact execPulseEnd_keeps n s t h
  | captureEdge ball rising => exact execCaptureEdge_keeps ball rising s t h
  | capNsRead ini n => exact execCapNsRead_keeps ini n s t h
  | canFrameReceive c ide rtr fdf brs esi id dlc sof data => exact execCanFrameReceive_keeps c ide rtr fdf brs esi id dlc sof data s t h
  | canObjReq ini c o value => exact execCanObjReq_keeps ini c o value s t h
  | canTxDone c sof => exact execCanTxDone_keeps c sof s t h
  | canBusError c err tec rec tx => exact execCanBusError_keeps c err tec rec tx s t h
  | canTxLateExpiry c o => exact execCanTxLateExpiry_keeps c o s t h
  | cnCmdRecover ini c => exact execCnCmdRecover_keeps ini c s t h
  | canRecoveryDone c => exact execCanRecoveryDone_keeps c s t h
  | cnCmdAbort ini c o => exact execCnCmdAbort_keeps ini c o s t h
  | readTime ini args => exact execReadTime_keeps ini args s t h
  | adjustTime ini args => exact execAdjustTime_keeps ini args s t h
  | setIncrement ini args => exact execSetIncrement_keeps ini args s t h
  | claimOrReleaseComparator ini args => exact execClaimOrReleaseComparator_keeps ini args s t h
  | configureComparator ini args => exact execConfigureComparator_keeps ini args s t h
  | configurePulseOrCapture ini args => exact execConfigurePulseOrCapture_keeps ini args s t h
  | configureTimeProtocol ini args => exact execConfigureTimeProtocol_keeps ini args s t h
  | readTimeProtocol ini args => exact execReadTimeProtocol_keeps ini args s t h
  | readCanObject ini args => exact execReadCanObject_keeps ini args s t h
  | configureGeneralRings ini args => exact execConfigureGeneralRings_keeps ini args s t h
  | configureCanController ini args => exact execConfigureCanController_keeps ini args s t h
  | writeCanObject ini args => exact execWriteCanObject_keeps ini args s t h
  | recoverCanController ini args => exact execRecoverCanController_keeps ini args s t h
  | pcieRequest kind fn bar off n data => exact execPcieRequest_keeps kind fn bar off n data s t h
  | functionLevelReset n => exact execFunctionLevelReset_keeps n s t h
  | pcieLinkDown => exact execPcieLinkDown_keeps s t h
  | pcieLinkUp speed width => exact execPcieLinkUp_keeps speed width s t h
  | msixEntryWrite ini n idx k value => exact execMsixEntryWrite_keeps ini n idx k value s t h
  | vfDoorbell n value => exact execVfDoorbell_keeps n value s t h
  | translationWalkDone client mem input write => exact execTranslationWalkDone_keeps client mem input write s t h
  | xlInvalGo ini value => exact execXlInvalGo_keeps ini value s t h
  | xlInvalidationDone => exact execXlInvalidationDone_keeps s t h
  | sdioCommand write fn off n fixed data => exact execSdioCommand_keeps write fn off n fixed data s t h
  | sdioFunctionReset fn => exact execSdioFunctionReset_keeps fn s t h
  | mbCallGo ini ch value => exact execMbCallGo_keeps ini ch value s t h
  | mbCallServe => exact execMbCallServe_keeps s t h
  | callDone => exact execCallDone_keeps s t h
  | mbDoneRead ini ch => exact execMbDoneRead_keeps ini ch s t h
  | mbStatusRead ini ch => exact execMbStatusRead_keeps ini ch s t h
  | readPcieStatus ini args => exact execReadPcieStatus_keeps ini args s t h
  | setVfVectors ini args => exact execSetVfVectors_keeps ini args s t h
  | setTranslationContext ini args => exact execSetTranslationContext_keeps ini args s t h
  | invalidateTranslations ini args => exact execInvalidateTranslations_keeps ini args s t h
  | readTranslationFault ini args => exact execReadTranslationFault_keeps ini args s t h
  | translate ini args => exact execTranslate_keeps ini args s t h
  | readSdioStatus ini args => exact execReadSdioStatus_keeps ini args s t h
  | setLpddr4xWindow ini args => exact execSetLpddr4xWindow_keeps ini args s t h
  | gpioSetWrite ini value => exact execGpioSetWrite_keeps ini value s t h
  | gpioClrWrite ini value => exact execGpioClrWrite_keeps ini value s t h
  | setGpio ini args => exact execSetGpio_keeps ini args s t h
  | readGpio ini args => exact execReadGpio_keeps ini args s t h
  | setGpioOwner ini args => exact execSetGpioOwner_keeps ini args s t h
  | pwrCmdRun ini => exact execPwrCmdRun_keeps ini s t h
  | pwrCmdTrim ini => exact execPwrCmdTrim_keeps ini s t h
  | pwrCmdDoze ini => exact execPwrCmdDoze_keeps ini s t h
  | pwrCmdSleep ini => exact execPwrCmdSleep_keeps ini s t h
  | powerAnswer u timeUp => exact execPowerAnswer_keeps u timeUp s t h
  | powerAnswerTimeout u => exact execPowerAnswerTimeout_keeps u s t h
  | powerEntryDone => exact execPowerEntryDone_keeps s t h
  | wake src u => exact execWake_keeps src u s t h
  | powerExitDone => exact execPowerExitDone_keeps s t h
  | trimIdleExpiry u => exact execTrimIdleExpiry_keeps u s t h
  | domainPowerUpDone => exact execDomainPowerUpDone_keeps s t h
  | vcoreSetWrite ini value => exact execVcoreSetWrite_keeps ini value s t h
  | capWWrite ini value => exact execCapWWrite_keeps ini value s t h
  | setpointStepDone ok => exact execSetpointStepDone_keeps ok s t h
  | powerWindowEnd est => exact execPowerWindowEnd_keeps est s t h
  | readPowerStatus ini args => exact execReadPowerStatus_keeps ini args s t h
  | requestState ini args => exact execRequestState_keeps ini args s t h
  | setVddCoreSetPoint ini args => exact execSetVddCoreSetPoint_keeps ini args s t h
  | setPowerCap ini args => exact execSetPowerCap_keeps ini args s t h
  | setWakeSources ini args => exact execSetWakeSources_keeps ini args s t h
  | setTrimIdle ini args => exact execSetTrimIdle_keeps ini args s t h
  | readPowerCounters ini args => exact execReadPowerCounters_keeps ini args s t h
  | powerOnReset m1 m2 otpOk ddrOk fails us => exact execPowerOnReset_keeps m1 m2 otpOk ddrOk fails us s t h
  | resetNAssert otpOk ddrOk fails us => exact execResetNAssert_keeps otpOk ddrOk fails us s t h
  | consentExpiry => exact execConsentExpiry_keeps s t h
  | readBootStatus ini args => exact execReadBootStatus_keeps ini args s t h
  | readCatalogue ini args => exact execReadCatalogue_keeps ini args s t h
  | verifyImage ini args => exact execVerifyImage_keeps ini args s t h
  | updateProcessor ini args => exact execUpdateProcessor_keeps ini args s t h
  | readUpdateStatus ini args => exact execReadUpdateStatus_keeps ini args s t h
  | consentToWardenUpdate ini args => exact execConsentToWardenUpdate_keeps ini args s t h
  | raiseSecurityVersion ini args => exact execRaiseSecurityVersion_keeps ini args s t h
  | revokeRootSlot ini args => exact execRevokeRootSlot_keeps ini args s t h
  | readIdentity ini args => exact execReadIdentity_keeps ini args s t h
  | attestationQuote ini args => exact execAttestationQuote_keeps ini args s t h
  | readFactoryCalibration ini args => exact execReadFactoryCalibration_keeps ini args s t h
  | setCalibrationKeys ini args => exact execSetCalibrationKeys_keeps ini args s t h
  | applyCalibrationSet ini args => exact execApplyCalibrationSet_keeps ini args s t h
  | readCalibrationInForce ini args => exact execReadCalibrationInForce_keeps ini args s t h
  | bootImage ini args => exact execBootImage_keeps ini args s t h
  | commitRunningSet ini args => exact execCommitRunningSet_keeps ini args s t h
  | faultDetected unit code addr d0 d1 x => exact execFaultDetected_keeps unit code addr d0 d1 x s t h
  | procWatchdogBite u => exact execProcWatchdogBite_keeps u s t h
  | mpTakeover => exact execMpTakeover_keeps s t h
  | spTakeover => exact execSpTakeover_keeps s t h
  | tempSample temps => exact execTempSample_keeps temps s t h
  | railOutOfRange rail back => exact execRailOutOfRange_keeps rail back s t h
  | pmbusAlert => exact execPmbusAlert_keeps s t h
  | transientWindowEnd => exact execTransientWindowEnd_keeps s t h
  | lpddrScrub m ce ues => exact execLpddrScrub_keeps m ce ues s t h
  | readFaultStatus ini args => exact execReadFaultStatus_keeps ini args s t h
  | readFaultRecords ini args => exact execReadFaultRecords_keeps ini args s t h
  | acknowledgeRecords ini args => exact execAcknowledgeRecords_keeps ini args s t h
  | setFaultOptions ini args => exact execSetFaultOptions_keeps ini args s t h
  | readUnitHealth ini args => exact execReadUnitHealth_keeps ini args s t h
  | readSpares ini args => exact execReadSpares_keeps ini args s t h
  | injectFault ini args => exact execInjectFault_keeps ini args s t h
  | readFaultCounters ini args => exact execReadFaultCounters_keeps ini args s t h
  | sensorWriteDone master ack => exact execSensorWriteDone_keeps master ack s t h
  | clockStretchTimeout master => exact execClockStretchTimeout_keeps master s t h
  | ethFrameSent p => exact execEthFrameSent_keeps p s t h
  | ethLinkChange p up => exact execEthLinkChange_keeps p up s t h
  | supplyLoss => exact execSupplyLoss_keeps s t h
  | selfTestPowerUp u => exact execSelfTestPowerUp_keeps u s t h
end Sys2Proof.Machine
end

