-- ==== Sys2Proof/Laws/Memory.lean ====
section
/-! SUPPORT. Read after write, of a byte, of bytes and of words, in Polder, LPDDR4X and host memory. -/
namespace Sys2Proof.Machine

theorem byte_setByte (s : State) (a b : Nat) (v : Byte) : (s.setByte a v).byte b = if b = a then v else s.byte b := by
  unfold State.setByte State.byte
  rw [SMap.get_set]

theorem byte_setBytes (s : State) (a b : Nat) (l : List Byte) :
    (s.setBytes a l).byte b = if a ≤ b ∧ b < a + l.length then nth l (b - a) 0 else s.byte b := by
  induction l generalizing s a with
  | nil => rw [if_neg (by simp)]; rfl
  | cons v t ih =>
    unfold State.setBytes
    rw [ih, byte_setByte]
    by_cases e : b = a
    · subst e
      rw [if_neg (by omega), if_pos rfl, if_pos (by simp)]
      simp [nth]
    · by_cases h : a + 1 ≤ b ∧ b < a + 1 + t.length
      · rw [if_pos h, if_pos (by simp; omega)]
        have : b - a = (b - (a + 1)) + 1 := by omega
        rw [this]; simp [nth]
      · rw [if_neg h, if_neg e, if_neg (by simp; omega)]

/-- Storing bytes changes memory alone. -/
theorem setBytes_eq (s : State) (a : Nat) (l : List Byte) : s.setBytes a l = { s with mem := (s.setBytes a l).mem } := by
  induction l generalizing s a with
  | nil => rfl
  | cons v t ih => unfold State.setBytes; exact (ih (s.setByte a v) (a + 1)).trans rfl

theorem bytes_setBytes (s : State) (a : Nat) (l : List Byte) : (s.setBytes a l).bytes a l.length = l := by
  unfold State.bytes
  apply List.ext_getElem
  · simp
  · intro i h1 h2
    simp only [List.getElem_map, List.getElem_range]
    rw [byte_setBytes, if_pos ⟨by omega, by omega⟩]
    simp [nth, h2]

theorem bytes_setBytes_ne (s : State) (a b n : Nat) (l : List Byte) (h : b + n ≤ a ∨ a + l.length ≤ b) :
    (s.setBytes a l).bytes b n = s.bytes b n := by
  unfold State.bytes
  apply List.map_congr_left
  intro i m
  rw [byte_setBytes, if_neg]
  have := List.mem_range.mp m; omega

theorem setBytes_append (s : State) (a : Nat) (l m : List Byte) : s.setBytes a (l ++ m) = (s.setBytes a l).setBytes (a + l.length) m := by
  induction l generalizing s a with
  | nil => rfl
  | cons v t ih =>
    show (s.setByte a v).setBytes (a + 1) (t ++ m) = _
    rw [ih]
    show _ = ((s.setByte a v).setBytes (a + 1) t).setBytes _ m
    congr 1; simp; omega

theorem bytesNat_lt (l : List Byte) : bytesNat l < 256 ^ l.length := by
  induction l with
  | nil => simp [bytesNat]
  | cons b t ih =>
    have := b.isLt
    simp only [bytesNat, List.length_cons, pow_succ]; omega

/-- A word reads back as it was stored. -/
theorem rdW_setBytes_word (s : State) (a : Nat) (v : Word) : (s.setBytes a (natBytes 4 v.toNat)).rdW a = v := by
  unfold State.rdW State.rdN
  have := bytes_setBytes s a (natBytes 4 v.toNat)
  rw [natBytes_length] at this
  rw [this, bytesNat_natBytes]
  apply BitVec.eq_of_toNat_eq
  have := v.isLt
  simp; omega

theorem rdW_setBytes_ne (s : State) (a b : Nat) (l : List Byte) (h : b + 4 ≤ a ∨ a + l.length ≤ b) :
    (s.setBytes a l).rdW b = s.rdW b := by
  unfold State.rdW State.rdN
  rw [bytes_setBytes_ne s a b 4 l h]

/-- Word i of a stored list of words reads back. -/
theorem rdW_setBytes_words (s : State) (a : Nat) (l : List Word) (i : Nat) (h : i < l.length) :
    (s.setBytes a (l.flatMap fun w => natBytes 4 w.toNat)).rdW (a + 4 * i) = nth l i 0 := by
  induction l generalizing s a i with
  | nil => cases h
  | cons v t ih =>
    rw [List.flatMap_cons, setBytes_append, natBytes_length]
    cases i with
    | zero =>
      rw [rdW_setBytes_ne _ _ _ _ (by omega)]
      exact rdW_setBytes_word s a v
    | succ i =>
      have := ih (s.setBytes a (natBytes 4 v.toNat)) (a + 4) i (by simpa using h)
      have e : a + 4 * (i + 1) = a + 4 + 4 * i := by omega
      rw [e, this]; simp [nth]

theorem words_length (l : List Word) : (l.flatMap fun w => natBytes 4 w.toNat).length = 4 * l.length := by
  induction l with
  | nil => rfl
  | cons a t ih => rw [List.flatMap_cons, List.length_append, ih, natBytes_length, List.length_cons]; omega

theorem hostByte_setHostByte (s : State) (a b : Nat) (v : Byte) : (s.setHostByte a v).hostByte b = if b = a then v else s.hostByte b := by
  unfold State.setHostByte State.hostByte
  rw [SMap.get_set]

theorem nth_setNth_if {α : Type} (l : List α) (i j : Nat) (v d : α) (h : i < l.length) :
    nth (setNth l i v) j d = if j = i then v else nth l j d := by
  induction l generalizing i j with
  | nil => cases h
  | cons a t ih =>
    cases i with
    | zero => cases j with
      | zero => simp [setNth, nth]
      | succ j => simp [setNth, nth]
    | succ i => cases j with
      | zero => simp [setNth, nth]
      | succ j =>
        have := ih i j (by simpa using h)
        simp only [setNth, nth, List.getD_cons_succ] at this ⊢
        rw [this]; simp

theorem setNth_length {α : Type} (l : List α) (i : Nat) (v : α) : (setNth l i v).length = l.length := by
  induction l generalizing i with
  | nil => rfl
  | cons a t ih => cases i with
    | zero => rfl
    | succ i => simp [setNth, ih]

end Sys2Proof.Machine
end

