-- ==== Sys2Proof/Laws/Shared.lean ====
section
/-! SUPPORT. What the shared operations do, once each: guarded writes, contexts, registers, marks, cached queues. -/
open Sys2Proof.Machine
namespace Sys2Proof
theorem guarded_of_admits {s : State} {ini u off : Nat} {v : Word} {o : Bool} (h : s.Admits ini u off v o) (act : State → State) :
    s.guarded ini u off v o act = act s := by
  obtain ⟨h1, h2, h3, r, h4, h5⟩ := h
  have h6 : (!o && !s.mayWrite ini u) = false := by rcases h3 with h | h <;> simp [h]
  simp [State.guarded, h1, h2, h6, h4, h5]
theorem mayChange_of {s : State} {u : Nat} (h : s.Changeable u) : s.mayChange u = OK := by
  simp [State.mayChange, h.1, h.2]
theorem lowest_none {n : Nat} {p : Nat → Bool} (h : ∀ i, i < n → p i = false) : lowest n p = none := by
  unfold lowest
  simp only [List.find?_eq_none, List.mem_range]
  intro i hi; simp [h i hi]
theorem decodeStep_ready {s : State} {x : Ctx} {r : CtxRun} {w : Dword} (h : s.Ready x r w)
    (act : State → CtxRun → Dword → Nat → State) :
    s.decodeStep x (wOp w) act = act (s.updRun x fun q => { q with pos := q.pos + 1 }) r w r.pos := by
  obtain ⟨h1, h2, h3, h4, h5, h6, h7, h8⟩ := h
  have n : ¬r.code.length ≤ r.pos := by omega
  have h6' : nth r.code r.pos 0#64 = w := h6
  simp [State.decodeStep, h1, h2, h3, h4, n, h6', h8]
theorem updFirst_find {p : CtxRun → Bool} {f : CtxRun → CtxRun} (hf : ∀ r, p (f r) = p r) (l : List CtxRun) :
    (updFirst p f l).find? p = (l.find? p).map f := by
  induction l with
  | nil => rfl
  | cons a t ih =>
    unfold updFirst
    by_cases h : p a = true
    · rw [if_pos h, List.find?_cons_of_pos (by rw [hf, h]), List.find?_cons_of_pos h]; rfl
    · rw [if_neg h, List.find?_cons_of_neg h, List.find?_cons_of_neg h, ih]
theorem updFirst_find_ne {p q : CtxRun → Bool} {f : CtxRun → CtxRun} (hf : ∀ r, q (f r) = q r) (hn : ∀ r, p r = true → q r = false)
    (l : List CtxRun) : (updFirst p f l).find? q = l.find? q := by
  induction l with
  | nil => rfl
  | cons a t ih =>
    unfold updFirst
    by_cases h : p a = true
    · rw [if_pos h, List.find?_cons_of_neg (by rw [hf, hn a h]; simp), List.find?_cons_of_neg (by rw [hn a h]; simp)]
    · rw [if_neg h]
      by_cases k : q a = true
      · rw [List.find?_cons_of_pos k, List.find?_cons_of_pos k]
      · rw [List.find?_cons_of_neg k, List.find?_cons_of_neg k, ih]
theorem run_updRun (s : State) (x : Ctx) (f : CtxRun → CtxRun) (hf : ∀ r, (f r).ctx = r.ctx) :
    (s.updRun x f).run x = (s.run x).map f := by
  unfold State.updRun State.run
  exact updFirst_find (fun r => by simp [hf]) _
theorem run_updRun_ne (s : State) (x y : Ctx) (n : y ≠ x) (f : CtxRun → CtxRun) (hf : ∀ r, (f r).ctx = r.ctx) :
    (s.updRun x f).run y = s.run y := by
  unfold State.updRun State.run
  exact updFirst_find_ne (fun r => by simp [hf]) (fun r h => by simp at h ⊢; intro k; exact n (k.symm.trans h)) _
theorem run_pos {s : State} {x : Ctx} {r : CtxRun} (h : s.run x = some r) :
    (s.updRun x fun q => { q with pos := q.pos + 1 }).run x = some { r with pos := r.pos + 1 } := by
  rw [run_updRun s x (fun q => { q with pos := q.pos + 1 }) (fun _ => rfl), h]; rfl
theorem run_pos_ne {s : State} {x y : Ctx} (n : y ≠ x) :
    (s.updRun x fun q => { q with pos := q.pos + 1 }).run y = s.run y :=
  run_updRun_ne s x y n (fun q => { q with pos := q.pos + 1 }) (fun _ => rfl)
theorem paused {s : State} {x : Ctx} {r : CtxRun} (h : s.run x = some r) (y : Stall) :
    ((s.updRun x fun q => { q with pos := q.pos + 1 }).updRun x fun q => { q with stall := some y }).run x =
      some { r with pos := r.pos + 1, stall := some y } ∧
    (∀ z, z ≠ x → ((s.updRun x fun q => { q with pos := q.pos + 1 }).updRun x fun q => { q with stall := some y }).run z = s.run z) ∧
    (s.updRun x fun q => { q with pos := q.pos + 1 }).updRun x (fun q => { q with stall := some y }) =
      { s with ctxs := ((s.updRun x fun q => { q with pos := q.pos + 1 }).updRun x fun q => { q with stall := some y }).ctxs } := by
  refine ⟨?_, ?_, rfl⟩
  · refine (run_updRun _ x (fun q => { q with stall := some y }) ?_).trans ?_
    · intro _; rfl
    · rw [run_pos h]; rfl
  · intro z n
    refine (run_updRun_ne _ x z n (fun q => { q with stall := some y }) ?_).trans (run_pos_ne n)
    intro _; rfl
theorem run_ctx {s : State} {x : Ctx} {r : CtxRun} (h : s.run x = some r) : r.ctx = x := by
  unfold State.run at h; simpa using List.find?_some h
theorem rk_ne {u v a b : Nat} (ha : a < 0x10000) (hb : b < 0x10000) (h : (u, a) ≠ (v, b)) : rk u a ≠ rk v b := by
  unfold rk; intro e; apply h; simp only [Prod.mk.injEq]; omega
theorem rd_wr_ne (s : State) (u a v b : Nat) (x : Word) (h : rk v b ≠ rk u a) : (s.wr u a x).rd v b = s.rd v b := by
  unfold State.wr State.rd; exact SMap.get_set_ne _ _ _ _ _ h
theorem mark_putMark (s : State) (m v : Nat) : (s.putMark m v).mark m = v % 2 ^ 32 := by
  simp [State.putMark, State.mark, w32_toNat]
theorem mark_putMark_ne (s : State) (m v n : Nat) (h : n ≠ m) : (s.putMark m v).mark n = s.mark n := by
  unfold State.putMark State.mark; rw [SMap.get_set_ne _ _ _ _ _ h]
theorem Gives.of {c : Instr} {s t u : State} {P : State → Prop} (e : exec c s = .next t) (k : t = u) (p : P u) : Gives c s P := ⟨u, k ▸ e, p⟩
theorem dec_next {x : Ctx} {s : State} {r : CtxRun} {w : Dword} (h : s.Ready x r w) {op : Nat} (e : wOp w = op) (act : State → CtxRun → Dword → Nat → State) :
    s.decodeStep x op act = act (s.updRun x fun q => { q with pos := q.pos + 1 }) r w r.pos := by
  subst e; exact decodeStep_ready h act
theorem slot_updSlot (s : State) (q : Nat) (f : QSlot → QSlot) (hf : ∀ r, (f r).id = r.id) :
    (s.updSlot q f).slot q = (s.slot q).map f := by
  unfold State.updSlot State.slot
  suffices ∀ l : List QSlot, (updFirst (fun x => decide (x.id = q)) f l).find? (fun x => decide (x.id = q)) = (l.find? (fun x => decide (x.id = q))).map f from this _
  intro l
  induction l with
  | nil => rfl
  | cons a t ih =>
    unfold updFirst
    by_cases h : a.id = q
    · rw [if_pos (by simpa using h), List.find?_cons_of_pos (by simp [hf, h]), List.find?_cons_of_pos (by simp [h])]; rfl
    · rw [if_neg (by simpa using h), List.find?_cons_of_neg (by simpa using h), List.find?_cons_of_neg (by simpa using h), ih]
theorem rd_wr (s : State) (u a : Nat) (x : Word) (v b : Nat) : (s.wr u a x).rd v b = if rk v b = rk u a then x else s.rd v b := by
  unfold State.wr State.rd; rw [SMap.get_set]
theorem rd_setWide (s : State) (u a x v b : Nat) : (s.setWide u a x).rd v b = if rk v b = rk u a then w32 x else s.rd v b := by
  unfold State.setWide; rw [rd_wr]; rfl
theorem wide_setWide (s : State) (u a x v b : Nat) : (s.setWide u a x).wide64 v b = if rk v b = rk u a then x else s.wide64 v b := by
  unfold State.setWide State.wide64
  show SMap.get (fun _ => 0) (rk v b) (SMap.set (fun _ => 0) (rk u a) x s.wide) = _
  rw [SMap.get_set]
theorem wide_wr (s : State) (u a : Nat) (x : Word) (v b : Nat) : (s.wr u a x).wide64 v b = s.wide64 v b := rfl
theorem rd_setClientX (s : State) (c : Nat) (x : ClientX) (v b : Nat) : (s.setClientX c x).rd v b = s.rd v b := rfl
theorem wide_setClientX (s : State) (c : Nat) (x : ClientX) (v b : Nat) : (s.setClientX c x).wide64 v b = s.wide64 v b := rfl
theorem rd_wr_same (s : State) (u a : Nat) (x : Word) : (s.wr u a x).rd u a = x := by
  unfold State.wr State.rd; exact SMap.get_set_same _ _ _ _
theorem rd_of_regs {s t : State} (h : t.regs = s.regs) (p : t.part = s.part) (u a : Nat) : t.rd u a = s.rd u a := by
  unfold State.rd; rw [h, p]
theorem clientX_set (s : State) (c : Nat) (x : ClientX) : (s.setClientX c x).clientX c = x := by
  unfold State.setClientX State.clientX; exact SMap.get_set_same _ _ _ _
end Sys2Proof
end

