-- ==== Sys2Proof/Laws/State.lean ====
section
/-! SUPPORT. What each shared update of the state leaves alone: one lemma for each field. The value that an update
writes is a variable in the first lemmas of each part, so that the kernel never evaluates it. -/
namespace Sys2Proof.Machine

/-! ### Another value of regs -/

theorem State.with_regs_pending (s : State) (x : List (Nat × Word)) : ({ s with regs := x } : State).pending = s.pending := rfl
theorem State.with_regs_free (s : State) (x : List (Nat × Word)) : ({ s with regs := x } : State).free = s.free := rfl
theorem State.with_regs_part (s : State) (x : List (Nat × Word)) : ({ s with regs := x } : State).part = s.part := rfl
theorem State.with_regs_mem (s : State) (x : List (Nat × Word)) : ({ s with regs := x } : State).mem = s.mem := rfl
theorem State.with_regs_voids (s : State) (x : List (Nat × Word)) : ({ s with regs := x } : State).voids = s.voids := rfl
theorem State.with_regs_hostMem (s : State) (x : List (Nat × Word)) : ({ s with regs := x } : State).hostMem = s.hostMem := rfl
theorem State.with_regs_marks (s : State) (x : List (Nat × Word)) : ({ s with regs := x } : State).marks = s.marks := rfl
theorem State.with_regs_wide (s : State) (x : List (Nat × Word)) : ({ s with regs := x } : State).wide = s.wide := rfl
theorem State.with_regs_out (s : State) (x : List (Nat × Word)) : ({ s with regs := x } : State).out = s.out := rfl
theorem State.with_regs_call (s : State) (x : List (Nat × Word)) : ({ s with regs := x } : State).call = s.call := rfl
theorem State.with_regs_callCtx (s : State) (x : List (Nat × Word)) : ({ s with regs := x } : State).callCtx = s.callCtx := rfl
theorem State.with_regs_pendCalls (s : State) (x : List (Nat × Word)) : ({ s with regs := x } : State).pendCalls = s.pendCalls := rfl
theorem State.with_regs_claims (s : State) (x : List (Nat × Word)) : ({ s with regs := x } : State).claims = s.claims := rfl
theorem State.with_regs_accErr (s : State) (x : List (Nat × Word)) : ({ s with regs := x } : State).accErr = s.accErr := rfl
theorem State.with_regs_addrErr (s : State) (x : List (Nat × Word)) : ({ s with regs := x } : State).addrErr = s.addrErr := rfl
theorem State.with_regs_rates (s : State) (x : List (Nat × Word)) : ({ s with regs := x } : State).rates = s.rates := rfl
theorem State.with_regs_ucbs (s : State) (x : List (Nat × Word)) : ({ s with regs := x } : State).ucbs = s.ucbs := rfl
theorem State.with_regs_clients (s : State) (x : List (Nat × Word)) : ({ s with regs := x } : State).clients = s.clients := rfl
theorem State.with_regs_qcache (s : State) (x : List (Nat × Word)) : ({ s with regs := x } : State).qcache = s.qcache := rfl
theorem State.with_regs_watches (s : State) (x : List (Nat × Word)) : ({ s with regs := x } : State).watches = s.watches := rfl
theorem State.with_regs_reservs (s : State) (x : List (Nat × Word)) : ({ s with regs := x } : State).reservs = s.reservs := rfl
theorem State.with_regs_gangs (s : State) (x : List (Nat × Word)) : ({ s with regs := x } : State).gangs = s.gangs := rfl
theorem State.with_regs_ctxs (s : State) (x : List (Nat × Word)) : ({ s with regs := x } : State).ctxs = s.ctxs := rfl
theorem State.with_regs_gauge (s : State) (x : List (Nat × Word)) : ({ s with regs := x } : State).gauge = s.gauge := rfl
theorem State.with_regs_tlb (s : State) (x : List (Nat × Word)) : ({ s with regs := x } : State).tlb = s.tlb := rfl
theorem State.with_regs_faults (s : State) (x : List (Nat × Word)) : ({ s with regs := x } : State).faults = s.faults := rfl
theorem State.with_regs_health (s : State) (x : List (Nat × Word)) : ({ s with regs := x } : State).health = s.health := rfl
theorem State.with_regs_healthSeen (s : State) (x : List (Nat × Word)) : ({ s with regs := x } : State).healthSeen = s.healthSeen := rfl
theorem State.with_regs_pfBusMaster (s : State) (x : List (Nat × Word)) : ({ s with regs := x } : State).pfBusMaster = s.pfBusMaster := rfl
theorem State.with_regs_wdFifo (s : State) (x : List (Nat × Word)) : ({ s with regs := x } : State).wdFifo = s.wdFifo := rfl
theorem State.with_regs_wdHard (s : State) (x : List (Nat × Word)) : ({ s with regs := x } : State).wdHard = s.wdHard := rfl
theorem State.with_regs_banks (s : State) (x : List (Nat × Word)) : ({ s with regs := x } : State).banks = s.banks := rfl
theorem State.with_regs_rows (s : State) (x : List (Nat × Word)) : ({ s with regs := x } : State).rows = s.rows := rfl
theorem State.with_regs_bankMap (s : State) (x : List (Nat × Word)) : ({ s with regs := x } : State).bankMap = s.bankMap := rfl
theorem State.with_regs_spareRows (s : State) (x : List (Nat × Word)) : ({ s with regs := x } : State).spareRows = s.spareRows := rfl
theorem State.with_regs_copies (s : State) (x : List (Nat × Word)) : ({ s with regs := x } : State).copies = s.copies := rfl
theorem State.with_regs_banksOut (s : State) (x : List (Nat × Word)) : ({ s with regs := x } : State).banksOut = s.banksOut := rfl
theorem State.with_regs_maintDue (s : State) (x : List (Nat × Word)) : ({ s with regs := x } : State).maintDue = s.maintDue := rfl
theorem State.with_regs_locks (s : State) (x : List (Nat × Word)) : ({ s with regs := x } : State).locks = s.locks := rfl
theorem State.with_regs_severed (s : State) (x : List (Nat × Word)) : ({ s with regs := x } : State).severed = s.severed := rfl
theorem State.with_regs_held (s : State) (x : List (Nat × Word)) : ({ s with regs := x } : State).held = s.held := rfl
theorem State.with_regs_parcels (s : State) (x : List (Nat × Word)) : ({ s with regs := x } : State).parcels = s.parcels := rfl
theorem State.with_regs_reply (s : State) (x : List (Nat × Word)) : ({ s with regs := x } : State).reply = s.reply := rfl
theorem State.with_regs_doneFifo (s : State) (x : List (Nat × Word)) : ({ s with regs := x } : State).doneFifo = s.doneFifo := rfl
theorem State.with_regs_spareRelease (s : State) (x : List (Nat × Word)) : ({ s with regs := x } : State).spareRelease = s.spareRelease := rfl
theorem State.with_regs_pwr (s : State) (x : List (Nat × Word)) : ({ s with regs := x } : State).pwr = s.pwr := rfl
theorem State.with_regs_sbOn (s : State) (x : List (Nat × Word)) : ({ s with regs := x } : State).sbOn = s.sbOn := rfl
theorem State.with_regs_rtx (s : State) (x : List (Nat × Word)) : ({ s with regs := x } : State).rtx = s.rtx := rfl
theorem State.with_regs_rtags (s : State) (x : List (Nat × Word)) : ({ s with regs := x } : State).rtags = s.rtags := rfl
theorem State.with_regs_rchunks (s : State) (x : List (Nat × Word)) : ({ s with regs := x } : State).rchunks = s.rchunks := rfl
theorem State.with_regs_rgrants (s : State) (x : List (Nat × Word)) : ({ s with regs := x } : State).rgrants = s.rgrants := rfl
theorem State.with_regs_rwaits (s : State) (x : List (Nat × Word)) : ({ s with regs := x } : State).rwaits = s.rwaits := rfl
theorem State.with_regs_rbad (s : State) (x : List (Nat × Word)) : ({ s with regs := x } : State).rbad = s.rbad := rfl
theorem State.with_regs_rstuck (s : State) (x : List (Nat × Word)) : ({ s with regs := x } : State).rstuck = s.rstuck := rfl
theorem State.with_regs_cmps (s : State) (x : List (Nat × Word)) : ({ s with regs := x } : State).cmps = s.cmps := rfl
theorem State.with_regs_pulses (s : State) (x : List (Nat × Word)) : ({ s with regs := x } : State).pulses = s.pulses := rfl
theorem State.with_regs_caps (s : State) (x : List (Nat × Word)) : ({ s with regs := x } : State).caps = s.caps := rfl
theorem State.with_regs_ptp (s : State) (x : List (Nat × Word)) : ({ s with regs := x } : State).ptp = s.ptp := rfl
theorem State.with_regs_ethQ (s : State) (x : List (Nat × Word)) : ({ s with regs := x } : State).ethQ = s.ethQ := rfl
theorem State.with_regs_ethBusy (s : State) (x : List (Nat × Word)) : ({ s with regs := x } : State).ethBusy = s.ethBusy := rfl
theorem State.with_regs_qbv (s : State) (x : List (Nat × Word)) : ({ s with regs := x } : State).qbv = s.qbv := rfl
theorem State.with_regs_genRings (s : State) (x : List (Nat × Word)) : ({ s with regs := x } : State).genRings = s.genRings := rfl
theorem State.with_regs_cans (s : State) (x : List (Nat × Word)) : ({ s with regs := x } : State).cans = s.cans := rfl
theorem State.with_regs_encs (s : State) (x : List (Nat × Word)) : ({ s with regs := x } : State).encs = s.encs := rfl
theorem State.with_regs_loops (s : State) (x : List (Nat × Word)) : ({ s with regs := x } : State).loops = s.loops := rfl
theorem State.with_regs_lcores (s : State) (x : List (Nat × Word)) : ({ s with regs := x } : State).lcores = s.lcores := rfl
theorem State.with_regs_trigN (s : State) (x : List (Nat × Word)) : ({ s with regs := x } : State).trigN = s.trigN := rfl
theorem State.with_regs_pwmShadow (s : State) (x : List (Nat × Word)) : ({ s with regs := x } : State).pwmShadow = s.pwmShadow := rfl
theorem State.with_regs_tbAt (s : State) (x : List (Nat × Word)) : ({ s with regs := x } : State).tbAt = s.tbAt := rfl
theorem State.with_regs_takingOver (s : State) (x : List (Nat × Word)) : ({ s with regs := x } : State).takingOver = s.takingOver := rfl
theorem State.with_regs_txWords (s : State) (x : List (Nat × Word)) : ({ s with regs := x } : State).txWords = s.txWords := rfl
theorem State.with_regs_txFirst (s : State) (x : List (Nat × Word)) : ({ s with regs := x } : State).txFirst = s.txFirst := rfl
theorem State.with_regs_rxWords (s : State) (x : List (Nat × Word)) : ({ s with regs := x } : State).rxWords = s.rxWords := rfl
theorem State.with_regs_gateSet (s : State) (x : List (Nat × Word)) : ({ s with regs := x } : State).gateSet = s.gateSet := rfl
theorem State.with_regs_wd (s : State) (x : List (Nat × Word)) : ({ s with regs := x } : State).wd = s.wd := rfl
theorem State.with_regs_domOff (s : State) (x : List (Nat × Word)) : ({ s with regs := x } : State).domOff = s.domOff := rfl
theorem State.with_regs_lawLast (s : State) (x : List (Nat × Word)) : ({ s with regs := x } : State).lawLast = s.lawLast := rfl
theorem State.with_regs_calSet (s : State) (x : List (Nat × Word)) : ({ s with regs := x } : State).calSet = s.calSet := rfl
theorem State.with_regs_calOn (s : State) (x : List (Nat × Word)) : ({ s with regs := x } : State).calOn = s.calOn := rfl
theorem State.with_regs_lastRun (s : State) (x : List (Nat × Word)) : ({ s with regs := x } : State).lastRun = s.lastRun := rfl
theorem State.with_regs_maintHold (s : State) (x : List (Nat × Word)) : ({ s with regs := x } : State).maintHold = s.maintHold := rfl
theorem State.with_regs_maintNs (s : State) (x : List (Nat × Word)) : ({ s with regs := x } : State).maintNs = s.maintNs := rfl
theorem State.with_regs_loads (s : State) (x : List (Nat × Word)) : ({ s with regs := x } : State).loads = s.loads := rfl
theorem State.with_regs_links (s : State) (x : List (Nat × Word)) : ({ s with regs := x } : State).links = s.links := rfl
theorem State.with_regs_ring (s : State) (x : List (Nat × Word)) : ({ s with regs := x } : State).ring = s.ring := rfl
theorem State.with_regs_vats (s : State) (x : List (Nat × Word)) : ({ s with regs := x } : State).vats = s.vats := rfl
theorem State.with_regs_pps (s : State) (x : List (Nat × Word)) : ({ s with regs := x } : State).pps = s.pps := rfl
theorem State.with_regs_sensors (s : State) (x : List (Nat × Word)) : ({ s with regs := x } : State).sensors = s.sensors := rfl
theorem State.with_regs_feeds (s : State) (x : List (Nat × Word)) : ({ s with regs := x } : State).feeds = s.feeds := rfl
theorem State.with_regs_mpActive (s : State) (x : List (Nat × Word)) : ({ s with regs := x } : State).mpActive = s.mpActive := rfl
theorem State.with_regs_spPause (s : State) (x : List (Nat × Word)) : ({ s with regs := x } : State).spPause = s.spPause := rfl
theorem State.with_regs_temps (s : State) (x : List (Nat × Word)) : ({ s with regs := x } : State).temps = s.temps := rfl
theorem State.with_regs_inject (s : State) (x : List (Nat × Word)) : ({ s with regs := x } : State).inject = s.inject := rfl
theorem State.with_regs_stores (s : State) (x : List (Nat × Word)) : ({ s with regs := x } : State).stores = s.stores := rfl
theorem State.with_regs_psumBad (s : State) (x : List (Nat × Word)) : ({ s with regs := x } : State).psumBad = s.psumBad := rfl
theorem State.with_regs_xlInval (s : State) (x : List (Nat × Word)) : ({ s with regs := x } : State).xlInval = s.xlInval := rfl
theorem State.with_regs_mbLast (s : State) (x : List (Nat × Word)) : ({ s with regs := x } : State).mbLast = s.mbLast := rfl
theorem State.with_regs_mbDiscard (s : State) (x : List (Nat × Word)) : ({ s with regs := x } : State).mbDiscard = s.mbDiscard := rfl
theorem State.with_regs_images (s : State) (x : List (Nat × Word)) : ({ s with regs := x } : State).images = s.images := rfl
theorem State.with_regs_otpRevoke (s : State) (x : List (Nat × Word)) : ({ s with regs := x } : State).otpRevoke = s.otpRevoke := rfl
theorem State.with_regs_otpSvn (s : State) (x : List (Nat × Word)) : ({ s with regs := x } : State).otpSvn = s.otpSvn := rfl
theorem State.with_regs_otpUcal (s : State) (x : List (Nat × Word)) : ({ s with regs := x } : State).otpUcal = s.otpUcal := rfl
theorem State.with_regs_devLock (s : State) (x : List (Nat × Word)) : ({ s with regs := x } : State).devLock = s.devLock := rfl
theorem State.with_regs_flash (s : State) (x : List (Nat × Word)) : ({ s with regs := x } : State).flash = s.flash := rfl
theorem State.with_regs_calBytes (s : State) (x : List (Nat × Word)) : ({ s with regs := x } : State).calBytes = s.calBytes := rfl
theorem State.with_regs_boot (s : State) (x : List (Nat × Word)) : ({ s with regs := x } : State).boot = s.boot := rfl
theorem State.with_regs_upd (s : State) (x : List (Nat × Word)) : ({ s with regs := x } : State).upd = s.upd := rfl
theorem State.with_regs_consent (s : State) (x : List (Nat × Word)) : ({ s with regs := x } : State).consent = s.consent := rfl

/-! ### Another value of marks -/

theorem State.with_marks_pending (s : State) (x : List (Nat × Word)) : ({ s with marks := x } : State).pending = s.pending := rfl
theorem State.with_marks_free (s : State) (x : List (Nat × Word)) : ({ s with marks := x } : State).free = s.free := rfl
theorem State.with_marks_part (s : State) (x : List (Nat × Word)) : ({ s with marks := x } : State).part = s.part := rfl
theorem State.with_marks_regs (s : State) (x : List (Nat × Word)) : ({ s with marks := x } : State).regs = s.regs := rfl
theorem State.with_marks_mem (s : State) (x : List (Nat × Word)) : ({ s with marks := x } : State).mem = s.mem := rfl
theorem State.with_marks_voids (s : State) (x : List (Nat × Word)) : ({ s with marks := x } : State).voids = s.voids := rfl
theorem State.with_marks_hostMem (s : State) (x : List (Nat × Word)) : ({ s with marks := x } : State).hostMem = s.hostMem := rfl
theorem State.with_marks_wide (s : State) (x : List (Nat × Word)) : ({ s with marks := x } : State).wide = s.wide := rfl
theorem State.with_marks_out (s : State) (x : List (Nat × Word)) : ({ s with marks := x } : State).out = s.out := rfl
theorem State.with_marks_call (s : State) (x : List (Nat × Word)) : ({ s with marks := x } : State).call = s.call := rfl
theorem State.with_marks_callCtx (s : State) (x : List (Nat × Word)) : ({ s with marks := x } : State).callCtx = s.callCtx := rfl
theorem State.with_marks_pendCalls (s : State) (x : List (Nat × Word)) : ({ s with marks := x } : State).pendCalls = s.pendCalls := rfl
theorem State.with_marks_claims (s : State) (x : List (Nat × Word)) : ({ s with marks := x } : State).claims = s.claims := rfl
theorem State.with_marks_accErr (s : State) (x : List (Nat × Word)) : ({ s with marks := x } : State).accErr = s.accErr := rfl
theorem State.with_marks_addrErr (s : State) (x : List (Nat × Word)) : ({ s with marks := x } : State).addrErr = s.addrErr := rfl
theorem State.with_marks_rates (s : State) (x : List (Nat × Word)) : ({ s with marks := x } : State).rates = s.rates := rfl
theorem State.with_marks_ucbs (s : State) (x : List (Nat × Word)) : ({ s with marks := x } : State).ucbs = s.ucbs := rfl
theorem State.with_marks_clients (s : State) (x : List (Nat × Word)) : ({ s with marks := x } : State).clients = s.clients := rfl
theorem State.with_marks_qcache (s : State) (x : List (Nat × Word)) : ({ s with marks := x } : State).qcache = s.qcache := rfl
theorem State.with_marks_watches (s : State) (x : List (Nat × Word)) : ({ s with marks := x } : State).watches = s.watches := rfl
theorem State.with_marks_reservs (s : State) (x : List (Nat × Word)) : ({ s with marks := x } : State).reservs = s.reservs := rfl
theorem State.with_marks_gangs (s : State) (x : List (Nat × Word)) : ({ s with marks := x } : State).gangs = s.gangs := rfl
theorem State.with_marks_ctxs (s : State) (x : List (Nat × Word)) : ({ s with marks := x } : State).ctxs = s.ctxs := rfl
theorem State.with_marks_gauge (s : State) (x : List (Nat × Word)) : ({ s with marks := x } : State).gauge = s.gauge := rfl
theorem State.with_marks_tlb (s : State) (x : List (Nat × Word)) : ({ s with marks := x } : State).tlb = s.tlb := rfl
theorem State.with_marks_faults (s : State) (x : List (Nat × Word)) : ({ s with marks := x } : State).faults = s.faults := rfl
theorem State.with_marks_health (s : State) (x : List (Nat × Word)) : ({ s with marks := x } : State).health = s.health := rfl
theorem State.with_marks_healthSeen (s : State) (x : List (Nat × Word)) : ({ s with marks := x } : State).healthSeen = s.healthSeen := rfl
theorem State.with_marks_pfBusMaster (s : State) (x : List (Nat × Word)) : ({ s with marks := x } : State).pfBusMaster = s.pfBusMaster := rfl
theorem State.with_marks_wdFifo (s : State) (x : List (Nat × Word)) : ({ s with marks := x } : State).wdFifo = s.wdFifo := rfl
theorem State.with_marks_wdHard (s : State) (x : List (Nat × Word)) : ({ s with marks := x } : State).wdHard = s.wdHard := rfl
theorem State.with_marks_banks (s : State) (x : List (Nat × Word)) : ({ s with marks := x } : State).banks = s.banks := rfl
theorem State.with_marks_rows (s : State) (x : List (Nat × Word)) : ({ s with marks := x } : State).rows = s.rows := rfl
theorem State.with_marks_bankMap (s : State) (x : List (Nat × Word)) : ({ s with marks := x } : State).bankMap = s.bankMap := rfl
theorem State.with_marks_spareRows (s : State) (x : List (Nat × Word)) : ({ s with marks := x } : State).spareRows = s.spareRows := rfl
theorem State.with_marks_copies (s : State) (x : List (Nat × Word)) : ({ s with marks := x } : State).copies = s.copies := rfl
theorem State.with_marks_banksOut (s : State) (x : List (Nat × Word)) : ({ s with marks := x } : State).banksOut = s.banksOut := rfl
theorem State.with_marks_maintDue (s : State) (x : List (Nat × Word)) : ({ s with marks := x } : State).maintDue = s.maintDue := rfl
theorem State.with_marks_locks (s : State) (x : List (Nat × Word)) : ({ s with marks := x } : State).locks = s.locks := rfl
theorem State.with_marks_severed (s : State) (x : List (Nat × Word)) : ({ s with marks := x } : State).severed = s.severed := rfl
theorem State.with_marks_held (s : State) (x : List (Nat × Word)) : ({ s with marks := x } : State).held = s.held := rfl
theorem State.with_marks_parcels (s : State) (x : List (Nat × Word)) : ({ s with marks := x } : State).parcels = s.parcels := rfl
theorem State.with_marks_reply (s : State) (x : List (Nat × Word)) : ({ s with marks := x } : State).reply = s.reply := rfl
theorem State.with_marks_doneFifo (s : State) (x : List (Nat × Word)) : ({ s with marks := x } : State).doneFifo = s.doneFifo := rfl
theorem State.with_marks_spareRelease (s : State) (x : List (Nat × Word)) : ({ s with marks := x } : State).spareRelease = s.spareRelease := rfl
theorem State.with_marks_pwr (s : State) (x : List (Nat × Word)) : ({ s with marks := x } : State).pwr = s.pwr := rfl
theorem State.with_marks_sbOn (s : State) (x : List (Nat × Word)) : ({ s with marks := x } : State).sbOn = s.sbOn := rfl
theorem State.with_marks_rtx (s : State) (x : List (Nat × Word)) : ({ s with marks := x } : State).rtx = s.rtx := rfl
theorem State.with_marks_rtags (s : State) (x : List (Nat × Word)) : ({ s with marks := x } : State).rtags = s.rtags := rfl
theorem State.with_marks_rchunks (s : State) (x : List (Nat × Word)) : ({ s with marks := x } : State).rchunks = s.rchunks := rfl
theorem State.with_marks_rgrants (s : State) (x : List (Nat × Word)) : ({ s with marks := x } : State).rgrants = s.rgrants := rfl
theorem State.with_marks_rwaits (s : State) (x : List (Nat × Word)) : ({ s with marks := x } : State).rwaits = s.rwaits := rfl
theorem State.with_marks_rbad (s : State) (x : List (Nat × Word)) : ({ s with marks := x } : State).rbad = s.rbad := rfl
theorem State.with_marks_rstuck (s : State) (x : List (Nat × Word)) : ({ s with marks := x } : State).rstuck = s.rstuck := rfl
theorem State.with_marks_cmps (s : State) (x : List (Nat × Word)) : ({ s with marks := x } : State).cmps = s.cmps := rfl
theorem State.with_marks_pulses (s : State) (x : List (Nat × Word)) : ({ s with marks := x } : State).pulses = s.pulses := rfl
theorem State.with_marks_caps (s : State) (x : List (Nat × Word)) : ({ s with marks := x } : State).caps = s.caps := rfl
theorem State.with_marks_ptp (s : State) (x : List (Nat × Word)) : ({ s with marks := x } : State).ptp = s.ptp := rfl
theorem State.with_marks_ethQ (s : State) (x : List (Nat × Word)) : ({ s with marks := x } : State).ethQ = s.ethQ := rfl
theorem State.with_marks_ethBusy (s : State) (x : List (Nat × Word)) : ({ s with marks := x } : State).ethBusy = s.ethBusy := rfl
theorem State.with_marks_qbv (s : State) (x : List (Nat × Word)) : ({ s with marks := x } : State).qbv = s.qbv := rfl
theorem State.with_marks_genRings (s : State) (x : List (Nat × Word)) : ({ s with marks := x } : State).genRings = s.genRings := rfl
theorem State.with_marks_cans (s : State) (x : List (Nat × Word)) : ({ s with marks := x } : State).cans = s.cans := rfl
theorem State.with_marks_encs (s : State) (x : List (Nat × Word)) : ({ s with marks := x } : State).encs = s.encs := rfl
theorem State.with_marks_loops (s : State) (x : List (Nat × Word)) : ({ s with marks := x } : State).loops = s.loops := rfl
theorem State.with_marks_lcores (s : State) (x : List (Nat × Word)) : ({ s with marks := x } : State).lcores = s.lcores := rfl
theorem State.with_marks_trigN (s : State) (x : List (Nat × Word)) : ({ s with marks := x } : State).trigN = s.trigN := rfl
theorem State.with_marks_pwmShadow (s : State) (x : List (Nat × Word)) : ({ s with marks := x } : State).pwmShadow = s.pwmShadow := rfl
theorem State.with_marks_tbAt (s : State) (x : List (Nat × Word)) : ({ s with marks := x } : State).tbAt = s.tbAt := rfl
theorem State.with_marks_takingOver (s : State) (x : List (Nat × Word)) : ({ s with marks := x } : State).takingOver = s.takingOver := rfl
theorem State.with_marks_txWords (s : State) (x : List (Nat × Word)) : ({ s with marks := x } : State).txWords = s.txWords := rfl
theorem State.with_marks_txFirst (s : State) (x : List (Nat × Word)) : ({ s with marks := x } : State).txFirst = s.txFirst := rfl
theorem State.with_marks_rxWords (s : State) (x : List (Nat × Word)) : ({ s with marks := x } : State).rxWords = s.rxWords := rfl
theorem State.with_marks_gateSet (s : State) (x : List (Nat × Word)) : ({ s with marks := x } : State).gateSet = s.gateSet := rfl
theorem State.with_marks_wd (s : State) (x : List (Nat × Word)) : ({ s with marks := x } : State).wd = s.wd := rfl
theorem State.with_marks_domOff (s : State) (x : List (Nat × Word)) : ({ s with marks := x } : State).domOff = s.domOff := rfl
theorem State.with_marks_lawLast (s : State) (x : List (Nat × Word)) : ({ s with marks := x } : State).lawLast = s.lawLast := rfl
theorem State.with_marks_calSet (s : State) (x : List (Nat × Word)) : ({ s with marks := x } : State).calSet = s.calSet := rfl
theorem State.with_marks_calOn (s : State) (x : List (Nat × Word)) : ({ s with marks := x } : State).calOn = s.calOn := rfl
theorem State.with_marks_lastRun (s : State) (x : List (Nat × Word)) : ({ s with marks := x } : State).lastRun = s.lastRun := rfl
theorem State.with_marks_maintHold (s : State) (x : List (Nat × Word)) : ({ s with marks := x } : State).maintHold = s.maintHold := rfl
theorem State.with_marks_maintNs (s : State) (x : List (Nat × Word)) : ({ s with marks := x } : State).maintNs = s.maintNs := rfl
theorem State.with_marks_loads (s : State) (x : List (Nat × Word)) : ({ s with marks := x } : State).loads = s.loads := rfl
theorem State.with_marks_links (s : State) (x : List (Nat × Word)) : ({ s with marks := x } : State).links = s.links := rfl
theorem State.with_marks_ring (s : State) (x : List (Nat × Word)) : ({ s with marks := x } : State).ring = s.ring := rfl
theorem State.with_marks_vats (s : State) (x : List (Nat × Word)) : ({ s with marks := x } : State).vats = s.vats := rfl
theorem State.with_marks_pps (s : State) (x : List (Nat × Word)) : ({ s with marks := x } : State).pps = s.pps := rfl
theorem State.with_marks_sensors (s : State) (x : List (Nat × Word)) : ({ s with marks := x } : State).sensors = s.sensors := rfl
theorem State.with_marks_feeds (s : State) (x : List (Nat × Word)) : ({ s with marks := x } : State).feeds = s.feeds := rfl
theorem State.with_marks_mpActive (s : State) (x : List (Nat × Word)) : ({ s with marks := x } : State).mpActive = s.mpActive := rfl
theorem State.with_marks_spPause (s : State) (x : List (Nat × Word)) : ({ s with marks := x } : State).spPause = s.spPause := rfl
theorem State.with_marks_temps (s : State) (x : List (Nat × Word)) : ({ s with marks := x } : State).temps = s.temps := rfl
theorem State.with_marks_inject (s : State) (x : List (Nat × Word)) : ({ s with marks := x } : State).inject = s.inject := rfl
theorem State.with_marks_stores (s : State) (x : List (Nat × Word)) : ({ s with marks := x } : State).stores = s.stores := rfl
theorem State.with_marks_psumBad (s : State) (x : List (Nat × Word)) : ({ s with marks := x } : State).psumBad = s.psumBad := rfl
theorem State.with_marks_xlInval (s : State) (x : List (Nat × Word)) : ({ s with marks := x } : State).xlInval = s.xlInval := rfl
theorem State.with_marks_mbLast (s : State) (x : List (Nat × Word)) : ({ s with marks := x } : State).mbLast = s.mbLast := rfl
theorem State.with_marks_mbDiscard (s : State) (x : List (Nat × Word)) : ({ s with marks := x } : State).mbDiscard = s.mbDiscard := rfl
theorem State.with_marks_images (s : State) (x : List (Nat × Word)) : ({ s with marks := x } : State).images = s.images := rfl
theorem State.with_marks_otpRevoke (s : State) (x : List (Nat × Word)) : ({ s with marks := x } : State).otpRevoke = s.otpRevoke := rfl
theorem State.with_marks_otpSvn (s : State) (x : List (Nat × Word)) : ({ s with marks := x } : State).otpSvn = s.otpSvn := rfl
theorem State.with_marks_otpUcal (s : State) (x : List (Nat × Word)) : ({ s with marks := x } : State).otpUcal = s.otpUcal := rfl
theorem State.with_marks_devLock (s : State) (x : List (Nat × Word)) : ({ s with marks := x } : State).devLock = s.devLock := rfl
theorem State.with_marks_flash (s : State) (x : List (Nat × Word)) : ({ s with marks := x } : State).flash = s.flash := rfl
theorem State.with_marks_calBytes (s : State) (x : List (Nat × Word)) : ({ s with marks := x } : State).calBytes = s.calBytes := rfl
theorem State.with_marks_boot (s : State) (x : List (Nat × Word)) : ({ s with marks := x } : State).boot = s.boot := rfl
theorem State.with_marks_upd (s : State) (x : List (Nat × Word)) : ({ s with marks := x } : State).upd = s.upd := rfl
theorem State.with_marks_consent (s : State) (x : List (Nat × Word)) : ({ s with marks := x } : State).consent = s.consent := rfl

/-! ### Another value of mem -/

theorem State.with_mem_pending (s : State) (x : List Host.Cell) : ({ s with mem := x } : State).pending = s.pending := rfl
theorem State.with_mem_free (s : State) (x : List Host.Cell) : ({ s with mem := x } : State).free = s.free := rfl
theorem State.with_mem_part (s : State) (x : List Host.Cell) : ({ s with mem := x } : State).part = s.part := rfl
theorem State.with_mem_regs (s : State) (x : List Host.Cell) : ({ s with mem := x } : State).regs = s.regs := rfl
theorem State.with_mem_voids (s : State) (x : List Host.Cell) : ({ s with mem := x } : State).voids = s.voids := rfl
theorem State.with_mem_hostMem (s : State) (x : List Host.Cell) : ({ s with mem := x } : State).hostMem = s.hostMem := rfl
theorem State.with_mem_marks (s : State) (x : List Host.Cell) : ({ s with mem := x } : State).marks = s.marks := rfl
theorem State.with_mem_wide (s : State) (x : List Host.Cell) : ({ s with mem := x } : State).wide = s.wide := rfl
theorem State.with_mem_out (s : State) (x : List Host.Cell) : ({ s with mem := x } : State).out = s.out := rfl
theorem State.with_mem_call (s : State) (x : List Host.Cell) : ({ s with mem := x } : State).call = s.call := rfl
theorem State.with_mem_callCtx (s : State) (x : List Host.Cell) : ({ s with mem := x } : State).callCtx = s.callCtx := rfl
theorem State.with_mem_pendCalls (s : State) (x : List Host.Cell) : ({ s with mem := x } : State).pendCalls = s.pendCalls := rfl
theorem State.with_mem_claims (s : State) (x : List Host.Cell) : ({ s with mem := x } : State).claims = s.claims := rfl
theorem State.with_mem_accErr (s : State) (x : List Host.Cell) : ({ s with mem := x } : State).accErr = s.accErr := rfl
theorem State.with_mem_addrErr (s : State) (x : List Host.Cell) : ({ s with mem := x } : State).addrErr = s.addrErr := rfl
theorem State.with_mem_rates (s : State) (x : List Host.Cell) : ({ s with mem := x } : State).rates = s.rates := rfl
theorem State.with_mem_ucbs (s : State) (x : List Host.Cell) : ({ s with mem := x } : State).ucbs = s.ucbs := rfl
theorem State.with_mem_clients (s : State) (x : List Host.Cell) : ({ s with mem := x } : State).clients = s.clients := rfl
theorem State.with_mem_qcache (s : State) (x : List Host.Cell) : ({ s with mem := x } : State).qcache = s.qcache := rfl
theorem State.with_mem_watches (s : State) (x : List Host.Cell) : ({ s with mem := x } : State).watches = s.watches := rfl
theorem State.with_mem_reservs (s : State) (x : List Host.Cell) : ({ s with mem := x } : State).reservs = s.reservs := rfl
theorem State.with_mem_gangs (s : State) (x : List Host.Cell) : ({ s with mem := x } : State).gangs = s.gangs := rfl
theorem State.with_mem_ctxs (s : State) (x : List Host.Cell) : ({ s with mem := x } : State).ctxs = s.ctxs := rfl
theorem State.with_mem_gauge (s : State) (x : List Host.Cell) : ({ s with mem := x } : State).gauge = s.gauge := rfl
theorem State.with_mem_tlb (s : State) (x : List Host.Cell) : ({ s with mem := x } : State).tlb = s.tlb := rfl
theorem State.with_mem_faults (s : State) (x : List Host.Cell) : ({ s with mem := x } : State).faults = s.faults := rfl
theorem State.with_mem_health (s : State) (x : List Host.Cell) : ({ s with mem := x } : State).health = s.health := rfl
theorem State.with_mem_healthSeen (s : State) (x : List Host.Cell) : ({ s with mem := x } : State).healthSeen = s.healthSeen := rfl
theorem State.with_mem_pfBusMaster (s : State) (x : List Host.Cell) : ({ s with mem := x } : State).pfBusMaster = s.pfBusMaster := rfl
theorem State.with_mem_wdFifo (s : State) (x : List Host.Cell) : ({ s with mem := x } : State).wdFifo = s.wdFifo := rfl
theorem State.with_mem_wdHard (s : State) (x : List Host.Cell) : ({ s with mem := x } : State).wdHard = s.wdHard := rfl
theorem State.with_mem_banks (s : State) (x : List Host.Cell) : ({ s with mem := x } : State).banks = s.banks := rfl
theorem State.with_mem_rows (s : State) (x : List Host.Cell) : ({ s with mem := x } : State).rows = s.rows := rfl
theorem State.with_mem_bankMap (s : State) (x : List Host.Cell) : ({ s with mem := x } : State).bankMap = s.bankMap := rfl
theorem State.with_mem_spareRows (s : State) (x : List Host.Cell) : ({ s with mem := x } : State).spareRows = s.spareRows := rfl
theorem State.with_mem_copies (s : State) (x : List Host.Cell) : ({ s with mem := x } : State).copies = s.copies := rfl
theorem State.with_mem_banksOut (s : State) (x : List Host.Cell) : ({ s with mem := x } : State).banksOut = s.banksOut := rfl
theorem State.with_mem_maintDue (s : State) (x : List Host.Cell) : ({ s with mem := x } : State).maintDue = s.maintDue := rfl
theorem State.with_mem_locks (s : State) (x : List Host.Cell) : ({ s with mem := x } : State).locks = s.locks := rfl
theorem State.with_mem_severed (s : State) (x : List Host.Cell) : ({ s with mem := x } : State).severed = s.severed := rfl
theorem State.with_mem_held (s : State) (x : List Host.Cell) : ({ s with mem := x } : State).held = s.held := rfl
theorem State.with_mem_parcels (s : State) (x : List Host.Cell) : ({ s with mem := x } : State).parcels = s.parcels := rfl
theorem State.with_mem_reply (s : State) (x : List Host.Cell) : ({ s with mem := x } : State).reply = s.reply := rfl
theorem State.with_mem_doneFifo (s : State) (x : List Host.Cell) : ({ s with mem := x } : State).doneFifo = s.doneFifo := rfl
theorem State.with_mem_spareRelease (s : State) (x : List Host.Cell) : ({ s with mem := x } : State).spareRelease = s.spareRelease := rfl
theorem State.with_mem_pwr (s : State) (x : List Host.Cell) : ({ s with mem := x } : State).pwr = s.pwr := rfl
theorem State.with_mem_sbOn (s : State) (x : List Host.Cell) : ({ s with mem := x } : State).sbOn = s.sbOn := rfl
theorem State.with_mem_rtx (s : State) (x : List Host.Cell) : ({ s with mem := x } : State).rtx = s.rtx := rfl
theorem State.with_mem_rtags (s : State) (x : List Host.Cell) : ({ s with mem := x } : State).rtags = s.rtags := rfl
theorem State.with_mem_rchunks (s : State) (x : List Host.Cell) : ({ s with mem := x } : State).rchunks = s.rchunks := rfl
theorem State.with_mem_rgrants (s : State) (x : List Host.Cell) : ({ s with mem := x } : State).rgrants = s.rgrants := rfl
theorem State.with_mem_rwaits (s : State) (x : List Host.Cell) : ({ s with mem := x } : State).rwaits = s.rwaits := rfl
theorem State.with_mem_rbad (s : State) (x : List Host.Cell) : ({ s with mem := x } : State).rbad = s.rbad := rfl
theorem State.with_mem_rstuck (s : State) (x : List Host.Cell) : ({ s with mem := x } : State).rstuck = s.rstuck := rfl
theorem State.with_mem_cmps (s : State) (x : List Host.Cell) : ({ s with mem := x } : State).cmps = s.cmps := rfl
theorem State.with_mem_pulses (s : State) (x : List Host.Cell) : ({ s with mem := x } : State).pulses = s.pulses := rfl
theorem State.with_mem_caps (s : State) (x : List Host.Cell) : ({ s with mem := x } : State).caps = s.caps := rfl
theorem State.with_mem_ptp (s : State) (x : List Host.Cell) : ({ s with mem := x } : State).ptp = s.ptp := rfl
theorem State.with_mem_ethQ (s : State) (x : List Host.Cell) : ({ s with mem := x } : State).ethQ = s.ethQ := rfl
theorem State.with_mem_ethBusy (s : State) (x : List Host.Cell) : ({ s with mem := x } : State).ethBusy = s.ethBusy := rfl
theorem State.with_mem_qbv (s : State) (x : List Host.Cell) : ({ s with mem := x } : State).qbv = s.qbv := rfl
theorem State.with_mem_genRings (s : State) (x : List Host.Cell) : ({ s with mem := x } : State).genRings = s.genRings := rfl
theorem State.with_mem_cans (s : State) (x : List Host.Cell) : ({ s with mem := x } : State).cans = s.cans := rfl
theorem State.with_mem_encs (s : State) (x : List Host.Cell) : ({ s with mem := x } : State).encs = s.encs := rfl
theorem State.with_mem_loops (s : State) (x : List Host.Cell) : ({ s with mem := x } : State).loops = s.loops := rfl
theorem State.with_mem_lcores (s : State) (x : List Host.Cell) : ({ s with mem := x } : State).lcores = s.lcores := rfl
theorem State.with_mem_trigN (s : State) (x : List Host.Cell) : ({ s with mem := x } : State).trigN = s.trigN := rfl
theorem State.with_mem_pwmShadow (s : State) (x : List Host.Cell) : ({ s with mem := x } : State).pwmShadow = s.pwmShadow := rfl
theorem State.with_mem_tbAt (s : State) (x : List Host.Cell) : ({ s with mem := x } : State).tbAt = s.tbAt := rfl
theorem State.with_mem_takingOver (s : State) (x : List Host.Cell) : ({ s with mem := x } : State).takingOver = s.takingOver := rfl
theorem State.with_mem_txWords (s : State) (x : List Host.Cell) : ({ s with mem := x } : State).txWords = s.txWords := rfl
theorem State.with_mem_txFirst (s : State) (x : List Host.Cell) : ({ s with mem := x } : State).txFirst = s.txFirst := rfl
theorem State.with_mem_rxWords (s : State) (x : List Host.Cell) : ({ s with mem := x } : State).rxWords = s.rxWords := rfl
theorem State.with_mem_gateSet (s : State) (x : List Host.Cell) : ({ s with mem := x } : State).gateSet = s.gateSet := rfl
theorem State.with_mem_wd (s : State) (x : List Host.Cell) : ({ s with mem := x } : State).wd = s.wd := rfl
theorem State.with_mem_domOff (s : State) (x : List Host.Cell) : ({ s with mem := x } : State).domOff = s.domOff := rfl
theorem State.with_mem_lawLast (s : State) (x : List Host.Cell) : ({ s with mem := x } : State).lawLast = s.lawLast := rfl
theorem State.with_mem_calSet (s : State) (x : List Host.Cell) : ({ s with mem := x } : State).calSet = s.calSet := rfl
theorem State.with_mem_calOn (s : State) (x : List Host.Cell) : ({ s with mem := x } : State).calOn = s.calOn := rfl
theorem State.with_mem_lastRun (s : State) (x : List Host.Cell) : ({ s with mem := x } : State).lastRun = s.lastRun := rfl
theorem State.with_mem_maintHold (s : State) (x : List Host.Cell) : ({ s with mem := x } : State).maintHold = s.maintHold := rfl
theorem State.with_mem_maintNs (s : State) (x : List Host.Cell) : ({ s with mem := x } : State).maintNs = s.maintNs := rfl
theorem State.with_mem_loads (s : State) (x : List Host.Cell) : ({ s with mem := x } : State).loads = s.loads := rfl
theorem State.with_mem_links (s : State) (x : List Host.Cell) : ({ s with mem := x } : State).links = s.links := rfl
theorem State.with_mem_ring (s : State) (x : List Host.Cell) : ({ s with mem := x } : State).ring = s.ring := rfl
theorem State.with_mem_vats (s : State) (x : List Host.Cell) : ({ s with mem := x } : State).vats = s.vats := rfl
theorem State.with_mem_pps (s : State) (x : List Host.Cell) : ({ s with mem := x } : State).pps = s.pps := rfl
theorem State.with_mem_sensors (s : State) (x : List Host.Cell) : ({ s with mem := x } : State).sensors = s.sensors := rfl
theorem State.with_mem_feeds (s : State) (x : List Host.Cell) : ({ s with mem := x } : State).feeds = s.feeds := rfl
theorem State.with_mem_mpActive (s : State) (x : List Host.Cell) : ({ s with mem := x } : State).mpActive = s.mpActive := rfl
theorem State.with_mem_spPause (s : State) (x : List Host.Cell) : ({ s with mem := x } : State).spPause = s.spPause := rfl
theorem State.with_mem_temps (s : State) (x : List Host.Cell) : ({ s with mem := x } : State).temps = s.temps := rfl
theorem State.with_mem_inject (s : State) (x : List Host.Cell) : ({ s with mem := x } : State).inject = s.inject := rfl
theorem State.with_mem_stores (s : State) (x : List Host.Cell) : ({ s with mem := x } : State).stores = s.stores := rfl
theorem State.with_mem_psumBad (s : State) (x : List Host.Cell) : ({ s with mem := x } : State).psumBad = s.psumBad := rfl
theorem State.with_mem_xlInval (s : State) (x : List Host.Cell) : ({ s with mem := x } : State).xlInval = s.xlInval := rfl
theorem State.with_mem_mbLast (s : State) (x : List Host.Cell) : ({ s with mem := x } : State).mbLast = s.mbLast := rfl
theorem State.with_mem_mbDiscard (s : State) (x : List Host.Cell) : ({ s with mem := x } : State).mbDiscard = s.mbDiscard := rfl
theorem State.with_mem_images (s : State) (x : List Host.Cell) : ({ s with mem := x } : State).images = s.images := rfl
theorem State.with_mem_otpRevoke (s : State) (x : List Host.Cell) : ({ s with mem := x } : State).otpRevoke = s.otpRevoke := rfl
theorem State.with_mem_otpSvn (s : State) (x : List Host.Cell) : ({ s with mem := x } : State).otpSvn = s.otpSvn := rfl
theorem State.with_mem_otpUcal (s : State) (x : List Host.Cell) : ({ s with mem := x } : State).otpUcal = s.otpUcal := rfl
theorem State.with_mem_devLock (s : State) (x : List Host.Cell) : ({ s with mem := x } : State).devLock = s.devLock := rfl
theorem State.with_mem_flash (s : State) (x : List Host.Cell) : ({ s with mem := x } : State).flash = s.flash := rfl
theorem State.with_mem_calBytes (s : State) (x : List Host.Cell) : ({ s with mem := x } : State).calBytes = s.calBytes := rfl
theorem State.with_mem_boot (s : State) (x : List Host.Cell) : ({ s with mem := x } : State).boot = s.boot := rfl
theorem State.with_mem_upd (s : State) (x : List Host.Cell) : ({ s with mem := x } : State).upd = s.upd := rfl
theorem State.with_mem_consent (s : State) (x : List Host.Cell) : ({ s with mem := x } : State).consent = s.consent := rfl

/-! ### Another value of call -/

theorem State.with_call_pending (s : State) (x : CallResult) : ({ s with call := x } : State).pending = s.pending := rfl
theorem State.with_call_free (s : State) (x : CallResult) : ({ s with call := x } : State).free = s.free := rfl
theorem State.with_call_part (s : State) (x : CallResult) : ({ s with call := x } : State).part = s.part := rfl
theorem State.with_call_regs (s : State) (x : CallResult) : ({ s with call := x } : State).regs = s.regs := rfl
theorem State.with_call_mem (s : State) (x : CallResult) : ({ s with call := x } : State).mem = s.mem := rfl
theorem State.with_call_voids (s : State) (x : CallResult) : ({ s with call := x } : State).voids = s.voids := rfl
theorem State.with_call_hostMem (s : State) (x : CallResult) : ({ s with call := x } : State).hostMem = s.hostMem := rfl
theorem State.with_call_marks (s : State) (x : CallResult) : ({ s with call := x } : State).marks = s.marks := rfl
theorem State.with_call_wide (s : State) (x : CallResult) : ({ s with call := x } : State).wide = s.wide := rfl
theorem State.with_call_out (s : State) (x : CallResult) : ({ s with call := x } : State).out = s.out := rfl
theorem State.with_call_callCtx (s : State) (x : CallResult) : ({ s with call := x } : State).callCtx = s.callCtx := rfl
theorem State.with_call_pendCalls (s : State) (x : CallResult) : ({ s with call := x } : State).pendCalls = s.pendCalls := rfl
theorem State.with_call_claims (s : State) (x : CallResult) : ({ s with call := x } : State).claims = s.claims := rfl
theorem State.with_call_accErr (s : State) (x : CallResult) : ({ s with call := x } : State).accErr = s.accErr := rfl
theorem State.with_call_addrErr (s : State) (x : CallResult) : ({ s with call := x } : State).addrErr = s.addrErr := rfl
theorem State.with_call_rates (s : State) (x : CallResult) : ({ s with call := x } : State).rates = s.rates := rfl
theorem State.with_call_ucbs (s : State) (x : CallResult) : ({ s with call := x } : State).ucbs = s.ucbs := rfl
theorem State.with_call_clients (s : State) (x : CallResult) : ({ s with call := x } : State).clients = s.clients := rfl
theorem State.with_call_qcache (s : State) (x : CallResult) : ({ s with call := x } : State).qcache = s.qcache := rfl
theorem State.with_call_watches (s : State) (x : CallResult) : ({ s with call := x } : State).watches = s.watches := rfl
theorem State.with_call_reservs (s : State) (x : CallResult) : ({ s with call := x } : State).reservs = s.reservs := rfl
theorem State.with_call_gangs (s : State) (x : CallResult) : ({ s with call := x } : State).gangs = s.gangs := rfl
theorem State.with_call_ctxs (s : State) (x : CallResult) : ({ s with call := x } : State).ctxs = s.ctxs := rfl
theorem State.with_call_gauge (s : State) (x : CallResult) : ({ s with call := x } : State).gauge = s.gauge := rfl
theorem State.with_call_tlb (s : State) (x : CallResult) : ({ s with call := x } : State).tlb = s.tlb := rfl
theorem State.with_call_faults (s : State) (x : CallResult) : ({ s with call := x } : State).faults = s.faults := rfl
theorem State.with_call_health (s : State) (x : CallResult) : ({ s with call := x } : State).health = s.health := rfl
theorem State.with_call_healthSeen (s : State) (x : CallResult) : ({ s with call := x } : State).healthSeen = s.healthSeen := rfl
theorem State.with_call_pfBusMaster (s : State) (x : CallResult) : ({ s with call := x } : State).pfBusMaster = s.pfBusMaster := rfl
theorem State.with_call_wdFifo (s : State) (x : CallResult) : ({ s with call := x } : State).wdFifo = s.wdFifo := rfl
theorem State.with_call_wdHard (s : State) (x : CallResult) : ({ s with call := x } : State).wdHard = s.wdHard := rfl
theorem State.with_call_banks (s : State) (x : CallResult) : ({ s with call := x } : State).banks = s.banks := rfl
theorem State.with_call_rows (s : State) (x : CallResult) : ({ s with call := x } : State).rows = s.rows := rfl
theorem State.with_call_bankMap (s : State) (x : CallResult) : ({ s with call := x } : State).bankMap = s.bankMap := rfl
theorem State.with_call_spareRows (s : State) (x : CallResult) : ({ s with call := x } : State).spareRows = s.spareRows := rfl
theorem State.with_call_copies (s : State) (x : CallResult) : ({ s with call := x } : State).copies = s.copies := rfl
theorem State.with_call_banksOut (s : State) (x : CallResult) : ({ s with call := x } : State).banksOut = s.banksOut := rfl
theorem State.with_call_maintDue (s : State) (x : CallResult) : ({ s with call := x } : State).maintDue = s.maintDue := rfl
theorem State.with_call_locks (s : State) (x : CallResult) : ({ s with call := x } : State).locks = s.locks := rfl
theorem State.with_call_severed (s : State) (x : CallResult) : ({ s with call := x } : State).severed = s.severed := rfl
theorem State.with_call_held (s : State) (x : CallResult) : ({ s with call := x } : State).held = s.held := rfl
theorem State.with_call_parcels (s : State) (x : CallResult) : ({ s with call := x } : State).parcels = s.parcels := rfl
theorem State.with_call_reply (s : State) (x : CallResult) : ({ s with call := x } : State).reply = s.reply := rfl
theorem State.with_call_doneFifo (s : State) (x : CallResult) : ({ s with call := x } : State).doneFifo = s.doneFifo := rfl
theorem State.with_call_spareRelease (s : State) (x : CallResult) : ({ s with call := x } : State).spareRelease = s.spareRelease := rfl
theorem State.with_call_pwr (s : State) (x : CallResult) : ({ s with call := x } : State).pwr = s.pwr := rfl
theorem State.with_call_sbOn (s : State) (x : CallResult) : ({ s with call := x } : State).sbOn = s.sbOn := rfl
theorem State.with_call_rtx (s : State) (x : CallResult) : ({ s with call := x } : State).rtx = s.rtx := rfl
theorem State.with_call_rtags (s : State) (x : CallResult) : ({ s with call := x } : State).rtags = s.rtags := rfl
theorem State.with_call_rchunks (s : State) (x : CallResult) : ({ s with call := x } : State).rchunks = s.rchunks := rfl
theorem State.with_call_rgrants (s : State) (x : CallResult) : ({ s with call := x } : State).rgrants = s.rgrants := rfl
theorem State.with_call_rwaits (s : State) (x : CallResult) : ({ s with call := x } : State).rwaits = s.rwaits := rfl
theorem State.with_call_rbad (s : State) (x : CallResult) : ({ s with call := x } : State).rbad = s.rbad := rfl
theorem State.with_call_rstuck (s : State) (x : CallResult) : ({ s with call := x } : State).rstuck = s.rstuck := rfl
theorem State.with_call_cmps (s : State) (x : CallResult) : ({ s with call := x } : State).cmps = s.cmps := rfl
theorem State.with_call_pulses (s : State) (x : CallResult) : ({ s with call := x } : State).pulses = s.pulses := rfl
theorem State.with_call_caps (s : State) (x : CallResult) : ({ s with call := x } : State).caps = s.caps := rfl
theorem State.with_call_ptp (s : State) (x : CallResult) : ({ s with call := x } : State).ptp = s.ptp := rfl
theorem State.with_call_ethQ (s : State) (x : CallResult) : ({ s with call := x } : State).ethQ = s.ethQ := rfl
theorem State.with_call_ethBusy (s : State) (x : CallResult) : ({ s with call := x } : State).ethBusy = s.ethBusy := rfl
theorem State.with_call_qbv (s : State) (x : CallResult) : ({ s with call := x } : State).qbv = s.qbv := rfl
theorem State.with_call_genRings (s : State) (x : CallResult) : ({ s with call := x } : State).genRings = s.genRings := rfl
theorem State.with_call_cans (s : State) (x : CallResult) : ({ s with call := x } : State).cans = s.cans := rfl
theorem State.with_call_encs (s : State) (x : CallResult) : ({ s with call := x } : State).encs = s.encs := rfl
theorem State.with_call_loops (s : State) (x : CallResult) : ({ s with call := x } : State).loops = s.loops := rfl
theorem State.with_call_lcores (s : State) (x : CallResult) : ({ s with call := x } : State).lcores = s.lcores := rfl
theorem State.with_call_trigN (s : State) (x : CallResult) : ({ s with call := x } : State).trigN = s.trigN := rfl
theorem State.with_call_pwmShadow (s : State) (x : CallResult) : ({ s with call := x } : State).pwmShadow = s.pwmShadow := rfl
theorem State.with_call_tbAt (s : State) (x : CallResult) : ({ s with call := x } : State).tbAt = s.tbAt := rfl
theorem State.with_call_takingOver (s : State) (x : CallResult) : ({ s with call := x } : State).takingOver = s.takingOver := rfl
theorem State.with_call_txWords (s : State) (x : CallResult) : ({ s with call := x } : State).txWords = s.txWords := rfl
theorem State.with_call_txFirst (s : State) (x : CallResult) : ({ s with call := x } : State).txFirst = s.txFirst := rfl
theorem State.with_call_rxWords (s : State) (x : CallResult) : ({ s with call := x } : State).rxWords = s.rxWords := rfl
theorem State.with_call_gateSet (s : State) (x : CallResult) : ({ s with call := x } : State).gateSet = s.gateSet := rfl
theorem State.with_call_wd (s : State) (x : CallResult) : ({ s with call := x } : State).wd = s.wd := rfl
theorem State.with_call_domOff (s : State) (x : CallResult) : ({ s with call := x } : State).domOff = s.domOff := rfl
theorem State.with_call_lawLast (s : State) (x : CallResult) : ({ s with call := x } : State).lawLast = s.lawLast := rfl
theorem State.with_call_calSet (s : State) (x : CallResult) : ({ s with call := x } : State).calSet = s.calSet := rfl
theorem State.with_call_calOn (s : State) (x : CallResult) : ({ s with call := x } : State).calOn = s.calOn := rfl
theorem State.with_call_lastRun (s : State) (x : CallResult) : ({ s with call := x } : State).lastRun = s.lastRun := rfl
theorem State.with_call_maintHold (s : State) (x : CallResult) : ({ s with call := x } : State).maintHold = s.maintHold := rfl
theorem State.with_call_maintNs (s : State) (x : CallResult) : ({ s with call := x } : State).maintNs = s.maintNs := rfl
theorem State.with_call_loads (s : State) (x : CallResult) : ({ s with call := x } : State).loads = s.loads := rfl
theorem State.with_call_links (s : State) (x : CallResult) : ({ s with call := x } : State).links = s.links := rfl
theorem State.with_call_ring (s : State) (x : CallResult) : ({ s with call := x } : State).ring = s.ring := rfl
theorem State.with_call_vats (s : State) (x : CallResult) : ({ s with call := x } : State).vats = s.vats := rfl
theorem State.with_call_pps (s : State) (x : CallResult) : ({ s with call := x } : State).pps = s.pps := rfl
theorem State.with_call_sensors (s : State) (x : CallResult) : ({ s with call := x } : State).sensors = s.sensors := rfl
theorem State.with_call_feeds (s : State) (x : CallResult) : ({ s with call := x } : State).feeds = s.feeds := rfl
theorem State.with_call_mpActive (s : State) (x : CallResult) : ({ s with call := x } : State).mpActive = s.mpActive := rfl
theorem State.with_call_spPause (s : State) (x : CallResult) : ({ s with call := x } : State).spPause = s.spPause := rfl
theorem State.with_call_temps (s : State) (x : CallResult) : ({ s with call := x } : State).temps = s.temps := rfl
theorem State.with_call_inject (s : State) (x : CallResult) : ({ s with call := x } : State).inject = s.inject := rfl
theorem State.with_call_stores (s : State) (x : CallResult) : ({ s with call := x } : State).stores = s.stores := rfl
theorem State.with_call_psumBad (s : State) (x : CallResult) : ({ s with call := x } : State).psumBad = s.psumBad := rfl
theorem State.with_call_xlInval (s : State) (x : CallResult) : ({ s with call := x } : State).xlInval = s.xlInval := rfl
theorem State.with_call_mbLast (s : State) (x : CallResult) : ({ s with call := x } : State).mbLast = s.mbLast := rfl
theorem State.with_call_mbDiscard (s : State) (x : CallResult) : ({ s with call := x } : State).mbDiscard = s.mbDiscard := rfl
theorem State.with_call_images (s : State) (x : CallResult) : ({ s with call := x } : State).images = s.images := rfl
theorem State.with_call_otpRevoke (s : State) (x : CallResult) : ({ s with call := x } : State).otpRevoke = s.otpRevoke := rfl
theorem State.with_call_otpSvn (s : State) (x : CallResult) : ({ s with call := x } : State).otpSvn = s.otpSvn := rfl
theorem State.with_call_otpUcal (s : State) (x : CallResult) : ({ s with call := x } : State).otpUcal = s.otpUcal := rfl
theorem State.with_call_devLock (s : State) (x : CallResult) : ({ s with call := x } : State).devLock = s.devLock := rfl
theorem State.with_call_flash (s : State) (x : CallResult) : ({ s with call := x } : State).flash = s.flash := rfl
theorem State.with_call_calBytes (s : State) (x : CallResult) : ({ s with call := x } : State).calBytes = s.calBytes := rfl
theorem State.with_call_boot (s : State) (x : CallResult) : ({ s with call := x } : State).boot = s.boot := rfl
theorem State.with_call_upd (s : State) (x : CallResult) : ({ s with call := x } : State).upd = s.upd := rfl
theorem State.with_call_consent (s : State) (x : CallResult) : ({ s with call := x } : State).consent = s.consent := rfl

/-! ### Another value of out -/

theorem State.with_out_pending (s : State) (x : List OutMsg) : ({ s with out := x } : State).pending = s.pending := rfl
theorem State.with_out_free (s : State) (x : List OutMsg) : ({ s with out := x } : State).free = s.free := rfl
theorem State.with_out_part (s : State) (x : List OutMsg) : ({ s with out := x } : State).part = s.part := rfl
theorem State.with_out_regs (s : State) (x : List OutMsg) : ({ s with out := x } : State).regs = s.regs := rfl
theorem State.with_out_mem (s : State) (x : List OutMsg) : ({ s with out := x } : State).mem = s.mem := rfl
theorem State.with_out_voids (s : State) (x : List OutMsg) : ({ s with out := x } : State).voids = s.voids := rfl
theorem State.with_out_hostMem (s : State) (x : List OutMsg) : ({ s with out := x } : State).hostMem = s.hostMem := rfl
theorem State.with_out_marks (s : State) (x : List OutMsg) : ({ s with out := x } : State).marks = s.marks := rfl
theorem State.with_out_wide (s : State) (x : List OutMsg) : ({ s with out := x } : State).wide = s.wide := rfl
theorem State.with_out_call (s : State) (x : List OutMsg) : ({ s with out := x } : State).call = s.call := rfl
theorem State.with_out_callCtx (s : State) (x : List OutMsg) : ({ s with out := x } : State).callCtx = s.callCtx := rfl
theorem State.with_out_pendCalls (s : State) (x : List OutMsg) : ({ s with out := x } : State).pendCalls = s.pendCalls := rfl
theorem State.with_out_claims (s : State) (x : List OutMsg) : ({ s with out := x } : State).claims = s.claims := rfl
theorem State.with_out_accErr (s : State) (x : List OutMsg) : ({ s with out := x } : State).accErr = s.accErr := rfl
theorem State.with_out_addrErr (s : State) (x : List OutMsg) : ({ s with out := x } : State).addrErr = s.addrErr := rfl
theorem State.with_out_rates (s : State) (x : List OutMsg) : ({ s with out := x } : State).rates = s.rates := rfl
theorem State.with_out_ucbs (s : State) (x : List OutMsg) : ({ s with out := x } : State).ucbs = s.ucbs := rfl
theorem State.with_out_clients (s : State) (x : List OutMsg) : ({ s with out := x } : State).clients = s.clients := rfl
theorem State.with_out_qcache (s : State) (x : List OutMsg) : ({ s with out := x } : State).qcache = s.qcache := rfl
theorem State.with_out_watches (s : State) (x : List OutMsg) : ({ s with out := x } : State).watches = s.watches := rfl
theorem State.with_out_reservs (s : State) (x : List OutMsg) : ({ s with out := x } : State).reservs = s.reservs := rfl
theorem State.with_out_gangs (s : State) (x : List OutMsg) : ({ s with out := x } : State).gangs = s.gangs := rfl
theorem State.with_out_ctxs (s : State) (x : List OutMsg) : ({ s with out := x } : State).ctxs = s.ctxs := rfl
theorem State.with_out_gauge (s : State) (x : List OutMsg) : ({ s with out := x } : State).gauge = s.gauge := rfl
theorem State.with_out_tlb (s : State) (x : List OutMsg) : ({ s with out := x } : State).tlb = s.tlb := rfl
theorem State.with_out_faults (s : State) (x : List OutMsg) : ({ s with out := x } : State).faults = s.faults := rfl
theorem State.with_out_health (s : State) (x : List OutMsg) : ({ s with out := x } : State).health = s.health := rfl
theorem State.with_out_healthSeen (s : State) (x : List OutMsg) : ({ s with out := x } : State).healthSeen = s.healthSeen := rfl
theorem State.with_out_pfBusMaster (s : State) (x : List OutMsg) : ({ s with out := x } : State).pfBusMaster = s.pfBusMaster := rfl
theorem State.with_out_wdFifo (s : State) (x : List OutMsg) : ({ s with out := x } : State).wdFifo = s.wdFifo := rfl
theorem State.with_out_wdHard (s : State) (x : List OutMsg) : ({ s with out := x } : State).wdHard = s.wdHard := rfl
theorem State.with_out_banks (s : State) (x : List OutMsg) : ({ s with out := x } : State).banks = s.banks := rfl
theorem State.with_out_rows (s : State) (x : List OutMsg) : ({ s with out := x } : State).rows = s.rows := rfl
theorem State.with_out_bankMap (s : State) (x : List OutMsg) : ({ s with out := x } : State).bankMap = s.bankMap := rfl
theorem State.with_out_spareRows (s : State) (x : List OutMsg) : ({ s with out := x } : State).spareRows = s.spareRows := rfl
theorem State.with_out_copies (s : State) (x : List OutMsg) : ({ s with out := x } : State).copies = s.copies := rfl
theorem State.with_out_banksOut (s : State) (x : List OutMsg) : ({ s with out := x } : State).banksOut = s.banksOut := rfl
theorem State.with_out_maintDue (s : State) (x : List OutMsg) : ({ s with out := x } : State).maintDue = s.maintDue := rfl
theorem State.with_out_locks (s : State) (x : List OutMsg) : ({ s with out := x } : State).locks = s.locks := rfl
theorem State.with_out_severed (s : State) (x : List OutMsg) : ({ s with out := x } : State).severed = s.severed := rfl
theorem State.with_out_held (s : State) (x : List OutMsg) : ({ s with out := x } : State).held = s.held := rfl
theorem State.with_out_parcels (s : State) (x : List OutMsg) : ({ s with out := x } : State).parcels = s.parcels := rfl
theorem State.with_out_reply (s : State) (x : List OutMsg) : ({ s with out := x } : State).reply = s.reply := rfl
theorem State.with_out_doneFifo (s : State) (x : List OutMsg) : ({ s with out := x } : State).doneFifo = s.doneFifo := rfl
theorem State.with_out_spareRelease (s : State) (x : List OutMsg) : ({ s with out := x } : State).spareRelease = s.spareRelease := rfl
theorem State.with_out_pwr (s : State) (x : List OutMsg) : ({ s with out := x } : State).pwr = s.pwr := rfl
theorem State.with_out_sbOn (s : State) (x : List OutMsg) : ({ s with out := x } : State).sbOn = s.sbOn := rfl
theorem State.with_out_rtx (s : State) (x : List OutMsg) : ({ s with out := x } : State).rtx = s.rtx := rfl
theorem State.with_out_rtags (s : State) (x : List OutMsg) : ({ s with out := x } : State).rtags = s.rtags := rfl
theorem State.with_out_rchunks (s : State) (x : List OutMsg) : ({ s with out := x } : State).rchunks = s.rchunks := rfl
theorem State.with_out_rgrants (s : State) (x : List OutMsg) : ({ s with out := x } : State).rgrants = s.rgrants := rfl
theorem State.with_out_rwaits (s : State) (x : List OutMsg) : ({ s with out := x } : State).rwaits = s.rwaits := rfl
theorem State.with_out_rbad (s : State) (x : List OutMsg) : ({ s with out := x } : State).rbad = s.rbad := rfl
theorem State.with_out_rstuck (s : State) (x : List OutMsg) : ({ s with out := x } : State).rstuck = s.rstuck := rfl
theorem State.with_out_cmps (s : State) (x : List OutMsg) : ({ s with out := x } : State).cmps = s.cmps := rfl
theorem State.with_out_pulses (s : State) (x : List OutMsg) : ({ s with out := x } : State).pulses = s.pulses := rfl
theorem State.with_out_caps (s : State) (x : List OutMsg) : ({ s with out := x } : State).caps = s.caps := rfl
theorem State.with_out_ptp (s : State) (x : List OutMsg) : ({ s with out := x } : State).ptp = s.ptp := rfl
theorem State.with_out_ethQ (s : State) (x : List OutMsg) : ({ s with out := x } : State).ethQ = s.ethQ := rfl
theorem State.with_out_ethBusy (s : State) (x : List OutMsg) : ({ s with out := x } : State).ethBusy = s.ethBusy := rfl
theorem State.with_out_qbv (s : State) (x : List OutMsg) : ({ s with out := x } : State).qbv = s.qbv := rfl
theorem State.with_out_genRings (s : State) (x : List OutMsg) : ({ s with out := x } : State).genRings = s.genRings := rfl
theorem State.with_out_cans (s : State) (x : List OutMsg) : ({ s with out := x } : State).cans = s.cans := rfl
theorem State.with_out_encs (s : State) (x : List OutMsg) : ({ s with out := x } : State).encs = s.encs := rfl
theorem State.with_out_loops (s : State) (x : List OutMsg) : ({ s with out := x } : State).loops = s.loops := rfl
theorem State.with_out_lcores (s : State) (x : List OutMsg) : ({ s with out := x } : State).lcores = s.lcores := rfl
theorem State.with_out_trigN (s : State) (x : List OutMsg) : ({ s with out := x } : State).trigN = s.trigN := rfl
theorem State.with_out_pwmShadow (s : State) (x : List OutMsg) : ({ s with out := x } : State).pwmShadow = s.pwmShadow := rfl
theorem State.with_out_tbAt (s : State) (x : List OutMsg) : ({ s with out := x } : State).tbAt = s.tbAt := rfl
theorem State.with_out_takingOver (s : State) (x : List OutMsg) : ({ s with out := x } : State).takingOver = s.takingOver := rfl
theorem State.with_out_txWords (s : State) (x : List OutMsg) : ({ s with out := x } : State).txWords = s.txWords := rfl
theorem State.with_out_txFirst (s : State) (x : List OutMsg) : ({ s with out := x } : State).txFirst = s.txFirst := rfl
theorem State.with_out_rxWords (s : State) (x : List OutMsg) : ({ s with out := x } : State).rxWords = s.rxWords := rfl
theorem State.with_out_gateSet (s : State) (x : List OutMsg) : ({ s with out := x } : State).gateSet = s.gateSet := rfl
theorem State.with_out_wd (s : State) (x : List OutMsg) : ({ s with out := x } : State).wd = s.wd := rfl
theorem State.with_out_domOff (s : State) (x : List OutMsg) : ({ s with out := x } : State).domOff = s.domOff := rfl
theorem State.with_out_lawLast (s : State) (x : List OutMsg) : ({ s with out := x } : State).lawLast = s.lawLast := rfl
theorem State.with_out_calSet (s : State) (x : List OutMsg) : ({ s with out := x } : State).calSet = s.calSet := rfl
theorem State.with_out_calOn (s : State) (x : List OutMsg) : ({ s with out := x } : State).calOn = s.calOn := rfl
theorem State.with_out_lastRun (s : State) (x : List OutMsg) : ({ s with out := x } : State).lastRun = s.lastRun := rfl
theorem State.with_out_maintHold (s : State) (x : List OutMsg) : ({ s with out := x } : State).maintHold = s.maintHold := rfl
theorem State.with_out_maintNs (s : State) (x : List OutMsg) : ({ s with out := x } : State).maintNs = s.maintNs := rfl
theorem State.with_out_loads (s : State) (x : List OutMsg) : ({ s with out := x } : State).loads = s.loads := rfl
theorem State.with_out_links (s : State) (x : List OutMsg) : ({ s with out := x } : State).links = s.links := rfl
theorem State.with_out_ring (s : State) (x : List OutMsg) : ({ s with out := x } : State).ring = s.ring := rfl
theorem State.with_out_vats (s : State) (x : List OutMsg) : ({ s with out := x } : State).vats = s.vats := rfl
theorem State.with_out_pps (s : State) (x : List OutMsg) : ({ s with out := x } : State).pps = s.pps := rfl
theorem State.with_out_sensors (s : State) (x : List OutMsg) : ({ s with out := x } : State).sensors = s.sensors := rfl
theorem State.with_out_feeds (s : State) (x : List OutMsg) : ({ s with out := x } : State).feeds = s.feeds := rfl
theorem State.with_out_mpActive (s : State) (x : List OutMsg) : ({ s with out := x } : State).mpActive = s.mpActive := rfl
theorem State.with_out_spPause (s : State) (x : List OutMsg) : ({ s with out := x } : State).spPause = s.spPause := rfl
theorem State.with_out_temps (s : State) (x : List OutMsg) : ({ s with out := x } : State).temps = s.temps := rfl
theorem State.with_out_inject (s : State) (x : List OutMsg) : ({ s with out := x } : State).inject = s.inject := rfl
theorem State.with_out_stores (s : State) (x : List OutMsg) : ({ s with out := x } : State).stores = s.stores := rfl
theorem State.with_out_psumBad (s : State) (x : List OutMsg) : ({ s with out := x } : State).psumBad = s.psumBad := rfl
theorem State.with_out_xlInval (s : State) (x : List OutMsg) : ({ s with out := x } : State).xlInval = s.xlInval := rfl
theorem State.with_out_mbLast (s : State) (x : List OutMsg) : ({ s with out := x } : State).mbLast = s.mbLast := rfl
theorem State.with_out_mbDiscard (s : State) (x : List OutMsg) : ({ s with out := x } : State).mbDiscard = s.mbDiscard := rfl
theorem State.with_out_images (s : State) (x : List OutMsg) : ({ s with out := x } : State).images = s.images := rfl
theorem State.with_out_otpRevoke (s : State) (x : List OutMsg) : ({ s with out := x } : State).otpRevoke = s.otpRevoke := rfl
theorem State.with_out_otpSvn (s : State) (x : List OutMsg) : ({ s with out := x } : State).otpSvn = s.otpSvn := rfl
theorem State.with_out_otpUcal (s : State) (x : List OutMsg) : ({ s with out := x } : State).otpUcal = s.otpUcal := rfl
theorem State.with_out_devLock (s : State) (x : List OutMsg) : ({ s with out := x } : State).devLock = s.devLock := rfl
theorem State.with_out_flash (s : State) (x : List OutMsg) : ({ s with out := x } : State).flash = s.flash := rfl
theorem State.with_out_calBytes (s : State) (x : List OutMsg) : ({ s with out := x } : State).calBytes = s.calBytes := rfl
theorem State.with_out_boot (s : State) (x : List OutMsg) : ({ s with out := x } : State).boot = s.boot := rfl
theorem State.with_out_upd (s : State) (x : List OutMsg) : ({ s with out := x } : State).upd = s.upd := rfl
theorem State.with_out_consent (s : State) (x : List OutMsg) : ({ s with out := x } : State).consent = s.consent := rfl

/-! ### State.wr -/

@[simp] theorem State.wr_pending (s : State) (u off : Nat) (v : Word) : (s.wr u off v).pending = s.pending := State.with_regs_pending s _
@[simp] theorem State.wr_free (s : State) (u off : Nat) (v : Word) : (s.wr u off v).free = s.free := State.with_regs_free s _
@[simp] theorem State.wr_part (s : State) (u off : Nat) (v : Word) : (s.wr u off v).part = s.part := State.with_regs_part s _
@[simp] theorem State.wr_mem (s : State) (u off : Nat) (v : Word) : (s.wr u off v).mem = s.mem := State.with_regs_mem s _
@[simp] theorem State.wr_voids (s : State) (u off : Nat) (v : Word) : (s.wr u off v).voids = s.voids := State.with_regs_voids s _
@[simp] theorem State.wr_hostMem (s : State) (u off : Nat) (v : Word) : (s.wr u off v).hostMem = s.hostMem := State.with_regs_hostMem s _
@[simp] theorem State.wr_marks (s : State) (u off : Nat) (v : Word) : (s.wr u off v).marks = s.marks := State.with_regs_marks s _
@[simp] theorem State.wr_wide (s : State) (u off : Nat) (v : Word) : (s.wr u off v).wide = s.wide := State.with_regs_wide s _
@[simp] theorem State.wr_out (s : State) (u off : Nat) (v : Word) : (s.wr u off v).out = s.out := State.with_regs_out s _
@[simp] theorem State.wr_call (s : State) (u off : Nat) (v : Word) : (s.wr u off v).call = s.call := State.with_regs_call s _
@[simp] theorem State.wr_callCtx (s : State) (u off : Nat) (v : Word) : (s.wr u off v).callCtx = s.callCtx := State.with_regs_callCtx s _
@[simp] theorem State.wr_pendCalls (s : State) (u off : Nat) (v : Word) : (s.wr u off v).pendCalls = s.pendCalls := State.with_regs_pendCalls s _
@[simp] theorem State.wr_claims (s : State) (u off : Nat) (v : Word) : (s.wr u off v).claims = s.claims := State.with_regs_claims s _
@[simp] theorem State.wr_accErr (s : State) (u off : Nat) (v : Word) : (s.wr u off v).accErr = s.accErr := State.with_regs_accErr s _
@[simp] theorem State.wr_addrErr (s : State) (u off : Nat) (v : Word) : (s.wr u off v).addrErr = s.addrErr := State.with_regs_addrErr s _
@[simp] theorem State.wr_rates (s : State) (u off : Nat) (v : Word) : (s.wr u off v).rates = s.rates := State.with_regs_rates s _
@[simp] theorem State.wr_ucbs (s : State) (u off : Nat) (v : Word) : (s.wr u off v).ucbs = s.ucbs := State.with_regs_ucbs s _
@[simp] theorem State.wr_clients (s : State) (u off : Nat) (v : Word) : (s.wr u off v).clients = s.clients := State.with_regs_clients s _
@[simp] theorem State.wr_qcache (s : State) (u off : Nat) (v : Word) : (s.wr u off v).qcache = s.qcache := State.with_regs_qcache s _
@[simp] theorem State.wr_watches (s : State) (u off : Nat) (v : Word) : (s.wr u off v).watches = s.watches := State.with_regs_watches s _
@[simp] theorem State.wr_reservs (s : State) (u off : Nat) (v : Word) : (s.wr u off v).reservs = s.reservs := State.with_regs_reservs s _
@[simp] theorem State.wr_gangs (s : State) (u off : Nat) (v : Word) : (s.wr u off v).gangs = s.gangs := State.with_regs_gangs s _
@[simp] theorem State.wr_ctxs (s : State) (u off : Nat) (v : Word) : (s.wr u off v).ctxs = s.ctxs := State.with_regs_ctxs s _
@[simp] theorem State.wr_gauge (s : State) (u off : Nat) (v : Word) : (s.wr u off v).gauge = s.gauge := State.with_regs_gauge s _
@[simp] theorem State.wr_tlb (s : State) (u off : Nat) (v : Word) : (s.wr u off v).tlb = s.tlb := State.with_regs_tlb s _
@[simp] theorem State.wr_faults (s : State) (u off : Nat) (v : Word) : (s.wr u off v).faults = s.faults := State.with_regs_faults s _
@[simp] theorem State.wr_health (s : State) (u off : Nat) (v : Word) : (s.wr u off v).health = s.health := State.with_regs_health s _
@[simp] theorem State.wr_healthSeen (s : State) (u off : Nat) (v : Word) : (s.wr u off v).healthSeen = s.healthSeen := State.with_regs_healthSeen s _
@[simp] theorem State.wr_pfBusMaster (s : State) (u off : Nat) (v : Word) : (s.wr u off v).pfBusMaster = s.pfBusMaster := State.with_regs_pfBusMaster s _
@[simp] theorem State.wr_wdFifo (s : State) (u off : Nat) (v : Word) : (s.wr u off v).wdFifo = s.wdFifo := State.with_regs_wdFifo s _
@[simp] theorem State.wr_wdHard (s : State) (u off : Nat) (v : Word) : (s.wr u off v).wdHard = s.wdHard := State.with_regs_wdHard s _
@[simp] theorem State.wr_banks (s : State) (u off : Nat) (v : Word) : (s.wr u off v).banks = s.banks := State.with_regs_banks s _
@[simp] theorem State.wr_rows (s : State) (u off : Nat) (v : Word) : (s.wr u off v).rows = s.rows := State.with_regs_rows s _
@[simp] theorem State.wr_bankMap (s : State) (u off : Nat) (v : Word) : (s.wr u off v).bankMap = s.bankMap := State.with_regs_bankMap s _
@[simp] theorem State.wr_spareRows (s : State) (u off : Nat) (v : Word) : (s.wr u off v).spareRows = s.spareRows := State.with_regs_spareRows s _
@[simp] theorem State.wr_copies (s : State) (u off : Nat) (v : Word) : (s.wr u off v).copies = s.copies := State.with_regs_copies s _
@[simp] theorem State.wr_banksOut (s : State) (u off : Nat) (v : Word) : (s.wr u off v).banksOut = s.banksOut := State.with_regs_banksOut s _
@[simp] theorem State.wr_maintDue (s : State) (u off : Nat) (v : Word) : (s.wr u off v).maintDue = s.maintDue := State.with_regs_maintDue s _
@[simp] theorem State.wr_locks (s : State) (u off : Nat) (v : Word) : (s.wr u off v).locks = s.locks := State.with_regs_locks s _
@[simp] theorem State.wr_severed (s : State) (u off : Nat) (v : Word) : (s.wr u off v).severed = s.severed := State.with_regs_severed s _
@[simp] theorem State.wr_held (s : State) (u off : Nat) (v : Word) : (s.wr u off v).held = s.held := State.with_regs_held s _
@[simp] theorem State.wr_parcels (s : State) (u off : Nat) (v : Word) : (s.wr u off v).parcels = s.parcels := State.with_regs_parcels s _
@[simp] theorem State.wr_reply (s : State) (u off : Nat) (v : Word) : (s.wr u off v).reply = s.reply := State.with_regs_reply s _
@[simp] theorem State.wr_doneFifo (s : State) (u off : Nat) (v : Word) : (s.wr u off v).doneFifo = s.doneFifo := State.with_regs_doneFifo s _
@[simp] theorem State.wr_spareRelease (s : State) (u off : Nat) (v : Word) : (s.wr u off v).spareRelease = s.spareRelease := State.with_regs_spareRelease s _
@[simp] theorem State.wr_pwr (s : State) (u off : Nat) (v : Word) : (s.wr u off v).pwr = s.pwr := State.with_regs_pwr s _
@[simp] theorem State.wr_sbOn (s : State) (u off : Nat) (v : Word) : (s.wr u off v).sbOn = s.sbOn := State.with_regs_sbOn s _
@[simp] theorem State.wr_rtx (s : State) (u off : Nat) (v : Word) : (s.wr u off v).rtx = s.rtx := State.with_regs_rtx s _
@[simp] theorem State.wr_rtags (s : State) (u off : Nat) (v : Word) : (s.wr u off v).rtags = s.rtags := State.with_regs_rtags s _
@[simp] theorem State.wr_rchunks (s : State) (u off : Nat) (v : Word) : (s.wr u off v).rchunks = s.rchunks := State.with_regs_rchunks s _
@[simp] theorem State.wr_rgrants (s : State) (u off : Nat) (v : Word) : (s.wr u off v).rgrants = s.rgrants := State.with_regs_rgrants s _
@[simp] theorem State.wr_rwaits (s : State) (u off : Nat) (v : Word) : (s.wr u off v).rwaits = s.rwaits := State.with_regs_rwaits s _
@[simp] theorem State.wr_rbad (s : State) (u off : Nat) (v : Word) : (s.wr u off v).rbad = s.rbad := State.with_regs_rbad s _
@[simp] theorem State.wr_rstuck (s : State) (u off : Nat) (v : Word) : (s.wr u off v).rstuck = s.rstuck := State.with_regs_rstuck s _
@[simp] theorem State.wr_cmps (s : State) (u off : Nat) (v : Word) : (s.wr u off v).cmps = s.cmps := State.with_regs_cmps s _
@[simp] theorem State.wr_pulses (s : State) (u off : Nat) (v : Word) : (s.wr u off v).pulses = s.pulses := State.with_regs_pulses s _
@[simp] theorem State.wr_caps (s : State) (u off : Nat) (v : Word) : (s.wr u off v).caps = s.caps := State.with_regs_caps s _
@[simp] theorem State.wr_ptp (s : State) (u off : Nat) (v : Word) : (s.wr u off v).ptp = s.ptp := State.with_regs_ptp s _
@[simp] theorem State.wr_ethQ (s : State) (u off : Nat) (v : Word) : (s.wr u off v).ethQ = s.ethQ := State.with_regs_ethQ s _
@[simp] theorem State.wr_ethBusy (s : State) (u off : Nat) (v : Word) : (s.wr u off v).ethBusy = s.ethBusy := State.with_regs_ethBusy s _
@[simp] theorem State.wr_qbv (s : State) (u off : Nat) (v : Word) : (s.wr u off v).qbv = s.qbv := State.with_regs_qbv s _
@[simp] theorem State.wr_genRings (s : State) (u off : Nat) (v : Word) : (s.wr u off v).genRings = s.genRings := State.with_regs_genRings s _
@[simp] theorem State.wr_cans (s : State) (u off : Nat) (v : Word) : (s.wr u off v).cans = s.cans := State.with_regs_cans s _
@[simp] theorem State.wr_encs (s : State) (u off : Nat) (v : Word) : (s.wr u off v).encs = s.encs := State.with_regs_encs s _
@[simp] theorem State.wr_loops (s : State) (u off : Nat) (v : Word) : (s.wr u off v).loops = s.loops := State.with_regs_loops s _
@[simp] theorem State.wr_lcores (s : State) (u off : Nat) (v : Word) : (s.wr u off v).lcores = s.lcores := State.with_regs_lcores s _
@[simp] theorem State.wr_trigN (s : State) (u off : Nat) (v : Word) : (s.wr u off v).trigN = s.trigN := State.with_regs_trigN s _
@[simp] theorem State.wr_pwmShadow (s : State) (u off : Nat) (v : Word) : (s.wr u off v).pwmShadow = s.pwmShadow := State.with_regs_pwmShadow s _
@[simp] theorem State.wr_tbAt (s : State) (u off : Nat) (v : Word) : (s.wr u off v).tbAt = s.tbAt := State.with_regs_tbAt s _
@[simp] theorem State.wr_takingOver (s : State) (u off : Nat) (v : Word) : (s.wr u off v).takingOver = s.takingOver := State.with_regs_takingOver s _
@[simp] theorem State.wr_txWords (s : State) (u off : Nat) (v : Word) : (s.wr u off v).txWords = s.txWords := State.with_regs_txWords s _
@[simp] theorem State.wr_txFirst (s : State) (u off : Nat) (v : Word) : (s.wr u off v).txFirst = s.txFirst := State.with_regs_txFirst s _
@[simp] theorem State.wr_rxWords (s : State) (u off : Nat) (v : Word) : (s.wr u off v).rxWords = s.rxWords := State.with_regs_rxWords s _
@[simp] theorem State.wr_gateSet (s : State) (u off : Nat) (v : Word) : (s.wr u off v).gateSet = s.gateSet := State.with_regs_gateSet s _
@[simp] theorem State.wr_wd (s : State) (u off : Nat) (v : Word) : (s.wr u off v).wd = s.wd := State.with_regs_wd s _
@[simp] theorem State.wr_domOff (s : State) (u off : Nat) (v : Word) : (s.wr u off v).domOff = s.domOff := State.with_regs_domOff s _
@[simp] theorem State.wr_lawLast (s : State) (u off : Nat) (v : Word) : (s.wr u off v).lawLast = s.lawLast := State.with_regs_lawLast s _
@[simp] theorem State.wr_calSet (s : State) (u off : Nat) (v : Word) : (s.wr u off v).calSet = s.calSet := State.with_regs_calSet s _
@[simp] theorem State.wr_calOn (s : State) (u off : Nat) (v : Word) : (s.wr u off v).calOn = s.calOn := State.with_regs_calOn s _
@[simp] theorem State.wr_lastRun (s : State) (u off : Nat) (v : Word) : (s.wr u off v).lastRun = s.lastRun := State.with_regs_lastRun s _
@[simp] theorem State.wr_maintHold (s : State) (u off : Nat) (v : Word) : (s.wr u off v).maintHold = s.maintHold := State.with_regs_maintHold s _
@[simp] theorem State.wr_maintNs (s : State) (u off : Nat) (v : Word) : (s.wr u off v).maintNs = s.maintNs := State.with_regs_maintNs s _
@[simp] theorem State.wr_loads (s : State) (u off : Nat) (v : Word) : (s.wr u off v).loads = s.loads := State.with_regs_loads s _
@[simp] theorem State.wr_links (s : State) (u off : Nat) (v : Word) : (s.wr u off v).links = s.links := State.with_regs_links s _
@[simp] theorem State.wr_ring (s : State) (u off : Nat) (v : Word) : (s.wr u off v).ring = s.ring := State.with_regs_ring s _
@[simp] theorem State.wr_vats (s : State) (u off : Nat) (v : Word) : (s.wr u off v).vats = s.vats := State.with_regs_vats s _
@[simp] theorem State.wr_pps (s : State) (u off : Nat) (v : Word) : (s.wr u off v).pps = s.pps := State.with_regs_pps s _
@[simp] theorem State.wr_sensors (s : State) (u off : Nat) (v : Word) : (s.wr u off v).sensors = s.sensors := State.with_regs_sensors s _
@[simp] theorem State.wr_feeds (s : State) (u off : Nat) (v : Word) : (s.wr u off v).feeds = s.feeds := State.with_regs_feeds s _
@[simp] theorem State.wr_mpActive (s : State) (u off : Nat) (v : Word) : (s.wr u off v).mpActive = s.mpActive := State.with_regs_mpActive s _
@[simp] theorem State.wr_spPause (s : State) (u off : Nat) (v : Word) : (s.wr u off v).spPause = s.spPause := State.with_regs_spPause s _
@[simp] theorem State.wr_temps (s : State) (u off : Nat) (v : Word) : (s.wr u off v).temps = s.temps := State.with_regs_temps s _
@[simp] theorem State.wr_inject (s : State) (u off : Nat) (v : Word) : (s.wr u off v).inject = s.inject := State.with_regs_inject s _
@[simp] theorem State.wr_stores (s : State) (u off : Nat) (v : Word) : (s.wr u off v).stores = s.stores := State.with_regs_stores s _
@[simp] theorem State.wr_psumBad (s : State) (u off : Nat) (v : Word) : (s.wr u off v).psumBad = s.psumBad := State.with_regs_psumBad s _
@[simp] theorem State.wr_xlInval (s : State) (u off : Nat) (v : Word) : (s.wr u off v).xlInval = s.xlInval := State.with_regs_xlInval s _
@[simp] theorem State.wr_mbLast (s : State) (u off : Nat) (v : Word) : (s.wr u off v).mbLast = s.mbLast := State.with_regs_mbLast s _
@[simp] theorem State.wr_mbDiscard (s : State) (u off : Nat) (v : Word) : (s.wr u off v).mbDiscard = s.mbDiscard := State.with_regs_mbDiscard s _
@[simp] theorem State.wr_images (s : State) (u off : Nat) (v : Word) : (s.wr u off v).images = s.images := State.with_regs_images s _
@[simp] theorem State.wr_otpRevoke (s : State) (u off : Nat) (v : Word) : (s.wr u off v).otpRevoke = s.otpRevoke := State.with_regs_otpRevoke s _
@[simp] theorem State.wr_otpSvn (s : State) (u off : Nat) (v : Word) : (s.wr u off v).otpSvn = s.otpSvn := State.with_regs_otpSvn s _
@[simp] theorem State.wr_otpUcal (s : State) (u off : Nat) (v : Word) : (s.wr u off v).otpUcal = s.otpUcal := State.with_regs_otpUcal s _
@[simp] theorem State.wr_devLock (s : State) (u off : Nat) (v : Word) : (s.wr u off v).devLock = s.devLock := State.with_regs_devLock s _
@[simp] theorem State.wr_flash (s : State) (u off : Nat) (v : Word) : (s.wr u off v).flash = s.flash := State.with_regs_flash s _
@[simp] theorem State.wr_calBytes (s : State) (u off : Nat) (v : Word) : (s.wr u off v).calBytes = s.calBytes := State.with_regs_calBytes s _
@[simp] theorem State.wr_boot (s : State) (u off : Nat) (v : Word) : (s.wr u off v).boot = s.boot := State.with_regs_boot s _
@[simp] theorem State.wr_upd (s : State) (u off : Nat) (v : Word) : (s.wr u off v).upd = s.upd := State.with_regs_upd s _
@[simp] theorem State.wr_consent (s : State) (u off : Nat) (v : Word) : (s.wr u off v).consent = s.consent := State.with_regs_consent s _

/-! ### State.setFld -/

@[simp] theorem State.setFld_pending (s : State) (u off hi lo v : Nat) : (s.setFld u off hi lo v).pending = s.pending := State.wr_pending ..
@[simp] theorem State.setFld_free (s : State) (u off hi lo v : Nat) : (s.setFld u off hi lo v).free = s.free := State.wr_free ..
@[simp] theorem State.setFld_part (s : State) (u off hi lo v : Nat) : (s.setFld u off hi lo v).part = s.part := State.wr_part ..
@[simp] theorem State.setFld_mem (s : State) (u off hi lo v : Nat) : (s.setFld u off hi lo v).mem = s.mem := State.wr_mem ..
@[simp] theorem State.setFld_voids (s : State) (u off hi lo v : Nat) : (s.setFld u off hi lo v).voids = s.voids := State.wr_voids ..
@[simp] theorem State.setFld_hostMem (s : State) (u off hi lo v : Nat) : (s.setFld u off hi lo v).hostMem = s.hostMem := State.wr_hostMem ..
@[simp] theorem State.setFld_marks (s : State) (u off hi lo v : Nat) : (s.setFld u off hi lo v).marks = s.marks := State.wr_marks ..
@[simp] theorem State.setFld_wide (s : State) (u off hi lo v : Nat) : (s.setFld u off hi lo v).wide = s.wide := State.wr_wide ..
@[simp] theorem State.setFld_out (s : State) (u off hi lo v : Nat) : (s.setFld u off hi lo v).out = s.out := State.wr_out ..
@[simp] theorem State.setFld_call (s : State) (u off hi lo v : Nat) : (s.setFld u off hi lo v).call = s.call := State.wr_call ..
@[simp] theorem State.setFld_callCtx (s : State) (u off hi lo v : Nat) : (s.setFld u off hi lo v).callCtx = s.callCtx := State.wr_callCtx ..
@[simp] theorem State.setFld_pendCalls (s : State) (u off hi lo v : Nat) : (s.setFld u off hi lo v).pendCalls = s.pendCalls := State.wr_pendCalls ..
@[simp] theorem State.setFld_claims (s : State) (u off hi lo v : Nat) : (s.setFld u off hi lo v).claims = s.claims := State.wr_claims ..
@[simp] theorem State.setFld_accErr (s : State) (u off hi lo v : Nat) : (s.setFld u off hi lo v).accErr = s.accErr := State.wr_accErr ..
@[simp] theorem State.setFld_addrErr (s : State) (u off hi lo v : Nat) : (s.setFld u off hi lo v).addrErr = s.addrErr := State.wr_addrErr ..
@[simp] theorem State.setFld_rates (s : State) (u off hi lo v : Nat) : (s.setFld u off hi lo v).rates = s.rates := State.wr_rates ..
@[simp] theorem State.setFld_ucbs (s : State) (u off hi lo v : Nat) : (s.setFld u off hi lo v).ucbs = s.ucbs := State.wr_ucbs ..
@[simp] theorem State.setFld_clients (s : State) (u off hi lo v : Nat) : (s.setFld u off hi lo v).clients = s.clients := State.wr_clients ..
@[simp] theorem State.setFld_qcache (s : State) (u off hi lo v : Nat) : (s.setFld u off hi lo v).qcache = s.qcache := State.wr_qcache ..
@[simp] theorem State.setFld_watches (s : State) (u off hi lo v : Nat) : (s.setFld u off hi lo v).watches = s.watches := State.wr_watches ..
@[simp] theorem State.setFld_reservs (s : State) (u off hi lo v : Nat) : (s.setFld u off hi lo v).reservs = s.reservs := State.wr_reservs ..
@[simp] theorem State.setFld_gangs (s : State) (u off hi lo v : Nat) : (s.setFld u off hi lo v).gangs = s.gangs := State.wr_gangs ..
@[simp] theorem State.setFld_ctxs (s : State) (u off hi lo v : Nat) : (s.setFld u off hi lo v).ctxs = s.ctxs := State.wr_ctxs ..
@[simp] theorem State.setFld_gauge (s : State) (u off hi lo v : Nat) : (s.setFld u off hi lo v).gauge = s.gauge := State.wr_gauge ..
@[simp] theorem State.setFld_tlb (s : State) (u off hi lo v : Nat) : (s.setFld u off hi lo v).tlb = s.tlb := State.wr_tlb ..
@[simp] theorem State.setFld_faults (s : State) (u off hi lo v : Nat) : (s.setFld u off hi lo v).faults = s.faults := State.wr_faults ..
@[simp] theorem State.setFld_health (s : State) (u off hi lo v : Nat) : (s.setFld u off hi lo v).health = s.health := State.wr_health ..
@[simp] theorem State.setFld_healthSeen (s : State) (u off hi lo v : Nat) : (s.setFld u off hi lo v).healthSeen = s.healthSeen := State.wr_healthSeen ..
@[simp] theorem State.setFld_pfBusMaster (s : State) (u off hi lo v : Nat) : (s.setFld u off hi lo v).pfBusMaster = s.pfBusMaster := State.wr_pfBusMaster ..
@[simp] theorem State.setFld_wdFifo (s : State) (u off hi lo v : Nat) : (s.setFld u off hi lo v).wdFifo = s.wdFifo := State.wr_wdFifo ..
@[simp] theorem State.setFld_wdHard (s : State) (u off hi lo v : Nat) : (s.setFld u off hi lo v).wdHard = s.wdHard := State.wr_wdHard ..
@[simp] theorem State.setFld_banks (s : State) (u off hi lo v : Nat) : (s.setFld u off hi lo v).banks = s.banks := State.wr_banks ..
@[simp] theorem State.setFld_rows (s : State) (u off hi lo v : Nat) : (s.setFld u off hi lo v).rows = s.rows := State.wr_rows ..
@[simp] theorem State.setFld_bankMap (s : State) (u off hi lo v : Nat) : (s.setFld u off hi lo v).bankMap = s.bankMap := State.wr_bankMap ..
@[simp] theorem State.setFld_spareRows (s : State) (u off hi lo v : Nat) : (s.setFld u off hi lo v).spareRows = s.spareRows := State.wr_spareRows ..
@[simp] theorem State.setFld_copies (s : State) (u off hi lo v : Nat) : (s.setFld u off hi lo v).copies = s.copies := State.wr_copies ..
@[simp] theorem State.setFld_banksOut (s : State) (u off hi lo v : Nat) : (s.setFld u off hi lo v).banksOut = s.banksOut := State.wr_banksOut ..
@[simp] theorem State.setFld_maintDue (s : State) (u off hi lo v : Nat) : (s.setFld u off hi lo v).maintDue = s.maintDue := State.wr_maintDue ..
@[simp] theorem State.setFld_locks (s : State) (u off hi lo v : Nat) : (s.setFld u off hi lo v).locks = s.locks := State.wr_locks ..
@[simp] theorem State.setFld_severed (s : State) (u off hi lo v : Nat) : (s.setFld u off hi lo v).severed = s.severed := State.wr_severed ..
@[simp] theorem State.setFld_held (s : State) (u off hi lo v : Nat) : (s.setFld u off hi lo v).held = s.held := State.wr_held ..
@[simp] theorem State.setFld_parcels (s : State) (u off hi lo v : Nat) : (s.setFld u off hi lo v).parcels = s.parcels := State.wr_parcels ..
@[simp] theorem State.setFld_reply (s : State) (u off hi lo v : Nat) : (s.setFld u off hi lo v).reply = s.reply := State.wr_reply ..
@[simp] theorem State.setFld_doneFifo (s : State) (u off hi lo v : Nat) : (s.setFld u off hi lo v).doneFifo = s.doneFifo := State.wr_doneFifo ..
@[simp] theorem State.setFld_spareRelease (s : State) (u off hi lo v : Nat) : (s.setFld u off hi lo v).spareRelease = s.spareRelease := State.wr_spareRelease ..
@[simp] theorem State.setFld_pwr (s : State) (u off hi lo v : Nat) : (s.setFld u off hi lo v).pwr = s.pwr := State.wr_pwr ..
@[simp] theorem State.setFld_sbOn (s : State) (u off hi lo v : Nat) : (s.setFld u off hi lo v).sbOn = s.sbOn := State.wr_sbOn ..
@[simp] theorem State.setFld_rtx (s : State) (u off hi lo v : Nat) : (s.setFld u off hi lo v).rtx = s.rtx := State.wr_rtx ..
@[simp] theorem State.setFld_rtags (s : State) (u off hi lo v : Nat) : (s.setFld u off hi lo v).rtags = s.rtags := State.wr_rtags ..
@[simp] theorem State.setFld_rchunks (s : State) (u off hi lo v : Nat) : (s.setFld u off hi lo v).rchunks = s.rchunks := State.wr_rchunks ..
@[simp] theorem State.setFld_rgrants (s : State) (u off hi lo v : Nat) : (s.setFld u off hi lo v).rgrants = s.rgrants := State.wr_rgrants ..
@[simp] theorem State.setFld_rwaits (s : State) (u off hi lo v : Nat) : (s.setFld u off hi lo v).rwaits = s.rwaits := State.wr_rwaits ..
@[simp] theorem State.setFld_rbad (s : State) (u off hi lo v : Nat) : (s.setFld u off hi lo v).rbad = s.rbad := State.wr_rbad ..
@[simp] theorem State.setFld_rstuck (s : State) (u off hi lo v : Nat) : (s.setFld u off hi lo v).rstuck = s.rstuck := State.wr_rstuck ..
@[simp] theorem State.setFld_cmps (s : State) (u off hi lo v : Nat) : (s.setFld u off hi lo v).cmps = s.cmps := State.wr_cmps ..
@[simp] theorem State.setFld_pulses (s : State) (u off hi lo v : Nat) : (s.setFld u off hi lo v).pulses = s.pulses := State.wr_pulses ..
@[simp] theorem State.setFld_caps (s : State) (u off hi lo v : Nat) : (s.setFld u off hi lo v).caps = s.caps := State.wr_caps ..
@[simp] theorem State.setFld_ptp (s : State) (u off hi lo v : Nat) : (s.setFld u off hi lo v).ptp = s.ptp := State.wr_ptp ..
@[simp] theorem State.setFld_ethQ (s : State) (u off hi lo v : Nat) : (s.setFld u off hi lo v).ethQ = s.ethQ := State.wr_ethQ ..
@[simp] theorem State.setFld_ethBusy (s : State) (u off hi lo v : Nat) : (s.setFld u off hi lo v).ethBusy = s.ethBusy := State.wr_ethBusy ..
@[simp] theorem State.setFld_qbv (s : State) (u off hi lo v : Nat) : (s.setFld u off hi lo v).qbv = s.qbv := State.wr_qbv ..
@[simp] theorem State.setFld_genRings (s : State) (u off hi lo v : Nat) : (s.setFld u off hi lo v).genRings = s.genRings := State.wr_genRings ..
@[simp] theorem State.setFld_cans (s : State) (u off hi lo v : Nat) : (s.setFld u off hi lo v).cans = s.cans := State.wr_cans ..
@[simp] theorem State.setFld_encs (s : State) (u off hi lo v : Nat) : (s.setFld u off hi lo v).encs = s.encs := State.wr_encs ..
@[simp] theorem State.setFld_loops (s : State) (u off hi lo v : Nat) : (s.setFld u off hi lo v).loops = s.loops := State.wr_loops ..
@[simp] theorem State.setFld_lcores (s : State) (u off hi lo v : Nat) : (s.setFld u off hi lo v).lcores = s.lcores := State.wr_lcores ..
@[simp] theorem State.setFld_trigN (s : State) (u off hi lo v : Nat) : (s.setFld u off hi lo v).trigN = s.trigN := State.wr_trigN ..
@[simp] theorem State.setFld_pwmShadow (s : State) (u off hi lo v : Nat) : (s.setFld u off hi lo v).pwmShadow = s.pwmShadow := State.wr_pwmShadow ..
@[simp] theorem State.setFld_tbAt (s : State) (u off hi lo v : Nat) : (s.setFld u off hi lo v).tbAt = s.tbAt := State.wr_tbAt ..
@[simp] theorem State.setFld_takingOver (s : State) (u off hi lo v : Nat) : (s.setFld u off hi lo v).takingOver = s.takingOver := State.wr_takingOver ..
@[simp] theorem State.setFld_txWords (s : State) (u off hi lo v : Nat) : (s.setFld u off hi lo v).txWords = s.txWords := State.wr_txWords ..
@[simp] theorem State.setFld_txFirst (s : State) (u off hi lo v : Nat) : (s.setFld u off hi lo v).txFirst = s.txFirst := State.wr_txFirst ..
@[simp] theorem State.setFld_rxWords (s : State) (u off hi lo v : Nat) : (s.setFld u off hi lo v).rxWords = s.rxWords := State.wr_rxWords ..
@[simp] theorem State.setFld_gateSet (s : State) (u off hi lo v : Nat) : (s.setFld u off hi lo v).gateSet = s.gateSet := State.wr_gateSet ..
@[simp] theorem State.setFld_wd (s : State) (u off hi lo v : Nat) : (s.setFld u off hi lo v).wd = s.wd := State.wr_wd ..
@[simp] theorem State.setFld_domOff (s : State) (u off hi lo v : Nat) : (s.setFld u off hi lo v).domOff = s.domOff := State.wr_domOff ..
@[simp] theorem State.setFld_lawLast (s : State) (u off hi lo v : Nat) : (s.setFld u off hi lo v).lawLast = s.lawLast := State.wr_lawLast ..
@[simp] theorem State.setFld_calSet (s : State) (u off hi lo v : Nat) : (s.setFld u off hi lo v).calSet = s.calSet := State.wr_calSet ..
@[simp] theorem State.setFld_calOn (s : State) (u off hi lo v : Nat) : (s.setFld u off hi lo v).calOn = s.calOn := State.wr_calOn ..
@[simp] theorem State.setFld_lastRun (s : State) (u off hi lo v : Nat) : (s.setFld u off hi lo v).lastRun = s.lastRun := State.wr_lastRun ..
@[simp] theorem State.setFld_maintHold (s : State) (u off hi lo v : Nat) : (s.setFld u off hi lo v).maintHold = s.maintHold := State.wr_maintHold ..
@[simp] theorem State.setFld_maintNs (s : State) (u off hi lo v : Nat) : (s.setFld u off hi lo v).maintNs = s.maintNs := State.wr_maintNs ..
@[simp] theorem State.setFld_loads (s : State) (u off hi lo v : Nat) : (s.setFld u off hi lo v).loads = s.loads := State.wr_loads ..
@[simp] theorem State.setFld_links (s : State) (u off hi lo v : Nat) : (s.setFld u off hi lo v).links = s.links := State.wr_links ..
@[simp] theorem State.setFld_ring (s : State) (u off hi lo v : Nat) : (s.setFld u off hi lo v).ring = s.ring := State.wr_ring ..
@[simp] theorem State.setFld_vats (s : State) (u off hi lo v : Nat) : (s.setFld u off hi lo v).vats = s.vats := State.wr_vats ..
@[simp] theorem State.setFld_pps (s : State) (u off hi lo v : Nat) : (s.setFld u off hi lo v).pps = s.pps := State.wr_pps ..
@[simp] theorem State.setFld_sensors (s : State) (u off hi lo v : Nat) : (s.setFld u off hi lo v).sensors = s.sensors := State.wr_sensors ..
@[simp] theorem State.setFld_feeds (s : State) (u off hi lo v : Nat) : (s.setFld u off hi lo v).feeds = s.feeds := State.wr_feeds ..
@[simp] theorem State.setFld_mpActive (s : State) (u off hi lo v : Nat) : (s.setFld u off hi lo v).mpActive = s.mpActive := State.wr_mpActive ..
@[simp] theorem State.setFld_spPause (s : State) (u off hi lo v : Nat) : (s.setFld u off hi lo v).spPause = s.spPause := State.wr_spPause ..
@[simp] theorem State.setFld_temps (s : State) (u off hi lo v : Nat) : (s.setFld u off hi lo v).temps = s.temps := State.wr_temps ..
@[simp] theorem State.setFld_inject (s : State) (u off hi lo v : Nat) : (s.setFld u off hi lo v).inject = s.inject := State.wr_inject ..
@[simp] theorem State.setFld_stores (s : State) (u off hi lo v : Nat) : (s.setFld u off hi lo v).stores = s.stores := State.wr_stores ..
@[simp] theorem State.setFld_psumBad (s : State) (u off hi lo v : Nat) : (s.setFld u off hi lo v).psumBad = s.psumBad := State.wr_psumBad ..
@[simp] theorem State.setFld_xlInval (s : State) (u off hi lo v : Nat) : (s.setFld u off hi lo v).xlInval = s.xlInval := State.wr_xlInval ..
@[simp] theorem State.setFld_mbLast (s : State) (u off hi lo v : Nat) : (s.setFld u off hi lo v).mbLast = s.mbLast := State.wr_mbLast ..
@[simp] theorem State.setFld_mbDiscard (s : State) (u off hi lo v : Nat) : (s.setFld u off hi lo v).mbDiscard = s.mbDiscard := State.wr_mbDiscard ..
@[simp] theorem State.setFld_images (s : State) (u off hi lo v : Nat) : (s.setFld u off hi lo v).images = s.images := State.wr_images ..
@[simp] theorem State.setFld_otpRevoke (s : State) (u off hi lo v : Nat) : (s.setFld u off hi lo v).otpRevoke = s.otpRevoke := State.wr_otpRevoke ..
@[simp] theorem State.setFld_otpSvn (s : State) (u off hi lo v : Nat) : (s.setFld u off hi lo v).otpSvn = s.otpSvn := State.wr_otpSvn ..
@[simp] theorem State.setFld_otpUcal (s : State) (u off hi lo v : Nat) : (s.setFld u off hi lo v).otpUcal = s.otpUcal := State.wr_otpUcal ..
@[simp] theorem State.setFld_devLock (s : State) (u off hi lo v : Nat) : (s.setFld u off hi lo v).devLock = s.devLock := State.wr_devLock ..
@[simp] theorem State.setFld_flash (s : State) (u off hi lo v : Nat) : (s.setFld u off hi lo v).flash = s.flash := State.wr_flash ..
@[simp] theorem State.setFld_calBytes (s : State) (u off hi lo v : Nat) : (s.setFld u off hi lo v).calBytes = s.calBytes := State.wr_calBytes ..
@[simp] theorem State.setFld_boot (s : State) (u off hi lo v : Nat) : (s.setFld u off hi lo v).boot = s.boot := State.wr_boot ..
@[simp] theorem State.setFld_upd (s : State) (u off hi lo v : Nat) : (s.setFld u off hi lo v).upd = s.upd := State.wr_upd ..
@[simp] theorem State.setFld_consent (s : State) (u off hi lo v : Nat) : (s.setFld u off hi lo v).consent = s.consent := State.wr_consent ..

/-! ### State.setFlag -/

@[simp] theorem State.setFlag_pending (s : State) (u off i : Nat) (b : Bool) : (s.setFlag u off i b).pending = s.pending := State.setFld_pending ..
@[simp] theorem State.setFlag_free (s : State) (u off i : Nat) (b : Bool) : (s.setFlag u off i b).free = s.free := State.setFld_free ..
@[simp] theorem State.setFlag_part (s : State) (u off i : Nat) (b : Bool) : (s.setFlag u off i b).part = s.part := State.setFld_part ..
@[simp] theorem State.setFlag_mem (s : State) (u off i : Nat) (b : Bool) : (s.setFlag u off i b).mem = s.mem := State.setFld_mem ..
@[simp] theorem State.setFlag_voids (s : State) (u off i : Nat) (b : Bool) : (s.setFlag u off i b).voids = s.voids := State.setFld_voids ..
@[simp] theorem State.setFlag_hostMem (s : State) (u off i : Nat) (b : Bool) : (s.setFlag u off i b).hostMem = s.hostMem := State.setFld_hostMem ..
@[simp] theorem State.setFlag_marks (s : State) (u off i : Nat) (b : Bool) : (s.setFlag u off i b).marks = s.marks := State.setFld_marks ..
@[simp] theorem State.setFlag_wide (s : State) (u off i : Nat) (b : Bool) : (s.setFlag u off i b).wide = s.wide := State.setFld_wide ..
@[simp] theorem State.setFlag_out (s : State) (u off i : Nat) (b : Bool) : (s.setFlag u off i b).out = s.out := State.setFld_out ..
@[simp] theorem State.setFlag_call (s : State) (u off i : Nat) (b : Bool) : (s.setFlag u off i b).call = s.call := State.setFld_call ..
@[simp] theorem State.setFlag_callCtx (s : State) (u off i : Nat) (b : Bool) : (s.setFlag u off i b).callCtx = s.callCtx := State.setFld_callCtx ..
@[simp] theorem State.setFlag_pendCalls (s : State) (u off i : Nat) (b : Bool) : (s.setFlag u off i b).pendCalls = s.pendCalls := State.setFld_pendCalls ..
@[simp] theorem State.setFlag_claims (s : State) (u off i : Nat) (b : Bool) : (s.setFlag u off i b).claims = s.claims := State.setFld_claims ..
@[simp] theorem State.setFlag_accErr (s : State) (u off i : Nat) (b : Bool) : (s.setFlag u off i b).accErr = s.accErr := State.setFld_accErr ..
@[simp] theorem State.setFlag_addrErr (s : State) (u off i : Nat) (b : Bool) : (s.setFlag u off i b).addrErr = s.addrErr := State.setFld_addrErr ..
@[simp] theorem State.setFlag_rates (s : State) (u off i : Nat) (b : Bool) : (s.setFlag u off i b).rates = s.rates := State.setFld_rates ..
@[simp] theorem State.setFlag_ucbs (s : State) (u off i : Nat) (b : Bool) : (s.setFlag u off i b).ucbs = s.ucbs := State.setFld_ucbs ..
@[simp] theorem State.setFlag_clients (s : State) (u off i : Nat) (b : Bool) : (s.setFlag u off i b).clients = s.clients := State.setFld_clients ..
@[simp] theorem State.setFlag_qcache (s : State) (u off i : Nat) (b : Bool) : (s.setFlag u off i b).qcache = s.qcache := State.setFld_qcache ..
@[simp] theorem State.setFlag_watches (s : State) (u off i : Nat) (b : Bool) : (s.setFlag u off i b).watches = s.watches := State.setFld_watches ..
@[simp] theorem State.setFlag_reservs (s : State) (u off i : Nat) (b : Bool) : (s.setFlag u off i b).reservs = s.reservs := State.setFld_reservs ..
@[simp] theorem State.setFlag_gangs (s : State) (u off i : Nat) (b : Bool) : (s.setFlag u off i b).gangs = s.gangs := State.setFld_gangs ..
@[simp] theorem State.setFlag_ctxs (s : State) (u off i : Nat) (b : Bool) : (s.setFlag u off i b).ctxs = s.ctxs := State.setFld_ctxs ..
@[simp] theorem State.setFlag_gauge (s : State) (u off i : Nat) (b : Bool) : (s.setFlag u off i b).gauge = s.gauge := State.setFld_gauge ..
@[simp] theorem State.setFlag_tlb (s : State) (u off i : Nat) (b : Bool) : (s.setFlag u off i b).tlb = s.tlb := State.setFld_tlb ..
@[simp] theorem State.setFlag_faults (s : State) (u off i : Nat) (b : Bool) : (s.setFlag u off i b).faults = s.faults := State.setFld_faults ..
@[simp] theorem State.setFlag_health (s : State) (u off i : Nat) (b : Bool) : (s.setFlag u off i b).health = s.health := State.setFld_health ..
@[simp] theorem State.setFlag_healthSeen (s : State) (u off i : Nat) (b : Bool) : (s.setFlag u off i b).healthSeen = s.healthSeen := State.setFld_healthSeen ..
@[simp] theorem State.setFlag_pfBusMaster (s : State) (u off i : Nat) (b : Bool) : (s.setFlag u off i b).pfBusMaster = s.pfBusMaster := State.setFld_pfBusMaster ..
@[simp] theorem State.setFlag_wdFifo (s : State) (u off i : Nat) (b : Bool) : (s.setFlag u off i b).wdFifo = s.wdFifo := State.setFld_wdFifo ..
@[simp] theorem State.setFlag_wdHard (s : State) (u off i : Nat) (b : Bool) : (s.setFlag u off i b).wdHard = s.wdHard := State.setFld_wdHard ..
@[simp] theorem State.setFlag_banks (s : State) (u off i : Nat) (b : Bool) : (s.setFlag u off i b).banks = s.banks := State.setFld_banks ..
@[simp] theorem State.setFlag_rows (s : State) (u off i : Nat) (b : Bool) : (s.setFlag u off i b).rows = s.rows := State.setFld_rows ..
@[simp] theorem State.setFlag_bankMap (s : State) (u off i : Nat) (b : Bool) : (s.setFlag u off i b).bankMap = s.bankMap := State.setFld_bankMap ..
@[simp] theorem State.setFlag_spareRows (s : State) (u off i : Nat) (b : Bool) : (s.setFlag u off i b).spareRows = s.spareRows := State.setFld_spareRows ..
@[simp] theorem State.setFlag_copies (s : State) (u off i : Nat) (b : Bool) : (s.setFlag u off i b).copies = s.copies := State.setFld_copies ..
@[simp] theorem State.setFlag_banksOut (s : State) (u off i : Nat) (b : Bool) : (s.setFlag u off i b).banksOut = s.banksOut := State.setFld_banksOut ..
@[simp] theorem State.setFlag_maintDue (s : State) (u off i : Nat) (b : Bool) : (s.setFlag u off i b).maintDue = s.maintDue := State.setFld_maintDue ..
@[simp] theorem State.setFlag_locks (s : State) (u off i : Nat) (b : Bool) : (s.setFlag u off i b).locks = s.locks := State.setFld_locks ..
@[simp] theorem State.setFlag_severed (s : State) (u off i : Nat) (b : Bool) : (s.setFlag u off i b).severed = s.severed := State.setFld_severed ..
@[simp] theorem State.setFlag_held (s : State) (u off i : Nat) (b : Bool) : (s.setFlag u off i b).held = s.held := State.setFld_held ..
@[simp] theorem State.setFlag_parcels (s : State) (u off i : Nat) (b : Bool) : (s.setFlag u off i b).parcels = s.parcels := State.setFld_parcels ..
@[simp] theorem State.setFlag_reply (s : State) (u off i : Nat) (b : Bool) : (s.setFlag u off i b).reply = s.reply := State.setFld_reply ..
@[simp] theorem State.setFlag_doneFifo (s : State) (u off i : Nat) (b : Bool) : (s.setFlag u off i b).doneFifo = s.doneFifo := State.setFld_doneFifo ..
@[simp] theorem State.setFlag_spareRelease (s : State) (u off i : Nat) (b : Bool) : (s.setFlag u off i b).spareRelease = s.spareRelease := State.setFld_spareRelease ..
@[simp] theorem State.setFlag_pwr (s : State) (u off i : Nat) (b : Bool) : (s.setFlag u off i b).pwr = s.pwr := State.setFld_pwr ..
@[simp] theorem State.setFlag_sbOn (s : State) (u off i : Nat) (b : Bool) : (s.setFlag u off i b).sbOn = s.sbOn := State.setFld_sbOn ..
@[simp] theorem State.setFlag_rtx (s : State) (u off i : Nat) (b : Bool) : (s.setFlag u off i b).rtx = s.rtx := State.setFld_rtx ..
@[simp] theorem State.setFlag_rtags (s : State) (u off i : Nat) (b : Bool) : (s.setFlag u off i b).rtags = s.rtags := State.setFld_rtags ..
@[simp] theorem State.setFlag_rchunks (s : State) (u off i : Nat) (b : Bool) : (s.setFlag u off i b).rchunks = s.rchunks := State.setFld_rchunks ..
@[simp] theorem State.setFlag_rgrants (s : State) (u off i : Nat) (b : Bool) : (s.setFlag u off i b).rgrants = s.rgrants := State.setFld_rgrants ..
@[simp] theorem State.setFlag_rwaits (s : State) (u off i : Nat) (b : Bool) : (s.setFlag u off i b).rwaits = s.rwaits := State.setFld_rwaits ..
@[simp] theorem State.setFlag_rbad (s : State) (u off i : Nat) (b : Bool) : (s.setFlag u off i b).rbad = s.rbad := State.setFld_rbad ..
@[simp] theorem State.setFlag_rstuck (s : State) (u off i : Nat) (b : Bool) : (s.setFlag u off i b).rstuck = s.rstuck := State.setFld_rstuck ..
@[simp] theorem State.setFlag_cmps (s : State) (u off i : Nat) (b : Bool) : (s.setFlag u off i b).cmps = s.cmps := State.setFld_cmps ..
@[simp] theorem State.setFlag_pulses (s : State) (u off i : Nat) (b : Bool) : (s.setFlag u off i b).pulses = s.pulses := State.setFld_pulses ..
@[simp] theorem State.setFlag_caps (s : State) (u off i : Nat) (b : Bool) : (s.setFlag u off i b).caps = s.caps := State.setFld_caps ..
@[simp] theorem State.setFlag_ptp (s : State) (u off i : Nat) (b : Bool) : (s.setFlag u off i b).ptp = s.ptp := State.setFld_ptp ..
@[simp] theorem State.setFlag_ethQ (s : State) (u off i : Nat) (b : Bool) : (s.setFlag u off i b).ethQ = s.ethQ := State.setFld_ethQ ..
@[simp] theorem State.setFlag_ethBusy (s : State) (u off i : Nat) (b : Bool) : (s.setFlag u off i b).ethBusy = s.ethBusy := State.setFld_ethBusy ..
@[simp] theorem State.setFlag_qbv (s : State) (u off i : Nat) (b : Bool) : (s.setFlag u off i b).qbv = s.qbv := State.setFld_qbv ..
@[simp] theorem State.setFlag_genRings (s : State) (u off i : Nat) (b : Bool) : (s.setFlag u off i b).genRings = s.genRings := State.setFld_genRings ..
@[simp] theorem State.setFlag_cans (s : State) (u off i : Nat) (b : Bool) : (s.setFlag u off i b).cans = s.cans := State.setFld_cans ..
@[simp] theorem State.setFlag_encs (s : State) (u off i : Nat) (b : Bool) : (s.setFlag u off i b).encs = s.encs := State.setFld_encs ..
@[simp] theorem State.setFlag_loops (s : State) (u off i : Nat) (b : Bool) : (s.setFlag u off i b).loops = s.loops := State.setFld_loops ..
@[simp] theorem State.setFlag_lcores (s : State) (u off i : Nat) (b : Bool) : (s.setFlag u off i b).lcores = s.lcores := State.setFld_lcores ..
@[simp] theorem State.setFlag_trigN (s : State) (u off i : Nat) (b : Bool) : (s.setFlag u off i b).trigN = s.trigN := State.setFld_trigN ..
@[simp] theorem State.setFlag_pwmShadow (s : State) (u off i : Nat) (b : Bool) : (s.setFlag u off i b).pwmShadow = s.pwmShadow := State.setFld_pwmShadow ..
@[simp] theorem State.setFlag_tbAt (s : State) (u off i : Nat) (b : Bool) : (s.setFlag u off i b).tbAt = s.tbAt := State.setFld_tbAt ..
@[simp] theorem State.setFlag_takingOver (s : State) (u off i : Nat) (b : Bool) : (s.setFlag u off i b).takingOver = s.takingOver := State.setFld_takingOver ..
@[simp] theorem State.setFlag_txWords (s : State) (u off i : Nat) (b : Bool) : (s.setFlag u off i b).txWords = s.txWords := State.setFld_txWords ..
@[simp] theorem State.setFlag_txFirst (s : State) (u off i : Nat) (b : Bool) : (s.setFlag u off i b).txFirst = s.txFirst := State.setFld_txFirst ..
@[simp] theorem State.setFlag_rxWords (s : State) (u off i : Nat) (b : Bool) : (s.setFlag u off i b).rxWords = s.rxWords := State.setFld_rxWords ..
@[simp] theorem State.setFlag_gateSet (s : State) (u off i : Nat) (b : Bool) : (s.setFlag u off i b).gateSet = s.gateSet := State.setFld_gateSet ..
@[simp] theorem State.setFlag_wd (s : State) (u off i : Nat) (b : Bool) : (s.setFlag u off i b).wd = s.wd := State.setFld_wd ..
@[simp] theorem State.setFlag_domOff (s : State) (u off i : Nat) (b : Bool) : (s.setFlag u off i b).domOff = s.domOff := State.setFld_domOff ..
@[simp] theorem State.setFlag_lawLast (s : State) (u off i : Nat) (b : Bool) : (s.setFlag u off i b).lawLast = s.lawLast := State.setFld_lawLast ..
@[simp] theorem State.setFlag_calSet (s : State) (u off i : Nat) (b : Bool) : (s.setFlag u off i b).calSet = s.calSet := State.setFld_calSet ..
@[simp] theorem State.setFlag_calOn (s : State) (u off i : Nat) (b : Bool) : (s.setFlag u off i b).calOn = s.calOn := State.setFld_calOn ..
@[simp] theorem State.setFlag_lastRun (s : State) (u off i : Nat) (b : Bool) : (s.setFlag u off i b).lastRun = s.lastRun := State.setFld_lastRun ..
@[simp] theorem State.setFlag_maintHold (s : State) (u off i : Nat) (b : Bool) : (s.setFlag u off i b).maintHold = s.maintHold := State.setFld_maintHold ..
@[simp] theorem State.setFlag_maintNs (s : State) (u off i : Nat) (b : Bool) : (s.setFlag u off i b).maintNs = s.maintNs := State.setFld_maintNs ..
@[simp] theorem State.setFlag_loads (s : State) (u off i : Nat) (b : Bool) : (s.setFlag u off i b).loads = s.loads := State.setFld_loads ..
@[simp] theorem State.setFlag_links (s : State) (u off i : Nat) (b : Bool) : (s.setFlag u off i b).links = s.links := State.setFld_links ..
@[simp] theorem State.setFlag_ring (s : State) (u off i : Nat) (b : Bool) : (s.setFlag u off i b).ring = s.ring := State.setFld_ring ..
@[simp] theorem State.setFlag_vats (s : State) (u off i : Nat) (b : Bool) : (s.setFlag u off i b).vats = s.vats := State.setFld_vats ..
@[simp] theorem State.setFlag_pps (s : State) (u off i : Nat) (b : Bool) : (s.setFlag u off i b).pps = s.pps := State.setFld_pps ..
@[simp] theorem State.setFlag_sensors (s : State) (u off i : Nat) (b : Bool) : (s.setFlag u off i b).sensors = s.sensors := State.setFld_sensors ..
@[simp] theorem State.setFlag_feeds (s : State) (u off i : Nat) (b : Bool) : (s.setFlag u off i b).feeds = s.feeds := State.setFld_feeds ..
@[simp] theorem State.setFlag_mpActive (s : State) (u off i : Nat) (b : Bool) : (s.setFlag u off i b).mpActive = s.mpActive := State.setFld_mpActive ..
@[simp] theorem State.setFlag_spPause (s : State) (u off i : Nat) (b : Bool) : (s.setFlag u off i b).spPause = s.spPause := State.setFld_spPause ..
@[simp] theorem State.setFlag_temps (s : State) (u off i : Nat) (b : Bool) : (s.setFlag u off i b).temps = s.temps := State.setFld_temps ..
@[simp] theorem State.setFlag_inject (s : State) (u off i : Nat) (b : Bool) : (s.setFlag u off i b).inject = s.inject := State.setFld_inject ..
@[simp] theorem State.setFlag_stores (s : State) (u off i : Nat) (b : Bool) : (s.setFlag u off i b).stores = s.stores := State.setFld_stores ..
@[simp] theorem State.setFlag_psumBad (s : State) (u off i : Nat) (b : Bool) : (s.setFlag u off i b).psumBad = s.psumBad := State.setFld_psumBad ..
@[simp] theorem State.setFlag_xlInval (s : State) (u off i : Nat) (b : Bool) : (s.setFlag u off i b).xlInval = s.xlInval := State.setFld_xlInval ..
@[simp] theorem State.setFlag_mbLast (s : State) (u off i : Nat) (b : Bool) : (s.setFlag u off i b).mbLast = s.mbLast := State.setFld_mbLast ..
@[simp] theorem State.setFlag_mbDiscard (s : State) (u off i : Nat) (b : Bool) : (s.setFlag u off i b).mbDiscard = s.mbDiscard := State.setFld_mbDiscard ..
@[simp] theorem State.setFlag_images (s : State) (u off i : Nat) (b : Bool) : (s.setFlag u off i b).images = s.images := State.setFld_images ..
@[simp] theorem State.setFlag_otpRevoke (s : State) (u off i : Nat) (b : Bool) : (s.setFlag u off i b).otpRevoke = s.otpRevoke := State.setFld_otpRevoke ..
@[simp] theorem State.setFlag_otpSvn (s : State) (u off i : Nat) (b : Bool) : (s.setFlag u off i b).otpSvn = s.otpSvn := State.setFld_otpSvn ..
@[simp] theorem State.setFlag_otpUcal (s : State) (u off i : Nat) (b : Bool) : (s.setFlag u off i b).otpUcal = s.otpUcal := State.setFld_otpUcal ..
@[simp] theorem State.setFlag_devLock (s : State) (u off i : Nat) (b : Bool) : (s.setFlag u off i b).devLock = s.devLock := State.setFld_devLock ..
@[simp] theorem State.setFlag_flash (s : State) (u off i : Nat) (b : Bool) : (s.setFlag u off i b).flash = s.flash := State.setFld_flash ..
@[simp] theorem State.setFlag_calBytes (s : State) (u off i : Nat) (b : Bool) : (s.setFlag u off i b).calBytes = s.calBytes := State.setFld_calBytes ..
@[simp] theorem State.setFlag_boot (s : State) (u off i : Nat) (b : Bool) : (s.setFlag u off i b).boot = s.boot := State.setFld_boot ..
@[simp] theorem State.setFlag_upd (s : State) (u off i : Nat) (b : Bool) : (s.setFlag u off i b).upd = s.upd := State.setFld_upd ..
@[simp] theorem State.setFlag_consent (s : State) (u off i : Nat) (b : Bool) : (s.setFlag u off i b).consent = s.consent := State.setFld_consent ..

/-! ### State.count -/

@[simp] theorem State.count_pending (s : State) (u off n : Nat) : (s.count u off n).pending = s.pending := State.wr_pending ..
@[simp] theorem State.count_free (s : State) (u off n : Nat) : (s.count u off n).free = s.free := State.wr_free ..
@[simp] theorem State.count_part (s : State) (u off n : Nat) : (s.count u off n).part = s.part := State.wr_part ..
@[simp] theorem State.count_mem (s : State) (u off n : Nat) : (s.count u off n).mem = s.mem := State.wr_mem ..
@[simp] theorem State.count_voids (s : State) (u off n : Nat) : (s.count u off n).voids = s.voids := State.wr_voids ..
@[simp] theorem State.count_hostMem (s : State) (u off n : Nat) : (s.count u off n).hostMem = s.hostMem := State.wr_hostMem ..
@[simp] theorem State.count_marks (s : State) (u off n : Nat) : (s.count u off n).marks = s.marks := State.wr_marks ..
@[simp] theorem State.count_wide (s : State) (u off n : Nat) : (s.count u off n).wide = s.wide := State.wr_wide ..
@[simp] theorem State.count_out (s : State) (u off n : Nat) : (s.count u off n).out = s.out := State.wr_out ..
@[simp] theorem State.count_call (s : State) (u off n : Nat) : (s.count u off n).call = s.call := State.wr_call ..
@[simp] theorem State.count_callCtx (s : State) (u off n : Nat) : (s.count u off n).callCtx = s.callCtx := State.wr_callCtx ..
@[simp] theorem State.count_pendCalls (s : State) (u off n : Nat) : (s.count u off n).pendCalls = s.pendCalls := State.wr_pendCalls ..
@[simp] theorem State.count_claims (s : State) (u off n : Nat) : (s.count u off n).claims = s.claims := State.wr_claims ..
@[simp] theorem State.count_accErr (s : State) (u off n : Nat) : (s.count u off n).accErr = s.accErr := State.wr_accErr ..
@[simp] theorem State.count_addrErr (s : State) (u off n : Nat) : (s.count u off n).addrErr = s.addrErr := State.wr_addrErr ..
@[simp] theorem State.count_rates (s : State) (u off n : Nat) : (s.count u off n).rates = s.rates := State.wr_rates ..
@[simp] theorem State.count_ucbs (s : State) (u off n : Nat) : (s.count u off n).ucbs = s.ucbs := State.wr_ucbs ..
@[simp] theorem State.count_clients (s : State) (u off n : Nat) : (s.count u off n).clients = s.clients := State.wr_clients ..
@[simp] theorem State.count_qcache (s : State) (u off n : Nat) : (s.count u off n).qcache = s.qcache := State.wr_qcache ..
@[simp] theorem State.count_watches (s : State) (u off n : Nat) : (s.count u off n).watches = s.watches := State.wr_watches ..
@[simp] theorem State.count_reservs (s : State) (u off n : Nat) : (s.count u off n).reservs = s.reservs := State.wr_reservs ..
@[simp] theorem State.count_gangs (s : State) (u off n : Nat) : (s.count u off n).gangs = s.gangs := State.wr_gangs ..
@[simp] theorem State.count_ctxs (s : State) (u off n : Nat) : (s.count u off n).ctxs = s.ctxs := State.wr_ctxs ..
@[simp] theorem State.count_gauge (s : State) (u off n : Nat) : (s.count u off n).gauge = s.gauge := State.wr_gauge ..
@[simp] theorem State.count_tlb (s : State) (u off n : Nat) : (s.count u off n).tlb = s.tlb := State.wr_tlb ..
@[simp] theorem State.count_faults (s : State) (u off n : Nat) : (s.count u off n).faults = s.faults := State.wr_faults ..
@[simp] theorem State.count_health (s : State) (u off n : Nat) : (s.count u off n).health = s.health := State.wr_health ..
@[simp] theorem State.count_healthSeen (s : State) (u off n : Nat) : (s.count u off n).healthSeen = s.healthSeen := State.wr_healthSeen ..
@[simp] theorem State.count_pfBusMaster (s : State) (u off n : Nat) : (s.count u off n).pfBusMaster = s.pfBusMaster := State.wr_pfBusMaster ..
@[simp] theorem State.count_wdFifo (s : State) (u off n : Nat) : (s.count u off n).wdFifo = s.wdFifo := State.wr_wdFifo ..
@[simp] theorem State.count_wdHard (s : State) (u off n : Nat) : (s.count u off n).wdHard = s.wdHard := State.wr_wdHard ..
@[simp] theorem State.count_banks (s : State) (u off n : Nat) : (s.count u off n).banks = s.banks := State.wr_banks ..
@[simp] theorem State.count_rows (s : State) (u off n : Nat) : (s.count u off n).rows = s.rows := State.wr_rows ..
@[simp] theorem State.count_bankMap (s : State) (u off n : Nat) : (s.count u off n).bankMap = s.bankMap := State.wr_bankMap ..
@[simp] theorem State.count_spareRows (s : State) (u off n : Nat) : (s.count u off n).spareRows = s.spareRows := State.wr_spareRows ..
@[simp] theorem State.count_copies (s : State) (u off n : Nat) : (s.count u off n).copies = s.copies := State.wr_copies ..
@[simp] theorem State.count_banksOut (s : State) (u off n : Nat) : (s.count u off n).banksOut = s.banksOut := State.wr_banksOut ..
@[simp] theorem State.count_maintDue (s : State) (u off n : Nat) : (s.count u off n).maintDue = s.maintDue := State.wr_maintDue ..
@[simp] theorem State.count_locks (s : State) (u off n : Nat) : (s.count u off n).locks = s.locks := State.wr_locks ..
@[simp] theorem State.count_severed (s : State) (u off n : Nat) : (s.count u off n).severed = s.severed := State.wr_severed ..
@[simp] theorem State.count_held (s : State) (u off n : Nat) : (s.count u off n).held = s.held := State.wr_held ..
@[simp] theorem State.count_parcels (s : State) (u off n : Nat) : (s.count u off n).parcels = s.parcels := State.wr_parcels ..
@[simp] theorem State.count_reply (s : State) (u off n : Nat) : (s.count u off n).reply = s.reply := State.wr_reply ..
@[simp] theorem State.count_doneFifo (s : State) (u off n : Nat) : (s.count u off n).doneFifo = s.doneFifo := State.wr_doneFifo ..
@[simp] theorem State.count_spareRelease (s : State) (u off n : Nat) : (s.count u off n).spareRelease = s.spareRelease := State.wr_spareRelease ..
@[simp] theorem State.count_pwr (s : State) (u off n : Nat) : (s.count u off n).pwr = s.pwr := State.wr_pwr ..
@[simp] theorem State.count_sbOn (s : State) (u off n : Nat) : (s.count u off n).sbOn = s.sbOn := State.wr_sbOn ..
@[simp] theorem State.count_rtx (s : State) (u off n : Nat) : (s.count u off n).rtx = s.rtx := State.wr_rtx ..
@[simp] theorem State.count_rtags (s : State) (u off n : Nat) : (s.count u off n).rtags = s.rtags := State.wr_rtags ..
@[simp] theorem State.count_rchunks (s : State) (u off n : Nat) : (s.count u off n).rchunks = s.rchunks := State.wr_rchunks ..
@[simp] theorem State.count_rgrants (s : State) (u off n : Nat) : (s.count u off n).rgrants = s.rgrants := State.wr_rgrants ..
@[simp] theorem State.count_rwaits (s : State) (u off n : Nat) : (s.count u off n).rwaits = s.rwaits := State.wr_rwaits ..
@[simp] theorem State.count_rbad (s : State) (u off n : Nat) : (s.count u off n).rbad = s.rbad := State.wr_rbad ..
@[simp] theorem State.count_rstuck (s : State) (u off n : Nat) : (s.count u off n).rstuck = s.rstuck := State.wr_rstuck ..
@[simp] theorem State.count_cmps (s : State) (u off n : Nat) : (s.count u off n).cmps = s.cmps := State.wr_cmps ..
@[simp] theorem State.count_pulses (s : State) (u off n : Nat) : (s.count u off n).pulses = s.pulses := State.wr_pulses ..
@[simp] theorem State.count_caps (s : State) (u off n : Nat) : (s.count u off n).caps = s.caps := State.wr_caps ..
@[simp] theorem State.count_ptp (s : State) (u off n : Nat) : (s.count u off n).ptp = s.ptp := State.wr_ptp ..
@[simp] theorem State.count_ethQ (s : State) (u off n : Nat) : (s.count u off n).ethQ = s.ethQ := State.wr_ethQ ..
@[simp] theorem State.count_ethBusy (s : State) (u off n : Nat) : (s.count u off n).ethBusy = s.ethBusy := State.wr_ethBusy ..
@[simp] theorem State.count_qbv (s : State) (u off n : Nat) : (s.count u off n).qbv = s.qbv := State.wr_qbv ..
@[simp] theorem State.count_genRings (s : State) (u off n : Nat) : (s.count u off n).genRings = s.genRings := State.wr_genRings ..
@[simp] theorem State.count_cans (s : State) (u off n : Nat) : (s.count u off n).cans = s.cans := State.wr_cans ..
@[simp] theorem State.count_encs (s : State) (u off n : Nat) : (s.count u off n).encs = s.encs := State.wr_encs ..
@[simp] theorem State.count_loops (s : State) (u off n : Nat) : (s.count u off n).loops = s.loops := State.wr_loops ..
@[simp] theorem State.count_lcores (s : State) (u off n : Nat) : (s.count u off n).lcores = s.lcores := State.wr_lcores ..
@[simp] theorem State.count_trigN (s : State) (u off n : Nat) : (s.count u off n).trigN = s.trigN := State.wr_trigN ..
@[simp] theorem State.count_pwmShadow (s : State) (u off n : Nat) : (s.count u off n).pwmShadow = s.pwmShadow := State.wr_pwmShadow ..
@[simp] theorem State.count_tbAt (s : State) (u off n : Nat) : (s.count u off n).tbAt = s.tbAt := State.wr_tbAt ..
@[simp] theorem State.count_takingOver (s : State) (u off n : Nat) : (s.count u off n).takingOver = s.takingOver := State.wr_takingOver ..
@[simp] theorem State.count_txWords (s : State) (u off n : Nat) : (s.count u off n).txWords = s.txWords := State.wr_txWords ..
@[simp] theorem State.count_txFirst (s : State) (u off n : Nat) : (s.count u off n).txFirst = s.txFirst := State.wr_txFirst ..
@[simp] theorem State.count_rxWords (s : State) (u off n : Nat) : (s.count u off n).rxWords = s.rxWords := State.wr_rxWords ..
@[simp] theorem State.count_gateSet (s : State) (u off n : Nat) : (s.count u off n).gateSet = s.gateSet := State.wr_gateSet ..
@[simp] theorem State.count_wd (s : State) (u off n : Nat) : (s.count u off n).wd = s.wd := State.wr_wd ..
@[simp] theorem State.count_domOff (s : State) (u off n : Nat) : (s.count u off n).domOff = s.domOff := State.wr_domOff ..
@[simp] theorem State.count_lawLast (s : State) (u off n : Nat) : (s.count u off n).lawLast = s.lawLast := State.wr_lawLast ..
@[simp] theorem State.count_calSet (s : State) (u off n : Nat) : (s.count u off n).calSet = s.calSet := State.wr_calSet ..
@[simp] theorem State.count_calOn (s : State) (u off n : Nat) : (s.count u off n).calOn = s.calOn := State.wr_calOn ..
@[simp] theorem State.count_lastRun (s : State) (u off n : Nat) : (s.count u off n).lastRun = s.lastRun := State.wr_lastRun ..
@[simp] theorem State.count_maintHold (s : State) (u off n : Nat) : (s.count u off n).maintHold = s.maintHold := State.wr_maintHold ..
@[simp] theorem State.count_maintNs (s : State) (u off n : Nat) : (s.count u off n).maintNs = s.maintNs := State.wr_maintNs ..
@[simp] theorem State.count_loads (s : State) (u off n : Nat) : (s.count u off n).loads = s.loads := State.wr_loads ..
@[simp] theorem State.count_links (s : State) (u off n : Nat) : (s.count u off n).links = s.links := State.wr_links ..
@[simp] theorem State.count_ring (s : State) (u off n : Nat) : (s.count u off n).ring = s.ring := State.wr_ring ..
@[simp] theorem State.count_vats (s : State) (u off n : Nat) : (s.count u off n).vats = s.vats := State.wr_vats ..
@[simp] theorem State.count_pps (s : State) (u off n : Nat) : (s.count u off n).pps = s.pps := State.wr_pps ..
@[simp] theorem State.count_sensors (s : State) (u off n : Nat) : (s.count u off n).sensors = s.sensors := State.wr_sensors ..
@[simp] theorem State.count_feeds (s : State) (u off n : Nat) : (s.count u off n).feeds = s.feeds := State.wr_feeds ..
@[simp] theorem State.count_mpActive (s : State) (u off n : Nat) : (s.count u off n).mpActive = s.mpActive := State.wr_mpActive ..
@[simp] theorem State.count_spPause (s : State) (u off n : Nat) : (s.count u off n).spPause = s.spPause := State.wr_spPause ..
@[simp] theorem State.count_temps (s : State) (u off n : Nat) : (s.count u off n).temps = s.temps := State.wr_temps ..
@[simp] theorem State.count_inject (s : State) (u off n : Nat) : (s.count u off n).inject = s.inject := State.wr_inject ..
@[simp] theorem State.count_stores (s : State) (u off n : Nat) : (s.count u off n).stores = s.stores := State.wr_stores ..
@[simp] theorem State.count_psumBad (s : State) (u off n : Nat) : (s.count u off n).psumBad = s.psumBad := State.wr_psumBad ..
@[simp] theorem State.count_xlInval (s : State) (u off n : Nat) : (s.count u off n).xlInval = s.xlInval := State.wr_xlInval ..
@[simp] theorem State.count_mbLast (s : State) (u off n : Nat) : (s.count u off n).mbLast = s.mbLast := State.wr_mbLast ..
@[simp] theorem State.count_mbDiscard (s : State) (u off n : Nat) : (s.count u off n).mbDiscard = s.mbDiscard := State.wr_mbDiscard ..
@[simp] theorem State.count_images (s : State) (u off n : Nat) : (s.count u off n).images = s.images := State.wr_images ..
@[simp] theorem State.count_otpRevoke (s : State) (u off n : Nat) : (s.count u off n).otpRevoke = s.otpRevoke := State.wr_otpRevoke ..
@[simp] theorem State.count_otpSvn (s : State) (u off n : Nat) : (s.count u off n).otpSvn = s.otpSvn := State.wr_otpSvn ..
@[simp] theorem State.count_otpUcal (s : State) (u off n : Nat) : (s.count u off n).otpUcal = s.otpUcal := State.wr_otpUcal ..
@[simp] theorem State.count_devLock (s : State) (u off n : Nat) : (s.count u off n).devLock = s.devLock := State.wr_devLock ..
@[simp] theorem State.count_flash (s : State) (u off n : Nat) : (s.count u off n).flash = s.flash := State.wr_flash ..
@[simp] theorem State.count_calBytes (s : State) (u off n : Nat) : (s.count u off n).calBytes = s.calBytes := State.wr_calBytes ..
@[simp] theorem State.count_boot (s : State) (u off n : Nat) : (s.count u off n).boot = s.boot := State.wr_boot ..
@[simp] theorem State.count_upd (s : State) (u off n : Nat) : (s.count u off n).upd = s.upd := State.wr_upd ..
@[simp] theorem State.count_consent (s : State) (u off n : Nat) : (s.count u off n).consent = s.consent := State.wr_consent ..

/-! ### State.putMark -/

@[simp] theorem State.putMark_pending (s : State) (m v : Nat) : (s.putMark m v).pending = s.pending := State.with_marks_pending s _
@[simp] theorem State.putMark_free (s : State) (m v : Nat) : (s.putMark m v).free = s.free := State.with_marks_free s _
@[simp] theorem State.putMark_part (s : State) (m v : Nat) : (s.putMark m v).part = s.part := State.with_marks_part s _
@[simp] theorem State.putMark_regs (s : State) (m v : Nat) : (s.putMark m v).regs = s.regs := State.with_marks_regs s _
@[simp] theorem State.putMark_mem (s : State) (m v : Nat) : (s.putMark m v).mem = s.mem := State.with_marks_mem s _
@[simp] theorem State.putMark_voids (s : State) (m v : Nat) : (s.putMark m v).voids = s.voids := State.with_marks_voids s _
@[simp] theorem State.putMark_hostMem (s : State) (m v : Nat) : (s.putMark m v).hostMem = s.hostMem := State.with_marks_hostMem s _
@[simp] theorem State.putMark_wide (s : State) (m v : Nat) : (s.putMark m v).wide = s.wide := State.with_marks_wide s _
@[simp] theorem State.putMark_out (s : State) (m v : Nat) : (s.putMark m v).out = s.out := State.with_marks_out s _
@[simp] theorem State.putMark_call (s : State) (m v : Nat) : (s.putMark m v).call = s.call := State.with_marks_call s _
@[simp] theorem State.putMark_callCtx (s : State) (m v : Nat) : (s.putMark m v).callCtx = s.callCtx := State.with_marks_callCtx s _
@[simp] theorem State.putMark_pendCalls (s : State) (m v : Nat) : (s.putMark m v).pendCalls = s.pendCalls := State.with_marks_pendCalls s _
@[simp] theorem State.putMark_claims (s : State) (m v : Nat) : (s.putMark m v).claims = s.claims := State.with_marks_claims s _
@[simp] theorem State.putMark_accErr (s : State) (m v : Nat) : (s.putMark m v).accErr = s.accErr := State.with_marks_accErr s _
@[simp] theorem State.putMark_addrErr (s : State) (m v : Nat) : (s.putMark m v).addrErr = s.addrErr := State.with_marks_addrErr s _
@[simp] theorem State.putMark_rates (s : State) (m v : Nat) : (s.putMark m v).rates = s.rates := State.with_marks_rates s _
@[simp] theorem State.putMark_ucbs (s : State) (m v : Nat) : (s.putMark m v).ucbs = s.ucbs := State.with_marks_ucbs s _
@[simp] theorem State.putMark_clients (s : State) (m v : Nat) : (s.putMark m v).clients = s.clients := State.with_marks_clients s _
@[simp] theorem State.putMark_qcache (s : State) (m v : Nat) : (s.putMark m v).qcache = s.qcache := State.with_marks_qcache s _
@[simp] theorem State.putMark_watches (s : State) (m v : Nat) : (s.putMark m v).watches = s.watches := State.with_marks_watches s _
@[simp] theorem State.putMark_reservs (s : State) (m v : Nat) : (s.putMark m v).reservs = s.reservs := State.with_marks_reservs s _
@[simp] theorem State.putMark_gangs (s : State) (m v : Nat) : (s.putMark m v).gangs = s.gangs := State.with_marks_gangs s _
@[simp] theorem State.putMark_ctxs (s : State) (m v : Nat) : (s.putMark m v).ctxs = s.ctxs := State.with_marks_ctxs s _
@[simp] theorem State.putMark_gauge (s : State) (m v : Nat) : (s.putMark m v).gauge = s.gauge := State.with_marks_gauge s _
@[simp] theorem State.putMark_tlb (s : State) (m v : Nat) : (s.putMark m v).tlb = s.tlb := State.with_marks_tlb s _
@[simp] theorem State.putMark_faults (s : State) (m v : Nat) : (s.putMark m v).faults = s.faults := State.with_marks_faults s _
@[simp] theorem State.putMark_health (s : State) (m v : Nat) : (s.putMark m v).health = s.health := State.with_marks_health s _
@[simp] theorem State.putMark_healthSeen (s : State) (m v : Nat) : (s.putMark m v).healthSeen = s.healthSeen := State.with_marks_healthSeen s _
@[simp] theorem State.putMark_pfBusMaster (s : State) (m v : Nat) : (s.putMark m v).pfBusMaster = s.pfBusMaster := State.with_marks_pfBusMaster s _
@[simp] theorem State.putMark_wdFifo (s : State) (m v : Nat) : (s.putMark m v).wdFifo = s.wdFifo := State.with_marks_wdFifo s _
@[simp] theorem State.putMark_wdHard (s : State) (m v : Nat) : (s.putMark m v).wdHard = s.wdHard := State.with_marks_wdHard s _
@[simp] theorem State.putMark_banks (s : State) (m v : Nat) : (s.putMark m v).banks = s.banks := State.with_marks_banks s _
@[simp] theorem State.putMark_rows (s : State) (m v : Nat) : (s.putMark m v).rows = s.rows := State.with_marks_rows s _
@[simp] theorem State.putMark_bankMap (s : State) (m v : Nat) : (s.putMark m v).bankMap = s.bankMap := State.with_marks_bankMap s _
@[simp] theorem State.putMark_spareRows (s : State) (m v : Nat) : (s.putMark m v).spareRows = s.spareRows := State.with_marks_spareRows s _
@[simp] theorem State.putMark_copies (s : State) (m v : Nat) : (s.putMark m v).copies = s.copies := State.with_marks_copies s _
@[simp] theorem State.putMark_banksOut (s : State) (m v : Nat) : (s.putMark m v).banksOut = s.banksOut := State.with_marks_banksOut s _
@[simp] theorem State.putMark_maintDue (s : State) (m v : Nat) : (s.putMark m v).maintDue = s.maintDue := State.with_marks_maintDue s _
@[simp] theorem State.putMark_locks (s : State) (m v : Nat) : (s.putMark m v).locks = s.locks := State.with_marks_locks s _
@[simp] theorem State.putMark_severed (s : State) (m v : Nat) : (s.putMark m v).severed = s.severed := State.with_marks_severed s _
@[simp] theorem State.putMark_held (s : State) (m v : Nat) : (s.putMark m v).held = s.held := State.with_marks_held s _
@[simp] theorem State.putMark_parcels (s : State) (m v : Nat) : (s.putMark m v).parcels = s.parcels := State.with_marks_parcels s _
@[simp] theorem State.putMark_reply (s : State) (m v : Nat) : (s.putMark m v).reply = s.reply := State.with_marks_reply s _
@[simp] theorem State.putMark_doneFifo (s : State) (m v : Nat) : (s.putMark m v).doneFifo = s.doneFifo := State.with_marks_doneFifo s _
@[simp] theorem State.putMark_spareRelease (s : State) (m v : Nat) : (s.putMark m v).spareRelease = s.spareRelease := State.with_marks_spareRelease s _
@[simp] theorem State.putMark_pwr (s : State) (m v : Nat) : (s.putMark m v).pwr = s.pwr := State.with_marks_pwr s _
@[simp] theorem State.putMark_sbOn (s : State) (m v : Nat) : (s.putMark m v).sbOn = s.sbOn := State.with_marks_sbOn s _
@[simp] theorem State.putMark_rtx (s : State) (m v : Nat) : (s.putMark m v).rtx = s.rtx := State.with_marks_rtx s _
@[simp] theorem State.putMark_rtags (s : State) (m v : Nat) : (s.putMark m v).rtags = s.rtags := State.with_marks_rtags s _
@[simp] theorem State.putMark_rchunks (s : State) (m v : Nat) : (s.putMark m v).rchunks = s.rchunks := State.with_marks_rchunks s _
@[simp] theorem State.putMark_rgrants (s : State) (m v : Nat) : (s.putMark m v).rgrants = s.rgrants := State.with_marks_rgrants s _
@[simp] theorem State.putMark_rwaits (s : State) (m v : Nat) : (s.putMark m v).rwaits = s.rwaits := State.with_marks_rwaits s _
@[simp] theorem State.putMark_rbad (s : State) (m v : Nat) : (s.putMark m v).rbad = s.rbad := State.with_marks_rbad s _
@[simp] theorem State.putMark_rstuck (s : State) (m v : Nat) : (s.putMark m v).rstuck = s.rstuck := State.with_marks_rstuck s _
@[simp] theorem State.putMark_cmps (s : State) (m v : Nat) : (s.putMark m v).cmps = s.cmps := State.with_marks_cmps s _
@[simp] theorem State.putMark_pulses (s : State) (m v : Nat) : (s.putMark m v).pulses = s.pulses := State.with_marks_pulses s _
@[simp] theorem State.putMark_caps (s : State) (m v : Nat) : (s.putMark m v).caps = s.caps := State.with_marks_caps s _
@[simp] theorem State.putMark_ptp (s : State) (m v : Nat) : (s.putMark m v).ptp = s.ptp := State.with_marks_ptp s _
@[simp] theorem State.putMark_ethQ (s : State) (m v : Nat) : (s.putMark m v).ethQ = s.ethQ := State.with_marks_ethQ s _
@[simp] theorem State.putMark_ethBusy (s : State) (m v : Nat) : (s.putMark m v).ethBusy = s.ethBusy := State.with_marks_ethBusy s _
@[simp] theorem State.putMark_qbv (s : State) (m v : Nat) : (s.putMark m v).qbv = s.qbv := State.with_marks_qbv s _
@[simp] theorem State.putMark_genRings (s : State) (m v : Nat) : (s.putMark m v).genRings = s.genRings := State.with_marks_genRings s _
@[simp] theorem State.putMark_cans (s : State) (m v : Nat) : (s.putMark m v).cans = s.cans := State.with_marks_cans s _
@[simp] theorem State.putMark_encs (s : State) (m v : Nat) : (s.putMark m v).encs = s.encs := State.with_marks_encs s _
@[simp] theorem State.putMark_loops (s : State) (m v : Nat) : (s.putMark m v).loops = s.loops := State.with_marks_loops s _
@[simp] theorem State.putMark_lcores (s : State) (m v : Nat) : (s.putMark m v).lcores = s.lcores := State.with_marks_lcores s _
@[simp] theorem State.putMark_trigN (s : State) (m v : Nat) : (s.putMark m v).trigN = s.trigN := State.with_marks_trigN s _
@[simp] theorem State.putMark_pwmShadow (s : State) (m v : Nat) : (s.putMark m v).pwmShadow = s.pwmShadow := State.with_marks_pwmShadow s _
@[simp] theorem State.putMark_tbAt (s : State) (m v : Nat) : (s.putMark m v).tbAt = s.tbAt := State.with_marks_tbAt s _
@[simp] theorem State.putMark_takingOver (s : State) (m v : Nat) : (s.putMark m v).takingOver = s.takingOver := State.with_marks_takingOver s _
@[simp] theorem State.putMark_txWords (s : State) (m v : Nat) : (s.putMark m v).txWords = s.txWords := State.with_marks_txWords s _
@[simp] theorem State.putMark_txFirst (s : State) (m v : Nat) : (s.putMark m v).txFirst = s.txFirst := State.with_marks_txFirst s _
@[simp] theorem State.putMark_rxWords (s : State) (m v : Nat) : (s.putMark m v).rxWords = s.rxWords := State.with_marks_rxWords s _
@[simp] theorem State.putMark_gateSet (s : State) (m v : Nat) : (s.putMark m v).gateSet = s.gateSet := State.with_marks_gateSet s _
@[simp] theorem State.putMark_wd (s : State) (m v : Nat) : (s.putMark m v).wd = s.wd := State.with_marks_wd s _
@[simp] theorem State.putMark_domOff (s : State) (m v : Nat) : (s.putMark m v).domOff = s.domOff := State.with_marks_domOff s _
@[simp] theorem State.putMark_lawLast (s : State) (m v : Nat) : (s.putMark m v).lawLast = s.lawLast := State.with_marks_lawLast s _
@[simp] theorem State.putMark_calSet (s : State) (m v : Nat) : (s.putMark m v).calSet = s.calSet := State.with_marks_calSet s _
@[simp] theorem State.putMark_calOn (s : State) (m v : Nat) : (s.putMark m v).calOn = s.calOn := State.with_marks_calOn s _
@[simp] theorem State.putMark_lastRun (s : State) (m v : Nat) : (s.putMark m v).lastRun = s.lastRun := State.with_marks_lastRun s _
@[simp] theorem State.putMark_maintHold (s : State) (m v : Nat) : (s.putMark m v).maintHold = s.maintHold := State.with_marks_maintHold s _
@[simp] theorem State.putMark_maintNs (s : State) (m v : Nat) : (s.putMark m v).maintNs = s.maintNs := State.with_marks_maintNs s _
@[simp] theorem State.putMark_loads (s : State) (m v : Nat) : (s.putMark m v).loads = s.loads := State.with_marks_loads s _
@[simp] theorem State.putMark_links (s : State) (m v : Nat) : (s.putMark m v).links = s.links := State.with_marks_links s _
@[simp] theorem State.putMark_ring (s : State) (m v : Nat) : (s.putMark m v).ring = s.ring := State.with_marks_ring s _
@[simp] theorem State.putMark_vats (s : State) (m v : Nat) : (s.putMark m v).vats = s.vats := State.with_marks_vats s _
@[simp] theorem State.putMark_pps (s : State) (m v : Nat) : (s.putMark m v).pps = s.pps := State.with_marks_pps s _
@[simp] theorem State.putMark_sensors (s : State) (m v : Nat) : (s.putMark m v).sensors = s.sensors := State.with_marks_sensors s _
@[simp] theorem State.putMark_feeds (s : State) (m v : Nat) : (s.putMark m v).feeds = s.feeds := State.with_marks_feeds s _
@[simp] theorem State.putMark_mpActive (s : State) (m v : Nat) : (s.putMark m v).mpActive = s.mpActive := State.with_marks_mpActive s _
@[simp] theorem State.putMark_spPause (s : State) (m v : Nat) : (s.putMark m v).spPause = s.spPause := State.with_marks_spPause s _
@[simp] theorem State.putMark_temps (s : State) (m v : Nat) : (s.putMark m v).temps = s.temps := State.with_marks_temps s _
@[simp] theorem State.putMark_inject (s : State) (m v : Nat) : (s.putMark m v).inject = s.inject := State.with_marks_inject s _
@[simp] theorem State.putMark_stores (s : State) (m v : Nat) : (s.putMark m v).stores = s.stores := State.with_marks_stores s _
@[simp] theorem State.putMark_psumBad (s : State) (m v : Nat) : (s.putMark m v).psumBad = s.psumBad := State.with_marks_psumBad s _
@[simp] theorem State.putMark_xlInval (s : State) (m v : Nat) : (s.putMark m v).xlInval = s.xlInval := State.with_marks_xlInval s _
@[simp] theorem State.putMark_mbLast (s : State) (m v : Nat) : (s.putMark m v).mbLast = s.mbLast := State.with_marks_mbLast s _
@[simp] theorem State.putMark_mbDiscard (s : State) (m v : Nat) : (s.putMark m v).mbDiscard = s.mbDiscard := State.with_marks_mbDiscard s _
@[simp] theorem State.putMark_images (s : State) (m v : Nat) : (s.putMark m v).images = s.images := State.with_marks_images s _
@[simp] theorem State.putMark_otpRevoke (s : State) (m v : Nat) : (s.putMark m v).otpRevoke = s.otpRevoke := State.with_marks_otpRevoke s _
@[simp] theorem State.putMark_otpSvn (s : State) (m v : Nat) : (s.putMark m v).otpSvn = s.otpSvn := State.with_marks_otpSvn s _
@[simp] theorem State.putMark_otpUcal (s : State) (m v : Nat) : (s.putMark m v).otpUcal = s.otpUcal := State.with_marks_otpUcal s _
@[simp] theorem State.putMark_devLock (s : State) (m v : Nat) : (s.putMark m v).devLock = s.devLock := State.with_marks_devLock s _
@[simp] theorem State.putMark_flash (s : State) (m v : Nat) : (s.putMark m v).flash = s.flash := State.with_marks_flash s _
@[simp] theorem State.putMark_calBytes (s : State) (m v : Nat) : (s.putMark m v).calBytes = s.calBytes := State.with_marks_calBytes s _
@[simp] theorem State.putMark_boot (s : State) (m v : Nat) : (s.putMark m v).boot = s.boot := State.with_marks_boot s _
@[simp] theorem State.putMark_upd (s : State) (m v : Nat) : (s.putMark m v).upd = s.upd := State.with_marks_upd s _
@[simp] theorem State.putMark_consent (s : State) (m v : Nat) : (s.putMark m v).consent = s.consent := State.with_marks_consent s _

/-! ### State.setByte -/

@[simp] theorem State.setByte_pending (s : State) (a : Nat) (v : Byte) : (s.setByte a v).pending = s.pending := State.with_mem_pending s _
@[simp] theorem State.setByte_free (s : State) (a : Nat) (v : Byte) : (s.setByte a v).free = s.free := State.with_mem_free s _
@[simp] theorem State.setByte_part (s : State) (a : Nat) (v : Byte) : (s.setByte a v).part = s.part := State.with_mem_part s _
@[simp] theorem State.setByte_regs (s : State) (a : Nat) (v : Byte) : (s.setByte a v).regs = s.regs := State.with_mem_regs s _
@[simp] theorem State.setByte_voids (s : State) (a : Nat) (v : Byte) : (s.setByte a v).voids = s.voids := State.with_mem_voids s _
@[simp] theorem State.setByte_hostMem (s : State) (a : Nat) (v : Byte) : (s.setByte a v).hostMem = s.hostMem := State.with_mem_hostMem s _
@[simp] theorem State.setByte_marks (s : State) (a : Nat) (v : Byte) : (s.setByte a v).marks = s.marks := State.with_mem_marks s _
@[simp] theorem State.setByte_wide (s : State) (a : Nat) (v : Byte) : (s.setByte a v).wide = s.wide := State.with_mem_wide s _
@[simp] theorem State.setByte_out (s : State) (a : Nat) (v : Byte) : (s.setByte a v).out = s.out := State.with_mem_out s _
@[simp] theorem State.setByte_call (s : State) (a : Nat) (v : Byte) : (s.setByte a v).call = s.call := State.with_mem_call s _
@[simp] theorem State.setByte_callCtx (s : State) (a : Nat) (v : Byte) : (s.setByte a v).callCtx = s.callCtx := State.with_mem_callCtx s _
@[simp] theorem State.setByte_pendCalls (s : State) (a : Nat) (v : Byte) : (s.setByte a v).pendCalls = s.pendCalls := State.with_mem_pendCalls s _
@[simp] theorem State.setByte_claims (s : State) (a : Nat) (v : Byte) : (s.setByte a v).claims = s.claims := State.with_mem_claims s _
@[simp] theorem State.setByte_accErr (s : State) (a : Nat) (v : Byte) : (s.setByte a v).accErr = s.accErr := State.with_mem_accErr s _
@[simp] theorem State.setByte_addrErr (s : State) (a : Nat) (v : Byte) : (s.setByte a v).addrErr = s.addrErr := State.with_mem_addrErr s _
@[simp] theorem State.setByte_rates (s : State) (a : Nat) (v : Byte) : (s.setByte a v).rates = s.rates := State.with_mem_rates s _
@[simp] theorem State.setByte_ucbs (s : State) (a : Nat) (v : Byte) : (s.setByte a v).ucbs = s.ucbs := State.with_mem_ucbs s _
@[simp] theorem State.setByte_clients (s : State) (a : Nat) (v : Byte) : (s.setByte a v).clients = s.clients := State.with_mem_clients s _
@[simp] theorem State.setByte_qcache (s : State) (a : Nat) (v : Byte) : (s.setByte a v).qcache = s.qcache := State.with_mem_qcache s _
@[simp] theorem State.setByte_watches (s : State) (a : Nat) (v : Byte) : (s.setByte a v).watches = s.watches := State.with_mem_watches s _
@[simp] theorem State.setByte_reservs (s : State) (a : Nat) (v : Byte) : (s.setByte a v).reservs = s.reservs := State.with_mem_reservs s _
@[simp] theorem State.setByte_gangs (s : State) (a : Nat) (v : Byte) : (s.setByte a v).gangs = s.gangs := State.with_mem_gangs s _
@[simp] theorem State.setByte_ctxs (s : State) (a : Nat) (v : Byte) : (s.setByte a v).ctxs = s.ctxs := State.with_mem_ctxs s _
@[simp] theorem State.setByte_gauge (s : State) (a : Nat) (v : Byte) : (s.setByte a v).gauge = s.gauge := State.with_mem_gauge s _
@[simp] theorem State.setByte_tlb (s : State) (a : Nat) (v : Byte) : (s.setByte a v).tlb = s.tlb := State.with_mem_tlb s _
@[simp] theorem State.setByte_faults (s : State) (a : Nat) (v : Byte) : (s.setByte a v).faults = s.faults := State.with_mem_faults s _
@[simp] theorem State.setByte_health (s : State) (a : Nat) (v : Byte) : (s.setByte a v).health = s.health := State.with_mem_health s _
@[simp] theorem State.setByte_healthSeen (s : State) (a : Nat) (v : Byte) : (s.setByte a v).healthSeen = s.healthSeen := State.with_mem_healthSeen s _
@[simp] theorem State.setByte_pfBusMaster (s : State) (a : Nat) (v : Byte) : (s.setByte a v).pfBusMaster = s.pfBusMaster := State.with_mem_pfBusMaster s _
@[simp] theorem State.setByte_wdFifo (s : State) (a : Nat) (v : Byte) : (s.setByte a v).wdFifo = s.wdFifo := State.with_mem_wdFifo s _
@[simp] theorem State.setByte_wdHard (s : State) (a : Nat) (v : Byte) : (s.setByte a v).wdHard = s.wdHard := State.with_mem_wdHard s _
@[simp] theorem State.setByte_banks (s : State) (a : Nat) (v : Byte) : (s.setByte a v).banks = s.banks := State.with_mem_banks s _
@[simp] theorem State.setByte_rows (s : State) (a : Nat) (v : Byte) : (s.setByte a v).rows = s.rows := State.with_mem_rows s _
@[simp] theorem State.setByte_bankMap (s : State) (a : Nat) (v : Byte) : (s.setByte a v).bankMap = s.bankMap := State.with_mem_bankMap s _
@[simp] theorem State.setByte_spareRows (s : State) (a : Nat) (v : Byte) : (s.setByte a v).spareRows = s.spareRows := State.with_mem_spareRows s _
@[simp] theorem State.setByte_copies (s : State) (a : Nat) (v : Byte) : (s.setByte a v).copies = s.copies := State.with_mem_copies s _
@[simp] theorem State.setByte_banksOut (s : State) (a : Nat) (v : Byte) : (s.setByte a v).banksOut = s.banksOut := State.with_mem_banksOut s _
@[simp] theorem State.setByte_maintDue (s : State) (a : Nat) (v : Byte) : (s.setByte a v).maintDue = s.maintDue := State.with_mem_maintDue s _
@[simp] theorem State.setByte_locks (s : State) (a : Nat) (v : Byte) : (s.setByte a v).locks = s.locks := State.with_mem_locks s _
@[simp] theorem State.setByte_severed (s : State) (a : Nat) (v : Byte) : (s.setByte a v).severed = s.severed := State.with_mem_severed s _
@[simp] theorem State.setByte_held (s : State) (a : Nat) (v : Byte) : (s.setByte a v).held = s.held := State.with_mem_held s _
@[simp] theorem State.setByte_parcels (s : State) (a : Nat) (v : Byte) : (s.setByte a v).parcels = s.parcels := State.with_mem_parcels s _
@[simp] theorem State.setByte_reply (s : State) (a : Nat) (v : Byte) : (s.setByte a v).reply = s.reply := State.with_mem_reply s _
@[simp] theorem State.setByte_doneFifo (s : State) (a : Nat) (v : Byte) : (s.setByte a v).doneFifo = s.doneFifo := State.with_mem_doneFifo s _
@[simp] theorem State.setByte_spareRelease (s : State) (a : Nat) (v : Byte) : (s.setByte a v).spareRelease = s.spareRelease := State.with_mem_spareRelease s _
@[simp] theorem State.setByte_pwr (s : State) (a : Nat) (v : Byte) : (s.setByte a v).pwr = s.pwr := State.with_mem_pwr s _
@[simp] theorem State.setByte_sbOn (s : State) (a : Nat) (v : Byte) : (s.setByte a v).sbOn = s.sbOn := State.with_mem_sbOn s _
@[simp] theorem State.setByte_rtx (s : State) (a : Nat) (v : Byte) : (s.setByte a v).rtx = s.rtx := State.with_mem_rtx s _
@[simp] theorem State.setByte_rtags (s : State) (a : Nat) (v : Byte) : (s.setByte a v).rtags = s.rtags := State.with_mem_rtags s _
@[simp] theorem State.setByte_rchunks (s : State) (a : Nat) (v : Byte) : (s.setByte a v).rchunks = s.rchunks := State.with_mem_rchunks s _
@[simp] theorem State.setByte_rgrants (s : State) (a : Nat) (v : Byte) : (s.setByte a v).rgrants = s.rgrants := State.with_mem_rgrants s _
@[simp] theorem State.setByte_rwaits (s : State) (a : Nat) (v : Byte) : (s.setByte a v).rwaits = s.rwaits := State.with_mem_rwaits s _
@[simp] theorem State.setByte_rbad (s : State) (a : Nat) (v : Byte) : (s.setByte a v).rbad = s.rbad := State.with_mem_rbad s _
@[simp] theorem State.setByte_rstuck (s : State) (a : Nat) (v : Byte) : (s.setByte a v).rstuck = s.rstuck := State.with_mem_rstuck s _
@[simp] theorem State.setByte_cmps (s : State) (a : Nat) (v : Byte) : (s.setByte a v).cmps = s.cmps := State.with_mem_cmps s _
@[simp] theorem State.setByte_pulses (s : State) (a : Nat) (v : Byte) : (s.setByte a v).pulses = s.pulses := State.with_mem_pulses s _
@[simp] theorem State.setByte_caps (s : State) (a : Nat) (v : Byte) : (s.setByte a v).caps = s.caps := State.with_mem_caps s _
@[simp] theorem State.setByte_ptp (s : State) (a : Nat) (v : Byte) : (s.setByte a v).ptp = s.ptp := State.with_mem_ptp s _
@[simp] theorem State.setByte_ethQ (s : State) (a : Nat) (v : Byte) : (s.setByte a v).ethQ = s.ethQ := State.with_mem_ethQ s _
@[simp] theorem State.setByte_ethBusy (s : State) (a : Nat) (v : Byte) : (s.setByte a v).ethBusy = s.ethBusy := State.with_mem_ethBusy s _
@[simp] theorem State.setByte_qbv (s : State) (a : Nat) (v : Byte) : (s.setByte a v).qbv = s.qbv := State.with_mem_qbv s _
@[simp] theorem State.setByte_genRings (s : State) (a : Nat) (v : Byte) : (s.setByte a v).genRings = s.genRings := State.with_mem_genRings s _
@[simp] theorem State.setByte_cans (s : State) (a : Nat) (v : Byte) : (s.setByte a v).cans = s.cans := State.with_mem_cans s _
@[simp] theorem State.setByte_encs (s : State) (a : Nat) (v : Byte) : (s.setByte a v).encs = s.encs := State.with_mem_encs s _
@[simp] theorem State.setByte_loops (s : State) (a : Nat) (v : Byte) : (s.setByte a v).loops = s.loops := State.with_mem_loops s _
@[simp] theorem State.setByte_lcores (s : State) (a : Nat) (v : Byte) : (s.setByte a v).lcores = s.lcores := State.with_mem_lcores s _
@[simp] theorem State.setByte_trigN (s : State) (a : Nat) (v : Byte) : (s.setByte a v).trigN = s.trigN := State.with_mem_trigN s _
@[simp] theorem State.setByte_pwmShadow (s : State) (a : Nat) (v : Byte) : (s.setByte a v).pwmShadow = s.pwmShadow := State.with_mem_pwmShadow s _
@[simp] theorem State.setByte_tbAt (s : State) (a : Nat) (v : Byte) : (s.setByte a v).tbAt = s.tbAt := State.with_mem_tbAt s _
@[simp] theorem State.setByte_takingOver (s : State) (a : Nat) (v : Byte) : (s.setByte a v).takingOver = s.takingOver := State.with_mem_takingOver s _
@[simp] theorem State.setByte_txWords (s : State) (a : Nat) (v : Byte) : (s.setByte a v).txWords = s.txWords := State.with_mem_txWords s _
@[simp] theorem State.setByte_txFirst (s : State) (a : Nat) (v : Byte) : (s.setByte a v).txFirst = s.txFirst := State.with_mem_txFirst s _
@[simp] theorem State.setByte_rxWords (s : State) (a : Nat) (v : Byte) : (s.setByte a v).rxWords = s.rxWords := State.with_mem_rxWords s _
@[simp] theorem State.setByte_gateSet (s : State) (a : Nat) (v : Byte) : (s.setByte a v).gateSet = s.gateSet := State.with_mem_gateSet s _
@[simp] theorem State.setByte_wd (s : State) (a : Nat) (v : Byte) : (s.setByte a v).wd = s.wd := State.with_mem_wd s _
@[simp] theorem State.setByte_domOff (s : State) (a : Nat) (v : Byte) : (s.setByte a v).domOff = s.domOff := State.with_mem_domOff s _
@[simp] theorem State.setByte_lawLast (s : State) (a : Nat) (v : Byte) : (s.setByte a v).lawLast = s.lawLast := State.with_mem_lawLast s _
@[simp] theorem State.setByte_calSet (s : State) (a : Nat) (v : Byte) : (s.setByte a v).calSet = s.calSet := State.with_mem_calSet s _
@[simp] theorem State.setByte_calOn (s : State) (a : Nat) (v : Byte) : (s.setByte a v).calOn = s.calOn := State.with_mem_calOn s _
@[simp] theorem State.setByte_lastRun (s : State) (a : Nat) (v : Byte) : (s.setByte a v).lastRun = s.lastRun := State.with_mem_lastRun s _
@[simp] theorem State.setByte_maintHold (s : State) (a : Nat) (v : Byte) : (s.setByte a v).maintHold = s.maintHold := State.with_mem_maintHold s _
@[simp] theorem State.setByte_maintNs (s : State) (a : Nat) (v : Byte) : (s.setByte a v).maintNs = s.maintNs := State.with_mem_maintNs s _
@[simp] theorem State.setByte_loads (s : State) (a : Nat) (v : Byte) : (s.setByte a v).loads = s.loads := State.with_mem_loads s _
@[simp] theorem State.setByte_links (s : State) (a : Nat) (v : Byte) : (s.setByte a v).links = s.links := State.with_mem_links s _
@[simp] theorem State.setByte_ring (s : State) (a : Nat) (v : Byte) : (s.setByte a v).ring = s.ring := State.with_mem_ring s _
@[simp] theorem State.setByte_vats (s : State) (a : Nat) (v : Byte) : (s.setByte a v).vats = s.vats := State.with_mem_vats s _
@[simp] theorem State.setByte_pps (s : State) (a : Nat) (v : Byte) : (s.setByte a v).pps = s.pps := State.with_mem_pps s _
@[simp] theorem State.setByte_sensors (s : State) (a : Nat) (v : Byte) : (s.setByte a v).sensors = s.sensors := State.with_mem_sensors s _
@[simp] theorem State.setByte_feeds (s : State) (a : Nat) (v : Byte) : (s.setByte a v).feeds = s.feeds := State.with_mem_feeds s _
@[simp] theorem State.setByte_mpActive (s : State) (a : Nat) (v : Byte) : (s.setByte a v).mpActive = s.mpActive := State.with_mem_mpActive s _
@[simp] theorem State.setByte_spPause (s : State) (a : Nat) (v : Byte) : (s.setByte a v).spPause = s.spPause := State.with_mem_spPause s _
@[simp] theorem State.setByte_temps (s : State) (a : Nat) (v : Byte) : (s.setByte a v).temps = s.temps := State.with_mem_temps s _
@[simp] theorem State.setByte_inject (s : State) (a : Nat) (v : Byte) : (s.setByte a v).inject = s.inject := State.with_mem_inject s _
@[simp] theorem State.setByte_stores (s : State) (a : Nat) (v : Byte) : (s.setByte a v).stores = s.stores := State.with_mem_stores s _
@[simp] theorem State.setByte_psumBad (s : State) (a : Nat) (v : Byte) : (s.setByte a v).psumBad = s.psumBad := State.with_mem_psumBad s _
@[simp] theorem State.setByte_xlInval (s : State) (a : Nat) (v : Byte) : (s.setByte a v).xlInval = s.xlInval := State.with_mem_xlInval s _
@[simp] theorem State.setByte_mbLast (s : State) (a : Nat) (v : Byte) : (s.setByte a v).mbLast = s.mbLast := State.with_mem_mbLast s _
@[simp] theorem State.setByte_mbDiscard (s : State) (a : Nat) (v : Byte) : (s.setByte a v).mbDiscard = s.mbDiscard := State.with_mem_mbDiscard s _
@[simp] theorem State.setByte_images (s : State) (a : Nat) (v : Byte) : (s.setByte a v).images = s.images := State.with_mem_images s _
@[simp] theorem State.setByte_otpRevoke (s : State) (a : Nat) (v : Byte) : (s.setByte a v).otpRevoke = s.otpRevoke := State.with_mem_otpRevoke s _
@[simp] theorem State.setByte_otpSvn (s : State) (a : Nat) (v : Byte) : (s.setByte a v).otpSvn = s.otpSvn := State.with_mem_otpSvn s _
@[simp] theorem State.setByte_otpUcal (s : State) (a : Nat) (v : Byte) : (s.setByte a v).otpUcal = s.otpUcal := State.with_mem_otpUcal s _
@[simp] theorem State.setByte_devLock (s : State) (a : Nat) (v : Byte) : (s.setByte a v).devLock = s.devLock := State.with_mem_devLock s _
@[simp] theorem State.setByte_flash (s : State) (a : Nat) (v : Byte) : (s.setByte a v).flash = s.flash := State.with_mem_flash s _
@[simp] theorem State.setByte_calBytes (s : State) (a : Nat) (v : Byte) : (s.setByte a v).calBytes = s.calBytes := State.with_mem_calBytes s _
@[simp] theorem State.setByte_boot (s : State) (a : Nat) (v : Byte) : (s.setByte a v).boot = s.boot := State.with_mem_boot s _
@[simp] theorem State.setByte_upd (s : State) (a : Nat) (v : Byte) : (s.setByte a v).upd = s.upd := State.with_mem_upd s _
@[simp] theorem State.setByte_consent (s : State) (a : Nat) (v : Byte) : (s.setByte a v).consent = s.consent := State.with_mem_consent s _

/-! ### State.ret -/

@[simp] theorem State.ret_pending (s : State) (n : Nat) (l : List Word) : (s.ret n l).pending = s.pending := State.with_call_pending s _
@[simp] theorem State.ret_free (s : State) (n : Nat) (l : List Word) : (s.ret n l).free = s.free := State.with_call_free s _
@[simp] theorem State.ret_part (s : State) (n : Nat) (l : List Word) : (s.ret n l).part = s.part := State.with_call_part s _
@[simp] theorem State.ret_regs (s : State) (n : Nat) (l : List Word) : (s.ret n l).regs = s.regs := State.with_call_regs s _
@[simp] theorem State.ret_mem (s : State) (n : Nat) (l : List Word) : (s.ret n l).mem = s.mem := State.with_call_mem s _
@[simp] theorem State.ret_voids (s : State) (n : Nat) (l : List Word) : (s.ret n l).voids = s.voids := State.with_call_voids s _
@[simp] theorem State.ret_hostMem (s : State) (n : Nat) (l : List Word) : (s.ret n l).hostMem = s.hostMem := State.with_call_hostMem s _
@[simp] theorem State.ret_marks (s : State) (n : Nat) (l : List Word) : (s.ret n l).marks = s.marks := State.with_call_marks s _
@[simp] theorem State.ret_wide (s : State) (n : Nat) (l : List Word) : (s.ret n l).wide = s.wide := State.with_call_wide s _
@[simp] theorem State.ret_out (s : State) (n : Nat) (l : List Word) : (s.ret n l).out = s.out := State.with_call_out s _
@[simp] theorem State.ret_callCtx (s : State) (n : Nat) (l : List Word) : (s.ret n l).callCtx = s.callCtx := State.with_call_callCtx s _
@[simp] theorem State.ret_pendCalls (s : State) (n : Nat) (l : List Word) : (s.ret n l).pendCalls = s.pendCalls := State.with_call_pendCalls s _
@[simp] theorem State.ret_claims (s : State) (n : Nat) (l : List Word) : (s.ret n l).claims = s.claims := State.with_call_claims s _
@[simp] theorem State.ret_accErr (s : State) (n : Nat) (l : List Word) : (s.ret n l).accErr = s.accErr := State.with_call_accErr s _
@[simp] theorem State.ret_addrErr (s : State) (n : Nat) (l : List Word) : (s.ret n l).addrErr = s.addrErr := State.with_call_addrErr s _
@[simp] theorem State.ret_rates (s : State) (n : Nat) (l : List Word) : (s.ret n l).rates = s.rates := State.with_call_rates s _
@[simp] theorem State.ret_ucbs (s : State) (n : Nat) (l : List Word) : (s.ret n l).ucbs = s.ucbs := State.with_call_ucbs s _
@[simp] theorem State.ret_clients (s : State) (n : Nat) (l : List Word) : (s.ret n l).clients = s.clients := State.with_call_clients s _
@[simp] theorem State.ret_qcache (s : State) (n : Nat) (l : List Word) : (s.ret n l).qcache = s.qcache := State.with_call_qcache s _
@[simp] theorem State.ret_watches (s : State) (n : Nat) (l : List Word) : (s.ret n l).watches = s.watches := State.with_call_watches s _
@[simp] theorem State.ret_reservs (s : State) (n : Nat) (l : List Word) : (s.ret n l).reservs = s.reservs := State.with_call_reservs s _
@[simp] theorem State.ret_gangs (s : State) (n : Nat) (l : List Word) : (s.ret n l).gangs = s.gangs := State.with_call_gangs s _
@[simp] theorem State.ret_ctxs (s : State) (n : Nat) (l : List Word) : (s.ret n l).ctxs = s.ctxs := State.with_call_ctxs s _
@[simp] theorem State.ret_gauge (s : State) (n : Nat) (l : List Word) : (s.ret n l).gauge = s.gauge := State.with_call_gauge s _
@[simp] theorem State.ret_tlb (s : State) (n : Nat) (l : List Word) : (s.ret n l).tlb = s.tlb := State.with_call_tlb s _
@[simp] theorem State.ret_faults (s : State) (n : Nat) (l : List Word) : (s.ret n l).faults = s.faults := State.with_call_faults s _
@[simp] theorem State.ret_health (s : State) (n : Nat) (l : List Word) : (s.ret n l).health = s.health := State.with_call_health s _
@[simp] theorem State.ret_healthSeen (s : State) (n : Nat) (l : List Word) : (s.ret n l).healthSeen = s.healthSeen := State.with_call_healthSeen s _
@[simp] theorem State.ret_pfBusMaster (s : State) (n : Nat) (l : List Word) : (s.ret n l).pfBusMaster = s.pfBusMaster := State.with_call_pfBusMaster s _
@[simp] theorem State.ret_wdFifo (s : State) (n : Nat) (l : List Word) : (s.ret n l).wdFifo = s.wdFifo := State.with_call_wdFifo s _
@[simp] theorem State.ret_wdHard (s : State) (n : Nat) (l : List Word) : (s.ret n l).wdHard = s.wdHard := State.with_call_wdHard s _
@[simp] theorem State.ret_banks (s : State) (n : Nat) (l : List Word) : (s.ret n l).banks = s.banks := State.with_call_banks s _
@[simp] theorem State.ret_rows (s : State) (n : Nat) (l : List Word) : (s.ret n l).rows = s.rows := State.with_call_rows s _
@[simp] theorem State.ret_bankMap (s : State) (n : Nat) (l : List Word) : (s.ret n l).bankMap = s.bankMap := State.with_call_bankMap s _
@[simp] theorem State.ret_spareRows (s : State) (n : Nat) (l : List Word) : (s.ret n l).spareRows = s.spareRows := State.with_call_spareRows s _
@[simp] theorem State.ret_copies (s : State) (n : Nat) (l : List Word) : (s.ret n l).copies = s.copies := State.with_call_copies s _
@[simp] theorem State.ret_banksOut (s : State) (n : Nat) (l : List Word) : (s.ret n l).banksOut = s.banksOut := State.with_call_banksOut s _
@[simp] theorem State.ret_maintDue (s : State) (n : Nat) (l : List Word) : (s.ret n l).maintDue = s.maintDue := State.with_call_maintDue s _
@[simp] theorem State.ret_locks (s : State) (n : Nat) (l : List Word) : (s.ret n l).locks = s.locks := State.with_call_locks s _
@[simp] theorem State.ret_severed (s : State) (n : Nat) (l : List Word) : (s.ret n l).severed = s.severed := State.with_call_severed s _
@[simp] theorem State.ret_held (s : State) (n : Nat) (l : List Word) : (s.ret n l).held = s.held := State.with_call_held s _
@[simp] theorem State.ret_parcels (s : State) (n : Nat) (l : List Word) : (s.ret n l).parcels = s.parcels := State.with_call_parcels s _
@[simp] theorem State.ret_reply (s : State) (n : Nat) (l : List Word) : (s.ret n l).reply = s.reply := State.with_call_reply s _
@[simp] theorem State.ret_doneFifo (s : State) (n : Nat) (l : List Word) : (s.ret n l).doneFifo = s.doneFifo := State.with_call_doneFifo s _
@[simp] theorem State.ret_spareRelease (s : State) (n : Nat) (l : List Word) : (s.ret n l).spareRelease = s.spareRelease := State.with_call_spareRelease s _
@[simp] theorem State.ret_pwr (s : State) (n : Nat) (l : List Word) : (s.ret n l).pwr = s.pwr := State.with_call_pwr s _
@[simp] theorem State.ret_sbOn (s : State) (n : Nat) (l : List Word) : (s.ret n l).sbOn = s.sbOn := State.with_call_sbOn s _
@[simp] theorem State.ret_rtx (s : State) (n : Nat) (l : List Word) : (s.ret n l).rtx = s.rtx := State.with_call_rtx s _
@[simp] theorem State.ret_rtags (s : State) (n : Nat) (l : List Word) : (s.ret n l).rtags = s.rtags := State.with_call_rtags s _
@[simp] theorem State.ret_rchunks (s : State) (n : Nat) (l : List Word) : (s.ret n l).rchunks = s.rchunks := State.with_call_rchunks s _
@[simp] theorem State.ret_rgrants (s : State) (n : Nat) (l : List Word) : (s.ret n l).rgrants = s.rgrants := State.with_call_rgrants s _
@[simp] theorem State.ret_rwaits (s : State) (n : Nat) (l : List Word) : (s.ret n l).rwaits = s.rwaits := State.with_call_rwaits s _
@[simp] theorem State.ret_rbad (s : State) (n : Nat) (l : List Word) : (s.ret n l).rbad = s.rbad := State.with_call_rbad s _
@[simp] theorem State.ret_rstuck (s : State) (n : Nat) (l : List Word) : (s.ret n l).rstuck = s.rstuck := State.with_call_rstuck s _
@[simp] theorem State.ret_cmps (s : State) (n : Nat) (l : List Word) : (s.ret n l).cmps = s.cmps := State.with_call_cmps s _
@[simp] theorem State.ret_pulses (s : State) (n : Nat) (l : List Word) : (s.ret n l).pulses = s.pulses := State.with_call_pulses s _
@[simp] theorem State.ret_caps (s : State) (n : Nat) (l : List Word) : (s.ret n l).caps = s.caps := State.with_call_caps s _
@[simp] theorem State.ret_ptp (s : State) (n : Nat) (l : List Word) : (s.ret n l).ptp = s.ptp := State.with_call_ptp s _
@[simp] theorem State.ret_ethQ (s : State) (n : Nat) (l : List Word) : (s.ret n l).ethQ = s.ethQ := State.with_call_ethQ s _
@[simp] theorem State.ret_ethBusy (s : State) (n : Nat) (l : List Word) : (s.ret n l).ethBusy = s.ethBusy := State.with_call_ethBusy s _
@[simp] theorem State.ret_qbv (s : State) (n : Nat) (l : List Word) : (s.ret n l).qbv = s.qbv := State.with_call_qbv s _
@[simp] theorem State.ret_genRings (s : State) (n : Nat) (l : List Word) : (s.ret n l).genRings = s.genRings := State.with_call_genRings s _
@[simp] theorem State.ret_cans (s : State) (n : Nat) (l : List Word) : (s.ret n l).cans = s.cans := State.with_call_cans s _
@[simp] theorem State.ret_encs (s : State) (n : Nat) (l : List Word) : (s.ret n l).encs = s.encs := State.with_call_encs s _
@[simp] theorem State.ret_loops (s : State) (n : Nat) (l : List Word) : (s.ret n l).loops = s.loops := State.with_call_loops s _
@[simp] theorem State.ret_lcores (s : State) (n : Nat) (l : List Word) : (s.ret n l).lcores = s.lcores := State.with_call_lcores s _
@[simp] theorem State.ret_trigN (s : State) (n : Nat) (l : List Word) : (s.ret n l).trigN = s.trigN := State.with_call_trigN s _
@[simp] theorem State.ret_pwmShadow (s : State) (n : Nat) (l : List Word) : (s.ret n l).pwmShadow = s.pwmShadow := State.with_call_pwmShadow s _
@[simp] theorem State.ret_tbAt (s : State) (n : Nat) (l : List Word) : (s.ret n l).tbAt = s.tbAt := State.with_call_tbAt s _
@[simp] theorem State.ret_takingOver (s : State) (n : Nat) (l : List Word) : (s.ret n l).takingOver = s.takingOver := State.with_call_takingOver s _
@[simp] theorem State.ret_txWords (s : State) (n : Nat) (l : List Word) : (s.ret n l).txWords = s.txWords := State.with_call_txWords s _
@[simp] theorem State.ret_txFirst (s : State) (n : Nat) (l : List Word) : (s.ret n l).txFirst = s.txFirst := State.with_call_txFirst s _
@[simp] theorem State.ret_rxWords (s : State) (n : Nat) (l : List Word) : (s.ret n l).rxWords = s.rxWords := State.with_call_rxWords s _
@[simp] theorem State.ret_gateSet (s : State) (n : Nat) (l : List Word) : (s.ret n l).gateSet = s.gateSet := State.with_call_gateSet s _
@[simp] theorem State.ret_wd (s : State) (n : Nat) (l : List Word) : (s.ret n l).wd = s.wd := State.with_call_wd s _
@[simp] theorem State.ret_domOff (s : State) (n : Nat) (l : List Word) : (s.ret n l).domOff = s.domOff := State.with_call_domOff s _
@[simp] theorem State.ret_lawLast (s : State) (n : Nat) (l : List Word) : (s.ret n l).lawLast = s.lawLast := State.with_call_lawLast s _
@[simp] theorem State.ret_calSet (s : State) (n : Nat) (l : List Word) : (s.ret n l).calSet = s.calSet := State.with_call_calSet s _
@[simp] theorem State.ret_calOn (s : State) (n : Nat) (l : List Word) : (s.ret n l).calOn = s.calOn := State.with_call_calOn s _
@[simp] theorem State.ret_lastRun (s : State) (n : Nat) (l : List Word) : (s.ret n l).lastRun = s.lastRun := State.with_call_lastRun s _
@[simp] theorem State.ret_maintHold (s : State) (n : Nat) (l : List Word) : (s.ret n l).maintHold = s.maintHold := State.with_call_maintHold s _
@[simp] theorem State.ret_maintNs (s : State) (n : Nat) (l : List Word) : (s.ret n l).maintNs = s.maintNs := State.with_call_maintNs s _
@[simp] theorem State.ret_loads (s : State) (n : Nat) (l : List Word) : (s.ret n l).loads = s.loads := State.with_call_loads s _
@[simp] theorem State.ret_links (s : State) (n : Nat) (l : List Word) : (s.ret n l).links = s.links := State.with_call_links s _
@[simp] theorem State.ret_ring (s : State) (n : Nat) (l : List Word) : (s.ret n l).ring = s.ring := State.with_call_ring s _
@[simp] theorem State.ret_vats (s : State) (n : Nat) (l : List Word) : (s.ret n l).vats = s.vats := State.with_call_vats s _
@[simp] theorem State.ret_pps (s : State) (n : Nat) (l : List Word) : (s.ret n l).pps = s.pps := State.with_call_pps s _
@[simp] theorem State.ret_sensors (s : State) (n : Nat) (l : List Word) : (s.ret n l).sensors = s.sensors := State.with_call_sensors s _
@[simp] theorem State.ret_feeds (s : State) (n : Nat) (l : List Word) : (s.ret n l).feeds = s.feeds := State.with_call_feeds s _
@[simp] theorem State.ret_mpActive (s : State) (n : Nat) (l : List Word) : (s.ret n l).mpActive = s.mpActive := State.with_call_mpActive s _
@[simp] theorem State.ret_spPause (s : State) (n : Nat) (l : List Word) : (s.ret n l).spPause = s.spPause := State.with_call_spPause s _
@[simp] theorem State.ret_temps (s : State) (n : Nat) (l : List Word) : (s.ret n l).temps = s.temps := State.with_call_temps s _
@[simp] theorem State.ret_inject (s : State) (n : Nat) (l : List Word) : (s.ret n l).inject = s.inject := State.with_call_inject s _
@[simp] theorem State.ret_stores (s : State) (n : Nat) (l : List Word) : (s.ret n l).stores = s.stores := State.with_call_stores s _
@[simp] theorem State.ret_psumBad (s : State) (n : Nat) (l : List Word) : (s.ret n l).psumBad = s.psumBad := State.with_call_psumBad s _
@[simp] theorem State.ret_xlInval (s : State) (n : Nat) (l : List Word) : (s.ret n l).xlInval = s.xlInval := State.with_call_xlInval s _
@[simp] theorem State.ret_mbLast (s : State) (n : Nat) (l : List Word) : (s.ret n l).mbLast = s.mbLast := State.with_call_mbLast s _
@[simp] theorem State.ret_mbDiscard (s : State) (n : Nat) (l : List Word) : (s.ret n l).mbDiscard = s.mbDiscard := State.with_call_mbDiscard s _
@[simp] theorem State.ret_images (s : State) (n : Nat) (l : List Word) : (s.ret n l).images = s.images := State.with_call_images s _
@[simp] theorem State.ret_otpRevoke (s : State) (n : Nat) (l : List Word) : (s.ret n l).otpRevoke = s.otpRevoke := State.with_call_otpRevoke s _
@[simp] theorem State.ret_otpSvn (s : State) (n : Nat) (l : List Word) : (s.ret n l).otpSvn = s.otpSvn := State.with_call_otpSvn s _
@[simp] theorem State.ret_otpUcal (s : State) (n : Nat) (l : List Word) : (s.ret n l).otpUcal = s.otpUcal := State.with_call_otpUcal s _
@[simp] theorem State.ret_devLock (s : State) (n : Nat) (l : List Word) : (s.ret n l).devLock = s.devLock := State.with_call_devLock s _
@[simp] theorem State.ret_flash (s : State) (n : Nat) (l : List Word) : (s.ret n l).flash = s.flash := State.with_call_flash s _
@[simp] theorem State.ret_calBytes (s : State) (n : Nat) (l : List Word) : (s.ret n l).calBytes = s.calBytes := State.with_call_calBytes s _
@[simp] theorem State.ret_boot (s : State) (n : Nat) (l : List Word) : (s.ret n l).boot = s.boot := State.with_call_boot s _
@[simp] theorem State.ret_upd (s : State) (n : Nat) (l : List Word) : (s.ret n l).upd = s.upd := State.with_call_upd s _
@[simp] theorem State.ret_consent (s : State) (n : Nat) (l : List Word) : (s.ret n l).consent = s.consent := State.with_call_consent s _

/-! ### State.emit -/

@[simp] theorem State.emit_pending (s : State) (k : OutKind) (p : Nat) (l : List Nat) : (s.emit k p l).pending = s.pending := State.with_out_pending s _
@[simp] theorem State.emit_free (s : State) (k : OutKind) (p : Nat) (l : List Nat) : (s.emit k p l).free = s.free := State.with_out_free s _
@[simp] theorem State.emit_part (s : State) (k : OutKind) (p : Nat) (l : List Nat) : (s.emit k p l).part = s.part := State.with_out_part s _
@[simp] theorem State.emit_regs (s : State) (k : OutKind) (p : Nat) (l : List Nat) : (s.emit k p l).regs = s.regs := State.with_out_regs s _
@[simp] theorem State.emit_mem (s : State) (k : OutKind) (p : Nat) (l : List Nat) : (s.emit k p l).mem = s.mem := State.with_out_mem s _
@[simp] theorem State.emit_voids (s : State) (k : OutKind) (p : Nat) (l : List Nat) : (s.emit k p l).voids = s.voids := State.with_out_voids s _
@[simp] theorem State.emit_hostMem (s : State) (k : OutKind) (p : Nat) (l : List Nat) : (s.emit k p l).hostMem = s.hostMem := State.with_out_hostMem s _
@[simp] theorem State.emit_marks (s : State) (k : OutKind) (p : Nat) (l : List Nat) : (s.emit k p l).marks = s.marks := State.with_out_marks s _
@[simp] theorem State.emit_wide (s : State) (k : OutKind) (p : Nat) (l : List Nat) : (s.emit k p l).wide = s.wide := State.with_out_wide s _
@[simp] theorem State.emit_call (s : State) (k : OutKind) (p : Nat) (l : List Nat) : (s.emit k p l).call = s.call := State.with_out_call s _
@[simp] theorem State.emit_callCtx (s : State) (k : OutKind) (p : Nat) (l : List Nat) : (s.emit k p l).callCtx = s.callCtx := State.with_out_callCtx s _
@[simp] theorem State.emit_pendCalls (s : State) (k : OutKind) (p : Nat) (l : List Nat) : (s.emit k p l).pendCalls = s.pendCalls := State.with_out_pendCalls s _
@[simp] theorem State.emit_claims (s : State) (k : OutKind) (p : Nat) (l : List Nat) : (s.emit k p l).claims = s.claims := State.with_out_claims s _
@[simp] theorem State.emit_accErr (s : State) (k : OutKind) (p : Nat) (l : List Nat) : (s.emit k p l).accErr = s.accErr := State.with_out_accErr s _
@[simp] theorem State.emit_addrErr (s : State) (k : OutKind) (p : Nat) (l : List Nat) : (s.emit k p l).addrErr = s.addrErr := State.with_out_addrErr s _
@[simp] theorem State.emit_rates (s : State) (k : OutKind) (p : Nat) (l : List Nat) : (s.emit k p l).rates = s.rates := State.with_out_rates s _
@[simp] theorem State.emit_ucbs (s : State) (k : OutKind) (p : Nat) (l : List Nat) : (s.emit k p l).ucbs = s.ucbs := State.with_out_ucbs s _
@[simp] theorem State.emit_clients (s : State) (k : OutKind) (p : Nat) (l : List Nat) : (s.emit k p l).clients = s.clients := State.with_out_clients s _
@[simp] theorem State.emit_qcache (s : State) (k : OutKind) (p : Nat) (l : List Nat) : (s.emit k p l).qcache = s.qcache := State.with_out_qcache s _
@[simp] theorem State.emit_watches (s : State) (k : OutKind) (p : Nat) (l : List Nat) : (s.emit k p l).watches = s.watches := State.with_out_watches s _
@[simp] theorem State.emit_reservs (s : State) (k : OutKind) (p : Nat) (l : List Nat) : (s.emit k p l).reservs = s.reservs := State.with_out_reservs s _
@[simp] theorem State.emit_gangs (s : State) (k : OutKind) (p : Nat) (l : List Nat) : (s.emit k p l).gangs = s.gangs := State.with_out_gangs s _
@[simp] theorem State.emit_ctxs (s : State) (k : OutKind) (p : Nat) (l : List Nat) : (s.emit k p l).ctxs = s.ctxs := State.with_out_ctxs s _
@[simp] theorem State.emit_gauge (s : State) (k : OutKind) (p : Nat) (l : List Nat) : (s.emit k p l).gauge = s.gauge := State.with_out_gauge s _
@[simp] theorem State.emit_tlb (s : State) (k : OutKind) (p : Nat) (l : List Nat) : (s.emit k p l).tlb = s.tlb := State.with_out_tlb s _
@[simp] theorem State.emit_faults (s : State) (k : OutKind) (p : Nat) (l : List Nat) : (s.emit k p l).faults = s.faults := State.with_out_faults s _
@[simp] theorem State.emit_health (s : State) (k : OutKind) (p : Nat) (l : List Nat) : (s.emit k p l).health = s.health := State.with_out_health s _
@[simp] theorem State.emit_healthSeen (s : State) (k : OutKind) (p : Nat) (l : List Nat) : (s.emit k p l).healthSeen = s.healthSeen := State.with_out_healthSeen s _
@[simp] theorem State.emit_pfBusMaster (s : State) (k : OutKind) (p : Nat) (l : List Nat) : (s.emit k p l).pfBusMaster = s.pfBusMaster := State.with_out_pfBusMaster s _
@[simp] theorem State.emit_wdFifo (s : State) (k : OutKind) (p : Nat) (l : List Nat) : (s.emit k p l).wdFifo = s.wdFifo := State.with_out_wdFifo s _
@[simp] theorem State.emit_wdHard (s : State) (k : OutKind) (p : Nat) (l : List Nat) : (s.emit k p l).wdHard = s.wdHard := State.with_out_wdHard s _
@[simp] theorem State.emit_banks (s : State) (k : OutKind) (p : Nat) (l : List Nat) : (s.emit k p l).banks = s.banks := State.with_out_banks s _
@[simp] theorem State.emit_rows (s : State) (k : OutKind) (p : Nat) (l : List Nat) : (s.emit k p l).rows = s.rows := State.with_out_rows s _
@[simp] theorem State.emit_bankMap (s : State) (k : OutKind) (p : Nat) (l : List Nat) : (s.emit k p l).bankMap = s.bankMap := State.with_out_bankMap s _
@[simp] theorem State.emit_spareRows (s : State) (k : OutKind) (p : Nat) (l : List Nat) : (s.emit k p l).spareRows = s.spareRows := State.with_out_spareRows s _
@[simp] theorem State.emit_copies (s : State) (k : OutKind) (p : Nat) (l : List Nat) : (s.emit k p l).copies = s.copies := State.with_out_copies s _
@[simp] theorem State.emit_banksOut (s : State) (k : OutKind) (p : Nat) (l : List Nat) : (s.emit k p l).banksOut = s.banksOut := State.with_out_banksOut s _
@[simp] theorem State.emit_maintDue (s : State) (k : OutKind) (p : Nat) (l : List Nat) : (s.emit k p l).maintDue = s.maintDue := State.with_out_maintDue s _
@[simp] theorem State.emit_locks (s : State) (k : OutKind) (p : Nat) (l : List Nat) : (s.emit k p l).locks = s.locks := State.with_out_locks s _
@[simp] theorem State.emit_severed (s : State) (k : OutKind) (p : Nat) (l : List Nat) : (s.emit k p l).severed = s.severed := State.with_out_severed s _
@[simp] theorem State.emit_held (s : State) (k : OutKind) (p : Nat) (l : List Nat) : (s.emit k p l).held = s.held := State.with_out_held s _
@[simp] theorem State.emit_parcels (s : State) (k : OutKind) (p : Nat) (l : List Nat) : (s.emit k p l).parcels = s.parcels := State.with_out_parcels s _
@[simp] theorem State.emit_reply (s : State) (k : OutKind) (p : Nat) (l : List Nat) : (s.emit k p l).reply = s.reply := State.with_out_reply s _
@[simp] theorem State.emit_doneFifo (s : State) (k : OutKind) (p : Nat) (l : List Nat) : (s.emit k p l).doneFifo = s.doneFifo := State.with_out_doneFifo s _
@[simp] theorem State.emit_spareRelease (s : State) (k : OutKind) (p : Nat) (l : List Nat) : (s.emit k p l).spareRelease = s.spareRelease := State.with_out_spareRelease s _
@[simp] theorem State.emit_pwr (s : State) (k : OutKind) (p : Nat) (l : List Nat) : (s.emit k p l).pwr = s.pwr := State.with_out_pwr s _
@[simp] theorem State.emit_sbOn (s : State) (k : OutKind) (p : Nat) (l : List Nat) : (s.emit k p l).sbOn = s.sbOn := State.with_out_sbOn s _
@[simp] theorem State.emit_rtx (s : State) (k : OutKind) (p : Nat) (l : List Nat) : (s.emit k p l).rtx = s.rtx := State.with_out_rtx s _
@[simp] theorem State.emit_rtags (s : State) (k : OutKind) (p : Nat) (l : List Nat) : (s.emit k p l).rtags = s.rtags := State.with_out_rtags s _
@[simp] theorem State.emit_rchunks (s : State) (k : OutKind) (p : Nat) (l : List Nat) : (s.emit k p l).rchunks = s.rchunks := State.with_out_rchunks s _
@[simp] theorem State.emit_rgrants (s : State) (k : OutKind) (p : Nat) (l : List Nat) : (s.emit k p l).rgrants = s.rgrants := State.with_out_rgrants s _
@[simp] theorem State.emit_rwaits (s : State) (k : OutKind) (p : Nat) (l : List Nat) : (s.emit k p l).rwaits = s.rwaits := State.with_out_rwaits s _
@[simp] theorem State.emit_rbad (s : State) (k : OutKind) (p : Nat) (l : List Nat) : (s.emit k p l).rbad = s.rbad := State.with_out_rbad s _
@[simp] theorem State.emit_rstuck (s : State) (k : OutKind) (p : Nat) (l : List Nat) : (s.emit k p l).rstuck = s.rstuck := State.with_out_rstuck s _
@[simp] theorem State.emit_cmps (s : State) (k : OutKind) (p : Nat) (l : List Nat) : (s.emit k p l).cmps = s.cmps := State.with_out_cmps s _
@[simp] theorem State.emit_pulses (s : State) (k : OutKind) (p : Nat) (l : List Nat) : (s.emit k p l).pulses = s.pulses := State.with_out_pulses s _
@[simp] theorem State.emit_caps (s : State) (k : OutKind) (p : Nat) (l : List Nat) : (s.emit k p l).caps = s.caps := State.with_out_caps s _
@[simp] theorem State.emit_ptp (s : State) (k : OutKind) (p : Nat) (l : List Nat) : (s.emit k p l).ptp = s.ptp := State.with_out_ptp s _
@[simp] theorem State.emit_ethQ (s : State) (k : OutKind) (p : Nat) (l : List Nat) : (s.emit k p l).ethQ = s.ethQ := State.with_out_ethQ s _
@[simp] theorem State.emit_ethBusy (s : State) (k : OutKind) (p : Nat) (l : List Nat) : (s.emit k p l).ethBusy = s.ethBusy := State.with_out_ethBusy s _
@[simp] theorem State.emit_qbv (s : State) (k : OutKind) (p : Nat) (l : List Nat) : (s.emit k p l).qbv = s.qbv := State.with_out_qbv s _
@[simp] theorem State.emit_genRings (s : State) (k : OutKind) (p : Nat) (l : List Nat) : (s.emit k p l).genRings = s.genRings := State.with_out_genRings s _
@[simp] theorem State.emit_cans (s : State) (k : OutKind) (p : Nat) (l : List Nat) : (s.emit k p l).cans = s.cans := State.with_out_cans s _
@[simp] theorem State.emit_encs (s : State) (k : OutKind) (p : Nat) (l : List Nat) : (s.emit k p l).encs = s.encs := State.with_out_encs s _
@[simp] theorem State.emit_loops (s : State) (k : OutKind) (p : Nat) (l : List Nat) : (s.emit k p l).loops = s.loops := State.with_out_loops s _
@[simp] theorem State.emit_lcores (s : State) (k : OutKind) (p : Nat) (l : List Nat) : (s.emit k p l).lcores = s.lcores := State.with_out_lcores s _
@[simp] theorem State.emit_trigN (s : State) (k : OutKind) (p : Nat) (l : List Nat) : (s.emit k p l).trigN = s.trigN := State.with_out_trigN s _
@[simp] theorem State.emit_pwmShadow (s : State) (k : OutKind) (p : Nat) (l : List Nat) : (s.emit k p l).pwmShadow = s.pwmShadow := State.with_out_pwmShadow s _
@[simp] theorem State.emit_tbAt (s : State) (k : OutKind) (p : Nat) (l : List Nat) : (s.emit k p l).tbAt = s.tbAt := State.with_out_tbAt s _
@[simp] theorem State.emit_takingOver (s : State) (k : OutKind) (p : Nat) (l : List Nat) : (s.emit k p l).takingOver = s.takingOver := State.with_out_takingOver s _
@[simp] theorem State.emit_txWords (s : State) (k : OutKind) (p : Nat) (l : List Nat) : (s.emit k p l).txWords = s.txWords := State.with_out_txWords s _
@[simp] theorem State.emit_txFirst (s : State) (k : OutKind) (p : Nat) (l : List Nat) : (s.emit k p l).txFirst = s.txFirst := State.with_out_txFirst s _
@[simp] theorem State.emit_rxWords (s : State) (k : OutKind) (p : Nat) (l : List Nat) : (s.emit k p l).rxWords = s.rxWords := State.with_out_rxWords s _
@[simp] theorem State.emit_gateSet (s : State) (k : OutKind) (p : Nat) (l : List Nat) : (s.emit k p l).gateSet = s.gateSet := State.with_out_gateSet s _
@[simp] theorem State.emit_wd (s : State) (k : OutKind) (p : Nat) (l : List Nat) : (s.emit k p l).wd = s.wd := State.with_out_wd s _
@[simp] theorem State.emit_domOff (s : State) (k : OutKind) (p : Nat) (l : List Nat) : (s.emit k p l).domOff = s.domOff := State.with_out_domOff s _
@[simp] theorem State.emit_lawLast (s : State) (k : OutKind) (p : Nat) (l : List Nat) : (s.emit k p l).lawLast = s.lawLast := State.with_out_lawLast s _
@[simp] theorem State.emit_calSet (s : State) (k : OutKind) (p : Nat) (l : List Nat) : (s.emit k p l).calSet = s.calSet := State.with_out_calSet s _
@[simp] theorem State.emit_calOn (s : State) (k : OutKind) (p : Nat) (l : List Nat) : (s.emit k p l).calOn = s.calOn := State.with_out_calOn s _
@[simp] theorem State.emit_lastRun (s : State) (k : OutKind) (p : Nat) (l : List Nat) : (s.emit k p l).lastRun = s.lastRun := State.with_out_lastRun s _
@[simp] theorem State.emit_maintHold (s : State) (k : OutKind) (p : Nat) (l : List Nat) : (s.emit k p l).maintHold = s.maintHold := State.with_out_maintHold s _
@[simp] theorem State.emit_maintNs (s : State) (k : OutKind) (p : Nat) (l : List Nat) : (s.emit k p l).maintNs = s.maintNs := State.with_out_maintNs s _
@[simp] theorem State.emit_loads (s : State) (k : OutKind) (p : Nat) (l : List Nat) : (s.emit k p l).loads = s.loads := State.with_out_loads s _
@[simp] theorem State.emit_links (s : State) (k : OutKind) (p : Nat) (l : List Nat) : (s.emit k p l).links = s.links := State.with_out_links s _
@[simp] theorem State.emit_ring (s : State) (k : OutKind) (p : Nat) (l : List Nat) : (s.emit k p l).ring = s.ring := State.with_out_ring s _
@[simp] theorem State.emit_vats (s : State) (k : OutKind) (p : Nat) (l : List Nat) : (s.emit k p l).vats = s.vats := State.with_out_vats s _
@[simp] theorem State.emit_pps (s : State) (k : OutKind) (p : Nat) (l : List Nat) : (s.emit k p l).pps = s.pps := State.with_out_pps s _
@[simp] theorem State.emit_sensors (s : State) (k : OutKind) (p : Nat) (l : List Nat) : (s.emit k p l).sensors = s.sensors := State.with_out_sensors s _
@[simp] theorem State.emit_feeds (s : State) (k : OutKind) (p : Nat) (l : List Nat) : (s.emit k p l).feeds = s.feeds := State.with_out_feeds s _
@[simp] theorem State.emit_mpActive (s : State) (k : OutKind) (p : Nat) (l : List Nat) : (s.emit k p l).mpActive = s.mpActive := State.with_out_mpActive s _
@[simp] theorem State.emit_spPause (s : State) (k : OutKind) (p : Nat) (l : List Nat) : (s.emit k p l).spPause = s.spPause := State.with_out_spPause s _
@[simp] theorem State.emit_temps (s : State) (k : OutKind) (p : Nat) (l : List Nat) : (s.emit k p l).temps = s.temps := State.with_out_temps s _
@[simp] theorem State.emit_inject (s : State) (k : OutKind) (p : Nat) (l : List Nat) : (s.emit k p l).inject = s.inject := State.with_out_inject s _
@[simp] theorem State.emit_stores (s : State) (k : OutKind) (p : Nat) (l : List Nat) : (s.emit k p l).stores = s.stores := State.with_out_stores s _
@[simp] theorem State.emit_psumBad (s : State) (k : OutKind) (p : Nat) (l : List Nat) : (s.emit k p l).psumBad = s.psumBad := State.with_out_psumBad s _
@[simp] theorem State.emit_xlInval (s : State) (k : OutKind) (p : Nat) (l : List Nat) : (s.emit k p l).xlInval = s.xlInval := State.with_out_xlInval s _
@[simp] theorem State.emit_mbLast (s : State) (k : OutKind) (p : Nat) (l : List Nat) : (s.emit k p l).mbLast = s.mbLast := State.with_out_mbLast s _
@[simp] theorem State.emit_mbDiscard (s : State) (k : OutKind) (p : Nat) (l : List Nat) : (s.emit k p l).mbDiscard = s.mbDiscard := State.with_out_mbDiscard s _
@[simp] theorem State.emit_images (s : State) (k : OutKind) (p : Nat) (l : List Nat) : (s.emit k p l).images = s.images := State.with_out_images s _
@[simp] theorem State.emit_otpRevoke (s : State) (k : OutKind) (p : Nat) (l : List Nat) : (s.emit k p l).otpRevoke = s.otpRevoke := State.with_out_otpRevoke s _
@[simp] theorem State.emit_otpSvn (s : State) (k : OutKind) (p : Nat) (l : List Nat) : (s.emit k p l).otpSvn = s.otpSvn := State.with_out_otpSvn s _
@[simp] theorem State.emit_otpUcal (s : State) (k : OutKind) (p : Nat) (l : List Nat) : (s.emit k p l).otpUcal = s.otpUcal := State.with_out_otpUcal s _
@[simp] theorem State.emit_devLock (s : State) (k : OutKind) (p : Nat) (l : List Nat) : (s.emit k p l).devLock = s.devLock := State.with_out_devLock s _
@[simp] theorem State.emit_flash (s : State) (k : OutKind) (p : Nat) (l : List Nat) : (s.emit k p l).flash = s.flash := State.with_out_flash s _
@[simp] theorem State.emit_calBytes (s : State) (k : OutKind) (p : Nat) (l : List Nat) : (s.emit k p l).calBytes = s.calBytes := State.with_out_calBytes s _
@[simp] theorem State.emit_boot (s : State) (k : OutKind) (p : Nat) (l : List Nat) : (s.emit k p l).boot = s.boot := State.with_out_boot s _
@[simp] theorem State.emit_upd (s : State) (k : OutKind) (p : Nat) (l : List Nat) : (s.emit k p l).upd = s.upd := State.with_out_upd s _
@[simp] theorem State.emit_consent (s : State) (k : OutKind) (p : Nat) (l : List Nat) : (s.emit k p l).consent = s.consent := State.with_out_consent s _

end Sys2Proof.Machine
end

