-- ==== Sys2Proof/WellFormed.lean ====
section
/-! DEFINITION. Well-formed commands: every operand lies in the range that the spec gives its field. -/
namespace Sys2Proof
open Sys2Proof.Machine

/-- An initiator ID that R213 assigns. -/
def iniOk (ini : Nat) : Bool :=
  ini < 6 || (8 ≤ ini && ini < 14) || (0x10 ≤ ini && ini < 0x12) || (0x18 ≤ ini && ini < 0x1B) ||
    (0x20 ≤ ini && ini < 0x32) || (0x38 ≤ ini && ini < 0x42) || (0x48 ≤ ini && ini < 0x4C) ||
    ini = 0x50 || ini = 0x51 || (0x100 ≤ ini && ini ≤ 0x120) || ini = 0x180 || ini = 0x181 || ini = 0x1C0

/-- A unit number that R43 assigns. -/
def unitOk (u : Nat) : Bool := (unitClass u).isSome

/-- A context that the part has (R95, R173, R380). -/
def ctxOk : Ctx → Bool
  | .general c => c < 6
  | .realTime c => c < 6
  | .gang g => g < 3
  | .toe e => e < 2
  | .mill lc => lc < 3

/-- SEQs of flits, each with a CLASS or 4 (R295, R296). -/
def cameOk (l : List (Nat × Nat)) : Bool := l.all fun e => e.1 < 2 ^ 12 && e.2 ≤ 4

/-- The fields of a slot and of its flit's link word (R295, R297). -/
def AxHead.wf (h : AxHead) : Bool :=
  h.port < 4 && h.cls < 4 && h.seq < 2 ^ 12 && h.ack < 2 ^ 12 && cameOk h.came && h.dst < 8 && h.src < 8 && h.stream < 2 ^ 10 &&
    h.tag < 2 ^ 12 && h.passed.all (· < 2 ^ 12)

/-- A command's operands are in range. -/
def Instr.wf : Instr → Bool
  | .registerWrite ini addr width value => iniOk ini && addr < 2 ^ 48 + 0x400 && 1 ≤ width && width ≤ 64 && value < 256 ^ width
  | .deviceInformation ini args => iniOk ini && args.length ≤ 16
  | .claimUnit ini args => iniOk ini && args.length ≤ 16
  | .releaseUnit ini args => iniOk ini && args.length ≤ 16
  | .rateWindowEnd mon count _ => mon < 8 && count < 2 ^ 16
  | .ucbRequestDrain ini u => iniOk ini && unitOk u
  | .ucbRequestTest ini u => iniOk ini && unitOk u
  | .ucbRequestReadmit ini u => iniOk ini && unitOk u
  | .unitDrained u => unitOk u
  | .selfTestDone u _ => unitOk u
  | .readUnitControlBlock ini args => iniOk ini && args.length ≤ 16
  | .requestUnitState ini args => iniOk ini && args.length ≤ 16
  | .listUnits ini args => iniOk ini && args.length ≤ 16
  | .readRateMonitors ini args => iniOk ini && args.length ≤ 16
  | .readNumericIdentity ini args => iniOk ini && args.length ≤ 16
  | .windowBounds ini args => iniOk ini && args.length ≤ 16
  | .writeRescaleTable ini args => iniOk ini && args.length ≤ 16
  | .readStatistics ini args => iniOk ini && args.length ≤ 16
  | .setScaleGuard ini args => iniOk ini && args.length ≤ 16
  | .readNumericTotals ini args => iniOk ini && args.length ≤ 16
  | .clCfgSpareWrite ini c value => iniOk ini && c < 6 && value < 2 ^ 32
  | .readClusterStatus ini args => iniOk ini && args.length ≤ 16
  | .formGang ini args => iniOk ini && args.length ≤ 16
  | .gangFormed g => g < 3
  | .dissolveGang ini args => iniOk ini && args.length ≤ 16
  | .gangDissolved g => g < 3
  | .setSpareEnable ini args => iniOk ini && args.length ≤ 16
  | .readTileCounters ini args => iniOk ini && args.length ≤ 16
  | .readStepTable ini args => iniOk ini && args.length ≤ 16
  | .teFeedWrite ini e value => iniOk ini && e < 2 && value < 2 ^ 32
  | .readToeEngineStatus ini args => iniOk ini && args.length ≤ 16
  | .bindToeFeed ini args => iniOk ini && args.length ≤ 16
  | .readToeCounters ini args => iniOk ini && args.length ≤ 16
  | .buildPaddingTapTable ini args => iniOk ini && args.length ≤ 16
  | .winogradWindowBounds ini args => iniOk ini && args.length ≤ 16
  | .veCfgWrite ini v value => iniOk ini && v < 6 && value < 2 ^ 32
  | .readTableSet ini args => iniOk ini && args.length ≤ 16
  | .evaluateSpecialFunction ini args => iniOk ini && args.length ≤ 65
  | .readVectorEngineCounters ini args => iniOk ini && args.length ≤ 16
  | .setArrivalOrder ini args => iniOk ini && args.length ≤ 16
  | .doorbell ini q => iniOk ini && q < 2 ^ 20
  | .entryRead q => q < 2 ^ 20
  | .startConditionMet q => q < 2 ^ 20
  | .commandDispatch x => ctxOk x
  | .instructionComplete x unit _ _ _ _ => ctxOk x && unit < 16
  | .commandEpilogue x _ => ctxOk x
  | .eventRouteSignal c => c < 2 ^ 12
  | .budgetExpiry x => ctxOk x
  | .nop x => ctxOk x
  | .tdaddr x => ctxOk x
  | .tdfmt x => ctxOk x
  | .tdstride x => ctxOk x
  | .tdscale x => ctxOk x
  | .tddim x => ctxOk x
  | .tdmemb x => ctxOk x
  | .winset x => ctxOk x
  | .cpset x => ctxOk x
  | .sset x => ctxOk x
  | .fence x => ctxOk x
  | .only x => ctxOk x
  | .rmset x => ctxOk x
  | .move x => ctxOk x
  | .move2d x => ctxOk x
  | .fill x => ctxOk x
  | .scaletag x => ctxOk x
  | .pages x => ctxOk x
  | .matmul x => ctxOk x
  | .conv x => ctxOk x
  | .psadd x => ctxOk x
  | .elem x => ctxOk x
  | .special x => ctxOk x
  | .reduce x => ctxOk x
  | .lnorm x => ctxOk x
  | .rmsnorm x => ctxOk x
  | .softmax x => ctxOk x
  | .mxquant x => ctxOk x
  | .sgd x => ctxOk x
  | .adam x => ctxOk x
  | .blksoftmax x => ctxOk x
  | .xreduce x => ctxOk x
  | .dwconv x => ctxOk x
  | .pool x => ctxOk x
  | .blkmerge x => ctxOk x
  | .merge x => ctxOk x
  | .final x => ctxOk x
  | .tconv x => ctxOk x
  | .mwaitge x => ctxOk x
  | .mwaiteq x => ctxOk x
  | .markWaitSatisfied x unit => ctxOk x && unit < 32
  | .msignal x => ctxOk x
  | .madd x => ctxOk x
  | .msignalr x => ctxOk x
  | .maddr x => ctxOk x
  | .brkset x => ctxOk x
  | .lopen x => ctxOk x
  | .lockPassageOpen x => ctxOk x
  | .lclose x => ctxOk x
  | .remit x => ctxOk x
  | .validateCommandBlock ini args => iniOk ini && args.length ≤ 16
  | .readPecCapabilities ini args => iniOk ini && args.length ≤ 16
  | .min lc => lc < 3
  | .mout lc => lc < 3
  | .fmak lc => lc < 3
  | .fma lc => lc < 3
  | .add lc => lc < 3
  | .sub lc => lc < 3
  | .mul lc => lc < 3
  | .clamp lc => lc < 3
  | .biq lc => lc < 3
  | .sstep lc => lc < 3
  | .pid lc => lc < 3
  | .obs lc => lc < 3
  | .strec lc => lc < 3
  | .polderAccess ini port addr len write data _ => iniOk ini && port < 32 && addr < 2 ^ 28 && len ≤ 64 && (!write || data.length = len)
  | .breakPoint b reqs => b < 512 && (reqs.all fun r => r.1 < 32 && r.2 < 1024)
  | .gatherIdleFlush b row => b < 512 && row < 8192
  | .sluiceWatchdogBite b => b < 512
  | .creditWaitEnd x unit _ => ctxOk x && unit < 32
  | .scrubRow b row outcome => b < 512 && row < 8192 && outcome ≤ 4
  | .bankCopyDone b => b < 512
  | .maintWaitLimit g => g < 12
  | .bgIdleRetention g => g < 12
  | .bgLateWake g => g < 12
  | .pclLocWrite ini p value => iniOk ini && p < 1024 && value < 2 ^ 32
  | .pclOwnerWrite ini p value => iniOk ini && p < 1024 && value < 2 ^ 32
  | .pclCreditWrite ini p value => iniOk ini && p < 1024 && value < 2 ^ 32
  | .pclRightWrite ini p idx value => iniOk ini && p < 1024 && idx < 4 && value < 2 ^ 32
  | .createParcel ini args => iniOk ini && args.length ≤ 16
  | .parcelZeroed p => p < 1024
  | .deleteParcel ini args => iniOk ini && args.length ≤ 16
  | .parcelDeletionMade p => p < 1024
  | .readParcel ini args => iniOk ini && args.length ≤ 16
  | .setParcelRights ini args => iniOk ini && args.length ≤ 16
  | .readCredits ini args => iniOk ini && args.length ≤ 16
  | .setWaitLimits ini args => iniOk ini && args.length ≤ 16
  | .setSluiceWatchdog ini args => iniOk ini && args.length ≤ 16
  | .readBankGroup ini args => iniOk ini && args.length ≤ 16
  | .spareABank ini args => iniOk ini && args.length ≤ 16
  | .setHazardDetector ini args => iniOk ini && args.length ≤ 16
  | .locateAddress ini args => iniOk ini && args.length ≤ 16
  | .qinval ini q => iniOk ini && q < 2 ^ 20
  | .qinvalAll ini => iniOk ini
  | .clientWordWrite ini k value => iniOk ini && k < 16 && value < 2 ^ 32
  | .markWindowWrite ini m value => iniOk ini && m < 2 ^ 16 && value < 2 ^ 32
  | .markAddWrite ini value => iniOk ini && value < 2 ^ 32
  | .reservationEffective q => q < 2 ^ 20
  | .xlateTimeoutExpiry x => ctxOk x
  | .createClient ini args => iniOk ini && args.length ≤ 16
  | .setShare ini args => iniOk ini && args.length ≤ 16
  | .readClientAccounting ini args => iniOk ini && args.length ≤ 16
  | .createOrChangeQueue ini args => iniOk ini && args.length ≤ 16
  | .deleteQueue ini args => iniOk ini && args.length ≤ 16
  | .enableHaltOrResumeQueue ini args => iniOk ini && args.length ≤ 16
  | .reserve ini args => iniOk ini && args.length ≤ 16
  | .releaseReservation ini args => iniOk ini && args.length ≤ 16
  | .resolveTranslationStall ini args => iniOk ini && args.length ≤ 16
  | .watchMark ini args => iniOk ini && args.length ≤ 16
  | .signalOrAddMark ini args => iniOk ini && args.length ≤ 16
  | .readQueue ini args => iniOk ini && args.length ≤ 16
  | .sameBitsWrite ini value => iniOk ini && value < 2 ^ 32
  | .setSameBitsMode ini args => iniOk ini && args.length ≤ 16
  | .readFingerprint ini args => iniOk ini && args.length ≤ 16
  | .verifyRind ini args => iniOk ini && args.length ≤ 26
  | .loadWeights ini args => iniOk ini && args.length ≤ 16
  | .weightsFoldDone p => p < 1024
  | .readWeightsDigest ini args => iniOk ini && args.length ≤ 16
  | .clearWeightsDigest ini args => iniOk ini && args.length ≤ 16
  | .readSameBitsCounters ini args => iniOk ini && args.length ≤ 16
  | .readQueueWeightsDigest ini args => iniOk ini && args.length ≤ 16
  | .axWrite h addr len data _ => h.wf && addr < 2 ^ 28 && 4 ≤ len && len ≤ 4096 && data.length = len
  | .axMsignal h mark value _ => h.wf && mark < 2 ^ 16 && value < 2 ^ 32
  | .axMadd h mark value _ => h.wf && mark < 2 ^ 16 && value < 2 ^ 32
  | .axCreditReq h addr kib _ => h.wf && addr < 2 ^ 28 && kib < 2 ^ 7
  | .axCreditGrant h addr kib => h.wf && addr < 2 ^ 28 && kib < 2 ^ 7
  | .axCreditReturn h addr kib _ => h.wf && addr < 2 ^ 28 && kib < 2 ^ 7
  | .axAck h tagDone => h.wf && tagDone < 2 ^ 12
  | .axNack h tagBad cause => h.wf && tagBad < 2 ^ 12 && cause < 16
  | .axCtlFlit port ack bufs nak lanes width ringId npos pos _ _ fp seen =>
    port < 4 && ack < 2 ^ 12 && (bufs.length = 4 && bufs.all (· < 2 ^ 16)) && (nak.all fun k => decide (k < 2 ^ 12)) && lanes < 2 ^ 8 &&
      width < 2 ^ 4 && ringId < 2 ^ 16 && npos < 2 ^ 4 && pos < 8 && fp < 2 ^ 64 && (seen.length = 8 && seen.all (· < 2 ^ 64))
  | .axFlitCrcError port lanes _ came => port < 4 && lanes < 2 ^ 8 && cameOk came
  | .retrainDone port good _ => port < 4 && good < 2 ^ 8
  | .hopDown port hop cause => port ≤ 4 && hop < 8 && cause < 8
  | .rerouteDone => true
  | .axIdleEntry port => port < 4
  | .wakePatternDetect port => port < 4
  | .linkAckTimeout pos stream tag => pos < 8 && stream < 2 ^ 10 && tag < 2 ^ 12
  | .ringFormed bonds => bonds < 4
  | .formRing ini args => iniOk ini && args.length ≤ 16
  | .dissolveRing ini args => iniOk ini && args.length ≤ 16
  | .ringDissolved => true
  | .readRing ini args => iniOk ini && args.length ≤ 16
  | .readPort ini args => iniOk ini && args.length ≤ 16
  | .configurePort ini args => iniOk ini && args.length ≤ 16
  | .sendWake ini args => iniOk ini && args.length ≤ 16
  | .setRingLimits ini args => iniOk ini && args.length ≤ 16
  | .remoteMarkOperation ini args => iniOk ini && args.length ≤ 16
  | .liveEnableWrite ini v value => iniOk ini && v < 2 && value < 2 ^ 32
  | .liveFrameTake v => v < 2
  | .liveFrameDone v _ => v < 2
  | .jobCtlStart ini v => iniOk ini && v < 2
  | .jobCtlStop ini v => iniOk ini && v < 2
  | .jobCtlResume ini v => iniOk ini && v < 2
  | .jobCtlAbort ini v => iniOk ini && v < 2
  | .sampleDecodeDone v _ _ => v < 2
  | .decodeDeferTimeout v => v < 2
  | .decodeHardLimit v _ => v < 2
  | .batchDone v => v < 2
  | .hostDecodeDone v _ _ _ _ => v < 2
  | .vatFetchTimeoutExpiry v => v < 2
  | .readVatStatus ini args => iniOk ini && args.length ≤ 16
  | .setLiveStream ini args => iniOk ini && args.length ≤ 16
  | .startBatchJob ini args => iniOk ini && args.length ≤ 16
  | .stopOrAbortJob ini args => iniOk ini && args.length ≤ 16
  | .resolveJobStall ini args => iniOk ini && args.length ≤ 16
  | .configureCellar ini args => iniOk ini && args.length ≤ 16
  | .invalidateCellar ini args => iniOk ini && args.length ≤ 16
  | .setSlowDecodeLimits ini args => iniOk ini && args.length ≤ 16
  | .setSharedDecode ini args => iniOk ini && args.length ≤ 16
  | .referenceDecode ini args => iniOk ini && args.length ≤ 16
  | .readVatCounters ini args => iniOk ini && args.length ≤ 16
  | .csi2FrameStart link vc hdr => link < 8 && vc < 16 && hdr < 3
  | .csi2Line link vc dt _ crc _ _ _ => link < 8 && vc < 16 && dt < 64 && crc < 2 ^ 16
  | .csi2EmbeddedLine link vc _ crc _ => link < 8 && vc < 16 && crc < 2 ^ 16
  | .csi2FrameEnd link vc hdr _ _ => link < 8 && vc < 16 && hdr < 3
  | .frameLateExpiry p => p < 16
  | .cameraMove p => p < 16
  | .clStreamWrite ini l idx value => iniOk ini && l < 8 && idx < 4 && value < 2 ^ 32
  | .ppCtlLoad ini p => iniOk ini && p < 16
  | .ppCtlStart ini p => iniOk ini && p < 16
  | .ppCtlStop ini p => iniOk ini && p < 16
  | .ppCtlStopNow ini p => iniOk ini && p < 16
  | .ppPsetGo ini p value => iniOk ini && p < 16 && value < 2 ^ 32
  | .readLink ini args => iniOk ini && args.length ≤ 16
  | .configureLink ini args => iniOk ini && args.length ≤ 16
  | .loadDescriptor ini args => iniOk ini && args.length ≤ 16
  | .startOrStopPipeline ini args => iniOk ini && args.length ≤ 16
  | .pushParameterSet ini args => iniOk ini && args.length ≤ 16
  | .setFlickerThreshold ini args => iniOk ini && args.length ≤ 16
  | .setSpare ini args => iniOk ini && args.length ≤ 16
  | .moveCamera ini args => iniOk ini && args.length ≤ 16
  | .readPipeline ini args => iniOk ini && args.length ≤ 16
  | .millSegment lc => lc < 3
  | .millSegmentOverrun lc => lc < 3
  | .millCoreFault core _ => core < 4
  | .lawCtlGo ini l _ => iniOk ini && l < 96
  | .loopCtlEnable ini l => iniOk ini && l < 96
  | .loopCtlDisable ini l => iniOk ini && l < 96
  | .loopCtlFallback ini l => iniOk ini && l < 96
  | .loopCtlReturn ini l => iniOk ini && l < 96
  | .coefWr ini value => iniOk ini && value < 2 ^ 32
  | .encoderEdge idx _ _ => idx < 32
  | .encoderIndex idx => idx < 32
  | .serialReadDone idx _ _ _ => idx < 32
  | .pwmPeriodStart tb => tb < 8
  | .axisFrameReceive p src group kind words => p < 4 && src < 2 ^ 48 && group < 2 ^ 16 && kind < 2 ^ 8 && 1 ≤ words.length && words.length ≤ 64
  | .axisFrameStale f => f < 16
  | .axisFramePartialSend f => f < 16
  | .qbvGateEntryEnd p => p < 4
  | .qbvSwap ini p value => iniOk ini && p < 4 && value < 2 ^ 32
  | .readMillStatus ini args => iniOk ini && args.length ≤ 16
  | .configureLoop ini args => iniOk ini && args.length ≤ 16
  | .loadLaw ini args => iniOk ini && args.length ≤ 16
  | .enableOrDisableLoop ini args => iniOk ini && args.length ≤ 16
  | .writeCoefficients ini args => iniOk ini && args.length ≤ 514
  | .readCoefficients ini args => iniOk ini && args.length ≤ 16
  | .readLoop ini args => iniOk ini && args.length ≤ 16
  | .configureEncoder ini args => iniOk ini && args.length ≤ 16
  | .configurePwm ini args => iniOk ini && args.length ≤ 16
  | .clearLoopFlags ini args => iniOk ini && args.length ≤ 16
  | .fallbackOrReturn ini args => iniOk ini && args.length ≤ 16
  | .configureAxisFrame ini args => iniOk ini && args.length ≤ 16
  | .bindTrigger ini args => iniOk ini && args.length ≤ 16
  | .decisionPass => true
  | .gateSetCheck => true
  | .setDeadlineExpiry => true
  | .digestCompare e => e < 16
  | .digestPeriodExpiry e => e < 16
  | .starterCheck idx => idx < 8
  | .hbWordWrite value => value < 2 ^ 32
  | .hbTimeoutExpiry => true
  | .pairFailure pair => pair < 2
  | .wardenWatchdogBite => true
  | .pinFeedbackTimeout pin => pin < 2
  | .taskDeadlineExpiry t => t < 16
  | .sliceStart u => unitOk u
  | .sliceDone u _ => unitOk u
  | .debtWindowEnd => true
  | .wdCmdArm ini => iniOk ini
  | .wdCmdForceSafe ini => iniOk ini
  | .wdCmdRelease ini => iniOk ini
  | .wdCmdEnterTest ini => iniOk ini
  | .wdCmdLeaveTest ini => iniOk ini
  | .supCmdWrite value => value < 2 ^ 32
  | .fwLockWrite ini value => iniOk ini && value < 2 ^ 32
  | .readWardenStatus ini args => iniOk ini && args.length ≤ 16
  | .arm ini args => iniOk ini && args.length ≤ 16
  | .forceSafe ini args => iniOk ini && args.length ≤ 16
  | .releaseSafeState ini args => iniOk ini && args.length ≤ 16
  | .enterOrLeaveTest ini args => iniOk ini && args.length ≤ 16
  | .setCheck ini args => iniOk ini && args.length ≤ 16
  | .configureGate ini args => iniOk ini && args.length ≤ 16
  | .writeEnvelopes ini args => iniOk ini && args.length ≤ 1026
  | .configureCompareEntry ini args => iniOk ini && args.length ≤ 16
  | .configureStarter ini args => iniOk ini && args.length ≤ 18
  | .configureSelfTest ini args => iniOk ini && args.length ≤ 81
  | .openSupervisedTask ini args => iniOk ini && args.length ≤ 16
  | .closeSupervisedTask ini args => iniOk ini && args.length ≤ 16
  | .writeFirewall ini args => iniOk ini && args.length ≤ 16
  | .readWardenCounters ini args => iniOk ini && args.length ≤ 16
  | .pinTest ini args => iniOk ini && args.length ≤ 16
  | .comparatorFire n => n < 16
  | .slewStep => true
  | .incrWrite ini value => iniOk ini && value < 2 ^ 32
  | .adjCtlSlew ini _ => iniOk ini
  | .adjCtlStep ini _ => iniOk ini
  | .adjCtlCancelSlew ini => iniOk ini
  | .setCtlGo ini _ => iniOk ini
  | .cmpTargetCommit ini n value => iniOk ini && n < 16 && value < 2 ^ 32
  | .gaugeClaimClaim ini kind idx n => iniOk ini && kind < 4 && idx < 8 && n < 16
  | .gaugeClaimRelease ini kind idx n => iniOk ini && kind < 4 && idx < 8 && n < 16
  | .refclkLoss => true
  | .refclkRestore => true
  | .ethFrameReceive p data _ stack master offset delay => p < 4 && data.length ≤ 2048 && stack ≤ 2 && master < 2 ^ 64 && offset < 2 ^ 32 && delay < 2 ^ 32
  | .announceTimeout => true
  | .pulseEnd n => n < 8
  | .captureEdge ball _ => ball < 64
  | .capNsRead ini n => iniOk ini && n < 8
  | .canFrameReceive c _ _ _ _ _ id dlc _ data => c < 4 && id < 2 ^ 29 && dlc < 16 && data.length ≤ 16
  | .canObjReq ini c o value => iniOk ini && c < 4 && o < 512 && value < 2 ^ 32
  | .canTxDone c _ => c < 4
  | .canBusError c err tec rec _ => c < 4 && err < 7 && tec < 512 && rec < 256
  | .canTxLateExpiry c o => c < 4 && o < 512
  | .cnCmdRecover ini c => iniOk ini && c < 4
  | .canRecoveryDone c => c < 4
  | .cnCmdAbort ini c o => iniOk ini && c < 4 && o < 512
  | .readTime ini args => iniOk ini && args.length ≤ 16
  | .adjustTime ini args => iniOk ini && args.length ≤ 16
  | .setIncrement ini args => iniOk ini && args.length ≤ 16
  | .claimOrReleaseComparator ini args => iniOk ini && args.length ≤ 16
  | .configureComparator ini args => iniOk ini && args.length ≤ 16
  | .configurePulseOrCapture ini args => iniOk ini && args.length ≤ 16
  | .configureTimeProtocol ini args => iniOk ini && args.length ≤ 16
  | .readTimeProtocol ini args => iniOk ini && args.length ≤ 16
  | .readCanObject ini args => iniOk ini && args.length ≤ 16
  | .configureGeneralRings ini args => iniOk ini && args.length ≤ 16
  | .configureCanController ini args => iniOk ini && args.length ≤ 16
  | .writeCanObject ini args => iniOk ini && args.length ≤ 23
  | .recoverCanController ini args => iniOk ini && args.length ≤ 16
  | .pcieRequest kind fn bar off _ data => kind < 4 && fn < 33 && bar < 6 && off < 2 ^ 64 && data.length ≤ 512
  | .functionLevelReset n => n < 33
  | .pcieLinkDown => true
  | .pcieLinkUp speed width => 1 ≤ speed && speed ≤ 5 && width ≤ 16
  | .msixEntryWrite ini n idx k value => iniOk ini && n < 33 && idx < 2048 && k < 4 && value < 2 ^ 32
  | .vfDoorbell n value => 1 ≤ n && n ≤ 32 && value < 2 ^ 32
  | .translationWalkDone client _ input _ => client < 2 ^ 12 && input < 2 ^ 40
  | .xlInvalGo ini value => iniOk ini && value < 2 ^ 32
  | .xlInvalidationDone => true
  | .sdioCommand _ fn off n _ data => fn < 3 && off < 2 ^ 17 && n ≤ 65536 && data.length ≤ 65536
  | .sdioFunctionReset fn => fn < 3
  | .mbCallGo ini ch value => iniOk ini && ch < 36 && value < 2 ^ 32
  | .mbCallServe => true
  | .callDone => true
  | .mbDoneRead ini ch => iniOk ini && ch < 36
  | .mbStatusRead ini ch => iniOk ini && ch < 36
  | .readPcieStatus ini args => iniOk ini && args.length ≤ 16
  | .setVfVectors ini args => iniOk ini && args.length ≤ 16
  | .setTranslationContext ini args => iniOk ini && args.length ≤ 16
  | .invalidateTranslations ini args => iniOk ini && args.length ≤ 16
  | .readTranslationFault ini args => iniOk ini && args.length ≤ 16
  | .translate ini args => iniOk ini && args.length ≤ 16
  | .readSdioStatus ini args => iniOk ini && args.length ≤ 16
  | .setLpddr4xWindow ini args => iniOk ini && args.length ≤ 16
  | .gpioSetWrite ini value => iniOk ini && value < 2 ^ 32
  | .gpioClrWrite ini value => iniOk ini && value < 2 ^ 32
  | .setGpio ini args => iniOk ini && args.length ≤ 16
  | .readGpio ini args => iniOk ini && args.length ≤ 16
  | .setGpioOwner ini args => iniOk ini && args.length ≤ 16
  | .pwrCmdRun ini => iniOk ini
  | .pwrCmdTrim ini => iniOk ini
  | .pwrCmdDoze ini => iniOk ini
  | .pwrCmdSleep ini => iniOk ini
  | .powerAnswer u _ => unitOk u
  | .powerAnswerTimeout u => unitOk u
  | .powerEntryDone => true
  | .wake src u => 1 ≤ src && src ≤ 8 && unitOk u
  | .powerExitDone => true
  | .trimIdleExpiry u => unitOk u
  | .domainPowerUpDone => true
  | .vcoreSetWrite ini value => iniOk ini && value < 2 ^ 32
  | .capWWrite ini value => iniOk ini && value < 2 ^ 32
  | .setpointStepDone _ => true
  | .powerWindowEnd _ => true
  | .readPowerStatus ini args => iniOk ini && args.length ≤ 16
  | .requestState ini args => iniOk ini && args.length ≤ 16
  | .setVddCoreSetPoint ini args => iniOk ini && args.length ≤ 16
  | .setPowerCap ini args => iniOk ini && args.length ≤ 16
  | .setWakeSources ini args => iniOk ini && args.length ≤ 16
  | .setTrimIdle ini args => iniOk ini && args.length ≤ 16
  | .readPowerCounters ini args => iniOk ini && args.length ≤ 16
  | .powerOnReset m1 m2 _ _ fails _ => m1 < 4 && m2 < 4 && fails.all unitOk
  | .resetNAssert _ _ fails _ => fails.all unitOk
  | .consentExpiry => true
  | .readBootStatus ini args => iniOk ini && args.length ≤ 16
  | .readCatalogue ini args => iniOk ini && args.length ≤ 16
  | .verifyImage ini args => iniOk ini && args.length ≤ 16
  | .updateProcessor ini args => iniOk ini && args.length ≤ 16
  | .readUpdateStatus ini args => iniOk ini && args.length ≤ 16
  | .consentToWardenUpdate ini args => iniOk ini && args.length ≤ 16
  | .raiseSecurityVersion ini args => iniOk ini && args.length ≤ 16
  | .revokeRootSlot ini args => iniOk ini && args.length ≤ 16
  | .readIdentity ini args => iniOk ini && args.length ≤ 16
  | .attestationQuote ini args => iniOk ini && args.length ≤ 16
  | .readFactoryCalibration ini args => iniOk ini && args.length ≤ 16
  | .setCalibrationKeys ini args => iniOk ini && args.length ≤ 496
  | .applyCalibrationSet ini args => iniOk ini && args.length ≤ 16
  | .readCalibrationInForce ini args => iniOk ini && args.length ≤ 16
  | .bootImage ini args => iniOk ini && args.length ≤ 16
  | .commitRunningSet ini args => iniOk ini && args.length ≤ 16
  | .faultDetected unit code addr d0 d1 x => unitOk unit && code < 2 ^ 16 && addr < 2 ^ 48 && d0 < 2 ^ 32 && d1 < 2 ^ 32 && x.all ctxOk
  | .procWatchdogBite u => unitOk u
  | .mpTakeover => true
  | .spTakeover => true
  | .tempSample temps => temps.length ≤ 24
  | .railOutOfRange rail _ => rail ≤ 6
  | .pmbusAlert => true
  | .transientWindowEnd => true
  | .lpddrScrub m _ ues => m < 24 && ues.all (· < 2 ^ 48)
  | .readFaultStatus ini args => iniOk ini && args.length ≤ 16
  | .readFaultRecords ini args => iniOk ini && args.length ≤ 16
  | .acknowledgeRecords ini args => iniOk ini && args.length ≤ 16
  | .setFaultOptions ini args => iniOk ini && args.length ≤ 16
  | .readUnitHealth ini args => iniOk ini && args.length ≤ 16
  | .readSpares ini args => iniOk ini && args.length ≤ 16
  | .injectFault ini args => iniOk ini && args.length ≤ 16
  | .readFaultCounters ini args => iniOk ini && args.length ≤ 16
  | .sensorWriteDone master _ => master < 8
  | .clockStretchTimeout master => master < 8
  | .ethFrameSent p => p < 4
  | .ethLinkChange p _ => p < 4
  | .supplyLoss => true
  | .selfTestPowerUp u => unitOk u

end Sys2Proof
end

