-- ==== Sys2Proof/Tests/Slice0.lean ====
section
/-! SUPPORT. Smoke tests: ill-formed commands that WellFormed refuses, single steps, and for the hypotheses of each statement a
concrete state and operands that meet them. -/
open Sys2Proof Sys2Proof.Machine
namespace Sys2Proof.Tests
set_option Elab.async false

/-! ### Small states -/

/-- The conditions on a register write, as one that can be computed. -/
def admitsB (s : State) (ini u off : Nat) (v : Word) (o : Bool) : Bool :=
  s.exists? u && s.fwAllows ini (regAddr u off) true && (o || s.mayWrite ini u) &&
    match findRow u off with | some r => (r.bad v).isNone | none => false

theorem admits_iff (s : State) (ini u off : Nat) (v : Word) (o : Bool) : s.Admits ini u off v o ↔ admitsB s ini u off v o = true := by
  unfold State.Admits admitsB
  cases h : findRow u off <;> simp [and_assoc]

/-- Initiator 0x100 holds the claim on u. -/
def claimedOn (u : Nat) : State := { State.reset with claims := [⟨u, 0x100, []⟩] }
/-- A command that runs in x, at the first of the words l. -/
def runOf (x : Ctx) (l : List Dword) : CtxRun := freshRun x 5 (List.replicate 16 0) (List.replicate 16 0) l 0 0 0 false none
def atWord (x : Ctx) (w : Dword) : State := { State.reset with ctxs := [runOf x [w]] }
/-- The next word of a context is w, as a condition that can be computed. -/
def readyB (s : State) (x : Ctx) (r : CtxRun) (w : Dword) : Bool :=
  s.run x = some r && !x.isMill && !r.ended && r.stall.isNone && r.pos < r.code.length && nth r.code r.pos 0 = w &&
    opcodes.contains (wOp w) && s.decodeFault r (some (((s.slot r.queue).map (·.words)).getD [])) (eRind r.entry) w = 0
theorem ready_iff (s : State) (x : Ctx) (r : CtxRun) (w : Dword) : s.Ready x r w ↔ readyB s x r w = true := by
  simp [State.Ready, readyB, and_assoc]
/-- A cached queue's descriptor: ID 5, client 0, enabled, ring and completion ring of sixteen entries in LPDDR4X. -/
def desc5 : List Word := [0, 1, 0x2104, 0, 0x10000, 0x40001, 0, 0, 0x100000, 0, 1, 0, 0, 0, 0, 0]
def slot5 : QSlot := ⟨5, desc5, none, false, false, none, false, none, 0, false, false, false, none, [], false⟩
def queued : State := { State.reset with qcache := [slot5] }
/-- Client 1, initiator 0x100 alone, with marks 0 to 15 and an event ring of sixteen entries in LPDDR4X. -/
def client1 : State := (((State.reset.wr (wClient 1) 4 0x80000100).wr (wClient 1) 8 0x20000).wr (wClient 1) 12 0x40001).wr (wClient 1) 20 0x100000
/-- Queue 5 of client 1 is cached. -/
def owned : State := { client1 with qcache := [{ slot5 with words := setNth desc5 2 0x12104 }] }
/-- Parcel 0 is valid: 64 KiB at address 0 that initiator 0x100 may read and write. -/
def parcel0 : State := (State.reset.wr (uBG 0) (pclOff 0 + 16) 0xFFF00100).validate 0 0x60000000
/-- An instruction of a unit that has begun. -/
def begun (r : CtxRun) (u : Nat) (w : Dword) : Issued := ⟨u, w, 0, r.tds, r.win, r.cps, r.sregs, none, [0, 0, 0, 0], none, [16], true, .none, [], [], [], []⟩

/-- A flag of another register leaves a register as it is. -/
theorem rd_setFlag_ne (s : State) (u o i v b : Nat) (x : Bool) (h : rk v b ≠ rk u o) : (s.setFlag u o i x).rd v b = s.rd v b :=
  rd_wr_ne _ _ _ _ _ _ h
theorem rd_freshNat (s : State) (n u o : Nat) : (s.freshNat n).2.rd u o = s.rd u o := by simp only [State.freshNat, State.rd]
/-- A packet on a link leaves its streams as they are. -/
theorem linkSees_stream (s : State) (l vc k i : Nat) (h : rk (uCL k) (0x108 + 4 * i) ≠ rk (uCL l) 0x104) :
    (s.linkSees l vc).stream k i = s.stream k i := by
  unfold State.stream State.linkSees
  rw [rd_setFlag_ne _ _ _ _ _ _ _ h, rd_setFlag_ne _ _ _ _ _ _ _ h, rd_setFlag_ne _ _ _ _ _ _ _ h, rd_freshNat]
theorem linkSees_stream_rk (k l i : Nat) (hi : i < 4) : rk (uCL k) (0x108 + 4 * i) ≠ rk (uCL l) 0x104 :=
  rk_ne (by omega) (by omega) (by simp only [ne_eq, Prod.mk.injEq]; omega)
theorem streamOf_congr (s t : State) (k v : Nat) (h : ∀ i, i < 4 → t.stream k i = s.stream k i) : t.streamOf k v = s.streamOf k v := by
  simp only [State.streamOf, List.range_succ, List.range_zero, List.nil_append, List.cons_append, List.find?_cons, List.find?_nil,
    h 0 (by omega), h 1 (by omega), h 2 (by omega), h 3 (by omega)]
theorem linkSees_streamOf (s : State) (l vc k v : Nat) : (s.linkSees l vc).streamOf k v = s.streamOf k v :=
  streamOf_congr _ _ _ _ fun i hi => linkSees_stream s l vc k i (linkSees_stream_rk k l i hi)

/-! ### Well-formedness -/

theorem test_ill_formed_1 : ([.registerWrite 6 0 1 0, .registerWrite 0 (2 ^ 48 + 0x400) 1 0, .registerWrite 0 0 0 0, .registerWrite 0 0 65 0,
    .registerWrite 0 0 1 (256 ^ 1), .deviceInformation 6 [], .deviceInformation 0 (List.replicate 17 0),
    .claimUnit 0 (List.replicate 17 0), .rateWindowEnd 8 0 false, .rateWindowEnd 0 (2 ^ 16) false, .ucbRequestDrain 0 0x1FFF,
    .ucbRequestTest 0 0x1FFF, .ucbRequestReadmit 0 0x1FFF, .unitDrained 0x1FFF, .selfTestDone 0x1FFF false, .clCfgSpareWrite 0 6 0,
    .clCfgSpareWrite 0 0 (2 ^ 32), .gangFormed 3, .gangDissolved 3, .teFeedWrite 0 2 0, .teFeedWrite 0 0 (2 ^ 32), .veCfgWrite 0 6 0,
    .evaluateSpecialFunction 0 (List.replicate 66 0), .doorbell 0 (2 ^ 20), .entryRead (2 ^ 20), .startConditionMet (2 ^ 20),
    .commandDispatch (.gang 3), .instructionComplete (.gang 3) 0 [] [] [] [], .instructionComplete (.general 0) 16 [] [] [] [],
    .eventRouteSignal (2 ^ 12), .markWaitSatisfied (.general 0) 32, .min 3, .mout 3, .fmak 3, .fma 3, .add 3, .sub 3, .mul 3,
    .clamp 3, .biq 3, .sstep 3, .pid 3, .obs 3, .strec 3, .polderAccess 0 32 0 0 false [] 0, .polderAccess 0 0 (2 ^ 28) 0 false [] 0,
    .polderAccess 0 0 0 65 false [] 0, .polderAccess 0 0 0 1 true [] 0, .breakPoint 512 [], .breakPoint 0 [(32, 0)],
    .gatherIdleFlush 512 0, .gatherIdleFlush 0 8192, .sluiceWatchdogBite 512, .creditWaitEnd (.general 0) 32 0, .scrubRow 512 0 0,
    .scrubRow 0 8192 0, .scrubRow 0 0 5, .bankCopyDone 512, .maintWaitLimit 12, .bgIdleRetention 12, .bgLateWake 12,
    .pclLocWrite 0 1024 0, .pclOwnerWrite 0 1024 0, .pclCreditWrite 0 1024 0] : List Instr).all (fun c => c.wf == false) = true := by decide +kernel
theorem test_ill_formed_2 : ([.pclRightWrite 0 1024 0 0, .pclRightWrite 0 0 4 0, .parcelZeroed 1024, .parcelDeletionMade 1024, .qinval 0 (2 ^ 20),
    .clientWordWrite 0 16 0, .markWindowWrite 0 (2 ^ 16) 0, .reservationEffective (2 ^ 20), .verifyRind 0 (List.replicate 27 0),
    .weightsFoldDone 1024, .axWrite ⟨4, 0, 0, 0, [], 0, 0, 0, 0, []⟩ 0 4 [0, 0, 0, 0] false,
    .axWrite ⟨0, 0, 0, 0, [], 0, 0, 0, 0, []⟩ (2 ^ 28) 4 [0, 0, 0, 0] false,
    .axWrite ⟨0, 0, 0, 0, [], 0, 0, 0, 0, []⟩ 0 3 [0, 0, 0, 0] false,
    .axWrite ⟨0, 0, 0, 0, [], 0, 0, 0, 0, []⟩ 0 4097 [0, 0, 0, 0] false, .axWrite ⟨0, 0, 0, 0, [], 0, 0, 0, 0, []⟩ 0 4 [] false,
    .axMsignal ⟨4, 0, 0, 0, [], 0, 0, 0, 0, []⟩ 0 0 false, .axMsignal ⟨0, 0, 0, 0, [], 0, 0, 0, 0, []⟩ (2 ^ 16) 0 false,
    .axMadd ⟨4, 0, 0, 0, [], 0, 0, 0, 0, []⟩ 0 0 false, .axMadd ⟨0, 0, 0, 0, [], 0, 0, 0, 0, []⟩ (2 ^ 16) 0 false,
    .axCreditReq ⟨4, 0, 0, 0, [], 0, 0, 0, 0, []⟩ 0 0 false, .axCreditReq ⟨0, 0, 0, 0, [], 0, 0, 0, 0, []⟩ (2 ^ 28) 0 false,
    .axCreditReq ⟨0, 0, 0, 0, [], 0, 0, 0, 0, []⟩ 0 (2 ^ 7) false, .axCreditGrant ⟨4, 0, 0, 0, [], 0, 0, 0, 0, []⟩ 0 0,
    .axCreditGrant ⟨0, 0, 0, 0, [], 0, 0, 0, 0, []⟩ (2 ^ 28) 0, .axCreditGrant ⟨0, 0, 0, 0, [], 0, 0, 0, 0, []⟩ 0 (2 ^ 7),
    .axCreditReturn ⟨4, 0, 0, 0, [], 0, 0, 0, 0, []⟩ 0 0 false, .axCreditReturn ⟨0, 0, 0, 0, [], 0, 0, 0, 0, []⟩ (2 ^ 28) 0 false,
    .axCreditReturn ⟨0, 0, 0, 0, [], 0, 0, 0, 0, []⟩ 0 (2 ^ 7) false, .axAck ⟨4, 0, 0, 0, [], 0, 0, 0, 0, []⟩ 0,
    .axAck ⟨0, 0, 0, 0, [], 0, 0, 0, 0, []⟩ (2 ^ 12), .axNack ⟨4, 0, 0, 0, [], 0, 0, 0, 0, []⟩ 0 0,
    .axNack ⟨0, 0, 0, 0, [], 0, 0, 0, 0, []⟩ (2 ^ 12) 0, .axNack ⟨0, 0, 0, 0, [], 0, 0, 0, 0, []⟩ 0 16,
    .axCtlFlit 4 0 [0, 0, 0, 0] none 0 0 0 0 0 false false 0 [0, 0, 0, 0, 0, 0, 0, 0],
    .axCtlFlit 0 (2 ^ 12) [0, 0, 0, 0] none 0 0 0 0 0 false false 0 [0, 0, 0, 0, 0, 0, 0, 0],
    .axCtlFlit 0 0 [] none 0 0 0 0 0 false false 0 [0, 0, 0, 0, 0, 0, 0, 0],
    .axCtlFlit 0 0 [0, 0, 0, 0] (some (2 ^ 12)) 0 0 0 0 0 false false 0 [0, 0, 0, 0, 0, 0, 0, 0],
    .axCtlFlit 0 0 [0, 0, 0, 0] none (2 ^ 8) 0 0 0 0 false false 0 [0, 0, 0, 0, 0, 0, 0, 0],
    .axCtlFlit 0 0 [0, 0, 0, 0] none 0 (2 ^ 4) 0 0 0 false false 0 [0, 0, 0, 0, 0, 0, 0, 0],
    .axCtlFlit 0 0 [0, 0, 0, 0] none 0 0 (2 ^ 16) 0 0 false false 0 [0, 0, 0, 0, 0, 0, 0, 0],
    .axCtlFlit 0 0 [0, 0, 0, 0] none 0 0 0 (2 ^ 4) 0 false false 0 [0, 0, 0, 0, 0, 0, 0, 0],
    .axCtlFlit 0 0 [0, 0, 0, 0] none 0 0 0 0 8 false false 0 [0, 0, 0, 0, 0, 0, 0, 0],
    .axCtlFlit 0 0 [0, 0, 0, 0] none 0 0 0 0 0 false false (2 ^ 64) [0, 0, 0, 0, 0, 0, 0, 0],
    .axCtlFlit 0 0 [0, 0, 0, 0] none 0 0 0 0 0 false false 0 [], .axFlitCrcError 4 0 false [], .axFlitCrcError 0 (2 ^ 8) false [],
    .axFlitCrcError 0 0 false [(2 ^ 12, 0)], .retrainDone 4 0 0, .retrainDone 0 (2 ^ 8) 0, .hopDown 5 0 0, .hopDown 0 8 0,
    .hopDown 0 0 8, .axIdleEntry 4, .wakePatternDetect 4, .linkAckTimeout 8 0 0, .linkAckTimeout 0 (2 ^ 10) 0,
    .linkAckTimeout 0 0 (2 ^ 12), .ringFormed 4, .liveEnableWrite 0 2 0, .liveFrameTake 2, .liveFrameDone 2 0, .jobCtlStart 0 2,
    .jobCtlStop 0 2, .jobCtlResume 0 2] : List Instr).all (fun c => c.wf == false) = true := by decide +kernel
theorem test_ill_formed_3 : ([.jobCtlAbort 0 2, .sampleDecodeDone 2 0 0, .decodeDeferTimeout 2, .decodeHardLimit 2 0, .batchDone 2, .hostDecodeDone 2 0 0 0 [],
    .vatFetchTimeoutExpiry 2, .csi2FrameStart 8 0 0, .csi2FrameStart 0 16 0, .csi2FrameStart 0 0 3, .csi2Line 8 0 0 0 0 false [] 0,
    .csi2Line 0 16 0 0 0 false [] 0, .csi2Line 0 0 64 0 0 false [] 0, .csi2Line 0 0 0 0 (2 ^ 16) false [] 0,
    .csi2EmbeddedLine 8 0 0 0 [], .csi2EmbeddedLine 0 16 0 0 [], .csi2EmbeddedLine 0 0 0 (2 ^ 16) [], .csi2FrameEnd 8 0 0 0 0,
    .csi2FrameEnd 0 16 0 0 0, .csi2FrameEnd 0 0 3 0 0, .frameLateExpiry 16, .cameraMove 16, .clStreamWrite 0 8 0 0,
    .clStreamWrite 0 0 4 0, .ppCtlLoad 0 16, .ppCtlStart 0 16, .ppCtlStop 0 16, .ppCtlStopNow 0 16, .ppPsetGo 0 16 0, .millSegment 3,
    .millSegmentOverrun 3, .millCoreFault 4 0, .lawCtlGo 0 96 false, .loopCtlEnable 0 96, .loopCtlDisable 0 96, .loopCtlFallback 0 96,
    .loopCtlReturn 0 96, .encoderEdge 32 false false, .encoderIndex 32, .serialReadDone 32 0 0 false, .pwmPeriodStart 8,
    .axisFrameReceive 4 0 0 0 [0], .axisFrameReceive 0 (2 ^ 48) 0 0 [0], .axisFrameReceive 0 0 (2 ^ 16) 0 [0],
    .axisFrameReceive 0 0 0 (2 ^ 8) [0], .axisFrameReceive 0 0 0 0 [], .axisFrameReceive 0 0 0 0 (List.replicate 65 0),
    .axisFrameStale 16, .axisFramePartialSend 16, .qbvGateEntryEnd 4, .qbvSwap 0 4 0, .writeCoefficients 0 (List.replicate 515 0),
    .digestCompare 16, .digestPeriodExpiry 16, .starterCheck 8, .pairFailure 2, .pinFeedbackTimeout 2, .taskDeadlineExpiry 16,
    .sliceStart 0x1FFF, .sliceDone 0x1FFF false, .writeEnvelopes 0 (List.replicate 1027 0), .configureStarter 0 (List.replicate 19 0),
    .configureSelfTest 0 (List.replicate 82 0), .comparatorFire 16] : List Instr).all (fun c => c.wf == false) = true := by decide +kernel
theorem test_ill_formed_4 : ([.cmpTargetCommit 0 16 0, .gaugeClaimClaim 0 4 0 0, .gaugeClaimClaim 0 0 8 0, .gaugeClaimClaim 0 0 0 16,
    .gaugeClaimRelease 0 4 0 0, .gaugeClaimRelease 0 0 8 0, .gaugeClaimRelease 0 0 0 16, .ethFrameReceive 4 [] false 0 0 0 0,
    .ethFrameReceive 0 (List.replicate 2049 0) false 0 0 0 0, .ethFrameReceive 0 [] false 3 0 0 0,
    .ethFrameReceive 0 [] false 0 (2 ^ 64) 0 0, .ethFrameReceive 0 [] false 0 0 (2 ^ 32) 0,
    .ethFrameReceive 0 [] false 0 0 0 (2 ^ 32), .pulseEnd 8, .captureEdge 64 false, .capNsRead 0 8,
    .canFrameReceive 4 false false false false false 0 0 0 [], .canFrameReceive 0 false false false false false (2 ^ 29) 0 0 [],
    .canFrameReceive 0 false false false false false 0 16 0 [],
    .canFrameReceive 0 false false false false false 0 0 0 (List.replicate 17 0), .canObjReq 0 4 0 0, .canObjReq 0 0 512 0,
    .canTxDone 4 0, .canBusError 4 0 0 0 false, .canBusError 0 7 0 0 false, .canBusError 0 0 512 0 false,
    .canBusError 0 0 0 256 false, .canTxLateExpiry 4 0, .canTxLateExpiry 0 512, .cnCmdRecover 0 4, .canRecoveryDone 4,
    .cnCmdAbort 0 4 0, .cnCmdAbort 0 0 512, .writeCanObject 0 (List.replicate 24 0), .pcieRequest 4 0 0 0 0 [],
    .pcieRequest 0 33 0 0 0 [], .pcieRequest 0 0 6 0 0 [], .pcieRequest 0 0 0 (2 ^ 64) 0 [],
    .pcieRequest 0 0 0 0 0 (List.replicate 513 0), .functionLevelReset 33, .pcieLinkUp 0 0, .pcieLinkUp 6 0, .pcieLinkUp 1 17,
    .msixEntryWrite 0 33 0 0 0, .msixEntryWrite 0 0 2048 0 0, .msixEntryWrite 0 0 0 4 0, .vfDoorbell 0 0, .vfDoorbell 33 0,
    .translationWalkDone (2 ^ 12) false 0 false, .translationWalkDone 0 false (2 ^ 40) false, .sdioCommand false 3 0 0 false [],
    .sdioCommand false 0 (2 ^ 17) 0 false [], .sdioCommand false 0 0 65537 false [],
    .sdioCommand false 0 0 0 false (List.replicate 65537 0), .sdioFunctionReset 3, .mbCallGo 0 36 0, .mbDoneRead 0 36,
    .mbStatusRead 0 36, .powerAnswer 0x1FFF false, .powerAnswerTimeout 0x1FFF, .wake 0 0, .wake 9 0, .wake 1 0x1FFF,
    .trimIdleExpiry 0x1FFF] : List Instr).all (fun c => c.wf == false) = true := by decide +kernel
theorem test_ill_formed_5 : ([.powerOnReset 4 0 false false [] 0, .powerOnReset 0 4 false false [] 0, .powerOnReset 0 0 false false [0x1FFF] 0,
    .resetNAssert false false [0x1FFF] 0, .setCalibrationKeys 0 (List.replicate 497 0), .faultDetected 0x1FFF 0 0 0 0 none,
    .faultDetected 0 (2 ^ 16) 0 0 0 none, .faultDetected 0 0 (2 ^ 48) 0 0 none, .faultDetected 0 0 0 (2 ^ 32) 0 none,
    .faultDetected 0 0 0 0 (2 ^ 32) none, .faultDetected 0 0 0 0 0 (some (.toe 2)), .procWatchdogBite 0x1FFF,
    .tempSample (List.replicate 25 0), .railOutOfRange 7 false, .lpddrScrub 24 0 [], .lpddrScrub 0 0 [2 ^ 48],
    .sensorWriteDone 8 false, .clockStretchTimeout 8, .ethFrameSent 4, .ethLinkChange 4 false, .selfTestPowerUp 0x1FFF,
    .axAck ⟨0, 4, 0, 0, [], 0, 0, 0, 0, []⟩ 0, .axAck ⟨0, 0, 2 ^ 12, 0, [], 0, 0, 0, 0, []⟩ 0,
    .axAck ⟨0, 0, 0, 2 ^ 12, [], 0, 0, 0, 0, []⟩ 0, .axAck ⟨0, 0, 0, 0, [(2 ^ 12, 0)], 0, 0, 0, 0, []⟩ 0,
    .axAck ⟨0, 0, 0, 0, [(0, 5)], 0, 0, 0, 0, []⟩ 0, .axAck ⟨0, 0, 0, 0, [], 8, 0, 0, 0, []⟩ 0,
    .axAck ⟨0, 0, 0, 0, [], 0, 8, 0, 0, []⟩ 0, .axAck ⟨0, 0, 0, 0, [], 0, 0, 2 ^ 10, 0, []⟩ 0,
    .axAck ⟨0, 0, 0, 0, [], 0, 0, 0, 2 ^ 12, []⟩ 0, .axAck ⟨0, 0, 0, 0, [], 0, 0, 0, 0, [2 ^ 12]⟩ 0, .breakPoint 0 [(0, 1024)],
    .axCtlFlit 0 0 [2 ^ 16, 0, 0, 0] none 0 0 0 0 0 false false 0 [0, 0, 0, 0, 0, 0, 0, 0],
    .axCtlFlit 0 0 [0, 0, 0, 0] none 0 0 0 0 0 false false 0 [2 ^ 64, 0, 0, 0, 0, 0, 0, 0]] : List Instr).all (fun c => c.wf == false) = true := by decide +kernel
theorem test_well_formed_1 : ([.registerWrite 0 0 1 0, .deviceInformation 0 [], .claimUnit 0 [], .releaseUnit 0 [], .rateWindowEnd 0 0 false,
    .ucbRequestDrain 0 0, .ucbRequestTest 0 0, .ucbRequestReadmit 0 0, .unitDrained 0, .selfTestDone 0 false,
    .readUnitControlBlock 0 [], .requestUnitState 0 [], .listUnits 0 [], .readRateMonitors 0 [], .readNumericIdentity 0 [],
    .windowBounds 0 [], .writeRescaleTable 0 [], .readStatistics 0 [], .setScaleGuard 0 [], .readNumericTotals 0 [],
    .clCfgSpareWrite 0 0 0, .readClusterStatus 0 [], .formGang 0 [], .gangFormed 0, .dissolveGang 0 [], .gangDissolved 0,
    .setSpareEnable 0 [], .readTileCounters 0 [], .readStepTable 0 [], .teFeedWrite 0 0 0, .readToeEngineStatus 0 [],
    .bindToeFeed 0 [], .readToeCounters 0 [], .buildPaddingTapTable 0 [], .winogradWindowBounds 0 [], .veCfgWrite 0 0 0,
    .readTableSet 0 [], .evaluateSpecialFunction 0 [], .readVectorEngineCounters 0 [], .setArrivalOrder 0 [], .doorbell 0 0,
    .entryRead 0, .startConditionMet 0, .commandDispatch (.general 0), .instructionComplete (.general 0) 0 [] [] [] [],
    .commandEpilogue (.general 0) 0, .eventRouteSignal 0, .budgetExpiry (.general 0), .nop (.general 0), .tdaddr (.general 0),
    .tdfmt (.general 0), .tdstride (.general 0), .tdscale (.general 0), .tddim (.general 0), .tdmemb (.general 0),
    .winset (.general 0), .cpset (.general 0), .sset (.general 0), .fence (.general 0), .only (.general 0), .rmset (.general 0),
    .move (.general 0), .move2d (.general 0), .fill (.general 0)] : List Instr).all (fun c => c.wf == true) = true := by decide +kernel
theorem test_well_formed_2 : ([.scaletag (.general 0), .pages (.general 0), .matmul (.general 0), .conv (.general 0), .psadd (.general 0), .elem (.general 0),
    .special (.general 0), .reduce (.general 0), .lnorm (.general 0), .rmsnorm (.general 0), .softmax (.general 0),
    .mxquant (.general 0), .sgd (.general 0), .adam (.general 0), .blksoftmax (.general 0), .xreduce (.general 0),
    .dwconv (.general 0), .pool (.general 0), .blkmerge (.general 0), .merge (.general 0), .final (.general 0), .tconv (.general 0),
    .mwaitge (.general 0), .mwaiteq (.general 0), .markWaitSatisfied (.general 0) 0, .msignal (.general 0), .madd (.general 0),
    .msignalr (.general 0), .maddr (.general 0), .brkset (.general 0), .lopen (.general 0), .lockPassageOpen (.general 0),
    .lclose (.general 0), .remit (.general 0), .validateCommandBlock 0 [], .readPecCapabilities 0 [], .min 0, .mout 0, .fmak 0,
    .fma 0, .add 0, .sub 0, .mul 0, .clamp 0, .biq 0, .sstep 0, .pid 0, .obs 0, .strec 0, .polderAccess 0 0 0 0 false [] 0,
    .breakPoint 0 [], .gatherIdleFlush 0 0, .sluiceWatchdogBite 0, .creditWaitEnd (.general 0) 0 0, .scrubRow 0 0 0, .bankCopyDone 0,
    .maintWaitLimit 0, .bgIdleRetention 0, .bgLateWake 0, .pclLocWrite 0 0 0, .pclOwnerWrite 0 0 0, .pclCreditWrite 0 0 0,
    .pclRightWrite 0 0 0 0, .createParcel 0 []] : List Instr).all (fun c => c.wf == true) = true := by decide +kernel
theorem test_well_formed_3 : ([.parcelZeroed 0, .deleteParcel 0 [], .parcelDeletionMade 0, .readParcel 0 [], .setParcelRights 0 [], .readCredits 0 [],
    .setWaitLimits 0 [], .setSluiceWatchdog 0 [], .readBankGroup 0 [], .spareABank 0 [], .setHazardDetector 0 [], .locateAddress 0 [],
    .qinval 0 0, .qinvalAll 0, .clientWordWrite 0 0 0, .markWindowWrite 0 0 0, .markAddWrite 0 0, .reservationEffective 0,
    .xlateTimeoutExpiry (.general 0), .createClient 0 [], .setShare 0 [], .readClientAccounting 0 [], .createOrChangeQueue 0 [],
    .deleteQueue 0 [], .enableHaltOrResumeQueue 0 [], .reserve 0 [], .releaseReservation 0 [], .resolveTranslationStall 0 [],
    .watchMark 0 [], .signalOrAddMark 0 [], .readQueue 0 [], .sameBitsWrite 0 0, .setSameBitsMode 0 [], .readFingerprint 0 [],
    .verifyRind 0 [], .loadWeights 0 [], .weightsFoldDone 0, .readWeightsDigest 0 [], .clearWeightsDigest 0 [],
    .readSameBitsCounters 0 [], .readQueueWeightsDigest 0 [], .axWrite ⟨0, 0, 0, 0, [], 0, 0, 0, 0, []⟩ 0 4 [0, 0, 0, 0] false,
    .axMsignal ⟨0, 0, 0, 0, [], 0, 0, 0, 0, []⟩ 0 0 false, .axMadd ⟨0, 0, 0, 0, [], 0, 0, 0, 0, []⟩ 0 0 false,
    .axCreditReq ⟨0, 0, 0, 0, [], 0, 0, 0, 0, []⟩ 0 0 false, .axCreditGrant ⟨0, 0, 0, 0, [], 0, 0, 0, 0, []⟩ 0 0,
    .axCreditReturn ⟨0, 0, 0, 0, [], 0, 0, 0, 0, []⟩ 0 0 false, .axAck ⟨0, 0, 0, 0, [], 0, 0, 0, 0, []⟩ 0,
    .axNack ⟨0, 0, 0, 0, [], 0, 0, 0, 0, []⟩ 0 0, .axCtlFlit 0 0 [0, 0, 0, 0] none 0 0 0 0 0 false false 0 [0, 0, 0, 0, 0, 0, 0, 0],
    .axFlitCrcError 0 0 false [], .retrainDone 0 0 0, .hopDown 0 0 0, .rerouteDone, .axIdleEntry 0, .wakePatternDetect 0,
    .linkAckTimeout 0 0 0, .ringFormed 0, .formRing 0 [], .dissolveRing 0 [], .ringDissolved, .readRing 0 [], .readPort 0 [],
    .configurePort 0 []] : List Instr).all (fun c => c.wf == true) = true := by decide +kernel
theorem test_well_formed_4 : ([.sendWake 0 [], .setRingLimits 0 [], .remoteMarkOperation 0 [], .liveEnableWrite 0 0 0, .liveFrameTake 0, .liveFrameDone 0 0,
    .jobCtlStart 0 0, .jobCtlStop 0 0, .jobCtlResume 0 0, .jobCtlAbort 0 0, .sampleDecodeDone 0 0 0, .decodeDeferTimeout 0,
    .decodeHardLimit 0 0, .batchDone 0, .hostDecodeDone 0 0 0 0 [], .vatFetchTimeoutExpiry 0, .readVatStatus 0 [],
    .setLiveStream 0 [], .startBatchJob 0 [], .stopOrAbortJob 0 [], .resolveJobStall 0 [], .configureCellar 0 [],
    .invalidateCellar 0 [], .setSlowDecodeLimits 0 [], .setSharedDecode 0 [], .referenceDecode 0 [], .readVatCounters 0 [],
    .csi2FrameStart 0 0 0, .csi2Line 0 0 0 0 0 false [] 0, .csi2EmbeddedLine 0 0 0 0 [], .csi2FrameEnd 0 0 0 0 0, .frameLateExpiry 0,
    .cameraMove 0, .clStreamWrite 0 0 0 0, .ppCtlLoad 0 0, .ppCtlStart 0 0, .ppCtlStop 0 0, .ppCtlStopNow 0 0, .ppPsetGo 0 0 0,
    .readLink 0 [], .configureLink 0 [], .loadDescriptor 0 [], .startOrStopPipeline 0 [], .pushParameterSet 0 [],
    .setFlickerThreshold 0 [], .setSpare 0 [], .moveCamera 0 [], .readPipeline 0 [], .millSegment 0, .millSegmentOverrun 0,
    .millCoreFault 0 0, .lawCtlGo 0 0 false, .loopCtlEnable 0 0, .loopCtlDisable 0 0, .loopCtlFallback 0 0, .loopCtlReturn 0 0,
    .coefWr 0 0, .encoderEdge 0 false false, .encoderIndex 0, .serialReadDone 0 0 0 false, .pwmPeriodStart 0,
    .axisFrameReceive 0 0 0 0 [0], .axisFrameStale 0, .axisFramePartialSend 0] : List Instr).all (fun c => c.wf == true) = true := by decide +kernel
theorem test_well_formed_5 : ([.qbvGateEntryEnd 0, .qbvSwap 0 0 0, .readMillStatus 0 [], .configureLoop 0 [], .loadLaw 0 [], .enableOrDisableLoop 0 [],
    .writeCoefficients 0 [], .readCoefficients 0 [], .readLoop 0 [], .configureEncoder 0 [], .configurePwm 0 [], .clearLoopFlags 0 [],
    .fallbackOrReturn 0 [], .configureAxisFrame 0 [], .bindTrigger 0 [], .decisionPass, .gateSetCheck, .setDeadlineExpiry,
    .digestCompare 0, .digestPeriodExpiry 0, .starterCheck 0, .hbWordWrite 0, .hbTimeoutExpiry, .pairFailure 0, .wardenWatchdogBite,
    .pinFeedbackTimeout 0, .taskDeadlineExpiry 0, .sliceStart 0, .sliceDone 0 false, .debtWindowEnd, .wdCmdArm 0, .wdCmdForceSafe 0,
    .wdCmdRelease 0, .wdCmdEnterTest 0, .wdCmdLeaveTest 0, .supCmdWrite 0, .fwLockWrite 0 0, .readWardenStatus 0 [], .arm 0 [],
    .forceSafe 0 [], .releaseSafeState 0 [], .enterOrLeaveTest 0 [], .setCheck 0 [], .configureGate 0 [], .writeEnvelopes 0 [],
    .configureCompareEntry 0 [], .configureStarter 0 [], .configureSelfTest 0 [], .openSupervisedTask 0 [], .closeSupervisedTask 0 [],
    .writeFirewall 0 [], .readWardenCounters 0 [], .pinTest 0 [], .comparatorFire 0, .slewStep, .incrWrite 0 0, .adjCtlSlew 0 false,
    .adjCtlStep 0 false, .adjCtlCancelSlew 0, .setCtlGo 0 false, .cmpTargetCommit 0 0 0, .gaugeClaimClaim 0 0 0 0,
    .gaugeClaimRelease 0 0 0 0, .refclkLoss] : List Instr).all (fun c => c.wf == true) = true := by decide +kernel
theorem test_well_formed_6 : ([.refclkRestore, .ethFrameReceive 0 [] false 0 0 0 0, .announceTimeout, .pulseEnd 0, .captureEdge 0 false, .capNsRead 0 0,
    .canFrameReceive 0 false false false false false 0 0 0 [], .canObjReq 0 0 0 0, .canTxDone 0 0, .canBusError 0 0 0 0 false,
    .canTxLateExpiry 0 0, .cnCmdRecover 0 0, .canRecoveryDone 0, .cnCmdAbort 0 0 0, .readTime 0 [], .adjustTime 0 [],
    .setIncrement 0 [], .claimOrReleaseComparator 0 [], .configureComparator 0 [], .configurePulseOrCapture 0 [],
    .configureTimeProtocol 0 [], .readTimeProtocol 0 [], .readCanObject 0 [], .configureGeneralRings 0 [],
    .configureCanController 0 [], .writeCanObject 0 [], .recoverCanController 0 [], .pcieRequest 0 0 0 0 0 [], .functionLevelReset 0,
    .pcieLinkDown, .pcieLinkUp 1 0, .msixEntryWrite 0 0 0 0 0, .vfDoorbell 1 0, .translationWalkDone 0 false 0 false, .xlInvalGo 0 0,
    .xlInvalidationDone, .sdioCommand false 0 0 0 false [], .sdioFunctionReset 0, .mbCallGo 0 0 0, .mbCallServe, .callDone,
    .mbDoneRead 0 0, .mbStatusRead 0 0, .readPcieStatus 0 [], .setVfVectors 0 [], .setTranslationContext 0 [],
    .invalidateTranslations 0 [], .readTranslationFault 0 [], .translate 0 [], .readSdioStatus 0 [], .setLpddr4xWindow 0 [],
    .gpioSetWrite 0 0, .gpioClrWrite 0 0, .setGpio 0 [], .readGpio 0 [], .setGpioOwner 0 [], .pwrCmdRun 0, .pwrCmdTrim 0,
    .pwrCmdDoze 0, .pwrCmdSleep 0, .powerAnswer 0 false, .powerAnswerTimeout 0, .powerEntryDone, .wake 1 0] : List Instr).all (fun c => c.wf == true) = true := by decide +kernel
theorem test_well_formed_7 : ([.powerExitDone, .trimIdleExpiry 0, .domainPowerUpDone, .vcoreSetWrite 0 0, .capWWrite 0 0, .setpointStepDone false,
    .powerWindowEnd 0, .readPowerStatus 0 [], .requestState 0 [], .setVddCoreSetPoint 0 [], .setPowerCap 0 [], .setWakeSources 0 [],
    .setTrimIdle 0 [], .readPowerCounters 0 [], .powerOnReset 0 0 false false [] 0, .resetNAssert false false [] 0, .consentExpiry,
    .readBootStatus 0 [], .readCatalogue 0 [], .verifyImage 0 [], .updateProcessor 0 [], .readUpdateStatus 0 [],
    .consentToWardenUpdate 0 [], .raiseSecurityVersion 0 [], .revokeRootSlot 0 [], .readIdentity 0 [], .attestationQuote 0 [],
    .readFactoryCalibration 0 [], .setCalibrationKeys 0 [], .applyCalibrationSet 0 [], .readCalibrationInForce 0 [], .bootImage 0 [],
    .commitRunningSet 0 [], .faultDetected 0 0 0 0 0 none, .procWatchdogBite 0, .mpTakeover, .spTakeover, .tempSample [],
    .railOutOfRange 0 false, .pmbusAlert, .transientWindowEnd, .lpddrScrub 0 0 [], .readFaultStatus 0 [], .readFaultRecords 0 [],
    .acknowledgeRecords 0 [], .setFaultOptions 0 [], .readUnitHealth 0 [], .readSpares 0 [], .injectFault 0 [],
    .readFaultCounters 0 [], .sensorWriteDone 0 false, .clockStretchTimeout 0, .ethFrameSent 0, .ethLinkChange 0 false, .supplyLoss,
    .selfTestPowerUp 0] : List Instr).all (fun c => c.wf == true) = true := by decide +kernel

/-! ### The hypotheses of the statements are met -/

theorem wit_ClaimAndRelease :
    let s := State.reset
    let t := claimedOn (uTC 0)
    s.exists? (uTC 0) = true ∧ (∃ c ∈ t.claims, c.unit = uTC 0 ∧ c.ini = 0x100) ∧ (¬∃ c ∈ t.claims, c.unit = uTC 0 ∧ c.ini = 0x101) ∧
      (∃ c ∈ t.claims, c.ini ≠ 0x101 ∧ (uTC 0 ∈ t.up c.unit 3 ∨ c.unit ∈ t.up (uTC 0) 3)) ∧ s.claims = [] ∧ uWarden ∉ s.up (uTC 0) 3 ∧
      (∀ c ∈ t.claims, c.unit = uTC 0 → c.ini = 0x100) := by
  decide +kernel

theorem wit_UnitRequestsTaken :
    let u := uBG 0
    let s := claimedOn u
    let r := State.reset
    let d := r.setState u 1
    let o := r.setState u 2
    let t := (r.setState u 3).setUrun u { r.urun u with testing := true, rank := 5, task := some 0 }
    let g := (r.wr uRing 0x200 (w32 0x200)).setUcb uRing 8 3
    s.exists? u = true ∧ s.leaves u = [u] ∧ iniRank 0x100 = 5 ∧ (s.claimOn u).map (·.ini) = some 0x100 ∧ s.reqReason u 1 5 none = 0 ∧
      o.reqReason u 2 5 none = 0 ∧ t.reqReason u 3 5 none = 0 ∧ r.claimOn u = none ∧ d.ustate u = 1 ∧ d.unitBusy u = false ∧
      t.ustate u = 3 ∧ (t.urun u).testing = true ∧ (t.urun u).held = false ∧ (t.injected u 0).2 = 0 ∧ (t.injected u 1).2 = 0 ∧
      g.exists? uRing = true ∧ g.claimOn uRing = none ∧ bits (g.ucb uRing 2) 5 4 = 0 ∧ g.ringNpos = 2 ∧ (∀ p < 2, g.posState p = 0) ∧
      (g.setPositions 1).ustate uRing = 1 ∧ (g.setPositions 1).ringQuiet = true := by
  decide +kernel

theorem wit_DeviceReadsComplete :
    let s := State.reset
    s.exists? (arg [0x10] 0) = true ∧ s.exists? (arg [0x1FFF] 0) = false ∧ arg [0, 64] 1 ≤ 64 ∧ 64 < arg [0, 65] 1 := by
  decide +kernel

theorem wit_NumericsCallsComplete :
    let s := State.reset
    let q := (s.wr (uBG 0) (pclOff 0 + 16) 0xC0000100).validate 0 0x60000000
    s.exists? (uTC 0) = true ∧ numUnit (uTC 0) = true ∧ s.claimed (uTC 0) = false ∧ fmtInput 2 = true ∧ zpOk 2 0 = true ∧
      fmtOutput 2 = true ∧ q.pclValid 0 = true ∧ q.polderAllowed 0x100 0 32 true = true ∧ q.polderAllowed 0x100 0 32 false = true := by
  decide +kernel

theorem wit_ClusterCommandsComplete :
    let s := claimedOn (uTC 0)
    let r := State.reset
    let f : State := { r with gangs := [⟨0, 3, .forming⟩] }
    let g : State := { r with gangs := [⟨0, 3, .formed⟩] }
    let d : State := { r with gangs := [⟨0, 3, .dissolving⟩] }
    admitsB s 0x100 (uTC 0) 0x200 (w32 1) false = true ∧ s.spareStands 0 = false ∧ r.exists? (uTC 0) = true ∧ r.claimed (uTC 0) = false ∧
      unitClass (uTC 0) = some .tc ∧ unitClass (uTile 0 0) = some .tile ∧ unitClass 0x28 = some .spareTile ∧
      (setIndices 6 3).length = 2 ∧ (∀ k ∈ setIndices 6 3, r.exists? (uTC k) = true ∧ r.gangOf k = none ∧ r.ustate (uTC k) = 0) ∧
      f.membersBusy 3 = false ∧ g.exists? (uGang 0) = true ∧ g.claimed (uGang 0) = false ∧ g.callWaits 0x0012 0 = false ∧
      g.unitBusy (uGang 0) = false ∧ d.unitBusy (uGang 0) = false := by
  decide +kernel

theorem wit_ToeVectorAndPecCallsComplete :
    let s := claimedOn (uTE 0)
    let v := claimedOn (uVE 0)
    let r := State.reset
    admitsB s 0x100 (uTE 0) 0x104 (w32 0) false = true ∧ s.teBusy 0 = false ∧ s.feedTaken 0 0 = false ∧ s.exists? (uPP 0) = true ∧
      unitClass (uTE 0) = some .te ∧ r.claimed (uTE 0) = false ∧ fmtIsInt 0 = true ∧ zpOk 0 0 = true ∧
      admitsB v 0x100 (uVE 0) 0x104 (w32 1) false = true ∧ v.sbCluster 0 = false ∧ (tableOf 3).length ≠ 0 ∧
      unitClass (uVE 0) = some .ve ∧ r.claimed (uVE 0) = false ∧ r.exists? (uVE 0) = true := by
  decide +kernel

theorem wit_ParameterInstructions :
    let x := Ctx.general 0
    let y := Ctx.gang 0
    let g : State := { atWord y 0x0C00000000000003 with gangs := [⟨0, 3, .formed⟩] }
    let ws : List Dword := [0x0000000000000000, 0x0203000000001000, 0x0300000000000001, 0x0400004000000100, 0x0500000000002000,
      0x0600000100000010, 0x0700000000000040, 0x0800000000000005, 0x0900000000000007, 0x0A00000000000009, 0x0D00000000000000, 0x8080000000004321]
    ws.all (fun w => readyB (atWord x w) x (runOf x [w]) w) = true ∧
      readyB g y (runOf y [0x0C00000000000003]) 0x0C00000000000003 = true := by
  decide +kernel

theorem wit_OrderStalls :
    let x := Ctx.general 0
    let ws : List Dword := [0x7070000700000000, 0x7070000700000001, 0x7170000700000000, 0x7170000700000001, 0x0B00000000000001]
    let q : State := { queued with ctxs := [runOf x []] }
    ws.all (fun w => readyB { owned with ctxs := [runOf x [w]] } x (runOf x [w]) w) = true ∧ q.mark 7 = 0 ∧ (runOf x []).issued = [] ∧
      q.inFlight x none = false := by
  decide +kernel

theorem wit_UnitInstructionsIssue :
    let x := Ctx.general 0
    let w : Dword := 0x3230000000000000
    let d : TD := ⟨0x1000, 10, 0, false, false, 0, 4, 0, 0, 1, 1, 0⟩
    let r := { runOf x [w] with tds := List.replicate 16 d }
    let s : State := { State.reset with ctxs := [r] }
    let b := { r with issued := [begun r 5 w] }
    let t : State := { s with ctxs := [b] }
    readyB s x r w = true ∧ (r.issued.filter (·.unit = s.chooseUnit r w)).length < 4 ∧ readyB t x b w = true ∧ unitOf w = 5 ∧
      b.current 5 = some (begun r 5 w) ∧ (b.issued.filter (·.unit = unitOf w)).length < 4 := by
  decide +kernel

theorem wit_OrderActs :
    let x := Ctx.general 0
    let ws : List Dword := [0x7270000500000001, 0x7370000500000001]
    let s : Dword → State := fun w => { owned with ctxs := [runOf x [w]] }
    ws.all (fun w => readyB (s w) x (runOf x [w]) w) = true ∧ (s 0).inFlight x none = false ∧ (s 0).isCreditMark 5 = false := by
  decide +kernel

theorem wit_MarkValues :
    let s := State.reset
    let m := 65535
    m < 65536 ∧ m ∉ s.wdTaps ∧ s.qcache = [] ∧ (∀ k ∈ s.watches, k.mark ≠ m) ∧ s.isCreditMark m = false := by
  decide +kernel

theorem wit_LockPassages :
    let x := Ctx.general 0
    let r := runOf x [0]
    let l : LockX := ⟨x, 0x10, 0, 0, 0, [0], 0, false, 0, []⟩
    let s : State := { State.reset with ctxs := [r], locks := [l] }
    let t : State := { s with locks := [{ l with reserved := 1 }] }
    s.run x = some r ∧ s.locks.find? (fun k => !k.isOpen) = some l ∧ l.reserved < l.banks.length ∧ t.run x = some r ∧
      t.locks.find? (fun k => !k.isOpen) = some { l with reserved := 1 } ∧ [0].length ≤ 1 ∧ s.held = [] := by
  decide +kernel

theorem wit_EntryIsRead :
    let s := queued
    let x := slot5
    let e : List Word := List.replicate 16 0
    s.slot 5 = some x ∧ s.reservOf 5 = none ∧ qEnabled x.words = true ∧ qHalted x.words = false ∧ x.running = none ∧ x.entry = none ∧
      x.deleting = false ∧ x.store = [] ∧ qXlate x.words = false ∧ regionOf s.part (qRing x.words) = .lpddr ∧
      fwRegion s.part (qRing x.words) = false ∧ s.fwAllows (spIni 5) (qRing x.words) false = true ∧
      bytesWords (s.bytes (qRing x.words) 64) = e ∧ qHead x.words = 0 := by
  decide +kernel

theorem wit_LowestVirtualTimeWins :
    let x := Ctx.general 0
    let e : List Word := [0, 0, 0, 0, 0, 0, 0, 0, 0, 0x10, 0, 0, 0, 0, 0, 0]
    let y : QSlot := { slot5 with words := setNth desc5 2 0x12104, entry := some e, held := true, readyAt := some 0 }
    let s : State := { owned with qcache := [y] }
    s.choose x = some y := by
  decide +kernel

theorem wit_CommandsProgress :
    let x := Ctx.general 0
    let r := runOf x [0]
    let s : State := { State.reset with ctxs := [r] }
    let w : Dword := 0x3230000000000000
    let b := { r with issued := [begun r 2 w] }
    let t : State := { s with ctxs := [b] }
    let m := { r with stall := some (.mark 5 0 false true) }
    s.run x = some r ∧ t.run x = some b ∧ b.current 2 = some (begun r 2 w) ∧ t.inFlight x (some 0) = false ∧
      ({ s with ctxs := [m] } : State).run x = some m ∧ r.ended = false ∧ r.xlStalled = false := by
  decide +kernel

theorem wit_EpilogueEnds :
    let x := Ctx.general 0
    let r := { runOf x [] with entry := List.replicate 16 0 }
    let y : QSlot := { slot5 with running := some x }
    let s : State := { State.reset with ctxs := [r], qcache := [y] }
    s.run x = some r ∧ s.allDone r = true ∧ r.fault = 0 ∧ r.lock = none ∧ eDoneOp r.entry = 0 ∧ (s.tearDown x).slot 5 = some y := by
  decide +kernel

theorem wit_CompletionRecord :
    let s := queued
    let x := slot5
    let e : List Word := List.replicate 16 0
    let a := qComp x.words + 32 * qCompTail x.words
    s.slot 5 = some x ∧ qXlate x.words = false ∧ eNotify e = false ∧ x.reload = false ∧ regionOf s.part a = .lpddr ∧
      fwRegion s.part a = false ∧ s.fwAllows (spIni 5) a true = true ∧ desc5.length = 16 ∧ qOrder desc5 ≤ 20 ∧ qCompOrder desc5 ≤ 20 := by
  decide +kernel

theorem wit_EventRecords :
    let s := client1
    let a := s.cEventAddr 1
    let f : State := s.setClientX 1 { s.clientX 1 with lost := 1 }
    s.clientValid 0 = false ∧ s.clientValid 1 = true ∧ (s.clientX 1).lost = 0 ∧ 1 ≤ s.eventRoom 1 ∧ regionOf s.part a = .lpddr ∧
      fwRegion s.part a = false ∧ s.fwAllows 0x50 a true = true ∧ (f.clientX 1).lost ≠ 0 := by
  decide +kernel

theorem wit_ClientCalls :
    let s := client1
    let t := claimedOn uSched
    s.clientOf 0x100 = some 1 ∧ s.clientOf 0x101 ≠ some 1 ∧ s.claimed uSched = false ∧ t.claimed uSched = true ∧
      eventRingOk s.part 0x100020000 4 = true ∧ s.vectorOk 0x101 0 0 0 = true ∧ s.clientValid 0 = false ∧
      admitsB t 0x100 uSched 0x240 5 false = true ∧ t.clientCheck 0 0 5 = none ∧ (t.clientCheck 0 0 0).isSome = true := by
  decide +kernel

theorem wit_MarksFromOutside :
    let s := client1
    s.fwAllows 0x100 0x1000003C true = true ∧ s.iniMayMark 0x100 15 = true ∧ s.iniMayMark 0x100 16 = false ∧
      admitsB s 0x100 uMarks 0x104 1 true = true ∧ s.fld (wSel 0x100) 0x100 15 0 = 0 ∧ s.claimed uMarks = false ∧
      s.clientOf 0x100 = some 1 ∧ s.watches = [] := by
  decide +kernel

theorem wit_QueueCalls :
    let s := owned
    let k : State := { s with reservs := [⟨5, .realTime 0, 16, 0, false, true, false⟩], claims := [⟨uTC 0, 0x101, []⟩] }
    let c := claimedOn uSched
    admitsB s 0x100 uSched 0x20C 5 true = true ∧ admitsB c 0x100 uSched 0x210 5 false = true ∧ c.slot 5 = none ∧
      s.ownsQueue 0x100 5 = true ∧ s.ownsQueue 0x101 5 = false ∧ s.queueMade 5 = true ∧ s.claimed uSched = false ∧
      c.claimed uSched = true ∧ s.callWaits 0x0107 5 = false ∧ (s.slot 5).isSome = true ∧ s.reservOf 5 = none ∧ s.queueParcels 5 = [] ∧
      s.reservClaimed 5 = false ∧ k.reservClaimed 5 = true ∧ k.ownsQueue 0x100 5 = true ∧ ((s.loadQueue 5).slot 5).map (·.halting) = some false := by
  decide +kernel

theorem wit_SameBitsMode :
    let s := State.reset
    let c := claimedOn uDevctl
    let p := (c.sbRequest true)
    admitsB c 0x100 uDevctl 0x400 1 false = true ∧ c.sbPending = false ∧ c.sbEn = false ∧ c.sbActive = false ∧
      s.fwAllows 0x100 (regAddr uDevctl 0) true = true ∧ s.claimed uDevctl = false ∧ p.sbEn = true := by
  decide +kernel

theorem wit_RegisterWrites :
    let s := claimedOn (uTile 0 0)
    let u := uTile 0 0
    storesOnly u = true ∧ procAt u 0x100 = none ∧ s.exists? u = true ∧ s.fwAllows 0x100 (regAddr u 0x100) true = true ∧
      s.mayWrite 0x100 u = true ∧ s.mayWrite 0x101 u = false ∧ findRow u 0x200 = none ∧ findRow u 0x100 ≠ none ∧
      s.exists? (uGang 0) = false := by
  decide +kernel

theorem wit_StatusReads :
    let s := State.reset
    let t : State := (s.wr uRing 0x200 (w32 0x200))
    s.millMay 0x100 false none = true ∧ t.exists? uRing = true ∧ s.exists? uRing = false ∧ s.millMay 0x100 false (some 95) = true ∧
      unitClass (uAX 0) = some .ax ∧ s.exists? (uAX 0) = true ∧ unitClass (uBG 11) = some .bg ∧ s.exists? (uBG 11) = true ∧
      unitClass (uPP 0) = some .pp ∧ s.ppMay 0x100 0 false = true ∧ unitClass (uCL 0) = some .cl ∧
      s.fwAllows 0x100 (regAddr (uCL 0) 0) false = true ∧ unitClass (uVat 0) = some .vat ∧
      s.vatMay 0x100 0 false (s.jobClient 0) = true := by
  decide +kernel

theorem wit_StateReads :
    let s := State.reset
    let p := parcel0
    s.exists? (uTC 0) = true ∧ s.onParcel 0x100 0 = false ∧ p.onParcel 0x100 0 = true ∧ (arg [0, 8] 1 ≤ 8 ∧ 8 < arg [0, 9] 1) := by
  decide +kernel

theorem wit_ParcelWrites :
    let s := claimedOn (uBG 0)
    let v := (parcel0 : State)
    let c : State := { v with claims := [⟨uBG 0, 0x100, []⟩] }
    admitsB s 0x100 (uBG 0) (pclOff 1023) 0x80000000 false = true ∧ s.pclPinned 1023 = false ∧ s.pclValid 1023 = false ∧
      s.pclKind 1023 = 0 ∧ s.overlaps 0 1 = false ∧ s.deadIn 0 1 = false ∧ admitsB c 0x100 (uBG 0) (pclOff 0) 0 false = true ∧
      c.pclValid 0 = true ∧ c.pclPinned 0 = false ∧ c.mayInvalidate 0 = true ∧ admitsB s 0x100 (uBG 0) (pclOff 0 + 4) 0 false = true ∧
      admitsB s 0x100 (uBG 0) (pclOff 0 + 8) 1 false = true ∧ admitsB s 0x100 (uBG 0) (pclOff 0 + 28) 0 false = true := by
  decide +kernel

theorem wit_ParcelCalls :
    let s := State.reset
    let v := parcel0
    let z : State := v.setPclX 0 { v.pclX 0 with zeroing := some 3 }
    let d : State := v.setPclX 0 { v.pclX 0 with deleting := true }
    let args : List Word := [0, 1, 0, 0, 1, 1, 0, 0xC0000100, 0, 0, 0, 0]
    s.pclValid 0 = false ∧ ((List.range 4).map fun i => nth args (7 + i) 0).any rightBad = false ∧
      ((List.range 4).map fun i => nth args (7 + i) 0).any (rightAdmits · 0x100) = true ∧ s.foreignClaim 0x100 (uBG 0) = false ∧
      s.overlaps 0 1 = false ∧ s.deadIn 0 1 = false ∧ (z.pclX 0).zeroing = some 3 ∧ (d.pclX 0).deleting = true ∧
      d.mayInvalidate 0 = true ∧ v.onParcel 0x100 0 = true ∧ v.onParcel 0x101 0 = false ∧ v.pclPinned 0 = false ∧
      v.callWaits 0x0201 0 = false ∧ s.exists? (uBG 11) = true ∧ s.claimed (uBG 11) = false ∧ s.callWaits 0x0208 511 = false ∧
      s.copies.any (·.1 = 511) = false ∧ (s.spareFor 0).isSome = true := by
  decide +kernel

theorem wit_QueuesAndReservations :
    let s := client1
    let o := owned
    let r : Reserv := ⟨5, .realTime 0, 16, 0, false, false, false⟩
    let t : State := { o with reservs := [r] }
    reservCtx (uTC 0) = some (.realTime 0) ∧ o.ownsQueue 0x100 5 = true ∧ o.exists? (uTC 0) = true ∧ o.claimed (uTC 0) = false ∧
      o.claimed uSched = false ∧ o.reservOf 5 = none ∧ o.reservs = [] ∧ 0 ≤ capPoint o.part o.capW ∧ (o.loadQueue 5).pinnedNow < 1024 ∧
      qXlate (o.qWords 5) = false ∧ t.reservs.find? (fun r => r.queue = 5 && !r.active && !r.releasing) = some r ∧
      s.clientOf 0x100 = some 1 ∧ s.claimed uSched = false := by
  decide +kernel

theorem wit_WeightsAndRinds :
    let v := parcel0
    let s := State.reset
    let l : WLoad := ⟨0, 0x100000000, 0, 1, 0x100, 0, false⟩
    let w : State := { v with loads := [l] }
    v.weightsFull 0 = false ∧ v.ownsWeights 0x100 0 = true ∧ v.ownsWeights 0x101 0 = false ∧ v.claimed uDevctl = false ∧ v.pclRunning 0 = false ∧
      owned.ownsQueue 0x100 5 = true ∧ owned.ownsQueue 0x101 5 = false ∧ w.loads.find? (·.parcel = 0) = some l ∧ w.pclValid 0 = true ∧
      s.mayRead 0x100 0x100000000 64 = true ∧ inRegion s.part 0x100000000 1 (fun r => r = .lpddr || r = .host) = true := by
  decide +kernel

theorem wit_PolderMemory :
    let s := parcel0
    let b : State := { s with banks := [(0, { s.bank 0 with st := .locked, holder := some (1, 0x11) })] }
    (∀ r ∈ rowsOf 0 64, s.hazOn (s.groupOf (bankOf r)) = false) ∧ reqIni 0x100 = 0x100 ∧ s.barred 0x100 0 64 = false ∧
      s.polderAllowed 0x100 0 64 false = true ∧ (s.polRead 0x100 0 64).2.1 = 0 ∧
      (s.polWrite 0x100 0 [1, 2, 3, 4]).2 = 0 ∧ s.polderAllowed 0x101 0 64 false = false ∧ s.polderAllowed 0x101 0 4 true = false ∧
      b.barred 0x10 0 64 = true ∧ (iniCtx 0x10).isSome = true := by
  decide +kernel

theorem wit_PolderEvents :
    let s := parcel0
    let w : State := s.setFlag (uBG 0) 0x100 30 true
    let h : State := { s with banks := [(0, { s.bank 0 with st := .pass, holder := some (1, 0x100) })] }
    let c : State := { s with copies := [(0, 40)] }
    s.isSevered 31 0x100 = false ∧ widthOk 0 4 = true ∧ s.polderAllowed 0x100 0 4 false = true ∧ s.asleepIn 0 4 = [] ∧
      s.barred 0x100 0 4 = false ∧ iniCtx 0x100 = none ∧ w.flag (uBG 0) 0x100 30 = true ∧ w.domainOff (uBG 0) = false ∧
      s.flag (uBG 11) 0x100 31 = false ∧ s.lockIn 11 = false ∧ s.rtBusy = false ∧ (s.bank 511).st ≠ .locked ∧
      (s.bank 511).holder = none ∧ (h.bank 0).holder = some (1, 0x100) ∧ s.maintMay 0 = true ∧ c.copies.find? (·.1 = 0) = some (0, 40) ∧
      s.lockHere 0 = none ∧ s.forcedNow 0 (s.bank 0) [] = [] := by
  decide +kernel

theorem wit_MillInstructions :
    let s : Dword → State := fun w => ({ State.reset.setState (uMC 0) 0 with lcores := [(0, 0)] } : State).setLoop 0 { MillLoop.init with main := [w] }
    let ws : List Dword := [0xB000000000000000, 0xB100000000000000, 0xB200000000000000, 0xB300000000000000, 0xB400000000000000, 0xB500000000000000, 0xB600000000000000,
      0xB700000000000000, 0xB800000000000000, 0xB900000000000000, 0xBA00000000000000, 0xBB00000000000000, 0xBC00000000000000]
    ws.all (fun w => ((s w).lcores.find? (·.1 = 0) = some (0, 0) : Bool) && nth ((s w).lawOf 0) ((s w).loop 0).pos 0 = w && ((s w).coreRuns 0)) = true := by
  decide +kernel

theorem wit_MillEvents :
    let s := State.reset
    let e : State := (s.setFld uMill (encOff 31) 31 30 1)
    let t : State := (s.setFld uMill (encOff 31) 31 30 2)
    let f : State := t.setEncX 31 { t.encX 31 with reads := [7] }
    let g : State := e.setFld uMill (encOff 31) 15 8 7
    let p : State := s.setFlag uMill (0x1400 + 8 * 7) 31 true
    let a : State := s.setFlag uMill (0x2200 + 32 * 15) 31 true
    let l : State := { s with lcores := [(0, 0)] }
    s.lcores.any (·.1 = 2) = false ∧ (s.setState (uMC 2) 0).coreRuns 2 = true ∧ (s.loops.map (·.1)) = [] ∧
      l.lcores.any (·.1 = 0) = true ∧ e.encMode 31 = 1 ∧ e.encFilter 31 = 0 ∧ (e.encX 31).wait = [] ∧ 0 < g.encFilter 31 ∧ (g.encX 31).wait = [] ∧ 2 ≤ f.encMode 31 ∧ (f.encX 31).reads = [7] ∧
      p.flag uMill (0x1400 + 8 * 7) 31 = true ∧ a.flag uMill (0x2200 + 32 * 15) 31 = true ∧
      (List.range 3).filter (fun k => s.coreOf k = 0) = [0] := by
  decide +kernel

theorem wit_MillCommands :
    let s := claimedOn uMill
    let e : State := s.setFlag (wLoop 95) 0 31 true
    let r := State.reset
    let g := r.setFlag (wLoop 95) 0 31 true
    admitsB s 0x100 uMill 0x22C (w32 (1 * 2 ^ 29 + 95)) false = true ∧ s.loopEn 95 = false ∧ s.enableFault 95 ≠ OK ∧ e.loopEn 95 = true ∧
      admitsB s 0x100 uMill 0x22C (w32 (4 * 2 ^ 29 + 95)) true = true ∧ admitsB s 0x100 uMill 0x238 (w32 (2 ^ 31 + 95)) false = true ∧
      admitsB s 0x100 uMill 0x244 5 true = true ∧ s.mayWrite 0x100 uMill = true ∧ r.millMay 0x100 true (some 95) = true ∧
      r.claimed uMill = false ∧ r.callWaits 0x0704 95 = false ∧ r.encClash 95 3 = false ∧ g.loopEn 95 = true ∧ r.encReaders 31 = [] ∧ encCfgOk 0 = true ∧
      tbCfgOk 2 = true ∧ pwmCfgOk 47 0 = true ∧ r.pwmOwner 47 = none ∧ r.cmpOwner 15 = 0 ∧ r.cmpOf 3 7 = none ∧
      r.callWaits 0x070A 103 = false := by
  decide +kernel

theorem wit_IncrementRule :
    let s := claimedOn uGauge
    s.exists? uGauge = true ∧ s.fwAllows 0x100 (regAddr uGauge 0x110) true = true ∧ s.mayWrite 0x100 uGauge = true ∧ s.pending = [] ∧
      s.gauge.step = none ∧ s.gauge.set = none ∧ s.adjLeft = 0 ∧ s.fine + (s.rd uGauge 0x110).toNat < 2 ^ 48 * (nsPerS * 2 ^ 28) := by
  decide +kernel

theorem wit_GaugeTime :
    let s := claimedOn uGauge
    let r := State.reset
    let a : State := { r.wr uGauge 0x11C 2 with gauge := { r.gauge with slewTicks := 512 } }
    let p : State := { r.setFld uGauge 0x100 31 30 1 with ptp := ⟨true, [], 0, 0, 0, 0, 0⟩ }
    a.adjLeft ≠ 0 ∧ 512 ≤ a.gauge.slewTicks ∧ admitsB s 0x100 uGauge 0x118 (w32 (1 * 2 ^ 30)) false = true ∧
      admitsB s 0x100 uGauge 0x118 (w32 (3 * 2 ^ 30)) false = true ∧
      admitsB s 0x100 uGauge 0x118 (w32 (2 * 2 ^ 30 + 2 ^ 29)) false = true ∧ s.stepBlocked false = false ∧
      admitsB s 0x100 uGauge 0x12C (w32 (2 ^ 31)) false = true ∧ r.refLost = false ∧ p.ptp.on = true ∧ p.gSync = 1 ∧
      r.claimed uGauge = false := by
  decide +kernel

theorem wit_GaugeUnits :
    let s := claimedOn uGauge
    let r := State.reset
    let c : State := (r.setFlag uGauge (cmpOff 15) 31 true).setCmpX 15 ⟨0, 0, true, false⟩
    let p : State := { r with pulses := [7] }
    let k : State := r.wr uGauge (capOff 7) 0x84000000
    c.cmpEn 15 = true ∧ (c.cmpX 15).armed = true ∧ (c.cmpX 15).next ≤ c.nowNs ∧ admitsB s 0x100 uGauge (cmpOff 15 + 12) 0 false = true ∧
      s.cmpOwner 15 ≠ 2 ∧ ownerOk 3 7 15 = true ∧ admitsB s 0x100 uGauge 0x138 (w32 (3 * 2 ^ 30 + 7 * 2 ^ 26 + 15)) false = true ∧
      p.pulses.contains 7 = true ∧ k.flag uGauge (capOff 7) 31 = true ∧ k.fld uGauge (capOff 7) 27 26 = 1 ∧ (k.capFifo 7).length < 16 ∧
      s.fwAllows 0x100 (regAddr uGauge (capOff 7 + 4)) false = true ∧ r.claimed uGauge = false ∧ cmpPeriodOk 0 = true := by
  decide +kernel

theorem wit_PortsAndCan :
    let s := State.reset
    let p : State := s.setFlag (uEP 3) 0x100 31 true
    let b : State := { s with ethBusy := [⟨3, 0, 0, [], false⟩] }
    let c := claimedOn (uCN 3)
    let o : State := (s.setFlag (uCN 3) (objOff 511 + 4) 29 true).setFlag (uCN 3) (objOff 511 + 4) 27 true
    let e : State := s.setFlag (uCN 3) 0x100 31 true
    let f : State := s.setCanX 3 { CanX.init with offer := some (511, 0, []) }
    let y : QbvX := { s.qbvX 3 with oper := [0xFF00000A], cycle := 10, base := 0, since := 0 }
    let q : State := s.setQbvX 3 { y with swap := true }
    p.flag (uEP 3) 0x100 31 = true ∧ b.ethBusy.any (·.port = 3) = true ∧ s.flag (uEP 3) 0x104 31 = false ∧
      (s.setFlag (uEP 3) 0x200 31 true).qbvOn 3 = true ∧ (q.qbvX 3).swap = true ∧ y.since ≤ 7 ∧ y.cycle ≠ 0 ∧ 0 < y.cut.length ∧
      (7 - y.base) % y.cycle < (y.cut.take 1).foldl (fun a e => a + e.2) 0 ∧ s.claimed (uEP 3) = false ∧ client1.clientValid 1 = true ∧
      admitsB c 0x100 (uCN 3) 0x110 0x20000000 false = true ∧ s.canState 3 = 0 ∧ o.objPending 3 511 = true ∧
      bit (o.objCtl 3 511) 27 = true ∧ e.canEn 3 = true ∧ e.canState 3 < 2 ∧ (f.canX 3).offer = some (511, 0, []) ∧
      s.claimed (uCN 3) = false ∧ s.canEn 3 = false ∧ s.idTaken 3 511 0 = false ∧ s.callWaits 0x090C 3 = false := by
  decide +kernel

theorem wit_RingTransactions :
    let s : State := (State.reset.wr uRing 0x200 (w32 0x200)).wr uRing 0x208 (w32 0x100000)
    let h : AxHead := ⟨3, 0, 0, 0, [], 0, 1, 5, 0, []⟩
    let g : RemGrant := ⟨1, 5, 0, 4, 0, 0⟩
    let t : RemTx := ⟨2, 1, 0x10, 9, none, 9, 0, 0⟩
    let u : State := { s with rtx := [t] }
    (s.taken h 2 []).2.isSome = true ∧ (s.taken h 2 []).1.exists? uRing = true ∧ (s.taken h 2 []).1.ringPos = 0 ∧
      (s.taken h 2 []).1.ringMember 1 = true ∧ (s.taken { h with seq := 5 } 2 []).2 = none ∧
      (s.taken h 2 []).1.markCause 15 false = 0 ∧ (s.taken h 2 []).1.markCause 16 false ≠ 0 ∧ h.passed = [] ∧ s.behind 1 5 0 = false ∧
      ({ s with held := [⟨0x39, 30, 0, 0, none, none, false, some (1, 5, 3), [(0, 4)], none, []⟩] } : State).behind 1 5 4 = true ∧ g.kib = 4 ∧
     
      u.rtx.find? (fun t => t.pos = 1 && t.stream = 0x10 && t.tag = 9) = some t := by
  decide +kernel

theorem wit_RingLinks :
    let s := State.reset
    let a : State := s.setFlag (uAX 0) 0x104 0 true
    let t : State := a.setAxState 0 1
    let f : State := { s with ring := { s.ring with form := some [1, 2, 0, 0, 0, 0] } }
    let r : State := s.wr uRing 0x200 (w32 0x200)
    let d : State := { r with ring := { r.ring with dissolving := true } }
    (s.link 3).drop = false ∧ s.ring.form = none ∧ t.flag (uAX 0) 0x104 0 = true ∧ t.axState 0 = 1 ∧ t.goodLanes 0 0x0F = [0, 1, 2, 3] ∧
      t.goodLanes 0 0x07 = [0, 1, 2] ∧ (t.link 0).replay = [] ∧ f.ring.form = some [1, 2, 0, 0, 0, 0] ∧ s.exists? uRing = false ∧
      s.claimed (uAX 0) = false ∧ s.claimed (uAX 1) = false ∧ r.exists? uRing = true ∧ r.claimed uRing = false ∧ r.ringQuiet = true ∧
      d.ring.dissolving = true ∧ unitClass (uAX 3) = some .ax ∧ s.exists? (uAX 3) = true ∧ s.axCfgOk 3 1 255 15 1 1 = true := by
  decide +kernel

theorem wit_VatCommands :
    let s := claimedOn (uVat 1)
    let r := State.reset
    let l : State := (r.setFlag (uVat 1) 0x108 0 true).setVat 1 { r.vat 1 with live := { (r.vat 1).live with frame := some 0 } }
    let j : State := { r with claims := [⟨uVat 1, 0x100, []⟩] }
    admitsB s 0x100 (uVat 1) 0x108 0 false = true ∧ r.flag (uVat 1) 0x108 0 = false ∧ l.flag (uVat 1) 0x108 0 = true ∧
      ((l.vat 1).live.frame).isSome = true ∧ admitsB j 0x100 (uVat 1) 0x118 1 false = true ∧ r.jobOn 1 = false ∧
      unitClass (0x90 + 1) = some .vat ∧ r.exists? (0x90 + 1) = true ∧ r.vatMay 0x100 1 true (r.jobClient 1) = true ∧
      r.claimed (0x90 + 1) = false ∧ r.fwAllows 0x100 (regAddr (uVat 1) 0) true = true ∧
      r.sbEn = false := by
  decide +kernel

theorem wit_PressCommands :
    let s := State.reset
    let e : State := (s.setFlag (uCL 7) 0x100 31 true)
    let b : State := e.wr (uCL 7) 0x108 0x8F000000
    let c := claimedOn (uPP 15)
    let k := claimedOn (uCL 7)
    let x : PpX := { s.pp 15 with run := 2, inFrame := true }
    let i : State := s.setPp 15 x
    let q : SenJob := ⟨15, ⟨1, 0, [], false, false, false, false⟩, 0, false⟩
    let m : State := s.setJobs 7 [q]
    let o : State := s.setState (ppPx 15) 0
    let d : State := (o.setPp 15 { x with drained := true }).setState (uPP 15) 1
    e.flag (uCL 7) 0x100 31 = true ∧ e.streamOf 7 15 = none ∧ (b.streamOf 7 0).isSome = true ∧
      admitsB c 0x100 (uPP 15) 0x208 2 false = true ∧ (c.pp 15).desc = [] ∧ admitsB k 0x100 (uCL 7) 0x108 0 false = true ∧
      k.streamBad 7 0 0 = OK ∧ (i.pp 15).run = 2 ∧ (i.pp 15).inFrame = true ∧ m.jobsOf 7 = [q] ∧ unitClass (0xA0 + 15) = some .pp ∧
      s.exists? (0xA0 + 15) = true ∧ s.ppMay 0x100 15 true = true ∧ s.claimed (0xA0 + 15) = false ∧ s.boundTo 15 = none ∧
      s.callWaits 0x0602 15 = false ∧ s.ppClosed 15 = true ∧ o.ppClosed 15 = false ∧ s.ppDrains 15 = false ∧ d.ppDrains 15 = true ∧ (d.pp 15).drained = true ∧
      d.ppClosed 15 = true ∧ d.ppDown 15 = false ∧ s.streamsClaimed 7 [] = false ∧ (s.candidate 15).isNone = true ∧ s.clCfgBad 7 0 = false ∧ clCfgOk 0 = true := by
  decide +kernel

theorem wit_WardenDecisions :
    let s : State := (State.reset.setState (uWP 0) 0).setState (uWP 1) 0
    let r := s.setFld uWarden 0x200 31 29 1
    let t : State := r.setFlag uWarden (taskOff 15) 31 true
    s.pairRuns = true ∧ s.wd.toSafe = false ∧ s.wdState = 0 ∧ r.wdState = 1 ∧ r.pairRuns = true ∧ s.wpRuns 1 = true ∧
      s.taskOpen 15 = false ∧ t.taskOpen 15 = true ∧ s.standbySynced = false ∧ (s.setFlag uWarden 0x200 26 true).standbySynced = true ∧
      s.wd.failing = [] ∧ State.reset.pairRuns = false ∧ State.reset.wpRuns 1 = false := by
  decide +kernel

theorem wit_WardenWork :
    let s : State := State.reset.setState (uWP 0) 0
    let t : State := s.setWdX fun x => { x with work := [16, 15], intervals := [(true, true)], armed := true }
    let x : TestX := { s.testX (uTC 0) with running := true }
    let u : State := s.setTestX (uTC 0) x
    let g : State := t.setFlag uWarden (cmpEOff 15 + 4) 31 true
    let o : State := s.setFlag uWarden 0x210 31 true
    t.pairRuns = true ∧ (t.takeWork 16).2 = true ∧ (t.takeWork 15).2 = true ∧ t.wd.intervals ≠ [] ∧
      g.flag uWarden (cmpEOff 15 + 4) 31 = true ∧ g.wd.armed = true ∧ (u.testX (uTC 0)).running = true ∧ s.wd.withheld = false ∧
      s.sliceMay (uTC 0) = false ∧ g.gateOn = false ∧ o.gateOn = true ∧ o.gateMark = 0 ∧ 0 ∈ o.wdTaps ∧ o.wd.lastIn = 0 ∧
      0 < (s.setFld uWarden 0x230 7 0 4).fld uWarden 0x230 7 0 ∧ (u.injectedBit (uTC 0)).injected (uTC 0) 1 = (u, 0) := by
  decide +kernel

theorem wit_WardenCommands :
    let s := State.reset
    let f : State := ((s.setState (uWP 0) 0).setFld uWarden 0x200 31 29 3).setFlag uWarden 0x240 31 true
    let t : State := (s.setFlag uWarden (taskOff 15) 31 true).setFld uWarden (taskOff 15) 30 28 1
    let e : State := s.setFld uWarden 0x200 31 29 4
    let c : State := { s with claims := [⟨uWarden, 0x180, []⟩] }
    s.wdState = 0 ∧ s.armMask ≠ 0 ∧ f.wdState = 3 ∧ f.pairRuns = true ∧ f.wd.toSafe = false ∧ f.wd.behind = false ∧ f.failingNow = [] ∧ s.mayWrite 0x180 uWarden = false ∧ c.mayWrite 0x180 uWarden = true ∧
      admitsB s 0x180 uWarden 0x204 5 true = true ∧ admitsB c 0x180 uWarden 0x240 (w32 (2 ^ 31)) false = true ∧ c.wdOpen = true ∧
      t.taskOpen 15 = true ∧ t.fld uWarden (taskOff 15) 30 28 = 1 ∧ e.wdState = 4 := by
  decide +kernel

theorem wit_WardenConfiguration :
    let s := State.reset
    let r := s.setFld uWarden 0x200 31 29 1
    let c : State := { s with claims := [⟨uWarden, 0x180, []⟩] }
    s.wdOpen = true ∧ (c.mayWrite 0x180 uWarden = true ∧ c.wdOpen = true) ∧ r.wdOpen = false ∧ nth checkLowest 23 0 ≤ 3 ∧ s.flag uWarden 0x240 31 = false := by
  decide +kernel

theorem wit_HostPorts :
    let s := State.reset
    let u : State := s.setFlag uPcie 0x100 31 true
    let b : State := s.setFlag uTrust 0x104 31 true
    let c := claimedOn uPcie
    let g := claimedOn uDevctl
    s.linkUp = false ∧ u.linkUp = true ∧ (u.barAddr 0 (2 ^ 29 - 1)).isSome = true ∧ u.barAddr 0 (2 ^ 29) = none ∧ u.vfOn 32 = false ∧
      b.flag uTrust 0x104 31 = true ∧ s.flag uPcie 0x104 31 = true ∧ s.entryVec 0 2047 = some 2047 ∧
      admitsB c 0x100 uPcie (0x8000 + 16 * 2047 + 12) 0 false = true ∧ admitsB client1 0x101 uSched 0x20C 5 true = true ∧
      admitsB s 0x180 uDevctl 0x20C 1 true = true ∧ s.claimed uDevctl = false ∧ (g.claimOn uDevctl).map (·.ini) = some 0x100 := by
  decide +kernel

theorem wit_Mailbox :
    let s := State.reset
    let x : CallCtx := ⟨35, 1, 6⟩
    let c : PendCall := ⟨some x, 6, 0, some OK, []⟩
    let p : State := { s with pendCalls := [c] }
    let g : State := s.setFlag (wChan 35) 4 31 true
    let d : State := { s with doneFifo := [(35, 1, 6, OK)] }
    chanIni 35 = 0x1C0 ∧ s.mbBusy 35 = false ∧ g.mbBusy 35 = true ∧ s.mbNext = none ∧ p.pendCalls.find? (·.fin.isSome) = some c ∧
      d.doneFifo.find? (·.1 = 35) = some (35, 1, 6, OK) ∧ s.mbDiscard.contains 35 = false ∧ s.chanAllows 0x1C0 35 0 true = true ∧ s.chanAllows 0x100 0 4 false = true := by
  decide +kernel

theorem wit_Translations :
    let s := client1
    let c := claimedOn uXlate
    let i : State := { s with xlInval := some (false, false, 4095, 0, 1) }
    admitsB c 0x100 uXlate 0x118 (w32 (2 ^ 31 + 2 ^ 30)) false = true ∧ c.xlInval = none ∧ i.xlInval = some (false, false, 4095, 0, 1) ∧
      s.claimed uPcie = false ∧ s.flag uPcie 0x100 16 = false ∧ s.clientOf 0x100 = some 1 ∧ s.claimed uXlate = false ∧
      s.clientRuns 1 = false ∧ s.xlInval = none ∧ lwMost s.part < 128 := by
  decide +kernel

theorem wit_PowerStates :
    let s := claimedOn uPwr
    let r := State.reset
    let e : State := { r.setPwrState 4 with pwr := { r.pwr with waiting := [uSched] } }
    let d : State := r.setPwrState 4
    let x : State := r.setPwrState 5
    let z : State := (r.setPwrState 2).setFlag uPwr 0x11C 7 true
    let t : State := r.setPwrState 1
    admitsB s 0x100 uPwr 0x104 4 false = true ∧ s.pwrState = 0 ∧ e.pwrState = 4 ∧ e.pwr.waiting.contains uSched = true ∧
      d.pwr.waiting = [] ∧ x.pwrState = 5 ∧ z.flag uPwr 0x11C 7 = true ∧ z.pwrState = 2 ∧ (unitDomain (uTile 0 0)).isSome = true ∧
      t.pwrState = 1 ∧ r.claimed uPwr = false ∧ r.pwrBusy = false := by
  decide +kernel

theorem wit_SetPointsAndRates :
    let s := claimedOn uPwr
    let r := State.reset
    let t : State := { r with pwr := { r.pwr with step := some 1 } }
    admitsB s 0x100 uPwr 0x10C 5 false = true ∧ s.floorOf ≤ 5 ∧ admitsB s 0x100 uPwr 0x110 (w32 (ratedPower s.part 5)) false = true ∧
      ratedPower s.part 0 ≤ ratedPower s.part 5 ∧ t.pwr.step = some 1 ∧ r.claimed uPwr = false ∧ r.pwrBusy = false ∧
      ((r.setRateMon 7 ⟨0, true, true⟩).rateMon 7).first = true ∧ ((r.setRateMon 7 ⟨0, true, false⟩).rateMon 7).first = false := by
  decide +kernel

theorem wit_RootSlotRevocation :
    let s := State.reset
    let o : State := { s with otpRevoke := 7 }
    trustCaller 0x180 = true ∧ s.claimed uTrust = false ∧ s.otpRevoke < 16 ∧ s.revoked 3 = false ∧ s.signsLive 3 = false ∧
      s.revoked 0 = false ∧ o.revoked 3 = false ∧ (o.revoked 0 && o.revoked 1 && o.revoked 2) = true := by
  decide +kernel

theorem wit_TrustCommands :
    let s := State.reset
    let b : State := { s with boot := { s.boot with sdio := true } }
    trustCaller 0x181 = true ∧ trustCaller 0x101 = false ∧ s.claimed uTrust = false ∧ s.svn 7 < 64 ∧ s.otpUcal = none ∧ s.upd = none ∧
      kindUnit 1 0 = some (uMP 0) ∧ s.exists? (uMP 0) = true ∧ b.boot.sdio = true ∧ s.liveImages = [] ∧ s.calBytes = [] := by
  decide +kernel

theorem wit_FaultCommands :
    let s := State.reset
    let r := runOf (.general 0) []
    s.exists? (uTC 0) = true ∧ faultCodes.contains fPOLDER_UE = true ∧ faultClass fPOLDER_UE = 2 ∧ s.injected (uTC 0) 1 = (s, 0) ∧
      r.ended = false ∧ unitClass (uMP 1) = some .mp ∧ s.ustate (uMP 1) ≤ 2 ∧ s.exists? (uMCH 0) = true ∧ s.claimed uFault = false ∧
      s.wdState = 0 := by
  decide +kernel

theorem wit_IdleTicksGauge :
    let s := State.reset
    s.pending = [] ∧ s.gauge.step = none ∧ s.gauge.set = none ∧ s.adjLeft = 0 ∧ s.gauge.sec < 2 ^ 48 ∧ s.gauge.sub < nsPerS * 2 ^ 28 := by
  decide +kernel

/-- PressCommands, the bound and the unbound stream of a packet. -/
theorem wit_PressCommands_streams :
    let e : State := State.reset.setFlag (uCL 7) 0x100 31 true
    let b : State := e.wr (uCL 7) 0x108 0x8F000000
    (e.linkSees 7 15).streamOf 7 15 = none ∧ (b.linkSees 7 0).streamOf 7 0 = some 0 := by
  simp only [linkSees_streamOf]; decide +kernel

/-! ### Single steps and operations -/

/-- The hash and checks of R273, R337 and R353: SHA3-256 of the empty string, CRC-32 of the digits 1 to 9. -/
theorem test_hashes : sha3 [] = wordBytes [0xF8C6FFA7, 0x66D71EBF, 0x5647C151, 0x62D661A0, 0x4DFF80F5, 0xFA493BE4, 0x4B0AD882, 0x4A43F880] ∧
    crc32 ([0x31, 0x32, 0x33, 0x34, 0x35, 0x36, 0x37, 0x38, 0x39] : List Byte) = 0xCBF43926 := by decide +kernel
/-- R138: FP32 addition and the fused multiply-add; an invalid operation gives the canonical NaN. -/
theorem test_fp32 : fadd 0x3F800000 0x40000000 = 0x40400000 ∧ ffma 0x40000000 0x40400000 0x3F800000 = 0x40E00000 ∧
    fadd 0x7F800000 0xFF800000 = 0x7FC00000 := by decide +kernel
/-- R357: the sRGB curve at 0, 512 ÷ 1,023 and 1 (0.73568 × 255 = 187.6). -/
theorem test_srgb : srgb8 0 = 0 ∧ srgb8 512 = 188 ∧ srgb8 1023 = 255 := by decide +kernel
/-- R405, R416: a cycle of 80 ns with entries of 32 ns and 24 ns: the second lasts to the boundary; class 1 is open in the first alone. -/
theorem test_qbv : let x : QbvX := { oper := [0x02000004, 0x01000003], cycle := 80, base := 100, since := 100, hold := 0, swap := false }
    x.place 131 = (0, 1) ∧ x.place 179 = (1, 1) ∧ x.place 180 = (0, 32) ∧ x.isOpen 1 131 = true ∧ x.isOpen 1 140 = false := by decide +kernel
/-- R256: an add wraps at 2 ^ 32. -/
theorem test_mark_add_wraps : ((State.reset.signalMark 9 0xFFFFFFFF).addMark 9 2).mark 9 = 1 := by decide +kernel
/-- R6: the second claim on a unit is CLAIMED. -/
theorem test_claim_taken : (match exec (.claimUnit 0x101 [0x10]) (claimedOn (uTC 0)) with | .next t => decide (t.call.status = CLAIMED) | _ => false) = true := by
  decide +kernel
/-- The queue's front command runs, the one behind it stays. -/
theorem test_front_runs : (match step { State.reset with pending := [.releaseUnit 0x100 [0x10], .readTime 0x100 []] } with
    | .next t => decide (t.pending = [.readTime 0x100 []] ∧ t.call.status = OK) | _ => false) = true := by decide +kernel
/-- R461, R462: a tick adds INCR, 2 ns. -/
theorem test_tick : (match step State.reset with | .next t => decide (t.gauge.sub = 0x20000000 ∧ t.nowNs = 2) | _ => false) = true := by decide +kernel
/-- StepKeepsCanonicalForm, FusesNeverCleared: the state after reset is canonical and steps. -/
theorem wit_StepKeepsCanonicalForm : State.reset.Canonical ∧ ∃ t, step State.reset = .next t := ⟨by unfold State.Canonical; decide +kernel, _, rfl⟩
theorem wit_FusesNeverCleared : ∃ t, step { State.reset with pending := [.revokeRootSlot 0x180 [0]] } = .next t := ⟨_, rfl⟩

end Sys2Proof.Tests
end

namespace Sys2Proof.Machine

/-! ## Unit numbers (R43) -/

/-- No unit has a number above those of R43. -/
theorem unitClass_eq_none {u : Nat} (h : 0x194 ≤ u) : unitClass u = none := by
  simp only [unitClass, Bool.and_eq_true, decide_eq_true_eq]
  repeat rw [if_neg (by omega)]

theorem unitClass_lt {u : Nat} {c : UClass} (h : unitClass u = some c) : u < 0x194 := by
  by_contra n
  rw [unitClass_eq_none (by omega)] at h
  cases h

/-! ## States that differ in their registers alone -/

/-- t is s but for its registers. -/
def ButRegs (s t : State) : Prop := { t with regs := s.regs } = s

theorem ButRegs.refl (s : State) : ButRegs s s := rfl

theorem ButRegs.with_regs (s : State) (x : List (Nat × Word)) : ButRegs s { s with regs := x } := rfl

theorem ButRegs.wr (s : State) (u off : Nat) (v : Word) : ButRegs s (s.wr u off v) := .with_regs s _

theorem ButRegs.trans {a b c : State} (h : ButRegs a b) (g : ButRegs b c) : ButRegs a c := by
  unfold ButRegs at h g ⊢
  exact (congrArg (fun x : State => { x with regs := a.regs }) g).trans h

theorem ButRegs.part {s t : State} (h : ButRegs s t) : t.part = s.part := by
  have := congrArg State.part h; exact this

theorem ButRegs.wide64 {s t : State} (h : ButRegs s t) (u off : Nat) : t.wide64 u off = s.wide64 u off := by
  have := congrArg (fun x : State => x.wide64 u off) h; exact this

/-- The same answer of a call, but for the registers. -/
theorem ButRegs.ret {s t : State} (h : ButRegs s t) (status : Nat) (ws : List Word) : ButRegs (s.ret status ws) (t.ret status ws) :=
  congrArg (fun x : State => x.ret status ws) h

theorem ButRegs.sameMemory {s t : State} (h : ButRegs s t) : SameMemory s t := by
  refine ⟨fun a => ?_, fun a => ?_⟩
  · have := congrArg (fun x : State => x.byte a) h; exact this
  · have := congrArg (fun x : State => x.hostByte a) h; exact this

theorem ButRegs.sameMarks {s t : State} (h : ButRegs s t) : SameMarks s t := fun m => by
  have := congrArg (fun x : State => x.mark m) h; exact this

theorem ButRegs.pclX {s t : State} (h : ButRegs s t) (p : Nat) : t.pclX p = s.pclX p := by
  have := congrArg (fun x : State => x.pclX p) h; exact this

theorem ButRegs.setPclX {s t : State} (h : ButRegs s t) (p : Nat) (x : PclX) : ButRegs (s.setPclX p x) (t.setPclX p x) :=
  congrArg (fun y : State => y.setPclX p x) h

/-! ## Claims (R6, R7) -/

/-- The test of a claim that ini holds on u itself. -/
theorem any_held_iff (s : State) (ini u : Nat) :
    (s.claims.any fun c => c.unit = u && c.ini = ini) = true ↔ s.Holds ini u := by
  simp [State.Holds]

/-- The test of another initiator's claim that nests with u either way. -/
theorem any_overlap_iff (s : State) (ini u : Nat) :
    (s.claims.any fun c => c.ini != ini && (s.inside c.unit u || s.inside u c.unit)) = true ↔ s.Overlap ini u := by
  simp [State.Overlap, State.inside]

theorem callClaim_held {s : State} {ini : Nat} {args : List Word} (e : s.exists? (arg args 0) = true)
    (h : s.Holds ini (arg args 0)) : callClaim ini args s = s.ret OK := by
  simp [callClaim, e, (any_held_iff s ini _).mpr h]

theorem callClaim_overlap {s : State} {ini : Nat} {args : List Word} (e : s.exists? (arg args 0) = true)
    (h : ¬s.Holds ini (arg args 0)) (o : s.Overlap ini (arg args 0)) : callClaim ini args s = s.ret CLAIMED := by
  rw [← any_held_iff, Bool.not_eq_true] at h
  simp [callClaim, e, h, (any_overlap_iff s ini _).mpr o]

/-- The claims after ini has taken unit u: its own claims nested in u go into the new one. -/
def State.claimsTaken (s : State) (ini u : Nat) : List Claim :=
  ⟨u, ini, (s.claims.filter fun c => c.ini = ini && s.inside c.unit u).flatMap fun c => c.unit :: c.taken⟩ ::
    s.claims.filter fun c => !(c.ini = ini && s.inside c.unit u)

theorem callClaim_taken {s : State} {ini : Nat} {args : List Word} (e : s.exists? (arg args 0) = true)
    (h : ¬s.Holds ini (arg args 0)) (o : ¬s.Overlap ini (arg args 0)) (w : uWarden ∈ s.up (arg args 0) 3 → ini = 0x180) :
    callClaim ini args s = { s.ret OK with claims := s.claimsTaken ini (arg args 0) } := by
  rw [← any_held_iff, Bool.not_eq_true] at h
  rw [← any_overlap_iff, Bool.not_eq_true] at o
  have d : (s.inside (arg args 0) uWarden && ini != 0x180) = false := by
    by_cases m : uWarden ∈ s.up (arg args 0) 3
    · simp [w m]
    · simp [State.inside, m]
  simp [callClaim, e, h, o, d, State.claimsTaken]

/-- A claim on another unit stays unless it went into the new one. -/
theorem mem_claimsTaken {s : State} {ini u : Nat} {c : Claim} (n : c.unit ≠ u) :
    c ∈ s.claimsTaken ini u ↔ c ∈ s.claims ∧ ¬(c.ini = ini ∧ u ∈ s.up c.unit 3) := by
  rw [State.claimsTaken, List.mem_cons, or_iff_right (fun x => n (by rw [x]))]
  simp [State.inside, imp_iff_not_or]

theorem callRelease_unclaimed {s : State} {ini : Nat} {args : List Word} (e : s.exists? (arg args 0) = true)
    (h : ∀ i, ¬s.Holds i (arg args 0)) : callRelease ini args s = s.ret OK := by
  have f : s.claims.find? (·.unit = arg args 0) = none := by
    rw [List.find?_eq_none]
    intro c m k
    exact h c.ini ⟨c, m, of_decide_eq_true k, rfl⟩
  simp [callRelease, e, f]

/-- The claim that a release finds on a claimed unit is one of its holders'. -/
theorem find_claim {s : State} {u : Nat} (h : ∃ i, s.Holds i u) :
    ∃ c, s.claims.find? (·.unit = u) = some c ∧ s.Holds c.ini u := by
  obtain ⟨i, c, m, k, -⟩ := h
  have found : (s.claims.find? (·.unit = u)).isSome = true := List.find?_isSome.mpr ⟨c, m, decide_eq_true k⟩
  obtain ⟨d, f⟩ := Option.isSome_iff_exists.mp found
  exact ⟨d, f, d, List.mem_of_find?_eq_some f, of_decide_eq_true (List.find?_some (p := fun c : Claim => decide (c.unit = u)) f), rfl⟩

theorem callRelease_foreign {s : State} {ini : Nat} {args : List Word} (e : s.exists? (arg args 0) = true)
    (h : ∃ i, s.Holds i (arg args 0)) (n : ¬s.Holds ini (arg args 0)) : callRelease ini args s = s.ret DENIED := by
  obtain ⟨c, f, hc⟩ := find_claim h
  have k : c.ini ≠ ini := fun x => n (x ▸ hc)
  simp [callRelease, e, f, k]

theorem callRelease_own {s : State} {ini : Nat} {args : List Word} (e : s.exists? (arg args 0) = true)
    (h : s.Holds ini (arg args 0)) (o : ∀ i, s.Holds i (arg args 0) → i = ini) :
    callRelease ini args s = { s.ret OK with claims := s.claims.filter (·.unit != arg args 0) } := by
  obtain ⟨c, f, hc⟩ := find_claim ⟨ini, h⟩
  simp [callRelease, e, f, o c.ini hc]

/-- Settles O1: one equation for each answer of the two calls, and what the new list of claims holds. -/
theorem claimAndRelease : Obligations.ClaimAndRelease := by
  unfold Obligations.ClaimAndRelease
  rintro ini args s u rfl e
  refine ⟨fun h => ?_, fun h o => ?_, fun h o w => ?_, fun h => ?_, fun h n => ?_, fun h o => ?_⟩
  · exact congrArg _ (callClaim_held e h)
  · exact congrArg _ (callClaim_overlap e h o)
  · exact Gives.of rfl (callClaim_taken e h o w) ⟨rfl, ⟨_, List.mem_cons_self, rfl, rfl⟩, fun _ n => mem_claimsTaken n⟩
  · exact congrArg _ (callRelease_unclaimed e h)
  · exact congrArg _ (callRelease_foreign e h n)
  · exact Gives.of rfl (callRelease_own e h o) ⟨rfl, fun c => by simp⟩

/-! ## Units that exist (R3, R43) -/

theorem mem_allUnits {s : State} {u : Nat} (h : s.exists? u = true) : u ∈ allUnits := by
  cases k : unitClass u with
  | none => simp [State.exists?, k] at h
  | some c => exact List.mem_filter.mpr ⟨List.mem_range.mpr (unitClass_lt k), by rw [k]; rfl⟩

theorem lt_of_mem_allUnits {u : Nat} (h : u ∈ allUnits) : u < 0x194 := List.mem_range.mp (List.mem_filter.mp h).1

theorem allUnits_sorted : allUnits.Pairwise (· < ·) := List.pairwise_lt_range.filter _

/-! ## Lists of units (R40) -/

/-- Word 3k + j of a list of triples is word j of triple k. -/
theorem nth_triples {α : Type} (f g h : α → Word) (l : List α) (k : Nat) (lt : k < l.length) :
    let ws := l.flatMap fun x => [f x, g x, h x]
    nth ws (3 * k) 0 = f l[k] ∧ nth ws (3 * k + 1) 0 = g l[k] ∧ nth ws (3 * k + 2) 0 = h l[k] := by
  induction l generalizing k with
  | nil => cases lt
  | cons x t ih =>
    cases k with
    | zero => simp [nth]
    | succ k =>
      have := ih k (by simpa using lt)
      simpa [nth, Nat.mul_add, Nat.add_right_comm _ 3] using this

theorem triples_length {α : Type} (f g h : α → Word) (l : List α) : (l.flatMap fun x => [f x, g x, h x]).length = 3 * l.length := by
  induction l with
  | nil => rfl
  | cons x t ih => simp [ih, Nat.mul_add]

/-- An element of a strictly rising list stands after as many elements as are smaller. -/
theorem index_of_rising {l : List Nat} (r : l.Pairwise (· < ·)) {u : Nat} (m : u ∈ l) :
    ∃ h : (l.filter (· < u)).length < l.length, l[(l.filter (· < u)).length] = u := by
  induction l with
  | nil => cases m
  | cons a t ih =>
    obtain ⟨ha, ht⟩ := List.pairwise_cons.mp r
    rcases List.mem_cons.mp m with rfl | mt
    · have : t.filter (· < u) = [] := by
        rw [List.filter_eq_nil_iff]
        intro x mx; simpa using (ha x mx).le
      simp [this]
    · obtain ⟨h, e⟩ := ih ht mt
      simp [ha u mt, h, e]

/-- The existing units from number a on, in order. -/
def State.unitsFrom (s : State) (a : Nat) : List Nat := allUnits.filter fun u => a ≤ u && s.exists? u

theorem mem_unitsFrom {s : State} {a u : Nat} : u ∈ s.unitsFrom a ↔ a ≤ u ∧ s.exists? u = true := by
  simp only [State.unitsFrom, List.mem_filter, Bool.and_eq_true, decide_eq_true_eq, and_iff_right_iff_imp]
  exact fun h => mem_allUnits h.2

theorem unitsFrom_below (s : State) (a u : Nat) :
    (s.unitsFrom a).filter (· < u) = allUnits.filter fun v => a ≤ v && v < u && s.exists? v := by
  rw [State.unitsFrom, List.filter_filter]
  congr 1; funext v
  cases decide (a ≤ v) <;> cases decide (v < u) <;> simp

/-- The words of call 0x0005: number, class and STATE of each unit. -/
def State.unitWords (s : State) (us : List Nat) : List Word :=
  us.flatMap fun u => [w32 u, w32 (bits (s.ucb u 0) 31 24), w32 (s.ustate u)]

theorem callListUnits_ok {s : State} {args : List Word} (h : arg args 1 ≤ 64) :
    callListUnits args s = s.ret OK (s.unitWords ((s.unitsFrom (arg args 0)).take (arg args 1))) := by
  rw [callListUnits, if_neg (by omega)]; rfl

theorem callListUnits_range {s : State} {args : List Word} (h : 64 < arg args 1) : callListUnits args s = s.ret RANGE := by
  rw [callListUnits, if_pos h]

/-- The number of an existing unit reads back from its word. -/
theorem toNat_unitWord {s : State} {u : Nat} (h : s.exists? u = true) : (w32 u).toNat = u := by
  have := lt_of_mem_allUnits (mem_allUnits h)
  rw [w32_toNat]; omega

/-- What a list of n existing units from a on holds: those units, and every one that fewer than n others precede. -/
theorem unitWords_spec (s : State) (a n : Nat) :
    let ws := s.unitWords ((s.unitsFrom a).take n)
    (∀ k, 3 * k < ws.length → s.exists? (arg ws (3 * k)) = true ∧ a ≤ arg ws (3 * k) ∧
      nth ws (3 * k + 1) 0 = w32 (bits (s.ucb (arg ws (3 * k)) 0) 31 24) ∧
      nth ws (3 * k + 2) 0 = w32 (s.ustate (arg ws (3 * k)))) ∧
    ∀ u, s.exists? u = true → a ≤ u → ((s.unitsFrom a).filter (· < u)).length < n →
      ∃ k, 3 * k < ws.length ∧ nth ws (3 * k) 0 = w32 u := by
  intro ws
  have len : ws.length = 3 * ((s.unitsFrom a).take n).length := triples_length ..
  refine ⟨fun k lt => ?_, fun u e au few => ?_⟩
  · have lk : k < ((s.unitsFrom a).take n).length := by omega
    obtain ⟨h0, h1, h2⟩ := nth_triples w32 (fun u => w32 (bits (s.ucb u 0) 31 24)) (fun u => w32 (s.ustate u)) _ k lk
    obtain ⟨au, e⟩ := mem_unitsFrom.mp (List.mem_of_mem_take (List.getElem_mem lk))
    have num : arg ws (3 * k) = ((s.unitsFrom a).take n)[k] := by
      rw [arg, show nth ws (3 * k) 0 = _ from h0, toNat_unitWord e]
    rw [num]
    exact ⟨e, au, h1, h2⟩
  · obtain ⟨lt, eq⟩ := index_of_rising (l := s.unitsFrom a) (allUnits_sorted.filter _) (mem_unitsFrom.mpr ⟨au, e⟩)
    have lk : ((s.unitsFrom a).filter (· < u)).length < ((s.unitsFrom a).take n).length := by
      rw [List.length_take]; exact lt_min few lt
    refine ⟨_, by rw [len]; exact Nat.mul_lt_mul_of_pos_left lk (by decide), ?_⟩
    rw [show nth ws (3 * _) 0 = _ from (nth_triples w32 _ _ _ _ lk).1, List.getElem_take, eq]

/-! ## Rate monitors (R24–R27, R40) -/

/-- Where the registers of the eight rate monitors lie. -/
def monitors : List (Nat × Nat) := (List.range 6).map (fun c => (uTC c, 0x40)) ++ [(uDevctl, 0x80), (uDevctl, 0x90)]

/-- Read RATE_NOW and RATE_MIN of one monitor: zeros where it is fused off. -/
def readMonitor (a : State × List Word) (m : Nat × Nat) : State × List Word :=
  if fusedOff a.1.part m.1 then (a.1, a.2 ++ [0, 0])
  else ((a.1.readRC m.1 (m.2 + 4)).2, a.2 ++ [a.1.rd m.1 m.2, a.1.rd m.1 (m.2 + 4)])

theorem callRates_eq (s : State) :
    callRates s = (monitors.foldl readMonitor (s, [])).1.ret OK (monitors.foldl readMonitor (s, [])).2 := by
  have blocks : monitors = (List.range callRates.numTC0 ++ [6, 7]).map rateBlock := by decide
  rw [blocks, List.foldl_map]
  simp only [callRates, readMonitor, State.readRC]

/-- The words of one monitor. -/
def State.monitorWords (s : State) (m : Nat × Nat) : List Word :=
  if fusedOff s.part m.1 then [0, 0] else [s.rd m.1 m.2, s.rd m.1 (m.2 + 4)]

theorem readMonitor_butRegs (s : State) (ws : List Word) (m : Nat × Nat) : ButRegs s (readMonitor (s, ws) m).1 := by
  unfold readMonitor
  split
  · exact .refl s
  · exact .wr s m.1 (m.2 + 4) _

theorem readMonitor_words (s : State) (ws : List Word) (m : Nat × Nat) : (readMonitor (s, ws) m).2 = ws ++ s.monitorWords m := by
  unfold readMonitor State.monitorWords; split <;> rfl

theorem readMonitor_rd (s : State) (ws : List Word) (m : Nat × Nat) (v o : Nat) (hm : m.2 + 4 < 0x10000) (ho : o < 0x10000) :
    (readMonitor (s, ws) m).1.rd v o =
      if !fusedOff s.part m.1 && v = m.1 && o = m.2 + 4 then regReset s.part (rk v o) else s.rd v o := by
  unfold readMonitor
  by_cases f : fusedOff s.part m.1 = true
  · simp [f]
  · simp only [f, State.readRC]
    rw [if_neg (by simp), rd_wr]
    by_cases k : v = m.1 ∧ o = m.2 + 4
    · obtain ⟨rfl, rfl⟩ := k; simp
    · have : rk v o ≠ rk m.1 (m.2 + 4) := rk_ne ho hm (by simpa using k)
      rw [if_neg this, if_neg]
      simpa using k

/-- Monitors that lie apart are read one after the other as they stood at the start. -/
theorem readMonitors (l : List (Nat × Nat)) (s : State) (ws : List Word) (b : ∀ m ∈ l, m.2 + 4 < 0x10000)
    (d : l.Pairwise fun m n => n.1 ≠ m.1 ∨ (n.2 ≠ m.2 + 4 ∧ n.2 ≠ m.2)) :
    let r := l.foldl readMonitor (s, ws)
    ButRegs s r.1 ∧ r.2 = ws ++ l.flatMap s.monitorWords ∧
      ∀ v o, o < 0x10000 → r.1.rd v o =
        if l.any fun m => !fusedOff s.part m.1 && v = m.1 && o = m.2 + 4 then regReset s.part (rk v o) else s.rd v o := by
  induction l generalizing s ws with
  | nil => simp [ButRegs.refl]
  | cons m t ih =>
    obtain ⟨dm, dt⟩ := List.pairwise_cons.mp d
    have bm := b m List.mem_cons_self
    have part := (readMonitor_butRegs s ws m).part
    obtain ⟨hf, hw, hr⟩ := ih (readMonitor (s, ws) m).1 (readMonitor (s, ws) m).2
      (fun n h => b n (List.mem_cons_of_mem _ h)) dt
    refine ⟨(readMonitor_butRegs s ws m).trans hf, ?_, fun v o ho => ?_⟩
    · have same : ∀ n ∈ t, (readMonitor (s, ws) m).1.monitorWords n = s.monitorWords n := by
        intro n hn
        have bn := b n (List.mem_cons_of_mem _ hn)
        have apart := dm n hn
        have now : ¬(n.1 = m.1 ∧ n.2 = m.2 + 4) := by omega
        have least : ¬(n.1 = m.1 ∧ n.2 = m.2) := by omega
        unfold State.monitorWords
        rw [part, readMonitor_rd s ws m _ _ bm (by omega), readMonitor_rd s ws m _ _ bm bn]
        simp [Bool.and_assoc, now, least]
      rw [List.foldl_cons, hw, readMonitor_words, List.flatMap_cons, List.append_assoc, List.flatMap_congr same]
    · rw [List.foldl_cons, hr v o ho, part, readMonitor_rd s ws m v o bm ho, List.any_cons]
      cases t.any fun m => !fusedOff s.part m.1 && v = m.1 && o = m.2 + 4 <;> simp

/-! ## Unit control blocks (R40) -/

theorem callReadUcb_ok {s : State} {args : List Word} (h : s.exists? (arg args 0) = true) :
    callReadUcb args s = (s.setUcb (arg args 0) 10 0).ret OK ((List.range 11).map (s.ucb (arg args 0))) := by
  simp [callReadUcb, h]

theorem callReadUcb_noUnit {s : State} {args : List Word} (h : s.exists? (arg args 0) = false) :
    callReadUcb args s = s.ret NO_UNIT := by
  simp [callReadUcb, h]

/-- Settles O3: the list of units by its order, the monitors by induction over those that are read. -/
theorem deviceReadsComplete : Obligations.DeviceReadsComplete := by
  unfold Obligations.DeviceReadsComplete
  intro ini args s
  refine ⟨rfl, fun h => ?_, fun h => ?_, fun h => ?_, fun h => ?_, ?_⟩
  · exact congrArg _ (callReadUcb_ok h)
  · exact congrArg _ (callReadUcb_noUnit h)
  · obtain ⟨listed, all⟩ := unitWords_spec s (arg args 0) (arg args 1)
    refine Gives.of rfl (callListUnits_ok h) ⟨rfl, ?_, fun k _ lt => listed k lt, fun u e au few => all u e au ?_⟩
    · show (s.unitWords _).length ≤ 192
      rw [State.unitWords, triples_length, List.length_take]; omega
    · rwa [unitsFrom_below]
  · exact congrArg _ (callListUnits_range h)
  · obtain ⟨frame, words, rd⟩ := readMonitors monitors s [] (by decide) (by decide)
    refine Gives.of rfl (callRates_eq s) ⟨?_, rd⟩
    rw [words]
    exact frame.ret OK _

/-! ## Reading registers one after the other (R13, R99) -/

/-- A read of a latching low register has set the high one (R99). -/
def State.latchHigh (s : State) (u off : Nat) : State :=
  if latches u off && (SMap.get (fun _ => 0) (rk u off) s.wide != 0 || s.rd u (off + 4) != 0) then
    s.wr u (off + 4) (w32 (s.wide64 u off / 2 ^ 32))
  else s

theorem readReg_eq (s : State) (u off : Nat) : s.readReg u off =
    (if accOf u off = some .wo then 0 else s.rd u off,
      if accOf u off = some .rc then (s.latchHigh u off).wr u off (regReset (s.latchHigh u off).part (rk u off))
      else s.latchHigh u off) := by
  unfold State.readReg accOf
  cases findRow u off with
  | none => simp [State.latchHigh]
  | some r =>
    obtain ⟨_, _, _, acc, _⟩ := r
    cases acc <;> simp [State.latchHigh]

theorem latchHigh_butRegs (s : State) (u off : Nat) : ButRegs s (s.latchHigh u off) := by
  unfold State.latchHigh
  split
  · exact .wr ..
  · exact .refl s

/-- A high register that is not stored already shows the high word: both are 0. -/
theorem latchHigh_rd (s : State) (u off v p : Nat) (ho : off + 4 < 0x10000) (hp : p < 0x10000) : (s.latchHigh u off).rd v p =
    if v = u ∧ latches u off = true ∧ p = off + 4 then w32 (s.wide64 u off / 2 ^ 32) else s.rd v p := by
  unfold State.latchHigh
  by_cases k : v = u ∧ p = off + 4
  · obtain ⟨rfl, rfl⟩ := k
    cases latches v off with
    | false => simp
    | true =>
      split
      · simp [rd_wr_same]
      · next n =>
        simp only [Bool.true_and, Bool.or_eq_true, bne_iff_ne, not_or, not_not] at n
        obtain ⟨wide, high⟩ := n
        simp [high, State.wide64, wide, w32]
  · have ne : rk v p ≠ rk u (off + 4) := rk_ne hp ho (by simpa using k)
    rw [if_neg (c := v = u ∧ _) (fun h => k ⟨h.1, h.2.2⟩)]
    split
    · exact rd_wr_ne _ _ _ _ _ _ ne
    · rfl

theorem readReg_butRegs (s : State) (u off : Nat) : ButRegs s (s.readReg u off).2 := by
  rw [readReg_eq]
  dsimp only
  split
  · exact (latchHigh_butRegs s u off).trans (.wr ..)
  · exact latchHigh_butRegs s u off

theorem readReg_word (s : State) (u off : Nat) : (s.readReg u off).1 = if accOf u off = some .wo then 0 else s.rd u off := by
  rw [readReg_eq]

theorem readReg_rd (s : State) (u off v p : Nat) (ho : off + 4 < 0x10000) (hp : p < 0x10000) : (s.readReg u off).2.rd v p =
    if v = u ∧ p = off ∧ accOf u off = some .rc then regReset s.part (rk v p)
    else if v = u ∧ latches u off = true ∧ p = off + 4 then w32 (s.wide64 u off / 2 ^ 32) else s.rd v p := by
  rw [readReg_eq, ← latchHigh_rd s u off v p ho hp, (latchHigh_butRegs s u off).part]
  dsimp only
  by_cases a : accOf u off = some .rc
  · by_cases k : v = u ∧ p = off
    · obtain ⟨rfl, rfl⟩ := k; simp [a, rd_wr_same]
    · rw [if_pos a, rd_wr_ne _ _ _ _ _ _ (rk_ne hp (by omega) (by simpa using k)), if_neg (fun h => k ⟨h.1, h.2.1⟩)]
  · simp [a]

/-- Registers of block u that a call may read in this order: none twice, no high word before its low word, no high word that a
read would reset. -/
structure ReadOrder (u : Nat) (offs : List Nat) : Prop where
  bounded : ∀ o ∈ offs, o + 4 < 0x10000
  high : ∀ o ∈ offs, latches u o = true → accOf u (o + 4) ≠ some .rc
  order : offs.Pairwise fun a b => a ≠ b ∧ ¬(latches u b = true ∧ a = b + 4)

/-- A block without latching registers is read in any order. -/
theorem ReadOrder.of_noLatch {u : Nat} {offs : List Nat} (n : ∀ o, latches u o = false) (b : ∀ o ∈ offs, o + 4 < 0x10000)
    (d : offs.Nodup) : ReadOrder u offs :=
  ⟨b, fun o _ h => by simp [n] at h, d.imp fun ne => ⟨ne, by simp [n]⟩⟩

theorem latched_nil (u p : Nat) : latched u [] p = false := by simp [latched]

theorem latched_cons (u o p : Nat) (offs : List Nat) :
    latched u (o :: offs) p = true ↔ (latches u o = true ∧ p = o + 4) ∨ latched u offs p = true := by
  simp only [latched, Bool.and_eq_true, decide_eq_true_eq, List.contains_cons, Bool.or_eq_true, beq_iff_eq]
  constructor
  · rintro ⟨⟨le, l⟩, rfl | m⟩
    · exact .inl ⟨l, by omega⟩
    · exact .inr ⟨⟨le, l⟩, m⟩
  · rintro (⟨l, rfl⟩ | ⟨⟨le, l⟩, m⟩)
    · exact ⟨⟨by omega, by simpa using l⟩, .inl (by omega)⟩
    · exact ⟨⟨le, l⟩, .inr m⟩

/-- A word that reading offs in order gives. -/
def State.readWord (s : State) (u : Nat) (offs : List Nat) (o : Nat) : Word :=
  if accOf u o = some .wo then 0 else if latched u offs o then w32 (s.wide64 u (o - 4) / 2 ^ 32) else s.rd u o

/-- What register p of block v holds once offs of block u are read in order. -/
def State.afterReads (s : State) (u : Nat) (offs : List Nat) (v p : Nat) : Word :=
  if v = u ∧ latched u offs p then w32 (s.wide64 u (p - 4) / 2 ^ 32)
  else if v = u ∧ p ∈ offs ∧ accOf u p = some .rc then regReset s.part (rk u p) else s.rd v p

theorem readRegs_spec {u : Nat} {offs : List Nat} (r : ReadOrder u offs) (s : State) :
    ButRegs s (s.readRegs u offs).2 ∧ (s.readRegs u offs).1 = offs.map (s.readWord u offs) ∧
      ∀ v p, p < 0x10000 → (s.readRegs u offs).2.rd v p = s.afterReads u offs v p := by
  induction offs generalizing s with
  | nil => simp [State.readRegs, State.afterReads, latched_nil, ButRegs.refl]
  | cons o t ih =>
    obtain ⟨bounded, high, order⟩ := r
    obtain ⟨first, rest⟩ := List.pairwise_cons.mp order
    have bo := bounded o List.mem_cons_self
    have ho := high o List.mem_cons_self
    have once : o ∉ t := fun m => (first o m).1 rfl
    have frame := readReg_butRegs s u o
    have head : latched u (o :: t) o = false := by
      rw [Bool.eq_false_iff, Ne, latched_cons]
      rintro (⟨-, h⟩ | h)
      · omega
      · simp only [latched, Bool.and_eq_true, decide_eq_true_eq, List.contains_iff_mem] at h
        exact (first _ h.2).2 ⟨h.1.2, by omega⟩
    obtain ⟨hf, hw, hr⟩ := ih ⟨fun x m => bounded x (.tail _ m), fun x m => high x (.tail _ m), rest⟩ (s.readReg u o).2
    have step : s.readRegs u (o :: t) = ((s.readReg u o).1 :: ((s.readReg u o).2.readRegs u t).1, ((s.readReg u o).2.readRegs u t).2) := rfl
    rw [step]
    refine ⟨frame.trans hf, ?_, fun v p hp => ?_⟩
    · rw [List.map_cons, hw, readReg_word]
      refine congrArg₂ _ ?_ (List.map_congr_left fun p m => ?_)
      · simp [State.readWord, head]
      · have ne : p ≠ o := fun e => once (e ▸ m)
        have now : (s.readReg u o).2.rd u p = if latches u o = true ∧ p = o + 4 then w32 (s.wide64 u o / 2 ^ 32) else s.rd u p := by
          rw [readReg_rd s u o u p bo (by have := bounded p (.tail _ m); omega)]
          simp [ne]
        unfold State.readWord
        rw [frame.wide64, now]
        by_cases l : latches u o = true ∧ p = o + 4
        · obtain ⟨lo, rfl⟩ := l
          simp [(latched_cons u o (o + 4) t).mpr (.inl ⟨lo, rfl⟩), lo]
        · have : latched u (o :: t) p = latched u t p := by rw [Bool.eq_iff_iff, latched_cons]; simp [l]
          simp [this, l]
    · rw [hr v p hp]
      unfold State.afterReads
      rw [frame.wide64, frame.part, readReg_rd s u o v p bo hp]
      by_cases e : v = u
      swap
      · simp [e]
      subst e
      by_cases lt : latched v t p = true
      · simp [lt, (latched_cons v o p t).mpr (.inr lt)]
      by_cases l : latches v o = true ∧ p = o + 4
      · obtain ⟨lo, rfl⟩ := l
        simp [(latched_cons v o (o + 4) t).mpr (.inl ⟨lo, rfl⟩), lo, lt, ho lo]
      have : latched v (o :: t) p = false := by rw [Bool.eq_false_iff, Ne, latched_cons]; simp [l, lt]
      by_cases eo : p = o
      · subst eo
        simp [this, lt, once]
      · simp [this, lt, l, eo]

/-- A call that returns registers reads them out. -/
theorem retRegs_readsOut {u : Nat} {offs : List Nat} (r : ReadOrder u offs) (s : State) : s.ReadsOut u offs (s.retRegs u offs) := by
  obtain ⟨frame, words, rd⟩ := readRegs_spec r s
  have e : s.retRegs u offs = (s.readRegs u offs).2.ret OK (offs.map (s.readWord u offs)) := by rw [← words]; rfl
  rw [e]
  exact ⟨frame.ret OK _, rd⟩

/-! ### The blocks that status calls read -/

theorem blockRows_ax {u : Nat} (h : unitClass u = some .ax) : blockRows u = regsAX := by
  have := unitClass_lt h
  simp [blockRows, h, show u < 0x2000 by omega]

/-- The registers of a link port: the latches of its two counters are RO (R315). -/
theorem readOrder_ax {u : Nat} (h : unitClass u = some .ax) : ReadOrder u ((List.range 13).map fun i => 0x100 + 4 * i) := by
  have l : ∀ o, latches u o = (decide (o = 0x11C) || decide (o = 0x124)) := fun o => by simp [latches, h]
  refine ⟨by decide, ?_, ?_⟩
  · simp only [l, accOf, findRow, blockRows_ax h]; decide
  · simp only [l]; decide

theorem readOrder_devctl : ReadOrder uDevctl [0x40C, 0x410, 0x414, 0x418, 0x41C, 0x420] := ⟨by decide, by decide, by decide⟩

theorem wLoop_noLatch (l o : Nat) : latches (wLoop l) o = false := by
  simp [latches, unitClass_eq_none (u := wLoop l) (by unfold wLoop; omega)]

/-! ### The answers of status calls -/

theorem vatRead_ok {s : State} {ini u : Nat} (c : unitClass u = some .vat) (e : s.exists? u = true)
    (m : s.vatMay ini (u - 0x90) false (s.jobClient (u - 0x90)) = true) (act : State → State) : s.vatRead ini u act = act s := by
  simp [State.vatRead, c, e, m]

theorem vatRead_denied {s : State} {ini u : Nat} (c : unitClass u = some .vat) (e : s.exists? u = true)
    (m : s.vatMay ini (u - 0x90) false (s.jobClient (u - 0x90)) = false) (act : State → State) :
    s.vatRead ini u act = s.ret DENIED := by
  simp [State.vatRead, c, e, m]

/-- A call that returns registers of a block without latches reads them out. -/
theorem Gives.regs {c : Instr} {s t a : State} {u : Nat} {offs : List Nat} (e : exec c s = .next t) (k : t = a.retRegs u offs)
    (n : ∀ o, latches u o = false) (b : ∀ o ∈ offs, o + 4 < 0x10000) (d : offs.Nodup) : Gives c s (a.ReadsOut u offs) :=
  Gives.of e k (retRegs_readsOut (.of_noLatch n b d) a)

/-- Settles O24: every call returns registers by retRegs, which reads them out in an order that its block allows. -/
theorem statusReads : Obligations.StatusReads := by
  unfold Obligations.StatusReads
  intro ini args s u
  refine ⟨Gives.of rfl rfl (retRegs_readsOut readOrder_devctl s), Gives.regs rfl rfl (fun _ => rfl) (by decide) (by decide),
    fun m => Gives.regs rfl (by simp [callMillStatus, m]) (fun _ => rfl) (by decide) (by decide),
    fun m => congrArg _ (show callMillStatus ini s = _ by simp [callMillStatus, m]),
    Gives.regs rfl rfl (fun _ => rfl) (by decide) (by decide), Gives.regs rfl rfl (fun _ => rfl) (by decide) (by decide),
    Gives.regs rfl rfl (fun _ => rfl) (by decide) (by decide), Gives.regs rfl rfl (fun _ => rfl) (by decide) (by decide),
    Gives.regs rfl rfl (fun _ => rfl) (by decide) (by decide),
    fun e => Gives.regs rfl (by simp [callReadRing, e]) (fun _ => rfl) (by decide) (by decide),
    fun e => congrArg _ (show callReadRing s = _ by simp [callReadRing, e]),
    fun le m => Gives.regs rfl (by simp [callReadLoop, Nat.not_lt.mpr le, m, u]) (wLoop_noLatch u) (by decide) (by decide),
    fun le m => congrArg _ (show callReadLoop ini args s = _ by simp [callReadLoop, Nat.not_lt.mpr le, m, u]), ?_, ?_⟩
  · intro e
    exact ⟨congrArg _ (show callReadPort args s = _ by simp [callReadPort, e, u]),
      congrArg _ (show callReadBankGroup args s = _ by simp [callReadBankGroup, e, u])⟩
  · intro e
    refine ⟨fun c => ?_, fun c => ?_, fun c m => ?_, fun c m => ?_, fun c m => ?_, fun c m => ?_,
      fun c m => ⟨?_, ?_⟩, fun c m => ⟨?_, ?_⟩⟩
    · exact Gives.of rfl (by simp [callReadPort, e, c, u]) (retRegs_readsOut (readOrder_ax c) s)
    · exact Gives.regs rfl (by simp [callReadBankGroup, e, c, u]) (fun _ => by simp [latches, c]) (by decide) (by decide)
    · exact Gives.regs rfl (by simp [callReadPipeline, e, c, m, u]) (fun _ => by simp [latches, c]) (by decide) (by decide)
    · exact congrArg _ (show callReadPipeline ini args s = _ by simp [callReadPipeline, e, c, m, u])
    · exact Gives.regs rfl (by simp [callReadLink, e, c, m, u]) (fun _ => by simp [latches, c]) (by decide) (by decide)
    · exact congrArg _ (show callReadLink ini args s = _ by simp [callReadLink, e, c, m, u])
    · exact congrArg _ (vatRead_denied c e m _)
    · exact congrArg _ (vatRead_denied c e m _)
    · exact Gives.regs rfl (vatRead_ok c e m _) (fun _ => by simp [latches, c]) (by decide) (by decide)
    · exact Gives.regs rfl (vatRead_ok c e m _) (fun _ => by simp [latches, c]) (by decide) (by decide)

/-! ## What a register takes of a value (R13) -/

/-- Taking b's bits out of a. -/
theorem testBit_sub_and (a b i : Nat) : (a - (a &&& b)).testBit i = (a.testBit i && !b.testBit i) := by
  induction i generalizing a b with
  | zero =>
    have m : (a &&& b) % 2 = (a % 2) &&& (b % 2) := Nat.and_mod_two_pow (n := 1)
    have le : a &&& b ≤ a := Nat.and_le_left
    have d : (a - (a &&& b)) % 2 = (a % 2 + (a % 2 &&& b % 2)) % 2 := by rw [← m]; omega
    rw [Nat.testBit_zero, Nat.testBit_zero, Nat.testBit_zero, d]
    rcases Nat.mod_two_eq_zero_or_one a with ha | ha <;> rcases Nat.mod_two_eq_zero_or_one b with hb | hb <;> simp [ha, hb]
  | succ i ih =>
    have m : (a &&& b) % 2 ≤ a % 2 := by
      rw [show (a &&& b) % 2 = (a % 2) &&& (b % 2) from Nat.and_mod_two_pow (n := 1)]; exact Nat.and_le_left
    have d : (a &&& b) / 2 = a / 2 &&& b / 2 := Nat.and_div_two_pow (n := 1)
    have le : a &&& b ≤ a := Nat.and_le_left
    have : (a - (a &&& b)) / 2 = a / 2 - (a / 2 &&& b / 2) := by omega
    rw [Nat.testBit_succ, this, ih, ← Nat.testBit_succ, ← Nat.testBit_succ]

theorem getLsbD_w32 (k i : Nat) (h : i < 32) : (w32 k).getLsbD i = k.testBit i := by
  rw [w32, BitVec.getLsbD_ofNat]; simp [h]

theorem merge_rw {r : RegRow} (a : r.acc = .rw) (old v : Word) (i : Nat) (h : i < 32) :
    (r.merge old v).getLsbD i =
      if r.ro.testBit i then old.getLsbD i else if r.w1c.testBit i then old.getLsbD i && !v.getLsbD i else v.getLsbD i := by
  have e : r.merge old v = w32 ((old.toNat &&& r.ro) ||| ((old.toNat &&& r.w1c) - (old.toNat &&& r.w1c &&& v.toNat)) |||
      (v.toNat - (v.toNat &&& (r.w1c ||| r.ro)))) := by
    simp [RegRow.merge, a]
  rw [e, getLsbD_w32 _ _ h, Nat.testBit_or, Nat.testBit_or, testBit_sub_and, testBit_sub_and, Nat.testBit_and, Nat.testBit_and,
    Nat.testBit_or, BitVec.testBit_toNat, BitVec.testBit_toNat]
  cases r.ro.testBit i <;> cases r.w1c.testBit i <;> cases old.getLsbD i <;> simp

theorem merge_w1c {r : RegRow} (a : r.acc = .w1c) (old v : Word) (i : Nat) (h : i < 32) :
    (r.merge old v).getLsbD i = (old.getLsbD i && !v.getLsbD i) := by
  have e : r.merge old v = w32 (old.toNat - (old.toNat &&& v.toNat)) := by simp [RegRow.merge, a]
  rw [e, getLsbD_w32 _ _ h, testBit_sub_and, BitVec.testBit_toNat, BitVec.testBit_toNat]

theorem merge_wo {r : RegRow} (a : r.acc = .wo) (old v : Word) : r.merge old v = old := by
  simp [RegRow.merge, a]

theorem bad_readOnly {r : RegRow} (a : r.acc = .ro ∨ r.acc = .rc) (v : Word) : r.bad v = some .readOnly := by
  simp [RegRow.bad, a]

/-- A value is refused for what it is, never for who writes it. -/
theorem bad_cause {r : RegRow} {v : Word} {c : AccCause} (h : r.bad v = some c) : c ≠ .notHolder ∧ c ≠ .notEnabled := by
  unfold RegRow.bad at h
  split_ifs at h <;> cases h <;> exact ⟨nofun, nofun⟩

/-! ## The checks of a register write, one by one (R3, R8, R13–R15, R449) -/

section
variable {s : State} {ini u off : Nat} {v : Word}

theorem plain_notEnabled (e : s.exists? u = false) : s.plain ini u off v = s.accError ini (regAddr u off) .notEnabled := by
  simp [State.plain, State.guardedStore, State.guarded, e]

theorem plain_refused (e : s.exists? u = true) (f : s.fwAllows ini (regAddr u off) true = false) :
    s.plain ini u off v = s.fwRefuse ini (regAddr u off) true := by
  simp [State.plain, State.guardedStore, State.guarded, e, f]

theorem plain_notHolder (e : s.exists? u = true) (f : s.fwAllows ini (regAddr u off) true = true) (m : s.mayWrite ini u = false) :
    s.plain ini u off v = s.accError ini (regAddr u off) .notHolder := by
  simp [State.plain, State.guardedStore, State.guarded, e, f, m]

theorem plain_unlisted (e : s.exists? u = true) (f : s.fwAllows ini (regAddr u off) true = true) (m : s.mayWrite ini u = true)
    (n : findRow u off = none) : s.plain ini u off v = if v = 0 then s else s.accError ini (regAddr u off) .reserved := by
  simp [State.plain, State.guardedStore, State.guarded, e, f, m, n]

theorem plain_bad {r : RegRow} {c : AccCause} (e : s.exists? u = true) (f : s.fwAllows ini (regAddr u off) true = true)
    (m : s.mayWrite ini u = true) (n : findRow u off = some r) (b : r.bad v = some c) :
    s.plain ini u off v = s.accError ini (regAddr u off) c := by
  simp [State.plain, State.guardedStore, State.guarded, e, f, m, n, b]

theorem plain_stores {r : RegRow} (e : s.exists? u = true) (f : s.fwAllows ini (regAddr u off) true = true)
    (m : s.mayWrite ini u = true) (n : findRow u off = some r) (b : r.bad v = none) :
    s.plain ini u off v = s.wr u off (r.merge (s.rd u off) v) := by
  rw [State.plain, State.guardedStore, guarded_of_admits ⟨e, f, .inr m, r, n, b⟩]
  simp [State.store, n]

end

/-- The state once firewall entry f has refused a write by ini: FW_VIOL_LAST, FW_VIOL, a report to the Warden (R449). -/
def State.writeRefused (s : State) (ini f : Nat) : State :=
  { (s.wr uWarden 0x244 (w32 (2 ^ 31 + 2 ^ 30 + ini % 2 ^ 10 * 2 ^ 20 + f % 32))).count uWarden 0x248 1 with
    wdFifo := s.wdFifo ++ [⟨0x12, f, 0⟩] }

theorem fwRefuse_write {s : State} {ini a f : Nat} {l : List Nat} (room : s.wdFifo.length < 256) (c : s.fwCovering a = f :: l) :
    s.fwRefuse ini a true = s.writeRefused ini f := by
  simp [State.fwRefuse, State.wdReport, State.writeRefused, c, room, b2n]

/-! ## Writes through a bus (R41, R42) -/

theorem regionOf_regAddr (p : Part) {u off : Nat} (hu : u < 0x2000) (ho : off < 0x10000) : regionOf p (regAddr u off) = .regs := by
  have lo : 0x20000000 ≤ regAddr u off := by unfold regAddr; omega
  have hi : regAddr u off < 0x40000000 := by unfold regAddr rk; omega
  unfold regionOf
  rw [if_neg (by omega), if_neg (by omega), if_neg (by simp; omega), if_pos (by simp; omega)]

/-- The state as an access of a bus meets it: no error of its own, an empty reply. -/
def State.clean (s : State) : State := { s with accErr := none, addrErr := none, reply := ⟨false, []⟩ }

theorem rd_clean (s : State) (u off : Nat) : s.clean.rd u off = s.rd u off := rfl

theorem wr_clean (s : State) (u off : Nat) (v : Word) : s.clean.wr u off v = (s.wr u off v).clean := rfl

theorem count_clean (s : State) (u off k : Nat) : s.clean.count u off k = (s.count u off k).clean :=
  wr_clean s u off (countBits (s.rd u off) 31 0 k)

theorem writeRefused_clean (s : State) (ini f : Nat) : s.clean.writeRefused ini f = (s.writeRefused ini f).clean := by
  rw [State.writeRefused, wr_clean, count_clean]
  rfl

theorem writeRefused_accErr (s : State) (ini f : Nat) : (s.writeRefused ini f).accErr = s.accErr := by
  simp only [State.writeRefused, State.count_accErr, State.wr_accErr]

theorem writeRefused_addrErr (s : State) (ini f : Nat) : (s.writeRefused ini f).addrErr = s.addrErr := by
  simp only [State.writeRefused, State.count_addrErr, State.wr_addrErr]

/-- What the bus makes of t, which a write left of s.clean: errors that it left, else those of s; an error response where
the firewalls (fw false), R42 or a claim refuse the write. -/
def State.busAnswer (s t : State) (fw : Bool) : State :=
  { t with
    accErr := if t.accErr.isSome then t.accErr else s.accErr
    addrErr := if t.addrErr.isSome then t.addrErr else s.addrErr
    reply := ⟨t.addrErr.isSome || !fw || (match t.accErr with
      | some e => e.cause = .notHolder || e.cause = .notEnabled
      | none => false), []⟩ }

theorem busAnswer_accError (s : State) (ini a : Nat) (c : AccCause) (fw : Bool) :
    s.busAnswer (s.clean.accError ini a c) fw =
      { s.accError ini a c with reply := ⟨!fw || (decide (c = .notHolder) || decide (c = .notEnabled)), []⟩ } := by
  simp [State.busAnswer, State.clean, State.accError]

/-- An error response where no claim, or no enabled block, takes the write. -/
theorem busAnswer_denied (s : State) (ini a : Nat) {c : AccCause} (fw : Bool) (h : c = .notHolder ∨ c = .notEnabled) :
    s.busAnswer (s.clean.accError ini a c) fw = { s.accError ini a c with reply := ⟨true, []⟩ } := by
  rw [busAnswer_accError]
  rcases h with rfl | rfl <;> simp

/-- Another error is recorded alone. -/
theorem busAnswer_recorded (s : State) (ini a : Nat) {c : AccCause} (h : c ≠ .notHolder ∧ c ≠ .notEnabled) :
    s.busAnswer (s.clean.accError ini a c) true = { s.accError ini a c with reply := ⟨false, []⟩ } := by
  rw [busAnswer_accError]
  simp [h]

theorem busAnswer_addrError (s : State) (ini a : Nat) (fw : Bool) :
    s.busAnswer (s.clean.addrError ini a) fw = { s.addrError ini a with reply := ⟨true, []⟩ } := by
  simp [State.busAnswer, State.clean, State.addrError]

/-- A write that records no error of its own. -/
theorem busAnswer_clean {s : State} (t : State) {fw err : Bool} (e : err = !fw) (acc : t.accErr = s.accErr) (addr : t.addrErr = s.addrErr) :
    s.busAnswer t.clean fw = { t with reply := ⟨err, []⟩ } := by
  subst e
  simp [State.busAnswer, State.clean, ← acc, ← addr]

theorem busReg_write (s : State) (ini v : Nat) {u off : Nat} (ho : off < 0x10000) :
    s.busReg ini (regAddr u off) (some (natBytes 4 v)) =
      s.busAnswer (s.clean.regWrite ini u off (w32 v)) (s.fwAllows ini (regAddr u off) true) := by
  have hu : (regAddr u off - 0x20000000) / 0x10000 = u := by unfold regAddr rk; omega
  have hoff : regAddr u off % 0x10000 = off := by unfold regAddr rk; omega
  have hv : w32 (bytesNat (natBytes 4 v)) = w32 v := by
    rw [bytesNat_natBytes]; apply BitVec.eq_of_toNat_eq; simp [w32_toNat]
  simp only [State.busReg, hu, hoff, hv]
  rfl

theorem busReg_data (s : State) (ini a : Nat) (l : List Byte) : (s.busReg ini a (some l)).reply.data = [] := by
  simp only [State.busReg]

theorem with_own_reply {s : State} {r : Reply} (h : s.reply = r) : { s with reply := r } = s := by
  subst h; rfl

/-- A write of one aligned register word is one piece, whose answer stands. -/
theorem bus_regWord {s : State} {ini a : Nat} {l : List Byte} (len : l.length = 4) (al : a % 4 = 0)
    (first : regionOf s.part a = .regs) (last : regionOf s.part (a + 4 - 1) = .regs) :
    s.bus ini a 4 (some l) = s.busReg ini a (some l) := by
  have cut : cutData (some l) a a 4 = some l := by simp [cutData, ← len]
  have piece : s.busPiece ini a 4 (some l) = s.busReg ini a (some l) := by simp only [State.busPiece, first]
  have data := busReg_data s ini a l
  simp only [State.bus, first, last, al]
  rw [if_neg (by decide), if_neg (by decide), if_neg (by decide)]
  cases err : (s.busReg ini a (some l)).reply.err with
  | true => simp only [List.find?, cut, piece, err]
  | false =>
    simp only [List.find?, cut, piece, err, State.busRun, List.foldl, data]
    have reply : (s.busReg ini a (some l)).reply = ⟨false, [] ++ []⟩ := by
      rw [← err]; rfl
    exact with_own_reply reply

theorem exec_registerWrite_eq (ini addr width v : Nat) (s : State) :
    exec (.registerWrite ini addr width v) s = execRegisterWrite ini addr width v s := rfl

/-- A write of a register word goes to the register. -/
theorem exec_registerWrite (s : State) (ini v : Nat) {u off : Nat} (hu : u < 0x2000) (ho : off < 0x10000) (al : off % 4 = 0) :
    exec (.registerWrite ini (regAddr u off) 4 v) s =
      .next (s.busAnswer (s.clean.regWrite ini u off (w32 v)) (s.fwAllows ini (regAddr u off) true)) := by
  have lt : regAddr u off < jtagBase := by unfold regAddr rk jtagBase; omega
  have four : regAddr u off % 4 = 0 := by unfold regAddr rk; omega
  have last : regionOf s.part (regAddr u off + 4 - 1) = .regs := by
    rw [show regAddr u off + 4 - 1 = regAddr u (off + 3) by unfold regAddr rk; omega]
    exact regionOf_regAddr s.part hu (by omega)
  rw [← busReg_write s ini v ho, ← bus_regWord (natBytes_length 4 v) four (regionOf_regAddr s.part hu ho) last]
  rw [exec_registerWrite_eq, execRegisterWrite, if_neg (by simp; omega), if_pos (by simp [four])]

/-! ## Blocks that a write only stores to -/

theorem storesOnly_class {u : Nat} (h : storesOnly u = true) : ∃ c, unitClass u = some c ∧ isProcessor c = false ∧
    c ≠ .ring ∧ ∀ (s : State) (ini off : Nat) (v : Word), s.classWrite ini u off v c = s.plain ini u off v := by
  unfold storesOnly at h
  split at h
  case h_9 => cases h
  all_goals
    rename_i k
    exact ⟨_, k, rfl, nofun, fun _ _ _ _ => rfl⟩

/-- A block that a write only stores to takes it as plain; a gang that is not formed has no registers at all. -/
theorem regWrite_storesOnly {s : State} {ini u off : Nat} {v : Word} (h : storesOnly u = true) (lo : 0x40 ≤ off)
    (p : procAt u off = none) : s.regWrite ini u off v =
      if s.exists? u = false ∧ unitClass u = some .gang then s.addrError ini (regAddr u off) else s.plain ini u off v := by
  obtain ⟨c, hc, np, nr, plain⟩ := storesOnly_class h
  by_cases g : c = .gang
  · subst g
    cases e : s.exists? u
    · simp [State.regWrite, State.hasBlock, hc, e]
    · simp [State.regWrite, State.hasBlock, hc, e, p, Nat.not_lt.mpr lo, plain]
  · have block : s.hasBlock u = some c := by
      unfold State.hasBlock
      rw [hc]
      split <;> simp_all
    simp [State.regWrite, block, hc, g, p, Nat.not_lt.mpr lo, plain]

/-- A write of a word of such a block, as the bus answers it. -/
theorem exec_storesOnly {s : State} {ini u off v : Nat} (h : storesOnly u = true) (lo : 0x40 ≤ off) (ho : off < 0x10000)
    (al : off % 4 = 0) (p : procAt u off = none) : exec (.registerWrite ini (regAddr u off) 4 v) s = .next (s.busAnswer
      (if s.exists? u = false ∧ unitClass u = some .gang then s.clean.addrError ini (regAddr u off) else s.clean.plain ini u off (w32 v))
      (s.fwAllows ini (regAddr u off) true)) := by
  have hu : u < 0x2000 := by
    obtain ⟨c, hc, -⟩ := storesOnly_class h
    have := unitClass_lt hc; omega
  rw [exec_registerWrite s ini v hu ho al, regWrite_storesOnly h lo p]
  rfl

/-- A write of another width, or off a word, is refused (R14). -/
theorem exec_registerWrite_notWord {s : State} {ini addr width v : Nat} (h : width ≠ 4 ∨ addr % 4 ≠ 0) :
    exec (.registerWrite ini addr width v) s = .next (s.accError ini addr .access) := by
  have n : ¬((decide (width = 4) && decide (addr % 4 = 0)) = true) := by simp; omega
  rw [exec_registerWrite_eq, execRegisterWrite, if_neg n, if_neg n, ite_self]

/-- Settles O23: the checks of guarded one by one, each carried through the bus; the stored word bit by bit. -/
theorem registerWrites : Obligations.RegisterWrites := by
  unfold Obligations.RegisterWrites
  refine ⟨fun ini addr width v s h => exec_registerWrite_notWord h, ?_, ?_⟩
  · intro ini u off v s so lo hi al p a on fw may go
    have run := exec_storesOnly (s := s) (ini := ini) (v := v) so lo hi al p
    have formed : s.exists? u = true → ¬(s.exists? u = false ∧ unitClass u = some .gang) := fun e g => by simp [e] at g
    have allowed : fw → s.fwAllows ini (regAddr u off) true = true := id
    refine ⟨fun e => ?_, fun e f room g l cov => ?_, fun e f m => ?_, fun e f m n => ?_,
      fun r e f m n => ⟨fun c b => ?_, fun b => ?_⟩⟩ <;>
      refine run.trans (congrArg _ ?_)
    · have e' : s.exists? u = false := Bool.not_eq_true _ ▸ e
      by_cases gang : unitClass u = some .gang
      · rw [if_pos ⟨e', gang⟩, if_pos gang]
        exact busAnswer_addrError ..
      · rw [if_neg (fun h => gang h.2), if_neg gang, plain_notEnabled (s := s.clean) e']
        exact busAnswer_denied _ _ _ _ (.inr rfl)
    · have f' : s.fwAllows ini (regAddr u off) true = false := Bool.not_eq_true _ ▸ f
      rw [if_neg (formed e), plain_refused (s := s.clean) e f', fwRefuse_write (s := s.clean) room cov, f',
        writeRefused_clean]
      exact busAnswer_clean (s.writeRefused ini g) rfl (writeRefused_accErr ..) (writeRefused_addrErr ..)
    · have m' : s.mayWrite ini u = false := Bool.not_eq_true _ ▸ m
      rw [if_neg (formed e), plain_notHolder (s := s.clean) e f m']
      exact busAnswer_denied _ _ _ _ (.inl rfl)
    · rw [if_neg (formed e), plain_unlisted (s := s.clean) e f m n, allowed f]
      by_cases z : w32 v = 0
      · rw [if_pos z, if_pos z]
        exact busAnswer_clean s rfl rfl rfl
      · rw [if_neg z, if_neg z]
        exact busAnswer_recorded _ _ _ ⟨nofun, nofun⟩
    · rw [if_neg (formed e), plain_bad (s := s.clean) e f m n b, allowed f]
      exact busAnswer_recorded _ _ _ (bad_cause b)
    · rw [if_neg (formed e), plain_stores (s := s.clean) e f m n b, allowed f, rd_clean, wr_clean]
      exact busAnswer_clean (s.wr u off (r.merge (s.rd u off) (w32 v))) rfl (State.wr_accErr ..) (State.wr_addrErr ..)
  · intro r old v i h
    exact ⟨fun a => merge_rw a old v i h, fun a => merge_w1c a old v i h, fun a => merge_wo a old v, fun a => bad_readOnly a v⟩

/-! ## Writes to the words of a parcel's entry (R215, R216, R450) -/

section
variable {s : State} {ini u off : Nat} {v : Word}

theorem guardedStore_stores (h : s.Admits ini u off v false) {check : State → Option AccCause} (c : check s = none) :
    s.guardedStore ini u off v check = s.store u off v := by
  rw [State.guardedStore, guarded_of_admits h, c]

theorem guardedStore_stopped (h : s.Admits ini u off v false) {check : State → Option AccCause} {e : AccCause} (c : check s = some e) :
    s.guardedStore ini u off v check = s.accError ini (regAddr u off) e := by
  rw [State.guardedStore, guarded_of_admits h, c]

end

/-- A write of PCL_LOC names an entry of the table. -/
theorem exec_pclLocWrite (ini v : Nat) (s : State) {p : Nat} (hp : p < 1024) :
    exec (.pclLocWrite ini p v) s = .next (s.pclLocWrite ini p (w32 v)) := by
  show Host.Outcome.next (s.pclLocWrite ini (p % 1024) (w32 v)) = _
  rw [Nat.mod_eq_of_lt hp]

theorem exec_pclOwnerWrite (ini v : Nat) (s : State) {p : Nat} (hp : p < 1024) :
    exec (.pclOwnerWrite ini p v) s = .next (s.pclIdleWrite ini p 4 (w32 v)) := by
  show Host.Outcome.next (s.pclIdleWrite ini (p % 1024) 4 (w32 v)) = _
  rw [Nat.mod_eq_of_lt hp]

theorem exec_pclCreditWrite (ini v : Nat) (s : State) {p : Nat} (hp : p < 1024) :
    exec (.pclCreditWrite ini p v) s = .next (s.pclIdleWrite ini p 8 (w32 v)) := by
  show Host.Outcome.next (s.pclIdleWrite ini (p % 1024) 8 (w32 v)) = _
  rw [Nat.mod_eq_of_lt hp]

theorem exec_pclRightWrite (ini v : Nat) (s : State) {p i : Nat} (hp : p < 1024) (hi : i < 4) :
    exec (.pclRightWrite ini p i v) s = .next (s.pclRightWrite ini p i (w32 v)) := by
  show Host.Outcome.next (s.pclRightWrite ini (p % 1024) (i % 4) (w32 v)) = _
  rw [Nat.mod_eq_of_lt hp, Nat.mod_eq_of_lt hi]

section
variable {s : State} {ini p : Nat} {v : Word}

theorem pclLocWrite_stopped (h : s.Admits ini (uBG 0) (pclOff p) v false) (c : s.locCheck p v = some .check) :
    s.pclLocWrite ini p v = s.accError ini (regAddr (uBG 0) (pclOff p)) .check := by
  rw [State.pclLocWrite, guarded_of_admits h, c]

theorem pclLocWrite_validates (h : s.Admits ini (uBG 0) (pclOff p) v false) (c : s.locCheck p v = none) (b : bit v 31 = true) :
    s.pclLocWrite ini p v = s.validate p v.toNat := by
  rw [State.pclLocWrite, guarded_of_admits h, c]; simp [b]

theorem pclLocWrite_invalidates (h : s.Admits ini (uBG 0) (pclOff p) v false) (c : s.locCheck p v = none) (b : bit v 31 = false)
    (on : s.pclValid p = true) : s.pclLocWrite ini p v = s.invalidate p (setBit v 28 (s.flag (uBG 0) (pclOff p) 28)) := by
  rw [State.pclLocWrite, guarded_of_admits h, c]; simp [b, on]

theorem pclLocWrite_stores (h : s.Admits ini (uBG 0) (pclOff p) v false) (c : s.locCheck p v = none) (b : bit v 31 = false)
    (idle : s.pclValid p = false) : s.pclLocWrite ini p v = s.store (uBG 0) (pclOff p) v := by
  rw [State.pclLocWrite, guarded_of_admits h, c]; simp [b, idle]

/-- A write of VALID = 1 that R216 and R450 allow. -/
theorem locCheck_validate (b : bit v 31 = true) (pin : s.pclPinned p = false) (idle : s.pclValid p = false)
    (fits : bits v 11 0 + (bits v 23 12 + 1) ≤ 4096) (apart : s.overlaps (bits v 11 0) (bits v 23 12 + 1) = false)
    (alive : s.deadIn (bits v 11 0) (bits v 23 12 + 1) = false) (kindOne : s.pclKind p = 1 → bit v 30 = true ∧ bit v 29 = true)
    (kindTwo : s.pclKind p = 2 → bit v 30 = false) : s.locCheck p v = none := by
  simpa [State.locCheck, b, pin, idle, apart, alive, Nat.not_lt.mpr fits] using And.intro kindOne kindTwo

/-- A write of VALID = 1 that a check of R216 stops, whether or not the parcel is pinned. -/
theorem locCheck_validate_stopped (b : bit v 31 = true)
    (stop : s.pclValid p = true ∨ 4096 < bits v 11 0 + (bits v 23 12 + 1) ∨ s.overlaps (bits v 11 0) (bits v 23 12 + 1) = true ∨
      s.deadIn (bits v 11 0) (bits v 23 12 + 1) = true ∨ (s.pclKind p = 1 ∧ (bit v 30 = false ∨ bit v 29 = false)) ∨
      (s.pclKind p = 2 ∧ bit v 30 = true)) : s.locCheck p v = some .check := by
  rcases stop with h | h | h | h | ⟨k, h | h⟩ | ⟨k, h⟩
  case inr.inr.inr.inr.inl.inl | inr.inr.inr.inr.inl.inr | inr.inr.inr.inr.inr => simp [State.locCheck, b, k, h]
  all_goals simp [State.locCheck, b, h]

theorem locCheck_clear (b : bit v 31 = false) (pin : s.pclPinned p = false) (m : s.pclValid p = true → s.mayInvalidate p = true) :
    s.locCheck p v = none := by
  cases on : s.pclValid p <;> simp_all [State.locCheck]

theorem locCheck_clear_stopped (b : bit v 31 = false) (on : s.pclValid p = true) (m : s.mayInvalidate p = false) :
    s.locCheck p v = some .check := by
  simp [State.locCheck, b, on, m]

end

/-! ## A parcel that becomes valid (R216, R283) -/

/-- Entries of keys that f leaves out do not show in what f keeps. -/
theorem filterMap_set {α β : Type} [DecidableEq α] (d : Nat → α) (f : Nat × α → Option β) (k : Nat) (v : α) (l : List (Nat × α))
    (h : ∀ w, f (k, w) = none) : (SMap.set d k v l).filterMap f = l.filterMap f := by
  have erased : (SMap.erase k l).filterMap f = l.filterMap f := by
    unfold SMap.erase
    induction l with
    | nil => rfl
    | cons e t ih =>
      obtain ⟨a, w⟩ := e
      by_cases n : a = k
      · subst n; simp [h, ih]
      · simp [n, List.filterMap_cons, ih]
  have inserted : ∀ m : List (Nat × α), (SMap.insert k v m).filterMap f = m.filterMap f := by
    intro m
    induction m with
    | nil => simp [SMap.insert, h]
    | cons e t ih =>
      unfold SMap.insert
      split
      · simp [h]
      · rw [List.filterMap_cons, List.filterMap_cons, ih]
  unfold SMap.set
  split
  · exact erased
  · rw [inserted, erased]

/-- A register below the table does not show in the valid parcels. -/
theorem validParcels_wr (s : State) {off : Nat} (x : Word) (h : off < 0x1000) : (s.wr (uBG 0) off x).validParcels = s.validParcels := by
  have low : rk (uBG 0) off % 0x10000 = off := by unfold rk; omega
  refine filterMap_set (regReset s.part) _ _ x s.regs fun w => ?_
  simp [low, Nat.not_le.mpr h]

theorem pclSync_rd (s : State) : s.pclSync.rd (uBG 0) 0x200 = w32 s.pclSync.validParcels.length := by
  rw [State.pclSync, validParcels_wr s _ (by decide)]
  exact rd_wr_same ..

/-- Storing one value at offsets of a block. -/
theorem rd_storeAll (s : State) (u : Nat) (at_ : Nat → Nat) (w : Word) (l : List (Word × Nat)) (h : ∀ e ∈ l, e.1 = w) (v b : Nat) :
    (l.foldl (fun s (x : Word × Nat) => s.wr u (at_ x.2) x.1) s).rd v b =
      if l.any fun e => rk v b = rk u (at_ e.2) then w else s.rd v b := by
  induction l generalizing s with
  | nil => simp
  | cons e t ih =>
    rw [List.foldl_cons, ih _ (fun x m => h x (.tail _ m)), rd_wr, h e List.mem_cons_self, List.any_cons]
    by_cases k : rk v b = rk u (at_ e.2)
    · rw [if_pos k, decide_eq_true k, Bool.true_or, if_pos rfl, ite_self]
    · rw [if_neg k, decide_eq_false k, Bool.false_or]

theorem storeAll_butRegs (s : State) (u : Nat) (at_ : Nat → Nat) (l : List (Word × Nat)) :
    ButRegs s (l.foldl (fun s (x : Word × Nat) => s.wr u (at_ x.2) x.1) s) := by
  induction l generalizing s with
  | nil => exact .refl s
  | cons e t ih => exact (ButRegs.wr ..).trans (ih _)

/-- An empty weights digest is eight words of 0. -/
theorem setWd_empty (s : State) (p : Nat) : s.setWd p (List.replicate 32 0) =
    ((List.range 8).map fun i => ((0 : Word), i)).foldl (fun s (x : Word × Nat) => s.wr uDevctl (wdDigOff p + 4 * x.2) x.1) s := by
  have words : (bytesWords (List.replicate 32 0)).zipIdx = (List.range 8).map fun i => ((0 : Word), i) := by decide
  rw [← words]
  rfl

theorem setWd_empty_rd (s : State) (p v b : Nat) : (s.setWd p (List.replicate 32 0)).rd v b =
    if (List.range 8).any fun i => rk v b = rk uDevctl (wdDigOff p + 4 * i) then 0 else s.rd v b := by
  rw [setWd_empty, rd_storeAll s uDevctl (fun i => wdDigOff p + 4 * i) 0 _ (by simp), List.any_map]
  rfl

theorem setWd_empty_butRegs (s : State) (p : Nat) : ButRegs s (s.setWd p (List.replicate 32 0)) := by
  rw [setWd_empty]
  exact storeAll_butRegs s uDevctl (fun i => wdDigOff p + 4 * i) _

/-- The entry of a parcel that becomes valid: PCL_LOC with VALID set and LOST clear, PCL_AVAIL with full credits. -/
def State.entryValid (s : State) (p loc : Nat) : State :=
  let s := s.wr (uBG 0) (pclOff p) (setBit (setBit (w32 loc) 28 false) 31 true)
  s.setFld (uBG 0) (pclOff p + 12) 18 0 (s.pclSize p * 64)

/-- The digest of a parcel that becomes valid: empty, with a WD_STATUS of 0. -/
def State.digestEmpty (s : State) (p : Nat) : State := (s.setWd p (List.replicate 32 0)).wr uDevctl (wdStatOff p) 0

theorem validate_eq (s : State) (p loc : Nat) :
    s.validate p loc = (((s.entryValid p loc).digestEmpty p).setPclX p PclX.init).pclSync := rfl

/-- Beside registers, a parcel that becomes valid changes what is remembered of the parcel alone. -/
theorem validate_butRegs (s : State) (p loc : Nat) : ButRegs (s.setPclX p PclX.init) (s.validate p loc) := by
  have entry : ButRegs s (s.entryValid p loc) := (ButRegs.wr s ..).trans (.wr ..)
  have digest : ButRegs (s.entryValid p loc) ((s.entryValid p loc).digestEmpty p) := (setWd_empty_butRegs _ p).trans (.wr ..)
  rw [validate_eq]
  exact ((entry.trans digest).setPclX p _).trans (.wr ..)

theorem rk_polder_ne_devctl (o : Nat) {o' : Nat} (h : o' < 0x10000) : rk (uBG 0) o ≠ rk uDevctl o' := by
  unfold rk uBG uDevctl; omega

theorem rd_setPclX (s : State) (p : Nat) (x : PclX) (v b : Nat) : (s.setPclX p x).rd v b = s.rd v b := rfl

theorem pclX_setPclX (s : State) (p : Nat) (x : PclX) : (s.setPclX p x).pclX p = x := by
  unfold State.setPclX State.pclX; exact SMap.get_set_same ..

theorem validate_rd_devctl (s : State) (p loc : Nat) {o : Nat} (h : o < 0x10000) :
    (s.validate p loc).rd uDevctl o = ((s.entryValid p loc).digestEmpty p).rd uDevctl o := by
  rw [validate_eq, State.pclSync, rd_wr_ne _ _ _ _ _ _ (rk_polder_ne_devctl _ h).symm, rd_setPclX]

theorem pclSize_le (s : State) (p : Nat) : s.pclSize p ≤ 4096 := by
  have := bits_lt (s.pclLoc p) 23 12
  unfold State.pclSize; omega

section
variable {p : Nat} (hp : p < 1024)
include hp

theorem digestEmpty_rd_polder (s : State) (o : Nat) : (s.digestEmpty p).rd (uBG 0) o = s.rd (uBG 0) o := by
  have apart : ((List.range 8).any fun i => rk (uBG 0) o = rk uDevctl (wdDigOff p + 4 * i)) = false := by
    rw [List.any_eq_false]
    intro i hi
    have := List.mem_range.mp hi
    simpa using rk_polder_ne_devctl o (by unfold wdDigOff; omega)
  rw [State.digestEmpty, rd_wr_ne _ _ _ _ _ _ (rk_polder_ne_devctl o (by unfold wdStatOff; omega)), setWd_empty_rd, apart,
    if_neg Bool.false_ne_true]

theorem digestEmpty_rd_digest (s : State) {i : Nat} (hi : i < 8) : (s.digestEmpty p).rd uDevctl (wdDigOff p + 4 * i) = 0 := by
  have found : ((List.range 8).any fun j => rk uDevctl (wdDigOff p + 4 * i) = rk uDevctl (wdDigOff p + 4 * j)) = true :=
    List.any_eq_true.mpr ⟨i, List.mem_range.mpr hi, decide_eq_true rfl⟩
  have apart : rk uDevctl (wdDigOff p + 4 * i) ≠ rk uDevctl (wdStatOff p) := by unfold rk wdDigOff wdStatOff; omega
  rw [State.digestEmpty, rd_wr_ne _ _ _ _ _ _ apart, setWd_empty_rd, found, if_pos rfl]

/-- The table as a parcel that becomes valid leaves it, its count apart. -/
theorem validate_rd_polder (s : State) (loc : Nat) {o : Nat} (h : 0x1000 ≤ o) :
    (s.validate p loc).rd (uBG 0) o = (s.entryValid p loc).rd (uBG 0) o := by
  rw [validate_eq, State.pclSync, rd_wr_ne _ _ _ _ _ _ (by unfold rk; omega), rd_setPclX, digestEmpty_rd_polder hp]

theorem validate_pclLoc (s : State) (loc : Nat) : (s.validate p loc).pclLoc p = setBit (setBit (w32 loc) 28 false) 31 true := by
  rw [State.pclLoc, validate_rd_polder hp s loc (by unfold pclOff; omega), State.entryValid, State.setFld,
    rd_wr_ne _ _ _ _ _ _ (by unfold rk; omega), rd_wr_same]

/-- Full credits: one for each KiB of the parcel (R216). -/
theorem validate_pclAvail (s : State) (loc : Nat) : (s.validate p loc).pclAvail p = (s.validate p loc).pclSize p * 64 := by
  have size : (s.validate p loc).pclSize p = (s.wr (uBG 0) (pclOff p) (setBit (setBit (w32 loc) 28 false) 31 true)).pclSize p := by
    rw [State.pclSize, State.pclSize, validate_pclLoc hp, State.pclLoc, rd_wr_same]
  have most := pclSize_le (s.validate p loc) p
  rw [State.pclAvail, State.fld, validate_rd_polder hp s loc (by unfold pclOff; omega), State.entryValid, State.setFld, rd_wr_same,
    ← size, bits_setBits_same _ _ _ _ (by decide) (by decide)]
  omega

theorem validate_wdDigest (s : State) (loc : Nat) : (s.validate p loc).wdDigest p = List.replicate 32 0 := by
  have zero : ∀ i ∈ List.range 8, natBytes 4 ((s.validate p loc).rd uDevctl (wdDigOff p + 4 * i)).toNat = natBytes 4 0 := by
    intro i hi
    have := List.mem_range.mp hi
    rw [validate_rd_devctl s p loc (by unfold wdDigOff; omega), digestEmpty_rd_digest hp _ this]
    rfl
  rw [State.wdDigest, List.flatMap_congr zero]
  decide

theorem validate_wdStatus (s : State) (loc : Nat) : (s.validate p loc).rd uDevctl (wdStatOff p) = 0 := by
  rw [validate_rd_devctl s p loc (by unfold wdStatOff; omega)]
  exact rd_wr_same ..

end

/-- Settles O26: what guarded lets pass, what R216 checks, and the registers of a parcel that becomes valid. -/
theorem parcelWrites : Obligations.ParcelWrites := by
  unfold Obligations.ParcelWrites
  refine ⟨fun ini p v s hp => ?_, fun p loc s hp => ?_⟩
  · refine ⟨fun h => ⟨fun b pin idle fits apart alive kindOne kindTwo => ?_, fun b stop => ?_, fun b pin on may => ?_,
      fun b on may => ?_, fun b pin idle => ?_⟩, fun h => ⟨fun idle => ?_, fun on => ?_⟩, fun h => ⟨fun idle => ?_, fun on => ?_⟩,
      fun i hi h => ⟨fun pin => ?_, fun pin => ?_⟩⟩
    · exact (exec_pclLocWrite ini v s hp).trans
        (congrArg _ (pclLocWrite_validates h (locCheck_validate b pin idle fits apart alive kindOne kindTwo) b))
    · exact (exec_pclLocWrite ini v s hp).trans (congrArg _ (pclLocWrite_stopped h (locCheck_validate_stopped b stop)))
    · exact (exec_pclLocWrite ini v s hp).trans (congrArg _ (pclLocWrite_invalidates h (locCheck_clear b pin fun _ => may) b on))
    · exact (exec_pclLocWrite ini v s hp).trans (congrArg _ (pclLocWrite_stopped h (locCheck_clear_stopped b on may)))
    · exact (exec_pclLocWrite ini v s hp).trans
        (congrArg _ (pclLocWrite_stores h (locCheck_clear b pin fun on => by simp [idle] at on) b idle))
    · exact (exec_pclOwnerWrite ini v s hp).trans (congrArg _ (guardedStore_stores h (by simp [idle])))
    · exact (exec_pclOwnerWrite ini v s hp).trans (congrArg _ (guardedStore_stopped h (by simp [on])))
    · exact (exec_pclCreditWrite ini v s hp).trans (congrArg _ (guardedStore_stores h (by simp [idle])))
    · exact (exec_pclCreditWrite ini v s hp).trans (congrArg _ (guardedStore_stopped h (by simp [on])))
    · exact (exec_pclRightWrite ini v s hp hi).trans (congrArg _ (guardedStore_stores h (by simp [pin])))
    · exact (exec_pclRightWrite ini v s hp hi).trans (congrArg _ (guardedStore_stopped h (by simp [pin])))
  · intro t
    have frame := validate_butRegs s p loc
    exact ⟨validate_pclLoc hp s loc, validate_pclAvail hp s loc, (frame.pclX p).trans (pclX_setPclX ..), pclSync_rd _,
      validate_wdStatus hp s loc, validate_wdDigest hp s loc, frame.sameMemory, frame.sameMarks⟩

end Sys2Proof.Machine

namespace Sys2Proof.Machine

/-! ## Requests to one unit (R35–R37, R40) -/

section
variable {s : State} {u req rank : Nat}

theorem request_ring (s : State) (req rank : Nat) : s.request uRing req rank = s.ringRequest req rank := by
  rw [State.request, if_pos rfl]

/-- A unit that is no group takes a request that R36 gives no reason against. -/
theorem request_taken (leaf : s.leaves u = [u]) (n : u ≠ uRing) (r : s.reqReason u req rank none = 0) :
    s.request u req rank = (s.takeReq u req rank, 0, u) := by
  rw [State.request, if_neg n, if_pos leaf, if_pos r]

/-- A register write by the holder of the claim. -/
theorem ucbRequest_taken {ini : Nat} (e : s.exists? u = true) (leaf : s.leaves u = [u]) (n : u ≠ uRing) (five : iniRank ini = 5)
    (holds : ∃ c, s.claimOn u = some c ∧ c.ini = ini) (r : s.reqReason u req 5 none = 0) :
    s.ucbRequest ini u req = (s.takeReq u req 5).finishRequests := by
  obtain ⟨c, on, rfl⟩ := holds
  simp [State.ucbRequest, e, on, five, request_taken leaf n r]

end

/-! ## Call 0x0004 (R35–R38, R40) -/

/-- What call 0x0004 answers to a request's result. -/
def State.answerRequest (u req : Nat) : State × Nat × Nat → State
  | (t, reason, m) =>
    if reason != 0 then t.ret REFUSED [w32 reason, w32 m]
    else if t.reached u req then t.finishRequests.ret OK
    else t.retPending 0x0004 (u * 4 + req)

theorem callRequestState_eq {s : State} {u req : Nat} (e : s.exists? u = true) (least : 1 ≤ req) (most : req ≤ 3)
    (free : s.claimOn u = none) (leaf : s.leaves u = [u]) (ini : Nat) :
    callRequestState ini [w32 u, w32 req] s = State.answerRequest u req (s.request u req 5) := by
  have au : arg [w32 u, w32 req] 0 = u := toNat_unitWord e
  have ar : arg [w32 u, w32 req] 1 = req := (w32_toNat req).trans (Nat.mod_eq_of_lt (by omega))
  have unclaimed : s.claimed u = false := by rw [State.claimed, free]; rfl
  unfold callRequestState
  simp only [au, ar, e, leaf, unclaimed, List.any_cons, List.any_nil, Bool.or_false, Bool.not_true]
  rw [if_neg Bool.false_ne_true, if_neg (by simp; omega), if_neg Bool.false_ne_true]
  rfl

/-! ## Requests to the ring (R38, R594) -/

theorem leaves_ring (s : State) : s.leaves uRing = [uRing] := rfl

/-- The state of the ring's positions that a request starts from. -/
def ringFrom (req : Nat) : Nat := if req = 1 then 0 else if req = 2 then 2 else 3

/-- The state of the ring's positions that a request leads to. -/
def ringInto (req : Nat) : Nat := if req = 1 then 1 else if req = 2 then 3 else 0

/-- The ring has taken a request: its positions, the requester's rank, REASON 0 and REQUEST. -/
def State.ringTaken (s : State) (req rank : Nat) : State :=
  let t := (s.setPositions (ringInto req)).setUrun uRing { s.urun uRing with rank := rank }
  t.setUcb uRing 2 (setBits (setBits (t.ucb uRing 2) 11 8 0) 5 4 (if req = 1 then 1 else 0))

theorem ringRequest_eq {s : State} {req : Nat} (least : 1 ≤ req) (most : req ≤ 3) (idle : bits (s.ucb uRing 2) 5 4 = 0) (rank : Nat) :
    s.ringRequest req rank = match (List.range s.ringNpos).find? fun p => !decide (s.posState p = ringFrom req) with
      | some p => (s.refuseReq uRing 4, 4, p)
      | none => (s.ringTaken req rank, 0, uRing) := by
  have : req = 1 ∨ req = 2 ∨ req = 3 := by omega
  rcases this with rfl | rfl | rfl
  all_goals
    unfold State.ringRequest
    rw [if_neg (by simp [idle])]
    rfl

theorem ringRequest_taken {s : State} {req : Nat} (least : 1 ≤ req) (most : req ≤ 3) (idle : bits (s.ucb uRing 2) 5 4 = 0)
    (all : ∀ p, p < s.ringNpos → s.posState p = ringFrom req) (rank : Nat) :
    s.ringRequest req rank = (s.ringTaken req rank, 0, uRing) := by
  have none : ((List.range s.ringNpos).find? fun p => !decide (s.posState p = ringFrom req)) = none := by
    rw [List.find?_eq_none]
    intro p m
    simp [all p (List.mem_range.mp m)]
  rw [ringRequest_eq least most idle, none]

/-- The first position that is in another state refuses the request. -/
theorem ringRequest_refused {s : State} {req p : Nat} (least : 1 ≤ req) (most : req ≤ 3) (idle : bits (s.ucb uRing 2) 5 4 = 0)
    (lt : p < s.ringNpos) (before : ∀ k, k < p → s.posState k = ringFrom req) (n : s.posState p ≠ ringFrom req) (rank : Nat) :
    s.ringRequest req rank = (s.refuseReq uRing 4, 4, p) := by
  have first : ((List.range s.ringNpos).find? fun p => !decide (s.posState p = ringFrom req)) = some p := by
    rw [List.find?_range_eq_some]
    exact ⟨by simpa using n, List.mem_range.mpr lt, fun k lk => by simpa using before k lk⟩
  rw [ringRequest_eq least most idle, first]

/-! ## The end of draining (R35, R38) -/

theorem unitDrained_ring {s : State} (d : s.ustate uRing = 1) (quiet : s.ringQuiet = true) :
    s.unitDrained uRing = let t := s.setPositions 2
      (t.setUcb uRing 2 (setBits (t.ucb uRing 2) 5 4 0)).finishRequests := by
  rw [State.unitDrained, if_pos rfl, State.ringDrained, d, quiet]; rfl

theorem unitDrained_leaf {s : State} {u : Nat} (n : u ≠ uRing) (leaf : s.leaves u = [u]) (d : s.ustate u = 1)
    (idle : s.unitBusy u = false) : s.unitDrained u = (s.setState u 2).finishRequests := by
  simp [State.unitDrained, n, leaf, d, idle]

/-! ## Self-tests (R35, R574) -/

theorem injected_none {s : State} {u kind : Nat} (h : (s.injected u kind).2 = 0) : s.injected u kind = (s, 0) := by
  unfold State.injected at h ⊢
  cases k : s.inject.find? fun i => i.1 = u && i.2.1 = kind with
  | none => rfl
  | some i => simp [k] at h

theorem injectedBit_none {s : State} {u : Nat} (h : (s.injected u 0).2 = 0) : s.injectedBit u = s := by
  simp [State.injectedBit, injected_none h]

/-- A self-test has passed. -/
theorem testDone_passed {s : State} {u : Nat} (inTest : s.ustate u = 3) (runs : (s.urun u).testing = true)
    (held : (s.urun u).held = false) (task : ∃ k, (s.urun u).task = some k) (noBit : (s.injected u 0).2 = 0)
    (noFault : (s.injected u 1).2 = 0) :
    s.testDone u true =
      let t := ((s.setUrun u { s.urun u with testing := false, passed := true, held := false }).endTestTask u).fullTestPass u
      t.setUcb u 2 (setBits (t.ucb u 2) 5 4 0) := by
  obtain ⟨k, task⟩ := task
  simp [State.testDone, inTest, runs, held, task, injectedBit_none noBit, injected_none noFault]

/-- Settles O2: what a request answers, for one unit and for the ring; the ends of a Drain and of a Test. -/
theorem unitRequestsTaken : Obligations.UnitRequestsTaken := by
  unfold Obligations.UnitRequestsTaken
  refine ⟨fun s e => ⟨?_, ?_⟩, fun ini u s e leaf n => ⟨fun five holds => ⟨?_, ?_, ?_⟩, ?_, ?_, ?_⟩⟩
  · intro req least most free idle from_ t t'
    refine ⟨fun ini all => ?_, fun ini p lt before away => ?_⟩
    · have call := callRequestState_eq e least most free (leaves_ring s) ini
      rw [request_ring, ringRequest_taken least most idle all] at call
      exact congrArg Host.Outcome.next call
    · have call := callRequestState_eq e least most free (leaves_ring s) ini
      rw [request_ring, ringRequest_refused least most idle lt before away] at call
      exact congrArg Host.Outcome.next call
  · intro d quiet t
    exact congrArg (fun t : State => Host.Outcome.next t.updStep) (unitDrained_ring d quiet)
  · intro r; exact congrArg Host.Outcome.next (ucbRequest_taken e leaf n five holds r)
  · intro r; exact congrArg Host.Outcome.next (ucbRequest_taken e leaf n five holds r)
  · intro r; exact congrArg Host.Outcome.next (ucbRequest_taken e leaf n five holds r)
  · intro req least most free r
    have call := callRequestState_eq e least most free leaf ini
    rw [request_taken leaf n r] at call
    cases k : (s.takeReq u req 5).reached u req with
    | true => exact Gives.of rfl (call.trans (if_pos k)) (.inl ⟨rfl, rfl⟩)
    | false => exact Gives.of rfl (call.trans (if_neg (Bool.eq_false_iff.mp k))) (.inr ⟨rfl, rfl⟩)
  · intro d idle
    exact congrArg (fun t : State => Host.Outcome.next t.updStep) (unitDrained_leaf n leaf d idle)
  · intro inTest runs held task noBit noFault
    exact congrArg (fun t : State => Host.Outcome.next t.updStep) (testDone_passed inTest runs held task noBit noFault)

/-! ## Set points and the power cap (R522–R526) -/

theorem startStep_running {s : State} (h : s.pwr.step ≠ none) : s.startStep = s :=
  if_pos (Option.isSome_iff_ne_none.mpr h)

theorem startStep_there {s : State} (h : s.wantPoint = s.setpoint) : s.startStep = s := by
  rw [State.startStep, if_pos h, ite_self]

theorem startStep_starts {s : State} (n : s.pwr.step = none) (h : s.wantPoint ≠ s.setpoint) :
    s.startStep = { s with pwr := { s.pwr with
      step := some (if s.setpoint < s.wantPoint then s.setpoint + 1 else s.setpoint - 1) } } := by
  rw [State.startStep, n, if_neg (by simp), if_neg h]

theorem capBad_range {s : State} {w : Nat} (h : w < ratedPower s.part 0 ∨ ratedPower s.part 5 < w) : s.capBad w = RANGE := by
  simp [State.capBad, h]

theorem capBad_refused {s : State} {w : Nat} (low : ratedPower s.part 0 ≤ w) (high : w ≤ ratedPower s.part 5)
    (h : w < ratedPower s.part s.floorOf) : s.capBad w = REFUSED := by
  simp [State.capBad, Nat.not_lt.mpr low, Nat.not_lt.mpr high, h]

theorem capBad_ok {s : State} {w : Nat} (low : ratedPower s.part 0 ≤ w) (high : w ≤ ratedPower s.part 5)
    (h : ratedPower s.part s.floorOf ≤ w) : s.capBad w = OK := by
  simp [State.capBad, Nat.not_lt.mpr low, Nat.not_lt.mpr high, Nat.not_lt.mpr h]

section
variable {s : State} {ini : Nat} {v : Word}

theorem vcoreWrite_belowFloor (a : s.Admits ini uPwr 0x10C v false) (h : v.toNat < s.floorOf) :
    s.vcoreWrite ini v = s.accError ini (regAddr uPwr 0x10C) .check := by
  rw [State.vcoreWrite, guarded_of_admits a, if_pos h]

theorem vcoreWrite_taken (a : s.Admits ini uPwr 0x10C v false) (h : s.floorOf ≤ v.toNat) :
    s.vcoreWrite ini v = (s.wr uPwr 0x10C v).startStep.pointReached := by
  rw [State.vcoreWrite, guarded_of_admits a, if_neg (Nat.not_lt.mpr h)]

theorem capWrite_range (a : s.Admits ini uPwr 0x110 v false) (h : s.capBad v.toNat = RANGE) :
    s.capWrite ini v = s.accError ini (regAddr uPwr 0x110) .range := by
  rw [State.capWrite, guarded_of_admits a, h]; rfl

theorem capWrite_refused (a : s.Admits ini uPwr 0x110 v false) (h : s.capBad v.toNat = REFUSED) :
    s.capWrite ini v = s.accError ini (regAddr uPwr 0x110) .check := by
  rw [State.capWrite, guarded_of_admits a, h]; rfl

theorem capWrite_taken (a : s.Admits ini uPwr 0x110 v false) (h : s.capBad v.toNat = OK) :
    s.capWrite ini v = (s.wr uPwr 0x110 v).startStep.pointReached := by
  rw [State.capWrite, guarded_of_admits a, h]; rfl

end

section
variable {s : State} {args : List Word} (unclaimed : s.claimed uPwr = false) (idle : s.pwrBusy = false)
include unclaimed idle

theorem callSetPoint_belowFloor (r : arg args 0 ≤ 5) (h : arg args 0 < s.floorOf) : callSetPoint args s = s.ret REFUSED [8] := by
  simp [callSetPoint, Nat.not_lt.mpr r, unclaimed, idle, h]

theorem callSetPoint_taken (r : arg args 0 ≤ 5) (h : s.floorOf ≤ arg args 0) :
    callSetPoint args s =
      let t := (s.wr uPwr 0x10C (w32 (arg args 0))).startStep
      if t.setpoint = t.wantPoint then t.ret OK else t.retPending 0x0B02 uPwr := by
  simp [callSetPoint, Nat.not_lt.mpr r, unclaimed, idle, Nat.not_lt.mpr h]

theorem callSetCap_refused (h : s.capBad (arg args 0) = REFUSED) : callSetCap args s = s.ret REFUSED [1] := by
  simp [callSetCap, h, unclaimed, idle, REFUSED, OK]

theorem callSetCap_taken (h : s.capBad (arg args 0) = OK) :
    callSetCap args s = (s.wr uPwr 0x110 (w32 (arg args 0))).startStep.pointReached.ret OK := by
  simp [callSetCap, h, unclaimed, idle, OK]

end

theorem callSetCap_range {s : State} {args : List Word} (h : s.capBad (arg args 0) = RANGE) : callSetCap args s = s.ret RANGE := by
  simp [callSetCap, h, RANGE]

theorem stepDone_reached {s : State} {k : Nat} (h : s.pwr.step = some k) : s.stepDone true =
    (({ s with pwr := { s.pwr with step := none } } : State).setFld uPwr 0x100 22 20 k).startStep.pointReached := by
  rw [State.stepDone, h]; exact if_pos rfl

theorem stepDone_failed {s : State} {k : Nat} (h : s.pwr.step = some k) :
    s.stepDone false = let t : State := { s with pwr := { s.pwr with step := none } }
      (t.setFld uPwr 0x100 22 20 (min k t.setpoint)).recordFault fRAIL uPwr 0x4A noQueue 0 0 0 0 oNone := by
  rw [State.stepDone, h]; exact if_neg Bool.false_ne_true

/-! ## Windows of power (R523) -/

/-- The state once a window has shown its estimate e in POWER_EST. -/
def State.estimated (s : State) (e : Nat) : State := s.wr uPwr 0x114 (w32 e)

/-- So many windows in a row have been below the cap. -/
def State.setBelow (s : State) (n : Nat) : State := { s with pwr := { s.pwr with below := n } }

/-- The cap is exceeded at FLOOR, or it is not. -/
def State.setOverCap (s : State) (b : Bool) : State := s.setFlag uPwr 0x100 16 b

/-- The controller keeps when it has posted POWER_CAP. -/
def State.capPosted (s : State) : State := { s with pwr := { s.pwr with lastCap := some s.gauge.ticks } }

section
variable {s : State} {e : Nat} (small : e < 65536)
include small

/-- Over the cap: the controller's own set point goes down by one. -/
theorem windowEnd_down (above : 10 * (s.estimated e).capW < e)
    (h : ((s.estimated e).setBelow 0).floorOf < ((s.estimated e).setBelow 0).setpoint) :
    s.windowEnd e = let t := ((s.estimated e).setBelow 0).setOverCap false
      (t.capStep (t.pwr.own - 1)).startStep := by
  rw [State.windowEnd, Nat.mod_eq_of_lt small]
  exact (if_pos above).trans (if_neg (Nat.not_le.mpr h))

/-- Over the cap at FLOOR, for the first time: POWER_CAP is posted. -/
theorem windowEnd_atFloor (above : 10 * (s.estimated e).capW < e)
    (h : ((s.estimated e).setBelow 0).setpoint ≤ ((s.estimated e).setBelow 0).floorOf)
    (first : ((s.estimated e).setBelow 0).pwr.lastCap = none) :
    s.windowEnd e = let t := ((s.estimated e).setBelow 0).setOverCap true
      t.capPosted.postAll 0x0051 uPwr e t.setpoint t.routedClients := by
  have none : (((s.estimated e).setBelow 0).setOverCap true).pwr.lastCap = none := first
  rw [State.windowEnd, Nat.mod_eq_of_lt small]
  refine (if_pos above).trans ((if_pos h).trans (if_pos ?_))
  rw [← State.setBelow, ← State.estimated, ← State.setOverCap, none]

section
variable (within : e ≤ 10 * (s.estimated e).capW)
include within

theorem windowEnd_near (h : ¬e < 10 * (((s.estimated e).setOverCap false).capW - 5)) :
    s.windowEnd e = ((s.estimated e).setOverCap false).setBelow 0 := by
  rw [State.windowEnd, Nat.mod_eq_of_lt small]
  exact (if_neg (Nat.not_lt.mpr within)).trans (if_neg h)

theorem windowEnd_low (h : e < 10 * (((s.estimated e).setOverCap false).capW - 5))
    (few : ((s.estimated e).setOverCap false).pwr.below + 1 < 10) :
    s.windowEnd e = let t := (s.estimated e).setOverCap false
      t.setBelow (t.pwr.below + 1) := by
  rw [State.windowEnd, Nat.mod_eq_of_lt small]
  exact (if_neg (Nat.not_lt.mpr within)).trans ((if_pos h).trans (if_neg (Nat.not_le.mpr few)))

/-- The tenth window in a row below the cap: the controller's own set point goes up by one. -/
theorem windowEnd_up (h : e < 10 * (((s.estimated e).setOverCap false).capW - 5))
    (ten : 10 ≤ ((s.estimated e).setOverCap false).pwr.below + 1) :
    s.windowEnd e = let t := (s.estimated e).setOverCap false
      ((t.setBelow 0).capStep (min 5 (t.pwr.own + 1))).startStep := by
  rw [State.windowEnd, Nat.mod_eq_of_lt small]
  exact (if_neg (Nat.not_lt.mpr within)).trans ((if_pos h).trans (if_pos ten))

end
end

/-! ## Windows of a rate monitor (R24–R27) -/

/-- Monitor m's calibration comes into force at the end of its window. -/
def State.monitorCal (s : State) (m : Nat) : State :=
  s.calApply fun k => calKeyOf (rateBlock m).1 2 k && k % 4096 = (if m = 7 then 1 else 0)

/-- RATE_NOW of monitor m shows n. -/
def State.showRate (s : State) (m n : Nat) : State := s.setFld (rateBlock m).1 (rateBlock m).2 15 0 n

/-- RATE_MIN of monitor m falls to n. -/
def State.lowerRate (s : State) (m n : Nat) : State :=
  if n < s.fld (rateBlock m).1 ((rateBlock m).2 + 4) 15 0 then s.setFld (rateBlock m).1 ((rateBlock m).2 + 4) 15 0 n else s

/-- RATE_MAX of monitor m rises to n. -/
def State.raiseRate (s : State) (m n : Nat) : State :=
  if s.fld (rateBlock m).1 ((rateBlock m).2 + 8) 15 0 < n then s.setFld (rateBlock m).1 ((rateBlock m).2 + 8) 15 0 n else s

/-- A window of a unit that was on has shown its rate n. -/
def State.ratesShown (s : State) (m n : Nat) : State := (((s.monitorCal m).showRate m n).lowerRate m n).raiseRate m n

/-- The domain of cluster m's monitor is off. -/
def State.monitorDown (s : State) (m : Nat) : Prop := m < 6 ∧ (s.monitorCal m).domainOff (uVE m) = true

theorem rateWindow_down {s : State} {m : Nat} (down : s.monitorDown m) (n : Nat) (off : Bool) :
    s.rateWindow m n off = ((s.monitorCal m).wr (rateBlock m).1 (rateBlock m).2 0).setRateMon m
      { (s.monitorCal m).rateMon m with below := 0, first := true } := by
  have test : (m < 6 && (s.monitorCal m).domainOff (uVE m)) = true := by simpa [State.monitorDown] using down
  rw [State.rateWindow]
  exact (if_pos ((Bool.or_eq_true ..).mpr (.inr test))).trans (congrArg (fun t : State => t.setRateMon m _) (if_pos test))

section
variable {s : State} {m n : Nat} (small : n < 2 ^ 16) (up : ¬s.monitorDown m)
include small up

theorem rateWindow_off : s.rateWindow m n true = ((s.monitorCal m).showRate m n).setRateMon m
      { (s.monitorCal m).rateMon m with below := 0, first := true } := by
  have test : (m < 6 && (s.monitorCal m).domainOff (uVE m)) = false := by simpa [State.monitorDown] using up
  rw [State.rateWindow, Nat.mod_eq_of_lt small]
  exact congrArg (fun t : State => t.setRateMon m _) (if_neg (Bool.eq_false_iff.mp test))

/-- A window of a unit that was on: shown, and compared unless it is the first. -/
theorem rateWindow_on :
    s.rateWindow m n false = let r := (s.monitorCal m).rateMon m
      let v := s.ratesShown m n
      if r.first then v.setRateMon m { r with below := 0, first := false }
      else if 8 * n < v.rateThreshold8 m then
        if r.below + 1 < 2 || !r.armed then v.setRateMon m { r with below := r.below + 1 }
        else (v.setRateMon m { r with below := r.below + 1, armed := false }).rateAlarm m
      else v.setRateMon m { r with below := 0, armed := true } := by
  have test : (m < 6 && (s.monitorCal m).domainOff (uVE m)) = false := by simpa [State.monitorDown] using up
  rw [State.rateWindow, Nat.mod_eq_of_lt small]
  exact if_neg (Bool.eq_false_iff.mp test)

theorem rateWindow_first (first : ((s.monitorCal m).rateMon m).first = true) :
    s.rateWindow m n false =
      (s.ratesShown m n).setRateMon m { (s.monitorCal m).rateMon m with below := 0, first := false } :=
  (rateWindow_on small up).trans (if_pos first)

variable (later : ((s.monitorCal m).rateMon m).first = false)
include later

theorem rateWindow_above (above : ¬8 * n < (s.ratesShown m n).rateThreshold8 m) :
    s.rateWindow m n false =
      (s.ratesShown m n).setRateMon m { (s.monitorCal m).rateMon m with below := 0, armed := true } :=
  (rateWindow_on small up).trans ((if_neg (Bool.eq_false_iff.mp later)).trans (if_neg above))

variable (below : 8 * n < (s.ratesShown m n).rateThreshold8 m)
include below

theorem rateWindow_below (h : ((s.monitorCal m).rateMon m).below + 1 < 2 ∨ ((s.monitorCal m).rateMon m).armed = false) :
    s.rateWindow m n false = let r := (s.monitorCal m).rateMon m
      (s.ratesShown m n).setRateMon m { r with below := r.below + 1 } := by
  refine (rateWindow_on small up).trans ((if_neg (Bool.eq_false_iff.mp later)).trans ((if_pos below).trans (if_pos ?_)))
  simpa using h

theorem rateWindow_alarm (two : 2 ≤ ((s.monitorCal m).rateMon m).below + 1) (armed : ((s.monitorCal m).rateMon m).armed = true) :
    s.rateWindow m n false = let r := (s.monitorCal m).rateMon m
      ((s.ratesShown m n).setRateMon m { r with below := r.below + 1, armed := false }).rateAlarm m := by
  refine (rateWindow_on small up).trans ((if_neg (Bool.eq_false_iff.mp later)).trans ((if_pos below).trans (if_neg ?_)))
  simp [armed, Nat.not_lt.mpr two]

end

/-- Settles O51: each operation by its cases; a write to a set point or the cap by what guarded lets pass. -/
theorem setPointsAndRates : Obligations.SetPointsAndRates := by
  unfold Obligations.SetPointsAndRates
  refine ⟨?_, fun s => ⟨startStep_running, startStep_there, startStep_starts⟩, ?_, ?_, ?_, ?_⟩
  · intro ini w s v
    refine ⟨fun a => ⟨?_, ?_⟩, ?_⟩
    · intro h; exact congrArg Host.Outcome.next (vcoreWrite_belowFloor a h)
    · intro h; exact congrArg Host.Outcome.next (vcoreWrite_taken a h)
    · intro a low high
      refine ⟨?_, ?_, ?_⟩
      · intro h; exact congrArg Host.Outcome.next (capWrite_range a (capBad_range h))
      · intro l g h; exact congrArg Host.Outcome.next (capWrite_refused a (capBad_refused l g h))
      · intro l g h; exact congrArg Host.Outcome.next (capWrite_taken a (capBad_ok l g h))
  · intro k s h t
    exact ⟨congrArg Host.Outcome.next (stepDone_reached h), congrArg Host.Outcome.next (stepDone_failed h)⟩
  · intro e s small t down
    refine ⟨?_, ?_, ?_, ?_, ?_⟩
    · intro above h; exact congrArg Host.Outcome.next (windowEnd_down small above h)
    · intro above h first u; exact congrArg Host.Outcome.next (windowEnd_atFloor small above h first)
    · intro u within h; exact congrArg Host.Outcome.next (windowEnd_near small within h)
    · intro u within h few; exact congrArg Host.Outcome.next (windowEnd_low small within h few)
    · intro u within h ten; exact congrArg Host.Outcome.next (windowEnd_up small within h ten)
  · intro ini args s unclaimed idle a
    refine ⟨fun r h => congrArg Host.Outcome.next (callSetPoint_belowFloor unclaimed idle r h), ?_,
      fun h => congrArg Host.Outcome.next (callSetCap_range (capBad_range h)),
      fun low high h => congrArg Host.Outcome.next (callSetCap_refused unclaimed idle (capBad_refused low high h)),
      fun low high h => congrArg Host.Outcome.next (callSetCap_taken unclaimed idle (capBad_ok low high h))⟩
    intro r h t
    have taken := callSetPoint_taken unclaimed idle r h
    exact ⟨fun there => congrArg Host.Outcome.next (taken.trans (if_pos there)), fun away => congrArg Host.Outcome.next (taken.trans (if_neg away))⟩
  · intro m n s _ small b c t u v r down
    refine ⟨?_, ?_, ?_, ?_, ?_, ?_⟩
    · intro d off; exact congrArg Host.Outcome.next (rateWindow_down d n off)
    · intro d; exact congrArg Host.Outcome.next (rateWindow_off small d)
    · intro d first; exact congrArg Host.Outcome.next (rateWindow_first small d first)
    · intro d later h; exact congrArg Host.Outcome.next (rateWindow_above small d later h)
    · intro d later below h; exact congrArg Host.Outcome.next (rateWindow_below small d later below h)
    · intro d later below two armed; exact congrArg Host.Outcome.next (rateWindow_alarm small d later below two armed)

/-! ## The Mill's coefficients behind a firewall (R417, R449) -/

/-- A caller that neither owns the loop nor passes the firewalls to the Mill reads no coefficients. -/
theorem callReadCoefficients_denied {s : State} {ini : Nat} {args : List Word} (l : arg args 0 ≤ 95) (n : arg args 2 ≤ 64)
    (fn : arg args 1 + arg args 2 ≤ 256) (m : s.millMay ini false (some (arg args 0)) = false) :
    callReadCoefficients ini args s = s.ret DENIED := by
  simp [callReadCoefficients, m, Nat.not_lt.mpr l, Nat.not_lt.mpr n, Nat.not_lt.mpr fn]

/-- After reset, with firewall entry 0 over the Mill's block (base 0x20D0_0000, 64 KiB) for initiator 0x180 alone. -/
def millFenced : State :=
  ((State.reset.wr uWarden 0xA00 0x20D00001).wr uWarden 0xA08 16).wr uWarden 0xA0C 0xBFF00180

/-- Initiator 0x101 may not read loop 0 there, the supervisor may. -/
theorem millFenced_may : millFenced.millMay 0x101 false (some 0) = false ∧ millFenced.millMay 0x180 false (some 0) = true := by
  decide +kernel

/-- Refutes O25: the clause of call 0x0705 leaves out that the caller must own the loop or pass the firewalls (R417): where
firewall entry 0 keeps the Mill to 0x180, the call of 0x101 for no coefficient of loop 0 is DENIED. -/
theorem not_stateReads : ¬Obligations.StateReads := by
  unfold Obligations.StateReads
  intro h
  obtain ⟨-, -, -, -, -, -, -, -, -, -, coefficients, -⟩ := h 0x101 [0, 0, 0] millFenced
  have ok := coefficients (by decide) (by decide) (by decide)
  have denied : exec (.readCoefficients 0x101 [0, 0, 0]) millFenced = .next (millFenced.ret DENIED) :=
    congrArg Host.Outcome.next (callReadCoefficients_denied (by decide) (by decide) (by decide) millFenced_may.1)
  have status := congrArg (·.call.status) (Host.Outcome.next.inj (ok.symm.trans denied))
  exact absurd status (by decide)

end Sys2Proof.Machine

namespace Sys2Proof.Machine

/-! ## Numerics calls (R67, R69, R72, R74–R76) -/

theorem callNumId_read {args : List Word} {s : State} (e : s.exists? (arg args 0) = true) (n : numUnit (arg args 0) = true) :
    callNumId args s = s.ret OK [s.rd (arg args 0) 0x300] := by
  simp [callNumId, e, n]

theorem callWindowBounds_computed {args : List Word} {s : State} (fa : fmtInput (arg args 0) = true) (fb : fmtInput (arg args 1) = true)
    (za : zpOk (arg args 0) (argInt args 2) = true) (zb : zpOk (arg args 1) (argInt args 3) = true)
    (spread : argInt args 4 ≤ argInt args 5) {we wn : Int}
    (w : windowBounds (arg args 0) (argInt args 2) (arg args 1) (argInt args 3) (argInt args 4) (argInt args 5) = (we, wn)) :
    callWindowBounds args s = s.ret OK [intWord we, intWord wn, if wn ≤ we then 1 else 0] := by
  have flag : w32 (b2n (wn ≤ we)) = if wn ≤ we then 1 else 0 := by
    by_cases h : wn ≤ we <;> simp [h, b2n, w32]
  simp [callWindowBounds, fa, fb, za, zb, Int.not_lt.mpr spread, w, flag]

/-- Call 0x0E02 writes valid entries as the caller in the state that reading them leaves. -/
theorem callWriteRescale_written {ini : Nat} {args : List Word} {s t u : State} {bs : List Byte} (few : arg args 3 ≤ 65536)
    (fmt : fmtOutput (arg args 6) = true)
    (may : s.polderAllowed ini (argAddr args 0 + 16 * arg args 2) (16 * arg args 3) true = true)
    (read : s.callRead ini (argAddr args 4) (pagesFor (16 * arg args 3)) (16 * arg args 3) = (t, .ok, bs))
    (valid : ∀ i, i < arg args 3 → (rescaleOf ((bs.drop (16 * i)).take 16)).ok (arg args 6) = true)
    (put : t.polWrite ini (argAddr args 0 + 16 * arg args 2) bs = (u, 0)) : callWriteRescale ini args s = u.ret OK := by
  have allValid : (lowest (arg args 3) fun i => !(rescaleOf ((bs.drop (16 * i)).take 16)).ok (arg args 6)) = none :=
    lowest_none fun i h => by simp [valid i h]
  simp [callWriteRescale, Nat.not_lt.mpr few, fmt, may, read, allValid, put]

theorem callReadStats_read {ini : Nat} {args : List Word} {s t : State} {bs : List Byte} (few : arg args 3 ≤ 64)
    (may : s.polderAllowed ini (argAddr args 0 + 32 * arg args 2) (32 * arg args 3) false = true)
    (read : s.polRead ini (argAddr args 0 + 32 * arg args 2) (32 * arg args 3) = (t, 0, bs)) :
    callReadStats ini args s = t.ret OK (bytesWords bs) := by
  simp [callReadStats, Nat.not_lt.mpr few, may, read]

theorem callScaleGuard_set {ini : Nat} {args : List Word} {s : State} (c : s.Changeable (arg args 0))
    (n : numUnit (arg args 0) = true) (spill : arg args 1 ≤ 0xFFFF) (under : arg args 2 ≤ 0xFFFF) :
    callScaleGuard ini args s =
      ((s.wr (arg args 0) 0x304 (w32 (arg args 1))).wr (arg args 0) 0x308 (w32 (arg args 2))).ret OK := by
  simp [callScaleGuard, mayChange_of c, n, Nat.not_lt.mpr spill, Nat.not_lt.mpr under]

/-- The offsets of call 0x0E05 are those of R76, 0x30C to 0x328. -/
theorem callNumTotals_read {args : List Word} {s : State} (e : s.exists? (arg args 0) = true) (n : numUnit (arg args 0) = true) :
    callNumTotals args s = s.retRegs (arg args 0) [0x30C, 0x310, 0x314, 0x318, 0x31C, 0x320, 0x324, 0x328] := by
  simp [callNumTotals, e, n, List.range_succ]

/-- Settles O4: one equation for each of the six calls, in the case that lets it through. -/
theorem numericsCallsComplete : Obligations.NumericsCallsComplete := by
  unfold Obligations.NumericsCallsComplete
  rintro ini args s u rfl
  refine ⟨?_, ?_, ?_, ?_, ?_, ?_⟩
  · intro e n; exact congrArg Host.Outcome.next (callNumId_read e n)
  · intro fa fb za zb spread we wn w; exact congrArg Host.Outcome.next (callWindowBounds_computed fa fb za zb spread w)
  · intro few fmt may t bs read valid t' put
    exact congrArg Host.Outcome.next (callWriteRescale_written few fmt may read valid put)
  · intro few may t bs read; exact congrArg Host.Outcome.next (callReadStats_read few may read)
  · intro e free n spill under; exact congrArg Host.Outcome.next (callScaleGuard_set ⟨e, free⟩ n spill under)
  · intro e n; exact congrArg Host.Outcome.next (callNumTotals_read e n)

end Sys2Proof.Machine

namespace Sys2Proof.Machine

/-! ## The spare tile's enable and the reads of clusters and tiles (R88, R91, R99, R100, R102) -/

section
variable {s : State} {ini : Nat} {args : List Word}

/-- A write of CL_CFG while T8 stands in for no tile sets SPARE_EN to bit 0. -/
theorem clCfgWrite_setsSpareEn {c v : Nat} (a : s.Admits ini (uTC c) 0x200 (w32 v) false) (idle : s.spareStands c = false) :
    s.clCfgWrite ini c v = s.setSpareEn c (v % 2 = 1) := by
  rw [State.clCfgWrite, guarded_of_admits a]
  simp [idle]

theorem callSpareEnable_set (c : s.Changeable (arg args 0)) (k : unitClass (arg args 0) = some .tc) (least : arg args 1 ≤ 1)
    (idle : s.spareStands (arg args 0 - 0x10) = false) :
    callSpareEnable ini args s = (s.setSpareEn (arg args 0 - 0x10) (arg args 1 = 1)).ret OK := by
  simp [callSpareEnable, mayChange_of c, k, Nat.not_lt.mpr least, idle]

theorem callClusterStatus_read (e : s.exists? (arg args 0) = true) (k : unitClass (arg args 0) = some .tc) :
    callClusterStatus args s = s.retRegs (arg args 0) [0x204, 0x208, 0x20C, 0x220] := by
  simp [callClusterStatus, e, k]

/-- The state of a call that has read a tile's counters: TILE_TEST, with its age in ms, comes after the registers. -/
def State.retTileCounters (s : State) (u : Nat) : State :=
  let t := s.retRegs u [0x100, 0x108, 0x10C, 0x110, 0x114, 0x118]
  { t with call := ⟨OK, t.call.words ++ [t.tileTest u]⟩ }

theorem retRegs_status (s : State) (u : Nat) (offs : List Nat) : (s.retRegs u offs).call.status = OK := rfl

theorem callTileCounters_read (e : s.exists? (arg args 0) = true)
    (k : unitClass (arg args 0) = some .tile ∨ unitClass (arg args 0) = some .spareTile) :
    callTileCounters args s = s.retTileCounters (arg args 0) := by
  have tile : (unitClass (arg args 0) != some .tile && unitClass (arg args 0) != some .spareTile) = false := by
    rcases k with k | k <;> simp [k]
  simp [callTileCounters, e, tile, State.retTileCounters, retRegs_status]

end

/-! ## Gangs (R95, R98, R101) -/

theorem mem_setIndices_lt {n m k : Nat} (h : k ∈ setIndices n m) : k < n := List.mem_range.mp (List.mem_filter.mp h).1

theorem setIndices_nodup (n m : Nat) : (setIndices n m).Nodup := List.nodup_range.filter _

theorem unitClass_uTC {k : Nat} (lt : k < 6) : unitClass (uTC k) = some .tc := by
  interval_cases k <;> rfl

/-- An enabled cluster is one of those its grade has. -/
theorem lt_numTC {s : State} {k : Nat} (lt : k < 6) (e : s.exists? (uTC k) = true) : k < numTC s.part := by
  have number : uTC k - 0x10 = k := Nat.add_sub_cancel_left ..
  cases grade : s.part.grade1640 with
  | false => simpa [numTC, grade] using lt
  | true => simpa [State.exists?, unitClass_uTC lt, fusedOff, grade, numTC, number] using e

/-- Enabled clusters are at most as many as the grade has. -/
theorem setIndices_length_le_numTC {s : State} {m : Nat} (e : ∀ k ∈ setIndices 6 m, s.exists? (uTC k) = true) :
    (setIndices 6 m).length ≤ numTC s.part := by
  have sub : setIndices 6 m ⊆ List.range (numTC s.part) := fun k h => List.mem_range.mpr (lt_numTC (mem_setIndices_lt h) (e k h))
  simpa using ((setIndices_nodup 6 m).subperm sub).length_le

/-- What R95 and R102 ask of a member of a gang that ini forms: enabled, In Service, in no gang, under no claim of another and with
no reservation of its real-time context. -/
def State.MayJoin (s : State) (ini k : Nat) : Prop :=
  s.exists? (uTC k) = true ∧ s.gangOf k = none ∧ s.foreignClaim ini (uTC k) = false ∧ (∀ r ∈ s.reservs, r.ctx ≠ .realTime k) ∧
    s.ustate (uTC k) = 0

/-- A gang g of the members in mask m is being formed. -/
def State.gangForming (s : State) (g m : Nat) : State := { s with gangs := s.gangs ++ [⟨g, m, .forming⟩] }

section
variable {s : State} {ini : Nat} {args : List Word}

theorem callFormGang_taken (mask : arg args 0 < 64) (two : 2 ≤ (setIndices 6 (arg args 0)).length)
    (join : ∀ k ∈ setIndices 6 (arg args 0), s.MayJoin ini k) {g : Nat}
    (free : (lowest (if s.part.grade1640 then 2 else 3) fun g => !s.gangs.any (·.g = g)) = some g) :
    callFormGang ini args s =
      let t := s.gangForming g (arg args 0)
      if t.membersBusy (arg args 0) then t.retPending 0x0011 g [w32 (uGang g)] else (t.gangForm g).ret OK [w32 (uGang g)] := by
  have range : (64 ≤ arg args 0 || (setIndices 6 (arg args 0)).length < 2 ||
      numTC s.part < (setIndices 6 (arg args 0)).length) = false := by
    simpa [Nat.not_le.mpr mask, Nat.not_lt.mpr two] using setIndices_length_le_numTC fun k h => (join k h).1
  have noMember {p : Nat → Bool} (h : ∀ k, s.MayJoin ini k → p k = false) : (setIndices 6 (arg args 0)).any p = false :=
    List.any_eq_false.mpr fun k m => by simp [h k (join k m)]
  have enabled := noMember (p := fun c => !s.exists? (uTC c)) fun k ⟨e, _⟩ => by simp [e]
  have single := noMember (p := fun c => (s.gangOf c).isSome) fun k ⟨_, n, _⟩ => by simp [n]
  have unbarred := noMember (p := fun c => s.foreignClaim ini (uTC c) || s.reservs.any (fun r => r.ctx = .realTime c))
    fun k ⟨_, _, own, unreserved, _⟩ => by simpa [own] using unreserved
  have inService := noMember (p := fun c => s.ustate (uTC c) != 0) fun k ⟨_, _, _, _, u⟩ => by simp [u]
  simp only [callFormGang, range, enabled, single, unbarred, inService, free]
  rfl

theorem gangFormed_idle {g : Nat} {x : Gang} (f : s.gangs.find? (fun x => x.g = g && x.stage = .forming) = some x)
    (idle : s.membersBusy x.members = false) : s.gangFormed g = (s.gangForm g).finish 0x0011 g OK := by
  simp [State.gangFormed, f, idle]

theorem callDissolveGang_idle (c : s.Changeable (arg args 0)) (k : unitClass (arg args 0) = some .gang)
    (first : s.callWaits 0x0012 (arg args 0 - 0x140) = false) (idle : s.unitBusy (arg args 0) = false) :
    callDissolveGang ini args s = (s.gangGone (arg args 0 - 0x140)).ret OK := by
  simp [callDissolveGang, mayChange_of c, k, first, idle]

theorem gangDissolved_idle {g : Nat} {x : Gang} (f : s.gangs.find? (fun x => x.g = g && x.stage = .dissolving) = some x)
    (idle : s.unitBusy (uGang g) = false) : s.gangDissolved g = (s.gangGone g).finish 0x0012 g OK := by
  simp [State.gangDissolved, f, idle]

end

/-- Settles O5: one equation for each command, in the case that lets it through; a gang's members are no more than the grade's
clusters because each of them is enabled. -/
theorem clusterCommandsComplete : Obligations.ClusterCommandsComplete := by
  unfold Obligations.ClusterCommandsComplete
  rintro ini c args s u rfl
  refine ⟨?_, ?_, ?_, ?_, ?_, ?_, ?_, ?_, ?_⟩
  · intro v a idle; exact congrArg Host.Outcome.next (clCfgWrite_setsSpareEn a idle)
  · intro ch k least idle; exact congrArg Host.Outcome.next (callSpareEnable_set ch k least idle)
  · intro e k; exact congrArg Host.Outcome.next (callClusterStatus_read e k)
  · intro e k; exact congrArg Host.Outcome.next (callTileCounters_read e k)
  · rfl
  · rintro mask two join g free t rfl
    exact congrArg Host.Outcome.next (callFormGang_taken mask two join free)
  · intro x f idle; exact congrArg Host.Outcome.next (gangFormed_idle f idle)
  · intro ch k first idle; exact congrArg Host.Outcome.next (callDissolveGang_idle ch k first idle)
  · intro x f idle; exact congrArg Host.Outcome.next (gangDissolved_idle f idle)

end Sys2Proof.Machine

namespace Sys2Proof.Machine

/-! ## Toe engines: the feed, the counters and the padding-tap table (R118, R130, R132, R134) -/

/-- A value of TE_FEED's bits 7:0 that names no pipeline, 0xFF, or an enabled one of the 16 Press pipelines (R130). -/
def State.Feeds (s : State) (p : Nat) : Prop := p = 0xFF ∨ (p < 16 ∧ s.exists? (uPP p) = true)

theorem State.Feeds.inRange {s : State} {p : Nat} (h : s.Feeds p) : (p != 0xFF && 16 ≤ p) = false := by
  rcases h with rfl | ⟨least, -⟩
  · rfl
  · simp [Nat.not_le.mpr least]

theorem State.Feeds.enabled {s : State} {p : Nat} (h : s.Feeds p) : (p != 0xFF && !s.exists? (uPP p)) = false := by
  rcases h with rfl | ⟨-, e⟩
  · rfl
  · simp [e]

section
variable {s : State} {ini : Nat} {args : List Word}

theorem teFeedWrite_binds {e v : Nat} (a : s.Admits ini (uTE e) 0x104 (w32 v) false) (idle : s.teBusy e = false)
    (free : s.feedTaken e (v % 256) = false) (feeds : s.Feeds (v % 256)) :
    s.teFeedWrite ini e v = s.wr (uTE e) 0x104 (w32 v) := by
  rw [State.teFeedWrite, guarded_of_admits a]
  simp only [idle, free, feeds.inRange, feeds.enabled]
  rfl

theorem callBindFeed_binds (c : s.Changeable (arg args 0)) (k : unitClass (arg args 0) = some .te)
    (idle : s.teBusy (arg args 0 - 0x88) = false) (free : s.feedTaken (arg args 0 - 0x88) (arg args 1) = false)
    (feeds : s.Feeds (arg args 1)) : callBindFeed ini args s = (s.wr (arg args 0) 0x104 (w32 (arg args 1))).ret OK := by
  simp only [callBindFeed, mayChange_of c, k, feeds.inRange, feeds.enabled, idle, free]
  rfl

theorem callToeStatus_read (e : s.exists? (arg args 0) = true) (k : unitClass (arg args 0) = some .te) :
    callToeStatus args s = s.retRegs (arg args 0) [0x100, 0x104, 0x108, 0x120] := by
  simp [callToeStatus, e, k]

theorem callToeCounters_read (e : s.exists? (arg args 0) = true) (k : unitClass (arg args 0) = some .te) :
    callToeCounters args s = s.retRegs (arg args 0) [0x114, 0x118, 0x10C, 0x110, 0x11C, 0x124] := by
  simp [callToeCounters, e, k]

/-- Call 0x0E06 writes the table that the weights give as the caller, in the state that reading them leaves. -/
theorem callTapTable_written (ok : tapArgsOk args = true) (may : s.tapRights ini args = true)
    (clean : (s.tapTable ini args).fault = 0) {t : State}
    (put : (s.tapTable ini args).s.polWrite ini (argAddr args 14) (s.tapTable ini args).v = (t, 0)) :
    callTapTable ini args s = t.ret OK := by
  simp [callTapTable, ok, may, clean, put]

/-! ## Winograd bounds (R67, R116) -/

/-- A truth value as a result word. -/
theorem w32_b2n (p : Prop) [Decidable p] : w32 (b2n p) = if p then 1 else 0 := by
  by_cases h : p <;> simp [h, b2n, w32]

/-- W_EXACT of call 0x0E07, of the format and the least scale exponent of V. -/
def winogradExact (args : List Word) : Int := fmtLow (arg args 2) + argInt args 3

/-- W_NOSPILL of call 0x0E07, with 100 times the largest |v − z| of R67's table, 15 for INT4 and 255 for 8-bit operands. -/
def winogradNoSpill (args : List Word) : Int :=
  flog2Exact (100 * (if arg args 0 = 0 then 15 else 255) * (fmtBig (arg args 2) 0).1) (fmtBig (arg args 2) 0).2 + argInt args 4 - 50

theorem callWinogradBounds_computed (int : fmtIsInt (arg args 0) = true) (za : zpOk (arg args 0) (argInt args 1) = true)
    (fb : fmtInput (arg args 2) = true) (spread : argInt args 3 ≤ argInt args 4) :
    callWinogradBounds args s = s.ret OK [intWord (winogradExact args), intWord (winogradNoSpill args),
      if winogradNoSpill args ≤ winogradExact args then 1 else 0] := by
  rw [← w32_b2n]
  simp [callWinogradBounds, int, za, fb, Int.not_lt.mpr spread, winogradExact, winogradNoSpill]

/-! ## Vector engines (R140–R142, R145, R161, R162) -/

/-- A write of VE_CFG that asks for no arrival order, or outside same-bits mode, stores. -/
theorem veCfgWrite_stores {e v : Nat} (a : s.Admits ini (uVE e) 0x104 (w32 v) false) (may : v % 2 = 0 ∨ s.sbCluster e = false) :
    s.veCfgWrite ini e v = s.wr (uVE e) 0x104 (w32 v) := by
  rw [State.veCfgWrite, guarded_of_admits a]
  rcases may with even | off
  · simp [even]
  · simp [off]

theorem callArrival_set (c : s.Changeable (arg args 0)) (k : unitClass (arg args 0) = some .ve) (least : arg args 1 ≤ 1)
    (may : arg args 1 = 0 ∨ s.sbCluster (arg args 0 - 0x80) = false) :
    callArrival ini args s = (s.wr (arg args 0) 0x104 (w32 (arg args 1))).ret OK := by
  have allowed : (arg args 1 = 1 && s.sbCluster (arg args 0 - 0x80)) = false := by
    rcases may with zero | off
    · simp [zero]
    · simp [off]
  simp [callArrival, mayChange_of c, k, Nat.not_lt.mpr least, allowed]

theorem callVeCounters_read (e : s.exists? (arg args 0) = true) (k : unitClass (arg args 0) = some .ve) :
    callVeCounters args s =
      s.retRegs (arg args 0) [0x100, 0x10C, 0x110, 0x114, 0x118, 0x11C, 0x120, 0x124, 0x128, 0x12C, 0x130, 0x134] := by
  simp [callVeCounters, e, k, List.range_succ]

theorem callTableSet_read (one : arg args 0 = 1) (table : arg args 1 ≤ 3) (few : arg args 3 ≤ 64)
    (within : arg args 2 + arg args 3 ≤ (tableOf (arg args 1)).length) :
    callTableSet args s = s.ret OK (((tableOf (arg args 1)).drop (arg args 2)).take (arg args 3)) := by
  simp [callTableSet, one, Nat.not_lt.mpr table, Nat.not_lt.mpr few, Nat.not_lt.mpr within]

/-- The codes that call 0x0E09 takes, 0 to 10, each name a function defined on every input (R141, R142). -/
theorem specialFn_defined {code : Nat} (h : code ≤ 10) (x : Word) : (specialFn code x).isSome = true := by
  interval_cases code <;> rfl

/-- What call 0x0E09 returns for its inputs. -/
def specialWords (args : List Word) : List Word := (args.drop 1).map fun x => (specialFn (arg args 0) x).getD 0

theorem specialWords_some (code : arg args 0 ≤ 10) : (specialWords args).map some = (args.drop 1).map (specialFn (arg args 0)) := by
  rw [specialWords, List.map_map]
  refine List.map_congr_left fun x _ => ?_
  obtain ⟨y, value⟩ := Option.isSome_iff_exists.mp (specialFn_defined code x)
  simp [value]

theorem callSpecial_evaluated (few : args.length ≤ 65) (code : arg args 0 ≤ 10) : callSpecial args s = s.ret OK (specialWords args) := by
  obtain ⟨y, defined⟩ := Option.isSome_iff_exists.mp (specialFn_defined code 0)
  have inputs : ¬64 < (args.drop 1).length := by rw [List.length_drop]; omega
  simp only [callSpecial, if_neg inputs, defined]
  rfl

/-! ## Validation of a command block (R168–R171, R209) -/

/-- Call 0x0019 of a block whose header, read first, and whose code, read in the state that leaves, show no fault. -/
theorem callValidate_valid (aligned : argAddr args 0 % 64 = 0) (least : 1 ≤ arg args 2) (most : arg args 2 ≤ 4)
    (tiles : arg args 3 ≤ 255) (rind : arg args 4 ≤ 1) (mayHeader : s.mayRead ini (argAddr args 0) 64 = true) {t u : State}
    {hb cb : List Byte} (header : s.callBlock ini (argAddr args 0) 64 = (t, OK, [], hb))
    (good : blockBad (t.checkCtx (arg args 2)) (bytesWords hb) = false)
    (mayCode : t.mayRead ini (argAddr args 0 + 64) (8 * bits (nth (bytesWords hb) 1 0) 12 0) = true)
    (code : t.callBlock ini (argAddr args 0 + 64) (8 * bits (nth (bytesWords hb) 1 0) 12 0) = (u, OK, [], cb))
    (clean : (u.forCheck (arg args 2)).blockFault (arg args 2) (arg args 3) (arg args 4 = 1) (bytesWords hb) cb = (0, 0)) :
    callValidate ini args s = u.ret OK := by
  have range : (argAddr args 0 % 64 != 0 || arg args 2 = 0 || 4 < arg args 2 || 255 < arg args 3 || 1 < arg args 4) = false := by
    simp [aligned, Nat.ne_of_gt least, Nat.not_lt.mpr most, Nat.not_lt.mpr tiles, Nat.not_lt.mpr rind]
  simp only [callValidate, range, mayHeader, header, good, mayCode, code, clean]
  rfl

end

/-- Settles O6: one equation for each register write and call, in the case that lets it through. -/
theorem toeVectorAndPecCallsComplete : Obligations.ToeVectorAndPecCallsComplete := by
  unfold Obligations.ToeVectorAndPecCallsComplete
  rintro ini e args s u rfl
  refine ⟨?_, ?_, ?_, ?_, ?_, ?_, ?_, ?_, ?_, ?_, ?_, ?_⟩
  · intro v a idle free feeds; exact congrArg Host.Outcome.next (teFeedWrite_binds a idle free feeds)
  · intro ex k
    exact ⟨congrArg Host.Outcome.next (callToeStatus_read ex k), congrArg Host.Outcome.next (callToeCounters_read ex k)⟩
  · intro ch k idle free feeds; exact congrArg Host.Outcome.next (callBindFeed_binds ch k idle free feeds)
  · intro ok may clean t put; exact congrArg Host.Outcome.next (callTapTable_written ok may clean put)
  · rintro int za fb spread we wn rfl rfl; exact congrArg Host.Outcome.next (callWinogradBounds_computed int za fb spread)
  · intro v a may; exact congrArg Host.Outcome.next (veCfgWrite_stores a may)
  · intro one table few within; exact congrArg Host.Outcome.next (callTableSet_read one table few within)
  · intro few code; exact Gives.of rfl (callSpecial_evaluated few code) ⟨rfl, specialWords_some code⟩
  · intro ex k; exact congrArg Host.Outcome.next (callVeCounters_read ex k)
  · intro ch k least may; exact congrArg Host.Outcome.next (callArrival_set ch k least may)
  · rfl
  · intro aligned least most tiles rind mayHeader t hb header good mayCode u cb code clean
    exact congrArg Host.Outcome.next
      (callValidate_valid aligned least most tiles rind mayHeader header good mayCode code clean)

end Sys2Proof.Machine

namespace Sys2Proof.Machine

/-! ## Start conditions and dispatch (R166, R250, R258, R515) -/

/-- An entry whose start condition holds now is held ready from this moment; one that was ready stays so. -/
theorem latchStart_eq (s : State) (q : Nat) : s.latchStart q = s.updSlot q fun y =>
    match y.entry with
    | none => y
    | some e => if y.held = false ∧ (eStartEn e = true → markOk (s.mark (eStartMark e)) (eStartValue e) (eStartEq e) = true) then
        { y with held := true, readyAt := some s.nowNs } else y := by
  unfold State.latchStart
  congr 1
  funext y
  cases y.entry with
  | none => rfl
  | some e =>
    cases held : y.held
    · cases start : eStartEn e <;> simp [start]
    · simp

/-- The queue's entry has gone to the context's unit, and its prologue has run (R177, R258). -/
def State.dispatched (s : State) (x : Ctx) (y : QSlot) (e : List Word) : State :=
  let c := qClient y.words
  let t := (s.countPreempt x c).count uSched 0x21C 1
  ((t.setClientX c { t.clientX c with lastQueue := some y.id }).updSlot y.id fun z => { z with running := some x }).prologue x y e none

/-- The state with the domains that the context needs and that are off listed to be powered up (R515). -/
def State.wantPower (s : State) (x : Ctx) : State :=
  let off := (s.ctxDoms x).filter fun d => !s.domOn d
  { s with pwr := { s.pwr with powering := s.pwr.powering ++ off.filter fun d => !s.pwr.powering.contains d } }

theorem mem_wantPower {s : State} {x : Ctx} {d : Nat} (need : d ∈ s.ctxDoms x) (off : s.domOn d = false) :
    d ∈ (s.wantPower x).pwr.powering := by
  rw [State.wantPower, List.mem_append]
  by_cases listed : d ∈ s.pwr.powering
  · exact .inl listed
  · exact .inr (by simp [List.mem_filter, need, off, listed])

section
variable {s : State} {x : Ctx} {y : QSlot} {e : List Word} (free : s.vtSync.ctxFree x = true)
  (chosen : s.vtSync.choose x = some y) (entry : s.vtSync.nextEntry y = some (e, none))
include free chosen entry

/-- Dispatch of a chosen entry that no starter gave: the branches that are left. -/
theorem dispatch_eq : s.dispatch x =
    if ((s.vtSync.ctxDoms x).filter fun d => !s.vtSync.domOn d).isEmpty then
      if ((s.vtSync.dispatched x y e).run x).any fun r => r.fault = fSLUICE_WAIT then s.vtSync
      else (s.vtSync.dispatched x y e).vtSync
    else s.vtSync.wantPower x := by
  rw [State.dispatch]
  simp only [free, chosen, entry]
  cases ((s.vtSync.ctxDoms x).filter fun d => !s.vtSync.domOn d).isEmpty <;> rfl

theorem dispatch_powers (off : ∃ d ∈ s.vtSync.ctxDoms x, s.vtSync.domOn d = false) : s.dispatch x = s.vtSync.wantPower x := by
  rw [dispatch_eq free chosen entry, if_neg (by simpa using off)]

variable (on : ∀ d ∈ s.vtSync.ctxDoms x, s.vtSync.domOn d = true)
include on

theorem dispatch_starts (clear : ∀ r, (s.vtSync.dispatched x y e).run x = some r → r.fault ≠ fSLUICE_WAIT) :
    s.dispatch x = (s.vtSync.dispatched x y e).vtSync := by
  rw [dispatch_eq free chosen entry, if_pos (by simpa using on), if_neg (by simpa [Option.any_eq_true] using clear)]

/-- A block at a sluice that another holds is dispatched later (R231). -/
theorem dispatch_sluice (wait : ∃ r, (s.vtSync.dispatched x y e).run x = some r ∧ r.fault = fSLUICE_WAIT) :
    s.dispatch x = s.vtSync := by
  rw [dispatch_eq free chosen entry, if_pos (by simpa using on), if_pos (by simpa [Option.any_eq_true] using wait)]

end

/-! ## Completion of instructions and waits (R145, R158, R175, R194) -/

/-- The state once the instruction has noted whether it takes source k before an earlier one, and from a position of another
fingerprint (R289). -/
def State.sourceNoted (s : State) (x : Ctx) (i : Issued) (k : Nat) : State :=
  s.updRun x fun q => { q with
    reordered := q.reordered || (List.range k).any fun j => !i.taken.contains j
    fpMismatch := q.fpMismatch || (wOp i.word = 0x51 || ctxTarget x != 2) && s.otherFp k }

section
variable {s : State} {x : Ctx} {r : CtxRun} (runs : s.run x = some r)
include runs

theorem waitDone_issue {m v : Nat} {eq : Bool} (stall : r.stall = some (.mark m v eq true)) :
    s.waitDone x 9 = s.updRun x fun q => { q with stall := none } := by
  simp only [State.waitDone, runs, stall, if_pos]

section
variable {unit : Nat} {i : Issued} (head : r.current unit = some i)
include head

/-- A unit's instruction that waits for nothing, with nothing left to move and no transaction in flight, completes. -/
theorem instrDone_completes (wait : i.wait = .none) (left : i.left = []) (landed : s.inFlight x (some i.idx) = false)
    (hs blocks bytes stalls : List Nat) : s.instrDone x unit hs blocks bytes stalls = ((((((s.updRun x fun q =>
      { q with issued := q.issued.filter fun j => !(j.unit = unit && j.idx = i.idx) }).countDone x i hs blocks bytes stalls).flushFolds
      x false).beginUnits x [unit]).resume x).dcSync x).unitSync x := by
  have ready : (i.wait != .none || !i.left.isEmpty || s.inFlight x (some i.idx)) = false := by simp [wait, left, landed]
  simp only [State.instrDone, runs, head]
  exact if_neg (Bool.eq_false_iff.mp ready)

section
variable {ms : List (Nat × Nat)} {left arrived : List Nat} (wait : i.wait = .sources ms left arrived)
include wait

theorem waitDone_sources (n : unit ≠ 9) : s.waitDone x unit = s.takeSources x unit (ms.length + 2) := by
  simp only [State.waitDone, runs, if_neg n, head, wait]

theorem takeSources_last (all : i.taken.length = ms.length) (n : Nat) :
    s.takeSources x unit (n + 1) = s.opRun x r { i with wait := .none } := by
  simp only [State.takeSources, runs, head, wait, if_pos all]

variable (more : i.taken.length ≠ ms.length)
include more

theorem takeSources_waits (absent : nextSource (s.arrivalOrder r i.word) ms.length i.taken arrived = none) (n : Nat) :
    s.takeSources x unit (n + 1) = s.unitSync x := by
  simp only [State.takeSources, runs, head, wait, if_neg more, absent]

/-- A source taken without a fault: it stands last in the order of taking, and the next one is looked for. -/
theorem takeSources_takes {k : Nat} {t : State} {j : Issued}
    (comes : nextSource (s.arrivalOrder r i.word) ms.length i.taken arrived = some k)
    (taken : (s.sourceNoted x i k).takeOn r i k (s.runMembers x i.only) = (t, j, 0)) (n : Nat) :
    s.takeSources x unit (n + 1) =
      (t.setIssued x { j with got := j.got ++ [(k, [])], wait := .sources ms left arrived }).takeSources x unit n := by
  rw [State.sourceNoted] at taken
  simp only [State.takeSources, runs, head, wait, if_neg more, comes, taken]
  rfl

end
end

end

/-! ## Limits (R253, R260, R266) -/

section
variable {s : State} {x : Ctx} {r : CtxRun}

/-- A limit reached by a command that a fault has ended already and whose units still run (R260, notes/assumptions/162.md). -/
theorem limitEnd_ended (ended : r.ended = true) (busy : r.issued ≠ []) (code : Nat) :
    s.limitEnd x r code =
      (((s.recordFault code (ctxUnit x) (ctxIni x) r.queue (eSeq r.entry) 0 r.pos 0 oNone).failRun x code r.pos).dcSync x).unitSync x := by
  simp [State.limitEnd, ended, busy]

theorem limitEnd_running (live : r.ended = false) (code : Nat) :
    s.limitEnd x r code = ((s.failRun x code r.pos).dcSync x).unitSync x := by
  simp [State.limitEnd, live]

variable (runs : s.run x = some r)
include runs

theorem budgetExpiry_counts (go : r.xlStalled = false) : s.budgetExpiry x = s.limitEnd x r fBUDGET_OVERRUN := by
  simp [State.budgetExpiry, runs, go]

/-- The timer stands still while the command is stalled on translation (R266). -/
theorem budgetExpiry_stalled (stalled : r.xlStalled = true) : s.budgetExpiry x = s := by
  simp [State.budgetExpiry, runs, stalled]

theorem xlateTimeout_running (stalled : r.xlStalled = true) (live : r.ended = false) :
    s.xlateTimeout x = s.limitEnd x r fXLATE_TIMEOUT := by
  simp [State.xlateTimeout, runs, stalled, live]

end

/-! ## Event signals (R253) -/

theorem routeSignal_again {s : State} {c : Nat} (hold : (s.clientX c).hold = true) (want : (s.clientX c).want = true) :
    s.routeSignal c = (s.setClientX c { s.clientX c with want := false }).signalRoute c := by
  simp [State.routeSignal, hold, want]

theorem routeSignal_rests {s : State} {c : Nat} (hold : (s.clientX c).hold = true) (want : (s.clientX c).want = false) :
    s.routeSignal c = s.setClientX c { s.clientX c with hold := false } := by
  simp [State.routeSignal, hold, want]

/-- Settles O15: one equation for each event in each case that applies. -/
theorem commandsProgress : Obligations.CommandsProgress := by
  unfold Obligations.CommandsProgress
  refine ⟨?_, ?_, ?_, ?_, ?_, ?_, ?_, ?_⟩
  · intro q s; exact congrArg (fun t : State => Host.Outcome.next t.vtSync) (latchStart_eq s q)
  · intro x s y e free chosen entry s1 c t
    refine ⟨fun on clear => ?_, fun on wait => ?_, fun off => ?_⟩
    · exact congrArg Host.Outcome.next (dispatch_starts free chosen entry on clear)
    · exact congrArg Host.Outcome.next (dispatch_sluice free chosen entry on wait)
    · exact ⟨(s1.wantPower x).pwr.powering, congrArg Host.Outcome.next (dispatch_powers free chosen entry off),
        fun d need dark => mem_wantPower need dark⟩
  · intro x unit hs blocks bytes stalls s r i runs head wait left landed
    exact congrArg Host.Outcome.next (instrDone_completes runs head wait left landed hs blocks bytes stalls)
  · intro x s r m v eq runs stall; exact congrArg Host.Outcome.next (waitDone_issue runs stall)
  · intro x unit s r i ms l got runs n head wait pick
    have begins := waitDone_sources runs head wait n
    refine ⟨fun all => ?_, fun more absent => ?_, fun k t j more comes taken => ?_⟩
    · exact congrArg Host.Outcome.next (begins.trans (takeSources_last runs head wait all _))
    · exact congrArg Host.Outcome.next (begins.trans (takeSources_waits runs head wait more absent _))
    · exact congrArg Host.Outcome.next (begins.trans (takeSources_takes runs head wait more comes taken _))
  · intro x s r runs ended busy go
    exact congrArg Host.Outcome.next ((budgetExpiry_counts runs go).trans (limitEnd_ended ended busy _))
  · intro x s r runs live
    refine ⟨fun go => ?_, fun stalled => ⟨?_, ?_⟩⟩
    · exact congrArg Host.Outcome.next ((budgetExpiry_counts runs go).trans (limitEnd_running live _))
    · exact congrArg Host.Outcome.next (budgetExpiry_stalled runs stalled)
    · exact congrArg Host.Outcome.next ((xlateTimeout_running runs stalled live).trans (limitEnd_running live _))
  · intro c s small
    have named : exec (.eventRouteSignal c) s = .next (s.routeSignal c) :=
      congrArg (fun k => Host.Outcome.next (s.routeSignal k)) (Nat.mod_eq_of_lt small)
    exact ⟨fun hold want => named.trans (congrArg _ (routeSignal_again hold want)),
      fun hold want => named.trans (congrArg _ (routeSignal_rests hold want))⟩

end Sys2Proof.Machine

namespace Sys2Proof.Machine

/-! ## Updates of one context -/

/-- t is s but for context x, whose command is now r. -/
def State.Alters (s : State) (x : Ctx) (r : CtxRun) (t : State) : Prop :=
  t.run x = some r ∧ (∀ y, y ≠ x → t.run y = s.run y) ∧ t = { s with ctxs := t.ctxs }

theorem State.Alters.updRun {s t : State} {x : Ctx} {r : CtxRun} (h : s.Alters x r t) (f : CtxRun → CtxRun)
    (keeps : ∀ q, (f q).ctx = q.ctx) : s.Alters x (f r) (t.updRun x f) := by
  obtain ⟨runs, others, frame⟩ := h
  refine ⟨by rw [run_updRun t x f keeps, runs]; rfl, fun y n => (run_updRun_ne t x y n f keeps).trans (others y n), ?_⟩
  exact congrArg (fun u : State => { u with ctxs := (t.updRun x f).ctxs }) frame

theorem alters_pos {s : State} {x : Ctx} {r : CtxRun} (runs : s.run x = some r) :
    s.Alters x { r with pos := r.pos + 1 } (s.updRun x fun q => { q with pos := q.pos + 1 }) :=
  ⟨run_pos runs, fun _ n => run_pos_ne n, rfl⟩

/-! ## Parameter instructions (R179, R185, R195) -/

theorem paramApply_ctx (w : Dword) (r : CtxRun) : (paramApply w r).ctx = r.ctx := by
  unfold paramApply
  split <;> rfl

theorem runsOn_eq (only : Option Nat) (m : Nat) : runsOn only m = only.all fun k => k.testBit m := by
  cases only with
  | none => rfl
  | some k => simp [runsOn, Nat.testBit_eq_decide_div_mod_eq]

section
variable {x : Ctx} {s : State} {r : CtxRun} {w : Dword} (ready : s.Ready x r w)
include ready

/-- A parameter instruction leaves its context at the next word, with the parameter applied. -/
theorem paramStep_alters {op : Nat} (named : wOp w = op) :
    s.Alters x (paramApply w { r with pos := r.pos + 1 }) (s.paramStep x op) := by
  have step : s.paramStep x op = (s.updRun x fun q => { q with pos := q.pos + 1 }).updRun x (paramApply w) := dec_next ready named _
  rw [step]
  exact (alters_pos ready.1).updRun _ (paramApply_ctx w)

/-- The sequencer takes an instruction that a law of the Mill may hold too. -/
theorem lawOr_ready (op : Nat) (t : State) : s.lawOr x op t = t := by
  obtain ⟨-, notMill, -⟩ := ready
  cases x with
  | mill => cases notMill
  | _ => rfl

theorem exec_lawOr {c : Instr} {op : Nat} {t : State} (row : exec c s = .next (s.lawOr x op t)) : exec c s = .next t :=
  row.trans (congrArg _ (lawOr_ready ready op t))

end

/-- Settles O7: every parameter instruction is paramApply on the context of the command. -/
theorem parameterInstructions : Obligations.ParameterInstructions := by
  unfold Obligations.ParameterInstructions
  intro x s r w ready becomes d td
  have param : ∀ (c : Instr) (op : Nat) (r' : CtxRun), exec c s = .next (s.paramStep x op) →
      (wOp w = op → paramApply w { r with pos := r.pos + 1 } = { r' with pos := r.pos + 1 }) → becomes c op r' :=
    fun c op r' runs applied named => ⟨_, runs, applied named ▸ paramStep_alters ready named⟩
  refine ⟨fun named => ?_, ?_, ?_, ?_, ?_, ?_, ?_, ?_, ?_, ?_, ?_, ?_, ?_⟩
  · refine ⟨_, congrArg Host.Outcome.next ((lawOr_ready ready _ _).trans (dec_next ready named _)), ?_⟩
    exact alters_pos ready.1
  all_goals refine param _ _ _ rfl fun named => ?_
  all_goals simp only [paramApply, named, runsOn_eq]
  all_goals rfl

end Sys2Proof.Machine

namespace Sys2Proof.Machine

/-! ## Waits of the sequencer (R175, R176, R194) -/

theorem markOk_ge {m v : Nat} (small : v < 2 ^ 32) : markOk m v false = true ↔ (m + 2 ^ 32 - v) % 2 ^ 32 < 2 ^ 31 := by
  rw [markOk, if_neg (by decide), markGe, Nat.mod_eq_of_lt small, decide_eq_true_iff]

theorem markOk_eq {m v : Nat} : markOk m v true = true ↔ m = v := by simp [markOk]

theorem relValue_lt (r : CtxRun) (w : Dword) : relValue r w < 2 ^ 32 := by
  rw [relValue]
  split
  · exact Nat.mod_lt _ (by decide)
  · exact Nat.mod_lt _ (by decide)

theorem quiet_iff (s : State) (r : CtxRun) : s.quiet r = true ↔ r.issued = [] ∧ s.inFlight r.ctx none = false := by
  simp [State.quiet]

/-- The mask of a FENCE names the unit of an outstanding instruction. -/
theorem masked_iff {l : List Issued} {mask : Nat} :
    (l.any fun i => mask / 2 ^ i.unit % 2 = 1) = true ↔ ∃ i ∈ l, mask.testBit i.unit = true := by
  simp [Nat.testBit_eq_decide_div_mod_eq]

theorem resume_fence {s : State} {x : Ctx} {r : CtxRun} {mask : Nat} (runs : s.run x = some r)
    (stall : r.stall = some (.fence mask)) : s.resume x =
      if r.issued.any fun i => mask / 2 ^ i.unit % 2 = 1 then s else s.updRun x fun q => { q with stall := none } := by
  simp only [State.resume, runs, stall]

section
variable {x : Ctx} {s : State} {r : CtxRun} {w : Dword} (ready : s.Ready x r w) {op : Nat} (named : wOp w = op)
include ready named

/-- A mark wait that holds at issue is passed. -/
theorem waitStep_passes {eq : Bool} (holds : markOk (s.mark (bits w 47 32)) (relValue r w) eq = true) :
    s.waitStep x op eq = s.updRun x fun q => { q with pos := q.pos + 1 } :=
  (dec_next ready named _).trans (if_pos holds)

theorem waitStep_stalls {eq : Bool} (open_ : ¬markOk (s.mark (bits w 47 32)) (relValue r w) eq = true) :
    s.waitStep x op eq = (s.updRun x fun q => { q with pos := q.pos + 1 }).updRun x fun q =>
      { q with stall := some (.mark (bits w 47 32) (relValue r w) eq false) } :=
  (dec_next ready named _).trans (if_neg open_)

/-- What orders the context waits while an earlier instruction, or a remote operation, is outstanding. -/
theorem orderStep_stalls (busy : ¬(r.issued = [] ∧ s.inFlight x none = false)) :
    s.orderStep x op = (s.updRun x fun q => { q with pos := q.pos + 1 }).updRun x fun q => { q with stall := some (.order w) } := by
  rw [← run_ctx ready.1, ← quiet_iff] at busy
  exact (dec_next ready named _).trans (if_neg busy)

theorem orderStep_acts (idle : r.issued = []) (landed : s.inFlight x none = false) :
    s.orderStep x op = (s.updRun x fun q => { q with pos := q.pos + 1 }).orderDo r w r.pos := by
  have quiet : s.quiet r = true := (quiet_iff s r).mpr ⟨idle, by rw [run_ctx ready.1, landed]⟩
  exact (dec_next ready named _).trans (if_pos quiet)

end

section
variable {x : Ctx} {s : State} {r : CtxRun} {w : Dword} (ready : s.Ready x r w) (named : wOp w = 0x0B)
include ready named

/-- FENCE stalls issue first; resume then sees whether the stall is over. -/
theorem fenceStep_eq : s.fenceStep x =
    let t := (s.updRun x fun q => { q with pos := q.pos + 1 }).updRun x fun q => { q with stall := some (.fence (bits w 8 0)) }
    if r.issued.any fun i => bits w 8 0 / 2 ^ i.unit % 2 = 1 then t else t.updRun x fun q => { q with stall := none } :=
  (dec_next ready named _).trans
    (resume_fence (r := { r with pos := r.pos + 1, stall := some (.fence (bits w 8 0)) }) (paused ready.1 _).1 rfl)

theorem fenceStep_stalls (busy : ∃ i ∈ r.issued, (bits w 8 0).testBit i.unit = true) : s.fenceStep x =
    (s.updRun x fun q => { q with pos := q.pos + 1 }).updRun x fun q => { q with stall := some (.fence (bits w 8 0)) } :=
  (fenceStep_eq ready named).trans (if_pos (masked_iff.mpr busy))

theorem fenceStep_passes (done : ∀ i ∈ r.issued, (bits w 8 0).testBit i.unit = false) :
    s.Alters x { r with pos := r.pos + 1 } (s.fenceStep x) := by
  have free : ¬(r.issued.any fun i => bits w 8 0 / 2 ^ i.unit % 2 = 1) = true := by
    rw [masked_iff]
    rintro ⟨i, mem, busy⟩
    simp [done i mem] at busy
  have same : { r with pos := r.pos + 1 } = { r with pos := r.pos + 1, stall := none } := by
    obtain ⟨-, -, -, go, -⟩ := ready
    rw [← go]
  rw [fenceStep_eq ready named, if_neg free, same]
  exact State.Alters.updRun (paused ready.1 _) (fun q => { q with stall := none }) fun _ => rfl

end

/-- Settles O9: each wait is passed when its condition holds, and else leaves the context stalled. -/
theorem orderStalls : Obligations.OrderStalls := by
  unfold Obligations.OrderStalls
  intro x s r w ready next stalls m v idle
  have small : v < 2 ^ 32 := relValue_lt r w
  have order : ∀ (c : Instr) (op : Nat), exec c s = .next (s.orderStep x op) → wOp w = op → ¬idle → stalls c (.order w) :=
    fun c op runs named busy => ⟨_, runs, orderStep_stalls ready named busy ▸ paused ready.1 _⟩
  refine ⟨fun named holds => ?_, fun named late => ?_, fun named holds => ?_, fun named other => ?_, fun named done => ?_,
    fun named busy => ?_, ?_, ?_, ?_, ?_, ?_⟩
  · exact congrArg Host.Outcome.next (waitStep_passes ready named ((markOk_ge small).mpr holds))
  · exact ⟨_, rfl, waitStep_stalls ready named (mt (markOk_ge small).mp late) ▸ paused ready.1 _⟩
  · exact congrArg Host.Outcome.next (waitStep_passes ready named (markOk_eq.mpr holds))
  · exact ⟨_, rfl, waitStep_stalls ready named (mt markOk_eq.mp other) ▸ paused ready.1 _⟩
  · exact ⟨_, rfl, fenceStep_passes ready named done⟩
  · exact ⟨_, rfl, fenceStep_stalls ready named busy ▸ paused ready.1 _⟩
  · exact order (.msignal x) 0x72 (exec_lawOr ready rfl)
  · exact order (.madd x) 0x73 (exec_lawOr ready rfl)
  · exact order (.msignalr x) 0x74 rfl
  · exact order (.maddr x) 0x75 rfl
  · exact order (.remit x) 0xA0 rfl

end Sys2Proof.Machine

namespace Sys2Proof.Machine

/-! ## What orders a quiet context (R176, R181, R193, R199, R222) -/

/-- Issue goes on behind an instruction that orders the context. -/
def State.orderOver (s : State) (x : Ctx) : State := s.updRun x fun q => { q with stall := none, only := none }

/-- Issue goes on behind a signal or an add: the command is not retried after it (R557). -/
def State.markOver (s : State) (x : Ctx) : State := (s.updRun x fun q => { q with markDone := true }).orderOver x

/-- Every member that runs the instruction hands the link a remote operation of the kind (R181). -/
def State.sendAll (s : State) (kind : Nat) (r : CtxRun) (w : Dword) (idx : Nat) : State :=
  (s.runMembers r.ctx r.only).foldl
    (fun t _ => t.transact kind (bits w 50 48) (ctxIni r.ctx) (some r.ctx) 9 idx [bits w 47 32, relValue r w] []) s

section
variable (s : State) (r : CtxRun) {w : Dword} (idx : Nat)

theorem orderDo_msignal (named : wOp w = 0x72) : s.orderDo r w idx =
    if s.isCreditMark (bits w 47 32) then s.endRun r.ctx fMARK_DENIED idx
    else ((s.runMembers r.ctx r.only).foldl (fun t _ => t.signalMark (bits w 47 32) (relValue r w)) s).markOver r.ctx := by
  simp only [State.orderDo, named]
  rfl

theorem orderDo_madd (named : wOp w = 0x73) : s.orderDo r w idx =
    ((s.runMembers r.ctx r.only).foldl (fun t _ => t.addMark (bits w 47 32) (bits w 31 0)) s).markOver r.ctx := by
  simp only [State.orderDo, named]
  rfl

theorem orderDo_remote (named : wOp w = 0x74 ∨ wOp w = 0x75) : s.orderDo r w idx =
    if s.windowOpen (bits w 50 48) then (s.sendAll (if wOp w = 0x74 then 2 else 3) r w idx).orderOver r.ctx
    else (s.addrError (ctxIni r.ctx) (0x20000000000 + bits w 50 48 * 0x10000000000)).endRun r.ctx fREMOTE_DENIED idx := by
  cases windowOpen : s.windowOpen (bits w 50 48) <;> rcases named with named | named <;>
    · simp only [State.orderDo, named, windowOpen]
      rfl

/-- A REMIT whose rinds are all written. -/
theorem orderDo_remit (named : wOp w = 0xA0)
    (written : ((s.flushFolds r.ctx true).remitAll r w (s.runMembers r.ctx r.only)).2 = 0) : s.orderDo r w idx =
      (((s.flushFolds r.ctx true).remitAll r w (s.runMembers r.ctx r.only)).1.updRun r.ctx
        fun q => { q with partialIn := q.partialIn || bit w 16 }).orderOver r.ctx := by
  simp only [State.orderDo, named]
  rw [written]
  rfl

end

/-- Settles O10: on a quiet context the sequencer does the instruction at once. -/
theorem orderActs : Obligations.OrderActs := by
  unfold Obligations.OrderActs
  intro x s r w ready idle landed p mem m v done marked sent
  obtain rfl : r.ctx = x := run_ctx ready.1
  have acts : ∀ (c : Instr) (op : Nat) (t : State), exec c s = .next (s.orderStep r.ctx op) → wOp w = op →
      p.orderDo r w r.pos = t → exec c s = .next t :=
    fun c op t runs named does => runs.trans (congrArg _ ((orderStep_acts ready named idle landed).trans does))
  refine ⟨fun named free => ?_, fun named credit => ?_, fun named => ?_, fun named isOpen => ?_, fun named isOpen => ?_,
    fun named shut => ?_, fun named written => ?_⟩
  · exact acts _ _ _ (exec_lawOr ready rfl) named ((orderDo_msignal p r r.pos named).trans (if_neg (Bool.eq_false_iff.mp free)))
  · exact acts _ _ _ (exec_lawOr ready rfl) named ((orderDo_msignal p r r.pos named).trans (if_pos credit))
  · exact acts _ _ _ (exec_lawOr ready rfl) named (orderDo_madd p r r.pos named)
  · refine acts _ _ _ rfl named ((orderDo_remote p r r.pos (.inl named)).trans ((if_pos isOpen).trans ?_))
    rw [if_pos named]; rfl
  · refine acts _ _ _ rfl named ((orderDo_remote p r r.pos (.inr named)).trans ((if_pos isOpen).trans ?_))
    rw [if_neg (by rw [named]; decide)]; rfl
  · have does := (orderDo_remote p r r.pos named).trans (if_neg (Bool.eq_false_iff.mp shut))
    rcases named with named | named
    · rw [if_pos named]
      exact acts _ _ _ rfl named does
    · rw [if_neg (by rw [named]; decide)]
      exact acts _ _ _ rfl named does
  · exact acts _ _ _ rfl named (orderDo_remit p r r.pos named written)

end Sys2Proof.Machine

namespace Sys2Proof.Machine

/-! ## Issue to a unit (R171–R175) -/

/-- The instruction as it waits in the queue of unit u (R174). -/
def CtxRun.issuedAs (r : CtxRun) (w : Dword) (idx u : Nat) : Issued :=
  { unit := u, word := w, idx := idx, tds := r.tds, win := r.win, cps := r.cps, sregs := r.sregs, only := r.only
    rm := if wOp w = 0x21 ∨ wOp w = 0x60 then r.rm else [0, 0, 0, 0]
    lock := r.lock, burst := burstOf r.bursts u, begun := false, wait := .none, left := [], got := [], wrote := [], undo := [] }

/-- What issue makes of its context: the instruction stands last in the queue of its unit (R174, R184, R187). -/
def State.issueRun (s : State) (r : CtxRun) (w : Dword) (idx : Nat) (q : CtxRun) : CtxRun :=
  { q with
    issued := q.issued ++ [r.issuedAs w idx (unitOf w)], stall := none, only := none
    pairs := if unitOf w = 4 then s.newPairs r w else r.pairs
    rm := if wOp w = 0x21 ∨ wOp w = 0x60 then setNth q.rm 0 0 else q.rm }

/-- Issue to a unit of the tiles, the lane array, the merge unit or the toe engine, with room in its queue. -/
theorem issueWord_queues (s : State) (r : CtxRun) {w : Dword} (idx : Nat) (row : wOp w ≠ 0x40) (unit : 4 ≤ unitOf w)
    (room : (r.issued.filter (·.unit = unitOf w)).length < 4) :
    s.issueWord r w idx = (s.updRun r.ctx (s.issueRun r w idx)).beginUnits r.ctx [unitOf w] := by
  have chosen : s.chooseUnit r w = unitOf w := by simp [State.chooseUnit, row]
  unfold State.issueRun
  simp [State.issueWord, chosen, row, CtxRun.issuedAs, Nat.not_le.mpr room, Nat.not_lt.mpr unit]

theorem current_iff {r : CtxRun} {u : Nat} {i : Issued} :
    r.current u = some i ↔ r.issued.find? (·.unit = u) = some i ∧ i.begun = true := by
  have filtered : r.current u = (r.issued.find? (·.unit = u)).filter (·.begun) := by
    unfold CtxRun.current
    cases r.issued.find? (·.unit = u) <;> rfl
  rw [filtered, Option.filter_eq_some_iff]

/-- An instruction behind the one that runs does not change which one runs. -/
theorem current_append {r q : CtxRun} {u : Nat} {i : Issued} {l : List Issued} (runs : r.current u = some i)
    (behind : q.issued = r.issued ++ l) : q.current u = some i := by
  obtain ⟨head, begun⟩ := current_iff.mp runs
  exact current_iff.mpr ⟨by rw [behind, List.find?_append, head]; rfl, begun⟩

/-- A unit that runs an instruction begins no other (R173). -/
theorem beginUnits_busy {s : State} {x : Ctx} {r : CtxRun} {u : Nat} {i : Issued} (runs : s.run x = some r)
    (busy : r.current u = some i) : s.beginUnits x [u] = s := by
  obtain ⟨head, begun⟩ := current_iff.mp busy
  simp only [State.beginUnits, runs, head, if_pos begun]

/-- The rows whose units are the tiles, the lane array, the merge unit and the toe engine. -/
theorem unitOf_ge {w : Dword} (row : wOp w = 0x20 ∨ wOp w = 0x21 ∨ wOp w = 0x22 ∨ (0x30 ≤ wOp w ∧ wOp w ≤ 0x39) ∨ wOp w = 0x50 ∨
    wOp w = 0x52 ∨ wOp w = 0x60) : wOp w ≠ 0x40 ∧ 4 ≤ unitOf w := by
  refine ⟨by omega, ?_⟩
  have class_ : wOp w / 16 ≠ 1 := by omega
  unfold unitOf
  split
  case h_1 => contradiction
  all_goals decide

/-- Settles O8: every row hands its word to issue; behind a running instruction issue only queues. -/
theorem unitInstructionsIssue : Obligations.UnitInstructionsIssue := by
  unfold Obligations.UnitInstructionsIssue
  refine ⟨?_, fun x s r w i ready row busy room => ?_⟩
  · intro x s r w ready _ issues
    have unit : ∀ (c : Instr) (op : Nat), exec c s = .next (s.unitStep x op) → issues c op :=
      fun c op runs named => runs.trans (congrArg _ (dec_next ready named _))
    and_intros
    all_goals exact unit _ _ rfl
  · obtain ⟨other, ge⟩ := unitOf_ge row
    obtain rfl : r.ctx = x := run_ctx ready.1
    have runs := ((alters_pos ready.1).updRun (s.issueRun r w r.pos) fun _ => rfl).1
    refine ⟨r.issuedAs w r.pos (unitOf w), ?_, rfl, rfl, rfl, rfl, rfl, rfl, rfl, rfl, rfl, rfl, rfl⟩
    rw [issueWord_queues _ _ _ other ge room]
    exact (congrArg (State.run · r.ctx) (beginUnits_busy runs (current_append busy rfl))).trans runs

end Sys2Proof.Machine

namespace Sys2Proof.Machine

/-! ## The epilogue (R166, R177, R198, R251, R557) -/

/-- The fault that a command whose units are done ends with, its done operation apart: a passage left open is one (R198). -/
def CtxRun.endFault (r : CtxRun) : Nat := if (!r.ended && r.lock.isSome) = true then fLOCK_LEFT_OPEN else r.fault

theorem endFault_of_closed {r : CtxRun} (closed : r.ended = true ∨ r.lock = none) : r.endFault = r.fault := by
  rw [CtxRun.endFault, if_neg]
  rcases closed with h | h <;> simp [h]

theorem endFault_of_open {r : CtxRun} (live : r.ended = false) (passage : r.lock ≠ none) : r.endFault = fLOCK_LEFT_OPEN := by
  rw [CtxRun.endFault, if_pos]
  simp [live, Option.isSome_iff_ne_none, passage]

section
variable {s : State} {x : Ctx} {r : CtxRun} {y : QSlot} (runs : s.run x = some r) (done : s.allDone r = true)
include runs done

/-- A command without a fault, whose done operation is made and leaves u (R166). -/
theorem epilogue_clean (clean : r.endFault = 0) {u : State} {applied : Bool}
    (op : (s.tearDown x).doneOp r.entry = (u, applied, 0)) (slot : u.slot r.queue = some y) (steps : Nat) :
    s.epilogue x steps = (u.classify r y.retried 0 (r.faultUnit.getD (ctxUnit x))).finalEnd r 0
      (if x.isMill then 0 else steps) applied := by
  rw [CtxRun.endFault] at clean
  simp only [State.epilogue, runs, done, clean, if_pos, op, slot]
  rfl

/-- A first attempt with a fault that is not retried (R557). -/
theorem epilogue_faulted {f : Nat} (fault : r.endFault = f) (real : f ≠ 0) (slot : (s.tearDown x).slot r.queue = some y)
    (first : y.retried = none) (final : (s.tearDown x).mayRetry r f (r.faultUnit.getD (ctxUnit x)) = false) (steps : Nat) :
    let a := (s.tearDown x).attemptFault r (qClient y.words) f (r.faultUnit.getD (ctxUnit x)) none
    s.epilogue x steps = (a.1.classify { r with faultRec := some a.2 } none f (r.faultUnit.getD (ctxUnit x))).finalEnd r f
      (if x.isMill then 0 else steps) false := by
  rw [CtxRun.endFault] at fault
  have kept : (if (f != 0) = true then f else 0) = f := if_pos (bne_iff_ne.mpr real)
  simp only [State.epilogue, runs, done, fault, if_neg real, slot, first, kept, final]
  rfl

end

theorem doneOp_none {s : State} {e : List Word} (op : eDoneOp e = 0) : s.doneOp e = (s, false, 0) := by
  simp only [State.doneOp, op]

theorem doneOp_add {s : State} {e : List Word} (op : eDoneOp e = 1) :
    s.doneOp e = (s.addMark (eDoneMark e) (eDoneValue e), true, 0) := by
  simp only [State.doneOp, op]

theorem doneOp_signal {s : State} {e : List Word} (op : eDoneOp e = 2) (free : s.isCreditMark (eDoneMark e) = false) :
    s.doneOp e = (s.signalMark (eDoneMark e) (eDoneValue e), true, 0) := by
  simp only [State.doneOp, op]
  exact if_neg (Bool.eq_false_iff.mp free)

/-- Settles O16: the three done operations of a command without a fault, and a fault that is not retried. -/
theorem epilogueEnds : Obligations.EpilogueEnds := by
  unfold Obligations.EpilogueEnds
  intro x steps s r y runs done t n c slotOf
  have clean : r.fault = 0 → r.ended = true ∨ r.lock = none → r.endFault = 0 :=
    fun none_ closed => (endFault_of_closed closed).trans none_
  refine ⟨fun none_ closed op slot => ?_, fun none_ closed op slot => ?_, fun none_ closed op free slot => ?_,
    fun f real closed passage ended slot first final => ?_⟩
  · exact congrArg Host.Outcome.next (epilogue_clean runs done (clean none_ closed) (doneOp_none op) slot steps)
  · exact congrArg Host.Outcome.next (epilogue_clean runs done (clean none_ closed) (doneOp_add op) slot steps)
  · exact congrArg Host.Outcome.next (epilogue_clean runs done (clean none_ closed) (doneOp_signal op free) slot steps)
  · have fault : r.endFault = f := by
      cases live : r.ended with
      | true => exact (endFault_of_closed (.inl live)).trans (ended live)
      | false =>
        by_cases unlocked : r.lock = none
        · exact (endFault_of_closed (.inr unlocked)).trans (closed live unlocked)
        · exact (endFault_of_open live unlocked).trans (passage live unlocked).symm
    exact congrArg Host.Outcome.next (epilogue_faulted runs done fault real slot first final steps)

end Sys2Proof.Machine

namespace Sys2Proof.Machine

/-! ## The instructions of a law (R200–R203, R388, R394, R395, R397, R403, R404) -/

theorem loop_tookOver (s : State) (lc l : Nat) : (s.tookOver lc).loop l = s.loop l := by
  have loops : (s.tookOver lc).loops = s.loops := by
    simp only [State.tookOver, apply_ite State.loops, State.setFlag_loops, ite_self]
  rw [State.loop, loops, State.loop]

theorem pwmShadow_tookOver (s : State) (lc : Nat) : (s.tookOver lc).pwmShadow = s.pwmShadow := by
  simp only [State.tookOver, apply_ite State.pwmShadow, State.setFlag_pwmShadow, ite_self]

/-- The loop's record behind the instruction that runs. -/
def State.passed (s : State) (l : Nat) : MillLoop := { s.loop l with pos := (s.loop l).pos + 1 }

/-- The state in which an instruction of the law acts. -/
def State.acting (s : State) (lc l : Nat) : State := (s.tookOver lc).moved l

theorem acting_eq (s : State) (lc l : Nat) : s.acting lc l = (s.tookOver lc).setLoop l (s.passed l) := by
  rw [State.acting, State.moved, loop_tookOver, State.passed]

/-- What MOUT leaves of a PWM channel's shadow: the compare of the duty (R403). -/
def State.shadowed (s : State) (i : Nat) (v : Word) : State :=
  { s with pwmShadow := SMap.insert i (pwmCompare v (s.pwmPeriod i)) (SMap.erase i s.pwmShadow) }

/-- The time from the sample's trigger to an output (R389). -/
def State.outTimed (s : State) (l trig : Nat) : State :=
  (s.wr (wLoop l) 0x20 (w32 (s.nowNs - trig))).maxTo (wLoop l) 0x24 (s.nowNs - trig)

section
variable {lc l : Nat} {w : Dword} {s : State} (runs : s.MillAt lc l w)
include runs

section
variable {op : Nat} (named : wOp w = op) {act : State → Nat → MillLoop → Dword → Option State}
include named

/-- The next instruction of the segment acts, and the segment goes on behind it; or the instruction waits. -/
theorem millStep_eq : s.millStep (lc % 3) op act =
    ((act (s.acting lc l) l (s.passed l) w).map fun t => t.segNext lc l).getD s := by
  obtain ⟨core, found, word, alive⟩ := runs
  have go : (wOp w != op || !s.coreRuns lc) = false := by simp [named, alive]
  rw [acting_eq, State.passed, State.millStep, Nat.mod_eq_of_lt core, found]
  simp only [word, go]
  cases act ((s.tookOver lc).setLoop l { s.loop l with pos := (s.loop l).pos + 1 }) l { s.loop l with pos := (s.loop l).pos + 1 } w <;>
    rfl

theorem millStep_goes {t : State} (acts : act (s.acting lc l) l (s.passed l) w = some t) :
    s.millStep (lc % 3) op act = t.segNext lc l := by
  rw [millStep_eq runs named, acts]
  rfl

theorem millStep_waits (waits : act (s.acting lc l) l (s.passed l) w = none) : s.millStep (lc % 3) op act = s := by
  rw [millStep_eq runs named, waits]
  rfl

theorem millCalc_goes (f : MillLoop → Dword → MillLoop) :
    s.millCalc (lc % 3) op f = ((s.acting lc l).setLoop l (f (s.passed l) w)).segNext lc l :=
  millStep_goes runs named rfl

end

section
variable (named : wOp w = 0xB0)
include named

theorem millMin_takes {v : Word} (input : (s.acting lc l).inputOf (s.passed l) w = some (v, false)) :
    s.millMin (lc % 3) = ((s.acting lc l).setLoop l ((s.passed l).put (mD w) v)).segNext lc l :=
  millStep_goes runs named (by simp only [input]; rfl)

/-- A faulted input gives its last good value, and the fault is told (R395). -/
theorem millMin_faulted {v : Word} (input : (s.acting lc l).inputOf (s.passed l) w = some (v, true)) :
    s.millMin (lc % 3) = (((s.acting lc l).setLoop l ((s.passed l).put (mD w) v)).inputFault l (mSel w)).segNext lc l :=
  millStep_goes runs named (by simp only [input]; rfl)

theorem millMin_waits (input : (s.acting lc l).inputOf (s.passed l) w = none) : s.millMin (lc % 3) = s :=
  millStep_waits runs named (by simp only [input])

end

section
variable (named : wOp w = 0xB1)
include named

theorem millMout_pwm (pwm : mKind w = 0) :
    s.millMout (lc % 3) =
      ((if f32IsNaN ((s.passed l).r (mA w)) then ((s.acting lc l).shadowed (mIdx w) ((s.passed l).r (mA w))).inputFault l (mSel w)
        else (s.acting lc l).shadowed (mIdx w) ((s.passed l).r (mA w))).outTimed l (s.passed l).snap.trig).segNext lc l := by
  refine millStep_goes runs named ?_
  simp only [pwm]
  rfl

/-- A transmit word that stays as the register is. -/
theorem millMout_word (tx : mKind w ≠ 0) (plain : (s.acting lc l).txFrameOf (mIdx w) = none ∨
      ∃ f, (s.acting lc l).txFrameOf (mIdx w) = some f ∧ (s.acting lc l).txInt f (mIdx w) = false) :
    s.millMout (lc % 3) = (((s.acting lc l).txWrite l (mIdx w) ((s.passed l).r (mA w))).outTimed l (s.passed l).snap.trig).segNext lc l := by
  refine millStep_goes runs named ?_
  rcases plain with none_ | ⟨f, frame, float⟩
  · simp only [if_neg tx, none_]
    rfl
  · simp only [if_neg tx, frame, float]
    rfl

/-- A transmit word that is an INT32 (R404). -/
theorem millMout_int (tx : mKind w ≠ 0) {f : Nat} (frame : (s.acting lc l).txFrameOf (mIdx w) = some f)
    (int : (s.acting lc l).txInt f (mIdx w) = true) {u : State} {v : Word}
    (converted : (s.acting lc l).txConvert ((s.passed l).r (mA w)) ((s.acting lc l).rd uMill (txOff f + 0x18)) = (u, v)) :
    s.millMout (lc % 3) = ((u.txWrite l (mIdx w) v).outTimed l (s.passed l).snap.trig).segNext lc l := by
  refine millStep_goes runs named ?_
  simp only [if_neg tx, frame, int, if_pos, converted]
  rfl

end

section
variable (named : wOp w = 0xBB)
include named

/-- A small residual clears the count (R394). -/
theorem millObs_small (small : flt ((s.passed l).c (mK w)) (fabs (fsub ((s.passed l).r (mA w)) ((s.passed l).r (mB w)))) = false) :
    s.millObs (lc % 3) = ((s.acting lc l).setFld (wLoop l) 0x10 23 16 0).segNext lc l := by
  refine millStep_goes runs named ?_
  simp only [small]
  rfl

section
variable {n : Nat} (big : flt ((s.passed l).c (mK w)) (fabs (fsub ((s.passed l).r (mA w)) ((s.passed l).r (mB w)))) = true)
  (count : min 255 ((s.acting lc l).fld (wLoop l) 0x10 23 16 + 1) = n)
include big count

theorem millObs_counts (below : n ≠ bits w 7 0) :
    s.millObs (lc % 3) = ((s.acting lc l).setFld (wLoop l) 0x10 23 16 n).segNext lc l := by
  refine millStep_goes runs named ?_
  simp only [big, count, if_pos, decide_eq_false below]
  rfl

/-- The count at its limit is a plausibility fault (R394). -/
theorem millObs_limit (reached : n = bits w 7 0) :
    s.millObs (lc % 3) = (((((((s.acting lc l).setFld (wLoop l) 0x10 23 16 n).setFlag (wLoop l) 0x10 30 true).count uMill 0x218 1).wdReport
      0x09 l 0).millEvent l 0x0018 l (n + (s.loop l).pos * 2 ^ 16))).segNext lc l := by
  refine millStep_goes runs named ?_
  simp only [big, count, if_pos, decide_eq_true reached]
  rfl

end

end

/-- The shadow that MOUT writes, and the input fault of a duty that is NaN (R403). -/
theorem millMout_shadow (named : wOp w = 0xB1) (pwm : mKind w = 0) {t : State} :
    let A := (s.passed l).r (mA w)
    let shadow : State := { s.acting lc l with
      pwmShadow := SMap.insert (mIdx w) (pwmCompare A ((s.acting lc l).pwmPeriod (mIdx w))) (SMap.erase (mIdx w) s.pwmShadow) }
    (f32IsNaN A = false → t = shadow) → (f32IsNaN A = true → t = shadow.inputFault l (mSel w)) →
    s.millMout (lc % 3) = (t.outTimed l (s.passed l).snap.trig).segNext lc l := by
  intro A shadow good bad
  have same : (s.acting lc l).shadowed (mIdx w) A = shadow := by
    have kept : (s.acting lc l).pwmShadow = s.pwmShadow := pwmShadow_tookOver s lc
    rw [State.shadowed, kept]
  rw [millMout_pwm runs named pwm, same]
  cases nan : f32IsNaN A with
  | true => rw [if_pos rfl, bad nan]
  | false => rw [if_neg (by decide), good nan]

end

/-- Settles O32: every instruction of a law is a function of the sample's registers and coefficients, or one of the few that act
on the state, and the segment goes on behind it. -/
theorem millInstructions : Obligations.MillInstructions := by
  unfold Obligations.MillInstructions
  intro lc l w s runs x m ran A B k
  refine ⟨fun named v input => ?_, fun named v input => ?_, fun named input => ?_, fun named t good bad word int => ?_,
    fun named => ?fmak, fun named => ?fma, fun named => ?add, fun named => ?sub, fun named => ?mul, fun named => ?clamp,
    fun named => ?biq, fun named => ?sstep, fun named => ?pid, ?_, fun named => ?_⟩
  case fmak | fma | add | sub | mul | clamp | biq | sstep | pid =>
    exact congrArg Host.Outcome.next (millCalc_goes runs named _)
  · exact congrArg Host.Outcome.next (millMin_takes runs named input)
  · exact congrArg Host.Outcome.next (millMin_faulted runs named input)
  · exact congrArg Host.Outcome.next (millMin_waits runs named input)
  · refine congrArg Host.Outcome.next ?_
    by_cases pwm : mKind w = 0
    · exact millMout_shadow runs named pwm (good pwm) (bad pwm)
    · cases frame : m.txFrameOf (mIdx w) with
      | none => rw [word pwm (.inl frame)]; exact millMout_word runs named pwm (.inl frame)
      | some f =>
        cases kind : m.txInt f (mIdx w) with
        | false => rw [word pwm (.inr ⟨f, frame, kind⟩)]; exact millMout_word runs named pwm (.inr ⟨f, frame, kind⟩)
        | true => rw [int pwm f frame kind _ _ rfl]; exact millMout_int runs named pwm frame kind rfl
  · intro named big n
    refine ⟨fun small => ?_, fun large below => ?_, fun large reached => ?_⟩
    · exact congrArg Host.Outcome.next (millObs_small runs named small)
    · exact congrArg Host.Outcome.next (millObs_counts runs named large rfl below)
    · exact congrArg Host.Outcome.next (millObs_limit runs named large rfl reached)
  · exact congrArg Host.Outcome.next (millStep_goes runs named rfl)

end Sys2Proof.Machine

namespace Sys2Proof.Machine

/-! ## The scheduler's reading of entries (R164, R247, R249, R250) -/

/-- A read of LPDDR4X without translation that no rule stops gives the bytes and leaves the state. -/
theorem extRead_reaches {s : State} {ini a : Nat} (reaches : s.Reaches ini a false) (client n : Nat) :
    s.extRead ini client false a n = (s, .ok, s.bytes a n) := by
  obtain ⟨region, outside, allowed⟩ := reaches
  have found : s.resolve ini client false a false = (s, .ok, false, a) := by
    simp [State.resolve, region, State.lpddrAt, outside, allowed]
  simp [State.extRead, found]

theorem headEntry_at {s : State} {x : QSlot} {e : List Word} {pre : Bool} (at_ : s.EntryAt x e pre) :
    s.headEntry x = (s, .ok, e, pre) := by
  rcases at_ with ⟨l, stored, rfl⟩ | ⟨empty, rfl, plain, region, outside, allowed, rfl⟩
  · simp only [State.headEntry, stored]
  · simp only [State.headEntry, empty, plain, extRead_reaches ⟨region, outside, allowed⟩]

/-- What the scheduler leaves once it has read, for a queue without a reservation. -/
theorem readNow_of {s t : State} {q : Nat} (reads : s.entryRead q 1048576 = t) (free : t.reservOf q = none) :
    s.readNow q = t.vtSync := by
  simp [State.readNow, reads, free]

/-- A queue is not read: it is disabled or halted, it runs a command or has its entry, or it is being deleted. -/
theorem entryRead_rests {s : State} {q : Nat} {x : QSlot} (slot : s.slot q = some x) (rests : qEnabled x.words = false ∨
    qHalted x.words = true ∨ x.running.isSome ∨ x.entry.isSome ∨ x.deleting = true) (n : Nat) : s.entryRead q n = s := by
  cases n with
  | zero => rfl
  | succ n =>
    have shut : (!qEnabled x.words || qHalted x.words || x.running.isSome || x.entry.isSome || x.deleting) = true := by
      simp only [Bool.or_eq_true, Bool.not_eq_true', or_assoc]
      exact rests
    simp only [State.entryRead, slot, if_pos shut]

section
variable {s : State} {q : Nat} {x : QSlot} {e : List Word} {pre : Bool} (may : s.MayFetch q x) (at_ : s.EntryAt x e pre)
include may at_

/-- The scheduler has the entry at HEAD: what it does with it. -/
theorem entryRead_eq (n : Nat) : s.entryRead q (n + 1) =
    if ePhase e ≠ qPhase x.words then s
    else if s.entryFault x.words e = 0 then s.takeEntry q e pre
    else if compRoom x.words = false then (s.count uSched 0x234 1).updSlot q fun y => { y with compWait := true }
    else ((s.noteFault q e (s.entryFault x.words e) uSched (spIni q) 0 0 oNone).complete q e
      ⟨s.entryFault x.words e, false, 0, 0, 0⟩).entryRead q n := by
  obtain ⟨slot, enabled, going, idle, empty, stays⟩ := may
  have open_ : (!qEnabled x.words || qHalted x.words || x.running.isSome || x.entry.isSome || x.deleting) = false := by
    simp [enabled, going, idle, empty, stays]
  simp only [State.entryRead, slot, open_, headEntry_at at_, bne_iff_ne, Bool.not_eq_true']
  rfl

end

/-- The start condition of an entry holds now (R166). -/
def State.startsNow (s : State) (e : List Word) : Prop :=
  eStartEn e = false ∨ markOk (s.mark (eStartMark e)) (eStartValue e) (eStartEq e) = true

/-- A queue whose slot holds entry e with the words d of the queue, ready or not as e's start condition says. -/
def State.HasEntry (s t : State) (q : Nat) (d e : List Word) : Prop :=
  ∃ y, t.slot q = some y ∧ y.entry = some e ∧ y.words = d ∧ (y.held = true ↔ s.startsNow e)

theorem latchStart_hasEntry {s : State} {q : Nat} {y : QSlot} {e : List Word} (slot : s.slot q = some y) (entry : y.entry = some e)
    (fresh : y.held = false) : s.HasEntry (s.latchStart q) q y.words e := by
  have starts : (!eStartEn e || markOk (s.mark (eStartMark e)) (eStartValue e) (eStartEq e)) = true ↔ s.startsNow e := by
    simp [State.startsNow]
  refine ⟨_, (slot_updSlot s q _ ?same).trans (congrArg _ slot), ?_⟩
  case same =>
    intro z
    cases z.entry with
    | none => rfl
    | some e => dsimp only; split_ifs <;> rfl
  simp only [entry, fresh, Bool.false_eq_true, if_false]
  split_ifs with now
  · exact ⟨rfl, rfl, iff_of_true rfl (starts.mp now)⟩
  · exact ⟨entry, rfl, iff_of_false (Bool.eq_false_iff.mp fresh) (mt starts.mpr now)⟩

/-- An entry is put in its slot and latched; what is not ready will have been prefetched by the time it is. -/
theorem takeEntry_of {s t : State} {q : Nat} {y : QSlot} {e : List Word} {pre : Bool}
    (latched : (s.updSlot q fun y => { y with entry := some e, held := false, prefetched := pre }).latchStart q = t)
    (found : t.slot q = some y) (free : t.reservOf q = none) : s.takeEntry q e pre =
      if y.held && compRoom y.words then t else t.updSlot q fun z => { z with prefetched := true } := by
  simp only [State.takeEntry, latched, found]
  cases (y.held && compRoom y.words) <;> simp [free]

/-- Taking an entry for a queue without a reservation: its slot has it, latched; no reservation changes. -/
theorem takeEntry_spec {s : State} {q : Nat} {x : QSlot} (slot : s.slot q = some x) (free : s.reservOf q = none) (e : List Word)
    (pre : Bool) : s.HasEntry (s.takeEntry q e pre) q x.words e ∧ (s.takeEntry q e pre).reservs = s.reservs := by
  have placed := slot_updSlot s q (fun y => { y with entry := some e, held := false, prefetched := pre }) fun _ => rfl
  rw [slot] at placed
  obtain ⟨y, found, entry, words, held⟩ := latchStart_hasEntry placed rfl rfl
  rw [takeEntry_of rfl found free]
  split
  · exact ⟨⟨y, found, entry, words, held⟩, rfl⟩
  · refine ⟨⟨{ y with prefetched := true }, ?_, entry, words, held⟩, rfl⟩
    rw [slot_updSlot _ q (fun z => { z with prefetched := true }) fun _ => rfl, found]
    rfl

/-- Settles O13: the branches of one reading of the entry at HEAD. -/
theorem entryIsRead : Obligations.EntryIsRead := by
  unfold Obligations.EntryIsRead
  intro s q x small slot free
  have reads : ∀ t : State, s.entryRead q 1048576 = t → t.reservs = s.reservs → exec (.entryRead q) s = .next t.vtSync := by
    intro t read kept
    have unreserved : t.reservOf q = none := by rw [State.reservOf, kept]; exact free
    have named : exec (.entryRead q) s = .next (s.readNow q) :=
      congrArg (fun k => Host.Outcome.next (s.readNow k)) (Nat.mod_eq_of_lt small)
    exact named.trans (congrArg _ (readNow_of read unreserved))
  refine ⟨fun e pre may at_ => ⟨fun unseen => ?_, fun seen sound => ⟨?_, ?_⟩, fun seen bad full => ?_, fun seen bad room n => ?_⟩,
    fun rests => ?_⟩
  · exact reads s ((entryRead_eq may at_ _).trans (if_pos unseen)) rfl
  · refine reads _ ?_ (takeEntry_spec slot free e pre).2
    rw [entryRead_eq may at_, if_neg (not_not_intro seen), if_pos sound]
  · exact (takeEntry_spec slot free e pre).1
  · refine reads _ ?_ (State.count_reservs s uSched 0x234 1)
    rw [entryRead_eq may at_, if_neg (not_not_intro seen), if_neg bad, if_pos full]
  · rw [entryRead_eq may at_, if_neg (not_not_intro seen), if_neg bad, if_neg (by simp [room])]
  · exact reads s (entryRead_rests slot rests _) rfl

end Sys2Proof.Machine

namespace Sys2Proof.Machine

/-! ## Lock passages (R196–R198, R226, R227) -/

theorem ButRegs.foldl {α : Type} {f : State → α → State} (each : ∀ s a, ButRegs s (f s a)) (l : List α) (s : State) :
    ButRegs s (l.foldl f s) := by
  induction l generalizing s with
  | nil => exact .refl s
  | cons a t ih => exact (each s a).trans (ih _)

theorem ButRegs.run {s t : State} (h : ButRegs s t) (y : Ctx) : t.run y = s.run y := by
  have := congrArg (fun u : State => u.run y) h; exact this

theorem ButRegs.locks {s t : State} (h : ButRegs s t) : t.locks = s.locks := by
  have := congrArg State.locks h; exact this

theorem ButRegs.banks {s t : State} (h : ButRegs s t) : t.banks = s.banks := by
  have := congrArg State.banks h; exact this

theorem setFlag_butRegs (s : State) (u off i : Nat) (b : Bool) : ButRegs s (s.setFlag u off i b) := .wr ..

theorem lockSync_butRegs (s : State) : ButRegs s s.lockSync := .wr ..

theorem dcSync_butRegs (s : State) (x : Ctx) : ButRegs s (s.dcSync x) := .foldl (fun _ _ => .wr ..) _ s

/-! ### What passages change -/

/-- t is s but for the contexts, the passages, the banks and the registers. -/
def LocksOnly (s t : State) : Prop := t = { s with ctxs := t.ctxs, locks := t.locks, banks := t.banks, regs := t.regs }

theorem LocksOnly.trans {a b c : State} (h : LocksOnly a b) (g : LocksOnly b c) : LocksOnly a c :=
  Eq.trans g (congrArg (fun u : State => { u with ctxs := c.ctxs, locks := c.locks, banks := c.banks, regs := c.regs }) h)

theorem ButRegs.locksOnly {s t : State} (h : ButRegs s t) : LocksOnly s t := by
  have ctxs := congrArg State.ctxs h
  have same := congrArg (fun u : State => { u with regs := t.regs }) h
  unfold LocksOnly
  rw [h.locks, h.banks, show t.ctxs = s.ctxs from ctxs]
  exact same

theorem LocksOnly.updRun (s : State) (x : Ctx) (f : CtxRun → CtxRun) : LocksOnly s (s.updRun x f) := rfl

theorem LocksOnly.with_locks (s : State) (l : List LockX) : LocksOnly s { s with locks := l } := rfl

/-! ### Every bank of a list changed in the same way -/

def State.onBanks (s : State) (f : BankX → BankX) (bs : List Nat) : State := bs.foldl (fun t b => t.setBank b (f (t.bank b))) s

theorem bank_setBank (s : State) (b : Nat) (y : BankX) (c : Nat) : (s.setBank b y).bank c = if c = b then y else s.bank c := by
  rw [State.bank, State.setBank, SMap.get_set]
  rfl

theorem bank_onBanks {f : BankX → BankX} (idem : ∀ y, f (f y) = f y) (s : State) (bs : List Nat) (c : Nat) :
    (s.onBanks f bs).bank c = if c ∈ bs then f (s.bank c) else s.bank c := by
  induction bs generalizing s with
  | nil => rfl
  | cons b t ih =>
    refine (ih (s.setBank b (f (s.bank b)))).trans ?_
    rw [bank_setBank]
    by_cases here : c = b
    · subst here; simp [idem]
    · simp [here]

theorem onBanks_eq (s : State) (f : BankX → BankX) (bs : List Nat) : s.onBanks f bs = { s with banks := (s.onBanks f bs).banks } := by
  suffices ∀ t : State, t = { s with banks := t.banks } → t.onBanks f bs = { s with banks := (t.onBanks f bs).banks } from this s rfl
  induction bs with
  | nil => exact fun t h => h
  | cons b l ih => exact fun t h => ih _ (congrArg (fun u : State => { u with banks := (t.setBank b (f (t.bank b))).banks }) h)

theorem LocksOnly.onBanks (s : State) (f : BankX → BankX) (bs : List Nat) : LocksOnly s (s.onBanks f bs) := by
  unfold LocksOnly
  rw [onBanks_eq]

theorem onBanks_run (s : State) (f : BankX → BankX) (bs : List Nat) (y : Ctx) : (s.onBanks f bs).run y = s.run y := by
  rw [onBanks_eq]
  rfl

theorem onBanks_locks (s : State) (f : BankX → BankX) (bs : List Nat) : (s.onBanks f bs).locks = s.locks := by
  rw [onBanks_eq]

/-! ### LOPEN -/

/-- The opening that LOPEN word w asks for at address a of cluster c, with its banks in ascending physical order (R226). -/
def State.opening (s : State) (r : CtxRun) (w : Dword) (c a : Nat) : LockX :=
  let req := w4 w 44
  { ctx := r.ctx, ini := ctxIni r.ctx, first := a, len := bits w 12 0, req := req
    banks := ((banksOf a (bits w 12 0)).eraseDups).mergeSort fun p q => s.phys p ≤ s.phys q
    reserved := 0, isOpen := false, port := s.unitPort r.ctx c (if req < 4 then req else 5), old := [] }

/-- The members that run LOPEN, with their clusters and their addresses. -/
def State.lockMembers (s : State) (r : CtxRun) (w : Dword) : List (Nat × Nat × Nat) :=
  (s.runMembers r.ctx r.only).map fun m => (m.1, m.2, ((tdOf r.tds (w4 w 48)).member m.1).addr)

theorem mem_opening_banks (s : State) (r : CtxRun) (w : Dword) (c a b : Nat) :
    b ∈ (s.opening r w c a).banks ↔ b ∈ banksOf (s.opening r w c a).first (s.opening r w c a).len := by
  simp [State.opening]

theorem opening_banks_ascend (s : State) (r : CtxRun) (w : Dword) (c a : Nat) :
    (s.opening r w c a).banks.Pairwise fun a b => s.phys a ≤ s.phys b := by
  refine (List.pairwise_mergeSort (le := fun p q => decide (s.phys p ≤ s.phys q)) ?_ ?_ _).imp fun h => of_decide_eq_true h
  · intro a b c ab bc
    exact decide_eq_true ((of_decide_eq_true ab).trans (of_decide_eq_true bc))
  · intro a b
    simpa using Nat.le_total (s.phys a) (s.phys b)

/-- What LOPEN makes of its context: it has a passage of every member's range, and issue stalls. -/
def State.lockStall (s : State) (r : CtxRun) (w : Dword) (q : CtxRun) : CtxRun :=
  { q with lock := some ⟨(s.lockMembers r w).map fun m => (m.1, m.2.2, bits w 12 0), w4 w 44⟩, stall := some .lock, only := none }

/-- LOPEN's openings are queued and its context stalls. -/
def State.lockAsked (s : State) (r : CtxRun) (w : Dword) : State :=
  ({ s.updRun r.ctx fun q => { q with pos := q.pos + 1 } with
    locks := s.locks ++ (s.lockMembers r w).map fun m => s.opening r w m.2.1 m.2.2 } : State).updRun r.ctx (s.lockStall r w)

/-- LOPEN does no more, registers apart. -/
theorem lopen_butRegs {s : State} {r : CtxRun} {w : Dword} (ready : s.Ready r.ctx r w) (named : wOp w = 0x90) :
    ButRegs (s.lockAsked r w) (s.lopen r.ctx) := by
  rw [State.lopen, dec_next ready named]
  exact ((lockSync_butRegs (s.lockAsked r w)).trans (.foldl (fun _ _ => setFlag_butRegs ..) _ _)).trans (dcSync_butRegs _ r.ctx)

theorem lockAsked_run {s : State} {r : CtxRun} (w : Dword) (runs : s.run r.ctx = some r) :
    (s.lockAsked r w).run r.ctx = some (s.lockStall r w { r with pos := r.pos + 1 }) ∧
      ∀ y, y ≠ r.ctx → (s.lockAsked r w).run y = s.run y := by
  obtain ⟨self, others, -⟩ := (alters_pos runs).updRun (s.lockStall r w) fun _ => rfl
  exact ⟨self, others⟩

theorem lockAsked_locksOnly (s : State) (r : CtxRun) (w : Dword) : LocksOnly s (s.lockAsked r w) :=
  ((LocksOnly.updRun ..).trans (.with_locks ..)).trans (.updRun ..)

/-! ### The opening at the lock arbiter -/

/-- A bank locked for an opening's port and requester (R226). -/
def LockX.holds (l : LockX) (y : BankX) : BankX := { y with st := .locked, holder := some (l.port, l.ini) }

/-- The opening at the arbiter is open, and every one of its banks is locked. -/
def State.lockGranted (s : State) (l : LockX) : State :=
  ({ s with locks := updFirst (fun k => !k.isOpen) (fun k => { k with isOpen := true, old := s.bytes k.first k.len }) s.locks } : State).onBanks
    l.holds l.banks

theorem lockGranted_bank (s : State) (l : LockX) (b : Nat) :
    (s.lockGranted l).bank b = if b ∈ l.banks then l.holds (s.bank b) else s.bank b :=
  bank_onBanks (f := l.holds) (fun _ => rfl) _ l.banks b

theorem lockGranted_locksOnly (s : State) (l : LockX) : LocksOnly s (s.lockGranted l) :=
  (LocksOnly.with_locks ..).trans (.onBanks ..)

/-- Issue goes on once no opening of the context waits. -/
def State.lockResumed (s : State) (x : Ctx) : State :=
  if s.locks.any fun k => k.ctx = x && !k.isOpen then s else s.updRun x fun q => { q with stall := none }

section
variable {s : State} {x : Ctx}

theorem lockResumed_goes (open_ : ∀ k ∈ s.locks, k.ctx = x → k.isOpen = true) :
    s.lockResumed x = s.updRun x fun q => { q with stall := none } :=
  if_neg (by simpa using open_)

theorem lockResumed_waits (waits : ∃ k ∈ s.locks, k.ctx = x ∧ k.isOpen = false) : s.lockResumed x = s :=
  if_pos (by simpa using waits)

theorem lockResumed_eq : ∃ l, s.lockResumed x = { s with ctxs := l } := by
  unfold State.lockResumed
  split
  · exact ⟨s.ctxs, rfl⟩
  · exact ⟨_, rfl⟩

end

section
variable {x : Ctx} {s : State} {l : LockX} (first : s.locks.find? (fun k => !k.isOpen) = some l)
include first

theorem lockOpen_waits (other : l.ctx ≠ x ∨ l.reserved < l.banks.length) : s.lockOpen x = s := by
  simp only [State.lockOpen, first]
  rw [if_pos (by simpa using other)]

/-- An opening with all its banks reserved opens; else only registers change. -/
theorem lockOpen_butRegs (mine : l.ctx = x) (reserved : l.banks.length ≤ l.reserved) :
    ButRegs ((s.lockGranted l).lockResumed x) (s.lockOpen x) := by
  have opens : ¬(l.ctx != x || decide (l.reserved < l.banks.length)) = true := by simp [mine, reserved]
  simp only [State.lockOpen, first]
  rw [if_neg opens]
  exact (lockSync_butRegs _).trans (dcSync_butRegs _ x)

end

/-! ### LCLOSE -/

/-- A bank that returns (R227). -/
def BankX.freed (y : BankX) : BankX := { y with st := .idle, holder := none }

/-- The banks that the passages of a context have reserved. -/
def State.lockBanks (s : State) (x : Ctx) : List Nat :=
  (s.locks.filter (·.ctx = x)).flatMap fun (l : LockX) => l.banks.take l.reserved

/-- No passage of the context is left, its banks are back. -/
def State.lockFreed (s : State) (x : Ctx) : State :=
  { s.onBanks BankX.freed (s.lockBanks x) with locks := s.locks.filter (·.ctx != x) }

theorem mem_lockBanks {s : State} {x : Ctx} {b : Nat} :
    b ∈ s.lockBanks x ↔ ∃ l ∈ s.locks, l.ctx = x ∧ b ∈ l.banks.take l.reserved := by
  simp [State.lockBanks, and_assoc]

theorem postedNow_none {s : State} (none_ : s.held = []) : s.postedNow = s := by
  simp only [State.postedNow, none_, List.foldl_nil]
  rw [← none_]

/-- Where no access waits, closing the passages of a context changes their banks and, registers apart, no more. -/
theorem dropLocks_butRegs {s : State} {x : Ctx} (none_ : s.held = []) : ButRegs (s.lockFreed x) (s.dropLocks x) := by
  have kept : (s.lockFreed x).lockSync.held = [] := by
    have banks : (s.onBanks BankX.freed (s.lockBanks x)).held = s.held := by rw [onBanks_eq]
    exact (State.wr_held ..).trans (banks.trans none_)
  by_cases idle : s.locks.filter (·.ctx = x) = []
  · have all : s.locks.filter (·.ctx != x) = s.locks := by
      rw [List.filter_eq_self]
      intro l mem
      simpa using List.filter_eq_nil_iff.mp idle l mem
    have same : s.lockFreed x = s := by
      rw [State.lockFreed, State.lockBanks, idle, all]
      rfl
    rw [same, State.dropLocks, idle]
    exact .refl s
  · have go : ¬(s.locks.filter (·.ctx = x)).isEmpty = true := by simpa using idle
    have drops : s.dropLocks x = (s.lockFreed x).lockSync.postedNow := if_neg go
    rw [drops, postedNow_none kept]
    exact lockSync_butRegs _

theorem lockFreed_bank (s : State) (x : Ctx) (b : Nat) :
    (s.lockFreed x).bank b = if b ∈ s.lockBanks x then (s.bank b).freed else s.bank b :=
  bank_onBanks (f := BankX.freed) (fun _ => rfl) s (s.lockBanks x) b

theorem lockFreed_locksOnly (s : State) (x : Ctx) : LocksOnly s (s.lockFreed x) :=
  (LocksOnly.onBanks ..).trans (.with_locks ..)

/-- LCLOSE goes on without a passage. -/
def State.lockClosed (s : State) (x : Ctx) : State :=
  ((s.dropLocks x).updRun x fun q => { q with lock := none, only := none }).dcSync x

theorem lockClosed_spec {s : State} {x : Ctx} {r : CtxRun} (runs : s.run x = some r) (none_ : s.held = []) :
    (s.lockClosed x).locks = s.locks.filter (·.ctx ≠ x) ∧ (s.lockClosed x).run x = some { r with lock := none, only := none } ∧
      (∀ b, (s.lockClosed x).bank b = if ∃ l ∈ s.locks, l.ctx = x ∧ b ∈ l.banks.take l.reserved then (s.bank b).freed else s.bank b) ∧
      LocksOnly s (s.lockClosed x) := by
  have drops := dropLocks_butRegs (x := x) none_
  have synced := dcSync_butRegs ((s.dropLocks x).updRun x fun q => { q with lock := none, only := none }) x
  refine ⟨?_, ?_, fun b => ?_, ?_⟩
  · refine (synced.locks.trans drops.locks).trans (List.filter_congr fun l _ => ?_)
    rw [Bool.eq_iff_iff, bne_iff_ne, decide_eq_true_iff]
  · have kept : (s.dropLocks x).run x = some r := (drops.run x).trans ((onBanks_run ..).trans runs)
    refine (synced.run x).trans ?_
    rw [run_updRun _ x (fun q => { q with lock := none, only := none }) fun _ => rfl, kept]
    rfl
  · have banks : (s.lockClosed x).banks = (s.lockFreed x).banks := synced.banks.trans drops.banks
    refine (congrArg (SMap.get (fun _ => BankX.init) b) banks).trans ((lockFreed_bank s x b).trans ?_)
    exact if_congr mem_lockBanks rfl rfl
  · exact (((lockFreed_locksOnly s x).trans drops.locksOnly).trans (.updRun ..)).trans synced.locksOnly

/-- Settles O12: LOPEN, the arbiter's grant and LCLOSE change contexts, passages and banks as stated, registers apart no more. -/
theorem lockPassages : Obligations.LockPassages := by
  unfold Obligations.LockPassages
  refine ⟨?_, ?_, ?_, ?_⟩
  · intro x s r w ready named
    obtain rfl : r.ctx = x := run_ctx ready.1
    have asked := lopen_butRegs ready named
    have frame := (lockAsked_locksOnly s r w).trans asked.locksOnly
    obtain ⟨self, others⟩ := lockAsked_run w ready.1
    refine ⟨_, rfl, ⟨_, asked.locks, by simp [State.lockMembers, State.opening, w4], ?_⟩, ⟨_, (asked.run _).trans self⟩,
      fun y n => (asked.run y).trans (others y n), ?_⟩
    · intro l mem
      obtain ⟨m, -, rfl⟩ := List.mem_map.mp mem
      exact ⟨rfl, rfl, rfl, rfl, rfl, rfl, fun b => mem_opening_banks s r w m.2.1 m.2.2 b, opening_banks_ascend s r w m.2.1 m.2.2⟩
    · have banks : (s.lopen r.ctx).banks = s.banks := asked.banks
      rw [LocksOnly, banks] at frame
      exact frame
  · intro x s r l runs first mine reserved
    have opens := lockOpen_butRegs first mine reserved
    obtain ⟨ctxs, resumed⟩ := lockResumed_eq (s := s.lockGranted l) (x := x)
    have granted : (s.lockGranted l).run x = some r := (onBanks_run ..).trans runs
    have locks : ((s.lockGranted l).lockResumed x).locks = (s.lockGranted l).locks := by rw [resumed]
    have frame : LocksOnly (s.lockGranted l) ((s.lockGranted l).lockResumed x) := by rw [resumed]; rfl
    refine ⟨_, rfl, fun b => ?_, (opens.locks.trans locks).trans (onBanks_locks ..), fun open_ => ?_, fun waits => ?_,
      ((lockGranted_locksOnly s l).trans frame).trans opens.locksOnly⟩
    · have same : (s.lockOpen x).bank b = (s.lockGranted l).bank b := by
        rw [State.bank, opens.banks, resumed]
        rfl
      exact same.trans (lockGranted_bank s l b)
    · rw [opens.locks, locks] at open_
      rw [opens.run, lockResumed_goes open_, run_updRun _ x (fun q => { q with stall := none }) fun _ => rfl, granted]
      rfl
    · rw [opens.locks, locks] at waits
      rw [opens.run, lockResumed_waits waits, granted]
  · intro x s r l runs first other
    exact congrArg Host.Outcome.next (lockOpen_waits first other)
  · intro x s r w ready named
    have closes : exec (.lclose x) s = .next ((s.updRun x fun q => { q with pos := q.pos + 1 }).lockClosed x) :=
      congrArg Host.Outcome.next (dec_next ready named _)
    refine ⟨closes, fun none_ => ⟨_, closes, ?_⟩⟩
    obtain ⟨locks, self, banks, frame⟩ := lockClosed_spec (run_pos ready.1) none_
    exact ⟨locks, self, banks, (LocksOnly.updRun ..).trans frame⟩

end Sys2Proof.Machine

namespace Sys2Proof.Machine

/-! ## The canonical form of the stores -/

/-- A step keeps what a command or a tick of the Gauge keeps, once the front command has left the queue. -/
theorem step_keeps {s t : State} (h : step s = .next t) : Keeps { s with pending := s.pending.tail } t := by
  cases queue : s.pending with
  | nil =>
    simp only [step, queue, Host.Outcome.next.injEq] at h
    subst h
    have same : { s with pending := [] } = s := by rw [← queue]
    rw [List.tail_nil, same]
    exact State.gaugeTick_keeps s
  | cons c rest =>
    simp only [step, queue] at h
    exact exec_keeps c _ t h

/-- Settles O59: the queue apart, a step keeps what its command, or the tick, keeps. -/
theorem stepKeepsCanonicalForm : Obligations.StepKeepsCanonicalForm := by
  unfold Obligations.StepKeepsCanonicalForm
  intro s t canonical h
  exact (step_keeps h).canonical canonical

end Sys2Proof.Machine

namespace Sys2Proof.Machine

/-! ## What serves the Polder (R217–R220, R230–R235) -/

/-- t is s but for registers, banks, rows and partial-sum records. -/
def BanksOnly (s t : State) : Prop :=
  t = { s with regs := t.regs, banks := t.banks, rows := t.rows, psumBad := t.psumBad }

theorem BanksOnly.refl (s : State) : BanksOnly s s := rfl

theorem BanksOnly.trans {a b c : State} (h : BanksOnly a b) (g : BanksOnly b c) : BanksOnly a c :=
  Eq.trans g (congrArg (fun u : State => { u with regs := c.regs, banks := c.banks, rows := c.rows, psumBad := c.psumBad }) h)

theorem ButRegs.exists_regs {s t : State} (h : ButRegs s t) : ∃ l, t = { s with regs := l } :=
  ⟨t.regs, congrArg (fun u : State => { u with regs := t.regs }) h⟩

theorem ButRegs.banksOnly {s t : State} (h : ButRegs s t) : BanksOnly s t := by
  obtain ⟨l, rfl⟩ := h.exists_regs
  rfl

theorem BanksOnly.foldl {α : Type} {f : State → α → State} (each : ∀ s a, BanksOnly s (f s a)) (l : List α) (s : State) :
    BanksOnly s (l.foldl f s) := by
  induction l generalizing s with
  | nil => exact .refl s
  | cons a t ih => exact (each s a).trans (ih _)

section
variable {s t : State} (h : BanksOnly s t)
include h

theorem BanksOnly.byte (a : Nat) : t.byte a = s.byte a := by rw [h]; rfl
theorem BanksOnly.bytes (a n : Nat) : t.bytes a n = s.bytes a n := by rw [h]; rfl
theorem BanksOnly.hostByte (a : Nat) : t.hostByte a = s.hostByte a := by rw [h]; rfl
theorem BanksOnly.sameMemory : SameMemory s t := ⟨h.byte, h.hostByte⟩
theorem BanksOnly.sameMarks : SameMarks s t := fun m => by rw [h]; rfl
theorem BanksOnly.phys (b : Nat) : t.phys b = s.phys b := by rw [h]; rfl

theorem BanksOnly.setByte (a : Nat) (b : Byte) : BanksOnly (s.setByte a b) (t.setByte a b) := by
  unfold BanksOnly
  rw [h]
  rfl

end

theorem BanksOnly.setBytes {s t : State} (h : BanksOnly s t) (a : Nat) (l : List Byte) : BanksOnly (s.setBytes a l) (t.setBytes a l) := by
  induction l generalizing s t a with
  | nil => exact h
  | cons b l ih => exact ih (h.setByte a b) (a + 1)

theorem BanksOnly.setBank (s : State) (b : Nat) (x : BankX) : BanksOnly s (s.setBank b x) := rfl
theorem BanksOnly.setRowX (s : State) (k : Nat) (x : RowX) : BanksOnly s (s.setRowX k x) := rfl
theorem BanksOnly.psumGone (s : State) (a n : Nat) : BanksOnly s (s.psumGone a n) := rfl
theorem BanksOnly.wr (s : State) (u off : Nat) (v : Word) : BanksOnly s (s.wr u off v) := (ButRegs.wr ..).banksOnly
theorem BanksOnly.count (s : State) (u off k : Nat) : BanksOnly s (s.count u off k) := .wr ..

theorem BanksOnly.ite {s a b : State} {c : Prop} [Decidable c] (yes : BanksOnly s a) (no : BanksOnly s b) :
    BanksOnly s (if c then a else b) := by
  split
  · exact yes
  · exact no

theorem sluices_banksOnly (s : State) (g : Nat) (a b : Sluice) : BanksOnly s (s.sluices g a b) :=
  .foldl (fun _ _ => .ite (.setBank ..) (.refl _)) _ s

theorem wakeGroup_banksOnly (s : State) (g : Nat) : BanksOnly s (s.wakeGroup g) :=
  (BanksOnly.wr ..).trans (sluices_banksOnly ..)

theorem wakeGroups_banksOnly (s : State) (a n : Nat) (write : Bool) : BanksOnly s (s.wakeGroups a n write) :=
  .foldl (fun _ _ => (BanksOnly.wr ..).trans (wakeGroup_banksOnly ..)) _ s

theorem clearPoison_banksOnly (s : State) (a n : Nat) : BanksOnly s (s.clearPoison a n) :=
  .foldl (fun _ _ => .ite (.setRowX ..) (.refl _)) _ s

theorem markStale_banksOnly (s : State) (a n : Nat) : BanksOnly s (s.markStale a n) :=
  .foldl (fun _ _ => (BanksOnly.wr ..).trans (.count ..)) _ s

theorem gatherNarrow_banksOnly (s : State) (a n : Nat) (write : Bool) : BanksOnly s (s.gatherNarrow a n write) :=
  (BanksOnly.count s _ _ _).trans
    (.ite (.ite ((BanksOnly.setBank ..).trans (clearPoison_banksOnly ..)) (.setBank ..)) (.ite (.refl _) (.setBank ..)))

theorem gatherFlushes_banksOnly (s : State) (l : List Nat) :
    BanksOnly s (l.foldl (fun s r => s.gatherFlush (bankOf r) (rowOf r)) s) := .foldl (fun _ _ => .setBank ..) l s

theorem gather_banksOnly (s : State) (io : Bool) (a n : Nat) (write : Bool) : BanksOnly s (s.gather io a n write) :=
  .ite (.ite (gatherNarrow_banksOnly ..) (.setBank ..)) (gatherFlushes_banksOnly ..)

theorem gatherRun_banksOnly (s : State) (q a n : Nat) (write : Bool) : BanksOnly s (s.gatherRun q a n write) :=
  .ite (.foldl (fun _ _ => gather_banksOnly ..) _ s) (gatherFlushes_banksOnly ..)

/-! ### Reads and writes that the banks serve -/

theorem hazRun_quiet {s : State} {a n : Nat} (quiet : ∀ r ∈ rowsOf a n, s.hazOn (s.groupOf (bankOf r)) = false) (q : Nat) (write : Bool) :
    s.hazRun q a n write = s := by
  unfold State.hazRun
  refine List.foldlRecOn (motive := fun t => t = s) _ _ rfl fun t same r mem => ?_
  subst same
  rw [quiet r mem, if_neg Bool.false_ne_true]

theorem polGet_ok {s t : State} {a n : Nat} {l : List Byte} (h : s.polGet a n = (t, 0, l)) :
    BanksOnly s t ∧ l = s.bytes a n := by
  have woken := wakeGroups_banksOnly s a n false
  simp only [State.polGet] at h
  split at h
  · cases h
  · cases h
    exact ⟨woken, woken.bytes a n⟩

/-- A write that the banks serve leaves the bytes that it writes and changes no other byte. -/
theorem polPut_ok {s t : State} {a : Nat} {l : List Byte} {f : Bool} (h : s.polPut a l f = (t, 0)) :
    BanksOnly (s.setBytes a l) t := by
  have woken := wakeGroups_banksOnly s a l.length true
  simp only [State.polPut] at h
  split at h
  · cases h
  · cases h
    have served := (woken.setBytes a l).trans ((clearPoison_banksOnly _ a l.length).trans (.psumGone _ a l.length))
    exact served.trans (.ite (.refl _) (markStale_banksOnly ..))

theorem SameMarks.trans {a b c : State} (h : SameMarks a b) (g : SameMarks b c) : SameMarks a c := fun m => (g m).trans (h m)

theorem setBytes_hostByte (s : State) (a x : Nat) (l : List Byte) : (s.setBytes a l).hostByte x = s.hostByte x := by
  rw [setBytes_eq]
  rfl

theorem setBytes_sameMarks (s : State) (a : Nat) (l : List Byte) : SameMarks s (s.setBytes a l) := fun m => by
  rw [setBytes_eq]
  rfl

theorem setBytes_byte_outside (s : State) {a x : Nat} {l : List Byte} (out : x < a ∨ a + l.length ≤ x) :
    (s.setBytes a l).byte x = s.byte x := by
  rw [byte_setBytes, if_neg (by omega)]

section
variable {s t : State} {q a n : Nat}

theorem polRead_denied (no : s.polderAllowed (reqIni q) a n false = false) :
    s.polRead q a n = (s.polderDeny (reqIni q) a false, fPARCEL_DENIED, []) := by
  rw [State.polRead, no]
  rfl

theorem polRead_waits (may : s.polderAllowed (reqIni q) a n false = true) (barred : s.barred q a n = true)
    (command : (iniCtx (reqIni q)).isSome = true) : s.polRead q a n = (s, fSLUICE_WAIT, []) := by
  simp [State.polRead, may, barred, command]

theorem polRead_served (may : s.polderAllowed (reqIni q) a n false = true) (free : s.barred q a n = false) :
    s.polRead q a n = ((s.hazRun q a n false).gatherRun q a n false).polGet a n := by
  simp [State.polRead, may, free]

variable {l : List Byte} {f : Bool}

theorem polWrite_denied (no : s.polderAllowed (reqIni q) a l.length true = false) :
    s.polWrite q a l f = (s.polderDeny (reqIni q) a true, fPARCEL_DENIED) := by
  simp [State.polWrite, no]

theorem polWrite_waits (may : s.polderAllowed (reqIni q) a l.length true = true) (barred : s.barred q a l.length = true)
    (command : (iniCtx (reqIni q)).isSome = true) : s.polWrite q a l f = (s, fSLUICE_WAIT) := by
  simp [State.polWrite, may, barred, command]

theorem polWrite_served (may : s.polderAllowed (reqIni q) a l.length true = true) (free : s.barred q a l.length = false) :
    s.polWrite q a l f = ((s.hazRun q a l.length true).gatherRun q a l.length true).polPut a l f := by
  simp [State.polWrite, may, free]

/-- Only an access that is allowed succeeds (R217, R218). -/
theorem polRead_allowed (ok : s.polRead q a n = (t, 0, l)) : s.polderAllowed (reqIni q) a n false = true := by
  by_contra no
  rw [polRead_denied (Bool.not_eq_true _ ▸ no)] at ok
  cases ok

theorem polWrite_allowed (ok : s.polWrite q a l f = (t, 0)) : s.polderAllowed (reqIni q) a l.length true = true := by
  by_contra no
  rw [polWrite_denied (Bool.not_eq_true _ ▸ no)] at ok
  cases ok

end

/-! ### A refusal (R218) -/

theorem polderDeny_butRegs (s : State) (ini a : Nat) (write : Bool) : ButRegs s (s.polderDeny ini a write) :=
  (ButRegs.wr ..).trans (.wr ..)

theorem polderDeny_rd (s : State) (ini a : Nat) (write : Bool) : (s.polderDeny ini a write).rd (uBG 0) 0x208 =
    w32 (2 ^ 31 + b2n write * 2 ^ 30 + ini % 2 ^ 10 * 2 ^ 20 + a / 0x10000 % 2 ^ 12) := by
  rw [State.polderDeny, State.count, State.countF, rd_wr_ne _ _ _ _ _ _ (by decide), rd_wr_same]

theorem polderDeny_sameRegs (s : State) (ini a : Nat) (write : Bool) :
    SameRegsBut [(uBG 0, 0x208), (uBG 0, 0x20C)] s (s.polderDeny ini a write) := by
  intro u off small other
  simp only [List.mem_cons, List.not_mem_nil, or_false, not_or] at other
  obtain ⟨last, count⟩ := other
  rw [State.polderDeny, State.count, State.countF, rd_wr_ne _ _ _ _ _ _ (rk_ne small (by decide) count),
    rd_wr_ne _ _ _ _ _ _ (rk_ne small (by decide) last)]

/-- Settles O30: a quiet access that no lock holds back changes registers, banks and rows, and a write its bytes; a refusal is
recorded in registers alone. -/
theorem polderMemory : Obligations.PolderMemory := by
  unfold Obligations.PolderMemory
  intro s t q a ini quiet
  refine ⟨fun n l still free ok => ?_, fun l f still free ok => ?_, fun n may barred command => polRead_waits may barred command,
    fun l f may barred command => polWrite_waits may barred command, fun n no => polRead_denied no, fun l f no => polWrite_denied no,
    fun w => ⟨(polderDeny_butRegs ..).sameMemory, polderDeny_sameRegs s ini a w, polderDeny_rd ..⟩⟩
  · have may := polRead_allowed ok
    rw [polRead_served may free, hazRun_quiet still] at ok
    obtain ⟨served, bytes⟩ := polGet_ok ok
    have gathered := gatherRun_banksOnly s q a n false
    have frame := gathered.trans served
    exact ⟨bytes.trans (gathered.bytes a n), may, frame.sameMemory, frame.sameMarks⟩
  · have may := polWrite_allowed ok
    rw [polWrite_served may free, hazRun_quiet still] at ok
    have frame := ((gatherRun_banksOnly s q a l.length true).setBytes a l).trans (polPut_ok ok)
    exact ⟨may, (frame.bytes a l.length).trans (bytes_setBytes s a l),
      fun x out => (frame.byte x).trans (setBytes_byte_outside s out),
      fun x => (frame.hostByte x).trans (setBytes_hostByte s a x l), (setBytes_sameMarks s a l).trans frame.sameMarks⟩

end Sys2Proof.Machine

namespace Sys2Proof.Machine

/-! ## A new parcel and its rows (R216, R235, R243) -/

theorem lowest_some {n k : Nat} {p : Nat → Bool} (lt : k < n) (here : p k = true) (below : ∀ j, j < k → p j = false) :
    lowest n p = some k :=
  List.find?_range_eq_some.mpr ⟨here, List.mem_range.mpr lt, fun j m => by rw [below j m]; rfl⟩

/-- The operands of call 0x0200 that R243 allows, its rights entries apart. -/
def parcelArgsOk (args : List Word) : Prop :=
  let n := arg args
  1 ≤ n 1 ∧ n 0 + n 1 ≤ 4096 ∧ n 2 ≤ 2 ∧ n 3 ≤ 0xFFFFF ∧ n 4 ≤ 1 ∧ n 5 ≤ 1 ∧ n 6 ≤ 0xFFFF ∧ n 11 ≤ 1 ∧
    (n 2 = 1 → n 4 = 1 ∧ n 5 = 1) ∧ (n 2 = 2 → n 4 = 0)

/-- The rights entries that call 0x0200 gives. -/
def parcelRights (args : List Word) : List Word := (List.range 4).map fun i => nth args (7 + i) 0

/-- The four rights entries of parcel p. -/
def State.rightsSet (s : State) (p : Nat) (a b c d : Word) : State :=
  (((s.wr (uBG 0) (pclOff p + 16) a).wr (uBG 0) (pclOff p + 20) b).wr (uBG 0) (pclOff p + 24) c).wr (uBG 0) (pclOff p + 28) d

/-- Parcel p as call 0x0200 makes it. -/
def State.parcelMade (s : State) (args : List Word) (p : Nat) : State :=
  let n := arg args
  ((((s.wr (uBG 0) (pclOff p + 4) (w32 (n 2 * 2 ^ 30 + n 3))).wr (uBG 0) (pclOff p + 8) (w32 (n 6))).rightsSet p
    (nth args 7 0) (nth args 8 0) (nth args 9 0) (nth args 10 0))).validate p
      (n 4 * 2 ^ 30 + n 5 * 2 ^ 29 + (n 1 - 1) * 2 ^ 12 + n 0)

section
variable {s : State} {ini p : Nat} {args : List Word}

theorem callCreateParcel_makes (ok : parcelArgsOk args) (clean : (parcelRights args).any rightBad = false)
    (may : (parcelRights args).any (rightAdmits · ini) = true ∨ (arg args 2 ≠ 0 ∧ s.ownsQueue ini (arg args 3) = true))
    (free : s.foreignClaim ini (uBG 0) = false) (apart : s.overlaps (arg args 0) (arg args 1) = false)
    (alive : s.deadIn (arg args 0) (arg args 1) = false) (first : lowest 1024 (fun p => !s.pclValid p) = some p) :
    callCreateParcel ini args s =
      if arg args 11 = 0 then (s.parcelMade args p).ret OK [w32 p]
      else
        let (k, u) := (s.parcelMade args p).firmChan
        (u.setPclX p { u.pclX p with zeroing := some k }).firmSync.retPending 0x0200 p [w32 p] := by
  obtain ⟨least, fits, kind, queue, landing, credit, mark, zero, kindOne, kindTwo⟩ := ok
  unfold parcelRights at clean may
  simp only [callCreateParcel]
  rw [if_neg ?bad, if_neg ?denied, if_neg ?claimed, if_neg ?overlap, first]
  case bad =>
    simp only [clean, Bool.or_false, Bool.or_eq_true, Bool.and_eq_true, Bool.not_eq_true', Bool.and_eq_false_iff, decide_eq_true_eq,
      decide_eq_false_iff_not]
    omega
  case denied =>
    rcases may with rights | ⟨kind, client⟩
    · rw [rights]; simp
    · simp [kind, client]
  case claimed => rw [free]; decide
  case overlap => rw [apart]; decide
  simp only [alive]
  exact if_neg Bool.false_ne_true

end

/-! ### Zeroing a parcel -/

theorem SMap.mem_of_get_ne {α : Type} {d : Nat → α} {k : Nat} {l : List (Nat × α)} (n : SMap.get d k l ≠ d k) :
    (k, SMap.get d k l) ∈ l := by
  induction l with
  | nil => exact absurd rfl n
  | cons e t ih =>
    obtain ⟨j, v⟩ := e
    unfold SMap.get at n ⊢
    by_cases same : j = k
    · rw [if_pos same, same]
      exact List.mem_cons_self
    · rw [if_neg same] at n ⊢
      exact List.mem_cons_of_mem _ (ih n)

theorem SMap.get_filter {α : Type} (d : Nat → α) (k : Nat) (p : Nat × α → Bool) (l : List (Nat × α)) (keeps : ∀ v, p (k, v) = true) :
    SMap.get d k (l.filter p) = SMap.get d k l := by
  induction l with
  | nil => rfl
  | cons e t ih =>
    obtain ⟨j, v⟩ := e
    by_cases same : j = k
    · subst same
      rw [List.filter_cons_of_pos (keeps v), SMap.get, SMap.get, if_pos rfl, if_pos rfl]
    · by_cases kept : p (j, v) = true
      · rw [List.filter_cons_of_pos kept, SMap.get, SMap.get, if_neg same, if_neg same, ih]
      · rw [List.filter_cons_of_neg kept, SMap.get, if_neg same, ih]

theorem SMap.get_congr {α : Type} {d e : Nat → α} {k : Nat} (same : d k = e k) (l : List (Nat × α)) : SMap.get d k l = SMap.get e k l := by
  induction l with
  | nil => exact same
  | cons x t ih => rw [SMap.get, SMap.get, ih]

theorem SMap.get_default {α : Type} (d : Nat → α) (k : Nat) (l : List (Nat × α)) (out : ∀ e ∈ l, e.1 ≠ k) :
    SMap.get d k l = d k := by
  by_contra n
  exact out _ (SMap.mem_of_get_ne n) rfl

section
variable (s : State) (a n x : Nat)

/-- What an address without an entry reads as once a range has been zeroed. -/
theorem zeroMem_default (some_ : n ≠ 0) :
    memDef (s.zeroMem a n).voids x = if a ≤ x ∧ x < a + n then 0 else memDef s.voids x := by
  simp only [State.zeroMem, if_neg some_]
  by_cases inside : a ≤ x ∧ x < a + n
  · rw [if_pos inside]
    split
    case isTrue => simp [memDef, inside]
    case isFalse apart =>
      have none_ : ((s.voids.filter fun v => !(a ≤ v.1 && v.1 + v.2.1 ≤ a + n)).find? fun v => v.1 ≤ x && x < v.1 + v.2.1) = none := by
        rw [List.find?_eq_none]
        intro v m covers
        refine apart (List.any_eq_true.mpr ⟨v, m, ?_⟩)
        simp only [Bool.and_eq_true, decide_eq_true_eq] at covers ⊢
        omega
      rw [memDef, none_]
  · have out : x < a ∨ a + n ≤ x := by omega
    rw [if_neg inside]
    split
    · rw [memDef_cons _ _ _ _ _ out, memDef_filter _ _ _ _ out]
    · rw [memDef_filter _ _ _ _ out]

theorem zeroMem_byte (some_ : n ≠ 0) : (s.zeroMem a n).byte x = if a ≤ x ∧ x < a + n then 0 else s.byte x := by
  have mem : (s.zeroMem a n).mem = s.mem.filter fun e => e.1 < a || a + n ≤ e.1 := by simp only [State.zeroMem, if_neg some_]
  rw [State.byte, mem]
  by_cases inside : a ≤ x ∧ x < a + n
  · rw [SMap.get_default _ _ _ fun e m => ?gone, zeroMem_default s a n x some_, if_pos inside, if_pos inside]
    case gone =>
      have := (List.mem_filter.mp m).2
      simp only [Bool.or_eq_true, decide_eq_true_eq] at this
      omega
  · have outside : ∀ v : Byte, (decide (x < a) || decide (a + n ≤ x)) = true := fun _ => by
      simp only [Bool.or_eq_true, decide_eq_true_eq]
      omega
    rw [SMap.get_filter _ _ _ _ outside, if_neg inside, State.byte]
    exact SMap.get_congr (by rw [zeroMem_default s a n x some_, if_neg inside]) _

end

/-! ### Rows written whole (R235) -/

theorem rowX_setRowX (s : State) (k : Nat) (y : RowX) (j : Nat) : (s.setRowX k y).rowX j = if j = k then y else s.rowX j := by
  rw [State.rowX, State.setRowX, SMap.get_set]
  rfl

theorem poisoned_mem {s : State} {k : Nat} (bad : (s.rowX k).poisoned = true) : (k, s.rowX k) ∈ s.rows :=
  SMap.mem_of_get_ne fun none_ => by
    have init : s.rowX k = RowX.init := none_
    rw [init] at bad
    cases bad

/-- The rows of a list are no longer poisoned; no other row becomes so. -/
theorem unpoison_rowX {s : State} {k : Nat} {l : List (Nat × RowX)} (h : (s.rowX k).poisoned = true → ∃ e ∈ l, e.1 = k) :
    ((l.foldl (fun s e => s.setRowX e.1 { e.2 with poisoned := false }) s).rowX k).poisoned = false := by
  induction l generalizing s with
  | nil =>
    by_contra bad
    obtain ⟨e, m, -⟩ := h (Bool.not_eq_false _ ▸ bad)
    cases m
  | cons e t ih =>
    refine ih fun bad => ?_
    rw [rowX_setRowX] at bad
    split at bad
    case isTrue => cases bad
    case isFalse other =>
      obtain ⟨d, m, here⟩ := h bad
      rcases List.mem_cons.mp m with rfl | m
      · exact absurd here.symm other
      · exact ⟨d, m, here⟩

theorem cleanRows_banksOnly (s : State) (a n : Nat) : BanksOnly s (s.cleanRows a n) := .foldl (fun _ _ => .setRowX ..) _ s

theorem ButRegs.rows {s t : State} (h : ButRegs s t) : t.rows = s.rows := by
  have := congrArg State.rows h; exact this

theorem gatherGone_banksOnly (s : State) (a n : Nat) : BanksOnly s (s.gatherGone a n) := .foldl (fun _ _ => .setBank ..) _ s

theorem cleanRows_poisoned {s : State} {a n b row : Nat} (small : row < 8192) (serves : s.logical (s.phys b) = some b)
    (low : a ≤ rowAddr b row) (high : rowAddr b row < a + n) (alive : (s.rowX (s.phys b * 8192 + row)).dead = false) :
    ((s.cleanRows a n).rowX (s.phys b * 8192 + row)).poisoned = false := by
  have bank : (s.phys b * 8192 + row) / 8192 = s.phys b := by omega
  have within : (s.phys b * 8192 + row) % 8192 = row := by omega
  refine unpoison_rowX fun bad => ⟨_, List.mem_filter.mpr ⟨poisoned_mem bad, ?_⟩, rfl⟩
  simp [bad, alive, bank, within, serves, low, high]

theorem setBanks_rows {α : Type} (bank : α → Nat) (x : α → BankX) (l : List α) (s : State) :
    (l.foldl (fun s e => s.setBank (bank e) (x e)) s).rows = s.rows := by
  induction l generalizing s with
  | nil => rfl
  | cons e t ih => exact ih (s.setBank (bank e) (x e))

theorem gatherGone_rows (s : State) (a n : Nat) : (s.gatherGone a n).rows = s.rows :=
  setBanks_rows _ _ s.banks s

theorem markStale_butRegs (s : State) (a n : Nat) : ButRegs s (s.markStale a n) :=
  .foldl (fun _ _ => (setFlag_butRegs ..).trans (.wr ..)) _ s

theorem zeroMem_rows (s : State) (a n : Nat) : (s.zeroMem a n).rows = s.rows := by
  unfold State.zeroMem
  split
  · rfl
  · rfl

theorem zeroMem_bankMap (s : State) (a n : Nat) : (s.zeroMem a n).bankMap = s.bankMap := by
  unfold State.zeroMem
  split
  · rfl
  · rfl

theorem rowX_of_rows {s t : State} (h : t.rows = s.rows) (k : Nat) : t.rowX k = s.rowX k := by
  rw [State.rowX, h, State.rowX]

theorem phys_of_bankMap {s t : State} (h : t.bankMap = s.bankMap) (b : Nat) : t.phys b = s.phys b := by
  rw [State.phys, h, State.phys]

theorem logical_of_bankMap {s t : State} (h : t.bankMap = s.bankMap) (p : Nat) : t.logical p = s.logical p := by
  simp only [State.logical, phys_of_bankMap h]

/-- A range that has been written whole with zeros. -/
def State.blanked (s : State) (a n : Nat) : State :=
  ((((s.zeroMem a n).cleanRows a n).psumGone a n).gatherGone a n).markStale a n

theorem blanked_banksOnly (s : State) (a n : Nat) : BanksOnly (s.zeroMem a n) (s.blanked a n) :=
  (((cleanRows_banksOnly ..).trans (.psumGone ..)).trans (gatherGone_banksOnly ..)).trans (markStale_banksOnly ..)

theorem blanked_byte (s : State) {a n : Nat} (some_ : n ≠ 0) (x : Nat) :
    (s.blanked a n).byte x = if a ≤ x ∧ x < a + n then 0 else s.byte x :=
  ((blanked_banksOnly s a n).byte x).trans (zeroMem_byte s a n x some_)

theorem blanked_rows (s : State) (a n : Nat) : (s.blanked a n).rows = ((s.zeroMem a n).cleanRows a n).rows :=
  (markStale_butRegs ..).rows.trans (gatherGone_rows ..)

theorem blanked_poisoned {s : State} {a n b row : Nat} (small : row < 8192) (serves : s.logical (s.phys b) = some b)
    (low : a ≤ rowAddr b row) (high : rowAddr b row < a + n) (alive : (s.rowX (s.phys b * 8192 + row)).dead = false) :
    ((s.blanked a n).rowX (s.phys b * 8192 + row)).poisoned = false := by
  have map := zeroMem_bankMap s a n
  have rows := rowX_of_rows (zeroMem_rows s a n)
  have clean := cleanRows_poisoned (s := s.zeroMem a n) small (by rw [phys_of_bankMap map, logical_of_bankMap map, serves]) low high
    (by rw [phys_of_bankMap map, rows, alive])
  rwa [phys_of_bankMap map, ← rowX_of_rows (blanked_rows s a n)] at clean

section
variable {s : State} {p : Nat}

theorem pclSize_pos : s.pclSize p * 0x10000 ≠ 0 := by
  unfold State.pclSize
  omega

theorem exec_parcelZeroed (s : State) (hp : p < 1024) : exec (.parcelZeroed p) s = .next (s.parcelZeroed p) := by
  show Host.Outcome.next (s.parcelZeroed (p % 1024)) = _
  rw [Nat.mod_eq_of_lt hp]

theorem exec_parcelDeletionMade (s : State) (hp : p < 1024) : exec (.parcelDeletionMade p) s = .next (s.deleteParcel p) := by
  show Host.Outcome.next (s.deleteParcel (p % 1024)) = _
  rw [Nat.mod_eq_of_lt hp]

theorem parcelZeroed_made {k : Nat} (zeroing : (s.pclX p).zeroing = some k) : s.parcelZeroed p =
    (((((s.setPclX p { s.pclX p with zeroing := none }).blanked (s.pclBase p * 0x10000) (s.pclSize p * 0x10000)).countWide
      (uDC (14 + k / 4)) 0x108 (s.pclSize p * 0x10000)).count (uDC (14 + k / 4)) 0x114 1).firmSync.finish 0x0200 p OK) := by
  simp only [State.parcelZeroed, zeroing]
  rfl

theorem parcelZeroed_idle (idle : (s.pclX p).zeroing = none) : s.parcelZeroed p = s := by
  simp only [State.parcelZeroed, idle]

theorem deleteParcel_made (deleting : (s.pclX p).deleting = true) (may : s.mayInvalidate p = true) :
    s.deleteParcel p = s.invalidate p (s.pclLoc p) := by
  simp [State.deleteParcel, deleting, may]

end

/-! ### Calls that change a parcel (R243) -/

section
variable {s : State} {ini : Nat} {args : List Word} (small : arg args 0 < 1024)
include small

section
variable (valid : s.pclValid (arg args 0) = true)
include valid

theorem callDeleteParcel_denied (no : s.onParcel ini (arg args 0) = false) : callDeleteParcel ini args s = s.ret DENIED := by
  simp [callDeleteParcel, Nat.not_lt.mpr (Nat.le_of_lt_succ small), valid, no]

variable (mine : s.onParcel ini (arg args 0) = true)
include mine

theorem callDeleteParcel_claimed (claim : s.foreignClaim ini (uBG 0) = true) : callDeleteParcel ini args s = s.ret CLAIMED := by
  simp [callDeleteParcel, Nat.not_lt.mpr (Nat.le_of_lt_succ small), valid, mine, claim]

variable (free : s.foreignClaim ini (uBG 0) = false)
include free

theorem callDeleteParcel_pinned (pin : s.pclPinned (arg args 0) = true) : callDeleteParcel ini args s = s.ret PINNED := by
  simp [callDeleteParcel, Nat.not_lt.mpr (Nat.le_of_lt_succ small), valid, mine, free, pin]

theorem callDeleteParcel_goes (pin : s.pclPinned (arg args 0) = false) : callDeleteParcel ini args s =
    if s.callWaits 0x0201 (arg args 0) then s.ret UNIT_BUSY
    else if s.mayInvalidate (arg args 0) then (s.invalidate (arg args 0) (s.pclLoc (arg args 0))).ret OK
    else (s.setPclX (arg args 0) { s.pclX (arg args 0) with deleting := true }).retPending 0x0201 (arg args 0) := by
  simp [callDeleteParcel, Nat.not_lt.mpr (Nat.le_of_lt_succ small), valid, mine, free, pin]

end

variable (clean : ((List.range 4).map fun i => nth args (1 + i) 0).any rightBad = false)
include clean

theorem parcelRights_inRange :
    ¬(decide (1023 < arg args 0) || ((List.range 4).map fun i => nth args (1 + i) 0).any rightBad) = true := by
  rw [clean]
  simpa using Nat.le_of_lt_succ small

theorem callParcelRights_denied (no : s.onParcel ini (arg args 0) = false) : callParcelRights ini args s = s.ret DENIED := by
  simp only [callParcelRights]
  rw [if_neg (parcelRights_inRange small clean), no]
  rfl

theorem callParcelRights_goes (mine : s.onParcel ini (arg args 0) = true) (free : s.foreignClaim ini (uBG 0) = false) :
    callParcelRights ini args s = if s.pclPinned (arg args 0) then s.ret PINNED
      else (s.rightsSet (arg args 0) (nth args 1 0) (nth args 2 0) (nth args 3 0) (nth args 4 0)).ret OK := by
  simp only [callParcelRights]
  rw [if_neg (parcelRights_inRange small clean), mine, free]
  rfl

end

/-! ### Calls on bank groups (R236, R240, R243) -/

section
variable {s : State} {mask : Nat} (some_ : mask ≠ 0) (small : mask ≤ 0xFFF) (free : ∀ g ∈ setIndices 12 mask, s.Changeable (uBG g))
include some_ small free

theorem groupsFor_changeable : s.groupsFor mask false = (OK, setIndices 12 mask) := by
  have none_ : ((setIndices 12 mask).find? fun g => s.mayChange (uBG g) != OK) = none := by
    rw [List.find?_eq_none]
    intro g m
    rw [mayChange_of (free g m)]
    decide
  simp only [State.groupsFor, none_]
  rw [if_neg (by simp [some_, small])]

theorem setGroups_changeable {bad : Bool} (ok : bad = false) (f : State → Nat → State) :
    s.setGroups mask bad f = ((setIndices 12 mask).foldl f s).ret OK := by
  rw [State.setGroups, ok, groupsFor_changeable some_ small free]

end

section
variable {s : State} {args : List Word} (some_ : arg args 0 ≠ 0) (small : arg args 0 ≤ 0xFFF)
  (free : ∀ g ∈ setIndices 12 (arg args 0), s.Changeable (uBG g))
include some_ small free

theorem callWaitLimits_set (port : arg args 1 ≤ 31) (least : 1 ≤ arg args 2) (most : arg args 2 ≤ 255) : callWaitLimits args s =
    ((setIndices 12 (arg args 0)).foldl (fun t g => t.setFld (uBG g) (0x110 + 4 * (arg args 1 / 4)) (8 * (arg args 1 % 4) + 7)
      (8 * (arg args 1 % 4)) (arg args 2)) s).ret OK :=
  setGroups_changeable some_ small free (by simp only [Bool.or_eq_false_iff, decide_eq_false_iff_not]; omega) _

theorem callSluiceWatchdog_set (least : 2 ≤ arg args 1) (most : arg args 1 ≤ 64) : callSluiceWatchdog args s =
    ((setIndices 12 (arg args 0)).foldl (fun t g => t.wr (uBG g) 0x104 (w32 (arg args 1))) s).ret OK :=
  setGroups_changeable some_ small free (by simp only [Bool.or_eq_false_iff, decide_eq_false_iff_not]; omega) _

theorem callHazardDetector_set (en : arg args 1 ≤ 1) (least : 1 ≤ arg args 2) (most : arg args 2 ≤ 16) : callHazardDetector args s =
    ((setIndices 12 (arg args 0)).foldl (fun t g => t.wr (uBG g) 0x150 (w32 (arg args 1 * 2 ^ 31 + arg args 2))) s).ret OK :=
  setGroups_changeable some_ small free (by simp only [Bool.or_eq_false_iff, decide_eq_false_iff_not]; omega) _

end

section
variable {s : State} {args : List Word} (small : arg args 0 ≤ 511) (open_ : s.claimed (uBG (s.groupOf (arg args 0))) = false)
include small open_

theorem callSpareBank_busy (waits : s.callWaits 0x0208 (arg args 0) = true) : callSpareBank args s = s.ret UNIT_BUSY := by
  simp [callSpareBank, Nat.not_lt.mpr small, open_, waits]

theorem callSpareBank_goes (waits : s.callWaits 0x0208 (arg args 0) = false) : callSpareBank args s =
    if (s.startCopy (arg args 0)).2 then (s.startCopy (arg args 0)).1.retPending 0x0208 (arg args 0)
    else (s.startCopy (arg args 0)).1.ret NO_SPARE := by
  simp [callSpareBank, Nat.not_lt.mpr small, open_, waits]

end

section
variable {s : State} {b : Nat}

theorem startCopy_running (copies : s.copies.any (·.1 = b) = true) : s.startCopy b = (s, true) := by
  simp only [State.startCopy, copies, if_true]

theorem startCopy_none (copies : s.copies.any (·.1 = b) = false) (none_ : s.spareFor b = none) : s.startCopy b = (s, false) := by
  simp [State.startCopy, copies, none_]

theorem startCopy_starts (copies : s.copies.any (·.1 = b) = false) {p : Nat} (spare : s.spareFor b = some p) : s.startCopy b =
    ((({ s with copies := s.copies ++ [(b, p)] }).bankSync (p / 44)).unitEvent (uBG (s.groupOf b)), true) := by
  simp [State.startCopy, copies, spare]

end

theorem firmChan_spec {s u : State} {k : Nat} (chan : s.firmChan = (k, u)) : k < 8 ∧ u = s.firmChan.2 ∧ k = s.firmChan.1 := by
  rw [chan]
  have lt : s.firmChan.1 < 8 := Nat.mod_lt _ (by decide)
  rw [chan] at lt
  exact ⟨lt, rfl, rfl⟩

/-- Settles O27: an equation for each answer of the calls; a new parcel is the lowest free one; zeroing writes its range whole. -/
theorem parcelCalls : Obligations.ParcelCalls := by
  unfold Obligations.ParcelCalls
  intro ini args s n
  refine ⟨?_, ?_, fun p hp idle => ?_, fun p hp deleting may => ?_, ?_, fun some_ mask free => ⟨fun port least most => ?_,
    fun least most => ?_, fun en least most => ?_⟩, fun small open_ waits => ?_,
    fun small open_ waits => ⟨fun running => ?_, fun idle => ⟨fun none_ => ?_, fun b spare => ?_⟩⟩, ?_, fun outside => ?_⟩
  · intro p hp idle below rights ok clean may free apart alive a b
    have first : lowest 1024 (fun q => !s.pclValid q) = some p :=
      lowest_some hp (by rw [idle]; rfl) fun q lt => by rw [below q lt]; rfl
    have makes := callCreateParcel_makes ok clean may free apart alive first
    refine ⟨fun plain => congrArg Host.Outcome.next (makes.trans (if_pos plain)), fun zero k u chan => ?_⟩
    obtain ⟨small, rfl, rfl⟩ := firmChan_spec chan
    exact ⟨small, congrArg Host.Outcome.next (makes.trans (if_neg (by rw [show arg args 11 = 1 from zero]; decide)))⟩
  · intro p k hp zeroing a len v
    exact ⟨(exec_parcelZeroed s hp).trans (congrArg _ (parcelZeroed_made zeroing)), fun x => blanked_byte _ pclSize_pos x,
      fun b row _ small serves low high alive => blanked_poisoned small serves low high alive⟩
  · exact (exec_parcelZeroed s hp).trans (congrArg _ (parcelZeroed_idle idle))
  · exact (exec_parcelDeletionMade s hp).trans (congrArg _ (deleteParcel_made deleting may))
  · rintro p rfl small
    refine ⟨fun no => ⟨fun valid => ?_, fun clean => ?_⟩, fun mine claim valid => ?_, fun mine free => ⟨fun valid => ⟨fun pin => ?_,
      fun pin waits => ?_, fun pin waits may => ?_, fun pin waits may => ?_⟩, fun clean => ⟨fun pin => ?_, fun pin => ?_⟩⟩⟩
    · exact congrArg Host.Outcome.next (callDeleteParcel_denied small valid no)
    · exact congrArg Host.Outcome.next (callParcelRights_denied small clean no)
    · exact congrArg Host.Outcome.next (callDeleteParcel_claimed small valid mine claim)
    · exact congrArg Host.Outcome.next (callDeleteParcel_pinned small valid mine free pin)
    · exact congrArg Host.Outcome.next ((callDeleteParcel_goes small valid mine free pin).trans (if_pos waits))
    · exact congrArg Host.Outcome.next
        ((callDeleteParcel_goes small valid mine free pin).trans ((if_neg (ne_true_of_eq_false waits)).trans (if_pos may)))
    · exact congrArg Host.Outcome.next ((callDeleteParcel_goes small valid mine free pin).trans
        ((if_neg (ne_true_of_eq_false waits)).trans (if_neg (ne_true_of_eq_false may))))
    · exact congrArg Host.Outcome.next ((callParcelRights_goes small clean mine free).trans (if_pos pin))
    · exact congrArg Host.Outcome.next ((callParcelRights_goes small clean mine free).trans (if_neg (ne_true_of_eq_false pin)))
  · exact congrArg Host.Outcome.next (callWaitLimits_set some_ mask free port least most)
  · exact congrArg Host.Outcome.next (callSluiceWatchdog_set some_ mask free least most)
  · exact congrArg Host.Outcome.next (callHazardDetector_set some_ mask free en least most)
  · exact congrArg Host.Outcome.next (callSpareBank_busy small open_ waits)
  · have goes := callSpareBank_goes small open_ waits
    rw [startCopy_running running] at goes
    exact congrArg Host.Outcome.next goes
  · have goes := callSpareBank_goes small open_ waits
    rw [startCopy_none idle none_] at goes
    exact congrArg Host.Outcome.next goes
  · have goes := callSpareBank_goes small open_ waits
    rw [startCopy_starts idle spare] at goes
    exact congrArg Host.Outcome.next goes
  · intro inside a
    exact congrArg Host.Outcome.next (if_neg (Nat.not_le.mpr inside))
  · exact congrArg Host.Outcome.next (if_pos outside)

end Sys2Proof.Machine

namespace Sys2Proof.Machine

/-! ## Accesses that the sluices meet (R217–R220, R229, R231, R238) -/

theorem exec_polderAccess (ini a n : Nat) (write : Bool) (data : List Byte) (hs : Nat) (s : State) {port : Nat} (hp : port < 32) :
    exec (.polderAccess ini port a n write data hs) s =
      .next (s.polAccess ini port a n (if write then some ((data ++ List.replicate n 0).take n) else none) hs) := by
  show Host.Outcome.next (s.polAccess ini (port % 32) a n _ hs) = _
  rw [Nat.mod_eq_of_lt hp]

theorem ButRegs.held {s t : State} (h : ButRegs s t) : t.held = s.held := by
  have := congrArg State.held h; exact this

theorem BanksOnly.part {s t : State} (h : BanksOnly s t) : t.part = s.part := by rw [h]

/-- An access asks groups to wake, and is counted there (R238). -/
def State.wakesAsked (s : State) (gs : List Nat) (write : Bool) : State :=
  gs.foldl (fun s g =>
    (s.setFlag (uBG g) 0x100 30 true).countF (uBG g) 0x14C (if write then 31 else 15) (if write then 16 else 0) 1) s

theorem wakesAsked_butRegs (s : State) (gs : List Nat) (write : Bool) : ButRegs s (s.wakesAsked gs write) :=
  .foldl (fun _ _ => (setFlag_butRegs ..).trans (.wr ..)) gs s

theorem ite_some_isSome {α : Type} (b : Bool) (x : α) : (if b then some x else none).isSome = b := by
  cases b
  · rfl
  · rfl

section
variable {s : State} {ini : Nat}

theorem accessFails_agent (agent : iniCtx ini = none) (code : Nat) : s.accessFails ini code = { s with reply := ⟨true, []⟩ } := by
  simp only [State.accessFails, agent]

theorem accessFails_command {x : Ctx} {r : CtxRun} (command : iniCtx ini = some x) (runs : s.run x = some r) (code : Nat) :
    s.accessFails ini code = ((s.failRun x code r.pos).dcSync x).unitSync x := by
  simp only [State.accessFails, command, runs]

variable {port a n : Nat} {w : Option (List Byte)} {hs : Nat}

theorem polAccess_severed (severed : s.isSevered port ini = true) :
    s.polAccess ini port a n w hs = s.accessFails ini fPORT_SEVERED := if_pos severed

variable (joined : s.isSevered port ini = false) {write : Bool} (kind : w.isSome = write)
include joined kind

theorem polAccess_refused (bad : widthOk a n = false ∨ s.polderAllowed ini a n write = false) :
    s.polAccess ini port a n w hs = (s.polderDeny ini a write).accessFails ini fPARCEL_DENIED := by
  subst kind
  have refused : (!widthOk a n || !s.polderAllowed ini a n w.isSome) = true := by
    rcases bad with h | h
    · simp [h]
    · simp [h]
  exact (if_neg (ne_true_of_eq_false joined)).trans (if_pos refused)

variable (width : widthOk a n = true) (may : s.polderAllowed ini a n write = true)
include width may

theorem polAccess_allowed : s.polAccess ini port a n w hs =
    if (s.asleepIn a n).isEmpty && !s.barred (viaPort port ini) a n then s.accessDo ini port a n w hs
    else
      { s.wakesAsked (s.asleepIn a n) write with
        held := (s.wakesAsked (s.asleepIn a n) write).held ++ [⟨ini, port, a, n, w, some hs, false, none, [], none, []⟩] } := by
  subst kind
  have fine : ¬(!widthOk a n || !s.polderAllowed ini a n w.isSome) = true := by simp [width, may]
  exact (if_neg (ne_true_of_eq_false joined)).trans (if_neg fine)

theorem polAccess_goes (awake : s.asleepIn a n = []) (free : s.barred (viaPort port ini) a n = false) :
    s.polAccess ini port a n w hs = s.accessDo ini port a n w hs :=
  (polAccess_allowed joined kind width may).trans (if_pos (by simp [awake, free]))

theorem polAccess_holds (waits : s.asleepIn a n ≠ [] ∨ s.barred (viaPort port ini) a n = true) : s.polAccess ini port a n w hs =
    { s.wakesAsked (s.asleepIn a n) write with
      held := s.held ++ [⟨ini, port, a, n, w, some hs, false, none, [], none, []⟩] } := by
  have stops : ¬((s.asleepIn a n).isEmpty && !s.barred (viaPort port ini) a n) = true := by
    rcases waits with h | h
    · simp [h]
    · simp [h]
  rw [polAccess_allowed joined kind width may, if_neg stops, (wakesAsked_butRegs ..).held]

end

section
variable {s t : State} {ini port a n hs : Nat} {l : List Byte}

/-- What an access does to hazards and gather buffers before the banks serve it. -/
def State.arrived (s : State) (ini port a n : Nat) (write : Bool) (hs : Nat) : State :=
  ((rowsOf a n).foldl (fun s r => s.hazRow ini port r write hs) s).gather (port = 30) a n write

theorem accessDo_reads (ok : (s.arrived ini port a n false hs).polGet a n = (t, 0, l)) :
    s.accessDo ini port a n none hs = { t with reply := ⟨false, l⟩ } := by
  unfold State.arrived at ok
  simp [State.accessDo, ok]

theorem accessDo_writes (ok : (s.arrived ini port a n true hs).polPut a (l.take n) false = (t, 0)) :
    s.accessDo ini port a n (some l) hs = { t with reply := ⟨false, []⟩ } := by
  unfold State.arrived at ok
  simp [State.accessDo, ok]

end

/-! ## Sleep and wake of bank groups (R230, R238) -/

/-- The sluices of the group's banks in a list that are in one state pass to another. -/
def State.sluicesOf (s : State) (g : Nat) (a b : Sluice) (l : List Nat) : State :=
  l.foldl (fun s k => if s.groupOf k = g && (s.bank k).st = a then s.setBank k { s.bank k with st := b } else s) s

theorem sluices_eq (s : State) (g : Nat) (a b : Sluice) : s.sluices g a b = s.sluicesOf g a b (span 0 512) := rfl

theorem sluicesOf_bank {g c : Nat} {a b : Sluice} (other : b ≠ a) {l : List Nat} {s : State} (here : s.groupOf c = g)
    (reached : c ∈ l ∨ (s.bank c).st ≠ a) : ((s.sluicesOf g a b l).bank c).st ≠ a := by
  induction l generalizing s with
  | nil => exact reached.resolve_left List.not_mem_nil
  | cons k t ih =>
    rw [State.sluicesOf, List.foldl_cons]
    split
    case isTrue =>
      refine ih here ?_
      rw [bank_setBank]
      by_cases same : c = k
      · exact .inr (by rw [if_pos same]; exact other)
      · rw [if_neg same]
        exact reached.imp_left fun m => (List.mem_cons.mp m).resolve_left same
    case isFalse apart =>
      refine ih here ?_
      by_cases same : c = k
      · subst same
        exact .inr (by simpa [here] using apart)
      · exact reached.imp_left fun m => (List.mem_cons.mp m).resolve_left same

theorem sluicesOf_regs (s : State) (g : Nat) (a b : Sluice) (l : List Nat) : (s.sluicesOf g a b l).regs = s.regs := by
  induction l generalizing s with
  | nil => rfl
  | cons k t ih =>
    rw [State.sluicesOf, List.foldl_cons]
    refine (ih _).trans ?_
    split
    · rfl
    · rfl

theorem bit_setBits_top (w : Word) : bit (setBits w 31 30 0) 31 = false := by
  have cleared := bits_setBits_same w 31 30 0 (by decide) (by decide)
  unfold bits at cleared
  unfold bit
  rw [decide_eq_false_iff_not]
  omega

section
variable {s : State} {g : Nat}

theorem wakeGroup_flag (s : State) (g : Nat) : (s.wakeGroup g).flag (uBG g) 0x100 31 = false := by
  rw [State.flag, State.wakeGroup, sluices_eq, rd_of_regs (sluicesOf_regs ..) (sluices_banksOnly ..).part, State.setFld, rd_wr_same]
  exact bit_setBits_top _

theorem wakeGroup_bank {c : Nat} (lt : c < 512) (here : s.groupOf c = g) : ((s.wakeGroup g).bank c).st ≠ .asleep := by
  have same : (s.setFld (uBG g) 0x100 31 30 0).groupOf c = s.groupOf c := congrArg (· / 44) ((BanksOnly.wr s _ _ _).phys c)
  rw [State.wakeGroup, sluices_eq]
  exact sluicesOf_bank (by decide) (same.trans here) (.inl (by simp [span, lt]))

theorem exec_bgLateWake (s : State) {g : Nat} (hg : g < 12) : exec (.bgLateWake g) s = .next (s.lateWake g) := by
  show Host.Outcome.next (s.lateWake (g % 12)) = _
  rw [Nat.mod_eq_of_lt hg]

theorem exec_bgIdleRetention (s : State) {g : Nat} (hg : g < 12) : exec (.bgIdleRetention g) s = .next (s.idleRetention g) := by
  show Host.Outcome.next (s.idleRetention (g % 12)) = _
  rw [Nat.mod_eq_of_lt hg]

theorem exec_maintWaitLimit (s : State) {g : Nat} (hg : g < 12) : exec (.maintWaitLimit g) s = .next (s.maintLimit g) := by
  show Host.Outcome.next (s.maintLimit (g % 12)) = _
  rw [Nat.mod_eq_of_lt hg]

theorem lateWake_off (off : s.domainOff (uBG g) = true) : s.lateWake g = s := if_pos off

/-- The state of a group whose wake ends. -/
def State.woken (s : State) (g : Nat) : State := if s.flag (uBG g) 0x100 30 then (s.wakeGroup g).unitEvent (uBG g) else s

theorem heldGo_all (t : State) : (t.heldGo fun _ => true) =
    (t.held.filter fun h => h.at_.isSome && (t.asleepIn h.addr h.len).isEmpty && !t.barred (viaPort h.port h.ini) h.addr h.len).foldl
      (fun u h => u.accessDo h.ini h.port h.addr h.len h.write (h.at_.getD 0))
      { t with held := t.held.filter fun h =>
          !(h.at_.isSome && (t.asleepIn h.addr h.len).isEmpty && !t.barred (viaPort h.port h.ini) h.addr h.len) } := by
  simp only [State.heldGo, State.mayGo, Bool.and_true, Bool.and_assoc]

theorem lateWake_on (on : s.domainOff (uBG g) = false) : s.lateWake g = (s.woken g).heldGo fun _ => true :=
  if_neg (ne_true_of_eq_false on)

theorem idleRetention_delayed (delay : s.pwrState ≠ 1 ∨ s.flag (uBG g) 0x100 31 = true ∨ s.lockIn g = true) :
    s.idleRetention g = s := by
  refine if_pos ?_
  rcases delay with h | h | h
  · simp [h]
  · simp [h]
  · simp [h]

theorem idleRetention_trim (trim : s.pwrState = 1) (awake : s.flag (uBG g) 0x100 31 = false) (open_ : s.lockIn g = false) :
    s.idleRetention g = if s.reservs.any (·.active) then s.pwrRefuse 1 1 (uBG g) else s.retain g :=
  if_neg (by simp [trim, awake, open_])

theorem maintLimit_due (busy : s.rtBusy = true) (first : g ∉ s.maintDue) : s.maintLimit g = { s with maintDue := s.maintDue ++ [g] } :=
  if_pos (by simp [busy, first])

theorem maintLimit_rests (rests : s.rtBusy = false ∨ g ∈ s.maintDue) : s.maintLimit g = s := by
  refine if_neg ?_
  rcases rests with h | h
  · simp [h]
  · simp [h]

end

/-! ## Break points (R224–R227, R230) -/

theorem exec_breakPoint (reqs : List (Nat × Nat)) (s : State) {b : Nat} (hb : b < 512) :
    exec (.breakPoint b reqs) s = .next (s.breakPoint b (reqs.map fun r => (r.1 % 32, r.2))) := by
  show Host.Outcome.next (s.breakPoint (b % 512) _) = _
  rw [Nat.mod_eq_of_lt hb]

theorem exec_gatherIdleFlush (s : State) {b r : Nat} (hb : b < 512) (hr : r < 8192) :
    exec (.gatherIdleFlush b r) s = .next (s.setBank b { s.bank b with gather := (s.bank b).gather.filter (·.1 ≠ r) }) := by
  show Host.Outcome.next (s.gatherFlush (b % 512) (r % 8192)) = _
  rw [Nat.mod_eq_of_lt hb, Nat.mod_eq_of_lt hr, State.gatherFlush]
  have same : (fun e : Nat × Nat => e.1 != r) = fun e => decide (e.1 ≠ r) := by
    funext e
    rw [decide_not]
    rfl
  rw [same]

section
variable {s t : State} {b : Nat} {reqs : List (Nat × Nat)}

theorem breakPoint_none (none_ : (s.bank b).st = .reserved ∨ (s.bank b).st = .locked ∨ (s.bank b).st = .asleep) :
    s.breakPoint b reqs = s := by
  rcases none_ with h | h | h
  · simp only [State.breakPoint, h]
  · simp only [State.breakPoint, h]
  · simp only [State.breakPoint, h]

/-- What a pass of port p's initiator i at bank b of group g completes. -/
def State.portServed (t : State) (b g p i : Nat) : State :=
  (if p = 31 then t.maintSent g else t).heldGo fun h => h.port = p && h.ini = i && (rowsOf h.addr h.len).any fun r => bankOf r = b

/-- What the sluice's choice at bank b completes. -/
def State.choiceServed (t : State) (b : Nat) : State :=
  match (t.bank b).st, (t.bank b).holder with
  | .pass, some (p, i) => t.portServed b (t.groupOf b) p i
  | _, _ => t

theorem breakPoint_runs (free : (s.bank b).st ≠ .reserved) (open_ : (s.bank b).st ≠ .locked) (awake : (s.bank b).st ≠ .asleep) :
    s.breakPoint b reqs = ((s.sluiceChoice b (s.heads (s.waiting b reqs))).choiceServed b).retryAll := by
  cases st : (s.bank b).st with
  | reserved => exact absurd st free
  | locked => exact absurd st open_
  | asleep => exact absurd st awake
  | idle => simp only [State.breakPoint, st]; rfl
  | pass => simp only [State.breakPoint, st]; rfl

theorem choiceServed_pass {p i : Nat} (pass : (t.bank b).st = .pass) (holder : (t.bank b).holder = some (p, i)) :
    t.choiceServed b = t.portServed b (t.groupOf b) p i := by
  simp only [State.choiceServed, pass, holder]

theorem choiceServed_stays (other : (t.bank b).st ≠ .pass) : t.choiceServed b = t := by
  cases st : (t.bank b).st with
  | pass => exact absurd st other
  | idle | reserved | locked | asleep => simp only [State.choiceServed, st]

end

theorem count_groupOf (s : State) (u off k b : Nat) : (s.count u off k).groupOf b = s.groupOf b :=
  congrArg (· / 44) ((BanksOnly.count s u off k).phys b)

theorem byRank_nil (last : Nat) : byRank last [] = none := by simp [byRank]

section
variable (s : State) (b : Nat) (x : BankX) (ports : List Nat) (p i : Nat) (st : Sluice)

theorem grant_st : ((s.grant b x ports p i st).bank b).st = st := by
  rw [State.grant, bank_setBank, if_pos rfl]

theorem lockGrant_st (l : List LockX) : (({ s.grant b x ports p i st with locks := l } : State).bank b).st = st :=
  grant_st s b x ports p i st

theorem grant_holder : ((s.grant b x ports p i st).bank b).holder = some (p, i) := by
  rw [State.grant, bank_setBank, if_pos rfl]

/-- A pass that the sluice grants serves its port. -/
theorem grant_served : (s.grant b x ports p i .pass).choiceServed b = (s.grant b x ports p i .pass).portServed b (s.groupOf b) p i :=
  choiceServed_pass (grant_st ..) (grant_holder ..)

end

section
variable {s : State} {b : Nat} {hd : List (Nat × Nat × Nat)} {p k i : Nat}

theorem sluiceChoice_forced (head : (s.forcedNow b (s.bank b) (hd.map (·.1))).head? = some p) (found : hd.find? (·.1 = p) = some (p, k, i)) :
    s.sluiceChoice b hd = (s.count (uBG (s.groupOf b)) 0x130 1).grant b (s.bank b) (hd.map (·.1)) p i .pass := by
  simp only [State.sluiceChoice, head, Option.bind_some, found]

theorem sluiceChoice_forced_served (head : (s.forcedNow b (s.bank b) (hd.map (·.1))).head? = some p)
    (found : hd.find? (·.1 = p) = some (p, k, i)) : (s.sluiceChoice b hd).choiceServed b =
      ((s.count (uBG (s.groupOf b)) 0x130 1).grant b (s.bank b) (hd.map (·.1)) p i .pass).portServed b (s.groupOf b) p i := by
  rw [sluiceChoice_forced head found, grant_served, count_groupOf]

variable (unforced : s.forcedNow b (s.bank b) (hd.map (·.1)) = [])
include unforced

theorem sluiceChoice_lock {l : LockX} (lock : s.lockHere b = some l) : s.sluiceChoice b hd =
    { s.grant b (s.bank b) (hd.map (·.1)) l.port l.ini .reserved with
      locks := updFirst (fun k => !k.isOpen) (fun k => { k with reserved := k.reserved + 1 }) s.locks } := by
  simp only [State.sluiceChoice, unforced, List.head?_nil, Option.bind_none, lock]
  rfl

variable (noLock : s.lockHere b = none)
include noLock

theorem sluiceChoice_rank (rank : byRank (s.bank b).last hd = some (p, k, i)) :
    s.sluiceChoice b hd = s.grant b (s.bank b) (hd.map (·.1)) p i .pass := by
  simp only [State.sluiceChoice, unforced, List.head?_nil, Option.bind_none, noLock, rank]

theorem sluiceChoice_idle (nobody : hd = []) :
    s.sluiceChoice b hd = s.setBank b { s.bank b with waits := [], forced := [], st := .idle, holder := none } := by
  subst nobody
  simp only [State.sluiceChoice, unforced, List.head?_nil, Option.bind_none, noLock, byRank_nil]

end

/-! ## The sluice watchdog (R229) -/

theorem exec_sluiceWatchdogBite (s : State) {b : Nat} (hb : b < 512) : exec (.sluiceWatchdogBite b) s = .next (s.sluiceBite b) := by
  show Host.Outcome.next (s.sluiceBite (b % 512)) = _
  rw [Nat.mod_eq_of_lt hb]

/-- The state in which the watchdog's bite has freed the bank that the initiator held through the port. -/
def State.bitten (s : State) (b port ini : Nat) : State :=
  let u := uBG (s.groupOf b)
  let t := (s.count u 0x108 1).wr u 0x10C (w32 (2 ^ 31 + port % 32 * 2 ^ 25 + ini % 2 ^ 10 * 2 ^ 15 + s.phys b % 44 * 2 ^ 9))
  ((if 14 ≤ port ∧ port < 30 then t.countF (uDC (port - 14)) 0x118 15 0 1 else t).freeBanks [b]).postedNow

section
variable {s : State} {b : Nat}

theorem sluiceBite_idle (idle : (s.bank b).holder = none) : s.sluiceBite b = s := by
  simp only [State.sluiceBite, idle]

variable {port ini : Nat} (holder : (s.bank b).holder = some (port, ini))
include holder

theorem sluiceBite_agent (agent : iniCtx ini = none) : s.sluiceBite b = { s.bitten b port ini with reply := ⟨true, []⟩ } := by
  simp only [State.sluiceBite, holder, agent, accessFails_agent agent, State.bitten, Bool.and_eq_true, decide_eq_true_eq]

theorem sluiceBite_command {x : Ctx} {r : CtxRun} (command : iniCtx ini = some x) (runs : (s.bitten b port ini).run x = some r)
    (still : ((s.bitten b port ini).dropLocks x).run x = some r) : s.sluiceBite b =
      { (((((s.bitten b port ini).dropLocks x).failRun x fPORT_SEVERED r.pos).dcSync x).unitSync x) with
        severed := (port, ini) :: (s.bitten b port ini).severed } := by
  rw [← accessFails_command command still]
  unfold State.bitten at runs ⊢
  simp only [State.sluiceBite, holder, command, Bool.and_eq_true, decide_eq_true_eq, runs]

end

/-! ## Scrubbing and sparing (R235–R238) -/

theorem exec_scrubRow (s : State) {b row : Nat} (hb : b < 512) (hr : row < 8192) (o : Nat) :
    exec (.scrubRow b row o) s = .next (s.scrubRow b row o) := by
  show Host.Outcome.next (s.scrubRow (b % 512) (row % 8192) o) = _
  rw [Nat.mod_eq_of_lt hb, Nat.mod_eq_of_lt hr]

theorem exec_bankCopyDone (s : State) {b : Nat} (hb : b < 512) : exec (.bankCopyDone b) s = .next (s.copyDone b) := by
  show Host.Outcome.next (s.copyDone (b % 512)) = _
  rw [Nat.mod_eq_of_lt hb]

theorem scrubRow_holds {s : State} {b : Nat} (holds : s.maintMay (s.groupOf b) = false) (row o : Nat) : s.scrubRow b row o = s :=
  if_pos (by rw [holds]; rfl)

theorem maintMay_goes {s : State} {g : Nat} (may : s.maintMay g = true) : ¬(!s.maintMay g) = true := by rw [may]; decide

section
variable {s : State} {b : Nat} (may : s.maintMay (s.groupOf b) = true) (row : Nat)
include may

theorem scrubRow_clean : s.scrubRow b row 0 = s.maintSent (s.groupOf b) := by
  simp only [State.scrubRow, if_neg (maintMay_goes may)]

theorem scrubRow_corrected : s.scrubRow b row 1 =
    ((s.maintSent (s.groupOf b)).countF (uBG (s.groupOf b)) 0x134 15 0 1).countCE (uBG (s.groupOf b)) 1 := by
  simp only [State.scrubRow, if_neg (maintMay_goes may)]

theorem scrubRow_retires : s.scrubRow b row 2 =
    (((s.maintSent (s.groupOf b)).countF (uBG (s.groupOf b)) 0x134 15 0 1).countCE (uBG (s.groupOf b)) 1).retireRow b row := by
  simp only [State.scrubRow, if_neg (maintMay_goes may)]

/-- The row with poison set. -/
def State.poisoned (s : State) (b row : Nat) : State :=
  s.setRowX (s.phys b * 8192 + row) { s.rowX (s.phys b * 8192 + row) with poisoned := true }

theorem scrubRow_poisons : s.scrubRow b row 3 =
    (((s.maintSent (s.groupOf b)).poisoned b row).countF (uBG (s.groupOf b)) 0x138 15 0 1).recordFault fPOLDER_UE
      (uBG (s.groupOf b)) 0x4B noQueue 0 (rowAddr b row) 0 0 oNone := by
  simp only [State.scrubRow, if_neg (maintMay_goes may), State.poisoned]

theorem scrubRow_inherits : s.scrubRow b row 4 = ((s.maintSent (s.groupOf b)).poisoned b row).retireRow b row := by
  simp only [State.scrubRow, if_neg (maintMay_goes may), State.poisoned]

end

theorem bankSync_butRegs (s : State) (g : Nat) : ButRegs s (s.bankSync g) := (ButRegs.wr ..).trans (.wr ..)

theorem rowsSync_butRegs (s : State) (g : Nat) : ButRegs s (s.rowsSync g) := .wr ..

theorem maintSent_eq (s : State) (g : Nat) : ∃ regs due, s.maintSent g = { s with regs := regs, maintDue := due } := by
  unfold State.maintSent
  split
  · obtain ⟨regs, counted⟩ := (ButRegs.wr s (uBG g) 0x160 (countBits (s.rd (uBG g) 0x160) 31 16 1)).exists_regs
    rw [State.countF, counted]
    exact ⟨regs, _, rfl⟩
  · exact ⟨s.regs, s.maintDue, rfl⟩

/-- The copies of poisoned rows are poisoned. -/
def State.poisonCopied (s : State) (old p : Nat) : State :=
  (s.rows.filter fun e => e.1 / 8192 = old && e.2.poisoned).foldl
    (fun s e => s.setRowX (p * 8192 + e.1 % 8192) ⟨false, true, false⟩) s

theorem poisonCopied_eq (s : State) (old p : Nat) : ∃ rows, s.poisonCopied old p = { s with rows := rows } := by
  unfold State.poisonCopied
  generalize s.rows.filter (fun e => e.1 / 8192 = old && e.2.poisoned) = l
  suffices ∀ t : State, (∃ rows, t = { s with rows := rows }) →
      ∃ rows, l.foldl (fun s e => s.setRowX (p * 8192 + e.1 % 8192) ⟨false, true, false⟩) t = { s with rows := rows } from
    this s ⟨s.rows, rfl⟩
  induction l with
  | nil => exact fun t h => h
  | cons e l ih =>
    rintro t ⟨rows, rfl⟩
    exact ih _ ⟨_, rfl⟩

/-- Logical bank b lies on physical bank p, and its old bank is Out (R236). -/
def State.rebound (s : State) (b p old : Nat) : State := { s with
  rows := s.rows.filter fun e => e.1 / 8192 != old
  bankMap := SMap.set physReset b p s.bankMap
  copies := s.copies.filter (·.1 != b)
  banksOut := s.banksOut ++ [old] }

/-- The registers of the groups of two physical banks follow (R240). -/
def State.groupsSynced (s : State) (old p : Nat) : State :=
  (((s.bankSync (old / 44)).bankSync (p / 44)).rowsSync (old / 44)).rowsSync (p / 44)

theorem groupsSynced_butRegs (s : State) (old p : Nat) : ButRegs s (s.groupsSynced old p) :=
  (((bankSync_butRegs ..).trans (bankSync_butRegs ..)).trans (rowsSync_butRegs ..)).trans (rowsSync_butRegs ..)

/-- The copy of logical bank b to physical bank p is made. -/
def State.spared (s : State) (b p : Nat) : State :=
  ((s.poisonCopied (s.phys b) p).rebound b p (s.phys b)).groupsSynced (s.phys b) p

theorem spared_eq (s : State) (b p : Nat) : ∃ regs rows, s.spared b p = { s with
    regs := regs, rows := rows, bankMap := SMap.set physReset b p s.bankMap
    copies := s.copies.filter (·.1 != b), banksOut := s.banksOut ++ [s.phys b] } := by
  obtain ⟨rows, copied⟩ := poisonCopied_eq s (s.phys b) p
  obtain ⟨regs, synced⟩ := (groupsSynced_butRegs (({ s with rows := rows } : State).rebound b p (s.phys b)) (s.phys b) p).exists_regs
  unfold State.spared
  rw [copied, synced]
  exact ⟨regs, _, rfl⟩

section
variable {s : State} {b p : Nat} (copy : s.copies.find? (·.1 = b) = some (b, p)) (may : s.maintMay (s.groupOf b) = true)
include copy may

theorem copyDone_spares : s.copyDone b =
    let old := (s.maintSent (s.groupOf b)).phys b
    let t := (((s.maintSent (s.groupOf b)).spared b p).recordFault fBANK_SPARED (uBG (old / 44)) 0x4B noQueue 0 (b * 2 ^ 10) 0 0
      oNone).unitEvent (uBG (old / 44))
    (if p / 44 = old / 44 then t else t.unitEvent (uBG (p / 44))).finish 0x0208 b OK := by
  simp only [State.copyDone, copy]
  exact if_neg (maintMay_goes may)

end

/-- Settles O31: one equation for each way an access, a wake, a break point, a bite, a scrub and a copy end. -/
theorem polderEvents : Obligations.PolderEvents := by
  unfold Obligations.PolderEvents
  refine ⟨?_, ?_, ?_, ?_, ?_⟩
  · intro ini port a n write data hs s hp l w does
    have runs : ∀ t, s.polAccess ini port a n w hs = t → does t := fun t e => e ▸ exec_polderAccess ini a n write data hs s hp
    have kind : w.isSome = write := ite_some_isSome write l
    refine ⟨fun severed agent => ?_, fun x r command run severed => ?_, fun joined bad agent => ?_,
      fun joined width may => ⟨fun waits => ?_, ?_⟩⟩
    · exact runs _ ((polAccess_severed severed).trans (accessFails_agent agent _))
    · exact runs _ ((polAccess_severed severed).trans (accessFails_command command run _))
    · exact runs _ ((polAccess_refused joined kind bad).trans (accessFails_agent agent _))
    · exact runs _ (polAccess_holds joined kind width may waits)
    · intro awake free u
      refine ⟨fun t b read ok => ?_, fun t wrote ok => ?_⟩
      · subst read
        exact runs _ ((polAccess_goes joined kind width may awake free).trans (accessDo_reads ok))
      · subst wrote
        have whole : l.take n = l := List.take_take.trans (by rw [Nat.min_self])
        exact runs _ ((polAccess_goes joined kind width may awake free).trans (accessDo_writes (whole.symm ▸ ok)))
  · intro g s hg
    refine ⟨⟨wakeGroup_flag s g, fun b lt here => wakeGroup_bank lt here⟩, fun off => ?_, ?_,
      fun trim awake open_ => ⟨fun active => ?_, fun idle => ?_⟩, fun delay => ?_, fun busy first => ?_, fun rests => ?_⟩
    · exact (exec_bgLateWake s hg).trans (congrArg _ (lateWake_off off))
    · intro on t go
      exact (exec_bgLateWake s hg).trans (congrArg _ ((lateWake_on on).trans (heldGo_all t)))
    · exact (exec_bgIdleRetention s hg).trans (congrArg _ ((idleRetention_trim trim awake open_).trans (if_pos active)))
    · exact (exec_bgIdleRetention s hg).trans
        (congrArg _ ((idleRetention_trim trim awake open_).trans (if_neg (ne_true_of_eq_false idle))))
    · exact (exec_bgIdleRetention s hg).trans (congrArg _ (idleRetention_delayed delay))
    · exact (exec_maintWaitLimit s hg).trans (congrArg _ (maintLimit_due busy first))
    · exact (exec_maintWaitLimit s hg).trans (congrArg _ (maintLimit_rests rests))
  · intro b s hb x
    refine ⟨fun r hr => exec_gatherIdleFlush s hb hr, fun reqs none_ => ?_, fun reqs free open_ awake => ?_, fun idle => ?_,
      fun port ini holder => ?_⟩
    · exact (exec_breakPoint reqs s hb).trans (congrArg _ (breakPoint_none none_))
    · intro hd ports served does
      have runs : ∀ t, (s.sluiceChoice b hd).choiceServed b = t → does t.retryAll := fun t e =>
        (exec_breakPoint reqs s hb).trans (congrArg _ ((breakPoint_runs free open_ awake).trans (congrArg State.retryAll e)))
      refine ⟨fun p k i head found => ?_, fun unforced => ⟨fun l lock => ?_, fun p k i noLock rank => ?_, fun noLock nobody => ?_⟩⟩
      · exact runs _ (sluiceChoice_forced_served head found)
      · refine runs _ ((congrArg (State.choiceServed · b) (sluiceChoice_lock unforced lock)).trans (choiceServed_stays ?_))
        rw [lockGrant_st]
        decide
      · exact runs _ ((congrArg (State.choiceServed · b) (sluiceChoice_rank unforced noLock rank)).trans (grant_served ..))
      · refine runs _ ((congrArg (State.choiceServed · b) (sluiceChoice_idle unforced noLock nobody)).trans (choiceServed_stays ?_))
        rw [bank_setBank, if_pos rfl]
        exact Sluice.noConfusion
    · exact (exec_sluiceWatchdogBite s hb).trans (congrArg _ (sluiceBite_idle idle))
    · intro u t v
      refine ⟨fun agent => ?_, fun y r command run still => ?_⟩
      · exact (exec_sluiceWatchdogBite s hb).trans (congrArg _ (sluiceBite_agent holder agent))
      · exact (exec_sluiceWatchdogBite s hb).trans (congrArg _ (sluiceBite_command holder command run still))
  · intro b row s hb hr u
    refine ⟨fun holds o => (exec_scrubRow s hb hr o).trans (congrArg _ (scrubRow_holds holds row o)), ?_⟩
    intro may t bad
    exact ⟨(exec_scrubRow s hb hr 0).trans (congrArg _ (scrubRow_clean may row)),
      (exec_scrubRow s hb hr 1).trans (congrArg _ (scrubRow_corrected may row)),
      (exec_scrubRow s hb hr 2).trans (congrArg _ (scrubRow_retires may row)),
      (exec_scrubRow s hb hr 3).trans (congrArg _ (scrubRow_poisons may row)),
      (exec_scrubRow s hb hr 4).trans (congrArg _ (scrubRow_inherits may row))⟩
  · intro b p s hb copy may
    obtain ⟨regs, due, sent⟩ := maintSent_eq s (s.groupOf b)
    obtain ⟨regs', rows, spared⟩ := spared_eq (s.maintSent (s.groupOf b)) b p
    have done := copyDone_spares copy may
    rw [spared, sent] at done
    refine ⟨_, (exec_bankCopyDone s hb).trans (congrArg _ done), ?_, fun c other => ?_, rfl, ⟨fun _ => rfl, fun _ => rfl⟩, rfl, rfl⟩
    · exact SMap.get_set_same ..
    · exact SMap.get_set_ne _ _ _ _ _ other

end Sys2Proof.Machine

namespace Sys2Proof.Machine

/-! ## A queue that watches a mark from the table (R249) -/

/-- Client 1 is valid. Queue 0 is its queue, enabled and not in the cache: its descriptor, sound, stands in the table in LPDDR4X and
names mark 5 as the mark that it watches. -/
def watcherInTable : State :=
  (((State.reset.wr (wClient 1) 4 0x80000100).wr uSched 0x208 1).wrWs 0x100000000
    [0x4000000, 1, 0x12104, 0, 0x4001000, 0x40001, 0, 0, 0x100000, 0, 1, 0x10005])

/-- Nothing in the cache, on the list of watches or among the taps watches mark 5. -/
theorem watcherInTable_unwatched : 5 ∉ watcherInTable.wdTaps ∧ watcherInTable.qcache = [] ∧ watcherInTable.watches = [] := by
  decide +kernel

theorem watcherInTable_misses : watcherInTable.rd uSched 0x218 = 0 ∧ (watcherInTable.signalMark 5 1).rd uSched 0x218 = 1 := by
  decide +kernel

/-- Refutes O11: the hypotheses leave out the queues that watch the mark and are not cached (R249). A signal brings the descriptor of
such a queue in, and the miss is counted in a register of SCHED. -/
theorem not_markValues : ¬Obligations.MarkValues := by
  unfold Obligations.MarkValues
  intro claim
  obtain ⟨untapped, uncached, unlisted⟩ := watcherInTable_unwatched
  obtain ⟨before, after⟩ := watcherInTable_misses
  obtain ⟨signal, -⟩ := claim watcherInTable 5 1 (by decide) untapped (by simp [uncached])
  obtain ⟨-, -, -, registers⟩ := signal (by simp [unlisted])
  have same := registers uSched 0x218 (by decide) (by decide)
  rw [before, after] at same
  exact absurd same (by decide)

end Sys2Proof.Machine

namespace Sys2Proof.Machine

/-! ## The choice of a command (R258) -/

/-- A ready queue whose next entry may go to context x. -/
def State.MayGo (s : State) (x : Ctx) (z : QSlot) : Prop :=
  z ∈ s.qcache ∧ s.isReady z = true ∧ ∃ e i, s.nextEntry z = some (e, i) ∧ s.fits z e x = true

/-- The next entry of a queue may go to context x. -/
def State.entryFits (s : State) (x : Ctx) (z : QSlot) : Bool :=
  match s.nextEntry z with
  | some (e, _) => s.fits z e x
  | none => false

/-- The queues that the choice for context x is among. -/
def State.candidates (s : State) (x : Ctx) : List QSlot := s.readySlots.filter (s.entryFits x)

/-- Client a goes ahead of client b: the lower virtual time, the lower number among equal ones. -/
def State.ahead (s : State) (a b : Nat) : Bool :=
  (s.clientX a).vt < (s.clientX b).vt || ((s.clientX a).vt = (s.clientX b).vt && a ≤ b)

/-- The clients of the candidates, the one to serve first. -/
def State.clientOrder (s : State) (x : Ctx) : List Nat :=
  ((s.candidates x).map fun y => qClient y.words).eraseDups.mergeSort s.ahead

theorem choose_eq (s : State) (x : Ctx) : s.choose x = match s.clientOrder x with
    | [] => none
    | c :: _ => afterLast (s.clientX c).lastQueue ((s.candidates x).filter fun y => qClient y.words = c) := rfl

theorem entryFits_iff {s : State} {x : Ctx} {z : QSlot} :
    s.entryFits x z = true ↔ ∃ e i, s.nextEntry z = some (e, i) ∧ s.fits z e x = true := by
  unfold State.entryFits
  cases s.nextEntry z with
  | none => simp
  | some p =>
    obtain ⟨e, i⟩ := p
    simp

theorem mem_candidates {s : State} {x : Ctx} {z : QSlot} : z ∈ s.candidates x ↔ s.MayGo x z := by
  rw [State.candidates, List.mem_filter, State.readySlots, List.mem_filter, entryFits_iff, and_assoc, State.MayGo]

theorem ahead_iff {s : State} {a b : Nat} : s.ahead a b = true ↔
    (s.clientX a).vt < (s.clientX b).vt ∨ ((s.clientX a).vt = (s.clientX b).vt ∧ a ≤ b) := by
  simp [State.ahead]

theorem ahead_trans {s : State} {a b c : Nat} (ab : s.ahead a b = true) (bc : s.ahead b c = true) : s.ahead a c = true := by
  rw [ahead_iff] at *
  omega

theorem ahead_total (s : State) (a b : Nat) : (s.ahead a b || s.ahead b a) = true := by
  rw [Bool.or_eq_true, ahead_iff, ahead_iff]
  omega

/-- The client served first has a candidate, and goes ahead of every other that has one. -/
theorem clientOrder_head {s : State} {x : Ctx} {c : Nat} {l : List Nat} (order : s.clientOrder x = c :: l) {z : QSlot}
    (may : s.MayGo x z) : s.ahead c (qClient z.words) = true := by
  have sorted := List.pairwise_mergeSort (le := s.ahead) (fun _ _ _ => ahead_trans) (ahead_total s)
    ((s.candidates x).map fun y => qClient y.words).eraseDups
  have there : qClient z.words ∈ s.clientOrder x := by
    rw [State.clientOrder, List.mem_mergeSort, List.mem_eraseDups]
    exact List.mem_map_of_mem (mem_candidates.mpr may)
  rw [State.clientOrder] at order
  rw [order, List.pairwise_cons] at sorted
  rw [State.clientOrder, order, List.mem_cons] at there
  rcases there with same | later
  · rw [same]
    simpa using ahead_total s c c
  · exact sorted.1 _ later

/-! ### The queues of a client in turn -/

/-- The first element of a rising list with p is the least of those with p. -/
theorem find?_sorted_least {l : List QSlot} (sorted : l.Pairwise fun a b => a.id ≤ b.id) {p : QSlot → Bool} {y : QSlot}
    (found : l.find? p = some y) {z : QSlot} (here : z ∈ l) (pz : p z = true) : y.id ≤ z.id := by
  obtain ⟨-, as, bs, rfl, none_⟩ := List.find?_eq_some_iff_append.mp found
  rcases List.mem_append.mp here with before | after
  · exact absurd pz (by simpa using none_ z before)
  · rcases List.mem_cons.mp after with rfl | later
    · exact Nat.le_refl _
    · exact (List.pairwise_cons.mp (List.pairwise_append.mp sorted).2.1).1 z later

theorem byId_sorted (qs : List QSlot) : (qs.mergeSort fun a b => a.id ≤ b.id).Pairwise fun a b => a.id ≤ b.id := by
  have sorted := List.pairwise_mergeSort (le := fun a b : QSlot => decide (a.id ≤ b.id))
    (fun a b c ab bc => by simp only [decide_eq_true_eq] at *; omega) (fun a b => by simp only [Bool.or_eq_true, decide_eq_true_eq]; omega) qs
  simpa using sorted

theorem head?_byId_least {qs : List QSlot} {y z : QSlot} (head : (qs.mergeSort fun a b => a.id ≤ b.id).head? = some y)
    (here : z ∈ qs) : y.id ≤ z.id :=
  find?_sorted_least (byId_sorted qs) (p := fun _ => true) (by rw [← head]; cases qs.mergeSort _ <;> rfl)
    (List.mem_mergeSort.mpr here) rfl

theorem afterLast_none_least {qs : List QSlot} {y z : QSlot} (next : afterLast none qs = some y) (here : z ∈ qs) : y.id ≤ z.id :=
  head?_byId_least next here

/-- After the last queue dispatched comes the next one up, or, where there is none, the lowest. -/
theorem afterLast_some {last : Nat} {qs : List QSlot} {y z : QSlot} (next : afterLast (some last) qs = some y) (here : z ∈ qs) :
    (last < z.id → last < y.id ∧ y.id ≤ z.id) ∧ (¬last < y.id → y.id ≤ z.id) := by
  have there : z ∈ qs.mergeSort fun a b => a.id ≤ b.id := List.mem_mergeSort.mpr here
  simp only [afterLast] at next
  cases found : (qs.mergeSort fun a b => a.id ≤ b.id).find? fun q => last < q.id with
  | some w =>
    rw [found] at next
    obtain rfl : w = y := Option.some.inj next
    have above : last < w.id := by simpa using List.find?_some found
    exact ⟨fun later => ⟨above, find?_sorted_least (byId_sorted qs) found there (by simpa using later)⟩, fun n => absurd above n⟩
  | none =>
    rw [found] at next
    have low := head?_byId_least next here
    have none_ : ¬last < z.id := by simpa using List.find?_eq_none.mp found z there
    exact ⟨fun later => absurd later none_, fun _ => low⟩

theorem afterLast_mem {last : Option Nat} {qs : List QSlot} {y : QSlot} (next : afterLast last qs = some y) : y ∈ qs := by
  have inSorted : y ∈ qs.mergeSort fun a b => a.id ≤ b.id := by
    cases last with
    | none => exact List.mem_of_mem_head? next
    | some q =>
      simp only [afterLast] at next
      cases found : (qs.mergeSort fun a b => a.id ≤ b.id).find? fun z => q < z.id with
      | some w =>
        rw [found] at next
        obtain rfl : w = y := Option.some.inj next
        exact List.mem_of_find?_eq_some found
      | none =>
        rw [found] at next
        exact List.mem_of_mem_head? next
  exact List.mem_mergeSort.mp inSorted

/-- The choice is one of a client's candidates in turn, and the client goes ahead of the others. -/
theorem choose_some {s : State} {x : Ctx} {y : QSlot} (chosen : s.choose x = some y) : s.MayGo x y ∧
    (∀ z, s.MayGo x z → s.ahead (qClient y.words) (qClient z.words) = true) ∧
    afterLast (s.clientX (qClient y.words)).lastQueue ((s.candidates x).filter fun z => qClient z.words = qClient y.words) =
      some y := by
  rw [choose_eq] at chosen
  cases order : s.clientOrder x with
  | nil => simp [order] at chosen
  | cons c l =>
    simp only [order] at chosen
    obtain ⟨may, own⟩ := List.mem_filter.mp (afterLast_mem chosen)
    obtain rfl : qClient y.words = c := by simpa using own
    exact ⟨mem_candidates.mp may, fun z => clientOrder_head order, chosen⟩

/-- Settles O14: the clients in the order of their virtual times, and the queues of the first in the order of their numbers. -/
theorem lowestVirtualTimeWins : Obligations.LowestVirtualTimeWins := by
  unfold Obligations.LowestVirtualTimeWins
  intro s x y chosen may vt
  obtain ⟨mine, first, next⟩ := choose_some chosen
  have inTurn : ∀ z, may z → qClient z.words = qClient y.words →
      z ∈ (s.candidates x).filter fun z => qClient z.words = qClient y.words := fun z goes same =>
    List.mem_filter.mpr ⟨mem_candidates.mpr goes, decide_eq_true same⟩
  refine ⟨mine, fun z goes => ahead_iff.mp (first z goes), fun z last goes same known => ?_, fun z goes same fresh => ?_⟩
  · rw [known] at next
    exact afterLast_some next (inTurn z goes same)
  · rw [fresh] at next
    exact afterLast_none_least next (inTurn z goes same)

end Sys2Proof.Machine

namespace Sys2Proof.Machine

/-! ## Records written to LPDDR4X (R251, R253) -/

/-- A write to LPDDR4X without translation that no rule stops stores its bytes and nothing else. -/
theorem extWrite_reaches {s : State} {ini a : Nat} (reaches : s.Reaches ini a true) (client : Nat) (l : List Byte) :
    s.extWrite ini client false a l = (s.setBytes a l, .ok) := by
  obtain ⟨region, outside, allowed⟩ := reaches
  have found : s.resolve ini client false a true = (s, .ok, false, a) := by
    simp [State.resolve, region, State.lpddrAt, outside, allowed]
  simp [State.extWrite, found]

/-- A byte outside the words written keeps its value. -/
theorem byte_wrWs_ne (s : State) {a b : Nat} {l : List Word} (out : b < a ∨ a + 4 * l.length ≤ b) :
    (s.wrWs a l).byte b = s.byte b := by
  rw [State.wrWs, byte_setBytes, words_length, if_neg (by omega)]

theorem rdW_wrWs (s : State) (a : Nat) {l : List Word} {i : Nat} (lt : i < l.length) :
    (s.wrWs a l).rdW (a + 4 * i) = nth l i 0 := rdW_setBytes_words s a l i lt

/-- Writing words changes memory alone. -/
theorem wrWs_eq (s : State) (a : Nat) (l : List Word) : s.wrWs a l = { s with mem := (s.wrWs a l).mem } := setBytes_eq ..

theorem wrWs_regs (s : State) (a : Nat) (l : List Word) : (s.wrWs a l).regs = s.regs := by rw [wrWs_eq]

theorem wrWs_part (s : State) (a : Nat) (l : List Word) : (s.wrWs a l).part = s.part := by rw [wrWs_eq]

theorem wrWs_clients (s : State) (a : Nat) (l : List Word) : (s.wrWs a l).clients = s.clients := by rw [wrWs_eq]

theorem wrWs_rd (s : State) (a : Nat) (l : List Word) (u off : Nat) : (s.wrWs a l).rd u off = s.rd u off :=
  rd_of_regs (wrWs_regs ..) (wrWs_part ..) u off

theorem clientX_of_clients {s t : State} (same : t.clients = s.clients) (c : Nat) : t.clientX c = s.clientX c := by
  rw [State.clientX, same]
  rfl

theorem byte_of_mem {s t : State} (mem : t.mem = s.mem) (voids : t.voids = s.voids) (a : Nat) : t.byte a = s.byte a := by
  rw [State.byte, mem, voids]
  rfl

theorem rdW_of_mem {s t : State} (mem : t.mem = s.mem) (voids : t.voids = s.voids) (a : Nat) : t.rdW a = s.rdW a := by
  simp only [State.rdW, State.rdN, State.bytes, byte_of_mem mem voids]

theorem wrWs_slot (s : State) (a : Nat) (l : List Word) (q : Nat) : (s.wrWs a l).slot q = s.slot q := by rw [wrWs_eq]; rfl

theorem updSlot_byte (s : State) (q : Nat) (f : QSlot → QSlot) (b : Nat) : (s.updSlot q f).byte b = s.byte b := rfl

theorem updSlot_rdW (s : State) (q : Nat) (f : QSlot → QSlot) (a : Nat) : (s.updSlot q f).rdW a = s.rdW a := rfl

theorem b2n_mul (b : Bool) (k : Nat) : b2n b * k = if b then k else 0 := by
  cases b <;> simp [b2n]

theorem cap32_eq_min (k : Nat) : cap32 k = min k (2 ^ 32 - 1) := by
  unfold cap32
  split <;> omega

/-! ### The completion record (R251) -/

/-- The words of the completion record of an entry e of a queue with words d. -/
def State.doneWords (s : State) (d e : List Word) (r : Done) : List Word :=
  [w32 (eSeq e), w32 (r.fault % 2 ^ 16 + b2n (qCompPhase d) * 2 ^ 16 + b2n r.applied * 2 ^ 17 + min r.restarts 15 * 2 ^ 18),
    ew e 10, ew e 11, w32 (cap32 r.steps), w32 (cap32 r.elapsed), w32 s.gaugeNs, w32 s.gaugeS]

theorem doneWords_length (s : State) (d e : List Word) (r : Done) : (s.doneWords d e r).length = 8 := rfl

/-- Where the next completion record of a queue goes. -/
def compAddr (d : List Word) : Nat := qComp d + 32 * qCompTail d

/-- A queue whose entry has left it with a completion record. -/
def QSlot.completed (y : QSlot) : QSlot := { y.consume with words := advTail y.consume.words, running := none }

section
variable {s : State} {q : Nat} {x : QSlot} {e : List Word} {r : Done} (slot : s.slot q = some x) (plain : qXlate x.words = false)
  (quiet : eNotify e = false) (goes : r.fault = 0 ∨ qHaltOnFault x.words = false) (stays : x.reload = false)
  (reaches : s.Reaches (spIni q) (compAddr x.words) true)
include slot plain quiet goes stays reaches

/-- A completion that neither halts, nor reloads, nor notifies: the record is written, the entry leaves its queue. -/
theorem complete_written : s.complete q e r =
    (s.wrWs (compAddr x.words) (s.doneWords x.words e r)).updSlot q QSlot.completed := by
  have wrote : s.writeDone q x.words e r = (s.wrWs (compAddr x.words) (s.doneWords x.words e r), .ok) := by
    rw [State.writeDone, plain]
    exact extWrite_reaches reaches ..
  have halts : (r.fault != 0 && qHaltOnFault x.words) = false := by
    rcases goes with clean | on <;> simp [*]
  simp only [State.complete, slot, wrote, State.account, quiet, halts, stays]
  rfl

theorem complete_slot : (s.complete q e r).slot q = some x.completed := by
  rw [complete_written slot plain quiet goes stays reaches, slot_updSlot _ _ QSlot.completed fun _ => rfl, wrWs_slot, slot]
  rfl

theorem complete_byte {b : Nat} (out : b < compAddr x.words ∨ compAddr x.words + 32 ≤ b) : (s.complete q e r).byte b = s.byte b := by
  rw [complete_written slot plain quiet goes stays reaches, updSlot_byte]
  exact byte_wrWs_ne s (by rw [doneWords_length]; exact out)

theorem complete_word {i : Nat} (lt : i < 8) :
    (s.complete q e r).rdW (compAddr x.words + 4 * i) = nth (s.doneWords x.words e r) i 0 := by
  rw [complete_written slot plain quiet goes stays reaches, updSlot_rdW]
  exact rdW_wrWs s _ (by rw [doneWords_length]; exact lt)

end

/-! ### HEAD and COMP_TAIL (R247, R251) -/

theorem qw_setNth {d : List Word} {i : Nat} (lt : i < d.length) (v : Word) (j : Nat) :
    qw (setNth d i v) j = if j = i then v else qw d j := nth_setNth_if d i j v 0 lt

theorem lt_index_width {a o : Nat} (order : o ≤ 20) (lt : a < 2 ^ o) : a < 2 ^ 20 :=
  lt_of_lt_of_le lt (Nat.pow_le_pow_right (by decide) order)

section
variable {d : List Word} (words : d.length = 16)
include words

theorem advHead_next (order : qOrder d ≤ 20) (next : qHead d + 1 < 2 ^ qOrder d) :
    qHead (advHead d) = qHead d + 1 ∧ qPhase (advHead d) = qPhase d := by
  have on : advHead d = setNth d 3 (setBits (qw d 3) 19 0 (qHead d + 1)) := if_pos next
  rw [on, qHead, qPhase, qw_setNth (by omega), qw_setNth (by omega), if_pos rfl, if_neg (by decide),
    bits_setBits_same _ _ _ _ (by decide) (by decide)]
  exact ⟨Nat.mod_eq_of_lt (lt_index_width order next), rfl⟩

theorem advHead_wraps (wraps : 2 ^ qOrder d ≤ qHead d + 1) : qHead (advHead d) = 0 ∧ qPhase (advHead d) = !qPhase d := by
  have on : advHead d = setNth (setNth d 3 (setBits (qw d 3) 19 0 0)) 2 (setBit (qw d 2) 13 (!qPhase d)) :=
    if_neg (Nat.not_lt.mpr wraps)
  have long : 2 < (setNth d 3 (setBits (qw d 3) 19 0 0)).length := by rw [setNth_length]; omega
  refine ⟨?_, ?_⟩
  · rw [on, qHead, qw_setNth long, if_neg (by decide), qw_setNth (by omega), if_pos rfl,
      bits_setBits_same _ _ _ _ (by decide) (by decide)]
    rfl
  · conv_lhs => rw [on, qPhase, qw_setNth long, if_pos rfl, bit_setBit_same _ _ _ (by decide)]

theorem advTail_next (order : qCompOrder d ≤ 20) (next : qCompTail d + 1 < 2 ^ qCompOrder d) :
    qCompTail (advTail d) = qCompTail d + 1 ∧ qCompPhase (advTail d) = qCompPhase d := by
  have on : advTail d = setNth d 7 (setBits (qw d 7) 19 0 (qCompTail d + 1)) := if_pos next
  rw [on, qCompTail, qCompPhase, qw_setNth (by omega), if_pos rfl, bits_setBits_same _ _ _ _ (by decide) (by decide), bit_eq_bits,
    bits_setBits_above _ _ _ _ _ _ (by decide) (by decide) (by decide), ← bit_eq_bits]
  exact ⟨Nat.mod_eq_of_lt (lt_index_width order next), rfl⟩

theorem advTail_wraps (wraps : 2 ^ qCompOrder d ≤ qCompTail d + 1) :
    qCompTail (advTail d) = 0 ∧ qCompPhase (advTail d) = !qCompPhase d := by
  have on : advTail d = setNth d 7 (setBit (setBits (qw d 7) 19 0 0) 20 (!qCompPhase d)) := if_neg (Nat.not_lt.mpr wraps)
  refine ⟨?_, ?_⟩
  · rw [on, qCompTail, qw_setNth (by omega), if_pos rfl, setBit,
      bits_setBits_below _ _ _ _ _ _ (by decide) (by decide) (by decide) (by decide), bits_setBits_same _ _ _ _ (by decide) (by decide)]
    rfl
  · conv_lhs => rw [on, qCompPhase, qw_setNth (by omega), if_pos rfl, bit_setBit_same _ _ _ (by decide)]

end

/-- Settles O17: the record's words are read back where they were written; HEAD and COMP_TAIL are fields of words 3 and 7. -/
theorem completionRecord : Obligations.CompletionRecord := by
  unfold Obligations.CompletionRecord
  refine ⟨?_, fun d words order compOrder => ?_⟩
  · intro s q x e r slot plain quiet goes stays a reaches t
    have word : ∀ i, i < 8 → t.rdW (a + 4 * i) = nth (s.doneWords x.words e r) i 0 := fun i =>
      complete_word slot plain quiet goes stays reaches
    refine ⟨word 0 (by decide), ?_, word 2 (by decide), word 3 (by decide), ?_, ?_, word 6 (by decide), word 7 (by decide),
      fun b out => complete_byte slot plain quiet goes stays reaches out,
      ⟨_, complete_slot slot plain quiet goes stays reaches, rfl, rfl, rfl⟩⟩
    · rw [← b2n_mul, ← b2n_mul]
      exact word 1 (by decide)
    · rw [← cap32_eq_min]
      exact word 4 (by decide)
    · rw [← cap32_eq_min]
      exact word 5 (by decide)
  · exact ⟨advHead_next words order, advHead_wraps words, advTail_next words compOrder, advTail_wraps words⟩

/-! ## Event records (R253, R596) -/

/-- The words of a record in the event ring of client c. -/
def State.eventRecord (s : State) (c code unit queue seq d0 d1 : Nat) : List Word :=
  s.eventWords code unit queue seq d0 d1 (s.clientX c).phase

/-- Where the next event record of a client goes. -/
def State.eventTailAddr (s : State) (c : Nat) : Nat := s.cEventAddr c + 32 * bits (s.cw c 6) 31 16

/-- EVENT_TAIL goes on; at the wrap it begins again with the other phase. -/
def State.eventTailOn (s : State) (c : Nat) : State :=
  let n := bits (s.cw c 6) 31 16 + 1
  if n < 2 ^ s.cEventOrder c then s.setFld (wClient c) 24 31 16 n
  else (s.setFld (wClient c) 24 31 16 0).setClientX c { s.clientX c with phase := !(s.clientX c).phase }

section
variable (s : State) (c : Nat)

theorem setClientX_mem (s : State) (c : Nat) (x : ClientX) : (s.setClientX c x).mem = s.mem := rfl

theorem setClientX_voids (s : State) (c : Nat) (x : ClientX) : (s.setClientX c x).voids = s.voids := rfl

/-- EVENT_TAIL and the phase lie outside memory. -/
theorem eventTailOn_mem : (s.eventTailOn c).mem = s.mem := by
  unfold State.eventTailOn
  dsimp only
  split
  · rw [State.setFld_mem]
  · rw [setClientX_mem, State.setFld_mem]

theorem eventTailOn_voids : (s.eventTailOn c).voids = s.voids := by
  unfold State.eventTailOn
  dsimp only
  split
  · rw [State.setFld_voids]
  · rw [setClientX_voids, State.setFld_voids]

/-- EVENT_TAIL as it was set in word 6 of the client's record. -/
theorem eventTail_setFld (n : Nat) : bits ((s.setFld (wClient c) 24 31 16 n).cw c 6) 31 16 = n % 2 ^ 16 := by
  have set : (s.setFld (wClient c) 24 31 16 n).cw c 6 = setBits (s.rd (wClient c) 24) 31 16 n := rd_wr_same ..
  rw [set]
  exact bits_setBits_same _ _ _ _ (by decide) (by decide)

theorem eventTailOn_next (next : bits (s.cw c 6) 31 16 + 1 < 2 ^ s.cEventOrder c) :
    bits ((s.eventTailOn c).cw c 6) 31 16 = (bits (s.cw c 6) 31 16 + 1) % 2 ^ 16 ∧
      ((s.eventTailOn c).clientX c).phase = (s.clientX c).phase := by
  have on : s.eventTailOn c = s.setFld (wClient c) 24 31 16 (bits (s.cw c 6) 31 16 + 1) := if_pos next
  rw [on, clientX_of_clients (State.setFld_clients ..)]
  exact ⟨eventTail_setFld s c _, rfl⟩

theorem eventTailOn_wraps (wraps : ¬bits (s.cw c 6) 31 16 + 1 < 2 ^ s.cEventOrder c) :
    bits ((s.eventTailOn c).cw c 6) 31 16 = 0 ∧ ((s.eventTailOn c).clientX c).phase = !(s.clientX c).phase := by
  have on : s.eventTailOn c =
      (s.setFld (wClient c) 24 31 16 0).setClientX c { s.clientX c with phase := !(s.clientX c).phase } := if_neg wraps
  rw [on, clientX_set, State.cw, rd_setClientX]
  exact ⟨eventTail_setFld s c 0, rfl⟩

variable {s c} {code unit queue seq d0 d1 : Nat}

/-- The record has been written, with the client's record as before: EVENT_TAIL goes on. -/
theorem eventWrite_of {t : State} (wrote : s.extWrite 0x50 c false (s.eventTailAddr c)
      ((s.eventRecord c code unit queue seq d0 d1).flatMap fun w => natBytes 4 w.toNat) = (t, .ok))
    (word : ∀ k, t.cw c k = s.cw c k) (clients : t.clients = s.clients) :
    s.eventWrite c code unit queue seq d0 d1 = (t.eventTailOn c, true) := by
  have own : t.clientX c = s.clientX c := clientX_of_clients clients c
  have kept : (t.setFld (wClient c) 24 31 16 0).clientX c = s.clientX c :=
    (clientX_of_clients (State.setFld_clients ..) c).trans own
  simp only [State.eventTailAddr, State.eventRecord] at wrote
  simp only [State.eventWrite, wrote, State.eventTailOn, State.cEventOrder, word, own]
  by_cases next : bits (s.cw c 6) 31 16 + 1 < 2 ^ bits (s.cw c 3) 20 16
  · simp [next]
  · simp [next, kept]

theorem eventWrite_written (reaches : s.Reaches 0x50 (s.eventTailAddr c) true) : s.eventWrite c code unit queue seq d0 d1 =
    ((s.wrWs (s.eventTailAddr c) (s.eventRecord c code unit queue seq d0 d1)).eventTailOn c, true) :=
  eventWrite_of (extWrite_reaches reaches ..) (fun _ => wrWs_rd ..) (wrWs_clients ..)

theorem post_notValid (gone : s.clientValid c = false) : s.post c code unit queue seq d0 d1 = s := by
  simp [State.post, gone]

/-- No room for the event, or, while events are lost, none for the record of the lost ones before it. -/
theorem post_drops (valid : s.clientValid c = true)
    (full : s.eventRoom c = 0 ∨ ((s.clientX c).lost ≠ 0 ∧ s.eventRoom c < 2)) :
    s.post c code unit queue seq d0 d1 = s.eventDrop c := by
  simp only [State.post, valid]
  by_cases none_ : (s.clientX c).lost = 0
  · have room : ¬1 ≤ s.eventRoom c := by omega
    simp [none_, room]
  · have room : ¬2 ≤ s.eventRoom c := by omega
    simp [none_, room]

theorem post_writes (valid : s.clientValid c = true) (none_ : (s.clientX c).lost = 0) (room : 1 ≤ s.eventRoom c)
    (reaches : s.Reaches 0x50 (s.eventTailAddr c) true) :
    s.post c code unit queue seq d0 d1 = (s.eventWrite c code unit queue seq d0 d1).1.eventSignal c := by
  simp [State.post, valid, none_, room, eventWrite_written reaches]

theorem eventDrop_lost (s : State) (c : Nat) : ((s.eventDrop c).clientX c).lost = (s.clientX c).lost + 1 := by
  rw [State.eventDrop, clientX_set]

/-- EVENTS_LOST counts up to its largest value. -/
theorem eventDrop_eventsLost (s : State) (c : Nat) : (s.eventDrop c).rd (wClient c) 28 =
    setBits (s.rd (wClient c) 28) 15 0 (min (bits (s.rd (wClient c) 28) 15 0 + 1) 65535) := by
  have counted : (s.eventDrop c).rd (wClient c) 28 = countBits (s.rd (wClient c) 28) 15 0 1 := by
    rw [State.eventDrop, rd_setClientX, State.countF, rd_wr_same]
  have top : satAdd (2 ^ (15 + 1 - 0) - 1) (bits (s.rd (wClient c) 28) 15 0) 1 = min (bits (s.rd (wClient c) 28) 15 0 + 1) 65535 := by
    unfold satAdd
    split <;> omega
  rw [counted, countBits, top]

end


/-- Settles O18: an event that finds room is eight words at EVENT_TAIL; the others are dropped, or nobody's. -/
theorem eventRecords : Obligations.EventRecords := by
  unfold Obligations.EventRecords
  intro s c code unit queue seq d0 d1
  refine ⟨post_notValid, fun valid full => ⟨post_drops valid full, eventDrop_lost s c, eventDrop_eventsLost s c⟩, ?_⟩
  intro valid none_ room a reaches t
  have written : t = (s.wrWs a (s.eventRecord c code unit queue seq d0 d1)).eventTailOn c :=
    congrArg Prod.fst (eventWrite_written reaches)
  have word : ∀ i, i < 8 → t.rdW (a + 4 * i) = nth (s.eventRecord c code unit queue seq d0 d1) i 0 := fun i lt => by
    rw [written, rdW_of_mem (eventTailOn_mem ..) (eventTailOn_voids ..)]
    exact rdW_wrWs s a lt
  refine ⟨post_writes valid none_ room reaches, word 0 (by decide), ?_, word 2 (by decide), word 3 (by decide), word 4 (by decide),
    word 5 (by decide), word 6 (by decide), word 7 (by decide), fun b out => ?_, ?_⟩
  · rw [← b2n_mul]
    exact word 1 (by decide)
  · rw [written, byte_of_mem (eventTailOn_mem ..) (eventTailOn_voids ..)]
    exact byte_wrWs_ne s out
  · have next := eventTailOn_next (s.wrWs a (s.eventRecord c code unit queue seq d0 d1)) c
    have wraps := eventTailOn_wraps (s.wrWs a (s.eventRecord c code unit queue seq d0 d1)) c
    have word : ∀ k, (s.wrWs a (s.eventRecord c code unit queue seq d0 d1)).cw c k = s.cw c k := fun k => wrWs_rd ..
    rw [← written, State.cEventOrder, word, word, clientX_of_clients (wrWs_clients ..)] at next wraps
    intro n
    split
    · exact next ‹_›
    · exact wraps ‹_›

end Sys2Proof.Machine

namespace Sys2Proof.Machine

/-! ## Clients (R248, R252, R257, R268, R270) -/

/-! ### Registers of one block -/

theorem rk_own (u a b : Nat) : rk u a = rk u b ↔ a = b := by
  unfold rk
  omega

theorem rd_wr_own (s : State) (u a : Nat) (x : Word) (b : Nat) : (s.wr u a x).rd u b = if b = a then x else s.rd u b := by
  rw [rd_wr]
  simp only [rk_own]

theorem rd_setWide_own (s : State) (u a x b : Nat) : (s.setWide u a x).rd u b = if b = a then w32 x else s.rd u b := by
  rw [rd_setWide]
  simp only [rk_own]

theorem wide_setWide_own (s : State) (u a x b : Nat) : (s.setWide u a x).wide64 u b = if b = a then x else s.wide64 u b := by
  rw [wide_setWide]
  simp only [rk_own]

/-- From s to t no register changes but those of block w, no byte of memory and no mark. -/
def BlockOnly (w : Nat) (s t : State) : Prop :=
  (∀ u off, off < 0x10000 → u ≠ w → t.rd u off = s.rd u off) ∧ SameMemory s t ∧ SameMarks s t

theorem BlockOnly.trans {w : Nat} {a b c : State} (h : BlockOnly w a b) (g : BlockOnly w b c) : BlockOnly w a c := by
  obtain ⟨hr, ⟨hb, hh⟩, hm⟩ := h
  obtain ⟨gr, ⟨gb, gh⟩, gm⟩ := g
  exact ⟨fun u off lt n => (gr u off lt n).trans (hr u off lt n), ⟨fun a => (gb a).trans (hb a), fun a => (gh a).trans (hh a)⟩,
    fun m => (gm m).trans (hm m)⟩

theorem BlockOnly.wr (s : State) {w off : Nat} (lt : off < 0x10000) (v : Word) : BlockOnly w s (s.wr w off v) :=
  ⟨fun _ _ b n => rd_wr_ne _ _ _ _ _ _ (rk_ne b lt fun e => n (Prod.mk.inj e).1), (ButRegs.wr ..).sameMemory, (ButRegs.wr ..).sameMarks⟩

theorem BlockOnly.with_wide (w : Nat) (s : State) (l : List (Nat × Nat)) : BlockOnly w s { s with wide := l } :=
  ⟨fun _ _ _ _ => rfl, ⟨fun _ => rfl, fun _ => rfl⟩, fun _ => rfl⟩

theorem BlockOnly.setWide (s : State) {w off : Nat} (lt : off < 0x10000) (v : Nat) : BlockOnly w s (s.setWide w off v) :=
  (BlockOnly.with_wide w s _).trans (.wr _ lt _)

theorem BlockOnly.setClientX (w : Nat) (s : State) (c : Nat) (x : ClientX) : BlockOnly w s (s.setClientX c x) :=
  ⟨fun _ _ _ _ => rfl, ⟨fun _ => rfl, fun _ => rfl⟩, fun _ => rfl⟩

theorem BlockOnly.ret (w : Nat) (s : State) (status : Nat) (l : List Word) : BlockOnly w s (s.ret status l) :=
  ⟨fun _ _ _ _ => rfl, ⟨fun _ => rfl, fun _ => rfl⟩, fun _ => rfl⟩

theorem cw_ret (s : State) (status : Nat) (l : List Word) (c k : Nat) : (s.ret status l).cw c k = s.cw c k := rfl

theorem wide_ret (s : State) (status : Nat) (l : List Word) (u off : Nat) : (s.ret status l).wide64 u off = s.wide64 u off := rfl

theorem clientX_ret (s : State) (status : Nat) (l : List Word) (c : Nat) : (s.ret status l).clientX c = s.clientX c := rfl

/-! ### A record that becomes valid (R252, R268) -/

/-- The counter of a client at offset off begins at 0. -/
def State.counterZero (s : State) (c off : Nat) : State := (s.setWide (wClient c) off 0).wr (wClient c) (off + 4) 0

/-- EVENT_TAIL, EVENTS_LOST and the counters of a client at 0. -/
def State.recordAfresh (s : State) (c : Nat) : State :=
  let t := (s.setFld (wClient c) 24 31 16 0).wr (wClient c) 28 0
  ((((t.counterZero c 0x20).counterZero c 0x28).counterZero c 0x30).wr (wClient c) 0x38 0).wr (wClient c) 0x3C 0

theorem clientStart_eq (s : State) (c : Nat) : s.clientStart c =
    (s.recordAfresh c).setClientX c { (s.recordAfresh c).clientX c with lost := 0, phase := true } := rfl

theorem recordAfresh_blockOnly (s : State) (c : Nat) : BlockOnly (wClient c) s (s.recordAfresh c) := by
  have zero : ∀ (t : State) (off : Nat), off + 4 < 0x10000 → BlockOnly (wClient c) t (t.counterZero c off) := fun t off lt =>
    (BlockOnly.setWide t (by omega) 0).trans (.wr _ lt 0)
  exact (BlockOnly.wr s (by decide) _).trans <| (BlockOnly.wr _ (by decide) _).trans <| (zero _ _ (by decide)).trans <|
    (zero _ _ (by decide)).trans <| (zero _ _ (by decide)).trans <| (BlockOnly.wr _ (by decide) _).trans (.wr _ (by decide) _)

theorem clientStart_blockOnly (s : State) (c : Nat) : BlockOnly (wClient c) s (s.clientStart c) :=
  (recordAfresh_blockOnly s c).trans (.setClientX ..)

theorem clientStart_rd (s : State) (c b : Nat) : (s.clientStart c).rd (wClient c) b = (s.recordAfresh c).rd (wClient c) b := by
  rw [clientStart_eq, rd_setClientX]

theorem rd_counterZero (s : State) (c off b : Nat) :
    (s.counterZero c off).rd (wClient c) b = if b = off + 4 ∨ b = off then 0 else s.rd (wClient c) b := by
  rw [State.counterZero, rd_wr_own, rd_setWide_own]
  by_cases hi : b = off + 4
  · simp [hi]
  · by_cases lo : b = off <;> simp [hi, lo, w32]

/-- The configuration words of a record keep their values. -/
theorem clientStart_config (s : State) (c : Nat) {b : Nat} (config : b < 24) :
    (s.clientStart c).rd (wClient c) b = s.rd (wClient c) b := by
  simp only [clientStart_rd, State.recordAfresh, State.setFld, rd_wr_own, rd_counterZero]
  repeat rw [if_neg (by omega)]

theorem clientStart_tail (s : State) (c : Nat) :
    (s.clientStart c).rd (wClient c) 24 = setBits (s.rd (wClient c) 24) 31 16 0 ∧ (s.clientStart c).rd (wClient c) 28 = 0 := by
  simp only [clientStart_rd, State.recordAfresh, State.setFld, rd_wr_own, rd_counterZero]
  exact ⟨rfl, rfl⟩

theorem wide_counterZero (s : State) (c off b : Nat) :
    (s.counterZero c off).wide64 (wClient c) b = if b = off then 0 else s.wide64 (wClient c) b := by
  rw [State.counterZero, wide_wr, wide_setWide_own]

theorem clientStart_wide (s : State) (c : Nat) {b : Nat} (counter : b = 0x20 ∨ b = 0x28 ∨ b = 0x30) :
    (s.clientStart c).wide64 (wClient c) b = 0 := by
  rw [clientStart_eq, wide_setClientX, State.recordAfresh, wide_wr, wide_wr, wide_counterZero, wide_counterZero, wide_counterZero]
  rcases counter with rfl | rfl | rfl <;> simp

theorem clientStart_clientX (s : State) (c : Nat) :
    ((s.clientStart c).clientX c).lost = 0 ∧ ((s.clientStart c).clientX c).phase = true := by
  rw [clientStart_eq, clientX_set]
  exact ⟨rfl, rfl⟩

/-! ### Call 0x0100 -/

/-- The arguments that call 0x0100 takes. -/
def State.ClientArgs (s : State) (args : List Word) : Prop :=
  let n := arg args
  (1 ≤ n 0 ∧ n 0 ≤ 0xFFFF) ∧ n 1 ≤ 0x3FF ∧ n 2 ≤ 0x3FF ∧ n 4 < 2 ^ 16 ∧ n 6 ≤ 3 ∧ n 7 ≤ 2047 ∧ n 8 ≤ 0xFFFF ∧ n 9 ≤ 0xFFFF ∧
    n 8 + n 9 ≤ 65536 ∧ eventRingOk s.part (argAddr args 3) (n 5) = true ∧ s.vectorOk (n 1) (n 2) (n 6) (n 7) = true

/-- The words of a new record, before it becomes valid. -/
def State.clientWords (s : State) (args : List Word) (c : Nat) : State :=
  let n := arg args
  let t := ((s.wr (wClient c) 0 (w32 (n 0))).wr (wClient c) 8 (w32 (n 3))).wr (wClient c) 12 (w32 (n 4 + n 5 * 2 ^ 16))
  (((t.wr (wClient c) 16 (w32 (n 6 * 2 ^ 30 + n 7))).wr (wClient c) 20 (w32 (n 9 * 2 ^ 16 + n 8))).wr (wClient c) 24 0).wr (wClient c) 4
    (w32 (2 ^ 31 + n 2 * 2 ^ 16 + n 1))

theorem clientWords_blockOnly (s : State) (args : List Word) (c : Nat) : BlockOnly (wClient c) s (s.clientWords args c) :=
  (BlockOnly.wr s (by decide) _).trans <| (BlockOnly.wr _ (by decide) _).trans <| (BlockOnly.wr _ (by decide) _).trans <|
    (BlockOnly.wr _ (by decide) _).trans <| (BlockOnly.wr _ (by decide) _).trans <| (BlockOnly.wr _ (by decide) _).trans
      (.wr _ (by decide) _)

theorem clientWords_rd (s : State) (args : List Word) (c : Nat) :
    let n := arg args
    let t := s.clientWords args c
    t.rd (wClient c) 0 = w32 (n 0) ∧ t.rd (wClient c) 4 = w32 (2 ^ 31 + n 2 * 2 ^ 16 + n 1) ∧ t.rd (wClient c) 8 = w32 (n 3) ∧
      t.rd (wClient c) 12 = w32 (n 4 + n 5 * 2 ^ 16) ∧ t.rd (wClient c) 16 = w32 (n 6 * 2 ^ 30 + n 7) ∧
      t.rd (wClient c) 20 = w32 (n 9 * 2 ^ 16 + n 8) ∧ t.rd (wClient c) 24 = 0 := by
  simp [State.clientWords, rd_wr_own]

/-- The test of the arguments of call 0x0100. -/
def State.clientArgsBad (s : State) (args : List Word) : Bool :=
  let n := arg args
  (n 0 = 0 || 0xFFFF < n 0 || 0x3FF < n 1 || 0x3FF < n 2 || !addrArg args 3 || 3 < n 6 || 2047 < n 7 || 0xFFFF < n 8 || 0xFFFF < n 9 ||
    65536 < n 8 + n 9) || !eventRingOk s.part (argAddr args 3) (n 5) || !s.vectorOk (n 1) (n 2) (n 6) (n 7)

theorem clientArgsBad_iff {s : State} {args : List Word} : s.clientArgsBad args = false ↔ s.ClientArgs args := by
  simp only [State.clientArgsBad, State.ClientArgs, addrArg, Bool.or_eq_false_iff, decide_eq_false_iff_not, Bool.not_eq_false',
    decide_eq_true_eq, Nat.reduceAdd]
  constructor
  · rintro ⟨⟨_, ring⟩, vector⟩
    exact ⟨by omega, by omega, by omega, by omega, by omega, by omega, by omega, by omega, by omega, ring, vector⟩
  · rintro ⟨_, _, _, _, _, _, _, _, _, ring, vector⟩
    exact ⟨⟨by omega, ring⟩, vector⟩

theorem callCreateClient_eq (args : List Word) (s : State) : callCreateClient args s =
    if s.clientArgsBad args then s.ret RANGE
    else if s.claimed uSched then s.ret CLAIMED
    else match lowest 4096 fun c => !s.clientValid c with
      | none => s.ret CLIENTS_FULL
      | some c => ((s.clientWords args c).clientStart c).ret OK [w32 c] := by
  simp only [callCreateClient, State.clientArgsBad, State.clientWords]
  cases lowest 4096 fun c => !s.clientValid c <;> rfl

theorem callCreateClient_range {s : State} {args : List Word} (bad : ¬s.ClientArgs args) :
    callCreateClient args s = s.ret RANGE := by
  rw [← clientArgsBad_iff, Bool.not_eq_false] at bad
  rw [callCreateClient_eq, if_pos bad]

theorem callCreateClient_claimed {s : State} {args : List Word} (fits : s.ClientArgs args) (claim : s.claimed uSched = true) :
    callCreateClient args s = s.ret CLAIMED := by
  rw [callCreateClient_eq, clientArgsBad_iff.mpr fits, claim]
  rfl

theorem callCreateClient_full {s : State} {args : List Word} (fits : s.ClientArgs args) (free : s.claimed uSched = false)
    (all : ∀ c, c < 4096 → s.clientValid c = true) : callCreateClient args s = s.ret CLIENTS_FULL := by
  have none_ : lowest 4096 (fun c => !s.clientValid c) = none := lowest_none fun c lt => by rw [all c lt]; rfl
  rw [callCreateClient_eq, clientArgsBad_iff.mpr fits, free, none_]
  rfl

theorem callCreateClient_makes {s : State} {args : List Word} {c : Nat} (fits : s.ClientArgs args) (free : s.claimed uSched = false)
    (lt : c < 4096) (idle : s.clientValid c = false) (below : ∀ d, d < c → s.clientValid d = true) :
    callCreateClient args s = ((s.clientWords args c).clientStart c).ret OK [w32 c] := by
  have found : lowest 4096 (fun c => !s.clientValid c) = some c :=
    lowest_some lt (by rw [idle]; rfl) fun d k => by rw [below d k]; rfl
  rw [callCreateClient_eq, clientArgsBad_iff.mpr fits, free, found]
  rfl

/-! ### Calls 0x0101 and 0x0102 -/

theorem callSetShare_denied {s : State} {ini : Nat} {args : List Word} (client : arg args 0 ≤ 4095) (least : 1 ≤ arg args 1)
    (most : arg args 1 ≤ 0xFFFF) (other : s.clientOf ini ≠ some (arg args 0)) : callSetShare ini args s = s.ret DENIED := by
  have fits : (decide (4095 < arg args 0) || decide (arg args 1 = 0) || decide (0xFFFF < arg args 1)) = false := by
    simp only [Bool.or_eq_false_iff, decide_eq_false_iff_not]
    omega
  simp [callSetShare, fits, other]

theorem callSetShare_own {s : State} {ini : Nat} {args : List Word} (client : arg args 0 ≤ 4095) (least : 1 ≤ arg args 1)
    (most : arg args 1 ≤ 0xFFFF) (own : s.clientOf ini = some (arg args 0)) : callSetShare ini args s =
      if s.claimed uSched then s.ret CLAIMED else (s.wr (wClient (arg args 0)) 0 (w32 (arg args 1))).ret OK := by
  have fits : (decide (4095 < arg args 0) || decide (arg args 1 = 0) || decide (0xFFFF < arg args 1)) = false := by
    simp only [Bool.or_eq_false_iff, decide_eq_false_iff_not]
    omega
  simp only [callSetShare, fits, own, bne_self_eq_false, Bool.false_eq_true, if_false]

theorem callAccounting_denied {s : State} {ini : Nat} {args : List Word} (client : arg args 0 ≤ 4095)
    (other : s.clientOf ini ≠ some (arg args 0)) : callAccounting ini args s = s.ret DENIED := by
  simp [callAccounting, Nat.not_lt.mpr client, other]

theorem callAccounting_own {s : State} {ini : Nat} {args : List Word} (client : arg args 0 ≤ 4095)
    (own : s.clientOf ini = some (arg args 0)) : callAccounting ini args s =
      (s.wr (wClient (arg args 0)) 28 0).ret OK
        ([0x20, 0x28, 0x30].flatMap (fun o => [w32 (s.wide64 (wClient (arg args 0)) o), w32 (s.wide64 (wClient (arg args 0)) o / 2 ^ 32)]) ++
          [s.rd (wClient (arg args 0)) 0x38, s.rd (wClient (arg args 0)) 0x3C, s.rd (wClient (arg args 0)) 28]) := by
  simp only [callAccounting, if_neg (Nat.not_lt.mpr client), own, bne_self_eq_false, Bool.false_eq_true, if_false]

/-! ### Words of a record (R268) -/

section
variable {s : State} {ini k : Nat} {v : Word} (admits : s.Admits ini uSched (0x240 + 4 * k) v false)
include admits

theorem clientWrite_refused {x : AccCause} (bad : s.clientCheck (s.fld uSched 0x230 11 0) k v = some x) :
    s.clientWrite ini k v = s.accError ini (regAddr uSched (0x240 + 4 * k)) x := by
  simp only [State.clientWrite, guarded_of_admits admits, bad]

/-- A word that passes its check is stored; word 1 starts or ends the client where it changes VALID. -/
theorem clientWrite_passed (ok : s.clientCheck (s.fld uSched 0x230 11 0) k v = none) : s.clientWrite ini k v =
    let c := s.fld uSched 0x230 11 0
    let t := s.wr (wClient c) (4 * k) v
    if k = 1 && bit v 31 && !s.clientValid c then t.clientStart c
    else if k = 1 && s.clientValid c && !bit v 31 then t.clientGone c
    else t := by
  simp only [State.clientWrite, guarded_of_admits admits, ok]

theorem clientWrite_stores (ok : s.clientCheck (s.fld uSched 0x230 11 0) k v = none)
    (same : k ≠ 1 ∨ bit v 31 = s.clientValid (s.fld uSched 0x230 11 0)) :
    s.clientWrite ini k v = s.wr (wClient (s.fld uSched 0x230 11 0)) (4 * k) v := by
  rw [clientWrite_passed admits ok]
  rcases same with other | same
  · simp [other]
  · cases valid : s.clientValid (s.fld uSched 0x230 11 0) <;> simp [same, valid]

end

section
variable {s : State} {ini : Nat} {v : Word} (admits : s.Admits ini uSched (0x240 + 4 * 1) v false)
  (ok : s.clientCheck (s.fld uSched 0x230 11 0) 1 v = none)
include admits ok

theorem clientWrite_starts (on : bit v 31 = true) (idle : s.clientValid (s.fld uSched 0x230 11 0) = false) :
    s.clientWrite ini 1 v = (s.wr (wClient (s.fld uSched 0x230 11 0)) 4 v).clientStart (s.fld uSched 0x230 11 0) := by
  rw [clientWrite_passed admits ok]
  simp [on, idle]

theorem clientWrite_ends (off : bit v 31 = false) (valid : s.clientValid (s.fld uSched 0x230 11 0) = true) :
    s.clientWrite ini 1 v = (s.wr (wClient (s.fld uSched 0x230 11 0)) 4 v).clientGone (s.fld uSched 0x230 11 0) := by
  rw [clientWrite_passed admits ok]
  simp [off, valid]

end

theorem exec_clientWordWrite (ini v : Nat) (s : State) {k : Nat} (lt : k < 16) :
    exec (.clientWordWrite ini k v) s = .next (s.clientWrite ini k (w32 v)) :=
  congrArg (fun j => Host.Outcome.next (s.clientWrite ini j (w32 v))) (Nat.mod_eq_of_lt lt)

/-- Settles O19: an equation for each answer of the calls and each write to a word; what a new record holds, word by word. -/
theorem clientCalls : Obligations.ClientCalls := by
  unfold Obligations.ClientCalls
  refine ⟨?_, ?_, ?_⟩
  · intro ini args s n fits
    refine ⟨fun bad => congrArg _ (callCreateClient_range bad), fun good claim => congrArg _ (callCreateClient_claimed good claim),
      fun good free all => congrArg _ (callCreateClient_full good free all), fun c good free lt idle below => ?_⟩
    have made := callCreateClient_makes good free lt idle below
    obtain ⟨share, ids, ring, order, route, range, word6⟩ := clientWords_rd s args c
    obtain ⟨tail, events⟩ := clientStart_tail (s.clientWords args c) c
    have config : ∀ k, 4 * k < 24 → (((s.clientWords args c).clientStart c).ret OK [w32 c]).cw c k = (s.clientWords args c).rd (wClient c) (4 * k) :=
      fun k lt => (cw_ret ..).trans (clientStart_config _ c lt)
    have wide : ∀ b, b = 0x20 ∨ b = 0x28 ∨ b = 0x30 → (((s.clientWords args c).clientStart c).ret OK [w32 c]).wide64 (wClient c) b = 0 :=
      fun b counter => (wide_ret ..).trans (clientStart_wide _ c counter)
    obtain ⟨lost, phase⟩ := clientStart_clientX (s.clientWords args c) c
    rw [← clientX_ret _ OK [w32 c]] at lost phase
    obtain ⟨regs, memory, marks⟩ := ((clientWords_blockOnly s args c).trans (clientStart_blockOnly (s.clientWords args c) c)).trans
      (.ret _ _ OK [w32 c])
    have zero : setBits (0 : Word) 31 16 0 = 0 := by decide
    rw [word6, zero] at tail
    exact Gives.of rfl made ⟨rfl, (config 0 (by decide)).trans share, (config 1 (by decide)).trans ids,
      (config 2 (by decide)).trans ring, (config 3 (by decide)).trans order, (config 4 (by decide)).trans route,
      (config 5 (by decide)).trans range, (cw_ret ..).trans tail, (cw_ret ..).trans events, wide _ (.inl rfl), wide _ (.inr (.inl rfl)),
      wide _ (.inr (.inr rfl)), lost, phase, regs, memory, marks⟩
  · rintro ini args s c rfl client
    refine ⟨fun own => ⟨fun least most => ?_, ?_⟩, fun other => ⟨fun least most => ?_, ?_⟩⟩
    · exact congrArg _ (callSetShare_own client least most own)
    · exact congrArg _ (callAccounting_own client own)
    · exact congrArg _ (callSetShare_denied client least most other)
    · exact congrArg _ (callAccounting_denied client other)
  · intro ini k v s lt admits c
    have runs : ∀ t, s.clientWrite ini k (w32 v) = t → exec (.clientWordWrite ini k v) s = .next t := fun t e =>
      e ▸ exec_clientWordWrite ini v s lt
    refine ⟨fun x bad => runs _ (clientWrite_refused admits bad), fun ok same => runs _ (clientWrite_stores admits ok same), ?_, ?_⟩
    · rintro ok rfl on idle
      exact runs _ (clientWrite_starts admits ok on idle)
    · rintro ok rfl off valid
      exact runs _ (clientWrite_ends admits ok off valid)

end Sys2Proof.Machine

namespace Sys2Proof.Machine

/-! ## Marks from outside (R255, R256, R269, R449) -/

section
variable (s : State) (ini m : Nat) (write : Bool)

/-- A refused mark access changes registers alone. -/
theorem markDenied_butRegs : ButRegs s (s.markDenied ini m write) := (ButRegs.wr ..).trans (.wr ..)

theorem markDenied_rd : (s.markDenied ini m write).rd uMarks 0x108 =
    w32 (2 ^ 31 + b2n write * 2 ^ 30 + ini % 2 ^ 10 * 2 ^ 16 + m % 2 ^ 16) := by
  rw [State.markDenied, State.count, State.countF, rd_wr_ne _ _ _ _ _ _ (by decide), rd_wr_same]

theorem markDenied_sameRegs : SameRegsBut [(uMarks, 0x108), (uMarks, 0x10C)] s (s.markDenied ini m write) := by
  intro u off lt out
  simp only [List.mem_cons, List.not_mem_nil, or_false, not_or] at out
  rw [State.markDenied, State.count, State.countF, rd_wr_ne _ _ _ _ _ _ (rk_ne lt (by decide) out.2),
    rd_wr_ne _ _ _ _ _ _ (rk_ne lt (by decide) out.1)]

end

/-! ### The window (R255, R449) -/

section
variable {s : State} {ini m : Nat} (allows : s.fwAllows ini (0x10000000 + 4 * m) true = true)
include allows

theorem markWrite_signals (may : s.iniMayMark ini m = true) (v : Nat) :
    s.markWrite ini m v = { s.signalMark m v with reply := ⟨false, []⟩ } := by
  simp [State.markWrite, State.markAccess, allows, may]

theorem markWrite_denied (no : s.iniMayMark ini m = false) (v : Nat) :
    s.markWrite ini m v = ({ s with reply := ⟨true, []⟩ } : State).markDenied ini m true := by
  simp [State.markWrite, State.markAccess, allows, no]

end

theorem exec_markWindowWrite (ini v : Nat) (s : State) {m : Nat} (lt : m < 65536) :
    exec (.markWindowWrite ini m v) s = .next (s.markWrite ini m v) :=
  congrArg (fun k => Host.Outcome.next (s.markWrite ini k v)) (Nat.mod_eq_of_lt lt)

/-! ### MARK_ADD and the calls (R269, R270) -/

theorem markAdd_adds {s : State} {ini m v : Nat} (admits : s.Admits ini uMarks 0x104 (w32 v) true)
    (selected : s.fld (wSel ini) 0x100 15 0 = m) (may : s.iniMayMark ini m = true) : s.markAdd ini v = s.addMark m (v % 2 ^ 32) := by
  simp only [State.markAdd, guarded_of_admits admits, selected, may, if_true]

theorem markAdd_denied {s : State} {ini m v : Nat} (admits : s.Admits ini uMarks 0x104 (w32 v) true)
    (selected : s.fld (wSel ini) 0x100 15 0 = m) (no : s.iniMayMark ini m = false) :
    s.markAdd ini v = (s.markDenied ini m true).accError ini (regAddr uMarks 0x104) .check := by
  simp only [State.markAdd, guarded_of_admits admits, selected, no, Bool.false_eq_true, if_false]

/-- Arguments of calls 0x0109 and 0x010A that name a mark and one of the two ways. -/
def markArgs (args : List Word) : Prop := arg args 0 < 65536 ∧ (arg args 1 = 0 ∨ arg args 1 = 1)

theorem markArgs_inRange {args : List Word} (ok : markArgs args) : (decide (0xFFFF < arg args 0) || decide (1 < arg args 1)) = false := by
  obtain ⟨mark, way⟩ := ok
  simp only [Bool.or_eq_false_iff, decide_eq_false_iff_not]
  omega

section
variable {s : State} {ini : Nat} {args : List Word} (ok : markArgs args)
include ok

theorem callMark_goes (here : args.drop 3 = []) (may : s.iniMayMark ini (arg args 0) = true) : callMark ini args s =
    if s.claimed uMarks then s.ret CLAIMED
    else (if arg args 1 = 0 then s.signalMark (arg args 0) (arg args 2) else s.addMark (arg args 0) (arg args 2)).ret OK := by
  simp only [callMark, markArgs_inRange ok, here, may, Bool.not_true, Bool.false_eq_true, if_false]

theorem callMark_denied (here : args.drop 3 = []) (no : s.iniMayMark ini (arg args 0) = false) : callMark ini args s = s.ret DENIED := by
  simp only [callMark, markArgs_inRange ok, here, no, Bool.not_false, Bool.false_eq_true, if_false, if_true]

theorem callWatch_denied (no : s.iniMayMark ini (arg args 0) = false) : callWatch ini args s = s.ret DENIED := by
  simp only [callWatch, markArgs_inRange ok, no, Bool.not_false, Bool.false_eq_true, if_false, if_true]
  cases s.clientOf ini <;> rfl

/-- The state with watch i set by client c on the mark and the value that the arguments name. -/
def State.watchSet (s : State) (i c : Nat) (args : List Word) : State :=
  { s with watches := s.watches ++ [⟨i, c, arg args 0, arg args 1 = 1, arg args 2⟩] }

/-- The lowest free watch is taken; it is posted at once where its condition holds. -/
theorem callWatch_sets {c i : Nat} (may : s.iniMayMark ini (arg args 0) = true) (free : s.claimed uMarks = false)
    (client : s.clientOf ini = some c) (lt : i < 256) (unused : ∀ w ∈ s.watches, w.idx ≠ i)
    (below : ∀ j, j < i → ∃ w ∈ s.watches, w.idx = j) : callWatch ini args s =
      (if markOk (s.mark (arg args 0)) (arg args 2) (arg args 1 = 1) then
        (s.watchSet i c args).fireWatches (arg args 0) (s.mark (arg args 0))
      else (s.watchSet i c args).watchSync).ret OK [w32 i] := by
  have found : lowest 256 (fun j => !s.watches.any (·.idx = j)) = some i :=
    lowest_some lt (by simpa using unused) fun j k => by simpa using below j k
  simp only [callWatch, markArgs_inRange ok, client, may, free, found, Bool.not_true, Bool.false_eq_true, if_false]
  rfl

end

/-- Settles O20: an equation for each answer of the window, of MARK_ADD and of the two calls. -/
theorem marksFromOutside : Obligations.MarksFromOutside := by
  unfold Obligations.MarksFromOutside
  intro ini m v s lt
  refine ⟨fun allows may => ?_, fun allows no => ?_, fun admits selected may => congrArg _ (markAdd_adds admits selected may),
    fun admits selected no => congrArg _ (markAdd_denied admits selected no), ?_⟩
  · exact (exec_markWindowWrite ini v s lt).trans (congrArg _ (markWrite_signals allows may v))
  · have small : m % 2 ^ 16 = m := Nat.mod_eq_of_lt lt
    have recorded := markDenied_rd ({ s with reply := ⟨true, []⟩ } : State) ini m true
    rw [small] at recorded
    have only := markDenied_butRegs ({ s with reply := ⟨true, []⟩ } : State) ini m true
    refine Gives.of (exec_markWindowWrite ini v s lt) (markWrite_denied allows no v) ⟨?_, only.sameMarks, only.sameMemory, recorded,
      markDenied_sameRegs _ ini m true⟩
    rw [State.markDenied, State.count_reply, State.wr_reply]
  · rintro args rfl way here
    have ok : markArgs args := ⟨lt, way⟩
    refine ⟨fun may => congrArg _ (callMark_goes ok here may), fun no => ⟨congrArg _ (callMark_denied ok here no),
      congrArg _ (callWatch_denied ok no)⟩, fun c i may free client small unused below => ?_⟩
    exact congrArg _ (callWatch_sets ok may free client small unused below)

end Sys2Proof.Machine

namespace Sys2Proof.Machine

/-! ## Queue calls (R245, R246, R249, R250, R262, R266, R268, R270) -/

/-! ### Doorbells and reloads (R246, R249, R268) -/

theorem exec_doorbell {s : State} {ini q : Nat} (lt : q < 2 ^ 20) (admits : s.Admits ini uSched 0x20C (w32 q) true) :
    exec (.doorbell ini q) s = .next (s.doorbell q).vtSync := by
  have rings := guarded_of_admits admits fun t => (t.doorbell (q % 2 ^ 20)).vtSync
  exact congrArg _ (rings.trans (by rw [Nat.mod_eq_of_lt lt]))

theorem exec_qinval {s : State} {ini q : Nat} (lt : q < 2 ^ 20) (admits : s.Admits ini uSched 0x210 (w32 q) false) :
    exec (.qinval ini q) s = .next (s.qinval q).vtSync := by
  have reloads := guarded_of_admits admits fun t => (t.qinval (q % 2 ^ 20)).vtSync
  exact congrArg _ (reloads.trans (by rw [Nat.mod_eq_of_lt lt]))

theorem qinval_absent {s : State} {q : Nat} (absent : s.slot q = none) : s.qinval q = s := by
  simp only [State.qinval, absent]

/-- A reload waits while a command of the queue runs. -/
theorem qinval_running {s : State} {q : Nat} {x : QSlot} (slot : s.slot q = some x) (runs : x.running.isSome = true) :
    s.qinval q = s.updSlot q fun y => { y with reload := true } := by
  simp only [State.qinval, slot, runs, if_true]

theorem qinval_idle {s : State} {q : Nat} {x : QSlot} (slot : s.slot q = some x) (idle : x.running = none) :
    s.qinval q = s.reloadNow q := by
  simp only [State.qinval, slot, idle, Option.isSome_none, Bool.false_eq_true, if_false]

/-! ### A cached queue -/

theorem slot_id {s : State} {q : Nat} {x : QSlot} (slot : s.slot q = some x) : x.id = q := by
  simpa [State.slot] using List.find?_some slot

theorem loadQueue_cached {s : State} {q : Nat} {x : QSlot} (slot : s.slot q = some x) :
    s.loadQueue q = { s with qcache := x :: s.qcache.filter (·.id != q) } := by
  simp only [State.loadQueue, slot]

theorem loadQueue_slot {s : State} {q : Nat} {x : QSlot} (slot : s.slot q = some x) : (s.loadQueue q).slot q = some x := by
  rw [loadQueue_cached slot]
  exact List.find?_cons_of_pos (decide_eq_true (slot_id slot))

/-! ### The answers of the calls -/

section
variable {s : State} {ini : Nat} {args : List Word} (small : arg args 0 ≤ 0xFFFFF)
include small

section
variable (no : s.ownsQueue ini (arg args 0) = false)
include no

theorem callReadQueue_denied : callReadQueue ini args s = s.ret DENIED := by
  simp only [callReadQueue, if_neg (Nat.not_lt.mpr small), no, Bool.not_false, if_true]

theorem callReleaseReservation_denied : callReleaseReservation ini args s = s.ret DENIED := by
  simp only [callReleaseReservation, if_neg (Nat.not_lt.mpr small), no, Bool.not_false, if_true]

theorem callQueueAction_denied (act : arg args 1 ≤ 2) : callQueueAction ini args s = s.ret DENIED := by
  simp [callQueueAction, Nat.not_lt.mpr small, Nat.not_lt.mpr act, no]

theorem callResolveStall_denied (way : arg args 1 ≤ 1) : callResolveStall ini args s = s.ret DENIED := by
  simp [callResolveStall, Nat.not_lt.mpr small, Nat.not_lt.mpr way, no]

theorem callDeleteQueue_denied (made : s.queueMade (arg args 0) = true) : callDeleteQueue ini args s = s.ret DENIED := by
  simp [callDeleteQueue, Nat.not_lt.mpr small, made, no]

end

section
variable (mine : s.ownsQueue ini (arg args 0) = true)
include mine

theorem callReadQueue_own : callReadQueue ini args s = s.ret OK (s.qWords (arg args 0)) := by
  simp only [callReadQueue, if_neg (Nat.not_lt.mpr small), mine, Bool.not_true, Bool.false_eq_true, if_false]

theorem callReleaseReservation_claimed (claim : s.claimed uSched = true ∨ s.reservClaimed (arg args 0) = true) :
    callReleaseReservation ini args s = s.ret CLAIMED := by
  simp [callReleaseReservation, Nat.not_lt.mpr small, mine, claim]

theorem callDeleteQueue_claimed (claim : s.claimed uSched = true ∨ s.reservClaimed (arg args 0) = true)
    (made : s.queueMade (arg args 0) = true) : callDeleteQueue ini args s = s.ret CLAIMED := by
  simp [callDeleteQueue, Nat.not_lt.mpr small, made, mine, claim]

theorem callQueueAction_claimed (claim : s.claimed uSched = true) (act : arg args 1 ≤ 2) : callQueueAction ini args s = s.ret CLAIMED := by
  simp [callQueueAction, Nat.not_lt.mpr small, Nat.not_lt.mpr act, mine, claim]

theorem callResolveStall_claimed (claim : s.claimed uSched = true) (way : arg args 1 ≤ 1) :
    callResolveStall ini args s = s.ret CLAIMED := by
  simp [callResolveStall, Nat.not_lt.mpr small, Nat.not_lt.mpr way, mine, claim]

section
variable (free : s.claimed uSched = false)
include free

/-! ### Call 0x0107 -/

section
variable (unclaimed : s.reservClaimed (arg args 0) = false)
include unclaimed

theorem callReleaseReservation_busy (waits : s.callWaits 0x0107 (arg args 0) = true) :
    callReleaseReservation ini args s = s.ret UNIT_BUSY := by
  simp [callReleaseReservation, Nat.not_lt.mpr small, mine, free, unclaimed, waits]

variable (first : s.callWaits 0x0107 (arg args 0) = false)
include first

theorem callReleaseReservation_absent (absent : s.slot (arg args 0) = none) : callReleaseReservation ini args s = s.ret OK := by
  simp [callReleaseReservation, Nat.not_lt.mpr small, mine, free, unclaimed, first, absent]

theorem callReleaseReservation_drops {x : QSlot} (slot : s.slot (arg args 0) = some x)
    (idle : s.reservOf (arg args 0) = none ∨ x.running = none) :
    callReleaseReservation ini args s = (s.dropReserv (arg args 0)).ret OK := by
  have ends : ((s.reservOf (arg args 0)).isSome && x.running.isSome) = false := by
    rcases idle with none_ | idle
    · simp [none_]
    · simp [idle]
  simp [callReleaseReservation, Nat.not_lt.mpr small, mine, free, unclaimed, first, slot, ends]

/-- The reservation of a queue that runs a command is released when the command ends. -/
theorem callReleaseReservation_waits {x : QSlot} (slot : s.slot (arg args 0) = some x)
    (reserved : (s.reservOf (arg args 0)).isSome = true) (runs : x.running.isSome = true) : callReleaseReservation ini args s =
      ({ s with reservs := s.reservs.map fun r => if r.queue = arg args 0 then { r with releasing := true } else r } : State).retPending
        0x0107 (arg args 0) := by
  simp [callReleaseReservation, Nat.not_lt.mpr small, mine, free, unclaimed, first, slot, reserved, runs]

end

/-! ### Call 0x0105 -/

section
variable {x : QSlot} (slot : (s.loadQueue (arg args 0)).slot (arg args 0) = some x)
include slot

theorem callQueueAction_busy (halting : x.halting = true) (act : arg args 1 ≤ 2) :
    callQueueAction ini args s = (s.loadQueue (arg args 0)).ret QUEUE_BUSY := by
  simp [callQueueAction, Nat.not_lt.mpr small, Nat.not_lt.mpr act, mine, free, slot, halting]

variable (steady : x.halting = false)
include steady

theorem callQueueAction_enables (act : arg args 1 = 0) : callQueueAction ini args s =
    let t := s.loadQueue (arg args 0)
    ((t.setQBit (arg args 0) 8 true).wrN (t.qAddr (arg args 0) + 8) 4 (setBit (t.rdW (t.qAddr (arg args 0) + 8)) 8 true).toNat).vtSync.ret
      OK := by
  simp [callQueueAction, Nat.not_lt.mpr small, act, mine, free, slot, steady]

theorem callQueueAction_halts (act : arg args 1 = 1) (idle : x.running = none) :
    callQueueAction ini args s = ((s.loadQueue (arg args 0)).haltQueue (arg args 0) 5).ret OK := by
  simp [callQueueAction, Nat.not_lt.mpr small, act, mine, free, slot, steady, idle]

/-- The halt of a queue that runs a command is over when the command ends. -/
theorem callQueueAction_halting (act : arg args 1 = 1) (runs : x.running.isSome = true) : callQueueAction ini args s =
    (((s.loadQueue (arg args 0)).haltQueue (arg args 0) 5).updSlot (arg args 0) fun z => { z with halting := true }).retPending 0x0105
      (arg args 0) := by
  simp [callQueueAction, Nat.not_lt.mpr small, act, mine, free, slot, steady, runs]

theorem callQueueAction_resumes (act : arg args 1 = 2) :
    callQueueAction ini args s = ((s.loadQueue (arg args 0)).setQBit (arg args 0) 14 false).vtSync.ret OK := by
  simp [callQueueAction, Nat.not_lt.mpr small, act, mine, free, slot, steady]

end

/-! ### Call 0x0108 -/

theorem callResolveStall_none (way : arg args 1 ≤ 1) (none_ : ∀ r ∈ s.ctxs, r.queue = arg args 0 → r.ctx.isMill = true ∨ r.xlStalled = false) :
    callResolveStall ini args s = s.ret NO_STALL := by
  have absent : s.ctxs.find? (fun r => r.queue = arg args 0 && !r.ctx.isMill && r.xlStalled) = none := by
    rw [List.find?_eq_none]
    intro r here stalled
    simp only [Bool.and_eq_true, decide_eq_true_eq, Bool.not_eq_true'] at stalled
    obtain ⟨⟨own, command⟩, stall⟩ := stalled
    rcases none_ r here own with mill | going
    · rw [mill] at command
      cases command
    · rw [going] at stall
      cases stall
  simp [callResolveStall, Nat.not_lt.mpr small, Nat.not_lt.mpr way, mine, free, absent]

section
variable {r : CtxRun} (found : s.ctxs.find? (fun r => r.queue = arg args 0 && !r.ctx.isMill && r.xlStalled) = some r)
include found

theorem callResolveStall_restarts (way : arg args 1 = 1) : callResolveStall ini args s = (s.restart r).ret OK := by
  simp only [callResolveStall, way, mine, free, found]
  simp [Nat.not_lt.mpr small]

theorem callResolveStall_resumes (way : arg args 1 = 0) : callResolveStall ini args s =
    (((r.issued.filter fun i => i.wait = .xlate).map (·.unit)).eraseDups.foldl (fun t u => t.retryMove r.ctx u) s).ret OK := by
  simp only [callResolveStall, way, mine, free, found]
  simp [Nat.not_lt.mpr small]

end

end

end

end

/-! ### Call 0x0104 -/

/-- Queue q of the state that a deletion starts from: most recently used, and marked. -/
def State.markedGone (s : State) (q : Nat) : State := (s.loadQueue q).updSlot q fun y => { y with deleting := true }

/-- The queue's descriptor leaves the table and the cache, and a call that waits for that ends. -/
def State.queueErased (t : State) (q : Nat) : State :=
  ({ t.wrN (t.qAddr q + 8) 4 0 with qcache := t.qcache.filter (·.id != q) } : State).cacheSync.finish 0x0104 q OK

theorem markedGone_slot {s : State} {q : Nat} {x : QSlot} (slot : s.slot q = some x) :
    (s.markedGone q).slot q = some { x with deleting := true } := by
  rw [State.markedGone, slot_updSlot _ _ (fun y => { y with deleting := true }) fun _ => rfl, loadQueue_slot slot]
  rfl

theorem markedGone_reservs {s : State} {q : Nat} {x : QSlot} (slot : s.slot q = some x) : (s.markedGone q).reservs = s.reservs := by
  rw [State.markedGone, loadQueue_cached slot]
  rfl

theorem markedGone_queueParcels {s : State} {q : Nat} {x : QSlot} (slot : s.slot q = some x) :
    (s.markedGone q).queueParcels q = s.queueParcels q := by
  rw [State.markedGone, loadQueue_cached slot]
  rfl

/-- No reservation is marked as ending where the queue has none. -/
theorem releasing_none {s : State} {q : Nat} (none_ : s.reservOf q = none) :
    (s.reservs.map fun r => if r.queue = q then { r with releasing := true } else r) = s.reservs := by
  conv_rhs => rw [← List.map_id s.reservs]
  refine List.map_congr_left fun r here => if_neg fun own => ?_
  exact absurd (decide_eq_true own) (List.find?_eq_none.mp none_ r here)

theorem queueGone_erases {t : State} {q : Nat} {y : QSlot} (slot : t.slot q = some y) (deleting : y.deleting = true)
    (idle : y.running = none) (alone : t.queueParcels q = []) : t.queueGone q = t.queueErased q := by
  have none_ : (t.validParcels.any fun p => t.pclKind p != 0 && t.pclQueue p = q) = false := by
    rw [List.any_eq_false]
    exact fun p here => List.filter_eq_nil_iff.mp alone p here
  have cache : (t.wrN (t.qAddr q + 8) 4 0).qcache = t.qcache := by rw [State.wrN, setBytes_eq]
  simp only [State.queueGone, slot, deleting, idle, none_, cache]
  rfl

theorem cacheSync_qcache (s : State) : s.cacheSync.qcache = s.qcache := by
  simp only [State.cacheSync, State.setFld_qcache]

theorem finish_qcache (s : State) (num key status : Nat) (words : List Word) : (s.finish num key status words).qcache = s.qcache := rfl

theorem queueErased_slot (t : State) (q : Nat) : (t.queueErased q).slot q = none := by
  have cache : (t.queueErased q).qcache = t.qcache.filter (·.id != q) := by
    rw [State.queueErased, finish_qcache, cacheSync_qcache]
  rw [State.slot, cache, List.find?_eq_none]
  intro x here
  simpa using (List.mem_filter.mp here).2

section
variable {s : State} {ini : Nat} {args : List Word} (small : arg args 0 ≤ 0xFFFFF) (mine : s.ownsQueue ini (arg args 0) = true)
  (free : s.claimed uSched = false) (made : s.queueMade (arg args 0) = true) (alone : s.queueParcels (arg args 0) = [])
include small mine free made alone

theorem callDeleteQueue_busy (unclaimed : s.reservClaimed (arg args 0) = false) (waits : s.callWaits 0x0104 (arg args 0) = true) :
    callDeleteQueue ini args s = s.ret UNIT_BUSY := by
  simp [callDeleteQueue, Nat.not_lt.mpr small, made, mine, free, unclaimed, alone, waits]

variable {x : QSlot} (first : s.callWaits 0x0104 (arg args 0) = false) (slot : s.slot (arg args 0) = some x)
  (none_ : s.reservOf (arg args 0) = none)
include first slot none_

/-- The deletion of a queue with neither parcels nor a reservation, once the call is let through. -/
theorem callDeleteQueue_goes : callDeleteQueue ini args s =
    let t := s.markedGone (arg args 0)
    let u := if x.running.isNone then t.queueGone (arg args 0) else t
    if (u.slot (arg args 0)).isSome then u.retPending 0x0104 (arg args 0) else u.ret OK := by
  have unclaimed : s.reservClaimed (arg args 0) = false := by rw [State.reservClaimed, none_]; rfl
  have kept : ({ s.markedGone (arg args 0) with reservs := (s.markedGone (arg args 0)).reservs.map (fun r =>
      if r.queue = arg args 0 then { r with releasing := true } else r) } : State) = s.markedGone (arg args 0) := by
    rw [markedGone_reservs slot, releasing_none none_, ← markedGone_reservs slot]
  have dropped : (s.markedGone (arg args 0)).dropReserv (arg args 0) = s.markedGone (arg args 0) := by
    have unreserved : (s.markedGone (arg args 0)).reservOf (arg args 0) = none := by
      rw [State.reservOf, markedGone_reservs slot]
      exact none_
    simp only [State.dropReserv, unreserved]
  have asked : (decide (0xFFFFF < arg args 0) || !s.queueMade (arg args 0)) = false := by simp [Nat.not_lt.mpr small, made]
  have marked := markedGone_slot slot
  simp only [State.markedGone] at kept dropped marked ⊢
  simp only [callDeleteQueue, asked, mine, free, unclaimed, alone, first, List.foldl_nil, kept, dropped, marked]
  rfl

theorem callDeleteQueue_waits (runs : x.running.isSome = true) :
    callDeleteQueue ini args s = (s.markedGone (arg args 0)).retPending 0x0104 (arg args 0) := by
  rw [callDeleteQueue_goes small mine free made alone first slot none_]
  have busy : x.running.isNone = false := by rw [← Option.not_isSome, runs]; rfl
  simp only [busy, Bool.false_eq_true, if_false, markedGone_slot slot, Option.isSome_some, if_true]

theorem callDeleteQueue_erases (idle : x.running = none) :
    callDeleteQueue ini args s = ((s.markedGone (arg args 0)).queueErased (arg args 0)).ret OK := by
  rw [callDeleteQueue_goes small mine free made alone first slot none_]
  have gone := queueGone_erases (markedGone_slot slot) rfl idle ((markedGone_queueParcels slot).trans alone)
  simp only [idle, Option.isNone_none, if_true, gone, queueErased_slot, Option.isSome_none, Bool.false_eq_true, if_false]

end

/-- Settles O21: an equation for each answer of the calls and each of the register writes. -/
theorem queueCalls : Obligations.QueueCalls := by
  unfold Obligations.QueueCalls
  refine ⟨fun ini q s lt => ⟨exec_doorbell lt, fun admits absent => ?_, fun x admits slot runs => ?_, fun x admits slot idle => ?_,
    fun admits => congrArg _ (guarded_of_admits admits _)⟩, ?_⟩
  · exact (exec_qinval lt admits).trans (by rw [qinval_absent absent])
  · exact (exec_qinval lt admits).trans (by rw [qinval_running slot runs])
  · exact (exec_qinval lt admits).trans (by rw [qinval_idle slot idle])
  rintro ini q args s rfl small
  refine ⟨fun no => ⟨?_, ?_, fun act => ?_, fun way => ?_, fun made => ?_⟩, fun mine claim => ⟨?_, fun act => ?_, fun way => ?_,
    fun made => ?_⟩, fun mine claim => ⟨?_, fun made => ?_⟩, fun mine => ?_, fun mine free => ⟨fun unclaimed waits => ?_,
    fun unclaimed first absent => ?_, fun x unclaimed first slot idle => ?_, fun x unclaimed first slot reserved runs => ?_,
    fun x slot halting act => ?_, fun x slot steady act => ?_, fun x slot steady act idle => ?_, fun x slot steady act runs => ?_,
    fun x slot steady act => ?_, fun way none_ => ?_, fun r found => ?_,
    fun x made first slot alone none_ => ?_, fun made unclaimed alone waits => ?_⟩⟩
  · exact congrArg _ (callReadQueue_denied small no)
  · exact congrArg _ (callReleaseReservation_denied small no)
  · exact congrArg _ (callQueueAction_denied small no act)
  · exact congrArg _ (callResolveStall_denied small no way)
  · exact congrArg _ (callDeleteQueue_denied small no made)
  · exact congrArg _ (callReleaseReservation_claimed small mine (.inl claim))
  · exact congrArg _ (callQueueAction_claimed small mine claim act)
  · exact congrArg _ (callResolveStall_claimed small mine claim way)
  · exact congrArg _ (callDeleteQueue_claimed small mine (.inl claim) made)
  · exact congrArg _ (callReleaseReservation_claimed small mine (.inr claim))
  · exact congrArg _ (callDeleteQueue_claimed small mine (.inr claim) made)
  · exact congrArg _ (callReadQueue_own small mine)
  · exact congrArg _ (callReleaseReservation_busy small mine free unclaimed waits)
  · exact congrArg _ (callReleaseReservation_absent small mine free unclaimed first absent)
  · exact congrArg _ (callReleaseReservation_drops small mine free unclaimed first slot idle)
  · refine Gives.of rfl (callReleaseReservation_waits small mine free unclaimed first slot reserved runs) ⟨rfl, rfl, fun r here own => ?_⟩
    obtain ⟨old, -, rfl⟩ := List.mem_map.mp here
    by_cases named : old.queue = arg args 0
    · rw [if_pos named]
    · rw [if_neg named] at own
      exact absurd own named
  · exact congrArg _ (callQueueAction_busy small mine free slot halting act)
  · exact congrArg _ (callQueueAction_enables small mine free slot steady act)
  · exact congrArg _ (callQueueAction_halts small mine free slot steady act idle)
  · exact congrArg _ (callQueueAction_halting small mine free slot steady act runs)
  · exact congrArg _ (callQueueAction_resumes small mine free slot steady act)
  · exact congrArg _ (callResolveStall_none small mine free way none_)
  · exact ⟨fun way => congrArg _ (callResolveStall_restarts small mine free found way),
      fun way => congrArg _ (callResolveStall_resumes small mine free found way)⟩
  · exact ⟨fun runs => congrArg _ (callDeleteQueue_waits small mine free made alone first slot none_ runs),
      fun idle => congrArg _ (callDeleteQueue_erases small mine free made alone first slot none_ idle)⟩
  · exact congrArg _ (callDeleteQueue_busy small mine free made alone unclaimed waits)

end Sys2Proof.Machine

namespace Sys2Proof.Machine

/-! ## Making queues and reservations (R244, R248, R250, R261, R262, R516) -/

theorem slot_of_not_made {s : State} {q : Nat} (new : s.queueMade q = false) : s.slot q = none := by
  simp only [State.queueMade, Bool.or_eq_false_iff, Option.isSome_eq_false_iff, Option.isNone_iff_eq_none] at new
  exact new.1

/-- Where fewer than 1024 queues are kept, one more may be pinned, kept before or not. -/
theorem pin_fits {s : State} {pin : Bool} (room : pin = true → s.pinnedNow < 1024) (kept : Bool) :
    (pin && !kept && decide (1024 ≤ s.pinnedNow)) = false := by
  cases pin with
  | false => rfl
  | true => rw [decide_eq_false (Nat.not_le.mpr (room rfl)), Bool.and_false]

/-- A queue kept before needs no room. -/
theorem keep_fits {s : State} {x : QSlot} (room : s.qKept x = true ∨ s.pinnedNow < 1024) :
    (!s.qKept x && decide (1024 ≤ s.pinnedNow)) = false := by
  rcases room with kept | room
  · rw [kept]
    rfl
  · rw [decide_eq_false (Nat.not_le.mpr room), Bool.and_false]

/-! ### Call 0x0103 -/

/-- The descriptor that a call writes into the table: the rings' places of a queue already made stay (R250). -/
def State.newDesc (s : State) (q : Nat) (args : List Word) : List Word :=
  if s.queueMade q then keepRO (descOf args false) (s.rdWs (s.qAddr q) 16) else descOf args true

theorem newDesc_new {s : State} {q : Nat} {args : List Word} (new : s.queueMade q = false) : s.newDesc q args = descOf args true := by
  simp only [State.newDesc, new, Bool.false_eq_true, if_false]

theorem newDesc_made {s : State} {q : Nat} {args : List Word} (made : s.queueMade q = true) :
    s.newDesc q args = keepRO (descOf args false) (s.rdWs (s.qAddr q) 16) := by
  simp only [State.newDesc, made, if_true]

/-- How a call answers that has written queue q's descriptor: PENDING where the cached copy reloads later. -/
def State.queueWritten (t : State) (q : Nat) : State :=
  match t.slot q with
  | some x => if x.reload then t.retPending 0x0103 q [w32 q] else t.vtSync.ret OK [w32 q]
  | none => t.ret OK [w32 q]

theorem queueWritten_absent {t : State} {q : Nat} (absent : t.slot q = none) : t.queueWritten q = t.ret OK [w32 q] := by
  simp only [State.queueWritten, absent]

theorem queueWritten_later {t : State} {q : Nat} {x : QSlot} (slot : t.slot q = some x) (later : x.reload = true) :
    t.queueWritten q = t.retPending 0x0103 q [w32 q] := by
  simp only [State.queueWritten, slot, later, if_true]

theorem queueWritten_now {t : State} {q : Nat} {x : QSlot} (slot : t.slot q = some x) (now : x.reload = false) :
    t.queueWritten q = t.vtSync.ret OK [w32 q] := by
  simp only [State.queueWritten, slot, now, Bool.false_eq_true, if_false]

theorem exec_createOrChangeQueue (ini : Nat) (args : List Word) (s : State) :
    exec (.createOrChangeQueue ini args) s = .next (callQueue ini args s) := rfl

section
variable {s : State} {ini : Nat} {args : List Word} (small : arg args 0 ≤ 0xFFFFF) (fits : descBad args = false)
  (valid : ¬(1 ≤ s.qInvalid 0x100000 (descOf args true) ∧ s.qInvalid 0x100000 (descOf args true) ≤ 3))
include small fits valid

theorem descriptor_accepted : (decide (0xFFFFF < arg args 0) || descBad args ||
    (decide (1 ≤ s.qInvalid 0x100000 (descOf args true)) && decide (s.qInvalid 0x100000 (descOf args true) ≤ 3))) = false := by
  rw [fits, decide_eq_false (Nat.not_lt.mpr small), ← Bool.decide_and, decide_eq_false valid]
  rfl

theorem callQueue_denied (other : s.clientOf ini ≠ some (qClient (descOf args true))) : callQueue ini args s = s.ret DENIED := by
  simp only [callQueue, descriptor_accepted small fits valid, Bool.false_eq_true, if_false, bne_iff_ne, ne_eq, other, not_false_eq_true, if_true]

variable (own : s.clientOf ini = some (qClient (descOf args true)))
include own

theorem callQueue_claimed (claim : s.claimed uSched = true) : callQueue ini args s = s.ret CLAIMED := by
  simp only [callQueue, descriptor_accepted small fits valid, Bool.false_eq_true, if_false, own, bne_self_eq_false, claim, if_true]

variable (free : s.claimed uSched = false) {q : Nat}
  (named : (if arg args 0 = 0xFFFFF then s.freeQueue 1048576 0 else some (arg args 0)) = some q)
include free named

theorem callQueue_foreign (made : s.queueMade q = true) (no : s.ownsQueue ini q = false) : callQueue ini args s = s.ret DENIED := by
  simp only [callQueue, descriptor_accepted small fits valid, Bool.false_eq_true, if_false, own, bne_self_eq_false, free, named, made, no,
    Bool.not_false, Bool.and_self, if_true]

theorem callQueue_writes (first : s.callWaits 0x0103 q = false) (room : qPin (descOf args true) = true → s.pinnedNow < 1024)
    (table : regionOf s.part (s.qAddr q) = .lpddr) (mine : s.queueMade q = true → s.ownsQueue ini q = true) :
    callQueue ini args s = ((s.wrWs (s.qAddr q) (s.newDesc q args)).qinval q).queueWritten q := by
  have owned : (s.queueMade q && !s.ownsQueue ini q) = false := by
    cases made : s.queueMade q with
    | false => rfl
    | true => rw [mine made]; rfl
  simp only [callQueue, descriptor_accepted small fits valid, own, free, named, owned, first, table, pin_fits room, bne_self_eq_false,
    Bool.false_eq_true, if_false]
  rfl

theorem callQueue_makes (first : s.callWaits 0x0103 q = false) (room : qPin (descOf args true) = true → s.pinnedNow < 1024)
    (table : regionOf s.part (s.qAddr q) = .lpddr) (new : s.queueMade q = false) :
    callQueue ini args s = (s.wrWs (s.qAddr q) (descOf args true)).ret OK [w32 q] := by
  have absent : (s.wrWs (s.qAddr q) (descOf args true)).slot q = none := (wrWs_slot ..).trans (slot_of_not_made new)
  rw [callQueue_writes small fits valid own free named first room table fun made => absurd made (Bool.eq_false_iff.mp new), newDesc_new new,
    qinval_absent absent, queueWritten_absent absent]

theorem callQueue_changes (first : s.callWaits 0x0103 q = false) (room : qPin (descOf args true) = true → s.pinnedNow < 1024)
    (table : regionOf s.part (s.qAddr q) = .lpddr) (made : s.queueMade q = true) (mine : s.ownsQueue ini q = true) :
    callQueue ini args s = ((s.wrWs (s.qAddr q) (keepRO (descOf args false) (s.rdWs (s.qAddr q) 16))).qinval q).queueWritten q := by
  rw [callQueue_writes small fits valid own free named first room table fun _ => mine, newDesc_made made]

end

/-! ### Call 0x0106 -/

/-- One more reservation, at the end of the list. -/
def State.withReserv (t : State) (r : Reserv) : State := { t with reservs := t.reservs ++ [r] }

/-- The reservation that a call asks for. -/
def askedReserv (args : List Word) (x : Ctx) : Reserv :=
  ⟨arg args 0, x, if unitClass (arg args 1) = some .tc then arg args 2 else 0, arg args 3, arg args 4 = 1, false, false⟩

section
variable {s : State} {ini : Nat} {args : List Word} (small : arg args 0 ≤ 0xFFFFF)
  (tiles : unitClass (arg args 1) = some .tc → 1 ≤ arg args 2 ∧ arg args 2 ≤ 255) (corner : arg args 3 ≤ 5) (hot : arg args 4 ≤ 1)
include small tiles corner hot

theorem reservation_in_range : (decide (0xFFFFF < arg args 0) ||
    (decide (unitClass (arg args 1) = some .tc) && (decide (arg args 2 = 0) || decide (255 < arg args 2))) ||
    decide (5 < arg args 3) || decide (1 < arg args 4)) = false := by
  simp only [Bool.or_eq_false_iff, Bool.and_eq_false_iff, decide_eq_false_iff_not]
  refine ⟨⟨⟨Nat.not_lt.mpr small, ?_⟩, Nat.not_lt.mpr corner⟩, Nat.not_lt.mpr hot⟩
  by_cases tc : unitClass (arg args 1) = some .tc
  · obtain ⟨some_, fit⟩ := tiles tc
    exact .inr ⟨by omega, by omega⟩
  · exact .inl tc

variable {x : Ctx} (unit : reservCtx (arg args 1) = some x)
include unit

theorem callReserve_denied (no : s.ownsQueue ini (arg args 0) = false) : callReserve ini args s = s.ret DENIED := by
  simp only [callReserve, unit, reservation_in_range small tiles corner hot, no, Bool.not_false, Bool.false_eq_true, if_false, if_true]

variable (mine : s.ownsQueue ini (arg args 0) = true) (may : s.Changeable (arg args 1))
include mine may

theorem callReserve_claimed (claim : s.claimed uSched = true) : callReserve ini args s = s.ret CLAIMED := by
  simp only [callReserve, unit, reservation_in_range small tiles corner hot, mine, mayChange_of may, claim, Bool.not_true,
    Bool.false_eq_true, bne_self_eq_false, if_false, if_true]

variable (free : s.claimed uSched = false)
include free

theorem callReserve_already (taken : (s.reservOf (arg args 0)).isSome = true ∨ s.reservs.any (·.ctx = x) = true) :
    callReserve ini args s = s.ret RESERVED_ALREADY := by
  have reserved : ((s.reservOf (arg args 0)).isSome || s.reservs.any (·.ctx = x)) = true := Bool.or_eq_true .. ▸ taken
  simp only [callReserve, unit, reservation_in_range small tiles corner hot, mine, mayChange_of may, free, reserved, Bool.not_true,
    Bool.false_eq_true, bne_self_eq_false, if_false, if_true]

variable (alone : s.reservOf (arg args 0) = none) (untaken : s.reservs.any (·.ctx = x) = false)
include alone untaken

theorem callReserve_refused (high : capPoint s.part s.capW < arg args 3) : callReserve ini args s = s.ret REFUSED [2] := by
  simp only [callReserve, unit, reservation_in_range small tiles corner hot, mine, mayChange_of may, free, alone, untaken, high,
    Option.isSome_none, Bool.or_self, Bool.not_true, Bool.false_eq_true, bne_self_eq_false, if_false, if_true]

theorem callReserve_reserves (reached : arg args 3 ≤ capPoint s.part s.capW) {t : State} {y : QSlot} (load : s.loadQueue (arg args 0) = t)
    (slot : t.slot (arg args 0) = some y) (room : t.qKept y = true ∨ t.pinnedNow < 1024)
    (single : unitClass (arg args 1) = some .tc → t.gangOf (arg args 1 - 0x10) = none) (plain : qXlate (t.qWords (arg args 0)) = false)
    (ring : regionOf t.part (qRing (t.qWords (arg args 0))) ≠ .host) (comp : regionOf t.part (qComp (t.qWords (arg args 0))) ≠ .host) :
    callReserve ini args s =
      if (t.withReserv (askedReserv args x)).reservReady (askedReserv args x) then
        ((t.withReserv (askedReserv args x)).reservOn (askedReserv args x)).ret OK
      else (t.withReserv (askedReserv args x)).cacheSync.startStep.retPending 0x0106 (arg args 0) := by
  have ungang : (decide (unitClass (arg args 1) = some .tc) && (t.gangOf (arg args 1 - 0x10)).isSome) = false := by
    by_cases tc : unitClass (arg args 1) = some .tc
    · rw [single tc, Option.isSome_none, Bool.and_false]
    · rw [decide_eq_false tc, Bool.false_and]
  subst load
  simp only [callReserve, unit, reservation_in_range small tiles corner hot, mine, mayChange_of may, free, alone, untaken,
    Nat.not_lt.mpr reached, slot, ungang, plain, ring, comp, keep_fits room, Option.isSome_none, Bool.or_self, Bool.not_true, Bool.false_eq_true,
    bne_self_eq_false, if_false, decide_false]
  rfl

end

/-! ### A reservation that waits for VDD_CORE (R261, R516) -/

theorem exec_reservationEffective (s : State) {q : Nat} (lt : q < 2 ^ 20) :
    exec (.reservationEffective q) s = .next (s.reservEffective q) :=
  congrArg (fun i => Host.Outcome.next (s.reservEffective i)) (Nat.mod_eq_of_lt lt)

theorem reservEffective_found {s : State} {q : Nat} {r : Reserv}
    (found : s.reservs.find? (fun r => r.queue = q && !r.active && !r.releasing) = some r) :
    s.reservEffective q = if s.reservReady r then (s.reservOn r).finish 0x0106 q OK else s := by
  simp only [State.reservEffective, found]

/-- Settles O28: an equation for each answer of the two calls, and for a waiting reservation whose corner is reached. -/
theorem queuesAndReservations : Obligations.QueuesAndReservations := by
  unfold Obligations.QueuesAndReservations
  refine ⟨?_, ?_, ?_⟩
  · intro ini args s n d small fits valid
    refine ⟨fun other => congrArg _ (callQueue_denied small fits valid other),
      fun own claim => congrArg _ (callQueue_claimed small fits valid own claim), fun q own free first fresh given room table => ?_⟩
    have named : (if arg args 0 = 0xFFFFF then s.freeQueue 1048576 0 else some (arg args 0)) = some q := by
      by_cases any : arg args 0 = 0xFFFFF
      · rw [if_pos any, fresh any]
      · rw [if_neg any, given any]
    refine ⟨fun new => ?_,
      fun made no => congrArg _ (callQueue_foreign small fits valid own free named made no), ?_⟩
    · rw [exec_createOrChangeQueue, callQueue_makes small fits valid own free named first room table new]
    · intro made mine t
      have changes := callQueue_changes small fits valid own free named first room table made mine
      exact ⟨fun absent => congrArg _ (changes.trans (queueWritten_absent absent)),
        fun x slot later => congrArg _ (changes.trans (queueWritten_later slot later)),
        fun x slot now => congrArg _ (changes.trans (queueWritten_now slot now))⟩
  · intro ini args s x n q tc unit small tiles corner hot
    refine ⟨fun no => congrArg _ (callReserve_denied small tiles corner hot unit no),
      fun mine may claim => congrArg _ (callReserve_claimed small tiles corner hot unit mine may claim), fun mine may free =>
      ⟨fun taken => congrArg _ (callReserve_already small tiles corner hot unit mine may free taken), fun alone untaken =>
      ⟨fun high => congrArg _ (callReserve_refused small tiles corner hot unit mine may free alone untaken high), ?_⟩⟩⟩
    intro reached t y load slot room single plain ring comp r u
    have answer := callReserve_reserves small tiles corner hot unit mine may free alone untaken reached load slot room single plain ring comp
    exact ⟨fun ready => congrArg _ (answer.trans (if_pos ready)),
      fun waits => congrArg _ (answer.trans (if_neg (Bool.eq_false_iff.mp waits)))⟩
  · intro q r s lt found
    rw [exec_reservationEffective s lt, reservEffective_found found]
    exact ⟨fun ready => by rw [if_pos ready], fun waits => by rw [if_neg (Bool.eq_false_iff.mp waits)]⟩

end Sys2Proof.Machine

namespace Sys2Proof.Machine

/-! ## Same-bits mode (R271, R272, R291, R292) -/

/-! ### Bits of a register -/

theorem bit_setBit_ne (w : Word) {i j : Nat} (b : Bool) (lt : i < 32) (ne : j ≠ i) : bit (setBit w i b) j = bit w j := by
  rw [bit_eq_bits, bit_eq_bits, setBit]
  rcases Nat.lt_or_gt_of_ne ne with below | above
  · rw [bits_setBits_below w i i _ j j (Nat.le_refl i) lt (Nat.le_refl j) below]
  · rw [bits_setBits_above w i i _ j j (Nat.le_refl i) lt above]

theorem rd_setFlag_same (s : State) (u off i : Nat) (b : Bool) : (s.setFlag u off i b).rd u off = setBit (s.rd u off) i b :=
  rd_wr_same ..

theorem flag_setFlag_same (s : State) (u off : Nat) {i : Nat} (b : Bool) (lt : i < 32) : (s.setFlag u off i b).flag u off i = b := by
  rw [State.flag, rd_setFlag_same, bit_setBit_same _ _ _ lt]

theorem flag_setFlag_ne (s : State) (u off : Nat) {i j : Nat} (b : Bool) (lt : i < 32) (ne : j ≠ i) :
    (s.setFlag u off i b).flag u off j = s.flag u off j := by
  rw [State.flag, rd_setFlag_same, bit_setBit_ne _ _ lt ne, State.flag]

theorem flag_setFlag_apart (s : State) {u off v o : Nat} (i j : Nat) (b : Bool) (apart : rk v o ≠ rk u off) :
    (s.setFlag u off i b).flag v o j = s.flag v o j :=
  congrArg (bit · j) (rd_wr_ne s u off v o _ apart)

theorem flag_wr_apart (s : State) {u off v o : Nat} (i : Nat) (w : Word) (apart : rk v o ≠ rk u off) :
    (s.wr u off w).flag v o i = s.flag v o i :=
  congrArg (bit · i) (rd_wr_ne s u off v o w apart)

/-- A condition and a flag agree. -/
theorem decide_eq_iff_iff (p : Prop) [Decidable p] (b : Bool) : decide p = b ↔ (p ↔ b = true) := by
  rw [Bool.eq_iff_iff, decide_eq_true_iff]

/-! ### A write to SAME_BITS (R291) -/

/-- SAME_BITS once a write is accepted: STEAL as written, but never with EN. -/
def State.stealSet (s : State) (value : Nat) : State :=
  s.setFlag uDevctl 0x400 1 (decide (value / 2 % 2 = 1 ∧ ¬value % 2 = 1))

theorem stealSet_sbEn (s : State) (value : Nat) : (s.stealSet value).sbEn = s.sbEn :=
  flag_setFlag_ne s uDevctl 0x400 _ (by decide) (by decide)

section
variable {s : State} {ini value : Nat} (admits : s.Admits ini uDevctl 0x400 (w32 value) false)
include admits

theorem sameBitsWrite_eq : s.sameBitsWrite ini value =
    if s.sbPending && decide (value % 2 = 1) != s.sbEn then s.accError ini (regAddr uDevctl 0x400) .check
    else if decide (value / 2 % 2 = 1) && (s.sbEn || s.sbActive) then s.accError ini (regAddr uDevctl 0x400) .check
    else if decide (value % 2 = 1) = s.sbEn then s.stealSet value else (s.stealSet value).sbRequest (value % 2 = 1) := by
  have flag : (decide (value / 2 % 2 = 1) && !decide (value % 2 = 1)) = decide (value / 2 % 2 = 1 ∧ ¬value % 2 = 1) := by
    rw [Bool.decide_and, decide_not]
  rw [State.sameBitsWrite, guarded_of_admits admits]
  dsimp only
  rw [flag, ← State.stealSet, stealSet_sbEn]

theorem sameBitsWrite_second (pending : s.sbPending = true) (differs : ¬(value % 2 = 1 ↔ s.sbEn = true)) :
    s.sameBitsWrite ini value = s.accError ini (regAddr uDevctl 0x400) .check := by
  have other : (decide (value % 2 = 1) != s.sbEn) = true := bne_iff_ne.mpr fun e => differs ((decide_eq_iff_iff _ _).mp e)
  rw [sameBitsWrite_eq admits, pending, other, Bool.and_self, if_pos rfl]

variable (first : s.sbPending = true → (value % 2 = 1 ↔ s.sbEn = true))
include first

theorem sameBitsWrite_first : s.sameBitsWrite ini value =
    if decide (value / 2 % 2 = 1) && (s.sbEn || s.sbActive) then s.accError ini (regAddr uDevctl 0x400) .check
    else if decide (value % 2 = 1) = s.sbEn then s.stealSet value else (s.stealSet value).sbRequest (value % 2 = 1) := by
  have may : ¬(s.sbPending && decide (value % 2 = 1) != s.sbEn) = true := by
    rw [Bool.and_eq_true, bne_iff_ne]
    exact fun ⟨pending, other⟩ => other ((decide_eq_iff_iff _ _).mpr (first pending))
  rw [sameBitsWrite_eq admits, if_neg may]

theorem sameBitsWrite_steal (steal : value / 2 % 2 = 1) (on : s.sbEn = true ∨ s.sbActive = true) :
    s.sameBitsWrite ini value = s.accError ini (regAddr uDevctl 0x400) .check := by
  have on : (s.sbEn || s.sbActive) = true := (Bool.or_eq_true ..).mpr on
  rw [sameBitsWrite_first admits first, on, decide_eq_true steal, Bool.and_self, if_pos rfl]

variable (off : ¬(value / 2 % 2 = 1 ∧ (s.sbEn = true ∨ s.sbActive = true)))
include off

theorem sameBitsWrite_accepted : s.sameBitsWrite ini value =
    if value % 2 = 1 ↔ s.sbEn = true then s.stealSet value else (s.stealSet value).sbRequest (value % 2 = 1) := by
  have off : ¬(decide (value / 2 % 2 = 1) && (s.sbEn || s.sbActive)) = true := by
    rwa [Bool.and_eq_true, decide_eq_true_iff, Bool.or_eq_true]
  rw [sameBitsWrite_first admits first, if_neg off]
  simp only [decide_eq_iff_iff]

end

/-! ### Call 0x0300 (R292) -/

section
variable {s : State} {ini : Nat} {args : List Word} (range : arg args 0 ≤ 1)
include range

theorem callSameBits_denied (no : ¬s.fwAllows ini (regAddr uDevctl 0) true = true) : callSameBits ini args s = s.ret DENIED := by
  simp only [callSameBits, if_neg (Nat.not_lt.mpr range), Bool.eq_false_iff.mpr no, Bool.not_false, if_true]

variable (may : s.fwAllows ini (regAddr uDevctl 0) true = true)
include may

theorem callSameBits_claimed (claim : s.claimed uDevctl = true) : callSameBits ini args s = s.ret CLAIMED := by
  simp only [callSameBits, if_neg (Nat.not_lt.mpr range), may, claim, Bool.not_true, Bool.false_eq_true, if_false, if_true]

variable (free : s.claimed uDevctl = false)
include free

theorem callSameBits_pending (pending : s.sbPending = true) : callSameBits ini args s = s.ret SB_PENDING := by
  simp only [callSameBits, if_neg (Nat.not_lt.mpr range), may, free, pending, Bool.not_true, Bool.false_eq_true, if_false, if_true]

variable (first : s.sbPending = false)
include first

theorem callSameBits_agrees (agrees : arg args 0 = 1 ↔ s.sbEn = true) : callSameBits ini args s = s.ret OK := by
  simp only [callSameBits, if_neg (Nat.not_lt.mpr range), may, free, first, (decide_eq_iff_iff _ _).mpr agrees, Bool.not_true,
    Bool.false_eq_true, if_false, if_true]

theorem callSameBits_requests (differs : ¬(arg args 0 = 1 ↔ s.sbEn = true)) : callSameBits ini args s =
    if (s.sbRequest (arg args 0 = 1)).sbPending then (s.sbRequest (arg args 0 = 1)).retPending 0x0300 (arg args 0)
    else (s.sbRequest (arg args 0 = 1)).ret OK := by
  have key : b2n (decide (arg args 0 = 1)) = arg args 0 := by
    rcases Nat.le_one_iff_eq_zero_or_eq_one.mp range with zero | one
    · rw [zero]; rfl
    · rw [one]; rfl
  simp only [callSameBits, if_neg (Nat.not_lt.mpr range), may, free, first, if_neg (differs ∘ (decide_eq_iff_iff _ _).mp), key,
    Bool.not_true, Bool.false_eq_true, if_false]

end

/-! ### Call 0x0301 (R274, R291) -/

/-- A read of an RO or RW register that latches no other changes nothing. -/
theorem readReg_plain (s : State) {u off : Nat} (latch : latches u off = false) (read : accOf u off = some .ro ∨ accOf u off = some .rw) :
    s.readReg u off = (s.rd u off, s) := by
  have still : s.latchHigh u off = s := by
    rw [State.latchHigh, latch, Bool.false_and, if_neg Bool.false_ne_true]
  rw [readReg_eq, still]
  rcases read with ro | rw_
  · rw [ro, if_neg (by decide), if_neg (by decide)]
  · rw [rw_, if_neg (by decide), if_neg (by decide)]

theorem callFingerprint_eq (s : State) :
    callFingerprint s = s.ret OK [s.rd uDevctl 0x408, s.rd uDevctl 0x404, s.rd uDevctl 0x400, s.rd uDevctl 0x40C] := by
  have high := readReg_plain s (u := uDevctl) (off := 0x408) (by decide) (by decide)
  have low := readReg_plain s (u := uDevctl) (off := 0x404) (by decide) (by decide)
  have mode := readReg_plain s (u := uDevctl) (off := 0x400) (by decide) (by decide)
  have units := readReg_plain s (u := uDevctl) (off := 0x40C) (by decide) (by decide)
  simp only [callFingerprint, State.retRegs, State.readRegs, high, low, mode, units]

/-! ### A unit adopts the mode (R271, R272) -/

/-- The units that have adopted, once unit i takes the mode asked for. -/
def State.sbTaken (s : State) (i : Nat) : State :=
  { s with sbOn := if s.sbEn then i :: s.sbOn.filter (· != i) else s.sbOn.filter (· != i) }

/-- The registers of unit i that show the mode it has adopted: ARRIVAL_EN of its vector engine, VAT_STATUS. -/
def State.sbShown (s : State) (i : Nat) : State :=
  let s := if i < 16 && s.sbCluster (i % 8) then s.setFlag (uVE (i % 8)) 0x104 0 false else s
  if i = 0x30 || i = 0x31 then s.vatSync (i - 0x30) else s

theorem sbAdopt_eq (s : State) (i : Nat) : s.sbAdopt i = ((s.sbTaken i).sbShown i).sbSync := rfl

theorem vatSync_sbOn (s : State) (v : Nat) : (s.vatSync v).sbOn = s.sbOn := by
  rw [State.vatSync, State.wr_sbOn, State.wr_sbOn]

theorem sbShown_sbOn (s : State) (i : Nat) : (s.sbShown i).sbOn = s.sbOn := by
  unfold State.sbShown
  dsimp only
  rw [apply_ite State.sbOn, vatSync_sbOn, ite_self, apply_ite State.sbOn, State.setFlag_sbOn, ite_self]

theorem sbShown_sbOnFor (s : State) (i j : Nat) : (s.sbShown i).sbOnFor j = s.sbOnFor j :=
  congrArg (·.contains j) (sbShown_sbOn s i)

theorem sbTaken_sbOnFor_same (s : State) (i : Nat) : (s.sbTaken i).sbOnFor i = s.sbEn := by
  cases en : s.sbEn <;> simp [State.sbTaken, State.sbOnFor, en]

theorem sbTaken_sbOnFor_ne (s : State) {i j : Nat} (ne : j ≠ i) : (s.sbTaken i).sbOnFor j = s.sbOnFor j := by
  cases en : s.sbEn <;> simp [State.sbTaken, State.sbOnFor, en, ne]

/-! ### SB_UNITS and the switch (R271, R274) -/

/-- The units that have not yet adopted the mode asked for. -/
def State.sbLeft (s : State) : Nat := (s.sbUnits.filter fun i => s.sbOnFor i != s.sbEn).length

/-- The switch: PENDING ends, ACTIVE takes EN, the fingerprint shows the mode. -/
def State.sbSwitched (s : State) : State :=
  ((s.setFlag uDevctl 0x400 31 false).setFlag uDevctl 0x400 30 s.sbEn).setFlag uDevctl 0x404 0 s.sbEn

theorem sbSync_eq (s : State) : s.sbSync =
    if (s.wr uDevctl 0x40C (w32 s.sbLeft)).sbPending && decide (s.sbLeft = 0) then
      ((s.wr uDevctl 0x40C (w32 s.sbLeft)).sbSwitched.count uDevctl 0x410 1).finish 0x0300
        (b2n (s.wr uDevctl 0x40C (w32 s.sbLeft)).sbSwitched.sbEn) OK
    else s.wr uDevctl 0x40C (w32 s.sbLeft) := rfl

theorem sbLeft_none {s : State} (all : ∀ i ∈ s.sbUnits, s.sbOnFor i = s.sbEn) : s.sbLeft = 0 := by
  rw [State.sbLeft, List.length_eq_zero_iff, List.filter_eq_nil_iff]
  intro i mem
  rw [all i mem, bne_self_eq_false]
  exact Bool.false_ne_true

theorem sbLeft_some {s : State} (some_ : ∃ i ∈ s.sbUnits, s.sbOnFor i ≠ s.sbEn) : 0 < s.sbLeft := by
  obtain ⟨i, mem, ne⟩ := some_
  exact List.length_pos_of_mem (List.mem_filter.mpr ⟨mem, bne_iff_ne.mpr ne⟩)

theorem sbUnits_length_le (s : State) : s.sbUnits.length ≤ 19 := by
  have clusters := List.length_filter_le (fun c => s.exists? (uTC c)) (List.range 6)
  have gangs := List.length_filter_le (fun g => s.exists? (uGang g)) (List.range 3)
  have vats := List.length_filter_le (fun v => s.exists? (uVat v)) (List.range 2)
  simp only [List.length_range] at clusters gangs vats
  simp only [State.sbUnits, List.length_append, List.length_map, List.length_cons, List.length_nil]
  omega

theorem sbLeft_le (s : State) : s.sbLeft ≤ 19 := (List.length_filter_le ..).trans (sbUnits_length_le s)

theorem rd_finish (s : State) (num key status u o : Nat) (words : List Word) : (s.finish num key status words).rd u o = s.rd u o := rfl

/-- While a unit is left, only SB_UNITS follows. -/
theorem sbSync_left {s : State} (some_ : 0 < s.sbLeft) : s.sbSync = s.wr uDevctl 0x40C (w32 s.sbLeft) := by
  rw [sbSync_eq, decide_eq_false some_.ne', Bool.and_false, if_neg Bool.false_ne_true]

/-- When no unit is left, the switch is made, and counted at 0x410. -/
theorem sbSync_switch_rd {s : State} (pending : s.sbPending = true) (none_ : s.sbLeft = 0) {o : Nat} (apart : o ≠ 0x410) :
    s.sbSync.rd uDevctl o = (s.wr uDevctl 0x40C 0).sbSwitched.rd uDevctl o := by
  have still : (s.wr uDevctl 0x40C (w32 0)).sbPending = true := (flag_wr_apart s 31 _ (by decide)).trans pending
  have apart : rk uDevctl o ≠ rk uDevctl 0x410 := by unfold rk; omega
  rw [sbSync_eq, none_, still, decide_eq_true rfl, Bool.and_self, if_pos rfl, rd_finish, State.count, State.countF, rd_wr_ne _ _ _ _ _ _ apart]
  rfl

theorem sbSwitched_sbActive (s : State) : s.sbSwitched.sbActive = s.sbEn :=
  (flag_setFlag_apart _ 0 30 _ (by decide)).trans (flag_setFlag_same _ _ _ _ (by decide))

theorem sbSwitched_sbPending (s : State) : s.sbSwitched.sbPending = false :=
  calc s.sbSwitched.flag uDevctl 0x400 31
    _ = ((s.setFlag uDevctl 0x400 31 false).setFlag uDevctl 0x400 30 s.sbEn).flag uDevctl 0x400 31 := flag_setFlag_apart _ 0 31 _ (by decide)
    _ = (s.setFlag uDevctl 0x400 31 false).flag uDevctl 0x400 31 := flag_setFlag_ne _ _ _ _ (by decide) (by decide)
    _ = false := flag_setFlag_same _ _ _ _ (by decide)

theorem sbSwitched_mode (s : State) : bit (s.sbSwitched.rd uDevctl 0x404) 0 = s.sbEn := flag_setFlag_same _ _ _ _ (by decide)

theorem sbSwitched_rd (s : State) {o : Nat} (mode : o ≠ 0x400) (low : o ≠ 0x404) : s.sbSwitched.rd uDevctl o = s.rd uDevctl o := by
  have mode : rk uDevctl o ≠ rk uDevctl 0x400 := by unfold rk; omega
  have low : rk uDevctl o ≠ rk uDevctl 0x404 := by unfold rk; omega
  exact (rd_wr_ne _ _ _ _ _ _ low).trans ((rd_wr_ne _ _ _ _ _ _ mode).trans (rd_wr_ne _ _ _ _ _ _ mode))

/-- Settles O22: an equation for each answer to the write and to the calls; who has adopted after one unit adopts; SB_UNITS and the
registers of the switch after sbSync, by whether a unit is left. -/
theorem sameBitsMode : Obligations.SameBitsMode := by
  unfold Obligations.SameBitsMode
  refine ⟨?_, ?_, ?_, ?_, ?_⟩
  · intro ini value s admits
    exact ⟨fun pending differs => congrArg Host.Outcome.next (sameBitsWrite_second admits pending differs),
      fun first steal on => congrArg Host.Outcome.next (sameBitsWrite_steal admits first steal on),
      fun off agrees => congrArg Host.Outcome.next ((sameBitsWrite_accepted admits (fun _ => agrees) off).trans (if_pos agrees)),
      fun off idle differs => congrArg Host.Outcome.next
        ((sameBitsWrite_accepted admits (fun pending => absurd pending (Bool.eq_false_iff.mp idle)) off).trans (if_neg differs))⟩
  · intro ini args s
    refine ⟨fun out => congrArg Host.Outcome.next (if_pos out),
      ⟨fun range no => congrArg Host.Outcome.next (callSameBits_denied range no),
        fun range may claim => congrArg Host.Outcome.next (callSameBits_claimed range may claim),
        fun range may free pending => congrArg Host.Outcome.next (callSameBits_pending range may free pending),
        fun range may free first agrees => congrArg Host.Outcome.next (callSameBits_agrees range may free first agrees),
        fun range may free first differs => congrArg Host.Outcome.next (callSameBits_requests range may free first differs)⟩,
      congrArg Host.Outcome.next (callFingerprint_eq s)⟩
  · intro s i _
    exact ⟨(s.sbTaken i).sbShown i, sbAdopt_eq s i, (sbShown_sbOnFor ..).trans (sbTaken_sbOnFor_same s i),
      fun j ne => (sbShown_sbOnFor ..).trans (sbTaken_sbOnFor_ne s ne)⟩
  · intro s pending all
    have en : (s.wr uDevctl 0x40C 0).sbEn = s.sbEn := flag_wr_apart s 0 0 (by decide)
    have after : ∀ o ≠ 0x410, s.sbSync.rd uDevctl o = (s.wr uDevctl 0x40C 0).sbSwitched.rd uDevctl o :=
      fun o => sbSync_switch_rd pending (sbLeft_none all)
    have mode := after 0x400 (by decide)
    refine ⟨?_, ?_, ?_, ?_⟩
    · exact (congrArg (bit · 30) mode).trans ((sbSwitched_sbActive _).trans en)
    · exact (congrArg (bit · 31) mode).trans (sbSwitched_sbPending _)
    · rw [after 0x40C (by decide), sbSwitched_rd _ (by decide) (by decide), rd_wr_same]
    · rw [after 0x404 (by decide), sbSwitched_mode, en]
  · intro s some_
    have left := sbLeft_some some_
    have most := sbLeft_le s
    rw [sbSync_left left]
    refine ⟨flag_wr_apart s 30 _ (by decide), flag_wr_apart s 31 _ (by decide), ?_⟩
    rw [rd_wr_same]
    intro zero
    have := congrArg BitVec.toNat zero
    rw [w32_toNat, Nat.mod_eq_of_lt (by omega)] at this
    exact left.ne' this

end Sys2Proof.Machine

namespace Sys2Proof.Machine

/-! ## Weights, digests and rinds (R283–R285, R288, R292) -/

/-! ### Calls 0x0304 and 0x0305: the digest of a parcel -/

theorem digestEmpty_butRegs (s : State) (p : Nat) : ButRegs s (s.digestEmpty p) := (setWd_empty_butRegs s p).trans (.wr ..)

theorem digestEmpty_wdStatus (s : State) (p : Nat) : (s.digestEmpty p).rd uDevctl (wdStatOff p) = 0 := rd_wr_same ..

theorem digestEmpty_wdDigest {p : Nat} (hp : p < 1024) (s : State) : (s.digestEmpty p).wdDigest p = List.replicate 32 0 := by
  have zero : ∀ i ∈ List.range 8, natBytes 4 ((s.digestEmpty p).rd uDevctl (wdDigOff p + 4 * i)).toNat = natBytes 4 0 := by
    intro i hi
    rw [digestEmpty_rd_digest hp s (List.mem_range.mp hi)]
    rfl
  rw [State.wdDigest, List.flatMap_congr zero]
  decide

/-- The digests stand in DEVCTL: no register of another block changes. -/
theorem digestEmpty_rd_other {p u o : Nat} (hp : p < 1024) (ho : o < 0x10000) (other : u ≠ uDevctl) (s : State) :
    (s.digestEmpty p).rd u o = s.rd u o := by
  have apart : ∀ b < 0x10000, rk u o ≠ rk uDevctl b := fun b hb => rk_ne ho hb fun e => other (Prod.mk.inj e).1
  have digest : ((List.range 8).any fun i => rk u o = rk uDevctl (wdDigOff p + 4 * i)) = false := by
    rw [List.any_eq_false]
    intro i hi
    have := List.mem_range.mp hi
    simpa using apart (wdDigOff p + 4 * i) (by unfold wdDigOff; omega)
  rw [State.digestEmpty, rd_wr_ne _ _ _ _ _ _ (apart _ (by unfold wdStatOff; omega)), setWd_empty_rd, digest, if_neg Bool.false_ne_true]

theorem wdDigest_ret (s : State) (status : Nat) (words : List Word) (p : Nat) : (s.ret status words).wdDigest p = s.wdDigest p := rfl

theorem rd_ret (s : State) (status : Nat) (words : List Word) (u o : Nat) : (s.ret status words).rd u o = s.rd u o := rfl

/-- An answer to a call that changes registers changes them and the answer alone. -/
theorem ButRegs.answered {s t : State} (frame : ButRegs s t) (status : Nat) (words : List Word) :
    ({ t.ret status words with regs := s.regs, call := s.call } : State) = s :=
  congrArg (fun x : State => { x with call := s.call }) frame

section
variable {s : State} {ini : Nat} {args : List Word} (small : arg args 0 ≤ 1023)
include small

theorem callReadWd_denied (no : s.ownsWeights ini (arg args 0) = false) : callReadWd ini args s = s.ret DENIED := by
  simp only [callReadWd, if_neg (Nat.not_lt.mpr small), no, Bool.not_false, if_true]

theorem callClearWd_denied (no : s.ownsWeights ini (arg args 0) = false) : callClearWd ini args s = s.ret DENIED := by
  simp only [callClearWd, if_neg (Nat.not_lt.mpr small), no, Bool.not_false, if_true]

variable (mine : s.ownsWeights ini (arg args 0) = true)
include mine

theorem callReadWd_own : callReadWd ini args s =
    s.ret OK (s.rd uDevctl (wdStatOff (arg args 0)) :: bytesWords (s.wdDigest (arg args 0))) := by
  simp only [callReadWd, if_neg (Nat.not_lt.mpr small), mine, Bool.not_true, Bool.false_eq_true, if_false, digestWords]

theorem callClearWd_claimed (claim : s.claimed uDevctl = true) : callClearWd ini args s = s.ret CLAIMED := by
  simp only [callClearWd, if_neg (Nat.not_lt.mpr small), mine, claim, Bool.not_true, Bool.false_eq_true, if_false, if_true]

variable (free : s.claimed uDevctl = false)
include free

theorem callClearWd_running (runs : s.pclRunning (arg args 0) = true) : callClearWd ini args s = s.ret QUEUE_RUNNING := by
  simp only [callClearWd, if_neg (Nat.not_lt.mpr small), mine, free, runs, Bool.not_true, Bool.false_eq_true, if_false, if_true]

theorem callClearWd_clears (idle : s.pclRunning (arg args 0) = false) :
    callClearWd ini args s = (s.digestEmpty (arg args 0)).ret OK := by
  simp only [callClearWd, if_neg (Nat.not_lt.mpr small), mine, free, idle, Bool.not_true, Bool.false_eq_true, if_false, State.digestEmpty]

end

/-! ### Call 0x0307: the digest of a queue -/

section
variable {s : State} {ini : Nat} {args : List Word} (small : arg args 0 ≤ 0xFFFFF)
include small

theorem callQueueWd_denied (no : s.ownsQueue ini (arg args 0) = false) : callQueueWd ini args s = s.ret DENIED := by
  simp only [callQueueWd, if_neg (Nat.not_lt.mpr small), no, Bool.not_false, if_true]

theorem callQueueWd_own (mine : s.ownsQueue ini (arg args 0) = true) : callQueueWd ini args s =
    s.ret OK (bytesWords (s.queueWd (arg args 0)).1 ++
      [w32 (s.validParcels.filter fun x => s.pclKind x = 1 && s.pclQueue x = arg args 0 && s.wdValid x).length,
        w32 (b2n (s.queueWd (arg args 0)).2.1)]) := by
  simp only [callQueueWd, if_neg (Nat.not_lt.mpr small), mine, Bool.not_true, Bool.false_eq_true, if_false, digestWords]

end

/-! ### Call 0x0303: a load of weights -/

/-- What call 0x0303 checks of its operands, the limit of sixteen digests apart. -/
structure State.LoadArgs (s : State) (args : List Word) : Prop where
  small : arg args 2 ≤ 1023
  address : addrArg args 0 = true
  some_ : 1 ≤ arg args 4
  source : inRegion s.part (argAddr args 0) (arg args 4) (fun r => r = .lpddr || r = .host) = true
  valid : s.pclValid (arg args 2) = true
  kind : s.pclKind (arg args 2) = 1
  fits : arg args 3 + arg args 4 ≤ s.pclSize (arg args 2) * 0x10000

/-- The load that call 0x0303 starts, on channel k of the firmware culverts. -/
def askedLoad (ini : Nat) (args : List Word) (k : Nat) : WLoad :=
  ⟨arg args 2, argAddr args 0, arg args 3, arg args 4, ini, k, false⟩

section
variable {s : State} {ini : Nat} {args : List Word} (ok : s.LoadArgs args)
include ok

/-- With its operands in range, the call answers RANGE when the queue's parcels hold sixteen digests (R284). -/
theorem callLoadWeights_eq : callLoadWeights ini args s =
    if s.weightsFull (arg args 2) then s.ret RANGE
    else if !s.ownsWeights ini (arg args 2) then s.ret DENIED
    else if s.claimed uDevctl then s.ret CLAIMED
    else if s.pclRunning (arg args 2) then s.ret QUEUE_RUNNING
    else if s.callWaits 0x0303 (arg args 2) then s.ret UNIT_BUSY
    else ({ s.firmChan.2 with loads := s.firmChan.2.loads ++ [askedLoad ini args s.firmChan.1] } : State).firmSync.retPending 0x0303
      (arg args 2) := by
  have most : decide (1023 < arg args 2) = false := decide_eq_false (Nat.not_lt.mpr ok.small)
  have some_ : decide (arg args 4 = 0) = false := decide_eq_false (Nat.one_le_iff_ne_zero.mp ok.some_)
  have fits : decide (s.pclSize (arg args 2) * 0x10000 < arg args 3 + arg args 4) = false := decide_eq_false (Nat.not_lt.mpr ok.fits)
  simp only [callLoadWeights, most, ok.address, some_, ok.source, ok.valid, ok.kind, fits, Bool.not_true, bne_self_eq_false, Bool.or_false,
    Bool.false_or]
  rfl

theorem callLoadWeights_full (full : s.weightsFull (arg args 2) = true) : callLoadWeights ini args s = s.ret RANGE := by
  rw [callLoadWeights_eq ok, if_pos full]

variable (room : s.weightsFull (arg args 2) = false)
include room

theorem callLoadWeights_denied (no : s.ownsWeights ini (arg args 2) = false) : callLoadWeights ini args s = s.ret DENIED := by
  simp only [callLoadWeights_eq ok, room, no, Bool.not_false, Bool.false_eq_true, if_false, if_true]

variable (mine : s.ownsWeights ini (arg args 2) = true)
include mine

theorem callLoadWeights_claimed (claim : s.claimed uDevctl = true) : callLoadWeights ini args s = s.ret CLAIMED := by
  simp only [callLoadWeights_eq ok, room, mine, claim, Bool.not_true, Bool.false_eq_true, if_false, if_true]

variable (free : s.claimed uDevctl = false)
include free

theorem callLoadWeights_running (runs : s.pclRunning (arg args 2) = true) : callLoadWeights ini args s = s.ret QUEUE_RUNNING := by
  simp only [callLoadWeights_eq ok, room, mine, free, runs, Bool.not_true, Bool.false_eq_true, if_false, if_true]

variable (idle : s.pclRunning (arg args 2) = false)
include idle

theorem callLoadWeights_busy (waits : s.callWaits 0x0303 (arg args 2) = true) : callLoadWeights ini args s = s.ret UNIT_BUSY := by
  simp only [callLoadWeights_eq ok, room, mine, free, idle, waits, Bool.not_true, Bool.false_eq_true, if_false, if_true]

theorem callLoadWeights_starts (first : s.callWaits 0x0303 (arg args 2) = false) : callLoadWeights ini args s =
    ({ s.firmChan.2 with loads := s.firmChan.2.loads ++ [askedLoad ini args s.firmChan.1] } : State).firmSync.retPending 0x0303
      (arg args 2) := by
  simp only [callLoadWeights_eq ok, room, mine, free, idle, first, Bool.not_true, Bool.false_eq_true, if_false]

end

/-! ### A load completes (R222, R283, R284)

The proofs step through State.loadDone branch by branch with split and rw: the kernel then only compares terms, and never evaluates a
condition or a transfer of the branches that are not taken. -/

theorem takeCredits_short {s : State} {p n : Nat} (few : s.pclAvail p < ceilDiv n 1024) : s.takeCredits p n = (s, false) := by
  simp only [State.takeCredits, if_neg (Nat.not_le.mpr few)]

theorem takeCredits_enough {s : State} {p n : Nat} (enough : ceilDiv n 1024 ≤ s.pclAvail p) :
    s.takeCredits p n = ((s.takeCredits p n).1, true) := by
  simp only [State.takeCredits, if_pos enough]

theorem exec_weightsFoldDone (s : State) {p : Nat} (lt : p < 1024) : exec (.weightsFoldDone p) s = .next (s.loadDone p) :=
  congrArg (fun i => Host.Outcome.next (s.loadDone i)) (Nat.mod_eq_of_lt lt)

/-- A load whose bytes are written: its credits are used, the bytes folded into the digest of the parcel, the culvert counts them. -/
def State.loadFolds (v : State) (p : Nat) (l : WLoad) (b : List Byte) : State :=
  ((((v.useCredits p (ceilDiv l.len 1024)).wdFold p l.offset l.len l.len (sha3 b)).countWide (uDC (14 + l.chan / 4)) 0x108 l.len).count
    (uDC (14 + l.chan / 4)) 0x114 1).finish 0x0303 p OK

section
variable {s t : State} {p : Nat} {l : WLoad} (oldest : s.loads.find? (·.parcel = p) = some l) (valid : s.pclValid p = true)
  (gone : ({ s with loads := s.loads.eraseP (·.parcel = p) } : State).firmSync = t)
include oldest valid gone

theorem loadDone_full (full : s.weightsFull p = true) : s.loadDone p = t.finish 0x0303 p RANGE := by
  rw [State.loadDone, oldest]
  split
  next none_ => cases none_
  next found =>
  cases found
  rw [gone, valid, Bool.not_true, if_neg Bool.false_ne_true, if_pos full]

variable (room : s.weightsFull p = false) (credits : s.pclCreditEn p = true)
include room credits

theorem loadDone_waits (few : t.pclAvail p < ceilDiv l.len 1024) : s.loadDone p =
    ({ s with loads := updFirst (·.parcel = p) (fun l => { l with wait := true }) s.loads } : State).firmSync := by
  rw [State.loadDone, oldest]
  split
  next none_ => cases none_
  next found =>
  cases found
  rw [gone, valid, Bool.not_true, if_neg Bool.false_ne_true, room, if_neg Bool.false_ne_true, if_pos credits, takeCredits_short few]
  exact if_pos rfl

theorem loadDone_folds (enough : ceilDiv l.len 1024 ≤ t.pclAvail p) {u v : State} {b : List Byte}
    (read : (t.takeCredits p l.len).1.callRead l.ini l.src (pagesFor l.len) l.len = (u, .ok, b))
    (write : u.polWrite (viaPort (28 + l.chan / 4) u.mpIni) (u.pclBase p * 0x10000 + l.offset) b true = (v, 0)) :
    s.loadDone p = v.loadFolds p l b := by
  rw [State.loadDone, oldest]
  split
  next none_ => cases none_
  next found =>
  cases found
  rw [gone, valid, Bool.not_true, if_neg Bool.false_ne_true, room, if_neg Bool.false_ne_true, credits, if_pos rfl, takeCredits_enough enough,
    if_pos rfl]
  generalize (t.takeCredits p l.len).1 = w at read ⊢
  split
  next taken =>
  cases taken
  rw [Bool.not_true, if_neg Bool.false_ne_true, read]
  split
  next bytes =>
  cases bytes
  rw [bne_self_eq_false, if_neg Bool.false_ne_true, write]
  split
  next written =>
  cases written
  rw [bne_self_eq_false, if_neg Bool.false_ne_true]
  rfl

end

/-! ### Call 0x0302: a rind (R288, R292) -/

/-- A term of a rind among the operands: PROG, W or D. -/
def rindTerm (args : List Word) (i : Nat) : List Byte := wordBytes ((List.range 8).map fun k => nth args (2 + 8 * i + k) 0)

/-- The digest of the four terms; the fourth, the fingerprint, stands in the rind b. -/
def rindDigest (args : List Word) (b : List Byte) : List Byte :=
  sha3 (rindTerm args 0 ++ rindTerm args 1 ++ rindTerm args 2 ++ (b.drop 32).take 8)

section
variable {s t : State} {ini : Nat} {args ws : List Word} {b : List Byte} (may : s.mayRead ini (argAddr args 0) 64 = true)
  (read : s.callBlock ini (argAddr args 0) 64 = (t, OK, ws, b))
include may read

theorem callVerifyRind_eq : callVerifyRind ini args s =
    if rindDigest args b = b.take 32 then t.ret OK (1 :: 0 :: bytesWords (rindDigest args b))
    else t.fresh.2.ret OK (0 :: t.fresh.1 :: bytesWords (rindDigest args b)) := by
  simp only [callVerifyRind, may, read, Bool.not_true, Bool.false_eq_true, bne_self_eq_false, if_false]
  rfl

theorem callVerifyRind_matches (same : rindDigest args b = b.take 32) :
    callVerifyRind ini args s = t.ret OK (1 :: 0 :: bytesWords (rindDigest args b)) := by
  rw [callVerifyRind_eq may read, if_pos same]

theorem callVerifyRind_differs (other : rindDigest args b ≠ b.take 32) :
    callVerifyRind ini args s = t.fresh.2.ret OK (0 :: t.fresh.1 :: bytesWords (rindDigest args b)) := by
  rw [callVerifyRind_eq may read, if_neg other]

end

/-! ### Credits come to a culvert move (R222, R242, R308) -/

theorem creditWaitEnd_goes {s t : State} {x : Ctx} {unit hs : Nat} {r : CtxRun} {i : Issued} (run : s.run x = some r)
    (current : r.current unit = some i) (waits : i.wait = .remote ∨ ∃ k, i.wait = .credits k)
    (step : s.moveStep x r { i with wait := .none } = (t, 0)) :
    s.creditWaitEnd x unit hs =
      (t.runMembers x i.only).foldl (fun u (m : Nat × Nat) => u.count (u.culvertOf x m.2) 0x110 hs) t := by
  rcases waits with remote | ⟨k, credits⟩
  · simp only [State.creditWaitEnd, run, current, remote, step, bne_self_eq_false, Bool.false_eq_true, if_false]
  · simp only [State.creditWaitEnd, run, current, credits, step, bne_self_eq_false, Bool.false_eq_true, if_false]

/-- Settles O29: an equation for each answer of the calls, for each way a load completes, and for a move that goes on. -/
theorem weightsAndRinds : Obligations.WeightsAndRinds := by
  unfold Obligations.WeightsAndRinds
  refine ⟨?_, ?_, ?_, ?_, ?_⟩
  · rintro ini args s p
    refine ⟨fun small => ⟨fun no => ⟨congrArg Host.Outcome.next (callReadWd_denied small no),
        congrArg Host.Outcome.next (callClearWd_denied small no)⟩, fun mine => ⟨congrArg Host.Outcome.next (callReadWd_own small mine),
        fun claim => congrArg Host.Outcome.next (callClearWd_claimed small mine claim),
        fun free runs => congrArg Host.Outcome.next (callClearWd_running small mine free runs), fun free idle => ?_⟩⟩,
      fun small no => congrArg Host.Outcome.next (callQueueWd_denied small no),
      fun small mine => congrArg Host.Outcome.next (callQueueWd_own small mine)⟩
    have hp : p < 1024 := Nat.lt_succ_of_le small
    exact Gives.of rfl (callClearWd_clears small mine free idle) ⟨rfl,
      (wdDigest_ret ..).trans (digestEmpty_wdDigest hp s), (rd_ret ..).trans (digestEmpty_wdStatus s p),
      (digestEmpty_butRegs s p).answered OK [], fun u o ho other => (rd_ret ..).trans (digestEmpty_rd_other hp ho other s)⟩
  · intro ini args s src p off n small address some_ source valid kind fits
    have ok : s.LoadArgs args := ⟨small, address, some_, source, valid, kind, fits⟩
    refine ⟨fun full => congrArg Host.Outcome.next (callLoadWeights_full ok full),
      fun room no => congrArg Host.Outcome.next (callLoadWeights_denied ok room no),
      fun room mine claim => congrArg Host.Outcome.next (callLoadWeights_claimed ok room mine claim),
      fun room mine free runs => congrArg Host.Outcome.next (callLoadWeights_running ok room mine free runs),
      fun room mine free idle waits => congrArg Host.Outcome.next (callLoadWeights_busy ok room mine free idle waits), ?_⟩
    intro room mine free idle first k t chan
    obtain ⟨lt, rfl, rfl⟩ := firmChan_spec chan
    exact ⟨lt, congrArg Host.Outcome.next (callLoadWeights_starts ok room mine free idle first)⟩
  · intro p l s lt oldest valid
    have run := exec_weightsFoldDone s lt
    refine ⟨fun full => run.trans (congrArg _ (loadDone_full oldest valid rfl full)), fun room credits => ⟨fun few => ?_, ?_⟩⟩
    · exact run.trans (congrArg _ (loadDone_waits oldest valid rfl room credits few))
    · intro enough u b read v write
      exact run.trans (congrArg _ (loadDone_folds oldest valid rfl room credits enough read write))
  · intro ini args s may t ws b read term d
    refine ⟨fun same => congrArg Host.Outcome.next (callVerifyRind_matches may read same), fun other => ?_⟩
    exact Gives.of rfl (callVerifyRind_differs may read other) ⟨t.fresh.1, rfl⟩
  · intro x unit hs r i s run current waits t step
    exact congrArg Host.Outcome.next (creditWaitEnd_goes run current waits step)

end Sys2Proof.Machine

namespace Sys2Proof.Machine

/-! ## Transactions of Axfer (R305, R307–R311) -/

/-! ### Slots that arrive (R296, R298, R300, R305) -/

section
variable {s t u : State} {h : AxHead} {kind : Nat} {d : List Byte}

theorem slotIn_dropped (out : s.taken h kind d = (u, none)) (fields : List Nat) (act : State → State) :
    s.slotIn h kind fields d act = u := by
  unfold State.taken at out
  simp only [State.slotIn, out]

theorem slotIn_taken {first : Bool} (taken : s.taken h kind d = (u, some first)) (fields : List Nat) (act : State → State) :
    s.slotIn h kind fields d act =
      let gone := u.freeBuf (h.port % 4) (h.cls % 4) (ceilDiv d.length 248 + b2n first)
      if !u.exists? uRing then gone
      else if h.dst = u.ringPos then act gone
      else if u.reaches h.dst then
        u.ringSend ⟨kind, h.dst, h.src, h.stream, h.tag, fields⟩ d (some (h.port % 4, h.cls % 4, first))
      else gone := by
  unfold State.taken at taken
  simp only [State.slotIn, taken]

theorem slotIn_hears (hears : s.Hears h kind d t) (fields : List Nat) (act : State → State) :
    s.slotIn h kind fields d act = act t := by
  obtain ⟨_, u, first, taken, ring, here, _, rfl⟩ := hears
  simp only [slotIn_taken taken, ring, Bool.not_true, Bool.false_eq_true, if_false, if_pos here]

theorem State.Hears.port (hears : s.Hears h kind d t) : h.port < 4 := hears.1

theorem State.Hears.member (hears : s.Hears h kind d t) : t.ringMember h.src = true := by
  obtain ⟨_, _, _, _, _, _, member, rfl⟩ := hears
  exact member

end

/-! ### Causes (R310): a transaction with none is done by a stream that is clean again -/

section
variable {s : State} {src : Nat} (member : s.ringMember src = true) (stream tag item : Nat) {cause : Nat} (act : State → State)
include member

theorem judged_eq : s.judged src stream tag item cause false act =
    if cause != 0 then (s.fresher src stream).nack src stream tag cause item else act (s.fresher src stream) := by
  have hears : (!(s.fresher src stream).ringMember src) = false := by
    rw [show (s.fresher src stream).ringMember src = s.ringMember src from rfl, member]; rfl
  exact if_neg (ne_true_of_eq_false hears)

theorem judged_refused (bad : cause ≠ 0) :
    s.judged src stream tag item cause false act = (s.fresher src stream).nack src stream tag cause item :=
  (judged_eq member stream tag item act).trans (if_pos (bne_iff_ne.mpr bad))

theorem judged_done (fine : cause = 0) : s.judged src stream tag item cause false act = act (s.fresher src stream) :=
  (judged_eq member stream tag item act).trans (if_neg (by rw [fine]; decide))

end

theorem rstuck_fresher (s : State) (src stream : Nat) : (s.fresher src stream).rstuck.contains (src, stream) = false := by
  simp [State.fresher]

/-! ### WRITE (R307, R309, R310) -/

/-- A WRITE that waits at a sluice, or behind another of its stream. -/
def heldWrite (src stream tag a p : Nat) (d : List Byte) : HeldAcc :=
  ⟨0x38 + src, 30, a, d.length, some d, none, false, some (src, stream, tag), [(p, ceilDiv d.length 1024)], none, []⟩

/-- Stream of src spends k credits of parcel p. -/
def State.spends (s : State) (src stream p k : Nat) : State := { s with rgrants := takeGrants src stream p k s.rgrants }

section
variable {s : State} {src : Nat} (member : s.ringMember src = true) {stream tag a : Nat} {d : List Byte}
include member

theorem axWriteIn_refused (bad : s.writeCause src stream a d.length ≠ 0) : s.axWriteIn src stream tag a d false =
    (s.fresher src stream).nack src stream tag (s.writeCause src stream a d.length) (a / 0x10000) := by
  unfold State.axWriteIn
  exact judged_refused member stream tag (a / 0x10000) _ bad

variable (fine : s.writeCause src stream a d.length = 0) {p : Nat} (landing : (s.fresher src stream).landingAt a = some p)
include fine landing

theorem axWriteIn_eq : s.axWriteIn src stream tag a d false =
    let u := s.fresher src stream
    let k := ceilDiv d.length 1024
    if u.barred (0x38 + src) a d.length || u.behind src stream tag then
      (({ u with held := holdInto (heldWrite src stream tag a p d) u.held } : State).spends src stream p k).grantSync
    else
      let v := u.polWrite (0x38 + src) a d
      let w := ((v.1.spends src stream p k).useCredits p k).grantSync
      if v.2 = 0 then w.ackSend src stream tag else { w with rstuck := (src, stream) :: w.rstuck } := by
  unfold State.axWriteIn
  refine (judged_done member stream tag (a / 0x10000) _ fine).trans ?_
  simp only [landing, rstuck_fresher, Bool.false_eq_true, if_false]
  rfl

theorem axWriteIn_made (free : (s.fresher src stream).barred (0x38 + src) a d.length = false)
    (turn : (s.fresher src stream).behind src stream tag = false) {v : State}
    (made : (s.fresher src stream).polWrite (0x38 + src) a d = (v, 0)) :
    s.axWriteIn src stream tag a d false =
      (((v.spends src stream p (ceilDiv d.length 1024)).useCredits p (ceilDiv d.length 1024)).grantSync).ackSend src stream tag := by
  simp only [axWriteIn_eq member fine landing, free, turn, made, Bool.or_self, Bool.false_eq_true, if_false, if_true]

theorem axWriteIn_waits (waits : (s.fresher src stream).barred (0x38 + src) a d.length = true ∨
    (s.fresher src stream).behind src stream tag = true) :
    let u := s.fresher src stream
    let k := ceilDiv d.length 1024
    s.axWriteIn src stream tag a d false =
      (({ u with held := holdInto (heldWrite src stream tag a p d) u.held } : State).spends src stream p k).grantSync :=
  (axWriteIn_eq member fine landing).trans (if_pos (Bool.or_eq_true_iff.mpr waits))

end

/-! ### What waits for earlier transactions of its stream (R309) -/

section
variable (s : State) (h : AxHead) (w : HeldAcc) (act : State → State)

theorem inOrder_now (turn : (s.fresher h.src h.stream).behind h.src h.stream h.tag = false) (none_ : h.passed = []) :
    (s.fresher h.src h.stream).inOrder h w act = act (s.fresher h.src h.stream) := by
  simp only [State.inOrder, rstuck_fresher, turn, none_, List.isEmpty_nil, Bool.not_true, Bool.or_self, Bool.false_eq_true, if_false]

theorem inOrder_waits (waits : (s.fresher h.src h.stream).behind h.src h.stream h.tag = true ∨ h.passed ≠ []) :
    (s.fresher h.src h.stream).inOrder h w act = { s.fresher h.src h.stream with
      held := holdInto { w with ack := some (h.src, h.stream, h.tag), after := h.passed } (s.fresher h.src h.stream).held } := by
  have later : ((s.fresher h.src h.stream).behind h.src h.stream h.tag || !h.passed.isEmpty) = true := by
    simpa [List.isEmpty_iff] using waits
  simp only [State.inOrder, rstuck_fresher, later, Bool.false_eq_true, if_false, if_true]

end

/-! ### Mark operations (R309, R310) -/

section
variable {s : State} {h : AxHead} (member : s.ringMember h.src = true) {m v : Nat} {add : Bool}
include member

theorem axMarkIn_refused (bad : s.markCause m add ≠ 0) : s.axMarkIn h m v add false =
    (s.fresher h.src h.stream).nack h.src h.stream h.tag (s.markCause m add) m :=
  judged_refused member h.stream h.tag m _ bad

variable (fine : s.markCause m add = 0)
include fine

theorem axMarkIn_waits (waits : (s.fresher h.src h.stream).behind h.src h.stream h.tag = true ∨ h.passed ≠ []) :
    s.axMarkIn h m v add false = { s.fresher h.src h.stream with
      held := holdInto ⟨0x38 + h.src, 30, 0, 0, none, none, false, some (h.src, h.stream, h.tag), [], some (m, add, v % 2 ^ 32), h.passed⟩
        (s.fresher h.src h.stream).held } :=
  (judged_done member h.stream h.tag m _ fine).trans (inOrder_waits s h _ _ waits)

variable (turn : (s.fresher h.src h.stream).behind h.src h.stream h.tag = false) (none_ : h.passed = [])
include turn none_

theorem axMarkIn_signals (kind : add = false) :
    s.axMarkIn h m v add false = ((s.fresher h.src h.stream).signalMark m v).ackSend h.src h.stream h.tag := by
  refine (judged_done member h.stream h.tag m _ fine).trans ((inOrder_now s h _ _ turn none_).trans ?_)
  rw [if_neg (ne_true_of_eq_false kind)]

theorem axMarkIn_adds (kind : add = true) :
    s.axMarkIn h m v add false = ((s.fresher h.src h.stream).addMark m (v % 2 ^ 32)).ackSend h.src h.stream h.tag := by
  refine (judged_done member h.stream h.tag m _ fine).trans ((inOrder_now s h _ _ turn none_).trans ?_)
  rw [if_pos kind]

end

/-! ### Credits of a landing parcel (R308, R310) -/

theorem creditSize_bad_iff {kib : Nat} : (decide (kib = 0) || decide (64 < kib)) = true ↔ kib = 0 ∨ 64 < kib := by simp

theorem creditSize_fine {kib : Nat} (least : 1 ≤ kib) (most : kib ≤ 64) : ¬(decide (kib = 0) || decide (64 < kib)) = true := by
  rw [creditSize_bad_iff]
  omega

section
variable {s : State} {src : Nat} (member : s.ringMember src = true) {stream tag a kib : Nat}
include member

theorem creditReq_badSize (bad : kib = 0 ∨ 64 < kib) : s.creditReq src stream tag a kib false =
    (s.fresher src stream).nack src stream tag 5 (a / 0x10000) := by
  rw [State.creditReq, if_pos (creditSize_bad_iff.mpr bad)]
  exact judged_refused member stream tag _ _ (by decide)

variable (least : 1 ≤ kib) (most : kib ≤ 64)
include least most

theorem creditReq_nowhere (nowhere : s.landingAt a = none) : s.creditReq src stream tag a kib false =
    (s.fresher src stream).nack src stream tag 1 (a / 0x10000) := by
  rw [State.creditReq, if_neg (creditSize_fine least most), nowhere]
  exact judged_refused member stream tag _ _ one_ne_zero

variable {p : Nat} (landing : s.landingAt a = some p)
include landing

theorem creditReq_denied (no : s.pclRights p (0x38 + src) true = false) : s.creditReq src stream tag a kib false =
    (s.fresher src stream).nack src stream tag 2 (a / 0x10000) := by
  simp only [State.creditReq, if_neg (creditSize_fine least most), landing, no, Bool.false_eq_true, if_false]
  exact judged_refused member stream tag _ _ (by decide)

theorem creditReq_queues (may : s.pclRights p (0x38 + src) true = true) : s.creditReq src stream tag a kib false =
    ({ s.fresher src stream with rwaits := s.rwaits ++ [⟨src, stream, p, kib, a, tag⟩] } : State).grantWaits p (s.rwaits.length + 1) := by
  have landing' : (s.fresher src stream).landingAt a = some p := landing
  simp only [State.creditReq, if_neg (creditSize_fine least most), landing, may, if_true]
  refine (judged_done member stream tag _ _ rfl).trans ?_
  simp only [landing']
  rfl

end

section
variable {s : State} {h : AxHead} (member : s.ringMember h.src = true) {a kib : Nat}
include member

theorem creditBack_badSize (bad : kib = 0 ∨ 64 < kib) : s.creditBack h a kib false =
    (s.fresher h.src h.stream).nack h.src h.stream h.tag 5 (a / 0x10000) := by
  rw [State.creditBack, if_pos (creditSize_bad_iff.mpr bad)]
  exact judged_refused member h.stream h.tag _ _ (by decide)

variable (least : 1 ≤ kib) (most : kib ≤ 64)
include least most

theorem creditBack_nowhere (nowhere : s.landingAt a = none) : s.creditBack h a kib false =
    (s.fresher h.src h.stream).nack h.src h.stream h.tag 1 (a / 0x10000) := by
  rw [State.creditBack, if_neg (creditSize_fine least most), nowhere]
  exact judged_refused member h.stream h.tag _ _ one_ne_zero

variable {p : Nat} (landing : s.landingAt a = some p)
include landing

theorem creditBack_eq : s.creditBack h a kib false = (s.fresher h.src h.stream).inOrder h
    ⟨0x38 + h.src, 30, 0, 0, none, none, false, none, [(p, kib)], none, []⟩
    fun s => (s.giveBack h.src h.stream p kib).ackSend h.src h.stream h.tag := by
  have landing' : (s.fresher h.src h.stream).landingAt a = some p := landing
  simp only [State.creditBack, if_neg (creditSize_fine least most), landing]
  refine (judged_done member h.stream h.tag _ _ rfl).trans ?_
  simp only [landing']

theorem creditBack_returns (turn : (s.fresher h.src h.stream).behind h.src h.stream h.tag = false) (none_ : h.passed = []) :
    s.creditBack h a kib false = ((s.fresher h.src h.stream).giveBack h.src h.stream p kib).ackSend h.src h.stream h.tag :=
  (creditBack_eq member least most landing).trans (inOrder_now s h _ _ turn none_)

theorem creditBack_waits (waits : (s.fresher h.src h.stream).behind h.src h.stream h.tag = true ∨ h.passed ≠ []) :
    s.creditBack h a kib false = { s.fresher h.src h.stream with
      held := holdInto ⟨0x38 + h.src, 30, 0, 0, none, none, false, some (h.src, h.stream, h.tag), [(p, kib)], none, h.passed⟩
        (s.fresher h.src h.stream).held } :=
  (creditBack_eq member least most landing).trans (inOrder_waits s h _ _ waits)

end

section
variable {s : State} {pos stream tag a kib : Nat} {c : RemChunk} (asked : s.requestOf pos stream tag a kib = some c)
include asked

theorem granted_live (live : c.dead = false) : s.granted pos stream tag a kib =
    ({ s with rchunks := updFirst (· = c) (fun d => { d with stage := 2, left := kib }) s.rchunks } : State).grantSync := by
  simp only [State.granted, asked, live, Bool.false_eq_true, if_false]

theorem granted_dead (dead : c.dead = true) : s.granted pos stream tag a kib =
    ({ s with rchunks := s.rchunks.erase c } : State).transact 6 pos stream none c.unit c.idx [c.addr, kib] [] := by
  simp only [State.granted, asked, dead, if_true]

end

/-! ### ACK, NACK, timeout (R308–R311) -/

section
variable {s : State} {pos stream tag : Nat}

theorem acked_unknown (none_ : s.rtx.any (fun x => x.pos = pos && x.stream = stream && x.tag = tag) = false) :
    s.acked pos stream tag = s := by
  simp only [State.acked, none_, Bool.not_false, if_true]

/-- A transaction of this part is complete: its call ends; a mark operation of a command has been done. -/
def State.txDone (s : State) (t : RemTx) : State :=
  let u := s.remoteCall t OK
  match t.ctx with
  | some x => if t.kind = 2 || t.kind = 3 then u.updRun x fun r => { r with markDone := true } else u
  | none => u

theorem acked_known (some_ : s.rtx.any (fun x => x.pos = pos && x.stream = stream && x.tag = tag) = true) {done keep : List RemTx}
    (split_ : splitAck pos stream tag s.rtx = (done, keep)) : s.acked pos stream tag =
      ((done.filterMap (·.ctx)).eraseDups).foldl (fun q x => (q.resume x).dcSync x) (done.foldl State.txDone { s with rtx := keep }) := by
  simp only [State.acked, some_, split_, Bool.not_true, Bool.false_eq_true, if_false]
  rfl

/-- The transaction of a stream to a position with a tag. -/
def State.txOf (s : State) (pos stream tag : Nat) : Option RemTx :=
  s.rtx.find? fun t => t.pos = pos && t.stream = stream && t.tag = tag

theorem remoteCall_command {e : RemTx} {x : Ctx} (command : e.ctx = some x) (u : State) (status : Nat) (words : List Word) :
    u.remoteCall e status words = u := by
  simp [State.remoteCall, command]

section
variable {e : RemTx} {port : Nat} (cause : Nat)

theorem nacked_command (sent : (s.countF (uAX port) 0x12C 15 0 1).txOf pos stream tag = some e) {x : Ctx} (command : e.ctx = some x) :
    let u := s.countF (uAX port) 0x12C 15 0 1
    s.nacked port pos stream tag cause = ({ u with rtx := u.rtx.erase e } : State).remoteFail x fREMOTE_DENIED e.idx := by
  unfold State.txOf at sent
  simp only [State.nacked, sent, remoteCall_command command, command]

theorem nacked_call (sent : (s.countF (uAX port) 0x12C 15 0 1).txOf pos stream tag = some e) (call : e.ctx = none) :
    let u := s.countF (uAX port) 0x12C 15 0 1
    s.nacked port pos stream tag cause = ({ u with rtx := u.rtx.erase e } : State).remoteCall e REFUSED [w32 cause] := by
  unfold State.txOf at sent
  simp only [State.nacked, sent, call]

end

theorem remoteFail_none {x : Ctx} (none_ : ¬∃ r, s.run x = some r ∧ r.ended = false) (code idx : Nat) : s.remoteFail x code idx = s := by
  cases runs : s.run x with
  | none => simp only [State.remoteFail, runs]
  | some r =>
    have ended : r.ended = true := by
      by_contra live
      exact none_ ⟨r, runs, Bool.eq_false_iff.mpr live⟩
    simp only [State.remoteFail, runs, ended, if_true]

theorem timeout_due {e : RemTx} (late : 500 * s.fld uRing 0x20C 15 0 ≤ s.gauge.ticks - e.sent) (alive : s.hopAlive pos stream = true) :
    ¬(!s.hopAlive pos stream || decide (s.gauge.ticks - e.sent < 500 * s.fld uRing 0x20C 15 0)) = true := by
  simp [alive, late]

/-- A transaction that nothing answered is given up: its call is refused. -/
def State.txGivenUp (s : State) (e : RemTx) : State := ({ s with rtx := s.rtx.erase e } : State).remoteCall e REFUSED

section
variable {e : RemTx} (sent : s.txOf pos stream tag = some e)
include sent

theorem ackTimeout_early (early : s.gauge.ticks - e.sent < 500 * s.fld uRing 0x20C 15 0 ∨ s.hopAlive pos stream = false) :
    s.ackTimeout pos stream tag = s := by
  have rests : (!s.hopAlive pos stream || decide (s.gauge.ticks - e.sent < 500 * s.fld uRing 0x20C 15 0)) = true := by
    simpa [or_comm] using early
  unfold State.txOf at sent
  simp only [State.ackTimeout, sent, rests, if_true]

variable (late : 500 * s.fld uRing 0x20C 15 0 ≤ s.gauge.ticks - e.sent) (alive : s.hopAlive pos stream = true)
include late alive

theorem ackTimeout_call (call : e.ctx = none) : s.ackTimeout pos stream tag = s.txGivenUp e := by
  unfold State.txOf at sent
  simp only [State.ackTimeout, sent, if_neg (timeout_due late alive), call]
  rfl

variable {x : Ctx} (command : e.ctx = some x)
include command

theorem ackTimeout_ends (live : ∃ r, (s.txGivenUp e).run x = some r ∧ r.ended = false) :
    s.ackTimeout pos stream tag = ((s.txGivenUp e).count uRing 0x260 1).remoteFail x fLINK_TIMEOUT e.idx := by
  have runs : (((s.txGivenUp e).run x).any fun r => !r.ended) = true := by simpa [Option.any_eq_true] using live
  unfold State.txOf at sent
  unfold State.txGivenUp at runs ⊢
  simp only [State.ackTimeout, sent, if_neg (timeout_due late alive), command, if_pos runs]

theorem ackTimeout_ended (dead : ¬∃ r, (s.txGivenUp e).run x = some r ∧ r.ended = false) :
    s.ackTimeout pos stream tag = s.txGivenUp e := by
  have rests : ¬(((s.txGivenUp e).run x).any fun r => !r.ended) = true := by simpa [Option.any_eq_true] using dead
  unfold State.txOf at sent
  unfold State.txGivenUp at rests dead ⊢
  simp only [State.ackTimeout, sent, if_neg (timeout_due late alive), command, if_neg rests, remoteFail_none dead]

end
end

/-! ### What a slot does that is heard -/

section
variable {s t : State} {h : AxHead}

theorem exec_axWrite {len : Nat} {data d : List Byte} (bytes : (data ++ List.replicate len 0).take len = d) (hears : s.Hears h 1 d t) (addr : Nat) :
    exec (.axWrite h addr len data false) s = .next ((t.axWriteIn h.src h.stream h.tag addr d false).cameIn h.src h.stream h.tag) := by
  subst bytes
  exact congrArg Host.Outcome.next (slotIn_hears hears [addr, len - 1] _)

theorem exec_axMsignal (hears : s.Hears h 2 [] t) {m : Nat} (small : m < 65536) (v : Nat) :
    exec (.axMsignal h m v false) s = .next (t.axMarkIn h m v false false) := by
  refine (congrArg Host.Outcome.next (slotIn_hears hears [m, v] fun s => s.axMarkIn h (m % 65536) v false false)).trans ?_
  rw [Nat.mod_eq_of_lt small]

theorem exec_axMadd (hears : s.Hears h 3 [] t) {m : Nat} (small : m < 65536) (v : Nat) :
    exec (.axMadd h m v false) s = .next (t.axMarkIn h m v true false) := by
  refine (congrArg Host.Outcome.next (slotIn_hears hears [m, v] fun s => s.axMarkIn h (m % 65536) v true false)).trans ?_
  rw [Nat.mod_eq_of_lt small]

theorem exec_axCreditReq (hears : s.Hears h 4 [] t) (addr kib : Nat) :
    exec (.axCreditReq h addr kib false) s = .next (t.creditReq h.src h.stream h.tag addr kib false) :=
  congrArg Host.Outcome.next (slotIn_hears hears [addr, kib] _)

theorem exec_axCreditGrant (hears : s.Hears h 5 [] t) (addr kib : Nat) :
    exec (.axCreditGrant h addr kib) s = .next (t.granted h.src h.stream h.tag addr kib) :=
  congrArg Host.Outcome.next (slotIn_hears hears [addr, kib] _)

theorem exec_axCreditReturn (hears : s.Hears h 6 [] t) (addr kib : Nat) :
    exec (.axCreditReturn h addr kib false) s = .next (t.creditBack h addr kib false) :=
  congrArg Host.Outcome.next (slotIn_hears hears [addr, kib] _)

theorem exec_axAck (hears : s.Hears h 7 [] t) (tag : Nat) : exec (.axAck h tag) s = .next (t.acked h.src h.stream tag) :=
  congrArg Host.Outcome.next (slotIn_hears hears [tag] _)

theorem exec_axNack (hears : s.Hears h 8 [] t) (tag cause : Nat) :
    exec (.axNack h tag cause) s = .next (t.nacked h.port h.src h.stream tag cause) := by
  refine (congrArg Host.Outcome.next (slotIn_hears hears [tag, cause] fun s => s.nacked (h.port % 4) h.src h.stream tag cause)).trans ?_
  rw [Nat.mod_eq_of_lt hears.port]

end

/-! ### A signal for another position (R298, R299, R305) -/

section
variable {s u : State} {h : AxHead} (port : h.port < 4) (m v : Nat) (late : Bool)

theorem exec_axMsignal_dropped (out : s.taken h 2 [] = (u, none)) : exec (.axMsignal h m v late) s = .next u :=
  congrArg Host.Outcome.next (slotIn_dropped out [m, v] _)

variable {first : Bool} (taken : s.taken h 2 [] = (u, some first))
include port taken

theorem exec_axMsignal_noRing (noRing : u.exists? uRing = false) :
    exec (.axMsignal h m v late) s = .next (u.freeBuf h.port (h.cls % 4) (b2n first)) := by
  refine (congrArg Host.Outcome.next (slotIn_taken taken [m, v] _)).trans ?_
  simp [noRing, Nat.mod_eq_of_lt port, ceilDiv]

variable (ring : u.exists? uRing = true) (other : h.dst ≠ u.ringPos)
include ring other

theorem exec_axMsignal_forwards (way : u.reaches h.dst = true) : exec (.axMsignal h m v late) s =
    .next (u.ringSend ⟨2, h.dst, h.src, h.stream, h.tag, [m, v]⟩ [] (some (h.port, h.cls % 4, first))) := by
  refine (congrArg Host.Outcome.next (slotIn_taken taken [m, v] _)).trans ?_
  simp [ring, other, way, Nat.mod_eq_of_lt port]

theorem exec_axMsignal_noWay (noWay : u.reaches h.dst = false) :
    exec (.axMsignal h m v late) s = .next (u.freeBuf h.port (h.cls % 4) (b2n first)) := by
  refine (congrArg Host.Outcome.next (slotIn_taken taken [m, v] _)).trans ?_
  simp [ring, other, noWay, Nat.mod_eq_of_lt port, ceilDiv]

end

/-- Settles O39: a slot that its port hears acts on the state it has passed into; what it does there has an equation for each case. -/
theorem ringTransactions : Obligations.RingTransactions := by
  unfold Obligations.RingTransactions
  refine ⟨?_, ?_, ?_, ?_, ?_, ?_⟩
  · intro h addr len data s t d hears u k
    have run := exec_axWrite rfl hears addr
    have came {v : State} (does : t.axWriteIn h.src h.stream h.tag addr d false = v) :
        exec (.axWrite h addr len data false) s = .next (v.cameIn h.src h.stream h.tag) := by rw [run, does]
    exact ⟨fun fine turn free p v landing made => came (axWriteIn_made hears.member fine landing free turn made),
      fun fine waits p landing => came (axWriteIn_waits hears.member fine landing waits),
      fun bad => came (axWriteIn_refused hears.member bad)⟩
  · intro h m v s t small u waits
    refine ⟨fun hears => ?_, fun hears => ?_⟩
    · have run := exec_axMsignal hears small v
      exact ⟨fun fine turn none_ => run.trans (congrArg _ (axMarkIn_signals hears.member fine turn none_ rfl)),
        fun fine later => run.trans (congrArg _ (axMarkIn_waits hears.member fine later)),
        fun bad => run.trans (congrArg _ (axMarkIn_refused hears.member bad))⟩
    · have run := exec_axMadd hears small v
      exact ⟨fun fine turn none_ => run.trans (congrArg _ (axMarkIn_adds hears.member fine turn none_ rfl)),
        fun fine later => run.trans (congrArg _ (axMarkIn_waits hears.member fine later)),
        fun bad => run.trans (congrArg _ (axMarkIn_refused hears.member bad))⟩
  · intro h addr kib s t u
    refine ⟨fun hears => ?_, fun hears => ?_, fun hears c asked => ?_⟩
    · have run := exec_axCreditReq hears addr kib
      exact ⟨fun bad => run.trans (congrArg _ (creditReq_badSize hears.member bad)),
        fun least most nowhere => run.trans (congrArg _ (creditReq_nowhere hears.member least most nowhere)),
        fun least most p landing => ⟨fun no => run.trans (congrArg _ (creditReq_denied hears.member least most landing no)),
          fun may => run.trans (congrArg _ (creditReq_queues hears.member least most landing may))⟩⟩
    · have run := exec_axCreditReturn hears addr kib
      exact ⟨fun bad => run.trans (congrArg _ (creditBack_badSize hears.member bad)),
        fun least most nowhere => run.trans (congrArg _ (creditBack_nowhere hears.member least most nowhere)),
        fun least most p landing => ⟨fun turn none_ => run.trans (congrArg _ (creditBack_returns hears.member least most landing turn none_)),
          fun later => run.trans (congrArg _ (creditBack_waits hears.member least most landing later))⟩⟩
    · have run := exec_axCreditGrant hears addr kib
      exact ⟨fun live => run.trans (congrArg _ (granted_live asked live)), fun dead => run.trans (congrArg _ (granted_dead asked dead))⟩
  · intro h tag cause s t
    refine ⟨fun hears => ?_, fun hears e x sent command => ?_, fun hears e sent call => ?_⟩
    · have run := exec_axAck hears tag
      exact ⟨fun none_ => run.trans (congrArg _ (acked_unknown none_)),
        fun some_ done keep split_ => run.trans (congrArg _ (acked_known some_ split_))⟩
    · exact (exec_axNack hears tag cause).trans (congrArg _ (nacked_command cause sent command))
    · exact (exec_axNack hears tag cause).trans (congrArg _ (nacked_call cause sent call))
  · intro pos stream tag e s sent
    refine ⟨fun early => congrArg Host.Outcome.next (ackTimeout_early sent early), fun late alive =>
      ⟨fun call => congrArg Host.Outcome.next (ackTimeout_call sent late alive call), fun x command => ?_⟩⟩
    split
    case isTrue live => exact congrArg Host.Outcome.next (ackTimeout_ends sent late alive command live)
    case isFalse dead => exact congrArg Host.Outcome.next (ackTimeout_ended sent late alive command dead)
  · intro h m v late s port i set u
    exact ⟨exec_axMsignal_dropped m v late, fun first taken => ⟨exec_axMsignal_noRing port m v late taken,
      fun ring other => ⟨exec_axMsignal_forwards port m v late taken ring other, exec_axMsignal_noWay port m v late taken ring other⟩⟩⟩

end Sys2Proof.Machine

namespace Sys2Proof.Machine

/-! ## The end of a training (R302) -/

/-- A training of port i ends: the lanes that have turned out bad are known, and one that was no first training counts in AX_RETRAINS. -/
def State.lanesJudged (s : State) (i : Nat) : State :=
  let t := s.setLink i { s.link i with bad := s.badLanes i }
  if (t.link i).re || t.axState i = 5 then t.countF (uAX i) 0x114 15 0 1 else t

/-- Fewer than four good lanes take the port DOWN. -/
theorem trained_narrow {s : State} {i good : Nat} (on : s.flag (uAX i) 0x104 0 = true) (trains : s.axState i = 1 ∨ s.axState i = 5)
    (few : (s.goodLanes i good).length < 4) (rtt : Nat) : s.trained i good rtt = (s.lanesJudged i).portLost i 1 := by
  have ends : ¬(!s.flag (uAX i) 0x104 0 || (s.axState i != 1 && s.axState i != 5)) = true := by
    rcases trains with h | h
    · simp [on, h]
    · simp [on, h]
  exact (if_neg ends).trans (if_pos few)

/-- After reset, port AX0 is enabled and wakes (state 5). -/
def wakingPort : State := (State.reset.setFlag (uAX 0) 0x104 0 true).setAxState 0 5

theorem wakingPort_trains : wakingPort.flag (uAX 0) 0x104 0 = true ∧ wakingPort.axState 0 = 5 ∧ (wakingPort.goodLanes 0 0).length < 4 := by
  decide +kernel

/-- The judged state still waits for the end of its training. -/
theorem judgedPort_trains : (wakingPort.lanesJudged 0).flag (uAX 0) 0x104 0 = true ∧ (wakingPort.lanesJudged 0).axState 0 = 5 ∧
    ((wakingPort.lanesJudged 0).goodLanes 0 0).length < 4 := by
  decide +kernel

/-- The training that ends there is counted beside the one that has been judged. -/
theorem judgedPort_counts : ((wakingPort.lanesJudged 0).portLost 0 1).rd (uAX 0) 0x114 = 1 ∧
    (((wakingPort.lanesJudged 0).lanesJudged 0).portLost 0 1).rd (uAX 0) 0x114 = 2 := by
  decide +kernel

/-- Refutes O40: its clause on RETRAIN_DONE lets s name the state whose lanes are judged and whose training is counted (R302, R315) before
it runs the command at s, so the command judges and counts again. Where AX0 wakes and finds no good lane, AX_RETRAINS is then 2, and the
clause has it at 1. -/
theorem not_ringLinks : ¬Obligations.RingLinks := by
  unfold Obligations.RingLinks
  intro claim
  obtain ⟨-, -, training, -⟩ := claim
  obtain ⟨on, waking, few⟩ := wakingPort_trains
  obtain ⟨on', waking', few'⟩ := judgedPort_trains
  obtain ⟨narrow, -⟩ := training 0 0 0 wakingPort (by decide) on (.inr waking)
  have claimed : exec (.retrainDone 0 0 0) (wakingPort.lanesJudged 0) = .next ((wakingPort.lanesJudged 0).portLost 0 1) := narrow few
  have runs : exec (.retrainDone 0 0 0) (wakingPort.lanesJudged 0) = .next (((wakingPort.lanesJudged 0).lanesJudged 0).portLost 0 1) :=
    congrArg Host.Outcome.next (trained_narrow on' (.inr waking') few' 0)
  obtain ⟨once, twice⟩ := judgedPort_counts
  have same := congrArg (·.rd (uAX 0) 0x114) (Host.Outcome.next.inj (claimed.symm.trans runs))
  exact absurd (once.symm.trans (same.trans twice)) (by decide)

end Sys2Proof.Machine

namespace Sys2Proof.Machine

/-! ## The step, its queue, and the tick of the Gauge (R255, R461, R462, R530) -/

/-- Every arm of the dispatch answers a next state. -/
theorem exec_answers (c : Instr) (s : State) : ∃ t, exec c s = .next t := by
  cases c <;> exact ⟨_, rfl⟩

theorem step_front (c : Instr) (rest : List Instr) (s : State) :
    step { s with pending := c :: rest } = exec c { s with pending := rest } := rfl

/-- Settles O55, by the definition of the step. -/
theorem stepRunsFrontCommand : Obligations.StepRunsFrontCommand := by
  unfold Obligations.StepRunsFrontCommand
  exact step_front

/-- Settles O56: every arm answers, and what every command keeps includes the queue. -/
theorem everyCommandCompletes : Obligations.EveryCommandCompletes := by
  unfold Obligations.EveryCommandCompletes
  have completes : ∀ (c : Instr) (s : State), ∃ t, exec c s = .next t ∧ t.pending = s.pending := fun c s => by
    obtain ⟨t, runs⟩ := exec_answers c s
    exact ⟨t, runs, (exec_keeps c s t runs).pending⟩
  exact ⟨completes, fun c rest s => completes c { s with pending := rest }⟩

/-- Settles O60: the fuses are among what a step keeps. -/
theorem fusesNeverCleared : Obligations.FusesNeverCleared := by
  unfold Obligations.FusesNeverCleared
  exact fun s t h => (step_keeps h).fuses

theorem reset_canonical : State.reset.Canonical := ⟨rfl, rfl⟩

theorem reset_incr : State.reset.rd uGauge 0x110 = 0x20000000 := by decide +kernel

theorem reset_adjLeft : State.reset.adjLeft = 0 := by decide +kernel

/-- Settles O58: the reset state read field by field. -/
theorem resetState : Obligations.ResetState := by
  unfold Obligations.ResetState
  exact ⟨rfl, rfl, rfl, fun _ => rfl, reset_canonical, reset_incr, reset_adjLeft⟩

/-! ### A tick of the Gauge -/

/-- Units of 2^−28 ns in a second. -/
def unitsPerS : Nat := nsPerS * 2 ^ 28

theorem unitsPerS_int : ((unitsPerS : Nat) : Int) = nsPerS * 2 ^ 28 := Nat.cast_mul nsPerS (2 ^ 28)

/-- A time below 2^48 seconds that is written as one number. -/
theorem setTime_nat (s : State) (n : Nat) :
    s.setTime n = { s with gauge := { s.gauge with sec := n / unitsPerS % 2 ^ 48, sub := n % unitsPerS } } := by
  have wrap : ((2 : Int) ^ 48) = ((2 ^ 48 : Nat) : Int) := by decide
  simp only [State.setTime, ← unitsPerS_int, wrap, ← Int.natCast_ediv, ← Int.natCast_emod, Int.toNat_natCast]

theorem fine_eq (s : State) : s.fine = ((s.gauge.sec * unitsPerS + s.gauge.sub : Nat) : Int) := by
  rw [State.fine, Nat.cast_add, Nat.cast_mul, unitsPerS_int]

/-- Gauge time, in units of 2^−28 ns, after one increment. -/
def State.nextFine (s : State) : Nat := s.gauge.sec * unitsPerS + s.gauge.sub + (s.rd uGauge 0x110).toNat

section
variable {s : State} (steady : s.gauge.step = none) (unset : s.gauge.set = none) (still : s.adjLeft = 0)
include steady unset still

theorem gaugeTick_idle : s.gaugeTick = { s with gauge :=
    ⟨s.nextFine / unitsPerS % 2 ^ 48, s.nextFine % unitsPerS, none, none, 0, s.gauge.ticks + 1⟩ } := by
  have total : s.fine + ((s.rd uGauge 0x110).toNat : Int) + 0 = (s.nextFine : Int) := by
    rw [fine_eq, State.nextFine]
    push_cast
    ring
  simp only [State.gaugeTick, still, if_true, total, setTime_nat, steady, unset]

theorem step_idle (empty : s.pending = []) : step s = .next { s with gauge :=
    ⟨s.nextFine / unitsPerS % 2 ^ 48, s.nextFine % unitsPerS, none, none, 0, s.gauge.ticks + 1⟩ } := by
  have ticks : step s = .next s.gaugeTick := by simp only [step, empty]
  rw [ticks, gaugeTick_idle steady unset still]

end

/-- A number's seconds and the rest make it up again, modulo 2^48 seconds. -/
theorem seconds_rest (n : Nat) : n / unitsPerS % 2 ^ 48 * unitsPerS + n % unitsPerS = n % (2 ^ 48 * unitsPerS) := by
  rw [Nat.mul_comm (2 ^ 48), Nat.mod_mul]
  ring

theorem unitsPerS_pos : 0 < unitsPerS := by decide

/-- Settles O57: an idle tick sets the time alone. -/
theorem idleTicksGauge : Obligations.IdleTicksGauge := by
  unfold Obligations.IdleTicksGauge
  intro s empty steady unset still _ _
  refine ⟨_, step_idle steady unset still empty, rfl, rfl, Nat.mod_lt _ (by decide), Nat.mod_lt _ unitsPerS_pos, ?_⟩
  exact (congrArg (· % (2 ^ 48 * unitsPerS)) (seconds_rest s.nextFine)).trans (Nat.mod_mod ..)

/-! ### The increment (R462) -/

/-- The row of INCR. -/
def incrRow : RegRow := ⟨0x110, 4, 1, .rw, 0x20000000, 0xFFFFFFFF, 0, 0, [(31, 0, 0x1FF00000, 0x20100000)]⟩

theorem findRow_incr : findRow uGauge 0x110 = some incrRow := by decide +kernel

theorem incrRow_bad {v : Nat} (lt : v < 2 ^ 32) :
    incrRow.bad (w32 v) = if v < 0x1FF00000 ∨ 0x20100000 < v then some .range else none := by
  have num : (w32 v).toNat = v := (w32_toNat v).trans (Nat.mod_eq_of_lt lt)
  have valid : v &&& 0xFFFFFFFF = v := (Nat.and_two_pow_sub_one_eq_mod v 32).trans (Nat.mod_eq_of_lt lt)
  have whole : bits (w32 v) 31 0 = v := by simpa [bits, num] using lt
  simp [RegRow.bad, incrRow, num, valid, whole]

section
variable {ini v : Nat} {s : State} (lt : v < 2 ^ 32) (on : s.exists? uGauge = true)
  (allowed : s.fwAllows ini (regAddr uGauge 0x110) true = true) (may : s.mayWrite ini uGauge = true)
include lt on allowed may

theorem exec_incrWrite_range (out : v < 0x1FF00000 ∨ 0x20100000 < v) :
    exec (.incrWrite ini v) s = .next (s.accError ini (regAddr uGauge 0x110) .range) := by
  have bad := (incrRow_bad lt).trans (if_pos out)
  have stops : s.guarded ini uGauge 0x110 (w32 v) false (fun s => s.wr uGauge 0x110 (w32 v)) =
      s.accError ini (regAddr uGauge 0x110) .range := by
    simp [State.guarded, on, allowed, may, findRow_incr, bad]
  exact congrArg _ stops

theorem exec_incrWrite_stores (least : 0x1FF00000 ≤ v) (most : v ≤ 0x20100000) :
    exec (.incrWrite ini v) s = .next (s.wr uGauge 0x110 (w32 v)) := by
  have fine : incrRow.bad (w32 v) = none := (incrRow_bad lt).trans (if_neg (by omega))
  have admits : s.Admits ini uGauge 0x110 (w32 v) false := ⟨on, allowed, .inr may, incrRow, findRow_incr, fine⟩
  exact congrArg _ (guarded_of_admits admits _)

end

/-- Settles O35: the row of INCR, and the idle tick. -/
theorem incrementRule : Obligations.IncrementRule := by
  unfold Obligations.IncrementRule
  refine ⟨reset_incr, fun ini v s lt on allowed may => ⟨exec_incrWrite_range lt on allowed may,
    exec_incrWrite_stores lt on allowed may⟩, fun s empty steady unset still below => ?_⟩
  have total : s.fine + (s.rd uGauge 0x110).toNat = (s.nextFine : Int) := by
    rw [fine_eq, State.nextFine]
    push_cast
    ring
  have small : s.nextFine < 2 ^ 48 * unitsPerS := by
    rw [total] at below
    exact_mod_cast below
  refine ⟨_, step_idle steady unset still empty, ?_⟩
  rw [total, fine_eq, seconds_rest, Nat.mod_eq_of_lt small]

end Sys2Proof.Machine

namespace Sys2Proof.Machine

/-! ## Setting Gauge time (R463–R465, R468, R484) -/

/-- ADJ_LEFT 1 ns closer to 0. -/
def State.slewLeft (s : State) : Int := if 0 < s.adjLeft then s.adjLeft - 1 else s.adjLeft + 1

/-- A slew has moved time by another nanosecond. -/
def State.slewMoved (s : State) : State :=
  { s.wr uGauge 0x11C (w32 (unsext 32 s.slewLeft)) with gauge := { s.gauge with slewTicks := s.gauge.slewTicks - 512 } }

theorem slewStep_due {s : State} (runs : s.adjLeft ≠ 0) (due : 512 ≤ s.gauge.slewTicks) :
    s.slewStep = if s.slewLeft = 0 then s.slewMoved.slewDone else s.slewMoved := by
  have goes : ¬((decide (s.adjLeft = 0) || decide (s.gauge.slewTicks < 512)) = true) := by simp [runs, due]
  rw [State.slewStep]
  exact if_neg goes

section
variable {s : State} {force : Bool}

theorem stepBy_blocked (blocked : s.stepBlocked force = true) (d : Int) : s.stepBy d force = (s, false) := if_pos blocked

theorem stepBy_free (free : s.stepBlocked force = false) (d : Int) :
    s.stepBy d force = ({ s with gauge := { s.gauge with step := some (d, force) } }, true) := if_neg (by rw [free]; decide)

theorem setTo_blocked (blocked : s.stepBlocked force = true) (sec ns : Nat) : s.setTo sec ns force = (s, false) := if_pos blocked

theorem setTo_free (free : s.stepBlocked force = false) (sec ns : Nat) : s.setTo sec ns force =
    ({ s with gauge := { s.gauge with set := some (sec % 2 ^ 48, ns, force) } }, true) := if_neg (by rw [free]; decide)

end

theorem refLoss_first {s : State} (held : s.refLost = false) :
    s.refLoss = ((s.setFlag uGauge 0x100 29 true).postSync (s.setFlag uGauge 0x100 29 true).gSync).recordFault fREFCLK uGauge 0x4A
      noQueue 0 0 0 0 oNone := by
  simp only [State.refLoss, held, Bool.false_eq_true, if_false]

theorem setSync_change {s : State} {v : Nat} (change : s.gSync ≠ v) : s.setSync v = (s.setFld uGauge 0x100 31 30 v).postSync s.gSync :=
  if_neg change

theorem ptpLost_falls {s : State} (on : s.ptp.on = true) (not_free : s.gSync ≠ 0) :
    s.ptpLost = { s.setSync 2 with ptp := { s.ptp with good := 0, fresh := 0 } } := by
  simp [State.ptpLost, on, not_free]

section
variable {s : State} {ini : Nat} {args : List Word} (free : s.claimed uGauge = false)
include free

theorem callAdjustTime_slews (way : arg args 0 = 1) : callAdjustTime ini args s =
    if arg args 1 = 0 then (s.slewBy (nth args 1 0)).slewDone.ret OK else (s.slewBy (nth args 1 0)).retPending 0x0901 0 := by
  simp [callAdjustTime, free, way]

theorem callAdjustTime_steps (way : arg args 0 = 2) : callAdjustTime ini args s =
    let r := s.stepBy (sext 32 (arg args 1)) (arg args 2 = 1)
    r.1.ret (if r.2 then OK else STEP_BLOCKED) := by
  simp [callAdjustTime, free, way]

theorem callAdjustTime_sets (way : arg args 0 = 3) (ns : arg args 1 < nsPerS) (high : arg args 3 < 2 ^ 16) :
    callAdjustTime ini args s =
    let r := s.setTo (arg args 2 + 2 ^ 32 * arg args 3) (arg args 1) (arg args 4 = 1)
    r.1.ret (if r.2 then OK else STEP_BLOCKED) := by
  have sound : ¬((decide (nsPerS ≤ arg args 1) || decide (2 ^ 16 ≤ arg args 3)) = true) := by
    simp only [Bool.or_eq_true, decide_eq_true_eq]
    omega
  simp only [callAdjustTime, free, way, sound, Bool.false_eq_true, if_false]

theorem callSetIncrement_stores (least : 0x1FF00000 ≤ arg args 0) (most : arg args 0 ≤ 0x20100000) :
    callSetIncrement ini args s = (s.wr uGauge 0x110 (nth args 0 0)).ret OK := by
  simp [callSetIncrement, free, Nat.not_lt.mpr least, Nat.not_lt.mpr most]

theorem callSetIncrement_range (out : arg args 0 < 0x1FF00000 ∨ 0x20100000 < arg args 0) :
    callSetIncrement ini args s = s.ret RANGE := by
  simp [callSetIncrement, free, out]

theorem callConfigurePtp_starts (profile : arg args 0 ≤ 2) (transport : arg args 1 ≤ 1) (ports : arg args 2 ≤ 15)
    (domain : arg args 4 ≤ 127) (least : -7 ≤ sext 32 (arg args 5)) (most : sext 32 (arg args 5) ≤ 4) :
    callConfigurePtp ini args s =
      (({ s with ptp := ⟨arg args 2 != 0, args.take 8, 0, 0, 0, 0, 0⟩ } : State).setSync 0).ret OK := by
  simp [callConfigurePtp, free, Nat.not_lt.mpr profile, Nat.not_lt.mpr transport, Nat.not_lt.mpr ports, Nat.not_lt.mpr domain,
    Int.not_lt.mpr least, Int.not_lt.mpr most]

end

/-- Settles O36: an equation for each way that time is set. -/
theorem gaugeTime : Obligations.GaugeTime := by
  unfold Obligations.GaugeTime
  refine ⟨fun s runs due => ⟨fun more => ?_, fun ends => ?_⟩, fun ini force s => ⟨fun admits => congrArg Host.Outcome.next (guarded_of_admits admits _),
    fun plain admits => ?_, fun admits => ⟨fun free => ?_, fun blocked => ?_⟩,
    fun admits => ⟨fun free => ?_, fun blocked => ?_⟩⟩, fun s => ⟨fun held => congrArg Host.Outcome.next (refLoss_first held), rfl,
    fun on not_free change => ?_⟩, fun ini args s free => ⟨fun way ns => ?_, fun way ns => ?_, fun way blocked => ?_,
    fun way open_ => ?_, fun way ns high open_ => ?_, fun least most => congrArg Host.Outcome.next (callSetIncrement_stores free least most),
    fun out => congrArg Host.Outcome.next (callSetIncrement_range free out), fun profile transport ports domain least most => ?_⟩⟩
  · exact congrArg Host.Outcome.next ((slewStep_due runs due).trans (if_neg more))
  · exact congrArg Host.Outcome.next ((slewStep_due runs due).trans (if_pos ends))
  · subst plain
    exact congrArg Host.Outcome.next (guarded_of_admits admits _)
  · exact congrArg Host.Outcome.next ((guarded_of_admits admits _).trans (by rw [stepBy_free free]; rfl))
  · exact congrArg Host.Outcome.next ((guarded_of_admits admits _).trans (by rw [stepBy_blocked blocked]; rfl))
  · exact congrArg Host.Outcome.next ((guarded_of_admits admits _).trans (by rw [setTo_free free]; rfl))
  · exact congrArg Host.Outcome.next ((guarded_of_admits admits _).trans (by rw [setTo_blocked blocked]; rfl))
  · exact congrArg Host.Outcome.next ((ptpLost_falls on not_free).trans (by rw [setSync_change change]))
  · exact congrArg Host.Outcome.next ((callAdjustTime_slews free way).trans (if_pos ns))
  · exact congrArg Host.Outcome.next ((callAdjustTime_slews free way).trans (if_neg ns))
  · exact congrArg Host.Outcome.next ((callAdjustTime_steps free way).trans (by rw [stepBy_blocked blocked]; rfl))
  · exact congrArg Host.Outcome.next ((callAdjustTime_steps free way).trans (by rw [stepBy_free open_]; rfl))
  · exact congrArg Host.Outcome.next ((callAdjustTime_sets free way ns high).trans (by rw [setTo_free open_]; rfl))
  · exact congrArg Host.Outcome.next (callConfigurePtp_starts free profile transport ports domain least most)

/-! ## Comparators, pulses and captures (R470–R474, R484) -/

/-! ### Comparators -/

theorem comparatorFire_due {s : State} {n : Nat} (lt : n < 16) (en : s.cmpEn n = true) (armed : (s.cmpX n).armed = true)
    (due : (s.cmpX n).next ≤ s.nowNs) : s.comparatorFire n =
      let i := s.cmpIndex n
      let t := s.cmpFired n
      match t.cmpOwner n with
      | 1 => t.pulseFire i
      | 2 => t.canFire i
      | 3 => if t.trigBound i && t.fld uMill (0x300 + 4 * i) 3 0 = n then (t.gateTrig i).millPulse i else t
      | _ => t := by
  have goes : s.cmpDue n = true := by simp [State.cmpDue, lt, en, armed, due]
  rw [State.comparatorFire, goes]
  rfl

section
variable {s : State} {n : Nat} (lt : n < 16) (en : s.cmpEn n = true) (armed : (s.cmpX n).armed = true) (due : (s.cmpX n).next ≤ s.nowNs)
include lt en armed due

theorem comparatorFire_free (owner : (s.cmpFired n).cmpOwner n = 0) : s.comparatorFire n = s.cmpFired n :=
  (comparatorFire_due lt en armed due).trans (by simp only [owner])

theorem comparatorFire_pulse (owner : (s.cmpFired n).cmpOwner n = 1) :
    s.comparatorFire n = (s.cmpFired n).pulseFire (s.cmpIndex n) :=
  (comparatorFire_due lt en armed due).trans (by simp only [owner])

theorem comparatorFire_can (owner : (s.cmpFired n).cmpOwner n = 2) : s.comparatorFire n = (s.cmpFired n).canFire (s.cmpIndex n) :=
  (comparatorFire_due lt en armed due).trans (by simp only [owner])

theorem comparatorFire_mill (owner : (s.cmpFired n).cmpOwner n = 3) (bound : (s.cmpFired n).trigBound (s.cmpIndex n) = true)
    (named : (s.cmpFired n).fld uMill (0x300 + 4 * s.cmpIndex n) 3 0 = n) :
    s.comparatorFire n = ((s.cmpFired n).gateTrig (s.cmpIndex n)).millPulse (s.cmpIndex n) := by
  refine (comparatorFire_due lt en armed due).trans ?_
  simp only [owner, bound, named, decide_true, Bool.and_self, if_true]

end

section
variable {ini kind idx n : Nat} {s : State} (kind_lt : kind < 4) (idx_lt : idx < 8) (ok : ownerOk kind idx n = true) {release : Bool}
  (admits : s.Admits ini uGauge 0x138 (w32 (kind * 2 ^ 30 + b2n release * 2 ^ 29 + idx * 2 ^ 26 + n)) false)
include kind_lt idx_lt ok admits

theorem gaugeClaim_eq : s.gaugeClaim ini kind idx n release =
    let r := if release then s.cmpRelease n else s.cmpClaim kind idx n
    if r.2 = OK then r.1 else r.1.accError ini (regAddr uGauge 0x138) .check := by
  have n_lt : n < 16 := by simp [ownerOk] at ok; exact ok.1
  simp only [State.gaugeClaim, Nat.mod_eq_of_lt kind_lt, Nat.mod_eq_of_lt idx_lt, Nat.mod_eq_of_lt n_lt]
  refine (guarded_of_admits admits _).trans ?_
  simp only [ok, Bool.not_true, Bool.false_eq_true, if_false]

end

theorem cmpClaim_taken {s : State} {kind idx n : Nat} (taken : s.cmpOwner n ≠ 0 ∨ s.cmpOf kind idx ≠ none) :
    s.cmpClaim kind idx n = (s, COMP_TAKEN) := by
  have stops : (s.cmpOwner n != 0 || (s.cmpOf kind idx).isSome) = true := by
    simpa [Option.isSome_iff_ne_none] using taken
  exact if_pos stops

theorem cmpRelease_used {s : State} {n : Nat} (used : s.cmpInUse n = true) : s.cmpRelease n = (s, COMP_IN_USE) := if_pos used

theorem cmpRelease_frees {s : State} {n : Nat} (idle : s.cmpInUse n = false) (pulse : s.cmpOwner n ≠ 1) (can : s.cmpOwner n ≠ 2) :
    s.cmpRelease n =
      (((s.setFld uGauge (cmpOff n) 30 29 0).setFld uGauge (cmpOff n) 28 26 0).setFlag uGauge 0x100 n false, OK) := by
  simp only [State.cmpRelease, idle, Bool.false_eq_true, if_false]

/-! ### Captures -/

/-- A fold that no element changes. -/
theorem foldl_fixed_of {α β : Type} {f : β → α → β} {b : β} {l : List α} (fixed : ∀ a ∈ l, f b a = b) : l.foldl f b = b := by
  induction l with
  | nil => rfl
  | cons a t ih =>
    rw [List.foldl_cons, fixed a List.mem_cons_self]
    exact ih fun x here => fixed x (List.mem_cons_of_mem _ here)

/-- A fold that one element alone changes. -/
theorem foldl_single {α β : Type} {f : β → α → β} {b : β} {l : List α} {a : α} (distinct : l.Nodup) (here : a ∈ l)
    (before : ∀ x ∈ l, x ≠ a → f b x = b) (after : ∀ x ∈ l, x ≠ a → f (f b a) x = f b a) : l.foldl f b = f b a := by
  obtain ⟨l₁, l₂, rfl⟩ := List.append_of_mem here
  have apart : a ∉ l₁ ++ l₂ := (List.nodup_middle.mp distinct |> List.nodup_cons.mp).1
  rw [List.mem_append, not_or] at apart
  rw [List.foldl_append, List.foldl_cons, foldl_fixed_of fun x m => before x (List.mem_append_left _ m) fun e => apart.1 (e ▸ m),
    foldl_fixed_of fun x m => after x (List.mem_append_right _ (List.mem_cons_of_mem _ m)) fun e => apart.2 (e ▸ m)]

/-- Capture unit k captures an edge of ball. -/
def State.ballHit (s : State) (ball edge k : Nat) : Bool := s.flag uGauge (capOff k) 31 && s.fld uGauge (capOff k) 30 28 = 0 &&
  s.fld uGauge (capOff k) 12 8 = ball && s.fld uGauge (capOff k) 27 26 &&& edge != 0

/-- What an edge of a ball that capture unit k captures does to it: a stamp, or another one lost. -/
def State.stamped (s : State) (k : Nat) : State :=
  if 16 ≤ (s.capFifo k).length then s.count uGauge (capOff k + 20) 1
  else s.setCap k (s.capFifo k ++ [(s.gaugeNs, s.gauge.sec, s.gauge.sub / 2 ^ 12 % 2 ^ 16)])

theorem capture_ball (s : State) (ball edge : Nat) :
    s.capture 0 ball 0 edge = (List.range 8).foldl (fun s k => if s.ballHit ball edge k then s.stamped k else s) s := by
  rw [State.capture]
  congr 1
  funext t k
  have same : (t.flag uGauge (capOff k) 31 && t.fld uGauge (capOff k) 30 28 = 0 && t.fld uGauge (capOff k) 12 8 = ball &&
      (0 != 1 || t.fld uGauge (capOff k) 3 0 = 0) && (0 != 0 || t.fld uGauge (capOff k) 27 26 &&& edge != 0)) =
        t.ballHit ball edge k := by simp [State.ballHit]
  simp only [same, State.stamped]
  cases t.ballHit ball edge k <;> rfl

theorem capOff_apart {k n i : Nat} (ne : k ≠ n) (small : i < 32) (k_lt : k < 8) (n_lt : n < 8) :
    rk uGauge (capOff k) ≠ rk uGauge (capOff n + i) :=
  rk_ne (by unfold capOff; omega) (by unfold capOff; omega) fun same => by
    simp only [capOff, Prod.mk.injEq, true_and] at same
    omega

/-- The stamp of one unit leaves the settings of the others alone. -/
theorem rd_stamped (s : State) {k n : Nat} (ne : k ≠ n) (k_lt : k < 8) (n_lt : n < 8) :
    (s.stamped n).rd uGauge (capOff k) = s.rd uGauge (capOff k) := by
  unfold State.stamped
  split
  · exact rd_wr_ne _ _ _ _ _ _ (capOff_apart ne (by decide) k_lt n_lt)
  · exact (rd_wr_ne _ _ _ _ _ _ (capOff_apart ne (by decide) k_lt n_lt)).trans
      (rd_wr_ne _ _ _ _ _ _ (capOff_apart ne (by decide) k_lt n_lt))

theorem ballHit_congr {s t : State} {k : Nat} (ball edge : Nat) (same : t.rd uGauge (capOff k) = s.rd uGauge (capOff k)) :
    t.ballHit ball edge k = s.ballHit ball edge k := by
  unfold State.ballHit State.flag State.fld
  rw [same]

theorem capture_single {s : State} {ball edge n : Nat} (n_lt : n < 8) (hit : s.ballHit ball edge n = true)
    (alone : ∀ k, k < 8 → k ≠ n → s.ballHit ball edge k = false) : s.capture 0 ball 0 edge = s.stamped n := by
  have stamps : (if s.ballHit ball edge n then s.stamped n else s) = s.stamped n := if_pos hit
  rw [capture_ball]
  refine (foldl_single List.nodup_range (List.mem_range.mpr n_lt) (fun k here ne => ?_) (fun k here ne => ?_)).trans stamps
  · rw [alone k (List.mem_range.mp here) ne]
    rfl
  · have k_lt := List.mem_range.mp here
    have miss : (s.stamped n).ballHit ball edge k = false :=
      (ballHit_congr ball edge (rd_stamped s ne k_lt n_lt)).trans (alone k k_lt ne)
    rw [stamps, miss]
    rfl

theorem exec_capNsRead {s : State} {ini n : Nat} (lt : n < 8)
    (allowed : s.fwAllows ini (regAddr uGauge (capOff n + 4)) false = true) : exec (.capNsRead ini n) s =
      .next { (s.capRead n).1 with reply := ⟨false, natBytes 4 (s.capRead n).2.toNat⟩ } := by
  have reads : exec (.capNsRead ini n) s = .next (if s.fwAllows ini (regAddr uGauge (capOff (n % 8) + 4)) false then
    { (s.capRead (n % 8)).1 with reply := ⟨false, natBytes 4 (s.capRead (n % 8)).2.toNat⟩ }
    else { s.fwRefuse ini (regAddr uGauge (capOff (n % 8) + 4)) false with reply := ⟨true, []⟩ }) := rfl
  rw [reads, Nat.mod_eq_of_lt lt, if_pos allowed]

theorem capRead_empty {s : State} {n : Nat} (empty : s.capFifo n = []) : s.capRead n = (s, 0) := by
  simp only [State.capRead, empty]

theorem zero_bytes : natBytes 4 (0 : Word).toNat = [0, 0, 0, 0] := by decide

theorem capRead_oldest {s : State} {n ns sec fr : Nat} {rest : List (Nat × Nat × Nat)} (fifo : s.capFifo n = (ns, sec, fr) :: rest) :
    s.capRead n = (((s.wr uGauge (capOff n + 8) (w32 sec)).wr uGauge (capOff n + 12) (w32 (fr * 2 ^ 16 + sec / 2 ^ 32))).setCap n rest,
      w32 (2 ^ 31 + ns)) := by
  simp only [State.capRead, fifo]

/-! ### Calls -/

section
variable {s : State} {ini : Nat} {args : List Word} (free : s.claimed uGauge = false)
include free

theorem callClaimComparator_eq (ok : ownerOk (arg args 1) (arg args 2) (arg args 0) = true) (way : arg args 3 ≤ 1) :
    callClaimComparator ini args s =
      let r := if arg args 3 = 1 then s.cmpRelease (arg args 0) else s.cmpClaim (arg args 1) (arg args 2) (arg args 0)
      r.1.ret r.2 := by
  simp [callClaimComparator, free, ok, Nat.not_lt.mpr way]

theorem callConfigureComparator_eq (small : arg args 0 < 16) (ns : arg args 1 < nsPerS) (high : arg args 3 < 2 ^ 16)
    (period : cmpPeriodOk (arg args 4) = true) (wake : arg args 5 ≤ 1) (on : arg args 6 ≤ 1) :
    callConfigureComparator ini args s = if s.cmpOwner (arg args 0) = 2 then s.ret DENIED else
      ((((((((s.wr uGauge (cmpOff (arg args 0) + 4) (nth args 1 0)).wr uGauge (cmpOff (arg args 0) + 8) (nth args 2 0)).wr
        uGauge (cmpOff (arg args 0) + 12) (nth args 3 0)).wr uGauge (cmpOff (arg args 0) + 16) (nth args 4 0)).setFlag
          uGauge (cmpOff (arg args 0)) 25 (arg args 5 = 1)).cmpCommit (arg args 0)).cmpEnable (arg args 0) (arg args 6 = 1)).ret OK) := by
  have high' : ¬65536 ≤ arg args 3 := Nat.not_le.mpr high
  simp [callConfigureComparator, free, Nat.not_le.mpr small, Nat.not_le.mpr ns, high', period, Nat.not_lt.mpr wake, Nat.not_lt.mpr on]

theorem callConfigurePulse_pulse (small : arg args 0 < 8) (on : arg args 1 ≤ 1) (polarity : arg args 2 ≤ 1) (least : 8 ≤ arg args 3)
    (most : arg args 3 ≤ nsPerS) {t : State} {r : Nat}
    (sets : (s.wr uGauge (0x304 + 8 * arg args 0) (w32 (arg args 3))).pulseSet (arg args 0) (arg args 1 = 1) (arg args 2 = 1) = (t, r)) :
    callConfigurePulse ini args s = if r = OK then t.ret OK else s.ret r := by
  have sound : ¬((decide (1 < arg args 1) || decide (1 < arg args 2) || decide (arg args 3 < 8) || decide (nsPerS < arg args 3)) =
      true) := by
    simp only [Bool.or_eq_true, decide_eq_true_eq]
    omega
  rw [callConfigurePulse, if_neg (by rw [free]; decide), if_pos small, if_neg sound, sets]

end

/-- Sound arguments of a capture channel pass the range check of call 0x0905. -/
theorem captureArgs_sound {args : List Word} (on : arg args 1 ≤ 1) (src : arg args 2 ≤ 7) (edge : arg args 3 ≤ 3) (item : arg args 4 ≤ 31)
    (channel : arg args 5 ≤ 15) : ¬((decide (1 < arg args 1) || decide (7 < arg args 2) || decide (3 < arg args 3) ||
      decide (31 < arg args 4) || decide (15 < arg args 5)) = true) := by
  simp only [Bool.or_eq_true, decide_eq_true_eq]
  omega

/-- Settles O37: an equation for each unit's firing, claim, capture and call. -/
theorem gaugeUnits : Obligations.GaugeUnits := by
  unfold Obligations.GaugeUnits
  refine ⟨fun n s lt en armed due => ?_, fun ini n value s lt => ?_, fun ini kind idx n s kind_lt idx_lt ok => ?_,
    fun n s active => congrArg Host.Outcome.next (if_pos active), fun ball n rising s lt => ?_, fun ini n s lt allowed => ?_,
    fun ini args s free => ?_⟩
  · exact ⟨fun owner => congrArg Host.Outcome.next (comparatorFire_free lt en armed due owner),
      fun owner => congrArg Host.Outcome.next (comparatorFire_pulse lt en armed due owner),
      fun owner => congrArg Host.Outcome.next (comparatorFire_can lt en armed due owner),
      fun owner bound named => congrArg Host.Outcome.next (comparatorFire_mill lt en armed due owner bound named)⟩
  · intro o admits
    have commits : exec (.cmpTargetCommit ini n value) s = .next (s.cmpTargetCommit ini n value) := rfl
    rw [commits, State.cmpTargetCommit, Nat.mod_eq_of_lt lt, guarded_of_admits admits]
    exact ⟨fun can => congrArg Host.Outcome.next (if_pos can), fun other => congrArg Host.Outcome.next (if_neg other)⟩
  · refine ⟨fun admits => ⟨fun t claims => congrArg Host.Outcome.next ?_, fun taken => congrArg Host.Outcome.next ?_⟩,
      fun admits => ⟨fun used => congrArg Host.Outcome.next ?_, fun idle pulse can => congrArg Host.Outcome.next ?_⟩⟩
    · exact (gaugeClaim_eq kind_lt idx_lt ok (release := false) admits).trans (by simp [claims])
    · exact (gaugeClaim_eq kind_lt idx_lt ok (release := false) admits).trans (by rw [if_neg Bool.false_ne_true, cmpClaim_taken taken]; rfl)
    · exact (gaugeClaim_eq kind_lt idx_lt ok (release := true) admits).trans (by rw [if_pos rfl, cmpRelease_used used]; rfl)
    · exact (gaugeClaim_eq kind_lt idx_lt ok (release := true) admits).trans (by rw [if_pos rfl, cmpRelease_frees idle pulse can]; rfl)
  · intro hit here alone
    have named : ∀ k, hit k ↔ s.ballHit ball (if rising then 1 else 2) k = true := fun k => by
      simp [hit, State.ballHit, and_assoc]
    have stamps : s.capture 0 ball 0 (if rising then 1 else 2) = s.stamped n := capture_single lt ((named n).mp here) fun k k_lt ne =>
      Bool.eq_false_iff.mpr fun other => alone k k_lt ne ((named k).mpr other)
    exact ⟨fun room => congrArg Host.Outcome.next (stamps.trans (if_neg (Nat.not_le.mpr room))), fun full => congrArg Host.Outcome.next (stamps.trans (if_pos full))⟩
  · refine ⟨fun empty => (exec_capNsRead lt allowed).trans (by rw [capRead_empty empty, zero_bytes]), fun ns sec fr rest fifo =>
      (exec_capNsRead lt allowed).trans (by rw [capRead_oldest fifo])⟩
  · refine ⟨fun ok way t r claims => congrArg Host.Outcome.next ?_, fun ok way t r frees => congrArg Host.Outcome.next ?_,
      fun small ns high period wake on => ?_,
      fun small on polarity least most t r sets => congrArg Host.Outcome.next ?_,
      fun least most on src edge item channel t r sets => congrArg Host.Outcome.next ?_⟩
    · exact (callClaimComparator_eq free ok (way.trans_le (Nat.zero_le 1))).trans (by rw [if_neg (by rw [way]; decide), claims])
    · exact (callClaimComparator_eq free ok way.le).trans (by rw [if_pos way, frees])
    · have sets := callConfigureComparator_eq (ini := ini) free small ns high period wake on
      exact ⟨fun can => congrArg Host.Outcome.next (sets.trans (if_pos can)), fun other => congrArg Host.Outcome.next (sets.trans (if_neg other))⟩
    · exact callConfigurePulse_pulse free small on polarity least most sets
    · exact (if_neg (by rw [free]; decide)).trans ((if_neg (Nat.not_lt.mpr least)).trans ((if_pos most).trans
        ((if_neg (captureArgs_sound on src edge item channel)).trans (congrArg (fun | (t, r) => t.ret r) sets))))

end Sys2Proof.Machine

namespace Sys2Proof.Machine

/-! ## Commands of the Warden (R440, R441, R445, R450, R499) -/

section
variable (ini : Nat) {s : State}

theorem wdCommand_denied {a : Nat} (other : a ≠ 2) (foreign : ini ≠ 0x180) : s.wdCommand ini a = (s, DENIED, 0) := by
  simp [State.wdCommand, other, foreign]

theorem wdCommand_forceSafe (active : s.wdState = 1 ∨ s.wdState = 2) : s.wdCommand ini 2 = (s.enterSafe 0xFF uWarden, OK, 0) := by
  simp [State.wdCommand, active]

theorem wdCommand_forceSafe_idle (service : s.wdState ≠ 1) (recovery : s.wdState ≠ 2) : s.wdCommand ini 2 = (s, OK, 0) := by
  simp [State.wdCommand, service, recovery]

end

section
variable {s : State}

theorem wdCommand_arm_locked (other : s.wdState ≠ 0) : s.wdCommand 0x180 1 = (s, WD_LOCKED, 0) := by
  simp [State.wdCommand, other]

theorem wdCommand_arm (start : s.wdState = 0) : s.wdCommand 0x180 1 =
    if s.armMask ≠ 0 then (s, ARM_REFUSED, s.armMask) else (s.arm, OK, 0) := by
  simp [State.wdCommand, start]

/-- A release needs SAFE, FW_LOCK, a pair that runs and is synced. -/
theorem wdCommand_release (safe : s.wdState = 3) (locked : s.flag uWarden 0x240 31 = true) (runs : s.pairRuns = true)
    (past : s.wd.toSafe = false) (synced : s.wd.behind = false) : s.wdCommand 0x180 3 =
      if s.failingNow = [] then (((s.wdGo 2 0xFF uWarden).openRecovery).pins true, OK, 0) else (s, REFUSED, CHECK_FAILING) := by
  cases fails : s.failingNow with
  | nil => simp [State.wdCommand, safe, locked, runs, past, synced, fails]
  | cons c l => simp [State.wdCommand, safe, locked, runs, past, synced, fails]

theorem wdCommand_release_wrong (wrong : s.wdState ≠ 3 ∨ s.flag uWarden 0x240 31 = false ∨ s.pairRuns = false ∨ s.wd.toSafe = true ∨
    s.wd.behind = true) : s.wdCommand 0x180 3 = (s, REFUSED, WRONG_STATE) := by
  have stops : (s.wdState != 3 || !s.flag uWarden 0x240 31 || !s.pairRuns || s.wd.toSafe || s.wd.behind) = true := by
    simpa [or_assoc] using wrong
  have foreign : ¬((3 != 2 && 0x180 != 0x180) = true) := by decide
  simp only [State.wdCommand, foreign, stops, if_true]
  rfl

theorem wdCommand_enterTest (quiet : s.wdState = 0 ∨ s.wdState = 3) : s.wdCommand 0x180 4 = (s.wdGo 4 0xFF uWarden, OK, 0) := by
  simp [State.wdCommand, quiet]

theorem wdCommand_enterTest_locked (start : s.wdState ≠ 0) (safe : s.wdState ≠ 3) : s.wdCommand 0x180 4 = (s, WD_LOCKED, 0) := by
  simp [State.wdCommand, start, safe]

theorem wdCommand_leaveTest (test : s.wdState = 4) : s.wdCommand 0x180 5 = (s.wdGo 0 0xFF uWarden, OK, 0) := by
  simp [State.wdCommand, test]

theorem wdCommand_leaveTest_locked (other : s.wdState ≠ 4) : s.wdCommand 0x180 5 = (s, WD_LOCKED, 0) := by
  simp [State.wdCommand, other]

end

/-- A write to WD_CMD takes the command's state, and is recorded when the command is turned away. -/
theorem wdCmdWrite_eq {s t : State} {ini a r w : Nat} (admits : s.Admits ini uWarden 0x204 (w32 a) true)
    (command : s.wdCommand ini a = (t, r, w)) : s.wdCmdWrite ini a =
      if r = OK then t else t.accError ini (regAddr uWarden 0x204) (if r = DENIED then .notHolder else if r = RANGE then .range else .check) := by
  rw [State.wdCmdWrite, guarded_of_admits admits]
  simp only [command]

/-- The five commands are the five values of WD_CMD. -/
theorem exec_wdCmd (ini : Nat) {a : Nat} (least : 1 ≤ a) (most : a ≤ 5) (s : State) :
    exec (if a = 1 then .wdCmdArm ini else if a = 2 then .wdCmdForceSafe ini else if a = 3 then .wdCmdRelease ini
      else if a = 4 then .wdCmdEnterTest ini else .wdCmdLeaveTest ini) s = .next (s.wdCmdWrite ini a) := by
  have which : a = 1 ∨ a = 2 ∨ a = 3 ∨ a = 4 ∨ a = 5 := by omega
  rcases which with rfl | rfl | rfl | rfl | rfl <;> rfl

theorem supCmd_bad {v : Nat} {s : State} (bad : v / 2 ^ 16 % 2 ^ 16 + v % 2 ^ 16 ≠ 0xFFFF ∨ v % 2 ^ 16 = 0 ∨ 5 < v % 2 ^ 16) :
    s.supCmd v = s.count wSdioF1 0x24 1 := by
  have stops : (v / 2 ^ 16 % 2 ^ 16 + v % 2 ^ 16 != 0xFFFF || v % 2 ^ 16 = 0 || 5 < v % 2 ^ 16) = true := by
    simpa [or_assoc] using bad
  exact if_pos stops

theorem supCmd_good {v : Nat} {s : State} (complement : v / 2 ^ 16 % 2 ^ 16 + v % 2 ^ 16 = 0xFFFF) (least : 1 ≤ v % 2 ^ 16)
    (most : v % 2 ^ 16 ≤ 5) : s.supCmd v = s.wdCmdWrite 0x180 (v % 2 ^ 16) := by
  have goes : ¬((v / 2 ^ 16 % 2 ^ 16 + v % 2 ^ 16 != 0xFFFF || v % 2 ^ 16 = 0 || 5 < v % 2 ^ 16) = true) := by
    simp only [complement, Bool.or_eq_true, bne_self_eq_false, Bool.false_eq_true, false_or, decide_eq_true_eq]
    omega
  exact if_neg goes

theorem wdCallCmd_eq {s t : State} {ini a r w : Nat} (command : s.wdCommand ini a = (t, r, w)) :
    wdCallCmd ini a s = t.ret r (if r = ARM_REFUSED ∨ r = REFUSED then [w32 w] else []) := by
  simp only [wdCallCmd, command, Bool.or_eq_true, decide_eq_true_eq]

/-! ### FW_LOCK (R449) -/

/-- Leaving repetitions out makes no list longer. -/
theorem length_eraseDups_le : ∀ l : List Nat, l.eraseDups.length ≤ l.length
  | [] => Nat.le_refl _
  | a :: t => by
    have shorter : (t.filter fun b => !b == a).length ≤ t.length := List.length_filter_le ..
    have rest := length_eraseDups_le (t.filter fun b => !b == a)
    rw [List.eraseDups_cons, List.length_cons, List.length_cons]
    omega
  termination_by l => l.length

/-- The Warden taps at most 25 marks: the gate's, sixteen compares', eight starters'. -/
theorem wdTaps_length (s : State) : s.wdTaps.length ≤ 25 := by
  have gate : (if s.flag uWarden 0x210 31 && !s.flag uWarden 0x210 30 then [s.fld uWarden 0x21C 15 0] else []).length ≤ 1 := by
    split <;> simp
  have compares : ((List.range 16).filter fun e => s.flag uWarden (0x404 + 32 * e) 31).length ≤ 16 :=
    (List.length_filter_le ..).trans_eq (List.length_range)
  have starters : ((List.range 8).filter fun t => s.flag uWarden (0x600 + 64 * t) 31).length ≤ 8 :=
    (List.length_filter_le ..).trans_eq (List.length_range)
  simp only [State.wdTaps, List.length_append, List.length_map]
  omega

theorem wdTaps_few (s : State) : ¬32 < s.wdTaps.eraseDups.length := by
  have most := wdTaps_length s
  have distinct := length_eraseDups_le s.wdTaps
  omega

theorem wardenWrite_lock {s : State} (ini : Nat) (v : Word) (open_ : s.wdOpen = true) :
    s.wardenWrite ini 0x240 v = some (if bit v 31 then s.lockFw else s) := by
  simp [State.wardenWrite, open_, wdTaps_few]

theorem wardenWrite_locked {s : State} (ini : Nat) (v : Word) (closed : s.wdOpen = false) :
    s.wardenWrite ini 0x240 v = some (s.accError ini (regAddr uWarden 0x240) .check) := by
  simp [State.wardenWrite, closed]

/-! ### The limits of R450 -/

section
variable {s : State} {ini : Nat}

theorem wdLimit_denied (foreign : ini ≠ 0x180 ∨ s.mayWrite 0x180 uWarden = false) (ok : State → Bool) (act : State → State) :
    s.wdLimit ini ok act = s.ret DENIED := by
  have stops : (ini != 0x180 || !s.mayWrite ini uWarden) = true := by
    rcases foreign with foreign | unheld
    · simp [foreign]
    · by_cases own : ini = 0x180
      · simp [own, unheld]
      · simp [own]
  exact if_pos stops

section
variable (own : ini = 0x180) (held : s.mayWrite 0x180 uWarden = true) {ok : State → Bool}
include own held

theorem wdLimit_locked (closed : ok s = false) (act : State → State) : s.wdLimit ini ok act = s.ret WD_LOCKED := by
  simp [State.wdLimit, own, held, closed]

theorem wdLimit_acts (open_ : ok s = true) (act : State → State) : s.wdLimit ini ok act = act s := by
  simp [State.wdLimit, own, held, open_]

end

theorem wdLimit_may (may : s.WdMay ini) (act : State → State) : s.wdLimit ini State.wdOpen act = act s :=
  wdLimit_acts may.1 may.2.1 may.2.2 act

end

/-! ### The supervisor's tasks, the pin test -/

section
variable {s : State} {ini : Nat} {args : List Word}

theorem callCloseTask_denied (foreign : ini ≠ 0x180 ∨ s.mayWrite 0x180 uWarden = false) : callCloseTask ini args s = s.ret DENIED := by
  rw [callCloseTask]
  exact wdLimit_denied foreign ..

theorem callPinTest_denied (foreign : ini ≠ 0x180 ∨ s.mayWrite 0x180 uWarden = false) : callPinTest ini args s = s.ret DENIED := by
  rw [callPinTest]
  exact wdLimit_denied foreign ..

theorem callCloseTask_locked (own : ini = 0x180) (held : s.mayWrite 0x180 uWarden = true) (closed : s.wdOpen = false) :
    callCloseTask ini args s = s.ret WD_LOCKED := by
  rw [callCloseTask]
  exact wdLimit_locked own held closed _

end

section
variable {s : State} {ini : Nat} {args : List Word} (may : s.WdMay ini)
include may

theorem callOpenTask_opens (least : 0x8000 ≤ arg args 0) (most : arg args 0 ≤ 0xFFFF) (some_ : 1 ≤ arg args 1)
    (short : arg args 1 ≤ 60000000) {t : State} {k : Option Nat} (opens : s.openTask 1 (arg args 0) (arg args 1) = (t, k)) :
    callOpenTask ini args s = match (generalizing := false) k with | some k => t.ret OK [w32 k] | none => t.ret RANGE := by
  have sound : ¬((decide (arg args 0 < 0x8000) || decide (0xFFFF < arg args 0) || decide (arg args 1 = 0) ||
      decide (60000000 < arg args 1)) = true) := by
    simp only [Bool.or_eq_true, decide_eq_true_eq]
    omega
  rw [callOpenTask, wdLimit_may may, if_neg sound, opens]
  cases k <;> rfl

theorem callCloseTask_closes (small : arg args 0 ≤ 15) (open_ : s.taskOpen (arg args 0) = true)
    (own : s.fld uWarden (taskOff (arg args 0)) 30 28 = 1) : callCloseTask ini args s =
      (s.closeTask (arg args 0)).ret OK [(s.closeTask (arg args 0)).rd uWarden (taskOff (arg args 0) + 8)] := by
  rw [callCloseTask]
  refine (wdLimit_may may _).trans ?_
  simp [Nat.not_lt.mpr small, open_, own]

end

section
variable {s : State} {ini : Nat} {args : List Word} (own : ini = 0x180) (held : s.mayWrite 0x180 uWarden = true)
include own held

theorem callPinTest_locked (other : s.wdState ≠ 4) : callPinTest ini args s = s.ret WD_LOCKED := by
  rw [callPinTest]
  exact wdLimit_locked own held (ok := fun s => s.wdState = 4) (by simpa using other) _

theorem callPinTest_shows (test : s.wdState = 4) (small : arg args 0 ≤ 1) (least : 200 ≤ arg args 1) (most : arg args 1 ≤ 2000) :
    callPinTest ini args s = ((s.fresh.2).emit .pin 1 [arg args 0, arg args 1]).ret OK
      [setBit (setBit (s.rd uWarden 0x254) (1 - arg args 0) (arg args 0 = 0)) (3 - arg args 0) (bit s.fresh.1 0)] := by
  rw [callPinTest]
  refine (wdLimit_acts own held (ok := fun s => s.wdState = 4) (by simpa using test) _).trans ?_
  have sound : ¬((decide (1 < arg args 0) || decide (arg args 1 < 200) || decide (2000 < arg args 1)) = true) := by
    simp only [Bool.or_eq_true, decide_eq_true_eq]
    omega
  exact if_neg sound

end

/-- Settles O45: the command's answer, and each of the ways that it comes. -/
theorem wardenCommands : Obligations.WardenCommands := by
  unfold Obligations.WardenCommands
  refine ⟨fun ini a s => ⟨wdCommand_denied ini, wdCommand_forceSafe ini, wdCommand_forceSafe_idle ini, wdCommand_arm_locked,
      fun start mask => (wdCommand_arm start).trans (if_pos mask), fun start clear => (wdCommand_arm start).trans (if_neg (not_not.mpr clear)),
      fun safe locked runs past synced passes => (wdCommand_release safe locked runs past synced).trans (if_pos passes),
      fun safe locked runs past synced fails => (wdCommand_release safe locked runs past synced).trans (if_neg fails),
      wdCommand_release_wrong, wdCommand_enterTest, wdCommand_enterTest_locked, wdCommand_leaveTest, wdCommand_leaveTest_locked⟩,
    fun ini a s least most admits => ?_, fun v s => ⟨fun bad => congrArg Host.Outcome.next (supCmd_bad bad),
      fun complement least most admits t w command => congrArg Host.Outcome.next ?_⟩,
    fun ini args s t r w => ⟨fun command => congrArg Host.Outcome.next (wdCallCmd_eq command), fun command => congrArg Host.Outcome.next (wdCallCmd_eq command),
      fun command => congrArg Host.Outcome.next (wdCallCmd_eq command), fun way command => congrArg Host.Outcome.next ?_⟩,
    fun ini w s admits => ?_, fun ini args s => ?_⟩
  · intro c t r w command
    have writes : exec c s = .next (s.wdCmdWrite ini a) := exec_wdCmd ini least most s
    rw [writes, wdCmdWrite_eq admits command]
    exact ⟨fun fine => congrArg Host.Outcome.next (if_pos fine), fun refused => congrArg Host.Outcome.next (if_neg refused)⟩
  · exact (supCmd_good complement least most).trans ((wdCmdWrite_eq admits command).trans (if_pos rfl))
  · exact (if_neg (Nat.not_lt.mpr way)).trans (wdCallCmd_eq command)
  · have writes := guarded_of_admits admits fun s => (s.wardenWrite ini 0x240 (w32 w)).getD s
    refine ⟨fun open_ set => congrArg Host.Outcome.next (writes.trans ?_), fun open_ clear => congrArg Host.Outcome.next (writes.trans ?_),
      fun closed => congrArg Host.Outcome.next (writes.trans ?_)⟩
    · rw [wardenWrite_lock ini _ open_, if_pos set]
      rfl
    · rw [wardenWrite_lock ini _ open_, if_neg (by simp [clear])]
      rfl
    · rw [wardenWrite_locked ini _ closed]
      rfl
  · refine ⟨fun foreign => ⟨congrArg Host.Outcome.next (wdLimit_denied foreign ..), congrArg Host.Outcome.next (callCloseTask_denied foreign),
        congrArg Host.Outcome.next (callPinTest_denied foreign)⟩,
      fun own held closed => ⟨congrArg Host.Outcome.next (wdLimit_locked own held closed _),
        congrArg Host.Outcome.next (callCloseTask_locked own held closed)⟩,
      fun may least most some_ short t k opens => congrArg Host.Outcome.next (callOpenTask_opens may least most some_ short opens),
      fun may small open_ own => congrArg Host.Outcome.next (callCloseTask_closes may small open_ own),
      fun own held other => congrArg Host.Outcome.next (callPinTest_locked own held other),
      fun own held test small least most => ⟨_, congrArg Host.Outcome.next (callPinTest_shows own held test small least most)⟩⟩

/-! ## The Warden's configuration (R425, R427, R428, R431, R434, R449, R450, R453, R459) -/

/-- A call within the limits of R450 and its ranges makes its change. -/
theorem wdConfig_changes {s : State} {ini : Nat} {bad : Bool} (may : s.WdMay ini) (sound : bad = false) (act : State → State) :
    s.wdConfig ini bad act = s.wdChanged (act s) := by
  rw [State.wdConfig, wdLimit_may may, sound]
  rfl

section
variable {s : State} {ini : Nat} {args : List Word} (may : s.WdMay ini)
include may

theorem callSetCheck_changes (first : 1 ≤ arg args 0) (last : arg args 0 ≤ 24) (least : nth checkLowest (arg args 0 - 1) 0 ≤ arg args 1)
    (most : arg args 1 ≤ 3) (en : arg args 2 ≤ 1) (held : ¬(nth checkLowest (arg args 0 - 1) 0 = 3 ∧ arg args 2 = 0))
    (groups : arg args 3 ≤ 255) : callSetCheck ini args s = s.wdChanged
      (((s.setFld uWarden (checkOff (arg args 0)) 31 30 (arg args 1)).setFld uWarden (checkOff (arg args 0)) 29 29 (arg args 2)).setFld
        uWarden (checkOff (arg args 0)) 23 16 (arg args 3)) := by
  refine wdConfig_changes may ?_ _
  simp only [Bool.or_eq_false_iff, Bool.and_eq_false_iff, decide_eq_false_iff_not]
  refine ⟨⟨⟨⟨⟨⟨?_, ?_⟩, ?_⟩, ?_⟩, ?_⟩, not_and_or.mp held⟩, ?_⟩ <;> omega

theorem callConfigureGate_changes (reserved : arg args 0 &&& 0x7FFC00 = 0) (aligned : arg args 1 % 64 = 0) (high : arg args 2 ≤ 65535)
    (least : 1000 ≤ arg args 4) (most : arg args 4 ≤ 1000000) (hold : 1 ≤ arg args 5) (hold_most : arg args 5 ≤ 255)
    (clean : 1 ≤ arg args 6) (clean_most : arg args 6 ≤ 255) : callConfigureGate ini args s =
      let t := s.wdStore [(0x210, arg args 0), (0x214, arg args 1), (0x218, arg args 2), (0x21C, arg args 3), (0x220, arg args 4)]
      let u := (t.setFld uWarden 0x20C 31 24 (arg args 5)).setFld uWarden 0x20C 23 16 (arg args 6)
      s.wdChanged (u.setWdX fun x => { x with lastIn := u.mark u.gateMark, intervals := [] }) := by
  refine wdConfig_changes may ?_ _
  simp only [reserved, aligned, bne_self_eq_false, Bool.or_eq_false_iff, decide_eq_false_iff_not, true_and]
  omega

theorem callWriteEnvelopes_changes (few : arg args 1 ≤ 64) (fits : arg args 0 + arg args 1 ≤ 1024)
    (sound : ∀ i, i < arg args 1 → isNeg (nth args (4 + 4 * i) 0) = false ∧ f32IsNaN (nth args (4 + 4 * i) 0) = false ∧
      arg args (5 + 4 * i) &&& 0x18FFFFFF = 0) : callWriteEnvelopes ini args s = s.wdChanged ((List.range (arg args 1)).foldl (fun s i =>
        s.wdStore ((List.range 4).map fun j => (envOff (arg args 0 + i) + 4 * j, arg args (2 + 4 * i + j)))) s) := by
  refine wdConfig_changes may ?_ _
  simp only [Bool.or_eq_false_iff, decide_eq_false_iff_not, Nat.not_lt, few, fits, true_and, List.any_eq_false, List.mem_range]
  intro i here
  obtain ⟨positive, number, reserved⟩ := sound i (here.trans_le (Nat.min_le_left ..))
  simp only [positive, number, reserved, Bool.or_self, bne_self_eq_false, Bool.false_eq_true, not_false_eq_true]

theorem callConfigureCompare_changes (small : arg args 0 ≤ 15) (aligned : arg args 1 % 64 = 0) (en : arg args 2 ≤ 1)
    (members : 1 ≤ arg args 3) (members_most : arg args 3 ≤ 5) (high : arg args 4 ≤ 65535) (mark : arg args 6 ≤ 65535)
    (least : 1000 ≤ arg args 7) (most : arg args 7 ≤ 10 ^ 9) : callConfigureCompare ini args s =
      let o := cmpEOff (arg args 0)
      s.wdChanged (s.wdStore [(o, arg args 1), (o + 4, arg args 2 * 2 ^ 31 + arg args 3 * 2 ^ 16 + arg args 4), (o + 8, arg args 5),
        (o + 12, arg args 6), (o + 16, arg args 7)]) := by
  refine wdConfig_changes may ?_ _
  simp only [aligned, bne_self_eq_false, Bool.or_eq_false_iff, decide_eq_false_iff_not, and_true]
  omega

theorem callConfigureStarter_changes (small : arg args 0 ≤ 7) (en : arg args 1 ≤ 1) (queue : arg args 2 < 2 ^ 20)
    (high : arg args 4 ≤ 65535) (mark : arg args 6 ≤ 65535) (interval : 1 ≤ arg args 7) (interval_most : arg args 7 ≤ 65535)
    (rind : arg args 9 ≤ 65535) : callConfigureStarter ini args s =
      let o := starterOff (arg args 0)
      s.wdChanged ((s.wdStore [(o, arg args 1 * 2 ^ 31 + arg args 2), (o + 4, arg args 3), (o + 8, arg args 4), (o + 12, arg args 5),
        (o + 16, arg args 7 * 2 ^ 16 + arg args 6), (o + 0x14, arg args 8), (o + 0x18, arg args 9)]).wdStore
          ((List.range 8).map fun k => (o + 0x20 + 4 * k, arg args (10 + k)))) := by
  refine wdConfig_changes may ?_ _
  simp only [Bool.or_eq_false_iff, decide_eq_false_iff_not]
  omega

/-- Word k of window m among the arguments of call 0x080A. -/
def windowArg (args : List Word) (m k : Nat) : Nat := arg args (1 + 5 * m + k)

theorem callConfigureSelfTest_changes
    (windows : ∀ m, m < 16 → windowArg args m 0 = 0 ∨ (windowArg args m 0 = 1 ∧ windowArg args m 1 < 2 ^ 20 ∧ 1000 ≤ windowArg args m 2 ∧
      windowArg args m 2 ≤ 10 ^ 9 ∧ 10 ^ 9 % windowArg args m 2 = 0 ∧ windowArg args m 3 < windowArg args m 2 ∧
      windowArg args m 4 < windowArg args m 2))
    (reserved : bits (nth args 0 0) 30 8 = 0) (limit : bits (nth args 0 0) 7 0 ≠ 0) : callConfigureSelfTest ini args s =
      s.wdChanged ((List.range 16).foldl (fun s m => s.wdStore (if windowArg args m 0 = 0 then [(0x900 + 16 * m, 0)] else
        [(0x900 + 16 * m, 2 ^ 31 + windowArg args m 1), (0x904 + 16 * m, windowArg args m 2), (0x908 + 16 * m, windowArg args m 3),
          (0x90C + 16 * m, windowArg args m 4)])) (s.wr uWarden 0x230 (nth args 0 0)).debtSync) := by
  refine wdConfig_changes may ?_ _
  simp only [reserved, bne_self_eq_false, limit, decide_false, Bool.or_false, List.any_eq_false, List.mem_range]
  intro m here
  rcases windows m here with off | ⟨on, queue, least, most, divides, offset, length⟩
  · rw [windowArg] at off
    simp only [off, bne_self_eq_false, Bool.false_and, Bool.false_eq_true, not_false_eq_true]
  · simp only [windowArg] at on queue least most divides offset length
    simp only [on, divides, Bool.and_eq_true, Bool.or_eq_true, decide_eq_true_eq, bne_self_eq_false, Bool.false_eq_true, or_false]
    omega

theorem callWriteFirewall_locks (lock : arg args 0 = 0xFF) : callWriteFirewall ini args s = s.lockFw.ret OK := by
  obtain ⟨own, held, open_⟩ := may
  rw [callWriteFirewall]
  exact (wdLimit_acts own held (ok := fun s => s.wdOpen && (arg args 0 = 0xFF || !s.flag uWarden 0x240 31))
    (by simp [open_, lock]) _).trans (if_pos lock)

theorem callWriteFirewall_locked (entry : arg args 0 ≠ 0xFF) (locked : s.flag uWarden 0x240 31 = true) :
    callWriteFirewall ini args s = s.ret WD_LOCKED := by
  obtain ⟨own, held, -⟩ := may
  rw [callWriteFirewall]
  exact wdLimit_locked own held (ok := fun s => s.wdOpen && (arg args 0 = 0xFF || !s.flag uWarden 0x240 31))
    (by simp [entry, locked]) _

theorem callWriteFirewall_stores (small : arg args 0 ≤ 31) (unlocked : s.flag uWarden 0x240 31 = false) (aligned : arg args 1 % 4096 = 0)
    (en : arg args 2 ≤ 1) (high : arg args 3 ≤ 65535) (size : 1 ≤ arg args 4) (size_most : arg args 4 < 2 ^ 20) (read : arg args 5 ≤ 1)
    (write : arg args 6 ≤ 1) (mask : arg args 7 ≤ 1023) (id_ : arg args 8 ≤ 1023) : callWriteFirewall ini args s =
      let o := 0xA00 + 16 * arg args 0
      (s.wdStore [(o, arg args 1 + arg args 2), (o + 4, arg args 3), (o + 8, arg args 4),
        (o + 12, arg args 5 * 2 ^ 31 + arg args 6 * 2 ^ 30 + arg args 7 * 2 ^ 20 + arg args 8)]).ret OK := by
  obtain ⟨own, held, open_⟩ := may
  have entry : arg args 0 ≠ 0xFF := by omega
  rw [callWriteFirewall]
  refine (wdLimit_acts own held (ok := fun s => s.wdOpen && (arg args 0 = 0xFF || !s.flag uWarden 0x240 31))
    (by simp [open_, unlocked]) _).trans ((if_neg entry).trans (if_neg ?_))
  simp only [aligned, bne_self_eq_false, Bool.or_eq_true, Bool.false_eq_true, or_false, decide_eq_true_eq]
  omega

end

/-- The calls that change the Warden's configuration. -/
def configCalls (ini : Nat) (args : List Word) (s : State) : List State := [callSetCheck ini args s, callConfigureGate ini args s,
  callWriteEnvelopes ini args s, callConfigureCompare ini args s, callConfigureStarter ini args s, callConfigureSelfTest ini args s,
  callWriteFirewall ini args s]

/-- Each goes through the limits of R450, which bar it where the configuration is closed. -/
theorem configCalls_limited {ini : Nat} {args : List Word} {s t : State} (named : t ∈ configCalls ini args s) :
    ∃ ok act, (s.wdOpen = false → ok s = false) ∧ t = s.wdLimit ini ok act := by
  simp only [configCalls, List.mem_cons, List.not_mem_nil, or_false] at named
  rcases named with rfl | rfl | rfl | rfl | rfl | rfl | rfl
  · unfold callSetCheck
    exact ⟨State.wdOpen, _, id, rfl⟩
  · unfold callConfigureGate
    exact ⟨State.wdOpen, _, id, rfl⟩
  · unfold callWriteEnvelopes
    exact ⟨State.wdOpen, _, id, rfl⟩
  · unfold callConfigureCompare
    exact ⟨State.wdOpen, _, id, rfl⟩
  · unfold callConfigureStarter
    exact ⟨State.wdOpen, _, id, rfl⟩
  · unfold callConfigureSelfTest
    exact ⟨State.wdOpen, _, id, rfl⟩
  · unfold callWriteFirewall
    exact ⟨_, _, fun closed => by rw [closed, Bool.false_and], rfl⟩

theorem exec_configCalls {ini : Nat} {args : List Word} {s : State} {c : Instr} (named : c ∈ [Instr.setCheck ini args,
    .configureGate ini args, .writeEnvelopes ini args, .configureCompareEntry ini args, .configureStarter ini args,
    .configureSelfTest ini args, .writeFirewall ini args]) : ∃ t ∈ configCalls ini args s, exec c s = .next t := by
  simp only [List.mem_cons, List.not_mem_nil, or_false] at named
  rcases named with rfl | rfl | rfl | rfl | rfl | rfl | rfl <;> exact ⟨_, by simp [configCalls], rfl⟩

/-- Settles O46: the limits that the calls share, then the change of each. -/
theorem wardenConfiguration : Obligations.WardenConfiguration := by
  unfold Obligations.WardenConfiguration
  refine ⟨fun ini args s c named => ⟨fun foreign => ?_, fun own held closed => ?_⟩, fun ini args s may =>
    ⟨fun first last least most en held groups => congrArg Host.Outcome.next (callSetCheck_changes may first last least most en held groups),
      fun reserved aligned high least most hold hold_most clean clean_most =>
        congrArg Host.Outcome.next (callConfigureGate_changes may reserved aligned high least most hold hold_most clean clean_most),
      fun few fits sound => congrArg Host.Outcome.next (callWriteEnvelopes_changes may few fits sound),
      fun small aligned en members members_most high mark least most =>
        congrArg Host.Outcome.next (callConfigureCompare_changes may small aligned en members members_most high mark least most),
      fun small en queue high mark interval interval_most rind =>
        congrArg Host.Outcome.next (callConfigureStarter_changes may small en queue high mark interval interval_most rind),
      fun windows reserved limit => congrArg Host.Outcome.next (callConfigureSelfTest_changes may windows reserved limit),
      fun lock => congrArg Host.Outcome.next (callWriteFirewall_locks may lock),
      fun entry locked => congrArg Host.Outcome.next (callWriteFirewall_locked may entry locked),
      fun small unlocked aligned en high size size_most read write mask id_ =>
        congrArg Host.Outcome.next (callWriteFirewall_stores may small unlocked aligned en high size size_most read write mask id_)⟩,
    fun _ _ _ _ => ⟨rfl, rfl⟩⟩
  · obtain ⟨t, call, runs⟩ := exec_configCalls (s := s) named
    obtain ⟨ok, act, -, limits⟩ := configCalls_limited call
    rw [runs, limits, wdLimit_denied foreign]
  · obtain ⟨t, call, runs⟩ := exec_configCalls (s := s) named
    obtain ⟨ok, act, closes, limits⟩ := configCalls_limited call
    rw [runs, limits, wdLimit_locked own held (closes closed)]

end Sys2Proof.Machine

namespace Sys2Proof.Machine

/-! ## The Warden's decisions (R421, R422, R425, R440, R442, R446, R451) -/

section
variable {s : State}

theorem pairBack_runs (runs : s.pairRuns = true) (past : s.wd.toSafe = false) : s.pairBack = s := by
  simp [State.pairBack, runs, past]

theorem pairBack_toSafe (runs : s.pairRuns = true) (bitten : s.wd.toSafe = true) : s.pairBack = s.hardToSafe := by
  simp [State.pairBack, runs, bitten]

theorem pairBack_none (stands : s.pairRuns = false) (other : s.wpRuns (1 - s.activePair) = false) : s.pairBack = s := by
  simp [State.pairBack, stands, other]

theorem hardToSafe_active (active : s.wdState = 1 ∨ s.wdState = 2) : ∃ c, s.hardToSafe = (s.fresh.2).enterSafe c uWarden :=
  ⟨s.fresh.1.toNat, if_pos (by simpa using active)⟩

theorem hardToSafe_idle (service : s.wdState ≠ 1) (recovery : s.wdState ≠ 2) :
    s.hardToSafe = s.setWdX fun x => { x with toSafe := false } := if_neg (by simp [service, recovery])

theorem readBack_none (agree : ∀ e ∈ s.wd.failing, e.1 ≠ 0x17) : s.readBack = s := by
  have none_ : s.wd.failing.filter (·.1 = 0x17) = [] := by simpa [List.filter_eq_nil_iff] using agree
  rw [State.readBack, none_, List.foldl_nil]

/-- The state after the failures of a pass have been counted and posted. -/
def State.passNoted (s : State) : State := s.passFailures.foldl (fun s f => s.noteFailure f) s.passTaken

/-- What ends a pass: the pairs that run are synced, and RECOVERY may end. -/
def State.passSynced (s : State) : State :=
  ((s.setFlag uWarden 0x200 26 (s.wpRuns (1 - s.activePair))).setWdX fun x => { x with behind := false }).tryEnd

theorem decidePass_runs (runs : s.pairRuns = true) (past : s.wd.toSafe = false) : s.decidePass =
    (if s.passNoted.wdState = 1 || s.passNoted.wdState = 2 then
      s.passNoted.react (s.passFailures.filter s.passNoted.isFault) else s.passNoted).passSynced := by
  have stays : ¬((!s.pairRuns) = true) := by simp [runs]
  rw [State.decidePass, pairBack_runs runs past]
  exact if_neg stays

end

/-! ### Reactions -/

/-- The failure with the highest reaction, the first of those. -/
def State.topFailure (s : State) (h : WdReport) (t : List WdReport) : WdReport :=
  t.foldl (fun a f => if s.checkReact a.check < s.checkReact f.check then f else a) h

theorem topFailure_cons (s : State) (h f : WdReport) (t : List WdReport) :
    s.topFailure h (f :: t) = s.topFailure (if s.checkReact h.check < s.checkReact f.check then f else h) t := rfl

theorem topFailure_mem (s : State) : ∀ (h : WdReport) (t : List WdReport), s.topFailure h t ∈ h :: t
  | _, [] => List.mem_cons_self
  | h, f :: t => by
    rw [topFailure_cons]
    split
    · exact List.mem_cons_of_mem _ (topFailure_mem s f t)
    · rcases List.mem_cons.mp (topFailure_mem s h t) with is | here
      · rw [is]
        exact List.mem_cons_self
      · exact List.mem_cons_of_mem _ (List.mem_cons_of_mem _ here)

theorem checkReact_le_topFailure (s : State) : ∀ (h : WdReport) (t : List WdReport), ∀ g ∈ h :: t,
    s.checkReact g.check ≤ s.checkReact (s.topFailure h t).check
  | h, [], g, here => by
    rw [List.mem_singleton.mp here]
    exact Nat.le_refl _
  | h, f :: t, g, here => by
    rw [topFailure_cons]
    split
    case isTrue less =>
      have most := checkReact_le_topFailure s f t
      rcases List.mem_cons.mp here with rfl | here
      · exact less.le.trans (most f List.mem_cons_self)
      · exact most g here
    case isFalse more =>
      have most := checkReact_le_topFailure s h t
      rcases List.mem_cons.mp here with rfl | here
      · exact most g List.mem_cons_self
      · rcases List.mem_cons.mp here with rfl | here
        · exact (Nat.not_lt.mp more).trans (most h List.mem_cons_self)
        · exact most g (List.mem_cons_of_mem _ here)

/-- RECOVERY is entered, the counts of sets restart, what comes is withheld. -/
def State.recovering (s : State) (top : WdReport) (groups : Nat) : State :=
  (((s.wdGo 2 top.check (checkUnit top)).openRecovery).faultSeen groups).withhold

section
variable (s : State) (f : WdReport) (r : List WdReport)

theorem react_cons : s.react (f :: r) =
    let top := s.topFailure f r
    let groups := (f :: r).foldl (fun m f => m ||| s.checkGroups f) 0
    if s.wdState = 2 || s.checkReact top.check = 3 then s.enterSafe top.check (checkUnit top)
    else if s.checkReact top.check = 2 then (s.recovering top groups).wdFallback groups
    else (s.recovering top groups).setWdX fun x => { x with holdG := x.holdG ||| groups, holdN := 0, holdCheck := top.check } := rfl

variable {s f r}

theorem react_safe (safe : s.wdState = 2 ∨ s.checkReact (s.topFailure f r).check = 3) :
    s.react (f :: r) = s.enterSafe (s.topFailure f r).check (checkUnit (s.topFailure f r)) := by
  rw [react_cons]
  exact if_pos (by simpa using safe)

theorem react_fallback (other : s.wdState ≠ 2) (two : s.checkReact (s.topFailure f r).check = 2) :
    let groups := (f :: r).foldl (fun m f => m ||| s.checkGroups f) 0
    s.react (f :: r) = (s.recovering (s.topFailure f r) groups).wdFallback groups := by
  rw [react_cons]
  exact (if_neg (by simp [other, two])).trans (if_pos two)

theorem react_hold (other : s.wdState ≠ 2) (one : s.checkReact (s.topFailure f r).check = 1) :
    let groups := (f :: r).foldl (fun m f => m ||| s.checkGroups f) 0
    s.react (f :: r) = (s.recovering (s.topFailure f r) groups).setWdX fun x =>
      { x with holdG := x.holdG ||| groups, holdN := 0, holdCheck := (s.topFailure f r).check } := by
  rw [react_cons]
  exact (if_neg (by simp [other, one])).trans (if_neg (by simp [one]))

end

/-! ### Pairs that fail -/

section
variable {s : State} {p : Nat}

/-- A pair has left service. -/
def State.pairOut (s : State) (p : Nat) : State := (s.forceOut (uWP p)).setFlag uWarden 0x200 26 false

theorem pairFail_standby (other : p ≠ (s.pairOut p).activePair) : s.pairFail p = s.pairOut p := if_pos (by simpa [State.pairOut] using other)

theorem pairFail_active (own : p = (s.pairOut p).activePair) : s.pairFail p =
    if s.standbySynced then (((s.pairOut p).setFld uWarden 0x200 27 27 (1 - p)).countF uWarden 0x23C 15 0 1).wdFind 0x16 (uWP p) 0
    else (((((s.pairOut p).hardSafe.unitEvent uMill).wdFind 0x16 (uWP p) 0).setWdX fun x => { x with behind := true }).hardToSafe).pairBack := by
  have same : ¬((p != (s.pairOut p).activePair) = true) := by simpa using own
  exact if_neg same

/-- The failure of a pair has been recorded. -/
def State.pairFault (s : State) (p : Nat) : State := s.recordFault fPROC_FAULT (uWP p) 0x4A noQueue 0 0 0 0 oNone

theorem exec_pairFailure (lt : p < 2) (runs : s.wpRuns p = true) : exec (.pairFailure p) s = .next ((s.pairFault p).pairFail p) := by
  have fails : exec (.pairFailure p) s = .next (if s.wpRuns (p % 2) then (s.pairFault (p % 2)).pairFail (p % 2) else s) := rfl
  rw [fails, Nat.mod_eq_of_lt lt, if_pos runs]

end

/-- Settles O43: an equation for each decision. -/
theorem wardenDecisions : Obligations.WardenDecisions := by
  unfold Obligations.WardenDecisions
  refine ⟨fun s runs past => ⟨fun quiet => ?_, fun active => ?_⟩, fun s => readBack_none, fun s f r =>
      ⟨s.topFailure f r, topFailure_mem s f r, checkReact_le_topFailure s f r, react_safe, react_fallback, react_hold⟩, fun _ => rfl,
    fun p s lt runs => ⟨fun standby => ?_, fun own synced => ?_, fun own alone => ?_⟩, fun _ => rfl,
    fun s => ⟨pairBack_toSafe, pairBack_none, hardToSafe_active, hardToSafe_idle⟩, fun p s lt => ?_, fun k s lt => ?_⟩
  · have rests : ¬((s.passNoted.wdState = 1 || s.passNoted.wdState = 2) = true) := by
      have state : s.passNoted.wdState = 0 ∨ s.passNoted.wdState = 3 ∨ s.passNoted.wdState = 4 := quiet
      simp only [Bool.or_eq_true, decide_eq_true_eq]
      omega
    exact congrArg Host.Outcome.next ((decidePass_runs runs past).trans (by rw [if_neg rests]; rfl))
  · have reacts : (s.passNoted.wdState = 1 || s.passNoted.wdState = 2) = true := by
      simp only [Bool.or_eq_true, decide_eq_true_eq]
      exact active
    exact congrArg Host.Outcome.next ((decidePass_runs runs past).trans (by rw [if_pos reacts]; rfl))
  · rw [exec_pairFailure lt runs]
    exact congrArg Host.Outcome.next (pairFail_standby standby)
  · rw [exec_pairFailure lt runs]
    exact congrArg Host.Outcome.next ((pairFail_active own).trans (if_pos synced))
  · rw [exec_pairFailure lt runs]
    exact congrArg Host.Outcome.next ((pairFail_active own).trans (if_neg (Bool.eq_false_iff.mp alone)))
  · have differs : exec (.pinFeedbackTimeout p) s = .next (s.pinDiffers (p % 2)) := rfl
    rw [differs, Nat.mod_eq_of_lt lt]
    rfl
  · have ends : exec (.taskDeadlineExpiry k) s = .next (if s.taskOpen (k % 16) then s.wdFind 0x13 (k % 16) 0 else s) := rfl
    rw [ends, Nat.mod_eq_of_lt lt]
    exact ⟨fun open_ => congrArg Host.Outcome.next (if_pos open_), fun closed => congrArg Host.Outcome.next (if_neg (by rw [closed]; decide))⟩

end Sys2Proof.Machine

namespace Sys2Proof.Machine

/-! ## The Warden's work (R427–R433, R436, R438, R452–R455) -/

/-! ### The gate -/

section
variable {s : State}

theorem exec_gateSetCheck {t : State} (runs : s.pairRuns = true) (due : s.takeWork 16 = (t, true)) :
    exec .gateSetCheck s = .next t.gateSetCheck := by
  have checks : exec .gateSetCheck s = .next (if !s.pairRuns then s else
    match s.takeWork 16 with | (s, go) => if go then s.gateSetCheck else s) := rfl
  rw [checks, if_neg (by simp [runs]), due]
  exact congrArg Host.Outcome.next (if_pos rfl)

/-- A set that is announced is read, and judged when it can be read. -/
theorem gateSetCheck_reads {d f : Nat} {v : State} {bs : List Byte} (advance : (s.mark s.gateMark + 2 ^ 32 - s.wd.lastIn) % 2 ^ 32 = d)
    (new : d ≠ 0) (reads : (if d = 1 then s.setWdX fun x => { x with lastIn := s.mark s.gateMark }
      else (s.setWdX fun x => { x with lastIn := s.mark s.gateMark }).wdFind 4 0 0).polRead 0x49 s.gateAddr (4 * s.gateWords) = (v, f, bs)) :
    s.gateSetCheck = if f ≠ 0 then v else (v.addMark (v.fld uWarden 0x21C 31 16) 1).gateJudge (bytesWords bs) := by
  unfold State.gateSetCheck
  extract_lets m now e a b
  have is : e = d := advance
  have which : b = if d = 1 then a else a.wdFind 4 0 0 := by rw [← is]
  have place : b.gateAddr = s.gateAddr ∧ b.gateWords = s.gateWords := by
    rw [which]
    split <;> exact ⟨rfl, rfl⟩
  obtain ⟨addr, words⟩ := place
  have same : b.polRead 0x49 b.gateAddr (4 * b.gateWords) = (v, f, bs) := by
    rw [addr, words, which]
    exact reads
  rw [is, if_neg new, same]
  simp only [bne_iff_ne]

theorem tapMark_announces {m v : Nat} (on : s.gateOn = true) (named : s.gateMark = m) (tapped : m ∈ s.wdTaps) (new : v ≠ s.wd.lastIn) :
    s.tapMark m v = (s.setWdX fun x => { x with intervals := x.intervals.map fun (_, r) => (true, r) }).wdReport 0 m v := by
  simp [State.tapMark, on, named, tapped, new]

/-- A set whose enabled words are all within their ranges and rates is released. -/
theorem gateJudge_releases {set : List Word} (active : s.wdState = 1 ∨ s.wdState = 2) (free : s.wd.withheld = false)
    (passes : ∀ v w, (v, w) ∈ set.zipIdx → s.flag uWarden (envOff w + 12) 31 = true → s.envRangeOk w v = true ∧
      (s.wd.first = true ∨ f32NonFin v = true ∨ s.envRateOk w v (gateVal s.gateSet w) s.wd.gone = true)) :
    s.gateJudge set = (s.setWdX fun x => { x with first := false, cleanG := x.cleanG.map fun n => n + 1 }).gateRelease set := by
  have range : (((set.zipIdx).filter fun (_, w) => s.flag uWarden (envOff w + 12) 31).filter fun (v, w) => !s.envRangeOk w v) = [] := by
    simp only [List.filter_eq_nil_iff, List.mem_filter, Bool.not_eq_true', Bool.not_eq_false, and_imp, Prod.forall]
    exact fun v w here on => (passes v w here on).1
  have rate : (((set.zipIdx).filter fun (_, w) => s.flag uWarden (envOff w + 12) 31).filter fun (v, w) =>
      !s.wd.first && !f32NonFin v && !s.envRateOk w v (gateVal s.gateSet w) s.wd.gone) = [] := by
    simp only [List.filter_eq_nil_iff, List.mem_filter, Bool.and_eq_true, Bool.not_eq_true', and_imp, Prod.forall]
    rintro v w here on ⟨⟨later, finite⟩, fails⟩
    rcases (passes v w here on).2 with first | infinite | ok
    · exact absurd (later.symm.trans first) (by decide)
    · exact absurd (finite.symm.trans infinite) (by decide)
    · exact absurd (fails.symm.trans ok) (by decide)
  have goes : ¬((false || s.wd.withheld || !(s.wdState = 1 || s.wdState = 2)) = true) := by
    simp only [free, Bool.or_self, Bool.false_or, Bool.not_eq_true', Bool.or_eq_false_iff, decide_eq_false_iff_not]
    omega
  rw [State.gateJudge, range, rate]
  exact if_neg goes

theorem setDeadline_none (idle : s.wd.intervals = []) : s.setDeadline = s := by
  rw [State.setDeadline, idle]

/-- The oldest interval has ended. -/
def State.deadlined (s : State) (got : Bool) (l : List (Bool × Bool)) : State :=
  let t := s.setWdX fun x => { x with intervals := l, withheld := false }
  if got then t else t.wdFind 3 0 0

theorem setDeadline_cons {got rel : Bool} {l : List (Bool × Bool)} (oldest : s.wd.intervals = (got, rel) :: l) : s.setDeadline =
    if rel then s.deadlined got l
    else ((((s.deadlined got l).countF uWarden 0x200 7 0 1).setWdX fun x =>
      { x with holdN := x.holdN + 1, gone := x.gone + 1 }).escalate).millPulse 8 := by
  rw [State.setDeadline, oldest]
  rfl

theorem exec_setDeadlineExpiry (runs : s.pairRuns = true) : exec .setDeadlineExpiry s = .next s.setDeadline :=
  congrArg Host.Outcome.next (if_pos runs)

end

/-! ### Compares and starters -/

section
variable {s : State}

theorem exec_digestCompare {t : State} {e : Nat} (lt : e < 16) (runs : s.pairRuns = true) (due : s.takeWork e = (t, true)) :
    exec (.digestCompare e) s = .next (t.digestCompare e) := by
  have compares : exec (.digestCompare e) s = .next (if !s.pairRuns then s else
    match s.takeWork (e % 16) with | (s, go) => if go then s.digestCompare (e % 16) else s) := rfl
  rw [compares, runs, Nat.mod_eq_of_lt lt, due]
  rfl

/-- The counts and the sequence number of a compare entry after its rinds were read. -/
def State.compared (s : State) (e : Nat) (l : List (List Byte)) : State :=
  (s.count uWarden (cmpEOff e + 0x18) 1).wr uWarden (cmpEOff e + 0x14) (w32 (rindSeq (l.headD [])))

theorem digestCompare_unlinked {u : State} {e : Nat} {l : List (List Byte)} (reads : s.readRinds e (s.cmpMembers e) = (u, some l))
    (off : (u.compared e l).gateOn = false) : s.digestCompare e =
      if u.rindsAgree e l then u.compared e l else (u.compared e l).wdFind 5 e 0 := by
  have off' : ((u.compared e l).wdFind 5 e 0).gateOn = false := off
  rw [State.digestCompare, reads]
  cases agree : u.rindsAgree e l
  · simp only [agree]
    exact if_neg (by simp [State.compared] at off'; simp [off'])
  · simp only [agree]
    exact if_neg (by simp [State.compared] at off; simp [off])

/-- A starter whose rind is being checked. -/
def State.starterTaken (s : State) (i : Nat) : State :=
  (s.setStarterX i { s.starterX i with done := none }).count uWarden (starterOff i + 0x1C) 1

theorem starterCheck_reads {u : State} {i f g : Nat} {b : List Byte} (done : (s.starterX i).done = some f)
    (reads : (s.starterTaken i).polRead 0x49 ((s.starterTaken i).starterRind i) 64 = (u, g, b)) : s.starterCheck i =
      if f = 0 && g = 0 && b.take 32 = ((List.range 8).flatMap fun k => natBytes 4 (u.rd uWarden (starterOff i + 0x20 + 4 * k)).toNat) &&
        rindFlags b % 2 = 1 && rindFlags b &&& (4 + 8 + 16 + 32) = 0 then u else u.wdFind 7 i 0 := by
  rw [State.starterTaken] at reads
  simp only [State.starterCheck, done, reads]

theorem exec_starterCheck {i : Nat} (lt : i < 8) (runs : s.pairRuns = true) : exec (.starterCheck i) s = .next (s.starterCheck i) := by
  have checks : exec (.starterCheck i) s = .next (if s.pairRuns then s.starterCheck (i % 8) else s) := rfl
  rw [checks, if_pos runs, Nat.mod_eq_of_lt lt]

theorem exec_digestPeriodExpiry {e : Nat} (lt : e < 16) (armed : s.wd.armed = true) (on : s.flag uWarden (cmpEOff e + 4) 31 = true) :
    exec (.digestPeriodExpiry e) s = .next (s.wdFind 6 e 0) := by
  have ends : exec (.digestPeriodExpiry e) s =
    .next (if s.wd.armed && s.flag uWarden (cmpEOff (e % 16) + 4) 31 then s.wdFind 6 (e % 16) 0 else s) := rfl
  rw [ends, Nat.mod_eq_of_lt lt, if_pos (by rw [armed, on]; rfl)]

/-! ### The heartbeat -/

theorem heartbeat_bad {v : Nat} (bad : v % 2 ^ 16 + v / 2 ^ 16 % 2 ^ 16 ≠ 0xFFFF ∨
    v / 2 ^ 16 % 2 ^ 16 ≠ (s.fld uWarden 0x228 31 16 + 1) % 2 ^ 16) : s.heartbeat v = s.hbBad := by
  refine if_pos ?_
  simpa only [Bool.or_eq_true, bne_iff_ne] using bad

/-- A good heartbeat has been counted. -/
def State.hbCounted (s : State) (n : Nat) : State :=
  let k := s.setFld uWarden 0x228 31 16 n
  (if s.wd.armed then k.countF uWarden 0x228 15 0 1 else k).setWdX fun x => { x with hbRun := x.hbRun + 1 }

/-- The heartbeat stands once two good ones have come. -/
def State.hbStands (s : State) : State :=
  if 2 ≤ s.wd.hbRun then (s.setFlag uWarden 0x200 24 true).stopFailing 0x11 0 else s

theorem heartbeat_good {v : Nat} (complement : v % 2 ^ 16 + v / 2 ^ 16 % 2 ^ 16 = 0xFFFF)
    (next : v / 2 ^ 16 % 2 ^ 16 = (s.fld uWarden 0x228 31 16 + 1) % 2 ^ 16) : s.heartbeat v =
      ((s.hbCounted (v / 2 ^ 16 % 2 ^ 16)).hbStands.wr wSdioF1 4
        (w32 (v / 2 ^ 16 % 2 ^ 16 * 2 ^ 16 + (s.hbCounted (v / 2 ^ 16 % 2 ^ 16)).hbStands.fld uWarden 0x200 31 16))).supInt 2 := by
  refine if_neg ?_
  simp only [Bool.or_eq_true, bne_iff_ne]
  exact fun bad => bad.elim (absurd complement) (absurd next)

end

/-! ### Self-test -/

section
variable {s : State} {u : Nat}

/-- The state in which the outcome of a slice is judged. -/
def State.sliceEnded (s t : State) (u : Nat) : State := t.setTestX u { s.testX u with running := false }

section
variable {t : State} (running : (s.testX u).running = true) (sound : (s.injectedBit u).injected u 1 = (t, 0))
include running sound

/-- A slice that was not injected with an error has the outcome that it had. -/
theorem sliceDone_eq (pass : Bool) : s.sliceDone u pass =
    if pass && (0 : Nat) = 0 then
      let x := s.testX u
      let t := if x.failed then ((s.sliceEnded t u).recordFault fTEST_FAIL u 0x49 noQueue 0 0 x.slice 0 oTransient).countTransient u
        else s.sliceEnded t u
      let t := t.setTestX u { x with running := false, failed := false, slice := x.slice + 1 }
      if x.slice + 1 = fullSlices u then (t.fullTestPass u).classifyByTest u true else t
    else if !(s.testX u).failed then (s.sliceEnded t u).setTestX u { s.testX u with running := false, failed := true }
    else
      let y := ((((s.sliceEnded t u).fullTestFail u).classifyByTest u false).recordFault fTEST_FAIL u 0x49 noQueue 0 0
        (s.testX u).slice 0 oLasting).forceOut u
      ((y.setHealthX u { y.healthX u with failed := true }).fltSync).wdFind 0x14 u 0 := by
  have goes : ¬((!(s.testX u).running) = true) := by simp [running]
  rw [State.sliceDone, if_neg goes, sound]
  rfl

theorem sliceDone_first (fresh_ : (s.testX u).failed = false) :
    s.sliceDone u false = (s.sliceEnded t u).setTestX u { s.testX u with running := false, failed := true } := by
  rw [sliceDone_eq running sound, if_neg (by simp), if_pos (by simp [fresh_])]

theorem sliceDone_pass (fresh_ : (s.testX u).failed = false) (more : (s.testX u).slice + 1 ≠ fullSlices u) : s.sliceDone u true =
    (s.sliceEnded t u).setTestX u { s.testX u with running := false, failed := false, slice := (s.testX u).slice + 1 } := by
  rw [sliceDone_eq running sound, if_pos (by simp)]
  refine (if_neg more).trans ?_
  rw [if_neg (by simp [fresh_])]

theorem sliceDone_second (again : (s.testX u).failed = true) : s.sliceDone u false =
    (let y := ((((s.sliceEnded t u).fullTestFail u).classifyByTest u false).recordFault fTEST_FAIL u 0x49 noQueue 0 0
      (s.testX u).slice 0 oLasting).forceOut u
    ((y.setHealthX u { y.healthX u with failed := true }).fltSync).wdFind 0x14 u 0) := by
  rw [sliceDone_eq running sound, if_neg (by simp), if_neg (by simp [again])]

end

/-- A coverage window without a unit in debt ends. -/
theorem debtWindow_none (clear : ∀ u ∈ allUnits, isTested u = true → s.exists? u = true → s.inDebt u = false) : s.debtWindow =
    (let us := allUnits.filter fun u => isTested u && s.exists? u
    let t := (us.foldl (fun (s : State) u => s.setTestX u { s.testX u with debt := 0 }) (s.setFld uWarden 0x234 7 0 0)).debtSync
    { t with domOff := t.gradeDoms.filter fun d => !t.domOn d }) := by
  have none_ : (allUnits.filter fun u => isTested u && s.exists? u).filter s.inDebt = [] := by
    simp only [List.filter_eq_nil_iff, List.mem_filter, Bool.and_eq_true, and_imp, Bool.not_eq_true]
    exact clear
  rw [State.debtWindow, none_]
  rfl

end

/-! ### The debt of self-test (R455) -/

/-- What debtSync does for one unit. -/
def State.debtStep (limit : Nat) (s : State) (u : Nat) : State :=
  if limit ≤ (s.testX u).debt then (if s.wd.failing.contains (0x15, u) then s else (s.startFailing 0x15 u).wdFind 0x15 u 0)
  else s.stopFailing 0x15 u

theorem debtSync_eq (s : State) : s.debtSync =
    (s.wd.tests.map (·.1) ++ (s.wd.failing.filter (·.1 = 0x15)).map (·.2)).eraseDups.foldl (State.debtStep (s.fld uWarden 0x230 7 0)) s := rfl

theorem mem_startFailing (s : State) (c u v : Nat) :
    (c, v) ∈ (s.startFailing c u).wd.failing ↔ v = u ∨ (c, v) ∈ s.wd.failing := by
  by_cases same : v = u <;> simp [State.startFailing, State.setWdX, same]

theorem mem_stopFailing (s : State) (c u v : Nat) :
    (c, v) ∈ (s.stopFailing c u).wd.failing ↔ v ≠ u ∧ (c, v) ∈ s.wd.failing := by
  by_cases same : v = u <;> simp [State.stopFailing, State.setWdX, same]

theorem debtStep_tests (limit : Nat) (s : State) (u : Nat) : (s.debtStep limit u).wd.tests = s.wd.tests := by
  unfold State.debtStep
  split
  · split <;> rfl
  · rfl

theorem mem_debtStep (limit : Nat) (s : State) (u v : Nat) : (0x15, v) ∈ (s.debtStep limit u).wd.failing ↔
    if v = u then limit ≤ (s.testX v).debt else (0x15, v) ∈ s.wd.failing := by
  unfold State.debtStep
  split
  case isTrue due =>
    split
    case isTrue there =>
      by_cases same : v = u
      · subst same
        simpa [due] using there
      · simp [same]
    case isFalse absent =>
      have found : (0x15, v) ∈ ((s.startFailing 0x15 u).wdFind 0x15 u 0).wd.failing ↔ v = u ∨ (0x15, v) ∈ s.wd.failing :=
        mem_startFailing s 0x15 u v
      rw [found]
      by_cases same : v = u
      · subst same
        simp [due]
      · simp [same]
  case isFalse early =>
    rw [mem_stopFailing]
    by_cases same : v = u
    · subst same
      simp [early]
    · simp [same]

theorem mem_debtSteps (limit : Nat) (v : Nat) : ∀ (l : List Nat) (s : State),
    (0x15, v) ∈ (l.foldl (State.debtStep limit) s).wd.failing ↔ if v ∈ l then limit ≤ (s.testX v).debt else (0x15, v) ∈ s.wd.failing
  | [], s => by simp
  | u :: l, s => by
    have same : (s.debtStep limit u).testX v = s.testX v := by rw [State.testX, debtStep_tests, State.testX]
    rw [List.foldl_cons, mem_debtSteps limit v l, same, mem_debtStep]
    by_cases here : v ∈ l
    · simp [here]
    · by_cases is : v = u <;> simp [here, is]

/-- A unit that nothing is kept of has no debt. -/
theorem debt_of_unkept {s : State} {u : Nat} (out : u ∉ s.wd.tests.map (·.1)) : (s.testX u).debt = 0 := by
  have unkept : s.testX u = TestX.init :=
    SMap.get_default _ _ _ fun e here is => out (List.mem_map.mpr ⟨e, here, is⟩)
  rw [unkept]
  rfl

theorem mem_debtSync {s : State} (limited : 0 < s.fld uWarden 0x230 7 0) (u : Nat) :
    (0x15, u) ∈ s.debtSync.wd.failing ↔ s.fld uWarden 0x230 7 0 ≤ (s.testX u).debt := by
  rw [debtSync_eq, mem_debtSteps]
  split
  case isTrue here => rfl
  case isFalse out =>
    simp only [List.mem_eraseDups, List.mem_append, not_or] at out
    obtain ⟨unkept, passes⟩ := out
    rw [debt_of_unkept unkept]
    refine ⟨fun fails => absurd (List.mem_map.mpr ⟨_, List.mem_filter.mpr ⟨fails, by simp⟩, rfl⟩) passes, fun none_ => ?_⟩
    omega

/-- Settles O44: an equation for each kind of work, and an induction over the units that debtSync visits. -/
theorem wardenWork : Obligations.WardenWork := by
  unfold Obligations.WardenWork
  refine ⟨fun s t runs due => ?_, fun m v s on named tapped new => tapMark_announces on named tapped new,
    fun s set active free passes => gateJudge_releases active free passes, fun s runs => ?_, fun e s t lt runs due u l reads => ?_,
    fun e s lt armed on => exec_digestPeriodExpiry lt armed on, fun i s lt runs f done => ?_, fun v s runs => ?_, fun u s => ?_,
    fun s clear => congrArg Host.Outcome.next (debtWindow_none clear), fun s limited u => mem_debtSync limited u⟩
  · intro m d new u v f bs reads
    have checks := (exec_gateSetCheck runs due).trans (congrArg Host.Outcome.next (gateSetCheck_reads rfl new reads))
    exact ⟨fun fails => checks.trans (congrArg Host.Outcome.next (if_pos fails)),
      fun fine => checks.trans (congrArg Host.Outcome.next (if_neg (not_not.mpr fine)))⟩
  · refine ⟨fun idle => (exec_setDeadlineExpiry runs).trans (congrArg Host.Outcome.next (setDeadline_none idle)), fun got rel l oldest => ?_⟩
    have ends := (exec_setDeadlineExpiry runs).trans (congrArg Host.Outcome.next (setDeadline_cons oldest))
    exact ⟨fun released => ends.trans (congrArg Host.Outcome.next (if_pos released)),
      fun missing => ends.trans (congrArg Host.Outcome.next (if_neg (Bool.eq_false_iff.mp missing)))⟩
  · intro v off
    have compares := (exec_digestCompare lt runs due).trans (congrArg Host.Outcome.next (digestCompare_unlinked reads off))
    exact ⟨fun agree => compares.trans (congrArg Host.Outcome.next (if_pos agree)),
      fun differ => compares.trans (congrArg Host.Outcome.next (if_neg (Bool.eq_false_iff.mp differ)))⟩
  · intro t u g b reads expect good
    have checks := (exec_starterCheck lt runs).trans (congrArg Host.Outcome.next (starterCheck_reads done reads))
    have named : (f = 0 && g = 0 && b.take 32 = expect && rindFlags b % 2 = 1 && rindFlags b &&& (4 + 8 + 16 + 32) = 0) = true ↔ good := by
      simp [good, and_assoc]
    exact ⟨fun ok => checks.trans (congrArg Host.Outcome.next (if_pos (named.mpr ok))),
      fun bad => checks.trans (congrArg Host.Outcome.next (if_neg fun ok => bad (named.mp ok)))⟩
  · exact ⟨congrArg Host.Outcome.next (if_pos runs), fun bad => congrArg Host.Outcome.next ((if_pos runs).trans (heartbeat_bad bad)),
      fun complement next => congrArg Host.Outcome.next ((if_pos runs).trans (heartbeat_good complement next))⟩
  · exact ⟨fun may => congrArg Host.Outcome.next (if_pos may), fun may_not => congrArg Host.Outcome.next (if_neg (Bool.eq_false_iff.mp may_not)),
      fun running t sound => ⟨fun fresh_ => congrArg Host.Outcome.next (sliceDone_first running sound fresh_),
        fun fresh_ more => congrArg Host.Outcome.next (sliceDone_pass running sound fresh_ more),
        fun again => congrArg Host.Outcome.next (sliceDone_second running sound again)⟩⟩

end Sys2Proof.Machine

namespace Sys2Proof.Machine

/-! ## The host and supervisor ports (R9, R486–R491, R498–R500, R504, R584) -/

/-! ### PCIe requests -/

section
variable {s : State} {fn bar off n : Nat} {data : List Byte}

theorem exec_pcieRequest (kind : Nat) (lt : fn < 33) (s : State) (bar off n : Nat) (data : List Byte) :
    exec (.pcieRequest kind fn bar off n data) s = .next (s.pcieRequest (kind % 4) fn bar off n data) := by
  have requests : exec (.pcieRequest kind fn bar off n data) s = .next (s.pcieRequest (kind % 4) (fn % 33) bar off n data) := rfl
  rw [requests, Nat.mod_eq_of_lt lt]

theorem pcieRequest_down (down : s.linkUp = false) (kind : Nat) : s.pcieRequest kind fn bar off n data = s.replyErr :=
  if_pos (by simp [down])

section
variable (up : s.linkUp = true)
include up

theorem pcieRequest_read : s.pcieRequest 0 fn bar off n data = s.pcieMem fn bar off (min n 4096) none := if_neg (by simp [up])

theorem pcieRequest_write : s.pcieRequest 1 fn bar off n data =
    s.pcieMem fn bar off (min data.length 512) (some (data.take 512)) := if_neg (by simp [up])

theorem pcieRequest_busMaster : s.pcieRequest 2 fn bar off n data =
    if !s.flag uTrust 0x104 31 then s.replyErr else { s.setBusMaster fn (n != 0) with reply := ⟨false, []⟩ } := if_neg (by simp [up])

theorem pcieRequest_vfs : s.pcieRequest 3 fn bar off n data =
    if !s.flag uTrust 0x104 31 then s.replyErr else { s.setVfs (min n 32) with reply := ⟨false, []⟩ } := if_neg (by simp [up])

end

theorem pcieMem_bar {a b k : Nat} {w : Option (List Byte)} (first : s.barAddr bar off = some a)
    (last : s.barAddr bar (off + k - 1) = some b) : s.pcieMem 0 bar off k w = (s.bus 0x100 a k w).urCount := by
  simp only [State.pcieMem, first, last, if_true]

theorem pcieMem_noBar {k : Nat} {w : Option (List Byte)} (out : s.barAddr bar off = none) :
    s.pcieMem 0 bar off k w = s.replyErr.urCount := by
  simp only [State.pcieMem, out, if_true]

theorem pcieMem_noVf {k : Nat} {w : Option (List Byte)} (vf : fn ≠ 0) (off_ : s.vfOn fn = false) :
    s.pcieMem fn bar off k w = s.replyErr.urCount := by
  simp [State.pcieMem, vf, off_]

theorem pcieMem_vf {w : Option (List Byte)} (vf : fn ≠ 0) (on : s.vfOn fn = true) (fits : off + 4 ≤ 0x10000) (aligned : off % 4 = 0) :
    s.pcieMem fn 0 off 4 w = s.vfPage fn off w := by
  simp [State.pcieMem, vf, on, Nat.not_lt.mpr fits, aligned]

end

/-! ### Function resets and the link -/

theorem fnReset_eq (s : State) (n : Nat) : s.fnReset n =
    ((((State.dropClaims (if s.flag (wChan n) 4 31 then { s with mbDiscard := n :: s.mbDiscard.filter (· != n) } else s)
      (0x100 + n)).abortFn n).haltCovered (0x100 + n)).maskAll n).setBusMaster n false := rfl

/-- The state code that the link has come to. -/
def ltssm (w : Word) : Nat := w.toNat / 2 ^ 18 % 64

theorem ltssm_lt (w : Word) : ltssm w < 64 := Nat.mod_lt _ (by decide)

/-- The link is down, in the state of a fresh code. -/
def State.linkDown (s : State) : State := s.fresh.2.wr uPcie 0x100 (w32 (ltssm s.fresh.1 * 2 ^ 18))

section
variable {s : State}

theorem linkLost_up (up : s.linkUp = true) : s.linkLost = (((s.countF uPcie 0x114 15 0 1).linkDown).allFnReset).hostLink false := by
  rw [State.linkLost, up, State.linkDown, ltssm]
  exact if_pos rfl

theorem linkLost_down (down : s.linkUp = false) : s.linkLost = s.linkDown.allFnReset := by
  rw [State.linkLost, down, State.linkDown, ltssm]
  exact if_neg Bool.false_ne_true

theorem linkTrained_not (speed width : Nat) (not_ : s.flag uPcie 0x104 31 = false ∨ s.linkUp = true) :
    s.linkTrained speed width = s := if_pos (by simpa using not_)

theorem linkTrained_up (speed width : Nat) (allowed : s.flag uPcie 0x104 31 = true) (down : s.linkUp = false) :
    s.linkTrained speed width = (((s.fresh.2.wr uPcie 0x100
      (w32 (2 ^ 31 + max 1 (min speed (s.fld uPcie 0x104 30 28)) * 2 ^ 28 +
        (([8, 4, 2].find? fun w => w ≤ width && w ≤ s.fld uPcie 0x104 27 24).getD 1) * 2 ^ 24 +
        ltssm s.fresh.1 * 2 ^ 18 + 2 ^ 17 + (s.fresh.2.rd uPcie 0x100).toNat % 2 ^ 17))).calApply (calKeyOf uPcie 4)).hostLink true) := by
  have trains : ¬((!s.flag uPcie 0x104 31 || s.linkUp) = true) := by simp [allowed, down]
  rw [State.linkTrained, if_neg trains, ltssm]

end

/-! ### Vectors and doorbells -/

section
variable {s : State} {ini n i k vec : Nat} {v : Word}

/-- A dword of an entry of a table has been stored. -/
def State.vecStored (s : State) (vec k : Nat) (v : Word) : State := s.store (s.vecEntry vec).1 ((s.vecEntry vec).2 + 4 * k) v

theorem msixStore_owned (owned : s.entryVec n i = some vec) : s.msixStore n i k v =
    let t := s.vecStored vec k v
    let p := t.vecPba vec
    if t.flag p.1 p.2.1 p.2.2 && !t.flag (s.vecEntry vec).1 ((s.vecEntry vec).2 + 12) 0 && t.busMaster n then
      (t.setFlag p.1 p.2.1 p.2.2 false).sendMsix vec
    else t := by
  rw [State.msixStore, owned]
  rfl

theorem msixWrite_may (may : s.MayVec ini n i k v vec) : s.msixWrite ini n i k v = s.msixStore n i k v := by
  obtain ⟨-, -, -, -, access⟩ := may
  rw [State.msixWrite]
  split
  case isTrue pf =>
    subst pf
    exact guarded_of_admits access _
  case isFalse vf =>
    rw [if_neg vf] at access
    obtain ⟨own, r, row, sound⟩ := access
    simp [row, sound, own]

theorem exec_msixEntryWrite {w : Nat} (may : s.MayVec ini n i k (w32 w) vec) :
    exec (.msixEntryWrite ini n i k w) s = .next (s.msixStore n i k (w32 w)) := by
  have writes : exec (.msixEntryWrite ini n i k w) s = .next (s.msixWrite ini (n % 33) (i % 2048) (k % 4) (w32 w)) := rfl
  have same := msixWrite_may may
  obtain ⟨n_lt, i_lt, k_lt, -, -⟩ := may
  rw [writes, Nat.mod_eq_of_lt n_lt, Nat.mod_eq_of_lt i_lt, Nat.mod_eq_of_lt k_lt, same]

theorem exec_vfDoorbell (w : Nat) (vf : 1 ≤ n) (lt : n < 33) : exec (.vfDoorbell n w) s = .next (s.vfDoorbell n (w32 w)) := by
  have rings : exec (.vfDoorbell n w) s = .next (if n % 33 = 0 then s else s.vfDoorbell (n % 33) (w32 w)) := rfl
  rw [rings, Nat.mod_eq_of_lt lt, if_neg (Nat.pos_iff_ne_zero.mp vf)]

theorem vfDoorbell_rings {c : Nat} (reserved : bits v 31 20 = 0) (named : s.queueClient (bits v 19 0) = some c)
    (valid : s.clientValid c = true) (covers : s.covers c (0x100 + n) = true) (admits : s.Admits (0x100 + n) uSched 0x20C v true) :
    s.vfDoorbell n v = s.doorbell (bits v 19 0) := by
  have rings := guarded_of_admits admits fun s => s.doorbell (bits v 19 0)
  simpa only [State.vfDoorbell, reserved, named, valid, covers, Bool.and_self, if_true, bne_self_eq_false, Bool.false_eq_true,
    if_false] using rings

theorem vfDoorbell_counts (reserved : bits v 31 20 = 0)
    (none_ : ∀ c, s.queueClient (bits v 19 0) = some c → s.clientValid c = false ∨ s.covers c (0x100 + n) = false) :
    s.vfDoorbell n v = s.count (wVf n) 0x408 1 := by
  have goes : ¬((bits v 31 20 != 0) = true) := by simp [reserved]
  rw [State.vfDoorbell, if_neg goes]
  cases named : s.queueClient (bits v 19 0) with
  | none => rfl
  | some c =>
    refine if_neg ?_
    rcases none_ c named with invalid | foreign
    · simp [invalid]
    · simp [foreign]

end

/-! ### SDIO -/

section
variable {s : State} {off n : Nat} {data : List Byte}

theorem exec_sdioCommand (write : Bool) {fn : Nat} (fn_lt : fn < 3) (lt : off < 2 ^ 17) (le : n ≤ 65536) (fixed : Bool) (data : List Byte)
    (s : State) : exec (.sdioCommand write fn off n fixed data) s = .next (s.sdioCommand write fn off n fixed data) := by
  have commands : exec (.sdioCommand write fn off n fixed data) s =
    .next (s.sdioCommand write (fn % 3) (off % 2 ^ 17) (min n 65536) fixed data) := rfl
  rw [commands, Nat.mod_eq_of_lt fn_lt, Nat.mod_eq_of_lt lt, Nat.min_eq_left le]

/-- An aligned transfer of a word is one access. -/
theorem sdioCommand_word (write : Bool) {fn : Nat} (fn_pos : fn ≠ 0) (aligned : off % 4 = 0) (fixed : Bool)
    (word : (if write then data.length else n) = 4) :
    s.sdioCommand write fn off n fixed data =
      let t := s.fnAccess fn off (if write then some data else none)
      { t with reply := ⟨t.reply.err, t.reply.data⟩ } := by
  cases write
  · have word : n = 4 := word
    subst word
    simp [State.sdioCommand, fn_pos, aligned, cutData]
  · have all : data.take 4 = data := List.take_of_length_le (le_of_eq (show data.length = 4 from word))
    simp [State.sdioCommand, fn_pos, aligned, cutData, all, show data.length = 4 from word]

theorem sdioCommand_unaligned (skew : off % 4 ≠ 0) (fixed : Bool) : s.sdioCommand false 1 off n fixed data =
    { s.accError 0x180 off .access with reply := ⟨false, List.replicate n 0⟩ } := by
  simp [State.sdioCommand, skew]

end

/-! ### GPIOs -/

section
variable {s : State} {ini off : Nat} {v : Word}

/-- What a write refuses: GPIO g is not the writer's. -/
def State.gpioRefused (s : State) (ini off g : Nat) : State :=
  (s.wr uDevctl 0x298 (w32 (2 ^ 31 + ini % 2 ^ 10 * 2 ^ 16 + g))).accError ini (regAddr uDevctl off) .check

theorem ownsGpio_iff (m : Nat) : s.OwnsGpio ini m ↔
    (m - (m &&& s.gpioMine ini) = 0 || (match s.claimOn uDevctl with | some c => c.ini = ini | none => false)) = true := by
  unfold State.OwnsGpio
  cases s.claimOn uDevctl <;> simp

theorem gpioWrite_owns {m : State → Nat} (admits : s.Admits ini uDevctl off v true) (owns : s.OwnsGpio ini (m s)) (act : State → State) :
    s.gpioWrite ini off v m act = act s :=
  (guarded_of_admits admits _).trans (if_pos ((ownsGpio_iff _).mp owns))

theorem lowest_getD_lt {k : Nat} (pos : 0 < k) (p : Nat → Bool) : (lowest k p).getD 0 < k := by
  cases found : lowest k p with
  | none => exact pos
  | some g => exact List.mem_range.mp (List.mem_of_find?_eq_some found)

theorem gpioWrite_refuses {m : State → Nat} (admits : s.Admits ini uDevctl off v true) (foreign : ¬s.OwnsGpio ini (m s))
    (act : State → State) : ∃ g, g < 32 ∧ s.gpioWrite ini off v m act = s.gpioRefused ini off g :=
  ⟨_, lowest_getD_lt (by decide) _, (guarded_of_admits admits _).trans (if_neg fun owns => foreign ((ownsGpio_iff _).mpr owns))⟩

theorem callSetGpio_apart {args : List Word} (apart : arg args 0 &&& s.gpioMine ini &&& (arg args 1 &&& s.gpioMine ini) = 0) :
    callSetGpio ini args s =
      let m := s.gpioMine ini
      let t := s.fresh.2
      let out := t.gpioOut ||| (arg args 0 &&& m)
      let dir := (t.rd uDevctl 0x200).toNat
      if t.claimed uDevctl then t.ret CLAIMED else ((t.wr uDevctl 0x204 (w32 (out - (out &&& (arg args 1 &&& m))))).wr uDevctl 0x200
        (w32 (dir - (dir &&& m) + (arg args 2 &&& m)))).ret OK := by
  simp only [callSetGpio, apart, Nat.and_zero, Nat.add_zero]

section
variable {args : List Word} (small : arg args 0 ≤ 31) (layout : arg args 1 &&& 0x83FF03FF = arg args 1)
include small layout

theorem callGpioOwner_eq : callGpioOwner args s =
    if s.claimed uDevctl then s.ret CLAIMED else (s.wr uDevctl (0x214 + 4 * arg args 0) (nth args 1 0)).ret OK := by
  refine if_neg ?_
  simp [Nat.not_lt.mpr small, layout]

end

end

/-- Settles O47: an equation for each way in. -/
theorem hostPorts : Obligations.HostPorts := by
  unfold Obligations.HostPorts
  refine ⟨fun kind fn bar off n data s lt => ⟨fun down => ?_, fun up => ⟨fun a b first last => ?_, fun a b first last => ?_, fun out => ?_,
      fun vf off_ => ⟨?_, ?_⟩, fun vf on fits aligned => ⟨?_, fun word => ?_⟩, fun unset => ⟨?_, ?_⟩, fun set => ⟨?_, ?_⟩⟩⟩,
    fun n s lt => ⟨fun vf => ?_, fun pf => ?_⟩,
    fun speed width s => ⟨fun up => ⟨_, ltssm_lt _, congrArg Host.Outcome.next (linkLost_up up)⟩,
      fun down => ⟨_, ltssm_lt _, congrArg Host.Outcome.next (linkLost_down down)⟩,
      fun not_ => congrArg Host.Outcome.next (linkTrained_not speed width not_),
      fun allowed down => ⟨_, ltssm_lt _, congrArg Host.Outcome.next (linkTrained_up speed width allowed down)⟩⟩,
    fun ini n i k w vec s may => ?_,
    fun n w s least lt reserved => ⟨fun c named valid covers admits => ?_, fun none_ => ?_⟩,
    fun off n fixed data s lt le => ⟨?_, ?_, fun aligned b0 b1 b2 b3 => ?_, fun aligned => ?_, fun aligned => ?_, fun skew => ?_,
      rfl, rfl, rfl⟩,
    fun ini w s => ⟨fun admits owns => congrArg Host.Outcome.next (gpioWrite_owns (m := fun s => (w32 w).toNat - ((w32 w).toNat &&& s.gpioOut)) admits owns _),
      fun admits foreign => ?_, fun admits owns => congrArg Host.Outcome.next (gpioWrite_owns (m := fun s => (w32 w).toNat &&& s.gpioOut) admits owns _),
      fun admits foreign => ?_⟩,
    fun ini args s => ⟨fun apart => congrArg Host.Outcome.next (callSetGpio_apart apart), fun small layout free => ?_, fun small layout claimed => ?_⟩⟩
  · rw [exec_pcieRequest kind lt, pcieRequest_down down]
  · rw [exec_pcieRequest 0 (by decide), pcieRequest_read up, pcieMem_bar first last]
  · rw [exec_pcieRequest 1 (by decide), pcieRequest_write up, pcieMem_bar first last]
  · rw [exec_pcieRequest 0 (by decide), pcieRequest_read up, pcieMem_noBar out]
  · rw [exec_pcieRequest 0 lt, pcieRequest_read up, pcieMem_noVf vf off_]
  · rw [exec_pcieRequest 1 lt, pcieRequest_write up, pcieMem_noVf vf off_]
  · rw [exec_pcieRequest 0 lt, pcieRequest_read up]
    exact congrArg Host.Outcome.next (pcieMem_vf vf on fits aligned)
  · rw [exec_pcieRequest 1 lt, pcieRequest_write up, word]
    exact congrArg Host.Outcome.next (pcieMem_vf vf on fits aligned)
  · rw [exec_pcieRequest 2 lt, pcieRequest_busMaster up, if_pos (by simp [unset])]
  · rw [exec_pcieRequest 3 lt, pcieRequest_vfs up, if_pos (by simp [unset])]
  · rw [exec_pcieRequest 2 lt, pcieRequest_busMaster up, if_neg (by simp [set])]
  · rw [exec_pcieRequest 3 lt, pcieRequest_vfs up, if_neg (by simp [set])]
  · have resets : exec (.functionLevelReset n) s = .next (if n % 33 = 0 then s.allFnReset else s.fnReset (n % 33)) := rfl
    rw [resets, Nat.mod_eq_of_lt lt, if_neg vf, fnReset_eq]
  · subst pf
    rfl
  · have owned := may.2.2.2.1
    have stores := (exec_msixEntryWrite may).trans (congrArg Host.Outcome.next (msixStore_owned owned))
    refine ⟨fun none_ => stores.trans (congrArg Host.Outcome.next (if_neg ?_)), fun pending unmasked master =>
      stores.trans (congrArg Host.Outcome.next (if_pos ?_))⟩
    · rcases none_ with calm | masked | slave
      · simp [State.vecStored, calm]
      · simp [State.vecStored, masked]
      · simp [State.vecStored, slave]
    · simp only [Bool.and_eq_true, Bool.not_eq_true']
      exact ⟨⟨pending, unmasked⟩, master⟩
  · rw [exec_vfDoorbell w least lt, vfDoorbell_rings reserved named valid covers admits]
  · rw [exec_vfDoorbell w least lt, vfDoorbell_counts reserved none_]
  · rw [exec_sdioCommand true (by decide) lt le]
    rfl
  · rw [exec_sdioCommand false (by decide) lt le]
    rfl
  · rw [exec_sdioCommand true (by decide) lt le, sdioCommand_word true (fn := 1) (by decide) aligned fixed rfl]
    rfl
  · rw [exec_sdioCommand false (by decide) lt (by decide), sdioCommand_word false (by decide) aligned fixed rfl]
    rfl
  · rw [exec_sdioCommand false (by decide) lt (by decide), sdioCommand_word false (by decide) aligned fixed rfl]
    rfl
  · rw [exec_sdioCommand false (by decide) lt le, sdioCommand_unaligned skew]
  · obtain ⟨g, small, refuses⟩ := gpioWrite_refuses (m := fun s => (w32 w).toNat - ((w32 w).toNat &&& s.gpioOut)) admits foreign
      fun s => s.wr uDevctl 0x204 (w32 (s.gpioOut ||| (w32 w).toNat))
    exact ⟨g, small, congrArg Host.Outcome.next refuses⟩
  · obtain ⟨g, small, refuses⟩ := gpioWrite_refuses (m := fun s => (w32 w).toNat &&& s.gpioOut) admits foreign
      fun s => s.wr uDevctl 0x204 (w32 (s.gpioOut - ((w32 w).toNat &&& s.gpioOut)))
    exact ⟨g, small, congrArg Host.Outcome.next refuses⟩
  · exact congrArg Host.Outcome.next ((callGpioOwner_eq small layout).trans (if_neg (Bool.eq_false_iff.mp free)))
  · exact congrArg Host.Outcome.next ((callGpioOwner_eq small layout).trans (if_pos claimed))

end Sys2Proof.Machine

namespace Sys2Proof.Machine

/-! ## The management mailbox (R501, R502) -/

section
variable {s : State} {ini ch : Nat}

theorem exec_mbCallGo (lt : ch < 36) (ini w : Nat) (s : State) : exec (.mbCallGo ini ch w) s = .next (s.callGo ini ch (w32 w)) := by
  have posts : exec (.mbCallGo ini ch w) s = .next (s.callGo ini (ch % 36) (w32 w)) := rfl
  rw [posts, Nat.mod_eq_of_lt lt]

theorem callGo_barred {v : Word} (barred : s.chanAllows ini ch 0 true = false) : s.callGo ini ch v = s.fwRefuse ini (chanAddr ch 0) true :=
  if_pos (by simp [barred])

section
variable {v : Word} (allowed : s.chanAllows ini ch 0 true = true)
include allowed

theorem callGo_foreign (foreign : ini ≠ chanIni ch) : s.callGo ini ch v = s.accError ini (chanAddr ch 0) .access := by
  simp [State.callGo, allowed, foreign]

theorem callGo_own (own : ini = chanIni ch) (layout : bits v 30 24 = 0) : s.callGo ini ch v =
    if !bit v 31 then s
    else if s.mbBusy ch then s.accError ini (chanAddr ch 0) .check
    else
      let t := (s.wr (wChan ch) 0 v).setFlag (wChan ch) 4 31 true
      if ch = 33 || ch = 34 then t.wake 4 uSdio else t := by
  rw [State.callGo, if_neg (by simp [allowed]), if_neg (by simp [own]), if_neg (by simp [layout])]

end

/-! ### Serving -/

theorem find?_span (lo n : Nat) (p : Nat → Bool) {k : Nat} (found : (span lo n).find? p = some k) :
    p k = true ∧ lo ≤ k ∧ k < lo + n ∧ ∀ j, lo ≤ j → j < k → p j = false := by
  rw [span, List.find?_map] at found
  obtain ⟨i, at_i, rfl⟩ := Option.map_eq_some_iff.mp found
  obtain ⟨here, lt, before⟩ := List.find?_range_eq_some.mp at_i
  have lt := List.mem_range.mp lt
  refine ⟨here, Nat.le_add_right .., by omega, fun j least less => ?_⟩
  have earlier := before (j - lo) (by omega)
  rw [Function.comp_apply, Nat.add_sub_cancel' least] at earlier
  simpa using earlier

/-- The next channel is the first one in turn that has a call and is served. -/
theorem mbNext_some (next : s.mbNext = some ch) : s.mbBusy ch = true ∧ s.mbServes ch = true ∧
    ∃ k, 1 ≤ k ∧ k ≤ 36 ∧ ch = (s.mbLast + k) % 36 ∧
      ∀ j, 1 ≤ j → j < k → s.mbBusy ((s.mbLast + j) % 36) = false ∨ s.mbServes ((s.mbLast + j) % 36) = false := by
  rw [State.mbNext, List.find?_map] at next
  obtain ⟨k, found, rfl⟩ := Option.map_eq_some_iff.mp next
  obtain ⟨here, least, most, before⟩ := find?_span _ _ _ found
  rw [Function.comp_apply, Bool.and_eq_true] at here
  refine ⟨here.1, here.2, k, least, by omega, rfl, fun j j_least less => ?_⟩
  exact Bool.and_eq_false_iff.mp (before j j_least less)

theorem serve_none (idle : s.mbNext = none) : s.serve = s := by
  rw [State.serve, idle]

theorem serve_some {t : State} {st : Nat} {ws : List Word} (next : s.mbNext = some ch)
    (runs : ({ s with mbLast := ch } : State).runPosted ch = (t, st, ws)) : s.serve = t.mbReturn ch st ws := by
  rw [State.serve, next]
  simp only [runs]

/-- The result words have been written. -/
def State.mbResult (s : State) (ch st : Nat) (ws : List Word) : State :=
  (ws.zipIdx).foldl (fun (s : State) x => s.wr (wChan ch) (0x84 + 4 * x.2) x.1)
    (s.wr (wChan ch) 0x80 (w32 (s.fld (wChan ch) 0 23 16 * 2 ^ 16 + st % 2 ^ 16)))

theorem mbReturn_kept {st : Nat} {ws : List Word} (kept : s.mbDiscard.contains ch = false) : s.mbReturn ch st ws =
    ((s.mbResult ch st ws).wr (wChan ch) 4 (w32 (((s.mbResult ch st ws).rd (wChan ch) 4).toNat / 2 ^ 29 % 4 * 2 ^ 29 +
      s.fld (wChan ch) 0 23 16 * 2 ^ 16 + st % 2 ^ 16))).chanInt ch 0 := if_neg (Bool.eq_false_iff.mp kept)

/-- What a call that ran leaves for its return. -/
def State.ran (s : State) : State := { s with callCtx := none }

theorem mbSpill_none (s : State) (ch : Nat) : s.mbSpill ch [] = (s, OK, []) := rfl

/-- A call whose arguments are there and whose results fit the registers. -/
theorem runPosted_runs {t u : State} {args : List Word}
    (arguments : s.mbArgs ch (bits (s.rd (wChan ch) 0) 15 0) = (t, OK, [], args))
    (runs : runCall (bits (s.rd (wChan ch) 0) 15 0) (chanIni ch) args
      { t with callCtx := some ⟨ch, bits (s.rd (wChan ch) 0) 23 16, bits (s.rd (wChan ch) 0) 15 0⟩ } = some u)
    (short : u.call.words.length ≤ 15) (room : u.call.status = PENDING → u.ran.doneUse ch ≤ 16) :
    s.runPosted ch = (u.ran, u.call.status, u.call.words) := by
  have fits : ¬((u.call.status = PENDING && 16 < u.ran.doneUse ch) = true) := by
    simp only [Bool.and_eq_true, decide_eq_true_eq]
    exact fun full => absurd (room full.1) (Nat.not_le.mpr full.2)
  have rest : u.ran.call.words.drop 15 = [] := List.drop_of_length_le short
  have all : u.ran.call.words.take 15 = u.call.words := List.take_of_length_le short
  rw [State.runPosted, arguments]
  refine (if_neg (by decide)).trans ?_
  extract_lets ctx
  rw [show runCall (bits (s.rd (wChan ch) 0) 15 0) (chanIni ch) args ctx = some u from runs]
  refine (if_neg fits).trans ?_
  change (match u.ran.mbSpill ch (u.ran.call.words.drop 15) with
    | (v, st, e) => if st = OK then (v, u.ran.call.status, u.ran.call.words.take 15) else (t, st, e)) = _
  rw [rest, mbSpill_none, all]
  rfl

/-! ### Completions -/

theorem callDone_none (waits : ∀ c ∈ s.pendCalls, c.fin = none) : s.callDone = s := by
  have idle : s.pendCalls.find? (·.fin.isSome) = none := by
    simpa [List.find?_eq_none] using waits
  rw [State.callDone, idle]

theorem callDone_some {c : PendCall} {x : CallCtx} {st : Nat} (oldest : s.pendCalls.find? (·.fin.isSome) = some c)
    (posted : c.src = some x) (ended : c.fin = some st) : s.callDone =
      let r : State := { s with pendCalls := s.pendCalls.erase c, doneFifo := s.doneFifo ++ [(x.chan, x.tag, c.num, st)] }
      let t := (c.res.zipIdx).foldl (fun (s : State) e => s.wr (wChan x.chan) (0x84 + 4 * e.2) e.1) r
      ((t.setFlag (wChan x.chan) 4 30 true).chanInt x.chan 1).postIni (chanIni x.chan) 0x0040 uDevctl (c.num + x.tag * 2 ^ 16) st := by
  rw [State.callDone, oldest]
  simp only [posted, ended, Option.getD_some]

/-! ### Reads of a channel -/

section
variable {off : Nat} {f : State → Nat → Word × State}

theorem chanRead_barred (barred : s.chanAllows ini ch off false = false) : s.chanRead ini ch off f =
    { s.fwRefuse ini (chanAddr ch off) false with reply := ⟨true, []⟩ } := if_pos (by simp [barred])

theorem chanRead_own (allowed : s.chanAllows ini ch off false = true) (own : ini = chanIni ch) :
    s.chanRead ini ch off f = (f s ch).2.answer (f s ch).1 := by
  rw [State.chanRead, if_neg (by simp [allowed]), if_pos own]

end

theorem exec_mbStatusRead (lt : ch < 36) (ini : Nat) (s : State) :
    exec (.mbStatusRead ini ch) s = .next (s.chanRead ini ch 4 State.statusRead) := by
  have reads : exec (.mbStatusRead ini ch) s = .next (s.chanRead ini (ch % 36) 4 State.statusRead) := rfl
  rw [reads, Nat.mod_eq_of_lt lt]

theorem exec_mbDoneRead (lt : ch < 36) (ini : Nat) (s : State) :
    exec (.mbDoneRead ini ch) s = .next (s.chanRead ini ch 0x14 State.doneRead) := by
  have reads : exec (.mbDoneRead ini ch) s = .next (s.chanRead ini (ch % 36) 0x14 State.doneRead) := rfl
  rw [reads, Nat.mod_eq_of_lt lt]

theorem doneRead_none (empty : s.doneFifo.find? (·.1 = ch) = none) : s.doneRead ch = (0, s) := by
  rw [State.doneRead, empty]

theorem doneRead_some {c tag num st : Nat} (oldest : s.doneFifo.find? (·.1 = ch) = some (c, tag, num, st)) : s.doneRead ch =
    let t := ({ s with doneFifo := s.doneFifo.erase (c, tag, num, st) } : State).wr (wChan ch) 0x18 (w32 num)
    (w32 (2 ^ 31 + tag * 2 ^ 16 + st), t.setFlag (wChan ch) 4 30 (t.doneFifo.any (·.1 = ch))) := by
  rw [State.doneRead, oldest]

end

/-- Settles O48: an equation for each step of a call's way through a channel. -/
theorem mailbox : Obligations.Mailbox := by
  unfold Obligations.Mailbox
  refine ⟨fun ini ch w s lt => ⟨fun barred => ?_, fun allowed foreign => ?_, fun allowed own layout =>
      ⟨fun idle => ?_, fun go busy => ?_, fun go free => ?_⟩⟩,
    fun s => ⟨fun idle => congrArg Host.Outcome.next (serve_none idle), fun ch next => ?_⟩,
    fun ch st ws s kept => mbReturn_kept kept, fun ch s t u args arguments runs short room => runPosted_runs arguments runs short room,
    fun s waits => congrArg Host.Outcome.next (callDone_none waits),
    fun s c x st oldest posted ended => congrArg Host.Outcome.next (callDone_some oldest posted ended),
    fun ini ch s lt => ⟨fun barred => ?_, fun barred => ?_⟩,
    fun ini ch s lt own status done => ⟨?_, fun empty => ?_, fun c tag num st oldest => ?_⟩⟩
  · rw [exec_mbCallGo lt, callGo_barred barred]
  · rw [exec_mbCallGo lt, callGo_foreign allowed foreign]
  · rw [exec_mbCallGo lt, callGo_own allowed own layout, idle]
    rfl
  · rw [exec_mbCallGo lt, callGo_own allowed own layout, go, busy]
    rfl
  · rw [exec_mbCallGo lt, callGo_own allowed own layout, go, free]
    simp only [Bool.not_true, Bool.false_eq_true, if_false, Bool.or_eq_true, decide_eq_true_eq]
  · obtain ⟨busy, serves, turn⟩ := mbNext_some next
    obtain ⟨k, least, most, is, before⟩ := turn
    exact ⟨busy, serves, k, least, most, is, before, fun t st ws runs => congrArg Host.Outcome.next (serve_some next runs)⟩
  · rw [exec_mbStatusRead lt, chanRead_barred barred]
  · rw [exec_mbDoneRead lt, chanRead_barred barred]
  · rw [exec_mbStatusRead lt, chanRead_own status own]
    rfl
  · rw [exec_mbDoneRead lt, chanRead_own done own, doneRead_none empty]
  · rw [exec_mbDoneRead lt, chanRead_own done own, doneRead_some oldest]

/-! ## Translation, and the ports' calls (R489, R493–R497, R504, R506, R507) -/

section
variable {s : State} {ini : Nat}

theorem invalGo_eq {v : Word} (admits : s.Admits ini uXlate 0x118 v false) (go : bit v 31 = true) : s.invalGo ini v =
    if s.xlInval.isSome then s.accError ini (regAddr uXlate 0x118) .check
    else s.invalStart (bit v 30, bit v 29, bits v 11 0, s.fld uXlate 0x11C 27 0, (s.rd uXlate 0x120).toNat) :=
  (guarded_of_admits admits _).trans (if_neg (by simp [go]))

theorem invalDone_none (idle : s.xlInval = none) : s.invalDone = s := by
  rw [State.invalDone, idle]

theorem invalDone_some {r : Bool × Bool × Nat × Nat × Nat} (runs : s.xlInval = some r) : s.invalDone =
    (({ s with tlb := s.tlb.filter fun t => !covered r t, xlInval := none } : State).setFlag uXlate 0x124 31 false).finish 0x0A03 uXlate OK := by
  rw [State.invalDone, runs]

theorem covered_iff (all mem : Bool) (c base n : Nat) (e : TlbEntry) : covered (all, mem, c, base, n) e = true ↔
    e.memRoot = mem ∧ (all = true ∨ e.client = c) ∧ (n = 0 ∨ e.input < (base + n) * 4096 ∧ base * 4096 < e.input + e.size) := by
  simp [covered, and_assoc]

/-! ### Calls -/

section
variable {args : List Word}

theorem callSetVectors_eq (least : 1 ≤ arg args 0) (most : arg args 0 ≤ 32) (first : arg args 1 ≤ 2047) (few : arg args 2 ≤ 128)
    (free : s.claimed uPcie = false) : callSetVectors args s =
      if s.flag uPcie 0x100 16 then s.ret REFUSED [4]
      else if s.vecClash (arg args 0) (arg args 1) (arg args 2) then s.ret VECTORS_FULL
      else (s.setVec (arg args 0) (arg args 1) (arg args 2)).ret OK := by
  have sound : ¬((arg args 0 = 0 || 32 < arg args 0 || 2047 < arg args 1 || 128 < arg args 2) = true) := by
    simp only [Bool.or_eq_true, decide_eq_true_eq]
    omega
  exact (if_neg sound).trans (if_neg (Bool.eq_false_iff.mp free))

theorem callSetWindow_range (far : lwMost s.part < arg args 0) : callSetWindow args s = s.ret RANGE := if_pos far

theorem callSetWindow_stores (near : arg args 0 ≤ lwMost s.part) (free : s.claimed uPcie = false) :
    callSetWindow args s = (s.wr uPcie 0x108 (w32 (arg args 0))).ret OK :=
  (if_neg (Nat.not_lt.mpr near)).trans (if_neg (Bool.eq_false_iff.mp free))

theorem isClient_iff (c : Nat) : s.isClient ini c = true ↔ s.clientOf ini = some c := decide_eq_true_iff

section
variable (small : arg args 0 ≤ 4095) (host : rootBad args 1 = false) (mem : rootBad args 3 = false) (fn : arg args 5 ≤ 32)
include small host mem fn

theorem callSetContext_eq : callSetContext ini args s =
    if !s.isClient ini (arg args 0) then s.ret DENIED
    else if s.claimed uXlate then s.ret CLAIMED
    else if s.clientRuns (arg args 0) then s.ret QUEUE_RUNNING
    else ((List.range 5).foldl (fun (s : State) i => s.wr (wXl (arg args 0)) (0x104 + 4 * i) (nth args (1 + i) 0)) s).ret OK := by
  refine if_neg ?_
  simp [host, mem, Nat.not_lt.mpr small, Nat.not_lt.mpr fn]

theorem callSetContext_denied (foreign : s.clientOf ini ≠ some (arg args 0)) : callSetContext ini args s = s.ret DENIED := by
  rw [callSetContext_eq small host mem fn]
  exact if_pos (by simpa [State.isClient] using foreign)

theorem callSetContext_own (own : s.clientOf ini = some (arg args 0)) (free : s.claimed uXlate = false) : callSetContext ini args s =
    if s.clientRuns (arg args 0) then s.ret QUEUE_RUNNING
    else ((List.range 5).foldl (fun (s : State) i => s.wr (wXl (arg args 0)) (0x104 + 4 * i) (nth args (1 + i) 0)) s).ret OK := by
  rw [callSetContext_eq small host mem fn, if_neg (by simp [State.isClient, own]), if_neg (Bool.eq_false_iff.mp free)]

end

theorem callInvalidate_starts (small : arg args 0 ≤ 4095) (root : arg args 1 ≤ 1) (base : arg args 2 < 2 ^ 28)
    (own : s.clientOf ini = some (arg args 0)) (free : s.claimed uXlate = false) (idle : s.xlInval = none) : callInvalidate ini args s =
      (s.invalStart (false, decide (arg args 1 = 1), arg args 0, arg args 2, arg args 3)).retPending 0x0A03 uXlate := by
  unfold callInvalidate
  extract_lets all
  have one : decide all = false := decide_eq_false (show ¬arg args 0 = 2 ^ 32 - 1 by omega)
  have sound : ¬(((!decide all && decide (4095 < arg args 0)) || decide (1 < arg args 1) || decide (2 ^ 28 ≤ arg args 2)) = true) := by
    simp only [one, Bool.or_eq_true, Bool.not_false, Bool.true_and, decide_eq_true_eq]
    omega
  rw [if_neg sound, if_neg (by simp [State.isClient, own]), if_neg (Bool.eq_false_iff.mp free), if_neg (by simp [idle]), one]

theorem callTranslate_eq (small : arg args 0 ≤ 4095) (high : arg args 2 < 2 ^ 16) (way : arg args 3 ≤ 1) : callTranslate ini args s =
    if !s.isClient ini (arg args 0) then s.ret DENIED
    else
      let go := fun (mem : Bool) (input base : Nat) =>
        let r := s.peek (arg args 0) mem input (arg args 3 = 1)
        if r.1 = 0 then s.ret OK (addrWords (base + r.2.1) ++ [w32 r.2.2]) else s.ret XLATE_FAULT [w32 r.1]
      match regionOf s.part (argAddr args 1) with
      | .host => go false (argAddr args 1 - 0x10000000000) 0
      | .lpddr => go true (argAddr args 1 - 0x100000000) 0
      | _ => s.ret RANGE := by
  have sound : ¬((decide (4095 < arg args 0) || decide (2 ^ 16 ≤ arg args 2) || decide (1 < arg args 3)) = true) := by
    simp only [Bool.or_eq_true, decide_eq_true_eq]
    omega
  exact if_neg sound

end

end

/-- Settles O49: an equation for each command and call. -/
theorem translations : Obligations.Translations := by
  unfold Obligations.Translations
  refine ⟨fun c input mem write s c_lt input_lt => ?_, fun ini w s admits => ?_,
    fun s => ⟨fun idle => congrArg Host.Outcome.next (invalDone_none idle), fun all mem c base n runs => ?_⟩, fun ini args s =>
    ⟨fun least most first few free => ?_, fun far => congrArg Host.Outcome.next (callSetWindow_range far),
      fun near free => congrArg Host.Outcome.next (callSetWindow_stores near free),
      fun small host mem fn => ⟨fun foreign => congrArg Host.Outcome.next (callSetContext_denied small host mem fn foreign),
        fun own free runs => congrArg Host.Outcome.next ((callSetContext_own small host mem fn own free).trans (if_pos runs)),
        fun own free idle => congrArg Host.Outcome.next ((callSetContext_own small host mem fn own free).trans (if_neg (Bool.eq_false_iff.mp idle)))⟩,
      fun small root base own free idle => congrArg Host.Outcome.next (callInvalidate_starts small root base own free idle),
      fun small high way => ⟨fun foreign => congrArg Host.Outcome.next ((callTranslate_eq small high way).trans (if_pos ?_)),
        fun own region f o k looks => congrArg Host.Outcome.next ((callTranslate_eq small high way).trans ?_)⟩⟩⟩
  · have walks : exec (.translationWalkDone c mem input write) s = .next (s.translate (c % 4096) mem (input % 2 ^ 40) write).1 := rfl
    rw [walks, Nat.mod_eq_of_lt c_lt, Nat.mod_eq_of_lt input_lt]
  · have starts := invalGo_eq admits (bit_setBit_same _ _ _ (by decide))
    exact ⟨fun idle => congrArg Host.Outcome.next (starts.trans (if_neg (by simp [idle]))),
      fun busy => congrArg Host.Outcome.next (starts.trans (if_pos (Option.isSome_iff_ne_none.mpr busy)))⟩
  · refine Gives.of (congrArg Host.Outcome.next (invalDone_some runs)) rfl ⟨rfl, fun e => ?_⟩
    rw [← covered_iff]
    exact List.mem_filter.trans (by simp)
  · have sets := callSetVectors_eq least most first few free
    exact ⟨fun on => congrArg Host.Outcome.next (sets.trans (if_pos on)),
      fun off_ clash => congrArg Host.Outcome.next (sets.trans ((if_neg (Bool.eq_false_iff.mp off_)).trans (if_pos clash))),
      fun off_ apart => congrArg Host.Outcome.next (sets.trans ((if_neg (Bool.eq_false_iff.mp off_)).trans (if_neg (Bool.eq_false_iff.mp apart))))⟩
  · simpa [State.isClient] using foreign
  · rw [if_neg (by simp [State.isClient, own]), region]
    simp only [looks]

end Sys2Proof.Machine

namespace Sys2Proof.Machine

/-! ## Power states (R511–R521, R525, R526) -/

/-! ### Requests -/

section
variable {s : State} {a : Nat}

theorem goState_moving (moving : s.pwrState = 4 ∨ s.pwrState = 5) : s.goState a = none := if_pos (by simpa using moving)

section
variable (still : s.pwrState < 4)
include still

theorem goState_still : s.goState a =
    if s.pwrState = a then some s.statesReached
    else if a ≤ 1 then (if s.pwrState ≤ 1 then some (s.moveTo a) else some ((s.setPwrTarget a).wake 9 uPwr))
    else if s.pwrState = 3 then none
    else some (s.startEntry a) := by
  refine if_neg ?_
  simp only [Bool.or_eq_true, decide_eq_true_eq]
  omega

theorem goState_same (there : s.pwrState = a) : s.goState a = some s.statesReached := (goState_still still).trans (if_pos there)

end

theorem goState_moves (up : s.pwrState ≤ 1) (target : a ≤ 1) (other : s.pwrState ≠ a) : s.goState a = some (s.moveTo a) := by
  rw [goState_still (by omega), if_neg other, if_pos target, if_pos up]

theorem goState_wakes (down : s.pwrState = 2 ∨ s.pwrState = 3) (target : a ≤ 1) :
    s.goState a = some ((s.setPwrTarget a).wake 9 uPwr) := by
  rw [goState_still (by omega), if_neg (by omega), if_pos target, if_neg (by omega)]

theorem goState_enters (from_ : s.pwrState ≤ 1 ∧ 2 ≤ a ∨ s.pwrState = 2 ∧ a = 3) : s.goState a = some (s.startEntry a) := by
  rw [goState_still (by omega), if_neg (by omega), if_neg (by omega), if_neg (by omega)]

/-- The four commands are the four values of PWR_CMD. -/
theorem exec_pwrCmd (ini : Nat) (small : a < 4) (s : State) :
    exec (if a = 0 then .pwrCmdRun ini else if a = 1 then .pwrCmdTrim ini else if a = 2 then .pwrCmdDoze ini else .pwrCmdSleep ini) s =
      .next (s.pwrCmd ini a) := by
  have which : a = 0 ∨ a = 1 ∨ a = 2 ∨ a = 3 := by omega
  rcases which with rfl | rfl | rfl | rfl <;> rfl

theorem pwrCmd_taken {t : State} {ini : Nat} (admits : s.Admits ini uPwr 0x104 (w32 (a + 1)) false) (taken : s.goState a = some t) :
    s.pwrCmd ini a = t := by
  rw [State.pwrCmd, guarded_of_admits admits, taken]

theorem pwrCmd_rejected {ini : Nat} (admits : s.Admits ini uPwr 0x104 (w32 (a + 1)) false) (rejected : s.goState a = none) :
    s.pwrCmd ini a = s.accError ini (regAddr uPwr 0x104) .check := by
  rw [State.pwrCmd, guarded_of_admits admits, rejected]

end

/-! ### Answers to an entry -/

section
variable {s : State} {u : Nat} {timeUp : Bool}

/-- A unit has answered. -/
def State.answered (s : State) (u : Nat) : State := { s with pwr := { s.pwr with waiting := s.pwr.waiting.filter (· != u) } }

section
variable (entering : s.pwrState = 4) (asked : s.pwr.waiting.contains u = true)
include entering asked

theorem asked_goes : ¬((s.pwrState != 4 || !s.pwr.waiting.contains u) = true) := by simp [entering, List.contains_iff_mem.mp asked]

theorem unitAnswers_none (delays : s.powerAnswer u s.pwrTarget timeUp = none) : s.unitAnswers u timeUp = s := by
  rw [State.unitAnswers, if_neg (asked_goes entering asked)]
  simp only [delays]

theorem unitAnswers_refuses {r : Nat} (some_ : r ≠ 0) (refuses : s.powerAnswer u s.pwrTarget timeUp = some r) :
    s.unitAnswers u timeUp = s.abandon r u := by
  obtain ⟨k, rfl⟩ := Nat.exists_eq_succ_of_ne_zero some_
  rw [State.unitAnswers, if_neg (asked_goes entering asked)]
  simp only [refuses]

section
variable (acknowledges : s.powerAnswer u s.pwrTarget timeUp = some 0)
include acknowledges

theorem unitAnswers_acknowledges (no_bank : unitClass u ≠ some .bg) (no_sched : unitClass u ≠ some .sched) :
    s.unitAnswers u timeUp = s.answered u := by
  rw [State.unitAnswers, if_neg (asked_goes entering asked)]
  simp only [acknowledges]
  rfl

theorem unitAnswers_sched (sched : unitClass u = some .sched) (sleep : s.pwrTarget = 3) :
    s.unitAnswers u timeUp = (s.answered u).qcache.foldl (fun s x => s.writeBack x) (s.answered u) := by
  rw [State.unitAnswers, if_neg (asked_goes entering asked)]
  simp only [acknowledges, sched]
  exact if_pos sleep

theorem unitAnswers_bank {t : State} (is : t = s.answered u) (bank : unitClass u = some .bg) (doze : s.pwrTarget = 2)
    (awake : t.flag u 0x100 31 = false) : s.unitAnswers u timeUp = { t.retain (u - 0x110) with
      pwr := { (t.retain (u - 0x110)).pwr with slept := (t.retain (u - 0x110)).pwr.slept ++ [u - 0x110] } } := by
  have sleeps : (s.pwrTarget = 2 && !t.flag u 0x100 31) = true := by simp [doze, awake]
  rw [State.unitAnswers, if_neg (asked_goes entering asked)]
  simp only [acknowledges, bank]
  rw [State.answered] at is
  rw [← is, if_pos sleeps]

end

theorem noAnswer_abandons : s.noAnswer u = (s.recordFault fNO_ANSWER u 0x4A noQueue 0 0 0 0 oNone).abandon 7 u :=
  if_neg (asked_goes entering asked)

end

end

/-! ### Entries, wakes and exits -/

section
variable {s : State}

/-- Every unit has acknowledged, and the device is in the state asked for. -/
def State.entered (s : State) : State :=
  let t := if s.pwrTarget = 3 then s.sleepOff else s.domsDown (List.range 62)
  (((t.setPwrState s.pwrTarget).wr uPwr 0x140 (w32 (2 * (t.gauge.ticks - t.pwr.began)))).postPower s.pwr.left s.pwrTarget).statesReached

section
variable (entering : s.pwrState = 4) (all : s.pwr.waiting = [])
include entering all

theorem entryDone_goes : ¬((s.pwrState != 4 || !s.pwr.waiting.isEmpty) = true) := by simp [entering, all]

theorem entryDone_quiet (quiet : s.entered.pwr.wake = none) : s.entryDone = s.entered := by
  rw [State.entryDone, if_neg (entryDone_goes entering all)]
  extract_lets tgt old t u v
  have is : v = s.entered := by
    unfold State.entered
    rfl
  rw [is, quiet]

theorem entryDone_woken {src u : Nat} (woken : s.entered.pwr.wake = some (src, u)) :
    s.entryDone = (s.entered.count uPwr 0x14C 1).startExit src u := by
  rw [State.entryDone, if_neg (entryDone_goes entering all)]
  extract_lets tgt old t u' v
  have is : v = s.entered := by
    unfold State.entered
    rfl
  rw [is, woken]

end

theorem entryDone_waits (waits : s.pwr.waiting ≠ []) : s.entryDone = s := if_pos (by simp [waits])

/-- A wake source exists: a CAN controller's and a CSI-2 link's while it is enabled. -/
def State.sourceThere (s : State) (src u : Nat) : Prop :=
  (src = 3 → unitClass u = some .cn ∧ s.flag u 0x100 31 = true) ∧ (src = 5 → unitClass u = some .cl ∧ s.flag u 0x100 31 = true)

theorem wakeSource_absent {src u : Nat} (absent : ¬s.sourceThere src u) : s.wakeSource src u = s := by
  simp only [State.sourceThere, Classical.not_and_iff_not_or_not, Classical.not_imp] at absent
  refine if_pos ?_
  rcases absent with ⟨rfl, away⟩ | ⟨rfl, away⟩
  · simpa using away
  · simpa using away

theorem wakeSource_there {src u : Nat} (least : 1 ≤ src) (most : src ≤ 8) (there : s.sourceThere src u) :
    s.wakeSource src u = s.wake src u := by
  have which : src = 3 ∨ src = 5 ∨ (src ≠ 3 ∧ src ≠ 5) := by omega
  obtain ⟨can, csi⟩ := there
  rcases which with rfl | rfl | ⟨no_can, no_csi⟩
  · obtain ⟨class_, on⟩ := can rfl
    simp [State.wakeSource, class_, on]
  · obtain ⟨class_, on⟩ := csi rfl
    simp [State.wakeSource, class_, on]
  · have pos : src ≠ 0 := by omega
    simp [State.wakeSource, pos, Nat.not_lt.mpr most]

section
variable {src u : Nat} (source : src ≤ 8)

theorem wake_disabled (source : src ≤ 8) (disabled : s.flag uPwr 0x11C (src - 1) = false) : s.wake src u = s := by
  have other : src ≠ 9 := by omega
  exact if_pos (by simp [other, disabled])

theorem wake_enabled (enabled : s.flag uPwr 0x11C (src - 1) = true) : s.wake src u =
    if s.pwrState = 2 || s.pwrState = 3 then s.startExit src u
    else if s.pwrState = 4 && s.pwr.wake.isNone then { s with pwr := { s.pwr with wake := some (src, u) } }
    else s := if_neg (by simp [enabled])

theorem wake_awake (source : src ≤ 8) (awake : s.pwrState = 0 ∨ s.pwrState = 1 ∨ s.pwrState = 5) : s.wake src u = s := by
  cases enabled : s.flag uPwr 0x11C (src - 1)
  · exact wake_disabled source enabled
  · rw [wake_enabled enabled, if_neg (by simp only [Bool.or_eq_true, decide_eq_true_eq]; omega),
      if_neg (by simp only [Bool.and_eq_true, decide_eq_true_eq]; omega)]

end

/-- The exit sequence has ended, in the state that the entry left. -/
def State.exited (s : State) : State :=
  let left := s.pwr.left
  let back := s.fld uPwr 0x100 25 23
  let t := s.domsUp (s.gradeDoms.filter fun d => left = 3 || d < 62)
  let u := (if left = 3 then t.restore else t).wakeAll
  ((((u.setPwrState back).setPwrTarget back).wr uPwr 0x144 (w32 (2 * (u.gauge.ticks - u.pwr.began)))).postPower left back).statesReached

theorem exitDone_leaving (leaving : s.pwrState = 5) : s.exitDone = if s.pwrTarget ≤ 1 then s.exited.moveTo s.pwrTarget else s.exited :=
  if_neg (by simp [leaving])

/-! ### TRIM -/

section
variable {u d : Nat} (domain : unitDomain u = some d) (trim : s.pwrState = 1)
include domain trim

theorem trimIdle_gates (class_ : unitClass u = some .tile ∨ unitClass u = some .te ∨ unitClass u = some .vat) :
    s.trimIdle u = if s.idleUnit u then s.domDown d else s := by
  rcases class_ with tile | te | vat
  · simp [State.trimIdle, tile, domain, trim]
  · simp [State.trimIdle, te, domain, trim]
  · simp [State.trimIdle, vat, domain, trim]

theorem testPowerUp_due (tested : isTested u = true) (there : s.exists? u = true) (gated : s.domOn d = false)
    (never : (s.testX u).passAt = none) (idle : s.pwr.powering.contains d = false) :
    s.testPowerUp u = { s with pwr := { s.pwr with powering := s.pwr.powering ++ [d] } } := by
  simp [State.testPowerUp, domain, tested, there, trim, gated, never, List.contains_iff_mem.not.mp (Bool.eq_false_iff.mp idle)]

end

/-! ### Calls -/

section
variable {args : List Word} (free : s.claimed uPwr = false)
include free

theorem callRequestPower_eq (least : 1 ≤ arg args 0) (most : arg args 0 ≤ 4) (idle : s.pwrBusy = false) : callRequestPower args s =
    match (s.retPending 0x0B01 (arg args 0)).goState (arg args 0 - 1) with
    | none => s.ret UNIT_BUSY
    | some t => if t.pwrState = arg args 0 - 1 && s.pwrState ≤ 1 then ({ t with pendCalls := s.pendCalls } : State).ret OK else t := by
  have sound : ¬((arg args 0 = 0 || 4 < arg args 0) = true) := by
    simp only [Bool.or_eq_true, decide_eq_true_eq]
    omega
  exact (if_neg sound).trans ((if_neg (Bool.eq_false_iff.mp free)).trans (if_neg (Bool.eq_false_iff.mp idle)))

theorem callPwrStore_stores {off most least : Nat} (low : least ≤ arg args 0) (high : arg args 0 ≤ most) :
    callPwrStore off most least args s = (s.wr uPwr off (w32 (arg args 0))).ret OK := by
  have sound : ¬((arg args 0 < least || most < arg args 0) = true) := by
    simp only [Bool.or_eq_true, decide_eq_true_eq]
    omega
  exact (if_neg sound).trans (if_neg (Bool.eq_false_iff.mp free))

end

end

/-- Settles O50: an equation for each request, answer, wake, exit and call. -/
theorem powerStates : Obligations.PowerStates := by
  unfold Obligations.PowerStates
  refine ⟨fun a s small => ⟨goState_moving, goState_same, goState_moves, goState_wakes, fun up deep => goState_enters (.inl ⟨up, deep⟩),
      fun doze sleep => goState_enters (.inr ⟨doze, sleep⟩)⟩,
    fun ini a s small admits => ?_, fun u timeUp s entering asked => ?_, fun s entering all => ?_,
    fun s _ waits => congrArg Host.Outcome.next (entryDone_waits waits),
    fun src u s absent => congrArg Host.Outcome.next (wakeSource_absent ?_), fun src u s least most can csi => ?_, fun s leaving => ?_,
    fun u d s domain trim => ⟨fun class_ idle => ?_, fun class_ busy => ?_, fun tested there gated never idle =>
      congrArg Host.Outcome.next (testPowerUp_due domain trim tested there gated never idle)⟩, fun _ => rfl,
    fun ini args s free => ⟨fun least most idle => ⟨fun t taken => ⟨fun reached => ?_, fun not_ => ?_⟩, fun rejected => ?_⟩,
      fun most => congrArg Host.Outcome.next (callPwrStore_stores free (Nat.zero_le _) most),
      fun least most => congrArg Host.Outcome.next (callPwrStore_stores free least most)⟩⟩
  · intro c
    have commands : exec c s = .next (s.pwrCmd ini a) := exec_pwrCmd ini small s
    exact ⟨fun t taken => commands.trans (congrArg Host.Outcome.next (pwrCmd_taken admits taken)),
      fun rejected => commands.trans (congrArg Host.Outcome.next (pwrCmd_rejected admits rejected))⟩
  · refine ⟨fun delays => congrArg Host.Outcome.next (unitAnswers_none entering asked delays),
      fun r some_ refuses => congrArg Host.Outcome.next (unitAnswers_refuses entering asked some_ refuses),
      fun acknowledges no_bank no_sched => ?_, fun acknowledges sched sleep => ?_, fun acknowledges bank doze awake => ?_,
      congrArg Host.Outcome.next (noAnswer_abandons entering asked)⟩
    · exact congrArg Host.Outcome.next (unitAnswers_acknowledges entering asked acknowledges no_bank no_sched)
    · exact congrArg Host.Outcome.next (unitAnswers_sched entering asked acknowledges sched sleep)
    · exact congrArg Host.Outcome.next (unitAnswers_bank entering asked acknowledges rfl bank doze awake)
  · exact ⟨fun quiet => congrArg Host.Outcome.next (entryDone_quiet entering all quiet),
      fun src v woken => congrArg Host.Outcome.next (entryDone_woken entering all woken)⟩
  · rintro ⟨can, csi⟩
    rcases absent with ⟨is, away⟩ | ⟨is, away⟩
    · exact away (can is)
    · exact away (csi is)
  · have wakes : exec (.wake src u) s = .next (s.wake src u) := congrArg Host.Outcome.next (wakeSource_there least most ⟨can, csi⟩)
    refine ⟨fun disabled => wakes.trans (congrArg Host.Outcome.next (wake_disabled most disabled)),
      fun enabled down => wakes.trans (congrArg Host.Outcome.next ((wake_enabled enabled).trans (if_pos (by simpa using down)))),
      fun enabled entering quiet => wakes.trans (congrArg Host.Outcome.next ((wake_enabled enabled).trans ?_)),
      fun awake => wakes.trans (congrArg Host.Outcome.next (wake_awake most awake))⟩
    exact (if_neg (by simp [entering])).trans (if_pos (by simp [entering, quiet]))
  · have ends := exitDone_leaving leaving
    exact ⟨fun deep => congrArg Host.Outcome.next (ends.trans (if_neg (Nat.not_le.mpr deep))),
      fun up => congrArg Host.Outcome.next (ends.trans (if_pos up))⟩
  · exact congrArg Host.Outcome.next ((trimIdle_gates domain trim class_).trans (if_pos idle))
  · exact congrArg Host.Outcome.next ((trimIdle_gates domain trim class_).trans (if_neg (Bool.eq_false_iff.mp busy)))
  · refine congrArg Host.Outcome.next ((callRequestPower_eq free least most idle).trans ?_)
    rw [taken]
    exact if_pos (by simpa using reached)
  · refine congrArg Host.Outcome.next ((callRequestPower_eq free least most idle).trans ?_)
    rw [taken]
    refine if_neg ?_
    simp only [Bool.and_eq_true, decide_eq_true_eq]
    omega
  · refine congrArg Host.Outcome.next ((callRequestPower_eq free least most idle).trans ?_)
    rw [rejected]

end Sys2Proof.Machine

namespace Sys2Proof.Machine

/-! ## Revocation of a root slot (R532) -/

/-- Bit j of the four revocation fuses. -/
def fuseBlown (r j : Nat) : Bool := r / 2 ^ j % 2 = 1

theorem revoked_eq (s : State) (j : Nat) : s.revoked j = fuseBlown s.otpRevoke j := rfl

theorem popcount_three_of_last : ∀ (r : Fin 16) (k : Fin 4), fuseBlown r k = false →
    (∀ j : Fin 4, j ≠ k → fuseBlown r j = true) → popcount 4 r = 3 := by decide

theorem popcount_ne_three : ∀ (r : Fin 16) (k j : Fin 4), fuseBlown r k = false → j ≠ k → fuseBlown r j = false →
    popcount 4 r ≠ 3 := by decide

theorem fuseBlown_blow : ∀ (r : Fin 16) (k : Fin 4), fuseBlown r k = false → ∀ j : Fin 4,
    fuseBlown (r + 2 ^ k.val) j = (fuseBlown r j || decide (j = k)) := by decide

section
variable {s : State} {ini : Nat} {args : List Word} (caller : trustCaller ini = true) (free : s.claimed uTrust = false)
  (small : arg args 0 < 4)
include caller free small

theorem callRevoke_eq : callRevoke ini args s =
    if s.signsLive (arg args 0) then s.ret KEY_REVOKED
    else if s.revoked (arg args 0) then s.ret OK
    else if popcount 4 s.otpRevoke = 3 then s.ret KEY_REVOKED
    else ({ s.ret OK with otpRevoke := s.otpRevoke + 2 ^ arg args 0 } : State).trustSync := by
  rw [callRevoke, if_neg (by simp [caller]), if_neg (Bool.eq_false_iff.mp free), if_neg (by omega)]
  rfl

theorem callRevoke_live (live : s.signsLive (arg args 0) = true) : callRevoke ini args s = s.ret KEY_REVOKED :=
  (callRevoke_eq caller free small).trans (if_pos live)

section
variable (fuses : s.otpRevoke < 16) (intact : s.revoked (arg args 0) = false)
include fuses intact

theorem callRevoke_last (others : ∀ j, j < 4 → j ≠ arg args 0 → s.revoked j = true) : callRevoke ini args s = s.ret KEY_REVOKED := by
  rw [callRevoke_eq caller free small]
  split
  · rfl
  · rw [if_neg (Bool.eq_false_iff.mp intact), if_pos (popcount_three_of_last ⟨_, fuses⟩ ⟨_, small⟩ intact
      fun j ne => others j j.isLt fun same => ne (Fin.ext same))]

theorem callRevoke_revokes (dead : s.signsLive (arg args 0) = false) (other : ∃ j, j < 4 ∧ j ≠ arg args 0 ∧ s.revoked j = false) :
    callRevoke ini args s = ({ s.ret OK with otpRevoke := s.otpRevoke + 2 ^ arg args 0 } : State).trustSync := by
  obtain ⟨j, j_lt, ne, whole⟩ := other
  rw [callRevoke_eq caller free small, if_neg (Bool.eq_false_iff.mp dead), if_neg (Bool.eq_false_iff.mp intact),
    if_neg (popcount_ne_three ⟨_, fuses⟩ ⟨_, small⟩ ⟨j, j_lt⟩ intact (fun same => ne (Fin.mk.inj same)) whole)]

end

end

/-- Settles O52: the conditions in the call's order, the fuses by their sixteen values. -/
theorem rootSlotRevocation : Obligations.RootSlotRevocation := by
  unfold Obligations.RootSlotRevocation
  rintro ini args s k caller free rfl small fuses
  exact ⟨fun live => congrArg Host.Outcome.next (callRevoke_live caller free small live),
    fun intact others => congrArg Host.Outcome.next (callRevoke_last caller free small fuses intact others),
    fun dead intact other => Gives.of (congrArg Host.Outcome.next (callRevoke_revokes caller free small fuses intact dead other)) rfl
      ⟨rfl, fun j j_lt => (fuseBlown_blow ⟨_, fuses⟩ ⟨_, small⟩ intact ⟨j, j_lt⟩).trans (by simp [revoked_eq])⟩⟩

/-! ## Trust, update and calibration (R528–R551, R588) -/

/-! ### Reset and boot -/

theorem voidMem_eq (s : State) (a n : Nat) : ∃ m v f, s.voidMem a n = { s with mem := m, voids := v, free := f } := by
  unfold State.voidMem
  split
  · exact ⟨s.mem, s.voids, s.free, rfl⟩
  · exact ⟨_, _, _, rfl⟩

/-- What a reset starts from: the fuses, the flash and what lies outside. -/
def State.resetBase (s : State) (mode : Nat) (off : Bool) : State :=
  { State.reset with
    pending := s.pending, free := s.free, part := s.part, hostMem := s.hostMem, out := s.out, otpRevoke := s.otpRevoke,
    otpSvn := s.otpSvn, otpUcal := s.otpUcal, devLock := s.devLock, flash := s.flash, boot := ⟨mode, false, [], off⟩ }

theorem afterReset_eq (s : State) (mode : Nat) (off : Bool) : s.afterReset mode off =
    ((((((s.resetBase mode off).voidMem 0 0x10000000).voidMem 0x100000000 (reachable s.part)).emit .pin 0 [0]).emit
      .rails 0 [0]).trustSync) := rfl

/-- What a reset keeps and what it clears. -/
theorem afterReset_keeps_fuses (s : State) (mode : Nat) (off : Bool) : (s.afterReset mode off).flash = s.flash ∧
    (s.afterReset mode off).otpRevoke = s.otpRevoke ∧ (s.afterReset mode off).otpSvn = s.otpSvn ∧
    (s.afterReset mode off).otpUcal = s.otpUcal ∧ (s.afterReset mode off).devLock = s.devLock ∧
    (s.afterReset mode off).images = [] ∧ (s.afterReset mode off).claims = [] := by
  obtain ⟨m, v, f, first⟩ := voidMem_eq (s.resetBase mode off) 0 0x10000000
  obtain ⟨m', v', f', second⟩ := voidMem_eq ((s.resetBase mode off).voidMem 0 0x10000000) 0x100000000 (reachable s.part)
  rw [afterReset_eq, second, first]
  exact ⟨rfl, rfl, rfl, rfl, rfl, rfl, rfl⟩

section
variable {s : State} {fails : List Nat} {us : Nat} {ddr : Bool}

theorem runBoot_reserved (otp : Bool) (reserved : s.boot.mode = 3) : s.runBoot otp ddr fails us = s.bootStatus false 1 0xFF 0x0F :=
  if_pos reserved

theorem runBoot_otp (known : s.boot.mode ≠ 3) : s.runBoot false ddr fails us = s.fresh.2.bootStatus false 2 0xFF s.fresh.1.toNat :=
  (if_neg known).trans (if_pos rfl)

theorem exec_powerOnReset {m1 m2 : Nat} (first : m1 < 4) (second : m2 < 4) (otp : Bool) : exec (.powerOnReset m1 m2 otp ddr fails us) s =
    .next (let t := (s.afterReset m2 false).wr uDevctl 0x294 (w32 (m1 * 4 + m2))
      if m1 = m2 then t.runBoot otp ddr fails us else t.bootStatus false 1 0xFF 0x0E) := by
  have resets : exec (.powerOnReset m1 m2 otp ddr fails us) s =
    .next (let t := (s.afterReset (m2 % 4) false).wr uDevctl 0x294 (w32 (m1 % 4 * 4 + m2 % 4))
      if m1 % 4 = m2 % 4 then t.runBoot otp ddr fails us else t.bootStatus false 1 0xFF 0x0E) := rfl
  rw [resets, Nat.mod_eq_of_lt first, Nat.mod_eq_of_lt second]

end

/-! ### Calls -/

section
variable {s : State} {ini : Nat} {args : List Word}

theorem callConsent_own (own : ini = 0x180) : callConsent ini args s =
    if s.claimed uTrust then s.ret CLAIMED else { s.ret OK with consent := some (argBytes args 0 8) } := if_neg (by simp [own])

/-- The calls that change trust state, and refuse another's claim at once. -/
def trustCalls (ini : Nat) (args : List Word) (s : State) : List State :=
  [callRaiseSvn ini args s, callRevoke ini args s, callSetKeys ini args s, callApplyCal ini args s, callCommitSet ini s]

theorem trustCalls_guarded {t : State} (named : t ∈ trustCalls ini args s) :
    ∃ u, t = if !trustCaller ini then s.ret DENIED else if s.claimed uTrust then s.ret CLAIMED else u := by
  simp only [trustCalls, List.mem_cons, List.not_mem_nil, or_false] at named
  rcases named with rfl | rfl | rfl | rfl | rfl
  · exact ⟨_, rfl⟩
  · exact ⟨_, rfl⟩
  · exact ⟨_, rfl⟩
  · exact ⟨_, rfl⟩
  · exact ⟨_, rfl⟩

theorem trustCalls_denied {t : State} (foreign : trustCaller ini = false) (named : t ∈ trustCalls ini args s) : t = s.ret DENIED := by
  obtain ⟨u, rfl⟩ := trustCalls_guarded named
  exact if_pos (by simp [foreign])

theorem trustCalls_claimed {t : State} (caller : trustCaller ini = true) (claimed : s.claimed uTrust = true)
    (named : t ∈ trustCalls ini args s) : t = s.ret CLAIMED := by
  obtain ⟨u, rfl⟩ := trustCalls_guarded named
  exact (if_neg (by simp [caller])).trans (if_pos claimed)

theorem callUpdate_denied (foreign : trustCaller ini = false) : callUpdate ini args s = s.ret DENIED := if_pos (by simp [foreign])

section
variable (caller : trustCaller ini = true) (free : s.claimed uTrust = false)
include caller free

/-- Images that are catalogued or run bar a version above their own. -/
theorem callRaiseSvn_eq (least : 1 ≤ arg args 0) (most : arg args 0 ≤ 7) : callRaiseSvn ini args s =
    if 64 < arg args 1 then s.ret OTP_SET
    else if arg args 1 ≤ s.svn (arg args 0) || (s.liveImages.any fun d => imgKind d = arg args 0 && imgSvn d < arg args 1) ||
        (arg args 0 = 7 && !s.calBytes.isEmpty && imgN s.calBytes 0xC 4 < arg args 1) then s.ret ROLLBACK
    else ({ s.ret OK with otpSvn := setNth s.otpSvn (arg args 0 - 1) (arg args 1) } : State).trustSync := by
  have sound : ¬((arg args 0 = 0 || 7 < arg args 0) = true) := by
    simp only [Bool.or_eq_true, decide_eq_true_eq]
    omega
  exact (if_neg (by simp [caller])).trans ((if_neg (Bool.eq_false_iff.mp free)).trans (if_neg sound))

theorem callRaiseSvn_raises (least : 1 ≤ arg args 0) (most : arg args 0 ≤ 7) (small : arg args 1 ≤ 64)
    (higher : s.svn (arg args 0) < arg args 1) (live : ∀ d ∈ s.liveImages, imgKind d = arg args 0 → arg args 1 ≤ imgSvn d)
    (cal : arg args 0 ≠ 7 ∨ s.calBytes = []) : callRaiseSvn ini args s =
      ({ s.ret OK with otpSvn := setNth s.otpSvn (arg args 0 - 1) (arg args 1) } : State).trustSync := by
  rw [callRaiseSvn_eq caller free least most, if_neg (Nat.not_lt.mpr small), if_neg]
  simp only [Bool.or_eq_true, decide_eq_true_eq, List.any_eq_true, Bool.and_eq_true, not_or, not_exists, not_and, Nat.not_lt, Nat.not_le]
  refine ⟨⟨higher, live⟩, ?_⟩
  rintro ⟨seven, set⟩
  rcases cal with other | empty
  · exact absurd seven other
  · simp [empty] at set

theorem callRaiseSvn_rollback (least : 1 ≤ arg args 0) (most : arg args 0 ≤ 7) (small : arg args 1 ≤ 64)
    (barred : arg args 1 ≤ s.svn (arg args 0) ∨ ∃ d ∈ s.liveImages, imgKind d = arg args 0 ∧ imgSvn d < arg args 1) :
    callRaiseSvn ini args s = s.ret ROLLBACK := by
  rw [callRaiseSvn_eq caller free least most, if_neg (Nat.not_lt.mpr small), if_pos]
  simp only [Bool.or_eq_true, decide_eq_true_eq, List.any_eq_true, Bool.and_eq_true]
  exact .inl barred

theorem callSetKeys_eq : callSetKeys ini args s =
    if s.otpUcal.isSome then s.ret OTP_SET
    else ({ s.ret OK with otpUcal := some (sha3 (argBytes args 0 496)) } : State).trustSync :=
  (if_neg (by simp [caller])).trans (if_neg (Bool.eq_false_iff.mp free))

theorem callApplyCal_noKey (unset : s.otpUcal = none) : callApplyCal ini args s = s.ret UCAL_NO_KEY :=
  (if_neg (by simp [caller])).trans ((if_neg (Bool.eq_false_iff.mp free)).trans (if_pos (by simp [unset])))

theorem callApplyCal_reads (set : s.otpUcal ≠ none) (short : arg args 2 ≤ 0x10000) {t : State} {d : List Byte}
    (reads : s.callRead ini (argAddr args 0) (pagesFor (arg args 2)) (arg args 2) = (t, .ok, d)) {st c : Nat}
    (verified : t.calVerify d = (st, c)) : callApplyCal ini args s =
      if st != OK then t.ret st (if st = SIG_FAIL || st = RANGE then [w32 c] else [])
      else if arg args 3 % 2 = 0 then (t.calAccept d).ret OK
      else
        let f := (t.calAccept d).flashFails
        let u := if f.2 then f.1 else f.1.flashWrite (0x20000 + f.1.olderCal * 0x10000) d
        (u.retPending 0x0C0C 0).finish 0x0C0C 0 (if f.2 then FLASH_ERROR else OK) := by
  rw [callApplyCal, if_neg (by simp [caller]), if_neg (Bool.eq_false_iff.mp free), if_neg (by simp [set]),
    if_neg (Nat.not_lt.mpr short), reads]
  refine (if_neg (by decide)).trans ?_
  rw [verified]

/-! ### Updates -/

section
variable (idle : s.upd = none) {u : Nat} (named : kindUnit (arg args 0) (arg args 1) = some u) (changeable : s.Changeable u)
include idle named changeable

theorem callUpdate_checks {t v : State} {d : List Byte} {st c : Nat}
    (fetched : s.fetchImage ini (argAddr args 2) (arg args 4) = (t, OK, [], d)) (checked : t.check d = (v, st, c)) (bad : st ≠ OK) :
    callUpdate ini args s = v.retVerify st c := by
  obtain ⟨there, unclaimed⟩ := changeable
  rw [callUpdate, if_neg (by simp [caller]), if_neg (by simp [idle]), named]
  simp only [there, unclaimed, free, fetched, checked]
  simp [bad]

/-- The state in which an update of a processor that is out starts. -/
def State.updOut (s : State) (u : Nat) : State :=
  (if unitClass u = some .wp then s.setFlag uWarden 0x200 26 false else s).updHandOver u

theorem callUpdate_starts {t v : State} {d : List Byte} {c : Nat}
    (fetched : s.fetchImage ini (argAddr args 2) (arg args 4) = (t, OK, [], d)) (checked : t.check d = (v, OK, c))
    (kind : imgKind d = arg args 0) (fine : v.updRefuse u d = (OK, 0)) (room : (List.range 16).all v.taskOpen = false)
    (out : v.ustate u = 2) : callUpdate ini args s =
      ((((v.updOut u).updGo ⟨u, d, arg args 5 % 2 = 1, 3, v.clientOf ini, none, 0⟩ 3).trustSync).retPending 0x0C03 u).updStep := by
  obtain ⟨there, unclaimed⟩ := changeable
  rw [callUpdate, if_neg (by simp [caller]), if_neg (by simp [idle]), named]
  simp only [there, unclaimed, free, fetched, checked, kind, fine, room, out, Bool.not_true, Bool.or_self, bne_self_eq_false,
    Bool.false_eq_true, if_false, if_true]
  rfl

end

end

theorem callUpdate_busy (caller : trustCaller ini = true) (busy : s.upd ≠ none) : callUpdate ini args s = s.ret UPDATE_BUSY :=
  (if_neg (by simp [caller])).trans (if_pos (Option.isSome_iff_ne_none.mpr busy))

/-! ### Images, quotes, sets -/

theorem callVerifyImage_unread {t : State} {st : Nat} {ws : List Word} {d : List Byte}
    (fetched : s.fetchImage ini (argAddr args 0) (arg args 2) = (t, st, ws, d)) (bad : st ≠ OK) : callVerifyImage ini args s = t.ret st ws := by
  rw [callVerifyImage, fetched]
  exact if_pos (by simpa using bad)

theorem callVerifyImage_checks {t v : State} {r c : Nat} {ws : List Word} {d : List Byte}
    (fetched : s.fetchImage ini (argAddr args 0) (arg args 2) = (t, OK, ws, d)) (checked : t.check d = (v, r, c)) :
    callVerifyImage ini args s = v.retVerify r c := by
  rw [callVerifyImage, fetched]
  refine (if_neg (by decide)).trans ?_
  rw [checked]

theorem callQuote_eq {t : State} {q : List Byte} (quotes : s.quote (argBytes args 0 8) = (t, q)) : callQuote ini args s =
    if (t.toBuffer ini q).call.status = RANGE then t.toBuffer ini q
    else ((t.toBuffer ini q).retPending 0x0C09 0 (if t.callCtx.isNone then (t.toBuffer ini q).call.words else [])).finish 0x0C09 0
      (t.toBuffer ini q).call.status := by
  rw [callQuote, quotes]

/-- A running image is committed unless the catalogue holds it. -/
def commitOne (a : State × Bool) (e : Nat × List Byte) : State × Bool :=
  let (k, i) := unitKind e.1
  let held := match a.1.catEntry k i with | some (_, x) => a.1.catImage x == e.2 | none => false
  if held then a
  else
    let (s, ok) := a.1.flashCommit e.1 e.2
    (s, a.2 || !ok)

theorem callCommitSet_eq {r : State × Bool} (caller : trustCaller ini = true) (free : s.claimed uTrust = false)
    (commits : (s.images.filter fun e => s.ustate e.1 ≤ 1).foldl commitOne (s, false) = r) : callCommitSet ini s =
      (r.1.retPending 0x0C0F 0).finish 0x0C0F 0 (if r.2 then FLASH_ERROR else OK) := by
  rw [callCommitSet, if_neg (by simp [caller]), if_neg (Bool.eq_false_iff.mp free)]
  extract_lets run
  rw [List.foldl_ext _ commitOne (s, false) (l := run) fun a e _ => ?step, show run.foldl commitOne (s, false) = r from commits]
  case step =>
    unfold commitOne
    cases unitKind e.1
    dsimp only <;> cases a.1.catEntry _ _ <;> rfl

/-! ### Booting over SDIO -/

theorem callBootImage_refused (other : s.boot.sdio = false) : callBootImage ini args s = s.fresh.2.ret REFUSED [s.fresh.1] :=
  if_pos (by simp [other])

theorem stagingArea {args : List Word} (least : 0x100000000 ≤ argAddr args 0) (most : argAddr args 0 + arg args 2 ≤ 0x102000000) :
    ¬((argAddr args 0 < 0x100000000 || 0x102000000 < argAddr args 0 + arg args 2) = true) := by
  simp only [Bool.or_eq_true, decide_eq_true_eq]
  omega

section
variable (sdio : s.boot.sdio = true)
include sdio

theorem callBootImage_claimed (claimed : s.claimed uTrust = true) : callBootImage ini args s = s.ret CLAIMED :=
  (if_neg (by simp [sdio])).trans (if_pos claimed)

section
variable (free : s.claimed uTrust = false)
include free

theorem callBootImage_absent (none_ : arg args 2 = 0) (later : s.boot.left.contains (uMP 0) = false) : callBootImage ini args s =
    (({ s with boot := { s.boot with left := s.boot.left.drop 1 } } : State).ret OK).bootMaybeDone := by
  rw [callBootImage, if_neg (by simp [sdio]), if_neg (Bool.eq_false_iff.mp free), if_pos none_, if_neg (Bool.eq_false_iff.mp later)]

section
variable (some_ : 1 ≤ arg args 2) (least : 0x100000000 ≤ argAddr args 0) (most : argAddr args 0 + arg args 2 ≤ 0x102000000)
  {t v : State} {d : List Byte} {c : Nat} (fetched : s.fetchImage ini (argAddr args 0) (arg args 2) = (t, OK, [], d)) (checked : t.check d = (v, OK, c))
include some_ least most fetched checked

theorem callBootImage_wrong (first : s.boot.left.contains (uMP 0) = true) (other : imgKind d ≠ 1) : callBootImage ini args s = v.ret WRONG_IMAGE := by
  rw [callBootImage, if_neg (by simp [sdio]), if_neg (Bool.eq_false_iff.mp free), if_neg (by omega), if_neg (stagingArea least most), fetched]
  refine (if_neg (by decide)).trans ?_
  rw [checked]
  refine (if_neg (by decide)).trans ?_
  rw [first, if_pos (by simp [other])]

theorem callBootImage_loads (mp : imgKind d = 1) (target : v.bootTarget 1 = some (uMP 0)) : callBootImage ini args s =
    (let w := v.setImage (uMP 0) d
    let x : State := { w with boot := { w.boot with left := w.boot.left.filter (· != uMP 0) } }
    ((x.setState (uMP 0) 0).ret OK).bootMaybeDone) := by
  rw [callBootImage, if_neg (by simp [sdio]), if_neg (Bool.eq_false_iff.mp free), if_neg (by omega), if_neg (stagingArea least most), fetched]
  refine (if_neg (by decide)).trans ?_
  rw [checked]
  refine (if_neg (by decide)).trans ?_
  rw [if_neg (by simp [mp]), mp, target]
  simp only [if_true]

end

end

end

end

/-- Settles O53: an equation for each way in and each call. -/
theorem trustCommands : Obligations.TrustCommands := by
  unfold Obligations.TrustCommands
  refine ⟨fun m1 m2 us otp ddr fails s first second => ⟨fun agree => ?_, fun differ => ?_,
      fun agree => congrArg Host.Outcome.next (if_pos agree), rfl⟩,
    afterReset_keeps_fuses, fun s fails us otp ddr => ⟨runBoot_reserved otp, fun known => ⟨_, runBoot_otp known⟩⟩, fun _ => rfl,
    fun ini args s => ⟨fun foreign => congrArg Host.Outcome.next (if_pos (by simpa using foreign)),
      fun own => congrArg Host.Outcome.next (callConsent_own own), fun foreign => ?_, fun caller claimed => ?_, fun caller free => ?_,
      fun t st ws d fetched => ⟨fun bad => congrArg Host.Outcome.next (callVerifyImage_unread fetched bad), ?_⟩,
      fun t q quotes => ⟨fun range => congrArg Host.Outcome.next ((callQuote_eq quotes).trans (if_pos range)),
        fun fits => congrArg Host.Outcome.next ((callQuote_eq quotes).trans (if_neg fits))⟩,
      fun other => Gives.of (congrArg Host.Outcome.next (callBootImage_refused other)) rfl ⟨_, rfl⟩,
      fun sdio claimed => congrArg Host.Outcome.next (callBootImage_claimed sdio claimed),
      fun sdio free none_ later => congrArg Host.Outcome.next (callBootImage_absent sdio free none_ later),
      fun sdio free some_ least most first t v d c fetched checked =>
        ⟨fun other => congrArg Host.Outcome.next (callBootImage_wrong sdio free some_ least most fetched checked first other),
          fun mp target => congrArg Host.Outcome.next (callBootImage_loads sdio free some_ least most fetched checked mp target)⟩⟩⟩
  · exact (exec_powerOnReset first second otp).trans (congrArg Host.Outcome.next (if_pos agree))
  · exact (exec_powerOnReset first second otp).trans (congrArg Host.Outcome.next (if_neg differ))
  · exact ⟨congrArg Host.Outcome.next (callUpdate_denied foreign),
      congrArg Host.Outcome.next (trustCalls_denied (args := args) foreign (by simp [trustCalls])),
      congrArg Host.Outcome.next (trustCalls_denied (args := args) foreign (by simp [trustCalls])),
      congrArg Host.Outcome.next (trustCalls_denied (args := args) foreign (by simp [trustCalls])),
      congrArg Host.Outcome.next (trustCalls_denied (args := args) foreign (by simp [trustCalls])),
      congrArg Host.Outcome.next (trustCalls_denied (args := args) foreign (by simp [trustCalls]))⟩
  · exact ⟨congrArg Host.Outcome.next (trustCalls_claimed (args := args) caller claimed (by simp [trustCalls])),
      congrArg Host.Outcome.next (trustCalls_claimed (args := args) caller claimed (by simp [trustCalls])),
      congrArg Host.Outcome.next (trustCalls_claimed (args := args) caller claimed (by simp [trustCalls])),
      congrArg Host.Outcome.next (trustCalls_claimed (args := args) caller claimed (by simp [trustCalls])),
      congrArg Host.Outcome.next (trustCalls_claimed (args := args) caller claimed (by simp [trustCalls]))⟩
  · refine ⟨fun least most small higher live cal => congrArg Host.Outcome.next (callRaiseSvn_raises caller free least most small higher live cal),
      fun least most past => congrArg Host.Outcome.next ((callRaiseSvn_eq caller free least most).trans (if_pos past)),
      fun least most small barred => congrArg Host.Outcome.next (callRaiseSvn_rollback caller free least most small barred),
      fun unset => congrArg Host.Outcome.next ((callSetKeys_eq caller free).trans (if_neg (by simp [unset]))),
      fun set => congrArg Host.Outcome.next ((callSetKeys_eq caller free).trans (if_pos (Option.isSome_iff_ne_none.mpr set))),
      fun unset => congrArg Host.Outcome.next (callApplyCal_noKey caller free unset), fun set short t d reads => ⟨fun st c bad verified => ?_,
        fun c verified plain => ?_⟩, fun busy => congrArg Host.Outcome.next (callUpdate_busy caller busy),
      fun idle u named changeable t v d fetched => ⟨fun st c bad checked =>
          congrArg Host.Outcome.next (callUpdate_checks caller free idle named changeable fetched checked bad),
        fun c checked kind fine room out =>
          congrArg Host.Outcome.next (callUpdate_starts caller free idle named changeable fetched checked kind fine room out)⟩,
      ?_⟩
    · refine congrArg Host.Outcome.next ((callApplyCal_reads caller free set short reads verified).trans ((if_pos (by simpa using bad)).trans ?_))
      simp only [Bool.or_eq_true, decide_eq_true_eq]
    · exact congrArg Host.Outcome.next ((callApplyCal_reads caller free set short reads verified).trans ((if_neg (by decide)).trans (if_pos plain)))
    · intro r
      have folds : r = (s.images.filter fun e => s.ustate e.1 ≤ 1).foldl commitOne (s, false) :=
        List.foldl_ext _ _ _ fun a e _ => by
          unfold commitOne
          cases unitKind e.1
          dsimp only <;> cases a.1.catEntry _ _ <;> cases a.1.flashCommit e.1 e.2 <;> rfl
      exact congrArg Host.Outcome.next (callCommitSet_eq caller free folds.symm)
  · rintro rfl v r c checked
    exact congrArg Host.Outcome.next (callVerifyImage_checks fetched checked)

end Sys2Proof.Machine

namespace Sys2Proof.Machine

/-! ## Faults, watchdogs and the environment (R555, R556, R560–R563, R566, R567, R569, R571–R576, R589) -/

/-! ### Detection -/

theorem code_ne_zero {code : Nat} (known : faultCodes.contains code = true) : code ≠ 0 := by
  rintro rfl
  exact absurd known (by decide)

/-- The register of a unit that counts a memory error of its kind. -/
def State.errorCounted (s : State) (u code a : Nat) : State :=
  if code = fSTAGE_UE && isTile u then s.countF u 0x118 15 0 1
  else if code = fVE_RF_UE && unitClass u = some .ve then s.countF u 0x124 15 0 1
  else if code = fLPDDR_UE then s.count uFault 0x13C 1
  else if code = fPOLDER_UE then s.countF (uBG (s.groupOf (bankOf a))) 0x138 15 0 1 else s

/-- Only codes of class H count a memory error. -/
theorem errorCounted_of_class {s : State} {u code a : Nat} (other : faultClass code ≠ 2) : s.errorCounted u code a = s := by
  have stage : code ≠ fSTAGE_UE := fun same => other (same ▸ rfl)
  have regfile : code ≠ fVE_RF_UE := fun same => other (same ▸ rfl)
  have lpddr : code ≠ fLPDDR_UE := fun same => other (same ▸ rfl)
  have polder : code ≠ fPOLDER_UE := fun same => other (same ▸ rfl)
  simp [State.errorCounted, stage, regfile, lpddr, polder]

/-- What a fault of a code that a unit reports leads to, once it has been counted. -/
def State.faultReported (s : State) (u code a d0 d1 : Nat) (x : Option Ctx) : State :=
  match x.bind s.run with
  | some r => if faultClass code = 2 || faultClass code = 3 then s.commandFault r u code a d0 d1 else s.unitFaultSeen u code a d0 d1
  | none => s.unitFaultSeen u code a d0 d1

section
variable {s : State} {u code a d0 d1 : Nat} {x : Option Ctx} (there : s.exists? u = true)
include there

theorem detect_corrected {t : State} {n : Nat} (meets : s.injected u 0 = (t, n)) :
    s.detect u 0 a d0 d1 x = (if n = 0 then (s.injected u 2).1 else t).corrected u 1 := by
  rw [State.detect, if_neg (by simp [there]), if_pos rfl, meets]
  cases n <;> rfl

theorem detect_unknown (error : code ≠ 0) (unknown : faultCodes.contains code = false) : s.detect u code a d0 d1 x = s := by
  rw [State.detect, if_neg (by simp [there]), if_neg error, if_pos (by rw [unknown]; rfl)]

section
variable (known : faultCodes.contains code = true)
include known

theorem detect_known {t : State} {inj : Nat}
    (meets : (if faultClass code = 2 || code = fPROC_FAULT then s.injected u 1 else (s, 0)) = (t, inj)) : s.detect u code a d0 d1 x =
      ((if faultClass code = 2 && (a != 0 || code = fPOLDER_UE) then t.poisonRow a else t).errorCounted u code a).faultReported
        u code a d0 (d1 % 2 ^ 31 + inj) x := by
  rw [State.detect, if_neg (by simp [there]), if_neg (code_ne_zero known), if_neg (by rw [known]; decide), meets]
  rfl

theorem detect_memory (small : d1 < 2 ^ 31) (class_ : faultClass code = 2) (meets : s.injected u 1 = (s, 0)) : s.detect u code a d0 d1 x =
    ((if a ≠ 0 ∨ code = fPOLDER_UE then s.poisonRow a else s).errorCounted u code a).faultReported u code a d0 d1 x := by
  rw [detect_known there known ((if_pos (by simp [class_])).trans meets), Nat.mod_eq_of_lt small, Nat.add_zero]
  simp only [class_, decide_true, Bool.true_and, Bool.or_eq_true, bne_iff_ne, decide_eq_true_eq]

theorem detect_other (small : d1 < 2 ^ 31) (class_ : faultClass code ≠ 2) (proc : code ≠ fPROC_FAULT) : s.detect u code a d0 d1 x =
    s.faultReported u code a d0 d1 x := by
  rw [detect_known there known (if_neg (by simp [class_, proc])), Nat.mod_eq_of_lt small, Nat.add_zero, if_neg (by simp [class_]),
    errorCounted_of_class class_]

end

end

theorem faultReported_unit {s : State} {x : Option Ctx} (idle : x.bind s.run = none) (u code a d0 d1 : Nat) :
    s.faultReported u code a d0 d1 x = s.unitFaultSeen u code a d0 d1 := by
  rw [State.faultReported, idle]

theorem faultReported_command {s : State} {x : Option Ctx} {r : CtxRun} (runs : x.bind s.run = some r) (u code a d0 d1 : Nat) :
    s.faultReported u code a d0 d1 x = if faultClass code = 2 || faultClass code = 3 then s.commandFault r u code a d0 d1
      else s.unitFaultSeen u code a d0 d1 := by
  rw [State.faultReported, runs]

section
variable {s : State} {u code a d0 d1 : Nat}

theorem unitFaultSeen_records (proc : code ≠ fPROC_FAULT) (seq : code ≠ fSEQ_UE) (refclk : code ≠ fREFCLK) :
    s.unitFaultSeen u code a d0 d1 = s.recordFault code u 0x4A noQueue 0 a d0 d1 (if finalCode code then oNone else oPending) := by
  simp [State.unitFaultSeen, proc, seq, refclk]

/-- The first meeting of a command's fault has a record of its own. -/
theorem commandFault_first {r : CtxRun} (runs : r.ended = false)
    (first : ∀ y, s.slot r.queue = some y → ∀ n c v, y.retried = some (n, c, v) → c ≠ code ∨ v ≠ u) :
    s.commandFault r u code a d0 d1 =
      (let t := s.recordFault code u (ctxIni r.ctx) r.queue (eSeq r.entry) a d0 d1 (if finalCode code then oNone else oPending)
      (t.updRun r.ctx fun y => { y with faultUnit := some u, faultRec := some (t.recordOf code u a) }).failRun r.ctx code r.pos) := by
  have new : (match s.slot r.queue with
      | some y => (match y.retried with | some (_, c, v) => c = code && v = u | none => false)
      | none => false) = false := by
    cases slot : s.slot r.queue with
    | none => rfl
    | some y =>
      cases retried : y.retried with
      | none => simp only [retried]
      | some e =>
        obtain ⟨n, c, v⟩ := e
        rcases first y slot n c v retried with other | other
        · simp [retried, other]
        · simp [retried, other]
  rw [State.commandFault, if_neg (Bool.eq_false_iff.mp runs)]
  extract_lets same
  rw [show same = false from new]
  rfl

end

/-! ### Watchdogs, takeovers, the environment -/

section
variable {s : State}

theorem procBite_out {u : Nat} (out : s.ustate u = 2) : s.procBite u = s := if_pos out

theorem procBite_bites {u : Nat} {t : State} {inj : Nat} (serves : s.ustate u ≠ 2)
    (class_ : unitClass u = some .mp ∨ unitClass u = some .sp ∨ unitClass u = some .cs ∨ unitClass u = some .px)
    (meets : s.injected u 3 = (t, inj)) :
    s.procBite u = (t.recordFault fPROC_WATCHDOG u 0x4A noQueue 0 0 0 inj oNone).forceOut u := by
  rcases class_ with mp | sp | cs | px
  · simp only [State.procBite, serves, if_false, mp, meets]
  · simp only [State.procBite, serves, if_false, sp, meets]
  · simp only [State.procBite, serves, if_false, cs, meets]
  · simp only [State.procBite, serves, if_false, px, meets]

theorem mpTakeover_takes (lost : s.ustate (uMP s.mpActive) ≠ 0) (standby : s.ustate (uMP (1 - s.mpActive)) = 0) :
    s.mpTakeover = { s with mpActive := 1 - s.mpActive } := if_pos (by simp [lost, standby])

theorem mpTakeover_not (none_ : s.ustate (uMP s.mpActive) = 0 ∨ s.ustate (uMP (1 - s.mpActive)) ≠ 0) : s.mpTakeover = s := by
  refine if_neg ?_
  simp only [Bool.and_eq_true, bne_iff_ne, decide_eq_true_eq]
  exact fun both => none_.elim both.1 (absurd both.2)

theorem tempSample_some {l : List Int} (some_ : l ≠ []) : s.tempSample l =
    (let b : State := ({ s with temps := l.take 24 } : State).calApply fun k => k / 65536 = 0 && k % 65536 / 4096 = 1
    let t := b.wr uFault 0x130 (w32 ((hottest l).1 * 2 ^ 20 + ((hottest l).2 % 65536).toNat))
    let u := if newlyAt (junction t.part) s.temps l then (t.recordFault fTEMP_WARN uFault 0x4A noQueue 0 0 0 0 oNone).pwrAlarm else t
    if newlyAt (junction u.part + 160) s.temps l then (u.recordFault fTEMP_TRIP uFault 0x4A noQueue 0 0 0 0 oNone).wdCmdWrite 0x4A 2 else u) := by
  rw [State.tempSample, if_neg (by simp [some_])]
  rfl

theorem railOut_back {rail : Nat} (named : rail ≤ 6) : s.railOut rail true = s.setFlag uFault 0x134 rail false :=
  (if_neg (Nat.not_lt.mpr named)).trans (if_pos rfl)

theorem railOut_out {rail : Nat} (named : rail ≤ 6) : s.railOut rail false = (s.setFlag uFault 0x134 rail true).railFault rail :=
  (if_neg (Nat.not_lt.mpr named)).trans (if_neg Bool.false_ne_true)

/-- RAIL has been recorded. -/
def State.railRecorded (s : State) : State := s.recordFault fRAIL uPwr 0x4A noQueue 0 0 0 0 oNone

theorem railFault_safe {rail : Nat} (core : rail ≤ 1) (still : s.railRecorded.pwr.step = none) (state : s.railRecorded.pwrState ≤ 3) :
    s.railFault rail = s.railRecorded.wdCmdWrite 0x4A 2 := by
  rw [State.railRecorded] at *
  exact if_pos (by simp [core, still, state])

theorem railFault_records {rail : Nat} (calm : 2 ≤ rail ∨ s.railRecorded.pwr.step ≠ none ∨ 4 ≤ s.railRecorded.pwrState) :
    s.railFault rail = s.railRecorded := by
  refine if_neg ?_
  simp only [Bool.and_eq_true, decide_eq_true_eq, Option.isNone_iff_eq_none]
  rintro ⟨⟨core, still⟩, state⟩
  rcases calm with other | changing | moving
  · omega
  · exact changing still
  · exact absurd state (Nat.not_le.mpr moving)

theorem lpScrub_there {m : Nat} (lt : m < 24) (there : s.exists? (uMCH m) = true) (ce : Nat) (ues : List Nat) : s.lpScrub m ce ues =
    ues.foldl (fun (s : State) a => (s.count uFault 0x13C 1).recordFault fLPDDR_UE (uMCH m) 0x4B noQueue 0 a 0 0 oNone)
      (if ce = 0 then s else s.corrected (uMCH m) ce) := by
  rw [State.lpScrub, Nat.mod_eq_of_lt lt]
  exact if_neg (by simp [there])

/-! ### Calls of the fault manager -/

section
variable {ini : Nat} {args : List Word}

theorem callFaultOptions_stores (retry : arg args 0 ≤ 1) (least : 1 ≤ arg args 1) (most : arg args 1 ≤ 255) (client : arg args 2 ≤ 4095)
    (free : s.claimed uFault = false) : callFaultOptions args s =
      ((s.wr uFault 0x104 (w32 (arg args 0 * 2 ^ 31 + arg args 1 * 2 ^ 8))).wr uFault 0x108 (nth args 2 0)).ret OK := by
  have sound : ¬((1 < arg args 0 || arg args 1 = 0 || 255 < arg args 1 || 4095 < arg args 2) = true) := by
    simp only [Bool.or_eq_true, decide_eq_true_eq]
    omega
  exact (if_neg sound).trans (if_neg (Bool.eq_false_iff.mp free))

section
variable (there : s.exists? (arg args 0) = true) (kind : arg args 1 ≤ 3) (place : arg args 2 ≤ 7)
include there kind place

theorem callInject_eq : callInject ini args s =
    if (s.wdState != 0 && s.wdState != 4) || (ini != 0x100 && ini != 0x180) then s.ret INJECT_REFUSED
    else { s.ret OK with inject := s.inject ++ [(arg args 0, arg args 1, arg args 2)] } := by
  have sound : ¬((3 < arg args 1 || 7 < arg args 2) = true) := by
    simp only [Bool.or_eq_true, decide_eq_true_eq]
    omega
  exact (if_neg (by simp [there])).trans (if_neg sound)

theorem callInject_injects (state : s.wdState = 0 ∨ s.wdState = 4) (caller : ini = 0x100 ∨ ini = 0x180) : callInject ini args s =
    { s.ret OK with inject := s.inject ++ [(arg args 0, arg args 1, arg args 2)] } := by
  refine (callInject_eq there kind place).trans (if_neg ?_)
  simp only [Bool.or_eq_true, Bool.and_eq_true, bne_iff_ne]
  omega

theorem callInject_refused (wrong : (s.wdState ≠ 0 ∧ s.wdState ≠ 4) ∨ (ini ≠ 0x100 ∧ ini ≠ 0x180)) :
    callInject ini args s = s.ret INJECT_REFUSED := by
  refine (callInject_eq there kind place).trans (if_pos ?_)
  simpa only [Bool.or_eq_true, Bool.and_eq_true, bne_iff_ne] using wrong

end

end

end

/-- Settles O54: an equation for each fault, watchdog, sample and call. -/
theorem faultCommands : Obligations.FaultCommands := by
  unfold Obligations.FaultCommands
  refine ⟨fun u code a d0 d1 x s there => ⟨?_, fun error unknown => congrArg Host.Outcome.next (detect_unknown there error unknown),
      fun known class_ small meets => ?_, fun known class_ proc small => ?_⟩,
    fun u code a d0 d1 s proc seq refclk => unitFaultSeen_records proc seq refclk,
    fun r u code a d0 d1 s runs first => commandFault_first runs first,
    fun u s class_ => ⟨fun out => congrArg Host.Outcome.next (procBite_out out),
      fun serves t inj meets => congrArg Host.Outcome.next (procBite_bites serves class_ meets)⟩,
    fun s => ⟨rfl, fun lost standby => congrArg Host.Outcome.next (mpTakeover_takes lost standby),
      fun none_ => congrArg Host.Outcome.next (mpTakeover_not none_)⟩,
    fun l s some_ => congrArg Host.Outcome.next (tempSample_some some_),
    fun rail s named => ⟨congrArg Host.Outcome.next (railOut_back named),
      fun core still state => congrArg Host.Outcome.next ((railOut_out named).trans (railFault_safe core still state)),
      fun calm => congrArg Host.Outcome.next ((railOut_out named).trans (railFault_records calm))⟩,
    fun s => ⟨fun changing => congrArg Host.Outcome.next (if_pos (Option.isSome_iff_ne_none.mpr changing)),
      fun still => congrArg Host.Outcome.next (if_neg (by simp [still]))⟩, fun _ => rfl,
    fun m ce ues s lt there => congrArg Host.Outcome.next (lpScrub_there lt there ce ues),
    fun ini args s => ⟨fun claimed => congrArg Host.Outcome.next (if_pos claimed),
      fun free => congrArg Host.Outcome.next (if_neg (Bool.eq_false_iff.mp free)),
      fun retry least most client free => congrArg Host.Outcome.next (callFaultOptions_stores retry least most client free),
      fun there kind place => ⟨fun state caller => congrArg Host.Outcome.next (callInject_injects there kind place state caller),
        fun wrong => congrArg Host.Outcome.next (callInject_refused there kind place wrong)⟩⟩⟩
  · rintro rfl
    exact ⟨fun t meets => congrArg Host.Outcome.next ((detect_corrected there meets).trans (by rw [if_neg (by decide)])),
      fun t meets => congrArg Host.Outcome.next ((detect_corrected there meets).trans (by rw [if_pos rfl]))⟩
  · intro t v
    have counted : v = t.errorCounted u code a := by simp [v, State.errorCounted]
    have reports : s.detect u code a d0 d1 x = v.faultReported u code a d0 d1 x := by
      rw [counted]
      exact detect_memory there known small class_ meets
    exact ⟨fun idle => congrArg Host.Outcome.next (reports.trans (faultReported_unit idle ..)),
      fun r runs => congrArg Host.Outcome.next (reports.trans ((faultReported_command runs ..).trans (if_pos (by simp [class_]))))⟩
  · have reports := detect_other (a := a) (d0 := d0) (x := x) there known small class_ proc
    refine ⟨fun idle => congrArg Host.Outcome.next (reports.trans (faultReported_unit idle ..)),
      fun r runs => congrArg Host.Outcome.next (reports.trans ((faultReported_command runs ..).trans ?_))⟩
    simp only [class_, decide_false, Bool.false_or, decide_eq_true_eq]

end Sys2Proof.Machine

namespace Sys2Proof.Machine

/-! ## Events of the Mill (O33) -/

/-! ### Writing a key twice -/

theorem SMap.erase_insert_same {α : Type} (k : Nat) (v : α) (l : List (Nat × α)) :
    SMap.erase k (SMap.insert k v l) = SMap.erase k l := by
  induction l with
  | nil => simp [SMap.insert, SMap.erase]
  | cons e t ih =>
    obtain ⟨k', v'⟩ := e
    unfold SMap.erase at ih ⊢
    by_cases lt : k < k'
    · simp [SMap.insert, lt]
    · simp only [SMap.insert, if_neg lt, List.filter_cons, ih]

theorem SMap.erase_erase_same {α : Type} (k : Nat) (l : List (Nat × α)) : SMap.erase k (SMap.erase k l) = SMap.erase k l := by
  simp [SMap.erase]

theorem SMap.set_set_same {α : Type} [DecidableEq α] (d : Nat → α) (k : Nat) (v w : α) (l : List (Nat × α)) :
    SMap.set d k v (SMap.set d k w l) = SMap.set d k v l := by
  have gone : SMap.erase k (SMap.set d k w l) = SMap.erase k l := by
    unfold SMap.set
    split
    · exact SMap.erase_erase_same k l
    · rw [SMap.erase_insert_same, SMap.erase_erase_same]
  rw [show SMap.set d k v (SMap.set d k w l) = if v = d k then SMap.erase k (SMap.set d k w l)
    else SMap.insert k v (SMap.erase k (SMap.set d k w l)) from rfl, gone]
  rfl

@[simp] theorem encX_setEncX_same (s : State) (i : Nat) (x : EncX) : (s.setEncX i x).encX i = x := SMap.get_set_same ..

@[simp] theorem setEncX_setEncX_same (s : State) (i : Nat) (x y : EncX) : (s.setEncX i x).setEncX i y = s.setEncX i y :=
  congrArg (fun l => ({ s with encs := l } : State)) (SMap.set_set_same ..)

@[simp] theorem encX_wr (s : State) (u o : Nat) (v : Word) (i : Nat) : (s.wr u o v).encX i = s.encX i := rfl

theorem setEncX_wr (s : State) (u o : Nat) (v : Word) (i : Nat) (x : EncX) :
    (s.setEncX i x).wr u o v = (s.wr u o v).setEncX i x := rfl

/-! ### A free core takes the next ready segment (R386) -/

/-- Of two loops one goes first, not both. -/
theorem before_asymm {s : State} {a b : Nat} (first : s.before a b = true) : s.before b a = false := by
  unfold State.before at first ⊢
  by_cases out : s.readyOut a = s.readyOut b
  · by_cases prio : s.loopPrio a = s.loopPrio b
    · simp only [out, prio, bne_self_eq_false, Bool.false_eq_true, if_false, decide_eq_true_eq] at first ⊢
      exact decide_eq_false (by omega)
    · have back : (s.loopPrio b != s.loopPrio a) = true := bne_iff_ne.mpr (Ne.symm prio)
      simp only [out, bne_self_eq_false, Bool.false_eq_true, if_false, bne_iff_ne.mpr prio, back, if_true, decide_eq_true_eq] at first ⊢
      exact decide_eq_false (by omega)
  · rw [if_pos (bne_iff_ne.mpr out)] at first
    rw [if_pos (bne_iff_ne.mpr (Ne.symm out))]
    exact Bool.eq_false_iff.mpr fun h => out (first.trans h.symm)

/-- The loop that goes before every other is the one the fold over the ready loops ends at. -/
theorem foldl_before {s : State} {l : Nat} (t : List Nat) (h : Nat) (isIn : l = h ∨ l ∈ t)
    (firstH : h ≠ l → s.before l h = true) (first : ∀ k ∈ t, k ≠ l → s.before l k = true) :
    t.foldl (fun a b => if s.before b a then b else a) h = l := by
  induction t generalizing h with
  | nil => exact (isIn.resolve_right (List.not_mem_nil)).symm
  | cons b t ih =>
    have rest : ∀ k ∈ t, k ≠ l → s.before l k = true := fun k m => first k (.tail _ m)
    rw [List.foldl_cons]
    by_cases same : h = l
    · have keep : (if s.before b h then b else h) = l := by
        by_cases eb : b = l
        · rw [eb, same, ite_self]
        · rw [same, before_asymm (first b (.head _) eb), if_neg Bool.false_ne_true]
      rw [keep]
      exact ih l (.inl rfl) (fun n => absurd rfl n) rest
    · by_cases eb : b = l
      · rw [eb, if_pos (firstH same)]
        exact ih l (.inl rfl) (fun n => absurd rfl n) rest
      · have next : (if s.before b h then b else h) = b ∨ (if s.before b h then b else h) = h := by
          split
          · exact .inl rfl
          · exact .inr rfl
        have more : l ∈ t := by
          rcases isIn with e | m
          · exact absurd e.symm same
          · exact (List.mem_cons.mp m).resolve_left (Ne.symm eb)
        refine ih _ (.inr more) (fun n => ?_) rest
        rcases next with e | e <;> rw [e]
        · exact first b (.head _) eb
        · exact firstH same

/-- The loops with a segment ready on a logical core. -/
def State.readyOn (s : State) (lc : Nat) : List Nat :=
  (s.loops.map (·.1)).filter fun l => s.loopCore l = lc && s.loopEn l && ((s.loop l).stage = 1 || (s.loop l).stage = 2)

theorem segment_free {s : State} {lc : Nat} (free : s.lcores.any (·.1 = lc) = false) (runs : s.coreRuns lc = true) :
    s.segment lc = match s.readyOn lc with
      | [] => s
      | h :: t => s.segBegin lc (t.foldl (fun a b => if s.before b a then b else a) h) :=
  if_neg (by simp only [free, runs, Bool.not_true, Bool.or_false]; decide)

theorem segment_first {s : State} {lc l : Nat} (free : s.lcores.any (·.1 = lc) = false) (runs : s.coreRuns lc = true)
    (isIn : l ∈ s.readyOn lc) (first : ∀ k ∈ s.readyOn lc, k ≠ l → s.before l k = true) : s.segment lc = s.segBegin lc l := by
  rw [segment_free free runs]
  cases e : s.readyOn lc with
  | nil => rw [e] at isIn; exact absurd isIn List.not_mem_nil
  | cons h t =>
    rw [e] at isIn first
    exact congrArg (s.segBegin lc) (foldl_before t h (List.mem_cons.mp isIn) (first h (.head _)) fun k m => first k (.tail _ m))

theorem segment_none {s : State} {lc : Nat} (free : s.lcores.any (·.1 = lc) = false) (runs : s.coreRuns lc = true)
    (none : s.readyOn lc = []) : s.segment lc = s := by
  rw [segment_free free runs, none]

theorem exec_millSegment {lc : Nat} (lt : lc < 3) (s : State) : exec (.millSegment lc) s = .next (s.segment lc) := by
  have e : exec (.millSegment lc) s = .next (s.segment (lc % 3)) := rfl
  rw [e, Nat.mod_eq_of_lt lt]

/-! ### A core that fails (R409) -/

/-- The standby takes a logical core. -/
def State.coreTaken (f : State) (p n lc late : Nat) : State :=
  let g := ((f.setFld uMill 0x204 (2 * lc + 1) (2 * lc) n).coreSync).segRerun lc
  let h : State := { g.setFlag uMill 0x200 31 true with takingOver := lc :: g.takingOver.filter (· != lc) }
  let t := (h.countF uMill 0x21C 15 0 1).wdReport 0x0C lc late
  t.millEvents (t.coreLoops lc) 0x001B lc (p + n * 2 ^ 8 + min late 65535 * 2 ^ 16)

/-- A logical core is lost. -/
def State.coreLost (f : State) (p lc : Nat) : State :=
  let t := (f.setFlag uMill 0x200 30 true).wdReport 0x0D lc 1
  let u := t.pwmSafe ((t.coreLoops lc).flatMap t.loopPwm)
  u.millEvents (u.coreLoops lc) 0x001C lc p

/-- The state once a physical core's fault is recorded and the core is forced Out. -/
def State.coreOut (s : State) (p : Nat) : State :=
  (s.recordFault fPROC_FAULT (uMC p) 0x4A noQueue 0 0 0 0 oNone).forceOut (uMC p)

/-- What a core's fault does for one of its logical cores. -/
def State.coreFaultFor (p : Nat) (spare late : Option Nat) (f : State) (lc : Nat) : State :=
  match spare with
  | some n => if n = p then f else f.coreTaken p n lc (late.getD (f.lateOn lc))
  | none => f.coreLost p lc

theorem coreFault_eq (s : State) (p : Nat) (late : Option Nat) : s.coreFault p late =
    ((List.range 3).filter fun c => s.coreOf c = p).foldl
      (State.coreFaultFor p (if s.flag uMill 0x204 8 then none else some (s.fld uMill 0x204 7 6)) late) (s.coreOut p) := by
  unfold State.coreFault
  extract_lets lcs spare f
  change lcs.foldl _ f = lcs.foldl (State.coreFaultFor p spare late) f
  clear_value spare
  refine List.foldl_ext _ _ _ fun a lc _ => ?_
  cases spare <;> rfl

theorem coreFault_taken {s : State} {p lc : Nat} (late : Option Nat) (only : ((List.range 3).filter fun c => s.coreOf c = p) = [lc])
    (spare : s.flag uMill 0x204 8 = false) (ne : s.fld uMill 0x204 7 6 ≠ p) :
    s.coreFault p late = (s.coreOut p).coreTaken p (s.fld uMill 0x204 7 6) lc (late.getD ((s.coreOut p).lateOn lc)) := by
  rw [coreFault_eq, only, spare]
  exact if_neg ne

theorem coreFault_lost {s : State} {p lc : Nat} (late : Option Nat) (only : ((List.range 3).filter fun c => s.coreOf c = p) = [lc])
    (spare : s.flag uMill 0x204 8 = true) : s.coreFault p late = (s.coreOut p).coreLost p lc := by
  rw [coreFault_eq, only, spare]
  rfl

/-- Both ways in which a core is found to fail: it faults, or one of its segments overruns. -/
theorem exec_coreFailure {core late lc : Nat} {c : Instr} {s : State} (lt : core < 4)
    (only : ((List.range 3).filter fun k => s.coreOf k = core) = [lc])
    (cause : c = .millCoreFault core late ∨
      (c = .millSegmentOverrun lc ∧ late = (s.coreOut core).lateOn lc ∧ s.lcores.any (·.1 = lc) = true)) :
    ∃ l, exec c s = .next (s.coreFault core l) ∧ l.getD ((s.coreOut core).lateOn lc) = late := by
  have isIn : lc < 3 ∧ s.coreOf lc = core := by
    have m : lc ∈ (List.range 3).filter fun k => s.coreOf k = core := by rw [only]; exact .head _
    obtain ⟨a, b⟩ := List.mem_filter.mp m
    exact ⟨List.mem_range.mp a, of_decide_eq_true b⟩
  rcases cause with rfl | ⟨rfl, rfl, busy⟩
  · refine ⟨some late, ?_, rfl⟩
    have e : exec (.millCoreFault core late) s = .next (s.coreFault (core % 4) (some late)) := rfl
    rw [e, Nat.mod_eq_of_lt lt]
  · refine ⟨none, ?_, rfl⟩
    have e : exec (.millSegmentOverrun lc) s =
      .next (if s.lcores.any (·.1 = lc % 3) then s.coreFault (s.coreOf (lc % 3)) none else s) := rfl
    rw [e, Nat.mod_eq_of_lt isIn.1, if_pos busy, isIn.2]

/-! ### Edges of a quadrature input (R398, R399) -/

theorem encSync_idle {s : State} {i : Nat} (idle : (s.encX i).wait = []) : s.encSync i = s := by
  exact if_pos (by rw [idle]; rfl)

/-- An input whose one waiting edge has persisted takes it. -/
theorem encSync_one (s : State) (i : Nat) (x : EncX) {t : Nat} {illegal up : Bool} (idle : x.wait = [])
    (ripe : t + s.encFilter i ≤ s.encClock) :
    (s.setEncX i { x with wait := [(t, illegal, up)] }).encSync i = (s.setEncX i x).encTake i illegal up (t + s.encFilter i) := by
  have clock : (s.setEncX i { x with wait := [(t, illegal, up)] }).encClock = s.encClock := rfl
  have filter : (s.setEncX i { x with wait := [(t, illegal, up)] }).encFilter i = s.encFilter i := rfl
  have back : ({ x with wait := [] } : EncX) = x := by rw [← idle]
  unfold State.encSync
  simp only [encX_setEncX_same, setEncX_setEncX_same, clock, filter, List.isEmpty_cons, List.filter_cons, List.filter_nil,
    decide_eq_true ripe, if_true, Bool.not_true, Bool.false_eq_true, if_false, List.foldl_cons, List.foldl_nil, back]

/-- An input none of whose edges has persisted keeps them all. -/
theorem encSync_unripe {s : State} {i : Nat} (unripe : ∀ e ∈ (s.encX i).wait, s.encClock < e.1 + s.encFilter i) :
    { s.encSync i with encs := s.encs } = s ∧ (s.encSync i).encX i = s.encX i := by
  have late : ∀ e ∈ (s.encX i).wait, decide (e.1 + s.encFilter i ≤ s.encClock) = false :=
    fun e m => decide_eq_false (Nat.not_le.mpr (unripe e m))
  have none : (s.encX i).wait.filter (fun e => decide (e.1 + s.encFilter i ≤ s.encClock)) = [] :=
    List.filter_eq_nil_iff.mpr fun e m => by rw [late e m]; exact Bool.false_ne_true
  have all : (s.encX i).wait.filter (fun e => !decide (e.1 + s.encFilter i ≤ s.encClock)) = (s.encX i).wait :=
    List.filter_eq_self.mpr fun e m => by rw [late e m]; rfl
  unfold State.encSync
  simp only [none, all, List.foldl_nil]
  split
  · exact ⟨rfl, rfl⟩
  · exact ⟨rfl, encX_setEncX_same ..⟩

/-- An edge takes back the last one that waits: the same kind, in the other direction. -/
def EncX.takesBack (x : EncX) (illegal up : Bool) : Bool :=
  match x.wait.getLast? with
  | some (_, il, u) => il = illegal && (illegal || u != up)
  | none => false

/-- An input's waiting edges after another one comes. -/
def EncX.withEdge (x : EncX) (clock : Nat) (illegal up : Bool) : EncX :=
  { x with wait := if x.takesBack illegal up then x.wait.dropLast else x.wait ++ [(clock, illegal, up)] }

theorem exec_encoderEdge {i : Nat} (lt : i < 32) (illegal up : Bool) {s : State} (mode : s.encMode i = 1) :
    exec (.encoderEdge i illegal up) s =
      .next ((((s.encSync i).setEncX i (((s.encSync i).encX i).withEdge (s.encSync i).encClock illegal up))).encSync i) := by
  have e : exec (.encoderEdge i illegal up) s = .next (s.encEdge (i % 32) illegal up) := rfl
  rw [e, Nat.mod_eq_of_lt lt]
  exact congrArg Host.Outcome.next (if_neg (by rw [mode]; decide))

theorem encoderEdge_unfiltered {i : Nat} (lt : i < 32) (illegal up : Bool) {s : State} (mode : s.encMode i = 1)
    (filter : s.encFilter i = 0) (idle : (s.encX i).wait = []) :
    exec (.encoderEdge i illegal up) s = .next ((s.setEncX i (s.encX i)).encTake i illegal up s.encClock) := by
  have edge : (s.encX i).withEdge s.encClock illegal up = { s.encX i with wait := [(s.encClock, illegal, up)] } := by
    unfold EncX.withEdge EncX.takesBack
    rw [idle]
    rfl
  have ripe : s.encClock + s.encFilter i = s.encClock := by rw [filter, Nat.add_zero]
  rw [exec_encoderEdge lt _ _ mode, encSync_idle idle, edge, encSync_one s i (s.encX i) idle (Nat.le_of_eq ripe), ripe]

theorem encoderEdge_filtered {i : Nat} (lt : i < 32) (illegal up : Bool) {s : State} (mode : s.encMode i = 1)
    (filter : 0 < s.encFilter i) (unripe : ∀ e ∈ (s.encX i).wait, s.encClock < e.1 + s.encFilter i) :
    Gives (.encoderEdge i illegal up) s fun t =>
      { t with encs := s.encs } = s ∧ t.encX i = (s.encX i).withEdge s.encClock illegal up := by
  obtain ⟨frame, own⟩ := encSync_unripe unripe
  let q := (s.encSync i).setEncX i (((s.encSync i).encX i).withEdge (s.encSync i).encClock illegal up)
  have onlyEncs : { q with encs := s.encs } = s := frame
  have clock : q.encClock = s.encClock := by have c := congrArg State.encClock onlyEncs; exact c
  have wait : q.encX i = (s.encX i).withEdge s.encClock illegal up := by
    have c : (s.encSync i).encClock = s.encClock := by have c := congrArg State.encClock frame; exact c
    rw [show q.encX i = ((s.encSync i).encX i).withEdge (s.encSync i).encClock illegal up from encX_setEncX_same .., own, c]
  have still : ∀ e ∈ (q.encX i).wait, q.encClock < e.1 + q.encFilter i := by
    have f : q.encFilter i = s.encFilter i := by have c := congrArg (State.encFilter · i) onlyEncs; exact c
    rw [wait, clock, f]
    intro e m
    unfold EncX.withEdge at m
    dsimp only at m
    split at m
    · exact unripe e (List.mem_of_mem_dropLast m)
    · rcases List.mem_append.mp m with m | m
      · exact unripe e m
      · rw [List.mem_singleton.mp m]
        exact Nat.lt_add_of_pos_right filter
  obtain ⟨frame', own'⟩ := encSync_unripe still
  refine ⟨_, exec_encoderEdge lt _ _ mode, ?_, own'.trans wait⟩
  have lift := congrArg (fun z : State => ({ z with encs := s.encs } : State)) frame'
  exact lift.trans onlyEncs

theorem withEdge_back {x : EncX} {e : Nat × Bool × Bool} {illegal up : Bool} (clock : Nat) (last : x.wait.getLast? = some e)
    (kind : e.2.1 = illegal) (other : illegal = true ∨ e.2.2 ≠ up) :
    x.withEdge clock illegal up = { x with wait := x.wait.dropLast } := by
  have back : x.takesBack illegal up = true := by
    unfold EncX.takesBack
    rw [last]
    simpa [kind] using other
  unfold EncX.withEdge
  rw [if_pos back]

theorem withEdge_more {x : EncX} {illegal up : Bool} (clock : Nat)
    (last : ∀ e, x.wait.getLast? = some e → e.2.1 ≠ illegal ∨ (illegal = false ∧ e.2.2 = up)) :
    x.withEdge clock illegal up = { x with wait := x.wait ++ [(clock, illegal, up)] } := by
  have more : x.takesBack illegal up = false := by
    unfold EncX.takesBack
    cases l : x.wait.getLast? with
    | none => rfl
    | some e =>
      rcases last e l with ne | ⟨rfl, rfl⟩
      · simp [ne]
      · simp
  unfold EncX.withEdge
  rw [more, if_neg Bool.false_ne_true]

theorem encTake_legal (s : State) (i : Nat) (x : EncX) (up : Bool) (t : Nat) :
    (s.setEncX i x).encTake i false up t =
      ((s.setEncX i x).wr uMill (0x1200 + 4 * i) (if up then s.encCount i + 1 else s.encCount i - 1)).setEncX i
        { x with edge0 := x.edge, edge := t } := by
  refine (if_neg Bool.false_ne_true).trans ?_
  dsimp only
  rw [encX_setEncX_same]
  rfl

/-- An encoder error's two register writes, whose values do not depend on what else the input holds. -/
theorem encError_eq (s : State) (i b : Nat) (y : EncX) :
    (s.setEncX i y).encError i b = ((s.setFlag uMill (encOff i + 12) b true).countF uMill (encOff i + 12) 15 0 1).setEncX i
      { y with bad := true } := by
  unfold State.encError State.countF State.setFlag State.setFld
  simp only [encX_setEncX_same, setEncX_wr, setEncX_setEncX_same]
  rfl

theorem encTake_illegal (s : State) (i : Nat) (up : Bool) (t : Nat) : (s.setEncX i (s.encX i)).encTake i true up t =
    ((s.setFlag uMill (encOff i + 12) 31 true).countF uMill (encOff i + 12) 15 0 1).setEncX i
      { ((s.setFlag uMill (encOff i + 12) 31 true).countF uMill (encOff i + 12) 15 0 1).encX i with bad := true } := by
  refine (if_pos rfl).trans ((encError_eq s i 31 _).trans ?_)
  rw [State.countF, State.setFlag, State.setFld, encX_wr, encX_wr]

/-- What an edge without a filter leaves when it counts. -/
theorem encoderEdge_counts {i : Nat} (lt : i < 32) (up : Bool) {s : State} (mode : s.encMode i = 1)
    (filter : s.encFilter i = 0) (idle : (s.encX i).wait = []) :
    Gives (.encoderEdge i false up) s fun t => t.encCount i = (if up then s.encCount i + 1 else s.encCount i - 1) ∧
      (∀ u o, o < 0x10000 → (u, o) ≠ (uMill, 0x1200 + 4 * i) → t.rd u o = s.rd u o) ∧
      { t with regs := s.regs, encs := s.encs } = s ∧ t.encX i = { s.encX i with edge0 := (s.encX i).edge, edge := s.encClock } := by
  refine ⟨_, encoderEdge_unfiltered lt _ _ mode filter idle, ?_⟩
  rw [encTake_legal]
  refine ⟨rd_wr_same (s.setEncX i (s.encX i)) .., fun u o small ne => ?_, rfl, encX_setEncX_same ..⟩
  exact rd_wr_ne (s.setEncX i (s.encX i)) _ _ _ _ _ (rk_ne small (by omega) ne)

theorem encoderEdge_illegal {i : Nat} (lt : i < 32) (up : Bool) {s : State} (mode : s.encMode i = 1)
    (filter : s.encFilter i = 0) (idle : (s.encX i).wait = []) :
    exec (.encoderEdge i true up) s = .next (((s.setFlag uMill (encOff i + 12) 31 true).countF uMill (encOff i + 12) 15 0 1).setEncX i
      { ((s.setFlag uMill (encOff i + 12) 31 true).countF uMill (encOff i + 12) 15 0 1).encX i with bad := true }) := by
  rw [encoderEdge_unfiltered lt _ _ mode filter idle, encTake_illegal]

/-! ### Index pulses and serial reads (R399, R401) -/

theorem exec_encoderIndex {i : Nat} (lt : i < 32) (s : State) : exec (.encoderIndex i) s = .next (s.encIndex i) := by
  have e : exec (.encoderIndex i) s = .next (s.encIndex (i % 32)) := rfl
  rw [e, Nat.mod_eq_of_lt lt]

theorem encIndex_indexed {s : State} {i : Nat} {t : State} (is : t = (s.encSync i).capture 3 i 0 0) (mode : t.encMode i = 1)
    (on : t.flag uMill (encOff i) 29 = true) (cleared : t.flag uMill (encOff i + 12) 28 = false) :
    s.encIndex i = (t.wr uMill (0x1280 + 4 * i) (t.encCount i)).setFlag uMill (encOff i + 12) 28 true := by
  subst is
  exact if_pos (by rw [mode, on, cleared]; rfl)

theorem encIndex_not {s : State} {i : Nat} {t : State} (is : t = (s.encSync i).capture 3 i 0 0)
    (not : t.encMode i ≠ 1 ∨ t.flag uMill (encOff i) 29 = false ∨ t.flag uMill (encOff i + 12) 28 = true) : s.encIndex i = t := by
  subst is
  refine if_neg fun h => ?_
  simp only [Bool.and_eq_true, decide_eq_true_eq, Bool.not_eq_true'] at h
  rcases not with n | n | n
  · exact n h.1.1
  · rw [n] at h; exact Bool.false_ne_true h.1.2
  · rw [n] at h; exact Bool.false_ne_true h.2.symm

theorem exec_serialReadDone {i : Nat} (lt : i < 32) (raw crc : Nat) (start : Bool) (s : State) :
    exec (.serialReadDone i raw crc start) s = .next (s.serialDone i raw crc start) := by
  have e : exec (.serialReadDone i raw crc start) s = .next (s.serialDone (i % 32) raw crc start) := rfl
  rw [e, Nat.mod_eq_of_lt lt]

/-- The running samples of a trigger pulse take the values of an encoder input. -/
def State.readTaken (i pulse : Nat) (e : Nat × Word × Word × Bool) (u : State) : State :=
  (u.encReaders i).foldl (fun q l =>
    if (q.loop l).stage = 0 ∨ (q.loop l).snap.pulse ≠ pulse then q
    else q.setLoop l { q.loop l with snap := (q.loop l).snap.put e }) u

/-- The CRC of a serial read is checked and is not the one received. -/
def State.crcBad (s : State) (i n r crc : Nat) : Prop := s.flag uMill (encOff i) 28 = true ∧ encCrc6 n r 0 ≠ crc % 64

theorem readTaken_eq (i pulse : Nat) (e : Nat × Word × Word × Bool) (u : State) :
    (u.encReaders i).foldl (fun s l =>
      let k := s.loop l
      if k.stage = 0 || k.snap.pulse != pulse then s else s.setLoop l { k with snap := k.snap.put e }) u = u.readTaken i pulse e := by
  refine List.foldl_ext _ _ _ fun q l _ => ?_
  refine if_congr ?_ rfl rfl
  rw [Bool.or_eq_true, decide_eq_true_eq, bne_iff_ne]

theorem serialDone_failed {s : State} {i raw crc pulse : Nat} {reads : List Nat} {start : Bool} {t : State}
    (first : (s.encX i).reads = pulse :: reads) (is : t = s.setEncX i { s.encX i with reads := reads })
    (failed : start = false ∨ s.crcBad i (s.encBits i) (raw % 2 ^ s.encBits i) crc) :
    s.serialDone i raw crc start = (t.encError i (if start then 30 else 29)).readTaken i pulse
      (i, t.encPos i (s.encX i).pos, (s.encX i).vel, true) := by
  subst is
  have bad : (!start || (s.flag uMill (encOff i) 28 && encCrc6 (s.encBits i) (raw % 2 ^ s.encBits i) 0 != crc % 64)) = true := by
    rw [Bool.or_eq_true, Bool.and_eq_true, bne_iff_ne, Bool.not_eq_true']
    exact failed
  unfold State.serialDone
  simp only [first, bad, if_true]
  exact readTaken_eq ..

theorem serialDone_good {s : State} {i raw crc pulse : Nat} {reads : List Nat} {t : State}
    (first : (s.encX i).reads = pulse :: reads) (is : t = s.setEncX i { s.encX i with reads := reads })
    (good : ¬s.crcBad i (s.encBits i) (raw % 2 ^ s.encBits i) crc) (later : t.encClock ≠ (s.encX i).posAt) :
    let p := w32 (if t.encMode i = 3 then grayDecode (s.encBits i) (raw % 2 ^ s.encBits i) else raw % 2 ^ s.encBits i)
    let v := rate400 (sext 32 (p - (s.encX i).pos).toNat) (t.encScale i) (t.encClock - (s.encX i).posAt)
    let u := (t.wr uMill (0x1200 + 4 * i) p).setEncX i
      { s.encX i with reads := reads, bad := false, pos0 := (s.encX i).pos, pos0At := (s.encX i).posAt, pos := p, posAt := t.encClock, vel := v }
    s.serialDone i raw crc true = u.readTaken i pulse (i, u.encPos i p, v, false) := by
  subst is
  have fine : (!true || (s.flag uMill (encOff i) 28 && encCrc6 (s.encBits i) (raw % 2 ^ s.encBits i) 0 != crc % 64)) = false := by
    rw [Bool.not_true, Bool.false_or, Bool.eq_false_iff, ne_eq, Bool.and_eq_true, bne_iff_ne]
    exact good
  intro p v u
  unfold State.serialDone
  simp only [first, fine, Bool.false_eq_true, if_false, if_neg later]
  exact readTaken_eq ..

/-! ### Period starts (R403) -/

/-- A channel's shadow loads at the start of its period. -/
def State.shadowLoad (q : State) (c : Nat) : State :=
  match q.pwmShadow.find? (·.1 = c) with
  | none => q
  | some (_, v) =>
    let r : State := { q.wr uMill (pwmOff c + 4) (w32 v) with pwmShadow := SMap.erase c q.pwmShadow }
    if !r.pwmDriven c || r.pwmPaired c then r
    else
      let d := r.emit .pwm c (1 :: r.pwmWave c v)
      if r.flag uMill (pwmOff c) 25 then d.emit .pwm (c + 1) (3 :: r.fld uMill (pwmOff c) 23 16 :: r.pwmWave c v) else d

/-- The load with its condition written out. -/
theorem shadowLoad_eq (q : State) (c : Nat) : q.shadowLoad c =
    match q.pwmShadow.find? (·.1 = c) with
    | none => q
    | some (_, v) =>
      let r : State := { q.wr uMill (pwmOff c + 4) (w32 v) with pwmShadow := SMap.erase c q.pwmShadow }
      let wave := [v, r.pwmPeriod c, r.fld uMill (0x1400 + 8 * r.pwmTb c) 30 30, r.fld uMill (pwmOff c) 30 30]
      let d := r.emit .pwm c (1 :: wave)
      let pairOf := c % 2 = 1 ∧ r.flag uMill (pwmOff (c - 1)) 31 = true ∧ r.flag uMill (pwmOff (c - 1)) 25 = true
      if r.pwmDriven c = false ∨ pairOf then r
      else if r.flag uMill (pwmOff c) 25 then d.emit .pwm (c + 1) (3 :: r.fld uMill (pwmOff c) 23 16 :: wave) else d := by
  unfold State.shadowLoad
  cases q.pwmShadow.find? (·.1 = c) with
  | none => rfl
  | some e =>
    refine if_congr ?_ rfl rfl
    unfold State.pwmPaired
    rw [Bool.or_eq_true, Bool.not_eq_true', Bool.and_eq_true, Bool.and_eq_true, decide_eq_true_eq, and_assoc]

theorem pwmStart_eq {s t : State} {tb : Nat} (is : t = (s.tbStart tb).capture 2 tb 0 0) :
    s.pwmStart tb = ((List.range 48).filter fun c => t.pwmTb c = tb && t.flag uMill (pwmOff c) 31).foldl State.shadowLoad t := by
  subst is
  rfl

theorem exec_pwmPeriodStart {tb : Nat} (lt : tb < 8) {s : State} (on : s.flag uMill (0x1400 + 8 * tb) 31 = true) :
    exec (.pwmPeriodStart tb) s = .next (s.pwmStart tb) := by
  have e : exec (.pwmPeriodStart tb) s =
    .next (if s.flag uMill (0x1400 + 8 * (tb % 8)) 31 then s.pwmStart (tb % 8) else s) := rfl
  rw [e, Nat.mod_eq_of_lt lt, if_pos on]

/-! ### Axis frames (R404, R405) -/

/-- The words of a frame replace those of its buffer from word `first` on. -/
def State.rxStored (s : State) (first : Nat) (ws : List Word) : State :=
  { s with rxWords := ws.zipIdx.foldl (fun l e => SMap.set (fun _ => 0) (first + e.2) e.1 l) s.rxWords }

theorem rxMatch_eq {s : State} {p src group kind count : Nat} : s.rxMatch p src group kind count =
    (List.range 16).find? fun f => kind = 2 && s.flag uMill (0x2200 + 32 * f) 31 && s.fld uMill (0x2200 + 32 * f) 21 20 = p &&
      s.macAt uMill (0x2204 + 32 * f) = src && s.fld uMill (0x220C + 32 * f) 31 16 = group && s.fld uMill (0x2200 + 32 * f) 15 8 = count := by
  have source : ∀ f, 0x2200 + 32 * f + 4 = 0x2204 + 32 * f := by omega
  have kinds : ∀ f, 0x2200 + 32 * f + 12 = 0x220C + 32 * f := by omega
  unfold State.rxMatch rxOff
  simp only [source, kinds]

theorem exec_axisFrameReceive {s : State} {p src group kind f : Nat} {ws : List Word}
    (found : s.rxMatch p src group kind ws.length = some f) :
    exec (.axisFrameReceive p src group kind ws) s = .next (s.rxAccept f ws) := by
  have e : exec (.axisFrameReceive p src group kind ws) s = .next (s.axisReceive p src group kind ws) := rfl
  rw [e]
  unfold State.axisReceive
  rw [found]

theorem rxAccept_eq (s : State) (f : Nat) (ws : List Word) : s.rxAccept f ws =
    ((s.rxStored (s.fld uMill (0x2200 + 32 * f) 7 0) ws).countF uMill (0x221C + 32 * f) 30 0 1).setFlag uMill (0x221C + 32 * f) 31 false := by
  have off : 0x2200 + 32 * f + 0x1C = 0x221C + 32 * f := by omega
  unfold State.rxAccept rxOff
  simp only [off]
  rfl

theorem exec_axisFrameStale {f : Nat} (lt : f < 16) {s : State} (on : s.flag uMill (0x2200 + 32 * f) 31 = true) :
    exec (.axisFrameStale f) s = .next (s.setFlag uMill (0x221C + 32 * f) 31 true) := by
  have off : rxOff f + 0x1C = 0x221C + 32 * f := by unfold rxOff; omega
  have e : exec (.axisFrameStale f) s =
    .next (if f < 16 && s.flag uMill (rxOff f) 31 then s.setFlag uMill (rxOff f + 0x1C) 31 true else s) := rfl
  have both : (decide (f < 16) && s.flag uMill (rxOff f) 31) = true := by
    rw [Bool.and_eq_true]; exact ⟨decide_eq_true lt, on⟩
  rw [e, if_pos both, off]

theorem exec_axisFramePartialSend {f : Nat} (lt : f < 16) {s : State} (on : s.txEn f = true)
    (fresh : (s.txSpan f).any (fun w => (s.txWord w).fresh) = true) : exec (.axisFramePartialSend f) s = .next (s.txSend f true) := by
  have e : exec (.axisFramePartialSend f) s = .next (s.txPartial f) := rfl
  rw [e]
  exact congrArg Host.Outcome.next (if_pos (by rw [on, fresh, decide_eq_true lt]; rfl))

/-- Settles O33: the fold over the ready loops ends at the one that goes before all others; edges wait in the filter until they
have persisted; the rest is one equation per event. -/
theorem millEvents : Obligations.MillEvents := by
  unfold Obligations.MillEvents
  refine ⟨fun lc l s lt free runs => ?segments, ?cores, ?edges, ?indexes, ?reads, ?periods, ?frames,
    fun f s lt => ⟨fun on => exec_axisFrameStale lt on, fun on fresh => exec_axisFramePartialSend lt on fresh⟩⟩
  case segments =>
    rw [exec_millSegment lt]
    exact ⟨fun isIn first => congrArg Host.Outcome.next (segment_first free runs isIn first),
      fun none => congrArg Host.Outcome.next (segment_none free runs none)⟩
  case cores =>
    intro core late lc c s lt only f cause n
    obtain ⟨l, e, same⟩ := exec_coreFailure lt only cause
    refine ⟨fun spare ne => ?_, fun spare => ?_⟩
    · rw [e, coreFault_taken l only spare ne, same]
      rfl
    · rw [e, coreFault_lost l only spare]
      rfl
  case edges =>
    intro i illegal up s lt mode x
    refine ⟨?_, ?_, fun filter unripe => ?_⟩
    · rintro filter idle rfl
      exact encoderEdge_illegal lt up mode filter idle
    · rintro filter idle rfl
      exact encoderEdge_counts lt up mode filter idle
    · obtain ⟨t, e, frame, own⟩ := encoderEdge_filtered lt illegal up mode filter unripe
      exact ⟨t, e, frame, fun e last kind other => own.trans (withEdge_back _ last kind other),
        fun last => own.trans (withEdge_more _ last)⟩
  case indexes =>
    intro i s lt t
    rw [exec_encoderIndex lt]
    exact ⟨fun mode on cleared => congrArg Host.Outcome.next (encIndex_indexed rfl mode on cleared),
      fun not => congrArg Host.Outcome.next (encIndex_not rfl not)⟩
  case reads =>
    intro i raw crc pulse reads start s lt mode first x n r t take crcBad
    rw [exec_serialReadDone lt]
    refine ⟨fun failed => congrArg Host.Outcome.next (serialDone_failed first rfl failed), ?_⟩
    rintro rfl good later
    exact congrArg Host.Outcome.next (serialDone_good first rfl good later)
  case periods =>
    intro tb s lt on t
    rw [exec_pwmPeriodStart lt on, pwmStart_eq rfl]
    refine congrArg Host.Outcome.next (List.foldl_ext _ _ _ fun q c _ => ?_)
    exact shadowLoad_eq q c
  case frames =>
    intro p src group kind f ws s lt found first t
    rw [exec_axisFrameReceive (rxMatch_eq.trans found), rxAccept_eq]
    rfl

end Sys2Proof.Machine

namespace Sys2Proof.Machine

/-! ## Control of the Mill by registers and calls (O34) -/

/-! ### LOOP_CTL, LAW_CTL, COEF_WR (R382–R384, R390, R391, R411) -/

/-- What a write to LOOP_CTL does that every access rule lets through. -/
def State.loopAct (s : State) (ini action l : Nat) : State :=
  match action with
  | 1 => if (s.loopEnable l).2 = OK then (s.loopEnable l).1 else (s.loopEnable l).1.accError ini (regAddr uMill 0x22C) .check
  | 2 => s.loopDisable l
  | 3 => s.loopFallback l
  | 4 => if s.returnReason ini (2 ^ s.loopGroup l) = 0 then s.loopReturn l else s.accError ini (regAddr uMill 0x22C) .check
  | _ => s.accError ini (regAddr uMill 0x22C) .range

theorem loopCtl_of_admits {s : State} {ini action l : Nat} (le : l ≤ 95)
    (admits : s.Admits ini uMill 0x22C (w32 (action * 2 ^ 29 + l)) (action = 4)) : s.loopCtl ini action l = s.loopAct ini action l := by
  have inField : l % 128 = l := Nat.mod_eq_of_lt (by omega)
  unfold State.loopCtl
  rw [inField, guarded_of_admits admits, if_neg (by omega)]
  rfl

theorem loopEnable_running {s : State} {l : Nat} (on : s.loopEn l = true) :
    s.loopEnable l = (s.setLoop l { s.loop l with stopping := false }, OK) := if_pos on

theorem loopEnable_starts {s : State} {l : Nat} (off : s.loopEn l = false) (fits : s.enableFault l = OK) :
    s.loopEnable l = (s.loopOn l, OK) := (if_neg (Bool.eq_false_iff.mp off)).trans (if_pos fits)

theorem loopEnable_refused {s : State} {l : Nat} (off : s.loopEn l = false) (bad : s.enableFault l ≠ OK) :
    s.loopEnable l = (s, s.enableFault l) := (if_neg (Bool.eq_false_iff.mp off)).trans (if_neg bad)

theorem loopDisable_running {s : State} {l : Nat} (on : s.loopEn l = true) :
    s.loopDisable l = s.setLoop l { s.loop l with stopping := true } := if_pos on

theorem lawCtl_of_admits {s t : State} {ini l f i : Nat} {fb : Bool} (le : l ≤ 95)
    (admits : s.Admits ini uMill 0x238 (w32 (2 ^ 31 + b2n fb * 2 ^ 30 + l)) false)
    (load : s.lawLoad 0x48 (s.xlClient ini) false l fb (s.fld uMill 0x230 31 6 * 64 + 2 ^ 32 * s.fld uMill 0x234 15 0) = (t, f, i)) :
    s.lawCtl ini l fb = ({ t with lawLast := l } : State).wr uMill 0x23C
      (w32 (2 ^ 31 + b2n (f = 0 && t.loopEn l) * 2 ^ 30 + i % 4096 * 2 ^ 16 + f)) := by
  have inField : l % 128 = l := Nat.mod_eq_of_lt (by omega)
  unfold State.lawCtl
  rw [inField, guarded_of_admits admits, if_neg (by omega)]
  simp only [load]
  rfl

theorem coefWrite_disabled {s : State} {l : Nat} (i : Nat) (v : Word) (off : s.loopEn l = false) :
    s.coefWrite l i v = (s.setLoop l { s.loop l with coef := SMap.set (fun _ => 0) i v (s.loop l).coef }, true) :=
  if_pos (by rw [off]; rfl)

theorem coefWrite_queued {s : State} {l : Nat} (i : Nat) (v : Word) (on : s.loopEn l = true) (room : (s.loop l).pend.length < 16) :
    s.coefWrite l i v = ((s.setLoop l { s.loop l with pend := (s.loop l).pend ++ [(i, v)] }).loopSync l, true) :=
  (if_neg (by rw [on]; decide)).trans (if_neg (Nat.not_le.mpr room))

theorem coefWrite_full {s : State} {l : Nat} (i : Nat) (v : Word) (on : s.loopEn l = true) (full : 16 ≤ (s.loop l).pend.length) :
    s.coefWrite l i v = (s, false) :=
  (if_neg (by rw [on]; decide)).trans (if_pos full)

theorem coefWr_of_admits {s : State} {ini value l : Nat} (is : l = s.fld uMill 0x240 22 16) (le : l ≤ 95)
    (admits : s.Admits ini uMill 0x244 (w32 value) true) (may : s.mayWrite ini uMill = true ∨ s.clientOf ini = some (s.loopOwner l)) :
    s.coefWr ini value = (s.coefWrite l (s.fld uMill 0x240 7 0) (w32 value)).1.wr uMill 0x24C
      (w32 (2 ^ 31 + if (s.coefWrite l (s.fld uMill 0x240 7 0) (w32 value)).2 then OK else COEF_QUEUE_FULL)) := by
  subst is
  have mine : (s.mayWrite ini uMill || decide (s.clientOf ini = some (s.loopOwner (s.fld uMill 0x240 22 16)))) = true := by
    rw [Bool.or_eq_true, decide_eq_true_eq]
    exact may
  unfold State.coefWr
  rw [guarded_of_admits admits]
  dsimp only
  rw [mine, if_neg (by decide), if_neg (by omega)]

/-! ### The gate of every call -/

theorem millCall_open {s : State} {ini : Nat} {l : Option Nat} {bad : Bool} (isOpen : s.MillOpen ini l) (fits : bad = false)
    (act : State → State) : s.millCall ini l bad act = act s := by
  obtain ⟨inRange, may, free⟩ := isOpen
  subst fits
  unfold State.millCall
  cases l with
  | none => simp [may, free]
  | some k => simp [may, free, inRange k rfl]

/-! ### Calls on one loop (R411, R417) -/

section
variable {ini : Nat} {args : List Word} {s : State} {l : Nat}

/-- Words 0 to 3 of a loop record are stored. -/
def State.loopStored (s : State) (l : Nat) (w : Nat → Word) : State :=
  (((s.store (wLoop l) 0 (w 0)).store (wLoop l) 4 (w 1)).store (wLoop l) 8 (w 2)).store (wLoop l) 12 (w 3)

theorem callConfigureLoop_running (is : arg args 0 = l) (isOpen : s.MillOpen ini (some l)) (plain : bits (nth args 1 0) 31 30 = 0)
    (ok : s.loopWordsOk l (fun i => nth args (1 + i) 0) = true) (on : s.loopEn l = true) :
    callConfigureLoop ini args s = s.ret LOOP_RUNNING := by
  subst is
  unfold callConfigureLoop
  dsimp only
  rw [millCall_open isOpen rfl, if_neg (by rw [ok, plain]; decide), if_pos on]

theorem callConfigureLoop_clash (is : arg args 0 = l) (isOpen : s.MillOpen ini (some l)) (plain : bits (nth args 1 0) 31 30 = 0)
    (ok : s.loopWordsOk l (fun i => nth args (1 + i) 0) = true) (off : s.loopEn l = false)
    (clash : s.encClash l (bits (nth args 1 0) 19 16) = true) : callConfigureLoop ini args s = s.ret ENC_BOUND := by
  subst is
  unfold callConfigureLoop
  dsimp only
  rw [millCall_open isOpen rfl, if_neg (by rw [ok, plain]; decide), if_neg (Bool.eq_false_iff.mp off), if_pos clash]

/-- A loop's record is written: the caller's client becomes the owner. -/
def State.loopConfigured (s : State) (ini l : Nat) (w : Nat → Word) : State :=
  let u := s.loopStored l w
  match u.clientOf ini with
  | some c => ((u.wr (wLoop l) 0x2C (w32 c)).lawSync l).ret OK
  | none => (u.lawSync l).ret OK

theorem loopConfigured_owned {w : Nat → Word} {c : Nat} (client : (s.loopStored l w).clientOf ini = some c) :
    s.loopConfigured ini l w = (((s.loopStored l w).wr (wLoop l) 0x2C (w32 c)).lawSync l).ret OK := by
  unfold State.loopConfigured
  simp only [client]

theorem loopConfigured_unowned {w : Nat → Word} (client : (s.loopStored l w).clientOf ini = none) :
    s.loopConfigured ini l w = ((s.loopStored l w).lawSync l).ret OK := by
  unfold State.loopConfigured
  simp only [client]

theorem callConfigureLoop_stores (is : arg args 0 = l) (isOpen : s.MillOpen ini (some l)) (plain : bits (nth args 1 0) 31 30 = 0)
    (ok : s.loopWordsOk l (fun i => nth args (1 + i) 0) = true) (off : s.loopEn l = false)
    (clear : s.encClash l (bits (nth args 1 0) 19 16) = false) :
    callConfigureLoop ini args s = s.loopConfigured ini l (fun i => nth args (1 + i) 0) := by
  subst is
  unfold callConfigureLoop State.loopConfigured
  dsimp only
  rw [millCall_open isOpen rfl, if_neg (by rw [ok, plain]; decide), if_neg (Bool.eq_false_iff.mp off),
    if_neg (Bool.eq_false_iff.mp clear), show (List.range 4).foldl (fun q i => q.store (wLoop (arg args 0)) (4 * i) (nth args (1 + i) 0)) s =
      s.loopStored (arg args 0) (fun i => nth args (1 + i) 0) from rfl]
  cases (s.loopStored (arg args 0) fun i => nth args (1 + i) 0).clientOf ini <;> rfl

theorem callLoadLaw_eq (is : arg args 0 = l) (isOpen : s.MillOpen ini (some l)) (slot : arg args 1 ≤ 1) (aligned : argAddr args 2 % 64 = 0)
    {t : State} {f i : Nat} (load : s.lawLoad 0x48 (s.xlClient ini) false l (arg args 1 = 1) (argAddr args 2) = (t, f, i)) :
    callLoadLaw ini args s = if f != 0 then t.ret f [w32 i]
      else if t.loopEn l then t.retPending 0x0702 (slotKey l (arg args 1 = 1)) else t.ret OK := by
  subst is
  have fits : (decide (1 < arg args 1) || argAddr args 2 % 64 != 0) = false := by
    rw [aligned, decide_eq_false (by omega)]
    rfl
  unfold callLoadLaw
  dsimp only
  rw [millCall_open isOpen fits, load]

theorem slotKey_eq {l n : Nat} (le : n ≤ 1) : slotKey l (n = 1) = l + 128 * n := by
  rcases Nat.le_one_iff_eq_zero_or_eq_one.mp le with rfl | rfl <;> rfl

theorem callEnableLoop_disables (is : arg args 0 = l) (isOpen : s.MillOpen ini (some l)) (off : arg args 1 = 0) :
    callEnableLoop ini args s = (s.loopDisable l).ret OK := by
  subst is
  unfold callEnableLoop
  dsimp only
  rw [millCall_open isOpen (decide_eq_false (by omega)), if_pos off]

theorem callEnableLoop_enables (is : arg args 0 = l) (isOpen : s.MillOpen ini (some l)) (on : arg args 1 = 1) :
    callEnableLoop ini args s = (s.loopEnable l).1.ret (s.loopEnable l).2 := by
  subst is
  unfold callEnableLoop
  dsimp only
  rw [millCall_open isOpen (decide_eq_false (by omega)), if_neg (by omega)]

/-- The index and value pairs of a call 0x0704. -/
def coefPairs (args : List Word) : List (Nat × Word) :=
  (List.range (arg args 1)).map fun i => (arg args (2 + 2 * i), nth args (3 + 2 * i) 0)

/-- What a call 0x0704 does that is let through. -/
def State.coefCall (s : State) (l n : Nat) (ps : List (Nat × Word)) : State :=
  if s.callWaits 0x0704 l then s.ret UNIT_BUSY
  else if !s.loopEn l then (ps.foldl (fun q p => (q.coefWrite l p.1 p.2).1) s).ret OK
  else
    let x := s.loop l
    let t := (s.setLoop l { x with
      pend := x.pend ++ (x.feed ++ ps).take (16 - x.pend.length), feed := (x.feed ++ ps).drop (16 - x.pend.length),
      callN := x.pend.length + (x.feed ++ ps).length }).loopSync l
    if n = 0 then t.ret OK else t.retPending 0x0704 l

theorem callWriteCoefficients_eq (is : arg args 0 = l) (isOpen : s.MillOpen ini (some l)) (few : arg args 1 ≤ 64)
    (inRange : ∀ p ∈ coefPairs args, p.1 ≤ 255) :
    callWriteCoefficients ini args s = s.coefCall l (arg args 1) (coefPairs args) := by
  subst is
  have fits : (decide (64 < arg args 1) || (coefPairs args).any fun p => decide (255 < p.1)) = false := by
    rw [decide_eq_false (Nat.not_lt.mpr few), Bool.false_or, List.any_eq_false]
    exact fun p m => by rw [decide_eq_true_eq]; exact Nat.not_lt.mpr (inRange p m)
  unfold callWriteCoefficients
  dsimp only
  rw [Nat.min_eq_left few]
  exact millCall_open isOpen fits _

theorem callClearLoopFlags_eq (is : arg args 0 = l) (isOpen : s.MillOpen ini (some l)) (flags : arg args 1 % 2 ^ 29 = 0) :
    callClearLoopFlags ini args s = (s.store (wLoop l) 0x10 (nth args 1 0)).ret OK := by
  subst is
  have fits : (arg args 1 % 2 ^ 29 != 0) = false := by rw [flags]; rfl
  unfold callClearLoopFlags
  dsimp only
  rw [millCall_open isOpen fits]

/-- What a call 0x070A leaves when t is the state after its switch, waiting under key k. -/
def State.fbAnswer (t : State) (k : Nat) (waits : Bool) : State := if waits then t.retPending 0x070A k else t.ret OK

theorem callFallback_busy (is : arg args 0 = l) (isOpen : s.MillOpen ini (some l)) (one : arg args 1 ≤ 1)
    (busy : s.callWaits 0x070A l = true) : callFallback ini args s = s.ret UNIT_BUSY := by
  subst is
  have alone : ¬2 ≤ arg args 1 := by omega
  unfold callFallback
  simp only [alone, decide_false, if_false, Bool.false_and, Bool.or_false]
  rw [millCall_open isOpen (decide_eq_false (by omega)), if_pos busy]

theorem callFallback_switches (is : arg args 0 = l) (isOpen : s.MillOpen ini (some l)) (way : arg args 1 = 0)
    (idle : s.callWaits 0x070A l = false) :
    callFallback ini args s = (s.loopFallback l).fbAnswer l ((s.loopFallback l).loop l).want.isSome := by
  subst is
  have alone : ¬2 ≤ arg args 1 := by omega
  unfold callFallback
  simp only [alone, decide_false, if_false, Bool.false_and, Bool.or_false]
  rw [millCall_open isOpen (decide_eq_false (by omega)), if_neg (Bool.eq_false_iff.mp idle)]
  simp only [way]
  rfl

theorem callFallback_returns (is : arg args 0 = l) (isOpen : s.MillOpen ini (some l)) (way : arg args 1 = 1)
    (idle : s.callWaits 0x070A l = false) :
    callFallback ini args s = if s.returnReason ini (2 ^ s.loopGroup l) != 0 then s.ret REFUSED [w32 (s.returnReason ini (2 ^ s.loopGroup l))]
      else (s.loopReturn l).fbAnswer l ((s.loopReturn l).loop l).want.isSome := by
  subst is
  have alone : ¬2 ≤ arg args 1 := by omega
  unfold callFallback
  simp only [alone, decide_false, if_false, Bool.false_and, Bool.or_false]
  rw [millCall_open isOpen (decide_eq_false (by omega)), if_neg (Bool.eq_false_iff.mp idle)]
  simp only [way]
  rfl

/-- Some loop of group k that is enabled has yet to switch. -/
def State.groupWaits (t : State) (k : Nat) : Bool := t.loops.any fun p => t.loopGroup p.1 = k && p.2.want.isSome && t.loopEn p.1

theorem callFallback_group {k : Nat} (is : arg args 0 = k) (le : k ≤ 7) (isOpen : s.MillOpen ini none) (way : arg args 1 = 2)
    (idle : s.callWaits 0x070A (96 + k) = false) :
    callFallback ini args s = (s.groupsTo (2 ^ k) true).fbAnswer (96 + k) ((s.groupsTo (2 ^ k) true).groupWaits k) := by
  subst is
  unfold callFallback
  have group : 2 ≤ arg args 1 := by omega
  have fits : (decide (3 < arg args 1) || decide (7 < arg args 0)) = false := by
    rw [decide_eq_false (by omega), decide_eq_false (by omega)]
    rfl
  simp only [group, decide_true, if_true, Bool.true_and]
  rw [millCall_open isOpen fits, if_neg (Bool.eq_false_iff.mp idle)]
  simp only [way]
  rfl

/-! ### Calls on encoders, PWM, axis frames and triggers (R413–R415, R381) -/

theorem callConfigureEncoder_eq (le : arg args 0 ≤ 31) (ok : encCfgOk (nth args 1 0) = true) (isOpen : s.MillOpen ini none) :
    callConfigureEncoder ini args s = if !(s.encReaders (arg args 0)).isEmpty then s.ret ENC_BOUND
      else (((s.encCfg (arg args 0) (nth args 1 0)).wr uMill (encOff (arg args 0) + 4) (nth args 2 0)).wr uMill
        (encOff (arg args 0) + 8) (nth args 3 0)).ret OK := by
  have fits : (decide (31 < arg args 0) || !encCfgOk (nth args 1 0)) = false := by
    rw [ok, decide_eq_false (by omega)]
    rfl
  unfold callConfigureEncoder
  dsimp only
  rw [millCall_open isOpen fits]

theorem tbCfg_eq (s : State) (k : Nat) (v : Word) :
    s.tbCfg k v =
      let t := (s.wr uMill (0x1404 + 8 * k) (w32 (s.tbCount k))).wr uMill (0x1400 + 8 * k) v
      if bit v 31 && !s.flag uMill (0x1400 + 8 * k) 31 then
        { t with tbAt := SMap.set (fun _ => 0) k s.encClock s.tbAt } else t := by
  have off : 0x1400 + 8 * k + 4 = 0x1404 + 8 * k := by omega
  unfold State.tbCfg
  simp only [off]
  rfl

theorem callConfigurePwm_timebase (lt : arg args 0 < 8) (ok : tbCfgOk (nth args 1 0) = true) (isOpen : s.MillOpen ini none) :
    callConfigurePwm ini args s = (s.tbCfg (arg args 0) (nth args 1 0)).ret OK := by
  unfold callConfigurePwm
  refine (millCall_open isOpen ?_ _).trans (if_pos lt)
  rw [if_pos lt, ok]
  rfl

theorem callConfigurePwm_channel (ge : 0x100 ≤ arg args 0) (le : arg args 0 - 0x100 ≤ 47)
    (ok : pwmCfgOk (arg args 0 - 0x100) (nth args 1 0) = true) (isOpen : s.MillOpen ini none) :
    callConfigurePwm ini args s = if (s.pwmOwner (arg args 0 - 0x100)).isSome then s.ret OUTPUT_CLAIMED
      else ((s.wr uMill (pwmOff (arg args 0 - 0x100)) (nth args 1 0)).pwmSafe [arg args 0 - 0x100]).ret OK := by
  have far : ¬arg args 0 < 8 := by omega
  unfold callConfigurePwm
  refine (millCall_open isOpen ?_ _).trans (if_neg far)
  rw [if_neg far, ok, decide_eq_false (by omega), decide_eq_false (by omega)]
  rfl

/-- The seven words of an axis descriptor are written. -/
def State.axisStored (s : State) (base c : Nat) (w : Nat → Word) : State :=
  ((((((s.wr uMill (base + 32 * c + 0) (w 0)).wr uMill (base + 32 * c + 4) (w 1)).wr uMill (base + 32 * c + 8) (w 2)).wr uMill
    (base + 32 * c + 12) (w 3)).wr uMill (base + 32 * c + 16) (w 4)).wr uMill (base + 32 * c + 20) (w 5)).wr uMill (base + 32 * c + 24) (w 6)

theorem callConfigureAxis_stores (le : arg args 0 ≤ 1) (few : arg args 1 ≤ 15) (isOpen : s.MillOpen ini none) {base : Nat}
    (is : base = if arg args 0 = 0 then 0x2000 else 0x2200)
    (rows : ∀ i < 7, ∃ r, findRow uMill (base + 4 * i) = some r ∧ (nth args (2 + i) 0).toNat &&& r.valid = (nth args (2 + i) 0).toNat)
    (ok : s.axisOk base (arg args 1) (nth args 2 0) = true) (age : arg args 0 = 1 → bits (nth args 5 0) 15 0 ≠ 0) :
    callConfigureAxis ini args s = (s.axisStored base (arg args 1) (fun i => nth args (2 + i) 0)).ret OK := by
  have fits : (decide (1 < arg args 0) || decide (15 < arg args 1)) = false := by
    rw [decide_eq_false (by omega), decide_eq_false (Nat.not_lt.mpr few)]
    rfl
  have all {p : Nat → Bool} (h : ∀ i < 7, p i = true) : (List.range 7).all p = true :=
    List.all_eq_true.mpr fun i m => h i (List.mem_range.mp m)
  have old : (decide (arg args 0 = 1) && decide (bits (nth args (2 + 3) 0) 15 0 = 0)) = false := by
    simpa using age
  unfold callConfigureAxis
  dsimp only
  rw [millCall_open isOpen fits, ← is, all fun i lt => ?row, ok, old, if_neg (by decide)]
  case row =>
    obtain ⟨r, found, valid⟩ := rows i lt
    simp only [found, valid, decide_true]
  rfl

theorem callBindTrigger_open (le : arg args 0 ≤ 7) (few : arg args 1 ≤ 15) (isOpen : s.MillOpen ini none) {t : State} {r : Nat}
    (claim : (if s.cmpOwner (arg args 1) = 3 && s.cmpIndex (arg args 1) = arg args 0 then (s, OK)
      else s.cmpClaim 3 (arg args 0) (arg args 1)) = (t, r)) :
    callBindTrigger ini args s =
      if r = OK then (t.wr uMill (0x300 + 4 * arg args 0) (w32 (2 ^ 31 + arg args 1))).loadsSync.ret OK else t.ret r := by
  unfold callBindTrigger
  refine (millCall_open isOpen ?_ _).trans ?_
  · rw [decide_eq_false (by omega), decide_eq_false (by omega)]
    rfl
  · rw [claim]

theorem cmpClaim_line {s : State} {n c : Nat} (free : s.cmpOwner c = 0) (none : s.cmpOf 3 n = none) :
    s.cmpClaim 3 n c =
      (((s.setFld uGauge (cmpOff c) 30 29 3).setFld uGauge (cmpOff c) 28 26 n).setFlag uGauge 0x100 c true, OK) := by
  refine (if_neg ?_).trans rfl
  rw [free, none]
  decide

end

/-- Settles O34: each write and each call passes its gate and does what its rule says, case by case. -/
theorem millCommands : Obligations.MillCommands := by
  unfold Obligations.MillCommands
  refine ⟨fun ini l s le => ⟨fun admits => ⟨?runs, ?starts, ?refuses⟩, ?disables, ?falls, ?returns⟩, ?laws, ?coefs, ?loops, ?units, ?groups⟩
  case runs => exact fun on => congrArg Host.Outcome.next ((loopCtl_of_admits le admits).trans (by rw [State.loopAct, loopEnable_running on, if_pos rfl]))
  case starts =>
    exact fun off fits => congrArg Host.Outcome.next ((loopCtl_of_admits le admits).trans (by rw [State.loopAct, loopEnable_starts off fits, if_pos rfl]))
  case refuses =>
    exact fun off bad => congrArg Host.Outcome.next ((loopCtl_of_admits le admits).trans (by rw [State.loopAct, loopEnable_refused off bad, if_neg bad]))
  case disables =>
    exact fun admits on => congrArg Host.Outcome.next ((loopCtl_of_admits le admits).trans (loopDisable_running on))
  case falls =>
    intro admits grp
    exact congrArg Host.Outcome.next (loopCtl_of_admits le admits)
  case returns =>
    intro admits grp
    exact ⟨fun may => congrArg Host.Outcome.next ((loopCtl_of_admits le admits).trans (if_pos may)),
      fun not => congrArg Host.Outcome.next ((loopCtl_of_admits le admits).trans (if_neg not))⟩
  case laws =>
    exact fun ini l fb s t f i le admits load => congrArg Host.Outcome.next (lawCtl_of_admits le admits load)
  case coefs =>
    intro ini value s l i x le admits may
    have gate := coefWr_of_admits rfl le admits may
    refine ⟨fun off => ?_, fun on room => ?_, fun on full => ?_⟩
    · exact congrArg Host.Outcome.next (gate.trans (by rw [coefWrite_disabled _ _ off, if_pos rfl]))
    · exact congrArg Host.Outcome.next (gate.trans (by rw [coefWrite_queued _ _ on room, if_pos rfl]))
    · exact congrArg Host.Outcome.next (gate.trans (by rw [coefWrite_full _ _ on full, if_neg Bool.false_ne_true]))
  case loops =>
    intro ini args s l w a x isOpen
    refine ⟨?configure, ?load, ?off, ?on, ?writes, ?flags, ?busy, ?fallback, ?back⟩
    case configure =>
      intro plain ok
      refine ⟨fun on => congrArg Host.Outcome.next (callConfigureLoop_running rfl isOpen plain ok on),
        fun off clash => congrArg Host.Outcome.next (callConfigureLoop_clash rfl isOpen plain ok off clash), ?_⟩
      intro off clear u
      refine ⟨fun c client => ?_, fun client => ?_⟩
      · exact congrArg Host.Outcome.next ((callConfigureLoop_stores rfl isOpen plain ok off clear).trans (loopConfigured_owned client))
      · exact congrArg Host.Outcome.next ((callConfigureLoop_stores rfl isOpen plain ok off clear).trans (loopConfigured_unowned client))
    case load =>
      intro slot aligned t f i load
      have gate := callLoadLaw_eq rfl isOpen slot aligned load
      refine ⟨fun bad => ?_, fun ok off => ?_, fun ok on => ?_⟩
      · exact congrArg Host.Outcome.next (gate.trans (if_pos (bne_iff_ne.mpr bad)))
      · exact congrArg Host.Outcome.next (gate.trans ((if_neg (by rw [ok]; decide)).trans (if_neg (Bool.eq_false_iff.mp off))))
      · rw [slotKey_eq slot] at gate
        exact congrArg Host.Outcome.next (gate.trans ((if_neg (by rw [ok]; decide)).trans (if_pos on)))
    case off =>
      exact fun off on => congrArg Host.Outcome.next ((callEnableLoop_disables rfl isOpen off).trans (by rw [loopDisable_running on]))
    case on =>
      intro on off
      exact ⟨fun fits => congrArg Host.Outcome.next ((callEnableLoop_enables rfl isOpen on).trans (by rw [loopEnable_starts off fits])),
        fun bad => congrArg Host.Outcome.next ((callEnableLoop_enables rfl isOpen on).trans (by rw [loopEnable_refused off bad]))⟩
    case writes =>
      intro few ps inRange
      have gate := callWriteCoefficients_eq rfl isOpen few inRange
      refine ⟨fun busy => ?_, fun idle off => ?_, fun idle on some => ?_⟩
      · exact congrArg Host.Outcome.next (gate.trans (if_pos busy))
      · exact congrArg Host.Outcome.next (gate.trans ((if_neg (Bool.eq_false_iff.mp idle)).trans (if_pos (by rw [off]; rfl))))
      · exact congrArg Host.Outcome.next (gate.trans ((if_neg (Bool.eq_false_iff.mp idle)).trans
          ((if_neg (by rw [on]; decide)).trans (if_neg (by omega)))))
    case flags => exact fun flags => congrArg Host.Outcome.next (callClearLoopFlags_eq rfl isOpen flags)
    case busy => exact fun busy one => congrArg Host.Outcome.next (callFallback_busy rfl isOpen one busy)
    case fallback =>
      intro idle way t
      have gate := callFallback_switches rfl isOpen way idle
      exact ⟨fun waits => congrArg Host.Outcome.next (gate.trans (if_pos waits)),
        fun done => congrArg Host.Outcome.next (gate.trans (if_neg (Bool.eq_false_iff.mp done)))⟩
    case back =>
      intro idle way r t
      have gate := callFallback_returns rfl isOpen way idle
      refine ⟨fun bad => congrArg Host.Outcome.next (gate.trans (if_pos (bne_iff_ne.mpr bad))), fun ok waits => ?_, fun ok done => ?_⟩
      · exact congrArg Host.Outcome.next (gate.trans ((if_neg (fun n => bne_iff_ne.mp n ok)).trans (if_pos waits)))
      · exact congrArg Host.Outcome.next (gate.trans ((if_neg (fun n => bne_iff_ne.mp n ok)).trans (if_neg (Bool.eq_false_iff.mp done))))
  case units =>
    intro ini args s k c isOpen
    refine ⟨?encoders, ?timebases, ?channels, ?frames, ?triggers⟩
    case encoders =>
      intro le ok
      have gate := callConfigureEncoder_eq le ok isOpen
      exact ⟨fun bound => congrArg Host.Outcome.next (gate.trans (if_pos (by simpa using bound))),
        fun free => congrArg Host.Outcome.next (gate.trans (if_neg (by simpa using free)))⟩
    case timebases =>
      intro lt ok t
      exact congrArg Host.Outcome.next ((callConfigurePwm_timebase lt ok isOpen).trans (by rw [tbCfg_eq]))
    case channels =>
      intro ge le ok
      have gate := callConfigurePwm_channel ge le ok isOpen
      exact ⟨fun owned => congrArg Host.Outcome.next (gate.trans (if_pos (Option.isSome_iff_ne_none.mpr owned))),
        fun free => congrArg Host.Outcome.next (gate.trans (if_neg (fun h => Option.isSome_iff_ne_none.mp h free)))⟩
    case frames =>
      intro le few base w rows ok age
      exact congrArg Host.Outcome.next (callConfigureAxis_stores le few isOpen rfl rows ok age)
    case triggers =>
      intro le few
      refine ⟨fun owner index => ?_, fun free none => ?_, fun taken other => ?_⟩
      · refine congrArg Host.Outcome.next ((callBindTrigger_open le few isOpen (if_pos ?_)).trans (if_pos rfl))
        rw [show s.cmpOwner (arg args 1) = 3 from owner, show s.cmpIndex (arg args 1) = arg args 0 from index]
        simp
      · refine congrArg Host.Outcome.next ((callBindTrigger_open le few isOpen ((if_neg ?_).trans (cmpClaim_line free none))).trans (if_pos rfl))
        rw [show s.cmpOwner (arg args 1) = 0 from free]
        simp
      · refine congrArg Host.Outcome.next ((callBindTrigger_open le few isOpen ((if_neg ?_).trans
          (cmpClaim_taken (.inl taken)))).trans (if_neg (by decide)))
        simpa using other
  case groups =>
    intro ini args s k le way isOpen idle t
    have gate := callFallback_group rfl le isOpen way idle
    exact ⟨fun waits => congrArg Host.Outcome.next (gate.trans (if_pos waits)),
      fun done => congrArg Host.Outcome.next (gate.trans (if_neg (Bool.eq_false_iff.mp done)))⟩

end Sys2Proof.Machine

namespace Sys2Proof.Machine

/-! ## Ethernet ports and CAN controllers (O38) -/

/-! ### Frames that come to a port (R466–R469, R518) -/

theorem exec_ethFrameReceive {p : Nat} (lt : p < 4) (d : List Byte) (good : Bool) (k m o y : Nat) {s : State}
    (on : s.flag (uEP p) 0x100 31 = true) : exec (.ethFrameReceive p d good k m o y) s =
      .next (if good then (s.count (uEP p) 0x11C 1).ethSort p d k m o y else (s.count (uEP p) 0x11C 1).countF (uEP p) 0x124 31 16 1) := by
  have e : exec (.ethFrameReceive p d good k m o y) s = .next (s.ethReceive (p % 4) d good k m o y) := rfl
  rw [e, Nat.mod_eq_of_lt lt]
  exact congrArg Host.Outcome.next (if_neg (by rw [on]; decide))

/-- The state in which a good frame is sorted: its wake has been taken. -/
def State.ethWoken (s : State) (p : Nat) (d : List Byte) : State :=
  if s.flag uPwr 0x11C 8 || isWake (s.station p) d then s.wake 2 (uEP p) else s

theorem ethSort_axis {s w : State} {p : Nat} {d : List Byte} (k m o y : Nat) (is : w = s.ethWoken p d) {g kd f : Nat} {ws : List Word}
    (axis : axisOf d = some (g, kd, ws)) (found : w.rxMatch p (leAt d 6 6) g kd ws.length = some f) :
    s.ethSort p d k m o y = w.rxAccept f ws := by
  unfold State.ethWoken at is
  unfold State.ethSort
  simp only [axis, ← is, found, Option.map_some]

theorem ethSort_other {s w : State} {p : Nat} {d : List Byte} (k m o y : Nat) (is : w = s.ethWoken p d) (axis : axisOf d = none) :
    s.ethSort p d k m o y = if isPtp d then w.ptpFrame k m o y else if isWake (w.station p) d then w else w.genStore p d := by
  unfold State.ethWoken at is
  unfold State.ethSort
  simp only [axis, ← is]

theorem genStore_dropped {s : State} {p : Nat} {d : List Byte} (bad : s.flag (uEP p) 0x118 31 = false ∨ 2032 < d.length) :
    s.genStore p d = s.countF (uEP p) 0x124 15 0 1 :=
  if_pos (by rw [Bool.or_eq_true, Bool.not_eq_true', decide_eq_true_eq]; exact bad)

/-- A general ring takes a frame. -/
def State.genStored (s : State) (p : Nat) (d : List Byte) : State :=
  let r := s.genRing p
  let at_ := s.rxStamp p
  let head := [w32 (d.length + b2n r.phase * 2 ^ 31), w32 (at_ % nsPerS), w32 (at_ / nsPerS), 0]
  let next := if r.tail + 1 < 2 ^ r.order then r.tail + 1 else 0
  (s.setBytes (r.addr + 2048 * r.tail) (head.flatMap (fun w => natBytes 4 w.toNat) ++ d)).setGenRing p
    { r with tail := next, phase := if next = 0 then !r.phase else r.phase }

theorem genStore_stores {s : State} {p : Nat} {d : List Byte} (on : s.flag (uEP p) 0x118 31 = true) (fits : d.length ≤ 2032) :
    s.genStore p d = s.genStored p d :=
  if_neg (by rw [on, decide_eq_false (Nat.not_lt.mpr fits)]; decide)

theorem exec_ethFrameSent {p : Nat} (lt : p < 4) {s : State} (busy : s.ethBusy.any (·.port = p) = true) :
    exec (.ethFrameSent p) s =
      .next ((({ s with ethBusy := s.ethBusy.filter (·.port != p) } : State).count (uEP p) 0x120 1).ethKick p) := by
  have e : exec (.ethFrameSent p) s = .next (s.ethSent (p % 4)) := rfl
  rw [e, Nat.mod_eq_of_lt lt]
  exact congrArg Host.Outcome.next (if_pos busy)

theorem exec_ethLinkChange {p : Nat} (lt : p < 4) (up : Bool) (s : State) : exec (.ethLinkChange p up) s = .next (s.ethLink p up) := by
  have e : exec (.ethLinkChange p up) s = .next (s.ethLink (p % 4) up) := rfl
  rw [e, Nat.mod_eq_of_lt lt]

theorem ethLink_stays {s : State} {p : Nat} (was : s.flag (uEP p) 0x104 31 = true) :
    s.ethLink p true = (s.setFlag (uEP p) 0x104 31 true).ethKick p := by
  unfold State.ethLink
  simp only [was, if_true]

theorem ethLink_comes {s : State} {p : Nat} (was : s.flag (uEP p) 0x104 31 = false) :
    s.ethLink p true = ((s.setFlag (uEP p) 0x104 31 true).calApply (calKeyOf (uEP p) 7)).ethKick p := by
  unfold State.ethLink
  simp only [was, if_true, Bool.false_eq_true, if_false]

theorem ethBusy_wr (s : State) (u o : Nat) (v : Word) : (s.wr u o v).ethBusy = s.ethBusy := rfl

theorem ethLink_goes (s : State) (p : Nat) : s.ethLink p false =
    ({ s.setFlag (uEP p) 0x104 31 false with ethBusy := s.ethBusy.filter (·.port != p) } : State) := by
  unfold State.ethLink
  rw [if_neg Bool.false_ne_true, show (s.setFlag (uEP p) 0x104 31 false).ethBusy = s.ethBusy from ethBusy_wr ..]

/-! ### Gate lists (R405, R416) -/

theorem qbvX_of_qbv {s t : State} (same : t.qbv = s.qbv) (p : Nat) : t.qbvX p = s.qbvX p :=
  congrArg (SMap.get (fun _ => QbvX.init) p) same

/-- A port's start of its next frame changes no schedule and, of the registers, only QBV_OVERRUN. -/
theorem ethKick_keeps (s : State) (p : Nat) : (s.ethKick p).qbv = (s.qbvSync p).qbv ∧
    ((s.ethKick p).rd (uEP p) 0x210 = (s.qbvSync p).rd (uEP p) 0x210) := by
  have other : rk (uEP p) 0x210 ≠ rk (uEP p) 0x214 := by unfold rk; omega
  unfold State.ethKick
  generalize s.qbvSync p = q
  extract_lets q' heads held src u
  rw [show q' = q from rfl]
  have kept : src.qbv = q.qbv ∧ src.rd (uEP p) 0x210 = q.rd (uEP p) 0x210 := by
    refine ⟨?_, rd_wr_ne q _ _ _ _ _ other⟩
    dsimp only [src, q', State.count, State.countF, State.wr]
  clear_value src
  have moved : u.qbv = src.qbv ∧ u.regs = src.regs ∧ u.part = src.part := ⟨rfl, rfl, rfl⟩
  clear_value u
  have schedule : u.qbv = q.qbv := moved.1.trans kept.1
  have counted : u.rd (uEP p) 0x210 = q.rd (uEP p) 0x210 := (rd_of_regs moved.2.1 moved.2.2 _ _).trans kept.2
  split
  · exact ⟨rfl, rfl⟩
  · split
    · exact ⟨schedule, counted⟩
    · exact ⟨schedule, (rd_of_regs rfl rfl _ _).trans counted⟩

theorem exec_qbvGateEntryEnd {p : Nat} (lt : p < 4) (s : State) : exec (.qbvGateEntryEnd p) s = .next (s.ethKick p) := by
  have e : exec (.qbvGateEntryEnd p) s = .next (s.ethKick (p % 4)) := rfl
  rw [e, Nat.mod_eq_of_lt lt]

theorem qbvSync_waits {s : State} {p : Nat} (waits : (s.qbvX p).swap = false ∨ s.nowNs < s.qbvBase p) : s.qbvSync p = s := by
  refine if_neg fun h => ?_
  rw [Bool.and_eq_true, decide_eq_true_eq] at h
  rcases waits with w | w
  · exact Bool.false_ne_true (w.symm.trans h.1)
  · exact absurd h.2 (Nat.not_le.mpr w)

theorem qbvSync_takes {s : State} {p : Nat} (swap : (s.qbvX p).swap = true) (due : s.qbvBase p ≤ s.nowNs) : s.qbvSync p = s.qbvTake p :=
  if_pos (by rw [swap, decide_eq_true due]; rfl)

/-- The entries of the admin list. -/
def State.qbvAdmin (s : State) (p : Nat) : List Word := (List.range (s.fld (uEP p) 0x200 6 0)).map fun i => s.rd (uEP p) (0x300 + 4 * i)

/-- The schedule that the admin list makes. -/
def State.qbvNew (s : State) (p : Nat) : QbvX :=
  let c := s.fld (uEP p) 0x204 29 0
  ⟨s.qbvAdmin p, if c = 0 then max 1 ((s.qbvAdmin p).foldl (fun a w => a + entryNs w) 0) else c, s.qbvBase p, s.qbvBase p, 0, false⟩

theorem qbvTake_eq (s : State) (p : Nat) :
    s.qbvTake p = (s.setQbvX p (s.qbvNew p)).wr (uEP p) 0x210 (w32 (s.qbvAdmin p).length) := rfl

theorem qbvTake_qbvX (s : State) (p : Nat) : (s.qbvTake p).qbvX p = s.qbvNew p := by
  rw [qbvTake_eq]
  exact SMap.get_set_same ..

theorem qbvTake_length (s : State) (p : Nat) : (s.qbvTake p).rd (uEP p) 0x210 = w32 (s.qbvAdmin p).length := by
  rw [qbvTake_eq, rd_wr_same]

theorem foldl_lengths (l : List (Word × Nat)) (n : Nat) : l.foldl (fun a e => a + e.2) n = n + (l.map (·.2)).sum := by
  induction l generalizing n with
  | nil => rfl
  | cons e t ih => rw [List.foldl_cons, ih, List.map_cons, List.sum_cons, Nat.add_assoc]

/-- The entry in force is the one in whose span the time since the cycle's start lies. -/
theorem entryAt_index {l : List (Word × Nat)} {i r k : Nat} (lt : k < l.length) (from_ : ((l.take k).map (·.2)).sum ≤ r)
    (upto : r < ((l.take (k + 1)).map (·.2)).sum) : (entryAt l i r).1 = i + k := by
  induction l generalizing i r k with
  | nil => exact absurd lt (Nat.not_lt_zero k)
  | cons e t ih =>
    rw [List.take_succ_cons, List.map_cons, List.sum_cons] at upto
    cases k with
    | zero =>
      have here : r < e.2 := by simpa using upto
      exact congrArg Prod.fst (if_pos here)
    | succ k =>
      rw [List.take_succ_cons, List.map_cons, List.sum_cons] at from_
      have past : ¬r < e.2 := by omega
      have rest : (entryAt t (i + 1) (r - e.2)).1 = i + 1 + k := ih (Nat.lt_of_succ_lt_succ lt) (by omega) (by omega)
      exact (congrArg Prod.fst (if_neg past)).trans (by rw [rest]; omega)

theorem place_index {x : QbvX} {now k : Nat} (started : x.since ≤ now) (lt : k < x.cut.length)
    (from_ : (x.cut.take k).foldl (fun a e => a + e.2) 0 ≤ (now - x.base) % x.cycle)
    (upto : (now - x.base) % x.cycle < (x.cut.take (k + 1)).foldl (fun a e => a + e.2) 0) : (x.place now).1 = k := by
  rw [foldl_lengths, Nat.zero_add] at from_ upto
  refine (congrArg Prod.fst (if_neg (Nat.not_lt.mpr started))).trans ?_
  exact (entryAt_index lt from_ upto).trans (Nat.zero_add k)

theorem exec_qbvSwap {ini p v : Nat} (lt : p < 4) {s : State} (admits : s.Admits ini (uEP p) 0x200 (setBit (w32 v) 30 true) false)
    (swap : bit (setBit (w32 v) 30 true) 30 = true) : exec (.qbvSwap ini p v) s =
      .next ((((s.qbvSync p).wr (uEP p) 0x200 (setBit (setBit (w32 v) 30 true) 30 false)).qbvSwap p).ethKick p) := by
  have e : exec (.qbvSwap ini p v) s = .next (s.guarded ini (uEP (p % 4)) 0x200 (setBit (w32 v) 30 true) false fun q =>
    q.qbvCtl (p % 4) (setBit (w32 v) 30 true)) := rfl
  rw [e, Nat.mod_eq_of_lt lt, guarded_of_admits admits]
  unfold State.qbvCtl
  dsimp only
  rw [if_pos swap]

/-! ### The general rings (R469, R484) -/

theorem exec_configureGeneralRings {args : List Word} (lt : arg args 0 < 4) {s : State} (free : s.claimed (uEP (arg args 0)) = false)
    (client : arg args 1 ≤ 4095) (en : arg args 5 ≤ 1) (ini : Nat) : exec (.configureGeneralRings ini args) s = .next (
      if arg args 5 = 0 then ((s.setFlag (uEP (arg args 0)) 0x118 31 false).setGenRing (arg args 0) GenRing.init).ret OK
      else if !s.clientValid (arg args 1) || 16 < arg args 4 || argAddr args 2 % 2048 != 0 ||
        !inRegion s.part (argAddr args 2) (2048 * 2 ^ arg args 4) (· = .lpddr) || fwRegion s.part (argAddr args 2 + 2048 * 2 ^ arg args 4 - 1)
        then s.ret RANGE
      else ((s.wr (uEP (arg args 0)) 0x118 (w32 (2 ^ 31 + arg args 1))).setGenRing (arg args 0)
        ⟨arg args 1, argAddr args 2, arg args 4, 0, true⟩).ret OK) := by
  have e : exec (.configureGeneralRings ini args) s = .next (callConfigureRings args s) := rfl
  rw [e]
  unfold callConfigureRings
  dsimp only
  rw [if_neg (by omega), if_neg (Bool.eq_false_iff.mp free), if_neg (by simp only [Bool.or_eq_true, decide_eq_true_eq]; omega)]

/-! ### CAN objects (R475–R478) -/

section
variable {s : State} {c o : Nat}

theorem exec_canObjReq {ini v : Nat} {w : Word} (c_lt : c < 4) (o_lt : o < 512) (is : w = setBit (w32 v) 28 true)
    (admits : s.Admits ini (uCN c) (objOff o + 4) (setBits w 24 23 0 &&& 0xDE7FFFFF ||| 0x10000000) false) :
    exec (.canObjReq ini c o v) s = .next (s.objCtlWrite ini c o w) := by
  subst is
  have e : exec (.canObjReq ini c o v) s = .next (s.guarded ini (uCN (c % 4)) (objOff (o % 512) + 4)
    (setBits (setBit (w32 v) 28 true) 24 23 0 &&& 0xDE7FFFFF ||| 0x10000000) false fun q =>
      q.objCtlWrite ini (c % 4) (o % 512) (setBit (w32 v) 28 true)) := rfl
  rw [e, Nat.mod_eq_of_lt c_lt, Nat.mod_eq_of_lt o_lt, guarded_of_admits admits]

theorem objCtlWrite_busy {ini : Nat} {w : Word} (req : bit w 28 = true) (busy : s.objPending c o = true) :
    s.objCtlWrite ini c o w = s.accError ini (regAddr (uCN c) (objOff o + 4)) .check :=
  if_pos (by rw [busy, req, Bool.or_true]; rfl)

theorem objCtlWrite_asks {ini : Nat} {w : Word} (req : bit w 28 = true) (idle : s.objPending c o = false) {t : State}
    (asked : (s.objCtlStore c o w).canReq c o = (t, true)) : s.objCtlWrite ini c o w = t := by
  refine (if_neg (by rw [idle, Bool.false_and]; exact Bool.false_ne_true)).trans ((if_pos req).trans ?_)
  rw [asked]
  rfl

theorem exec_canTxLateExpiry (c_lt : c < 4) (o_lt : o < 512) (busy : s.objPending c o = true) (timed : bit (s.objCtl c o) 27 = true) :
    exec (.canTxLateExpiry c o) s = .next (s.canLate c o) := by
  have e : exec (.canTxLateExpiry c o) s = .next (if s.objPending (c % 4) (o % 512) && bit (s.objCtl (c % 4) (o % 512)) 27 then
    s.canLate (c % 4) (o % 512) else s) := rfl
  rw [e, Nat.mod_eq_of_lt c_lt, Nat.mod_eq_of_lt o_lt, if_pos (by rw [busy, timed]; rfl)]

theorem canRecover_off (off : s.canState c = 2) : s.canRecover c = (s.setFld (uCN c) 0x10C 31 30 3, true) := if_pos off
theorem canRecover_on (on : s.canState c ≠ 2) : s.canRecover c = (s, false) := if_neg on

theorem exec_cnCmdRecover {ini : Nat} (c_lt : c < 4) (admits : s.Admits ini (uCN c) 0x110 0x20000000 false) :
    exec (.cnCmdRecover ini c) s = .next (State.orRefuse (s.canRecover c) ini (regAddr (uCN c) 0x110)) := by
  have e : exec (.cnCmdRecover ini c) s = .next (s.guarded ini (uCN (c % 4)) 0x110 0x20000000 false fun q =>
    State.orRefuse (q.canRecover (c % 4)) ini (regAddr (uCN (c % 4)) 0x110)) := rfl
  rw [e, Nat.mod_eq_of_lt c_lt, guarded_of_admits admits]

theorem exec_canRecoveryDone (c_lt : c < 4) (recovering : s.canState c = 3) : exec (.canRecoveryDone c) s =
    .next ((((s.setFld (uCN c) 0x10C 31 30 0).setFld (uCN c) 0x10C 24 8 0).finish 0x090C c OK).canIdle c) := by
  have e : exec (.canRecoveryDone c) s = .next (s.canRecovered (c % 4)) := rfl
  rw [e, Nat.mod_eq_of_lt c_lt]
  exact congrArg Host.Outcome.next (if_neg (by rw [recovering]; decide))

theorem exec_cnCmdAbort {ini : Nat} (c_lt : c < 4) (o_lt : o < 512) (admits : s.Admits ini (uCN c) 0x110 (w32 (0x40000000 + o)) false) :
    exec (.cnCmdAbort ini c o) s = .next (s.canAbort c o) := by
  have e : exec (.cnCmdAbort ini c o) s = .next (s.guarded ini (uCN (c % 4)) 0x110 (w32 (0x40000000 + o % 512)) false fun q =>
    q.canAbort (c % 4) (o % 512)) := rfl
  rw [e, Nat.mod_eq_of_lt c_lt, Nat.mod_eq_of_lt o_lt, guarded_of_admits admits]

theorem canAbort_waiting (busy : s.objPending c o = true) (free : (s.canX c).offer = none) : s.canAbort c o = s.canDrop c o := by
  unfold State.canAbort
  simp only [free, busy, Bool.not_true, Bool.or_false, Bool.false_eq_true, if_false]

theorem canAbort_sending {h : Word} {d : List Word} (own : (s.canX c).offer = some (o, h, d)) (sent : (s.canX c).onBus = true) :
    s.canAbort c o = s := by
  unfold State.canAbort
  simp only [own, sent, decide_true, Bool.and_true, Bool.true_or, if_true]

/-! ### Frames that come to a controller, frames that it sent (R475–R477) -/

theorem exec_canFrameReceive (c_lt : c < 4) (ide rtr fdf brs esi : Bool) (id sof : Nat) {dlc : Nat} (dlc_lt : dlc < 16) (data : List Word) :
    exec (.canFrameReceive c ide rtr fdf brs esi id dlc sof data) s = .next (s.canReceive c ide rtr fdf brs esi id dlc sof data) := by
  have e : exec (.canFrameReceive c ide rtr fdf brs esi id dlc sof data) s =
    .next (s.canReceive (c % 4) ide rtr fdf brs esi id (dlc % 16) sof data) := rfl
  rw [e, Nat.mod_eq_of_lt c_lt, Nat.mod_eq_of_lt dlc_lt]

/-- A good frame comes: the one on offer has lost, the receive error count falls. -/
def State.canHears (s : State) (c : Nat) : State :=
  let l := s.canLost c
  (l.setFld (uCN c) 0x10C 15 8 (l.fld (uCN c) 0x10C 15 8 - 1)).canLevel c

/-- The receive object of an identifier. -/
def State.canTaker (t : State) (c key : Nat) : Option Nat :=
  (t.objsOn c).find? fun o => !bit (t.rd (uCN c) (objOff o)) 30 && objKey (t.rd (uCN c) (objOff o)) = key

/-- A frame replaces the header fields and the data of its object. -/
def State.canPut (t : State) (c o : Nat) (fdf brs esi : Bool) (dlc sof : Nat) (data : List Word) : State :=
  let u := uCN c
  let old := t.objCtl c o
  let v := setBits (setBits (setBits (setBits (setBits (setBit old 31 true) 26 26 (b2n fdf)) 25 25 (b2n brs)) 24 24 (b2n esi)) 19 16 dlc)
    15 0 (sof / nsPerS)
  let w := if bit old 31 then (t.wr u (objOff o + 4) (setBit v 30 true)).count u 0x120 1 else t.wr u (objOff o + 4) v
  let put := (List.range 16).foldl (fun q i => if 4 * i < dlcBytes fdf dlc then q.wr u (dataOff o + 4 * i) (nth data i 0) else q)
    (w.wr u (objOff o + 8) (w32 (sof % nsPerS)))
  (put.countF u (objOff o + 12) 15 0 1).count u 0x114 1

/-- What a frame with data does, by the object that its identifier has, if any. -/
def State.canTakes (t : State) (c : Nat) (r : Option Nat) (fdf brs esi : Bool) (dlc sof : Nat) (data : List Word) : State :=
  match r with
  | none => t.count (uCN c) 0x11C 1
  | some o => t.canPut c o fdf brs esi dlc sof data

theorem canReceive_eq {ide rtr fdf brs esi : Bool} {id dlc sof : Nat} {data : List Word} (on : s.canEn c = true) (active : s.canState c < 2)
    {r : Option Nat} (is : (s.canHears c).canTaker c (b2n ide * 2 ^ 29 + id % (if ide then 2 ^ 29 else 2 ^ 11)) = r) :
    s.canReceive c ide rtr fdf brs esi id dlc sof data =
      if rtr then ((s.canHears c).count (uCN c) 0x134 1).canIdle c
      else ((s.canHears c).canTakes c r fdf brs esi dlc sof data).canIdle c := by
  have runs : ¬(!s.canEn c || decide (2 ≤ s.canState c)) = true := by
    rw [on, decide_eq_false (Nat.not_le.mpr active)]
    decide
  unfold State.canReceive
  unfold State.canTaker State.canHears at is
  unfold State.canHears State.canTakes State.canPut
  dsimp only at is ⊢
  rw [if_neg runs, is]
  cases rtr with
  | true => rw [if_pos rfl, if_pos rfl]
  | false =>
    refine Eq.trans ?_ (if_neg Bool.false_ne_true).symm
    refine congrArg (State.canIdle · c) ((if_neg Bool.false_ne_true).trans ?_)
    cases r <;> rfl

theorem exec_canTxDone (c_lt : c < 4) (sof : Nat) : exec (.canTxDone c sof) s = .next (s.canSent c sof) := by
  have e : exec (.canTxDone c sof) s = .next (s.canSent (c % 4) sof) := rfl
  rw [e, Nat.mod_eq_of_lt c_lt]

/-- A frame was sent: its object takes the start of frame and counts it. -/
def State.canStamped (s : State) (c o sof : Nat) : State :=
  (((s.setFld (uCN c) (objOff o + 4) 15 0 (sof / nsPerS)).wr (uCN c) (objOff o + 8) (w32 (sof % nsPerS))).countF (uCN c)
    (objOff o + 12) 15 0 1).count (uCN c) 0x118 1

theorem canSent_offered {h : Word} {d : List Word} (own : (s.canX c).offer = some (o, h, d)) (sof : Nat) :
    s.canSent c sof = ((((s.canStamped c o sof).setFld (uCN c) 0x10C 24 16 ((s.canStamped c o sof).fld (uCN c) 0x10C 24 16 - 1)).canLevel
      c).canDrop c o).canIdle c := by
  unfold State.canSent
  rw [own]
  rfl

theorem canSent_none (none : (s.canX c).offer = none) (sof : Nat) : s.canSent c sof = if (s.canX c).onBus then s.canIdle c else s := by
  unfold State.canSent
  rw [none]

/-! ### Bus errors (R479) -/

/-- A bus error's code and the error counts that it leaves. -/
def State.canErred (s : State) (c err tec rec : Nat) : State :=
  (((s.setFld (uCN c) 0x10C 28 25 err).countF (uCN c) 0x124 15 0 1).setFld (uCN c) 0x10C 24 16 (min tec 511)).setFld (uCN c) 0x10C 15 8
    (min rec 255)

/-- A controller goes bus-off. -/
def State.canBusOff (t : State) (c : Nat) : State :=
  let w := (t.setFld (uCN c) 0x10C 31 30 2).countF (uCN c) 0x124 31 16 1
  let w := w.setCanX c { w.canX c with offer := none, onBus := false }
  w.post (w.canClient c) 0x0033 (uCN c) noQueue 0 c (w.fld (uCN c) 0x10C 24 8 * 256)

theorem exec_canBusError {err : Nat} (c_lt : c < 4) (err_lt : err < 7) (on : s.canEn c = true) (active : s.canState c < 2)
    (tec rec : Nat) (tx : Bool) : exec (.canBusError c err tec rec tx) s = .next (
      let t := if tx then (s.canErred c err tec rec).canLost c else s.canErred c err tec rec
      if 255 < tec then t.canBusOff c else if tx then (t.canLevel c).canIdle c else t.canLevel c) := by
  have e : exec (.canBusError c err tec rec tx) s = .next (s.canError (c % 4) (err % 7) tec rec tx) := rfl
  rw [e, Nat.mod_eq_of_lt c_lt, Nat.mod_eq_of_lt err_lt]
  refine congrArg Host.Outcome.next ((if_neg ?_).trans rfl)
  rw [on, decide_eq_false (Nat.not_le.mpr active)]
  decide

theorem canStatus_erred (err tec rec : Nat) : (s.canErred c err tec rec).rd (uCN c) 0x10C =
    setBits (setBits (setBits (s.rd (uCN c) 0x10C) 28 25 err) 24 16 (min tec 511)) 15 8 (min rec 255) := by
  have other : rk (uCN c) 0x10C ≠ rk (uCN c) 0x124 := by unfold rk; omega
  unfold State.canErred State.countF
  rw [State.setFld, rd_wr_same, State.setFld, rd_wr_same, rd_wr_ne _ _ _ _ _ _ other, State.setFld, rd_wr_same]

theorem canState_erred (err tec rec : Nat) : (s.canErred c err tec rec).canState c = s.canState c := by
  unfold State.canState State.fld
  rw [canStatus_erred, bits_setBits_above _ _ _ _ _ _ (by decide) (by decide) (by decide),
    bits_setBits_above _ _ _ _ _ _ (by decide) (by decide) (by decide), bits_setBits_above _ _ _ _ _ _ (by decide) (by decide) (by decide)]

theorem tec_erred (err tec rec : Nat) : (s.canErred c err tec rec).fld (uCN c) 0x10C 24 16 = min tec 511 := by
  unfold State.fld
  rw [canStatus_erred, bits_setBits_above _ _ _ _ _ _ (by decide) (by decide) (by decide), bits_setBits_same _ _ _ _ (by decide) (by decide)]
  exact Nat.mod_eq_of_lt (by omega)

theorem rec_erred (err tec rec : Nat) : (s.canErred c err tec rec).fld (uCN c) 0x10C 15 8 = min rec 255 := by
  unfold State.fld
  rw [canStatus_erred, bits_setBits_same _ _ _ _ (by decide) (by decide)]
  exact Nat.mod_eq_of_lt (by omega)

/-- The level that the error counts give: passive above 127 of either. -/
theorem canLevel_erred {err tec rec : Nat} (active : s.canState c < 2) (le : tec ≤ 255) : (s.canErred c err tec rec).canLevel c =
    (s.canErred c err tec rec).setFld (uCN c) 0x10C 31 30 (b2n (127 < tec || 127 < rec)) := by
  have transmit : min tec 511 = tec := Nat.min_eq_left (by omega)
  have receive : decide (127 < min rec 255) = decide (127 < rec) := decide_eq_decide.mpr (by omega)
  refine (if_neg ?_).trans ?_
  · rw [canState_erred]
    exact Nat.not_le.mpr active
  · rw [tec_erred, rec_erred, transmit, receive]

/-! ### Calls on the controllers (R484) -/

theorem exec_configureCanController {ini : Nat} {args : List Word} (is : arg args 0 = c) (c_lt : c < 4) (free : s.claimed (uCN c) = false)
    (ctl : andN (nth args 1 0) 0x0FFFFFFF = 0) (nominal : andN (nth args 2 0) 0x3E0 = 0) (fast : andN (nth args 3 0) 0xFE0 = 0)
    (some : 1 ≤ arg args 4) (few : arg args 4 ≤ 65535) (off : s.canEn c = false) : exec (.configureCanController ini args) s =
      .next (((((s.wr (uCN c) 0x104 (nth args 2 0)).wr (uCN c) 0x108 (nth args 3 0)).wr (uCN c) 0x12C (w32 (arg args 4))).canEnable
        c (nth args 1 0)).ret OK) := by
  subst is
  have e : exec (.configureCanController ini args) s = .next (callConfigureCan ini args s) := rfl
  rw [e]
  unfold callConfigureCan
  dsimp only
  rw [if_neg (by omega), if_neg (Bool.eq_false_iff.mp free), if_neg, if_neg]
  · rw [off, Bool.false_and]
    exact Bool.false_ne_true
  · rw [ctl, nominal, fast, decide_eq_false (by omega), decide_eq_false (by omega)]
    decide

theorem exec_writeCanObject {ini : Nat} {args : List Word} (is : arg args 0 = c) (isO : arg args 1 = o) (c_lt : c < 4) (o_lt : o < 512)
    (free : s.claimed (uCN c) = false) (store : arg args 22 = 0) (idle : s.objPending c o = false) (time : bits (nth args 4 0) 31 30 = 0)
    (plain : bits (nth args 3 0) 21 20 = 0) : exec (.writeCanObject ini args) s = .next (
      if s.idTaken c o (nth args 2 0) then s.ret ID_TAKEN
      else ((List.range 16).foldl (fun t i => t.wr (uCN c) (dataOff o + 4 * i) (nth args (6 + i) 0))
        (((s.wr (uCN c) (objOff o) (nth args 2 0)).objCtlStore c o (setBit (nth args 3 0) 28 false)).wr (uCN c) (objOff o + 8)
          (nth args 4 0))).ret OK) := by
  subst is isO
  have e : exec (.writeCanObject ini args) s = .next (callWriteCanObject ini args s) := rfl
  have inRange : (decide (4 ≤ arg args 0) || decide (512 ≤ arg args 1)) = false := by
    rw [decide_eq_false (by omega), decide_eq_false (by omega)]
    rfl
  rw [e]
  unfold callWriteCanObject
  dsimp only
  rw [inRange, if_neg Bool.false_ne_true, if_neg (Bool.eq_false_iff.mp free), store, idle, time, plain, if_neg (by decide)]
  exact congrArg Host.Outcome.next (if_congr Iff.rfl rfl (if_neg (by decide)))

theorem exec_recoverCanController {ini : Nat} {args : List Word} (is : arg args 0 = c) (c_lt : c < 4) (free : s.claimed (uCN c) = false)
    (idle : s.callWaits 0x090C c = false) : exec (.recoverCanController ini args) s = .next (
      if (s.canRecover c).2 then (s.canRecover c).1.retPending 0x090C c else (s.canRecover c).1.ret NOT_BUS_OFF) := by
  subst is
  have e : exec (.recoverCanController ini args) s = .next (callRecoverCan ini args s) := rfl
  rw [e]
  unfold callRecoverCan
  dsimp only
  rw [if_neg (by omega), if_neg (Bool.eq_false_iff.mp free), if_neg (Bool.eq_false_iff.mp idle)]

end

/-- Settles O38: a frame's sort is decided once, with the wake taken; an entry in force is the one in whose span the cycle's time lies;
the status register's fields do not overlap. -/
theorem portsAndCan : Obligations.PortsAndCan := by
  unfold Obligations.PortsAndCan
  refine ⟨?ports, ?gates, ?rings, ?objects, ?hears, ?sends, ?calls⟩
  case ports =>
    intro p d k m o y s lt on t
    refine ⟨(exec_ethFrameReceive lt d false k m o y on).trans (by rw [if_neg Bool.false_ne_true]), fun w is => ?_,
      fun busy => exec_ethFrameSent lt busy, (exec_ethLinkChange lt false s).trans (congrArg Host.Outcome.next (ethLink_goes s p)),
      fun was => (exec_ethLinkChange lt true s).trans (congrArg Host.Outcome.next (ethLink_stays was)),
      fun was => (exec_ethLinkChange lt true s).trans (congrArg Host.Outcome.next (ethLink_comes was))⟩
    have sorts : exec (.ethFrameReceive p d true k m o y) s = .next (t.ethSort p d k m o y) :=
      (exec_ethFrameReceive lt d true k m o y on).trans (by rw [if_pos rfl])
    refine ⟨fun g kd ws f axis found => sorts.trans (congrArg Host.Outcome.next (ethSort_axis k m o y is axis found)), fun axis => ?_⟩
    have other := ethSort_other (p := p) (d := d) (w := w) k m o y is axis
    refine ⟨fun ptp one => ?_, fun ptp two => ?_, fun ptp wake => ⟨fun bad => ?_, fun ring fits => ?_⟩⟩
    · subst one
      exact sorts.trans (congrArg Host.Outcome.next (other.trans (if_pos ptp)))
    · subst two
      exact sorts.trans (congrArg Host.Outcome.next (other.trans (if_pos ptp)))
    · exact sorts.trans (congrArg Host.Outcome.next (other.trans ((if_neg (Bool.eq_false_iff.mp ptp)).trans
        ((if_neg (Bool.eq_false_iff.mp wake)).trans (genStore_dropped bad)))))
    · exact sorts.trans (congrArg Host.Outcome.next (other.trans ((if_neg (Bool.eq_false_iff.mp ptp)).trans
        ((if_neg (Bool.eq_false_iff.mp wake)).trans (genStore_stores ring fits)))))
  case gates =>
    intro ini p v s lt x base admin
    obtain ⟨schedule, length⟩ := ethKick_keeps s p
    refine ⟨fun waits => ⟨exec_qbvGateEntryEnd lt s, _, exec_qbvGateEntryEnd lt s, ?_⟩, fun swap due => ⟨_, exec_qbvGateEntryEnd lt s, ?_⟩,
      fun now k started _ lt' from_ upto => ?_, ?_⟩
    · exact (qbvX_of_qbv schedule p).trans (by rw [qbvSync_waits waits])
    · have taken : (s.ethKick p).qbvX p = s.qbvNew p :=
        (qbvX_of_qbv schedule p).trans (by rw [qbvSync_takes swap due, qbvTake_qbvX])
      dsimp only
      rw [taken]
      refine ⟨rfl, rfl, rfl, length.trans (by rw [qbvSync_takes swap due]; exact qbvTake_length s p), fun given => if_neg given⟩
    · have index := place_index started lt' from_ upto
      exact ⟨index, fun cls => by rw [QbvX.isOpen, index]⟩
    · intro admits u swap
      exact exec_qbvSwap lt admits swap
  case rings =>
    intro ini args s n a lt free client
    refine ⟨fun off => ?_, fun on valid order aligned inside outside => ?_⟩
    · exact (exec_configureGeneralRings lt free client (off.trans_le (Nat.zero_le 1)) ini).trans (congrArg Host.Outcome.next (if_pos off))
    · refine (exec_configureGeneralRings lt free client (Nat.le_of_eq on) ini).trans (congrArg Host.Outcome.next
        ((if_neg (fun z => absurd (on.symm.trans z) (by decide))).trans (if_neg ?_)))
      rw [show s.clientValid (arg args 1) = true from valid, show argAddr args 2 % 2048 = 0 from aligned,
        show inRegion s.part (argAddr args 2) (2048 * 2 ^ arg args 4) (· = .lpddr) = true from inside,
        show fwRegion s.part (argAddr args 2 + 2048 * 2 ^ arg args 4 - 1) = false from outside,
        decide_eq_false (Nat.not_lt.mpr (show arg args 4 ≤ 16 from order))]
      decide
  case objects =>
    intro ini c o v s c_lt o_lt u w
    refine ⟨fun admits req => ?_, fun busy timed => ?_, fun admits => ⟨fun off => ?_, fun on => ?_⟩,
      fun recovering => exec_canRecoveryDone c_lt recovering, fun admits busy => ⟨fun free => ?_, fun h d own sent => ?_⟩⟩
    · have asks := exec_canObjReq c_lt o_lt rfl admits
      exact ⟨fun busy => asks.trans (congrArg Host.Outcome.next (objCtlWrite_busy req busy)),
        fun idle t asked => asks.trans (congrArg Host.Outcome.next (objCtlWrite_asks req idle asked))⟩
    · exact exec_canTxLateExpiry c_lt o_lt busy timed
    · exact (exec_cnCmdRecover c_lt admits).trans (by rw [canRecover_off off]; rfl)
    · exact (exec_cnCmdRecover c_lt admits).trans (by rw [canRecover_on on]; rfl)
    · exact (exec_cnCmdAbort c_lt o_lt admits).trans (congrArg Host.Outcome.next (canAbort_waiting busy free))
    · exact (exec_cnCmdAbort c_lt o_lt admits).trans (congrArg Host.Outcome.next (canAbort_sending own sent))
  case hears =>
    intro c ide rtr fdf brs esi id dlc sof data s c_lt dlc_lt on active u l t key at_
    have gate := exec_canFrameReceive (s := s) c_lt ide rtr fdf brs esi id sof dlc_lt data
    have hears : ∀ r, at_ = r → s.canReceive c ide rtr fdf brs esi id dlc sof data =
        if rtr then (t.count u 0x134 1).canIdle c else (t.canTakes c r fdf brs esi dlc sof data).canIdle c :=
      fun r is => canReceive_eq on active is
    refine ⟨?_, ?_, ?_⟩
    · rintro rfl
      exact gate.trans (congrArg Host.Outcome.next ((hears _ rfl).trans (if_pos rfl)))
    · rintro rfl none
      exact gate.trans (congrArg Host.Outcome.next ((hears _ none).trans (if_neg Bool.false_ne_true)))
    · rintro rfl o found
      exact gate.trans (congrArg Host.Outcome.next ((hears _ found).trans (if_neg Bool.false_ne_true)))
  case sends =>
    intro c sof err tec rec o tx h d s c_lt u
    refine ⟨fun own => ?_, fun none => ?_, fun on active err_lt => ?_⟩
    · exact (exec_canTxDone c_lt sof).trans (congrArg Host.Outcome.next (canSent_offered own sof))
    · exact (exec_canTxDone c_lt sof).trans (congrArg Host.Outcome.next (canSent_none none sof))
    · have gate := exec_canBusError c_lt err_lt on active tec rec tx
      refine ⟨?_, ?_, ?_⟩
      · rintro above rfl
        exact gate.trans (congrArg Host.Outcome.next (if_pos above))
      · rintro le rfl
        exact gate.trans (congrArg Host.Outcome.next ((if_neg (Nat.not_lt.mpr le)).trans
          ((if_neg Bool.false_ne_true).trans (canLevel_erred active le))))
      · rintro le rfl
        exact gate.trans (congrArg Host.Outcome.next ((if_neg (Nat.not_lt.mpr le)).trans (if_pos rfl)))
  case calls =>
    intro ini args s c o u c_lt free
    refine ⟨fun ctl nominal fast some few off => exec_configureCanController rfl c_lt free ctl nominal fast some few off,
      fun o_lt store idle time plain => ?_, fun idle => ?_⟩
    · have gate := exec_writeCanObject (ini := ini) rfl rfl c_lt o_lt free store idle time plain
      refine ⟨fun taken => gate.trans (congrArg Host.Outcome.next (if_pos taken)), ?_⟩
      intro clear t
      exact gate.trans (congrArg Host.Outcome.next (if_neg (Bool.eq_false_iff.mp clear)))
    · have gate := exec_recoverCanController (ini := ini) rfl c_lt free idle
      exact ⟨fun off => gate.trans (by rw [canRecover_off off, if_pos rfl]),
        fun on => gate.trans (by rw [canRecover_on on, if_neg Bool.false_ne_true])⟩

end Sys2Proof.Machine

namespace Sys2Proof.Machine

/-! ## Vats (O41) -/

/-! ### Live streams (R320–R325) -/

section
variable {s t : State} {v : Nat}

theorem exec_liveEnableWrite {ini w : Nat} (lt : v < 2) (admits : s.Admits ini (uVat v) 0x108 (w32 w) false) :
    exec (.liveEnableWrite ini v w) s = .next (
      if !bit (w32 w) 0 then (s.wr (uVat v) 0x108 (w32 w)).liveOff v
      else if s.flag (uVat v) 0x108 0 then s.accError ini (regAddr (uVat v) 0x108) .check
      else if (s.liveOn v ((w32 w).toNat / 64 * 64 + 2 ^ 32 * s.fld (uVat v) 0x10C 15 0)).2.isNone then
        (s.liveOn v ((w32 w).toNat / 64 * 64 + 2 ^ 32 * s.fld (uVat v) 0x10C 15 0)).1
      else (s.liveOn v ((w32 w).toNat / 64 * 64 + 2 ^ 32 * s.fld (uVat v) 0x10C 15 0)).1.accError ini (regAddr (uVat v) 0x108) .check) := by
  have e : exec (.liveEnableWrite ini v w) s = .next (s.liveWrite ini (v % 2) (w32 w)) := rfl
  rw [e, Nat.mod_eq_of_lt lt]
  unfold State.liveWrite
  rw [guarded_of_admits admits]

/-- The stream is on with a descriptor that passes. -/
def State.liveBound (t : State) (v a : Nat) (d : List Byte) : State :=
  let x := t.vat v
  let u := t.setVat v { x with live := { x.live with desc := d, next := 0, roiV := none, snap := none } }
  ((u.wr (uVat v) 0x108 (w32 (a % 2 ^ 32 + 1))).wr (uVat v) 0x10C (w32 (a / 2 ^ 32 % 2 ^ 16))).vatSync v

theorem liveOn_refused {a o : Nat} {d : List Byte} (read : s.vatDesc v a = (t, some d)) (bad : t.liveBad v d = some o) :
    s.liveOn v a = (t, some o) := by
  unfold State.liveOn
  simp only [read, bad]

theorem liveOn_binds {a : Nat} {d : List Byte} (read : s.vatDesc v a = (t, some d)) (ok : t.liveBad v d = none) :
    s.liveOn v a = (t.liveBound v a d, none) := by
  unfold State.liveOn State.liveBound
  simp only [read, ok]

/-- How many frames the camera's mark is ahead of the next frame. -/
def State.liveAhead (s : State) (v : Nat) : Nat :=
  (s.mark (dn (s.vat v).live.desc 0x14 2) + 2 ^ 32 - (s.vat v).live.next % 2 ^ 32) % 2 ^ 32

/-- The newest complete frame is being made. -/
def State.liveBegun (s : State) (v : Nat) : State :=
  let x := s.vat v
  let n := x.live.next + s.liveAhead v - 1
  (s.count (uVat v) 0x138 (s.liveAhead v - 1)).setVat v { x with live := { x.live with next := n + 1, frame := some n, wq := [], bad := false } }

/-- Where the rows of frame n lie. -/
def liveRows (d : List Byte) (n : Nat) : List Nat :=
  (List.range (dn d 0x10 1 % 16 * dn d 0x0E 2)).map fun k => (dn d 0 6 + n % (dn d 0x11 1 % 16 + 1) * dn d 8 4) + k * dn d 0x12 2

/-- The pixels of a frame's rows. -/
def livePixels (d : List Byte) (rows : List (List Byte)) (p y x : Nat) : Word :=
  nth (nth (rows.map fun r => (codesOf (dn d 0x10 1 / 16) (dn d 0x0C 2) r).map fun k => f32Enc (codeFlt (dn d 0x10 1 / 16) 0 k))
    (p * dn d 0x0E 2 + y) []) x 0

/-- The credits of the frames taken go back. -/
def State.liveCredited (w : State) (d : List Byte) (frames : Nat) : State :=
  if dn d 0x16 2 = 0xFFFF then w else w.addMark (dn d 0x16 2) (dn d 8 4 / 1024 * frames)

/-- What is to be written of a frame is written as far as credits go. -/
def State.liveQueued (y : State) (v clips : Nat) (wq : List (Nat × List (Option Byte))) : State :=
  let z := y.count (uVat v) 0x14C clips
  ((z.setVat v { z.vat v with live := { (z.vat v).live with wq := wq } }).liveDrain v).vatSync v

theorem liveTake_takes {dist : Nat} {d : List Byte} (isD : d = (s.vat v).live.desc) (isDist : dist = s.liveAhead v)
    (on : s.flag (uVat v) 0x108 0 = true) (idle : (s.vat v).live.frame = none) (runs : s.ustate (uVat v) = 0)
    (marked : s.mark (dn d 0x14 2) ≠ 0) (some : dist ≠ 0) (small : dist < 2 ^ 31)
    {t w : State} {roi : Option (List Byte)} {flags clips : Nat} {rows : List (List Byte)} {wq : List (Nat × List (Option Byte))}
    (snap : (s.liveBegun v).roiSnap v = (t, 0, roi, flags))
    (read : t.vatRows v (dn d 0x0C 2 * (if dn d 0x10 1 / 16 = 8 then 2 else 1)) (liveRows d ((s.vat v).live.next + dist - 1)) = (w, 0, rows))
    (bursts : (w.liveCredited d (dist - 1 + 1)).liveBursts d ((s.vat v).live.next + dist - 1) (dist - 1) roi flags (livePixels d rows) = (wq, clips)) :
    s.liveTake v = (w.liveCredited d (dist - 1 + 1)).liveQueued v clips wq := by
  subst isD isDist
  have goes : ¬(!s.flag (uVat v) 0x108 0 || (s.vat v).live.frame.isSome || s.ustate (uVat v) != 0 ||
      decide (s.mark (dn (s.vat v).live.desc 0x14 2) = 0) || decide (s.liveAhead v = 0) || decide (2 ^ 31 ≤ s.liveAhead v)) = true := by
    simp only [on, idle, runs, decide_eq_false marked, decide_eq_false some, decide_eq_false (Nat.not_le.mpr small)]
    decide
  unfold State.liveBegun State.liveAhead at *
  unfold State.liveCredited livePixels liveRows at *
  unfold State.liveQueued State.liveTake
  dsimp only at *
  rw [if_neg goes, snap]
  dsimp only
  rw [if_neg (show ¬((0 : Nat) != 0) = true by decide), read]
  dsimp only
  rw [if_neg (show ¬((0 : Nat) != 0) = true by decide), bursts]

theorem exec_liveFrameDone (lt : v < 2) (hs : Nat) (making : ((s.vat v).live.frame).isSome = true) {t : State} (is : t = s.liveDrain v) :
    exec (.liveFrameDone v hs) s = .next (
      if !(t.vat v).live.wq.isEmpty then t.vatSync v
      else
        let x := t.vat v
        let u := t.setVat v { x with live := { x.live with frame := none, bad := false } }
        (if x.live.bad then u else ((((u.markAfter (vatIni v) 0 0x10000000 (dn x.live.desc 0x22 2) true 1).count (uVat v) 0x134 1).wr (uVat v)
          0x164 (w32 (cap32 hs)))).maxTo (uVat v) 0x168 (cap32 hs)).vatSync v) := by
  subst is
  have e : exec (.liveFrameDone v hs) s = .next (s.liveDone (v % 2) hs) := rfl
  rw [e, Nat.mod_eq_of_lt lt]
  unfold State.liveDone
  rw [if_neg (by rw [Option.isNone_iff_eq_none]; exact Option.isSome_iff_ne_none.mp making)]

/-! ### Batch jobs (R334–R337, R349) -/

theorem jobCtl_busy {ini : Nat} (admits : s.Admits ini (uVat v) 0x118 (w32 1) false) (busy : s.jobOn v = true ∨ s.ustate (uVat v) ≠ 0) :
    s.jobCtl ini v 1 = s.accError ini (regAddr (uVat v) 0x118) .check := by
  refine (guarded_of_admits admits _).trans (if_pos ?_)
  rw [Bool.or_eq_true, bne_iff_ne]
  exact busy

theorem jobCtl_stop {ini : Nat} (admits : s.Admits ini (uVat v) 0x118 (w32 2) false) (on : s.jobOn v = true) :
    s.jobCtl ini v 2 = (s.setJob v fun j => { j with stopping := true }).vatSync v :=
  (guarded_of_admits admits _).trans (if_pos on)

theorem jobCtl_resume {ini : Nat} (admits : s.Admits ini (uVat v) 0x118 (w32 3) false) (stalled : s.jobStalled v = true) :
    s.jobCtl ini v 3 = (s.setJob v fun j => { j with stall := false }).jobGo v :=
  (guarded_of_admits admits _).trans (if_pos stalled)

theorem jobCtl_abort {ini : Nat} (admits : s.Admits ini (uVat v) 0x118 (w32 4) false) (on : s.jobOn v = true) :
    s.jobCtl ini v 4 = s.jobEnd v 0 0 :=
  (guarded_of_admits admits _).trans (if_pos on)

theorem exec_jobCtlStart {ini : Nat} (lt : v < 2) : exec (.jobCtlStart ini v) s = .next (s.jobCtl ini v 1) := by
  have e : exec (.jobCtlStart ini v) s = .next (s.jobCtl ini (v % 2) 1) := rfl
  rw [e, Nat.mod_eq_of_lt lt]
theorem exec_jobCtlStop {ini : Nat} (lt : v < 2) : exec (.jobCtlStop ini v) s = .next (s.jobCtl ini v 2) := by
  have e : exec (.jobCtlStop ini v) s = .next (s.jobCtl ini (v % 2) 2) := rfl
  rw [e, Nat.mod_eq_of_lt lt]
theorem exec_jobCtlResume {ini : Nat} (lt : v < 2) : exec (.jobCtlResume ini v) s = .next (s.jobCtl ini v 3) := by
  have e : exec (.jobCtlResume ini v) s = .next (s.jobCtl ini (v % 2) 3) := rfl
  rw [e, Nat.mod_eq_of_lt lt]
theorem exec_jobCtlAbort {ini : Nat} (lt : v < 2) : exec (.jobCtlAbort ini v) s = .next (s.jobCtl ini v 4) := by
  have e : exec (.jobCtlAbort ini v) s = .next (s.jobCtl ini (v % 2) 4) := rfl
  rw [e, Nat.mod_eq_of_lt lt]

/-! ### Decodes that end (R339–R341, R346) -/

theorem exec_sampleDecodeDone {i ns : Nat} {d : VDec} (lt : v < 2) (i_lt : i < 4)
    (found : (s.vat v).decs.find? (fun d => d.src = i && !d.done) = some d) :
    exec (.sampleDecodeDone v i ns) s = .next (s.decodeEnd v d ns d.res) := by
  have e : exec (.sampleDecodeDone v i ns) s = .next (s.decodeDone (v % 2) (i % 4) ns) := rfl
  rw [e, Nat.mod_eq_of_lt lt, Nat.mod_eq_of_lt i_lt]
  unfold State.decodeDone
  rw [found]

theorem exec_decodeDeferTimeout {j : VJob} (lt : v < 2) (job : (s.vat v).job = some j) (free : s.vatSb v = false) (going : j.closed = false)
    (few : ((s.vat v).decs.filter (·.deferred)).length < 3) (due : (s.vat v).decs.any (fun d => d.pos = j.due && !d.done && !d.deferred) = true) :
    exec (.decodeDeferTimeout v) s = .next ((((s.updDec v (·.pos = j.due) fun d => { d with deferred := true }).skip v j.due cDEFERRED).setJob v
      fun j => { j with due := j.due + 1 }).jobGo v) := by
  have e : exec (.decodeDeferTimeout v) s = .next (s.decodeDefer (v % 2)) := rfl
  rw [e, Nat.mod_eq_of_lt lt]
  unfold State.decodeDefer
  rw [job]
  exact congrArg Host.Outcome.next (if_neg (by rw [free, going, due, decide_eq_false (Nat.not_le.mpr few)]; decide))

theorem exec_decodeHardLimit (lt : v < 2) (pos : Nat) : exec (.decodeHardLimit v pos) s = .next (s.decodeHard v pos) := by
  have e : exec (.decodeHardLimit v pos) s = .next (s.decodeHard (v % 2) pos) := rfl
  rw [e, Nat.mod_eq_of_lt lt]

theorem decodeHard_early {pos : Nat} {d : VDec} (found : (s.vat v).decs.find? (fun d => d.pos = pos && !d.done) = some d)
    (sameBits : s.vatSb v = true) (early : d.res.du < s.vatHard v) : s.decodeHard v pos = s := by
  unfold State.decodeHard
  rw [found]
  refine if_pos ?_
  rw [sameBits, Bool.true_and, Bool.or_eq_true]
  exact .inr (decide_eq_true early)

theorem decodeHard_reached {pos : Nat} {d : VDec} (found : (s.vat v).decs.find? (fun d => d.pos = pos && !d.done) = some d)
    (reached : s.vatSb v = false ∨ ((∃ j, (s.vat v).job = some j ∧ j.due = pos) ∧ s.vatHard v ≤ d.res.du)) :
    s.decodeHard v pos = (s.updDec v (·.pos = pos) fun d => { d with done := true, res := .bad cTIMEOUT d.res.du }).jobGo v := by
  unfold State.decodeHard
  rw [found]
  dsimp only
  refine if_neg ?_
  rcases reached with free | ⟨⟨j, job, due⟩, late⟩
  · rw [free, Bool.false_and]
    exact Bool.false_ne_true
  · simp only [job, due, decide_eq_false (Nat.not_lt.mpr late), bne_self_eq_false, Bool.or_false, Bool.and_false]
    exact Bool.false_ne_true

theorem exec_hostDecodeDone {pos done ns : Nat} {raw : List Byte} {d : VDec} (lt : v < 2)
    (found : (s.vat v).decs.find? (fun d => d.src = 4 && d.pos = pos && !d.done) = some d) : exec (.hostDecodeDone v pos done ns raw) s = .next (
      if done = 1 then (s.count (uVat v) 0x148 1).decodeEnd v d ns (
        if (decodeRaw raw).cause != 0 then Decoded.bad cHOST 0
        else if s.cellarSize v < 32 + (decodeRaw raw).img.raw.length then Decoded.bad cSIZE 0 else ⟨0, (decodeRaw raw).img, 0⟩)
      else if done = 2 then s.decodeEnd v d ns (.bad cHOST 0) else s) := by
  have e : exec (.hostDecodeDone v pos done ns raw) s = .next (s.hostDone (v % 2) pos done ns raw) := rfl
  rw [e, Nat.mod_eq_of_lt lt]
  unfold State.hostDone
  rw [found]

theorem exec_vatFetchTimeoutExpiry (lt : v < 2) (runs : s.jobStalled v = false) :
    exec (.vatFetchTimeoutExpiry v) s = .next (s.jobEnd v fVAT_FETCH_TIMEOUT 0) := by
  have e : exec (.vatFetchTimeoutExpiry v) s = .next (if s.jobStalled (v % 2) then s else s.jobEnd (v % 2) fVAT_FETCH_TIMEOUT 0) := rfl
  rw [e, Nat.mod_eq_of_lt lt, if_neg (Bool.eq_false_iff.mp runs)]

theorem exec_batchDone (lt : v < 2) : exec (.batchDone v) s = .next (s.batchDone v) := by
  have e : exec (.batchDone v) s = .next (s.batchDone (v % 2)) := rfl
  rw [e, Nat.mod_eq_of_lt lt]

theorem batchDone_waits {j : VJob} {t : State} (is : t = s.jobDrain v) (job : (t.vat v).job = some j) (waits : j.closed = false ∨ j.wq ≠ []) :
    s.batchDone v = t.vatSync v := by
  subst is
  unfold State.batchDone
  dsimp only
  rw [job]
  exact if_pos (by rw [Bool.or_eq_true, Bool.not_eq_true', Bool.not_eq_true', List.isEmpty_eq_false_iff]; exact waits)

theorem batchDone_ends {j : VJob} {t : State} (is : t = s.jobDrain v) (job : (t.vat v).job = some j) (closed : j.closed = true)
    (made : j.wq = []) (last : j.last = true ∨ j.stopping = true) :
    s.batchDone v = ((t.markAfter (vatIni v) 0 0x10000000 (j.n 0x48 2) true 1).setJob v fun j => { j with made := j.made + 1 }).jobEnd v 0 0 := by
  subst is
  unfold State.batchDone
  dsimp only
  rw [job]
  refine (if_neg ?_).trans (if_pos ?_)
  · rw [closed, made]
    decide
  · rw [Bool.or_eq_true]
    exact last

/-! ### Calls (R350) -/

theorem vatCallFor_may {ini u : Nat} {client : Option Nat} (is : u = 0x90 + v) (isVat : unitClass (0x90 + v) = some .vat)
    (stands : s.exists? (0x90 + v) = true) (act : Nat → State → State) : s.vatCallFor ini u client act =
      if !s.vatMay ini v true client then s.ret DENIED else if s.claimed (0x90 + v) then s.ret CLAIMED else act v s := by
  subst is
  unfold State.vatCallFor
  dsimp only
  rw [Nat.add_sub_cancel_left, isVat, stands, if_neg (by decide), if_neg (by decide)]

theorem vatCall_open {ini u : Nat} (is : u = 0x90 + v) (isOpen : s.VatOpen ini v) (act : Nat → State → State) :
    s.vatCall ini u act = act v s := by
  obtain ⟨isVat, stands, may, free⟩ := isOpen
  subst is
  unfold State.vatCall
  rw [vatCallFor_may rfl isVat stands, Nat.add_sub_cancel_left, may, free, if_neg (by decide), if_neg (by decide)]

end

section
variable {ini v : Nat} {args : List Word} {s : State}

/-- What a call 0x0501 does that is let through. -/
theorem exec_setLiveStream (is : arg args 0 = 0x90 + v) (isOpen : s.VatOpen ini v) : exec (.setLiveStream ini args) s = .next (
    if 1 < arg args 3 then s.ret RANGE [3]
    else if arg args 3 = 0 then (s.liveOff v).ret OK
    else if s.flag (uVat v) 0x108 0 then s.ret VAT_BUSY
    else if argAddr args 1 % 64 != 0 then s.ret RANGE [1]
    else match s.liveOn v (argAddr args 1) with
      | (s, none) => s.ret OK
      | (s, some o) => s.ret RANGE [w32 o]) :=
  congrArg Host.Outcome.next (vatCall_open is isOpen _)

theorem exec_stopOrAbortJob (is : arg args 0 = 0x90 + v) (isOpen : s.VatOpen ini v) (known : arg args 1 ≤ 1) :
    exec (.stopOrAbortJob ini args) s = .next (
      if !s.jobOn v then s.ret OK
      else if arg args 1 = 1 then (s.jobEnd v 0 0).ret OK
      else if s.callWaits 0x0503 v then s.ret UNIT_BUSY
      else ((s.setJob v fun j => { j with stopping := true }).vatSync v).retPending 0x0503 v) :=
  congrArg Host.Outcome.next ((vatCall_open is isOpen _).trans (if_neg (Nat.not_lt.mpr known)))

theorem exec_resolveJobStall (is : arg args 0 = 0x90 + v) (isOpen : s.VatOpen ini v) (known : arg args 1 ≤ 1) :
    exec (.resolveJobStall ini args) s = .next (
      if !s.jobStalled v then s.ret NO_STALL
      else if arg args 1 = 1 then (s.jobEnd v 0 0).ret OK
      else ((s.setJob v fun j => { j with stall := false }).jobGo v).ret OK) :=
  congrArg Host.Outcome.next ((vatCall_open is isOpen _).trans (if_neg (Nat.not_lt.mpr known)))

/-- The Cellar is laid out at a, with n slots of m units, and emptied. -/
def State.cellarLaid (s : State) (v a m n : Nat) (on : Bool) : State :=
  ((((((s.wr (uVat v) 0x11C (w32 (a % 2 ^ 32))).wr (uVat v) 0x120 (w32 (a / 2 ^ 32 % 2 ^ 16))).wr (uVat v) 0x124
    (w32 ((m - 1) * 2 ^ 24 + n))).setFlag (uVat v) 0x104 0 on).retPending 0x0505 v).cellarDrop v none).finish 0x0505 v OK

theorem exec_configureCellar (is : arg args 0 = 0x90 + v) (isOpen : s.VatOpen ini v) (aligned : argAddr args 1 % 0x10000 = 0)
    (some : 1 ≤ arg args 3) (few : arg args 3 ≤ 256) (slots : arg args 4 < 2 ^ 24) (known : arg args 5 ≤ 1)
    (fits : cellarFits s.part (argAddr args 1) (arg args 3 * 0x10000) (arg args 4) = true) (off : s.jobOn v = false) :
    exec (.configureCellar ini args) s = .next (s.cellarLaid v (argAddr args 1) (arg args 3) (arg args 4) (arg args 5 = 1)) := by
  refine congrArg Host.Outcome.next ((vatCall_open is isOpen _).trans ((if_neg ?_).trans (if_neg (Bool.eq_false_iff.mp off))))
  rw [aligned, fits, decide_eq_false (by omega), decide_eq_false (by omega), decide_eq_false (Nat.not_le.mpr slots), decide_eq_false (by omega)]
  decide

theorem exec_invalidateCellar (is : arg args 0 = 0x90 + v) (isOpen : s.VatOpen ini v) : exec (.invalidateCellar ini args) s =
    .next (((s.retPending 0x0506 v).cellarDrop v (if arg args 1 = 0xFFFFFFFF then none else some (arg args 1))).finish 0x0506 v OK) :=
  congrArg Host.Outcome.next (vatCall_open is isOpen _)

theorem exec_setSlowDecodeLimits (is : arg args 0 = 0x90 + v) (isOpen : s.VatOpen ini v) (soft : 2 ≤ arg args 1) (hard : arg args 1 < arg args 2)
    (few : arg args 2 ≤ 1000) (ns : 1 ≤ arg args 3) (sec : arg args 3 ≤ 10 ^ 9) (units : 1 ≤ arg args 4) (fetch : 1 ≤ arg args 5)
    (ms : arg args 5 ≤ 60000) : exec (.setSlowDecodeLimits ini args) s =
    .next ((((((s.wr (uVat v) 0x154 (w32 (arg args 2 * 2 ^ 16 + arg args 1))).wr (uVat v) 0x158 (w32 (arg args 3))).wr (uVat v) 0x15C
        (w32 (arg args 4))).wr (uVat v) 0x160 (w32 (arg args 5))).vatSync v).ret OK) := by
  refine congrArg Host.Outcome.next ((vatCall_open is isOpen _).trans (if_neg ?_))
  simp only [Bool.or_eq_true, decide_eq_true_eq]
  omega

theorem exec_setSharedDecode (is : arg args 0 = 0x90 + v) (isOpen : s.VatOpen ini v) (known : arg args 1 ≤ 1) :
    exec (.setSharedDecode ini args) s = .next (
      if arg args 1 = 1 && (s.part.grade1640 || s.sbEn || s.sbActive) then s.ret NO_SHARED
      else (s.setFlag (uVat v) 0x104 1 (arg args 1 = 1)).ret OK) :=
  congrArg Host.Outcome.next ((vatCall_open is isOpen _).trans (if_neg (Nat.not_lt.mpr known)))

theorem exec_startBatchJob_busy (is : arg args 0 = 0x90 + v) (isOpen : s.VatOpen ini v) (on : s.jobOn v = true) :
    exec (.startBatchJob ini args) s = .next (s.ret VAT_BUSY) := by
  obtain ⟨isVat, stands, may, free⟩ := isOpen
  have unit : arg args 0 - 0x90 = v := by rw [is, Nat.add_sub_cancel_left]
  have e : exec (.startBatchJob ini args) s = .next (callJobStart ini args s) := rfl
  rw [e]
  unfold callJobStart
  dsimp only
  rw [unit, if_pos on, vatCallFor_may is isVat stands, may, free, if_neg (by decide), if_neg Bool.false_ne_true, if_pos on]

/-- The caller may start the job that the descriptor at a describes: R350. -/
def State.MayStart (s : State) (ini v a : Nat) : Prop := s.fwAllows ini (regAddr (uVat v) 0) true = true ∨
  ∃ d, (s.vatDesc v a).2 = some d ∧ s.clientOf ini = some (dn d 0x4A 2 % 4096)

theorem vatMay_iff (a : Nat) : s.vatMay ini v true ((s.vatDesc v a).2.map fun d => dn d 0x4A 2 % 4096) = true ↔ s.MayStart ini v a := by
  unfold State.vatMay State.MayStart
  rw [Bool.or_eq_true, Bool.and_eq_true, decide_eq_true_eq]
  refine or_congr_right ?_
  cases (s.vatDesc v a).2 with
  | none => simp
  | some d => simp

theorem exec_startBatchJob (is : arg args 0 = 0x90 + v) (isVat : unitClass (0x90 + v) = some .vat) (stands : s.exists? (0x90 + v) = true)
    (off : s.jobOn v = false) : exec (.startBatchJob ini args) s = .next (
      if !s.vatMay ini v true ((s.vatDesc v (argAddr args 1)).2.map fun d => dn d 0x4A 2 % 4096) then s.ret DENIED
      else if s.claimed (0x90 + v) then s.ret CLAIMED
      else if argAddr args 1 % 64 != 0 then s.ret RANGE
      else if s.ustate (uVat v) != 0 then s.fresh.2.ret REFUSED [s.fresh.1]
      else match s.jobStart v (argAddr args 1) with
        | (s, none) => (s.retPending 0x0502 v).jobGo v
        | (s, some _) => s.ret RANGE) := by
  have unit : arg args 0 - 0x90 = v := by rw [is, Nat.add_sub_cancel_left]
  have e : exec (.startBatchJob ini args) s = .next (callJobStart ini args s) := rfl
  rw [e]
  unfold callJobStart
  dsimp only
  rw [unit, if_neg (Bool.eq_false_iff.mp off), vatCallFor_may is isVat stands]
  refine congrArg Host.Outcome.next (if_congr Iff.rfl rfl (if_congr Iff.rfl rfl ((if_neg (Bool.eq_false_iff.mp off)).trans ?_)))
  refine if_congr Iff.rfl rfl (if_congr Iff.rfl rfl ?_)
  rfl

/-- What the reference decoder makes of the bytes that a sample table entry names. -/
def refDecoded (entry l : List Byte) : Decoded :=
  if bit (nth entry 6 (0 : Byte)) 4 && crc32 l != dn entry 12 4 then Decoded.bad cCRC 0 else decodeSample (dn entry 6 1 % 16) l

theorem exec_referenceDecode {entry l : List Byte} {t : State} (isE : entry = (args.take 4).flatMap fun w => natBytes 4 w.toNat)
    (whole : 4 ≤ args.length) (read : s.callRead ini (dn entry 0 6) (pagesFor (dn entry 8 4)) (dn entry 8 4) = (t, .ok, l)) :
    (((refDecoded entry l).cause ≠ 0 → exec (.referenceDecode ini args) s = .next (t.ret REFUSED [w32 (refDecoded entry l).cause])) ∧
      ((refDecoded entry l).cause = 0 → ∀ u, t.callWrite ini (argAddr args 4) (pagesFor (refDecoded entry l).img.raw.length)
        (refDecoded entry l).img.raw = (u, .ok) → exec (.referenceDecode ini args) s = .next (u.ret OK [w32 (refDecoded entry l).du]))) := by
  subst isE
  have e : exec (.referenceDecode ini args) s = .next (callRefDecode ini args s) := rfl
  rw [e]
  unfold refDecoded callRefDecode
  dsimp only
  rw [if_neg (Nat.not_lt.mpr whole), read]
  refine ⟨fun bad => congrArg Host.Outcome.next (if_pos (bne_iff_ne.mpr bad)), fun ok u write => congrArg Host.Outcome.next ((if_neg ?_).trans ?_)⟩
  · rw [ok]
    decide
  · rw [write]
    exact if_pos rfl

end

/-- Settles O41: one equation per event, control write and call; the client whom a job's descriptor names may start it. -/
theorem vatCommands : Obligations.VatCommands := by
  unfold Obligations.VatCommands
  refine ⟨?enables, ?takes, ?frames, ?controls, ?decodes, ?calls, ?starts, ?decoder⟩
  case enables =>
    intro ini v w s lt admits
    have gate := exec_liveEnableWrite lt admits
    refine ⟨fun off => ?_, fun en on => ?_, ?_⟩
    · exact gate.trans (congrArg Host.Outcome.next (if_pos (by rw [off]; rfl)))
    · exact gate.trans (congrArg Host.Outcome.next ((if_neg (by rw [en]; decide)).trans (if_pos on)))
    · intro en off a t d read
      have opens := gate.trans (congrArg Host.Outcome.next ((if_neg (by rw [en]; decide)).trans (if_neg (Bool.eq_false_iff.mp off))))
      refine ⟨fun o bad => opens.trans ?_, ?_⟩
      · rw [liveOn_refused read bad]
        rfl
      · intro ok x u
        refine opens.trans ?_
        rw [liveOn_binds read ok]
        rfl
  case takes =>
    intro v s lt x g m dist n u on idle runs marked some small t roi flags snap w rows read y px wq clips bursts z
    have e : exec (.liveFrameTake v) s = .next (s.liveTake (v % 2)) := rfl
    rw [e, Nat.mod_eq_of_lt lt]
    have taken := liveTake_takes rfl (show dist = s.liveAhead v from rfl) on idle runs marked some small snap read bursts
    exact congrArg Host.Outcome.next taken
  case frames =>
    intro v hs s lt making t x
    have gate := exec_liveFrameDone lt hs making (show t = s.liveDrain v from rfl)
    refine ⟨fun left => gate.trans (congrArg Host.Outcome.next (if_pos ?_)), ?_⟩
    · rw [Bool.not_eq_true', List.isEmpty_eq_false_iff]
      exact left
    · intro none fine u
      refine gate.trans (congrArg Host.Outcome.next ((if_neg ?_).trans ?_))
      · rw [show (t.vat v).live.wq = [] from none]
        decide
      · dsimp only
        rw [if_neg (Bool.eq_false_iff.mp fine)]
  case controls =>
    intro ini v s lt a
    refine ⟨fun admits => ⟨fun busy => ?_, fun off runs t bad start => ?_⟩, fun admits on => ?_, fun admits stalled => ?_, fun admits on => ?_⟩
    · exact (exec_jobCtlStart lt).trans (congrArg Host.Outcome.next (jobCtl_busy admits busy))
    · refine (exec_jobCtlStart lt).trans (congrArg Host.Outcome.next ((guarded_of_admits admits _).trans ((if_neg ?_).trans ?_)))
      · rw [off, runs]
        decide
      · rw [start]
    · exact (exec_jobCtlStop lt).trans (congrArg Host.Outcome.next (jobCtl_stop admits on))
    · exact (exec_jobCtlResume lt).trans (congrArg Host.Outcome.next (jobCtl_resume admits stalled))
    · exact (exec_jobCtlAbort lt).trans (congrArg Host.Outcome.next (jobCtl_abort admits on))
  case decodes =>
    intro v i pos ns done raw s lt
    refine ⟨fun i_lt d found => exec_sampleDecodeDone lt i_lt found,
      fun j job free going few due => exec_decodeDeferTimeout lt job free going few due,
      fun d found sameBits early => (exec_decodeHardLimit lt pos).trans (congrArg Host.Outcome.next (decodeHard_early found sameBits early)),
      fun d found reached => (exec_decodeHardLimit lt pos).trans (congrArg Host.Outcome.next (decodeHard_reached found reached)),
      fun d found => ⟨fun one ok fits => ?_, fun one bad => ?_, fun two => ?_⟩, fun runs => exec_vatFetchTimeoutExpiry lt runs, ?_⟩
    · refine (exec_hostDecodeDone lt found).trans (congrArg Host.Outcome.next ((if_pos one).trans ?_))
      rw [ok, if_neg (by decide), if_neg (Nat.not_lt.mpr fits)]
    · refine (exec_hostDecodeDone lt found).trans (congrArg Host.Outcome.next ((if_pos one).trans ?_))
      rw [if_pos (bne_iff_ne.mpr bad)]
    · exact (exec_hostDecodeDone lt found).trans (congrArg Host.Outcome.next ((if_neg (by omega)).trans (if_pos two)))
    · intro t j job
      exact ⟨fun waits => (exec_batchDone lt).trans (congrArg Host.Outcome.next (batchDone_waits rfl job waits)),
        fun closed made last => (exec_batchDone lt).trans (congrArg Host.Outcome.next (batchDone_ends rfl job closed made last))⟩
  case calls =>
    intro ini v args s is isOpen n a
    refine ⟨fun (off : arg args 3 = 0) => ?_, fun (en : arg args 3 = 1) on => ?_, fun (en : arg args 3 = 1) off aligned t o live => ?_,
      fun on => exec_startBatchJob_busy is isOpen on, fun known off => ?_, fun (stop : arg args 1 = 0) on waits => ?_,
      fun (stop : arg args 1 = 0) on idle => ?_, fun (abort : arg args 1 = 1) on => ?_, fun known runs => ?_,
      fun (resume : arg args 1 = 0) stalled => ?_, fun (abort : arg args 1 = 1) stalled => ?_, fun aligned some few slots known fits off => exec_configureCellar is isOpen aligned some few slots known fits off,
      exec_invalidateCellar is isOpen,
      fun soft hard few ns sec units fetch ms => exec_setSlowDecodeLimits is isOpen soft hard few ns sec units fetch ms,
      fun (off : arg args 1 = 0) => ?_, fun (on : arg args 1 = 1) bars => ?_, fun (on : arg args 1 = 1) grade en active => ?_⟩
    · exact (exec_setLiveStream is isOpen).trans (congrArg Host.Outcome.next ((if_neg (by omega)).trans (if_pos off)))
    · exact (exec_setLiveStream is isOpen).trans (congrArg Host.Outcome.next ((if_neg (by omega)).trans ((if_neg (by omega)).trans (if_pos on))))
    · refine (exec_setLiveStream is isOpen).trans (congrArg Host.Outcome.next ((if_neg (by omega)).trans ((if_neg (by omega)).trans
        ((if_neg (Bool.eq_false_iff.mp off)).trans ((if_neg ?_).trans ?_)))))
      · rw [show argAddr args 1 % 64 = 0 from aligned]
        decide
      · rw [live]
        cases o <;> rfl
    · exact (exec_stopOrAbortJob is isOpen known).trans (congrArg Host.Outcome.next (if_pos (by rw [off]; rfl)))
    · exact (exec_stopOrAbortJob is isOpen (by omega)).trans (congrArg Host.Outcome.next ((if_neg (by rw [on]; decide)).trans
        ((if_neg (by omega)).trans (if_pos waits))))
    · exact (exec_stopOrAbortJob is isOpen (by omega)).trans (congrArg Host.Outcome.next ((if_neg (by rw [on]; decide)).trans
        ((if_neg (by omega)).trans (if_neg (Bool.eq_false_iff.mp idle)))))
    · exact (exec_stopOrAbortJob is isOpen (by omega)).trans (congrArg Host.Outcome.next ((if_neg (by rw [on]; decide)).trans (if_pos abort)))
    · exact (exec_resolveJobStall is isOpen known).trans (congrArg Host.Outcome.next (if_pos (by rw [runs]; rfl)))
    · exact (exec_resolveJobStall is isOpen (by omega)).trans (congrArg Host.Outcome.next ((if_neg (by rw [stalled]; decide)).trans (if_neg (by omega))))
    · exact (exec_resolveJobStall is isOpen (by omega)).trans (congrArg Host.Outcome.next ((if_neg (by rw [stalled]; decide)).trans (if_pos abort)))
    · refine (exec_setSharedDecode is isOpen (by omega)).trans (congrArg Host.Outcome.next ((if_neg ?_).trans ?_))
      · rw [off]
        simp
      · rw [off]
        rfl
    · refine (exec_setSharedDecode is isOpen (by omega)).trans (congrArg Host.Outcome.next (if_pos ?_))
      rw [decide_eq_true on, Bool.true_and, Bool.or_eq_true, Bool.or_eq_true, or_assoc]
      exact bars
    · refine (exec_setSharedDecode is isOpen (by omega)).trans (congrArg Host.Outcome.next ((if_neg ?_).trans ?_))
      · rw [grade, en, active, Bool.or_false, Bool.or_false, Bool.and_false]
        exact Bool.false_ne_true
      · rw [decide_eq_true on]
  case starts =>
    intro ini v args s is isVat stands off a own
    have gate := exec_startBatchJob (ini := ini) is isVat stands off
    have may : ∀ h : own, ¬(!s.vatMay ini v true ((s.vatDesc v (argAddr args 1)).2.map fun d => dn d 0x4A 2 % 4096)) = true := fun h => by
      rw [(vatMay_iff _).mpr h]
      decide
    refine ⟨fun not => gate.trans (congrArg Host.Outcome.next (if_pos ?_)), fun h taken => ?_, fun h free aligned runs t start => ?_,
      fun h free aligned stopped => ?_⟩
    · rw [Bool.not_eq_true', Bool.eq_false_iff]
      exact fun yes => not ((vatMay_iff _).mp yes)
    · exact gate.trans (congrArg Host.Outcome.next ((if_neg (may h)).trans (if_pos taken)))
    · refine gate.trans (congrArg Host.Outcome.next ((if_neg (may h)).trans ((if_neg (Bool.eq_false_iff.mp free)).trans ((if_neg ?_).trans
        ((if_neg ?_).trans ?_)))))
      · rw [show argAddr args 1 % 64 = 0 from aligned]
        decide
      · rw [runs]
        decide
      · rw [show s.jobStart v (argAddr args 1) = (t, none) from start]
    · refine ⟨_, gate.trans (congrArg Host.Outcome.next ((if_neg (may h)).trans ((if_neg (Bool.eq_false_iff.mp free)).trans ((if_neg ?_).trans
        (if_pos (bne_iff_ne.mpr stopped)))))), s.fresh.1, rfl⟩
      rw [show argAddr args 1 % 64 = 0 from aligned]
      decide
  case decoder =>
    intro ini args s whole entry n t l read d
    exact exec_referenceDecode rfl whole read

end Sys2Proof.Machine

namespace Sys2Proof.Machine

/-! ## The Press (O42) -/

section
variable {s t : State} {l vc p i hdr : Nat}

/-! ### Packets of a stream (R353, R354) -/

/-- The state in which a packet with a good or corrected header is taken. -/
def State.heard (s : State) (l vc hdr : Nat) : State := (if hdr = 1 then s.countF (uCL l) 0x118 15 0 1 else s).linkSees l vc

theorem header_good (ne : hdr ≠ 2) : s.header l hdr = if hdr = 1 then s.countF (uCL l) 0x118 15 0 1 else s :=
  if_congr Iff.rfl rfl (if_neg ne)

theorem withStream_bad (on : s.flag (uCL l) 0x100 31 = true) (act : Nat → Nat → State → State) :
    s.withStream l vc 2 act = s.countF (uCL l) 0x118 31 16 1 :=
  (if_neg (by rw [on]; decide)).trans (if_pos rfl)

theorem withStream_unbound (on : s.flag (uCL l) 0x100 31 = true) (ne : hdr ≠ 2) (is : t = s.heard l vc hdr) (unbound : t.streamOf l vc = none)
    (act : Nat → Nat → State → State) : s.withStream l vc hdr act = t.count (uCL l) 0x128 1 := by
  subst is
  unfold State.heard at *
  unfold State.withStream
  rw [if_neg (by rw [on]; decide), if_neg ne, header_good ne]
  simp only [unbound]

theorem withStream_bound (on : s.flag (uCL l) 0x100 31 = true) (ne : hdr ≠ 2) (is : t = s.heard l vc hdr) (bound : t.streamOf l vc = some i)
    (act : Nat → Nat → State → State) : s.withStream l vc hdr act = act i (streamPipe (t.stream l i)) t := by
  subst is
  unfold State.heard at *
  unfold State.withStream
  rw [if_neg (by rw [on]; decide), if_neg ne, header_good ne]
  simp only [bound]

theorem exec_csi2FrameStart (l_lt : l < 8) (vc_lt : vc < 16) : exec (.csi2FrameStart l vc hdr) s = .next (s.frameStart l vc hdr) := by
  have e : exec (.csi2FrameStart l vc hdr) s = .next (s.frameStart (l % 8) (vc % 16) hdr) := rfl
  rw [e, Nat.mod_eq_of_lt l_lt, Nat.mod_eq_of_lt vc_lt]

theorem exec_csi2FrameEnd {ps rate : Nat} (l_lt : l < 8) (vc_lt : vc < 16) :
    exec (.csi2FrameEnd l vc hdr ps rate) s = .next (s.frameEnd l vc hdr ps rate) := by
  have e : exec (.csi2FrameEnd l vc hdr ps rate) s = .next (s.frameEnd (l % 8) (vc % 16) hdr ps rate) := rfl
  rw [e, Nat.mod_eq_of_lt l_lt, Nat.mod_eq_of_lt vc_lt]

theorem exec_csi2Line {dt crc freed : Nat} {full : Bool} {payload : List Byte} (l_lt : l < 8) (vc_lt : vc < 16) (dt_lt : dt < 64) :
    exec (.csi2Line l vc dt hdr crc full payload freed) s = .next (s.line l vc dt hdr crc full payload freed) := by
  have e : exec (.csi2Line l vc dt hdr crc full payload freed) s = .next (s.line (l % 8) (vc % 16) (dt % 64) hdr crc full payload freed) := rfl
  rw [e, Nat.mod_eq_of_lt l_lt, Nat.mod_eq_of_lt vc_lt, Nat.mod_eq_of_lt dt_lt]

theorem exec_csi2EmbeddedLine {crc : Nat} {payload : List Byte} (l_lt : l < 8) (vc_lt : vc < 16) :
    exec (.csi2EmbeddedLine l vc hdr crc payload) s = .next (s.embedded l vc hdr crc payload) := by
  have e : exec (.csi2EmbeddedLine l vc hdr crc payload) s = .next (s.embedded (l % 8) (vc % 16) hdr crc payload) := rfl
  rw [e, Nat.mod_eq_of_lt l_lt, Nat.mod_eq_of_lt vc_lt]

/-! ### Frame starts (R354, R360, R370) -/

theorem cutFrame_idle (idle : (t.pp p).inFrame = false) : t.cutFrame l p = t := if_pos (by rw [idle]; rfl)

/-- A frame start of a stream whose pipeline has no frame in progress. -/
theorem frameStart_idle (on : s.flag (uCL l) 0x100 31 = true) (ne : hdr ≠ 2) (is : t = s.heard l vc hdr) (bound : t.streamOf l vc = some i)
    (isP : p = streamPipe (t.stream l i)) (idle : (t.pp p).inFrame = false) (closed : t.ppClosed p = true) :
    s.frameStart l vc hdr = t.lostStart p := by
  subst isP
  refine (withStream_bound on ne is bound _).trans ?_
  dsimp only
  rw [cutFrame_idle idle, if_pos closed]

/-- The blanking measured at a frame start. -/
def PpX.blanked (x : PpX) (now : Nat) : Option Nat := match x.endNs with | some e => some (now - e) | none => x.blank

theorem frameStart_stopped (on : s.flag (uCL l) 0x100 31 = true) (ne : hdr ≠ 2) (is : t = s.heard l vc hdr) (bound : t.streamOf l vc = some i)
    (isP : p = streamPipe (t.stream l i)) {x : PpX} (isX : t.pp p = x) (idle : x.inFrame = false) (opened : t.ppClosed p = false)
    (stopped : x.run = 0) : s.frameStart l vc hdr = t.setPp p { x with inFrame := true, drained := false, blank := x.blanked t.nowNs } := by
  subst isP isX
  refine (withStream_bound on ne is bound _).trans ?_
  dsimp only
  rw [cutFrame_idle idle, if_neg (Bool.eq_false_iff.mp opened), if_pos stopped]
  rfl

/-- A running pipeline at the start of its next frame. -/
def PpX.nextFrame (x : PpX) (t : State) : PpX := { x with
  inFrame := true, blank := x.blanked t.nowNs, drained := false
  n := (x.n + 1) % 2 ^ 32, draw := t.free, ns := t.gaugeNs, sec := t.gaugeS, got := 0, errs := 0, img := [], rows := []
  cnt := 0, ts := 0, emb := false, frz := if x.late then 8 else 0, late := false, seen := min 4 (x.seen + 1) }

/-- A frame begins: sets apply, outputs are skipped, the feed starts, calls that wait for it end. -/
def State.frameBegun (u : State) (p : Nat) : State :=
  (((((u.applySets p).skips p).feedStart p).finish 0x0602 p OK).finish 0x0603 p OK).ppSync p

theorem frameStart_runs (on : s.flag (uCL l) 0x100 31 = true) (ne : hdr ≠ 2) (is : t = s.heard l vc hdr) (bound : t.streamOf l vc = some i)
    (isP : p = streamPipe (t.stream l i)) {x : PpX} (isX : t.pp p = x) (idle : x.inFrame = false) (opened : t.ppClosed p = false)
    (runs : x.run = 2) (none : x.pend = none) :
    s.frameStart l vc hdr = (({ t with free := t.free + 1 } : State).setPp p (x.nextFrame t)).frameBegun p := by
  subst isP
  refine (withStream_bound on ne is bound _).trans ?_
  dsimp only
  rw [cutFrame_idle (isX ▸ idle), isX, if_neg (Bool.eq_false_iff.mp opened), if_neg (by omega)]
  cases x
  cases runs
  cases none
  rfl

/-! ### Frame ends (R354, R363, R377) -/

/-- A frame end notes whether the pipeline drains. -/
def State.endNoted (t : State) (p : Nat) : State := t.setPp p { t.pp p with drained := t.ppDrains p }

/-- What a frame end does that reaches a pipeline. -/
def State.frameEnded (d : State) (l p ps rate : Nat) : State :=
  let z := d.pp p
  if !z.inFrame then (d.stopEnd p).ppSync p
  else if z.run != 2 then ((d.setPp p { z with inFrame := false, endNs := some d.nowNs }).stopEnd p).ppSync p
  else if d.ppDown p then
    (((d.setPp p { z with inFrame := false, endNs := some d.nowNs, lost := min (z.lost + 1) 255, outs := (List.range 5).map z.closeOut }).countF
      (uPP p) 0x230 31 16 1).stopEnd p).ppSync p
  else ((d.frameClose l p (if ppFrz z.desc then z.frameCauses else 0) ps rate).sendSets p).ppSync p

section
variable {d : State} {ps rate : Nat}

theorem frameEnded_idle (idle : (d.pp p).inFrame = false) : d.frameEnded l p ps rate = (d.stopEnd p).ppSync p := if_pos (by rw [idle]; rfl)

theorem frameEnded_stopped (frame : (d.pp p).inFrame = true) (still : (d.pp p).run ≠ 2) : d.frameEnded l p ps rate =
    ((d.setPp p { d.pp p with inFrame := false, endNs := some d.nowNs }).stopEnd p).ppSync p :=
  (if_neg (by rw [frame]; decide)).trans (if_pos (bne_iff_ne.mpr still))

theorem frameEnded_down (frame : (d.pp p).inFrame = true) (runs : (d.pp p).run = 2) (down : d.ppDown p = true) : d.frameEnded l p ps rate =
    (((d.setPp p { d.pp p with
      inFrame := false, endNs := some d.nowNs, lost := min ((d.pp p).lost + 1) 255
      outs := (List.range 5).map (d.pp p).closeOut }).countF (uPP p) 0x230 31 16 1).stopEnd p).ppSync p :=
  (if_neg (by rw [frame]; decide)).trans ((if_neg (by rw [runs]; decide)).trans (if_pos down))

theorem frameEnded_closes (frame : (d.pp p).inFrame = true) (runs : (d.pp p).run = 2) (up : d.ppDown p = false) : d.frameEnded l p ps rate =
    ((d.frameClose l p (if ppFrz (d.pp p).desc then (d.pp p).frameCauses else 0) ps rate).sendSets p).ppSync p :=
  (if_neg (by rw [frame]; decide)).trans ((if_neg (by rw [runs]; decide)).trans (if_neg (Bool.eq_false_iff.mp up)))

end

theorem frameEnd_bound {ps rate : Nat} (on : s.flag (uCL l) 0x100 31 = true) (ne : hdr ≠ 2) (is : t = s.heard l vc hdr)
    (bound : t.streamOf l vc = some i) (isP : p = streamPipe (t.stream l i)) :
    s.frameEnd l vc hdr ps rate = (t.endNoted p).frameEnded l p ps rate := by
  subst isP
  exact withStream_bound on ne is bound _

/-! ### Lines (R354–R357, R371) -/

theorem header_zero (s : State) (l : Nat) : s.header l 0 = s := (header_good (by decide)).trans (if_neg (by decide))

section
variable {dt crc freed : Nat} {payload : List Byte}

theorem line_type (on : s.flag (uCL l) 0x100 31 = true) (is : t = s.linkSees l vc) (bound : t.streamOf l vc = some i)
    (other : streamDt (t.stream l i) ≠ dt) : s.line l vc dt 0 crc false payload freed = t.count (uCL l) 0x128 1 := by
  unfold State.line
  rw [if_neg (by rw [on]; decide), header_zero]
  extract_lets a b
  rw [show b = t from (if_neg (by decide)).trans is.symm, bound]
  refine if_pos ?_
  rw [Bool.and_eq_true, bne_iff_ne, bne_iff_ne]
  exact ⟨by decide, other⟩

/-- What an image line with a good header does in a pipeline, once its check is known and counted. -/
def State.lineAt (s : State) (l p i : Nat) (crcBad overflow : Bool) (payload : List Byte) (freed : Nat) : State :=
  let x := s.pp p
  if x.run != 2 || !x.inFrame || s.ppDown p || ppH x.desc ≤ x.got then s
  else
    let vals := unpackLine (streamDt (s.stream l i)) (ppBits x.desc) payload
    if !(crcBad || overflow || vals.length != lineVals x.desc) then s.ppLine p vals freed
    else
      ((s.setPp p { x with errs := x.errs + 1 }).count (uPP p) 0x234 1).ppLine p
        (if x.got = 0 then List.replicate (lineVals x.desc) 0 else (nth x.img (x.img.length - 1) (0, [])).2) freed

/-- An image line is counted as its check and its buffer say, then taken. -/
def State.lineIn (s : State) (l p i : Nat) (crcBad overflow : Bool) (payload : List Byte) (freed : Nat) : State :=
  let s := if crcBad then s.count (uCL l) 0x11C 1 else s
  let s := if overflow then s.countF (uCL l) 0x124 (8 * i + 7) (8 * i) 1 else s
  s.lineAt l p i crcBad overflow payload freed

theorem line_bound {v : State} {k : Nat} {bad : Bool} (on : s.flag (uCL l) 0x100 31 = true) (is : t = s.linkSees l vc)
    (bound : t.streamOf l vc = some i) (isP : p = streamPipe (t.stream l i)) (type : streamDt (t.stream l i) = dt)
    (injected : t.injected (uCL l) 2 = (v, k)) (isBad : (crc16 payload != crc || k != 0) = bad) :
    s.line l vc dt 0 crc false payload freed = v.lineIn l p i bad false payload freed := by
  subst isP isBad
  have same : ¬((0 : Nat) != 2 && streamDt (t.stream l i) != dt) = true := by
    rw [type, bne_self_eq_false, Bool.and_false]
    exact Bool.false_ne_true
  unfold State.line
  rw [if_neg (by rw [on]; decide), header_zero]
  extract_lets a b
  rw [show b = t from (if_neg (by decide)).trans is.symm, bound]
  refine (if_neg same).trans ?_
  rw [injected]
  rfl

/-- A running pipeline in a frame takes one more line. -/
def State.TakesLine (u : State) (p : Nat) : Prop :=
  (u.pp p).run = 2 ∧ (u.pp p).inFrame = true ∧ u.ppDown p = false ∧ (u.pp p).got < ppH (u.pp p).desc

theorem takesLine_gate {u : State} (takes : u.TakesLine p) :
    ¬((u.pp p).run != 2 || !(u.pp p).inFrame || u.ppDown p || decide (ppH (u.pp p).desc ≤ (u.pp p).got)) = true := by
  obtain ⟨runs, frame, up, more⟩ := takes
  rw [runs, frame, up, decide_eq_false (Nat.not_le.mpr more)]
  decide

theorem lineAt_good {v : State} {vals : List Nat} (takes : v.TakesLine p)
    (isVals : unpackLine (streamDt (v.stream l i)) (ppBits (v.pp p).desc) payload = vals) (whole : vals.length = lineVals (v.pp p).desc) :
    v.lineAt l p i false false payload freed = v.ppLine p vals freed := by
  refine (if_neg (takesLine_gate takes)).trans ((if_pos ?_).trans (congrArg (v.ppLine p · freed) isVals))
  rw [isVals, whole, bne_self_eq_false]
  rfl

theorem lineIn_good {v : State} {vals : List Nat} (takes : v.TakesLine p)
    (isVals : unpackLine (streamDt (v.stream l i)) (ppBits (v.pp p).desc) payload = vals) (whole : vals.length = lineVals (v.pp p).desc) :
    v.lineIn l p i false false payload freed = v.ppLine p vals freed := by
  have same : (if false then (if false then v.count (uCL l) 0x11C 1 else v).countF (uCL l) 0x124 (8 * i + 7) (8 * i) 1
      else if false then v.count (uCL l) 0x11C 1 else v) = v := (if_neg Bool.false_ne_true).trans (if_neg Bool.false_ne_true)
  unfold State.lineIn
  dsimp only
  rw [same]
  exact lineAt_good takes isVals whole

theorem lineIn_bad {v u : State} (is : u = v.count (uCL l) 0x11C 1) (takes : u.TakesLine p) :
    v.lineIn l p i true false payload freed = ((u.setPp p { u.pp p with errs := (u.pp p).errs + 1 }).count (uPP p) 0x234 1).ppLine p
      (if (u.pp p).got = 0 then List.replicate (lineVals (u.pp p).desc) 0
        else (nth (u.pp p).img ((u.pp p).img.length - 1) (0, [])).2) freed := by
  subst is
  exact (if_neg (takesLine_gate takes)).trans (if_neg (by rw [Bool.true_or, Bool.true_or]; decide))

theorem embedded_first (on : s.flag (uCL l) 0x100 31 = true) (is : t = s.linkSees l vc) (bound : t.streamOf l vc = some i)
    (isP : p = streamPipe (t.stream l i)) {x : PpX} (isX : t.pp p = x) (ok : crc16 payload = crc) (runs : x.run = 2) (frame : x.inFrame = true)
    (up : t.ppDown p = false) (first : x.emb = false) (has : ppEmb x.desc = true) {c m k : Nat}
    (isC : c = dn payload (ppCntOff x.desc) (ppCntBytes x.desc)) (isM : m = dn payload (ppTsOff x.desc) (ppTsBytes x.desc))
    (isK : k = if ppFrz x.desc then x.lineCauses c m else 0) :
    s.embedded l vc 0 crc payload = (t.setPp p { x with
      emb := true, cnt := c, ts := m, cnt0 := some c, ts0 := some m, frz := x.frz ||| k }).frameFlag p x.n k := by
  subst isX isC isM isK
  have whole : ¬(crc16 payload != crc) = true := by
    rw [ok, bne_self_eq_false]
    exact Bool.false_ne_true
  have takes : ¬((t.pp p).run != 2 || !(t.pp p).inFrame || t.ppDown p || (t.pp p).emb || !ppEmb (t.pp p).desc) = true := by
    rw [runs, frame, up, first, has]
    decide
  unfold State.embedded
  rw [if_neg (by rw [on]; decide), header_zero]
  refine (if_neg (by decide)).trans ?_
  rw [← is]
  subst isP
  extract_lets u
  rw [show u = t from rfl, bound]
  exact (if_neg whole).trans (if_neg takes)

end

/-! ### Late frames and moves of cameras (R371, R373) -/

theorem exec_frameLateExpiry (lt : p < 16) (runs : (s.pp p).run = 2) (checks : ppFrz (s.pp p).desc = true) (timed : ppLateMs (s.pp p).desc ≠ 0) :
    exec (.frameLateExpiry p) s = .next ((s.setPp p { s.pp p with late := true }).frameFlag p ((s.pp p).n + 1) 8) := by
  have e : exec (.frameLateExpiry p) s = .next (s.frameLate (p % 16)) := rfl
  rw [e, Nat.mod_eq_of_lt lt]
  exact congrArg Host.Outcome.next (if_neg (by rw [runs, checks, decide_eq_false timed]; decide))

theorem exec_cameraMove (lt : p < 16) : exec (.cameraMove p) s = .next (s.cameraMove p) := by
  have e : exec (.cameraMove p) s = .next (s.cameraMove (p % 16)) := rfl
  rw [e, Nat.mod_eq_of_lt lt]

theorem cameraMove_stays (free : (s.pp p).move = none) (unit : s.ustate (uPP p) ≠ 2) (controller : s.ustate (ppPx p) ≠ 2)
    (keeps : s.ppDrains p = false ∨ (s.pp p).drained = false ∧ 2 ≤ (s.pp p).run) : s.cameraMove p = s := by
  unfold State.cameraMove
  rw [free]
  dsimp only
  refine if_neg ?_
  rw [decide_eq_false unit, decide_eq_false controller]
  rcases keeps with k | ⟨k, r⟩
  · rw [k, Bool.false_and, Bool.or_false, Bool.or_false]
    exact Bool.false_ne_true
  · rw [k, decide_eq_false (Nat.not_lt.mpr r), Bool.or_false, Bool.and_false]
    decide

theorem cameraMove_goes (free : (s.pp p).move = none)
    (goes : s.ustate (uPP p) = 2 ∨ s.ustate (ppPx p) = 2 ∨ s.ppDrains p = true ∧ ((s.pp p).drained = true ∨ (s.pp p).run < 2)) :
    s.cameraMove p = s.moveStream p none := by
  unfold State.cameraMove
  rw [free]
  dsimp only
  refine if_pos ?_
  rw [Bool.or_eq_true, Bool.or_eq_true, Bool.and_eq_true, Bool.or_eq_true, decide_eq_true_eq, decide_eq_true_eq, decide_eq_true_eq, or_assoc]
  exact goes

theorem moveStream_lost (bound : s.boundTo p = some (l, i)) (idle : (s.pp p).inFrame = false) (no : s.candidate p = none) :
    s.moveStream p none = s.streamLost p l i { s.pp p with run := 0, inFrame := false, move := none } := by
  unfold State.moveStream
  rw [bound]
  simp only [no, idle, Bool.false_and, Bool.false_eq_true, if_false]

theorem moveStream_moved {q : Nat} (bound : s.boundTo p = some (l, i)) (idle : (s.pp p).inFrame = false) (found : s.candidate p = some q) :
    s.moveStream p none = s.streamMoved p q l i { s.pp p with
      run := if 2 ≤ (s.pp p).run then 3 else (s.pp p).run
      inFrame := false, first := true, seen := 0, hist := [], flick := [], img := [], cnt0 := none, ts0 := none, lost := (s.pp p).lost, move := none
      outs := (List.range 5).map (s.pp p).closeOut } := by
  unfold State.moveStream
  rw [bound]
  simp only [found, idle, Bool.false_and, Bool.false_eq_true, if_false]

/-! ### Streams and the actions of PP_CTL (R353, R377) -/

theorem exec_clStreamWrite {ini w : Nat} (l_lt : l < 8) (i_lt : i < 4) (admits : s.Admits ini (uCL l) (0x108 + 4 * i) (w32 w) false) :
    exec (.clStreamWrite ini l i w) s = .next (if s.streamBad l i (w32 w) != OK then s.accError ini (regAddr (uCL l) (0x108 + 4 * i))
        (if s.streamBad l i (w32 w) = RANGE then .range else if s.streamBad l i (w32 w) = NO_UNIT then .notEnabled else .check)
      else s.setStream l i (w32 w)) := by
  have e : exec (.clStreamWrite ini l i w) s = .next (s.streamWrite ini (l % 8) (i % 4) (w32 w)) := rfl
  rw [e, Nat.mod_eq_of_lt l_lt, Nat.mod_eq_of_lt i_lt]
  exact congrArg Host.Outcome.next (guarded_of_admits admits _)

theorem ppCtl_load {ini : Nat} (admits : s.Admits ini (uPP p) 0x208 1 false) :
    s.ppCtl ini p 1 = (s.ppLoad p (s.clientOf ini) (s.fld (uPP p) 0x200 31 6 * 64 + 2 ^ 32 * s.fld (uPP p) 0x204 15 0)).1 :=
  (guarded_of_admits admits _).trans (if_pos rfl)

theorem ppCtl_start {ini : Nat} (admits : s.Admits ini (uPP p) 0x208 2 false) : s.ppCtl ini p 2 =
    if (s.pp p).desc.isEmpty then s.accError ini (regAddr (uPP p) 0x208) .check
    else ((s.setPp p { s.pp p with run := if (s.pp p).run = 0 then 1 else (s.pp p).run, stopAt := false }).ppSync p).finish 0x0603 (p + 16) REFUSED := by
  have acts : s.ppAction p (2 : Word).toNat = if (s.pp p).desc.isEmpty then none else
    some (((s.setPp p { s.pp p with run := if (s.pp p).run = 0 then 1 else (s.pp p).run, stopAt := false }).ppSync p).finish 0x0603 (p + 16) REFUSED) := rfl
  refine (guarded_of_admits admits _).trans ((if_neg (by decide)).trans ?_)
  rw [acts]
  cases (s.pp p).desc.isEmpty <;> rfl

theorem ppCtl_stop {ini : Nat} (admits : s.Admits ini (uPP p) 0x208 3 false) :
    s.ppCtl ini p 3 = (s.setPp p { s.pp p with stopAt := (s.pp p).run != 0 }).ppSync p :=
  (guarded_of_admits admits _).trans (if_neg (by decide))

theorem ppCtl_stopNow {ini : Nat} (admits : s.Admits ini (uPP p) 0x208 4 false) : s.ppCtl ini p 4 = s.stopNow p :=
  (guarded_of_admits admits _).trans (if_neg (by decide))

theorem exec_ppCtlLoad {ini : Nat} (lt : p < 16) : exec (.ppCtlLoad ini p) s = .next (s.ppCtl ini p 1) := by
  have e : exec (.ppCtlLoad ini p) s = .next (s.ppCtl ini (p % 16) 1) := rfl
  rw [e, Nat.mod_eq_of_lt lt]
theorem exec_ppCtlStart {ini : Nat} (lt : p < 16) : exec (.ppCtlStart ini p) s = .next (s.ppCtl ini p 2) := by
  have e : exec (.ppCtlStart ini p) s = .next (s.ppCtl ini (p % 16) 2) := rfl
  rw [e, Nat.mod_eq_of_lt lt]
theorem exec_ppCtlStop {ini : Nat} (lt : p < 16) : exec (.ppCtlStop ini p) s = .next (s.ppCtl ini p 3) := by
  have e : exec (.ppCtlStop ini p) s = .next (s.ppCtl ini (p % 16) 3) := rfl
  rw [e, Nat.mod_eq_of_lt lt]
theorem exec_ppCtlStopNow {ini : Nat} (lt : p < 16) : exec (.ppCtlStopNow ini p) s = .next (s.ppCtl ini p 4) := by
  have e : exec (.ppCtlStopNow ini p) s = .next (s.ppCtl ini (p % 16) 4) := rfl
  rw [e, Nat.mod_eq_of_lt lt]

theorem wr_wr_same (s : State) (u off : Nat) (v w : Word) : (s.wr u off w).wr u off v = s.wr u off v :=
  congrArg (fun r => ({ s with regs := r } : State)) (SMap.set_set_same ..)

/-- Showing a status twice shows it once. -/
theorem setResult_again (s : State) (p st : Nat) : (s.setResult p st).wr (uPP p) 0x224 (w32 (2 ^ 31 + st)) = s.setResult p st :=
  wr_wr_same ..

theorem exec_ppPsetGo {ini w st : Nat} {v : Word} (lt : p < 16) (is : v = setBit (w32 w) 31 true) (admits : s.Admits ini (uPP p) 0x220 v false)
    (pushed : s.pushSet p (s.fld (uPP p) 0x21C 31 6 * 64 + 2 ^ 32 * bits v 15 0) = (t, st)) :
    exec (.ppPsetGo ini p w) s = .next (t.setResult p st) := by
  have e : exec (.ppPsetGo ini p w) s = .next (s.psetWrite ini (p % 16) (setBit (w32 w) 31 true)) := rfl
  have go : bit v 31 = true := by rw [is]; exact bit_setBit_same _ _ _ (by decide)
  rw [e, Nat.mod_eq_of_lt lt, ← is]
  refine congrArg Host.Outcome.next ((guarded_of_admits admits _).trans ((if_neg (by rw [go]; decide)).trans ?_))
  rw [pushed]

/-! ### Sensor writes (R370, R570) -/

section
variable {m : Nat} {j : SenJob} {r : List SenJob}

theorem exec_sensorWriteDone (lt : m < 8) (ack : Bool) : exec (.sensorWriteDone m ack) s = .next (s.writeEnds m ack) := by
  have e : exec (.sensorWriteDone m ack) s = .next (s.writeEnds (m % 8) ack) := rfl
  rw [e, Nat.mod_eq_of_lt lt]

theorem exec_clockStretchTimeout (lt : m < 8) : exec (.clockStretchTimeout m) s = .next (s.writeEnds m false) := by
  have e : exec (.clockStretchTimeout m) s = .next (s.writeEnds (m % 8) false) := rfl
  rw [e, Nat.mod_eq_of_lt lt]

theorem writeEnds_acked (jobs : s.jobsOf m = j :: r) : s.writeEnds m true =
    if j.idx + 1 < setWrites j.set.data then (s.setJobs m ({ j with idx := j.idx + 1, retried := false } :: r)).sendWrite m else s.nextJob m := by
  unfold State.writeEnds
  rw [jobs]
  exact if_pos rfl

theorem writeEnds_retries (jobs : s.jobsOf m = j :: r) (first : j.retried = false) :
    s.writeEnds m false = (s.setJobs m ({ j with retried := true } :: r)).sendWrite m := by
  unfold State.writeEnds
  rw [jobs]
  exact (if_neg Bool.false_ne_true).trans (if_pos (by rw [first]; rfl))

theorem writeEnds_fails (jobs : s.jobsOf m = j :: r) (again : j.retried = true) : s.writeEnds m false =
    ((((s.updSet j.pp j.set.target fun q => { q with part := true }).ppEvent j.pp 0x0011 j.set.id (setReg j.set.data j.idx)).countF
      (uPP j.pp) 0x240 15 0 1)).nextJob m := by
  unfold State.writeEnds
  rw [jobs]
  exact (if_neg Bool.false_ne_true).trans (if_neg (by rw [again]; decide))

end

/-! ### Calls (R378, R379) -/

section
variable {ini : Nat} {args : List Word}

theorem ppCall_open (is : arg args 0 = 0xA0 + p) (isOpen : s.PipeOpen ini p) (act : Nat → State → State) :
    s.ppCall ini (arg args 0) act = act p s := by
  obtain ⟨isPipe, stands, may, free⟩ := isOpen
  have pipe : arg args 0 - 0xA0 = p := by rw [is, Nat.add_sub_cancel_left]
  unfold State.ppCall
  dsimp only
  rw [pipe, is, isPipe, stands, may, free, if_neg (by decide), if_neg (by decide), if_neg (by decide), if_neg Bool.false_ne_true]

theorem exec_loadDescriptor_busy (is : arg args 0 = 0xA0 + p) (isOpen : s.PipeOpen ini p) (aligned : argAddr args 1 % 64 = 0)
    (busy : s.callWaits 0x0602 p = true) : exec (.loadDescriptor ini args) s = .next (s.ret UNIT_BUSY) := by
  refine congrArg Host.Outcome.next ((ppCall_open is isOpen _).trans ((if_neg ?_).trans (if_pos busy)))
  rw [aligned]
  decide

theorem exec_loadDescriptor_loads (is : arg args 0 = 0xA0 + p) (isOpen : s.PipeOpen ini p) (aligned : argAddr args 1 % 64 = 0)
    (idle : s.callWaits 0x0602 p = false) (load : s.ppLoad p (s.clientOf ini) (argAddr args 1) = (t, none)) (now : (t.pp p).pend = none) :
    exec (.loadDescriptor ini args) s = .next (t.ret OK) := by
  refine congrArg Host.Outcome.next ((ppCall_open is isOpen _).trans ((if_neg ?_).trans ((if_neg (Bool.eq_false_iff.mp idle)).trans ?_)))
  · rw [aligned]
    decide
  · rw [load]
    exact if_neg (by rw [now]; decide)

theorem exec_loadDescriptor_refused {o : Nat} (is : arg args 0 = 0xA0 + p) (isOpen : s.PipeOpen ini p) (aligned : argAddr args 1 % 64 = 0)
    (idle : s.callWaits 0x0602 p = false) (load : s.ppLoad p (s.clientOf ini) (argAddr args 1) = (t, some (o, false))) :
    exec (.loadDescriptor ini args) s = .next (t.ret RANGE [w32 o]) := by
  refine congrArg Host.Outcome.next ((ppCall_open is isOpen _).trans ((if_neg ?_).trans ((if_neg (Bool.eq_false_iff.mp idle)).trans ?_)))
  · rw [aligned]
    decide
  · rw [load]

/-- Call 0x0603 with action 4: stop now. -/
theorem exec_startOrStopPipeline_now (is : arg args 0 = 0xA0 + p) (isOpen : s.PipeOpen ini p) (now : arg args 1 = 4) :
    exec (.startOrStopPipeline ini args) s = .next (
      if s.callWaits 0x0603 (p + 16) then s.ret UNIT_BUSY
      else if ((s.stopNow p).pp p).stopAt then (s.stopNow p).retPending 0x0603 (p + 16)
      else (s.stopNow p).ret OK) := by
  have acts : s.ppAction p (arg args 1) = some (s.stopNow p) := by rw [now]; rfl
  refine congrArg Host.Outcome.next ((ppCall_open is isOpen _).trans ?_)
  rw [acts, now]
  rfl

theorem exec_pushParameterSet {st : Nat} (is : arg args 0 = 0xA0 + p) (isOpen : s.PipeOpen ini p) (aligned : argAddr args 1 % 64 = 0)
    (pushed : s.pushSet p (argAddr args 1) = (t, st)) : exec (.pushParameterSet ini args) s = .next ((t.setResult p st).ret st) := by
  refine congrArg Host.Outcome.next ((ppCall_open is isOpen _).trans ((if_neg ?_).trans ?_))
  · rw [aligned]
    decide
  · rw [pushed]

theorem exec_setFlickerThreshold (is : arg args 0 = 0xA0 + p) (isOpen : s.PipeOpen ini p) (small : arg args 1 ≤ 0xFFFF) :
    exec (.setFlickerThreshold ini args) s = .next ((s.setPp p { s.pp p with thresh := arg args 1 }).ret OK) :=
  congrArg Host.Outcome.next ((ppCall_open is isOpen _).trans (if_neg (Nat.not_lt.mpr small)))

theorem exec_setSpare (is : arg args 0 = 0xA0 + p) (isOpen : s.PipeOpen ini p) (known : arg args 1 ≤ 1) : exec (.setSpare ini args) s =
    .next (if arg args 1 = 1 && (s.boundTo p).isSome then s.ret PIPE_TAKEN else (s.wr (uPP p) 0x218 (w32 (arg args 1))).ret OK) :=
  congrArg Host.Outcome.next ((ppCall_open is isOpen _).trans (if_neg (Nat.not_lt.mpr known)))

theorem exec_configureLink (is : arg args 0 = 0xB0 + l) (isLink : unitClass (0xB0 + l) = some .cl) (changes : s.Changeable (0xB0 + l))
    (may : s.fwAllows ini (regAddr (0xB0 + l) 0) true = true) (free : s.streamsClaimed l ((args.drop 2).take 4) = false) {w : Word}
    (isW : w = w32 (arg args 1)) (plain : w.toNat &&& 0xEF00FFFF = w.toNat) (stays : s.clCfgBad l w = false) (ok : clCfgOk w = true) {c : Nat}
    (set : s.setStreams l 0 ((args.drop 2).take 4) = (t, c)) :
    exec (.configureLink ini args) s = .next (if c = OK then (t.setClCfg l w).ret OK else s.ret c) := by
  obtain ⟨stands, unclaimed⟩ := changes
  subst isW
  have e : exec (.configureLink ini args) s = .next (callConfigureLink ini args s) := rfl
  have link : arg args 0 - 0xB0 = l := by rw [is, Nat.add_sub_cancel_left]
  rw [e]
  unfold callConfigureLink
  dsimp only
  rw [link, is, isLink, stands, may, unclaimed, free, plain, stays, ok, set, bne_self_eq_false (w32 (arg args 1)).toNat,
    if_neg (by decide), if_neg (by decide), if_neg (by decide), if_neg (by decide), if_neg (by decide)]
  cases c <;> rfl

theorem exec_moveCamera (is : arg args 0 = 0xB0 + l) (isLink : unitClass (0xB0 + l) = some .cl) (channel : arg args 1 ≤ 15)
    (bound : s.streamOf l (arg args 1) = some i) (isP : p = streamPipe (s.stream l i)) (may : s.ppMay ini p true = true)
    (linkFree : s.claimed (0xB0 + l) = false) (pipeFree : s.claimed (uPP p) = false) (idle : s.callWaits 0x0607 (l * 16 + arg args 1) = false)
    (any : arg args 2 = 0xFF) (free : ∀ k, s.candidate p = some k → s.claimed (uPP k) = false) : exec (.moveCamera ini args) s = .next (
      if (s.candidate p).isNone then s.ret NO_FREE_PIPE
      else (s.setPp p { s.pp p with move := some none }).retPending 0x0607 (l * 16 + arg args 1)) := by
  subst isP
  have e : exec (.moveCamera ini args) s = .next (callMoveCamera ini args s) := rfl
  have link : arg args 0 - 0xB0 = l := by rw [is, Nat.add_sub_cancel_left]
  have inRange : (unitClass (0xB0 + l) != some .cl || decide (15 < arg args 1)) = false := by
    rw [isLink, decide_eq_false (Nat.not_lt.mpr channel)]
    rfl
  have unclaimed : (s.candidate (streamPipe (s.stream l i))).any (fun k => s.claimed (uPP k)) = false := by
    cases c : s.candidate (streamPipe (s.stream l i)) with
    | none => rfl
    | some k => exact free k c
  rw [e]
  unfold callMoveCamera
  dsimp only
  rw [link, is, inRange, if_neg Bool.false_ne_true, bound]
  dsimp only
  rw [may, linkFree, pipeFree, idle, any, if_neg (by decide), if_neg (by decide), if_neg Bool.false_ne_true,
    if_neg (by rw [bne_self_eq_false, Bool.false_and]; exact Bool.false_ne_true),
    if_neg (by rw [bne_self_eq_false, Bool.false_and]; exact Bool.false_ne_true), if_pos rfl, Option.none_or, unclaimed,
    if_neg Bool.false_ne_true]

end

end

/-- Settles O42: each packet, line and call of the Press goes through the lemma of its case; a line that an injected error spoils is
counted before its pipeline is read, so that pipeline is read in the counted state. -/
theorem pressCommands : Obligations.PressCommands := by
  unfold Obligations.PressCommands
  refine ⟨?packets, ?cameras, ?streams, ?controls, ?sensors, ?calls, ?links⟩
  case packets =>
    intro l vc s l_lt vc_lt on
    have start (hdr : Nat) : exec (.csi2FrameStart l vc hdr) s = .next (s.frameStart l vc hdr) := exec_csi2FrameStart l_lt vc_lt
    have finish (hdr ps rate : Nat) : exec (.csi2FrameEnd l vc hdr ps rate) s = .next (s.frameEnd l vc hdr ps rate) :=
      exec_csi2FrameEnd l_lt vc_lt
    refine ⟨?headers, ?unbound, ?frames, ?lines⟩
    case headers =>
      exact fun ps rate => ⟨(start 2).trans (congrArg Host.Outcome.next (withStream_bad on _)),
        (finish 2 ps rate).trans (congrArg Host.Outcome.next (withStream_bad on _))⟩
    case unbound =>
      intro hdr ne t free
      exact ⟨(start hdr).trans (congrArg Host.Outcome.next (withStream_unbound on ne rfl free _)),
        fun ps rate => (finish hdr ps rate).trans (congrArg Host.Outcome.next (withStream_unbound on ne rfl free _))⟩
    case frames =>
      intro hdr i ne t bound p x
      refine ⟨?closed, ?stopped, ?runs, ?ends⟩
      case closed => exact fun idle shut => (start hdr).trans (congrArg Host.Outcome.next (frameStart_idle on ne rfl bound rfl idle shut))
      case stopped =>
        exact fun idle opened none =>
          (start hdr).trans (congrArg Host.Outcome.next (frameStart_stopped on ne rfl bound rfl rfl idle opened none))
      case runs =>
        intro idle opened runs none y u
        exact (start hdr).trans (congrArg Host.Outcome.next (frameStart_runs on ne rfl bound rfl rfl idle opened runs none))
      case ends =>
        intro ps rate d z
        have ended : exec (.csi2FrameEnd l vc hdr ps rate) s = .next (d.frameEnded l p ps rate) :=
          (finish hdr ps rate).trans (congrArg Host.Outcome.next (frameEnd_bound on ne rfl bound rfl))
        exact ⟨fun idle => ended.trans (congrArg Host.Outcome.next (frameEnded_idle idle)),
          fun frame still => ended.trans (congrArg Host.Outcome.next (frameEnded_stopped frame still)),
          fun frame runs down => ended.trans (congrArg Host.Outcome.next (frameEnded_down frame runs down)),
          fun frame runs up => ended.trans (congrArg Host.Outcome.next (frameEnded_closes frame runs up))⟩
    case lines =>
      intro i bound t p x
      refine ⟨?good, ?spoilt, ?other, ?embedded⟩
      case good =>
        intro dt crc freed payload v dt_lt type ok injected runs frame up more whole
        have same : v = t := congrArg Prod.fst (injected.symm.trans (injected_none (congrArg Prod.snd injected)))
        subst type
        refine (exec_csi2Line l_lt vc_lt dt_lt).trans (congrArg Host.Outcome.next ?_)
        refine (line_bound (bad := false) on rfl bound rfl rfl injected (by rw [ok, bne_self_eq_false]; rfl)).trans ?_
        rw [same]
        exact lineIn_good ⟨runs, frame, up, more⟩ rfl whole
      case spoilt =>
        intro dt crc freed payload v k dt_lt type injected bad u y runs frame up more
        refine (exec_csi2Line l_lt vc_lt dt_lt).trans (congrArg Host.Outcome.next ?_)
        refine (line_bound (bad := true) on rfl bound rfl type injected ?_).trans (lineIn_bad rfl ⟨runs, frame, up, more⟩)
        rw [Bool.or_eq_true, bne_iff_ne, bne_iff_ne]
        exact bad
      case other =>
        exact fun dt crc freed payload dt_lt other =>
          (exec_csi2Line l_lt vc_lt dt_lt).trans (congrArg Host.Outcome.next (line_type on rfl bound other))
      case embedded =>
        intro crc payload ok runs frame up first has c m k
        exact (exec_csi2EmbeddedLine l_lt vc_lt).trans
          (congrArg Host.Outcome.next (embedded_first on rfl bound rfl rfl ok runs frame up first has rfl rfl rfl))
  case cameras =>
    intro p s lt x
    refine ⟨exec_frameLateExpiry lt, fun free unit controller keeps => ?_, fun free goes l i bound idle => ⟨fun no => ?_, fun q found => ?_⟩⟩
    · exact (exec_cameraMove lt).trans (congrArg Host.Outcome.next (cameraMove_stays free unit controller keeps))
    · exact (exec_cameraMove lt).trans (congrArg Host.Outcome.next ((cameraMove_goes free goes).trans (moveStream_lost bound idle no)))
    · exact (exec_cameraMove lt).trans (congrArg Host.Outcome.next ((cameraMove_goes free goes).trans (moveStream_moved bound idle found)))
  case streams =>
    intro ini l i w s l_lt i_lt admits c
    refine ⟨fun ok => ?_, fun bad => ?_⟩
    · exact (exec_clStreamWrite l_lt i_lt admits).trans (congrArg Host.Outcome.next (if_neg (by rw [bne_iff_ne]; exact not_not_intro ok)))
    · exact (exec_clStreamWrite l_lt i_lt admits).trans (congrArg Host.Outcome.next (if_pos (bne_iff_ne.mpr bad)))
  case controls =>
    intro ini p w s lt x
    refine ⟨?load, ?start, ?empty, ?stop, ?now, ?set⟩
    case load => exact fun admits => (exec_ppCtlLoad lt).trans (congrArg Host.Outcome.next (ppCtl_load admits))
    case start =>
      exact fun admits has => (exec_ppCtlStart lt).trans
        (congrArg Host.Outcome.next ((ppCtl_start admits).trans (if_neg (by rw [List.isEmpty_iff]; exact has))))
    case empty =>
      exact fun admits none => (exec_ppCtlStart lt).trans
        (congrArg Host.Outcome.next ((ppCtl_start admits).trans (if_pos (List.isEmpty_iff.mpr none))))
    case stop => exact fun admits => (exec_ppCtlStop lt).trans (congrArg Host.Outcome.next (ppCtl_stop admits))
    case now => exact fun admits => (exec_ppCtlStopNow lt).trans (congrArg Host.Outcome.next (ppCtl_stopNow admits))
    case set =>
      intro v admits t st pushed
      rw [setResult_again]
      exact exec_ppPsetGo lt rfl admits pushed
  case sensors =>
    intro m s j r lt jobs
    have done (ack : Bool) : exec (.sensorWriteDone m ack) s = .next (s.writeEnds m ack) := exec_sensorWriteDone lt ack
    exact ⟨fun more => (done true).trans (congrArg Host.Outcome.next ((writeEnds_acked jobs).trans (if_pos more))),
      fun last => (done true).trans (congrArg Host.Outcome.next ((writeEnds_acked jobs).trans (if_neg last))),
      fun first => ⟨(done false).trans (congrArg Host.Outcome.next (writeEnds_retries jobs first)),
        (exec_clockStretchTimeout lt).trans (congrArg Host.Outcome.next (writeEnds_retries jobs first))⟩,
      fun again => (done false).trans (congrArg Host.Outcome.next (writeEnds_fails jobs again))⟩
  case calls =>
    intro ini p args s is isOpen n x
    refine ⟨?busy, ?loads, ?refused, ?waits, ?now, ?set, ?flicker, ?spare, ?taken⟩
    case busy => exact exec_loadDescriptor_busy is isOpen
    case loads => exact fun aligned idle t => exec_loadDescriptor_loads is isOpen aligned idle
    case refused => exact fun aligned idle t o => exec_loadDescriptor_refused is isOpen aligned idle
    case waits =>
      exact fun now busy => (exec_startOrStopPipeline_now is isOpen now).trans (congrArg Host.Outcome.next (if_pos busy))
    case now =>
      exact fun now idle ended => (exec_startOrStopPipeline_now is isOpen now).trans (congrArg Host.Outcome.next
        ((if_neg (Bool.eq_false_iff.mp idle)).trans (if_neg (Bool.eq_false_iff.mp ended))))
    case set => exact fun aligned t st => exec_pushParameterSet is isOpen aligned
    case flicker => exact exec_setFlickerThreshold is isOpen
    case spare =>
      intro want
      have known : arg args 1 ≤ 1 := by
        rcases want with none | ⟨one, -⟩
        · exact none.le.trans (Nat.zero_le 1)
        · exact one.le
      refine (exec_setSpare is isOpen known).trans (congrArg Host.Outcome.next (if_neg ?_))
      rw [Bool.and_eq_true, decide_eq_true_eq]
      rintro ⟨one, bound⟩
      rcases want with none | ⟨-, free⟩
      · exact absurd (one.symm.trans none) (by decide)
      · exact absurd bound (by rw [free]; decide)
    case taken =>
      intro one bound
      refine (exec_setSpare is isOpen one.le).trans (congrArg Host.Outcome.next (if_pos ?_))
      rw [Bool.and_eq_true, decide_eq_true_eq]
      exact ⟨one, bound⟩
  case links =>
    intro ini l args s is isLink n
    refine ⟨?configure, ?move⟩
    case configure =>
      intro w changes may free plain stays ok t c set
      exact exec_configureLink is isLink changes may free rfl plain stays ok set
    case move =>
      intro i channel bound p may linkFree pipeFree idle any free
      have moves := exec_moveCamera is isLink channel bound rfl may linkFree pipeFree idle any free
      exact ⟨fun no => moves.trans (congrArg Host.Outcome.next (if_pos (Option.isNone_iff_eq_none.mpr no))),
        fun some => moves.trans (congrArg Host.Outcome.next (if_neg (by rw [Option.isNone_iff_eq_none]; exact some)))⟩

end Sys2Proof.Machine
